-- ==== Sys2Proof/Word.lean ====
section
/-! DEFINITION. The word types of the Tutala T6 (spec/00_scope.md R3: bits are numbered from 0 at the
least significant end, and multi-byte values are little-endian). -/

namespace Sys2Proof

/-- A byte. -/
abbrev Byte := BitVec 8
/-- An instruction word (spec/13_encoding.md R217). -/
abbrev IWord := BitVec 32
/-- A scalar register (spec/02_strand_registers.md R25). -/
abbrev Word := BitVec 64
/-- A vector register, 16,384 bits (spec/02_strand_registers.md R27). -/
abbrev VReg := BitVec 16384
/-- A mask register, 2,048 bits (spec/02_strand_registers.md R32). -/
abbrev KReg := BitVec 2048
/-- A matrix frame of 64 rows of 512 bytes (spec/03_matrix_registers.md R45); byte b is bits [8b+7 : 8b]. -/
abbrev Tile := BitVec 262144
/-- A record of 64 bytes (descriptors, headers, continuation records). -/
abbrev Rec64 := BitVec 512

end Sys2Proof
end

