-- ==== Sys2Proof/Config.lean ====
section
/-! DEFINITION. What the manual leaves open, as free values: constants without a body, so that no proof can
see which value they take. Each is named in the assumption log. -/

namespace Sys2Proof.Config

/-- The source address and tag in the status record of a pigeonhole that completes without a message
(spec/08_receive_engine.md R144 says only code 4 and length 0). Assumption 5. Applied to State.fresh. -/
opaque statusWithoutMessage : Nat → BitVec 64

/-- How many L2 requests of a strand a turn made (event 0x0007 of spec/02_strand_registers.md R42), and how many compressed blocks a die's
reads in a turn took from HBM (event 0x0009). Assumption 6. Applied to State.fresh. -/
opaque timingEvents : Nat → BitVec 64

/-- Whether an ML-DSA-65 signature verifies over a 64-byte SHAKE256 digest, under the keys provisioned for a partition or those of the device
(spec/19_binary_interface.md R366, spec/20_host_links_and_bringup.md R374). Assumption 7. -/
opaque signatureOk : Nat → BitVec 512 → List Byte → Bool

/-- Whether the policy of a partition requires a signed image (spec/19_binary_interface.md R366). Assumption 7. -/
opaque signatureRequired : Nat → Bool

/-- The SHAKE256 digest of some bytes, as an attestation report holds it (spec/20_host_links_and_bringup.md R375). Assumption 7. -/
opaque digest : List Byte → BitVec 512

/-- The signature of some bytes under the device's ML-DSA-65 key (spec/20_host_links_and_bringup.md R375): 3,309 bytes. Assumption 7. -/
opaque deviceSignature : List Byte → BitVec 26472

/-- What a device register without a stated behaviour reads as when nothing was written to it
(spec/05_memories.md R82). Assumption 8. Applied to the register's address and State.fresh. -/
opaque deviceRead : Nat → Nat → BitVec 64

/-- The completion code of a landing whose payload met a shut-down stack or a peer that did not answer: the manual says that the
status reports it (spec/05_memories.md R94, R97) and gives no code for it (spec/08_receive_engine.md R141). The value is taken modulo 7:
no other code is written. Assumption 14. Applied to
State.fresh. -/
opaque lostLandingCode : Nat → BitVec 16

/-- Bytes of the parts of a save area for which the manual gives contents and no format (spec/09_translation_and_faults.md R170).
Assumption 16. Applied to State.fresh and the offset in the area. -/
opaque saveFormat : Nat → Nat → BitVec 8

/-- How much of a write whose target the spec leaves old or new (spec/08_receive_engine.md R143) took its new value:
the number of leading bytes written. Assumption 12. Applied to State.fresh. -/
opaque partialBytes : Nat → Nat

end Sys2Proof.Config
end

