-- ==== Sys2Proof/Syntax.lean ====
section
/-! DEFINITION. The instructions and steps of the Tutala T6: one constructor of `Instr` per row of
spec/opcode_table.json. The 226 encoded instructions carry the fields of their encoding
(spec/13_encoding.md R218 to R231), each at the width of the encoding. The 84 steps without an encoding are moves of
an engine, of Yalush, of the hypervisor or of the world outside; the choice they make or the data they bring is in
State.arg (`Args`), which the step sets from the turn. -/

namespace Sys2Proof

/-- What comes back for an outstanding request to another package (spec/05_memories.md R95, R97). For a local
access the model ignores it: the home's answer is computed. -/
inductive Reply where
  /-- the value the peer's home bound: the loaded bytes, 64 of them for a record, the old value of an atomic, or a barrier's old words -/
  | value (v : BitVec 512)
  /-- the peer's home met poison (spec/05_memories.md R103) -/
  | poison
  /-- the peer's stack is shut down (spec/05_memories.md R94) -/
  | memlost
  /-- the peer's home refused the access, for example a write to a scanned frame -/
  | refused
deriving DecidableEq, Repr

/-- A register of BAR0 of a virtual function (spec/20_host_links_and_bringup.md R369). -/
inductive Bar0 where
  | doorbell | ringBase | status
deriving DecidableEq, Repr

/-- A register written from outside the strands that has no behaviour of its own, or a register of BAR0 that the host reads
(spec/02_strand_registers.md R36, R38, spec/20_host_links_and_bringup.md R369, spec/09_translation_and_faults.md R156). -/
inductive RegTarget where
  /-- WDLIM in the save record of a saved gang's member (spec/09_translation_and_faults.md R167) -/
  | savedWdlim (area rank : Nat)
  /-- RINGBASE of a virtual function's BAR0 -/
  | ringBase (vf : Nat)
  /-- READY and ERR of a virtual function's BAR0: read-only -/
  | vfStatus (vf : Nat)
  /-- a read of a register of a virtual function's BAR0 -/
  | bar0Read (vf : Nat) (r : Bar0)
  /-- REMTO, written by Yalush between launches -/
  | remto
  /-- an entry of the peer table, written by Yalush -/
  | peer (n : BitVec 10)
  /-- a device register, by physical address -/
  | device (pa : Nat)
  /-- fields of the partition table that the hypervisor changes while the partition is active (spec/10_descriptor_tables.md R191) -/
  | table (p : BitVec 6)
deriving DecidableEq, Repr

/-- Which C queue a copy starts from. -/
inductive CopySource where
  /-- the C queue of the strand in a slot -/
  | slot (n : Nat)
  /-- the queue of a strand that has retired (spec/17_engine_and_system_instructions.md R315), by position -/
  | retired (idx : Nat)
deriving DecidableEq, Repr

/-- Which engine holds a guarded command at its head (spec/07_queues_and_scheduling.md R122). -/
inductive Engine where
  | copy | send
deriving DecidableEq, Repr

/-- How a send ends (spec/08_receive_engine.md R135). -/
inductive SendEnd where
  /-- a reply header from the receiving package -/
  | reply (h : Rec64)
  /-- the reply at this place of the package's own traffic -/
  | own (idx : Nat)
  /-- no reply within REMTO, or the peer is lost -/
  | giveUp
deriving DecidableEq, Repr

/-- A complete header at the receive engine (spec/08_receive_engine.md R136, R147). -/
inductive Arrival where
  /-- from another package, with the eager payload -/
  | fabric (peer : BitVec 10) (h : Rec64) (payload : List Byte)
  /-- the package's own traffic, by its place among the packets on their way -/
  | own (idx : Nat)
deriving DecidableEq, Repr

/-- A request with no reply after REMTO ticks (spec/05_memories.md R97). -/
inductive TimeoutTarget where
  /-- an outstanding stream access of a strand -/
  | access (slot idx : Nat)
  /-- a copy in flight -/
  | copy (idx : Nat)
  /-- a tile access of a started matrix command -/
  | tile (slot id : Nat)
  /-- a join decrement on its way to another package (spec/10_descriptor_tables.md R180), by position -/
  | join (idx : Nat)
  /-- a read of the level of a join on another package, by position -/
  | joinRead (idx : Nat)
  /-- an item of a completion that lies on another package (spec/08_receive_engine.md R135, R141), by the completion's position -/
  | ending (idx : Nat)
  /-- the source reads of the send at the head of a strand's order (spec/08_receive_engine.md R134) -/
  | sendSource (slot : Nat)
deriving DecidableEq, Repr

/-- A place that ECC protects (spec/05_memories.md R101, R102). -/
inductive EccTarget where
  /-- a byte of HBM, by physical address -/
  | hbm (pa : Nat)
  /-- an L2 row holding the line of this physical address -/
  | l2 (pa : Nat)
  /-- a 32-byte sector of an MSM frame -/
  | msm (core frame sector : Nat)
  /-- a vector register of the strand in a slot -/
  | vector (slot reg : Nat)
  /-- a scalar register of the strand in a slot -/
  | scalar (slot reg : Nat)
  /-- a mask register of the strand in a slot -/
  | mask (slot reg : Nat)
  /-- a CSR of the strand in a slot -/
  | csr (slot num : Nat)
  /-- any other on-chip SRAM of a die -/
  | other (die : Nat)
deriving DecidableEq, Repr

/-- What raises a security alarm (spec/09_translation_and_faults.md R175). -/
inductive AlarmCause where
  | tamper | voltageGlitch | invalidUnlock
deriving DecidableEq, Repr

/-- What leaves P2 (spec/20_host_links_and_bringup.md R377). -/
inductive IdleCause where
  | doorbell | fabricArrival | enqueuedRecord
deriving DecidableEq, Repr

/-- What the bring-up after power-good finds (spec/20_host_links_and_bringup.md R374). -/
structure BringUp where
  /-- the firmware bytes in board flash -/
  flash : List Byte
  /-- the alarm policy of the signed configuration: true is erase -/
  erase : Bool
  /-- stacks that fail their test, bit by bit -/
  badStacks : BitVec 12
  /-- UALink ports that train, bit by bit -/
  ports : BitVec 18
  /-- the bytes of the Yalush image -/
  yalush : List Byte
deriving DecidableEq, Repr

/-- A UALink request from another package (spec/05_memories.md R95, R96). -/
inductive RemoteOp where
  | read (pa n : Nat)
  | write (pa : Nat) (data : List Byte)
  /-- a copy's write of a sector that carries poison (spec/05_memories.md R103) -/
  | poisoned (pa : Nat) (data : List Byte)
  /-- operation code of spec/14_scalar_instructions.md R245; `wide` is size D -/
  | atomic (op : BitVec 4) (wide : Bool) (pa : Nat) (b : Word)
  | cas (wide : Bool) (pa : Nat) (expected new : Word)
  /-- a VRRED packet for one line: format code, FTZ, and for each word its offset, the element and its scale word
  (spec/05_memories.md R100) -/
  | reduce (code : BitVec 8) (ftz : Bool) (pa : Nat) (adds : List (Nat × BitVec 32 × BitVec 20))
  /-- VAPPEND's update of a descriptor (spec/10_descriptor_tables.md R188) -/
  | append (pa m : Nat)
  /-- a barrier update, for a partition and a strand (spec/12_barriers_and_counters.md R207) -/
  | barrier (p : BitVec 6) (sid : BitVec 11) (pa dA : Nat) (dS : Int)
  /-- BINIT (spec/17_engine_and_system_instructions.md R317) -/
  | binit (pa : Nat) (q : BitVec 24)
  /-- the wait entry of a BWAIT on phase `ph` (spec/17_engine_and_system_instructions.md R318) -/
  | bwait (pa : Nat) (ph : BitVec 4)
  /-- wakes of cells, or SWAKEE's pass, for a partition and a strand, to the wake unit of a descriptor's home (spec/11_context_tensors.md
  R198) -/
  | wake (p : BitVec 6) (sid : BitVec 11) (pa : Nat) (cells : List Nat) (event : Option (BitVec 24))
  /-- a join decrement, for a partition and a strand (spec/10_descriptor_tables.md R180) -/
  | join (p : BitVec 6) (sid : BitVec 11) (pa : Nat)
  /-- BTEST's read of an object, whose home tells the peer of its phase advances from then on (spec/17_engine_and_system_instructions.md
  R334) -/
  | btest (pa : Nat)
  /-- the home of an object that a BTEST of this package has named tells of a phase advance -/
  | advanced (pa : Nat)
  /-- the wake unit of a descriptor's home has applied the wakes that it accepted of a strand of this package (spec/11_context_tensors.md
  R198) -/
  | applied (sid : BitVec 11) (pa : Nat)
deriving DecidableEq, Repr

/-- What a step without an encoding was given: the choice it makes, or the data it brings from outside. Each such
step reads the members that its constructor names. -/
structure Args where
  /-- a slot of the package, 0 to 1,151; 1,152 for a join decrement of EXIT -/
  slot : Nat
  /-- a position in a list of the state -/
  idx : Nat
  /-- a command, pair, tag, die, core or stack number -/
  num : Nat
  /-- a mailbox, virtual function, port or power figure -/
  mb : Nat
  /-- a gang area, address or byte count -/
  area : Nat
  /-- the partition -/
  p : BitVec 6
  a0 : Word
  a1 : Word
  a2 : Word
  a3 : Word
  a4 : Word
  flag : Bool
  data : List Byte
  rep : Reply
  reg : RegTarget
  copySrc : CopySource
  engine : Engine
  sendEnd : SendEnd
  arrival : Arrival
  timeout : TimeoutTarget
  ecc : EccTarget
  cause : AlarmCause
  idle : IdleCause
  bring : BringUp
  peer : BitVec 10
  remote : RemoteOp
  peers : List Nat
  entry : BitVec 4096
deriving DecidableEq, Repr

/-- No argument. -/
def Args.none : Args where
  slot := 0
  idx := 0
  num := 0
  mb := 0
  area := 0
  p := 0#6
  a0 := 0#64
  a1 := 0#64
  a2 := 0#64
  a3 := 0#64
  a4 := 0#64
  flag := false
  data := []
  rep := .value 0#512
  reg := .remto
  copySrc := .slot 0
  engine := .copy
  sendEnd := .giveUp
  arrival := .own 0
  timeout := .copy 0
  ecc := .other 0
  cause := .tamper
  idle := .doorbell
  bring := ⟨[], false, 0#12, 0#18, []⟩
  peer := 0#10
  remote := .read 0 0
  peers := []
  entry := 0#4096

/-- The instructions and steps of the part. -/
inductive Instr where
  /-- Writes the sum of two scalar registers, modulo 2^64, to s[d]. (R236) -/
  | add (d a b : BitVec 5)
  /-- Writes the difference of two scalar registers, modulo 2^64, to s[d]. (R236) -/
  | sub (d a b : BitVec 5)
  /-- Writes the bitwise AND of two scalar registers to s[d]. (R236) -/
  | and (d a b : BitVec 5)
  /-- Writes the bitwise OR of two scalar registers to s[d]. (R236) -/
  | or (d a b : BitVec 5)
  /-- Writes the bitwise XOR of two scalar registers to s[d]. (R236) -/
  | xor (d a b : BitVec 5)
  /-- Writes A AND NOT B to s[d]. (R236) -/
  | andn (d a b : BitVec 5)
  /-- Shifts A left by B[5:0], with zeros entering. (R236) -/
  | sll (d a b : BitVec 5)
  /-- Shifts A right logically by B[5:0]. (R236) -/
  | srl (d a b : BitVec 5)
  /-- Shifts A right arithmetically by B[5:0]. (R236) -/
  | sra (d a b : BitVec 5)
  /-- Writes 1 when A is less than B as signed values, otherwise 0. (R236) -/
  | slt (d a b : BitVec 5)
  /-- Writes 1 when A is less than B as unsigned values, otherwise 0. (R236) -/
  | sltu (d a b : BitVec 5)
  /-- Writes the signed minimum of A and B. (R236) -/
  | min (d a b : BitVec 5)
  /-- Writes the signed maximum of A and B. (R236) -/
  | max (d a b : BitVec 5)
  /-- Writes the unsigned minimum of A and B. (R236) -/
  | minu (d a b : BitVec 5)
  /-- Writes the unsigned maximum of A and B. (R236) -/
  | maxu (d a b : BitVec 5)
  /-- Writes the low 64 bits of A times B. (R236) -/
  | mul (d a b : BitVec 5)
  /-- Writes the high 64 bits of the signed product of A and B. (R236) -/
  | mulh (d a b : BitVec 5)
  /-- Writes the high 64 bits of the unsigned product of A and B. (R236) -/
  | mulhu (d a b : BitVec 5)
  /-- Writes the signed quotient rounded toward zero, with the defined division-by-zero and overflow results. (R237) -/
  | div (d a b : BitVec 5)
  /-- Writes the unsigned quotient, giving all ones on division by zero. (R237) -/
  | divu (d a b : BitVec 5)
  /-- Writes the signed remainder, which takes the sign of the dividend. (R237) -/
  | rem (d a b : BitVec 5)
  /-- Writes the unsigned remainder, giving the dividend on division by zero. (R237) -/
  | remu (d a b : BitVec 5)
  /-- Counts the leading zero bits of A. (R236) -/
  | clz (d a : BitVec 5)
  /-- Counts the trailing zero bits of A. (R236) -/
  | ctz (d a : BitVec 5)
  /-- Counts the set bits of A. (R236) -/
  | popc (d a : BitVec 5)
  /-- Writes B to s[d] when A is non-zero, and otherwise leaves s[d] unchanged. (R236) -/
  | csel (d a b : BitVec 5)
  /-- Writes the 32-bit sum of A and B, sign-extended. (R236) -/
  | addw (d a b : BitVec 5)
  /-- Writes the 32-bit difference of A and B, sign-extended. (R236) -/
  | subw (d a b : BitVec 5)
  /-- Writes the 32-bit product of A and B, sign-extended. (R236) -/
  | mulw (d a b : BitVec 5)
  /-- Adds a sign-extended immediate to s[a]. (R238) -/
  | addi (d a : BitVec 5) (i : BitVec 16)
  /-- ANDs s[a] with a sign-extended immediate. (R238) -/
  | andi (d a : BitVec 5) (i : BitVec 16)
  /-- ORs s[a] with a zero-extended immediate. (R238) -/
  | ori (d a : BitVec 5) (i : BitVec 16)
  /-- XORs s[a] with a zero-extended immediate. (R238) -/
  | xori (d a : BitVec 5) (i : BitVec 16)
  /-- Compares s[a] with a sign-extended immediate as signed values. (R238) -/
  | slti (d a : BitVec 5) (i : BitVec 16)
  /-- Compares s[a] with a sign-extended immediate as unsigned values. (R238) -/
  | sltiu (d a : BitVec 5) (i : BitVec 16)
  /-- Inserts a 16-bit immediate at halfword position pos of s[d] and keeps its other bits. (R239) -/
  | lih (d : BitVec 5) (p : BitVec 2) (i : BitVec 16)
  /-- Shifts s[a] left by an immediate amount. (R240) -/
  | slli (d a : BitVec 5) (n : BitVec 6)
  /-- Shifts s[a] right logically by an immediate amount. (R240) -/
  | srli (d a : BitVec 5) (n : BitVec 6)
  /-- Shifts s[a] right arithmetically by an immediate amount. (R240) -/
  | srai (d a : BitVec 5) (n : BitVec 6)
  /-- Adds two FP32 scalars with RNE. (R241) -/
  | fadd (d a b : BitVec 5)
  /-- Subtracts two FP32 scalars with RNE. (R241) -/
  | fsub (d a b : BitVec 5)
  /-- Multiplies two FP32 scalars with RNE. (R241) -/
  | fmul (d a b : BitVec 5)
  /-- Computes x × y + s[d] in FP32 with a single rounding. (R241) -/
  | fma (d a b : BitVec 5)
  /-- Writes the smaller FP32 scalar under the NaN and signed-zero rules. (R241) -/
  | fmin (d a b : BitVec 5)
  /-- Writes the larger FP32 scalar under the NaN and signed-zero rules. (R241) -/
  | fmax (d a b : BitVec 5)
  /-- Converts FP32 to INT32 toward zero, with saturation. (R241) -/
  | fcvtws (d a : BitVec 5)
  /-- Converts INT32 to FP32 with RNE. (R241) -/
  | fcvtsw (d a : BitVec 5)
  /-- Writes 1 when x is less than y, and 0 when either operand is NaN. (R241) -/
  | flt (d a b : BitVec 5)
  /-- Writes 1 when x equals y, and 0 when either operand is NaN. (R241) -/
  | feq (d a b : BitVec 5)
  /-- Loads a zero-extended value of size B, H, W or D into s[d]. (R242) -/
  | ld (d a : BitVec 5) (o : BitVec 14) (z : BitVec 2)
  /-- Loads a sign-extended value of size B, H or W into s[d]. (R242) -/
  | lds (d a : BitVec 5) (o : BitVec 14) (z : BitVec 2)
  /-- Stores the low n bytes of s[d]. (R242) -/
  | st (d a : BitVec 5) (o : BitVec 14) (z : BitVec 2)
  /-- Loads with acquire semantics; no later instruction issues until the load is performed. (R244) -/
  | lda (d a : BitVec 5) (c : BitVec 2) (z : BitVec 1)
  /-- Stores with release semantics after every earlier stream access within its scope. (R244) -/
  | str (a b : BitVec 5) (c : BitVec 2) (z : BitVec 1)
  /-- Waits for the earlier accesses, slots and queue commands within its scope, and delivers any pending deferred error. (R244) -/
  | fence (c : BitVec 2)
  /-- Atomically adds B at the home and returns the old value. (R245) -/
  | amoAdd (d a b : BitVec 5) (m r q : BitVec 1) (c : BitVec 2) (z : BitVec 1)
  /-- Atomically ANDs B at the home and returns the old value. (R245) -/
  | amoAnd (d a b : BitVec 5) (m r q : BitVec 1) (c : BitVec 2) (z : BitVec 1)
  /-- Atomically ORs B at the home and returns the old value. (R245) -/
  | amoOr (d a b : BitVec 5) (m r q : BitVec 1) (c : BitVec 2) (z : BitVec 1)
  /-- Atomically XORs B at the home and returns the old value. (R245) -/
  | amoXor (d a b : BitVec 5) (m r q : BitVec 1) (c : BitVec 2) (z : BitVec 1)
  /-- Atomically writes the signed minimum at the home and returns the old value. (R245) -/
  | amoSmin (d a b : BitVec 5) (m r q : BitVec 1) (c : BitVec 2) (z : BitVec 1)
  /-- Atomically writes the signed maximum at the home and returns the old value. (R245) -/
  | amoSmax (d a b : BitVec 5) (m r q : BitVec 1) (c : BitVec 2) (z : BitVec 1)
  /-- Atomically writes the unsigned minimum at the home and returns the old value. (R245) -/
  | amoUmin (d a b : BitVec 5) (m r q : BitVec 1) (c : BitVec 2) (z : BitVec 1)
  /-- Atomically writes the unsigned maximum at the home and returns the old value. (R245) -/
  | amoUmax (d a b : BitVec 5) (m r q : BitVec 1) (c : BitVec 2) (z : BitVec 1)
  /-- Atomically writes B at the home and returns the old value. (R245) -/
  | amoSwap (d a b : BitVec 5) (r q : BitVec 1) (c : BitVec 2) (z : BitVec 1)
  /-- Atomically performs an FP32 add with RNE at the home and returns the old value. (R245) -/
  | amoFadd (d a b : BitVec 5) (m r q : BitVec 1) (c : BitVec 2)
  /-- Compares the location with s[d] and, when they are equal, swaps in s[b] as one access; returns the old value. (R247) -/
  | cas (d a b : BitVec 5) (r q : BitVec 1) (c : BitVec 2) (z : BitVec 1)
  /-- Stores data and then increments a flag word once the data write is acknowledged. (R249) -/
  | stn (d a b : BitVec 5) (c : BitVec 2) (z : BitVec 1)
  /-- Branches when A equals B. (R250) -/
  | bcEq (a b : BitVec 5) (o : BitVec 13)
  /-- Branches when A differs from B. (R250) -/
  | bcNe (a b : BitVec 5) (o : BitVec 13)
  /-- Branches when A is less than B as signed values. (R250) -/
  | bcLt (a b : BitVec 5) (o : BitVec 13)
  /-- Branches when A is greater than or equal to B as signed values. (R250) -/
  | bcGe (a b : BitVec 5) (o : BitVec 13)
  /-- Branches when A is less than B as unsigned values. (R250) -/
  | bcLtu (a b : BitVec 5) (o : BitVec 13)
  /-- Branches when A is greater than or equal to B as unsigned values. (R250) -/
  | bcGeu (a b : BitVec 5) (o : BitVec 13)
  /-- Branches when A AND B is non-zero. (R250) -/
  | bcBset (a b : BitVec 5) (o : BitVec 13)
  /-- Branches when A AND B is zero. (R250) -/
  | bcBclr (a b : BitVec 5) (o : BitVec 13)
  /-- Jumps to PC plus a word offset. (R251) -/
  | j (o : BitVec 26)
  /-- Jumps to PC plus a word offset and links in s31. (R251) -/
  | jal (o : BitVec 26)
  /-- Jumps to s[a] plus a word offset and links in s[d]; raises ALIGN for a misaligned target. (R251) -/
  | jalr (d a : BitVec 5) (i : BitVec 16)
  /-- Makes a typed indirect call through a function-table entry, checking its index, VALID bit and signature. (R252) -/
  | callt (a : BitVec 5) (s : BitVec 16)
  /-- Does nothing; its argument is an ignored hint. (R253) -/
  | nop (n : BitVec 12)
  /-- Reads a CSR into s[d] in program order. (R254) -/
  | csrr (d : BitVec 5) (c : BitVec 12)
  /-- Writes s[a] to a CSR by its access codes. (R254) -/
  | csrw (a : BitVec 5) (c : BitVec 12)
  /-- Sets CSR bits from s[a]. (R254) -/
  | csrs (a : BitVec 5) (c : BitVec 12)
  /-- Clears CSR bits from s[a]. (R254) -/
  | csrc (a : BitVec 5) (c : BitVec 12)
  /-- Waits as FENCE.p does, then raises TRAP with INDEX n and resumes at the next instruction. (R255) -/
  | trap (n : BitVec 12)
  /-- Raises BKPT at once and resumes at the next instruction. (R255) -/
  | bkpt
  /-- Waits until the strand's event flag is set or the timeout passes, then clears the flag. (R334) -/
  | wfe (a : BitVec 5)
  /-- Retires the strand: resolves its guards false, drains, abandons any sweep, ends its KIND-01 pigeonholes, frees its resources and decrements the join when it is the gang's last member. (R337) -/
  | exit
  /-- Retires at once; its slot is then passed over until the other ready slots have issued, or for at most 4 ticks. (R253) -/
  | yield
  /-- Waits until the listed scoreboard slots are no longer pending, raising SLOT_ERROR for a slot in error. (R335) -/
  | wsb (m : BitVec 7)
  /-- Checks a continuation record and enqueues a copy of it at the adjusted priority, as a release at package scope. (R336) -/
  | fork (a : BitVec 5) (p : BitVec 2)
  /-- Sets VTYPE and VL = min(request, VLMAX) and writes VL to s[d]. (R262) -/
  | vcfg (d a : BitVec 5) (g e : BitVec 2)
  /-- Adds integer elements modulo 2^SEW. (R263) -/
  | vadd (d a b : BitVec 5) (x y : BitVec 1) (k : BitVec 3)
  /-- Subtracts integer elements. (R263) -/
  | vsub (d a b : BitVec 5) (x y : BitVec 1) (k : BitVec 3)
  /-- Writes the low half of integer element products. (R263) -/
  | vmul (d a b : BitVec 5) (x y : BitVec 1) (k : BitVec 3)
  /-- Writes the high half of signed element products. (R263) -/
  | vmulh (d a b : BitVec 5) (x y : BitVec 1) (k : BitVec 3)
  /-- ANDs elements. (R263) -/
  | vand (d a b : BitVec 5) (x y : BitVec 1) (k : BitVec 3)
  /-- ORs elements. (R263) -/
  | vor (d a b : BitVec 5) (x y : BitVec 1) (k : BitVec 3)
  /-- XORs elements. (R263) -/
  | vxor (d a b : BitVec 5) (x y : BitVec 1) (k : BitVec 3)
  /-- Writes A AND NOT B for each element. (R263) -/
  | vandn (d a b : BitVec 5) (x y : BitVec 1) (k : BitVec 3)
  /-- Shifts elements left. (R263) -/
  | vsll (d a b : BitVec 5) (x y : BitVec 1) (k : BitVec 3)
  /-- Shifts elements right logically. (R263) -/
  | vsrl (d a b : BitVec 5) (x y : BitVec 1) (k : BitVec 3)
  /-- Shifts elements right arithmetically. (R263) -/
  | vsra (d a b : BitVec 5) (x y : BitVec 1) (k : BitVec 3)
  /-- Writes the signed minimum of elements. (R263) -/
  | vmin (d a b : BitVec 5) (x y : BitVec 1) (k : BitVec 3)
  /-- Writes the signed maximum of elements. (R263) -/
  | vmax (d a b : BitVec 5) (x y : BitVec 1) (k : BitVec 3)
  /-- Writes the unsigned minimum of elements. (R263) -/
  | vminu (d a b : BitVec 5) (x y : BitVec 1) (k : BitVec 3)
  /-- Writes the unsigned maximum of elements. (R263) -/
  | vmaxu (d a b : BitVec 5) (x y : BitVec 1) (k : BitVec 3)
  /-- Adds signed elements with saturation and sets SAT when it clamps. (R263) -/
  | vadds (d a b : BitVec 5) (x y : BitVec 1) (k : BitVec 3)
  /-- Sets mask bits where integer elements are equal. (R264) -/
  | vcmpEq (d : BitVec 3) (a b : BitVec 5) (x y : BitVec 1) (k : BitVec 3)
  /-- Sets mask bits where integer elements differ. (R264) -/
  | vcmpNe (d : BitVec 3) (a b : BitVec 5) (x y : BitVec 1) (k : BitVec 3)
  /-- Sets mask bits where A is less than B as signed values. (R264) -/
  | vcmpLt (d : BitVec 3) (a b : BitVec 5) (x y : BitVec 1) (k : BitVec 3)
  /-- Sets mask bits where A is less than or equal to B as signed values. (R264) -/
  | vcmpLe (d : BitVec 3) (a b : BitVec 5) (x y : BitVec 1) (k : BitVec 3)
  /-- Sets mask bits where A is less than B as unsigned values. (R264) -/
  | vcmpLtu (d : BitVec 3) (a b : BitVec 5) (x y : BitVec 1) (k : BitVec 3)
  /-- Sets mask bits where A is less than or equal to B as unsigned values. (R264) -/
  | vcmpLeu (d : BitVec 3) (a b : BitVec 5) (x y : BitVec 1) (k : BitVec 3)
  /-- Sets mask bits where floating elements are equal. (R264) -/
  | vcmpFeq (d : BitVec 3) (a b : BitVec 5) (x y : BitVec 1) (k s : BitVec 3)
  /-- Sets mask bits where floating A is less than B. (R264) -/
  | vcmpFlt (d : BitVec 3) (a b : BitVec 5) (x y : BitVec 1) (k s : BitVec 3)
  /-- Adds floating elements, rounding once to FD. (R265) -/
  | vfadd (d a b : BitVec 5) (x y : BitVec 1) (k s : BitVec 3)
  /-- Subtracts floating elements. (R265) -/
  | vfsub (d a b : BitVec 5) (x y : BitVec 1) (k s : BitVec 3)
  /-- Multiplies floating elements. (R265) -/
  | vfmul (d a b : BitVec 5) (x y : BitVec 1) (k s : BitVec 3)
  /-- Writes the floating minimum of elements. (R265) -/
  | vfmin (d a b : BitVec 5) (x y : BitVec 1) (k s : BitVec 3)
  /-- Writes the floating maximum of elements. (R265) -/
  | vfmax (d a b : BitVec 5) (x y : BitVec 1) (k s : BitVec 3)
  /-- Divides floating elements with correct rounding. (R265) -/
  | vfdiv (d a b : BitVec 5) (x y : BitVec 1) (k s : BitVec 3)
  /-- Takes the square root of floating elements. (R265) -/
  | vfsqrt (d a : BitVec 5) (x : BitVec 1) (k s : BitVec 3)
  /-- Multiplies elements by 2^n, with n an integer from B. (R265) -/
  | vfscale (d a b : BitVec 5) (x y : BitVec 1) (k s : BitVec 3)
  /-- Computes A × B + D with one rounding. (R266) -/
  | vfma (d a b : BitVec 5) (x y : BitVec 1) (k s : BitVec 3)
  /-- Computes A × B − D with one rounding. (R266) -/
  | vfms (d a b : BitVec 5) (x y : BitVec 1) (k s : BitVec 3)
  /-- Computes −(A × B) + D with one rounding. (R266) -/
  | vfnma (d a b : BitVec 5) (x y : BitVec 1) (k s : BitVec 3)
  /-- Computes −(A × B) − D with one rounding. (R266) -/
  | vfnms (d a b : BitVec 5) (x y : BitVec 1) (k s : BitVec 3)
  /-- Converts, quantises or dequantises elements between the formats FA and FD. (R267) -/
  | vfcvt (d a : BitVec 5) (x : BitVec 1) (k s : BitVec 3)
  /-- Rounds elements to integral values in the same format. (R268) -/
  | vfcvti (d a : BitVec 5) (x : BitVec 1) (k s : BitVec 3)
  /-- Inverts the sign bit of elements. (R268) -/
  | vfneg (d a : BitVec 5) (x : BitVec 1) (k s : BitVec 3)
  /-- Clears the sign bit of elements. (R268) -/
  | vfabs (d a : BitVec 5) (x : BitVec 1) (k s : BitVec 3)
  /-- Writes the class code of each element. (R269) -/
  | vfclass (d a : BitVec 5) (x : BitVec 1) (k s : BitVec 3)
  /-- Sums the active integer elements into element 0. (R270) -/
  | vredsum (d a : BitVec 5) (x : BitVec 1) (k : BitVec 3)
  /-- Writes the signed maximum of the active elements to element 0. (R270) -/
  | vredmax (d a : BitVec 5) (x : BitVec 1) (k : BitVec 3)
  /-- Writes the signed minimum of the active elements to element 0. (R270) -/
  | vredmin (d a : BitVec 5) (x : BitVec 1) (k : BitVec 3)
  /-- Writes the unsigned maximum of the active elements to element 0. (R270) -/
  | vredmaxu (d a : BitVec 5) (x : BitVec 1) (k : BitVec 3)
  /-- Writes the unsigned minimum of the active elements to element 0. (R270) -/
  | vredminu (d a : BitVec 5) (x : BitVec 1) (k : BitVec 3)
  /-- Sums floating elements as a pairwise tree, rounding each node with RNE. (R78) -/
  | vfredsum (d a : BitVec 5) (x : BitVec 1) (k s : BitVec 3)
  /-- Takes the floating maximum as a pairwise tree. (R78) -/
  | vfredmax (d a : BitVec 5) (x : BitVec 1) (k s : BitVec 3)
  /-- Takes the floating minimum as a pairwise tree. (R78) -/
  | vfredmin (d a : BitVec 5) (x : BitVec 1) (k s : BitVec 3)
  /-- Permutes elements by index, giving zero for an index of VL or more. (R271) -/
  | vperm (d a b : BitVec 5) (x y : BitVec 1) (k : BitVec 3)
  /-- Slides elements up by s[b]. (R271) -/
  | vslideup (d a b : BitVec 5) (x : BitVec 1) (k : BitVec 3)
  /-- Slides elements down by s[b]. (R271) -/
  | vslidedn (d a b : BitVec 5) (x : BitVec 1) (k : BitVec 3)
  /-- Packs the active elements to the front and zeroes the rest. (R272) -/
  | vcompress (d a : BitVec 5) (x : BitVec 1) (k : BitVec 3)
  /-- Spreads consecutive elements into the active lanes. (R272) -/
  | vexpand (d a : BitVec 5) (x : BitVec 1) (k : BitVec 3)
  /-- Writes each active lane's rank among the active lanes. (R272) -/
  | viota (d : BitVec 5) (k : BitVec 3)
  /-- Reads each lane from the vector register whose number is in B. (R273) -/
  | vrix (d b : BitVec 5) (y : BitVec 1) (k : BitVec 3)
  /-- Writes each lane into the vector register whose number is in B. (R273) -/
  | vrixw (a b : BitVec 5) (x y : BitVec 1) (k : BitVec 3)
  /-- Copies the active elements. (R274) -/
  | vmv (d a : BitVec 5) (x : BitVec 1) (k : BitVec 3)
  /-- Copies a scalar into every active element. (R274) -/
  | vsplat (d a : BitVec 5) (k : BitVec 3)
  /-- Extracts one element into a scalar, zero-extended. (R274) -/
  | vext (d a b : BitVec 5) (x : BitVec 1)
  /-- Inserts a scalar into one element. (R274) -/
  | vins (d a b : BitVec 5)
  /-- Selects each element from A or B by the mask. (R274) -/
  | vsel (d a b : BitVec 5) (x y : BitVec 1) (k : BitVec 3)
  /-- Copies the whole vector register whose number is in s[a] into register d. (R275) -/
  | vmvi (d a : BitVec 5)
  /-- Copies whole register a into the vector register whose number is in s[d]. (R275) -/
  | vmvo (d a : BitVec 5) (x : BitVec 1)
  /-- ANDs two masks below VL. (R276) -/
  | kand (d a b : BitVec 3)
  /-- ORs two masks below VL. (R276) -/
  | kor (d a b : BitVec 3)
  /-- XORs two masks below VL. (R276) -/
  | kxor (d a b : BitVec 3)
  /-- Writes ka AND NOT kb below VL. (R276) -/
  | kandn (d a b : BitVec 3)
  /-- Counts the set mask bits below VL into a scalar. (R277) -/
  | kpopc (d : BitVec 5) (a : BitVec 3)
  /-- Writes the index of the lowest set mask bit, or −1 when none is set. (R277) -/
  | kfirst (d : BitVec 5) (a : BitVec 3)
  /-- Sets the mask bits below the lowest set bit. (R277) -/
  | kbrka (d a : BitVec 3)
  /-- Sets the mask bits up to and including the lowest set bit. (R277) -/
  | kbrki (d a : BitVec 3)
  /-- Appends a whole-register strip to the arrival queue of every living gang member, in one tick. (R278) -/
  | gbcast (a : BitVec 5) (x : BitVec 1)
  /-- Removes the oldest strip of the strand's own arrival queue into a register, waiting while the queue is empty. (R278) -/
  | grecv (d : BitVec 5)
  /-- Loads contiguous elements. (R281) -/
  | vld (v a : BitVec 5) (k w s : BitVec 3)
  /-- Loads elements at a stride. (R281) -/
  | vlds (v a b : BitVec 5) (k w s : BitVec 3)
  /-- Gathers elements by index. (R281) -/
  | vldx (v a b : BitVec 5) (k w s : BitVec 3) (c : BitVec 1)
  /-- Gathers elements by index and sets the strand's link on each element's line. (R283) -/
  | vgl (v a b : BitVec 5) (k w s : BitVec 3) (c : BitVec 1)
  /-- Stores contiguous elements. (R281) -/
  | vst (v a : BitVec 5) (k w s : BitVec 3) (c : BitVec 1)
  /-- Stores elements at a stride. (R281) -/
  | vsts (v a b : BitVec 5) (k w s : BitVec 3) (c : BitVec 1)
  /-- Scatters elements by index. (R281) -/
  | vstx (v a b : BitVec 5) (k w s : BitVec 3) (c : BitVec 1)
  /-- Writes each element only while the strand's link on its line holds, and clears the failed lanes from the mask. (R284) -/
  | vsc (v a b : BitVec 5) (k w s : BitVec 3) (c : BitVec 1)
  /-- Loads contiguous elements and truncates VL at the first faulting element after the first. (R282) -/
  | vldff (v a : BitVec 5) (k w s : BitVec 3)
  /-- Atomically reserves TAIL indices in a work vector and writes the active elements there. (R285) -/
  | vappend (v a b : BitVec 5) (k w s : BitVec 3) (c : BitVec 1)
  /-- Adds each element into an FP32 word at its home, as a remote reduction packet. (R286) -/
  | vrred (v a b : BitVec 5) (k w s : BitVec 3) (c : BitVec 1)
  /-- Computes the tile grant from a request and writes it to TSH and s[d]. (R290) -/
  | tshape (d a : BitVec 5) (f : BitVec 3)
  /-- Sets the matrix window base MW from s[a][7:0]. (R292) -/
  | setmw (a : BitVec 5)
  /-- Starts the fill of an ABSENT matrix register. (R293) -/
  | tpref (m : BitVec 5) (p w : BitVec 2)
  /-- Makes a matrix register ZERO without write-back. (R293) -/
  | tdrop (m : BitVec 5) (p w : BitVec 2)
  /-- Makes a matrix register ZERO, as TDROP does. (R293) -/
  | tzero (m : BitVec 5) (p w : BitVec 2)
  /-- Loads an A-view tile from memory into a fresh frame, with an optional transpose layout. (R295) -/
  | tloadA (m a b : BitVec 5) (y p w : BitVec 2)
  /-- Loads a B-view tile, with an optional transpose layout. (R295) -/
  | tloadB (m a b : BitVec 5) (y p w : BitVec 2)
  /-- Loads an ACC48 tile. (R295) -/
  | tloadC (m a b : BitVec 5) (p w : BitVec 2)
  /-- Stores the granted A-view rows to memory. (R295) -/
  | tstoreA (m a b : BitVec 5) (p w : BitVec 2)
  /-- Stores the granted B-view rows to memory. (R295) -/
  | tstoreB (m a b : BitVec 5) (p w : BitVec 2)
  /-- Stores the granted ACC48 rows to memory. (R295) -/
  | tstoreC (m a b : BitVec 5) (p w : BitVec 2)
  /-- Accumulates A·Bᵀ into D without a plane swap. (R303) -/
  | tmma (d a : BitVec 5) (l : BitVec 1) (f : BitVec 3) (p w : BitVec 2)
  /-- Sets D to A·Bᵀ without a plane swap. (R303) -/
  | tmmaSet (d a : BitVec 5) (l : BitVec 1) (f : BitVec 3) (p w : BitVec 2)
  /-- Swaps the plane designations, then accumulates A·Bᵀ into D. (R303) -/
  | tmmaSw (d a : BitVec 5) (l : BitVec 1) (f : BitVec 3) (p w : BitVec 2)
  /-- Swaps the plane designations, then sets D to A·Bᵀ. (R303) -/
  | tmmaSetSw (d a : BitVec 5) (l : BitVec 1) (f : BitVec 3) (p w : BitVec 2)
  /-- Sets the shadow designation to a register and starts copying it into the shadow plane. (R301) -/
  | twload (a : BitVec 5) (l : BitVec 1) (f : BitVec 3) (p w : BitVec 2)
  /-- Moves one vector register into four frame rows of a matrix register. (R304) -/
  | vtom (m a b : BitVec 5) (p w : BitVec 2)
  /-- Moves four frame rows of a matrix register into one vector register. (R304) -/
  | mtov (d a b : BitVec 5) (l : BitVec 1) (p w : BitVec 2)
  /-- Transposes each 32 × 32 block of 16-bit elements over the whole frame. (R305) -/
  | ttrans (d a : BitVec 5) (l : BitVec 1) (p w : BitVec 2)
  /-- Converts the granted ACC48 elements to format FD. (R306) -/
  | tcvt (d a : BitVec 5) (l : BitVec 1) (f : BitVec 3) (p w : BitVec 2)
  /-- Adds two ACC48 registers element by element. (R307) -/
  | tadd (d a b : BitVec 5) (l h : BitVec 1) (f : BitVec 3) (p w : BitVec 2)
  /-- Enqueues a byte copy on the C queue. (R312) -/
  | cpy (a b c : BitVec 5) (g : BitVec 4) (p w : BitVec 2)
  /-- Enqueues a tensor-map copy in block or window mode. (R312) -/
  | cpyt (a b c : BitVec 5) (g : BitVec 4) (p w : BitVec 2)
  /-- Enqueues the marking of whole 2 KiB row groups of a range as dead. (R92) -/
  | mdiscard (a c : BitVec 5) (g : BitVec 4) (p w : BitVec 2)
  /-- Enqueues a fill of a range with an address-aligned 8-byte pattern. (R312) -/
  | cpyz (a b c : BitVec 5) (g : BitVec 4) (p w : BitVec 2)
  /-- Initialises a barrier's quorum, count and balance, keeping P when the tag was valid. (R206) -/
  | binit (a b : BitVec 5) (p w : BitVec 2)
  /-- Adds an expected sector count to a barrier. (R317) -/
  | bexp (a b : BitVec 5) (p w : BitVec 2)
  /-- Returns P and arrives on a barrier, as a release at fabric scope. (R317) -/
  | barr (a b : BitVec 5) (p w : BitVec 2)
  /-- Waits until the barrier phase differs from the awaited value, as an acquire. (R317) -/
  | bwait (a b : BitVec 5) (p w : BitVec 2)
  /-- Returns P without waiting and arms the strand's watch. (R317) -/
  | btest (a b : BitVec 5) (p w : BitVec 2)
  /-- Waits until every lane's count of unacknowledged scatters is zero, then arrives as BARR does. (R212) -/
  | pend (a b : BitVec 5) (p w : BitVec 2)
  /-- Returns P and arrives with a sector change in one update. (R317) -/
  | bexparr (a b c : BitVec 5) (p w : BitVec 2)
  /-- Pushes a token to another queue after every earlier instruction has retired. (R320) -/
  | tokp (p : BitVec 2)
  /-- Pops a token from another queue, as an acquire. (R320) -/
  | tokw (w : BitVec 2)
  /-- Resolves the oldest unresolved epoch of a guard slot from s[a]. (R121) -/
  | gset (a : BitVec 5) (g : BitVec 4)
  /-- Opens a fresh epoch in a guard slot. (R121) -/
  | grst (g : BitVec 4)
  /-- Reads a send descriptor and enters an eager or rendezvous message send in the strand's send order. (R324) -/
  | msend (a : BitVec 5) (g : BitVec 4) (p w : BitVec 2)
  /-- Sends a whole matrix register as a rendezvous tile message. (R325) -/
  | tsend (a b : BitVec 5) (g : BitVec 4) (p w : BitVec 2)
  /-- Sends a matrix register for the receiver to add in the ACC48 view. (R325) -/
  | tsendAdd (a b : BitVec 5) (g : BitVec 4) (p w : BitVec 2)
  /-- Posts a pigeonhole, first searching the poste restante queue for a match. (R326) -/
  | rpost (a b : BitVec 5) (p w : BitVec 2)
  /-- Posts a matrix-register pigeonhole for register c. (R326) -/
  | rpostm (a b c : BitVec 5) (p w : BitVec 2)
  /-- Cancels the oldest open pigeonhole whose STAT matches, completing it with CANCELLED. (R144) -/
  | rcancel (a b : BitVec 5) (p w : BitVec 2)
  /-- Searches the poste restante queue without claiming and writes a match summary. (R327) -/
  | rprobe (a b c : BitVec 5) (p w : BitVec 2)
  /-- Checks the descriptor, claims OWNER and starts a sweep of the context tensor. (R330) -/
  | swp (a b : BitVec 5) (p w : BitVec 2)
  /-- Commits the open group and waits for the next delivery, or ends the sweep after the last group. (R331) -/
  | swnext (p w : BitVec 2)
  /-- Commits the open group and ends the sweep at once. (R331) -/
  | swexit (p w : BitVec 2)
  /-- Hands one cell wake to the wake unit. (R333) -/
  | swake (a b : BitVec 5) (p w : BitVec 2)
  /-- Hands one wake per active lane to the wake unit. (R333) -/
  | swakev (a b : BitVec 5) (c : BitVec 3) (p w : BitVec 2)
  /-- Starts an event-wake pass over the groups not coded done. (R333) -/
  | swakee (a b : BitVec 5) (p w : BitVec 2)
  /-- After the data home acknowledges the write, the flag word is incremented by 1 as a release. Reads `slot`, `idx`, `rep` of the arguments. (R99) -/
  | stnFlagIncrement
  /-- A write to MSMCFG waits for the M queue to drain, then checks against LIM, evicts frames or adjusts scratch, or raises MSM_QUOTA. Reads `slot` of the arguments. (R39) -/
  | msmcfgWrite
  /-- A write to SRSEED reseeds the vector bank at once, and the matrix bank after earlier TCVTs complete. Reads `slot` of the arguments. (R68) -/
  | srseedWrite
  /-- Writes a register that has no behaviour of its own, following its field access codes. Reads `reg`, `a0` of the arguments. (R36) -/
  | registerWrite
  /-- s[a] ticks pass since the WFE issued, and the wait ends without the event flag. Reads `slot` of the arguments. (R334) -/
  | wfeTimeout
  /-- A local element returns poison or MEMLOST after issue; the element is marked and the ss slot completes in error. Reads `slot`, `idx` of the arguments. (R280) -/
  | vectorLoadLateError
  /-- A home acknowledges an element write, decrementing its lane's count of unacknowledged scatters. Reads `slot`, `idx` of the arguments. (R212) -/
  | scatterAck
  /-- A matrix command completes its accesses and its destination write, frees released frames and pushes its pq token. Reads `slot`, `num`, `data` of the arguments. (R289) -/
  | mCommandRetire
  /-- A fill completes and the register becomes CLEAN, so its readers proceed. Reads `slot`, `idx` of the arguments. (R54) -/
  | fillComplete
  /-- A spill completes and the register becomes ABSENT, freeing its frame. Reads `slot`, `idx` of the arguments. (R54) -/
  | spillComplete
  /-- A copy at its C-queue head with its guard outcome, token and transfer starts, checking and translating its barrier. Reads `copySrc`, `data` of the arguments. (R312) -/
  | copyStart
  /-- A copy finishes with a status, updates its barrier by the sectors it delivered and pushes its token. Reads `idx`, `data` of the arguments. (R314) -/
  | copyRetire
  /-- A held guarded command whose epoch resolved false is discarded, keeping token balance. Reads `slot`, `engine` of the arguments. (R122) -/
  | guardedCommandDiscard
  /-- The home's wait entry ends a waiting BWAIT after the update that changes P, or raises BARRIER_TAG when the tag has gone. Reads `slot` of the arguments. (R318) -/
  | bwaitWake
  /-- A send takes a slot and handle, reads its source, takes its sequence number and emits its header. Reads `slot`, `num`, `flag`, `data` of the arguments. (R324) -/
  | sendStart
  /-- The sender answers a rendezvous pull read from its pull window, or with an error completion on a source fault. Reads `num`, `idx`, `area`, `flag`, `data` of the arguments. (R134) -/
  | pullRequest
  /-- A reply arrives or the send engine gives up; the sender's status record is written, then one arrival is made on its barrier. Reads `num`, `sendEnd`, `flag` of the arguments. (R135) -/
  | sendComplete
  /-- A complete header reaches the receive engine and is judged by refusal checks, generation and sequence number. Reads `arrival` of the arguments. (R137) -/
  | headerArrival
  /-- REMTO ticks pass without the expected number advancing; the missing numbers are skipped and HELD headers are tested. Reads `mb`, `idx` of the arguments. (R136) -/
  | sequenceGapClose
  /-- All reads of a rendezvous pull return and the message moves to LANDING. Reads `mb`, `idx`, `data` of the arguments. (R145) -/
  | pullComplete
  /-- A pull meets REMTO, a lost peer or an error completion, and its pigeonhole completes with PEERLOST. Reads `mb`, `idx`, `data` of the arguments. (R143) -/
  | pullFail
  /-- A claimed message's payload is written by the pigeonhole's kind. Reads `mb`, `idx`, `flag` of the arguments. (R140) -/
  | landing
  /-- A write of the mailbox control word retries every DESTFAULT message of the mailbox in arrival order. Reads `mb` of the arguments. (R142) -/
  | destfaultRetry
  /-- The sweep engine opens the next group, visits its cells and delivers it to the rule or commits it itself. Reads `slot` of the arguments. (R200) -/
  | groupOpen
  /-- A group load, commit or map update of the sweep engine faults and is raised at the instruction whose progress needs it. Reads `slot` of the arguments. (R332) -/
  | sweepEngineFault
  /-- The wake unit applies one cell wake atomically, holding it while the cell's group is open. Reads `num` of the arguments. (R198) -/
  | wakeApply
  /-- The wake unit applies an event wake to every cell of one group, one group per 4 ticks. Reads `num` of the arguments. (R198) -/
  | swakeePass
  /-- An instruction's scoreboard slot completes at retirement, or in error. Reads `slot`, `num` of the arguments. (R211) -/
  | scoreboardSlotComplete
  /-- A remote request has no reply after REMTO ticks and completes with REMOTE_TIMEOUT. Reads `timeout` of the arguments. (R97) -/
  | remoteTimeout
  /-- The 2 × REMTO quarantine of a timed-out remote tag ends and the tag is free. Reads `num` of the arguments. (R98) -/
  | tagQuarantineEnd
  /-- A reply of a stale generation is dropped and counted. Reads `num`, `idx` of the arguments. (R98) -/
  | latereply
  /-- RUNTK reaches WDLIM and the strand raises WATCHDOG before its next issue. Reads `slot` of the arguments. (R167) -/
  | watchdog
  /-- A fault record is appended to the partition's fault queue, once room exists. Reads `slot` of the arguments. (R160) -/
  | faultRecordAppend
  /-- When slots free, the scheduler serves the non-empty queues in priority order and places the head record. Reads `p`, `area` of the arguments. (R17) -/
  | schedulerServe
  /-- After a pre-emption request, every member stops issuing within 300 ticks and abandons its waits. Reads `area`, `flag` of the arguments. (R168) -/
  | preemptionHalt
  /-- After the outstanding work drains, the save area, map and registers are written, and the record returns to its queue. Reads `area` of the arguments. (R169) -/
  | saveComplete
  /-- QUEUED records naming a join move to the join's priority queue once there is room. Reads `p`, `area` of the arguments. (R23) -/
  | priorityInheritanceMove
  /-- A join continuation held for a full ring is enqueued as entries free. Reads `idx` of the arguments. (R124) -/
  | heldContinuationEnqueue
  /-- Every 1,500 ticks over the cap or temperature, one gang's throttle level is raised. Reads `mb`, `num` of the arguments. (R378) -/
  | throttleRaise
  /-- Below 95 % of the cap and 95 °C, throttle levels are lowered in reverse order. Reads `mb`, `num` of the arguments. (R378) -/
  | throttleLower
  /-- With all gangs at level 3 for 10 ms over the cap, or at 110 °C, gangs are pre-empted until both bounds hold. Reads `mb`, `num` of the arguments. (R378) -/
  | powerPreemption
  /-- Yalush resumes a PARKED strand, which continues as its fault class gives. Reads `slot` of the arguments. (R165) -/
  | yalushResume
  /-- Yalush ends a launch; its gangs retire without a join decrement. Reads `p`, `a0` of the arguments. (R16) -/
  | launchEnd
  /-- The core's MSM exceeds its thermal limit; THERM is set and the port is halved. Reads `num` of the arguments. (R84) -/
  | msmThermalLimit
  /-- The MSM cools 5 °C below the limit and THERM clears. Reads `num` of the arguments. (R84) -/
  | msmThermalClear
  /-- A stack's hottest layer crosses a threshold and its HBMTH level changes, shutting the stack at level 3. Reads `num`, `idx` of the arguments. (R94) -/
  | hbmThermalLevel
  /-- A corrected ECC error delivers corrected data, logs a record and starts a self-test of the row. Reads `ecc` of the arguments. (R101) -/
  | eccCorrected
  /-- An uncorrectable error poisons the affected 32-byte sectors. Reads `ecc` of the arguments. (R103) -/
  | uncorrectedError
  /-- A row's targeted self-test classes its fault as transient or lasting. Reads `idx`, `flag`, `num` of the arguments. (R101) -/
  | selfTestComplete
  /-- Yalush requests that every die drop the matching TLB entries for a partition and range. Reads `p`, `a0`, `a1`, `a2` of the arguments. (R158) -/
  | shootdownRequest
  /-- Once the accesses that used dropped entries are performed, a die clears the scan bits it must, then arrives on the shootdown barrier. Reads `idx`, `num` of the arguments. (R158) -/
  | shootdownArrival
  /-- The scanner finishes checking 16,384 words and makes the page executable, or clears the bit and reports a reason. Reads `idx` of the arguments. (R172) -/
  | scanComplete
  /-- The hypervisor clears a feature bit, clearing every scan bit of the partition through a shootdown. Reads `p`, `a0` of the arguments. (R174) -/
  | featureMaskNarrow
  /-- Tamper, a glitch or a bad debug unlock raises an alarm that logs or erases under the policy. Reads `cause` of the arguments. (R175) -/
  | securityAlarm
  /-- The hypervisor activates a partition, reading its table fields. Reads `p`, `entry`, `peers` of the arguments. (R191) -/
  | partitionActivate
  /-- Creates a launch and enqueues one continuation record per gang. Reads `p`, `a0`, `num`, `idx`, `flag` of the arguments. (R15) -/
  | ylLaunch
  /-- Waits until a join's COUNT is 0, or until the timeout. Reads `p`, `a0`, `a1`, `num`, `flag` of the arguments. (R362) -/
  | ylWait
  /-- Maps a range, returning after the shootdown. Reads `p`, `a0`, `a1`, `a2`, `a3`, `a4` of the arguments. (R362) -/
  | ylMap
  /-- Unmaps a range, returning after the shootdown. Reads `p`, `a0`, `a1` of the arguments. (R362) -/
  | ylUnmap
  /-- Hands code pages to the scanner, returning success or a refusal offset and reason. Reads `p`, `a0`, `a1` of the arguments. (R172) -/
  | ylExmap
  /-- Opens a mailbox for the partition with a new source generation. Reads `p`, `a0`, `a1` of the arguments. (R130) -/
  | ylMboxOpen
  /-- Closes a mailbox, cancelling its pigeonholes and dropping its queue with CANCEL replies. Reads `p`, `a0` of the arguments. (R144) -/
  | ylMboxClose
  /-- Creates a join object with a count, a level and an optional continuation. Reads `p`, `a0`, `a1`, `a2`, `a3` of the arguments. (R179) -/
  | ylJoinCreate
  /-- Sets how Yalush settles strands parked by a fault class. Reads `p`, `a0`, `a1` of the arguments. (R362) -/
  | ylFaultPolicy
  /-- Sets or queries MSMLIM or the partition's copy-quota ceiling. Reads `p`, `a0`, `a1` of the arguments. (R362) -/
  | ylQuota
  /-- Returns a peer-table entry. Reads `p`, `a0` of the arguments. (R362) -/
  | ylPeerQuery
  /-- Returns a signed attestation report. Reads `p`, `a0`, `a1`, `a2`, `num` of the arguments. (R375) -/
  | ylAttest
  /-- Ends every launch of the image. Reads `p`, `num`, `a0` of the arguments. (R362) -/
  | ylExit
  /-- Returns CYCLE. Reads `p` of the arguments. (R362) -/
  | ylClock
  /-- Allocates 64 KiB-aligned memory of kind 00 or 01. Reads `p`, `a0`, `a1`, `a2`, `a3`, `flag` of the arguments. (R362) -/
  | ylMemAlloc
  /-- Frees memory after a shootdown that clears its scan bits. Reads `p`, `a0` of the arguments. (R159) -/
  | ylMemFree
  /-- A host write to DOORBELL makes Yalush take the request-ring entries up to the value written. Reads `mb`, `a0`, `area`, `data`, `flag` of the arguments. (R371) -/
  | doorbell
  /-- An FLR of a virtual function ends its images' launches and clears its BAR0. Reads `mb` of the arguments. (R370) -/
  | functionLevelReset
  /-- A UALink port goes down; later requests take the next port with a path. Reads `mb`, `peers` of the arguments. (R373) -/
  | linkDown
  /-- After power-good, the package boots through firmware check, HBM and link training and the start of Yalush. Reads `bring` of the arguments. (R374) -/
  | powerGood
  /-- The host writes 1 to recovery-window offset 0 and the ROM checks the submitted image. Reads `data`, `bring` of the arguments. (R374) -/
  | recoveryImageSubmit
  /-- A power cap set over the management link moves the package between P0 and P1. Reads `mb` of the arguments. (R377) -/
  | powerCapSet
  /-- A package reset requested over the management link. (R376) -/
  | packageReset
  /-- 1,500,000 ticks with no strand bound and no engine active put the package into P2. (R377) -/
  | idleEntry
  /-- A doorbell, a fabric arrival or an enqueued record leaves P2. Reads `idle` of the arguments. (R377) -/
  | idleExit
  /-- A stream access is performed at its home, or its reply returns, so the issuing instruction can retire and the strand waits that depend on it end. Reads `slot`, `idx`, `rep` of the arguments. (R106) -/
  | accessPerformed
  /-- A UALink read, write or atomic from another package arrives and is performed at the home slice of this package, with the atomic executed in the home's ALU. Reads `peer`, `remote` of the arguments. (R95) -/
  | remoteAccessArrival
  /-- A UALink path to a peer comes up and the link layer sets LINK in the peer-table entry. Reads `mb`, `peers` of the arguments. (R156) -/
  | linkUp
  /-- The package loses power and enters P3, and all contents are lost. (R377) -/
  | powerLoss
deriving DecidableEq, Repr

end Sys2Proof
end

