-- ==== Sys2Proof/Machine/Table.lean ====
section
/-! DEFINITION. Sparse tables as plain data: a list of key and value pairs with strictly rising keys and no pair that
holds the default value, so that equal tables are equal lists. Memory, register files and every other sparse piece of
state is such a table. -/

namespace Sys2Proof

/-- A sparse table. -/
abbrev Tab (α : Type) := List (Nat × α)

namespace Machine

/-- The value at a key, the default where the key is not listed. -/
def tabGet {α : Type} (d : α) : Tab α → Nat → α
  | [], _ => d
  | (k', v) :: t, k => if k' = k then v else tabGet d t k

/-- Is the key listed? -/
def tabHas {α : Type} : Tab α → Nat → Bool
  | [], _ => false
  | (k', _) :: t, k => k' == k || tabHas t k

/-- Lists the value at a key, whatever it is. -/
def tabSet {α : Type} : Tab α → Nat → α → Tab α
  | [], k, v => [(k, v)]
  | (k', v') :: t, k, v =>
    if k < k' then (k, v) :: (k', v') :: t
    else if k = k' then (k, v) :: t
    else (k', v') :: tabSet t k v

/-- Removes every pair of a key. -/
def tabErase {α : Type} : Tab α → Nat → Tab α
  | [], _ => []
  | (k', v') :: t, k => if k' = k then tabErase t k else (k', v') :: tabErase t k

/-- Writes a key and keeps the canonical form: the default value is not listed. -/
def tabPut {α : Type} [DecidableEq α] (d : α) (t : Tab α) (k : Nat) (v : α) : Tab α :=
  if v = d then tabErase t k else tabSet t k v

/-- Strictly rising keys from a lower bound on. -/
def tabSorted {α : Type} : Nat → Tab α → Bool
  | _, [] => true
  | lo, (k, _) :: t => decide (lo ≤ k) && tabSorted (k + 1) t

/-- The canonical form: keys rise strictly and no listed value is the default. -/
def tabWf {α : Type} [DecidableEq α] (d : α) (t : Tab α) : Bool :=
  tabSorted 0 t && t.all (fun p => decide (p.2 ≠ d))

end Machine
end Sys2Proof
end

