-- ==== Sys2Proof/Machine/State.lean ====
section
/-! DEFINITION. The state of a Tutala T6 package as plain data, the reasons a step can stop, and the state after
package reset. Each field cites the rule of spec/ that names it; INVENTORY.md lists them with their reset values. -/

namespace Sys2Proof.Machine

open Sys2Proof

/-- Why the machine stops with a fault. A strand's own faults are not here: they park the strand, which is a next
state (spec/09_translation_and_faults.md R160). -/
inductive Fault where
  /-- Raised by the step when a fetched word of a scanned frame is one that the scanner refuses. The run-time decoder
  takes every word it fetches to be legal (spec/13_encoding.md, opening; R155 keeps a scanned frame unchanged), so the
  manual gives such a word no effect. Safe: the machine stops where the manual says nothing. -/
  | illegalWord (word : BitVec 32)
deriving DecidableEq, Repr

/-- Why the model refuses. -/
inductive Refusal where
  /-- Raised by an arm of `exec` that has no meaning yet, with the instruction's mnemonic. Safe. -/
  | notModelled (mnemonic : String)
deriving DecidableEq, Repr

/-- Fault classes of a strand (spec/09_translation_and_faults.md R163). -/
inductive FaultClass where
  | trans | perm | noncanon | peerAbsent | peerDenied | remoteTimeout | poison | align | format | regGroup | signature
  | ftIndex | nearRange | msmQuota | watchdog | trap | bkpt | scan | slotError | sweepDesc | barrierTag | mailbox
  | memLost
deriving DecidableEq, Repr

/-- Access kinds of a fault record (spec/09_translation_and_faults.md R162). -/
inductive AccessKind where
  | none | fetch | scalarLoad | scalarStore | atomic | vectorLoad | vectorStore | tile | copy | landing | send | sweep
  | barrier
deriving DecidableEq, Repr

/-- A fault record (spec/09_translation_and_faults.md R161). -/
structure FaultRecord where
  /-- SID of the slot -/
  sid : BitVec 11
  /-- save area of the strand -/
  save : Nat
  pc : Word
  va : Word
  cls : FaultClass
  akind : AccessKind
  hyp : Bool
  eng : Bool
  saved : Bool
  index : BitVec 32
deriving DecidableEq, Repr

/-- Where an access goes (spec/05_memories.md R81 to R83). -/
inductive Place where
  /-- a near-window offset -/
  | near (off : Nat)
  /-- HBM of this package; `comp` for a page of kind 01 -/
  | mem (pa : Nat) (comp : Bool)
  /-- a device register -/
  | device (pa : Nat)
  /-- a line of another package -/
  | remote (peer : BitVec 10) (pa : Nat)
deriving DecidableEq, Repr

/-- Ordering scopes (spec/06_memory_ordering.md R104). -/
inductive Scope where
  | gang | package | fabric
deriving DecidableEq, Repr

/-- What an outstanding access does at its home (spec/06_memory_ordering.md R105, R106). -/
inductive AccessOp where
  /-- a scalar load into s[d], sign-extended when `sx` -/
  | load (d : BitVec 5) (sx : Bool)
  /-- a scalar or vector element store of `n` bytes -/
  | store (v : Word)
  /-- AMO `op` with operand `b`, the old value into s[d] when `ret` -/
  | amo (op : BitVec 4) (b : Word) (d : BitVec 5)
  /-- CAS -/
  | cas (expected new : Word) (d : BitVec 5)
  /-- the flag increment of STN, after the data write numbered `seq` with element 0 -/
  | flag (scope : Scope)
  /-- a vector element into bit `bit` of v[reg]; `link` for VGL -/
  | vload (reg bit : Nat) (link : Bool)
  /-- a vector element store, acknowledged to its lane -/
  | vstore (v : Word)
  /-- a VSC element: checked against the strand's link; `lines` are all the lines the form named -/
  | vsc (v : Word) (k : BitVec 3) (lines : List Nat)
  /-- VRRED's adds within one line: format code, FTZ, and for each word its offset, the element and its scale word -/
  | reduce (code : BitVec 8) (ftz : Bool) (adds : List (Nat × BitVec 32 × BitVec 20))
  /-- VAPPEND's update of its descriptor, for this many active elements -/
  | append (m : Nat)
  /-- a barrier update at a remote home: arrivals, sectors, result register when any -/
  | barrier (dA : Nat) (dS : Int) (d : Option (BitVec 5))
  /-- BINIT at a remote home -/
  | binit (q : BitVec 24)
  /-- BTEST at a remote home -/
  | btest (d : BitVec 5)
  /-- BWAIT at a remote home: the phase awaited -/
  | bwait (p : BitVec 4)
  /-- CALLT's entry read at a remote home, with the signature asked for -/
  | entry (signature : BitVec 16)
  /-- a 64-byte record read from a remote home, as one load -/
  | record
  /-- SWP's compare-and-swap of OWNER, from 0, at a remote home (spec/11_context_tensors.md R199) -/
  | claim (v : Word)
  /-- wakes of cells, or SWAKEE's pass, for the wake unit of a remote home (spec/11_context_tensors.md R198) -/
  | wake (cells : List Nat) (event : Option (BitVec 24))
deriving DecidableEq, Repr

/-- One outstanding stream access of a strand (spec/06_memory_ordering.md R105 to R108). -/
structure Access where
  /-- number of the instruction, rising in program order -/
  seq : Nat
  op : AccessOp
  va : Nat
  place : Place
  /-- bytes -/
  n : Nat
  /-- element (vector lane) -/
  elem : Nat
  /-- scoreboard slot, 0 for none -/
  sb : BitVec 3
  /-- later instructions wait for it (spec/06_memory_ordering.md R108; spec/15_vector_instructions.md R280) -/
  blocks : Bool
  /-- remote tag, when it holds one -/
  tag : Option Nat
  /-- tick of issue -/
  since : Nat
  akind : AccessKind
  /-- a release: performed only after every earlier access within this scope's reach -/
  rel : Option Scope
  /-- queue its instruction pushes a token to at retirement -/
  push : BitVec 2
  /-- flags gathered for the instruction -/
  flags : BitVec 5
  /-- its request has left: a request to another package waits for what it must follow (spec/06_memory_ordering.md R107) -/
  sent : Bool
  /-- an element of VLDFF beyond the first active one: it truncates VL where it fails (spec/15_vector_instructions.md R282) -/
  ff : Bool
  /-- VL as a VLDFF that is cut short leaves it when it completes (spec/15_vector_instructions.md R282) -/
  trunc : Option Nat
  /-- of a form that a fault cuts short: its flags are kept until the form completes (spec/15_vector_instructions.md R286) -/
  cut : Bool
deriving DecidableEq, Repr

/-- What VAPPEND's update returned: the start index, and the array it writes to (spec/15_vector_instructions.md R285). -/
structure Append where
  start : Nat
  base : Nat
  cap : Nat
deriving DecidableEq, Repr

/-- A vector strip in an arrival queue: the tick of its arrival, its sender's rank and its contents
(spec/15_vector_instructions.md R278). -/
structure Strip where
  tick : Nat
  rank : Nat
  data : VReg
  /-- poisoned sectors, after a save (spec/05_memories.md R103) -/
  bad : List Nat
deriving DecidableEq, Repr

/-- What holds a strand's issue (spec/01_execution_model.md R16; spec/09_translation_and_faults.md R167). -/
inductive Wait where
  | none
  /-- BWAIT, with the object's place and address, the phase awaited and the queue it pushes to -/
  | bwait (pl : Place) (va : Word) (p : BitVec 4) (push : BitVec 2)
  /-- a BWAIT whose object has left the phase awaited (`left`), or has lost its tag, at one of its home's looks
  (spec/17_engine_and_system_instructions.md R318): what ends the wait is on its way -/
  | bwaitOver (va : Word) (push : BitVec 2) (left : Bool)
  /-- WFE, with its issue tick and timeout -/
  | wfe (since : Nat) (ticks : Word)
  | grecv
  /-- an MSMCFG write with its new value -/
  | msmcfg (x : Word)
  /-- a sweep's next delivery, after SWP or SWNEXT -/
  | sweep
  /-- EXIT past its fourth step: it waits for copies with an end in the near window -/
  | exit
  /-- a reply that later instructions wait for -/
  | reply
deriving DecidableEq, Repr

/-- A tile grant (spec/16_matrix_instructions.md R290). -/
structure Grant where
  tm : BitVec 8
  tn : BitVec 8
  tk : BitVec 12
  kb : BitVec 10
deriving DecidableEq, Repr

/-- Token counts or their reservations, S to M and so on (spec/07_queues_and_scheduling.md R118). -/
structure Tokens where
  sm : BitVec 4
  sc : BitVec 4
  ms : BitVec 4
  mc : BitVec 4
  cs : BitVec 4
  cm : BitVec 4
deriving DecidableEq, Repr

/-- A guard slot (spec/07_queues_and_scheduling.md R121): epochs carry a number so that commands can name the one they
captured. -/
structure Guard where
  cId : Nat
  cVal : Option Bool
  cCap : Bool
  /-- previous epoch: number and value -/
  prev : Option (Nat × Option Bool)
deriving DecidableEq, Repr

/-- A guard outcome captured by a command: slot, epoch, and the value once resolved. -/
structure Epoch where
  slot : BitVec 4
  id : Nat
  val : Option Bool
deriving DecidableEq, Repr

/-- A generator bank of 2,048 lanes (spec/04_number_formats.md R68): the seed it was filled from and the lanes that
have drawn since. -/
structure Bank where
  seed : Word
  lanes : Tab Word
deriving DecidableEq, Repr

/-- A register-map entry (spec/03_matrix_registers.md R48). -/
structure MapEntry where
  frame : BitVec 8
  /-- 0 ZERO, 1 ABSENT, 2 FILLING, 3 CLEAN, 4 DIRTY, 5 SPILLING -/
  state : BitVec 3
  lseq : BitVec 16
deriving DecidableEq, Repr

/-- The value that program order gives a matrix register for the next command (spec/03_matrix_registers.md R52, R55). -/
inductive Bound where
  /-- what the map entry says -/
  | map
  /-- the result of a command not yet completed -/
  | cmd (id : Nat)
  /-- zero once a command not yet completed releases it -/
  | zero (id : Nat)
deriving DecidableEq, Repr

/-- A source a command has bound (spec/03_matrix_registers.md R52). -/
inductive Source where
  | zero
  | frame (f : Nat)
  /-- the backing area, read by a fill -/
  | backing
  | cmd (id : Nat)
  /-- an old value, with its poisoned sectors, that a save or a landing has kept for this reader -/
  | kept (t : Tile) (bad : List Nat)
deriving DecidableEq, Repr

/-- An M-queue command (spec/16_matrix_instructions.md R289). -/
structure MCommand where
  id : Nat
  ins : Instr
  pc : Word
  /-- register written -/
  dst : Option Nat
  /-- registers read, in operand order, with what each is bound to -/
  srcs : List (Nat × Source)
  /-- registers released to ZERO at completion -/
  release : List Nat
  grant : Grant
  fmt : Word
  base : Word
  stride : Word
  /-- vector registers captured: VTOM's source or the scale registers of A and B -/
  vals : List VReg
  /-- vector registers it will write -/
  vdst : List Nat
  pop : BitVec 2
  push : BitVec 2
  started : Bool
  /-- tick of start -/
  since : Nat
  /-- fresh frame for the result -/
  frame : Option Nat
  /-- held after a fault -/
  faulted : Bool
  /-- the remote tag of its requests to other packages, while they are out -/
  tag : Option Nat
  /-- vector registers whose values `vals` holds, in order -/
  vsrc : List Nat
  /-- its stores to other packages are out, and their answers are awaited -/
  out : Bool
  /-- old physical registers that the command has still to read: of its captured vector registers those written since, with the number of
  the writing (spec/02_strand_registers.md R31) -/
  vold : List (Nat × Nat)
  /-- of the vector registers it will write, the bits that later instructions have written (spec/16_matrix_instructions.md R289): the
  command's result does not reach them -/
  vover : Tab VReg
deriving DecidableEq, Repr

/-- A fill or a spill in progress (spec/03_matrix_registers.md R54). -/
structure Move where
  reg : Nat
  frame : Nat
  /-- the command that waits for it -/
  cmd : Nat
  /-- when it began -/
  since : Nat
deriving DecidableEq, Repr

/-- A C-queue command (spec/17_engine_and_system_instructions.md R310, R311). -/
structure CCommand where
  ins : Instr
  pc : Word
  dst : Word
  src : Word
  /-- length or start coordinates -/
  arg : Word
  bar : Word
  guard : Option Epoch
  pop : BitVec 2
  push : BitVec 2
deriving DecidableEq, Repr

/-- A send issued and not started (spec/17_engine_and_system_instructions.md R324). -/
structure SendCommand where
  ins : Instr
  pc : Word
  desc : Rec64
  /-- seq of the instruction: earlier accesses must be performed -/
  seq : Nat
  /-- matrix register and its bound value for TSEND forms -/
  reg : Option (Nat × Source)
  guard : Option Epoch
  push : BitVec 2
  /-- a send that has started and whose source on other packages has been asked for: the tick, and the send slot that it holds
  (spec/17_engine_and_system_instructions.md R324); and its remote tags -/
  asked : Option (Nat × Nat)
  tag : Option Nat
deriving DecidableEq, Repr

/-- The open group of a sweep (spec/11_context_tensors.md R200, R201). -/
structure OpenGroup where
  g : Nat
  n : Nat
  mask : List Bool
  loaded : List (BitVec 32)
  visited : List (BitVec 32)
  errs : Nat
deriving DecidableEq, Repr

/-- What the sweep engine does next (spec/17_engine_and_system_instructions.md R330, R331). -/
inductive SweepPhase where
  /-- a rebuild of the skip map at this group -/
  | rebuild (g : Nat)
  /-- opening this group -/
  | opening (g : Nat)
  /-- committing the open group, in which no cell is awake -/
  | closing
  /-- the rule runs on the open group -/
  | rule
deriving DecidableEq, Repr

/-- A sweep in progress (spec/11_context_tensors.md R199 to R203). -/
structure Sweep where
  desc : Nat
  cbase : Nat
  cells : Nat
  skbase : Nat
  rule : Word
  ret : Word
  vl : BitVec 12
  sew : BitVec 2
  gm : BitVec 2
  phase : SweepPhase
  opened : Option OpenGroup
  errTotal : Nat
  /-- home address of the descriptor, by which the wake unit knows it (spec/11_context_tensors.md R204) -/
  home : Nat
deriving DecidableEq, Repr

/-- A deferred error (spec/05_memories.md R97). -/
structure Deferred where
  /-- number of the instruction -/
  seq : Nat
  cls : FaultClass
  va : Nat
  index : BitVec 32
  akind : AccessKind
deriving DecidableEq, Repr

/-- Slot states (spec/01_execution_model.md R16). -/
inductive Phase where
  | free | running | parked | saving
deriving DecidableEq, Repr

/-- A poison mark of a vector element (spec/15_vector_instructions.md R280). -/
structure Mark where
  reg : Nat
  bit : Nat
  width : Nat
  cls : FaultClass
  va : Nat
  elem : Nat
deriving DecidableEq, Repr

/-- Who owns engine work: the gang area and the rank of a strand. -/
structure Owner where
  area : Nat
  rank : Nat
  part : BitVec 6
  sid : BitVec 11
deriving DecidableEq, Repr

/-- A wake accepted by a wake unit (spec/11_context_tensors.md R198). -/
structure Wake where
  die : Nat
  part : BitVec 6
  /-- the strand it comes from -/
  sid : BitVec 11
  desc : Nat
  cbase : Nat
  cells : Nat
  skbase : Nat
  cell : Nat
  /-- SWAKEE's identifier -/
  event : Option (BitVec 24)
  /-- every cell of the cell's group: what an event pass leaves at an open group -/
  whole : Bool
  held : Bool
  /-- home address of the descriptor -/
  home : Nat
  /-- the strand whose instruction made it, and whose later accesses wait for it (spec/06_memory_ordering.md R112, R113); none for a
  completion's -/
  stream : Option Owner
  /-- the package that it comes from, which is told when it has been applied; none for a wake of this package -/
  far : Option (BitVec 10)
deriving DecidableEq, Repr

/-- Everything a strand owns (spec/01_execution_model.md R10; spec/02_strand_registers.md; spec/03_matrix_registers.md). -/
structure Strand where
  phase : Phase
  /-- gang area base, which names the gang (spec/10_descriptor_tables.md R178) -/
  gang : Nat
  rank : Nat
  /-- continuation record (spec/10_descriptor_tables.md R177) -/
  rcd : Rec64
  part : BitVec 6
  pc : Word
  s : Tab Word
  v : Tab VReg
  k : Tab KReg
  vl : BitVec 12
  sew : BitVec 2
  gm : BitVec 2
  mw : BitVec 8
  tsh : Grant
  vstat : BitVec 5
  srseed : Word
  vbank : Bank
  mbank : Bank
  /-- seeds waiting for the matrix bank, oldest first, each with the number of the last command that may draw before it
  (spec/04_number_formats.md R68) -/
  mseed : List (Word × Nat)
  fq : BitVec 9
  sf : BitVec 9
  lim : BitVec 9
  fills : BitVec 24
  spills : BitVec 24
  ftbase : BitVec 52
  ftlen : BitVec 32
  tok : Tokens
  tokRes : Tokens
  /-- of `tok`, the tokens pushed in this tick (spec/07_queues_and_scheduling.md R118) -/
  tokNew : Tokens
  guards : Tab Guard
  /-- bit j: slot sbj pending -/
  sbPend : BitVec 8
  /-- bit j: slot sbj in error -/
  sbErr : BitVec 8
  /-- instruction number that holds each pending slot -/
  sbOwner : Tab Nat
  /-- cause recorded for a slot that will complete in error -/
  sbFail : List (BitVec 3 × FaultClass)
  swCur : BitVec 48
  swAct : Bool
  swGrp : BitVec 48
  swAwk : BitVec 48
  swErr : BitVec 32
  sweep : Option Sweep
  runtk : Word
  wdlim : Word
  perfSel : Tab (BitVec 17)
  perfCnt : Tab Word
  /-- CSR writes of PERFSEL (0 to 7) and PERFCNT (8 to 15) that take effect from the next tick (spec/14_scalar_instructions.md R254) -/
  perfNext : List (Nat × Word)
  evFlag : Bool
  /-- object of the last BTEST, by place, and the phase it showed (spec/17_engine_and_system_instructions.md R334) -/
  watch : Option (Place × BitVec 4)
  /-- linked lines, oldest first (spec/12_barriers_and_counters.md R213) -/
  links : List Nat
  /-- unacknowledged element writes of each lane (spec/12_barriers_and_counters.md R212) -/
  unacked : Tab Nat
  /-- lanes whose acknowledgement is on its way -/
  acks : List Nat
  marks : List Mark
  /-- poisoned scalar registers and mask registers (spec/05_memories.md R103) -/
  badS : List Nat
  badK : List Nat
  /-- poisoned CSRs -/
  badC : List Nat
  /-- GBCAST arrival queue, oldest first (spec/15_vector_instructions.md R278) -/
  strips : List Strip
  deferred : Option Deferred
  /-- the deferred error is due at the next instruction, after a resume -/
  deferNow : Bool
  fault : Option FaultRecord
  /-- the pending record has been appended to the fault queue -/
  reported : Bool
  /-- element restart index (spec/09_translation_and_faults.md R163) -/
  restart : Nat
  /-- VAPPEND's update, once made -/
  append : Option Append
  /-- failed lanes of a VSC interrupted by a fault -/
  vscFail : List Nat
  /-- flags of a VRRED interrupted by a fault (spec/15_vector_instructions.md R286) -/
  heldFlags : BitVec 5
  /-- wakes of the instruction that its wake unit has not accepted yet (spec/11_context_tensors.md R198) -/
  handing : List Wake
  /-- wakes that the unit of another package has accepted and not told to be applied: the package, the descriptor's home there, and the strand
  number that they went under (spec/06_memory_ordering.md R112, R113) -/
  wakesFar : List (BitVec 10 × Nat × BitVec 11)
  /-- what OWNER held at a remote home when the instruction's claim reached it -/
  claim : Option Word
  /-- the instruction's record, once its remote home has returned it -/
  recBuf : Option Rec64
  wait : Wait
  /-- the instruction at pc has popped and reserved its tokens -/
  tokDone : Bool
  /-- outstanding stream accesses, in program order -/
  out : List Access
  mq : List MCommand
  mseq : BitVec 16
  active : Option (Nat × Bool)
  shadow : Option (Nat × Bool)
  map : Tab MapEntry
  bound : Tab Bound
  fillq : List Move
  spillq : List Move
  cq : List CCommand
  sendq : List SendCommand
  scratch : Tab Byte
  /-- poisoned sectors of the near window -/
  nearBad : List Nat
  /-- physical scratch frames in grant order (spec/03_matrix_registers.md R51) -/
  scrFrames : List Nat
  /-- TOKPs whose earlier instructions have not all retired: number and queue, oldest first (spec/17_engine_and_system_instructions.md R320) -/
  tokps : List (Nat × BitVec 2)
  /-- after YIELD (spec/14_scalar_instructions.md R253): slots of the core that are still to issue once, bit by bit, plus 16 times
  the ticks left; 0 when the strand is not passed over -/
  yielded : Nat
deriving DecidableEq, Repr

/-- A matrix frame of a core (spec/03_matrix_registers.md R51): owner's MAPBASE, register and partition, the tick of
the tag, the contents and the poisoned sectors. `orphan` marks an old frame kept for its last readers. -/
structure Frame where
  mapbase : Nat
  reg : Nat
  part : BitVec 6
  tick : Nat
  orphan : Bool
  data : Tile
  bad : List Nat
deriving DecidableEq, Repr

/-- A gang that holds a gang area (spec/01_execution_model.md R12, R16). -/
structure Gang where
  area : Nat
  part : BitVec 6
  rcd : Rec64
  /-- the slot of each rank, none where the member has retired or is saved -/
  slots : List (Option Nat)
  /-- ranks that have retired -/
  retired : List Nat
  /-- tick at which pre-emption was requested (spec/09_translation_and_faults.md R168) -/
  preempt : Option Nat
  /-- halted and being saved -/
  saving : Bool
  /-- saved members: rank and strand -/
  images : List (Nat × Strand)
  /-- tick of the latest entry into RUNNING -/
  since : Nat
  throttle : Nat
deriving DecidableEq, Repr

/-- A message that left the package: requests of strands and engines, answers to peers, and what goes to the host or the operator. -/
inductive Outgoing where
  | request (peer : BitVec 10) (pa n : Nat) (op : AccessOp)
  /-- a write of an engine, performed whole: a sector, or up to 256 bytes into a receive aperture (spec/08_receive_engine.md R147) -/
  | write (peer : BitVec 10) (pa : Nat) (data : List Byte)
  /-- a copy's write of a sector whose source was poisoned: it carries the poison (spec/05_memories.md R103) -/
  | poisoned (peer : BitVec 10) (pa : Nat) (data : List Byte)
  | answer (peer : BitVec 10) (data : List Byte) (ok : Bool)
  /-- reads of a sender's pull window -/
  | pull (peer : BitVec 10) (pa len : Nat)
  | join (peer : BitVec 10) (pa : Nat)
  /-- the home tells a package that watches the object of a phase advance (spec/17_engine_and_system_instructions.md R334) -/
  | advanced (peer : BitVec 10) (pa : Nat)
  /-- the wake unit of this package has applied a wake that it accepted of a strand of the peer (spec/11_context_tensors.md R198) -/
  | applied (peer : BitVec 10) (sid : BitVec 11) (pa : Nat)
  | alarm (cause : AlarmCause)
  /-- MSI-X vector 0 of a virtual function (spec/20_host_links_and_bringup.md R371) -/
  | msix (vf : Nat)
  /-- the completion of a read of BAR0 of a virtual function (spec/20_host_links_and_bringup.md R369) -/
  | bar0 (vf : Nat) (data : Word)
  /-- the completion, as Unsupported Request, of a request to a virtual function that is not assigned
  (spec/20_host_links_and_bringup.md R369) -/
  | unsupported (vf : Nat)
  /-- the offset and reason of a LOAD that the scanner refused (spec/19_binary_interface.md R366) -/
  | loadRefused (vf off reason : Nat)
  /-- the package stays in this bring-up step (spec/20_host_links_and_bringup.md R374) -/
  | stuck (step : Nat)
deriving DecidableEq, Repr

/-- The reads of a copy at other packages (spec/05_memories.md R88): the requests that still wait for a remote tag, the lengths of those that
are out, and the bytes that have come, with the offsets of poisoned ones. -/
structure CopyReads where
  rest : List Outgoing
  out : List Nat
  data : List Byte
  bad : List Nat
deriving DecidableEq, Repr

/-- No reads at other packages. -/
def CopyReads.none : CopyReads := ⟨[], [], [], []⟩

/-- How far a copy in flight has come (spec/17_engine_and_system_instructions.md R312): the tensor map of a CPYT on a remote page is
awaited; its accesses are to be made, once its reads at other packages have been answered; its writes to other packages, by sector address,
are awaited, and further ones wait for remote tags; its barrier update at another package is awaited. What it has delivered, its status and
its first failing address go with it. -/
inductive CopyPhase where
  | map
  | run (r : CopyReads)
  | writes (sectors status bad : Nat) (out : List Nat) (rest : List (Nat × Outgoing))
  | update (sectors status bad : Nat)
deriving DecidableEq, Repr

/-- A copy in flight (spec/17_engine_and_system_instructions.md R312). -/
structure Copy where
  owner : Owner
  /-- the owner has retired: pushes are discarded -/
  orphan : Bool
  core : Nat
  cmd : CCommand
  /-- 0 is OK -/
  status : BitVec 8
  badVa : Nat
  bar : Option Place
  /-- the remote tag of its requests to other packages, while they are out -/
  tag : Option Nat
  /-- a source or destination in the near window -/
  near : Bool
  /-- restart of CPYT checks: the map as read at the start -/
  tmap : BitVec 896
  phase : CopyPhase
  since : Nat
deriving DecidableEq, Repr

/-- A C queue that outlives its strand (spec/17_engine_and_system_instructions.md R315). -/
structure RetiredQueue where
  owner : Owner
  core : Nat
  quota : BitVec 9
  tok : Tokens
  cmds : List CCommand
deriving DecidableEq, Repr

/-- A send in a send slot (spec/08_receive_engine.md R134). -/
structure Send where
  hnd : BitVec 13
  owner : Owner
  desc : Rec64
  /-- TYPE of its header -/
  kind : BitVec 8
  data : List Byte
  seq : BitVec 16
  sgen : BitVec 16
  /-- a pull failed on this side: completes with SRCFAULT -/
  srcFault : Bool
  /-- the pull whose source on other packages has been asked for: its offset, its length and the tick; and the remote tag -/
  asked : Option (Nat × Nat × Nat)
  tag : Option Nat
  since : Nat
deriving DecidableEq, Repr

/-- A join decrement on its way to another package (spec/10_descriptor_tables.md R180): who made it, and where. -/
structure JoinOp where
  peer : BitVec 10
  pa : Nat
  va : Nat
  part : BitVec 6
  sid : BitVec 11
  /-- remote tag, die times 4,096 plus tag -/
  tag : Option Nat
  since : Nat
deriving DecidableEq, Repr

/-- A packet on its way inside the package or out of it (spec/08_receive_engine.md R147). -/
structure Packet where
  /-- peer it goes to -/
  peer : BitVec 10
  hdr : Rec64
  payload : List Byte
deriving DecidableEq, Repr

/-- A pigeonhole (spec/08_receive_engine.md R132, R146). -/
structure Pigeonhole where
  rcd : Rec64
  owner : Owner
  /-- the RPOST or RPOSTM that posted it -/
  pc : Word
deriving DecidableEq, Repr

/-- A message held or queued (spec/08_receive_engine.md R138, R145). -/
structure Message where
  peer : BitVec 10
  hdr : Rec64
  payload : List Byte
  /-- it takes an on-chip slot, otherwise an entry of the overflow ring -/
  onChip : Bool
  /-- its sender has had its reply -/
  acked : Bool
  /-- number in arrival order (spec/08_receive_engine.md R142) -/
  num : Nat
deriving DecidableEq, Repr

/-- States of a claimed message (spec/08_receive_engine.md R145). -/
inductive ClaimState where
  | pulling | landing | destFault
deriving DecidableEq, Repr

/-- A claimed message with its pigeonhole. -/
structure Claim where
  msg : Message
  hole : Pigeonhole
  st : ClaimState
  data : List Byte
  /-- it was DESTFAULT and is retried -/
  retry : Bool
  /-- its payload has been landed, and whether a part of it was lost: only its completion is left -/
  landed : Option Bool
  /-- requests of its pull, or writes of its landing to another package, are out, and their answers are awaited -/
  asked : Bool
  /-- the bytes that the requests of its pull which are out will bring -/
  due : Nat
  /-- writes of its landing to another package that still wait for a remote tag (spec/05_memories.md R88) -/
  unsent : List (Nat × Outgoing)
  /-- the remote tag of its pull or of its writes, while they are out -/
  tag : Option Nat
  since : Nat
deriving DecidableEq, Repr

/-- An item of a completion (spec/08_receive_engine.md R135, R141). -/
inductive EndItem where
  | status (va : Word) (bytes : List Byte)
  | barrier (va : Word) (dA : Nat) (dS : Int)
  | wake (desc cell : Nat)
  | reply (p : Packet)
  /-- bytes of a sweep's descriptor, and an addition to one of its counts (spec/11_context_tensors.md R197, R202) -/
  | put (va : Nat) (bytes : List Byte)
  | add (va : Nat) (x : Word)
deriving DecidableEq, Repr

/-- What completes: a send of a handle, a pigeonhole of a mailbox, a die's part of a shootdown, or the sweep engine's writes to a descriptor
on another package, from a die. -/
inductive EndKind where
  | send (hnd : BitVec 13)
  | hole (mb : Nat)
  | shoot (die : Nat)
  | sweep (die : Nat)
deriving DecidableEq, Repr

/-- A completion that waits for an item on another package, or for room in a wake unit. -/
structure Ending where
  kind : EndKind
  owner : Owner
  /-- of a matrix pigeonhole, for which EXIT waits (spec/08_receive_engine.md R144) -/
  tile : Bool
  /-- items still to be made, in order -/
  items : List EndItem
  /-- the request of the first item is out -/
  asked : Bool
  tag : Option Nat
  since : Nat
deriving DecidableEq, Repr

/-- A message from another package of which some bytes have reached the receive aperture (spec/08_receive_engine.md R147). -/
structure Inbound where
  peer : BitVec 10
  hnd : Nat
  hdr : Option Rec64
  /-- the bytes of the payload that are present, by offset -/
  bytes : Tab Byte
deriving DecidableEq, Repr

/-- Receiver state of a pair (spec/08_receive_engine.md R137). -/
structure Pair where
  srcma : BitVec 22
  sgen : BitVec 16
  expected : BitVec 16
  held : List Message
  /-- tick from which a gap is timed -/
  since : Nat
deriving DecidableEq, Repr

/-- A mailbox (spec/08_receive_engine.md R130). -/
structure Mailbox where
  isOpen : Bool
  part : BitVec 6
  /-- entries of the overflow ring -/
  ring : Nat
  /-- source generation of the latest open -/
  sgen : BitVec 16
  holes : List Pigeonhole
  queue : List Message
  claims : List Claim
  pairs : List Pair
  /-- next sequence number of each destination mail address -/
  nextSeq : Tab (BitVec 16)
deriving DecidableEq, Repr

/-- An SWAKEE pass in progress. -/
structure EventPass where
  die : Nat
  part : BitVec 6
  /-- the strand whose SWAKEE it is -/
  owner : Owner
  desc : Nat
  cbase : Nat
  cells : Nat
  skbase : Nat
  event : BitVec 24
  next : Nat
  /-- home address of the descriptor -/
  home : Nat
  /-- the package that it comes from; none for a pass of this package -/
  far : Option (BitVec 10)
deriving DecidableEq, Repr

/-- What a finished shootdown lets happen (spec/09_translation_and_faults.md R158, R159). -/
inductive Done where
  | nothing
  /-- a Yalush call of the partition returns this value -/
  | ylReturn (a0 : Word)
  /-- the feature mask takes effect -/
  | mask (m : Word)
  /-- the rest of a yl_exmap, page by page: next address, end, start -/
  | exmap (next stop start : Nat)
  /-- the roots, HBM ranges, peer set and feature mask of a changed partition-table entry take effect (spec/10_descriptor_tables.md R191) -/
  | table (e : BitVec 4096)
  /-- a yl_mem_free returns 0, and the block at this address may be handed out again (spec/09_translation_and_faults.md R159) -/
  | free (va : Nat)
deriving DecidableEq, Repr

/-- A shootdown in progress. -/
structure Shootdown where
  part : BitVec 6
  lo : Nat
  hi : Nat
  /-- barrier address, 0 for Yalush's own -/
  bar : Word
  /-- physical frames whose scan bits it clears -/
  frames : List Nat
  /-- dies that have not arrived -/
  dies : List Nat
  fin : Done
deriving DecidableEq, Repr

/-- A scan in progress (spec/13_encoding.md R233). -/
structure Scan where
  part : BitVec 6
  va : Nat
  frame : Nat
  mask : Word
  /-- the range of the yl_exmap call: start and end -/
  start : Nat
  stop : Nat
deriving DecidableEq, Repr

/-- A combined translation held by a TLB (spec/09_translation_and_faults.md R157). -/
structure TlbEntry where
  /-- core times two, plus 1 for the tile TLB; or 576 plus the cluster for a second-level TLB -/
  unit : Nat
  part : BitVec 6
  root : Nat
  /-- virtual base and log2 of the size -/
  base : Nat
  bits : Nat
  pa : Nat
  r : Bool
  w : Bool
  x : Bool
  dirty : Bool
  kind : BitVec 2
  peer : BitVec 10
deriving DecidableEq, Repr

/-- A remote tag (spec/05_memories.md R98). -/
structure RemoteTag where
  gen : BitVec 6
  busy : Bool
  /-- end of the quarantine -/
  until_ : Nat
  /-- further tags, by key, that an engine's stream of requests holds with it (spec/05_memories.md R88) -/
  more : List Nat
deriving DecidableEq, Repr

/-- A launch being enqueued or alive (spec/10_descriptor_tables.md R181). -/
structure Launch where
  lid : BitVec 32
  image : Nat
  /-- launch record, 128 bytes, and the next gang to enqueue -/
  rcd : BitVec 1024
  next : Nat
deriving DecidableEq, Repr

/-- A yl_wait that has not returned. -/
structure PendingWait where
  join : Nat
  ns : Word
  since : Nat
deriving DecidableEq, Repr

/-- A block given by yl_mem_alloc. -/
structure Block where
  va : Nat
  size : Nat
  /-- intermediate address of its frames -/
  ia : Nat
deriving DecidableEq, Repr

/-- A partition as activated (spec/10_descriptor_tables.md R189 to R191), with what Yalush keeps for it. -/
structure Partition where
  active : Bool
  cores : BitVec 288
  msmlim : BitVec 9
  slots : BitVec 4
  hbmr : List (Nat × Nat)
  mbBase : BitVec 12
  mbCnt : BitVec 12
  feature : Word
  weights : BitVec 32
  hypRoot : Nat
  guestRoot : Nat
  faultQ : Nat
  faultLog : Nat
  errRing : Nat
  launchTab : Nat
  gaPool : Nat
  gaCnt : Nat
  peerSet : BitVec 1024
  /-- ring base and log2 capacity of each level -/
  rings : List (Nat × Nat)
  heads : List (BitVec 32)
  tails : List (BitVec 32)
  /-- frames with their scan bit set, rising (R155) -/
  scan : List Nat
  /-- frames whose scan bit a narrowing of the feature mask cleared, rising: Yalush scans them again (R174) -/
  recheck : List Nat
  /-- gang areas taken -/
  areas : List Nat
  ceiling : BitVec 9
  policy : Tab Nat
  faults : List FaultRecord
  /-- result registers of the control program's latest call -/
  a0 : Word
  a1 : Word
  a2 : Word
  waits : List PendingWait
  launches : List Launch
  blocks : List Block
  /-- next free frame of Yalush's own allocator -/
  brk : Nat
  /-- levels that had an eligible record at the last grant, for R125 -/
  eligible : List Nat
  /-- the partition-table entry, as the hypervisor last wrote it (spec/10_descriptor_tables.md R189) -/
  entry : BitVec 4096
  /-- index of the next record of the fault queue in memory -/
  faultTail : Nat
  /-- the bitmap that holds the scan bits, by its base: SCANMAP as activated (spec/10_descriptor_tables.md R189) -/
  scanMap : Nat
deriving DecidableEq, Repr

/-- A loaded image (spec/20_host_links_and_bringup.md R371). -/
structure Image where
  handle : Nat
  part : BitVec 6
  vf : Nat
  /-- the file as it was loaded, for attestation -/
  file : List Byte
  /-- mapped sections: type, address, size -/
  sections : List (Nat × Nat × Nat)
  /-- what the control program starts with: its ELF entry, the kernel table's address in a0 and its entry count in a1
  (spec/19_binary_interface.md R366) -/
  entry : Word
  a0 : Word
  a1 : Word
  exit : Option Word
deriving DecidableEq, Repr

/-- BAR0 of a virtual function (spec/20_host_links_and_bringup.md R369). -/
structure VirtualFunction where
  part : Option (BitVec 6)
  doorbell : Word
  ringBase : Word
  ready : Bool
  err : Bool
deriving DecidableEq, Repr

/-- Power states (spec/20_host_links_and_bringup.md R377). -/
inductive PowerState where
  | p0 | p1 | p2 | p3
deriving DecidableEq, Repr

/-- Whose turn it is: the model's schedule of agents (Assumption 1). -/
inductive Act where
  /-- an engine, Yalush, the hypervisor or the outside makes this step -/
  | event (e : Instr) (a : Args)
  /-- the strand in this slot issues -/
  | issue (slot : Nat)
  /-- a TLB drops the entry at this position (capacity or choice) -/
  | dropTlb (idx : Nat)
  /-- nothing but time -/
  | idle
deriving DecidableEq, Repr

/-- One turn: how many ticks pass, and who moves. -/
structure Turn where
  ticks : Nat
  act : Act
deriving DecidableEq, Repr

end Sys2Proof.Machine

namespace Sys2Proof.Machine

open Sys2Proof

/-- The state of the package. -/
structure State where
  /-- turns to come (the model's own) -/
  agenda : List Turn
  /-- slot whose instruction runs (the model's own) -/
  cur : Nat
  /-- what the step under way was given (the model's own) -/
  arg : Args
  /-- counter behind the free values (the model's own) -/
  fresh : Nat
  /-- number of the latest instruction or command (the model's own) -/
  seq : Nat
  /-- CYCLE, 02 R38 -/
  cycle : Nat
  /-- slots 0 to 1,151: slot + 4 x (core + 8 x (cluster + 6 x die)) -/
  strands : Tab Strand
  /-- last issuing slot of each core, 01 R7 -/
  lastSlot : Tab Nat
  /-- cores that have issued in this tick, 01 R7 -/
  issued : List Nat
  /-- how often each slot has been passed over, ready and permitted, since it last issued or was not ready, 07 R129 (the model's own) -/
  passed : Tab Nat
  /-- last slot of each core whose M queue the matrix array has served, and whose C queue the copy engine has, 01 R9, 07 R123 -/
  lastM : Tab Nat
  lastC : Tab Nat
  gangs : List Gang
  /-- frames in use: core x 256 + frame, 03 R51 -/
  frames : Tab Frame
  /-- frames withdrawn, 03 R60 -/
  withdrawn : List Nat
  /-- cores whose THERM is set, 05 R84 -/
  therm : List Nat
  /-- cores withdrawn from scheduling, 05 R102 -/
  deadCores : List Nat
  /-- physical vector registers of each core out of service, 05 R102 -/
  vregLost : Tab Nat
  /-- thermal level of each stack, 05 R94 -/
  hbmth : BitVec 24
  mem : List Host.Cell
  /-- poisoned 32-byte sectors of HBM, rising, 05 R103 -/
  badSectors : List Nat
  /-- dead 2 KiB row groups, rising, 05 R92 -/
  deadGroups : List Nat
  /-- 512-byte blocks stored compressed, rising, 05 R91 -/
  compressed : List Nat
  remto : Nat
  tlb : List TlbEntry
  scans : List Scan
  shootdowns : List Shootdown
  /-- peer table, 09 R156 -/
  peers : Tab Word
  /-- UALink ports that are up, 20 R372 -/
  ports : BitVec 18
  /-- this package's peer number -/
  self : BitVec 10
  parts : Tab Partition
  /-- pass values, key (partition x 4 + level) x 288 + core, 07 R125 -/
  pass : Tab (BitVec 32)
  /-- continuations held for a full ring, oldest first: partition, level, record, 07 R124 -/
  heldRecs : List (BitVec 6 × BitVec 2 × Rec64)
  /-- what the work-queue engine last read as PRIO of a join: partition, address, level, 10 R180 -/
  joins : List (BitVec 6 × Nat × BitVec 2)
  /-- join decrements on their way to other packages, 10 R180 -/
  joinOps : List JoinOp
  /-- reads of PRIO of joins on other packages that are awaited, 10 R180 -/
  joinReads : List JoinOp
  /-- wait entries at barriers of this package for BWAITs of other packages: peer, address and phase, 17 R318 -/
  homeWaits : List (BitVec 10 × Nat × BitVec 4)
  /-- packages of which some BTEST has named an object of this package: peer and address, 17 R334 -/
  homeWatches : List (BitVec 10 × Nat)
  hypFaults : List FaultRecord
  /-- records of strands that have left their slot, waiting for room in their partition's fault queue, 09 R160 -/
  lateFaults : List (BitVec 6 × FaultRecord)
  copies : List Copy
  retiredCq : List RetiredQueue
  /-- remote tags, key die x 4,096 + tag, 05 R98 -/
  tags : Tab RemoteTag
  mailboxes : Tab Mailbox
  sends : List Send
  /-- headers and replies between mailboxes of this package, on their way -/
  wire : List Packet
  /-- messages of other packages that have arrived in part, 08 R147 -/
  inbox : List Inbound
  /-- completions under way, 08 R135, R141 -/
  ends : List Ending
  /-- pulls answered on this package for its own receivers: handle, offset, bytes, fine -/
  pulled : List (BitVec 13 × Nat × List Byte × Bool)
  wakes : List Wake
  passes : List EventPass
  hvring : Word
  /-- device registers written, 05 R82 -/
  device : Tab Word
  vfs : Tab VirtualFunction
  hostMem : List Host.Cell
  images : List Image
  power : PowerState
  capWatts : Nat
  /-- package power, the hottest junction and the temperature of each die as the controller last measured them, which telemetry gives, 20
  R376 -/
  watts : Nat
  hottest : Nat
  dieTemp : Tab Nat
  /-- tick of the latest throttle step, and tick since which power has stayed above the cap, 20 R378 -/
  throttleTick : Nat
  overSince : Option Nat
  powerHold : Bool
  /-- tick since which the package has been idle -/
  idleSince : Option Nat
  /-- bring-up step, 20 R374 -/
  bringUp : Nat
  eraseOnAlarm : Bool
  keysGone : Bool
  needsProvision : Bool
  /-- control processors that have been started, die x 4 + processor, 00 R1, 20 R374 -/
  controls : BitVec 24
  /-- firmware that runs, and the Yalush image, 20 R374, R375 -/
  firmware : List Byte
  yalush : List Byte
  /-- self-tests running, with whether the error was corrected and the tick of the start, 05 R101 -/
  tests : List (EccTarget × Bool × Nat)
  /-- the step under way has read a page-table entry, or what an engine keeps in memory, in a row under a self-test: it waits, 05 R101 (the
  model's own) -/
  held : Bool
  outbox : List Outgoing
deriving DecidableEq, Repr

/-- An empty slot: every register at its value at strand start (spec/01_execution_model.md R11). -/
def Strand.empty : Strand where
  phase := .free
  gang := 0
  rank := 0
  rcd := 0#512
  part := 0#6
  pc := 0#64
  s := []
  v := []
  k := []
  vl := 512#12
  sew := 2#2
  gm := 0#2
  mw := 0#8
  tsh := ⟨64#8, 64#8, 256#12, 512#10⟩
  vstat := 0#5
  srseed := 0#64
  vbank := ⟨0#64, []⟩
  mbank := ⟨0#64, []⟩
  mseed := []
  fq := 0#9
  sf := 0#9
  lim := 0#9
  fills := 0#24
  spills := 0#24
  ftbase := 0#52
  ftlen := 0#32
  tok := ⟨0#4, 0#4, 0#4, 0#4, 0#4, 0#4⟩
  tokRes := ⟨0#4, 0#4, 0#4, 0#4, 0#4, 0#4⟩
  tokNew := ⟨0#4, 0#4, 0#4, 0#4, 0#4, 0#4⟩
  guards := []
  sbPend := 0#8
  sbErr := 0#8
  sbOwner := []
  sbFail := []
  swCur := 0#48
  swAct := false
  swGrp := 0#48
  swAwk := 0#48
  swErr := 0#32
  sweep := none
  runtk := 0#64
  wdlim := 0#64
  perfSel := []
  perfCnt := []
  perfNext := []
  evFlag := false
  watch := none
  links := []
  unacked := []
  acks := []
  marks := []
  badS := []
  badK := []
  badC := []
  strips := []
  deferred := none
  deferNow := false
  fault := none
  reported := false
  restart := 0
  append := none
  vscFail := []
  heldFlags := 0#5
  handing := []
  wakesFar := []
  claim := none
  recBuf := none
  wait := .none
  tokDone := false
  out := []
  mq := []
  mseq := 0#16
  active := none
  shadow := none
  map := []
  bound := []
  fillq := []
  spillq := []
  cq := []
  sendq := []
  scratch := []
  nearBad := []
  scrFrames := []
  tokps := []
  yielded := 0

/-- The package right after package reset: no strand is bound and no partition is active. Values the manual does not
state are named in the assumption log (2, 3, 4). -/
def State.reset : State where
  agenda := []
  cur := 0
  arg := Args.none
  fresh := 0
  seq := 0
  cycle := 0
  strands := []
  lastSlot := []
  issued := []
  passed := []
  lastM := []
  lastC := []
  gangs := []
  frames := []
  withdrawn := []
  therm := []
  deadCores := []
  vregLost := []
  hbmth := 0#24
  mem := []
  badSectors := []
  deadGroups := []
  compressed := []
  remto := 3000000
  tlb := []
  scans := []
  shootdowns := []
  peers := []
  ports := 0#18
  self := 0#10
  parts := []
  pass := []
  heldRecs := []
  joins := []
  joinOps := []
  joinReads := []
  homeWaits := []
  homeWatches := []
  hypFaults := []
  lateFaults := []
  copies := []
  retiredCq := []
  tags := []
  mailboxes := []
  sends := []
  wire := []
  inbox := []
  ends := []
  pulled := []
  wakes := []
  passes := []
  hvring := 0#64
  device := []
  vfs := []
  hostMem := []
  images := []
  power := .p0
  capWatts := 4400
  watts := 0
  hottest := 0
  dieTemp := []
  throttleTick := 0
  overSince := none
  powerHold := false
  idleSince := none
  bringUp := 1
  eraseOnAlarm := false
  keysGone := false
  needsProvision := false
  controls := 0#24
  firmware := []
  yalush := []
  tests := []
  held := false
  outbox := []

end Sys2Proof.Machine
end

