-- ==== Sys2Proof/Machine/Bits.lean ====
section
/-! DEFINITION. Bit fields, byte order and lists of bits: the plain helpers of the machine. Multi-byte values are
little-endian (spec/00_scope.md R3). -/

namespace Sys2Proof.Machine

open Sys2Proof

/-- Bits [lo+w-1 : lo] of a value. -/
def slice {n : Nat} (x : BitVec n) (lo w : Nat) : BitVec w := x.extractLsb' lo w

/-- The value with bits [lo+w-1 : lo] replaced. -/
def putSlice {n : Nat} (x : BitVec n) (lo w : Nat) (v : BitVec w) : BitVec n :=
  (x &&& ~~~(((BitVec.allOnes w).setWidth n) <<< lo)) ||| ((v.setWidth n) <<< lo)

/-- The value with one bit replaced. -/
def putBit {n : Nat} (x : BitVec n) (i : Nat) (b : Bool) : BitVec n := putSlice x i 1 (BitVec.ofBool b)

/-- A flag as a number. -/
def boolNat (b : Bool) : Nat := if b then 1 else 0

/-- The little-endian number in a list of bytes. -/
def bytesNat : List Byte → Nat
  | [] => 0
  | b :: bs => b.toNat + 256 * bytesNat bs

/-- The `n` low bytes of a number, least significant first. -/
def natBytes : Nat → Nat → List Byte
  | 0, _ => []
  | n + 1, x => BitVec.ofNat 8 x :: natBytes n (x / 256)

/-- The bytes of a value, least significant first. -/
def bvBytes {n : Nat} (x : BitVec n) : List Byte := natBytes (n / 8) x.toNat

/-- A value of `w` bits from bytes. -/
def bytesBv (w : Nat) (bs : List Byte) : BitVec w := BitVec.ofNat w (bytesNat bs)

/-- The signed value of the low `w` bits of a number. -/
def signedOf (w : Nat) (x : Nat) : Int :=
  let y := x % 2 ^ w
  if 2 * y < 2 ^ w then (y : Int) else (y : Int) - (2 ^ w : Nat)

/-- An integer modulo 2^w. -/
def wrapInt (w : Nat) (x : Int) : Nat := (x % ((2 ^ w : Nat) : Int)).toNat

/-- A 64-bit word from an integer. -/
def wordOfInt (x : Int) : Word := BitVec.ofNat 64 (wrapInt 64 x)

/-- Zero-extension to a scalar register. -/
def zext64 {n : Nat} (x : BitVec n) : Word := x.setWidth 64

/-- The value at a position of a list, a default beyond its end. -/
def nth {α : Type} (d : α) (l : List α) (i : Nat) : α := l.getD i d

/-- The list with one position replaced. -/
def setNth {α : Type} : List α → Nat → α → List α
  | [], _, _ => []
  | _ :: t, 0, v => v :: t
  | a :: t, i + 1, v => a :: setNth t i v

/-- The list without one position. -/
def dropNth {α : Type} : List α → Nat → List α
  | [], _ => []
  | _ :: t, 0 => t
  | a :: t, i + 1 => a :: dropNth t i

/-- Inserts into a rising list without repeats. -/
def insNat (x : Nat) : List Nat → List Nat
  | [] => [x]
  | y :: t => if x < y then x :: y :: t else if x = y then y :: t else y :: insNat x t

/-- The first position whose element passes a test. -/
def findPos {α : Type} (p : α → Bool) : List α → Option Nat
  | [] => none
  | a :: t => if p a then some 0 else (findPos p t).map (· + 1)

/-- The first number below a bound that passes a test. -/
def firstBelow (p : Nat → Bool) (n : Nat) : Option Nat := (List.range n).find? p

/-- All the numbers below a bound that pass a test, as a bit vector. -/
def bitsOf (n : Nat) (p : Nat → Bool) : BitVec n :=
  BitVec.ofNat n ((List.range n).foldr (fun i acc => if p i then acc ||| (1 <<< i) else acc) 0)

end Sys2Proof.Machine
end

