-- ==== Sys2Proof/Machine/Float.lean ====
section
/-! DEFINITION. Number formats and exact arithmetic (spec/04_number_formats.md R62 to R76): every value is an exact dyadic
number, operations are exact, and one rounding writes the result. -/

namespace Sys2Proof.Machine

open Sys2Proof

/-- An exact value: NaN (signalling or not), an infinity, or (-1)^neg × m × 2^e, where `sticky` says that the magnitude lies
strictly between m and m + 1 units. -/
inductive FVal where
  | nan (sig : Bool)
  | inf (neg : Bool)
  | fin (neg : Bool) (m : Nat) (e : Int) (sticky : Bool)
deriving DecidableEq, Repr

/-- VSTAT flags (spec/02_strand_registers.md R38): NV, OF, UF, NX, SAT from bit 0. -/
abbrev Flags := BitVec 5
def flNV : Flags := 1#5
def flOF : Flags := 2#5
def flUF : Flags := 4#5
def flNX : Flags := 8#5
def flSAT : Flags := 16#5
/-- A flag when a condition holds. -/
def flIf (b : Bool) (f : Flags) : Flags := if b then f else 0#5

/-- How a floating format spends its top encodings (spec/04_number_formats.md R64). -/
inductive Specials where
  /-- infinities and NaNs in the top exponent -/
  | ieee
  /-- one NaN, no infinity (E4M3) -/
  | oneNan
  /-- neither -/
  | finite
deriving DecidableEq, Repr

/-- A floating element format (spec/04_number_formats.md R63). -/
structure FFmt where
  /-- bits of the encoding, without the padding of six-bit formats -/
  width : Nat
  ebits : Nat
  mbits : Nat
  bias : Nat
  sp : Specials
  /-- FTZ acts on it (spec/04_number_formats.md R69) -/
  ftz : Bool
deriving DecidableEq, Repr

/-- A format of a format code (spec/04_number_formats.md R62). -/
inductive Fmt where
  | float (f : FFmt)
  | int (n : Nat)
  | uint (n : Nat)
  /-- Plynden block floating point with F magnitude bits -/
  | bfp (f : Nat)
  | acc48
deriving DecidableEq, Repr

def fp32 : FFmt := ⟨32, 8, 23, 127, .ieee, true⟩
def bf16 : FFmt := ⟨16, 8, 7, 127, .ieee, true⟩
def fp16 : FFmt := ⟨16, 5, 10, 15, .ieee, true⟩
def e4m3 : FFmt := ⟨8, 4, 3, 7, .oneNan, true⟩
def e5m2 : FFmt := ⟨8, 5, 2, 15, .ieee, true⟩
def e3m2 : FFmt := ⟨6, 3, 2, 3, .finite, false⟩
def e2m3 : FFmt := ⟨6, 2, 3, 1, .finite, false⟩
def e2m1 : FFmt := ⟨4, 2, 1, 1, .finite, false⟩

/-- The format of a code, none where it is unassigned (spec/04_number_formats.md R62). -/
def fmtOf (code : BitVec 8) : Option Fmt :=
  match code.toNat with
  | 0x01 => some (.float fp32)
  | 0x02 => some (.float bf16)
  | 0x03 => some (.float fp16)
  | 0x04 => some (.float e4m3)
  | 0x05 => some (.float e5m2)
  | 0x06 => some (.float e3m2)
  | 0x07 => some (.float e2m3)
  | 0x08 => some (.float e2m1)
  | 0x10 => some (.int 32)
  | 0x11 => some (.int 16)
  | 0x12 => some (.int 8)
  | 0x13 => some (.int 4)
  | 0x14 => some (.uint 32)
  | 0x15 => some (.uint 16)
  | 0x16 => some (.uint 8)
  | 0x17 => some (.uint 4)
  | 0x20 => some (.bfp 6)
  | 0x21 => some (.bfp 4)
  | 0x22 => some (.bfp 2)
  | 0x30 => some .acc48
  | _ => none

/-- The bits an element of a format takes in a vector register, a matrix row or memory (spec/04_number_formats.md R62, R66,
R73): six-bit elements are held in a byte. -/
def fmtWidth : Fmt → Nat
  | .float f => if f.width = 6 then 8 else f.width
  | .int n => n
  | .uint n => n
  | .bfp f => if f = 2 then 4 else 8
  | .acc48 => 48

/-- The number of bits of a number. -/
def bitLen (n : Nat) : Nat := if n = 0 then 0 else Nat.log2 n + 1

/-- n × 2^k for a signed k that loses nothing when k is negative only where the caller says so. -/
def shiftNat (n : Nat) (k : Int) : Nat := if 0 ≤ k then n * 2 ^ k.toNat else n / 2 ^ (-k).toNat

/-- An exact integer. -/
def fvalOfInt (x : Int) : FVal := .fin (decide (x < 0)) x.natAbs 0 false

/-- The sign of a value, false for NaN. -/
def FVal.neg : FVal → Bool
  | .nan _ => false
  | .inf n => n
  | .fin n _ _ _ => n

def FVal.isNan : FVal → Bool
  | .nan _ => true
  | _ => false

def FVal.isSig : FVal → Bool
  | .nan b => b
  | _ => false

def FVal.isZero : FVal → Bool
  | .fin _ 0 _ false => true
  | _ => false

/-- The value with its sign turned. -/
def FVal.negate : FVal → FVal
  | .nan b => .nan b
  | .inf n => .inf (!n)
  | .fin n m e k => .fin (!n) m e k

/-- Decodes an element of a floating format (spec/04_number_formats.md R63, R64), a subnormal input being read as zero under FTZ
(R69). -/
def decodeFloat (f : FFmt) (ftz : Bool) (x : Nat) : FVal :=
  let frac : Nat := x % 2 ^ f.mbits
  let ex : Nat := x / 2 ^ f.mbits % 2 ^ f.ebits
  let neg := decide (x / 2 ^ (f.width - 1) % 2 = 1)
  let top := 2 ^ f.ebits - 1
  if f.sp = .ieee ∧ ex = top then
    if frac = 0 then .inf neg
    else .nan (decide (f.width ≠ 8) && decide (frac < 2 ^ (f.mbits - 1)))
  else if f.sp = .oneNan ∧ ex = top ∧ frac = 2 ^ f.mbits - 1 then .nan false
  else if ex = 0 then
    if ftz && f.ftz then .fin neg 0 0 false
    else .fin neg frac (1 - (f.bias : Int) - f.mbits) false
  else .fin neg (2 ^ f.mbits + frac) ((ex : Int) - f.bias - f.mbits) false

/-- Decodes an ACC48 element under a floating format (spec/04_number_formats.md R75). -/
def decodeAcc (x : Nat) : FVal :=
  let frac : Nat := x % 2 ^ 37
  let ex : Nat := x / 2 ^ 37 % 1024
  let neg := decide (x / 2 ^ 47 % 2 = 1)
  if ex = 0 then .fin neg 0 0 false
  else if ex = 1023 then if frac = 0 then .inf neg else .nan false
  else .fin neg (2 ^ 37 + frac) ((ex : Int) - 511 - 37) false

/-- Decodes an element of a block under its scale word (spec/04_number_formats.md R72, R73). -/
def decodeBfp (f : Nat) (scale : Nat) (x : Nat) : FVal :=
  let el : Nat := scale / 2 ^ 11 % 512
  let dh : Nat := scale / 2 ^ 3 % 256
  let m : Nat := x % 2 ^ f
  let neg := decide (x / 2 ^ f % 2 = 1)
  let sel := decide (x / 2 ^ (f + 1) % 2 = 1)
  if el = 0 then .fin false 0 0 false
  else if el = 511 then .nan false
  else
    let ex : Nat := if sel then min (el + dh) 510 else el
    .fin neg m ((ex : Int) - 255 - (f : Int)) false

/-- Decodes an element of a format other than BFP. -/
def decodeFmt (f : Fmt) (ftz : Bool) (x : Nat) : FVal :=
  match f with
  | .float g => decodeFloat g ftz x
  | .int n => fvalOfInt (signedOf n x)
  | .uint n => fvalOfInt ((x % 2 ^ n : Nat) : Int)
  | .bfp g => decodeBfp g 0 x
  | .acc48 => decodeAcc x

/-! ### Rounding (spec/04_number_formats.md R67) -/

/-- m × 2^(-shift), with or without a sticky remainder, rounded to an integer: the integer, and whether it is inexact. `g` is the
16-bit draw of SR. -/
def roundQ (rm : BitVec 3) (neg : Bool) (g : Nat) (m : Nat) (shift : Int) (sticky : Bool) : Nat × Bool :=
  if shift ≤ 0 then (m * 2 ^ (-shift).toNat, sticky)
  else
    let k := shift.toNat
    let q := m / 2 ^ k
    let r := m % 2 ^ k
    let inexact := sticky || decide (r ≠ 0)
    let half := 2 ^ (k - 1)
    let up :=
      match rm.toNat with
      | 0 => decide (half < r) || (decide (r = half) && (sticky || decide (q % 2 = 1)))
      | 1 => false
      | 2 => inexact && !neg
      | 3 => inexact && neg
      | 4 => decide (half ≤ r)
      | _ => decide (65536 ≤ 65536 * r / 2 ^ k + g)
    (if inexact && up then q + 1 else q, inexact)

/-- Arithmetic settings of an instruction: rounding mode, SAT, FTZ (spec/02_strand_registers.md R33). -/
structure Round where
  rm : BitVec 3
  sat : Bool
  ftz : Bool
deriving DecidableEq, Repr

/-- Round to nearest even, keeping subnormals and not saturating. -/
def roundRne : Round := ⟨0#3, false, false⟩

/-- The settings in a format word. -/
def roundOf (fw : Word) : Round := ⟨slice fw 24 3, fw.getLsbD 27, fw.getLsbD 28⟩

/-- The canonical NaN of a format (spec/04_number_formats.md R65). -/
def nanOf (f : FFmt) : Nat :=
  match f.sp with
  | .ieee => (2 ^ f.ebits - 1) * 2 ^ f.mbits + 2 ^ (f.mbits - 1)
  | .oneNan => 2 ^ (f.width - 1) - 1
  | .finite => 0

/-- The largest finite encoding of a format, without sign (spec/04_number_formats.md R63). -/
def maxEnc (f : FFmt) : Nat :=
  match f.sp with
  | .ieee => (2 ^ f.ebits - 1) * 2 ^ f.mbits - 1
  | .oneNan => 2 ^ (f.width - 1) - 2
  | .finite => 2 ^ (f.width - 1) - 1

/-- The sign bit of an encoding. -/
def signBit (f : FFmt) (neg : Bool) : Nat := if neg then 2 ^ (f.width - 1) else 0

/-- The exponent of the least significant bit of the subnormals of a format. -/
def minUlp (f : FFmt) : Int := 1 - (f.bias : Int) - f.mbits

/-- Does m × 2^e (with a sticky remainder or not) exceed the largest finite value of a format? -/
def aboveMax (f : FFmt) (m : Nat) (e : Int) (sticky : Bool) : Bool :=
  match decodeFloat f false (maxEnc f) with
  | .fin _ mx ex _ =>
    let lo := min e ex
    let a := m * 2 ^ (e - lo).toNat
    let b := mx * 2 ^ (ex - lo).toNat
    decide (b < a) || (sticky && decide (b ≤ a))
  | _ => false

/-- Writes a finite value that overflows (spec/04_number_formats.md R71). -/
def overflowF (f : FFmt) (r : Round) (neg : Bool) : Nat × Flags :=
  let s := signBit f neg
  let inf := (2 ^ f.ebits - 1) * 2 ^ f.mbits
  match f.sp with
  | .ieee =>
    if r.sat then (s + maxEnc f, flOF ||| flNX ||| flSAT)
    else
      let toMax := match r.rm.toNat with
        | 1 => true
        | 2 => neg
        | 3 => !neg
        | _ => false
      (s + (if toMax then maxEnc f else inf), flOF ||| flNX)
  | .oneNan => if r.sat then (s + maxEnc f, flOF ||| flSAT ||| flNX) else (nanOf f, flOF ||| flNX)
  | .finite => (s + maxEnc f, flOF ||| flSAT ||| flNX)

/-- Writes an infinity that is converted (spec/04_number_formats.md R71). The flags are those of R71's cells and no others: R70's OF for an
infinity that is converted to a format without one, and its NX for a value that changes, are read as given by the cells (DESIGN CHOICE,
Assumption 47). -/
def infinityF (f : FFmt) (r : Round) (neg : Bool) : Nat × Flags :=
  let s := signBit f neg
  match f.sp with
  | .ieee =>
    if r.sat then (s + maxEnc f, flOF ||| flSAT) else (s + (2 ^ f.ebits - 1) * 2 ^ f.mbits, 0#5)
  | .oneNan => if r.sat then (s + maxEnc f, flOF ||| flSAT) else (nanOf f, flNV)
  | .finite => (s + maxEnc f, flOF ||| flSAT)

/-- Rounds an exact value to a floating format: the encoding, and the flags of spec/04_number_formats.md R70 and R71. `g` is the
element's draw under SR. -/
def encodeFloat (f : FFmt) (r : Round) (g : Nat) (x : FVal) : Nat × Flags :=
  match x with
  | .nan sig => if f.sp = .finite then (0, flNV) else (nanOf f, flIf sig flNV)
  | .inf neg => infinityF f r neg
  | .fin neg m e sticky =>
    if m = 0 ∧ sticky = false then (signBit f neg, 0#5)
    else
      let top := e + bitLen m - 1
      -- an |x| above the largest finite value rounds under SR as under RNE (R67)
      let rm := if r.rm = 5#3 ∧ aboveMax f m e sticky then 0#3 else r.rm
      let wide := top - f.mbits
      let (qw, _) := roundQ rm neg g m (wide - e) sticky
      if aboveMax f qw wide false then overflowF f { r with rm := rm } neg
      else
        let u := max wide (minUlp f)
        let (q, inexact) := roundQ rm neg g m (u - e) sticky
        -- q × 2^u: q below 2^mbits is subnormal, and q may have carried to 2^(mbits+1)
        let tiny := decide (q < 2 ^ f.mbits)
        if tiny && r.ftz && f.ftz && (decide (q ≠ 0) || inexact) then (signBit f neg, flUF ||| flNX)
        else
          let enc := if tiny then q else (u - minUlp f).toNat * 2 ^ f.mbits + q
          (signBit f neg + enc, flIf inexact flNX ||| flIf (tiny && inexact) flUF)

/-- Rounds an exact value to ACC48 by RNE (spec/04_number_formats.md R75). -/
def encodeAcc (x : FVal) : Nat × Flags :=
  match x with
  | .nan sig => (0x7FF000000000, flIf sig flNV)
  | .inf neg => ((if neg then 2 ^ 47 else 0) + 0x7FE000000000, 0#5)
  | .fin neg m e sticky =>
    let s := if neg then 2 ^ 47 else 0
    if m = 0 ∧ sticky = false then (s, 0#5)
    else
      let u := e + bitLen m - 38
      let (q, inexact) := roundQ 0#3 neg 0 m (u - e) sticky
      -- the rounded magnitude is q × 2^u with 2^37 ≤ q ≤ 2^38
      let (q1, u1) := if q = 2 ^ 38 then (2 ^ 37, u + 1) else (q, u)
      let ex := u1 + 37 + 511
      if ex < 1 then (s, flUF ||| flNX)
      else if 1022 < ex then (s + 0x7FE000000000, flOF ||| flNX)
      else (s + ex.toNat * 2 ^ 37 + (q1 - 2 ^ 37), flIf inexact flNX)

/-- The bounds of an integer format. -/
def intMax (signed : Bool) (n : Nat) : Int := if signed then 2 ^ (n - 1) - 1 else 2 ^ n - 1
def intMin (signed : Bool) (n : Nat) : Int := if signed then -(2 ^ (n - 1)) else 0

/-- Rounds an exact value to an integer format (spec/04_number_formats.md R71): out-of-range values, infinities among them, give the bound, with
the flags of R71's cells and no others (DESIGN CHOICE, Assumption 47). Under SR a
magnitude beyond the bound of its sign has no representable neighbour above it, so it goes by RNE, as R67 says of the largest
finite value (DEDUCED, Assumption 47: R67 does not name integer destinations there). -/
def encodeInt (signed : Bool) (n : Nat) (rm : BitVec 3) (g : Nat) (x : FVal) : Nat × Flags :=
  match x with
  | .nan _ => (0, flNV)
  | .inf neg => (wrapInt n (if neg then intMin signed n else intMax signed n), flNV ||| flSAT)
  | .fin neg m e sticky =>
    let bound := (if neg then intMin signed n else intMax signed n).natAbs
    let (whole, part) := roundQ 1#3 neg 0 m (-e) sticky
    let beyond := decide (bound < whole) || (decide (bound = whole) && part)
    let (q, inexact) := roundQ (if rm = 5#3 ∧ beyond then 0#3 else rm) neg g m (-e) sticky
    let v : Int := if neg then -(q : Int) else q
    if v < intMin signed n then (wrapInt n (intMin signed n), flNV ||| flSAT)
    else if intMax signed n < v then (wrapInt n (intMax signed n), flNV ||| flSAT)
    else (wrapInt n v, flIf inexact flNX)

/-- Converts an integer to an integer format (spec/04_number_formats.md R71, integer source): clamped with SAT, or the low bits. -/
def intToInt (signed : Bool) (n : Nat) (sat : Bool) (v : Int) : Nat × Flags :=
  if v < intMin signed n then
    if sat then (wrapInt n (intMin signed n), flSAT) else (wrapInt n v, flNX)
  else if intMax signed n < v then
    if sat then (wrapInt n (intMax signed n), flSAT) else (wrapInt n v, flNX)
  else (wrapInt n v, 0#5)

/-! ### Exact operations -/

/-- The exact sum of two finite values; a zero sum of unlike signs is +0, or -0 under RDN. -/
def addFin (rdn : Bool) (n1 : Bool) (m1 : Nat) (e1 : Int) (k1 : Bool) (n2 : Bool) (m2 : Nat) (e2 : Int) (k2 : Bool) : FVal :=
  let e := min e1 e2
  let a : Int := (if n1 then -1 else 1) * (m1 * 2 ^ (e1 - e).toNat : Nat)
  let b : Int := (if n2 then -1 else 1) * (m2 * 2 ^ (e2 - e).toNat : Nat)
  let c := a + b
  if c = 0 then .fin (if n1 = n2 then n1 else rdn) 0 0 false
  else .fin (decide (c < 0)) c.natAbs e (k1 || k2)

/-- x + y exactly, with the invalid flag (spec/04_number_formats.md R65). -/
def addV (rdn : Bool) (x y : FVal) : FVal × Flags :=
  let sig := flIf (x.isSig || y.isSig) flNV
  match x, y with
  | .nan _, _ => (.nan false, sig)
  | _, .nan _ => (.nan false, sig)
  | .inf a, .inf b => if a = b then (.inf a, 0#5) else (.nan false, flNV)
  | .inf a, .fin _ _ _ _ => (.inf a, 0#5)
  | .fin _ _ _ _, .inf b => (.inf b, 0#5)
  | .fin n1 m1 e1 k1, .fin n2 m2 e2 k2 => (addFin rdn n1 m1 e1 k1 n2 m2 e2 k2, 0#5)

/-- x × y exactly, with the invalid flag (spec/04_number_formats.md R65). -/
def mulV (x y : FVal) : FVal × Flags :=
  let sig := flIf (x.isSig || y.isSig) flNV
  match x, y with
  | .nan _, _ => (.nan false, sig)
  | _, .nan _ => (.nan false, sig)
  | .inf a, .inf b => (.inf (a != b), 0#5)
  | .inf a, .fin b m _ _ => if m = 0 then (.nan false, flNV) else (.inf (a != b), 0#5)
  | .fin a m _ _, .inf b => if m = 0 then (.nan false, flNV) else (.inf (a != b), 0#5)
  | .fin n1 m1 e1 _, .fin n2 m2 e2 _ => (.fin (n1 != n2) (m1 * m2) (e1 + e2) false, 0#5)

/-- x × y + z with one rounding to come. -/
def fmaV (rdn : Bool) (x y z : FVal) : FVal × Flags :=
  let (p, f1) := mulV x y
  let (r, f2) := addV rdn p z
  (r, f1 ||| f2)

/-- x / y, to 64 quotient bits and a sticky remainder; x / 0 is an infinity (spec/04_number_formats.md R65). -/
def divV (x y : FVal) : FVal × Flags :=
  let sig := flIf (x.isSig || y.isSig) flNV
  match x, y with
  | .nan _, _ => (.nan false, sig)
  | _, .nan _ => (.nan false, sig)
  | .inf _, .inf _ => (.nan false, flNV)
  | .inf a, .fin b _ _ _ => (.inf (a != b), 0#5)
  | .fin a _ _ _, .inf b => (.fin (a != b) 0 0 false, 0#5)
  | .fin a m1 e1 _, .fin b m2 e2 _ =>
    if m2 = 0 then if m1 = 0 then (.nan false, flNV) else (.inf (a != b), 0#5)
    else if m1 = 0 then (.fin (a != b) 0 0 false, 0#5)
    else
      let k := 64 + bitLen m2
      (.fin (a != b) (m1 * 2 ^ k / m2) (e1 - e2 - k) (decide (m1 * 2 ^ k % m2 ≠ 0)), 0#5)

/-- The integer square root, by bits from `2^(k-1)` down. -/
def isqrt (n : Nat) : Nat → Nat → Nat
  | 0, r => r
  | k + 1, r => if (r + 2 ^ k) * (r + 2 ^ k) ≤ n then isqrt n k (r + 2 ^ k) else isqrt n k r

/-- The square root, to at least 63 bits and a sticky remainder (spec/04_number_formats.md R65). -/
def sqrtV (x : FVal) : FVal × Flags :=
  match x with
  | .nan sig => (.nan false, flIf sig flNV)
  | .inf neg => if neg then (.nan false, flNV) else (.inf false, 0#5)
  | .fin neg m e _ =>
    if m = 0 then (.fin neg 0 0 false, 0#5)
    else if neg then (.nan false, flNV)
    else
      let odd := decide (e % 2 ≠ 0)
      let m1 := (if odd then 2 * m else m) * 2 ^ 128
      let e1 := (if odd then e - 1 else e) - 128
      let q := isqrt m1 (bitLen m1 / 2 + 1) 0
      (.fin false q (e1 / 2) (decide (q * q ≠ m1)), 0#5)

/-- x × 2^n. -/
def scaleV (x : FVal) (n : Int) : FVal :=
  match x with
  | .fin a m e k => if m = 0 then .fin a m e k else .fin a m (e + n) k
  | y => y

/-- x < y on values that are not NaN. -/
def ltV (x y : FVal) : Bool :=
  match x, y with
  | .nan _, _ => false
  | _, .nan _ => false
  | .inf a, .inf b => a && !b
  | .inf a, .fin _ _ _ _ => a
  | .fin _ _ _ _, .inf b => !b
  | .fin n1 m1 e1 _, .fin n2 m2 e2 _ =>
    let e := min e1 e2
    let a : Int := (if n1 then -1 else 1) * (m1 * 2 ^ (e1 - e).toNat : Nat)
    let b : Int := (if n2 then -1 else 1) * (m2 * 2 ^ (e2 - e).toNat : Nat)
    decide (a < b)

/-- x = y on values that are not NaN: +0 equals -0. -/
def eqV (x y : FVal) : Bool := !x.isNan && !y.isNan && !ltV x y && !ltV y x

/-- Is x below y in the order that puts -0 below +0? -/
def belowV (x y : FVal) : Bool := ltV x y || (x.isZero && y.isZero && x.neg && !y.neg)

/-- The smaller value, or the operand that is not NaN (spec/14_scalar_instructions.md R241). -/
def minV (x y : FVal) : FVal × Flags :=
  let sig := flIf (x.isSig || y.isSig) flNV
  if x.isNan && y.isNan then (.nan false, sig)
  else if x.isNan then (y, sig)
  else if y.isNan then (x, sig)
  else (if belowV y x then y else x, sig)

/-- The larger value, or the operand that is not NaN (spec/14_scalar_instructions.md R241). -/
def maxV (x y : FVal) : FVal × Flags :=
  let sig := flIf (x.isSig || y.isSig) flNV
  if x.isNan && y.isNan then (.nan false, sig)
  else if x.isNan then (y, sig)
  else if y.isNan then (x, sig)
  else (if belowV x y then y else x, sig)

/-! ### FP32 with RNE, keeping subnormals: scalar FOP and the atomics (spec/02_strand_registers.md R26, spec/05_memories.md R96) -/

/-- An FP32 value. -/
def f32 (x : BitVec 32) : FVal := decodeFloat fp32 false x.toNat
/-- Rounded to FP32 by RNE. -/
def toF32 (x : FVal) : BitVec 32 := BitVec.ofNat 32 (encodeFloat fp32 roundRne 0 x).1
/-- rne(x + y, FP32). -/
def f32Add (x y : BitVec 32) : BitVec 32 := toF32 (addV false (f32 x) (f32 y)).1

/-! ### Stochastic draws (spec/04_number_formats.md R68) -/

/-- The state of a lane that has not drawn since its bank was seeded. -/
def seedLane (seed : Word) (offset l : Nat) : Word :=
  let x := seed ^^^ (BitVec.ofNat 64 (l + offset) * 0x9E3779B97F4A7C15#64)
  if x = 0#64 then 1#64 else x

/-- The lane after one draw. -/
def stepLane (x : Word) : Word :=
  let a := x ^^^ (x <<< 13)
  let b := a ^^^ (a >>> 7)
  b ^^^ (b <<< 17)

/-- One draw of a bank's lane: the 16 bits and the bank after it. `offset` is 1 for the vector bank and 2,049 for the matrix
bank. -/
def drawLane (b : Bank) (offset l : Nat) : Nat × Bank :=
  let cur := tabGet 0#64 b.lanes l
  let x := stepLane (if cur = 0#64 then seedLane b.seed offset l else cur)
  ((slice x 48 16).toNat, { b with lanes := tabSet b.lanes l x })

/-! ### Blocks (spec/04_number_formats.md R72 to R74) -/

/-- ⌊log2⌋ of a positive m × 2^e. -/
def floorLog2 (m : Nat) (e : Int) : Int := e + bitLen m - 1

/-- The magnitude of a finite value as a pair, zero for others. -/
def magOf : FVal → Nat × Int
  | .fin _ m e _ => (m, e)
  | _ => (0, 0)

/-- Is magnitude a below magnitude b? -/
def magLt (a b : Nat × Int) : Bool := ltV (.fin false a.1 a.2 false) (.fin false b.1 b.2 false)

/-- The larger magnitude. -/
def magMax (a b : Nat × Int) : Nat × Int := if magLt a b then b else a

/-- One element of a block quantised under EL and, when too large, EH: the element, whether it was clamped, and its flags. -/
def quantElem (f : Nat) (el eh : Int) (rm : BitVec 3) (g : Nat) (x : FVal) : Nat × Bool × Flags :=
  match x with
  | .fin neg m e _ =>
    let try_ (ex : Int) : Nat := (roundQ rm neg g m (ex - 255 - (f : Int) - e) false).1
    let lim := 2 ^ f - 1
    let q0 := try_ el
    let sel := decide (lim < q0)
    let q1 := if sel then try_ eh else q0
    let clamp := sel && decide (lim < q1)
    let q := if clamp then lim else q1
    let enc := if q = 0 then 0 else (boolNat sel) * 2 ^ (f + 1) + (boolNat neg) * 2 ^ f + q
    let back := FVal.fin neg q ((if sel then eh else el) - 255 - (f : Int)) false
    let exact := eqV back x
    (enc, clamp, flIf clamp flSAT ||| flIf (!exact) flNX)
  | _ => (0, false, 0#5)

/-- Quantises one block (spec/04_number_formats.md R74): its active elements with their draws, in element order, and the largest
finite magnitude of the source format. The elements' encodings, the scale word and the flags. An infinity sets OF and SAT (R70,
R71). -/
def quantBlock (f : Nat) (rm : BitVec 3) (maxFin : FVal) (xs : List (FVal × Nat)) : List Nat × Nat × Flags :=
  let nans := xs.any (fun x => x.1.isNan)
  let infs := xs.any (fun x => match x.1 with
    | .inf _ => true
    | _ => false)
  let clean : List (FVal × Nat) := xs.map (fun x => match x.1 with
    | .nan _ => (.fin false 0 0 false, x.2)
    | .inf n => (if n then maxFin.negate else maxFin, x.2)
    | v => (v, x.2))
  let fl0 := flIf nans flNV ||| flIf infs (flOF ||| flSAT)
  let mags := clean.map (fun x => magOf x.1)
  let amax := mags.foldl magMax (0, 0)
  if amax.1 = 0 then (xs.map (fun _ => 0), 4 * boolNat nans + 2 * boolNat infs, fl0)
  else
    let eh := min (max (floorLog2 amax.1 amax.2 + 256) 1) 510
    let t : Nat × Int := (1, eh - 255 - ((f + 1) / 2 : Nat))
    let lmax := (mags.filter (fun x => magLt x t)).foldl magMax (0, 0)
    let el0 := if lmax.1 = 0 then eh else max (floorLog2 lmax.1 lmax.2 + 256) 1
    let el := if eh - el0 > 255 then eh - 255 else el0
    let out := clean.map (fun x => quantElem f el eh rm x.2 x.1)
    let satd := infs || out.any (fun o => o.2.1)
    let fl := out.foldl (fun a o => a ||| o.2.2) fl0
    (out.map (fun o => o.1),
      el.toNat * 2 ^ 11 + (eh - el).toNat * 2 ^ 3 + 4 * boolNat nans + 2 * boolNat satd, fl)

/-- The largest finite value of a floating format. -/
def maxFinite (f : FFmt) : FVal := decodeFloat f false (maxEnc f)

/-- The largest finite ACC48 value. -/
def maxFiniteAcc : FVal := .fin false (2 ^ 38 - 1) (511 - 37) false

/-- Writes an exact value in a floating, integer or ACC48 format; `intSrc` is the integer when the source is an integer
(spec/04_number_formats.md R71). BFP destinations are written by `quantBlock`. -/
def encodeFmt (f : Fmt) (r : Round) (g : Nat) (x : FVal) (intSrc : Option Int) : Nat × Flags :=
  match f with
  | .float h => encodeFloat h r g x
  | .int n => match intSrc with
    | some v => intToInt true n r.sat v
    | none => encodeInt true n r.rm g x
  | .uint n => match intSrc with
    | some v => intToInt false n r.sat v
    | none => encodeInt false n r.rm g x
  | .bfp _ => (0, 0#5)
  | .acc48 => encodeAcc x

/-- Writes the exact result of a form that is no conversion (spec/15_vector_instructions.md R261, spec/04_number_formats.md R78): as a
conversion does, but for an infinite result, which is written as it is and sets no flag, whatever SAT says. R71 clamps infinite
inputs of conversions, and R70 counts a clamped result only where it was finite or was converted (DEDUCED, Assumption 47). -/
def encodeResult (f : Fmt) (r : Round) (g : Nat) (x : FVal) : Nat × Flags :=
  encodeFmt f (match x with
    | .inf _ => { r with sat := false }
    | _ => r) g x none

end Sys2Proof.Machine
end

