-- ==== Sys2Proof/Machine/Ops.lean ====
section
/-! DEFINITION. The named operations over the state: places and numbers of the package, a strand's registers, moving
on, taking a fault (the one operation `raise`) and returning from one (`resumeParked`), and the performance counters. -/

namespace Sys2Proof.Machine

open Sys2Proof

/-- The outcome of a step of this machine. -/
abbrev Out := Host.Outcome State Fault Refusal

/-! ### Numbers of the package (spec/01_execution_model.md R6, spec/02_strand_registers.md R38) -/

/-- The core of a slot, 0 to 287. -/
def coreOf (slot : Nat) : Nat := slot / 4
/-- The cluster of a core, 0 to 35. -/
def clusterOf (core : Nat) : Nat := core / 8
/-- The die of a core, 0 to 5. -/
def dieOf (core : Nat) : Nat := core / 48
/-- SID of a slot: die, cluster, core, slot. -/
def sidOf (slot : Nat) : BitVec 11 :=
  BitVec.ofNat 3 (dieOf (coreOf slot)) ++ BitVec.ofNat 3 (clusterOf (coreOf slot) % 6) ++
    BitVec.ofNat 3 (coreOf slot % 8) ++ BitVec.ofNat 2 (slot % 4)
/-- The die of an HBM address (spec/05_memories.md R81). -/
def dieOfPa (pa : Nat) : Nat := pa / 0x1800000000
/-- The stack of an HBM address (spec/05_memories.md R81). -/
def stackOfPa (pa : Nat) : Nat := 2 * dieOfPa pa + (pa % 0x1800000000) / 4096 % 2

/-! ### Strands -/

/-- The strand of a slot. -/
def State.strand (s : State) (slot : Nat) : Strand := tabGet Strand.empty s.strands slot

/-- The strand whose instruction runs. -/
def State.me (s : State) : Strand := s.strand s.cur

/-- Replaces the strand of a slot. -/
def State.setStrand (s : State) (slot : Nat) (t : Strand) : State :=
  { s with strands := tabSet s.strands slot t }

/-- Changes the strand of a slot. -/
def State.updSlot (s : State) (slot : Nat) (f : Strand → Strand) : State := s.setStrand slot (f (s.strand slot))

/-- Changes the strand whose instruction runs. -/
def State.upd (s : State) (f : Strand → Strand) : State := s.updSlot s.cur f

/-- s[r]: s0 reads as zero (spec/02_strand_registers.md R25). -/
def Strand.getS (t : Strand) (r : BitVec 5) : Word := if r = 0#5 then 0#64 else tabGet 0#64 t.s r.toNat

/-- Writes s[r]: a write to s0 is discarded (spec/02_strand_registers.md R25). -/
def Strand.setS (t : Strand) (r : BitVec 5) (x : Word) : Strand :=
  if r = 0#5 then t
  else { t with s := tabPut 0#64 t.s r.toNat x, badS := t.badS.filter (fun n => n != r.toNat) }

/-- v[n] (spec/02_strand_registers.md R27). -/
def Strand.getV (t : Strand) (n : Nat) : VReg := tabGet 0#16384 t.v n

/-- Does a mark overlap bits [lo+w-1 : lo] of v[n]? -/
def markHits (n lo w : Nat) (m : Mark) : Bool :=
  m.reg == n && decide (m.bit < lo + w) && decide (lo < m.bit + m.width)

/-- Writes v[n] whole, which clears its marks (spec/15_vector_instructions.md R280). -/
def Strand.setV (t : Strand) (n : Nat) (x : VReg) : Strand :=
  { t with v := tabPut 0#16384 t.v n x, marks := t.marks.filter (fun m => m.reg != n) }

/-- k[n]: k0 reads as all ones (spec/02_strand_registers.md R32). -/
def Strand.getK (t : Strand) (n : Nat) : KReg := if n = 0 then BitVec.allOnes 2048 else tabGet 0#2048 t.k n

/-- Writes k[n]: a write to k0 is discarded (spec/02_strand_registers.md R32). -/
def Strand.setK (t : Strand) (n : Nat) (x : KReg) : Strand :=
  if n = 0 then t else { t with k := tabPut 0#2048 t.k n x, badK := t.badK.filter (fun r => r != n) }

/-! ### Fields of a continuation record (spec/10_descriptor_tables.md R177) -/

def recCode (r : Rec64) : BitVec 52 := slice r 0 52
def recFrame (r : Rec64) : Word := slice r 64 64
def recJoin (r : Rec64) : BitVec 52 := slice r 128 52
def recLid (r : Rec64) : BitVec 32 := slice r 192 32
def recGidx (r : Rec64) : BitVec 32 := slice r 224 32
def recWidth (r : Rec64) : BitVec 4 := slice r 256 4
def recPrio (r : Rec64) : BitVec 2 := slice r 260 2
def recStage (r : Rec64) : BitVec 12 := slice r 262 12
def recSaved (r : Rec64) : Bool := r.getLsbD 288
def recVregs (r : Rec64) : BitVec 8 := slice r 320 8
def recFq (r : Rec64) : BitVec 9 := slice r 328 9
def recSf (r : Rec64) : BitVec 9 := slice r 337 9
def recCq (r : Rec64) : BitVec 9 := slice r 346 9
def recWdt (r : Rec64) : Word := slice r 384 64
def recGarea (r : Rec64) : Nat := (slice r (448 + 28) 24).toNat * 2 ^ 28
/-- The record with another level. -/
def recSetPrio (r : Rec64) (p : BitVec 2) : Rec64 := putSlice r 260 2 p
/-- The record as a save returns it: SAVED set, GAREA kept (spec/10_descriptor_tables.md R178). -/
def recSetSaved (r : Rec64) (area : Nat) : Rec64 :=
  putSlice (putBit r 288 true) (448 + 28) 24 (BitVec.ofNat 24 (area / 2 ^ 28))

/-! ### A strand's areas (spec/10_descriptor_tables.md R178) -/

/-- The member area of a strand. -/
def Strand.member (t : Strand) : Nat := t.gang + t.rank * 0x02000000
/-- MRBASE, the backing area. -/
def Strand.mrbase (t : Strand) : Nat := t.member
/-- The save area. -/
def Strand.saveArea (t : Strand) : Nat := t.member + 0x01000000
/-- MAPBASE, the register map. -/
def Strand.mapbase (t : Strand) : Nat := t.member + 0x01080000
/-- The slot of a SID. -/
def slotOfSid (sid : BitVec 11) : Nat := 192 * (sid.toNat / 256) + sid.toNat % 256

/-- Who owns the strand's engine work. -/
def Strand.owner (t : Strand) (slot : Nat) : Owner := ⟨t.gang, t.rank, t.part, sidOf slot⟩
/-- Is the owner this strand? A gang area is a virtual address of its partition (spec/10_descriptor_tables.md R178), so the partition is
part of the name. -/
def Owner.isOf (o : Owner) (t : Strand) : Bool := o.area == t.gang && o.rank == t.rank && o.part == t.part
/-- Are two owners the same strand, in whatever slot? -/
def Owner.same (o p : Owner) : Bool := o.area == p.area && o.rank == p.rank && o.part == p.part

/-! ### Partitions -/

/-- A partition that is not active. -/
def Partition.none : Partition where
  active := false
  cores := 0#288
  msmlim := 0#9
  slots := 0#4
  hbmr := []
  mbBase := 0#12
  mbCnt := 0#12
  feature := 0#64
  weights := 0#32
  hypRoot := 0
  guestRoot := 0
  faultQ := 0
  faultLog := 0
  errRing := 0
  launchTab := 0
  gaPool := 0
  gaCnt := 0
  peerSet := 0#1024
  rings := []
  heads := []
  tails := []
  scan := []
  recheck := []
  areas := []
  ceiling := 256#9
  policy := []
  faults := []
  a0 := 0#64
  a1 := 0#64
  a2 := 0#64
  waits := []
  launches := []
  blocks := []
  brk := 0
  eligible := []
  entry := 0#4096
  faultTail := 0
  scanMap := 0

/-- The partition of a number. -/
def State.part (s : State) (p : BitVec 6) : Partition := tabGet Partition.none s.parts p.toNat

/-- Changes a partition. -/
def State.updPart (s : State) (p : BitVec 6) (f : Partition → Partition) : State :=
  { s with parts := tabSet s.parts p.toNat (f (s.part p)) }

/-! ### Throttling and idleness (spec/07_queues_and_scheduling.md R128, spec/20_host_links_and_bringup.md R377) -/

/-- Is it the gang of an area of a partition? -/
def Gang.isAt (g : Gang) (p : BitVec 6) (area : Nat) : Bool := g.part == p && g.area == area

/-- The gang of an area of a partition. -/
def State.gang? (s : State) (p : BitVec 6) (area : Nat) : Option Gang := s.gangs.find? (fun g => g.isAt p area)

/-- Changes the gang of an area of a partition. -/
def State.updGang (s : State) (p : BitVec 6) (area : Nat) (f : Gang → Gang) : State :=
  { s with gangs := s.gangs.map (fun g => if g.isAt p area then f g else g) }

/-- May members of the gang of an area issue, and their commands start, in this tick? -/
def State.mayIssue (s : State) (p : BitVec 6) (area : Nat) : Bool :=
  match s.gang? p area with
  | some g => s.cycle % 2 ^ g.throttle == 0
  | none => true

/-- The running state under the cap in force. -/
def State.activePower (s : State) : PowerState := if s.capWatts < 4400 then .p1 else .p0

/-- The package leaves P2. -/
def State.wakeUp (s : State) : State := if s.power = .p2 then { s with power := s.activePower, idleSince := none } else s

/-! ### Moving on -/

/-- The next instruction in line (spec/13_encoding.md R217): the pc advances by one word and nothing of this
instruction's waiting state remains. -/
def Strand.goto (t : Strand) (pc : Word) : Strand :=
  { t with
    pc := pc
    restart := 0
    append := none
    handing := []
    claim := none
    recBuf := none
    wait := .none
    tokDone := false }

/-- Falls through to the next word. -/
def Strand.next (t : Strand) : Strand := t.goto (t.pc + 4#64)

/-! ### Taking a fault (spec/09_translation_and_faults.md R160, R161) and returning from one (R163, R165) -/

/-- What a fault record says beside the strand's own SID, save area and pc. -/
structure Trap where
  cls : FaultClass
  akind : AccessKind
  va : Word
  index : BitVec 32
  hyp : Bool
  eng : Bool
deriving DecidableEq, Repr

/-- A trap of the strand itself that names no address. -/
def Trap.plain (c : FaultClass) : Trap := ⟨c, .none, 0#64, 0#32, false, false⟩

/-- The strand of a slot takes a fault: it is PARKED at its instruction, with its fault record, and its registers as they
stand (spec/09_translation_and_faults.md R160). The record's PC is `pc`, which is the enqueuing instruction for engine
work (R161). A strand that is being saved stays so, and is saved with its fault pending (R169). -/
def raiseAt (s : State) (slot : Nat) (pc : Word) (x : Trap) : State :=
  s.updSlot slot (fun t => { t with
    phase := if t.phase = .saving then .saving else .parked
    wait := .none
    recBuf := none
    reported := false
    fault := some
      { sid := sidOf slot
        save := t.saveArea
        pc := pc
        va := x.va
        cls := x.cls
        akind := x.akind
        hyp := x.hyp
        eng := x.eng
        saved := decide (t.phase = .saving)
        index := x.index } })

/-- A strand leaves its slot, or goes on, with a record that has not entered a fault queue: the record goes on waiting, and is never
dropped. -/
def keepFault (s : State) (t : Strand) : State :=
  match t.fault with
  | none => s
  | some r => if t.reported then s else { s with lateFaults := s.lateFaults ++ [(t.part, r)] }

/-- The strand whose instruction runs takes a fault. -/
def raise (x : Trap) (s : State) : State := raiseAt s s.cur s.me.pc x

/-- Where a resumed strand continues (spec/09_translation_and_faults.md R163): after TRAP and BKPT at the next instruction,
otherwise at the instruction, from its restart element. -/
def resumePc (t : Strand) : Word :=
  match t.fault with
  | some r => if r.cls = .trap ∨ r.cls = .bkpt then t.pc + 4#64 else t.pc
  | none => t.pc

/-- Does the strand wait for its sweep's next delivery: after SWP or SWNEXT it does not execute them again
(spec/17_engine_and_system_instructions.md R330, R331)? -/
def sweepWaits (t : Strand) : Bool :=
  match t.sweep with
  | some w => match w.phase with
    | .rule => false
    | _ => true
  | none => false

/-- Yalush resumes a PARKED strand (spec/09_translation_and_faults.md R165). Whether that is an entry of its gang into RUNNING, from which
spec/07_queues_and_scheduling.md R126 counts, the manual does not say: the gang's tick stays as it was (DESIGN CHOICE, Assumption 52). Resume sets the
event flag
(spec/17_engine_and_system_instructions.md R334), and a held matrix command may start again (spec/16_matrix_instructions.md R297). -/
def resumeParked (s : State) (slot : Nat) : State :=
  s.updSlot slot (fun t => { t with
    phase := .running
    pc := resumePc t
    fault := none
    reported := false
    wait := if sweepWaits t then .sweep else .none
    evFlag := true
    mq := t.mq.map (fun c => { c with faulted := false }) })

/-! ### Performance events (spec/02_strand_registers.md R42) -/

/-- Does counter i of a strand count event `e` of the strand in `slot`? -/
def perfCounts (t : Strand) (here slot : Nat) (samePart : Bool) (e : Nat) (i : Nat) : Bool :=
  let sel := tabGet 0#17 t.perfSel i
  (slice sel 0 16).toNat == e && decide (e ≠ 0) &&
    (if sel.getLsbD 16 then here == slot else samePart)

/-- A strand's counters after `n` events of code `e` in `slot`. -/
def bumpPerf (t : Strand) (here slot : Nat) (samePart : Bool) (e n : Nat) : Strand :=
  if t.perfSel = [] then t
  else
    let bump (c : Tab Word) (i : Nat) : Tab Word :=
      if perfCounts t here slot samePart e i then tabPut 0#64 c i (tabGet 0#64 c i + BitVec.ofNat 64 n) else c
    { t with perfCnt := (List.range 8).foldl bump t.perfCnt }

/-- Counts `n` events of code `e` of a strand of partition `p` in `slot`: in its own counters, and in those of the core's strands of
the same partition whose OWN is 0. -/
def countFor (s : State) (slot : Nat) (p : BitVec 6) (e n : Nat) : State :=
  { s with strands := s.strands.map (fun kt =>
    if coreOf kt.1 = coreOf slot then (kt.1, bumpPerf kt.2 kt.1 slot (decide (kt.2.part = p)) e n) else kt) }

/-- Counts events of the strand that is in the slot. -/
def countEvent (s : State) (slot e n : Nat) : State := countFor s slot (s.strand slot).part e n

/-- A strand's counters after `n` events of a whole die, which ignore OWN (COMPBLK and LATEREPLY). -/
def bumpDie (t : Strand) (e n : Nat) : Strand :=
  let bump (c : Tab Word) (i : Nat) : Tab Word :=
    if (slice (tabGet 0#17 t.perfSel i) 0 16).toNat = e then tabPut 0#64 c i (tabGet 0#64 c i + BitVec.ofNat 64 n)
    else c
  { t with perfCnt := (List.range 8).foldl bump t.perfCnt }

/-- Counts an event of a whole die. -/
def countDieEvent (s : State) (die e n : Nat) : State :=
  { s with strands := s.strands.map (fun kt => if dieOf (coreOf kt.1) = die then (kt.1, bumpDie kt.2 e n) else kt) }

/-- The next free value's number. -/
def State.draw (s : State) : Nat × State := (s.fresh, { s with fresh := s.fresh + 1 })

/-- The next instruction number. -/
def State.nextSeq (s : State) : Nat × State := (s.seq + 1, { s with seq := s.seq + 1 })

end Sys2Proof.Machine
end

