-- ==== Sys2Proof/Machine/Home.lean ====
section
/-! DEFINITION. Memory at its homes: reading and writing bytes of HBM, dead row groups, poison, the compressed blocks of
kind-01 pages, scan bits, links and device registers (spec/05_memories.md R81 to R103, spec/09_translation_and_faults.md
R155). -/

namespace Sys2Proof.Machine

open Sys2Proof

/-- The byte that an address holds which nothing has written (Assumption 2). -/
def emptyByte : Byte := 0#8

/-- The canonical form of memory: strictly rising addresses and no byte equal to `emptyByte`. -/
def Memory.wf (m : List Host.Cell) : Bool := tabWf emptyByte m

/-- One byte of HBM. -/
def memByte (m : List Host.Cell) (pa : Nat) : Byte := tabGet emptyByte m pa

/-- `n` bytes of HBM, lowest address first. -/
def memBytes (m : List Host.Cell) (pa : Nat) : Nat → List Byte
  | 0 => []
  | n + 1 => memByte m pa :: memBytes m (pa + 1) n

/-- Writes bytes to HBM, lowest address first. -/
def memPut (m : List Host.Cell) (pa : Nat) : List Byte → List Host.Cell
  | [] => m
  | b :: bs => memPut (tabPut emptyByte m pa b) (pa + 1) bs

/-- Erases `n` bytes of HBM: they read as `emptyByte`. -/
def memErase (m : List Host.Cell) (pa n : Nat) : List Host.Cell :=
  m.filter (fun c => decide (c.1 < pa) || decide (pa + n ≤ c.1))

/-- The units of `size` bytes that `n` bytes at an address touch. -/
def unitsOf (size pa n : Nat) : List Nat :=
  if n = 0 then [] else (List.range ((pa + n - 1) / size - pa / size + 1)).map (fun i => pa / size + i)

/-- Is the address in HBM (spec/05_memories.md R81)? -/
def inHbm (pa : Nat) : Bool := decide (pa < 0x9000000000)
/-- Is the address in the device register region (spec/05_memories.md R81)? -/
def inDevice (pa : Nat) : Bool := decide (0x000E000000000000 ≤ pa) && decide (pa < 0x000F000000000000)

/-- Is the stack of the address shut down (spec/05_memories.md R94)? -/
def memLost (s : State) (pa : Nat) : Bool :=
  s.hbmth != 0#24 && slice s.hbmth (2 * stackOfPa pa) 2 == 3#2

/-- Does an access of `n` bytes read a poisoned sector (spec/05_memories.md R103)? -/
def poisoned (s : State) (pa n : Nat) : Bool :=
  !s.badSectors.isEmpty && (unitsOf 32 pa n).any (fun x => s.badSectors.contains x)

/-- Is the scan bit of the frame set, for any partition or by a scan in progress (spec/09_translation_and_faults.md R155,
spec/13_encoding.md R233)? -/
def frameScanned (s : State) (frame : Nat) : Bool :=
  s.parts.any (fun p => p.2.scan.contains frame) || s.scans.any (fun c => c.frame == frame)

/-- A write of `n` bytes is refused at its home because a frame it touches has its scan bit set. -/
def scanRefused (s : State) (pa n : Nat) : Bool := (unitsOf 65536 pa n).any (frameScanned s)

/-- Breaks the links that strands hold on lines of these bytes, but for the writer's own
(spec/12_barriers_and_counters.md R213, spec/14_scalar_instructions.md R248). -/
def breakLinks (s : State) (writer : Option Nat) (pa n : Nat) : State :=
  if s.strands.all (fun kt => kt.2.links.isEmpty) then s
  else
    let keep (kt : Nat × Strand) : Nat × Strand :=
      if writer = some kt.1 then kt
      else (kt.1, { kt.2 with links := kt.2.links.filter (fun l => !(unitsOf 128 pa n).contains l) })
    { s with strands := s.strands.map keep }

/-- Does the block of 512 bytes compress (spec/05_memories.md R91)? Every group of 32 values spans at most 14 exponents
over its values with a non-zero exponent field. -/
def compressible (bs : List Byte) : Bool :=
  (List.range 8).all (fun g =>
    let exps := (List.range 32).map (fun i =>
      let j := 2 * (32 * g + i)
      (((nth 0#8 bs (j + 1)).toNat % 128) * 2 + (nth 0#8 bs j).toNat / 128))
    let nz := exps.filter (fun e => e != 0)
    match nz with
    | [] => true
    | e :: t => decide (t.foldl max e - t.foldl min e ≤ 14))

/-- The compressed-block flags after a write (spec/05_memories.md R91): a write through kind 01 stores each block it touches
compressed when it can, and a write through kind 00 stores it raw. -/
def recompress (s : State) (pa n : Nat) (comp : Bool) : State :=
  if comp = false ∧ s.compressed = [] then s
  else
    let store (l : List Nat) (b : Nat) : List Nat :=
      if comp && compressible (memBytes s.mem (b * 512) 512) then insNat b l else l.filter (fun x => x != b)
    { s with compressed := (unitsOf 512 pa n).foldl store s.compressed }

/-- Bytes read at their home. A dead row group reads as zeros (spec/05_memories.md R92): its bytes are not listed. -/
def homeRead (s : State) (pa n : Nat) : List Byte := memBytes s.mem pa n

/-- Bytes written at their home (spec/05_memories.md R85, R92, R103): a dead row group revives, a sector that is covered
whole loses its poison, links on the lines break, and the block's form follows the page's kind. -/
def homeWrite (s : State) (writer : Option Nat) (pa : Nat) (bs : List Byte) (comp : Bool) : State :=
  let n := bs.length
  let s1 := { s with
    mem := memPut s.mem pa bs
    deadGroups := if s.deadGroups = [] then [] else s.deadGroups.filter (fun g => !(unitsOf 2048 pa n).contains g)
    badSectors := if s.badSectors = [] then [] else
      s.badSectors.filter (fun x => !(decide (pa ≤ 32 * x) && decide (32 * x + 32 ≤ pa + n))) }
  recompress (breakLinks s1 writer pa n) pa n comp

/-- Marks sectors poisoned. A dead row group has no ECC error and no poison (spec/05_memories.md R92): its sectors stay as they are. -/
def poisonSectors (s : State) (xs : List Nat) : State :=
  { s with badSectors := (xs.filter (fun x => !s.deadGroups.contains (x / 64))).foldl (fun l x => insNat x l) s.badSectors }

/-- Marks the aligned 2 KiB row groups inside a range dead (spec/05_memories.md R92) and counts them: their bytes read as
zeros, with no poison. -/
def discardRange (s : State) (pa n : Nat) : Nat × State :=
  let lo := (pa + 2047) / 2048
  let hi := (pa + n) / 2048
  let gs := (List.range (hi - lo)).map (fun i => lo + i)
  if hi ≤ lo then (0, s)
  else (hi - lo, { s with
    mem := memErase s.mem (2048 * lo) (2048 * (hi - lo))
    deadGroups := gs.foldl (fun l g => insNat g l) s.deadGroups
    compressed := s.compressed.filter (fun b => decide (4 * b < 16 * lo) || decide (16 * hi ≤ 4 * b))
    badSectors := s.badSectors.filter (fun x => decide (32 * x < 2048 * lo) || decide (2048 * hi ≤ 32 * x)) })

/-! ### Device registers (spec/05_memories.md R82; spec/12_barriers_and_counters.md R386) -/

/-- The address of HVRING (spec/12_barriers_and_counters.md R386). -/
def hvringPa : Nat := 0x000E000000001000

/-- Reads `n` bytes of a device register: HVRING, a register that was written, or a free value (Assumption 8). -/
def deviceGet (s : State) (pa n : Nat) : Word × State :=
  let keepBytes (x : Word) : Word := x &&& (BitVec.ofNat 64 (2 ^ (8 * n) - 1))
  if pa = hvringPa then (keepBytes s.hvring, s)
  else if pa = hvringPa + 4 then (keepBytes (s.hvring >>> 32), s)
  else if tabHas s.device pa then (keepBytes (tabGet 0#64 s.device pa), s)
  else (keepBytes (Config.deviceRead pa s.fresh), { s with fresh := s.fresh + 1 })

/-- Writes `n` bytes of a device register. A W access is one of an address of its own: it zero-extends into the register at its address
and leaves the one at the next word alone, but in HVRING, whose two halves share storage (DESIGN CHOICE, Assumption 8: the manual does
not say what a W access does to a 64-bit register). -/
def devicePut (s : State) (pa n : Nat) (x : Word) : State :=
  if pa = hvringPa then
    { s with hvring := if n = 8 then x else putSlice s.hvring 0 32 (x.setWidth 32) }
  else if pa = hvringPa + 4 then { s with hvring := putSlice s.hvring 32 32 (x.setWidth 32) }
  else { s with device := tabSet s.device pa (x &&& (BitVec.ofNat 64 (2 ^ (8 * n) - 1))) }

end Sys2Proof.Machine
end

