-- ==== Sys2Proof/Machine/Translate.lean ====
section
/-! DEFINITION. Two-stage translation, page permissions, TLBs and peers (spec/09_translation_and_faults.md R149 to R157,
spec/05_memories.md R81 to R83, R95), in the order of faults that spec/09 R164 gives one element. -/

namespace Sys2Proof.Machine

open Sys2Proof

/-- Why an access fails: its class, whether the hypervisor stage raised it, the address of the record (the virtual
address, or the intermediate one for the hypervisor stage), the entries that its walk found with both W and X set, at their
physical addresses, with X cleared (spec/09_translation_and_faults.md R155), and the stack that its walk found shut down, if any
(spec/05_memories.md R94). -/
structure Failure where
  cls : FaultClass
  hyp : Bool
  va : Nat
  mend : List (Nat × Word)
  stack : Option Nat
  /-- its walk has read a row under a self-test (spec/05_memories.md R101) -/
  held : Bool
deriving DecidableEq, Repr

/-- A failure at a virtual address whose walk changes no entry. -/
def Failure.at (c : FaultClass) (va : Nat) : Failure := ⟨c, false, va, [], none, false⟩

/-- Memory after the writes of page-table entries. -/
def writePtes (l : List (Nat × Word)) (s : State) : State := l.foldl (fun u x => homeWrite u none x.1 (bvBytes x.2) false) s

/-- The step waits for a self-test of a row that it has read (spec/05_memories.md R101): `runTurn` undoes it. -/
def State.hold (s : State) (b : Bool) : State := if b then { s with held := true } else s

/-- Memory after a failed access: the entries that its walk had to mend (spec/09_translation_and_faults.md R155); and where the walk has read
a row under a self-test, the step waits. -/
def mendPtes (f : Failure) (s : State) : State := (writePtes f.mend s).hold f.held

/-- Does a self-test still hold its row: for up to 2,000 ticks from its start (spec/05_memories.md R101)? -/
def testOn (s : State) (x : EccTarget × Bool × Nat) : Bool := decide (s.cycle < x.2.2 + 2000)

/-- Is an L2 row that holds one of these bytes of HBM, a line, under a self-test (spec/05_memories.md R101)? -/
def lineTested (s : State) (pa n : Nat) : Bool :=
  s.tests.any (fun x => testOn s x && (match x.1 with
    | .l2 a => (unitsOf 128 pa n).contains (a / 128)
    | _ => false))

/-- What an access needs of its combined leaf (spec/09_translation_and_faults.md R153). -/
inductive Need where
  | fetch | read | write | readWrite
deriving DecidableEq, Repr

/-- Does the access write? -/
def Need.writes : Need → Bool
  | .write | .readWrite => true
  | .fetch | .read => false

/-- A leaf found by a walk of one stage: the physical address of its entry, its frame, the width of its offset and its
bits. -/
structure Leaf where
  at_ : Nat
  frame : Nat
  bits : Nat
  pte : Word
deriving DecidableEq, Repr

/-- Bits of a page-table entry (spec/09_translation_and_faults.md R150). -/
def pteV (e : Word) : Bool := e.getLsbD 0
def pteT (e : Word) : Bool := e.getLsbD 1
def pteR (e : Word) : Bool := e.getLsbD 2
def pteW (e : Word) : Bool := e.getLsbD 3
/-- X, which a leaf with W also set does not grant (spec/09_translation_and_faults.md R155). -/
def pteX (e : Word) : Bool := e.getLsbD 4 && !e.getLsbD 3
def pteKind (e : Word) : BitVec 2 := slice e 7 2
def pteFrame (e : Word) : Nat := (slice e 16 36).toNat * 65536
def ptePeer (e : Word) : BitVec 10 := slice e 52 10
/-- Bits that must be zero in every entry, and the peer where the kind is not remote. -/
def pteReservedOk (e : Word) : Bool :=
  slice e 9 7 == 0#7 && slice e 62 2 == 0#2 && (pteKind e == 3#2 || ptePeer e == 0#10)
/-- Bits that must be zero in a table entry. -/
def pteTableOk (e : Word) : Bool := slice e 2 7 == 0#7 && ptePeer e == 0#10

/-- The levels of a walk: the lowest index bit of each (spec/09_translation_and_faults.md R149). -/
def walkLevels : List Nat := [43, 34, 25, 16]

/-- One stage of a walk over the remaining levels. `rd` reads an entry by its address in the stage's own space and gives its
physical address and value; `err` makes the stage's failure. -/
def walkStage (rd : Nat → Except Failure (Nat × Word)) (err : FaultClass → Failure) (addr : Nat) :
    List Nat → Nat → Except Failure Leaf
  | [], _ => .error (err .trans)
  | lo :: rest, table =>
    match rd (table + 8 * ((addr / 2 ^ lo) % 512)) with
    | .error f => .error f
    | .ok (pa, e) =>
      if !pteV e || !pteReservedOk e then .error (err .trans)
      else if pteT e then
        if lo = 16 || !pteTableOk e then .error (err .trans)
        else walkStage rd err addr rest (pteFrame e)
      else if lo = 43 || pteFrame e % 2 ^ lo != 0 then .error (err .trans)
      else .ok ⟨pa, pteFrame e, lo, e⟩

/-- An entry read at its physical address. -/
def readPte (s : State) (pa : Nat) : Word := bytesBv 64 (homeRead s pa 8)

/-- A walk's read of an entry: it raises MEMLOST and POISON like every other read (spec/05_memories.md R94, R103; Assumption 30). `err`
makes the stage's failure. -/
def pteAt (s : State) (err : FaultClass → Failure) (pa : Nat) : Except Failure (Nat × Word) :=
  if poisoned s pa 8 then .error (err .poison)
  else if memLost s pa then .error { err .memLost with stack := some (stackOfPa pa) }
  else .ok (pa, readPte s pa)

/-- The hypervisor stage: an intermediate address to its leaf (spec/09_translation_and_faults.md R152). -/
def hypLeaf (s : State) (p : Partition) (ia : Nat) : Except Failure Leaf :=
  walkStage (pteAt s (fun c => ⟨c, true, ia, [], none, false⟩)) (fun c => ⟨c, true, ia, [], none, false⟩) ia walkLevels p.hypRoot

/-- Is the leaf's frame somewhere its kind may point, within the partition's ranges (spec/05_memories.md R81;
spec/10_descriptor_tables.md R189, HBMR0 to HBMR3)? -/
def frameOk (p : Partition) (kind : BitVec 2) (pa size : Nat) : Bool :=
  if kind == 2#2 then inDevice pa
  else if kind == 3#2 then inHbm pa
  else inHbm pa && p.hbmr.any (fun r => decide (r.1 ≤ pa) && decide (pa + size ≤ r.2))

/-- The physical address of an intermediate address, for a guest table (spec/09_translation_and_faults.md R152): a frame that lies in
nothing raises PERM (R151). -/
def hypPa (s : State) (p : Partition) (ia : Nat) : Except Failure Nat :=
  match hypLeaf s p ia with
  | .ok l =>
    if frameOk p (pteKind l.pte) l.frame (2 ^ l.bits) then .ok (l.frame + ia % 2 ^ l.bits) else .error ⟨.perm, true, ia, [], none, false⟩
  | .error f => .error f

/-- The guest stage: a virtual address to its leaf. -/
def guestLeaf (s : State) (p : Partition) (va : Nat) : Except Failure Leaf :=
  walkStage
    (fun a => match hypPa s p a with
      | .ok pa => pteAt s (fun c => Failure.at c va) pa
      | .error f => .error f)
    (fun c => Failure.at c va) va walkLevels p.guestRoot

/-- Sets A, and D for a write, in a leaf's entry, and clears X beside W (spec/09_translation_and_faults.md R154, R155): an
atomic OR at the entry's home, made only when a bit changes. -/
def touchPte (s : State) (l : Leaf) (writes : Bool) : State :=
  let e1 := l.pte ||| 0x20#64 ||| (if writes then 0x40#64 else 0#64)
  let e2 := if l.pte.getLsbD 3 && l.pte.getLsbD 4 then e1 &&& ~~~(0x10#64) else e1
  if e2 = l.pte then s else homeWrite s none l.at_ (bvBytes e2) false

/-- The entry of a leaf with both W and X set, with X cleared (spec/09_translation_and_faults.md R155). -/
def mended (l : Leaf) : List (Nat × Word) :=
  if l.pte.getLsbD 3 && l.pte.getLsbD 4 then [(l.at_, l.pte &&& ~~~(0x10#64))] else []

/-- The entries with both W and X set that a guest walk meets in the hypervisor's tables on its way to its own tables. -/
def tableMends (s : State) (p : Partition) (va : Nat) : List Nat → Nat → List (Nat × Word)
  | [], _ => []
  | lo :: rest, table =>
    let a := table + 8 * ((va / 2 ^ lo) % 512)
    match hypLeaf s p a with
    | .error _ => []
    | .ok l => mended l ++ (match hypPa s p a with
      | .error _ => []
      | .ok pa => match pteAt s (fun c => Failure.at c va) pa with
        | .error _ => []
        | .ok x => if pteV x.2 && pteReservedOk x.2 && pteT x.2 && pteTableOk x.2 then tableMends s p va rest (pteFrame x.2) else [])

/-- The entries with both W and X set that a walk of an address meets, with X cleared (spec/09_translation_and_faults.md R155). -/
def walkMends (s : State) (p : Partition) (va : Nat) : List (Nat × Word) :=
  tableMends s p va walkLevels p.guestRoot ++ (match guestLeaf s p va with
    | .error _ => []
    | .ok g => mended g ++ (match hypLeaf s p (g.frame + va % 2 ^ g.bits) with
      | .error _ => []
      | .ok h => mended h))

/-- Does the hypervisor stage of a walk read an entry in a row under a self-test? -/
def hypTested (s : State) (ia : Nat) : List Nat → Nat → Bool
  | [], _ => false
  | lo :: rest, table =>
    let pa := table + 8 * ((ia / 2 ^ lo) % 512)
    let e := readPte s pa
    lineTested s pa 8 || (pteV e && pteReservedOk e && pteT e && pteTableOk e && hypTested s ia rest (pteFrame e))

/-- Does a guest walk read one, in its own tables or on the way to them? -/
def guestTested (s : State) (p : Partition) (va : Nat) : List Nat → Nat → Bool
  | [], _ => false
  | lo :: rest, table =>
    let a := table + 8 * ((va / 2 ^ lo) % 512)
    hypTested s a walkLevels p.hypRoot || (match hypPa s p a with
      | .error _ => false
      | .ok pa =>
        let e := readPte s pa
        lineTested s pa 8 || (pteV e && pteReservedOk e && pteT e && pteTableOk e && guestTested s p va rest (pteFrame e)))

/-- Does a walk of both stages read an entry in a row under a self-test (spec/05_memories.md R101)? -/
def walkTested (s : State) (p : Partition) (va : Nat) : Bool :=
  !s.tests.isEmpty && (guestTested s p va walkLevels p.guestRoot || (match guestLeaf s p va with
    | .error _ => false
    | .ok g => hypTested s (g.frame + va % 2 ^ g.bits) walkLevels p.hypRoot))

/-- The peer check (spec/05_memories.md R95, spec/09_translation_and_faults.md R156). -/
def peerFault (s : State) (pid : BitVec 6) (peer : BitVec 10) : Option FaultClass :=
  if !(s.part pid).peerSet.getLsbD peer.toNat then some .peerDenied
  else if slice (tabGet 0#64 s.peers peer.toNat) 0 2 ≠ 3#2 then some .peerAbsent
  else none

/-- What a combined remote leaf's peer check says; none for a leaf of another kind. -/
def leafPeerFault (s : State) (pid : BitVec 6) (kind : BitVec 2) (peer : BitVec 10) : Option FaultClass :=
  if kind == 3#2 then peerFault s pid peer else none

/-- Has the frame of an address its scan bit for a fetch of the partition? Only HBM of this package has one. -/
def fetchScanned (s : State) (pid : BitVec 6) (kind : BitVec 2) (pa : Nat) : Bool :=
  (kind == 0#2 || kind == 1#2) && (s.part pid).scan.contains (pa / 65536)

/-- A walk of both stages (spec/09_translation_and_faults.md R152): the combined entry, with A and D set in both leaves. Of the faults
of the combined leaf, SCAN comes first for a fetch, whose other faults are PERM (spec/14_scalar_instructions.md R256); for the other accesses
the peer's come before PERM (R164). -/
def walk (s : State) (unit : Nat) (pid : BitVec 6) (va : Nat) (need : Need) : Except Failure (TlbEntry × State) :=
  let p := s.part pid
  match guestLeaf s p va with
  | .error f => .error f
  | .ok g =>
    let ia := g.frame + va % 2 ^ g.bits
    match hypLeaf s p ia with
    | .error f => .error f
    | .ok h =>
      let bits := min g.bits h.bits
      let pa := h.frame + ia % 2 ^ h.bits
      let kind := pteKind h.pte
      if need = .fetch ∧ (pteX g.pte && pteX h.pte && !fetchScanned s pid kind pa) = true then .error (Failure.at .scan va)
      else match (if need = .fetch then none else leafPeerFault s pid kind (ptePeer h.pte)) with
        | some c => .error (Failure.at c va)
        | none =>
          if pteKind g.pte ≠ 0#2 ∧ pteKind g.pte ≠ kind then .error (Failure.at .perm va)
          else if !frameOk p kind (pa - va % 2 ^ bits) (2 ^ bits) then .error ⟨.perm, true, ia, [], none, false⟩
          else
            let w := pteW g.pte && pteW h.pte
            let s0 := writePtes (tableMends s p va walkLevels p.guestRoot) s
            let s1 := touchPte s0 g (need.writes && w)
            let s2 := touchPte s1 { h with pte := readPte s1 h.at_ } (need.writes && w)
            .ok (⟨unit, pid, p.guestRoot, va - va % 2 ^ bits, bits, pa - va % 2 ^ bits,
              pteR g.pte && pteR h.pte, w, pteX g.pte && pteX h.pte, need.writes && w, kind, ptePeer h.pte⟩, s2)

/-! ### TLBs (spec/09_translation_and_faults.md R157) -/

/-- The first-level TLB of a core for the stream, or for tiles, fills, spills and copies. -/
def streamTlb (core : Nat) : Nat := 2 * core
def tileTlb (core : Nat) : Nat := 2 * core + 1
/-- The second-level TLB of a core's cluster. -/
def clusterTlb (core : Nat) : Nat := 576 + clusterOf core
/-- An engine that keeps no translation. -/
def noTlb : Nat := 1000

/-- The die of a TLB. -/
def dieOfTlb (unit : Nat) : Nat := if unit < 576 then dieOf (unit / 2) else (unit - 576) / 6

/-- Does the entry translate the address for a unit, partition and root? -/
def TlbEntry.hits (e : TlbEntry) (unit : Nat) (pid : BitVec 6) (root va : Nat) : Bool :=
  e.unit == unit && e.part == pid && e.root == root && decide (e.base ≤ va) && decide (va < e.base + 2 ^ e.bits)

/-- A TLB's capacity. -/
def tlbCap (unit : Nat) : Nat := if unit ≥ 576 then 8192 else if unit % 2 = 0 then 256 else 64

/-- Puts an entry into its TLB, in place of one for the same page; a full TLB drops its oldest entry. -/
def tlbInsert (l : List TlbEntry) (e : TlbEntry) : List TlbEntry :=
  let l1 := l.filter (fun x => !x.hits e.unit e.part e.root e.base)
  let mine := (l1.filter (fun x => x.unit == e.unit)).length
  let l2 := if mine < tlbCap e.unit then l1
    else match findPos (fun x => x.unit == e.unit) l1 with
      | some i => dropNth l1 i
      | none => l1
  l2 ++ [e]

/-- The translation of an address for a unit: from its TLB, from the cluster's, or by a walk. A write through an entry whose
D is not known set walks again, so that D is set (spec/09_translation_and_faults.md R154). -/
def translate (s : State) (unit : Nat) (pid : BitVec 6) (va : Nat) (need : Need) :
    Except Failure (TlbEntry × State) :=
  let root := (s.part pid).guestRoot
  let good (e : TlbEntry) : Bool := !need.writes || e.dirty || !e.w
  match s.tlb.find? (fun e => e.hits unit pid root va && good e) with
  | some e => .ok (e, s)
  | none =>
    let second := 576 + clusterOf (unit / 2)
    match s.tlb.find? (fun e => decide (unit < 576) && e.hits second pid root va && good e) with
    | some e => .ok ({ e with unit := unit }, { s with tlb := tlbInsert s.tlb { e with unit := unit } })
    | none =>
      let wait := walkTested s (s.part pid) va
      match walk s unit pid va need with
      | .error f => .error { f with held := wait }
      | .ok (e, s0) =>
        let s1 := s0.hold wait
        if unit < 576 then
          .ok (e, { s1 with tlb := tlbInsert (tlbInsert s1.tlb e) { e with unit := second } })
        else .ok (e, s1)

/-! ### Checks of an element -/

/-- Does an access touch a hardware-only region: the first four regions of a member area of the partition's gang-area pool
(spec/03_matrix_registers.md R47, spec/10_descriptor_tables.md R178)? The test is on the virtual address. -/
def hwOnly (p : Partition) (va n : Nat) : Bool :=
  let bad (a : Nat) : Bool :=
    decide (p.gaPool ≤ a) && decide (a < p.gaPool + p.gaCnt * 2 ^ 28) && decide ((a - p.gaPool) % 0x02000000 < 0x01100000)
  p.gaCnt != 0 && (bad va || bad (va + n - 1))

/-- Is the address in the near window (spec/05_memories.md R83)? -/
def inNear (va : Nat) : Bool := va / 2 ^ 48 == 15

/-- What an access form accepts (spec/05_memories.md R82, R83). -/
structure Accepts where
  near : Bool
  device : Bool
  remote : Bool
deriving DecidableEq, Repr

/-- Does an access touch the launch table of some active partition, which only Yalush and the work-queue engine reach
(spec/10_descriptor_tables.md R192)? -/
def inLaunchTable (s : State) (pa n : Nat) : Bool :=
  s.parts.any (fun q => q.2.active && decide (pa < q.2.launchTab + 0x200000) && decide (q.2.launchTab < pa + n))

/-- The place of an access after the checks of its combined leaf, in the order of spec/09_translation_and_faults.md R164: a fetch with X
meets SCAN (R155), and without X, or on a page of another kind than 00, PERM; another access meets its peer's faults, then PERM. A remote
page that names this package reaches its own lines. A PERM of the combined leaf is recorded as the guest's, with the virtual address, also
where only the hypervisor's leaf lacks the permission or the kinds do not agree; a frame that lies in nothing is recorded as the hypervisor
stage's (DESIGN CHOICE, Assumption 30: R160 does not say which stage's fault a PERM of both leaves is). -/
def placeOf (s : State) (pid : BitVec 6) (e : TlbEntry) (va n : Nat) (need : Need) (acc : Accepts) :
    Except Failure Place :=
  let pa := e.pa + (va - e.base)
  let permOk := match need with
    | .fetch => e.x && e.kind == 0#2
    | .read => e.r
    | .write => e.w
    | .readWrite => e.r && e.w
  let home := e.kind != 2#2 && (e.kind != 3#2 || e.peer == s.self)
  if need = .fetch ∧ e.x = true ∧ fetchScanned s pid e.kind pa = false then .error (Failure.at .scan va)
  else match (if need = .fetch then none else leafPeerFault s pid e.kind e.peer) with
    | some c => .error (Failure.at c va)
    | none =>
      if !permOk then .error (Failure.at .perm va)
      else if home && ((need.writes && scanRefused s pa n) || inLaunchTable s pa n) then .error (Failure.at .perm va)
      else if e.kind == 2#2 then
        if acc.device then .ok (.device pa) else .error (Failure.at .perm va)
      else if e.kind == 3#2 then
        if !acc.remote then .error (Failure.at .perm va)
        else if e.peer = s.self then .ok (.mem pa false)
        else .ok (.remote e.peer pa)
      else .ok (.mem pa (e.kind == 1#2))

/-- Whose access it is: the TLB it uses, the partition, the size of the near window in bytes, and whether the
hardware-only regions are open to it (the core's own fills, spills and saves). -/
structure Ctx where
  unit : Nat
  part : BitVec 6
  near : Nat
  own : Bool
deriving DecidableEq, Repr

/-- An access that reaches past its checks: where it goes. The faults come in the order of
spec/09_translation_and_faults.md R164 item 5, up to the permission of the leaf. `al` is the alignment asked for. A strand's form that
does not accept the near window meets NEAR_RANGE before PERM; an engine meets PERM (spec/05_memories.md R83), and so does every fetch
(spec/13_encoding.md R217). A fault of the walk or of the leaf's checks mends what the walk had to mend, and leaves the TLBs as they were
(R151). -/
def locate (s : State) (c : Ctx) (va : Word) (n al : Nat) (need : Need) (acc : Accepts) :
    Except Failure (Place × State) :=
  let a := va.toNat
  let fail (cls : FaultClass) : Except Failure (Place × State) := .error (Failure.at cls a)
  if slice va 52 12 ≠ 0#12 then fail .noncanon
  else if a % al ≠ 0 then fail .align
  else if inNear a then
    if need = .fetch then fail .perm
    else if c.unit ≠ noTlb ∧ a % 2 ^ 48 + n > c.near then fail .nearRange
    else if !acc.near then fail .perm
    else .ok (.near (a % 2 ^ 48), s)
  else if !c.own && hwOnly (s.part c.part) a n then fail .perm
  else
    let mend (f : Failure) : Except Failure (Place × State) := .error { f with mend := walkMends s (s.part c.part) a }
    match translate s c.unit c.part a need with
    | .error f => mend f
    | .ok (e, s1) =>
      match placeOf s1 c.part e a n need acc with
      | .error f => mend f
      | .ok pl => .ok (pl, s1)

/-- The home's own checks of a read: poison and a shut-down stack (spec/05_memories.md R94, R103). -/
def homeFault (s : State) (pl : Place) (n : Nat) (reads : Bool) : Option FaultClass :=
  match pl with
  | .mem pa _ => if reads && poisoned s pa n then some .poison else if memLost s pa then some .memLost else none
  | _ => none

/-- Every form of a scalar or vector load and store is accepted near, and on remote pages. -/
def acceptsPlain : Accepts := ⟨true, false, true⟩
/-- Scalar accesses of size W or D also on device pages. -/
def acceptsWide : Accepts := ⟨true, true, true⟩
/-- Only ordinary memory of the package. -/
def acceptsLocal : Accepts := ⟨false, false, false⟩
/-- Ordinary memory and remote pages. -/
def acceptsFar : Accepts := ⟨false, false, true⟩

/-- The context of a strand's stream access. -/
def streamCtx (s : State) (slot : Nat) : Ctx :=
  let t := s.strand slot
  ⟨streamTlb (coreOf slot), t.part, t.sf.toNat * 32768, false⟩

/-- The context of a strand's tile access, fill, spill or copy. -/
def tileCtx (s : State) (slot : Nat) : Ctx := { streamCtx s slot with unit := tileTlb (coreOf slot) }

/-- The context of an engine's access on behalf of a partition. -/
def engineCtx (pid : BitVec 6) : Ctx := ⟨noTlb, pid, 0, false⟩

end Sys2Proof.Machine
end

