-- ==== Sys2Proof/Machine/Memory.lean ====
section
/-! DEFINITION. What is shared by every form that reaches memory: the near window, the asynchronous error ring, barrier
updates, tokens, guards, and the outstanding stream accesses of a strand with the order they are performed in
(spec/05_memories.md R83 to R103, spec/06_memory_ordering.md R104 to R110, spec/12_barriers_and_counters.md). -/

namespace Sys2Proof.Machine

open Sys2Proof

/-! ### The near window (spec/05_memories.md R83) -/

/-- Bytes of a strand's scratch frames. -/
def nearRead (t : Strand) (off n : Nat) : List Byte := memBytes t.scratch off n

/-- Writes bytes of a strand's scratch frames; a covered sector loses its poison. -/
def nearWrite (t : Strand) (off : Nat) (bs : List Byte) : Strand :=
  { t with
    scratch := memPut t.scratch off bs
    nearBad := if t.nearBad = [] then [] else
      t.nearBad.filter (fun x => !(decide (off ≤ 32 * x) && decide (32 * x + 32 ≤ off + bs.length))) }

/-- Bytes at a local place, as the strand of a slot reads them. A device register is read by `deviceGet`. -/
def placeRead (s : State) (slot : Nat) (pl : Place) (n : Nat) : List Byte :=
  match pl with
  | .near off => nearRead (s.strand slot) off n
  | .mem pa _ => homeRead s pa n
  | .device pa => natBytes n (deviceGet s pa n).1.toNat
  | .remote _ pa => homeRead s pa n

/-- Writes bytes at a local place. -/
def placeWrite (s : State) (slot : Nat) (pl : Place) (bs : List Byte) : State :=
  match pl with
  | .near off => s.updSlot slot (fun t => nearWrite t off bs)
  | .mem pa comp => homeWrite s (some slot) pa bs comp
  | .device pa => devicePut s pa bs.length (bytesBv 64 bs)
  | .remote _ pa => homeWrite s (some slot) pa bs false

/-- The place some bytes further on. -/
def placePlus (pl : Place) (k : Nat) : Place :=
  match pl with
  | .near o => .near (o + k)
  | .mem pa c => .mem (pa + k) c
  | .device pa => .device (pa + k)
  | .remote p pa => .remote p (pa + k)

/-- The home's fault of an access: poison where it reads, and a shut-down stack. -/
def accessFault (s : State) (slot : Nat) (pl : Place) (n : Nat) (reads : Bool) : Option FaultClass :=
  match pl with
  | .near off =>
    let bad := (s.strand slot).nearBad
    if reads && !bad.isEmpty && (unitsOf 32 off n).any (fun x => bad.contains x) then some .poison else none
  | .remote _ pa => homeFault s (.mem pa false) n reads
  | _ => homeFault s pl n reads

/-- Is the place answered on this package? A remote place of this package's own peer number is. -/
def isLocal (s : State) (pl : Place) : Bool :=
  match pl with
  | .remote p _ => p == s.self
  | _ => true

/-- Is the access on a remote page? -/
def isRemote (pl : Place) : Bool :=
  match pl with
  | .remote _ _ => true
  | _ => false

/-! ### Codes (spec/09_translation_and_faults.md R162, R163) -/

def classCode : FaultClass → Nat
  | .trans => 0x01
  | .perm => 0x02
  | .noncanon => 0x03
  | .peerAbsent => 0x04
  | .peerDenied => 0x05
  | .remoteTimeout => 0x06
  | .poison => 0x07
  | .align => 0x08
  | .format => 0x09
  | .regGroup => 0x0A
  | .signature => 0x0B
  | .ftIndex => 0x0C
  | .nearRange => 0x0D
  | .msmQuota => 0x0E
  | .watchdog => 0x0F
  | .trap => 0x10
  | .bkpt => 0x11
  | .scan => 0x12
  | .slotError => 0x13
  | .sweepDesc => 0x14
  | .barrierTag => 0x15
  | .mailbox => 0x16
  | .memLost => 0x18

def akindCode : AccessKind → Nat
  | .none => 0
  | .fetch => 1
  | .scalarLoad => 2
  | .scalarStore => 3
  | .atomic => 4
  | .vectorLoad => 5
  | .vectorStore => 6
  | .tile => 7
  | .copy => 8
  | .landing => 9
  | .send => 10
  | .sweep => 11
  | .barrier => 12

/-- The 32 bytes of a fault record (spec/09_translation_and_faults.md R161). -/
def faultBytes (r : FaultRecord) : BitVec 256 :=
  r.index ++ 0#8 ++ 0#5 ++ BitVec.ofBool r.saved ++ BitVec.ofBool r.eng ++ BitVec.ofBool r.hyp ++
    BitVec.ofNat 8 (akindCode r.akind) ++ BitVec.ofNat 8 (classCode r.cls) ++ r.va ++ r.pc ++
    0#12 ++ BitVec.ofNat 33 (r.save / 2 ^ 19) ++ 0#8 ++ r.sid

/-- Records that the fault queue of a partition holds at most (spec/10_descriptor_tables.md R189). -/
def faultCap (p : Partition) : Nat := 2 ^ (p.faultLog + 8)

/-- Has the fault queue of a partition room for one more record? -/
def faultRoom (s : State) (p : BitVec 6) : Bool := decide ((s.part p).faults.length < faultCap (s.part p))

/-- A fault record enters a fault queue (spec/09_translation_and_faults.md R160, R161): the hypervisor's for a fault of the hypervisor
stage; otherwise the partition's, where its 32 bytes go to their place in the queue's memory (DESIGN CHOICE, Assumption 28). -/
def pushFault (s : State) (p : BitVec 6) (r : FaultRecord) : State :=
  if r.hyp then { s with hypFaults := s.hypFaults ++ [r] }
  else
    let q := s.part p
    let at_ := q.faultQ + 32 * (q.faultTail % faultCap q)
    let s1 := if inHbm at_ then homeWrite s none at_ (bvBytes (faultBytes r)) false else s
    s1.updPart p (fun q => { q with faults := q.faults ++ [r], faultTail := q.faultTail + 1 })

/-! ### The asynchronous error ring (spec/12_barriers_and_counters.md R214, R215, R386) -/

/-- No strand concerned. -/
def noSid : BitVec 11 := 0x7FF#11

/-- An asynchronous record, 32 bytes. -/
def errRecord (code die : Nat) (sid : BitVec 11) (addr tick detail : Nat) : List Byte :=
  natBytes 2 code ++ natBytes 1 die ++ natBytes 1 0 ++ natBytes 4 sid.toNat ++ natBytes 8 addr ++ natBytes 8 tick ++
    natBytes 8 detail

/-- Appends a record to a ring whose header and slots are found by `at_`: none where the ring cannot be written. -/
def ringAppend (at_ : State → Nat → Nat → Option (Nat × State)) (base : Nat) (bs : List Byte) (s : State) :
    Option State :=
  match at_ s base 64 with
  | none => none
  | some (h, s1) =>
    let log := bytesNat (homeRead s1 h 1) % 32
    let head := bytesNat (homeRead s1 (h + 8) 4)
    let tail := bytesNat (homeRead s1 (h + 12) 4)
    let lost (u : State) : State := homeWrite u none (h + 16) (natBytes 8 (bytesNat (homeRead u (h + 16) 8) + 1)) false
    if log < 6 ∨ 16 < log then some (lost s1)
    else if (tail + 2 ^ 32 - head) % 2 ^ 32 = 2 ^ log then some (lost s1)
    else
      match at_ s1 (base + 64 + 32 * (tail % 2 ^ log)) 32 with
      | none => none
      | some (r, s2) =>
        some (homeWrite (homeWrite s2 none r bs false) none (h + 12) (natBytes 4 (tail + 1)) false)

/-- A part of a partition's ring: translated for the partition, with R and W, and free of poison and lost stacks. -/
def ringAt (p : BitVec 6) (s : State) (va n : Nat) : Option (Nat × State) :=
  match locate s (engineCtx p) (BitVec.ofNat 64 va) n 1 .readWrite acceptsLocal with
  | .ok (.mem pa c, s1) => if (homeFault s1 (.mem pa c) n true).isSome then none else some (pa, s1)
  | _ => none

/-- A part of the hypervisor's ring, by physical address. -/
def hypRingAt (s : State) (pa n : Nat) : Option (Nat × State) :=
  if inHbm pa && (homeFault s (.mem pa false) n true).isNone then some (pa, s) else none

/-- Appends to the hypervisor's ring (spec/12_barriers_and_counters.md R386). -/
def hypLog (bs : List Byte) (s : State) : State :=
  let base := (slice s.hvring 0 52).toNat
  if base = 0 then s else (ringAppend hypRingAt base bs s).getD s

/-- Writes an asynchronous record to a partition's ring, or to the hypervisor's where that ring cannot be written or no
partition is concerned. -/
def errLog (p : Option (BitVec 6)) (die : Nat) (sid : BitVec 11) (code addr detail : Nat) (s : State) : State :=
  let bs := errRecord code die sid addr s.cycle detail
  match p with
  | none => hypLog bs s
  | some q =>
    match ringAppend (ringAt q) (s.part q).errRing bs s with
    | some s1 => s1
    | none => hypLog bs s

/-- The state after an access that failed for a partition's strand: the entries that its walk had to mend
(spec/09_translation_and_faults.md R155), and the error ring's record where the walk met a stack that is shut down
(spec/05_memories.md R94). -/
def afterFail (p : BitVec 6) (sid : BitVec 11) (f : Failure) (s : State) : State :=
  let s1 := mendPtes f s
  match f.stack with
  | some n => errLog (some p) (n / 2) sid 0x04 f.va n s1
  | none => s1

/-- A decrement that is dropped leaves a record in ERRLOG (spec/10_descriptor_tables.md R180). -/
def joinFail (s : State) (pid : BitVec 6) (sid : BitVec 11) (va : Nat) (c : FaultClass) : State :=
  errLog (some pid) (sid.toNat / 256) sid 0x13 va (classCode c) s

/-! ### Barrier objects (spec/12_barriers_and_counters.md R205 to R210) -/

/-- The two words of an object at an address, low word first. -/
def barRead (s : State) (pa : Nat) : Word × Word := (bytesBv 64 (homeRead s pa 8), bytesBv 64 (homeRead s (pa + 8) 8))

def barP (w0 : Word) : BitVec 4 := slice w0 0 4
def barQ (w0 : Word) : BitVec 24 := slice w0 8 24
def barC (w0 : Word) : BitVec 32 := slice w0 32 32
def barS (w1 : Word) : Int := (slice w1 0 40).toInt
def barTag (w1 : Word) : BitVec 8 := slice w1 56 8

/-- The words of an object after BINIT (spec/12_barriers_and_counters.md R206). -/
def barWords (p : BitVec 4) (q : BitVec 24) (c : BitVec 32) (sec : Int) : Word × Word :=
  (c ++ q ++ 0#4 ++ p, 0xB7#8 ++ 0#16 ++ BitVec.ofInt 40 sec)

/-- The outcome of an update of one object: the words after it, in which only P, C and S change, and the async records it makes, by code
and detail (spec/12_barriers_and_counters.md R207). -/
def barStep (w0 w1 : Word) (dA : Nat) (dS : Int) : (Word × Word) × List (Nat × Nat) :=
  let p := barP w0
  let q := barQ w0
  let c := barC w0
  let excess := dA = 1 ∧ c.toNat = q.toNat
  let sum := barS w1 + dS
  let hi : Int := 2 ^ 39 - 1
  let lo : Int := -(2 ^ 39)
  let sec := max lo (min hi sum)
  let c1 : BitVec 32 := if dA = 1 ∧ ¬ excess then c + 1#32 else c
  let logs := (if excess then [(0x08, p.toNat)] else []) ++
    (if sum < lo ∨ hi < sum then [(0x09, wrapInt 64 dS)] else [])
  let put (p' : BitVec 4) (c' : BitVec 32) (sec' : Int) : Word × Word :=
    (putSlice (putSlice w0 0 4 p') 32 32 c', putSlice w1 0 40 (BitVec.ofInt 40 sec'))
  if c1.toNat = q.toNat ∧ sec = 0 then (put (p + 1#4) 0#32 0, logs) else (put p c1 sec, logs)

/-- Is a strand's watch on the object at an address of a package, whose own number is `self`? -/
def watches (self peer : BitVec 10) (pa : Nat) (t : Strand) : Bool :=
  match t.watch with
  | some (.mem x _, _) => peer == self && x == pa
  | some (.remote p x, _) => p == peer && x == pa
  | _ => false

/-- Sets the event flag of every strand here whose BTEST last named the object (spec/17_engine_and_system_instructions.md R334). -/
def flagWatchers (s : State) (peer : BitVec 10) (pa : Nat) : State :=
  if s.strands.all (fun kt => !watches s.self peer pa kt.2) then s
  else { s with strands := s.strands.map (fun kt =>
    if watches s.self peer pa kt.2 then (kt.1, { kt.2 with evFlag := true }) else kt) }

/-- A phase advance at its home: the watching strands of this package, and a message to each package that watches the object
(Assumption 32). -/
def wakeWatchers (s : State) (pa : Nat) : State :=
  let s1 := flagWatchers s s.self pa
  if s.homeWatches.all (fun x => x.2 != pa) then s1
  else { s1 with outbox := s1.outbox ++ (s.homeWatches.filter (fun x => x.2 == pa)).map (fun x => .advanced x.1 x.2) }

/-- One update at the object's home (spec/12_barriers_and_counters.md R207): none where the tag is bad, otherwise the phase before
the update. An update with no arrival and no sectors is not made. -/
def barUpdate (s : State) (writer : Option Nat) (p : BitVec 6) (sid : BitVec 11) (pa : Nat) (comp : Bool) (dA : Nat) (dS : Int) :
    Option (BitVec 4) × State :=
  let (w0, w1) := barRead s pa
  if barTag w1 ≠ 0xB7#8 then (none, s)
  else if dA = 0 ∧ dS = 0 then (some (barP w0), s)
  else
    let ((v0, v1), logs) := barStep w0 w1 dA dS
    let s1 := homeWrite s writer pa (bvBytes v0 ++ bvBytes v1) comp
    let s2 := if barP v0 = barP w0 then s1 else wakeWatchers s1 pa
    (some (barP w0), logs.foldl (fun u l => errLog (some p) (dieOfPa pa) sid l.1 pa l.2 u) s2)

/-- An engine's update of a barrier (spec/12_barriers_and_counters.md R207, R210): none is made for no arrival and no sectors, and a
bad tag drops it and is recorded. Answers whether the tag was bad. -/
def engineBar (s : State) (p : BitVec 6) (sid : BitVec 11) (pl : Place) (dA : Nat) (dS : Int) : Bool × State :=
  if dA = 0 ∧ dS = 0 then (false, s)
  else
    let home (pa : Nat) (comp : Bool) : Bool × State :=
      match barUpdate s none p sid pa comp dA dS with
      | (some _, s1) => (false, s1)
      | (none, s1) => (true, errLog (some p) (dieOfPa pa) sid 0x07 pa (barTag (barRead s pa).2).toNat s1)
    match pl with
    | .mem pa comp => home pa comp
    | .remote peer pa =>
      if peer = s.self then home pa false
      else (false, { s with outbox := s.outbox ++ [.request peer pa 16 (.barrier dA dS none)] })
    | _ => (false, s)

/-! ### Tokens (spec/07_queues_and_scheduling.md R117, R118) -/

/-- The three queues. -/
inductive Queue where
  | s | m | c
deriving DecidableEq, Repr

/-- The queue that a pq or wq field names, relative to the instruction's own (spec/07_queues_and_scheduling.md R117). -/
def otherQueue (own : Queue) (f : BitVec 2) : Option Queue :=
  if f = 0#2 ∨ f = 3#2 then none
  else match own with
    | .s => some (if f = 1#2 then .m else .c)
    | .m => some (if f = 1#2 then .s else .c)
    | .c => some (if f = 1#2 then .s else .m)

/-- The count from one queue to another. -/
def Tokens.get (t : Tokens) (from_ to_ : Queue) : BitVec 4 :=
  match from_, to_ with
  | .s, .m => t.sm
  | .s, .c => t.sc
  | .m, .s => t.ms
  | .m, .c => t.mc
  | .c, .s => t.cs
  | .c, .m => t.cm
  | _, _ => 0#4

/-- Changes one count. -/
def Tokens.put (t : Tokens) (from_ to_ : Queue) (x : BitVec 4) : Tokens :=
  match from_, to_ with
  | .s, .m => { t with sm := x }
  | .s, .c => { t with sc := x }
  | .m, .s => { t with ms := x }
  | .m, .c => { t with mc := x }
  | .c, .s => { t with cs := x }
  | .c, .m => { t with cm := x }
  | _, _ => t

/-- Pops the token a wq field asks for: none where the count, as it stood before the pushes of this tick, is 0
(spec/07_queues_and_scheduling.md R118, rules 2 and 4). -/
def popToken (t : Strand) (own : Queue) (w : BitVec 2) : Option Strand :=
  match otherQueue own w with
  | none => some t
  | some q =>
    let n := t.tok.get q own
    if n = t.tokNew.get q own then none else some { t with tok := t.tok.put q own (n - 1#4) }

/-- Reserves the place a pq field asks for: none where the count and its reservations are 15. -/
def reserveToken (t : Strand) (own : Queue) (p : BitVec 2) : Option Strand :=
  match otherQueue own p with
  | none => some t
  | some q =>
    let n := t.tok.get own q
    let r := t.tokRes.get own q
    if n.toNat + r.toNat = 15 then none else some { t with tokRes := t.tokRes.put own q (r + 1#4) }

/-- Turns the reservation into a token (spec/07_queues_and_scheduling.md R118); a token into MS or CS sets the event flag
(spec/17_engine_and_system_instructions.md R334). -/
def pushToken (t : Strand) (own : Queue) (p : BitVec 2) : Strand :=
  match otherQueue own p with
  | none => t
  | some q =>
    { t with
      tok := t.tok.put own q (t.tok.get own q + 1#4)
      tokRes := t.tokRes.put own q (t.tokRes.get own q - 1#4)
      tokNew := t.tokNew.put own q (t.tokNew.get own q + 1#4)
      evFlag := t.evFlag || q == .s }

/-- An S instruction with a pq and a wq field pops and then reserves when it issues (spec/07_queues_and_scheduling.md R118); none
where it is not ready. An instruction that is under way has done so. -/
def sTokens (t : Strand) (p w : BitVec 2) : Option Strand :=
  if t.tokDone then some t
  else
    match popToken t .s w with
    | none => none
    | some t1 =>
      match reserveToken t1 .s p with
      | none => none
      | some t2 => some { t2 with tokDone := true }

/-- A token is pushed, but from the fifth step of EXIT on, where the S and M queues push none (spec/07_queues_and_scheduling.md R119,
spec/17_engine_and_system_instructions.md R337). -/
def pushUnlessExit (t : Strand) (own : Queue) (p : BitVec 2) : Strand := if t.wait = .exit then t else pushToken t own p

/-- Pushes the tokens of the TOKPs whose earlier instructions have all retired (spec/17_engine_and_system_instructions.md R320). -/
def flushTokps : List (Nat × BitVec 2) → Strand → Strand
  | [], t => { t with tokps := [] }
  | (q, p) :: rest, t =>
    if t.out.all (fun a => decide (q < a.seq)) && t.sendq.all (fun c => decide (q < c.seq)) then
      flushTokps rest (pushUnlessExit t .s p)
    else { t with tokps := (q, p) :: rest }

/-- After an instruction has retired, the TOKPs that waited for it push. -/
def Strand.flush (t : Strand) : Strand := flushTokps t.tokps t

/-- An S instruction retires: its token is pushed and the strand goes on. -/
def Strand.retire (t : Strand) (p : BitVec 2) : Strand := (pushToken t .s p).next

/-! ### Guards (spec/07_queues_and_scheduling.md R121) -/

/-- A guard slot at strand start. -/
def Guard.start : Guard := ⟨0, none, false, none⟩

/-- The guard slot of a number. -/
def Strand.guard (t : Strand) (g : BitVec 4) : Guard := tabGet Guard.start t.guards g.toNat

/-- A guarded command captures the current epoch when it issues. -/
def captureGuard (t : Strand) (g : BitVec 4) : Option Epoch × Strand :=
  if g = 0#4 then (none, t)
  else
    let x := t.guard g
    (some ⟨g, x.cId, x.cVal⟩, { t with guards := tabSet t.guards g.toNat { x with cCap := true } })

/-- The epochs that commands hold, with one more resolved. -/
def resolveHeld (t : Strand) (g : BitVec 4) (id : Nat) (v : Bool) : Strand :=
  let fix (e : Option Epoch) : Option Epoch :=
    e.map (fun x => if x.slot = g ∧ x.id = id then { x with val := some v } else x)
  { t with
    cq := t.cq.map (fun c => { c with guard := fix c.guard })
    sendq := t.sendq.map (fun c => { c with guard := fix c.guard }) }

/-- GSET: resolves the oldest unresolved epoch, the previous one before the current one. -/
def gset (t : Strand) (g : BitVec 4) (v : Bool) : Strand :=
  let x := t.guard g
  match x.prev with
  | some (id, none) =>
    resolveHeld { t with guards := tabSet t.guards g.toNat { x with prev := some (id, some v) } } g id v
  | _ =>
    match x.cVal with
    | none => resolveHeld { t with guards := tabSet t.guards g.toNat { x with cVal := some v } } g x.cId v
    | some _ => t

/-- GRST: none where it is not ready. -/
def grst (t : Strand) (g : BitVec 4) : Option Strand :=
  let x := t.guard g
  if x.cVal = none ∧ x.cCap = false then
    some { t with guards := tabSet t.guards g.toNat { x with cId := x.cId + 1 } }
  else
    match x.prev with
    | some (_, none) => none
    | _ => some { t with guards := tabSet t.guards g.toNat ⟨x.cId + 1, none, false, some (x.cId, x.cVal)⟩ }

/-- EXIT resolves every unresolved epoch as false (spec/17_engine_and_system_instructions.md R337): at most two of each slot. -/
def resolveAllFalse (t : Strand) : Strand :=
  (List.range 15).foldl (fun u i => gset (gset u (BitVec.ofNat 4 (i + 1)) false) (BitVec.ofNat 4 (i + 1)) false) t

/-! ### Outstanding accesses (spec/06_memory_ordering.md R104 to R108) -/

/-- The space and address of a place, for comparing ranges. -/
def placeKey (pl : Place) : Nat × Nat :=
  match pl with
  | .near off => (0, off)
  | .mem pa _ => (1, pa)
  | .device pa => (2, pa)
  | .remote p pa => (3 + p.toNat, pa)

/-- Do two accesses overlap at 8-byte granularity (spec/06_memory_ordering.md R107)? -/
def overlaps8 (a : Place) (n : Nat) (b : Place) (m : Nat) : Bool :=
  let (ka, xa) := placeKey a
  let (kb, xb) := placeKey b
  ka == kb && decide (xa / 8 ≤ (xb + m - 1) / 8) && decide (xb / 8 ≤ (xa + n - 1) / 8)

/-- Is the access to a device register? -/
def isDevice (pl : Place) : Bool :=
  match pl with
  | .device _ => true
  | _ => false

/-- Does an outstanding access of the strand hold back an access to these bytes (spec/06_memory_ordering.md R107,
spec/05_memories.md R82)? -/
def Strand.holds (t : Strand) (pl : Place) (n : Nat) : Bool :=
  t.out.any (fun a => overlaps8 a.place a.n pl n || (isDevice a.place && isDevice pl))

/-- Is a row that an access touches under a self-test (spec/05_memories.md R101)? An L2 row is a line, and a row of a frame a sector. -/
def underTest (s : State) (slot : Nat) (pl : Place) (n : Nat) : Bool :=
  match pl with
  | .mem pa _ => lineTested s pa n
  | .remote p pa => p == s.self && lineTested s pa n
  | .near off => s.tests.any (fun x => testOn s x && (match x.1 with
    | .msm core frame sector => core == coreOf slot && (unitsOf 32 off n).any (fun u =>
        u % 1024 == sector && (s.strand slot).scrFrames[u / 1024]? == some frame)
    | _ => false))
  | .device _ => false

/-- Must an access of the strand in a slot to these bytes wait: for an earlier access of the strand, or for a self-test? -/
def accessHeld (s : State) (slot : Nat) (pl : Place) (n : Nat) : Bool :=
  (s.strand slot).holds pl n || (!s.tests.isEmpty && underTest s slot pl n)

/-- Does a release or fence of a scope, of a strand on a die, wait for accesses homed there (spec/06_memory_ordering.md R104)? -/
def inReach (die : Nat) (sc : Scope) (pl : Place) : Bool :=
  match pl, sc with
  | .near _, _ => true
  | .mem pa _, .gang => dieOfPa pa == die
  | .mem _ _, _ => true
  | .device _, .gang => false
  | .device _, _ => true
  | .remote _ _, .fabric => true
  | .remote _ _, _ => false

/-- A scope field (spec/13_encoding.md R225). -/
def scopeOf (c : BitVec 2) : Scope := if c = 0#2 then .gang else if c = 1#2 then .package else .fabric

/-- Has every access within a scope's reach been performed? -/
def Strand.drained (t : Strand) (slot : Nat) (sc : Scope) : Bool :=
  t.out.all (fun a => !inReach (dieOf (coreOf slot)) sc a.place)

/-- An asynchronous record of a class that no slot and no fault reports (spec/05_memories.md R97). -/
def classLog (s : State) (slot va : Nat) (c : FaultClass) : State :=
  errLog (some (s.strand slot).part) (dieOf (coreOf slot)) (sidOf slot) 0x0A va (256 * classCode c) s

/-- A deferred error (spec/05_memories.md R97): the strand keeps one, of one instruction the lowest failing element's, and a further one
is recorded in ERRLOG. -/
def deferError (s : State) (slot : Nat) (d : Deferred) : State :=
  let t := s.strand slot
  match t.deferred with
  | none => s.setStrand slot { t with deferred := some d }
  | some e =>
    if e.seq = d.seq then s.setStrand slot { t with deferred := some (if d.index.toNat < e.index.toNat then d else e) }
    else classLog s slot d.va d.cls

/-- A store's error after issue (spec/05_memories.md R97, spec/12_barriers_and_counters.md R211): its scoreboard slot will complete in
error, or a deferred error is recorded. R97 and R244 name no PERM among the deferred errors, so a posted write that a peer refuses is
recorded in ERRLOG (DESIGN CHOICE, Assumption 37). -/
def storeError (s : State) (slot : Nat) (a : Access) (c : FaultClass) : State :=
  if a.sb ≠ 0#3 then
    s.updSlot slot (fun t =>
      if t.sbFail.any (fun x => x.1 == a.sb) then t else { t with sbFail := t.sbFail ++ [(a.sb, c)] })
  else if c = .perm then classLog s slot a.va c
  else deferError s slot ⟨a.seq, c, a.va, BitVec.ofNat 32 a.elem, a.akind⟩

/-- Sends the request of an access of the strand in a slot to its peer, and counts it (event 0x0008 of
spec/02_strand_registers.md R42). -/
def sendRequest (s : State) (slot : Nat) (a : Access) : State :=
  match a.place with
  | .remote p pa => countEvent { s with outbox := s.outbox ++ [.request p pa a.n a.op] } slot 0x0008 1
  | _ => s

/-- A remote tag that has not been used. -/
def RemoteTag.fresh : RemoteTag := ⟨0#6, false, 0, []⟩

/-- The remote tag of a key. -/
def State.tag (s : State) (k : Nat) : RemoteTag := tabGet RemoteTag.fresh s.tags k

/-- How many remote tags of a die are in use, those in quarantine among them (spec/05_memories.md R88, R98). -/
def tagsUsed (s : State) (die : Nat) : Nat :=
  (s.tags.filter (fun kt => kt.1 / 4096 == die && kt.2.busy)).length

/-- The first free remote tag of a die (spec/05_memories.md R98). -/
def freeTag (s : State) (die : Nat) : Option Nat :=
  firstBelow (fun i => !(s.tag (die * 4096 + i)).busy) 4096

/-- The key of the first free tag for an access, and the tag taken. -/
def takeTag (s : State) (die : Nat) (pl : Place) : Option Nat × State :=
  if isRemote pl then
    match freeTag s die with
    | some i =>
      let k := die * 4096 + i
      (some k, { s with tags := tabSet s.tags k { s.tag k with busy := true, more := [] } })
    | none => (none, s)
  else (none, s)

/-- The keys of the first `n` free tags of a die. -/
def freeTags (s : State) (die n : Nat) : List Nat :=
  (((List.range 4096).map (fun i => die * 4096 + i)).filter (fun k => !(s.tag k).busy)).take n

/-- The tags for the `n` requests that an engine sends to other packages together, at most 4,096: one for each, named by the first. None while
fewer are free: the requests wait (spec/05_memories.md R88; Assumption 13). -/
def engineTag (s : State) (die n : Nat) : Option (Option Nat × State) :=
  if n = 0 then some (none, s)
  else if 4096 < tagsUsed s die + n then none
  else match freeTags s die n with
    | [] => none
    | k :: more =>
      let take (l : Tab RemoteTag) (i : Nat) : Tab RemoteTag := tabSet l i { s.tag i with busy := true, more := [] }
      some (some k, { s with tags := tabSet (more.foldl take s.tags) k { s.tag k with busy := true, more := more } })

/-- Gives back the tags that a tag names, after their replies. -/
def giveTag (s : State) (k : Option Nat) : State :=
  match k with
  | none => s
  | some i =>
    let give (l : Tab RemoteTag) (j : Nat) : Tab RemoteTag := tabSet l j { s.tag j with busy := false, more := [] }
    { s with tags := (i :: (s.tag i).more).foldl give s.tags }

/-- Can the remote accesses among these places all have a tag (spec/05_memories.md R88)? -/
def tagsFree (s : State) (die : Nat) (places : List Place) : Bool :=
  let need := (places.filter isRemote).length
  need == 0 || decide (tagsUsed s die + need ≤ 4096)

/-- An access with nothing but its place. -/
def Access.plain (seq : Nat) (op : AccessOp) (va : Nat) (pl : Place) (n since : Nat) (k : AccessKind) : Access where
  seq := seq
  op := op
  va := va
  place := pl
  n := n
  elem := 0
  sb := 0#3
  blocks := false
  tag := none
  since := since
  akind := k
  rel := none
  push := 0#2
  flags := 0#5
  sent := false
  ff := false
  trunc := none
  cut := false

/-- The new value of an atomic (spec/14_scalar_instructions.md R245), on n-byte values. -/
def amoNew (op : BitVec 4) (n : Nat) (old b : Nat) : Nat :=
  let m := 2 ^ (8 * n)
  let so := signedOf (8 * n) old
  let sb := signedOf (8 * n) b
  match op.toNat with
  | 0 => (old + b) % m
  | 1 => old &&& b % m
  | 2 => old ||| b % m
  | 3 => old ^^^ b % m
  | 4 => if sb < so then b % m else old
  | 5 => if so < sb then b % m else old
  | 6 => min old (b % m)
  | 7 => max old (b % m)
  | 8 => b % m
  | _ => (f32Add (BitVec.ofNat 32 old) (BitVec.ofNat 32 b)).toNat

/-- The FP32 word and the flags of one VRRED add: rne(word + value, FP32), where the value is an element decoded under the
sender's format and scale word (spec/05_memories.md R100). -/
def reduceAdd (code : BitVec 8) (ftz : Bool) (old elem : BitVec 32) (scale : BitVec 20) : BitVec 32 × Flags :=
  let v := match fmtOf code with
    | some (.bfp f) => decodeBfp f scale.toNat elem.toNat
    | some f => decodeFmt f ftz elem.toNat
    | none => .nan false
  let (x, f1) := addV false (decodeFloat fp32 ftz old.toNat) v
  let (y, f2) := encodeFloat fp32 { roundRne with ftz := ftz } 0 x
  (BitVec.ofNat 32 y, f1 ||| f2)

/-- Does an earlier access of the list hold back the access at a position (spec/06_memory_ordering.md R107, R108)? -/
def heldBack (die : Nat) (l : List Access) (i : Nat) (a : Access) : Bool :=
  (l.take i).any (fun b => overlaps8 b.place b.n a.place a.n || (isDevice b.place && isDevice a.place) ||
    (match a.rel with
      | some sc => inReach die sc b.place && b.seq != a.seq
      | none => false) ||
    (match a.op with
      | .flag _ => b.seq == a.seq
      | _ => false))

/-- An access of a slot in its count of near-window accesses (event 0x0006 of spec/02_strand_registers.md R42). An engine's is counted as the
model makes it, by the sector or the run, since the manual does not say what one of its accesses is, and its requests to other packages
likewise (event 0x0008; DESIGN CHOICE, Assumption 6). -/
def countNear (s : State) (slot : Nat) (pl : Place) : State :=
  match pl with
  | .near _ => countEvent s slot 0x0006 1
  | _ => s

/-- Puts an access among the outstanding ones of a slot. A remote one takes a tag, and its request leaves at once when no earlier access of
the strand holds it back (spec/06_memory_ordering.md R107); otherwise it leaves later. -/
def post (s : State) (slot : Nat) (a : Access) : State :=
  let (k, s1) := takeTag s (dieOf (coreOf slot)) a.place
  let l := (s.strand slot).out
  let go := isRemote a.place && !heldBack (dieOf (coreOf slot)) l l.length a
  let b := { a with tag := k, sent := go }
  let s2 := s1.updSlot slot (fun t => { t with out := t.out ++ [b] })
  if go then sendRequest s2 slot b else countNear s2 slot a.place

/-- VL after a form that may have been cut short (spec/15_vector_instructions.md R282). -/
def cutVl (vl : BitVec 12) (e : Option Nat) : BitVec 12 :=
  match e with
  | some n => BitVec.ofNat 12 n
  | none => vl

/-- The strand after an access of an instruction has been performed: when it was the last that later instructions wait for, the
strand goes on; a vector form of which only the elements below a faulting one were performed goes on from that element
(spec/15_vector_instructions.md R280). `f` is the strand's register effect. -/
def settle (s : State) (slot : Nat) (i : Nat) (a : Access) (f : Strand → Strand) : State :=
  let s1 := giveTag s a.tag
  s1.updSlot slot (fun t0 =>
    let t := (f { t0 with out := dropNth t0.out i }).flush
    if a.blocks && !t.out.any (fun b => b.seq == a.seq && b.blocks) then
      if a.elem < t.restart then { t with wait := .none } else ({ t with vl := cutVl t.vl a.trunc }).retire a.push
    else t)

/-- The value of a reply, or the class that it reports. -/
def replyValue (r : Reply) : Except FaultClass Nat :=
  match r with
  | .value v => .ok v.toNat
  | .poison => .error .poison
  | .memlost => .error .memLost
  | .refused => .error .perm

/-- The link lines after a gather-linked element (spec/12_barriers_and_counters.md R213): at most 512, oldest broken first. -/
def addLink (links : List Nat) (line : Nat) : List Nat :=
  let l := links.filter (fun x => x != line) ++ [line]
  l.drop (l.length - 512)

/-- Of the tags that a tag names, some are those of requests whose replies are no longer awaited, by position: the generation of each
advances and it is quarantined; the others are given back (spec/05_memories.md R98; the model treats a request that its strand has given up
for another element's fault as one that has timed out, Assumption 13). -/
def dropTags (s : State) (k : Option Nat) (late : Nat → Bool) : State :=
  match k with
  | none => s
  | some i =>
    let one (l : Tab RemoteTag) (x : Nat × Nat) : Tab RemoteTag :=
      tabSet l x.1 (if late x.2 then ⟨(s.tag x.1).gen + 1#6, true, s.cycle + 2 * s.remto, []⟩
        else { s.tag x.1 with busy := false, more := [] })
    { s with tags := (i :: (s.tag i).more).zipIdx.foldl one s.tags }

/-- All the requests of the tags that a tag names are no longer awaited. -/
def dropTag (s : State) (k : Option Nat) : State := dropTags s k (fun _ => true)

/-- How many requests of these lengths have been answered, in their order, by so many bytes. -/
def answered : List Nat → Nat → Nat
  | [], _ => 0
  | n :: rest, have_ => if n ≤ have_ then answered rest (have_ - n) + 1 else 0

/-- A strand's blocking access failed: every access of its instruction is dropped, and the strand takes the fault at the element
(spec/05_memories.md R97, spec/15_vector_instructions.md R280). An element of VLDFF beyond the first active one truncates VL instead, and
the strand goes on (R282). A wake that its unit has not accepted is none that is to be applied. -/
def failBlocking (s : State) (slot : Nat) (a : Access) (c : FaultClass) : State :=
  let mine := (s.strand slot).out.filter (fun b => b.seq == a.seq)
  let s1 := mine.foldl (fun u b => if b = a || !b.sent then giveTag u b.tag else dropTag u b.tag) s
  let isWake := match a.op with
    | .wake _ _ => true
    | _ => false
  let s2 := s1.updSlot slot (fun t => { t with
    out := t.out.filter (fun b => b.seq != a.seq)
    wakesFar := if isWake then [] else t.wakesFar })
  if a.ff then s2.updSlot slot (fun t => ({ t with vl := BitVec.ofNat 12 a.elem }.flush).retire a.push)
  else
    raiseAt (keepFault (s2.updSlot slot (fun t => { t with restart := a.elem })) (s2.strand slot)) slot (s2.strand slot).pc
      ⟨c, a.akind, BitVec.ofNat 64 a.va, BitVec.ofNat 32 a.elem, false, false⟩

/-- An instruction has written bits of a vector register: the results of the commands before it do not reach them
(spec/16_matrix_instructions.md R289). -/
def Strand.cover (t : Strand) (n : Nat) (m : VReg) : Strand :=
  if t.mq.all (fun c => !c.vdst.contains n) then t
  else { t with mq := t.mq.map (fun c =>
    if c.vdst.contains n then { c with vover := tabPut 0#16384 c.vover n (tabGet 0#16384 c.vover n ||| m) } else c) }

/-- The bits of an element of a vector register. -/
def elemMask (bit w : Nat) : VReg := putSlice 0#16384 bit w (BitVec.allOnes w)

/-- The bits of an element of a vector register replaced, with the marks it clears. -/
def putElem (t : Strand) (reg bit w : Nat) (v : Nat) : Strand :=
  { t with
    v := tabPut 0#16384 t.v reg (putSlice (t.getV reg) bit w (BitVec.ofNat w v))
    marks := t.marks.filter (fun m => !markHits reg bit w m) }

/-- The flags of a finished access go to its instruction's next access, or into VSTAT with the last (spec/02_strand_registers.md
R40). Those of a form that a fault has cut short wait until it completes (spec/15_vector_instructions.md R286). -/
def handFlags (t : Strand) (a : Access) (fl : Flags) : Strand :=
  match findPos (fun b => b.seq == a.seq) t.out with
  | some i => { t with out := setNth t.out i (let b := nth a t.out i
      { b with flags := b.flags ||| fl }) }
  | none => if a.cut then { t with heldFlags := t.heldFlags ||| fl } else { t with vstat := t.vstat ||| fl }

/-- What is left when an access of a VSC has been checked: a failed lane is remembered, and with the last access the failed lanes
are cleared from the mask and the links on every line that the form named are broken (spec/15_vector_instructions.md R284). `lines` is
empty while the form is cut by a fault: its ok bits are applied when it completes after the resume. -/
def vscDone (t : Strand) (a : Access) (ok : Bool) (k : BitVec 3) (lines : List Nat) : Strand :=
  let fails := if ok then t.vscFail else t.vscFail ++ [a.elem]
  if lines.isEmpty || t.out.any (fun b => b.seq == a.seq) then { t with vscFail := fails }
  else
    let t1 := t.setK k.toNat (fails.foldl (fun m i => putBit m i false) (t.getK k.toNat))
    { t1 with
      vscFail := []
      links := t1.links.filter (fun l => !lines.contains l) }

/-- VAPPEND's update of the 32 bytes of a descriptor (spec/10_descriptor_tables.md R188, spec/15_vector_instructions.md R285): what it
returns, and TAIL with OVF after it. R176 has a descriptor that sets a zero bit refused in the way its table states, and R188's table
states none: the model keeps BASE's bits [63:52] in the elements' addresses, which then meet NONCANON, and looks at no other zero bit
(DESIGN CHOICE, Assumption 34). -/
def appendStep (d : BitVec 256) (m : Nat) : Append × Word :=
  let base := (slice d 0 64).toNat
  let cap := (slice d 64 32).toNat
  let tail := (slice d 128 32).toNat
  let ovf := d.getLsbD 160 || decide (cap < tail + m)
  let rest : BitVec 31 := slice d 161 31
  (⟨tail, base, cap⟩, rest ++ BitVec.ofBool ovf ++ BitVec.ofNat 32 (min (tail + m) (2 ^ 32 - 1)))

/-- Does the access read its bytes (spec/14_scalar_instructions.md R248)? -/
def AccessOp.reads : AccessOp → Bool
  | .store _ | .vstore _ | .vsc _ _ _ => false
  | _ => true

/-- The HBM address of a local place; an address past HBM where it has none. -/
def placeHbm (pl : Place) : Nat :=
  match pl with
  | .mem pa _ => pa
  | _ => 0x9000000000

/-- MEMLOST is also recorded in the error ring (spec/05_memories.md R94). -/
def lostLog (slot : Nat) (pl : Place) (va : Nat) (c : FaultClass) (s : State) : State :=
  match c, pl with
  | .memLost, .mem pa _ =>
    errLog (some (s.strand slot).part) (dieOfPa pa) (sidOf slot) 0x04 va (stackOfPa pa) s
  | .memLost, pl =>
    errLog (some (s.strand slot).part) (dieOf (coreOf slot)) (sidOf slot) 0x04 va (stackOfPa (placeKey pl).2) s
  | _, _ => s

/-- What a failed access still does to its strand: a scattered element is acknowledged, in error; the lane of a VSC has not been written,
and its form completes with its last access all the same (spec/15_vector_instructions.md R284; DEDUCED, Assumption 37); the flags that
VRRED's earlier lines returned reach VSTAT (spec/02_strand_registers.md R40). -/
def failedAck (a : Access) (t : Strand) : Strand :=
  match a.op with
  | .vstore _ => { t with acks := t.acks ++ [a.elem] }
  | .vsc _ k lines => vscDone { t with acks := t.acks ++ [a.elem] } a false k lines
  | .reduce _ _ _ => handFlags t a a.flags
  | _ => t

/-- The flag increment of an STN whose data write failed is not made (spec/05_memories.md R99). -/
def dropFlag (s : State) (slot : Nat) (a : Access) : State :=
  match a.op with
  | .store _ =>
    let isFlag (b : Access) : Bool := b.seq == a.seq && (match b.op with
      | .flag _ => true
      | _ => false)
    let gone := (s.strand slot).out.filter isFlag
    (gone.foldl (fun u b => giveTag u b.tag) s).updSlot slot (fun t => { t with
      out := t.out.filter (fun b => !isFlag b) })
  | _ => s

/-- An access failed after issue: the fault of an instruction that later ones wait for, unless it is a vector store whose elements
below a fault are waited for; otherwise a store's error (spec/05_memories.md R97). -/
def accessFails (s : State) (slot i : Nat) (a : Access) (c : FaultClass) : State :=
  let s0 := lostLog slot a.place a.va c s
  if a.blocks && a.akind != .vectorStore then failBlocking s0 slot a c
  else storeError (settle (dropFlag s0 slot a) slot i a (failedAck a)) slot a c

/-- An access of the strand in `slot` is performed at its home, or its reply returns (spec/06_memory_ordering.md R106). `i` is its
position; `a` the access; `rep` the reply of a remote home. The home's own faults have been looked at by the caller. -/
def performAt (s : State) (slot i : Nat) (a : Access) (rep : Reply) : State :=
  let here := isLocal s a.place
  let old : Except FaultClass Nat :=
    if here then .ok (bytesNat (placeRead s slot a.place a.n)) else replyValue rep
  let done := settle s slot i a
  match old with
  | .error c => accessFails s slot i a c
  | .ok x =>
    match a.op with
    | .load d sx =>
      -- a read of a device register may draw a free value
      settle (if isDevice a.place then s.draw.2 else s) slot i a
        (fun t => t.setS d (if sx then wordOfInt (signedOf (8 * a.n) x) else BitVec.ofNat 64 x))
    | .store v =>
      if here then settle (placeWrite s slot a.place (natBytes a.n v.toNat)) slot i a id else done id
    | .amo op b d =>
      if here then
        settle (placeWrite s slot a.place (natBytes a.n (amoNew op a.n x b.toNat))) slot i a
          (fun t => t.setS d (BitVec.ofNat 64 x))
      else done (fun t => t.setS d (BitVec.ofNat 64 x))
    | .cas e v d =>
      let hit := decide (x = e.toNat % 2 ^ (8 * a.n))
      if here && hit then
        settle (placeWrite s slot a.place (natBytes a.n v.toNat)) slot i a (fun t => t.setS d (BitVec.ofNat 64 x))
      else done (fun t => t.setS d (BitVec.ofNat 64 x))
    | .flag _ =>
      if here then settle (placeWrite s slot a.place (natBytes 8 (x + 1))) slot i a id else done id
    | .vload reg bit link =>
      let line := (placeKey a.place).2 / 128
      done (fun t =>
        let t1 := (putElem t reg bit (8 * a.n) x).cover reg (elemMask bit (8 * a.n))
        if link then { t1 with links := addLink t1.links line } else t1)
    | .vstore v =>
      let s1 := if here then placeWrite s slot a.place (natBytes a.n v.toNat) else s
      settle s1 slot i a (fun t => { t with acks := t.acks ++ [a.elem] })
    | .vsc v k lines =>
      let line := (placeKey a.place).2 / 128
      let ok := (s.strand slot).links.contains line
      let s1 := if ok then placeWrite s slot a.place (natBytes a.n v.toNat) else s
      settle s1 slot i a (fun t => vscDone { t with acks := t.acks ++ [a.elem] } a ok k lines)
    | .reduce code ftz adds =>
      let base := (placeKey a.place).2
      let one (u : State × Flags) (wv : Nat × BitVec 32 × BitVec 20) : State × Flags :=
        let o : BitVec 32 := bytesBv 32 (homeRead u.1 (base + wv.1) 4)
        let (y, fl) := reduceAdd code ftz o wv.2.1 wv.2.2
        (placeWrite u.1 slot (placePlus a.place wv.1) (bvBytes y), u.2 ||| fl)
      let (s1, fl) := if here then adds.foldl one (s, 0#5) else (s, BitVec.ofNat 5 x)
      settle s1 slot i a (fun t => handFlags t a (fl ||| a.flags))
    | .append m =>
      let d : BitVec 256 := if here then BitVec.ofNat 256 x else
        0#96 ++ BitVec.ofNat 32 (x / 2 ^ 96) ++ 0#32 ++ BitVec.ofNat 96 x
      let (r, w) := appendStep d m
      let s1 := if here && m != 0 then placeWrite s slot (placePlus a.place 16) (bvBytes w) else s
      (giveTag s1 a.tag).updSlot slot (fun t => { t with
        out := dropNth t.out i
        append := some r
        wait := .none })
    | .record =>
      (giveTag s a.tag).updSlot slot (fun t => { t with out := dropNth t.out i, recBuf := some (BitVec.ofNat 512 x), wait := .none })
    | .barrier dA dS d =>
      if here then
        match barUpdate s (some slot) (s.strand slot).part (sidOf slot) (placeKey a.place).2 false dA dS with
        | (some p, s1) => settle s1 slot i a (fun t => match d with
          | some r => t.setS r (zext64 p)
          | none => t)
        | (none, s1) => failBlocking s1 slot a .barrierTag
      else if x / 2 ^ 120 % 256 ≠ 0xB7 then failBlocking s slot a .barrierTag
      else done (fun t => match d with
        | some r => t.setS r (BitVec.ofNat 64 (x % 16))
        | none => t)
    | .claim _ =>
      (giveTag s a.tag).updSlot slot (fun t => { t with out := dropNth t.out i, claim := some (BitVec.ofNat 64 x), wait := .none })
    | .wake _ _ => done id
    | .binit q =>
      if here then
        let pa := (placeKey a.place).2
        let (w0, w1) := barRead s pa
        let p := if barTag w1 = 0xB7#8 then barP w0 else 0#4
        let (v0, v1) := barWords p q 0#32 0
        settle (homeWrite s (some slot) pa (bvBytes v0 ++ bvBytes v1) false) slot i a id
      else done id
    | .btest d =>
      if here || decide (x / 2 ^ 120 % 256 = 0xB7) then
        if x / 2 ^ 120 % 256 ≠ 0xB7 then failBlocking s slot a .barrierTag
        else done (fun t => { t.setS d (BitVec.ofNat 64 (x % 16)) with
          watch := some (a.place, BitVec.ofNat 4 (x % 16)) })
      else failBlocking s slot a .barrierTag
    | .bwait p =>
      if x / 2 ^ 120 % 256 ≠ 0xB7 then failBlocking s slot a .barrierTag
      else if BitVec.ofNat 4 (x % 16) = p then s
      else done id
    | .entry sig =>
      let e : BitVec 128 := BitVec.ofNat 128 x
      if e.getLsbD 80 = false ∨ slice e 52 12 ≠ 0#12 ∨ slice e 81 47 ≠ 0#47 ∨ slice e 0 2 ≠ 0#2 then
        failBlocking s slot { a with akind := .none, va := 0 } .ftIndex
      else if slice e 64 16 ≠ sig then failBlocking s slot { a with akind := .none, va := 0 } .signature
      else
        let s1 := giveTag s a.tag
        s1.updSlot slot (fun t0 =>
          let t := { t0 with out := dropNth t0.out i }
          (t.setS 31#5 (t.pc + 4#64)).goto (zext64 (slice e 0 52)))

/-- The home's own fault of an outstanding local access: poison for a form that reads, and a shut-down stack
(spec/05_memories.md R94, R103, spec/14_scalar_instructions.md R248). VRRED reads the words that it adds to, and no others of the line. -/
def performFault (s : State) (slot : Nat) (a : Access) : Option FaultClass :=
  if !isLocal s a.place then none
  else match a.op with
    | .reduce _ _ adds => adds.findSome? (fun x => accessFault s slot (placePlus a.place x.1) 4 true)
    | _ => accessFault s slot a.place a.n a.op.reads

end Sys2Proof.Machine
end

