-- ==== Sys2Proof/Machine/Operands.lean ====
section
/-! DEFINITION. The operand forms that scalar, control and queue instructions share: a result in a scalar register,
effective addresses, one scalar access to memory, the waits of FENCE and of scoreboard slots, and deferred errors
(spec/14_scalar_instructions.md R235 to R249, spec/06_memory_ordering.md R108, spec/02_strand_registers.md R41). -/

namespace Sys2Proof.Machine

open Sys2Proof

/-- An S instruction that only writes s[d]: the value is computed from the strand as it stands, and the strand goes on
(spec/14_scalar_instructions.md R235). -/
def scalarResult (d : BitVec 5) (f : Strand → Word) (s : State) : Out :=
  .next (s.upd (fun t => (t.setS d (f t)).next))

/-- Sign-extension to a scalar register. -/
def sext64 {n : Nat} (x : BitVec n) : Word := x.signExtend 64

/-- The address of a scaled-offset form (spec/14_scalar_instructions.md R242). -/
def scaledEa (t : Strand) (a : BitVec 5) (o : BitVec 14) (z : BitVec 2) : Word :=
  t.getS a + sext64 o * BitVec.ofNat 64 (2 ^ z.toNat)

/-- Size codes 10 and 11 of the ordered and atomic forms, by their low bit: W or D (spec/13_encoding.md R225). -/
def wideBytes (z : BitVec 1) : Nat := if z = 1#1 then 8 else 4

/-! ### Deferred errors and scoreboard slots -/

/-- The strand's pending deferred error is delivered at the instruction that runs (spec/05_memories.md R97,
spec/09_translation_and_faults.md R164 item 3): none where no error is pending. -/
def deliver (s : State) : Option State :=
  match s.me.deferred with
  | none => none
  | some d =>
    some (raise ⟨d.cls, d.akind, BitVec.ofNat 64 d.va, d.index, false, false⟩
      (s.upd (fun t => { t with deferred := none, deferNow := false })))

/-- The lowest slot in error among those of a mask (bit j: slot sbj). -/
def errorSlot (t : Strand) (mask : BitVec 8) : Option Nat :=
  firstBelow (fun j => decide (j ≠ 0) && (t.sbErr &&& mask).getLsbD j) 8

/-- SLOT_ERROR is delivered: the slot's ERR bit clears (spec/02_strand_registers.md R41). -/
def raiseSlot (s : State) (j : Nat) : State :=
  raise { Trap.plain .slotError with index := BitVec.ofNat 32 j }
    (s.upd (fun t => { t with sbErr := putBit t.sbErr j false }))

/-- What a wait on slots finds. -/
inductive SlotWait where
  /-- nothing is pending and nothing is in error -/
  | ready
  | pending
  | error (j : Nat)
deriving DecidableEq, Repr

/-- A wait on the slots of a mask (spec/02_strand_registers.md R41, spec/17_engine_and_system_instructions.md R335): not ready while one
is pending, then in error for the lowest slot in error. -/
def waitSlots (t : Strand) (mask : BitVec 8) : SlotWait :=
  if t.sbPend &&& mask &&& 0xFE#8 ≠ 0#8 then .pending
  else match errorSlot t mask with
    | some j => .error j
    | none => .ready

/-! ### Work of the strand's engines -/

/-- Is the copy a copy that the strand of a slot enqueued? -/
def ownsCopy (t : Strand) (c : Copy) : Bool :=
  !c.orphan && c.owner.isOf t

/-- Is the send a rendezvous MSEND of the strand, whose source is read until it completes (spec/08_receive_engine.md R134)? -/
def readsSource (t : Strand) (x : Send) : Bool :=
  x.kind == 0x02#8 && x.owner.isOf t

/-! ### One scalar access -/

/-- The trap of a failed access. -/
def failTrap (f : Failure) (k : AccessKind) (index : Nat) : Trap :=
  ⟨f.cls, k, BitVec.ofNat 64 f.va, BitVec.ofNat 32 index, f.hyp, false⟩

/-- The strand whose instruction runs takes the fault of a failed access (spec/09_translation_and_faults.md R160). -/
def raiseFail (f : Failure) (k : AccessKind) (index : Nat) (s : State) : State := 
  raise (failTrap f k index) (afterFail s.me.part (sidOf s.cur) f s)

/-- What a scalar access form says (spec/06_memory_ordering.md R105, R108). -/
structure ScalarAccess where
  va : Word
  n : Nat
  need : Need
  acc : Accepts
  akind : AccessKind
  op : AccessOp
  /-- later instructions wait for it: a load, an acquire, an atomic whose old value is asked for -/
  blocks : Bool
  /-- a release of this scope -/
  rel : Option Scope

/-- May an access with this release issue: have the earlier accesses within its reach been performed? -/
def relReady (t : Strand) (slot : Nat) (rel : Option Scope) : Bool :=
  match rel with
  | none => true
  | some sc => t.drained slot sc

/-- Reads the place, as the home's fault rules see it (spec/14_scalar_instructions.md R243, R248). -/
def Need.reads : Need → Bool
  | .write => false
  | _ => true

/-- A scalar access that later instructions wait for, at a place: performed at once when its home is on this package, otherwise
sent to the peer. It does not issue before the accesses it must follow (spec/06_memory_ordering.md R107, R108). -/
def blockingAccess (x : ScalarAccess) (pl : Place) (s0 s : State) : Out :=
  let t := s.me
  if accessHeld s s.cur pl x.n || !relReady t s.cur x.rel || !tagsFree s (dieOf (coreOf s.cur)) [pl] then .next s0
  else
    match (if isLocal s pl then accessFault s s.cur pl x.n x.need.reads else none) with
    | some c => .next (raise ⟨c, x.akind, x.va, 0#32, false, false⟩ (lostLog s.cur pl x.va.toNat c s))
    | none =>
      let (q, s1) := s.nextSeq
      let a : Access := { Access.plain q x.op x.va.toNat pl x.n s.cycle x.akind with blocks := true }
      let i := t.out.length
      let s2 := post s1 s.cur a
      if isLocal s pl then
        .next (performAt s2 s.cur i { a with tag := (nth a (s2.strand s.cur).out i).tag } (.value 0#512))
      else .next (s2.upd (fun u => { u with wait := .reply }))

/-- A scalar access that later instructions do not wait for: it joins the strand's outstanding accesses
(spec/06_memory_ordering.md R108). Its request leaves, or it is performed, when no earlier access holds it back. One to a device register
issues when the strand's earlier device access has completed (spec/05_memories.md R82). -/
def postedAccess (x : ScalarAccess) (pl : Place) (s0 s : State) : Out :=
  if !tagsFree s (dieOf (coreOf s.cur)) [pl] || (isDevice pl && s.me.out.any (fun a => isDevice a.place)) then .next s0
  else
    let (q, s1) := s.nextSeq
    let a : Access := { Access.plain q x.op x.va.toNat pl x.n s.cycle x.akind with rel := x.rel }
    .next ((post s1 s.cur a).upd Strand.next)

/-- One scalar access, with the faults of spec/14_scalar_instructions.md R243. -/
def scalarAccess (x : ScalarAccess) (s : State) : Out :=
  match locate s (streamCtx s s.cur) x.va x.n x.n x.need x.acc with
  | .error f => .next (raiseFail f x.akind 0 s)
  | .ok (pl, s1) => if x.blocks then blockingAccess x pl s s1 else postedAccess x pl s s1

end Sys2Proof.Machine
end

