-- ==== Sys2Proof/Machine/Flags.lean ====
section
/-! DEFINITION. VSTAT (spec/02_strand_registers.md R38, R40): the sticky flags that floating, conversion and saturating
instructions set and never clear. The flags of one operation are computed with its result in Float.lean. -/

namespace Sys2Proof.Machine

open Sys2Proof

/-- Sets sticky flags (spec/02_strand_registers.md R40). -/
def Strand.setFlags (t : Strand) (f : Flags) : Strand := { t with vstat := t.vstat ||| f }

/-- The flags of several lanes together. -/
def flagsOr (l : List Flags) : Flags := l.foldl (fun a b => a ||| b) 0#5

/-- Clears the flags whose bit is 1 (spec/02_strand_registers.md R36, W1C). -/
def Strand.clearFlags (t : Strand) (x : Word) : Strand := { t with vstat := t.vstat &&& ~~~(x.setWidth 5) }

end Sys2Proof.Machine
end

