-- ==== Sys2Proof/Machine/Scalar.lean ====
section
/-! DEFINITION. Integer register operations and immediate forms (spec/14_scalar_instructions.md R236 to R240). -/

namespace Sys2Proof.Machine

open Sys2Proof

/-- A register form: s[d] gets `f A B` (spec/14_scalar_instructions.md R236). -/
def oprResult (f : Word → Word → Word) (d a b : BitVec 5) (s : State) : Out :=
  scalarResult d (fun t => f (t.getS a) (t.getS b)) s

/-- An immediate form: s[d] gets `f A I` (spec/14_scalar_instructions.md R238). -/
def immResult (f : Word → Word) (d a : BitVec 5) (s : State) : Out := scalarResult d (fun t => f (t.getS a)) s

/-- 1 or 0. -/
def boolWord (b : Bool) : Word := if b then 1#64 else 0#64

/-- Leading zero bits; 64 for 0. -/
def clz64 (x : Word) : Word := BitVec.ofNat 64 (64 - bitLen x.toNat)
/-- Trailing zero bits; 64 for 0. -/
def ctz64 (x : Word) : Word := if x = 0#64 then 64#64 else BitVec.ofNat 64 (Nat.log2 (x &&& (0#64 - x)).toNat)
/-- Set bits. -/
def popc64 (x : Word) : Word :=
  (List.range 64).foldl (fun acc i => acc + boolWord (x.getLsbD i)) 0#64
/-- The low 32 bits, sign-extended. -/
def sext32 (x : Word) : Word := sext64 (slice x 0 32)
/-- The signed quotient, rounded toward zero (spec/14_scalar_instructions.md R237). -/
def divS (a b : Word) : Word := if b = 0#64 then BitVec.allOnes 64 else BitVec.sdiv a b
/-- The unsigned quotient. -/
def divU (a b : Word) : Word := if b = 0#64 then BitVec.allOnes 64 else a / b
/-- The signed remainder, with the sign of the dividend. -/
def remS (a b : Word) : Word := if b = 0#64 then a else BitVec.srem a b
/-- The unsigned remainder. -/
def remU (a b : Word) : Word := if b = 0#64 then a else a % b
/-- The amount of a shift: B[5:0]. -/
def shamt (b : Word) : Nat := (slice b 0 6).toNat

def execAdd (d a b : BitVec 5) (s : State) : Out := oprResult (fun x y => x + y) d a b s
def execSub (d a b : BitVec 5) (s : State) : Out := oprResult (fun x y => x - y) d a b s
def execAnd (d a b : BitVec 5) (s : State) : Out := oprResult (fun x y => x &&& y) d a b s
def execOr (d a b : BitVec 5) (s : State) : Out := oprResult (fun x y => x ||| y) d a b s
def execXor (d a b : BitVec 5) (s : State) : Out := oprResult (fun x y => x ^^^ y) d a b s
def execAndn (d a b : BitVec 5) (s : State) : Out := oprResult (fun x y => x &&& ~~~y) d a b s
def execSll (d a b : BitVec 5) (s : State) : Out := oprResult (fun x y => x <<< shamt y) d a b s
def execSrl (d a b : BitVec 5) (s : State) : Out := oprResult (fun x y => x >>> shamt y) d a b s
def execSra (d a b : BitVec 5) (s : State) : Out := oprResult (fun x y => x.sshiftRight (shamt y)) d a b s
def execSlt (d a b : BitVec 5) (s : State) : Out := oprResult (fun x y => boolWord (x.slt y)) d a b s
def execSltu (d a b : BitVec 5) (s : State) : Out := oprResult (fun x y => boolWord (x.ult y)) d a b s
def execMin (d a b : BitVec 5) (s : State) : Out := oprResult (fun x y => if y.slt x then y else x) d a b s
def execMax (d a b : BitVec 5) (s : State) : Out := oprResult (fun x y => if x.slt y then y else x) d a b s
def execMinu (d a b : BitVec 5) (s : State) : Out := oprResult (fun x y => if y.ult x then y else x) d a b s
def execMaxu (d a b : BitVec 5) (s : State) : Out := oprResult (fun x y => if x.ult y then y else x) d a b s
def execMul (d a b : BitVec 5) (s : State) : Out := oprResult (fun x y => x * y) d a b s
def execMulh (d a b : BitVec 5) (s : State) : Out :=
  oprResult (fun x y => wordOfInt (x.toInt * y.toInt / 2 ^ 64)) d a b s
def execMulhu (d a b : BitVec 5) (s : State) : Out :=
  oprResult (fun x y => BitVec.ofNat 64 (x.toNat * y.toNat / 2 ^ 64)) d a b s
def execDiv (d a b : BitVec 5) (s : State) : Out := oprResult divS d a b s
def execDivu (d a b : BitVec 5) (s : State) : Out := oprResult divU d a b s
def execRem (d a b : BitVec 5) (s : State) : Out := oprResult remS d a b s
def execRemu (d a b : BitVec 5) (s : State) : Out := oprResult remU d a b s
def execClz (d a : BitVec 5) (s : State) : Out := immResult clz64 d a s
def execCtz (d a : BitVec 5) (s : State) : Out := immResult ctz64 d a s
def execPopc (d a : BitVec 5) (s : State) : Out := immResult popc64 d a s
/-- CSEL keeps s[d] when A is zero. -/
def execCsel (d a b : BitVec 5) (s : State) : Out :=
  scalarResult d (fun t => if t.getS a = 0#64 then t.getS d else t.getS b) s
def execAddw (d a b : BitVec 5) (s : State) : Out := oprResult (fun x y => sext32 (x + y)) d a b s
def execSubw (d a b : BitVec 5) (s : State) : Out := oprResult (fun x y => sext32 (x - y)) d a b s
def execMulw (d a b : BitVec 5) (s : State) : Out := oprResult (fun x y => sext32 (x * y)) d a b s

def execAddi (d a : BitVec 5) (i : BitVec 16) (s : State) : Out := immResult (fun x => x + sext64 i) d a s
def execAndi (d a : BitVec 5) (i : BitVec 16) (s : State) : Out := immResult (fun x => x &&& sext64 i) d a s
def execOri (d a : BitVec 5) (i : BitVec 16) (s : State) : Out := immResult (fun x => x ||| zext64 i) d a s
def execXori (d a : BitVec 5) (i : BitVec 16) (s : State) : Out := immResult (fun x => x ^^^ zext64 i) d a s
def execSlti (d a : BitVec 5) (i : BitVec 16) (s : State) : Out := immResult (fun x => boolWord (x.slt (sext64 i))) d a s
def execSltiu (d a : BitVec 5) (i : BitVec 16) (s : State) : Out := immResult (fun x => boolWord (x.ult (sext64 i))) d a s
/-- LIH keeps the other bits of s[d] (spec/14_scalar_instructions.md R239). -/
def execLih (d : BitVec 5) (p : BitVec 2) (i : BitVec 16) (s : State) : Out :=
  scalarResult d (fun t => putSlice (t.getS d) (16 * p.toNat) 16 i) s
def execSlli (d a : BitVec 5) (n : BitVec 6) (s : State) : Out := immResult (fun x => x <<< n.toNat) d a s
def execSrli (d a : BitVec 5) (n : BitVec 6) (s : State) : Out := immResult (fun x => x >>> n.toNat) d a s
def execSrai (d a : BitVec 5) (n : BitVec 6) (s : State) : Out := immResult (fun x => x.sshiftRight n.toNat) d a s

end Sys2Proof.Machine
end

