-- ==== Sys2Proof/Machine/ScalarFloat.lean ====
section
/-! DEFINITION. Scalar floating point: FP32 in bits [31:0], round to nearest even, no flags
(spec/14_scalar_instructions.md R241, spec/02_strand_registers.md R26). -/

namespace Sys2Proof.Machine

open Sys2Proof

/-- The FP32 operand in a scalar register. -/
def Strand.getF (t : Strand) (r : BitVec 5) : FVal := f32 (slice (t.getS r) 0 32)

/-- A form whose result is rounded to FP32; bits [63:32] become zero. -/
def fopResult (f : FVal → FVal → FVal) (d a b : BitVec 5) (s : State) : Out :=
  scalarResult d (fun t => zext64 (toF32 (f (t.getF a) (t.getF b)))) s

def execFadd (d a b : BitVec 5) (s : State) : Out := fopResult (fun x y => (addV false x y).1) d a b s
def execFsub (d a b : BitVec 5) (s : State) : Out := fopResult (fun x y => (addV false x y.negate).1) d a b s
def execFmul (d a b : BitVec 5) (s : State) : Out := fopResult (fun x y => (mulV x y).1) d a b s
/-- FMA adds to its own destination with one rounding. -/
def execFma (d a b : BitVec 5) (s : State) : Out :=
  scalarResult d (fun t => zext64 (toF32 (fmaV false (t.getF a) (t.getF b) (t.getF d)).1)) s
def execFmin (d a b : BitVec 5) (s : State) : Out := fopResult (fun x y => (minV x y).1) d a b s
def execFmax (d a b : BitVec 5) (s : State) : Out := fopResult (fun x y => (maxV x y).1) d a b s
def execFcvtws (d a : BitVec 5) (s : State) : Out :=
  scalarResult d (fun t => BitVec.ofNat 64 (encodeInt true 32 1#3 0 (t.getF a)).1) s
def execFcvtsw (d a : BitVec 5) (s : State) : Out :=
  scalarResult d (fun t => zext64 (toF32 (fvalOfInt (slice (t.getS a) 0 32).toInt))) s
def execFlt (d a b : BitVec 5) (s : State) : Out :=
  scalarResult d (fun t => boolWord (ltV (t.getF a) (t.getF b))) s
def execFeq (d a b : BitVec 5) (s : State) : Out :=
  scalarResult d (fun t => boolWord (eqV (t.getF a) (t.getF b))) s

end Sys2Proof.Machine
end

