-- ==== Sys2Proof/Machine/ScalarMem.lean ====
section
/-! DEFINITION. Scalar loads and stores, acquire and release, atomics and store with notify
(spec/14_scalar_instructions.md R242 to R249). -/

namespace Sys2Proof.Machine

open Sys2Proof

/-- Sizes W and D are also accepted on device pages (spec/05_memories.md R82). -/
def acceptsOfSize (z : BitVec 2) : Accepts := if z.toNat < 2 then acceptsPlain else acceptsWide

/-- LD zero-extends (spec/14_scalar_instructions.md R242). -/
def execLd (d a : BitVec 5) (o : BitVec 14) (z : BitVec 2) (s : State) : Out :=
  scalarAccess ⟨scaledEa s.me a o z, 2 ^ z.toNat, .read, acceptsOfSize z, .scalarLoad, .load d false, true, none⟩ s

/-- LDS sign-extends; a device page raises PERM (spec/14_scalar_instructions.md R242, R243). -/
def execLds (d a : BitVec 5) (o : BitVec 14) (z : BitVec 2) (s : State) : Out :=
  scalarAccess ⟨scaledEa s.me a o z, 2 ^ z.toNat, .read, acceptsPlain, .scalarLoad, .load d true, true, none⟩ s

/-- ST stores the low bytes of s[d] (spec/14_scalar_instructions.md R242). -/
def execSt (d a : BitVec 5) (o : BitVec 14) (z : BitVec 2) (s : State) : Out :=
  scalarAccess ⟨scaledEa s.me a o z, 2 ^ z.toNat, .write, acceptsOfSize z, .scalarStore, .store (s.me.getS d), false,
    none⟩ s

/-- LDA: an acquire, which first delivers a pending deferred error (spec/14_scalar_instructions.md R244). -/
def execLda (d a : BitVec 5) (_c : BitVec 2) (z : BitVec 1) (s : State) : Out :=
  match deliver s with
  | some s1 => .next s1
  | none =>
    scalarAccess ⟨s.me.getS a, wideBytes z, .read, acceptsWide, .scalarLoad, .load d false, true, none⟩ s

/-- STR: a release of its scope (spec/14_scalar_instructions.md R244). -/
def execStr (a b : BitVec 5) (c : BitVec 2) (z : BitVec 1) (s : State) : Out :=
  scalarAccess ⟨s.me.getS a, wideBytes z, .write, acceptsWide, .scalarStore, .store (s.me.getS b), false,
    some (scopeOf c)⟩ s

/-- Does the form ask later instructions to wait (spec/14_scalar_instructions.md R245, R247)? -/
def atomicBlocks (d : BitVec 5) (q : BitVec 1) : Bool := d != 0#5 || q == 1#1

/-- The release of a form with its rel bit. -/
def atomicRel (r : BitVec 1) (c : BitVec 2) : Option Scope := if r = 1#1 then some (scopeOf c) else none

/-- AMO of one op (spec/14_scalar_instructions.md R245, R248). Combining by the comm bit leaves no trace (R246). -/
def amoForm (op : BitVec 4) (d a b : BitVec 5) (r q : BitVec 1) (c : BitVec 2) (z : BitVec 1) (s : State) : Out :=
  scalarAccess ⟨s.me.getS a, wideBytes z, .readWrite, acceptsPlain, .atomic, .amo op (s.me.getS b) d,
    atomicBlocks d q, atomicRel r c⟩ s

def execAmoAdd (d a b : BitVec 5) (_m r q : BitVec 1) (c : BitVec 2) (z : BitVec 1) (s : State) : Out :=
  amoForm 0#4 d a b r q c z s
def execAmoAnd (d a b : BitVec 5) (_m r q : BitVec 1) (c : BitVec 2) (z : BitVec 1) (s : State) : Out :=
  amoForm 1#4 d a b r q c z s
def execAmoOr (d a b : BitVec 5) (_m r q : BitVec 1) (c : BitVec 2) (z : BitVec 1) (s : State) : Out :=
  amoForm 2#4 d a b r q c z s
def execAmoXor (d a b : BitVec 5) (_m r q : BitVec 1) (c : BitVec 2) (z : BitVec 1) (s : State) : Out :=
  amoForm 3#4 d a b r q c z s
def execAmoSmin (d a b : BitVec 5) (_m r q : BitVec 1) (c : BitVec 2) (z : BitVec 1) (s : State) : Out :=
  amoForm 4#4 d a b r q c z s
def execAmoSmax (d a b : BitVec 5) (_m r q : BitVec 1) (c : BitVec 2) (z : BitVec 1) (s : State) : Out :=
  amoForm 5#4 d a b r q c z s
def execAmoUmin (d a b : BitVec 5) (_m r q : BitVec 1) (c : BitVec 2) (z : BitVec 1) (s : State) : Out :=
  amoForm 6#4 d a b r q c z s
def execAmoUmax (d a b : BitVec 5) (_m r q : BitVec 1) (c : BitVec 2) (z : BitVec 1) (s : State) : Out :=
  amoForm 7#4 d a b r q c z s
def execAmoSwap (d a b : BitVec 5) (r q : BitVec 1) (c : BitVec 2) (z : BitVec 1) (s : State) : Out :=
  amoForm 8#4 d a b r q c z s
/-- FADD is of size W only. -/
def execAmoFadd (d a b : BitVec 5) (_m r q : BitVec 1) (c : BitVec 2) (s : State) : Out :=
  amoForm 9#4 d a b r q c 0#1 s

/-- CAS (spec/14_scalar_instructions.md R247). -/
def execCas (d a b : BitVec 5) (r q : BitVec 1) (c : BitVec 2) (z : BitVec 1) (s : State) : Out :=
  scalarAccess ⟨s.me.getS a, wideBytes z, .readWrite, acceptsPlain, .atomic,
    .cas (s.me.getS d) (s.me.getS b) d, atomicBlocks d q, atomicRel r c⟩ s

/-! ### Store with notify -/

/-- The rank of a failure in spec/09_translation_and_faults.md R164 item 5. -/
def failRank (s : State) (p : BitVec 6) (va n : Nat) (c : FaultClass) : Nat :=
  match c with
  | .noncanon => 0
  | .align => 1
  | .nearRange => 2
  | .perm => if !inNear va && hwOnly (s.part p) va n then 3 else 7
  | .peerDenied => 4
  | .peerAbsent => 5
  | .trans => 6
  | .poison => 8
  | .memLost => 9
  | _ => 10

/-- STN (spec/14_scalar_instructions.md R249): both addresses are checked before either write leaves; the data write goes out as a
store, and the flag increment follows it as a release (STN_FLAG_INCREMENT). -/
def execStn (d a b : BitVec 5) (c : BitVec 2) (z : BitVec 1) (s : State) : Out :=
  let t := s.me
  let n := wideBytes z
  let ctx := streamCtx s s.cur
  let data := locate s ctx (t.getS a) n n .readWrite acceptsFar
  let s1 := match data with
    | .ok (_, u) => u
    | .error _ => s
  let flag := locate s1 ctx (t.getS d) 8 8 .readWrite acceptsFar
  match data, flag with
  | .error f, .error g =>
    let rf := failRank s t.part (t.getS a).toNat n f.cls
    let rg := failRank s t.part (t.getS d).toNat 8 g.cls
    .next (if rg < rf then raiseFail g .atomic 0 s else raiseFail f .scalarStore 0 s)
  | .error f, .ok _ => .next (raiseFail f .scalarStore 0 s)
  | .ok _, .error g => .next (raiseFail g .atomic 0 s)
  | .ok (pd, _), .ok (pf, s2) =>
    if !tagsFree s2 (dieOf (coreOf s.cur)) [pd, pf] then .next s
    else
      let (q, s3) := s2.nextSeq
      let s4 := post s3 s.cur (Access.plain q (.store (t.getS b)) (t.getS a).toNat pd n s.cycle .scalarStore)
      let fl : Access := { Access.plain q (.flag (scopeOf c)) (t.getS d).toNat pf 8 s.cycle .atomic with
        rel := some (scopeOf c) }
      .next ((post s4 s.cur fl).upd Strand.next)

end Sys2Proof.Machine
end

