-- ==== Sys2Proof/Machine/Control.lean ====
section
/-! DEFINITION. Branches, jumps and typed calls, NOP, YIELD, TRAP and BKPT
(spec/14_scalar_instructions.md R250 to R253). -/

namespace Sys2Proof.Machine

open Sys2Proof

/-- A branch on a test of two registers (spec/14_scalar_instructions.md R250). -/
def branchOn (test : Word → Word → Bool) (a b : BitVec 5) (o : BitVec 13) (s : State) : Out :=
  .next (s.upd (fun t =>
    if test (t.getS a) (t.getS b) then t.goto (t.pc + sext64 o * 4#64) else t.next))

def execBcEq (a b : BitVec 5) (o : BitVec 13) (s : State) : Out := branchOn (fun x y => x == y) a b o s
def execBcNe (a b : BitVec 5) (o : BitVec 13) (s : State) : Out := branchOn (fun x y => x != y) a b o s
def execBcLt (a b : BitVec 5) (o : BitVec 13) (s : State) : Out := branchOn (fun x y => x.slt y) a b o s
def execBcGe (a b : BitVec 5) (o : BitVec 13) (s : State) : Out := branchOn (fun x y => !x.slt y) a b o s
def execBcLtu (a b : BitVec 5) (o : BitVec 13) (s : State) : Out := branchOn (fun x y => x.ult y) a b o s
def execBcGeu (a b : BitVec 5) (o : BitVec 13) (s : State) : Out := branchOn (fun x y => !x.ult y) a b o s
def execBcBset (a b : BitVec 5) (o : BitVec 13) (s : State) : Out := branchOn (fun x y => x &&& y != 0#64) a b o s
def execBcBclr (a b : BitVec 5) (o : BitVec 13) (s : State) : Out := branchOn (fun x y => x &&& y == 0#64) a b o s

/-- J (spec/14_scalar_instructions.md R251). -/
def execJ (o : BitVec 26) (s : State) : Out := .next (s.upd (fun t => t.goto (t.pc + sext64 o * 4#64)))

/-- JAL links in s31. -/
def execJal (o : BitVec 26) (s : State) : Out :=
  .next (s.upd (fun t => (t.setS 31#5 (t.pc + 4#64)).goto (t.pc + sext64 o * 4#64)))

/-- JALR: the target is computed before s[d] is written, and a misaligned one raises ALIGN. -/
def execJalr (d a : BitVec 5) (i : BitVec 16) (s : State) : Out :=
  let target := s.me.getS a + sext64 i * 4#64
  if slice target 0 2 ≠ 0#2 then .next (raise { Trap.plain .align with va := target } s)
  else .next (s.upd (fun t => (t.setS d (t.pc + 4#64)).goto target))

/-- CALLT (spec/14_scalar_instructions.md R252): the entry is read as one scalar load; its checks and the call are made when the
entry is there (`AccessOp.entry`). -/
def execCallt (a : BitVec 5) (sg : BitVec 16) (s : State) : Out :=
  let t := s.me
  let i := t.getS a
  if t.ftlen.toNat ≤ i.toNat then .next (raise (Trap.plain .ftIndex) s)
  else scalarAccess ⟨zext64 t.ftbase + 16#64 * i, 16, .read, acceptsPlain, .scalarLoad, .entry sg, true, none⟩ s

/-- NOP changes nothing (spec/14_scalar_instructions.md R253). -/
def execNop (_n : BitVec 12) (s : State) : Out := .next (s.upd Strand.next)

/-- May a strand issue as far as its wait goes: where it waits it does not, but that EXIT looks again, and WFE once its flag is set? -/
def waitOver (t : Strand) : Bool :=
  match t.wait with
  | .none => true
  | .exit => true
  | .wfe _ _ => t.evFlag
  | _ => false

/-- Might a slot be ready to issue, as far as its own state says (spec/01_execution_model.md R7)? -/
def slotReady (t : Strand) : Bool := t.phase == .running && waitOver t

/-- The other slots of a core that may be ready, bit by bit. -/
def otherReady (s : State) (slot : Nat) : Nat :=
  (List.range 4).foldl (fun acc j =>
    let k := 4 * coreOf slot + j
    if k ≠ slot ∧ slotReady (s.strand k) then acc + 2 ^ j else acc) 0

/-- YIELD: the slot is passed over until every other ready slot of the core has issued once, or for 4 ticks
(spec/14_scalar_instructions.md R253). The step that issued it keeps of these slots the ones whose next instruction is ready. -/
def execYield (s : State) : Out :=
  let m := otherReady s s.cur
  .next (s.upd (fun t => { t.next with yielded := if m = 0 then 0 else m + 64 }))

/-- BKPT raises BKPT at once. -/
def execBkpt (s : State) : Out := .next (raise (Trap.plain .bkpt) s)

end Sys2Proof.Machine
end

