-- ==== Sys2Proof/Machine/System.lean ====
section
/-! DEFINITION. The CSR instructions (spec/14_scalar_instructions.md R254, spec/02_strand_registers.md R36 to R42). -/

namespace Sys2Proof.Machine

open Sys2Proof

/-- A grant slot's nibble in GUARD (spec/02_strand_registers.md R38). -/
def guardBits (g : Guard) : BitVec 4 :=
  let one (v : Option Bool) : BitVec 2 := match v with
    | none => 0#2
    | some b => (if b then 3#2 else 1#2)
  one (g.prev.bind (fun p => p.2)) ++ one g.cVal

/-- The GUARD CSR. -/
def guardCsr (t : Strand) : Word :=
  (List.range 16).foldl (fun x i =>
    if i = 0 then x else putSlice x (4 * i) 4 (guardBits (tabGet Guard.start t.guards i))) 0#64

/-- The TOKCNT CSR. -/
def tokCsr (k : Tokens) : Word := zext64 (k.cm ++ k.cs ++ k.mc ++ k.ms ++ k.sc ++ k.sm)

/-- Frames that a strand holds for registers, old frames that await their last readers included
(spec/02_strand_registers.md R38, MSMSTAT.RES). -/
def heldFrames (s : State) (slot : Nat) : List (Nat × Frame) :=
  let t := s.strand slot
  s.frames.filter (fun kf => kf.1 / 256 == coreOf slot && kf.2.mapbase == t.mapbase && decide (kf.2.part = t.part))

/-- The value of a CSR of the strand in a slot; bits outside every field are zero (spec/02_strand_registers.md R36, R38). -/
def csrRead (s : State) (slot : Nat) (c : BitVec 12) : Word :=
  let t := s.strand slot
  let n := c.toNat
  match n with
  | 0x000 => zext64 (sidOf slot)
  | 0x001 => zext64 (recGidx t.rcd)
  | 0x002 => BitVec.ofNat 64 t.rank
  | 0x003 => zext64 (recWidth t.rcd)
  | 0x004 => zext64 (recStage t.rcd)
  | 0x005 => zext64 (recLid t.rcd)
  | 0x006 => zext64 t.part
  | 0x008 => zext64 t.vl
  | 0x009 => zext64 (t.gm ++ t.sew)
  | 0x00A => zext64 t.mw
  | 0x00B => zext64 (t.tsh.tk ++ t.tsh.tn ++ t.tsh.tm)
  | 0x00C => zext64 t.vstat
  | 0x00D => t.srseed
  | 0x010 => BitVec.ofNat 64 t.mapbase
  | 0x011 => BitVec.ofNat 64 t.mrbase
  | 0x012 => zext64 (t.sf ++ 0#7 ++ t.fq)
  | 0x013 => zext64 t.lim
  | 0x014 =>
    BitVec.ofBool (s.therm.contains (coreOf slot)) ++ 0#3 ++ t.spills ++ t.fills ++ 0#3 ++
      BitVec.ofNat 9 (heldFrames s slot).length
  | 0x018 => zext64 t.ftbase
  | 0x019 => zext64 t.ftlen
  | 0x01A => tokCsr t.tok
  | 0x01B => guardCsr t
  | 0x01C => zext64 (t.sbErr ++ t.sbPend)
  | 0x020 => BitVec.ofBool t.swAct ++ 0#15 ++ t.swCur
  | 0x021 => zext64 t.swGrp
  | 0x022 => zext64 t.swAwk
  | 0x023 => zext64 t.swErr
  | 0x028 => BitVec.ofNat 64 s.cycle
  | 0x029 => t.runtk
  | 0x02A => t.wdlim
  | 0x040 => zext64 s.hbmth
  | 0x041 => BitVec.ofNat 64 (s.part t.part).errRing
  | 0x042 => BitVec.ofNat 64 s.remto
  | _ =>
    if 0x030 ≤ n ∧ n < 0x038 then zext64 (tabGet 0#17 t.perfSel (n - 0x030))
    else if 0x038 ≤ n ∧ n < 0x040 then tabGet 0#64 t.perfCnt (n - 0x038)
    else 0#64

/-- The three writes of a CSR. -/
inductive CsrOp where
  | write | set | clear
deriving DecidableEq, Repr

/-- The new value of a RW field (spec/02_strand_registers.md R36). -/
def CsrOp.rw (op : CsrOp) (old x : Word) : Word :=
  match op with
  | .write => x
  | .set => old ||| x
  | .clear => old &&& ~~~x

/-- The bits of a W1C field that the write clears (spec/02_strand_registers.md R36). -/
def CsrOp.w1c (op : CsrOp) (x : Word) : Word :=
  match op with
  | .set => 0#64
  | _ => x

/-- SRSEED's write reseeds the vector bank at once; the matrix bank follows when earlier TCVTs have completed (SRSEED_WRITE;
spec/04_number_formats.md R68). -/
def setSeed (t : Strand) (x : Word) : Strand :=
  { t with srseed := x, vbank := ⟨x, []⟩, mseed := t.mseed ++ [(x, (t.mq.map (fun c => c.id)).foldl max 0)] }

/-- The writes of PERFSEL and PERFCNT that await the next tick take effect. -/
def applyPerf (t : Strand) : Strand :=
  let put (u : Strand) (x : Nat × Word) : Strand :=
    if x.1 < 8 then { u with perfSel := tabPut 0#17 u.perfSel x.1 (x.2.setWidth 17) }
    else { u with perfCnt := tabPut 0#64 u.perfCnt (x.1 - 8) x.2 }
  if t.perfNext = [] then t else { t.perfNext.foldl put t with perfNext := [] }

/-- A write of a CSR, but for MSMCFG; a number without a writable field is left alone (spec/02_strand_registers.md R36).
PERFSEL and PERFCNT change from the next tick (spec/14_scalar_instructions.md R254). -/
def csrUpdate (op : CsrOp) (c : BitVec 12) (x : Word) (t : Strand) : Strand :=
  let n := c.toNat
  if n = 0x00A then { t with mw := (op.rw (zext64 t.mw) x).setWidth 8 }
  else if n = 0x00C then t.clearFlags (op.w1c x)
  else if n = 0x00D then setSeed t (op.rw t.srseed x)
  else if n = 0x01C then { t with sbErr := t.sbErr &&& ~~~((slice (op.w1c x) 8 8) &&& 0xFE#8) }
  else if 0x030 ≤ n ∧ n < 0x038 then
    let i := n - 0x030
    { t with perfNext := t.perfNext ++ [(i, op.rw (zext64 (tabGet 0#17 t.perfSel i)) x)] }
  else if 0x038 ≤ n ∧ n < 0x040 then
    let i := n - 0x030
    { t with perfNext := t.perfNext ++ [(i, op.rw (tabGet 0#64 t.perfCnt (i - 8)) x)] }
  else t

/-- Does an instruction that reads or clears this CSR wait: do flags of an earlier VRRED still have to reach VSTAT
(spec/02_strand_registers.md R37, R40)? -/
def csrWaits (t : Strand) (c : BitVec 12) : Bool :=
  c == 0x00C#12 && t.out.any (fun a => match a.op with
    | .reduce _ _ _ => true
    | _ => false)

/-- A CSR write instruction. A write to MSMCFG waits for the M queue: it is completed, or raises MSM_QUOTA, by MSMCFG_WRITE
(spec/02_strand_registers.md R39). -/
def csrForm (op : CsrOp) (a : BitVec 5) (c : BitVec 12) (s : State) : Out :=
  let x := s.me.getS a
  if csrWaits s.me c then .next s
  else if c = 0x012#12 then
    .next (s.upd (fun t => { t with wait := .msmcfg (op.rw (zext64 (t.sf ++ 0#7 ++ t.fq)) x &&& 0x1FF01FF#64) }))
  else .next (s.upd (fun t => (csrUpdate op c x t).next))

/-- CSRR (spec/02_strand_registers.md R37). -/
def execCsrr (d : BitVec 5) (c : BitVec 12) (s : State) : Out :=
  if csrWaits s.me c then .next s
  else .next (s.upd (fun t => (t.setS d (csrRead s s.cur c)).next))
/-- CSRW replaces the whole register, so that its poison ends (spec/05_memories.md R103). -/
def execCsrw (a : BitVec 5) (c : BitVec 12) (s : State) : Out :=
  if csrWaits s.me c then .next s
  else csrForm .write a c (s.upd (fun t => { t with badC := t.badC.filter (fun n => n != c.toNat) }))
def execCsrs (a : BitVec 5) (c : BitVec 12) (s : State) : Out := csrForm .set a c s
def execCsrc (a : BitVec 5) (c : BitVec 12) (s : State) : Out := csrForm .clear a c s

end Sys2Proof.Machine
end

