-- ==== Sys2Proof/Machine/Vector.lean ====
section
/-! DEFINITION. Vector operands and what every vector form shares (spec/15_vector_instructions.md R258, R259,
spec/02_strand_registers.md R27 to R32), VCFG, the integer forms and the integer compares (R262 to R264). -/

namespace Sys2Proof.Machine

open Sys2Proof

/-! ### Operands -/

/-- SEW in bits. -/
def Strand.sewBits (t : Strand) : Nat := 8 * 2 ^ t.sew.toNat

/-- A vector operand: its first register and the width of its elements in bits. -/
structure VOp where
  reg : Nat
  w : Nat
deriving DecidableEq, Repr

/-- The operand of width SEW that a register field names. -/
def Strand.sewOp (t : Strand) (r : BitVec 5) : VOp := ⟨r.toNat, t.sewBits⟩

/-- Gw, the registers of a group whose elements have width w (spec/15_vector_instructions.md R259). -/
def Strand.groupSize (t : Strand) (w : Nat) : Nat := max 1 (2 ^ t.gm.toNat * w / t.sewBits)

/-- Is the named register a multiple of its group size (spec/02_strand_registers.md R29)? -/
def Strand.grouped (t : Strand) (o : VOp) : Bool := o.reg % t.groupSize o.w == 0

/-- The registers of an operand's group. -/
def Strand.groupRegs (t : Strand) (o : VOp) : List Nat := (List.range (t.groupSize o.w)).map (fun i => o.reg + i)

/-- The registers of an operand that hold elements below VL. -/
def Strand.liveRegs (t : Strand) (o : VOp) : List Nat :=
  (List.range ((t.vl.toNat * o.w + 16383) / 16384)).map (fun i => o.reg + i)

/-- Element i of an operand (spec/02_strand_registers.md R27). -/
def Strand.elem (t : Strand) (o : VOp) (i : Nat) : Nat :=
  (slice (t.getV (o.reg + i * o.w / 16384)) (i * o.w % 16384) o.w).toNat

/-- Element i of an operand replaced. -/
def Strand.putOp (t : Strand) (o : VOp) (i x : Nat) : Strand :=
  putElem t (o.reg + i * o.w / 16384) (i * o.w % 16384) o.w x

/-- Elements of an operand replaced, in the order of the list; all others keep their values and marks
(spec/02_strand_registers.md R30). -/
def Strand.putOps (t : Strand) (o : VOp) (l : List (Nat × Nat)) : Strand :=
  l.foldl (fun u p => u.putOp o p.1 p.2) t

/-- The active elements of a governing mask, ascending (spec/15_vector_instructions.md R258). -/
def Strand.lanes (t : Strand) (k : BitVec 3) : List Nat :=
  let m := t.getK k.toNat
  (List.range t.vl.toNat).filter (fun i => m.getLsbD i)

/-- Bits of a mask register replaced lane by lane; the others keep their values (spec/02_strand_registers.md R32). -/
def Strand.putLanes (t : Strand) (k : BitVec 3) (l : List (Nat × Bool)) : Strand :=
  t.setK k.toNat (l.foldl (fun m p => putBit m p.1 p.2) (t.getK k.toNat))

/-! ### Readiness and marks -/

/-- Is a load's write of the vector register still to come (spec/15_vector_instructions.md R280)? -/
def Strand.vLoading (t : Strand) (n : Nat) : Bool :=
  t.out.any (fun a => match a.op with
    | .vload r _ _ => r == n
    | _ => false)

/-- Does a register still take bits of the command's result: has it bits that no later instruction has written? -/
def MCommand.gives (c : MCommand) (n : Nat) : Bool := c.vdst.contains n && tabGet 0#16384 c.vover n != BitVec.allOnes 16384

/-- Is a write of the vector register still to come that a reader must wait for, by a load or a matrix command
(spec/15_vector_instructions.md R280, spec/16_matrix_instructions.md R289)? -/
def Strand.vBusy (t : Strand) (n : Nat) : Bool := t.vLoading n || t.mq.any (fun c => c.gives n)

/-- The physical registers that a strand holds beyond its 128 (spec/02_strand_registers.md R31): one for each write that is to come and for
each old register that a matrix command has captured and has still to read, and one for each arrival strip. A write that is to come and
whose old register is captured has taken one spare: register and number name it in both lists, but for one that a later write has
overtaken. A stream instruction reads its sources as it issues, so none of its old registers waits for a reader. -/
def Strand.spareUse (t : Strand) : Nat :=
  let loads := t.out.filterMap (fun a => match a.op with
    | .vload r _ _ => some (r, a.seq)
    | _ => none)
  let writes := t.mq.flatMap (fun c => c.vdst.map (fun r => (if tabHas c.vover r then r + 128 else r, c.id)))
  t.strips.length + (loads ++ writes ++ t.mq.flatMap (fun c => c.vold)).eraseDups.length

/-- The vector registers just written: a command of the strand that captured one of them before the instruction of number `n` reads the old
physical register from now on (spec/02_strand_registers.md R31). -/
def markOld (n : Nat) (dsts : List Nat) (t : Strand) : Strand :=
  if dsts.isEmpty then t
  else { t with mq := t.mq.map (fun c => { c with
    vold := c.vold ++ (c.vsrc.filter (fun r => dsts.contains r && !c.vold.any (fun x => x.1 == r))).map (fun r => (r, n)) }) }

/-- The spares of a core that are free (spec/02_strand_registers.md R31): 128, less those out of service (spec/05_memories.md R102) and
those in use. -/
def sparesFree (s : State) (core : Nat) : Nat :=
  128 - tabGet 0 s.vregLost core - ((s.strands.filter (fun kt => coreOf kt.1 == core)).map (fun kt => kt.2.spareUse)).sum

/-- Is a VSC still to write the mask register (spec/15_vector_instructions.md R284)? -/
def Strand.kBusy (t : Strand) (n : Nat) : Bool :=
  n != 0 && t.out.any (fun a => match a.op with
    | .vsc _ k _ => k.toNat == n
    | _ => false)

/-- The trap of the first mark of a class on one of these registers (spec/15_vector_instructions.md R280). -/
def Strand.markOf (t : Strand) (regs : List Nat) (c : FaultClass) : Option Trap :=
  (t.marks.find? (fun m => regs.contains m.reg && m.cls == c)).map (fun m =>
    ⟨m.cls, .vectorLoad, BitVec.ofNat 64 m.va, BitVec.ofNat 32 m.elem, false, false⟩)

/-- The trap of the marks on these registers: POISON comes before MEMLOST (spec/09_translation_and_faults.md R164). -/
def Strand.markTrap (t : Strand) (regs : List Nat) : Option Trap :=
  (t.markOf regs .poison).orElse (fun _ => t.markOf regs .memLost)

/-- The trap of a poisoned mask register (spec/05_memories.md R103). -/
def Strand.maskTrap (t : Strand) (ks : List Nat) : Option Trap :=
  if t.badK.any (fun n => ks.contains n) then some (Trap.plain .poison) else none

/-- The operands of a vector form. -/
structure VForm where
  /-- groups read and written -/
  srcs : List VOp
  dsts : List VOp
  /-- single registers read and written: scale registers, and registers named by number -/
  reads : List Nat
  writes : List Nat
  /-- mask registers read and written -/
  kr : List Nat
  kw : List Nat
deriving DecidableEq, Repr

/-- What holds a vector form or traps it, before it changes anything. -/
inductive VGate where
  | go
  | wait
  | trap (x : Trap)
  /-- VL is 0: nothing happens (spec/02_strand_registers.md R30) -/
  | empty
deriving DecidableEq, Repr

/-- The common checks of a vector form: groups, pending writes, VL, marks (spec/02_strand_registers.md R29, R30,
spec/15_vector_instructions.md R280). What a register that it reads is still to get holds it, and a load that is still to write a register
that it writes; a matrix command that is still to write one does not (spec/16_matrix_instructions.md R289). A misaligned group raises REGGROUP, and a
bad format word FORMAT before this, at VL = 0 too: R30 does
not say whether the check or the end "as though it had completed" comes first (DESIGN CHOICE, Assumption 61). -/
def vGate (t : Strand) (f : VForm) : VGate :=
  let busy := f.srcs.any (fun o => (t.groupRegs o).any t.vBusy) || f.reads.any t.vBusy ||
    f.dsts.any (fun o => (t.groupRegs o).any t.vLoading) || f.writes.any t.vLoading ||
    (f.kr ++ f.kw).any t.kBusy
  if (f.srcs ++ f.dsts).any (fun o => !t.grouped o) then .trap (Trap.plain .regGroup)
  else if busy then .wait
  else if t.vl = 0#12 then .empty
  else
    let regs := f.srcs.flatMap t.liveRegs ++ f.reads
    match ((t.markOf regs .poison).orElse (fun _ => t.maskTrap f.kr)).orElse (fun _ => t.markOf regs .memLost) with
    | some x => .trap x
    | none => .go

/-- A vector form of the S queue: after its checks it reads every source, writes its destinations and goes on
(spec/15_vector_instructions.md R258). -/
def vectorForm (f : VForm) (run : Strand → Strand) (s : State) : Out :=
  match vGate s.me f with
  | .trap x => .next (raise x s)
  | .wait => .next s
  | .empty => .next (s.upd Strand.next)
  | .go => .next (s.upd (fun t => (run t).next))

/-! ### VCFG (spec/15_vector_instructions.md R262) -/

/-- VLMAX of a width and a group multiplier. -/
def vlMax (sew gm : BitVec 2) : Nat := 16384 * 2 ^ gm.toNat / (8 * 2 ^ sew.toNat)

def execVcfg (d a : BitVec 5) (g e : BitVec 2) (s : State) : Out :=
  let m := vlMax e g
  let vl := min (if a = 0#5 then m else (s.me.getS a).toNat) m
  .next (s.upd (fun t =>
    ({ t with vl := BitVec.ofNat 12 vl, sew := e, gm := g }.setS d (BitVec.ofNat 64 vl)).next))

/-! ### Integer arithmetic (spec/15_vector_instructions.md R263) -/

/-- An integer form of two vector operands: element by element, `f w A B`. -/
def vintForm (f : Nat → Nat → Nat → Nat) (d a b : BitVec 5) (k : BitVec 3) (s : State) : Out :=
  let t := s.me
  vectorForm ⟨[t.sewOp a, t.sewOp b], [t.sewOp d], [], [], [k.toNat], []⟩ (fun t =>
    t.putOps (t.sewOp d) ((t.lanes k).map (fun i =>
      (i, f t.sewBits (t.elem (t.sewOp a) i) (t.elem (t.sewOp b) i))))) s

/-- The high half of a signed product. -/
def mulHigh (w x y : Nat) : Nat := wrapInt w (signedOf w x * signedOf w y / (2 ^ w : Nat))
/-- An arithmetic right shift. -/
def sraNat (w x n : Nat) : Nat := wrapInt w (signedOf w x / (2 ^ n : Nat))
/-- The signed sum clamped to w bits. -/
def addSat (w x y : Nat) : Int := max (intMin true w) (min (intMax true w) (signedOf w x + signedOf w y))

def execVadd (d a b : BitVec 5) (_x _y : BitVec 1) (k : BitVec 3) (s : State) : Out :=
  vintForm (fun w x y => (x + y) % 2 ^ w) d a b k s
def execVsub (d a b : BitVec 5) (_x _y : BitVec 1) (k : BitVec 3) (s : State) : Out :=
  vintForm (fun w x y => (x + 2 ^ w - y) % 2 ^ w) d a b k s
def execVmul (d a b : BitVec 5) (_x _y : BitVec 1) (k : BitVec 3) (s : State) : Out :=
  vintForm (fun w x y => x * y % 2 ^ w) d a b k s
def execVmulh (d a b : BitVec 5) (_x _y : BitVec 1) (k : BitVec 3) (s : State) : Out := vintForm mulHigh d a b k s
def execVand (d a b : BitVec 5) (_x _y : BitVec 1) (k : BitVec 3) (s : State) : Out :=
  vintForm (fun _ x y => x &&& y) d a b k s
def execVor (d a b : BitVec 5) (_x _y : BitVec 1) (k : BitVec 3) (s : State) : Out :=
  vintForm (fun _ x y => x ||| y) d a b k s
def execVxor (d a b : BitVec 5) (_x _y : BitVec 1) (k : BitVec 3) (s : State) : Out :=
  vintForm (fun _ x y => x ^^^ y) d a b k s
def execVandn (d a b : BitVec 5) (_x _y : BitVec 1) (k : BitVec 3) (s : State) : Out :=
  vintForm (fun w x y => x &&& (2 ^ w - 1 - y)) d a b k s
def execVsll (d a b : BitVec 5) (_x _y : BitVec 1) (k : BitVec 3) (s : State) : Out :=
  vintForm (fun w x y => x * 2 ^ (y % w) % 2 ^ w) d a b k s
def execVsrl (d a b : BitVec 5) (_x _y : BitVec 1) (k : BitVec 3) (s : State) : Out :=
  vintForm (fun w x y => x / 2 ^ (y % w)) d a b k s
def execVsra (d a b : BitVec 5) (_x _y : BitVec 1) (k : BitVec 3) (s : State) : Out :=
  vintForm (fun w x y => sraNat w x (y % w)) d a b k s
def execVmin (d a b : BitVec 5) (_x _y : BitVec 1) (k : BitVec 3) (s : State) : Out :=
  vintForm (fun w x y => if signedOf w y < signedOf w x then y else x) d a b k s
def execVmax (d a b : BitVec 5) (_x _y : BitVec 1) (k : BitVec 3) (s : State) : Out :=
  vintForm (fun w x y => if signedOf w x < signedOf w y then y else x) d a b k s
def execVminu (d a b : BitVec 5) (_x _y : BitVec 1) (k : BitVec 3) (s : State) : Out :=
  vintForm (fun _ x y => min x y) d a b k s
def execVmaxu (d a b : BitVec 5) (_x _y : BitVec 1) (k : BitVec 3) (s : State) : Out :=
  vintForm (fun _ x y => max x y) d a b k s

/-- VADDS clamps, and sets SAT when an active sum was clamped. -/
def execVadds (d a b : BitVec 5) (_x _y : BitVec 1) (k : BitVec 3) (s : State) : Out :=
  let t := s.me
  vectorForm ⟨[t.sewOp a, t.sewOp b], [t.sewOp d], [], [], [k.toNat], []⟩ (fun t =>
    let w := t.sewBits
    let one (i : Nat) : Nat × Int × Int :=
      let x := t.elem (t.sewOp a) i
      let y := t.elem (t.sewOp b) i
      (i, addSat w x y, signedOf w x + signedOf w y)
    let l := (t.lanes k).map one
    (t.putOps (t.sewOp d) (l.map (fun r => (r.1, wrapInt w r.2.1)))).setFlags
      (flIf (l.any (fun r => r.2.1 != r.2.2)) flSAT)) s

/-! ### Integer compares (spec/15_vector_instructions.md R264) -/

/-- A compare of SEW-wide integers into mask register d. -/
def vcmpForm (f : Nat → Nat → Nat → Bool) (d : BitVec 3) (a b : BitVec 5) (k : BitVec 3) (s : State) : Out :=
  let t := s.me
  vectorForm ⟨[t.sewOp a, t.sewOp b], [], [], [], [k.toNat], [d.toNat]⟩ (fun t =>
    t.putLanes d ((t.lanes k).map (fun i =>
      (i, f t.sewBits (t.elem (t.sewOp a) i) (t.elem (t.sewOp b) i))))) s

def execVcmpEq (d : BitVec 3) (a b : BitVec 5) (_x _y : BitVec 1) (k : BitVec 3) (s : State) : Out :=
  vcmpForm (fun _ x y => x == y) d a b k s
def execVcmpNe (d : BitVec 3) (a b : BitVec 5) (_x _y : BitVec 1) (k : BitVec 3) (s : State) : Out :=
  vcmpForm (fun _ x y => x != y) d a b k s
def execVcmpLt (d : BitVec 3) (a b : BitVec 5) (_x _y : BitVec 1) (k : BitVec 3) (s : State) : Out :=
  vcmpForm (fun w x y => decide (signedOf w x < signedOf w y)) d a b k s
def execVcmpLe (d : BitVec 3) (a b : BitVec 5) (_x _y : BitVec 1) (k : BitVec 3) (s : State) : Out :=
  vcmpForm (fun w x y => decide (signedOf w x ≤ signedOf w y)) d a b k s
def execVcmpLtu (d : BitVec 3) (a b : BitVec 5) (_x _y : BitVec 1) (k : BitVec 3) (s : State) : Out :=
  vcmpForm (fun _ x y => decide (x < y)) d a b k s
def execVcmpLeu (d : BitVec 3) (a b : BitVec 5) (_x _y : BitVec 1) (k : BitVec 3) (s : State) : Out :=
  vcmpForm (fun _ x y => decide (x ≤ y)) d a b k s

end Sys2Proof.Machine
end

