-- ==== Sys2Proof/Machine/VectorFloat.lean ====
section
/-! DEFINITION. Floating vector forms: formats they accept, arithmetic, conversions, sign operations, classes, compares
and reductions (spec/15_vector_instructions.md R260 to R270, spec/04_number_formats.md R78). -/

namespace Sys2Proof.Machine

open Sys2Proof

/-! ### The format word (spec/02_strand_registers.md R33, R34) -/

/-- The format word that an fs field names. -/
def Strand.formatWord (t : Strand) (f : BitVec 3) : Word := t.getS (24#5 + f.setWidth 5)

def fwFA (x : Word) : BitVec 8 := slice x 0 8
def fwFB (x : Word) : BitVec 8 := slice x 8 8
def fwFD (x : Word) : BitVec 8 := slice x 16 8
def fwZA (x : Word) : Nat := (slice x 32 7).toNat
def fwZB (x : Word) : Nat := (slice x 39 7).toNat
def fwZD (x : Word) : Nat := (slice x 46 7).toNat

/-- The reserved bits and RM of a format word. -/
def fwOk (x : Word) : Bool := slice x 29 3 == 0#3 && slice x 53 11 == 0#11 && decide ((slice x 24 3).toNat < 6)

def isFloatCode (c : BitVec 8) : Bool := decide (1 ≤ c.toNat) && decide (c.toNat ≤ 8)
def isBfpCode (c : BitVec 8) : Bool := decide (0x20 ≤ c.toNat) && decide (c.toNat ≤ 0x22)
def isIntCode (c : BitVec 8) : Bool := decide (0x10 ≤ c.toNat) && decide (c.toNat ≤ 0x17)
/-- FP32, BF16 or FP16. -/
def isWideCode (c : BitVec 8) : Bool := decide (1 ≤ c.toNat) && decide (c.toNat ≤ 3)
def isSourceCode (c : BitVec 8) : Bool := isFloatCode c || isBfpCode c
/-- Any assigned code except ACC48. -/
def isVectorCode (c : BitVec 8) : Bool := isFloatCode c || isIntCode c || isBfpCode c

/-- The width of a format code's elements, none where it has none in a vector register. -/
def codeWidth (c : BitVec 8) : Option Nat := if isVectorCode c then (fmtOf c).map fmtWidth else none

/-- A floating form's operands: each with its register, its format code and whether the form accepts it. -/
structure FOp where
  reg : BitVec 5
  code : BitVec 8
  ok : Bool
  read : Bool
  write : Bool
deriving DecidableEq, Repr

/-- The operand as registers; width SEW where the code has none. -/
def FOp.op (o : FOp) (t : Strand) : VOp := ⟨o.reg.toNat, (codeWidth o.code).getD t.sewBits⟩

/-- The gate of a floating form: REGGROUP over the operands whose width is known, then FORMAT, then the common checks
(spec/09_translation_and_faults.md R164). `more` adds what the form reads and writes besides. -/
def floatForm (word : Word) (ops : List FOp) (more : VForm) (run : Strand → Strand) (s : State) : Out :=
  let t := s.me
  let known := ops.filter (fun o => (codeWidth o.code).isSome)
  if known.any (fun o => !t.grouped (o.op t)) || (more.srcs ++ more.dsts).any (fun o => !t.grouped o) then
    .next (raise (Trap.plain .regGroup) s)
  else if !fwOk word || ops.any (fun o => !o.ok) then .next (raise (Trap.plain .format) s)
  else
    vectorForm { more with
      srcs := (ops.filter FOp.read).map (fun o => o.op t) ++ more.srcs
      dsts := (ops.filter FOp.write).map (fun o => o.op t) ++ more.dsts } run s

/-- The scale word of block b in a scale register (spec/04_number_formats.md R72). -/
def Strand.scaleAt (t : Strand) (z b : Nat) : Nat := (slice (t.getV z) (32 * b) 20).toNat

/-- Element i of an operand under a format code, a BFP element with its block's scale (spec/04_number_formats.md R73). -/
def Strand.fval (t : Strand) (reg : BitVec 5) (code : BitVec 8) (z : Nat) (ftz : Bool) (i : Nat) : FVal :=
  match fmtOf code with
  | some (.bfp f) => decodeBfp f (t.scaleAt z (i / 32)) (t.elem ⟨reg.toNat, fmtWidth (.bfp f)⟩ i)
  | some f => decodeFmt f ftz (t.elem ⟨reg.toNat, fmtWidth f⟩ i)
  | none => .nan false

/-- The integer that element i of an integer operand holds. -/
def Strand.ival (t : Strand) (reg : BitVec 5) (code : BitVec 8) (i : Nat) : Option Int :=
  match fmtOf code with
  | some (.int n) => some (signedOf n (t.elem ⟨reg.toNat, n⟩ i))
  | some (.uint n) => some ((t.elem ⟨reg.toNat, n⟩ i : Nat) : Int)
  | _ => none

/-- What writing active elements gathers: results, flags, and the generator bank. -/
structure Gathered where
  out : List (Nat × Nat)
  fl : Flags
  bank : Bank
deriving DecidableEq, Repr

/-- Rounds and gathers one element; under SR it draws once from its lane (spec/04_number_formats.md R67, R68). -/
def gatherOne (r : Round) (enc : Nat → Nat → Nat × Flags) (g : Gathered) (i : Nat) : Gathered :=
  let (x, b) := if r.rm = 5#3 then drawLane g.bank 1 i else (0, g.bank)
  let (e, fl) := enc i x
  ⟨g.out ++ [(i, e)], g.fl ||| fl, b⟩

/-- Writes the active elements of a floating destination: `enc i g` is the encoding and the flags of element i under the draw g. -/
def Strand.floatWrite (t : Strand) (r : Round) (dst : VOp) (lanes : List Nat) (enc : Nat → Nat → Nat × Flags) : Strand :=
  let g := lanes.foldl (gatherOne r enc) ⟨[], 0#5, t.vbank⟩
  { (t.putOps dst g.out).setFlags g.fl with vbank := g.bank }

/-- A result and its flags, encoded in a format. -/
def encodeVal (f : Fmt) (r : Round) (g : Nat) (v : FVal × Flags) : Nat × Flags :=
  let (e, fl) := encodeResult f r g v.1
  (e, fl ||| v.2)

/-- Scale registers read for a source. -/
def scaleReads (c : BitVec 8) (z : Nat) : List Nat := if isBfpCode c then [z] else []

/-- The destination's format of a form that accepts wide destinations. -/
def wideFmt (c : BitVec 8) : Fmt := (fmtOf c).getD (.float fp32)

/-- Nothing besides the operands but the governing mask. -/
def maskOnly (k : BitVec 3) (reads : List Nat) : VForm := ⟨[], [], reads, [], [k.toNat], []⟩

/-! ### Arithmetic (spec/15_vector_instructions.md R265, R266) -/

/-- A form of two floating sources. -/
def vfltForm (f : Round → FVal → FVal → FVal × Flags) (d a b : BitVec 5) (k fs : BitVec 3) (s : State) : Out :=
  let word := s.me.formatWord fs
  let r := roundOf word
  let fa := fwFA word
  let fb := fwFB word
  let fd := fwFD word
  floatForm word
    [⟨a, fa, isSourceCode fa, true, false⟩, ⟨b, fb, isSourceCode fb, true, false⟩, ⟨d, fd, isWideCode fd, false, true⟩]
    (maskOnly k (scaleReads fa (fwZA word) ++ scaleReads fb (fwZB word)))
    (fun t => t.floatWrite r ⟨d.toNat, fmtWidth (wideFmt fd)⟩ (t.lanes k) (fun i g =>
      encodeVal (wideFmt fd) r g
        (f r (t.fval a fa (fwZA word) r.ftz i) (t.fval b fb (fwZB word) r.ftz i)))) s

/-- Does a sum of zeros take the sign of RDN? -/
def Round.rdn (r : Round) : Bool := r.rm == 3#3

def execVfadd (d a b : BitVec 5) (_x _y : BitVec 1) (k fs : BitVec 3) (s : State) : Out :=
  vfltForm (fun r x y => addV r.rdn x y) d a b k fs s
def execVfsub (d a b : BitVec 5) (_x _y : BitVec 1) (k fs : BitVec 3) (s : State) : Out :=
  vfltForm (fun r x y => addV r.rdn x y.negate) d a b k fs s
def execVfmul (d a b : BitVec 5) (_x _y : BitVec 1) (k fs : BitVec 3) (s : State) : Out :=
  vfltForm (fun _ x y => mulV x y) d a b k fs s
def execVfmin (d a b : BitVec 5) (_x _y : BitVec 1) (k fs : BitVec 3) (s : State) : Out :=
  vfltForm (fun _ x y => minV x y) d a b k fs s
def execVfmax (d a b : BitVec 5) (_x _y : BitVec 1) (k fs : BitVec 3) (s : State) : Out :=
  vfltForm (fun _ x y => maxV x y) d a b k fs s
def execVfdiv (d a b : BitVec 5) (_x _y : BitVec 1) (k fs : BitVec 3) (s : State) : Out :=
  vfltForm (fun _ x y => divV x y) d a b k fs s

def execVfsqrt (d a : BitVec 5) (_x : BitVec 1) (k fs : BitVec 3) (s : State) : Out :=
  let word := s.me.formatWord fs
  let r := roundOf word
  let fa := fwFA word
  let fd := fwFD word
  floatForm word [⟨a, fa, isSourceCode fa, true, false⟩, ⟨d, fd, isWideCode fd, false, true⟩]
    (maskOnly k (scaleReads fa (fwZA word)))
    (fun t => t.floatWrite r ⟨d.toNat, fmtWidth (wideFmt fd)⟩ (t.lanes k) (fun i g =>
      encodeVal (wideFmt fd) r g (sqrtV (t.fval a fa (fwZA word) r.ftz i)))) s

/-- VFSCALE: n is the signed integer B[i] under FB, which is INT8, INT16 or INT32. -/
def execVfscale (d a b : BitVec 5) (_x _y : BitVec 1) (k fs : BitVec 3) (s : State) : Out :=
  let word := s.me.formatWord fs
  let r := roundOf word
  let fa := fwFA word
  let fb := fwFB word
  let fd := fwFD word
  let fbOk := decide (0x10 ≤ fb.toNat) && decide (fb.toNat ≤ 0x12)
  floatForm word
    [⟨a, fa, isSourceCode fa, true, false⟩, ⟨b, fb, fbOk, true, false⟩, ⟨d, fd, isWideCode fd, false, true⟩]
    (maskOnly k (scaleReads fa (fwZA word)))
    (fun t => t.floatWrite r ⟨d.toNat, fmtWidth (wideFmt fd)⟩ (t.lanes k) (fun i g =>
      let v := t.fval a fa (fwZA word) r.ftz i
      encodeVal (wideFmt fd) r g (scaleV v ((t.ival b fb i).getD 0), flIf v.isSig flNV))) s

/-- A fused form: the addend is D in format FD (spec/15_vector_instructions.md R266). -/
def vfmaForm (negP negD : Bool) (d a b : BitVec 5) (k fs : BitVec 3) (s : State) : Out :=
  let word := s.me.formatWord fs
  let r := roundOf word
  let fa := fwFA word
  let fb := fwFB word
  let fd := fwFD word
  let turn (n : Bool) (v : FVal) : FVal := if n then v.negate else v
  floatForm word
    [⟨a, fa, isSourceCode fa, true, false⟩, ⟨b, fb, isSourceCode fb, true, false⟩, ⟨d, fd, isWideCode fd, true, true⟩]
    (maskOnly k (scaleReads fa (fwZA word) ++ scaleReads fb (fwZB word)))
    (fun t => t.floatWrite r ⟨d.toNat, fmtWidth (wideFmt fd)⟩ (t.lanes k) (fun i g =>
      encodeVal (wideFmt fd) r g
        (fmaV r.rdn (turn negP (t.fval a fa (fwZA word) r.ftz i)) (t.fval b fb (fwZB word) r.ftz i)
          (turn negD (t.fval d fd 0 r.ftz i))))) s

def execVfma (d a b : BitVec 5) (_x _y : BitVec 1) (k fs : BitVec 3) (s : State) : Out :=
  vfmaForm false false d a b k fs s
def execVfms (d a b : BitVec 5) (_x _y : BitVec 1) (k fs : BitVec 3) (s : State) : Out :=
  vfmaForm false true d a b k fs s
def execVfnma (d a b : BitVec 5) (_x _y : BitVec 1) (k fs : BitVec 3) (s : State) : Out :=
  vfmaForm true false d a b k fs s
def execVfnms (d a b : BitVec 5) (_x _y : BitVec 1) (k fs : BitVec 3) (s : State) : Out :=
  vfmaForm true true d a b k fs s

/-! ### Conversions (spec/15_vector_instructions.md R267, spec/04_number_formats.md R71, R74) -/

/-- The largest finite value of a source format, to which a quantised infinity is clamped (spec/04_number_formats.md R74). -/
def sourceMax (c : BitVec 8) : FVal :=
  match fmtOf c with
  | some (.float f) => maxFinite f
  | _ => .fin false 0 0 false

/-- One quantised block: its active elements with their draws, and the scale word in slot b of ZD. -/
def quantLanes (f : Nat) (r : Round) (maxFin : FVal) (val : Nat → FVal) (g : Gathered × List (Nat × Nat)) (b : Nat)
    (lanes : List Nat) : Gathered × List (Nat × Nat) :=
  if lanes.isEmpty then g
  else
    let pick (acc : List (FVal × Nat) × Bank) (i : Nat) : List (FVal × Nat) × Bank :=
      let (x, bk) := if r.rm = 5#3 then drawLane acc.2 1 i else (0, acc.2)
      (acc.1 ++ [(val i, x)], bk)
    let (xs, bk) := lanes.foldl pick ([], g.1.bank)
    let (es, scale, fl) := quantBlock f r.rm maxFin xs
    (⟨g.1.out ++ lanes.zip es, g.1.fl ||| fl, bk⟩, g.2 ++ [(b, scale)])

def execVfcvt (d a : BitVec 5) (_x : BitVec 1) (k fs : BitVec 3) (s : State) : Out :=
  let word := s.me.formatWord fs
  let r := roundOf word
  let fa := fwFA word
  let fd := fwFD word
  let za := fwZA word
  let zd := fwZD word
  let more : VForm := ⟨[], [], scaleReads fa za, scaleReads fd zd, [k.toNat], []⟩
  floatForm word [⟨a, fa, isVectorCode fa, true, false⟩, ⟨d, fd, isVectorCode fd, false, true⟩] more
    (fun t =>
      let lanes := t.lanes k
      match fmtOf fd with
      | some (.bfp f) =>
        let w := fmtWidth (.bfp f)
        let blocks := (List.range 64).map (fun b => (b, lanes.filter (fun i => i / 32 == b)))
        let (g, scales) := blocks.foldl
          (fun acc bl => quantLanes f r (sourceMax fa) (t.fval a fa za r.ftz) acc bl.1 bl.2) (⟨[], 0#5, t.vbank⟩, [])
        let t1 := (t.putOps ⟨d.toNat, w⟩ g.out).putOps ⟨zd, 32⟩ scales
        { t1.setFlags g.fl with vbank := g.bank }
      | some f =>
        t.floatWrite r ⟨d.toNat, fmtWidth f⟩ lanes (fun i g =>
          encodeFmt f r g (t.fval a fa za r.ftz i) (t.ival a fa i))
      | none => t) s

/-! ### Sign operations, rounding to integral values and classes (spec/15_vector_instructions.md R268, R269) -/

/-- The floating format of a code. -/
def floatFmt (c : BitVec 8) : FFmt :=
  match fmtOf c with
  | some (.float f) => f
  | _ => fp32

/-- A form of one floating source whose destination has the same format: before FORMAT, each operand's group is judged by its own format
(spec/15_vector_instructions.md R259, R287). -/
def sameFormat (draws : Bool) (f : FFmt → Round → Nat → FVal → Nat → Nat × Flags) (d a : BitVec 5) (k fs : BitVec 3) (s : State) :
    Out :=
  let word := s.me.formatWord fs
  let r := roundOf word
  let fa := fwFA word
  let h := floatFmt fa
  floatForm word
    [⟨a, fa, isFloatCode fa, true, false⟩, ⟨d, fwFD word, isFloatCode fa && fwFD word == fa, false, true⟩]
    (maskOnly k [])
    (fun t =>
      let w := fmtWidth (.float h)
      t.floatWrite (if draws then r else { r with rm := 0#3 }) ⟨d.toNat, w⟩ (t.lanes k) (fun i g =>
        let raw := t.elem ⟨a.toNat, w⟩ i % 2 ^ h.width
        let v := decodeFloat h (draws && r.ftz) raw
        if v.isNan then (nanOf h, flIf v.isSig flNV) else f h r raw v g)) s

/-- Rounds a value to an integral value in the same format. -/
def integral (h : FFmt) (r : Round) (raw : Nat) (v : FVal) (g : Nat) : Nat × Flags :=
  match v with
  | .fin neg m e _ =>
    if m = 0 then (signBit h neg, 0#5)
    else
      let (q, inexact) := roundQ r.rm neg g m (-e) false
      let (enc, fl) := encodeFloat h r 0 (.fin neg q 0 false)
      (enc, fl ||| flIf inexact flNX)
  | _ => (raw, 0#5)

def execVfcvti (d a : BitVec 5) (_x : BitVec 1) (k fs : BitVec 3) (s : State) : Out :=
  sameFormat true integral d a k fs s
def execVfneg (d a : BitVec 5) (_x : BitVec 1) (k fs : BitVec 3) (s : State) : Out :=
  sameFormat false (fun h _ raw _ _ => (raw ^^^ 2 ^ (h.width - 1), 0#5)) d a k fs s
def execVfabs (d a : BitVec 5) (_x : BitVec 1) (k fs : BitVec 3) (s : State) : Out :=
  sameFormat false (fun h _ raw _ _ => (raw % 2 ^ (h.width - 1), 0#5)) d a k fs s

/-- The class code of a value; `sub` says that its encoding is subnormal. -/
def classOf (v : FVal) (sub : Bool) : Nat :=
  match v with
  | .inf n => if n then 0 else 7
  | .nan sig => if sig then 8 else 9
  | .fin n m _ _ =>
    if m = 0 then (if n then 3 else 4)
    else if sub then (if n then 2 else 5)
    else if n then 1 else 6

/-- Is the encoding of a floating format subnormal or zero? -/
def subEncoding (c : BitVec 8) (raw : Nat) : Bool :=
  match fmtOf c with
  | some (.float h) => decide (raw / 2 ^ h.mbits % 2 ^ h.ebits = 0)
  | _ => false

def execVfclass (d a : BitVec 5) (_x : BitVec 1) (k fs : BitVec 3) (s : State) : Out :=
  let word := s.me.formatWord fs
  let r := roundOf word
  let fa := fwFA word
  floatForm word [⟨a, fa, isSourceCode fa, true, false⟩]
    { maskOnly k (scaleReads fa (fwZA word)) with dsts := [s.me.sewOp d] }
    (fun t => t.putOps (t.sewOp d) ((t.lanes k).map (fun i =>
      (i, classOf (t.fval a fa (fwZA word) r.ftz i)
        (subEncoding fa (t.elem ⟨a.toNat, (codeWidth fa).getD t.sewBits⟩ i)))))) s

/-! ### Floating compares (spec/15_vector_instructions.md R264) -/

/-- A compare of floating elements into mask register d. -/
def vfcmpForm (f : FVal → FVal → Bool × Flags) (d : BitVec 3) (a b : BitVec 5) (k fs : BitVec 3) (s : State) : Out :=
  let word := s.me.formatWord fs
  let r := roundOf word
  let fa := fwFA word
  let fb := fwFB word
  floatForm word [⟨a, fa, isSourceCode fa, true, false⟩, ⟨b, fb, isSourceCode fb, true, false⟩]
    { maskOnly k (scaleReads fa (fwZA word) ++ scaleReads fb (fwZB word)) with kw := [d.toNat] }
    (fun t =>
      let l := (t.lanes k).map (fun i =>
        (i, f (t.fval a fa (fwZA word) r.ftz i) (t.fval b fb (fwZB word) r.ftz i)))
      (t.putLanes d (l.map (fun x => (x.1, x.2.1)))).setFlags (flagsOr (l.map (fun x => x.2.2)))) s

def execVcmpFeq (d : BitVec 3) (a b : BitVec 5) (_x _y : BitVec 1) (k fs : BitVec 3) (s : State) : Out :=
  vfcmpForm (fun x y => (eqV x y, flIf (x.isSig || y.isSig) flNV)) d a b k fs s
def execVcmpFlt (d : BitVec 3) (a b : BitVec 5) (_x _y : BitVec 1) (k fs : BitVec 3) (s : State) : Out :=
  vfcmpForm (fun x y => (ltV x y, flIf (x.isNan || y.isNan) flNV)) d a b k fs s

/-! ### Reductions (spec/15_vector_instructions.md R270, spec/04_number_formats.md R78) -/

/-- Writes element 0 of D's group and zeros to all its other elements. -/
def Strand.putReduced (t : Strand) (o : VOp) (x : Nat) : Strand :=
  ((t.groupRegs o).foldl (fun u n => u.setV n 0#16384) t).putOp o 0 x

/-- An integer reduction from a start value. -/
def vredForm (start : Nat → Nat) (f : Nat → Nat → Nat → Nat) (d a : BitVec 5) (k : BitVec 3) (s : State) : Out :=
  let t := s.me
  vectorForm ⟨[t.sewOp a], [t.sewOp d], [], [], [k.toNat], []⟩ (fun t =>
    let w := t.sewBits
    t.putReduced (t.sewOp d) ((t.lanes k).foldl (fun acc i => f w acc (t.elem (t.sewOp a) i)) (start w))) s

def execVredsum (d a : BitVec 5) (_x : BitVec 1) (k : BitVec 3) (s : State) : Out :=
  vredForm (fun _ => 0) (fun w x y => (x + y) % 2 ^ w) d a k s
def execVredmax (d a : BitVec 5) (_x : BitVec 1) (k : BitVec 3) (s : State) : Out :=
  vredForm (fun w => 2 ^ (w - 1)) (fun w x y => if signedOf w x < signedOf w y then y else x) d a k s
def execVredmin (d a : BitVec 5) (_x : BitVec 1) (k : BitVec 3) (s : State) : Out :=
  vredForm (fun w => 2 ^ (w - 1) - 1) (fun w x y => if signedOf w y < signedOf w x then y else x) d a k s
def execVredmaxu (d a : BitVec 5) (_x : BitVec 1) (k : BitVec 3) (s : State) : Out :=
  vredForm (fun _ => 0) (fun _ x y => max x y) d a k s
def execVredminu (d a : BitVec 5) (_x : BitVec 1) (k : BitVec 3) (s : State) : Out :=
  vredForm (fun w => 2 ^ w - 1) (fun _ x y => min x y) d a k s

/-- One level of the pairwise tree: an absent node passes its partner through unrounded. -/
def treeLevel (node : FVal → FVal → FVal × Flags) : List (Option FVal) → List (Option FVal) × Flags
  | [] => ([], 0#5)
  | [x] => ([x], 0#5)
  | x :: y :: rest =>
    let (l, fl) := treeLevel node rest
    match x, y with
    | none, z => (z :: l, fl)
    | z, none => (z :: l, fl)
    | some u, some v =>
      let (r, f) := node u v
      (some r :: l, fl ||| f)

/-- The whole tree; 11 levels reach 2,048 elements. -/
def treeReduce (node : FVal → FVal → FVal × Flags) : Nat → List (Option FVal) → Option FVal × Flags
  | 0, l => (l.head?.join, 0#5)
  | n + 1, l =>
    let (l1, f1) := treeLevel node l
    let (r, f2) := treeReduce node n l1
    (r, f1 ||| f2)

/-- A floating reduction: `f` combines, `absent` is the encoding written where no element is active. -/
def vfredForm (f : FVal → FVal → FVal × Flags) (absent : FFmt → Nat) (d a : BitVec 5) (k fs : BitVec 3) (s : State) : Out :=
  let word := s.me.formatWord fs
  let r := { roundOf word with rm := 0#3 }
  let fa := fwFA word
  let fd := fwFD word
  let h := floatFmt fd
  floatForm word [⟨a, fa, isSourceCode fa, true, false⟩, ⟨d, fd, isWideCode fd, false, true⟩]
    (maskOnly k (scaleReads fa (fwZA word)))
    (fun t =>
      let m := t.getK k.toNat
      let leaves := (List.range t.vl.toNat).map (fun i =>
        if m.getLsbD i then some (t.fval a fa (fwZA word) r.ftz i) else none)
      let node (x y : FVal) : FVal × Flags :=
        let (v, f1) := f x y
        let (e, f2) := encodeResult (.float h) r 0 v
        (decodeFloat h false e, f1 ||| f2)
      let o : VOp := ⟨d.toNat, h.width⟩
      match treeReduce node 11 leaves with
      | (none, _) => t.putReduced o (absent h)
      | (some v, fl) =>
        let (e, f2) := encodeResult (.float h) r 0 v
        (t.putReduced o e).setFlags (fl ||| f2)) s

def execVfredsum (d a : BitVec 5) (_x : BitVec 1) (k fs : BitVec 3) (s : State) : Out :=
  vfredForm (addV false) (fun _ => 0) d a k fs s
def execVfredmax (d a : BitVec 5) (_x : BitVec 1) (k fs : BitVec 3) (s : State) : Out :=
  vfredForm maxV (fun h => signBit h true + (2 ^ h.ebits - 1) * 2 ^ h.mbits) d a k fs s
def execVfredmin (d a : BitVec 5) (_x : BitVec 1) (k fs : BitVec 3) (s : State) : Out :=
  vfredForm minV (fun h => (2 ^ h.ebits - 1) * 2 ^ h.mbits) d a k fs s

end Sys2Proof.Machine
end

