-- ==== Sys2Proof/Machine/VectorMove.lean ====
section
/-! DEFINITION. Permutes, moves, mask operations and gang multicast (spec/15_vector_instructions.md R271 to R278). -/

namespace Sys2Proof.Machine

open Sys2Proof

/-! ### Permutes (spec/15_vector_instructions.md R271 to R273) -/

/-- A form that moves elements of one SEW-wide source; `f` lists the elements written, with every source read first. -/
def permForm (srcs : List (BitVec 5)) (f : Strand → List (Nat × Nat)) (d : BitVec 5) (k : BitVec 3) (s : State) : Out :=
  let t := s.me
  vectorForm ⟨srcs.map t.sewOp, [t.sewOp d], [], [], [k.toNat], []⟩ (fun t => t.putOps (t.sewOp d) (f t)) s

def execVperm (d a b : BitVec 5) (_x _y : BitVec 1) (k : BitVec 3) (s : State) : Out :=
  permForm [a, b] (fun t => (t.lanes k).map (fun i =>
    let j := t.elem (t.sewOp b) i
    (i, if j < t.vl.toNat then t.elem (t.sewOp a) j else 0))) d k s

/-- Lanes below the amount keep their values. -/
def execVslideup (d a b : BitVec 5) (_x : BitVec 1) (k : BitVec 3) (s : State) : Out :=
  permForm [a] (fun t =>
    let n := (t.getS b).toNat
    ((t.lanes k).filter (fun i => decide (n ≤ i))).map (fun i => (i, t.elem (t.sewOp a) (i - n)))) d k s

def execVslidedn (d a b : BitVec 5) (_x : BitVec 1) (k : BitVec 3) (s : State) : Out :=
  permForm [a] (fun t =>
    let n := (t.getS b).toNat
    (t.lanes k).map (fun i => (i, if i + n < t.vl.toNat then t.elem (t.sewOp a) (i + n) else 0))) d k s

/-- The mask selects sources; the rest below VL becomes zero. -/
def execVcompress (d a : BitVec 5) (_x : BitVec 1) (k : BitVec 3) (s : State) : Out :=
  permForm [a] (fun t =>
    let xs := (t.lanes k).map (fun i => t.elem (t.sewOp a) i)
    (List.range t.vl.toNat).map (fun j => (j, nth 0 xs j))) d k s

def execVexpand (d a : BitVec 5) (_x : BitVec 1) (k : BitVec 3) (s : State) : Out :=
  permForm [a] (fun t =>
    let l := t.lanes k
    (l.zip (List.range l.length)).map (fun p => (p.1, t.elem (t.sewOp a) p.2))) d k s

def execViota (d : BitVec 5) (k : BitVec 3) (s : State) : Out :=
  permForm [] (fun t =>
    let l := t.lanes k
    (l.zip (List.range l.length)).map (fun p => (p.1, p.2 % 2 ^ t.sewBits))) d k s

/-- The lowest active lane whose register number is 128 or more (spec/02_strand_registers.md R28). -/
def badRegLane (t : Strand) (b : BitVec 5) (k : BitVec 3) : Option Nat :=
  (t.lanes k).find? (fun i => decide (128 ≤ t.elem (t.sewOp b) i))

/-- The registers that the active lanes name. -/
def namedRegs (t : Strand) (b : BitVec 5) (k : BitVec 3) : List Nat :=
  ((t.lanes k).map (fun i => t.elem (t.sewOp b) i)).foldl (fun l n => insNat n l) []

/-- A form that names registers by the numbers in B: B itself must be written and grouped before its numbers are looked at, and a
number of 128 or more raises REGGROUP before anything is read or written (spec/15_vector_instructions.md R273), and so before POISON
(spec/09_translation_and_faults.md R164). -/
def indexedForm (b : BitVec 5) (k : BitVec 3) (f : VForm) (regs : List Nat → VForm → VForm) (run : Strand → Strand) (s : State) :
    Out :=
  let t := s.me
  match vGate { t with marks := [], badK := [] } f with
  | .go =>
    match badRegLane t b k with
    | some i => .next (raise { Trap.plain .regGroup with index := BitVec.ofNat 32 i } s)
    | none => vectorForm (regs (namedRegs t b k) f) run s
  | _ => vectorForm f run s

def execVrix (d b : BitVec 5) (_y : BitVec 1) (k : BitVec 3) (s : State) : Out :=
  let t := s.me
  indexedForm b k ⟨[t.sewOp b], [t.sewOp d], [], [], [k.toNat], []⟩ (fun l f => { f with reads := l })
    (fun t =>
      let e1 := 16384 / t.sewBits
      t.putOps (t.sewOp d) ((t.lanes k).map (fun i =>
        (i, t.elem ⟨t.elem (t.sewOp b) i, t.sewBits⟩ (i % e1))))) s

/-- Where two lanes coincide, the higher one's value stands: it is written later. -/
def execVrixw (a b : BitVec 5) (_x _y : BitVec 1) (k : BitVec 3) (s : State) : Out :=
  let t := s.me
  indexedForm b k ⟨[t.sewOp a, t.sewOp b], [], [], [], [k.toNat], []⟩ (fun l f => { f with writes := l })
    (fun t =>
      let e1 := 16384 / t.sewBits
      let l := (t.lanes k).map (fun i => (t.elem (t.sewOp b) i, i % e1, t.elem (t.sewOp a) i))
      l.foldl (fun u x => u.putOp ⟨x.1, t.sewBits⟩ x.2.1 x.2.2) t) s

/-! ### Moves (spec/15_vector_instructions.md R274, R275) -/

def execVmv (d a : BitVec 5) (_x : BitVec 1) (k : BitVec 3) (s : State) : Out :=
  permForm [a] (fun t => (t.lanes k).map (fun i => (i, t.elem (t.sewOp a) i))) d k s

def execVsplat (d a : BitVec 5) (k : BitVec 3) (s : State) : Out :=
  permForm [] (fun t => (t.lanes k).map (fun i => (i, (t.getS a).toNat % 2 ^ t.sewBits))) d k s

def execVext (d a b : BitVec 5) (_x : BitVec 1) (s : State) : Out :=
  let t := s.me
  vectorForm ⟨[t.sewOp a], [], [], [], [], []⟩ (fun t =>
    let i := (t.getS b).toNat
    t.setS d (if i < t.vl.toNat then BitVec.ofNat 64 (t.elem (t.sewOp a) i) else 0#64)) s

def execVins (d a b : BitVec 5) (s : State) : Out :=
  let t := s.me
  vectorForm ⟨[], [t.sewOp d], [], [], [], []⟩ (fun t =>
    let i := (t.getS b).toNat
    if i < t.vl.toNat then t.putOp (t.sewOp d) i ((t.getS a).toNat % 2 ^ t.sewBits) else t) s

/-- The mask selects, and every lane below VL is written. -/
def execVsel (d a b : BitVec 5) (_x _y : BitVec 1) (k : BitVec 3) (s : State) : Out :=
  permForm [a, b] (fun t =>
    let m := t.getK k.toNat
    (List.range t.vl.toNat).map (fun i =>
      (i, t.elem (t.sewOp (if m.getLsbD i then a else b)) i))) d k s

/-- A whole register copied; a number of 128 or more raises REGGROUP (spec/15_vector_instructions.md R275), at VL = 0 too: R28 and R30 do not
say which comes first (DESIGN CHOICE, Assumption 61). -/
def wholeMove (num : Word) (src dst : Nat) (s : State) : Out :=
  if 128 ≤ num.toNat then .next (raise (Trap.plain .regGroup) s)
  else vectorForm ⟨[], [], [src], [dst], [], []⟩ (fun t => t.setV dst (t.getV src)) s

def execVmvi (d a : BitVec 5) (s : State) : Out :=
  wholeMove (s.me.getS a) (s.me.getS a).toNat d.toNat s
def execVmvo (d a : BitVec 5) (_x : BitVec 1) (s : State) : Out :=
  wholeMove (s.me.getS d) a.toNat (s.me.getS d).toNat s

/-! ### Mask operations (spec/15_vector_instructions.md R276, R277) -/

/-- Bits below VL of a mask. -/
def Strand.belowVl (t : Strand) (m : KReg) : KReg := m &&& BitVec.ofNat 2048 (2 ^ t.vl.toNat - 1)

/-- Writes bits 0 to VL - 1 of a mask register; the rest keeps its value (spec/02_strand_registers.md R32). -/
def Strand.putMask (t : Strand) (k : BitVec 3) (m : KReg) : Strand :=
  t.setK k.toNat (t.belowVl m ||| (t.getK k.toNat &&& ~~~(BitVec.ofNat 2048 (2 ^ t.vl.toNat - 1))))

/-- A form that writes a mask from two masks. -/
def kForm (f : KReg → KReg → KReg) (d a b : BitVec 3) (s : State) : Out :=
  vectorForm ⟨[], [], [], [], [a.toNat, b.toNat], [d.toNat]⟩
    (fun t => t.putMask d (f (t.getK a.toNat) (t.getK b.toNat))) s

def execKand (d a b : BitVec 3) (s : State) : Out := kForm (fun x y => x &&& y) d a b s
def execKor (d a b : BitVec 3) (s : State) : Out := kForm (fun x y => x ||| y) d a b s
def execKxor (d a b : BitVec 3) (s : State) : Out := kForm (fun x y => x ^^^ y) d a b s
def execKandn (d a b : BitVec 3) (s : State) : Out := kForm (fun x y => x &&& ~~~y) d a b s

/-- The lowest set bit of a mask below VL. -/
def Strand.lowest (t : Strand) (m : KReg) : Option Nat := firstBelow (fun i => m.getLsbD i) t.vl.toNat

def execKpopc (d : BitVec 5) (a : BitVec 3) (s : State) : Out :=
  vectorForm ⟨[], [], [], [], [a.toNat], []⟩ (fun t => t.setS d (BitVec.ofNat 64 (t.lanes a).length)) s
def execKfirst (d : BitVec 5) (a : BitVec 3) (s : State) : Out :=
  vectorForm ⟨[], [], [], [], [a.toNat], []⟩ (fun t =>
    t.setS d (match t.lowest (t.getK a.toNat) with
      | some i => BitVec.ofNat 64 i
      | none => BitVec.allOnes 64)) s

/-- Ones below the lowest set bit, up to it when `incl`; all ones when none is set. -/
def breakMask (t : Strand) (incl : Bool) (m : KReg) : KReg :=
  match t.lowest m with
  | some i => BitVec.ofNat 2048 (2 ^ (if incl then i + 1 else i) - 1)
  | none => BitVec.allOnes 2048

def execKbrka (d a : BitVec 3) (s : State) : Out := kForm (fun x _ => breakMask s.me false x) d a a s
def execKbrki (d a : BitVec 3) (s : State) : Out := kForm (fun x _ => breakMask s.me true x) d a a s

/-! ### Gang multicast (spec/15_vector_instructions.md R278) -/

/-- The slots of the living members of a strand's gang other than itself. -/
def gangPeers (s : State) (slot : Nat) : List Nat :=
  match s.gang? (s.strand slot).part (s.strand slot).gang with
  | none => []
  | some g => (g.slots.filterMap id).filter (fun k => k != slot)

/-- A strip put into an arrival queue: strips are in the order of their ticks, and of one tick in the order of their senders' ranks. -/
def insertStrip (x : Strip) : List Strip → List Strip
  | [] => [x]
  | y :: rest => if y.tick = x.tick ∧ x.rank < y.rank then x :: y :: rest else y :: insertStrip x rest

/-- A strip arrives: it sets the event flag (spec/17_engine_and_system_instructions.md R334), and a waiting GRECV goes on trying. -/
def pushStrip (x : Strip) (t : Strand) : Strand :=
  { t with
    strips := insertStrip x t.strips
    evFlag := true
    wait := if t.wait = .grecv then .none else t.wait }

/-- The named register must be a multiple of G. -/
def stripOk (t : Strand) (r : BitVec 5) : Bool := r.toNat % 2 ^ t.gm.toNat == 0

/-- Have the other members all a free place in their arrival queues, and a spare each on their cores? -/
def stripRoom (s : State) (peers : List Nat) : Bool :=
  peers.all (fun k => decide ((s.strand k).strips.length < 4) &&
    decide ((peers.filter (fun j => coreOf j == coreOf k)).length ≤ sparesFree s (coreOf k)))

def execGbcast (a : BitVec 5) (_x : BitVec 1) (s : State) : Out :=
  let t := s.me
  if !stripOk t a then .next (raise (Trap.plain .regGroup) s)
  else
    let peers := gangPeers s s.cur
    match vGate t ⟨[], [], [a.toNat], [], [], []⟩ with
    | .trap x => .next (raise x s)
    | .wait => .next s
    | .empty => .next (s.upd Strand.next)
    | .go =>
      if !stripRoom s peers then .next s
      else
        let x : Strip := ⟨s.cycle, t.rank, t.getV a.toNat, []⟩
        .next ((peers.foldl (fun u k => u.updSlot k (pushStrip x)) s).upd Strand.next)

/-- The marks of the poisoned sectors of a strip that a register takes (spec/05_memories.md R103). -/
def stripMarks (d : Nat) (bad : List Nat) : List Mark := bad.map (fun b => ⟨d, 256 * b, 256, .poison, 0, 0⟩)

/-- GRECV waits while its queue is empty. -/
def execGrecv (d : BitVec 5) (s : State) : Out :=
  let t := s.me
  if !stripOk t d then .next (raise (Trap.plain .regGroup) s)
  else match vGate t ⟨[], [], [], [d.toNat], [], []⟩ with
    | .trap x => .next (raise x s)
    | .wait => .next s
    | .empty => .next (s.upd Strand.next)
    | .go =>
      match t.strips with
      | [] => .next (s.upd (fun u => { u with wait := .grecv }))
      | x :: rest => .next (s.upd (fun u =>
        let v := { u with strips := rest }.setV d.toNat x.data
        { v with marks := v.marks ++ stripMarks d.toNat x.bad }.next))

end Sys2Proof.Machine
end

