-- ==== Sys2Proof/Machine/VectorMem.lean ====
section
/-! DEFINITION. Vector memory (spec/15_vector_instructions.md R279 to R286, spec/12_barriers_and_counters.md R211 to R213): the wait
and set of scoreboard slots, the checks of the elements in ascending order, and the accesses that leave. The accesses are
performed at their homes by ACCESS_PERFORMED. -/

namespace Sys2Proof.Machine

open Sys2Proof

/-! ### Scoreboard slots -/

/-- The wait on sw, then the check of ss (spec/12_barriers_and_counters.md R211, spec/02_strand_registers.md R41). -/
def slotGate (t : Strand) (sw ss : BitVec 3) : SlotWait :=
  let bit (j : BitVec 3) : BitVec 8 := if j = 0#3 then 0#8 else 1#8 <<< j.toNat
  match waitSlots t (bit sw) with
  | .error j => .error j
  | .pending => .pending
  | .ready => waitSlots t (bit ss)

/-- ss becomes pending, set by the instruction of this number. -/
def Strand.setSlot (t : Strand) (ss : BitVec 3) (q : Nat) : Strand :=
  if ss = 0#3 then t
  else { t with sbPend := putBit t.sbPend ss.toNat true, sbOwner := tabSet t.sbOwner ss.toNat q }

/-! ### Elements -/

/-- A checked element: its lane, address and place. -/
structure Elem where
  lane : Nat
  va : Word
  place : Place
deriving DecidableEq, Repr

/-- The home's fault that the check of a local element finds: one of its read. A form that also writes meets MEMLOST after issue, as a
store does (spec/05_memories.md R94, R97). -/
def elemFault (s : State) (slot : Nat) (pl : Place) (n : Nat) (need : Need) : Option FaultClass :=
  if !isLocal s pl || !need.reads then none
  else match accessFault s slot pl n true with
    | some .memLost => if need == .read then some .memLost else none
    | x => x

/-- The failure of an element at its home: MEMLOST names the stack. -/
def lostAt (c : FaultClass) (va : Nat) (pl : Place) : Failure :=
  { Failure.at c va with stack := if c = .memLost then some (stackOfPa (placeKey pl).2) else none }

/-- Checks elements in ascending order up to the first that fails (spec/15_vector_instructions.md R280): the elements that pass, the
failure with its lane, and the state with the translations made. -/
def checkElems (slot : Nat) (n : Nat) (need : Need) (acc : Accepts) :
    State → List (Nat × Word) → List Elem × Option (Nat × Failure) × State
  | s, [] => ([], none, s)
  | s, (i, va) :: rest =>
    match locate s (streamCtx s slot) va n n need acc with
    | .error f => ([], some (i, f), s)
    | .ok (pl, s1) =>
      match elemFault s1 slot pl n need with
      | some c => ([], some (i, lostAt c va.toNat pl), s1)
      | none =>
        let (l, f, s2) := checkElems slot n need acc s1 rest
        (⟨i, va, pl⟩ :: l, f, s2)

/-- The elements of a form still to be performed: active, from the restart element on. -/
def Strand.todo (t : Strand) (k : BitVec 3) : List Nat := (t.lanes k).filter (fun i => decide (t.restart ≤ i))

/-- Adds to the counts of unacknowledged scatters (spec/12_barriers_and_counters.md R212). -/
def countScatter (t : Strand) (lanes : List Nat) : Strand :=
  { t with unacked := lanes.foldl (fun u i => tabSet u i (tabGet 0 u i + 1)) t.unacked }

/-- Does a lane's count hold its next element write? -/
def scatterFull (t : Strand) (lanes : List Nat) : Bool := lanes.any (fun i => decide (255 ≤ tabGet 0 t.unacked i))

/-- A group of accesses ready to leave. -/
structure Leave where
  els : List Elem
  fail : Option (Nat × Failure)
  akind : AccessKind
  ss : BitVec 3
  /-- a load: a remote element holds back later instructions -/
  load : Bool
  /-- counted as scatters -/
  scatter : Bool
  /-- VLDFF: an element beyond the first active one truncates VL where it fails after issue -/
  ff : Bool
  /-- VL when a VLDFF that is cut short completes -/
  trunc : Option Nat
  /-- the accesses, given whether the form is cut short by a fault -/
  accs : Bool → List (Elem × Nat × AccessOp)

/-- The accesses leave (spec/15_vector_instructions.md R280). Where an element fails, only those below it leave, the strand waits for
them and then meets the fault at the element; where none is below it, the fault is raised. `s0` is the state to keep when the
instruction is not ready; `fin` is the strand's own effect when the form has issued whole. -/
def vmLeave (x : Leave) (fin : Strand → Strand) (s0 s : State) : Out :=
  let t := s.me
  match x.fail, x.els with
  | some (e, f), [] =>
    .next (raiseFail f x.akind e (s.upd (fun u => { u with restart := e })))
  | _, _ =>
    let lanes := x.els.map Elem.lane
    let places := x.els.map Elem.place
    if !tagsFree s (dieOf (coreOf s.cur)) ((x.accs x.fail.isSome).map (fun a => a.1.place)) || (x.scatter && scatterFull t lanes) then .next s0
    else
      let part := x.fail.isSome
      let blocks := part || (x.load && places.any isRemote)
      let (q, s1) := s.nextSeq
      let first := lanes.headD 0
      let send (u : State) (a : Elem × Nat × AccessOp) : State :=
        post u u.cur { Access.plain q a.2.2 a.1.va.toNat a.1.place a.2.1 s.cycle x.akind with
          elem := a.1.lane
          sb := x.ss
          blocks := blocks
          ff := x.ff && decide (first < a.1.lane)
          trunc := x.trunc
          cut := part }
      let s2 := (x.accs part).foldl send s1
      let s3 := s2.upd (fun u =>
        let u1 := u.setSlot x.ss q
        if x.scatter then countScatter u1 lanes else u1)
      match x.fail with
      | some (e, _) => .next (s3.upd (fun u => { u with restart := e, wait := .reply }))
      | none => .next (s3.upd (fun u =>
        if blocks then { fin u with wait := .reply } else { fin u with vl := cutVl (fin u).vl x.trunc }.next))

/-- A form with VL = 0 changes nothing, and sets and clears its slot as though it had completed (spec/02_strand_registers.md R30), which
sets the event flag (spec/17_engine_and_system_instructions.md R334). -/
def emptyForm (ss : BitVec 3) (t : Strand) : Strand := { t with evFlag := t.evFlag || ss != 0#3 }.next

/-- Fault classes of an element that come before POISON (spec/09_translation_and_faults.md R164). -/
def beforePoison (c : FaultClass) : Bool :=
  c == .noncanon || c == .align || c == .nearRange || c == .peerDenied || c == .peerAbsent || c == .trans || c == .perm

/-- The fault that a strand has met between two states. -/
def newFault (before after : Strand) : Option FaultRecord := if after.fault = before.fault then none else after.fault

/-- Did a form, tried in spite of its data registers' marks, meet at its first active element a fault that comes before POISON, having done
nothing else? -/
def elementFirst (before after : Strand) : Bool :=
  (newFault before after).any (fun r => beforePoison r.cls) && after.append == before.append

/-- Do the registers from which a form takes its elements' addresses, and its masks, carry no mark? -/
def addressClean (t : Strand) (f : VForm) (addr : List VOp) : Bool :=
  let regs := addr.flatMap t.liveRegs
  (t.markOf regs .poison).isNone && (t.markOf regs .memLost).isNone && (t.maskTrap f.kr).isNone

/-- The gate of a VM form: slots, then the checks of its register operands (spec/09_translation_and_faults.md R164). The marks of its data
registers raise POISON or MEMLOST after the faults that its lowest active element's address meets, where `addr`, the registers from which its
addresses come, carry none (DEDUCED, Assumption 57). -/
def vmForm (sw ss : BitVec 3) (addr : List VOp) (f : VForm) (body : State → Out) (s : State) : Out :=
  match slotGate s.me sw ss with
  | .error j => .next (raiseSlot s j)
  | .pending => .next s
  | .ready =>
    match vGate s.me f with
    | .trap x =>
      (match (if (x.cls == .poison || x.cls == .memLost) && addressClean s.me f addr then body s else .next s) with
        | .next s1 => if elementFirst s.me s1.me then .next s1 else .next (raise x s)
        | _ => .next (raise x s))
    | .wait => .next s
    | .empty => .next (s.upd (emptyForm ss))
    | .go => body s

/-! ### Addresses (spec/15_vector_instructions.md R279) -/

/-- s[a] + i × n. -/
def unitAddr (t : Strand) (a : BitVec 5) (i : Nat) : Word := t.getS a + BitVec.ofNat 64 (i * (t.sewBits / 8))
/-- s[a] + i × s[b]. -/
def strideAddr (t : Strand) (a b : BitVec 5) (i : Nat) : Word := t.getS a + BitVec.ofNat 64 i * t.getS b
/-- s[a] + B[i] × n. -/
def indexAddr (t : Strand) (a b : BitVec 5) (i : Nat) : Word :=
  t.getS a + BitVec.ofNat 64 (t.elem (t.sewOp b) i * (t.sewBits / 8))

/-! ### Loads (spec/15_vector_instructions.md R281 to R283) -/

/-- The accesses of a load into group v; `linked` says which elements set a link. -/
def loadAccs (t : Strand) (v : BitVec 5) (linked : Elem → Bool) (els : List Elem) (_part : Bool) :
    List (Elem × Nat × AccessOp) :=
  let w := t.sewBits
  els.map (fun e => (e, w / 8, .vload (v.toNat + e.lane * w / 16384) (e.lane * w % 16384) (linked e)))

/-- A load form. -/
def loadForm (addr : Strand → Nat → Word) (idx : List (BitVec 5)) (acc : Accepts) (linked : List Elem → Elem → Bool)
    (v : BitVec 5) (k sw ss : BitVec 3) (s : State) : Out :=
  let t := s.me
  vmForm sw ss (idx.map t.sewOp) ⟨idx.map t.sewOp, [t.sewOp v], [], [], [k.toNat], []⟩ (fun s =>
    let t := s.me
    let (els, f, s1) := checkElems s.cur (t.sewBits / 8) .read acc s ((t.todo k).map (fun i => (i, addr t i)))
    vmLeave ⟨els, f, .vectorLoad, ss, true, false, false, none, loadAccs t v (linked els) els⟩ id s s1) s

def execVld (v a : BitVec 5) (k w ss : BitVec 3) (s : State) : Out :=
  loadForm (fun t i => unitAddr t a i) [] acceptsPlain (fun _ _ => false) v k w ss s
def execVlds (v a b : BitVec 5) (k w ss : BitVec 3) (s : State) : Out :=
  loadForm (fun t i => strideAddr t a b i) [] acceptsPlain (fun _ _ => false) v k w ss s
def execVldx (v a b : BitVec 5) (k w ss : BitVec 3) (_c : BitVec 1) (s : State) : Out :=
  loadForm (fun t i => indexAddr t a b i) [b] acceptsPlain (fun _ _ => false) v k w ss s

/-- The line of an element. -/
def elemLine (e : Elem) : Nat := (placeKey e.place).2 / 128

/-- The lines that a VGL links: those of its highest-numbered active elements, at most 512
(spec/12_barriers_and_counters.md R213). -/
def linkLines (els : List Elem) : List Nat :=
  els.reverse.foldl (fun l e => if l.contains (elemLine e) || decide (512 ≤ l.length) then l else l ++ [elemLine e]) []

def execVgl (v a b : BitVec 5) (k w ss : BitVec 3) (_c : BitVec 1) (s : State) : Out :=
  loadForm (fun t i => indexAddr t a b i) [b] acceptsLocal (fun els e => (linkLines els).contains (elemLine e)) v k w ss s

/-- VLDFF: a fault beyond the first active element truncates VL instead, in program order: at once where later instructions may issue, and
otherwise when the elements below have been answered (spec/15_vector_instructions.md R282). -/
def execVldff (v a : BitVec 5) (k w ss : BitVec 3) (s : State) : Out :=
  let t := s.me
  vmForm w ss [] ⟨[], [t.sewOp v], [], [], [k.toNat], []⟩ (fun s =>
    let t := s.me
    let (els, f, s1) :=
      checkElems s.cur (t.sewBits / 8) .read acceptsPlain s ((t.todo k).map (fun i => (i, unitAddr t a i)))
    let leave (f : Option (Nat × Failure)) (e : Option Nat) : Leave :=
      ⟨els, f, .vectorLoad, ss, true, false, true, e, loadAccs t v (fun _ => false) els⟩
    match f, els with
    | some (e, x), _ :: _ => vmLeave (leave none (some e)) id s (afterFail t.part (sidOf s.cur) x s1)
    | f, _ => vmLeave (leave f none) id s s1) s

/-! ### Stores (spec/15_vector_instructions.md R281, R284) -/

/-- A store form; `mk` is the access of an element with its value, given all elements and whether the form is cut. -/
def storeForm (addr : Strand → Nat → Word) (idx : List (BitVec 5)) (acc : Accepts) (kw : List Nat)
    (mk : List Nat → Bool → Word → AccessOp) (v : BitVec 5) (k sw ss : BitVec 3) (s : State) : Out :=
  let t := s.me
  vmForm sw ss (idx.map t.sewOp) ⟨t.sewOp v :: idx.map t.sewOp, [], [], [], [k.toNat], kw⟩ (fun s =>
    let t := s.me
    let n := t.sewBits / 8
    let (els, f, s1) := checkElems s.cur n .write acc s ((t.todo k).map (fun i => (i, addr t i)))
    let accs (part : Bool) : List (Elem × Nat × AccessOp) :=
      els.map (fun e => (e, n, mk (els.map elemLine) part (BitVec.ofNat 64 (t.elem (t.sewOp v) e.lane))))
    vmLeave ⟨els, f, .vectorStore, ss, false, true, false, none, accs⟩ id s s1) s

def execVst (v a : BitVec 5) (k w ss : BitVec 3) (_c : BitVec 1) (s : State) : Out :=
  storeForm (fun t i => unitAddr t a i) [] acceptsPlain [] (fun _ _ x => .vstore x) v k w ss s
def execVsts (v a b : BitVec 5) (k w ss : BitVec 3) (_c : BitVec 1) (s : State) : Out :=
  storeForm (fun t i => strideAddr t a b i) [] acceptsPlain [] (fun _ _ x => .vstore x) v k w ss s
def execVstx (v a b : BitVec 5) (k w ss : BitVec 3) (_c : BitVec 1) (s : State) : Out :=
  storeForm (fun t i => indexAddr t a b i) [b] acceptsPlain [] (fun _ _ x => .vstore x) v k w ss s

/-- The lines of the elements of a VSC that were performed before a restart, by the translations in force. -/
def linesBelow (s : State) (t : Strand) (k : BitVec 3) (addr : Nat → Word) : List Nat :=
  ((t.lanes k).filter (fun i => decide (i < t.restart))).filterMap (fun i =>
    match locate s (streamCtx s s.cur) (addr i) (t.sewBits / 8) 1 .write acceptsLocal with
    | .ok (.mem pa _, _) => some (pa / 128)
    | _ => none)

/-- VSC: one at a time, since its failed lanes are gathered until it completes. A form cut by a fault releases no link yet. -/
def execVsc (v a b : BitVec 5) (k w ss : BitVec 3) (_c : BitVec 1) (s : State) : Out :=
  let other := s.me.out.any (fun x => match x.op with
    | .vsc _ _ _ => true
    | _ => false)
  if other then .next s
  else
    let below := linesBelow s s.me k (indexAddr s.me a b)
    storeForm (fun t i => indexAddr t a b i) [b] acceptsLocal [k.toNat]
      (fun lines part x => .vsc x k (if part then [] else lines ++ below)) v k w ss s

/-! ### VAPPEND (spec/15_vector_instructions.md R285) -/

/-- The element writes of a VAPPEND whose update has been made. -/
def appendWrites (v b : BitVec 5) (k ss : BitVec 3) (r : Append) (s0 s : State) : Out :=
  let t := s.me
  let n := t.sewBits / 8
  let ranked := (t.lanes k).zip (List.range (t.lanes k).length)
  let mine := ranked.filter (fun p => decide (t.restart ≤ p.1) && decide (r.start + p.2 < r.cap))
  let (els, f, s1) := checkElems s.cur n .write acceptsPlain s
    (mine.map (fun p => (p.1, BitVec.ofNat 64 (r.base + (r.start + p.2) * n))))
  let accs (_part : Bool) : List (Elem × Nat × AccessOp) :=
    els.map (fun e => (e, n, .vstore (BitVec.ofNat 64 (t.elem (t.sewOp v) e.lane))))
  vmLeave ⟨els, f, .vectorStore, ss, false, true, false, none, accs⟩ (fun u => u.setS b (BitVec.ofNat 64 r.start)) s0 s1

/-- VAPPEND: the update of the descriptor is made once, as one access at its home; then the elements are written. -/
def execVappend (v a b : BitVec 5) (k w ss : BitVec 3) (_c : BitVec 1) (s : State) : Out :=
  let t := s.me
  vmForm w ss [] ⟨[t.sewOp v], [], [], [], [k.toNat], []⟩ (fun s =>
    let t := s.me
    match t.append with
    | some r => appendWrites v b k ss r s s
    | none =>
      match locate s (streamCtx s s.cur) (t.getS a) 32 32 .readWrite acceptsPlain with
      | .error f => .next (raiseFail f .atomic 0 s)
      | .ok (pl, s1) =>
        let here := isLocal s1 pl
        if accessHeld s1 s.cur pl 32 || !tagsFree s1 (dieOf (coreOf s.cur)) [pl] || scatterFull t (t.lanes k) then .next s
        else match (if here then accessFault s1 s.cur pl 32 true else none) with
        | some c => .next (raise ⟨c, .atomic, t.getS a, 0#32, false, false⟩ (lostLog s1.cur pl (t.getS a).toNat c s1))
        | none =>
          let (q, s2) := s1.nextSeq
          let x := { Access.plain q (.append (t.lanes k).length) (t.getS a).toNat pl 32 s.cycle .atomic with
            blocks := true }
          let i := t.out.length
          let s3 := post s2 s.cur x
          if here then
            let s4 := performAt s3 s.cur i { x with tag := (nth x (s3.strand s.cur).out i).tag } (.value 0#512)
            match (s4.strand s.cur).append with
            | some r => appendWrites v b k ss r s4 s4
            | none => .next s4
          else .next (s3.upd (fun u => { u with wait := .reply }))) s

/-! ### VRRED (spec/15_vector_instructions.md R286, spec/05_memories.md R100) -/

/-- The elements grouped by line, in their order. -/
def byLine (els : List Elem) : List (List Elem) :=
  els.foldl (fun acc e =>
    match acc.reverse with
    | (x :: xs) :: rest =>
      if elemLine x == elemLine e && (placeKey x.place).1 == (placeKey e.place).1 then
        (((x :: xs) ++ [e]) :: rest).reverse
      else acc ++ [[e]]
    | _ => acc ++ [[e]]) []

/-- The elements grouped by request (spec/05_memories.md R100): those whose homes are on this package by line, and then those of each other
package together, in their order. -/
def byHome (s : State) (els : List Elem) : List (List Elem) :=
  let near := els.filter (fun e => isLocal s e.place)
  let far := els.filter (fun e => !isLocal s e.place)
  byLine near ++ (far.map (fun e => (placeKey e.place).1)).eraseDups.map (fun q => far.filter (fun e => (placeKey e.place).1 == q))

/-- The least address among the elements of a request, and how many bytes it spans, in memory or as the strand addresses them. -/
def requestSpan (e : Elem) (rest : List Elem) : Nat × Nat :=
  let at_ (x : Elem) : Nat := (placeKey x.place).2
  let base := rest.foldl (fun m x => min m (at_ x)) (at_ e)
  let top := rest.foldl (fun m x => max m (at_ x)) (at_ e)
  (base, max (top + 4 - base) (((rest.getLastD e).va - e.va).toNat + 4))

/-- The place of a request whose first byte is at an address. -/
def placeFrom (pl : Place) (base : Nat) : Place :=
  match pl with
  | .remote q _ => .remote q base
  | _ => pl

/-- A VRRED that has issued whole takes the flags of its interrupted parts with it: its last access carries them, and where nothing was left
to leave the form is complete (spec/15_vector_instructions.md R286). -/
def wholeFlags (els : List Elem) (t : Strand) : Strand :=
  let u := { t with heldFlags := 0#5 }
  match els, t.out.getLast? with
  | _ :: _, some a => handFlags u a t.heldFlags
  | _, _ => { u with vstat := u.vstat ||| t.heldFlags }

/-- VRRED. -/
def execVrred (v a b : BitVec 5) (k w ss : BitVec 3) (_c : BitVec 1) (s : State) : Out :=
  let t := s.me
  let word := t.getS b
  let fa := fwFA word
  let width := (codeWidth fa).getD t.sewBits
  let op : VOp := ⟨v.toNat, width⟩
  match slotGate t w ss with
  | .error j => .next (raiseSlot s j)
  | .pending => .next s
  | .ready =>
    if (codeWidth fa).isSome && !t.grouped op then .next (raise (Trap.plain .regGroup) s)
    else if !fwOk word || !isSourceCode fa || fwFD word ≠ 0x01#8 then .next (raise (Trap.plain .format) s)
    else vmForm w ss [] ⟨[op], [], scaleReads fa (fwZA word), [], [k.toNat], []⟩ (fun s =>
      let t := s.me
      let at_ (i : Nat) : Word := t.getS a + BitVec.ofNat 64 (4 * i)
      let (els, f, s1) := checkElems s.cur 4 .readWrite acceptsFar s ((t.todo k).map (fun i => (i, at_ i)))
      let one (l : List Elem) : Option (Elem × Nat × AccessOp) :=
        match l with
        | [] => none
        | e :: rest =>
          let (base, n) := requestSpan e rest
          let add (x : Elem) : Nat × BitVec 32 × BitVec 20 :=
            ((placeKey x.place).2 - base, BitVec.ofNat 32 (t.elem op x.lane),
              BitVec.ofNat 20 (t.scaleAt (fwZA word) (x.lane / 32)))
          some ({ e with place := placeFrom e.place base }, n, .reduce fa (roundOf word).ftz ((e :: rest).map add))
      vmLeave ⟨els, f, .vectorStore, ss, false, false, false, none, fun _ => (byHome s els).filterMap one⟩ (wholeFlags els) s s1) s

end Sys2Proof.Machine
end

