-- ==== Sys2Proof/Machine/Matrix.lean ====
section
/-! DEFINITION. Tiles as data: rows and bytes of a frame, the bytes that tile accesses move, scale words, products, conversions,
transposes and sums (spec/03_matrix_registers.md R45, R46, spec/16_matrix_instructions.md R294 to R307,
spec/04_number_formats.md R75 to R77). -/

namespace Sys2Proof.Machine

open Sys2Proof

/-! ### Frames -/

/-- `n` bytes of a frame from a byte on, as one value. -/
def tileGet (t : Tile) (off n : Nat) : Nat := (slice t (8 * off) (8 * n)).toNat

/-- `n` bytes of a frame replaced. -/
def tilePut (t : Tile) (off n x : Nat) : Tile := putSlice t (8 * off) (8 * n) (BitVec.ofNat (8 * n) x)

/-- Element (row, k) of the A and B views at width w (spec/03_matrix_registers.md R45). -/
def rowElem (t : Tile) (w row k : Nat) : Nat := (slice t (4096 * row + k * w) w).toNat

/-- Element (row, k) replaced. -/
def putRowElem (t : Tile) (w row k x : Nat) : Tile := putSlice t (4096 * row + k * w) w (BitVec.ofNat w x)

/-- Element (i, j) of the ACC48 view. -/
def accElem (t : Tile) (i j : Nat) : Nat := (slice t (3072 * i + 48 * j) 48).toNat

/-- Element (i, j) of the ACC48 view replaced. -/
def putAccElem (t : Tile) (i j x : Nat) : Tile := putSlice t (3072 * i + 48 * j) 48 (BitVec.ofNat 48 x)

/-- The part of a frame that the ACC48 view holds; the rest reads as zero. -/
def accPart (t : Tile) : Tile := (slice t 0 196608).setWidth 262144

/-- Elements per row of a width (spec/03_matrix_registers.md R46). -/
def rowCap (w : Nat) : Nat := 4096 / w

/-- Rows and columns as pairs, ascending. -/
def pairs (m n : Nat) : List (Nat × Nat) := (List.range m).flatMap (fun i => (List.range n).map (fun j => (i, j)))

/-! ### Rows of a tile in memory (spec/16_matrix_instructions.md R294 to R296) -/

/-- The views of TLOAD and TSTORE. -/
inductive View where
  | a | b | c
deriving DecidableEq, Repr

/-- A run of bytes that a tile access moves: memory row, byte within the row, byte of the frame, bytes. -/
structure Run where
  row : Nat
  off : Nat
  frame : Nat
  n : Nat
deriving DecidableEq, Repr

/-- Cuts `n` bytes from an offset on at multiples of 32 of the offset: sectors, since base and stride are multiples of 64. -/
def sectorRuns (row off frame : Nat) : Nat → Nat → List Run
  | 0, _ => []
  | _, 0 => []
  | k + 1, n + 1 =>
    let m := min (n + 1) (32 - off % 32)
    ⟨row, off, frame, m⟩ :: sectorRuns row (off + m) (frame + m) k (n + 1 - m)

/-- The granted rows of a view. -/
def viewRows (v : View) (g : Grant) : Nat :=
  match v with
  | .b => g.tn.toNat
  | _ => g.tm.toNat

/-- The bytes that TLOAD and TSTORE move with lay = 00 (spec/16_matrix_instructions.md R295). -/
def plainRuns (v : View) (g : Grant) : List Run :=
  (List.range (viewRows v g)).flatMap (fun r =>
    match v with
    | .c => sectorRuns r 0 (384 * r) 13 (6 * g.tn.toNat)
    | _ => sectorRuns r 0 (512 * r) 17 g.kb.toNat)

/-- The elements that a layout moves (spec/16_matrix_instructions.md R296), ordered by memory row and by address within it: one run per
element. -/
def layRuns (lay : BitVec 2) (v : View) (g : Grant) : List Run :=
  let rows := viewRows v g
  if lay = 1#2 then
    (List.range 64).flatMap (fun r => (pairs 8 32).filterMap (fun qj =>
      let i := 32 * (r / 32) + qj.2
      let k := 32 * qj.1 + r % 32
      if i < rows ∧ k < g.kb.toNat / 2 then some ⟨r, 2 * (32 * qj.1 + qj.2), 512 * i + 2 * k, 2⟩ else none))
  else
    (List.range 64).flatMap (fun r => (pairs 8 64).filterMap (fun qj =>
      let k := 64 * qj.1 + r
      if qj.2 < rows ∧ k < g.kb.toNat then some ⟨r, 64 * qj.1 + qj.2, 512 * qj.2 + k, 1⟩ else none))

/-- The bytes that a TLOAD or TSTORE moves. -/
def tileRuns (lay : BitVec 2) (v : View) (g : Grant) : List Run :=
  if lay = 0#2 then plainRuns v g else layRuns lay v g

/-! ### Scale words of tiles (spec/16_matrix_instructions.md R299) -/

/-- The number of scale registers of an operand. -/
def scaleCount (c : BitVec 8) : Nat := if c = 0x22#8 then 4 else if isBfpCode c then 2 else 0

/-- The scale registers of an operand, from Z on. -/
def scaleRegs (c : BitVec 8) (z : Nat) : List Nat := (List.range (scaleCount c)).map (fun i => (z + i) % 128)

/-- The slot of block b of row i: register and slot within it. -/
def scaleSlot (c : BitVec 8) (i b : Nat) : Nat × Nat :=
  let cap := rowCap ((codeWidth c).getD 8)
  let t := i * cap / 32 + b
  (t / 512, t % 512)

/-- The scale word of element k of row i, from the captured registers. -/
def tileScale (c : BitVec 8) (zs : List VReg) (i k : Nat) : Nat :=
  let (r, t) := scaleSlot c i (k / 32)
  (slice (nth 0#16384 zs r) (32 * t) 20).toNat

/-- Element (row, k) of a tile under a format code, zero beyond the row's capacity (spec/16_matrix_instructions.md R303). -/
def tileVal (c : BitVec 8) (ftz : Bool) (zs : List VReg) (t : Tile) (row k : Nat) : FVal :=
  match fmtOf c with
  | none => .fin false 0 0 false
  | some f =>
    let w := fmtWidth f
    if rowCap w ≤ k then .fin false 0 0 false
    else match f with
      | .bfp g => decodeBfp g (tileScale c zs row k) (rowElem t w row k)
      | f => decodeFmt f ftz (rowElem t w row k)

/-- The integer of element (row, k) of a tile. -/
def tileInt (c : BitVec 8) (t : Tile) (row k : Nat) : Int :=
  match fmtOf c with
  | some (.int n) => if rowCap n ≤ k then 0 else signedOf n (rowElem t n row k)
  | some (.uint n) => if rowCap n ≤ k then 0 else ((rowElem t n row k : Nat) : Int)
  | _ => 0

/-! ### Products (spec/04_number_formats.md R76, R77) -/

/-- An integer in the 48-bit accumulator: wrapped without SAT; with SAT clamped, and a clamp sets SAT (spec/04_number_formats.md R76). -/
def acc48 (sat : Bool) (x : Int) : Nat × Flags :=
  let y := max (-(2 ^ 47)) (min (2 ^ 47 - 1) x)
  if sat then (wrapInt 48 y, flIf (x != y) flSAT) else (wrapInt 48 x, 0#5)

/-- The exact sum of the products of one group, and NV where it is a NaN; a zero sum is +0 (spec/04_number_formats.md R77). -/
def groupSum (a b : Nat → FVal) (lo hi : Nat) : FVal × Flags :=
  let s := (List.range (hi - lo)).foldl (fun acc i =>
    (addV false acc (mulV (a (lo + i)) (b (lo + i))).1).1) (.fin false 0 0 false)
  match s with
  | .nan x => (.nan x, flNV)
  | s => (if s.isZero then .fin false 0 0 false else s, 0#5)

/-- One floating output with the flags of its steps: groups of 32 from k = 0, each rounded and added with rounding to ACC48
(spec/04_number_formats.md R75, R77). -/
def dotAcc (start : Nat) (a b : Nat → FVal) (k : Nat) : Nat × Flags :=
  (List.range ((k + 31) / 32)).foldl (fun acc g =>
    let (sum, f0) := groupSum a b (32 * g) (min (32 * g + 32) k)
    let (s, f1) := encodeAcc sum
    let (x, f2) := addV false (decodeAcc acc.1) (decodeAcc s)
    let (y, f3) := encodeAcc x
    (y, acc.2 ||| f0 ||| f1 ||| f2 ||| f3)) (start, 0#5)

/-- One integer output with its flags (spec/04_number_formats.md R76, R77). -/
def dotInt (start : Nat) (sat : Bool) (a b : Nat → Int) (k : Nat) : Nat × Flags :=
  (List.range ((k + 31) / 32)).foldl (fun acc g =>
    let lo := 32 * g
    let s := (List.range (min (lo + 32) k - lo)).foldl (fun x i => x + a (lo + i) * b (lo + i)) (0 : Int)
    let (y, fl) := acc48 sat (signedOf 48 acc.1 + s)
    (y, acc.2 ||| fl)) (start, 0#5)

/-- TMMA (spec/16_matrix_instructions.md R303): `d` is the old D, zero in set mode. The flags that R76 and R77 of
spec/04_number_formats.md give the arithmetic end here: TMMA sets no VSTAT flag (R303; spec/02_strand_registers.md R40). -/
def tmmaTile (fw : Word) (g : Grant) (zs : List VReg) (a b d : Tile) : Tile :=
  let fa := fwFA fw
  let fb := fwFB fw
  let r := roundOf fw
  let za := zs.take (scaleCount fa)
  let zb := zs.drop (scaleCount fa)
  let k := g.tk.toNat
  let out (i j : Nat) : Nat :=
    if isIntCode fa then (dotInt (accElem d i j) r.sat (tileInt fa a i) (tileInt fb b j) k).1
    else (dotAcc (accElem d i j) (tileVal fa r.ftz za a i) (tileVal fb r.ftz zb b j) k).1
  (pairs g.tm.toNat g.tn.toNat).foldl (fun t ij => putAccElem t ij.1 ij.2 (out ij.1 ij.2)) (accPart d)

/-- TADD over all elements (spec/16_matrix_instructions.md R307). The flags of its arithmetic (spec/04_number_formats.md R75, R76) end here:
TADD sets no VSTAT flag. -/
def taddTile (fw : Word) (a b : Tile) : Tile :=
  let sat := (roundOf fw).sat
  (pairs 64 64).foldl (fun t ij =>
    let x := accElem a ij.1 ij.2
    let y := accElem b ij.1 ij.2
    putAccElem t ij.1 ij.2
      (if fwFA fw = 0x10#8 then (acc48 sat (signedOf 48 x + signedOf 48 y)).1
       else (encodeAcc (addV false (decodeAcc x) (decodeAcc y)).1).1)) 0#262144

/-- TTRANS (spec/16_matrix_instructions.md R305). -/
def ttransTile (a : Tile) : Tile :=
  (pairs 64 256).foldl (fun t ik =>
    putRowElem t 16 ik.1 ik.2
      (rowElem a 16 (32 * (ik.1 / 32) + ik.2 % 32) (32 * (ik.2 / 32) + ik.1 % 32))) 0#262144

/-- VTOM: four rows from a row on, modulo 64 (spec/16_matrix_instructions.md R304). -/
def vtomTile (v : VReg) (row : Nat) (d : Tile) : Tile :=
  (List.range 4).foldl (fun t j => putSlice t (4096 * ((row + j) % 64)) 4096 (slice v (4096 * j) 4096)) d

/-- MTOV (spec/16_matrix_instructions.md R304). -/
def mtovReg (a : Tile) (row : Nat) : VReg :=
  (List.range 4).foldl (fun v j => putSlice v (4096 * j) 4096 (slice a (4096 * ((row + j) % 64)) 4096)) 0#16384

/-! ### TCVT (spec/16_matrix_instructions.md R306) -/

/-- What a TCVT gathers: the tile, flags, the matrix bank, and scale words by register, slot and value. -/
structure Converted where
  tile : Tile
  fl : Flags
  bank : Bank
  scales : List (Nat × Nat × Nat)
deriving DecidableEq, Repr

/-- The value of an accumulator element, and the integer it is under FA = 0x10. -/
def accVal (fa : BitVec 8) (x : Nat) : FVal × Option Int :=
  if fa = 0x10#8 then (fvalOfInt (signedOf 48 x), some (signedOf 48 x)) else (decodeAcc x, none)

/-- One draw of the matrix bank under SR (spec/04_number_formats.md R68): each granted element of a TCVT takes one, also where it is not
rounded, as in a block of zeros, a NaN, an infinity or an integer that goes to an integer (DESIGN CHOICE, Assumption 47: R74 does not say
whether such an element draws). -/
def tcvtDraw (r : Round) (b : Bank) (i j : Nat) : Nat × Bank :=
  if r.rm = 5#3 then drawLane b 2049 ((64 * i + j) % 2048) else (0, b)

/-- One element of a plain conversion. -/
def tcvtElem (fw : Word) (f : Fmt) (a : Tile) (c : Converted) (ij : Nat × Nat) : Converted :=
  let r := roundOf fw
  let (g, bank) := tcvtDraw r c.bank ij.1 ij.2
  let (v, src) := accVal (fwFA fw) (accElem a ij.1 ij.2)
  let (e, fl) := encodeFmt f r g v src
  { c with
    tile := putRowElem c.tile (fmtWidth f) ij.1 ij.2 e
    fl := c.fl ||| fl
    bank := bank }

/-- One block of a row, quantised. -/
def tcvtBlock (fw : Word) (f n : Nat) (a : Tile) (c : Converted) (ib : Nat × Nat) : Converted :=
  let r := roundOf fw
  let js := (List.range 32).filterMap (fun k => if 32 * ib.2 + k < n then some (32 * ib.2 + k) else none)
  let pick (acc : List (FVal × Nat) × Bank) (j : Nat) : List (FVal × Nat) × Bank :=
    let (g, bank) := tcvtDraw r acc.2 ib.1 j
    (acc.1 ++ [((accVal (fwFA fw) (accElem a ib.1 j)).1, g)], bank)
  let (xs, bank) := js.foldl pick ([], c.bank)
  let (es, scale, fl) := quantBlock f r.rm maxFiniteAcc xs
  let slot := scaleSlot (fwFD fw) ib.1 ib.2
  { tile := (js.zip es).foldl (fun t je => putRowElem t (fmtWidth (.bfp f)) ib.1 je.1 je.2) c.tile
    fl := c.fl ||| fl
    bank := bank
    scales := c.scales ++ [(slot.1, slot.2, scale)] }

/-- The whole conversion. -/
def tcvtTile (fw : Word) (g : Grant) (bank : Bank) (a : Tile) : Converted :=
  let m := g.tm.toNat
  let n := g.tn.toNat
  let start : Converted := ⟨0#262144, 0#5, bank, []⟩
  match fmtOf (fwFD fw) with
  | some (.bfp f) => (pairs m ((n + 31) / 32)).foldl (tcvtBlock fw f n a) start
  | some f => (pairs m n).foldl (tcvtElem fw f a) start
  | none => start

end Sys2Proof.Machine
end

