-- ==== Sys2Proof/Machine/MatrixQueue.lean ====
section
/-! DEFINITION. The register map, frames, binding, and the life of a matrix command: appended in program order, started at its
queue head, and retired (spec/03_matrix_registers.md R50 to R60, spec/16_matrix_instructions.md R289, R297). M_COMMAND_RETIRE
makes both later moves of a command: it starts the command that is next to start, and it retires a started one. -/

namespace Sys2Proof.Machine

open Sys2Proof

/-! ### The map (spec/03_matrix_registers.md R48, R49) -/

def stZero : BitVec 3 := 0#3
def stAbsent : BitVec 3 := 1#3
def stFilling : BitVec 3 := 2#3
def stClean : BitVec 3 := 3#3
def stDirty : BitVec 3 := 4#3
def stSpilling : BitVec 3 := 5#3

/-- A map entry at strand start. -/
def MapEntry.zero : MapEntry := ⟨0#8, stZero, 0#16⟩

/-- The map entry of a register. -/
def Strand.entry (t : Strand) (r : Nat) : MapEntry := tabGet MapEntry.zero t.map r

/-- Replaces a map entry. -/
def Strand.setEntry (t : Strand) (r : Nat) (e : MapEntry) : Strand := { t with map := tabPut MapEntry.zero t.map r e }

/-- A map entry's state and frame replaced, LSEQ kept. -/
def Strand.moveEntry (t : Strand) (r : Nat) (st : BitVec 3) (f : Nat) : Strand :=
  t.setEntry r ⟨BitVec.ofNat 8 f, st, (t.entry r).lseq⟩

/-- Does the state hold a frame (spec/03_matrix_registers.md R49)? -/
def holdsFrame (st : BitVec 3) : Bool := decide (2 ≤ st.toNat) && decide (st.toNat ≤ 5)

/-- The matrix register a field names (spec/03_matrix_registers.md R44). -/
def Strand.mreg (t : Strand) (f : BitVec 5) : Nat := (t.mw.toNat + f.toNat) % 256

/-- What a register is bound to for the next command (spec/03_matrix_registers.md R52, R55). -/
def bindReg (t : Strand) (r : Nat) : Source :=
  match tabGet Bound.map t.bound r with
  | .cmd i => .cmd i
  | .zero _ => .zero
  | .map =>
    let e := t.entry r
    if e.state = stZero then .zero
    else if e.state = stClean ∨ e.state = stDirty then .frame e.frame.toNat
    else .backing

/-- LSEQ of the registers a command names (spec/03_matrix_registers.md R50). -/
def nameRegs (t : Strand) (seq : BitVec 16) (regs : List Nat) : Strand :=
  regs.foldl (fun u r => u.setEntry r { u.entry r with lseq := seq }) t

/-! ### Frames (spec/03_matrix_registers.md R51 to R53) -/

/-- The key of a frame of a core. -/
def frameKey (core f : Nat) : Nat := core * 256 + f

/-- The frame of a core. -/
def frameOf (s : State) (core f : Nat) : Frame :=
  tabGet ⟨0, 0, 0#6, 0, false, 0#262144, []⟩ s.frames (frameKey core f)

/-- Does a command of the strand read the frame? -/
def frameRead (t : Strand) (f : Nat) : Bool :=
  t.mq.any (fun c => c.srcs.any (fun x => x.2 == .frame f) || c.frame == some f) ||
    t.sendq.any (fun c => match c.reg with
      | some (_, x) => x == .frame f
      | none => false) ||
    t.fillq.any (fun m => m.frame == f) || t.spillq.any (fun m => m.frame == f)

/-- Is the register being spilled? -/
def Strand.spilling (t : Strand) (r : Nat) : Bool := t.spillq.any (fun m => m.reg == r)

/-- Frees the strand's old frames that no reader waits for (spec/03_matrix_registers.md R52). -/
def sweepFrames (s : State) (slot : Nat) : State :=
  let t := s.strand slot
  let keep (kf : Nat × Frame) : Bool :=
    !(kf.2.orphan && kf.1 / 256 == coreOf slot && kf.2.mapbase == t.mapbase && kf.2.part == t.part &&
      !frameRead t (kf.1 % 256))
  { s with frames := s.frames.filter keep }

/-- The register's frame is an old one from now on. -/
def orphanFrame (s : State) (slot r : Nat) : State :=
  let e := (s.strand slot).entry r
  if holdsFrame e.state then
    let k := frameKey (coreOf slot) e.frame.toNat
    { s with frames := tabSet s.frames k { frameOf s (coreOf slot) e.frame.toNat with orphan := true } }
  else s

/-- Is the frame of a core free? -/
def frameFree (s : State) (core f : Nat) : Bool :=
  !tabHas s.frames (frameKey core f) && !s.withdrawn.contains (frameKey core f) &&
    (List.range 4).all (fun j => !(s.strand (4 * core + j)).scrFrames.contains f)

/-- A free frame of a core. Which one is taken is the core's choice (spec/21_program_tile_paging.md); the model takes the lowest-numbered
(Assumption 27, DESIGN CHOICE). -/
def freeFrame (s : State) (core : Nat) : Option Nat := firstBelow (frameFree s core) 256

/-- Is a map of a partition bound to a slot of the core? -/
def mapBound (s : State) (core mapbase : Nat) (p : BitVec 6) : Bool :=
  (List.range 4).any (fun j =>
    let t := s.strand (4 * core + j)
    t.phase != .free && t.mapbase == mapbase && t.part == p)

/-- The frame of an unbound strand whose tag is oldest (spec/03_matrix_registers.md R51). -/
def staleFrame (s : State) (core : Nat) : Option (Nat × Frame) :=
  let mine := s.frames.filter (fun kf => kf.1 / 256 == core && !mapBound s core kf.2.mapbase kf.2.part)
  match mine with
  | [] => none
  | x :: rest => some (rest.foldl (fun a b => if b.2.tick < a.2.tick then b else a) x)

/-- Where the hardware reads and writes its own regions of a strand (spec/03_matrix_registers.md R47). -/
def ownCtx (s : State) (slot : Nat) : Ctx := { tileCtx s slot with own := true }

/-- The physical place of an address of the hardware's own regions for a partition, whether its page is of kind 01, and the state after
the walk, which waits where a row of the bytes is under a self-test (spec/05_memories.md R101); where there is none, the state that the
failed access leaves. -/
def ownPlace (s : State) (p : BitVec 6) (sid : BitVec 11) (va n : Nat) (need : Need) : Except State (Nat × Bool × State) :=
  match locate s { engineCtx p with own := true } (BitVec.ofNat 64 va) n 1 need acceptsLocal with
  | .ok (.mem pa c, s1) => .ok (pa, c, s1.hold (lineTested s1 pa n))
  | .ok _ => .error s
  | .error f => .error (afterFail p sid f s)

/-- A saved strand's map entry in memory becomes ABSENT (spec/03_matrix_registers.md R51). -/
def absentInMemory (s : State) (f : Frame) : State :=
  match ownPlace s f.part noSid (f.mapbase + 8 * f.reg) 8 .readWrite with
  | .error s1 => s1
  | .ok (pa, c, s1) =>
    let w : Word := bytesBv 64 (homeRead s1 pa 8)
    homeWrite s1 none pa (bvBytes (putSlice w 0 11 (1#3 ++ 0#8))) c

/-- Takes a frame for a register: a free one, or the oldest of a strand that is no longer bound. -/
def takeFrame (s : State) (slot r : Nat) : Option (Nat × State) :=
  let t := s.strand slot
  let core := coreOf slot
  let tag : Frame := ⟨t.mapbase, r, t.part, s.cycle, false, 0#262144, []⟩
  match freeFrame s core with
  | some f => some (f, { s with frames := tabSet s.frames (frameKey core f) tag })
  | none =>
    match staleFrame s core with
    | none => none
    | some (k, old) =>
      let s1 := absentInMemory s old
      some (k % 256, { s1 with frames := tabSet s1.frames k tag })

/-- Is the command a TWLOAD? What it releases is the register of a designation that it ends, which it does not name
(spec/21_program_tile_paging.md R380). -/
def isTwload (c : MCommand) : Bool :=
  match c.ins with
  | .twload _ _ _ _ _ => true
  | _ => false

/-- Registers that commands in the queue or the array name. -/
def namedByQueue (t : Strand) (r : Nat) : Bool :=
  t.mq.any (fun c => c.dst == some r || (c.release.contains r && !isTwload c) || c.srcs.any (fun x => x.1 == r))

/-- The age of a register (spec/03_matrix_registers.md R50). -/
def regAge (t : Strand) (r : Nat) : Nat := (t.mseq - (t.entry r).lseq).toNat

/-- The oldest register of a state that no command names, the lowest-numbered among equals. -/
def oldestIn (t : Strand) (st : BitVec 3) : Option Nat :=
  let c := (t.map.filter (fun e => e.2.state == st && !namedByQueue t e.1)).map (fun e => e.1)
  match c with
  | [] => none
  | x :: rest => some (rest.foldl (fun a b => if regAge t a < regAge t b then b else a) x)

/-- Sends that were to read a frame read the backing area instead, which holds the same value (spec/17_engine_and_system_instructions.md
R325). -/
def sendsToBacking (t : Strand) (f : Nat) : Strand :=
  { t with sendq := t.sendq.map (fun c => match c.reg with
    | some (r, x) => if x = .frame f then { c with reg := some (r, .backing) } else c
    | none => c) }

/-- What the victim rule did. -/
inductive Room where
  /-- a frame fell free, or one was free -/
  | made (s : State)
  /-- a spill has started, or is under way -/
  | spilling (s : State)
  /-- no victim is left: what the rule has freed stays free -/
  | full (s : State)

/-- One victim of the strand's own frames (spec/03_matrix_registers.md R53). -/
def oneVictim (s : State) (slot : Nat) : Room :=
  let t := s.strand slot
  match oldestIn t stClean with
  | some r =>
    let k := frameKey (coreOf slot) (t.entry r).frame.toNat
    .made { s.setStrand slot (sendsToBacking (t.moveEntry r stAbsent 0) (t.entry r).frame.toNat) with
      frames := tabErase s.frames k }
  | none =>
    match oldestIn t stDirty with
    | some r =>
      let f := (t.entry r).frame.toNat
      let t1 := t.moveEntry r stSpilling f
      .spilling (s.setStrand slot { t1 with spillq := t1.spillq ++ [⟨r, f, 0, s.cycle⟩] })
    | none => .full s

/-- Makes the frames held at most a bound, victim by victim: the spills already under way count as frames about to free. -/
def makeRoom (slot limit : Nat) : Nat → State → Room
  | 0, s => .full s
  | n + 1, s =>
    let held := (heldFrames s slot).length
    let spills := (s.strand slot).spillq.length
    if held ≤ limit then .made s
    else if held ≤ limit + spills then .spilling s
    else
      match oneVictim s slot with
      | .made s1 => makeRoom slot limit n s1
      | .spilling s1 =>
        (match makeRoom slot limit n s1 with
          | .full s2 => .spilling s2
          | r => r)
      | .full s1 => if spills = 0 then .full s1 else .spilling s1

/-- Brings the frames that a strand holds for registers down to FQ by the victim rule, when FQ has fallen (spec/03_matrix_registers.md R51,
R53): clean frames are freed and spills start at once; frames that commands name stay until the commands complete. -/
def evictToQuota (s : State) (slot : Nat) : State :=
  match makeRoom slot (s.strand slot).fq.toNat 600 s with
  | .made u => u
  | .spilling u => u
  | .full u => u

/-! ### Appending (spec/16_matrix_instructions.md R289, spec/03_matrix_registers.md R52) -/

/-- What an M instruction says when it issues. -/
structure MSpec where
  ins : Instr
  srcs : List Nat
  dst : Option Nat
  /-- registers released to ZERO in program order after it -/
  release : List Nat
  /-- registers it names besides -/
  names : List Nat
  fmt : Word
  base : Word
  stride : Word
  vin : List Nat
  vout : List Nat
  pop : BitVec 2
  push : BitVec 2

/-- Appends a command: sources bind, names get its sequence number, and the registers it writes or releases are bound to it. A register
that it both writes and releases is released: the hint takes effect after the command (spec/03_matrix_registers.md R55). -/
def appendCommand (x : MSpec) (id : Nat) (t : Strand) : Strand :=
  let seq := t.mseq + 1#16
  let srcs := x.srcs.map (fun r => (r, bindReg t r))
  let named := x.srcs ++ x.dst.toList ++ x.names
  let c : MCommand := {
    id := id
    ins := x.ins
    pc := t.pc
    dst := x.dst
    srcs := srcs
    release := x.release
    grant := t.tsh
    fmt := x.fmt
    base := x.base
    stride := x.stride
    vals := x.vin.map t.getV
    vsrc := x.vin
    vdst := x.vout
    pop := x.pop
    push := x.push
    started := false
    since := 0
    frame := none
    faulted := false
    tag := none
    out := false
    vold := []
    vover := [] }
  let b1 := match x.dst with
    | some r => tabPut Bound.map t.bound r (.cmd id)
    | none => t.bound
  let b2 := x.release.foldl (fun b r => tabPut Bound.map b r (.zero id)) b1
  nameRegs { t with mq := t.mq ++ [c], mseq := seq, bound := b2 } seq named

/-- An M instruction issues: not while its queue is full (a started command has left it, spec/01_execution_model.md R8, R9), nor before the vector
registers it reads are there, and loads have
written those that it writes; a marked element that it would read traps. `after` is its further effect on the strand. -/
def mIssue (x : MSpec) (after : Strand → Strand) (s : State) : Out :=
  let t := s.me
  if 32 ≤ (t.mq.filter (fun c => !c.started)).length || x.vin.any t.vBusy || x.vout.any t.vLoading then .next s
  else match t.markTrap x.vin with
    | some tr => .next (raise tr s)
    | none =>
      let (q, s1) := s.nextSeq
      .next (s1.upd (fun t => (after (appendCommand x q t)).next))

/-! ### Addresses of a tile command -/

/-- The layout, view and direction of a TLOAD or TSTORE. -/
def tileForm (i : Instr) : Option (BitVec 2 × View × Bool) :=
  match i with
  | .tloadA _ _ _ y _ _ => some (y, .a, true)
  | .tloadB _ _ _ y _ _ => some (y, .b, true)
  | .tloadC _ _ _ _ _ => some (0#2, .c, true)
  | .tstoreA _ _ _ _ _ => some (0#2, .a, false)
  | .tstoreB _ _ _ _ _ => some (0#2, .b, false)
  | .tstoreC _ _ _ _ _ => some (0#2, .c, false)
  | _ => none

/-- The address of a run. -/
def runVa (c : MCommand) (r : Run) : Word := c.base + BitVec.ofNat 64 r.row * c.stride + BitVec.ofNat 64 r.off

/-- Where one run of a tile command goes. -/
def locateRun (s : State) (slot : Nat) (c : MCommand) (need : Need) (r : Run) : Except Failure (Place × State) :=
  locate s (tileCtx s slot) (runVa c r) r.n 1 need acceptsPlain

/-- The failure that a row reports: of those of its runs, from its first failing one on, the first in the order of R164. -/
def rowFailure (s : State) (slot : Nat) (c : MCommand) (need : Need) (row : Nat) (f : Failure) (rest : List Run) : Failure :=
  let rank (x : Failure) : Nat := failRank s (s.strand slot).part x.va 1 x.cls
  (rest.takeWhile (fun r => r.row == row)).foldl (fun b r => match locateRun s slot c need r with
    | .ok _ => b
    | .error x => if rank x < rank b then x else b) f

/-- Locates the runs of a tile command in ascending row order, up to the first row that fails (spec/16_matrix_instructions.md R297). -/
def locateRuns (slot : Nat) (c : MCommand) (need : Need) : State → List Run →
    Except (Nat × Failure) (List (Run × Place) × State)
  | s, [] => .ok ([], s)
  | s, r :: rest =>
    match locateRun s slot c need r with
    | .error f => .error (r.row, rowFailure s slot c need r.row f rest)
    | .ok (pl, s1) =>
      match locateRuns slot c need s1 rest with
      | .error f => .error f
      | .ok (l, s2) => .ok ((r, pl) :: l, s2)

/-- All the places of a tile command: base and stride must be multiples of 64. -/
def tilePlaces (s : State) (slot : Nat) (c : MCommand) : Except (Nat × Failure) (List (Run × Place) × State) :=
  match tileForm c.ins with
  | none => .ok ([], s)
  | some (lay, v, load) =>
    let runs := tileRuns lay v c.grant
    let need := if load then Need.read else Need.write
    if slice c.base 52 12 ≠ 0#12 then .error (0, Failure.at .noncanon c.base.toNat)
    else if slice c.base 0 6 ≠ 0#6 ∨ slice c.stride 0 6 ≠ 0#6 then .error (0, Failure.at .align c.base.toNat)
    else locateRuns slot c need s runs

/-! ### Formats of commands (spec/16_matrix_instructions.md R301, R302, R306, R307) -/

/-- Codes that TMMA accepts. -/
def isMmaCode (c : BitVec 8) : Bool := isVectorCode c

/-- Does a command's format word fit it? -/
def mFormatOk (c : MCommand) : Bool :=
  let fa := fwFA c.fmt
  let fb := fwFB c.fmt
  let accOk := fa == 0x30#8 || fa == 0x10#8
  match c.ins with
  | .tmma _ _ _ _ _ _ | .tmmaSet _ _ _ _ _ _ | .tmmaSw _ _ _ _ _ _ | .tmmaSetSw _ _ _ _ _ _ =>
    fwOk c.fmt && isMmaCode fa && isMmaCode fb && (isIntCode fa == isIntCode fb)
  | .twload _ _ _ _ _ => fwOk c.fmt && isMmaCode fb
  | .tcvt _ _ _ _ _ _ => fwOk c.fmt && accOk && isVectorCode (fwFD c.fmt)
  | .tadd _ _ _ _ _ _ _ _ => fwOk c.fmt && accOk
  | _ => true

/-! ### Starting (spec/07_queues_and_scheduling.md R118, spec/03_matrix_registers.md R53) -/

/-- What a tile command touches, run by run: the place, where the address has one, the address, and the length. -/
def tileSpans (s : State) (slot : Nat) (c : MCommand) : List (Option (Nat × Nat) × Nat × Nat) :=
  match tileForm c.ins with
  | none => []
  | some (lay, v, load) =>
    (tileRuns lay v c.grant).map (fun r =>
      (match locateRun s slot c (if load then .read else .write) r with
        | .ok (pl, _) => some (placeKey pl)
        | .error _ => none, (runVa c r).toNat, r.n))

/-- Do two runs of bytes meet: by their places, or by their addresses where one has no place? -/
def spansMeet (x y : Option (Nat × Nat) × Nat × Nat) : Bool :=
  let near (a b : Nat) : Bool := decide (a < b + y.2.2) && decide (b < a + x.2.2)
  match x.1, y.1 with
  | some a, some b => a.1 == b.1 && near a.2 b.2
  | _, _ => near x.2.1 y.2.1

/-- Do the bytes of two tile commands overlap? -/
def tilesMeet (s : State) (slot : Nat) (x c : MCommand) : Bool :=
  let l := tileSpans s slot c
  (tileSpans s slot x).any (fun a => l.any (spansMeet a))

/-- Is the command a TLOAD or a TSTORE? -/
def isTile (c : MCommand) : Bool := (tileForm c.ins).isSome

/-- Is the command a TCVT? -/
def isTcvt (c : MCommand) : Bool :=
  match c.ins with
  | .tcvt _ _ _ _ _ _ => true
  | _ => false

/-- Registers that a command writes or releases. -/
def MCommand.changes (c : MCommand) : List Nat := c.dst.toList ++ c.release

/-- Must a command wait for an earlier one of its strand: for its result, for its write of a register that both write or release, for its
draws from the matrix bank (spec/04_number_formats.md R68), or for its accesses to bytes that both touch
(spec/06_memory_ordering.md R112, note 3)? -/
def comesAfter (s : State) (slot : Nat) (x c : MCommand) : Bool :=
  decide (x.id < c.id) && (c.srcs.any (fun y => y.2 == .cmd x.id) || x.changes.any c.changes.contains || (isTcvt x && isTcvt c) ||
    (isTile x && isTile c && !c.out && tilesMeet s slot x c))

/-- Which commands of a strand go back to the queue when one is held: it, and those that cannot run on without one of them; the others that
have started run on (spec/16_matrix_instructions.md R297). -/
def heldWith (s : State) (slot : Nat) (c : MCommand) : List Nat :=
  ((s.strand slot).mq.foldl (fun l x =>
    if x.id = c.id ∨ l.any (fun y => comesAfter s slot y x) = true then l ++ [x] else l) ([] : List MCommand)).map (fun x => x.id)

/-- A command that goes back to the queue unstarted, with its bindings (spec/16_matrix_instructions.md R297). -/
def MCommand.unstart (c : MCommand) : MCommand := { c with started := false, frame := none, tag := none, out := false }

/-- Commands of a strand go back to the queue: their fresh frames are free, and their tags are given back. -/
def unstartAll (s : State) (slot : Nat) (ids : List Nat) : State :=
  let back := (s.strand slot).mq.filter (fun c => ids.contains c.id)
  let frames := back.foldl (fun l c => match c.frame with
    | some n => tabErase l (frameKey (coreOf slot) n)
    | none => l) s.frames
  let s1 := back.foldl (fun u c => giveTag u c.tag) s
  { s1.updSlot slot (fun u => { u with mq := u.mq.map (fun c => if ids.contains c.id then c.unstart else c) }) with frames := frames }

/-- A command's fault: it is held unstarted, and the strand is parked with the enqueuing instruction in its record
(spec/16_matrix_instructions.md R297). What cannot run on behind it goes back to the queue with it, so that a save finds it unissued. While
the strand is parked already, the command only waits; while it is being saved, the command is held so that it is saved unstarted. -/
def mFault (s : State) (slot : Nat) (c : MCommand) (f : Failure) (row : Nat) : State :=
  let t := s.strand slot
  if t.phase = .free ∨ t.phase = .parked then s
  else
    let k := fun (x : MCommand) => if x.id = c.id then { x with faulted := true } else x
    let s1 := (unstartAll s slot (heldWith s slot c)).updSlot slot (fun u => { u with mq := u.mq.map k })
    if t.fault.isSome then s1
    else raiseAt (afterFail t.part (sidOf slot) f s1) slot c.pc ⟨f.cls, .tile, BitVec.ofNat 64 f.va, BitVec.ofNat 32 row, f.hyp, true⟩

/-- Is the command a TPREF? -/
def isTpref (c : MCommand) : Bool :=
  match c.ins with
  | .tpref _ _ _ => true
  | _ => false

/-- Registers whose fill the command has to start: bound to the backing area and not being filled. A TPREF starts the fill of an ABSENT
register only (spec/03_matrix_registers.md R54, spec/16_matrix_instructions.md R293). -/
def fillsNeeded (t : Strand) (c : MCommand) : List Nat :=
  ((c.srcs.filter (fun x => x.2 == .backing && (!isTpref c || (t.entry x.1).state == stAbsent))).map (fun x => x.1)).foldl
    (fun l r => if l.contains r || t.fillq.any (fun m => m.reg == r) then l else l ++ [r]) []

/-- Distinct source registers that are not in ZERO, and one more for a destination. -/
def framesNeeded (c : MCommand) : Nat :=
  let l := (c.srcs.filter (fun x => x.2 != .zero)).foldl (fun l x => if l.contains x.1 then l else l ++ [x.1]) []
  l.length + boolNat c.dst.isSome

/-- Starts the fills of a command: each takes a frame, and the register becomes FILLING. -/
def startFills (slot : Nat) (c : MCommand) : List Nat → State → Option State
  | [], s => some s
  | r :: rest, s =>
    match takeFrame s slot r with
    | none => none
    | some (f, s1) =>
      startFills slot c rest (s1.updSlot slot (fun t =>
        let t1 := t.moveEntry r stFilling f
        { t1 with fillq := t1.fillq ++ [⟨r, f, c.id, s1.cycle⟩] }))

/-- The backing area of a register of a strand. -/
def backingVa (t : Strand) (r : Nat) : Nat := t.mrbase + r * 32768

/-- The runs of a tile command that lie on other packages. -/
def remoteRuns (l : List (Run × Place)) : List (Run × Place) := l.filter (fun rp => isRemote rp.2)

/-- The requests for lines of other packages that a tile load makes, in the order of its runs: neighbouring runs within a sector are one
request. -/
def tileAsks : List (Run × Place) → List (BitVec 10 × Nat × Nat)
  | [] => []
  | (r, pl) :: rest =>
    let asks := tileAsks rest
    match pl with
    | .remote p pa =>
      (match asks with
        | (q, a, n) :: more =>
          if q = p ∧ a = pa + r.n ∧ (pa + r.n) % 32 ≠ 0 then (p, pa, r.n + n) :: more else (p, pa, r.n) :: asks
        | [] => [(p, pa, r.n)])
    | _ => asks

/-- The requests of a tile load leave, under tags of their own, and are counted (event 0x0008 of spec/02_strand_registers.md R42). -/
def sendTileReads (s : State) (slot : Nat) (l : List (Run × Place)) : State :=
  let reqs := (tileAsks l).map (fun x => .request x.1 x.2.1 x.2.2 (.load 0#5 false))
  countEvent { s with outbox := s.outbox ++ reqs } slot 0x0008 reqs.length

/-- Have the strand's earlier tile commands that overlap this one completed (spec/06_memory_ordering.md R112, note 3)? -/
def tileOrder (s : State) (slot : Nat) (c : MCommand) : Bool :=
  !isTile c || (s.strand slot).mq.all (fun x => decide (c.id ≤ x.id) || !isTile x || !tilesMeet s slot x c)

/-- The frames and fills of a command that starts: fills first, then the frame of its result. -/
def startFrames (s : State) (slot : Nat) (c : MCommand) (fills : List Nat) : Option (Option Nat × State) :=
  match startFills slot c fills s with
  | none => none
  | some s1 => match c.dst with
    | none => some (none, s1)
    | some r => (takeFrame s1 slot r).map (fun (x : Nat × State) => (some x.1, x.2))

/-- A command that has its tokens, addresses and frames starts: requests for lines of other packages leave, and it is the last of its core
to have started (spec/01_execution_model.md R9). `t` is its strand with the tokens popped and reserved. A TPREF of a register that is not
ABSENT has nothing to wait for. -/
def mLaunch (s : State) (slot : Nat) (c : MCommand) (t : Strand) (fr : Option Nat) (tag : Option Nat)
    (places : List (Run × Place)) : State :=
  let mark (x : MCommand) : MCommand :=
    if x.id = c.id then
      { x with
        started := true
        since := s.cycle + 1
        frame := fr
        pop := 0#2
        tag := tag
        srcs := if isTpref c && !(s.strand slot).fillq.any (fun m => m.cmd == c.id) then [] else x.srcs }
    else x
  let s1 := { s.updSlot slot (fun u => { u with
      mq := u.mq.map mark
      tok := t.tok
      tokRes := t.tokRes }) with
    lastM := tabPut 0 s.lastM (coreOf slot) (slot % 4) }
  match tileForm c.ins with
  | some (_, _, true) => sendTileReads s1 slot places
  | _ => s1

/-- The near-window accesses of a tile command, for event 0x0006 of spec/02_strand_registers.md R42. -/
def nearRuns (l : List (Run × Place)) : Nat :=
  (l.filter (fun rp => match rp.2 with
    | .near _ => true
    | _ => false)).length

/-- Starts the command at the queue head: tokens, format, quota, addresses, frames, fills. Where it cannot start yet the state is as
before, but for the victims freed and the spills that it waits for (spec/03_matrix_registers.md R53). A load of lines of other packages
starts after the earlier tile commands that overlap it, and with remote tags. -/
def mStart (s : State) (slot : Nat) (c : MCommand) : State :=
  let t := s.strand slot
  if c.faulted || t.phase == .free || t.phase == .saving then s
  else match popToken t .m c.pop with
    | none => s
    | some t1 => match reserveToken t1 .m (if c.since = 0 then c.push else 0#2) with
      | none => s
      | some t2 =>
        if !mFormatOk c then mFault s slot c (Failure.at .format 0) 0
        else if t.fq.toNat < framesNeeded c then mFault s slot c (Failure.at .msmQuota 0) 0
        else match tilePlaces s slot c with
          | .error (row, f) => mFault s slot c f row
          | .ok (places, _) =>
            let load := match tileForm c.ins with
              | some (_, _, l) => l
              | none => false
            let far := if load then (tileAsks places).length else 0
            let fills := fillsNeeded t c
            if fills.any t.spilling || (far != 0 && !tileOrder s slot c) then s
            else match engineTag s (dieOf (coreOf slot)) far with
              | none => s
              | some (tag, s1) =>
                let want := fills.length + boolNat c.dst.isSome
                match (if want = 0 then .made s else makeRoom slot (t.fq.toNat - want) 600 s) with
                | .full s2 => s2
                | .spilling s2 => s2
                | .made s2 =>
                  match startFrames { s2 with tags := s1.tags } slot c fills with
                  | none => s
                  | some (fr, s3) =>
                    match tilePlaces s3 slot c with
                    | .ok (_, s4) => mLaunch s4 slot c t2 fr tag places
                    | .error _ => s

/-! ### Turns of the matrix array (spec/01_execution_model.md R9) -/

/-- The command at the head of a strand's queue. -/
def Strand.mHead (t : Strand) : Option MCommand := t.mq.find? (fun x => !x.started)

/-- Would the head command of a slot start, or move towards it? -/
def mWants (s : State) (slot : Nat) : Bool :=
  let t := s.strand slot
  match t.mHead with
  | none => false
  | some c => s.mayIssue t.part t.gang && mStart s slot c != s

/-- The slots of a core that come before a slot when one slot was the last to be served. -/
def slotsBefore (last slot : Nat) : List Nat :=
  ((List.range 4).map (fun j => 4 * coreOf slot + (last + 1 + j) % 4)).takeWhile (fun k => k != slot)

/-- Is it the slot's turn: does no slot before it in round-robin order have a head command that is ready? -/
def mTurn (s : State) (slot : Nat) : Bool :=
  (slotsBefore (tabGet 0 s.lastM (coreOf slot)) slot).all (fun k => !mWants s k)

/-! ### Retiring (spec/16_matrix_instructions.md R289, R297) -/

/-- The contents of a bound source. -/
def sourceTile (s : State) (slot : Nat) (x : Source) : Tile :=
  match x with
  | .frame f => (frameOf s (coreOf slot) f).data
  | .kept t _ => t
  | _ => 0#262144

/-- The poisoned sectors of a bound source. -/
def sourceBad (s : State) (slot : Nat) (x : Source) : List Nat :=
  match x with
  | .frame f => (frameOf s (coreOf slot) f).bad
  | .kept _ bad => bad
  | _ => []

/-- Is the source there? -/
def Source.resolved (x : Source) : Bool :=
  match x with
  | .zero | .frame _ | .kept _ _ => true
  | _ => false

/-- The i-th source of a command. -/
def MCommand.src (c : MCommand) (i : Nat) : Source := (nth (0, .zero) c.srcs i).2

/-- The first of `rows` rows of `size` bytes in a source whose bytes hold a poisoned sector. -/
def badRow (s : State) (slot : Nat) (x : Source) (size : Nat) (rows : List Nat) : Option Nat :=
  let bad := sourceBad s slot x
  if bad.isEmpty then none
  else rows.find? (fun r => bad.any (fun b => decide (32 * b < size * r + size) && decide (size * r < 32 * b + 32)))

/-- The first poisoned row that a command reads, over its sources (spec/16_matrix_instructions.md R297). -/
def poisonRow (s : State) (slot : Nat) (c : MCommand) : Option Nat :=
  let m := List.range c.grant.tm.toNat
  let n := List.range c.grant.tn.toNat
  let all := List.range 64
  let at_ (i : Nat) (size : Nat) (rows : List Nat) : Option Nat := badRow s slot (c.src i) size rows
  let four := (List.range 4).map (fun j => (c.base.toNat + j) % 64)
  match c.ins with
  | .tstoreA _ _ _ _ _ => at_ 0 512 m
  | .tstoreB _ _ _ _ _ => at_ 0 512 n
  | .tstoreC _ _ _ _ _ => at_ 0 384 m
  | .tmma _ _ _ _ _ _ | .tmmaSw _ _ _ _ _ _ | .tmmaSet _ _ _ _ _ _ | .tmmaSetSw _ _ _ _ _ _ =>
    ((at_ 0 512 m).orElse (fun _ => at_ 1 512 n)).orElse (fun _ => at_ 2 384 all)
  | .vtom _ _ _ _ _ => at_ 0 512 (all.filter (fun r => !four.contains r))
  | .mtov _ _ _ _ _ _ => at_ 0 512 four
  | .ttrans _ _ _ _ _ => at_ 0 512 all
  | .tcvt _ _ _ _ _ _ => at_ 0 384 m
  | .tadd _ _ _ _ _ _ _ _ => (at_ 0 384 all).orElse (fun _ => at_ 1 384 all)
  | _ => none

/-- The result tile of a command that computes in the array. -/
def resultTile (s : State) (slot : Nat) (c : MCommand) : Tile :=
  let src (i : Nat) : Tile := sourceTile s slot (c.src i)
  match c.ins with
  | .tmma _ _ _ _ _ _ | .tmmaSw _ _ _ _ _ _ => tmmaTile c.fmt c.grant c.vals (src 0) (src 1) (src 2)
  | .tmmaSet _ _ _ _ _ _ | .tmmaSetSw _ _ _ _ _ _ => tmmaTile c.fmt c.grant c.vals (src 0) (src 1) 0#262144
  | .vtom _ _ _ _ _ => vtomTile (nth 0#16384 c.vals 0) (c.base.toNat % 64) (src 0)
  | .ttrans _ _ _ _ _ => ttransTile (src 0)
  | .tcvt _ _ _ _ _ _ => (tcvtTile c.fmt c.grant (s.strand slot).mbank (src 0)).tile
  | .tadd _ _ _ _ _ _ _ _ => taddTile c.fmt (src 0) (src 1)
  | _ => 0#262144

/-- A vector register that a command has written takes back the bits that later instructions wrote before, with their marks
(spec/16_matrix_instructions.md R289). `t` is the strand before the command's write. -/
def keepOver (t : Strand) (m : VReg) (r : Nat) (u : Strand) : Strand :=
  if m = 0#16384 then u
  else
    let kept := t.marks.filter (fun x => x.reg == r && slice m x.bit x.width != 0#x.width)
    { u with
      v := tabPut 0#16384 u.v r ((u.getV r &&& ~~~m) ||| (t.getV r &&& m))
      marks := u.marks.filter (fun x => !(x.reg == r && slice m x.bit x.width != 0#x.width)) ++ kept }

/-- The effect on vector registers, flags and the matrix bank. -/
def vectorWrite (s : State) (slot : Nat) (c : MCommand) (t : Strand) : Strand :=
  match c.ins with
  | .mtov d _ _ _ _ _ => t.setV d.toNat (mtovReg (sourceTile s slot (c.src 0)) (c.base.toNat % 64))
  | .tcvt _ _ _ _ _ _ =>
    let r := tcvtTile c.fmt c.grant t.mbank (sourceTile s slot (c.src 0))
    let put (u : Strand) (x : Nat × Nat × Nat) : Strand :=
      putElem u ((fwZD c.fmt + x.1) % 128) (32 * x.2.1) 32 x.2.2
    { (r.scales.foldl put t).setFlags r.fl with mbank := r.bank }
  | _ => t

/-- The same, but for what later instructions have written of its vector registers. -/
def vectorEffect (s : State) (slot : Nat) (c : MCommand) (t : Strand) : Strand :=
  c.vdst.foldl (fun u r => keepOver t (tabGet 0#16384 c.vover r) r u) (vectorWrite s slot c t)

/-- What the peers returned for an engine's reads of their lines, in the order in which the engine takes it: the bytes, how many have been
taken, and the offsets of bytes in poisoned sectors. -/
structure Feed where
  data : List Byte
  pos : Nat
  bad : List Nat
deriving DecidableEq, Repr

/-- The feed of a step: its data, and in `peers` the offsets of poisoned bytes. -/
def feedOf (x : Args) : Feed := ⟨x.data, 0, x.peers⟩

/-- Takes `n` bytes of a feed, and tells whether one of them is poisoned; bytes that are missing read as zero. -/
def Feed.take (f : Feed) (n : Nat) : List Byte × Bool × Feed :=
  (f.data.take n ++ List.replicate (n - f.data.length) 0#8, f.bad.any (fun b => decide (f.pos ≤ b) && decide (b < f.pos + n)),
    { f with data := f.data.drop n, pos := f.pos + n })

/-- Bytes read for a run, and whether a sector of them is poisoned: from the near window, from HBM, or from the feed. -/
def readRun (s : State) (slot : Nat) (pl : Place) (n : Nat) (f : Feed) : List Byte × Bool × Feed :=
  if isLocal s pl then (placeRead s slot pl n, accessFault s slot pl n true == some .poison, f) else f.take n

/-- A loaded tile: the frame's contents and its poisoned sectors (spec/05_memories.md R103). -/
def loadTile (s : State) (slot : Nat) : List (Run × Place) → Feed → Tile → List Nat → Tile × List Nat
  | [], _, t, bad => (t, bad)
  | (r, pl) :: rest, f, t, bad =>
    let (bs, poison, f1) := readRun s slot pl r.n f
    let bad1 := if poison then (unitsOf 32 r.frame r.n).foldl (fun l x => insNat x l) bad else bad
    loadTile s slot rest f1 (tilePut t r.frame r.n (bytesNat bs)) bad1

/-- Stores the local runs of a tile, ascending. -/
def storeTile (slot : Nat) (t : Tile) : List (Run × Place) → State → State
  | [], s => s
  | (r, pl) :: rest, s =>
    storeTile slot t rest (if isLocal s pl then placeWrite s slot pl (natBytes r.n (tileGet t r.frame r.n)) else s)

/-- The stores of runs on other packages leave: one write for each sector, which its home performs whole
(spec/06_memory_ordering.md R107). -/
def sendTileWrites (s : State) (slot : Nat) (t : Tile) (l : List (Run × Place)) : State :=
  let reqs := l.filterMap (fun rp => match rp.2 with
    | .remote p pa => some (.write p pa (natBytes rp.1.n (tileGet t rp.1.frame rp.1.n)))
    | _ => none)
  countEvent { s with outbox := s.outbox ++ reqs } slot 0x0008 reqs.length

/-- May the command complete now: its sources are there; earlier commands that write or release the same registers have completed;
TCVTs draw in program order, and after a reseed of the bank that comes before them (spec/04_number_formats.md R68). -/
def mReady (t : Strand) (c : MCommand) : Bool :=
  let earlier := t.mq.filter (fun x => decide (x.id < c.id))
  c.started && c.srcs.all (fun x => x.2.resolved) &&
    earlier.all (fun x => !x.changes.any c.changes.contains) &&
    (!isTcvt c || (earlier.all (fun x => !isTcvt x) && t.mseed.all (fun x => decide (c.id ≤ x.2))))

/-- Later commands see the result: their sources become the frame, and the registers follow the map again. -/
def resolveCommand (t : Strand) (c : MCommand) : Strand :=
  let fix (x : Nat × Source) : Nat × Source :=
    if x.2 = .cmd c.id then (x.1, match c.frame with
      | some f => .frame f
      | none => .zero) else x
  { t with
    mq := (t.mq.filter (fun x => x.id != c.id)).map (fun x => { x with srcs := x.srcs.map fix })
    sendq := t.sendq.map (fun x => { x with reg := x.reg.map fix })
    bound := t.bound.filter (fun b => b.2 != .cmd c.id && b.2 != .zero c.id) }

/-- The registers a command releases become ZERO; their frames are old ones. -/
def releaseRegs (slot : Nat) : List Nat → State → State
  | [], s => s
  | r :: rest, s =>
    releaseRegs slot rest ((orphanFrame s slot r).updSlot slot (fun t => t.moveEntry r stZero 0))

/-- The command completes: its result frame becomes the register's, released registers become ZERO, frames without readers are freed,
what a lowered FQ leaves over is evicted, and its token is pushed (spec/03_matrix_registers.md R51, R52, R54, R55,
spec/21_program_tile_paging.md R380). -/
def mComplete (s : State) (slot : Nat) (c : MCommand) (tile : Tile) (bad : List Nat) : State :=
  let core := coreOf slot
  let s1 := match c.frame, c.dst with
    | some f, some r =>
      let u := orphanFrame s slot r
      let k := frameKey core f
      let fr := { frameOf u core f with data := tile, bad := bad }
      { u.updSlot slot (fun t => t.moveEntry r stDirty f) with frames := tabSet u.frames k fr }
    | _, _ => s
  let s2 := releaseRegs slot c.release s1
  let s3 := evictToQuota (sweepFrames (s2.updSlot slot (fun t => resolveCommand t c)) slot) slot
  countEvent (s3.updSlot slot (fun t => pushUnlessExit t .m c.push)) slot 0x0003 1

/-- The first run that meets an error after access, in the order of the rows: a local one whose stack is shut down, or the run at whose
bytes the peers' answers end with the class `c`. `off` is the place of the first remote byte in the answers, `have` how many there are. -/
def lostRun (s : State) (slot : Nat) (c : Option FaultClass) (have_ : Nat) : List (Run × Place) → Nat → Option (Run × Place × FaultClass)
  | [], _ => none
  | (r, pl) :: rest, off =>
    if isLocal s pl then
      match accessFault s slot pl r.n false with
      | some x => some (r, pl, x)
      | none => lostRun s slot c have_ rest off
    else if off + r.n ≤ have_ then lostRun s slot c have_ rest (off + r.n)
    else match c with
      | some x => some (r, pl, x)
      | none => lostRun s slot c have_ rest (off + r.n)

/-- The class that a reply reports, if any. -/
def replyClass (r : Reply) : Option FaultClass :=
  match replyValue r with
  | .ok _ => none
  | .error c => some c

/-- A command meets an error of a run after access (spec/16_matrix_instructions.md R297). -/
def runFault (s : State) (slot : Nat) (c : MCommand) (x : Run × Place × FaultClass) : State :=
  let va := (runVa c x.1).toNat
  mFault (lostLog slot x.2.1 va x.2.2 s) slot c (Failure.at x.2.2 va) x.1.row

/-- A started load whose earlier accesses are performed completes, or meets an error. -/
def retireLoad (s : State) (slot : Nat) (c : MCommand) (places : List (Run × Place)) (f : Feed) (rep : Reply) : State :=
  let need := ((remoteRuns places).map (fun rp => rp.1.n)).sum
  if f.data.length < need ∧ replyClass rep = none then s
  else match lostRun s slot (replyClass rep) f.data.length places 0 with
    | some x => runFault s slot c x
    | none =>
      let (t, bad) := loadTile s slot places f 0#262144 []
      let s1 := countEvent s slot 0x0006 (nearRuns places)
      mComplete (giveTag s1 c.tag) slot c t bad

/-- The runs of a store that are written: those of the rows before the first that is poisoned in its frame. -/
def goodRuns (s : State) (slot : Nat) (c : MCommand) (places : List (Run × Place)) : List (Run × Place) :=
  match poisonRow s slot c with
  | some row => places.filter (fun rp => decide (rp.1.row < row))
  | none => places

/-- A started store writes its rows, up to the first that is poisoned in its frame. Where rows lie on other packages it then awaits their
homes' answers (`out`): it retires when all its accesses have been performed (spec/06_memory_ordering.md R106). -/
def retireStore (s : State) (slot : Nat) (c : MCommand) (places : List (Run × Place)) (rows : List Nat) (rep : Reply) : State :=
  let stop := poisonRow s slot c
  let good := goodRuns s slot c places
  let far := remoteRuns good
  let finish (u : State) : State :=
    match stop with
    | some row => mFault u slot c (Failure.at .poison 0) row
    | none => mComplete (giveTag u c.tag) slot c 0#262144 []
  if c.out then
    match replyClass rep, far.find? (fun rp => rows.contains rp.1.row) with
    | some k, some rp => runFault s slot c (rp.1, rp.2, k)
    | some _, none => s
    | none, _ => finish s
  else match lostRun s slot none 0 good 0 with
    | some x => runFault s slot c x
    | none =>
      let t := sourceTile s slot (c.src 0)
      match engineTag s (dieOf (coreOf slot)) far.length with
      | none => s
      | some (tag, s1) =>
        let s2 := countEvent (storeTile slot t good s1) slot 0x0006 (nearRuns good)
        if far.isEmpty then finish s2
        else
          let mark (x : MCommand) : MCommand :=
            if x.id = c.id then { x with out := true, tag := tag, since := s.cycle + 1 } else x
          (sendTileWrites s2 slot t far).updSlot slot (fun u => { u with mq := u.mq.map mark })

/-- Is a row of a frame of a core under a self-test (spec/05_memories.md R101)? -/
def frameTested (s : State) (core f : Nat) : Bool :=
  s.tests.any (fun x => testOn s x && (match x.1 with
    | .msm k frame _ => k == core && frame == f
    | _ => false))

/-- Is a row of a frame that the command reads or writes under a self-test? -/
def framesTested (s : State) (slot : Nat) (c : MCommand) : Bool :=
  c.frame.any (frameTested s (coreOf slot)) || c.srcs.any (fun y => match y.2 with
    | .frame f => frameTested s (coreOf slot) f
    | _ => false)

/-- A started command whose sources are there completes, or meets its fault (spec/16_matrix_instructions.md R297). -/
def mRetire (s : State) (slot : Nat) (c : MCommand) (x : Args) : State :=
  match tilePlaces s slot c with
  | .error (row, f) => mFault s slot c f row
  | .ok (places, s1) =>
    if framesTested s slot c || places.any (fun rp => underTest s slot rp.2 rp.1.n) then s
    else match tileForm c.ins with
    | some (_, _, true) => retireLoad s1 slot c places (feedOf x) x.rep
    | some (_, _, false) => retireStore s1 slot c places x.peers x.rep
    | none =>
      match poisonRow s1 slot c with
      | some row => mFault s1 slot c (Failure.at .poison 0) row
      | none =>
        let s2 := s1.updSlot slot (vectorEffect s1 slot c)
        mComplete s2 slot c (resultTile s1 slot c) []

/-- M_COMMAND_RETIRE: the command of number `num` in the queue of the strand in `slot` starts, when it is the next to start and its
strand's turn, or completes. For lines of other packages, `data` is what the peers returned for a load in the order of its runs, `peers`
the offsets of poisoned bytes in it, and `rep` the answer after it; for a store `rep` is what an answer reports, and `peers` its rows. -/
def execMCommandRetire (s : State) : Out :=
  let slot := s.arg.slot
  let t := s.strand slot
  match t.mq.find? (fun c => c.id == s.arg.num) with
  | none => .next s
  | some c =>
    if c.started then
      if mReady t c && tileOrder s slot c && (t.phase != .parked || (poisonRow s slot c).isNone) then .next (mRetire s slot c s.arg)
      else .next s
    else if s.mayIssue t.part t.gang && t.mHead.map (fun x => x.id) == some c.id && mTurn s slot then .next (mStart s slot c)
    else .next s

/-! ### Fills and spills (spec/03_matrix_registers.md R54) -/

/-- The shortest time in ticks in which a fill can complete (spec/21_program_tile_paging.md, note 11; spec/05_memories.md R87). -/
def fillLeast : Nat := 150

/-- The part of 32 KiB of backing area whose stack is shut down: the area lies on both stacks of its die. -/
def lostPart (s : State) (pa : Nat) : Option Nat :=
  if memLost s pa then some pa else if memLost s (pa + 4096) then some (pa + 4096) else none

/-- The poisoned sectors of 32 KiB of backing area, those on a stack that is shut down among them. -/
def areaBad (s : State) (pa : Nat) : List Nat :=
  (List.range 1024).filter (fun i => s.badSectors.contains (pa / 32 + i) || memLost s (pa + 32 * i))

/-- What a fill finds in a register's backing area: its contents, its poisoned sectors and the state after the read; none where the read
waits for a row under a self-test (spec/05_memories.md R101). What cannot be read, for want of a translation or a permission or because
its stack is shut down (with the record of R94), comes as poison: a fill reports to the register's next reader (R103), and the forms that
start fills raise no other class (spec/16_matrix_instructions.md R308; DESIGN CHOICE, Assumption 56). -/
def fillRead (s : State) (slot r : Nat) : Option (Tile × List Nat × State) :=
  let t := s.strand slot
  let va := backingVa t r
  match locate s (ownCtx s slot) (BitVec.ofNat 64 va) 32768 1 .read acceptsLocal with
  | .ok (.mem pa c, s1) =>
    if underTest s slot (.mem pa c) 32768 then none
    else
      let s2 := match lostPart s1 pa with
        | some a => lostLog slot (.mem a false) (va + (a - pa)) .memLost s1
        | none => s1
      some (bytesBv 262144 (homeRead s1 pa 32768), areaBad s1 pa, s2)
  | .ok _ => some (0#262144, List.range 1024, s)
  | .error f => some (0#262144, List.range 1024, afterFail t.part (sidOf slot) f s)

/-- FILL_COMPLETE: 32 KiB of the backing area are in the frame, with any poison; the register becomes CLEAN unless a later write has
overtaken the fill, and its readers proceed. -/
def execFillComplete (s : State) : Out :=
  let slot := s.arg.slot
  let t := s.strand slot
  match t.fillq[s.arg.idx]? with
  | none => .next s
  | some m =>
    let core := coreOf slot
    if s.cycle < m.since + fillLeast || frameTested s core m.frame then .next s
    else match fillRead s slot m.reg with
    | none => .next s
    | some (data, bad, s1) =>
      let fr := { frameOf s1 core m.frame with data := data, bad := bad }
      let e := t.entry m.reg
      let mine := e.state == stFilling && e.frame.toNat == m.frame
      let fix (x : Nat × Source) : Nat × Source :=
        if x.1 = m.reg ∧ x.2 = .backing then (x.1, .frame m.frame) else x
      let s2 := { s1 with
        frames := tabSet s1.frames (frameKey core m.frame) { fr with orphan := !mine } }
      let s3 := s2.updSlot slot (fun u =>
        let u1 := if mine then u.moveEntry m.reg stClean m.frame else u
        { u1 with
          fillq := dropNth u1.fillq s.arg.idx
          fills := u1.fills + 1#24
          mq := u1.mq.map (fun c => { c with srcs := c.srcs.map fix }) })
      .next (countEvent (sweepFrames s3 slot) slot 0x0004 1)

/-- Writes a frame to the backing area of a register, with its poison. A stack that is shut down makes the error ring's record
(spec/05_memories.md R94): what was to be there is lost, and a later fill meets MEMLOST. -/
def writeBack (s : State) (sid : BitVec 11) (pa : Nat) (comp : Bool) (f : Frame) : State :=
  let s1 := poisonSectors (homeWrite s none pa (bvBytes f.data) comp) (f.bad.map (fun b => pa / 32 + b))
  match lostPart s pa with
  | some a => errLog (some f.part) (dieOfPa a) sid 0x04 (f.mapbase - 0x01080000 + f.reg * 32768 + (a - pa)) (stackOfPa a) s1
  | none => s1

/-- Sends that were to read an older value of a register from its backing area keep it (spec/03_matrix_registers.md R52). -/
def keepForSends (t : Strand) (r : Nat) (old : Tile × List Nat) : Strand :=
  { t with sendq := t.sendq.map (fun c => if c.reg = some (r, .backing) then { c with reg := some (r, .kept old.1 old.2) } else c) }

/-- SPILL_COMPLETE: the frame is in the backing area and is freed; the register becomes ABSENT unless it has been written meanwhile. An
older spill or fill of the register comes first. An older value that a send has still to read from the backing area is kept for it. -/
def execSpillComplete (s : State) : Out :=
  let slot := s.arg.slot
  let t := s.strand slot
  match t.spillq[s.arg.idx]? with
  | none => .next s
  | some m =>
    let core := coreOf slot
    if (t.spillq.take s.arg.idx).any (fun x => x.reg == m.reg) || t.fillq.any (fun x => x.reg == m.reg) || frameTested s core m.frame then
      .next s
    else match locate s (ownCtx s slot) (BitVec.ofNat 64 (backingVa t m.reg)) 32768 1 .write acceptsLocal with
    | .ok (.mem pa comp, s1) =>
      if underTest s slot (.mem pa comp) 32768 then .next s
      else
        let e := t.entry m.reg
        let mine := e.state == stSpilling && e.frame.toNat == m.frame
        let old := (bytesBv 262144 (homeRead s1 pa 32768), areaBad s1 pa)
        let s2 := writeBack s1 (sidOf slot) pa comp (frameOf s1 core m.frame)
        let s3 := s2.updSlot slot (fun u0 =>
          let u := sendsToBacking (keepForSends u0 m.reg old) m.frame
          let u1 := if mine then u.moveEntry m.reg stAbsent 0 else u
          { u1 with
            spillq := dropNth u1.spillq s.arg.idx
            spills := u1.spills + 1#24 })
        let keep := (s3.strand slot).mq.any (fun c => c.srcs.any (fun x => x.2 == .frame m.frame))
        let k := frameKey core m.frame
        let s4 := if keep then { s3 with frames := tabSet s3.frames k { frameOf s3 core m.frame with orphan := true } }
          else { s3 with frames := tabErase s3.frames k }
        .next (countEvent s4 slot 0x0005 1)
    | .ok _ => .next s
    | .error f => .next (mendPtes f s)

/-! ### MSMCFG and SRSEED (spec/02_strand_registers.md R39, spec/04_number_formats.md R68) -/

/-- A frame for scratch: a free one, or the oldest of a strand that is no longer bound (spec/03_matrix_registers.md R51). -/
def scratchFrame (s : State) (core : Nat) : Option (Nat × State) :=
  match freeFrame s core with
  | some f => some (f, s)
  | none =>
    match staleFrame s core with
    | none => none
    | some (k, old) =>
      let s1 := absentInMemory s old
      some (k % 256, { s1 with frames := tabErase s1.frames k })

/-- Adds scratch frames up to a number, lowest free frames first. -/
def addScratch (slot : Nat) : Nat → State → State
  | 0, s => s
  | n + 1, s =>
    match scratchFrame s (coreOf slot) with
    | some (f, s1) => addScratch slot n (s1.updSlot slot (fun t => { t with scrFrames := t.scrFrames ++ [f] }))
    | none => s

/-- The scratch bytes and marks of the frames kept. -/
def cutScratch (t : Strand) (sf : Nat) : Strand :=
  { t with
    scratch := t.scratch.filter (fun c => decide (c.1 < sf * 32768))
    nearBad := t.nearBad.filter (fun x => decide (32 * x < sf * 32768))
    scrFrames := t.scrFrames.take sf }

/-- MSMCFG_WRITE: once the M queue is empty, the new value is checked; a lowered FQ first evicts frames and waits for their spills. -/
def execMsmcfgWrite (s : State) : Out :=
  let slot := s.arg.slot
  let t := s.strand slot
  match t.wait with
  | .msmcfg x =>
    let fq : BitVec 9 := slice x 0 9
    let sf : BitVec 9 := slice x 16 9
    if t.phase ≠ .running ∨ !t.mq.isEmpty then .next s
    else if t.lim.toNat < fq.toNat + sf.toNat ∨ fq = 0#9 then
      .next (raiseAt s slot t.pc (Trap.plain .msmQuota))
    else
      match makeRoom slot fq.toNat 600 s with
      | .full s1 => .next s1
      | .spilling s1 => .next s1
      | .made s1 =>
        if !(s1.strand slot).spillq.isEmpty then .next s1
        else
          let s2 := s1.updSlot slot (fun u => cutScratch { u with fq := fq, sf := sf } sf.toNat)
          let s3 := addScratch slot (sf.toNat - (s2.strand slot).scrFrames.length) s2
          .next (s3.updSlot slot Strand.next)
  | _ => .next s

/-- SRSEED_WRITE: when the TCVTs appended before the oldest waiting write of SRSEED have completed, the matrix bank is reseeded; later
TCVTs of the queue wait for it. -/
def execSrseedWrite (s : State) : Out :=
  let slot := s.arg.slot
  let t := s.strand slot
  let busy (n : Nat) : Bool := t.mq.any (fun c => decide (c.id ≤ n) && (match c.ins with
    | .tcvt _ _ _ _ _ _ => true
    | _ => false))
  match t.mseed with
  | (x, n) :: rest => if busy n then .next s else .next (s.updSlot slot (fun u => { u with mbank := ⟨x, []⟩, mseed := rest }))
  | [] => .next s

/-! ### The instructions (spec/16_matrix_instructions.md R290 to R307) -/

/-- Rounds up to a multiple. -/
def roundUp (x m : Nat) : Nat := (x + m - 1) / m * m

/-- TSHAPE computes the grant (spec/16_matrix_instructions.md R290). -/
def execTshape (d a : BitVec 5) (f : BitVec 3) (s : State) : Out :=
  let word := s.me.formatWord f
  let fa := fwFA word
  if !fwOk word || !isVectorCode fa then .next (raise (Trap.plain .format) s)
  else
    let req := s.me.getS a
    let w := (codeWidth fa).getD 8
    let step := if isBfpCode fa then 32 else 8
    let tm := min 64 (max 8 (roundUp (slice req 0 8).toNat 8))
    let tn := min 64 (max 8 (roundUp (slice req 8 8).toNat 8))
    let tk := min (4096 / w) (max step (roundUp (slice req 16 12).toNat step))
    let g : Grant := ⟨BitVec.ofNat 8 tm, BitVec.ofNat 8 tn, BitVec.ofNat 12 tk, BitVec.ofNat 10 (tk * w / 8)⟩
    .next (s.upd (fun t => ({ t with tsh := g }.setS d (zext64 (g.tk ++ g.tn ++ g.tm))).next))

/-- SETMW (spec/16_matrix_instructions.md R292). -/
def execSetmw (a : BitVec 5) (s : State) : Out :=
  .next (s.upd (fun t => { t with mw := slice (t.getS a) 0 8 }.next))

/-- A command that names one register and moves nothing. -/
def houseSpec (i : Instr) (t : Strand) (m : BitVec 5) (p w : BitVec 2) (read : Bool) : MSpec :=
  let r := t.mreg m
  ⟨i, if read then [r] else [], none, if read then [] else [r], [r], 0#64, 0#64, 0#64, [], [], w, p⟩

def execTpref (m : BitVec 5) (p w : BitVec 2) (s : State) : Out :=
  mIssue (houseSpec (.tpref m p w) s.me m p w true) id s
def execTdrop (m : BitVec 5) (p w : BitVec 2) (s : State) : Out :=
  mIssue (houseSpec (.tdrop m p w) s.me m p w false) id s
def execTzero (m : BitVec 5) (p w : BitVec 2) (s : State) : Out :=
  mIssue (houseSpec (.tzero m p w) s.me m p w false) id s

/-- A TLOAD or TSTORE: base s[a], stride s[b]. -/
def tileSpec (i : Instr) (t : Strand) (m a b : BitVec 5) (p w : BitVec 2) (load : Bool) : MSpec :=
  let r := t.mreg m
  ⟨i, if load then [] else [r], if load then some r else none, [], [], 0#64, t.getS a, t.getS b, [], [], w, p⟩

def execTloadA (m a b : BitVec 5) (y p w : BitVec 2) (s : State) : Out :=
  mIssue (tileSpec (.tloadA m a b y p w) s.me m a b p w true) id s
def execTloadB (m a b : BitVec 5) (y p w : BitVec 2) (s : State) : Out :=
  mIssue (tileSpec (.tloadB m a b y p w) s.me m a b p w true) id s
def execTloadC (m a b : BitVec 5) (p w : BitVec 2) (s : State) : Out :=
  mIssue (tileSpec (.tloadC m a b p w) s.me m a b p w true) id s
def execTstoreA (m a b : BitVec 5) (p w : BitVec 2) (s : State) : Out :=
  mIssue (tileSpec (.tstoreA m a b p w) s.me m a b p w false) id s
def execTstoreB (m a b : BitVec 5) (p w : BitVec 2) (s : State) : Out :=
  mIssue (tileSpec (.tstoreB m a b p w) s.me m a b p w false) id s
def execTstoreC (m a b : BitVec 5) (p w : BitVec 2) (s : State) : Out :=
  mIssue (tileSpec (.tstoreC m a b p w) s.me m a b p w false) id s

/-- The designations after a swap (spec/16_matrix_instructions.md R300, R303). -/
def swapPlanes (t : Strand) : Strand := { t with active := t.shadow, shadow := t.active }

/-- A TMMA: A, then B of the active designation, then the old D when it accumulates (spec/16_matrix_instructions.md R303,
spec/21_program_tile_paging.md R380). An empty designation reads as zero: B is then a source that is bound to ZERO. -/
def tmmaForm (i : Instr) (set swap : Bool) (d a : BitVec 5) (l : BitVec 1) (f : BitVec 3) (p w : BitVec 2) (s : State) : Out :=
  let t0 := s.me
  let plane := if swap then t0.shadow else t0.active
  let rd := t0.mreg d
  let ra := t0.mreg a
  let word := t0.formatWord f
  let vin := scaleRegs (fwFA word) (fwZA word) ++ scaleRegs (fwFB word) (fwZB word)
  let srcs := match plane with
    | some (rb, _) => ra :: rb :: (if set then [] else [rd])
    | none => [ra]
  let x : MSpec :=
    ⟨i, srcs, some rd, if l = 1#1 then [ra] else [], if set then [] else [rd], word, 0#64, 0#64, vin, [], w, p⟩
  -- with no designation the sources are A, ZERO and the old D
  let fixEmpty (t : Strand) (c : MCommand) : MCommand :=
    if plane.isNone ∧ c.pc = t.pc ∧ c.id = s.seq + 1 then
      { c with srcs := (nth (0, .zero) c.srcs 0) :: (256, .zero) :: (if set then [] else [(rd, bindReg t0 rd)]) }
    else c
  mIssue x (fun t =>
    let t1 := { t with mq := t.mq.map (fixEmpty t) }
    if swap then swapPlanes t1 else t1) s

def execTmma (d a : BitVec 5) (l : BitVec 1) (f : BitVec 3) (p w : BitVec 2) (s : State) : Out :=
  tmmaForm (.tmma d a l f p w) false false d a l f p w s
def execTmmaSet (d a : BitVec 5) (l : BitVec 1) (f : BitVec 3) (p w : BitVec 2) (s : State) : Out :=
  tmmaForm (.tmmaSet d a l f p w) true false d a l f p w s
def execTmmaSw (d a : BitVec 5) (l : BitVec 1) (f : BitVec 3) (p w : BitVec 2) (s : State) : Out :=
  tmmaForm (.tmmaSw d a l f p w) false true d a l f p w s
def execTmmaSetSw (d a : BitVec 5) (l : BitVec 1) (f : BitVec 3) (p w : BitVec 2) (s : State) : Out :=
  tmmaForm (.tmmaSetSw d a l f p w) true true d a l f p w s

/-- TWLOAD sets the shadow designation; a marked one that it replaces ends, and its register becomes ZERO
(spec/16_matrix_instructions.md R301). -/
def execTwload (a : BitVec 5) (l : BitVec 1) (f : BitVec 3) (p w : BitVec 2) (s : State) : Out :=
  let t := s.me
  let ra := t.mreg a
  let word := t.formatWord f
  let release := match t.shadow with
    | some (r, true) => [r]
    | _ => []
  mIssue ⟨.twload a l f p w, [ra], none, release, [], word, 0#64, 0#64, scaleRegs (fwFB word) (fwZB word), [], w, p⟩
    (fun u => { u with shadow := some (ra, l == 1#1) }) s

/-- VTOM captures v[a] and the row s[b] (spec/16_matrix_instructions.md R304). -/
def execVtom (m a b : BitVec 5) (p w : BitVec 2) (s : State) : Out :=
  let t := s.me
  let r := t.mreg m
  mIssue ⟨.vtom m a b p w, [r], some r, [], [], 0#64, t.getS b &&& 63#64, 0#64, [a.toNat], [], w, p⟩ id s

def execMtov (d a b : BitVec 5) (l : BitVec 1) (p w : BitVec 2) (s : State) : Out :=
  let t := s.me
  let r := t.mreg a
  mIssue ⟨.mtov d a b l p w, [r], none, if l = 1#1 then [r] else [], [], 0#64, t.getS b &&& 63#64, 0#64, [], [d.toNat], w,
    p⟩ id s

def execTtrans (d a : BitVec 5) (l : BitVec 1) (p w : BitVec 2) (s : State) : Out :=
  let t := s.me
  let r := t.mreg a
  mIssue ⟨.ttrans d a l p w, [r], some (t.mreg d), if l = 1#1 then [r] else [], [], 0#64, 0#64, 0#64, [], [], w, p⟩ id s

/-- TCVT draws from the matrix bank when it completes, after every reseed that program order puts before it. -/
def execTcvt (d a : BitVec 5) (l : BitVec 1) (f : BitVec 3) (p w : BitVec 2) (s : State) : Out :=
  let t := s.me
  let r := t.mreg a
  let word := t.formatWord f
  mIssue ⟨.tcvt d a l f p w, [r], some (t.mreg d), if l = 1#1 then [r] else [], [], word, 0#64, 0#64, [],
    scaleRegs (fwFD word) (fwZD word), w, p⟩ id s

def execTadd (d a b : BitVec 5) (l h : BitVec 1) (f : BitVec 3) (p w : BitVec 2) (s : State) : Out :=
  let t := s.me
  let ra := t.mreg a
  let rb := t.mreg b
  let rel := (if l = 1#1 then [ra] else []) ++ (if h = 1#1 then [rb] else [])
  mIssue ⟨.tadd d a b l h f p w, [ra, rb], some (t.mreg d), rel, [], t.formatWord f, 0#64, 0#64, [], [], w, p⟩ id s

end Sys2Proof.Machine
end

