-- ==== Sys2Proof/Machine/Barrier.lean ====
section
/-! DEFINITION. Barrier instructions, tokens, guards and the waits of WFE and WSB (spec/17_engine_and_system_instructions.md R316 to
R321, R334, R335, spec/12_barriers_and_counters.md R205 to R212, spec/07_queues_and_scheduling.md R118, R121). -/

namespace Sys2Proof.Machine

open Sys2Proof

/-! ### Barrier forms -/

/-- The trap of a barrier form. -/
def barTrap (c : FaultClass) (va : Word) : Trap := ⟨c, .barrier, va, 0#32, false, false⟩

/-- What a barrier form does at its object's home. -/
structure BarForm where
  /-- the access at a remote home -/
  op : AccessOp
  /-- performed only after every earlier stream access (R317) -/
  rel : Bool
  /-- waits for the counts of unacknowledged scatters (R212) -/
  pend : Bool
  push : BitVec 2
  pop : BitVec 2

/-- The gate of a barrier form (spec/17_engine_and_system_instructions.md R319): tokens, the near window, the element checks, then
readiness. `home` acts on an object homed on this package, given its place, its address and its page's kind. -/
def barForm (x : BarForm) (a : BitVec 5) (home : Nat → Bool → State → State) (s : State) : Out :=
  let va := s.me.getS a
  match sTokens s.me x.push x.pop with
  | none => .next s
  | some t1 =>
    if inNear va.toNat then .next (raise (barTrap .mailbox va) s)
    else match locate s (streamCtx s s.cur) va 16 16 .readWrite acceptsFar with
      | .error f => .next (raiseFail f .barrier 0 s)
      | .ok (pl, s1) =>
        let t := s.me
        if accessHeld s1 s.cur pl 16 || (x.rel && !t.drained s.cur .fabric) || (x.pend && !t.unacked.isEmpty) ||
            !tagsFree s1 (dieOf (coreOf s.cur)) [pl] then .next s
        else if isLocal s1 pl then
          match accessFault s1 s.cur pl 16 true with
          | some c => .next (raise (barTrap c va) (lostLog s1.cur pl va.toNat c s1))
          | none =>
            let comp := match pl with
              | .mem _ c => c
              | _ => false
            .next (home (placeKey pl).2 comp (s1.upd (fun u => { u with
              tok := t1.tok
              tokRes := t1.tokRes
              tokDone := true })))
        else
          let (q, s2) := s1.nextSeq
          let acc := { Access.plain q x.op va.toNat pl 16 s.cycle .barrier with blocks := true, push := x.push }
          .next ((post s2 s.cur acc).upd (fun u => { u with
            tok := t1.tok
            tokRes := t1.tokRes
            tokDone := true
            wait := .reply }))

/-- The tag must be good, or BARRIER_TAG is raised (spec/12_barriers_and_counters.md R210). -/
def withTag (va : Word) (pa : Nat) (f : BitVec 4 → State → State) (s : State) : State :=
  let (w0, w1) := barRead s pa
  if barTag w1 ≠ 0xB7#8 then raise (barTrap .barrierTag va) s else f (barP w0) s

/-- An update of an object homed here, with P into a register when one is named. -/
def homeUpdate (a : BitVec 5) (d : Option (BitVec 5)) (dA : Nat) (dS : Int) (push : BitVec 2) (pa : Nat) (comp : Bool)
    (s : State) : State :=
  match barUpdate s (some s.cur) s.me.part (sidOf s.cur) pa comp dA dS with
  | (none, s1) => raise (barTrap .barrierTag (s1.me.getS a)) s1
  | (some p, s1) => s1.upd (fun t =>
      (match d with
        | some r => t.setS r (zext64 p)
        | none => t).retire push)

/-- The sectors of BEXP and BEXPARR: sext(s[b][39:0]). -/
def sectorsOf (x : Word) : Int := (slice x 0 40).toInt

/-- BINIT (spec/12_barriers_and_counters.md R206). -/
def execBinit (a b : BitVec 5) (p w : BitVec 2) (s : State) : Out :=
  let q : BitVec 24 := slice (s.me.getS b) 0 24
  barForm ⟨.binit q, false, false, p, w⟩ a (fun pa comp s =>
    let (w0, w1) := barRead s pa
    let (v0, v1) := barWords (if barTag w1 = 0xB7#8 then barP w0 else 0#4) q 0#32 0
    (homeWrite s (some s.cur) pa (bvBytes v0 ++ bvBytes v1) comp).upd (fun t => t.retire p)) s

/-- BEXP: no sectors only checks the tag. -/
def execBexp (a b : BitVec 5) (p w : BitVec 2) (s : State) : Out :=
  let dS := sectorsOf (s.me.getS b)
  barForm ⟨.barrier 0 dS none, false, false, p, w⟩ a (homeUpdate a none 0 dS p) s

/-- BARR: P before its update into s[b]; a release at fabric scope. -/
def execBarr (a b : BitVec 5) (p w : BitVec 2) (s : State) : Out :=
  barForm ⟨.barrier 1 0 (some b), true, false, p, w⟩ a (homeUpdate a (some b) 1 0 p) s

/-- BEXPARR: an arrival with a sector change. -/
def execBexparr (a b c : BitVec 5) (p w : BitVec 2) (s : State) : Out :=
  let dS := sectorsOf (s.me.getS b)
  barForm ⟨.barrier 1 dS (some c), true, false, p, w⟩ a (homeUpdate a (some c) 1 dS p) s

/-- PEND: not ready until every lane's count is zero, then as BARR (spec/12_barriers_and_counters.md R212). -/
def execPend (a b : BitVec 5) (p w : BitVec 2) (s : State) : Out :=
  barForm ⟨.barrier 1 0 (some b), true, true, p, w⟩ a (homeUpdate a (some b) 1 0 p) s

/-- BTEST: P into s[b], and the watch on the object (spec/17_engine_and_system_instructions.md R334). -/
def execBtest (a b : BitVec 5) (p w : BitVec 2) (s : State) : Out :=
  let va := s.me.getS a
  barForm ⟨.btest b, false, false, p, w⟩ a (fun pa comp s =>
    withTag va pa (fun ph s => s.upd (fun t =>
      { t.setS b (zext64 ph) with watch := some (.mem pa comp, ph) }.retire p)) s) s

/-- BWAIT: retires at once when P already differs; otherwise it waits for BWAIT_WAKE. -/
def execBwait (a b : BitVec 5) (p w : BitVec 2) (s : State) : Out :=
  let va := s.me.getS a
  let v : BitVec 4 := slice (s.me.getS b) 0 4
  barForm ⟨.bwait v, false, false, p, w⟩ a (fun pa comp s =>
    withTag va pa (fun ph s =>
      if ph ≠ v then s.upd (fun t => t.retire p)
      else s.upd (fun t => { t with wait := .bwait (.mem pa comp) va v p })) s) s

/-- What a wait entry finds at the object's home: whether P differs, or that the tag has gone; none while the wait goes on
(spec/17_engine_and_system_instructions.md R318). -/
def bwaitLook (s : State) : Wait → Option (Word × BitVec 2 × Bool)
  | .bwait pl va v p =>
    let (w0, w1) := barRead s (placeKey pl).2
    if barTag w1 ≠ 0xB7#8 then some (va, p, false) else if barP w0 ≠ v then some (va, p, true) else none
  | .bwaitOver va p left => some (va, p, left)
  | _ => none

/-- The homes on this package look at their wait entries, as they do each time that an object has been updated, initialised or stored to: what
they find stands, whatever becomes of the object then. -/
def lookAtWaits (s : State) : State :=
  let look (kt : Nat × Strand) : Nat × Strand :=
    match bwaitLook s kt.2.wait with
    | some (va, p, left) => (kt.1, { kt.2 with wait := .bwaitOver va p left })
    | none => kt
  if s.strands.all (fun kt => (bwaitLook s kt.2.wait).isNone) then s else { s with strands := s.strands.map look }

/-- BWAIT_WAKE: the wait entry at the object's home ends the wait when P differs, or raises BARRIER_TAG when the tag has gone
(spec/17_engine_and_system_instructions.md R318). -/
def execBwaitWake (s : State) : Out :=
  let slot := s.arg.slot
  let t := s.strand slot
  if t.phase ≠ .running then .next s
  else match bwaitLook s t.wait with
    | some (_, p, true) => .next (s.updSlot slot (fun t => t.retire p))
    | some (va, _, false) => .next (raiseAt s slot t.pc (barTrap .barrierTag va))
    | none => .next s

/-! ### Tokens and guards (spec/17_engine_and_system_instructions.md R320, R321) -/

/-- TOKP reserves at issue; its token is pushed when every earlier instruction has retired. -/
def execTokp (p : BitVec 2) (s : State) : Out :=
  match reserveToken s.me .s p with
  | none => .next s
  | some t1 =>
    let (q, s1) := s.nextSeq
    .next (s1.upd (fun t =>
      { t with tokRes := t1.tokRes, tokps := t.tokps ++ [(q, p)] }.flush.next))

/-- TOKW pops at issue. -/
def execTokw (w : BitVec 2) (s : State) : Out :=
  match popToken s.me .s w with
  | none => .next s
  | some t1 => .next (s.upd (fun t => { t with tok := t1.tok }.next))

def execGset (a : BitVec 5) (g : BitVec 4) (s : State) : Out :=
  .next (s.upd (fun t => (gset t g (t.getS a != 0#64)).next))

def execGrst (g : BitVec 4) (s : State) : Out :=
  match grst s.me g with
  | none => .next s
  | some _ => .next (s.upd (fun t => ((grst t g).getD t).next))

/-! ### WFE and WSB (spec/17_engine_and_system_instructions.md R334, R335) -/

/-- WFE clears the flag and goes on, or waits for it. -/
def execWfe (a : BitVec 5) (s : State) : Out :=
  .next (s.upd (fun t =>
    if t.evFlag then { t with evFlag := false }.next
    else
      let since := match t.wait with
        | .wfe c _ => c
        | _ => s.cycle
      { t with wait := .wfe since (t.getS a) }))

/-- WFE_TIMEOUT: the limit has passed since the issue; the flag is clear afterwards. -/
def execWfeTimeout (s : State) : Out :=
  let slot := s.arg.slot
  let t := s.strand slot
  match t.wait with
  | .wfe since n =>
    if t.phase = .running ∧ n ≠ 0#64 ∧ since + n.toNat ≤ s.cycle then
      .next (s.updSlot slot (fun t => { t with evFlag := false }.next))
    else .next s
  | _ => .next s

/-- WSB over the listed slots. -/
def execWsb (m : BitVec 7) (s : State) : Out :=
  match waitSlots s.me (m ++ 0#1) with
  | .error j => .next (raiseSlot s j)
  | .pending => .next s
  | .ready => .next (s.upd Strand.next)

end Sys2Proof.Machine
end

