-- ==== Sys2Proof/Machine/Access.lean ====
section
/-! DEFINITION. The life of an outstanding stream access after its instruction has issued: performed at its home or answered by a
peer, acknowledged, failed late, and the remote tags (spec/05_memories.md R97 to R99, spec/06_memory_ordering.md R106, R107,
spec/12_barriers_and_counters.md R211, R212, spec/15_vector_instructions.md R280). -/

namespace Sys2Proof.Machine

open Sys2Proof

/-- Is the access the flag increment of an STN? -/
def isFlag (a : Access) : Bool :=
  match a.op with
  | .flag _ => true
  | _ => false

/-- Is the access an element of a vector load that later instructions do not wait for? -/
def isLateLoad (a : Access) : Bool :=
  match a.op with
  | .vload _ _ _ => !a.blocks
  | _ => false

/-- May the access at a position of a strand's list be performed now (spec/06_memory_ordering.md R107, R108)? The elements of a form
that later instructions wait for are performed in ascending order. -/
def mayPerform (t : Strand) (slot i : Nat) (a : Access) : Bool :=
  t.phase != .free && !heldBack (dieOf (coreOf slot)) t.out i a &&
    !(a.blocks && (t.out.take i).any (fun b => b.seq == a.seq))

/-- The access is performed at its home here, meets the home's fault, or its reply from a peer arrives. -/
def performAccess (s : State) (slot i : Nat) (a : Access) (rep : Reply) : State :=
  match performFault s slot a with
  | some c => accessFails s slot i a c
  | none => performAt s slot i a rep

/-- The request of an access leaves for its peer: nothing holds it back any more (spec/06_memory_ordering.md R107). -/
def sendAccess (s : State) (slot i : Nat) (a : Access) : State :=
  let b : Access := { a with sent := true, since := s.cycle }
  sendRequest (s.updSlot slot (fun u => { u with out := setNth u.out i b })) slot b

/-- The reply of the join decrement at a position returns (spec/10_descriptor_tables.md R180). -/
def joinReply (s : State) (i : Nat) (rep : Reply) : State :=
  match s.joinOps[i]? with
  | none => s
  | some j =>
    let s1 := giveTag { s with joinOps := dropNth s.joinOps i } j.tag
    match replyValue rep with
    | .ok _ => s1
    | .error c => joinFail s1 j.part j.sid j.va c

/-- The outstanding access at a position of a strand's list is performed, or its request leaves, or its reply returns. The flag increment
of an STN and the late error of a vector load have steps of their own. -/
def performOut (s : State) (slot i : Nat) (rep : Reply) : State :=
  match (s.strand slot).out[i]? with
  | none => s
  | some a =>
    if isFlag a || !mayPerform (s.strand slot) slot i a || (isLateLoad a && (performFault s slot a).isSome) ||
        underTest s slot a.place a.n then s
    else if isLocal s a.place || a.sent then performAccess s slot i a rep
    else sendAccess s slot i a

/-- STN_FLAG_INCREMENT: once the data write has been acknowledged and every access before the release has been performed, the flag word
is incremented by 1 at its home; for a home on another package the request leaves now and its reply is awaited like that of a
posted atomic (spec/05_memories.md R99). -/
def execStnFlagIncrement (s : State) : Out :=
  let slot := s.arg.slot
  let t := s.strand slot
  match t.out[s.arg.idx]? with
  | none => .next s
  | some a =>
    if !isFlag a || !mayPerform t slot s.arg.idx a || underTest s slot a.place a.n then .next s
    else if isLocal s a.place then .next (performAccess s slot s.arg.idx a s.arg.rep)
    else
      .next (sendAccess s slot s.arg.idx { a with
        op := .amo 0#4 1#64 0#5
        rel := none })

/-- VECTOR_LOAD_LATE_ERROR: a local element returns poison or MEMLOST after later instructions have issued. The element of the
destination is marked, and the form's slot will complete in error (spec/15_vector_instructions.md R280). -/
def execVectorLoadLateError (s : State) : Out :=
  let slot := s.arg.slot
  let t := s.strand slot
  match t.out[s.arg.idx]? with
  | none => .next s
  | some a =>
    match a.op, performFault s slot a with
    | .vload reg bit _, some c =>
      if a.blocks || !mayPerform t slot s.arg.idx a then .next s
      else
        let m : Mark := ⟨reg, bit, 8 * a.n, c, a.va, a.elem⟩
        let s1 := settle (lostLog slot a.place a.va c s) slot s.arg.idx a (fun u => { u.cover reg (elemMask bit (8 * a.n)) with
          marks := u.marks.filter (fun x => !markHits reg bit (8 * a.n) x) ++ [m] })
        .next (if a.sb = 0#3 then s1 else s1.updSlot slot (fun u =>
          if u.sbFail.any (fun x => x.1 == a.sb) then u else { u with sbFail := u.sbFail ++ [(a.sb, c)] }))
    | _, _ => .next s

/-- SCATTER_ACK: the acknowledgement at position `idx` among those on their way reaches its lane
(spec/12_barriers_and_counters.md R212). -/
def execScatterAck (s : State) : Out :=
  .next (s.updSlot s.arg.slot (fun t =>
    match t.acks[s.arg.idx]? with
    | none => t
    | some lane => { t with
        acks := dropNth t.acks s.arg.idx
        unacked := tabPut 0 t.unacked lane (tabGet 0 t.unacked lane - 1) }))

/-- SCOREBOARD_SLOT_COMPLETE: every access of the instruction that set slot `num` has been performed, so the slot completes, or
completes in error, which is recorded (spec/12_barriers_and_counters.md R211). Either sets the event flag
(spec/17_engine_and_system_instructions.md R334). -/
def execScoreboardSlotComplete (s : State) : Out :=
  let slot := s.arg.slot
  let t := s.strand slot
  let j := s.arg.num
  if 1 ≤ j ∧ j < 8 ∧ t.sbPend.getLsbD j = true ∧ t.out.all (fun a => a.seq != tabGet 0 t.sbOwner j) then
    let cause := (t.sbFail.find? (fun x => x.1.toNat == j)).map (fun x => x.2)
    let s1 := s.setStrand slot { t with
      sbPend := putBit t.sbPend j false
      sbErr := if cause.isSome then putBit t.sbErr j true else t.sbErr
      sbOwner := tabErase t.sbOwner j
      sbFail := t.sbFail.filter (fun x => x.1.toNat != j)
      evFlag := true }
    match cause with
    | none => .next s1
    | some c => .next (errLog (some t.part) (dieOf (coreOf slot)) (sidOf slot) 0x0A 0 (j + 256 * classCode c) s1)
  else .next s

/-! ### Remote tags (spec/05_memories.md R98) -/

/-- TAG_QUARANTINE_END: the quarantine of tag `num` (die times 4,096 plus tag) ends, and the tag is free. -/
def execTagQuarantineEnd (s : State) : Out :=
  let x := s.tag s.arg.num
  if x.busy = true ∧ x.until_ ≠ 0 ∧ x.until_ ≤ s.cycle then
    .next { s with tags := tabSet s.tags s.arg.num { x with busy := false, until_ := 0 } }
  else .next s

/-- LATEREPLY: a reply for tag `num` whose generation `idx` is no longer the tag's is dropped, and counted over the die. -/
def execLatereply (s : State) : Out :=
  let x := s.tag s.arg.num
  if s.arg.num < 24576 ∧ BitVec.ofNat 6 s.arg.idx ≠ x.gen then
    .next (countDieEvent s (s.arg.num / 4096) 0x000A 1)
  else .next s

/-- Has a request that left at a tick had no reply for REMTO ticks? -/
def overdue (s : State) (since : Nat) : Bool := decide (since + s.remto ≤ s.cycle)

/-- An outstanding access of a strand times out: its tag is quarantined, and the access fails (spec/05_memories.md R97). -/
def accessTimeout (s : State) (slot i : Nat) : State :=
  match (s.strand slot).out[i]? with
  | none => s
  | some a =>
    if !a.sent || !overdue s a.since || (a.blocks && ((s.strand slot).out.take i).any (fun b => b.seq == a.seq))
    then s
    else
      let b : Access := { a with tag := none }
      let s1 := (dropTag s a.tag).updSlot slot (fun t => { t with out := setNth t.out i b })
      accessFails s1 slot i b .remoteTimeout

end Sys2Proof.Machine
end

