-- ==== Sys2Proof/Machine/Copy.lean ====
section
/-! DEFINITION. The copy engine: the copy forms, the start and the retirement of a copy, guarded commands that are discarded, and
the requests of copies and tiles that time out (spec/17_engine_and_system_instructions.md R310 to R315,
spec/10_descriptor_tables.md R183 to R186, spec/22_program_convolution.md R381, spec/05_memories.md R92,
spec/07_queues_and_scheduling.md R122, R123). -/

namespace Sys2Proof.Machine

open Sys2Proof

/-! ### Enqueueing -/

/-- The register after c, modulo nothing: c is even and at most 30 (spec/13_encoding.md R231). -/
def nextReg (c : BitVec 5) : BitVec 5 := c + 1#5

/-- A copy form is appended to the C queue of its strand with the values it read, or waits while the queue holds 16 commands
(spec/01_execution_model.md R8). It captures its guard's current epoch. -/
def copyForm (ins : Instr) (a b c : BitVec 5) (g : BitVec 4) (p w : BitVec 2) (s : State) : Out :=
  let t := s.me
  if 16 ≤ t.cq.length then .next s
  else .next (s.upd (fun t =>
    let (e, t1) := captureGuard t g
    let cmd : CCommand := {
      ins := ins
      pc := t.pc
      dst := t.getS a
      src := t.getS b
      arg := t.getS c
      bar := t.getS (nextReg c)
      guard := e
      pop := w
      push := p }
    { t1 with cq := t1.cq ++ [cmd] }.next))

/-- CPY (spec/17_engine_and_system_instructions.md R311). -/
def execCpy (a b c : BitVec 5) (g : BitVec 4) (p w : BitVec 2) (s : State) : Out :=
  copyForm (.cpy a b c g p w) a b c g p w s
def execCpyt (a b c : BitVec 5) (g : BitVec 4) (p w : BitVec 2) (s : State) : Out :=
  copyForm (.cpyt a b c g p w) a b c g p w s
def execMdiscard (a c : BitVec 5) (g : BitVec 4) (p w : BitVec 2) (s : State) : Out :=
  copyForm (.mdiscard a c g p w) a 0#5 c g p w s
def execCpyz (a b c : BitVec 5) (g : BitVec 4) (p w : BitVec 2) (s : State) : Out :=
  copyForm (.cpyz a b c g p w) a b c g p w s

/-! ### Owners -/

/-- The slot of the strand that owns engine work, when it is bound. -/
def ownerSlot (s : State) (o : Owner) : Option Nat :=
  (s.strands.find? (fun kt => kt.2.phase != .free && o.isOf kt.2)).map (fun kt => kt.1)

/-- Changes the strand of an owner: in its slot, or in its save record (spec/07_queues_and_scheduling.md R119). -/
def updOwner (s : State) (o : Owner) (f : Strand → Strand) : State :=
  match ownerSlot s o with
  | some slot => s.updSlot slot f
  | none => { s with gangs := s.gangs.map (fun g =>
      if g.isAt o.part o.area then { g with images := g.images.map (fun x => if x.1 = o.rank then (x.1, f x.2) else x) }
      else g) }

/-- The context of a copy's accesses. -/
def copyCtx (s : State) (o : Owner) (core : Nat) : Ctx :=
  let near := match ownerSlot s o with
    | some slot => (s.strand slot).sf.toNat * 32768
    | none => 0
  ⟨tileTlb core, o.part, near, false⟩

/-! ### Reading and writing by sectors -/

/-- What every part of a copy needs: the memory as the copy found it, the owner's slot, whether its accesses are only planned, so that its
requests to peers are known, and the class that it meets where the peers' answers end (none: they have not all come). -/
structure CopyEnv where
  before : State
  slot : Nat
  ctx : Ctx
  plan : Bool
  stop : Option FaultClass

/-- Why an access of a copy stops it: it has to wait, for bytes of a peer or for a self-test; or a status with its address. -/
inductive CopyStop where
  | short
  | bad (status va : Nat)
deriving DecidableEq, Repr

/-- Bytes that were read, the first poisoned address among them, what is left of the peers' bytes, and the state. -/
structure CopyRead where
  bytes : List Byte
  poison : Option Nat
  feed : Feed
  st : State

/-- The status code of a fault class. -/
def statusOf (c : FaultClass) : Nat := classCode c

/-- Bytes of one sector of a peer: asked for while the copy is planned, else taken from the feed, or the stop where it has ended. -/
def farRead (e : CopyEnv) (va m : Nat) (pl : Place) (f : Feed) (st : State) : Except CopyStop CopyRead :=
  if e.plan then
    let req := match pl with
      | .remote p pa => [Outgoing.request p pa m (.load 0#5 false)]
      | _ => []
    .ok ⟨List.replicate m 0#8, none, f, { st with outbox := st.outbox ++ req }⟩
  else if f.data.length < m then
    match e.stop with
    | none => .error .short
    | some c => .error (.bad (statusOf c) va)
  else
    let (bs, poison, f1) := f.take m
    .ok ⟨bs, if poison then some va else none, f1, st⟩

/-- Bytes of one local sector, as the copy found them. -/
def nearbyRead (e : CopyEnv) (va m : Nat) (pl : Place) (f : Feed) (st : State) : Except CopyStop CopyRead :=
  if underTest e.before e.slot pl m then .error .short
  else
    let st1 := countNear st e.slot pl
    match accessFault e.before e.slot pl m true with
    | some .poison => .ok ⟨placeRead e.before e.slot pl m, some va, f, st1⟩
    | some c => .error (.bad (statusOf c) va)
    | none => .ok ⟨placeRead e.before e.slot pl m, none, f, st1⟩

/-- Reads `n` bytes from an address on, sector by sector: bytes come from the memory as the copy found it. -/
def copyRead (e : CopyEnv) (va : Nat) : Nat → Nat → Feed → State → Except CopyStop CopyRead
  | 0, _, f, st => .ok ⟨[], none, f, st⟩
  | _, 0, f, st => .ok ⟨[], none, f, st⟩
  | k + 1, n + 1, f, st =>
    let m := min (n + 1) (32 - va % 32)
    match locate st e.ctx (BitVec.ofNat 64 va) m 1 .read acceptsPlain with
    | .error x => .error (.bad (statusOf x.cls) va)
    | .ok (pl, st1) =>
      match (if isLocal st pl then nearbyRead e va m pl f st1 else farRead e va m pl f st1) with
      | .error x => .error x
      | .ok r1 =>
        match copyRead e (va + m) k (n + 1 - m) r1.feed r1.st with
        | .error x => .error x
        | .ok r => .ok ⟨r1.bytes ++ r.bytes, r1.poison.orElse (fun _ => r.poison), r.feed, r.st⟩

/-- A run of destination bytes within one sector, with its source address or its bytes. -/
structure Piece where
  dst : Nat
  n : Nat
  src : Option Nat
  lit : List Byte
deriving DecidableEq, Repr

/-- Cuts a piece of at most 32 bytes at a sector boundary. -/
def cutPiece (p : Piece) : List Piece :=
  let m := 32 - p.dst % 32
  if p.n ≤ m then [p]
  else [⟨p.dst, m, p.src, p.lit.take m⟩, ⟨p.dst + m, p.n - m, p.src.map (· + m), p.lit.drop m⟩]

/-- Gathers neighbouring pieces of one destination sector. -/
def groupPieces : List Piece → List (List Piece)
  | [] => []
  | p :: rest =>
    match groupPieces rest with
    | (q :: qs) :: gs => if q.dst / 32 = p.dst / 32 then (p :: q :: qs) :: gs else [p] :: (q :: qs) :: gs
    | gs => [p] :: gs

/-- What a copy has done so far: sectors delivered, its status and first failing address, what is left of the peers' bytes, and its writes
to other packages, each with the address of its sector. -/
structure CopyRun where
  st : State
  sectors : Nat
  status : Nat
  bad : Nat
  feed : Feed
  far : List (Nat × Outgoing)

/-- Bytes written by an engine: to another package one write leaves, which its home performs whole. -/
def enginePut (s : State) (slot : Nat) (pl : Place) (bs : List Byte) : State :=
  match pl with
  | .near off => s.updSlot slot (fun t => nearWrite t off bs)
  | .mem pa comp => homeWrite s none pa bs comp
  | .remote p pa =>
    if p = s.self then homeWrite s none pa bs false
    else { s with outbox := s.outbox ++ [.write p pa bs] }
  | .device _ => s

/-- Bytes written by an engine that carry poison to their sector (spec/05_memories.md R103): to another package one write leaves, which
poisons the sector there. -/
def enginePoison (s : State) (slot : Nat) (pl : Place) (bs : List Byte) : State :=
  let s1 := enginePut s slot pl bs
  match pl with
  | .near off => s1.updSlot slot (fun t => { t with nearBad := insNat (off / 32) t.nearBad })
  | .mem pa _ => poisonSectors s1 [pa / 32]
  | .remote p pa =>
    if p = s.self then poisonSectors s1 [pa / 32]
    else { s with outbox := s.outbox ++ [.poisoned p pa bs] }
  | .device _ => s1

/-- The pieces of one destination sector are read: with their bytes, the first poisoned address. -/
def readPieces (e : CopyEnv) : List Piece → Feed → State →
    Except CopyStop (List (Piece × List Byte) × Option Nat × Feed × State)
  | [], f, st => .ok ([], none, f, st)
  | p :: rest, f, st =>
    let got : Except CopyStop CopyRead := match p.src with
      | none => .ok ⟨p.lit, none, f, st⟩
      | some va => copyRead e va 4 p.n f st
    match got with
    | .error x => .error x
    | .ok r =>
      match readPieces e rest r.feed r.st with
      | .error x => .error x
      | .ok (l, b, g, u) => .ok ((p, r.bytes) :: l, r.poison.orElse (fun _ => b), g, u)

/-- The places of the pieces of one destination sector, checked for a write. -/
def placePieces (e : CopyEnv) : List (Piece × List Byte) → State → Except CopyStop (List (Place × List Byte) × State)
  | [], st => .ok ([], st)
  | (p, bs) :: rest, st =>
    match locate st e.ctx (BitVec.ofNat 64 p.dst) p.n 1 .write acceptsPlain with
    | .error f => .error (.bad (statusOf f.cls) p.dst)
    | .ok (pl, st1) =>
      if underTest st e.slot pl p.n then .error .short
      else match (if isLocal st pl then accessFault st e.slot pl p.n false else none) with
      | some c => .error (.bad (statusOf c) p.dst)
      | none =>
        match placePieces e rest st1 with
        | .error x => .error x
        | .ok (l, u) => .ok ((pl, bs) :: l, u)

/-- The bytes of one destination sector that lie on other packages: neighbouring pieces are one write. -/
def farPieces : List (Place × List Byte) → List (BitVec 10 × Nat × List Byte)
  | [] => []
  | (pl, bs) :: rest =>
    let more := farPieces rest
    match pl with
    | .remote p pa =>
      (match more with
        | (q, a, cs) :: l => if q = p ∧ a = pa + bs.length then (p, pa, bs ++ cs) :: l else (p, pa, bs) :: more
        | [] => [(p, pa, bs)])
    | _ => more

/-- The sectors of a copy in ascending order, up to the first that fails; none where it has to wait. -/
def copySectors (e : CopyEnv) : List (List Piece) → CopyRun → Option CopyRun
  | [], r => some r
  | g :: rest, r =>
    match readPieces e g r.feed r.st with
    | .error .short => none
    | .error (.bad c va) => some (if r.status = 0 then { r with status := c, bad := va } else r)
    | .ok (l, poison, feed, u) =>
      match placePieces e l u with
      | .error .short => none
      | .error (.bad c va) => some (if r.status = 0 then { r with status := c, bad := va } else r)
      | .ok (places, u1) =>
        let put := if poison.isSome then enginePoison else enginePut
        let u2 := (places.filter (fun x => isLocal u1 x.1)).foldl (fun v x => put (countNear v e.slot x.1) e.slot x.1 x.2) u1
        let out (x : BitVec 10 × Nat × List Byte) : Outgoing :=
          if poison.isSome then .poisoned x.1 x.2.1 x.2.2 else .write x.1 x.2.1 x.2.2
        let far := (farPieces (places.filter (fun x => !isLocal u1 x.1))).map (fun x => (((g.map Piece.dst).headD 0), out x))
        let r1 : CopyRun := ⟨u2, r.sectors + 1, r.status, r.bad, feed, r.far ++ far⟩
        copySectors e rest (match poison with
          | some va => if r.status = 0 then { r1 with status := 0x07, bad := va } else r1
          | none => r1)

/-! ### What each copy moves -/

/-- The destination sectors of a linear range: start and bytes of each. -/
def sectorCuts (dst len : Nat) : List (Nat × Nat) :=
  (unitsOf 32 dst len).map (fun x => (max dst (32 * x), min (dst + len) (32 * x + 32) - max dst (32 * x)))

/-- The length of CPY, MDISCARD and CPYZ (spec/17_engine_and_system_instructions.md R311). -/
def copyLen (c : CCommand) : Nat := (slice c.arg 0 40).toNat

/-- Byte x of a CPYZ pattern, aligned to memory. -/
def patternByte (w : Word) (x : Nat) : Byte := slice w (8 * (x % 8)) 8

def cpyPieces (c : CCommand) : List Piece :=
  (sectorCuts c.dst.toNat (copyLen c)).map (fun x => ⟨x.1, x.2, some (c.src.toNat + (x.1 - c.dst.toNat)), []⟩)

def cpyzPieces (c : CCommand) : List Piece :=
  (sectorCuts c.dst.toNat (copyLen c)).map (fun x =>
    ⟨x.1, x.2, none, (List.range x.2).map (fun i => patternByte c.src (x.1 + i))⟩)

/-! ### Tensor maps (spec/10_descriptor_tables.md R183 to R186) -/

/-- An axis: extent, span word and stride word. -/
structure Axis where
  extent : Nat
  span : Nat
  stride : Nat
deriving DecidableEq, Repr

def tmBase (m : BitVec 896) : Nat := (slice m 0 52).toNat
def tmAxes (m : BitVec 896) : Nat := (slice m 64 3).toNat
def tmEsz (m : BitVec 896) : Nat := 2 ^ (slice m 68 2).toNat
def tmWindow (m : BitVec 896) : Bool := m.getLsbD 72
def tmPitch (m : BitVec 896) : Nat := (slice m 96 32).toNat
def tmFill (m : BitVec 896) : Nat := (slice m 128 64).toNat
def tmAxis (m : BitVec 896) (d : Nat) : Axis :=
  ⟨(slice m (192 + 128 * d) 32).toNat, (slice m (224 + 128 * d) 16).toNat, (slice m (256 + 128 * d) 52).toNat⟩
def tmKr (m : BitVec 896) : Nat := (slice m 832 8).toNat
def tmKs (m : BitVec 896) : Nat := (slice m 840 8).toNat
/-- The 4-bit fields of the window word: STRH, STRW, DILH, DILW, PADH, PADW. -/
def tmNib (m : BitVec 896) (i : Nat) : Nat := (slice m (848 + 4 * i) 4).toNat

/-- Bytes of one destination row. -/
def tmRow (m : BitVec 896) : Nat := (if tmWindow m then tmKr m * tmKs m else 1) * (tmAxis m 0).span * tmEsz m

/-- Is every reserved bit of the map zero (spec/10_descriptor_tables.md R183)? -/
def tmReserved (m : BitVec 896) : Bool :=
  slice m 52 12 == 0#12 && !m.getLsbD 67 && slice m 70 2 == 0#2 && slice m 73 23 == 0#23 &&
    (List.range 5).all (fun d => slice m (240 + 128 * d) 16 == 0#16 && slice m (308 + 128 * d) 12 == 0#12) &&
    slice m 872 24 == 0#24

/-- The check of a map (spec/10_descriptor_tables.md R186, spec/22_program_convolution.md R381). -/
def tmOk (m : BitVec 896) : Bool :=
  let n := tmAxes m
  let e := tmEsz m
  tmReserved m && decide (1 ≤ n) && decide (n ≤ 5) &&
    (List.range 5).all (fun d =>
      if d < n then decide ((tmAxis m d).span ≠ 0) && decide ((tmAxis m d).stride % e = 0)
      else slice m (192 + 128 * d) 128 == 0#128) &&
    decide ((tmAxis m 0).stride = e) && decide (tmBase m % e = 0) &&
    (decide (tmPitch m = 0) || (decide (tmPitch m % 32 = 0) && decide (tmRow m ≤ tmPitch m))) &&
    (if tmWindow m then
      decide (n = 4) && decide (tmKr m ≠ 0) && decide (tmKs m ≠ 0) &&
        (List.range 4).all (fun i => decide (tmNib m i ≠ 0)) &&
        decide ((tmAxis m 2).span = 1) && decide ((tmAxis m 3).span = 1)
    else slice m 832 64 == 0#64)

/-- The pitch of destination rows. -/
def tmStep (m : BitVec 896) : Nat := if tmPitch m ≠ 0 then tmPitch m else tmRow m

/-- One destination element: an element of the tensor, or FILL outside it. `xs` are its indices along the axes. -/
def tmPiece (m : BitVec 896) (dst : Nat) (xs : List Int) (valid : Bool) : List Piece :=
  let e := tmEsz m
  let ds := (List.range xs.length).zip xs
  let inside := valid && ds.all (fun p => decide (0 ≤ p.2) && decide (p.2 < ((tmAxis m p.1).extent : Int)))
  let va := ds.foldl (fun a p => a + p.2.toNat * (tmAxis m p.1).stride) (tmBase m)
  cutPiece (if inside then ⟨dst, e, some va, []⟩ else ⟨dst, e, none, natBytes e (tmFill m)⟩)

/-- The start indices of block mode, each signed in its own width (spec/10_descriptor_tables.md R184). -/
def tmStarts (c : Word) : List Int :=
  [(slice c 0 16).toInt, (slice c 16 16).toInt, (slice c 32 12).toInt, (slice c 44 12).toInt, (slice c 56 8).toInt]

/-- Block mode (spec/10_descriptor_tables.md R184): axis 0 fastest. -/
def blockPieces (m : BitVec 896) (a : Nat) (arg : Word) : List Piece :=
  let n := tmAxes m
  let sp (d : Nat) : Nat := if d < n then (tmAxis m d).span else 1
  let c := tmStarts arg
  let rows := sp 1 * (sp 2 * (sp 3 * sp 4))
  (List.range rows).flatMap (fun row =>
    let b1 := row % sp 1
    let b2 := row / sp 1 % sp 2
    let b3 := row / (sp 1 * sp 2) % sp 3
    let b4 := row / (sp 1 * sp 2 * sp 3)
    (List.range (sp 0)).flatMap (fun b0 =>
      let b : List Nat := [b0, b1, b2, b3, b4]
      let xs := (List.range n).map (fun d => nth 0 c d + ((nth 0 b d : Nat) : Int))
      tmPiece m (a + row * tmStep m + b0 * tmEsz m) xs true))

/-- Output pixels along one axis, by the rule's floor; zero or less where the kernel does not fit. -/
def tmOut (extent pad dil k str : Nat) : Int :=
  (((extent + 2 * pad : Nat) : Int) - (dil * (k - 1) : Nat) - 1).fdiv (str : Int) + 1

/-- Window mode (spec/10_descriptor_tables.md R185): j fastest, then the kernel column, then the kernel row. -/
def windowPieces (m : BitVec 896) (a : Nat) (arg : Word) : List Piece :=
  let c0 := (slice arg 0 16).toNat
  let p0 := (slice arg 16 32).toNat
  let img := (slice arg 48 16).toNat
  let (kr, ks) := (tmKr m, tmKs m)
  let oh := tmOut (tmAxis m 2).extent (tmNib m 4) (tmNib m 2) kr (tmNib m 0)
  let ow := tmOut (tmAxis m 1).extent (tmNib m 5) (tmNib m 3) ks (tmNib m 1)
  let span := (tmAxis m 0).span
  (List.range (tmAxis m 1).span).flatMap (fun row =>
    let p : Int := ((p0 + row : Nat) : Int)
    let valid := decide (p < oh * ow)
    let oy := p.fdiv ow
    let ox := p.fmod ow
    (List.range kr).flatMap (fun r => (List.range ks).flatMap (fun q => (List.range span).flatMap (fun j =>
      let k := (r * ks + q) * span + j
      let iy : Int := oy * (tmNib m 0 : Nat) - (tmNib m 4 : Nat) + (r * tmNib m 2 : Nat)
      let ix : Int := ox * (tmNib m 1 : Nat) - (tmNib m 5 : Nat) + (q * tmNib m 3 : Nat)
      tmPiece m (a + row * tmStep m + k * tmEsz m) [(c0 + j : Nat), ix, iy, (img : Nat)] valid))))

/-- The pieces of a copy, in the order of its destination. -/
def copyPieces (c : Copy) : List Piece :=
  match c.cmd.ins with
  | .cpy _ _ _ _ _ _ => cpyPieces c.cmd
  | .cpyz _ _ _ _ _ _ => cpyzPieces c.cmd
  | .cpyt _ _ _ _ _ _ =>
    if tmWindow c.tmap then windowPieces c.tmap c.cmd.dst.toNat c.cmd.arg
    else blockPieces c.tmap c.cmd.dst.toNat c.cmd.arg
  | _ => []

/-! ### MDISCARD (spec/05_memories.md R92) -/

/-- The status of a page that a discard cannot have: a near, device or remote page is PERM, whatever its peer (spec/05_memories.md R92,
spec/17_engine_and_system_instructions.md R313). -/
def discardStatus (va : Nat) (c : FaultClass) : Nat :=
  if inNear va || c == .peerDenied || c == .peerAbsent then 0x02 else statusOf c

/-- Locates the pages of a range, 64 KiB at a time, for a discard: only local memory of kinds 00 and 01. -/
def discardPages (e : CopyEnv) : Nat → Nat → Nat → State → Except CopyStop (List (Nat × Nat) × State)
  | 0, _, _, st => .ok ([], st)
  | _, _, 0, st => .ok ([], st)
  | k + 1, va, n + 1, st =>
    let m := min (n + 1) (65536 - va % 65536)
    match locate st e.ctx (BitVec.ofNat 64 va) m 1 .write acceptsLocal with
    | .ok (.mem pa _, st1) =>
      (match discardPages e k (va + m) (n + 1 - m) st1 with
        | .error x => .error x
        | .ok (l, u) => .ok ((pa, m) :: l, u))
    | .ok _ => .error (.bad 0x02 va)
    | .error f => .error (.bad (discardStatus va f.cls) va)

/-- The address of the first 4 KiB block of the runs of a range, from an address on, whose stack is shut down (spec/05_memories.md R81,
R94). -/
def firstLost (s : State) : Nat → List (Nat × Nat) → Option Nat
  | _, [] => none
  | va, x :: rest =>
    match (unitsOf 4096 x.1 x.2).find? (fun b => memLost s (4096 * b)) with
    | some b => some (va + (4096 * b - x.1))
    | none => firstLost s (va + x.2) rest

/-- A discard: nothing where a page fails; otherwise every row group that lies wholly within the range is marked dead, 64 sectors
each. A range on a shut-down stack changes nothing. -/
def discardRun (e : CopyEnv) (c : CCommand) (s : State) : CopyRun :=
  let n := copyLen c
  let fin (u : State) (sectors st va : Nat) : CopyRun := ⟨u, sectors, st, va, ⟨[], 0, []⟩, []⟩
  match discardPages e (n / 65536 + 2) c.dst.toNat n s with
  | .error (.bad st va) => fin s 0 st va
  | .error .short => fin s 0 0 0
  | .ok (l, s1) =>
    match firstLost s1 c.dst.toNat l with
    | some va => fin s1 0 0x18 va
    | none =>
      let (groups, s2) := l.foldl (fun (r : Nat × State) x =>
        let (g, u) := discardRange r.2 x.1 x.2
        (r.1 + g, u)) (0, s1)
      fin s2 (64 * groups) 0 0

/-! ### Starting (spec/17_engine_and_system_instructions.md R312) -/

/-- What a copy's accesses need, for a copy found in a state. -/
def copyEnv (s : State) (c : Copy) (plan : Bool) (stop : Option FaultClass) : CopyEnv :=
  ⟨s, (ownerSlot s c.owner).getD 0, copyCtx s c.owner c.core, plan, stop⟩

/-- Runs the accesses of a copy: none where it has to wait. -/
def copyRun (s : State) (c : Copy) (plan : Bool) (stop : Option FaultClass) (f : Feed) : Option CopyRun :=
  let e := copyEnv s c plan stop
  match c.cmd.ins with
  | .mdiscard _ _ _ _ _ => some (discardRun e c.cmd s)
  | _ => copySectors e (groupPieces (copyPieces c)) ⟨s, 0, 0, 0, f, []⟩

/-- The requests that planned accesses have put into the outbox. -/
def newAsks (s t : State) : List Outgoing :=
  (t.outbox.drop s.outbox.length).filter (fun x => match x with
    | .request _ _ _ _ => true
    | _ => false)

/-- The reads that a copy asks of other packages, in the order in which it takes their answers. -/
def copyAsks (s : State) (c : Copy) : List Outgoing :=
  match c.cmd.ins with
  | .mdiscard _ _ _ _ _ => []
  | _ => match copyRun s c true none ⟨[], 0, []⟩ with
    | none => []
    | some r => newAsks s r.st

/-- Counts events of engine work in its strand's core, while the strand is bound. -/
def countOwner (s : State) (o : Owner) (e n : Nat) : State :=
  match ownerSlot s o with
  | some slot => countEvent s slot e n
  | none => s

/-- Counts events of a copy. -/
def countCopy (s : State) (c : Copy) (e n : Nat) : State := if c.orphan then s else countOwner s c.owner e n

/-- As many of an engine's requests leave together as remote tags are free on its die; the others wait (spec/05_memories.md R88): the tag that
names those taken, how many have left, and the state. None where there are requests and no tag. -/
def engineSome (s : State) (die : Nat) (l : List Outgoing) : Option (Option Nat × Nat × State) :=
  let n := min l.length (4096 - tagsUsed s die)
  if n = 0 ∧ l ≠ [] then none
  else (engineTag s die n).map (fun x => (x.1, n, { x.2 with outbox := x.2.outbox ++ l.take n }))

/-- How many bytes a request asks for. -/
def askLen (x : Outgoing) : Nat :=
  match x with
  | .request _ _ n _ => n
  | _ => 0

/-- Does the copy hold a transfer for an end in the near window (spec/17_engine_and_system_instructions.md R315)? -/
def copyNear (c : CCommand) (tmap : BitVec 896) : Bool :=
  inNear c.dst.toNat || (match c.ins with
    | .cpy _ _ _ _ _ _ => inNear c.src.toNat
    | .cpyt _ _ _ _ _ _ => inNear (tmBase tmap)
    | _ => false)

/-- The barrier of a copy, checked at the start: its place, or the status. -/
def copyBar (s : State) (ctx : Ctx) (c : CCommand) : Except Nat (Option Place × State) :=
  if c.bar = 0#64 then .ok (none, s)
  else if slice c.bar 0 4 ≠ 0#4 then .error 0x08
  else if inNear c.bar.toNat then .error 0x02
  else match locate s ctx c.bar 16 16 .readWrite acceptsFar with
    | .error f => .error (statusOf f.cls)
    | .ok (pl, s1) => .ok (some pl, s1)

/-- The bytes of the tensor map of a CPYT, or a stop; while they are planned, the state holds the requests that they need. -/
def readMap (s : State) (e : CopyEnv) (c : CCommand) (f : Feed) : Except CopyStop CopyRead :=
  let va := c.src.toNat
  if slice c.src 0 4 ≠ 0#4 then .error (.bad 0x08 va)
  else if inNear va then .error (.bad 0x02 va)
  else copyRead e va 8 112 f s

/-- The map that was read, checked (spec/10_descriptor_tables.md R183, R186): or the status. -/
def checkMap (r : CopyRead) : Except Nat (BitVec 896) :=
  let m : BitVec 896 := bytesBv 896 r.bytes
  if r.poison.isSome then .error 0x07 else if tmOk m then .ok m else .error 0x20

/-- A copy asks other packages for what it still has to read there, as far as tags are free. None where none is. -/
def copyAsk (s : State) (c : Copy) (asks : List Outgoing) (data : List Byte) (bad : List Nat) : Option (Copy × State) :=
  (engineSome s (dieOf c.core) asks).map (fun x =>
    ({ c with phase := .run ⟨asks.drop x.2.1, (asks.take x.2.1).map askLen, data, bad⟩, tag := x.1, since := s.cycle },
      countCopy x.2.2 c 0x0008 x.2.1))

/-- A copy whose map is known asks other packages for what it reads there, and goes on to its accesses. None where no tag is free. -/
def copyBegin (s : State) (c : Copy) (m : BitVec 896) : Option (Copy × State) :=
  let c1 := { c with tmap := m, near := copyNear c.cmd m, phase := .run CopyReads.none }
  copyAsk s c1 (copyAsks s c1) [] []

/-- A copy starts: its barrier is translated, its map read and checked, and its requests leave under remote tags. A map on another package
is asked for first; its copy may prove to have an end in the near window. None where a self-test holds the map, or no tag is free. -/
def startCopy (s : State) (o : Owner) (orphan : Bool) (core : Nat) (cmd : CCommand) : Option State :=
  let add (x : Copy × State) : State := { x.2 with copies := x.2.copies ++ [x.1] }
  let first : Copy := {
    owner := o
    orphan := orphan
    core := core
    cmd := cmd
    status := 0#8
    badVa := 0
    bar := none
    tag := none
    near := copyNear cmd 0#896
    tmap := 0#896
    phase := .run CopyReads.none
    since := s.cycle }
  let stop (c : Copy) (u : State) (st va : Nat) : State := add ({ c with status := BitVec.ofNat 8 st, badVa := va }, u)
  match copyBar s (copyCtx s o core) cmd with
  | .error st => some (stop first s st cmd.bar.toNat)
  | .ok (bar, s1) =>
    let c := { first with bar := bar }
    match cmd.ins with
    | .cpyt _ _ _ _ _ _ =>
      (match readMap s1 (copyEnv s c true none) cmd ⟨[], 0, []⟩ with
        | .error .short => none
        | .error (.bad st va) => some (stop c s1 st va)
        | .ok r =>
          let asks := newAsks s1 r.st
          if asks.isEmpty then
            match checkMap r with
            | .error st => some (stop c s1 st cmd.src.toNat)
            | .ok m => (copyBegin r.st c m).map add
          else
            (engineTag r.st (dieOf core) asks.length).map (fun x =>
              countCopy (add ({ c with near := true, tag := x.1, phase := .map }, x.2)) c 0x0008 asks.length))
    | _ => (copyBegin s1 c 0#896).map add

/-- Is there a transfer for a copy of this owner (spec/07_queues_and_scheduling.md R123)? -/
def transferFree (s : State) (o : Owner) (orphan : Bool) (quota core : Nat) : Bool :=
  decide ((s.copies.filter (fun c => c.owner.same o && c.orphan == orphan)).length < quota) &&
    decide ((s.copies.filter (fun c => c.core == core)).length < 256)

/-- COPY_START for the head of a strand's C queue: its epoch must be resolved true, its token there and its push reserved, and a transfer
free. An EXIT past its fourth step no longer waits for tokens (spec/17_engine_and_system_instructions.md R337), and a copy that starts while it
is there makes no push, so that it waits for no place of one (DESIGN CHOICE, Assumption 41: R119 and R337 speak of its pop, and of pushes
once the slot is free). -/
def startFromSlot (s : State) (slot : Nat) : State :=
  let t := s.strand slot
  match t.cq with
  | [] => s
  | c :: rest =>
    let go := match c.guard with
      | none => true
      | some e => e.val == some true
    let toks : Option Strand := match popToken t .c c.pop with
      | some t1 => if t.wait = .exit then some t1 else reserveToken t1 .c c.push
      | none => if t.wait = .exit then some t else none
    let o := t.owner slot
    if !go || !s.mayIssue t.part t.gang || (t.phase != .running && t.phase != .parked) || !transferFree s o false (recCq t.rcd).toNat (coreOf slot) then s
    else match toks with
      | none => s
      | some t1 =>
        let cmd := if t.wait = .exit then { c with push := 0#2 } else c
        let s1 := { s.setStrand slot { t1 with cq := rest } with lastC := tabPut 0 s.lastC (coreOf slot) (slot % 4) }
        (startCopy s1 o false (coreOf slot) cmd).getD s

/-- COPY_START for the queue of a strand that has retired: a token is popped when there is one, no push is made, and a command whose epoch
is false is dropped. -/
def startFromRetired (s : State) (i : Nat) : State :=
  match s.retiredCq[i]? with
  | none => s
  | some q =>
    if !s.mayIssue q.owner.part q.owner.area then s
    else match q.cmds with
    | [] => { s with retiredCq := dropNth s.retiredCq i }
    | c :: rest =>
      let tok := match otherQueue .c c.pop with
        | none => q.tok
        | some from_ => if q.tok.get from_ .c = 0#4 then q.tok else q.tok.put from_ .c (q.tok.get from_ .c - 1#4)
      let left : List RetiredQueue := if rest = [] then [] else [{ q with tok := tok, cmds := rest }]
      let s1 := { s with
        retiredCq := s.retiredCq.take i ++ left ++ s.retiredCq.drop (i + 1)
        lastC := tabPut 0 s.lastC q.core 4 }
      match c.guard with
      | some e =>
        if e.val ≠ some true then s1
        else if !transferFree s q.owner true q.quota.toNat q.core then s
        else (startCopy s1 q.owner true q.core { c with push := 0#2 }).getD s
      | none =>
        if !transferFree s q.owner true q.quota.toNat q.core then s
        else (startCopy s1 q.owner true q.core { c with push := 0#2 }).getD s

/-! ### Turns of the copy engine (spec/01_execution_model.md R9, spec/07_queues_and_scheduling.md R123) -/

/-- Nothing from the peers. -/
def noFeed : Feed := ⟨[], 0, []⟩

/-- Would a copy at a place of the core's round start: the queues of its four slots, then those of strands that have retired? -/
def cWants (s : State) (core j : Nat) : Bool :=
  if j < 4 then startFromSlot s (4 * core + j) != s
  else (List.range s.retiredCq.length).any (fun i =>
    (s.retiredCq[i]?).any (fun q => q.core == core) && startFromRetired s i != s)

/-- Is it the turn of a place of the core's round: does no place before it have a copy that can start? The spec places only the strands in
their slots; the queues of strands that have retired share one fifth place, in which any of them may start (DESIGN CHOICE,
Assumption 60). -/
def cTurn (s : State) (core j : Nat) : Bool :=
  (((List.range 5).map (fun i => (tabGet 0 s.lastC core + 1 + i) % 5)).takeWhile (fun i => i != j)).all (fun i => !cWants s core i)

/-- COPY_START: the copy at the head of a queue starts, in its core's turn. -/
def execCopyStart (s : State) : Out :=
  match s.arg.copySrc with
  | .slot n => .next (if cTurn s (coreOf n) (n % 4) then startFromSlot s n else s)
  | .retired i =>
    let core := ((s.retiredCq[i]?).map RetiredQueue.core).getD 0
    .next (if cTurn s core 4 then startFromRetired s i else s)

/-! ### Retiring (spec/17_engine_and_system_instructions.md R312, R314) -/

/-- What a failing address of an engine's access leaves behind: the entries that its walk had to mend (spec/09_translation_and_faults.md
R155), and for MEMLOST the error ring's record with its stack (spec/05_memories.md R94). `die` is the reporting die. -/
def engineFault (s : State) (x : Ctx) (sid : BitVec 11) (die status bad : Nat) : State :=
  let at_ (need : Need) : Except Failure (Place × State) := locate s x (BitVec.ofNat 64 bad) 1 1 need acceptsPlain
  let s1 := match at_ .readWrite with
    | .error f => afterFail x.part sid f s
    | .ok _ => s
  if status ≠ 0x18 then s1
  else match at_ .read, at_ .write with
    | .ok (pl, _), _ => errLog (some x.part) die sid 0x04 bad (stackOfPa (placeKey pl).2) s1
    | .error _, .ok (pl, _) => errLog (some x.part) die sid 0x04 bad (stackOfPa (placeKey pl).2) s1
    | .error _, .error _ => s1

/-- What the first failing address of a copy leaves behind. -/
def copyFault (s : State) (c : Copy) (status bad : Nat) : State :=
  if status = 0 then s else engineFault s (copyCtx s c.owner c.core) c.owner.sid (dieOf c.core) status bad

/-- A copy is over: an error is recorded, its tag is given back, its token is pushed. -/
def copyEnd (s : State) (i : Nat) (c : Copy) (status bad : Nat) : State :=
  let s0 := copyFault (giveTag { s with copies := dropNth s.copies i } c.tag) c status bad
  let s1 := if status = 0 then s0 else errLog (some c.owner.part) (dieOf c.core) c.owner.sid 0x0B bad status s0
  let s2 := if c.orphan then s1 else updOwner s1 c.owner (fun t => pushToken t .c c.cmd.push)
  countCopy s2 c 0x000B 1

/-- The copy at a position goes on in a phase that awaits the answers to `n` requests; as it was where no tag is free. -/
def copyAwait (s0 s : State) (i : Nat) (c : Copy) (ph : CopyPhase) (n : Nat) : State :=
  match engineTag (giveTag s c.tag) (dieOf c.core) n with
  | none => s0
  | some (tag, s1) => { s1 with copies := setNth s1.copies i { c with phase := ph, tag := tag, since := s1.cycle } }

/-- The barrier update of a copy whose bytes have all been performed (spec/06_memory_ordering.md R109), and its end. It is refused where its
page has got its scan bit since the copy started (spec/09_translation_and_faults.md R155, spec/13_encoding.md R233). The update of an object
on another package is awaited. -/
def copyUpdate (s0 s : State) (i : Nat) (c : Copy) (sectors status bad : Nat) : State :=
  let va := c.cmd.bar.toNat
  match c.bar with
  | none => copyEnd s i c status bad
  | some pl =>
    if sectors = 0 then copyEnd s i c status bad
    else if isLocal s pl then
      match (if scanRefused s (placeKey pl).2 16 then some .perm else accessFault s 0 pl 16 true) with
      | some cl => if status = 0 then copyEnd s i c (statusOf cl) va else copyEnd s i c status bad
      | none =>
        let (wrong, s1) := engineBar s c.owner.part c.owner.sid pl 0 (-(sectors : Int))
        if wrong ∧ status = 0 then copyEnd s1 i c 0x15 va else copyEnd s1 i c status bad
    else
      let s1 := (engineBar s c.owner.part c.owner.sid pl 0 (-(sectors : Int))).2
      copyAwait s0 (countCopy s1 c 0x0008 1) i c (.update sectors status bad) 1

/-- The writes of a copy to other packages leave, as far as tags are free; with none left its barrier follows. As it was where no tag is
free. -/
def copySend (s0 s : State) (i : Nat) (c : Copy) (sectors status bad : Nat) (far : List (Nat × Outgoing)) : State :=
  if far.isEmpty then copyUpdate s0 s i c sectors status bad
  else match engineSome (giveTag s c.tag) (dieOf c.core) (far.map Prod.snd) with
    | none => s0
    | some (tag, n, s1) =>
      let c1 := { c with
        phase := .writes sectors status bad ((far.take n).map Prod.fst) (far.drop n)
        tag := tag
        since := s1.cycle }
      countCopy { s1 with copies := setNth s1.copies i c1 } c 0x0008 n

/-- The answers to the writes of a copy that are out are there: the sectors of `fails` were not written, for the class given, and those of
the writes that still wait (`rest`) are then not written either; without a failure they leave. -/
def copyWritten (s : State) (i : Nat) (c : Copy) (sectors status bad : Nat) (rest : List (Nat × Outgoing)) (fails : List Nat)
    (cls : FaultClass) : State :=
  match fails with
  | [] => copySend s s i c sectors status bad rest
  | v :: more =>
    let n := sectors - (fails ++ rest.map Prod.fst).eraseDups.length
    if status = 0 then copyUpdate s s i c n (statusOf cls) (more.foldl min v)
    else copyUpdate s s i c n status bad

/-- The update of a copy's barrier on another package has been answered: by its words before the update, or by an error. A bad tag is
recorded (spec/12_barriers_and_counters.md R210). -/
def copyUpdated (s : State) (i : Nat) (c : Copy) (status bad : Nat) (rep : Reply) : State :=
  let va := c.cmd.bar.toNat
  match replyValue rep with
  | .error cl => if status = 0 then copyEnd s i c (statusOf cl) va else copyEnd s i c status bad
  | .ok x =>
    if x / 2 ^ 120 % 256 = 0xB7 then copyEnd s i c status bad
    else
      let pa := match c.bar with
        | some pl => (placeKey pl).2
        | none => 0
      let s1 := errLog (some c.owner.part) (dieOf c.core) c.owner.sid 0x07 pa (x / 2 ^ 120 % 256) s
      if status = 0 then copyEnd s1 i c 0x15 va else copyEnd s1 i c status bad

/-- The reads of a copy at other packages are over, with these bytes, or an error after them: its accesses are made, and its writes to other
packages leave. -/
def copyMade (s : State) (i : Nat) (c : Copy) (stop : Option FaultClass) (f : Feed) : State :=
  match copyRun s c false stop f with
  | none => s
  | some r => copySend s r.st i c r.sectors r.status r.bad r.far

/-- The answers to the reads that are out: where all are there and further reads wait, these leave; otherwise the copy's accesses are made. -/
def copyAnswered (s : State) (i : Nat) (c : Copy) (r : CopyReads) (x : Args) : State :=
  let data := r.data ++ x.data
  let bad := r.bad ++ x.peers.map (fun b => b + r.data.length)
  match replyClass x.rep with
  | some cls => copyMade s i c (some cls) ⟨data, 0, bad⟩
  | none =>
    if x.data.length < r.out.sum then s
    else if r.rest.isEmpty then copyMade s i c none ⟨data, 0, bad⟩
    else match copyAsk (giveTag s c.tag) c r.rest data bad with
      | none => s
      | some (c1, s1) => { s1 with copies := setNth s1.copies i c1 }

/-- The peers have answered for the map of a copy: it is checked, and the copy goes on, or ends with a status. -/
def copyMapped (s : State) (i : Nat) (c : Copy) (stop : Option FaultClass) (f : Feed) : State :=
  match readMap s (copyEnv s c false stop) c.cmd f with
  | .error .short => s
  | .error (.bad st va) => copyEnd s i c st va
  | .ok r =>
    match checkMap r with
    | .error st => copyEnd r.st i c st c.cmd.src.toNat
    | .ok m =>
      match copyBegin (giveTag r.st c.tag) c m with
      | none => s
      | some (c1, s1) => { s1 with copies := setNth s1.copies i c1 }

/-- COPY_RETIRE: the copy at position `idx` makes its accesses, in ascending order of its destination, and retires; what lies on other
packages takes steps of its own, as many as remote tags make it, and so does a map there. For its reads there `data` is what the peers
returned to those that are out, `peers` the offsets of poisoned bytes, and `rep` the answer after them; for its writes `peers` holds the
destinations of the sectors that were refused, with `rep`; for its barrier update `rep` is the answer. -/
def execCopyRetire (s : State) : Out :=
  let i := s.arg.idx
  match s.copies[i]? with
  | none => .next s
  | some c =>
    match c.phase with
    | .writes sectors status bad out rest =>
      match replyClass s.arg.rep with
      | none => .next (copyWritten s i c sectors status bad rest [] .remoteTimeout)
      | some cls => .next (copyWritten s i c sectors status bad rest (out.filter s.arg.peers.contains) cls)
    | .update _ status bad => .next (copyUpdated s i c status bad s.arg.rep)
    | .map => .next (copyMapped s i c (replyClass s.arg.rep) (feedOf s.arg))
    | .run r =>
      if c.status = 6#8 then .next (copyMade s i c (some .remoteTimeout) ⟨r.data, 0, r.bad⟩)
      else if c.status ≠ 0#8 then .next (copyEnd s i c c.status.toNat c.badVa)
      else .next (copyAnswered s i c r s.arg)

/-! ### Discarded commands and timeouts -/

/-- GUARDED_COMMAND_DISCARD: the command at the head of the C queue, or of the send order, whose epoch is false is dropped; its tokens stay
in balance (spec/07_queues_and_scheduling.md R122). -/
def execGuardedCommandDiscard (s : State) : Out :=
  let slot := s.arg.slot
  let t := s.strand slot
  let no (g : Option Epoch) : Bool := match g with
    | some e => e.val == some false
    | none => false
  if t.phase = .free ∨ (t.phase = .saving ∧ s.arg.engine = .copy) then .next s
  else match s.arg.engine with
  | .copy =>
    (match t.cq with
      | [] => .next s
      | c :: rest =>
        if !no c.guard then .next s
        else match popToken t .c c.pop with
          | none => .next (if t.wait = .exit then s.setStrand slot { t with cq := rest } else s)
          | some t1 =>
            if t.wait = .exit then .next (s.setStrand slot { t1 with cq := rest })
            else match reserveToken t1 .c c.push with
              | none => .next s
              | some t2 => .next (s.setStrand slot (pushToken { t2 with cq := rest } .c c.push)))
  | .send =>
    (match t.sendq with
      | [] => .next s
      | c :: rest =>
        if !no c.guard then .next s
        else .next (sweepFrames (s.setStrand slot (pushToken { t with sendq := rest } .s c.push).flush) slot))

/-- The requests of a tile command that have timed out: the command meets REMOTE_TIMEOUT at the first run that they were for. Of a load
`data` is what came before, of a store `peers` holds the rows that have not been answered, all of them where it names none. -/
def tileTimeout (s : State) (slot id : Nat) (x : Args) : State :=
  match (s.strand slot).mq.find? (fun c => c.id == id) with
  | none => s
  | some c =>
    if c.tag.isNone || !overdue s (c.since - 1) || (s.strand slot).phase == .free || (s.strand slot).phase == .parked then s
    else match tilePlaces s slot c with
      | .error _ => s
      | .ok (l, s1) =>
        let fail (late : Nat → Bool) (y : Run × Place × FaultClass) : State :=
          let mark (z : MCommand) : MCommand := if z.id = c.id then { z with tag := none } else z
          runFault ((dropTags s1 c.tag late).updSlot slot (fun t => { t with mq := t.mq.map mark })) slot { c with tag := none } y
        if c.out then
          let far := remoteRuns (goodRuns s slot c l)
          let late (r : Run × Place) : Bool := x.peers.isEmpty || x.peers.contains r.1.row
          match far.find? late with
          | none => s
          | some r => fail (fun i => (far[i]?).any late) (r.1, r.2, .remoteTimeout)
        else
          match lostRun s slot (some .remoteTimeout) x.data.length l 0 with
          | none => s
          | some y => fail (fun i => decide (answered ((tileAsks l).map (fun a => a.2.2)) x.data.length ≤ i)) y

/-- The requests of a copy that have timed out. Reads: `data` is what the peers have answered; where it ends the copy meets REMOTE_TIMEOUT.
Writes: the sectors in `peers` have not been answered, all of them where it names none. -/
def copyTimeout (s : State) (i : Nat) (x : Args) : State :=
  match s.copies[i]? with
  | none => s
  | some c =>
    if c.tag.isNone ∨ overdue s c.since = false then s
    else
      let c1 := { c with tag := none }
      let lapse (late : Nat → Bool) : State := { dropTags s c.tag late with copies := setNth s.copies i c1 }
      match c.phase with
      | .map => copyEnd (lapse (fun _ => true)) i c1 0x06 c.cmd.src.toNat
      | .run r =>
        let n := answered r.out x.data.length
        let c2 := { c1 with
          status := 6#8
          badVa := 0
          phase := .run ⟨[], [], r.data ++ x.data, r.bad ++ x.peers.map (fun b => b + r.data.length)⟩ }
        { lapse (fun j => decide (n ≤ j)) with copies := setNth s.copies i c2 }
      | .writes sectors status bad out rest =>
        let some_ := out.filter x.peers.contains
        let fails := if some_.isEmpty then out else some_
        copyWritten (lapse (fun j => (out[j]?).any fails.contains)) i c1 sectors status bad rest fails .remoteTimeout
      | .update _ status bad =>
        let s1 := lapse (fun _ => true)
        if status = 0 then copyEnd s1 i c1 0x06 c.cmd.bar.toNat else copyEnd s1 i c1 status bad

end Sys2Proof.Machine
end

