-- ==== Sys2Proof/Machine/Message.lean ====
section
/-! DEFINITION. Records read at issue, the send forms, headers, the receive aperture and packets
(spec/17_engine_and_system_instructions.md R322 to R324, spec/10_descriptor_tables.md R187, spec/08_receive_engine.md R130, R147,
R148). -/

namespace Sys2Proof.Machine

open Sys2Proof

/-! ### A 64-byte record read at issue -/

/-- What reading a record comes to: the record, or what the instruction does instead. -/
inductive RecLoad where
  | got (r : Rec64) (s : State)
  | out (o : Out)

/-- Reads the 64-byte record at an address that is a multiple of 64, as one load of class SL with the faults of
spec/14_scalar_instructions.md R243. A record on a remote page is asked for in one request, and later instructions wait. -/
def loadRecord (va : Word) (k : AccessKind) (acc : Accepts) (s : State) : RecLoad :=
  let t := s.me
  match t.recBuf with
  | some r => .got r s
  | none =>
    match locate s (streamCtx s s.cur) va 64 64 .read acc with
    | .error f => .out (.next (raiseFail f k 0 s))
    | .ok (pl, s1) =>
      if accessHeld s1 s.cur pl 64 || !tagsFree s1 (dieOf (coreOf s.cur)) [pl] then .out (.next s)
      else if isLocal s1 pl then
        match accessFault s1 s.cur pl 64 true with
        | some c => .out (.next (raise ⟨c, k, va, 0#32, false, false⟩ (lostLog s.cur pl va.toNat c s1)))
        | none => .got (bytesBv 512 (placeRead s1 s.cur pl 64)) (countNear s1 s.cur pl)
      else
        let (q, s2) := s1.nextSeq
        let a : Access := { Access.plain q .record va.toNat pl 64 s.cycle k with blocks := true }
        .out (.next ((post s2 s.cur a).upd (fun u => { u with wait := .reply })))

/-- A field of a record is an address: its upper 12 bits are zero, it has the alignment asked for, and it does not lie in the near
window (spec/10_descriptor_tables.md R176, R187). -/
def addrFieldOk (w : Word) (al : Nat) : Bool :=
  slice w 52 12 == 0#12 && decide (w.toNat % al = 0) && !inNear w.toNat

/-! ### Send descriptors (spec/10_descriptor_tables.md R187) -/

def sdDst (r : Rec64) : BitVec 22 := slice r 0 22
def sdCtx (r : Rec64) : BitVec 12 := slice r 32 12
def sdSrcMb (r : Rec64) : BitVec 12 := slice r 48 12
def sdTag (r : Rec64) : BitVec 32 := slice r 64 32
def sdLen (r : Rec64) : Nat := (slice r 96 32).toNat
def sdSrc (r : Rec64) : Word := slice r 128 64
def sdBar (r : Rec64) : Word := slice r 192 64
def sdStat (r : Rec64) : Word := slice r 256 64

/-- Is the descriptor within its limits? `tile` for the TSEND forms. -/
def sdOk (tile : Bool) (r : Rec64) : Bool :=
  slice r 22 10 == 0#10 && slice r 44 4 == 0#4 && slice r 60 4 == 0#4 && slice r 320 192 == 0#192 &&
    addrFieldOk (sdSrc r) 1 && addrFieldOk (sdBar r) 16 && addrFieldOk (sdStat r) 16 &&
    (if tile then decide (sdLen r = 0) && sdSrc r == 0#64 else decide (sdLen r ≤ 2 ^ 28))

/-- A mailbox that is closed and has never been open. -/
def Mailbox.start : Mailbox := ⟨false, 0#6, 0, 0xFFFF#16, [], [], [], [], []⟩

/-- The mailbox of a number. -/
def State.mbox (s : State) (m : Nat) : Mailbox := tabGet Mailbox.start s.mailboxes m

/-- Changes a mailbox. -/
def State.updMbox (s : State) (m : Nat) (f : Mailbox → Mailbox) : State :=
  { s with mailboxes := tabSet s.mailboxes m (f (s.mbox m)) }

/-- Is the mailbox open for a partition (spec/08_receive_engine.md R130)? -/
def mboxOpen (s : State) (m : Nat) (p : BitVec 6) : Bool := (s.mbox m).isOpen && (s.mbox m).part == p

/-- The trap of a messaging form. -/
def msgTrap (c : FaultClass) (va : Word) : Trap := ⟨c, .send, va, 0#32, false, false⟩

/-- What a register is bound to for a send (spec/17_engine_and_system_instructions.md R325): as for a command, but a register that is being
spilled is read from its frame's value, which the backing area holds once the spill has completed. -/
def bindForSend (t : Strand) (r : Nat) : Source :=
  let e := t.entry r
  if tabGet Bound.map t.bound r = .map ∧ e.state = stSpilling then .frame e.frame.toNat else bindReg t r

/-- A send form issues (spec/17_engine_and_system_instructions.md R323, R324): its descriptor is read and checked, and it enters the
strand's send order; a matrix register binds as a source of a matrix command does. -/
def sendForm (ins : Instr) (a : BitVec 5) (reg : Option (BitVec 5)) (g : BitVec 4) (p w : BitVec 2) (s : State) : Out :=
  let t := s.me
  let va := t.getS a
  match sTokens t p w with
  | none => .next s
  | some t1 =>
    if slice va 0 6 ≠ 0#6 ∨ inNear va.toNat = true then .next (raise (msgTrap .mailbox va) s)
    else match loadRecord va .send acceptsFar s with
      | .out o => o
      | .got r s1 =>
        if !sdOk reg.isSome r || !mboxOpen s1 (sdSrcMb r).toNat t.part then .next (raise (msgTrap .mailbox va) s1)
        else match peerFault s1 t.part (slice (sdDst r) 12 10) with
          | some c => .next (raise (msgTrap c va) s1)
          | none =>
            let (q, s2) := s1.nextSeq
            .next (s2.upd (fun u0 =>
              let u := { u0 with tok := t1.tok, tokRes := t1.tokRes }
              let (e, u1) := captureGuard u g
              let bound := reg.map (fun f => (u1.mreg f, bindForSend u1 (u1.mreg f)))
              let u2 := match reg with
                | some f => nameRegs u1 u1.mseq [u1.mreg f]
                | none => u1
              let c : SendCommand := ⟨ins, u.pc, r, q, bound, e, p, none, none⟩
              { u2 with sendq := u2.sendq ++ [c] }.next))

def execMsend (a : BitVec 5) (g : BitVec 4) (p w : BitVec 2) (s : State) : Out :=
  sendForm (.msend a g p w) a none g p w s
def execTsend (a b : BitVec 5) (g : BitVec 4) (p w : BitVec 2) (s : State) : Out :=
  sendForm (.tsend a b g p w) a (some b) g p w s
def execTsendAdd (a b : BitVec 5) (g : BitVec 4) (p w : BitVec 2) (s : State) : Out :=
  sendForm (.tsendAdd a b g p w) a (some b) g p w s

/-! ### Headers (spec/08_receive_engine.md R148) -/

def hdType (h : Rec64) : BitVec 8 := slice h 0 8
def hdVer (h : Rec64) : BitVec 8 := slice h 8 8
def hdSeq (h : Rec64) : BitVec 16 := slice h 16 16
def hdSrcMa (h : Rec64) : BitVec 22 := slice h 32 22
def hdDstMa (h : Rec64) : BitVec 22 := slice h 64 22
def hdCtx (h : Rec64) : BitVec 12 := slice h 96 12
def hdHnd (h : Rec64) : BitVec 13 := slice h 112 13
def hdTag (h : Rec64) : BitVec 32 := slice h 128 32
def hdLen (h : Rec64) : Nat := (slice h 160 32).toNat
def hdCode (h : Rec64) : BitVec 16 := slice h 192 16
def hdRlen (h : Rec64) : BitVec 32 := slice h 224 32
def hdSgen (h : Rec64) : BitVec 16 := slice h 256 16

/-- A header or a reply. -/
def mkHeader (ty : BitVec 8) (seq : BitVec 16) (src dst : BitVec 22) (ctx : BitVec 12) (hnd : BitVec 13) (tag : BitVec 32)
    (len : Nat) (code : BitVec 16) (rlen : BitVec 32) (sgen : BitVec 16) : Rec64 :=
  0#240 ++ sgen ++ rlen ++ 0#16 ++ code ++ BitVec.ofNat 32 len ++ tag ++ 0#3 ++ hnd ++ 0#4 ++ ctx ++ 0#10 ++ dst ++
    0#10 ++ src ++ seq ++ 0x01#8 ++ ty

/-! ### Fields of a pigeonhole record (spec/08_receive_engine.md R132) -/

def phSrc (r : Rec64) : BitVec 22 := slice r 0 22
def phSmask (r : Rec64) : BitVec 22 := slice r 32 22
def phTag (r : Rec64) : BitVec 32 := slice r 64 32
def phTmask (r : Rec64) : BitVec 32 := slice r 96 32
def phCtx (r : Rec64) : BitVec 12 := slice r 128 12
def phKind (r : Rec64) : BitVec 2 := slice r 144 2
def phArrv (r : Rec64) : Bool := r.getLsbD 146
def phMreg (r : Rec64) : BitVec 8 := slice r 152 8
def phLen (r : Rec64) : Nat := (slice r 160 32).toNat
def phDest (r : Rec64) : Word := slice r 192 64
def phBar (r : Rec64) : Word := slice r 256 64
def phStat (r : Rec64) : Word := slice r 320 64
def phWdesc (r : Rec64) : Word := slice r 384 64
def phWcell (r : Rec64) : Nat := (slice r 448 48).toNat

/-- Bytes of the message that the pigeonhole receives (spec/08_receive_engine.md R140). -/
def recvLen (hole h : Rec64) : Nat :=
  if phKind hole = 0#2 then min (hdLen h) (phLen hole) else if phKind hole = 1#2 then min (hdLen h) 32768 else hdLen h

/-! ### The receive aperture (spec/08_receive_engine.md R147) -/

/-- APB, where the receive aperture of a package begins. -/
def apb : Nat := 0x000F000000000000

/-- The header of a send from peer p with handle h. -/
def apHeader (p h : Nat) : Nat := apb + p * 2 ^ 19 + h * 64
/-- The reply to handle h, from peer p. -/
def apReply (p h : Nat) : Nat := apb + 2 ^ 29 + p * 2 ^ 19 + h * 64
/-- The eager payload of peer p with handle h. -/
def apPayload (p h : Nat) : Nat := apb + 2 ^ 30 + p * 2 ^ 26 + h * 4096
/-- Byte o of the pull window of handle h. -/
def apPull (h o : Nat) : Nat := apb + 2 ^ 40 + h * 2 ^ 28 + o

/-- Bytes cut into writes of up to 256 bytes. -/
def apertureCuts (pa : Nat) (bs : List Byte) : List (Nat × List Byte) :=
  (List.range ((bs.length + 255) / 256)).map (fun i => (pa + 256 * i, (bs.drop (256 * i)).take 256))

/-- Is it a reply? -/
def isReply (h : Rec64) : Bool := decide (0x11 ≤ (hdType h).toNat)

/-- The writes that carry a packet to its target's aperture, from the peer that sends it. -/
def packetWrites (self : BitVec 10) (p : Packet) : List (Nat × List Byte) :=
  let h := (hdHnd p.hdr).toNat
  ((if isReply p.hdr then apReply self.toNat h else apHeader self.toNat h), bvBytes p.hdr) ::
    apertureCuts (apPayload self.toNat h) p.payload

/-- A packet for a peer: its way is inside the package for the package's own number, otherwise it leaves as writes into the peer's
aperture. -/
def sendPacket (s : State) (p : Packet) : State :=
  if p.peer = s.self then { s with wire := s.wire ++ [p] }
  else { s with outbox := s.outbox ++ (packetWrites s.self p).map (fun x => .write p.peer x.1 x.2) }

/-! ### Errors of engines -/

/-- An error of an engine's access, with its record when the stack is shut down, here or at a peer (spec/05_memories.md R94). -/
def engineLost (p : BitVec 6) (sid : BitVec 11) (pl : Place) (va : Nat) (c : FaultClass) (s : State) : State :=
  match c, pl with
  | .memLost, .mem pa _ => errLog (some p) (dieOfPa pa) sid 0x04 va (stackOfPa pa) s
  | .memLost, .remote _ pa => errLog (some p) (sid.toNat / 256 % 6) sid 0x04 va (stackOfPa pa) s
  | _, _ => s

end Sys2Proof.Machine
end

