-- ==== Sys2Proof/Machine/Sweep.lean ====
section
/-! DEFINITION. Context tensors: descriptors, visits, commits, sweeps, wakes and the wake unit
(spec/11_context_tensors.md, spec/17_engine_and_system_instructions.md R329 to R333, spec/23_program_sweep.md R382). -/

namespace Sys2Proof.Machine

open Sys2Proof

/-! ### Descriptors (spec/11_context_tensors.md R193, R194) -/

def ctBase (r : Rec64) : Word := slice r 0 64
def ctCells (r : Rec64) : Nat := (slice r 64 48).toNat
def ctSkip (r : Rec64) : Word := slice r 128 64
def ctKind (r : Rec64) : BitVec 8 := slice r 192 8
def ctRescan (r : Rec64) : Bool := r.getLsbD 200
def ctOwner (r : Rec64) : Word := slice r 384 64

/-- Is the descriptor well-formed? -/
def ctOk (r : Rec64) : Bool :=
  slice (ctBase r) 52 12 == 0#12 && slice (ctBase r) 0 12 == 0#12 && slice r 112 16 == 0#16 && decide (ctCells r ≠ 0) &&
    slice (ctSkip r) 52 12 == 0#12 && slice (ctSkip r) 0 6 == 0#6 && decide ((ctKind r).toNat ≤ 2) &&
    slice r 201 55 == 0#55 && slice (ctOwner r) 1 18 == 0#18 && slice (ctOwner r) 52 12 == 0#12 && slice r 448 64 == 0#64

/-- Does the tensor or its map lie in the near window? -/
def ctNear (r : Rec64) : Bool := inNear (ctBase r).toNat || inNear (ctSkip r).toNat

/-- A tensor as its descriptor gave it. -/
structure Tensor where
  part : BitVec 6
  desc : Nat
  cbase : Nat
  cells : Nat
  skbase : Nat
deriving DecidableEq, Repr

/-- The tensor of a descriptor. -/
def tensorOf (p : BitVec 6) (va : Nat) (r : Rec64) : Tensor := ⟨p, va, (ctBase r).toNat, ctCells r, (ctSkip r).toNat⟩

/-- The groups of a tensor. -/
def Tensor.groups (x : Tensor) : Nat := (x.cells + 511) / 512

/-- The cells of a group. -/
def Tensor.size (x : Tensor) (g : Nat) : Nat := min 512 (x.cells - 512 * g)

/-- The home address of a place in this package's memory, a kind-11 page that names this package among them (spec/05_memories.md R82,
R95), and whether its page compresses. -/
def ownMem (s : State) (pl : Place) : Option (Nat × Bool) :=
  match pl with
  | .mem pa c => some (pa, c)
  | .remote p pa => if p = s.self then some (pa, false) else none
  | _ => none

/-- A descriptor's place, or the failure of its page or of its bytes here. -/
def descAt (s : State) (p : BitVec 6) (va n : Nat) (need : Need) : Except Failure (Place × State) :=
  match locate s (engineCtx p) (BitVec.ofNat 64 va) n 1 need acceptsFar with
  | .error f => .error f
  | .ok (pl, s1) =>
    match ownMem s1 pl with
    | none => .ok (pl, s1)
    | some (pa, c) =>
      match homeFault s1 (.mem pa c) n need.reads with
      | some cl => .error { Failure.at cl va with stack := if cl = .memLost then some (stackOfPa pa) else none }
      | none => .ok (pl, s1)

/-- A part of a tensor in memory: its address at home, or the failure. The engine's accesses meet TRANS, PERM, POISON or MEMLOST
(spec/17_engine_and_system_instructions.md R332), none of a peer: cells or a map on another package meet PERM (DESIGN CHOICE,
Assumption 38). -/
def tensorAt (s : State) (p : BitVec 6) (va n : Nat) (need : Need) : Except Failure (Nat × Bool × State) :=
  match descAt s p va n need with
  | .error f => .error (if f.cls = .peerDenied ∨ f.cls = .peerAbsent then { f with cls := .perm } else f)
  | .ok (pl, s1) =>
    match ownMem s1 pl with
    | some (pa, c) => .ok (pa, c, s1)
    | none => .error (Failure.at .perm va)

/-- Is a row that an access to a part of a tensor touches under a self-test (spec/05_memories.md R101)? -/
def vaTested (s : State) (p : BitVec 6) (va n : Nat) : Bool :=
  !s.tests.isEmpty && (match locate s (engineCtx p) (BitVec.ofNat 64 va) n 1 .read acceptsFar with
    | .ok (pl, _) => underTest s 0 pl n
    | .error _ => false)

/-- The same of a group's cells or of its code. -/
def groupTested (s : State) (x : Tensor) (g : Nat) : Bool :=
  vaTested s x.part (x.cbase + 4096 * g) (8 * x.size g) || vaTested s x.part (x.skbase + g / 4) 1

/-- The name by which a wake unit knows a descriptor: its home address, of another package with that package's number above. -/
def homeKey (s : State) (pl : Place) : Nat :=
  match ownMem s pl, pl with
  | some (pa, _), _ => pa
  | none, .remote p pa => (1 + p.toNat) * 2 ^ 52 + pa
  | none, _ => 0

/-- The address of a group's code (spec/11_context_tensors.md R197). -/
def Tensor.codeVa (x : Tensor) (g : Nat) : Nat := x.skbase + g / 4

/-- A group's code in its map byte. -/
def codeOf (b : Byte) (g : Nat) : BitVec 2 := slice b (2 * (g % 4)) 2

/-- Sets a group's code at its home. -/
def putCode (s : State) (pa : Nat) (comp : Bool) (g : Nat) (c : BitVec 2) : State :=
  homeWrite s none pa [putSlice (memByte s.mem pa) (2 * (g % 4)) 2 c] comp

/-! ### Context words (spec/11_context_tensors.md R195, R196) -/

def ctxW (x : BitVec 32) : Nat := (slice x 24 4).toNat
def ctxA (x : BitVec 32) : BitVec 24 := slice x 0 24
/-- The context word with W := RUN. -/
def ctxRun (x : BitVec 32) : BitVec 32 := putSlice x 24 4 0#4

/-- A visit: the visited context and whether the cell is awake. -/
def visit (x : BitVec 32) : BitVec 32 × Bool :=
  match ctxW x with
  | 0 => (x, true)
  | 1 => if (ctxA x).toNat ≤ 1 then (putSlice (ctxRun x) 0 24 0#24, true) else (putSlice x 0 24 (ctxA x - 1#24), false)
  | _ => (x, false)

/-- The code that committed contexts give a group (spec/11_context_tensors.md R197). -/
def groupCode (cs : List (BitVec 32)) : BitVec 2 :=
  if cs.any (fun x => ctxW x == 0) then 1#2
  else if cs.any (fun x => ctxW x == 1) then 2#2
  else if cs.any (fun x => ctxW x == 2 || ctxW x == 3) then 0#2
  else 3#2

/-- Cells of kind 5 to 15. -/
def badCells (cs : List (BitVec 32)) : Nat := (cs.filter (fun x => decide (5 ≤ ctxW x))).length

/-- The values and contexts of `n` cells at home. -/
def readCells (s : State) (pa n : Nat) : List (BitVec 32 × BitVec 32) :=
  (List.range n).map (fun i => (bytesBv 32 (homeRead s (pa + 8 * i) 4), bytesBv 32 (homeRead s (pa + 8 * i + 4) 4)))

/-! ### Wakes (spec/11_context_tensors.md R198) -/

/-- Has a strand this group of a descriptor open? -/
def Strand.hasOpen (t : Strand) (home g : Nat) : Bool :=
  match t.sweep with
  | some w => w.home == home && (match w.opened with
    | some o => o.g == g
    | none => false)
  | none => false

/-- Is the group of the tensor whose descriptor has this home address open, by a strand bound or saved? The wake unit of the descriptor's
line knows the tensor by that line, whatever mapping a wake came through (spec/11_context_tensors.md R204). -/
def groupOpen (s : State) (home g : Nat) : Bool :=
  s.strands.any (fun kt => kt.2.hasOpen home g) || s.gangs.any (fun x => x.images.any (fun y => y.2.hasOpen home g))

/-- One cell woken at its home, as one update: its context word and its group's code. A wake whose access fails is skipped and
recorded. -/
def wakeCell (x : Tensor) (die : Nat) (sid : BitVec 11) (event : Option (BitVec 24)) (c : Nat) (s : State) : State :=
  let va := x.cbase + 8 * c + 4
  let skip (u : State) (a : Nat) : State := errLog (some x.part) die sid 0x0F a c u
  match tensorAt s x.part va 4 .readWrite with
  | .error f => skip (afterFail x.part sid f s) f.va
  | .ok (pa, comp, s1) =>
    let ctx : BitVec 32 := bytesBv 32 (homeRead s1 pa 4)
    let hit := match event with
      | none => true
      | some id => ctxW ctx == 3 && ctxA ctx == id
    if (ctxW ctx == 1 || ctxW ctx == 2 || ctxW ctx == 3) && hit then
      match tensorAt s1 x.part (x.codeVa (c / 512)) 1 .readWrite with
      | .error f => skip (afterFail x.part sid f s1) f.va
      | .ok (mpa, mcomp, s2) =>
        let s3 := homeWrite s2 none pa (bvBytes (ctxRun ctx)) comp
        if codeOf (memByte s3.mem mpa) (c / 512) = 3#2 then s3 else putCode s3 mpa mcomp (c / 512) 1#2
    else s1

/-- The tensor of a wake. -/
def wakeTensor (w : Wake) : Tensor := ⟨w.part, w.desc, w.cbase, w.cells, w.skbase⟩

/-- A wake applied: one cell, or every cell of its group. -/
def applyWake (w : Wake) (s : State) : State :=
  let x := wakeTensor w
  if w.whole then
    (List.range (x.size (w.cell / 512))).foldl (fun u i => wakeCell x w.die w.sid w.event (512 * (w.cell / 512) + i) u) s
  else wakeCell x w.die w.sid w.event w.cell s

/-- The wake unit has applied what it accepted of a request of another package: with the last of it that package is told. -/
def tellApplied (far : Option (BitVec 10)) (sid : BitVec 11) (home : Nat) (s : State) : State :=
  match far with
  | none => s
  | some p =>
    if s.wakes.any (fun w => w.far == some p && w.sid == sid && w.home == home) ||
        s.passes.any (fun e => e.far == some p && e.owner.sid == sid && e.home == home) then s
    else { s with outbox := s.outbox ++ [.applied p sid home] }

/-- The held wakes of a group that closes, applied in arrival order. -/
def releaseWakes (home g : Nat) (s : State) : State :=
  let mine (w : Wake) : Bool := w.held && w.home == home && w.cell / 512 == g
  (s.wakes.filter mine).foldl (fun u w => tellApplied w.far w.sid w.home (applyWake w u)) { s with wakes := s.wakes.filter (fun w => !mine w) }

/-- How many more wakes can the wake unit of a die hold? -/
def wakeSpace (s : State) (die : Nat) : Nat := 4096 - (s.wakes.filter (fun w => w.die == die)).length

/-- A cell wake as the unit accepts it: the descriptor's home address, the strand whose instruction makes it, and the package that it comes
from. -/
def mkWake (x : Tensor) (home : Nat) (sid : BitVec 11) (stream : Option Owner) (far : Option (BitVec 10)) (c : Nat) : Wake :=
  ⟨dieOfPa home, x.part, sid, x.desc, x.cbase, x.cells, x.skbase, c, none, false, false, home, stream, far⟩

/-- Is a write of the strand's sweep engine to a descriptor on another package still under way? -/
def sweepEnding (s : State) (t : Strand) : Bool :=
  s.ends.any (fun e => (match e.kind with
    | .sweep _ => true
    | _ => false) && e.owner.isOf t)

/-- Has a wake that an instruction of the strand in a slot made, in this slot or before a resume, yet to be applied, here or by the unit of
another package, or a write of its sweep engine yet to be performed? Everything later of the strand follows them
(spec/06_memory_ordering.md R112 to R115, row SC), but a wake of a cell of the strand's own open group is not waited for
(spec/17_engine_and_system_instructions.md R333), nor one that a package would have to report which is lost. -/
def wakesOut (s : State) (slot : Nat) : Bool :=
  let t := s.strand slot
  s.wakes.any (fun w => w.stream.any (fun o => o.isOf t) && !t.hasOpen w.home (w.cell / 512)) ||
    s.passes.any (fun e => e.owner.isOf t) || t.wakesFar.any (fun x => (peerFault s t.part x.1).isNone) || sweepEnding s t

/-- WAKE_APPLY: the wake at position `num` is applied, or held while its group is open. The wakes of one unit are taken in the order in which
it accepted them. -/
def execWakeApply (s : State) : Out :=
  match s.wakes[s.arg.num]? with
  | none => .next s
  | some w =>
    if w.held || (s.wakes.take s.arg.num).any (fun y => y.die == w.die && !y.held) || groupTested s (wakeTensor w) (w.cell / 512) then
      .next s
    else if groupOpen s w.home (w.cell / 512) then
      .next { s with wakes := setNth s.wakes s.arg.num { w with held := true } }
    else .next (tellApplied w.far w.sid w.home (applyWake w { s with wakes := dropNth s.wakes s.arg.num }))

/-- SWAKEE_PASS: the pass at position `num` reaches its next group. A group coded 11 is passed over; at an open group its wakes are left to be
applied at the commit, once the unit has room for them. -/
def execSwakeePass (s : State) : Out :=
  match s.passes[s.arg.num]? with
  | none => .next s
  | some e =>
    let x : Tensor := ⟨e.part, e.desc, e.cbase, e.cells, e.skbase⟩
    if x.groups ≤ e.next then .next (tellApplied e.far e.owner.sid e.home { s with passes := dropNth s.passes s.arg.num })
    else if groupTested s x e.next then .next s
    else
      let s0 := { s with passes := setNth s.passes s.arg.num { e with next := e.next + 1 } }
      let w : Wake := 
        ⟨e.die, e.part, e.owner.sid, e.desc, e.cbase, e.cells, e.skbase, 512 * e.next, some e.event, true, true, e.home,
          if e.far.isSome then none else some e.owner, e.far⟩
      if groupOpen s e.home e.next then .next (if wakeSpace s e.die ≠ 0 then { s0 with wakes := s0.wakes ++ [w] } else s)
      else match tensorAt s0 e.part (x.codeVa e.next) 1 .read with
        | .error f => .next (errLog (some e.part) e.die e.owner.sid 0x0F f.va (512 * e.next) (afterFail e.part e.owner.sid f s0))
        | .ok (mpa, _, s1) =>
          if codeOf (memByte s1.mem mpa) e.next = 3#2 then .next s1 else .next (applyWake w s1)

/-- A receive completion's wake (spec/11_context_tensors.md R194, R198): accepted; or skipped and recorded where its descriptor or its
cell does not stand; or the class that the descriptor's address meets, which the completion records (spec/08_receive_engine.md R141). None
while the unit is full. -/
def receiveWake (s : State) (p : BitVec 6) (sid : BitVec 11) (wdesc wcell : Nat) : Option (Option FaultClass × State) :=
  match tensorAt s p wdesc 64 .read with
  | .error f => some (some f.cls, afterFail p sid f s)
  | .ok (pa, _, s1) =>
    let r : Rec64 := bytesBv 512 (homeRead s1 pa 64)
    if !ctOk r || ctNear r || decide (ctCells r ≤ wcell) then
      some (none, errLog (some p) (dieOfPa pa) sid 0x0F wdesc wcell s)
    else if wakeSpace s1 (dieOfPa pa) = 0 then none
    else some (none, { s1 with wakes := s1.wakes ++ [mkWake (tensorOf p wdesc r) pa sid none none wcell] })

/-! ### The checks of SWP and of the wake forms (spec/17_engine_and_system_instructions.md R330, R333) -/

/-- The trap of a sweep form. -/
def sweepTrap (c : FaultClass) (va : Word) (index : Nat) : Trap := ⟨c, .sweep, va, BitVec.ofNat 32 index, false, false⟩

/-- Reads and checks a descriptor at the instruction: steps 4 to 6, or what the instruction does instead. -/
def loadTensor (va : Word) (s : State) : RecLoad :=
  if inNear va.toNat then .out (.next (raise (sweepTrap .perm va 0) s))
  else match loadRecord va .sweep acceptsFar s with
    | .out o => .out o
    | .got r s1 =>
      if !ctOk r then .out (.next (raise (sweepTrap .sweepDesc va 0) s1))
      else if ctNear r then .out (.next (raise (sweepTrap .perm va 0) s1))
      else .got r s1

/-- The wake unit accepts of the instruction's wakes as many as it has room for, in order; the instruction retires when it has accepted
every one (spec/11_context_tensors.md R198, spec/17_engine_and_system_instructions.md R333). -/
def handWakes (p : BitVec 2) (s : State) : State :=
  let l := s.me.handing
  let n := wakeSpace s (((l.head?).map Wake.die).getD 0)
  { s with wakes := s.wakes ++ l.take n }.upd (fun u =>
    let v := { u with handing := l.drop n }
    if l.length ≤ n then v.retire p else v)

/-- A wake form hands its wakes, or its event pass, to the wake unit of the descriptor's home, which must not be full; on another package
they leave as one request, the instruction retires with its answer, and what is later waits until the unit there has told that it has
applied them (Assumption 38). `t1` is the strand with its tokens taken. -/
def handOver (p : BitVec 2) (t1 : Strand) (x : Tensor) (pl : Place) (cs : List Nat) (event : Option (BitVec 24)) (s : State) : Out :=
  let t := s.me
  let begun (u : Strand) : Strand := { u with tok := t1.tok, tokRes := t1.tokRes, tokDone := true }
  match ownMem s pl, event with
  | some (pa, _), none =>
    if wakeSpace s (dieOfPa pa) = 0 then .next s
    else .next (handWakes p (s.upd (fun u => { begun u with
      handing := cs.map (mkWake x pa (sidOf s.cur) (some (t.owner s.cur)) none) })))
  | some (pa, _), some id =>
    if wakeSpace s (dieOfPa pa) = 0 then .next s
    else
      let e : EventPass := ⟨dieOfPa pa, t.part, t.owner s.cur, x.desc, x.cbase, x.cells, x.skbase, id, 0, pa, none⟩
      .next ({ s with passes := s.passes ++ [e] }.upd (fun u => (begun u).retire p))
  | none, _ =>
    if !tagsFree s (dieOf (coreOf s.cur)) [pl] then .next s
    else
      let (q, s1) := s.nextSeq
      .next ((post s1 s.cur { Access.plain q (.wake cs event) x.desc pl 64 s.cycle .sweep with blocks := true, push := p }).upd (fun u =>
        { begun u with
          wait := .reply
          wakesFar := u.wakesFar ++ [((match pl with
            | .remote q _ => q
            | _ => s.self), (placeKey pl).2, sidOf s.cur)] }))

/-- A wake form: `cells` gives the cells to wake or the trap of a bad index, given the tensor. An instruction whose wakes are not all
accepted yet goes on with them. -/
def wakeForm (a : BitVec 5) (p w : BitVec 2) (cells : Tensor → Strand → Except Trap (List Nat)) (event : Option (BitVec 24))
    (s : State) : Out :=
  let t := s.me
  let va := t.getS a
  match sTokens t p w with
  | none => .next s
  | some t1 =>
    if !t.handing.isEmpty then .next (handWakes p s)
    else if slice va 0 6 ≠ 0#6 then .next (raise (sweepTrap .sweepDesc va 0) s)
    else match loadTensor va s with
      | .out o => o
      | .got r s1 =>
        let x := tensorOf t.part va.toNat r
        match cells x t with
        | .error tr => .next (raise tr s1)
        | .ok cs =>
          match descAt s1 t.part va.toNat 64 .read with
          | .error f => .next (raiseFail f .sweep 0 s1)
          | .ok (pl, s2) => if !t.out.isEmpty then .next s else handOver p t1 x pl cs event s2

/-- SWAKE wakes one cell. -/
def execSwake (a b : BitVec 5) (p w : BitVec 2) (s : State) : Out :=
  wakeForm a p w (fun x t =>
    let c := (t.getS b).toNat
    if x.cells ≤ c then .error (sweepTrap .sweepDesc (t.getS a) 0) else .ok [c]) none s

/-- SWAKEV wakes one cell per active lane, in ascending lane order; with VL = 0 it does nothing. The checks of the descriptor and of the
indices (spec/17_engine_and_system_instructions.md R333) come between REGGROUP and the POISON of its operands
(spec/09_translation_and_faults.md R164). -/
def execSwakev (a b : BitVec 5) (c : BitVec 3) (p w : BitVec 2) (s : State) : Out :=
  let f : VForm := ⟨[s.me.sewOp b], [], [], [], [c.toNat], []⟩
  match vGate { s.me with marks := [], badK := [] } f with
  | .trap x => .next (raise x s)
  | .wait => .next s
  | .empty =>
    (match sTokens s.me p w with
      | none => .next s
      | some t1 => .next (s.upd (fun u => { u with tok := t1.tok, tokRes := t1.tokRes }.retire p)))
  | .go =>
    wakeForm a p w (fun x t =>
      let idx := (t.lanes c).map (fun i => (i, t.elem (t.sewOp b) i))
      match idx.find? (fun y => decide (x.cells ≤ y.2)) with
      | some (i, _) => .error (sweepTrap .sweepDesc (t.getS a) i)
      | none =>
        match vGate t f with
        | .trap y => .error y
        | _ => .ok (idx.map (fun y => y.2))) none s

/-- SWAKEE starts an event pass. -/
def execSwakee (a b : BitVec 5) (p w : BitVec 2) (s : State) : Out :=
  wakeForm a p w (fun _ _ => .ok []) (some (slice (s.me.getS b) 0 24)) s

/-! ### Claiming and ending (spec/11_context_tensors.md R199, R202, R203) -/

/-- The value of OWNER for a holder. -/
def ownerWord (save : Nat) : Word := BitVec.ofNat 64 (save / 2 ^ 19 * 2 ^ 19) ||| 1#64

/-- The strand enters sweep mode: its claim stands, and the engine starts at group 0, or with a rebuild of the map
(spec/11_context_tensors.md R199). `t1` is the strand with its tokens taken. -/
def startSweep (t1 : Strand) (va rule : Word) (r : Rec64) (home : Nat) (p : BitVec 2) (u : Strand) : Strand :=
  pushToken { u with
    tok := t1.tok
    tokRes := t1.tokRes
    recBuf := none
    claim := none
    swAct := true
    swCur := 0#48
    swAwk := 0#48
    swErr := 0#32
    sweep := some {
      desc := va.toNat
      cbase := (ctBase r).toNat
      cells := ctCells r
      skbase := (ctSkip r).toNat
      rule := rule
      ret := u.pc + 4#64
      vl := u.vl
      sew := u.sew
      gm := u.gm
      phase := if ctRescan r then .rebuild 0 else .opening 0
      opened := none
      errTotal := 0
      home := home }
    wait := .sweep } .s p

/-- SWP (spec/17_engine_and_system_instructions.md R330). It is not ready while OWNER is held, and then reads the descriptor again. The
claim of a descriptor on another package is a request to its home (Assumption 38). -/
def execSwp (a b : BitVec 5) (p w : BitVec 2) (s : State) : Out :=
  let t := s.me
  let va := t.getS a
  let rule := t.getS b
  match sTokens t p w with
  | none => .next s
  | some t1 =>
    if t.swAct || decide (slice va 0 6 ≠ 0#6) then .next (raise (sweepTrap .sweepDesc va 0) s)
    else if slice rule 0 2 ≠ 0#2 then .next (raise (sweepTrap .align rule 0) s)
    else match loadTensor va s with
      | .out o => o
      | .got r s1 =>
        match descAt s1 t.part va.toNat 64 .readWrite with
        | .error f => .next (raiseFail f .sweep 0 s1)
        | .ok (pl, s2) =>
          let start := startSweep t1 va rule r (homeKey s2 pl) p
          let mine := t.claim == some 0#64
          if mine = false ∧ (ctOwner r ≠ 0#64 ∨ t.claim.isSome = true) then .next (s.upd (fun u => { u with recBuf := none, claim := none }))
          else match ownMem s2 pl with
            | some (pa, comp) => .next ((homeWrite s2 (some s.cur) (pa + 48) (bvBytes (ownerWord t.saveArea)) comp).upd start)
            | none =>
              if mine then .next (s2.upd start)
              else if !tagsFree s2 (dieOf (coreOf s.cur)) [pl] then .next s
              else
                let (q, s3) := s2.nextSeq
                .next ((post s3 s.cur { Access.plain q (.claim (ownerWord t.saveArea)) (va.toNat + 48) (placePlus pl 48) 8 s.cycle .sweep with
                  blocks := true }).upd (fun u => { u with wait := .reply }))

/-- The tensor of a sweep. -/
def sweepTensor (t : Strand) (w : Sweep) : Tensor := ⟨t.part, w.desc, w.cbase, w.cells, w.skbase⟩

/-- Writes of the sweep engine to a descriptor on another package: they are made one after the other, under remote tags of the die of the
strand's core (spec/05_memories.md R88), and what is later of the strand waits for them. -/
def sweepWrites (s : State) (o : Owner) (items : List EndItem) : State :=
  { s with ends := s.ends ++ [⟨.sweep (o.sid.toNat / 256 % 6), o, false, items, false, none, s.cycle⟩] }

/-- Writes OWNER := 0 and, for a completed sweep, adds to SWEEPNO and ERRCNT; where the descriptor can no longer be reached, nothing is
written, and what its walk or its stack leaves behind stays (spec/05_memories.md R94, spec/09_translation_and_faults.md R155). To a
descriptor on another package the additions leave as atomics, and the release as a write. -/
def closeDescriptor (o : Owner) (w : Sweep) (completed : Bool) (s : State) : State :=
  match descAt s o.part w.desc 64 .readWrite with
  | .error f => afterFail o.part o.sid f s
  | .ok (pl, s1) =>
    match ownMem s1 pl, pl with
    | some (pa, comp), _ =>
      let n : Word := bytesBv 64 (homeRead s1 (pa + 32) 8)
      let e : Word := bytesBv 64 (homeRead s1 (pa + 40) 8)
      let s2 := if completed then
          homeWrite s1 none (pa + 32) (bvBytes (n + 1#64) ++ bvBytes (e + BitVec.ofNat 64 w.errTotal)) comp
        else s1
      homeWrite s2 none (pa + 48) (natBytes 8 0) comp
    | none, _ =>
      let adds : List EndItem := if completed then [.add (w.desc + 32) 1#64, .add (w.desc + 40) (BitVec.ofNat 64 w.errTotal)] else []
      sweepWrites s1 o (adds ++ [.put (w.desc + 48) (natBytes 8 0)])

/-- The end of a sweep: the strand goes on after its SWP, with VTYPE and VL as SWP found them. -/
def endSweep (s : State) (slot : Nat) (w : Sweep) : State :=
  (closeDescriptor ((s.strand slot).owner slot) w true s).updSlot slot (fun t =>
    { t with swAct := false, sweep := none, vl := w.vl, sew := w.sew, gm := w.gm }.goto w.ret)

/-- A sweep is abandoned: the open group closes without a commit, its held wakes are applied, and OWNER is released. -/
def abandonSweep (s : State) (slot : Nat) : State :=
  let t := s.strand slot
  match t.sweep with
  | none => s
  | some w =>
    let s1 := s.setStrand slot { t with swAct := false, sweep := none }
    let s2 := match w.opened with
      | some o => releaseWakes w.home o.g s1
      | none => s1
    closeDescriptor (t.owner slot) w false s2

/-! ### Opening (spec/11_context_tensors.md R200) and committing (R201) -/

/-- The commit of an open group, given the new value and context of each cell: the state after it, or the failure. Cells of the saved mask
are written whole; of the others only a context that the visit changed. -/
def commitGroup (x : Tensor) (o : OpenGroup) (vals ctxs : List (BitVec 32)) (s : State) : Except Failure State :=
  let rows := (List.range o.n).map (fun i =>
    (i, nth false o.mask i, nth 0#32 vals i, nth 0#32 ctxs i, nth 0#32 o.loaded i, nth 0#32 o.visited i))
  let final := rows.map (fun y => if y.2.1 then y.2.2.2.1 else y.2.2.2.2.2)
  let dirty := rows.any (fun y => y.2.1 || y.2.2.2.2.1 != y.2.2.2.2.2)
  let put (pa : Nat) (comp : Bool) (u : State) (y : Nat × Bool × BitVec 32 × BitVec 32 × BitVec 32 × BitVec 32) : State :=
    if y.2.1 then homeWrite u none (pa + 8 * y.1) (bvBytes y.2.2.1 ++ bvBytes y.2.2.2.1) comp
    else if y.2.2.2.2.1 = y.2.2.2.2.2 then u
    else homeWrite u none (pa + 8 * y.1 + 4) (bvBytes y.2.2.2.2.2) comp
  let cells : Except Failure State :=
    if dirty then
      match tensorAt s x.part (x.cbase + 4096 * o.g) (8 * o.n) .write with
      | .error f => .error f
      | .ok (pa, comp, s1) => .ok (rows.foldl (put pa comp) s1)
    else .ok s
  match tensorAt s x.part (x.codeVa o.g) 1 .readWrite with
  | .error f => .error f
  | .ok _ =>
    match cells with
    | .error f => .error f
    | .ok s1 =>
      match tensorAt s1 x.part (x.codeVa o.g) 1 .readWrite with
      | .error f => .error f
      | .ok (mpa, mcomp, s2) => .ok (putCode s2 mpa mcomp o.g (groupCode final))

/-- The strand's counters after a commit. -/
def countCommit (t : Strand) (w : Sweep) (o : OpenGroup) (next : SweepPhase) : Strand :=
  { t with
    swAwk := t.swAwk + BitVec.ofNat 48 (o.mask.filter id).length
    swErr := t.swErr + BitVec.ofNat 32 o.errs
    sweep := some { w with opened := none, errTotal := w.errTotal + o.errs, phase := next } }

/-- A group as it is opened: its cells loaded and visited. -/
def openCells (g n : Nat) (cells : List (BitVec 32 × BitVec 32)) : OpenGroup :=
  let ctxs := cells.map (fun c => c.2)
  let seen := ctxs.map visit
  ⟨g, n, seen.map (fun v => v.2), ctxs, seen.map (fun v => v.1), badCells ctxs⟩

/-- 512 elements of 32 bits as a register, zero beyond the list. -/
def wordsReg (l : List (BitVec 32)) : VReg :=
  (List.range l.length).foldl (fun v i => putSlice v (32 * i) 32 (nth 0#32 l i)) 0#16384

/-- The group is delivered to the rule: v28 and v29 are new registers, which no command before it writes (spec/16_matrix_instructions.md
R289). -/
def deliverGroup (t : Strand) (w : Sweep) (o : OpenGroup) (vals : List (BitVec 32)) : Strand :=
  let t1 := ((t.setV 28 (wordsReg vals)).setV 29 (wordsReg o.visited)).setK 7
    (BitVec.ofNat 2048 (bitsOf 512 (fun i => nth false o.mask i)).toNat)
  { (t1.cover 28 (BitVec.allOnes 16384)).cover 29 (BitVec.allOnes 16384) with
    swGrp := BitVec.ofNat 48 o.g
    swCur := BitVec.ofNat 48 o.g
    sew := 2#2
    gm := 0#2
    vl := BitVec.ofNat 12 o.n
    sweep := some { w with opened := some o, phase := .rule } }.goto w.rule

/-- One step of the sweep engine for a strand that waits for its next delivery: the state after it, or the group and the failure. A group in
which no cell is awake is open until the engine has committed it (spec/11_context_tensors.md R200, R204). -/
def sweepStep (s : State) (slot : Nat) (w : Sweep) : Except (Nat × Failure) State :=
  let t := s.strand slot
  let x := sweepTensor t w
  let move (u : State) (ph : SweepPhase) : State :=
    u.updSlot slot (fun v => { v with sweep := some { w with phase := ph } })
  match w.phase with
  | .rule => .ok s
  | .rebuild g =>
    if x.groups ≤ g then
      match descAt s t.part w.desc 64 .readWrite with
      | .error f => .error (0, f)
      | .ok (pl, s1) =>
        match ownMem s1 pl with
        | some (pa, comp) => .ok (move (homeWrite s1 none (pa + 25) [memByte s1.mem (pa + 25) &&& 0xFE#8] comp) (.opening 0))
        | none => .ok (move (sweepWrites s1 (t.owner slot) [.put (w.desc + 25) [0#8]]) (.opening 0))
    else match tensorAt s t.part (x.cbase + 4096 * g) (8 * x.size g) .read with
      | .error f => .error (g, f)
      | .ok (pa, _, s1) =>
        let ctxs := (readCells s1 pa (x.size g)).map (fun c => c.2)
        match tensorAt s1 t.part (x.codeVa g) 1 .readWrite with
        | .error f => .error (g, f)
        | .ok (mpa, mcomp, s2) => .ok (move (putCode s2 mpa mcomp g (groupCode ctxs)) (.rebuild (g + 1)))
  | .opening g =>
    if x.groups ≤ g then .ok (endSweep s slot w)
    else match tensorAt s t.part (x.codeVa g) 1 .read with
      | .error f => .error (g, f)
      | .ok (mpa, _, s1) =>
        let c := codeOf (memByte s1.mem mpa) g
        if c = 0#2 ∨ c = 3#2 then .ok (move s1 (.opening (g + 1)))
        else match tensorAt s1 t.part (x.cbase + 4096 * g) (8 * x.size g) .read with
          | .error f => .error (g, f)
          | .ok (pa, _, s2) =>
            let cells := readCells s2 pa (x.size g)
            let o := openCells g (x.size g) cells
            if o.mask.any id then
              .ok (countEvent (s2.updSlot slot (fun v => markOld s2.seq [28, 29] (deliverGroup v w o (cells.map (fun c => c.1))))) slot 0x000C 1)
            else .ok (s2.updSlot slot (fun v => { v with sweep := some { w with opened := some o, phase := .closing } }))
  | .closing =>
    match w.opened with
    | none => .ok s
    | some o =>
      match commitGroup x o [] [] s with
      | .error f => .error (o.g, f)
      | .ok s1 => .ok (releaseWakes w.home o.g (s1.updSlot slot (fun v => countCommit v w o (.opening (o.g + 1)))))

/-- May the sweep engine work for the strand: it waits for a delivery, and its earlier stream accesses have been performed? -/
def sweepReady (t : Strand) : Option Sweep :=
  if t.phase = .running ∧ t.wait = .sweep ∧ t.out = [] then t.sweep else none

/-- Has the wake unit accepted a wake of a cell of the group that is about to be opened, and not applied it yet
(spec/11_context_tensors.md R200)? -/
def groupAwaitsWake (s : State) (w : Sweep) : Bool :=
  match w.phase with
  | .opening g => s.wakes.any (fun x => x.home == w.home && x.cell / 512 == g)
  | _ => false

/-- Is a row that the engine's next move touches under a self-test? -/
def sweepTested (s : State) (slot : Nat) (w : Sweep) : Bool :=
  let x := sweepTensor (s.strand slot) w
  let at_ (g : Nat) : Bool := if x.groups ≤ g then vaTested s x.part w.desc 64 else groupTested s x g
  match w.phase with
  | .rule => false
  | .rebuild g | .opening g => at_ g
  | .closing => w.opened.any (fun o => groupTested s x o.g)

/-- GROUP_OPEN: the sweep engine takes the next group of the strand in `slot`, or ends the sweep. -/
def execGroupOpen (s : State) : Out :=
  match sweepReady (s.strand s.arg.slot) with
  | none => .next s
  | some w =>
    if groupAwaitsWake s w || sweepTested s s.arg.slot w || sweepEnding s (s.strand s.arg.slot) then .next s
    else match sweepStep s s.arg.slot w with
    | .ok s1 => .next s1
    | .error _ => .next s

/-- An access of the sweep engine failed: it is recorded, and raised at the strand's instruction
(spec/17_engine_and_system_instructions.md R332). -/
def sweepFault (s : State) (slot g : Nat) (f : Failure) : State :=
  let t := s.strand slot
  let s1 := errLog (some t.part) (dieOf (coreOf slot)) (sidOf slot) 0x11 f.va (g + classCode f.cls * 2 ^ 48) s
  raiseAt (afterFail t.part (sidOf slot) f s1) slot t.pc ⟨f.cls, .sweep, BitVec.ofNat 64 f.va, BitVec.ofNat 32 g, f.hyp, true⟩

/-- SWEEP_ENGINE_FAULT: the next move of the sweep engine for the strand in `slot` fails. -/
def execSweepEngineFault (s : State) : Out :=
  match sweepReady (s.strand s.arg.slot) with
  | none => .next s
  | some w =>
    if sweepTested s s.arg.slot w || sweepEnding s (s.strand s.arg.slot) then .next s
    else match sweepStep s s.arg.slot w with
    | .ok _ => .next s
    | .error (g, f) => .next (sweepFault s s.arg.slot g f)

/-- The 512 elements of a register. -/
def regWords (v : VReg) : List (BitVec 32) := (List.range 512).map (fun i => slice v (32 * i) 32)

/-- SWNEXT and SWEXIT commit the open group from v28 and v29 (spec/17_engine_and_system_instructions.md R331); `after` is what follows. -/
def commitForm (p w : BitVec 2) (after : Nat → Sweep → OpenGroup → State → State) (s : State) : Out :=
  let t := s.me
  match sTokens t p w with
  | none => .next s
  | some t1 =>
    match t.sweep with
    | none => .next (raise (sweepTrap .sweepDesc 0#64 0) s)
    | some sw =>
      match sw.opened with
      | none => .next s
      | some o =>
        if !t.out.isEmpty || t.vBusy 28 || t.vBusy 29 || groupTested s (sweepTensor t sw) o.g then .next s
        else match t.markTrap [28, 29] with
          | some tr => .next (raise tr s)
          | none =>
            match commitGroup (sweepTensor t sw) o (regWords (t.getV 28)) (regWords (t.getV 29)) s with
            | .error f => .next (sweepFault s s.cur o.g f)
            | .ok s1 =>
              let s2 := s1.upd (fun u => pushToken { u with tok := t1.tok, tokRes := t1.tokRes } .s p)
              .next (after s.cur sw o s2)

/-- SWNEXT commits the open group and waits for the next delivery. -/
def execSwnext (p w : BitVec 2) (s : State) : Out :=
  commitForm p w (fun slot sw o s =>
    releaseWakes sw.home o.g
      (s.updSlot slot (fun t => { countCommit t sw o (.opening (o.g + 1)) with wait := .sweep }))) s

/-- SWEXIT commits the open group and ends the sweep. -/
def execSwexit (p w : BitVec 2) (s : State) : Out :=
  commitForm p w (fun slot sw o s =>
    let s1 := s.updSlot slot (fun t => countCommit t sw o (.opening (o.g + 1)))
    let s2 := releaseWakes sw.home o.g s1
    endSweep s2 slot { sw with errTotal := sw.errTotal + o.errs }) s

end Sys2Proof.Machine
end

