-- ==== Sys2Proof/Machine/Ending.lean ====
section
/-! DEFINITION. Completions: the items that the send engine and the receive engine make in order when a send or a pigeonhole completes,
and the arrival of a die on a shootdown's barrier (spec/08_receive_engine.md R135, R141). An item whose object lies on another package is asked for
and answered, and the items after it
wait; a wake waits for room in its unit. -/

namespace Sys2Proof.Machine

open Sys2Proof

/-- The 16 bytes of a status record (spec/08_receive_engine.md R141). -/
def statusBytes (ma : BitVec 22) (tag rlen : BitVec 32) (code : BitVec 16) : List Byte :=
  bvBytes (n := 128) (0#16 ++ code ++ rlen ++ tag ++ 0#10 ++ ma)

/-- An error of a send (spec/12_barriers_and_counters.md R215, code 0x12): what failed, the address, the class, the handle. -/
def sendLog (s : State) (o : Owner) (hnd : BitVec 13) (what va c : Nat) : State :=
  errLog (some o.part) (hnd.toNat / 1024) o.sid 0x12 va (what + 256 * c + 65536 * hnd.toNat) s

/-- A fault of a landing, or an item of a pigeonhole's completion that was skipped (code 0x0C). -/
def landLog (s : State) (mb : Nat) (o : Owner) (va c : Nat) : State :=
  errLog (some o.part) (mb % 6) o.sid 0x0C va (mb + 65536 * c) s

/-- The address of an item; none of a reply. -/
def EndItem.va (x : EndItem) : Nat :=
  match x with
  | .status va _ => va.toNat
  | .barrier va _ _ => va.toNat
  | .wake desc _ => desc
  | .reply _ => 0
  | .put va _ => va
  | .add va _ => va

/-- What a send's error record says of an item. -/
def EndItem.what (x : EndItem) : Nat :=
  match x with
  | .barrier _ _ _ => 2
  | _ => 1

/-- An item is skipped, and its class recorded; a write of the sweep engine names no group then, and the manual gives no record of a
shootdown's arrival that cannot be made. -/
def endLog (e : Ending) (x : EndItem) (c : FaultClass) (s : State) : State :=
  match e.kind with
  | .send hnd => sendLog s e.owner hnd x.what x.va (classCode c)
  | .hole mb => landLog s mb e.owner x.va (classCode c)
  | .shoot _ => s
  | .sweep die => errLog (some e.owner.part) die e.owner.sid 0x11 x.va (classCode c * 2 ^ 48) s

/-- The die whose remote tags a completion uses. -/
def endDie (e : Ending) : Nat :=
  match e.kind with
  | .send hnd => hnd.toNat / 1024
  | .hole mb => mb % 6
  | .shoot die => die
  | .sweep die => die

/-- What making an item comes to. -/
inductive Made where
  /-- it is made, or skipped and recorded -/
  | done (s : State)
  /-- its request to another package is out, under a tag -/
  | asked (tag : Option Nat) (s : State)
  /-- it has to wait: for room in a wake unit, for a remote tag or for a self-test -/
  | full

/-- An item that accesses `n` bytes at an address: the checks, and `act` on its place. A request to another package takes a tag and is counted
(event 0x0008 of spec/02_strand_registers.md R42). -/
def madeAt (e : Ending) (x : EndItem) (va : Word) (n : Nat) (need : Need) (act : Place → State → State) (s : State) : Made :=
  let p := e.owner.part
  match locate s (engineCtx p) va n (if need = .write then 1 else n) need acceptsFar with
  | .error f => .done (endLog e x f.cls (afterFail p e.owner.sid f s))
  | .ok (pl, s1) =>
    if underTest s1 0 pl n then .full
    else if isLocal s1 pl then
      match accessFault s1 0 pl n true with
      | some c => .done (endLog e x c (engineLost p e.owner.sid pl va.toNat c s1))
      | none => .done (act pl s1)
    else match engineTag s1 (endDie e) 1 with
      | none => .full
      | some (tag, s2) => .asked tag (countOwner (act pl s2) e.owner 0x0008 1)

/-- An addition to 8 bytes at a place. -/
def engineAdd (s : State) (pl : Place) (x : Word) : State :=
  match pl with
  | .mem pa comp => homeWrite s none pa (bvBytes ((bytesBv 64 (homeRead s pa 8) : Word) + x)) comp
  | .remote peer pa =>
    if peer = s.self then homeWrite s none pa (bvBytes ((bytesBv 64 (homeRead s pa 8) : Word) + x)) false
    else { s with outbox := s.outbox ++ [.request peer pa 8 (.amo 0#4 x 0#5)] }
  | _ => s

/-- Makes an item. An update of no arrival and no sectors is not made, and asks nothing of another package. -/
def makeItem (e : Ending) (x : EndItem) (s : State) : Made :=
  match x with
  | .status va bs => madeAt e x va 16 .write (fun pl u => enginePut u 0 pl bs) s
  | .put va bs => madeAt e x (BitVec.ofNat 64 va) bs.length .write (fun pl u => enginePut u 0 pl bs) s
  | .add va y => madeAt e x (BitVec.ofNat 64 va) 8 .readWrite (fun pl u => engineAdd u pl y) s
  | .barrier va dA dS =>
    match madeAt e x va 16 .readWrite (fun pl u => (engineBar u e.owner.part e.owner.sid pl dA dS).2) s with
    | .asked tag u => if dA = 0 ∧ dS = 0 then .done (giveTag u tag) else .asked tag u
    | r => r
  | .wake desc cell =>
    match locate s (engineCtx e.owner.part) (BitVec.ofNat 64 desc) 64 1 .read acceptsFar with
    | .error f => .done (endLog e x f.cls (afterFail e.owner.part e.owner.sid f s))
    | .ok (pl, s1) =>
      if underTest s1 0 pl 64 then .full
      else match ownMem s1 pl, pl with
        | none, .remote peer pa =>
          (match engineTag s1 (endDie e) 1 with
            | none => .full
            | some (tag, s2) =>
              .asked tag (countOwner { s2 with outbox := s2.outbox ++ [.request peer pa 64 (.wake [cell] none)] } e.owner 0x0008 1))
        | _, _ =>
          match receiveWake s e.owner.part e.owner.sid desc cell with
          | none => .full
          | some (none, u) => .done u
          | some (some c, u) => .done (endLog e x c u)
  | .reply p => .done (sendPacket s p)

/-- Makes the items of a completion in order, up to one that it has to wait for. -/
def runItems (e : Ending) : List EndItem → State → State
  | [], s => s
  | x :: rest, s =>
    match makeItem e x s with
    | .done u => runItems e rest u
    | .asked tag u => { u with ends := u.ends ++ [{ e with items := x :: rest, asked := true, tag := tag, since := u.cycle }] }
    | .full => { s with ends := s.ends ++ [{ e with items := x :: rest, asked := false, tag := none }] }

/-- Something completes: its items are made in order. `tile` for a matrix pigeonhole. -/
def complete (s : State) (k : EndKind) (o : Owner) (tile : Bool) (items : List EndItem) : State :=
  runItems ⟨k, o, tile, [], false, none, s.cycle⟩ items s

/-- The place of an item's address. -/
def itemPlace (s : State) (e : Ending) (x : EndItem) : Option Place :=
  match locate s (engineCtx e.owner.part) (BitVec.ofNat 64 x.va) 1 1 .read acceptsFar with
  | .ok (pl, _) => some pl
  | .error _ => none

/-- What the home of an item answered (spec/12_barriers_and_counters.md R210): an error is recorded, with its stack where that is shut down
(spec/05_memories.md R94), and so is a bad tag. -/
def itemAnswered (e : Ending) (x : EndItem) (rep : Reply) (s : State) : State :=
  match replyValue rep with
  | .error c =>
    endLog e x c (match itemPlace s e x with
      | some pl => engineLost e.owner.part e.owner.sid pl x.va c s
      | none => s)
  | .ok v =>
    match x with
    | .barrier _ _ _ =>
      if v / 2 ^ 120 % 256 = 0xB7 then s
      else
        let pa := ((itemPlace s e x).map (fun pl => (placeKey pl).2)).getD 0
        errLog (some e.owner.part) (endDie e) e.owner.sid 0x07 pa (v / 2 ^ 120 % 256) s
    | _ => s

/-- The completion at a position goes on: its first item has been answered, or is tried again. -/
def endingStep (s : State) (i : Nat) (rep : Reply) : State :=
  match s.ends[i]? with
  | none => s
  | some e =>
    let s1 := { s with ends := dropNth s.ends i }
    match e.items with
    | [] => s1
    | x :: rest =>
      if e.asked then runItems e rest (itemAnswered e x rep (giveTag s1 e.tag))
      else match makeItem e x s1 with
        | .full => s
        | _ => runItems e e.items s1

/-- The first item of the completion at a position has had no answer for REMTO ticks: it is skipped and recorded. -/
def endingTimeout (s : State) (i : Nat) : State :=
  match s.ends[i]? with
  | none => s
  | some e =>
    match e.items with
    | [] => s
    | x :: rest =>
      if e.asked = false ∨ s.cycle < e.since + s.remto then s
      else runItems e rest (endLog e x .remoteTimeout (dropTag { s with ends := dropNth s.ends i } e.tag))

/-- Does a completion of a strand's matrix pigeonhole still wait (spec/08_receive_engine.md R144)? -/
def tileEnding (s : State) (t : Strand) : Bool := s.ends.any (fun e => e.tile && e.owner.isOf t)

end Sys2Proof.Machine
end

