-- ==== Sys2Proof/Machine/Send.lean ====
section
/-! DEFINITION. The send engine: the start of a send, the pulls it answers and its completion
(spec/17_engine_and_system_instructions.md R324, R325, spec/08_receive_engine.md R134, R135, R147, R148,
spec/24_program_messaging.md R383). -/

namespace Sys2Proof.Machine

open Sys2Proof

/-! ### Completing a send (spec/08_receive_engine.md R135) -/

/-- A send of a handle completes: its status record is written, then one arrival is made on its barrier; an item whose address is 0 is
passed over. -/
def completeSend (s : State) (o : Owner) (hnd : BitVec 13) (desc : Rec64) (code : BitVec 16) (len : BitVec 32) : State :=
  let stat := sdStat desc
  let bar := sdBar desc
  complete s (.send hnd) o false
    ((if stat = 0#64 then [] else [.status stat (statusBytes (sdDst desc) (sdTag desc) len code)]) ++
      (if bar = 0#64 then [] else [.barrier bar 1 0]))

/-- The source read of a send failed at an address (spec/08_receive_engine.md R134): it is recorded. -/
def sourceFault (s : State) (o : Owner) (hnd : BitVec 13) (c va : Nat) : State :=
  sendLog (engineFault s (engineCtx o.part) o.sid (hnd.toNat / 1024) c va) o hnd 0 va c

/-! ### Reading a source -/

/-- What a read of a send's source comes to. -/
inductive SourceRead where
  /-- it waits: for a spill, a command or a self-test, or for answers of peers -/
  | wait
  /-- requests to peers are to be sent first -/
  | ask (l : List Outgoing)
  /-- the class code and the failing address -/
  | bad (c va : Nat) (s : State)
  | got (bytes : List Byte) (s : State)

/-- The 32 KiB of a bound matrix register (spec/17_engine_and_system_instructions.md R325): a frame that is being spilled is waited for, and
what is bound to the backing area is there. -/
def stageTile (s : State) (slot r : Nat) (x : Source) : SourceRead :=
  let t := s.strand slot
  let va := backingVa t r
  let held (tile : Tile) (bad : List Nat) : SourceRead :=
    match bad with
    | [] => .got (bvBytes tile) s
    | b :: _ => .bad (classCode .poison) (va + 32 * b) s
  match x with
  | .zero => .got (List.replicate 32768 0#8) s
  | .kept tile bad => held tile bad
  | .frame f =>
    let fr := frameOf s (coreOf slot) f
    if frameTested s (coreOf slot) f || t.spillq.any (fun m => m.frame == f) then .wait
    else held fr.data fr.bad
  | .backing =>
    match locate s (ownCtx s slot) (BitVec.ofNat 64 va) 32768 1 .read acceptsLocal with
      | .error f => .bad (classCode f.cls) va (afterFail t.part (sidOf slot) f s)
      | .ok (.mem pa _, s1) =>
        if underTest s slot (.mem pa false) 32768 then .wait
        else match (List.range 1024).find? (fun i => poisoned s (pa + 32 * i) 32 || memLost s (pa + 32 * i)) with
          | none => .got (homeRead s1 pa 32768) s1
          | some i =>
            let c := if poisoned s (pa + 32 * i) 32 then FaultClass.poison else .memLost
            .bad (classCode c) (va + 32 * i) (engineLost t.part (sidOf slot) (.mem (pa + 32 * i) false) (va + 32 * i) c s1)
      | .ok _ => .wait
  | .cmd _ => .wait

/-- The requests to peers that a send's read of memory makes, or what it meets before any. -/
def sourceAsks (s : State) (p : BitVec 6) (va n : Nat) : Except CopyStop (List Outgoing) :=
  match copyRead ⟨s, 0, engineCtx p, true, none⟩ va (n / 32 + 2) n noFeed s with
  | .error x => .error x
  | .ok plan => .ok (plan.st.outbox.drop s.outbox.length)

/-- Which of those requests have not been answered by so many bytes, by position. -/
def sourceLate (s : State) (p : BitVec 6) (va n have_ i : Nat) : Bool :=
  match sourceAsks s p va n with
  | .error _ => true
  | .ok l => decide (answered (l.map askLen) have_ ≤ i)

/-- What a send reads of memory for a partition. `asked`: its requests to peers are out, `f` is what they returned and `stop` the class
that ends it. -/
def sourceRead (s : State) (p : BitVec 6) (va n : Nat) (asked : Bool) (f : Feed) (stop : Option FaultClass) : SourceRead :=
  match sourceAsks s p va n with
  | .error .short => .wait
  | .error (.bad c x) => .bad c x s
  | .ok l =>
    if !l.isEmpty && !asked then .ask l
    else match copyRead ⟨s, 0, engineCtx p, false, stop⟩ va (n / 32 + 2) n f s with
      | .error .short => .wait
      | .error (.bad c x) => .bad c x s
      | .ok r =>
        match r.poison with
        | some x => .bad (classCode .poison) x r.st
        | none => .got r.bytes r.st

/-! ### Starting (spec/17_engine_and_system_instructions.md R324, R325) -/

/-- The TYPE of a send's header. -/
def sendType (c : SendCommand) : BitVec 8 :=
  match c.ins with
  | .tsend _ _ _ _ _ => 0x03#8
  | .tsendAdd _ _ _ _ _ => 0x04#8
  | _ => if sdLen c.desc ≤ 4096 then 0x01#8 else 0x02#8

/-- The source of a send as it is read at the start. -/
def startRead (s : State) (slot : Nat) (c : SendCommand) (f : Feed) (stop : Option FaultClass) : SourceRead :=
  match c.reg with
  | some (r, x) => stageTile s slot r x
  | none =>
    if sendType c = 0x01#8 then
      sourceRead s (s.strand slot).part (sdSrc c.desc).toNat (sdLen c.desc) c.asked.isSome f stop
    else .got [] s

/-- The message length that a send's header carries. -/
def sendLen (c : SendCommand) : Nat := if c.reg.isSome then 32768 else sdLen c.desc

/-- The handle of a send slot of a strand's die. -/
def sendHandle (slot num : Nat) : BitVec 13 := BitVec.ofNat 13 (1024 * dieOf (coreOf slot) + num)

/-- A send has left its strand's order: it retires, its token is pushed, and an old frame that it read may be freed. -/
def sendLeaves (s : State) (slot : Nat) (c : SendCommand) : State :=
  sweepFrames ((giveTag s c.tag).updSlot slot (fun v => (pushToken { v with sendq := v.sendq.drop 1 } .s c.push).flush)) slot

/-- A send whose source has been read takes its slot and its sequence number and emits its header. Its number and source generation are those
of its mailbox as the send starts, also where the mailbox was closed or opened again since the send issued (DESIGN CHOICE, Assumption 59:
the manual is silent on that case). -/
def emitSend (s : State) (slot num : Nat) (c : SendCommand) (bs : List Byte) : State :=
  let mb := (sdSrcMb c.desc).toNat
  let hnd := sendHandle slot num
  let box := s.mbox mb
  let dst := sdDst c.desc
  let seq := tabGet 0#16 box.nextSeq dst.toNat
  let own : BitVec 22 := s.self ++ sdSrcMb c.desc
  let h := mkHeader (sendType c) seq own dst (sdCtx c.desc) hnd (sdTag c.desc) (sendLen c) 0#16 0#32 box.sgen
  let eager := sendType c = 0x01#8
  let x : Send := {
    hnd := hnd
    owner := (s.strand slot).owner slot
    desc := c.desc
    kind := sendType c
    data := if eager then [] else bs
    seq := seq
    sgen := box.sgen
    srcFault := false
    asked := none
    tag := none
    since := s.cycle }
  let s1 := s.updMbox mb (fun b => { b with nextSeq := tabPut 0#16 b.nextSeq dst.toNat (seq + 1#16) })
  sendPacket { s1 with sends := s1.sends ++ [x], pulled := s1.pulled.filter (fun y => y.1 != hnd) } ⟨slice dst 12 10, h, if eager then bs else []⟩

/-- The send at the head of the order starts in a send slot: it reads its source, asking peers for what lies there, and emits its header;
or its source read fails and it completes at once with SRCFAULT. -/
def startSend (s : State) (slot num : Nat) (c : SendCommand) (f : Feed) (stop : Option FaultClass) : State :=
  match startRead s slot c f stop with
  | .wait => s
  | .ask l =>
    (match engineTag s (dieOf (coreOf slot)) l.length with
      | none => s
      | some (tag, s1) =>
        countEvent ({ s1 with outbox := s1.outbox ++ l }.updSlot slot (fun v => { v with
          sendq := { c with asked := some (s.cycle, num), tag := tag } :: v.sendq.drop 1 })) slot 0x0008 l.length)
  | .bad k va s1 =>
    let o := (s.strand slot).owner slot
    let hnd := sendHandle slot num
    sendLeaves (completeSend (sourceFault s1 o hnd k va) o hnd c.desc 6#16 0#32) slot c
  | .got bs s1 => sendLeaves (emitSend s1 slot num c bs) slot c

/-- Is a send slot of the die of a strand's slot taken: by a send, or by one of another strand that has started and reads its source? -/
def sendSlotTaken (s : State) (slot num : Nat) : Bool :=
  s.sends.any (fun x => x.hnd == sendHandle slot num) ||
    s.strands.any (fun kt => kt.1 != slot && dieOf (coreOf kt.1) == dieOf (coreOf slot) &&
      (kt.2.sendq.head?).any (fun c => c.asked.any (fun a => a.2 == num)))

/-- May the head send of the strand in a slot move in a send slot of its die: its guard is true, the slot is its own or free, and every
earlier stream access has been performed? -/
def sendReady (s : State) (slot num : Nat) (c : SendCommand) : Bool :=
  let t := s.strand slot
  let go := match c.guard with
    | none => true
    | some e => e.val == some true
  go && decide (num < 1024) && t.phase != .free && c.asked.all (fun a => a.2 == num) && !sendSlotTaken s slot num &&
    t.out.all (fun a => decide (c.seq ≤ a.seq))

/-- SEND_START: the send at the head of the order of the strand in `slot` takes send slot `num` of its die. For a source on other packages
`data` is what the peers returned, `peers` the offsets of poisoned bytes, and `rep` the answer after them. -/
def execSendStart (s : State) : Out :=
  let slot := s.arg.slot
  match (s.strand slot).sendq with
  | [] => .next s
  | c :: _ =>
    if sendReady s slot s.arg.num c then .next (startSend s slot s.arg.num c (feedOf s.arg) (replyClass s.arg.rep)) else .next s

/-- The source reads of the send at the head of a strand's order have had no answer for REMTO ticks, but for what `f` brings. -/
def sendSourceTimeout (s : State) (slot num : Nat) (f : Feed) : State :=
  match (s.strand slot).sendq with
  | [] => s
  | c :: _ =>
    match c.asked with
    | none => s
    | some (since, _) =>
      if s.cycle < since + s.remto ∨ sendReady s slot num c = false then s
      else
        let late := sourceLate s (s.strand slot).part (sdSrc c.desc).toNat (sdLen c.desc) f.data.length
        startSend (dropTags s c.tag late) slot num { c with tag := none } f (some .remoteTimeout)

/-! ### Pulls and completion (spec/08_receive_engine.md R134, R135) -/

/-- Changes the send of a handle. -/
def updSend (s : State) (hnd : BitVec 13) (f : Send → Send) : State :=
  { s with sends := s.sends.map (fun y => if y.hnd = hnd then f y else y) }

/-- The sender answers a pull from an offset on: with bytes, or with an error completion. -/
def answerPull (s : State) (x : Send) (off : Nat) (bs : List Byte) (ok : Bool) : State :=
  let peer : BitVec 10 := slice (sdDst x.desc) 12 10
  if peer = s.self then { s with pulled := s.pulled ++ [(x.hnd, off, bs, ok)] }
  else { s with outbox := s.outbox ++ [.answer peer bs ok] }

/-- A pull of `n` bytes of a send from an offset on: a rendezvous MSEND reads its source, asking peers for what lies on other packages; a
TSEND answers from its staging buffer. -/
def pullStep (s : State) (x : Send) (off n : Nat) (f : Feed) (stop : Option FaultClass) : State :=
  let mine := match x.asked with
    | some (o, m, _) => o == off && m == n
    | none => false
  if x.kind = 0x01#8 ∨ (x.asked.isSome ∧ mine = false) then s
  else
    let r := if x.kind = 0x02#8 then sourceRead s x.owner.part ((sdSrc x.desc).toNat + off) n mine f stop
      else SourceRead.got ((x.data.drop off).take n) s
    let spent (u : State) : State := updSend (giveTag u x.tag) x.hnd (fun y => { y with asked := none, tag := none })
    match r with
    | .wait => s
    | .ask l =>
      (match engineTag s (x.hnd.toNat / 1024) l.length with
        | none => s
        | some (tag, s1) =>
          updSend (countOwner { s1 with outbox := s1.outbox ++ l } x.owner 0x0008 l.length) x.hnd (fun y => { y with asked := some (off, n, s.cycle), tag := tag }))
    | .bad c va s1 =>
      answerPull (updSend (sourceFault (spent s1) x.owner x.hnd c va) x.hnd (fun y => { y with srcFault := true })) x off [] false
    | .got bs s1 => answerPull (spent s1) x off bs true

/-- May a pull of bytes [off, off + n) of a send reach it? Between mailboxes of this package it comes from the claim that is PULLING, and reads
only the received length (spec/08_receive_engine.md R140); a peer's read has its own receiver's bound. -/
def pullAllowed (s : State) (x : Send) (off n : Nat) : Bool :=
  slice (sdDst x.desc) 12 10 != s.self || s.mailboxes.any (fun kb => kb.2.claims.any (fun c =>
    c.st == .pulling && c.msg.peer == s.self && hdHnd c.msg.hdr == x.hnd && decide (off + n ≤ recvLen c.hole.rcd c.msg.hdr)))

/-- PULL_REQUEST: a pull of the send of handle `num`, of `area` bytes from byte `idx` on, is answered; a failing source is answered with an
error completion and recorded. For a source on other packages `data` is what the peers returned, `peers` the offsets of poisoned bytes,
and `rep` the answer after them; `flag` says that they have not answered for REMTO ticks. -/
def execPullRequest (s : State) : Out :=
  match s.sends.find? (fun x => x.hnd.toNat == s.arg.num) with
  | none => .next s
  | some x =>
    match s.arg.flag, x.asked with
    | true, some (off, n, since) =>
      if s.cycle < since + s.remto then .next s
      else
        let late := sourceLate s x.owner.part ((sdSrc x.desc).toNat + off) n s.arg.data.length
        .next (pullStep (dropTags s x.tag late) { x with tag := none } off n (feedOf s.arg) (some .remoteTimeout))
    | _, _ =>
      if !pullAllowed s x s.arg.idx s.arg.area then .next s
      else .next (pullStep s x s.arg.idx s.arg.area (feedOf s.arg) (replyClass s.arg.rep))

/-- The code and length that a reply gives a send: none for a header that is no reply. -/
def replyCode (x : Send) (h : Rec64) : Option (BitVec 16 × BitVec 32) :=
  let len : BitVec 32 := if x.kind = 0x01#8 ∨ x.kind = 0x02#8 then BitVec.ofNat 32 (sdLen x.desc) else 32768#32
  match (hdType h).toNat with
  | 0x11 => some (0#16, len)
  | 0x12 => some (2#16, 0#32)
  | 0x13 => some (0#16, hdRlen h)
  | 0x14 => some (4#16, 0#32)
  | 0x15 => some (5#16, 0#32)
  | _ => none

/-- Does a reply answer the send: handle, sequence number and source generation echo? -/
def replyFits (x : Send) (h : Rec64) : Bool :=
  hdHnd h == x.hnd && hdSeq h == x.seq && hdSgen h == x.sgen && hdVer h == 0x01#8

/-- The send is over with a code. -/
def endSend (s : State) (x : Send) (code : BitVec 16) (len : BitVec 32) : State :=
  let s1 := dropTag { s with sends := s.sends.filter (fun y => y.hnd != x.hnd) } x.tag
  if x.srcFault then completeSend s1 x.owner x.hnd x.desc 6#16 0#32 else completeSend s1 x.owner x.hnd x.desc code len

/-- A reply reaches the send engine; one that answers no send is dropped. -/
def takeReply (s : State) (h : Rec64) : State :=
  match s.sends.find? (fun x => replyFits x h) with
  | none => s
  | some x =>
    match replyCode x h with
    | none => s
    | some (code, len) => endSend s x code len

/-- SEND_COMPLETE: the send of handle `num` has its reply, or the send engine gives up: after REMTO ticks, when its peer is lost, or when a
pull of its source has failed. A peer that has left the partition's peer set while the send is out counts as lost (DESIGN CHOICE,
Assumption 59: the manual does not say what losing the peer is). -/
def execSendComplete (s : State) : Out :=
  match s.arg.sendEnd with
  | .reply h => .next (if (hdHnd h).toNat = s.arg.num then takeReply s h else s)
  | .own i =>
    (match s.wire[i]? with
      | none => .next s
      | some p => if isReply p.hdr then .next (takeReply { s with wire := dropNth s.wire i } p.hdr) else .next s)
  | .giveUp =>
    (match s.sends.find? (fun x => x.hnd.toNat == s.arg.num) with
      | none => .next s
      | some x =>
        if x.srcFault || overdue s x.since || (peerFault s x.owner.part (slice (sdDst x.desc) 12 10)).isSome then
          .next (endSend s x 5#16 0#32)
        else .next s)

end Sys2Proof.Machine
end

