-- ==== Sys2Proof/Machine/Receive.lean ====
section
/-! DEFINITION. The receive engine: pigeonholes, headers and their order, claims, pulls, landings and completions
(spec/08_receive_engine.md R130 to R146, spec/17_engine_and_system_instructions.md R326 to R328,
spec/03_matrix_registers.md R56, R57). -/

namespace Sys2Proof.Machine

open Sys2Proof

/-! ### Pigeonhole records checked and matched (spec/08_receive_engine.md R132, R133) -/

/-- The fields that a match uses are within their limits: all that RPROBE checks (spec/17_engine_and_system_instructions.md R327). -/
def phMatchOk (r : Rec64) : Bool := slice r 22 10 == 0#10 && slice r 54 10 == 0#10 && slice r 140 4 == 0#4

/-- Is the record within its limits, as RPOSTM or as RPOST reads it? -/
def phOk (tile : Bool) (r : Rec64) : Bool :=
  phMatchOk r && slice r 147 5 == 0#5 && slice r 496 16 == 0#16 &&
    addrFieldOk (phDest r) 1 && addrFieldOk (phBar r) 16 && addrFieldOk (phStat r) 16 && addrFieldOk (phWdesc r) 64 &&
    (if tile then phKind r == 1#2 && decide (phLen r = 32768) && phDest r == 0#64
     else phMreg r == 0#8 &&
      ((phKind r == 0#2 && decide (phLen r ≤ 2 ^ 28)) ||
        (phKind r == 2#2 && decide (phLen r = 0) && phDest r == 0#64)))

/-- Does a header match a record (spec/08_receive_engine.md R133)? -/
def headerMatches (h r : Rec64) : Bool :=
  hdSrcMa h &&& phSmask r == phSrc r &&& phSmask r && hdTag h &&& phTmask r == phTag r &&& phTmask r && hdCtx h == phCtx r

/-- Was the payload longer than the pigeonhole's limit? -/
def truncated (hole h : Rec64) : Bool := phKind hole != 2#2 && decide (recvLen hole h < hdLen h)

/-! ### Replies (spec/08_receive_engine.md R148) -/

/-- The reply to a message. Of the fields that the manual does not say are echoed, the two mail addresses change places, and CTX, TAGW and
LENW stay (DESIGN CHOICE, Assumption 59). -/
def replyTo (m : Message) (ty : BitVec 8) (code : BitVec 16) (rlen : Nat) : Packet :=
  let h := m.hdr
  ⟨m.peer, mkHeader ty (hdSeq h) (hdDstMa h) (hdSrcMa h) (hdCtx h) (hdHnd h) (hdTag h) (hdLen h) code (BitVec.ofNat 32 rlen) (hdSgen h), []⟩

/-- A reply leaves for a message's sender. -/
def reply (s : State) (m : Message) (ty : BitVec 8) (code : BitVec 16) (rlen : Nat) : State := sendPacket s (replyTo m ty code rlen)

/-! ### Completing a pigeonhole (spec/08_receive_engine.md R141) -/

/-- Sectors that a pigeonhole's barrier update takes off. -/
def holeSectors (r : Rec64) : Nat :=
  if phKind r = 0#2 then (phLen r + 31) / 32 else if phKind r = 1#2 then 1024 else 0

/-- The items of a pigeonhole's completion, in order: status, barrier, wake. -/
def holeItems (r : Rec64) (ma : BitVec 22) (tag : BitVec 32) (code : BitVec 16) (rlen : Nat) : List EndItem :=
  (if phStat r = 0#64 then [] else [.status (phStat r) (statusBytes ma tag (BitVec.ofNat 32 rlen) code)]) ++
    (if phBar r = 0#64 then [] else [.barrier (phBar r) (boolNat (phArrv r)) (-(holeSectors r : Int))]) ++
    (if phWdesc r = 0#64 then [] else [.wake (phWdesc r).toNat (phWcell r)])

/-- Is it a matrix pigeonhole? -/
def Pigeonhole.tile (x : Pigeonhole) : Bool := phKind x.rcd == 1#2

/-- A pigeonhole completes for a message, and the reply leaves after its items. -/
def completeHole (s : State) (mb : Nat) (x : Pigeonhole) (m : Message) (code : BitVec 16) (rlen : Nat) (after : List EndItem) : State :=
  complete s (.hole mb) x.owner x.tile (holeItems x.rcd (hdSrcMa m.hdr) (hdTag m.hdr) code rlen ++ after)

/-- An open pigeonhole completes without a message (spec/08_receive_engine.md R144): CANCELLED, length 0, no reply. What the status says of its
source and tag is a free value (Assumption 5). -/
def cancelHole (s : State) (mb : Nat) (x : Pigeonhole) : State :=
  let w := Config.statusWithoutMessage s.fresh
  complete { s with fresh := s.fresh + 1 } (.hole mb) x.owner x.tile (holeItems x.rcd (slice w 0 22) (slice w 32 32) 4#16 0)

/-! ### Claims (spec/08_receive_engine.md R139, R145, R146) -/

/-- Changes a claim of a mailbox. -/
def setClaim (s : State) (mb i : Nat) (c : Claim) : State := s.updMbox mb (fun b => { b with claims := setNth b.claims i c })

/-- Drops a claim of a mailbox. -/
def dropClaim (s : State) (mb i : Nat) : State := s.updMbox mb (fun b => { b with claims := dropNth b.claims i })

/-- Bytes that a claim pulls: only the received length. -/
def pullLen (c : Claim) : Nat := recvLen c.hole.rcd c.msg.hdr

/-- The next part of a claim's pull from another package leaves, in reads of up to 256 bytes, as many as remote tags are free
(spec/08_receive_engine.md R147, spec/05_memories.md R88); it stays to be sent where none is free. -/
def askPull (s : State) (mb i : Nat) (c : Claim) : State :=
  let left := pullLen c - c.data.length
  let n := min ((left + 255) / 256) (4096 - tagsUsed s (mb % 6))
  if n = 0 then s
  else match engineTag s (mb % 6) n with
    | none => s
    | some (tag, s1) =>
      let due := min left (256 * n)
      let s2 := setClaim s1 mb i { c with asked := true, due := due, tag := tag, since := s.cycle }
      countOwner { s2 with outbox := s2.outbox ++ [.pull c.msg.peer (apPull (hdHnd c.msg.hdr).toNat c.data.length) due] } c.hole.owner 0x0008 n

/-- A message claims a pigeonhole: an eager one lands, a rendezvous one is pulled first, but for nothing to pull. -/
def claimMessage (s : State) (mb : Nat) (m : Message) (x : Pigeonhole) : State :=
  let eager := hdType m.hdr == 0x01#8
  let n := if phKind x.rcd = 2#2 then 0 else recvLen x.rcd m.hdr
  let lands := eager || n == 0
  let c : Claim := {
    msg := m
    hole := x
    st := if lands then .landing else .pulling
    data := if eager then m.payload else []
    retry := false
    landed := none
    asked := false
    due := 0
    unsent := []
    tag := none
    since := s.cycle }
  let s1 := s.updMbox mb (fun b => { b with claims := b.claims ++ [c] })
  if lands || m.peer == s.self then s1 else askPull s1 mb (s.mbox mb).claims.length c

/-- Messages of a mailbox that wait: queued or HELD. -/
def storedMsgs (b : Mailbox) : List Message := b.queue ++ b.pairs.flatMap (fun q => q.held)

/-- Messages of a mailbox that hold a slot or a ring entry: those that wait, and those left in the queue as DESTFAULT
(spec/08_receive_engine.md R142). -/
def roomMsgs (b : Mailbox) : List Message := storedMsgs b ++ (b.claims.filter (fun c => c.st == .destFault)).map (fun c => c.msg)

/-- Room for one more message (spec/08_receive_engine.md R138): an on-chip slot, else an entry of the mailbox's ring. -/
def takeRoom (s : State) (mb : Nat) : Option Bool :=
  let used := s.mailboxes.foldl (fun n kb => n + ((roomMsgs kb.2).filter (fun m => m.onChip)).length) 0
  if used < 65536 then some true
  else if ((roomMsgs (s.mbox mb)).filter (fun m => !m.onChip)).length < (s.mbox mb).ring then some false
  else none

/-- A header is tested (spec/08_receive_engine.md R136, R138): the first open pigeonhole that it matches is claimed; otherwise it is queued,
and an eager one acknowledged; without room it is refused. -/
def testMessage (s : State) (mb : Nat) (m : Message) : State :=
  let b := s.mbox mb
  match findPos (fun x => headerMatches m.hdr x.rcd) b.holes with
  | some i =>
    (match b.holes[i]? with
      | some x => claimMessage (s.updMbox mb (fun b => { b with holes := dropNth b.holes i })) mb m x
      | none => s)
  | none =>
    match takeRoom s mb with
    | none => reply s m 0x12#8 2#16 0
    | some chip =>
      let eager := hdType m.hdr == 0x01#8
      let s1 := s.updMbox mb (fun b => { b with queue := b.queue ++ [{ m with onChip := chip, acked := eager }] })
      if eager then reply s1 m 0x11#8 0#16 (hdLen m.hdr) else s1

/-! ### Pairs (spec/08_receive_engine.md R136, R137) -/

/-- Is one source generation newer than another? -/
def newerGen (a b : BitVec 16) : Bool := decide (1 ≤ (a - b).toNat) && decide ((a - b).toNat ≤ 32767)

/-- Older states of a source that hold no header are dropped. -/
def prunePairs (l : List Pair) : List Pair :=
  l.filter (fun q => !(q.held.isEmpty && l.any (fun r => r.srcma == q.srcma && newerGen r.sgen q.sgen)))

/-- Changes a pair of a mailbox. -/
def updPair (s : State) (mb : Nat) (ma : BitVec 22) (gen : BitVec 16) (f : Pair → Pair) : State :=
  s.updMbox mb (fun b => { b with pairs := b.pairs.map (fun q => if q.srcma = ma ∧ q.sgen = gen then f q else q) })

/-- The pair of a source and generation. -/
def findPair (s : State) (mb : Nat) (ma : BitVec 22) (gen : BitVec 16) : Option Pair :=
  (s.mbox mb).pairs.find? (fun q => q.srcma == ma && q.sgen == gen)

/-- A header that is dropped, or judged behind, is recorded (spec/12_barriers_and_counters.md R215 code 0x0E). -/
def dropLog (s : State) (h : Rec64) : State :=
  let mb := (slice (hdDstMa h) 0 12).toNat
  let b := s.mbox mb
  errLog (if b.isOpen then some b.part else none) (mb % 6) noSid 0x0E (hdDstMa h).toNat
    ((hdType h).toNat + 256 * (hdSeq h).toNat + 2 ^ 24 * (hdSrcMa h).toNat) s

/-- A header judged behind gets a LOST reply and a record. -/
def lostHeader (s : State) (m : Message) : State := reply (dropLog s m.hdr) m 0x15#8 5#16 0

/-- How far a HELD header is from being behind an expected number: a repeat of a number that has passed is behind. -/
def behind (e : BitVec 16) (m : Message) : Bool := decide (32768 ≤ (hdSeq m.hdr - e).toNat)

/-- Repeats among the HELD headers of a pair whose number has passed are judged behind. -/
def dropBehind (s : State) (mb : Nat) (ma : BitVec 22) (gen : BitVec 16) : State :=
  match findPair s mb ma gen with
  | none => s
  | some q =>
    (q.held.filter (behind q.expected)).foldl lostHeader
      (updPair s mb ma gen (fun q => { q with held := q.held.filter (fun y => !behind q.expected y) }))

/-- HELD headers that are next are tested at once, in number order. -/
def runHeld (mb : Nat) (ma : BitVec 22) (gen : BitVec 16) : Nat → State → State
  | 0, s => s
  | n + 1, s0 =>
    let s := dropBehind s0 mb ma gen
    match findPair s mb ma gen with
    | none => s
    | some q =>
      match findPos (fun m => hdSeq m.hdr == q.expected) q.held with
      | none => s
      | some i =>
        match q.held[i]? with
        | none => s
        | some m =>
          let s1 := updPair s mb ma gen (fun q => { q with
            expected := q.expected + 1#16
            since := s.cycle
            held := dropNth q.held i })
          runHeld mb ma gen n (testMessage s1 mb m)

/-- HELD headers run on, and older states that are empty are dropped. -/
def settlePair (s : State) (mb : Nat) (ma : BitVec 22) (gen : BitVec 16) : State :=
  let n := match findPair s mb ma gen with
    | some q => q.held.length
    | none => 0
  (runHeld mb ma gen (n + 1) s).updMbox mb (fun b => { b with pairs := prunePairs b.pairs })

/-! ### Arrival (spec/08_receive_engine.md R136 to R138) -/

/-- Is the header of a known type with its reserved bits zero? One of another version is taken for malformed, as is a reply of one
(DESIGN CHOICE, Assumption 59). -/
def headerOk (h : Rec64) : Bool :=
  decide (1 ≤ (hdType h).toNat) && decide ((hdType h).toNat ≤ 4) && hdVer h == 0x01#8 && slice h 54 10 == 0#10 &&
    slice h 86 10 == 0#10 && slice h 108 4 == 0#4 && slice h 125 3 == 0#3 && slice h 192 64 == 0#64 && slice h 272 240 == 0#240

/-- A header is judged by its number (spec/08_receive_engine.md R137). One to be HELD when neither a slot nor a ring entry is free is held
past the ring's size: the test for room comes later (spec/08_receive_engine.md R138; DESIGN CHOICE, Assumption 59). While headers stay HELD
through an advance of the expected number, the gap is timed from that advance, also when a further header is HELD then: the manual's "first
header HELD since that advance" is read as the one that finds none HELD (R136; DESIGN CHOICE, Assumption 59). -/
def judgeHeader (s : State) (mb : Nat) (m : Message) (q : Pair) : State :=
  let h := m.hdr
  let (ma, gen) := (hdSrcMa h, hdSgen h)
  let d := (hdSeq h - q.expected).toNat
  if d = 0 then
    let s1 := updPair s mb ma gen (fun q => { q with expected := q.expected + 1#16, since := s.cycle })
    settlePair (testMessage s1 mb m) mb ma gen
  else if d ≤ 32767 then
    let chip := (takeRoom s mb).getD false
    updPair s mb ma gen (fun q => { q with
      held := q.held ++ [{ m with onChip := chip }]
      since := if q.held.isEmpty then s.cycle else q.since })
  else lostHeader s m

/-- A complete header reaches its mailbox's match unit. -/
def headerArrives (s0 : State) (peer : BitVec 10) (h : Rec64) (payload : List Byte) : State :=
  let (num, s) := s0.nextSeq
  let mb := (slice (hdDstMa h) 0 12).toNat
  let b := s.mbox mb
  let m : Message := ⟨peer, h, if hdType h = 0x01#8 then payload else [], true, false, num⟩
  if !headerOk h then dropLog s h
  else if !b.isOpen || !(s.part b.part).peerSet.getLsbD peer.toNat then reply s m 0x12#8 2#16 0
  else match findPair s mb (hdSrcMa h) (hdSgen h) with
    | some q => judgeHeader s mb m q
    | none =>
      if b.pairs.any (fun q => q.srcma == hdSrcMa h && newerGen q.sgen (hdSgen h)) then
        lostHeader s m
      else
        let q : Pair := ⟨hdSrcMa h, hdSgen h, 0#16, [], s.cycle⟩
        judgeHeader (s.updMbox mb (fun b => { b with pairs := prunePairs (b.pairs ++ [q]) })) mb m q

/-- HEADER_ARRIVAL: a header from another package, an eager one with all its payload, or the packet at a place of the package's own
traffic. -/
def execHeaderArrival (s : State) : Out :=
  match s.arg.arrival with
  | .fabric peer h payload =>
    if hdType h = 0x01#8 ∧ payload.length ≠ hdLen h then .next s else .next (headerArrives s.wakeUp peer h payload)
  | .own i =>
    match s.wire[i]? with
    | none => .next s
    | some p =>
      if isReply p.hdr then .next s
      else .next (headerArrives { s with wire := dropNth s.wire i } s.self p.hdr p.payload)

/-- A message of another package of which something has arrived. -/
def inbound (s : State) (peer : BitVec 10) (hnd : Nat) : Inbound :=
  (s.inbox.find? (fun x => x.peer == peer && x.hnd == hnd)).getD ⟨peer, hnd, none, []⟩

/-- An eager message in the aperture: it arrives, and is checked, once its header and all its payload bytes are present, in whatever order
they came (DESIGN CHOICE, Assumption 59: the manual does not say when such a header arrives). -/
def inboundGrows (s : State) (x : Inbound) : State :=
  let rest := s.inbox.filter (fun y => !(y.peer == x.peer && y.hnd == x.hnd))
  let keep : State := { s with inbox := rest ++ [x] }
  match x.hdr with
  | none => keep
  | some h =>
    if (List.range (hdLen h)).all (tabHas x.bytes) then
      headerArrives { s with inbox := rest } x.peer h ((List.range (hdLen h)).map (tabGet 0#8 x.bytes))
    else keep

/-- A write of a peer into the receive aperture (spec/08_receive_engine.md R147): a header, a reply, or a part of an eager payload. -/
def apertureWrite (s : State) (pa : Nat) (bs : List Byte) : State :=
  let o := pa - apb
  let h : Rec64 := bytesBv 512 bs
  if o < 2 ^ 29 then
    let x := inbound s (BitVec.ofNat 10 (o / 2 ^ 19)) (o % 2 ^ 19 / 64)
    if hdType h = 0x01#8 then inboundGrows s { x with hdr := some h } else headerArrives s x.peer h []
  else if o < 2 ^ 30 then takeReply s h
  else if o < 2 ^ 40 then
    let q := o - 2 ^ 30
    let x := inbound s (BitVec.ofNat 10 (q / 2 ^ 26)) (q % 2 ^ 26 / 4096)
    inboundGrows s { x with bytes := bs.zipIdx.foldl (fun l y => tabSet l (q % 4096 + y.2) y.1) x.bytes }
  else s

/-- Is an address in the receive aperture? -/
def inAperture (pa : Nat) : Bool := decide (apb ≤ pa)

/-- A peer's read of the pull window of a handle: the send answers it. One of a handle that no send holds, of an eager send, or outside the
window gets no answer (DESIGN CHOICE, Assumption 59: the manual says nothing of such a read). -/
def aperturePull (s : State) (pa n : Nat) : State :=
  let o := pa - apb - 2 ^ 40
  match s.sends.find? (fun x => x.hnd.toNat == o / 2 ^ 28) with
  | none => s
  | some x => if pa < apb + 2 ^ 40 then s else pullStep s x (o % 2 ^ 28) n noFeed none

/-- SEQUENCE_GAP_CLOSE: the pair at position `idx` of mailbox `mb` has waited REMTO ticks; the missing numbers below its lowest HELD header are
skipped. -/
def execSequenceGapClose (s : State) : Out :=
  let mb := s.arg.mb
  match (s.mbox mb).pairs[s.arg.idx]? with
  | none => .next s
  | some q =>
    match q.held with
    | [] => .next s
    | m :: rest =>
      if !overdue s q.since then .next s
      else
        let d (y : Message) : Nat := (hdSeq y.hdr - q.expected).toNat
        let low := hdSeq (rest.foldl (fun a y => if d y < d a then y else a) m).hdr
        let s1 := errLog (some (s.mbox mb).part) (mb % 6) noSid 0x0D (s.self.toNat * 4096 + mb)
          (low.toNat + 2 ^ 16 * q.srcma.toNat + 2 ^ 38 * q.sgen.toNat) s
        let s2 := updPair s1 mb q.srcma q.sgen (fun q => { q with expected := low, since := s.cycle })
        .next (settlePair s2 mb q.srcma q.sgen)

/-! ### Posting (spec/17_engine_and_system_instructions.md R326, R327) -/

/-- The gate of a mailbox form: tokens, the mailbox, and the record. `body` acts on the mailbox given the record. -/
def mboxForm (a b : BitVec 5) (p w : BitVec 2) (check : Rec64 → Bool) (ready : Bool)
    (body : Nat → Rec64 → (State → State) → State → Out) (s : State) : Out :=
  let t := s.me
  let mb := (slice (t.getS a) 0 12).toNat
  let va := t.getS b
  match sTokens t p w with
  | none => .next s
  | some t1 =>
    if !mboxOpen s mb t.part then .next (raise (msgTrap .mailbox 0#64) s)
    else if slice va 0 6 ≠ 0#6 ∨ inNear va.toNat = true then .next (raise (msgTrap .mailbox va) s)
    else match loadRecord va .send acceptsFar s with
      | .out o => o
      | .got r s1 =>
        if !check r then .next (raise (msgTrap .mailbox va) s1)
        else if !ready then .next s
        else body mb r (fun u => u.upd (fun v => { v with tok := t1.tok, tokRes := t1.tokRes }.retire p)) s1

/-- A pigeonhole is posted: the mailbox's queue is searched first, in arrival order (spec/08_receive_engine.md R139). -/
def postHole (a b : BitVec 5) (reg : Option Nat) (p w : BitVec 2) (s : State) : Out :=
  mboxForm a b p w (phOk reg.isSome) s.me.out.isEmpty (fun mb r done s =>
    if 1024 ≤ (s.mbox mb).holes.length then .next (raise (msgTrap .mailbox (s.me.getS b)) s)
    else
      let rcd := match reg with
        | some n => putSlice r 152 8 (BitVec.ofNat 8 n)
        | none => r
      let x : Pigeonhole := ⟨rcd, s.me.owner s.cur, s.me.pc⟩
      match findPos (fun m => headerMatches m.hdr rcd) (s.mbox mb).queue with
      | some i =>
        (match (s.mbox mb).queue[i]? with
          | some m => .next (done (claimMessage (s.updMbox mb (fun b => { b with queue := dropNth b.queue i })) mb m x))
          | none => .next s)
      | none => .next (done (s.updMbox mb (fun b => { b with holes := b.holes ++ [x] })))) s

def execRpost (a b : BitVec 5) (p w : BitVec 2) (s : State) : Out := postHole a b none p w s
/-- RPOSTM names a matrix register, resolved against MW at issue. -/
def execRpostm (a b c : BitVec 5) (p w : BitVec 2) (s : State) : Out := postHole a b (some (s.me.mreg c)) p w s

/-- RCANCEL: the oldest open pigeonhole of that status address completes with CANCELLED (spec/08_receive_engine.md R144). -/
def execRcancel (a b : BitVec 5) (p w : BitVec 2) (s : State) : Out :=
  let t := s.me
  let mb := (slice (t.getS a) 0 12).toNat
  match sTokens t p w with
  | none => .next s
  | some t1 =>
    if !mboxOpen s mb t.part then .next (raise (msgTrap .mailbox 0#64) s)
    else
      let done (u : State) : State := u.upd (fun v => { v with tok := t1.tok, tokRes := t1.tokRes }.retire p)
      match findPos (fun x => slice (phStat x.rcd) 0 52 == slice (t.getS b) 0 52) (s.mbox mb).holes with
      | none => .next (done s)
      | some i =>
        match (s.mbox mb).holes[i]? with
        | none => .next s
        | some x => .next (done (cancelHole (s.updMbox mb (fun b => { b with holes := dropNth b.holes i })) mb x))

/-- RPROBE: a summary of the first match in the queue, which it leaves there (spec/08_receive_engine.md R139). -/
def execRprobe (a b c : BitVec 5) (p w : BitVec 2) (s : State) : Out :=
  mboxForm a b p w phMatchOk true (fun mb r done s =>
    let v : Word := match (s.mbox mb).queue.find? (fun m => headerMatches m.hdr r) with
      | none => 0#64
      | some m => 1#1 ++ 0#13 ++ BitVec.ofNat 28 (hdLen m.hdr) ++ hdSrcMa m.hdr
    .next ((done s).upd (fun t => t.setS c v))) s

/-! ### Pulls (spec/08_receive_engine.md R143, R145) -/

/-- The leading bytes of a message of the package's own traffic that its sender has answered, from an offset on. -/
def pulledBytes (l : List (BitVec 13 × Nat × List Byte × Bool)) (hnd : BitVec 13) (off : Nat) : Nat → List Byte
  | 0 => []
  | k + 1 =>
    match l.find? (fun x => x.1 == hnd && x.2.1 == off && x.2.2.2 && !x.2.2.1.isEmpty) with
    | none => []
    | some x => x.2.2.1 ++ pulledBytes l hnd (off + x.2.2.1.length) k

/-- The answers to a handle are used up. -/
def dropPulled (s : State) (hnd : BitVec 13) : State := { s with pulled := s.pulled.filter (fun x => x.1 != hnd) }

/-- What a claim's pull has brought: for the package's own traffic what the sender answered, otherwise what came before and what the step was
given of the part that is out. -/
def pullData (s : State) (c : Claim) (data : List Byte) : List Byte :=
  (if c.msg.peer = s.self then pulledBytes s.pulled (hdHnd c.msg.hdr) 0 (pullLen c + 1) else c.data ++ data.take c.due).take (pullLen c)

/-- PULL_COMPLETE: the message at position `idx` of the claims of mailbox `mb` has all the bytes that were asked for: those in `data`, or for
the package's own traffic those that the sender answered. Where more are to be pulled, their reads leave. A pull that found no remote tag is
sent now. -/
def execPullComplete (s : State) : Out :=
  let mb := s.arg.mb
  let i := s.arg.idx
  match (s.mbox mb).claims[i]? with
  | none => .next s
  | some c =>
    let own := c.msg.peer == s.self
    let bs := pullData s c s.arg.data
    if c.st ≠ .pulling then .next s
    else if !own && !c.asked then .next (askPull s mb i c)
    else if bs.length < (if own then pullLen c else c.data.length + c.due) then .next s
    else
      let s1 := giveTag (if own then dropPulled s (hdHnd c.msg.hdr) else s) c.tag
      let c1 := { c with data := bs, asked := false, due := 0, tag := none }
      if bs.length < pullLen c then .next (askPull (setClaim s1 mb i c1) mb i c1)
      else .next (setClaim s1 mb i { c1 with st := .landing })

/-- The pieces of a payload written to a buffer. -/
def payloadPieces (c : Claim) (bs : List Byte) : List (List Piece) :=
  let dest := (phDest c.hole.rcd).toNat
  groupPieces ((sectorCuts dest bs.length).map (fun x => (⟨x.1, x.2, none, (bs.drop (x.1 - dest)).take x.2⟩ : Piece)))

/-- Writes a payload to a buffer, sector by sector. -/
def writePayload (s : State) (c : Claim) (bs : List Byte) : Option CopyRun :=
  copySectors ⟨s, 0, engineCtx c.hole.owner.part, false, none⟩ (payloadPieces c bs) ⟨s, 0, 0, 0, noFeed, []⟩

/-- Writes of a landing to other packages leave whose answers nothing awaits, as far as remote tags are free: the tags are quarantined at once
(Assumption 13). -/
def sendLoose (s : State) (die : Nat) (far : List (Nat × Outgoing)) : State :=
  match engineSome s die (far.map Prod.snd) with
  | none => s
  | some (tag, _, s1) => dropTag s1 tag

/-- Some leading bytes of a pull that failed may have reached their destination: how many is a free value, at most those that came
(spec/08_receive_engine.md R143; Assumption 12). -/
def partialLanding (s : State) (mb : Nat) (c : Claim) (bs : List Byte) : State :=
  if phKind c.hole.rcd ≠ 0#2 then s
  else
    let n := min (Config.partialBytes s.fresh) bs.length
    let s1 := { s with fresh := s.fresh + 1 }
    match writePayload s1 c (bs.take n) with
    | some r => sendLoose r.st (mb % 6) r.far
    | none => s1

/-- PULL_FAIL: the pull of the claim at position `idx` of mailbox `mb` meets REMTO, a lost peer or an error completion; its pigeonhole completes
with PEERLOST. `data` is what had come of the part that was out; the reads after it that have had no answer are given up. -/
def execPullFail (s : State) : Out :=
  let mb := s.arg.mb
  match (s.mbox mb).claims[s.arg.idx]? with
  | none => .next s
  | some c =>
    let hnd := hdHnd c.msg.hdr
    let failed := c.msg.peer != s.self || overdue s c.since || s.pulled.any (fun x => x.1 == hnd && !x.2.2.2)
    if c.st ≠ .pulling ∨ failed = false then .next s
    else
      let bs := pullData s c s.arg.data
      let done := min s.arg.data.length c.due / 256
      let s1 := dropTags s c.tag (fun j => if overdue s c.since then decide (done ≤ j) else decide (done < j))
      let s2 := partialLanding (dropPulled (dropClaim s1 mb s.arg.idx) hnd) mb c bs
      .next (completeHole s2 mb c.hole c.msg 5#16 0 [])

/-! ### Landing (spec/08_receive_engine.md R140 to R142) -/

/-- How writing a payload went. -/
inductive Landed where
  /-- written; `lost` when a shut-down stack or a silent peer took part of it -/
  | ok (s : State) (lost : Bool)
  /-- its writes to another package are out, and their answers are awaited -/
  | asked (s : State)
  /-- a translation or permission fault -/
  | fault (s : State) (f : Failure)
  /-- it cannot land yet -/
  | wait

/-- Is a class a translation or permission fault (spec/08_receive_engine.md R142)? -/
def isDestFault (c : FaultClass) : Bool :=
  c == .trans || c == .perm || c == .noncanon || c == .peerAbsent || c == .peerDenied

/-- The class of a status code (spec/17_engine_and_system_instructions.md R314) that a landing may meet. -/
def classOfStatus (c : Nat) : FaultClass :=
  match c with
  | 0x01 => .trans
  | 0x03 => .noncanon
  | 0x04 => .peerAbsent
  | 0x05 => .peerDenied
  | 0x06 => .remoteTimeout
  | 0x07 => .poison
  | 0x18 => .memLost
  | _ => .perm

/-- The failure of a payload's write at an address. -/
def payloadFailure (s : State) (p : BitVec 6) (code va : Nat) : Failure :=
  match locate s (engineCtx p) (BitVec.ofNat 64 va) 1 1 .write acceptsPlain with
  | .error f => f
  | .ok _ => Failure.at (classOfStatus code) va

/-- Writes of a landing to other packages leave, as far as remote tags are free; the others wait in the claim. -/
def landSend (s : State) (mb i : Nat) (c : Claim) (far : List (Nat × Outgoing)) : Option State :=
  (engineSome (giveTag s c.tag) (mb % 6) (far.map Prod.snd)).map (fun x =>
    countOwner (setClaim x.2.2 mb i { c with asked := true, unsent := far.drop x.2.1, tag := x.1, since := s.cycle }) c.hole.owner 0x0008 x.2.1)

/-- A payload written to a buffer. For writes on another package `peers` then holds the addresses of those refused, with `rep`; a stack that
is shut down there is recorded (spec/05_memories.md R94). -/
def landBuffer (s : State) (mb i : Nat) (c : Claim) (peers : List Nat) (rep : Reply) : Landed :=
  let o := c.hole.owner
  let bs := c.data.take (pullLen c)
  if c.asked then
    let dest := (phDest c.hole.rcd).toNat
    let s1 := giveTag s c.tag
    let more : Landed :=
      if c.unsent.isEmpty then .ok s1 false
      else match landSend s mb i c c.unsent with
        | none => .wait
        | some s2 => .asked s2
    match replyClass rep, peers.filter (fun a => decide (dest ≤ a) && decide (a < dest + bs.length)) with
    | none, _ => more
    | some _, [] => more
    | some cls, a :: rest =>
      let first := rest.foldl min a
      if isDestFault cls then .fault s1 (Failure.at cls first)
      else .ok (engineFault s1 (engineCtx o.part) o.sid (mb % 6) (classCode cls) first) true
  else
    match writePayload s c bs with
    | none => .wait
    | some r =>
      if r.status = 0 then
        if r.far.isEmpty then .ok r.st false
        else match landSend r.st mb i c r.far with
          | none => .wait
          | some s1 => .asked s1
      else
        let u := sendLoose r.st (mb % 6) r.far
        let f := payloadFailure u o.part r.status r.bad
        if isDestFault f.cls then .fault u f
        else .ok (engineFault u (engineCtx o.part) o.sid (mb % 6) r.status r.bad) true

/-- The value that a matrix landing writes: the payload with zeros behind it, or for TSEND.ADD the sum with the current value in the ACC48
view, by RNE (spec/03_matrix_registers.md R56). -/
def landTile (add : Bool) (data : List Byte) (old : Tile) : Tile :=
  let new : Tile := bytesBv 262144 data
  if !add then new
  else (pairs 64 64).foldl (fun t ij =>
    putAccElem t ij.1 ij.2
      (encodeAcc (addV false (decodeAcc (accElem old ij.1 ij.2)) (decodeAcc (accElem new ij.1 ij.2))).1).1) 0#262144

/-- The contents of a register's backing area with its bad sectors, and the state after the read; where it cannot be read, the state that the
failed access leaves. -/
def backingTile (s : State) (p : BitVec 6) (sid : BitVec 11) (va : Nat) : Except State ((Tile × List Nat) × State) :=
  match ownPlace s p sid va 32768 .read with
  | .error u => .error u
  | .ok x => .ok ((bytesBv 262144 (homeRead s x.1 32768), areaBad s x.1), x.2.2)

/-- Is a part of a register's backing area on a stack that is shut down? -/
def backingLost (s : State) (p : BitVec 6) (va : Nat) : Bool :=
  match ownPlace s p noSid va 32768 .read with
  | .error _ => false
  | .ok x => (lostPart s x.1).isSome

/-- Does a command that has not started, or a send, still have to read the register's backing area? -/
def backingReads (t : Strand) (r : Nat) : Bool :=
  t.mq.any (fun c => !c.started && c.srcs.any (fun x => x == (r, .backing))) ||
    t.sendq.any (fun c => c.reg == some (r, .backing))

/-- The readers of a register's backing area that were there before a landing read the old value (spec/03_matrix_registers.md R57). -/
def keepOld (t : Strand) (r : Nat) (old : Tile × List Nat) : Strand :=
  let fix (x : Nat × Source) : Nat × Source := if x = (r, .backing) then (r, .kept old.1 old.2) else x
  { t with
    mq := t.mq.map (fun c => if c.started then c else { c with srcs := c.srcs.map fix })
    sendq := t.sendq.map (fun c => { c with reg := c.reg.map fix }) }

/-- The value in a register's frame, with its poisoned sectors. -/
def framedTile (s : State) (slot r : Nat) : Tile × List Nat :=
  let f := frameOf s (coreOf slot) ((s.strand slot).entry r).frame.toNat
  (f.data, f.bad)

/-- The current value of a register of a bound strand, with its poisoned sectors, and the state after the read. -/
def currentTile (s : State) (slot r : Nat) : Option ((Tile × List Nat) × State) :=
  let t := s.strand slot
  let e := t.entry r
  if e.state = stZero then some ((0#262144, []), s)
  else if e.state = stClean ∨ e.state = stDirty ∨ e.state = stSpilling then some (framedTile s slot r, s)
  else (backingTile s t.part (sidOf slot) (backingVa t r)).toOption

/-- The value goes to the register's backing area. -/
def landBacking (s : State) (p : BitVec 6) (sid : BitVec 11) (va : Nat) (tile : Tile) (bad : List Nat) (f : State → State) : Landed :=
  match locate s { engineCtx p with own := true } (BitVec.ofNat 64 va) 32768 1 .write acceptsLocal with
  | .error x => .fault s x
  | .ok (.mem pa comp, s0) =>
    let s1 := s0.hold (lineTested s0 pa 32768)
    (match lostPart s1 pa with
      | some a => .ok (f (engineLost p sid (.mem a comp) (va + (a - pa)) .memLost s1)) true
      | none => .ok (f (poisonSectors (homeWrite s1 none pa (bvBytes tile) comp) (bad.map (fun b => pa / 32 + b)))) false)
  | .ok _ => .fault s (Failure.at .perm va)

/-- Has the pre-emption of a strand's gang been requested, or is the strand being saved? A landing that begins then goes to the backing
area (spec/03_matrix_registers.md R58). -/
def landsBehind (s : State) (t : Strand) : Bool :=
  t.phase == .saving || (s.gang? t.part t.gang).any (fun g => g.preempt.isSome)

/-- Brings the frames that a strand holds down to a bound by freeing CLEAN registers that no command names, the oldest first
(spec/03_matrix_registers.md R53): none where they are not enough. -/
def cleanRoom (slot limit : Nat) : Nat → State → Option State
  | 0, _ => none
  | n + 1, s =>
    if (heldFrames s slot).length ≤ limit then some s
    else if (oldestIn (s.strand slot) stClean).isNone then none
    else match oneVictim s slot with
      | .made u => cleanRoom slot limit n u
      | _ => none

/-- The value goes to a fresh frame of the register, which becomes DIRTY: none where a frame cannot be had without waiting for a spill or a
self-test. -/
def landFrame (s : State) (slot r : Nat) (tile : Tile) (bad : List Nat) (free : State → State) : Option State :=
  let t := s.strand slot
  if landsBehind s t then none
  else match cleanRoom slot (t.fq.toNat - 1) 300 s with
    | some u =>
      ((takeFrame u slot r).filter (fun (x : Nat × State) => !frameTested s (coreOf slot) x.1)).map (fun (x : Nat × State) =>
        let u1 := free x.2
        let k := frameKey (coreOf slot) x.1
        let u2 := { u1 with frames := tabSet u1.frames k { frameOf u1 (coreOf slot) x.1 with data := tile, bad := bad } }
        sweepFrames (u2.updSlot slot (fun v => v.moveEntry r stDirty x.1)) slot)
    | none => none

/-- The value that the readers which were there before a landing are to find in a register's backing area (spec/03_matrix_registers.md R57):
that of its frame where the register is CLEAN, since the landing may take that frame; nothing where there is no such reader. -/
def keptTile (s : State) (slot r : Nat) : Option ((Tile × List Nat) × State) :=
  let t := s.strand slot
  if (t.entry r).state = stClean then some (framedTile s slot r, s)
  else if backingReads t r then (backingTile s t.part (sidOf slot) (backingVa t r)).toOption
  else some ((0#262144, []), s)

/-- A landing in a matrix register of a strand bound to a slot. It waits where its backing area is being filled from or spilled to and it
would have to be written or kept. -/
def landBound (s : State) (slot r : Nat) (add : Bool) (data : List Byte) : Landed :=
  let t := s.strand slot
  let va := backingVa t r
  let old := if add then currentTile s slot r else some ((0#262144, []), s)
  let inFrame := (t.entry r).state != stZero && (t.entry r).state != stAbsent && (t.entry r).state != stFilling
  if (add && tabGet Bound.map t.bound r != .map) || (backingReads t r && t.spilling r) then .wait
  else if add && (t.entry r).state != stZero && !inFrame && backingLost s t.part va then .ok s true
  else match old, old.bind (fun x => keptTile x.2 slot r) with
    | some ((tile0, bad), _), some (k, s1) =>
      let tile := landTile add data tile0
      let free (u : State) : State :=
        (orphanFrame u slot r).updSlot slot (fun v => { keepOld v r k with bound := tabErase v.bound r })
      match landFrame s1 slot r tile bad free with
      | some u => .ok u false
      | none =>
        if t.spilling r || t.fillq.any (fun m => m.reg == r) then .wait
        else landBacking s1 t.part (sidOf slot) va tile bad (fun u =>
          sweepFrames ((free u).updSlot slot (fun v => v.moveEntry r stAbsent 0)) slot)
    | _, _ =>
      match locate s (ownCtx s slot) (BitVec.ofNat 64 va) 32768 1 .read acceptsLocal with
      | .error f => .fault s f
      | .ok _ => .fault s (Failure.at .perm va)

/-- A landing in a matrix register of a saved strand: the register becomes ABSENT in its save record and in its map in memory. The
commands and sends that the save carries read the value from before. -/
def landSaved (s : State) (o : Owner) (t : Strand) (r : Nat) (add : Bool) (data : List Byte) : Landed :=
  let va := backingVa t r
  let zero := (t.entry r).state == stZero
  if add && tabGet Bound.map t.bound r != .map then .wait
  else if add && !zero && backingLost s o.part va then .ok s true
  else match (if zero then Except.ok ((0#262144, []), s) else backingTile s o.part o.sid va) with
    | .error u => .fault u (Failure.at .trans va)
    | .ok ((tile, bad), s1) =>
      landBacking s1 o.part o.sid va (landTile add data tile) (if add then bad else []) (fun u =>
        let u1 := updOwner u o (fun v => { keepOld v r (tile, bad) with bound := tabErase v.bound r }.moveEntry r stAbsent 0)
        let u2 := absentInMemory u1 ⟨t.mapbase, r, o.part, 0, false, 0#262144, []⟩
        { u2 with frames := u2.frames.filter (fun kf => !(kf.2.mapbase == t.mapbase && kf.2.reg == r && kf.2.part == o.part)) })

/-- The saved member of a gang. -/
def savedStrand (s : State) (o : Owner) : Option Strand :=
  (s.gang? o.part o.area).bind (fun g => (g.images.find? (fun x => x.1 == o.rank)).map (fun x => x.2))

/-- A payload landed by its pigeonhole's kind. -/
def landPayload (s : State) (mb i : Nat) (c : Claim) (peers : List Nat) (rep : Reply) : Landed :=
  let o := c.hole.owner
  let kind := phKind c.hole.rcd
  if kind = 0#2 then landBuffer s mb i c peers rep
  else if kind = 2#2 then .ok s false
  else
    let r := (phMreg c.hole.rcd).toNat
    let add := hdType c.msg.hdr == 0x04#8
    match ownerSlot s o with
    | some slot => landBound s slot r add (c.data.take 32768)
    | none =>
      match savedStrand s o with
      | some t => landSaved s o t r add (c.data.take 32768)
      | none => .ok s false

/-- The first address of a completion that does not translate or lacks a permission. -/
def completionFault (s : State) (p : BitVec 6) (r : Rec64) : Option Failure :=
  let try_ (va : Word) (n : Nat) (need : Need) (acc : Accepts) : Option Failure :=
    if va = 0#64 then none
    else match locate s (engineCtx p) va n 1 need acc with
      | .error f => if isDestFault f.cls then some f else none
      | .ok _ => none
  ((try_ (phStat r) 16 .write acceptsFar).orElse (fun _ => try_ (phBar r) 16 .readWrite acceptsFar)).orElse
    (fun _ => try_ (phWdesc r) 64 .read acceptsFar)

/-- The fault record of a landing (spec/09_translation_and_faults.md R161): the strand that posted the pigeonhole, wherever it is now, and the
instruction that posted it. -/
def landRecord (s : State) (mb : Nat) (x : Pigeonhole) (f : Failure) : FaultRecord :=
  let o := x.owner
  let slot := ownerSlot s o
  { sid := (slot.map sidOf).getD o.sid
    save := o.area + o.rank * 0x02000000 + 0x01000000
    pc := x.pc
    va := BitVec.ofNat 64 f.va
    cls := f.cls
    akind := .landing
    hyp := f.hyp
    eng := true
    saved := slot.any (fun k => (s.strand k).phase == .saving)
    index := BitVec.ofNat 32 mb }

/-- A landing met a translation or permission fault: the message stays in the queue, flagged DESTFAULT, and Yalush's fault queue receives a
record; without room there it waits (spec/09_translation_and_faults.md R160). Where neither an on-chip slot nor an entry of the ring is free
the message is kept all the same, past the capacity (spec/08_receive_engine.md R138, R142 do not say what happens then; DESIGN CHOICE,
Assumption 59). -/
def destFault (s0 s : State) (mb i : Nat) (c : Claim) (f : Failure) : State :=
  let o := c.hole.owner
  if !f.hyp && !faultRoom s o.part then s0
  else
    let s1 := landLog (mendPtes f s) mb o f.va (classCode f.cls)
    let m : Message := { c.msg with onChip := (takeRoom s mb).getD c.msg.onChip }
    pushFault (setClaim s1 mb i { c with msg := m, st := .destFault, asked := false, unsent := [], tag := none }) o.part (landRecord s mb c.hole f)

/-- The reply after a completed landing: DONE for a rendezvous; ACK for an eager message that has had none. -/
def landReply (c : Claim) : List EndItem :=
  let h := c.msg.hdr
  if hdType h = 0x01#8 then (if c.msg.acked then [] else [.reply (replyTo c.msg 0x11#8 0#16 (hdLen h))])
  else [.reply (replyTo c.msg 0x13#8 0#16 (if phKind c.hole.rcd = 2#2 then 0 else recvLen c.hole.rcd h))]

/-- A landing whose payload is written completes, or meets a fault of one of the completion's addresses. -/
def landEnd (s0 s : State) (mb i : Nat) (c : Claim) (lost : Bool) : State :=
  match completionFault s c.hole.owner.part c.hole.rcd with
  | some f => destFault s0 s mb i { c with landed := some lost } f
  | none =>
    let (code, s2) : BitVec 16 × State :=
      if lost then (Config.lostLandingCode s.fresh % 7#16, { s with fresh := s.fresh + 1 })
      else if truncated c.hole.rcd c.msg.hdr then (1#16, s)
      else if c.retry then (3#16, s)
      else (0#16, s)
    completeHole (dropClaim s2 mb i) mb c.hole c.msg code (pullLen c) (landReply c)

/-- Must a retried landing wait for an earlier one: retries go in arrival order (spec/08_receive_engine.md R142)? -/
def retryWaits (b : Mailbox) (c : Claim) : Bool :=
  c.retry && b.claims.any (fun x => x.retry && x.st == .landing && decide (x.msg.num < c.msg.num))

/-- LANDING: the claim at position `idx` of mailbox `mb` is written by its kind and completes. For writes on another package a second step
takes the answers: `rep` is what one reports, and `peers` the addresses of the sectors that it is about; `flag` says that they have not come
for REMTO ticks. -/
def execLanding (s : State) : Out :=
  let mb := s.arg.mb
  let i := s.arg.idx
  match (s.mbox mb).claims[i]? with
  | none => .next s
  | some c =>
    if c.st ≠ .landing ∨ retryWaits (s.mbox mb) c = true then .next s
    else match c.landed with
      | some lost => .next (landEnd s s mb i c lost)
      | none =>
        if c.asked && s.arg.flag then
          .next (if overdue s c.since then landEnd s (dropTag s c.tag) mb i { c with tag := none } true else s)
        else match landPayload s mb i c s.arg.peers s.arg.rep with
          | .wait => .next s
          | .asked s1 => .next s1
          | .fault s1 f => .next (destFault s s1 mb i c f)
          | .ok s1 lost => .next (landEnd s s1 mb i c lost)

/-- DESTFAULT_RETRY: Yalush writes the control word of mailbox `mb`, and its DESTFAULT messages land again. -/
def execDestfaultRetry (s : State) : Out :=
  .next (s.updMbox s.arg.mb (fun b => { b with claims := b.claims.map (fun c =>
    if c.st = .destFault then { c with st := .landing, retry := true } else c) }))

/-! ### Cancelling (spec/08_receive_engine.md R144) -/

/-- A claim ends without its landing: CANCELLED, and a CANCEL reply to the sender. -/
def cancelClaim (mb : Nat) (s : State) (c : Claim) : State :=
  completeHole (dropPulled (dropTag s c.tag) (hdHnd c.msg.hdr)) mb c.hole c.msg 4#16 0 [.reply (replyTo c.msg 0x14#8 4#16 0)]

/-- Is the pigeonhole a matrix one of a strand? -/
def isTileHole (t : Strand) (x : Pigeonhole) : Bool := x.tile && x.owner.isOf t

/-- The matrix pigeonholes of a strand that goes away, in one mailbox: the open ones are cancelled, and of the claimed ones those that are
PULLING or DESTFAULT, and with `force` those that are LANDING. -/
def cancelTilesIn (t : Strand) (force : Bool) (s : State) (mb : Nat) : State :=
  let b := s.mbox mb
  let goes (c : Claim) : Bool := isTileHole t c.hole && (force || c.st != .landing)
  let s1 := s.updMbox mb (fun b => { b with
    holes := b.holes.filter (fun x => !isTileHole t x)
    claims := b.claims.filter (fun c => !goes c) })
  (b.claims.filter goes).foldl (cancelClaim mb) ((b.holes.filter (isTileHole t)).foldl (fun u x => cancelHole u mb x) s1)

/-- The matrix pigeonholes of a strand that goes away, in every mailbox. -/
def cancelTiles (t : Strand) (force : Bool) (s : State) : State :=
  (s.mailboxes.map (fun kb => kb.1)).foldl (cancelTilesIn t force) s

/-- Is a matrix pigeonhole of the strand still landing or completing: EXIT waits for it? -/
def tilesLanding (t : Strand) (s : State) : Bool :=
  s.mailboxes.any (fun kb => kb.2.claims.any (fun c => isTileHole t c.hole)) || tileEnding s t

/-- yl_mbox_close: open pigeonholes are cancelled, the queue is dropped, and the senders of dropped and unfinished messages get CANCEL. -/
def closeMailbox (s : State) (mb : Nat) : State :=
  let b := s.mbox mb
  let s1 := s.updMbox mb (fun b => { b with isOpen := false, holes := [], queue := [], claims := [], pairs := [] })
  let s2 := b.claims.foldl (cancelClaim mb) (b.holes.foldl (fun u x => cancelHole u mb x) s1)
  (storedMsgs b).foldl (fun u m => reply u m 0x14#8 4#16 0) s2

end Sys2Proof.Machine
end

