-- ==== Sys2Proof/Machine/Queue.lean ====
section
/-! DEFINITION. Work queues in memory, continuation records, joins as the work-queue engine sees them, and the launch table
(spec/07_queues_and_scheduling.md R124, spec/10_descriptor_tables.md R176 to R181, R190, R192, spec/01_execution_model.md R20 to
R23). -/

namespace Sys2Proof.Machine

open Sys2Proof

/-! ### Rings (spec/10_descriptor_tables.md R190) -/

/-- Base and log2 capacity of a ring. -/
def Partition.ring (p : Partition) (l : Nat) : Nat × Nat := nth (0, 0) p.rings l
/-- HEAD of a ring. -/
def Partition.head (p : Partition) (l : Nat) : BitVec 32 := nth 0#32 p.heads l
/-- TAIL of a ring. -/
def Partition.tail (p : Partition) (l : Nat) : BitVec 32 := nth 0#32 p.tails l
/-- Entries in a ring. -/
def Partition.count (p : Partition) (l : Nat) : Nat := (p.tail l - p.head l).toNat
/-- Capacity of a ring. -/
def Partition.cap (p : Partition) (l : Nat) : Nat := 2 ^ (p.ring l).2
/-- Address of the entry of an index. -/
def Partition.entryPa (p : Partition) (l : Nat) (i : BitVec 32) : Nat := (p.ring l).1 + 64 * (i.toNat % p.cap l)

/-- Slots that a partition can hold (spec/07_queues_and_scheduling.md R124): the reserve of its rings. -/
def Partition.slotCount (p : Partition) : Nat :=
  ((List.range 288).filter (fun c => p.cores.getLsbD c)).length * ((List.range 4).filter (fun j => p.slots.getLsbD j)).length

/-- Has a ring an entry free outside its reserve (spec/07_queues_and_scheduling.md R124)? -/
def ringRoom (p : Partition) (l : Nat) : Bool := decide (p.count l + p.slotCount < p.cap l)

/-- The record at a position of a ring, counted from HEAD. -/
def ringRec (s : State) (p : Partition) (l i : Nat) : Rec64 :=
  bytesBv 512 (homeRead s (p.entryPa l (p.head l + BitVec.ofNat 32 i)) 64)

/-- Why the engine cannot read the record at a position of a ring: poison, or a stack that is shut down (spec/05_memories.md R94, R103). -/
def ringFault (s : State) (p : Partition) (l i : Nat) : Option FaultClass :=
  homeFault s (.mem (p.entryPa l (p.head l + BitVec.ofNat 32 i)) false) 64 true

/-- Is a row of the first `n` records of a ring under a self-test (spec/05_memories.md R101)? -/
def ringTested (s : State) (p : Partition) (l n : Nat) : Bool :=
  !s.tests.isEmpty && (List.range n).any (fun i => lineTested s (p.entryPa l (p.head l + BitVec.ofNat 32 i)) 64)

/-- The records of a ring that can be read, in order. -/
def ringRecs (s : State) (p : Partition) (l : Nat) : List Rec64 :=
  ((List.range (p.count l)).filter (fun i => (ringFault s p l i).isNone)).map (ringRec s p l)

/-- The record at the head of a ring, where it can be read. -/
def ringHead (s : State) (p : Partition) (l : Nat) : Option Rec64 :=
  if (ringFault s p l 0).isSome then none else some (ringRec s p l 0)

/-- Writes the record of an index; the step waits for a self-test of its row. -/
def putEntry (s : State) (pid : BitVec 6) (l : Nat) (i : BitVec 32) (r : Rec64) : State :=
  let pa := (s.part pid).entryPa l i
  homeWrite (s.hold (lineTested s pa 64)) none pa (bvBytes r) false

/-- Sets HEAD of a ring. -/
def setHead (s : State) (pid : BitVec 6) (l : Nat) (h : BitVec 32) : State :=
  s.updPart pid (fun p => { p with heads := setNth p.heads l h })

/-- Sets TAIL of a ring. -/
def setTail (s : State) (pid : BitVec 6) (l : Nat) (x : BitVec 32) : State :=
  s.updPart pid (fun p => { p with tails := setNth p.tails l x })

/-- Writes at TAIL and advances it. -/
def pushTail (s : State) (pid : BitVec 6) (l : Nat) (r : Rec64) : State :=
  let i := (s.part pid).tail l
  setTail (putEntry s pid l i r) pid l (i + 1#32)

/-- A SAVED record returns to the front. -/
def pushFront (s : State) (pid : BitVec 6) (l : Nat) (r : Rec64) : State :=
  let i := (s.part pid).head l - 1#32
  setHead (putEntry s pid l i r) pid l i

/-- Starting a record advances HEAD. -/
def popHead (s : State) (pid : BitVec 6) (l : Nat) : State := setHead s pid l ((s.part pid).head l + 1#32)

/-- A record that cannot be read leaves its record in ERRLOG where its stack is shut down (spec/05_memories.md R94). -/
def lostEntry (pid : BitVec 6) (l : Nat) (s : State) (i : Nat) : State :=
  let p := s.part pid
  let pa := p.entryPa l (p.head l + BitVec.ofNat 32 i)
  match ringFault s p l i with
  | some c => engineLost pid noSid (.mem pa false) pa c s
  | none => s

/-- The engine reads a whole ring to rewrite it: it waits for self-tests of its rows, and the records that cannot be read are lost, as at the
head of a ring (Assumption 62). -/
def readRing (s : State) (pid : BitVec 6) (l : Nat) : State :=
  let p := s.part pid
  (List.range (p.count l)).foldl (lostEntry pid l) (s.hold (ringTested s p l (p.count l)))

/-- Rewrites a ring with the records that are left, from HEAD on: a record that leaves from within the ring moves TAIL, and HEAD stays. The
manual fixes TAIL - HEAD alone (DESIGN CHOICE, Assumption 62). -/
def refill (s : State) (pid : BitVec 6) (l : Nat) (rs : List Rec64) : State :=
  let h := (s.part pid).head l
  setTail (rs.foldl (fun (x : State × BitVec 32) r => (putEntry x.1 pid l x.2 r, x.2 + 1#32)) (s, h)).1 pid l
    (h + BitVec.ofNat 32 rs.length)

/-! ### Records (spec/10_descriptor_tables.md R177) -/

/-- Does the record obey spec/10_descriptor_tables.md R176 and R177, with SAVED and GAREA zero as in records that software writes? -/
def recordOk (r : Rec64) : Bool :=
  slice r 0 2 == 0#2 && slice r 52 12 == 0#12 && slice r 128 7 == 0#7 && slice r 180 12 == 0#12 &&
    decide (1 ≤ (recWidth r).toNat) && decide ((recWidth r).toNat ≤ 8) && slice r 274 14 == 0#14 && slice r 288 32 == 0#32 &&
    decide (32 ≤ (recVregs r).toNat) && decide ((recVregs r).toNat ≤ 128) && decide (1 ≤ (recFq r).toNat) &&
    decide ((recFq r).toNat ≤ 256) && decide (1 ≤ (recCq r).toNat) && decide ((recCq r).toNat ≤ 256) && slice r 355 29 == 0#29 &&
    slice r 448 64 == 0#64

/-- Are the record's frames within the partition's MSMLIM (spec/10_descriptor_tables.md R177)? -/
def recordFits (p : Partition) (r : Rec64) : Bool := decide ((recFq r).toNat + (recSf r).toNat ≤ p.msmlim.toNat)

/-- Is its copy quota within the partition's ceiling, as yl_launch and FORK ask (spec/19_binary_interface.md R362)? -/
def quotaFits (p : Partition) (r : Rec64) : Bool := decide ((recCq r).toNat ≤ p.ceiling.toNat)

/-! ### Joins (spec/10_descriptor_tables.md R179, R180, spec/01_execution_model.md R23) -/

def joinCount (w : Word) : BitVec 32 := slice w 0 32
def joinPrioBits (w : Word) : BitVec 2 := slice w 32 2
def joinArmed (w : Word) : Bool := w.getLsbD 34
def joinTag (w : Word) : BitVec 8 := slice w 56 8

/-- The level that a join's first word gives: where it is no join it moves nothing, as level 3 does (Assumption 15). -/
def prioOf (w : Word) : BitVec 2 := if joinTag w = 0x4A#8 then joinPrioBits w else 3#2

/-- Where the PRIO of a join is to be read. -/
inductive JoinAt where
  /-- its level, as its home on this package holds it; 3 where it cannot be read -/
  | here (l : BitVec 2)
  /-- on another package -/
  | far (peer : BitVec 10) (pa : Nat)
deriving DecidableEq, Repr

/-- The join at an address, and the state after the walk and the read: where the read meets a stack that is shut down, with its record in
ERRLOG (spec/05_memories.md R94). -/
def joinAt (s : State) (pid : BitVec 6) (va : Nat) : JoinAt × State :=
  match locate s (engineCtx pid) (BitVec.ofNat 64 va) 8 1 .read acceptsFar with
  | .error f => (.here 3#2, afterFail pid noSid f s)
  | .ok (pl, s0) =>
    let far := match pl with
      | .remote peer pa => if peer = s.self then none else some (peer, pa)
      | _ => none
    match far with
    | some (peer, pa) => (.far peer pa, s0)
    | none =>
      let pa := (placeKey pl).2
      let s1 := s0.hold (lineTested s0 pa 8)
      match homeFault s1 (.mem pa false) 8 true with
      | some c => (.here 3#2, engineLost pid noSid (.mem pa false) va c s1)
      | none => (.here (prioOf (bytesBv 64 (homeRead s1 pa 8))), s1)

/-- The physical address of a join of the partition whose home is on this package. -/
def joinHome (s : State) (pid : BitVec 6) (va : Nat) : Option Nat :=
  match locate s (engineCtx pid) (BitVec.ofNat 64 va) 8 1 .read acceptsFar with
  | .ok (pl, s1) => if isLocal s1 pl then some (placeKey pl).2 else none
  | .error _ => none

/-- The level that the work-queue engine last read from a join (spec/10_descriptor_tables.md R180). -/
def knownPrio (s : State) (pid : BitVec 6) (va : Nat) : Option (BitVec 2) :=
  (s.joins.find? (fun j => j.1 == pid && j.2.1 == va)).map (fun j => j.2.2)

/-- The work-queue engine has read the level of a join. -/
def setPrio (s : State) (pid : BitVec 6) (va : Nat) (l : BitVec 2) : State :=
  { s with joins := s.joins.filter (fun j => !(j.1 == pid && j.2.1 == va)) ++ [(pid, va, l)] }

/-- Is a read of the level of a join on another package awaited? -/
def joinAsked (s : State) (pid : BitVec 6) (va : Nat) : Bool := s.joinReads.any (fun j => j.part == pid && j.va == va)

/-- A request of the work-queue engine about a join leaves under a tag of the first die, or stays to be sent while none is free. -/
def sendJoin (s : State) (j : JoinOp) (req : Outgoing) : JoinOp × State :=
  match engineTag s (j.sid.toNat / 256 % 6) 1 with
  | none => (j, s)
  | some (tag, s1) => ({ j with tag := tag, since := s.cycle }, { s1 with outbox := s1.outbox ++ [req] })

/-- The work-queue engine reads the PRIO of the join that a record names; on another package it asks for it, and goes by its last reading
until the answer comes. -/
def noteJoin (s : State) (pid : BitVec 6) (va : Nat) : State :=
  if va = 0 then s
  else match joinAt s pid va with
    | (.here l, s0) => setPrio s0 pid va l
    | (.far peer pa, s0) =>
      if joinAsked s0 pid va then s0
      else
        let (j, s1) := sendJoin s0 ⟨peer, pa, va, pid, 0#11, none, s0.cycle⟩ (.request peer pa 8 (.load 0#5 false))
        { s1 with joinReads := s1.joinReads ++ [j] }

/-- The engine reads the PRIO of the join at a physical address for every partition and address by which it knows the join. -/
def noteJoinAt (s : State) (pa : Nat) : State :=
  (s.joins.filter (fun j => joinHome s j.1 j.2.1 == some pa)).foldl (fun u j => noteJoin u j.1 j.2.1) s

/-- The read of a join's level at a position is answered, or is sent if it could not be before. -/
def joinLevelReply (s : State) (i : Nat) (rep : Reply) : State :=
  match s.joinReads[i]? with
  | none => s
  | some j =>
    if j.tag.isNone then
      let (k, s1) := sendJoin s j (.request j.peer j.pa 8 (.load 0#5 false))
      { s1 with joinReads := setNth s1.joinReads i k }
    else
      let s1 := giveTag { s with joinReads := dropNth s.joinReads i } j.tag
      match replyValue rep with
      | .ok x => setPrio s1 j.part j.va (prioOf (BitVec.ofNat 64 x))
      | .error _ => setPrio s1 j.part j.va 3#2

/-- A level lowered to the known level of a record's join (spec/07_queues_and_scheduling.md R127). -/
def effective (s : State) (pid : BitVec 6) (r : Rec64) (l : Nat) : Nat :=
  match knownPrio s pid (recJoin r).toNat with
  | some q => min l q.toNat
  | none => l

/-- Enqueues a record at the tail of a level, with its PRIO: none where the ring is full (spec/07_queues_and_scheduling.md R124). The
engine then reads the join the record names (spec/10_descriptor_tables.md R180). -/
def enqueue (s : State) (pid : BitVec 6) (l : Nat) (r : Rec64) : Option State :=
  if ringRoom (s.part pid) l then
    some (noteJoin (pushTail s pid l (recSetPrio r (BitVec.ofNat 2 l))) pid (recJoin r).toNat)
  else none

/-- A QUEUED record, by level and position, that names a join of a numerically lower level with room (spec/01_execution_model.md R23): the
first of the lowest level. -/
def dueMove (s : State) (pid : BitVec 6) (join : Nat) : Option (Nat × Nat × Nat) :=
  match knownPrio s pid join with
  | none => none
  | some q =>
    let p := s.part pid
    if join = 0 || !ringRoom p q.toNat then none
    else ([1, 2, 3].filter (fun l => decide (q.toNat < l))).findSome? (fun l =>
      (findPos (fun r => decide ((recJoin r).toNat = join) && !recSaved r) (ringRecs s p l)).map (fun i => (l, i, q.toNat)))

/-- Has the partition a move due? -/
def moveDue (s : State) (pid : BitVec 6) : Bool :=
  s.joins.any (fun j => j.1 == pid && (dueMove s pid j.2.1).isSome)

/-- PRIORITY_INHERITANCE_MOVE: one record that names the join at `area` moves behind the records of the join's level
(spec/01_execution_model.md R23, spec/07_queues_and_scheduling.md R124). With `flag` the read of the level of a join on another package is
answered first, by `rep`. -/
def execPriorityInheritanceMove (s0 : State) : Out :=
  let pid := s0.arg.p
  let s := if s0.arg.flag then
      match findPos (fun j => j.part == pid && j.va == s0.arg.area) s0.joinReads with
      | some i => joinLevelReply s0 i s0.arg.rep
      | none => s0
    else s0
  match dueMove s pid s.arg.area with
  | none => .next s
  | some (l, i, q) =>
    let rs := ringRecs s (s.part pid) l
    let s1 := refill (readRing s pid l) pid l (dropNth rs i)
    .next (pushTail s1 pid q (recSetPrio (nth 0#512 rs i) (BitVec.ofNat 2 q)))

/-- A record that the engine itself enqueues, the continuation of a join: it is held where the ring is full, or where another is held for
that ring (spec/07_queues_and_scheduling.md R124). A record that breaks spec/10_descriptor_tables.md R177 is dropped (Assumption 15). -/
def enqueueOrHold (s : State) (pid : BitVec 6) (l : BitVec 2) (r : Rec64) : State :=
  if !recordOk r || !recordFits (s.part pid) r then s
  else
    let held : State := { s with heldRecs := s.heldRecs ++ [(pid, l, r)] }
    if s.heldRecs.any (fun h => h.1 == pid && h.2.1 == l) then held
    else (enqueue s pid l.toNat r).getD held

/-- HELD_CONTINUATION_ENQUEUE: the held record at position `idx`, the first held for its ring, is enqueued once an entry is free. -/
def execHeldContinuationEnqueue (s : State) : Out :=
  match s.heldRecs[s.arg.idx]? with
  | none => .next s
  | some (pid, l, r) =>
    if (s.heldRecs.take s.arg.idx).any (fun h => h.1 == pid && h.2.1 == l) then .next s
    else .next ((enqueue { s with heldRecs := dropNth s.heldRecs s.arg.idx } pid l.toNat r).getD s)

/-- The decrement of a join at its home on this package (spec/10_descriptor_tables.md R180); at each the engine reads its PRIO, under every
name by which it knows the join. `va` is its address in the partition, 0 for a decrement of another package. -/
def joinAtHome (s0 : State) (pid : BitVec 6) (sid : BitVec 11) (pa va : Nat) (comp : Bool) : State :=
  let s := noteJoinAt (noteJoin s0 pid va) pa
  let w : Word := bytesBv 64 (homeRead s pa 8)
  if joinTag w ≠ 0x4A#8 then errLog (some pid) (dieOfPa pa) sid 0x06 pa (joinTag w).toNat s
  else if joinCount w = 0#32 then errLog (some pid) (dieOfPa pa) sid 0x05 pa 0 s
  else
    let n := joinCount w - 1#32
    let fires := n == 0#32 && joinArmed w
    let w1 : Word := putSlice w 0 32 n
    let w2 := if fires then putBit w1 34 false else w1
    let cont : Rec64 := bytesBv 512 (homeRead s (pa + 64) 64)
    let s1 := homeWrite s none pa (bvBytes w2) comp
    if fires then enqueueOrHold s1 pid (joinPrioBits w) (recSetPrio cont (joinPrioBits w)) else s1

/-- EXIT's decrement of the join that the gang's record names (spec/01_execution_model.md R21, R22, spec/10_descriptor_tables.md R180). -/
def joinDecrement (s : State) (pid : BitVec 6) (sid : BitVec 11) (va : Nat) : State :=
  if va = 0 then s
  else match locate s (engineCtx pid) (BitVec.ofNat 64 va) 128 1 .readWrite acceptsFar with
    | .error f => joinFail (afterFail pid sid f s) pid sid va f.cls
    | .ok (pl, s1) =>
      if isLocal s1 pl then
        match homeFault s1 (.mem (placeKey pl).2 false) 128 true with
        | some c => joinFail s1 pid sid va c
        | none =>
          let comp := match pl with
            | .mem _ c => c
            | _ => false
          joinAtHome s1 pid sid (placeKey pl).2 va comp
      else match pl with
        | .remote peer pa =>
          let (j, s2) := sendJoin s1 ⟨peer, pa, va, pid, sid, none, s1.cycle⟩ (.join peer pa)
          let s3 := if sid = noSid then s2 else countFor s2 (slotOfSid sid) pid 0x0008 1
          noteJoin { s3 with joinOps := s3.joinOps ++ [j] } pid va
        | _ => s1

/-- The decrement at a position on its way to another package: its answer comes, or it is sent if it could not be before. -/
def joinOpStep (s : State) (i : Nat) (rep : Reply) : State :=
  match s.joinOps[i]? with
  | none => s
  | some j =>
    if j.tag.isNone then
      let (k, s1) := sendJoin s j (.join j.peer j.pa)
      { s1 with joinOps := setNth s1.joinOps i k }
    else joinReply s i rep

/-! ### Answers and timeouts of requests to other packages (spec/06_memory_ordering.md R106, spec/05_memories.md R97) -/

/-- ACCESS_PERFORMED: the outstanding access at position `idx` of the list of the strand in `slot` is performed, or its request leaves, or
its reply `rep` returns. Slot 1,152 stands for the join decrements on their way to other packages, and slot 1,153 for completions. -/
def execAccessPerformed (s : State) : Out :=
  .next (
    if s.arg.slot = 1152 then joinOpStep s s.arg.idx s.arg.rep
    else if s.arg.slot = 1153 then endingStep s s.arg.idx s.arg.rep
    else performOut s s.arg.slot s.arg.idx s.arg.rep)

/-- The decrement of a join on another package has had no answer for REMTO ticks. -/
def joinTimeout (s : State) (i : Nat) : State :=
  match s.joinOps[i]? with
  | none => s
  | some j =>
    if j.tag.isNone || !overdue s j.since then s
    else joinFail (dropTag { s with joinOps := dropNth s.joinOps i } j.tag) j.part j.sid j.va .remoteTimeout

/-- The read of a join's level on another package has had no answer for REMTO ticks: it moves nothing. -/
def joinReadTimeout (s : State) (i : Nat) : State :=
  match s.joinReads[i]? with
  | none => s
  | some j =>
    if j.tag.isNone || !overdue s j.since then s
    else setPrio (dropTag { s with joinReads := dropNth s.joinReads i } j.tag) j.part j.va 3#2

/-- REMOTE_TIMEOUT: a request to another package has had no reply for REMTO ticks. For a copy `peers` names the sectors that were not
answered; for the source of a send `num` is the send slot it would take. -/
def execRemoteTimeout (s : State) : Out :=
  .next (match s.arg.timeout with
    | .access slot i => accessTimeout s slot i
    | .copy i => copyTimeout s i s.arg
    | .tile slot id => tileTimeout s slot id s.arg
    | .join i => joinTimeout s i
    | .joinRead i => joinReadTimeout s i
    | .ending i => endingTimeout s i
    | .sendSource slot => sendSourceTimeout s slot s.arg.num (feedOf s.arg))

/-! ### The launch table (spec/10_descriptor_tables.md R181, R192) -/

/-- The address of a launch's entry. -/
def launchPa (p : Partition) (lid : BitVec 32) : Nat := p.launchTab + 32 * (slice lid 0 16).toNat

/-- FTBASE and FTLEN of a launch, when its entry is live and of its generation. An entry that cannot be read gives zeros, with its record in
ERRLOG where its stack is shut down (spec/05_memories.md R94, R103; DESIGN CHOICE, Assumption 62). -/
def launchTable (s : State) (pid : BitVec 6) (lid : BitVec 32) : (BitVec 52 × BitVec 32) × State :=
  let pa := launchPa (s.part pid) lid
  let s1 := s.hold (lineTested s pa 16)
  let e : BitVec 128 := bytesBv 128 (homeRead s pa 16)
  match homeFault s1 (.mem pa false) 16 true with
  | some c => ((0#52, 0#32), engineLost pid noSid (.mem pa false) pa c s1)
  | none => (if e.getLsbD 112 && slice e 96 16 == slice lid 16 16 then (slice e 0 52, slice e 64 32) else (0#52, 0#32), s1)

/-- Is a record of the launch left: queued, bound or saved, held, or still to be enqueued? A queued record that cannot be read may be one. -/
def lidAlive (s : State) (pid : BitVec 6) (lid : BitVec 32) : Bool :=
  let p := s.part pid
  s.gangs.any (fun g => g.part == pid && recLid g.rcd == lid) ||
    (List.range 4).any (fun l => (List.range (p.count l)).any (fun i =>
      (ringFault s p l i).isSome || recLid (ringRec s p l i) == lid)) ||
    s.heldRecs.any (fun h => h.1 == pid && recLid h.2.2 == lid) ||
    p.launches.any (fun x => x.lid == lid && decide (x.next < (slice x.rcd 224 32).toNat))

/-- A launch has ended: LIVE is cleared and GEN advances (spec/10_descriptor_tables.md R192). -/
def closeLaunch (s : State) (pid : BitVec 6) (lid : BitVec 32) : State :=
  let p := s.part pid
  if !p.launches.any (fun x => x.lid == lid) then s
  else
    let s1 := homeWrite s none (launchPa p lid + 12) (bvBytes (0#16 ++ (slice lid 16 16 + 1#16))) false
    s1.updPart pid (fun p => { p with launches := p.launches.filter (fun x => x.lid != lid) })

/-- After a record of a launch has retired: the launch ends with its last one. -/
def launchCheck (s : State) (pid : BitVec 6) (lid : BitVec 32) : State :=
  if lidAlive s pid lid then s else closeLaunch s pid lid

/-- The head record of a partition that cannot be read is lost: it leaves its ring, with its record in ERRLOG where its stack is shut down, and
a launch of which nothing is left ends (spec/05_memories.md R94, R103; DESIGN CHOICE, Assumption 62). -/
def dropHead (s : State) (pid : BitVec 6) (l : Nat) : State :=
  let s1 := popHead (lostEntry pid l s 0) pid l
  (s1.part pid).launches.foldl (fun u x => launchCheck u pid x.lid) s1

end Sys2Proof.Machine
end

