-- ==== Sys2Proof/Machine/Fence.lean ====
section
/-! DEFINITION. What FENCE waits for, and the instructions that wait so: FENCE and TRAP (spec/06_memory_ordering.md R104, R108,
spec/14_scalar_instructions.md R244, R255). -/

namespace Sys2Proof.Machine

open Sys2Proof

/-- The addresses at which `n` bytes from an address on enter a page of 64 KiB: all the bytes of a page lie on one die. -/
def pageVas (va n : Nat) : List Nat := (unitsOf 65536 va n).map (fun u => max va (65536 * u))

/-- Is an address homed within a scope's reach of a die? One that does not translate may be. -/
def vaInReach (s : State) (c : Ctx) (die : Nat) (sc : Scope) (va : Nat) : Bool :=
  match locate s c (BitVec.ofNat 64 va) 1 1 .read acceptsPlain, locate s c (BitVec.ofNat 64 va) 1 1 .write acceptsPlain with
  | .ok (pl, _), _ => inReach die sc pl
  | _, .ok (pl, _) => inReach die sc pl
  | _, _ => true

/-- Is a matrix command of the strand homed within a scope's reach? One that accesses no memory is homed nowhere, and the fence waits for it
(DESIGN CHOICE, Assumption 10); so it does for a command whose addresses do not translate. -/
def mInReach (s : State) (slot : Nat) (sc : Scope) (c : MCommand) : Bool :=
  match tileForm c.ins with
  | none => true
  | some _ =>
    match tilePlaces s slot c with
    | .error _ => true
    | .ok (l, _) => l.any (fun rp => inReach (dieOf (coreOf slot)) sc rp.2)

/-- The barrier of a copy command, as the list of its address. -/
def barVas (c : CCommand) : List Nat := if c.bar = 0#64 then [] else [c.bar.toNat]

/-- The addresses of a copy command: its destination, its source where that is a range of memory, and its barrier. Those of a CPYT are known
when its map has been read; until then the fence waits for it. -/
def copyVas (c : CCommand) : Option (List Nat) :=
  let bar := barVas c
  match c.ins with
  | .cpy _ _ _ _ _ _ => some (bar ++ pageVas c.dst.toNat (copyLen c) ++ pageVas c.src.toNat (copyLen c))
  | .cpyz _ _ _ _ _ _ => some (bar ++ pageVas c.dst.toNat (copyLen c))
  | .mdiscard _ _ _ _ _ => some (bar ++ pageVas c.dst.toNat (copyLen c))
  | _ => none

/-- The addresses of a copy that has started: those of a CPYT by its map, once that has been read, one for each page that its pieces touch,
in their order. -/
def startedVas (c : Copy) : Option (List Nat) :=
  match c.cmd.ins, c.phase with
  | .cpyt _ _ _ _ _ _, .map => none
  | .cpyt _ _ _ _ _ _, _ =>
    let vas := (copyPieces c).flatMap (fun p => p.dst :: p.src.toList)
    some (barVas c.cmd ++ vas.foldl (fun l a => if l.any (fun b => b / 65536 == a / 65536) then l else a :: l) [])
  | _, _ => copyVas c.cmd

/-- Are any of these addresses of a strand homed within a scope's reach? Unknown ones may be. -/
def anyInReach (s : State) (slot : Nat) (sc : Scope) (l : Option (List Nat)) : Bool :=
  match l with
  | none => true
  | some l => l.any (vaInReach s (tileCtx s slot) (dieOf (coreOf slot)) sc)

/-- Is a copy command of the strand homed within a scope's reach? -/
def cInReach (s : State) (slot : Nat) (sc : Scope) (c : CCommand) : Bool := anyInReach s slot sc (copyVas c)

/-- What a fence of a scope waits for besides scoreboard slots (spec/06_memory_ordering.md R108): the earlier stream accesses and the issued
matrix and copy commands homed within its reach, and the source reads of every earlier send. -/
def fenceReady (s : State) (slot : Nat) (sc : Scope) : Bool :=
  let t := s.strand slot
  t.drained slot sc && t.mq.all (fun c => !mInReach s slot sc c) && t.cq.all (fun c => !cInReach s slot sc c) &&
    s.copies.all (fun c => !(ownsCopy t c && anyInReach s slot sc (startedVas c))) && t.sendq.isEmpty && s.sends.all (fun x => !readsSource t x)

/-- FENCE waits for every slot, then for what is within its reach; it raises SLOT_ERROR for the lowest slot in error, and then delivers a
pending deferred error (spec/14_scalar_instructions.md R244, spec/09_translation_and_faults.md R164). -/
def execFence (c : BitVec 2) (s : State) : Out :=
  match waitSlots s.me 0xFE#8 with
  | .error j => .next (raiseSlot s j)
  | .pending => .next s
  | .ready =>
    if !fenceReady s s.cur (scopeOf c) then .next s
    else match deliver s with
      | some s1 => .next s1
      | none => .next (s.upd Strand.next)

/-- TRAP waits as FENCE.p does and raises TRAP with its number (spec/14_scalar_instructions.md R255). -/
def execTrap (n : BitVec 12) (s : State) : Out :=
  if s.me.sbPend ≠ 0#8 ∨ !fenceReady s s.cur .package then .next s
  else .next (raise { Trap.plain .trap with index := n.setWidth 32 } s)

end Sys2Proof.Machine
end

