-- ==== Sys2Proof/Machine/Save.lean ====
section
/-! DEFINITION. A strand's halt, its save and its return to a slot, and its start from a record
(spec/01_execution_model.md R11, R12, spec/03_matrix_registers.md R58, R59, spec/09_translation_and_faults.md R167 to R171,
spec/02_strand_registers.md R43, spec/07_queues_and_scheduling.md R119). -/

namespace Sys2Proof.Machine

open Sys2Proof

/-! ### The hardware's own regions in memory -/

/-- `n` bytes of memory replaced whole by a sparse content: the cells by their offset, everything else zero. -/
def homeCells (s : State) (pa n : Nat) (cells : List (Nat × Byte)) (comp : Bool) : State :=
  let put (m : List Host.Cell) (c : Nat × Byte) : List Host.Cell := tabPut emptyByte m (pa + c.1) c.2
  let s1 := { s with
    mem := cells.foldl put (memErase s.mem pa n)
    deadGroups := s.deadGroups.filter (fun g => !(unitsOf 2048 pa n).contains g)
    badSectors := s.badSectors.filter (fun x => !(decide (pa ≤ 32 * x) && decide (32 * x + 32 ≤ pa + n))) }
  recompress (breakLinks s1 none pa n) pa n comp

/-- What a write of the hardware's own, for the strand of an SID, leaves behind where a part of its place is on a stack that is shut down:
the record of code 0x04 (spec/05_memories.md R94). -/
def ownLost (s : State) (p : BitVec 6) (sid : BitVec 11) (va pa n : Nat) : State :=
  let lost : Option Nat := if n < 4096 then (if memLost s pa then some pa else none) else lostPart s pa
  match lost with
  | some a => errLog (some p) (dieOfPa a) sid 0x04 (va + (a - pa)) (stackOfPa a) s
  | none => s

/-- The same for a region of the hardware's own, within one page; a page that does not translate takes nothing (Assumption 16). -/
def ownCells (s : State) (p : BitVec 6) (sid : BitVec 11) (va n : Nat) (cells : List (Nat × Byte)) : State :=
  match ownPlace s p sid va n .write with
  | .error u => u
  | .ok (pa, comp, s1) => ownLost (homeCells s1 pa n cells comp) p sid va pa n

/-- Bytes at an offset as cells. -/
def cellsAt (off : Nat) (bs : List Byte) : List (Nat × Byte) := bs.zipIdx.map (fun x => (off + x.2, x.1))

/-- The cells of a part of a region, with offsets from its start. -/
def cutCells (cells : List (Nat × Byte)) (lo n : Nat) : List (Nat × Byte) :=
  (cells.filter (fun c => decide (lo ≤ c.1) && decide (c.1 < lo + n))).map (fun c => (c.1 - lo, c.2))

/-! ### Records that are settled, or that wait (spec/09_translation_and_faults.md R160, R165) -/

/-- Yalush, or the hypervisor, has settled a record: it leaves its fault queue. -/
def dropFault (s : State) (p : BitVec 6) (f : Option FaultRecord) : State :=
  match f with
  | none => s
  | some r => { s.updPart p (fun q => { q with faults := q.faults.filter (fun x => x != r) }) with
      hypFaults := s.hypFaults.filter (fun x => x != r) }

/-! ### The halt (spec/09_translation_and_faults.md R167, R168) -/

/-- Is the access a BWAIT at a remote home? -/
def isBwait (a : Access) : Bool :=
  match a.op with
  | .bwait _ => true
  | _ => false

/-- A wait in progress is abandoned: it restarts with its instruction. An issued instruction whose reply is awaited goes on, and a sweep
that has been started still owes its delivery. -/
def abandonWait (s : State) (slot : Nat) : State :=
  let gone := (s.strand slot).out.filter isBwait
  (gone.foldl (fun u a => dropTag u a.tag) s).updSlot slot (fun t => { t with
    out := t.out.filter (fun a => !isBwait a)
    wait := match t.wait with
      | .sweep => .sweep
      | .reply => if gone.isEmpty then .reply else .none
      | _ => .none })

/-- A member halts: no further issue, its waits abandoned, its links broken (spec/09_translation_and_faults.md R168, R169) and its watch
dropped (spec/17_engine_and_system_instructions.md R334). `settled`
is Yalush's own pre-emption of a PARKED strand whose record it has: the strand will go on from its resume point (R165), and the record is
settled, but not that of a TRAP whose service it still owes (spec/19_binary_interface.md R361); otherwise a PARKED strand keeps its fault
and executes its instruction again. -/
def haltStrand (settled : Bool) (s : State) (slot : Nat) : State :=
  let u := s.strand slot
  let mine := settled && u.phase == .parked && u.reported &&
    !u.fault.any (fun r => r.cls == .trap && decide (r.index.toNat < 256))
  let s1 := if mine then dropFault s u.part u.fault else s
  (abandonWait s1 slot).updSlot slot (fun t => { t with
    phase := .saving
    pc := if mine then resumePc t else t.pc
    fault := if mine then none else t.fault
    links := []
    watch := none
    yielded := 0 })

/-! ### The save (spec/09_translation_and_faults.md R169, R170) -/

/-- CSRs that a save record holds (spec/02_strand_registers.md R43), with WDLIM, which Yalush may rewrite there (R167). -/
def savedCsrs : List Nat :=
  [0x008, 0x009, 0x00A, 0x00B, 0x00C, 0x00D, 0x012, 0x014, 0x01A, 0x01B, 0x01C, 0x020, 0x021, 0x022, 0x023, 0x029, 0x02A] ++
    (List.range 16).map (fun i => 0x030 + i) ++ [0x042]

/-- The word of a saved CSR: its value, and in TSH the granted KB in bits [41:32] (spec/16_matrix_instructions.md R290). -/
def savedCsr (s : State) (slot c : Nat) : Word :=
  let w := csrRead s slot (BitVec.ofNat 12 c)
  if c = 0x00B then putSlice w 32 10 (s.strand slot).tsh.kb else w

/-- Bytes of a part of the save area of which the manual gives the contents but no format (Assumption 16). -/
def freeCells (s : State) (off n : Nat) : List (Nat × Byte) :=
  (List.range n).map (fun i => (off + i, Config.saveFormat s.fresh (off + i)))

/-- The lanes of a generator bank (spec/04_number_formats.md R68), as bytes. -/
def bankBytes (b : Bank) (offset : Nat) : List Byte :=
  (List.range 2048).flatMap (fun l => bvBytes (if tabHas b.lanes l then tabGet 0#64 b.lanes l else seedLane b.seed offset l))

/-- The save area of a strand (spec/09_translation_and_faults.md R170). The manual gives no format for the parts with tokens, guards and
the scoreboard, the two queues and the sweep: their bytes are free values, and what they hold is in the save record of the state
(Assumption 16). -/
def saveCells (s : State) (slot : Nat) : List (Nat × Byte) :=
  let t := s.strand slot
  let kreg (n : Nat) : List Byte := bvBytes (t.getK n)
  let csrs := savedCsrs.flatMap (fun c => bvBytes (savedCsr s slot c))
  let fault : List Byte := match t.fault with
    | some r => bvBytes (faultBytes r)
    | none => []
  let late : List Byte := match t.deferred with
    | some d => bvBytes (BitVec.ofNat 64 d.va) ++ [BitVec.ofNat 8 (classCode d.cls)]
    | none => []
  t.v.flatMap (fun nv => cellsAt (2048 * nv.1) (bvBytes nv.2)) ++
    (List.range 8).flatMap (fun n => cellsAt (0x40000 + 256 * n) (kreg n)) ++
    t.s.flatMap (fun nx => cellsAt (0x40800 + 8 * nx.1) (bvBytes nx.2)) ++
    cellsAt 0x40900 csrs ++ cellsAt 0x40E00 (bvBytes t.pc ++ natBytes 8 t.restart) ++ cellsAt 0x40E10 fault ++
    cellsAt 0x40E30 late ++
    freeCells s 0x40D00 256 ++ freeCells s 0x41000 1024 ++ freeCells s 0x41400 512 ++ freeCells s 0x41600 1024 ++
    cellsAt 0x42000 (bankBytes t.vbank 1 ++ bankBytes t.mbank 2049) ++
    t.strips.zipIdx.flatMap (fun x => cellsAt (0x50000 + 2048 * x.2) (bvBytes x.1.data))

/-- Writes the save area, page by page. -/
def writeSaveArea (s : State) (slot : Nat) : State :=
  let t := s.strand slot
  let cells := saveCells s slot
  (List.range 8).foldl (fun u k =>
    ownCells u t.part (sidOf slot) (t.saveArea + 65536 * k) 65536 (cutCells cells (65536 * k) 65536)) { s with fresh := s.fresh + 1 }

/-- Saves the scratch frames after the backing area's registers, with their poison (spec/03_matrix_registers.md R58). -/
def saveScratch (s : State) (slot : Nat) : State :=
  let t := s.strand slot
  (List.range t.sf.toNat).foldl (fun u k =>
    let va := t.mrbase + 0x800000 + 32768 * k
    match ownPlace u t.part (sidOf slot) va 32768 .write with
    | .error v => v
    | .ok (pa, comp, u1) =>
      let bad := (t.nearBad.filter (fun x => decide (1024 * k ≤ x) && decide (x < 1024 * (k + 1)))).map (fun x =>
        pa / 32 + (x - 1024 * k))
      ownLost (poisonSectors (homeCells u1 pa 32768 (cutCells t.scratch (32768 * k) 32768) comp) bad) t.part (sidOf slot) va pa 32768) s

/-- Writes one register back: its frame goes to the backing area, and it becomes CLEAN (spec/03_matrix_registers.md R58). -/
def writeBackReg (slot : Nat) (s : State) (r : Nat) : State :=
  let t := s.strand slot
  let f := (t.entry r).frame.toNat
  match ownPlace s t.part (sidOf slot) (backingVa t r) 32768 .write with
  | .error u => u
  | .ok (pa, comp, s1) =>
    countEvent ((writeBack s1 (sidOf slot) pa comp (frameOf s (coreOf slot) f)).updSlot slot (fun u => { u.moveEntry r stClean f with
      spills := u.spills + 1#24 })) slot 0x0005 1

/-- The bytes of the register map (spec/03_matrix_registers.md R48). -/
def mapCells (t : Strand) : List (Nat × Byte) :=
  t.map.flatMap (fun re =>
    let w : BitVec 32 := re.2.lseq ++ 0#5 ++ re.2.state ++ re.2.frame
    cellsAt (8 * re.1) (bvBytes w))

/-- Can an issued send not finish before the save: its guard is open, or its register is the result of a command that the save carries? At the
head of the send order such a send is saved with the strand, and so are the sends behind it, which it holds
(spec/17_engine_and_system_instructions.md R324). -/
def sendCarried (c : SendCommand) : Bool :=
  c.guard.any (fun e => e.val.isNone) || c.reg.any (fun x => match x.2 with
    | .cmd _ => true
    | _ => false)

/-- Is everything over that a member's save waits for (spec/09_translation_and_faults.md R169, steps 2 and 3)? Of a landing in a matrix
register nothing is under way between two steps: its write to a frame is one step (spec/03_matrix_registers.md R58). -/
def saveReady (s : State) (slot : Nat) : Bool :=
  let t := s.strand slot
  t.phase == .saving && t.out.isEmpty && t.acks.isEmpty && t.sbPend == 0#8 && t.mq.all (fun c => !c.started) &&
    t.sendq.head?.all sendCarried && t.fillq.isEmpty && t.spillq.isEmpty && s.copies.all (fun c => !(ownsCopy t c && c.near))

/-- A list changed from its head on, with a state that goes along. -/
def mapWith {α β : Type} (f : State → α → β × State) : State → List α → List β × State
  | s, [] => ([], s)
  | s, x :: rest =>
    let (y, s1) := f s x
    let (l, s2) := mapWith f s1 rest
    (y :: l, s2)

/-- A source of a command or send that the save carries: it will read the value that program order gave it, from its register's backing
area where that holds the value after the save, and otherwise from a copy kept for it (spec/03_matrix_registers.md R52, R57). -/
def carrySource (slot : Nat) (s : State) (x : Nat × Source) : (Nat × Source) × State :=
  let e := (s.strand slot).entry x.1
  match x.2 with
  | .frame f =>
    let g := frameOf s (coreOf slot) f
    if holdsFrame e.state && e.frame.toNat == f && !g.orphan then ((x.1, .backing), s) else ((x.1, .kept g.data g.bad), s)
  | .backing =>
    if e.state == stAbsent || e.state == stClean then (x, s)
    else match backingTile s (s.strand slot).part (sidOf slot) (backingVa (s.strand slot) x.1) with
      | .ok (k, s1) => ((x.1, .kept k.1 k.2), s1)
      | .error u => (x, u)
  | _ => (x, s)

/-- Every source of the commands and sends that the save carries. -/
def carrySources (s : State) (slot : Nat) : State :=
  let t := s.strand slot
  let (mq, s1) := mapWith (fun u (c : MCommand) =>
    let (l, v) := mapWith (carrySource slot) u c.srcs
    ({ c with srcs := l }, v)) s t.mq
  let (sendq, s2) := mapWith (fun u (c : SendCommand) =>
    match c.reg with
    | none => (c, u)
    | some x =>
      let (y, v) := carrySource slot u x
      ({ c with reg := some y }, v)) s1 t.sendq
  s2.updSlot slot (fun u => { u with mq := mq, sendq := sendq })

/-- The save of one member, step 4: dirty registers, the map, the scratch frames and the save area are written. Its old frames have no
reader left. -/
def saveStrand (s0 : State) (slot : Nat) : State :=
  let s := carrySources (s0.updSlot slot applyPerf) slot
  let t := s.strand slot
  let dirty := (t.map.filter (fun e => e.2.state == stDirty)).map (fun e => e.1)
  let s1 := dirty.foldl (writeBackReg slot) s
  let s2 := { s1 with frames := s1.frames.filter (fun kf =>
    !(kf.2.orphan && kf.1 / 256 == coreOf slot && kf.2.mapbase == t.mapbase && kf.2.part == t.part)) }
  let s3 := ownCells s2 t.part (sidOf slot) t.mapbase 2048 (mapCells (s2.strand slot))
  writeSaveArea (saveScratch s3 slot) slot

/-- What the save record of a member holds of it. -/
def saveImage (t : Strand) : Strand := { t with
  scratch := []
  nearBad := []
  scrFrames := []
  recBuf := none
  links := []
  tokNew := ⟨0#4, 0#4, 0#4, 0#4, 0#4, 0#4⟩
  wait := .none }

/-! ### Return to a slot (spec/09_translation_and_faults.md R171, spec/03_matrix_registers.md R59) -/

/-- LIM of a strand on a core: the partition's MSMLIM less the frames withdrawn there (Assumption 17). -/
def limOn (s : State) (core : Nat) (pid : BitVec 6) : BitVec 9 :=
  BitVec.ofNat 9 ((s.part pid).msmlim.toNat - (s.withdrawn.filter (fun k => k / 256 == core)).length)

/-- FQ and SF under a limit: FQ is lowered first, and SF only when FQ has reached 1 (spec/02_strand_registers.md R39). -/
def fitQuota (lim fq sf : Nat) : Nat × Nat :=
  if fq + sf ≤ lim then (fq, sf)
  else if 1 + sf ≤ lim then (lim - sf, sf)
  else (1, lim - 1)

/-- A map entry as memory holds it: its fields, and whether it is a good one (spec/03_matrix_registers.md R48). -/
def readEntry (w : Word) : MapEntry × Bool :=
  let st : BitVec 3 := slice w 8 3
  let good := decide (st.toNat ≤ 5) && slice w 11 5 == 0#5 && slice w 32 32 == 0#32
  (⟨if good && holdsFrame st then slice w 0 8 else 0#8, if good then st else stAbsent, slice w 16 16⟩, good)

/-- A part of the hardware's own regions as a resume reads it: its physical address, the poisoned sectors and those on a stack that is shut
down, both by number from its start, and the state after the read, with the record of a lost stack (spec/05_memories.md R94). -/
def ownRead (s : State) (p : BitVec 6) (sid : BitVec 11) (va n : Nat) : Except State (Nat × List Nat × List Nat × State) :=
  (ownPlace s p sid va n .read).map (fun x =>
    let pa := x.1
    let lost := if s.hbmth = 0#24 then [] else (List.range (n / 32)).filter (fun i => memLost s (pa + 32 * i))
    let bad := (s.badSectors.filter (fun b => decide (pa ≤ 32 * b) && decide (32 * b < pa + n) && !memLost s (32 * b))).map (fun b => b - pa / 32)
    (pa, bad, lost, ownLost x.2.2 p sid va pa n))

/-- Reloads the register map from memory; a bad entry is ABSENT and is recorded (spec/03_matrix_registers.md R48). A poisoned entry is a bad
one, and one on a stack that is shut down is ABSENT: neither is read as data (spec/05_memories.md R94, R103; DESIGN CHOICE, Assumption 16). -/
def reloadMap (s : State) (slot : Nat) : State :=
  let t := s.strand slot
  match ownRead s t.part (sidOf slot) t.mapbase 2048 with
  | .error u => u
  | .ok (pa, bad, lost, s0) =>
    let word (i : Nat) : MapEntry × Bool :=
      if lost.contains (i / 4) then (⟨0#8, stAbsent, 0#16⟩, true)
      else if bad.contains (i / 4) then (⟨0#8, stAbsent, 0#16⟩, false)
      else readEntry (bytesBv 64 (homeRead s (pa + 8 * i) 8))
    let words := (List.range 256).map (fun i => (i, word i))
    let map := words.foldl (fun m x => tabPut MapEntry.zero m x.1 x.2.1) []
    let s1 := s0.updSlot slot (fun u => { u with map := map })
    (words.filter (fun x => !x.2.2)).foldl (fun u x =>
      errLog (some t.part) (dieOf (coreOf slot)) (sidOf slot) 0x10 (t.mapbase + 8 * x.1) x.1 u) s1

/-- Does a frame still carry the strand's tag for a register? -/
def frameKept (s : State) (slot r : Nat) (e : MapEntry) : Bool :=
  let t := s.strand slot
  let f := frameOf s (coreOf slot) e.frame.toNat
  holdsFrame e.state && tabHas s.frames (frameKey (coreOf slot) e.frame.toNat) && f.mapbase == t.mapbase && f.reg == r &&
    f.part == t.part

/-- On the core where the strand was saved its CLEAN registers keep their frames; anywhere else they become ABSENT, and the frames on the
old core are freed. -/
def reclaimFrames (s : State) (slot : Nat) : State :=
  let t := s.strand slot
  let fix (m : Tab MapEntry) (re : Nat × MapEntry) : Tab MapEntry :=
    let e := if !holdsFrame re.2.state then re.2
      else if frameKept s slot re.1 re.2 then { re.2 with state := stClean }
      else ⟨0#8, stAbsent, re.2.lseq⟩
    tabPut MapEntry.zero m re.1 e
  let map := t.map.foldl fix []
  let keep (kf : Nat × Frame) : Bool :=
    !(kf.2.mapbase == t.mapbase && kf.2.part == t.part) ||
      (kf.1 / 256 == coreOf slot && frameKept s slot kf.2.reg (t.entry kf.2.reg) &&
        (t.entry kf.2.reg).frame.toNat == kf.1 % 256)
  { s.setStrand slot { t with map := map } with frames := s.frames.filter keep }

/-- Reads the scratch frames back, with their poison; a sector on a stack that is shut down comes as poison (Assumption 16). -/
def loadScratch (s : State) (slot : Nat) : State :=
  let t := s.strand slot
  (List.range t.sf.toNat).foldl (fun u k =>
    match ownRead u t.part (sidOf slot) (t.mrbase + 0x800000 + 32768 * k) 32768 with
    | .error v => v
    | .ok (pa, bad, lost, u1) =>
      let cells := u.mem.filter (fun c => decide (pa ≤ c.1) && decide (c.1 < pa + 32768) && !lost.contains ((c.1 - pa) / 32))
      u1.updSlot slot (fun v => { v with
        scratch := v.scratch ++ cells.map (fun c => (c.1 - pa + 32768 * k, c.2))
        nearBad := v.nearBad ++ ((List.range 1024).filter (fun i => bad.contains i || lost.contains i)).map (fun i => i + 1024 * k) })) s

/-- A source in the backing area of a register that has its frame again is that frame. -/
def rebindSource (t : Strand) (x : Nat × Source) : Nat × Source :=
  let e := t.entry x.1
  if x.2 = .backing ∧ holdsFrame e.state = true then (x.1, .frame e.frame.toNat) else x

/-- The sources of the commands and sends that the save carried, against the map as reloaded. -/
def rebind (t : Strand) : Strand :=
  { t with
    mq := t.mq.map (fun c => { c with srcs := c.srcs.map (rebindSource t) })
    sendq := t.sendq.map (fun c => { c with reg := c.reg.map (rebindSource t) }) }

/-! ### The save area, read back (spec/09_translation_and_faults.md R170, R171) -/

/-- A save area as a resume reads it: its bytes that are not zero, its poisoned sectors and its lost ones, all by offset or by sector from
its start. -/
structure AreaRead where
  cells : List (Nat × Byte)
  bad : List Nat
  lost : List Nat
  st : State

/-- Reads a save area, page by page. A page that does not translate gives nothing, and the bytes of a lost sector are not read. -/
def readSaveArea (s : State) (slot : Nat) (t : Strand) : AreaRead :=
  (List.range 6).foldl (fun x k =>
    match ownRead x.st t.part (sidOf slot) (t.saveArea + 65536 * k) 65536 with
    | .error u => { x with st := u }
    | .ok (pa, bad, lost, s1) =>
      let mine (c : Nat × Byte) : Bool := decide (pa ≤ c.1) && decide (c.1 < pa + 65536) && !lost.contains ((c.1 - pa) / 32)
      ⟨x.cells ++ (s.mem.filter mine).map (fun c => (c.1 - pa + 65536 * k, c.2)), x.bad ++ bad.map (fun b => b + 2048 * k),
        x.lost ++ lost.map (fun b => b + 2048 * k), s1⟩) ⟨[], [], [], s⟩

/-- `n` bytes at an offset of an area given by its bytes that are not zero. -/
def areaBv (w : Nat) (cells : List (Nat × Byte)) (off n : Nat) : BitVec w :=
  (cells.filter (fun c => decide (off ≤ c.1) && decide (c.1 < off + n))).foldl (fun x c =>
    x ||| (BitVec.setWidth w c.2 <<< (8 * (c.1 - off)))) 0#w

/-- The place of a saved CSR in the area. -/
def savedAt (c : Nat) : Nat := 0x40900 + 8 * (savedCsrs.takeWhile (fun x => x != c)).length

/-- The CSRs of known layout come back from the area. -/
def loadCsrs (cells : List (Nat × Byte)) (t : Strand) : Strand :=
  let w (c : Nat) : Word := areaBv 64 cells (savedAt c) 8
  let tsh := w 0x00B
  let perf (u : Strand) (i : Nat) : Strand := { u with
    perfSel := tabPut 0#17 u.perfSel i ((w (0x030 + i)).setWidth 17)
    perfCnt := tabPut 0#64 u.perfCnt i (w (0x038 + i)) }
  (List.range 8).foldl perf { t with
    vl := (w 0x008).setWidth 12
    sew := slice (w 0x009) 0 2
    gm := slice (w 0x009) 2 2
    mw := (w 0x00A).setWidth 8
    tsh := ⟨slice tsh 0 8, slice tsh 8 8, slice tsh 16 12, slice tsh 32 10⟩
    vstat := (w 0x00C).setWidth 5
    srseed := w 0x00D
    fq := slice (w 0x012) 0 9
    sf := slice (w 0x012) 16 9
    fills := slice (w 0x014) 12 24
    spills := slice (w 0x014) 36 24
    sbErr := slice (w 0x01C) 8 8
    runtk := w 0x029
    wdlim := w 0x02A }

/-- Sectors of the area that could not be read go to the registers that they hold, with their class; a scalar, mask or special register and a
strip then read as poison (spec/05_memories.md R94, R103): poison never reads as data. -/
def loadMarks (area : Nat) (cls : FaultClass) (bad : List Nat) (t : Strand) : Strand :=
  let one (u : Strand) (b : Nat) : Strand :=
    let o := 32 * b
    if o < 0x40000 then { u with marks := u.marks ++ [⟨o / 2048, 8 * (o % 2048), 256, cls, area + o, 0⟩] }
    else if o < 0x40800 then { u with badK := insNat ((o - 0x40000) / 256) u.badK }
    else if o < 0x40900 then { u with badS := (List.range 4).foldl (fun l i => insNat ((o - 0x40800) / 8 + i) l) u.badS }
    else if o < 0x40D00 then { u with badC := (savedCsrs.drop ((o - 0x40900) / 8)).take 4 ++ u.badC }
    else if 0x50000 ≤ o then { u with strips := u.strips.zipIdx.map (fun x =>
      if x.2 = (o - 0x50000) / 2048 then { x.1 with bad := insNat (o % 2048 / 32) x.1.bad } else x.1) }
    else u
  bad.foldl one t

/-- Does a sector of the area hold what no register takes: tokens, guards and the scoreboard, the resume point, the two queues, the sweep
or the generator banks? -/
def vitalSector (b : Nat) : Bool :=
  let o := 32 * b
  (decide (0x40D00 ≤ o) && decide (o < 0x40F00)) || (decide (0x41000 ≤ o) && decide (o < 0x41A00)) ||
    (decide (0x42000 ≤ o) && decide (o < 0x4A000))

/-- The registers of a strand come back from its save area as read; what the area holds in no given format, and a resume point that could
not be read, come back from the save record (Assumption 16). -/
def loadSaveArea (a : AreaRead) (t : Strand) : Strand :=
  let v := (List.range 128).foldl (fun m n => tabPut 0#16384 m n (areaBv 16384 a.cells (2048 * n) 2048)) []
  let k := (List.range 8).foldl (fun m n =>
    if n = 0 then m else tabPut 0#2048 m n (areaBv 2048 a.cells (0x40000 + 256 * n) 256)) []
  let sr := (List.range 32).foldl (fun m n =>
    if n = 0 then m else tabPut 0#64 m n (areaBv 64 a.cells (0x40800 + 8 * n) 8)) []
  let strips := t.strips.zipIdx.map (fun x => { x.1 with data := areaBv 16384 a.cells (0x50000 + 2048 * x.2) 2048 })
  let point := a.bad.contains (0x40E00 / 32) || a.lost.contains (0x40E00 / 32)
  loadMarks t.saveArea .memLost a.lost (loadMarks t.saveArea .poison a.bad { loadCsrs a.cells t with
    v := v
    k := k
    s := sr
    pc := if point then t.pc else areaBv 64 a.cells 0x40E00 8
    restart := if point then t.restart else (areaBv 64 a.cells 0x40E08 8).toNat
    strips := strips })

/-- A strand of whose save area a vital sector could not be read does not go on: it comes back PARKED with POISON, or with MEMLOST, at that
sector (DESIGN CHOICE, Assumption 16: the manual names no report of a resume's reads). -/
def parkUnread (a : AreaRead) (slot : Nat) (s : State) : State :=
  let t := s.strand slot
  let park (cls : FaultClass) (b : Nat) : State :=
    raiseAt s slot t.pc ⟨cls, .none, BitVec.ofNat 64 (t.saveArea + 32 * b), 0#32, false, false⟩
  match a.lost.find? vitalSector, a.bad.find? vitalSector with
  | some b, _ => park .memLost b
  | none, some b => park .poison b
  | none, none => s

/-- The strand in a slot has its limit on the core and its quotas under it. -/
def fitLimit (s : State) (slot : Nat) (t : Strand) : Strand :=
  let lim := limOn s (coreOf slot) t.part
  let (fq, sf) := fitQuota lim.toNat t.fq.toNat t.sf.toNat
  { t with lim := lim, fq := BitVec.ofNat 9 fq, sf := BitVec.ofNat 9 sf }

/-- The strand in a slot gets its scratch frames. -/
def giveScratch (s : State) (slot : Nat) : State := addScratch slot (s.strand slot).sf.toNat s

/-- A saved member returns to a slot (spec/09_translation_and_faults.md R171): it issues from its resume pc, with a pending deferred error due
at its first instruction (spec/05_memories.md R97), its fault no longer pending, and its event flag set
(spec/17_engine_and_system_instructions.md R334). Where its quota has fallen it gives up register frames before it takes its scratch frames
(spec/03_matrix_registers.md R51). -/
def resumeStrand (s : State) (slot : Nat) (img : Strand) : State :=
  let a := readSaveArea s slot img
  let t : Strand := { loadSaveArea a img with
    phase := .running
    fault := none
    reported := false
    deferNow := img.deferred.isSome
    evFlag := true
    wait := if sweepWaits img then .sweep else .none
    mq := img.mq.map (fun c => { c with faulted := false }) }
  let s1 := reclaimFrames (reloadMap (a.st.setStrand slot t) slot) slot
  let s2 := loadScratch s1 slot
  let s3 := s2.updSlot slot (fun u =>
    let w := fitLimit s2 slot u
    rebind (cutScratch w w.sf.toNat))
  parkUnread a slot (giveScratch (evictToQuota s3 slot) slot)

/-- A strand starts from a record (spec/01_execution_model.md R11, spec/10_descriptor_tables.md R178, R192): its map is zeroed, and its
registers hold what they hold at strand start. -/
def startStrand (s : State) (slot : Nat) (pid : BitVec 6) (area rank : Nat) (r : Rec64) : State :=
  let ((ftb, ftl), s0) := launchTable s pid (recLid r)
  let t0 : Strand := { Strand.empty with
    phase := .running
    gang := area
    rank := rank
    rcd := r
    part := pid
    pc := zext64 (recCode r)
    fq := recFq r
    sf := recSf r
    ftbase := ftb
    ftlen := ftl
    wdlim := recWdt r }
  let t := (t0.setS 1#5 (recFrame r)).setS 30#5 (BitVec.ofNat 64 (t0.member + 0x02000000))
  let s1 := { s0 with frames := s0.frames.filter (fun kf => !(kf.2.mapbase == t.mapbase && kf.2.part == pid)) }
  giveScratch (ownCells (s1.setStrand slot (fitLimit s1 slot t)) pid (sidOf slot) t.mapbase 2048 []) slot

end Sys2Proof.Machine
end

