-- ==== Sys2Proof/Machine/Schedule.lean ====
section
/-! DEFINITION. The work-queue scheduler: starts, resumes and victims; pre-emption and saves; FORK, EXIT and the end of a launch; the
watchdog and fault records (spec/01_execution_model.md R12 to R23, spec/07_queues_and_scheduling.md R123 to R127,
spec/09_translation_and_faults.md R160, R165 to R171, spec/17_engine_and_system_instructions.md R336, R337,
spec/25_program_preemption.md R385). -/

namespace Sys2Proof.Machine

open Sys2Proof

/-! ### Gangs -/

/-- Slots that a gang's members are bound to. -/
def Gang.bound (g : Gang) : List Nat := g.slots.filterMap id

/-- Ranks of a gang that have not retired. -/
def Gang.survivors (g : Gang) : List Nat := (List.range g.slots.length).filter (fun r => !g.retired.contains r)

/-- The effective level of a gang (spec/07_queues_and_scheduling.md R127). -/
def gangLevel (s : State) (g : Gang) : Nat := effective s g.part g.rcd (recPrio g.rcd).toNat

/-- A gang has retired: its area returns to the pool, the join is decremented unless Yalush ended the launch, and the launch ends with
its last record (spec/10_descriptor_tables.md R178, R180, R192). -/
def retireGang (s : State) (g : Gang) (sid : BitVec 11) (decrement : Bool) : State :=
  let s1 := { s with gangs := s.gangs.filter (fun x => !x.isAt g.part g.area) }
  let s2 := s1.updPart g.part (fun p => { p with areas := p.areas.filter (fun a => a != g.area) })
  let s3 := if decrement then joinDecrement s2 g.part sid (recJoin g.rcd).toNat else s2
  launchCheck s3 g.part (recLid g.rcd)

/-! ### FORK (spec/17_engine_and_system_instructions.md R336) -/

/-- FORK. The record is read as one load of class SL; the enqueueing is a release at package scope. A join address in the near window is
refused with MAILBOX (spec/05_memories.md R83; Assumption 39). The join's PRIO is read at this FORK; that of a join on another package is
asked for, and FORK waits for the answer (Assumption 15): its restart index says that it has asked. -/
def execFork (a : BitVec 5) (p : BitVec 2) (s : State) : Out :=
  let va := s.me.getS a
  if slice va 0 6 ≠ 0#6 then .next (raise ⟨.align, .scalarLoad, va, 0#32, false, false⟩ s)
  else match loadRecord va .scalarLoad acceptsPlain s with
    | .out o => o
    | .got r s1 =>
      let t := s1.me
      if !recordOk r || !recordFits (s1.part t.part) r || !quotaFits (s1.part t.part) r then .next (raise ⟨.perm, .scalarLoad, va, 0#32, false, false⟩ s1)
      else
        let join := (recJoin r).toNat
        if inNear join then .next (raise ⟨.mailbox, .scalarLoad, va, 0#32, false, false⟩ s1)
        else if !relReady t s1.cur (some .package) then .next s
        else
          let s2 := if t.restart = 0 then noteJoin s1 t.part join else s1
          if joinAsked s2 t.part join then .next (s2.upd (fun u => { u with restart := 1 }))
          else
            let q := max p.toNat (effective s2 t.part t.rcd (recPrio t.rcd).toNat)
            match enqueue s2 t.part (effective s2 t.part r q) r with
            | none => .next s
            | some s3 => .next (s3.upd Strand.next)

/-! ### EXIT (spec/17_engine_and_system_instructions.md R337) -/

/-- The strand's copies run on without it, started or queued (spec/17_engine_and_system_instructions.md R315). -/
def orphanCopies (s : State) (slot : Nat) : State :=
  let t := s.strand slot
  let q : List RetiredQueue := if t.cq.isEmpty then [] else [⟨t.owner slot, coreOf slot, recCq t.rcd, t.tok, t.cq⟩]
  { s with
    copies := s.copies.map (fun c => if ownsCopy t c then { c with orphan := true } else c)
    retiredCq := s.retiredCq ++ q }

/-- The slot, its registers, scratch frames and register frames are freed without write-back. -/
def freeSlot (s : State) (slot : Nat) : State :=
  let t := s.strand slot
  { s with
    strands := tabErase s.strands slot
    frames := s.frames.filter (fun kf => !(kf.2.mapbase == t.mapbase && kf.2.part == t.part)) }

/-- A member of a gang has retired; the last one retires the gang. -/
def memberGone (s : State) (p : BitVec 6) (area rank : Nat) (sid : BitVec 11) : State :=
  let s1 := s.updGang p area (fun g => { g with
    slots := setNth g.slots rank none
    retired := insNat rank g.retired })
  match s1.gang? p area with
  | none => s1
  | some g => if g.survivors.isEmpty then retireGang s1 g sid true else s1

/-- Has a queued copy an end in the near window? A CPYT is judged by its map as memory holds it now; one whose map cannot be read has none,
and one whose map lies on another package may have one until it has started and read it (DEDUCED, Assumption 41). -/
def queuedNear (s : State) (slot : Nat) (c : CCommand) : Bool :=
  copyNear c 0#896 || (match c.ins with
    | .cpyt _ _ _ _ _ _ =>
      (match readMap s ⟨s, slot, copyCtx s ((s.strand slot).owner slot) (coreOf slot), false, none⟩ c noFeed with
        | .error .short => true
        | .error (.bad _ _) => false
        | .ok r => match checkMap r with
          | .ok m => copyNear c m
          | .error _ => false)
    | _ => false)

/-- Does EXIT still wait for a copy with an end in the near window? -/
def nearPending (s : State) (slot : Nat) : Bool :=
  let t := s.strand slot
  let live (c : CCommand) : Bool := match c.guard with
    | some e => e.val != some false
    | none => true
  t.cq.any (fun c => live c && queuedNear s slot c) || s.copies.any (fun c => ownsCopy t c && c.near)

/-- What EXIT waits for in its second step besides scoreboard slots: as FENCE.p does, stream accesses and matrix commands homed within the
package; the start of sends and the source reads of sends. An access, or a matrix command's reads or writes, on another package have left
when EXIT goes on without it (Assumption 41). -/
def exitReady (s : State) (slot : Nat) : Bool :=
  let t := s.strand slot
  let left (c : MCommand) : Bool := match tileForm c.ins with
    | some (_, _, false) => c.out
    | _ => c.started
  t.drained slot .package && t.out.all (fun a => a.sent) && t.mq.all (fun c => left c && !mInReach s slot .package c) &&
    t.sendq.isEmpty && s.sends.all (fun x => !readsSource t x)

/-- The tags of requests on their way whose strand is gone: what they answer finds no one, and each goes through quarantine
(spec/05_memories.md R98; Assumptions 21 and 41). -/
def leaveTags (s : State) (slot : Nat) : State :=
  let t := s.strand slot
  (t.out.map (fun a => a.tag) ++ t.mq.map (fun c => c.tag) ++ t.sendq.map (fun c => c.tag)).foldl dropTag s

/-- Must the last member of a gang wait to decrement the gang's join, whose row is under a self-test (spec/05_memories.md R101)? -/
def joinTested (s : State) (t : Strand) : Bool :=
  !s.tests.isEmpty && (s.gang? t.part t.gang).any (fun g =>
    g.survivors == [t.rank] && recJoin g.rcd != 0#52 && vaTested s t.part (recJoin g.rcd).toNat 128)

/-- EXIT. -/
def execExit (s : State) : Out :=
  let s1 := s.upd resolveAllFalse
  match waitSlots s1.me 0xFE#8 with
  | .error j => .next (raiseSlot s1 j)
  | .pending => .next s1
  | .ready =>
    if !exitReady s1 s1.cur then .next s1
    else match deliver s1 with
      | some s2 => .next s2
      | none =>
        let s2 := abandonSweep s1 s1.cur
        let t := s2.me
        let s3 := cancelTiles t false s2
        if tilesLanding t s3 then .next s3
        else if nearPending s3 s3.cur || joinTested s3 t then .next (s3.upd (fun u => { u with wait := .exit }))
        else
          .next (memberGone (freeSlot (orphanCopies (leaveTags s3 s3.cur) s3.cur) s3.cur) t.part t.gang t.rank (sidOf s3.cur))

/-! ### The end of a launch (spec/01_execution_model.md R16) -/

/-- Accesses that had left when their strand is removed (Assumption 21): those homed here are performed in program order, and the tags of
the others go through quarantine. The flag of an STN whose data has not been written, or not been acknowledged, does not move
(spec/05_memories.md R99). -/
def drainAccesses (slot : Nat) : Nat → State → State
  | 0, s => s
  | n + 1, s =>
    match (s.strand slot).out with
    | [] => s
    | a :: rest =>
      let s0 := s.updSlot slot (fun u => { u with out := rest })
      let s1 := if isBwait a then s0
        else if isLocal s a.place then
          let s2 := performAccess s slot 0 a (.value 0)
          let isFlag (b : Access) : Bool := b.seq == a.seq && (match b.op with
            | .flag _ => true
            | _ => false)
          s2.updSlot slot (fun u => { u with out := rest.filter (fun b => !isFlag b || u.out.contains b) })
        else dropFlag (dropTag s0 a.tag) slot a
      drainAccesses slot n s1

/-- A bound member is removed: its accesses performed, its sweep abandoned, its matrix pigeonholes ended, its started copies left to run
on. -/
def endStrand (s : State) (slot : Nat) : State :=
  let t := s.strand slot
  let s1 := abandonSweep (drainAccesses slot t.out.length (keepFault s t)) slot
  let s2 := leaveTags (cancelTiles t true s1) slot
  freeSlot { s2 with copies := s2.copies.map (fun c => if ownsCopy t c then { c with orphan := true } else c) } slot

/-- A saved member is removed: an open group of its sweep closes without a commit. -/
def endImage (s : State) (t : Strand) : State :=
  let s1 := match t.sweep with
    | none => s
    | some w =>
      let u := match w.opened with
        | some o => releaseWakes w.home o.g s
        | none => s
      closeDescriptor { t.owner 0 with sid := noSid } w false u
  let s2 := cancelTiles t true s1
  { s2 with frames := s2.frames.filter (fun kf => !(kf.2.mapbase == t.mapbase && kf.2.part == t.part)) }

/-- Yalush ends a gang: RETIRED, with no join decrement. -/
def endGang (s : State) (g : Gang) : State :=
  let s1 := g.images.foldl (fun u x => endImage u x.2) (g.bound.foldl endStrand s)
  let s2 := s1.updPart g.part (fun p => { p with
    faults := p.faults.filter (fun r => !(decide (g.area ≤ r.save) && decide (r.save < g.area + 0x10000000))) })
  retireGang s2 g noSid false

/-- Yalush ends a launch: its queued, held and unqueued records are gone, its gangs retire. -/
def endLaunch (s : State) (pid : BitVec 6) (lid : BitVec 32) : State :=
  let drop (u : State) (l : Nat) : State :=
    let rs := ringRecs u (u.part pid) l
    if rs.any (fun r => recLid r == lid) then refill (readRing u pid l) pid l (rs.filter (fun r => recLid r != lid)) else u
  let s1 := (List.range 4).foldl drop s
  let s2 := { s1 with heldRecs := s1.heldRecs.filter (fun h => !(h.1 == pid && recLid h.2.2 == lid)) }
  let stop (x : Launch) : Launch := if x.lid = lid then { x with next := (slice x.rcd 224 32).toNat } else x
  let s3 := s2.updPart pid (fun p => { p with launches := p.launches.map stop })
  let gs := s3.gangs.filter (fun g => g.part == pid && recLid g.rcd == lid)
  launchCheck (gs.foldl endGang s3) pid lid

/-- The policy for a class: end the launch where none was set (spec/19_binary_interface.md R362). -/
def policyOf (p : Partition) (c : FaultClass) : Nat := tabGet 0 p.policy (classCode c)

/-- May Yalush end the launch of a strand that is PARKED with a record: not where the policy of its class is to resume it, nor for a TRAP that
Yalush serves (spec/19_binary_interface.md R361, R362)? A fault of the hypervisor stage has no policy (Assumption 25). -/
def mayEnd (p : Partition) (r : FaultRecord) : Bool :=
  r.hyp || (policyOf p r.cls != 2 && !(r.cls == .trap && decide (r.index.toNat ≤ 0xFF)))

/-- Has a gang of the launch a PARKED member, whose record Yalush has and may settle so: only then does Yalush end a launch? -/
def launchParked (s : State) (pid : BitVec 6) (lid : BitVec 32) : Bool :=
  s.gangs.any (fun g => g.part == pid && recLid g.rcd == lid &&
    g.bound.any (fun k => (s.strand k).phase == .parked && (s.strand k).reported && (s.strand k).fault.any (mayEnd (s.part pid))))

/-- LAUNCH_END: Yalush ends the launch `a0` of partition `p`, of which a gang is PARKED; all its gangs retire. -/
def execLaunchEnd (s : State) : Out :=
  let lid : BitVec 32 := s.arg.a0.setWidth 32
  if launchParked s s.arg.p lid then .next (endLaunch s s.arg.p lid) else .next s

/-! ### Placement (spec/01_execution_model.md R17, spec/25_program_preemption.md R385) -/

/-- Is a slot free? -/
def slotFree (s : State) (slot : Nat) : Bool := (s.strand slot).phase == .free

/-- The lowest free slot of a partition on each core of a cluster, cores ascending. -/
def clusterSlots (s : State) (p : Partition) (free : Nat → Bool) (cl : Nat) : List Nat :=
  (List.range 8).filterMap (fun i =>
    let core := 8 * cl + i
    if p.cores.getLsbD core && !s.deadCores.contains core then
      (firstBelow (fun j => p.slots.getLsbD j && free (4 * core + j)) 4).map (fun j => 4 * core + j)
    else none)

/-- The cluster with the most cores that have a free slot of the partition, the lowest among equals, and its slots. -/
def bestCluster (s : State) (p : Partition) (free : Nat → Bool) : List Nat :=
  (List.range 36).foldl (fun best cl =>
    let c := clusterSlots s p free cl
    if best.length < c.length then c else best) []

/-- Slots for a gang of a width: none where no cluster has enough. -/
def placement (s : State) (p : Partition) (free : Nat → Bool) (w : Nat) : Option (List Nat) :=
  let b := bestCluster s p free
  if w ≤ b.length then some (b.take w) else none

/-- The level whose head record a partition serves: the first that is not empty (spec/01_execution_model.md R17, R18). -/
def headLevel (p : Partition) : Option Nat := firstBelow (fun l => decide (p.count l ≠ 0)) 4

/-- Members of a record that need slots (spec/25_program_preemption.md R385). -/
def recMembers (s : State) (pid : BitVec 6) (r : Rec64) : Nat :=
  if recSaved r then (match s.gang? pid (recGarea r) with
    | some g => g.survivors.length
    | none => 0)
  else (recWidth r).toNat

/-- Gang areas of a partition that are free. -/
def freeAreas (p : Partition) : List Nat :=
  ((List.range p.gaCnt).map (fun i => p.gaPool + 0x10000000 * i)).filter (fun a => !p.areas.contains a)

/-- Has the record an area, or can it have one? -/
def areaReady (p : Partition) (r : Rec64) : Bool := recSaved r || !(freeAreas p).isEmpty

/-- What the scheduler would start for a partition: level, head record and slots. -/
def startable (s : State) (pid : BitVec 6) : Option (Nat × Rec64 × List Nat) :=
  let p := s.part pid
  if !p.active then none
  else match headLevel p with
    | none => none
    | some l =>
      match ringHead s p l with
      | none => none
      | some r =>
        if !areaReady p r then none
        else (placement s p (slotFree s) (recMembers s pid r)).map (fun pl => (l, r, pl))

/-! ### Sharing by weight (spec/07_queues_and_scheduling.md R125) -/

/-- The weight of a partition at a level. -/
def Partition.weight (p : Partition) (l : Nat) : Nat := (slice p.weights (8 * l) 8).toNat

/-- The key of a pass value. -/
def passKey (pid l core : Nat) : Nat := (pid * 4 + l) * 288 + core

/-- A pass value. It starts at 0: the manual gives no initial value (DESIGN CHOICE, Assumption 42). -/
def State.passOf (s : State) (pid l core : Nat) : BitVec 32 := tabGet 0#32 s.pass (passKey pid l core)

/-- Does partition q come before partition p at a level on a core? Among partitions of weight 0, of which the manual gives no order, the
lowest-numbered comes first: their pass values stay 0. A pass value that passes 2^32 wraps and is compared as it stands, so that its partition
comes first for a time: the manual does not say what happens there (both DESIGN CHOICE, Assumption 42). -/
def beats (s : State) (l core q p : Nat) : Bool :=
  let wq := (tabGet Partition.none s.parts q).weight l
  let wp := (tabGet Partition.none s.parts p).weight l
  let a := (s.passOf q l core).toNat
  let b := (s.passOf p l core).toNat
  if wq = 0 ∧ wp ≠ 0 then false
  else if wq ≠ 0 ∧ wp = 0 then true
  else decide (a < b) || (a == b && decide (q < p))

/-- The level at which a partition has an eligible record: its head record, when it has or can have a gang area
(spec/01_execution_model.md R17, R18; Assumption 42). -/
def eligibleLevel (s : State) (p : Partition) : Option Nat :=
  if !p.active then none
  else match headLevel p with
    | none => none
    | some l => if (ringHead s p l).any (areaReady p) then some l else none

/-- Does a partition contend for a slot at a level: may it use the slot, and has it an eligible record there that the slot's cluster could
hold, whether or not the other slots it needs are free (spec/07_queues_and_scheduling.md R125)? A record too wide for its partition's cores
of that cluster does not (DEDUCED, Assumption 42). -/
def contends (s : State) (q : Nat × Partition) (l slot : Nat) : Bool :=
  q.2.cores.getLsbD (coreOf slot) && q.2.slots.getLsbD (slot % 4) && eligibleLevel s q.2 == some l &&
    decide (recMembers s (BitVec.ofNat 6 q.1) (ringRec s q.2 l 0) ≤ (clusterSlots s q.2 (fun _ => true) (clusterOf (coreOf slot))).length)

/-- Is another partition before this one at every slot of its placement for which that one contends? The manual ranks partitions core by
core and is silent on a wide gang whose cores have different winners: here it is held back only where another partition is before it at all
that they share (DESIGN CHOICE, Assumption 42). A partition whose eligible record waits for further slots keeps its place before the
others. -/
def outbid (s : State) (pid : BitVec 6) (l : Nat) (pl : List Nat) : Bool :=
  s.parts.any (fun q =>
    let shared := pl.filter (contends s q l)
    q.1 != pid.toNat && !shared.isEmpty && shared.all (fun k => beats s l (coreOf k) q.1 pid.toNat))

/-- A partition that becomes eligible at a level takes, on each of its cores, at least the least pass value of the partitions of non-zero
weight that were eligible there. -/
def liftPass (s : State) (q : Nat × Partition) (l : Nat) (u : State) : State :=
  let rivals := s.parts.filter (fun x => x.1 != q.1 && x.2.eligible.contains l && eligibleLevel s x.2 == some l && x.2.weight l != 0)
  let lift (v : State) (c : Nat) : State :=
    match (rivals.filter (fun x => x.2.cores.getLsbD c)).map (fun x => (s.passOf x.1 l c).toNat) with
    | [] => v
    | m :: rest => { v with
        pass := tabPut 0#32 v.pass (passKey q.1 l c) (BitVec.ofNat 32 (max (v.passOf q.1 l c).toNat (rest.foldl min m))) }
  if q.2.weight l = 0 then u else ((List.range 288).filter (fun c => q.2.cores.getLsbD c)).foldl lift u

/-- The winner's pass values advance on the cores granted. -/
def advancePass (s : State) (pid : BitVec 6) (l : Nat) (pl : List Nat) : State :=
  let w := (s.part pid).weight l
  if w = 0 then s
  else
    let step (u : State) (c : Nat) : State :=
      { u with pass := tabPut 0#32 u.pass (passKey pid.toNat l c) (u.passOf pid.toNat l c + BitVec.ofNat 32 (65536 / w)) }
    (pl.map coreOf).foldl step s

/-- Each partition's eligible level, as it is now: one that is newly eligible takes up its share from here, and what it forfeited stays
forfeited. -/
def noteEligible (s : State) : State :=
  let one (u : State) (q : Nat × Partition) : State :=
    match eligibleLevel s q.2 with
    | some l => if q.2.eligible.contains l then u else liftPass s q l u
    | none => u
  let same (q : Nat × Partition) : Bool := q.2.eligible == (eligibleLevel s q.2).toList
  if s.parts.all same then s
  else
    let s1 := s.parts.foldl one s
    { s1 with parts := s1.parts.map (fun q => (q.1, { q.2 with eligible := (eligibleLevel s q.2).toList })) }

/-! ### Starting (spec/01_execution_model.md R11, R12) and resuming (spec/09_translation_and_faults.md R171) -/

/-- A gang starts from a record: all its members are bound in one step. -/
def startGang (s : State) (pid : BitVec 6) (area : Nat) (r : Rec64) (pl : List Nat) : State :=
  let rcd : Rec64 := putSlice r (448 + 28) 24 (BitVec.ofNat 24 (area / 2 ^ 28))
  let g : Gang := {
    area := area
    part := pid
    rcd := rcd
    slots := pl.map some
    retired := []
    preempt := none
    saving := false
    images := []
    since := s.cycle
    throttle := 0 }
  let s1 := { s with gangs := s.gangs ++ [g] }
  let s2 := s1.updPart pid (fun p => { p with areas := insNat area p.areas })
  pl.zipIdx.foldl (fun u x => startStrand u x.1 pid area x.2 rcd) s2

/-- A SAVED gang returns: its surviving members in ascending rank take the slots in ascending order. -/
def resumeGang (s : State) (g : Gang) (r : Rec64) (pl : List Nat) : State :=
  let pairs := g.survivors.zip pl
  let rcd := recSetPrio g.rcd (recPrio r)
  let s1 := s.updGang g.part g.area (fun x => { x with
    rcd := rcd
    slots := (List.range x.slots.length).map (fun k => (pairs.find? (fun y => y.1 == k)).map (fun y => y.2))
    images := []
    since := s.cycle
    throttle := 0 })
  pairs.foldl (fun u y => match g.images.find? (fun i => i.1 == y.1) with
    | some i => resumeStrand u y.2 { i.2 with rcd := rcd }
    | none => u) s1

/-- The head record of a partition starts or resumes on its slots. -/
def grant (s : State) (pid : BitVec 6) (want : Nat) (l : Nat) (r : Rec64) (pl : List Nat) : State :=
  let s1 := popHead (advancePass s pid l pl) pid l
  if recSaved r then (match s1.gang? pid (recGarea r) with
      | some g => resumeGang s1 g r pl
      | none => s1)
    else
      let free := freeAreas (s.part pid)
      let area := if free.contains want then want else free.headD 0
      startGang s1 pid area r pl

/-! ### Victims (spec/01_execution_model.md R18, spec/07_queues_and_scheduling.md R126) -/

/-- Is a gang SAVING: is its pre-emption requested, or its save under way (spec/01_execution_model.md R16)? -/
def Gang.leaving (g : Gang) : Bool := g.preempt.isSome || g.saving

/-- May a gang be pre-empted for a record of level x: bound, of a numerically higher level, and not protected by its join? -/
def mayPreempt (s : State) (pid : BitVec 6) (x : Nat) (g : Gang) : Bool :=
  g.part == pid && !g.bound.isEmpty && !g.leaving && decide (x < (recPrio g.rcd).toNat) &&
    (match knownPrio s pid (recJoin g.rcd).toNat with
      | some q => decide (x ≤ q.toNat)
      | none => true)

/-- Would the record have its slots on a cluster if the slots of some gangs, and those held by SAVING gangs, fell free? -/
def fitsOn (s : State) (p : Partition) (gs : List Gang) (cl w : Nat) : Bool :=
  let freed := (gs ++ s.gangs.filter Gang.leaving).flatMap Gang.bound
  decide (w ≤ (clusterSlots s p (fun k => slotFree s k || freed.contains k) cl).length)

/-- The cluster of a gang. -/
def Gang.cluster (g : Gang) : Nat := clusterOf (coreOf (g.bound.headD 0))

/-- The better of two candidates: the more recently RUNNING, then the lower cluster, then the lower gang index. -/
def laterGang (a b : Gang) : Gang :=
  if a.since ≠ b.since then (if a.since < b.since then b else a)
  else if a.cluster ≠ b.cluster then (if b.cluster < a.cluster then b else a)
  else if (recGidx b.rcd).toNat < (recGidx a.rcd).toNat then b else a

/-- The victim for a head record of level x that needs w slots. -/
def victim (s : State) (pid : BitVec 6) (x w : Nat) : Option Gang :=
  let p := s.part pid
  let free := s.gangs.filter (mayPreempt s pid x)
  let c1 := free.filter (fun g => fitsOn s p (free.filter (fun h => h.cluster == g.cluster)) g.cluster w)
  let top := c1.foldl (fun m g => max m (recPrio g.rcd).toNat) 0
  let c2 := c1.filter (fun g => (recPrio g.rcd).toNat == top)
  let alone := c2.filter (fun g => fitsOn s p [g] g.cluster w)
  match (if alone.isEmpty then c2 else alone) with
  | [] => none
  | g :: rest => some (rest.foldl laterGang g)

/-- The scheduler requests a pre-emption for a head record that cannot be placed, once every SAVING gang has freed its slots. -/
def seekVictim (s : State) (pid : BitVec 6) : State :=
  let p := s.part pid
  match (headLevel p).bind (fun l => (ringHead s p l).map (fun r => (l, r))) with
  | none => s
  | some (l, r) =>
    if !areaReady p r || s.gangs.any Gang.leaving then s
    else match victim s pid l (recMembers s pid r) with
      | none => s
      | some g => s.updGang g.part g.area (fun x => { x with preempt := some s.cycle })

/-- SCHEDULER_SERVE: the head record of the first non-empty queue of partition `p` starts or resumes, in the free gang area `area` or else
the lowest; or a victim is chosen for it. No record starts while a power pre-emption is in force (spec/20_host_links_and_bringup.md R378),
while the package is idle in P2 or off, or while a priority move of the partition is due. A head record that cannot be read is dropped
(Assumption 62), and the engine waits for a self-test of its row. -/
def execSchedulerServe (s0 : State) : Out :=
  let pid := s0.arg.p
  let p := s0.part pid
  if s0.powerHold || s0.power == .p2 || s0.power == .p3 || !p.active || moveDue s0 pid then .next s0
  else
    let s := s0.hold ((headLevel p).any (fun l => ringTested s0 p l 1))
    match (headLevel p).filter (fun l => (ringHead s p l).isNone), startable s pid with
    | some l, _ => .next (dropHead s pid l)
    | none, some (l, r, pl) => if outbid s pid l pl then .next s else .next (grant s pid s.arg.area l r pl)
    | none, none => .next (seekVictim s pid)

/-! ### Pre-emption (spec/09_translation_and_faults.md R168, R169) -/

/-- PREEMPTION_HALT: the members of the gang at `area`, whose pre-emption has been requested, halt. With `flag`, Yalush pre-empts a gang
with a PARKED member (spec/09_translation_and_faults.md R165). -/
def execPreemptionHalt (s : State) : Out :=
  match s.gang? s.arg.p s.arg.area with
  | none => .next s
  | some g =>
    let parked := g.bound.any (fun k => (s.strand k).phase == .parked && (s.strand k).reported)
    if g.saving || g.bound.isEmpty || !(g.preempt.isSome || (s.arg.flag && parked)) then .next s
    else
      let s1 := g.bound.foldl (haltStrand (s.arg.flag && g.preempt.isNone)) s
      .next (s1.updGang g.part g.area (fun x => { x with saving := true }))

/-- The save of a gang is complete: its slots are free, and its record is back at the front of its queue
(spec/01_execution_model.md R17, spec/07_queues_and_scheduling.md R124). -/
def gangSaved (s : State) (g : Gang) : State :=
  let images := (g.slots.zipIdx.filterMap (fun x => x.1.map (fun k => (x.2, { saveImage (s.strand k) with reported := true }))))
  let s0 := g.bound.foldl (fun u k => keepFault u (s.strand k)) s
  let s1 := { s0 with strands := s.strands.filter (fun kt => !g.bound.contains kt.1) }
  let s2 := noteJoin (s1.updGang g.part g.area (fun x => { x with
    slots := x.slots.map (fun _ => none)
    images := images
    preempt := none
    saving := false })) g.part (recJoin g.rcd).toNat
  let l := gangLevel s2 g
  pushFront s2 g.part l (recSetPrio (recSetSaved g.rcd g.area) (BitVec.ofNat 2 l))

/-- SAVE_COMPLETE: everything the members of the gang at `area` had under way is over; each is saved, and the gang is SAVED. -/
def execSaveComplete (s : State) : Out :=
  match s.gang? s.arg.p s.arg.area with
  | none => .next s
  | some g =>
    if !g.saving || !g.bound.all (saveReady s) then .next s
    else
      let s1 := g.bound.foldl saveStrand s
      .next (gangSaved s1 ((s1.gang? g.part g.area).getD g))

/-! ### The watchdog and fault records (spec/09_translation_and_faults.md R160, R167) -/

/-- Has the strand's run time reached its limit? -/
def watchdogDue (t : Strand) : Bool := t.wdlim != 0#64 && decide (t.wdlim.toNat ≤ t.runtk.toNat)

/-- WATCHDOG: the strand in `slot` traps before its next issue; a wait in progress is abandoned and restarts on resume. An instruction that
has issued and holds back later ones finishes first. -/
def execWatchdog (s : State) : Out :=
  let t := s.strand s.arg.slot
  if t.phase ≠ .running ∨ watchdogDue t = false ∨ t.out.any (fun a => a.blocks && !isBwait a) = true then .next s
  else
    let s1 := abandonWait s s.arg.slot
    .next (raiseAt s1 s.arg.slot t.pc (Trap.plain .watchdog))

/-- FAULT_RECORD_APPEND: the pending record of the strand in `slot` joins its partition's fault queue, once there is room; one of the
hypervisor stage joins the hypervisor's. Slot 1,152 stands for the records whose strand has left its slot, at position `idx`. -/
def execFaultRecordAppend (s : State) : Out :=
  if s.arg.slot = 1152 then
    match s.lateFaults[s.arg.idx]? with
    | none => .next s
    | some (p, r) =>
      if r.hyp || faultRoom s p then .next (pushFault { s with lateFaults := dropNth s.lateFaults s.arg.idx } p r) else .next s
  else
    let t := s.strand s.arg.slot
    match t.fault with
    | none => .next s
    | some r =>
      if t.reported || !(r.hyp || faultRoom s t.part) then .next s
      else .next (pushFault (s.setStrand s.arg.slot { t with reported := true }) t.part r)

end Sys2Proof.Machine
end

