-- ==== Sys2Proof/Machine/Errors.lean ====
section
/-! DEFINITION. Heat and errors of the memories and register files: thermal flags, corrected and uncorrected errors, and what a
self-test finds (spec/05_memories.md R84, R94, R101 to R103, spec/03_matrix_registers.md R60). -/

namespace Sys2Proof.Machine

open Sys2Proof

/-! ### Heat -/

/-- MSM_THERMAL_LIMIT: the MSM of core `num` exceeds its limit; THERM reads 1 in every strand of the core (spec/05_memories.md R84). -/
def execMsmThermalLimit (s : State) : Out :=
  if s.arg.num < 288 then .next { s with therm := insNat s.arg.num s.therm } else .next s

/-- MSM_THERMAL_CLEAR: the MSM of core `num` has cooled by 5 degrees below the limit. -/
def execMsmThermalClear (s : State) : Out := .next { s with therm := s.therm.filter (fun c => c != s.arg.num) }

/-- HBM_THERMAL_LEVEL: the level of stack `num` becomes `idx`; level 3 is left by package reset only (spec/05_memories.md R94). -/
def execHbmThermalLevel (s : State) : Out :=
  let k := s.arg.num
  if k < 12 ∧ s.arg.idx < 4 ∧ slice s.hbmth (2 * k) 2 ≠ 3#2 then
    .next { s with hbmth := putSlice s.hbmth (2 * k) 2 (BitVec.ofNat 2 s.arg.idx) }
  else .next s

/-! ### Errors -/

/-- The partition whose ranges of memory hold an address. -/
def ownerOfPa (s : State) (pa : Nat) : Option (BitVec 6) :=
  (s.parts.find? (fun q => q.2.active && q.2.hbmr.any (fun r => decide (r.1 ≤ pa) && decide (pa < r.2)))).map
    (fun q => BitVec.ofNat 6 q.1)

/-- The structure code of spec/12_barriers_and_counters.md R215. -/
def structureCode : EccTarget → Nat
  | .hbm _ => 0x01
  | .l2 _ => 0x02
  | .msm _ _ _ => 0x03
  | .vector _ _ => 0x04
  | .scalar _ _ => 0x05
  | .mask _ _ => 0x06
  | .csr _ _ => 0x07
  | .other _ => 0x08

/-- The slot whose scratch frame it is. -/
def scratchOwner (s : State) (core f : Nat) : Option Nat :=
  ((List.range 4).map (fun j => 4 * core + j)).find? (fun k => (s.strand k).scrFrames.contains f)

/-- The ring, die, strand and address of an error's record. -/
def errorPlace (s : State) (e : EccTarget) : Option (BitVec 6) × Nat × BitVec 11 × Nat :=
  let slotOf (k : Nat) : Option (BitVec 6) × Nat × BitVec 11 × Nat :=
    if slotFree s k then (none, dieOf (coreOf k), noSid, 0) else (some (s.strand k).part, dieOf (coreOf k), sidOf k, 0)
  match e with
  | .hbm pa => (ownerOfPa s pa, dieOfPa pa, noSid, pa)
  | .l2 pa => (ownerOfPa s pa, dieOfPa pa, noSid, pa)
  | .msm core f _ =>
    (match scratchOwner s core f with
      | some k => slotOf k
      | none =>
        if tabHas s.frames (frameKey core f) then (some (frameOf s core f).part, dieOf core, noSid, 0)
        else (none, dieOf core, noSid, 0))
  | .vector k _ => slotOf k
  | .scalar k _ => slotOf k
  | .mask k _ => slotOf k
  | .csr k _ => slotOf k
  | .other die => (none, die, noSid, 0)

/-- An error's record in the error ring. -/
def logError (s : State) (e : EccTarget) (code detail : Nat) : State :=
  let (p, die, sid, addr) := errorPlace s e
  errLog p die sid code addr detail s

/-- A targeted self-test follows an error in an SRAM row, from this tick (spec/05_memories.md R101). -/
def startTest (s : State) (e : EccTarget) (corrected : Bool) : State :=
  match e with
  | .hbm _ => s
  | _ => { s with tests := s.tests ++ [(e, corrected, s.cycle)] }

/-- ECC_CORRECTED: the data is delivered corrected, so nothing changes but the record and the self-test (spec/05_memories.md R101). -/
def execEccCorrected (s : State) : Out :=
  .next (startTest (logError s s.arg.ecc 0x01 (structureCode s.arg.ecc)) s.arg.ecc true)

/-- Poison where an uncorrected error lies (spec/05_memories.md R103). -/
def poisonTarget (s : State) (e : EccTarget) : State :=
  match e with
  | .hbm pa => if inHbm pa then poisonSectors s [pa / 32] else s
  | .l2 pa => if inHbm pa then poisonSectors s [pa / 32] else s
  | .msm core f sector =>
    if 1024 ≤ sector then s
    else match scratchOwner s core f with
      | some k =>
        (match findPos (fun x => x == f) (s.strand k).scrFrames with
          | some i => s.updSlot k (fun t => { t with nearBad := insNat (1024 * i + sector) t.nearBad })
          | none => s)
      | none =>
        if tabHas s.frames (frameKey core f) then
          let fr := frameOf s core f
          { s with frames := tabSet s.frames (frameKey core f) { fr with bad := insNat sector fr.bad } }
        else s
  | .vector k r =>
    if slotFree s k || decide (128 ≤ r) then s
    else s.updSlot k (fun t => { t with marks := t.marks.filter (fun m => m.reg != r) ++ [⟨r, 0, 16384, .poison, 0, 0⟩] })
  | .scalar k r =>
    if slotFree s k || decide (r = 0) || decide (32 ≤ r) then s else s.updSlot k (fun t => { t with badS := insNat r t.badS })
  | .mask k r =>
    if slotFree s k || decide (r = 0) || decide (8 ≤ r) then s else s.updSlot k (fun t => { t with badK := insNat r t.badK })
  | .csr k n => if slotFree s k then s else s.updSlot k (fun t => { t with badC := insNat n t.badC })
  | .other _ => s

/-- UNCORRECTED_ERROR: the sector or register is poisoned, which is recorded, and a self-test starts. -/
def execUncorrectedError (s : State) : Out :=
  .next (startTest (poisonTarget (logError s s.arg.ecc 0x02 (structureCode s.arg.ecc)) s.arg.ecc) s.arg.ecc false)

/-! ### Rows out of service (spec/05_memories.md R102, spec/03_matrix_registers.md R60) -/

/-- The limits of a core's strands after a frame was withdrawn; FQ and SF follow (spec/02_strand_registers.md R39), and
register frames above FQ are given up (spec/03_matrix_registers.md R51). -/
def lowerLimits (s : State) (core : Nat) : State :=
  (List.range 4).foldl (fun u j =>
    let k := 4 * core + j
    if slotFree u k then u
    else evictToQuota (u.updSlot k (fun t =>
      let lim := t.lim.toNat - 1
      let (fq, sf) := fitQuota lim t.fq.toNat t.sf.toNat
      cutScratch { t with lim := BitVec.ofNat 9 lim, fq := BitVec.ofNat 9 fq, sf := BitVec.ofNat 9 sf } sf)) k) s

/-- Is the frame read or written by work under way, so that its withdrawal waits (Assumption 31)? That work waits for the test for its 2,000
ticks at most (spec/05_memories.md R101), and then goes on to its end. -/
def frameBusy (s : State) (core f : Nat) : Bool :=
  (List.range 4).any (fun j =>
    let t := s.strand (4 * core + j)
    t.fillq.any (fun m => m.frame == f) || t.spillq.any (fun m => m.frame == f) ||
      t.mq.any (fun c => (c.started && c.srcs.any (fun x => x.2 == .frame f)) || c.frame == some f))

/-- Poison over the whole backing area of a register. -/
def poisonBacking (s : State) (p : BitVec 6) (va : Nat) : State :=
  match ownPlace s p noSid va 32768 .write with
  | .error u => u
  | .ok (pa, _, s1) => poisonSectors s1 ((List.range 1024).map (fun i => pa / 32 + i))

/-- The slot of a map on a core. -/
def mapSlot (s : State) (core mapbase : Nat) (p : BitVec 6) : Option Nat :=
  ((List.range 4).map (fun j => 4 * core + j)).find? (fun k =>
    (s.strand k).phase != .free && (s.strand k).mapbase == mapbase && decide ((s.strand k).part = p))

/-- Commands and sends that have bound a frame read another source instead. -/
def unbindFrame (t : Strand) (f : Nat) (to_ : Source) : Strand :=
  let fix (x : Nat × Source) : Nat × Source := if x.2 = .frame f then (x.1, to_) else x
  { t with
    mq := t.mq.map (fun c => { c with srcs := c.srcs.map fix })
    sendq := t.sendq.map (fun c => { c with reg := c.reg.map fix }) }

/-- The value in a register's backing area is kept for the readers that are still to read it there, before it is written over
(spec/03_matrix_registers.md R52). -/
def keepBacking (s : State) (slot r : Nat) : State :=
  let t := s.strand slot
  if !backingReads t r then s
  else match backingTile s t.part (sidOf slot) (backingVa t r) with
    | .ok (k, s1) => s1.updSlot slot (fun u => keepOld u r k)
    | .error u => u

/-- The register that held a withdrawn frame (spec/03_matrix_registers.md R60): its value is spilled when it was only there, is dropped when
the backing area has it, and is poisoned there when it was lost; the register becomes ABSENT. The readers of an old frame keep its value. -/
def releaseFrame (s : State) (core f : Nat) (corrected : Bool) : State :=
  let fr := frameOf s core f
  let gone (u : State) : State := { u with frames := tabErase u.frames (frameKey core f) }
  match mapSlot s core fr.mapbase fr.part with
  | some k =>
    let t := s.strand k
    let e := t.entry fr.reg
    let mine := holdsFrame e.state && e.frame.toNat == f
    let s1 :=
      if !mine then s
      else if !corrected then poisonBacking (if e.state = stDirty then keepBacking s k fr.reg else s) fr.part (backingVa t fr.reg)
      else if e.state = stDirty then writeBackReg k (keepBacking s k fr.reg) fr.reg
      else s
    let old : Source := if mine then .backing else .kept fr.data (if corrected then fr.bad else List.range 1024)
    gone (s1.updSlot k (fun u => unbindFrame (if mine then u.moveEntry fr.reg stAbsent 0 else u) f old))
  | none =>
    let s1 := if corrected then s else poisonBacking s fr.part (fr.mapbase - 0x01080000 + 32768 * fr.reg)
    gone (absentInMemory s1 fr)

/-- A register frame of the strand is given up at once: the victim's value goes to its backing area. -/
def spillNow (s : State) (slot : Nat) : State :=
  let s1 := match oldestIn (s.strand slot) stDirty with
    | some r => writeBackReg slot (keepBacking s slot r) r
    | none => s
  match oneVictim s1 slot with
  | .made u => u
  | _ => s1

/-- A scratch frame is withdrawn: its lines move to another frame, a free one, the oldest of a strand that is no longer bound, or one that
the strand gives up (spec/03_matrix_registers.md R51); lost lines are poisoned. None while there is no such frame: a withdrawn frame is no
longer scratch, and a strand holds exactly SF scratch frames, so the withdrawal waits. -/
def releaseScratch (s : State) (k f : Nat) (corrected : Bool) : Option State :=
  let t := s.strand k
  match findPos (fun x => x == f) t.scrFrames with
  | none => some s
  | some i =>
    let lost := if corrected then [] else (List.range 1024).map (fun j => 1024 * i + j)
    let s1 := s.updSlot k (fun u => { u with nearBad := lost.foldl (fun l x => insNat x l) u.nearBad })
    let room := if (scratchFrame s1 (coreOf k)).isSome then s1 else spillNow s1 k
    (scratchFrame room (coreOf k)).map (fun x => x.2.updSlot k (fun u => { u with scrFrames := setNth u.scrFrames i x.1 }))

/-- The core of a register file. -/
def withdrawCore (s : State) (k : Nat) : State :=
  let core := coreOf k
  { s with
    deadCores := insNat core s.deadCores
    gangs := s.gangs.map (fun g =>
      if g.preempt.isNone && !g.saving && g.bound.any (fun j => coreOf j == core) then { g with preempt := some s.cycle } else g) }

/-- SELF_TEST_COMPLETE: the self-test at position `idx` ends. With `flag` the fault is lasting, and its row, which the test names by `num` where
it is no MSM frame, goes out of service; otherwise the row returns to service. -/
def execSelfTestComplete (s : State) : Out :=
  match s.tests[s.arg.idx]? with
  | none => .next s
  | some (e, corrected, _) =>
    let s1 := { s with tests := dropNth s.tests s.arg.idx }
    if !s.arg.flag then .next s1
    else
      let row := match e with
        | .msm _ f _ => f
        | _ => s.arg.num % 2 ^ 32
      let out (u : State) : State := logError u e 0x03 (structureCode e + 2 ^ 32 * row)
      match e with
      | .msm core f _ =>
        if frameBusy s core f then .next s
        else
          let s2 := out s1
          let s3 := { s2 with withdrawn := insNat (frameKey core f) s2.withdrawn }
          .next (match scratchOwner s core f with
            | some k => (releaseScratch (lowerLimits s3 core) k f corrected).getD s
            | none => lowerLimits (if tabHas s.frames (frameKey core f) then releaseFrame s3 core f corrected else s3) core)
      | .scalar k _ => .next (withdrawCore (out s1) k)
      | .mask k _ => .next (withdrawCore (out s1) k)
      | .csr k _ => .next (withdrawCore (out s1) k)
      | .hbm _ => .next s1
      | .l2 _ => .next (out s1)
      | .vector k _ =>
        -- the physical register leaves the pool; the value that it held moves to a spare, which it waits for
        let core := coreOf k
        if sparesFree s core = 0 then .next s
        else .next { out s1 with vregLost := tabPut 0 s1.vregLost core (tabGet 0 s1.vregLost core + 1) }
      | .other _ => .next (out s1)

end Sys2Proof.Machine
end

