-- ==== Sys2Proof/WellFormed.lean ====
section
/-! DEFINITION. Which instructions have a word that the scanner accepts: the limits on fields
(spec/13_encoding.md R225 to R231). The steps without an encoding have none. -/

namespace Sys2Proof

/-- Is this the number of a CSR of the map (spec/02_strand_registers.md R38)? -/
def csrListed (c : BitVec 12) : Bool :=
  let n := c.toNat
  decide (n ≤ 0x006) || (decide (0x008 ≤ n) && decide (n ≤ 0x00D)) || (decide (0x010 ≤ n) && decide (n ≤ 0x014)) ||
  (decide (0x018 ≤ n) && decide (n ≤ 0x01C)) || (decide (0x020 ≤ n) && decide (n ≤ 0x023)) ||
  (decide (0x028 ≤ n) && decide (n ≤ 0x02A)) || (decide (0x030 ≤ n) && decide (n ≤ 0x042))

/-- Does the CSR have an RW or W1C field (spec/02_strand_registers.md R36, R38)? -/
def csrWritable (c : BitVec 12) : Bool :=
  let n := c.toNat
  n == 0x00A || n == 0x00C || n == 0x00D || n == 0x012 || n == 0x01C || (decide (0x030 ≤ n) && decide (n ≤ 0x03F))

/-- Has the instruction a word that the scanner accepts under the full feature mask? -/
def wellFormed : Instr → Bool
  | .add _ _ _ => true
  | .sub _ _ _ => true
  | .and _ _ _ => true
  | .or _ _ _ => true
  | .xor _ _ _ => true
  | .andn _ _ _ => true
  | .sll _ _ _ => true
  | .srl _ _ _ => true
  | .sra _ _ _ => true
  | .slt _ _ _ => true
  | .sltu _ _ _ => true
  | .min _ _ _ => true
  | .max _ _ _ => true
  | .minu _ _ _ => true
  | .maxu _ _ _ => true
  | .mul _ _ _ => true
  | .mulh _ _ _ => true
  | .mulhu _ _ _ => true
  | .div _ _ _ => true
  | .divu _ _ _ => true
  | .rem _ _ _ => true
  | .remu _ _ _ => true
  | .clz _ _ => true
  | .ctz _ _ => true
  | .popc _ _ => true
  | .csel _ _ _ => true
  | .addw _ _ _ => true
  | .subw _ _ _ => true
  | .mulw _ _ _ => true
  | .addi _ _ _ => true
  | .andi _ _ _ => true
  | .ori _ _ _ => true
  | .xori _ _ _ => true
  | .slti _ _ _ => true
  | .sltiu _ _ _ => true
  | .lih _ _ _ => true
  | .slli _ _ _ => true
  | .srli _ _ _ => true
  | .srai _ _ _ => true
  | .fadd _ _ _ => true
  | .fsub _ _ _ => true
  | .fmul _ _ _ => true
  | .fma _ _ _ => true
  | .fmin _ _ _ => true
  | .fmax _ _ _ => true
  | .fcvtws _ _ => true
  | .fcvtsw _ _ => true
  | .flt _ _ _ => true
  | .feq _ _ _ => true
  | .ld _ _ _ _ => true
  | .lds _ _ _ z => (z != 3#2)
  | .st _ _ _ _ => true
  | .lda _ _ c _ => (c != 3#2)
  | .str _ _ c _ => (c != 3#2)
  | .fence c => (c != 3#2)
  | .amoAdd _ _ _ _ _ _ c _ => (c != 3#2)
  | .amoAnd _ _ _ _ _ _ c _ => (c != 3#2)
  | .amoOr _ _ _ _ _ _ c _ => (c != 3#2)
  | .amoXor _ _ _ _ _ _ c _ => (c != 3#2)
  | .amoSmin _ _ _ _ _ _ c _ => (c != 3#2)
  | .amoSmax _ _ _ _ _ _ c _ => (c != 3#2)
  | .amoUmin _ _ _ _ _ _ c _ => (c != 3#2)
  | .amoUmax _ _ _ _ _ _ c _ => (c != 3#2)
  | .amoSwap _ _ _ _ _ c _ => (c != 3#2)
  | .amoFadd _ _ _ _ _ _ c => (c != 3#2)
  | .cas _ _ _ _ _ c _ => (c != 3#2)
  | .stn _ _ _ c _ => (c != 3#2)
  | .bcEq _ _ _ => true
  | .bcNe _ _ _ => true
  | .bcLt _ _ _ => true
  | .bcGe _ _ _ => true
  | .bcLtu _ _ _ => true
  | .bcGeu _ _ _ => true
  | .bcBset _ _ _ => true
  | .bcBclr _ _ _ => true
  | .j _ => true
  | .jal _ => true
  | .jalr _ _ _ => true
  | .callt _ _ => true
  | .nop _ => true
  | .csrr _ c => csrListed c
  | .csrw _ c => csrWritable c
  | .csrs _ c => csrWritable c
  | .csrc _ c => csrWritable c
  | .trap _ => true
  | .bkpt => true
  | .wfe _ => true
  | .exit => true
  | .yield => true
  | .wsb m => (m != 0#7)
  | .fork _ _ => true
  | .vcfg _ _ g e => decide (g ≤ e)
  | .vadd _ _ _ _ _ _ => true
  | .vsub _ _ _ _ _ _ => true
  | .vmul _ _ _ _ _ _ => true
  | .vmulh _ _ _ _ _ _ => true
  | .vand _ _ _ _ _ _ => true
  | .vor _ _ _ _ _ _ => true
  | .vxor _ _ _ _ _ _ => true
  | .vandn _ _ _ _ _ _ => true
  | .vsll _ _ _ _ _ _ => true
  | .vsrl _ _ _ _ _ _ => true
  | .vsra _ _ _ _ _ _ => true
  | .vmin _ _ _ _ _ _ => true
  | .vmax _ _ _ _ _ _ => true
  | .vminu _ _ _ _ _ _ => true
  | .vmaxu _ _ _ _ _ _ => true
  | .vadds _ _ _ _ _ _ => true
  | .vcmpEq d _ _ _ _ _ => (d != 0#3)
  | .vcmpNe d _ _ _ _ _ => (d != 0#3)
  | .vcmpLt d _ _ _ _ _ => (d != 0#3)
  | .vcmpLe d _ _ _ _ _ => (d != 0#3)
  | .vcmpLtu d _ _ _ _ _ => (d != 0#3)
  | .vcmpLeu d _ _ _ _ _ => (d != 0#3)
  | .vcmpFeq d _ _ _ _ _ _ => (d != 0#3)
  | .vcmpFlt d _ _ _ _ _ _ => (d != 0#3)
  | .vfadd _ _ _ _ _ _ _ => true
  | .vfsub _ _ _ _ _ _ _ => true
  | .vfmul _ _ _ _ _ _ _ => true
  | .vfmin _ _ _ _ _ _ _ => true
  | .vfmax _ _ _ _ _ _ _ => true
  | .vfdiv _ _ _ _ _ _ _ => true
  | .vfsqrt _ _ _ _ _ => true
  | .vfscale _ _ _ _ _ _ _ => true
  | .vfma _ _ _ _ _ _ _ => true
  | .vfms _ _ _ _ _ _ _ => true
  | .vfnma _ _ _ _ _ _ _ => true
  | .vfnms _ _ _ _ _ _ _ => true
  | .vfcvt _ _ _ _ _ => true
  | .vfcvti _ _ _ _ _ => true
  | .vfneg _ _ _ _ _ => true
  | .vfabs _ _ _ _ _ => true
  | .vfclass _ _ _ _ _ => true
  | .vredsum _ _ _ _ => true
  | .vredmax _ _ _ _ => true
  | .vredmin _ _ _ _ => true
  | .vredmaxu _ _ _ _ => true
  | .vredminu _ _ _ _ => true
  | .vfredsum _ _ _ _ _ => true
  | .vfredmax _ _ _ _ _ => true
  | .vfredmin _ _ _ _ _ => true
  | .vperm _ _ _ _ _ _ => true
  | .vslideup _ _ _ _ _ => true
  | .vslidedn _ _ _ _ _ => true
  | .vcompress _ _ _ _ => true
  | .vexpand _ _ _ _ => true
  | .viota _ _ => true
  | .vrix _ _ _ _ => true
  | .vrixw _ _ _ _ _ => true
  | .vmv _ _ _ _ => true
  | .vsplat _ _ _ => true
  | .vext _ _ _ _ => true
  | .vins _ _ _ => true
  | .vsel _ _ _ _ _ _ => true
  | .vmvi _ _ => true
  | .vmvo _ _ _ => true
  | .kand d _ _ => (d != 0#3)
  | .kor d _ _ => (d != 0#3)
  | .kxor d _ _ => (d != 0#3)
  | .kandn d _ _ => (d != 0#3)
  | .kpopc _ _ => true
  | .kfirst _ _ => true
  | .kbrka d _ => (d != 0#3)
  | .kbrki d _ => (d != 0#3)
  | .gbcast _ _ => true
  | .grecv _ => true
  | .vld _ _ _ _ _ => true
  | .vlds _ _ _ _ _ _ => true
  | .vldx _ _ _ _ _ _ _ => true
  | .vgl _ _ _ _ _ _ _ => true
  | .vst _ _ _ _ _ _ => true
  | .vsts _ _ _ _ _ _ _ => true
  | .vstx _ _ _ _ _ _ _ => true
  | .vsc _ _ _ k _ _ _ => (k != 0#3)
  | .vldff _ _ _ _ _ => true
  | .vappend _ _ _ _ _ _ _ => true
  | .vrred _ _ _ _ _ _ _ => true
  | .tshape _ _ _ => true
  | .setmw _ => true
  | .tpref _ p w => (p != 3#2) && (w != 3#2)
  | .tdrop _ p w => (p != 3#2) && (w != 3#2)
  | .tzero _ p w => (p != 3#2) && (w != 3#2)
  | .tloadA _ _ _ y p w => (y != 3#2) && (p != 3#2) && (w != 3#2)
  | .tloadB _ _ _ y p w => (y != 3#2) && (p != 3#2) && (w != 3#2)
  | .tloadC _ _ _ p w => (p != 3#2) && (w != 3#2)
  | .tstoreA _ _ _ p w => (p != 3#2) && (w != 3#2)
  | .tstoreB _ _ _ p w => (p != 3#2) && (w != 3#2)
  | .tstoreC _ _ _ p w => (p != 3#2) && (w != 3#2)
  | .tmma _ _ _ _ p w => (p != 3#2) && (w != 3#2)
  | .tmmaSet _ _ _ _ p w => (p != 3#2) && (w != 3#2)
  | .tmmaSw _ _ _ _ p w => (p != 3#2) && (w != 3#2)
  | .tmmaSetSw _ _ _ _ p w => (p != 3#2) && (w != 3#2)
  | .twload _ _ _ p w => (p != 3#2) && (w != 3#2)
  | .vtom _ _ _ p w => (p != 3#2) && (w != 3#2)
  | .mtov _ _ _ _ p w => (p != 3#2) && (w != 3#2)
  | .ttrans _ _ _ p w => (p != 3#2) && (w != 3#2)
  | .tcvt _ _ _ _ p w => (p != 3#2) && (w != 3#2)
  | .tadd _ _ _ _ _ _ p w => (p != 3#2) && (w != 3#2)
  | .cpy _ _ c _ p w => (p != 3#2) && (w != 3#2) && ((c).getLsbD 0 == false)
  | .cpyt _ _ c _ p w => (p != 3#2) && (w != 3#2) && ((c).getLsbD 0 == false)
  | .mdiscard _ c _ p w => (p != 3#2) && (w != 3#2) && ((c).getLsbD 0 == false)
  | .cpyz _ _ c _ p w => (p != 3#2) && (w != 3#2) && ((c).getLsbD 0 == false)
  | .binit _ _ p w => (p != 3#2) && (w != 3#2)
  | .bexp _ _ p w => (p != 3#2) && (w != 3#2)
  | .barr _ _ p w => (p != 3#2) && (w != 3#2)
  | .bwait _ _ p w => (p != 3#2) && (w != 3#2)
  | .btest _ _ p w => (p != 3#2) && (w != 3#2)
  | .pend _ _ p w => (p != 3#2) && (w != 3#2)
  | .bexparr _ _ _ p w => (p != 3#2) && (w != 3#2)
  | .tokp p => (p != 3#2) && (p != 0#2)
  | .tokw w => (w != 3#2) && (w != 0#2)
  | .gset _ g => (g != 0#4)
  | .grst g => (g != 0#4)
  | .msend _ _ p w => (p != 3#2) && (w != 3#2)
  | .tsend _ _ _ p w => (p != 3#2) && (w != 3#2)
  | .tsendAdd _ _ _ p w => (p != 3#2) && (w != 3#2)
  | .rpost _ _ p w => (p != 3#2) && (w != 3#2)
  | .rpostm _ _ _ p w => (p != 3#2) && (w != 3#2)
  | .rcancel _ _ p w => (p != 3#2) && (w != 3#2)
  | .rprobe _ _ _ p w => (p != 3#2) && (w != 3#2)
  | .swp _ _ p w => (p != 3#2) && (w != 3#2)
  | .swnext p w => (p != 3#2) && (w != 3#2)
  | .swexit p w => (p != 3#2) && (w != 3#2)
  | .swake _ _ p w => (p != 3#2) && (w != 3#2)
  | .swakev _ _ _ p w => (p != 3#2) && (w != 3#2)
  | .swakee _ _ p w => (p != 3#2) && (w != 3#2)
  | .stnFlagIncrement => false
  | .msmcfgWrite => false
  | .srseedWrite => false
  | .registerWrite => false
  | .wfeTimeout => false
  | .vectorLoadLateError => false
  | .scatterAck => false
  | .mCommandRetire => false
  | .fillComplete => false
  | .spillComplete => false
  | .copyStart => false
  | .copyRetire => false
  | .guardedCommandDiscard => false
  | .bwaitWake => false
  | .sendStart => false
  | .pullRequest => false
  | .sendComplete => false
  | .headerArrival => false
  | .sequenceGapClose => false
  | .pullComplete => false
  | .pullFail => false
  | .landing => false
  | .destfaultRetry => false
  | .groupOpen => false
  | .sweepEngineFault => false
  | .wakeApply => false
  | .swakeePass => false
  | .scoreboardSlotComplete => false
  | .remoteTimeout => false
  | .tagQuarantineEnd => false
  | .latereply => false
  | .watchdog => false
  | .faultRecordAppend => false
  | .schedulerServe => false
  | .preemptionHalt => false
  | .saveComplete => false
  | .priorityInheritanceMove => false
  | .heldContinuationEnqueue => false
  | .throttleRaise => false
  | .throttleLower => false
  | .powerPreemption => false
  | .yalushResume => false
  | .launchEnd => false
  | .msmThermalLimit => false
  | .msmThermalClear => false
  | .hbmThermalLevel => false
  | .eccCorrected => false
  | .uncorrectedError => false
  | .selfTestComplete => false
  | .shootdownRequest => false
  | .shootdownArrival => false
  | .scanComplete => false
  | .featureMaskNarrow => false
  | .securityAlarm => false
  | .partitionActivate => false
  | .ylLaunch => false
  | .ylWait => false
  | .ylMap => false
  | .ylUnmap => false
  | .ylExmap => false
  | .ylMboxOpen => false
  | .ylMboxClose => false
  | .ylJoinCreate => false
  | .ylFaultPolicy => false
  | .ylQuota => false
  | .ylPeerQuery => false
  | .ylAttest => false
  | .ylExit => false
  | .ylClock => false
  | .ylMemAlloc => false
  | .ylMemFree => false
  | .doorbell => false
  | .functionLevelReset => false
  | .linkDown => false
  | .powerGood => false
  | .recoveryImageSubmit => false
  | .powerCapSet => false
  | .packageReset => false
  | .idleEntry => false
  | .idleExit => false
  | .accessPerformed => false
  | .remoteAccessArrival => false
  | .linkUp => false
  | .powerLoss => false

end Sys2Proof
end

