-- ==== Sys2Proof/Decode.lean ====
section
/-! DEFINITION. The decoder, which is the code scanner's judgement of one word (spec/13_encoding.md R217 to R231), and
after it the encoder, written from the same encoding tables. -/

namespace Sys2Proof

/-- The field of `n` bits whose lowest bit is `lo`. -/
def fld (w : IWord) (lo n : Nat) : BitVec n := w.extractLsb' lo n

/-- Why the scanner refuses a word (spec/09_translation_and_faults.md R172, spec/13_encoding.md R223); reason 6
concerns the page and is not here. -/
inductive ScanReason where
  /-- reason 1: primary opcode 0x00 or reserved -/
  | opcode
  /-- reason 2: function or sub-code not assigned -/
  | function
  /-- reason 3: a field that the form fixes does not hold the fixed value -/
  | fixedField
  /-- reason 4: a field outside its limit -/
  | limit
  /-- reason 5: family excluded by the feature mask -/
  | feature
deriving DecidableEq, Repr

/-- The scanner's reason number (spec/09_translation_and_faults.md R172). -/
def scanReasonCode : ScanReason → Nat
  | .opcode => 1
  | .function => 2
  | .fixedField => 3
  | .limit => 4
  | .feature => 5

/-- Goes on when a test holds, and otherwise reports the reason. -/
def needs (e : ScanReason) (ok : Bool) (r : Except ScanReason Instr) : Except ScanReason Instr :=
  if ok then r else .error e

/-- Family OPR, primary opcode 0x01 (spec/13_encoding.md R224 to R230). -/
def decodeOpr (w : IWord) : Except ScanReason Instr :=
  match (fld w 0 6).toNat with
  | 0 => needs .fixedField ((fld w 6 5 == 0#5))
      (.ok (.add (fld w 21 5) (fld w 16 5) (fld w 11 5)))
  | 1 => needs .fixedField ((fld w 6 5 == 0#5))
      (.ok (.sub (fld w 21 5) (fld w 16 5) (fld w 11 5)))
  | 2 => needs .fixedField ((fld w 6 5 == 0#5))
      (.ok (.and (fld w 21 5) (fld w 16 5) (fld w 11 5)))
  | 3 => needs .fixedField ((fld w 6 5 == 0#5))
      (.ok (.or (fld w 21 5) (fld w 16 5) (fld w 11 5)))
  | 4 => needs .fixedField ((fld w 6 5 == 0#5))
      (.ok (.xor (fld w 21 5) (fld w 16 5) (fld w 11 5)))
  | 5 => needs .fixedField ((fld w 6 5 == 0#5))
      (.ok (.andn (fld w 21 5) (fld w 16 5) (fld w 11 5)))
  | 6 => needs .fixedField ((fld w 6 5 == 0#5))
      (.ok (.sll (fld w 21 5) (fld w 16 5) (fld w 11 5)))
  | 7 => needs .fixedField ((fld w 6 5 == 0#5))
      (.ok (.srl (fld w 21 5) (fld w 16 5) (fld w 11 5)))
  | 8 => needs .fixedField ((fld w 6 5 == 0#5))
      (.ok (.sra (fld w 21 5) (fld w 16 5) (fld w 11 5)))
  | 9 => needs .fixedField ((fld w 6 5 == 0#5))
      (.ok (.slt (fld w 21 5) (fld w 16 5) (fld w 11 5)))
  | 10 => needs .fixedField ((fld w 6 5 == 0#5))
      (.ok (.sltu (fld w 21 5) (fld w 16 5) (fld w 11 5)))
  | 11 => needs .fixedField ((fld w 6 5 == 0#5))
      (.ok (.min (fld w 21 5) (fld w 16 5) (fld w 11 5)))
  | 12 => needs .fixedField ((fld w 6 5 == 0#5))
      (.ok (.max (fld w 21 5) (fld w 16 5) (fld w 11 5)))
  | 13 => needs .fixedField ((fld w 6 5 == 0#5))
      (.ok (.minu (fld w 21 5) (fld w 16 5) (fld w 11 5)))
  | 14 => needs .fixedField ((fld w 6 5 == 0#5))
      (.ok (.maxu (fld w 21 5) (fld w 16 5) (fld w 11 5)))
  | 15 => needs .fixedField ((fld w 6 5 == 0#5))
      (.ok (.mul (fld w 21 5) (fld w 16 5) (fld w 11 5)))
  | 16 => needs .fixedField ((fld w 6 5 == 0#5))
      (.ok (.mulh (fld w 21 5) (fld w 16 5) (fld w 11 5)))
  | 17 => needs .fixedField ((fld w 6 5 == 0#5))
      (.ok (.mulhu (fld w 21 5) (fld w 16 5) (fld w 11 5)))
  | 18 => needs .fixedField ((fld w 6 5 == 0#5))
      (.ok (.div (fld w 21 5) (fld w 16 5) (fld w 11 5)))
  | 19 => needs .fixedField ((fld w 6 5 == 0#5))
      (.ok (.divu (fld w 21 5) (fld w 16 5) (fld w 11 5)))
  | 20 => needs .fixedField ((fld w 6 5 == 0#5))
      (.ok (.rem (fld w 21 5) (fld w 16 5) (fld w 11 5)))
  | 21 => needs .fixedField ((fld w 6 5 == 0#5))
      (.ok (.remu (fld w 21 5) (fld w 16 5) (fld w 11 5)))
  | 22 => needs .fixedField ((fld w 11 5 == 0#5) && (fld w 6 5 == 0#5))
      (.ok (.clz (fld w 21 5) (fld w 16 5)))
  | 23 => needs .fixedField ((fld w 11 5 == 0#5) && (fld w 6 5 == 0#5))
      (.ok (.ctz (fld w 21 5) (fld w 16 5)))
  | 24 => needs .fixedField ((fld w 11 5 == 0#5) && (fld w 6 5 == 0#5))
      (.ok (.popc (fld w 21 5) (fld w 16 5)))
  | 25 => needs .fixedField ((fld w 6 5 == 0#5))
      (.ok (.csel (fld w 21 5) (fld w 16 5) (fld w 11 5)))
  | 26 => needs .fixedField ((fld w 6 5 == 0#5))
      (.ok (.addw (fld w 21 5) (fld w 16 5) (fld w 11 5)))
  | 27 => needs .fixedField ((fld w 6 5 == 0#5))
      (.ok (.subw (fld w 21 5) (fld w 16 5) (fld w 11 5)))
  | 28 => needs .fixedField ((fld w 6 5 == 0#5))
      (.ok (.mulw (fld w 21 5) (fld w 16 5) (fld w 11 5)))
  | _ => .error .function

/-- Family ADDI, primary opcode 0x02 (spec/13_encoding.md R224 to R230). -/
def decodeAddi (w : IWord) : Except ScanReason Instr :=
  .ok (.addi (fld w 21 5) (fld w 16 5) (fld w 0 16))

/-- Family ANDI, primary opcode 0x03 (spec/13_encoding.md R224 to R230). -/
def decodeAndi (w : IWord) : Except ScanReason Instr :=
  .ok (.andi (fld w 21 5) (fld w 16 5) (fld w 0 16))

/-- Family ORI, primary opcode 0x04 (spec/13_encoding.md R224 to R230). -/
def decodeOri (w : IWord) : Except ScanReason Instr :=
  .ok (.ori (fld w 21 5) (fld w 16 5) (fld w 0 16))

/-- Family XORI, primary opcode 0x05 (spec/13_encoding.md R224 to R230). -/
def decodeXori (w : IWord) : Except ScanReason Instr :=
  .ok (.xori (fld w 21 5) (fld w 16 5) (fld w 0 16))

/-- Family SLTI, primary opcode 0x06 (spec/13_encoding.md R224 to R230). -/
def decodeSlti (w : IWord) : Except ScanReason Instr :=
  .ok (.slti (fld w 21 5) (fld w 16 5) (fld w 0 16))

/-- Family SLTIU, primary opcode 0x07 (spec/13_encoding.md R224 to R230). -/
def decodeSltiu (w : IWord) : Except ScanReason Instr :=
  .ok (.sltiu (fld w 21 5) (fld w 16 5) (fld w 0 16))

/-- Family LIH, primary opcode 0x08 (spec/13_encoding.md R224 to R230). -/
def decodeLih (w : IWord) : Except ScanReason Instr :=
  needs .limit ((fld w 18 3 == 0#3))
    (.ok (.lih (fld w 21 5) (fld w 16 2) (fld w 0 16)))

/-- Family SHI, primary opcode 0x09 (spec/13_encoding.md R224 to R230). -/
def decodeShi (w : IWord) : Except ScanReason Instr :=
  match (fld w 6 2).toNat with
  | 0 => needs .fixedField ((fld w 8 8 == 0#8))
      (.ok (.slli (fld w 21 5) (fld w 16 5) (fld w 0 6)))
  | 1 => needs .fixedField ((fld w 8 8 == 0#8))
      (.ok (.srli (fld w 21 5) (fld w 16 5) (fld w 0 6)))
  | 2 => needs .fixedField ((fld w 8 8 == 0#8))
      (.ok (.srai (fld w 21 5) (fld w 16 5) (fld w 0 6)))
  | _ => .error .function

/-- Family FOP, primary opcode 0x0A (spec/13_encoding.md R224 to R230). -/
def decodeFop (w : IWord) : Except ScanReason Instr :=
  match (fld w 0 6).toNat with
  | 0 => needs .fixedField ((fld w 6 5 == 0#5))
      (.ok (.fadd (fld w 21 5) (fld w 16 5) (fld w 11 5)))
  | 1 => needs .fixedField ((fld w 6 5 == 0#5))
      (.ok (.fsub (fld w 21 5) (fld w 16 5) (fld w 11 5)))
  | 2 => needs .fixedField ((fld w 6 5 == 0#5))
      (.ok (.fmul (fld w 21 5) (fld w 16 5) (fld w 11 5)))
  | 3 => needs .fixedField ((fld w 6 5 == 0#5))
      (.ok (.fma (fld w 21 5) (fld w 16 5) (fld w 11 5)))
  | 4 => needs .fixedField ((fld w 6 5 == 0#5))
      (.ok (.fmin (fld w 21 5) (fld w 16 5) (fld w 11 5)))
  | 5 => needs .fixedField ((fld w 6 5 == 0#5))
      (.ok (.fmax (fld w 21 5) (fld w 16 5) (fld w 11 5)))
  | 6 => needs .fixedField ((fld w 11 5 == 0#5) && (fld w 6 5 == 0#5))
      (.ok (.fcvtws (fld w 21 5) (fld w 16 5)))
  | 7 => needs .fixedField ((fld w 11 5 == 0#5) && (fld w 6 5 == 0#5))
      (.ok (.fcvtsw (fld w 21 5) (fld w 16 5)))
  | 8 => needs .fixedField ((fld w 6 5 == 0#5))
      (.ok (.flt (fld w 21 5) (fld w 16 5) (fld w 11 5)))
  | 9 => needs .fixedField ((fld w 6 5 == 0#5))
      (.ok (.feq (fld w 21 5) (fld w 16 5) (fld w 11 5)))
  | _ => .error .function

/-- Family LD, primary opcode 0x0B (spec/13_encoding.md R224 to R230). -/
def decodeLd (w : IWord) : Except ScanReason Instr :=
  .ok (.ld (fld w 21 5) (fld w 16 5) (fld w 2 14) (fld w 0 2))

/-- Family LDS, primary opcode 0x0C (spec/13_encoding.md R224 to R230). -/
def decodeLds (w : IWord) : Except ScanReason Instr :=
  needs .limit (((fld w 0 2) != 3#2))
    (.ok (.lds (fld w 21 5) (fld w 16 5) (fld w 2 14) (fld w 0 2)))

/-- Family ST, primary opcode 0x0D (spec/13_encoding.md R224 to R230). -/
def decodeSt (w : IWord) : Except ScanReason Instr :=
  .ok (.st (fld w 21 5) (fld w 16 5) (fld w 2 14) (fld w 0 2))

/-- Family ORDM, primary opcode 0x0E (spec/13_encoding.md R224 to R230). -/
def decodeOrdm (w : IWord) : Except ScanReason Instr :=
  needs .function (fld w 4 2 != 3#2) <|
  match (fld w 2 2).toNat with
  | 0 => needs .fixedField ((fld w 11 5 == 0#5) && (fld w 6 5 == 0#5))
      (needs .limit ((fld w 1 1 == 1#1))
      (.ok (.lda (fld w 21 5) (fld w 16 5) (fld w 4 2) (fld w 0 1))))
  | 1 => needs .fixedField ((fld w 21 5 == 0#5) && (fld w 6 5 == 0#5))
      (needs .limit ((fld w 1 1 == 1#1))
      (.ok (.str (fld w 16 5) (fld w 11 5) (fld w 4 2) (fld w 0 1))))
  | 2 => needs .fixedField ((fld w 21 5 == 0#5) && (fld w 16 5 == 0#5) && (fld w 11 5 == 0#5) && (fld w 6 5 == 0#5) && (fld w 0 2 == 0#2))
      (.ok (.fence (fld w 4 2)))
  | _ => .error .function

/-- Family AMO, primary opcode 0x0F (spec/13_encoding.md R224 to R230). -/
def decodeAmo (w : IWord) : Except ScanReason Instr :=
  needs .function (fld w 6 2 != 3#2) <|
  match (fld w 0 4).toNat with
  | 0 => needs .limit ((fld w 5 1 == 1#1))
      (.ok (.amoAdd (fld w 21 5) (fld w 16 5) (fld w 11 5) (fld w 10 1) (fld w 9 1) (fld w 8 1) (fld w 6 2) (fld w 4 1)))
  | 1 => needs .limit ((fld w 5 1 == 1#1))
      (.ok (.amoAnd (fld w 21 5) (fld w 16 5) (fld w 11 5) (fld w 10 1) (fld w 9 1) (fld w 8 1) (fld w 6 2) (fld w 4 1)))
  | 2 => needs .limit ((fld w 5 1 == 1#1))
      (.ok (.amoOr (fld w 21 5) (fld w 16 5) (fld w 11 5) (fld w 10 1) (fld w 9 1) (fld w 8 1) (fld w 6 2) (fld w 4 1)))
  | 3 => needs .limit ((fld w 5 1 == 1#1))
      (.ok (.amoXor (fld w 21 5) (fld w 16 5) (fld w 11 5) (fld w 10 1) (fld w 9 1) (fld w 8 1) (fld w 6 2) (fld w 4 1)))
  | 4 => needs .limit ((fld w 5 1 == 1#1))
      (.ok (.amoSmin (fld w 21 5) (fld w 16 5) (fld w 11 5) (fld w 10 1) (fld w 9 1) (fld w 8 1) (fld w 6 2) (fld w 4 1)))
  | 5 => needs .limit ((fld w 5 1 == 1#1))
      (.ok (.amoSmax (fld w 21 5) (fld w 16 5) (fld w 11 5) (fld w 10 1) (fld w 9 1) (fld w 8 1) (fld w 6 2) (fld w 4 1)))
  | 6 => needs .limit ((fld w 5 1 == 1#1))
      (.ok (.amoUmin (fld w 21 5) (fld w 16 5) (fld w 11 5) (fld w 10 1) (fld w 9 1) (fld w 8 1) (fld w 6 2) (fld w 4 1)))
  | 7 => needs .limit ((fld w 5 1 == 1#1))
      (.ok (.amoUmax (fld w 21 5) (fld w 16 5) (fld w 11 5) (fld w 10 1) (fld w 9 1) (fld w 8 1) (fld w 6 2) (fld w 4 1)))
  | 8 => needs .limit ((fld w 10 1 == 0#1) && (fld w 5 1 == 1#1))
      (.ok (.amoSwap (fld w 21 5) (fld w 16 5) (fld w 11 5) (fld w 9 1) (fld w 8 1) (fld w 6 2) (fld w 4 1)))
  | 9 => needs .limit ((fld w 4 2 == 2#2))
      (.ok (.amoFadd (fld w 21 5) (fld w 16 5) (fld w 11 5) (fld w 10 1) (fld w 9 1) (fld w 8 1) (fld w 6 2)))
  | _ => .error .function

/-- Family CAS, primary opcode 0x10 (spec/13_encoding.md R224 to R230). -/
def decodeCas (w : IWord) : Except ScanReason Instr :=
  needs .function (fld w 6 2 != 3#2) <|
  needs .fixedField ((fld w 10 1 == 0#1) && (fld w 0 4 == 0#4))
    (needs .limit ((fld w 5 1 == 1#1))
    (.ok (.cas (fld w 21 5) (fld w 16 5) (fld w 11 5) (fld w 9 1) (fld w 8 1) (fld w 6 2) (fld w 4 1))))

/-- Family STN, primary opcode 0x11 (spec/13_encoding.md R224 to R230). -/
def decodeStn (w : IWord) : Except ScanReason Instr :=
  needs .function (fld w 4 2 != 3#2) <|
  needs .fixedField ((fld w 6 5 == 0#5) && (fld w 2 2 == 0#2))
    (needs .limit ((fld w 1 1 == 1#1))
    (.ok (.stn (fld w 21 5) (fld w 16 5) (fld w 11 5) (fld w 4 2) (fld w 0 1))))

/-- Family BC, primary opcode 0x12 (spec/13_encoding.md R224 to R230). -/
def decodeBc (w : IWord) : Except ScanReason Instr :=
  match (fld w 23 3).toNat with
  | 0 => .ok (.bcEq (fld w 18 5) (fld w 13 5) (fld w 0 13))
  | 1 => .ok (.bcNe (fld w 18 5) (fld w 13 5) (fld w 0 13))
  | 2 => .ok (.bcLt (fld w 18 5) (fld w 13 5) (fld w 0 13))
  | 3 => .ok (.bcGe (fld w 18 5) (fld w 13 5) (fld w 0 13))
  | 4 => .ok (.bcLtu (fld w 18 5) (fld w 13 5) (fld w 0 13))
  | 5 => .ok (.bcGeu (fld w 18 5) (fld w 13 5) (fld w 0 13))
  | 6 => .ok (.bcBset (fld w 18 5) (fld w 13 5) (fld w 0 13))
  | 7 => .ok (.bcBclr (fld w 18 5) (fld w 13 5) (fld w 0 13))
  | _ => .error .function

/-- Family J, primary opcode 0x13 (spec/13_encoding.md R224 to R230). -/
def decodeJ (w : IWord) : Except ScanReason Instr :=
  .ok (.j (fld w 0 26))

/-- Family JAL, primary opcode 0x14 (spec/13_encoding.md R224 to R230). -/
def decodeJal (w : IWord) : Except ScanReason Instr :=
  .ok (.jal (fld w 0 26))

/-- Family JALR, primary opcode 0x15 (spec/13_encoding.md R224 to R230). -/
def decodeJalr (w : IWord) : Except ScanReason Instr :=
  .ok (.jalr (fld w 21 5) (fld w 16 5) (fld w 0 16))

/-- Family CALLT, primary opcode 0x16 (spec/13_encoding.md R224 to R230). -/
def decodeCallt (w : IWord) : Except ScanReason Instr :=
  needs .fixedField ((fld w 21 5 == 0#5))
    (.ok (.callt (fld w 16 5) (fld w 0 16)))

/-- Family SYS, primary opcode 0x17 (spec/13_encoding.md R224 to R230). -/
def decodeSys (w : IWord) : Except ScanReason Instr :=
  match (fld w 12 4).toNat with
  | 0 => needs .fixedField ((fld w 21 5 == 0#5) && (fld w 16 5 == 0#5))
      (.ok (.nop (fld w 0 12)))
  | 1 => needs .fixedField ((fld w 16 5 == 0#5))
      (needs .limit (csrListed (fld w 0 12))
      (.ok (.csrr (fld w 21 5) (fld w 0 12))))
  | 2 => needs .fixedField ((fld w 21 5 == 0#5))
      (needs .limit (csrWritable (fld w 0 12))
      (.ok (.csrw (fld w 16 5) (fld w 0 12))))
  | 3 => needs .fixedField ((fld w 21 5 == 0#5))
      (needs .limit (csrWritable (fld w 0 12))
      (.ok (.csrs (fld w 16 5) (fld w 0 12))))
  | 4 => needs .fixedField ((fld w 21 5 == 0#5))
      (needs .limit (csrWritable (fld w 0 12))
      (.ok (.csrc (fld w 16 5) (fld w 0 12))))
  | 5 => needs .fixedField ((fld w 21 5 == 0#5) && (fld w 16 5 == 0#5))
      (.ok (.trap (fld w 0 12)))
  | 6 => needs .fixedField ((fld w 21 5 == 0#5) && (fld w 16 5 == 0#5) && (fld w 0 12 == 0#12))
      (.ok .bkpt)
  | 7 => needs .fixedField ((fld w 21 5 == 0#5) && (fld w 0 12 == 0#12))
      (.ok (.wfe (fld w 16 5)))
  | 8 => needs .fixedField ((fld w 21 5 == 0#5) && (fld w 16 5 == 0#5) && (fld w 0 12 == 0#12))
      (.ok .exit)
  | 9 => needs .fixedField ((fld w 21 5 == 0#5) && (fld w 16 5 == 0#5) && (fld w 0 12 == 0#12))
      (.ok .yield)
  | 10 => needs .fixedField ((fld w 21 5 == 0#5) && (fld w 16 5 == 0#5) && (fld w 8 4 == 0#4) && (fld w 0 1 == 0#1))
      (needs .limit (((fld w 1 7) != 0#7))
      (.ok (.wsb (fld w 1 7))))
  | 11 => needs .fixedField ((fld w 21 5 == 0#5) && (fld w 2 10 == 0#10))
      (.ok (.fork (fld w 16 5) (fld w 0 2)))
  | _ => .error .function

/-- Family VCFG, primary opcode 0x18 (spec/13_encoding.md R224 to R230). -/
def decodeVcfg (w : IWord) : Except ScanReason Instr :=
  needs .fixedField ((fld w 4 12 == 0#12))
    (needs .limit (decide ((fld w 2 2) ≤ (fld w 0 2)))
    (.ok (.vcfg (fld w 21 5) (fld w 16 5) (fld w 2 2) (fld w 0 2))))

/-- Family VINT0, primary opcode 0x19 (spec/13_encoding.md R224 to R230). -/
def decodeVint0 (w : IWord) : Except ScanReason Instr :=
  match (fld w 0 3).toNat with
  | 0 => needs .fixedField ((fld w 3 3 == 0#3))
      (.ok (.vadd (fld w 21 5) (fld w 16 5) (fld w 11 5) (fld w 10 1) (fld w 9 1) (fld w 6 3)))
  | 1 => needs .fixedField ((fld w 3 3 == 0#3))
      (.ok (.vsub (fld w 21 5) (fld w 16 5) (fld w 11 5) (fld w 10 1) (fld w 9 1) (fld w 6 3)))
  | 2 => needs .fixedField ((fld w 3 3 == 0#3))
      (.ok (.vmul (fld w 21 5) (fld w 16 5) (fld w 11 5) (fld w 10 1) (fld w 9 1) (fld w 6 3)))
  | 3 => needs .fixedField ((fld w 3 3 == 0#3))
      (.ok (.vmulh (fld w 21 5) (fld w 16 5) (fld w 11 5) (fld w 10 1) (fld w 9 1) (fld w 6 3)))
  | 4 => needs .fixedField ((fld w 3 3 == 0#3))
      (.ok (.vand (fld w 21 5) (fld w 16 5) (fld w 11 5) (fld w 10 1) (fld w 9 1) (fld w 6 3)))
  | 5 => needs .fixedField ((fld w 3 3 == 0#3))
      (.ok (.vor (fld w 21 5) (fld w 16 5) (fld w 11 5) (fld w 10 1) (fld w 9 1) (fld w 6 3)))
  | 6 => needs .fixedField ((fld w 3 3 == 0#3))
      (.ok (.vxor (fld w 21 5) (fld w 16 5) (fld w 11 5) (fld w 10 1) (fld w 9 1) (fld w 6 3)))
  | 7 => needs .fixedField ((fld w 3 3 == 0#3))
      (.ok (.vandn (fld w 21 5) (fld w 16 5) (fld w 11 5) (fld w 10 1) (fld w 9 1) (fld w 6 3)))
  | _ => .error .function

/-- Family VINT1, primary opcode 0x1A (spec/13_encoding.md R224 to R230). -/
def decodeVint1 (w : IWord) : Except ScanReason Instr :=
  match (fld w 0 3).toNat with
  | 0 => needs .fixedField ((fld w 3 3 == 0#3))
      (.ok (.vsll (fld w 21 5) (fld w 16 5) (fld w 11 5) (fld w 10 1) (fld w 9 1) (fld w 6 3)))
  | 1 => needs .fixedField ((fld w 3 3 == 0#3))
      (.ok (.vsrl (fld w 21 5) (fld w 16 5) (fld w 11 5) (fld w 10 1) (fld w 9 1) (fld w 6 3)))
  | 2 => needs .fixedField ((fld w 3 3 == 0#3))
      (.ok (.vsra (fld w 21 5) (fld w 16 5) (fld w 11 5) (fld w 10 1) (fld w 9 1) (fld w 6 3)))
  | 3 => needs .fixedField ((fld w 3 3 == 0#3))
      (.ok (.vmin (fld w 21 5) (fld w 16 5) (fld w 11 5) (fld w 10 1) (fld w 9 1) (fld w 6 3)))
  | 4 => needs .fixedField ((fld w 3 3 == 0#3))
      (.ok (.vmax (fld w 21 5) (fld w 16 5) (fld w 11 5) (fld w 10 1) (fld w 9 1) (fld w 6 3)))
  | 5 => needs .fixedField ((fld w 3 3 == 0#3))
      (.ok (.vminu (fld w 21 5) (fld w 16 5) (fld w 11 5) (fld w 10 1) (fld w 9 1) (fld w 6 3)))
  | 6 => needs .fixedField ((fld w 3 3 == 0#3))
      (.ok (.vmaxu (fld w 21 5) (fld w 16 5) (fld w 11 5) (fld w 10 1) (fld w 9 1) (fld w 6 3)))
  | 7 => needs .fixedField ((fld w 3 3 == 0#3))
      (.ok (.vadds (fld w 21 5) (fld w 16 5) (fld w 11 5) (fld w 10 1) (fld w 9 1) (fld w 6 3)))
  | _ => .error .function

/-- Family VCMP, primary opcode 0x1B (spec/13_encoding.md R224 to R230). -/
def decodeVcmp (w : IWord) : Except ScanReason Instr :=
  match (fld w 0 3).toNat with
  | 0 => needs .fixedField ((fld w 24 2 == 0#2) && (fld w 3 3 == 0#3))
      (needs .limit (((fld w 21 3) != 0#3))
      (.ok (.vcmpEq (fld w 21 3) (fld w 16 5) (fld w 11 5) (fld w 10 1) (fld w 9 1) (fld w 6 3))))
  | 1 => needs .fixedField ((fld w 24 2 == 0#2) && (fld w 3 3 == 0#3))
      (needs .limit (((fld w 21 3) != 0#3))
      (.ok (.vcmpNe (fld w 21 3) (fld w 16 5) (fld w 11 5) (fld w 10 1) (fld w 9 1) (fld w 6 3))))
  | 2 => needs .fixedField ((fld w 24 2 == 0#2) && (fld w 3 3 == 0#3))
      (needs .limit (((fld w 21 3) != 0#3))
      (.ok (.vcmpLt (fld w 21 3) (fld w 16 5) (fld w 11 5) (fld w 10 1) (fld w 9 1) (fld w 6 3))))
  | 3 => needs .fixedField ((fld w 24 2 == 0#2) && (fld w 3 3 == 0#3))
      (needs .limit (((fld w 21 3) != 0#3))
      (.ok (.vcmpLe (fld w 21 3) (fld w 16 5) (fld w 11 5) (fld w 10 1) (fld w 9 1) (fld w 6 3))))
  | 4 => needs .fixedField ((fld w 24 2 == 0#2) && (fld w 3 3 == 0#3))
      (needs .limit (((fld w 21 3) != 0#3))
      (.ok (.vcmpLtu (fld w 21 3) (fld w 16 5) (fld w 11 5) (fld w 10 1) (fld w 9 1) (fld w 6 3))))
  | 5 => needs .fixedField ((fld w 24 2 == 0#2) && (fld w 3 3 == 0#3))
      (needs .limit (((fld w 21 3) != 0#3))
      (.ok (.vcmpLeu (fld w 21 3) (fld w 16 5) (fld w 11 5) (fld w 10 1) (fld w 9 1) (fld w 6 3))))
  | 6 => needs .fixedField ((fld w 24 2 == 0#2))
      (needs .limit (((fld w 21 3) != 0#3))
      (.ok (.vcmpFeq (fld w 21 3) (fld w 16 5) (fld w 11 5) (fld w 10 1) (fld w 9 1) (fld w 6 3) (fld w 3 3))))
  | 7 => needs .fixedField ((fld w 24 2 == 0#2))
      (needs .limit (((fld w 21 3) != 0#3))
      (.ok (.vcmpFlt (fld w 21 3) (fld w 16 5) (fld w 11 5) (fld w 10 1) (fld w 9 1) (fld w 6 3) (fld w 3 3))))
  | _ => .error .function

/-- Family VFLT, primary opcode 0x1C (spec/13_encoding.md R224 to R230). -/
def decodeVflt (w : IWord) : Except ScanReason Instr :=
  match (fld w 0 3).toNat with
  | 0 => .ok (.vfadd (fld w 21 5) (fld w 16 5) (fld w 11 5) (fld w 10 1) (fld w 9 1) (fld w 6 3) (fld w 3 3))
  | 1 => .ok (.vfsub (fld w 21 5) (fld w 16 5) (fld w 11 5) (fld w 10 1) (fld w 9 1) (fld w 6 3) (fld w 3 3))
  | 2 => .ok (.vfmul (fld w 21 5) (fld w 16 5) (fld w 11 5) (fld w 10 1) (fld w 9 1) (fld w 6 3) (fld w 3 3))
  | 3 => .ok (.vfmin (fld w 21 5) (fld w 16 5) (fld w 11 5) (fld w 10 1) (fld w 9 1) (fld w 6 3) (fld w 3 3))
  | 4 => .ok (.vfmax (fld w 21 5) (fld w 16 5) (fld w 11 5) (fld w 10 1) (fld w 9 1) (fld w 6 3) (fld w 3 3))
  | 5 => .ok (.vfdiv (fld w 21 5) (fld w 16 5) (fld w 11 5) (fld w 10 1) (fld w 9 1) (fld w 6 3) (fld w 3 3))
  | 6 => needs .fixedField ((fld w 11 5 == 0#5) && (fld w 9 1 == 0#1))
      (.ok (.vfsqrt (fld w 21 5) (fld w 16 5) (fld w 10 1) (fld w 6 3) (fld w 3 3)))
  | 7 => .ok (.vfscale (fld w 21 5) (fld w 16 5) (fld w 11 5) (fld w 10 1) (fld w 9 1) (fld w 6 3) (fld w 3 3))
  | _ => .error .function

/-- Family VFMA, primary opcode 0x1D (spec/13_encoding.md R224 to R230). -/
def decodeVfma (w : IWord) : Except ScanReason Instr :=
  match (fld w 0 3).toNat with
  | 0 => .ok (.vfma (fld w 21 5) (fld w 16 5) (fld w 11 5) (fld w 10 1) (fld w 9 1) (fld w 6 3) (fld w 3 3))
  | 1 => .ok (.vfms (fld w 21 5) (fld w 16 5) (fld w 11 5) (fld w 10 1) (fld w 9 1) (fld w 6 3) (fld w 3 3))
  | 2 => .ok (.vfnma (fld w 21 5) (fld w 16 5) (fld w 11 5) (fld w 10 1) (fld w 9 1) (fld w 6 3) (fld w 3 3))
  | 3 => .ok (.vfnms (fld w 21 5) (fld w 16 5) (fld w 11 5) (fld w 10 1) (fld w 9 1) (fld w 6 3) (fld w 3 3))
  | _ => .error .function

/-- Family VFCV, primary opcode 0x1E (spec/13_encoding.md R224 to R230). -/
def decodeVfcv (w : IWord) : Except ScanReason Instr :=
  match (fld w 0 3).toNat with
  | 0 => needs .fixedField ((fld w 11 5 == 0#5) && (fld w 9 1 == 0#1))
      (.ok (.vfcvt (fld w 21 5) (fld w 16 5) (fld w 10 1) (fld w 6 3) (fld w 3 3)))
  | 1 => needs .fixedField ((fld w 11 5 == 0#5) && (fld w 9 1 == 0#1))
      (.ok (.vfcvti (fld w 21 5) (fld w 16 5) (fld w 10 1) (fld w 6 3) (fld w 3 3)))
  | 2 => needs .fixedField ((fld w 11 5 == 0#5) && (fld w 9 1 == 0#1))
      (.ok (.vfneg (fld w 21 5) (fld w 16 5) (fld w 10 1) (fld w 6 3) (fld w 3 3)))
  | 3 => needs .fixedField ((fld w 11 5 == 0#5) && (fld w 9 1 == 0#1))
      (.ok (.vfabs (fld w 21 5) (fld w 16 5) (fld w 10 1) (fld w 6 3) (fld w 3 3)))
  | 4 => needs .fixedField ((fld w 11 5 == 0#5) && (fld w 9 1 == 0#1))
      (.ok (.vfclass (fld w 21 5) (fld w 16 5) (fld w 10 1) (fld w 6 3) (fld w 3 3)))
  | _ => .error .function

/-- Family VRED, primary opcode 0x1F (spec/13_encoding.md R224 to R230). -/
def decodeVred (w : IWord) : Except ScanReason Instr :=
  match (fld w 0 3).toNat with
  | 0 => needs .fixedField ((fld w 11 5 == 0#5) && (fld w 9 1 == 0#1) && (fld w 3 3 == 0#3))
      (.ok (.vredsum (fld w 21 5) (fld w 16 5) (fld w 10 1) (fld w 6 3)))
  | 1 => needs .fixedField ((fld w 11 5 == 0#5) && (fld w 9 1 == 0#1) && (fld w 3 3 == 0#3))
      (.ok (.vredmax (fld w 21 5) (fld w 16 5) (fld w 10 1) (fld w 6 3)))
  | 2 => needs .fixedField ((fld w 11 5 == 0#5) && (fld w 9 1 == 0#1) && (fld w 3 3 == 0#3))
      (.ok (.vredmin (fld w 21 5) (fld w 16 5) (fld w 10 1) (fld w 6 3)))
  | 3 => needs .fixedField ((fld w 11 5 == 0#5) && (fld w 9 1 == 0#1) && (fld w 3 3 == 0#3))
      (.ok (.vredmaxu (fld w 21 5) (fld w 16 5) (fld w 10 1) (fld w 6 3)))
  | 4 => needs .fixedField ((fld w 11 5 == 0#5) && (fld w 9 1 == 0#1) && (fld w 3 3 == 0#3))
      (.ok (.vredminu (fld w 21 5) (fld w 16 5) (fld w 10 1) (fld w 6 3)))
  | 5 => needs .fixedField ((fld w 11 5 == 0#5) && (fld w 9 1 == 0#1))
      (.ok (.vfredsum (fld w 21 5) (fld w 16 5) (fld w 10 1) (fld w 6 3) (fld w 3 3)))
  | 6 => needs .fixedField ((fld w 11 5 == 0#5) && (fld w 9 1 == 0#1))
      (.ok (.vfredmax (fld w 21 5) (fld w 16 5) (fld w 10 1) (fld w 6 3) (fld w 3 3)))
  | 7 => needs .fixedField ((fld w 11 5 == 0#5) && (fld w 9 1 == 0#1))
      (.ok (.vfredmin (fld w 21 5) (fld w 16 5) (fld w 10 1) (fld w 6 3) (fld w 3 3)))
  | _ => .error .function

/-- Family VPRM, primary opcode 0x20 (spec/13_encoding.md R224 to R230). -/
def decodeVprm (w : IWord) : Except ScanReason Instr :=
  match (fld w 0 3).toNat with
  | 0 => needs .fixedField ((fld w 3 3 == 0#3))
      (.ok (.vperm (fld w 21 5) (fld w 16 5) (fld w 11 5) (fld w 10 1) (fld w 9 1) (fld w 6 3)))
  | 1 => needs .fixedField ((fld w 9 1 == 0#1) && (fld w 3 3 == 0#3))
      (.ok (.vslideup (fld w 21 5) (fld w 16 5) (fld w 11 5) (fld w 10 1) (fld w 6 3)))
  | 2 => needs .fixedField ((fld w 9 1 == 0#1) && (fld w 3 3 == 0#3))
      (.ok (.vslidedn (fld w 21 5) (fld w 16 5) (fld w 11 5) (fld w 10 1) (fld w 6 3)))
  | 3 => needs .fixedField ((fld w 11 5 == 0#5) && (fld w 9 1 == 0#1) && (fld w 3 3 == 0#3))
      (.ok (.vcompress (fld w 21 5) (fld w 16 5) (fld w 10 1) (fld w 6 3)))
  | 4 => needs .fixedField ((fld w 11 5 == 0#5) && (fld w 9 1 == 0#1) && (fld w 3 3 == 0#3))
      (.ok (.vexpand (fld w 21 5) (fld w 16 5) (fld w 10 1) (fld w 6 3)))
  | 5 => needs .fixedField ((fld w 16 5 == 0#5) && (fld w 11 5 == 0#5) && (fld w 10 1 == 0#1) && (fld w 9 1 == 0#1) && (fld w 3 3 == 0#3))
      (.ok (.viota (fld w 21 5) (fld w 6 3)))
  | 6 => needs .fixedField ((fld w 16 5 == 0#5) && (fld w 10 1 == 0#1) && (fld w 3 3 == 0#3))
      (.ok (.vrix (fld w 21 5) (fld w 11 5) (fld w 9 1) (fld w 6 3)))
  | 7 => needs .fixedField ((fld w 21 5 == 0#5) && (fld w 3 3 == 0#3))
      (.ok (.vrixw (fld w 16 5) (fld w 11 5) (fld w 10 1) (fld w 9 1) (fld w 6 3)))
  | _ => .error .function

/-- Family VMOV, primary opcode 0x21 (spec/13_encoding.md R224 to R230). -/
def decodeVmov (w : IWord) : Except ScanReason Instr :=
  match (fld w 0 3).toNat with
  | 0 => needs .fixedField ((fld w 11 5 == 0#5) && (fld w 9 1 == 0#1) && (fld w 3 3 == 0#3))
      (.ok (.vmv (fld w 21 5) (fld w 16 5) (fld w 10 1) (fld w 6 3)))
  | 1 => needs .fixedField ((fld w 11 5 == 0#5) && (fld w 10 1 == 0#1) && (fld w 9 1 == 0#1) && (fld w 3 3 == 0#3))
      (.ok (.vsplat (fld w 21 5) (fld w 16 5) (fld w 6 3)))
  | 2 => needs .fixedField ((fld w 9 1 == 0#1) && (fld w 6 3 == 0#3) && (fld w 3 3 == 0#3))
      (.ok (.vext (fld w 21 5) (fld w 16 5) (fld w 11 5) (fld w 10 1)))
  | 3 => needs .fixedField ((fld w 10 1 == 0#1) && (fld w 9 1 == 0#1) && (fld w 6 3 == 0#3) && (fld w 3 3 == 0#3))
      (.ok (.vins (fld w 21 5) (fld w 16 5) (fld w 11 5)))
  | 4 => needs .fixedField ((fld w 3 3 == 0#3))
      (.ok (.vsel (fld w 21 5) (fld w 16 5) (fld w 11 5) (fld w 10 1) (fld w 9 1) (fld w 6 3)))
  | 5 => needs .fixedField ((fld w 11 5 == 0#5) && (fld w 10 1 == 0#1) && (fld w 9 1 == 0#1) && (fld w 6 3 == 0#3) && (fld w 3 3 == 0#3))
      (.ok (.vmvi (fld w 21 5) (fld w 16 5)))
  | 6 => needs .fixedField ((fld w 11 5 == 0#5) && (fld w 9 1 == 0#1) && (fld w 6 3 == 0#3) && (fld w 3 3 == 0#3))
      (.ok (.vmvo (fld w 21 5) (fld w 16 5) (fld w 10 1)))
  | _ => .error .function

/-- Family KOPS, primary opcode 0x22 (spec/13_encoding.md R224 to R230). -/
def decodeKops (w : IWord) : Except ScanReason Instr :=
  match (fld w 0 3).toNat with
  | 0 => needs .fixedField ((fld w 24 2 == 0#2) && (fld w 19 2 == 0#2) && (fld w 14 2 == 0#2) && (fld w 10 1 == 0#1) && (fld w 9 1 == 0#1) && (fld w 6 3 == 0#3) && (fld w 3 3 == 0#3))
      (needs .limit (((fld w 21 3) != 0#3))
      (.ok (.kand (fld w 21 3) (fld w 16 3) (fld w 11 3))))
  | 1 => needs .fixedField ((fld w 24 2 == 0#2) && (fld w 19 2 == 0#2) && (fld w 14 2 == 0#2) && (fld w 10 1 == 0#1) && (fld w 9 1 == 0#1) && (fld w 6 3 == 0#3) && (fld w 3 3 == 0#3))
      (needs .limit (((fld w 21 3) != 0#3))
      (.ok (.kor (fld w 21 3) (fld w 16 3) (fld w 11 3))))
  | 2 => needs .fixedField ((fld w 24 2 == 0#2) && (fld w 19 2 == 0#2) && (fld w 14 2 == 0#2) && (fld w 10 1 == 0#1) && (fld w 9 1 == 0#1) && (fld w 6 3 == 0#3) && (fld w 3 3 == 0#3))
      (needs .limit (((fld w 21 3) != 0#3))
      (.ok (.kxor (fld w 21 3) (fld w 16 3) (fld w 11 3))))
  | 3 => needs .fixedField ((fld w 24 2 == 0#2) && (fld w 19 2 == 0#2) && (fld w 14 2 == 0#2) && (fld w 10 1 == 0#1) && (fld w 9 1 == 0#1) && (fld w 6 3 == 0#3) && (fld w 3 3 == 0#3))
      (needs .limit (((fld w 21 3) != 0#3))
      (.ok (.kandn (fld w 21 3) (fld w 16 3) (fld w 11 3))))
  | 4 => needs .fixedField ((fld w 19 2 == 0#2) && (fld w 11 5 == 0#5) && (fld w 10 1 == 0#1) && (fld w 9 1 == 0#1) && (fld w 6 3 == 0#3) && (fld w 3 3 == 0#3))
      (.ok (.kpopc (fld w 21 5) (fld w 16 3)))
  | 5 => needs .fixedField ((fld w 19 2 == 0#2) && (fld w 11 5 == 0#5) && (fld w 10 1 == 0#1) && (fld w 9 1 == 0#1) && (fld w 6 3 == 0#3) && (fld w 3 3 == 0#3))
      (.ok (.kfirst (fld w 21 5) (fld w 16 3)))
  | 6 => needs .fixedField ((fld w 24 2 == 0#2) && (fld w 19 2 == 0#2) && (fld w 11 5 == 0#5) && (fld w 10 1 == 0#1) && (fld w 9 1 == 0#1) && (fld w 6 3 == 0#3) && (fld w 3 3 == 0#3))
      (needs .limit (((fld w 21 3) != 0#3))
      (.ok (.kbrka (fld w 21 3) (fld w 16 3))))
  | 7 => needs .fixedField ((fld w 24 2 == 0#2) && (fld w 19 2 == 0#2) && (fld w 11 5 == 0#5) && (fld w 10 1 == 0#1) && (fld w 9 1 == 0#1) && (fld w 6 3 == 0#3) && (fld w 3 3 == 0#3))
      (needs .limit (((fld w 21 3) != 0#3))
      (.ok (.kbrki (fld w 21 3) (fld w 16 3))))
  | _ => .error .function

/-- Family VLD, primary opcode 0x23 (spec/13_encoding.md R224 to R230). -/
def decodeVld (w : IWord) : Except ScanReason Instr :=
  match (fld w 0 1).toNat with
  | 0 => needs .fixedField ((fld w 11 5 == 0#5) && (fld w 1 1 == 0#1))
      (.ok (.vld (fld w 21 5) (fld w 16 5) (fld w 8 3) (fld w 5 3) (fld w 2 3)))
  | 1 => needs .fixedField ((fld w 1 1 == 0#1))
      (.ok (.vlds (fld w 21 5) (fld w 16 5) (fld w 11 5) (fld w 8 3) (fld w 5 3) (fld w 2 3)))
  | _ => .error .function

/-- Family VLDX, primary opcode 0x24 (spec/13_encoding.md R224 to R230). -/
def decodeVldx (w : IWord) : Except ScanReason Instr :=
  match (fld w 0 1).toNat with
  | 0 => .ok (.vldx (fld w 21 5) (fld w 16 5) (fld w 11 5) (fld w 8 3) (fld w 5 3) (fld w 2 3) (fld w 1 1))
  | 1 => .ok (.vgl (fld w 21 5) (fld w 16 5) (fld w 11 5) (fld w 8 3) (fld w 5 3) (fld w 2 3) (fld w 1 1))
  | _ => .error .function

/-- Family VST, primary opcode 0x25 (spec/13_encoding.md R224 to R230). -/
def decodeVst (w : IWord) : Except ScanReason Instr :=
  match (fld w 0 1).toNat with
  | 0 => needs .fixedField ((fld w 11 5 == 0#5))
      (.ok (.vst (fld w 21 5) (fld w 16 5) (fld w 8 3) (fld w 5 3) (fld w 2 3) (fld w 1 1)))
  | 1 => .ok (.vsts (fld w 21 5) (fld w 16 5) (fld w 11 5) (fld w 8 3) (fld w 5 3) (fld w 2 3) (fld w 1 1))
  | _ => .error .function

/-- Family VSTX, primary opcode 0x26 (spec/13_encoding.md R224 to R230). -/
def decodeVstx (w : IWord) : Except ScanReason Instr :=
  match (fld w 0 1).toNat with
  | 0 => .ok (.vstx (fld w 21 5) (fld w 16 5) (fld w 11 5) (fld w 8 3) (fld w 5 3) (fld w 2 3) (fld w 1 1))
  | 1 => needs .limit (((fld w 8 3) != 0#3))
      (.ok (.vsc (fld w 21 5) (fld w 16 5) (fld w 11 5) (fld w 8 3) (fld w 5 3) (fld w 2 3) (fld w 1 1)))
  | _ => .error .function

/-- Family VSPC, primary opcode 0x27 (spec/13_encoding.md R224 to R230). -/
def decodeVspc (w : IWord) : Except ScanReason Instr :=
  match (fld w 0 1).toNat with
  | 0 => needs .fixedField ((fld w 11 5 == 0#5) && (fld w 1 1 == 0#1))
      (.ok (.vldff (fld w 21 5) (fld w 16 5) (fld w 8 3) (fld w 5 3) (fld w 2 3)))
  | 1 => .ok (.vappend (fld w 21 5) (fld w 16 5) (fld w 11 5) (fld w 8 3) (fld w 5 3) (fld w 2 3) (fld w 1 1))
  | _ => .error .function

/-- Family VRRED, primary opcode 0x28 (spec/13_encoding.md R224 to R230). -/
def decodeVrred (w : IWord) : Except ScanReason Instr :=
  match (fld w 0 1).toNat with
  | 0 => .ok (.vrred (fld w 21 5) (fld w 16 5) (fld w 11 5) (fld w 8 3) (fld w 5 3) (fld w 2 3) (fld w 1 1))
  | _ => .error .function

/-- Family TCFG, primary opcode 0x29 (spec/13_encoding.md R224 to R230). -/
def decodeTcfg (w : IWord) : Except ScanReason Instr :=
  match (fld w 9 1 ++ fld w 0 2).toNat with
  | 0 => needs .fixedField ((fld w 11 5 == 0#5) && (fld w 10 1 == 0#1) && (fld w 4 2 == 0#2) && (fld w 2 2 == 0#2))
      (.ok (.tshape (fld w 21 5) (fld w 16 5) (fld w 6 3)))
  | 1 => needs .fixedField ((fld w 21 5 == 0#5) && (fld w 11 5 == 0#5) && (fld w 10 1 == 0#1) && (fld w 6 3 == 0#3) && (fld w 4 2 == 0#2) && (fld w 2 2 == 0#2))
      (.ok (.setmw (fld w 16 5)))
  | 2 => needs .fixedField ((fld w 16 5 == 0#5) && (fld w 11 5 == 0#5) && (fld w 10 1 == 0#1) && (fld w 6 3 == 0#3))
      (needs .limit (((fld w 4 2) != 3#2) && ((fld w 2 2) != 3#2))
      (.ok (.tpref (fld w 21 5) (fld w 4 2) (fld w 2 2))))
  | 3 => needs .fixedField ((fld w 16 5 == 0#5) && (fld w 11 5 == 0#5) && (fld w 10 1 == 0#1) && (fld w 6 3 == 0#3))
      (needs .limit (((fld w 4 2) != 3#2) && ((fld w 2 2) != 3#2))
      (.ok (.tdrop (fld w 21 5) (fld w 4 2) (fld w 2 2))))
  | 4 => needs .fixedField ((fld w 16 5 == 0#5) && (fld w 11 5 == 0#5) && (fld w 10 1 == 0#1) && (fld w 6 3 == 0#3))
      (needs .limit (((fld w 4 2) != 3#2) && ((fld w 2 2) != 3#2))
      (.ok (.tzero (fld w 21 5) (fld w 4 2) (fld w 2 2))))
  | _ => .error .function

/-- Family TMEM, primary opcode 0x2A (spec/13_encoding.md R224 to R230). -/
def decodeTmem (w : IWord) : Except ScanReason Instr :=
  match (fld w 2 3).toNat with
  | 0 => needs .fixedField ((fld w 0 2 == 0#2))
      (needs .limit (((fld w 9 2) != 3#2) && ((fld w 7 2) != 3#2) && ((fld w 5 2) != 3#2))
      (.ok (.tloadA (fld w 21 5) (fld w 16 5) (fld w 11 5) (fld w 9 2) (fld w 7 2) (fld w 5 2))))
  | 1 => needs .fixedField ((fld w 0 2 == 0#2))
      (needs .limit (((fld w 9 2) != 3#2) && ((fld w 7 2) != 3#2) && ((fld w 5 2) != 3#2))
      (.ok (.tloadB (fld w 21 5) (fld w 16 5) (fld w 11 5) (fld w 9 2) (fld w 7 2) (fld w 5 2))))
  | 2 => needs .fixedField ((fld w 9 2 == 0#2) && (fld w 0 2 == 0#2))
      (needs .limit (((fld w 7 2) != 3#2) && ((fld w 5 2) != 3#2))
      (.ok (.tloadC (fld w 21 5) (fld w 16 5) (fld w 11 5) (fld w 7 2) (fld w 5 2))))
  | 3 => needs .fixedField ((fld w 9 2 == 0#2) && (fld w 0 2 == 0#2))
      (needs .limit (((fld w 7 2) != 3#2) && ((fld w 5 2) != 3#2))
      (.ok (.tstoreA (fld w 21 5) (fld w 16 5) (fld w 11 5) (fld w 7 2) (fld w 5 2))))
  | 4 => needs .fixedField ((fld w 9 2 == 0#2) && (fld w 0 2 == 0#2))
      (needs .limit (((fld w 7 2) != 3#2) && ((fld w 5 2) != 3#2))
      (.ok (.tstoreB (fld w 21 5) (fld w 16 5) (fld w 11 5) (fld w 7 2) (fld w 5 2))))
  | 5 => needs .fixedField ((fld w 9 2 == 0#2) && (fld w 0 2 == 0#2))
      (needs .limit (((fld w 7 2) != 3#2) && ((fld w 5 2) != 3#2))
      (.ok (.tstoreC (fld w 21 5) (fld w 16 5) (fld w 11 5) (fld w 7 2) (fld w 5 2))))
  | _ => .error .function

/-- Family TMMA, primary opcode 0x2B (spec/13_encoding.md R224 to R230). -/
def decodeTmma (w : IWord) : Except ScanReason Instr :=
  match (fld w 0 2).toNat with
  | 0 => needs .fixedField ((fld w 11 5 == 0#5) && (fld w 9 1 == 0#1))
      (needs .limit (((fld w 4 2) != 3#2) && ((fld w 2 2) != 3#2))
      (.ok (.tmma (fld w 21 5) (fld w 16 5) (fld w 10 1) (fld w 6 3) (fld w 4 2) (fld w 2 2))))
  | 1 => needs .fixedField ((fld w 11 5 == 0#5) && (fld w 9 1 == 0#1))
      (needs .limit (((fld w 4 2) != 3#2) && ((fld w 2 2) != 3#2))
      (.ok (.tmmaSet (fld w 21 5) (fld w 16 5) (fld w 10 1) (fld w 6 3) (fld w 4 2) (fld w 2 2))))
  | 2 => needs .fixedField ((fld w 11 5 == 0#5) && (fld w 9 1 == 0#1))
      (needs .limit (((fld w 4 2) != 3#2) && ((fld w 2 2) != 3#2))
      (.ok (.tmmaSw (fld w 21 5) (fld w 16 5) (fld w 10 1) (fld w 6 3) (fld w 4 2) (fld w 2 2))))
  | 3 => needs .fixedField ((fld w 11 5 == 0#5) && (fld w 9 1 == 0#1))
      (needs .limit (((fld w 4 2) != 3#2) && ((fld w 2 2) != 3#2))
      (.ok (.tmmaSetSw (fld w 21 5) (fld w 16 5) (fld w 10 1) (fld w 6 3) (fld w 4 2) (fld w 2 2))))
  | _ => .error .function

/-- Family TWLOAD, primary opcode 0x2C (spec/13_encoding.md R224 to R230). -/
def decodeTwload (w : IWord) : Except ScanReason Instr :=
  match (fld w 0 2).toNat with
  | 0 => needs .fixedField ((fld w 21 5 == 0#5) && (fld w 11 5 == 0#5) && (fld w 9 1 == 0#1))
      (needs .limit (((fld w 4 2) != 3#2) && ((fld w 2 2) != 3#2))
      (.ok (.twload (fld w 16 5) (fld w 10 1) (fld w 6 3) (fld w 4 2) (fld w 2 2))))
  | _ => .error .function

/-- Family TMOV, primary opcode 0x2D (spec/13_encoding.md R224 to R230). -/
def decodeTmov (w : IWord) : Except ScanReason Instr :=
  match (fld w 0 2).toNat with
  | 0 =>
    match (fld w 6 3).toNat with
    | 0 => needs .fixedField ((fld w 10 1 == 0#1) && (fld w 9 1 == 0#1))
        (needs .limit (((fld w 4 2) != 3#2) && ((fld w 2 2) != 3#2))
        (.ok (.vtom (fld w 21 5) (fld w 16 5) (fld w 11 5) (fld w 4 2) (fld w 2 2))))
    | 1 => needs .fixedField ((fld w 9 1 == 0#1))
        (needs .limit (((fld w 4 2) != 3#2) && ((fld w 2 2) != 3#2))
        (.ok (.mtov (fld w 21 5) (fld w 16 5) (fld w 11 5) (fld w 10 1) (fld w 4 2) (fld w 2 2))))
    | 2 => needs .fixedField ((fld w 11 5 == 0#5) && (fld w 9 1 == 0#1))
        (needs .limit (((fld w 4 2) != 3#2) && ((fld w 2 2) != 3#2))
        (.ok (.ttrans (fld w 21 5) (fld w 16 5) (fld w 10 1) (fld w 4 2) (fld w 2 2))))
    | _ => .error .function
  | 1 => needs .fixedField ((fld w 11 5 == 0#5) && (fld w 9 1 == 0#1))
      (needs .limit (((fld w 4 2) != 3#2) && ((fld w 2 2) != 3#2))
      (.ok (.tcvt (fld w 21 5) (fld w 16 5) (fld w 10 1) (fld w 6 3) (fld w 4 2) (fld w 2 2))))
  | 2 => needs .limit (((fld w 4 2) != 3#2) && ((fld w 2 2) != 3#2))
      (.ok (.tadd (fld w 21 5) (fld w 16 5) (fld w 11 5) (fld w 10 1) (fld w 9 1) (fld w 6 3) (fld w 4 2) (fld w 2 2)))
  | _ => .error .function

/-- Family CPY, primary opcode 0x2E (spec/13_encoding.md R224 to R230). -/
def decodeCpy (w : IWord) : Except ScanReason Instr :=
  match (fld w 0 3).toNat with
  | 0 => needs .limit (((fld w 5 2) != 3#2) && ((fld w 3 2) != 3#2) && (((fld w 11 5)).getLsbD 0 == false))
      (.ok (.cpy (fld w 21 5) (fld w 16 5) (fld w 11 5) (fld w 7 4) (fld w 5 2) (fld w 3 2)))
  | 1 => needs .limit (((fld w 5 2) != 3#2) && ((fld w 3 2) != 3#2) && (((fld w 11 5)).getLsbD 0 == false))
      (.ok (.cpyt (fld w 21 5) (fld w 16 5) (fld w 11 5) (fld w 7 4) (fld w 5 2) (fld w 3 2)))
  | 2 => needs .fixedField ((fld w 16 5 == 0#5))
      (needs .limit (((fld w 5 2) != 3#2) && ((fld w 3 2) != 3#2) && (((fld w 11 5)).getLsbD 0 == false))
      (.ok (.mdiscard (fld w 21 5) (fld w 11 5) (fld w 7 4) (fld w 5 2) (fld w 3 2))))
  | 3 => needs .limit (((fld w 5 2) != 3#2) && ((fld w 3 2) != 3#2) && (((fld w 11 5)).getLsbD 0 == false))
      (.ok (.cpyz (fld w 21 5) (fld w 16 5) (fld w 11 5) (fld w 7 4) (fld w 5 2) (fld w 3 2)))
  | _ => .error .function

/-- Family BAR, primary opcode 0x2F (spec/13_encoding.md R224 to R230). -/
def decodeBar (w : IWord) : Except ScanReason Instr :=
  match (fld w 0 3).toNat with
  | 0 => needs .fixedField ((fld w 11 5 == 0#5) && (fld w 7 4 == 0#4))
      (needs .limit (((fld w 5 2) != 3#2) && ((fld w 3 2) != 3#2))
      (.ok (.binit (fld w 21 5) (fld w 16 5) (fld w 5 2) (fld w 3 2))))
  | 1 => needs .fixedField ((fld w 11 5 == 0#5) && (fld w 7 4 == 0#4))
      (needs .limit (((fld w 5 2) != 3#2) && ((fld w 3 2) != 3#2))
      (.ok (.bexp (fld w 21 5) (fld w 16 5) (fld w 5 2) (fld w 3 2))))
  | 2 => needs .fixedField ((fld w 11 5 == 0#5) && (fld w 7 4 == 0#4))
      (needs .limit (((fld w 5 2) != 3#2) && ((fld w 3 2) != 3#2))
      (.ok (.barr (fld w 21 5) (fld w 16 5) (fld w 5 2) (fld w 3 2))))
  | 3 => needs .fixedField ((fld w 11 5 == 0#5) && (fld w 7 4 == 0#4))
      (needs .limit (((fld w 5 2) != 3#2) && ((fld w 3 2) != 3#2))
      (.ok (.bwait (fld w 21 5) (fld w 16 5) (fld w 5 2) (fld w 3 2))))
  | 4 => needs .fixedField ((fld w 11 5 == 0#5) && (fld w 7 4 == 0#4))
      (needs .limit (((fld w 5 2) != 3#2) && ((fld w 3 2) != 3#2))
      (.ok (.btest (fld w 21 5) (fld w 16 5) (fld w 5 2) (fld w 3 2))))
  | 5 => needs .fixedField ((fld w 11 5 == 0#5) && (fld w 7 4 == 0#4))
      (needs .limit (((fld w 5 2) != 3#2) && ((fld w 3 2) != 3#2))
      (.ok (.pend (fld w 21 5) (fld w 16 5) (fld w 5 2) (fld w 3 2))))
  | 6 => needs .fixedField ((fld w 7 4 == 0#4))
      (needs .limit (((fld w 5 2) != 3#2) && ((fld w 3 2) != 3#2))
      (.ok (.bexparr (fld w 21 5) (fld w 16 5) (fld w 11 5) (fld w 5 2) (fld w 3 2))))
  | _ => .error .function

/-- Family SYNQ, primary opcode 0x30 (spec/13_encoding.md R224 to R230). -/
def decodeSynq (w : IWord) : Except ScanReason Instr :=
  match (fld w 0 3).toNat with
  | 0 => needs .fixedField ((fld w 21 5 == 0#5) && (fld w 16 5 == 0#5) && (fld w 11 5 == 0#5) && (fld w 7 4 == 0#4) && (fld w 3 2 == 0#2))
      (needs .limit (((fld w 5 2) != 3#2) && ((fld w 5 2) != 0#2))
      (.ok (.tokp (fld w 5 2))))
  | 1 => needs .fixedField ((fld w 21 5 == 0#5) && (fld w 16 5 == 0#5) && (fld w 11 5 == 0#5) && (fld w 7 4 == 0#4) && (fld w 5 2 == 0#2))
      (needs .limit (((fld w 3 2) != 3#2) && ((fld w 3 2) != 0#2))
      (.ok (.tokw (fld w 3 2))))
  | 2 => needs .fixedField ((fld w 16 5 == 0#5) && (fld w 11 5 == 0#5) && (fld w 5 2 == 0#2) && (fld w 3 2 == 0#2))
      (needs .limit (((fld w 7 4) != 0#4))
      (.ok (.gset (fld w 21 5) (fld w 7 4))))
  | 3 => needs .fixedField ((fld w 21 5 == 0#5) && (fld w 16 5 == 0#5) && (fld w 11 5 == 0#5) && (fld w 5 2 == 0#2) && (fld w 3 2 == 0#2))
      (needs .limit (((fld w 7 4) != 0#4))
      (.ok (.grst (fld w 7 4))))
  | _ => .error .function

/-- Family MSG, primary opcode 0x31 (spec/13_encoding.md R224 to R230). -/
def decodeMsg (w : IWord) : Except ScanReason Instr :=
  match (fld w 0 3).toNat with
  | 0 => needs .fixedField ((fld w 16 5 == 0#5) && (fld w 11 5 == 0#5))
      (needs .limit (((fld w 5 2) != 3#2) && ((fld w 3 2) != 3#2))
      (.ok (.msend (fld w 21 5) (fld w 7 4) (fld w 5 2) (fld w 3 2))))
  | 1 => needs .fixedField ((fld w 11 5 == 0#5))
      (needs .limit (((fld w 5 2) != 3#2) && ((fld w 3 2) != 3#2))
      (.ok (.tsend (fld w 21 5) (fld w 16 5) (fld w 7 4) (fld w 5 2) (fld w 3 2))))
  | 2 => needs .fixedField ((fld w 11 5 == 0#5))
      (needs .limit (((fld w 5 2) != 3#2) && ((fld w 3 2) != 3#2))
      (.ok (.tsendAdd (fld w 21 5) (fld w 16 5) (fld w 7 4) (fld w 5 2) (fld w 3 2))))
  | 3 => needs .fixedField ((fld w 11 5 == 0#5) && (fld w 7 4 == 0#4))
      (needs .limit (((fld w 5 2) != 3#2) && ((fld w 3 2) != 3#2))
      (.ok (.rpost (fld w 21 5) (fld w 16 5) (fld w 5 2) (fld w 3 2))))
  | 4 => needs .fixedField ((fld w 7 4 == 0#4))
      (needs .limit (((fld w 5 2) != 3#2) && ((fld w 3 2) != 3#2))
      (.ok (.rpostm (fld w 21 5) (fld w 16 5) (fld w 11 5) (fld w 5 2) (fld w 3 2))))
  | 5 => needs .fixedField ((fld w 11 5 == 0#5) && (fld w 7 4 == 0#4))
      (needs .limit (((fld w 5 2) != 3#2) && ((fld w 3 2) != 3#2))
      (.ok (.rcancel (fld w 21 5) (fld w 16 5) (fld w 5 2) (fld w 3 2))))
  | 6 => needs .fixedField ((fld w 7 4 == 0#4))
      (needs .limit (((fld w 5 2) != 3#2) && ((fld w 3 2) != 3#2))
      (.ok (.rprobe (fld w 21 5) (fld w 16 5) (fld w 11 5) (fld w 5 2) (fld w 3 2))))
  | _ => .error .function

/-- Family SWP, primary opcode 0x32 (spec/13_encoding.md R224 to R230). -/
def decodeSwp (w : IWord) : Except ScanReason Instr :=
  match (fld w 0 3).toNat with
  | 0 => needs .fixedField ((fld w 11 5 == 0#5) && (fld w 7 4 == 0#4))
      (needs .limit (((fld w 5 2) != 3#2) && ((fld w 3 2) != 3#2))
      (.ok (.swp (fld w 21 5) (fld w 16 5) (fld w 5 2) (fld w 3 2))))
  | 1 => needs .fixedField ((fld w 21 5 == 0#5) && (fld w 16 5 == 0#5) && (fld w 11 5 == 0#5) && (fld w 7 4 == 0#4))
      (needs .limit (((fld w 5 2) != 3#2) && ((fld w 3 2) != 3#2))
      (.ok (.swnext (fld w 5 2) (fld w 3 2))))
  | 2 => needs .fixedField ((fld w 21 5 == 0#5) && (fld w 16 5 == 0#5) && (fld w 11 5 == 0#5) && (fld w 7 4 == 0#4))
      (needs .limit (((fld w 5 2) != 3#2) && ((fld w 3 2) != 3#2))
      (.ok (.swexit (fld w 5 2) (fld w 3 2))))
  | 3 => needs .fixedField ((fld w 11 5 == 0#5) && (fld w 7 4 == 0#4))
      (needs .limit (((fld w 5 2) != 3#2) && ((fld w 3 2) != 3#2))
      (.ok (.swake (fld w 21 5) (fld w 16 5) (fld w 5 2) (fld w 3 2))))
  | 4 => needs .fixedField ((fld w 14 2 == 0#2) && (fld w 7 4 == 0#4))
      (needs .limit (((fld w 5 2) != 3#2) && ((fld w 3 2) != 3#2))
      (.ok (.swakev (fld w 21 5) (fld w 16 5) (fld w 11 3) (fld w 5 2) (fld w 3 2))))
  | 5 => needs .fixedField ((fld w 11 5 == 0#5) && (fld w 7 4 == 0#4))
      (needs .limit (((fld w 5 2) != 3#2) && ((fld w 3 2) != 3#2))
      (.ok (.swakee (fld w 21 5) (fld w 16 5) (fld w 5 2) (fld w 3 2))))
  | _ => .error .function

/-- Family GANG, primary opcode 0x33 (spec/13_encoding.md R224 to R230). -/
def decodeGang (w : IWord) : Except ScanReason Instr :=
  match (fld w 0 3).toNat with
  | 0 => needs .fixedField ((fld w 21 5 == 0#5) && (fld w 11 5 == 0#5) && (fld w 9 1 == 0#1) && (fld w 6 3 == 0#3) && (fld w 3 3 == 0#3))
      (.ok (.gbcast (fld w 16 5) (fld w 10 1)))
  | 1 => needs .fixedField ((fld w 16 5 == 0#5) && (fld w 11 5 == 0#5) && (fld w 10 1 == 0#1) && (fld w 9 1 == 0#1) && (fld w 6 3 == 0#3) && (fld w 3 3 == 0#3))
      (.ok (.grecv (fld w 21 5)))
  | _ => .error .function

/-- The bit of the feature mask that a word's family depends on (spec/13_encoding.md R224; FORK bit 6, BKPT bit 7),
or 64 for none. -/
def featureBit (w : IWord) : Nat :=
  match (fld w 26 6).toNat with
  | 0x17 =>
    match (fld w 12 4).toNat with
    | 6 => 7
    | 11 => 6
    | _ => 64
  | 0x28 => 4
  | 0x29 => 0
  | 0x2A => 0
  | 0x2B => 0
  | 0x2C => 0
  | 0x2D => 0
  | 0x2E => 1
  | 0x31 => 2
  | 0x32 => 3
  | 0x33 => 5
  | _ => 64

/-- Is the family of the word permitted by the feature mask (spec/09_translation_and_faults.md R173)? -/
def featureOk (mask : Word) (w : IWord) : Bool :=
  featureBit w == 64 || mask.getLsbD (featureBit w)

/-- The families, by primary opcode (spec/13_encoding.md R224). -/
def decodeFamily (w : IWord) : Except ScanReason Instr :=
  match (fld w 26 6).toNat with
  | 0x01 => decodeOpr w
  | 0x02 => decodeAddi w
  | 0x03 => decodeAndi w
  | 0x04 => decodeOri w
  | 0x05 => decodeXori w
  | 0x06 => decodeSlti w
  | 0x07 => decodeSltiu w
  | 0x08 => decodeLih w
  | 0x09 => decodeShi w
  | 0x0A => decodeFop w
  | 0x0B => decodeLd w
  | 0x0C => decodeLds w
  | 0x0D => decodeSt w
  | 0x0E => decodeOrdm w
  | 0x0F => decodeAmo w
  | 0x10 => decodeCas w
  | 0x11 => decodeStn w
  | 0x12 => decodeBc w
  | 0x13 => decodeJ w
  | 0x14 => decodeJal w
  | 0x15 => decodeJalr w
  | 0x16 => decodeCallt w
  | 0x17 => decodeSys w
  | 0x18 => decodeVcfg w
  | 0x19 => decodeVint0 w
  | 0x1A => decodeVint1 w
  | 0x1B => decodeVcmp w
  | 0x1C => decodeVflt w
  | 0x1D => decodeVfma w
  | 0x1E => decodeVfcv w
  | 0x1F => decodeVred w
  | 0x20 => decodeVprm w
  | 0x21 => decodeVmov w
  | 0x22 => decodeKops w
  | 0x23 => decodeVld w
  | 0x24 => decodeVldx w
  | 0x25 => decodeVst w
  | 0x26 => decodeVstx w
  | 0x27 => decodeVspc w
  | 0x28 => decodeVrred w
  | 0x29 => decodeTcfg w
  | 0x2A => decodeTmem w
  | 0x2B => decodeTmma w
  | 0x2C => decodeTwload w
  | 0x2D => decodeTmov w
  | 0x2E => decodeCpy w
  | 0x2F => decodeBar w
  | 0x30 => decodeSynq w
  | 0x31 => decodeMsg w
  | 0x32 => decodeSwp w
  | 0x33 => decodeGang w
  | _ => .error .opcode

/-- Is the primary opcode assigned (spec/13_encoding.md R224)? -/
def opcodeAssigned (w : IWord) : Bool :=
  decide (1 ≤ (fld w 26 6).toNat) && decide ((fld w 26 6).toNat ≤ 0x33)

/-- The scanner's judgement of one word under a feature mask: the tests in the order of spec/13_encoding.md R223. -/
def scanWord (mask : Word) (w : IWord) : Except ScanReason Instr :=
  if opcodeAssigned w = false then .error .opcode
  else if featureOk mask w = false then .error .feature
  else decodeFamily w

/-- The instruction a word stands for, none where the scanner refuses it for every feature mask. -/
def decode (w : IWord) : Option Instr :=
  match decodeFamily w with
  | .ok i => some i
  | .error _ => none

/-- The instruction read from the bits of an opcode-table row: words are 32 bits, numbered from bit 0. -/
def decodeTableWord (nbits w : Nat) : Option Instr :=
  if nbits = 32 then decode (BitVec.ofNat 32 w) else none

/-- The word of an instruction (spec/13_encoding.md R218 and the family tables); 0, which is never an instruction, for a
step without an encoding. -/
def encode : Instr → IWord
  | .add d a b => 0x01#6 ++ d ++ a ++ b ++ 0#11
  | .sub d a b => 0x01#6 ++ d ++ a ++ b ++ 1#11
  | .and d a b => 0x01#6 ++ d ++ a ++ b ++ 2#11
  | .or d a b => 0x01#6 ++ d ++ a ++ b ++ 3#11
  | .xor d a b => 0x01#6 ++ d ++ a ++ b ++ 4#11
  | .andn d a b => 0x01#6 ++ d ++ a ++ b ++ 5#11
  | .sll d a b => 0x01#6 ++ d ++ a ++ b ++ 6#11
  | .srl d a b => 0x01#6 ++ d ++ a ++ b ++ 7#11
  | .sra d a b => 0x01#6 ++ d ++ a ++ b ++ 8#11
  | .slt d a b => 0x01#6 ++ d ++ a ++ b ++ 9#11
  | .sltu d a b => 0x01#6 ++ d ++ a ++ b ++ 10#11
  | .min d a b => 0x01#6 ++ d ++ a ++ b ++ 11#11
  | .max d a b => 0x01#6 ++ d ++ a ++ b ++ 12#11
  | .minu d a b => 0x01#6 ++ d ++ a ++ b ++ 13#11
  | .maxu d a b => 0x01#6 ++ d ++ a ++ b ++ 14#11
  | .mul d a b => 0x01#6 ++ d ++ a ++ b ++ 15#11
  | .mulh d a b => 0x01#6 ++ d ++ a ++ b ++ 16#11
  | .mulhu d a b => 0x01#6 ++ d ++ a ++ b ++ 17#11
  | .div d a b => 0x01#6 ++ d ++ a ++ b ++ 18#11
  | .divu d a b => 0x01#6 ++ d ++ a ++ b ++ 19#11
  | .rem d a b => 0x01#6 ++ d ++ a ++ b ++ 20#11
  | .remu d a b => 0x01#6 ++ d ++ a ++ b ++ 21#11
  | .clz d a => 0x01#6 ++ d ++ a ++ 0#5 ++ 22#11
  | .ctz d a => 0x01#6 ++ d ++ a ++ 0#5 ++ 23#11
  | .popc d a => 0x01#6 ++ d ++ a ++ 0#5 ++ 24#11
  | .csel d a b => 0x01#6 ++ d ++ a ++ b ++ 25#11
  | .addw d a b => 0x01#6 ++ d ++ a ++ b ++ 26#11
  | .subw d a b => 0x01#6 ++ d ++ a ++ b ++ 27#11
  | .mulw d a b => 0x01#6 ++ d ++ a ++ b ++ 28#11
  | .addi d a i => 0x02#6 ++ d ++ a ++ i
  | .andi d a i => 0x03#6 ++ d ++ a ++ i
  | .ori d a i => 0x04#6 ++ d ++ a ++ i
  | .xori d a i => 0x05#6 ++ d ++ a ++ i
  | .slti d a i => 0x06#6 ++ d ++ a ++ i
  | .sltiu d a i => 0x07#6 ++ d ++ a ++ i
  | .lih d p i => 0x08#6 ++ d ++ 0#3 ++ p ++ i
  | .slli d a n => 0x09#6 ++ d ++ a ++ 0#10 ++ n
  | .srli d a n => 0x09#6 ++ d ++ a ++ 1#10 ++ n
  | .srai d a n => 0x09#6 ++ d ++ a ++ 2#10 ++ n
  | .fadd d a b => 0x0A#6 ++ d ++ a ++ b ++ 0#11
  | .fsub d a b => 0x0A#6 ++ d ++ a ++ b ++ 1#11
  | .fmul d a b => 0x0A#6 ++ d ++ a ++ b ++ 2#11
  | .fma d a b => 0x0A#6 ++ d ++ a ++ b ++ 3#11
  | .fmin d a b => 0x0A#6 ++ d ++ a ++ b ++ 4#11
  | .fmax d a b => 0x0A#6 ++ d ++ a ++ b ++ 5#11
  | .fcvtws d a => 0x0A#6 ++ d ++ a ++ 0#5 ++ 6#11
  | .fcvtsw d a => 0x0A#6 ++ d ++ a ++ 0#5 ++ 7#11
  | .flt d a b => 0x0A#6 ++ d ++ a ++ b ++ 8#11
  | .feq d a b => 0x0A#6 ++ d ++ a ++ b ++ 9#11
  | .ld d a o z => 0x0B#6 ++ d ++ a ++ o ++ z
  | .lds d a o z => 0x0C#6 ++ d ++ a ++ o ++ z
  | .st d a o z => 0x0D#6 ++ d ++ a ++ o ++ z
  | .lda d a c z => 0x0E#6 ++ d ++ a ++ 0#5 ++ 0#5 ++ c ++ 1#3 ++ z
  | .str a b c z => 0x0E#6 ++ 0#5 ++ a ++ b ++ 0#5 ++ c ++ 3#3 ++ z
  | .fence c => 0x0E#6 ++ 0#5 ++ 0#5 ++ 0#5 ++ 0#5 ++ c ++ 8#4
  | .amoAdd d a b m r q c z => 0x0F#6 ++ d ++ a ++ b ++ m ++ r ++ q ++ c ++ 1#1 ++ z ++ 0#4
  | .amoAnd d a b m r q c z => 0x0F#6 ++ d ++ a ++ b ++ m ++ r ++ q ++ c ++ 1#1 ++ z ++ 1#4
  | .amoOr d a b m r q c z => 0x0F#6 ++ d ++ a ++ b ++ m ++ r ++ q ++ c ++ 1#1 ++ z ++ 2#4
  | .amoXor d a b m r q c z => 0x0F#6 ++ d ++ a ++ b ++ m ++ r ++ q ++ c ++ 1#1 ++ z ++ 3#4
  | .amoSmin d a b m r q c z => 0x0F#6 ++ d ++ a ++ b ++ m ++ r ++ q ++ c ++ 1#1 ++ z ++ 4#4
  | .amoSmax d a b m r q c z => 0x0F#6 ++ d ++ a ++ b ++ m ++ r ++ q ++ c ++ 1#1 ++ z ++ 5#4
  | .amoUmin d a b m r q c z => 0x0F#6 ++ d ++ a ++ b ++ m ++ r ++ q ++ c ++ 1#1 ++ z ++ 6#4
  | .amoUmax d a b m r q c z => 0x0F#6 ++ d ++ a ++ b ++ m ++ r ++ q ++ c ++ 1#1 ++ z ++ 7#4
  | .amoSwap d a b r q c z => 0x0F#6 ++ d ++ a ++ b ++ 0#1 ++ r ++ q ++ c ++ 1#1 ++ z ++ 8#4
  | .amoFadd d a b m r q c => 0x0F#6 ++ d ++ a ++ b ++ m ++ r ++ q ++ c ++ 41#6
  | .cas d a b r q c z => 0x10#6 ++ d ++ a ++ b ++ 0#1 ++ r ++ q ++ c ++ 1#1 ++ z ++ 0#4
  | .stn d a b c z => 0x11#6 ++ d ++ a ++ b ++ 0#5 ++ c ++ 1#3 ++ z
  | .bcEq a b o => 0x12#6 ++ 0#3 ++ a ++ b ++ o
  | .bcNe a b o => 0x12#6 ++ 1#3 ++ a ++ b ++ o
  | .bcLt a b o => 0x12#6 ++ 2#3 ++ a ++ b ++ o
  | .bcGe a b o => 0x12#6 ++ 3#3 ++ a ++ b ++ o
  | .bcLtu a b o => 0x12#6 ++ 4#3 ++ a ++ b ++ o
  | .bcGeu a b o => 0x12#6 ++ 5#3 ++ a ++ b ++ o
  | .bcBset a b o => 0x12#6 ++ 6#3 ++ a ++ b ++ o
  | .bcBclr a b o => 0x12#6 ++ 7#3 ++ a ++ b ++ o
  | .j o => 0x13#6 ++ o
  | .jal o => 0x14#6 ++ o
  | .jalr d a i => 0x15#6 ++ d ++ a ++ i
  | .callt a s => 0x16#6 ++ 0#5 ++ a ++ s
  | .nop n => 0x17#6 ++ 0#5 ++ 0#5 ++ 0#4 ++ n
  | .csrr d c => 0x17#6 ++ d ++ 0#5 ++ 1#4 ++ c
  | .csrw a c => 0x17#6 ++ 0#5 ++ a ++ 2#4 ++ c
  | .csrs a c => 0x17#6 ++ 0#5 ++ a ++ 3#4 ++ c
  | .csrc a c => 0x17#6 ++ 0#5 ++ a ++ 4#4 ++ c
  | .trap n => 0x17#6 ++ 0#5 ++ 0#5 ++ 5#4 ++ n
  | .bkpt => 0x17#6 ++ 0#5 ++ 0#5 ++ 24576#16
  | .wfe a => 0x17#6 ++ 0#5 ++ a ++ 28672#16
  | .exit => 0x17#6 ++ 0#5 ++ 0#5 ++ 32768#16
  | .yield => 0x17#6 ++ 0#5 ++ 0#5 ++ 36864#16
  | .wsb m => 0x17#6 ++ 0#5 ++ 0#5 ++ 160#8 ++ m ++ 0#1
  | .fork a p => 0x17#6 ++ 0#5 ++ a ++ 11264#14 ++ p
  | .vcfg d a g e => 0x18#6 ++ d ++ a ++ 0#12 ++ g ++ e
  | .vadd d a b x y k => 0x19#6 ++ d ++ a ++ b ++ x ++ y ++ k ++ 0#3 ++ 0#3
  | .vsub d a b x y k => 0x19#6 ++ d ++ a ++ b ++ x ++ y ++ k ++ 0#3 ++ 1#3
  | .vmul d a b x y k => 0x19#6 ++ d ++ a ++ b ++ x ++ y ++ k ++ 0#3 ++ 2#3
  | .vmulh d a b x y k => 0x19#6 ++ d ++ a ++ b ++ x ++ y ++ k ++ 0#3 ++ 3#3
  | .vand d a b x y k => 0x19#6 ++ d ++ a ++ b ++ x ++ y ++ k ++ 0#3 ++ 4#3
  | .vor d a b x y k => 0x19#6 ++ d ++ a ++ b ++ x ++ y ++ k ++ 0#3 ++ 5#3
  | .vxor d a b x y k => 0x19#6 ++ d ++ a ++ b ++ x ++ y ++ k ++ 0#3 ++ 6#3
  | .vandn d a b x y k => 0x19#6 ++ d ++ a ++ b ++ x ++ y ++ k ++ 0#3 ++ 7#3
  | .vsll d a b x y k => 0x1A#6 ++ d ++ a ++ b ++ x ++ y ++ k ++ 0#3 ++ 0#3
  | .vsrl d a b x y k => 0x1A#6 ++ d ++ a ++ b ++ x ++ y ++ k ++ 0#3 ++ 1#3
  | .vsra d a b x y k => 0x1A#6 ++ d ++ a ++ b ++ x ++ y ++ k ++ 0#3 ++ 2#3
  | .vmin d a b x y k => 0x1A#6 ++ d ++ a ++ b ++ x ++ y ++ k ++ 0#3 ++ 3#3
  | .vmax d a b x y k => 0x1A#6 ++ d ++ a ++ b ++ x ++ y ++ k ++ 0#3 ++ 4#3
  | .vminu d a b x y k => 0x1A#6 ++ d ++ a ++ b ++ x ++ y ++ k ++ 0#3 ++ 5#3
  | .vmaxu d a b x y k => 0x1A#6 ++ d ++ a ++ b ++ x ++ y ++ k ++ 0#3 ++ 6#3
  | .vadds d a b x y k => 0x1A#6 ++ d ++ a ++ b ++ x ++ y ++ k ++ 0#3 ++ 7#3
  | .vcmpEq d a b x y k => 0x1B#6 ++ 0#2 ++ d ++ a ++ b ++ x ++ y ++ k ++ 0#3 ++ 0#3
  | .vcmpNe d a b x y k => 0x1B#6 ++ 0#2 ++ d ++ a ++ b ++ x ++ y ++ k ++ 0#3 ++ 1#3
  | .vcmpLt d a b x y k => 0x1B#6 ++ 0#2 ++ d ++ a ++ b ++ x ++ y ++ k ++ 0#3 ++ 2#3
  | .vcmpLe d a b x y k => 0x1B#6 ++ 0#2 ++ d ++ a ++ b ++ x ++ y ++ k ++ 0#3 ++ 3#3
  | .vcmpLtu d a b x y k => 0x1B#6 ++ 0#2 ++ d ++ a ++ b ++ x ++ y ++ k ++ 0#3 ++ 4#3
  | .vcmpLeu d a b x y k => 0x1B#6 ++ 0#2 ++ d ++ a ++ b ++ x ++ y ++ k ++ 0#3 ++ 5#3
  | .vcmpFeq d a b x y k s => 0x1B#6 ++ 0#2 ++ d ++ a ++ b ++ x ++ y ++ k ++ s ++ 6#3
  | .vcmpFlt d a b x y k s => 0x1B#6 ++ 0#2 ++ d ++ a ++ b ++ x ++ y ++ k ++ s ++ 7#3
  | .vfadd d a b x y k s => 0x1C#6 ++ d ++ a ++ b ++ x ++ y ++ k ++ s ++ 0#3
  | .vfsub d a b x y k s => 0x1C#6 ++ d ++ a ++ b ++ x ++ y ++ k ++ s ++ 1#3
  | .vfmul d a b x y k s => 0x1C#6 ++ d ++ a ++ b ++ x ++ y ++ k ++ s ++ 2#3
  | .vfmin d a b x y k s => 0x1C#6 ++ d ++ a ++ b ++ x ++ y ++ k ++ s ++ 3#3
  | .vfmax d a b x y k s => 0x1C#6 ++ d ++ a ++ b ++ x ++ y ++ k ++ s ++ 4#3
  | .vfdiv d a b x y k s => 0x1C#6 ++ d ++ a ++ b ++ x ++ y ++ k ++ s ++ 5#3
  | .vfsqrt d a x k s => 0x1C#6 ++ d ++ a ++ 0#5 ++ x ++ 0#1 ++ k ++ s ++ 6#3
  | .vfscale d a b x y k s => 0x1C#6 ++ d ++ a ++ b ++ x ++ y ++ k ++ s ++ 7#3
  | .vfma d a b x y k s => 0x1D#6 ++ d ++ a ++ b ++ x ++ y ++ k ++ s ++ 0#3
  | .vfms d a b x y k s => 0x1D#6 ++ d ++ a ++ b ++ x ++ y ++ k ++ s ++ 1#3
  | .vfnma d a b x y k s => 0x1D#6 ++ d ++ a ++ b ++ x ++ y ++ k ++ s ++ 2#3
  | .vfnms d a b x y k s => 0x1D#6 ++ d ++ a ++ b ++ x ++ y ++ k ++ s ++ 3#3
  | .vfcvt d a x k s => 0x1E#6 ++ d ++ a ++ 0#5 ++ x ++ 0#1 ++ k ++ s ++ 0#3
  | .vfcvti d a x k s => 0x1E#6 ++ d ++ a ++ 0#5 ++ x ++ 0#1 ++ k ++ s ++ 1#3
  | .vfneg d a x k s => 0x1E#6 ++ d ++ a ++ 0#5 ++ x ++ 0#1 ++ k ++ s ++ 2#3
  | .vfabs d a x k s => 0x1E#6 ++ d ++ a ++ 0#5 ++ x ++ 0#1 ++ k ++ s ++ 3#3
  | .vfclass d a x k s => 0x1E#6 ++ d ++ a ++ 0#5 ++ x ++ 0#1 ++ k ++ s ++ 4#3
  | .vredsum d a x k => 0x1F#6 ++ d ++ a ++ 0#5 ++ x ++ 0#1 ++ k ++ 0#3 ++ 0#3
  | .vredmax d a x k => 0x1F#6 ++ d ++ a ++ 0#5 ++ x ++ 0#1 ++ k ++ 0#3 ++ 1#3
  | .vredmin d a x k => 0x1F#6 ++ d ++ a ++ 0#5 ++ x ++ 0#1 ++ k ++ 0#3 ++ 2#3
  | .vredmaxu d a x k => 0x1F#6 ++ d ++ a ++ 0#5 ++ x ++ 0#1 ++ k ++ 0#3 ++ 3#3
  | .vredminu d a x k => 0x1F#6 ++ d ++ a ++ 0#5 ++ x ++ 0#1 ++ k ++ 0#3 ++ 4#3
  | .vfredsum d a x k s => 0x1F#6 ++ d ++ a ++ 0#5 ++ x ++ 0#1 ++ k ++ s ++ 5#3
  | .vfredmax d a x k s => 0x1F#6 ++ d ++ a ++ 0#5 ++ x ++ 0#1 ++ k ++ s ++ 6#3
  | .vfredmin d a x k s => 0x1F#6 ++ d ++ a ++ 0#5 ++ x ++ 0#1 ++ k ++ s ++ 7#3
  | .vperm d a b x y k => 0x20#6 ++ d ++ a ++ b ++ x ++ y ++ k ++ 0#3 ++ 0#3
  | .vslideup d a b x k => 0x20#6 ++ d ++ a ++ b ++ x ++ 0#1 ++ k ++ 0#3 ++ 1#3
  | .vslidedn d a b x k => 0x20#6 ++ d ++ a ++ b ++ x ++ 0#1 ++ k ++ 0#3 ++ 2#3
  | .vcompress d a x k => 0x20#6 ++ d ++ a ++ 0#5 ++ x ++ 0#1 ++ k ++ 0#3 ++ 3#3
  | .vexpand d a x k => 0x20#6 ++ d ++ a ++ 0#5 ++ x ++ 0#1 ++ k ++ 0#3 ++ 4#3
  | .viota d k => 0x20#6 ++ d ++ 0#5 ++ 0#5 ++ 0#1 ++ 0#1 ++ k ++ 0#3 ++ 5#3
  | .vrix d b y k => 0x20#6 ++ d ++ 0#5 ++ b ++ 0#1 ++ y ++ k ++ 0#3 ++ 6#3
  | .vrixw a b x y k => 0x20#6 ++ 0#5 ++ a ++ b ++ x ++ y ++ k ++ 0#3 ++ 7#3
  | .vmv d a x k => 0x21#6 ++ d ++ a ++ 0#5 ++ x ++ 0#1 ++ k ++ 0#3 ++ 0#3
  | .vsplat d a k => 0x21#6 ++ d ++ a ++ 0#5 ++ 0#1 ++ 0#1 ++ k ++ 0#3 ++ 1#3
  | .vext d a b x => 0x21#6 ++ d ++ a ++ b ++ x ++ 0#1 ++ 0#3 ++ 0#3 ++ 2#3
  | .vins d a b => 0x21#6 ++ d ++ a ++ b ++ 0#1 ++ 0#1 ++ 0#3 ++ 0#3 ++ 3#3
  | .vsel d a b x y k => 0x21#6 ++ d ++ a ++ b ++ x ++ y ++ k ++ 0#3 ++ 4#3
  | .vmvi d a => 0x21#6 ++ d ++ a ++ 0#5 ++ 0#1 ++ 0#1 ++ 0#3 ++ 0#3 ++ 5#3
  | .vmvo d a x => 0x21#6 ++ d ++ a ++ 0#5 ++ x ++ 0#1 ++ 0#3 ++ 0#3 ++ 6#3
  | .kand d a b => 0x22#6 ++ 0#2 ++ d ++ 0#2 ++ a ++ 0#2 ++ b ++ 0#1 ++ 0#1 ++ 0#3 ++ 0#3 ++ 0#3
  | .kor d a b => 0x22#6 ++ 0#2 ++ d ++ 0#2 ++ a ++ 0#2 ++ b ++ 0#1 ++ 0#1 ++ 0#3 ++ 0#3 ++ 1#3
  | .kxor d a b => 0x22#6 ++ 0#2 ++ d ++ 0#2 ++ a ++ 0#2 ++ b ++ 0#1 ++ 0#1 ++ 0#3 ++ 0#3 ++ 2#3
  | .kandn d a b => 0x22#6 ++ 0#2 ++ d ++ 0#2 ++ a ++ 0#2 ++ b ++ 0#1 ++ 0#1 ++ 0#3 ++ 0#3 ++ 3#3
  | .kpopc d a => 0x22#6 ++ d ++ 0#2 ++ a ++ 0#5 ++ 0#1 ++ 0#1 ++ 0#3 ++ 0#3 ++ 4#3
  | .kfirst d a => 0x22#6 ++ d ++ 0#2 ++ a ++ 0#5 ++ 0#1 ++ 0#1 ++ 0#3 ++ 0#3 ++ 5#3
  | .kbrka d a => 0x22#6 ++ 0#2 ++ d ++ 0#2 ++ a ++ 0#5 ++ 0#1 ++ 0#1 ++ 0#3 ++ 0#3 ++ 6#3
  | .kbrki d a => 0x22#6 ++ 0#2 ++ d ++ 0#2 ++ a ++ 0#5 ++ 0#1 ++ 0#1 ++ 0#3 ++ 0#3 ++ 7#3
  | .gbcast a x => 0x33#6 ++ 0#5 ++ a ++ 0#5 ++ x ++ 0#1 ++ 0#3 ++ 0#3 ++ 0#3
  | .grecv d => 0x33#6 ++ d ++ 0#5 ++ 0#5 ++ 0#1 ++ 0#1 ++ 0#3 ++ 0#3 ++ 1#3
  | .vld v a k w s => 0x23#6 ++ v ++ a ++ 0#5 ++ k ++ w ++ s ++ 0#1 ++ 0#1
  | .vlds v a b k w s => 0x23#6 ++ v ++ a ++ b ++ k ++ w ++ s ++ 0#1 ++ 1#1
  | .vldx v a b k w s c => 0x24#6 ++ v ++ a ++ b ++ k ++ w ++ s ++ c ++ 0#1
  | .vgl v a b k w s c => 0x24#6 ++ v ++ a ++ b ++ k ++ w ++ s ++ c ++ 1#1
  | .vst v a k w s c => 0x25#6 ++ v ++ a ++ 0#5 ++ k ++ w ++ s ++ c ++ 0#1
  | .vsts v a b k w s c => 0x25#6 ++ v ++ a ++ b ++ k ++ w ++ s ++ c ++ 1#1
  | .vstx v a b k w s c => 0x26#6 ++ v ++ a ++ b ++ k ++ w ++ s ++ c ++ 0#1
  | .vsc v a b k w s c => 0x26#6 ++ v ++ a ++ b ++ k ++ w ++ s ++ c ++ 1#1
  | .vldff v a k w s => 0x27#6 ++ v ++ a ++ 0#5 ++ k ++ w ++ s ++ 0#1 ++ 0#1
  | .vappend v a b k w s c => 0x27#6 ++ v ++ a ++ b ++ k ++ w ++ s ++ c ++ 1#1
  | .vrred v a b k w s c => 0x28#6 ++ v ++ a ++ b ++ k ++ w ++ s ++ c ++ 0#1
  | .tshape d a f => 0x29#6 ++ d ++ a ++ 0#5 ++ 0#1 ++ 0#1 ++ f ++ 0#2 ++ 0#2 ++ 0#2
  | .setmw a => 0x29#6 ++ 0#5 ++ a ++ 0#5 ++ 0#1 ++ 0#1 ++ 0#3 ++ 0#2 ++ 0#2 ++ 1#2
  | .tpref m p w => 0x29#6 ++ m ++ 0#5 ++ 0#5 ++ 0#1 ++ 0#1 ++ 0#3 ++ p ++ w ++ 2#2
  | .tdrop m p w => 0x29#6 ++ m ++ 0#5 ++ 0#5 ++ 0#1 ++ 0#1 ++ 0#3 ++ p ++ w ++ 3#2
  | .tzero m p w => 0x29#6 ++ m ++ 0#5 ++ 0#5 ++ 0#1 ++ 1#1 ++ 0#3 ++ p ++ w ++ 0#2
  | .tloadA m a b y p w => 0x2A#6 ++ m ++ a ++ b ++ y ++ p ++ w ++ 0#3 ++ 0#2
  | .tloadB m a b y p w => 0x2A#6 ++ m ++ a ++ b ++ y ++ p ++ w ++ 1#3 ++ 0#2
  | .tloadC m a b p w => 0x2A#6 ++ m ++ a ++ b ++ 0#2 ++ p ++ w ++ 2#3 ++ 0#2
  | .tstoreA m a b p w => 0x2A#6 ++ m ++ a ++ b ++ 0#2 ++ p ++ w ++ 3#3 ++ 0#2
  | .tstoreB m a b p w => 0x2A#6 ++ m ++ a ++ b ++ 0#2 ++ p ++ w ++ 4#3 ++ 0#2
  | .tstoreC m a b p w => 0x2A#6 ++ m ++ a ++ b ++ 0#2 ++ p ++ w ++ 5#3 ++ 0#2
  | .tmma d a l f p w => 0x2B#6 ++ d ++ a ++ 0#5 ++ l ++ 0#1 ++ f ++ p ++ w ++ 0#2
  | .tmmaSet d a l f p w => 0x2B#6 ++ d ++ a ++ 0#5 ++ l ++ 0#1 ++ f ++ p ++ w ++ 1#2
  | .tmmaSw d a l f p w => 0x2B#6 ++ d ++ a ++ 0#5 ++ l ++ 0#1 ++ f ++ p ++ w ++ 2#2
  | .tmmaSetSw d a l f p w => 0x2B#6 ++ d ++ a ++ 0#5 ++ l ++ 0#1 ++ f ++ p ++ w ++ 3#2
  | .twload a l f p w => 0x2C#6 ++ 0#5 ++ a ++ 0#5 ++ l ++ 0#1 ++ f ++ p ++ w ++ 0#2
  | .vtom m a b p w => 0x2D#6 ++ m ++ a ++ b ++ 0#1 ++ 0#1 ++ 0#3 ++ p ++ w ++ 0#2
  | .mtov d a b l p w => 0x2D#6 ++ d ++ a ++ b ++ l ++ 0#1 ++ 1#3 ++ p ++ w ++ 0#2
  | .ttrans d a l p w => 0x2D#6 ++ d ++ a ++ 0#5 ++ l ++ 0#1 ++ 2#3 ++ p ++ w ++ 0#2
  | .tcvt d a l f p w => 0x2D#6 ++ d ++ a ++ 0#5 ++ l ++ 0#1 ++ f ++ p ++ w ++ 1#2
  | .tadd d a b l h f p w => 0x2D#6 ++ d ++ a ++ b ++ l ++ h ++ f ++ p ++ w ++ 2#2
  | .cpy a b c g p w => 0x2E#6 ++ a ++ b ++ c ++ g ++ p ++ w ++ 0#3
  | .cpyt a b c g p w => 0x2E#6 ++ a ++ b ++ c ++ g ++ p ++ w ++ 1#3
  | .mdiscard a c g p w => 0x2E#6 ++ a ++ 0#5 ++ c ++ g ++ p ++ w ++ 2#3
  | .cpyz a b c g p w => 0x2E#6 ++ a ++ b ++ c ++ g ++ p ++ w ++ 3#3
  | .binit a b p w => 0x2F#6 ++ a ++ b ++ 0#5 ++ 0#4 ++ p ++ w ++ 0#3
  | .bexp a b p w => 0x2F#6 ++ a ++ b ++ 0#5 ++ 0#4 ++ p ++ w ++ 1#3
  | .barr a b p w => 0x2F#6 ++ a ++ b ++ 0#5 ++ 0#4 ++ p ++ w ++ 2#3
  | .bwait a b p w => 0x2F#6 ++ a ++ b ++ 0#5 ++ 0#4 ++ p ++ w ++ 3#3
  | .btest a b p w => 0x2F#6 ++ a ++ b ++ 0#5 ++ 0#4 ++ p ++ w ++ 4#3
  | .pend a b p w => 0x2F#6 ++ a ++ b ++ 0#5 ++ 0#4 ++ p ++ w ++ 5#3
  | .bexparr a b c p w => 0x2F#6 ++ a ++ b ++ c ++ 0#4 ++ p ++ w ++ 6#3
  | .tokp p => 0x30#6 ++ 0#5 ++ 0#5 ++ 0#5 ++ 0#4 ++ p ++ 0#2 ++ 0#3
  | .tokw w => 0x30#6 ++ 0#5 ++ 0#5 ++ 0#5 ++ 0#4 ++ 0#2 ++ w ++ 1#3
  | .gset a g => 0x30#6 ++ a ++ 0#5 ++ 0#5 ++ g ++ 0#2 ++ 0#2 ++ 2#3
  | .grst g => 0x30#6 ++ 0#5 ++ 0#5 ++ 0#5 ++ g ++ 0#2 ++ 0#2 ++ 3#3
  | .msend a g p w => 0x31#6 ++ a ++ 0#5 ++ 0#5 ++ g ++ p ++ w ++ 0#3
  | .tsend a b g p w => 0x31#6 ++ a ++ b ++ 0#5 ++ g ++ p ++ w ++ 1#3
  | .tsendAdd a b g p w => 0x31#6 ++ a ++ b ++ 0#5 ++ g ++ p ++ w ++ 2#3
  | .rpost a b p w => 0x31#6 ++ a ++ b ++ 0#5 ++ 0#4 ++ p ++ w ++ 3#3
  | .rpostm a b c p w => 0x31#6 ++ a ++ b ++ c ++ 0#4 ++ p ++ w ++ 4#3
  | .rcancel a b p w => 0x31#6 ++ a ++ b ++ 0#5 ++ 0#4 ++ p ++ w ++ 5#3
  | .rprobe a b c p w => 0x31#6 ++ a ++ b ++ c ++ 0#4 ++ p ++ w ++ 6#3
  | .swp a b p w => 0x32#6 ++ a ++ b ++ 0#5 ++ 0#4 ++ p ++ w ++ 0#3
  | .swnext p w => 0x32#6 ++ 0#5 ++ 0#5 ++ 0#5 ++ 0#4 ++ p ++ w ++ 1#3
  | .swexit p w => 0x32#6 ++ 0#5 ++ 0#5 ++ 0#5 ++ 0#4 ++ p ++ w ++ 2#3
  | .swake a b p w => 0x32#6 ++ a ++ b ++ 0#5 ++ 0#4 ++ p ++ w ++ 3#3
  | .swakev a b c p w => 0x32#6 ++ a ++ b ++ 0#2 ++ c ++ 0#4 ++ p ++ w ++ 4#3
  | .swakee a b p w => 0x32#6 ++ a ++ b ++ 0#5 ++ 0#4 ++ p ++ w ++ 5#3
  | .stnFlagIncrement => 0#32
  | .msmcfgWrite => 0#32
  | .srseedWrite => 0#32
  | .registerWrite => 0#32
  | .wfeTimeout => 0#32
  | .vectorLoadLateError => 0#32
  | .scatterAck => 0#32
  | .mCommandRetire => 0#32
  | .fillComplete => 0#32
  | .spillComplete => 0#32
  | .copyStart => 0#32
  | .copyRetire => 0#32
  | .guardedCommandDiscard => 0#32
  | .bwaitWake => 0#32
  | .sendStart => 0#32
  | .pullRequest => 0#32
  | .sendComplete => 0#32
  | .headerArrival => 0#32
  | .sequenceGapClose => 0#32
  | .pullComplete => 0#32
  | .pullFail => 0#32
  | .landing => 0#32
  | .destfaultRetry => 0#32
  | .groupOpen => 0#32
  | .sweepEngineFault => 0#32
  | .wakeApply => 0#32
  | .swakeePass => 0#32
  | .scoreboardSlotComplete => 0#32
  | .remoteTimeout => 0#32
  | .tagQuarantineEnd => 0#32
  | .latereply => 0#32
  | .watchdog => 0#32
  | .faultRecordAppend => 0#32
  | .schedulerServe => 0#32
  | .preemptionHalt => 0#32
  | .saveComplete => 0#32
  | .priorityInheritanceMove => 0#32
  | .heldContinuationEnqueue => 0#32
  | .throttleRaise => 0#32
  | .throttleLower => 0#32
  | .powerPreemption => 0#32
  | .yalushResume => 0#32
  | .launchEnd => 0#32
  | .msmThermalLimit => 0#32
  | .msmThermalClear => 0#32
  | .hbmThermalLevel => 0#32
  | .eccCorrected => 0#32
  | .uncorrectedError => 0#32
  | .selfTestComplete => 0#32
  | .shootdownRequest => 0#32
  | .shootdownArrival => 0#32
  | .scanComplete => 0#32
  | .featureMaskNarrow => 0#32
  | .securityAlarm => 0#32
  | .partitionActivate => 0#32
  | .ylLaunch => 0#32
  | .ylWait => 0#32
  | .ylMap => 0#32
  | .ylUnmap => 0#32
  | .ylExmap => 0#32
  | .ylMboxOpen => 0#32
  | .ylMboxClose => 0#32
  | .ylJoinCreate => 0#32
  | .ylFaultPolicy => 0#32
  | .ylQuota => 0#32
  | .ylPeerQuery => 0#32
  | .ylAttest => 0#32
  | .ylExit => 0#32
  | .ylClock => 0#32
  | .ylMemAlloc => 0#32
  | .ylMemFree => 0#32
  | .doorbell => 0#32
  | .functionLevelReset => 0#32
  | .linkDown => 0#32
  | .powerGood => 0#32
  | .recoveryImageSubmit => 0#32
  | .powerCapSet => 0#32
  | .packageReset => 0#32
  | .idleEntry => 0#32
  | .idleExit => 0#32
  | .accessPerformed => 0#32
  | .remoteAccessArrival => 0#32
  | .linkUp => 0#32
  | .powerLoss => 0#32

end Sys2Proof
end

