-- ==== Sys2Proof/Machine/Yalush.lean ====
section
/-! DEFINITION. Yalush: page tables, shootdowns and the scanner, the system calls of the control program, the settling of PARKED strands,
and the activation of a partition (spec/19_binary_interface.md R361, R362, spec/09_translation_and_faults.md R149 to R159, R165,
R172 to R174, spec/10_descriptor_tables.md R179, R181, R189 to R192). -/

namespace Sys2Proof.Machine

open Sys2Proof

/-! ### Results of calls (spec/19_binary_interface.md R362) -/

/-- A call of the partition's control program returns a value in a0. -/
def ylReturn (s : State) (pid : BitVec 6) (x : Word) : State := s.updPart pid (fun p => { p with a0 := x })

/-- An error: the negated number. -/
def errno (n : Nat) : Word := 0#64 - BitVec.ofNat 64 n
def eInval : Word := errno 1
def eNoMem : Word := errno 2
def ePerm : Word := errno 3
def eBusy : Word := errno 4
def eNoSys : Word := errno 5
def eFault : Word := errno 6
def eNoEnt : Word := errno 7
def eTimedOut : Word := errno 8

/-- Memory of the partition that Yalush reads or writes for its control program; where it does not translate or cannot be read, the state
that the failed access leaves. It waits for a self-test of a row (spec/05_memories.md R101). -/
def ylPlace (s : State) (pid : BitVec 6) (va : Word) (n : Nat) (need : Need) : Except State (Nat × Bool × State) :=
  match locate s (engineCtx pid) va n 1 need acceptsLocal with
  | .ok (.mem pa comp, s0) =>
    let s1 := s0.hold (lineTested s0 pa n)
    match homeFault s1 (.mem pa comp) n need.reads with
    | some c => .error (engineLost pid noSid (.mem pa comp) va.toNat c s1)
    | none => .ok (pa, comp, s1)
  | .ok _ => .error s
  | .error f => .error (afterFail pid noSid f s)

/-- Reads a range that may cross pages, page by page. -/
def ylRead (pid : BitVec 6) : Nat → Nat → Nat → State → Except State (List Byte × State)
  | 0, _, _, s => .ok ([], s)
  | _, _, 0, s => .ok ([], s)
  | k + 1, va, n + 1, s =>
    let m := min (n + 1) (65536 - va % 65536)
    match ylPlace s pid (BitVec.ofNat 64 va) m .read with
    | .error u => .error u
    | .ok (pa, _, s1) => (ylRead pid k (va + m) (n + 1 - m) s1).map (fun x => (homeRead s1 pa m ++ x.1, x.2))

/-- Writes bytes that may cross pages, page by page; where a page stops it, the state with those before it written (DESIGN CHOICE, Assumption
46: the manual does not say what a call that fails has written). -/
def ylWrite (pid : BitVec 6) : Nat → Nat → List Byte → State → Except State State
  | 0, _, _, s => .ok s
  | k + 1, va, bs, s =>
    if bs.isEmpty then .ok s
    else
      let m := min bs.length (65536 - va % 65536)
      match ylPlace s pid (BitVec.ofNat 64 va) m .write with
      | .error u => .error u
      | .ok (pa, comp, s1) => ylWrite pid k (va + m) (bs.drop m) (homeWrite s1 none pa (bs.take m) comp)

/-- Pages that a range of `n` bytes can touch. -/
def pagesIn (n : Nat) : Nat := n / 65536 + 2

/-! ### Page tables (spec/09_translation_and_faults.md R149, R150) -/

/-- Is the intermediate page mapped by the hypervisor, of a kind, within the partition's ranges? -/
def iaPage (s : State) (p : Partition) (ia : Nat) (kind : BitVec 2) : Option Nat :=
  match hypLeaf s p ia with
  | .error _ => none
  | .ok h =>
    let pa := h.frame + ia % 2 ^ h.bits
    if pteKind h.pte = kind ∧ frameOk p kind pa 65536 = true then some pa else none

/-- A zeroed frame for a table, from Yalush's own allocator (Assumption 18). -/
def newTable (s : State) (pid : BitVec 6) : Option (Nat × State) :=
  let p := s.part pid
  if p.blocks.any (fun b => decide (b.ia ≤ p.brk) && decide (p.brk < b.ia + b.size)) then none
  else (iaPage s p p.brk 0#2).map (fun pa =>
    (p.brk, (homeCells s pa 4096 [] false).updPart pid (fun q => { q with brk := q.brk + 65536 })))

/-- Writes the leaf of a 64 KiB page, with the tables above it: the number of the error where that fails. -/
def mapLeaf (pid : BitVec 6) (va : Nat) (pte : Word) : List Nat → Nat → State → Except Nat State
  | [], _, _ => .error 1
  | lo :: rest, table, s =>
    match hypPa s (s.part pid) (table + 8 * ((va / 2 ^ lo) % 512)) with
    | .error _ => .error 6
    | .ok pa =>
      let e := readPte s pa
      if lo = 16 then .ok (homeWrite s none pa (bvBytes pte) false)
      else if pteV e then (if pteT e then mapLeaf pid va pte rest (pteFrame e) s else .error 1)
      else match newTable s pid with
        | none => .error 2
        | some (ia, s1) => mapLeaf pid va pte rest ia (homeWrite s1 none pa (bvBytes (BitVec.ofNat 64 ia ||| 3#64)) false)

/-- A leaf: kind, permissions, frame and peer. -/
def mkLeaf (kind : BitVec 2) (w r : Bool) (frame : Nat) (peer : BitVec 10) : Word :=
  0#2 ++ peer ++ BitVec.ofNat 36 (frame / 65536) ++ 0#7 ++ kind ++ 0#3 ++ BitVec.ofBool w ++ BitVec.ofBool r ++ 0#1 ++ 1#1

/-- Before a page is mapped with W: where a scan had made its frame's own hypervisor leaf executable and the scan bit has been cleared since,
that leaf gives up X for W again, so that the frame can be written (spec/09_translation_and_faults.md R159, R172; Assumption 19). -/
def writableAgain (s : State) (pid : BitVec 6) (pte : Word) : State :=
  let p := s.part pid
  if !pteW pte then s
  else match hypLeaf s p (pteFrame pte) with
    | .error _ => s
    | .ok h =>
      if h.bits = 16 ∧ pteX h.pte = true ∧ p.scan.contains (h.frame / 65536) = false then
        homeWrite s none h.at_ (bvBytes ((h.pte &&& ~~~(0x10#64)) ||| 0x08#64)) false
      else s

/-- Maps pages one after another. -/
def mapPages (pid : BitVec 6) (leaf : Nat → Word) (va : Nat) : Nat → Nat → State → Except Nat State
  | 0, _, s => .ok s
  | n + 1, k, s =>
    match mapLeaf pid (va + 65536 * k) (leaf k) walkLevels (s.part pid).guestRoot (writableAgain s pid (leaf k)) with
    | .error e => .error e
    | .ok s1 => mapPages pid leaf va n (k + 1) s1

/-- The physical frame of a page. -/
def pageFrame (s : State) (pid : BitVec 6) (va : Nat) : Option Nat :=
  let p := s.part pid
  match guestLeaf s p va with
  | .error _ => none
  | .ok g => match hypPa s p (g.frame + va % 2 ^ g.bits) with
    | .error _ => none
    | .ok pa => some (pa / 65536)

/-- Frames of a range whose scan bit is set. -/
def scannedIn (s : State) (pid : BitVec 6) (va n : Nat) : List Nat :=
  ((List.range n).filterMap (fun k => pageFrame s pid (va + 65536 * k))).filter (fun f => (s.part pid).scan.contains f)

/-- Clears the leaves of a range's 64 KiB pages. -/
def unmapPages (pid : BitVec 6) (va : Nat) : Nat → State → State
  | 0, s => s
  | n + 1, s =>
    let s1 := unmapPages pid va n s
    match guestLeaf s1 (s1.part pid) (va + 65536 * n) with
    | .ok g => if g.bits = 16 then homeWrite s1 none g.at_ (natBytes 8 0) false else s1
    | .error _ => s1

/-! ### Shootdowns (spec/09_translation_and_faults.md R158, R159) -/

/-- Starts a shootdown of a range. -/
def startShootdown (s : State) (pid : BitVec 6) (lo hi : Nat) (bar : Word) (frames : List Nat) (fin : Done) : State :=
  { s with shootdowns := s.shootdowns ++ [⟨pid, lo, hi, bar, frames, List.range 6, fin⟩] }

/-- SHOOTDOWN_REQUEST: Yalush asks every die to drop the entries of partition `p` for the range of `a1` bytes at `a0`, and names the barrier
object at `a2`, or 0 for none. -/
def execShootdownRequest (s : State) : Out :=
  .next (startShootdown s s.arg.p s.arg.a0.toNat (s.arg.a0.toNat + s.arg.a1.toNat) s.arg.a2 [] .nothing)

/-- Does the entry translate an address of the range? -/
def entryIn (x : Shootdown) (e : TlbEntry) : Bool :=
  e.part == x.part && decide (e.base < x.hi) && decide (x.lo < e.base + 2 ^ e.bits)

/-- Does the range meet `n` bytes at an address? -/
def Shootdown.meets (x : Shootdown) (va n : Nat) : Bool := decide (va < x.hi) && decide (x.lo < va + n)

/-- Has a copy that awaits other packages bytes in the range: of its map while that is awaited, and then of what it reads and writes? -/
def copyMeets (x : Shootdown) (c : Copy) : Bool :=
  match c.phase with
  | .map => x.meets c.cmd.src.toNat 112
  | _ => (copyPieces c).any (fun p => x.meets p.dst p.n || p.src.any (fun a => x.meets a p.n))

/-- Has a copy accesses under way that used a translation: answers of other packages awaited, or further requests to send? -/
def copyWaits (c : Copy) : Bool :=
  match c.phase with
  | .run r => r != CopyReads.none
  | _ => true

/-- Has an engine of the die a request on its way to another package, or a barrier of a copy, that used a translation of the range? The
work-queue engine's requests about joins leave by the die of the strand that they serve. -/
def engineBusy (s : State) (x : Shootdown) (die : Nat) : Bool :=
  let joinOut (n : Nat) (j : JoinOp) : Bool :=
    j.sid.toNat / 256 % 6 == die && decide (j.part = x.part) && j.tag.isSome && x.meets j.va n
  s.copies.any (fun c => dieOf c.core == die && decide (c.owner.part = x.part) &&
      ((c.bar.isSome && x.meets c.cmd.bar.toNat 16) || ((c.tag.isSome || copyWaits c) && copyMeets x c))) ||
    s.joinOps.any (joinOut 128) || s.joinReads.any (joinOut 8) ||
    s.ends.any (fun e => endDie e == die && decide (e.owner.part = x.part) && e.asked &&
      (e.items.take 1).any (fun i => x.meets i.va 16)) ||
    s.mailboxes.any (fun kb => kb.1 % 6 == die && decide (kb.2.part = x.part) && kb.2.claims.any (fun c =>
      c.asked && x.meets (phDest c.hole.rcd).toNat (pullLen c))) ||
    s.sends.any (fun c => c.hnd.toNat / 1024 == die && decide (c.owner.part = x.part) && c.asked.isSome &&
      x.meets (sdSrc c.desc).toNat (sdLen c.desc))

/-- Has a matrix command of a strand requests on their way to another package that used a translation of the range? -/
def tileBusy (x : Shootdown) (c : MCommand) : Bool :=
  c.started && c.tag.isSome && (match tileForm c.ins with
    | none => false
    | some (lay, v, _) => (tileRuns lay v c.grant).any (fun r => x.meets (runVa c r).toNat 512))

/-- Is an access of the die under way that used a translation of the range (spec/09_translation_and_faults.md R158)? -/
def rangeBusy (s : State) (x : Shootdown) (die : Nat) : Bool :=
  s.strands.any (fun kt => dieOf (coreOf kt.1) == die && decide (kt.2.part = x.part) &&
      (kt.2.out.any (fun a => x.meets a.va a.n && !isBwait a) || kt.2.mq.any (tileBusy x))) ||
    engineBusy s x die

/-- A BWAIT of the die that waits on an object of the range executes again, and translates again (spec/09_translation_and_faults.md R158). -/
def restartWaits (s : State) (x : Shootdown) (die : Nat) : State :=
  let mine (t : Strand) : Bool := decide (t.part = x.part) && ((match t.wait with
    | .bwait _ va _ _ => x.meets va.toNat 16
    | _ => false) || t.out.any (fun a => isBwait a && x.meets a.va a.n))
  ((s.strands.filter (fun kt => dieOf (coreOf kt.1) == die && mine kt.2)).map (fun kt => kt.1)).foldl abandonWait s

/-! ### The scanner (spec/09_translation_and_faults.md R172, spec/13_encoding.md R233) -/

/-- The first word of a page that the scanner refuses, from a word on: its number and the reason. -/
def firstBad (s : State) (mask : Word) (pa : Nat) : Nat → Nat → Option (Nat × Nat)
  | 0, _ => none
  | n + 1, i =>
    match scanWord mask (bytesBv 32 (homeRead s (pa + 4 * i) 4)) with
    | .error r => some (i, scanReasonCode r)
    | .ok _ => firstBad s mask pa n (i + 1)

/-- What the scanner finds in a page: reason 6 concerns the whole page and comes before any word is read (spec/13_encoding.md R223). A page
with poison, or on a stack that is shut down, cannot be read: reason 6 too (DESIGN CHOICE, Assumption 45). -/
def scanPage (s : State) (mask : Word) (pa : Nat) : Option (Nat × Nat) :=
  if poisoned s pa 65536 || (lostPart s pa).isSome then some (0, 6) else firstBad s mask pa 16384 0

/-- Does an access write what it reaches? -/
def AccessOp.writes : AccessOp → Bool
  | .load _ _ | .vload _ _ _ | .btest _ | .bwait _ | .entry _ | .record | .wake _ _ => false
  | .claim _ | .store _ | .amo _ _ _ | .cas _ _ _ | .flag _ | .vstore _ | .vsc _ _ _ | .reduce _ _ _ | .append _ | .barrier _ _ _ | .binit _ => true

/-- Is a strand's write to a frame, from before the frame's scan bit was set, still to be performed (spec/13_encoding.md R233)? -/
def writesOut (s : State) (frame : Nat) : Bool :=
  s.strands.any (fun kt => kt.2.out.any (fun a => a.op.writes && isLocal s a.place && (placeKey a.place).1 != 0 && (placeKey a.place).1 != 2 &&
    (unitsOf 65536 (placeKey a.place).2 a.n).contains frame))

/-- Both leaves of a page that may be scanned: mapped readable, of kind 00 in both stages. -/
def scanLeaves (s : State) (pid : BitVec 6) (va : Nat) : Option (Leaf × Leaf × Nat) :=
  let p := s.part pid
  match guestLeaf s p va with
  | .error _ => none
  | .ok g =>
    let ia := g.frame + va % 2 ^ g.bits
    match hypLeaf s p ia with
    | .error _ => none
    | .ok h =>
      let pa := h.frame + ia % 2 ^ h.bits
      if pteR g.pte && pteR h.pte && pteKind g.pte == 0#2 && pteKind h.pte == 0#2 && frameOk p 0#2 pa 65536 then some (g, h, pa)
      else none

/-- A yl_exmap is refused at a page: a0 is an error, a1 the offset from the start of the call's range, a2 the reason. -/
def scanRefuse (s : State) (pid : BitVec 6) (off reason : Nat) : State :=
  s.updPart pid (fun p => { p with
    a0 := eInval
    a1 := BitVec.ofNat 64 off
    a2 := BitVec.ofNat 64 reason })

/-- The scan of a page starts: its frame counts as scanned while it runs (`frameScanned`; spec/13_encoding.md R233), and the feature mask is
read once. -/
def startScan (s : State) (pid : BitVec 6) (va start stop : Nat) : State :=
  match scanLeaves s pid va with
  | none => scanRefuse s pid (va - start) 6
  | some (_, _, pa) => { s with scans := s.scans ++ [⟨pid, va, pa / 65536, (s.part pid).feature, start, stop⟩] }

/-- X set and W clear. -/
def execLeaf (e : Word) : Word := (e ||| 0x10#64) &&& ~~~(0x08#64)

/-- A page passed: its frame keeps its scan bit, X is set and W cleared in both leaves. -/
def passPage (s : State) (pid : BitVec 6) (g h : Leaf) (pa : Nat) : State :=
  let s1 := homeWrite s none g.at_ (bvBytes (execLeaf g.pte)) false
  let s2 := homeWrite s1 none h.at_ (bvBytes (execLeaf (readPte s1 h.at_))) false
  s2.updPart pid (fun p => { p with scan := insNat (pa / 65536) p.scan })

/-- The scan of a page fails: the scanner clears its frame's scan bit (spec/13_encoding.md R233), and the call is refused. -/
def scanFail (s : State) (c : Scan) (off reason : Nat) : State :=
  scanRefuse (s.updPart c.part (fun p => { p with scan := p.scan.filter (fun f => f != c.frame) })) c.part off reason

/-- SCAN_COMPLETE: the scan at position `idx` has read its 16,384 words, after every write to the frame from before its start. -/
def execScanComplete (s : State) : Out :=
  match s.scans[s.arg.idx]? with
  | none => .next s
  | some c =>
    let s1 := { s with scans := dropNth s.scans s.arg.idx }
    if writesOut s c.frame then .next s
    else match scanLeaves s1 c.part c.va with
    | none => .next (scanFail s1 c (c.va - c.start) 6)
    | some (g, h, pa) =>
      if pa / 65536 ≠ c.frame then .next (scanFail s1 c (c.va - c.start) 6)
      else match scanPage s1 c.mask pa with
        | some (i, r) => .next (scanFail s1 c (c.va - c.start + 4 * i) r)
        | none =>
          .next (startShootdown (passPage s1 c.part g h pa) c.part c.va (c.va + 65536) 0#64 [] (.exmap (c.va + 65536) c.stop c.start))

/-! ### The partition table (spec/10_descriptor_tables.md R189 to R191) -/

/-- Fields of a partition-table entry. -/
def ptCores (e : BitVec 4096) : BitVec 288 := slice e 0 288
def ptWord (e : BitVec 4096) (off : Nat) : Word := slice e (8 * off) 64

/-- Is every ring of the entry valid: LOG2CAP from 6 to 16, and BASE aligned to the ring's size (spec/10_descriptor_tables.md R190)? -/
def ptRingsOk (e : BitVec 4096) : Bool :=
  (List.range 4).all (fun l =>
    let log := (slice (ptWord e (0x188 + 32 * l)) 0 5).toNat
    decide (6 ≤ log) && decide (log ≤ 16) && decide ((ptWord e (0x180 + 32 * l)).toNat % (64 * 2 ^ log) = 0))

/-- The partition-table entry of a partition as it stands: as the hypervisor wrote it, with HEAD and TAIL of each ring as the work-queue
engine keeps them (spec/10_descriptor_tables.md R190). -/
def tableEntry (s : State) (pid : BitVec 6) : BitVec 4096 :=
  let p := s.part pid
  (List.range 4).foldl (fun e l =>
    putSlice (putSlice e (8 * (0x190 + 32 * l)) 32 (p.head l)) (8 * (0x194 + 32 * l)) 32 (p.tail l)) p.entry

/-- A partition as the entry gives it. HEAD and TAIL of the rings are the work-queue engine's own, and the records of the fault queue are
never dropped (spec/09_translation_and_faults.md R160): both stay. SCANMAP names the bitmap of the scan bits: the bits that stood there stay,
and a bitmap at another base holds none (Assumption 28). -/
def partitionOf (old : Partition) (e : BitVec 4096) : Partition :=
  let range (i : Nat) : Nat × Nat := ((ptWord e (0x50 + 16 * i)).toNat, (ptWord e (0x58 + 16 * i)).toNat)
  let ring (l : Nat) : Nat × Nat := ((ptWord e (0x180 + 32 * l)).toNat, (slice (ptWord e (0x188 + 32 * l)) 0 5).toNat)
  { Partition.none with
    active := true
    cores := ptCores e
    msmlim := slice (ptWord e 0x40) 0 9
    slots := slice (ptWord e 0x40) 16 4
    hbmr := (List.range 4).map range
    mbBase := slice (ptWord e 0x90) 0 12
    mbCnt := slice (ptWord e 0x90) 16 12
    feature := ptWord e 0xA0
    weights := slice (ptWord e 0xA8) 0 32
    hypRoot := (ptWord e 0xB0).toNat
    guestRoot := (ptWord e 0xB8).toNat
    faultQ := (slice (ptWord e 0xC8) 4 60).toNat * 16
    faultLog := (slice (ptWord e 0xC8) 0 4).toNat
    errRing := (ptWord e 0xD0).toNat
    launchTab := (ptWord e 0xD8).toNat
    gaPool := (ptWord e 0xE0).toNat
    gaCnt := (ptWord e 0xE8).toNat
    peerSet := slice e (8 * 0x100) 1024
    rings := (List.range 4).map ring
    heads := (List.range 4).map old.head
    tails := (List.range 4).map old.tail
    faults := old.faults
    faultTail := old.faultTail
    scanMap := (ptWord e 0xC0).toNat
    scan := if (ptWord e 0xC0).toNat = old.scanMap then old.scan else []
    recheck := if (ptWord e 0xC0).toNat = old.scanMap then old.recheck else []
    entry := e
    ceiling := 256#9
    brk := (range 0).1 }

/-- What a finished shootdown lets happen. -/
def finish (s : State) (x : Shootdown) : State :=
  match x.fin with
  | .nothing => s
  | .ylReturn v => ylReturn s x.part v
  | .mask m => s.updPart x.part (fun p => { p with feature := m })
  | .exmap next stop start => if next < stop then startScan s x.part next start stop else ylReturn s x.part 0#64
  | .table e => s.updPart x.part (fun p => { p with
      hbmr := (partitionOf p e).hbmr
      hypRoot := (partitionOf p e).hypRoot
      guestRoot := (partitionOf p e).guestRoot
      peerSet := (partitionOf p e).peerSet
      feature := (partitionOf p e).feature })
  | .free va =>
    ylReturn (s.updPart x.part (fun p => { p with blocks := p.blocks.filter (fun b => b.va != va) })) x.part 0#64

/-- One arrival of a die on a shootdown's barrier: an update by an engine, whose answer is awaited where the object lies on another package
(spec/12_barriers_and_counters.md R210). -/
def shootdownBar (s : State) (x : Shootdown) (die : Nat) : State :=
  if x.bar = 0#64 then s else complete s (.shoot die) ⟨0, 0, x.part, noSid⟩ false [.barrier x.bar 1 0]

/-- SHOOTDOWN_ARRIVAL: die `num` drops the entries of the shootdown at position `idx`; once no access that used one is under way, it clears the
scan bits named and arrives on the barrier. The last arrival ends the shootdown. -/
def execShootdownArrival (s : State) : Out :=
  match s.shootdowns[s.arg.idx]? with
  | none => .next s
  | some x =>
    let die := s.arg.num
    if !x.dies.contains die then .next s
    else
      let s1 := restartWaits { s with tlb := s.tlb.filter (fun e => !(dieOfTlb e.unit == die && entryIn x e)) } x die
      if rangeBusy s1 x die then .next s1
      else
        let kept (p : Partition) : List Nat := p.recheck.filter (fun f => !x.frames.contains f)
        let s2 := s1.updPart x.part (fun p => { p with
          scan := p.scan.filter (fun f => !x.frames.contains f)
          recheck := match x.fin with
            | .mask _ | .table _ => x.frames.foldl (fun l f => insNat f l) p.recheck
            | _ => kept p })
        let y := { x with dies := x.dies.filter (fun d => d != die) }
        if y.dies.isEmpty then .next (finish (shootdownBar { s2 with shootdowns := dropNth s2.shootdowns s.arg.idx } x die) x)
        else .next (shootdownBar { s2 with shootdowns := setNth s2.shootdowns s.arg.idx y } x die)

/-- Is a narrowing of the partition's feature mask under way? -/
def maskPending (s : State) (pid : BitVec 6) : Bool :=
  s.shootdowns.any (fun x => x.part == pid && (match x.fin with
    | .mask _ => true
    | .table e => ptWord e 0xA0 != (s.part pid).feature
    | _ => false))

/-- Is an earlier rewriting of the partition's table entry still to take effect? -/
def tablePending (s : State) (pid : BitVec 6) : Bool :=
  s.shootdowns.any (fun x => x.part == pid && (match x.fin with
    | .mask _ | .table _ => true
    | _ => false))

/-- Is a yl_exmap of the partition under way? -/
def exmapPending (s : State) (pid : BitVec 6) : Bool :=
  s.scans.any (fun c => c.part == pid) || s.shootdowns.any (fun x => x.part == pid && (match x.fin with
    | .exmap _ _ _ => true
    | _ => false))

/-- FEATURE_MASK_NARROW: the hypervisor clears bits of the mask of partition `p`, whose new value is `a0`: after the scans in progress, every
scan bit of the partition is cleared by a shootdown, and then the mask takes effect (spec/09_translation_and_faults.md R174). The word of the
partition's table entry is rewritten with it. -/
def execFeatureMaskNarrow (s : State) : Out :=
  let p := s.part s.arg.p
  let m := s.arg.a0
  if !p.active || m &&& ~~~p.feature != 0#64 || m == p.feature || exmapPending s s.arg.p || tablePending s s.arg.p then .next s
  else
    let s1 := s.updPart s.arg.p (fun q => { q with entry := putSlice q.entry (8 * 0xA0) 64 m })
    .next (startShootdown s1 s.arg.p 0 (2 ^ 52) 0#64 p.scan (.mask m))

/-- The hypervisor rewrites the partition-table entry of a partition. While the partition is inactive the entry stands until its
activation. While it is active WEIGHTS count from the next grant; PEERSET, HBMR, the roots and FEATURE from the end of a shootdown, which
clears every scan bit of the partition where the new mask lacks a bit of the old one, after the scans in progress
(spec/09_translation_and_faults.md R174; bits that it adds count from then too, and a rewriting waits for the one before it, DESIGN CHOICE,
Assumption 28); the other fields from the next activation (spec/10_descriptor_tables.md R191). -/
def rewriteEntry (s : State) (pid : BitVec 6) (e : BitVec 4096) : State :=
  let p := s.part pid
  if 48 ≤ pid.toNat then s
  else if !p.active then s.updPart pid (fun q => { q with entry := e })
  else
    let narrows := p.feature &&& ~~~(ptWord e 0xA0) != 0#64
    if tablePending s pid || (narrows && exmapPending s pid) then s
    else
      let s1 := s.updPart pid (fun q => { q with entry := e, weights := slice (ptWord e 0xA8) 0 32 })
      startShootdown s1 pid 0 (2 ^ 52) 0#64 (if narrows then p.scan else []) (.table e)

/-! ### Memory calls -/

/-- Is it a range of whole pages that can be mapped: below bit 52 and outside the near window? -/
def pageRange (va len : Word) : Bool :=
  va.toNat % 65536 == 0 && len.toNat % 65536 == 0 && len != 0#64 && decide (va.toNat + len.toNat ≤ 0x000F000000000000)

/-- The range of the call that a shootdown belongs to. -/
def Shootdown.callRange (x : Shootdown) : Option (Nat × Nat) :=
  match x.fin with
  | .ylReturn _ | .free _ => some (x.lo, x.hi)
  | .exmap _ stop start => some (start, stop)
  | _ => none

/-- Is an earlier call of the partition on a range of addresses under way? Yalush serialises the calls that touch one range
(spec/19_binary_interface.md R362). -/
def rangePending (s : State) (pid : BitVec 6) (va n : Nat) : Bool :=
  let meets (r : Nat × Nat) : Bool := decide (va < r.2) && decide (r.1 < va + n)
  s.scans.any (fun c => c.part == pid && meets (c.start, c.stop)) ||
    s.shootdowns.any (fun x => x.part == pid && x.callRange.any meets)

/-- YL_MAP: `a0` address, `a1` length, `a2` kind, W and R, `a3` physical address as the partition sees it, `a4` peer
(spec/19_binary_interface.md R362). -/
def execYlMap (s : State) : Out :=
  let pid := s.arg.p
  let a := s.arg
  let n := a.a1.toNat / 65536
  let kind : BitVec 2 := slice a.a2 2 2
  if !(s.part pid).active then .next s
  else if !pageRange a.a0 a.a1 || slice a.a2 4 60 != 0#60 || a.a3.toNat % 65536 != 0 || decide (2 ^ 52 < a.a3.toNat + a.a1.toNat) ||
      decide (1023 < a.a4.toNat) || (kind != 3#2 && a.a4 != 0#64) then .next (ylReturn s pid eInval)
  else if rangePending s pid a.a0.toNat a.a1.toNat then .next s
  else
    let leaf (k : Nat) : Word := mkLeaf kind (a.a2.getLsbD 1) (a.a2.getLsbD 0) (a.a3.toNat + 65536 * k) (a.a4.setWidth 10)
    match mapPages pid leaf a.a0.toNat n 0 s with
    | .error e => .next (ylReturn s pid (errno e))
    | .ok s1 => .next (startShootdown s1 pid a.a0.toNat (a.a0.toNat + a.a1.toNat) 0#64 [] (.ylReturn 0#64))

/-- YL_UNMAP: `a0` address, `a1` length. -/
def execYlUnmap (s : State) : Out :=
  let pid := s.arg.p
  let a := s.arg
  let n := a.a1.toNat / 65536
  if !(s.part pid).active then .next s
  else if !pageRange a.a0 a.a1 then .next (ylReturn s pid eInval)
  else if rangePending s pid a.a0.toNat a.a1.toNat then .next s
  else
    let frames := scannedIn s pid a.a0.toNat n
    .next (startShootdown (unmapPages pid a.a0.toNat n s) pid a.a0.toNat (a.a0.toNat + a.a1.toNat) 0#64 frames (.ylReturn 0#64))

/-- YL_EXMAP: `a0` address, `a1` length; its pages are scanned one after another. It waits for a narrowing of the mask under way. -/
def execYlExmap (s : State) : Out :=
  let pid := s.arg.p
  let a := s.arg
  if !(s.part pid).active || maskPending s pid || exmapPending s pid then .next s
  else if !pageRange a.a0 a.a1 then .next (ylReturn s pid eInval)
  else if rangePending s pid a.a0.toNat a.a1.toNat then .next s
  else .next (startScan s pid a.a0.toNat a.a0.toNat (a.a0.toNat + a.a1.toNat))

/-- Do two ranges meet? -/
def rangesMeet (a n b m : Nat) : Bool := decide (a < b + m) && decide (b < a + n)

/-- YL_MEM_ALLOC: `a0` bytes of kind `a1`, at the virtual address `a2` and the intermediate address `a3` that Yalush picks; with `flag` it finds
none. A pick that is in use does not occur. -/
def execYlMemAlloc (s : State) : Out :=
  let pid := s.arg.p
  let a := s.arg
  let p := s.part pid
  let n := (a.a0.toNat + 65535) / 65536
  let size := 65536 * n
  if !p.active then .next s
  else if a.a0 = 0#64 ∨ 1 < a.a1.toNat ∨ 2 ^ 48 < a.a0.toNat then .next (ylReturn s pid eInval)
  else if a.flag then .next (ylReturn s pid eNoMem)
  else
    let kind : BitVec 2 := a.a1.setWidth 2
    let fits := pageRange a.a2 (BitVec.ofNat 64 size) && !rangePending s pid a.a2.toNat size && a.a3.toNat % 65536 == 0 &&
      (List.range n).all (fun k =>
        (pageFrame s pid (a.a2.toNat + 65536 * k)).isNone && (iaPage s p (a.a3.toNat + 65536 * k) kind).isSome) &&
      p.blocks.all (fun b => !rangesMeet b.ia b.size a.a3.toNat size) &&
      !rangesMeet (p.hbmr.headD (0, 0)).1 (p.brk - (p.hbmr.headD (0, 0)).1) a.a3.toNat size
    if !fits then .next s
    else match mapPages pid (fun k => mkLeaf kind true true (a.a3.toNat + 65536 * k) 0#10) a.a2.toNat n 0 s with
      | .error e => .next (ylReturn s pid (errno e))
      | .ok s1 =>
        .next (ylReturn (s1.updPart pid (fun q => { q with blocks := q.blocks ++ [⟨a.a2.toNat, size, a.a3.toNat⟩] })) pid a.a2)

/-- YL_MEM_FREE: the block at `a0` is unmapped, and the call returns after the shootdown, when its memory is free
(spec/09_translation_and_faults.md R159). -/
def execYlMemFree (s : State) : Out :=
  let pid := s.arg.p
  let p := s.part pid
  if !p.active then .next s
  else match p.blocks.find? (fun b => b.va == s.arg.a0.toNat) with
    | none => .next (ylReturn s pid eInval)
    | some b =>
      let n := b.size / 65536
      if rangePending s pid b.va b.size then .next s
      else .next (startShootdown (unmapPages pid b.va n s) pid b.va (b.va + b.size) 0#64 (scannedIn s pid b.va n) (.free b.va))

/-! ### Launches (spec/10_descriptor_tables.md R181) -/

def lrCode (r : BitVec 1024) : Word := slice r 64 64
def lrFbase (r : BitVec 1024) : Word := slice r 128 64
def lrStride (r : BitVec 1024) : BitVec 32 := slice r 192 32
def lrGangs (r : BitVec 1024) : Nat := (slice r 224 32).toNat
def lrJoin (r : BitVec 1024) : Word := slice r 256 64
def lrWidth (r : BitVec 1024) : BitVec 4 := slice r 320 4
def lrPrio (r : BitVec 1024) : BitVec 2 := slice r 324 2
def lrStages (r : BitVec 1024) : Nat := (slice r 326 13).toNat
def lrRes (r : BitVec 1024) : Word := slice r 384 64
def lrWdt (r : BitVec 1024) : Word := slice r 448 64
def lrFtbase (r : BitVec 1024) : Word := slice r 512 64
def lrFtlen (r : BitVec 1024) : BitVec 32 := slice r 576 32

/-- The continuation record of gang g. -/
def launchRecord (r : BitVec 1024) (lid : BitVec 32) (g : Nat) : Rec64 :=
  let stage : BitVec 12 := BitVec.ofNat 12 (g * lrStages r / lrGangs r)
  let w4 : Word := 0#46 ++ stage ++ lrPrio r ++ lrWidth r
  let w3 : Word := BitVec.ofNat 32 g ++ lid
  let frame : Word := lrFbase r + BitVec.ofNat 64 g * zext64 (lrStride r)
  0#64 ++ lrWdt r ++ lrRes r ++ w4 ++ w3 ++ lrJoin r ++ frame ++ lrCode r

/-- Is the launch record valid for a partition (spec/01_execution_model.md R15, spec/10_descriptor_tables.md R181)? -/
def launchOk (p : Partition) (r : BitVec 1024) : Bool :=
  let c := launchRecord r 0#32 0
  slice r 0 8 == 1#8 && slice r 8 56 == 0#56 && slice r 339 45 == 0#45 && decide (1 ≤ lrGangs r) && decide (1 ≤ lrStages r) &&
    decide (lrStages r ≤ 4096) && decide (lrStages r ≤ lrGangs r) && slice (lrFtbase r) 52 12 == 0#12 &&
    slice (lrFtbase r) 0 4 == 0#4 && slice r 608 416 == 0#416 && recordOk c && recordFits p c && quotaFits p c

/-- Enqueues records of a launch while its ring has room, at the priority of the launch record (spec/01_execution_model.md R15); a join that
asks for a lower level moves them afterwards (R23). -/
def fillQueue (pid : BitVec 6) (lid : BitVec 32) : Nat → State → State
  | 0, s => s
  | n + 1, s =>
    match (s.part pid).launches.find? (fun x => x.lid == lid) with
    | none => s
    | some x =>
      if lrGangs x.rcd ≤ x.next then s
      else match enqueue s pid (lrPrio x.rcd).toNat (launchRecord x.rcd lid x.next) with
        | none => s
        | some s1 => fillQueue pid lid n (s1.updPart pid (fun p => { p with
            launches := p.launches.map (fun y => if y.lid = lid then { y with next := y.next + 1 } else y) }))

/-- Goes on with a launch: records are enqueued, and the call returns with the last one (spec/07_queues_and_scheduling.md R124). -/
def goOnLaunch (s : State) (pid : BitVec 6) (lid : BitVec 32) : State :=
  let s1 := fillQueue pid lid 65536 s
  match (s1.part pid).launches.find? (fun x => x.lid == lid) with
  | some x => if lrGangs x.rcd ≤ x.next then ylReturn s1 pid (zext64 lid) else s1
  | none => s1

/-- May a launch take a slot of the launch table: no live launch has its low 12 bits (spec/10_descriptor_tables.md R181)? -/
def launchSlotFree (p : Partition) (n : Nat) : Bool := p.launches.all (fun x => (slice x.lid 0 12).toNat != n % 4096)

/-- YL_LAUNCH: the record at `a0`, for the image `idx`, in the slot `num` of the launch table where that is free, else in the lowest. With
`flag`, the launch at position `num` of those being enqueued goes on. -/
def execYlLaunch (s : State) : Out :=
  let pid := s.arg.p
  let p := s.part pid
  if !p.active then .next s
  else if s.arg.flag then
    match p.launches[s.arg.num]? with
    | none => .next s
    | some x => if lrGangs x.rcd ≤ x.next then .next s else .next (goOnLaunch s pid x.lid)
  else if s.arg.a0.toNat % 64 ≠ 0 then .next (ylReturn s pid eInval)
  else match ylRead pid 2 s.arg.a0.toNat 128 s with
    | .error u => .next (ylReturn u pid eFault)
    | .ok (bs, s1) =>
      let r : BitVec 1024 := bytesBv 1024 bs
      if !launchOk p r then .next (ylReturn s1 pid eInval)
      else if 4096 ≤ p.launches.length then .next (ylReturn s1 pid eBusy)
      else
        let pick := if s.arg.num < 65536 ∧ launchSlotFree p s.arg.num = true then some s.arg.num else firstBelow (launchSlotFree p) 4096
        match pick with
        | none => .next (ylReturn s1 pid eBusy)
        | some n =>
          let at_ := p.launchTab + 32 * n
          let gen : BitVec 16 := bytesBv 16 (homeRead s1 (at_ + 14 - 2) 2)
          let lid : BitVec 32 := gen ++ BitVec.ofNat 16 n
          let entry : BitVec 256 := 0#128 ++ 0#15 ++ 1#1 ++ gen ++ lrFtlen r ++ lrFtbase r
          let s2 := homeWrite s1 none at_ (bvBytes entry) false
          let s3 := s2.updPart pid (fun q => { q with launches := q.launches ++ [⟨lid, s.arg.idx, r, 0⟩] })
          .next (goOnLaunch s3 pid lid)

/-- The COUNT of a join for a wait, or the number of the error where the address holds no join, with the state after the read. -/
def waitCount (s : State) (pid : BitVec 6) (va : Word) : Except Nat (BitVec 32) × State :=
  if va.toNat % 128 ≠ 0 then (.error 1, s)
  else match ylPlace s pid va 8 .read with
    | .error u => (.error 6, u)
    | .ok (pa, _, s1) =>
      let w : Word := bytesBv 64 (homeRead s1 pa 8)
      (if joinTag w = 0x4A#8 then .ok (joinCount w) else .error 1, s1)

/-- YL_WAIT: `a0` the join, `a1` the timeout in ns. A wait returns 0 when COUNT is 0. With `flag`, the wait at position `num` is looked at
again: three ticks pass in 2 ns (spec/00_scope.md R2). -/
def execYlWait (s : State) : Out :=
  let pid := s.arg.p
  let p := s.part pid
  let endWait (u : State) (i : Nat) (x : Word) : State := ylReturn (u.updPart pid (fun q => { q with waits := dropNth q.waits i })) pid x
  if !p.active then .next s
  else if s.arg.flag then
    match p.waits[s.arg.num]? with
    | none => .next s
    | some w =>
      match waitCount s pid (BitVec.ofNat 64 w.join) with
      | (.ok 0, u) => .next (endWait u s.arg.num 0#64)
      | (_, u) =>
        if w.ns ≠ 0#64 ∧ 3 * w.ns.toNat ≤ 2 * (s.cycle - w.since) then .next (endWait u s.arg.num eTimedOut) else .next u
  else match waitCount s pid s.arg.a0 with
    | (.error e, u) => .next (ylReturn u pid (errno e))
    | (.ok n, u) =>
      if n = 0#32 then .next (ylReturn u pid 0#64)
      else .next (u.updPart pid (fun q => { q with waits := q.waits ++ [⟨s.arg.a0.toNat, s.arg.a1, s.cycle⟩] }))

/-- YL_JOIN_CREATE: `a0` the object, `a1` the count, `a2` the level, `a3` a continuation or 0 (spec/10_descriptor_tables.md R179). A raise of
its level takes effect at once (R180). -/
def execYlJoinCreate (s : State) : Out :=
  let pid := s.arg.p
  let a := s.arg
  if !(s.part pid).active then .next s
  else if a.a0.toNat % 128 ≠ 0 ∨ 2 ^ 32 ≤ a.a1.toNat ∨ 4 ≤ a.a2.toNat ∨ a.a3.toNat % 64 ≠ 0 then .next (ylReturn s pid eInval)
  else
    let cont : Except State (Rec64 × State) :=
      if a.a3 = 0#64 then .ok (0#512, s)
      else (ylPlace s pid a.a3 64 .read).map (fun x => (bytesBv 512 (homeRead x.2.2 x.1 64), x.2.2))
    match cont with
    | .error u => .next (ylReturn u pid eFault)
    | .ok (c, s1) =>
      if a.a3 ≠ 0#64 ∧ (recordOk c && recordFits (s.part pid) c) = false then .next (ylReturn s1 pid eInval)
      else match ylPlace s1 pid a.a0 128 .write with
        | .error u => .next (ylReturn u pid eFault)
        | .ok (pa, comp, s2) =>
          let armed : BitVec 1 := BitVec.ofBool (a.a3 != 0#64)
          let w : Word := 0x4A#8 ++ 0#21 ++ armed ++ a.a2.setWidth 2 ++ a.a1.setWidth 32
          let obj : BitVec 1024 := c ++ 0#448 ++ w
          let s3 := homeWrite s2 none pa (bvBytes obj) comp
          .next (ylReturn (noteJoin s3 pid a.a0.toNat) pid 0#64)

/-! ### Mailboxes (spec/08_receive_engine.md R130, R137, R144) -/

/-- May the partition open the mailbox (spec/10_descriptor_tables.md R189)? -/
def mboxAllowed (p : Partition) (m : Nat) : Bool :=
  decide (p.mbBase.toNat ≤ m) && decide (m < p.mbBase.toNat + p.mbCnt.toNat) && decide (m < 4096)

/-- YL_MBOX_OPEN: mailbox `a0` with an overflow ring of `a1` entries opens with a new source generation. -/
def execYlMboxOpen (s : State) : Out :=
  let pid := s.arg.p
  let p := s.part pid
  let m := s.arg.a0.toNat
  if !p.active then .next s
  else if 4096 ≤ m then .next (ylReturn s pid eInval)
  else if !mboxAllowed p m then .next (ylReturn s pid ePerm)
  else if (s.mbox m).isOpen then .next (ylReturn s pid eBusy)
  else
    let s1 := s.updMbox m (fun b => { b with
      isOpen := true
      part := pid
      ring := s.arg.a1.toNat
      sgen := b.sgen + 1#16
      holes := []
      queue := []
      claims := []
      pairs := []
      nextSeq := [] })
    .next (ylReturn s1 pid 0#64)

/-- YL_MBOX_CLOSE: mailbox `a0` closes. -/
def execYlMboxClose (s : State) : Out :=
  let pid := s.arg.p
  let m := s.arg.a0.toNat
  if !(s.part pid).active then .next s
  else if !mboxOpen s m pid then .next (ylReturn s pid eInval)
  else .next (ylReturn (closeMailbox s m) pid 0#64)

/-! ### The other calls -/

/-- Class codes of spec/09_translation_and_faults.md R163. -/
def isClassCode (n : Nat) : Bool := (decide (1 ≤ n) && decide (n ≤ 0x16)) || n == 0x18

/-- YL_FAULT_POLICY: `a0` the class, `a1` the policy. -/
def execYlFaultPolicy (s : State) : Out :=
  let pid := s.arg.p
  if !(s.part pid).active then .next s
  else if !isClassCode s.arg.a0.toNat || decide (2 < s.arg.a1.toNat) then .next (ylReturn s pid eInval)
  else .next (ylReturn (s.updPart pid (fun p => { p with policy := tabPut 0 p.policy s.arg.a0.toNat s.arg.a1.toNat })) pid 0#64)

/-- YL_QUOTA: `a0` the resource, 0 MSMLIM or 1 the copy-quota ceiling; `a1` the value, or -1 to query. -/
def execYlQuota (s : State) : Out :=
  let pid := s.arg.p
  let p := s.part pid
  let v := s.arg.a1
  let per := ((List.range 4).filter (fun j => p.slots.getLsbD j)).length
  if !p.active then .next s
  else if s.arg.a0 = 0#64 then
    if v = errno 1 then .next (ylReturn s pid (zext64 p.msmlim))
    else if v = 0#64 ∨ 256 < v.toNat * per ∨ 256 < v.toNat then .next (ylReturn s pid eInval)
    else .next (ylReturn (s.updPart pid (fun q => { q with msmlim := v.setWidth 9 })) pid v)
  else if s.arg.a0 = 1#64 then
    if v = errno 1 then .next (ylReturn s pid (zext64 p.ceiling))
    else if v = 0#64 ∨ 256 < v.toNat then .next (ylReturn s pid eInval)
    else .next (ylReturn (s.updPart pid (fun q => { q with ceiling := v.setWidth 9 })) pid v)
  else .next (ylReturn s pid eInval)

/-- YL_PEER_QUERY: the entry of peer `a0` (spec/09_translation_and_faults.md R156). -/
def execYlPeerQuery (s : State) : Out :=
  let pid := s.arg.p
  if !(s.part pid).active then .next s
  else if 1024 ≤ s.arg.a0.toNat then .next (ylReturn s pid eInval)
  else .next (ylReturn s pid (tabGet 0#64 s.peers s.arg.a0.toNat))

/-- What an attestation report holds (spec/20_host_links_and_bringup.md R375): the digests of the firmware, the Yalush image and the
partition's loaded image, the caller's nonce and the alarm policy, in this order and in these widths (DESIGN CHOICE, Assumption 7). -/
def reportBody (s : State) (file nonce : List Byte) : List Byte :=
  bvBytes (Config.digest s.firmware) ++ bvBytes (Config.digest s.yalush) ++ bvBytes (Config.digest file) ++ nonce ++
    [BitVec.ofNat 8 (boolNat s.eraseOnAlarm)]

/-- The report: what it holds, and its signature. -/
def attestReport (s : State) (file nonce : List Byte) : List Byte :=
  reportBody s file nonce ++ bvBytes (Config.deviceSignature (reportBody s file nonce))

/-- YL_ATTEST: `a0` the nonce, `a1` the buffer, `a2` its length, by the control program of the image `num` of the partition. A package that
awaits provisioning fails attestation (spec/09_translation_and_faults.md R175): with -3 (Assumption 46). -/
def execYlAttest (s : State) : Out :=
  let pid := s.arg.p
  if !(s.part pid).active then .next s
  else if s.needsProvision || s.keysGone then .next (ylReturn s pid ePerm)
  else match s.images.find? (fun i => i.handle == s.arg.num && i.part == pid) with
    | none => .next s
    | some i =>
      match ylRead pid 2 s.arg.a0.toNat 32 s with
      | .error u => .next (ylReturn u pid eFault)
      | .ok (nonce, s1) =>
        let rep := attestReport s1 i.file nonce
        if s.arg.a2.toNat < rep.length then .next (ylReturn s1 pid eInval)
        else match ylWrite pid (pagesIn rep.length) s.arg.a1.toNat rep s1 with
          | .error u => .next (ylReturn u pid eFault)
          | .ok s2 => .next (ylReturn s2 pid (BitVec.ofNat 64 rep.length))

/-- Every launch of an image ends. -/
def endImageLaunches (s : State) (handle : Nat) : State :=
  match s.images.find? (fun i => i.handle == handle) with
  | none => s
  | some i =>
    (((s.part i.part).launches.filter (fun x => x.image == handle)).map (fun x => x.lid)).foldl (fun u l => endLaunch u i.part l) s

/-- The control program of an image exits with a code. -/
def exitImage (s : State) (handle : Nat) (code : Word) : State :=
  let s1 := endImageLaunches s handle
  { s1 with images := s1.images.map (fun i => if i.handle = handle then { i with exit := some code } else i) }

/-- YL_EXIT: the control program of the image `num` of partition `p` exits with code `a0`. -/
def execYlExit (s : State) : Out :=
  if s.images.any (fun i => i.handle == s.arg.num && i.part == s.arg.p && i.exit.isNone) then
    .next (exitImage s s.arg.num s.arg.a0)
  else .next s

/-- YL_CLOCK: CYCLE. With `flag` the call is none of the table's: its number `num` is outside 1 to 16, and it returns -5
(spec/19_binary_interface.md R362). -/
def execYlClock (s : State) : Out :=
  if !(s.part s.arg.p).active then .next s
  else if s.arg.flag then (if 1 ≤ s.arg.num ∧ s.arg.num ≤ 16 then .next s else .next (ylReturn s s.arg.p eNoSys))
  else .next (ylReturn s s.arg.p (BitVec.ofNat 64 s.cycle))

/-! ### PARKED strands (spec/09_translation_and_faults.md R165, spec/19_binary_interface.md R361) -/

/-- The strand's record leaves the fault queue, and the strand goes on. -/
def resumeSettled (s : State) (slot : Nat) (r : FaultRecord) : State :=
  dropFault (resumeParked s slot) (s.strand slot).part (some r)

/-- Can the strand read every byte of a buffer? -/
def bufferReadable (s : State) (slot va : Nat) : Nat → Nat → Bool
  | 0, _ => true
  | _, 0 => true
  | k + 1, n + 1 =>
    let m := min (n + 1) (64 - va % 64)
    match locate s (streamCtx s slot) (BitVec.ofNat 64 va) m 1 .read acceptsPlain with
    | .error _ => false
    | .ok (pl, _) => (accessFault s slot pl m true).isNone && bufferReadable s slot (va + m) k (n + 1 - m)

/-- The value of s1 after a TRAP service (spec/19_binary_interface.md R361). -/
def trapResult (s : State) (slot n : Nat) : Word :=
  let t := s.strand slot
  if n ≠ 1 then eNoSys
  else if 4096 < (t.getS 3#5).toNat then errno 1
  else if bufferReadable s slot (t.getS 2#5).toNat 66 (t.getS 3#5).toNat then 0#64
  else eFault

/-- Does a SCAN fault come from a page that a narrowing of the feature mask withdrew (spec/09_translation_and_faults.md R174)? -/
def recheckDue (s : State) (t : Strand) (r : FaultRecord) : Bool :=
  r.cls == .scan && (match scanLeaves s t.part (r.pc.toNat / 65536 * 65536) with
    | none => false
    | some (_, _, pa) => (s.part t.part).recheck.contains (pa / 65536))

/-- The page of such a fetch is scanned again, unless it has been for another strand: the strand goes on when it passes, and otherwise its
launch ends (spec/09_translation_and_faults.md R174). A write to the frame from before comes first (spec/13_encoding.md R233). -/
def rescanPage (s : State) (slot : Nat) (r : FaultRecord) : State :=
  let t := s.strand slot
  let va := r.pc.toNat / 65536 * 65536
  match scanLeaves s t.part va with
  | none => endLaunch s t.part (recLid t.rcd)
  | some (g, h, pa) =>
    if (s.part t.part).scan.contains (pa / 65536) then resumeSettled s slot r
    else if writesOut s (pa / 65536) then s
    else if (scanPage s (s.part t.part).feature pa).isSome then endLaunch s t.part (recLid t.rcd)
    else resumeSettled (passPage s t.part g h pa) slot r

/-- Yalush takes the record at position `idx` out of the fault queue of partition `p`, or with `flag` the hypervisor out of its own, where no
strand is PARKED with it: the record of a landing, or of a strand that has gone or gone on (Assumption 28). -/
def takeRecord (s : State) : State :=
  let free (r : FaultRecord) : Bool := s.strands.all (fun kt => kt.2.fault != some r)
  match (if s.arg.flag then s.hypFaults else (s.part s.arg.p).faults)[s.arg.idx]? with
  | none => s
  | some r =>
    if !free r then s
    else if s.arg.flag then { s with hypFaults := dropNth s.hypFaults s.arg.idx }
    else s.updPart s.arg.p (fun p => { p with faults := dropNth p.faults s.arg.idx })

/-- YALUSH_RESUME: Yalush settles the PARKED strand in `slot`, whose record it has. It serves the TRAPs of its own; it scans a page
that a narrowed feature mask withdrew again; for the other classes the strand goes on where its policy is not to end the launch. A fault of the
hypervisor stage is
settled by the hypervisor. Slot 1,152 stands for a record that asks for nothing any more. -/
def execYalushResume (s : State) : Out :=
  let slot := s.arg.slot
  let t := s.strand slot
  match t.fault with
  | none => .next (if slot = 1152 then takeRecord s else s)
  | some r =>
    if t.phase ≠ .parked ∨ t.reported = false then .next s
    else if r.cls = .trap ∧ r.index.toNat ≤ 0xFF then
      if r.index = 2#32 then .next (endLaunch s t.part (recLid t.rcd))
      else
        let x := trapResult s slot r.index.toNat
        .next ((resumeSettled s slot r).updSlot slot (fun u => u.setS 1#5 x))
    else if recheckDue s t r then
      if maskPending s t.part then .next s else .next (rescanPage s slot r)
    else if r.hyp || policyOf (s.part t.part) r.cls != 0 then .next (resumeSettled s slot r)
    else .next s

/-! ### Activation (spec/10_descriptor_tables.md R189 to R191) -/

/-- Has the partition nothing running: no gang, copy, scan or shootdown? -/
def partitionQuiet (s : State) (pid : BitVec 6) : Bool :=
  s.gangs.all (fun g => g.part != pid) && s.copies.all (fun c => c.owner.part != pid) && s.scans.all (fun c => c.part != pid) &&
    s.shootdowns.all (fun x => x.part != pid)

/-- PARTITION_ACTIVATE: the hypervisor activates partition `p`, whose entry it has written to the table; `peers` are the virtual functions assigned to
it, at
most 8, whose READY is set (spec/20_host_links_and_bringup.md R369, R374). The package is up, the control processors run Yalush, and nothing of the
partition runs. -/
def execPartitionActivate (s : State) : Out :=
  let pid := s.arg.p
  let vfs := s.arg.peers.filter (fun v => decide (1 ≤ v) && decide (v ≤ 384))
  if 48 ≤ pid.toNat ∨ s.bringUp ≠ 5 ∨ s.controls ≠ BitVec.allOnes 24 ∨ partitionQuiet s pid = false ∨ 8 < vfs.length ∨ ptRingsOk (s.part pid).entry = false then .next s
  else
    let s1 := s.updPart pid (fun old => partitionOf old old.entry)
    let mine (f : VirtualFunction) : VirtualFunction := if f.part = some pid then { f with part := none, ready := false } else f
    let s2 := { s1 with
      vfs := s1.vfs.map (fun kv => (kv.1, mine kv.2))
      tlb := s1.tlb.filter (fun e => e.part != pid) }
    let add (u : State) (v : Nat) : State :=
      let f := tabGet ⟨none, 0#64, 0#64, false, false⟩ u.vfs v
      { u with vfs := tabSet u.vfs v { f with part := some pid, ready := true } }
    .next (vfs.foldl add s2)

end Sys2Proof.Machine
end

