-- ==== Sys2Proof/Machine/HostLink.lean ====
section
/-! DEFINITION. The host link and the fabric ports: BAR0 of a virtual function, the request ring and its requests, the loading of a JXF
image, Function Level Reset, links and the accesses of other packages (spec/20_host_links_and_bringup.md R369 to R373,
spec/19_binary_interface.md R363 to R366, spec/05_memories.md R95, R96, spec/09_translation_and_faults.md R156). -/

namespace Sys2Proof.Machine

open Sys2Proof

/-! ### Virtual functions (spec/20_host_links_and_bringup.md R369) -/

/-- A virtual function that is not assigned. -/
def VirtualFunction.start : VirtualFunction := ⟨none, 0#64, 0#64, false, false⟩

def State.vf (s : State) (n : Nat) : VirtualFunction := tabGet VirtualFunction.start s.vfs n

def State.updVf (s : State) (n : Nat) (f : VirtualFunction → VirtualFunction) : State := { s with vfs := tabSet s.vfs n (f (s.vf n)) }

/-- A request to a virtual function that is not assigned completes as Unsupported Request. -/
def unsupportedRequest (s : State) (n : Nat) : State := { s with outbox := s.outbox ++ [.unsupported n] }

/-- A register of BAR0 as the host reads it. -/
def bar0Word (f : VirtualFunction) : Bar0 → Word
  | .doorbell => f.doorbell
  | .ringBase => f.ringBase
  | .status => BitVec.ofNat 64 (boolNat f.ready + 2 * boolNat f.err)

/-- A peer-table entry as Yalush writes it: LINK is the link layer's (spec/09_translation_and_faults.md R156). -/
def peerEntry (old x : Word) : Word := putBit (x &&& 0x1F01#64) 1 (old.getLsbD 1)

/-- REGISTER_WRITE: `a0` is written to the register `reg` under its access code (spec/02_strand_registers.md R36). WDLIM of a saved member is
written in its save area (spec/09_translation_and_faults.md R167); RINGBASE keeps its value where the new one is not 4 KiB aligned; READY and
ERR are read-only; a read of BAR0 is answered; REMTO changes between launches only. The hypervisor rewrites a partition-table entry as `entry`
(`rewriteEntry`). -/
def execRegisterWrite (s : State) : Out :=
  let x := s.arg.a0
  match s.arg.reg with
  | .savedWdlim area rank =>
    let set (i : Nat × Strand) : Nat × Strand := if i.1 = rank then (i.1, { i.2 with wdlim := x }) else i
    (match s.gang? s.arg.p area with
      | none => .next s
      | some g =>
        match g.images.find? (fun i => i.1 == rank) with
        | none => .next s
        | some i =>
          let s1 := s.updGang s.arg.p area (fun y => { y with images := y.images.map set })
          let off := 0x40900 + 8 * (savedCsrs.findIdx (fun c => c == 0x02A))
          match ownPlace s1 g.part noSid (i.2.saveArea + off) 8 .write with
          | .error u => .next u
          | .ok (pa, comp, s2) => .next (homeWrite s2 none pa (bvBytes x) comp))
  | .ringBase n =>
    if (s.vf n).part.isNone then .next (unsupportedRequest s n)
    else if slice x 0 12 = 0#12 then .next (s.updVf n (fun f => { f with ringBase := x }))
    else .next s
  | .vfStatus n => .next (if (s.vf n).part.isNone then unsupportedRequest s n else s)
  | .bar0Read n r =>
    .next (if (s.vf n).part.isNone then unsupportedRequest s n else { s with outbox := s.outbox ++ [.bar0 n (bar0Word (s.vf n) r)] })
  | .remto => if s.parts.all (fun q => q.2.launches.isEmpty) then .next { s with remto := x.toNat } else .next s
  | .peer n => .next { s with peers := tabPut 0#64 s.peers n.toNat (peerEntry (tabGet 0#64 s.peers n.toNat) x) }
  | .device pa => if inDevice pa then .next (devicePut s pa 8 x) else .next s
  | .table p => .next (rewriteEntry s p s.arg.entry)

/-! ### The JXF image (spec/19_binary_interface.md R363 to R365) -/

/-- A little-endian field of a file: zero where the file ends before it. -/
def fileNat (f : List Byte) (off n : Nat) : Nat := bytesNat ((f.drop off).take n)

/-- A section table entry. -/
structure Section where
  ty : Nat
  opt : Bool
  rsv : Bool
  foff : Nat
  size : Nat
  addr : Nat
deriving DecidableEq, Repr

def sectionAt (f : List Byte) (off : Nat) : Section where
  ty := fileNat f off 2
  opt := fileNat f (off + 2) 2 % 2 == 1
  rsv := fileNat f (off + 2) 2 / 2 == 0 && fileNat f (off + 4) 4 == 0
  foff := fileNat f (off + 8) 8
  size := fileNat f (off + 16) 8
  addr := fileNat f (off + 24) 8

def jxfCount (f : List Byte) : Nat := fileNat f 0x08 4
def jxfTable (f : List Byte) : Nat := fileNat f 0x10 8
def jxfBase (f : List Byte) : Nat := fileNat f 0x18 8

def jxfSections (f : List Byte) : List Section := (List.range (min (jxfCount f) 4096)).map (fun i => sectionAt f (jxfTable f + 32 * i))

/-- Contents of a section in the file. -/
def contents (f : List Byte) (x : Section) : List Byte := if x.ty = 5 then [] else (f.drop x.foff).take x.size

/-- A note record. -/
structure Note where
  name : List Byte
  ty : Nat
  flags : Nat
  desc : List Byte
deriving DecidableEq, Repr

/-- A length padded to 4 bytes. -/
def pad4 (n : Nat) : Nat := (n + 3) / 4 * 4

/-- The notes of a section up to the first that overruns it, and whether there is none such. -/
def notesOf : Nat → List Byte → List Note × Bool
  | 0, bs => ([], bs.isEmpty)
  | k + 1, bs =>
    if bs.isEmpty then ([], true)
    else
      let nsz := fileNat bs 0 2
      let dsz := fileNat bs 6 2
      let len := 8 + pad4 nsz + pad4 dsz
      if bs.length < len ∨ 32 < nsz then ([], false)
      else
        let (l, ok) := notesOf k (bs.drop len)
        (⟨(bs.drop 8).take nsz, fileNat bs 2 2, fileNat bs 4 2, (bs.drop (8 + pad4 nsz)).take dsz⟩ :: l, ok)

/-- The bytes of `plynden` with the terminating zero. -/
def plynden : List Byte := [0x70#8, 0x6C#8, 0x79#8, 0x6E#8, 0x64#8, 0x65#8, 0x6E#8, 0x00#8]

def allNotes (f : List Byte) : List (List Note × Bool) :=
  ((jxfSections f).filter (fun x => x.ty == 8)).map (fun x => notesOf (x.size / 8 + 1) (contents f x))

/-- The notes that can be read: a check that stands before the layout's (spec/19_binary_interface.md R366) sees those before a broken one. -/
def goodNotes (f : List Byte) : List Note := (allNotes f).flatMap (fun x => x.1)

def isPlynden (n : Note) (ty : Nat) : Bool := n.name == plynden && n.ty == ty

/-- Kernel table entries of a section: reserved bits zero (spec/19_binary_interface.md R365). -/
def kernelsOk (bs : List Byte) : Bool :=
  bs.length % 64 == 0 && (List.range (bs.length / 64)).all (fun i =>
    fileNat bs (64 * i + 0x20) 8 / 2 ^ 52 == 0 && fileNat bs (64 * i + 0x28) 8 / 2 ^ 35 == 0 && fileNat bs (64 * i + 0x38) 8 == 0)

/-- Types that are mapped (spec/19_binary_interface.md R366). -/
def mappedType (ty : Nat) : Bool := decide (2 ≤ ty) && decide (ty ≤ 7)

/-- Do the ranges of two mapped sections meet? -/
def sectionsMeet (a b : Section) : Bool := rangesMeet a.addr a.size b.addr b.size

/-- Do any two mapped sections overlap? -/
def anyOverlap : List Section → Bool
  | [] => false
  | x :: t => t.any (sectionsMeet x) || anyOverlap t

/-- How many sections have a type? -/
def typeCount (l : List Section) (ty : Nat) : Nat := (l.filter (fun x => x.ty == ty)).length

/-- The layout checks, code 0x103. -/
def layoutOk (f : List Byte) : Bool :=
  let l := jxfSections f
  let n := typeCount l
  fileNat f 0x0C 4 == 0 && jxfBase f / 2 ^ 52 == 0 && fileNat f 0x30 16 == 0 && decide (1 ≤ jxfCount f) && decide (jxfCount f ≤ 4096) &&
    jxfTable f % 8 == 0 && jxfBase f % 65536 == 0 && decide (jxfTable f + 32 * jxfCount f ≤ f.length) &&
    l.all (fun x => x.rsv && (x.ty == 5 || decide (x.foff + x.size ≤ f.length)) &&
      (x.ty == 1 || x.ty == 8 || x.ty == 9 || x.addr % 65536 == 0)) &&
    n 1 == 1 && decide (1 ≤ n 2) && decide (n 6 ≤ 1) && n 7 == 1 && decide (n 9 ≤ 1) &&
    (l.filter (fun x => x.ty == 9)).all (fun x => x.foff + x.size == f.length) &&
    !anyOverlap (l.filter (fun x => mappedType x.ty)) && (l.filter (fun x => x.ty == 7)).all (fun x => kernelsOk (contents f x)) &&
    (allNotes f).all (fun x => x.2) && (goodNotes f).all (fun y => y.flags / 2 == 0)

/-- The first word of the image's code that the scanner refuses: its offset in its page, as the yl_exmap of that page reports it
(spec/09_translation_and_faults.md R172), and the reason. Code fills whole pages. -/
def badCode (mask : Word) (f : List Byte) : Option (Nat × Nat) :=
  let words (x : Section) : List Nat := List.range ((x.size + 65535) / 65536 * 16384)
  let bad (x : Section) (i : Nat) : Option (Nat × Nat) :=
    match scanWord mask (BitVec.ofNat 32 (fileNat (contents f x) (4 * i) 4)) with
    | .ok _ => none
    | .error r => some (4 * i % 65536, scanReasonCode r)
  ((jxfSections f).filter (fun x => x.ty == 2)).findSome? (fun x => (words x).findSome? (bad x))

/-- Does the signature at the end of a file, 3,309 bytes, verify over the digest of every byte before it, under the keys of a number
(spec/19_binary_interface.md R366; Assumption 7)? `fits` says whether the file gives the signature that size. -/
def signedOk (key : Nat) (f : List Byte) (fits : Bool) : Bool :=
  fits && decide (3309 ≤ f.length) &&
    Config.signatureOk key (Config.digest (f.take (f.length - 3309))) (f.drop (f.length - 3309))

/-- The checks of spec/19_binary_interface.md R366 up to the scan, in its order: the code of the first that fails. -/
def loadCheck (s : State) (pid : BitVec 6) (f : List Byte) (n : Nat) : Nat :=
  let l := jxfSections f
  let hasSig := l.any (fun x => x.ty == 9)
  if f.take 4 ≠ [0x4A#8, 0x58#8, 0x46#8, 0x00#8] ∨ fileNat f 0x28 8 ≠ n then 0x101
  else if fileNat f 0x04 2 ≠ 1 ∨ (goodNotes f).any (fun x => isPlynden x 2 && fileNat x.desc 0 2 != 0) = true then 0x102
  else if !layoutOk f then 0x103
  else if l.any (fun x => (x.ty == 0 || decide (9 < x.ty)) && !x.opt) then 0x104
  else if (goodNotes f).any (fun x => x.flags % 2 == 1 && !isPlynden x 1 && !isPlynden x 2) then 0x105
  else if (hasSig && !signedOk pid.toNat f (l.all (fun x => x.ty != 9 || x.size == 3309))) || (!hasSig && Config.signatureRequired pid.toNat) then 0x106
  else if BitVec.ofNat 64 (fileNat f 0x20 8) &&& ~~~(s.part pid).feature ≠ 0#64 then 0x107
  else if (badCode (s.part pid).feature f).isSome then 0x108
  else 0

/-- Memory for one page of a section: a fresh frame of the partition, mapped, with its contents. -/
def loadPage (s : State) (pid : BitVec 6) (w : Bool) (va : Nat) (bs : List Byte) : Option State :=
  if (pageFrame s pid va).isSome then none
  else match newTable s pid with
    | none => none
    | some (ia, s1) =>
      match iaPage s1 (s1.part pid) ia 0#2, mapLeaf pid va (mkLeaf 0#2 w true ia 0#10) walkLevels (s1.part pid).guestRoot s1 with
      | some pa, .ok s2 => some (homeCells s2 pa 65536 (cellsAt 0 bs) false)
      | _, _ => none

/-- The pages of a section, one after another. -/
def loadPages (pid : BitVec 6) (w : Bool) (va : Nat) (bs : List Byte) : Nat → State → Option State
  | 0, s => some s
  | k + 1, s =>
    match loadPages pid w va bs k s with
    | none => none
    | some s1 => loadPage s1 pid w (va + 65536 * k) ((bs.drop (65536 * k)).take 65536)

/-- Pages of a section of a size. -/
def sectionPages (n : Nat) : Nat := (n + 65535) / 65536

/-- Maps the sections of an image at BASE + ADDR: none where memory cannot be allocated. -/
def loadSections (pid : BitVec 6) (f : List Byte) : List Section → State → Option State
  | [], s => some s
  | x :: t, s =>
    let va := jxfBase f + x.addr
    let fits := decide (va + 65536 * sectionPages x.size ≤ 0x000F000000000000)
    match (if fits then loadPages pid (x.ty == 4 || x.ty == 5) va (contents f x) (sectionPages x.size) s else none) with
    | none => none
    | some s1 => loadSections pid f t s1

/-- The code pages of an image are passed: their frames are scanned and their leaves executable (spec/09_translation_and_faults.md R172). A
page that cannot be read is the one refused (reason 6). -/
def passCode (pid : BitVec 6) : List Nat → State → Option State
  | [], s => some s
  | va :: t, s =>
    match scanLeaves s pid va with
    | none => none
    | some (g, h, pa) => if (scanPage s (s.part pid).feature pa).isSome then none else passCode pid t (passPage s pid g h pa)

/-- A handle that names no image. -/
def freeHandle (s : State) : Option Nat :=
  (firstBelow (fun h => s.images.all (fun i => i.handle != h + 1)) 65535).map (· + 1)

/-- A negated load code. -/
def loadError (c : Nat) : Word := 0#64 - BitVec.ofNat 64 c

/-- A LOAD that the scanner refuses: the offset and the reason are reported, and nothing is mapped. -/
def refuseLoad (s : State) (vf off reason : Nat) : Word × State :=
  (loadError 0x108, { s with outbox := s.outbox ++ [.loadRefused vf off reason] })

/-- e_entry of an ELF file of class 64, at offset 0x18 (PRESUMED from the ELF format, Assumption 63). -/
def elfEntry (f : List Byte) : Word := BitVec.ofNat 64 (fileNat f 0x18 8)

/-- LOAD: the result and the state, which is unchanged where the image is refused. The control program starts at its ELF entry with the kernel
table's address and entry count (spec/19_binary_interface.md R366). -/
def loadImage (s : State) (pid : BitVec 6) (vf : Nat) (f : List Byte) (n : Nat) : Word × State :=
  let c := loadCheck s pid f n
  if c = 0x108 then
    match badCode (s.part pid).feature f with
    | some (off, r) => refuseLoad s vf off r
    | none => (loadError c, s)
  else if c ≠ 0 then (loadError c, s)
  else
    let l := (jxfSections f).filter (fun x => mappedType x.ty)
    match freeHandle s, loadSections pid f l s with
    | some h, some s1 =>
      let pages (x : Section) : List Nat := (List.range (sectionPages x.size)).map (fun k => jxfBase f + x.addr + 65536 * k)
      let kernels (x : Section) : Bool := x.ty == 7
      match passCode pid ((l.filter (fun x => x.ty == 2)).flatMap pages) s1 with
      | none => refuseLoad s vf 0 6
      | some s2 =>
        let img : Image := {
          handle := h
          part := pid
          vf := vf
          file := f
          sections := l.map (fun x => (x.ty, jxfBase f + x.addr, x.size))
          entry := (((jxfSections f).find? (fun x => x.ty == 1)).map (fun x => elfEntry (contents f x))).getD 0#64
          a0 := BitVec.ofNat 64 (((l.find? kernels).map (fun x => jxfBase f + x.addr)).getD 0)
          a1 := BitVec.ofNat 64 (((l.find? kernels).map (fun x => x.size / 64)).getD 0)
          exit := none }
        (BitVec.ofNat 64 h, { s2 with images := s2.images ++ [img] })
    | _, _ => (loadError 0x109, s)

/-! ### Requests (spec/20_host_links_and_bringup.md R371) -/

/-- The image of a handle that a partition has loaded. -/
def imageOf (s : State) (pid : BitVec 6) (h : Word) : Option Image :=
  s.images.find? (fun i => decide (BitVec.ofNat 64 i.handle = h) && i.part == pid)

/-- UNLOAD: every launch of the image ends, and its sections are unmapped. -/
def unloadImage (s : State) (i : Image) : State :=
  let s1 := endImageLaunches s i.handle
  let s2 := { s1 with images := s1.images.filter (fun x => x.handle != i.handle) }
  i.sections.foldl (fun u x =>
    let n := sectionPages x.2.2
    let frames := scannedIn u i.part x.2.1 n
    startShootdown (unmapPages i.part x.2.1 n u) i.part x.2.1 (x.2.1 + 65536 * n) 0#64 frames .nothing) s2

/-- STATUS: whether the control program has exited, and its code. -/
def imageStatus (i : Image) : Word :=
  match i.exit with
  | none => 0#64
  | some c => (0#31 ++ slice c 0 32 ++ 1#1 : BitVec 64)

/-- Does a range lie within the mapped sections of an image? -/
def covered (l : List (Nat × Nat × Nat)) : Nat → Nat → Nat → Bool
  | _, _, 0 => true
  | 0, _, _ => false
  | k + 1, va, n + 1 =>
    match l.find? (fun x => decide (x.2.1 ≤ va) && decide (va < x.2.1 + x.2.2)) with
    | none => false
    | some x =>
      let m := min (n + 1) (x.2.1 + x.2.2 - va)
      covered l k (va + m) (n + 1 - m)

/-- Bytes of the host's into an image, page by page. Yalush needs no W of the leaf, and a scanned frame takes nothing. -/
def hostToImage (pid : BitVec 6) : Nat → Nat → List Byte → State → Except State State
  | 0, _, _, s => .ok s
  | k + 1, va, bs, s =>
    if bs.isEmpty then .ok s
    else
      let m := min bs.length (65536 - va % 65536)
      match ylPlace s pid (BitVec.ofNat 64 va) m .read with
      | .error u => .error u
      | .ok (pa, comp, s1) =>
        if scanRefused s1 pa m then .error s1 else hostToImage pid k (va + m) (bs.drop m) (homeWrite s1 none pa (bs.take m) comp)

/-- WRITE and READ: ARG1 host address, ARG2 image address, ARG3 length. -/
def transfer (s : State) (i : Image) (write : Bool) (host va n : Nat) : Word × State :=
  if !covered i.sections (i.sections.length + 1) va n then (eFault, s)
  else if write then
    match hostToImage i.part (pagesIn n) va (memBytes s.hostMem host n) s with
    | .error u => (eFault, u)
    | .ok s1 => (0#64, s1)
  else match ylRead i.part (pagesIn n) va n s with
    | .error u => (eFault, u)
    | .ok (bs, s1) => (0#64, { s1 with hostMem := memPut s1.hostMem host bs })

/-- One request: its result and what it did. -/
def request (s : State) (pid : BitVec 6) (vf op : Nat) (a : Nat → Word) : Word × State :=
  if op = 1 then loadImage s pid vf (memBytes s.hostMem (a 0).toNat (a 1).toNat) (a 1).toNat
  else if op = 0 ∨ 5 < op then (eNoSys, s)
  else match imageOf s pid (a 0) with
    | none => (eNoEnt, s)
    | some i =>
      if op = 2 then (0#64, unloadImage s i)
      else if op = 3 then (imageStatus i, s)
      else transfer s i (op == 4) (a 1).toNat (a 2).toNat (a 3).toNat

/-- Host memory: `n` bytes at an address as a number. -/
def hostNat (s : State) (at_ n : Nat) : Nat := bytesNat (memBytes s.hostMem at_ n)

/-- Writes host memory. -/
def hostPut (s : State) (at_ : Nat) (bs : List Byte) : State := { s with hostMem := memPut s.hostMem at_ bs }

/-- Takes and executes entries of a ring of 2^log entries in order: CONS, RESULT, CPL, DONE. -/
def serveRing (pid : BitVec 6) (vf base log : Nat) : Nat → State → State
  | 0, s => s
  | k + 1, s =>
    let i := hostNat s (base + 0x10) 4
    let e := base + 64 + 64 * (i % 2 ^ log)
    let s1 := hostPut s (base + 0x10) (natBytes 4 (i + 1))
    let a (j : Nat) : Word := BitVec.ofNat 64 (hostNat s1 (e + 8 + 8 * j) 8)
    let (r, s2) := request s1 pid vf (hostNat s1 e 2) a
    let s3 := hostPut (hostPut s2 (e + 0x28) (bvBytes r)) (e + 0x30) (natBytes 8 1)
    let s4 := hostPut s3 (base + 0x18) (natBytes 4 (hostNat s3 (base + 0x18) 4 + 1))
    serveRing pid vf base log k { s4 with outbox := s4.outbox ++ [.msix vf] }

/-- DOORBELL: the host writes `data` at its address `area`, and then `a0` to DOORBELL of virtual function `mb`; while a narrowing of the feature
mask is under way nothing is loaded, so that the requests wait for it (spec/09_translation_and_faults.md R174), and so do those that would
make a frame executable to which a write is still to be performed (spec/13_encoding.md R233). With `flag` a read of the ring
fails after `idx` entries have been taken. A ring whose header is out of range, or which is asked for more entries than it holds, fails too.
Where Yalush does not serve the partition, DOORBELL takes its value and nothing else happens. -/
def execDoorbell (s : State) : Out :=
  let n := s.arg.mb
  match (s.vf n).part with
  | none => .next (unsupportedRequest s n)
  | some pid =>
    if maskPending s pid then .next s else
    let s0 := (hostPut s s.arg.area s.arg.data).wakeUp
    let s1 := s0.updVf n (fun f => { f with doorbell := s.arg.a0, err := false })
    let base := (s1.vf n).ringBase.toNat
    let log := hostNat s1 base 1 % 16
    let cnt := (s.arg.a0.toNat % 2 ^ 32 + 2 ^ 32 - hostNat s1 (base + 0x10) 4) % 2 ^ 32
    if !(s1.vf n).ready then .next s1
    else if log < 4 ∨ 12 < log ∨ 2 ^ log < cnt then .next (s1.updVf n (fun f => { f with err := true }))
    else
      let s2 := serveRing pid n base log (if s.arg.flag then min s.arg.idx cnt else cnt) s1
      let new := (s2.part pid).scan.filter (fun f => !(s.part pid).scan.contains f)
      if new.any (writesOut s) then .next s
      else .next (if s.arg.flag then s2.updVf n (fun f => { f with err := true }) else s2)

/-- FUNCTION_LEVEL_RESET of virtual function `mb`: every launch of an image that was loaded through it ends, and its BAR0 is cleared
(spec/20_host_links_and_bringup.md R370). One of a function that is not assigned completes as Unsupported Request (R369). -/
def execFunctionLevelReset (s : State) : Out :=
  let n := s.arg.mb
  if (s.vf n).part.isNone then .next (unsupportedRequest s n) else
  let hs := (s.images.filter (fun i => i.vf == n)).map (fun i => i.handle)
  let s1 := hs.foldl endImageLaunches s
  .next { s1 with vfs := s1.vfs.map (fun kv =>
    if kv.1 = n then (kv.1, { kv.2 with
      doorbell := 0#64
      ringBase := 0#64
      ready := false
      err := false }) else kv) }

/-! ### Fabric ports (spec/20_host_links_and_bringup.md R372, R373, spec/09_translation_and_faults.md R156) -/

/-- LINK of some peers in the peer table. -/
def setLinks (s : State) (l : List Nat) (up : Bool) : State :=
  { s with peers := (l.filter (fun n => decide (n < 1024))).foldl (fun t n => tabPut 0#64 t n (putBit (tabGet 0#64 t n) 1 up)) s.peers }

/-- LINK_DOWN: port `mb` goes down, and the peers listed lose their last path. What was sent through it completes under
spec/05_memories.md R97. -/
def execLinkDown (s : State) : Out :=
  if s.arg.mb < 18 then .next (setLinks { s with ports := putBit s.ports s.arg.mb false } s.arg.peers false) else .next s

/-- LINK_UP: port `mb` is up, and the peers listed have a path. -/
def execLinkUp (s : State) : Out :=
  if s.arg.mb < 18 then .next (setLinks { s with ports := putBit s.ports s.arg.mb true } s.arg.peers true) else .next s

/-! ### Accesses of other packages (spec/05_memories.md R95, R96) -/

/-- An answer to a peer. -/
def answer (s : State) (peer : BitVec 10) (data : List Byte) (ok : Bool) : State := { s with outbox := s.outbox ++ [.answer peer data ok] }

/-- Can the home serve `n` bytes at an address: in one line of HBM that is not shut down, and in no launch table, which only Yalush and the
work-queue engine reach (spec/10_descriptor_tables.md R192)? -/
def homeServes (s : State) (pa n : Nat) : Bool :=
  inHbm pa && decide (pa % 128 + n ≤ 128) && !memLost s pa && !inLaunchTable s pa n

/-- An atomic of a peer at its home, of `n` bytes, by what it makes of the old value. -/
def remoteAtomic (s : State) (peer : BitVec 10) (pa n : Nat) (f : Nat → Option Nat) : State :=
  if !homeServes s pa n || pa % n != 0 || poisoned s pa n || scanRefused s pa n then answer s peer [] false
  else
    let old := homeRead s pa n
    match f (bytesNat old) with
    | none => answer s peer old true
    | some v => answer (homeWrite s none pa (natBytes n v) false) peer old true

/-- A VRRED packet of a peer (spec/05_memories.md R100): this home's adds, each to its word; the answer carries the flags gathered. -/
def remoteReduce (s : State) (peer : BitVec 10) (code : BitVec 8) (ftz : Bool) (pa : Nat)
    (adds : List (Nat × BitVec 32 × BitVec 20)) : State :=
  let bad (x : Nat × BitVec 32 × BitVec 20) : Bool :=
    !homeServes s (pa + x.1) 4 || poisoned s (pa + x.1) 4 || scanRefused s (pa + x.1) 4
  let one (u : State × Flags) (x : Nat × BitVec 32 × BitVec 20) : State × Flags :=
    let (y, fl) := reduceAdd code ftz (bytesBv 32 (homeRead u.1 (pa + x.1) 4)) x.2.1 x.2.2
    (homeWrite u.1 none (pa + x.1) (bvBytes y) false, u.2 ||| fl)
  if adds.any bad then answer s peer [] false
  else
    let (s1, fl) := adds.foldl one (s, 0#5)
    answer s1 peer [fl.setWidth 8] true

/-- VAPPEND's update of a peer (spec/10_descriptor_tables.md R188); the answer carries BASE, CAP and the old TAIL. -/
def remoteAppend (s : State) (peer : BitVec 10) (pa m : Nat) : State :=
  if !homeServes s pa 32 || pa % 32 != 0 || poisoned s pa 32 || scanRefused s pa 32 then answer s peer [] false
  else
    let bs := homeRead s pa 32
    let w := (appendStep (bytesBv 256 bs) m).2
    let s1 := if m = 0 then s else homeWrite s none (pa + 16) (bvBytes w) false
    answer s1 peer (bs.take 12 ++ (bs.drop 16).take 4) true

/-- The 16 bytes of a barrier as an answer. -/
def answerBar (s : State) (peer : BitVec 10) (bs : List Byte) : State := answer s peer bs true

/-- Can the home serve a barrier at an address? -/
def barServes (s : State) (pa : Nat) : Bool := homeServes s pa 16 && pa % 16 == 0 && !poisoned s pa 16 && !scanRefused s pa 16

/-- The wait entries of peers whose object has left the phase awaited, or is no barrier any more, are answered
(spec/17_engine_and_system_instructions.md R318). -/
def serveHomeWaits (s : State) : State :=
  let due (x : BitVec 10 × Nat × BitVec 4) : Bool :=
    let (w0, w1) := barRead s x.2.1
    barTag w1 != 0xB7#8 || barP w0 != x.2.2 || !barServes s x.2.1
  if s.homeWaits.all (fun x => !due x) then s
  else (s.homeWaits.filter due).foldl (fun u x =>
    if barServes s x.2.1 then answerBar u x.1 (homeRead s x.2.1 16) else answer u x.1 [] false)
    { s with homeWaits := s.homeWaits.filter (fun x => !due x) }

/-- A barrier request of a peer (spec/12_barriers_and_counters.md R207): what it does, and the object before it as the answer. -/
def remoteBarrier (s : State) (peer : BitVec 10) (pa : Nat) (act : State → State) : State :=
  if barServes s pa then answerBar (act s) peer (homeRead s pa 16) else answer s peer [] false

/-- BINIT at the object's home. -/
def initBar (s : State) (pa : Nat) (q : BitVec 24) : State :=
  let (w0, w1) := barRead s pa
  let (v0, v1) := barWords (if barTag w1 = 0xB7#8 then barP w0 else 0#4) q 0#32 0
  homeWrite s none pa (bvBytes v0 ++ bvBytes v1) false

/-- A strand of another package as an owner: no gang area of this package has such an address. -/
def Owner.far (p : BitVec 6) (sid : BitVec 11) : Owner := ⟨2 ^ 64, 0, p, sid⟩

/-- Wakes of cells, or SWAKEE's pass, of a peer: the wake unit of the descriptor's home accepts them once it has room for all, and a
descriptor that does not stand, or a cell that it no longer has, is skipped and recorded, as a completion's is
(spec/11_context_tensors.md R194, R198; Assumption 38). The peer is told when the last has been applied. -/
def remoteWake (s : State) (peer : BitVec 10) (p : BitVec 6) (sid : BitVec 11) (pa : Nat) (cells : List Nat)
    (event : Option (BitVec 24)) : State :=
  if !homeServes s pa 64 || poisoned s pa 64 then answer s peer [] false
  else
    let r : Rec64 := bytesBv 512 (homeRead s pa 64)
    let x := tensorOf p pa r
    let die := dieOfPa pa
    if !ctOk r || ctNear r then tellApplied (some peer) sid pa (answer (errLog (some p) die sid 0x0F pa (cells.headD 0) s) peer [] true)
    else match event with
      | some id =>
        if wakeSpace s die = 0 then s
        else
          let e : EventPass := ⟨die, p, Owner.far p sid, pa, x.cbase, x.cells, x.skbase, id, 0, pa, some peer⟩
          answer { s with passes := s.passes ++ [e] } peer [] true
      | none =>
        let l := cells.filter (fun c => decide (c < x.cells))
        if wakeSpace s die < l.length then s
        else
          let s1 := (cells.filter (fun c => decide (x.cells ≤ c))).foldl (fun u c => errLog (some p) die sid 0x0F pa c u) s
          tellApplied (some peer) sid pa
            (answer { s1 with wakes := s1.wakes ++ l.map (mkWake x pa sid none (some peer)) } peer [] true)

/-- The unit of a peer has applied the wakes that it accepted of a strand: what waited for that goes on, in a slot or after a resume. -/
def wakesApplied (s : State) (peer : BitVec 10) (sid : BitVec 11) (pa : Nat) : State :=
  let done (t : Strand) : Strand := { t with wakesFar := t.wakesFar.filter (fun x => x != (peer, pa, sid)) }
  { s with
    strands := s.strands.map (fun kt => (kt.1, done kt.2))
    gangs := s.gangs.map (fun g => { g with images := g.images.map (fun i => (i.1, done i.2)) }) }

/-- The first byte and the length in HBM that a request of a peer touches; the words of a VRRED packet lie from there on. -/
def remoteSpan : RemoteOp → Nat × Nat
  | .read pa n => (pa, n)
  | .write pa bs => (pa, bs.length)
  | .poisoned pa bs => (pa, bs.length)
  | .atomic _ wide pa _ => (pa, if wide then 8 else 4)
  | .cas wide pa _ _ => (pa, if wide then 8 else 4)
  | .reduce _ _ pa adds => (pa, adds.foldl (fun n x => max n (x.1 + 4)) 0)
  | .append pa _ => (pa, 32)
  | .barrier _ _ pa _ _ => (pa, 16)
  | .binit pa _ => (pa, 16)
  | .bwait pa _ => (pa, 16)
  | .wake _ _ pa _ _ => (pa, 64)
  | .join _ _ pa => (pa, 128)
  | .btest pa => (pa, 16)
  | .advanced _ => (0, 0)
  | .applied _ _ => (0, 0)

/-- REMOTE_ACCESS_ARRIVAL: the request `remote` of `peer` is performed at its home, and the answer leaves. One that touches a row under a
self-test waits for it (spec/05_memories.md R101), and has then to arrive again. It ends an idle state
(spec/20_host_links_and_bringup.md R377). A write of a peer is stored raw: no entry of this package's tables says otherwise, and the manual
gives no form for it (DESIGN CHOICE, Assumption 55). -/
def execRemoteAccessArrival (s : State) : Out :=
  let u := s.wakeUp
  let q := s.arg.peer
  let (at_, len) := remoteSpan s.arg.remote
  if underTest s 0 (.mem at_ false) len then .next s
  else match s.arg.remote with
  | .read pa n =>
    if inAperture pa then .next (aperturePull u pa n)
    else if !homeServes u pa n || poisoned u pa n then .next (answer u q [] false)
    else .next (answer u q (homeRead u pa n) true)
  | .write pa bs =>
    if inAperture pa then .next (answer (apertureWrite u pa bs) q [] true)
    else if !homeServes u pa bs.length || scanRefused u pa bs.length then .next (answer u q [] false)
    else .next (answer (homeWrite u none pa bs false) q [] true)
  | .poisoned pa bs =>
    if !homeServes u pa bs.length || scanRefused u pa bs.length then .next (answer u q [] false)
    else .next (answer (poisonSectors (homeWrite u none pa bs false) [pa / 32]) q [] true)
  | .reduce code ftz pa adds => .next (remoteReduce u q code ftz pa adds)
  | .append pa m => .next (remoteAppend u q pa m)
  | .barrier p sid pa dA dS => .next (remoteBarrier u q pa (fun v => (barUpdate v none p sid pa false dA dS).2))
  | .binit pa x => .next (remoteBarrier u q pa (fun v => initBar v pa x))
  | .bwait pa ph =>
    if barServes u pa then .next (serveHomeWaits { u with homeWaits := u.homeWaits ++ [(q, pa, ph)] }) else .next (answer u q [] false)
  | .btest pa =>
    let watched := { u with homeWatches := if u.homeWatches.contains (q, pa) then u.homeWatches else u.homeWatches ++ [(q, pa)] }
    .next (remoteBarrier u q pa (fun v => if barTag (barRead v pa).2 = 0xB7#8 then watched else v))
  | .advanced pa => .next (flagWatchers u q pa)
  | .applied sid pa => .next (wakesApplied u q sid pa)
  | .wake p sid pa cells event => .next (remoteWake u q p sid pa cells event)
  | .join p sid pa =>
    if homeServes u pa 128 && !poisoned u pa 128 && !scanRefused u pa 128 then .next (answer (joinAtHome u p sid pa 0 false) q [] true)
    else .next (answer u q [] false)
  | .atomic op wide pa b =>
    let n := if wide then 8 else 4
    if 9 < op.toNat ∨ (op = 9#4 ∧ wide = true) then .next (answer u q [] false)
    else .next (remoteAtomic u q pa n (fun old => some (amoNew op n old b.toNat)))
  | .cas wide pa e v =>
    let n := if wide then 8 else 4
    .next (remoteAtomic u q pa n (fun old => if old = e.toNat % 2 ^ (8 * n) then some v.toNat else none))

end Sys2Proof.Machine
end

