-- ==== Sys2Proof/Machine/Power.lean ====
section
/-! DEFINITION. Power, temperature, bring-up, reset and security alarms (spec/20_host_links_and_bringup.md R374 to R378,
spec/07_queues_and_scheduling.md R128, spec/09_translation_and_faults.md R175). -/

namespace Sys2Proof.Machine

open Sys2Proof

/-! ### Throttling (spec/07_queues_and_scheduling.md R128, spec/20_host_links_and_bringup.md R378) -/

/-- Gangs that run: bound and not halted. -/
def runningGangs (s : State) : List Gang := s.gangs.filter (fun g => !g.bound.isEmpty && !g.saving)

/-- The one that the controller throttles first: the numerically highest effective level, then the most recently started, then the later
in the list. A gang that the scheduler resumes after a save counts as started then, which the manual does not say
(spec/07_queues_and_scheduling.md R128; both DESIGN CHOICE, Assumption 52). -/
def throttleFirst (s : State) (a b : Gang) : Gang :=
  if gangLevel s a ≠ gangLevel s b then (if gangLevel s a < gangLevel s b then b else a)
  else if b.since < a.since then a else b

/-- The one whose level falls first: the reverse order. -/
def throttleLast (s : State) (a b : Gang) : Gang :=
  if gangLevel s a ≠ gangLevel s b then (if gangLevel s b < gangLevel s a then b else a)
  else if b.since < a.since then b else a

/-- The best of a list under a choice between two. -/
def pickGang (f : Gang → Gang → Gang) : List Gang → Option Gang
  | [] => none
  | g :: t => some (t.foldl f g)

/-- Do both bounds for lowering hold: power below 95 % of the cap and every junction below 95 °C? -/
def coolEnough (s : State) (watts temp : Nat) : Bool := decide (100 * watts < 95 * s.capWatts) && decide (temp < 95)

/-- What the controller measures: package power, the hottest junction, and the temperature of each die from die 0 on, in `peers`; and the tick
from which power has stayed above the cap. -/
def notePower (s : State) (watts temp : Nat) : State :=
  { s with
    watts := watts
    hottest := temp
    dieTemp := (s.arg.peers.take 6).zipIdx.foldl (fun m x => tabPut 0 m x.2 x.1) []
    overSince := if s.capWatts < watts then some (s.overSince.getD s.cycle) else none }

/-- What the management link carries as telemetry, in every power state (spec/20_host_links_and_bringup.md R376): package power, the temperature
of each die from die 0 on, HBMTH, and the cores whose MSMSTAT.THERM is set. -/
structure Telemetry where
  watts : Nat
  dies : List Nat
  hbmth : BitVec 24
  therm : List Nat
deriving DecidableEq, Repr

/-- The telemetry of a state: reading it changes nothing. -/
def telemetry (s : State) : Telemetry := ⟨s.watts, (List.range 6).map (tabGet 0 s.dieTemp), s.hbmth, s.therm⟩

/-- THROTTLE_RAISE: the controller finds an average power of `mb` watts and a hottest junction of `num` °C. Over the cap or over 100 °C, one
gang's level is raised, every 1,500 ticks. -/
def execThrottleRaise (s : State) : Out :=
  let tooMuch := decide (s.capWatts < s.arg.mb) || decide (100 < s.arg.num)
  let s1 := notePower s s.arg.mb s.arg.num
  if !tooMuch || decide (s.cycle < s.throttleTick + 1500) then .next s1
  else match pickGang (throttleFirst s) ((runningGangs s).filter (fun g => decide (g.throttle < 3))) with
    | none => .next s1
    | some g => .next { s1.updGang g.part g.area (fun x => { x with throttle := x.throttle + 1 }) with throttleTick := s.cycle }

/-- THROTTLE_LOWER: below 95 % of the cap and 95 °C, one gang's level is lowered, and a power pre-emption is over. -/
def execThrottleLower (s : State) : Out :=
  let s1 := notePower s s.arg.mb s.arg.num
  if !coolEnough s s.arg.mb s.arg.num then .next s1
  else
    let s2 := { s1 with powerHold := false }
    match pickGang (throttleLast s) ((runningGangs s).filter (fun g => decide (0 < g.throttle))) with
    | none => .next s2
    | some g => .next (s2.updGang g.part g.area (fun x => { x with throttle := x.throttle - 1 }))

/-- Is a power pre-emption due: every running gang is at level 3, and power has stayed above the cap for 10 ms or a junction has reached
110 °C; or one is in force and the bounds do not hold yet? -/
def powerDue (s : State) (watts temp : Nat) : Bool :=
  let long := match s.overSince with
    | some t => decide (s.capWatts < watts) && decide (t + 15000000 ≤ s.cycle)
    | none => false
  (runningGangs s).all (fun g => g.throttle == 3) && (long || decide (110 ≤ temp) || (s.powerHold && !coolEnough s watts temp))

/-- POWER_PREEMPTION: the next gang in the throttling order is pre-empted, and no record starts. -/
def execPowerPreemption (s : State) : Out :=
  let s1 := notePower s s.arg.mb s.arg.num
  if !powerDue s s.arg.mb s.arg.num then .next s1
  else
    let s2 := { s1 with powerHold := true }
    match pickGang (throttleFirst s) ((runningGangs s).filter (fun g => g.preempt.isNone)) with
    | none => .next s2
    | some g => .next (s2.updGang g.part g.area (fun x => { x with preempt := some s.cycle }))

/-! ### Power states (spec/20_host_links_and_bringup.md R377) -/

/-- Is no strand bound and no engine active: the copy, send, receive, sweep and work-queue engines, Yalush's scans and shootdowns? -/
def packageIdle (s : State) : Bool :=
  s.strands.all (fun kt => kt.2.phase == .free) && s.copies.isEmpty && s.retiredCq.isEmpty && s.sends.isEmpty && s.wire.isEmpty &&
    s.wakes.isEmpty && s.passes.isEmpty && s.scans.isEmpty && s.shootdowns.isEmpty && s.joinOps.isEmpty && s.joinReads.isEmpty &&
    s.ends.isEmpty && s.tests.isEmpty &&
    s.mailboxes.all (fun kb => kb.2.claims.isEmpty) && s.heldRecs.isEmpty &&
    s.parts.all (fun q => !q.2.active || (List.range 4).all (fun l => q.2.count l == 0))

/-- Keeps the tick since which the package has been idle. -/
def noteIdle (s : State) : State :=
  if packageIdle s && s.power != .p2 && s.power != .p3 then
    (if s.idleSince.isSome then s else { s with idleSince := some s.cycle })
  else if s.idleSince.isNone then s
  else { s with idleSince := none }

/-- POWER_CAP_SET: the management link sets a cap of `mb` watts, 1,500 to 4,400. -/
def execPowerCapSet (s : State) : Out :=
  if s.arg.mb < 1500 ∨ 4400 < s.arg.mb then .next s
  else
    let s1 := { s with capWatts := s.arg.mb }
    .next (if s.power = .p0 ∨ s.power = .p1 then { s1 with power := s1.activePower } else s1)

/-- IDLE_ENTRY: 1,500,000 ticks without a bound strand or an active engine. -/
def execIdleEntry (s : State) : Out :=
  match s.idleSince with
  | none => .next s
  | some t =>
    if (s.power = .p0 ∨ s.power = .p1) ∧ packageIdle s = true ∧ t + 1500000 ≤ s.cycle then
      .next { s with power := .p2, idleSince := none }
    else .next s

/-- IDLE_EXIT: a doorbell, a fabric arrival or an enqueued record leaves P2. -/
def execIdleExit (s : State) : Out :=
  match s.arg.idle with
  | .enqueuedRecord =>
    if s.parts.any (fun q => q.2.active && (List.range 4).any (fun l => q.2.count l != 0)) then .next s.wakeUp else .next s
  | .doorbell => .next s.wakeUp
  | .fabricArrival => .next s.wakeUp

/-- The package with its contents lost: what stands outside them, the management link's cap among it (spec/20_host_links_and_bringup.md
R376, R377), and the model's own fields, remain (Assumption 53). -/
def coldState (s : State) : State :=
  { State.reset with
    agenda := s.agenda
    cur := s.cur
    arg := s.arg
    fresh := s.fresh
    seq := s.seq
    self := s.self
    hostMem := s.hostMem
    capWatts := s.capWatts
    power := s.activePower
    keysGone := s.keysGone
    needsProvision := s.needsProvision
    outbox := s.outbox }

/-- POWER_LOSS: the package enters P3. -/
def execPowerLoss (s : State) : Out := .next { coldState s with power := .p3 }

/-- PACKAGE_RESET. A package that is off stays so. -/
def execPackageReset (s : State) : Out := if s.power = .p3 then .next s else .next (coldState s)

/-! ### Bring-up (spec/20_host_links_and_bringup.md R374) -/

/-- Does the signature of the firmware, or of the Yalush image, verify (Assumption 7)? The keys are numbered after the partitions. -/
def firmwareOk (bs : List Byte) : Bool := signedOk 64 bs true
def yalushOk (bs : List Byte) : Bool := signedOk 65 bs true

/-- Step 4: the Yalush image, and the start of the control processors, four to a die (spec/00_scope.md R1; Assumption 63). -/
def bringUpFour (s : State) (b : BringUp) : State :=
  if yalushOk b.yalush then { s with yalush := b.yalush, controls := BitVec.allOnes 24, bringUp := 5 }
  else { s with bringUp := 4, outbox := s.outbox ++ [.stuck 4] }

/-- The levels of stacks of which some fail their test. -/
def badLevels (b : BitVec 12) : BitVec 24 := bitsOf 24 (fun i => b.getLsbD (i / 2))

/-- Step 3: the alarm policy, HBM and the ports; the peer table starts zero. -/
def bringUpThree (s : State) (b : BringUp) : State :=
  { s with
    eraseOnAlarm := b.erase
    hbmth := badLevels b.badStacks
    ports := b.ports
    peers := [] }

/-- Steps 3 and 4 with firmware that has passed its check. -/
def bootWith (s : State) (firmware : List Byte) (b : BringUp) : State := bringUpFour (bringUpThree { s with firmware := firmware } b) b

/-- POWER_GOOD: the package boots from what `bring` finds; where the firmware in flash fails its check, it awaits recovery. -/
def execPowerGood (s : State) : Out :=
  if s.power ≠ .p3 ∧ s.bringUp ≠ 1 then .next s
  else
    let s1 := if s.power = .p3 then coldState s else s
    .next (if firmwareOk s.arg.bring.flash then bootWith s1 s.arg.bring.flash s.arg.bring else { s1 with bringUp := 2 })

/-- RECOVERY_IMAGE_SUBMIT: the host has written `data` to the recovery window. A rejected image changes nothing. -/
def execRecoveryImageSubmit (s : State) : Out :=
  if s.power = .p3 ∨ s.bringUp ≠ 2 ∨ 0x4000000 < s.arg.data.length ∨ firmwareOk s.arg.data = false then .next s
  else .next (bootWith s s.arg.data s.arg.bring)

/-! ### Security alarms (spec/09_translation_and_faults.md R175) -/

/-- SECURITY_ALARM: under log a record goes to the management link; under erase the device keys are gone, every launch ends, and the package
resets and fails attestation until it is provisioned again. The link is served while the package is off too, and an erase leaves it off. -/
def execSecurityAlarm (s : State) : Out :=
  if s.eraseOnAlarm then
    .next { coldState s with
      keysGone := true
      needsProvision := true
      power := if s.power = .p3 then .p3 else s.activePower }
  else .next { s with outbox := s.outbox ++ [.alarm s.arg.cause] }

end Sys2Proof.Machine
end

