-- ==== Sys2Proof/Machine/Dispatch.lean ====
section
/-! DEFINITION. `exec`: one arm per instruction, each one direct call of its meaning. -/

namespace Sys2Proof.Machine

open Sys2Proof

def exec (i : Instr) (s : State) : Host.Outcome State Fault Refusal :=
  match i with
  | .add d a b => Sys2Proof.Machine.execAdd d a b s
  | .sub d a b => Sys2Proof.Machine.execSub d a b s
  | .and d a b => Sys2Proof.Machine.execAnd d a b s
  | .or d a b => Sys2Proof.Machine.execOr d a b s
  | .xor d a b => Sys2Proof.Machine.execXor d a b s
  | .andn d a b => Sys2Proof.Machine.execAndn d a b s
  | .sll d a b => Sys2Proof.Machine.execSll d a b s
  | .srl d a b => Sys2Proof.Machine.execSrl d a b s
  | .sra d a b => Sys2Proof.Machine.execSra d a b s
  | .slt d a b => Sys2Proof.Machine.execSlt d a b s
  | .sltu d a b => Sys2Proof.Machine.execSltu d a b s
  | .min d a b => Sys2Proof.Machine.execMin d a b s
  | .max d a b => Sys2Proof.Machine.execMax d a b s
  | .minu d a b => Sys2Proof.Machine.execMinu d a b s
  | .maxu d a b => Sys2Proof.Machine.execMaxu d a b s
  | .mul d a b => Sys2Proof.Machine.execMul d a b s
  | .mulh d a b => Sys2Proof.Machine.execMulh d a b s
  | .mulhu d a b => Sys2Proof.Machine.execMulhu d a b s
  | .div d a b => Sys2Proof.Machine.execDiv d a b s
  | .divu d a b => Sys2Proof.Machine.execDivu d a b s
  | .rem d a b => Sys2Proof.Machine.execRem d a b s
  | .remu d a b => Sys2Proof.Machine.execRemu d a b s
  | .clz d a => Sys2Proof.Machine.execClz d a s
  | .ctz d a => Sys2Proof.Machine.execCtz d a s
  | .popc d a => Sys2Proof.Machine.execPopc d a s
  | .csel d a b => Sys2Proof.Machine.execCsel d a b s
  | .addw d a b => Sys2Proof.Machine.execAddw d a b s
  | .subw d a b => Sys2Proof.Machine.execSubw d a b s
  | .mulw d a b => Sys2Proof.Machine.execMulw d a b s
  | .addi d a im => Sys2Proof.Machine.execAddi d a im s
  | .andi d a im => Sys2Proof.Machine.execAndi d a im s
  | .ori d a im => Sys2Proof.Machine.execOri d a im s
  | .xori d a im => Sys2Proof.Machine.execXori d a im s
  | .slti d a im => Sys2Proof.Machine.execSlti d a im s
  | .sltiu d a im => Sys2Proof.Machine.execSltiu d a im s
  | .lih d p im => Sys2Proof.Machine.execLih d p im s
  | .slli d a n => Sys2Proof.Machine.execSlli d a n s
  | .srli d a n => Sys2Proof.Machine.execSrli d a n s
  | .srai d a n => Sys2Proof.Machine.execSrai d a n s
  | .fadd d a b => Sys2Proof.Machine.execFadd d a b s
  | .fsub d a b => Sys2Proof.Machine.execFsub d a b s
  | .fmul d a b => Sys2Proof.Machine.execFmul d a b s
  | .fma d a b => Sys2Proof.Machine.execFma d a b s
  | .fmin d a b => Sys2Proof.Machine.execFmin d a b s
  | .fmax d a b => Sys2Proof.Machine.execFmax d a b s
  | .fcvtws d a => Sys2Proof.Machine.execFcvtws d a s
  | .fcvtsw d a => Sys2Proof.Machine.execFcvtsw d a s
  | .flt d a b => Sys2Proof.Machine.execFlt d a b s
  | .feq d a b => Sys2Proof.Machine.execFeq d a b s
  | .ld d a o z => Sys2Proof.Machine.execLd d a o z s
  | .lds d a o z => Sys2Proof.Machine.execLds d a o z s
  | .st d a o z => Sys2Proof.Machine.execSt d a o z s
  | .lda d a c z => Sys2Proof.Machine.execLda d a c z s
  | .str a b c z => Sys2Proof.Machine.execStr a b c z s
  | .fence c => Sys2Proof.Machine.execFence c s
  | .amoAdd d a b m r q c z => Sys2Proof.Machine.execAmoAdd d a b m r q c z s
  | .amoAnd d a b m r q c z => Sys2Proof.Machine.execAmoAnd d a b m r q c z s
  | .amoOr d a b m r q c z => Sys2Proof.Machine.execAmoOr d a b m r q c z s
  | .amoXor d a b m r q c z => Sys2Proof.Machine.execAmoXor d a b m r q c z s
  | .amoSmin d a b m r q c z => Sys2Proof.Machine.execAmoSmin d a b m r q c z s
  | .amoSmax d a b m r q c z => Sys2Proof.Machine.execAmoSmax d a b m r q c z s
  | .amoUmin d a b m r q c z => Sys2Proof.Machine.execAmoUmin d a b m r q c z s
  | .amoUmax d a b m r q c z => Sys2Proof.Machine.execAmoUmax d a b m r q c z s
  | .amoSwap d a b r q c z => Sys2Proof.Machine.execAmoSwap d a b r q c z s
  | .amoFadd d a b m r q c => Sys2Proof.Machine.execAmoFadd d a b m r q c s
  | .cas d a b r q c z => Sys2Proof.Machine.execCas d a b r q c z s
  | .stn d a b c z => Sys2Proof.Machine.execStn d a b c z s
  | .bcEq a b o => Sys2Proof.Machine.execBcEq a b o s
  | .bcNe a b o => Sys2Proof.Machine.execBcNe a b o s
  | .bcLt a b o => Sys2Proof.Machine.execBcLt a b o s
  | .bcGe a b o => Sys2Proof.Machine.execBcGe a b o s
  | .bcLtu a b o => Sys2Proof.Machine.execBcLtu a b o s
  | .bcGeu a b o => Sys2Proof.Machine.execBcGeu a b o s
  | .bcBset a b o => Sys2Proof.Machine.execBcBset a b o s
  | .bcBclr a b o => Sys2Proof.Machine.execBcBclr a b o s
  | .j o => Sys2Proof.Machine.execJ o s
  | .jal o => Sys2Proof.Machine.execJal o s
  | .jalr d a im => Sys2Proof.Machine.execJalr d a im s
  | .callt a sb => Sys2Proof.Machine.execCallt a sb s
  | .nop n => Sys2Proof.Machine.execNop n s
  | .csrr d c => Sys2Proof.Machine.execCsrr d c s
  | .csrw a c => Sys2Proof.Machine.execCsrw a c s
  | .csrs a c => Sys2Proof.Machine.execCsrs a c s
  | .csrc a c => Sys2Proof.Machine.execCsrc a c s
  | .trap n => Sys2Proof.Machine.execTrap n s
  | .bkpt => Sys2Proof.Machine.execBkpt s
  | .wfe a => Sys2Proof.Machine.execWfe a s
  | .exit => Sys2Proof.Machine.execExit s
  | .yield => Sys2Proof.Machine.execYield s
  | .wsb m => Sys2Proof.Machine.execWsb m s
  | .fork a p => Sys2Proof.Machine.execFork a p s
  | .vcfg d a g e => Sys2Proof.Machine.execVcfg d a g e s
  | .vadd d a b x y k => Sys2Proof.Machine.execVadd d a b x y k s
  | .vsub d a b x y k => Sys2Proof.Machine.execVsub d a b x y k s
  | .vmul d a b x y k => Sys2Proof.Machine.execVmul d a b x y k s
  | .vmulh d a b x y k => Sys2Proof.Machine.execVmulh d a b x y k s
  | .vand d a b x y k => Sys2Proof.Machine.execVand d a b x y k s
  | .vor d a b x y k => Sys2Proof.Machine.execVor d a b x y k s
  | .vxor d a b x y k => Sys2Proof.Machine.execVxor d a b x y k s
  | .vandn d a b x y k => Sys2Proof.Machine.execVandn d a b x y k s
  | .vsll d a b x y k => Sys2Proof.Machine.execVsll d a b x y k s
  | .vsrl d a b x y k => Sys2Proof.Machine.execVsrl d a b x y k s
  | .vsra d a b x y k => Sys2Proof.Machine.execVsra d a b x y k s
  | .vmin d a b x y k => Sys2Proof.Machine.execVmin d a b x y k s
  | .vmax d a b x y k => Sys2Proof.Machine.execVmax d a b x y k s
  | .vminu d a b x y k => Sys2Proof.Machine.execVminu d a b x y k s
  | .vmaxu d a b x y k => Sys2Proof.Machine.execVmaxu d a b x y k s
  | .vadds d a b x y k => Sys2Proof.Machine.execVadds d a b x y k s
  | .vcmpEq d a b x y k => Sys2Proof.Machine.execVcmpEq d a b x y k s
  | .vcmpNe d a b x y k => Sys2Proof.Machine.execVcmpNe d a b x y k s
  | .vcmpLt d a b x y k => Sys2Proof.Machine.execVcmpLt d a b x y k s
  | .vcmpLe d a b x y k => Sys2Proof.Machine.execVcmpLe d a b x y k s
  | .vcmpLtu d a b x y k => Sys2Proof.Machine.execVcmpLtu d a b x y k s
  | .vcmpLeu d a b x y k => Sys2Proof.Machine.execVcmpLeu d a b x y k s
  | .vcmpFeq d a b x y k sb => Sys2Proof.Machine.execVcmpFeq d a b x y k sb s
  | .vcmpFlt d a b x y k sb => Sys2Proof.Machine.execVcmpFlt d a b x y k sb s
  | .vfadd d a b x y k sb => Sys2Proof.Machine.execVfadd d a b x y k sb s
  | .vfsub d a b x y k sb => Sys2Proof.Machine.execVfsub d a b x y k sb s
  | .vfmul d a b x y k sb => Sys2Proof.Machine.execVfmul d a b x y k sb s
  | .vfmin d a b x y k sb => Sys2Proof.Machine.execVfmin d a b x y k sb s
  | .vfmax d a b x y k sb => Sys2Proof.Machine.execVfmax d a b x y k sb s
  | .vfdiv d a b x y k sb => Sys2Proof.Machine.execVfdiv d a b x y k sb s
  | .vfsqrt d a x k sb => Sys2Proof.Machine.execVfsqrt d a x k sb s
  | .vfscale d a b x y k sb => Sys2Proof.Machine.execVfscale d a b x y k sb s
  | .vfma d a b x y k sb => Sys2Proof.Machine.execVfma d a b x y k sb s
  | .vfms d a b x y k sb => Sys2Proof.Machine.execVfms d a b x y k sb s
  | .vfnma d a b x y k sb => Sys2Proof.Machine.execVfnma d a b x y k sb s
  | .vfnms d a b x y k sb => Sys2Proof.Machine.execVfnms d a b x y k sb s
  | .vfcvt d a x k sb => Sys2Proof.Machine.execVfcvt d a x k sb s
  | .vfcvti d a x k sb => Sys2Proof.Machine.execVfcvti d a x k sb s
  | .vfneg d a x k sb => Sys2Proof.Machine.execVfneg d a x k sb s
  | .vfabs d a x k sb => Sys2Proof.Machine.execVfabs d a x k sb s
  | .vfclass d a x k sb => Sys2Proof.Machine.execVfclass d a x k sb s
  | .vredsum d a x k => Sys2Proof.Machine.execVredsum d a x k s
  | .vredmax d a x k => Sys2Proof.Machine.execVredmax d a x k s
  | .vredmin d a x k => Sys2Proof.Machine.execVredmin d a x k s
  | .vredmaxu d a x k => Sys2Proof.Machine.execVredmaxu d a x k s
  | .vredminu d a x k => Sys2Proof.Machine.execVredminu d a x k s
  | .vfredsum d a x k sb => Sys2Proof.Machine.execVfredsum d a x k sb s
  | .vfredmax d a x k sb => Sys2Proof.Machine.execVfredmax d a x k sb s
  | .vfredmin d a x k sb => Sys2Proof.Machine.execVfredmin d a x k sb s
  | .vperm d a b x y k => Sys2Proof.Machine.execVperm d a b x y k s
  | .vslideup d a b x k => Sys2Proof.Machine.execVslideup d a b x k s
  | .vslidedn d a b x k => Sys2Proof.Machine.execVslidedn d a b x k s
  | .vcompress d a x k => Sys2Proof.Machine.execVcompress d a x k s
  | .vexpand d a x k => Sys2Proof.Machine.execVexpand d a x k s
  | .viota d k => Sys2Proof.Machine.execViota d k s
  | .vrix d b y k => Sys2Proof.Machine.execVrix d b y k s
  | .vrixw a b x y k => Sys2Proof.Machine.execVrixw a b x y k s
  | .vmv d a x k => Sys2Proof.Machine.execVmv d a x k s
  | .vsplat d a k => Sys2Proof.Machine.execVsplat d a k s
  | .vext d a b x => Sys2Proof.Machine.execVext d a b x s
  | .vins d a b => Sys2Proof.Machine.execVins d a b s
  | .vsel d a b x y k => Sys2Proof.Machine.execVsel d a b x y k s
  | .vmvi d a => Sys2Proof.Machine.execVmvi d a s
  | .vmvo d a x => Sys2Proof.Machine.execVmvo d a x s
  | .kand d a b => Sys2Proof.Machine.execKand d a b s
  | .kor d a b => Sys2Proof.Machine.execKor d a b s
  | .kxor d a b => Sys2Proof.Machine.execKxor d a b s
  | .kandn d a b => Sys2Proof.Machine.execKandn d a b s
  | .kpopc d a => Sys2Proof.Machine.execKpopc d a s
  | .kfirst d a => Sys2Proof.Machine.execKfirst d a s
  | .kbrka d a => Sys2Proof.Machine.execKbrka d a s
  | .kbrki d a => Sys2Proof.Machine.execKbrki d a s
  | .gbcast a x => Sys2Proof.Machine.execGbcast a x s
  | .grecv d => Sys2Proof.Machine.execGrecv d s
  | .vld v a k w sb => Sys2Proof.Machine.execVld v a k w sb s
  | .vlds v a b k w sb => Sys2Proof.Machine.execVlds v a b k w sb s
  | .vldx v a b k w sb c => Sys2Proof.Machine.execVldx v a b k w sb c s
  | .vgl v a b k w sb c => Sys2Proof.Machine.execVgl v a b k w sb c s
  | .vst v a k w sb c => Sys2Proof.Machine.execVst v a k w sb c s
  | .vsts v a b k w sb c => Sys2Proof.Machine.execVsts v a b k w sb c s
  | .vstx v a b k w sb c => Sys2Proof.Machine.execVstx v a b k w sb c s
  | .vsc v a b k w sb c => Sys2Proof.Machine.execVsc v a b k w sb c s
  | .vldff v a k w sb => Sys2Proof.Machine.execVldff v a k w sb s
  | .vappend v a b k w sb c => Sys2Proof.Machine.execVappend v a b k w sb c s
  | .vrred v a b k w sb c => Sys2Proof.Machine.execVrred v a b k w sb c s
  | .tshape d a f => Sys2Proof.Machine.execTshape d a f s
  | .setmw a => Sys2Proof.Machine.execSetmw a s
  | .tpref m p w => Sys2Proof.Machine.execTpref m p w s
  | .tdrop m p w => Sys2Proof.Machine.execTdrop m p w s
  | .tzero m p w => Sys2Proof.Machine.execTzero m p w s
  | .tloadA m a b y p w => Sys2Proof.Machine.execTloadA m a b y p w s
  | .tloadB m a b y p w => Sys2Proof.Machine.execTloadB m a b y p w s
  | .tloadC m a b p w => Sys2Proof.Machine.execTloadC m a b p w s
  | .tstoreA m a b p w => Sys2Proof.Machine.execTstoreA m a b p w s
  | .tstoreB m a b p w => Sys2Proof.Machine.execTstoreB m a b p w s
  | .tstoreC m a b p w => Sys2Proof.Machine.execTstoreC m a b p w s
  | .tmma d a l f p w => Sys2Proof.Machine.execTmma d a l f p w s
  | .tmmaSet d a l f p w => Sys2Proof.Machine.execTmmaSet d a l f p w s
  | .tmmaSw d a l f p w => Sys2Proof.Machine.execTmmaSw d a l f p w s
  | .tmmaSetSw d a l f p w => Sys2Proof.Machine.execTmmaSetSw d a l f p w s
  | .twload a l f p w => Sys2Proof.Machine.execTwload a l f p w s
  | .vtom m a b p w => Sys2Proof.Machine.execVtom m a b p w s
  | .mtov d a b l p w => Sys2Proof.Machine.execMtov d a b l p w s
  | .ttrans d a l p w => Sys2Proof.Machine.execTtrans d a l p w s
  | .tcvt d a l f p w => Sys2Proof.Machine.execTcvt d a l f p w s
  | .tadd d a b l h f p w => Sys2Proof.Machine.execTadd d a b l h f p w s
  | .cpy a b c g p w => Sys2Proof.Machine.execCpy a b c g p w s
  | .cpyt a b c g p w => Sys2Proof.Machine.execCpyt a b c g p w s
  | .mdiscard a c g p w => Sys2Proof.Machine.execMdiscard a c g p w s
  | .cpyz a b c g p w => Sys2Proof.Machine.execCpyz a b c g p w s
  | .binit a b p w => Sys2Proof.Machine.execBinit a b p w s
  | .bexp a b p w => Sys2Proof.Machine.execBexp a b p w s
  | .barr a b p w => Sys2Proof.Machine.execBarr a b p w s
  | .bwait a b p w => Sys2Proof.Machine.execBwait a b p w s
  | .btest a b p w => Sys2Proof.Machine.execBtest a b p w s
  | .pend a b p w => Sys2Proof.Machine.execPend a b p w s
  | .bexparr a b c p w => Sys2Proof.Machine.execBexparr a b c p w s
  | .tokp p => Sys2Proof.Machine.execTokp p s
  | .tokw w => Sys2Proof.Machine.execTokw w s
  | .gset a g => Sys2Proof.Machine.execGset a g s
  | .grst g => Sys2Proof.Machine.execGrst g s
  | .msend a g p w => Sys2Proof.Machine.execMsend a g p w s
  | .tsend a b g p w => Sys2Proof.Machine.execTsend a b g p w s
  | .tsendAdd a b g p w => Sys2Proof.Machine.execTsendAdd a b g p w s
  | .rpost a b p w => Sys2Proof.Machine.execRpost a b p w s
  | .rpostm a b c p w => Sys2Proof.Machine.execRpostm a b c p w s
  | .rcancel a b p w => Sys2Proof.Machine.execRcancel a b p w s
  | .rprobe a b c p w => Sys2Proof.Machine.execRprobe a b c p w s
  | .swp a b p w => Sys2Proof.Machine.execSwp a b p w s
  | .swnext p w => Sys2Proof.Machine.execSwnext p w s
  | .swexit p w => Sys2Proof.Machine.execSwexit p w s
  | .swake a b p w => Sys2Proof.Machine.execSwake a b p w s
  | .swakev a b c p w => Sys2Proof.Machine.execSwakev a b c p w s
  | .swakee a b p w => Sys2Proof.Machine.execSwakee a b p w s
  | .stnFlagIncrement => Sys2Proof.Machine.execStnFlagIncrement s
  | .msmcfgWrite => Sys2Proof.Machine.execMsmcfgWrite s
  | .srseedWrite => Sys2Proof.Machine.execSrseedWrite s
  | .registerWrite => Sys2Proof.Machine.execRegisterWrite s
  | .wfeTimeout => Sys2Proof.Machine.execWfeTimeout s
  | .vectorLoadLateError => Sys2Proof.Machine.execVectorLoadLateError s
  | .scatterAck => Sys2Proof.Machine.execScatterAck s
  | .mCommandRetire => Sys2Proof.Machine.execMCommandRetire s
  | .fillComplete => Sys2Proof.Machine.execFillComplete s
  | .spillComplete => Sys2Proof.Machine.execSpillComplete s
  | .copyStart => Sys2Proof.Machine.execCopyStart s
  | .copyRetire => Sys2Proof.Machine.execCopyRetire s
  | .guardedCommandDiscard => Sys2Proof.Machine.execGuardedCommandDiscard s
  | .bwaitWake => Sys2Proof.Machine.execBwaitWake s
  | .sendStart => Sys2Proof.Machine.execSendStart s
  | .pullRequest => Sys2Proof.Machine.execPullRequest s
  | .sendComplete => Sys2Proof.Machine.execSendComplete s
  | .headerArrival => Sys2Proof.Machine.execHeaderArrival s
  | .sequenceGapClose => Sys2Proof.Machine.execSequenceGapClose s
  | .pullComplete => Sys2Proof.Machine.execPullComplete s
  | .pullFail => Sys2Proof.Machine.execPullFail s
  | .landing => Sys2Proof.Machine.execLanding s
  | .destfaultRetry => Sys2Proof.Machine.execDestfaultRetry s
  | .groupOpen => Sys2Proof.Machine.execGroupOpen s
  | .sweepEngineFault => Sys2Proof.Machine.execSweepEngineFault s
  | .wakeApply => Sys2Proof.Machine.execWakeApply s
  | .swakeePass => Sys2Proof.Machine.execSwakeePass s
  | .scoreboardSlotComplete => Sys2Proof.Machine.execScoreboardSlotComplete s
  | .remoteTimeout => Sys2Proof.Machine.execRemoteTimeout s
  | .tagQuarantineEnd => Sys2Proof.Machine.execTagQuarantineEnd s
  | .latereply => Sys2Proof.Machine.execLatereply s
  | .watchdog => Sys2Proof.Machine.execWatchdog s
  | .faultRecordAppend => Sys2Proof.Machine.execFaultRecordAppend s
  | .schedulerServe => Sys2Proof.Machine.execSchedulerServe s
  | .preemptionHalt => Sys2Proof.Machine.execPreemptionHalt s
  | .saveComplete => Sys2Proof.Machine.execSaveComplete s
  | .priorityInheritanceMove => Sys2Proof.Machine.execPriorityInheritanceMove s
  | .heldContinuationEnqueue => Sys2Proof.Machine.execHeldContinuationEnqueue s
  | .throttleRaise => Sys2Proof.Machine.execThrottleRaise s
  | .throttleLower => Sys2Proof.Machine.execThrottleLower s
  | .powerPreemption => Sys2Proof.Machine.execPowerPreemption s
  | .yalushResume => Sys2Proof.Machine.execYalushResume s
  | .launchEnd => Sys2Proof.Machine.execLaunchEnd s
  | .msmThermalLimit => Sys2Proof.Machine.execMsmThermalLimit s
  | .msmThermalClear => Sys2Proof.Machine.execMsmThermalClear s
  | .hbmThermalLevel => Sys2Proof.Machine.execHbmThermalLevel s
  | .eccCorrected => Sys2Proof.Machine.execEccCorrected s
  | .uncorrectedError => Sys2Proof.Machine.execUncorrectedError s
  | .selfTestComplete => Sys2Proof.Machine.execSelfTestComplete s
  | .shootdownRequest => Sys2Proof.Machine.execShootdownRequest s
  | .shootdownArrival => Sys2Proof.Machine.execShootdownArrival s
  | .scanComplete => Sys2Proof.Machine.execScanComplete s
  | .featureMaskNarrow => Sys2Proof.Machine.execFeatureMaskNarrow s
  | .securityAlarm => Sys2Proof.Machine.execSecurityAlarm s
  | .partitionActivate => Sys2Proof.Machine.execPartitionActivate s
  | .ylLaunch => Sys2Proof.Machine.execYlLaunch s
  | .ylWait => Sys2Proof.Machine.execYlWait s
  | .ylMap => Sys2Proof.Machine.execYlMap s
  | .ylUnmap => Sys2Proof.Machine.execYlUnmap s
  | .ylExmap => Sys2Proof.Machine.execYlExmap s
  | .ylMboxOpen => Sys2Proof.Machine.execYlMboxOpen s
  | .ylMboxClose => Sys2Proof.Machine.execYlMboxClose s
  | .ylJoinCreate => Sys2Proof.Machine.execYlJoinCreate s
  | .ylFaultPolicy => Sys2Proof.Machine.execYlFaultPolicy s
  | .ylQuota => Sys2Proof.Machine.execYlQuota s
  | .ylPeerQuery => Sys2Proof.Machine.execYlPeerQuery s
  | .ylAttest => Sys2Proof.Machine.execYlAttest s
  | .ylExit => Sys2Proof.Machine.execYlExit s
  | .ylClock => Sys2Proof.Machine.execYlClock s
  | .ylMemAlloc => Sys2Proof.Machine.execYlMemAlloc s
  | .ylMemFree => Sys2Proof.Machine.execYlMemFree s
  | .doorbell => Sys2Proof.Machine.execDoorbell s
  | .functionLevelReset => Sys2Proof.Machine.execFunctionLevelReset s
  | .linkDown => Sys2Proof.Machine.execLinkDown s
  | .powerGood => Sys2Proof.Machine.execPowerGood s
  | .recoveryImageSubmit => Sys2Proof.Machine.execRecoveryImageSubmit s
  | .powerCapSet => Sys2Proof.Machine.execPowerCapSet s
  | .packageReset => Sys2Proof.Machine.execPackageReset s
  | .idleEntry => Sys2Proof.Machine.execIdleEntry s
  | .idleExit => Sys2Proof.Machine.execIdleExit s
  | .accessPerformed => Sys2Proof.Machine.execAccessPerformed s
  | .remoteAccessArrival => Sys2Proof.Machine.execRemoteAccessArrival s
  | .linkUp => Sys2Proof.Machine.execLinkUp s
  | .powerLoss => Sys2Proof.Machine.execPowerLoss s

end Sys2Proof.Machine
end

