-- ==== Sys2Proof/Machine/Issue.lean ====
section
/-! DEFINITION. How instructions reach `exec`: the conditions of issue, the fetch, poisoned registers, what a turn does, and the turn that
comes when the agenda is empty (spec/01_execution_model.md R6, R7, spec/05_memories.md R103, spec/07_queues_and_scheduling.md R128,
spec/09_translation_and_faults.md R155, R167, R168, spec/13_encoding.md R217; Assumption 1). -/

namespace Sys2Proof.Machine

open Sys2Proof

/-! ### Poisoned registers (spec/05_memories.md R103) -/

/-- The scalar registers that an instruction reads. -/
def scalarReads : Instr → List (BitVec 5)
  | .add _ a b | .sub _ a b | .and _ a b | .or _ a b | .xor _ a b | .andn _ a b | .sll _ a b | .srl _ a b | .sra _ a b
  | .slt _ a b | .sltu _ a b | .min _ a b | .max _ a b | .minu _ a b | .maxu _ a b | .mul _ a b | .mulh _ a b | .mulhu _ a b
  | .div _ a b | .divu _ a b | .rem _ a b | .remu _ a b | .addw _ a b | .subw _ a b | .mulw _ a b | .fadd _ a b
  | .fsub _ a b | .fmul _ a b | .fmin _ a b | .fmax _ a b | .flt _ a b | .feq _ a b | .str a b _ _ | .amoAdd _ a b _ _ _ _ _
  | .amoAnd _ a b _ _ _ _ _ | .amoOr _ a b _ _ _ _ _ | .amoXor _ a b _ _ _ _ _ | .amoSmin _ a b _ _ _ _ _
  | .amoSmax _ a b _ _ _ _ _ | .amoUmin _ a b _ _ _ _ _ | .amoUmax _ a b _ _ _ _ _ | .amoSwap _ a b _ _ _ _
  | .amoFadd _ a b _ _ _ _ | .bcEq a b _ | .bcNe a b _ | .bcLt a b _ | .bcGe a b _ | .bcLtu a b _ | .bcGeu a b _ | .bcBset a b _
  | .bcBclr a b _ | .vins _ a b | .vlds _ a b _ _ _ | .vsts _ a b _ _ _ _ | .vrred _ a b _ _ _ _ | .tloadA _ a b _ _ _
  | .tloadB _ a b _ _ _ | .tloadC _ a b _ _ | .tstoreA _ a b _ _ | .tstoreB _ a b _ _ | .tstoreC _ a b _ _ | .binit a b _ _
  | .bexp a b _ _ | .bwait a b _ _ | .bexparr a b _ _ _ | .rpost a b _ _ | .rpostm a b _ _ _ | .rcancel a b _ _
  | .rprobe a b _ _ _ | .swp a b _ _ | .swake a b _ _ | .swakee a b _ _ => [a, b]
  | .clz _ a | .ctz _ a | .popc _ a | .addi _ a _ | .andi _ a _ | .ori _ a _ | .xori _ a _ | .slti _ a _ | .sltiu _ a _
  | .slli _ a _ | .srli _ a _ | .srai _ a _ | .fcvtws _ a | .fcvtsw _ a | .ld _ a _ _ | .lds _ a _ _ | .lda _ a _ _ | .jalr _ a _
  | .callt a _ | .csrw a _ | .csrs a _ | .csrc a _ | .wfe a | .fork a _ | .vcfg _ a _ _ | .vsplat _ a _ | .vmvi _ a
  | .vld _ a _ _ _ | .vldx _ a _ _ _ _ _ | .vgl _ a _ _ _ _ _ | .vst _ a _ _ _ _ | .vstx _ a _ _ _ _ _ | .vsc _ a _ _ _ _ _
  | .vldff _ a _ _ _ | .vappend _ a _ _ _ _ _ | .setmw a | .barr a _ _ _ | .btest a _ _ _ | .pend a _ _ _ | .gset a _
  | .msend a _ _ _ | .tsend a _ _ _ _ | .tsendAdd a _ _ _ _ | .swakev a _ _ _ _ => [a]
  | .lih d _ _ | .vmvo d _ _ => [d]
  | .csel d a b | .fma d a b | .cas d a b _ _ _ _ | .stn d a b _ _ => [a, b, d]
  | .st d a _ _ => [a, d]
  | .vcmpFeq _ _ _ _ _ _ s | .vcmpFlt _ _ _ _ _ _ s | .vfadd _ _ _ _ _ _ s | .vfsub _ _ _ _ _ _ s | .vfmul _ _ _ _ _ _ s
  | .vfmin _ _ _ _ _ _ s | .vfmax _ _ _ _ _ _ s | .vfdiv _ _ _ _ _ _ s | .vfsqrt _ _ _ _ s | .vfscale _ _ _ _ _ _ s
  | .vfma _ _ _ _ _ _ s | .vfms _ _ _ _ _ _ s | .vfnma _ _ _ _ _ _ s | .vfnms _ _ _ _ _ _ s | .vfcvt _ _ _ _ s
  | .vfcvti _ _ _ _ s | .vfneg _ _ _ _ s | .vfabs _ _ _ _ s | .vfclass _ _ _ _ s | .vfredsum _ _ _ _ s | .vfredmax _ _ _ _ s
  | .vfredmin _ _ _ _ s => [24#5 + s.setWidth 5]
  | .vslideup _ _ b _ _ | .vslidedn _ _ b _ _ | .vext _ _ b _ | .vtom _ _ b _ _ | .mtov _ _ b _ _ _ => [b]
  | .tshape _ a f => [a, 24#5 + f.setWidth 5]
  | .tmma _ _ _ f _ _ | .tmmaSet _ _ _ f _ _ | .tmmaSw _ _ _ f _ _ | .tmmaSetSw _ _ _ f _ _ | .twload _ _ f _ _
  | .tcvt _ _ _ f _ _ | .tadd _ _ _ _ _ f _ _ => [24#5 + f.setWidth 5]
  | .cpy a b c _ _ _ | .cpyt a b c _ _ _ | .cpyz a b c _ _ _ => [a, b, c, nextReg c]
  | .mdiscard a c _ _ _ => [a, c, nextReg c]
  | _ => []
/-- The primary opcode of an instruction. -/
def opcodeOf (i : Instr) : Nat := (slice (encode i) 26 6).toNat

/-- The CSRs that an instruction reads: the one it names; VL and VTYPE in the vector families, GANG, SWAKEV and SWP; MW and TSH in the matrix
families (spec/13_encoding.md, the opcode map), and MW where else a matrix register is named; FTBASE and FTLEN in CALLT. -/
def csrReads (i : Instr) : List Nat :=
  match i with
  | .csrr _ c | .csrs _ c | .csrc _ c => [c.toNat]
  | .callt _ _ => [0x018, 0x019]
  | .tpref _ _ _ | .tdrop _ _ _ | .tzero _ _ _ | .tsend _ _ _ _ _ | .tsendAdd _ _ _ _ _ | .rpostm _ _ _ _ _ => [0x00A]
  | .swakev _ _ _ _ _ | .swp _ _ _ _ => [0x008, 0x009]
  | i =>
    let o := opcodeOf i
    if (0x19 ≤ o ∧ o ≤ 0x28) ∨ o = 0x33 then [0x008, 0x009]
    else if 0x2A ≤ o ∧ o ≤ 0x2D then [0x00A, 0x00B]
    else []

/-- Does the instruction read a scalar register or a CSR of the strand that is poisoned? Mask and vector registers are checked with the
operands of their forms. -/
def readsPoison (t : Strand) (i : Instr) : Bool :=
  if t.badS.isEmpty && t.badC.isEmpty then false
  else (scalarReads i).any (fun r => t.badS.contains r.toNat) || (csrReads i).any t.badC.contains

/-- The scalar registers from which an instruction forms its addresses: of a store and of an atomic, all but the data. -/
def addressReads : Instr → List (BitVec 5)
  | .st _ a _ _ | .str a _ _ _ | .cas _ a _ _ _ _ _ => [a]
  | .stn d a _ _ _ => [a, d]
  | .amoAdd _ a _ _ _ _ _ _ | .amoAnd _ a _ _ _ _ _ _ | .amoOr _ a _ _ _ _ _ _ | .amoXor _ a _ _ _ _ _ _
  | .amoSmin _ a _ _ _ _ _ _ | .amoSmax _ a _ _ _ _ _ _ | .amoUmin _ a _ _ _ _ _ _ | .amoUmax _ a _ _ _ _ _ _
  | .amoSwap _ a _ _ _ _ _ | .amoFadd _ a _ _ _ _ _ => [a]
  | .binit a _ _ _ | .bexp a _ _ _ | .bwait a _ _ _ | .bexparr a _ _ _ _ => [a]
  | .vrred _ a _ _ _ _ _ => [a]
  | i => scalarReads i

/-- Is a register poisoned from which the instruction forms its addresses, or a CSR that it reads? -/
def addressPoisoned (t : Strand) (i : Instr) : Bool :=
  (addressReads i).any (fun r => t.badS.contains r.toNat) || (csrReads i).any t.badC.contains

/-- Is the format word of an instruction that reads one poisoned? It is the last scalar register of the list. -/
def formatPoisoned (t : Strand) (i : Instr) : Bool :=
  match (scalarReads i).getLast? with
  | some r => t.badS.contains r.toNat
  | none => false

/-- Does an instruction that reads a poisoned register meet a fault that comes before POISON (spec/09_translation_and_faults.md R164)? It is
tried on the values at hand: SLOT_ERROR and a deferred error do not depend on them, nor does REGGROUP, FORMAT only on the format
word, and FTINDEX on CALLT's index and FTLEN. The faults of an element's address count where no poisoned register went into the address, since poison
never reads as data
(spec/05_memories.md R103; DEDUCED, Assumption 57). -/
def faultsFirst (i : Instr) (before after : Strand) : Bool :=
  (before.deferred.isSome && after.deferred.isNone) ||
    (match newFault before after with
      | some r => r.cls == .slotError || r.cls == .regGroup || (r.cls == .format && !formatPoisoned before i) ||
        (r.cls == .ftIndex && !before.badC.contains 0x019 && !(scalarReads i).any (fun x => before.badS.contains x.toNat)) ||
        (beforePoison r.cls && !addressPoisoned before i)
      | none => false)

/-! ### Slots and spares -/

/-- The slots for which an instruction may raise SLOT_ERROR, bit by bit (spec/02_strand_registers.md R41): those of WSB, all for FENCE and
EXIT, and sw and ss of the VM format. TRAP waits as FENCE does, and raises TRAP alone (spec/14_scalar_instructions.md R256). -/
def slotMask (i : Instr) : BitVec 8 :=
  match i with
  | .wsb m => m ++ 0#1
  | .fence _ | .exit => 0xFE#8
  | i =>
    let o := opcodeOf i
    if 0x23 ≤ o ∧ o ≤ 0x28 then
      putBit (putBit 0#8 (slice (encode i) 5 3).toNat true) (slice (encode i) 2 3).toNat true &&& 0xFE#8
    else 0#8

/-- The vector registers that an instruction writes: each takes a spare of the core (spec/02_strand_registers.md R31). A group counts with
the registers that hold elements below VL, and a form that raises REGGROUP for a number past v127 takes none (R28). -/
def vectorDsts (t : Strand) (i : Instr) : List Nat :=
  let sew (d : BitVec 5) : List Nat := t.liveRegs (t.sewOp d)
  let coded (d : BitVec 5) (c : BitVec 8) : List Nat := t.liveRegs ⟨d.toNat, (codeWidth c).getD t.sewBits⟩
  let fd (d : BitVec 5) (f : BitVec 3) : List Nat := coded d (fwFD (t.formatWord f))
  let whole (d : BitVec 5) (f : BitVec 3) : List Nat :=
    t.groupRegs ⟨d.toNat, (codeWidth (fwFD (t.formatWord f))).getD t.sewBits⟩
  let some_ (l : List Nat) : List Nat := if t.vl = 0#12 then [] else l
  match i with
  | .vadd d _ _ _ _ _ | .vsub d _ _ _ _ _ | .vmul d _ _ _ _ _ | .vmulh d _ _ _ _ _ | .vand d _ _ _ _ _ | .vor d _ _ _ _ _
  | .vxor d _ _ _ _ _ | .vandn d _ _ _ _ _ | .vsll d _ _ _ _ _ | .vsrl d _ _ _ _ _ | .vsra d _ _ _ _ _ | .vmin d _ _ _ _ _
  | .vmax d _ _ _ _ _ | .vminu d _ _ _ _ _ | .vmaxu d _ _ _ _ _ | .vadds d _ _ _ _ _ | .vperm d _ _ _ _ _
  | .vslideup d _ _ _ _ | .vslidedn d _ _ _ _ | .vcompress d _ _ _ | .vexpand d _ _ _ | .viota d _ | .vrix d _ _ _ | .vmv d _ _ _
  | .vsplat d _ _ | .vins d _ _ | .vsel d _ _ _ _ _ | .vfclass d _ _ _ _ | .vld d _ _ _ _ | .vlds d _ _ _ _ _
  | .vldx d _ _ _ _ _ _ | .vgl d _ _ _ _ _ _ | .vldff d _ _ _ _ => sew d
  | .vfadd d _ _ _ _ _ f | .vfsub d _ _ _ _ _ f | .vfmul d _ _ _ _ _ f | .vfmin d _ _ _ _ _ f | .vfmax d _ _ _ _ _ f
  | .vfdiv d _ _ _ _ _ f | .vfsqrt d _ _ _ f | .vfscale d _ _ _ _ _ f | .vfma d _ _ _ _ _ f | .vfms d _ _ _ _ _ f
  | .vfnma d _ _ _ _ _ f | .vfnms d _ _ _ _ _ f => fd d f
  | .vfcvt d _ _ _ f =>
    let w := t.formatWord f
    fd d f ++ some_ (scaleReads (fwFD w) (fwZD w))
  | .vfcvti d _ _ _ f | .vfneg d _ _ _ f | .vfabs d _ _ _ f => coded d (fwFA (t.formatWord f))
  | .vredsum d _ _ _ | .vredmax d _ _ _ | .vredmin d _ _ _ | .vredmaxu d _ _ _ | .vredminu d _ _ _ =>
    some_ (t.groupRegs (t.sewOp d))
  | .vfredsum d _ _ _ f | .vfredmax d _ _ _ f | .vfredmin d _ _ _ f => some_ (whole d f)
  | .vrixw _ b _ _ k => if (badRegLane t b k).isSome then [] else some_ (namedRegs t b k)
  | .vmvi d _ | .grecv d => some_ [d.toNat]
  | .vmvo d _ _ => if 128 ≤ (t.getS d).toNat then [] else some_ [(t.getS d).toNat]
  | .mtov d _ _ _ _ _ => [d.toNat]
  | .tcvt _ _ _ f _ _ =>
    let w := t.formatWord f
    scaleRegs (fwFD w) (fwZD w)
  | _ => []

/-! ### The fetch (spec/13_encoding.md R217, spec/09_translation_and_faults.md R155) -/

/-- What the fetch of the word at the strand's pc finds. -/
inductive Fetched where
  /-- its row is under a self-test (spec/05_memories.md R101) -/
  | wait
  /-- the strand has taken the fault of its fetch -/
  | fault (s : State)
  | word (w : IWord) (s : State)
deriving DecidableEq, Repr

/-- The fetch of the word at the strand's pc. -/
def fetch (s : State) : Fetched :=
  let t := s.me
  let va := t.pc.toNat
  match locate s (streamCtx s s.cur) t.pc 4 4 .fetch acceptsLocal with
  | .error f => if f.held then .wait else .fault (raiseFail f .fetch 0 s)
  | .ok (pl, s1) =>
    if s1.held || underTest s1 s.cur pl 4 then .wait
    else match homeFault s1 pl 4 true with
      | some c => .fault (raise (failTrap (Failure.at c va) .fetch 0) (lostLog s.cur pl va c s1))
      | none => .word (bytesBv 32 (homeRead s1 (placeKey pl).2 4)) s1

/-! ### Issue (spec/01_execution_model.md R7) -/

/-- What the issue stage finds for the strand in the current slot. -/
inductive Issue where
  /-- it does not issue now -/
  | hold
  /-- a fault of the strand, taken before its instruction -/
  | trap (s : State)
  /-- an instruction that the scanner never passes -/
  | stop (f : Fault)
  /-- the instruction runs -/
  | run (i : Instr) (s : State)
deriving DecidableEq, Repr

/-- Must a gang have halted: 300 ticks after the request (spec/09_translation_and_faults.md R168)? -/
def mustHalt (s : State) (p : BitVec 6) (area : Nat) : Bool :=
  match s.gang? p area with
  | some g => (match g.preempt with
    | some t => decide (t + 300 ≤ s.cycle)
    | none => false)
  | none => false

/-- Is a register row of the strand under a self-test (spec/05_memories.md R101)? The strand waits for the row, whichever of its registers
the next instruction names (Assumption 31). -/
def rowTested (s : State) (slot : Nat) : Bool :=
  s.tests.any (fun x => testOn s x && (match x.1 with
    | .vector k _ | .scalar k _ | .mask k _ | .csr k _ => k == slot
    | _ => false))

/-- May the strand in the current slot issue in this tick? Its wakes that no open group holds must have been applied
(spec/06_memory_ordering.md R112, R113), but a form that hands wakes over goes on with them. -/
def canIssue (s : State) : Bool :=
  let t := s.me
  t.phase == .running && (s.power == .p0 || s.power == .p1) && t.out.all (fun a => !a.blocks) && waitOver t && !mustHalt s t.part t.gang &&
    !watchdogDue t && s.mayIssue t.part t.gang && t.yielded == 0 && (!wakesOut s s.cur || !t.handing.isEmpty) &&
    !rowTested s s.cur

/-- Instructions that never wait. -/
def neverWaits : Instr → Bool
  | .j _ | .jal _ | .jalr _ _ _ | .bcEq _ _ _ | .bcNe _ _ _ | .bcLt _ _ _ | .bcGe _ _ _ | .bcLtu _ _ _ | .bcGeu _ _ _ | .bcBset _ _ _
  | .bcBclr _ _ _ => true
  | _ => false

/-- Does an instruction lack the spares that it needs (spec/02_strand_registers.md R31)? One that needs more than the core has in service
goes on when they are all free, since its old registers return as it writes. -/
def sparesShort (s : State) (i : Instr) : Bool :=
  decide (sparesFree s (coreOf s.cur) <
    min (vectorDsts s.me i).eraseDups.length (128 - tabGet 0 s.vregLost (coreOf s.cur)))

/-- A deferred error that is due after a resume comes after SLOT_ERROR, and before all other faults of the instruction
(spec/09_translation_and_faults.md R164). -/
def deferredFirst (s : State) (i : Instr) : Option State :=
  if !s.me.deferNow then none
  else match waitSlots s.me (slotMask i) with
    | .error j => some (raiseSlot s j)
    | _ => deliver s

/-- The instruction itself: where it reads a poisoned register, POISON takes its place, unless a fault that comes first is met or it is not
ready. -/
def issueInstr (s : State) (i : Instr) : Issue :=
  if !readsPoison s.me i then .run i s
  else match exec i s with
    | .next s1 =>
      if faultsFirst i s.me s1.me then .run i s
      else if s1 = s ∧ neverWaits i = false then .hold
      else .trap (raise (Trap.plain .poison) s)
    | _ => .run i s

/-- The issue stage: the fetch with its faults, then what must come before the instruction, then the instruction. -/
def fetchIssue (s : State) : Issue :=
  if !canIssue s then .hold
  else match fetch s with
    | .wait => .hold
    | .fault s1 => .trap s1
    | .word w s1 =>
      match decode w with
      | none => .stop (.illegalWord w)
      | some i =>
        match deferredFirst s1 i with
        | some s2 => .trap s2
        | none => if sparesShort s1 i then .hold else issueInstr s1 i

/-- Does a run of an instruction get anywhere: does it change the state, or is it one that never waits? -/
def goesOn (i : Instr) (before after : State) : Bool := neverWaits i || decide (after ≠ before)

/-- A step that has come upon a row under a self-test has not happened (spec/05_memories.md R101): it waits, and the state is as it was. -/
def unlessHeld (s : State) (o : Out) : Out :=
  match o with
  | .next u => .next (if u.held then s else u)
  | o => o

/-- Does the strand in the slot have something to issue (spec/01_execution_model.md R7)? -/
def readySlot (s : State) (slot : Nat) : Bool :=
  match fetchIssue { s with cur := slot, held := false } with
  | .hold => false
  | .trap s1 => !s1.held
  | .stop _ => true
  | .run i s2 =>
    match exec i s2 with
    | .next s3 => !s3.held && goesOn i s2 s3
    | _ => true

/-- Is the bound of spec/07_queues_and_scheduling.md R129 at stake among some slots: are there m of them, m at most 3, that have been passed
over in all but m of the four ticks within which each must issue? Round-robin with no throttle never lets that choose another slot than
its own next one. -/
def boundAtStake (s : State) (slots : List Nat) : Bool :=
  [1, 2, 3].any (fun m => decide (m ≤ (slots.filter (fun k => decide (4 ≤ tabGet 0 s.passed k + m))).length))

/-- The slots of a core in the order in which the issue stage looks at them: round-robin, from the one after the last that issued on
(spec/01_execution_model.md R7). Beside a throttled gang round-robin alone could pass a strand over for ever, since its permitted ticks may
always find the round at the same place; so where the promise of R24 item 1, as R129 gives it, is at stake the slots that were passed over
most often come first (spec/07_queues_and_scheduling.md R129; DESIGN CHOICE, Assumption 58). -/
def coreRound (s : State) (core : Nat) : List Nat :=
  let rr := (List.range 4).map (fun j => 4 * core + (tabGet 0 s.lastSlot core + 1 + j) % 4)
  if boundAtStake s rr then
    [4, 3, 2, 1, 0].flatMap (fun n => rr.filter (fun k => min 4 (tabGet 0 s.passed k) == n))
  else rr

/-- Is it the slot's turn: its core has not issued in this tick, and no slot before it in the round is ready? -/
def slotTurn (s : State) (slot : Nat) : Bool :=
  !s.issued.contains (coreOf slot) && ((coreRound s (coreOf slot)).takeWhile (fun k => k != slot)).all (fun k => !readySlot s k)

/-! ### What goes with an issue -/

/-- How often each slot of a core has been passed over once one of them issues: of the others, those that were ready in a tick in which
their gangs may issue once more, those that were not ready anew (spec/07_queues_and_scheduling.md R129). -/
def passOver (before : State) (slot : Nat) : Tab Nat :=
  (List.range 4).foldl (fun m j =>
    let k := 4 * coreOf slot + j
    let t := before.strand k
    if k ≠ slot ∧ t.phase = .running ∧ before.mayIssue t.part t.gang = false then m
    else tabPut 0 m k (if k ≠ slot ∧ readySlot before k = true then tabGet 0 m k + 1 else 0)) before.passed

/-- A slot has issued: it is the core's last and its core's issue of this tick is spent, and strands that yielded to it wait for it no more
(spec/14_scalar_instructions.md R253). `before` is the state in which it issued. -/
def noteIssue (before s : State) (slot : Nat) : State :=
  let bit := 2 ^ (slot % 4)
  let seen (kt : Nat × Strand) : Nat × Strand :=
    if kt.2.yielded = 0 ∨ coreOf kt.1 ≠ coreOf slot ∨ kt.1 = slot ∨ kt.2.yielded / bit % 2 = 0 then kt
    else
      let y := kt.2.yielded - bit
      (kt.1, { kt.2 with yielded := if y % 16 = 0 then 0 else y })
  { s with
    lastSlot := tabPut 0 s.lastSlot (coreOf slot) (slot % 4)
    issued := insNat (coreOf slot) s.issued
    passed := passOver before slot
    strands := s.strands.map seen }

/-- Is the pass of an instruction the one that counts as its issue (spec/02_strand_registers.md R42): the first of those that it may take,
where no fault is met; for EXIT the one in which it begins to leave? -/
def countsIssue (i : Instr) (before after : Strand) : Bool :=
  let fresh := before.wait == .none && before.append.isNone && before.recBuf.isNone && !before.tokDone
  let cut := after.pc == before.pc && after.restart != before.restart
  match i with
  | .trap _ | .bkpt => decide (after ≠ before)
  | .exit => fresh && (after.wait == .exit || after.phase == .free)
  | _ => (neverWaits i || (fresh && !cut && decide (after ≠ before))) && after.fault == before.fault

/-- The slots that a YIELD gives way to: those of its core that are ready (spec/14_scalar_instructions.md R253). -/
def yieldTo (before : State) (t : Strand) : Strand :=
  let keep := (List.range 4).foldl (fun acc j =>
    if t.yielded / 2 ^ j % 2 = 1 ∧ readySlot before (4 * coreOf before.cur + j) = true then acc + 2 ^ j else acc) 0
  { t with yielded := if keep = 0 then 0 else keep + 64 }

/-- The bits of a vector register that an instruction writes as it runs: those that what the register held before does not reach. -/
def bitsWritten (i : Instr) (slot : Nat) (before : State) (n : Nat) : VReg :=
  let run (x : VReg) : VReg :=
    match exec i (before.updSlot slot (fun t => t.setV n x)) with
    | .next u => (u.strand slot).getV n
    | _ => x
  ~~~(run 0#16384 ^^^ run (BitVec.allOnes 16384))

/-- The bits of a vector register that a matrix command will write: all for MTOV, and the scale words of a TCVT. -/
def bitsBound (c : MCommand) (n : Nat) : VReg :=
  match c.ins with
  | .mtov _ _ _ _ _ _ => BitVec.allOnes 16384
  | .tcvt _ _ _ _ _ _ =>
    ((tcvtTile c.fmt c.grant Strand.empty.mbank 0#262144).scales.filter (fun x => (fwZD c.fmt + x.1) % 128 == n)).foldl
      (fun m x => m ||| elemMask (32 * x.2.1) 32) 0#16384
  | _ => 0#16384

/-- The results of the strand's earlier matrix commands do not reach what an instruction has written of its vector registers, or what the
command that it has appended will write (spec/16_matrix_instructions.md R289). What a load writes counts as it is written. -/
def coverWrites (i : Instr) (slot : Nat) (before : State) (t : Strand) : Strand :=
  let b := before.strand slot
  let due := (vectorDsts b i).filter (fun n => b.mq.any (fun c => c.vdst.contains n))
  if due.isEmpty then t
  else if t.mq.length ≤ b.mq.length then due.foldl (fun u n => u.cover n (bitsWritten i slot before n)) t
  else
    let own := t.mq.drop b.mq.length
    let u := due.foldl (fun u n => u.cover n (own.foldl (fun m c => m ||| bitsBound c n) 0#16384)) { t with mq := t.mq.take b.mq.length }
    { u with mq := u.mq ++ own }

/-- After `exec`: when the instruction issued, rather than found itself not ready, the issue is noted and counted, and the vector registers it
writes are new ones. -/
def afterIssue (i : Instr) (slot : Nat) (before after : State) : State :=
  if !goesOn i before after then after
  else
    let s0 := after.updSlot slot (coverWrites i slot before)
    let s1 := noteIssue before (if i = .yield then s0.updSlot slot (yieldTo before) else s0) slot
    if countsIssue i (before.strand slot) (after.strand slot) then
      let s2 := s1.updSlot slot (markOld after.seq (vectorDsts (before.strand slot) i))
      countFor s2 slot (before.strand slot).part 0x0001 1
    else s1

/-! ### Time (spec/02_strand_registers.md R38, spec/09_translation_and_faults.md R167) -/

/-- A strand after some ticks: RUNTK counts them while it is bound and has not halted; writes of its counters and tokens pushed in the last
tick take effect (spec/14_scalar_instructions.md R254, spec/07_queues_and_scheduling.md R118). -/
def tickStrand (n : Nat) (t : Strand) : Strand :=
  let y := if t.yielded / 16 ≤ n then 0 else t.yielded - 16 * n
  let u : Strand := { applyPerf t with
    yielded := y
    tokNew := Strand.empty.tokNew }
  if t.phase = .running ∨ t.phase = .parked then { u with runtk := u.runtk + BitVec.ofNat 64 n } else u

/-- Some ticks pass. -/
def advance (n : Nat) (s : State) : State :=
  if n = 0 then s
  else { s with
    cycle := s.cycle + n
    issued := []
    strands := s.strands.map (fun kt => (kt.1, tickStrand n kt.2)) }

/-- Does a counter of some strand select an event? -/
def someSelects (s : State) (e : Nat) : Bool :=
  s.strands.any (fun kt => kt.2.perfSel.any (fun kx => (slice kx.2 0 16).toNat == e))

/-- Is the strand in a slot held for want of spares of its own core, as its instruction's vector writes need them? A GBCAST that waits for
spares of another member's core is not counted (DESIGN CHOICE, Assumption 6: the manual does not say whether it is). -/
def sparesHold (s : State) (slot : Nat) : Bool :=
  let u := { s with cur := slot }
  canIssue u && (match fetch u with
    | .word w s1 => (match decode w with
      | some i => (deferredFirst s1 i).isNone && sparesShort s1 i
      | none => false)
    | _ => false)

/-- Has the slot issued in this tick? -/
def issuedNow (s : State) (slot : Nat) : Bool := s.issued.contains (coreOf slot) && tabGet 0 s.lastSlot (coreOf slot) == slot % 4

/-- The end of a tick in which a core has issued nothing: those of its running slots that might have issued in it were not ready, and what
they were passed over counts no more (spec/07_queues_and_scheduling.md R129). -/
def notePassed (slots : List Nat) (s : State) : State :=
  let next (k : Nat) : Nat :=
    let t := s.strand k
    if s.issued.contains (coreOf k) || !s.mayIssue t.part t.gang then tabGet 0 s.passed k else 0
  { s with passed := slots.foldl (fun m k => tabPut 0 m k (next k)) [] }

/-- The end of a tick: the strands that were ready and did not issue in it, and those that had no spares, are counted
(spec/02_strand_registers.md R42, events 0x0002 and 0x000D). Two strands of a core that were passed over in one tick count twice in a
counter that selects both: the manual does not say whether such a tick counts once (DESIGN CHOICE, Assumption 6). -/
def tallyTick (s : State) : State :=
  let slots := (s.strands.filter (fun kt => kt.2.phase == .running)).map (fun kt => kt.1)
  let count (e : Nat) (which : Nat → Bool) (u : State) : State :=
    if someSelects s e then (slots.filter which).foldl (fun v k => countEvent v k e 1) u else u
  notePassed slots (count 0xD (sparesHold s) (count 0x2 (fun k => !issuedNow s k && readySlot s k) s))

/-- Events of spec/02_strand_registers.md R42 that only the timing of the hardware decides: requests to L2. -/
def isTimingEvent (e : Nat) : Bool := e == 0x7

/-- May the strand of a slot make requests to L2: does it run, or has it an access or an engine's work out? -/
def asksL2 (s : State) (slot : Nat) : Bool :=
  let t := s.strand slot
  t.phase == .running || !t.out.isEmpty || !t.mq.isEmpty || !t.fillq.isEmpty || !t.spillq.isEmpty || s.copies.any (fun c => ownsCopy t c)

/-- Does a counter of the strand in a slot select a strand that may make requests to L2? -/
def countsL2 (s : State) (slot i : Nat) : Bool :=
  let t := s.strand slot
  if (tabGet 0#17 t.perfSel i).getLsbD 16 then asksL2 s slot
  else (List.range 4).any (fun j =>
    let k := 4 * coreOf slot + j
    decide ((s.strand k).part = t.part) && asksL2 s k)

/-- The counters of the strand in a slot that count them advance by free values (Assumption 6), numbered from `n` on. -/
def timeStrand (s : State) (slot n : Nat) (t : Strand) : Strand :=
  let one (c : Tab Word) (i : Nat) : Tab Word :=
    if isTimingEvent (slice (tabGet 0#17 t.perfSel i) 0 16).toNat && countsL2 s slot i then
      tabPut 0#64 c i (tabGet 0#64 c i + Config.timingEvents (n + i))
    else c
  { t with perfCnt := (List.range 8).foldl one t.perfCnt }

/-- Does a counter of the strand select one? -/
def selectsTiming (t : Strand) : Bool := t.perfSel.any (fun kx => isTimingEvent (slice kx.2 0 16).toNat)

/-- The compressed blocks that a turn's reads took from HBM (event COMPBLK of spec/02_strand_registers.md R42, over the whole die): the L2 may
hold their lines, so their number is a free value where some block is stored compressed, and 0 otherwise (Assumption 6). -/
def noteBlocks (before s : State) : State :=
  if (before.compressed.isEmpty && s.compressed.isEmpty) || !someSelects s 0x0009 then s
  else (List.range 6).foldl (fun u die =>
    countDieEvent { u with fresh := u.fresh + 1 } die 0x0009 (Config.timingEvents u.fresh).toNat) s

/-- The end of a turn: partitions that have become eligible take up their shares, the homes of this package look at their wait entries,
timing-driven counters advance, and idleness is noted. -/
def closeTurn (before s0 : State) : State :=
  let s := noteBlocks before s0
  let one (u : State) (slot : Nat) : State := { u.updSlot slot (timeStrand s slot u.fresh) with fresh := u.fresh + 8 }
  let s1 := lookAtWaits (serveHomeWaits (noteEligible s))
  noteIdle ((((s1.strands.filter (fun kt => selectsTiming kt.2)).map (fun kt => kt.1))).foldl one s1)

/-! ### Turns -/

/-- Is it a step without an encoding? Its word is 0, which stands for no instruction. -/
def isEvent (i : Instr) : Bool := encode i == 0#32

/-- May the step happen: while the package is off, only power-good does, and what the management link carries, which is served in every power
state (spec/20_host_links_and_bringup.md R376; Assumption 53)? -/
def eventAllowed (s : State) (i : Instr) : Bool :=
  isEvent i && (s.power != .p3 || i == .powerGood || i == .powerCapSet || i == .packageReset || i == .securityAlarm)

/-- The outcome with its next state changed. -/
def mapNext (f : State → State) (o : Out) : Out :=
  match o with
  | .next s => .next (f s)
  | .fault r => .fault r
  | .refused r => .refused r

/-- The strand in a slot issues, when it is its turn. A fault takes the core's issue of the tick too. -/
def issueTurn (slot : Nat) (s0 : State) : Out :=
  let s := { s0 with cur := slot, held := false }
  if !slotTurn s slot then .next s
  else match fetchIssue s with
    | .hold => .next s
    | .trap s1 => unlessHeld s (.next (noteIssue s s1 slot))
    | .stop f => .fault f
    | .run i s1 => unlessHeld s (mapNext (afterIssue i slot s1) (exec i s1))

/-- What a turn does once its ticks have passed. -/
def act (a : Act) (s : State) : Out :=
  match a with
  | .event e x =>
    let s1 := { s with arg := x, held := false }
    if eventAllowed s e then unlessHeld s1 (exec e s1) else .next s
  | .issue slot => issueTurn slot s
  | .dropTlb i => .next { s with tlb := dropNth s.tlb i }
  | .idle => .next s

/-- A slot that has to issue before the tick ends: of each core that has not issued in it, the first ready one in its round. -/
def nextIssue (s : State) : Option Nat :=
  let slots := (s.strands.filter (fun kt => kt.2.phase == .running && !s.issued.contains (coreOf kt.1))).map (fun kt => kt.1)
  slots.find? (fun k => readySlot s k && slotTurn s k)

/-- One turn. Before each tick that it lets pass, every core that has a ready slot issues, one to a step, and the turn goes back on the
agenda; where no strand runs its ticks pass at once (spec/01_execution_model.md R7, R24). -/
def runTurn (t : Turn) (s : State) : Out :=
  match t.ticks with
  | 0 => mapNext (closeTurn s) (act t.act s)
  | n + 1 =>
    match nextIssue s with
    | some slot => mapNext (closeTurn s) (issueTurn slot { s with agenda := t :: s.agenda })
    | none =>
      if s.strands.any (fun kt => kt.2.phase == .running) then
        let s1 := advance 1 (tallyTick s)
        if n = 0 then mapNext (closeTurn s) (act t.act s1) else .next (closeTurn s { s1 with agenda := ⟨n, t.act⟩ :: s1.agenda })
      else mapNext (closeTurn s) (act t.act (advance (n + 1) s))

/-! ### The turn that comes when the agenda is empty (Assumption 1) -/

/-- A step and what it is given. -/
abbrev Pick := Instr × Args

/-- The first handle number of a die that no send holds. -/
def freeSendSlot (s : State) (slot : Nat) : Nat :=
  (firstBelow (fun n => s.sends.all (fun x => x.hnd.toNat != 1024 * dieOf (coreOf slot) + n)) 1024).getD 0

/-- Steps that a bound strand's engines may have to make. What waits for the answer of another package can only time out: the answer comes
from outside. -/
def strandMoves (s : State) (kt : Nat × Strand) : List Pick :=
  let k := kt.1
  let t := kt.2
  let a : Args := { Args.none with slot := k }
  let when_ (b : Bool) (l : List Pick) : List Pick := if b then l else []
  let pol (r : FaultRecord) : Nat := policyOf (s.part t.part) r.cls
  let own (r : FaultRecord) : Bool := recheckDue s t r || (r.cls == .trap && decide (r.index.toNat ≤ 0xFF))
  let settle : List Pick := match t.fault with
    | none => []
    | some r =>
      if !t.reported then [(.faultRecordAppend, a)]
      else if r.hyp then []
      else if own r || pol r == 2 then [(.yalushResume, a)]
      else when_ (pol r == 0) [(.launchEnd, { a with p := t.part, a0 := zext64 (recLid t.rcd) })]
  let access (x : Access × Nat) : List Pick :=
    let b : Args := { a with idx := x.2 }
    if x.1.sent && !isLocal s x.1.place then [(.remoteTimeout, { b with timeout := .access k x.2 })]
    else [(.accessPerformed, b), (.stnFlagIncrement, b), (.vectorLoadLateError, b)]
  let command (c : MCommand) : Pick :=
    if c.tag.isSome then (.remoteTimeout, { a with timeout := .tile k c.id }) else (.mCommandRetire, { a with num := c.id })
  let send (c : SendCommand) : List Pick :=
    let b : Args := { a with num := freeSendSlot s k }
    [if c.asked.isSome then (.remoteTimeout, { b with timeout := .sendSource k }) else (.sendStart, b),
      (.guardedCommandDiscard, { a with engine := .send })]
  settle ++ when_ (watchdogDue t) [(.watchdog, a)] ++ t.out.zipIdx.flatMap access ++
    when_ (!t.acks.isEmpty) [(.scatterAck, a)] ++
    when_ (t.sbPend != 0#8) ((List.range 8).map (fun j => (.scoreboardSlotComplete, { a with num := j }))) ++
    when_ (t.wait != .none) [(.msmcfgWrite, a), (.bwaitWake, a), (.wfeTimeout, a)] ++
    when_ (!t.mseed.isEmpty) [(.srseedWrite, a)] ++ t.mq.map command ++
    (List.range t.fillq.length).map (fun i => (.fillComplete, { a with idx := i })) ++
    (List.range t.spillq.length).map (fun i => (.spillComplete, { a with idx := i })) ++
    when_ (!t.cq.isEmpty) [(.copyStart, { a with copySrc := .slot k }), (.guardedCommandDiscard, { a with engine := .copy })] ++
    t.sendq.head?.toList.flatMap send ++ when_ t.sweep.isSome [(.groupOpen, a), (.sweepEngineFault, a)]

/-- Steps of a claim of a mailbox. Its pulls on this package are made of up to 4,096 bytes each, from the first byte on. -/
def claimMoves (s : State) (mb : Nat) (ci : Claim × Nat) : List Pick :=
  let c := ci.1
  let b : Args := { Args.none with mb := mb, idx := ci.2 }
  let own := c.msg.peer == s.self
  match c.st with
  | .pulling =>
    let done := (pulledBytes s.pulled (hdHnd c.msg.hdr) 0 (pullLen c + 1)).length
    let failed := s.pulled.any (fun x => x.1 == hdHnd c.msg.hdr && !x.2.2.2)
    (if own && decide (done < pullLen c) && !failed then
      [(.pullRequest, { b with num := (hdHnd c.msg.hdr).toNat, idx := done, area := min 4096 (pullLen c - done) })] else []) ++
      (if own || !c.asked then [(.pullComplete, b)] else []) ++ (if own || overdue s c.since then [(.pullFail, b)] else [])
  | .landing => [(.landing, { b with flag := c.asked })]
  | .destFault => []

/-- Steps of the other engines and of Yalush. -/
def packageMoves (s : State) : List Pick :=
  let a := Args.none
  let at_ (i : Instr) (n : Nat) : List Pick := (List.range n).map (fun k => (i, { a with idx := k, num := k }))
  let arrivals (x : Shootdown × Nat) : List Pick := x.1.dies.map (fun d => (.shootdownArrival, { a with idx := x.2, num := d }))
  let copy (x : Copy × Nat) : Pick :=
    if x.1.tag.isSome then (.remoteTimeout, { a with timeout := .copy x.2 }) else (.copyRetire, { a with idx := x.2 })
  let join (x : JoinOp × Nat) : Pick :=
    if x.1.tag.isSome then (.remoteTimeout, { a with timeout := .join x.2 }) else (.accessPerformed, { a with slot := 1152, idx := x.2 })
  let level (x : JoinOp × Nat) : Pick :=
    if x.1.tag.isSome then (.remoteTimeout, { a with timeout := .joinRead x.2 })
    else (.priorityInheritanceMove, { a with p := x.1.part, area := x.1.va, flag := true })
  let ending (x : Ending × Nat) : Pick :=
    if x.1.asked then (.remoteTimeout, { a with timeout := .ending x.2 }) else (.accessPerformed, { a with slot := 1153, idx := x.2 })
  let parts := s.parts.map (fun q => (BitVec.ofNat 6 q.1, q.2))
  s.joins.map (fun j => (.priorityInheritanceMove, { a with p := j.1, area := j.2.1 })) ++
    s.gangs.flatMap (fun g => [(.preemptionHalt, { a with p := g.part, area := g.area }), (.saveComplete, { a with p := g.part, area := g.area })]) ++
    (List.range s.lateFaults.length).map (fun i => (.faultRecordAppend, { a with slot := 1152, idx := i })) ++
    parts.flatMap (fun q => (List.range q.2.faults.length).map (fun i => (.yalushResume, { a with slot := 1152, p := q.1, idx := i }))) ++
    s.copies.zipIdx.map copy ++ s.joinOps.zipIdx.map join ++ s.joinReads.zipIdx.map level ++ s.ends.zipIdx.map ending ++
    (List.range s.retiredCq.length).map (fun i => (.copyStart, { a with copySrc := .retired i })) ++
    (List.range s.wire.length).flatMap (fun i =>
      [(.headerArrival, { a with arrival := .own i }), (.sendComplete, { a with sendEnd := .own i })]) ++
    s.mailboxes.flatMap (fun kb =>
      (List.range kb.2.pairs.length).map (fun i => (.sequenceGapClose, { a with mb := kb.1, idx := i })) ++
        kb.2.claims.zipIdx.flatMap (claimMoves s kb.1)) ++
    s.sends.flatMap (fun x => (.sendComplete, { a with num := x.hnd.toNat, sendEnd := .giveUp }) ::
      (if x.asked.isSome then [(.pullRequest, { a with num := x.hnd.toNat, flag := true })] else [])) ++
    at_ .wakeApply s.wakes.length ++ at_ .swakeePass s.passes.length ++ at_ .scanComplete s.scans.length ++
    s.shootdowns.zipIdx.flatMap arrivals ++ at_ .heldContinuationEnqueue s.heldRecs.length ++
    (s.tags.filter (fun q => q.2.busy)).map (fun q => (.tagQuarantineEnd, { a with num := q.1 })) ++
    (s.tests.zipIdx.filter (fun x => !testOn s x.1)).map (fun x => (.selfTestComplete, { a with idx := x.2 })) ++
    parts.flatMap (fun q =>
      (List.range q.2.launches.length).map (fun i => (.ylLaunch, { a with p := q.1, num := i, flag := true })) ++
        (List.range q.2.waits.length).map (fun i => (.ylWait, { a with p := q.1, num := i, flag := true }))) ++
    [(.idleExit, { a with idle := .enqueuedRecord })] ++ parts.map (fun q => (.schedulerServe, { a with p := q.1 }))

/-- Does the step change anything? -/
def progresses (s : State) (m : Pick) : Bool :=
  let s0 := { s with arg := m.2, held := false }
  match exec m.1 s0 with
  | .next s1 => !s1.held && decide (s1 ≠ s0)
  | _ => false

/-- The first step of an engine, of Yalush or of the scheduler that would change the state. -/
def pendingWork (s : State) : Option Pick :=
  ((s.strands.flatMap (strandMoves s)) ++ packageMoves s).find? (progresses s)

/-- The turn when the agenda is empty: pending work first, else a slot whose turn it is to issue, else idleness when it is due, else a tick
passes. -/
def defaultTurn (s : State) : Turn :=
  match pendingWork s with
  | some m => ⟨0, .event m.1 m.2⟩
  | none =>
    match nextIssue s with
    | some slot => ⟨0, .issue slot⟩
    | none => if progresses s (.idleEntry, Args.none) then ⟨0, .event .idleEntry Args.none⟩ else ⟨1, .idle⟩

end Sys2Proof.Machine
end

