-- ==== Sys2Proof/Machine/Step.lean ====
section
/-! DEFINITION. The step: the turn at the head of the agenda, or the default turn; and an instruction placed where the next step fetches it
(Assumptions 1 and 9). -/

namespace Sys2Proof.Machine

open Sys2Proof

/-- One step of the package: one turn. -/
def step (s : State) : Host.Outcome State Fault Refusal :=
  match s.agenda with
  | [] => runTurn (defaultTurn s) s
  | t :: rest => runTurn t { s with agenda := rest }

/-- An instruction word placed at physical address 0, which a running strand of partition 0 in slot 0 fetches at virtual address 0: its page
is in the TLB, readable and executable, and its frame has its scan bit; and the next turn is that strand's, in a tick in which its core has
not issued. What would hold the strand back is gone: waits, wakes, self-tests. What the strand, the partition and memory hold besides
stays. -/
def State.withFetchWord (s : State) (nbits w : Nat) : State :=
  let t := s.strand 0
  let own (o : Owner) : Bool := o.isOf { t with part := 0#6 }
  let p := s.part 0#6
  let e : TlbEntry := {
    unit := streamTlb 0
    part := 0#6
    root := p.guestRoot
    base := 0
    bits := 16
    pa := 0
    r := true
    w := false
    x := true
    dirty := false
    kind := 0#2
    peer := 0#10 }
  { s with
    agenda := [⟨0, .issue 0⟩]
    power := .p0
    issued := s.issued.filter (fun c => c != 0)
    lastSlot := tabPut 0 s.lastSlot 0 3
    passed := s.passed.filter (fun x => decide (4 ≤ x.1))
    wakes := s.wakes.filter (fun x => !x.stream.any own)
    passes := s.passes.filter (fun x => !own x.owner)
    ends := s.ends.filter (fun x => !own x.owner)
    tests := s.tests.filter (fun x => match x.1 with
      | .vector k _ | .scalar k _ | .mask k _ | .csr k _ => k != 0
      | .l2 a => a / 128 != 0
      | _ => true)
    strands := tabSet s.strands 0 { t with
      phase := .running
      part := 0#6
      pc := 0#64
      wait := .none
      out := []
      deferNow := false
      yielded := 0
      wdlim := 0#64
      handing := []
      wakesFar := []
      badS := []
      badC := [] }
    gangs := s.gangs.filter (fun g => !g.isAt 0#6 t.gang)
    parts := tabSet s.parts 0 { p with scan := insNat 0 p.scan, gaCnt := 0, launchTab := 0 }
    hbmth := 0#24
    badSectors := s.badSectors.filter (fun x => x != 0)
    deadGroups := s.deadGroups.filter (fun x => x != 0)
    tlb := e :: s.tlb
    mem := memPut s.mem 0 (natBytes 4 (w % 2 ^ nbits)) }

end Sys2Proof.Machine
end

