-- ==== Sys2Proof/Safety.lean ====
section
/-! DEFINITION. What a statement about a step says, in terms of the state before it and after it: frames, what a strand that goes on
keeps, and what a strand that takes a fault is left with. -/

namespace Sys2Proof.Machine

open Sys2Proof

/-- Nothing of the package outside the strands differs: memory, devices, queues, mailboxes, partitions, frames and every other
field. -/
def PackageKept (s t : State) : Prop := { t with strands := s.strands } = s

/-- Nothing differs but the strand in the current slot (spec/01_execution_model.md R9, R10). -/
def OnlyMe (s t : State) : Prop := PackageKept s t ∧ ∀ k, k ≠ s.cur → t.strand k = s.strand k

/-- Every byte of HBM outside a set of addresses reads as before. -/
def MemoryKept (s t : State) (but : Nat → Prop) : Prop := ∀ pa, ¬ but pa → memByte t.mem pa = memByte s.mem pa

/-- The bytes [pa, pa + n). -/
def within (pa n : Nat) (a : Nat) : Prop := pa ≤ a ∧ a < pa + n

/-- The strand has gone on to `pc`, and besides the pc and what it keeps of an instruction under way nothing of it differs: no register, no
flag, no accumulator, no queue. -/
def WentOn (u v : Strand) (pc : Word) : Prop :=
  v.pc = pc ∧ v.restart = 0 ∧ v.append = none ∧ v.handing = [] ∧ v.claim = none ∧ v.recBuf = none ∧ v.wait = .none ∧ v.tokDone = false ∧
    ({ v with
      pc := u.pc
      restart := u.restart
      append := u.append
      handing := u.handing
      claim := u.claim
      recBuf := u.recBuf
      wait := u.wait
      tokDone := u.tokDone } : Strand) = u

/-- The strand has gone on to `pc` with `s[d] = x`; s0 stays zero, every other scalar register is as before, the poison of s[d] has ended,
and nothing else of the strand differs (spec/02_strand_registers.md R25, spec/14_scalar_instructions.md R235). -/
def WroteS (u v : Strand) (d : BitVec 5) (x : Word) (pc : Word) : Prop :=
  v.getS d = (if d = 0#5 then 0#64 else x) ∧ (∀ r, r ≠ d → v.getS r = u.getS r) ∧
    v.badS = (if d = 0#5 then u.badS else u.badS.filter (fun n => n != d.toNat)) ∧
    WentOn u { v with s := u.s, badS := u.badS } pc

/-- The instruction ends in a next state in which the strand has `s[d] = x` and has gone on to `pc`, and nothing else differs. -/
def YieldsS (i : Instr) (s : State) (d : BitVec 5) (x : Word) (pc : Word) : Prop :=
  ∃ t, exec i s = .next t ∧ OnlyMe s t ∧ WroteS s.me t.me d x pc

/-- The instruction ends in a next state in which the strand has gone on to `pc` and nothing else differs. -/
def YieldsPc (i : Instr) (s : State) (pc : Word) : Prop :=
  ∃ t, exec i s = .next t ∧ OnlyMe s t ∧ WentOn s.me t.me pc

/-- The strand has taken a fault (spec/09_translation_and_faults.md R160, R161): it is PARKED with the record, and every register, the pc
included, is as before. -/
def Parked (u v : Strand) (r : FaultRecord) : Prop :=
  v.phase = .parked ∧ v.fault = some r ∧ v.reported = false ∧ v.pc = u.pc ∧
    ({ v with
      phase := u.phase
      fault := u.fault
      reported := u.reported
      wait := u.wait
      recBuf := u.recBuf } : Strand) = u

/-- The record of a fault that the strand in the current slot takes at its instruction (spec/09_translation_and_faults.md R161). -/
def ownRecord (s : State) (cls : FaultClass) (k : AccessKind) (va : Word) (index : BitVec 32) (hyp : Bool) : FaultRecord where
  sid := sidOf s.cur
  save := s.me.saveArea
  pc := s.me.pc
  va := va
  cls := cls
  akind := k
  hyp := hyp
  eng := false
  saved := false
  index := index

/-- The instruction ends in a next state in which the strand has taken that fault, and nothing else differs. -/
def Traps (i : Instr) (s : State) (r : FaultRecord) : Prop :=
  ∃ t, exec i s = .next t ∧ OnlyMe s t ∧ Parked s.me t.me r

/-! ### Scalar accesses -/

/-- Two strands that differ in nothing but performance counters (spec/02_strand_registers.md R42). -/
def SameButCounts (u v : Strand) : Prop := { v with perfCnt := u.perfCnt } = u

/-- An access of `n` bytes at `va` has passed its checks (spec/09_translation_and_faults.md R164): it goes to `pl`, and `s1` is the state after
its translation, in which only TLBs, the A and D bits of page tables and links on the lines of page tables may differ. -/
def Reaches (s : State) (va : Word) (n : Nat) (need : Need) (acc : Accepts) (pl : Place) (s1 : State) : Prop :=
  locate s (streamCtx s s.cur) va n n need acc = .ok (pl, s1)

/-- An access that later instructions wait for can be performed at once: no such access is outstanding, neither an access of the strand to
these bytes nor a self-test of their row holds it back, the home reports no fault, and the strand is not inside a vector instruction
(spec/05_memories.md R101, spec/06_memory_ordering.md R107, R108). -/
def MayPerform (s : State) (pl : Place) (n : Nat) (reads : Bool) : Prop :=
  s.me.restart = 0 ∧ (∀ b ∈ s.me.out, b.blocks = false) ∧ accessHeld s s.cur pl n = false ∧ accessFault s s.cur pl n reads = none

/-- Nothing of the package outside the strands differs but the model's own counters: the number of the latest instruction, and that of free
values drawn (a read of a compressed block draws one, Assumption 6). -/
def PackageCounted (s t : State) : Prop := { t with strands := s.strands, seq := s.seq, fresh := s.fresh } = s

/-- Nothing of the package outside the strands differs but the model's own counters, and memory with what its homes keep about it: poison,
dead row groups and the form of blocks (spec/05_memories.md R91, R92, R103). -/
def PackageStored (s t : State) : Prop :=
  { t with
    strands := s.strands
    seq := s.seq
    fresh := s.fresh
    mem := s.mem
    badSectors := s.badSectors
    deadGroups := s.deadGroups
    compressed := s.compressed } = s

/-- Every strand but one differs in nothing but performance counters and links that were broken (spec/12_barriers_and_counters.md R213). -/
def OthersKept (s t : State) (slot : Nat) : Prop :=
  ∀ k, k ≠ slot → SameButCounts (s.strand k) { t.strand k with links := (s.strand k).links } ∧
    ∀ l ∈ (t.strand k).links, l ∈ (s.strand k).links

/-- The `n` bytes at `pa` hold the number `x`, least significant byte first (spec/00_scope.md R3). -/
def Holds (s : State) (pa n x : Nat) : Prop := ∀ j, j < n → memByte s.mem (pa + j) = BitVec.ofNat 8 (x / 256 ^ j)

/-- The instruction has joined the strand's outstanding accesses with `a`, and the strand has gone on; no byte of memory differs. -/
def Posts (i : Instr) (s s1 : State) (a : Access) : Prop :=
  ∃ t, exec i s = .next t ∧ PackageCounted s1 t ∧ OthersKept s1 t s.cur ∧ t.me.out = s1.me.out ++ [a] ∧
    WentOn s1.me { t.me with out := s1.me.out, perfCnt := s1.me.perfCnt } (s.me.pc + 4#64)

/-- The instruction has read the number `x`: s[d] holds `x`, the strand has gone on, and no byte of memory differs. A TOKP that had
waited may push its token (spec/17_engine_and_system_instructions.md R320). -/
def Loads (i : Instr) (s s1 : State) (d : BitVec 5) (x : Word) : Prop :=
  ∃ t, exec i s = .next t ∧ PackageCounted s1 t ∧ OthersKept s1 t s.cur ∧
    WroteS s1.me.flush { t.me with perfCnt := s1.me.perfCnt } d x (s.me.pc + 4#64)

/-- An atomic at HBM bytes of this package: the old number goes to s[d], the bytes hold `new old`, every other byte of memory reads as
before, and the strand has gone on. -/
def Atomically (i : Instr) (s s1 : State) (d : BitVec 5) (pa n : Nat) (new : Nat → Nat) : Prop :=
  ∃ t, exec i s = .next t ∧ PackageStored s1 t ∧ OthersKept s1 t s.cur ∧
    Holds t pa n (new (bytesNat (memBytes s1.mem pa n))) ∧ MemoryKept s1 t (within pa n) ∧
    WroteS s1.me.flush { t.me with perfCnt := s1.me.perfCnt } d (BitVec.ofNat 64 (bytesNat (memBytes s1.mem pa n))) (s.me.pc + 4#64)

/-! ### FP32 results -/

/-- The FP32 word `f x y z` of bits 31 to 0 of s[a], s[b] and s[d] ends in s[d], with bits 63 to 32 zero. -/
def GivesF32 (i : BitVec 5 → BitVec 5 → BitVec 5 → Instr) (f : BitVec 32 → BitVec 32 → BitVec 32 → BitVec 32) : Prop :=
  ∀ (s : State) (d a b : BitVec 5),
    YieldsS (i d a b) s d (BitVec.ofNat 64 (f ((s.me.getS a).setWidth 32) ((s.me.getS b).setWidth 32) ((s.me.getS d).setWidth 32)).toNat)
      (s.me.pc + 4#64)

/-- The address of a scaled-offset form: s[a] plus the signed offset times the size, modulo 2^64 (spec/14_scalar_instructions.md R242). -/
def offsetAddress (s : State) (a : BitVec 5) (o : BitVec 14) (n : Nat) : Word :=
  BitVec.ofInt 64 ((s.me.getS a).toNat + o.toInt * n)

/-- The number that `n` bytes hold at a place of HBM or of the near window. -/
def placeNumber (s : State) (pl : Place) (n : Nat) : Nat :=
  match pl with
  | .near off => bytesNat (memBytes s.me.scratch off n)
  | .mem pa _ => bytesNat (memBytes s.mem pa n)
  | _ => 0

/-! ### Vector forms -/

/-- Is element j active under mask register k: below VL, and its bit set (spec/15_vector_instructions.md R258)? -/
def isActive (u : Strand) (k : BitVec 3) (j : Nat) : Bool := decide (j < u.vl.toNat) && (u.getK k.toNat).getLsbD j

/-- The elements of an operand after a write: `f j` is the new value of element j, none where it keeps its own. Registers without a written
element are as before, and exactly the marks on written elements are gone (spec/02_strand_registers.md R30,
spec/15_vector_instructions.md R280). -/
def LaneWrite (u v : Strand) (o : VOp) (f : Nat → Option Nat) : Prop :=
  (∀ j, v.elem o j = (f j).getD (u.elem o j)) ∧
  (∀ n, (∀ j, (f j).isSome → n ≠ o.reg + j * o.w / 16384) → v.getV n = u.getV n) ∧
  (∀ m, m ∈ v.marks ↔ m ∈ u.marks ∧
    ∀ j, (f j).isSome → markHits (o.reg + j * o.w / 16384) (j * o.w % 16384) o.w m = false)

/-- The vector form ends in a next state in which exactly the elements that `f` gives are written and the strand has gone on; nothing else
differs: no other register, no flag, no byte of memory. -/
def WritesLanes (i : Instr) (s : State) (o : VOp) (f : Nat → Option Nat) : Prop :=
  ∃ t, exec i s = .next t ∧ OnlyMe s t ∧ LaneWrite s.me t.me o f ∧
    WentOn s.me { t.me with v := s.me.v, marks := s.me.marks } (s.me.pc + 4#64)

/-- The draw of a lane under stochastic rounding, 0 under the other modes (spec/04_number_formats.md R67, R68). -/
def laneDraw (u : Strand) (r : Round) (j : Nat) : Nat := if r.rm = 5#3 then (drawLane u.vbank 1 j).1 else 0

/-- A floating form: active element j gets the encoding that `f` makes under its draw, the flags of all active elements join VSTAT, under
stochastic rounding exactly the active lanes of the vector bank have drawn once, and nothing else differs. -/
def WritesFloats (i : Instr) (s : State) (o : VOp) (k : BitVec 3) (r : Round) (f : Nat → Nat → Nat × Flags) : Prop :=
  ∃ t, exec i s = .next t ∧ OnlyMe s t ∧
    LaneWrite s.me t.me o (fun j => if isActive s.me k j then some ((f j (laneDraw s.me r j)).1 % 2 ^ o.w) else none) ∧
    t.me.vstat = s.me.vstat ||| flagsOr ((s.me.lanes k).map (fun j => (f j (laneDraw s.me r j)).2)) ∧
    t.me.vbank.seed = s.me.vbank.seed ∧
    (∀ j, tabGet 0#64 t.me.vbank.lanes j =
      if r.rm = 5#3 ∧ isActive s.me k j = true then tabGet 0#64 (drawLane s.me.vbank 1 j).2.lanes j
      else tabGet 0#64 s.me.vbank.lanes j) ∧
    WentOn s.me { t.me with v := s.me.v, marks := s.me.marks, vstat := s.me.vstat, vbank := s.me.vbank } (s.me.pc + 4#64)

/-- A form that writes bits of mask register d: `f j` is the new bit j, none where it keeps its own; k0 discards the write; nothing else
differs but flags that `fl` adds (spec/02_strand_registers.md R32). -/
def WritesMask (i : Instr) (s : State) (d : BitVec 3) (f : Nat → Option Bool) (fl : Flags) : Prop :=
  ∃ t, exec i s = .next t ∧ OnlyMe s t ∧
    (d ≠ 0#3 → ∀ j, j < 2048 → (t.me.getK d.toNat).getLsbD j = (f j).getD ((s.me.getK d.toNat).getLsbD j)) ∧
    (∀ n, n ≠ d.toNat ∨ d = 0#3 → t.me.getK n = s.me.getK n) ∧ t.me.vstat = s.me.vstat ||| fl ∧
    WentOn s.me { t.me with k := s.me.k, badK := s.me.badK, vstat := s.me.vstat } (s.me.pc + 4#64)

/-- The instruction writes the whole vector register n and nothing else. -/
def WritesReg (i : Instr) (s : State) (n : Nat) (x : VReg) : Prop :=
  ∃ t, exec i s = .next t ∧ OnlyMe s t ∧ t.me.getV n = x ∧ (∀ m, m ≠ n → t.me.getV m = s.me.getV m) ∧
    t.me.marks = s.me.marks.filter (fun m => m.reg != n) ∧
    WentOn s.me { t.me with v := s.me.v, marks := s.me.marks } (s.me.pc + 4#64)

/-- A reduction: element 0 of D's group gets `x`, every other element of the group is zero, the registers outside the group are as before,
and nothing else differs but flags that `fl` adds (spec/15_vector_instructions.md R270). -/
def Reduces (i : Instr) (s : State) (o : VOp) (x : Nat) (fl : Flags) : Prop :=
  ∃ t, exec i s = .next t ∧ OnlyMe s t ∧ t.me.elem o 0 = x % 2 ^ o.w ∧
    (∀ j, 0 < j → j * o.w < 16384 * s.me.groupSize o.w → t.me.elem o j = 0) ∧
    (∀ n, n < o.reg ∨ o.reg + s.me.groupSize o.w ≤ n → t.me.getV n = s.me.getV n) ∧ t.me.vstat = s.me.vstat ||| fl ∧
    WentOn s.me { t.me with v := s.me.v, marks := s.me.marks, vstat := s.me.vstat } (s.me.pc + 4#64)

/-- Node k of a level of the tree that combines elements pairwise (spec/04_number_formats.md R78): its value, none where it is absent, and the
flags of the nodes rounded below it and at it. -/
def treeNode (node : FVal → FVal → FVal × Flags) (leaf : Nat → Option FVal) : Nat → Nat → Option FVal × Flags
  | 0, k => (leaf k, 0#5)
  | n + 1, k =>
    let l := treeNode node leaf n (2 * k)
    let r := treeNode node leaf n (2 * k + 1)
    match l.1, r.1 with
    | none, y => (y, l.2 ||| r.2)
    | x, none => (x, l.2 ||| r.2)
    | some x, some y => (some (node x y).1, l.2 ||| r.2 ||| (node x y).2)

/-- The operands of a form of two SEW-wide sources and one SEW-wide destination. -/
def sewForm (u : Strand) (srcs : List (BitVec 5)) (d : BitVec 5) (k : BitVec 3) : VForm :=
  ⟨srcs.map u.sewOp, [u.sewOp d], [], [], [k.toNat], []⟩

/-- A floating form may run: RM and the reserved bits of its format word are valid, the form accepts every operand's code, and the gate that
every vector form passes is open (spec/02_strand_registers.md R33, spec/15_vector_instructions.md R260, R261). -/
def FloatReady (u : Strand) (word : Word) (ops : List FOp) (more : VForm) : Prop :=
  fwOk word = true ∧ (∀ o ∈ ops, o.ok = true) ∧ (more.srcs ++ more.dsts).all u.grouped = true ∧
    (∀ o ∈ ops, (codeWidth o.code).isSome → u.grouped (o.op u) = true) ∧
    vGate u { more with
      srcs := (ops.filter FOp.read).map (fun o => o.op u) ++ more.srcs
      dsts := (ops.filter FOp.write).map (fun o => o.op u) ++ more.dsts } = .go

/-! ### Vector memory -/

/-- The access of one element. -/
def elemAccess (s1 : State) (e : Elem) (n : Nat) (op : AccessOp) (k : AccessKind) (ss : BitVec 3) : Access :=
  { Access.plain (s1.seq + 1) op e.va.toNat e.place n s1.cycle k with
    elem := e.lane
    sb := ss }

/-- A vector memory form may go on: its scoreboard slots are ready, its operands' gate is open, and each of its elements, in ascending order, has
passed its checks and is not on a remote page (spec/15_vector_instructions.md R279, R280). -/
def ElementsPass (s : State) (sw ss : BitVec 3) (f : VForm) (n : Nat) (need : Need) (acc : Accepts) (l : List (Nat × Word)) (els : List Elem)
    (s1 : State) : Prop :=
  slotGate s.me sw ss = .ready ∧ vGate s.me f = .go ∧ checkElems s.cur n need acc s l = (els, none, s1) ∧
    ∀ e ∈ els, isRemote e.place = false

/-- The form has issued whole: these accesses have joined the outstanding ones, slot ss is pending when it is named, the counts of
unacknowledged element writes of the lanes in `lanes` have risen by one, and the strand has gone on; no byte of memory and no register
differs. -/
def IssuesElements (i : Instr) (s s1 : State) (ss : BitVec 3) (as : List Access) (lanes : List Nat) : Prop :=
  ∃ t, exec i s = .next t ∧ PackageCounted s1 t ∧ OthersKept s1 t s.cur ∧ t.me.out = s1.me.out ++ as ∧
    (∀ j, j < 8 → t.me.sbPend.getLsbD j = (s1.me.sbPend.getLsbD j || (decide (ss ≠ 0#3) && j == ss.toNat))) ∧
    (∀ j, tabGet 0 t.me.unacked j = tabGet 0 s1.me.unacked j + lanes.count j) ∧
    WentOn s1.me { t.me with
      out := s1.me.out
      perfCnt := s1.me.perfCnt
      sbPend := s1.me.sbPend
      sbOwner := s1.me.sbOwner
      unacked := s1.me.unacked } (s.me.pc + 4#64)

/-! ### The matrix queue -/

/-- The M instruction has joined the M queue as one command with these operands, bound as program order gives them; the registers it names
may take its sequence number, and no other register, no flag and no byte of memory differs; the strand has gone on
(spec/16_matrix_instructions.md R289, spec/03_matrix_registers.md R50, R52). The plane designations are said apart. -/
def EnqueuesM (i : Instr) (s : State) (dst : Option Nat) (srcs : List (Nat × Source)) (release : List Nat) (fmt base stride : Word)
    (vsrc vdst : List Nat) (p w : BitVec 2) (active shadow : Option (Nat × Bool)) : Prop :=
  ∃ t, exec i s = .next t ∧ PackageCounted s t ∧ (∀ k, k ≠ s.cur → t.strand k = s.strand k) ∧
    t.me.mq = s.me.mq ++ [{
      id := s.seq + 1
      ins := i
      pc := s.me.pc
      dst := dst
      srcs := srcs
      release := release
      grant := s.me.tsh
      fmt := fmt
      base := base
      stride := stride
      vals := vsrc.map s.me.getV
      vsrc := vsrc
      vdst := vdst
      pop := w
      push := p
      started := false
      since := 0
      frame := none
      faulted := false
      tag := none
      out := false
      vold := []
      vover := [] }] ∧
    t.me.mseq = s.me.mseq + 1#16 ∧ t.me.active = active ∧ t.me.shadow = shadow ∧
    (∀ r, (t.me.entry r).state = (s.me.entry r).state ∧ (t.me.entry r).frame = (s.me.entry r).frame) ∧
    WentOn s.me { t.me with
      mq := s.me.mq
      mseq := s.me.mseq
      active := s.me.active
      shadow := s.me.shadow
      map := s.me.map
      bound := s.me.bound } (s.me.pc + 4#64)

/-- The M queue takes a command that reads the vector registers in `vin` and writes those in `vout`: it holds fewer than 32 unstarted commands, they
are not still to be
written as far as they are read, no load is still to write those that it writes, and those read hold no mark
(spec/16_matrix_instructions.md R289, spec/15_vector_instructions.md R280). -/
def QueueTakes (u : Strand) (vin vout : List Nat) : Prop :=
  (u.mq.filter (fun c => !c.started)).length < 32 ∧ (∀ n ∈ vin, u.vBusy n = false) ∧ (∀ n ∈ vout, u.vLoading n = false) ∧
    (∀ m ∈ u.marks, m.reg ∉ vin)

/-! ### Barrier objects -/

/-- A barrier form on the object at s[a] may act: its tokens are there, the object is in HBM of this package and readable, no access of the
strand holds it back, and every earlier access and scattered element has been performed (spec/17_engine_and_system_instructions.md R317,
R319). `s1` is the state after the translation. -/
def BarrierReady (s : State) (a : BitVec 5) (p w : BitVec 2) (pa : Nat) (comp : Bool) (s1 : State) : Prop :=
  (sTokens s.me p w).isSome = true ∧ inNear (s.me.getS a).toNat = false ∧
    locate s (streamCtx s s.cur) (s.me.getS a) 16 16 .readWrite acceptsFar = .ok (.mem pa comp, s1) ∧
    accessHeld s1 s.cur (.mem pa comp) 16 = false ∧ s.me.drained s.cur .fabric = true ∧ s.me.unacked = [] ∧
    accessFault s1 s1.cur (.mem pa comp) 16 true = none

/-- The object at `pa` has phase P, expected arrivals Q, arrivals C, sectors S and a good tag (spec/12_barriers_and_counters.md R205). -/
def ObjectIs (t : State) (pa : Nat) (P : BitVec 4) (Q : BitVec 24) (C : BitVec 32) (S : Int) : Prop :=
  barTag (barRead t pa).2 = 0xB7#8 ∧ barP (barRead t pa).1 = P ∧ barQ (barRead t pa).1 = Q ∧ barC (barRead t pa).1 = C ∧
    barS (barRead t pa).2 = S

/-- The barrier form has acted: the object is as `obj` says, no other byte of memory differs, the register `d`, when one is named, has the phase
before the update and every other scalar register its value, and the strand has gone on. -/
def BarrierDone (i : Instr) (s s1 : State) (pa : Nat) (d : Option (BitVec 5)) (P : BitVec 4) (obj : State → Prop) : Prop :=
  ∃ t, exec i s = .next t ∧ obj t ∧ MemoryKept s1 t (within pa 16) ∧ t.me.pc = s.me.pc + 4#64 ∧ t.me.tokDone = false ∧
    (∀ r, t.me.getS r = if d = some r ∧ r ≠ 0#5 then BitVec.ofNat 64 P.toNat else s.me.getS r)

/-! ### Records, engines and Yalush -/

/-- The 64-byte record at `va` can be read at once, and is `r` (spec/17_engine_and_system_instructions.md R322): it is on a page of this package
that the form accepts, no access of the strand holds it back, and its home reports no fault. `s1` is the state after the translation. -/
def RecordAt (s : State) (va : Word) (acc : Accepts) (r : Rec64) (s1 : State) : Prop :=
  ∃ pa comp, locate s (streamCtx s s.cur) va 64 64 .read acc = .ok (.mem pa comp, s1) ∧ s.me.recBuf = none ∧
    accessHeld s1 s.cur (.mem pa comp) 64 = false ∧ accessFault s1 s.cur (.mem pa comp) 64 true = none ∧ r = bytesBv 512 (memBytes s1.mem pa 64)

/-- A form whose tokens are there, with a descriptor at `va` outside the near window, aligned to its size. -/
def DescriptorForm (u : Strand) (va : Word) (p w : BitVec 2) : Prop :=
  (sTokens u p w).isSome = true ∧ va.toNat % 64 = 0 ∧ inNear va.toNat = false

/-- What an issued command captures of a guard (spec/07_queues_and_scheduling.md R121): nothing for slot 0, else the current epoch. -/
def captured (u : Strand) (g : BitVec 4) : Option Epoch :=
  if g = 0#4 then none else some ⟨g, (u.guard g).cId, (u.guard g).cVal⟩

/-- Nothing differs but the strand of one slot. -/
def OnlySlot (s t : State) (k : Nat) : Prop := PackageKept s t ∧ ∀ j, j ≠ k → t.strand j = s.strand j

/-- Nothing differs but one mailbox. -/
def OnlyMailbox (s t : State) (m : Nat) : Prop :=
  { t with mailboxes := s.mailboxes } = s ∧ ∀ j, j ≠ m → t.mbox j = s.mbox j

/-- Nothing differs but what Yalush keeps for one partition. -/
def OnlyPartition (s t : State) (p : BitVec 6) : Prop :=
  { t with parts := s.parts } = s ∧ ∀ q, q ≠ p → t.part q = s.part q

/-- The call returns `x` in a0, and has done nothing else (spec/19_binary_interface.md R362). -/
def Returns (i : Instr) (s : State) (x : Word) : Prop :=
  ∃ t, exec i s = .next t ∧ OnlyPartition s t s.arg.p ∧ t.part s.arg.p = { s.part s.arg.p with a0 := x }

/-- The strand in a slot has been PARKED by a fault of a class, with its pc and every scalar register as before
(spec/09_translation_and_faults.md R160). -/
def SlotParked (s t : State) (k : Nat) (cls : FaultClass) : Prop :=
  (t.strand k).phase = .parked ∧ (t.strand k).pc = (s.strand k).pc ∧ (∀ r, (t.strand k).getS r = (s.strand k).getS r) ∧
    ∃ r, (t.strand k).fault = some r ∧ r.cls = cls ∧ r.pc = (s.strand k).pc ∧ r.sid = sidOf k

end Sys2Proof.Machine
end

