-- ==== Sys2Proof/Certificates/Slice0/Obligations.lean ====
section
/-! DEFINITION. What the machine is said to do: statements for the provers, from the numbered rules of spec/. Each says what an
instruction or an engine's step leaves, on hypotheses about the state before it alone. -/

open Sys2Proof Sys2Proof.Machine

/-- R236, the forms other than divisions and counts: with A = s[a] and B = s[b] the result is written to s[d], the pc advances by one word,
and nothing else differs. R236, the counts: CLZ gives the number of zero bits above the highest set bit, CTZ the number below the lowest,
each 64 for zero, and POPC the number of set bits. R237: DIV and REM round toward zero, DIVU and REMU are unsigned, A = quotient × B +
remainder, a signed remainder takes the sign of A, and a division by zero gives all ones and A. -/
def Obligations.ScalarRegisterForms : Prop :=
  (
    ∀ (s : State) (d a b : BitVec 5) (A B : Word), A = s.me.getS a → B = s.me.getS b →
      let pc := s.me.pc + 4#64
      let n := B.toNat % 64
      YieldsS (.add d a b) s d (BitVec.ofNat 64 ((A.toNat + B.toNat) % 2 ^ 64)) pc ∧
      YieldsS (.sub d a b) s d (BitVec.ofInt 64 ((A.toNat : Int) - B.toNat)) pc ∧
      YieldsS (.and d a b) s d (A &&& B) pc ∧
      YieldsS (.or d a b) s d (A ||| B) pc ∧
      YieldsS (.xor d a b) s d (A ^^^ B) pc ∧
      YieldsS (.andn d a b) s d (A &&& ~~~B) pc ∧
      YieldsS (.sll d a b) s d (BitVec.ofNat 64 (A.toNat * 2 ^ n)) pc ∧
      YieldsS (.srl d a b) s d (BitVec.ofNat 64 (A.toNat / 2 ^ n)) pc ∧
      YieldsS (.sra d a b) s d (BitVec.ofInt 64 (A.toInt / 2 ^ n)) pc ∧
      YieldsS (.slt d a b) s d (if A.toInt < B.toInt then 1#64 else 0#64) pc ∧
      YieldsS (.sltu d a b) s d (if A.toNat < B.toNat then 1#64 else 0#64) pc ∧
      YieldsS (.min d a b) s d (BitVec.ofInt 64 (min A.toInt B.toInt)) pc ∧
      YieldsS (.max d a b) s d (BitVec.ofInt 64 (max A.toInt B.toInt)) pc ∧
      YieldsS (.minu d a b) s d (BitVec.ofNat 64 (min A.toNat B.toNat)) pc ∧
      YieldsS (.maxu d a b) s d (BitVec.ofNat 64 (max A.toNat B.toNat)) pc ∧
      YieldsS (.mul d a b) s d (BitVec.ofNat 64 (A.toNat * B.toNat)) pc ∧
      YieldsS (.mulh d a b) s d ((A.signExtend 128 * B.signExtend 128).extractLsb' 64 64) pc ∧
      YieldsS (.mulhu d a b) s d ((A.setWidth 128 * B.setWidth 128).extractLsb' 64 64) pc ∧
      YieldsS (.csel d a b) s d (if A = 0#64 then s.me.getS d else B) pc ∧
      YieldsS (.addw d a b) s d (BitVec.signExtend 64 ((A + B).setWidth 32)) pc ∧
      YieldsS (.subw d a b) s d (BitVec.signExtend 64 ((A - B).setWidth 32)) pc ∧
      YieldsS (.mulw d a b) s d (BitVec.signExtend 64 ((A * B).setWidth 32)) pc) ∧
  (
    ∀ (s : State) (d a : BitVec 5) (A : Word), A = s.me.getS a →
      let pc := s.me.pc + 4#64
      encode (.clz d a) = 0x01#6 ++ d ++ a ++ 0#5 ++ 0x16#11 ∧ encode (.ctz d a) = 0x01#6 ++ d ++ a ++ 0#5 ++ 0x17#11 ∧
      encode (.popc d a) = 0x01#6 ++ d ++ a ++ 0#5 ++ 0x18#11 ∧
      (∃ n, n ≤ 64 ∧ (∀ j, 64 - n ≤ j → A.getLsbD j = false) ∧ (n < 64 → A.getLsbD (63 - n) = true) ∧
        YieldsS (.clz d a) s d (BitVec.ofNat 64 n) pc) ∧
      (∃ n, n ≤ 64 ∧ (∀ j, j < n → A.getLsbD j = false) ∧ (n < 64 → A.getLsbD n = true) ∧
        YieldsS (.ctz d a) s d (BitVec.ofNat 64 n) pc) ∧
      YieldsS (.popc d a) s d (BitVec.ofNat 64 ((List.range 64).countP (fun j => A.getLsbD j))) pc) ∧
  (
    ∀ (s : State) (d a b : BitVec 5) (A B : Word), A = s.me.getS a → B = s.me.getS b →
      let pc := s.me.pc + 4#64
      ∃ q r qu ru : Word,
        YieldsS (.div d a b) s d q pc ∧ YieldsS (.rem d a b) s d r pc ∧
        YieldsS (.divu d a b) s d qu pc ∧ YieldsS (.remu d a b) s d ru pc ∧
        A = q * B + r ∧ A = qu * B + ru ∧
        (B = 0#64 → q = BitVec.allOnes 64 ∧ r = A ∧ qu = BitVec.allOnes 64 ∧ ru = A) ∧
        (B ≠ 0#64 → q = BitVec.ofInt 64 (A.toInt.tdiv B.toInt) ∧ r.toInt = A.toInt.tmod B.toInt ∧
          (r ≠ 0#64 → (r.toInt < 0 ↔ A.toInt < 0)) ∧ r.toInt.natAbs < B.toInt.natAbs ∧
          qu.toNat = A.toNat / B.toNat ∧ ru.toNat = A.toNat % B.toNat))

/-- R238: the immediate is sign-extended for ADDI, ANDI, SLTI and SLTIU and zero-extended for ORI and XORI. R239 and R240: LIH replaces 16
bits of s[d] and keeps the others; SLLI, SRLI and SRAI shift by n. -/
def Obligations.ScalarImmediateForms : Prop :=
  (
    ∀ (s : State) (d a : BitVec 5) (i : BitVec 16) (A : Word), A = s.me.getS a →
      let pc := s.me.pc + 4#64
      let se : Word := BitVec.ofInt 64 i.toInt
      let ze : Word := BitVec.ofNat 64 i.toNat
      YieldsS (.addi d a i) s d (BitVec.ofInt 64 ((A.toNat : Int) + i.toInt)) pc ∧
      YieldsS (.andi d a i) s d (A &&& se) pc ∧
      YieldsS (.ori d a i) s d (A ||| ze) pc ∧
      YieldsS (.xori d a i) s d (A ^^^ ze) pc ∧
      YieldsS (.slti d a i) s d (if A.toInt < i.toInt then 1#64 else 0#64) pc ∧
      YieldsS (.sltiu d a i) s d (if A.toNat < se.toNat then 1#64 else 0#64) pc) ∧
  (
    ∀ (s : State) (d a : BitVec 5) (p : BitVec 2) (i : BitVec 16) (n : BitVec 6) (A : Word), A = s.me.getS a →
      let pc := s.me.pc + 4#64
      (∀ (m : Word) (v : IWord), v.toNat / 2 ^ 26 = 0x08 → v.toNat / 2 ^ 18 % 8 ≠ 0 → scanWord m v = .error .limit) ∧
      (∃ x : Word, YieldsS (.lih d p i) s d x pc ∧
        ∀ j, j < 64 → x.getLsbD j =
          if 16 * p.toNat ≤ j ∧ j < 16 * p.toNat + 16 then i.getLsbD (j - 16 * p.toNat) else (s.me.getS d).getLsbD j) ∧
      encode (.slli d a n) = 0x09#6 ++ d ++ a ++ 0#8 ++ 0#2 ++ n ∧
      encode (.srli d a n) = 0x09#6 ++ d ++ a ++ 0#8 ++ 1#2 ++ n ∧
      encode (.srai d a n) = 0x09#6 ++ d ++ a ++ 0#8 ++ 2#2 ++ n ∧
      YieldsS (.slli d a n) s d (BitVec.ofNat 64 (A.toNat * 2 ^ n.toNat)) pc ∧
      YieldsS (.srli d a n) s d (BitVec.ofNat 64 (A.toNat / 2 ^ n.toNat)) pc ∧
      YieldsS (.srai d a n) s d (BitVec.ofInt 64 (A.toInt / 2 ^ n.toNat)) pc)

/-- R241: the FP32 forms give the exact result rounded once to FP32 by RNE, with bits 63 to 32 zero, set no flag and change nothing else. -/
def Obligations.ScalarFloatForms : Prop :=
  GivesF32 .fadd (fun x y _ => toF32 (addV false (f32 x) (f32 y)).1) ∧
  GivesF32 .fsub (fun x y _ => toF32 (addV false (f32 x) (f32 (y ^^^ 0x80000000#32))).1) ∧
  GivesF32 .fmul (fun x y _ => toF32 (mulV (f32 x) (f32 y)).1) ∧
  GivesF32 .fma (fun x y z => toF32 (addV false (mulV (f32 x) (f32 y)).1 (f32 z)).1) ∧
  GivesF32 .fmin (fun x y _ => if (f32 x).isNan && (f32 y).isNan then 0x7FC00000#32 else if (f32 x).isNan then y
    else if (f32 y).isNan then x else if belowV (f32 y) (f32 x) then y else x) ∧
  GivesF32 .fmax (fun x y _ => if (f32 x).isNan && (f32 y).isNan then 0x7FC00000#32 else if (f32 x).isNan then y
    else if (f32 y).isNan then x else if belowV (f32 x) (f32 y) then y else x) ∧
  GivesF32 .flt (fun x y _ => if ltV (f32 x) (f32 y) then 1#32 else 0#32) ∧
  GivesF32 .feq (fun x y _ => if !(f32 x).isNan && !(f32 y).isNan && !ltV (f32 x) (f32 y) && !ltV (f32 y) (f32 x) then 1#32 else 0#32) ∧
  (∀ (s : State) (d a : BitVec 5),
    YieldsS (.fcvtsw d a) s d (BitVec.ofNat 64 (toF32 (fvalOfInt ((s.me.getS a).setWidth 32).toInt)).toNat) (s.me.pc + 4#64) ∧
    ∃ x : BitVec 32, YieldsS (.fcvtws d a) s d (BitVec.ofNat 64 x.toNat) (s.me.pc + 4#64) ∧
      match f32 ((s.me.getS a).setWidth 32) with
      | .nan _ => x = 0#32
      | .inf neg => x = if neg then 0x80000000#32 else 0x7FFFFFFF#32
      | .fin neg m e _ => x.toInt = max (-(2 ^ 31)) (min (2 ^ 31 - 1)
          ((if neg then -1 else 1) * (if 0 ≤ e then m * 2 ^ e.toNat else m / 2 ^ (-e).toNat : Nat) : Int)))

/-- R67: what the rounding modes give for m × 2^(-k), exact or with a remainder below the last bit (`sticky`): RNE the nearest integer, ties
to even; RTZ the integer part; RUP and RDN the next integer in their direction; RMM the nearest, ties away from zero; and the result is
marked inexact exactly when it is. R63, R67: a number of FP32, BF16, FP16, E4M3 or E5M2 that is no NaN rounds to itself in every rounding
mode, with no flag. -/
def Obligations.RoundingAndFormats : Prop :=
  (
    ∀ (neg : Bool) (g m k : Nat) (sticky : Bool), 0 < k →
      let q := m / 2 ^ k
      let r := 2 * (m % 2 ^ k)
      let inexact := sticky || decide (r ≠ 0)
      let go (rm : BitVec 3) := (roundQ rm neg g m k sticky).1
      (∀ rm, (roundQ rm neg g m k sticky).2 = inexact) ∧
      go 0#3 = (if 2 ^ k < r ∨ r = 2 ^ k ∧ (sticky = true ∨ q % 2 = 1) then q + 1 else q) ∧
      go 1#3 = q ∧
      go 2#3 = (if inexact = true ∧ neg = false then q + 1 else q) ∧
      go 3#3 = (if inexact = true ∧ neg = true then q + 1 else q) ∧
      go 4#3 = (if 2 ^ k ≤ r then q + 1 else q)) ∧
  (
    ∀ f ∈ [fp32, bf16, fp16, e4m3, e5m2], ∀ (rm : BitVec 3) (g x : Nat), x < 2 ^ f.width →
      (decodeFloat f false x).isNan = false → encodeFloat f ⟨rm, false, false⟩ g (decodeFloat f false x) = (x, 0#5))

/-- R250: each branch goes to PC + sext(off) × 4 when its test of s[a] and s[b] holds and otherwise falls through, and changes nothing
else. R251: J, JAL and JALR; a link value is the address of the next word, JALR's target is taken before s[d] is written, and a misaligned
target raises ALIGN and leaves s[d] unchanged; that the record of that ALIGN has the target as its address and no access kind is the
model's reading (Assumption 48). -/
def Obligations.BranchesAndJumps : Prop :=
  (
    ∀ (s : State) (a b : BitVec 5) (o : BitVec 13) (A B : Word), A = s.me.getS a → B = s.me.getS b →
      let go (test : Bool) : Word := if test then BitVec.ofInt 64 (s.me.pc.toNat + 4 * o.toInt) else s.me.pc + 4#64
      YieldsPc (.bcEq a b o) s (go (A = B)) ∧
      YieldsPc (.bcNe a b o) s (go (A ≠ B)) ∧
      YieldsPc (.bcLt a b o) s (go (A.toInt < B.toInt)) ∧
      YieldsPc (.bcGe a b o) s (go (B.toInt ≤ A.toInt)) ∧
      YieldsPc (.bcLtu a b o) s (go (A.toNat < B.toNat)) ∧
      YieldsPc (.bcGeu a b o) s (go (B.toNat ≤ A.toNat)) ∧
      YieldsPc (.bcBset a b o) s (go (A &&& B ≠ 0#64)) ∧
      YieldsPc (.bcBclr a b o) s (go (A &&& B = 0#64))) ∧
  (
    ∀ (s : State) (d a : BitVec 5) (i : BitVec 16) (o : BitVec 26),
      let off : Word := BitVec.ofInt 64 (s.me.pc.toNat + 4 * o.toInt)
      let t : Word := BitVec.ofInt 64 ((s.me.getS a).toNat + 4 * i.toInt)
      YieldsPc (.j o) s off ∧
      YieldsS (.jal o) s 31#5 (s.me.pc + 4#64) off ∧
      (t.toNat % 4 = 0 → YieldsS (.jalr d a i) s d (s.me.pc + 4#64) t) ∧
      (t.toNat % 4 ≠ 0 → s.me.phase = .running → Traps (.jalr d a i) s (ownRecord s .align .none t 0#32 false)))

/-- R253: NOP only moves on; YIELD moves on and notes which other slots of its core are ready, for at most four ticks. R255: BKPT raises BKPT
at once, and TRAP #n raises TRAP with INDEX n once everything FENCE.p waits for is performed; until then it changes nothing. -/
def Obligations.HintsAndSoftwareTraps : Prop :=
  (
    ∀ (s : State) (n : BitVec 12),
      YieldsPc (.nop n) s (s.me.pc + 4#64) ∧
      ∃ t, exec .yield s = .next t ∧ OnlyMe s t ∧ WentOn s.me { t.me with yielded := s.me.yielded } (s.me.pc + 4#64) ∧
        (t.me.yielded = 0 ∨ t.me.yielded / 16 = 4) ∧
        ∀ j, j < 4 → (t.me.yielded / 2 ^ j % 2 = 1 ↔
          4 * (s.cur / 4) + j ≠ s.cur ∧ slotReady (s.strand (4 * (s.cur / 4) + j)) = true)) ∧
  (
    ∀ (s : State) (n : BitVec 12), s.me.phase = .running →
      Traps .bkpt s (ownRecord s .bkpt .none 0#64 0#32 false) ∧
      (s.me.sbPend = 0#8 → fenceReady s s.cur .package = true →
        Traps (.trap n) s (ownRecord s .trap .none 0#64 (BitVec.ofNat 32 n.toNat) false)) ∧
      (s.me.sbPend ≠ 0#8 ∨ fenceReady s s.cur .package = false → exec (.trap n) s = .next s))

/-- R38, R254: CSRR puts the register's fields into s[d], bits outside every field zero; VSTAT is read once the flags of every earlier VRRED
have reached it. R36, R254: CSRW replaces an RW field, CSRS sets and CSRC clears the bits of s[a] in it; of a W1C field CSRW and CSRC
clear the bits that are 1 in s[a] and CSRS none; the strand goes on and nothing else differs. PERFSEL and PERFCNT change from the next
tick, and a write of MSMCFG waits. VSTAT is written once the flags of every earlier VRRED have reached it. -/
def Obligations.CsrForms : Prop :=
  (
    ∀ (s : State) (d : BitVec 5),
      let u := s.me
      let gives (c : BitVec 12) (x : Nat) : Prop := YieldsS (.csrr d c) s d (BitVec.ofNat 64 x) (u.pc + 4#64)
      gives 0x000#12 (sidOf s.cur).toNat ∧
      gives 0x001#12 (recGidx u.rcd).toNat ∧
      gives 0x002#12 u.rank ∧
      gives 0x003#12 (recWidth u.rcd).toNat ∧
      gives 0x004#12 (recStage u.rcd).toNat ∧
      gives 0x005#12 (recLid u.rcd).toNat ∧
      gives 0x006#12 u.part.toNat ∧
      gives 0x008#12 u.vl.toNat ∧
      gives 0x009#12 (u.sew.toNat + 4 * u.gm.toNat) ∧
      gives 0x00A#12 u.mw.toNat ∧
      gives 0x00B#12 (u.tsh.tm.toNat + 2 ^ 8 * u.tsh.tn.toNat + 2 ^ 16 * u.tsh.tk.toNat) ∧
      (csrWaits u 0x00C#12 = false → gives 0x00C#12 u.vstat.toNat) ∧
      ((∃ x ∈ u.out, ∃ f z l, x.op = .reduce f z l) → exec (.csrr d 0x00C#12) s = .next s) ∧
      gives 0x00D#12 u.srseed.toNat ∧
      gives 0x010#12 u.mapbase ∧
      gives 0x011#12 u.mrbase ∧
      gives 0x012#12 (u.fq.toNat + 2 ^ 16 * u.sf.toNat) ∧
      gives 0x013#12 u.lim.toNat ∧
      gives 0x014#12 ((heldFrames s s.cur).length % 512 + 2 ^ 12 * u.fills.toNat + 2 ^ 36 * u.spills.toNat +
        (if coreOf s.cur ∈ s.therm then 2 ^ 63 else 0)) ∧
      gives 0x018#12 u.ftbase.toNat ∧
      gives 0x019#12 u.ftlen.toNat ∧
      gives 0x01A#12 (u.tok.sm.toNat + 2 ^ 4 * u.tok.sc.toNat + 2 ^ 8 * u.tok.ms.toNat + 2 ^ 12 * u.tok.mc.toNat +
        2 ^ 16 * u.tok.cs.toNat + 2 ^ 20 * u.tok.cm.toNat) ∧
      (∃ x, YieldsS (.csrr d 0x01B#12) s d x (u.pc + 4#64) ∧ (∀ j, j < 4 → x.getLsbD j = false) ∧
        ∀ g, 1 ≤ g → g ≤ 15 →
          let e := tabGet Guard.start u.guards g
          let before := e.prev.bind (fun y => y.2)
          x.getLsbD (4 * g) = e.cVal.isSome ∧ x.getLsbD (4 * g + 1) = (e.cVal == some true) ∧
            x.getLsbD (4 * g + 2) = before.isSome ∧ x.getLsbD (4 * g + 3) = (before == some true)) ∧
      gives 0x01C#12 (u.sbPend.toNat + 2 ^ 8 * u.sbErr.toNat) ∧
      gives 0x020#12 (u.swCur.toNat + (if u.swAct then 2 ^ 63 else 0)) ∧
      gives 0x021#12 u.swGrp.toNat ∧
      gives 0x022#12 u.swAwk.toNat ∧
      gives 0x023#12 u.swErr.toNat ∧
      gives 0x028#12 s.cycle ∧
      gives 0x029#12 u.runtk.toNat ∧
      gives 0x02A#12 u.wdlim.toNat ∧
      gives 0x040#12 s.hbmth.toNat ∧
      gives 0x041#12 (s.part u.part).errRing ∧
      gives 0x042#12 s.remto ∧
      (∀ n, n < 8 → gives (BitVec.ofNat 12 (0x030 + n)) (tabGet 0#17 u.perfSel n).toNat ∧
        gives (BitVec.ofNat 12 (0x038 + n)) (tabGet 0#64 u.perfCnt n).toNat)) ∧
  (
    ∀ (s : State) (a : BitVec 5) (A : Word), A = s.me.getS a →
      let u := s.me
      let does (i : Instr) (f : Strand → Strand) : Prop :=
        ∃ t, exec i s = .next t ∧ OnlyMe s t ∧
          t.me = { f u with
            badC := t.me.badC
            pc := u.pc + 4#64
            restart := 0
            append := none
            handing := []
            claim := none
            recBuf := none
            wait := .none
            tokDone := false }
      does (.csrw a 0x00A#12) (fun v => { v with mw := A.setWidth 8 }) ∧
      does (.csrs a 0x00A#12) (fun v => { v with mw := v.mw ||| A.setWidth 8 }) ∧
      does (.csrc a 0x00A#12) (fun v => { v with mw := v.mw &&& ~~~(A.setWidth 8) }) ∧
      (csrWaits u 0x00C#12 = false →
        does (.csrw a 0x00C#12) (fun v => { v with vstat := v.vstat &&& ~~~(A.setWidth 5) }) ∧
        does (.csrs a 0x00C#12) (fun v => v) ∧
        does (.csrc a 0x00C#12) (fun v => { v with vstat := v.vstat &&& ~~~(A.setWidth 5) })) ∧
      ((∃ x ∈ u.out, ∃ f z l, x.op = .reduce f z l) →
        exec (.csrw a 0x00C#12) s = .next s ∧ exec (.csrs a 0x00C#12) s = .next s ∧ exec (.csrc a 0x00C#12) s = .next s) ∧
      (let reseeded (x : Word) (v : Strand) : Strand :=
         { v with srseed := x, vbank := ⟨x, []⟩, mseed := v.mseed ++ [(x, (v.mq.map (fun c => c.id)).foldl max 0)] }
       does (.csrw a 0x00D#12) (reseeded A) ∧
       does (.csrs a 0x00D#12) (reseeded (u.srseed ||| A)) ∧
       does (.csrc a 0x00D#12) (reseeded (u.srseed &&& ~~~A))) ∧
      does (.csrw a 0x01C#12) (fun v => { v with sbErr := v.sbErr &&& ~~~((A >>> 8).setWidth 8 &&& 0xFE#8) }) ∧
      does (.csrs a 0x01C#12) (fun v => v) ∧
      does (.csrc a 0x01C#12) (fun v => { v with sbErr := v.sbErr &&& ~~~((A >>> 8).setWidth 8 &&& 0xFE#8) }) ∧
      (∀ n, n < 8 →
        does (.csrw a (BitVec.ofNat 12 (0x030 + n))) (fun v => { v with perfNext := v.perfNext ++ [(n, A)] }) ∧
        does (.csrw a (BitVec.ofNat 12 (0x038 + n))) (fun v => { v with perfNext := v.perfNext ++ [(n + 8, A)] }) ∧
        (let sel := (tabGet 0#17 u.perfSel n).setWidth 64
         does (.csrs a (BitVec.ofNat 12 (0x030 + n))) (fun v => { v with perfNext := v.perfNext ++ [(n, sel ||| A)] }) ∧
         does (.csrc a (BitVec.ofNat 12 (0x030 + n))) (fun v => { v with perfNext := v.perfNext ++ [(n, sel &&& ~~~A)] })) ∧
        (let cnt := tabGet 0#64 u.perfCnt n
         does (.csrs a (BitVec.ofNat 12 (0x038 + n))) (fun v => { v with perfNext := v.perfNext ++ [(n + 8, cnt ||| A)] }) ∧
         does (.csrc a (BitVec.ofNat 12 (0x038 + n))) (fun v => { v with perfNext := v.perfNext ++ [(n + 8, cnt &&& ~~~A)] })) ∧
        (∀ v : Strand, v.perfNext.getLast? = some (n, A) → tabGet 0#17 (tickStrand 1 v).perfSel n = A.setWidth 17) ∧
        (∀ v : Strand, v.perfNext.getLast? = some (n + 8, A) → tabGet 0#64 (tickStrand 1 v).perfCnt n = A)) ∧
      (let cfg := BitVec.ofNat 64 (u.fq.toNat + 2 ^ 16 * u.sf.toNat)
       let waits (i : Instr) (x : Word) : Prop :=
         ∃ t, exec i s = .next t ∧ OnlyMe s t ∧ t.me.wait = .msmcfg (x &&& 0x1FF01FF#64) ∧ t.me.pc = u.pc
       waits (.csrw a 0x012#12) A ∧ waits (.csrs a 0x012#12) (cfg ||| A) ∧ waits (.csrc a 0x012#12) (cfg &&& ~~~A)))

/-- R242, R244: LD and LDA zero-extend and LDS sign-extends the n bytes at their address, from HBM or the near window; s[d] is written, the
strand goes on and no byte of memory differs. -/
def Obligations.LoadsComplete : Prop :=
  ∀ (s s1 : State) (d a : BitVec 5) (o : BitVec 14) (z : BitVec 2) (w : BitVec 1) (c : BitVec 2) (pl : Place),
    (∃ x, pl = .near x) ∨ (∃ x b, pl = .mem x b) →
    let n := 2 ^ z.toNat
    let m := if w = 1#1 then 8 else 4
    (Reaches s (offsetAddress s a o n) n .read (acceptsOfSize z) pl s1 → MayPerform s1 pl n true →
      Loads (.ld d a o z) s s1 d (BitVec.ofNat 64 (placeNumber s1 pl n))) ∧
    (Reaches s (offsetAddress s a o n) n .read acceptsPlain pl s1 → MayPerform s1 pl n true →
      Loads (.lds d a o z) s s1 d (BitVec.ofInt 64 (BitVec.ofNat (8 * n) (placeNumber s1 pl n)).toInt)) ∧
    (s.me.deferred = none → Reaches s (s.me.getS a) m .read acceptsWide pl s1 → MayPerform s1 pl m true →
      Loads (.lda d a c w) s s1 d (BitVec.ofNat 64 (placeNumber s1 pl m)))

/-- R245, R247: an atomic whose old value or order later instructions wait for reads, computes and writes the n bytes at s[a] as one access:
s[d] gets the old value, the bytes get the new one, and every other byte of memory is as before. CAS writes only when the old value is the
expected one. -/
def Obligations.AtomicsComplete : Prop :=
  ∀ (s s1 : State) (d a b : BitVec 5) (m r q z : BitVec 1) (c : BitVec 2) (pa : Nat) (comp : Bool),
    (d ≠ 0#5 ∨ q = 1#1) → (r = 1#1 → s1.me.drained s.cur (scopeOf c) = true) →
    (let n := if z = 1#1 then 8 else 4
     let B := (s.me.getS b).toNat % 2 ^ (8 * n)
     let sg (x : Nat) : Int := (BitVec.ofNat (8 * n) x).toInt
     Reaches s (s.me.getS a) n .readWrite acceptsPlain (.mem pa comp) s1 → MayPerform s1 (.mem pa comp) n true →
       Atomically (.amoAdd d a b m r q c z) s s1 d pa n (fun old => (old + B) % 2 ^ (8 * n)) ∧
       Atomically (.amoAnd d a b m r q c z) s s1 d pa n (fun old => old &&& B) ∧
       Atomically (.amoOr d a b m r q c z) s s1 d pa n (fun old => old ||| B) ∧
       Atomically (.amoXor d a b m r q c z) s s1 d pa n (fun old => old ^^^ B) ∧
       Atomically (.amoSmin d a b m r q c z) s s1 d pa n (fun old => if sg B < sg old then B else old) ∧
       Atomically (.amoSmax d a b m r q c z) s s1 d pa n (fun old => if sg old < sg B then B else old) ∧
       Atomically (.amoUmin d a b m r q c z) s s1 d pa n (fun old => min old B) ∧
       Atomically (.amoUmax d a b m r q c z) s s1 d pa n (fun old => max old B) ∧
       Atomically (.amoSwap d a b r q c z) s s1 d pa n (fun _ => B) ∧
       Atomically (.cas d a b r q c z) s s1 d pa n
         (fun old => if old = (s.me.getS d).toNat % 2 ^ (8 * n) then B else old)) ∧
    (Reaches s (s.me.getS a) 4 .readWrite acceptsPlain (.mem pa comp) s1 → MayPerform s1 (.mem pa comp) 4 true →
       Atomically (.amoFadd d a b m r q c) s s1 d pa 4
         (fun old => (f32Add (BitVec.ofNat 32 old) ((s.me.getS b).setWidth 32)).toNat))

/-- R242, R244, R108: ST and STR join the strand's outstanding stores, with the low bytes of their register for the address they name, STR as
a release of its scope; the strand goes on, and no byte of memory differs before the store is performed. R249: STN to two local addresses
joins the outstanding accesses with the data write and then the flag increment, a release of its scope that comes after it; the strand
goes on. R245, R108: an atomic with d = s0 and no acquire posts: it joins the outstanding accesses, returns nothing, and no byte of memory
differs before it is performed. That an access is performed by a turn of its own is the model's schedule (Assumption 1). -/
def Obligations.PostedAccessesIssue : Prop :=
  (
    ∀ (s s1 : State) (d a b : BitVec 5) (o : BitVec 14) (z : BitVec 2) (w : BitVec 1) (c : BitVec 2) (pl : Place),
      isRemote pl = false → isDevice pl = false ∨ (∀ x ∈ s1.me.out, isDevice x.place = false) →
      let n := 2 ^ z.toNat
      let m := if w = 1#1 then 8 else 4
      let ea := offsetAddress s a o n
      (Reaches s ea n .write (acceptsOfSize z) pl s1 →
        Posts (.st d a o z) s s1 (Access.plain (s1.seq + 1) (.store (s.me.getS d)) ea.toNat pl n s1.cycle .scalarStore)) ∧
      (Reaches s (s.me.getS a) m .write acceptsWide pl s1 →
        Posts (.str a b c w) s s1 { Access.plain (s1.seq + 1) (.store (s.me.getS b)) (s.me.getS a).toNat pl m s1.cycle .scalarStore with
          rel := some (scopeOf c) })) ∧
  (
    ∀ (s s1 s2 : State) (d a b : BitVec 5) (c : BitVec 2) (z : BitVec 1) (pd pf : Place),
      let n := if z = 1#1 then 8 else 4
      isRemote pd = false → isRemote pf = false →
      Reaches s (s.me.getS a) n .readWrite acceptsFar pd s1 →
      locate s1 (streamCtx s s.cur) (s.me.getS d) 8 8 .readWrite acceptsFar = .ok (pf, s2) →
      ∃ t, exec (.stn d a b c z) s = .next t ∧ PackageCounted s2 t ∧ OthersKept s2 t s.cur ∧
        t.me.out = s2.me.out ++ [Access.plain (s2.seq + 1) (.store (s.me.getS b)) (s.me.getS a).toNat pd n s.cycle .scalarStore,
          { Access.plain (s2.seq + 1) (.flag (scopeOf c)) (s.me.getS d).toNat pf 8 s.cycle .atomic with rel := some (scopeOf c) }] ∧
        WentOn s2.me { t.me with out := s2.me.out, perfCnt := s2.me.perfCnt } (s.me.pc + 4#64)) ∧
  (
    ∀ (s s1 : State) (a b : BitVec 5) (m r z : BitVec 1) (c : BitVec 2) (pl : Place),
      isRemote pl = false →
      let n := if z = 1#1 then 8 else 4
      let rel := if r = 1#1 then some (scopeOf c) else none
      let acc (op : AccessOp) (k : Nat) : Access := { Access.plain (s1.seq + 1) op (s.me.getS a).toNat pl k s1.cycle .atomic with rel := rel }
      let B := s.me.getS b
      (Reaches s (s.me.getS a) n .readWrite acceptsPlain pl s1 →
        Posts (.amoAdd 0#5 a b m r 0#1 c z) s s1 (acc (.amo 0#4 B 0#5) n) ∧
        Posts (.amoAnd 0#5 a b m r 0#1 c z) s s1 (acc (.amo 1#4 B 0#5) n) ∧
        Posts (.amoOr 0#5 a b m r 0#1 c z) s s1 (acc (.amo 2#4 B 0#5) n) ∧
        Posts (.amoXor 0#5 a b m r 0#1 c z) s s1 (acc (.amo 3#4 B 0#5) n) ∧
        Posts (.amoSmin 0#5 a b m r 0#1 c z) s s1 (acc (.amo 4#4 B 0#5) n) ∧
        Posts (.amoSmax 0#5 a b m r 0#1 c z) s s1 (acc (.amo 5#4 B 0#5) n) ∧
        Posts (.amoUmin 0#5 a b m r 0#1 c z) s s1 (acc (.amo 6#4 B 0#5) n) ∧
        Posts (.amoUmax 0#5 a b m r 0#1 c z) s s1 (acc (.amo 7#4 B 0#5) n) ∧
        Posts (.amoSwap 0#5 a b r 0#1 c z) s s1 (acc (.amo 8#4 B 0#5) n) ∧
        Posts (.cas 0#5 a b r 0#1 c z) s s1 (acc (.cas 0#64 B 0#5) n)) ∧
      (Reaches s (s.me.getS a) 4 .readWrite acceptsPlain pl s1 →
        Posts (.amoFadd 0#5 a b m r 0#1 c) s s1 (acc (.amo 9#4 B 0#5) 4)))

/-- R106, R107: when the store of an outstanding access to HBM is performed, exactly the bytes of the access take the value's low bytes, the
access is gone, and everything else of memory reads as before. The address is the one that the issue computed. -/
def Obligations.StorePerformed : Prop :=
  ∀ (s : State) (k i n pa : Nat) (v : Word) (comp : Bool) (a : Access),
    s.arg.slot = k → s.arg.idx = i → (s.strand k).out[i]? = some a → a.op = .store v → a.place = .mem pa comp → a.n = n →
    a.blocks = false → a.tag = none → performFault s k a = none → underTest s k a.place a.n = false →
    (s.strand k).phase ≠ .free → heldBack (dieOf (coreOf k)) (s.strand k).out i a = false →
    ∃ t, exec .accessPerformed s = .next t ∧ Holds t pa n (v.toNat % 2 ^ (8 * n)) ∧ MemoryKept s t (within pa n) ∧ PackageStored s t ∧
      OthersKept s t k ∧ (t.strand k).out = (s.strand k).out.eraseIdx i ∧ (t.strand k).pc = (s.strand k).pc ∧
      (∀ r, (t.strand k).getS r = (s.strand k).getS r)

/-- R164, R243: a scalar load or store whose address is misaligned raises ALIGN with that address, one whose address has a high bit set raises
NONCANON, before anything else; the strand is PARKED, no register and no byte of memory differs. -/
def Obligations.ScalarAddressFaults : Prop :=
  ∀ (s : State) (d a : BitVec 5) (o : BitVec 14) (z : BitVec 2), s.me.phase = .running →
    let n := 2 ^ z.toNat
    let ea := offsetAddress s a o n
    (2 ^ 52 ≤ ea.toNat →
      Traps (.ld d a o z) s (ownRecord s .noncanon .scalarLoad ea 0#32 false) ∧
      Traps (.lds d a o z) s (ownRecord s .noncanon .scalarLoad ea 0#32 false) ∧
      Traps (.st d a o z) s (ownRecord s .noncanon .scalarStore ea 0#32 false)) ∧
    (ea.toNat < 2 ^ 52 → ea.toNat % n ≠ 0 →
      Traps (.ld d a o z) s (ownRecord s .align .scalarLoad ea 0#32 false) ∧
      Traps (.lds d a o z) s (ownRecord s .align .scalarLoad ea 0#32 false) ∧
      Traps (.st d a o z) s (ownRecord s .align .scalarStore ea 0#32 false))

/-- R244: FENCE goes on once no scoreboard slot is pending and every access within its scope has been performed; until then it changes
nothing; a slot in error raises SLOT_ERROR with the slot's number, whose ERR bit clears. That a FENCE waits for every command of the
queues is the model's reading (Assumption 10). -/
def Obligations.Fences : Prop :=
  ∀ (s : State) (c : BitVec 2),
    (s.me.sbPend &&& 0xFE#8 ≠ 0#8 → exec (.fence c) s = .next s) ∧
    (s.me.sbPend &&& 0xFE#8 = 0#8 → s.me.sbErr &&& 0xFE#8 = 0#8 → fenceReady s s.cur (scopeOf c) = false → exec (.fence c) s = .next s) ∧
    (s.me.sbPend &&& 0xFE#8 = 0#8 → s.me.sbErr &&& 0xFE#8 = 0#8 → fenceReady s s.cur (scopeOf c) = true → s.me.deferred = none →
      YieldsPc (.fence c) s (s.me.pc + 4#64)) ∧
    (∀ j, 1 ≤ j → j < 8 → s.me.phase = .running → s.me.sbPend &&& 0xFE#8 = 0#8 → s.me.sbErr.getLsbD j = true →
      (∀ l, 1 ≤ l → l < j → s.me.sbErr.getLsbD l = false) →
      ∃ t, exec (.fence c) s = .next t ∧ OnlyMe s t ∧ t.me.sbErr.getLsbD j = false ∧
        Parked { s.me with sbErr := t.me.sbErr } t.me (ownRecord s .slotError .none 0#64 (BitVec.ofNat 32 j) false))

/-- R182, R252: CALLT with an index below FTLEN whose entry is valid, has its reserved bits zero and carries the signature links in s31 and
goes to the entry's target; an index at or above FTLEN, an entry that is not valid or has a reserved bit set, raises FTINDEX, and one of
another signature SIGNATURE, with s31 as it was. That the record of these has no address is the model's reading (Assumption 48). -/
def Obligations.TypedCalls : Prop :=
  ∀ (s s1 : State) (a : BitVec 5) (sg : BitVec 16) (pa : Nat) (comp : Bool) (target : Word),
    let i := (s.me.getS a).toNat
    (s.me.phase = .running → s.me.ftlen.toNat ≤ i → Traps (.callt a sg) s (ownRecord s .ftIndex .none 0#64 0#32 false)) ∧
    (i < s.me.ftlen.toNat →
      Reaches s (BitVec.ofNat 64 (s.me.ftbase.toNat + 16 * i)) 16 .read acceptsPlain (.mem pa comp) s1 →
      MayPerform s1 (.mem pa comp) 16 true → target.toNat < 2 ^ 52 → target.toNat % 4 = 0 →
      bytesNat (memBytes s1.mem pa 16) = target.toNat + 2 ^ 64 * sg.toNat + 2 ^ 80 →
      ∃ t, exec (.callt a sg) s = .next t ∧ PackageCounted s1 t ∧ OthersKept s1 t s.cur ∧
        WroteS s1.me { t.me with perfCnt := s1.me.perfCnt } 31#5 (s.me.pc + 4#64) target) ∧
    (i < s.me.ftlen.toNat → s.me.phase = .running →
      Reaches s (BitVec.ofNat 64 (s.me.ftbase.toNat + 16 * i)) 16 .read acceptsPlain (.mem pa comp) s1 → MayPerform s1 (.mem pa comp) 16 true →
      let e : BitVec 128 := bytesBv 128 (memBytes s1.mem pa 16)
      let stops (c : FaultClass) : Prop :=
        ∃ t x, exec (.callt a sg) s = .next t ∧ t.mem = s1.mem ∧ t.me.phase = .parked ∧ t.me.fault = some x ∧ x.cls = c ∧ x.akind = .none ∧
          x.va = 0#64 ∧ x.pc = s.me.pc ∧ t.me.pc = s.me.pc ∧ ∀ n, t.me.getS n = s.me.getS n
      (e.getLsbD 80 = false ∨ slice e 52 12 ≠ 0#12 ∨ slice e 81 47 ≠ 0#47 → stops .ftIndex) ∧
      (target.toNat < 2 ^ 52 → target.toNat % 4 = 0 → slice e 64 16 ≠ sg → e.toNat % 2 ^ 64 = target.toNat → e.toNat / 2 ^ 80 = 1 →
        stops .signature))

/-- R262: VCFG sets SEW and the group multiplier, VL to the smaller of the request and VLMAX (VLMAX where a is s0), and s[d] to VL. -/
def Obligations.VectorConfiguration : Prop :=
  ∀ (s : State) (d a : BitVec 5) (g e : BitVec 2),
    let m := 2048 * 2 ^ g.toNat / 2 ^ e.toNat
    let vl := if a = 0#5 then m else min (s.me.getS a).toNat m
    g ≤ e →
    ∃ t, exec (.vcfg d a g e) s = .next t ∧ OnlyMe s t ∧ t.me.vl.toNat = vl ∧ t.me.sew = e ∧ t.me.gm = g ∧
      WroteS s.me { t.me with vl := s.me.vl, sew := s.me.sew, gm := s.me.gm } d (BitVec.ofNat 64 vl) (s.me.pc + 4#64)

/-- R263: the integer forms of two vectors write every active element of D with a function of the elements of A and B, modulo 2^SEW, and keep
every other element. R263: VADDS clamps each signed sum to SEW bits and sets SAT when an active sum was clamped. -/
def Obligations.VectorIntegerForms : Prop :=
  (
    ∀ (s : State) (d a b : BitVec 5) (x y : BitVec 1) (k : BitVec 3),
      vGate s.me (sewForm s.me [a, b] d k) = .go →
      ∀ p ∈ ([(.vadd, fun _ X Y => X + Y), (.vsub, fun _ X Y => X - Y), (.vmul, fun _ X Y => X * Y),
          (.vmulh, fun w X Y => (X.signExtend (2 * w) * Y.signExtend (2 * w)).extractLsb' w w),
          (.vand, fun _ X Y => X &&& Y), (.vor, fun _ X Y => X ||| Y), (.vxor, fun _ X Y => X ^^^ Y),
          (.vandn, fun _ X Y => X &&& ~~~Y), (.vsll, fun w X Y => X <<< (Y.toNat % w)), (.vsrl, fun w X Y => X >>> (Y.toNat % w)),
          (.vsra, fun w X Y => X.sshiftRight (Y.toNat % w)), (.vmin, fun _ X Y => if Y.toInt < X.toInt then Y else X),
          (.vmax, fun _ X Y => if X.toInt < Y.toInt then Y else X), (.vminu, fun _ X Y => if Y.toNat < X.toNat then Y else X),
          (.vmaxu, fun _ X Y => if X.toNat < Y.toNat then Y else X)] :
          List ((BitVec 5 → BitVec 5 → BitVec 5 → BitVec 1 → BitVec 1 → BitVec 3 → Instr) ×
            ((w : Nat) → BitVec w → BitVec w → BitVec w))),
        WritesLanes (p.1 d a b x y k) s (s.me.sewOp d) (fun j =>
          if isActive s.me k j then
            some (p.2 s.me.sewBits (BitVec.ofNat _ (s.me.elem (s.me.sewOp a) j)) (BitVec.ofNat _ (s.me.elem (s.me.sewOp b) j))).toNat
          else none)) ∧
  (
    ∀ (s : State) (d a b : BitVec 5) (x y : BitVec 1) (k : BitVec 3),
      vGate s.me (sewForm s.me [a, b] d k) = .go →
      let w := s.me.sewBits
      let sum (j : Nat) : Int := (BitVec.ofNat w (s.me.elem (s.me.sewOp a) j)).toInt + (BitVec.ofNat w (s.me.elem (s.me.sewOp b) j)).toInt
      let clamped (j : Nat) : Int := max (-(2 ^ (w - 1))) (min (2 ^ (w - 1) - 1) (sum j))
      ∃ t, exec (.vadds d a b x y k) s = .next t ∧ OnlyMe s t ∧
        LaneWrite s.me t.me (s.me.sewOp d) (fun j => if isActive s.me k j then some (BitVec.ofInt w (clamped j)).toNat else none) ∧
        (t.me.vstat = s.me.vstat ||| (if (s.me.lanes k).any (fun j => decide (clamped j ≠ sum j)) then 16#5 else 0#5)) ∧
        WentOn s.me { t.me with v := s.me.v, marks := s.me.marks, vstat := s.me.vstat } (s.me.pc + 4#64))

/-- R29, R30, R258, R280, R289: a form whose group is misaligned raises REGGROUP; with VL 0 it only moves on; while a load is still to
write one of its registers, or a matrix command one that it reads, it changes nothing; and a matrix command that is still to write its
destination does not hold a form that reads no vector register. Said for the integer forms, the moves and the permutes of SEW-wide
operands. That the group is checked before VL is looked at is the model's choice (Assumption 61). -/
def Obligations.VectorGates : Prop :=
  ∀ (s : State) (d a b : BitVec 5) (x y : BitVec 1) (k : BitVec 3),
    let f2 := sewForm s.me [a, b] d k
    let f1 := sewForm s.me [a] d k
    (∀ p ∈ ([.vadd, .vsub, .vmul, .vmulh, .vand, .vor, .vxor, .vandn, .vsll, .vsrl, .vsra, .vmin, .vmax, .vminu, .vmaxu, .vadds, .vperm,
        .vsel] : List (BitVec 5 → BitVec 5 → BitVec 5 → BitVec 1 → BitVec 1 → BitVec 3 → Instr)),
      (((f2.srcs ++ f2.dsts).any (fun o => !s.me.grouped o) = true) → s.me.phase = .running →
        Traps (p d a b x y k) s (ownRecord s .regGroup .none 0#64 0#32 false)) ∧
      ((f2.srcs ++ f2.dsts).all s.me.grouped = true → f2.srcs.any (fun o => (s.me.groupRegs o).any s.me.vBusy) = true ∨
          f2.dsts.any (fun o => (s.me.groupRegs o).any s.me.vLoading) = true →
        exec (p d a b x y k) s = .next s) ∧
      ((f2.srcs ++ f2.dsts).all s.me.grouped = true → s.me.out = [] → s.me.mq = [] → s.me.vl = 0#12 →
        YieldsPc (p d a b x y k) s (s.me.pc + 4#64))) ∧
    (∀ p ∈ ([(.vmv d a x k, f1), (.vcompress d a x k, f1), (.vexpand d a x k, f1), (.vslideup d a b x k, f1), (.vslidedn d a b x k, f1),
        (.viota d k, sewForm s.me [] d k), (.vsplat d a k, sewForm s.me [] d k), (.vins d a b, ⟨[], [s.me.sewOp d], [], [], [], []⟩)] :
        List (Instr × VForm)),
      (((p.2.srcs ++ p.2.dsts).any (fun o => !s.me.grouped o) = true) → s.me.phase = .running →
        Traps p.1 s (ownRecord s .regGroup .none 0#64 0#32 false)) ∧
      ((p.2.srcs ++ p.2.dsts).all s.me.grouped = true → p.2.srcs.any (fun o => (s.me.groupRegs o).any s.me.vBusy) = true ∨
          p.2.dsts.any (fun o => (s.me.groupRegs o).any s.me.vLoading) = true →
        exec p.1 s = .next s) ∧
      (p.2.srcs = [] → p.2.dsts.all s.me.grouped = true → s.me.out = [] → s.me.badK = [] →
        ∃ t, exec p.1 s = .next t ∧ OnlyMe s t ∧ t.me.pc = s.me.pc + 4#64) ∧
      ((p.2.srcs ++ p.2.dsts).all s.me.grouped = true → s.me.out = [] → s.me.mq = [] → s.me.vl = 0#12 →
        YieldsPc p.1 s (s.me.pc + 4#64)))

/-- R264: integer compares write the bits of active lanes of mask register d and keep the other bits. R264: VCMP.FEQ and VCMP.FLT compare
elements under FA and FB; FEQ sets NV for a signalling NaN and FLT for any NaN. -/
def Obligations.VectorCompares : Prop :=
  (
    ∀ (s : State) (d : BitVec 3) (a b : BitVec 5) (x y : BitVec 1) (k : BitVec 3),
      vGate s.me ⟨[s.me.sewOp a, s.me.sewOp b], [], [], [], [k.toNat], [d.toNat]⟩ = .go →
      ∀ p ∈ ([(.vcmpEq, fun _ X Y => decide (X = Y)), (.vcmpNe, fun _ X Y => decide (X ≠ Y)), (.vcmpLt, fun _ X Y => decide (X.toInt < Y.toInt)),
          (.vcmpLe, fun _ X Y => decide (X.toInt ≤ Y.toInt)), (.vcmpLtu, fun _ X Y => decide (X.toNat < Y.toNat)),
          (.vcmpLeu, fun _ X Y => decide (X.toNat ≤ Y.toNat))] :
          List ((BitVec 3 → BitVec 5 → BitVec 5 → BitVec 1 → BitVec 1 → BitVec 3 → Instr) × ((w : Nat) → BitVec w → BitVec w → Bool))),
        WritesMask (p.1 d a b x y k) s d (fun j =>
          if isActive s.me k j then
            some (p.2 s.me.sewBits (BitVec.ofNat _ (s.me.elem (s.me.sewOp a) j)) (BitVec.ofNat _ (s.me.elem (s.me.sewOp b) j)))
          else none) 0#5) ∧
  (
    ∀ (s : State) (d : BitVec 3) (a b : BitVec 5) (x y : BitVec 1) (k fs : BitVec 3),
      let w := s.me.formatWord fs
      let A (j : Nat) : FVal := s.me.fval a (fwFA w) (fwZA w) (w.getLsbD 28) j
      let B (j : Nat) : FVal := s.me.fval b (fwFB w) (fwZB w) (w.getLsbD 28) j
      FloatReady s.me w [⟨a, fwFA w, isSourceCode (fwFA w), true, false⟩, ⟨b, fwFB w, isSourceCode (fwFB w), true, false⟩]
        { maskOnly k (scaleReads (fwFA w) (fwZA w) ++ scaleReads (fwFB w) (fwZB w)) with kw := [d.toNat] } →
      WritesMask (.vcmpFeq d a b x y k fs) s d
        (fun j => if isActive s.me k j then some (!(A j).isNan && !(B j).isNan && !ltV (A j) (B j) && !ltV (B j) (A j)) else none)
        (if (s.me.lanes k).any (fun j => (A j).isSig || (B j).isSig) then 1#5 else 0#5) ∧
      WritesMask (.vcmpFlt d a b x y k fs) s d (fun j => if isActive s.me k j then some (ltV (A j) (B j)) else none)
        (if (s.me.lanes k).any (fun j => (A j).isNan || (B j).isNan) then 1#5 else 0#5))

/-- R265: the arithmetic forms of two floating sources write each active element with the exact result under FA and FB rounded once to FD; the
flags of all active elements join VSTAT. VFSQRT and VFSCALE likewise. R266: the fused forms write each active element with ±(A × B) ± D,
where D is the destination's own element under FD, rounded once. Under stochastic rounding the n-th draw of a lane is the n-th floating
result of that lane, and an exact infinity keeps its value under SAT (Assumption 47). -/
def Obligations.VectorFloatForms : Prop :=
  (
    ∀ (s : State) (d a b : BitVec 5) (x y : BitVec 1) (k fs : BitVec 3),
      let w := s.me.formatWord fs
      let r := roundOf w
      let A (j : Nat) : FVal := s.me.fval a (fwFA w) (fwZA w) r.ftz j
      let B (j : Nat) : FVal := s.me.fval b (fwFB w) (fwZB w) r.ftz j
      let D : VOp := ⟨d.toNat, fmtWidth (wideFmt (fwFD w))⟩
      let fa : FOp := ⟨a, fwFA w, isSourceCode (fwFA w), true, false⟩
      let fb : FOp := ⟨b, fwFB w, isSourceCode (fwFB w), true, false⟩
      let fi : FOp := ⟨b, fwFB w, decide (0x10 ≤ (fwFB w).toNat) && decide ((fwFB w).toNat ≤ 0x12), true, false⟩
      let fd : FOp := ⟨d, fwFD w, isWideCode (fwFD w), false, true⟩
      let put (v : Nat → FVal × Flags) (j g : Nat) : Nat × Flags :=
        let e := encodeResult (wideFmt (fwFD w)) r g (v j).1
        (e.1, e.2 ||| (v j).2)
      (FloatReady s.me w [fa, fb, fd] (maskOnly k (scaleReads (fwFA w) (fwZA w) ++ scaleReads (fwFB w) (fwZB w))) →
        WritesFloats (.vfadd d a b x y k fs) s D k r (put (fun j => addV (r.rm == 3#3) (A j) (B j))) ∧
        WritesFloats (.vfsub d a b x y k fs) s D k r (put (fun j => addV (r.rm == 3#3) (A j) (B j).negate)) ∧
        WritesFloats (.vfmul d a b x y k fs) s D k r (put (fun j => mulV (A j) (B j))) ∧
        WritesFloats (.vfmin d a b x y k fs) s D k r (put (fun j => minV (A j) (B j))) ∧
        WritesFloats (.vfmax d a b x y k fs) s D k r (put (fun j => maxV (A j) (B j))) ∧
        WritesFloats (.vfdiv d a b x y k fs) s D k r (put (fun j => divV (A j) (B j)))) ∧
      (FloatReady s.me w [fa, fd] (maskOnly k (scaleReads (fwFA w) (fwZA w))) →
        WritesFloats (.vfsqrt d a x k fs) s D k r (put (fun j => sqrtV (A j)))) ∧
      (FloatReady s.me w [fa, fi, fd] (maskOnly k (scaleReads (fwFA w) (fwZA w))) →
        WritesFloats (.vfscale d a b x y k fs) s D k r
          (put (fun j => (scaleV (A j) ((s.me.ival b (fwFB w) j).getD 0), if (A j).isSig then 1#5 else 0#5))))) ∧
  (
    ∀ (s : State) (d a b : BitVec 5) (x y : BitVec 1) (k fs : BitVec 3),
      let w := s.me.formatWord fs
      let r := roundOf w
      let A (j : Nat) : FVal := s.me.fval a (fwFA w) (fwZA w) r.ftz j
      let B (j : Nat) : FVal := s.me.fval b (fwFB w) (fwZB w) r.ftz j
      let C (j : Nat) : FVal := s.me.fval d (fwFD w) 0 r.ftz j
      let D : VOp := ⟨d.toNat, fmtWidth (wideFmt (fwFD w))⟩
      let put (p c : Nat → FVal) (j g : Nat) : Nat × Flags :=
        let v := addV (r.rm == 3#3) (mulV (p j) (B j)).1 (c j)
        let e := encodeResult (wideFmt (fwFD w)) r g v.1
        (e.1, e.2 ||| ((mulV (p j) (B j)).2 ||| v.2))
      FloatReady s.me w [⟨a, fwFA w, isSourceCode (fwFA w), true, false⟩, ⟨b, fwFB w, isSourceCode (fwFB w), true, false⟩,
          ⟨d, fwFD w, isWideCode (fwFD w), true, true⟩] (maskOnly k (scaleReads (fwFA w) (fwZA w) ++ scaleReads (fwFB w) (fwZB w))) →
        WritesFloats (.vfma d a b x y k fs) s D k r (put A C) ∧
        WritesFloats (.vfms d a b x y k fs) s D k r (put A (fun j => (C j).negate)) ∧
        WritesFloats (.vfnma d a b x y k fs) s D k r (put (fun j => (A j).negate) C) ∧
        WritesFloats (.vfnms d a b x y k fs) s D k r (put (fun j => (A j).negate) (fun j => (C j).negate)))

/-- R267: VFCVT to a format that is not block floating point writes each active element rounded to FD from its value under FA; to a block
format it quantises each block of active elements with their draws (R74), writes the elements to D and the scale word to the block's slot of
ZD, sets the flags of every block, and changes nothing besides but the generator bank. R268, R269: VFNEG turns and VFABS clears the sign bit
and sets no flag on numbers; VFCVTI rounds to an integral value of the same format; a NaN gives the canonical NaN; VFCLASS writes the
class code. -/
def Obligations.VectorConversionsAndSigns : Prop :=
  (
    ∀ (s : State) (d a : BitVec 5) (x : BitVec 1) (k fs : BitVec 3),
      let w := s.me.formatWord fs
      let r := roundOf w
      FloatReady s.me w [⟨a, fwFA w, isVectorCode (fwFA w), true, false⟩, ⟨d, fwFD w, isVectorCode (fwFD w), false, true⟩]
        ⟨[], [], scaleReads (fwFA w) (fwZA w), scaleReads (fwFD w) (fwZD w), [k.toNat], []⟩ →
      (∀ f, fmtOf (fwFD w) = some f → isBfpCode (fwFD w) = false →
        WritesFloats (.vfcvt d a x k fs) s ⟨d.toNat, fmtWidth f⟩ k r
          (fun j g => encodeFmt f r g (s.me.fval a (fwFA w) (fwZA w) r.ftz j) (s.me.ival a (fwFA w) j))) ∧
      (isBfpCode (fwFD w) = true →
        ∃ t, exec (.vfcvt d a x k fs) s = .next t ∧ OnlyMe s t ∧
          (∀ n, (∀ j, isActive s.me k j = true → n ≠ d.toNat + j * ((codeWidth (fwFD w)).getD 8) / 16384) → n ≠ fwZD w →
            t.me.getV n = s.me.getV n) ∧
          t.me.vstat &&& s.me.vstat = s.me.vstat ∧
          WentOn s.me { t.me with v := s.me.v, marks := s.me.marks, vstat := s.me.vstat, vbank := s.me.vbank } (s.me.pc + 4#64) ∧
          ∀ f, fmtOf (fwFD w) = some (.bfp f) →
            let lanes (b : Nat) : List Nat := (s.me.lanes k).filter (fun i => i / 32 == b)
            let block (b : Nat) : List Nat × Nat × Flags := quantBlock f r.rm (sourceMax (fwFA w))
              ((lanes b).map (fun i => (s.me.fval a (fwFA w) (fwZA w) r.ftz i, laneDraw s.me r i)))
            t.me.vstat = s.me.vstat ||| flagsOr ((List.range 64).map (fun b => (block b).2.2)) ∧
              ((∀ j, isActive s.me k j = true → fwZD w ≠ d.toNat + j * fmtWidth (.bfp f) / 16384) →
                (∀ i, i < 2048 → isActive s.me k i = true → ∃ e, (i, e) ∈ (lanes (i / 32)).zip (block (i / 32)).1 ∧
                  t.me.elem ⟨d.toNat, fmtWidth (.bfp f)⟩ i = e % 2 ^ fmtWidth (.bfp f)) ∧
                ∀ b, b < 64 → t.me.elem ⟨fwZD w, 32⟩ b =
                  if lanes b = [] then s.me.elem ⟨fwZD w, 32⟩ b else (block b).2.1 % 2 ^ 32))) ∧
  (
    ∀ (s : State) (d a : BitVec 5) (x : BitVec 1) (k fs : BitVec 3),
      let w := s.me.formatWord fs
      let r := roundOf w
      let fa := fwFA w
      let W := fmtWidth (.float (floatFmt fa))
      let h := floatFmt fa
      let raw (j : Nat) : Nat := s.me.elem ⟨a.toNat, W⟩ j % 2 ^ h.width
      let quiet (f : Nat → Nat) (j : Nat) : Nat × Flags :=
        let v := decodeFloat h false (raw j)
        if v.isNan then (nanOf h, if v.isSig then 1#5 else 0#5) else (f j, 0#5)
      (FloatReady s.me w [⟨a, fa, isFloatCode fa, true, false⟩, ⟨d, fwFD w, isFloatCode fa && fwFD w == fa, false, true⟩] (maskOnly k []) →
        WritesFloats (.vfneg d a x k fs) s ⟨d.toNat, W⟩ k { r with rm := 0#3 } (fun j _ => quiet (fun j => raw j ^^^ 2 ^ (h.width - 1)) j) ∧
        WritesFloats (.vfabs d a x k fs) s ⟨d.toNat, W⟩ k { r with rm := 0#3 } (fun j _ => quiet (fun j => raw j % 2 ^ (h.width - 1)) j) ∧
        WritesFloats (.vfcvti d a x k fs) s ⟨d.toNat, W⟩ k r (fun j g =>
          let v := decodeFloat h r.ftz (raw j)
          if v.isNan then (nanOf h, if v.isSig then 1#5 else 0#5) else integral h r (raw j) v g)) ∧
      (FloatReady s.me w [⟨a, fa, isSourceCode fa, true, false⟩]
          { maskOnly k (scaleReads fa (fwZA w)) with dsts := [s.me.sewOp d] } →
        WritesLanes (.vfclass d a x k fs) s (s.me.sewOp d) (fun j => if isActive s.me k j then
          some (classOf (s.me.fval a fa (fwZA w) r.ftz j) (subEncoding fa (s.me.elem ⟨a.toNat, (codeWidth fa).getD s.me.sewBits⟩ j)))
          else none)))

/-- R270: the integer reductions write element 0 with the sum modulo 2^SEW, the extreme value, or the start value where no element is active,
and zeros elsewhere in D's group. R270, R78: a floating reduction of one active element rounds that element to FD, and of none writes +0
for the sum, −∞ for the maximum and +∞ for the minimum; of more it writes the top of R78's tree, each node rounded to FD by RNE, with the
flags of every node. -/
def Obligations.VectorReductions : Prop :=
  (
    ∀ (s : State) (d a : BitVec 5) (x : BitVec 1) (k : BitVec 3),
      vGate s.me (sewForm s.me [a] d k) = .go →
      let w := s.me.sewBits
      let l := (s.me.lanes k).map (fun j => s.me.elem (s.me.sewOp a) j)
      let sg (n : Nat) : Int := (BitVec.ofNat w n).toInt
      Reduces (.vredsum d a x k) s (s.me.sewOp d) l.sum 0#5 ∧
      (∃ m, (l = [] → m = 2 ^ (w - 1)) ∧ (l ≠ [] → m ∈ l ∧ ∀ n ∈ l, sg n ≤ sg m) ∧ Reduces (.vredmax d a x k) s (s.me.sewOp d) m 0#5) ∧
      (∃ m, (l = [] → m = 2 ^ (w - 1) - 1) ∧ (l ≠ [] → m ∈ l ∧ ∀ n ∈ l, sg m ≤ sg n) ∧ Reduces (.vredmin d a x k) s (s.me.sewOp d) m 0#5) ∧
      (∃ m, (l = [] → m = 0) ∧ (l ≠ [] → m ∈ l ∧ ∀ n ∈ l, n ≤ m) ∧ Reduces (.vredmaxu d a x k) s (s.me.sewOp d) m 0#5) ∧
      (∃ m, (l = [] → m = 2 ^ w - 1) ∧ (l ≠ [] → m ∈ l ∧ ∀ n ∈ l, m ≤ n) ∧ Reduces (.vredminu d a x k) s (s.me.sewOp d) m 0#5)) ∧
  (
    ∀ (s : State) (d a : BitVec 5) (x : BitVec 1) (k fs : BitVec 3),
      let w := s.me.formatWord fs
      let h := floatFmt (fwFD w)
      let o : VOp := ⟨d.toNat, h.width⟩
      let inf := (2 ^ h.ebits - 1) * 2 ^ h.mbits
      let one (j : Nat) : Nat × Flags :=
        encodeResult (.float h) { roundOf w with rm := 0#3 } 0 (s.me.fval a (fwFA w) (fwZA w) (w.getLsbD 28) j)
      FloatReady s.me w [⟨a, fwFA w, isSourceCode (fwFA w), true, false⟩, ⟨d, fwFD w, isWideCode (fwFD w), false, true⟩]
        (maskOnly k (scaleReads (fwFA w) (fwZA w))) →
      ∀ p ∈ ([(.vfredsum, 0, addV false), (.vfredmax, 2 ^ (h.width - 1) + inf, maxV), (.vfredmin, inf, minV)] :
          List ((BitVec 5 → BitVec 5 → BitVec 1 → BitVec 3 → BitVec 3 → Instr) × Nat × (FVal → FVal → FVal × Flags))),
        let rne (v : FVal) : Nat × Flags := encodeResult (.float h) { roundOf w with rm := 0#3 } 0 v
        let node (x y : FVal) : FVal × Flags :=
          (decodeFloat h false (rne (p.2.2 x y).1).1, (p.2.2 x y).2 ||| (rne (p.2.2 x y).1).2)
        let leaf (j : Nat) : Option FVal :=
          if isActive s.me k j then some (s.me.fval a (fwFA w) (fwZA w) (w.getLsbD 28) j) else none
        (s.me.lanes k = [] → Reduces (p.1 d a x k fs) s o p.2.1 0#5) ∧
        (∀ j, s.me.lanes k = [j] → Reduces (p.1 d a x k fs) s o (one j).1 (one j).2) ∧
        (∀ n v fl, n ≤ 11 → s.me.vl.toNat ≤ 2 ^ n → treeNode node leaf n 0 = (some v, fl) →
          Reduces (p.1 d a x k fs) s o (rne v).1 (fl ||| (rne v).2)) ∧
        (∃ e fl, Reduces (p.1 d a x k fs) s o e fl))

/-- R271, R272, R274: the permutes and moves read every source element first and write the active elements of D: VPERM and VSLIDEDN give 0
where the source index is not below VL, VSLIDEUP keeps the elements below its amount, VCOMPRESS fills the rest below VL with zeros, VEXPAND
spreads the lowest elements over the active lanes, VIOTA numbers the active lanes, VSPLAT copies the low bits of s[a] and VSEL chooses by
the mask. R273, R274, R275: VRIX and VRIXW name registers by number, a number of 128 or more in an active lane raises REGGROUP with the
lane as INDEX before anything is written, and VMVI and VMVO raise it with INDEX 0; VEXT and VINS move one element between a vector and a
scalar register; VMVI and VMVO copy a whole register. That VRIX and VRIXW raise REGGROUP before any poison mark is looked at, one of the
index register or of the mask too, is the model's reading of the order of faults (Assumption 57), and that VMVI and VMVO raise it with VL 0
too is its choice (Assumption 61); neither is what R273 or R275 says. -/
def Obligations.VectorPermutesAndMoves : Prop :=
  (
    ∀ (s : State) (d a b : BitVec 5) (x y : BitVec 1) (k : BitVec 3),
      let u := s.me
      let vl := u.vl.toNat
      let A (j : Nat) : Nat := u.elem (u.sewOp a) j
      let B (j : Nat) : Nat := u.elem (u.sewOp b) j
      let n := (u.getS b).toNat
      let rank (j : Nat) : Nat := (List.range j).countP (fun i => isActive u k i)
      let act (f : Nat → Nat) (j : Nat) : Option Nat := if isActive u k j then some (f j) else none
      (vGate u (sewForm u [a, b] d k) = .go →
        WritesLanes (.vperm d a b x y k) s (u.sewOp d) (act (fun j => if B j < vl then A (B j) else 0)) ∧
        WritesLanes (.vsel d a b x y k) s (u.sewOp d)
          (fun j => if j < vl then some (if (u.getK k.toNat).getLsbD j then A j else B j) else none)) ∧
      (vGate u (sewForm u [a] d k) = .go →
        WritesLanes (.vslideup d a b x k) s (u.sewOp d) (fun j => if isActive u k j && decide (n ≤ j) then some (A (j - n)) else none) ∧
        WritesLanes (.vslidedn d a b x k) s (u.sewOp d) (act (fun j => if j + n < vl then A (j + n) else 0)) ∧
        WritesLanes (.vcompress d a x k) s (u.sewOp d) (fun j => if j < vl then
          some (match (u.lanes k)[j]? with
            | some i => A i
            | none => 0) else none) ∧
        WritesLanes (.vexpand d a x k) s (u.sewOp d) (act (fun j => A (rank j))) ∧
        WritesLanes (.vmv d a x k) s (u.sewOp d) (act A)) ∧
      (vGate u (sewForm u [] d k) = .go →
        WritesLanes (.viota d k) s (u.sewOp d) (act (fun j => rank j % 2 ^ u.sewBits)) ∧
        WritesLanes (.vsplat d a k) s (u.sewOp d) (act (fun _ => (u.getS a).toNat % 2 ^ u.sewBits)))) ∧
  (
    ∀ (s : State) (d a b : BitVec 5) (x y : BitVec 1) (k : BitVec 3),
      let u := s.me
      let A (j : Nat) : Nat := u.elem (u.sewOp a) j
      let B (j : Nat) : Nat := u.elem (u.sewOp b) j
      let e1 := 16384 / u.sewBits
      let lane := (u.getS b).toNat
      (badRegLane u b k = none →
        vGate u ⟨[u.sewOp b], [u.sewOp d], namedRegs u b k, [], [k.toNat], []⟩ = .go →
        vGate u ⟨[u.sewOp b], [u.sewOp d], [], [], [k.toNat], []⟩ = .go →
        WritesLanes (.vrix d b y k) s (u.sewOp d) (fun j => if isActive u k j then some (u.elem ⟨B j, u.sewBits⟩ (j % e1)) else none)) ∧
      (∀ i, badRegLane u b k = some i → u.phase = .running →
        vGate { u with marks := [], badK := [] } ⟨[u.sewOp b], [u.sewOp d], [], [], [k.toNat], []⟩ = .go →
        Traps (.vrix d b y k) s (ownRecord s .regGroup .none 0#64 (BitVec.ofNat 32 i) false)) ∧
      (badRegLane u b k = none →
        vGate u ⟨[u.sewOp a, u.sewOp b], [], [], namedRegs u b k, [k.toNat], []⟩ = .go →
        vGate u ⟨[u.sewOp a, u.sewOp b], [], [], [], [k.toNat], []⟩ = .go →
        ∃ t, exec (.vrixw a b x y k) s = .next t ∧ OnlyMe s t ∧
          (∀ j, isActive u k j = true → (∀ i, j < i → isActive u k i = true → B i = B j → i % e1 ≠ j % e1) →
            t.me.elem ⟨B j, u.sewBits⟩ (j % e1) = A j) ∧
          (∀ n e, e < e1 → (∀ j, isActive u k j = true → ¬ (B j = n ∧ j % e1 = e)) →
            t.me.elem ⟨n, u.sewBits⟩ e = u.elem ⟨n, u.sewBits⟩ e) ∧
          WentOn u { t.me with v := u.v, marks := u.marks } (u.pc + 4#64)) ∧
      (∀ i, badRegLane u b k = some i → u.phase = .running →
        vGate { u with marks := [], badK := [] } ⟨[u.sewOp a, u.sewOp b], [], [], [], [k.toNat], []⟩ = .go →
        Traps (.vrixw a b x y k) s (ownRecord s .regGroup .none 0#64 (BitVec.ofNat 32 i) false)) ∧
      (vGate u ⟨[u.sewOp a], [], [], [], [], []⟩ = .go →
        YieldsS (.vext d a b x) s d (if lane < u.vl.toNat then BitVec.ofNat 64 (A lane) else 0#64) (u.pc + 4#64)) ∧
      (vGate u ⟨[], [u.sewOp d], [], [], [], []⟩ = .go →
        WritesLanes (.vins d a b) s (u.sewOp d)
          (fun j => if j = lane ∧ j < u.vl.toNat then some ((u.getS a).toNat % 2 ^ u.sewBits) else none)) ∧
      ((u.getS a).toNat < 128 → vGate u ⟨[], [], [(u.getS a).toNat], [d.toNat], [], []⟩ = .go →
        WritesReg (.vmvi d a) s d.toNat (u.getV (u.getS a).toNat)) ∧
      ((u.getS d).toNat < 128 → vGate u ⟨[], [], [a.toNat], [(u.getS d).toNat], [], []⟩ = .go →
        WritesReg (.vmvo d a x) s (u.getS d).toNat (u.getV a.toNat)) ∧
      (128 ≤ (u.getS a).toNat → u.phase = .running → Traps (.vmvi d a) s (ownRecord s .regGroup .none 0#64 0#32 false)) ∧
      (128 ≤ (u.getS d).toNat → u.phase = .running → Traps (.vmvo d a x) s (ownRecord s .regGroup .none 0#64 0#32 false)))

/-- R276, R277: the mask forms work on the bits below VL; KPOPC counts the set bits, KFIRST gives the lowest set lane or all ones, KBRKA keeps
the lanes below the lowest set bit and KBRKI that lane too; k0 reads all ones; with VL 0 they only move on. -/
def Obligations.MaskForms : Prop :=
  ∀ (s : State) (r : BitVec 5) (d a b : BitVec 3),
    let u := s.me
    let vl := u.vl.toNat
    let A (j : Nat) : Bool := (u.getK a.toNat).getLsbD j
    let B (j : Nat) : Bool := (u.getK b.toNat).getLsbD j
    let put (f : Nat → Bool) (j : Nat) : Option Bool := if j < vl then some (f j) else none
    u.getK 0 = BitVec.allOnes 2048 ∧
    (vGate u ⟨[], [], [], [], [a.toNat, b.toNat], [d.toNat]⟩ = .go →
      WritesMask (.kand d a b) s d (put (fun j => A j && B j)) 0#5 ∧
      WritesMask (.kor d a b) s d (put (fun j => A j || B j)) 0#5 ∧
      WritesMask (.kxor d a b) s d (put (fun j => A j != B j)) 0#5 ∧
      WritesMask (.kandn d a b) s d (put (fun j => A j && !B j)) 0#5) ∧
    (vGate u ⟨[], [], [], [], [a.toNat, a.toNat], [d.toNat]⟩ = .go →
      WritesMask (.kbrka d a) s d (put (fun j => (List.range (j + 1)).all (fun i => !A i))) 0#5 ∧
      WritesMask (.kbrki d a) s d (put (fun j => (List.range j).all (fun i => !A i))) 0#5) ∧
    (vGate u ⟨[], [], [], [], [a.toNat], []⟩ = .go →
      YieldsS (.kpopc r a) s r (BitVec.ofNat 64 ((List.range vl).countP A)) (u.pc + 4#64) ∧
      ((∀ j, j < vl → A j = false) → YieldsS (.kfirst r a) s r (BitVec.allOnes 64) (u.pc + 4#64)) ∧
      (∀ j, j < vl → A j = true → (∀ i, i < j → A i = false) → YieldsS (.kfirst r a) s r (BitVec.ofNat 64 j) (u.pc + 4#64))) ∧
    (u.vl = 0#12 → u.out = [] → u.mq = [] →
      ∀ i ∈ [Instr.kand d a b, .kor d a b, .kxor d a b, .kandn d a b, .kbrka d a, .kbrki d a, .kpopc r a, .kfirst r a], YieldsPc i s (u.pc + 4#64))

/-- R278: GBCAST puts the strip v[a] into the arrival queue of every other living member of the gang, each of which has a free place and a
spare on its core, and goes on: behind all older strips, and among those of the same tick in ascending order of their senders' ranks.
While a place or a spare is lacking it changes nothing. GRECV takes the first strip into v[d], or waits while there is none. -/
def Obligations.GangMulticast : Prop :=
  ∀ (s : State) (d a : BitVec 5) (x : BitVec 1),
    (stripOk s.me a = true → vGate s.me ⟨[], [], [a.toNat], [], [], []⟩ = .go → (gangPeers s s.cur).Nodup →
      (∀ k ∈ gangPeers s s.cur, (s.strand k).strips.length < 4 ∧
        ((gangPeers s s.cur).filter (fun j => coreOf j == coreOf k)).length ≤ sparesFree s (coreOf k)) →
      let strip : Strip := ⟨s.cycle, s.me.rank, s.me.getV a.toNat, []⟩
      ∃ t, exec (.gbcast a x) s = .next t ∧ PackageKept s t ∧ WentOn s.me t.me (s.me.pc + 4#64) ∧
        (∀ k ∈ gangPeers s s.cur,
          ((∀ y ∈ (s.strand k).strips, y.tick ≠ s.cycle ∨ y.rank ≤ s.me.rank) → (t.strand k).strips = (s.strand k).strips ++ [strip]) ∧
          (t.strand k).strips.length = (s.strand k).strips.length + 1 ∧
          (∀ y, y ∈ (t.strand k).strips ↔ y ∈ (s.strand k).strips ∨ y = strip) ∧
          ((s.strand k).strips.Pairwise (fun y z => y.tick = z.tick → y.rank ≤ z.rank) →
            (t.strand k).strips.Pairwise (fun y z => y.tick = z.tick → y.rank ≤ z.rank))) ∧
        (∀ k, k ≠ s.cur → k ∉ gangPeers s s.cur → t.strand k = s.strand k)) ∧
    (stripOk s.me a = true → vGate s.me ⟨[], [], [a.toNat], [], [], []⟩ = .go → stripRoom s (gangPeers s s.cur) = false →
      exec (.gbcast a x) s = .next s) ∧
    (∀ v rest, stripOk s.me d = true → vGate s.me ⟨[], [], [], [d.toNat], [], []⟩ = .go → s.me.strips = v :: rest →
      ∃ t, exec (.grecv d) s = .next t ∧ OnlyMe s t ∧ t.me.strips = rest ∧ t.me.getV d.toNat = v.data ∧
        (∀ n, n ≠ d.toNat → t.me.getV n = s.me.getV n) ∧
        WentOn s.me { t.me with v := s.me.v, marks := s.me.marks, strips := s.me.strips } (s.me.pc + 4#64)) ∧
    (stripOk s.me d = true → vGate s.me ⟨[], [], [], [d.toNat], [], []⟩ = .go → s.me.strips = [] →
      ∃ t, exec (.grecv d) s = .next t ∧ OnlyMe s t ∧ t.me.wait = .grecv ∧ t.me.pc = s.me.pc)

/-- R279, R281, R283: VLD, VLDS, VLDX and VGL whose elements all pass send one load for each active element, ascending, to s[a] + i × n, s[a]
+ i × s[b] or s[a] + B[i] × n, for the element's place in the group; the linked form also asks for the link of each line it keeps. VLDFF
sends the same, and marks those past its first active element, which truncate VL if they fail later. R282: a VLDFF that meets a fault past
its first active element sets VL to that element, loads only the elements below it, and raises nothing; a marked element whose peer
does not answer in time truncates VL likewise. -/
def Obligations.VectorLoadsIssue : Prop :=
  (
    ∀ (s s1 : State) (v a b : BitVec 5) (k w ss : BitVec 3) (c : BitVec 1) (els : List Elem),
      let u := s.me
      let n := u.sewBits / 8
      let plainForm : VForm := ⟨[], [u.sewOp v], [], [], [k.toNat], []⟩
      let indexForm : VForm := ⟨[u.sewOp b], [u.sewOp v], [], [], [k.toNat], []⟩
      let loads (link : Elem → Bool) : List Access := els.map (fun e =>
        elemAccess s1 e n (.vload (v.toNat + e.lane * u.sewBits / 16384) (e.lane * u.sewBits % 16384) (link e)) .vectorLoad ss)
      let at_ (f : Nat → Word) : List (Nat × Word) := (u.todo k).map (fun i => (i, f i))
      let unit (i : Nat) : Word := BitVec.ofNat 64 ((u.getS a).toNat + i * n)
      let stride (i : Nat) : Word := BitVec.ofNat 64 ((u.getS a).toNat + i * (u.getS b).toNat)
      let index (i : Nat) : Word := BitVec.ofNat 64 ((u.getS a).toNat + u.elem (u.sewOp b) i * n)
      (ElementsPass s w ss plainForm n .read acceptsPlain (at_ unit) els s1 →
        IssuesElements (.vld v a k w ss) s s1 ss (loads (fun _ => false)) [] ∧
        IssuesElements (.vldff v a k w ss) s s1 ss ((loads (fun _ => false)).map (fun x => { x with
          ff := decide ((els.map Elem.lane).headD 0 < x.elem) })) [] ∧
        els.map (fun e => (e.lane, e.va)) = at_ unit) ∧
      (ElementsPass s w ss plainForm n .read acceptsPlain (at_ stride) els s1 →
        IssuesElements (.vlds v a b k w ss) s s1 ss (loads (fun _ => false)) []) ∧
      (ElementsPass s w ss indexForm n .read acceptsPlain (at_ index) els s1 →
        IssuesElements (.vldx v a b k w ss c) s s1 ss (loads (fun _ => false)) []) ∧
      (ElementsPass s w ss indexForm n .read acceptsLocal (at_ index) els s1 →
        IssuesElements (.vgl v a b k w ss c) s s1 ss (loads (fun e => (linkLines els).contains (elemLine e))) [])) ∧
  (
    ∀ (s s1 : State) (v a : BitVec 5) (k w ss : BitVec 3) (e0 : Elem) (els : List Elem) (e : Nat) (f : Failure),
      let u := s.me
      let n := u.sewBits / 8
      slotGate u w ss = .ready → vGate u ⟨[], [u.sewOp v], [], [], [k.toNat], []⟩ = .go →
      checkElems s.cur n .read acceptsPlain s ((u.todo k).map (fun i => (i, u.getS a + BitVec.ofNat 64 (i * n)))) = (e0 :: els, some (e, f), s1) →
      (∀ x ∈ e0 :: els, isRemote x.place = false) →
      let s2 := afterFail u.part (sidOf s.cur) f s1
      ∃ t, exec (.vldff v a k w ss) s = .next t ∧ PackageCounted s2 t ∧ t.me.vl = BitVec.ofNat 12 e ∧ t.me.fault = s1.me.fault ∧
        t.me.phase = s1.me.phase ∧ t.me.pc = u.pc + 4#64 ∧
        t.me.out = s2.me.out ++ (e0 :: els).map (fun x =>
          { elemAccess s2 x n (.vload (v.toNat + x.lane * u.sewBits / 16384) (x.lane * u.sewBits % 16384) false) .vectorLoad ss with
            ff := decide (e0.lane < x.lane)
            trunc := some e })) ∧
  (
    ∀ (s : State) (k i : Nat) (a : Access),
      let u := s.strand k
      s.arg.timeout = .access k i → u.out[i]? = some a → a.ff = true → a.blocks = true → a.akind = .vectorLoad → a.sent = true →
      a.since + s.remto ≤ s.cycle → (∀ b ∈ u.out.take i, b.seq ≠ a.seq) →
      ∃ t, exec .remoteTimeout s = .next t ∧ (t.strand k).vl = BitVec.ofNat 12 a.elem ∧ (t.strand k).pc = u.pc + 4#64 ∧
        (t.strand k).phase = u.phase ∧ (t.strand k).fault = u.fault ∧ (t.strand k).out = u.out.filter (fun b => b.seq != a.seq) ∧
        (t.strand k).v = u.v ∧ t.mem = s.mem)

/-- R281, R284: VST, VSTS, VSTX and VSC whose elements all pass send one element write for each active element, counted as unacknowledged
for its lane; memory differs only when each is performed. R285, R188: VAPPEND on a full array adds the active elements to TAIL at the
descriptor, sets OVF, writes no element and puts the old TAIL in s[b]; once its update has been made it writes the elements that fit at
BASE + (start + rank) × n. That a descriptor whose zero bits are not zero is not refused, and that the update keeps bits 63 to 33 of the
word of TAIL and OVF, is the model's choice (Assumption 34). R286, R100: VRRED whose elements all pass sends one request for each line of
one home, at its first element's address, which carries the line's active elements in ascending order, each with its place in the line and
its scale word; no byte of memory differs before they are performed; flags of a part that went before wait for the form's end. R100: where
all its elements lie with one other package, one request carries them all. -/
def Obligations.VectorStoresIssue : Prop :=
  (
    ∀ (s s1 : State) (v a b : BitVec 5) (k w ss : BitVec 3) (c : BitVec 1) (els : List Elem),
      let u := s.me
      let n := u.sewBits / 8
      let plainForm : VForm := ⟨[u.sewOp v], [], [], [], [k.toNat], []⟩
      let indexForm (kw : List Nat) : VForm := ⟨[u.sewOp v, u.sewOp b], [], [], [], [k.toNat], kw⟩
      let value (e : Elem) : Word := BitVec.ofNat 64 (u.elem (u.sewOp v) e.lane)
      let stores : List Access := els.map (fun e => elemAccess s1 e n (.vstore (value e)) .vectorStore ss)
      let at_ (f : Nat → Word) : List (Nat × Word) := (u.todo k).map (fun i => (i, f i))
      let unit (i : Nat) : Word := BitVec.ofNat 64 ((u.getS a).toNat + i * n)
      let stride (i : Nat) : Word := BitVec.ofNat 64 ((u.getS a).toNat + i * (u.getS b).toNat)
      let index (i : Nat) : Word := BitVec.ofNat 64 ((u.getS a).toNat + u.elem (u.sewOp b) i * n)
      scatterFull s1.me (els.map Elem.lane) = false →
      (ElementsPass s w ss plainForm n .write acceptsPlain (at_ unit) els s1 →
        IssuesElements (.vst v a k w ss c) s s1 ss stores (els.map Elem.lane)) ∧
      (ElementsPass s w ss plainForm n .write acceptsPlain (at_ stride) els s1 →
        IssuesElements (.vsts v a b k w ss c) s s1 ss stores (els.map Elem.lane)) ∧
      (ElementsPass s w ss (indexForm []) n .write acceptsPlain (at_ index) els s1 →
        IssuesElements (.vstx v a b k w ss c) s s1 ss stores (els.map Elem.lane)) ∧
      (u.out = [] → u.restart = 0 → ElementsPass s w ss (indexForm [k.toNat]) n .write acceptsLocal (at_ index) els s1 →
        IssuesElements (.vsc v a b k w ss c) s s1 ss
          (els.map (fun e => elemAccess s1 e n (.vsc (value e) k (els.map elemLine)) .vectorStore ss)) (els.map Elem.lane))) ∧
  (
    ∀ (s s1 : State) (v a b : BitVec 5) (k w ss : BitVec 3) (c : BitVec 1) (pa : Nat) (comp : Bool) (els : List Elem) (r : Append),
      let u := s.me
      let n := u.sewBits / 8
      let m := (u.lanes k).length
      let f : VForm := ⟨[u.sewOp v], [], [], [], [k.toNat], []⟩
      let tail := bytesNat (memBytes s1.mem (pa + 16) 4)
      let word := bytesNat (memBytes s1.mem (pa + 16) 8)
      (u.append = none → slotGate u w ss = .ready → vGate u f = .go → scatterFull u (u.lanes k) = false → 0 < m →
        Reaches s (u.getS a) 32 .readWrite acceptsPlain (.mem pa comp) s1 → MayPerform s1 (.mem pa comp) 32 true → u.out = [] →
        bytesNat (memBytes s1.mem (pa + 8) 4) ≤ tail →
        ∃ t, exec (.vappend v a b k w ss c) s = .next t ∧ PackageStored s1 t ∧ OthersKept s1 t s.cur ∧
          Holds t (pa + 16) 8 (min (tail + m) (2 ^ 32 - 1) + 2 ^ 32 + word / 2 ^ 33 * 2 ^ 33) ∧ MemoryKept s1 t (within (pa + 16) 8) ∧
          WroteS s1.me { t.me with sbPend := s1.me.sbPend, sbOwner := s1.me.sbOwner, perfCnt := s1.me.perfCnt } b (BitVec.ofNat 64 tail) (u.pc + 4#64)) ∧
      (u.append = some r → scatterFull s1.me (els.map Elem.lane) = false →
        ElementsPass s w ss f n .write acceptsPlain
          ((((u.lanes k).zip (List.range m)).filter (fun p => decide (u.restart ≤ p.1) && decide (r.start + p.2 < r.cap))).map
            (fun p => (p.1, BitVec.ofNat 64 (r.base + (r.start + p.2) * n)))) els s1 →
        ∃ t, exec (.vappend v a b k w ss c) s = .next t ∧ PackageCounted s1 t ∧ OthersKept s1 t s.cur ∧
          t.me.out = s1.me.out ++ els.map (fun e => elemAccess s1 e n (.vstore (BitVec.ofNat 64 (u.elem (u.sewOp v) e.lane))) .vectorStore ss) ∧
          WroteS s1.me { t.me with
            out := s1.me.out
            perfCnt := s1.me.perfCnt
            unacked := s1.me.unacked
            sbPend := s1.me.sbPend
            sbOwner := s1.me.sbOwner } b (BitVec.ofNat 64 r.start) (u.pc + 4#64))) ∧
  (
    ∀ (s s1 : State) (v a b : BitVec 5) (k w ss : BitVec 3) (c : BitVec 1) (els : List Elem),
      let u := s.me
      let word := u.getS b
      let fa := fwFA word
      let op : VOp := ⟨v.toNat, (codeWidth fa).getD u.sewBits⟩
      let add (e x : Elem) : Nat × BitVec 32 × BitVec 20 := ((placeKey x.place).2 - (placeKey e.place).2,
        BitVec.ofNat 32 (u.elem op x.lane), BitVec.ofNat 20 (u.scaleAt (fwZA word) (x.lane / 32)))
      let request (g : List Elem) : Access :=
        let e := g.headD ⟨0, 0#64, .near 0⟩
        elemAccess s1 e ((placeKey (g.getLastD e).place).2 + 4 - (placeKey e.place).2) (.reduce fa (word.getLsbD 28) (g.map (add e)))
          .vectorStore ss
      fwOk word = true → isSourceCode fa = true → fwFD word = 0x01#8 → u.grouped op = true →
      ElementsPass s w ss ⟨[op], [], scaleReads fa (fwZA word), [], [k.toNat], []⟩ 4 .readWrite acceptsFar
        ((u.todo k).map (fun i => (i, u.getS a + BitVec.ofNat 64 (4 * i)))) els s1 →
      (s1.me.heldFlags = 0#5 →
        ∃ gs : List (List Elem), gs.flatten = els ∧
          (∀ g ∈ gs, ∃ e rest, g = e :: rest ∧
            ∀ x ∈ rest, elemLine x = elemLine e ∧ (placeKey x.place).1 = (placeKey e.place).1) ∧
          (∀ i e f rest more, gs[i]? = some (e :: rest) → gs[i + 1]? = some (f :: more) →
            ¬ (elemLine e = elemLine f ∧ (placeKey e.place).1 = (placeKey f.place).1)) ∧
          IssuesElements (.vrred v a b k w ss c) s s1 ss (gs.map request) []) ∧
      (els ≠ [] → ∃ t, exec (.vrred v a b k w ss c) s = .next t ∧ PackageCounted s1 t ∧ t.me.heldFlags = 0#5 ∧ t.me.vstat = s1.me.vstat)) ∧
  (
    ∀ (s s1 : State) (v a b : BitVec 5) (k w ss : BitVec 3) (c : BitVec 1) (e : Elem) (els : List Elem) (q : BitVec 10) (base : Nat),
      let u := s.me
      let word := u.getS b
      let fa := fwFA word
      let op : VOp := ⟨v.toNat, (codeWidth fa).getD u.sewBits⟩
      let at_ (x : Elem) : Nat := (placeKey x.place).2
      fwOk word = true → isSourceCode fa = true → fwFD word = 0x01#8 → u.grouped op = true → slotGate u w ss = .ready →
      vGate u ⟨[op], [], scaleReads fa (fwZA word), [], [k.toNat], []⟩ = .go →
      checkElems s.cur 4 .readWrite acceptsFar s ((u.todo k).map (fun i => (i, u.getS a + BitVec.ofNat 64 (4 * i)))) = (e :: els, none, s1) →
      q ≠ s1.self → (∀ x ∈ e :: els, x.place = .remote q (at_ x) ∧ base ≤ at_ x) → (∃ x ∈ e :: els, at_ x = base) →
      tagsUsed s1 (dieOf (coreOf s1.cur)) < 4096 →
      ∃ t x, exec (.vrred v a b k w ss c) s = .next t ∧ t.me.out = s1.me.out ++ [x] ∧ x.va = e.va ∧ x.place = .remote q base ∧
        x.tag.isSome = true ∧ x.op = .reduce fa (word.getLsbD 28) ((e :: els).map (fun x =>
          (at_ x - base, BitVec.ofNat 32 (u.elem op x.lane), BitVec.ofNat 20 (u.scaleAt (fwZA word) (x.lane / 32))))) ∧
        t.mem = s1.mem ∧ t.me.pc = u.pc + 4#64)

/-- R106, R211, R212: an acknowledgement that reaches its lane lowers that lane's count by one; a scoreboard slot completes when every access
of its instruction has been performed, in error when a cause was recorded; the flag of STN rises by one, at its home, after its data; and
a vector element that meets poison marks its element. R284: the element write of a VSC reaches memory only when the strand holds the link
on its line; a lane without the link leaves memory as it is. R98: the quarantine of a remote tag ends at its time and the tag is free; a
reply of another generation than the tag's changes nothing but counters. -/
def Obligations.VectorAccessesEnd : Prop :=
  (
    ∀ (s : State),
      let q := s.arg.slot
      let u := s.strand q
      (∀ lane, u.acks[s.arg.idx]? = some lane →
        ∃ t, exec .scatterAck s = .next t ∧ PackageKept s t ∧ (t.strand q).acks = u.acks.eraseIdx s.arg.idx ∧
          ∀ j, tabGet 0 (t.strand q).unacked j = if j = lane then tabGet 0 u.unacked j - 1 else tabGet 0 u.unacked j) ∧
      (∀ j, j = s.arg.num → 1 ≤ j → j < 8 → u.sbPend.getLsbD j = true → (∀ a ∈ u.out, a.seq ≠ tabGet 0 u.sbOwner j) →
        (∀ x ∈ u.sbFail, x.1.toNat ≠ j) →
        ∃ t, exec .scoreboardSlotComplete s = .next t ∧ PackageKept s t ∧ (t.strand q).sbPend.getLsbD j = false ∧
          (∀ l, l ≠ j → (t.strand q).sbPend.getLsbD l = u.sbPend.getLsbD l) ∧ (t.strand q).sbErr = u.sbErr ∧ (t.strand q).evFlag = true) ∧
      (∀ j, j = s.arg.num → 1 ≤ j → j < 8 → u.sbPend.getLsbD j = true → (∀ a ∈ u.out, a.seq ≠ tabGet 0 u.sbOwner j) →
        (∃ x ∈ u.sbFail, x.1.toNat = j) →
        ∃ t, exec .scoreboardSlotComplete s = .next t ∧ (t.strand q).sbPend.getLsbD j = false ∧ (t.strand q).sbErr.getLsbD j = true ∧
          (∀ l, l ≠ j → (t.strand q).sbPend.getLsbD l = u.sbPend.getLsbD l ∧ (t.strand q).sbErr.getLsbD l = u.sbErr.getLsbD l) ∧
          (t.strand q).evFlag = true) ∧
      (∀ a pa comp sc, u.out[s.arg.idx]? = some a → a.op = .flag sc → a.place = .mem pa comp → a.n = 8 → a.blocks = false → a.tag = none →
        u.phase ≠ .free → heldBack (dieOf (coreOf q)) u.out s.arg.idx a = false → performFault s q a = none → underTest s q a.place a.n = false →
        ∃ t, exec .stnFlagIncrement s = .next t ∧ PackageStored s t ∧ MemoryKept s t (within pa 8) ∧
          Holds t pa 8 ((bytesNat (memBytes s.mem pa 8) + 1) % 2 ^ 64)) ∧
      (∀ a reg bit l c pa comp, u.out[s.arg.idx]? = some a → a.op = .vload reg bit l → a.place = .mem pa comp → a.blocks = false →
        a.tag = none → u.phase ≠ .free → heldBack (dieOf (coreOf q)) u.out s.arg.idx a = false → performFault s q a = some c → c ≠ .memLost →
        ∃ t, exec .vectorLoadLateError s = .next t ∧ PackageKept s t ∧ (t.strand q).out = u.out.eraseIdx s.arg.idx ∧
          (⟨reg, bit, 8 * a.n, c, a.va, a.elem⟩ : Mark) ∈ (t.strand q).marks ∧ (t.strand q).v = u.v)) ∧
  (
    ∀ (s : State) (q i n pa : Nat) (v : Word) (k : BitVec 3) (lines : List Nat) (comp : Bool) (a : Access),
      s.arg.slot = q → s.arg.idx = i → (s.strand q).out[i]? = some a → a.op = .vsc v k lines → a.place = .mem pa comp → a.n = n →
      a.blocks = false → a.tag = none → performFault s q a = none → underTest s q a.place a.n = false → (s.strand q).phase ≠ .free →
      heldBack (dieOf (coreOf q)) (s.strand q).out i a = false →
      ∃ t, exec .accessPerformed s = .next t ∧ PackageStored s t ∧ MemoryKept s t (within pa n) ∧
        (t.strand q).acks = (s.strand q).acks ++ [a.elem] ∧
        ((pa / 128) ∈ (s.strand q).links → Holds t pa n (v.toNat % 2 ^ (8 * n))) ∧
        ((pa / 128) ∉ (s.strand q).links → t.mem = s.mem)) ∧
  (
    ∀ (s : State),
      let x := s.tag s.arg.num
      (x.busy = true → x.until_ ≠ 0 → x.until_ ≤ s.cycle →
        ∃ t, exec .tagQuarantineEnd s = .next t ∧ t = { s with tags := t.tags } ∧ (t.tag s.arg.num).busy = false ∧
          (t.tag s.arg.num).gen = x.gen ∧ ∀ k, k ≠ s.arg.num → t.tag k = s.tag k) ∧
      (s.arg.num < 24576 → BitVec.ofNat 6 s.arg.idx ≠ x.gen →
        ∃ t, exec .latereply s = .next t ∧ PackageKept s t ∧ ∀ k, SameButCounts (s.strand k) (t.strand k)))

/-- R289 to R296, R300 to R307: each M instruction joins the M queue with its sources bound in program order, its destination, the registers
it releases, the format word, base, stride, row and captured vector registers as they stand, its tokens, and the plane designations
changed as its form says; nothing else differs. -/
def Obligations.MatrixCommandsIssue : Prop :=
  ∀ (s : State) (d a b : BitVec 5) (l h : BitVec 1) (f : BitVec 3) (y p w : BitVec 2),
    let u := s.me
    let rd := u.mreg d
    let ra := u.mreg a
    let rb := u.mreg b
    let word := u.formatWord f
    let src (r : Nat) : Nat × Source := (r, bindReg u r)
    let rel (x : BitVec 1) (r : Nat) : List Nat := if x = 1#1 then [r] else []
    let A := u.active
    let S := u.shadow
    let za := scaleRegs (fwFA word) (fwZA word)
    let zb := scaleRegs (fwFB word) (fwZB word)
    let zd := scaleRegs (fwFD word) (fwZD word)
    let row := BitVec.ofNat 64 ((u.getS b).toNat % 64)
    let house (i : Instr) (srcs : List (Nat × Source)) (release : List Nat) : Prop :=
      EnqueuesM i s none srcs release 0#64 0#64 0#64 [] [] p w A S
    let tile (i : Instr) (dst : Option Nat) (srcs : List (Nat × Source)) : Prop :=
      EnqueuesM i s dst srcs [] 0#64 (u.getS a) (u.getS b) [] [] p w A S
    let mma (i : Instr) (plane : Option (Nat × Bool)) (old : List (Nat × Source)) (A' S' : Option (Nat × Bool)) : Prop :=
      EnqueuesM i s (some rd) (src ra :: (match plane with
        | some x => src x.1
        | none => (256, Source.zero)) :: old) (rel l ra) word 0#64 0#64 (za ++ zb) [] p w A' S'
    (QueueTakes u [] [] →
      house (.tpref d p w) [src rd] [] ∧ house (.tdrop d p w) [] [rd] ∧ house (.tzero d p w) [] [rd] ∧
      tile (.tloadA d a b y p w) (some rd) [] ∧ tile (.tloadB d a b y p w) (some rd) [] ∧ tile (.tloadC d a b p w) (some rd) [] ∧
      tile (.tstoreA d a b p w) none [src rd] ∧ tile (.tstoreB d a b p w) none [src rd] ∧ tile (.tstoreC d a b p w) none [src rd] ∧
      EnqueuesM (.ttrans d a l p w) s (some rd) [src ra] (rel l ra) 0#64 0#64 0#64 [] [] p w A S ∧
      EnqueuesM (.tadd d a b l h f p w) s (some rd) [src ra, src rb] (rel l ra ++ rel h rb) word 0#64 0#64 [] [] p w A S) ∧
    (QueueTakes u (za ++ zb) [] → (∀ x ∈ u.mq, x.id ≠ s.seq + 1) →
      mma (.tmma d a l f p w) A [src rd] A S ∧ mma (.tmmaSet d a l f p w) A [] A S ∧
      mma (.tmmaSw d a l f p w) S [src rd] S A ∧ mma (.tmmaSetSw d a l f p w) S [] S A) ∧
    (QueueTakes u zb [] →
      EnqueuesM (.twload a l f p w) s none [src ra] (match S with
        | some (r, true) => [r]
        | _ => []) word 0#64 0#64 zb [] p w A (some (ra, decide (l = 1#1)))) ∧
    (QueueTakes u [a.toNat] [] → EnqueuesM (.vtom d a b p w) s (some rd) [src rd] [] 0#64 row 0#64 [a.toNat] [] p w A S) ∧
    (QueueTakes u [] [d.toNat] → EnqueuesM (.mtov d a b l p w) s none [src ra] (rel l ra) 0#64 row 0#64 [] [d.toNat] p w A S) ∧
    (QueueTakes u [] zd →
      EnqueuesM (.tcvt d a l f p w) s (some rd) [src ra] (rel l ra) word 0#64 0#64 [] zd p w A S)

/-- R290, R292: TSHAPE grants the request, each dimension rounded up to its step and kept within its bounds (64 for M and N, the row's
capacity for K), and writes the grant to s[d]; SETMW sets MW to the low byte of s[a]. R39: a write of MSMCFG is finished once the M queue
is empty: within LIM it sets FQ and SF and the strand goes on, a raised SF with further scratch frames that read as zero, and a sum beyond
LIM or an FQ of 0 raises MSM_QUOTA and leaves both. R68: a write of SRSEED reaches the matrix bank once no TCVT appended before it is
queued. -/
def Obligations.MatrixSetup : Prop :=
  (
    ∀ (s : State) (d a : BitVec 5) (f : BitVec 3),
      let word := s.me.formatWord f
      let fa := fwFA word
      let w := (codeWidth fa).getD 8
      let step := if 0x20 ≤ fa.toNat ∧ fa.toNat ≤ 0x22 then 32 else 8
      let A := (s.me.getS a).toNat
      (fwOk word = true → isVectorCode fa = true →
        ∃ t tm tn tk, exec (.tshape d a f) s = .next t ∧ OnlyMe s t ∧ tm % 8 = 0 ∧ tn % 8 = 0 ∧ tk % step = 0 ∧
          8 ≤ tm ∧ tm ≤ 64 ∧ 8 ≤ tn ∧ tn ≤ 64 ∧ step ≤ tk ∧ tk ≤ 4096 / w ∧
          tm = min 64 (max 8 ((A % 2 ^ 8 + 7) / 8 * 8)) ∧
          tn = min 64 (max 8 ((A / 2 ^ 8 % 2 ^ 8 + 7) / 8 * 8)) ∧
          tk = min (4096 / w) (max step ((A / 2 ^ 16 % 2 ^ 12 + (step - 1)) / step * step)) ∧
          t.me.tsh.tm.toNat = tm ∧ t.me.tsh.tn.toNat = tn ∧ t.me.tsh.tk.toNat = tk ∧ t.me.tsh.kb.toNat = tk * w / 8 ∧
          WroteS s.me { t.me with tsh := s.me.tsh } d (BitVec.ofNat 64 (tm + 2 ^ 8 * tn + 2 ^ 16 * tk)) (s.me.pc + 4#64)) ∧
      (fwOk word = false → s.me.phase = .running → Traps (.tshape d a f) s (ownRecord s .format .none 0#64 0#32 false)) ∧
      (∃ t, exec (.setmw a) s = .next t ∧ OnlyMe s t ∧ t.me.mw.toNat = A % 256 ∧
        WentOn s.me { t.me with mw := s.me.mw } (s.me.pc + 4#64))) ∧
  (
    ∀ (s : State) (x : Word),
      let q := s.arg.slot
      let u := s.strand q
      let fq := x.toNat % 512
      let sf := x.toNat / 2 ^ 16 % 512
      (u.wait = .msmcfg x → u.phase = .running → u.mq = [] → u.lim.toNat < fq + sf ∨ fq = 0 →
        ∃ t, exec .msmcfgWrite s = .next t ∧ PackageKept s t ∧ (t.strand q).phase = .parked ∧ (t.strand q).fq = u.fq ∧ (t.strand q).sf = u.sf ∧
          ∃ r, (t.strand q).fault = some r ∧ r.cls = .msmQuota ∧ r.pc = u.pc) ∧
      (u.wait = .msmcfg x → u.phase = .running → u.mq = [] → fq + sf ≤ u.lim.toNat → fq ≠ 0 → (heldFrames s q).length ≤ fq → u.spillq = [] →
        sf ≤ u.scrFrames.length →
        ∃ t, exec .msmcfgWrite s = .next t ∧ PackageKept s t ∧ (t.strand q).fq.toNat = fq ∧ (t.strand q).sf.toNat = sf ∧
          (t.strand q).pc = u.pc + 4#64 ∧ (t.strand q).wait = .none) ∧
      (u.wait = .msmcfg x → u.phase = .running → u.mq = [] → fq + sf ≤ u.lim.toNat → fq ≠ 0 → (heldFrames s q).length ≤ fq → u.spillq = [] →
        u.scrFrames.length ≤ sf → sf ≤ u.scrFrames.length + ((List.range 256).filter (frameFree s (coreOf q))).length →
        (∀ c ∈ u.scratch, c.1 < 32768 * u.scrFrames.length) →
        ∃ t, exec .msmcfgWrite s = .next t ∧ PackageKept s t ∧ (t.strand q).fq.toNat = fq ∧ (t.strand q).sf.toNat = sf ∧
          (t.strand q).scrFrames.length = sf ∧ (t.strand q).scrFrames.take u.scrFrames.length = u.scrFrames ∧ (t.strand q).scratch = u.scratch ∧
          (∀ n, 32768 * u.scrFrames.length ≤ n → memByte (t.strand q).scratch n = 0#8) ∧ (t.strand q).pc = u.pc + 4#64 ∧
          (t.strand q).wait = .none) ∧
      (∀ n rest, u.mseed = (x, n) :: rest → (∀ c ∈ u.mq, c.id ≤ n → ∀ d a l f p w, c.ins ≠ .tcvt d a l f p w) →
        ∃ t, exec .srseedWrite s = .next t ∧ PackageKept s t ∧ (t.strand q).mbank = ⟨x, []⟩ ∧ (t.strand q).mseed = rest ∧
          (t.strand q).vbank = u.vbank))

/-- R52, R54, R55, R289, R380: a started command whose sources are there completes. It leaves the queue; its frame, with the result, is its
destination's, which becomes DIRTY unless the command releases it, and the registers that it releases become ZERO. A command of the array
computes its result and changes no byte of memory; MTOV writes the four rows to its vector register, but not what later instructions have
written of it, and TCVT's flags join VSTAT; a TLOAD whose bytes all lie on this package takes them from memory; a TSTORE whose bytes all
lie on this package stores its rows and no other byte. R305: TTRANS moves element (32 (i / 32) + k mod 32, 32 (k / 32) + i mod 32) of 16
bits to element (i, k). R76, R77, R303: each granted element of TMMA is the old one, or zero in set mode, plus the products over K, wrapped
or, with SAT, clamped to 48 bits for each group of 32, or in ACC48 with each exact group sum and each addition rounded; elements past a
row's capacity count as zero, and other elements keep the old value. R307: TADD adds element by element. R75: ACC48 rounds to 38
significant bits, to the even one at a tie, then to zero below 2^(−510) and to infinity above the largest finite value. R304: VTOM replaces
four rows, modulo 64. R306, R74, R68, R299: TCVT converts each granted element with its lane's draw, or quantises each block and gives its
scale word and slot; every other element is zero. A clamp sets no flag (R303, R307), and every granted element draws (Assumption 47). A
command takes effect as a whole when it completes (Assumption 11). -/
def Obligations.MatrixCommandRetires : Prop :=
  (
    ∀ (s s1 : State) (c : MCommand) (places : List (Run × Place)),
      let q := s.arg.slot
      let u := s1.strand q
      let core := coreOf q
      let home : Prop := ∀ rp ∈ places, isRemote rp.2 = false ∧ underTest s q rp.2 rp.1.n = false ∧ accessFault s1 q rp.2 rp.1.n false = none
      let done (t : State) (data : Tile) : Prop :=
        (∀ x ∈ (t.strand q).mq, x.id ≠ c.id) ∧ (t.strand q).pc = u.pc ∧ (∀ n, (t.strand q).getS n = u.getS n) ∧
        (∀ r ∈ c.release, ((t.strand q).entry r).state = 0#3) ∧
        (∀ r f, c.dst = some r → c.frame = some f → r ∉ c.release →
          ((t.strand q).entry r).state = 4#3 ∧ ((t.strand q).entry r).frame.toNat = f ∧ (frameOf t core f).data = data)
      (s.strand q).mq.find? (fun x => x.id == s.arg.num) = some c → c.started = true → mReady (s.strand q) c = true → tileOrder s q c = true →
      poisonRow s q c = none → poisonRow s1 q c = none → framesTested s q c = false → tilePlaces s q c = .ok (places, s1) →
      (heldFrames s1 q).length ≤ u.fq.toNat →
      (∀ f, c.frame = some f → f < 256 ∧ (frameOf s1 core f).orphan = false ∧ tabHas s1.frames (core * 256 + f) = true) →
      (∀ r ∈ c.dst.toList ++ c.release, holdsFrame (u.entry r).state = true →
        tabHas s1.frames (core * 256 + (u.entry r).frame.toNat) = true ∧ c.frame ≠ some (u.entry r).frame.toNat) →
      (tileForm c.ins = none →
        ∃ t, exec .mCommandRetire s = .next t ∧ done t (resultTile s q c) ∧ t.mem = s.mem ∧
          (∀ d a b l p w, c.ins = .mtov d a b l p w → c.vdst = [d.toNat] →
            let late := tabGet 0#16384 c.vover d.toNat
            (∀ n, n ≠ d.toNat → (t.strand q).getV n = u.getV n) ∧
              ∀ j, j < 4 → slice ((t.strand q).getV d.toNat) (4096 * j) 4096 =
                slice (sourceTile s q (c.src 0)) (4096 * ((c.base.toNat % 64 + j) % 64)) 4096 &&& ~~~(slice late (4096 * j) 4096) |||
                  slice (u.getV d.toNat) (4096 * j) 4096 &&& slice late (4096 * j) 4096) ∧
          (∀ d a l f p w, c.ins = .tcvt d a l f p w →
            let r := tcvtTile c.fmt c.grant u.mbank (sourceTile s q (c.src 0))
            (t.strand q).vstat = u.vstat ||| r.fl ∧ (t.strand q).mbank = r.bank) ∧
          ((∀ d a l f p w, c.ins ≠ .tcvt d a l f p w) → (t.strand q).vstat = u.vstat ∧ (t.strand q).mbank = u.mbank)) ∧
      (∀ lay v, tileForm c.ins = some (lay, v, true) → home →
        ∃ t, exec .mCommandRetire s = .next t ∧ done t (loadTile s1 q places (feedOf s.arg) 0#262144 []).1 ∧ t.mem = s1.mem) ∧
      (∀ lay v, tileForm c.ins = some (lay, v, false) → home → c.dst = none → c.out = false →
        ∃ t, exec .mCommandRetire s = .next t ∧ done t 0#262144 ∧ t.mem = (storeTile q (sourceTile s1 q (c.src 0)) places s1).mem ∧
          MemoryKept s1 t (fun a => ∃ rp ∈ places, ∃ pa comp, rp.2 = .mem pa comp ∧ within pa rp.1.n a))) ∧
  (
    ∀ (a : Tile) (i k : Nat), i < 64 → k < 256 →
      rowElem (ttransTile a) 16 i k = rowElem a 16 (32 * (i / 32) + k % 32) (32 * (k / 32) + i % 32)) ∧
  (
    ∀ (s : State) (q : Nat) (c : MCommand) (d a b : BitVec 5) (l h : BitVec 1) (f : BitVec 3) (p w : BitVec 2),
      let src (i : Nat) : Tile := sourceTile s q (c.src i)
      (c.ins = .tmma d a l f p w ∨ c.ins = .tmmaSw d a l f p w → resultTile s q c = tmmaTile c.fmt c.grant c.vals (src 0) (src 1) (src 2)) ∧
      (c.ins = .tmmaSet d a l f p w ∨ c.ins = .tmmaSetSw d a l f p w →
        resultTile s q c = tmmaTile c.fmt c.grant c.vals (src 0) (src 1) 0#262144) ∧
      (c.ins = .tadd d a b l h f p w → resultTile s q c = taddTile c.fmt (src 0) (src 1)) ∧
      (c.ins = .tcvt d a l f p w → resultTile s q c = (tcvtTile c.fmt c.grant (s.strand q).mbank (src 0)).tile) ∧
      (c.ins = .ttrans d a l p w → resultTile s q c = ttransTile (src 0)) ∧
      (c.ins = .vtom d a b p w → resultTile s q c = vtomTile (nth 0#16384 c.vals 0) (c.base.toNat % 64) (src 0))) ∧
  (
    ∀ (fw : Word) (g : Grant) (zs : List VReg) (a b d : Tile) (i j : Nat), i < 64 → j < 64 → g.tm.toNat ≤ 64 → g.tn.toNat ≤ 64 →
      let K := g.tk.toNat
      let granted := i < g.tm.toNat ∧ j < g.tn.toNat
      let sat := (roundOf fw).sat
      let whole (c : BitVec 8) (x : Tile) (row k : Nat) : Int :=
        let n := (codeWidth c).getD 8
        if 4096 / n ≤ k then 0 else if c.toNat < 0x14 then (BitVec.ofNat n (rowElem x n row k)).toInt else rowElem x n row k
      let A (k : Nat) : Int := whole (fwFA fw) a i k * whole (fwFB fw) b j k
      let group (n : Nat) : Int := ((List.range (min 32 (K - 32 * n))).map (fun k => A (32 * n + k))).sum
      let clamp (x : Int) : Int := max (-(2 ^ 47)) (min (2 ^ 47 - 1) x)
      let start : Int := (BitVec.ofNat 48 (accElem d i j)).toInt
      let real (c : BitVec 8) (z : List VReg) (x : Tile) (row k : Nat) : FVal :=
        let n := (codeWidth c).getD 8
        let t := row * (4096 / n) / 32 + k / 32
        if 4096 / n ≤ k then .fin false 0 0 false
        else match fmtOf c with
          | some (.bfp m) => decodeBfp m (slice (nth 0#16384 z (t / 512)) (32 * (t % 512)) 20).toNat (rowElem x n row k)
          | some y => decodeFmt y (roundOf fw).ftz (rowElem x n row k)
          | none => .fin false 0 0 false
      let za := zs.take (scaleRegs (fwFA fw) (fwZA fw)).length
      let zb := zs.drop (scaleRegs (fwFA fw) (fwZA fw)).length
      let product (k : Nat) : FVal := (mulV (real (fwFA fw) za a i k) (real (fwFB fw) zb b j k)).1
      let sum (n : Nat) : FVal :=
        (List.range (min 32 (K - 32 * n))).foldl (fun x k => (addV false x (product (32 * n + k))).1) (.fin false 0 0 false)
      let plus (x : FVal) : FVal := if x.isZero then .fin false 0 0 false else x
      (¬ granted → accElem (tmmaTile fw g zs a b d) i j = accElem d i j) ∧
      (granted → isIntCode (fwFA fw) = true → isIntCode (fwFB fw) = true → sat = false →
        accElem (tmmaTile fw g zs a b d) i j = (BitVec.ofInt 48 (start + ((List.range K).map A).sum)).toNat) ∧
      (granted → isIntCode (fwFA fw) = true → isIntCode (fwFB fw) = true → sat = true →
        accElem (tmmaTile fw g zs a b d) i j =
          (BitVec.ofInt 48 ((List.range ((K + 31) / 32)).foldl (fun acc n => clamp (acc + group n)) start)).toNat) ∧
      (granted → isIntCode (fwFA fw) = false → isVectorCode (fwFA fw) = true → isVectorCode (fwFB fw) = true →
        accElem (tmmaTile fw g zs a b d) i j = (List.range ((K + 31) / 32)).foldl (fun acc n =>
          (encodeAcc (addV false (decodeAcc acc) (decodeAcc (encodeAcc (plus (sum n))).1)).1).1) (accElem d i j)) ∧
      (fwFA fw = 0x30#8 → accElem (taddTile fw a b) i j = (encodeAcc (addV false (decodeAcc (accElem a i j)) (decodeAcc (accElem b i j))).1).1) ∧
      (fwFA fw = 0x10#8 →
        let x : Int := (BitVec.ofNat 48 (accElem a i j)).toInt + (BitVec.ofNat 48 (accElem b i j)).toInt
        accElem (taddTile fw a b) i j = (BitVec.ofInt 48 (if sat then clamp x else x)).toNat)) ∧
  (
    ∀ (neg : Bool) (m : Nat) (e : Int), 0 < m →
      let L := Nat.log2 m
      let r := 2 * (m % 2 ^ (L - 37))
      let near := m / 2 ^ (L - 37)
      let q := if L ≤ 37 then m * 2 ^ (37 - L)
        else if 2 ^ (L - 37) < r ∨ r = 2 ^ (L - 37) ∧ near % 2 = 1 then near + 1 else near
      let top : Int := e + L + if q = 2 ^ 38 then 1 else 0
      let s := if neg then 2 ^ 47 else 0
      (encodeAcc (.fin neg m e false)).1 =
        if top < -510 then s else if 511 < top then s + 0x7FE000000000 else s + (top + 511).toNat * 2 ^ 37 + (if q = 2 ^ 38 then 0 else q - 2 ^ 37)) ∧
  (
    ∀ (v : VReg) (d : Tile) (row i : Nat), row < 64 → i < 64 →
      slice (vtomTile v row d) (4096 * i) 4096 =
        if (i + 64 - row) % 64 < 4 then slice v (4096 * ((i + 64 - row) % 64)) 4096 else slice d (4096 * i) 4096) ∧
  (
    ∀ (fw : Word) (g : Grant) (bank : Bank) (a : Tile), g.tm.toNat ≤ 64 → g.tn.toNat ≤ 64 → fwFA fw = 0x30#8 ∨ fwFA fw = 0x10#8 →
      let r := roundOf fw
      let c := tcvtTile fw g bank a
      let M := g.tm.toNat
      let N := g.tn.toNat
      let src (i j : Nat) : FVal × Option Int :=
        if fwFA fw = 0x30#8 then (decodeAcc (accElem a i j), none)
        else
          let x := (BitVec.ofNat 48 (accElem a i j)).toInt
          (fvalOfInt x, some x)
      let draw (i j : Nat) : Nat :=
        let lane := (64 * i + j) % 2048
        let first := drawLane bank 2049 lane
        if r.rm ≠ 5#3 then 0 else if i < 32 then first.1 else (drawLane first.2 2049 lane).1
      (∀ f, fmtOf (fwFD fw) = some f → isBfpCode (fwFD fw) = false → f ≠ .acc48 →
        let enc (i j : Nat) : Nat × Flags := encodeFmt f r (draw i j) (src i j).1 (src i j).2
        (∀ i j, i < 64 → j < 4096 / fmtWidth f → rowElem c.tile (fmtWidth f) i j =
          if i < M ∧ j < N then (enc i j).1 % 2 ^ fmtWidth f else 0) ∧
        c.fl = flagsOr ((List.range M).flatMap (fun i => (List.range N).map (fun j => (enc i j).2))) ∧ c.scales = []) ∧
      (∀ f, fmtOf (fwFD fw) = some (.bfp f) →
        let width := fmtWidth (.bfp f)
        let block (i b : Nat) : List Nat × Nat × Flags :=
          quantBlock f r.rm maxFiniteAcc ((List.range (min 32 (N - 32 * b))).map (fun k => ((src i (32 * b + k)).1, draw i (32 * b + k))))
        let slot (i b : Nat) : Nat := i * (4096 / width) / 32 + b
        (∀ i j, i < 64 → j < 4096 / width → rowElem c.tile width i j =
          if i < M ∧ j < N then nth 0 (block i (j / 32)).1 (j % 32) % 2 ^ width else 0) ∧
        c.fl = flagsOr ((List.range M).flatMap (fun i => (List.range ((N + 31) / 32)).map (fun b => (block i b).2.2))) ∧
        c.scales = (List.range M).flatMap (fun i => (List.range ((N + 31) / 32)).map (fun b =>
          (slot i b / 512, slot i b % 512, (block i b).2.1)))))

/-- R54: a fill of FILLING register `m.reg` whose backing area can be read makes it CLEAN with the 32 KiB of its backing area, and counts;
R54: a spill writes the frame to the backing area and leaves the register ABSENT. That a fill takes at least 150 ticks is the least that
spec/05_memories.md gives (Assumption 24). -/
def Obligations.FillsAndSpills : Prop :=
  ∀ (s s1 : State) (m : Move) (pa : Nat) (comp : Bool),
    let q := s.arg.slot
    let u := s.strand q
    let core := coreOf q
    let va := BitVec.ofNat 64 (u.mrbase + m.reg * 32768)
    m.frame < 256 →
    (u.fillq[s.arg.idx]? = some m → m.since + 150 ≤ s.cycle → locate s (ownCtx s q) va 32768 1 .read acceptsLocal = .ok (.mem pa comp, s1) →
      frameTested s core m.frame = false → underTest s q (.mem pa comp) 32768 = false →
      memLost s1 pa = false → memLost s1 (pa + 4096) = false → (u.entry m.reg).state = 2#3 → (u.entry m.reg).frame.toNat = m.frame →
      ∃ t, exec .fillComplete s = .next t ∧ (t.strand q).fillq = u.fillq.eraseIdx s.arg.idx ∧
        ((t.strand q).entry m.reg).state = 3#3 ∧ (t.strand q).fills = u.fills + 1#24 ∧ t.mem = s1.mem ∧
        (frameOf t core m.frame).data = bytesBv 262144 (memBytes s1.mem pa 32768)) ∧
    (u.spillq[s.arg.idx]? = some m → u.sendq = [] → u.mq = [] → frameTested s core m.frame = false → underTest s q (.mem pa comp) 32768 = false →
      (∀ x ∈ u.spillq.take s.arg.idx, x.reg ≠ m.reg) → (∀ x ∈ u.fillq, x.reg ≠ m.reg) →
      locate s (ownCtx s q) va 32768 1 .write acceptsLocal = .ok (.mem pa comp, s1) → memLost s1 pa = false → memLost s1 (pa + 4096) = false →
      (u.entry m.reg).state = 5#3 → (u.entry m.reg).frame.toNat = m.frame →
      ∃ t, exec .spillComplete s = .next t ∧ (t.strand q).spillq = u.spillq.eraseIdx s.arg.idx ∧
        ((t.strand q).entry m.reg).state = 1#3 ∧ (t.strand q).spills = u.spills + 1#24 ∧
        MemoryKept s1 t (within pa 32768) ∧ bytesBv 262144 (memBytes t.mem pa 32768) = (frameOf s1 core m.frame).data)

/-- R206 to R209, R316 to R318: an arrival adds 1 to C and a sector change adds to S, as one update; when C reaches Q with S zero the phase
advances by 1 and C and S become 0. BINIT keeps the phase of a good object and starts it anew; BARR, BEXPARR and PEND return the phase
before their update; BTEST returns the phase and changes nothing; BWAIT goes on when the phase differs and otherwise waits. -/
def Obligations.BarrierForms : Prop :=
  ∀ (s s1 : State) (a b c : BitVec 5) (p w : BitVec 2) (pa : Nat) (comp : Bool) (P : BitVec 4) (Q : BitVec 24) (C : BitVec 32) (S : Int),
    BarrierReady s a p w pa comp s1 → ObjectIs s1 pa P Q C S →
    let dS : Int := ((s.me.getS b).setWidth 40).toInt
    let fits (x : Int) : Prop := -(2 ^ 39) ≤ x ∧ x < 2 ^ 39
    let after (c1 : Nat) (x : Int) (t : State) : Prop :=
      if c1 = Q.toNat ∧ x = 0 then ObjectIs t pa (P + 1#4) Q 0#32 0 else ObjectIs t pa P Q (BitVec.ofNat 32 c1) x
    BarrierDone (.binit a b p w) s s1 pa none P (fun t => ObjectIs t pa P ((s.me.getS b).setWidth 24) 0#32 0) ∧
    (dS ≠ 0 → fits (S + dS) → BarrierDone (.bexp a b p w) s s1 pa none P (after C.toNat (S + dS))) ∧
    (dS = 0 → BarrierDone (.bexp a b p w) s s1 pa none P (fun t => ObjectIs t pa P Q C S)) ∧
    (C.toNat < Q.toNat → BarrierDone (.barr a b p w) s s1 pa (some b) P (after (C.toNat + 1) S)) ∧
    (C.toNat < Q.toNat → BarrierDone (.pend a b p w) s s1 pa (some b) P (after (C.toNat + 1) S)) ∧
    (C.toNat < Q.toNat → fits (S + dS) → BarrierDone (.bexparr a b c p w) s s1 pa (some c) P (after (C.toNat + 1) (S + dS))) ∧
    BarrierDone (.btest a b p w) s s1 pa (some b) P (fun t => ObjectIs t pa P Q C S ∧ t.me.watch = some (.mem pa comp, P)) ∧
    ((s.me.getS b).setWidth 4 ≠ P → BarrierDone (.bwait a b p w) s s1 pa none P (fun t => ObjectIs t pa P Q C S)) ∧
    ((s.me.getS b).setWidth 4 = P → ∃ t, exec (.bwait a b p w) s = .next t ∧ t.me.wait = .bwait (.mem pa comp) (s.me.getS a) P p ∧ t.me.pc = s.me.pc ∧
      t.mem = s1.mem)

/-- R210: a barrier form whose object is not 16-byte aligned raises ALIGN; one whose object has another tag than 0xB7 raises BARRIER_TAG and
leaves every byte and every register as it is; an engine's update of such an object is dropped and recorded in ERRLOG with code 0x07 and the
tag. R206: BINIT writes any object, and gives one of another tag phase 0. -/
def Obligations.BarrierAlignAndTag : Prop :=
  ∀ (s s1 : State) (a b c : BitVec 5) (p w : BitVec 2) (pa : Nat) (comp : Bool), s.me.phase = .running →
    let va := s.me.getS a
    let forms : List Instr := [.bexp a b p w, .barr a b p w, .bexparr a b c p w, .pend a b p w, .btest a b p w, .bwait a b p w]
    ((sTokens s.me p w).isSome = true → va.toNat < 2 ^ 52 → inNear va.toNat = false → va.toNat % 16 ≠ 0 →
      ∀ i ∈ .binit a b p w :: forms, Traps i s (ownRecord s .align .barrier va 0#32 false)) ∧
    (BarrierReady s a p w pa comp s1 → barTag (barRead s1 pa).2 ≠ 0xB7#8 →
      BarrierDone (.binit a b p w) s s1 pa none 0#4 (fun t => ObjectIs t pa 0#4 ((s.me.getS b).setWidth 24) 0#32 0) ∧
      ∀ i ∈ forms, ∃ t r, exec i s = .next t ∧ t.mem = s1.mem ∧ t.me.phase = .parked ∧ t.me.fault = some r ∧ r.cls = .barrierTag ∧
        r.akind = .barrier ∧ r.va = va ∧ r.pc = s.me.pc ∧ ∀ x, t.me.getS x = s.me.getS x) ∧
    (∀ (q : BitVec 6) (sid : BitVec 11) (dA : Nat) (dS : Int), barTag (barRead s pa).2 ≠ 0xB7#8 → dA ≠ 0 ∨ dS ≠ 0 →
      engineBar s q sid (.mem pa comp) dA dS =
        (true, errLog (some q) (dieOfPa pa) sid 0x07 pa (barTag (barRead s pa).2).toNat s))

/-- R318, R334, R335: BWAIT_WAKE ends the wait once the phase differs; at the end of each turn the wait entries look at their objects, and
what an entry finds stands: a phase that differs ends the wait, and a tag that has gone raises BARRIER_TAG; WFE takes the event flag, or
waits for it until its limit, after which the flag is clear; WSB goes on once its slots are ready. -/
def Obligations.WaitsEnd : Prop :=
  ∀ (s : State) (a : BitVec 5) (m : BitVec 7),
    let q := s.arg.slot
    let u := s.strand q
    (∀ pl va v p, u.wait = .bwait pl va v p → u.phase = .running → barTag (barRead s (placeKey pl).2).2 = 0xB7#8 →
      barP (barRead s (placeKey pl).2).1 ≠ v →
      ∃ t, exec .bwaitWake s = .next t ∧ PackageKept s t ∧ (t.strand q).pc = u.pc + 4#64 ∧ (t.strand q).wait = .none) ∧
    (∀ j pl va v p, (s.strand j).wait = .bwait pl va v p →
      let x := barRead s (placeKey pl).2
      ((lookAtWaits s).strand j).wait = if barTag x.2 ≠ 0xB7#8 then .bwaitOver va p false else if barP x.1 ≠ v then .bwaitOver va p true
        else .bwait pl va v p) ∧
    (∀ va p left, u.wait = .bwaitOver va p left → u.phase = .running → ∃ t, exec .bwaitWake s = .next t ∧ PackageKept s t ∧
      (left = true → (t.strand q).phase = .running ∧ (t.strand q).pc = u.pc + 4#64 ∧ (t.strand q).wait = .none) ∧
      (left = false → SlotParked s t q .barrierTag)) ∧
    (s.me.evFlag = true → ∃ t, exec (.wfe a) s = .next t ∧ OnlyMe s t ∧ t.me.evFlag = false ∧
      WentOn s.me { t.me with evFlag := s.me.evFlag } (s.me.pc + 4#64)) ∧
    (s.me.evFlag = false → s.me.wait = .none → ∃ t, exec (.wfe a) s = .next t ∧ OnlyMe s t ∧ t.me.wait = .wfe s.cycle (s.me.getS a) ∧
      t.me.pc = s.me.pc) ∧
    (∀ since n, u.wait = .wfe since n → u.phase = .running → n ≠ 0#64 → since + n.toNat ≤ s.cycle →
      ∃ t, exec .wfeTimeout s = .next t ∧ PackageKept s t ∧ (t.strand q).pc = u.pc + 4#64 ∧ (t.strand q).wait = .none ∧
        (t.strand q).evFlag = false) ∧
    ((∀ j, j < 7 → m.getLsbD j = true → s.me.sbPend.getLsbD (j + 1) = false ∧ s.me.sbErr.getLsbD (j + 1) = false) →
      YieldsPc (.wsb m) s (s.me.pc + 4#64)) ∧
    (s.me.sbPend &&& (m ++ 0#1) ≠ 0#8 → exec (.wsb m) s = .next s)

/-- R118, R121, R320, R321: TOKW takes one token of those pushed before this tick and waits where there is none; TOKP reserves a place, and
its token is there at once when nothing earlier is under way; towards the M queue and towards the C queue; while the count with its
reservations is 15 it waits. GSET resolves the oldest unresolved epoch, the previous one before the current one, and changes nothing where
both are resolved; GRST opens a new one, in place of the current one where that is unresolved and not captured, and waits while the
previous one is unresolved. -/
def Obligations.TokensAndGuards : Prop :=
  ∀ (s : State) (a : BitVec 5) (g : BitVec 4),
    let u := s.me
    let x := u.guard g
    (u.tok.ms ≠ u.tokNew.ms → ∃ t, exec (.tokw 1#2) s = .next t ∧ OnlyMe s t ∧ t.me.tok = { u.tok with ms := u.tok.ms - 1#4 } ∧
      WentOn u { t.me with tok := u.tok } (u.pc + 4#64)) ∧
    (u.tok.cs ≠ u.tokNew.cs → ∃ t, exec (.tokw 2#2) s = .next t ∧ OnlyMe s t ∧ t.me.tok = { u.tok with cs := u.tok.cs - 1#4 } ∧
      WentOn u { t.me with tok := u.tok } (u.pc + 4#64)) ∧
    (u.tok.ms = u.tokNew.ms → exec (.tokw 1#2) s = .next s) ∧
    (u.tok.cs = u.tokNew.cs → exec (.tokw 2#2) s = .next s) ∧
    (u.out = [] → u.sendq = [] → u.tokps = [] → u.tok.sm.toNat + u.tokRes.sm.toNat < 15 →
      ∃ t, exec (.tokp 1#2) s = .next t ∧ PackageCounted s t ∧ t.me.tok = { u.tok with sm := u.tok.sm + 1#4 } ∧ t.me.tokRes = u.tokRes ∧
        t.me.tokNew = { u.tokNew with sm := u.tokNew.sm + 1#4 } ∧ WentOn u { t.me with tok := u.tok, tokNew := u.tokNew } (u.pc + 4#64)) ∧
    (u.tok.sm.toNat + u.tokRes.sm.toNat = 15 → exec (.tokp 1#2) s = .next s) ∧
    (u.out = [] → u.sendq = [] → u.tokps = [] → u.tok.sc.toNat + u.tokRes.sc.toNat < 15 →
      ∃ t, exec (.tokp 2#2) s = .next t ∧ PackageCounted s t ∧ t.me.tok = { u.tok with sc := u.tok.sc + 1#4 } ∧ t.me.tokRes = u.tokRes ∧
        t.me.tokNew = { u.tokNew with sc := u.tokNew.sc + 1#4 } ∧ WentOn u { t.me with tok := u.tok, tokNew := u.tokNew } (u.pc + 4#64)) ∧
    (u.tok.sc.toNat + u.tokRes.sc.toNat = 15 → exec (.tokp 2#2) s = .next s) ∧
    (x.prev = none → x.cVal = none → ∃ t, exec (.gset a g) s = .next t ∧ OnlyMe s t ∧
      t.me.guard g = { x with cVal := some (decide (u.getS a ≠ 0#64)) } ∧ t.me.pc = u.pc + 4#64 ∧
      ∀ h, h ≠ g → t.me.guard h = u.guard h) ∧
    (∀ id, x.prev = some (id, none) → ∃ t, exec (.gset a g) s = .next t ∧ OnlyMe s t ∧
      t.me.guard g = { x with prev := some (id, some (decide (u.getS a ≠ 0#64))) } ∧ t.me.pc = u.pc + 4#64 ∧
      ∀ h, h ≠ g → t.me.guard h = u.guard h) ∧
    (∀ id v, x.prev = some (id, some v) → x.cVal = none → ∃ t, exec (.gset a g) s = .next t ∧ OnlyMe s t ∧
      t.me.guard g = { x with cVal := some (decide (u.getS a ≠ 0#64)) } ∧ t.me.pc = u.pc + 4#64 ∧ ∀ h, h ≠ g → t.me.guard h = u.guard h) ∧
    ((∀ id, x.prev ≠ some (id, none)) → x.cVal ≠ none → ∃ t, exec (.gset a g) s = .next t ∧ OnlyMe s t ∧ WentOn u t.me (u.pc + 4#64)) ∧
    (x.cVal = none → x.cCap = false → ∃ t, exec (.grst g) s = .next t ∧ OnlyMe s t ∧ t.me.guard g = { x with cId := x.cId + 1 } ∧
      t.me.pc = u.pc + 4#64 ∧ ∀ h, h ≠ g → t.me.guard h = u.guard h) ∧
    ((∀ id, x.prev ≠ some (id, none)) → (x.cVal ≠ none ∨ x.cCap = true) → ∃ t, exec (.grst g) s = .next t ∧ OnlyMe s t ∧
      t.me.guard g = ⟨x.cId + 1, none, false, some (x.cId, x.cVal)⟩ ∧ t.me.pc = u.pc + 4#64) ∧
    (x.cVal ≠ none ∨ x.cCap = true → (∃ id, x.prev = some (id, none)) → exec (.grst g) s = .next s)

/-- R8, R311, R121: a copy form joins the C queue with the values that its registers hold, its tokens and its guard's current epoch, and
the strand goes on; while the queue holds 16 commands it changes nothing. R9, R312, R314, R122, R97: COPY_START, when it is the strand's
turn, takes the head of the C queue into flight when it asks nothing of another package; COPY_RETIRE of a CPY or a CPYZ within one sector
writes exactly its destination bytes; a command whose guard is false is dropped; an access of a stream that a peer has not answered for
REMTO ticks fails, its store as a deferred error, and its tags are quarantined, each under its next generation; and a join decrement that
is not answered is dropped. A copy takes effect as a whole when it retires (Assumption 11). -/
def Obligations.CopiesAndTimeouts : Prop :=
  (
    ∀ (s : State) (a b c : BitVec 5) (g : BitVec 4) (p w : BitVec 2),
      let u := s.me
      let enters (i : Instr) (src : Word) : Prop :=
        (u.cq.length < 16 → ∃ t, exec i s = .next t ∧ OnlyMe s t ∧
          t.me.cq = u.cq ++ [⟨i, u.pc, u.getS a, src, u.getS c, u.getS (c + 1#5), captured u g, w, p⟩] ∧
          (∀ h, t.me.guard h = if h = g ∧ g ≠ 0#4 then { u.guard g with cCap := true } else u.guard h) ∧
          WentOn u { t.me with cq := u.cq, guards := u.guards } (u.pc + 4#64)) ∧
        (16 ≤ u.cq.length → exec i s = .next s)
      enters (.cpy a b c g p w) (u.getS b) ∧ enters (.cpyt a b c g p w) (u.getS b) ∧ enters (.cpyz a b c g p w) (u.getS b) ∧
        enters (.mdiscard a c g p w) 0#64) ∧
  (
    ∀ (s s1 s2 : State) (k n pa ps : Nat) (comp cs : Bool),
      let u := s.strand k
      let i := s.arg.idx
      (∀ c rest, s.arg.copySrc = .slot k → u.cq = c :: rest → u.phase = .running → u.wait = .none → c.guard = none → c.pop = 0#2 →
        c.push = 0#2 → c.bar = 0#64 → (∀ a b r g p w, c.ins ≠ .cpyt a b r g p w) → s.mayIssue u.part u.gang = true →
        cTurn s (coreOf k) (k % 4) = true → transferFree s (u.owner k) false (recCq u.rcd).toNat (coreOf k) = true →
        let x : Copy := {
          owner := u.owner k
          orphan := false
          core := coreOf k
          cmd := c
          status := 0#8
          badVa := 0
          bar := none
          tag := none
          near := copyNear c 0#896
          tmap := 0#896
          phase := .run CopyReads.none
          since := s.cycle }
        copyAsks { s.setStrand k { u with cq := rest } with lastC := tabPut 0 s.lastC (coreOf k) (k % 4) } x = [] →
        ∃ t, exec .copyStart s = .next t ∧ t.copies = s.copies ++ [x] ∧ (t.strand k).cq = rest ∧ t.mem = s.mem ∧
          ∀ j, j ≠ k → SameButCounts (s.strand j) (t.strand j)) ∧
      (∀ c, s.copies[i]? = some c → c.phase = .run CopyReads.none → s.tests = [] → c.status = 0#8 → c.bar = none → 0 < n →
        (slice c.cmd.arg 0 40).toNat = n → c.cmd.dst.toNat % 32 + n ≤ 32 →
        let slot := (ownerSlot s c.owner).getD 0
        let ctx := copyCtx s c.owner c.core
        (∀ a b r g p w, c.cmd.ins = .cpyz a b r g p w →
          locate s ctx c.cmd.dst n 1 .write acceptsPlain = .ok (.mem pa comp, s1) → accessFault s slot (.mem pa comp) n false = none →
          ∃ t, exec .copyRetire s = .next t ∧ MemoryKept s1 t (within pa n) ∧ t.copies = s1.copies.eraseIdx i ∧
            ∀ j, j < n → memByte t.mem (pa + j) = slice c.cmd.src (8 * ((c.cmd.dst.toNat + j) % 8)) 8) ∧
        (∀ a b r g p w, c.cmd.ins = .cpy a b r g p w → c.cmd.src.toNat % 32 + n ≤ 32 →
          locate s ctx c.cmd.src n 1 .read acceptsPlain = .ok (.mem ps cs, s1) → accessFault s slot (.mem ps cs) n true = none →
          locate s1 ctx c.cmd.dst n 1 .write acceptsPlain = .ok (.mem pa comp, s2) → accessFault s1 slot (.mem pa comp) n false = none →
          ∃ t, exec .copyRetire s = .next t ∧ MemoryKept s2 t (within pa n) ∧ t.copies = s2.copies.eraseIdx i ∧
            memBytes t.mem pa n = memBytes s.mem ps n)) ∧
      (∀ c rest e, s.arg.slot = k → s.arg.engine = .copy → u.cq = c :: rest → u.phase = .running → u.wait = .none → c.guard = some e →
        e.val = some false → c.pop = 0#2 → c.push = 0#2 →
        ∃ t, exec .guardedCommandDiscard s = .next t ∧ OnlySlot s t k ∧ t.strand k = { u with cq := rest }) ∧
      (∀ a v peer ra x, s.arg.timeout = .access k i → u.out[i]? = some a → a.op = .store v → a.place = .remote peer ra → peer ≠ s.self →
        a.sent = true → a.since + s.remto ≤ s.cycle → a.blocks = false → a.sb = 0#3 → a.tag = some x → u.deferred = none →
        (∀ b ∈ u.out, ∀ sc, b.op ≠ .flag sc) →
        ∃ t, exec .remoteTimeout s = .next t ∧ (t.strand k).out = u.out.eraseIdx i ∧ t.mem = s.mem ∧
          (t.strand k).deferred = some ⟨a.seq, .remoteTimeout, a.va, BitVec.ofNat 32 a.elem, a.akind⟩ ∧
          ∀ y ∈ x :: (s.tag x).more, t.tag y = ⟨(s.tag y).gen + 1#6, true, s.cycle + 2 * s.remto, []⟩) ∧
      (∀ j, s.arg.timeout = .join i → s.joinOps[i]? = some j → j.tag ≠ none → j.since + s.remto ≤ s.cycle →
        ∃ t, exec .remoteTimeout s = .next t ∧ t.joinOps = s.joinOps.eraseIdx i))

/-- R323, R324: a send form whose descriptor is within its limits, with an open source mailbox and a peer that may be reached, enters the
strand's send order with the descriptor as it stands and, for the TSEND forms, its matrix register bound; a descriptor that is misaligned
raises MAILBOX. -/
def Obligations.SendsIssue : Prop :=
  ∀ (s s1 : State) (a b : BitVec 5) (g : BitVec 4) (p w : BitVec 2) (r : Rec64),
    let va := s.me.getS a
    let u := s1.me
    let sends (i : Instr) (bound : Option (Nat × Source)) : Prop :=
      (sdOk bound.isSome r = true → ∃ t, exec i s = .next t ∧ PackageCounted s1 t ∧ (∀ k, k ≠ s1.cur → t.strand k = s1.strand k) ∧
        t.me.sendq = u.sendq ++ [⟨i, u.pc, r, s1.seq + 1, bound, captured u g, p, none, none⟩] ∧
        (∀ x, (t.me.entry x).state = (u.entry x).state ∧ (t.me.entry x).frame = (u.entry x).frame) ∧
        WentOn u { t.me with
          sendq := u.sendq
          guards := u.guards
          tok := u.tok
          tokRes := u.tokRes
          map := u.map } (u.pc + 4#64))
    let tile := some (u.mreg b, bindForSend u (u.mreg b))
    (DescriptorForm s.me va p w → RecordAt s va acceptsFar r s1 → mboxOpen s1 (sdSrcMb r).toNat s.me.part = true →
      peerFault s1 s.me.part (slice (sdDst r) 12 10) = none →
      sends (.msend a g p w) none ∧ sends (.tsend a b g p w) tile ∧ sends (.tsendAdd a b g p w) tile) ∧
    ((sTokens s.me p w).isSome = true → va.toNat % 64 ≠ 0 → s.me.phase = .running →
      Traps (.msend a g p w) s (ownRecord s .mailbox .send va 0#32 false) ∧
      Traps (.tsend a b g p w) s (ownRecord s .mailbox .send va 0#32 false) ∧
      Traps (.tsendAdd a b g p w) s (ownRecord s .mailbox .send va 0#32 false))

/-- R134, R135, R140, R147, R148: a rendezvous send starts by emitting a header with its number, its mailbox's source generation and its
handle; a pull of a staged tile is answered with the bytes asked for, between mailboxes of one package only for the claim that pulls it and
within its received length; the header goes to the peer's receive aperture as one write; and a reply that answers the send, or a silence of
REMTO ticks (PEERLOST, length 0), completes it: the status record, where it has an address, is written and nothing else of memory. -/
def Obligations.SendEngine : Prop :=
  ∀ (s s1 : State) (k pa : Nat) (comp : Bool),
    let u := s.strand k
    let hnd : BitVec 13 := BitVec.ofNat 13 (1024 * dieOf (coreOf k) + s.arg.num)
    (∀ c rest a g p w, s.arg.slot = k → u.sendq = c :: rest → c.ins = .msend a g p w → c.reg = none → c.guard = none → 4096 < sdLen c.desc →
      u.phase ≠ .free → s.arg.num < 1024 → sendSlotTaken s k s.arg.num = false → c.asked = none →
      (∀ x ∈ u.out, c.seq ≤ x.seq) → slice (sdDst c.desc) 12 10 ≠ s.self →
      let box := s.mbox (sdSrcMb c.desc).toNat
      let n := tabGet 0#16 box.nextSeq (sdDst c.desc).toNat
      ∃ t x, ∃ q : Rec64, exec .sendStart s = .next t ∧ t.sends = s.sends ++ [x] ∧ x.hnd = hnd ∧ x.seq = n ∧ x.desc = c.desc ∧ x.sgen = box.sgen ∧
        x.since = s.cycle ∧ tabGet 0#16 (t.mbox (sdSrcMb c.desc).toNat).nextSeq (sdDst c.desc).toNat = n + 1#16 ∧
        t.outbox = s.outbox ++ [.write (slice (sdDst c.desc) 12 10) (apHeader s.self.toNat hnd.toNat) (bvBytes q)] ∧ hdType q = 2#8 ∧
        hdVer q = 1#8 ∧ hdSeq q = n ∧ hdSrcMa q = s.self ++ sdSrcMb c.desc ∧ hdDstMa q = sdDst c.desc ∧ hdCtx q = sdCtx c.desc ∧ hdHnd q = hnd ∧
        hdTag q = sdTag c.desc ∧ hdLen q = sdLen c.desc ∧ hdSgen q = box.sgen ∧
        (t.strand k).sendq = rest ∧ t.mem = s.mem) ∧
    (∀ x, s.sends.find? (fun x => x.hnd.toNat == s.arg.num) = some x → x.kind ≠ 1#8 → x.kind ≠ 2#8 → x.asked = none →
      let bs := (x.data.drop s.arg.idx).take s.arg.area
      (slice (sdDst x.desc) 12 10 = s.self → (∀ kb ∈ s.mailboxes, ∀ c ∈ kb.2.claims, c.st = .pulling → c.msg.peer = s.self → hdHnd c.msg.hdr = x.hnd →
        recvLen c.hole.rcd c.msg.hdr < s.arg.idx + s.arg.area) → exec .pullRequest s = .next s) ∧
      (∀ m c, slice (sdDst x.desc) 12 10 = s.self → c ∈ (s.mbox m).claims → c.st = .pulling → c.msg.peer = s.self → hdHnd c.msg.hdr = x.hnd →
        s.arg.idx + s.arg.area ≤ recvLen c.hole.rcd c.msg.hdr → ∃ t, exec .pullRequest s = .next t ∧
          t.pulled = s.pulled ++ [(x.hnd, s.arg.idx, bs, true)] ∧
        t.outbox = s.outbox ∧ t.mem = s.mem ∧ t.strands = s.strands) ∧
      (slice (sdDst x.desc) 12 10 ≠ s.self →
        ∃ t, exec .pullRequest s = .next t ∧ t.outbox = s.outbox ++ [.answer (slice (sdDst x.desc) 12 10) bs true] ∧
        t.pulled = s.pulled ∧ t.mem = s.mem ∧ t.strands = s.strands)) ∧
    (∀ x h code len, s.arg.sendEnd = .reply h → (hdHnd h).toNat = s.arg.num → s.sends.find? (fun x => replyFits x h) = some x →
      replyCode x h = some (code, len) → x.srcFault = false → x.tag = none → s.tests = [] → sdBar x.desc = 0#64 → sdStat x.desc ≠ 0#64 →
      let s0 := { s with sends := s.sends.filter (fun y => y.hnd != x.hnd) }
      locate s0 (engineCtx x.owner.part) (sdStat x.desc) 16 1 .write acceptsFar = .ok (.mem pa comp, s1) →
      accessFault s1 0 (.mem pa comp) 16 true = none →
      ∃ t, exec .sendComplete s = .next t ∧ t.sends = s1.sends ∧ MemoryKept s1 t (within pa 16) ∧
        Holds t pa 16 ((sdDst x.desc).toNat + 2 ^ 32 * (sdTag x.desc).toNat + 2 ^ 64 * len.toNat + 2 ^ 96 * code.toNat)) ∧
    (∀ x, s.arg.sendEnd = .giveUp → s.sends.find? (fun x => x.hnd.toNat == s.arg.num) = some x → x.since + s.remto ≤ s.cycle → x.tag = none →
      sdBar x.desc = 0#64 → sdStat x.desc = 0#64 →
      exec .sendComplete s = .next { s with sends := s.sends.filter (fun y => y.hnd != x.hnd) }) ∧
    (∀ x, s.arg.sendEnd = .giveUp → s.sends.find? (fun x => x.hnd.toNat == s.arg.num) = some x → x.since + s.remto ≤ s.cycle → x.tag = none →
      x.srcFault = false → s.tests = [] → sdBar x.desc = 0#64 → sdStat x.desc ≠ 0#64 →
      let s0 := { s with sends := s.sends.filter (fun y => y.hnd != x.hnd) }
      locate s0 (engineCtx x.owner.part) (sdStat x.desc) 16 1 .write acceptsFar = .ok (.mem pa comp, s1) →
      accessFault s1 0 (.mem pa comp) 16 true = none →
      ∃ t, exec .sendComplete s = .next t ∧ t.sends = s1.sends ∧ MemoryKept s1 t (within pa 16) ∧
        Holds t pa 16 ((sdDst x.desc).toNat + 2 ^ 32 * (sdTag x.desc).toNat + 2 ^ 96 * 5))

/-- R139, R144, R146, R326, R327: RPOST and RPOSTM claim the first queued message that their record matches, and otherwise join the open
pigeonholes; RCANCEL ends the oldest pigeonhole of its status address with CANCELLED and length 0, and makes its items, of which one that
has no address is skipped: the status record, the update of the barrier with the posted sectors, and the wake; RPROBE reports the first
match and leaves the queue as it is. The source and tag of a cancelled pigeonhole's status are free values (Assumption 5). -/
def Obligations.MailboxForms : Prop :=
  ∀ (s s1 : State) (a b c : BitVec 5) (p w : BitVec 2) (r : Rec64),
    let mb := (slice (s.me.getS a) 0 12).toNat
    let va := s.me.getS b
    let u := s1.me
    let on (t : State) (v : Strand) : Prop :=
      (∀ k, k ≠ s1.cur → t.strand k = s1.strand k) ∧ WentOn u { v with tok := u.tok, tokRes := u.tokRes, tokNew := u.tokNew } (u.pc + 4#64)
    let posts (i : Instr) (rcd : Rec64) : Prop :=
      ((∀ m ∈ (s1.mbox mb).queue, headerMatches m.hdr rcd = false) →
        ∃ t, exec i s = .next t ∧ on t t.me ∧ t.mem = s1.mem ∧ (∀ j, j ≠ mb → t.mbox j = s1.mbox j) ∧
          t.mbox mb = { s1.mbox mb with holes := (s1.mbox mb).holes ++ [⟨rcd, u.owner s1.cur, u.pc⟩] }) ∧
      (∀ l m l2, (s1.mbox mb).queue = l ++ m :: l2 → (∀ x ∈ l, headerMatches x.hdr rcd = false) → headerMatches m.hdr rcd = true →
        ∃ t x, exec i s = .next t ∧ on t t.me ∧ t.mem = s1.mem ∧ x.msg = m ∧ x.hole = ⟨rcd, u.owner s1.cur, u.pc⟩ ∧
          t.mbox mb = { s1.mbox mb with queue := l ++ l2, claims := (s1.mbox mb).claims ++ [x] })
    (mboxOpen s mb s.me.part = true → DescriptorForm s.me va p w → RecordAt s va acceptsFar r s1 →
      (s.me.out = [] → (s1.mbox mb).holes.length < 1024 → phOk false r = true → posts (.rpost a b p w) r) ∧
      (s.me.out = [] → (s1.mbox mb).holes.length < 1024 → phOk true r = true →
        posts (.rpostm a b c p w) (putSlice r 152 8 (BitVec.ofNat 8 (s.me.mreg c)))) ∧
      (phMatchOk r = true →
        ((∀ m ∈ (s1.mbox mb).queue, headerMatches m.hdr r = false) → ∃ t, exec (.rprobe a b c p w) s = .next t ∧ OnlyMe s1 t ∧
          WroteS u { t.me with tok := u.tok, tokRes := u.tokRes, tokNew := u.tokNew } c 0#64 (u.pc + 4#64)) ∧
        (∀ l m l2, (s1.mbox mb).queue = l ++ m :: l2 → (∀ x ∈ l, headerMatches x.hdr r = false) → headerMatches m.hdr r = true →
          ∃ t, exec (.rprobe a b c p w) s = .next t ∧ OnlyMe s1 t ∧
            WroteS u { t.me with tok := u.tok, tokRes := u.tokRes, tokNew := u.tokNew } c
              (BitVec.ofNat 64 (2 ^ 63 + 2 ^ 22 * (hdLen m.hdr % 2 ^ 28) + (hdSrcMa m.hdr).toNat)) (u.pc + 4#64)))) ∧
    (mboxOpen s mb s.me.part = true → (sTokens s.me p w).isSome = true →
      ((∀ x ∈ (s.mbox mb).holes, slice (phStat x.rcd) 0 52 ≠ slice va 0 52) → ∃ t, exec (.rcancel a b p w) s = .next t ∧ OnlyMe s t ∧
        WentOn s.me { t.me with tok := s.me.tok, tokRes := s.me.tokRes, tokNew := s.me.tokNew } (s.me.pc + 4#64)) ∧
      (∀ l x l2, (s.mbox mb).holes = l ++ x :: l2 → (∀ y ∈ l, slice (phStat y.rcd) 0 52 ≠ slice va 0 52) → phStat x.rcd = 0#64 →
        slice va 0 52 = 0#52 → phBar x.rcd = 0#64 → phWdesc x.rcd = 0#64 →
        ∃ t, exec (.rcancel a b p w) s = .next t ∧ t.mem = s.mem ∧ t.mbox mb = { s.mbox mb with holes := l ++ l2 } ∧
          (∀ k, k ≠ s.cur → t.strand k = s.strand k) ∧
          WentOn s.me { t.me with tok := s.me.tok, tokRes := s.me.tokRes, tokNew := s.me.tokNew } (s.me.pc + 4#64)) ∧
      (∀ l x l2 pa comp, (s.mbox mb).holes = l ++ x :: l2 → (∀ y ∈ l, slice (phStat y.rcd) 0 52 ≠ slice va 0 52) →
        slice (phStat x.rcd) 0 52 = slice va 0 52 → s.tests = [] →
        let s0 := { s.updMbox mb (fun m => { m with holes := l ++ l2 }) with fresh := s.fresh + 1 }
        let lists (t : State) : Prop := t.mbox mb = { s.mbox mb with holes := l ++ l2 }
        (phStat x.rcd ≠ 0#64 → phBar x.rcd = 0#64 → phWdesc x.rcd = 0#64 →
          locate s0 (engineCtx x.owner.part) (phStat x.rcd) 16 1 .write acceptsFar = .ok (.mem pa comp, s1) →
          accessFault s1 0 (.mem pa comp) 16 true = none →
          ∃ t, exec (.rcancel a b p w) s = .next t ∧ lists t ∧ MemoryKept s1 t (within pa 16) ∧ Holds t (pa + 8) 8 (4 * 2 ^ 32)) ∧
        (phStat x.rcd = 0#64 → phBar x.rcd ≠ 0#64 → phWdesc x.rcd = 0#64 →
          locate s0 (engineCtx x.owner.part) (phBar x.rcd) 16 16 .readWrite acceptsFar = .ok (.mem pa comp, s1) →
          accessFault s1 0 (.mem pa comp) 16 true = none →
          ∃ t, exec (.rcancel a b p w) s = .next t ∧ lists t ∧
            t.mem = (engineBar s1 x.owner.part x.owner.sid (.mem pa comp) (boolNat (phArrv x.rcd)) (-(holeSectors x.rcd : Int))).2.mem) ∧
        (phStat x.rcd = 0#64 → phBar x.rcd = 0#64 → phWdesc x.rcd ≠ 0#64 →
          tensorAt s0 x.owner.part (phWdesc x.rcd).toNat 64 .read = .ok (pa, comp, s1) →
          let r := bytesBv 512 (homeRead s1 pa 64)
          ctOk r = true → ctNear r = false → phWcell x.rcd < ctCells r → wakeSpace s1 (dieOfPa pa) ≠ 0 →
          ∃ t, exec (.rcancel a b p w) s = .next t ∧ lists t ∧ t.mem = s1.mem ∧
            t.wakes = s1.wakes ++ [mkWake (tensorOf x.owner.part (phWdesc x.rcd).toNat r) pa x.owner.sid none none (phWcell x.rcd)])))

/-- R136 to R145: a header to a closed mailbox is refused with REFUSE; the header that is next claims the first pigeonhole that it matches,
and a rendezvous one is pulled, as far as remote tags are free; a gap that has lasted REMTO ticks closes at the lowest held header; a pull
that is complete is to be landed, and one that has failed ends its claim; a landing in a buffer within one sector writes exactly the
payload; and a retry lands DESTFAULT messages again. The order of the checks of a landing is the model's (Assumption 37), and so are the
source and destination addresses of REFUSE, those of the header exchanged (Assumption 59). -/
def Obligations.ReceiveEngine : Prop :=
  ∀ (s s1 : State) (mb : Nat),
    let i := s.arg.idx
    let box := s.mbox mb
    (∀ peer h bs, s.arg.arrival = .fabric peer h bs → hdType h ≠ 1#8 → headerOk h = true → s.power ≠ .p2 → mb = (slice (hdDstMa h) 0 12).toNat →
      (box.isOpen = false → peer ≠ s.self →
        ∃ q : Rec64, exec .headerArrival s = .next { s with
            seq := s.seq + 1
            outbox := s.outbox ++ [.write peer (apReply s.self.toNat (hdHnd h).toNat) (bvBytes q)] } ∧
          hdType q = 0x12#8 ∧ hdHnd q = hdHnd h ∧ hdSeq q = hdSeq h ∧ hdSgen q = hdSgen h ∧ hdDstMa q = hdSrcMa h ∧ hdSrcMa q = hdDstMa h) ∧
      (∀ q x rest, box.isOpen = true → (s.part box.part).peerSet.getLsbD peer.toNat = true → peer ≠ s.self → box.pairs = [q] →
        q.srcma = hdSrcMa h → q.sgen = hdSgen h → q.held = [] → q.expected = hdSeq h → box.holes = x :: rest → headerMatches h x.rcd = true →
        phKind x.rcd = 0#2 → 0 < recvLen x.rcd h → tagsUsed s (mb % 6) < 4096 →
        let part := min (recvLen x.rcd h) (256 * (4096 - tagsUsed s (mb % 6)))
        ∃ t y, exec .headerArrival s = .next t ∧ (t.mbox mb).holes = rest ∧ (t.mbox mb).claims = box.claims ++ [y] ∧ y.msg.hdr = h ∧ y.hole = x ∧
          y.st = .pulling ∧ y.due = part ∧ t.outbox = s.outbox ++ [.pull peer (apPull (hdHnd h).toNat 0) part] ∧ t.mem = s.mem)) ∧
    (∀ q m, s.arg.mb = mb → i = 0 → box.pairs = [q] → q.held = [m] → q.since + s.remto ≤ s.cycle →
      ∃ t q1, exec .sequenceGapClose s = .next t ∧ (t.mbox mb).pairs = [q1] ∧ q1.srcma = q.srcma ∧ q1.sgen = q.sgen ∧ q1.held = [] ∧
        q1.expected = hdSeq m.hdr + 1#16) ∧
    (∀ c, s.arg.mb = mb → box.claims[i]? = some c → c.st = .pulling → c.msg.peer ≠ s.self →
      (c.asked = true → recvLen c.hole.rcd c.msg.hdr = c.data.length + c.due → s.arg.data.length = c.due →
        ∃ t, exec .pullComplete s = .next t ∧ (∀ j, j ≠ mb → t.mbox j = s.mbox j) ∧ t.mem = s.mem ∧ t.strands = s.strands ∧
          t.mbox mb = { box with claims := setNth box.claims i { c with
            st := .landing
            data := c.data ++ s.arg.data
            asked := false
            due := 0
            tag := none } }) ∧
      (c.asked = true → s.arg.data.length < c.due → exec .pullComplete s = .next s) ∧
      (phKind c.hole.rcd ≠ 0#2 → phStat c.hole.rcd = 0#64 → phBar c.hole.rcd = 0#64 → phWdesc c.hole.rcd = 0#64 →
        ∃ t, exec .pullFail s = .next t ∧ t.mem = s.mem ∧ t.mbox mb = { box with claims := box.claims.eraseIdx i })) ∧
    (∀ c n pa comp, s.arg.mb = mb → box.claims[i]? = some c → c.st = .landing → c.retry = false → c.landed = none → c.asked = false → s.tests = [] →
      phKind c.hole.rcd = 0#2 → 0 < n →
      recvLen c.hole.rcd c.msg.hdr = n → n ≤ c.data.length → (phDest c.hole.rcd).toNat % 32 + n ≤ 32 →
      locate s (engineCtx c.hole.owner.part) (phDest c.hole.rcd) n 1 .write acceptsPlain = .ok (.mem pa comp, s1) →
      accessFault s 0 (.mem pa comp) n false = none → phStat c.hole.rcd = 0#64 → phBar c.hole.rcd = 0#64 → phWdesc c.hole.rcd = 0#64 →
      ∃ t, exec .landing s = .next t ∧ memBytes t.mem pa n = c.data.take n ∧ MemoryKept s1 t (within pa n) ∧
        (t.mbox mb).claims = (s1.mbox mb).claims.eraseIdx i) ∧
    (s.arg.mb = mb → ∃ t, exec .destfaultRetry s = .next t ∧ OnlyMailbox s t mb ∧
      t.mbox mb = { box with claims := box.claims.map (fun c =>
        if c.st = .destFault then { c with st := .landing, retry := true } else c) })

/-- R198, R199, R201, R202, R330, R331, R333: SWP claims its tensor and waits for a delivery; SWAKE, SWAKEV and SWAKEE hand their wakes to
the unit of the descriptor's die; SWNEXT commits the open group and waits for the next one; SWEXIT commits it too and ends the sweep, with
OWNER cleared, SWEEPNO one higher and the error total added to ERRCNT in the descriptor. R201: a commit writes value and context of each
cell of the saved mask from v28 and v29, of the others only a context that the visit changed, and gives the group the code of its contexts;
SWAWK rises by the cells of the mask, and SWERR by those of kinds 5 to 15. -/
def Obligations.SweepForms : Prop :=
  ∀ (s s1 s2 : State) (a b : BitVec 5) (c : BitVec 3) (p w : BitVec 2) (r : Rec64) (pl : Place) (pa : Nat) (comp : Bool),
    let va := s.me.getS a
    let v := s.me.getS b
    let wake (cell : Nat) : Wake :=
      ⟨dieOfPa pa, s.me.part, sidOf s2.cur, va.toNat, (ctBase r).toNat, ctCells r, (ctSkip r).toNat, cell, none, false, false, pa,
        some (s2.me.owner s2.cur), none⟩
    let moved (t : State) (u : Strand) : Prop :=
      (∀ k, k ≠ s2.cur → t.strand k = s2.strand k) ∧ WentOn u { t.me with tok := u.tok, tokRes := u.tokRes, tokNew := u.tokNew } (u.pc + 4#64)
    (DescriptorForm s.me va p w → RecordAt s va acceptsFar r s1 → ctOk r = true → ctNear r = false → s.me.out = [] →
      s.me.handing = [] → descAt s1 s.me.part va.toNat 64 .read = .ok (pl, s2) → ownMem s2 pl = some (pa, comp) →
      0 < wakeSpace s2 (dieOfPa pa) →
      (v.toNat < ctCells r →
        ∃ t, exec (.swake a b p w) s = .next t ∧ t.wakes = s2.wakes ++ [wake v.toNat] ∧ t.mem = s2.mem ∧ moved t s2.me) ∧
      (vGate s.me ⟨[s.me.sewOp b], [], [], [], [c.toNat], []⟩ = .go →
        (∀ j ∈ s.me.lanes c, s.me.elem (s.me.sewOp b) j < ctCells r) → (s.me.lanes c).length ≤ wakeSpace s2 (dieOfPa pa) →
        ∃ t, exec (.swakev a b c p w) s = .next t ∧ t.wakes = s2.wakes ++ (s.me.lanes c).map (fun j => wake (s.me.elem (s.me.sewOp b) j)) ∧
          t.mem = s2.mem ∧ moved t s2.me) ∧
      (
        ∃ t, exec (.swakee a b p w) s = .next t ∧ t.wakes = s2.wakes ∧ t.mem = s2.mem ∧ moved t s2.me ∧
          t.passes = s2.passes ++ [⟨dieOfPa pa, s2.me.part, s2.me.owner s2.cur, va.toNat, (ctBase r).toNat, ctCells r, (ctSkip r).toNat,
            slice v 0 24, 0, pa, none⟩])) ∧
    (DescriptorForm s.me va p w → s.me.swAct = false → v.toNat % 4 = 0 → RecordAt s va acceptsFar r s1 → ctOk r = true → ctNear r = false →
      ctOwner r = 0#64 → s.me.claim = none → descAt s1 s.me.part va.toNat 64 .readWrite = .ok (pl, s2) → ownMem s2 pl = some (pa, comp) →
      ∃ t x, exec (.swp a b p w) s = .next t ∧ MemoryKept s2 t (within (pa + 48) 8) ∧
        bytesBv 64 (memBytes t.mem (pa + 48) 8) = BitVec.ofNat 64 (s.me.saveArea / 2 ^ 19 * 2 ^ 19) ||| 1#64 ∧
        t.me.pc = s2.me.pc ∧ t.me.wait = .sweep ∧ t.me.swAct = true ∧ t.me.swCur = 0#48 ∧ t.me.swAwk = 0#48 ∧ t.me.swErr = 0#32 ∧
        t.me.sweep = some x ∧ x.rule = v ∧ x.ret = s2.me.pc + 4#64 ∧ x.cells = ctCells r ∧ x.cbase = (ctBase r).toNat ∧
        x.skbase = (ctSkip r).toNat ∧ x.desc = va.toNat ∧ x.home = pa ∧ x.vl = s2.me.vl ∧ x.sew = s2.me.sew ∧ x.gm = s2.me.gm ∧
        x.phase = (if ctRescan r = true then .rebuild 0 else .opening 0) ∧ (∀ q, t.me.getS q = s2.me.getS q)) ∧
    (∀ x o, (sTokens s.me p w).isSome = true → s.me.sweep = some x → x.opened = some o → s.me.out = [] → s.me.vBusy 28 = false →
      s.me.vBusy 29 = false → s.me.markTrap [28, 29] = none → s.wakes = [] → s.tests = [] →
      commitGroup (sweepTensor s.me x) o (regWords (s.me.getV 28)) (regWords (s.me.getV 29)) s = .ok s1 →
      (s1.wakes = [] →
        ∃ t y, exec (.swnext p w) s = .next t ∧ t.mem = s1.mem ∧ t.me.wait = .sweep ∧ t.me.pc = s1.me.pc ∧ t.me.sweep = some y ∧
          y.phase = .opening (o.g + 1) ∧ y.opened = none ∧ t.me.swAwk = s1.me.swAwk + BitVec.ofNat 48 (o.mask.filter id).length ∧
          t.me.swErr = s1.me.swErr + BitVec.ofNat 32 o.errs ∧ y.errTotal = x.errTotal + o.errs ∧ (∀ q, t.me.getS q = s1.me.getS q)) ∧
      (s1.wakes = [] → ∃ t s3, exec (.swexit p w) s = .next t ∧ t.me.swAct = false ∧ t.me.sweep = none ∧ t.me.pc = x.ret ∧ t.me.vl = x.vl ∧
        t.me.sew = x.sew ∧ t.me.gm = x.gm ∧ t.me.swAwk = s1.me.swAwk + BitVec.ofNat 48 (o.mask.filter id).length ∧
        t.me.swErr = s1.me.swErr + BitVec.ofNat 32 o.errs ∧ (∀ q, t.me.getS q = s1.me.getS q) ∧ { s3 with strands := s1.strands } = s1 ∧
        t.mem = (closeDescriptor (s1.me.owner s1.cur) { x with errTotal := x.errTotal + o.errs } true s3).mem ∧
        (descAt s3 s1.me.part x.desc 64 .readWrite = .ok (pl, s2) → ownMem s2 pl = some (pa, comp) →
          bytesBv 64 (memBytes t.mem (pa + 48) 8) = 0#64 ∧
            bytesBv 64 (memBytes t.mem (pa + 32) 8) = bytesBv 64 (memBytes s2.mem (pa + 32) 8) + 1#64 ∧
            bytesBv 64 (memBytes t.mem (pa + 40) 8) = bytesBv 64 (memBytes s2.mem (pa + 40) 8) + BitVec.ofNat 64 (x.errTotal + o.errs)))) ∧
    (∀ (x : Tensor) (o : OpenGroup) (a b : VReg), o.n ≤ 512 → commitGroup x o (regWords a) (regWords b) s = .ok s1 →
      let mine (i : Nat) : Bool := nth false o.mask i
      let seen (i : Nat) : BitVec 32 := nth 0#32 o.visited i
      let turned (i : Nat) : Prop := seen i ≠ nth 0#32 o.loaded i
      let last (i : Nat) : Nat := (slice (if mine i then slice b (32 * i) 32 else seen i) 24 4).toNat
      ∃ u mpa mc s4, tensorAt u x.part (x.codeVa o.g) 1 .readWrite = .ok (mpa, mc, s4) ∧ MemoryKept s4 s1 (fun y => y = mpa) ∧
        (∀ h, h / 4 = o.g / 4 → codeOf (memByte s1.mem mpa) h =
          if h ≠ o.g then codeOf (memByte s4.mem mpa) h
          else if ∃ i, i < o.n ∧ last i = 0 then 1#2 else if ∃ i, i < o.n ∧ last i = 1 then 2#2
          else if ∃ i, i < o.n ∧ (last i = 2 ∨ last i = 3) then 0#2 else 3#2) ∧
        ((∀ i, i < o.n → mine i = false ∧ ¬ turned i) → u = s) ∧
        ((∃ i, i < o.n ∧ (mine i = true ∨ turned i)) → ∃ ca cc s3,
          tensorAt s x.part (x.cbase + 4096 * o.g) (8 * o.n) .write = .ok (ca, cc, s3) ∧ MemoryKept s3 u (within ca (8 * o.n)) ∧
          ∀ i, i < o.n →
            (mine i = true → bytesBv 32 (memBytes u.mem (ca + 8 * i) 4) = slice a (32 * i) 32 ∧
              bytesBv 32 (memBytes u.mem (ca + 8 * i + 4) 4) = slice b (32 * i) 32) ∧
            (mine i = false → memBytes u.mem (ca + 8 * i) 4 = memBytes s3.mem (ca + 8 * i) 4) ∧
            (mine i = false → turned i → bytesBv 32 (memBytes u.mem (ca + 8 * i + 4) 4) = seen i) ∧
            (mine i = false → ¬ turned i → memBytes u.mem (ca + 8 * i + 4) 4 = memBytes s3.mem (ca + 8 * i + 4) 4)))

/-- R198, R200, R203, R332: past its last group a sweep ends, with VTYPE and VL as SWP found them; a group coded 00 or 11 is passed over;
one with an awake cell is delivered to the rule, with its values in v28, its visited contexts in v29 and its awake cells in k7, a cell in
SLEEP awake at its last visit and one visit nearer before; one in which no cell is awake is opened, and then committed by the engine alone;
an access of the sweep engine that fails parks the strand at its instruction; a wake at an open group is held, and one at a closed group
sets its cell's context to RUN and its group's code to 01; an event pass moves on by one group, and wakes the cells of a closed one that
wait for its identifier, each cell and the code of its group in one update. A pass that comes from another package tells it when it is over
(Assumption 38). -/
def Obligations.SweepEngine : Prop :=
  ∀ (s s1 s2 : State) (g mpa pa : Nat) (mc comp : Bool),
    let k := s.arg.slot
    let u := s.strand k
    s.tests = [] → s.ends = [] →
    (∀ w, u.phase = .running → u.wait = .sweep → u.out = [] → u.sweep = some w → w.phase = .opening g → s.wakes = [] →
      let x := sweepTensor u w
      (x.groups ≤ g → ∃ t, exec .groupOpen s = .next t ∧ (t.strand k).sweep = none ∧ (t.strand k).swAct = false ∧ (t.strand k).pc = w.ret ∧
        (t.strand k).vl = w.vl ∧ (t.strand k).sew = w.sew ∧ (t.strand k).gm = w.gm ∧ (t.strand k).wait = .none) ∧
      let ctx (i : Nat) : BitVec 32 := bytesBv 32 (memBytes s2.mem (pa + 8 * i + 4) 4)
      let W (i : Nat) : Nat := (slice (ctx i) 24 4).toNat
      let A (i : Nat) : Nat := (slice (ctx i) 0 24).toNat
      let awake (i : Nat) : Bool := decide (W i = 0) || (decide (W i = 1) && decide (A i ≤ 1))
      let seen (i : Nat) : BitVec 32 := if W i ≠ 1 then ctx i else if A i ≤ 1 then slice (ctx i) 28 4 ++ 0#28
        else slice (ctx i) 24 8 ++ BitVec.ofNat 24 (A i - 1)
      let opens (o : OpenGroup) : Prop := o.g = g ∧ o.n = x.size g ∧ o.errs = (List.range (x.size g)).countP (fun i => decide (5 ≤ W i)) ∧
        ∀ i, i < x.size g → nth false o.mask i = awake i ∧ nth 0#32 o.loaded i = ctx i ∧ nth 0#32 o.visited i = seen i
      (g < x.groups → tensorAt s u.part (x.codeVa g) 1 .read = .ok (mpa, mc, s1) →
        codeOf (memByte s1.mem mpa) g = 0#2 ∨ codeOf (memByte s1.mem mpa) g = 3#2 →
        ∃ t, exec .groupOpen s = .next t ∧ t.mem = s1.mem ∧ (t.strand k).sweep = some { w with phase := .opening (g + 1) } ∧
          (t.strand k).wait = .sweep) ∧
      (g < x.groups → tensorAt s u.part (x.codeVa g) 1 .read = .ok (mpa, mc, s1) →
        codeOf (memByte s1.mem mpa) g = 1#2 ∨ codeOf (memByte s1.mem mpa) g = 2#2 →
        tensorAt s1 u.part (x.cbase + 4096 * g) (8 * x.size g) .read = .ok (pa, comp, s2) → (∃ i, i < x.size g ∧ awake i = true) →
        ∃ t o, exec .groupOpen s = .next t ∧ t.mem = s2.mem ∧ (t.strand k).pc = w.rule ∧ (t.strand k).wait = .none ∧ opens o ∧
          (t.strand k).sweep = some { w with opened := some o, phase := .rule } ∧
          (t.strand k).swGrp = BitVec.ofNat 48 g ∧ (t.strand k).swCur = BitVec.ofNat 48 g ∧ (t.strand k).vl = BitVec.ofNat 12 (x.size g) ∧
          (t.strand k).sew = 2#2 ∧ (t.strand k).gm = 0#2 ∧
          (∀ i, i < 512 →
            slice ((t.strand k).getV 28) (32 * i) 32 = (if i < x.size g then bytesBv 32 (memBytes s2.mem (pa + 8 * i) 4) else 0#32) ∧
            slice ((t.strand k).getV 29) (32 * i) 32 = (if i < x.size g then seen i else 0#32)) ∧
          (∀ i, i < 2048 → ((t.strand k).getK 7).getLsbD i = (decide (i < x.size g) && awake i))) ∧
      (g < x.groups → tensorAt s u.part (x.codeVa g) 1 .read = .ok (mpa, mc, s1) →
        codeOf (memByte s1.mem mpa) g = 1#2 ∨ codeOf (memByte s1.mem mpa) g = 2#2 →
        tensorAt s1 u.part (x.cbase + 4096 * g) (8 * x.size g) .read = .ok (pa, comp, s2) → (∀ i, i < x.size g → awake i = false) →
        ∃ t o, exec .groupOpen s = .next t ∧ t.mem = s2.mem ∧ (t.strand k).wait = .sweep ∧ opens o ∧
          (t.strand k).sweep = some { w with opened := some o, phase := .closing }) ∧
      (∀ f, g < x.groups → tensorAt s u.part (x.codeVa g) 1 .read = .error f →
        ∃ t r, exec .sweepEngineFault s = .next t ∧ (t.strand k).phase = .parked ∧ (t.strand k).pc = u.pc ∧ (t.strand k).fault = some r ∧
          r.cls = f.cls ∧ r.akind = .sweep ∧ r.va = BitVec.ofNat 64 f.va ∧ r.index = BitVec.ofNat 32 g ∧ r.eng = true ∧ r.pc = u.pc)) ∧
    (∀ w o, u.phase = .running → u.wait = .sweep → u.out = [] → u.sweep = some w → w.phase = .closing → w.opened = some o → s.wakes = [] →
      commitGroup (sweepTensor u w) o [] [] s = .ok s1 →
      ∃ t, exec .groupOpen s = .next t ∧ t.mem = s1.mem ∧
        (t.strand k).sweep = some { w with opened := none, errTotal := w.errTotal + o.errs, phase := .opening (o.g + 1) }) ∧
    (∀ w rest, s.arg.num = 0 → s.wakes = w :: rest → w.held = false →
      let x := wakeTensor w
      let s0 := { s with wakes := rest }
      (groupOpen s w.home (w.cell / 512) = true → exec .wakeApply s = .next { s with wakes := { w with held := true } :: rest }) ∧
      (groupOpen s w.home (w.cell / 512) = false → w.whole = false → w.event = none →
        tensorAt s0 w.part (x.cbase + 8 * w.cell + 4) 4 .readWrite = .ok (pa, comp, s1) →
        1 ≤ ctxW (bytesBv 32 (memBytes s1.mem pa 4)) → ctxW (bytesBv 32 (memBytes s1.mem pa 4)) ≤ 3 →
        tensorAt s1 w.part (x.codeVa (w.cell / 512)) 1 .readWrite = .ok (mpa, mc, s2) → memByte s2.mem mpa = memByte s1.mem mpa →
        codeOf (memByte s1.mem mpa) (w.cell / 512) ≠ 3#2 → mpa < pa ∨ pa + 4 ≤ mpa →
        ∃ t, exec .wakeApply s = .next t ∧ t.wakes = s2.wakes ∧ MemoryKept s2 t (fun y => within pa 4 y ∨ y = mpa) ∧
          bytesBv 32 (memBytes t.mem pa 4) = ctxRun (bytesBv 32 (memBytes s1.mem pa 4)) ∧
          codeOf (memByte t.mem mpa) (w.cell / 512) = 1#2)) ∧
    (∀ e, s.passes[s.arg.num]? = some e →
      let x : Tensor := ⟨e.part, e.desc, e.cbase, e.cells, e.skbase⟩
      let s0 := { s with passes := setNth s.passes s.arg.num { e with next := e.next + 1 } }
      (x.groups ≤ e.next → e.far = none → exec .swakeePass s = .next { s with passes := s.passes.eraseIdx s.arg.num }) ∧
      (∀ q, x.groups ≤ e.next → e.far = some q → s.wakes = [] → s.passes = [e] →
        exec .swakeePass s = .next { s with passes := [], outbox := s.outbox ++ [.applied q e.owner.sid e.home] }) ∧
      (e.next < x.groups → groupOpen s e.home e.next = true → wakeSpace s e.die ≠ 0 → exec .swakeePass s = .next { s0 with wakes := s0.wakes ++
        [⟨e.die, e.part, e.owner.sid, e.desc, e.cbase, e.cells, e.skbase, 512 * e.next, some e.event, true, true, e.home,
          if e.far.isSome then none else some e.owner, e.far⟩] }) ∧
      (e.next < x.groups → groupOpen s e.home e.next = true → wakeSpace s e.die = 0 → exec .swakeePass s = .next s) ∧
      (e.next < x.groups → groupOpen s e.home e.next = false →
        tensorAt s0 e.part (x.codeVa e.next) 1 .read = .ok (mpa, mc, s1) → codeOf (memByte s1.mem mpa) e.next = 3#2 →
        exec .swakeePass s = .next s1) ∧
      (e.next < x.groups → groupOpen s e.home e.next = false →
        tensorAt s0 e.part (x.codeVa e.next) 1 .read = .ok (mpa, mc, s1) → codeOf (memByte s1.mem mpa) e.next ≠ 3#2 →
        exec .swakeePass s = .next ((List.range (x.size e.next)).foldl (fun v i =>
          wakeCell x e.die e.owner.sid (some e.event) (512 * e.next + i) v) s1))) ∧
    (∀ (x : Tensor) (die c : Nat) (sid : BitVec 11) (event : Option (BitVec 24)),
      tensorAt s x.part (x.cbase + 8 * c + 4) 4 .readWrite = .ok (pa, comp, s1) →
      let ctx : BitVec 32 := bytesBv 32 (memBytes s1.mem pa 4)
      let W := (slice ctx 24 4).toNat
      let hit : Prop := 1 ≤ W ∧ W ≤ 3 ∧ ∀ y, event = some y → W = 3 ∧ slice ctx 0 24 = y
      (¬ hit → wakeCell x die sid event c s = s1) ∧
      (hit → tensorAt s1 x.part (x.codeVa (c / 512)) 1 .readWrite = .ok (mpa, mc, s2) → mpa < pa ∨ pa + 4 ≤ mpa →
        let t := wakeCell x die sid event c s
        let code := codeOf (memByte s2.mem mpa) (c / 512)
        MemoryKept s2 t (fun y => within pa 4 y ∨ y = mpa) ∧
          bytesBv 32 (memBytes t.mem pa 4) = slice ctx 28 4 ++ 0#4 ++ slice ctx 0 24 ∧
          ∀ h, h / 4 = c / 512 / 4 → codeOf (memByte t.mem mpa) h =
            if h = c / 512 ∧ code ≠ 3#2 then 1#2 else codeOf (memByte s2.mem mpa) h))

/-- R180, R336, R337: FORK of a good record writes it at TAIL of the level it asks for, raised to its own level, and advances TAIL; where the
record names a join here, the level is that of the join's PRIO, read at this FORK, where that is lower; EXIT, with
nothing under way, frees the slot and marks its rank retired, and the gang's last EXIT retires the gang. -/
def Obligations.ForkAndExit : Prop :=
  ∀ (s s1 : State) (a : BitVec 5) (p : BitVec 2) (r : Rec64),
    let u := s.me
    let pid := u.part
    let lev := max p.toNat (effective s1 pid u.rcd (recPrio u.rcd).toNat)
    ((u.getS a).toNat % 64 = 0 → RecordAt s (u.getS a) acceptsPlain r s1 → s1.me.part = pid → s1.me.rcd = u.rcd → recordOk r = true →
      recordFits (s1.part pid) r = true → quotaFits (s1.part pid) r = true → recJoin r = 0#52 → knownPrio s1 pid 0 = none →
        joinAsked s1 pid 0 = false → relReady s1.me s1.cur (some .package) = true →
      ringRoom (s1.part pid) lev = true → lev < (s1.part pid).tails.length →
      let at_ := (s1.part pid).entryPa lev ((s1.part pid).tail lev)
      ∃ t, exec (.fork a p) s = .next t ∧ MemoryKept s1 t (within at_ 64) ∧
        bytesBv 512 (memBytes t.mem at_ 64) = recSetPrio r (BitVec.ofNat 2 lev) ∧ (t.part pid).tail lev = (s1.part pid).tail lev + 1#32 ∧
        (t.part pid).heads = (s1.part pid).heads ∧ WentOn s1.me { t.me with links := s1.me.links } (s1.me.pc + 4#64)) ∧
    (∀ (s2 : State) (l : BitVec 2), let join := (recJoin r).toNat
      (u.getS a).toNat % 64 = 0 → RecordAt s (u.getS a) acceptsPlain r s1 → s1.me.part = pid → s1.me.rcd = u.rcd → s1.me.restart = 0 →
      recordOk r = true → recordFits (s1.part pid) r = true → quotaFits (s1.part pid) r = true → recJoin r ≠ 0#52 → inNear join = false →
      joinAt s1 pid join = (.here l, s2) → joinAsked s1 pid join = false → relReady s1.me s1.cur (some .package) = true →
      let q := min (max p.toNat (effective (setPrio s2 pid join l) pid u.rcd (recPrio u.rcd).toNat)) l.toNat
      ringRoom (s1.part pid) q = true → q < (s1.part pid).tails.length →
      ∃ t, exec (.fork a p) s = .next t ∧ (t.part pid).tail q = (s1.part pid).tail q + 1#32 ∧ (t.part pid).heads = (s1.part pid).heads) ∧
    (s.tests = [] → u.sbPend &&& 0xFE#8 = 0#8 → u.sbErr &&& 0xFE#8 = 0#8 → u.out = [] → u.mq = [] → u.sendq = [] → u.cq = [] → u.deferred = none →
      u.sweep = none → s.sends = [] → s.copies = [] → s.mailboxes = [] → s.ends = [] →
      ∀ g, s.gang? u.part u.gang = some g → u.rank < g.slots.length →
      ∃ t, exec .exit s = .next t ∧ (t.strand s.cur).phase = .free ∧
        ((∃ k, k < g.slots.length ∧ k ≠ u.rank ∧ k ∉ g.retired) → (∀ j, j ≠ s.cur → t.strand j = s.strand j) ∧ t.mem = s.mem ∧
          ∃ x, t.gang? u.part u.gang = some x ∧ x.slots = setNth g.slots u.rank none ∧ ∀ k, k ∈ x.retired ↔ k = u.rank ∨ k ∈ g.retired) ∧
        ((∀ k, k < g.slots.length → k ≠ u.rank → k ∈ g.retired) → recJoin g.rcd = 0#52 → t.gang? u.part u.gang = none))

/-- R17, R125, R168, R169, R178: a record at the head of its queue that can be placed starts: each strand of its gang, in its slot and with
its rank, holds what it holds at strand start, its scratch frames among it, and HEAD advances; a gang whose pre-emption is requested halts;
and once its save is over its slot is free, its record is back at the front of its queue, and its image holds its registers. R11 gives the
registers at strand start. The parts of a save record that the spec gives no layout stay in the state (Assumption 16). -/
def Obligations.StartHaltAndSave : Prop :=
  ∀ (s : State) (p : BitVec 6) (k : Nat),
    (∀ l r pl, s.arg.p = p → s.powerHold = false → s.power = .p0 → (s.part p).active = true → moveDue s p = false →
      startable s p = some (l, r, pl) → outbid s p l pl = false → recSaved r = false → pl.Nodup → l < (s.part p).heads.length →
      let none4 : Tokens := ⟨0#4, 0#4, 0#4, 0#4, 0#4, 0#4⟩
      ∃ t g, exec .schedulerServe s = .next t ∧ (t.part p).head l = (s.part p).head l + 1#32 ∧
        g ∈ t.gangs ∧ g.slots = pl.map some ∧ g.part = p ∧ g.preempt = none ∧ g.throttle = 0 ∧ g.since = s.cycle ∧
        ∀ i j, pl[i]? = some j →
          let v := t.strand j
          v.phase = .running ∧ v.gang = g.area ∧ v.part = p ∧ v.rank = i ∧ v.pc = zext64 (recCode r) ∧ v.wait = .none ∧
          recLid v.rcd = recLid r ∧ recGidx v.rcd = recGidx r ∧ recWidth v.rcd = recWidth r ∧ recStage v.rcd = recStage r ∧
          v.getS 1#5 = recFrame r ∧ v.getS 30#5 = BitVec.ofNat 64 (v.member + 0x02000000) ∧
          (∀ x, x ≠ 1#5 → x ≠ 30#5 → v.getS x = 0#64) ∧ (∀ n, v.getV n = 0#16384) ∧ (∀ n, n ≠ 0 → v.getK n = 0#2048) ∧ v.marks = [] ∧
          (∀ n, (v.entry n).state = 0#3 ∧ (v.entry n).frame = 0#8) ∧ v.mq = [] ∧ v.cq = [] ∧ v.sendq = [] ∧ v.out = [] ∧
          v.vstat = 0#5 ∧ v.mw = 0#8 ∧ v.vl = 512#12 ∧ v.sew = 2#2 ∧ v.gm = 0#2 ∧ v.tsh = ⟨64#8, 64#8, 256#12, 512#10⟩ ∧
          v.tok = none4 ∧ v.tokRes = none4 ∧ (∀ n : BitVec 4, (v.guard n).cVal = none ∧ (v.guard n).cCap = false ∧ (v.guard n).prev = none) ∧
          v.sbPend = 0#8 ∧ v.sbErr = 0#8 ∧ v.unacked = [] ∧ v.runtk = 0#64 ∧ v.wdlim = recWdt r ∧
          ((recFq r).toNat + (recSf r).toNat ≤ v.lim.toNat → v.fq = recFq r ∧ v.sf = recSf r) ∧
          (∀ n, memByte v.scratch n = 0#8) ∧
          (pl = [j] → (recFq r).toNat + (recSf r).toNat ≤ v.lim.toNat →
            (recSf r).toNat ≤ ((List.range 256).filter (frameFree s (coreOf j))).length → v.scrFrames.length = (recSf r).toNat)) ∧
    (∀ g, s.gang? s.arg.p s.arg.area = some g → g.slots = [some k] →
      (g.preempt.isSome = true → g.saving = false → (s.strand k).out = [] →
        ∃ t, exec .preemptionHalt s = .next t ∧ t.mem = s.mem ∧ t.gang? g.part g.area = some { g with saving := true } ∧
          (t.strand k).phase = .saving ∧ (t.strand k).pc = (s.strand k).pc ∧ (t.strand k).links = [] ∧ (t.strand k).watch = none ∧
          (∀ j, j ≠ k → t.strand j = s.strand j) ∧ (∀ x, (t.strand k).getS x = (s.strand k).getS x)) ∧
      (g.saving = true → saveReady s k = true → s.joins = [] → recJoin g.rcd = 0#52 → (s.strand k).sf = 0#9 →
        (∀ e ∈ (s.strand k).map, e.2.state ≠ 4#3) → (recPrio g.rcd).toNat < (s.part g.part).heads.length →
        ∃ t x y, exec .saveComplete s = .next t ∧ t.strand k = Strand.empty ∧ t.gang? g.part g.area = some x ∧ x.slots = [none] ∧ x.saving = false ∧
          x.preempt = none ∧ x.images = [(0, y)] ∧ y.pc = (s.strand k).pc ∧ (∀ q, y.getS q = (s.strand k).getS q) ∧
          (∀ n, y.getV n = (s.strand k).getV n) ∧ y.vstat = (s.strand k).vstat ∧ y.fault = (s.strand k).fault ∧
          (t.part g.part).head (recPrio g.rcd).toNat = (s.part g.part).head (recPrio g.rcd).toNat - 1#32))

/-- R16, R23, R124: a record that names a join of a lower level moves behind the records of that level, where its 64 bytes then stand with
the new level, and of memory only entries of the two rings change (that the record leaves its ring by a lower TAIL, HEAD unchanged, is the
model's choice, Assumption 62: the spec fixes TAIL − HEAD alone); a held continuation joins its queue once there is room; and when Yalush
ends a launch that has a PARKED strand whose record it has and may settle so, its strands are freed, its gangs retire and the launch is
gone. What a launch end does to accesses under way is the model's reading (Assumption 21). -/
def Obligations.QueueSteps : Prop :=
  ∀ (s : State) (p : BitVec 6),
    (∀ l i q, s.arg.p = p → s.arg.flag = false → dueMove s p s.arg.area = some (l, i, q) → (s.part p).tails.length = 4 →
      (∀ j, j < (s.part p).count l → ringFault s (s.part p) l j = none) →
      ∃ t, exec .priorityInheritanceMove s = .next t ∧ (t.part p).heads = (s.part p).heads ∧
        (t.part p).tail q = (s.part p).tail q + 1#32 ∧ (t.part p).count l + 1 = (s.part p).count l ∧
        (∀ j, j ≠ l → j ≠ q → (t.part p).tail j = (s.part p).tail j) ∧ t.strands.map (fun kt => kt.1) = s.strands.map (fun kt => kt.1) ∧
        let at_ := (s.part p).entryPa q ((s.part p).tail q)
        bytesBv 512 (memBytes t.mem at_ 64) = recSetPrio (ringRec s (s.part p) l i) (BitVec.ofNat 2 q) ∧
        MemoryKept s t (fun y => within at_ 64 y ∨
          ∃ j, j < (s.part p).count l ∧ within ((s.part p).entryPa l ((s.part p).head l + BitVec.ofNat 32 j)) 64 y)) ∧
    (∀ l r rest, s.arg.idx = 0 → s.heldRecs = (p, l, r) :: rest → recJoin r = 0#52 → ringRoom (s.part p) l.toNat = true →
      l.toNat < (s.part p).tails.length →
      let at_ := (s.part p).entryPa l.toNat ((s.part p).tail l.toNat)
      ∃ t, exec .heldContinuationEnqueue s = .next t ∧ t.heldRecs = rest ∧ (t.part p).tail l.toNat = (s.part p).tail l.toNat + 1#32 ∧
        bytesBv 512 (memBytes t.mem at_ 64) = recSetPrio r l ∧ MemoryKept s t (within at_ 64)) ∧
    (∀ lid g k, s.arg.p = p → s.arg.a0.setWidth 32 = lid → (∀ l, l < 4 → (s.part p).count l = 0) → s.heldRecs = [] → s.gangs = [g] → g.part = p →
      recLid g.rcd = lid → g.slots = [some k] → (s.strand k).phase = .parked → (s.strand k).reported = true →
        (s.strand k).fault.any (mayEnd (s.part p)) = true → g.images = [] → (s.strand k).out = [] → (s.strand k).sweep = none → s.mailboxes = [] →
      ∃ t, exec .launchEnd s = .next t ∧ t.gangs = [] ∧ t.strand k = Strand.empty ∧ ∀ x ∈ (t.part p).launches, x.lid ≠ lid)

/-- R160, R161, R165, R167, R361: a strand whose run time has reached WDLIM takes WATCHDOG before its next issue; a pending record joins its
partition's fault queue, in which its 32 bytes stand in memory (where: Assumption 28); and Yalush resumes a PARKED strand: after a TRAP of
its own that names no service with -ENOSYS in s1 at the next instruction, and where the class's policy is not to end the launch at the
same instruction. R163, R165: the resume of a PARKED strand goes on at the next instruction after TRAP and BKPT and at the same
instruction otherwise, clears the pending record and keeps every register. What a0 to a2 of a service are is that of
spec/19_binary_interface.md; which turn resumes is the model's schedule (Assumption 1). -/
def Obligations.FaultsSettled : Prop :=
  (
    ∀ (s : State),
      let k := s.arg.slot
      let u := s.strand k
      (u.phase = .running → u.wdlim ≠ 0#64 → u.wdlim.toNat ≤ u.runtk.toNat → u.out = [] →
        ∃ t, exec .watchdog s = .next t ∧ OnlySlot s t k ∧ SlotParked s t k .watchdog) ∧
      (∀ r, u.fault = some r → u.reported = false → k ≠ 1152 →
        (r.hyp = false → (s.part u.part).faults.length < 2 ^ ((s.part u.part).faultLog + 8) →
          ∃ t, exec .faultRecordAppend s = .next t ∧ (t.part u.part).faults = (s.part u.part).faults ++ [r] ∧ t.hypFaults = s.hypFaults ∧
            t.strand k = { u with reported := true, links := (t.strand k).links } ∧
            let at_ := (s.part u.part).faultQ + 32 * ((s.part u.part).faultTail % 2 ^ ((s.part u.part).faultLog + 8))
            MemoryKept s t (within at_ 32) ∧ (inHbm at_ = true → bytesBv 256 (memBytes t.mem at_ 32) = faultBytes r)) ∧
        (r.hyp = true → exec .faultRecordAppend s =
          .next { s.setStrand k { u with reported := true } with hypFaults := s.hypFaults ++ [r] })) ∧
      (∀ r, u.fault = some r → u.reported = true → u.phase = .parked →
        (r.cls = .trap → r.index.toNat ≤ 0xFF → r.index ≠ 1#32 → r.index ≠ 2#32 →
          ∃ t, exec .yalushResume s = .next t ∧ (t.strand k).phase = .running ∧ (t.strand k).fault = none ∧
            (t.strand k).pc = u.pc + 4#64 ∧ (t.strand k).getS 1#5 = BitVec.ofInt 64 (-5) ∧
            (∀ x, x ≠ 1#5 → (t.strand k).getS x = u.getS x) ∧ r ∉ (t.part u.part).faults ∧ t.mem = s.mem) ∧
        (r.cls ≠ .trap → r.cls ≠ .bkpt → r.cls ≠ .scan → policyOf (s.part u.part) r.cls ≠ 0 →
          ∃ t, exec .yalushResume s = .next t ∧ (t.strand k).phase = .running ∧ (t.strand k).fault = none ∧ (t.strand k).pc = u.pc ∧
            (∀ x, (t.strand k).getS x = u.getS x) ∧ r ∉ (t.part u.part).faults ∧ t.mem = s.mem))) ∧
  (
    ∀ (s : State) (k : Nat),
      let u := s.strand k
      let v := (resumeParked s k).strand k
      (∀ j, j ≠ k → (resumeParked s k).strand j = s.strand j) ∧ PackageKept s (resumeParked s k) ∧
      v.phase = .running ∧ v.fault = none ∧ v.evFlag = true ∧
      (∀ r, u.fault = some r → v.pc = if r.cls = .trap ∨ r.cls = .bkpt then u.pc + 4#64 else u.pc) ∧
      (∀ r, v.getS r = u.getS r) ∧ (∀ n, v.getV n = u.getV n) ∧ (∀ n, v.getK n = u.getK n) ∧
      v.vl = u.vl ∧ v.sew = u.sew ∧ v.mw = u.mw ∧ v.vstat = u.vstat ∧ v.restart = u.restart ∧ v.map = u.map ∧ v.tok = u.tok)

/-- R84, R94, R101 to R103: THERM of a core is set and clears; the level of a stack changes until it is 3; a corrected error changes no
register and starts a self-test of an SRAM row; an uncorrected one poisons its sector, outside dead row groups, or its register; and the
end of a self-test withdraws a row that fails for good. That a corrected error leaves a self-test to be ended by a later turn is the
model's form (Assumption 31). -/
def Obligations.HeatAndErrors : Prop :=
  ∀ (s : State),
    let n := s.arg.num
    (n < 288 → ∃ t, exec .msmThermalLimit s = .next t ∧ { t with therm := s.therm } = s ∧ ∀ c, c ∈ t.therm ↔ c = n ∨ c ∈ s.therm) ∧
    (∃ t, exec .msmThermalClear s = .next t ∧ { t with therm := s.therm } = s ∧ ∀ c, c ∈ t.therm ↔ c ∈ s.therm ∧ c ≠ n) ∧
    (n < 12 → s.arg.idx < 4 →
      (slice s.hbmth (2 * n) 2 = 3#2 → exec .hbmThermalLevel s = .next s) ∧
      (slice s.hbmth (2 * n) 2 ≠ 3#2 → ∃ t, exec .hbmThermalLevel s = .next t ∧ { t with hbmth := s.hbmth } = s ∧
        slice t.hbmth (2 * n) 2 = BitVec.ofNat 2 s.arg.idx ∧ ∀ j, j < 12 → j ≠ n → slice t.hbmth (2 * j) 2 = slice s.hbmth (2 * j) 2)) ∧
    (∀ k r, s.arg.ecc = .scalar k r → (s.strand k).phase ≠ .free →
      (∃ t, exec .eccCorrected s = .next t ∧ t.tests = s.tests ++ [(s.arg.ecc, true, s.cycle)] ∧
        ∀ j x, (t.strand j).getS x = (s.strand j).getS x ∧ (t.strand j).badS = (s.strand j).badS) ∧
      (0 < r → r < 32 → ∃ t, exec .uncorrectedError s = .next t ∧ t.tests = s.tests ++ [(s.arg.ecc, false, s.cycle)] ∧
        (∀ x, x ∈ (t.strand k).badS ↔ x = r ∨ x ∈ (s.strand k).badS) ∧ ∀ j x, (t.strand j).getS x = (s.strand j).getS x)) ∧
    (∀ pa, s.arg.ecc = .hbm pa → pa < 0x9000000000 → pa / 32 / 64 ∉ s.deadGroups →
      ∃ t, exec .uncorrectedError s = .next t ∧ t.tests = s.tests ∧ pa / 32 ∈ t.badSectors) ∧
    (∀ e c since, s.tests[s.arg.idx]? = some (e, c, since) →
      (s.arg.flag = false → exec .selfTestComplete s = .next { s with tests := s.tests.eraseIdx s.arg.idx }) ∧
      (∀ k r, s.arg.flag = true → e = .scalar k r →
        ∃ t, exec .selfTestComplete s = .next t ∧ t.tests = s.tests.eraseIdx s.arg.idx ∧ coreOf k ∈ t.deadCores) ∧
      (∀ core f x, s.arg.flag = true → e = .msm core f x → frameBusy s core f = false → scratchOwner s core f = none →
        tabHas s.frames (core * 256 + f) = false →
        ∃ t, exec .selfTestComplete s = .next t ∧ t.tests = s.tests.eraseIdx s.arg.idx ∧ core * 256 + f ∈ t.withdrawn))

/-- R128, R377, R378: over the cap or above 100 degrees one gang's level rises by one, at most every 1,500 ticks, and below both bounds one
falls by one; with every gang at level 3, and not before, a junction of 110 degrees or 10 ms above the cap pre-empts one; the cap lies
between 1,500 and 4,400 watts; after 1,500,000 idle ticks the package enters P2, which a doorbell, an arrival or an enqueued record ends.
R374 to R377, R175: POWER_LOSS enters P3 with memory lost; PACKAGE_RESET returns to bring-up; POWER_GOOD boots firmware and the Yalush
image that verify, waits for recovery where the firmware does not verify and stays in step 4 where the image does not; the recovery window
boots an image that verifies and ignores one that does not; a security alarm is reported, or under the erase policy takes the keys and
every strand. One gang's level rises or falls in one step, and a lost or reset package reads 0 from memory (Assumptions 2, 52, 53). R376:
the controller's measurements are the link's telemetry, and the cap is the link's own, which a reset leaves (Assumption 53). -/
def Obligations.PowerAndBringUp : Prop :=
  (
    ∀ (s : State) (g : Gang),
      let w := s.arg.mb
      let c := s.arg.num
      (s.gangs = [g] → g.bound ≠ [] → g.saving = false →
        (s.capWatts < w ∨ 100 < c → s.throttleTick + 1500 ≤ s.cycle → g.throttle < 3 →
          ∃ t, exec .throttleRaise s = .next t ∧ t.gangs = [{ g with throttle := g.throttle + 1 }] ∧ t.throttleTick = s.cycle ∧
            t.strands = s.strands ∧ t.mem = s.mem) ∧
        (s.cycle < s.throttleTick + 1500 → ∃ t, exec .throttleRaise s = .next t ∧ t.gangs = s.gangs ∧ t.throttleTick = s.throttleTick ∧
          telemetry t = ⟨w, (List.range 6).map (fun d => s.arg.peers.getD d 0), s.hbmth, s.therm⟩) ∧
        (100 * w < 95 * s.capWatts → c < 95 → 0 < g.throttle →
          ∃ t, exec .throttleLower s = .next t ∧ t.gangs = [{ g with throttle := g.throttle - 1 }] ∧ t.powerHold = false ∧
            t.strands = s.strands ∧ t.mem = s.mem) ∧
        (110 ≤ c ∨ (∃ since, s.overSince = some since ∧ since + 15000000 ≤ s.cycle ∧ s.capWatts < w) → g.throttle = 3 → g.preempt = none →
          ∃ t, exec .powerPreemption s = .next t ∧ t.gangs = [{ g with preempt := some s.cycle }] ∧ t.powerHold = true ∧
            t.strands = s.strands ∧ t.mem = s.mem) ∧
        (g.throttle ≠ 3 → ∃ t, exec .powerPreemption s = .next t ∧ t.gangs = s.gangs ∧ t.powerHold = s.powerHold)) ∧
      (1500 ≤ w → w ≤ 4400 → ∃ t, exec .powerCapSet s = .next t ∧ { t with capWatts := s.capWatts, power := s.power } = s ∧ t.capWatts = w ∧
        (s.power = .p0 ∨ s.power = .p1 → t.power = if w < 4400 then .p1 else .p0) ∧ (s.power = .p2 ∨ s.power = .p3 → t.power = s.power)) ∧
      (w < 1500 ∨ 4400 < w → exec .powerCapSet s = .next s) ∧
      (∀ since, s.idleSince = some since → packageIdle s = true → since + 1500000 ≤ s.cycle → s.power = .p0 ∨ s.power = .p1 →
        exec .idleEntry s = .next { s with power := .p2, idleSince := none }) ∧
      (s.power = .p2 → (s.arg.idle = .enqueuedRecord → ∃ q ∈ s.parts, q.2.active = true ∧ ∃ l, l < 4 ∧ q.2.count l ≠ 0) →
        exec .idleExit s = .next { s with power := if s.capWatts < 4400 then .p1 else .p0, idleSince := none })) ∧
  (
    ∀ (s : State),
      let b := s.arg.bring
      let boots (t : State) (flash : List Byte) : Prop :=
        t.firmware = flash ∧ t.eraseOnAlarm = b.erase ∧ t.ports = b.ports ∧ t.peers = [] ∧
          (yalushOk b.yalush = true → t.bringUp = 5 ∧ t.yalush = b.yalush) ∧
          (yalushOk b.yalush = false → t.bringUp = 4)
      (∃ t, exec .powerLoss s = .next t ∧ t.power = .p3 ∧ (∀ pa, memByte t.mem pa = 0#8) ∧ t.strands = [] ∧ t.parts = [] ∧
        t.keysGone = s.keysGone) ∧
      (s.power ≠ .p3 → ∃ t, exec .packageReset s = .next t ∧ t.bringUp = 1 ∧ t.power = s.activePower ∧ t.strands = [] ∧ t.gangs = [] ∧
        t.parts = [] ∧ t.hbmth = 0#24 ∧ t.remto = 3000000 ∧ t.capWatts = s.capWatts ∧ t.tlb = [] ∧ (∀ pa, memByte t.mem pa = 0#8)) ∧
      (s.power = .p3 ∨ s.bringUp = 1 → ∃ t, exec .powerGood s = .next t ∧
        (firmwareOk b.flash = true → boots t b.flash) ∧ (firmwareOk b.flash = false → t.bringUp = 2)) ∧
      (s.power ≠ .p3 → s.bringUp = 2 → s.arg.data.length ≤ 0x4000000 → ∃ t, exec .recoveryImageSubmit s = .next t ∧
        (firmwareOk s.arg.data = true → boots t s.arg.data) ∧ (firmwareOk s.arg.data = false → t = s)) ∧
      (s.eraseOnAlarm = false → exec .securityAlarm s = .next { s with outbox := s.outbox ++ [.alarm s.arg.cause] }) ∧
      (s.power ≠ .p3 → s.eraseOnAlarm = true → ∃ t, exec .securityAlarm s = .next t ∧ t.keysGone = true ∧ t.needsProvision = true ∧
        t.strands = [] ∧ t.gangs = [] ∧ t.parts = [] ∧ t.bringUp = 1))

/-- R158, R172, R174: a shootdown asks all six dies; a die that arrives keeps no entry of the range, and the last arrival ends the
shootdown and lets its call return or its mask take effect; a scan, once earlier writes to its frame have been performed, that cannot read
its page or meets a word it refuses reports where and why, and one that passes makes both leaves executable and not writable; a narrowed
mask starts a shootdown of every scanned frame, and the word of the partition's table entry changes with it. Reason 6 at offset 0 of a page
that cannot be read, the result of such a scan, and the next page's scan after each page's own shootdown are the model's choices
(Assumption 45); that scan bits go when FEATURE of a rewritten entry loses a bit as when the mask is narrowed is Assumption 28. -/
def Obligations.ShootdownsAndScans : Prop :=
  ∀ (s : State),
    let p := s.arg.p
    let i := s.arg.idx
    let ask (lo hi : Nat) (bar : Word) (frames : List Nat) (fin : Done) (q : BitVec 6) : Shootdown := ⟨q, lo, hi, bar, frames, [0, 1, 2, 3, 4, 5], fin⟩
    exec .shootdownRequest s = .next { s with shootdowns := s.shootdowns ++
      [ask s.arg.a0.toNat (s.arg.a0.toNat + s.arg.a1.toNat) s.arg.a2 [] .nothing p] } ∧
    (∀ x, s.shootdowns[i]? = some x → s.arg.num ∈ x.dies → x.bar = 0#64 → rangeBusy s x s.arg.num = false →
      ∃ t, exec .shootdownArrival s = .next t ∧
        (∀ e, e ∈ t.tlb ↔ e ∈ s.tlb ∧ ¬ (dieOfTlb e.unit = s.arg.num ∧ entryIn x e = true)) ∧
        (∀ f, f ∈ (t.part x.part).scan ↔ f ∈ (s.part x.part).scan ∧ f ∉ x.frames) ∧ t.mem = s.mem ∧
        ((∃ d ∈ x.dies, d ≠ s.arg.num) → t.shootdowns = setNth s.shootdowns i { x with dies := x.dies.filter (fun d => d != s.arg.num) }) ∧
        ((∀ d ∈ x.dies, d = s.arg.num) → t.shootdowns = s.shootdowns.eraseIdx i ∧ (∀ v, x.fin = .ylReturn v → (t.part x.part).a0 = v) ∧
          (∀ m, x.fin = .mask m → (t.part x.part).feature = m) ∧
          (∀ va, x.fin = .free va → (t.part x.part).a0 = 0#64 ∧
            (t.part x.part).blocks = (s.part x.part).blocks.filter (fun b => b.va != va)) ∧
          (∀ e, x.fin = .table e → (t.part x.part).feature = ptWord e 0xA0))) ∧
    (∀ c g h pa, s.scans[i]? = some c → scanLeaves s c.part c.va = some (g, h, pa) → pa / 65536 = c.frame → writesOut s c.frame = false →
      (∀ j why, scanPage s c.mask pa = some (j, why) →
        ∃ t, exec .scanComplete s = .next t ∧ t.scans = s.scans.eraseIdx i ∧ t.mem = s.mem ∧ t.part c.part = { s.part c.part with
          scan := (s.part c.part).scan.filter (fun f => f != c.frame)
          a0 := BitVec.ofInt 64 (-1)
          a1 := BitVec.ofNat 64 (c.va - c.start + 4 * j)
          a2 := BitVec.ofNat 64 why }) ∧
      (scanPage s c.mask pa = none → g.at_ + 8 ≤ h.at_ ∨ h.at_ + 8 ≤ g.at_ →
        ∃ t, exec .scanComplete s = .next t ∧ t.scans = s.scans.eraseIdx i ∧
          (∀ f, f ∈ (t.part c.part).scan ↔ f = pa / 65536 ∨ f ∈ (s.part c.part).scan) ∧
          t.shootdowns = s.shootdowns ++ [ask c.va (c.va + 65536) 0#64 [] (.exmap (c.va + 65536) c.stop c.start) c.part] ∧
          MemoryKept s t (fun y => within g.at_ 8 y ∨ within h.at_ 8 y) ∧
          bytesBv 64 (memBytes t.mem g.at_ 8) = (g.pte ||| 0x10#64) &&& ~~~(0x08#64) ∧
          bytesBv 64 (memBytes t.mem h.at_ 8) = (bytesBv 64 (memBytes s.mem h.at_ 8) ||| 0x10#64) &&& ~~~(0x08#64))) ∧
    ((s.part p).active = true → s.arg.a0 &&& ~~~(s.part p).feature = 0#64 → s.arg.a0 ≠ (s.part p).feature → exmapPending s p = false →
      tablePending s p = false → exec .featureMaskNarrow s =
        .next { s.updPart p (fun q => { q with entry := putSlice q.entry (8 * 0xA0) 64 s.arg.a0 }) with shootdowns := s.shootdowns ++
          [ask 0 (2 ^ 52) 0#64 (s.part p).scan (.mask s.arg.a0) p] })

/-- R130, R137, R362, R375: the calls of the control program that map no memory: what each returns in a0 and what else it does. Where the
spec names no error code, the code is the model's: -1 for a refused argument, -6 for a buffer that cannot be reached, and -3 of yl_attest
when the keys are gone or wait for provisioning (Assumption 46). The layout of an attestation report, and its digests and signature as free
values, are Assumption 7. -/
def Obligations.YalushCalls : Prop :=
  ∀ (s : State), (s.part s.arg.p).active = true →
    let p := s.arg.p
    let q := s.part p
    let x := s.arg.a0.toNat
    let does (i : Instr) (r : Word) (f : Partition → Partition) : Prop :=
      ∃ t, exec i s = .next t ∧ OnlyPartition s t p ∧ t.part p = { f q with a0 := r }
    (s.arg.flag = false → Returns .ylClock s (BitVec.ofNat 64 s.cycle)) ∧
    (s.arg.flag = true → s.arg.num < 1 ∨ 16 < s.arg.num → Returns .ylClock s (BitVec.ofInt 64 (-5))) ∧
    (x < 1024 → Returns .ylPeerQuery s (tabGet 0#64 s.peers x)) ∧ (1024 ≤ x → Returns .ylPeerQuery s (BitVec.ofInt 64 (-1))) ∧
    (((1 ≤ x ∧ x ≤ 0x16) ∨ x = 0x18) → s.arg.a1.toNat ≤ 2 →
      ∃ t, exec .ylFaultPolicy s = .next t ∧ OnlyPartition s t p ∧ (t.part p).a0 = 0#64 ∧
        (∀ n, tabGet 0 (t.part p).policy n = if n = x then s.arg.a1.toNat else tabGet 0 q.policy n) ∧
        { t.part p with policy := q.policy, a0 := q.a0 } = q) ∧
    (s.arg.a0 = 0#64 → s.arg.a1 = BitVec.ofInt 64 (-1) → Returns .ylQuota s (zext64 q.msmlim)) ∧
    (s.arg.a0 = 1#64 → s.arg.a1 = BitVec.ofInt 64 (-1) → Returns .ylQuota s (zext64 q.ceiling)) ∧
    (s.arg.a0 = 1#64 → 0 < s.arg.a1.toNat → s.arg.a1.toNat ≤ 256 →
      does .ylQuota s.arg.a1 (fun q => { q with ceiling := s.arg.a1.setWidth 9 })) ∧
    (∀ u, waitCount s p s.arg.a0 = (.ok 0#32, u) → s.arg.flag = false →
      ∃ t, exec .ylWait s = .next t ∧ OnlyPartition u t p ∧ t.part p = { u.part p with a0 := 0#64 }) ∧
    (∀ n u, waitCount s p s.arg.a0 = (.ok n, u) → n ≠ 0#32 → s.arg.flag = false → ∃ t, exec .ylWait s = .next t ∧ OnlyPartition u t p ∧
      t.part p = { u.part p with waits := (u.part p).waits ++ [⟨x, s.arg.a1, u.cycle⟩] }) ∧
    (mboxAllowed q x = true → (s.mbox x).isOpen = false →
      ∃ t, exec .ylMboxOpen s = .next t ∧ t.part p = { q with a0 := 0#64 } ∧ (∀ j, j ≠ x → t.mbox j = s.mbox j) ∧ t.mem = s.mem ∧
        t.mbox x = ⟨true, p, s.arg.a1.toNat, (s.mbox x).sgen + 1#16, [], [], [], [], []⟩) ∧
    (mboxOpen s x p = true → (s.mbox x).holes = [] → (s.mbox x).claims = [] → (s.mbox x).queue = [] → (s.mbox x).pairs = [] →
      ∃ t, exec .ylMboxClose s = .next t ∧ t.part p = { q with a0 := 0#64 } ∧ (∀ j, j ≠ x → t.mbox j = s.mbox j) ∧ t.mem = s.mem ∧
        t.mbox x = { s.mbox x with isOpen := false }) ∧
    (∀ i, s.images = [i] → i.handle = s.arg.num → i.part = p → i.exit = none → q.launches = [] →
      exec .ylExit s = .next { s with images := [{ i with exit := some s.arg.a0 }] }) ∧
    (s.needsProvision = true ∨ s.keysGone = true → Returns .ylAttest s (BitVec.ofInt 64 (-3))) ∧
    (∀ i nonce s1, s.needsProvision = false → s.keysGone = false → s.images = [i] → i.handle = s.arg.num → i.part = p →
      ylRead p 2 x 32 s = .ok (nonce, s1) →
      let body := bvBytes (Config.digest s1.firmware) ++ bvBytes (Config.digest s1.yalush) ++ bvBytes (Config.digest i.file) ++ nonce ++
        [BitVec.ofNat 8 (if s1.eraseOnAlarm then 1 else 0)]
      let r := body ++ bvBytes (Config.deviceSignature body)
      ∃ t, exec .ylAttest s = .next t ∧
        (t.part p).a0 = if s.arg.a2.toNat < r.length then BitVec.ofInt 64 (-1) else
          match ylWrite p (pagesIn r.length) s.arg.a1.toNat r s1 with
          | .ok _ => BitVec.ofNat 64 r.length
          | .error _ => BitVec.ofInt 64 (-6))

/-- R158, R159, R172, R179, R181, R362: yl_map and yl_unmap return after a shootdown of their range; yl_exmap starts a scan of its first
page under the feature mask; yl_mem_alloc maps a block and returns its address, and yl_mem_free unmaps it, and frees it once a shootdown of
it is over; each only while no call on the range is under way; yl_join_create writes the join object, whose level the work-queue engine
then reads; yl_launch takes a slot of the launch table and enqueues the record of a launch of one gang. Yalush's own table allocator is the
model's (Assumption 18), and so are the codes -1 and -2 of refused calls (Assumption 46), the scan of one page at a time (Assumption 45),
and the slot of the launch table, which the event names (Assumption 55). -/
def Obligations.YalushMemory : Prop :=
  ∀ (s s1 : State) (pa : Nat) (comp : Bool), (s.part s.arg.p).active = true →
    let a := s.arg
    let p := a.p
    let q := s.part p
    let n := a.a1.toNat / 65536
    let kind : BitVec 2 := slice a.a2 2 2
    let down (u : State) (lo hi : Nat) (frames : List Nat) : State :=
      { u with shootdowns := u.shootdowns ++ [⟨p, lo, hi, 0#64, frames, [0, 1, 2, 3, 4, 5], .ylReturn 0#64⟩] }
    let lo := a.a0.toNat
    (pageRange a.a0 a.a1 = false → Returns .ylMap s (BitVec.ofInt 64 (-1)) ∧ Returns .ylUnmap s (BitVec.ofInt 64 (-1))) ∧
    (pageRange a.a0 a.a1 = true → rangePending s p lo a.a1.toNat = false →
      (slice a.a2 4 60 = 0#60 → a.a3.toNat % 65536 = 0 → a.a3.toNat + a.a1.toNat ≤ 2 ^ 52 → a.a4.toNat ≤ 1023 → (kind = 3#2 ∨ a.a4 = 0#64) →
        mapPages p (fun k => mkLeaf kind (a.a2.getLsbD 1) (a.a2.getLsbD 0) (a.a3.toNat + 65536 * k) (a.a4.setWidth 10)) lo n 0 s = .ok s1 →
        exec .ylMap s = .next (down s1 lo (lo + a.a1.toNat) [])) ∧
      exec .ylUnmap s = .next (down (unmapPages p lo n s) lo (lo + a.a1.toNat) (scannedIn s p lo n)) ∧
      (∀ g h, maskPending s p = false → exmapPending s p = false → scanLeaves s p lo = some (g, h, pa) →
        exec .ylExmap s = .next { s with scans := s.scans ++ [⟨p, lo, pa / 65536, q.feature, lo, lo + a.a1.toNat⟩] })) ∧
    (0 < lo → lo ≤ 65536 → a.a1.toNat ≤ 1 →
      (a.flag = true → Returns .ylMemAlloc s (BitVec.ofInt 64 (-2))) ∧
      (a.flag = false → pageRange a.a2 65536#64 = true → rangePending s p a.a2.toNat 65536 = false → a.a3.toNat % 65536 = 0 →
        pageFrame s p a.a2.toNat = none →
        (iaPage s q a.a3.toNat (a.a1.setWidth 2)).isSome = true → (∀ b ∈ q.blocks, rangesMeet b.ia b.size a.a3.toNat 65536 = false) →
        rangesMeet (q.hbmr.headD (0, 0)).1 (q.brk - (q.hbmr.headD (0, 0)).1) a.a3.toNat 65536 = false →
        mapPages p (fun k => mkLeaf (a.a1.setWidth 2) true true (a.a3.toNat + 65536 * k) 0#10) a.a2.toNat 1 0 s = .ok s1 →
        ∃ t, exec .ylMemAlloc s = .next t ∧ OnlyPartition s1 t p ∧ t.part p = { s1.part p with
          blocks := (s1.part p).blocks ++ [⟨a.a2.toNat, 65536, a.a3.toNat⟩]
          a0 := a.a2 })) ∧
    (∀ b rest, q.blocks = b :: rest → b.va = lo → rangePending s p b.va b.size = false →
      let u := unmapPages p b.va (b.size / 65536) s
      ∃ t, exec .ylMemFree s = .next t ∧ t.mem = u.mem ∧
        t.shootdowns = u.shootdowns ++ [⟨p, b.va, b.va + b.size, 0#64, scannedIn s p b.va (b.size / 65536), [0, 1, 2, 3, 4, 5], .free lo⟩] ∧
        (t.part p).blocks = (u.part p).blocks) ∧
    (lo % 128 = 0 → a.a1.toNat < 2 ^ 32 → a.a2.toNat < 4 → a.a3 = 0#64 → ylPlace s p a.a0 128 .write = .ok (pa, comp, s1) →
      ∃ t bs, let u := homeWrite s1 none pa bs comp
        exec .ylJoinCreate s = .next t ∧ t.mem = (noteJoin u p lo).mem ∧ (t.part p).a0 = 0#64 ∧ bs.length = 128 ∧
        MemoryKept s1 u (within pa 128) ∧ Holds u pa 128 (a.a1.toNat + 2 ^ 32 * a.a2.toNat + 2 ^ 56 * 0x4A)) ∧
    (∀ r bs, a.flag = false → lo % 64 = 0 → ylRead p 2 lo 128 s = .ok (bs, s1) → r = bytesBv 1024 bs →
      launchOk q r = true → lrGangs r = 1 → lrJoin r = 0#64 → q.launches = [] → (s1.part p).launches = [] → s1.joins = [] → a.num < 65536 →
      ringRoom (s1.part p) (lrPrio r).toNat = true → (lrPrio r).toNat < (s1.part p).tails.length →
      let lid : BitVec 32 := bytesBv 16 (memBytes s1.mem (q.launchTab + 32 * a.num + 12) 2) ++ BitVec.ofNat 16 a.num
      let l := (lrPrio r).toNat
      let at_ := (s1.part p).entryPa l ((s1.part p).tail l)
      ∃ t, exec .ylLaunch s = .next t ∧ (t.part p).a0 = zext64 lid ∧ (t.part p).launches = [⟨lid, a.idx, r, 1⟩] ∧
        (t.part p).tail l = (s1.part p).tail l + 1#32 ∧ bytesBv 512 (memBytes t.mem at_ 64) = recSetPrio (launchRecord r lid 0) (lrPrio r))

/-- R189, R369, R374: activation gives the partition what its entry holds, drops its translations and readies its virtual functions;
register writes keep to their access codes, a read of BAR0 gives its register, and a write, a read or a reset of a virtual function without
a partition is an Unsupported Request; a rewritten partition-table entry stands for the activation, or gives WEIGHTS at once and starts a
shootdown for the rest, of every scanned frame too where FEATURE loses a bit; WDLIM of a saved strand is replaced. R370 to R373, R377: a
doorbell takes the entry that PROD points past and answers it in its order, CONS, RESULT, CPL and DONE, with an MSI-X; a ring that cannot
be read sets ERR; Function Level Reset clears BAR0; and a port's links come and go. The model's choices among this: what a doorbell of a
ring that is not READY does (Assumption 51); HVRING taken whole (Assumption 8); the peers that the event of a link names (Assumption 54);
the scan bits that a rewritten FEATURE drops, and its wait for scans and for an earlier rewriting (Assumption 28); and the control
processors, which run Yalush before a partition is activated (Assumption 63). -/
def Obligations.HostAndPartitions : Prop :=
  (
    ∀ (s : State),
      let p := s.arg.p
      let e := (s.part p).entry
      let x := s.arg.a0
      (p.toNat < 48 → s.bringUp = 5 → s.controls = BitVec.allOnes 24 → partitionQuiet s p = true → s.arg.peers.length ≤ 8 → ptRingsOk e = true →
        ∃ t, exec .partitionActivate s = .next t ∧ t.part p = partitionOf (s.part p) e ∧ (t.part p).active = true ∧ (t.part p).cores = slice e 0 288 ∧
          (t.part p).msmlim = slice e 0x200 9 ∧ (t.part p).slots = slice e 0x210 4 ∧ (t.part p).feature = slice e 0x500 64 ∧
          (t.part p).hypRoot = (slice e 0x580 64).toNat ∧ (t.part p).guestRoot = (slice e 0x5C0 64).toNat ∧ (t.part p).peerSet = slice e 0x800 1024 ∧
          (∀ y, y ∈ t.tlb ↔ y ∈ s.tlb ∧ y.part ≠ p) ∧ t.mem = s.mem ∧
          ∀ v, v ∈ s.arg.peers → 1 ≤ v → v ≤ 384 → (t.vf v).part = some p ∧ (t.vf v).ready = true) ∧
      (∀ n, s.arg.reg = .ringBase n →
        ((s.vf n).part ≠ none → slice x 0 12 = 0#12 → ∃ t, exec .registerWrite s = .next t ∧ { t with vfs := s.vfs } = s ∧
          t.vf n = { s.vf n with ringBase := x } ∧ ∀ m, m ≠ n → t.vf m = s.vf m) ∧
        ((s.vf n).part ≠ none → slice x 0 12 ≠ 0#12 → exec .registerWrite s = .next s)) ∧
      (∀ n, s.arg.reg = .vfStatus n → (s.vf n).part ≠ none → exec .registerWrite s = .next s) ∧
      (∀ n, s.arg.reg = .ringBase n ∨ s.arg.reg = .vfStatus n ∨ (∃ r, s.arg.reg = .bar0Read n r) → (s.vf n).part = none →
        exec .registerWrite s = .next { s with outbox := s.outbox ++ [.unsupported n] }) ∧
      (∀ n, (s.vf n).part ≠ none →
        let reads (r : Bar0) (x : Word) : Prop :=
          s.arg.reg = .bar0Read n r → exec .registerWrite s = .next { s with outbox := s.outbox ++ [.bar0 n x] }
        reads .doorbell (s.vf n).doorbell ∧ reads .ringBase (s.vf n).ringBase ∧
          reads .status (BitVec.ofNat 64 ((if (s.vf n).ready then 1 else 0) + if (s.vf n).err then 2 else 0))) ∧
      (s.arg.reg = .remto → (∀ q ∈ s.parts, q.2.launches = []) → exec .registerWrite s = .next { s with remto := x.toNat }) ∧
      (∀ n, s.arg.reg = .peer n → ∃ t, exec .registerWrite s = .next t ∧ { t with peers := s.peers } = s ∧
        (∀ m, m ≠ n.toNat → tabGet 0#64 t.peers m = tabGet 0#64 s.peers m) ∧
        ∀ j, j < 64 → (tabGet 0#64 t.peers n.toNat).getLsbD j =
          if j = 1 then (tabGet 0#64 s.peers n.toNat).getLsbD 1 else x.getLsbD j && (j == 0 || (decide (8 ≤ j) && decide (j ≤ 12)))) ∧
      (∀ j, s.arg.reg = .table j → j.toNat < 48 →
        let e := s.arg.entry
        let narrows := (s.part j).feature &&& ~~~(slice e 0x500 64) ≠ 0#64
        ((s.part j).active = false → exec .registerWrite s = .next (s.updPart j (fun q => { q with entry := e }))) ∧
        ((s.part j).active = true → tablePending s j = false → (narrows → exmapPending s j = false) →
          ∃ frames, exec .registerWrite s = .next { s.updPart j (fun q => { q with entry := e, weights := slice e 0x540 32 }) with
              shootdowns := s.shootdowns ++ [⟨j, 0, 2 ^ 52, 0#64, frames, [0, 1, 2, 3, 4, 5], .table e⟩] } ∧
            (narrows → frames = (s.part j).scan) ∧ (¬ narrows → frames = []))) ∧
      (∀ area rank y i, s.arg.reg = .savedWdlim area rank → s.gang? p area = some y → y.images.find? (fun z => z.1 == rank) = some i →
        ∃ t y1, exec .registerWrite s = .next t ∧ t.gang? p area = some y1 ∧ y1.images.map (fun z => z.1) = y.images.map (fun z => z.1) ∧
          ∀ z, z ∈ y1.images ↔ ∃ z0 ∈ y.images, z = if z0.1 = rank then (z0.1, { z0.2 with wdlim := x }) else z0) ∧
      (s.arg.reg = .device 0x000E000000001000 → exec .registerWrite s = .next { s with hvring := x })) ∧
  (
    ∀ (s : State),
      let n := s.arg.mb
      let base := (s.vf n).ringBase.toNat
      ((s.vf n).part = none → exec .doorbell s = .next { s with outbox := s.outbox ++ [.unsupported n] }) ∧
      (∀ p i log, (s.vf n).part = some p → (s.vf n).ready = true → s.power = .p0 → s.arg.data = [] → s.arg.flag = false → maskPending s p = false →
        hostNat s base 1 % 16 = log → 4 ≤ log → log ≤ 12 →
        let cons := hostNat s (base + 0x10) 4
        let e := base + 64 + 64 * (cons % 2 ^ log)
        s.arg.a0.toNat % 2 ^ 32 = (cons + 1) % 2 ^ 32 → hostNat s e 2 = 3 → imageOf s p (BitVec.ofNat 64 (hostNat s (e + 8) 8)) = some i →
        ∃ t, exec .doorbell s = .next t ∧ t.mem = s.mem ∧ hostNat t (base + 0x10) 4 = (cons + 1) % 2 ^ 32 ∧
          hostNat t (base + 0x18) 4 = (hostNat s (base + 0x18) 4 + 1) % 2 ^ 32 ∧ hostNat t (e + 0x30) 8 = 1 ∧
          hostNat t (e + 0x28) 8 = (match i.exit with
            | none => 0
            | some c => 1 + 2 * (c.toNat % 2 ^ 32)) ∧
          t.outbox = s.outbox ++ [.msix n] ∧ t.vf n = { s.vf n with doorbell := s.arg.a0, err := false }) ∧
      (∀ p, (s.vf n).part = some p → s.power = .p0 → s.arg.data = [] → maskPending s p = false →
        ((s.vf n).ready = true → s.arg.flag = true → s.arg.idx = 0 →
          ∃ t, exec .doorbell s = .next t ∧ { t with vfs := s.vfs } = s ∧ t.vf n = { s.vf n with doorbell := s.arg.a0, err := true }) ∧
        ((s.vf n).ready = false →
          ∃ t, exec .doorbell s = .next t ∧ { t with vfs := s.vfs } = s ∧ t.vf n = { s.vf n with doorbell := s.arg.a0 })) ∧
      ((s.vf n).part = none → exec .functionLevelReset s = .next { s with outbox := s.outbox ++ [.unsupported n] }) ∧
      ((s.vf n).part ≠ none → (∀ i ∈ s.images, i.vf ≠ n) → ∃ t, exec .functionLevelReset s = .next t ∧ { t with vfs := s.vfs } = s ∧
        t.vf n = { s.vf n with doorbell := 0#64, ringBase := 0#64, ready := false, err := false } ∧ ∀ m, m ≠ n → t.vf m = s.vf m) ∧
      (n < 18 → ∀ up : Bool, ∃ t, exec (if up then .linkUp else .linkDown) s = .next t ∧ { t with ports := s.ports, peers := s.peers } = s ∧
        (∀ j, j < 18 → t.ports.getLsbD j = if j = n then up else s.ports.getLsbD j) ∧
        (∀ q, q < 1024 → ∀ j, j < 64 → (tabGet 0#64 t.peers q).getLsbD j =
          if j = 1 ∧ q ∈ s.arg.peers then up else (tabGet 0#64 s.peers q).getLsbD j)))

/-- R95, R96: the request of another package is performed at its home and answered: a read with the bytes, a write of exactly its bytes,
each atomic operation and a compare with the old value; and a read, a write or an atomic that its home does not serve, or to a page that it
may not write, changes nothing and is answered so. -/
def Obligations.RemoteArrivals : Prop :=
  ∀ (s : State), s.power ≠ .p2 → s.tests = [] →
    let q := s.arg.peer
    let tells (t : State) (bs : List Byte) (ok : Bool) : Prop := t.outbox = s.outbox ++ [.answer q bs ok]
    (∀ pa n, s.arg.remote = .read pa n → inAperture pa = false →
      (homeServes s pa n = true → poisoned s pa n = false →
        ∃ t, exec .remoteAccessArrival s = .next t ∧ PackageCounted { s with outbox := s.outbox ++ [.answer q (memBytes s.mem pa n) true] } t) ∧
      (homeServes s pa n = false → exec .remoteAccessArrival s = .next { s with outbox := s.outbox ++ [.answer q [] false] })) ∧
    (∀ pa bs, s.arg.remote = .write pa bs → homeServes s pa bs.length = true → scanRefused s pa bs.length = false →
      ∃ t, exec .remoteAccessArrival s = .next t ∧ tells t [] true ∧ memBytes t.mem pa bs.length = bs ∧ MemoryKept s t (within pa bs.length)) ∧
    (∀ wide pa, let n := if wide = true then 8 else 4
      homeServes s pa n = true → pa % n = 0 → poisoned s pa n = false → scanRefused s pa n = false →
      let old := bytesNat (memBytes s.mem pa n)
      let sg (x : Nat) : Int := (BitVec.ofNat (8 * n) x).toInt
      (∀ (b : Word) (op : BitVec 4) (new : Nat), s.arg.remote = .atomic op wide pa b →
        (let B := b.toNat % 2 ^ (8 * n)
         (op, new) ∈ [(0#4, (old + B) % 2 ^ (8 * n)), (1#4, old &&& B), (2#4, old ||| B), (3#4, old ^^^ B),
           (4#4, if sg B < sg old then B else old), (5#4, if sg old < sg B then B else old), (6#4, min old B), (7#4, max old B), (8#4, B)] ∨
         wide = false ∧ (op, new) = (9#4, (f32Add (BitVec.ofNat 32 old) (b.setWidth 32)).toNat)) →
        ∃ t, exec .remoteAccessArrival s = .next t ∧ tells t (memBytes s.mem pa n) true ∧ Holds t pa n new ∧ MemoryKept s t (within pa n)) ∧
      (∀ e v, s.arg.remote = .cas wide pa e v → ∃ t, exec .remoteAccessArrival s = .next t ∧ tells t (memBytes s.mem pa n) true ∧
        Holds t pa n (if old = e.toNat % 2 ^ (8 * n) then v.toNat else old) ∧ MemoryKept s t (within pa n))) ∧
    (let refused : Prop := exec .remoteAccessArrival s = .next { s with outbox := s.outbox ++ [.answer q [] false] }
     (∀ pa bs, s.arg.remote = .write pa bs → inAperture pa = false → homeServes s pa bs.length = false ∨ scanRefused s pa bs.length = true →
       refused) ∧
     ∀ wide pa, let n := if wide = true then 8 else 4
       homeServes s pa n = false ∨ pa % n ≠ 0 ∨ poisoned s pa n = true ∨ scanRefused s pa n = true →
       ((∃ op b, s.arg.remote = .atomic op wide pa b) ∨ ∃ e v, s.arg.remote = .cas wide pa e v) → refused)

/-- R217, R218: decoding the word of a well-formed instruction gives it back, with every operand at every value that its encoding admits. -/
def Obligations.EncodingRoundTrip : Prop := ∀ i : Instr, wellFormed i = true → decode (encode i) = some i

/-- R226, R227, R233: a word stands for at most one instruction and has no bit that the instruction leaves out: what decodes is well-formed
and encodes to the same word, and what the scanner passes under a feature mask is what decodes, where the mask has the instruction's
feature. -/
def Obligations.WordsMeanOneInstruction : Prop :=
  (∀ w i, decode w = some i → wellFormed i = true ∧ encode i = w) ∧
  (∀ m w i, scanWord m w = .ok i ↔ decode w = some i ∧ featureOk m w = true)

/-- The encodings of spec/13_encoding.md R218 to R230, on one written-out word of each family, decode to the instructions that they stand for;
the padding word 0x5C000000 is a NOP; and words with opcode 0, or with opcode 0x34 or above, stand for none. -/
def Obligations.DecodedWords : Prop :=
  (∀ p ∈ ([
    (0b000001_00001_00010_00011_00000_000000#32, .add 1#5 2#5 3#5),
    (0b000010_00100_00101_1111111111111111#32, .addi 4#5 5#5 0xFFFF#16),
    (0b001010_00001_00010_00011_00000_000011#32, .fma 1#5 2#5 3#5),
    (0b001011_00111_01001_00000000000001_11#32, .ld 7#5 9#5 1#14 3#2),
    (0b001111_00110_00111_01000_1_1_1_10_11_0000#32, .amoAdd 6#5 7#5 8#5 1#1 1#1 1#1 2#2 1#1),
    (0b010010_010_00001_00010_1111111111110#32, .bcLt 1#5 2#5 8190#13),
    (0b010111_00000_00000_0101_000000000101#32, .trap 5#12),
    (0b011001_00001_00010_00011_0_0_001_000_000#32, .vadd 1#5 2#5 3#5 0#1 0#1 1#3),
    (0b100011_00100_00101_00000_000_001_010_0_0#32, .vld 4#5 5#5 0#3 1#3 2#3),
    (0b101011_00001_00010_00000_1_0_011_01_10_00#32, .tmma 1#5 2#5 1#1 3#3 1#2 2#2),
    (0b101110_00001_00010_00100_0101_01_10_000#32, .cpy 1#5 2#5 4#5 5#4 1#2 2#2),
    (0b101111_00001_00010_00000_0000_00_00_010#32, .barr 1#5 2#5 0#2 0#2),
    (0b110000_00000_00000_00000_0011_00_00_011#32, .grst 3#4),
    (0b110001_00001_00000_00000_0010_01_00_000#32, .msend 1#5 2#4 1#2 0#2),
    (0b110010_00001_00010_00000_0000_00_00_011#32, .swake 1#5 2#5 0#2 0#2),
    (0b110011_00000_00010_00000_1_0_000_000_000#32, .gbcast 2#5 1#1),
    (0x5C000000#32, .nop 0#12)] : List (IWord × Instr)), decode p.1 = some p.2) ∧
  (∀ w : IWord, w.toNat / 2 ^ 26 = 0 ∨ 0x34 ≤ w.toNat / 2 ^ 26 → decode w = none)

/-- R6, R7, R101, R217, R318: when a strand's turn comes and it may issue, the word at its pc is fetched, and the step is that of the
instruction it decodes to, at the state after the fetch; around it only what issued is noted and counted, the old vector registers that
queued commands have still to read are marked, and the bits of vector registers that earlier commands are no longer to write, the homes
look at their wait entries, the shares of partitions are kept, and peers whose wait at an object here is over are answered. A turn of an
engine or of the outside is that step. One that meets a row under a self-test has not happened, and waits (R101). Which turn comes next is
the model's schedule (Assumption 1). -/
def Obligations.StepRunsDecoded : Prop :=
  ∀ (s : State) (rest : List Turn),
    let near (t t1 : State) : Prop :=
      { t1 with
        strands := t.strands
        lastSlot := t.lastSlot
        issued := t.issued
        passed := t.passed
        fresh := t.fresh
        idleSince := t.idleSince
        pass := t.pass
        parts := t.parts
        homeWaits := t.homeWaits
        outbox := t.outbox } = t ∧
        (∃ l, t1.outbox = t.outbox ++ l) ∧ (∀ w ∈ t1.homeWaits, w ∈ t.homeWaits) ∧
        (∀ q, { t1.part q with eligible := (t.part q).eligible } = t.part q) ∧
        ∀ j, let u := t.strand j
          let v := t1.strand j
          { v with
            perfCnt := u.perfCnt
            yielded := u.yielded
            mq := u.mq
            wait := u.wait } = u ∧
          v.mq.map (fun c => { c with vold := [], vover := [] }) = u.mq.map (fun c => { c with vold := [], vover := [] }) ∧
          (v.wait = u.wait ∨ ∃ va p left, bwaitLook t u.wait = some (va, p, left) ∧ v.wait = .bwaitOver va p left)
    (∀ k pa comp s1 i, s.agenda = ⟨0, .issue k⟩ :: rest →
      let s0 := { s with agenda := rest, cur := k, held := false }
      slotTurn s0 k = true → canIssue s0 = true → locate s0 (streamCtx s0 k) s0.me.pc 4 4 .fetch acceptsLocal = .ok (.mem pa comp, s1) →
      s1.held = false → underTest s1 k (.mem pa comp) 4 = false → homeFault s1 (.mem pa comp) 4 true = none →
      decode (bytesBv 32 (memBytes s1.mem pa 4)) = some i → s1.me.deferNow = false → sparesShort s1 i = false → readsPoison s1.me i = false →
      (∀ t, exec i s1 = .next t → ∃ t1, step s = .next t1 ∧ (t.held = false → near t t1) ∧ (t.held = true → near s0 t1)) ∧
        (∀ f, exec i s1 = .fault f → step s = .fault f) ∧
        (∀ f, exec i s1 = .refused f → step s = .refused f)) ∧
    (∀ e x, s.agenda = ⟨0, .event e x⟩ :: rest → encode e = 0#32 → s.power ≠ .p3 →
      let s0 := { s with agenda := rest, arg := x, held := false }
      ∀ t, exec e s0 = .next t → ∃ t1, step s = .next t1 ∧ (t.held = false → near t t1) ∧ (t.held = true → near s0 t1))

/-- Every step keeps memory in its canonical form: rising addresses, and no listed byte equal to what an unlisted address reads as. The form
is the model's own (spec/05_memories.md R81; Assumption 2). -/
def Obligations.StepKeepsMemoryCanonical : Prop :=
  ∀ (s t : State), Memory.wf s.mem = true → Memory.wf s.hostMem = true → step s = .next t →
    Memory.wf t.mem = true ∧ Memory.wf t.hostMem = true

/-- R376, R94, R97, R374: after package reset no strand is bound and no partition active, no translation is held, no stack is at a thermal
level, REMTO is 3,000,000 and bring-up is at its first step; and memory is in its canonical form. That bring-up is at its first step at
reset is the model's choice (Assumption 3), and the canonical form is the model's own (Assumption 2). -/
def Obligations.ResetState : Prop :=
  (∀ k, (State.reset.strand k).phase = .free) ∧ (∀ p, (State.reset.part p).active = false) ∧ State.reset.tlb = [] ∧
    State.reset.hbmth = 0#24 ∧ State.reset.remto = 3000000 ∧ State.reset.bringUp = 1 ∧ State.reset.gangs = [] ∧
    Memory.wf State.reset.mem = true ∧ Memory.wf State.reset.hostMem = true

/-- R9, R53, R118, R289: the command at the head of its queue whose turn it is, with its tokens there, a valid format, a quota that covers
its frames, addresses of this package that pass their checks, no source left in its backing area, and a free frame for its result within
FQ, starts: its tokens are popped and reserved, it is marked started one tick on with that frame, and no byte of memory differs but what
translation writes. That a start is a turn of its own is the model's schedule (Assumption 1), and that the frame is the lowest free one is
its choice (Assumption 27). -/
def Obligations.MatrixCommandStarts : Prop :=
  ∀ (s s1 s4 : State) (c : MCommand) (u1 u2 : Strand) (places : List (Run × Place)),
    let q := s.arg.slot
    let u := s.strand q
    let core := coreOf q
    let s3 := match c.dst with
      | some r => ((takeFrame s q r).map (fun x => x.2)).getD s
      | none => s
    u.mq.find? (fun x => x.id == s.arg.num) = some c → c.started = false → c.faulted = false → u.mHead.map (fun x => x.id) = some c.id →
    s.mayIssue u.part u.gang = true → mTurn s q = true → u.phase = .running ∨ u.phase = .parked →
    popToken u .m c.pop = some u1 → reserveToken u1 .m (if c.since = 0 then c.push else 0#2) = some u2 →
    mFormatOk c = true → framesNeeded c ≤ u.fq.toNat → fillsNeeded u c = [] →
    tilePlaces s q c = .ok (places, s1) → remoteRuns places = [] → tilePlaces s3 q c = .ok (places, s4) →
    c.dst = none ∨ (heldFrames s q).length + 1 ≤ u.fq.toNat ∧ (freeFrame s core).isSome = true →
    ∃ t x, exec .mCommandRetire s = .next t ∧ x ∈ (t.strand q).mq ∧ x.id = c.id ∧ x.started = true ∧ x.since = s.cycle + 1 ∧ x.pop = 0#2 ∧
      x.frame = (if c.dst.isSome then freeFrame s core else none) ∧ (t.strand q).tok = u2.tok ∧ (t.strand q).tokRes = u2.tokRes ∧
      t.mem = s4.mem
end

