-- ==== Sys2Proof/Laws/Memory.lean ====
section
/-! SUPPORT. Sparse tables: a read after a write, and that every operation keeps the canonical form. -/

namespace Sys2Proof.Machine

open Sys2Proof

variable {α : Type}

/-! ### Read after write -/

@[simp] theorem tabGet_nil (d : α) (k : Nat) : tabGet d [] k = d := rfl

theorem tabGet_cons (d : α) (k' : Nat) (v : α) (t : Tab α) (k : Nat) :
    tabGet d ((k', v) :: t) k = if k' = k then v else tabGet d t k := rfl

/-- A listed value reads back, and every other key reads as before. -/
@[simp] theorem tabGet_tabSet (d : α) (t : Tab α) (k j : Nat) (v : α) :
    tabGet d (tabSet t k v) j = if j = k then v else tabGet d t j := by
  induction t with
  | nil => simp only [tabSet, tabGet_cons, tabGet_nil, eq_comm]
  | cons p t ih =>
    obtain ⟨k', v'⟩ := p
    simp only [tabSet]
    split
    · simp only [tabGet_cons, eq_comm (a := k)]
    · split
      · subst k; simp only [tabGet_cons, eq_comm (a := k')]; split <;> rfl
      · simp only [tabGet_cons, ih]; split <;> split <;> first | rfl | omega

/-- An erased key reads as the default, and every other key as before. -/
@[simp] theorem tabGet_tabErase (d : α) (t : Tab α) (k j : Nat) :
    tabGet d (tabErase t k) j = if j = k then d else tabGet d t j := by
  induction t with
  | nil => simp [tabErase]
  | cons p t ih =>
    obtain ⟨k', v'⟩ := p
    simp only [tabErase]
    split
    · subst k
      rw [ih, tabGet_cons]
      by_cases h : j = k'
      · rw [if_pos h, if_pos h]
      · rw [if_neg h, if_neg h, if_neg (Ne.symm h)]
    · rw [tabGet_cons, ih, tabGet_cons]; split <;> split <;> first | rfl | omega

/-- A written value reads back, and every other key reads as before. -/
@[simp] theorem tabGet_tabPut [DecidableEq α] (d : α) (t : Tab α) (k j : Nat) (v : α) :
    tabGet d (tabPut d t k v) j = if j = k then v else tabGet d t j := by
  unfold tabPut
  split
  · subst v; simp
  · simp

/-! ### The canonical form -/

/-- A table that rises from a bound rises from every lower one. -/
theorem tabSorted_mono {lo lo' : Nat} {t : Tab α} (h : lo' ≤ lo) (ht : tabSorted lo t = true) : tabSorted lo' t = true := by
  cases t with
  | nil => rfl
  | cons p t => simp only [tabSorted, Bool.and_eq_true, decide_eq_true_eq] at ht ⊢; exact ⟨by omega, ht.2⟩

/-- A write keeps keys rising. -/
theorem tabSorted_tabSet {lo k : Nat} {v : α} {t : Tab α} (hk : lo ≤ k) (ht : tabSorted lo t = true) :
    tabSorted lo (tabSet t k v) = true := by
  induction t generalizing lo with
  | nil => simp [tabSet, tabSorted, hk]
  | cons p t ih =>
    obtain ⟨k', v'⟩ := p
    simp only [tabSorted, Bool.and_eq_true, decide_eq_true_eq] at ht
    simp only [tabSet]
    split
    · simp only [tabSorted, Bool.and_eq_true, decide_eq_true_eq]; exact ⟨hk, by omega, ht.2⟩
    · split
      · subst k; simp only [tabSorted, Bool.and_eq_true, decide_eq_true_eq]; exact ht
      · simp only [tabSorted, Bool.and_eq_true, decide_eq_true_eq]; exact ⟨ht.1, ih (by omega) ht.2⟩

/-- What a write lists. -/
theorem mem_tabSet {k : Nat} {v : α} {t : Tab α} {p : Nat × α} (h : p ∈ tabSet t k v) : p = (k, v) ∨ p ∈ t := by
  induction t with
  | nil => simpa [tabSet] using h
  | cons q t ih =>
    obtain ⟨k', v'⟩ := q
    simp only [tabSet] at h
    split at h
    · simpa using h
    · split at h
      · simp only [List.mem_cons] at h ⊢; tauto
      · simp only [List.mem_cons] at h ⊢
        rcases h with h | h
        · tauto
        · rcases ih h with h | h <;> tauto

/-- Removing pairs keeps keys rising. -/
theorem tabSorted_filter {lo : Nat} {t : Tab α} (f : Nat × α → Bool) (ht : tabSorted lo t = true) :
    tabSorted lo (t.filter f) = true := by
  induction t generalizing lo with
  | nil => rfl
  | cons p t ih =>
    obtain ⟨k', v'⟩ := p
    simp only [tabSorted, Bool.and_eq_true, decide_eq_true_eq] at ht
    rw [List.filter_cons]
    split
    · simp only [tabSorted, Bool.and_eq_true, decide_eq_true_eq]; exact ⟨ht.1, ih ht.2⟩
    · exact tabSorted_mono (by omega) (ih ht.2)

/-- Erasing is removing the pairs of a key. -/
theorem tabErase_eq_filter (t : Tab α) (k : Nat) : tabErase t k = t.filter (fun p => decide (p.1 ≠ k)) := by
  induction t with
  | nil => rfl
  | cons p t ih =>
    obtain ⟨k', v'⟩ := p
    simp only [tabErase, List.filter_cons, ih]
    by_cases h : k' = k <;> simp [h]

theorem tabWf_iff [DecidableEq α] {d : α} {t : Tab α} : tabWf d t = true ↔ tabSorted 0 t = true ∧ ∀ p ∈ t, p.2 ≠ d := by
  simp [tabWf, List.all_eq_true]

@[simp] theorem tabWf_nil [DecidableEq α] (d : α) : tabWf d ([] : Tab α) = true := rfl

/-- Removing pairs keeps the canonical form. -/
theorem tabWf_filter [DecidableEq α] {d : α} {t : Tab α} (f : Nat × α → Bool) (h : tabWf d t = true) : tabWf d (t.filter f) = true := by
  rw [tabWf_iff] at h ⊢
  exact ⟨tabSorted_filter f h.1, fun p hp => h.2 p (List.mem_of_mem_filter hp)⟩

/-- A write keeps the canonical form. -/
theorem tabWf_tabPut [DecidableEq α] {d : α} {t : Tab α} (k : Nat) (v : α) (h : tabWf d t = true) : tabWf d (tabPut d t k v) = true := by
  unfold tabPut
  split
  · rw [tabErase_eq_filter]; exact tabWf_filter _ h
  · rw [tabWf_iff] at h ⊢
    refine ⟨tabSorted_tabSet (Nat.zero_le _) h.1, fun p hp => ?_⟩
    rcases mem_tabSet hp with rfl | hp
    · assumption
    · exact h.2 p hp

/-- Two tables in canonical form that read alike are equal. -/
theorem tab_ext [DecidableEq α] {d : α} : ∀ {lo : Nat} {t u : Tab α}, tabSorted lo t = true → tabSorted lo u = true → (∀ p ∈ t, p.2 ≠ d) →
    (∀ p ∈ u, p.2 ≠ d) → (∀ k, tabGet d t k = tabGet d u k) → t = u := by
  have low : ∀ {lo : Nat} {t : Tab α} {k : Nat}, tabSorted lo t = true → k < lo → tabGet d t k = d := by
    intro lo t k ht hk
    induction t generalizing lo with
    | nil => rfl
    | cons p t ih =>
      obtain ⟨k', v'⟩ := p
      simp only [tabSorted, Bool.and_eq_true, decide_eq_true_eq] at ht
      rw [tabGet_cons, if_neg (by omega)]; exact ih ht.2 (by omega)
  intro lo t
  induction t generalizing lo with
  | nil =>
    intro u _ hu _ hd h
    cases u with
    | nil => rfl
    | cons q u => have := h q.1; rw [tabGet_cons, if_pos rfl] at this; exact absurd this.symm (hd q (by simp))
  | cons p t ih =>
    intro u ht hu hdt hdu h
    obtain ⟨k, v⟩ := p
    cases u with
    | nil => have := h k; rw [tabGet_cons, if_pos rfl] at this; exact absurd this (hdt (k, v) (by simp))
    | cons q u =>
      obtain ⟨j, w⟩ := q
      simp only [tabSorted, Bool.and_eq_true, decide_eq_true_eq] at ht hu
      have hkj : k = j := by
        rcases Nat.lt_trichotomy k j with hlt | heq | hgt
        · have := h k
          rw [tabGet_cons, if_pos rfl, tabGet_cons, if_neg (by omega), low hu.2 (by omega)] at this
          exact absurd this (hdt (k, v) (by simp))
        · exact heq
        · have := h j
          rw [tabGet_cons, if_neg (by omega), low ht.2 (by omega), tabGet_cons, if_pos rfl] at this
          exact absurd this.symm (hdu (j, w) (by simp))
      subst j
      have hv : v = w := by simpa [tabGet_cons] using h k
      subst w
      rw [ih ht.2 hu.2 (fun p hp => hdt p (by simp [hp])) (fun p hp => hdu p (by simp [hp])) (fun i => ?_)]
      by_cases hi : k = i
      · subst i; rw [low ht.2 (by omega), low hu.2 (by omega)]
      · simpa [tabGet_cons, hi] using h i

/-! ### Bytes -/

/-- A byte reads after a write of bytes as the byte written there, and elsewhere as before. -/
theorem memByte_memPut (m : List Host.Cell) (pa : Nat) (bs : List Byte) (a : Nat) :
    memByte (memPut m pa bs) a = if h : pa ≤ a ∧ a < pa + bs.length then bs[a - pa]'(by omega) else memByte m a := by
  induction bs generalizing m pa with
  | nil => rw [dif_neg (by simp only [List.length_nil]; omega)]; rfl
  | cons b bs ih =>
    simp only [memPut, List.length_cons]
    rw [ih]
    by_cases h : pa + 1 ≤ a ∧ a < pa + 1 + bs.length
    · rw [dif_pos h, dif_pos (by omega)]
      have : a - pa = (a - (pa + 1)) + 1 := by omega
      simp [this]
    · rw [dif_neg h]
      by_cases ha : a = pa
      · subst ha; rw [dif_pos (by omega)]; simp [memByte]
      · rw [dif_neg (by omega)]; simp [memByte, ha]

/-- A write of bytes leaves every other byte alone. -/
theorem memByte_memPut_of_not {m : List Host.Cell} {pa a : Nat} {bs : List Byte} (h : ¬ (pa ≤ a ∧ a < pa + bs.length)) :
    memByte (memPut m pa bs) a = memByte m a := by
  rw [memByte_memPut, dif_neg h]

theorem memBytes_length (m : List Host.Cell) (pa n : Nat) : (memBytes m pa n).length = n := by
  induction n generalizing pa with
  | zero => rfl
  | succ n ih => simp [memBytes, ih]

/-- The bytes read one by one. -/
theorem memBytes_getElem (m : List Host.Cell) (pa n j : Nat) (h : j < (memBytes m pa n).length) :
    (memBytes m pa n)[j] = memByte m (pa + j) := by
  induction n generalizing pa j with
  | zero => simp [memBytes] at h
  | succ n ih =>
    cases j with
    | zero => rfl
    | succ j => simp only [memBytes, List.getElem_cons_succ]; rw [ih]; congr 1; omega

/-- Bytes that a write does not touch read as before. -/
theorem memBytes_congr {m m' : List Host.Cell} {pa n : Nat} (h : ∀ a, pa ≤ a → a < pa + n → memByte m' a = memByte m a) :
    memBytes m' pa n = memBytes m pa n := by
  induction n generalizing pa with
  | zero => rfl
  | succ n ih =>
    simp only [memBytes]
    rw [h pa (by omega) (by omega), ih (fun a h1 h2 => h a (by omega) (by omega))]

/-- The bytes written read back. -/
theorem memBytes_memPut (m : List Host.Cell) (pa : Nat) (bs : List Byte) : memBytes (memPut m pa bs) pa bs.length = bs := by
  apply List.ext_getElem (memBytes_length _ _ _)
  intro j h1 h2
  rw [memBytes_getElem, memByte_memPut, dif_pos (by omega)]
  simp

/-- Erased bytes read as nothing was written there, and the others as before. -/
theorem memByte_memErase (m : List Host.Cell) (pa n a : Nat) :
    memByte (memErase m pa n) a = if pa ≤ a ∧ a < pa + n then emptyByte else memByte m a := by
  unfold memByte memErase
  induction m with
  | nil => simp
  | cons c m ih =>
    obtain ⟨k, b⟩ := c
    rw [List.filter_cons]
    split
    · rename_i hk
      simp only [Bool.or_eq_true, decide_eq_true_eq] at hk
      rw [tabGet_cons, ih, tabGet_cons]
      by_cases hka : k = a
      · subst k; rw [if_pos rfl, if_pos rfl, if_neg (by omega)]
      · rw [if_neg hka, if_neg hka]
    · rename_i hk
      simp only [Bool.or_eq_true, decide_eq_true_eq] at hk
      rw [ih, tabGet_cons]
      by_cases hka : k = a
      · subst k; rw [if_pos (by omega), if_pos (by omega)]
      · rw [if_neg hka]

/-! ### Memory keeps its canonical form -/

theorem wf_memPut {m : List Host.Cell} (pa : Nat) (bs : List Byte) (h : Memory.wf m = true) : Memory.wf (memPut m pa bs) = true := by
  induction bs generalizing m pa with
  | nil => exact h
  | cons b bs ih => exact ih _ (tabWf_tabPut pa b h)

theorem wf_memErase {m : List Host.Cell} (pa n : Nat) (h : Memory.wf m = true) : Memory.wf (memErase m pa n) = true :=
  tabWf_filter _ h

theorem mem_breakLinks (s : State) (w : Option Nat) (pa n : Nat) : (breakLinks s w pa n).mem = s.mem := by
  unfold breakLinks; split <;> rfl

theorem mem_recompress (s : State) (pa n : Nat) (c : Bool) : (recompress s pa n c).mem = s.mem := by
  unfold recompress; split <;> rfl

/-- A home write changes memory by exactly its bytes. -/
@[simp] theorem mem_homeWrite (s : State) (w : Option Nat) (pa : Nat) (bs : List Byte) (c : Bool) :
    (homeWrite s w pa bs c).mem = memPut s.mem pa bs := by
  simp only [homeWrite, mem_recompress, mem_breakLinks]

theorem wf_homeWrite {s : State} (w : Option Nat) (pa : Nat) (bs : List Byte) (c : Bool) (h : Memory.wf s.mem = true) :
    Memory.wf (homeWrite s w pa bs c).mem = true := by
  rw [mem_homeWrite]; exact wf_memPut pa bs h

/-- A discard changes memory by exactly the whole row groups inside its range. -/
theorem mem_discardRange (s : State) (pa n : Nat) :
    (discardRange s pa n).2.mem = if (pa + n) / 2048 ≤ (pa + 2047) / 2048 then s.mem
      else memErase s.mem (2048 * ((pa + 2047) / 2048)) (2048 * ((pa + n) / 2048 - (pa + 2047) / 2048)) := by
  simp only [discardRange]; split <;> rfl

theorem wf_discardRange {s : State} (pa n : Nat) (h : Memory.wf s.mem = true) : Memory.wf (discardRange s pa n).2.mem = true := by
  rw [mem_discardRange]; split
  · exact h
  · exact wf_memErase _ _ h

theorem mem_poisonSectors (s : State) (xs : List Nat) : (poisonSectors s xs).mem = s.mem := rfl

theorem mem_deviceGet (s : State) (pa n : Nat) : (deviceGet s pa n).2.mem = s.mem := by
  unfold deviceGet; split
  · rfl
  · split
    · rfl
    · split <;> rfl

theorem mem_devicePut (s : State) (pa n : Nat) (x : Word) : (devicePut s pa n x).mem = s.mem := by
  unfold devicePut; split
  · rfl
  · split <;> rfl

/-- Memory at reset is in its canonical form. -/
theorem wf_reset : Memory.wf State.reset.mem = true := rfl
theorem wf_reset_host : Memory.wf State.reset.hostMem = true := rfl

end Sys2Proof.Machine
end

