-- ==== Sys2Proof/Laws/State.lean ====
section
/-! SUPPORT. What each named update of the state and of a strand leaves alone: one lemma for each field. -/

namespace Sys2Proof.Machine

open Sys2Proof

/-! ### State.setStrand -/

@[simp] theorem State.setStrand_agenda (s : State) (k : Nat) (t : Strand) : (s.setStrand k t).agenda = s.agenda := rfl
@[simp] theorem State.setStrand_cur (s : State) (k : Nat) (t : Strand) : (s.setStrand k t).cur = s.cur := rfl
@[simp] theorem State.setStrand_arg (s : State) (k : Nat) (t : Strand) : (s.setStrand k t).arg = s.arg := rfl
@[simp] theorem State.setStrand_fresh (s : State) (k : Nat) (t : Strand) : (s.setStrand k t).fresh = s.fresh := rfl
@[simp] theorem State.setStrand_seq (s : State) (k : Nat) (t : Strand) : (s.setStrand k t).seq = s.seq := rfl
@[simp] theorem State.setStrand_cycle (s : State) (k : Nat) (t : Strand) : (s.setStrand k t).cycle = s.cycle := rfl
@[simp] theorem State.setStrand_lastSlot (s : State) (k : Nat) (t : Strand) : (s.setStrand k t).lastSlot = s.lastSlot := rfl
@[simp] theorem State.setStrand_issued (s : State) (k : Nat) (t : Strand) : (s.setStrand k t).issued = s.issued := rfl
@[simp] theorem State.setStrand_passed (s : State) (k : Nat) (t : Strand) : (s.setStrand k t).passed = s.passed := rfl
@[simp] theorem State.setStrand_lastM (s : State) (k : Nat) (t : Strand) : (s.setStrand k t).lastM = s.lastM := rfl
@[simp] theorem State.setStrand_lastC (s : State) (k : Nat) (t : Strand) : (s.setStrand k t).lastC = s.lastC := rfl
@[simp] theorem State.setStrand_gangs (s : State) (k : Nat) (t : Strand) : (s.setStrand k t).gangs = s.gangs := rfl
@[simp] theorem State.setStrand_frames (s : State) (k : Nat) (t : Strand) : (s.setStrand k t).frames = s.frames := rfl
@[simp] theorem State.setStrand_withdrawn (s : State) (k : Nat) (t : Strand) : (s.setStrand k t).withdrawn = s.withdrawn := rfl
@[simp] theorem State.setStrand_therm (s : State) (k : Nat) (t : Strand) : (s.setStrand k t).therm = s.therm := rfl
@[simp] theorem State.setStrand_deadCores (s : State) (k : Nat) (t : Strand) : (s.setStrand k t).deadCores = s.deadCores := rfl
@[simp] theorem State.setStrand_vregLost (s : State) (k : Nat) (t : Strand) : (s.setStrand k t).vregLost = s.vregLost := rfl
@[simp] theorem State.setStrand_hbmth (s : State) (k : Nat) (t : Strand) : (s.setStrand k t).hbmth = s.hbmth := rfl
@[simp] theorem State.setStrand_mem (s : State) (k : Nat) (t : Strand) : (s.setStrand k t).mem = s.mem := rfl
@[simp] theorem State.setStrand_badSectors (s : State) (k : Nat) (t : Strand) : (s.setStrand k t).badSectors = s.badSectors := rfl
@[simp] theorem State.setStrand_deadGroups (s : State) (k : Nat) (t : Strand) : (s.setStrand k t).deadGroups = s.deadGroups := rfl
@[simp] theorem State.setStrand_compressed (s : State) (k : Nat) (t : Strand) : (s.setStrand k t).compressed = s.compressed := rfl
@[simp] theorem State.setStrand_remto (s : State) (k : Nat) (t : Strand) : (s.setStrand k t).remto = s.remto := rfl
@[simp] theorem State.setStrand_tlb (s : State) (k : Nat) (t : Strand) : (s.setStrand k t).tlb = s.tlb := rfl
@[simp] theorem State.setStrand_scans (s : State) (k : Nat) (t : Strand) : (s.setStrand k t).scans = s.scans := rfl
@[simp] theorem State.setStrand_shootdowns (s : State) (k : Nat) (t : Strand) : (s.setStrand k t).shootdowns = s.shootdowns := rfl
@[simp] theorem State.setStrand_peers (s : State) (k : Nat) (t : Strand) : (s.setStrand k t).peers = s.peers := rfl
@[simp] theorem State.setStrand_ports (s : State) (k : Nat) (t : Strand) : (s.setStrand k t).ports = s.ports := rfl
@[simp] theorem State.setStrand_self (s : State) (k : Nat) (t : Strand) : (s.setStrand k t).self = s.self := rfl
@[simp] theorem State.setStrand_parts (s : State) (k : Nat) (t : Strand) : (s.setStrand k t).parts = s.parts := rfl
@[simp] theorem State.setStrand_pass (s : State) (k : Nat) (t : Strand) : (s.setStrand k t).pass = s.pass := rfl
@[simp] theorem State.setStrand_heldRecs (s : State) (k : Nat) (t : Strand) : (s.setStrand k t).heldRecs = s.heldRecs := rfl
@[simp] theorem State.setStrand_joins (s : State) (k : Nat) (t : Strand) : (s.setStrand k t).joins = s.joins := rfl
@[simp] theorem State.setStrand_joinOps (s : State) (k : Nat) (t : Strand) : (s.setStrand k t).joinOps = s.joinOps := rfl
@[simp] theorem State.setStrand_joinReads (s : State) (k : Nat) (t : Strand) : (s.setStrand k t).joinReads = s.joinReads := rfl
@[simp] theorem State.setStrand_homeWaits (s : State) (k : Nat) (t : Strand) : (s.setStrand k t).homeWaits = s.homeWaits := rfl
@[simp] theorem State.setStrand_homeWatches (s : State) (k : Nat) (t : Strand) : (s.setStrand k t).homeWatches = s.homeWatches := rfl
@[simp] theorem State.setStrand_hypFaults (s : State) (k : Nat) (t : Strand) : (s.setStrand k t).hypFaults = s.hypFaults := rfl
@[simp] theorem State.setStrand_lateFaults (s : State) (k : Nat) (t : Strand) : (s.setStrand k t).lateFaults = s.lateFaults := rfl
@[simp] theorem State.setStrand_copies (s : State) (k : Nat) (t : Strand) : (s.setStrand k t).copies = s.copies := rfl
@[simp] theorem State.setStrand_retiredCq (s : State) (k : Nat) (t : Strand) : (s.setStrand k t).retiredCq = s.retiredCq := rfl
@[simp] theorem State.setStrand_tags (s : State) (k : Nat) (t : Strand) : (s.setStrand k t).tags = s.tags := rfl
@[simp] theorem State.setStrand_mailboxes (s : State) (k : Nat) (t : Strand) : (s.setStrand k t).mailboxes = s.mailboxes := rfl
@[simp] theorem State.setStrand_sends (s : State) (k : Nat) (t : Strand) : (s.setStrand k t).sends = s.sends := rfl
@[simp] theorem State.setStrand_wire (s : State) (k : Nat) (t : Strand) : (s.setStrand k t).wire = s.wire := rfl
@[simp] theorem State.setStrand_inbox (s : State) (k : Nat) (t : Strand) : (s.setStrand k t).inbox = s.inbox := rfl
@[simp] theorem State.setStrand_ends (s : State) (k : Nat) (t : Strand) : (s.setStrand k t).ends = s.ends := rfl
@[simp] theorem State.setStrand_pulled (s : State) (k : Nat) (t : Strand) : (s.setStrand k t).pulled = s.pulled := rfl
@[simp] theorem State.setStrand_wakes (s : State) (k : Nat) (t : Strand) : (s.setStrand k t).wakes = s.wakes := rfl
@[simp] theorem State.setStrand_passes (s : State) (k : Nat) (t : Strand) : (s.setStrand k t).passes = s.passes := rfl
@[simp] theorem State.setStrand_hvring (s : State) (k : Nat) (t : Strand) : (s.setStrand k t).hvring = s.hvring := rfl
@[simp] theorem State.setStrand_device (s : State) (k : Nat) (t : Strand) : (s.setStrand k t).device = s.device := rfl
@[simp] theorem State.setStrand_vfs (s : State) (k : Nat) (t : Strand) : (s.setStrand k t).vfs = s.vfs := rfl
@[simp] theorem State.setStrand_hostMem (s : State) (k : Nat) (t : Strand) : (s.setStrand k t).hostMem = s.hostMem := rfl
@[simp] theorem State.setStrand_images (s : State) (k : Nat) (t : Strand) : (s.setStrand k t).images = s.images := rfl
@[simp] theorem State.setStrand_power (s : State) (k : Nat) (t : Strand) : (s.setStrand k t).power = s.power := rfl
@[simp] theorem State.setStrand_capWatts (s : State) (k : Nat) (t : Strand) : (s.setStrand k t).capWatts = s.capWatts := rfl
@[simp] theorem State.setStrand_watts (s : State) (k : Nat) (t : Strand) : (s.setStrand k t).watts = s.watts := rfl
@[simp] theorem State.setStrand_hottest (s : State) (k : Nat) (t : Strand) : (s.setStrand k t).hottest = s.hottest := rfl
@[simp] theorem State.setStrand_dieTemp (s : State) (k : Nat) (t : Strand) : (s.setStrand k t).dieTemp = s.dieTemp := rfl
@[simp] theorem State.setStrand_throttleTick (s : State) (k : Nat) (t : Strand) : (s.setStrand k t).throttleTick = s.throttleTick := rfl
@[simp] theorem State.setStrand_overSince (s : State) (k : Nat) (t : Strand) : (s.setStrand k t).overSince = s.overSince := rfl
@[simp] theorem State.setStrand_powerHold (s : State) (k : Nat) (t : Strand) : (s.setStrand k t).powerHold = s.powerHold := rfl
@[simp] theorem State.setStrand_idleSince (s : State) (k : Nat) (t : Strand) : (s.setStrand k t).idleSince = s.idleSince := rfl
@[simp] theorem State.setStrand_bringUp (s : State) (k : Nat) (t : Strand) : (s.setStrand k t).bringUp = s.bringUp := rfl
@[simp] theorem State.setStrand_eraseOnAlarm (s : State) (k : Nat) (t : Strand) : (s.setStrand k t).eraseOnAlarm = s.eraseOnAlarm := rfl
@[simp] theorem State.setStrand_keysGone (s : State) (k : Nat) (t : Strand) : (s.setStrand k t).keysGone = s.keysGone := rfl
@[simp] theorem State.setStrand_needsProvision (s : State) (k : Nat) (t : Strand) : (s.setStrand k t).needsProvision = s.needsProvision := rfl
@[simp] theorem State.setStrand_controls (s : State) (k : Nat) (t : Strand) : (s.setStrand k t).controls = s.controls := rfl
@[simp] theorem State.setStrand_firmware (s : State) (k : Nat) (t : Strand) : (s.setStrand k t).firmware = s.firmware := rfl
@[simp] theorem State.setStrand_yalush (s : State) (k : Nat) (t : Strand) : (s.setStrand k t).yalush = s.yalush := rfl
@[simp] theorem State.setStrand_tests (s : State) (k : Nat) (t : Strand) : (s.setStrand k t).tests = s.tests := rfl
@[simp] theorem State.setStrand_held (s : State) (k : Nat) (t : Strand) : (s.setStrand k t).held = s.held := rfl
@[simp] theorem State.setStrand_outbox (s : State) (k : Nat) (t : Strand) : (s.setStrand k t).outbox = s.outbox := rfl

/-! ### State.updSlot -/

@[simp] theorem State.updSlot_agenda (s : State) (k : Nat) (f : Strand → Strand) : (s.updSlot k f).agenda = s.agenda := rfl
@[simp] theorem State.updSlot_cur (s : State) (k : Nat) (f : Strand → Strand) : (s.updSlot k f).cur = s.cur := rfl
@[simp] theorem State.updSlot_arg (s : State) (k : Nat) (f : Strand → Strand) : (s.updSlot k f).arg = s.arg := rfl
@[simp] theorem State.updSlot_fresh (s : State) (k : Nat) (f : Strand → Strand) : (s.updSlot k f).fresh = s.fresh := rfl
@[simp] theorem State.updSlot_seq (s : State) (k : Nat) (f : Strand → Strand) : (s.updSlot k f).seq = s.seq := rfl
@[simp] theorem State.updSlot_cycle (s : State) (k : Nat) (f : Strand → Strand) : (s.updSlot k f).cycle = s.cycle := rfl
@[simp] theorem State.updSlot_lastSlot (s : State) (k : Nat) (f : Strand → Strand) : (s.updSlot k f).lastSlot = s.lastSlot := rfl
@[simp] theorem State.updSlot_issued (s : State) (k : Nat) (f : Strand → Strand) : (s.updSlot k f).issued = s.issued := rfl
@[simp] theorem State.updSlot_passed (s : State) (k : Nat) (f : Strand → Strand) : (s.updSlot k f).passed = s.passed := rfl
@[simp] theorem State.updSlot_lastM (s : State) (k : Nat) (f : Strand → Strand) : (s.updSlot k f).lastM = s.lastM := rfl
@[simp] theorem State.updSlot_lastC (s : State) (k : Nat) (f : Strand → Strand) : (s.updSlot k f).lastC = s.lastC := rfl
@[simp] theorem State.updSlot_gangs (s : State) (k : Nat) (f : Strand → Strand) : (s.updSlot k f).gangs = s.gangs := rfl
@[simp] theorem State.updSlot_frames (s : State) (k : Nat) (f : Strand → Strand) : (s.updSlot k f).frames = s.frames := rfl
@[simp] theorem State.updSlot_withdrawn (s : State) (k : Nat) (f : Strand → Strand) : (s.updSlot k f).withdrawn = s.withdrawn := rfl
@[simp] theorem State.updSlot_therm (s : State) (k : Nat) (f : Strand → Strand) : (s.updSlot k f).therm = s.therm := rfl
@[simp] theorem State.updSlot_deadCores (s : State) (k : Nat) (f : Strand → Strand) : (s.updSlot k f).deadCores = s.deadCores := rfl
@[simp] theorem State.updSlot_vregLost (s : State) (k : Nat) (f : Strand → Strand) : (s.updSlot k f).vregLost = s.vregLost := rfl
@[simp] theorem State.updSlot_hbmth (s : State) (k : Nat) (f : Strand → Strand) : (s.updSlot k f).hbmth = s.hbmth := rfl
@[simp] theorem State.updSlot_mem (s : State) (k : Nat) (f : Strand → Strand) : (s.updSlot k f).mem = s.mem := rfl
@[simp] theorem State.updSlot_badSectors (s : State) (k : Nat) (f : Strand → Strand) : (s.updSlot k f).badSectors = s.badSectors := rfl
@[simp] theorem State.updSlot_deadGroups (s : State) (k : Nat) (f : Strand → Strand) : (s.updSlot k f).deadGroups = s.deadGroups := rfl
@[simp] theorem State.updSlot_compressed (s : State) (k : Nat) (f : Strand → Strand) : (s.updSlot k f).compressed = s.compressed := rfl
@[simp] theorem State.updSlot_remto (s : State) (k : Nat) (f : Strand → Strand) : (s.updSlot k f).remto = s.remto := rfl
@[simp] theorem State.updSlot_tlb (s : State) (k : Nat) (f : Strand → Strand) : (s.updSlot k f).tlb = s.tlb := rfl
@[simp] theorem State.updSlot_scans (s : State) (k : Nat) (f : Strand → Strand) : (s.updSlot k f).scans = s.scans := rfl
@[simp] theorem State.updSlot_shootdowns (s : State) (k : Nat) (f : Strand → Strand) : (s.updSlot k f).shootdowns = s.shootdowns := rfl
@[simp] theorem State.updSlot_peers (s : State) (k : Nat) (f : Strand → Strand) : (s.updSlot k f).peers = s.peers := rfl
@[simp] theorem State.updSlot_ports (s : State) (k : Nat) (f : Strand → Strand) : (s.updSlot k f).ports = s.ports := rfl
@[simp] theorem State.updSlot_self (s : State) (k : Nat) (f : Strand → Strand) : (s.updSlot k f).self = s.self := rfl
@[simp] theorem State.updSlot_parts (s : State) (k : Nat) (f : Strand → Strand) : (s.updSlot k f).parts = s.parts := rfl
@[simp] theorem State.updSlot_pass (s : State) (k : Nat) (f : Strand → Strand) : (s.updSlot k f).pass = s.pass := rfl
@[simp] theorem State.updSlot_heldRecs (s : State) (k : Nat) (f : Strand → Strand) : (s.updSlot k f).heldRecs = s.heldRecs := rfl
@[simp] theorem State.updSlot_joins (s : State) (k : Nat) (f : Strand → Strand) : (s.updSlot k f).joins = s.joins := rfl
@[simp] theorem State.updSlot_joinOps (s : State) (k : Nat) (f : Strand → Strand) : (s.updSlot k f).joinOps = s.joinOps := rfl
@[simp] theorem State.updSlot_joinReads (s : State) (k : Nat) (f : Strand → Strand) : (s.updSlot k f).joinReads = s.joinReads := rfl
@[simp] theorem State.updSlot_homeWaits (s : State) (k : Nat) (f : Strand → Strand) : (s.updSlot k f).homeWaits = s.homeWaits := rfl
@[simp] theorem State.updSlot_homeWatches (s : State) (k : Nat) (f : Strand → Strand) : (s.updSlot k f).homeWatches = s.homeWatches := rfl
@[simp] theorem State.updSlot_hypFaults (s : State) (k : Nat) (f : Strand → Strand) : (s.updSlot k f).hypFaults = s.hypFaults := rfl
@[simp] theorem State.updSlot_lateFaults (s : State) (k : Nat) (f : Strand → Strand) : (s.updSlot k f).lateFaults = s.lateFaults := rfl
@[simp] theorem State.updSlot_copies (s : State) (k : Nat) (f : Strand → Strand) : (s.updSlot k f).copies = s.copies := rfl
@[simp] theorem State.updSlot_retiredCq (s : State) (k : Nat) (f : Strand → Strand) : (s.updSlot k f).retiredCq = s.retiredCq := rfl
@[simp] theorem State.updSlot_tags (s : State) (k : Nat) (f : Strand → Strand) : (s.updSlot k f).tags = s.tags := rfl
@[simp] theorem State.updSlot_mailboxes (s : State) (k : Nat) (f : Strand → Strand) : (s.updSlot k f).mailboxes = s.mailboxes := rfl
@[simp] theorem State.updSlot_sends (s : State) (k : Nat) (f : Strand → Strand) : (s.updSlot k f).sends = s.sends := rfl
@[simp] theorem State.updSlot_wire (s : State) (k : Nat) (f : Strand → Strand) : (s.updSlot k f).wire = s.wire := rfl
@[simp] theorem State.updSlot_inbox (s : State) (k : Nat) (f : Strand → Strand) : (s.updSlot k f).inbox = s.inbox := rfl
@[simp] theorem State.updSlot_ends (s : State) (k : Nat) (f : Strand → Strand) : (s.updSlot k f).ends = s.ends := rfl
@[simp] theorem State.updSlot_pulled (s : State) (k : Nat) (f : Strand → Strand) : (s.updSlot k f).pulled = s.pulled := rfl
@[simp] theorem State.updSlot_wakes (s : State) (k : Nat) (f : Strand → Strand) : (s.updSlot k f).wakes = s.wakes := rfl
@[simp] theorem State.updSlot_passes (s : State) (k : Nat) (f : Strand → Strand) : (s.updSlot k f).passes = s.passes := rfl
@[simp] theorem State.updSlot_hvring (s : State) (k : Nat) (f : Strand → Strand) : (s.updSlot k f).hvring = s.hvring := rfl
@[simp] theorem State.updSlot_device (s : State) (k : Nat) (f : Strand → Strand) : (s.updSlot k f).device = s.device := rfl
@[simp] theorem State.updSlot_vfs (s : State) (k : Nat) (f : Strand → Strand) : (s.updSlot k f).vfs = s.vfs := rfl
@[simp] theorem State.updSlot_hostMem (s : State) (k : Nat) (f : Strand → Strand) : (s.updSlot k f).hostMem = s.hostMem := rfl
@[simp] theorem State.updSlot_images (s : State) (k : Nat) (f : Strand → Strand) : (s.updSlot k f).images = s.images := rfl
@[simp] theorem State.updSlot_power (s : State) (k : Nat) (f : Strand → Strand) : (s.updSlot k f).power = s.power := rfl
@[simp] theorem State.updSlot_capWatts (s : State) (k : Nat) (f : Strand → Strand) : (s.updSlot k f).capWatts = s.capWatts := rfl
@[simp] theorem State.updSlot_watts (s : State) (k : Nat) (f : Strand → Strand) : (s.updSlot k f).watts = s.watts := rfl
@[simp] theorem State.updSlot_hottest (s : State) (k : Nat) (f : Strand → Strand) : (s.updSlot k f).hottest = s.hottest := rfl
@[simp] theorem State.updSlot_dieTemp (s : State) (k : Nat) (f : Strand → Strand) : (s.updSlot k f).dieTemp = s.dieTemp := rfl
@[simp] theorem State.updSlot_throttleTick (s : State) (k : Nat) (f : Strand → Strand) : (s.updSlot k f).throttleTick = s.throttleTick := rfl
@[simp] theorem State.updSlot_overSince (s : State) (k : Nat) (f : Strand → Strand) : (s.updSlot k f).overSince = s.overSince := rfl
@[simp] theorem State.updSlot_powerHold (s : State) (k : Nat) (f : Strand → Strand) : (s.updSlot k f).powerHold = s.powerHold := rfl
@[simp] theorem State.updSlot_idleSince (s : State) (k : Nat) (f : Strand → Strand) : (s.updSlot k f).idleSince = s.idleSince := rfl
@[simp] theorem State.updSlot_bringUp (s : State) (k : Nat) (f : Strand → Strand) : (s.updSlot k f).bringUp = s.bringUp := rfl
@[simp] theorem State.updSlot_eraseOnAlarm (s : State) (k : Nat) (f : Strand → Strand) : (s.updSlot k f).eraseOnAlarm = s.eraseOnAlarm := rfl
@[simp] theorem State.updSlot_keysGone (s : State) (k : Nat) (f : Strand → Strand) : (s.updSlot k f).keysGone = s.keysGone := rfl
@[simp] theorem State.updSlot_needsProvision (s : State) (k : Nat) (f : Strand → Strand) : (s.updSlot k f).needsProvision = s.needsProvision := rfl
@[simp] theorem State.updSlot_controls (s : State) (k : Nat) (f : Strand → Strand) : (s.updSlot k f).controls = s.controls := rfl
@[simp] theorem State.updSlot_firmware (s : State) (k : Nat) (f : Strand → Strand) : (s.updSlot k f).firmware = s.firmware := rfl
@[simp] theorem State.updSlot_yalush (s : State) (k : Nat) (f : Strand → Strand) : (s.updSlot k f).yalush = s.yalush := rfl
@[simp] theorem State.updSlot_tests (s : State) (k : Nat) (f : Strand → Strand) : (s.updSlot k f).tests = s.tests := rfl
@[simp] theorem State.updSlot_held (s : State) (k : Nat) (f : Strand → Strand) : (s.updSlot k f).held = s.held := rfl
@[simp] theorem State.updSlot_outbox (s : State) (k : Nat) (f : Strand → Strand) : (s.updSlot k f).outbox = s.outbox := rfl

/-! ### State.upd -/

@[simp] theorem State.upd_agenda (s : State) (f : Strand → Strand) : (s.upd f).agenda = s.agenda := rfl
@[simp] theorem State.upd_cur (s : State) (f : Strand → Strand) : (s.upd f).cur = s.cur := rfl
@[simp] theorem State.upd_arg (s : State) (f : Strand → Strand) : (s.upd f).arg = s.arg := rfl
@[simp] theorem State.upd_fresh (s : State) (f : Strand → Strand) : (s.upd f).fresh = s.fresh := rfl
@[simp] theorem State.upd_seq (s : State) (f : Strand → Strand) : (s.upd f).seq = s.seq := rfl
@[simp] theorem State.upd_cycle (s : State) (f : Strand → Strand) : (s.upd f).cycle = s.cycle := rfl
@[simp] theorem State.upd_lastSlot (s : State) (f : Strand → Strand) : (s.upd f).lastSlot = s.lastSlot := rfl
@[simp] theorem State.upd_issued (s : State) (f : Strand → Strand) : (s.upd f).issued = s.issued := rfl
@[simp] theorem State.upd_passed (s : State) (f : Strand → Strand) : (s.upd f).passed = s.passed := rfl
@[simp] theorem State.upd_lastM (s : State) (f : Strand → Strand) : (s.upd f).lastM = s.lastM := rfl
@[simp] theorem State.upd_lastC (s : State) (f : Strand → Strand) : (s.upd f).lastC = s.lastC := rfl
@[simp] theorem State.upd_gangs (s : State) (f : Strand → Strand) : (s.upd f).gangs = s.gangs := rfl
@[simp] theorem State.upd_frames (s : State) (f : Strand → Strand) : (s.upd f).frames = s.frames := rfl
@[simp] theorem State.upd_withdrawn (s : State) (f : Strand → Strand) : (s.upd f).withdrawn = s.withdrawn := rfl
@[simp] theorem State.upd_therm (s : State) (f : Strand → Strand) : (s.upd f).therm = s.therm := rfl
@[simp] theorem State.upd_deadCores (s : State) (f : Strand → Strand) : (s.upd f).deadCores = s.deadCores := rfl
@[simp] theorem State.upd_vregLost (s : State) (f : Strand → Strand) : (s.upd f).vregLost = s.vregLost := rfl
@[simp] theorem State.upd_hbmth (s : State) (f : Strand → Strand) : (s.upd f).hbmth = s.hbmth := rfl
@[simp] theorem State.upd_mem (s : State) (f : Strand → Strand) : (s.upd f).mem = s.mem := rfl
@[simp] theorem State.upd_badSectors (s : State) (f : Strand → Strand) : (s.upd f).badSectors = s.badSectors := rfl
@[simp] theorem State.upd_deadGroups (s : State) (f : Strand → Strand) : (s.upd f).deadGroups = s.deadGroups := rfl
@[simp] theorem State.upd_compressed (s : State) (f : Strand → Strand) : (s.upd f).compressed = s.compressed := rfl
@[simp] theorem State.upd_remto (s : State) (f : Strand → Strand) : (s.upd f).remto = s.remto := rfl
@[simp] theorem State.upd_tlb (s : State) (f : Strand → Strand) : (s.upd f).tlb = s.tlb := rfl
@[simp] theorem State.upd_scans (s : State) (f : Strand → Strand) : (s.upd f).scans = s.scans := rfl
@[simp] theorem State.upd_shootdowns (s : State) (f : Strand → Strand) : (s.upd f).shootdowns = s.shootdowns := rfl
@[simp] theorem State.upd_peers (s : State) (f : Strand → Strand) : (s.upd f).peers = s.peers := rfl
@[simp] theorem State.upd_ports (s : State) (f : Strand → Strand) : (s.upd f).ports = s.ports := rfl
@[simp] theorem State.upd_self (s : State) (f : Strand → Strand) : (s.upd f).self = s.self := rfl
@[simp] theorem State.upd_parts (s : State) (f : Strand → Strand) : (s.upd f).parts = s.parts := rfl
@[simp] theorem State.upd_pass (s : State) (f : Strand → Strand) : (s.upd f).pass = s.pass := rfl
@[simp] theorem State.upd_heldRecs (s : State) (f : Strand → Strand) : (s.upd f).heldRecs = s.heldRecs := rfl
@[simp] theorem State.upd_joins (s : State) (f : Strand → Strand) : (s.upd f).joins = s.joins := rfl
@[simp] theorem State.upd_joinOps (s : State) (f : Strand → Strand) : (s.upd f).joinOps = s.joinOps := rfl
@[simp] theorem State.upd_joinReads (s : State) (f : Strand → Strand) : (s.upd f).joinReads = s.joinReads := rfl
@[simp] theorem State.upd_homeWaits (s : State) (f : Strand → Strand) : (s.upd f).homeWaits = s.homeWaits := rfl
@[simp] theorem State.upd_homeWatches (s : State) (f : Strand → Strand) : (s.upd f).homeWatches = s.homeWatches := rfl
@[simp] theorem State.upd_hypFaults (s : State) (f : Strand → Strand) : (s.upd f).hypFaults = s.hypFaults := rfl
@[simp] theorem State.upd_lateFaults (s : State) (f : Strand → Strand) : (s.upd f).lateFaults = s.lateFaults := rfl
@[simp] theorem State.upd_copies (s : State) (f : Strand → Strand) : (s.upd f).copies = s.copies := rfl
@[simp] theorem State.upd_retiredCq (s : State) (f : Strand → Strand) : (s.upd f).retiredCq = s.retiredCq := rfl
@[simp] theorem State.upd_tags (s : State) (f : Strand → Strand) : (s.upd f).tags = s.tags := rfl
@[simp] theorem State.upd_mailboxes (s : State) (f : Strand → Strand) : (s.upd f).mailboxes = s.mailboxes := rfl
@[simp] theorem State.upd_sends (s : State) (f : Strand → Strand) : (s.upd f).sends = s.sends := rfl
@[simp] theorem State.upd_wire (s : State) (f : Strand → Strand) : (s.upd f).wire = s.wire := rfl
@[simp] theorem State.upd_inbox (s : State) (f : Strand → Strand) : (s.upd f).inbox = s.inbox := rfl
@[simp] theorem State.upd_ends (s : State) (f : Strand → Strand) : (s.upd f).ends = s.ends := rfl
@[simp] theorem State.upd_pulled (s : State) (f : Strand → Strand) : (s.upd f).pulled = s.pulled := rfl
@[simp] theorem State.upd_wakes (s : State) (f : Strand → Strand) : (s.upd f).wakes = s.wakes := rfl
@[simp] theorem State.upd_passes (s : State) (f : Strand → Strand) : (s.upd f).passes = s.passes := rfl
@[simp] theorem State.upd_hvring (s : State) (f : Strand → Strand) : (s.upd f).hvring = s.hvring := rfl
@[simp] theorem State.upd_device (s : State) (f : Strand → Strand) : (s.upd f).device = s.device := rfl
@[simp] theorem State.upd_vfs (s : State) (f : Strand → Strand) : (s.upd f).vfs = s.vfs := rfl
@[simp] theorem State.upd_hostMem (s : State) (f : Strand → Strand) : (s.upd f).hostMem = s.hostMem := rfl
@[simp] theorem State.upd_images (s : State) (f : Strand → Strand) : (s.upd f).images = s.images := rfl
@[simp] theorem State.upd_power (s : State) (f : Strand → Strand) : (s.upd f).power = s.power := rfl
@[simp] theorem State.upd_capWatts (s : State) (f : Strand → Strand) : (s.upd f).capWatts = s.capWatts := rfl
@[simp] theorem State.upd_watts (s : State) (f : Strand → Strand) : (s.upd f).watts = s.watts := rfl
@[simp] theorem State.upd_hottest (s : State) (f : Strand → Strand) : (s.upd f).hottest = s.hottest := rfl
@[simp] theorem State.upd_dieTemp (s : State) (f : Strand → Strand) : (s.upd f).dieTemp = s.dieTemp := rfl
@[simp] theorem State.upd_throttleTick (s : State) (f : Strand → Strand) : (s.upd f).throttleTick = s.throttleTick := rfl
@[simp] theorem State.upd_overSince (s : State) (f : Strand → Strand) : (s.upd f).overSince = s.overSince := rfl
@[simp] theorem State.upd_powerHold (s : State) (f : Strand → Strand) : (s.upd f).powerHold = s.powerHold := rfl
@[simp] theorem State.upd_idleSince (s : State) (f : Strand → Strand) : (s.upd f).idleSince = s.idleSince := rfl
@[simp] theorem State.upd_bringUp (s : State) (f : Strand → Strand) : (s.upd f).bringUp = s.bringUp := rfl
@[simp] theorem State.upd_eraseOnAlarm (s : State) (f : Strand → Strand) : (s.upd f).eraseOnAlarm = s.eraseOnAlarm := rfl
@[simp] theorem State.upd_keysGone (s : State) (f : Strand → Strand) : (s.upd f).keysGone = s.keysGone := rfl
@[simp] theorem State.upd_needsProvision (s : State) (f : Strand → Strand) : (s.upd f).needsProvision = s.needsProvision := rfl
@[simp] theorem State.upd_controls (s : State) (f : Strand → Strand) : (s.upd f).controls = s.controls := rfl
@[simp] theorem State.upd_firmware (s : State) (f : Strand → Strand) : (s.upd f).firmware = s.firmware := rfl
@[simp] theorem State.upd_yalush (s : State) (f : Strand → Strand) : (s.upd f).yalush = s.yalush := rfl
@[simp] theorem State.upd_tests (s : State) (f : Strand → Strand) : (s.upd f).tests = s.tests := rfl
@[simp] theorem State.upd_held (s : State) (f : Strand → Strand) : (s.upd f).held = s.held := rfl
@[simp] theorem State.upd_outbox (s : State) (f : Strand → Strand) : (s.upd f).outbox = s.outbox := rfl

/-! ### State.updPart -/

@[simp] theorem State.updPart_agenda (s : State) (p : BitVec 6) (f : Partition → Partition) : (s.updPart p f).agenda = s.agenda := rfl
@[simp] theorem State.updPart_cur (s : State) (p : BitVec 6) (f : Partition → Partition) : (s.updPart p f).cur = s.cur := rfl
@[simp] theorem State.updPart_arg (s : State) (p : BitVec 6) (f : Partition → Partition) : (s.updPart p f).arg = s.arg := rfl
@[simp] theorem State.updPart_fresh (s : State) (p : BitVec 6) (f : Partition → Partition) : (s.updPart p f).fresh = s.fresh := rfl
@[simp] theorem State.updPart_seq (s : State) (p : BitVec 6) (f : Partition → Partition) : (s.updPart p f).seq = s.seq := rfl
@[simp] theorem State.updPart_cycle (s : State) (p : BitVec 6) (f : Partition → Partition) : (s.updPart p f).cycle = s.cycle := rfl
@[simp] theorem State.updPart_strands (s : State) (p : BitVec 6) (f : Partition → Partition) : (s.updPart p f).strands = s.strands := rfl
@[simp] theorem State.updPart_lastSlot (s : State) (p : BitVec 6) (f : Partition → Partition) : (s.updPart p f).lastSlot = s.lastSlot := rfl
@[simp] theorem State.updPart_issued (s : State) (p : BitVec 6) (f : Partition → Partition) : (s.updPart p f).issued = s.issued := rfl
@[simp] theorem State.updPart_passed (s : State) (p : BitVec 6) (f : Partition → Partition) : (s.updPart p f).passed = s.passed := rfl
@[simp] theorem State.updPart_lastM (s : State) (p : BitVec 6) (f : Partition → Partition) : (s.updPart p f).lastM = s.lastM := rfl
@[simp] theorem State.updPart_lastC (s : State) (p : BitVec 6) (f : Partition → Partition) : (s.updPart p f).lastC = s.lastC := rfl
@[simp] theorem State.updPart_gangs (s : State) (p : BitVec 6) (f : Partition → Partition) : (s.updPart p f).gangs = s.gangs := rfl
@[simp] theorem State.updPart_frames (s : State) (p : BitVec 6) (f : Partition → Partition) : (s.updPart p f).frames = s.frames := rfl
@[simp] theorem State.updPart_withdrawn (s : State) (p : BitVec 6) (f : Partition → Partition) : (s.updPart p f).withdrawn = s.withdrawn := rfl
@[simp] theorem State.updPart_therm (s : State) (p : BitVec 6) (f : Partition → Partition) : (s.updPart p f).therm = s.therm := rfl
@[simp] theorem State.updPart_deadCores (s : State) (p : BitVec 6) (f : Partition → Partition) : (s.updPart p f).deadCores = s.deadCores := rfl
@[simp] theorem State.updPart_vregLost (s : State) (p : BitVec 6) (f : Partition → Partition) : (s.updPart p f).vregLost = s.vregLost := rfl
@[simp] theorem State.updPart_hbmth (s : State) (p : BitVec 6) (f : Partition → Partition) : (s.updPart p f).hbmth = s.hbmth := rfl
@[simp] theorem State.updPart_mem (s : State) (p : BitVec 6) (f : Partition → Partition) : (s.updPart p f).mem = s.mem := rfl
@[simp] theorem State.updPart_badSectors (s : State) (p : BitVec 6) (f : Partition → Partition) : (s.updPart p f).badSectors = s.badSectors := rfl
@[simp] theorem State.updPart_deadGroups (s : State) (p : BitVec 6) (f : Partition → Partition) : (s.updPart p f).deadGroups = s.deadGroups := rfl
@[simp] theorem State.updPart_compressed (s : State) (p : BitVec 6) (f : Partition → Partition) : (s.updPart p f).compressed = s.compressed := rfl
@[simp] theorem State.updPart_remto (s : State) (p : BitVec 6) (f : Partition → Partition) : (s.updPart p f).remto = s.remto := rfl
@[simp] theorem State.updPart_tlb (s : State) (p : BitVec 6) (f : Partition → Partition) : (s.updPart p f).tlb = s.tlb := rfl
@[simp] theorem State.updPart_scans (s : State) (p : BitVec 6) (f : Partition → Partition) : (s.updPart p f).scans = s.scans := rfl
@[simp] theorem State.updPart_shootdowns (s : State) (p : BitVec 6) (f : Partition → Partition) : (s.updPart p f).shootdowns = s.shootdowns := rfl
@[simp] theorem State.updPart_peers (s : State) (p : BitVec 6) (f : Partition → Partition) : (s.updPart p f).peers = s.peers := rfl
@[simp] theorem State.updPart_ports (s : State) (p : BitVec 6) (f : Partition → Partition) : (s.updPart p f).ports = s.ports := rfl
@[simp] theorem State.updPart_self (s : State) (p : BitVec 6) (f : Partition → Partition) : (s.updPart p f).self = s.self := rfl
@[simp] theorem State.updPart_pass (s : State) (p : BitVec 6) (f : Partition → Partition) : (s.updPart p f).pass = s.pass := rfl
@[simp] theorem State.updPart_heldRecs (s : State) (p : BitVec 6) (f : Partition → Partition) : (s.updPart p f).heldRecs = s.heldRecs := rfl
@[simp] theorem State.updPart_joins (s : State) (p : BitVec 6) (f : Partition → Partition) : (s.updPart p f).joins = s.joins := rfl
@[simp] theorem State.updPart_joinOps (s : State) (p : BitVec 6) (f : Partition → Partition) : (s.updPart p f).joinOps = s.joinOps := rfl
@[simp] theorem State.updPart_joinReads (s : State) (p : BitVec 6) (f : Partition → Partition) : (s.updPart p f).joinReads = s.joinReads := rfl
@[simp] theorem State.updPart_homeWaits (s : State) (p : BitVec 6) (f : Partition → Partition) : (s.updPart p f).homeWaits = s.homeWaits := rfl
@[simp] theorem State.updPart_homeWatches (s : State) (p : BitVec 6) (f : Partition → Partition) : (s.updPart p f).homeWatches = s.homeWatches := rfl
@[simp] theorem State.updPart_hypFaults (s : State) (p : BitVec 6) (f : Partition → Partition) : (s.updPart p f).hypFaults = s.hypFaults := rfl
@[simp] theorem State.updPart_lateFaults (s : State) (p : BitVec 6) (f : Partition → Partition) : (s.updPart p f).lateFaults = s.lateFaults := rfl
@[simp] theorem State.updPart_copies (s : State) (p : BitVec 6) (f : Partition → Partition) : (s.updPart p f).copies = s.copies := rfl
@[simp] theorem State.updPart_retiredCq (s : State) (p : BitVec 6) (f : Partition → Partition) : (s.updPart p f).retiredCq = s.retiredCq := rfl
@[simp] theorem State.updPart_tags (s : State) (p : BitVec 6) (f : Partition → Partition) : (s.updPart p f).tags = s.tags := rfl
@[simp] theorem State.updPart_mailboxes (s : State) (p : BitVec 6) (f : Partition → Partition) : (s.updPart p f).mailboxes = s.mailboxes := rfl
@[simp] theorem State.updPart_sends (s : State) (p : BitVec 6) (f : Partition → Partition) : (s.updPart p f).sends = s.sends := rfl
@[simp] theorem State.updPart_wire (s : State) (p : BitVec 6) (f : Partition → Partition) : (s.updPart p f).wire = s.wire := rfl
@[simp] theorem State.updPart_inbox (s : State) (p : BitVec 6) (f : Partition → Partition) : (s.updPart p f).inbox = s.inbox := rfl
@[simp] theorem State.updPart_ends (s : State) (p : BitVec 6) (f : Partition → Partition) : (s.updPart p f).ends = s.ends := rfl
@[simp] theorem State.updPart_pulled (s : State) (p : BitVec 6) (f : Partition → Partition) : (s.updPart p f).pulled = s.pulled := rfl
@[simp] theorem State.updPart_wakes (s : State) (p : BitVec 6) (f : Partition → Partition) : (s.updPart p f).wakes = s.wakes := rfl
@[simp] theorem State.updPart_passes (s : State) (p : BitVec 6) (f : Partition → Partition) : (s.updPart p f).passes = s.passes := rfl
@[simp] theorem State.updPart_hvring (s : State) (p : BitVec 6) (f : Partition → Partition) : (s.updPart p f).hvring = s.hvring := rfl
@[simp] theorem State.updPart_device (s : State) (p : BitVec 6) (f : Partition → Partition) : (s.updPart p f).device = s.device := rfl
@[simp] theorem State.updPart_vfs (s : State) (p : BitVec 6) (f : Partition → Partition) : (s.updPart p f).vfs = s.vfs := rfl
@[simp] theorem State.updPart_hostMem (s : State) (p : BitVec 6) (f : Partition → Partition) : (s.updPart p f).hostMem = s.hostMem := rfl
@[simp] theorem State.updPart_images (s : State) (p : BitVec 6) (f : Partition → Partition) : (s.updPart p f).images = s.images := rfl
@[simp] theorem State.updPart_power (s : State) (p : BitVec 6) (f : Partition → Partition) : (s.updPart p f).power = s.power := rfl
@[simp] theorem State.updPart_capWatts (s : State) (p : BitVec 6) (f : Partition → Partition) : (s.updPart p f).capWatts = s.capWatts := rfl
@[simp] theorem State.updPart_watts (s : State) (p : BitVec 6) (f : Partition → Partition) : (s.updPart p f).watts = s.watts := rfl
@[simp] theorem State.updPart_hottest (s : State) (p : BitVec 6) (f : Partition → Partition) : (s.updPart p f).hottest = s.hottest := rfl
@[simp] theorem State.updPart_dieTemp (s : State) (p : BitVec 6) (f : Partition → Partition) : (s.updPart p f).dieTemp = s.dieTemp := rfl
@[simp] theorem State.updPart_throttleTick (s : State) (p : BitVec 6) (f : Partition → Partition) : (s.updPart p f).throttleTick = s.throttleTick := rfl
@[simp] theorem State.updPart_overSince (s : State) (p : BitVec 6) (f : Partition → Partition) : (s.updPart p f).overSince = s.overSince := rfl
@[simp] theorem State.updPart_powerHold (s : State) (p : BitVec 6) (f : Partition → Partition) : (s.updPart p f).powerHold = s.powerHold := rfl
@[simp] theorem State.updPart_idleSince (s : State) (p : BitVec 6) (f : Partition → Partition) : (s.updPart p f).idleSince = s.idleSince := rfl
@[simp] theorem State.updPart_bringUp (s : State) (p : BitVec 6) (f : Partition → Partition) : (s.updPart p f).bringUp = s.bringUp := rfl
@[simp] theorem State.updPart_eraseOnAlarm (s : State) (p : BitVec 6) (f : Partition → Partition) : (s.updPart p f).eraseOnAlarm = s.eraseOnAlarm := rfl
@[simp] theorem State.updPart_keysGone (s : State) (p : BitVec 6) (f : Partition → Partition) : (s.updPart p f).keysGone = s.keysGone := rfl
@[simp] theorem State.updPart_needsProvision (s : State) (p : BitVec 6) (f : Partition → Partition) : (s.updPart p f).needsProvision = s.needsProvision := rfl
@[simp] theorem State.updPart_controls (s : State) (p : BitVec 6) (f : Partition → Partition) : (s.updPart p f).controls = s.controls := rfl
@[simp] theorem State.updPart_firmware (s : State) (p : BitVec 6) (f : Partition → Partition) : (s.updPart p f).firmware = s.firmware := rfl
@[simp] theorem State.updPart_yalush (s : State) (p : BitVec 6) (f : Partition → Partition) : (s.updPart p f).yalush = s.yalush := rfl
@[simp] theorem State.updPart_tests (s : State) (p : BitVec 6) (f : Partition → Partition) : (s.updPart p f).tests = s.tests := rfl
@[simp] theorem State.updPart_held (s : State) (p : BitVec 6) (f : Partition → Partition) : (s.updPart p f).held = s.held := rfl
@[simp] theorem State.updPart_outbox (s : State) (p : BitVec 6) (f : Partition → Partition) : (s.updPart p f).outbox = s.outbox := rfl

/-! ### State.nextSeq -/

@[simp] theorem State.nextSeq_agenda (s : State) : (s.nextSeq.2).agenda = s.agenda := rfl
@[simp] theorem State.nextSeq_cur (s : State) : (s.nextSeq.2).cur = s.cur := rfl
@[simp] theorem State.nextSeq_arg (s : State) : (s.nextSeq.2).arg = s.arg := rfl
@[simp] theorem State.nextSeq_fresh (s : State) : (s.nextSeq.2).fresh = s.fresh := rfl
@[simp] theorem State.nextSeq_cycle (s : State) : (s.nextSeq.2).cycle = s.cycle := rfl
@[simp] theorem State.nextSeq_strands (s : State) : (s.nextSeq.2).strands = s.strands := rfl
@[simp] theorem State.nextSeq_lastSlot (s : State) : (s.nextSeq.2).lastSlot = s.lastSlot := rfl
@[simp] theorem State.nextSeq_issued (s : State) : (s.nextSeq.2).issued = s.issued := rfl
@[simp] theorem State.nextSeq_passed (s : State) : (s.nextSeq.2).passed = s.passed := rfl
@[simp] theorem State.nextSeq_lastM (s : State) : (s.nextSeq.2).lastM = s.lastM := rfl
@[simp] theorem State.nextSeq_lastC (s : State) : (s.nextSeq.2).lastC = s.lastC := rfl
@[simp] theorem State.nextSeq_gangs (s : State) : (s.nextSeq.2).gangs = s.gangs := rfl
@[simp] theorem State.nextSeq_frames (s : State) : (s.nextSeq.2).frames = s.frames := rfl
@[simp] theorem State.nextSeq_withdrawn (s : State) : (s.nextSeq.2).withdrawn = s.withdrawn := rfl
@[simp] theorem State.nextSeq_therm (s : State) : (s.nextSeq.2).therm = s.therm := rfl
@[simp] theorem State.nextSeq_deadCores (s : State) : (s.nextSeq.2).deadCores = s.deadCores := rfl
@[simp] theorem State.nextSeq_vregLost (s : State) : (s.nextSeq.2).vregLost = s.vregLost := rfl
@[simp] theorem State.nextSeq_hbmth (s : State) : (s.nextSeq.2).hbmth = s.hbmth := rfl
@[simp] theorem State.nextSeq_mem (s : State) : (s.nextSeq.2).mem = s.mem := rfl
@[simp] theorem State.nextSeq_badSectors (s : State) : (s.nextSeq.2).badSectors = s.badSectors := rfl
@[simp] theorem State.nextSeq_deadGroups (s : State) : (s.nextSeq.2).deadGroups = s.deadGroups := rfl
@[simp] theorem State.nextSeq_compressed (s : State) : (s.nextSeq.2).compressed = s.compressed := rfl
@[simp] theorem State.nextSeq_remto (s : State) : (s.nextSeq.2).remto = s.remto := rfl
@[simp] theorem State.nextSeq_tlb (s : State) : (s.nextSeq.2).tlb = s.tlb := rfl
@[simp] theorem State.nextSeq_scans (s : State) : (s.nextSeq.2).scans = s.scans := rfl
@[simp] theorem State.nextSeq_shootdowns (s : State) : (s.nextSeq.2).shootdowns = s.shootdowns := rfl
@[simp] theorem State.nextSeq_peers (s : State) : (s.nextSeq.2).peers = s.peers := rfl
@[simp] theorem State.nextSeq_ports (s : State) : (s.nextSeq.2).ports = s.ports := rfl
@[simp] theorem State.nextSeq_self (s : State) : (s.nextSeq.2).self = s.self := rfl
@[simp] theorem State.nextSeq_parts (s : State) : (s.nextSeq.2).parts = s.parts := rfl
@[simp] theorem State.nextSeq_pass (s : State) : (s.nextSeq.2).pass = s.pass := rfl
@[simp] theorem State.nextSeq_heldRecs (s : State) : (s.nextSeq.2).heldRecs = s.heldRecs := rfl
@[simp] theorem State.nextSeq_joins (s : State) : (s.nextSeq.2).joins = s.joins := rfl
@[simp] theorem State.nextSeq_joinOps (s : State) : (s.nextSeq.2).joinOps = s.joinOps := rfl
@[simp] theorem State.nextSeq_joinReads (s : State) : (s.nextSeq.2).joinReads = s.joinReads := rfl
@[simp] theorem State.nextSeq_homeWaits (s : State) : (s.nextSeq.2).homeWaits = s.homeWaits := rfl
@[simp] theorem State.nextSeq_homeWatches (s : State) : (s.nextSeq.2).homeWatches = s.homeWatches := rfl
@[simp] theorem State.nextSeq_hypFaults (s : State) : (s.nextSeq.2).hypFaults = s.hypFaults := rfl
@[simp] theorem State.nextSeq_lateFaults (s : State) : (s.nextSeq.2).lateFaults = s.lateFaults := rfl
@[simp] theorem State.nextSeq_copies (s : State) : (s.nextSeq.2).copies = s.copies := rfl
@[simp] theorem State.nextSeq_retiredCq (s : State) : (s.nextSeq.2).retiredCq = s.retiredCq := rfl
@[simp] theorem State.nextSeq_tags (s : State) : (s.nextSeq.2).tags = s.tags := rfl
@[simp] theorem State.nextSeq_mailboxes (s : State) : (s.nextSeq.2).mailboxes = s.mailboxes := rfl
@[simp] theorem State.nextSeq_sends (s : State) : (s.nextSeq.2).sends = s.sends := rfl
@[simp] theorem State.nextSeq_wire (s : State) : (s.nextSeq.2).wire = s.wire := rfl
@[simp] theorem State.nextSeq_inbox (s : State) : (s.nextSeq.2).inbox = s.inbox := rfl
@[simp] theorem State.nextSeq_ends (s : State) : (s.nextSeq.2).ends = s.ends := rfl
@[simp] theorem State.nextSeq_pulled (s : State) : (s.nextSeq.2).pulled = s.pulled := rfl
@[simp] theorem State.nextSeq_wakes (s : State) : (s.nextSeq.2).wakes = s.wakes := rfl
@[simp] theorem State.nextSeq_passes (s : State) : (s.nextSeq.2).passes = s.passes := rfl
@[simp] theorem State.nextSeq_hvring (s : State) : (s.nextSeq.2).hvring = s.hvring := rfl
@[simp] theorem State.nextSeq_device (s : State) : (s.nextSeq.2).device = s.device := rfl
@[simp] theorem State.nextSeq_vfs (s : State) : (s.nextSeq.2).vfs = s.vfs := rfl
@[simp] theorem State.nextSeq_hostMem (s : State) : (s.nextSeq.2).hostMem = s.hostMem := rfl
@[simp] theorem State.nextSeq_images (s : State) : (s.nextSeq.2).images = s.images := rfl
@[simp] theorem State.nextSeq_power (s : State) : (s.nextSeq.2).power = s.power := rfl
@[simp] theorem State.nextSeq_capWatts (s : State) : (s.nextSeq.2).capWatts = s.capWatts := rfl
@[simp] theorem State.nextSeq_watts (s : State) : (s.nextSeq.2).watts = s.watts := rfl
@[simp] theorem State.nextSeq_hottest (s : State) : (s.nextSeq.2).hottest = s.hottest := rfl
@[simp] theorem State.nextSeq_dieTemp (s : State) : (s.nextSeq.2).dieTemp = s.dieTemp := rfl
@[simp] theorem State.nextSeq_throttleTick (s : State) : (s.nextSeq.2).throttleTick = s.throttleTick := rfl
@[simp] theorem State.nextSeq_overSince (s : State) : (s.nextSeq.2).overSince = s.overSince := rfl
@[simp] theorem State.nextSeq_powerHold (s : State) : (s.nextSeq.2).powerHold = s.powerHold := rfl
@[simp] theorem State.nextSeq_idleSince (s : State) : (s.nextSeq.2).idleSince = s.idleSince := rfl
@[simp] theorem State.nextSeq_bringUp (s : State) : (s.nextSeq.2).bringUp = s.bringUp := rfl
@[simp] theorem State.nextSeq_eraseOnAlarm (s : State) : (s.nextSeq.2).eraseOnAlarm = s.eraseOnAlarm := rfl
@[simp] theorem State.nextSeq_keysGone (s : State) : (s.nextSeq.2).keysGone = s.keysGone := rfl
@[simp] theorem State.nextSeq_needsProvision (s : State) : (s.nextSeq.2).needsProvision = s.needsProvision := rfl
@[simp] theorem State.nextSeq_controls (s : State) : (s.nextSeq.2).controls = s.controls := rfl
@[simp] theorem State.nextSeq_firmware (s : State) : (s.nextSeq.2).firmware = s.firmware := rfl
@[simp] theorem State.nextSeq_yalush (s : State) : (s.nextSeq.2).yalush = s.yalush := rfl
@[simp] theorem State.nextSeq_tests (s : State) : (s.nextSeq.2).tests = s.tests := rfl
@[simp] theorem State.nextSeq_held (s : State) : (s.nextSeq.2).held = s.held := rfl
@[simp] theorem State.nextSeq_outbox (s : State) : (s.nextSeq.2).outbox = s.outbox := rfl

/-! ### Strand.goto -/

@[simp] theorem Strand.goto_phase (t : Strand) (pc : Word) : (t.goto pc).phase = t.phase := rfl
@[simp] theorem Strand.goto_gang (t : Strand) (pc : Word) : (t.goto pc).gang = t.gang := rfl
@[simp] theorem Strand.goto_rank (t : Strand) (pc : Word) : (t.goto pc).rank = t.rank := rfl
@[simp] theorem Strand.goto_rcd (t : Strand) (pc : Word) : (t.goto pc).rcd = t.rcd := rfl
@[simp] theorem Strand.goto_part (t : Strand) (pc : Word) : (t.goto pc).part = t.part := rfl
@[simp] theorem Strand.goto_s (t : Strand) (pc : Word) : (t.goto pc).s = t.s := rfl
@[simp] theorem Strand.goto_v (t : Strand) (pc : Word) : (t.goto pc).v = t.v := rfl
@[simp] theorem Strand.goto_k (t : Strand) (pc : Word) : (t.goto pc).k = t.k := rfl
@[simp] theorem Strand.goto_vl (t : Strand) (pc : Word) : (t.goto pc).vl = t.vl := rfl
@[simp] theorem Strand.goto_sew (t : Strand) (pc : Word) : (t.goto pc).sew = t.sew := rfl
@[simp] theorem Strand.goto_gm (t : Strand) (pc : Word) : (t.goto pc).gm = t.gm := rfl
@[simp] theorem Strand.goto_mw (t : Strand) (pc : Word) : (t.goto pc).mw = t.mw := rfl
@[simp] theorem Strand.goto_tsh (t : Strand) (pc : Word) : (t.goto pc).tsh = t.tsh := rfl
@[simp] theorem Strand.goto_vstat (t : Strand) (pc : Word) : (t.goto pc).vstat = t.vstat := rfl
@[simp] theorem Strand.goto_srseed (t : Strand) (pc : Word) : (t.goto pc).srseed = t.srseed := rfl
@[simp] theorem Strand.goto_vbank (t : Strand) (pc : Word) : (t.goto pc).vbank = t.vbank := rfl
@[simp] theorem Strand.goto_mbank (t : Strand) (pc : Word) : (t.goto pc).mbank = t.mbank := rfl
@[simp] theorem Strand.goto_mseed (t : Strand) (pc : Word) : (t.goto pc).mseed = t.mseed := rfl
@[simp] theorem Strand.goto_fq (t : Strand) (pc : Word) : (t.goto pc).fq = t.fq := rfl
@[simp] theorem Strand.goto_sf (t : Strand) (pc : Word) : (t.goto pc).sf = t.sf := rfl
@[simp] theorem Strand.goto_lim (t : Strand) (pc : Word) : (t.goto pc).lim = t.lim := rfl
@[simp] theorem Strand.goto_fills (t : Strand) (pc : Word) : (t.goto pc).fills = t.fills := rfl
@[simp] theorem Strand.goto_spills (t : Strand) (pc : Word) : (t.goto pc).spills = t.spills := rfl
@[simp] theorem Strand.goto_ftbase (t : Strand) (pc : Word) : (t.goto pc).ftbase = t.ftbase := rfl
@[simp] theorem Strand.goto_ftlen (t : Strand) (pc : Word) : (t.goto pc).ftlen = t.ftlen := rfl
@[simp] theorem Strand.goto_tok (t : Strand) (pc : Word) : (t.goto pc).tok = t.tok := rfl
@[simp] theorem Strand.goto_tokRes (t : Strand) (pc : Word) : (t.goto pc).tokRes = t.tokRes := rfl
@[simp] theorem Strand.goto_tokNew (t : Strand) (pc : Word) : (t.goto pc).tokNew = t.tokNew := rfl
@[simp] theorem Strand.goto_guards (t : Strand) (pc : Word) : (t.goto pc).guards = t.guards := rfl
@[simp] theorem Strand.goto_sbPend (t : Strand) (pc : Word) : (t.goto pc).sbPend = t.sbPend := rfl
@[simp] theorem Strand.goto_sbErr (t : Strand) (pc : Word) : (t.goto pc).sbErr = t.sbErr := rfl
@[simp] theorem Strand.goto_sbOwner (t : Strand) (pc : Word) : (t.goto pc).sbOwner = t.sbOwner := rfl
@[simp] theorem Strand.goto_sbFail (t : Strand) (pc : Word) : (t.goto pc).sbFail = t.sbFail := rfl
@[simp] theorem Strand.goto_swCur (t : Strand) (pc : Word) : (t.goto pc).swCur = t.swCur := rfl
@[simp] theorem Strand.goto_swAct (t : Strand) (pc : Word) : (t.goto pc).swAct = t.swAct := rfl
@[simp] theorem Strand.goto_swGrp (t : Strand) (pc : Word) : (t.goto pc).swGrp = t.swGrp := rfl
@[simp] theorem Strand.goto_swAwk (t : Strand) (pc : Word) : (t.goto pc).swAwk = t.swAwk := rfl
@[simp] theorem Strand.goto_swErr (t : Strand) (pc : Word) : (t.goto pc).swErr = t.swErr := rfl
@[simp] theorem Strand.goto_sweep (t : Strand) (pc : Word) : (t.goto pc).sweep = t.sweep := rfl
@[simp] theorem Strand.goto_runtk (t : Strand) (pc : Word) : (t.goto pc).runtk = t.runtk := rfl
@[simp] theorem Strand.goto_wdlim (t : Strand) (pc : Word) : (t.goto pc).wdlim = t.wdlim := rfl
@[simp] theorem Strand.goto_perfSel (t : Strand) (pc : Word) : (t.goto pc).perfSel = t.perfSel := rfl
@[simp] theorem Strand.goto_perfCnt (t : Strand) (pc : Word) : (t.goto pc).perfCnt = t.perfCnt := rfl
@[simp] theorem Strand.goto_perfNext (t : Strand) (pc : Word) : (t.goto pc).perfNext = t.perfNext := rfl
@[simp] theorem Strand.goto_evFlag (t : Strand) (pc : Word) : (t.goto pc).evFlag = t.evFlag := rfl
@[simp] theorem Strand.goto_watch (t : Strand) (pc : Word) : (t.goto pc).watch = t.watch := rfl
@[simp] theorem Strand.goto_links (t : Strand) (pc : Word) : (t.goto pc).links = t.links := rfl
@[simp] theorem Strand.goto_unacked (t : Strand) (pc : Word) : (t.goto pc).unacked = t.unacked := rfl
@[simp] theorem Strand.goto_acks (t : Strand) (pc : Word) : (t.goto pc).acks = t.acks := rfl
@[simp] theorem Strand.goto_marks (t : Strand) (pc : Word) : (t.goto pc).marks = t.marks := rfl
@[simp] theorem Strand.goto_badS (t : Strand) (pc : Word) : (t.goto pc).badS = t.badS := rfl
@[simp] theorem Strand.goto_badK (t : Strand) (pc : Word) : (t.goto pc).badK = t.badK := rfl
@[simp] theorem Strand.goto_badC (t : Strand) (pc : Word) : (t.goto pc).badC = t.badC := rfl
@[simp] theorem Strand.goto_strips (t : Strand) (pc : Word) : (t.goto pc).strips = t.strips := rfl
@[simp] theorem Strand.goto_deferred (t : Strand) (pc : Word) : (t.goto pc).deferred = t.deferred := rfl
@[simp] theorem Strand.goto_deferNow (t : Strand) (pc : Word) : (t.goto pc).deferNow = t.deferNow := rfl
@[simp] theorem Strand.goto_fault (t : Strand) (pc : Word) : (t.goto pc).fault = t.fault := rfl
@[simp] theorem Strand.goto_reported (t : Strand) (pc : Word) : (t.goto pc).reported = t.reported := rfl
@[simp] theorem Strand.goto_vscFail (t : Strand) (pc : Word) : (t.goto pc).vscFail = t.vscFail := rfl
@[simp] theorem Strand.goto_heldFlags (t : Strand) (pc : Word) : (t.goto pc).heldFlags = t.heldFlags := rfl
@[simp] theorem Strand.goto_wakesFar (t : Strand) (pc : Word) : (t.goto pc).wakesFar = t.wakesFar := rfl
@[simp] theorem Strand.goto_out (t : Strand) (pc : Word) : (t.goto pc).out = t.out := rfl
@[simp] theorem Strand.goto_mq (t : Strand) (pc : Word) : (t.goto pc).mq = t.mq := rfl
@[simp] theorem Strand.goto_mseq (t : Strand) (pc : Word) : (t.goto pc).mseq = t.mseq := rfl
@[simp] theorem Strand.goto_active (t : Strand) (pc : Word) : (t.goto pc).active = t.active := rfl
@[simp] theorem Strand.goto_shadow (t : Strand) (pc : Word) : (t.goto pc).shadow = t.shadow := rfl
@[simp] theorem Strand.goto_map (t : Strand) (pc : Word) : (t.goto pc).map = t.map := rfl
@[simp] theorem Strand.goto_bound (t : Strand) (pc : Word) : (t.goto pc).bound = t.bound := rfl
@[simp] theorem Strand.goto_fillq (t : Strand) (pc : Word) : (t.goto pc).fillq = t.fillq := rfl
@[simp] theorem Strand.goto_spillq (t : Strand) (pc : Word) : (t.goto pc).spillq = t.spillq := rfl
@[simp] theorem Strand.goto_cq (t : Strand) (pc : Word) : (t.goto pc).cq = t.cq := rfl
@[simp] theorem Strand.goto_sendq (t : Strand) (pc : Word) : (t.goto pc).sendq = t.sendq := rfl
@[simp] theorem Strand.goto_scratch (t : Strand) (pc : Word) : (t.goto pc).scratch = t.scratch := rfl
@[simp] theorem Strand.goto_nearBad (t : Strand) (pc : Word) : (t.goto pc).nearBad = t.nearBad := rfl
@[simp] theorem Strand.goto_scrFrames (t : Strand) (pc : Word) : (t.goto pc).scrFrames = t.scrFrames := rfl
@[simp] theorem Strand.goto_tokps (t : Strand) (pc : Word) : (t.goto pc).tokps = t.tokps := rfl
@[simp] theorem Strand.goto_yielded (t : Strand) (pc : Word) : (t.goto pc).yielded = t.yielded := rfl

/-! ### Strand.next -/

@[simp] theorem Strand.next_phase (t : Strand) : (t.next).phase = t.phase := rfl
@[simp] theorem Strand.next_gang (t : Strand) : (t.next).gang = t.gang := rfl
@[simp] theorem Strand.next_rank (t : Strand) : (t.next).rank = t.rank := rfl
@[simp] theorem Strand.next_rcd (t : Strand) : (t.next).rcd = t.rcd := rfl
@[simp] theorem Strand.next_part (t : Strand) : (t.next).part = t.part := rfl
@[simp] theorem Strand.next_s (t : Strand) : (t.next).s = t.s := rfl
@[simp] theorem Strand.next_v (t : Strand) : (t.next).v = t.v := rfl
@[simp] theorem Strand.next_k (t : Strand) : (t.next).k = t.k := rfl
@[simp] theorem Strand.next_vl (t : Strand) : (t.next).vl = t.vl := rfl
@[simp] theorem Strand.next_sew (t : Strand) : (t.next).sew = t.sew := rfl
@[simp] theorem Strand.next_gm (t : Strand) : (t.next).gm = t.gm := rfl
@[simp] theorem Strand.next_mw (t : Strand) : (t.next).mw = t.mw := rfl
@[simp] theorem Strand.next_tsh (t : Strand) : (t.next).tsh = t.tsh := rfl
@[simp] theorem Strand.next_vstat (t : Strand) : (t.next).vstat = t.vstat := rfl
@[simp] theorem Strand.next_srseed (t : Strand) : (t.next).srseed = t.srseed := rfl
@[simp] theorem Strand.next_vbank (t : Strand) : (t.next).vbank = t.vbank := rfl
@[simp] theorem Strand.next_mbank (t : Strand) : (t.next).mbank = t.mbank := rfl
@[simp] theorem Strand.next_mseed (t : Strand) : (t.next).mseed = t.mseed := rfl
@[simp] theorem Strand.next_fq (t : Strand) : (t.next).fq = t.fq := rfl
@[simp] theorem Strand.next_sf (t : Strand) : (t.next).sf = t.sf := rfl
@[simp] theorem Strand.next_lim (t : Strand) : (t.next).lim = t.lim := rfl
@[simp] theorem Strand.next_fills (t : Strand) : (t.next).fills = t.fills := rfl
@[simp] theorem Strand.next_spills (t : Strand) : (t.next).spills = t.spills := rfl
@[simp] theorem Strand.next_ftbase (t : Strand) : (t.next).ftbase = t.ftbase := rfl
@[simp] theorem Strand.next_ftlen (t : Strand) : (t.next).ftlen = t.ftlen := rfl
@[simp] theorem Strand.next_tok (t : Strand) : (t.next).tok = t.tok := rfl
@[simp] theorem Strand.next_tokRes (t : Strand) : (t.next).tokRes = t.tokRes := rfl
@[simp] theorem Strand.next_tokNew (t : Strand) : (t.next).tokNew = t.tokNew := rfl
@[simp] theorem Strand.next_guards (t : Strand) : (t.next).guards = t.guards := rfl
@[simp] theorem Strand.next_sbPend (t : Strand) : (t.next).sbPend = t.sbPend := rfl
@[simp] theorem Strand.next_sbErr (t : Strand) : (t.next).sbErr = t.sbErr := rfl
@[simp] theorem Strand.next_sbOwner (t : Strand) : (t.next).sbOwner = t.sbOwner := rfl
@[simp] theorem Strand.next_sbFail (t : Strand) : (t.next).sbFail = t.sbFail := rfl
@[simp] theorem Strand.next_swCur (t : Strand) : (t.next).swCur = t.swCur := rfl
@[simp] theorem Strand.next_swAct (t : Strand) : (t.next).swAct = t.swAct := rfl
@[simp] theorem Strand.next_swGrp (t : Strand) : (t.next).swGrp = t.swGrp := rfl
@[simp] theorem Strand.next_swAwk (t : Strand) : (t.next).swAwk = t.swAwk := rfl
@[simp] theorem Strand.next_swErr (t : Strand) : (t.next).swErr = t.swErr := rfl
@[simp] theorem Strand.next_sweep (t : Strand) : (t.next).sweep = t.sweep := rfl
@[simp] theorem Strand.next_runtk (t : Strand) : (t.next).runtk = t.runtk := rfl
@[simp] theorem Strand.next_wdlim (t : Strand) : (t.next).wdlim = t.wdlim := rfl
@[simp] theorem Strand.next_perfSel (t : Strand) : (t.next).perfSel = t.perfSel := rfl
@[simp] theorem Strand.next_perfCnt (t : Strand) : (t.next).perfCnt = t.perfCnt := rfl
@[simp] theorem Strand.next_perfNext (t : Strand) : (t.next).perfNext = t.perfNext := rfl
@[simp] theorem Strand.next_evFlag (t : Strand) : (t.next).evFlag = t.evFlag := rfl
@[simp] theorem Strand.next_watch (t : Strand) : (t.next).watch = t.watch := rfl
@[simp] theorem Strand.next_links (t : Strand) : (t.next).links = t.links := rfl
@[simp] theorem Strand.next_unacked (t : Strand) : (t.next).unacked = t.unacked := rfl
@[simp] theorem Strand.next_acks (t : Strand) : (t.next).acks = t.acks := rfl
@[simp] theorem Strand.next_marks (t : Strand) : (t.next).marks = t.marks := rfl
@[simp] theorem Strand.next_badS (t : Strand) : (t.next).badS = t.badS := rfl
@[simp] theorem Strand.next_badK (t : Strand) : (t.next).badK = t.badK := rfl
@[simp] theorem Strand.next_badC (t : Strand) : (t.next).badC = t.badC := rfl
@[simp] theorem Strand.next_strips (t : Strand) : (t.next).strips = t.strips := rfl
@[simp] theorem Strand.next_deferred (t : Strand) : (t.next).deferred = t.deferred := rfl
@[simp] theorem Strand.next_deferNow (t : Strand) : (t.next).deferNow = t.deferNow := rfl
@[simp] theorem Strand.next_fault (t : Strand) : (t.next).fault = t.fault := rfl
@[simp] theorem Strand.next_reported (t : Strand) : (t.next).reported = t.reported := rfl
@[simp] theorem Strand.next_vscFail (t : Strand) : (t.next).vscFail = t.vscFail := rfl
@[simp] theorem Strand.next_heldFlags (t : Strand) : (t.next).heldFlags = t.heldFlags := rfl
@[simp] theorem Strand.next_wakesFar (t : Strand) : (t.next).wakesFar = t.wakesFar := rfl
@[simp] theorem Strand.next_out (t : Strand) : (t.next).out = t.out := rfl
@[simp] theorem Strand.next_mq (t : Strand) : (t.next).mq = t.mq := rfl
@[simp] theorem Strand.next_mseq (t : Strand) : (t.next).mseq = t.mseq := rfl
@[simp] theorem Strand.next_active (t : Strand) : (t.next).active = t.active := rfl
@[simp] theorem Strand.next_shadow (t : Strand) : (t.next).shadow = t.shadow := rfl
@[simp] theorem Strand.next_map (t : Strand) : (t.next).map = t.map := rfl
@[simp] theorem Strand.next_bound (t : Strand) : (t.next).bound = t.bound := rfl
@[simp] theorem Strand.next_fillq (t : Strand) : (t.next).fillq = t.fillq := rfl
@[simp] theorem Strand.next_spillq (t : Strand) : (t.next).spillq = t.spillq := rfl
@[simp] theorem Strand.next_cq (t : Strand) : (t.next).cq = t.cq := rfl
@[simp] theorem Strand.next_sendq (t : Strand) : (t.next).sendq = t.sendq := rfl
@[simp] theorem Strand.next_scratch (t : Strand) : (t.next).scratch = t.scratch := rfl
@[simp] theorem Strand.next_nearBad (t : Strand) : (t.next).nearBad = t.nearBad := rfl
@[simp] theorem Strand.next_scrFrames (t : Strand) : (t.next).scrFrames = t.scrFrames := rfl
@[simp] theorem Strand.next_tokps (t : Strand) : (t.next).tokps = t.tokps := rfl
@[simp] theorem Strand.next_yielded (t : Strand) : (t.next).yielded = t.yielded := rfl

/-! ### Strand.setV -/

@[simp] theorem Strand.setV_phase (t : Strand) (n : Nat) (x : VReg) : (t.setV n x).phase = t.phase := rfl
@[simp] theorem Strand.setV_gang (t : Strand) (n : Nat) (x : VReg) : (t.setV n x).gang = t.gang := rfl
@[simp] theorem Strand.setV_rank (t : Strand) (n : Nat) (x : VReg) : (t.setV n x).rank = t.rank := rfl
@[simp] theorem Strand.setV_rcd (t : Strand) (n : Nat) (x : VReg) : (t.setV n x).rcd = t.rcd := rfl
@[simp] theorem Strand.setV_part (t : Strand) (n : Nat) (x : VReg) : (t.setV n x).part = t.part := rfl
@[simp] theorem Strand.setV_pc (t : Strand) (n : Nat) (x : VReg) : (t.setV n x).pc = t.pc := rfl
@[simp] theorem Strand.setV_s (t : Strand) (n : Nat) (x : VReg) : (t.setV n x).s = t.s := rfl
@[simp] theorem Strand.setV_k (t : Strand) (n : Nat) (x : VReg) : (t.setV n x).k = t.k := rfl
@[simp] theorem Strand.setV_vl (t : Strand) (n : Nat) (x : VReg) : (t.setV n x).vl = t.vl := rfl
@[simp] theorem Strand.setV_sew (t : Strand) (n : Nat) (x : VReg) : (t.setV n x).sew = t.sew := rfl
@[simp] theorem Strand.setV_gm (t : Strand) (n : Nat) (x : VReg) : (t.setV n x).gm = t.gm := rfl
@[simp] theorem Strand.setV_mw (t : Strand) (n : Nat) (x : VReg) : (t.setV n x).mw = t.mw := rfl
@[simp] theorem Strand.setV_tsh (t : Strand) (n : Nat) (x : VReg) : (t.setV n x).tsh = t.tsh := rfl
@[simp] theorem Strand.setV_vstat (t : Strand) (n : Nat) (x : VReg) : (t.setV n x).vstat = t.vstat := rfl
@[simp] theorem Strand.setV_srseed (t : Strand) (n : Nat) (x : VReg) : (t.setV n x).srseed = t.srseed := rfl
@[simp] theorem Strand.setV_vbank (t : Strand) (n : Nat) (x : VReg) : (t.setV n x).vbank = t.vbank := rfl
@[simp] theorem Strand.setV_mbank (t : Strand) (n : Nat) (x : VReg) : (t.setV n x).mbank = t.mbank := rfl
@[simp] theorem Strand.setV_mseed (t : Strand) (n : Nat) (x : VReg) : (t.setV n x).mseed = t.mseed := rfl
@[simp] theorem Strand.setV_fq (t : Strand) (n : Nat) (x : VReg) : (t.setV n x).fq = t.fq := rfl
@[simp] theorem Strand.setV_sf (t : Strand) (n : Nat) (x : VReg) : (t.setV n x).sf = t.sf := rfl
@[simp] theorem Strand.setV_lim (t : Strand) (n : Nat) (x : VReg) : (t.setV n x).lim = t.lim := rfl
@[simp] theorem Strand.setV_fills (t : Strand) (n : Nat) (x : VReg) : (t.setV n x).fills = t.fills := rfl
@[simp] theorem Strand.setV_spills (t : Strand) (n : Nat) (x : VReg) : (t.setV n x).spills = t.spills := rfl
@[simp] theorem Strand.setV_ftbase (t : Strand) (n : Nat) (x : VReg) : (t.setV n x).ftbase = t.ftbase := rfl
@[simp] theorem Strand.setV_ftlen (t : Strand) (n : Nat) (x : VReg) : (t.setV n x).ftlen = t.ftlen := rfl
@[simp] theorem Strand.setV_tok (t : Strand) (n : Nat) (x : VReg) : (t.setV n x).tok = t.tok := rfl
@[simp] theorem Strand.setV_tokRes (t : Strand) (n : Nat) (x : VReg) : (t.setV n x).tokRes = t.tokRes := rfl
@[simp] theorem Strand.setV_tokNew (t : Strand) (n : Nat) (x : VReg) : (t.setV n x).tokNew = t.tokNew := rfl
@[simp] theorem Strand.setV_guards (t : Strand) (n : Nat) (x : VReg) : (t.setV n x).guards = t.guards := rfl
@[simp] theorem Strand.setV_sbPend (t : Strand) (n : Nat) (x : VReg) : (t.setV n x).sbPend = t.sbPend := rfl
@[simp] theorem Strand.setV_sbErr (t : Strand) (n : Nat) (x : VReg) : (t.setV n x).sbErr = t.sbErr := rfl
@[simp] theorem Strand.setV_sbOwner (t : Strand) (n : Nat) (x : VReg) : (t.setV n x).sbOwner = t.sbOwner := rfl
@[simp] theorem Strand.setV_sbFail (t : Strand) (n : Nat) (x : VReg) : (t.setV n x).sbFail = t.sbFail := rfl
@[simp] theorem Strand.setV_swCur (t : Strand) (n : Nat) (x : VReg) : (t.setV n x).swCur = t.swCur := rfl
@[simp] theorem Strand.setV_swAct (t : Strand) (n : Nat) (x : VReg) : (t.setV n x).swAct = t.swAct := rfl
@[simp] theorem Strand.setV_swGrp (t : Strand) (n : Nat) (x : VReg) : (t.setV n x).swGrp = t.swGrp := rfl
@[simp] theorem Strand.setV_swAwk (t : Strand) (n : Nat) (x : VReg) : (t.setV n x).swAwk = t.swAwk := rfl
@[simp] theorem Strand.setV_swErr (t : Strand) (n : Nat) (x : VReg) : (t.setV n x).swErr = t.swErr := rfl
@[simp] theorem Strand.setV_sweep (t : Strand) (n : Nat) (x : VReg) : (t.setV n x).sweep = t.sweep := rfl
@[simp] theorem Strand.setV_runtk (t : Strand) (n : Nat) (x : VReg) : (t.setV n x).runtk = t.runtk := rfl
@[simp] theorem Strand.setV_wdlim (t : Strand) (n : Nat) (x : VReg) : (t.setV n x).wdlim = t.wdlim := rfl
@[simp] theorem Strand.setV_perfSel (t : Strand) (n : Nat) (x : VReg) : (t.setV n x).perfSel = t.perfSel := rfl
@[simp] theorem Strand.setV_perfCnt (t : Strand) (n : Nat) (x : VReg) : (t.setV n x).perfCnt = t.perfCnt := rfl
@[simp] theorem Strand.setV_perfNext (t : Strand) (n : Nat) (x : VReg) : (t.setV n x).perfNext = t.perfNext := rfl
@[simp] theorem Strand.setV_evFlag (t : Strand) (n : Nat) (x : VReg) : (t.setV n x).evFlag = t.evFlag := rfl
@[simp] theorem Strand.setV_watch (t : Strand) (n : Nat) (x : VReg) : (t.setV n x).watch = t.watch := rfl
@[simp] theorem Strand.setV_links (t : Strand) (n : Nat) (x : VReg) : (t.setV n x).links = t.links := rfl
@[simp] theorem Strand.setV_unacked (t : Strand) (n : Nat) (x : VReg) : (t.setV n x).unacked = t.unacked := rfl
@[simp] theorem Strand.setV_acks (t : Strand) (n : Nat) (x : VReg) : (t.setV n x).acks = t.acks := rfl
@[simp] theorem Strand.setV_badS (t : Strand) (n : Nat) (x : VReg) : (t.setV n x).badS = t.badS := rfl
@[simp] theorem Strand.setV_badK (t : Strand) (n : Nat) (x : VReg) : (t.setV n x).badK = t.badK := rfl
@[simp] theorem Strand.setV_badC (t : Strand) (n : Nat) (x : VReg) : (t.setV n x).badC = t.badC := rfl
@[simp] theorem Strand.setV_strips (t : Strand) (n : Nat) (x : VReg) : (t.setV n x).strips = t.strips := rfl
@[simp] theorem Strand.setV_deferred (t : Strand) (n : Nat) (x : VReg) : (t.setV n x).deferred = t.deferred := rfl
@[simp] theorem Strand.setV_deferNow (t : Strand) (n : Nat) (x : VReg) : (t.setV n x).deferNow = t.deferNow := rfl
@[simp] theorem Strand.setV_fault (t : Strand) (n : Nat) (x : VReg) : (t.setV n x).fault = t.fault := rfl
@[simp] theorem Strand.setV_reported (t : Strand) (n : Nat) (x : VReg) : (t.setV n x).reported = t.reported := rfl
@[simp] theorem Strand.setV_restart (t : Strand) (n : Nat) (x : VReg) : (t.setV n x).restart = t.restart := rfl
@[simp] theorem Strand.setV_append (t : Strand) (n : Nat) (x : VReg) : (t.setV n x).append = t.append := rfl
@[simp] theorem Strand.setV_vscFail (t : Strand) (n : Nat) (x : VReg) : (t.setV n x).vscFail = t.vscFail := rfl
@[simp] theorem Strand.setV_heldFlags (t : Strand) (n : Nat) (x : VReg) : (t.setV n x).heldFlags = t.heldFlags := rfl
@[simp] theorem Strand.setV_handing (t : Strand) (n : Nat) (x : VReg) : (t.setV n x).handing = t.handing := rfl
@[simp] theorem Strand.setV_wakesFar (t : Strand) (n : Nat) (x : VReg) : (t.setV n x).wakesFar = t.wakesFar := rfl
@[simp] theorem Strand.setV_claim (t : Strand) (n : Nat) (x : VReg) : (t.setV n x).claim = t.claim := rfl
@[simp] theorem Strand.setV_recBuf (t : Strand) (n : Nat) (x : VReg) : (t.setV n x).recBuf = t.recBuf := rfl
@[simp] theorem Strand.setV_wait (t : Strand) (n : Nat) (x : VReg) : (t.setV n x).wait = t.wait := rfl
@[simp] theorem Strand.setV_tokDone (t : Strand) (n : Nat) (x : VReg) : (t.setV n x).tokDone = t.tokDone := rfl
@[simp] theorem Strand.setV_out (t : Strand) (n : Nat) (x : VReg) : (t.setV n x).out = t.out := rfl
@[simp] theorem Strand.setV_mq (t : Strand) (n : Nat) (x : VReg) : (t.setV n x).mq = t.mq := rfl
@[simp] theorem Strand.setV_mseq (t : Strand) (n : Nat) (x : VReg) : (t.setV n x).mseq = t.mseq := rfl
@[simp] theorem Strand.setV_active (t : Strand) (n : Nat) (x : VReg) : (t.setV n x).active = t.active := rfl
@[simp] theorem Strand.setV_shadow (t : Strand) (n : Nat) (x : VReg) : (t.setV n x).shadow = t.shadow := rfl
@[simp] theorem Strand.setV_map (t : Strand) (n : Nat) (x : VReg) : (t.setV n x).map = t.map := rfl
@[simp] theorem Strand.setV_bound (t : Strand) (n : Nat) (x : VReg) : (t.setV n x).bound = t.bound := rfl
@[simp] theorem Strand.setV_fillq (t : Strand) (n : Nat) (x : VReg) : (t.setV n x).fillq = t.fillq := rfl
@[simp] theorem Strand.setV_spillq (t : Strand) (n : Nat) (x : VReg) : (t.setV n x).spillq = t.spillq := rfl
@[simp] theorem Strand.setV_cq (t : Strand) (n : Nat) (x : VReg) : (t.setV n x).cq = t.cq := rfl
@[simp] theorem Strand.setV_sendq (t : Strand) (n : Nat) (x : VReg) : (t.setV n x).sendq = t.sendq := rfl
@[simp] theorem Strand.setV_scratch (t : Strand) (n : Nat) (x : VReg) : (t.setV n x).scratch = t.scratch := rfl
@[simp] theorem Strand.setV_nearBad (t : Strand) (n : Nat) (x : VReg) : (t.setV n x).nearBad = t.nearBad := rfl
@[simp] theorem Strand.setV_scrFrames (t : Strand) (n : Nat) (x : VReg) : (t.setV n x).scrFrames = t.scrFrames := rfl
@[simp] theorem Strand.setV_tokps (t : Strand) (n : Nat) (x : VReg) : (t.setV n x).tokps = t.tokps := rfl
@[simp] theorem Strand.setV_yielded (t : Strand) (n : Nat) (x : VReg) : (t.setV n x).yielded = t.yielded := rfl

/-! ### Strand.setS -/

@[simp] theorem Strand.setS_phase (t : Strand) (r : BitVec 5) (x : Word) : (t.setS r x).phase = t.phase := by unfold Strand.setS; split <;> rfl
@[simp] theorem Strand.setS_gang (t : Strand) (r : BitVec 5) (x : Word) : (t.setS r x).gang = t.gang := by unfold Strand.setS; split <;> rfl
@[simp] theorem Strand.setS_rank (t : Strand) (r : BitVec 5) (x : Word) : (t.setS r x).rank = t.rank := by unfold Strand.setS; split <;> rfl
@[simp] theorem Strand.setS_rcd (t : Strand) (r : BitVec 5) (x : Word) : (t.setS r x).rcd = t.rcd := by unfold Strand.setS; split <;> rfl
@[simp] theorem Strand.setS_part (t : Strand) (r : BitVec 5) (x : Word) : (t.setS r x).part = t.part := by unfold Strand.setS; split <;> rfl
@[simp] theorem Strand.setS_pc (t : Strand) (r : BitVec 5) (x : Word) : (t.setS r x).pc = t.pc := by unfold Strand.setS; split <;> rfl
@[simp] theorem Strand.setS_v (t : Strand) (r : BitVec 5) (x : Word) : (t.setS r x).v = t.v := by unfold Strand.setS; split <;> rfl
@[simp] theorem Strand.setS_k (t : Strand) (r : BitVec 5) (x : Word) : (t.setS r x).k = t.k := by unfold Strand.setS; split <;> rfl
@[simp] theorem Strand.setS_vl (t : Strand) (r : BitVec 5) (x : Word) : (t.setS r x).vl = t.vl := by unfold Strand.setS; split <;> rfl
@[simp] theorem Strand.setS_sew (t : Strand) (r : BitVec 5) (x : Word) : (t.setS r x).sew = t.sew := by unfold Strand.setS; split <;> rfl
@[simp] theorem Strand.setS_gm (t : Strand) (r : BitVec 5) (x : Word) : (t.setS r x).gm = t.gm := by unfold Strand.setS; split <;> rfl
@[simp] theorem Strand.setS_mw (t : Strand) (r : BitVec 5) (x : Word) : (t.setS r x).mw = t.mw := by unfold Strand.setS; split <;> rfl
@[simp] theorem Strand.setS_tsh (t : Strand) (r : BitVec 5) (x : Word) : (t.setS r x).tsh = t.tsh := by unfold Strand.setS; split <;> rfl
@[simp] theorem Strand.setS_vstat (t : Strand) (r : BitVec 5) (x : Word) : (t.setS r x).vstat = t.vstat := by unfold Strand.setS; split <;> rfl
@[simp] theorem Strand.setS_srseed (t : Strand) (r : BitVec 5) (x : Word) : (t.setS r x).srseed = t.srseed := by unfold Strand.setS; split <;> rfl
@[simp] theorem Strand.setS_vbank (t : Strand) (r : BitVec 5) (x : Word) : (t.setS r x).vbank = t.vbank := by unfold Strand.setS; split <;> rfl
@[simp] theorem Strand.setS_mbank (t : Strand) (r : BitVec 5) (x : Word) : (t.setS r x).mbank = t.mbank := by unfold Strand.setS; split <;> rfl
@[simp] theorem Strand.setS_mseed (t : Strand) (r : BitVec 5) (x : Word) : (t.setS r x).mseed = t.mseed := by unfold Strand.setS; split <;> rfl
@[simp] theorem Strand.setS_fq (t : Strand) (r : BitVec 5) (x : Word) : (t.setS r x).fq = t.fq := by unfold Strand.setS; split <;> rfl
@[simp] theorem Strand.setS_sf (t : Strand) (r : BitVec 5) (x : Word) : (t.setS r x).sf = t.sf := by unfold Strand.setS; split <;> rfl
@[simp] theorem Strand.setS_lim (t : Strand) (r : BitVec 5) (x : Word) : (t.setS r x).lim = t.lim := by unfold Strand.setS; split <;> rfl
@[simp] theorem Strand.setS_fills (t : Strand) (r : BitVec 5) (x : Word) : (t.setS r x).fills = t.fills := by unfold Strand.setS; split <;> rfl
@[simp] theorem Strand.setS_spills (t : Strand) (r : BitVec 5) (x : Word) : (t.setS r x).spills = t.spills := by unfold Strand.setS; split <;> rfl
@[simp] theorem Strand.setS_ftbase (t : Strand) (r : BitVec 5) (x : Word) : (t.setS r x).ftbase = t.ftbase := by unfold Strand.setS; split <;> rfl
@[simp] theorem Strand.setS_ftlen (t : Strand) (r : BitVec 5) (x : Word) : (t.setS r x).ftlen = t.ftlen := by unfold Strand.setS; split <;> rfl
@[simp] theorem Strand.setS_tok (t : Strand) (r : BitVec 5) (x : Word) : (t.setS r x).tok = t.tok := by unfold Strand.setS; split <;> rfl
@[simp] theorem Strand.setS_tokRes (t : Strand) (r : BitVec 5) (x : Word) : (t.setS r x).tokRes = t.tokRes := by unfold Strand.setS; split <;> rfl
@[simp] theorem Strand.setS_tokNew (t : Strand) (r : BitVec 5) (x : Word) : (t.setS r x).tokNew = t.tokNew := by unfold Strand.setS; split <;> rfl
@[simp] theorem Strand.setS_guards (t : Strand) (r : BitVec 5) (x : Word) : (t.setS r x).guards = t.guards := by unfold Strand.setS; split <;> rfl
@[simp] theorem Strand.setS_sbPend (t : Strand) (r : BitVec 5) (x : Word) : (t.setS r x).sbPend = t.sbPend := by unfold Strand.setS; split <;> rfl
@[simp] theorem Strand.setS_sbErr (t : Strand) (r : BitVec 5) (x : Word) : (t.setS r x).sbErr = t.sbErr := by unfold Strand.setS; split <;> rfl
@[simp] theorem Strand.setS_sbOwner (t : Strand) (r : BitVec 5) (x : Word) : (t.setS r x).sbOwner = t.sbOwner := by unfold Strand.setS; split <;> rfl
@[simp] theorem Strand.setS_sbFail (t : Strand) (r : BitVec 5) (x : Word) : (t.setS r x).sbFail = t.sbFail := by unfold Strand.setS; split <;> rfl
@[simp] theorem Strand.setS_swCur (t : Strand) (r : BitVec 5) (x : Word) : (t.setS r x).swCur = t.swCur := by unfold Strand.setS; split <;> rfl
@[simp] theorem Strand.setS_swAct (t : Strand) (r : BitVec 5) (x : Word) : (t.setS r x).swAct = t.swAct := by unfold Strand.setS; split <;> rfl
@[simp] theorem Strand.setS_swGrp (t : Strand) (r : BitVec 5) (x : Word) : (t.setS r x).swGrp = t.swGrp := by unfold Strand.setS; split <;> rfl
@[simp] theorem Strand.setS_swAwk (t : Strand) (r : BitVec 5) (x : Word) : (t.setS r x).swAwk = t.swAwk := by unfold Strand.setS; split <;> rfl
@[simp] theorem Strand.setS_swErr (t : Strand) (r : BitVec 5) (x : Word) : (t.setS r x).swErr = t.swErr := by unfold Strand.setS; split <;> rfl
@[simp] theorem Strand.setS_sweep (t : Strand) (r : BitVec 5) (x : Word) : (t.setS r x).sweep = t.sweep := by unfold Strand.setS; split <;> rfl
@[simp] theorem Strand.setS_runtk (t : Strand) (r : BitVec 5) (x : Word) : (t.setS r x).runtk = t.runtk := by unfold Strand.setS; split <;> rfl
@[simp] theorem Strand.setS_wdlim (t : Strand) (r : BitVec 5) (x : Word) : (t.setS r x).wdlim = t.wdlim := by unfold Strand.setS; split <;> rfl
@[simp] theorem Strand.setS_perfSel (t : Strand) (r : BitVec 5) (x : Word) : (t.setS r x).perfSel = t.perfSel := by unfold Strand.setS; split <;> rfl
@[simp] theorem Strand.setS_perfCnt (t : Strand) (r : BitVec 5) (x : Word) : (t.setS r x).perfCnt = t.perfCnt := by unfold Strand.setS; split <;> rfl
@[simp] theorem Strand.setS_perfNext (t : Strand) (r : BitVec 5) (x : Word) : (t.setS r x).perfNext = t.perfNext := by unfold Strand.setS; split <;> rfl
@[simp] theorem Strand.setS_evFlag (t : Strand) (r : BitVec 5) (x : Word) : (t.setS r x).evFlag = t.evFlag := by unfold Strand.setS; split <;> rfl
@[simp] theorem Strand.setS_watch (t : Strand) (r : BitVec 5) (x : Word) : (t.setS r x).watch = t.watch := by unfold Strand.setS; split <;> rfl
@[simp] theorem Strand.setS_links (t : Strand) (r : BitVec 5) (x : Word) : (t.setS r x).links = t.links := by unfold Strand.setS; split <;> rfl
@[simp] theorem Strand.setS_unacked (t : Strand) (r : BitVec 5) (x : Word) : (t.setS r x).unacked = t.unacked := by unfold Strand.setS; split <;> rfl
@[simp] theorem Strand.setS_acks (t : Strand) (r : BitVec 5) (x : Word) : (t.setS r x).acks = t.acks := by unfold Strand.setS; split <;> rfl
@[simp] theorem Strand.setS_marks (t : Strand) (r : BitVec 5) (x : Word) : (t.setS r x).marks = t.marks := by unfold Strand.setS; split <;> rfl
@[simp] theorem Strand.setS_badK (t : Strand) (r : BitVec 5) (x : Word) : (t.setS r x).badK = t.badK := by unfold Strand.setS; split <;> rfl
@[simp] theorem Strand.setS_badC (t : Strand) (r : BitVec 5) (x : Word) : (t.setS r x).badC = t.badC := by unfold Strand.setS; split <;> rfl
@[simp] theorem Strand.setS_strips (t : Strand) (r : BitVec 5) (x : Word) : (t.setS r x).strips = t.strips := by unfold Strand.setS; split <;> rfl
@[simp] theorem Strand.setS_deferred (t : Strand) (r : BitVec 5) (x : Word) : (t.setS r x).deferred = t.deferred := by unfold Strand.setS; split <;> rfl
@[simp] theorem Strand.setS_deferNow (t : Strand) (r : BitVec 5) (x : Word) : (t.setS r x).deferNow = t.deferNow := by unfold Strand.setS; split <;> rfl
@[simp] theorem Strand.setS_fault (t : Strand) (r : BitVec 5) (x : Word) : (t.setS r x).fault = t.fault := by unfold Strand.setS; split <;> rfl
@[simp] theorem Strand.setS_reported (t : Strand) (r : BitVec 5) (x : Word) : (t.setS r x).reported = t.reported := by unfold Strand.setS; split <;> rfl
@[simp] theorem Strand.setS_restart (t : Strand) (r : BitVec 5) (x : Word) : (t.setS r x).restart = t.restart := by unfold Strand.setS; split <;> rfl
@[simp] theorem Strand.setS_append (t : Strand) (r : BitVec 5) (x : Word) : (t.setS r x).append = t.append := by unfold Strand.setS; split <;> rfl
@[simp] theorem Strand.setS_vscFail (t : Strand) (r : BitVec 5) (x : Word) : (t.setS r x).vscFail = t.vscFail := by unfold Strand.setS; split <;> rfl
@[simp] theorem Strand.setS_heldFlags (t : Strand) (r : BitVec 5) (x : Word) : (t.setS r x).heldFlags = t.heldFlags := by unfold Strand.setS; split <;> rfl
@[simp] theorem Strand.setS_handing (t : Strand) (r : BitVec 5) (x : Word) : (t.setS r x).handing = t.handing := by unfold Strand.setS; split <;> rfl
@[simp] theorem Strand.setS_wakesFar (t : Strand) (r : BitVec 5) (x : Word) : (t.setS r x).wakesFar = t.wakesFar := by unfold Strand.setS; split <;> rfl
@[simp] theorem Strand.setS_claim (t : Strand) (r : BitVec 5) (x : Word) : (t.setS r x).claim = t.claim := by unfold Strand.setS; split <;> rfl
@[simp] theorem Strand.setS_recBuf (t : Strand) (r : BitVec 5) (x : Word) : (t.setS r x).recBuf = t.recBuf := by unfold Strand.setS; split <;> rfl
@[simp] theorem Strand.setS_wait (t : Strand) (r : BitVec 5) (x : Word) : (t.setS r x).wait = t.wait := by unfold Strand.setS; split <;> rfl
@[simp] theorem Strand.setS_tokDone (t : Strand) (r : BitVec 5) (x : Word) : (t.setS r x).tokDone = t.tokDone := by unfold Strand.setS; split <;> rfl
@[simp] theorem Strand.setS_out (t : Strand) (r : BitVec 5) (x : Word) : (t.setS r x).out = t.out := by unfold Strand.setS; split <;> rfl
@[simp] theorem Strand.setS_mq (t : Strand) (r : BitVec 5) (x : Word) : (t.setS r x).mq = t.mq := by unfold Strand.setS; split <;> rfl
@[simp] theorem Strand.setS_mseq (t : Strand) (r : BitVec 5) (x : Word) : (t.setS r x).mseq = t.mseq := by unfold Strand.setS; split <;> rfl
@[simp] theorem Strand.setS_active (t : Strand) (r : BitVec 5) (x : Word) : (t.setS r x).active = t.active := by unfold Strand.setS; split <;> rfl
@[simp] theorem Strand.setS_shadow (t : Strand) (r : BitVec 5) (x : Word) : (t.setS r x).shadow = t.shadow := by unfold Strand.setS; split <;> rfl
@[simp] theorem Strand.setS_map (t : Strand) (r : BitVec 5) (x : Word) : (t.setS r x).map = t.map := by unfold Strand.setS; split <;> rfl
@[simp] theorem Strand.setS_bound (t : Strand) (r : BitVec 5) (x : Word) : (t.setS r x).bound = t.bound := by unfold Strand.setS; split <;> rfl
@[simp] theorem Strand.setS_fillq (t : Strand) (r : BitVec 5) (x : Word) : (t.setS r x).fillq = t.fillq := by unfold Strand.setS; split <;> rfl
@[simp] theorem Strand.setS_spillq (t : Strand) (r : BitVec 5) (x : Word) : (t.setS r x).spillq = t.spillq := by unfold Strand.setS; split <;> rfl
@[simp] theorem Strand.setS_cq (t : Strand) (r : BitVec 5) (x : Word) : (t.setS r x).cq = t.cq := by unfold Strand.setS; split <;> rfl
@[simp] theorem Strand.setS_sendq (t : Strand) (r : BitVec 5) (x : Word) : (t.setS r x).sendq = t.sendq := by unfold Strand.setS; split <;> rfl
@[simp] theorem Strand.setS_scratch (t : Strand) (r : BitVec 5) (x : Word) : (t.setS r x).scratch = t.scratch := by unfold Strand.setS; split <;> rfl
@[simp] theorem Strand.setS_nearBad (t : Strand) (r : BitVec 5) (x : Word) : (t.setS r x).nearBad = t.nearBad := by unfold Strand.setS; split <;> rfl
@[simp] theorem Strand.setS_scrFrames (t : Strand) (r : BitVec 5) (x : Word) : (t.setS r x).scrFrames = t.scrFrames := by unfold Strand.setS; split <;> rfl
@[simp] theorem Strand.setS_tokps (t : Strand) (r : BitVec 5) (x : Word) : (t.setS r x).tokps = t.tokps := by unfold Strand.setS; split <;> rfl
@[simp] theorem Strand.setS_yielded (t : Strand) (r : BitVec 5) (x : Word) : (t.setS r x).yielded = t.yielded := by unfold Strand.setS; split <;> rfl

/-! ### Strand.setK -/

@[simp] theorem Strand.setK_phase (t : Strand) (n : Nat) (x : KReg) : (t.setK n x).phase = t.phase := by unfold Strand.setK; split <;> rfl
@[simp] theorem Strand.setK_gang (t : Strand) (n : Nat) (x : KReg) : (t.setK n x).gang = t.gang := by unfold Strand.setK; split <;> rfl
@[simp] theorem Strand.setK_rank (t : Strand) (n : Nat) (x : KReg) : (t.setK n x).rank = t.rank := by unfold Strand.setK; split <;> rfl
@[simp] theorem Strand.setK_rcd (t : Strand) (n : Nat) (x : KReg) : (t.setK n x).rcd = t.rcd := by unfold Strand.setK; split <;> rfl
@[simp] theorem Strand.setK_part (t : Strand) (n : Nat) (x : KReg) : (t.setK n x).part = t.part := by unfold Strand.setK; split <;> rfl
@[simp] theorem Strand.setK_pc (t : Strand) (n : Nat) (x : KReg) : (t.setK n x).pc = t.pc := by unfold Strand.setK; split <;> rfl
@[simp] theorem Strand.setK_s (t : Strand) (n : Nat) (x : KReg) : (t.setK n x).s = t.s := by unfold Strand.setK; split <;> rfl
@[simp] theorem Strand.setK_v (t : Strand) (n : Nat) (x : KReg) : (t.setK n x).v = t.v := by unfold Strand.setK; split <;> rfl
@[simp] theorem Strand.setK_vl (t : Strand) (n : Nat) (x : KReg) : (t.setK n x).vl = t.vl := by unfold Strand.setK; split <;> rfl
@[simp] theorem Strand.setK_sew (t : Strand) (n : Nat) (x : KReg) : (t.setK n x).sew = t.sew := by unfold Strand.setK; split <;> rfl
@[simp] theorem Strand.setK_gm (t : Strand) (n : Nat) (x : KReg) : (t.setK n x).gm = t.gm := by unfold Strand.setK; split <;> rfl
@[simp] theorem Strand.setK_mw (t : Strand) (n : Nat) (x : KReg) : (t.setK n x).mw = t.mw := by unfold Strand.setK; split <;> rfl
@[simp] theorem Strand.setK_tsh (t : Strand) (n : Nat) (x : KReg) : (t.setK n x).tsh = t.tsh := by unfold Strand.setK; split <;> rfl
@[simp] theorem Strand.setK_vstat (t : Strand) (n : Nat) (x : KReg) : (t.setK n x).vstat = t.vstat := by unfold Strand.setK; split <;> rfl
@[simp] theorem Strand.setK_srseed (t : Strand) (n : Nat) (x : KReg) : (t.setK n x).srseed = t.srseed := by unfold Strand.setK; split <;> rfl
@[simp] theorem Strand.setK_vbank (t : Strand) (n : Nat) (x : KReg) : (t.setK n x).vbank = t.vbank := by unfold Strand.setK; split <;> rfl
@[simp] theorem Strand.setK_mbank (t : Strand) (n : Nat) (x : KReg) : (t.setK n x).mbank = t.mbank := by unfold Strand.setK; split <;> rfl
@[simp] theorem Strand.setK_mseed (t : Strand) (n : Nat) (x : KReg) : (t.setK n x).mseed = t.mseed := by unfold Strand.setK; split <;> rfl
@[simp] theorem Strand.setK_fq (t : Strand) (n : Nat) (x : KReg) : (t.setK n x).fq = t.fq := by unfold Strand.setK; split <;> rfl
@[simp] theorem Strand.setK_sf (t : Strand) (n : Nat) (x : KReg) : (t.setK n x).sf = t.sf := by unfold Strand.setK; split <;> rfl
@[simp] theorem Strand.setK_lim (t : Strand) (n : Nat) (x : KReg) : (t.setK n x).lim = t.lim := by unfold Strand.setK; split <;> rfl
@[simp] theorem Strand.setK_fills (t : Strand) (n : Nat) (x : KReg) : (t.setK n x).fills = t.fills := by unfold Strand.setK; split <;> rfl
@[simp] theorem Strand.setK_spills (t : Strand) (n : Nat) (x : KReg) : (t.setK n x).spills = t.spills := by unfold Strand.setK; split <;> rfl
@[simp] theorem Strand.setK_ftbase (t : Strand) (n : Nat) (x : KReg) : (t.setK n x).ftbase = t.ftbase := by unfold Strand.setK; split <;> rfl
@[simp] theorem Strand.setK_ftlen (t : Strand) (n : Nat) (x : KReg) : (t.setK n x).ftlen = t.ftlen := by unfold Strand.setK; split <;> rfl
@[simp] theorem Strand.setK_tok (t : Strand) (n : Nat) (x : KReg) : (t.setK n x).tok = t.tok := by unfold Strand.setK; split <;> rfl
@[simp] theorem Strand.setK_tokRes (t : Strand) (n : Nat) (x : KReg) : (t.setK n x).tokRes = t.tokRes := by unfold Strand.setK; split <;> rfl
@[simp] theorem Strand.setK_tokNew (t : Strand) (n : Nat) (x : KReg) : (t.setK n x).tokNew = t.tokNew := by unfold Strand.setK; split <;> rfl
@[simp] theorem Strand.setK_guards (t : Strand) (n : Nat) (x : KReg) : (t.setK n x).guards = t.guards := by unfold Strand.setK; split <;> rfl
@[simp] theorem Strand.setK_sbPend (t : Strand) (n : Nat) (x : KReg) : (t.setK n x).sbPend = t.sbPend := by unfold Strand.setK; split <;> rfl
@[simp] theorem Strand.setK_sbErr (t : Strand) (n : Nat) (x : KReg) : (t.setK n x).sbErr = t.sbErr := by unfold Strand.setK; split <;> rfl
@[simp] theorem Strand.setK_sbOwner (t : Strand) (n : Nat) (x : KReg) : (t.setK n x).sbOwner = t.sbOwner := by unfold Strand.setK; split <;> rfl
@[simp] theorem Strand.setK_sbFail (t : Strand) (n : Nat) (x : KReg) : (t.setK n x).sbFail = t.sbFail := by unfold Strand.setK; split <;> rfl
@[simp] theorem Strand.setK_swCur (t : Strand) (n : Nat) (x : KReg) : (t.setK n x).swCur = t.swCur := by unfold Strand.setK; split <;> rfl
@[simp] theorem Strand.setK_swAct (t : Strand) (n : Nat) (x : KReg) : (t.setK n x).swAct = t.swAct := by unfold Strand.setK; split <;> rfl
@[simp] theorem Strand.setK_swGrp (t : Strand) (n : Nat) (x : KReg) : (t.setK n x).swGrp = t.swGrp := by unfold Strand.setK; split <;> rfl
@[simp] theorem Strand.setK_swAwk (t : Strand) (n : Nat) (x : KReg) : (t.setK n x).swAwk = t.swAwk := by unfold Strand.setK; split <;> rfl
@[simp] theorem Strand.setK_swErr (t : Strand) (n : Nat) (x : KReg) : (t.setK n x).swErr = t.swErr := by unfold Strand.setK; split <;> rfl
@[simp] theorem Strand.setK_sweep (t : Strand) (n : Nat) (x : KReg) : (t.setK n x).sweep = t.sweep := by unfold Strand.setK; split <;> rfl
@[simp] theorem Strand.setK_runtk (t : Strand) (n : Nat) (x : KReg) : (t.setK n x).runtk = t.runtk := by unfold Strand.setK; split <;> rfl
@[simp] theorem Strand.setK_wdlim (t : Strand) (n : Nat) (x : KReg) : (t.setK n x).wdlim = t.wdlim := by unfold Strand.setK; split <;> rfl
@[simp] theorem Strand.setK_perfSel (t : Strand) (n : Nat) (x : KReg) : (t.setK n x).perfSel = t.perfSel := by unfold Strand.setK; split <;> rfl
@[simp] theorem Strand.setK_perfCnt (t : Strand) (n : Nat) (x : KReg) : (t.setK n x).perfCnt = t.perfCnt := by unfold Strand.setK; split <;> rfl
@[simp] theorem Strand.setK_perfNext (t : Strand) (n : Nat) (x : KReg) : (t.setK n x).perfNext = t.perfNext := by unfold Strand.setK; split <;> rfl
@[simp] theorem Strand.setK_evFlag (t : Strand) (n : Nat) (x : KReg) : (t.setK n x).evFlag = t.evFlag := by unfold Strand.setK; split <;> rfl
@[simp] theorem Strand.setK_watch (t : Strand) (n : Nat) (x : KReg) : (t.setK n x).watch = t.watch := by unfold Strand.setK; split <;> rfl
@[simp] theorem Strand.setK_links (t : Strand) (n : Nat) (x : KReg) : (t.setK n x).links = t.links := by unfold Strand.setK; split <;> rfl
@[simp] theorem Strand.setK_unacked (t : Strand) (n : Nat) (x : KReg) : (t.setK n x).unacked = t.unacked := by unfold Strand.setK; split <;> rfl
@[simp] theorem Strand.setK_acks (t : Strand) (n : Nat) (x : KReg) : (t.setK n x).acks = t.acks := by unfold Strand.setK; split <;> rfl
@[simp] theorem Strand.setK_marks (t : Strand) (n : Nat) (x : KReg) : (t.setK n x).marks = t.marks := by unfold Strand.setK; split <;> rfl
@[simp] theorem Strand.setK_badS (t : Strand) (n : Nat) (x : KReg) : (t.setK n x).badS = t.badS := by unfold Strand.setK; split <;> rfl
@[simp] theorem Strand.setK_badC (t : Strand) (n : Nat) (x : KReg) : (t.setK n x).badC = t.badC := by unfold Strand.setK; split <;> rfl
@[simp] theorem Strand.setK_strips (t : Strand) (n : Nat) (x : KReg) : (t.setK n x).strips = t.strips := by unfold Strand.setK; split <;> rfl
@[simp] theorem Strand.setK_deferred (t : Strand) (n : Nat) (x : KReg) : (t.setK n x).deferred = t.deferred := by unfold Strand.setK; split <;> rfl
@[simp] theorem Strand.setK_deferNow (t : Strand) (n : Nat) (x : KReg) : (t.setK n x).deferNow = t.deferNow := by unfold Strand.setK; split <;> rfl
@[simp] theorem Strand.setK_fault (t : Strand) (n : Nat) (x : KReg) : (t.setK n x).fault = t.fault := by unfold Strand.setK; split <;> rfl
@[simp] theorem Strand.setK_reported (t : Strand) (n : Nat) (x : KReg) : (t.setK n x).reported = t.reported := by unfold Strand.setK; split <;> rfl
@[simp] theorem Strand.setK_restart (t : Strand) (n : Nat) (x : KReg) : (t.setK n x).restart = t.restart := by unfold Strand.setK; split <;> rfl
@[simp] theorem Strand.setK_append (t : Strand) (n : Nat) (x : KReg) : (t.setK n x).append = t.append := by unfold Strand.setK; split <;> rfl
@[simp] theorem Strand.setK_vscFail (t : Strand) (n : Nat) (x : KReg) : (t.setK n x).vscFail = t.vscFail := by unfold Strand.setK; split <;> rfl
@[simp] theorem Strand.setK_heldFlags (t : Strand) (n : Nat) (x : KReg) : (t.setK n x).heldFlags = t.heldFlags := by unfold Strand.setK; split <;> rfl
@[simp] theorem Strand.setK_handing (t : Strand) (n : Nat) (x : KReg) : (t.setK n x).handing = t.handing := by unfold Strand.setK; split <;> rfl
@[simp] theorem Strand.setK_wakesFar (t : Strand) (n : Nat) (x : KReg) : (t.setK n x).wakesFar = t.wakesFar := by unfold Strand.setK; split <;> rfl
@[simp] theorem Strand.setK_claim (t : Strand) (n : Nat) (x : KReg) : (t.setK n x).claim = t.claim := by unfold Strand.setK; split <;> rfl
@[simp] theorem Strand.setK_recBuf (t : Strand) (n : Nat) (x : KReg) : (t.setK n x).recBuf = t.recBuf := by unfold Strand.setK; split <;> rfl
@[simp] theorem Strand.setK_wait (t : Strand) (n : Nat) (x : KReg) : (t.setK n x).wait = t.wait := by unfold Strand.setK; split <;> rfl
@[simp] theorem Strand.setK_tokDone (t : Strand) (n : Nat) (x : KReg) : (t.setK n x).tokDone = t.tokDone := by unfold Strand.setK; split <;> rfl
@[simp] theorem Strand.setK_out (t : Strand) (n : Nat) (x : KReg) : (t.setK n x).out = t.out := by unfold Strand.setK; split <;> rfl
@[simp] theorem Strand.setK_mq (t : Strand) (n : Nat) (x : KReg) : (t.setK n x).mq = t.mq := by unfold Strand.setK; split <;> rfl
@[simp] theorem Strand.setK_mseq (t : Strand) (n : Nat) (x : KReg) : (t.setK n x).mseq = t.mseq := by unfold Strand.setK; split <;> rfl
@[simp] theorem Strand.setK_active (t : Strand) (n : Nat) (x : KReg) : (t.setK n x).active = t.active := by unfold Strand.setK; split <;> rfl
@[simp] theorem Strand.setK_shadow (t : Strand) (n : Nat) (x : KReg) : (t.setK n x).shadow = t.shadow := by unfold Strand.setK; split <;> rfl
@[simp] theorem Strand.setK_map (t : Strand) (n : Nat) (x : KReg) : (t.setK n x).map = t.map := by unfold Strand.setK; split <;> rfl
@[simp] theorem Strand.setK_bound (t : Strand) (n : Nat) (x : KReg) : (t.setK n x).bound = t.bound := by unfold Strand.setK; split <;> rfl
@[simp] theorem Strand.setK_fillq (t : Strand) (n : Nat) (x : KReg) : (t.setK n x).fillq = t.fillq := by unfold Strand.setK; split <;> rfl
@[simp] theorem Strand.setK_spillq (t : Strand) (n : Nat) (x : KReg) : (t.setK n x).spillq = t.spillq := by unfold Strand.setK; split <;> rfl
@[simp] theorem Strand.setK_cq (t : Strand) (n : Nat) (x : KReg) : (t.setK n x).cq = t.cq := by unfold Strand.setK; split <;> rfl
@[simp] theorem Strand.setK_sendq (t : Strand) (n : Nat) (x : KReg) : (t.setK n x).sendq = t.sendq := by unfold Strand.setK; split <;> rfl
@[simp] theorem Strand.setK_scratch (t : Strand) (n : Nat) (x : KReg) : (t.setK n x).scratch = t.scratch := by unfold Strand.setK; split <;> rfl
@[simp] theorem Strand.setK_nearBad (t : Strand) (n : Nat) (x : KReg) : (t.setK n x).nearBad = t.nearBad := by unfold Strand.setK; split <;> rfl
@[simp] theorem Strand.setK_scrFrames (t : Strand) (n : Nat) (x : KReg) : (t.setK n x).scrFrames = t.scrFrames := by unfold Strand.setK; split <;> rfl
@[simp] theorem Strand.setK_tokps (t : Strand) (n : Nat) (x : KReg) : (t.setK n x).tokps = t.tokps := by unfold Strand.setK; split <;> rfl
@[simp] theorem Strand.setK_yielded (t : Strand) (n : Nat) (x : KReg) : (t.setK n x).yielded = t.yielded := by unfold Strand.setK; split <;> rfl

/-! ### What they set -/

@[simp] theorem Strand.goto_pc (t : Strand) (pc : Word) : (t.goto pc).pc = pc := rfl
@[simp] theorem Strand.goto_restart (t : Strand) (pc : Word) : (t.goto pc).restart = 0 := rfl
@[simp] theorem Strand.goto_append (t : Strand) (pc : Word) : (t.goto pc).append = none := rfl
@[simp] theorem Strand.goto_recBuf (t : Strand) (pc : Word) : (t.goto pc).recBuf = none := rfl
@[simp] theorem Strand.goto_wait (t : Strand) (pc : Word) : (t.goto pc).wait = .none := rfl
@[simp] theorem Strand.goto_tokDone (t : Strand) (pc : Word) : (t.goto pc).tokDone = false := rfl
@[simp] theorem Strand.goto_handing (t : Strand) (pc : Word) : (t.goto pc).handing = [] := rfl
@[simp] theorem Strand.goto_claim (t : Strand) (pc : Word) : (t.goto pc).claim = none := rfl
@[simp] theorem Strand.next_pc (t : Strand) : t.next.pc = t.pc + 4#64 := rfl
@[simp] theorem Strand.next_restart (t : Strand) : t.next.restart = 0 := rfl
@[simp] theorem Strand.next_append (t : Strand) : t.next.append = none := rfl
@[simp] theorem Strand.next_recBuf (t : Strand) : t.next.recBuf = none := rfl
@[simp] theorem Strand.next_wait (t : Strand) : t.next.wait = .none := rfl
@[simp] theorem Strand.next_tokDone (t : Strand) : t.next.tokDone = false := rfl
@[simp] theorem Strand.next_handing (t : Strand) : t.next.handing = [] := rfl
@[simp] theorem Strand.next_claim (t : Strand) : t.next.claim = none := rfl
@[simp] theorem State.nextSeq_fst (s : State) : s.nextSeq.1 = s.seq + 1 := rfl
@[simp] theorem State.nextSeq_seq (s : State) : s.nextSeq.2.seq = s.seq + 1 := rfl

end Sys2Proof.Machine
end

