-- ==== Sys2Proof/Laws/Ops.lean ====
section
/-! SUPPORT. What each shared operation can do, said once: registers, moving on, taking a fault and returning from one, counting
events, writing at a home, translating an address, and the gate of vector forms. -/

namespace Sys2Proof.Machine

open Sys2Proof

/-! ### Strands -/

@[simp] theorem strand_setStrand (s : State) (k j : Nat) (t : Strand) :
    (s.setStrand k t).strand j = if j = k then t else s.strand j := by
  simp [State.strand, State.setStrand]

@[simp] theorem strand_updSlot (s : State) (k j : Nat) (f : Strand → Strand) :
    (s.updSlot k f).strand j = if j = k then f (s.strand k) else s.strand j := by
  simp [State.updSlot]

theorem strand_upd (s : State) (f : Strand → Strand) (j : Nat) : (s.upd f).strand j = if j = s.cur then f s.me else s.strand j := by
  simp [State.upd, State.me]

@[simp] theorem me_upd (s : State) (f : Strand → Strand) : (s.upd f).me = f s.me := by
  simp [State.me, State.upd]

@[simp] theorem part_updPart (s : State) (p q : BitVec 6) (f : Partition → Partition) :
    (s.updPart p f).part q = if q.toNat = p.toNat then f (s.part p) else s.part q := by
  simp [State.part, State.updPart]

/-- An update of the current strand changes nothing else. -/
theorem onlyMe_upd (s : State) (f : Strand → Strand) : OnlyMe s (s.upd f) :=
  ⟨rfl, fun k hk => by rw [strand_upd, if_neg hk]⟩

/-- An update of one strand changes nothing else. -/
theorem onlySlot_updSlot (s : State) (k : Nat) (f : Strand → Strand) : OnlySlot s (s.updSlot k f) k :=
  ⟨rfl, fun j hj => by rw [strand_updSlot, if_neg hj]⟩

/-- A step that changes nothing but the current strand keeps every byte of memory. -/
theorem OnlyMe.mem {s t : State} (h : OnlyMe s t) : t.mem = s.mem := by
  rw [show s.mem = ({ t with strands := s.strands } : State).mem by rw [h.1]]

/-- And which strand is current. -/
theorem OnlyMe.cur {s t : State} (h : OnlyMe s t) : t.cur = s.cur := by
  rw [show s.cur = ({ t with strands := s.strands } : State).cur by rw [h.1]]

theorem OnlyMe.refl (s : State) : OnlyMe s s := ⟨rfl, fun _ _ => rfl⟩

/-! ### Registers -/

@[simp] theorem getS_zero (t : Strand) : t.getS 0#5 = 0#64 := rfl

/-- A written scalar register reads back, but for s0; the others read as before. -/
@[simp] theorem getS_setS (t : Strand) (d r : BitVec 5) (x : Word) :
    (t.setS d x).getS r = if r = d ∧ d ≠ 0#5 then x else t.getS r := by
  unfold Strand.setS Strand.getS
  by_cases hd : d = 0#5
  · simp [hd]
  · by_cases hr : r = 0#5
    · subst hr; simp [hd, Ne.symm hd]
    · by_cases h : r = d
      · subst h; simp [hd]
      · have : r.toNat ≠ d.toNat := fun e => h (BitVec.eq_of_toNat_eq e)
        simp [hd, hr, h, this]

@[simp] theorem getV_setV (t : Strand) (n m : Nat) (x : VReg) : (t.setV n x).getV m = if m = n then x else t.getV m := by
  simp [Strand.getV, Strand.setV]

/-- A written mask register reads back, but for k0; the others read as before. -/
@[simp] theorem getK_setK (t : Strand) (n m : Nat) (x : KReg) : (t.setK n x).getK m = if m = n ∧ n ≠ 0 then x else t.getK m := by
  unfold Strand.setK Strand.getK
  by_cases hn : n = 0
  · simp [hn]
  · by_cases hm : m = 0
    · subst hm; simp [hn, Ne.symm hn]
    · by_cases h : m = n <;> simp [hn, hm, h]

@[simp] theorem getS_goto (t : Strand) (pc : Word) (r : BitVec 5) : (t.goto pc).getS r = t.getS r := rfl
@[simp] theorem getS_next (t : Strand) (r : BitVec 5) : t.next.getS r = t.getS r := rfl
@[simp] theorem getV_goto (t : Strand) (pc : Word) (n : Nat) : (t.goto pc).getV n = t.getV n := rfl
@[simp] theorem getV_next (t : Strand) (n : Nat) : t.next.getV n = t.getV n := rfl
@[simp] theorem getK_goto (t : Strand) (pc : Word) (n : Nat) : (t.goto pc).getK n = t.getK n := rfl
@[simp] theorem getK_next (t : Strand) (n : Nat) : t.next.getK n = t.getK n := rfl

/-! ### Moving on -/

/-- A strand that goes on differs in nothing but its pc and what it kept of the instruction. -/
theorem wentOn_goto (u : Strand) (pc : Word) : WentOn u (u.goto pc) pc := ⟨rfl, rfl, rfl, rfl, rfl, rfl, rfl, rfl, rfl⟩

theorem wentOn_next (u : Strand) : WentOn u u.next (u.pc + 4#64) := wentOn_goto u _

/-- Writing s[d] and going on. -/
theorem wroteS_goto (u : Strand) (d : BitVec 5) (x pc : Word) : WroteS u ((u.setS d x).goto pc) d x pc := by
  refine ⟨?_, fun r hr => ?_, ?_, ?_⟩
  · by_cases hd : d = 0#5 <;> simp [hd]
  · simp [hr]
  · unfold Strand.setS; split <;> rfl
  · have : ({ (u.setS d x).goto pc with s := u.s, badS := u.badS } : Strand) = u.goto pc := by
      unfold Strand.setS; split <;> rfl
    rw [this]; exact wentOn_goto u pc

/-- A form that only writes s[d] ends so. -/
theorem scalarResult_spec (d : BitVec 5) (f : Strand → Word) (s : State) :
    ∃ t, scalarResult d f s = .next t ∧ OnlyMe s t ∧ WroteS s.me t.me d (f s.me) (s.me.pc + 4#64) := by
  refine ⟨_, rfl, onlyMe_upd s _, ?_⟩
  rw [me_upd]
  have h := wroteS_goto s.me d (f s.me) (s.me.pc + 4#64)
  simpa only [Strand.next, Strand.setS_pc] using h

/-- The same from the instruction's meaning. -/
theorem yieldsS_of_scalarResult {i : Instr} {s : State} {d : BitVec 5} {f : Strand → Word} {x : Word}
    (h : exec i s = scalarResult d f s) (hx : f s.me = x) : YieldsS i s d x (s.me.pc + 4#64) := by
  obtain ⟨t, h1, h2, h3⟩ := scalarResult_spec d f s
  exact ⟨t, h.trans h1, h2, hx ▸ h3⟩

/-! ### Taking a fault and returning from one -/

/-- A running strand that takes a fault is PARKED at its instruction with the record, and nothing else differs
(spec/09_translation_and_faults.md R160, R161). -/
theorem raise_spec (x : Trap) (s : State) (h : s.me.phase = .running) : OnlyMe s (raise x s) ∧
    Parked s.me (raise x s).me
      { ownRecord s x.cls x.akind x.va x.index x.hyp with eng := x.eng } := by
  refine ⟨onlyMe_upd s _, ?_⟩
  have hm : (raise x s).me = { s.me with
      phase := if s.me.phase = .saving then .saving else .parked
      wait := .none
      recBuf := none
      reported := false
      fault := some ⟨sidOf s.cur, s.me.saveArea, s.me.pc, x.va, x.cls, x.akind, x.hyp, x.eng, decide (s.me.phase = .saving), x.index⟩ } :=
    me_upd s _
  rw [hm, h]
  exact ⟨rfl, rfl, rfl, rfl, rfl⟩

/-- The meaning of an instruction that takes a fault. -/
theorem traps_of_raise {i : Instr} {s : State} {c : FaultClass} {k : AccessKind} {va : Word} {n : BitVec 32} {hyp : Bool}
    (h : exec i s = .next (raise ⟨c, k, va, n, hyp, false⟩ s)) (hp : s.me.phase = .running) : Traps i s (ownRecord s c k va n hyp) := by
  obtain ⟨h1, h2⟩ := raise_spec ⟨c, k, va, n, hyp, false⟩ s hp
  exact ⟨_, h, h1, h2⟩

/-- A resume changes nothing but the strand (spec/09_translation_and_faults.md R165). -/
theorem resume_spec (s : State) (k : Nat) : OnlySlot s (resumeParked s k) k ∧
    (resumeParked s k).strand k = { s.strand k with
      phase := .running
      pc := resumePc (s.strand k)
      fault := none
      reported := false
      wait := if sweepWaits (s.strand k) then .sweep else .none
      evFlag := true
      mq := (s.strand k).mq.map (fun c => { c with faulted := false }) } := by
  refine ⟨onlySlot_updSlot s k _, ?_⟩
  simp only [resumeParked, strand_updSlot, if_true]

theorem PackageKept.trans {s t u : State} (h : PackageKept s t) (g : PackageKept t u) : PackageKept s u := by
  unfold PackageKept at *
  rw [show ({ u with strands := s.strands } : State) = { ({ u with strands := t.strands } : State) with strands := s.strands } from rfl, g, h]

/-! ### Counting events -/

theorem bumpPerf_same (t : Strand) (here slot : Nat) (p : Bool) (e n : Nat) : SameButCounts t (bumpPerf t here slot p e n) := by
  unfold bumpPerf; split <;> rfl

theorem bumpDie_same (t : Strand) (e n : Nat) : SameButCounts t (bumpDie t e n) := rfl

/-- A strand of a mapped table. -/
theorem tabGet_map {α : Type} (d : α) (f : Nat → α → α) (hd : ∀ k, f k d = d) (t : Tab α) (k : Nat) :
    tabGet d (t.map (fun p => (p.1, f p.1 p.2))) k = f k (tabGet d t k) := by
  induction t with
  | nil => simp [hd]
  | cons p t ih =>
    obtain ⟨k', v⟩ := p
    simp only [List.map_cons, tabGet_cons, ih]
    split <;> simp_all

/-- A strand of a state whose strands are all mapped. -/
theorem strand_of_map {s t : State} (f : Nat → Strand → Strand) (hd : ∀ k, f k Strand.empty = Strand.empty)
    (h : t.strands = s.strands.map (fun p => (p.1, f p.1 p.2))) (k : Nat) : t.strand k = f k (s.strand k) := by
  unfold State.strand
  rw [h, tabGet_map _ f hd]

/-- Counting an event changes nothing but performance counters. -/
theorem countFor_spec (s : State) (slot : Nat) (p : BitVec 6) (e n : Nat) : PackageKept s (countFor s slot p e n) ∧
    ∀ k, SameButCounts (s.strand k) ((countFor s slot p e n).strand k) := by
  refine ⟨rfl, fun k => ?_⟩
  rw [strand_of_map (s := s) (t := countFor s slot p e n) (fun k t =>
    if coreOf k = coreOf slot then bumpPerf t k slot (decide (t.part = p)) e n else t)
    (fun k => by show (if coreOf k = coreOf slot then Strand.empty else Strand.empty) = _; split <;> rfl)
    (List.map_congr_left (fun p _ => by split <;> rfl)) k]
  split
  · exact bumpPerf_same _ _ _ _ _ _
  · rfl

theorem countEvent_spec (s : State) (slot e n : Nat) : PackageKept s (countEvent s slot e n) ∧
    ∀ k, SameButCounts (s.strand k) ((countEvent s slot e n).strand k) := countFor_spec s slot _ e n

/-! ### Writing at a home and translating -/

/-- Nothing differs but TLBs, memory with what its homes keep about it, links of strands that broke, and whether the step waits for a
self-test. -/
def OnlyHomes (s t : State) : Prop :=
  { t with
    tlb := s.tlb
    mem := s.mem
    deadGroups := s.deadGroups
    badSectors := s.badSectors
    compressed := s.compressed
    strands := s.strands
    held := s.held } = s ∧
  (∀ k, ∃ ls, t.strand k = { s.strand k with links := ls } ∧ ∀ l ∈ ls, l ∈ (s.strand k).links) ∧
  (Memory.wf s.mem = true → Memory.wf t.mem = true)

theorem OnlyHomes.refl (s : State) : OnlyHomes s s := ⟨rfl, fun k => ⟨(s.strand k).links, rfl, fun _ h => h⟩, id⟩

theorem OnlyHomes.trans {s t u : State} (h : OnlyHomes s t) (g : OnlyHomes t u) : OnlyHomes s u := by
  refine ⟨?_, fun k => ?_, fun w => g.2.2 (h.2.2 w)⟩
  · rw [show ({ u with
        tlb := s.tlb
        mem := s.mem
        deadGroups := s.deadGroups
        badSectors := s.badSectors
        compressed := s.compressed
        strands := s.strands
        held := s.held } : State) = { ({ u with
        tlb := t.tlb
        mem := t.mem
        deadGroups := t.deadGroups
        badSectors := t.badSectors
        compressed := t.compressed
        strands := t.strands
        held := t.held } : State) with
        tlb := s.tlb
        mem := s.mem
        deadGroups := s.deadGroups
        badSectors := s.badSectors
        compressed := s.compressed
        strands := s.strands
        held := s.held } from rfl, g.1, h.1]
  · obtain ⟨l1, h1, h2⟩ := h.2.1 k
    obtain ⟨l2, g1, g2⟩ := g.2.1 k
    refine ⟨l2, ?_, fun l hl => h2 l ?_⟩
    · rw [g1, h1]
    · have := g2 l hl; rw [h1] at this; exact this

/-- Breaking links changes nothing but links. -/
theorem onlyHomes_breakLinks (s : State) (w : Option Nat) (pa n : Nat) : OnlyHomes s (breakLinks s w pa n) := by
  unfold breakLinks
  split
  · exact OnlyHomes.refl s
  · refine ⟨rfl, fun k => ?_, id⟩
    rw [strand_of_map (s := s) (fun k t =>
      if w = some k then t else { t with links := t.links.filter (fun l => !(unitsOf 128 pa n).contains l) })
      (fun k => by show (if w = some k then Strand.empty else Strand.empty) = _; split <;> rfl)
      (List.map_congr_left (fun p _ => by dsimp only; split <;> rfl)) k]
    by_cases hw : w = some k
    · exact ⟨(s.strand k).links, by rw [if_pos hw], fun _ h => h⟩
    · exact ⟨(s.strand k).links.filter (fun l => !(unitsOf 128 pa n).contains l), by rw [if_neg hw],
        fun l hl => List.mem_of_mem_filter hl⟩

theorem onlyHomes_recompress (s : State) (pa n : Nat) (c : Bool) : OnlyHomes s (recompress s pa n c) := by
  unfold recompress
  split
  · exact OnlyHomes.refl s
  · exact ⟨rfl, fun k => ⟨(s.strand k).links, rfl, fun _ h => h⟩, id⟩

/-- A home write changes memory by its bytes, and besides it only what the home keeps and links. -/
theorem onlyHomes_homeWrite (s : State) (w : Option Nat) (pa : Nat) (bs : List Byte) (c : Bool) :
    OnlyHomes s (homeWrite s w pa bs c) := by
  refine OnlyHomes.trans (t := { s with
    mem := memPut s.mem pa bs
    deadGroups := if s.deadGroups = [] then [] else s.deadGroups.filter (fun g => !(unitsOf 2048 pa bs.length).contains g)
    badSectors := if s.badSectors = [] then [] else
      s.badSectors.filter (fun x => !(decide (pa ≤ 32 * x) && decide (32 * x + 32 ≤ pa + bs.length))) })
    ⟨rfl, fun k => ⟨(s.strand k).links, rfl, fun _ h => h⟩, wf_memPut pa bs⟩ ?_
  exact (onlyHomes_breakLinks _ w pa bs.length).trans (onlyHomes_recompress _ pa bs.length c)

theorem onlyHomes_touchPte (s : State) (l : Leaf) (w : Bool) : OnlyHomes s (touchPte s l w) := by
  have h : ∀ e : Word, OnlyHomes s (if e = l.pte then s else homeWrite s none l.at_ (bvBytes e) false) := by
    intro e
    split
    · exact OnlyHomes.refl s
    · exact onlyHomes_homeWrite s none l.at_ _ false
  exact h _

theorem onlyHomes_writePtes (l : List (Nat × Word)) (s : State) : OnlyHomes s (writePtes l s) := by
  induction l generalizing s with
  | nil => exact OnlyHomes.refl s
  | cons x l ih => exact (onlyHomes_homeWrite s none x.1 (bvBytes x.2) false).trans (ih _)

/-- A walk writes nothing but leaves of page tables (spec/09_translation_and_faults.md R152, R154, R155). -/
theorem onlyHomes_walk {s s1 : State} {unit va : Nat} {p : BitVec 6} {need : Need} {e : TlbEntry}
    (h : walk s unit p va need = .ok (e, s1)) : OnlyHomes s s1 := by
  unfold walk at h
  dsimp only at h
  iterate 6 (split at h; · cases h)
  simp only [Except.ok.injEq, Prod.mk.injEq] at h
  rw [← h.2]
  exact ((onlyHomes_writePtes _ s).trans (onlyHomes_touchPte _ _ _)).trans (onlyHomes_touchPte _ _ _)

theorem onlyHomes_tlb (s : State) (l : List TlbEntry) : OnlyHomes s { s with tlb := l } :=
  ⟨rfl, fun k => ⟨(s.strand k).links, rfl, fun _ h => h⟩, id⟩

theorem onlyHomes_hold (s : State) (b : Bool) : OnlyHomes s (s.hold b) := by
  unfold State.hold
  split
  · exact ⟨rfl, fun k => ⟨(s.strand k).links, rfl, fun _ h => h⟩, id⟩
  · exact OnlyHomes.refl s

theorem onlyHomes_translate {s s1 : State} {unit va : Nat} {p : BitVec 6} {need : Need} {e : TlbEntry}
    (h : translate s unit p va need = .ok (e, s1)) : OnlyHomes s s1 := by
  unfold translate at h
  dsimp only at h
  split at h
  · cases h; exact OnlyHomes.refl s
  · split at h
    · cases h; exact onlyHomes_tlb s _
    · split at h
      · cases h
      · rename_i e1 s2 hw
        split at h
        · cases h; exact ((onlyHomes_walk hw).trans (onlyHomes_hold _ _)).trans (onlyHomes_tlb _ _)
        · cases h; exact (onlyHomes_walk hw).trans (onlyHomes_hold _ _)

/-- An access that passes its checks has written nothing but page tables and TLBs (spec/09_translation_and_faults.md R164). -/
theorem onlyHomes_locate {s s1 : State} {c : Ctx} {va : Word} {n al : Nat} {need : Need} {acc : Accepts} {pl : Place}
    (h : locate s c va n al need acc = .ok (pl, s1)) : OnlyHomes s s1 := by
  unfold locate at h
  dsimp only at h
  split at h
  · cases h
  · split at h
    · cases h
    · split at h
      · split at h
        · cases h
        · split at h
          · cases h
          · split at h
            · cases h
            · cases h; exact OnlyHomes.refl s
      · split at h
        · cases h
        · split at h
          · cases h
          · rename_i e s2 ht
            split at h
            · cases h
            · cases h; exact onlyHomes_translate ht

/-- A region replaced whole keeps memory in its canonical form. -/
theorem wf_homeCells {s : State} (pa n : Nat) (cells : List (Nat × Byte)) (c : Bool) (h : Memory.wf s.mem = true) :
    Memory.wf (homeCells s pa n cells c).mem = true := by
  have fold : ∀ (l : List (Nat × Byte)) (m : List Host.Cell), Memory.wf m = true →
      Memory.wf (l.foldl (fun (m : List Host.Cell) (c : Nat × Byte) => tabPut emptyByte m (pa + c.1) c.2) m) = true := by
    intro l
    induction l with
    | nil => exact fun m hm => hm
    | cons x l ih => exact fun m hm => ih _ (tabWf_tabPut _ _ hm)
  simp only [homeCells, mem_recompress, mem_breakLinks]
  exact fold cells _ (wf_memErase pa n h)

/-! ### Outstanding accesses -/

theorem SameButCounts.refl (u : Strand) : SameButCounts u u := rfl

theorem SameButCounts.trans {u v w : Strand} (h : SameButCounts u v) (g : SameButCounts v w) : SameButCounts u w := by
  unfold SameButCounts at *
  rw [show ({ w with perfCnt := u.perfCnt } : Strand) = { ({ w with perfCnt := v.perfCnt } : Strand) with perfCnt := u.perfCnt } from rfl, g, h]

/-- An access to this package joins the outstanding ones of its strand; besides performance counters nothing else differs
(spec/06_memory_ordering.md R108). -/
theorem post_spec (s : State) (k : Nat) (a : Access) (h : isRemote a.place = false) : PackageKept s (post s k a) ∧
    (∀ j, j ≠ k → SameButCounts (s.strand j) ((post s k a).strand j)) ∧
    SameButCounts { s.strand k with out := (s.strand k).out ++ [{ a with tag := none, sent := false }] } ((post s k a).strand k) := by
  have ht : takeTag s (dieOf (coreOf k)) a.place = (none, s) := by
    unfold takeTag
    cases hp : a.place <;> simp_all [isRemote]
  have base : ∀ f : State → State, (∀ u, PackageKept u (f u) ∧ ∀ j, SameButCounts (u.strand j) ((f u).strand j)) →
      let t := f (s.updSlot k (fun t => { t with out := t.out ++ [{ a with tag := none, sent := false }] }))
      PackageKept s t ∧ (∀ j, j ≠ k → SameButCounts (s.strand j) (t.strand j)) ∧
        SameButCounts { s.strand k with out := (s.strand k).out ++ [{ a with tag := none, sent := false }] } (t.strand k) := by
    intro f hf
    obtain ⟨h1, h2⟩ := hf (s.updSlot k (fun t => { t with out := t.out ++ [{ a with tag := none, sent := false }] }))
    refine ⟨PackageKept.trans (t := s.updSlot k _) ?_ h1, fun j hj => ?_, ?_⟩
    · rfl
    · have := h2 j; rwa [strand_updSlot, if_neg hj] at this
    · have := h2 k; rwa [strand_updSlot, if_pos rfl] at this
  simp only [post, ht, h, Bool.false_and, Bool.false_eq_true, if_false, countNear]
  split
  · exact base _ (fun u => countEvent_spec u k 0x0006 1)
  · exact base id (fun u => ⟨rfl, fun _ => rfl⟩)

/-! ### Vector forms -/

/-- Where the gate of a vector form lets it go on, it does so without the strand's marks too: the marks can only trap. -/
theorem vGate_unmarked (t : Strand) (f : VForm) (h : vGate t f = .go) : vGate { t with marks := [], badK := [] } f = .go := by
  have h0 : ∀ (m : List Mark) (b : List Nat), vGate { t with marks := m, badK := b } f =
      (if (f.srcs ++ f.dsts).any (fun o => !t.grouped o) then .trap (Trap.plain .regGroup)
      else if (f.srcs.any (fun o => (t.groupRegs o).any t.vBusy) || f.reads.any t.vBusy ||
          f.dsts.any (fun o => (t.groupRegs o).any t.vLoading) || f.writes.any t.vLoading ||
          (f.kr ++ f.kw).any t.kBusy) then .wait
      else if t.vl = 0#12 then .empty
      else match (((Strand.markOf { t with marks := m, badK := b } (f.srcs.flatMap t.liveRegs ++ f.reads) .poison).orElse
            (fun _ => Strand.maskTrap { t with marks := m, badK := b } f.kr)).orElse
            (fun _ => Strand.markOf { t with marks := m, badK := b } (f.srcs.flatMap t.liveRegs ++ f.reads) .memLost)) with
        | some x => .trap x
        | none => .go) := fun _ _ => rfl
  have h1 := h0 t.marks t.badK
  rw [show ({ t with marks := t.marks, badK := t.badK } : Strand) = t from rfl, h] at h1
  rw [h0 [] []]
  split at h1
  · cases h1
  · split at h1
    · cases h1
    · split at h1
      · cases h1
      · rename_i ha hb hc
        rw [if_neg ha, if_neg hb, if_neg hc]
        simp [Strand.markOf, Strand.maskTrap]

/-- A vector form of the S queue takes a fault, waits, or changes nothing but its strand (spec/15_vector_instructions.md R258). -/
theorem vectorForm_cases (f : VForm) (run : Strand → Strand) (s : State) :
    (∃ x, vGate s.me f = .trap x ∧ vectorForm f run s = .next (raise x s)) ∨
    (vGate s.me f = .wait ∧ vectorForm f run s = .next s) ∨
    (vGate s.me f = .empty ∧ vectorForm f run s = .next (s.upd Strand.next)) ∨
    (vGate s.me f = .go ∧ vectorForm f run s = .next (s.upd (fun t => (run t).next))) := by
  unfold vectorForm
  cases h : vGate s.me f with
  | trap x => exact .inl ⟨x, rfl, rfl⟩
  | wait => exact .inr (.inl ⟨rfl, rfl⟩)
  | empty => exact .inr (.inr (.inl ⟨rfl, rfl⟩))
  | go => exact .inr (.inr (.inr ⟨rfl, rfl⟩))

/-- Every vector form of the S queue answers a next state. -/
theorem vectorForm_next (f : VForm) (run : Strand → Strand) (s : State) : ∃ t, vectorForm f run s = .next t := by
  rcases vectorForm_cases f run s with ⟨x, -, h⟩ | ⟨-, h⟩ | ⟨-, h⟩ | ⟨-, h⟩ <;> exact ⟨_, h⟩

end Sys2Proof.Machine
end

