-- ==== Sys2Proof/Laws/PerInstr.lean ====
section
/-! SUPPORT. For every instruction: the word that the encoder gives is the word that the decoder reads (spec/13_encoding.md R217,
R218). -/

namespace Sys2Proof.Laws

open Sys2Proof

/-- Bits of the lower part of an append. -/
theorem ex_lo {n m lo k : Nat} (x : BitVec n) (y : BitVec m) (h : Nat.ble (lo + k) m = true) :
    BitVec.extractLsb' lo k (x ++ y) = BitVec.extractLsb' lo k y :=
  BitVec.extractLsb'_append_eq_of_add_le (Nat.le_of_ble_eq_true h)

/-- Bits of the upper part of an append. -/
theorem ex_hi {n m lo k : Nat} (x : BitVec n) (y : BitVec m) (h : Nat.ble m lo = true) :
    BitVec.extractLsb' lo k (x ++ y) = BitVec.extractLsb' (lo - m) k x :=
  BitVec.extractLsb'_append_eq_of_le (Nat.le_of_ble_eq_true h)

/-- All the bits. -/
theorem ex_all {n : Nat} (x : BitVec n) : BitVec.extractLsb' 0 n x = x := BitVec.extractLsb'_eq_self

/-- A test that holds. -/
theorem needs_of {e : ScanReason} {b : Bool} {r : Except ScanReason Instr} (h : b = true) : needs e b r = r := if_pos h

/-- A word that a family accepts. -/
theorem decode_of {w : IWord} {i : Instr} (h : decodeFamily w = .ok i) : decode w = some i := by
  unfold decode; rw [h]

/-- Decoding the word of a well-formed instruction gives the instruction back. -/
def Encode.Statement (i : Instr) : Prop := wellFormed i = true → decode (encode i) = some i

theorem family_Opr {w : IWord} (h : fld w 26 6 = 1#6) : decodeFamily w = decodeOpr w := by
  unfold decodeFamily; rw [h]; rfl

theorem family_Addi {w : IWord} (h : fld w 26 6 = 2#6) : decodeFamily w = decodeAddi w := by
  unfold decodeFamily; rw [h]; rfl

theorem family_Andi {w : IWord} (h : fld w 26 6 = 3#6) : decodeFamily w = decodeAndi w := by
  unfold decodeFamily; rw [h]; rfl

theorem family_Ori {w : IWord} (h : fld w 26 6 = 4#6) : decodeFamily w = decodeOri w := by
  unfold decodeFamily; rw [h]; rfl

theorem family_Xori {w : IWord} (h : fld w 26 6 = 5#6) : decodeFamily w = decodeXori w := by
  unfold decodeFamily; rw [h]; rfl

theorem family_Slti {w : IWord} (h : fld w 26 6 = 6#6) : decodeFamily w = decodeSlti w := by
  unfold decodeFamily; rw [h]; rfl

theorem family_Sltiu {w : IWord} (h : fld w 26 6 = 7#6) : decodeFamily w = decodeSltiu w := by
  unfold decodeFamily; rw [h]; rfl

theorem family_Lih {w : IWord} (h : fld w 26 6 = 8#6) : decodeFamily w = decodeLih w := by
  unfold decodeFamily; rw [h]; rfl

theorem family_Shi {w : IWord} (h : fld w 26 6 = 9#6) : decodeFamily w = decodeShi w := by
  unfold decodeFamily; rw [h]; rfl

theorem family_Fop {w : IWord} (h : fld w 26 6 = 10#6) : decodeFamily w = decodeFop w := by
  unfold decodeFamily; rw [h]; rfl

theorem family_Ld {w : IWord} (h : fld w 26 6 = 11#6) : decodeFamily w = decodeLd w := by
  unfold decodeFamily; rw [h]; rfl

theorem family_Lds {w : IWord} (h : fld w 26 6 = 12#6) : decodeFamily w = decodeLds w := by
  unfold decodeFamily; rw [h]; rfl

theorem family_St {w : IWord} (h : fld w 26 6 = 13#6) : decodeFamily w = decodeSt w := by
  unfold decodeFamily; rw [h]; rfl

theorem family_Ordm {w : IWord} (h : fld w 26 6 = 14#6) : decodeFamily w = decodeOrdm w := by
  unfold decodeFamily; rw [h]; rfl

theorem family_Amo {w : IWord} (h : fld w 26 6 = 15#6) : decodeFamily w = decodeAmo w := by
  unfold decodeFamily; rw [h]; rfl

theorem family_Cas {w : IWord} (h : fld w 26 6 = 16#6) : decodeFamily w = decodeCas w := by
  unfold decodeFamily; rw [h]; rfl

theorem family_Stn {w : IWord} (h : fld w 26 6 = 17#6) : decodeFamily w = decodeStn w := by
  unfold decodeFamily; rw [h]; rfl

theorem family_Bc {w : IWord} (h : fld w 26 6 = 18#6) : decodeFamily w = decodeBc w := by
  unfold decodeFamily; rw [h]; rfl

theorem family_J {w : IWord} (h : fld w 26 6 = 19#6) : decodeFamily w = decodeJ w := by
  unfold decodeFamily; rw [h]; rfl

theorem family_Jal {w : IWord} (h : fld w 26 6 = 20#6) : decodeFamily w = decodeJal w := by
  unfold decodeFamily; rw [h]; rfl

theorem family_Jalr {w : IWord} (h : fld w 26 6 = 21#6) : decodeFamily w = decodeJalr w := by
  unfold decodeFamily; rw [h]; rfl

theorem family_Callt {w : IWord} (h : fld w 26 6 = 22#6) : decodeFamily w = decodeCallt w := by
  unfold decodeFamily; rw [h]; rfl

theorem family_Sys {w : IWord} (h : fld w 26 6 = 23#6) : decodeFamily w = decodeSys w := by
  unfold decodeFamily; rw [h]; rfl

theorem family_Vcfg {w : IWord} (h : fld w 26 6 = 24#6) : decodeFamily w = decodeVcfg w := by
  unfold decodeFamily; rw [h]; rfl

theorem family_Vint0 {w : IWord} (h : fld w 26 6 = 25#6) : decodeFamily w = decodeVint0 w := by
  unfold decodeFamily; rw [h]; rfl

theorem family_Vint1 {w : IWord} (h : fld w 26 6 = 26#6) : decodeFamily w = decodeVint1 w := by
  unfold decodeFamily; rw [h]; rfl

theorem family_Vcmp {w : IWord} (h : fld w 26 6 = 27#6) : decodeFamily w = decodeVcmp w := by
  unfold decodeFamily; rw [h]; rfl

theorem family_Vflt {w : IWord} (h : fld w 26 6 = 28#6) : decodeFamily w = decodeVflt w := by
  unfold decodeFamily; rw [h]; rfl

theorem family_Vfma {w : IWord} (h : fld w 26 6 = 29#6) : decodeFamily w = decodeVfma w := by
  unfold decodeFamily; rw [h]; rfl

theorem family_Vfcv {w : IWord} (h : fld w 26 6 = 30#6) : decodeFamily w = decodeVfcv w := by
  unfold decodeFamily; rw [h]; rfl

theorem family_Vred {w : IWord} (h : fld w 26 6 = 31#6) : decodeFamily w = decodeVred w := by
  unfold decodeFamily; rw [h]; rfl

theorem family_Vprm {w : IWord} (h : fld w 26 6 = 32#6) : decodeFamily w = decodeVprm w := by
  unfold decodeFamily; rw [h]; rfl

theorem family_Vmov {w : IWord} (h : fld w 26 6 = 33#6) : decodeFamily w = decodeVmov w := by
  unfold decodeFamily; rw [h]; rfl

theorem family_Kops {w : IWord} (h : fld w 26 6 = 34#6) : decodeFamily w = decodeKops w := by
  unfold decodeFamily; rw [h]; rfl

theorem family_Vld {w : IWord} (h : fld w 26 6 = 35#6) : decodeFamily w = decodeVld w := by
  unfold decodeFamily; rw [h]; rfl

theorem family_Vldx {w : IWord} (h : fld w 26 6 = 36#6) : decodeFamily w = decodeVldx w := by
  unfold decodeFamily; rw [h]; rfl

theorem family_Vst {w : IWord} (h : fld w 26 6 = 37#6) : decodeFamily w = decodeVst w := by
  unfold decodeFamily; rw [h]; rfl

theorem family_Vstx {w : IWord} (h : fld w 26 6 = 38#6) : decodeFamily w = decodeVstx w := by
  unfold decodeFamily; rw [h]; rfl

theorem family_Vspc {w : IWord} (h : fld w 26 6 = 39#6) : decodeFamily w = decodeVspc w := by
  unfold decodeFamily; rw [h]; rfl

theorem family_Vrred {w : IWord} (h : fld w 26 6 = 40#6) : decodeFamily w = decodeVrred w := by
  unfold decodeFamily; rw [h]; rfl

theorem family_Tcfg {w : IWord} (h : fld w 26 6 = 41#6) : decodeFamily w = decodeTcfg w := by
  unfold decodeFamily; rw [h]; rfl

theorem family_Tmem {w : IWord} (h : fld w 26 6 = 42#6) : decodeFamily w = decodeTmem w := by
  unfold decodeFamily; rw [h]; rfl

theorem family_Tmma {w : IWord} (h : fld w 26 6 = 43#6) : decodeFamily w = decodeTmma w := by
  unfold decodeFamily; rw [h]; rfl

theorem family_Twload {w : IWord} (h : fld w 26 6 = 44#6) : decodeFamily w = decodeTwload w := by
  unfold decodeFamily; rw [h]; rfl

theorem family_Tmov {w : IWord} (h : fld w 26 6 = 45#6) : decodeFamily w = decodeTmov w := by
  unfold decodeFamily; rw [h]; rfl

theorem family_Cpy {w : IWord} (h : fld w 26 6 = 46#6) : decodeFamily w = decodeCpy w := by
  unfold decodeFamily; rw [h]; rfl

theorem family_Bar {w : IWord} (h : fld w 26 6 = 47#6) : decodeFamily w = decodeBar w := by
  unfold decodeFamily; rw [h]; rfl

theorem family_Synq {w : IWord} (h : fld w 26 6 = 48#6) : decodeFamily w = decodeSynq w := by
  unfold decodeFamily; rw [h]; rfl

theorem family_Msg {w : IWord} (h : fld w 26 6 = 49#6) : decodeFamily w = decodeMsg w := by
  unfold decodeFamily; rw [h]; rfl

theorem family_Swp {w : IWord} (h : fld w 26 6 = 50#6) : decodeFamily w = decodeSwp w := by
  unfold decodeFamily; rw [h]; rfl

theorem family_Gang {w : IWord} (h : fld w 26 6 = 51#6) : decodeFamily w = decodeGang w := by
  unfold decodeFamily; rw [h]; rfl

theorem Encode.add (d : BitVec 5) (a : BitVec 5) (b : BitVec 5) : Encode.Statement (.add d a b) := by
  intro _
  apply decode_of
  have he : encode (.add d a b) = 0x01#6 ++ d ++ a ++ b ++ 0#11 := rfl
  generalize encode (.add d a b) = v0 at he
  have f26_6 : fld v0 26 6 = 1#6 :=
    (congrArg (fld · 26 6) he).trans ((ex_hi _ (0#11) rfl).trans ((ex_hi _ (b) rfl).trans ((ex_hi _ (a) rfl).trans ((ex_hi _ (d) rfl).trans (ex_all _)))))
  have f21_5 : fld v0 21 5 = d :=
    (congrArg (fld · 21 5) he).trans ((ex_hi _ (0#11) rfl).trans ((ex_hi _ (b) rfl).trans ((ex_hi _ (a) rfl).trans ((ex_lo _ (d) rfl).trans (ex_all _)))))
  have f16_5 : fld v0 16 5 = a :=
    (congrArg (fld · 16 5) he).trans ((ex_hi _ (0#11) rfl).trans ((ex_hi _ (b) rfl).trans ((ex_lo _ (a) rfl).trans (ex_all _))))
  have f11_5 : fld v0 11 5 = b :=
    (congrArg (fld · 11 5) he).trans ((ex_hi _ (0#11) rfl).trans ((ex_lo _ (b) rfl).trans (ex_all _)))
  have f6_5 : fld v0 6 5 = 0#5 :=
    (congrArg (fld · 6 5) he).trans ((ex_lo _ (0#11) rfl).trans (rfl))
  have f0_6 : fld v0 0 6 = 0#6 :=
    (congrArg (fld · 0 6) he).trans ((ex_lo _ (0#11) rfl).trans (rfl))
  rw [family_Opr f26_6, decodeOpr]
  simp only [f21_5, f16_5, f11_5, f6_5, f0_6]
  exact rfl

theorem Encode.sub (d : BitVec 5) (a : BitVec 5) (b : BitVec 5) : Encode.Statement (.sub d a b) := by
  intro _
  apply decode_of
  have he : encode (.sub d a b) = 0x01#6 ++ d ++ a ++ b ++ 1#11 := rfl
  generalize encode (.sub d a b) = v0 at he
  have f26_6 : fld v0 26 6 = 1#6 :=
    (congrArg (fld · 26 6) he).trans ((ex_hi _ (1#11) rfl).trans ((ex_hi _ (b) rfl).trans ((ex_hi _ (a) rfl).trans ((ex_hi _ (d) rfl).trans (ex_all _)))))
  have f21_5 : fld v0 21 5 = d :=
    (congrArg (fld · 21 5) he).trans ((ex_hi _ (1#11) rfl).trans ((ex_hi _ (b) rfl).trans ((ex_hi _ (a) rfl).trans ((ex_lo _ (d) rfl).trans (ex_all _)))))
  have f16_5 : fld v0 16 5 = a :=
    (congrArg (fld · 16 5) he).trans ((ex_hi _ (1#11) rfl).trans ((ex_hi _ (b) rfl).trans ((ex_lo _ (a) rfl).trans (ex_all _))))
  have f11_5 : fld v0 11 5 = b :=
    (congrArg (fld · 11 5) he).trans ((ex_hi _ (1#11) rfl).trans ((ex_lo _ (b) rfl).trans (ex_all _)))
  have f6_5 : fld v0 6 5 = 0#5 :=
    (congrArg (fld · 6 5) he).trans ((ex_lo _ (1#11) rfl).trans (rfl))
  have f0_6 : fld v0 0 6 = 1#6 :=
    (congrArg (fld · 0 6) he).trans ((ex_lo _ (1#11) rfl).trans (rfl))
  rw [family_Opr f26_6, decodeOpr]
  simp only [f21_5, f16_5, f11_5, f6_5, f0_6]
  exact rfl

theorem Encode.and (d : BitVec 5) (a : BitVec 5) (b : BitVec 5) : Encode.Statement (.and d a b) := by
  intro _
  apply decode_of
  have he : encode (.and d a b) = 0x01#6 ++ d ++ a ++ b ++ 2#11 := rfl
  generalize encode (.and d a b) = v0 at he
  have f26_6 : fld v0 26 6 = 1#6 :=
    (congrArg (fld · 26 6) he).trans ((ex_hi _ (2#11) rfl).trans ((ex_hi _ (b) rfl).trans ((ex_hi _ (a) rfl).trans ((ex_hi _ (d) rfl).trans (ex_all _)))))
  have f21_5 : fld v0 21 5 = d :=
    (congrArg (fld · 21 5) he).trans ((ex_hi _ (2#11) rfl).trans ((ex_hi _ (b) rfl).trans ((ex_hi _ (a) rfl).trans ((ex_lo _ (d) rfl).trans (ex_all _)))))
  have f16_5 : fld v0 16 5 = a :=
    (congrArg (fld · 16 5) he).trans ((ex_hi _ (2#11) rfl).trans ((ex_hi _ (b) rfl).trans ((ex_lo _ (a) rfl).trans (ex_all _))))
  have f11_5 : fld v0 11 5 = b :=
    (congrArg (fld · 11 5) he).trans ((ex_hi _ (2#11) rfl).trans ((ex_lo _ (b) rfl).trans (ex_all _)))
  have f6_5 : fld v0 6 5 = 0#5 :=
    (congrArg (fld · 6 5) he).trans ((ex_lo _ (2#11) rfl).trans (rfl))
  have f0_6 : fld v0 0 6 = 2#6 :=
    (congrArg (fld · 0 6) he).trans ((ex_lo _ (2#11) rfl).trans (rfl))
  rw [family_Opr f26_6, decodeOpr]
  simp only [f21_5, f16_5, f11_5, f6_5, f0_6]
  exact rfl

theorem Encode.or (d : BitVec 5) (a : BitVec 5) (b : BitVec 5) : Encode.Statement (.or d a b) := by
  intro _
  apply decode_of
  have he : encode (.or d a b) = 0x01#6 ++ d ++ a ++ b ++ 3#11 := rfl
  generalize encode (.or d a b) = v0 at he
  have f26_6 : fld v0 26 6 = 1#6 :=
    (congrArg (fld · 26 6) he).trans ((ex_hi _ (3#11) rfl).trans ((ex_hi _ (b) rfl).trans ((ex_hi _ (a) rfl).trans ((ex_hi _ (d) rfl).trans (ex_all _)))))
  have f21_5 : fld v0 21 5 = d :=
    (congrArg (fld · 21 5) he).trans ((ex_hi _ (3#11) rfl).trans ((ex_hi _ (b) rfl).trans ((ex_hi _ (a) rfl).trans ((ex_lo _ (d) rfl).trans (ex_all _)))))
  have f16_5 : fld v0 16 5 = a :=
    (congrArg (fld · 16 5) he).trans ((ex_hi _ (3#11) rfl).trans ((ex_hi _ (b) rfl).trans ((ex_lo _ (a) rfl).trans (ex_all _))))
  have f11_5 : fld v0 11 5 = b :=
    (congrArg (fld · 11 5) he).trans ((ex_hi _ (3#11) rfl).trans ((ex_lo _ (b) rfl).trans (ex_all _)))
  have f6_5 : fld v0 6 5 = 0#5 :=
    (congrArg (fld · 6 5) he).trans ((ex_lo _ (3#11) rfl).trans (rfl))
  have f0_6 : fld v0 0 6 = 3#6 :=
    (congrArg (fld · 0 6) he).trans ((ex_lo _ (3#11) rfl).trans (rfl))
  rw [family_Opr f26_6, decodeOpr]
  simp only [f21_5, f16_5, f11_5, f6_5, f0_6]
  exact rfl

theorem Encode.xor (d : BitVec 5) (a : BitVec 5) (b : BitVec 5) : Encode.Statement (.xor d a b) := by
  intro _
  apply decode_of
  have he : encode (.xor d a b) = 0x01#6 ++ d ++ a ++ b ++ 4#11 := rfl
  generalize encode (.xor d a b) = v0 at he
  have f26_6 : fld v0 26 6 = 1#6 :=
    (congrArg (fld · 26 6) he).trans ((ex_hi _ (4#11) rfl).trans ((ex_hi _ (b) rfl).trans ((ex_hi _ (a) rfl).trans ((ex_hi _ (d) rfl).trans (ex_all _)))))
  have f21_5 : fld v0 21 5 = d :=
    (congrArg (fld · 21 5) he).trans ((ex_hi _ (4#11) rfl).trans ((ex_hi _ (b) rfl).trans ((ex_hi _ (a) rfl).trans ((ex_lo _ (d) rfl).trans (ex_all _)))))
  have f16_5 : fld v0 16 5 = a :=
    (congrArg (fld · 16 5) he).trans ((ex_hi _ (4#11) rfl).trans ((ex_hi _ (b) rfl).trans ((ex_lo _ (a) rfl).trans (ex_all _))))
  have f11_5 : fld v0 11 5 = b :=
    (congrArg (fld · 11 5) he).trans ((ex_hi _ (4#11) rfl).trans ((ex_lo _ (b) rfl).trans (ex_all _)))
  have f6_5 : fld v0 6 5 = 0#5 :=
    (congrArg (fld · 6 5) he).trans ((ex_lo _ (4#11) rfl).trans (rfl))
  have f0_6 : fld v0 0 6 = 4#6 :=
    (congrArg (fld · 0 6) he).trans ((ex_lo _ (4#11) rfl).trans (rfl))
  rw [family_Opr f26_6, decodeOpr]
  simp only [f21_5, f16_5, f11_5, f6_5, f0_6]
  exact rfl

theorem Encode.andn (d : BitVec 5) (a : BitVec 5) (b : BitVec 5) : Encode.Statement (.andn d a b) := by
  intro _
  apply decode_of
  have he : encode (.andn d a b) = 0x01#6 ++ d ++ a ++ b ++ 5#11 := rfl
  generalize encode (.andn d a b) = v0 at he
  have f26_6 : fld v0 26 6 = 1#6 :=
    (congrArg (fld · 26 6) he).trans ((ex_hi _ (5#11) rfl).trans ((ex_hi _ (b) rfl).trans ((ex_hi _ (a) rfl).trans ((ex_hi _ (d) rfl).trans (ex_all _)))))
  have f21_5 : fld v0 21 5 = d :=
    (congrArg (fld · 21 5) he).trans ((ex_hi _ (5#11) rfl).trans ((ex_hi _ (b) rfl).trans ((ex_hi _ (a) rfl).trans ((ex_lo _ (d) rfl).trans (ex_all _)))))
  have f16_5 : fld v0 16 5 = a :=
    (congrArg (fld · 16 5) he).trans ((ex_hi _ (5#11) rfl).trans ((ex_hi _ (b) rfl).trans ((ex_lo _ (a) rfl).trans (ex_all _))))
  have f11_5 : fld v0 11 5 = b :=
    (congrArg (fld · 11 5) he).trans ((ex_hi _ (5#11) rfl).trans ((ex_lo _ (b) rfl).trans (ex_all _)))
  have f6_5 : fld v0 6 5 = 0#5 :=
    (congrArg (fld · 6 5) he).trans ((ex_lo _ (5#11) rfl).trans (rfl))
  have f0_6 : fld v0 0 6 = 5#6 :=
    (congrArg (fld · 0 6) he).trans ((ex_lo _ (5#11) rfl).trans (rfl))
  rw [family_Opr f26_6, decodeOpr]
  simp only [f21_5, f16_5, f11_5, f6_5, f0_6]
  exact rfl

theorem Encode.sll (d : BitVec 5) (a : BitVec 5) (b : BitVec 5) : Encode.Statement (.sll d a b) := by
  intro _
  apply decode_of
  have he : encode (.sll d a b) = 0x01#6 ++ d ++ a ++ b ++ 6#11 := rfl
  generalize encode (.sll d a b) = v0 at he
  have f26_6 : fld v0 26 6 = 1#6 :=
    (congrArg (fld · 26 6) he).trans ((ex_hi _ (6#11) rfl).trans ((ex_hi _ (b) rfl).trans ((ex_hi _ (a) rfl).trans ((ex_hi _ (d) rfl).trans (ex_all _)))))
  have f21_5 : fld v0 21 5 = d :=
    (congrArg (fld · 21 5) he).trans ((ex_hi _ (6#11) rfl).trans ((ex_hi _ (b) rfl).trans ((ex_hi _ (a) rfl).trans ((ex_lo _ (d) rfl).trans (ex_all _)))))
  have f16_5 : fld v0 16 5 = a :=
    (congrArg (fld · 16 5) he).trans ((ex_hi _ (6#11) rfl).trans ((ex_hi _ (b) rfl).trans ((ex_lo _ (a) rfl).trans (ex_all _))))
  have f11_5 : fld v0 11 5 = b :=
    (congrArg (fld · 11 5) he).trans ((ex_hi _ (6#11) rfl).trans ((ex_lo _ (b) rfl).trans (ex_all _)))
  have f6_5 : fld v0 6 5 = 0#5 :=
    (congrArg (fld · 6 5) he).trans ((ex_lo _ (6#11) rfl).trans (rfl))
  have f0_6 : fld v0 0 6 = 6#6 :=
    (congrArg (fld · 0 6) he).trans ((ex_lo _ (6#11) rfl).trans (rfl))
  rw [family_Opr f26_6, decodeOpr]
  simp only [f21_5, f16_5, f11_5, f6_5, f0_6]
  exact rfl

theorem Encode.srl (d : BitVec 5) (a : BitVec 5) (b : BitVec 5) : Encode.Statement (.srl d a b) := by
  intro _
  apply decode_of
  have he : encode (.srl d a b) = 0x01#6 ++ d ++ a ++ b ++ 7#11 := rfl
  generalize encode (.srl d a b) = v0 at he
  have f26_6 : fld v0 26 6 = 1#6 :=
    (congrArg (fld · 26 6) he).trans ((ex_hi _ (7#11) rfl).trans ((ex_hi _ (b) rfl).trans ((ex_hi _ (a) rfl).trans ((ex_hi _ (d) rfl).trans (ex_all _)))))
  have f21_5 : fld v0 21 5 = d :=
    (congrArg (fld · 21 5) he).trans ((ex_hi _ (7#11) rfl).trans ((ex_hi _ (b) rfl).trans ((ex_hi _ (a) rfl).trans ((ex_lo _ (d) rfl).trans (ex_all _)))))
  have f16_5 : fld v0 16 5 = a :=
    (congrArg (fld · 16 5) he).trans ((ex_hi _ (7#11) rfl).trans ((ex_hi _ (b) rfl).trans ((ex_lo _ (a) rfl).trans (ex_all _))))
  have f11_5 : fld v0 11 5 = b :=
    (congrArg (fld · 11 5) he).trans ((ex_hi _ (7#11) rfl).trans ((ex_lo _ (b) rfl).trans (ex_all _)))
  have f6_5 : fld v0 6 5 = 0#5 :=
    (congrArg (fld · 6 5) he).trans ((ex_lo _ (7#11) rfl).trans (rfl))
  have f0_6 : fld v0 0 6 = 7#6 :=
    (congrArg (fld · 0 6) he).trans ((ex_lo _ (7#11) rfl).trans (rfl))
  rw [family_Opr f26_6, decodeOpr]
  simp only [f21_5, f16_5, f11_5, f6_5, f0_6]
  exact rfl

theorem Encode.sra (d : BitVec 5) (a : BitVec 5) (b : BitVec 5) : Encode.Statement (.sra d a b) := by
  intro _
  apply decode_of
  have he : encode (.sra d a b) = 0x01#6 ++ d ++ a ++ b ++ 8#11 := rfl
  generalize encode (.sra d a b) = v0 at he
  have f26_6 : fld v0 26 6 = 1#6 :=
    (congrArg (fld · 26 6) he).trans ((ex_hi _ (8#11) rfl).trans ((ex_hi _ (b) rfl).trans ((ex_hi _ (a) rfl).trans ((ex_hi _ (d) rfl).trans (ex_all _)))))
  have f21_5 : fld v0 21 5 = d :=
    (congrArg (fld · 21 5) he).trans ((ex_hi _ (8#11) rfl).trans ((ex_hi _ (b) rfl).trans ((ex_hi _ (a) rfl).trans ((ex_lo _ (d) rfl).trans (ex_all _)))))
  have f16_5 : fld v0 16 5 = a :=
    (congrArg (fld · 16 5) he).trans ((ex_hi _ (8#11) rfl).trans ((ex_hi _ (b) rfl).trans ((ex_lo _ (a) rfl).trans (ex_all _))))
  have f11_5 : fld v0 11 5 = b :=
    (congrArg (fld · 11 5) he).trans ((ex_hi _ (8#11) rfl).trans ((ex_lo _ (b) rfl).trans (ex_all _)))
  have f6_5 : fld v0 6 5 = 0#5 :=
    (congrArg (fld · 6 5) he).trans ((ex_lo _ (8#11) rfl).trans (rfl))
  have f0_6 : fld v0 0 6 = 8#6 :=
    (congrArg (fld · 0 6) he).trans ((ex_lo _ (8#11) rfl).trans (rfl))
  rw [family_Opr f26_6, decodeOpr]
  simp only [f21_5, f16_5, f11_5, f6_5, f0_6]
  exact rfl

theorem Encode.slt (d : BitVec 5) (a : BitVec 5) (b : BitVec 5) : Encode.Statement (.slt d a b) := by
  intro _
  apply decode_of
  have he : encode (.slt d a b) = 0x01#6 ++ d ++ a ++ b ++ 9#11 := rfl
  generalize encode (.slt d a b) = v0 at he
  have f26_6 : fld v0 26 6 = 1#6 :=
    (congrArg (fld · 26 6) he).trans ((ex_hi _ (9#11) rfl).trans ((ex_hi _ (b) rfl).trans ((ex_hi _ (a) rfl).trans ((ex_hi _ (d) rfl).trans (ex_all _)))))
  have f21_5 : fld v0 21 5 = d :=
    (congrArg (fld · 21 5) he).trans ((ex_hi _ (9#11) rfl).trans ((ex_hi _ (b) rfl).trans ((ex_hi _ (a) rfl).trans ((ex_lo _ (d) rfl).trans (ex_all _)))))
  have f16_5 : fld v0 16 5 = a :=
    (congrArg (fld · 16 5) he).trans ((ex_hi _ (9#11) rfl).trans ((ex_hi _ (b) rfl).trans ((ex_lo _ (a) rfl).trans (ex_all _))))
  have f11_5 : fld v0 11 5 = b :=
    (congrArg (fld · 11 5) he).trans ((ex_hi _ (9#11) rfl).trans ((ex_lo _ (b) rfl).trans (ex_all _)))
  have f6_5 : fld v0 6 5 = 0#5 :=
    (congrArg (fld · 6 5) he).trans ((ex_lo _ (9#11) rfl).trans (rfl))
  have f0_6 : fld v0 0 6 = 9#6 :=
    (congrArg (fld · 0 6) he).trans ((ex_lo _ (9#11) rfl).trans (rfl))
  rw [family_Opr f26_6, decodeOpr]
  simp only [f21_5, f16_5, f11_5, f6_5, f0_6]
  exact rfl

theorem Encode.sltu (d : BitVec 5) (a : BitVec 5) (b : BitVec 5) : Encode.Statement (.sltu d a b) := by
  intro _
  apply decode_of
  have he : encode (.sltu d a b) = 0x01#6 ++ d ++ a ++ b ++ 10#11 := rfl
  generalize encode (.sltu d a b) = v0 at he
  have f26_6 : fld v0 26 6 = 1#6 :=
    (congrArg (fld · 26 6) he).trans ((ex_hi _ (10#11) rfl).trans ((ex_hi _ (b) rfl).trans ((ex_hi _ (a) rfl).trans ((ex_hi _ (d) rfl).trans (ex_all _)))))
  have f21_5 : fld v0 21 5 = d :=
    (congrArg (fld · 21 5) he).trans ((ex_hi _ (10#11) rfl).trans ((ex_hi _ (b) rfl).trans ((ex_hi _ (a) rfl).trans ((ex_lo _ (d) rfl).trans (ex_all _)))))
  have f16_5 : fld v0 16 5 = a :=
    (congrArg (fld · 16 5) he).trans ((ex_hi _ (10#11) rfl).trans ((ex_hi _ (b) rfl).trans ((ex_lo _ (a) rfl).trans (ex_all _))))
  have f11_5 : fld v0 11 5 = b :=
    (congrArg (fld · 11 5) he).trans ((ex_hi _ (10#11) rfl).trans ((ex_lo _ (b) rfl).trans (ex_all _)))
  have f6_5 : fld v0 6 5 = 0#5 :=
    (congrArg (fld · 6 5) he).trans ((ex_lo _ (10#11) rfl).trans (rfl))
  have f0_6 : fld v0 0 6 = 10#6 :=
    (congrArg (fld · 0 6) he).trans ((ex_lo _ (10#11) rfl).trans (rfl))
  rw [family_Opr f26_6, decodeOpr]
  simp only [f21_5, f16_5, f11_5, f6_5, f0_6]
  exact rfl

theorem Encode.min (d : BitVec 5) (a : BitVec 5) (b : BitVec 5) : Encode.Statement (.min d a b) := by
  intro _
  apply decode_of
  have he : encode (.min d a b) = 0x01#6 ++ d ++ a ++ b ++ 11#11 := rfl
  generalize encode (.min d a b) = v0 at he
  have f26_6 : fld v0 26 6 = 1#6 :=
    (congrArg (fld · 26 6) he).trans ((ex_hi _ (11#11) rfl).trans ((ex_hi _ (b) rfl).trans ((ex_hi _ (a) rfl).trans ((ex_hi _ (d) rfl).trans (ex_all _)))))
  have f21_5 : fld v0 21 5 = d :=
    (congrArg (fld · 21 5) he).trans ((ex_hi _ (11#11) rfl).trans ((ex_hi _ (b) rfl).trans ((ex_hi _ (a) rfl).trans ((ex_lo _ (d) rfl).trans (ex_all _)))))
  have f16_5 : fld v0 16 5 = a :=
    (congrArg (fld · 16 5) he).trans ((ex_hi _ (11#11) rfl).trans ((ex_hi _ (b) rfl).trans ((ex_lo _ (a) rfl).trans (ex_all _))))
  have f11_5 : fld v0 11 5 = b :=
    (congrArg (fld · 11 5) he).trans ((ex_hi _ (11#11) rfl).trans ((ex_lo _ (b) rfl).trans (ex_all _)))
  have f6_5 : fld v0 6 5 = 0#5 :=
    (congrArg (fld · 6 5) he).trans ((ex_lo _ (11#11) rfl).trans (rfl))
  have f0_6 : fld v0 0 6 = 11#6 :=
    (congrArg (fld · 0 6) he).trans ((ex_lo _ (11#11) rfl).trans (rfl))
  rw [family_Opr f26_6, decodeOpr]
  simp only [f21_5, f16_5, f11_5, f6_5, f0_6]
  exact rfl

theorem Encode.max (d : BitVec 5) (a : BitVec 5) (b : BitVec 5) : Encode.Statement (.max d a b) := by
  intro _
  apply decode_of
  have he : encode (.max d a b) = 0x01#6 ++ d ++ a ++ b ++ 12#11 := rfl
  generalize encode (.max d a b) = v0 at he
  have f26_6 : fld v0 26 6 = 1#6 :=
    (congrArg (fld · 26 6) he).trans ((ex_hi _ (12#11) rfl).trans ((ex_hi _ (b) rfl).trans ((ex_hi _ (a) rfl).trans ((ex_hi _ (d) rfl).trans (ex_all _)))))
  have f21_5 : fld v0 21 5 = d :=
    (congrArg (fld · 21 5) he).trans ((ex_hi _ (12#11) rfl).trans ((ex_hi _ (b) rfl).trans ((ex_hi _ (a) rfl).trans ((ex_lo _ (d) rfl).trans (ex_all _)))))
  have f16_5 : fld v0 16 5 = a :=
    (congrArg (fld · 16 5) he).trans ((ex_hi _ (12#11) rfl).trans ((ex_hi _ (b) rfl).trans ((ex_lo _ (a) rfl).trans (ex_all _))))
  have f11_5 : fld v0 11 5 = b :=
    (congrArg (fld · 11 5) he).trans ((ex_hi _ (12#11) rfl).trans ((ex_lo _ (b) rfl).trans (ex_all _)))
  have f6_5 : fld v0 6 5 = 0#5 :=
    (congrArg (fld · 6 5) he).trans ((ex_lo _ (12#11) rfl).trans (rfl))
  have f0_6 : fld v0 0 6 = 12#6 :=
    (congrArg (fld · 0 6) he).trans ((ex_lo _ (12#11) rfl).trans (rfl))
  rw [family_Opr f26_6, decodeOpr]
  simp only [f21_5, f16_5, f11_5, f6_5, f0_6]
  exact rfl

theorem Encode.minu (d : BitVec 5) (a : BitVec 5) (b : BitVec 5) : Encode.Statement (.minu d a b) := by
  intro _
  apply decode_of
  have he : encode (.minu d a b) = 0x01#6 ++ d ++ a ++ b ++ 13#11 := rfl
  generalize encode (.minu d a b) = v0 at he
  have f26_6 : fld v0 26 6 = 1#6 :=
    (congrArg (fld · 26 6) he).trans ((ex_hi _ (13#11) rfl).trans ((ex_hi _ (b) rfl).trans ((ex_hi _ (a) rfl).trans ((ex_hi _ (d) rfl).trans (ex_all _)))))
  have f21_5 : fld v0 21 5 = d :=
    (congrArg (fld · 21 5) he).trans ((ex_hi _ (13#11) rfl).trans ((ex_hi _ (b) rfl).trans ((ex_hi _ (a) rfl).trans ((ex_lo _ (d) rfl).trans (ex_all _)))))
  have f16_5 : fld v0 16 5 = a :=
    (congrArg (fld · 16 5) he).trans ((ex_hi _ (13#11) rfl).trans ((ex_hi _ (b) rfl).trans ((ex_lo _ (a) rfl).trans (ex_all _))))
  have f11_5 : fld v0 11 5 = b :=
    (congrArg (fld · 11 5) he).trans ((ex_hi _ (13#11) rfl).trans ((ex_lo _ (b) rfl).trans (ex_all _)))
  have f6_5 : fld v0 6 5 = 0#5 :=
    (congrArg (fld · 6 5) he).trans ((ex_lo _ (13#11) rfl).trans (rfl))
  have f0_6 : fld v0 0 6 = 13#6 :=
    (congrArg (fld · 0 6) he).trans ((ex_lo _ (13#11) rfl).trans (rfl))
  rw [family_Opr f26_6, decodeOpr]
  simp only [f21_5, f16_5, f11_5, f6_5, f0_6]
  exact rfl

theorem Encode.maxu (d : BitVec 5) (a : BitVec 5) (b : BitVec 5) : Encode.Statement (.maxu d a b) := by
  intro _
  apply decode_of
  have he : encode (.maxu d a b) = 0x01#6 ++ d ++ a ++ b ++ 14#11 := rfl
  generalize encode (.maxu d a b) = v0 at he
  have f26_6 : fld v0 26 6 = 1#6 :=
    (congrArg (fld · 26 6) he).trans ((ex_hi _ (14#11) rfl).trans ((ex_hi _ (b) rfl).trans ((ex_hi _ (a) rfl).trans ((ex_hi _ (d) rfl).trans (ex_all _)))))
  have f21_5 : fld v0 21 5 = d :=
    (congrArg (fld · 21 5) he).trans ((ex_hi _ (14#11) rfl).trans ((ex_hi _ (b) rfl).trans ((ex_hi _ (a) rfl).trans ((ex_lo _ (d) rfl).trans (ex_all _)))))
  have f16_5 : fld v0 16 5 = a :=
    (congrArg (fld · 16 5) he).trans ((ex_hi _ (14#11) rfl).trans ((ex_hi _ (b) rfl).trans ((ex_lo _ (a) rfl).trans (ex_all _))))
  have f11_5 : fld v0 11 5 = b :=
    (congrArg (fld · 11 5) he).trans ((ex_hi _ (14#11) rfl).trans ((ex_lo _ (b) rfl).trans (ex_all _)))
  have f6_5 : fld v0 6 5 = 0#5 :=
    (congrArg (fld · 6 5) he).trans ((ex_lo _ (14#11) rfl).trans (rfl))
  have f0_6 : fld v0 0 6 = 14#6 :=
    (congrArg (fld · 0 6) he).trans ((ex_lo _ (14#11) rfl).trans (rfl))
  rw [family_Opr f26_6, decodeOpr]
  simp only [f21_5, f16_5, f11_5, f6_5, f0_6]
  exact rfl

theorem Encode.mul (d : BitVec 5) (a : BitVec 5) (b : BitVec 5) : Encode.Statement (.mul d a b) := by
  intro _
  apply decode_of
  have he : encode (.mul d a b) = 0x01#6 ++ d ++ a ++ b ++ 15#11 := rfl
  generalize encode (.mul d a b) = v0 at he
  have f26_6 : fld v0 26 6 = 1#6 :=
    (congrArg (fld · 26 6) he).trans ((ex_hi _ (15#11) rfl).trans ((ex_hi _ (b) rfl).trans ((ex_hi _ (a) rfl).trans ((ex_hi _ (d) rfl).trans (ex_all _)))))
  have f21_5 : fld v0 21 5 = d :=
    (congrArg (fld · 21 5) he).trans ((ex_hi _ (15#11) rfl).trans ((ex_hi _ (b) rfl).trans ((ex_hi _ (a) rfl).trans ((ex_lo _ (d) rfl).trans (ex_all _)))))
  have f16_5 : fld v0 16 5 = a :=
    (congrArg (fld · 16 5) he).trans ((ex_hi _ (15#11) rfl).trans ((ex_hi _ (b) rfl).trans ((ex_lo _ (a) rfl).trans (ex_all _))))
  have f11_5 : fld v0 11 5 = b :=
    (congrArg (fld · 11 5) he).trans ((ex_hi _ (15#11) rfl).trans ((ex_lo _ (b) rfl).trans (ex_all _)))
  have f6_5 : fld v0 6 5 = 0#5 :=
    (congrArg (fld · 6 5) he).trans ((ex_lo _ (15#11) rfl).trans (rfl))
  have f0_6 : fld v0 0 6 = 15#6 :=
    (congrArg (fld · 0 6) he).trans ((ex_lo _ (15#11) rfl).trans (rfl))
  rw [family_Opr f26_6, decodeOpr]
  simp only [f21_5, f16_5, f11_5, f6_5, f0_6]
  exact rfl

theorem Encode.mulh (d : BitVec 5) (a : BitVec 5) (b : BitVec 5) : Encode.Statement (.mulh d a b) := by
  intro _
  apply decode_of
  have he : encode (.mulh d a b) = 0x01#6 ++ d ++ a ++ b ++ 16#11 := rfl
  generalize encode (.mulh d a b) = v0 at he
  have f26_6 : fld v0 26 6 = 1#6 :=
    (congrArg (fld · 26 6) he).trans ((ex_hi _ (16#11) rfl).trans ((ex_hi _ (b) rfl).trans ((ex_hi _ (a) rfl).trans ((ex_hi _ (d) rfl).trans (ex_all _)))))
  have f21_5 : fld v0 21 5 = d :=
    (congrArg (fld · 21 5) he).trans ((ex_hi _ (16#11) rfl).trans ((ex_hi _ (b) rfl).trans ((ex_hi _ (a) rfl).trans ((ex_lo _ (d) rfl).trans (ex_all _)))))
  have f16_5 : fld v0 16 5 = a :=
    (congrArg (fld · 16 5) he).trans ((ex_hi _ (16#11) rfl).trans ((ex_hi _ (b) rfl).trans ((ex_lo _ (a) rfl).trans (ex_all _))))
  have f11_5 : fld v0 11 5 = b :=
    (congrArg (fld · 11 5) he).trans ((ex_hi _ (16#11) rfl).trans ((ex_lo _ (b) rfl).trans (ex_all _)))
  have f6_5 : fld v0 6 5 = 0#5 :=
    (congrArg (fld · 6 5) he).trans ((ex_lo _ (16#11) rfl).trans (rfl))
  have f0_6 : fld v0 0 6 = 16#6 :=
    (congrArg (fld · 0 6) he).trans ((ex_lo _ (16#11) rfl).trans (rfl))
  rw [family_Opr f26_6, decodeOpr]
  simp only [f21_5, f16_5, f11_5, f6_5, f0_6]
  exact rfl

theorem Encode.mulhu (d : BitVec 5) (a : BitVec 5) (b : BitVec 5) : Encode.Statement (.mulhu d a b) := by
  intro _
  apply decode_of
  have he : encode (.mulhu d a b) = 0x01#6 ++ d ++ a ++ b ++ 17#11 := rfl
  generalize encode (.mulhu d a b) = v0 at he
  have f26_6 : fld v0 26 6 = 1#6 :=
    (congrArg (fld · 26 6) he).trans ((ex_hi _ (17#11) rfl).trans ((ex_hi _ (b) rfl).trans ((ex_hi _ (a) rfl).trans ((ex_hi _ (d) rfl).trans (ex_all _)))))
  have f21_5 : fld v0 21 5 = d :=
    (congrArg (fld · 21 5) he).trans ((ex_hi _ (17#11) rfl).trans ((ex_hi _ (b) rfl).trans ((ex_hi _ (a) rfl).trans ((ex_lo _ (d) rfl).trans (ex_all _)))))
  have f16_5 : fld v0 16 5 = a :=
    (congrArg (fld · 16 5) he).trans ((ex_hi _ (17#11) rfl).trans ((ex_hi _ (b) rfl).trans ((ex_lo _ (a) rfl).trans (ex_all _))))
  have f11_5 : fld v0 11 5 = b :=
    (congrArg (fld · 11 5) he).trans ((ex_hi _ (17#11) rfl).trans ((ex_lo _ (b) rfl).trans (ex_all _)))
  have f6_5 : fld v0 6 5 = 0#5 :=
    (congrArg (fld · 6 5) he).trans ((ex_lo _ (17#11) rfl).trans (rfl))
  have f0_6 : fld v0 0 6 = 17#6 :=
    (congrArg (fld · 0 6) he).trans ((ex_lo _ (17#11) rfl).trans (rfl))
  rw [family_Opr f26_6, decodeOpr]
  simp only [f21_5, f16_5, f11_5, f6_5, f0_6]
  exact rfl

theorem Encode.div (d : BitVec 5) (a : BitVec 5) (b : BitVec 5) : Encode.Statement (.div d a b) := by
  intro _
  apply decode_of
  have he : encode (.div d a b) = 0x01#6 ++ d ++ a ++ b ++ 18#11 := rfl
  generalize encode (.div d a b) = v0 at he
  have f26_6 : fld v0 26 6 = 1#6 :=
    (congrArg (fld · 26 6) he).trans ((ex_hi _ (18#11) rfl).trans ((ex_hi _ (b) rfl).trans ((ex_hi _ (a) rfl).trans ((ex_hi _ (d) rfl).trans (ex_all _)))))
  have f21_5 : fld v0 21 5 = d :=
    (congrArg (fld · 21 5) he).trans ((ex_hi _ (18#11) rfl).trans ((ex_hi _ (b) rfl).trans ((ex_hi _ (a) rfl).trans ((ex_lo _ (d) rfl).trans (ex_all _)))))
  have f16_5 : fld v0 16 5 = a :=
    (congrArg (fld · 16 5) he).trans ((ex_hi _ (18#11) rfl).trans ((ex_hi _ (b) rfl).trans ((ex_lo _ (a) rfl).trans (ex_all _))))
  have f11_5 : fld v0 11 5 = b :=
    (congrArg (fld · 11 5) he).trans ((ex_hi _ (18#11) rfl).trans ((ex_lo _ (b) rfl).trans (ex_all _)))
  have f6_5 : fld v0 6 5 = 0#5 :=
    (congrArg (fld · 6 5) he).trans ((ex_lo _ (18#11) rfl).trans (rfl))
  have f0_6 : fld v0 0 6 = 18#6 :=
    (congrArg (fld · 0 6) he).trans ((ex_lo _ (18#11) rfl).trans (rfl))
  rw [family_Opr f26_6, decodeOpr]
  simp only [f21_5, f16_5, f11_5, f6_5, f0_6]
  exact rfl

theorem Encode.divu (d : BitVec 5) (a : BitVec 5) (b : BitVec 5) : Encode.Statement (.divu d a b) := by
  intro _
  apply decode_of
  have he : encode (.divu d a b) = 0x01#6 ++ d ++ a ++ b ++ 19#11 := rfl
  generalize encode (.divu d a b) = v0 at he
  have f26_6 : fld v0 26 6 = 1#6 :=
    (congrArg (fld · 26 6) he).trans ((ex_hi _ (19#11) rfl).trans ((ex_hi _ (b) rfl).trans ((ex_hi _ (a) rfl).trans ((ex_hi _ (d) rfl).trans (ex_all _)))))
  have f21_5 : fld v0 21 5 = d :=
    (congrArg (fld · 21 5) he).trans ((ex_hi _ (19#11) rfl).trans ((ex_hi _ (b) rfl).trans ((ex_hi _ (a) rfl).trans ((ex_lo _ (d) rfl).trans (ex_all _)))))
  have f16_5 : fld v0 16 5 = a :=
    (congrArg (fld · 16 5) he).trans ((ex_hi _ (19#11) rfl).trans ((ex_hi _ (b) rfl).trans ((ex_lo _ (a) rfl).trans (ex_all _))))
  have f11_5 : fld v0 11 5 = b :=
    (congrArg (fld · 11 5) he).trans ((ex_hi _ (19#11) rfl).trans ((ex_lo _ (b) rfl).trans (ex_all _)))
  have f6_5 : fld v0 6 5 = 0#5 :=
    (congrArg (fld · 6 5) he).trans ((ex_lo _ (19#11) rfl).trans (rfl))
  have f0_6 : fld v0 0 6 = 19#6 :=
    (congrArg (fld · 0 6) he).trans ((ex_lo _ (19#11) rfl).trans (rfl))
  rw [family_Opr f26_6, decodeOpr]
  simp only [f21_5, f16_5, f11_5, f6_5, f0_6]
  exact rfl

theorem Encode.rem (d : BitVec 5) (a : BitVec 5) (b : BitVec 5) : Encode.Statement (.rem d a b) := by
  intro _
  apply decode_of
  have he : encode (.rem d a b) = 0x01#6 ++ d ++ a ++ b ++ 20#11 := rfl
  generalize encode (.rem d a b) = v0 at he
  have f26_6 : fld v0 26 6 = 1#6 :=
    (congrArg (fld · 26 6) he).trans ((ex_hi _ (20#11) rfl).trans ((ex_hi _ (b) rfl).trans ((ex_hi _ (a) rfl).trans ((ex_hi _ (d) rfl).trans (ex_all _)))))
  have f21_5 : fld v0 21 5 = d :=
    (congrArg (fld · 21 5) he).trans ((ex_hi _ (20#11) rfl).trans ((ex_hi _ (b) rfl).trans ((ex_hi _ (a) rfl).trans ((ex_lo _ (d) rfl).trans (ex_all _)))))
  have f16_5 : fld v0 16 5 = a :=
    (congrArg (fld · 16 5) he).trans ((ex_hi _ (20#11) rfl).trans ((ex_hi _ (b) rfl).trans ((ex_lo _ (a) rfl).trans (ex_all _))))
  have f11_5 : fld v0 11 5 = b :=
    (congrArg (fld · 11 5) he).trans ((ex_hi _ (20#11) rfl).trans ((ex_lo _ (b) rfl).trans (ex_all _)))
  have f6_5 : fld v0 6 5 = 0#5 :=
    (congrArg (fld · 6 5) he).trans ((ex_lo _ (20#11) rfl).trans (rfl))
  have f0_6 : fld v0 0 6 = 20#6 :=
    (congrArg (fld · 0 6) he).trans ((ex_lo _ (20#11) rfl).trans (rfl))
  rw [family_Opr f26_6, decodeOpr]
  simp only [f21_5, f16_5, f11_5, f6_5, f0_6]
  exact rfl

theorem Encode.remu (d : BitVec 5) (a : BitVec 5) (b : BitVec 5) : Encode.Statement (.remu d a b) := by
  intro _
  apply decode_of
  have he : encode (.remu d a b) = 0x01#6 ++ d ++ a ++ b ++ 21#11 := rfl
  generalize encode (.remu d a b) = v0 at he
  have f26_6 : fld v0 26 6 = 1#6 :=
    (congrArg (fld · 26 6) he).trans ((ex_hi _ (21#11) rfl).trans ((ex_hi _ (b) rfl).trans ((ex_hi _ (a) rfl).trans ((ex_hi _ (d) rfl).trans (ex_all _)))))
  have f21_5 : fld v0 21 5 = d :=
    (congrArg (fld · 21 5) he).trans ((ex_hi _ (21#11) rfl).trans ((ex_hi _ (b) rfl).trans ((ex_hi _ (a) rfl).trans ((ex_lo _ (d) rfl).trans (ex_all _)))))
  have f16_5 : fld v0 16 5 = a :=
    (congrArg (fld · 16 5) he).trans ((ex_hi _ (21#11) rfl).trans ((ex_hi _ (b) rfl).trans ((ex_lo _ (a) rfl).trans (ex_all _))))
  have f11_5 : fld v0 11 5 = b :=
    (congrArg (fld · 11 5) he).trans ((ex_hi _ (21#11) rfl).trans ((ex_lo _ (b) rfl).trans (ex_all _)))
  have f6_5 : fld v0 6 5 = 0#5 :=
    (congrArg (fld · 6 5) he).trans ((ex_lo _ (21#11) rfl).trans (rfl))
  have f0_6 : fld v0 0 6 = 21#6 :=
    (congrArg (fld · 0 6) he).trans ((ex_lo _ (21#11) rfl).trans (rfl))
  rw [family_Opr f26_6, decodeOpr]
  simp only [f21_5, f16_5, f11_5, f6_5, f0_6]
  exact rfl

theorem Encode.clz (d : BitVec 5) (a : BitVec 5) : Encode.Statement (.clz d a) := by
  intro _
  apply decode_of
  have he : encode (.clz d a) = 0x01#6 ++ d ++ a ++ 0#5 ++ 22#11 := rfl
  generalize encode (.clz d a) = v0 at he
  have f26_6 : fld v0 26 6 = 1#6 :=
    (congrArg (fld · 26 6) he).trans ((ex_hi _ (22#11) rfl).trans ((ex_hi _ (0#5) rfl).trans ((ex_hi _ (a) rfl).trans ((ex_hi _ (d) rfl).trans (ex_all _)))))
  have f21_5 : fld v0 21 5 = d :=
    (congrArg (fld · 21 5) he).trans ((ex_hi _ (22#11) rfl).trans ((ex_hi _ (0#5) rfl).trans ((ex_hi _ (a) rfl).trans ((ex_lo _ (d) rfl).trans (ex_all _)))))
  have f16_5 : fld v0 16 5 = a :=
    (congrArg (fld · 16 5) he).trans ((ex_hi _ (22#11) rfl).trans ((ex_hi _ (0#5) rfl).trans ((ex_lo _ (a) rfl).trans (ex_all _))))
  have f11_5 : fld v0 11 5 = 0#5 :=
    (congrArg (fld · 11 5) he).trans ((ex_hi _ (22#11) rfl).trans ((ex_lo _ (0#5) rfl).trans (ex_all _)))
  have f6_5 : fld v0 6 5 = 0#5 :=
    (congrArg (fld · 6 5) he).trans ((ex_lo _ (22#11) rfl).trans (rfl))
  have f0_6 : fld v0 0 6 = 22#6 :=
    (congrArg (fld · 0 6) he).trans ((ex_lo _ (22#11) rfl).trans (rfl))
  rw [family_Opr f26_6, decodeOpr]
  simp only [f21_5, f16_5, f11_5, f6_5, f0_6]
  exact rfl

theorem Encode.ctz (d : BitVec 5) (a : BitVec 5) : Encode.Statement (.ctz d a) := by
  intro _
  apply decode_of
  have he : encode (.ctz d a) = 0x01#6 ++ d ++ a ++ 0#5 ++ 23#11 := rfl
  generalize encode (.ctz d a) = v0 at he
  have f26_6 : fld v0 26 6 = 1#6 :=
    (congrArg (fld · 26 6) he).trans ((ex_hi _ (23#11) rfl).trans ((ex_hi _ (0#5) rfl).trans ((ex_hi _ (a) rfl).trans ((ex_hi _ (d) rfl).trans (ex_all _)))))
  have f21_5 : fld v0 21 5 = d :=
    (congrArg (fld · 21 5) he).trans ((ex_hi _ (23#11) rfl).trans ((ex_hi _ (0#5) rfl).trans ((ex_hi _ (a) rfl).trans ((ex_lo _ (d) rfl).trans (ex_all _)))))
  have f16_5 : fld v0 16 5 = a :=
    (congrArg (fld · 16 5) he).trans ((ex_hi _ (23#11) rfl).trans ((ex_hi _ (0#5) rfl).trans ((ex_lo _ (a) rfl).trans (ex_all _))))
  have f11_5 : fld v0 11 5 = 0#5 :=
    (congrArg (fld · 11 5) he).trans ((ex_hi _ (23#11) rfl).trans ((ex_lo _ (0#5) rfl).trans (ex_all _)))
  have f6_5 : fld v0 6 5 = 0#5 :=
    (congrArg (fld · 6 5) he).trans ((ex_lo _ (23#11) rfl).trans (rfl))
  have f0_6 : fld v0 0 6 = 23#6 :=
    (congrArg (fld · 0 6) he).trans ((ex_lo _ (23#11) rfl).trans (rfl))
  rw [family_Opr f26_6, decodeOpr]
  simp only [f21_5, f16_5, f11_5, f6_5, f0_6]
  exact rfl

theorem Encode.popc (d : BitVec 5) (a : BitVec 5) : Encode.Statement (.popc d a) := by
  intro _
  apply decode_of
  have he : encode (.popc d a) = 0x01#6 ++ d ++ a ++ 0#5 ++ 24#11 := rfl
  generalize encode (.popc d a) = v0 at he
  have f26_6 : fld v0 26 6 = 1#6 :=
    (congrArg (fld · 26 6) he).trans ((ex_hi _ (24#11) rfl).trans ((ex_hi _ (0#5) rfl).trans ((ex_hi _ (a) rfl).trans ((ex_hi _ (d) rfl).trans (ex_all _)))))
  have f21_5 : fld v0 21 5 = d :=
    (congrArg (fld · 21 5) he).trans ((ex_hi _ (24#11) rfl).trans ((ex_hi _ (0#5) rfl).trans ((ex_hi _ (a) rfl).trans ((ex_lo _ (d) rfl).trans (ex_all _)))))
  have f16_5 : fld v0 16 5 = a :=
    (congrArg (fld · 16 5) he).trans ((ex_hi _ (24#11) rfl).trans ((ex_hi _ (0#5) rfl).trans ((ex_lo _ (a) rfl).trans (ex_all _))))
  have f11_5 : fld v0 11 5 = 0#5 :=
    (congrArg (fld · 11 5) he).trans ((ex_hi _ (24#11) rfl).trans ((ex_lo _ (0#5) rfl).trans (ex_all _)))
  have f6_5 : fld v0 6 5 = 0#5 :=
    (congrArg (fld · 6 5) he).trans ((ex_lo _ (24#11) rfl).trans (rfl))
  have f0_6 : fld v0 0 6 = 24#6 :=
    (congrArg (fld · 0 6) he).trans ((ex_lo _ (24#11) rfl).trans (rfl))
  rw [family_Opr f26_6, decodeOpr]
  simp only [f21_5, f16_5, f11_5, f6_5, f0_6]
  exact rfl

theorem Encode.csel (d : BitVec 5) (a : BitVec 5) (b : BitVec 5) : Encode.Statement (.csel d a b) := by
  intro _
  apply decode_of
  have he : encode (.csel d a b) = 0x01#6 ++ d ++ a ++ b ++ 25#11 := rfl
  generalize encode (.csel d a b) = v0 at he
  have f26_6 : fld v0 26 6 = 1#6 :=
    (congrArg (fld · 26 6) he).trans ((ex_hi _ (25#11) rfl).trans ((ex_hi _ (b) rfl).trans ((ex_hi _ (a) rfl).trans ((ex_hi _ (d) rfl).trans (ex_all _)))))
  have f21_5 : fld v0 21 5 = d :=
    (congrArg (fld · 21 5) he).trans ((ex_hi _ (25#11) rfl).trans ((ex_hi _ (b) rfl).trans ((ex_hi _ (a) rfl).trans ((ex_lo _ (d) rfl).trans (ex_all _)))))
  have f16_5 : fld v0 16 5 = a :=
    (congrArg (fld · 16 5) he).trans ((ex_hi _ (25#11) rfl).trans ((ex_hi _ (b) rfl).trans ((ex_lo _ (a) rfl).trans (ex_all _))))
  have f11_5 : fld v0 11 5 = b :=
    (congrArg (fld · 11 5) he).trans ((ex_hi _ (25#11) rfl).trans ((ex_lo _ (b) rfl).trans (ex_all _)))
  have f6_5 : fld v0 6 5 = 0#5 :=
    (congrArg (fld · 6 5) he).trans ((ex_lo _ (25#11) rfl).trans (rfl))
  have f0_6 : fld v0 0 6 = 25#6 :=
    (congrArg (fld · 0 6) he).trans ((ex_lo _ (25#11) rfl).trans (rfl))
  rw [family_Opr f26_6, decodeOpr]
  simp only [f21_5, f16_5, f11_5, f6_5, f0_6]
  exact rfl

theorem Encode.addw (d : BitVec 5) (a : BitVec 5) (b : BitVec 5) : Encode.Statement (.addw d a b) := by
  intro _
  apply decode_of
  have he : encode (.addw d a b) = 0x01#6 ++ d ++ a ++ b ++ 26#11 := rfl
  generalize encode (.addw d a b) = v0 at he
  have f26_6 : fld v0 26 6 = 1#6 :=
    (congrArg (fld · 26 6) he).trans ((ex_hi _ (26#11) rfl).trans ((ex_hi _ (b) rfl).trans ((ex_hi _ (a) rfl).trans ((ex_hi _ (d) rfl).trans (ex_all _)))))
  have f21_5 : fld v0 21 5 = d :=
    (congrArg (fld · 21 5) he).trans ((ex_hi _ (26#11) rfl).trans ((ex_hi _ (b) rfl).trans ((ex_hi _ (a) rfl).trans ((ex_lo _ (d) rfl).trans (ex_all _)))))
  have f16_5 : fld v0 16 5 = a :=
    (congrArg (fld · 16 5) he).trans ((ex_hi _ (26#11) rfl).trans ((ex_hi _ (b) rfl).trans ((ex_lo _ (a) rfl).trans (ex_all _))))
  have f11_5 : fld v0 11 5 = b :=
    (congrArg (fld · 11 5) he).trans ((ex_hi _ (26#11) rfl).trans ((ex_lo _ (b) rfl).trans (ex_all _)))
  have f6_5 : fld v0 6 5 = 0#5 :=
    (congrArg (fld · 6 5) he).trans ((ex_lo _ (26#11) rfl).trans (rfl))
  have f0_6 : fld v0 0 6 = 26#6 :=
    (congrArg (fld · 0 6) he).trans ((ex_lo _ (26#11) rfl).trans (rfl))
  rw [family_Opr f26_6, decodeOpr]
  simp only [f21_5, f16_5, f11_5, f6_5, f0_6]
  exact rfl

theorem Encode.subw (d : BitVec 5) (a : BitVec 5) (b : BitVec 5) : Encode.Statement (.subw d a b) := by
  intro _
  apply decode_of
  have he : encode (.subw d a b) = 0x01#6 ++ d ++ a ++ b ++ 27#11 := rfl
  generalize encode (.subw d a b) = v0 at he
  have f26_6 : fld v0 26 6 = 1#6 :=
    (congrArg (fld · 26 6) he).trans ((ex_hi _ (27#11) rfl).trans ((ex_hi _ (b) rfl).trans ((ex_hi _ (a) rfl).trans ((ex_hi _ (d) rfl).trans (ex_all _)))))
  have f21_5 : fld v0 21 5 = d :=
    (congrArg (fld · 21 5) he).trans ((ex_hi _ (27#11) rfl).trans ((ex_hi _ (b) rfl).trans ((ex_hi _ (a) rfl).trans ((ex_lo _ (d) rfl).trans (ex_all _)))))
  have f16_5 : fld v0 16 5 = a :=
    (congrArg (fld · 16 5) he).trans ((ex_hi _ (27#11) rfl).trans ((ex_hi _ (b) rfl).trans ((ex_lo _ (a) rfl).trans (ex_all _))))
  have f11_5 : fld v0 11 5 = b :=
    (congrArg (fld · 11 5) he).trans ((ex_hi _ (27#11) rfl).trans ((ex_lo _ (b) rfl).trans (ex_all _)))
  have f6_5 : fld v0 6 5 = 0#5 :=
    (congrArg (fld · 6 5) he).trans ((ex_lo _ (27#11) rfl).trans (rfl))
  have f0_6 : fld v0 0 6 = 27#6 :=
    (congrArg (fld · 0 6) he).trans ((ex_lo _ (27#11) rfl).trans (rfl))
  rw [family_Opr f26_6, decodeOpr]
  simp only [f21_5, f16_5, f11_5, f6_5, f0_6]
  exact rfl

theorem Encode.mulw (d : BitVec 5) (a : BitVec 5) (b : BitVec 5) : Encode.Statement (.mulw d a b) := by
  intro _
  apply decode_of
  have he : encode (.mulw d a b) = 0x01#6 ++ d ++ a ++ b ++ 28#11 := rfl
  generalize encode (.mulw d a b) = v0 at he
  have f26_6 : fld v0 26 6 = 1#6 :=
    (congrArg (fld · 26 6) he).trans ((ex_hi _ (28#11) rfl).trans ((ex_hi _ (b) rfl).trans ((ex_hi _ (a) rfl).trans ((ex_hi _ (d) rfl).trans (ex_all _)))))
  have f21_5 : fld v0 21 5 = d :=
    (congrArg (fld · 21 5) he).trans ((ex_hi _ (28#11) rfl).trans ((ex_hi _ (b) rfl).trans ((ex_hi _ (a) rfl).trans ((ex_lo _ (d) rfl).trans (ex_all _)))))
  have f16_5 : fld v0 16 5 = a :=
    (congrArg (fld · 16 5) he).trans ((ex_hi _ (28#11) rfl).trans ((ex_hi _ (b) rfl).trans ((ex_lo _ (a) rfl).trans (ex_all _))))
  have f11_5 : fld v0 11 5 = b :=
    (congrArg (fld · 11 5) he).trans ((ex_hi _ (28#11) rfl).trans ((ex_lo _ (b) rfl).trans (ex_all _)))
  have f6_5 : fld v0 6 5 = 0#5 :=
    (congrArg (fld · 6 5) he).trans ((ex_lo _ (28#11) rfl).trans (rfl))
  have f0_6 : fld v0 0 6 = 28#6 :=
    (congrArg (fld · 0 6) he).trans ((ex_lo _ (28#11) rfl).trans (rfl))
  rw [family_Opr f26_6, decodeOpr]
  simp only [f21_5, f16_5, f11_5, f6_5, f0_6]
  exact rfl

theorem Encode.addi (d : BitVec 5) (a : BitVec 5) (i : BitVec 16) : Encode.Statement (.addi d a i) := by
  intro _
  apply decode_of
  have he : encode (.addi d a i) = 0x02#6 ++ d ++ a ++ i := rfl
  generalize encode (.addi d a i) = v0 at he
  have f26_6 : fld v0 26 6 = 2#6 :=
    (congrArg (fld · 26 6) he).trans ((ex_hi _ (i) rfl).trans ((ex_hi _ (a) rfl).trans ((ex_hi _ (d) rfl).trans (ex_all _))))
  have f21_5 : fld v0 21 5 = d :=
    (congrArg (fld · 21 5) he).trans ((ex_hi _ (i) rfl).trans ((ex_hi _ (a) rfl).trans ((ex_lo _ (d) rfl).trans (ex_all _))))
  have f16_5 : fld v0 16 5 = a :=
    (congrArg (fld · 16 5) he).trans ((ex_hi _ (i) rfl).trans ((ex_lo _ (a) rfl).trans (ex_all _)))
  have f0_16 : fld v0 0 16 = i :=
    (congrArg (fld · 0 16) he).trans ((ex_lo _ (i) rfl).trans (ex_all _))
  rw [family_Addi f26_6, decodeAddi]
  simp only [f21_5, f16_5, f0_16]

theorem Encode.andi (d : BitVec 5) (a : BitVec 5) (i : BitVec 16) : Encode.Statement (.andi d a i) := by
  intro _
  apply decode_of
  have he : encode (.andi d a i) = 0x03#6 ++ d ++ a ++ i := rfl
  generalize encode (.andi d a i) = v0 at he
  have f26_6 : fld v0 26 6 = 3#6 :=
    (congrArg (fld · 26 6) he).trans ((ex_hi _ (i) rfl).trans ((ex_hi _ (a) rfl).trans ((ex_hi _ (d) rfl).trans (ex_all _))))
  have f21_5 : fld v0 21 5 = d :=
    (congrArg (fld · 21 5) he).trans ((ex_hi _ (i) rfl).trans ((ex_hi _ (a) rfl).trans ((ex_lo _ (d) rfl).trans (ex_all _))))
  have f16_5 : fld v0 16 5 = a :=
    (congrArg (fld · 16 5) he).trans ((ex_hi _ (i) rfl).trans ((ex_lo _ (a) rfl).trans (ex_all _)))
  have f0_16 : fld v0 0 16 = i :=
    (congrArg (fld · 0 16) he).trans ((ex_lo _ (i) rfl).trans (ex_all _))
  rw [family_Andi f26_6, decodeAndi]
  simp only [f21_5, f16_5, f0_16]

theorem Encode.ori (d : BitVec 5) (a : BitVec 5) (i : BitVec 16) : Encode.Statement (.ori d a i) := by
  intro _
  apply decode_of
  have he : encode (.ori d a i) = 0x04#6 ++ d ++ a ++ i := rfl
  generalize encode (.ori d a i) = v0 at he
  have f26_6 : fld v0 26 6 = 4#6 :=
    (congrArg (fld · 26 6) he).trans ((ex_hi _ (i) rfl).trans ((ex_hi _ (a) rfl).trans ((ex_hi _ (d) rfl).trans (ex_all _))))
  have f21_5 : fld v0 21 5 = d :=
    (congrArg (fld · 21 5) he).trans ((ex_hi _ (i) rfl).trans ((ex_hi _ (a) rfl).trans ((ex_lo _ (d) rfl).trans (ex_all _))))
  have f16_5 : fld v0 16 5 = a :=
    (congrArg (fld · 16 5) he).trans ((ex_hi _ (i) rfl).trans ((ex_lo _ (a) rfl).trans (ex_all _)))
  have f0_16 : fld v0 0 16 = i :=
    (congrArg (fld · 0 16) he).trans ((ex_lo _ (i) rfl).trans (ex_all _))
  rw [family_Ori f26_6, decodeOri]
  simp only [f21_5, f16_5, f0_16]

theorem Encode.xori (d : BitVec 5) (a : BitVec 5) (i : BitVec 16) : Encode.Statement (.xori d a i) := by
  intro _
  apply decode_of
  have he : encode (.xori d a i) = 0x05#6 ++ d ++ a ++ i := rfl
  generalize encode (.xori d a i) = v0 at he
  have f26_6 : fld v0 26 6 = 5#6 :=
    (congrArg (fld · 26 6) he).trans ((ex_hi _ (i) rfl).trans ((ex_hi _ (a) rfl).trans ((ex_hi _ (d) rfl).trans (ex_all _))))
  have f21_5 : fld v0 21 5 = d :=
    (congrArg (fld · 21 5) he).trans ((ex_hi _ (i) rfl).trans ((ex_hi _ (a) rfl).trans ((ex_lo _ (d) rfl).trans (ex_all _))))
  have f16_5 : fld v0 16 5 = a :=
    (congrArg (fld · 16 5) he).trans ((ex_hi _ (i) rfl).trans ((ex_lo _ (a) rfl).trans (ex_all _)))
  have f0_16 : fld v0 0 16 = i :=
    (congrArg (fld · 0 16) he).trans ((ex_lo _ (i) rfl).trans (ex_all _))
  rw [family_Xori f26_6, decodeXori]
  simp only [f21_5, f16_5, f0_16]

theorem Encode.slti (d : BitVec 5) (a : BitVec 5) (i : BitVec 16) : Encode.Statement (.slti d a i) := by
  intro _
  apply decode_of
  have he : encode (.slti d a i) = 0x06#6 ++ d ++ a ++ i := rfl
  generalize encode (.slti d a i) = v0 at he
  have f26_6 : fld v0 26 6 = 6#6 :=
    (congrArg (fld · 26 6) he).trans ((ex_hi _ (i) rfl).trans ((ex_hi _ (a) rfl).trans ((ex_hi _ (d) rfl).trans (ex_all _))))
  have f21_5 : fld v0 21 5 = d :=
    (congrArg (fld · 21 5) he).trans ((ex_hi _ (i) rfl).trans ((ex_hi _ (a) rfl).trans ((ex_lo _ (d) rfl).trans (ex_all _))))
  have f16_5 : fld v0 16 5 = a :=
    (congrArg (fld · 16 5) he).trans ((ex_hi _ (i) rfl).trans ((ex_lo _ (a) rfl).trans (ex_all _)))
  have f0_16 : fld v0 0 16 = i :=
    (congrArg (fld · 0 16) he).trans ((ex_lo _ (i) rfl).trans (ex_all _))
  rw [family_Slti f26_6, decodeSlti]
  simp only [f21_5, f16_5, f0_16]

theorem Encode.sltiu (d : BitVec 5) (a : BitVec 5) (i : BitVec 16) : Encode.Statement (.sltiu d a i) := by
  intro _
  apply decode_of
  have he : encode (.sltiu d a i) = 0x07#6 ++ d ++ a ++ i := rfl
  generalize encode (.sltiu d a i) = v0 at he
  have f26_6 : fld v0 26 6 = 7#6 :=
    (congrArg (fld · 26 6) he).trans ((ex_hi _ (i) rfl).trans ((ex_hi _ (a) rfl).trans ((ex_hi _ (d) rfl).trans (ex_all _))))
  have f21_5 : fld v0 21 5 = d :=
    (congrArg (fld · 21 5) he).trans ((ex_hi _ (i) rfl).trans ((ex_hi _ (a) rfl).trans ((ex_lo _ (d) rfl).trans (ex_all _))))
  have f16_5 : fld v0 16 5 = a :=
    (congrArg (fld · 16 5) he).trans ((ex_hi _ (i) rfl).trans ((ex_lo _ (a) rfl).trans (ex_all _)))
  have f0_16 : fld v0 0 16 = i :=
    (congrArg (fld · 0 16) he).trans ((ex_lo _ (i) rfl).trans (ex_all _))
  rw [family_Sltiu f26_6, decodeSltiu]
  simp only [f21_5, f16_5, f0_16]

theorem Encode.lih (d : BitVec 5) (p : BitVec 2) (i : BitVec 16) : Encode.Statement (.lih d p i) := by
  intro _
  apply decode_of
  have he : encode (.lih d p i) = 0x08#6 ++ d ++ 0#3 ++ p ++ i := rfl
  generalize encode (.lih d p i) = v0 at he
  have f26_6 : fld v0 26 6 = 8#6 :=
    (congrArg (fld · 26 6) he).trans ((ex_hi _ (i) rfl).trans ((ex_hi _ (p) rfl).trans ((ex_hi _ (0#3) rfl).trans ((ex_hi _ (d) rfl).trans (ex_all _)))))
  have f21_5 : fld v0 21 5 = d :=
    (congrArg (fld · 21 5) he).trans ((ex_hi _ (i) rfl).trans ((ex_hi _ (p) rfl).trans ((ex_hi _ (0#3) rfl).trans ((ex_lo _ (d) rfl).trans (ex_all _)))))
  have f18_3 : fld v0 18 3 = 0#3 :=
    (congrArg (fld · 18 3) he).trans ((ex_hi _ (i) rfl).trans ((ex_hi _ (p) rfl).trans ((ex_lo _ (0#3) rfl).trans (ex_all _))))
  have f16_2 : fld v0 16 2 = p :=
    (congrArg (fld · 16 2) he).trans ((ex_hi _ (i) rfl).trans ((ex_lo _ (p) rfl).trans (ex_all _)))
  have f0_16 : fld v0 0 16 = i :=
    (congrArg (fld · 0 16) he).trans ((ex_lo _ (i) rfl).trans (ex_all _))
  rw [family_Lih f26_6, decodeLih]
  simp only [f21_5, f18_3, f16_2, f0_16]
  exact rfl

theorem Encode.slli (d : BitVec 5) (a : BitVec 5) (n : BitVec 6) : Encode.Statement (.slli d a n) := by
  intro _
  apply decode_of
  have he : encode (.slli d a n) = 0x09#6 ++ d ++ a ++ 0#10 ++ n := rfl
  generalize encode (.slli d a n) = v0 at he
  have f26_6 : fld v0 26 6 = 9#6 :=
    (congrArg (fld · 26 6) he).trans ((ex_hi _ (n) rfl).trans ((ex_hi _ (0#10) rfl).trans ((ex_hi _ (a) rfl).trans ((ex_hi _ (d) rfl).trans (ex_all _)))))
  have f21_5 : fld v0 21 5 = d :=
    (congrArg (fld · 21 5) he).trans ((ex_hi _ (n) rfl).trans ((ex_hi _ (0#10) rfl).trans ((ex_hi _ (a) rfl).trans ((ex_lo _ (d) rfl).trans (ex_all _)))))
  have f16_5 : fld v0 16 5 = a :=
    (congrArg (fld · 16 5) he).trans ((ex_hi _ (n) rfl).trans ((ex_hi _ (0#10) rfl).trans ((ex_lo _ (a) rfl).trans (ex_all _))))
  have f8_8 : fld v0 8 8 = 0#8 :=
    (congrArg (fld · 8 8) he).trans ((ex_hi _ (n) rfl).trans ((ex_lo _ (0#10) rfl).trans (rfl)))
  have f6_2 : fld v0 6 2 = 0#2 :=
    (congrArg (fld · 6 2) he).trans ((ex_hi _ (n) rfl).trans ((ex_lo _ (0#10) rfl).trans (rfl)))
  have f0_6 : fld v0 0 6 = n :=
    (congrArg (fld · 0 6) he).trans ((ex_lo _ (n) rfl).trans (ex_all _))
  rw [family_Shi f26_6, decodeShi]
  simp only [f21_5, f16_5, f8_8, f6_2, f0_6]
  exact rfl

theorem Encode.srli (d : BitVec 5) (a : BitVec 5) (n : BitVec 6) : Encode.Statement (.srli d a n) := by
  intro _
  apply decode_of
  have he : encode (.srli d a n) = 0x09#6 ++ d ++ a ++ 1#10 ++ n := rfl
  generalize encode (.srli d a n) = v0 at he
  have f26_6 : fld v0 26 6 = 9#6 :=
    (congrArg (fld · 26 6) he).trans ((ex_hi _ (n) rfl).trans ((ex_hi _ (1#10) rfl).trans ((ex_hi _ (a) rfl).trans ((ex_hi _ (d) rfl).trans (ex_all _)))))
  have f21_5 : fld v0 21 5 = d :=
    (congrArg (fld · 21 5) he).trans ((ex_hi _ (n) rfl).trans ((ex_hi _ (1#10) rfl).trans ((ex_hi _ (a) rfl).trans ((ex_lo _ (d) rfl).trans (ex_all _)))))
  have f16_5 : fld v0 16 5 = a :=
    (congrArg (fld · 16 5) he).trans ((ex_hi _ (n) rfl).trans ((ex_hi _ (1#10) rfl).trans ((ex_lo _ (a) rfl).trans (ex_all _))))
  have f8_8 : fld v0 8 8 = 0#8 :=
    (congrArg (fld · 8 8) he).trans ((ex_hi _ (n) rfl).trans ((ex_lo _ (1#10) rfl).trans (rfl)))
  have f6_2 : fld v0 6 2 = 1#2 :=
    (congrArg (fld · 6 2) he).trans ((ex_hi _ (n) rfl).trans ((ex_lo _ (1#10) rfl).trans (rfl)))
  have f0_6 : fld v0 0 6 = n :=
    (congrArg (fld · 0 6) he).trans ((ex_lo _ (n) rfl).trans (ex_all _))
  rw [family_Shi f26_6, decodeShi]
  simp only [f21_5, f16_5, f8_8, f6_2, f0_6]
  exact rfl

theorem Encode.srai (d : BitVec 5) (a : BitVec 5) (n : BitVec 6) : Encode.Statement (.srai d a n) := by
  intro _
  apply decode_of
  have he : encode (.srai d a n) = 0x09#6 ++ d ++ a ++ 2#10 ++ n := rfl
  generalize encode (.srai d a n) = v0 at he
  have f26_6 : fld v0 26 6 = 9#6 :=
    (congrArg (fld · 26 6) he).trans ((ex_hi _ (n) rfl).trans ((ex_hi _ (2#10) rfl).trans ((ex_hi _ (a) rfl).trans ((ex_hi _ (d) rfl).trans (ex_all _)))))
  have f21_5 : fld v0 21 5 = d :=
    (congrArg (fld · 21 5) he).trans ((ex_hi _ (n) rfl).trans ((ex_hi _ (2#10) rfl).trans ((ex_hi _ (a) rfl).trans ((ex_lo _ (d) rfl).trans (ex_all _)))))
  have f16_5 : fld v0 16 5 = a :=
    (congrArg (fld · 16 5) he).trans ((ex_hi _ (n) rfl).trans ((ex_hi _ (2#10) rfl).trans ((ex_lo _ (a) rfl).trans (ex_all _))))
  have f8_8 : fld v0 8 8 = 0#8 :=
    (congrArg (fld · 8 8) he).trans ((ex_hi _ (n) rfl).trans ((ex_lo _ (2#10) rfl).trans (rfl)))
  have f6_2 : fld v0 6 2 = 2#2 :=
    (congrArg (fld · 6 2) he).trans ((ex_hi _ (n) rfl).trans ((ex_lo _ (2#10) rfl).trans (rfl)))
  have f0_6 : fld v0 0 6 = n :=
    (congrArg (fld · 0 6) he).trans ((ex_lo _ (n) rfl).trans (ex_all _))
  rw [family_Shi f26_6, decodeShi]
  simp only [f21_5, f16_5, f8_8, f6_2, f0_6]
  exact rfl

theorem Encode.fadd (d : BitVec 5) (a : BitVec 5) (b : BitVec 5) : Encode.Statement (.fadd d a b) := by
  intro _
  apply decode_of
  have he : encode (.fadd d a b) = 0x0A#6 ++ d ++ a ++ b ++ 0#11 := rfl
  generalize encode (.fadd d a b) = v0 at he
  have f26_6 : fld v0 26 6 = 10#6 :=
    (congrArg (fld · 26 6) he).trans ((ex_hi _ (0#11) rfl).trans ((ex_hi _ (b) rfl).trans ((ex_hi _ (a) rfl).trans ((ex_hi _ (d) rfl).trans (ex_all _)))))
  have f21_5 : fld v0 21 5 = d :=
    (congrArg (fld · 21 5) he).trans ((ex_hi _ (0#11) rfl).trans ((ex_hi _ (b) rfl).trans ((ex_hi _ (a) rfl).trans ((ex_lo _ (d) rfl).trans (ex_all _)))))
  have f16_5 : fld v0 16 5 = a :=
    (congrArg (fld · 16 5) he).trans ((ex_hi _ (0#11) rfl).trans ((ex_hi _ (b) rfl).trans ((ex_lo _ (a) rfl).trans (ex_all _))))
  have f11_5 : fld v0 11 5 = b :=
    (congrArg (fld · 11 5) he).trans ((ex_hi _ (0#11) rfl).trans ((ex_lo _ (b) rfl).trans (ex_all _)))
  have f6_5 : fld v0 6 5 = 0#5 :=
    (congrArg (fld · 6 5) he).trans ((ex_lo _ (0#11) rfl).trans (rfl))
  have f0_6 : fld v0 0 6 = 0#6 :=
    (congrArg (fld · 0 6) he).trans ((ex_lo _ (0#11) rfl).trans (rfl))
  rw [family_Fop f26_6, decodeFop]
  simp only [f21_5, f16_5, f11_5, f6_5, f0_6]
  exact rfl

theorem Encode.fsub (d : BitVec 5) (a : BitVec 5) (b : BitVec 5) : Encode.Statement (.fsub d a b) := by
  intro _
  apply decode_of
  have he : encode (.fsub d a b) = 0x0A#6 ++ d ++ a ++ b ++ 1#11 := rfl
  generalize encode (.fsub d a b) = v0 at he
  have f26_6 : fld v0 26 6 = 10#6 :=
    (congrArg (fld · 26 6) he).trans ((ex_hi _ (1#11) rfl).trans ((ex_hi _ (b) rfl).trans ((ex_hi _ (a) rfl).trans ((ex_hi _ (d) rfl).trans (ex_all _)))))
  have f21_5 : fld v0 21 5 = d :=
    (congrArg (fld · 21 5) he).trans ((ex_hi _ (1#11) rfl).trans ((ex_hi _ (b) rfl).trans ((ex_hi _ (a) rfl).trans ((ex_lo _ (d) rfl).trans (ex_all _)))))
  have f16_5 : fld v0 16 5 = a :=
    (congrArg (fld · 16 5) he).trans ((ex_hi _ (1#11) rfl).trans ((ex_hi _ (b) rfl).trans ((ex_lo _ (a) rfl).trans (ex_all _))))
  have f11_5 : fld v0 11 5 = b :=
    (congrArg (fld · 11 5) he).trans ((ex_hi _ (1#11) rfl).trans ((ex_lo _ (b) rfl).trans (ex_all _)))
  have f6_5 : fld v0 6 5 = 0#5 :=
    (congrArg (fld · 6 5) he).trans ((ex_lo _ (1#11) rfl).trans (rfl))
  have f0_6 : fld v0 0 6 = 1#6 :=
    (congrArg (fld · 0 6) he).trans ((ex_lo _ (1#11) rfl).trans (rfl))
  rw [family_Fop f26_6, decodeFop]
  simp only [f21_5, f16_5, f11_5, f6_5, f0_6]
  exact rfl

theorem Encode.fmul (d : BitVec 5) (a : BitVec 5) (b : BitVec 5) : Encode.Statement (.fmul d a b) := by
  intro _
  apply decode_of
  have he : encode (.fmul d a b) = 0x0A#6 ++ d ++ a ++ b ++ 2#11 := rfl
  generalize encode (.fmul d a b) = v0 at he
  have f26_6 : fld v0 26 6 = 10#6 :=
    (congrArg (fld · 26 6) he).trans ((ex_hi _ (2#11) rfl).trans ((ex_hi _ (b) rfl).trans ((ex_hi _ (a) rfl).trans ((ex_hi _ (d) rfl).trans (ex_all _)))))
  have f21_5 : fld v0 21 5 = d :=
    (congrArg (fld · 21 5) he).trans ((ex_hi _ (2#11) rfl).trans ((ex_hi _ (b) rfl).trans ((ex_hi _ (a) rfl).trans ((ex_lo _ (d) rfl).trans (ex_all _)))))
  have f16_5 : fld v0 16 5 = a :=
    (congrArg (fld · 16 5) he).trans ((ex_hi _ (2#11) rfl).trans ((ex_hi _ (b) rfl).trans ((ex_lo _ (a) rfl).trans (ex_all _))))
  have f11_5 : fld v0 11 5 = b :=
    (congrArg (fld · 11 5) he).trans ((ex_hi _ (2#11) rfl).trans ((ex_lo _ (b) rfl).trans (ex_all _)))
  have f6_5 : fld v0 6 5 = 0#5 :=
    (congrArg (fld · 6 5) he).trans ((ex_lo _ (2#11) rfl).trans (rfl))
  have f0_6 : fld v0 0 6 = 2#6 :=
    (congrArg (fld · 0 6) he).trans ((ex_lo _ (2#11) rfl).trans (rfl))
  rw [family_Fop f26_6, decodeFop]
  simp only [f21_5, f16_5, f11_5, f6_5, f0_6]
  exact rfl

theorem Encode.fma (d : BitVec 5) (a : BitVec 5) (b : BitVec 5) : Encode.Statement (.fma d a b) := by
  intro _
  apply decode_of
  have he : encode (.fma d a b) = 0x0A#6 ++ d ++ a ++ b ++ 3#11 := rfl
  generalize encode (.fma d a b) = v0 at he
  have f26_6 : fld v0 26 6 = 10#6 :=
    (congrArg (fld · 26 6) he).trans ((ex_hi _ (3#11) rfl).trans ((ex_hi _ (b) rfl).trans ((ex_hi _ (a) rfl).trans ((ex_hi _ (d) rfl).trans (ex_all _)))))
  have f21_5 : fld v0 21 5 = d :=
    (congrArg (fld · 21 5) he).trans ((ex_hi _ (3#11) rfl).trans ((ex_hi _ (b) rfl).trans ((ex_hi _ (a) rfl).trans ((ex_lo _ (d) rfl).trans (ex_all _)))))
  have f16_5 : fld v0 16 5 = a :=
    (congrArg (fld · 16 5) he).trans ((ex_hi _ (3#11) rfl).trans ((ex_hi _ (b) rfl).trans ((ex_lo _ (a) rfl).trans (ex_all _))))
  have f11_5 : fld v0 11 5 = b :=
    (congrArg (fld · 11 5) he).trans ((ex_hi _ (3#11) rfl).trans ((ex_lo _ (b) rfl).trans (ex_all _)))
  have f6_5 : fld v0 6 5 = 0#5 :=
    (congrArg (fld · 6 5) he).trans ((ex_lo _ (3#11) rfl).trans (rfl))
  have f0_6 : fld v0 0 6 = 3#6 :=
    (congrArg (fld · 0 6) he).trans ((ex_lo _ (3#11) rfl).trans (rfl))
  rw [family_Fop f26_6, decodeFop]
  simp only [f21_5, f16_5, f11_5, f6_5, f0_6]
  exact rfl

theorem Encode.fmin (d : BitVec 5) (a : BitVec 5) (b : BitVec 5) : Encode.Statement (.fmin d a b) := by
  intro _
  apply decode_of
  have he : encode (.fmin d a b) = 0x0A#6 ++ d ++ a ++ b ++ 4#11 := rfl
  generalize encode (.fmin d a b) = v0 at he
  have f26_6 : fld v0 26 6 = 10#6 :=
    (congrArg (fld · 26 6) he).trans ((ex_hi _ (4#11) rfl).trans ((ex_hi _ (b) rfl).trans ((ex_hi _ (a) rfl).trans ((ex_hi _ (d) rfl).trans (ex_all _)))))
  have f21_5 : fld v0 21 5 = d :=
    (congrArg (fld · 21 5) he).trans ((ex_hi _ (4#11) rfl).trans ((ex_hi _ (b) rfl).trans ((ex_hi _ (a) rfl).trans ((ex_lo _ (d) rfl).trans (ex_all _)))))
  have f16_5 : fld v0 16 5 = a :=
    (congrArg (fld · 16 5) he).trans ((ex_hi _ (4#11) rfl).trans ((ex_hi _ (b) rfl).trans ((ex_lo _ (a) rfl).trans (ex_all _))))
  have f11_5 : fld v0 11 5 = b :=
    (congrArg (fld · 11 5) he).trans ((ex_hi _ (4#11) rfl).trans ((ex_lo _ (b) rfl).trans (ex_all _)))
  have f6_5 : fld v0 6 5 = 0#5 :=
    (congrArg (fld · 6 5) he).trans ((ex_lo _ (4#11) rfl).trans (rfl))
  have f0_6 : fld v0 0 6 = 4#6 :=
    (congrArg (fld · 0 6) he).trans ((ex_lo _ (4#11) rfl).trans (rfl))
  rw [family_Fop f26_6, decodeFop]
  simp only [f21_5, f16_5, f11_5, f6_5, f0_6]
  exact rfl

theorem Encode.fmax (d : BitVec 5) (a : BitVec 5) (b : BitVec 5) : Encode.Statement (.fmax d a b) := by
  intro _
  apply decode_of
  have he : encode (.fmax d a b) = 0x0A#6 ++ d ++ a ++ b ++ 5#11 := rfl
  generalize encode (.fmax d a b) = v0 at he
  have f26_6 : fld v0 26 6 = 10#6 :=
    (congrArg (fld · 26 6) he).trans ((ex_hi _ (5#11) rfl).trans ((ex_hi _ (b) rfl).trans ((ex_hi _ (a) rfl).trans ((ex_hi _ (d) rfl).trans (ex_all _)))))
  have f21_5 : fld v0 21 5 = d :=
    (congrArg (fld · 21 5) he).trans ((ex_hi _ (5#11) rfl).trans ((ex_hi _ (b) rfl).trans ((ex_hi _ (a) rfl).trans ((ex_lo _ (d) rfl).trans (ex_all _)))))
  have f16_5 : fld v0 16 5 = a :=
    (congrArg (fld · 16 5) he).trans ((ex_hi _ (5#11) rfl).trans ((ex_hi _ (b) rfl).trans ((ex_lo _ (a) rfl).trans (ex_all _))))
  have f11_5 : fld v0 11 5 = b :=
    (congrArg (fld · 11 5) he).trans ((ex_hi _ (5#11) rfl).trans ((ex_lo _ (b) rfl).trans (ex_all _)))
  have f6_5 : fld v0 6 5 = 0#5 :=
    (congrArg (fld · 6 5) he).trans ((ex_lo _ (5#11) rfl).trans (rfl))
  have f0_6 : fld v0 0 6 = 5#6 :=
    (congrArg (fld · 0 6) he).trans ((ex_lo _ (5#11) rfl).trans (rfl))
  rw [family_Fop f26_6, decodeFop]
  simp only [f21_5, f16_5, f11_5, f6_5, f0_6]
  exact rfl

theorem Encode.fcvtws (d : BitVec 5) (a : BitVec 5) : Encode.Statement (.fcvtws d a) := by
  intro _
  apply decode_of
  have he : encode (.fcvtws d a) = 0x0A#6 ++ d ++ a ++ 0#5 ++ 6#11 := rfl
  generalize encode (.fcvtws d a) = v0 at he
  have f26_6 : fld v0 26 6 = 10#6 :=
    (congrArg (fld · 26 6) he).trans ((ex_hi _ (6#11) rfl).trans ((ex_hi _ (0#5) rfl).trans ((ex_hi _ (a) rfl).trans ((ex_hi _ (d) rfl).trans (ex_all _)))))
  have f21_5 : fld v0 21 5 = d :=
    (congrArg (fld · 21 5) he).trans ((ex_hi _ (6#11) rfl).trans ((ex_hi _ (0#5) rfl).trans ((ex_hi _ (a) rfl).trans ((ex_lo _ (d) rfl).trans (ex_all _)))))
  have f16_5 : fld v0 16 5 = a :=
    (congrArg (fld · 16 5) he).trans ((ex_hi _ (6#11) rfl).trans ((ex_hi _ (0#5) rfl).trans ((ex_lo _ (a) rfl).trans (ex_all _))))
  have f11_5 : fld v0 11 5 = 0#5 :=
    (congrArg (fld · 11 5) he).trans ((ex_hi _ (6#11) rfl).trans ((ex_lo _ (0#5) rfl).trans (ex_all _)))
  have f6_5 : fld v0 6 5 = 0#5 :=
    (congrArg (fld · 6 5) he).trans ((ex_lo _ (6#11) rfl).trans (rfl))
  have f0_6 : fld v0 0 6 = 6#6 :=
    (congrArg (fld · 0 6) he).trans ((ex_lo _ (6#11) rfl).trans (rfl))
  rw [family_Fop f26_6, decodeFop]
  simp only [f21_5, f16_5, f11_5, f6_5, f0_6]
  exact rfl

theorem Encode.fcvtsw (d : BitVec 5) (a : BitVec 5) : Encode.Statement (.fcvtsw d a) := by
  intro _
  apply decode_of
  have he : encode (.fcvtsw d a) = 0x0A#6 ++ d ++ a ++ 0#5 ++ 7#11 := rfl
  generalize encode (.fcvtsw d a) = v0 at he
  have f26_6 : fld v0 26 6 = 10#6 :=
    (congrArg (fld · 26 6) he).trans ((ex_hi _ (7#11) rfl).trans ((ex_hi _ (0#5) rfl).trans ((ex_hi _ (a) rfl).trans ((ex_hi _ (d) rfl).trans (ex_all _)))))
  have f21_5 : fld v0 21 5 = d :=
    (congrArg (fld · 21 5) he).trans ((ex_hi _ (7#11) rfl).trans ((ex_hi _ (0#5) rfl).trans ((ex_hi _ (a) rfl).trans ((ex_lo _ (d) rfl).trans (ex_all _)))))
  have f16_5 : fld v0 16 5 = a :=
    (congrArg (fld · 16 5) he).trans ((ex_hi _ (7#11) rfl).trans ((ex_hi _ (0#5) rfl).trans ((ex_lo _ (a) rfl).trans (ex_all _))))
  have f11_5 : fld v0 11 5 = 0#5 :=
    (congrArg (fld · 11 5) he).trans ((ex_hi _ (7#11) rfl).trans ((ex_lo _ (0#5) rfl).trans (ex_all _)))
  have f6_5 : fld v0 6 5 = 0#5 :=
    (congrArg (fld · 6 5) he).trans ((ex_lo _ (7#11) rfl).trans (rfl))
  have f0_6 : fld v0 0 6 = 7#6 :=
    (congrArg (fld · 0 6) he).trans ((ex_lo _ (7#11) rfl).trans (rfl))
  rw [family_Fop f26_6, decodeFop]
  simp only [f21_5, f16_5, f11_5, f6_5, f0_6]
  exact rfl

theorem Encode.flt (d : BitVec 5) (a : BitVec 5) (b : BitVec 5) : Encode.Statement (.flt d a b) := by
  intro _
  apply decode_of
  have he : encode (.flt d a b) = 0x0A#6 ++ d ++ a ++ b ++ 8#11 := rfl
  generalize encode (.flt d a b) = v0 at he
  have f26_6 : fld v0 26 6 = 10#6 :=
    (congrArg (fld · 26 6) he).trans ((ex_hi _ (8#11) rfl).trans ((ex_hi _ (b) rfl).trans ((ex_hi _ (a) rfl).trans ((ex_hi _ (d) rfl).trans (ex_all _)))))
  have f21_5 : fld v0 21 5 = d :=
    (congrArg (fld · 21 5) he).trans ((ex_hi _ (8#11) rfl).trans ((ex_hi _ (b) rfl).trans ((ex_hi _ (a) rfl).trans ((ex_lo _ (d) rfl).trans (ex_all _)))))
  have f16_5 : fld v0 16 5 = a :=
    (congrArg (fld · 16 5) he).trans ((ex_hi _ (8#11) rfl).trans ((ex_hi _ (b) rfl).trans ((ex_lo _ (a) rfl).trans (ex_all _))))
  have f11_5 : fld v0 11 5 = b :=
    (congrArg (fld · 11 5) he).trans ((ex_hi _ (8#11) rfl).trans ((ex_lo _ (b) rfl).trans (ex_all _)))
  have f6_5 : fld v0 6 5 = 0#5 :=
    (congrArg (fld · 6 5) he).trans ((ex_lo _ (8#11) rfl).trans (rfl))
  have f0_6 : fld v0 0 6 = 8#6 :=
    (congrArg (fld · 0 6) he).trans ((ex_lo _ (8#11) rfl).trans (rfl))
  rw [family_Fop f26_6, decodeFop]
  simp only [f21_5, f16_5, f11_5, f6_5, f0_6]
  exact rfl

theorem Encode.feq (d : BitVec 5) (a : BitVec 5) (b : BitVec 5) : Encode.Statement (.feq d a b) := by
  intro _
  apply decode_of
  have he : encode (.feq d a b) = 0x0A#6 ++ d ++ a ++ b ++ 9#11 := rfl
  generalize encode (.feq d a b) = v0 at he
  have f26_6 : fld v0 26 6 = 10#6 :=
    (congrArg (fld · 26 6) he).trans ((ex_hi _ (9#11) rfl).trans ((ex_hi _ (b) rfl).trans ((ex_hi _ (a) rfl).trans ((ex_hi _ (d) rfl).trans (ex_all _)))))
  have f21_5 : fld v0 21 5 = d :=
    (congrArg (fld · 21 5) he).trans ((ex_hi _ (9#11) rfl).trans ((ex_hi _ (b) rfl).trans ((ex_hi _ (a) rfl).trans ((ex_lo _ (d) rfl).trans (ex_all _)))))
  have f16_5 : fld v0 16 5 = a :=
    (congrArg (fld · 16 5) he).trans ((ex_hi _ (9#11) rfl).trans ((ex_hi _ (b) rfl).trans ((ex_lo _ (a) rfl).trans (ex_all _))))
  have f11_5 : fld v0 11 5 = b :=
    (congrArg (fld · 11 5) he).trans ((ex_hi _ (9#11) rfl).trans ((ex_lo _ (b) rfl).trans (ex_all _)))
  have f6_5 : fld v0 6 5 = 0#5 :=
    (congrArg (fld · 6 5) he).trans ((ex_lo _ (9#11) rfl).trans (rfl))
  have f0_6 : fld v0 0 6 = 9#6 :=
    (congrArg (fld · 0 6) he).trans ((ex_lo _ (9#11) rfl).trans (rfl))
  rw [family_Fop f26_6, decodeFop]
  simp only [f21_5, f16_5, f11_5, f6_5, f0_6]
  exact rfl

theorem Encode.ld (d : BitVec 5) (a : BitVec 5) (o : BitVec 14) (z : BitVec 2) : Encode.Statement (.ld d a o z) := by
  intro _
  apply decode_of
  have he : encode (.ld d a o z) = 0x0B#6 ++ d ++ a ++ o ++ z := rfl
  generalize encode (.ld d a o z) = v0 at he
  have f26_6 : fld v0 26 6 = 11#6 :=
    (congrArg (fld · 26 6) he).trans ((ex_hi _ (z) rfl).trans ((ex_hi _ (o) rfl).trans ((ex_hi _ (a) rfl).trans ((ex_hi _ (d) rfl).trans (ex_all _)))))
  have f21_5 : fld v0 21 5 = d :=
    (congrArg (fld · 21 5) he).trans ((ex_hi _ (z) rfl).trans ((ex_hi _ (o) rfl).trans ((ex_hi _ (a) rfl).trans ((ex_lo _ (d) rfl).trans (ex_all _)))))
  have f16_5 : fld v0 16 5 = a :=
    (congrArg (fld · 16 5) he).trans ((ex_hi _ (z) rfl).trans ((ex_hi _ (o) rfl).trans ((ex_lo _ (a) rfl).trans (ex_all _))))
  have f2_14 : fld v0 2 14 = o :=
    (congrArg (fld · 2 14) he).trans ((ex_hi _ (z) rfl).trans ((ex_lo _ (o) rfl).trans (ex_all _)))
  have f0_2 : fld v0 0 2 = z :=
    (congrArg (fld · 0 2) he).trans ((ex_lo _ (z) rfl).trans (ex_all _))
  rw [family_Ld f26_6, decodeLd]
  simp only [f21_5, f16_5, f2_14, f0_2]

theorem Encode.lds (d : BitVec 5) (a : BitVec 5) (o : BitVec 14) (z : BitVec 2) : Encode.Statement (.lds d a o z) := by
  intro (hw : ((z != 3#2)) = true)
  apply decode_of
  have he : encode (.lds d a o z) = 0x0C#6 ++ d ++ a ++ o ++ z := rfl
  generalize encode (.lds d a o z) = v0 at he
  have f26_6 : fld v0 26 6 = 12#6 :=
    (congrArg (fld · 26 6) he).trans ((ex_hi _ (z) rfl).trans ((ex_hi _ (o) rfl).trans ((ex_hi _ (a) rfl).trans ((ex_hi _ (d) rfl).trans (ex_all _)))))
  have f21_5 : fld v0 21 5 = d :=
    (congrArg (fld · 21 5) he).trans ((ex_hi _ (z) rfl).trans ((ex_hi _ (o) rfl).trans ((ex_hi _ (a) rfl).trans ((ex_lo _ (d) rfl).trans (ex_all _)))))
  have f16_5 : fld v0 16 5 = a :=
    (congrArg (fld · 16 5) he).trans ((ex_hi _ (z) rfl).trans ((ex_hi _ (o) rfl).trans ((ex_lo _ (a) rfl).trans (ex_all _))))
  have f2_14 : fld v0 2 14 = o :=
    (congrArg (fld · 2 14) he).trans ((ex_hi _ (z) rfl).trans ((ex_lo _ (o) rfl).trans (ex_all _)))
  have f0_2 : fld v0 0 2 = z :=
    (congrArg (fld · 0 2) he).trans ((ex_lo _ (z) rfl).trans (ex_all _))
  rw [family_Lds f26_6, decodeLds]
  simp only [f21_5, f16_5, f2_14, f0_2]
  exact needs_of hw

theorem Encode.st (d : BitVec 5) (a : BitVec 5) (o : BitVec 14) (z : BitVec 2) : Encode.Statement (.st d a o z) := by
  intro _
  apply decode_of
  have he : encode (.st d a o z) = 0x0D#6 ++ d ++ a ++ o ++ z := rfl
  generalize encode (.st d a o z) = v0 at he
  have f26_6 : fld v0 26 6 = 13#6 :=
    (congrArg (fld · 26 6) he).trans ((ex_hi _ (z) rfl).trans ((ex_hi _ (o) rfl).trans ((ex_hi _ (a) rfl).trans ((ex_hi _ (d) rfl).trans (ex_all _)))))
  have f21_5 : fld v0 21 5 = d :=
    (congrArg (fld · 21 5) he).trans ((ex_hi _ (z) rfl).trans ((ex_hi _ (o) rfl).trans ((ex_hi _ (a) rfl).trans ((ex_lo _ (d) rfl).trans (ex_all _)))))
  have f16_5 : fld v0 16 5 = a :=
    (congrArg (fld · 16 5) he).trans ((ex_hi _ (z) rfl).trans ((ex_hi _ (o) rfl).trans ((ex_lo _ (a) rfl).trans (ex_all _))))
  have f2_14 : fld v0 2 14 = o :=
    (congrArg (fld · 2 14) he).trans ((ex_hi _ (z) rfl).trans ((ex_lo _ (o) rfl).trans (ex_all _)))
  have f0_2 : fld v0 0 2 = z :=
    (congrArg (fld · 0 2) he).trans ((ex_lo _ (z) rfl).trans (ex_all _))
  rw [family_St f26_6, decodeSt]
  simp only [f21_5, f16_5, f2_14, f0_2]

theorem Encode.lda (d : BitVec 5) (a : BitVec 5) (c : BitVec 2) (z : BitVec 1) : Encode.Statement (.lda d a c z) := by
  intro (hw : ((c != 3#2)) = true)
  apply decode_of
  have he : encode (.lda d a c z) = 0x0E#6 ++ d ++ a ++ 0#5 ++ 0#5 ++ c ++ 1#3 ++ z := rfl
  generalize encode (.lda d a c z) = v0 at he
  have f26_6 : fld v0 26 6 = 14#6 :=
    (congrArg (fld · 26 6) he).trans ((ex_hi _ (z) rfl).trans ((ex_hi _ (1#3) rfl).trans ((ex_hi _ (c) rfl).trans ((ex_hi _ (0#5) rfl).trans ((ex_hi _ (0#5) rfl).trans ((ex_hi _ (a) rfl).trans ((ex_hi _ (d) rfl).trans (ex_all _))))))))
  have f21_5 : fld v0 21 5 = d :=
    (congrArg (fld · 21 5) he).trans ((ex_hi _ (z) rfl).trans ((ex_hi _ (1#3) rfl).trans ((ex_hi _ (c) rfl).trans ((ex_hi _ (0#5) rfl).trans ((ex_hi _ (0#5) rfl).trans ((ex_hi _ (a) rfl).trans ((ex_lo _ (d) rfl).trans (ex_all _))))))))
  have f16_5 : fld v0 16 5 = a :=
    (congrArg (fld · 16 5) he).trans ((ex_hi _ (z) rfl).trans ((ex_hi _ (1#3) rfl).trans ((ex_hi _ (c) rfl).trans ((ex_hi _ (0#5) rfl).trans ((ex_hi _ (0#5) rfl).trans ((ex_lo _ (a) rfl).trans (ex_all _)))))))
  have f11_5 : fld v0 11 5 = 0#5 :=
    (congrArg (fld · 11 5) he).trans ((ex_hi _ (z) rfl).trans ((ex_hi _ (1#3) rfl).trans ((ex_hi _ (c) rfl).trans ((ex_hi _ (0#5) rfl).trans ((ex_lo _ (0#5) rfl).trans (ex_all _))))))
  have f6_5 : fld v0 6 5 = 0#5 :=
    (congrArg (fld · 6 5) he).trans ((ex_hi _ (z) rfl).trans ((ex_hi _ (1#3) rfl).trans ((ex_hi _ (c) rfl).trans ((ex_lo _ (0#5) rfl).trans (ex_all _)))))
  have f4_2 : fld v0 4 2 = c :=
    (congrArg (fld · 4 2) he).trans ((ex_hi _ (z) rfl).trans ((ex_hi _ (1#3) rfl).trans ((ex_lo _ (c) rfl).trans (ex_all _))))
  have f2_2 : fld v0 2 2 = 0#2 :=
    (congrArg (fld · 2 2) he).trans ((ex_hi _ (z) rfl).trans ((ex_lo _ (1#3) rfl).trans (rfl)))
  have f1_1 : fld v0 1 1 = 1#1 :=
    (congrArg (fld · 1 1) he).trans ((ex_hi _ (z) rfl).trans ((ex_lo _ (1#3) rfl).trans (rfl)))
  have f0_1 : fld v0 0 1 = z :=
    (congrArg (fld · 0 1) he).trans ((ex_lo _ (z) rfl).trans (ex_all _))
  rw [family_Ordm f26_6, decodeOrdm]
  simp only [f21_5, f16_5, f11_5, f6_5, f4_2, f2_2, f1_1, f0_1]
  exact needs_of hw

theorem Encode.str (a : BitVec 5) (b : BitVec 5) (c : BitVec 2) (z : BitVec 1) : Encode.Statement (.str a b c z) := by
  intro (hw : ((c != 3#2)) = true)
  apply decode_of
  have he : encode (.str a b c z) = 0x0E#6 ++ 0#5 ++ a ++ b ++ 0#5 ++ c ++ 3#3 ++ z := rfl
  generalize encode (.str a b c z) = v0 at he
  have f26_6 : fld v0 26 6 = 14#6 :=
    (congrArg (fld · 26 6) he).trans ((ex_hi _ (z) rfl).trans ((ex_hi _ (3#3) rfl).trans ((ex_hi _ (c) rfl).trans ((ex_hi _ (0#5) rfl).trans ((ex_hi _ (b) rfl).trans ((ex_hi _ (a) rfl).trans ((ex_hi _ (0#5) rfl).trans (ex_all _))))))))
  have f21_5 : fld v0 21 5 = 0#5 :=
    (congrArg (fld · 21 5) he).trans ((ex_hi _ (z) rfl).trans ((ex_hi _ (3#3) rfl).trans ((ex_hi _ (c) rfl).trans ((ex_hi _ (0#5) rfl).trans ((ex_hi _ (b) rfl).trans ((ex_hi _ (a) rfl).trans ((ex_lo _ (0#5) rfl).trans (ex_all _))))))))
  have f16_5 : fld v0 16 5 = a :=
    (congrArg (fld · 16 5) he).trans ((ex_hi _ (z) rfl).trans ((ex_hi _ (3#3) rfl).trans ((ex_hi _ (c) rfl).trans ((ex_hi _ (0#5) rfl).trans ((ex_hi _ (b) rfl).trans ((ex_lo _ (a) rfl).trans (ex_all _)))))))
  have f11_5 : fld v0 11 5 = b :=
    (congrArg (fld · 11 5) he).trans ((ex_hi _ (z) rfl).trans ((ex_hi _ (3#3) rfl).trans ((ex_hi _ (c) rfl).trans ((ex_hi _ (0#5) rfl).trans ((ex_lo _ (b) rfl).trans (ex_all _))))))
  have f6_5 : fld v0 6 5 = 0#5 :=
    (congrArg (fld · 6 5) he).trans ((ex_hi _ (z) rfl).trans ((ex_hi _ (3#3) rfl).trans ((ex_hi _ (c) rfl).trans ((ex_lo _ (0#5) rfl).trans (ex_all _)))))
  have f4_2 : fld v0 4 2 = c :=
    (congrArg (fld · 4 2) he).trans ((ex_hi _ (z) rfl).trans ((ex_hi _ (3#3) rfl).trans ((ex_lo _ (c) rfl).trans (ex_all _))))
  have f2_2 : fld v0 2 2 = 1#2 :=
    (congrArg (fld · 2 2) he).trans ((ex_hi _ (z) rfl).trans ((ex_lo _ (3#3) rfl).trans (rfl)))
  have f1_1 : fld v0 1 1 = 1#1 :=
    (congrArg (fld · 1 1) he).trans ((ex_hi _ (z) rfl).trans ((ex_lo _ (3#3) rfl).trans (rfl)))
  have f0_1 : fld v0 0 1 = z :=
    (congrArg (fld · 0 1) he).trans ((ex_lo _ (z) rfl).trans (ex_all _))
  rw [family_Ordm f26_6, decodeOrdm]
  simp only [f21_5, f16_5, f11_5, f6_5, f4_2, f2_2, f1_1, f0_1]
  exact needs_of hw

theorem Encode.fence (c : BitVec 2) : Encode.Statement (.fence c) := by
  intro (hw : ((c != 3#2)) = true)
  apply decode_of
  have he : encode (.fence c) = 0x0E#6 ++ 0#5 ++ 0#5 ++ 0#5 ++ 0#5 ++ c ++ 8#4 := rfl
  generalize encode (.fence c) = v0 at he
  have f26_6 : fld v0 26 6 = 14#6 :=
    (congrArg (fld · 26 6) he).trans ((ex_hi _ (8#4) rfl).trans ((ex_hi _ (c) rfl).trans ((ex_hi _ (0#5) rfl).trans ((ex_hi _ (0#5) rfl).trans ((ex_hi _ (0#5) rfl).trans ((ex_hi _ (0#5) rfl).trans (ex_all _)))))))
  have f21_5 : fld v0 21 5 = 0#5 :=
    (congrArg (fld · 21 5) he).trans ((ex_hi _ (8#4) rfl).trans ((ex_hi _ (c) rfl).trans ((ex_hi _ (0#5) rfl).trans ((ex_hi _ (0#5) rfl).trans ((ex_hi _ (0#5) rfl).trans ((ex_lo _ (0#5) rfl).trans (ex_all _)))))))
  have f16_5 : fld v0 16 5 = 0#5 :=
    (congrArg (fld · 16 5) he).trans ((ex_hi _ (8#4) rfl).trans ((ex_hi _ (c) rfl).trans ((ex_hi _ (0#5) rfl).trans ((ex_hi _ (0#5) rfl).trans ((ex_lo _ (0#5) rfl).trans (ex_all _))))))
  have f11_5 : fld v0 11 5 = 0#5 :=
    (congrArg (fld · 11 5) he).trans ((ex_hi _ (8#4) rfl).trans ((ex_hi _ (c) rfl).trans ((ex_hi _ (0#5) rfl).trans ((ex_lo _ (0#5) rfl).trans (ex_all _)))))
  have f6_5 : fld v0 6 5 = 0#5 :=
    (congrArg (fld · 6 5) he).trans ((ex_hi _ (8#4) rfl).trans ((ex_hi _ (c) rfl).trans ((ex_lo _ (0#5) rfl).trans (ex_all _))))
  have f4_2 : fld v0 4 2 = c :=
    (congrArg (fld · 4 2) he).trans ((ex_hi _ (8#4) rfl).trans ((ex_lo _ (c) rfl).trans (ex_all _)))
  have f2_2 : fld v0 2 2 = 2#2 :=
    (congrArg (fld · 2 2) he).trans ((ex_lo _ (8#4) rfl).trans (rfl))
  have f0_2 : fld v0 0 2 = 0#2 :=
    (congrArg (fld · 0 2) he).trans ((ex_lo _ (8#4) rfl).trans (rfl))
  rw [family_Ordm f26_6, decodeOrdm]
  simp only [f21_5, f16_5, f11_5, f6_5, f4_2, f2_2, f0_2]
  exact needs_of hw

theorem Encode.amoAdd (d : BitVec 5) (a : BitVec 5) (b : BitVec 5) (m : BitVec 1) (r : BitVec 1) (q : BitVec 1) (c : BitVec 2) (z : BitVec 1) : Encode.Statement (.amoAdd d a b m r q c z) := by
  intro (hw : ((c != 3#2)) = true)
  apply decode_of
  have he : encode (.amoAdd d a b m r q c z) = 0x0F#6 ++ d ++ a ++ b ++ m ++ r ++ q ++ c ++ 1#1 ++ z ++ 0#4 := rfl
  generalize encode (.amoAdd d a b m r q c z) = v0 at he
  have f26_6 : fld v0 26 6 = 15#6 :=
    (congrArg (fld · 26 6) he).trans ((ex_hi _ (0#4) rfl).trans ((ex_hi _ (z) rfl).trans ((ex_hi _ (1#1) rfl).trans ((ex_hi _ (c) rfl).trans ((ex_hi _ (q) rfl).trans ((ex_hi _ (r) rfl).trans ((ex_hi _ (m) rfl).trans ((ex_hi _ (b) rfl).trans ((ex_hi _ (a) rfl).trans ((ex_hi _ (d) rfl).trans (ex_all _)))))))))))
  have f21_5 : fld v0 21 5 = d :=
    (congrArg (fld · 21 5) he).trans ((ex_hi _ (0#4) rfl).trans ((ex_hi _ (z) rfl).trans ((ex_hi _ (1#1) rfl).trans ((ex_hi _ (c) rfl).trans ((ex_hi _ (q) rfl).trans ((ex_hi _ (r) rfl).trans ((ex_hi _ (m) rfl).trans ((ex_hi _ (b) rfl).trans ((ex_hi _ (a) rfl).trans ((ex_lo _ (d) rfl).trans (ex_all _)))))))))))
  have f16_5 : fld v0 16 5 = a :=
    (congrArg (fld · 16 5) he).trans ((ex_hi _ (0#4) rfl).trans ((ex_hi _ (z) rfl).trans ((ex_hi _ (1#1) rfl).trans ((ex_hi _ (c) rfl).trans ((ex_hi _ (q) rfl).trans ((ex_hi _ (r) rfl).trans ((ex_hi _ (m) rfl).trans ((ex_hi _ (b) rfl).trans ((ex_lo _ (a) rfl).trans (ex_all _))))))))))
  have f11_5 : fld v0 11 5 = b :=
    (congrArg (fld · 11 5) he).trans ((ex_hi _ (0#4) rfl).trans ((ex_hi _ (z) rfl).trans ((ex_hi _ (1#1) rfl).trans ((ex_hi _ (c) rfl).trans ((ex_hi _ (q) rfl).trans ((ex_hi _ (r) rfl).trans ((ex_hi _ (m) rfl).trans ((ex_lo _ (b) rfl).trans (ex_all _)))))))))
  have f10_1 : fld v0 10 1 = m :=
    (congrArg (fld · 10 1) he).trans ((ex_hi _ (0#4) rfl).trans ((ex_hi _ (z) rfl).trans ((ex_hi _ (1#1) rfl).trans ((ex_hi _ (c) rfl).trans ((ex_hi _ (q) rfl).trans ((ex_hi _ (r) rfl).trans ((ex_lo _ (m) rfl).trans (ex_all _))))))))
  have f9_1 : fld v0 9 1 = r :=
    (congrArg (fld · 9 1) he).trans ((ex_hi _ (0#4) rfl).trans ((ex_hi _ (z) rfl).trans ((ex_hi _ (1#1) rfl).trans ((ex_hi _ (c) rfl).trans ((ex_hi _ (q) rfl).trans ((ex_lo _ (r) rfl).trans (ex_all _)))))))
  have f8_1 : fld v0 8 1 = q :=
    (congrArg (fld · 8 1) he).trans ((ex_hi _ (0#4) rfl).trans ((ex_hi _ (z) rfl).trans ((ex_hi _ (1#1) rfl).trans ((ex_hi _ (c) rfl).trans ((ex_lo _ (q) rfl).trans (ex_all _))))))
  have f6_2 : fld v0 6 2 = c :=
    (congrArg (fld · 6 2) he).trans ((ex_hi _ (0#4) rfl).trans ((ex_hi _ (z) rfl).trans ((ex_hi _ (1#1) rfl).trans ((ex_lo _ (c) rfl).trans (ex_all _)))))
  have f5_1 : fld v0 5 1 = 1#1 :=
    (congrArg (fld · 5 1) he).trans ((ex_hi _ (0#4) rfl).trans ((ex_hi _ (z) rfl).trans ((ex_lo _ (1#1) rfl).trans (ex_all _))))
  have f4_1 : fld v0 4 1 = z :=
    (congrArg (fld · 4 1) he).trans ((ex_hi _ (0#4) rfl).trans ((ex_lo _ (z) rfl).trans (ex_all _)))
  have f0_4 : fld v0 0 4 = 0#4 :=
    (congrArg (fld · 0 4) he).trans ((ex_lo _ (0#4) rfl).trans (ex_all _))
  rw [family_Amo f26_6, decodeAmo]
  simp only [f21_5, f16_5, f11_5, f10_1, f9_1, f8_1, f6_2, f5_1, f4_1, f0_4]
  exact needs_of hw

theorem Encode.amoAnd (d : BitVec 5) (a : BitVec 5) (b : BitVec 5) (m : BitVec 1) (r : BitVec 1) (q : BitVec 1) (c : BitVec 2) (z : BitVec 1) : Encode.Statement (.amoAnd d a b m r q c z) := by
  intro (hw : ((c != 3#2)) = true)
  apply decode_of
  have he : encode (.amoAnd d a b m r q c z) = 0x0F#6 ++ d ++ a ++ b ++ m ++ r ++ q ++ c ++ 1#1 ++ z ++ 1#4 := rfl
  generalize encode (.amoAnd d a b m r q c z) = v0 at he
  have f26_6 : fld v0 26 6 = 15#6 :=
    (congrArg (fld · 26 6) he).trans ((ex_hi _ (1#4) rfl).trans ((ex_hi _ (z) rfl).trans ((ex_hi _ (1#1) rfl).trans ((ex_hi _ (c) rfl).trans ((ex_hi _ (q) rfl).trans ((ex_hi _ (r) rfl).trans ((ex_hi _ (m) rfl).trans ((ex_hi _ (b) rfl).trans ((ex_hi _ (a) rfl).trans ((ex_hi _ (d) rfl).trans (ex_all _)))))))))))
  have f21_5 : fld v0 21 5 = d :=
    (congrArg (fld · 21 5) he).trans ((ex_hi _ (1#4) rfl).trans ((ex_hi _ (z) rfl).trans ((ex_hi _ (1#1) rfl).trans ((ex_hi _ (c) rfl).trans ((ex_hi _ (q) rfl).trans ((ex_hi _ (r) rfl).trans ((ex_hi _ (m) rfl).trans ((ex_hi _ (b) rfl).trans ((ex_hi _ (a) rfl).trans ((ex_lo _ (d) rfl).trans (ex_all _)))))))))))
  have f16_5 : fld v0 16 5 = a :=
    (congrArg (fld · 16 5) he).trans ((ex_hi _ (1#4) rfl).trans ((ex_hi _ (z) rfl).trans ((ex_hi _ (1#1) rfl).trans ((ex_hi _ (c) rfl).trans ((ex_hi _ (q) rfl).trans ((ex_hi _ (r) rfl).trans ((ex_hi _ (m) rfl).trans ((ex_hi _ (b) rfl).trans ((ex_lo _ (a) rfl).trans (ex_all _))))))))))
  have f11_5 : fld v0 11 5 = b :=
    (congrArg (fld · 11 5) he).trans ((ex_hi _ (1#4) rfl).trans ((ex_hi _ (z) rfl).trans ((ex_hi _ (1#1) rfl).trans ((ex_hi _ (c) rfl).trans ((ex_hi _ (q) rfl).trans ((ex_hi _ (r) rfl).trans ((ex_hi _ (m) rfl).trans ((ex_lo _ (b) rfl).trans (ex_all _)))))))))
  have f10_1 : fld v0 10 1 = m :=
    (congrArg (fld · 10 1) he).trans ((ex_hi _ (1#4) rfl).trans ((ex_hi _ (z) rfl).trans ((ex_hi _ (1#1) rfl).trans ((ex_hi _ (c) rfl).trans ((ex_hi _ (q) rfl).trans ((ex_hi _ (r) rfl).trans ((ex_lo _ (m) rfl).trans (ex_all _))))))))
  have f9_1 : fld v0 9 1 = r :=
    (congrArg (fld · 9 1) he).trans ((ex_hi _ (1#4) rfl).trans ((ex_hi _ (z) rfl).trans ((ex_hi _ (1#1) rfl).trans ((ex_hi _ (c) rfl).trans ((ex_hi _ (q) rfl).trans ((ex_lo _ (r) rfl).trans (ex_all _)))))))
  have f8_1 : fld v0 8 1 = q :=
    (congrArg (fld · 8 1) he).trans ((ex_hi _ (1#4) rfl).trans ((ex_hi _ (z) rfl).trans ((ex_hi _ (1#1) rfl).trans ((ex_hi _ (c) rfl).trans ((ex_lo _ (q) rfl).trans (ex_all _))))))
  have f6_2 : fld v0 6 2 = c :=
    (congrArg (fld · 6 2) he).trans ((ex_hi _ (1#4) rfl).trans ((ex_hi _ (z) rfl).trans ((ex_hi _ (1#1) rfl).trans ((ex_lo _ (c) rfl).trans (ex_all _)))))
  have f5_1 : fld v0 5 1 = 1#1 :=
    (congrArg (fld · 5 1) he).trans ((ex_hi _ (1#4) rfl).trans ((ex_hi _ (z) rfl).trans ((ex_lo _ (1#1) rfl).trans (ex_all _))))
  have f4_1 : fld v0 4 1 = z :=
    (congrArg (fld · 4 1) he).trans ((ex_hi _ (1#4) rfl).trans ((ex_lo _ (z) rfl).trans (ex_all _)))
  have f0_4 : fld v0 0 4 = 1#4 :=
    (congrArg (fld · 0 4) he).trans ((ex_lo _ (1#4) rfl).trans (ex_all _))
  rw [family_Amo f26_6, decodeAmo]
  simp only [f21_5, f16_5, f11_5, f10_1, f9_1, f8_1, f6_2, f5_1, f4_1, f0_4]
  exact needs_of hw

theorem Encode.amoOr (d : BitVec 5) (a : BitVec 5) (b : BitVec 5) (m : BitVec 1) (r : BitVec 1) (q : BitVec 1) (c : BitVec 2) (z : BitVec 1) : Encode.Statement (.amoOr d a b m r q c z) := by
  intro (hw : ((c != 3#2)) = true)
  apply decode_of
  have he : encode (.amoOr d a b m r q c z) = 0x0F#6 ++ d ++ a ++ b ++ m ++ r ++ q ++ c ++ 1#1 ++ z ++ 2#4 := rfl
  generalize encode (.amoOr d a b m r q c z) = v0 at he
  have f26_6 : fld v0 26 6 = 15#6 :=
    (congrArg (fld · 26 6) he).trans ((ex_hi _ (2#4) rfl).trans ((ex_hi _ (z) rfl).trans ((ex_hi _ (1#1) rfl).trans ((ex_hi _ (c) rfl).trans ((ex_hi _ (q) rfl).trans ((ex_hi _ (r) rfl).trans ((ex_hi _ (m) rfl).trans ((ex_hi _ (b) rfl).trans ((ex_hi _ (a) rfl).trans ((ex_hi _ (d) rfl).trans (ex_all _)))))))))))
  have f21_5 : fld v0 21 5 = d :=
    (congrArg (fld · 21 5) he).trans ((ex_hi _ (2#4) rfl).trans ((ex_hi _ (z) rfl).trans ((ex_hi _ (1#1) rfl).trans ((ex_hi _ (c) rfl).trans ((ex_hi _ (q) rfl).trans ((ex_hi _ (r) rfl).trans ((ex_hi _ (m) rfl).trans ((ex_hi _ (b) rfl).trans ((ex_hi _ (a) rfl).trans ((ex_lo _ (d) rfl).trans (ex_all _)))))))))))
  have f16_5 : fld v0 16 5 = a :=
    (congrArg (fld · 16 5) he).trans ((ex_hi _ (2#4) rfl).trans ((ex_hi _ (z) rfl).trans ((ex_hi _ (1#1) rfl).trans ((ex_hi _ (c) rfl).trans ((ex_hi _ (q) rfl).trans ((ex_hi _ (r) rfl).trans ((ex_hi _ (m) rfl).trans ((ex_hi _ (b) rfl).trans ((ex_lo _ (a) rfl).trans (ex_all _))))))))))
  have f11_5 : fld v0 11 5 = b :=
    (congrArg (fld · 11 5) he).trans ((ex_hi _ (2#4) rfl).trans ((ex_hi _ (z) rfl).trans ((ex_hi _ (1#1) rfl).trans ((ex_hi _ (c) rfl).trans ((ex_hi _ (q) rfl).trans ((ex_hi _ (r) rfl).trans ((ex_hi _ (m) rfl).trans ((ex_lo _ (b) rfl).trans (ex_all _)))))))))
  have f10_1 : fld v0 10 1 = m :=
    (congrArg (fld · 10 1) he).trans ((ex_hi _ (2#4) rfl).trans ((ex_hi _ (z) rfl).trans ((ex_hi _ (1#1) rfl).trans ((ex_hi _ (c) rfl).trans ((ex_hi _ (q) rfl).trans ((ex_hi _ (r) rfl).trans ((ex_lo _ (m) rfl).trans (ex_all _))))))))
  have f9_1 : fld v0 9 1 = r :=
    (congrArg (fld · 9 1) he).trans ((ex_hi _ (2#4) rfl).trans ((ex_hi _ (z) rfl).trans ((ex_hi _ (1#1) rfl).trans ((ex_hi _ (c) rfl).trans ((ex_hi _ (q) rfl).trans ((ex_lo _ (r) rfl).trans (ex_all _)))))))
  have f8_1 : fld v0 8 1 = q :=
    (congrArg (fld · 8 1) he).trans ((ex_hi _ (2#4) rfl).trans ((ex_hi _ (z) rfl).trans ((ex_hi _ (1#1) rfl).trans ((ex_hi _ (c) rfl).trans ((ex_lo _ (q) rfl).trans (ex_all _))))))
  have f6_2 : fld v0 6 2 = c :=
    (congrArg (fld · 6 2) he).trans ((ex_hi _ (2#4) rfl).trans ((ex_hi _ (z) rfl).trans ((ex_hi _ (1#1) rfl).trans ((ex_lo _ (c) rfl).trans (ex_all _)))))
  have f5_1 : fld v0 5 1 = 1#1 :=
    (congrArg (fld · 5 1) he).trans ((ex_hi _ (2#4) rfl).trans ((ex_hi _ (z) rfl).trans ((ex_lo _ (1#1) rfl).trans (ex_all _))))
  have f4_1 : fld v0 4 1 = z :=
    (congrArg (fld · 4 1) he).trans ((ex_hi _ (2#4) rfl).trans ((ex_lo _ (z) rfl).trans (ex_all _)))
  have f0_4 : fld v0 0 4 = 2#4 :=
    (congrArg (fld · 0 4) he).trans ((ex_lo _ (2#4) rfl).trans (ex_all _))
  rw [family_Amo f26_6, decodeAmo]
  simp only [f21_5, f16_5, f11_5, f10_1, f9_1, f8_1, f6_2, f5_1, f4_1, f0_4]
  exact needs_of hw

theorem Encode.amoXor (d : BitVec 5) (a : BitVec 5) (b : BitVec 5) (m : BitVec 1) (r : BitVec 1) (q : BitVec 1) (c : BitVec 2) (z : BitVec 1) : Encode.Statement (.amoXor d a b m r q c z) := by
  intro (hw : ((c != 3#2)) = true)
  apply decode_of
  have he : encode (.amoXor d a b m r q c z) = 0x0F#6 ++ d ++ a ++ b ++ m ++ r ++ q ++ c ++ 1#1 ++ z ++ 3#4 := rfl
  generalize encode (.amoXor d a b m r q c z) = v0 at he
  have f26_6 : fld v0 26 6 = 15#6 :=
    (congrArg (fld · 26 6) he).trans ((ex_hi _ (3#4) rfl).trans ((ex_hi _ (z) rfl).trans ((ex_hi _ (1#1) rfl).trans ((ex_hi _ (c) rfl).trans ((ex_hi _ (q) rfl).trans ((ex_hi _ (r) rfl).trans ((ex_hi _ (m) rfl).trans ((ex_hi _ (b) rfl).trans ((ex_hi _ (a) rfl).trans ((ex_hi _ (d) rfl).trans (ex_all _)))))))))))
  have f21_5 : fld v0 21 5 = d :=
    (congrArg (fld · 21 5) he).trans ((ex_hi _ (3#4) rfl).trans ((ex_hi _ (z) rfl).trans ((ex_hi _ (1#1) rfl).trans ((ex_hi _ (c) rfl).trans ((ex_hi _ (q) rfl).trans ((ex_hi _ (r) rfl).trans ((ex_hi _ (m) rfl).trans ((ex_hi _ (b) rfl).trans ((ex_hi _ (a) rfl).trans ((ex_lo _ (d) rfl).trans (ex_all _)))))))))))
  have f16_5 : fld v0 16 5 = a :=
    (congrArg (fld · 16 5) he).trans ((ex_hi _ (3#4) rfl).trans ((ex_hi _ (z) rfl).trans ((ex_hi _ (1#1) rfl).trans ((ex_hi _ (c) rfl).trans ((ex_hi _ (q) rfl).trans ((ex_hi _ (r) rfl).trans ((ex_hi _ (m) rfl).trans ((ex_hi _ (b) rfl).trans ((ex_lo _ (a) rfl).trans (ex_all _))))))))))
  have f11_5 : fld v0 11 5 = b :=
    (congrArg (fld · 11 5) he).trans ((ex_hi _ (3#4) rfl).trans ((ex_hi _ (z) rfl).trans ((ex_hi _ (1#1) rfl).trans ((ex_hi _ (c) rfl).trans ((ex_hi _ (q) rfl).trans ((ex_hi _ (r) rfl).trans ((ex_hi _ (m) rfl).trans ((ex_lo _ (b) rfl).trans (ex_all _)))))))))
  have f10_1 : fld v0 10 1 = m :=
    (congrArg (fld · 10 1) he).trans ((ex_hi _ (3#4) rfl).trans ((ex_hi _ (z) rfl).trans ((ex_hi _ (1#1) rfl).trans ((ex_hi _ (c) rfl).trans ((ex_hi _ (q) rfl).trans ((ex_hi _ (r) rfl).trans ((ex_lo _ (m) rfl).trans (ex_all _))))))))
  have f9_1 : fld v0 9 1 = r :=
    (congrArg (fld · 9 1) he).trans ((ex_hi _ (3#4) rfl).trans ((ex_hi _ (z) rfl).trans ((ex_hi _ (1#1) rfl).trans ((ex_hi _ (c) rfl).trans ((ex_hi _ (q) rfl).trans ((ex_lo _ (r) rfl).trans (ex_all _)))))))
  have f8_1 : fld v0 8 1 = q :=
    (congrArg (fld · 8 1) he).trans ((ex_hi _ (3#4) rfl).trans ((ex_hi _ (z) rfl).trans ((ex_hi _ (1#1) rfl).trans ((ex_hi _ (c) rfl).trans ((ex_lo _ (q) rfl).trans (ex_all _))))))
  have f6_2 : fld v0 6 2 = c :=
    (congrArg (fld · 6 2) he).trans ((ex_hi _ (3#4) rfl).trans ((ex_hi _ (z) rfl).trans ((ex_hi _ (1#1) rfl).trans ((ex_lo _ (c) rfl).trans (ex_all _)))))
  have f5_1 : fld v0 5 1 = 1#1 :=
    (congrArg (fld · 5 1) he).trans ((ex_hi _ (3#4) rfl).trans ((ex_hi _ (z) rfl).trans ((ex_lo _ (1#1) rfl).trans (ex_all _))))
  have f4_1 : fld v0 4 1 = z :=
    (congrArg (fld · 4 1) he).trans ((ex_hi _ (3#4) rfl).trans ((ex_lo _ (z) rfl).trans (ex_all _)))
  have f0_4 : fld v0 0 4 = 3#4 :=
    (congrArg (fld · 0 4) he).trans ((ex_lo _ (3#4) rfl).trans (ex_all _))
  rw [family_Amo f26_6, decodeAmo]
  simp only [f21_5, f16_5, f11_5, f10_1, f9_1, f8_1, f6_2, f5_1, f4_1, f0_4]
  exact needs_of hw

theorem Encode.amoSmin (d : BitVec 5) (a : BitVec 5) (b : BitVec 5) (m : BitVec 1) (r : BitVec 1) (q : BitVec 1) (c : BitVec 2) (z : BitVec 1) : Encode.Statement (.amoSmin d a b m r q c z) := by
  intro (hw : ((c != 3#2)) = true)
  apply decode_of
  have he : encode (.amoSmin d a b m r q c z) = 0x0F#6 ++ d ++ a ++ b ++ m ++ r ++ q ++ c ++ 1#1 ++ z ++ 4#4 := rfl
  generalize encode (.amoSmin d a b m r q c z) = v0 at he
  have f26_6 : fld v0 26 6 = 15#6 :=
    (congrArg (fld · 26 6) he).trans ((ex_hi _ (4#4) rfl).trans ((ex_hi _ (z) rfl).trans ((ex_hi _ (1#1) rfl).trans ((ex_hi _ (c) rfl).trans ((ex_hi _ (q) rfl).trans ((ex_hi _ (r) rfl).trans ((ex_hi _ (m) rfl).trans ((ex_hi _ (b) rfl).trans ((ex_hi _ (a) rfl).trans ((ex_hi _ (d) rfl).trans (ex_all _)))))))))))
  have f21_5 : fld v0 21 5 = d :=
    (congrArg (fld · 21 5) he).trans ((ex_hi _ (4#4) rfl).trans ((ex_hi _ (z) rfl).trans ((ex_hi _ (1#1) rfl).trans ((ex_hi _ (c) rfl).trans ((ex_hi _ (q) rfl).trans ((ex_hi _ (r) rfl).trans ((ex_hi _ (m) rfl).trans ((ex_hi _ (b) rfl).trans ((ex_hi _ (a) rfl).trans ((ex_lo _ (d) rfl).trans (ex_all _)))))))))))
  have f16_5 : fld v0 16 5 = a :=
    (congrArg (fld · 16 5) he).trans ((ex_hi _ (4#4) rfl).trans ((ex_hi _ (z) rfl).trans ((ex_hi _ (1#1) rfl).trans ((ex_hi _ (c) rfl).trans ((ex_hi _ (q) rfl).trans ((ex_hi _ (r) rfl).trans ((ex_hi _ (m) rfl).trans ((ex_hi _ (b) rfl).trans ((ex_lo _ (a) rfl).trans (ex_all _))))))))))
  have f11_5 : fld v0 11 5 = b :=
    (congrArg (fld · 11 5) he).trans ((ex_hi _ (4#4) rfl).trans ((ex_hi _ (z) rfl).trans ((ex_hi _ (1#1) rfl).trans ((ex_hi _ (c) rfl).trans ((ex_hi _ (q) rfl).trans ((ex_hi _ (r) rfl).trans ((ex_hi _ (m) rfl).trans ((ex_lo _ (b) rfl).trans (ex_all _)))))))))
  have f10_1 : fld v0 10 1 = m :=
    (congrArg (fld · 10 1) he).trans ((ex_hi _ (4#4) rfl).trans ((ex_hi _ (z) rfl).trans ((ex_hi _ (1#1) rfl).trans ((ex_hi _ (c) rfl).trans ((ex_hi _ (q) rfl).trans ((ex_hi _ (r) rfl).trans ((ex_lo _ (m) rfl).trans (ex_all _))))))))
  have f9_1 : fld v0 9 1 = r :=
    (congrArg (fld · 9 1) he).trans ((ex_hi _ (4#4) rfl).trans ((ex_hi _ (z) rfl).trans ((ex_hi _ (1#1) rfl).trans ((ex_hi _ (c) rfl).trans ((ex_hi _ (q) rfl).trans ((ex_lo _ (r) rfl).trans (ex_all _)))))))
  have f8_1 : fld v0 8 1 = q :=
    (congrArg (fld · 8 1) he).trans ((ex_hi _ (4#4) rfl).trans ((ex_hi _ (z) rfl).trans ((ex_hi _ (1#1) rfl).trans ((ex_hi _ (c) rfl).trans ((ex_lo _ (q) rfl).trans (ex_all _))))))
  have f6_2 : fld v0 6 2 = c :=
    (congrArg (fld · 6 2) he).trans ((ex_hi _ (4#4) rfl).trans ((ex_hi _ (z) rfl).trans ((ex_hi _ (1#1) rfl).trans ((ex_lo _ (c) rfl).trans (ex_all _)))))
  have f5_1 : fld v0 5 1 = 1#1 :=
    (congrArg (fld · 5 1) he).trans ((ex_hi _ (4#4) rfl).trans ((ex_hi _ (z) rfl).trans ((ex_lo _ (1#1) rfl).trans (ex_all _))))
  have f4_1 : fld v0 4 1 = z :=
    (congrArg (fld · 4 1) he).trans ((ex_hi _ (4#4) rfl).trans ((ex_lo _ (z) rfl).trans (ex_all _)))
  have f0_4 : fld v0 0 4 = 4#4 :=
    (congrArg (fld · 0 4) he).trans ((ex_lo _ (4#4) rfl).trans (ex_all _))
  rw [family_Amo f26_6, decodeAmo]
  simp only [f21_5, f16_5, f11_5, f10_1, f9_1, f8_1, f6_2, f5_1, f4_1, f0_4]
  exact needs_of hw

theorem Encode.amoSmax (d : BitVec 5) (a : BitVec 5) (b : BitVec 5) (m : BitVec 1) (r : BitVec 1) (q : BitVec 1) (c : BitVec 2) (z : BitVec 1) : Encode.Statement (.amoSmax d a b m r q c z) := by
  intro (hw : ((c != 3#2)) = true)
  apply decode_of
  have he : encode (.amoSmax d a b m r q c z) = 0x0F#6 ++ d ++ a ++ b ++ m ++ r ++ q ++ c ++ 1#1 ++ z ++ 5#4 := rfl
  generalize encode (.amoSmax d a b m r q c z) = v0 at he
  have f26_6 : fld v0 26 6 = 15#6 :=
    (congrArg (fld · 26 6) he).trans ((ex_hi _ (5#4) rfl).trans ((ex_hi _ (z) rfl).trans ((ex_hi _ (1#1) rfl).trans ((ex_hi _ (c) rfl).trans ((ex_hi _ (q) rfl).trans ((ex_hi _ (r) rfl).trans ((ex_hi _ (m) rfl).trans ((ex_hi _ (b) rfl).trans ((ex_hi _ (a) rfl).trans ((ex_hi _ (d) rfl).trans (ex_all _)))))))))))
  have f21_5 : fld v0 21 5 = d :=
    (congrArg (fld · 21 5) he).trans ((ex_hi _ (5#4) rfl).trans ((ex_hi _ (z) rfl).trans ((ex_hi _ (1#1) rfl).trans ((ex_hi _ (c) rfl).trans ((ex_hi _ (q) rfl).trans ((ex_hi _ (r) rfl).trans ((ex_hi _ (m) rfl).trans ((ex_hi _ (b) rfl).trans ((ex_hi _ (a) rfl).trans ((ex_lo _ (d) rfl).trans (ex_all _)))))))))))
  have f16_5 : fld v0 16 5 = a :=
    (congrArg (fld · 16 5) he).trans ((ex_hi _ (5#4) rfl).trans ((ex_hi _ (z) rfl).trans ((ex_hi _ (1#1) rfl).trans ((ex_hi _ (c) rfl).trans ((ex_hi _ (q) rfl).trans ((ex_hi _ (r) rfl).trans ((ex_hi _ (m) rfl).trans ((ex_hi _ (b) rfl).trans ((ex_lo _ (a) rfl).trans (ex_all _))))))))))
  have f11_5 : fld v0 11 5 = b :=
    (congrArg (fld · 11 5) he).trans ((ex_hi _ (5#4) rfl).trans ((ex_hi _ (z) rfl).trans ((ex_hi _ (1#1) rfl).trans ((ex_hi _ (c) rfl).trans ((ex_hi _ (q) rfl).trans ((ex_hi _ (r) rfl).trans ((ex_hi _ (m) rfl).trans ((ex_lo _ (b) rfl).trans (ex_all _)))))))))
  have f10_1 : fld v0 10 1 = m :=
    (congrArg (fld · 10 1) he).trans ((ex_hi _ (5#4) rfl).trans ((ex_hi _ (z) rfl).trans ((ex_hi _ (1#1) rfl).trans ((ex_hi _ (c) rfl).trans ((ex_hi _ (q) rfl).trans ((ex_hi _ (r) rfl).trans ((ex_lo _ (m) rfl).trans (ex_all _))))))))
  have f9_1 : fld v0 9 1 = r :=
    (congrArg (fld · 9 1) he).trans ((ex_hi _ (5#4) rfl).trans ((ex_hi _ (z) rfl).trans ((ex_hi _ (1#1) rfl).trans ((ex_hi _ (c) rfl).trans ((ex_hi _ (q) rfl).trans ((ex_lo _ (r) rfl).trans (ex_all _)))))))
  have f8_1 : fld v0 8 1 = q :=
    (congrArg (fld · 8 1) he).trans ((ex_hi _ (5#4) rfl).trans ((ex_hi _ (z) rfl).trans ((ex_hi _ (1#1) rfl).trans ((ex_hi _ (c) rfl).trans ((ex_lo _ (q) rfl).trans (ex_all _))))))
  have f6_2 : fld v0 6 2 = c :=
    (congrArg (fld · 6 2) he).trans ((ex_hi _ (5#4) rfl).trans ((ex_hi _ (z) rfl).trans ((ex_hi _ (1#1) rfl).trans ((ex_lo _ (c) rfl).trans (ex_all _)))))
  have f5_1 : fld v0 5 1 = 1#1 :=
    (congrArg (fld · 5 1) he).trans ((ex_hi _ (5#4) rfl).trans ((ex_hi _ (z) rfl).trans ((ex_lo _ (1#1) rfl).trans (ex_all _))))
  have f4_1 : fld v0 4 1 = z :=
    (congrArg (fld · 4 1) he).trans ((ex_hi _ (5#4) rfl).trans ((ex_lo _ (z) rfl).trans (ex_all _)))
  have f0_4 : fld v0 0 4 = 5#4 :=
    (congrArg (fld · 0 4) he).trans ((ex_lo _ (5#4) rfl).trans (ex_all _))
  rw [family_Amo f26_6, decodeAmo]
  simp only [f21_5, f16_5, f11_5, f10_1, f9_1, f8_1, f6_2, f5_1, f4_1, f0_4]
  exact needs_of hw

theorem Encode.amoUmin (d : BitVec 5) (a : BitVec 5) (b : BitVec 5) (m : BitVec 1) (r : BitVec 1) (q : BitVec 1) (c : BitVec 2) (z : BitVec 1) : Encode.Statement (.amoUmin d a b m r q c z) := by
  intro (hw : ((c != 3#2)) = true)
  apply decode_of
  have he : encode (.amoUmin d a b m r q c z) = 0x0F#6 ++ d ++ a ++ b ++ m ++ r ++ q ++ c ++ 1#1 ++ z ++ 6#4 := rfl
  generalize encode (.amoUmin d a b m r q c z) = v0 at he
  have f26_6 : fld v0 26 6 = 15#6 :=
    (congrArg (fld · 26 6) he).trans ((ex_hi _ (6#4) rfl).trans ((ex_hi _ (z) rfl).trans ((ex_hi _ (1#1) rfl).trans ((ex_hi _ (c) rfl).trans ((ex_hi _ (q) rfl).trans ((ex_hi _ (r) rfl).trans ((ex_hi _ (m) rfl).trans ((ex_hi _ (b) rfl).trans ((ex_hi _ (a) rfl).trans ((ex_hi _ (d) rfl).trans (ex_all _)))))))))))
  have f21_5 : fld v0 21 5 = d :=
    (congrArg (fld · 21 5) he).trans ((ex_hi _ (6#4) rfl).trans ((ex_hi _ (z) rfl).trans ((ex_hi _ (1#1) rfl).trans ((ex_hi _ (c) rfl).trans ((ex_hi _ (q) rfl).trans ((ex_hi _ (r) rfl).trans ((ex_hi _ (m) rfl).trans ((ex_hi _ (b) rfl).trans ((ex_hi _ (a) rfl).trans ((ex_lo _ (d) rfl).trans (ex_all _)))))))))))
  have f16_5 : fld v0 16 5 = a :=
    (congrArg (fld · 16 5) he).trans ((ex_hi _ (6#4) rfl).trans ((ex_hi _ (z) rfl).trans ((ex_hi _ (1#1) rfl).trans ((ex_hi _ (c) rfl).trans ((ex_hi _ (q) rfl).trans ((ex_hi _ (r) rfl).trans ((ex_hi _ (m) rfl).trans ((ex_hi _ (b) rfl).trans ((ex_lo _ (a) rfl).trans (ex_all _))))))))))
  have f11_5 : fld v0 11 5 = b :=
    (congrArg (fld · 11 5) he).trans ((ex_hi _ (6#4) rfl).trans ((ex_hi _ (z) rfl).trans ((ex_hi _ (1#1) rfl).trans ((ex_hi _ (c) rfl).trans ((ex_hi _ (q) rfl).trans ((ex_hi _ (r) rfl).trans ((ex_hi _ (m) rfl).trans ((ex_lo _ (b) rfl).trans (ex_all _)))))))))
  have f10_1 : fld v0 10 1 = m :=
    (congrArg (fld · 10 1) he).trans ((ex_hi _ (6#4) rfl).trans ((ex_hi _ (z) rfl).trans ((ex_hi _ (1#1) rfl).trans ((ex_hi _ (c) rfl).trans ((ex_hi _ (q) rfl).trans ((ex_hi _ (r) rfl).trans ((ex_lo _ (m) rfl).trans (ex_all _))))))))
  have f9_1 : fld v0 9 1 = r :=
    (congrArg (fld · 9 1) he).trans ((ex_hi _ (6#4) rfl).trans ((ex_hi _ (z) rfl).trans ((ex_hi _ (1#1) rfl).trans ((ex_hi _ (c) rfl).trans ((ex_hi _ (q) rfl).trans ((ex_lo _ (r) rfl).trans (ex_all _)))))))
  have f8_1 : fld v0 8 1 = q :=
    (congrArg (fld · 8 1) he).trans ((ex_hi _ (6#4) rfl).trans ((ex_hi _ (z) rfl).trans ((ex_hi _ (1#1) rfl).trans ((ex_hi _ (c) rfl).trans ((ex_lo _ (q) rfl).trans (ex_all _))))))
  have f6_2 : fld v0 6 2 = c :=
    (congrArg (fld · 6 2) he).trans ((ex_hi _ (6#4) rfl).trans ((ex_hi _ (z) rfl).trans ((ex_hi _ (1#1) rfl).trans ((ex_lo _ (c) rfl).trans (ex_all _)))))
  have f5_1 : fld v0 5 1 = 1#1 :=
    (congrArg (fld · 5 1) he).trans ((ex_hi _ (6#4) rfl).trans ((ex_hi _ (z) rfl).trans ((ex_lo _ (1#1) rfl).trans (ex_all _))))
  have f4_1 : fld v0 4 1 = z :=
    (congrArg (fld · 4 1) he).trans ((ex_hi _ (6#4) rfl).trans ((ex_lo _ (z) rfl).trans (ex_all _)))
  have f0_4 : fld v0 0 4 = 6#4 :=
    (congrArg (fld · 0 4) he).trans ((ex_lo _ (6#4) rfl).trans (ex_all _))
  rw [family_Amo f26_6, decodeAmo]
  simp only [f21_5, f16_5, f11_5, f10_1, f9_1, f8_1, f6_2, f5_1, f4_1, f0_4]
  exact needs_of hw

theorem Encode.amoUmax (d : BitVec 5) (a : BitVec 5) (b : BitVec 5) (m : BitVec 1) (r : BitVec 1) (q : BitVec 1) (c : BitVec 2) (z : BitVec 1) : Encode.Statement (.amoUmax d a b m r q c z) := by
  intro (hw : ((c != 3#2)) = true)
  apply decode_of
  have he : encode (.amoUmax d a b m r q c z) = 0x0F#6 ++ d ++ a ++ b ++ m ++ r ++ q ++ c ++ 1#1 ++ z ++ 7#4 := rfl
  generalize encode (.amoUmax d a b m r q c z) = v0 at he
  have f26_6 : fld v0 26 6 = 15#6 :=
    (congrArg (fld · 26 6) he).trans ((ex_hi _ (7#4) rfl).trans ((ex_hi _ (z) rfl).trans ((ex_hi _ (1#1) rfl).trans ((ex_hi _ (c) rfl).trans ((ex_hi _ (q) rfl).trans ((ex_hi _ (r) rfl).trans ((ex_hi _ (m) rfl).trans ((ex_hi _ (b) rfl).trans ((ex_hi _ (a) rfl).trans ((ex_hi _ (d) rfl).trans (ex_all _)))))))))))
  have f21_5 : fld v0 21 5 = d :=
    (congrArg (fld · 21 5) he).trans ((ex_hi _ (7#4) rfl).trans ((ex_hi _ (z) rfl).trans ((ex_hi _ (1#1) rfl).trans ((ex_hi _ (c) rfl).trans ((ex_hi _ (q) rfl).trans ((ex_hi _ (r) rfl).trans ((ex_hi _ (m) rfl).trans ((ex_hi _ (b) rfl).trans ((ex_hi _ (a) rfl).trans ((ex_lo _ (d) rfl).trans (ex_all _)))))))))))
  have f16_5 : fld v0 16 5 = a :=
    (congrArg (fld · 16 5) he).trans ((ex_hi _ (7#4) rfl).trans ((ex_hi _ (z) rfl).trans ((ex_hi _ (1#1) rfl).trans ((ex_hi _ (c) rfl).trans ((ex_hi _ (q) rfl).trans ((ex_hi _ (r) rfl).trans ((ex_hi _ (m) rfl).trans ((ex_hi _ (b) rfl).trans ((ex_lo _ (a) rfl).trans (ex_all _))))))))))
  have f11_5 : fld v0 11 5 = b :=
    (congrArg (fld · 11 5) he).trans ((ex_hi _ (7#4) rfl).trans ((ex_hi _ (z) rfl).trans ((ex_hi _ (1#1) rfl).trans ((ex_hi _ (c) rfl).trans ((ex_hi _ (q) rfl).trans ((ex_hi _ (r) rfl).trans ((ex_hi _ (m) rfl).trans ((ex_lo _ (b) rfl).trans (ex_all _)))))))))
  have f10_1 : fld v0 10 1 = m :=
    (congrArg (fld · 10 1) he).trans ((ex_hi _ (7#4) rfl).trans ((ex_hi _ (z) rfl).trans ((ex_hi _ (1#1) rfl).trans ((ex_hi _ (c) rfl).trans ((ex_hi _ (q) rfl).trans ((ex_hi _ (r) rfl).trans ((ex_lo _ (m) rfl).trans (ex_all _))))))))
  have f9_1 : fld v0 9 1 = r :=
    (congrArg (fld · 9 1) he).trans ((ex_hi _ (7#4) rfl).trans ((ex_hi _ (z) rfl).trans ((ex_hi _ (1#1) rfl).trans ((ex_hi _ (c) rfl).trans ((ex_hi _ (q) rfl).trans ((ex_lo _ (r) rfl).trans (ex_all _)))))))
  have f8_1 : fld v0 8 1 = q :=
    (congrArg (fld · 8 1) he).trans ((ex_hi _ (7#4) rfl).trans ((ex_hi _ (z) rfl).trans ((ex_hi _ (1#1) rfl).trans ((ex_hi _ (c) rfl).trans ((ex_lo _ (q) rfl).trans (ex_all _))))))
  have f6_2 : fld v0 6 2 = c :=
    (congrArg (fld · 6 2) he).trans ((ex_hi _ (7#4) rfl).trans ((ex_hi _ (z) rfl).trans ((ex_hi _ (1#1) rfl).trans ((ex_lo _ (c) rfl).trans (ex_all _)))))
  have f5_1 : fld v0 5 1 = 1#1 :=
    (congrArg (fld · 5 1) he).trans ((ex_hi _ (7#4) rfl).trans ((ex_hi _ (z) rfl).trans ((ex_lo _ (1#1) rfl).trans (ex_all _))))
  have f4_1 : fld v0 4 1 = z :=
    (congrArg (fld · 4 1) he).trans ((ex_hi _ (7#4) rfl).trans ((ex_lo _ (z) rfl).trans (ex_all _)))
  have f0_4 : fld v0 0 4 = 7#4 :=
    (congrArg (fld · 0 4) he).trans ((ex_lo _ (7#4) rfl).trans (ex_all _))
  rw [family_Amo f26_6, decodeAmo]
  simp only [f21_5, f16_5, f11_5, f10_1, f9_1, f8_1, f6_2, f5_1, f4_1, f0_4]
  exact needs_of hw

theorem Encode.amoSwap (d : BitVec 5) (a : BitVec 5) (b : BitVec 5) (r : BitVec 1) (q : BitVec 1) (c : BitVec 2) (z : BitVec 1) : Encode.Statement (.amoSwap d a b r q c z) := by
  intro (hw : ((c != 3#2)) = true)
  apply decode_of
  have he : encode (.amoSwap d a b r q c z) = 0x0F#6 ++ d ++ a ++ b ++ 0#1 ++ r ++ q ++ c ++ 1#1 ++ z ++ 8#4 := rfl
  generalize encode (.amoSwap d a b r q c z) = v0 at he
  have f26_6 : fld v0 26 6 = 15#6 :=
    (congrArg (fld · 26 6) he).trans ((ex_hi _ (8#4) rfl).trans ((ex_hi _ (z) rfl).trans ((ex_hi _ (1#1) rfl).trans ((ex_hi _ (c) rfl).trans ((ex_hi _ (q) rfl).trans ((ex_hi _ (r) rfl).trans ((ex_hi _ (0#1) rfl).trans ((ex_hi _ (b) rfl).trans ((ex_hi _ (a) rfl).trans ((ex_hi _ (d) rfl).trans (ex_all _)))))))))))
  have f21_5 : fld v0 21 5 = d :=
    (congrArg (fld · 21 5) he).trans ((ex_hi _ (8#4) rfl).trans ((ex_hi _ (z) rfl).trans ((ex_hi _ (1#1) rfl).trans ((ex_hi _ (c) rfl).trans ((ex_hi _ (q) rfl).trans ((ex_hi _ (r) rfl).trans ((ex_hi _ (0#1) rfl).trans ((ex_hi _ (b) rfl).trans ((ex_hi _ (a) rfl).trans ((ex_lo _ (d) rfl).trans (ex_all _)))))))))))
  have f16_5 : fld v0 16 5 = a :=
    (congrArg (fld · 16 5) he).trans ((ex_hi _ (8#4) rfl).trans ((ex_hi _ (z) rfl).trans ((ex_hi _ (1#1) rfl).trans ((ex_hi _ (c) rfl).trans ((ex_hi _ (q) rfl).trans ((ex_hi _ (r) rfl).trans ((ex_hi _ (0#1) rfl).trans ((ex_hi _ (b) rfl).trans ((ex_lo _ (a) rfl).trans (ex_all _))))))))))
  have f11_5 : fld v0 11 5 = b :=
    (congrArg (fld · 11 5) he).trans ((ex_hi _ (8#4) rfl).trans ((ex_hi _ (z) rfl).trans ((ex_hi _ (1#1) rfl).trans ((ex_hi _ (c) rfl).trans ((ex_hi _ (q) rfl).trans ((ex_hi _ (r) rfl).trans ((ex_hi _ (0#1) rfl).trans ((ex_lo _ (b) rfl).trans (ex_all _)))))))))
  have f10_1 : fld v0 10 1 = 0#1 :=
    (congrArg (fld · 10 1) he).trans ((ex_hi _ (8#4) rfl).trans ((ex_hi _ (z) rfl).trans ((ex_hi _ (1#1) rfl).trans ((ex_hi _ (c) rfl).trans ((ex_hi _ (q) rfl).trans ((ex_hi _ (r) rfl).trans ((ex_lo _ (0#1) rfl).trans (ex_all _))))))))
  have f9_1 : fld v0 9 1 = r :=
    (congrArg (fld · 9 1) he).trans ((ex_hi _ (8#4) rfl).trans ((ex_hi _ (z) rfl).trans ((ex_hi _ (1#1) rfl).trans ((ex_hi _ (c) rfl).trans ((ex_hi _ (q) rfl).trans ((ex_lo _ (r) rfl).trans (ex_all _)))))))
  have f8_1 : fld v0 8 1 = q :=
    (congrArg (fld · 8 1) he).trans ((ex_hi _ (8#4) rfl).trans ((ex_hi _ (z) rfl).trans ((ex_hi _ (1#1) rfl).trans ((ex_hi _ (c) rfl).trans ((ex_lo _ (q) rfl).trans (ex_all _))))))
  have f6_2 : fld v0 6 2 = c :=
    (congrArg (fld · 6 2) he).trans ((ex_hi _ (8#4) rfl).trans ((ex_hi _ (z) rfl).trans ((ex_hi _ (1#1) rfl).trans ((ex_lo _ (c) rfl).trans (ex_all _)))))
  have f5_1 : fld v0 5 1 = 1#1 :=
    (congrArg (fld · 5 1) he).trans ((ex_hi _ (8#4) rfl).trans ((ex_hi _ (z) rfl).trans ((ex_lo _ (1#1) rfl).trans (ex_all _))))
  have f4_1 : fld v0 4 1 = z :=
    (congrArg (fld · 4 1) he).trans ((ex_hi _ (8#4) rfl).trans ((ex_lo _ (z) rfl).trans (ex_all _)))
  have f0_4 : fld v0 0 4 = 8#4 :=
    (congrArg (fld · 0 4) he).trans ((ex_lo _ (8#4) rfl).trans (ex_all _))
  rw [family_Amo f26_6, decodeAmo]
  simp only [f21_5, f16_5, f11_5, f10_1, f9_1, f8_1, f6_2, f5_1, f4_1, f0_4]
  exact needs_of hw

theorem Encode.amoFadd (d : BitVec 5) (a : BitVec 5) (b : BitVec 5) (m : BitVec 1) (r : BitVec 1) (q : BitVec 1) (c : BitVec 2) : Encode.Statement (.amoFadd d a b m r q c) := by
  intro (hw : ((c != 3#2)) = true)
  apply decode_of
  have he : encode (.amoFadd d a b m r q c) = 0x0F#6 ++ d ++ a ++ b ++ m ++ r ++ q ++ c ++ 41#6 := rfl
  generalize encode (.amoFadd d a b m r q c) = v0 at he
  have f26_6 : fld v0 26 6 = 15#6 :=
    (congrArg (fld · 26 6) he).trans ((ex_hi _ (41#6) rfl).trans ((ex_hi _ (c) rfl).trans ((ex_hi _ (q) rfl).trans ((ex_hi _ (r) rfl).trans ((ex_hi _ (m) rfl).trans ((ex_hi _ (b) rfl).trans ((ex_hi _ (a) rfl).trans ((ex_hi _ (d) rfl).trans (ex_all _)))))))))
  have f21_5 : fld v0 21 5 = d :=
    (congrArg (fld · 21 5) he).trans ((ex_hi _ (41#6) rfl).trans ((ex_hi _ (c) rfl).trans ((ex_hi _ (q) rfl).trans ((ex_hi _ (r) rfl).trans ((ex_hi _ (m) rfl).trans ((ex_hi _ (b) rfl).trans ((ex_hi _ (a) rfl).trans ((ex_lo _ (d) rfl).trans (ex_all _)))))))))
  have f16_5 : fld v0 16 5 = a :=
    (congrArg (fld · 16 5) he).trans ((ex_hi _ (41#6) rfl).trans ((ex_hi _ (c) rfl).trans ((ex_hi _ (q) rfl).trans ((ex_hi _ (r) rfl).trans ((ex_hi _ (m) rfl).trans ((ex_hi _ (b) rfl).trans ((ex_lo _ (a) rfl).trans (ex_all _))))))))
  have f11_5 : fld v0 11 5 = b :=
    (congrArg (fld · 11 5) he).trans ((ex_hi _ (41#6) rfl).trans ((ex_hi _ (c) rfl).trans ((ex_hi _ (q) rfl).trans ((ex_hi _ (r) rfl).trans ((ex_hi _ (m) rfl).trans ((ex_lo _ (b) rfl).trans (ex_all _)))))))
  have f10_1 : fld v0 10 1 = m :=
    (congrArg (fld · 10 1) he).trans ((ex_hi _ (41#6) rfl).trans ((ex_hi _ (c) rfl).trans ((ex_hi _ (q) rfl).trans ((ex_hi _ (r) rfl).trans ((ex_lo _ (m) rfl).trans (ex_all _))))))
  have f9_1 : fld v0 9 1 = r :=
    (congrArg (fld · 9 1) he).trans ((ex_hi _ (41#6) rfl).trans ((ex_hi _ (c) rfl).trans ((ex_hi _ (q) rfl).trans ((ex_lo _ (r) rfl).trans (ex_all _)))))
  have f8_1 : fld v0 8 1 = q :=
    (congrArg (fld · 8 1) he).trans ((ex_hi _ (41#6) rfl).trans ((ex_hi _ (c) rfl).trans ((ex_lo _ (q) rfl).trans (ex_all _))))
  have f6_2 : fld v0 6 2 = c :=
    (congrArg (fld · 6 2) he).trans ((ex_hi _ (41#6) rfl).trans ((ex_lo _ (c) rfl).trans (ex_all _)))
  have f4_2 : fld v0 4 2 = 2#2 :=
    (congrArg (fld · 4 2) he).trans ((ex_lo _ (41#6) rfl).trans (rfl))
  have f0_4 : fld v0 0 4 = 9#4 :=
    (congrArg (fld · 0 4) he).trans ((ex_lo _ (41#6) rfl).trans (rfl))
  rw [family_Amo f26_6, decodeAmo]
  simp only [f21_5, f16_5, f11_5, f10_1, f9_1, f8_1, f6_2, f4_2, f0_4]
  exact needs_of hw

theorem Encode.cas (d : BitVec 5) (a : BitVec 5) (b : BitVec 5) (r : BitVec 1) (q : BitVec 1) (c : BitVec 2) (z : BitVec 1) : Encode.Statement (.cas d a b r q c z) := by
  intro (hw : ((c != 3#2)) = true)
  apply decode_of
  have he : encode (.cas d a b r q c z) = 0x10#6 ++ d ++ a ++ b ++ 0#1 ++ r ++ q ++ c ++ 1#1 ++ z ++ 0#4 := rfl
  generalize encode (.cas d a b r q c z) = v0 at he
  have f26_6 : fld v0 26 6 = 16#6 :=
    (congrArg (fld · 26 6) he).trans ((ex_hi _ (0#4) rfl).trans ((ex_hi _ (z) rfl).trans ((ex_hi _ (1#1) rfl).trans ((ex_hi _ (c) rfl).trans ((ex_hi _ (q) rfl).trans ((ex_hi _ (r) rfl).trans ((ex_hi _ (0#1) rfl).trans ((ex_hi _ (b) rfl).trans ((ex_hi _ (a) rfl).trans ((ex_hi _ (d) rfl).trans (ex_all _)))))))))))
  have f21_5 : fld v0 21 5 = d :=
    (congrArg (fld · 21 5) he).trans ((ex_hi _ (0#4) rfl).trans ((ex_hi _ (z) rfl).trans ((ex_hi _ (1#1) rfl).trans ((ex_hi _ (c) rfl).trans ((ex_hi _ (q) rfl).trans ((ex_hi _ (r) rfl).trans ((ex_hi _ (0#1) rfl).trans ((ex_hi _ (b) rfl).trans ((ex_hi _ (a) rfl).trans ((ex_lo _ (d) rfl).trans (ex_all _)))))))))))
  have f16_5 : fld v0 16 5 = a :=
    (congrArg (fld · 16 5) he).trans ((ex_hi _ (0#4) rfl).trans ((ex_hi _ (z) rfl).trans ((ex_hi _ (1#1) rfl).trans ((ex_hi _ (c) rfl).trans ((ex_hi _ (q) rfl).trans ((ex_hi _ (r) rfl).trans ((ex_hi _ (0#1) rfl).trans ((ex_hi _ (b) rfl).trans ((ex_lo _ (a) rfl).trans (ex_all _))))))))))
  have f11_5 : fld v0 11 5 = b :=
    (congrArg (fld · 11 5) he).trans ((ex_hi _ (0#4) rfl).trans ((ex_hi _ (z) rfl).trans ((ex_hi _ (1#1) rfl).trans ((ex_hi _ (c) rfl).trans ((ex_hi _ (q) rfl).trans ((ex_hi _ (r) rfl).trans ((ex_hi _ (0#1) rfl).trans ((ex_lo _ (b) rfl).trans (ex_all _)))))))))
  have f10_1 : fld v0 10 1 = 0#1 :=
    (congrArg (fld · 10 1) he).trans ((ex_hi _ (0#4) rfl).trans ((ex_hi _ (z) rfl).trans ((ex_hi _ (1#1) rfl).trans ((ex_hi _ (c) rfl).trans ((ex_hi _ (q) rfl).trans ((ex_hi _ (r) rfl).trans ((ex_lo _ (0#1) rfl).trans (ex_all _))))))))
  have f9_1 : fld v0 9 1 = r :=
    (congrArg (fld · 9 1) he).trans ((ex_hi _ (0#4) rfl).trans ((ex_hi _ (z) rfl).trans ((ex_hi _ (1#1) rfl).trans ((ex_hi _ (c) rfl).trans ((ex_hi _ (q) rfl).trans ((ex_lo _ (r) rfl).trans (ex_all _)))))))
  have f8_1 : fld v0 8 1 = q :=
    (congrArg (fld · 8 1) he).trans ((ex_hi _ (0#4) rfl).trans ((ex_hi _ (z) rfl).trans ((ex_hi _ (1#1) rfl).trans ((ex_hi _ (c) rfl).trans ((ex_lo _ (q) rfl).trans (ex_all _))))))
  have f6_2 : fld v0 6 2 = c :=
    (congrArg (fld · 6 2) he).trans ((ex_hi _ (0#4) rfl).trans ((ex_hi _ (z) rfl).trans ((ex_hi _ (1#1) rfl).trans ((ex_lo _ (c) rfl).trans (ex_all _)))))
  have f5_1 : fld v0 5 1 = 1#1 :=
    (congrArg (fld · 5 1) he).trans ((ex_hi _ (0#4) rfl).trans ((ex_hi _ (z) rfl).trans ((ex_lo _ (1#1) rfl).trans (ex_all _))))
  have f4_1 : fld v0 4 1 = z :=
    (congrArg (fld · 4 1) he).trans ((ex_hi _ (0#4) rfl).trans ((ex_lo _ (z) rfl).trans (ex_all _)))
  have f0_4 : fld v0 0 4 = 0#4 :=
    (congrArg (fld · 0 4) he).trans ((ex_lo _ (0#4) rfl).trans (ex_all _))
  rw [family_Cas f26_6, decodeCas]
  simp only [f21_5, f16_5, f11_5, f10_1, f9_1, f8_1, f6_2, f5_1, f4_1, f0_4]
  exact needs_of hw

theorem Encode.stn (d : BitVec 5) (a : BitVec 5) (b : BitVec 5) (c : BitVec 2) (z : BitVec 1) : Encode.Statement (.stn d a b c z) := by
  intro (hw : ((c != 3#2)) = true)
  apply decode_of
  have he : encode (.stn d a b c z) = 0x11#6 ++ d ++ a ++ b ++ 0#5 ++ c ++ 1#3 ++ z := rfl
  generalize encode (.stn d a b c z) = v0 at he
  have f26_6 : fld v0 26 6 = 17#6 :=
    (congrArg (fld · 26 6) he).trans ((ex_hi _ (z) rfl).trans ((ex_hi _ (1#3) rfl).trans ((ex_hi _ (c) rfl).trans ((ex_hi _ (0#5) rfl).trans ((ex_hi _ (b) rfl).trans ((ex_hi _ (a) rfl).trans ((ex_hi _ (d) rfl).trans (ex_all _))))))))
  have f21_5 : fld v0 21 5 = d :=
    (congrArg (fld · 21 5) he).trans ((ex_hi _ (z) rfl).trans ((ex_hi _ (1#3) rfl).trans ((ex_hi _ (c) rfl).trans ((ex_hi _ (0#5) rfl).trans ((ex_hi _ (b) rfl).trans ((ex_hi _ (a) rfl).trans ((ex_lo _ (d) rfl).trans (ex_all _))))))))
  have f16_5 : fld v0 16 5 = a :=
    (congrArg (fld · 16 5) he).trans ((ex_hi _ (z) rfl).trans ((ex_hi _ (1#3) rfl).trans ((ex_hi _ (c) rfl).trans ((ex_hi _ (0#5) rfl).trans ((ex_hi _ (b) rfl).trans ((ex_lo _ (a) rfl).trans (ex_all _)))))))
  have f11_5 : fld v0 11 5 = b :=
    (congrArg (fld · 11 5) he).trans ((ex_hi _ (z) rfl).trans ((ex_hi _ (1#3) rfl).trans ((ex_hi _ (c) rfl).trans ((ex_hi _ (0#5) rfl).trans ((ex_lo _ (b) rfl).trans (ex_all _))))))
  have f6_5 : fld v0 6 5 = 0#5 :=
    (congrArg (fld · 6 5) he).trans ((ex_hi _ (z) rfl).trans ((ex_hi _ (1#3) rfl).trans ((ex_hi _ (c) rfl).trans ((ex_lo _ (0#5) rfl).trans (ex_all _)))))
  have f4_2 : fld v0 4 2 = c :=
    (congrArg (fld · 4 2) he).trans ((ex_hi _ (z) rfl).trans ((ex_hi _ (1#3) rfl).trans ((ex_lo _ (c) rfl).trans (ex_all _))))
  have f2_2 : fld v0 2 2 = 0#2 :=
    (congrArg (fld · 2 2) he).trans ((ex_hi _ (z) rfl).trans ((ex_lo _ (1#3) rfl).trans (rfl)))
  have f1_1 : fld v0 1 1 = 1#1 :=
    (congrArg (fld · 1 1) he).trans ((ex_hi _ (z) rfl).trans ((ex_lo _ (1#3) rfl).trans (rfl)))
  have f0_1 : fld v0 0 1 = z :=
    (congrArg (fld · 0 1) he).trans ((ex_lo _ (z) rfl).trans (ex_all _))
  rw [family_Stn f26_6, decodeStn]
  simp only [f21_5, f16_5, f11_5, f6_5, f4_2, f2_2, f1_1, f0_1]
  exact needs_of hw

theorem Encode.bcEq (a : BitVec 5) (b : BitVec 5) (o : BitVec 13) : Encode.Statement (.bcEq a b o) := by
  intro _
  apply decode_of
  have he : encode (.bcEq a b o) = 0x12#6 ++ 0#3 ++ a ++ b ++ o := rfl
  generalize encode (.bcEq a b o) = v0 at he
  have f26_6 : fld v0 26 6 = 18#6 :=
    (congrArg (fld · 26 6) he).trans ((ex_hi _ (o) rfl).trans ((ex_hi _ (b) rfl).trans ((ex_hi _ (a) rfl).trans ((ex_hi _ (0#3) rfl).trans (ex_all _)))))
  have f23_3 : fld v0 23 3 = 0#3 :=
    (congrArg (fld · 23 3) he).trans ((ex_hi _ (o) rfl).trans ((ex_hi _ (b) rfl).trans ((ex_hi _ (a) rfl).trans ((ex_lo _ (0#3) rfl).trans (ex_all _)))))
  have f18_5 : fld v0 18 5 = a :=
    (congrArg (fld · 18 5) he).trans ((ex_hi _ (o) rfl).trans ((ex_hi _ (b) rfl).trans ((ex_lo _ (a) rfl).trans (ex_all _))))
  have f13_5 : fld v0 13 5 = b :=
    (congrArg (fld · 13 5) he).trans ((ex_hi _ (o) rfl).trans ((ex_lo _ (b) rfl).trans (ex_all _)))
  have f0_13 : fld v0 0 13 = o :=
    (congrArg (fld · 0 13) he).trans ((ex_lo _ (o) rfl).trans (ex_all _))
  rw [family_Bc f26_6, decodeBc]
  simp only [f23_3, f18_5, f13_5, f0_13]
  exact rfl

theorem Encode.bcNe (a : BitVec 5) (b : BitVec 5) (o : BitVec 13) : Encode.Statement (.bcNe a b o) := by
  intro _
  apply decode_of
  have he : encode (.bcNe a b o) = 0x12#6 ++ 1#3 ++ a ++ b ++ o := rfl
  generalize encode (.bcNe a b o) = v0 at he
  have f26_6 : fld v0 26 6 = 18#6 :=
    (congrArg (fld · 26 6) he).trans ((ex_hi _ (o) rfl).trans ((ex_hi _ (b) rfl).trans ((ex_hi _ (a) rfl).trans ((ex_hi _ (1#3) rfl).trans (ex_all _)))))
  have f23_3 : fld v0 23 3 = 1#3 :=
    (congrArg (fld · 23 3) he).trans ((ex_hi _ (o) rfl).trans ((ex_hi _ (b) rfl).trans ((ex_hi _ (a) rfl).trans ((ex_lo _ (1#3) rfl).trans (ex_all _)))))
  have f18_5 : fld v0 18 5 = a :=
    (congrArg (fld · 18 5) he).trans ((ex_hi _ (o) rfl).trans ((ex_hi _ (b) rfl).trans ((ex_lo _ (a) rfl).trans (ex_all _))))
  have f13_5 : fld v0 13 5 = b :=
    (congrArg (fld · 13 5) he).trans ((ex_hi _ (o) rfl).trans ((ex_lo _ (b) rfl).trans (ex_all _)))
  have f0_13 : fld v0 0 13 = o :=
    (congrArg (fld · 0 13) he).trans ((ex_lo _ (o) rfl).trans (ex_all _))
  rw [family_Bc f26_6, decodeBc]
  simp only [f23_3, f18_5, f13_5, f0_13]
  exact rfl

theorem Encode.bcLt (a : BitVec 5) (b : BitVec 5) (o : BitVec 13) : Encode.Statement (.bcLt a b o) := by
  intro _
  apply decode_of
  have he : encode (.bcLt a b o) = 0x12#6 ++ 2#3 ++ a ++ b ++ o := rfl
  generalize encode (.bcLt a b o) = v0 at he
  have f26_6 : fld v0 26 6 = 18#6 :=
    (congrArg (fld · 26 6) he).trans ((ex_hi _ (o) rfl).trans ((ex_hi _ (b) rfl).trans ((ex_hi _ (a) rfl).trans ((ex_hi _ (2#3) rfl).trans (ex_all _)))))
  have f23_3 : fld v0 23 3 = 2#3 :=
    (congrArg (fld · 23 3) he).trans ((ex_hi _ (o) rfl).trans ((ex_hi _ (b) rfl).trans ((ex_hi _ (a) rfl).trans ((ex_lo _ (2#3) rfl).trans (ex_all _)))))
  have f18_5 : fld v0 18 5 = a :=
    (congrArg (fld · 18 5) he).trans ((ex_hi _ (o) rfl).trans ((ex_hi _ (b) rfl).trans ((ex_lo _ (a) rfl).trans (ex_all _))))
  have f13_5 : fld v0 13 5 = b :=
    (congrArg (fld · 13 5) he).trans ((ex_hi _ (o) rfl).trans ((ex_lo _ (b) rfl).trans (ex_all _)))
  have f0_13 : fld v0 0 13 = o :=
    (congrArg (fld · 0 13) he).trans ((ex_lo _ (o) rfl).trans (ex_all _))
  rw [family_Bc f26_6, decodeBc]
  simp only [f23_3, f18_5, f13_5, f0_13]
  exact rfl

theorem Encode.bcGe (a : BitVec 5) (b : BitVec 5) (o : BitVec 13) : Encode.Statement (.bcGe a b o) := by
  intro _
  apply decode_of
  have he : encode (.bcGe a b o) = 0x12#6 ++ 3#3 ++ a ++ b ++ o := rfl
  generalize encode (.bcGe a b o) = v0 at he
  have f26_6 : fld v0 26 6 = 18#6 :=
    (congrArg (fld · 26 6) he).trans ((ex_hi _ (o) rfl).trans ((ex_hi _ (b) rfl).trans ((ex_hi _ (a) rfl).trans ((ex_hi _ (3#3) rfl).trans (ex_all _)))))
  have f23_3 : fld v0 23 3 = 3#3 :=
    (congrArg (fld · 23 3) he).trans ((ex_hi _ (o) rfl).trans ((ex_hi _ (b) rfl).trans ((ex_hi _ (a) rfl).trans ((ex_lo _ (3#3) rfl).trans (ex_all _)))))
  have f18_5 : fld v0 18 5 = a :=
    (congrArg (fld · 18 5) he).trans ((ex_hi _ (o) rfl).trans ((ex_hi _ (b) rfl).trans ((ex_lo _ (a) rfl).trans (ex_all _))))
  have f13_5 : fld v0 13 5 = b :=
    (congrArg (fld · 13 5) he).trans ((ex_hi _ (o) rfl).trans ((ex_lo _ (b) rfl).trans (ex_all _)))
  have f0_13 : fld v0 0 13 = o :=
    (congrArg (fld · 0 13) he).trans ((ex_lo _ (o) rfl).trans (ex_all _))
  rw [family_Bc f26_6, decodeBc]
  simp only [f23_3, f18_5, f13_5, f0_13]
  exact rfl

theorem Encode.bcLtu (a : BitVec 5) (b : BitVec 5) (o : BitVec 13) : Encode.Statement (.bcLtu a b o) := by
  intro _
  apply decode_of
  have he : encode (.bcLtu a b o) = 0x12#6 ++ 4#3 ++ a ++ b ++ o := rfl
  generalize encode (.bcLtu a b o) = v0 at he
  have f26_6 : fld v0 26 6 = 18#6 :=
    (congrArg (fld · 26 6) he).trans ((ex_hi _ (o) rfl).trans ((ex_hi _ (b) rfl).trans ((ex_hi _ (a) rfl).trans ((ex_hi _ (4#3) rfl).trans (ex_all _)))))
  have f23_3 : fld v0 23 3 = 4#3 :=
    (congrArg (fld · 23 3) he).trans ((ex_hi _ (o) rfl).trans ((ex_hi _ (b) rfl).trans ((ex_hi _ (a) rfl).trans ((ex_lo _ (4#3) rfl).trans (ex_all _)))))
  have f18_5 : fld v0 18 5 = a :=
    (congrArg (fld · 18 5) he).trans ((ex_hi _ (o) rfl).trans ((ex_hi _ (b) rfl).trans ((ex_lo _ (a) rfl).trans (ex_all _))))
  have f13_5 : fld v0 13 5 = b :=
    (congrArg (fld · 13 5) he).trans ((ex_hi _ (o) rfl).trans ((ex_lo _ (b) rfl).trans (ex_all _)))
  have f0_13 : fld v0 0 13 = o :=
    (congrArg (fld · 0 13) he).trans ((ex_lo _ (o) rfl).trans (ex_all _))
  rw [family_Bc f26_6, decodeBc]
  simp only [f23_3, f18_5, f13_5, f0_13]
  exact rfl

theorem Encode.bcGeu (a : BitVec 5) (b : BitVec 5) (o : BitVec 13) : Encode.Statement (.bcGeu a b o) := by
  intro _
  apply decode_of
  have he : encode (.bcGeu a b o) = 0x12#6 ++ 5#3 ++ a ++ b ++ o := rfl
  generalize encode (.bcGeu a b o) = v0 at he
  have f26_6 : fld v0 26 6 = 18#6 :=
    (congrArg (fld · 26 6) he).trans ((ex_hi _ (o) rfl).trans ((ex_hi _ (b) rfl).trans ((ex_hi _ (a) rfl).trans ((ex_hi _ (5#3) rfl).trans (ex_all _)))))
  have f23_3 : fld v0 23 3 = 5#3 :=
    (congrArg (fld · 23 3) he).trans ((ex_hi _ (o) rfl).trans ((ex_hi _ (b) rfl).trans ((ex_hi _ (a) rfl).trans ((ex_lo _ (5#3) rfl).trans (ex_all _)))))
  have f18_5 : fld v0 18 5 = a :=
    (congrArg (fld · 18 5) he).trans ((ex_hi _ (o) rfl).trans ((ex_hi _ (b) rfl).trans ((ex_lo _ (a) rfl).trans (ex_all _))))
  have f13_5 : fld v0 13 5 = b :=
    (congrArg (fld · 13 5) he).trans ((ex_hi _ (o) rfl).trans ((ex_lo _ (b) rfl).trans (ex_all _)))
  have f0_13 : fld v0 0 13 = o :=
    (congrArg (fld · 0 13) he).trans ((ex_lo _ (o) rfl).trans (ex_all _))
  rw [family_Bc f26_6, decodeBc]
  simp only [f23_3, f18_5, f13_5, f0_13]
  exact rfl

theorem Encode.bcBset (a : BitVec 5) (b : BitVec 5) (o : BitVec 13) : Encode.Statement (.bcBset a b o) := by
  intro _
  apply decode_of
  have he : encode (.bcBset a b o) = 0x12#6 ++ 6#3 ++ a ++ b ++ o := rfl
  generalize encode (.bcBset a b o) = v0 at he
  have f26_6 : fld v0 26 6 = 18#6 :=
    (congrArg (fld · 26 6) he).trans ((ex_hi _ (o) rfl).trans ((ex_hi _ (b) rfl).trans ((ex_hi _ (a) rfl).trans ((ex_hi _ (6#3) rfl).trans (ex_all _)))))
  have f23_3 : fld v0 23 3 = 6#3 :=
    (congrArg (fld · 23 3) he).trans ((ex_hi _ (o) rfl).trans ((ex_hi _ (b) rfl).trans ((ex_hi _ (a) rfl).trans ((ex_lo _ (6#3) rfl).trans (ex_all _)))))
  have f18_5 : fld v0 18 5 = a :=
    (congrArg (fld · 18 5) he).trans ((ex_hi _ (o) rfl).trans ((ex_hi _ (b) rfl).trans ((ex_lo _ (a) rfl).trans (ex_all _))))
  have f13_5 : fld v0 13 5 = b :=
    (congrArg (fld · 13 5) he).trans ((ex_hi _ (o) rfl).trans ((ex_lo _ (b) rfl).trans (ex_all _)))
  have f0_13 : fld v0 0 13 = o :=
    (congrArg (fld · 0 13) he).trans ((ex_lo _ (o) rfl).trans (ex_all _))
  rw [family_Bc f26_6, decodeBc]
  simp only [f23_3, f18_5, f13_5, f0_13]
  exact rfl

theorem Encode.bcBclr (a : BitVec 5) (b : BitVec 5) (o : BitVec 13) : Encode.Statement (.bcBclr a b o) := by
  intro _
  apply decode_of
  have he : encode (.bcBclr a b o) = 0x12#6 ++ 7#3 ++ a ++ b ++ o := rfl
  generalize encode (.bcBclr a b o) = v0 at he
  have f26_6 : fld v0 26 6 = 18#6 :=
    (congrArg (fld · 26 6) he).trans ((ex_hi _ (o) rfl).trans ((ex_hi _ (b) rfl).trans ((ex_hi _ (a) rfl).trans ((ex_hi _ (7#3) rfl).trans (ex_all _)))))
  have f23_3 : fld v0 23 3 = 7#3 :=
    (congrArg (fld · 23 3) he).trans ((ex_hi _ (o) rfl).trans ((ex_hi _ (b) rfl).trans ((ex_hi _ (a) rfl).trans ((ex_lo _ (7#3) rfl).trans (ex_all _)))))
  have f18_5 : fld v0 18 5 = a :=
    (congrArg (fld · 18 5) he).trans ((ex_hi _ (o) rfl).trans ((ex_hi _ (b) rfl).trans ((ex_lo _ (a) rfl).trans (ex_all _))))
  have f13_5 : fld v0 13 5 = b :=
    (congrArg (fld · 13 5) he).trans ((ex_hi _ (o) rfl).trans ((ex_lo _ (b) rfl).trans (ex_all _)))
  have f0_13 : fld v0 0 13 = o :=
    (congrArg (fld · 0 13) he).trans ((ex_lo _ (o) rfl).trans (ex_all _))
  rw [family_Bc f26_6, decodeBc]
  simp only [f23_3, f18_5, f13_5, f0_13]
  exact rfl

theorem Encode.j (o : BitVec 26) : Encode.Statement (.j o) := by
  intro _
  apply decode_of
  have he : encode (.j o) = 0x13#6 ++ o := rfl
  generalize encode (.j o) = v0 at he
  have f26_6 : fld v0 26 6 = 19#6 :=
    (congrArg (fld · 26 6) he).trans ((ex_hi _ (o) rfl).trans (ex_all _))
  have f0_26 : fld v0 0 26 = o :=
    (congrArg (fld · 0 26) he).trans ((ex_lo _ (o) rfl).trans (ex_all _))
  rw [family_J f26_6, decodeJ]
  simp only [f0_26]

theorem Encode.jal (o : BitVec 26) : Encode.Statement (.jal o) := by
  intro _
  apply decode_of
  have he : encode (.jal o) = 0x14#6 ++ o := rfl
  generalize encode (.jal o) = v0 at he
  have f26_6 : fld v0 26 6 = 20#6 :=
    (congrArg (fld · 26 6) he).trans ((ex_hi _ (o) rfl).trans (ex_all _))
  have f0_26 : fld v0 0 26 = o :=
    (congrArg (fld · 0 26) he).trans ((ex_lo _ (o) rfl).trans (ex_all _))
  rw [family_Jal f26_6, decodeJal]
  simp only [f0_26]

theorem Encode.jalr (d : BitVec 5) (a : BitVec 5) (i : BitVec 16) : Encode.Statement (.jalr d a i) := by
  intro _
  apply decode_of
  have he : encode (.jalr d a i) = 0x15#6 ++ d ++ a ++ i := rfl
  generalize encode (.jalr d a i) = v0 at he
  have f26_6 : fld v0 26 6 = 21#6 :=
    (congrArg (fld · 26 6) he).trans ((ex_hi _ (i) rfl).trans ((ex_hi _ (a) rfl).trans ((ex_hi _ (d) rfl).trans (ex_all _))))
  have f21_5 : fld v0 21 5 = d :=
    (congrArg (fld · 21 5) he).trans ((ex_hi _ (i) rfl).trans ((ex_hi _ (a) rfl).trans ((ex_lo _ (d) rfl).trans (ex_all _))))
  have f16_5 : fld v0 16 5 = a :=
    (congrArg (fld · 16 5) he).trans ((ex_hi _ (i) rfl).trans ((ex_lo _ (a) rfl).trans (ex_all _)))
  have f0_16 : fld v0 0 16 = i :=
    (congrArg (fld · 0 16) he).trans ((ex_lo _ (i) rfl).trans (ex_all _))
  rw [family_Jalr f26_6, decodeJalr]
  simp only [f21_5, f16_5, f0_16]

theorem Encode.callt (a : BitVec 5) (s : BitVec 16) : Encode.Statement (.callt a s) := by
  intro _
  apply decode_of
  have he : encode (.callt a s) = 0x16#6 ++ 0#5 ++ a ++ s := rfl
  generalize encode (.callt a s) = v0 at he
  have f26_6 : fld v0 26 6 = 22#6 :=
    (congrArg (fld · 26 6) he).trans ((ex_hi _ (s) rfl).trans ((ex_hi _ (a) rfl).trans ((ex_hi _ (0#5) rfl).trans (ex_all _))))
  have f21_5 : fld v0 21 5 = 0#5 :=
    (congrArg (fld · 21 5) he).trans ((ex_hi _ (s) rfl).trans ((ex_hi _ (a) rfl).trans ((ex_lo _ (0#5) rfl).trans (ex_all _))))
  have f16_5 : fld v0 16 5 = a :=
    (congrArg (fld · 16 5) he).trans ((ex_hi _ (s) rfl).trans ((ex_lo _ (a) rfl).trans (ex_all _)))
  have f0_16 : fld v0 0 16 = s :=
    (congrArg (fld · 0 16) he).trans ((ex_lo _ (s) rfl).trans (ex_all _))
  rw [family_Callt f26_6, decodeCallt]
  simp only [f21_5, f16_5, f0_16]
  exact rfl

theorem Encode.nop (n : BitVec 12) : Encode.Statement (.nop n) := by
  intro _
  apply decode_of
  have he : encode (.nop n) = 0x17#6 ++ 0#5 ++ 0#5 ++ 0#4 ++ n := rfl
  generalize encode (.nop n) = v0 at he
  have f26_6 : fld v0 26 6 = 23#6 :=
    (congrArg (fld · 26 6) he).trans ((ex_hi _ (n) rfl).trans ((ex_hi _ (0#4) rfl).trans ((ex_hi _ (0#5) rfl).trans ((ex_hi _ (0#5) rfl).trans (ex_all _)))))
  have f21_5 : fld v0 21 5 = 0#5 :=
    (congrArg (fld · 21 5) he).trans ((ex_hi _ (n) rfl).trans ((ex_hi _ (0#4) rfl).trans ((ex_hi _ (0#5) rfl).trans ((ex_lo _ (0#5) rfl).trans (ex_all _)))))
  have f16_5 : fld v0 16 5 = 0#5 :=
    (congrArg (fld · 16 5) he).trans ((ex_hi _ (n) rfl).trans ((ex_hi _ (0#4) rfl).trans ((ex_lo _ (0#5) rfl).trans (ex_all _))))
  have f12_4 : fld v0 12 4 = 0#4 :=
    (congrArg (fld · 12 4) he).trans ((ex_hi _ (n) rfl).trans ((ex_lo _ (0#4) rfl).trans (ex_all _)))
  have f0_12 : fld v0 0 12 = n :=
    (congrArg (fld · 0 12) he).trans ((ex_lo _ (n) rfl).trans (ex_all _))
  rw [family_Sys f26_6, decodeSys]
  simp only [f21_5, f16_5, f12_4, f0_12]
  exact rfl

theorem Encode.csrr (d : BitVec 5) (c : BitVec 12) : Encode.Statement (.csrr d c) := by
  intro (hw : (csrListed c) = true)
  apply decode_of
  have he : encode (.csrr d c) = 0x17#6 ++ d ++ 0#5 ++ 1#4 ++ c := rfl
  generalize encode (.csrr d c) = v0 at he
  have f26_6 : fld v0 26 6 = 23#6 :=
    (congrArg (fld · 26 6) he).trans ((ex_hi _ (c) rfl).trans ((ex_hi _ (1#4) rfl).trans ((ex_hi _ (0#5) rfl).trans ((ex_hi _ (d) rfl).trans (ex_all _)))))
  have f21_5 : fld v0 21 5 = d :=
    (congrArg (fld · 21 5) he).trans ((ex_hi _ (c) rfl).trans ((ex_hi _ (1#4) rfl).trans ((ex_hi _ (0#5) rfl).trans ((ex_lo _ (d) rfl).trans (ex_all _)))))
  have f16_5 : fld v0 16 5 = 0#5 :=
    (congrArg (fld · 16 5) he).trans ((ex_hi _ (c) rfl).trans ((ex_hi _ (1#4) rfl).trans ((ex_lo _ (0#5) rfl).trans (ex_all _))))
  have f12_4 : fld v0 12 4 = 1#4 :=
    (congrArg (fld · 12 4) he).trans ((ex_hi _ (c) rfl).trans ((ex_lo _ (1#4) rfl).trans (ex_all _)))
  have f0_12 : fld v0 0 12 = c :=
    (congrArg (fld · 0 12) he).trans ((ex_lo _ (c) rfl).trans (ex_all _))
  rw [family_Sys f26_6, decodeSys]
  simp only [f21_5, f16_5, f12_4, f0_12]
  exact needs_of hw

theorem Encode.csrw (a : BitVec 5) (c : BitVec 12) : Encode.Statement (.csrw a c) := by
  intro (hw : (csrWritable c) = true)
  apply decode_of
  have he : encode (.csrw a c) = 0x17#6 ++ 0#5 ++ a ++ 2#4 ++ c := rfl
  generalize encode (.csrw a c) = v0 at he
  have f26_6 : fld v0 26 6 = 23#6 :=
    (congrArg (fld · 26 6) he).trans ((ex_hi _ (c) rfl).trans ((ex_hi _ (2#4) rfl).trans ((ex_hi _ (a) rfl).trans ((ex_hi _ (0#5) rfl).trans (ex_all _)))))
  have f21_5 : fld v0 21 5 = 0#5 :=
    (congrArg (fld · 21 5) he).trans ((ex_hi _ (c) rfl).trans ((ex_hi _ (2#4) rfl).trans ((ex_hi _ (a) rfl).trans ((ex_lo _ (0#5) rfl).trans (ex_all _)))))
  have f16_5 : fld v0 16 5 = a :=
    (congrArg (fld · 16 5) he).trans ((ex_hi _ (c) rfl).trans ((ex_hi _ (2#4) rfl).trans ((ex_lo _ (a) rfl).trans (ex_all _))))
  have f12_4 : fld v0 12 4 = 2#4 :=
    (congrArg (fld · 12 4) he).trans ((ex_hi _ (c) rfl).trans ((ex_lo _ (2#4) rfl).trans (ex_all _)))
  have f0_12 : fld v0 0 12 = c :=
    (congrArg (fld · 0 12) he).trans ((ex_lo _ (c) rfl).trans (ex_all _))
  rw [family_Sys f26_6, decodeSys]
  simp only [f21_5, f16_5, f12_4, f0_12]
  exact needs_of hw

theorem Encode.csrs (a : BitVec 5) (c : BitVec 12) : Encode.Statement (.csrs a c) := by
  intro (hw : (csrWritable c) = true)
  apply decode_of
  have he : encode (.csrs a c) = 0x17#6 ++ 0#5 ++ a ++ 3#4 ++ c := rfl
  generalize encode (.csrs a c) = v0 at he
  have f26_6 : fld v0 26 6 = 23#6 :=
    (congrArg (fld · 26 6) he).trans ((ex_hi _ (c) rfl).trans ((ex_hi _ (3#4) rfl).trans ((ex_hi _ (a) rfl).trans ((ex_hi _ (0#5) rfl).trans (ex_all _)))))
  have f21_5 : fld v0 21 5 = 0#5 :=
    (congrArg (fld · 21 5) he).trans ((ex_hi _ (c) rfl).trans ((ex_hi _ (3#4) rfl).trans ((ex_hi _ (a) rfl).trans ((ex_lo _ (0#5) rfl).trans (ex_all _)))))
  have f16_5 : fld v0 16 5 = a :=
    (congrArg (fld · 16 5) he).trans ((ex_hi _ (c) rfl).trans ((ex_hi _ (3#4) rfl).trans ((ex_lo _ (a) rfl).trans (ex_all _))))
  have f12_4 : fld v0 12 4 = 3#4 :=
    (congrArg (fld · 12 4) he).trans ((ex_hi _ (c) rfl).trans ((ex_lo _ (3#4) rfl).trans (ex_all _)))
  have f0_12 : fld v0 0 12 = c :=
    (congrArg (fld · 0 12) he).trans ((ex_lo _ (c) rfl).trans (ex_all _))
  rw [family_Sys f26_6, decodeSys]
  simp only [f21_5, f16_5, f12_4, f0_12]
  exact needs_of hw

theorem Encode.csrc (a : BitVec 5) (c : BitVec 12) : Encode.Statement (.csrc a c) := by
  intro (hw : (csrWritable c) = true)
  apply decode_of
  have he : encode (.csrc a c) = 0x17#6 ++ 0#5 ++ a ++ 4#4 ++ c := rfl
  generalize encode (.csrc a c) = v0 at he
  have f26_6 : fld v0 26 6 = 23#6 :=
    (congrArg (fld · 26 6) he).trans ((ex_hi _ (c) rfl).trans ((ex_hi _ (4#4) rfl).trans ((ex_hi _ (a) rfl).trans ((ex_hi _ (0#5) rfl).trans (ex_all _)))))
  have f21_5 : fld v0 21 5 = 0#5 :=
    (congrArg (fld · 21 5) he).trans ((ex_hi _ (c) rfl).trans ((ex_hi _ (4#4) rfl).trans ((ex_hi _ (a) rfl).trans ((ex_lo _ (0#5) rfl).trans (ex_all _)))))
  have f16_5 : fld v0 16 5 = a :=
    (congrArg (fld · 16 5) he).trans ((ex_hi _ (c) rfl).trans ((ex_hi _ (4#4) rfl).trans ((ex_lo _ (a) rfl).trans (ex_all _))))
  have f12_4 : fld v0 12 4 = 4#4 :=
    (congrArg (fld · 12 4) he).trans ((ex_hi _ (c) rfl).trans ((ex_lo _ (4#4) rfl).trans (ex_all _)))
  have f0_12 : fld v0 0 12 = c :=
    (congrArg (fld · 0 12) he).trans ((ex_lo _ (c) rfl).trans (ex_all _))
  rw [family_Sys f26_6, decodeSys]
  simp only [f21_5, f16_5, f12_4, f0_12]
  exact needs_of hw

theorem Encode.trap (n : BitVec 12) : Encode.Statement (.trap n) := by
  intro _
  apply decode_of
  have he : encode (.trap n) = 0x17#6 ++ 0#5 ++ 0#5 ++ 5#4 ++ n := rfl
  generalize encode (.trap n) = v0 at he
  have f26_6 : fld v0 26 6 = 23#6 :=
    (congrArg (fld · 26 6) he).trans ((ex_hi _ (n) rfl).trans ((ex_hi _ (5#4) rfl).trans ((ex_hi _ (0#5) rfl).trans ((ex_hi _ (0#5) rfl).trans (ex_all _)))))
  have f21_5 : fld v0 21 5 = 0#5 :=
    (congrArg (fld · 21 5) he).trans ((ex_hi _ (n) rfl).trans ((ex_hi _ (5#4) rfl).trans ((ex_hi _ (0#5) rfl).trans ((ex_lo _ (0#5) rfl).trans (ex_all _)))))
  have f16_5 : fld v0 16 5 = 0#5 :=
    (congrArg (fld · 16 5) he).trans ((ex_hi _ (n) rfl).trans ((ex_hi _ (5#4) rfl).trans ((ex_lo _ (0#5) rfl).trans (ex_all _))))
  have f12_4 : fld v0 12 4 = 5#4 :=
    (congrArg (fld · 12 4) he).trans ((ex_hi _ (n) rfl).trans ((ex_lo _ (5#4) rfl).trans (ex_all _)))
  have f0_12 : fld v0 0 12 = n :=
    (congrArg (fld · 0 12) he).trans ((ex_lo _ (n) rfl).trans (ex_all _))
  rw [family_Sys f26_6, decodeSys]
  simp only [f21_5, f16_5, f12_4, f0_12]
  exact rfl

theorem Encode.bkpt : Encode.Statement (.bkpt) := by
  intro _
  apply decode_of
  have he : encode (.bkpt) = 0x17#6 ++ 0#5 ++ 0#5 ++ 24576#16 := rfl
  generalize encode (.bkpt) = v0 at he
  have f26_6 : fld v0 26 6 = 23#6 :=
    (congrArg (fld · 26 6) he).trans ((ex_hi _ (24576#16) rfl).trans ((ex_hi _ (0#5) rfl).trans ((ex_hi _ (0#5) rfl).trans (ex_all _))))
  have f21_5 : fld v0 21 5 = 0#5 :=
    (congrArg (fld · 21 5) he).trans ((ex_hi _ (24576#16) rfl).trans ((ex_hi _ (0#5) rfl).trans ((ex_lo _ (0#5) rfl).trans (ex_all _))))
  have f16_5 : fld v0 16 5 = 0#5 :=
    (congrArg (fld · 16 5) he).trans ((ex_hi _ (24576#16) rfl).trans ((ex_lo _ (0#5) rfl).trans (ex_all _)))
  have f12_4 : fld v0 12 4 = 6#4 :=
    (congrArg (fld · 12 4) he).trans ((ex_lo _ (24576#16) rfl).trans (rfl))
  have f0_12 : fld v0 0 12 = 0#12 :=
    (congrArg (fld · 0 12) he).trans ((ex_lo _ (24576#16) rfl).trans (rfl))
  rw [family_Sys f26_6, decodeSys]
  simp only [f21_5, f16_5, f12_4, f0_12]
  exact rfl

theorem Encode.wfe (a : BitVec 5) : Encode.Statement (.wfe a) := by
  intro _
  apply decode_of
  have he : encode (.wfe a) = 0x17#6 ++ 0#5 ++ a ++ 28672#16 := rfl
  generalize encode (.wfe a) = v0 at he
  have f26_6 : fld v0 26 6 = 23#6 :=
    (congrArg (fld · 26 6) he).trans ((ex_hi _ (28672#16) rfl).trans ((ex_hi _ (a) rfl).trans ((ex_hi _ (0#5) rfl).trans (ex_all _))))
  have f21_5 : fld v0 21 5 = 0#5 :=
    (congrArg (fld · 21 5) he).trans ((ex_hi _ (28672#16) rfl).trans ((ex_hi _ (a) rfl).trans ((ex_lo _ (0#5) rfl).trans (ex_all _))))
  have f16_5 : fld v0 16 5 = a :=
    (congrArg (fld · 16 5) he).trans ((ex_hi _ (28672#16) rfl).trans ((ex_lo _ (a) rfl).trans (ex_all _)))
  have f12_4 : fld v0 12 4 = 7#4 :=
    (congrArg (fld · 12 4) he).trans ((ex_lo _ (28672#16) rfl).trans (rfl))
  have f0_12 : fld v0 0 12 = 0#12 :=
    (congrArg (fld · 0 12) he).trans ((ex_lo _ (28672#16) rfl).trans (rfl))
  rw [family_Sys f26_6, decodeSys]
  simp only [f21_5, f16_5, f12_4, f0_12]
  exact rfl

theorem Encode.exit : Encode.Statement (.exit) := by
  intro _
  apply decode_of
  have he : encode (.exit) = 0x17#6 ++ 0#5 ++ 0#5 ++ 32768#16 := rfl
  generalize encode (.exit) = v0 at he
  have f26_6 : fld v0 26 6 = 23#6 :=
    (congrArg (fld · 26 6) he).trans ((ex_hi _ (32768#16) rfl).trans ((ex_hi _ (0#5) rfl).trans ((ex_hi _ (0#5) rfl).trans (ex_all _))))
  have f21_5 : fld v0 21 5 = 0#5 :=
    (congrArg (fld · 21 5) he).trans ((ex_hi _ (32768#16) rfl).trans ((ex_hi _ (0#5) rfl).trans ((ex_lo _ (0#5) rfl).trans (ex_all _))))
  have f16_5 : fld v0 16 5 = 0#5 :=
    (congrArg (fld · 16 5) he).trans ((ex_hi _ (32768#16) rfl).trans ((ex_lo _ (0#5) rfl).trans (ex_all _)))
  have f12_4 : fld v0 12 4 = 8#4 :=
    (congrArg (fld · 12 4) he).trans ((ex_lo _ (32768#16) rfl).trans (rfl))
  have f0_12 : fld v0 0 12 = 0#12 :=
    (congrArg (fld · 0 12) he).trans ((ex_lo _ (32768#16) rfl).trans (rfl))
  rw [family_Sys f26_6, decodeSys]
  simp only [f21_5, f16_5, f12_4, f0_12]
  exact rfl

theorem Encode.yield : Encode.Statement (.yield) := by
  intro _
  apply decode_of
  have he : encode (.yield) = 0x17#6 ++ 0#5 ++ 0#5 ++ 36864#16 := rfl
  generalize encode (.yield) = v0 at he
  have f26_6 : fld v0 26 6 = 23#6 :=
    (congrArg (fld · 26 6) he).trans ((ex_hi _ (36864#16) rfl).trans ((ex_hi _ (0#5) rfl).trans ((ex_hi _ (0#5) rfl).trans (ex_all _))))
  have f21_5 : fld v0 21 5 = 0#5 :=
    (congrArg (fld · 21 5) he).trans ((ex_hi _ (36864#16) rfl).trans ((ex_hi _ (0#5) rfl).trans ((ex_lo _ (0#5) rfl).trans (ex_all _))))
  have f16_5 : fld v0 16 5 = 0#5 :=
    (congrArg (fld · 16 5) he).trans ((ex_hi _ (36864#16) rfl).trans ((ex_lo _ (0#5) rfl).trans (ex_all _)))
  have f12_4 : fld v0 12 4 = 9#4 :=
    (congrArg (fld · 12 4) he).trans ((ex_lo _ (36864#16) rfl).trans (rfl))
  have f0_12 : fld v0 0 12 = 0#12 :=
    (congrArg (fld · 0 12) he).trans ((ex_lo _ (36864#16) rfl).trans (rfl))
  rw [family_Sys f26_6, decodeSys]
  simp only [f21_5, f16_5, f12_4, f0_12]
  exact rfl

theorem Encode.wsb (m : BitVec 7) : Encode.Statement (.wsb m) := by
  intro (hw : ((m != 0#7)) = true)
  apply decode_of
  have he : encode (.wsb m) = 0x17#6 ++ 0#5 ++ 0#5 ++ 160#8 ++ m ++ 0#1 := rfl
  generalize encode (.wsb m) = v0 at he
  have f26_6 : fld v0 26 6 = 23#6 :=
    (congrArg (fld · 26 6) he).trans ((ex_hi _ (0#1) rfl).trans ((ex_hi _ (m) rfl).trans ((ex_hi _ (160#8) rfl).trans ((ex_hi _ (0#5) rfl).trans ((ex_hi _ (0#5) rfl).trans (ex_all _))))))
  have f21_5 : fld v0 21 5 = 0#5 :=
    (congrArg (fld · 21 5) he).trans ((ex_hi _ (0#1) rfl).trans ((ex_hi _ (m) rfl).trans ((ex_hi _ (160#8) rfl).trans ((ex_hi _ (0#5) rfl).trans ((ex_lo _ (0#5) rfl).trans (ex_all _))))))
  have f16_5 : fld v0 16 5 = 0#5 :=
    (congrArg (fld · 16 5) he).trans ((ex_hi _ (0#1) rfl).trans ((ex_hi _ (m) rfl).trans ((ex_hi _ (160#8) rfl).trans ((ex_lo _ (0#5) rfl).trans (ex_all _)))))
  have f12_4 : fld v0 12 4 = 10#4 :=
    (congrArg (fld · 12 4) he).trans ((ex_hi _ (0#1) rfl).trans ((ex_hi _ (m) rfl).trans ((ex_lo _ (160#8) rfl).trans (rfl))))
  have f8_4 : fld v0 8 4 = 0#4 :=
    (congrArg (fld · 8 4) he).trans ((ex_hi _ (0#1) rfl).trans ((ex_hi _ (m) rfl).trans ((ex_lo _ (160#8) rfl).trans (rfl))))
  have f1_7 : fld v0 1 7 = m :=
    (congrArg (fld · 1 7) he).trans ((ex_hi _ (0#1) rfl).trans ((ex_lo _ (m) rfl).trans (ex_all _)))
  have f0_1 : fld v0 0 1 = 0#1 :=
    (congrArg (fld · 0 1) he).trans ((ex_lo _ (0#1) rfl).trans (ex_all _))
  rw [family_Sys f26_6, decodeSys]
  simp only [f21_5, f16_5, f12_4, f8_4, f1_7, f0_1]
  exact needs_of hw

theorem Encode.fork (a : BitVec 5) (p : BitVec 2) : Encode.Statement (.fork a p) := by
  intro _
  apply decode_of
  have he : encode (.fork a p) = 0x17#6 ++ 0#5 ++ a ++ 11264#14 ++ p := rfl
  generalize encode (.fork a p) = v0 at he
  have f26_6 : fld v0 26 6 = 23#6 :=
    (congrArg (fld · 26 6) he).trans ((ex_hi _ (p) rfl).trans ((ex_hi _ (11264#14) rfl).trans ((ex_hi _ (a) rfl).trans ((ex_hi _ (0#5) rfl).trans (ex_all _)))))
  have f21_5 : fld v0 21 5 = 0#5 :=
    (congrArg (fld · 21 5) he).trans ((ex_hi _ (p) rfl).trans ((ex_hi _ (11264#14) rfl).trans ((ex_hi _ (a) rfl).trans ((ex_lo _ (0#5) rfl).trans (ex_all _)))))
  have f16_5 : fld v0 16 5 = a :=
    (congrArg (fld · 16 5) he).trans ((ex_hi _ (p) rfl).trans ((ex_hi _ (11264#14) rfl).trans ((ex_lo _ (a) rfl).trans (ex_all _))))
  have f12_4 : fld v0 12 4 = 11#4 :=
    (congrArg (fld · 12 4) he).trans ((ex_hi _ (p) rfl).trans ((ex_lo _ (11264#14) rfl).trans (rfl)))
  have f2_10 : fld v0 2 10 = 0#10 :=
    (congrArg (fld · 2 10) he).trans ((ex_hi _ (p) rfl).trans ((ex_lo _ (11264#14) rfl).trans (rfl)))
  have f0_2 : fld v0 0 2 = p :=
    (congrArg (fld · 0 2) he).trans ((ex_lo _ (p) rfl).trans (ex_all _))
  rw [family_Sys f26_6, decodeSys]
  simp only [f21_5, f16_5, f12_4, f2_10, f0_2]
  exact rfl

theorem Encode.vcfg (d : BitVec 5) (a : BitVec 5) (g : BitVec 2) (e : BitVec 2) : Encode.Statement (.vcfg d a g e) := by
  intro (hw : (decide (g ≤ e)) = true)
  apply decode_of
  have he : encode (.vcfg d a g e) = 0x18#6 ++ d ++ a ++ 0#12 ++ g ++ e := rfl
  generalize encode (.vcfg d a g e) = v0 at he
  have f26_6 : fld v0 26 6 = 24#6 :=
    (congrArg (fld · 26 6) he).trans ((ex_hi _ (e) rfl).trans ((ex_hi _ (g) rfl).trans ((ex_hi _ (0#12) rfl).trans ((ex_hi _ (a) rfl).trans ((ex_hi _ (d) rfl).trans (ex_all _))))))
  have f21_5 : fld v0 21 5 = d :=
    (congrArg (fld · 21 5) he).trans ((ex_hi _ (e) rfl).trans ((ex_hi _ (g) rfl).trans ((ex_hi _ (0#12) rfl).trans ((ex_hi _ (a) rfl).trans ((ex_lo _ (d) rfl).trans (ex_all _))))))
  have f16_5 : fld v0 16 5 = a :=
    (congrArg (fld · 16 5) he).trans ((ex_hi _ (e) rfl).trans ((ex_hi _ (g) rfl).trans ((ex_hi _ (0#12) rfl).trans ((ex_lo _ (a) rfl).trans (ex_all _)))))
  have f4_12 : fld v0 4 12 = 0#12 :=
    (congrArg (fld · 4 12) he).trans ((ex_hi _ (e) rfl).trans ((ex_hi _ (g) rfl).trans ((ex_lo _ (0#12) rfl).trans (ex_all _))))
  have f2_2 : fld v0 2 2 = g :=
    (congrArg (fld · 2 2) he).trans ((ex_hi _ (e) rfl).trans ((ex_lo _ (g) rfl).trans (ex_all _)))
  have f0_2 : fld v0 0 2 = e :=
    (congrArg (fld · 0 2) he).trans ((ex_lo _ (e) rfl).trans (ex_all _))
  rw [family_Vcfg f26_6, decodeVcfg]
  simp only [f21_5, f16_5, f4_12, f2_2, f0_2]
  exact needs_of hw

theorem Encode.vadd (d : BitVec 5) (a : BitVec 5) (b : BitVec 5) (x : BitVec 1) (y : BitVec 1) (k : BitVec 3) : Encode.Statement (.vadd d a b x y k) := by
  intro _
  apply decode_of
  have he : encode (.vadd d a b x y k) = 0x19#6 ++ d ++ a ++ b ++ x ++ y ++ k ++ 0#3 ++ 0#3 := rfl
  generalize encode (.vadd d a b x y k) = v0 at he
  have f26_6 : fld v0 26 6 = 25#6 :=
    (congrArg (fld · 26 6) he).trans ((ex_hi _ (0#3) rfl).trans ((ex_hi _ (0#3) rfl).trans ((ex_hi _ (k) rfl).trans ((ex_hi _ (y) rfl).trans ((ex_hi _ (x) rfl).trans ((ex_hi _ (b) rfl).trans ((ex_hi _ (a) rfl).trans ((ex_hi _ (d) rfl).trans (ex_all _)))))))))
  have f21_5 : fld v0 21 5 = d :=
    (congrArg (fld · 21 5) he).trans ((ex_hi _ (0#3) rfl).trans ((ex_hi _ (0#3) rfl).trans ((ex_hi _ (k) rfl).trans ((ex_hi _ (y) rfl).trans ((ex_hi _ (x) rfl).trans ((ex_hi _ (b) rfl).trans ((ex_hi _ (a) rfl).trans ((ex_lo _ (d) rfl).trans (ex_all _)))))))))
  have f16_5 : fld v0 16 5 = a :=
    (congrArg (fld · 16 5) he).trans ((ex_hi _ (0#3) rfl).trans ((ex_hi _ (0#3) rfl).trans ((ex_hi _ (k) rfl).trans ((ex_hi _ (y) rfl).trans ((ex_hi _ (x) rfl).trans ((ex_hi _ (b) rfl).trans ((ex_lo _ (a) rfl).trans (ex_all _))))))))
  have f11_5 : fld v0 11 5 = b :=
    (congrArg (fld · 11 5) he).trans ((ex_hi _ (0#3) rfl).trans ((ex_hi _ (0#3) rfl).trans ((ex_hi _ (k) rfl).trans ((ex_hi _ (y) rfl).trans ((ex_hi _ (x) rfl).trans ((ex_lo _ (b) rfl).trans (ex_all _)))))))
  have f10_1 : fld v0 10 1 = x :=
    (congrArg (fld · 10 1) he).trans ((ex_hi _ (0#3) rfl).trans ((ex_hi _ (0#3) rfl).trans ((ex_hi _ (k) rfl).trans ((ex_hi _ (y) rfl).trans ((ex_lo _ (x) rfl).trans (ex_all _))))))
  have f9_1 : fld v0 9 1 = y :=
    (congrArg (fld · 9 1) he).trans ((ex_hi _ (0#3) rfl).trans ((ex_hi _ (0#3) rfl).trans ((ex_hi _ (k) rfl).trans ((ex_lo _ (y) rfl).trans (ex_all _)))))
  have f6_3 : fld v0 6 3 = k :=
    (congrArg (fld · 6 3) he).trans ((ex_hi _ (0#3) rfl).trans ((ex_hi _ (0#3) rfl).trans ((ex_lo _ (k) rfl).trans (ex_all _))))
  have f3_3 : fld v0 3 3 = 0#3 :=
    (congrArg (fld · 3 3) he).trans ((ex_hi _ (0#3) rfl).trans ((ex_lo _ (0#3) rfl).trans (ex_all _)))
  have f0_3 : fld v0 0 3 = 0#3 :=
    (congrArg (fld · 0 3) he).trans ((ex_lo _ (0#3) rfl).trans (ex_all _))
  rw [family_Vint0 f26_6, decodeVint0]
  simp only [f21_5, f16_5, f11_5, f10_1, f9_1, f6_3, f3_3, f0_3]
  exact rfl

theorem Encode.vsub (d : BitVec 5) (a : BitVec 5) (b : BitVec 5) (x : BitVec 1) (y : BitVec 1) (k : BitVec 3) : Encode.Statement (.vsub d a b x y k) := by
  intro _
  apply decode_of
  have he : encode (.vsub d a b x y k) = 0x19#6 ++ d ++ a ++ b ++ x ++ y ++ k ++ 0#3 ++ 1#3 := rfl
  generalize encode (.vsub d a b x y k) = v0 at he
  have f26_6 : fld v0 26 6 = 25#6 :=
    (congrArg (fld · 26 6) he).trans ((ex_hi _ (1#3) rfl).trans ((ex_hi _ (0#3) rfl).trans ((ex_hi _ (k) rfl).trans ((ex_hi _ (y) rfl).trans ((ex_hi _ (x) rfl).trans ((ex_hi _ (b) rfl).trans ((ex_hi _ (a) rfl).trans ((ex_hi _ (d) rfl).trans (ex_all _)))))))))
  have f21_5 : fld v0 21 5 = d :=
    (congrArg (fld · 21 5) he).trans ((ex_hi _ (1#3) rfl).trans ((ex_hi _ (0#3) rfl).trans ((ex_hi _ (k) rfl).trans ((ex_hi _ (y) rfl).trans ((ex_hi _ (x) rfl).trans ((ex_hi _ (b) rfl).trans ((ex_hi _ (a) rfl).trans ((ex_lo _ (d) rfl).trans (ex_all _)))))))))
  have f16_5 : fld v0 16 5 = a :=
    (congrArg (fld · 16 5) he).trans ((ex_hi _ (1#3) rfl).trans ((ex_hi _ (0#3) rfl).trans ((ex_hi _ (k) rfl).trans ((ex_hi _ (y) rfl).trans ((ex_hi _ (x) rfl).trans ((ex_hi _ (b) rfl).trans ((ex_lo _ (a) rfl).trans (ex_all _))))))))
  have f11_5 : fld v0 11 5 = b :=
    (congrArg (fld · 11 5) he).trans ((ex_hi _ (1#3) rfl).trans ((ex_hi _ (0#3) rfl).trans ((ex_hi _ (k) rfl).trans ((ex_hi _ (y) rfl).trans ((ex_hi _ (x) rfl).trans ((ex_lo _ (b) rfl).trans (ex_all _)))))))
  have f10_1 : fld v0 10 1 = x :=
    (congrArg (fld · 10 1) he).trans ((ex_hi _ (1#3) rfl).trans ((ex_hi _ (0#3) rfl).trans ((ex_hi _ (k) rfl).trans ((ex_hi _ (y) rfl).trans ((ex_lo _ (x) rfl).trans (ex_all _))))))
  have f9_1 : fld v0 9 1 = y :=
    (congrArg (fld · 9 1) he).trans ((ex_hi _ (1#3) rfl).trans ((ex_hi _ (0#3) rfl).trans ((ex_hi _ (k) rfl).trans ((ex_lo _ (y) rfl).trans (ex_all _)))))
  have f6_3 : fld v0 6 3 = k :=
    (congrArg (fld · 6 3) he).trans ((ex_hi _ (1#3) rfl).trans ((ex_hi _ (0#3) rfl).trans ((ex_lo _ (k) rfl).trans (ex_all _))))
  have f3_3 : fld v0 3 3 = 0#3 :=
    (congrArg (fld · 3 3) he).trans ((ex_hi _ (1#3) rfl).trans ((ex_lo _ (0#3) rfl).trans (ex_all _)))
  have f0_3 : fld v0 0 3 = 1#3 :=
    (congrArg (fld · 0 3) he).trans ((ex_lo _ (1#3) rfl).trans (ex_all _))
  rw [family_Vint0 f26_6, decodeVint0]
  simp only [f21_5, f16_5, f11_5, f10_1, f9_1, f6_3, f3_3, f0_3]
  exact rfl

theorem Encode.vmul (d : BitVec 5) (a : BitVec 5) (b : BitVec 5) (x : BitVec 1) (y : BitVec 1) (k : BitVec 3) : Encode.Statement (.vmul d a b x y k) := by
  intro _
  apply decode_of
  have he : encode (.vmul d a b x y k) = 0x19#6 ++ d ++ a ++ b ++ x ++ y ++ k ++ 0#3 ++ 2#3 := rfl
  generalize encode (.vmul d a b x y k) = v0 at he
  have f26_6 : fld v0 26 6 = 25#6 :=
    (congrArg (fld · 26 6) he).trans ((ex_hi _ (2#3) rfl).trans ((ex_hi _ (0#3) rfl).trans ((ex_hi _ (k) rfl).trans ((ex_hi _ (y) rfl).trans ((ex_hi _ (x) rfl).trans ((ex_hi _ (b) rfl).trans ((ex_hi _ (a) rfl).trans ((ex_hi _ (d) rfl).trans (ex_all _)))))))))
  have f21_5 : fld v0 21 5 = d :=
    (congrArg (fld · 21 5) he).trans ((ex_hi _ (2#3) rfl).trans ((ex_hi _ (0#3) rfl).trans ((ex_hi _ (k) rfl).trans ((ex_hi _ (y) rfl).trans ((ex_hi _ (x) rfl).trans ((ex_hi _ (b) rfl).trans ((ex_hi _ (a) rfl).trans ((ex_lo _ (d) rfl).trans (ex_all _)))))))))
  have f16_5 : fld v0 16 5 = a :=
    (congrArg (fld · 16 5) he).trans ((ex_hi _ (2#3) rfl).trans ((ex_hi _ (0#3) rfl).trans ((ex_hi _ (k) rfl).trans ((ex_hi _ (y) rfl).trans ((ex_hi _ (x) rfl).trans ((ex_hi _ (b) rfl).trans ((ex_lo _ (a) rfl).trans (ex_all _))))))))
  have f11_5 : fld v0 11 5 = b :=
    (congrArg (fld · 11 5) he).trans ((ex_hi _ (2#3) rfl).trans ((ex_hi _ (0#3) rfl).trans ((ex_hi _ (k) rfl).trans ((ex_hi _ (y) rfl).trans ((ex_hi _ (x) rfl).trans ((ex_lo _ (b) rfl).trans (ex_all _)))))))
  have f10_1 : fld v0 10 1 = x :=
    (congrArg (fld · 10 1) he).trans ((ex_hi _ (2#3) rfl).trans ((ex_hi _ (0#3) rfl).trans ((ex_hi _ (k) rfl).trans ((ex_hi _ (y) rfl).trans ((ex_lo _ (x) rfl).trans (ex_all _))))))
  have f9_1 : fld v0 9 1 = y :=
    (congrArg (fld · 9 1) he).trans ((ex_hi _ (2#3) rfl).trans ((ex_hi _ (0#3) rfl).trans ((ex_hi _ (k) rfl).trans ((ex_lo _ (y) rfl).trans (ex_all _)))))
  have f6_3 : fld v0 6 3 = k :=
    (congrArg (fld · 6 3) he).trans ((ex_hi _ (2#3) rfl).trans ((ex_hi _ (0#3) rfl).trans ((ex_lo _ (k) rfl).trans (ex_all _))))
  have f3_3 : fld v0 3 3 = 0#3 :=
    (congrArg (fld · 3 3) he).trans ((ex_hi _ (2#3) rfl).trans ((ex_lo _ (0#3) rfl).trans (ex_all _)))
  have f0_3 : fld v0 0 3 = 2#3 :=
    (congrArg (fld · 0 3) he).trans ((ex_lo _ (2#3) rfl).trans (ex_all _))
  rw [family_Vint0 f26_6, decodeVint0]
  simp only [f21_5, f16_5, f11_5, f10_1, f9_1, f6_3, f3_3, f0_3]
  exact rfl

theorem Encode.vmulh (d : BitVec 5) (a : BitVec 5) (b : BitVec 5) (x : BitVec 1) (y : BitVec 1) (k : BitVec 3) : Encode.Statement (.vmulh d a b x y k) := by
  intro _
  apply decode_of
  have he : encode (.vmulh d a b x y k) = 0x19#6 ++ d ++ a ++ b ++ x ++ y ++ k ++ 0#3 ++ 3#3 := rfl
  generalize encode (.vmulh d a b x y k) = v0 at he
  have f26_6 : fld v0 26 6 = 25#6 :=
    (congrArg (fld · 26 6) he).trans ((ex_hi _ (3#3) rfl).trans ((ex_hi _ (0#3) rfl).trans ((ex_hi _ (k) rfl).trans ((ex_hi _ (y) rfl).trans ((ex_hi _ (x) rfl).trans ((ex_hi _ (b) rfl).trans ((ex_hi _ (a) rfl).trans ((ex_hi _ (d) rfl).trans (ex_all _)))))))))
  have f21_5 : fld v0 21 5 = d :=
    (congrArg (fld · 21 5) he).trans ((ex_hi _ (3#3) rfl).trans ((ex_hi _ (0#3) rfl).trans ((ex_hi _ (k) rfl).trans ((ex_hi _ (y) rfl).trans ((ex_hi _ (x) rfl).trans ((ex_hi _ (b) rfl).trans ((ex_hi _ (a) rfl).trans ((ex_lo _ (d) rfl).trans (ex_all _)))))))))
  have f16_5 : fld v0 16 5 = a :=
    (congrArg (fld · 16 5) he).trans ((ex_hi _ (3#3) rfl).trans ((ex_hi _ (0#3) rfl).trans ((ex_hi _ (k) rfl).trans ((ex_hi _ (y) rfl).trans ((ex_hi _ (x) rfl).trans ((ex_hi _ (b) rfl).trans ((ex_lo _ (a) rfl).trans (ex_all _))))))))
  have f11_5 : fld v0 11 5 = b :=
    (congrArg (fld · 11 5) he).trans ((ex_hi _ (3#3) rfl).trans ((ex_hi _ (0#3) rfl).trans ((ex_hi _ (k) rfl).trans ((ex_hi _ (y) rfl).trans ((ex_hi _ (x) rfl).trans ((ex_lo _ (b) rfl).trans (ex_all _)))))))
  have f10_1 : fld v0 10 1 = x :=
    (congrArg (fld · 10 1) he).trans ((ex_hi _ (3#3) rfl).trans ((ex_hi _ (0#3) rfl).trans ((ex_hi _ (k) rfl).trans ((ex_hi _ (y) rfl).trans ((ex_lo _ (x) rfl).trans (ex_all _))))))
  have f9_1 : fld v0 9 1 = y :=
    (congrArg (fld · 9 1) he).trans ((ex_hi _ (3#3) rfl).trans ((ex_hi _ (0#3) rfl).trans ((ex_hi _ (k) rfl).trans ((ex_lo _ (y) rfl).trans (ex_all _)))))
  have f6_3 : fld v0 6 3 = k :=
    (congrArg (fld · 6 3) he).trans ((ex_hi _ (3#3) rfl).trans ((ex_hi _ (0#3) rfl).trans ((ex_lo _ (k) rfl).trans (ex_all _))))
  have f3_3 : fld v0 3 3 = 0#3 :=
    (congrArg (fld · 3 3) he).trans ((ex_hi _ (3#3) rfl).trans ((ex_lo _ (0#3) rfl).trans (ex_all _)))
  have f0_3 : fld v0 0 3 = 3#3 :=
    (congrArg (fld · 0 3) he).trans ((ex_lo _ (3#3) rfl).trans (ex_all _))
  rw [family_Vint0 f26_6, decodeVint0]
  simp only [f21_5, f16_5, f11_5, f10_1, f9_1, f6_3, f3_3, f0_3]
  exact rfl

theorem Encode.vand (d : BitVec 5) (a : BitVec 5) (b : BitVec 5) (x : BitVec 1) (y : BitVec 1) (k : BitVec 3) : Encode.Statement (.vand d a b x y k) := by
  intro _
  apply decode_of
  have he : encode (.vand d a b x y k) = 0x19#6 ++ d ++ a ++ b ++ x ++ y ++ k ++ 0#3 ++ 4#3 := rfl
  generalize encode (.vand d a b x y k) = v0 at he
  have f26_6 : fld v0 26 6 = 25#6 :=
    (congrArg (fld · 26 6) he).trans ((ex_hi _ (4#3) rfl).trans ((ex_hi _ (0#3) rfl).trans ((ex_hi _ (k) rfl).trans ((ex_hi _ (y) rfl).trans ((ex_hi _ (x) rfl).trans ((ex_hi _ (b) rfl).trans ((ex_hi _ (a) rfl).trans ((ex_hi _ (d) rfl).trans (ex_all _)))))))))
  have f21_5 : fld v0 21 5 = d :=
    (congrArg (fld · 21 5) he).trans ((ex_hi _ (4#3) rfl).trans ((ex_hi _ (0#3) rfl).trans ((ex_hi _ (k) rfl).trans ((ex_hi _ (y) rfl).trans ((ex_hi _ (x) rfl).trans ((ex_hi _ (b) rfl).trans ((ex_hi _ (a) rfl).trans ((ex_lo _ (d) rfl).trans (ex_all _)))))))))
  have f16_5 : fld v0 16 5 = a :=
    (congrArg (fld · 16 5) he).trans ((ex_hi _ (4#3) rfl).trans ((ex_hi _ (0#3) rfl).trans ((ex_hi _ (k) rfl).trans ((ex_hi _ (y) rfl).trans ((ex_hi _ (x) rfl).trans ((ex_hi _ (b) rfl).trans ((ex_lo _ (a) rfl).trans (ex_all _))))))))
  have f11_5 : fld v0 11 5 = b :=
    (congrArg (fld · 11 5) he).trans ((ex_hi _ (4#3) rfl).trans ((ex_hi _ (0#3) rfl).trans ((ex_hi _ (k) rfl).trans ((ex_hi _ (y) rfl).trans ((ex_hi _ (x) rfl).trans ((ex_lo _ (b) rfl).trans (ex_all _)))))))
  have f10_1 : fld v0 10 1 = x :=
    (congrArg (fld · 10 1) he).trans ((ex_hi _ (4#3) rfl).trans ((ex_hi _ (0#3) rfl).trans ((ex_hi _ (k) rfl).trans ((ex_hi _ (y) rfl).trans ((ex_lo _ (x) rfl).trans (ex_all _))))))
  have f9_1 : fld v0 9 1 = y :=
    (congrArg (fld · 9 1) he).trans ((ex_hi _ (4#3) rfl).trans ((ex_hi _ (0#3) rfl).trans ((ex_hi _ (k) rfl).trans ((ex_lo _ (y) rfl).trans (ex_all _)))))
  have f6_3 : fld v0 6 3 = k :=
    (congrArg (fld · 6 3) he).trans ((ex_hi _ (4#3) rfl).trans ((ex_hi _ (0#3) rfl).trans ((ex_lo _ (k) rfl).trans (ex_all _))))
  have f3_3 : fld v0 3 3 = 0#3 :=
    (congrArg (fld · 3 3) he).trans ((ex_hi _ (4#3) rfl).trans ((ex_lo _ (0#3) rfl).trans (ex_all _)))
  have f0_3 : fld v0 0 3 = 4#3 :=
    (congrArg (fld · 0 3) he).trans ((ex_lo _ (4#3) rfl).trans (ex_all _))
  rw [family_Vint0 f26_6, decodeVint0]
  simp only [f21_5, f16_5, f11_5, f10_1, f9_1, f6_3, f3_3, f0_3]
  exact rfl

theorem Encode.vor (d : BitVec 5) (a : BitVec 5) (b : BitVec 5) (x : BitVec 1) (y : BitVec 1) (k : BitVec 3) : Encode.Statement (.vor d a b x y k) := by
  intro _
  apply decode_of
  have he : encode (.vor d a b x y k) = 0x19#6 ++ d ++ a ++ b ++ x ++ y ++ k ++ 0#3 ++ 5#3 := rfl
  generalize encode (.vor d a b x y k) = v0 at he
  have f26_6 : fld v0 26 6 = 25#6 :=
    (congrArg (fld · 26 6) he).trans ((ex_hi _ (5#3) rfl).trans ((ex_hi _ (0#3) rfl).trans ((ex_hi _ (k) rfl).trans ((ex_hi _ (y) rfl).trans ((ex_hi _ (x) rfl).trans ((ex_hi _ (b) rfl).trans ((ex_hi _ (a) rfl).trans ((ex_hi _ (d) rfl).trans (ex_all _)))))))))
  have f21_5 : fld v0 21 5 = d :=
    (congrArg (fld · 21 5) he).trans ((ex_hi _ (5#3) rfl).trans ((ex_hi _ (0#3) rfl).trans ((ex_hi _ (k) rfl).trans ((ex_hi _ (y) rfl).trans ((ex_hi _ (x) rfl).trans ((ex_hi _ (b) rfl).trans ((ex_hi _ (a) rfl).trans ((ex_lo _ (d) rfl).trans (ex_all _)))))))))
  have f16_5 : fld v0 16 5 = a :=
    (congrArg (fld · 16 5) he).trans ((ex_hi _ (5#3) rfl).trans ((ex_hi _ (0#3) rfl).trans ((ex_hi _ (k) rfl).trans ((ex_hi _ (y) rfl).trans ((ex_hi _ (x) rfl).trans ((ex_hi _ (b) rfl).trans ((ex_lo _ (a) rfl).trans (ex_all _))))))))
  have f11_5 : fld v0 11 5 = b :=
    (congrArg (fld · 11 5) he).trans ((ex_hi _ (5#3) rfl).trans ((ex_hi _ (0#3) rfl).trans ((ex_hi _ (k) rfl).trans ((ex_hi _ (y) rfl).trans ((ex_hi _ (x) rfl).trans ((ex_lo _ (b) rfl).trans (ex_all _)))))))
  have f10_1 : fld v0 10 1 = x :=
    (congrArg (fld · 10 1) he).trans ((ex_hi _ (5#3) rfl).trans ((ex_hi _ (0#3) rfl).trans ((ex_hi _ (k) rfl).trans ((ex_hi _ (y) rfl).trans ((ex_lo _ (x) rfl).trans (ex_all _))))))
  have f9_1 : fld v0 9 1 = y :=
    (congrArg (fld · 9 1) he).trans ((ex_hi _ (5#3) rfl).trans ((ex_hi _ (0#3) rfl).trans ((ex_hi _ (k) rfl).trans ((ex_lo _ (y) rfl).trans (ex_all _)))))
  have f6_3 : fld v0 6 3 = k :=
    (congrArg (fld · 6 3) he).trans ((ex_hi _ (5#3) rfl).trans ((ex_hi _ (0#3) rfl).trans ((ex_lo _ (k) rfl).trans (ex_all _))))
  have f3_3 : fld v0 3 3 = 0#3 :=
    (congrArg (fld · 3 3) he).trans ((ex_hi _ (5#3) rfl).trans ((ex_lo _ (0#3) rfl).trans (ex_all _)))
  have f0_3 : fld v0 0 3 = 5#3 :=
    (congrArg (fld · 0 3) he).trans ((ex_lo _ (5#3) rfl).trans (ex_all _))
  rw [family_Vint0 f26_6, decodeVint0]
  simp only [f21_5, f16_5, f11_5, f10_1, f9_1, f6_3, f3_3, f0_3]
  exact rfl

theorem Encode.vxor (d : BitVec 5) (a : BitVec 5) (b : BitVec 5) (x : BitVec 1) (y : BitVec 1) (k : BitVec 3) : Encode.Statement (.vxor d a b x y k) := by
  intro _
  apply decode_of
  have he : encode (.vxor d a b x y k) = 0x19#6 ++ d ++ a ++ b ++ x ++ y ++ k ++ 0#3 ++ 6#3 := rfl
  generalize encode (.vxor d a b x y k) = v0 at he
  have f26_6 : fld v0 26 6 = 25#6 :=
    (congrArg (fld · 26 6) he).trans ((ex_hi _ (6#3) rfl).trans ((ex_hi _ (0#3) rfl).trans ((ex_hi _ (k) rfl).trans ((ex_hi _ (y) rfl).trans ((ex_hi _ (x) rfl).trans ((ex_hi _ (b) rfl).trans ((ex_hi _ (a) rfl).trans ((ex_hi _ (d) rfl).trans (ex_all _)))))))))
  have f21_5 : fld v0 21 5 = d :=
    (congrArg (fld · 21 5) he).trans ((ex_hi _ (6#3) rfl).trans ((ex_hi _ (0#3) rfl).trans ((ex_hi _ (k) rfl).trans ((ex_hi _ (y) rfl).trans ((ex_hi _ (x) rfl).trans ((ex_hi _ (b) rfl).trans ((ex_hi _ (a) rfl).trans ((ex_lo _ (d) rfl).trans (ex_all _)))))))))
  have f16_5 : fld v0 16 5 = a :=
    (congrArg (fld · 16 5) he).trans ((ex_hi _ (6#3) rfl).trans ((ex_hi _ (0#3) rfl).trans ((ex_hi _ (k) rfl).trans ((ex_hi _ (y) rfl).trans ((ex_hi _ (x) rfl).trans ((ex_hi _ (b) rfl).trans ((ex_lo _ (a) rfl).trans (ex_all _))))))))
  have f11_5 : fld v0 11 5 = b :=
    (congrArg (fld · 11 5) he).trans ((ex_hi _ (6#3) rfl).trans ((ex_hi _ (0#3) rfl).trans ((ex_hi _ (k) rfl).trans ((ex_hi _ (y) rfl).trans ((ex_hi _ (x) rfl).trans ((ex_lo _ (b) rfl).trans (ex_all _)))))))
  have f10_1 : fld v0 10 1 = x :=
    (congrArg (fld · 10 1) he).trans ((ex_hi _ (6#3) rfl).trans ((ex_hi _ (0#3) rfl).trans ((ex_hi _ (k) rfl).trans ((ex_hi _ (y) rfl).trans ((ex_lo _ (x) rfl).trans (ex_all _))))))
  have f9_1 : fld v0 9 1 = y :=
    (congrArg (fld · 9 1) he).trans ((ex_hi _ (6#3) rfl).trans ((ex_hi _ (0#3) rfl).trans ((ex_hi _ (k) rfl).trans ((ex_lo _ (y) rfl).trans (ex_all _)))))
  have f6_3 : fld v0 6 3 = k :=
    (congrArg (fld · 6 3) he).trans ((ex_hi _ (6#3) rfl).trans ((ex_hi _ (0#3) rfl).trans ((ex_lo _ (k) rfl).trans (ex_all _))))
  have f3_3 : fld v0 3 3 = 0#3 :=
    (congrArg (fld · 3 3) he).trans ((ex_hi _ (6#3) rfl).trans ((ex_lo _ (0#3) rfl).trans (ex_all _)))
  have f0_3 : fld v0 0 3 = 6#3 :=
    (congrArg (fld · 0 3) he).trans ((ex_lo _ (6#3) rfl).trans (ex_all _))
  rw [family_Vint0 f26_6, decodeVint0]
  simp only [f21_5, f16_5, f11_5, f10_1, f9_1, f6_3, f3_3, f0_3]
  exact rfl

theorem Encode.vandn (d : BitVec 5) (a : BitVec 5) (b : BitVec 5) (x : BitVec 1) (y : BitVec 1) (k : BitVec 3) : Encode.Statement (.vandn d a b x y k) := by
  intro _
  apply decode_of
  have he : encode (.vandn d a b x y k) = 0x19#6 ++ d ++ a ++ b ++ x ++ y ++ k ++ 0#3 ++ 7#3 := rfl
  generalize encode (.vandn d a b x y k) = v0 at he
  have f26_6 : fld v0 26 6 = 25#6 :=
    (congrArg (fld · 26 6) he).trans ((ex_hi _ (7#3) rfl).trans ((ex_hi _ (0#3) rfl).trans ((ex_hi _ (k) rfl).trans ((ex_hi _ (y) rfl).trans ((ex_hi _ (x) rfl).trans ((ex_hi _ (b) rfl).trans ((ex_hi _ (a) rfl).trans ((ex_hi _ (d) rfl).trans (ex_all _)))))))))
  have f21_5 : fld v0 21 5 = d :=
    (congrArg (fld · 21 5) he).trans ((ex_hi _ (7#3) rfl).trans ((ex_hi _ (0#3) rfl).trans ((ex_hi _ (k) rfl).trans ((ex_hi _ (y) rfl).trans ((ex_hi _ (x) rfl).trans ((ex_hi _ (b) rfl).trans ((ex_hi _ (a) rfl).trans ((ex_lo _ (d) rfl).trans (ex_all _)))))))))
  have f16_5 : fld v0 16 5 = a :=
    (congrArg (fld · 16 5) he).trans ((ex_hi _ (7#3) rfl).trans ((ex_hi _ (0#3) rfl).trans ((ex_hi _ (k) rfl).trans ((ex_hi _ (y) rfl).trans ((ex_hi _ (x) rfl).trans ((ex_hi _ (b) rfl).trans ((ex_lo _ (a) rfl).trans (ex_all _))))))))
  have f11_5 : fld v0 11 5 = b :=
    (congrArg (fld · 11 5) he).trans ((ex_hi _ (7#3) rfl).trans ((ex_hi _ (0#3) rfl).trans ((ex_hi _ (k) rfl).trans ((ex_hi _ (y) rfl).trans ((ex_hi _ (x) rfl).trans ((ex_lo _ (b) rfl).trans (ex_all _)))))))
  have f10_1 : fld v0 10 1 = x :=
    (congrArg (fld · 10 1) he).trans ((ex_hi _ (7#3) rfl).trans ((ex_hi _ (0#3) rfl).trans ((ex_hi _ (k) rfl).trans ((ex_hi _ (y) rfl).trans ((ex_lo _ (x) rfl).trans (ex_all _))))))
  have f9_1 : fld v0 9 1 = y :=
    (congrArg (fld · 9 1) he).trans ((ex_hi _ (7#3) rfl).trans ((ex_hi _ (0#3) rfl).trans ((ex_hi _ (k) rfl).trans ((ex_lo _ (y) rfl).trans (ex_all _)))))
  have f6_3 : fld v0 6 3 = k :=
    (congrArg (fld · 6 3) he).trans ((ex_hi _ (7#3) rfl).trans ((ex_hi _ (0#3) rfl).trans ((ex_lo _ (k) rfl).trans (ex_all _))))
  have f3_3 : fld v0 3 3 = 0#3 :=
    (congrArg (fld · 3 3) he).trans ((ex_hi _ (7#3) rfl).trans ((ex_lo _ (0#3) rfl).trans (ex_all _)))
  have f0_3 : fld v0 0 3 = 7#3 :=
    (congrArg (fld · 0 3) he).trans ((ex_lo _ (7#3) rfl).trans (ex_all _))
  rw [family_Vint0 f26_6, decodeVint0]
  simp only [f21_5, f16_5, f11_5, f10_1, f9_1, f6_3, f3_3, f0_3]
  exact rfl

theorem Encode.vsll (d : BitVec 5) (a : BitVec 5) (b : BitVec 5) (x : BitVec 1) (y : BitVec 1) (k : BitVec 3) : Encode.Statement (.vsll d a b x y k) := by
  intro _
  apply decode_of
  have he : encode (.vsll d a b x y k) = 0x1A#6 ++ d ++ a ++ b ++ x ++ y ++ k ++ 0#3 ++ 0#3 := rfl
  generalize encode (.vsll d a b x y k) = v0 at he
  have f26_6 : fld v0 26 6 = 26#6 :=
    (congrArg (fld · 26 6) he).trans ((ex_hi _ (0#3) rfl).trans ((ex_hi _ (0#3) rfl).trans ((ex_hi _ (k) rfl).trans ((ex_hi _ (y) rfl).trans ((ex_hi _ (x) rfl).trans ((ex_hi _ (b) rfl).trans ((ex_hi _ (a) rfl).trans ((ex_hi _ (d) rfl).trans (ex_all _)))))))))
  have f21_5 : fld v0 21 5 = d :=
    (congrArg (fld · 21 5) he).trans ((ex_hi _ (0#3) rfl).trans ((ex_hi _ (0#3) rfl).trans ((ex_hi _ (k) rfl).trans ((ex_hi _ (y) rfl).trans ((ex_hi _ (x) rfl).trans ((ex_hi _ (b) rfl).trans ((ex_hi _ (a) rfl).trans ((ex_lo _ (d) rfl).trans (ex_all _)))))))))
  have f16_5 : fld v0 16 5 = a :=
    (congrArg (fld · 16 5) he).trans ((ex_hi _ (0#3) rfl).trans ((ex_hi _ (0#3) rfl).trans ((ex_hi _ (k) rfl).trans ((ex_hi _ (y) rfl).trans ((ex_hi _ (x) rfl).trans ((ex_hi _ (b) rfl).trans ((ex_lo _ (a) rfl).trans (ex_all _))))))))
  have f11_5 : fld v0 11 5 = b :=
    (congrArg (fld · 11 5) he).trans ((ex_hi _ (0#3) rfl).trans ((ex_hi _ (0#3) rfl).trans ((ex_hi _ (k) rfl).trans ((ex_hi _ (y) rfl).trans ((ex_hi _ (x) rfl).trans ((ex_lo _ (b) rfl).trans (ex_all _)))))))
  have f10_1 : fld v0 10 1 = x :=
    (congrArg (fld · 10 1) he).trans ((ex_hi _ (0#3) rfl).trans ((ex_hi _ (0#3) rfl).trans ((ex_hi _ (k) rfl).trans ((ex_hi _ (y) rfl).trans ((ex_lo _ (x) rfl).trans (ex_all _))))))
  have f9_1 : fld v0 9 1 = y :=
    (congrArg (fld · 9 1) he).trans ((ex_hi _ (0#3) rfl).trans ((ex_hi _ (0#3) rfl).trans ((ex_hi _ (k) rfl).trans ((ex_lo _ (y) rfl).trans (ex_all _)))))
  have f6_3 : fld v0 6 3 = k :=
    (congrArg (fld · 6 3) he).trans ((ex_hi _ (0#3) rfl).trans ((ex_hi _ (0#3) rfl).trans ((ex_lo _ (k) rfl).trans (ex_all _))))
  have f3_3 : fld v0 3 3 = 0#3 :=
    (congrArg (fld · 3 3) he).trans ((ex_hi _ (0#3) rfl).trans ((ex_lo _ (0#3) rfl).trans (ex_all _)))
  have f0_3 : fld v0 0 3 = 0#3 :=
    (congrArg (fld · 0 3) he).trans ((ex_lo _ (0#3) rfl).trans (ex_all _))
  rw [family_Vint1 f26_6, decodeVint1]
  simp only [f21_5, f16_5, f11_5, f10_1, f9_1, f6_3, f3_3, f0_3]
  exact rfl

theorem Encode.vsrl (d : BitVec 5) (a : BitVec 5) (b : BitVec 5) (x : BitVec 1) (y : BitVec 1) (k : BitVec 3) : Encode.Statement (.vsrl d a b x y k) := by
  intro _
  apply decode_of
  have he : encode (.vsrl d a b x y k) = 0x1A#6 ++ d ++ a ++ b ++ x ++ y ++ k ++ 0#3 ++ 1#3 := rfl
  generalize encode (.vsrl d a b x y k) = v0 at he
  have f26_6 : fld v0 26 6 = 26#6 :=
    (congrArg (fld · 26 6) he).trans ((ex_hi _ (1#3) rfl).trans ((ex_hi _ (0#3) rfl).trans ((ex_hi _ (k) rfl).trans ((ex_hi _ (y) rfl).trans ((ex_hi _ (x) rfl).trans ((ex_hi _ (b) rfl).trans ((ex_hi _ (a) rfl).trans ((ex_hi _ (d) rfl).trans (ex_all _)))))))))
  have f21_5 : fld v0 21 5 = d :=
    (congrArg (fld · 21 5) he).trans ((ex_hi _ (1#3) rfl).trans ((ex_hi _ (0#3) rfl).trans ((ex_hi _ (k) rfl).trans ((ex_hi _ (y) rfl).trans ((ex_hi _ (x) rfl).trans ((ex_hi _ (b) rfl).trans ((ex_hi _ (a) rfl).trans ((ex_lo _ (d) rfl).trans (ex_all _)))))))))
  have f16_5 : fld v0 16 5 = a :=
    (congrArg (fld · 16 5) he).trans ((ex_hi _ (1#3) rfl).trans ((ex_hi _ (0#3) rfl).trans ((ex_hi _ (k) rfl).trans ((ex_hi _ (y) rfl).trans ((ex_hi _ (x) rfl).trans ((ex_hi _ (b) rfl).trans ((ex_lo _ (a) rfl).trans (ex_all _))))))))
  have f11_5 : fld v0 11 5 = b :=
    (congrArg (fld · 11 5) he).trans ((ex_hi _ (1#3) rfl).trans ((ex_hi _ (0#3) rfl).trans ((ex_hi _ (k) rfl).trans ((ex_hi _ (y) rfl).trans ((ex_hi _ (x) rfl).trans ((ex_lo _ (b) rfl).trans (ex_all _)))))))
  have f10_1 : fld v0 10 1 = x :=
    (congrArg (fld · 10 1) he).trans ((ex_hi _ (1#3) rfl).trans ((ex_hi _ (0#3) rfl).trans ((ex_hi _ (k) rfl).trans ((ex_hi _ (y) rfl).trans ((ex_lo _ (x) rfl).trans (ex_all _))))))
  have f9_1 : fld v0 9 1 = y :=
    (congrArg (fld · 9 1) he).trans ((ex_hi _ (1#3) rfl).trans ((ex_hi _ (0#3) rfl).trans ((ex_hi _ (k) rfl).trans ((ex_lo _ (y) rfl).trans (ex_all _)))))
  have f6_3 : fld v0 6 3 = k :=
    (congrArg (fld · 6 3) he).trans ((ex_hi _ (1#3) rfl).trans ((ex_hi _ (0#3) rfl).trans ((ex_lo _ (k) rfl).trans (ex_all _))))
  have f3_3 : fld v0 3 3 = 0#3 :=
    (congrArg (fld · 3 3) he).trans ((ex_hi _ (1#3) rfl).trans ((ex_lo _ (0#3) rfl).trans (ex_all _)))
  have f0_3 : fld v0 0 3 = 1#3 :=
    (congrArg (fld · 0 3) he).trans ((ex_lo _ (1#3) rfl).trans (ex_all _))
  rw [family_Vint1 f26_6, decodeVint1]
  simp only [f21_5, f16_5, f11_5, f10_1, f9_1, f6_3, f3_3, f0_3]
  exact rfl

theorem Encode.vsra (d : BitVec 5) (a : BitVec 5) (b : BitVec 5) (x : BitVec 1) (y : BitVec 1) (k : BitVec 3) : Encode.Statement (.vsra d a b x y k) := by
  intro _
  apply decode_of
  have he : encode (.vsra d a b x y k) = 0x1A#6 ++ d ++ a ++ b ++ x ++ y ++ k ++ 0#3 ++ 2#3 := rfl
  generalize encode (.vsra d a b x y k) = v0 at he
  have f26_6 : fld v0 26 6 = 26#6 :=
    (congrArg (fld · 26 6) he).trans ((ex_hi _ (2#3) rfl).trans ((ex_hi _ (0#3) rfl).trans ((ex_hi _ (k) rfl).trans ((ex_hi _ (y) rfl).trans ((ex_hi _ (x) rfl).trans ((ex_hi _ (b) rfl).trans ((ex_hi _ (a) rfl).trans ((ex_hi _ (d) rfl).trans (ex_all _)))))))))
  have f21_5 : fld v0 21 5 = d :=
    (congrArg (fld · 21 5) he).trans ((ex_hi _ (2#3) rfl).trans ((ex_hi _ (0#3) rfl).trans ((ex_hi _ (k) rfl).trans ((ex_hi _ (y) rfl).trans ((ex_hi _ (x) rfl).trans ((ex_hi _ (b) rfl).trans ((ex_hi _ (a) rfl).trans ((ex_lo _ (d) rfl).trans (ex_all _)))))))))
  have f16_5 : fld v0 16 5 = a :=
    (congrArg (fld · 16 5) he).trans ((ex_hi _ (2#3) rfl).trans ((ex_hi _ (0#3) rfl).trans ((ex_hi _ (k) rfl).trans ((ex_hi _ (y) rfl).trans ((ex_hi _ (x) rfl).trans ((ex_hi _ (b) rfl).trans ((ex_lo _ (a) rfl).trans (ex_all _))))))))
  have f11_5 : fld v0 11 5 = b :=
    (congrArg (fld · 11 5) he).trans ((ex_hi _ (2#3) rfl).trans ((ex_hi _ (0#3) rfl).trans ((ex_hi _ (k) rfl).trans ((ex_hi _ (y) rfl).trans ((ex_hi _ (x) rfl).trans ((ex_lo _ (b) rfl).trans (ex_all _)))))))
  have f10_1 : fld v0 10 1 = x :=
    (congrArg (fld · 10 1) he).trans ((ex_hi _ (2#3) rfl).trans ((ex_hi _ (0#3) rfl).trans ((ex_hi _ (k) rfl).trans ((ex_hi _ (y) rfl).trans ((ex_lo _ (x) rfl).trans (ex_all _))))))
  have f9_1 : fld v0 9 1 = y :=
    (congrArg (fld · 9 1) he).trans ((ex_hi _ (2#3) rfl).trans ((ex_hi _ (0#3) rfl).trans ((ex_hi _ (k) rfl).trans ((ex_lo _ (y) rfl).trans (ex_all _)))))
  have f6_3 : fld v0 6 3 = k :=
    (congrArg (fld · 6 3) he).trans ((ex_hi _ (2#3) rfl).trans ((ex_hi _ (0#3) rfl).trans ((ex_lo _ (k) rfl).trans (ex_all _))))
  have f3_3 : fld v0 3 3 = 0#3 :=
    (congrArg (fld · 3 3) he).trans ((ex_hi _ (2#3) rfl).trans ((ex_lo _ (0#3) rfl).trans (ex_all _)))
  have f0_3 : fld v0 0 3 = 2#3 :=
    (congrArg (fld · 0 3) he).trans ((ex_lo _ (2#3) rfl).trans (ex_all _))
  rw [family_Vint1 f26_6, decodeVint1]
  simp only [f21_5, f16_5, f11_5, f10_1, f9_1, f6_3, f3_3, f0_3]
  exact rfl

theorem Encode.vmin (d : BitVec 5) (a : BitVec 5) (b : BitVec 5) (x : BitVec 1) (y : BitVec 1) (k : BitVec 3) : Encode.Statement (.vmin d a b x y k) := by
  intro _
  apply decode_of
  have he : encode (.vmin d a b x y k) = 0x1A#6 ++ d ++ a ++ b ++ x ++ y ++ k ++ 0#3 ++ 3#3 := rfl
  generalize encode (.vmin d a b x y k) = v0 at he
  have f26_6 : fld v0 26 6 = 26#6 :=
    (congrArg (fld · 26 6) he).trans ((ex_hi _ (3#3) rfl).trans ((ex_hi _ (0#3) rfl).trans ((ex_hi _ (k) rfl).trans ((ex_hi _ (y) rfl).trans ((ex_hi _ (x) rfl).trans ((ex_hi _ (b) rfl).trans ((ex_hi _ (a) rfl).trans ((ex_hi _ (d) rfl).trans (ex_all _)))))))))
  have f21_5 : fld v0 21 5 = d :=
    (congrArg (fld · 21 5) he).trans ((ex_hi _ (3#3) rfl).trans ((ex_hi _ (0#3) rfl).trans ((ex_hi _ (k) rfl).trans ((ex_hi _ (y) rfl).trans ((ex_hi _ (x) rfl).trans ((ex_hi _ (b) rfl).trans ((ex_hi _ (a) rfl).trans ((ex_lo _ (d) rfl).trans (ex_all _)))))))))
  have f16_5 : fld v0 16 5 = a :=
    (congrArg (fld · 16 5) he).trans ((ex_hi _ (3#3) rfl).trans ((ex_hi _ (0#3) rfl).trans ((ex_hi _ (k) rfl).trans ((ex_hi _ (y) rfl).trans ((ex_hi _ (x) rfl).trans ((ex_hi _ (b) rfl).trans ((ex_lo _ (a) rfl).trans (ex_all _))))))))
  have f11_5 : fld v0 11 5 = b :=
    (congrArg (fld · 11 5) he).trans ((ex_hi _ (3#3) rfl).trans ((ex_hi _ (0#3) rfl).trans ((ex_hi _ (k) rfl).trans ((ex_hi _ (y) rfl).trans ((ex_hi _ (x) rfl).trans ((ex_lo _ (b) rfl).trans (ex_all _)))))))
  have f10_1 : fld v0 10 1 = x :=
    (congrArg (fld · 10 1) he).trans ((ex_hi _ (3#3) rfl).trans ((ex_hi _ (0#3) rfl).trans ((ex_hi _ (k) rfl).trans ((ex_hi _ (y) rfl).trans ((ex_lo _ (x) rfl).trans (ex_all _))))))
  have f9_1 : fld v0 9 1 = y :=
    (congrArg (fld · 9 1) he).trans ((ex_hi _ (3#3) rfl).trans ((ex_hi _ (0#3) rfl).trans ((ex_hi _ (k) rfl).trans ((ex_lo _ (y) rfl).trans (ex_all _)))))
  have f6_3 : fld v0 6 3 = k :=
    (congrArg (fld · 6 3) he).trans ((ex_hi _ (3#3) rfl).trans ((ex_hi _ (0#3) rfl).trans ((ex_lo _ (k) rfl).trans (ex_all _))))
  have f3_3 : fld v0 3 3 = 0#3 :=
    (congrArg (fld · 3 3) he).trans ((ex_hi _ (3#3) rfl).trans ((ex_lo _ (0#3) rfl).trans (ex_all _)))
  have f0_3 : fld v0 0 3 = 3#3 :=
    (congrArg (fld · 0 3) he).trans ((ex_lo _ (3#3) rfl).trans (ex_all _))
  rw [family_Vint1 f26_6, decodeVint1]
  simp only [f21_5, f16_5, f11_5, f10_1, f9_1, f6_3, f3_3, f0_3]
  exact rfl

theorem Encode.vmax (d : BitVec 5) (a : BitVec 5) (b : BitVec 5) (x : BitVec 1) (y : BitVec 1) (k : BitVec 3) : Encode.Statement (.vmax d a b x y k) := by
  intro _
  apply decode_of
  have he : encode (.vmax d a b x y k) = 0x1A#6 ++ d ++ a ++ b ++ x ++ y ++ k ++ 0#3 ++ 4#3 := rfl
  generalize encode (.vmax d a b x y k) = v0 at he
  have f26_6 : fld v0 26 6 = 26#6 :=
    (congrArg (fld · 26 6) he).trans ((ex_hi _ (4#3) rfl).trans ((ex_hi _ (0#3) rfl).trans ((ex_hi _ (k) rfl).trans ((ex_hi _ (y) rfl).trans ((ex_hi _ (x) rfl).trans ((ex_hi _ (b) rfl).trans ((ex_hi _ (a) rfl).trans ((ex_hi _ (d) rfl).trans (ex_all _)))))))))
  have f21_5 : fld v0 21 5 = d :=
    (congrArg (fld · 21 5) he).trans ((ex_hi _ (4#3) rfl).trans ((ex_hi _ (0#3) rfl).trans ((ex_hi _ (k) rfl).trans ((ex_hi _ (y) rfl).trans ((ex_hi _ (x) rfl).trans ((ex_hi _ (b) rfl).trans ((ex_hi _ (a) rfl).trans ((ex_lo _ (d) rfl).trans (ex_all _)))))))))
  have f16_5 : fld v0 16 5 = a :=
    (congrArg (fld · 16 5) he).trans ((ex_hi _ (4#3) rfl).trans ((ex_hi _ (0#3) rfl).trans ((ex_hi _ (k) rfl).trans ((ex_hi _ (y) rfl).trans ((ex_hi _ (x) rfl).trans ((ex_hi _ (b) rfl).trans ((ex_lo _ (a) rfl).trans (ex_all _))))))))
  have f11_5 : fld v0 11 5 = b :=
    (congrArg (fld · 11 5) he).trans ((ex_hi _ (4#3) rfl).trans ((ex_hi _ (0#3) rfl).trans ((ex_hi _ (k) rfl).trans ((ex_hi _ (y) rfl).trans ((ex_hi _ (x) rfl).trans ((ex_lo _ (b) rfl).trans (ex_all _)))))))
  have f10_1 : fld v0 10 1 = x :=
    (congrArg (fld · 10 1) he).trans ((ex_hi _ (4#3) rfl).trans ((ex_hi _ (0#3) rfl).trans ((ex_hi _ (k) rfl).trans ((ex_hi _ (y) rfl).trans ((ex_lo _ (x) rfl).trans (ex_all _))))))
  have f9_1 : fld v0 9 1 = y :=
    (congrArg (fld · 9 1) he).trans ((ex_hi _ (4#3) rfl).trans ((ex_hi _ (0#3) rfl).trans ((ex_hi _ (k) rfl).trans ((ex_lo _ (y) rfl).trans (ex_all _)))))
  have f6_3 : fld v0 6 3 = k :=
    (congrArg (fld · 6 3) he).trans ((ex_hi _ (4#3) rfl).trans ((ex_hi _ (0#3) rfl).trans ((ex_lo _ (k) rfl).trans (ex_all _))))
  have f3_3 : fld v0 3 3 = 0#3 :=
    (congrArg (fld · 3 3) he).trans ((ex_hi _ (4#3) rfl).trans ((ex_lo _ (0#3) rfl).trans (ex_all _)))
  have f0_3 : fld v0 0 3 = 4#3 :=
    (congrArg (fld · 0 3) he).trans ((ex_lo _ (4#3) rfl).trans (ex_all _))
  rw [family_Vint1 f26_6, decodeVint1]
  simp only [f21_5, f16_5, f11_5, f10_1, f9_1, f6_3, f3_3, f0_3]
  exact rfl

theorem Encode.vminu (d : BitVec 5) (a : BitVec 5) (b : BitVec 5) (x : BitVec 1) (y : BitVec 1) (k : BitVec 3) : Encode.Statement (.vminu d a b x y k) := by
  intro _
  apply decode_of
  have he : encode (.vminu d a b x y k) = 0x1A#6 ++ d ++ a ++ b ++ x ++ y ++ k ++ 0#3 ++ 5#3 := rfl
  generalize encode (.vminu d a b x y k) = v0 at he
  have f26_6 : fld v0 26 6 = 26#6 :=
    (congrArg (fld · 26 6) he).trans ((ex_hi _ (5#3) rfl).trans ((ex_hi _ (0#3) rfl).trans ((ex_hi _ (k) rfl).trans ((ex_hi _ (y) rfl).trans ((ex_hi _ (x) rfl).trans ((ex_hi _ (b) rfl).trans ((ex_hi _ (a) rfl).trans ((ex_hi _ (d) rfl).trans (ex_all _)))))))))
  have f21_5 : fld v0 21 5 = d :=
    (congrArg (fld · 21 5) he).trans ((ex_hi _ (5#3) rfl).trans ((ex_hi _ (0#3) rfl).trans ((ex_hi _ (k) rfl).trans ((ex_hi _ (y) rfl).trans ((ex_hi _ (x) rfl).trans ((ex_hi _ (b) rfl).trans ((ex_hi _ (a) rfl).trans ((ex_lo _ (d) rfl).trans (ex_all _)))))))))
  have f16_5 : fld v0 16 5 = a :=
    (congrArg (fld · 16 5) he).trans ((ex_hi _ (5#3) rfl).trans ((ex_hi _ (0#3) rfl).trans ((ex_hi _ (k) rfl).trans ((ex_hi _ (y) rfl).trans ((ex_hi _ (x) rfl).trans ((ex_hi _ (b) rfl).trans ((ex_lo _ (a) rfl).trans (ex_all _))))))))
  have f11_5 : fld v0 11 5 = b :=
    (congrArg (fld · 11 5) he).trans ((ex_hi _ (5#3) rfl).trans ((ex_hi _ (0#3) rfl).trans ((ex_hi _ (k) rfl).trans ((ex_hi _ (y) rfl).trans ((ex_hi _ (x) rfl).trans ((ex_lo _ (b) rfl).trans (ex_all _)))))))
  have f10_1 : fld v0 10 1 = x :=
    (congrArg (fld · 10 1) he).trans ((ex_hi _ (5#3) rfl).trans ((ex_hi _ (0#3) rfl).trans ((ex_hi _ (k) rfl).trans ((ex_hi _ (y) rfl).trans ((ex_lo _ (x) rfl).trans (ex_all _))))))
  have f9_1 : fld v0 9 1 = y :=
    (congrArg (fld · 9 1) he).trans ((ex_hi _ (5#3) rfl).trans ((ex_hi _ (0#3) rfl).trans ((ex_hi _ (k) rfl).trans ((ex_lo _ (y) rfl).trans (ex_all _)))))
  have f6_3 : fld v0 6 3 = k :=
    (congrArg (fld · 6 3) he).trans ((ex_hi _ (5#3) rfl).trans ((ex_hi _ (0#3) rfl).trans ((ex_lo _ (k) rfl).trans (ex_all _))))
  have f3_3 : fld v0 3 3 = 0#3 :=
    (congrArg (fld · 3 3) he).trans ((ex_hi _ (5#3) rfl).trans ((ex_lo _ (0#3) rfl).trans (ex_all _)))
  have f0_3 : fld v0 0 3 = 5#3 :=
    (congrArg (fld · 0 3) he).trans ((ex_lo _ (5#3) rfl).trans (ex_all _))
  rw [family_Vint1 f26_6, decodeVint1]
  simp only [f21_5, f16_5, f11_5, f10_1, f9_1, f6_3, f3_3, f0_3]
  exact rfl

theorem Encode.vmaxu (d : BitVec 5) (a : BitVec 5) (b : BitVec 5) (x : BitVec 1) (y : BitVec 1) (k : BitVec 3) : Encode.Statement (.vmaxu d a b x y k) := by
  intro _
  apply decode_of
  have he : encode (.vmaxu d a b x y k) = 0x1A#6 ++ d ++ a ++ b ++ x ++ y ++ k ++ 0#3 ++ 6#3 := rfl
  generalize encode (.vmaxu d a b x y k) = v0 at he
  have f26_6 : fld v0 26 6 = 26#6 :=
    (congrArg (fld · 26 6) he).trans ((ex_hi _ (6#3) rfl).trans ((ex_hi _ (0#3) rfl).trans ((ex_hi _ (k) rfl).trans ((ex_hi _ (y) rfl).trans ((ex_hi _ (x) rfl).trans ((ex_hi _ (b) rfl).trans ((ex_hi _ (a) rfl).trans ((ex_hi _ (d) rfl).trans (ex_all _)))))))))
  have f21_5 : fld v0 21 5 = d :=
    (congrArg (fld · 21 5) he).trans ((ex_hi _ (6#3) rfl).trans ((ex_hi _ (0#3) rfl).trans ((ex_hi _ (k) rfl).trans ((ex_hi _ (y) rfl).trans ((ex_hi _ (x) rfl).trans ((ex_hi _ (b) rfl).trans ((ex_hi _ (a) rfl).trans ((ex_lo _ (d) rfl).trans (ex_all _)))))))))
  have f16_5 : fld v0 16 5 = a :=
    (congrArg (fld · 16 5) he).trans ((ex_hi _ (6#3) rfl).trans ((ex_hi _ (0#3) rfl).trans ((ex_hi _ (k) rfl).trans ((ex_hi _ (y) rfl).trans ((ex_hi _ (x) rfl).trans ((ex_hi _ (b) rfl).trans ((ex_lo _ (a) rfl).trans (ex_all _))))))))
  have f11_5 : fld v0 11 5 = b :=
    (congrArg (fld · 11 5) he).trans ((ex_hi _ (6#3) rfl).trans ((ex_hi _ (0#3) rfl).trans ((ex_hi _ (k) rfl).trans ((ex_hi _ (y) rfl).trans ((ex_hi _ (x) rfl).trans ((ex_lo _ (b) rfl).trans (ex_all _)))))))
  have f10_1 : fld v0 10 1 = x :=
    (congrArg (fld · 10 1) he).trans ((ex_hi _ (6#3) rfl).trans ((ex_hi _ (0#3) rfl).trans ((ex_hi _ (k) rfl).trans ((ex_hi _ (y) rfl).trans ((ex_lo _ (x) rfl).trans (ex_all _))))))
  have f9_1 : fld v0 9 1 = y :=
    (congrArg (fld · 9 1) he).trans ((ex_hi _ (6#3) rfl).trans ((ex_hi _ (0#3) rfl).trans ((ex_hi _ (k) rfl).trans ((ex_lo _ (y) rfl).trans (ex_all _)))))
  have f6_3 : fld v0 6 3 = k :=
    (congrArg (fld · 6 3) he).trans ((ex_hi _ (6#3) rfl).trans ((ex_hi _ (0#3) rfl).trans ((ex_lo _ (k) rfl).trans (ex_all _))))
  have f3_3 : fld v0 3 3 = 0#3 :=
    (congrArg (fld · 3 3) he).trans ((ex_hi _ (6#3) rfl).trans ((ex_lo _ (0#3) rfl).trans (ex_all _)))
  have f0_3 : fld v0 0 3 = 6#3 :=
    (congrArg (fld · 0 3) he).trans ((ex_lo _ (6#3) rfl).trans (ex_all _))
  rw [family_Vint1 f26_6, decodeVint1]
  simp only [f21_5, f16_5, f11_5, f10_1, f9_1, f6_3, f3_3, f0_3]
  exact rfl

theorem Encode.vadds (d : BitVec 5) (a : BitVec 5) (b : BitVec 5) (x : BitVec 1) (y : BitVec 1) (k : BitVec 3) : Encode.Statement (.vadds d a b x y k) := by
  intro _
  apply decode_of
  have he : encode (.vadds d a b x y k) = 0x1A#6 ++ d ++ a ++ b ++ x ++ y ++ k ++ 0#3 ++ 7#3 := rfl
  generalize encode (.vadds d a b x y k) = v0 at he
  have f26_6 : fld v0 26 6 = 26#6 :=
    (congrArg (fld · 26 6) he).trans ((ex_hi _ (7#3) rfl).trans ((ex_hi _ (0#3) rfl).trans ((ex_hi _ (k) rfl).trans ((ex_hi _ (y) rfl).trans ((ex_hi _ (x) rfl).trans ((ex_hi _ (b) rfl).trans ((ex_hi _ (a) rfl).trans ((ex_hi _ (d) rfl).trans (ex_all _)))))))))
  have f21_5 : fld v0 21 5 = d :=
    (congrArg (fld · 21 5) he).trans ((ex_hi _ (7#3) rfl).trans ((ex_hi _ (0#3) rfl).trans ((ex_hi _ (k) rfl).trans ((ex_hi _ (y) rfl).trans ((ex_hi _ (x) rfl).trans ((ex_hi _ (b) rfl).trans ((ex_hi _ (a) rfl).trans ((ex_lo _ (d) rfl).trans (ex_all _)))))))))
  have f16_5 : fld v0 16 5 = a :=
    (congrArg (fld · 16 5) he).trans ((ex_hi _ (7#3) rfl).trans ((ex_hi _ (0#3) rfl).trans ((ex_hi _ (k) rfl).trans ((ex_hi _ (y) rfl).trans ((ex_hi _ (x) rfl).trans ((ex_hi _ (b) rfl).trans ((ex_lo _ (a) rfl).trans (ex_all _))))))))
  have f11_5 : fld v0 11 5 = b :=
    (congrArg (fld · 11 5) he).trans ((ex_hi _ (7#3) rfl).trans ((ex_hi _ (0#3) rfl).trans ((ex_hi _ (k) rfl).trans ((ex_hi _ (y) rfl).trans ((ex_hi _ (x) rfl).trans ((ex_lo _ (b) rfl).trans (ex_all _)))))))
  have f10_1 : fld v0 10 1 = x :=
    (congrArg (fld · 10 1) he).trans ((ex_hi _ (7#3) rfl).trans ((ex_hi _ (0#3) rfl).trans ((ex_hi _ (k) rfl).trans ((ex_hi _ (y) rfl).trans ((ex_lo _ (x) rfl).trans (ex_all _))))))
  have f9_1 : fld v0 9 1 = y :=
    (congrArg (fld · 9 1) he).trans ((ex_hi _ (7#3) rfl).trans ((ex_hi _ (0#3) rfl).trans ((ex_hi _ (k) rfl).trans ((ex_lo _ (y) rfl).trans (ex_all _)))))
  have f6_3 : fld v0 6 3 = k :=
    (congrArg (fld · 6 3) he).trans ((ex_hi _ (7#3) rfl).trans ((ex_hi _ (0#3) rfl).trans ((ex_lo _ (k) rfl).trans (ex_all _))))
  have f3_3 : fld v0 3 3 = 0#3 :=
    (congrArg (fld · 3 3) he).trans ((ex_hi _ (7#3) rfl).trans ((ex_lo _ (0#3) rfl).trans (ex_all _)))
  have f0_3 : fld v0 0 3 = 7#3 :=
    (congrArg (fld · 0 3) he).trans ((ex_lo _ (7#3) rfl).trans (ex_all _))
  rw [family_Vint1 f26_6, decodeVint1]
  simp only [f21_5, f16_5, f11_5, f10_1, f9_1, f6_3, f3_3, f0_3]
  exact rfl

theorem Encode.vcmpEq (d : BitVec 3) (a : BitVec 5) (b : BitVec 5) (x : BitVec 1) (y : BitVec 1) (k : BitVec 3) : Encode.Statement (.vcmpEq d a b x y k) := by
  intro (hw : ((d != 0#3)) = true)
  apply decode_of
  have he : encode (.vcmpEq d a b x y k) = 0x1B#6 ++ 0#2 ++ d ++ a ++ b ++ x ++ y ++ k ++ 0#3 ++ 0#3 := rfl
  generalize encode (.vcmpEq d a b x y k) = v0 at he
  have f26_6 : fld v0 26 6 = 27#6 :=
    (congrArg (fld · 26 6) he).trans ((ex_hi _ (0#3) rfl).trans ((ex_hi _ (0#3) rfl).trans ((ex_hi _ (k) rfl).trans ((ex_hi _ (y) rfl).trans ((ex_hi _ (x) rfl).trans ((ex_hi _ (b) rfl).trans ((ex_hi _ (a) rfl).trans ((ex_hi _ (d) rfl).trans ((ex_hi _ (0#2) rfl).trans (ex_all _))))))))))
  have f24_2 : fld v0 24 2 = 0#2 :=
    (congrArg (fld · 24 2) he).trans ((ex_hi _ (0#3) rfl).trans ((ex_hi _ (0#3) rfl).trans ((ex_hi _ (k) rfl).trans ((ex_hi _ (y) rfl).trans ((ex_hi _ (x) rfl).trans ((ex_hi _ (b) rfl).trans ((ex_hi _ (a) rfl).trans ((ex_hi _ (d) rfl).trans ((ex_lo _ (0#2) rfl).trans (ex_all _))))))))))
  have f21_3 : fld v0 21 3 = d :=
    (congrArg (fld · 21 3) he).trans ((ex_hi _ (0#3) rfl).trans ((ex_hi _ (0#3) rfl).trans ((ex_hi _ (k) rfl).trans ((ex_hi _ (y) rfl).trans ((ex_hi _ (x) rfl).trans ((ex_hi _ (b) rfl).trans ((ex_hi _ (a) rfl).trans ((ex_lo _ (d) rfl).trans (ex_all _)))))))))
  have f16_5 : fld v0 16 5 = a :=
    (congrArg (fld · 16 5) he).trans ((ex_hi _ (0#3) rfl).trans ((ex_hi _ (0#3) rfl).trans ((ex_hi _ (k) rfl).trans ((ex_hi _ (y) rfl).trans ((ex_hi _ (x) rfl).trans ((ex_hi _ (b) rfl).trans ((ex_lo _ (a) rfl).trans (ex_all _))))))))
  have f11_5 : fld v0 11 5 = b :=
    (congrArg (fld · 11 5) he).trans ((ex_hi _ (0#3) rfl).trans ((ex_hi _ (0#3) rfl).trans ((ex_hi _ (k) rfl).trans ((ex_hi _ (y) rfl).trans ((ex_hi _ (x) rfl).trans ((ex_lo _ (b) rfl).trans (ex_all _)))))))
  have f10_1 : fld v0 10 1 = x :=
    (congrArg (fld · 10 1) he).trans ((ex_hi _ (0#3) rfl).trans ((ex_hi _ (0#3) rfl).trans ((ex_hi _ (k) rfl).trans ((ex_hi _ (y) rfl).trans ((ex_lo _ (x) rfl).trans (ex_all _))))))
  have f9_1 : fld v0 9 1 = y :=
    (congrArg (fld · 9 1) he).trans ((ex_hi _ (0#3) rfl).trans ((ex_hi _ (0#3) rfl).trans ((ex_hi _ (k) rfl).trans ((ex_lo _ (y) rfl).trans (ex_all _)))))
  have f6_3 : fld v0 6 3 = k :=
    (congrArg (fld · 6 3) he).trans ((ex_hi _ (0#3) rfl).trans ((ex_hi _ (0#3) rfl).trans ((ex_lo _ (k) rfl).trans (ex_all _))))
  have f3_3 : fld v0 3 3 = 0#3 :=
    (congrArg (fld · 3 3) he).trans ((ex_hi _ (0#3) rfl).trans ((ex_lo _ (0#3) rfl).trans (ex_all _)))
  have f0_3 : fld v0 0 3 = 0#3 :=
    (congrArg (fld · 0 3) he).trans ((ex_lo _ (0#3) rfl).trans (ex_all _))
  rw [family_Vcmp f26_6, decodeVcmp]
  simp only [f24_2, f21_3, f16_5, f11_5, f10_1, f9_1, f6_3, f3_3, f0_3]
  exact needs_of hw

theorem Encode.vcmpNe (d : BitVec 3) (a : BitVec 5) (b : BitVec 5) (x : BitVec 1) (y : BitVec 1) (k : BitVec 3) : Encode.Statement (.vcmpNe d a b x y k) := by
  intro (hw : ((d != 0#3)) = true)
  apply decode_of
  have he : encode (.vcmpNe d a b x y k) = 0x1B#6 ++ 0#2 ++ d ++ a ++ b ++ x ++ y ++ k ++ 0#3 ++ 1#3 := rfl
  generalize encode (.vcmpNe d a b x y k) = v0 at he
  have f26_6 : fld v0 26 6 = 27#6 :=
    (congrArg (fld · 26 6) he).trans ((ex_hi _ (1#3) rfl).trans ((ex_hi _ (0#3) rfl).trans ((ex_hi _ (k) rfl).trans ((ex_hi _ (y) rfl).trans ((ex_hi _ (x) rfl).trans ((ex_hi _ (b) rfl).trans ((ex_hi _ (a) rfl).trans ((ex_hi _ (d) rfl).trans ((ex_hi _ (0#2) rfl).trans (ex_all _))))))))))
  have f24_2 : fld v0 24 2 = 0#2 :=
    (congrArg (fld · 24 2) he).trans ((ex_hi _ (1#3) rfl).trans ((ex_hi _ (0#3) rfl).trans ((ex_hi _ (k) rfl).trans ((ex_hi _ (y) rfl).trans ((ex_hi _ (x) rfl).trans ((ex_hi _ (b) rfl).trans ((ex_hi _ (a) rfl).trans ((ex_hi _ (d) rfl).trans ((ex_lo _ (0#2) rfl).trans (ex_all _))))))))))
  have f21_3 : fld v0 21 3 = d :=
    (congrArg (fld · 21 3) he).trans ((ex_hi _ (1#3) rfl).trans ((ex_hi _ (0#3) rfl).trans ((ex_hi _ (k) rfl).trans ((ex_hi _ (y) rfl).trans ((ex_hi _ (x) rfl).trans ((ex_hi _ (b) rfl).trans ((ex_hi _ (a) rfl).trans ((ex_lo _ (d) rfl).trans (ex_all _)))))))))
  have f16_5 : fld v0 16 5 = a :=
    (congrArg (fld · 16 5) he).trans ((ex_hi _ (1#3) rfl).trans ((ex_hi _ (0#3) rfl).trans ((ex_hi _ (k) rfl).trans ((ex_hi _ (y) rfl).trans ((ex_hi _ (x) rfl).trans ((ex_hi _ (b) rfl).trans ((ex_lo _ (a) rfl).trans (ex_all _))))))))
  have f11_5 : fld v0 11 5 = b :=
    (congrArg (fld · 11 5) he).trans ((ex_hi _ (1#3) rfl).trans ((ex_hi _ (0#3) rfl).trans ((ex_hi _ (k) rfl).trans ((ex_hi _ (y) rfl).trans ((ex_hi _ (x) rfl).trans ((ex_lo _ (b) rfl).trans (ex_all _)))))))
  have f10_1 : fld v0 10 1 = x :=
    (congrArg (fld · 10 1) he).trans ((ex_hi _ (1#3) rfl).trans ((ex_hi _ (0#3) rfl).trans ((ex_hi _ (k) rfl).trans ((ex_hi _ (y) rfl).trans ((ex_lo _ (x) rfl).trans (ex_all _))))))
  have f9_1 : fld v0 9 1 = y :=
    (congrArg (fld · 9 1) he).trans ((ex_hi _ (1#3) rfl).trans ((ex_hi _ (0#3) rfl).trans ((ex_hi _ (k) rfl).trans ((ex_lo _ (y) rfl).trans (ex_all _)))))
  have f6_3 : fld v0 6 3 = k :=
    (congrArg (fld · 6 3) he).trans ((ex_hi _ (1#3) rfl).trans ((ex_hi _ (0#3) rfl).trans ((ex_lo _ (k) rfl).trans (ex_all _))))
  have f3_3 : fld v0 3 3 = 0#3 :=
    (congrArg (fld · 3 3) he).trans ((ex_hi _ (1#3) rfl).trans ((ex_lo _ (0#3) rfl).trans (ex_all _)))
  have f0_3 : fld v0 0 3 = 1#3 :=
    (congrArg (fld · 0 3) he).trans ((ex_lo _ (1#3) rfl).trans (ex_all _))
  rw [family_Vcmp f26_6, decodeVcmp]
  simp only [f24_2, f21_3, f16_5, f11_5, f10_1, f9_1, f6_3, f3_3, f0_3]
  exact needs_of hw

theorem Encode.vcmpLt (d : BitVec 3) (a : BitVec 5) (b : BitVec 5) (x : BitVec 1) (y : BitVec 1) (k : BitVec 3) : Encode.Statement (.vcmpLt d a b x y k) := by
  intro (hw : ((d != 0#3)) = true)
  apply decode_of
  have he : encode (.vcmpLt d a b x y k) = 0x1B#6 ++ 0#2 ++ d ++ a ++ b ++ x ++ y ++ k ++ 0#3 ++ 2#3 := rfl
  generalize encode (.vcmpLt d a b x y k) = v0 at he
  have f26_6 : fld v0 26 6 = 27#6 :=
    (congrArg (fld · 26 6) he).trans ((ex_hi _ (2#3) rfl).trans ((ex_hi _ (0#3) rfl).trans ((ex_hi _ (k) rfl).trans ((ex_hi _ (y) rfl).trans ((ex_hi _ (x) rfl).trans ((ex_hi _ (b) rfl).trans ((ex_hi _ (a) rfl).trans ((ex_hi _ (d) rfl).trans ((ex_hi _ (0#2) rfl).trans (ex_all _))))))))))
  have f24_2 : fld v0 24 2 = 0#2 :=
    (congrArg (fld · 24 2) he).trans ((ex_hi _ (2#3) rfl).trans ((ex_hi _ (0#3) rfl).trans ((ex_hi _ (k) rfl).trans ((ex_hi _ (y) rfl).trans ((ex_hi _ (x) rfl).trans ((ex_hi _ (b) rfl).trans ((ex_hi _ (a) rfl).trans ((ex_hi _ (d) rfl).trans ((ex_lo _ (0#2) rfl).trans (ex_all _))))))))))
  have f21_3 : fld v0 21 3 = d :=
    (congrArg (fld · 21 3) he).trans ((ex_hi _ (2#3) rfl).trans ((ex_hi _ (0#3) rfl).trans ((ex_hi _ (k) rfl).trans ((ex_hi _ (y) rfl).trans ((ex_hi _ (x) rfl).trans ((ex_hi _ (b) rfl).trans ((ex_hi _ (a) rfl).trans ((ex_lo _ (d) rfl).trans (ex_all _)))))))))
  have f16_5 : fld v0 16 5 = a :=
    (congrArg (fld · 16 5) he).trans ((ex_hi _ (2#3) rfl).trans ((ex_hi _ (0#3) rfl).trans ((ex_hi _ (k) rfl).trans ((ex_hi _ (y) rfl).trans ((ex_hi _ (x) rfl).trans ((ex_hi _ (b) rfl).trans ((ex_lo _ (a) rfl).trans (ex_all _))))))))
  have f11_5 : fld v0 11 5 = b :=
    (congrArg (fld · 11 5) he).trans ((ex_hi _ (2#3) rfl).trans ((ex_hi _ (0#3) rfl).trans ((ex_hi _ (k) rfl).trans ((ex_hi _ (y) rfl).trans ((ex_hi _ (x) rfl).trans ((ex_lo _ (b) rfl).trans (ex_all _)))))))
  have f10_1 : fld v0 10 1 = x :=
    (congrArg (fld · 10 1) he).trans ((ex_hi _ (2#3) rfl).trans ((ex_hi _ (0#3) rfl).trans ((ex_hi _ (k) rfl).trans ((ex_hi _ (y) rfl).trans ((ex_lo _ (x) rfl).trans (ex_all _))))))
  have f9_1 : fld v0 9 1 = y :=
    (congrArg (fld · 9 1) he).trans ((ex_hi _ (2#3) rfl).trans ((ex_hi _ (0#3) rfl).trans ((ex_hi _ (k) rfl).trans ((ex_lo _ (y) rfl).trans (ex_all _)))))
  have f6_3 : fld v0 6 3 = k :=
    (congrArg (fld · 6 3) he).trans ((ex_hi _ (2#3) rfl).trans ((ex_hi _ (0#3) rfl).trans ((ex_lo _ (k) rfl).trans (ex_all _))))
  have f3_3 : fld v0 3 3 = 0#3 :=
    (congrArg (fld · 3 3) he).trans ((ex_hi _ (2#3) rfl).trans ((ex_lo _ (0#3) rfl).trans (ex_all _)))
  have f0_3 : fld v0 0 3 = 2#3 :=
    (congrArg (fld · 0 3) he).trans ((ex_lo _ (2#3) rfl).trans (ex_all _))
  rw [family_Vcmp f26_6, decodeVcmp]
  simp only [f24_2, f21_3, f16_5, f11_5, f10_1, f9_1, f6_3, f3_3, f0_3]
  exact needs_of hw

theorem Encode.vcmpLe (d : BitVec 3) (a : BitVec 5) (b : BitVec 5) (x : BitVec 1) (y : BitVec 1) (k : BitVec 3) : Encode.Statement (.vcmpLe d a b x y k) := by
  intro (hw : ((d != 0#3)) = true)
  apply decode_of
  have he : encode (.vcmpLe d a b x y k) = 0x1B#6 ++ 0#2 ++ d ++ a ++ b ++ x ++ y ++ k ++ 0#3 ++ 3#3 := rfl
  generalize encode (.vcmpLe d a b x y k) = v0 at he
  have f26_6 : fld v0 26 6 = 27#6 :=
    (congrArg (fld · 26 6) he).trans ((ex_hi _ (3#3) rfl).trans ((ex_hi _ (0#3) rfl).trans ((ex_hi _ (k) rfl).trans ((ex_hi _ (y) rfl).trans ((ex_hi _ (x) rfl).trans ((ex_hi _ (b) rfl).trans ((ex_hi _ (a) rfl).trans ((ex_hi _ (d) rfl).trans ((ex_hi _ (0#2) rfl).trans (ex_all _))))))))))
  have f24_2 : fld v0 24 2 = 0#2 :=
    (congrArg (fld · 24 2) he).trans ((ex_hi _ (3#3) rfl).trans ((ex_hi _ (0#3) rfl).trans ((ex_hi _ (k) rfl).trans ((ex_hi _ (y) rfl).trans ((ex_hi _ (x) rfl).trans ((ex_hi _ (b) rfl).trans ((ex_hi _ (a) rfl).trans ((ex_hi _ (d) rfl).trans ((ex_lo _ (0#2) rfl).trans (ex_all _))))))))))
  have f21_3 : fld v0 21 3 = d :=
    (congrArg (fld · 21 3) he).trans ((ex_hi _ (3#3) rfl).trans ((ex_hi _ (0#3) rfl).trans ((ex_hi _ (k) rfl).trans ((ex_hi _ (y) rfl).trans ((ex_hi _ (x) rfl).trans ((ex_hi _ (b) rfl).trans ((ex_hi _ (a) rfl).trans ((ex_lo _ (d) rfl).trans (ex_all _)))))))))
  have f16_5 : fld v0 16 5 = a :=
    (congrArg (fld · 16 5) he).trans ((ex_hi _ (3#3) rfl).trans ((ex_hi _ (0#3) rfl).trans ((ex_hi _ (k) rfl).trans ((ex_hi _ (y) rfl).trans ((ex_hi _ (x) rfl).trans ((ex_hi _ (b) rfl).trans ((ex_lo _ (a) rfl).trans (ex_all _))))))))
  have f11_5 : fld v0 11 5 = b :=
    (congrArg (fld · 11 5) he).trans ((ex_hi _ (3#3) rfl).trans ((ex_hi _ (0#3) rfl).trans ((ex_hi _ (k) rfl).trans ((ex_hi _ (y) rfl).trans ((ex_hi _ (x) rfl).trans ((ex_lo _ (b) rfl).trans (ex_all _)))))))
  have f10_1 : fld v0 10 1 = x :=
    (congrArg (fld · 10 1) he).trans ((ex_hi _ (3#3) rfl).trans ((ex_hi _ (0#3) rfl).trans ((ex_hi _ (k) rfl).trans ((ex_hi _ (y) rfl).trans ((ex_lo _ (x) rfl).trans (ex_all _))))))
  have f9_1 : fld v0 9 1 = y :=
    (congrArg (fld · 9 1) he).trans ((ex_hi _ (3#3) rfl).trans ((ex_hi _ (0#3) rfl).trans ((ex_hi _ (k) rfl).trans ((ex_lo _ (y) rfl).trans (ex_all _)))))
  have f6_3 : fld v0 6 3 = k :=
    (congrArg (fld · 6 3) he).trans ((ex_hi _ (3#3) rfl).trans ((ex_hi _ (0#3) rfl).trans ((ex_lo _ (k) rfl).trans (ex_all _))))
  have f3_3 : fld v0 3 3 = 0#3 :=
    (congrArg (fld · 3 3) he).trans ((ex_hi _ (3#3) rfl).trans ((ex_lo _ (0#3) rfl).trans (ex_all _)))
  have f0_3 : fld v0 0 3 = 3#3 :=
    (congrArg (fld · 0 3) he).trans ((ex_lo _ (3#3) rfl).trans (ex_all _))
  rw [family_Vcmp f26_6, decodeVcmp]
  simp only [f24_2, f21_3, f16_5, f11_5, f10_1, f9_1, f6_3, f3_3, f0_3]
  exact needs_of hw

theorem Encode.vcmpLtu (d : BitVec 3) (a : BitVec 5) (b : BitVec 5) (x : BitVec 1) (y : BitVec 1) (k : BitVec 3) : Encode.Statement (.vcmpLtu d a b x y k) := by
  intro (hw : ((d != 0#3)) = true)
  apply decode_of
  have he : encode (.vcmpLtu d a b x y k) = 0x1B#6 ++ 0#2 ++ d ++ a ++ b ++ x ++ y ++ k ++ 0#3 ++ 4#3 := rfl
  generalize encode (.vcmpLtu d a b x y k) = v0 at he
  have f26_6 : fld v0 26 6 = 27#6 :=
    (congrArg (fld · 26 6) he).trans ((ex_hi _ (4#3) rfl).trans ((ex_hi _ (0#3) rfl).trans ((ex_hi _ (k) rfl).trans ((ex_hi _ (y) rfl).trans ((ex_hi _ (x) rfl).trans ((ex_hi _ (b) rfl).trans ((ex_hi _ (a) rfl).trans ((ex_hi _ (d) rfl).trans ((ex_hi _ (0#2) rfl).trans (ex_all _))))))))))
  have f24_2 : fld v0 24 2 = 0#2 :=
    (congrArg (fld · 24 2) he).trans ((ex_hi _ (4#3) rfl).trans ((ex_hi _ (0#3) rfl).trans ((ex_hi _ (k) rfl).trans ((ex_hi _ (y) rfl).trans ((ex_hi _ (x) rfl).trans ((ex_hi _ (b) rfl).trans ((ex_hi _ (a) rfl).trans ((ex_hi _ (d) rfl).trans ((ex_lo _ (0#2) rfl).trans (ex_all _))))))))))
  have f21_3 : fld v0 21 3 = d :=
    (congrArg (fld · 21 3) he).trans ((ex_hi _ (4#3) rfl).trans ((ex_hi _ (0#3) rfl).trans ((ex_hi _ (k) rfl).trans ((ex_hi _ (y) rfl).trans ((ex_hi _ (x) rfl).trans ((ex_hi _ (b) rfl).trans ((ex_hi _ (a) rfl).trans ((ex_lo _ (d) rfl).trans (ex_all _)))))))))
  have f16_5 : fld v0 16 5 = a :=
    (congrArg (fld · 16 5) he).trans ((ex_hi _ (4#3) rfl).trans ((ex_hi _ (0#3) rfl).trans ((ex_hi _ (k) rfl).trans ((ex_hi _ (y) rfl).trans ((ex_hi _ (x) rfl).trans ((ex_hi _ (b) rfl).trans ((ex_lo _ (a) rfl).trans (ex_all _))))))))
  have f11_5 : fld v0 11 5 = b :=
    (congrArg (fld · 11 5) he).trans ((ex_hi _ (4#3) rfl).trans ((ex_hi _ (0#3) rfl).trans ((ex_hi _ (k) rfl).trans ((ex_hi _ (y) rfl).trans ((ex_hi _ (x) rfl).trans ((ex_lo _ (b) rfl).trans (ex_all _)))))))
  have f10_1 : fld v0 10 1 = x :=
    (congrArg (fld · 10 1) he).trans ((ex_hi _ (4#3) rfl).trans ((ex_hi _ (0#3) rfl).trans ((ex_hi _ (k) rfl).trans ((ex_hi _ (y) rfl).trans ((ex_lo _ (x) rfl).trans (ex_all _))))))
  have f9_1 : fld v0 9 1 = y :=
    (congrArg (fld · 9 1) he).trans ((ex_hi _ (4#3) rfl).trans ((ex_hi _ (0#3) rfl).trans ((ex_hi _ (k) rfl).trans ((ex_lo _ (y) rfl).trans (ex_all _)))))
  have f6_3 : fld v0 6 3 = k :=
    (congrArg (fld · 6 3) he).trans ((ex_hi _ (4#3) rfl).trans ((ex_hi _ (0#3) rfl).trans ((ex_lo _ (k) rfl).trans (ex_all _))))
  have f3_3 : fld v0 3 3 = 0#3 :=
    (congrArg (fld · 3 3) he).trans ((ex_hi _ (4#3) rfl).trans ((ex_lo _ (0#3) rfl).trans (ex_all _)))
  have f0_3 : fld v0 0 3 = 4#3 :=
    (congrArg (fld · 0 3) he).trans ((ex_lo _ (4#3) rfl).trans (ex_all _))
  rw [family_Vcmp f26_6, decodeVcmp]
  simp only [f24_2, f21_3, f16_5, f11_5, f10_1, f9_1, f6_3, f3_3, f0_3]
  exact needs_of hw

theorem Encode.vcmpLeu (d : BitVec 3) (a : BitVec 5) (b : BitVec 5) (x : BitVec 1) (y : BitVec 1) (k : BitVec 3) : Encode.Statement (.vcmpLeu d a b x y k) := by
  intro (hw : ((d != 0#3)) = true)
  apply decode_of
  have he : encode (.vcmpLeu d a b x y k) = 0x1B#6 ++ 0#2 ++ d ++ a ++ b ++ x ++ y ++ k ++ 0#3 ++ 5#3 := rfl
  generalize encode (.vcmpLeu d a b x y k) = v0 at he
  have f26_6 : fld v0 26 6 = 27#6 :=
    (congrArg (fld · 26 6) he).trans ((ex_hi _ (5#3) rfl).trans ((ex_hi _ (0#3) rfl).trans ((ex_hi _ (k) rfl).trans ((ex_hi _ (y) rfl).trans ((ex_hi _ (x) rfl).trans ((ex_hi _ (b) rfl).trans ((ex_hi _ (a) rfl).trans ((ex_hi _ (d) rfl).trans ((ex_hi _ (0#2) rfl).trans (ex_all _))))))))))
  have f24_2 : fld v0 24 2 = 0#2 :=
    (congrArg (fld · 24 2) he).trans ((ex_hi _ (5#3) rfl).trans ((ex_hi _ (0#3) rfl).trans ((ex_hi _ (k) rfl).trans ((ex_hi _ (y) rfl).trans ((ex_hi _ (x) rfl).trans ((ex_hi _ (b) rfl).trans ((ex_hi _ (a) rfl).trans ((ex_hi _ (d) rfl).trans ((ex_lo _ (0#2) rfl).trans (ex_all _))))))))))
  have f21_3 : fld v0 21 3 = d :=
    (congrArg (fld · 21 3) he).trans ((ex_hi _ (5#3) rfl).trans ((ex_hi _ (0#3) rfl).trans ((ex_hi _ (k) rfl).trans ((ex_hi _ (y) rfl).trans ((ex_hi _ (x) rfl).trans ((ex_hi _ (b) rfl).trans ((ex_hi _ (a) rfl).trans ((ex_lo _ (d) rfl).trans (ex_all _)))))))))
  have f16_5 : fld v0 16 5 = a :=
    (congrArg (fld · 16 5) he).trans ((ex_hi _ (5#3) rfl).trans ((ex_hi _ (0#3) rfl).trans ((ex_hi _ (k) rfl).trans ((ex_hi _ (y) rfl).trans ((ex_hi _ (x) rfl).trans ((ex_hi _ (b) rfl).trans ((ex_lo _ (a) rfl).trans (ex_all _))))))))
  have f11_5 : fld v0 11 5 = b :=
    (congrArg (fld · 11 5) he).trans ((ex_hi _ (5#3) rfl).trans ((ex_hi _ (0#3) rfl).trans ((ex_hi _ (k) rfl).trans ((ex_hi _ (y) rfl).trans ((ex_hi _ (x) rfl).trans ((ex_lo _ (b) rfl).trans (ex_all _)))))))
  have f10_1 : fld v0 10 1 = x :=
    (congrArg (fld · 10 1) he).trans ((ex_hi _ (5#3) rfl).trans ((ex_hi _ (0#3) rfl).trans ((ex_hi _ (k) rfl).trans ((ex_hi _ (y) rfl).trans ((ex_lo _ (x) rfl).trans (ex_all _))))))
  have f9_1 : fld v0 9 1 = y :=
    (congrArg (fld · 9 1) he).trans ((ex_hi _ (5#3) rfl).trans ((ex_hi _ (0#3) rfl).trans ((ex_hi _ (k) rfl).trans ((ex_lo _ (y) rfl).trans (ex_all _)))))
  have f6_3 : fld v0 6 3 = k :=
    (congrArg (fld · 6 3) he).trans ((ex_hi _ (5#3) rfl).trans ((ex_hi _ (0#3) rfl).trans ((ex_lo _ (k) rfl).trans (ex_all _))))
  have f3_3 : fld v0 3 3 = 0#3 :=
    (congrArg (fld · 3 3) he).trans ((ex_hi _ (5#3) rfl).trans ((ex_lo _ (0#3) rfl).trans (ex_all _)))
  have f0_3 : fld v0 0 3 = 5#3 :=
    (congrArg (fld · 0 3) he).trans ((ex_lo _ (5#3) rfl).trans (ex_all _))
  rw [family_Vcmp f26_6, decodeVcmp]
  simp only [f24_2, f21_3, f16_5, f11_5, f10_1, f9_1, f6_3, f3_3, f0_3]
  exact needs_of hw

theorem Encode.vcmpFeq (d : BitVec 3) (a : BitVec 5) (b : BitVec 5) (x : BitVec 1) (y : BitVec 1) (k : BitVec 3) (s : BitVec 3) : Encode.Statement (.vcmpFeq d a b x y k s) := by
  intro (hw : ((d != 0#3)) = true)
  apply decode_of
  have he : encode (.vcmpFeq d a b x y k s) = 0x1B#6 ++ 0#2 ++ d ++ a ++ b ++ x ++ y ++ k ++ s ++ 6#3 := rfl
  generalize encode (.vcmpFeq d a b x y k s) = v0 at he
  have f26_6 : fld v0 26 6 = 27#6 :=
    (congrArg (fld · 26 6) he).trans ((ex_hi _ (6#3) rfl).trans ((ex_hi _ (s) rfl).trans ((ex_hi _ (k) rfl).trans ((ex_hi _ (y) rfl).trans ((ex_hi _ (x) rfl).trans ((ex_hi _ (b) rfl).trans ((ex_hi _ (a) rfl).trans ((ex_hi _ (d) rfl).trans ((ex_hi _ (0#2) rfl).trans (ex_all _))))))))))
  have f24_2 : fld v0 24 2 = 0#2 :=
    (congrArg (fld · 24 2) he).trans ((ex_hi _ (6#3) rfl).trans ((ex_hi _ (s) rfl).trans ((ex_hi _ (k) rfl).trans ((ex_hi _ (y) rfl).trans ((ex_hi _ (x) rfl).trans ((ex_hi _ (b) rfl).trans ((ex_hi _ (a) rfl).trans ((ex_hi _ (d) rfl).trans ((ex_lo _ (0#2) rfl).trans (ex_all _))))))))))
  have f21_3 : fld v0 21 3 = d :=
    (congrArg (fld · 21 3) he).trans ((ex_hi _ (6#3) rfl).trans ((ex_hi _ (s) rfl).trans ((ex_hi _ (k) rfl).trans ((ex_hi _ (y) rfl).trans ((ex_hi _ (x) rfl).trans ((ex_hi _ (b) rfl).trans ((ex_hi _ (a) rfl).trans ((ex_lo _ (d) rfl).trans (ex_all _)))))))))
  have f16_5 : fld v0 16 5 = a :=
    (congrArg (fld · 16 5) he).trans ((ex_hi _ (6#3) rfl).trans ((ex_hi _ (s) rfl).trans ((ex_hi _ (k) rfl).trans ((ex_hi _ (y) rfl).trans ((ex_hi _ (x) rfl).trans ((ex_hi _ (b) rfl).trans ((ex_lo _ (a) rfl).trans (ex_all _))))))))
  have f11_5 : fld v0 11 5 = b :=
    (congrArg (fld · 11 5) he).trans ((ex_hi _ (6#3) rfl).trans ((ex_hi _ (s) rfl).trans ((ex_hi _ (k) rfl).trans ((ex_hi _ (y) rfl).trans ((ex_hi _ (x) rfl).trans ((ex_lo _ (b) rfl).trans (ex_all _)))))))
  have f10_1 : fld v0 10 1 = x :=
    (congrArg (fld · 10 1) he).trans ((ex_hi _ (6#3) rfl).trans ((ex_hi _ (s) rfl).trans ((ex_hi _ (k) rfl).trans ((ex_hi _ (y) rfl).trans ((ex_lo _ (x) rfl).trans (ex_all _))))))
  have f9_1 : fld v0 9 1 = y :=
    (congrArg (fld · 9 1) he).trans ((ex_hi _ (6#3) rfl).trans ((ex_hi _ (s) rfl).trans ((ex_hi _ (k) rfl).trans ((ex_lo _ (y) rfl).trans (ex_all _)))))
  have f6_3 : fld v0 6 3 = k :=
    (congrArg (fld · 6 3) he).trans ((ex_hi _ (6#3) rfl).trans ((ex_hi _ (s) rfl).trans ((ex_lo _ (k) rfl).trans (ex_all _))))
  have f3_3 : fld v0 3 3 = s :=
    (congrArg (fld · 3 3) he).trans ((ex_hi _ (6#3) rfl).trans ((ex_lo _ (s) rfl).trans (ex_all _)))
  have f0_3 : fld v0 0 3 = 6#3 :=
    (congrArg (fld · 0 3) he).trans ((ex_lo _ (6#3) rfl).trans (ex_all _))
  rw [family_Vcmp f26_6, decodeVcmp]
  simp only [f24_2, f21_3, f16_5, f11_5, f10_1, f9_1, f6_3, f3_3, f0_3]
  exact needs_of hw

theorem Encode.vcmpFlt (d : BitVec 3) (a : BitVec 5) (b : BitVec 5) (x : BitVec 1) (y : BitVec 1) (k : BitVec 3) (s : BitVec 3) : Encode.Statement (.vcmpFlt d a b x y k s) := by
  intro (hw : ((d != 0#3)) = true)
  apply decode_of
  have he : encode (.vcmpFlt d a b x y k s) = 0x1B#6 ++ 0#2 ++ d ++ a ++ b ++ x ++ y ++ k ++ s ++ 7#3 := rfl
  generalize encode (.vcmpFlt d a b x y k s) = v0 at he
  have f26_6 : fld v0 26 6 = 27#6 :=
    (congrArg (fld · 26 6) he).trans ((ex_hi _ (7#3) rfl).trans ((ex_hi _ (s) rfl).trans ((ex_hi _ (k) rfl).trans ((ex_hi _ (y) rfl).trans ((ex_hi _ (x) rfl).trans ((ex_hi _ (b) rfl).trans ((ex_hi _ (a) rfl).trans ((ex_hi _ (d) rfl).trans ((ex_hi _ (0#2) rfl).trans (ex_all _))))))))))
  have f24_2 : fld v0 24 2 = 0#2 :=
    (congrArg (fld · 24 2) he).trans ((ex_hi _ (7#3) rfl).trans ((ex_hi _ (s) rfl).trans ((ex_hi _ (k) rfl).trans ((ex_hi _ (y) rfl).trans ((ex_hi _ (x) rfl).trans ((ex_hi _ (b) rfl).trans ((ex_hi _ (a) rfl).trans ((ex_hi _ (d) rfl).trans ((ex_lo _ (0#2) rfl).trans (ex_all _))))))))))
  have f21_3 : fld v0 21 3 = d :=
    (congrArg (fld · 21 3) he).trans ((ex_hi _ (7#3) rfl).trans ((ex_hi _ (s) rfl).trans ((ex_hi _ (k) rfl).trans ((ex_hi _ (y) rfl).trans ((ex_hi _ (x) rfl).trans ((ex_hi _ (b) rfl).trans ((ex_hi _ (a) rfl).trans ((ex_lo _ (d) rfl).trans (ex_all _)))))))))
  have f16_5 : fld v0 16 5 = a :=
    (congrArg (fld · 16 5) he).trans ((ex_hi _ (7#3) rfl).trans ((ex_hi _ (s) rfl).trans ((ex_hi _ (k) rfl).trans ((ex_hi _ (y) rfl).trans ((ex_hi _ (x) rfl).trans ((ex_hi _ (b) rfl).trans ((ex_lo _ (a) rfl).trans (ex_all _))))))))
  have f11_5 : fld v0 11 5 = b :=
    (congrArg (fld · 11 5) he).trans ((ex_hi _ (7#3) rfl).trans ((ex_hi _ (s) rfl).trans ((ex_hi _ (k) rfl).trans ((ex_hi _ (y) rfl).trans ((ex_hi _ (x) rfl).trans ((ex_lo _ (b) rfl).trans (ex_all _)))))))
  have f10_1 : fld v0 10 1 = x :=
    (congrArg (fld · 10 1) he).trans ((ex_hi _ (7#3) rfl).trans ((ex_hi _ (s) rfl).trans ((ex_hi _ (k) rfl).trans ((ex_hi _ (y) rfl).trans ((ex_lo _ (x) rfl).trans (ex_all _))))))
  have f9_1 : fld v0 9 1 = y :=
    (congrArg (fld · 9 1) he).trans ((ex_hi _ (7#3) rfl).trans ((ex_hi _ (s) rfl).trans ((ex_hi _ (k) rfl).trans ((ex_lo _ (y) rfl).trans (ex_all _)))))
  have f6_3 : fld v0 6 3 = k :=
    (congrArg (fld · 6 3) he).trans ((ex_hi _ (7#3) rfl).trans ((ex_hi _ (s) rfl).trans ((ex_lo _ (k) rfl).trans (ex_all _))))
  have f3_3 : fld v0 3 3 = s :=
    (congrArg (fld · 3 3) he).trans ((ex_hi _ (7#3) rfl).trans ((ex_lo _ (s) rfl).trans (ex_all _)))
  have f0_3 : fld v0 0 3 = 7#3 :=
    (congrArg (fld · 0 3) he).trans ((ex_lo _ (7#3) rfl).trans (ex_all _))
  rw [family_Vcmp f26_6, decodeVcmp]
  simp only [f24_2, f21_3, f16_5, f11_5, f10_1, f9_1, f6_3, f3_3, f0_3]
  exact needs_of hw

theorem Encode.vfadd (d : BitVec 5) (a : BitVec 5) (b : BitVec 5) (x : BitVec 1) (y : BitVec 1) (k : BitVec 3) (s : BitVec 3) : Encode.Statement (.vfadd d a b x y k s) := by
  intro _
  apply decode_of
  have he : encode (.vfadd d a b x y k s) = 0x1C#6 ++ d ++ a ++ b ++ x ++ y ++ k ++ s ++ 0#3 := rfl
  generalize encode (.vfadd d a b x y k s) = v0 at he
  have f26_6 : fld v0 26 6 = 28#6 :=
    (congrArg (fld · 26 6) he).trans ((ex_hi _ (0#3) rfl).trans ((ex_hi _ (s) rfl).trans ((ex_hi _ (k) rfl).trans ((ex_hi _ (y) rfl).trans ((ex_hi _ (x) rfl).trans ((ex_hi _ (b) rfl).trans ((ex_hi _ (a) rfl).trans ((ex_hi _ (d) rfl).trans (ex_all _)))))))))
  have f21_5 : fld v0 21 5 = d :=
    (congrArg (fld · 21 5) he).trans ((ex_hi _ (0#3) rfl).trans ((ex_hi _ (s) rfl).trans ((ex_hi _ (k) rfl).trans ((ex_hi _ (y) rfl).trans ((ex_hi _ (x) rfl).trans ((ex_hi _ (b) rfl).trans ((ex_hi _ (a) rfl).trans ((ex_lo _ (d) rfl).trans (ex_all _)))))))))
  have f16_5 : fld v0 16 5 = a :=
    (congrArg (fld · 16 5) he).trans ((ex_hi _ (0#3) rfl).trans ((ex_hi _ (s) rfl).trans ((ex_hi _ (k) rfl).trans ((ex_hi _ (y) rfl).trans ((ex_hi _ (x) rfl).trans ((ex_hi _ (b) rfl).trans ((ex_lo _ (a) rfl).trans (ex_all _))))))))
  have f11_5 : fld v0 11 5 = b :=
    (congrArg (fld · 11 5) he).trans ((ex_hi _ (0#3) rfl).trans ((ex_hi _ (s) rfl).trans ((ex_hi _ (k) rfl).trans ((ex_hi _ (y) rfl).trans ((ex_hi _ (x) rfl).trans ((ex_lo _ (b) rfl).trans (ex_all _)))))))
  have f10_1 : fld v0 10 1 = x :=
    (congrArg (fld · 10 1) he).trans ((ex_hi _ (0#3) rfl).trans ((ex_hi _ (s) rfl).trans ((ex_hi _ (k) rfl).trans ((ex_hi _ (y) rfl).trans ((ex_lo _ (x) rfl).trans (ex_all _))))))
  have f9_1 : fld v0 9 1 = y :=
    (congrArg (fld · 9 1) he).trans ((ex_hi _ (0#3) rfl).trans ((ex_hi _ (s) rfl).trans ((ex_hi _ (k) rfl).trans ((ex_lo _ (y) rfl).trans (ex_all _)))))
  have f6_3 : fld v0 6 3 = k :=
    (congrArg (fld · 6 3) he).trans ((ex_hi _ (0#3) rfl).trans ((ex_hi _ (s) rfl).trans ((ex_lo _ (k) rfl).trans (ex_all _))))
  have f3_3 : fld v0 3 3 = s :=
    (congrArg (fld · 3 3) he).trans ((ex_hi _ (0#3) rfl).trans ((ex_lo _ (s) rfl).trans (ex_all _)))
  have f0_3 : fld v0 0 3 = 0#3 :=
    (congrArg (fld · 0 3) he).trans ((ex_lo _ (0#3) rfl).trans (ex_all _))
  rw [family_Vflt f26_6, decodeVflt]
  simp only [f21_5, f16_5, f11_5, f10_1, f9_1, f6_3, f3_3, f0_3]
  exact rfl

theorem Encode.vfsub (d : BitVec 5) (a : BitVec 5) (b : BitVec 5) (x : BitVec 1) (y : BitVec 1) (k : BitVec 3) (s : BitVec 3) : Encode.Statement (.vfsub d a b x y k s) := by
  intro _
  apply decode_of
  have he : encode (.vfsub d a b x y k s) = 0x1C#6 ++ d ++ a ++ b ++ x ++ y ++ k ++ s ++ 1#3 := rfl
  generalize encode (.vfsub d a b x y k s) = v0 at he
  have f26_6 : fld v0 26 6 = 28#6 :=
    (congrArg (fld · 26 6) he).trans ((ex_hi _ (1#3) rfl).trans ((ex_hi _ (s) rfl).trans ((ex_hi _ (k) rfl).trans ((ex_hi _ (y) rfl).trans ((ex_hi _ (x) rfl).trans ((ex_hi _ (b) rfl).trans ((ex_hi _ (a) rfl).trans ((ex_hi _ (d) rfl).trans (ex_all _)))))))))
  have f21_5 : fld v0 21 5 = d :=
    (congrArg (fld · 21 5) he).trans ((ex_hi _ (1#3) rfl).trans ((ex_hi _ (s) rfl).trans ((ex_hi _ (k) rfl).trans ((ex_hi _ (y) rfl).trans ((ex_hi _ (x) rfl).trans ((ex_hi _ (b) rfl).trans ((ex_hi _ (a) rfl).trans ((ex_lo _ (d) rfl).trans (ex_all _)))))))))
  have f16_5 : fld v0 16 5 = a :=
    (congrArg (fld · 16 5) he).trans ((ex_hi _ (1#3) rfl).trans ((ex_hi _ (s) rfl).trans ((ex_hi _ (k) rfl).trans ((ex_hi _ (y) rfl).trans ((ex_hi _ (x) rfl).trans ((ex_hi _ (b) rfl).trans ((ex_lo _ (a) rfl).trans (ex_all _))))))))
  have f11_5 : fld v0 11 5 = b :=
    (congrArg (fld · 11 5) he).trans ((ex_hi _ (1#3) rfl).trans ((ex_hi _ (s) rfl).trans ((ex_hi _ (k) rfl).trans ((ex_hi _ (y) rfl).trans ((ex_hi _ (x) rfl).trans ((ex_lo _ (b) rfl).trans (ex_all _)))))))
  have f10_1 : fld v0 10 1 = x :=
    (congrArg (fld · 10 1) he).trans ((ex_hi _ (1#3) rfl).trans ((ex_hi _ (s) rfl).trans ((ex_hi _ (k) rfl).trans ((ex_hi _ (y) rfl).trans ((ex_lo _ (x) rfl).trans (ex_all _))))))
  have f9_1 : fld v0 9 1 = y :=
    (congrArg (fld · 9 1) he).trans ((ex_hi _ (1#3) rfl).trans ((ex_hi _ (s) rfl).trans ((ex_hi _ (k) rfl).trans ((ex_lo _ (y) rfl).trans (ex_all _)))))
  have f6_3 : fld v0 6 3 = k :=
    (congrArg (fld · 6 3) he).trans ((ex_hi _ (1#3) rfl).trans ((ex_hi _ (s) rfl).trans ((ex_lo _ (k) rfl).trans (ex_all _))))
  have f3_3 : fld v0 3 3 = s :=
    (congrArg (fld · 3 3) he).trans ((ex_hi _ (1#3) rfl).trans ((ex_lo _ (s) rfl).trans (ex_all _)))
  have f0_3 : fld v0 0 3 = 1#3 :=
    (congrArg (fld · 0 3) he).trans ((ex_lo _ (1#3) rfl).trans (ex_all _))
  rw [family_Vflt f26_6, decodeVflt]
  simp only [f21_5, f16_5, f11_5, f10_1, f9_1, f6_3, f3_3, f0_3]
  exact rfl

theorem Encode.vfmul (d : BitVec 5) (a : BitVec 5) (b : BitVec 5) (x : BitVec 1) (y : BitVec 1) (k : BitVec 3) (s : BitVec 3) : Encode.Statement (.vfmul d a b x y k s) := by
  intro _
  apply decode_of
  have he : encode (.vfmul d a b x y k s) = 0x1C#6 ++ d ++ a ++ b ++ x ++ y ++ k ++ s ++ 2#3 := rfl
  generalize encode (.vfmul d a b x y k s) = v0 at he
  have f26_6 : fld v0 26 6 = 28#6 :=
    (congrArg (fld · 26 6) he).trans ((ex_hi _ (2#3) rfl).trans ((ex_hi _ (s) rfl).trans ((ex_hi _ (k) rfl).trans ((ex_hi _ (y) rfl).trans ((ex_hi _ (x) rfl).trans ((ex_hi _ (b) rfl).trans ((ex_hi _ (a) rfl).trans ((ex_hi _ (d) rfl).trans (ex_all _)))))))))
  have f21_5 : fld v0 21 5 = d :=
    (congrArg (fld · 21 5) he).trans ((ex_hi _ (2#3) rfl).trans ((ex_hi _ (s) rfl).trans ((ex_hi _ (k) rfl).trans ((ex_hi _ (y) rfl).trans ((ex_hi _ (x) rfl).trans ((ex_hi _ (b) rfl).trans ((ex_hi _ (a) rfl).trans ((ex_lo _ (d) rfl).trans (ex_all _)))))))))
  have f16_5 : fld v0 16 5 = a :=
    (congrArg (fld · 16 5) he).trans ((ex_hi _ (2#3) rfl).trans ((ex_hi _ (s) rfl).trans ((ex_hi _ (k) rfl).trans ((ex_hi _ (y) rfl).trans ((ex_hi _ (x) rfl).trans ((ex_hi _ (b) rfl).trans ((ex_lo _ (a) rfl).trans (ex_all _))))))))
  have f11_5 : fld v0 11 5 = b :=
    (congrArg (fld · 11 5) he).trans ((ex_hi _ (2#3) rfl).trans ((ex_hi _ (s) rfl).trans ((ex_hi _ (k) rfl).trans ((ex_hi _ (y) rfl).trans ((ex_hi _ (x) rfl).trans ((ex_lo _ (b) rfl).trans (ex_all _)))))))
  have f10_1 : fld v0 10 1 = x :=
    (congrArg (fld · 10 1) he).trans ((ex_hi _ (2#3) rfl).trans ((ex_hi _ (s) rfl).trans ((ex_hi _ (k) rfl).trans ((ex_hi _ (y) rfl).trans ((ex_lo _ (x) rfl).trans (ex_all _))))))
  have f9_1 : fld v0 9 1 = y :=
    (congrArg (fld · 9 1) he).trans ((ex_hi _ (2#3) rfl).trans ((ex_hi _ (s) rfl).trans ((ex_hi _ (k) rfl).trans ((ex_lo _ (y) rfl).trans (ex_all _)))))
  have f6_3 : fld v0 6 3 = k :=
    (congrArg (fld · 6 3) he).trans ((ex_hi _ (2#3) rfl).trans ((ex_hi _ (s) rfl).trans ((ex_lo _ (k) rfl).trans (ex_all _))))
  have f3_3 : fld v0 3 3 = s :=
    (congrArg (fld · 3 3) he).trans ((ex_hi _ (2#3) rfl).trans ((ex_lo _ (s) rfl).trans (ex_all _)))
  have f0_3 : fld v0 0 3 = 2#3 :=
    (congrArg (fld · 0 3) he).trans ((ex_lo _ (2#3) rfl).trans (ex_all _))
  rw [family_Vflt f26_6, decodeVflt]
  simp only [f21_5, f16_5, f11_5, f10_1, f9_1, f6_3, f3_3, f0_3]
  exact rfl

theorem Encode.vfmin (d : BitVec 5) (a : BitVec 5) (b : BitVec 5) (x : BitVec 1) (y : BitVec 1) (k : BitVec 3) (s : BitVec 3) : Encode.Statement (.vfmin d a b x y k s) := by
  intro _
  apply decode_of
  have he : encode (.vfmin d a b x y k s) = 0x1C#6 ++ d ++ a ++ b ++ x ++ y ++ k ++ s ++ 3#3 := rfl
  generalize encode (.vfmin d a b x y k s) = v0 at he
  have f26_6 : fld v0 26 6 = 28#6 :=
    (congrArg (fld · 26 6) he).trans ((ex_hi _ (3#3) rfl).trans ((ex_hi _ (s) rfl).trans ((ex_hi _ (k) rfl).trans ((ex_hi _ (y) rfl).trans ((ex_hi _ (x) rfl).trans ((ex_hi _ (b) rfl).trans ((ex_hi _ (a) rfl).trans ((ex_hi _ (d) rfl).trans (ex_all _)))))))))
  have f21_5 : fld v0 21 5 = d :=
    (congrArg (fld · 21 5) he).trans ((ex_hi _ (3#3) rfl).trans ((ex_hi _ (s) rfl).trans ((ex_hi _ (k) rfl).trans ((ex_hi _ (y) rfl).trans ((ex_hi _ (x) rfl).trans ((ex_hi _ (b) rfl).trans ((ex_hi _ (a) rfl).trans ((ex_lo _ (d) rfl).trans (ex_all _)))))))))
  have f16_5 : fld v0 16 5 = a :=
    (congrArg (fld · 16 5) he).trans ((ex_hi _ (3#3) rfl).trans ((ex_hi _ (s) rfl).trans ((ex_hi _ (k) rfl).trans ((ex_hi _ (y) rfl).trans ((ex_hi _ (x) rfl).trans ((ex_hi _ (b) rfl).trans ((ex_lo _ (a) rfl).trans (ex_all _))))))))
  have f11_5 : fld v0 11 5 = b :=
    (congrArg (fld · 11 5) he).trans ((ex_hi _ (3#3) rfl).trans ((ex_hi _ (s) rfl).trans ((ex_hi _ (k) rfl).trans ((ex_hi _ (y) rfl).trans ((ex_hi _ (x) rfl).trans ((ex_lo _ (b) rfl).trans (ex_all _)))))))
  have f10_1 : fld v0 10 1 = x :=
    (congrArg (fld · 10 1) he).trans ((ex_hi _ (3#3) rfl).trans ((ex_hi _ (s) rfl).trans ((ex_hi _ (k) rfl).trans ((ex_hi _ (y) rfl).trans ((ex_lo _ (x) rfl).trans (ex_all _))))))
  have f9_1 : fld v0 9 1 = y :=
    (congrArg (fld · 9 1) he).trans ((ex_hi _ (3#3) rfl).trans ((ex_hi _ (s) rfl).trans ((ex_hi _ (k) rfl).trans ((ex_lo _ (y) rfl).trans (ex_all _)))))
  have f6_3 : fld v0 6 3 = k :=
    (congrArg (fld · 6 3) he).trans ((ex_hi _ (3#3) rfl).trans ((ex_hi _ (s) rfl).trans ((ex_lo _ (k) rfl).trans (ex_all _))))
  have f3_3 : fld v0 3 3 = s :=
    (congrArg (fld · 3 3) he).trans ((ex_hi _ (3#3) rfl).trans ((ex_lo _ (s) rfl).trans (ex_all _)))
  have f0_3 : fld v0 0 3 = 3#3 :=
    (congrArg (fld · 0 3) he).trans ((ex_lo _ (3#3) rfl).trans (ex_all _))
  rw [family_Vflt f26_6, decodeVflt]
  simp only [f21_5, f16_5, f11_5, f10_1, f9_1, f6_3, f3_3, f0_3]
  exact rfl

theorem Encode.vfmax (d : BitVec 5) (a : BitVec 5) (b : BitVec 5) (x : BitVec 1) (y : BitVec 1) (k : BitVec 3) (s : BitVec 3) : Encode.Statement (.vfmax d a b x y k s) := by
  intro _
  apply decode_of
  have he : encode (.vfmax d a b x y k s) = 0x1C#6 ++ d ++ a ++ b ++ x ++ y ++ k ++ s ++ 4#3 := rfl
  generalize encode (.vfmax d a b x y k s) = v0 at he
  have f26_6 : fld v0 26 6 = 28#6 :=
    (congrArg (fld · 26 6) he).trans ((ex_hi _ (4#3) rfl).trans ((ex_hi _ (s) rfl).trans ((ex_hi _ (k) rfl).trans ((ex_hi _ (y) rfl).trans ((ex_hi _ (x) rfl).trans ((ex_hi _ (b) rfl).trans ((ex_hi _ (a) rfl).trans ((ex_hi _ (d) rfl).trans (ex_all _)))))))))
  have f21_5 : fld v0 21 5 = d :=
    (congrArg (fld · 21 5) he).trans ((ex_hi _ (4#3) rfl).trans ((ex_hi _ (s) rfl).trans ((ex_hi _ (k) rfl).trans ((ex_hi _ (y) rfl).trans ((ex_hi _ (x) rfl).trans ((ex_hi _ (b) rfl).trans ((ex_hi _ (a) rfl).trans ((ex_lo _ (d) rfl).trans (ex_all _)))))))))
  have f16_5 : fld v0 16 5 = a :=
    (congrArg (fld · 16 5) he).trans ((ex_hi _ (4#3) rfl).trans ((ex_hi _ (s) rfl).trans ((ex_hi _ (k) rfl).trans ((ex_hi _ (y) rfl).trans ((ex_hi _ (x) rfl).trans ((ex_hi _ (b) rfl).trans ((ex_lo _ (a) rfl).trans (ex_all _))))))))
  have f11_5 : fld v0 11 5 = b :=
    (congrArg (fld · 11 5) he).trans ((ex_hi _ (4#3) rfl).trans ((ex_hi _ (s) rfl).trans ((ex_hi _ (k) rfl).trans ((ex_hi _ (y) rfl).trans ((ex_hi _ (x) rfl).trans ((ex_lo _ (b) rfl).trans (ex_all _)))))))
  have f10_1 : fld v0 10 1 = x :=
    (congrArg (fld · 10 1) he).trans ((ex_hi _ (4#3) rfl).trans ((ex_hi _ (s) rfl).trans ((ex_hi _ (k) rfl).trans ((ex_hi _ (y) rfl).trans ((ex_lo _ (x) rfl).trans (ex_all _))))))
  have f9_1 : fld v0 9 1 = y :=
    (congrArg (fld · 9 1) he).trans ((ex_hi _ (4#3) rfl).trans ((ex_hi _ (s) rfl).trans ((ex_hi _ (k) rfl).trans ((ex_lo _ (y) rfl).trans (ex_all _)))))
  have f6_3 : fld v0 6 3 = k :=
    (congrArg (fld · 6 3) he).trans ((ex_hi _ (4#3) rfl).trans ((ex_hi _ (s) rfl).trans ((ex_lo _ (k) rfl).trans (ex_all _))))
  have f3_3 : fld v0 3 3 = s :=
    (congrArg (fld · 3 3) he).trans ((ex_hi _ (4#3) rfl).trans ((ex_lo _ (s) rfl).trans (ex_all _)))
  have f0_3 : fld v0 0 3 = 4#3 :=
    (congrArg (fld · 0 3) he).trans ((ex_lo _ (4#3) rfl).trans (ex_all _))
  rw [family_Vflt f26_6, decodeVflt]
  simp only [f21_5, f16_5, f11_5, f10_1, f9_1, f6_3, f3_3, f0_3]
  exact rfl

theorem Encode.vfdiv (d : BitVec 5) (a : BitVec 5) (b : BitVec 5) (x : BitVec 1) (y : BitVec 1) (k : BitVec 3) (s : BitVec 3) : Encode.Statement (.vfdiv d a b x y k s) := by
  intro _
  apply decode_of
  have he : encode (.vfdiv d a b x y k s) = 0x1C#6 ++ d ++ a ++ b ++ x ++ y ++ k ++ s ++ 5#3 := rfl
  generalize encode (.vfdiv d a b x y k s) = v0 at he
  have f26_6 : fld v0 26 6 = 28#6 :=
    (congrArg (fld · 26 6) he).trans ((ex_hi _ (5#3) rfl).trans ((ex_hi _ (s) rfl).trans ((ex_hi _ (k) rfl).trans ((ex_hi _ (y) rfl).trans ((ex_hi _ (x) rfl).trans ((ex_hi _ (b) rfl).trans ((ex_hi _ (a) rfl).trans ((ex_hi _ (d) rfl).trans (ex_all _)))))))))
  have f21_5 : fld v0 21 5 = d :=
    (congrArg (fld · 21 5) he).trans ((ex_hi _ (5#3) rfl).trans ((ex_hi _ (s) rfl).trans ((ex_hi _ (k) rfl).trans ((ex_hi _ (y) rfl).trans ((ex_hi _ (x) rfl).trans ((ex_hi _ (b) rfl).trans ((ex_hi _ (a) rfl).trans ((ex_lo _ (d) rfl).trans (ex_all _)))))))))
  have f16_5 : fld v0 16 5 = a :=
    (congrArg (fld · 16 5) he).trans ((ex_hi _ (5#3) rfl).trans ((ex_hi _ (s) rfl).trans ((ex_hi _ (k) rfl).trans ((ex_hi _ (y) rfl).trans ((ex_hi _ (x) rfl).trans ((ex_hi _ (b) rfl).trans ((ex_lo _ (a) rfl).trans (ex_all _))))))))
  have f11_5 : fld v0 11 5 = b :=
    (congrArg (fld · 11 5) he).trans ((ex_hi _ (5#3) rfl).trans ((ex_hi _ (s) rfl).trans ((ex_hi _ (k) rfl).trans ((ex_hi _ (y) rfl).trans ((ex_hi _ (x) rfl).trans ((ex_lo _ (b) rfl).trans (ex_all _)))))))
  have f10_1 : fld v0 10 1 = x :=
    (congrArg (fld · 10 1) he).trans ((ex_hi _ (5#3) rfl).trans ((ex_hi _ (s) rfl).trans ((ex_hi _ (k) rfl).trans ((ex_hi _ (y) rfl).trans ((ex_lo _ (x) rfl).trans (ex_all _))))))
  have f9_1 : fld v0 9 1 = y :=
    (congrArg (fld · 9 1) he).trans ((ex_hi _ (5#3) rfl).trans ((ex_hi _ (s) rfl).trans ((ex_hi _ (k) rfl).trans ((ex_lo _ (y) rfl).trans (ex_all _)))))
  have f6_3 : fld v0 6 3 = k :=
    (congrArg (fld · 6 3) he).trans ((ex_hi _ (5#3) rfl).trans ((ex_hi _ (s) rfl).trans ((ex_lo _ (k) rfl).trans (ex_all _))))
  have f3_3 : fld v0 3 3 = s :=
    (congrArg (fld · 3 3) he).trans ((ex_hi _ (5#3) rfl).trans ((ex_lo _ (s) rfl).trans (ex_all _)))
  have f0_3 : fld v0 0 3 = 5#3 :=
    (congrArg (fld · 0 3) he).trans ((ex_lo _ (5#3) rfl).trans (ex_all _))
  rw [family_Vflt f26_6, decodeVflt]
  simp only [f21_5, f16_5, f11_5, f10_1, f9_1, f6_3, f3_3, f0_3]
  exact rfl

theorem Encode.vfsqrt (d : BitVec 5) (a : BitVec 5) (x : BitVec 1) (k : BitVec 3) (s : BitVec 3) : Encode.Statement (.vfsqrt d a x k s) := by
  intro _
  apply decode_of
  have he : encode (.vfsqrt d a x k s) = 0x1C#6 ++ d ++ a ++ 0#5 ++ x ++ 0#1 ++ k ++ s ++ 6#3 := rfl
  generalize encode (.vfsqrt d a x k s) = v0 at he
  have f26_6 : fld v0 26 6 = 28#6 :=
    (congrArg (fld · 26 6) he).trans ((ex_hi _ (6#3) rfl).trans ((ex_hi _ (s) rfl).trans ((ex_hi _ (k) rfl).trans ((ex_hi _ (0#1) rfl).trans ((ex_hi _ (x) rfl).trans ((ex_hi _ (0#5) rfl).trans ((ex_hi _ (a) rfl).trans ((ex_hi _ (d) rfl).trans (ex_all _)))))))))
  have f21_5 : fld v0 21 5 = d :=
    (congrArg (fld · 21 5) he).trans ((ex_hi _ (6#3) rfl).trans ((ex_hi _ (s) rfl).trans ((ex_hi _ (k) rfl).trans ((ex_hi _ (0#1) rfl).trans ((ex_hi _ (x) rfl).trans ((ex_hi _ (0#5) rfl).trans ((ex_hi _ (a) rfl).trans ((ex_lo _ (d) rfl).trans (ex_all _)))))))))
  have f16_5 : fld v0 16 5 = a :=
    (congrArg (fld · 16 5) he).trans ((ex_hi _ (6#3) rfl).trans ((ex_hi _ (s) rfl).trans ((ex_hi _ (k) rfl).trans ((ex_hi _ (0#1) rfl).trans ((ex_hi _ (x) rfl).trans ((ex_hi _ (0#5) rfl).trans ((ex_lo _ (a) rfl).trans (ex_all _))))))))
  have f11_5 : fld v0 11 5 = 0#5 :=
    (congrArg (fld · 11 5) he).trans ((ex_hi _ (6#3) rfl).trans ((ex_hi _ (s) rfl).trans ((ex_hi _ (k) rfl).trans ((ex_hi _ (0#1) rfl).trans ((ex_hi _ (x) rfl).trans ((ex_lo _ (0#5) rfl).trans (ex_all _)))))))
  have f10_1 : fld v0 10 1 = x :=
    (congrArg (fld · 10 1) he).trans ((ex_hi _ (6#3) rfl).trans ((ex_hi _ (s) rfl).trans ((ex_hi _ (k) rfl).trans ((ex_hi _ (0#1) rfl).trans ((ex_lo _ (x) rfl).trans (ex_all _))))))
  have f9_1 : fld v0 9 1 = 0#1 :=
    (congrArg (fld · 9 1) he).trans ((ex_hi _ (6#3) rfl).trans ((ex_hi _ (s) rfl).trans ((ex_hi _ (k) rfl).trans ((ex_lo _ (0#1) rfl).trans (ex_all _)))))
  have f6_3 : fld v0 6 3 = k :=
    (congrArg (fld · 6 3) he).trans ((ex_hi _ (6#3) rfl).trans ((ex_hi _ (s) rfl).trans ((ex_lo _ (k) rfl).trans (ex_all _))))
  have f3_3 : fld v0 3 3 = s :=
    (congrArg (fld · 3 3) he).trans ((ex_hi _ (6#3) rfl).trans ((ex_lo _ (s) rfl).trans (ex_all _)))
  have f0_3 : fld v0 0 3 = 6#3 :=
    (congrArg (fld · 0 3) he).trans ((ex_lo _ (6#3) rfl).trans (ex_all _))
  rw [family_Vflt f26_6, decodeVflt]
  simp only [f21_5, f16_5, f11_5, f10_1, f9_1, f6_3, f3_3, f0_3]
  exact rfl

theorem Encode.vfscale (d : BitVec 5) (a : BitVec 5) (b : BitVec 5) (x : BitVec 1) (y : BitVec 1) (k : BitVec 3) (s : BitVec 3) : Encode.Statement (.vfscale d a b x y k s) := by
  intro _
  apply decode_of
  have he : encode (.vfscale d a b x y k s) = 0x1C#6 ++ d ++ a ++ b ++ x ++ y ++ k ++ s ++ 7#3 := rfl
  generalize encode (.vfscale d a b x y k s) = v0 at he
  have f26_6 : fld v0 26 6 = 28#6 :=
    (congrArg (fld · 26 6) he).trans ((ex_hi _ (7#3) rfl).trans ((ex_hi _ (s) rfl).trans ((ex_hi _ (k) rfl).trans ((ex_hi _ (y) rfl).trans ((ex_hi _ (x) rfl).trans ((ex_hi _ (b) rfl).trans ((ex_hi _ (a) rfl).trans ((ex_hi _ (d) rfl).trans (ex_all _)))))))))
  have f21_5 : fld v0 21 5 = d :=
    (congrArg (fld · 21 5) he).trans ((ex_hi _ (7#3) rfl).trans ((ex_hi _ (s) rfl).trans ((ex_hi _ (k) rfl).trans ((ex_hi _ (y) rfl).trans ((ex_hi _ (x) rfl).trans ((ex_hi _ (b) rfl).trans ((ex_hi _ (a) rfl).trans ((ex_lo _ (d) rfl).trans (ex_all _)))))))))
  have f16_5 : fld v0 16 5 = a :=
    (congrArg (fld · 16 5) he).trans ((ex_hi _ (7#3) rfl).trans ((ex_hi _ (s) rfl).trans ((ex_hi _ (k) rfl).trans ((ex_hi _ (y) rfl).trans ((ex_hi _ (x) rfl).trans ((ex_hi _ (b) rfl).trans ((ex_lo _ (a) rfl).trans (ex_all _))))))))
  have f11_5 : fld v0 11 5 = b :=
    (congrArg (fld · 11 5) he).trans ((ex_hi _ (7#3) rfl).trans ((ex_hi _ (s) rfl).trans ((ex_hi _ (k) rfl).trans ((ex_hi _ (y) rfl).trans ((ex_hi _ (x) rfl).trans ((ex_lo _ (b) rfl).trans (ex_all _)))))))
  have f10_1 : fld v0 10 1 = x :=
    (congrArg (fld · 10 1) he).trans ((ex_hi _ (7#3) rfl).trans ((ex_hi _ (s) rfl).trans ((ex_hi _ (k) rfl).trans ((ex_hi _ (y) rfl).trans ((ex_lo _ (x) rfl).trans (ex_all _))))))
  have f9_1 : fld v0 9 1 = y :=
    (congrArg (fld · 9 1) he).trans ((ex_hi _ (7#3) rfl).trans ((ex_hi _ (s) rfl).trans ((ex_hi _ (k) rfl).trans ((ex_lo _ (y) rfl).trans (ex_all _)))))
  have f6_3 : fld v0 6 3 = k :=
    (congrArg (fld · 6 3) he).trans ((ex_hi _ (7#3) rfl).trans ((ex_hi _ (s) rfl).trans ((ex_lo _ (k) rfl).trans (ex_all _))))
  have f3_3 : fld v0 3 3 = s :=
    (congrArg (fld · 3 3) he).trans ((ex_hi _ (7#3) rfl).trans ((ex_lo _ (s) rfl).trans (ex_all _)))
  have f0_3 : fld v0 0 3 = 7#3 :=
    (congrArg (fld · 0 3) he).trans ((ex_lo _ (7#3) rfl).trans (ex_all _))
  rw [family_Vflt f26_6, decodeVflt]
  simp only [f21_5, f16_5, f11_5, f10_1, f9_1, f6_3, f3_3, f0_3]
  exact rfl

theorem Encode.vfma (d : BitVec 5) (a : BitVec 5) (b : BitVec 5) (x : BitVec 1) (y : BitVec 1) (k : BitVec 3) (s : BitVec 3) : Encode.Statement (.vfma d a b x y k s) := by
  intro _
  apply decode_of
  have he : encode (.vfma d a b x y k s) = 0x1D#6 ++ d ++ a ++ b ++ x ++ y ++ k ++ s ++ 0#3 := rfl
  generalize encode (.vfma d a b x y k s) = v0 at he
  have f26_6 : fld v0 26 6 = 29#6 :=
    (congrArg (fld · 26 6) he).trans ((ex_hi _ (0#3) rfl).trans ((ex_hi _ (s) rfl).trans ((ex_hi _ (k) rfl).trans ((ex_hi _ (y) rfl).trans ((ex_hi _ (x) rfl).trans ((ex_hi _ (b) rfl).trans ((ex_hi _ (a) rfl).trans ((ex_hi _ (d) rfl).trans (ex_all _)))))))))
  have f21_5 : fld v0 21 5 = d :=
    (congrArg (fld · 21 5) he).trans ((ex_hi _ (0#3) rfl).trans ((ex_hi _ (s) rfl).trans ((ex_hi _ (k) rfl).trans ((ex_hi _ (y) rfl).trans ((ex_hi _ (x) rfl).trans ((ex_hi _ (b) rfl).trans ((ex_hi _ (a) rfl).trans ((ex_lo _ (d) rfl).trans (ex_all _)))))))))
  have f16_5 : fld v0 16 5 = a :=
    (congrArg (fld · 16 5) he).trans ((ex_hi _ (0#3) rfl).trans ((ex_hi _ (s) rfl).trans ((ex_hi _ (k) rfl).trans ((ex_hi _ (y) rfl).trans ((ex_hi _ (x) rfl).trans ((ex_hi _ (b) rfl).trans ((ex_lo _ (a) rfl).trans (ex_all _))))))))
  have f11_5 : fld v0 11 5 = b :=
    (congrArg (fld · 11 5) he).trans ((ex_hi _ (0#3) rfl).trans ((ex_hi _ (s) rfl).trans ((ex_hi _ (k) rfl).trans ((ex_hi _ (y) rfl).trans ((ex_hi _ (x) rfl).trans ((ex_lo _ (b) rfl).trans (ex_all _)))))))
  have f10_1 : fld v0 10 1 = x :=
    (congrArg (fld · 10 1) he).trans ((ex_hi _ (0#3) rfl).trans ((ex_hi _ (s) rfl).trans ((ex_hi _ (k) rfl).trans ((ex_hi _ (y) rfl).trans ((ex_lo _ (x) rfl).trans (ex_all _))))))
  have f9_1 : fld v0 9 1 = y :=
    (congrArg (fld · 9 1) he).trans ((ex_hi _ (0#3) rfl).trans ((ex_hi _ (s) rfl).trans ((ex_hi _ (k) rfl).trans ((ex_lo _ (y) rfl).trans (ex_all _)))))
  have f6_3 : fld v0 6 3 = k :=
    (congrArg (fld · 6 3) he).trans ((ex_hi _ (0#3) rfl).trans ((ex_hi _ (s) rfl).trans ((ex_lo _ (k) rfl).trans (ex_all _))))
  have f3_3 : fld v0 3 3 = s :=
    (congrArg (fld · 3 3) he).trans ((ex_hi _ (0#3) rfl).trans ((ex_lo _ (s) rfl).trans (ex_all _)))
  have f0_3 : fld v0 0 3 = 0#3 :=
    (congrArg (fld · 0 3) he).trans ((ex_lo _ (0#3) rfl).trans (ex_all _))
  rw [family_Vfma f26_6, decodeVfma]
  simp only [f21_5, f16_5, f11_5, f10_1, f9_1, f6_3, f3_3, f0_3]
  exact rfl

theorem Encode.vfms (d : BitVec 5) (a : BitVec 5) (b : BitVec 5) (x : BitVec 1) (y : BitVec 1) (k : BitVec 3) (s : BitVec 3) : Encode.Statement (.vfms d a b x y k s) := by
  intro _
  apply decode_of
  have he : encode (.vfms d a b x y k s) = 0x1D#6 ++ d ++ a ++ b ++ x ++ y ++ k ++ s ++ 1#3 := rfl
  generalize encode (.vfms d a b x y k s) = v0 at he
  have f26_6 : fld v0 26 6 = 29#6 :=
    (congrArg (fld · 26 6) he).trans ((ex_hi _ (1#3) rfl).trans ((ex_hi _ (s) rfl).trans ((ex_hi _ (k) rfl).trans ((ex_hi _ (y) rfl).trans ((ex_hi _ (x) rfl).trans ((ex_hi _ (b) rfl).trans ((ex_hi _ (a) rfl).trans ((ex_hi _ (d) rfl).trans (ex_all _)))))))))
  have f21_5 : fld v0 21 5 = d :=
    (congrArg (fld · 21 5) he).trans ((ex_hi _ (1#3) rfl).trans ((ex_hi _ (s) rfl).trans ((ex_hi _ (k) rfl).trans ((ex_hi _ (y) rfl).trans ((ex_hi _ (x) rfl).trans ((ex_hi _ (b) rfl).trans ((ex_hi _ (a) rfl).trans ((ex_lo _ (d) rfl).trans (ex_all _)))))))))
  have f16_5 : fld v0 16 5 = a :=
    (congrArg (fld · 16 5) he).trans ((ex_hi _ (1#3) rfl).trans ((ex_hi _ (s) rfl).trans ((ex_hi _ (k) rfl).trans ((ex_hi _ (y) rfl).trans ((ex_hi _ (x) rfl).trans ((ex_hi _ (b) rfl).trans ((ex_lo _ (a) rfl).trans (ex_all _))))))))
  have f11_5 : fld v0 11 5 = b :=
    (congrArg (fld · 11 5) he).trans ((ex_hi _ (1#3) rfl).trans ((ex_hi _ (s) rfl).trans ((ex_hi _ (k) rfl).trans ((ex_hi _ (y) rfl).trans ((ex_hi _ (x) rfl).trans ((ex_lo _ (b) rfl).trans (ex_all _)))))))
  have f10_1 : fld v0 10 1 = x :=
    (congrArg (fld · 10 1) he).trans ((ex_hi _ (1#3) rfl).trans ((ex_hi _ (s) rfl).trans ((ex_hi _ (k) rfl).trans ((ex_hi _ (y) rfl).trans ((ex_lo _ (x) rfl).trans (ex_all _))))))
  have f9_1 : fld v0 9 1 = y :=
    (congrArg (fld · 9 1) he).trans ((ex_hi _ (1#3) rfl).trans ((ex_hi _ (s) rfl).trans ((ex_hi _ (k) rfl).trans ((ex_lo _ (y) rfl).trans (ex_all _)))))
  have f6_3 : fld v0 6 3 = k :=
    (congrArg (fld · 6 3) he).trans ((ex_hi _ (1#3) rfl).trans ((ex_hi _ (s) rfl).trans ((ex_lo _ (k) rfl).trans (ex_all _))))
  have f3_3 : fld v0 3 3 = s :=
    (congrArg (fld · 3 3) he).trans ((ex_hi _ (1#3) rfl).trans ((ex_lo _ (s) rfl).trans (ex_all _)))
  have f0_3 : fld v0 0 3 = 1#3 :=
    (congrArg (fld · 0 3) he).trans ((ex_lo _ (1#3) rfl).trans (ex_all _))
  rw [family_Vfma f26_6, decodeVfma]
  simp only [f21_5, f16_5, f11_5, f10_1, f9_1, f6_3, f3_3, f0_3]
  exact rfl

theorem Encode.vfnma (d : BitVec 5) (a : BitVec 5) (b : BitVec 5) (x : BitVec 1) (y : BitVec 1) (k : BitVec 3) (s : BitVec 3) : Encode.Statement (.vfnma d a b x y k s) := by
  intro _
  apply decode_of
  have he : encode (.vfnma d a b x y k s) = 0x1D#6 ++ d ++ a ++ b ++ x ++ y ++ k ++ s ++ 2#3 := rfl
  generalize encode (.vfnma d a b x y k s) = v0 at he
  have f26_6 : fld v0 26 6 = 29#6 :=
    (congrArg (fld · 26 6) he).trans ((ex_hi _ (2#3) rfl).trans ((ex_hi _ (s) rfl).trans ((ex_hi _ (k) rfl).trans ((ex_hi _ (y) rfl).trans ((ex_hi _ (x) rfl).trans ((ex_hi _ (b) rfl).trans ((ex_hi _ (a) rfl).trans ((ex_hi _ (d) rfl).trans (ex_all _)))))))))
  have f21_5 : fld v0 21 5 = d :=
    (congrArg (fld · 21 5) he).trans ((ex_hi _ (2#3) rfl).trans ((ex_hi _ (s) rfl).trans ((ex_hi _ (k) rfl).trans ((ex_hi _ (y) rfl).trans ((ex_hi _ (x) rfl).trans ((ex_hi _ (b) rfl).trans ((ex_hi _ (a) rfl).trans ((ex_lo _ (d) rfl).trans (ex_all _)))))))))
  have f16_5 : fld v0 16 5 = a :=
    (congrArg (fld · 16 5) he).trans ((ex_hi _ (2#3) rfl).trans ((ex_hi _ (s) rfl).trans ((ex_hi _ (k) rfl).trans ((ex_hi _ (y) rfl).trans ((ex_hi _ (x) rfl).trans ((ex_hi _ (b) rfl).trans ((ex_lo _ (a) rfl).trans (ex_all _))))))))
  have f11_5 : fld v0 11 5 = b :=
    (congrArg (fld · 11 5) he).trans ((ex_hi _ (2#3) rfl).trans ((ex_hi _ (s) rfl).trans ((ex_hi _ (k) rfl).trans ((ex_hi _ (y) rfl).trans ((ex_hi _ (x) rfl).trans ((ex_lo _ (b) rfl).trans (ex_all _)))))))
  have f10_1 : fld v0 10 1 = x :=
    (congrArg (fld · 10 1) he).trans ((ex_hi _ (2#3) rfl).trans ((ex_hi _ (s) rfl).trans ((ex_hi _ (k) rfl).trans ((ex_hi _ (y) rfl).trans ((ex_lo _ (x) rfl).trans (ex_all _))))))
  have f9_1 : fld v0 9 1 = y :=
    (congrArg (fld · 9 1) he).trans ((ex_hi _ (2#3) rfl).trans ((ex_hi _ (s) rfl).trans ((ex_hi _ (k) rfl).trans ((ex_lo _ (y) rfl).trans (ex_all _)))))
  have f6_3 : fld v0 6 3 = k :=
    (congrArg (fld · 6 3) he).trans ((ex_hi _ (2#3) rfl).trans ((ex_hi _ (s) rfl).trans ((ex_lo _ (k) rfl).trans (ex_all _))))
  have f3_3 : fld v0 3 3 = s :=
    (congrArg (fld · 3 3) he).trans ((ex_hi _ (2#3) rfl).trans ((ex_lo _ (s) rfl).trans (ex_all _)))
  have f0_3 : fld v0 0 3 = 2#3 :=
    (congrArg (fld · 0 3) he).trans ((ex_lo _ (2#3) rfl).trans (ex_all _))
  rw [family_Vfma f26_6, decodeVfma]
  simp only [f21_5, f16_5, f11_5, f10_1, f9_1, f6_3, f3_3, f0_3]
  exact rfl

theorem Encode.vfnms (d : BitVec 5) (a : BitVec 5) (b : BitVec 5) (x : BitVec 1) (y : BitVec 1) (k : BitVec 3) (s : BitVec 3) : Encode.Statement (.vfnms d a b x y k s) := by
  intro _
  apply decode_of
  have he : encode (.vfnms d a b x y k s) = 0x1D#6 ++ d ++ a ++ b ++ x ++ y ++ k ++ s ++ 3#3 := rfl
  generalize encode (.vfnms d a b x y k s) = v0 at he
  have f26_6 : fld v0 26 6 = 29#6 :=
    (congrArg (fld · 26 6) he).trans ((ex_hi _ (3#3) rfl).trans ((ex_hi _ (s) rfl).trans ((ex_hi _ (k) rfl).trans ((ex_hi _ (y) rfl).trans ((ex_hi _ (x) rfl).trans ((ex_hi _ (b) rfl).trans ((ex_hi _ (a) rfl).trans ((ex_hi _ (d) rfl).trans (ex_all _)))))))))
  have f21_5 : fld v0 21 5 = d :=
    (congrArg (fld · 21 5) he).trans ((ex_hi _ (3#3) rfl).trans ((ex_hi _ (s) rfl).trans ((ex_hi _ (k) rfl).trans ((ex_hi _ (y) rfl).trans ((ex_hi _ (x) rfl).trans ((ex_hi _ (b) rfl).trans ((ex_hi _ (a) rfl).trans ((ex_lo _ (d) rfl).trans (ex_all _)))))))))
  have f16_5 : fld v0 16 5 = a :=
    (congrArg (fld · 16 5) he).trans ((ex_hi _ (3#3) rfl).trans ((ex_hi _ (s) rfl).trans ((ex_hi _ (k) rfl).trans ((ex_hi _ (y) rfl).trans ((ex_hi _ (x) rfl).trans ((ex_hi _ (b) rfl).trans ((ex_lo _ (a) rfl).trans (ex_all _))))))))
  have f11_5 : fld v0 11 5 = b :=
    (congrArg (fld · 11 5) he).trans ((ex_hi _ (3#3) rfl).trans ((ex_hi _ (s) rfl).trans ((ex_hi _ (k) rfl).trans ((ex_hi _ (y) rfl).trans ((ex_hi _ (x) rfl).trans ((ex_lo _ (b) rfl).trans (ex_all _)))))))
  have f10_1 : fld v0 10 1 = x :=
    (congrArg (fld · 10 1) he).trans ((ex_hi _ (3#3) rfl).trans ((ex_hi _ (s) rfl).trans ((ex_hi _ (k) rfl).trans ((ex_hi _ (y) rfl).trans ((ex_lo _ (x) rfl).trans (ex_all _))))))
  have f9_1 : fld v0 9 1 = y :=
    (congrArg (fld · 9 1) he).trans ((ex_hi _ (3#3) rfl).trans ((ex_hi _ (s) rfl).trans ((ex_hi _ (k) rfl).trans ((ex_lo _ (y) rfl).trans (ex_all _)))))
  have f6_3 : fld v0 6 3 = k :=
    (congrArg (fld · 6 3) he).trans ((ex_hi _ (3#3) rfl).trans ((ex_hi _ (s) rfl).trans ((ex_lo _ (k) rfl).trans (ex_all _))))
  have f3_3 : fld v0 3 3 = s :=
    (congrArg (fld · 3 3) he).trans ((ex_hi _ (3#3) rfl).trans ((ex_lo _ (s) rfl).trans (ex_all _)))
  have f0_3 : fld v0 0 3 = 3#3 :=
    (congrArg (fld · 0 3) he).trans ((ex_lo _ (3#3) rfl).trans (ex_all _))
  rw [family_Vfma f26_6, decodeVfma]
  simp only [f21_5, f16_5, f11_5, f10_1, f9_1, f6_3, f3_3, f0_3]
  exact rfl

theorem Encode.vfcvt (d : BitVec 5) (a : BitVec 5) (x : BitVec 1) (k : BitVec 3) (s : BitVec 3) : Encode.Statement (.vfcvt d a x k s) := by
  intro _
  apply decode_of
  have he : encode (.vfcvt d a x k s) = 0x1E#6 ++ d ++ a ++ 0#5 ++ x ++ 0#1 ++ k ++ s ++ 0#3 := rfl
  generalize encode (.vfcvt d a x k s) = v0 at he
  have f26_6 : fld v0 26 6 = 30#6 :=
    (congrArg (fld · 26 6) he).trans ((ex_hi _ (0#3) rfl).trans ((ex_hi _ (s) rfl).trans ((ex_hi _ (k) rfl).trans ((ex_hi _ (0#1) rfl).trans ((ex_hi _ (x) rfl).trans ((ex_hi _ (0#5) rfl).trans ((ex_hi _ (a) rfl).trans ((ex_hi _ (d) rfl).trans (ex_all _)))))))))
  have f21_5 : fld v0 21 5 = d :=
    (congrArg (fld · 21 5) he).trans ((ex_hi _ (0#3) rfl).trans ((ex_hi _ (s) rfl).trans ((ex_hi _ (k) rfl).trans ((ex_hi _ (0#1) rfl).trans ((ex_hi _ (x) rfl).trans ((ex_hi _ (0#5) rfl).trans ((ex_hi _ (a) rfl).trans ((ex_lo _ (d) rfl).trans (ex_all _)))))))))
  have f16_5 : fld v0 16 5 = a :=
    (congrArg (fld · 16 5) he).trans ((ex_hi _ (0#3) rfl).trans ((ex_hi _ (s) rfl).trans ((ex_hi _ (k) rfl).trans ((ex_hi _ (0#1) rfl).trans ((ex_hi _ (x) rfl).trans ((ex_hi _ (0#5) rfl).trans ((ex_lo _ (a) rfl).trans (ex_all _))))))))
  have f11_5 : fld v0 11 5 = 0#5 :=
    (congrArg (fld · 11 5) he).trans ((ex_hi _ (0#3) rfl).trans ((ex_hi _ (s) rfl).trans ((ex_hi _ (k) rfl).trans ((ex_hi _ (0#1) rfl).trans ((ex_hi _ (x) rfl).trans ((ex_lo _ (0#5) rfl).trans (ex_all _)))))))
  have f10_1 : fld v0 10 1 = x :=
    (congrArg (fld · 10 1) he).trans ((ex_hi _ (0#3) rfl).trans ((ex_hi _ (s) rfl).trans ((ex_hi _ (k) rfl).trans ((ex_hi _ (0#1) rfl).trans ((ex_lo _ (x) rfl).trans (ex_all _))))))
  have f9_1 : fld v0 9 1 = 0#1 :=
    (congrArg (fld · 9 1) he).trans ((ex_hi _ (0#3) rfl).trans ((ex_hi _ (s) rfl).trans ((ex_hi _ (k) rfl).trans ((ex_lo _ (0#1) rfl).trans (ex_all _)))))
  have f6_3 : fld v0 6 3 = k :=
    (congrArg (fld · 6 3) he).trans ((ex_hi _ (0#3) rfl).trans ((ex_hi _ (s) rfl).trans ((ex_lo _ (k) rfl).trans (ex_all _))))
  have f3_3 : fld v0 3 3 = s :=
    (congrArg (fld · 3 3) he).trans ((ex_hi _ (0#3) rfl).trans ((ex_lo _ (s) rfl).trans (ex_all _)))
  have f0_3 : fld v0 0 3 = 0#3 :=
    (congrArg (fld · 0 3) he).trans ((ex_lo _ (0#3) rfl).trans (ex_all _))
  rw [family_Vfcv f26_6, decodeVfcv]
  simp only [f21_5, f16_5, f11_5, f10_1, f9_1, f6_3, f3_3, f0_3]
  exact rfl

theorem Encode.vfcvti (d : BitVec 5) (a : BitVec 5) (x : BitVec 1) (k : BitVec 3) (s : BitVec 3) : Encode.Statement (.vfcvti d a x k s) := by
  intro _
  apply decode_of
  have he : encode (.vfcvti d a x k s) = 0x1E#6 ++ d ++ a ++ 0#5 ++ x ++ 0#1 ++ k ++ s ++ 1#3 := rfl
  generalize encode (.vfcvti d a x k s) = v0 at he
  have f26_6 : fld v0 26 6 = 30#6 :=
    (congrArg (fld · 26 6) he).trans ((ex_hi _ (1#3) rfl).trans ((ex_hi _ (s) rfl).trans ((ex_hi _ (k) rfl).trans ((ex_hi _ (0#1) rfl).trans ((ex_hi _ (x) rfl).trans ((ex_hi _ (0#5) rfl).trans ((ex_hi _ (a) rfl).trans ((ex_hi _ (d) rfl).trans (ex_all _)))))))))
  have f21_5 : fld v0 21 5 = d :=
    (congrArg (fld · 21 5) he).trans ((ex_hi _ (1#3) rfl).trans ((ex_hi _ (s) rfl).trans ((ex_hi _ (k) rfl).trans ((ex_hi _ (0#1) rfl).trans ((ex_hi _ (x) rfl).trans ((ex_hi _ (0#5) rfl).trans ((ex_hi _ (a) rfl).trans ((ex_lo _ (d) rfl).trans (ex_all _)))))))))
  have f16_5 : fld v0 16 5 = a :=
    (congrArg (fld · 16 5) he).trans ((ex_hi _ (1#3) rfl).trans ((ex_hi _ (s) rfl).trans ((ex_hi _ (k) rfl).trans ((ex_hi _ (0#1) rfl).trans ((ex_hi _ (x) rfl).trans ((ex_hi _ (0#5) rfl).trans ((ex_lo _ (a) rfl).trans (ex_all _))))))))
  have f11_5 : fld v0 11 5 = 0#5 :=
    (congrArg (fld · 11 5) he).trans ((ex_hi _ (1#3) rfl).trans ((ex_hi _ (s) rfl).trans ((ex_hi _ (k) rfl).trans ((ex_hi _ (0#1) rfl).trans ((ex_hi _ (x) rfl).trans ((ex_lo _ (0#5) rfl).trans (ex_all _)))))))
  have f10_1 : fld v0 10 1 = x :=
    (congrArg (fld · 10 1) he).trans ((ex_hi _ (1#3) rfl).trans ((ex_hi _ (s) rfl).trans ((ex_hi _ (k) rfl).trans ((ex_hi _ (0#1) rfl).trans ((ex_lo _ (x) rfl).trans (ex_all _))))))
  have f9_1 : fld v0 9 1 = 0#1 :=
    (congrArg (fld · 9 1) he).trans ((ex_hi _ (1#3) rfl).trans ((ex_hi _ (s) rfl).trans ((ex_hi _ (k) rfl).trans ((ex_lo _ (0#1) rfl).trans (ex_all _)))))
  have f6_3 : fld v0 6 3 = k :=
    (congrArg (fld · 6 3) he).trans ((ex_hi _ (1#3) rfl).trans ((ex_hi _ (s) rfl).trans ((ex_lo _ (k) rfl).trans (ex_all _))))
  have f3_3 : fld v0 3 3 = s :=
    (congrArg (fld · 3 3) he).trans ((ex_hi _ (1#3) rfl).trans ((ex_lo _ (s) rfl).trans (ex_all _)))
  have f0_3 : fld v0 0 3 = 1#3 :=
    (congrArg (fld · 0 3) he).trans ((ex_lo _ (1#3) rfl).trans (ex_all _))
  rw [family_Vfcv f26_6, decodeVfcv]
  simp only [f21_5, f16_5, f11_5, f10_1, f9_1, f6_3, f3_3, f0_3]
  exact rfl

theorem Encode.vfneg (d : BitVec 5) (a : BitVec 5) (x : BitVec 1) (k : BitVec 3) (s : BitVec 3) : Encode.Statement (.vfneg d a x k s) := by
  intro _
  apply decode_of
  have he : encode (.vfneg d a x k s) = 0x1E#6 ++ d ++ a ++ 0#5 ++ x ++ 0#1 ++ k ++ s ++ 2#3 := rfl
  generalize encode (.vfneg d a x k s) = v0 at he
  have f26_6 : fld v0 26 6 = 30#6 :=
    (congrArg (fld · 26 6) he).trans ((ex_hi _ (2#3) rfl).trans ((ex_hi _ (s) rfl).trans ((ex_hi _ (k) rfl).trans ((ex_hi _ (0#1) rfl).trans ((ex_hi _ (x) rfl).trans ((ex_hi _ (0#5) rfl).trans ((ex_hi _ (a) rfl).trans ((ex_hi _ (d) rfl).trans (ex_all _)))))))))
  have f21_5 : fld v0 21 5 = d :=
    (congrArg (fld · 21 5) he).trans ((ex_hi _ (2#3) rfl).trans ((ex_hi _ (s) rfl).trans ((ex_hi _ (k) rfl).trans ((ex_hi _ (0#1) rfl).trans ((ex_hi _ (x) rfl).trans ((ex_hi _ (0#5) rfl).trans ((ex_hi _ (a) rfl).trans ((ex_lo _ (d) rfl).trans (ex_all _)))))))))
  have f16_5 : fld v0 16 5 = a :=
    (congrArg (fld · 16 5) he).trans ((ex_hi _ (2#3) rfl).trans ((ex_hi _ (s) rfl).trans ((ex_hi _ (k) rfl).trans ((ex_hi _ (0#1) rfl).trans ((ex_hi _ (x) rfl).trans ((ex_hi _ (0#5) rfl).trans ((ex_lo _ (a) rfl).trans (ex_all _))))))))
  have f11_5 : fld v0 11 5 = 0#5 :=
    (congrArg (fld · 11 5) he).trans ((ex_hi _ (2#3) rfl).trans ((ex_hi _ (s) rfl).trans ((ex_hi _ (k) rfl).trans ((ex_hi _ (0#1) rfl).trans ((ex_hi _ (x) rfl).trans ((ex_lo _ (0#5) rfl).trans (ex_all _)))))))
  have f10_1 : fld v0 10 1 = x :=
    (congrArg (fld · 10 1) he).trans ((ex_hi _ (2#3) rfl).trans ((ex_hi _ (s) rfl).trans ((ex_hi _ (k) rfl).trans ((ex_hi _ (0#1) rfl).trans ((ex_lo _ (x) rfl).trans (ex_all _))))))
  have f9_1 : fld v0 9 1 = 0#1 :=
    (congrArg (fld · 9 1) he).trans ((ex_hi _ (2#3) rfl).trans ((ex_hi _ (s) rfl).trans ((ex_hi _ (k) rfl).trans ((ex_lo _ (0#1) rfl).trans (ex_all _)))))
  have f6_3 : fld v0 6 3 = k :=
    (congrArg (fld · 6 3) he).trans ((ex_hi _ (2#3) rfl).trans ((ex_hi _ (s) rfl).trans ((ex_lo _ (k) rfl).trans (ex_all _))))
  have f3_3 : fld v0 3 3 = s :=
    (congrArg (fld · 3 3) he).trans ((ex_hi _ (2#3) rfl).trans ((ex_lo _ (s) rfl).trans (ex_all _)))
  have f0_3 : fld v0 0 3 = 2#3 :=
    (congrArg (fld · 0 3) he).trans ((ex_lo _ (2#3) rfl).trans (ex_all _))
  rw [family_Vfcv f26_6, decodeVfcv]
  simp only [f21_5, f16_5, f11_5, f10_1, f9_1, f6_3, f3_3, f0_3]
  exact rfl

theorem Encode.vfabs (d : BitVec 5) (a : BitVec 5) (x : BitVec 1) (k : BitVec 3) (s : BitVec 3) : Encode.Statement (.vfabs d a x k s) := by
  intro _
  apply decode_of
  have he : encode (.vfabs d a x k s) = 0x1E#6 ++ d ++ a ++ 0#5 ++ x ++ 0#1 ++ k ++ s ++ 3#3 := rfl
  generalize encode (.vfabs d a x k s) = v0 at he
  have f26_6 : fld v0 26 6 = 30#6 :=
    (congrArg (fld · 26 6) he).trans ((ex_hi _ (3#3) rfl).trans ((ex_hi _ (s) rfl).trans ((ex_hi _ (k) rfl).trans ((ex_hi _ (0#1) rfl).trans ((ex_hi _ (x) rfl).trans ((ex_hi _ (0#5) rfl).trans ((ex_hi _ (a) rfl).trans ((ex_hi _ (d) rfl).trans (ex_all _)))))))))
  have f21_5 : fld v0 21 5 = d :=
    (congrArg (fld · 21 5) he).trans ((ex_hi _ (3#3) rfl).trans ((ex_hi _ (s) rfl).trans ((ex_hi _ (k) rfl).trans ((ex_hi _ (0#1) rfl).trans ((ex_hi _ (x) rfl).trans ((ex_hi _ (0#5) rfl).trans ((ex_hi _ (a) rfl).trans ((ex_lo _ (d) rfl).trans (ex_all _)))))))))
  have f16_5 : fld v0 16 5 = a :=
    (congrArg (fld · 16 5) he).trans ((ex_hi _ (3#3) rfl).trans ((ex_hi _ (s) rfl).trans ((ex_hi _ (k) rfl).trans ((ex_hi _ (0#1) rfl).trans ((ex_hi _ (x) rfl).trans ((ex_hi _ (0#5) rfl).trans ((ex_lo _ (a) rfl).trans (ex_all _))))))))
  have f11_5 : fld v0 11 5 = 0#5 :=
    (congrArg (fld · 11 5) he).trans ((ex_hi _ (3#3) rfl).trans ((ex_hi _ (s) rfl).trans ((ex_hi _ (k) rfl).trans ((ex_hi _ (0#1) rfl).trans ((ex_hi _ (x) rfl).trans ((ex_lo _ (0#5) rfl).trans (ex_all _)))))))
  have f10_1 : fld v0 10 1 = x :=
    (congrArg (fld · 10 1) he).trans ((ex_hi _ (3#3) rfl).trans ((ex_hi _ (s) rfl).trans ((ex_hi _ (k) rfl).trans ((ex_hi _ (0#1) rfl).trans ((ex_lo _ (x) rfl).trans (ex_all _))))))
  have f9_1 : fld v0 9 1 = 0#1 :=
    (congrArg (fld · 9 1) he).trans ((ex_hi _ (3#3) rfl).trans ((ex_hi _ (s) rfl).trans ((ex_hi _ (k) rfl).trans ((ex_lo _ (0#1) rfl).trans (ex_all _)))))
  have f6_3 : fld v0 6 3 = k :=
    (congrArg (fld · 6 3) he).trans ((ex_hi _ (3#3) rfl).trans ((ex_hi _ (s) rfl).trans ((ex_lo _ (k) rfl).trans (ex_all _))))
  have f3_3 : fld v0 3 3 = s :=
    (congrArg (fld · 3 3) he).trans ((ex_hi _ (3#3) rfl).trans ((ex_lo _ (s) rfl).trans (ex_all _)))
  have f0_3 : fld v0 0 3 = 3#3 :=
    (congrArg (fld · 0 3) he).trans ((ex_lo _ (3#3) rfl).trans (ex_all _))
  rw [family_Vfcv f26_6, decodeVfcv]
  simp only [f21_5, f16_5, f11_5, f10_1, f9_1, f6_3, f3_3, f0_3]
  exact rfl

theorem Encode.vfclass (d : BitVec 5) (a : BitVec 5) (x : BitVec 1) (k : BitVec 3) (s : BitVec 3) : Encode.Statement (.vfclass d a x k s) := by
  intro _
  apply decode_of
  have he : encode (.vfclass d a x k s) = 0x1E#6 ++ d ++ a ++ 0#5 ++ x ++ 0#1 ++ k ++ s ++ 4#3 := rfl
  generalize encode (.vfclass d a x k s) = v0 at he
  have f26_6 : fld v0 26 6 = 30#6 :=
    (congrArg (fld · 26 6) he).trans ((ex_hi _ (4#3) rfl).trans ((ex_hi _ (s) rfl).trans ((ex_hi _ (k) rfl).trans ((ex_hi _ (0#1) rfl).trans ((ex_hi _ (x) rfl).trans ((ex_hi _ (0#5) rfl).trans ((ex_hi _ (a) rfl).trans ((ex_hi _ (d) rfl).trans (ex_all _)))))))))
  have f21_5 : fld v0 21 5 = d :=
    (congrArg (fld · 21 5) he).trans ((ex_hi _ (4#3) rfl).trans ((ex_hi _ (s) rfl).trans ((ex_hi _ (k) rfl).trans ((ex_hi _ (0#1) rfl).trans ((ex_hi _ (x) rfl).trans ((ex_hi _ (0#5) rfl).trans ((ex_hi _ (a) rfl).trans ((ex_lo _ (d) rfl).trans (ex_all _)))))))))
  have f16_5 : fld v0 16 5 = a :=
    (congrArg (fld · 16 5) he).trans ((ex_hi _ (4#3) rfl).trans ((ex_hi _ (s) rfl).trans ((ex_hi _ (k) rfl).trans ((ex_hi _ (0#1) rfl).trans ((ex_hi _ (x) rfl).trans ((ex_hi _ (0#5) rfl).trans ((ex_lo _ (a) rfl).trans (ex_all _))))))))
  have f11_5 : fld v0 11 5 = 0#5 :=
    (congrArg (fld · 11 5) he).trans ((ex_hi _ (4#3) rfl).trans ((ex_hi _ (s) rfl).trans ((ex_hi _ (k) rfl).trans ((ex_hi _ (0#1) rfl).trans ((ex_hi _ (x) rfl).trans ((ex_lo _ (0#5) rfl).trans (ex_all _)))))))
  have f10_1 : fld v0 10 1 = x :=
    (congrArg (fld · 10 1) he).trans ((ex_hi _ (4#3) rfl).trans ((ex_hi _ (s) rfl).trans ((ex_hi _ (k) rfl).trans ((ex_hi _ (0#1) rfl).trans ((ex_lo _ (x) rfl).trans (ex_all _))))))
  have f9_1 : fld v0 9 1 = 0#1 :=
    (congrArg (fld · 9 1) he).trans ((ex_hi _ (4#3) rfl).trans ((ex_hi _ (s) rfl).trans ((ex_hi _ (k) rfl).trans ((ex_lo _ (0#1) rfl).trans (ex_all _)))))
  have f6_3 : fld v0 6 3 = k :=
    (congrArg (fld · 6 3) he).trans ((ex_hi _ (4#3) rfl).trans ((ex_hi _ (s) rfl).trans ((ex_lo _ (k) rfl).trans (ex_all _))))
  have f3_3 : fld v0 3 3 = s :=
    (congrArg (fld · 3 3) he).trans ((ex_hi _ (4#3) rfl).trans ((ex_lo _ (s) rfl).trans (ex_all _)))
  have f0_3 : fld v0 0 3 = 4#3 :=
    (congrArg (fld · 0 3) he).trans ((ex_lo _ (4#3) rfl).trans (ex_all _))
  rw [family_Vfcv f26_6, decodeVfcv]
  simp only [f21_5, f16_5, f11_5, f10_1, f9_1, f6_3, f3_3, f0_3]
  exact rfl

theorem Encode.vredsum (d : BitVec 5) (a : BitVec 5) (x : BitVec 1) (k : BitVec 3) : Encode.Statement (.vredsum d a x k) := by
  intro _
  apply decode_of
  have he : encode (.vredsum d a x k) = 0x1F#6 ++ d ++ a ++ 0#5 ++ x ++ 0#1 ++ k ++ 0#3 ++ 0#3 := rfl
  generalize encode (.vredsum d a x k) = v0 at he
  have f26_6 : fld v0 26 6 = 31#6 :=
    (congrArg (fld · 26 6) he).trans ((ex_hi _ (0#3) rfl).trans ((ex_hi _ (0#3) rfl).trans ((ex_hi _ (k) rfl).trans ((ex_hi _ (0#1) rfl).trans ((ex_hi _ (x) rfl).trans ((ex_hi _ (0#5) rfl).trans ((ex_hi _ (a) rfl).trans ((ex_hi _ (d) rfl).trans (ex_all _)))))))))
  have f21_5 : fld v0 21 5 = d :=
    (congrArg (fld · 21 5) he).trans ((ex_hi _ (0#3) rfl).trans ((ex_hi _ (0#3) rfl).trans ((ex_hi _ (k) rfl).trans ((ex_hi _ (0#1) rfl).trans ((ex_hi _ (x) rfl).trans ((ex_hi _ (0#5) rfl).trans ((ex_hi _ (a) rfl).trans ((ex_lo _ (d) rfl).trans (ex_all _)))))))))
  have f16_5 : fld v0 16 5 = a :=
    (congrArg (fld · 16 5) he).trans ((ex_hi _ (0#3) rfl).trans ((ex_hi _ (0#3) rfl).trans ((ex_hi _ (k) rfl).trans ((ex_hi _ (0#1) rfl).trans ((ex_hi _ (x) rfl).trans ((ex_hi _ (0#5) rfl).trans ((ex_lo _ (a) rfl).trans (ex_all _))))))))
  have f11_5 : fld v0 11 5 = 0#5 :=
    (congrArg (fld · 11 5) he).trans ((ex_hi _ (0#3) rfl).trans ((ex_hi _ (0#3) rfl).trans ((ex_hi _ (k) rfl).trans ((ex_hi _ (0#1) rfl).trans ((ex_hi _ (x) rfl).trans ((ex_lo _ (0#5) rfl).trans (ex_all _)))))))
  have f10_1 : fld v0 10 1 = x :=
    (congrArg (fld · 10 1) he).trans ((ex_hi _ (0#3) rfl).trans ((ex_hi _ (0#3) rfl).trans ((ex_hi _ (k) rfl).trans ((ex_hi _ (0#1) rfl).trans ((ex_lo _ (x) rfl).trans (ex_all _))))))
  have f9_1 : fld v0 9 1 = 0#1 :=
    (congrArg (fld · 9 1) he).trans ((ex_hi _ (0#3) rfl).trans ((ex_hi _ (0#3) rfl).trans ((ex_hi _ (k) rfl).trans ((ex_lo _ (0#1) rfl).trans (ex_all _)))))
  have f6_3 : fld v0 6 3 = k :=
    (congrArg (fld · 6 3) he).trans ((ex_hi _ (0#3) rfl).trans ((ex_hi _ (0#3) rfl).trans ((ex_lo _ (k) rfl).trans (ex_all _))))
  have f3_3 : fld v0 3 3 = 0#3 :=
    (congrArg (fld · 3 3) he).trans ((ex_hi _ (0#3) rfl).trans ((ex_lo _ (0#3) rfl).trans (ex_all _)))
  have f0_3 : fld v0 0 3 = 0#3 :=
    (congrArg (fld · 0 3) he).trans ((ex_lo _ (0#3) rfl).trans (ex_all _))
  rw [family_Vred f26_6, decodeVred]
  simp only [f21_5, f16_5, f11_5, f10_1, f9_1, f6_3, f3_3, f0_3]
  exact rfl

theorem Encode.vredmax (d : BitVec 5) (a : BitVec 5) (x : BitVec 1) (k : BitVec 3) : Encode.Statement (.vredmax d a x k) := by
  intro _
  apply decode_of
  have he : encode (.vredmax d a x k) = 0x1F#6 ++ d ++ a ++ 0#5 ++ x ++ 0#1 ++ k ++ 0#3 ++ 1#3 := rfl
  generalize encode (.vredmax d a x k) = v0 at he
  have f26_6 : fld v0 26 6 = 31#6 :=
    (congrArg (fld · 26 6) he).trans ((ex_hi _ (1#3) rfl).trans ((ex_hi _ (0#3) rfl).trans ((ex_hi _ (k) rfl).trans ((ex_hi _ (0#1) rfl).trans ((ex_hi _ (x) rfl).trans ((ex_hi _ (0#5) rfl).trans ((ex_hi _ (a) rfl).trans ((ex_hi _ (d) rfl).trans (ex_all _)))))))))
  have f21_5 : fld v0 21 5 = d :=
    (congrArg (fld · 21 5) he).trans ((ex_hi _ (1#3) rfl).trans ((ex_hi _ (0#3) rfl).trans ((ex_hi _ (k) rfl).trans ((ex_hi _ (0#1) rfl).trans ((ex_hi _ (x) rfl).trans ((ex_hi _ (0#5) rfl).trans ((ex_hi _ (a) rfl).trans ((ex_lo _ (d) rfl).trans (ex_all _)))))))))
  have f16_5 : fld v0 16 5 = a :=
    (congrArg (fld · 16 5) he).trans ((ex_hi _ (1#3) rfl).trans ((ex_hi _ (0#3) rfl).trans ((ex_hi _ (k) rfl).trans ((ex_hi _ (0#1) rfl).trans ((ex_hi _ (x) rfl).trans ((ex_hi _ (0#5) rfl).trans ((ex_lo _ (a) rfl).trans (ex_all _))))))))
  have f11_5 : fld v0 11 5 = 0#5 :=
    (congrArg (fld · 11 5) he).trans ((ex_hi _ (1#3) rfl).trans ((ex_hi _ (0#3) rfl).trans ((ex_hi _ (k) rfl).trans ((ex_hi _ (0#1) rfl).trans ((ex_hi _ (x) rfl).trans ((ex_lo _ (0#5) rfl).trans (ex_all _)))))))
  have f10_1 : fld v0 10 1 = x :=
    (congrArg (fld · 10 1) he).trans ((ex_hi _ (1#3) rfl).trans ((ex_hi _ (0#3) rfl).trans ((ex_hi _ (k) rfl).trans ((ex_hi _ (0#1) rfl).trans ((ex_lo _ (x) rfl).trans (ex_all _))))))
  have f9_1 : fld v0 9 1 = 0#1 :=
    (congrArg (fld · 9 1) he).trans ((ex_hi _ (1#3) rfl).trans ((ex_hi _ (0#3) rfl).trans ((ex_hi _ (k) rfl).trans ((ex_lo _ (0#1) rfl).trans (ex_all _)))))
  have f6_3 : fld v0 6 3 = k :=
    (congrArg (fld · 6 3) he).trans ((ex_hi _ (1#3) rfl).trans ((ex_hi _ (0#3) rfl).trans ((ex_lo _ (k) rfl).trans (ex_all _))))
  have f3_3 : fld v0 3 3 = 0#3 :=
    (congrArg (fld · 3 3) he).trans ((ex_hi _ (1#3) rfl).trans ((ex_lo _ (0#3) rfl).trans (ex_all _)))
  have f0_3 : fld v0 0 3 = 1#3 :=
    (congrArg (fld · 0 3) he).trans ((ex_lo _ (1#3) rfl).trans (ex_all _))
  rw [family_Vred f26_6, decodeVred]
  simp only [f21_5, f16_5, f11_5, f10_1, f9_1, f6_3, f3_3, f0_3]
  exact rfl

theorem Encode.vredmin (d : BitVec 5) (a : BitVec 5) (x : BitVec 1) (k : BitVec 3) : Encode.Statement (.vredmin d a x k) := by
  intro _
  apply decode_of
  have he : encode (.vredmin d a x k) = 0x1F#6 ++ d ++ a ++ 0#5 ++ x ++ 0#1 ++ k ++ 0#3 ++ 2#3 := rfl
  generalize encode (.vredmin d a x k) = v0 at he
  have f26_6 : fld v0 26 6 = 31#6 :=
    (congrArg (fld · 26 6) he).trans ((ex_hi _ (2#3) rfl).trans ((ex_hi _ (0#3) rfl).trans ((ex_hi _ (k) rfl).trans ((ex_hi _ (0#1) rfl).trans ((ex_hi _ (x) rfl).trans ((ex_hi _ (0#5) rfl).trans ((ex_hi _ (a) rfl).trans ((ex_hi _ (d) rfl).trans (ex_all _)))))))))
  have f21_5 : fld v0 21 5 = d :=
    (congrArg (fld · 21 5) he).trans ((ex_hi _ (2#3) rfl).trans ((ex_hi _ (0#3) rfl).trans ((ex_hi _ (k) rfl).trans ((ex_hi _ (0#1) rfl).trans ((ex_hi _ (x) rfl).trans ((ex_hi _ (0#5) rfl).trans ((ex_hi _ (a) rfl).trans ((ex_lo _ (d) rfl).trans (ex_all _)))))))))
  have f16_5 : fld v0 16 5 = a :=
    (congrArg (fld · 16 5) he).trans ((ex_hi _ (2#3) rfl).trans ((ex_hi _ (0#3) rfl).trans ((ex_hi _ (k) rfl).trans ((ex_hi _ (0#1) rfl).trans ((ex_hi _ (x) rfl).trans ((ex_hi _ (0#5) rfl).trans ((ex_lo _ (a) rfl).trans (ex_all _))))))))
  have f11_5 : fld v0 11 5 = 0#5 :=
    (congrArg (fld · 11 5) he).trans ((ex_hi _ (2#3) rfl).trans ((ex_hi _ (0#3) rfl).trans ((ex_hi _ (k) rfl).trans ((ex_hi _ (0#1) rfl).trans ((ex_hi _ (x) rfl).trans ((ex_lo _ (0#5) rfl).trans (ex_all _)))))))
  have f10_1 : fld v0 10 1 = x :=
    (congrArg (fld · 10 1) he).trans ((ex_hi _ (2#3) rfl).trans ((ex_hi _ (0#3) rfl).trans ((ex_hi _ (k) rfl).trans ((ex_hi _ (0#1) rfl).trans ((ex_lo _ (x) rfl).trans (ex_all _))))))
  have f9_1 : fld v0 9 1 = 0#1 :=
    (congrArg (fld · 9 1) he).trans ((ex_hi _ (2#3) rfl).trans ((ex_hi _ (0#3) rfl).trans ((ex_hi _ (k) rfl).trans ((ex_lo _ (0#1) rfl).trans (ex_all _)))))
  have f6_3 : fld v0 6 3 = k :=
    (congrArg (fld · 6 3) he).trans ((ex_hi _ (2#3) rfl).trans ((ex_hi _ (0#3) rfl).trans ((ex_lo _ (k) rfl).trans (ex_all _))))
  have f3_3 : fld v0 3 3 = 0#3 :=
    (congrArg (fld · 3 3) he).trans ((ex_hi _ (2#3) rfl).trans ((ex_lo _ (0#3) rfl).trans (ex_all _)))
  have f0_3 : fld v0 0 3 = 2#3 :=
    (congrArg (fld · 0 3) he).trans ((ex_lo _ (2#3) rfl).trans (ex_all _))
  rw [family_Vred f26_6, decodeVred]
  simp only [f21_5, f16_5, f11_5, f10_1, f9_1, f6_3, f3_3, f0_3]
  exact rfl

theorem Encode.vredmaxu (d : BitVec 5) (a : BitVec 5) (x : BitVec 1) (k : BitVec 3) : Encode.Statement (.vredmaxu d a x k) := by
  intro _
  apply decode_of
  have he : encode (.vredmaxu d a x k) = 0x1F#6 ++ d ++ a ++ 0#5 ++ x ++ 0#1 ++ k ++ 0#3 ++ 3#3 := rfl
  generalize encode (.vredmaxu d a x k) = v0 at he
  have f26_6 : fld v0 26 6 = 31#6 :=
    (congrArg (fld · 26 6) he).trans ((ex_hi _ (3#3) rfl).trans ((ex_hi _ (0#3) rfl).trans ((ex_hi _ (k) rfl).trans ((ex_hi _ (0#1) rfl).trans ((ex_hi _ (x) rfl).trans ((ex_hi _ (0#5) rfl).trans ((ex_hi _ (a) rfl).trans ((ex_hi _ (d) rfl).trans (ex_all _)))))))))
  have f21_5 : fld v0 21 5 = d :=
    (congrArg (fld · 21 5) he).trans ((ex_hi _ (3#3) rfl).trans ((ex_hi _ (0#3) rfl).trans ((ex_hi _ (k) rfl).trans ((ex_hi _ (0#1) rfl).trans ((ex_hi _ (x) rfl).trans ((ex_hi _ (0#5) rfl).trans ((ex_hi _ (a) rfl).trans ((ex_lo _ (d) rfl).trans (ex_all _)))))))))
  have f16_5 : fld v0 16 5 = a :=
    (congrArg (fld · 16 5) he).trans ((ex_hi _ (3#3) rfl).trans ((ex_hi _ (0#3) rfl).trans ((ex_hi _ (k) rfl).trans ((ex_hi _ (0#1) rfl).trans ((ex_hi _ (x) rfl).trans ((ex_hi _ (0#5) rfl).trans ((ex_lo _ (a) rfl).trans (ex_all _))))))))
  have f11_5 : fld v0 11 5 = 0#5 :=
    (congrArg (fld · 11 5) he).trans ((ex_hi _ (3#3) rfl).trans ((ex_hi _ (0#3) rfl).trans ((ex_hi _ (k) rfl).trans ((ex_hi _ (0#1) rfl).trans ((ex_hi _ (x) rfl).trans ((ex_lo _ (0#5) rfl).trans (ex_all _)))))))
  have f10_1 : fld v0 10 1 = x :=
    (congrArg (fld · 10 1) he).trans ((ex_hi _ (3#3) rfl).trans ((ex_hi _ (0#3) rfl).trans ((ex_hi _ (k) rfl).trans ((ex_hi _ (0#1) rfl).trans ((ex_lo _ (x) rfl).trans (ex_all _))))))
  have f9_1 : fld v0 9 1 = 0#1 :=
    (congrArg (fld · 9 1) he).trans ((ex_hi _ (3#3) rfl).trans ((ex_hi _ (0#3) rfl).trans ((ex_hi _ (k) rfl).trans ((ex_lo _ (0#1) rfl).trans (ex_all _)))))
  have f6_3 : fld v0 6 3 = k :=
    (congrArg (fld · 6 3) he).trans ((ex_hi _ (3#3) rfl).trans ((ex_hi _ (0#3) rfl).trans ((ex_lo _ (k) rfl).trans (ex_all _))))
  have f3_3 : fld v0 3 3 = 0#3 :=
    (congrArg (fld · 3 3) he).trans ((ex_hi _ (3#3) rfl).trans ((ex_lo _ (0#3) rfl).trans (ex_all _)))
  have f0_3 : fld v0 0 3 = 3#3 :=
    (congrArg (fld · 0 3) he).trans ((ex_lo _ (3#3) rfl).trans (ex_all _))
  rw [family_Vred f26_6, decodeVred]
  simp only [f21_5, f16_5, f11_5, f10_1, f9_1, f6_3, f3_3, f0_3]
  exact rfl

theorem Encode.vredminu (d : BitVec 5) (a : BitVec 5) (x : BitVec 1) (k : BitVec 3) : Encode.Statement (.vredminu d a x k) := by
  intro _
  apply decode_of
  have he : encode (.vredminu d a x k) = 0x1F#6 ++ d ++ a ++ 0#5 ++ x ++ 0#1 ++ k ++ 0#3 ++ 4#3 := rfl
  generalize encode (.vredminu d a x k) = v0 at he
  have f26_6 : fld v0 26 6 = 31#6 :=
    (congrArg (fld · 26 6) he).trans ((ex_hi _ (4#3) rfl).trans ((ex_hi _ (0#3) rfl).trans ((ex_hi _ (k) rfl).trans ((ex_hi _ (0#1) rfl).trans ((ex_hi _ (x) rfl).trans ((ex_hi _ (0#5) rfl).trans ((ex_hi _ (a) rfl).trans ((ex_hi _ (d) rfl).trans (ex_all _)))))))))
  have f21_5 : fld v0 21 5 = d :=
    (congrArg (fld · 21 5) he).trans ((ex_hi _ (4#3) rfl).trans ((ex_hi _ (0#3) rfl).trans ((ex_hi _ (k) rfl).trans ((ex_hi _ (0#1) rfl).trans ((ex_hi _ (x) rfl).trans ((ex_hi _ (0#5) rfl).trans ((ex_hi _ (a) rfl).trans ((ex_lo _ (d) rfl).trans (ex_all _)))))))))
  have f16_5 : fld v0 16 5 = a :=
    (congrArg (fld · 16 5) he).trans ((ex_hi _ (4#3) rfl).trans ((ex_hi _ (0#3) rfl).trans ((ex_hi _ (k) rfl).trans ((ex_hi _ (0#1) rfl).trans ((ex_hi _ (x) rfl).trans ((ex_hi _ (0#5) rfl).trans ((ex_lo _ (a) rfl).trans (ex_all _))))))))
  have f11_5 : fld v0 11 5 = 0#5 :=
    (congrArg (fld · 11 5) he).trans ((ex_hi _ (4#3) rfl).trans ((ex_hi _ (0#3) rfl).trans ((ex_hi _ (k) rfl).trans ((ex_hi _ (0#1) rfl).trans ((ex_hi _ (x) rfl).trans ((ex_lo _ (0#5) rfl).trans (ex_all _)))))))
  have f10_1 : fld v0 10 1 = x :=
    (congrArg (fld · 10 1) he).trans ((ex_hi _ (4#3) rfl).trans ((ex_hi _ (0#3) rfl).trans ((ex_hi _ (k) rfl).trans ((ex_hi _ (0#1) rfl).trans ((ex_lo _ (x) rfl).trans (ex_all _))))))
  have f9_1 : fld v0 9 1 = 0#1 :=
    (congrArg (fld · 9 1) he).trans ((ex_hi _ (4#3) rfl).trans ((ex_hi _ (0#3) rfl).trans ((ex_hi _ (k) rfl).trans ((ex_lo _ (0#1) rfl).trans (ex_all _)))))
  have f6_3 : fld v0 6 3 = k :=
    (congrArg (fld · 6 3) he).trans ((ex_hi _ (4#3) rfl).trans ((ex_hi _ (0#3) rfl).trans ((ex_lo _ (k) rfl).trans (ex_all _))))
  have f3_3 : fld v0 3 3 = 0#3 :=
    (congrArg (fld · 3 3) he).trans ((ex_hi _ (4#3) rfl).trans ((ex_lo _ (0#3) rfl).trans (ex_all _)))
  have f0_3 : fld v0 0 3 = 4#3 :=
    (congrArg (fld · 0 3) he).trans ((ex_lo _ (4#3) rfl).trans (ex_all _))
  rw [family_Vred f26_6, decodeVred]
  simp only [f21_5, f16_5, f11_5, f10_1, f9_1, f6_3, f3_3, f0_3]
  exact rfl

theorem Encode.vfredsum (d : BitVec 5) (a : BitVec 5) (x : BitVec 1) (k : BitVec 3) (s : BitVec 3) : Encode.Statement (.vfredsum d a x k s) := by
  intro _
  apply decode_of
  have he : encode (.vfredsum d a x k s) = 0x1F#6 ++ d ++ a ++ 0#5 ++ x ++ 0#1 ++ k ++ s ++ 5#3 := rfl
  generalize encode (.vfredsum d a x k s) = v0 at he
  have f26_6 : fld v0 26 6 = 31#6 :=
    (congrArg (fld · 26 6) he).trans ((ex_hi _ (5#3) rfl).trans ((ex_hi _ (s) rfl).trans ((ex_hi _ (k) rfl).trans ((ex_hi _ (0#1) rfl).trans ((ex_hi _ (x) rfl).trans ((ex_hi _ (0#5) rfl).trans ((ex_hi _ (a) rfl).trans ((ex_hi _ (d) rfl).trans (ex_all _)))))))))
  have f21_5 : fld v0 21 5 = d :=
    (congrArg (fld · 21 5) he).trans ((ex_hi _ (5#3) rfl).trans ((ex_hi _ (s) rfl).trans ((ex_hi _ (k) rfl).trans ((ex_hi _ (0#1) rfl).trans ((ex_hi _ (x) rfl).trans ((ex_hi _ (0#5) rfl).trans ((ex_hi _ (a) rfl).trans ((ex_lo _ (d) rfl).trans (ex_all _)))))))))
  have f16_5 : fld v0 16 5 = a :=
    (congrArg (fld · 16 5) he).trans ((ex_hi _ (5#3) rfl).trans ((ex_hi _ (s) rfl).trans ((ex_hi _ (k) rfl).trans ((ex_hi _ (0#1) rfl).trans ((ex_hi _ (x) rfl).trans ((ex_hi _ (0#5) rfl).trans ((ex_lo _ (a) rfl).trans (ex_all _))))))))
  have f11_5 : fld v0 11 5 = 0#5 :=
    (congrArg (fld · 11 5) he).trans ((ex_hi _ (5#3) rfl).trans ((ex_hi _ (s) rfl).trans ((ex_hi _ (k) rfl).trans ((ex_hi _ (0#1) rfl).trans ((ex_hi _ (x) rfl).trans ((ex_lo _ (0#5) rfl).trans (ex_all _)))))))
  have f10_1 : fld v0 10 1 = x :=
    (congrArg (fld · 10 1) he).trans ((ex_hi _ (5#3) rfl).trans ((ex_hi _ (s) rfl).trans ((ex_hi _ (k) rfl).trans ((ex_hi _ (0#1) rfl).trans ((ex_lo _ (x) rfl).trans (ex_all _))))))
  have f9_1 : fld v0 9 1 = 0#1 :=
    (congrArg (fld · 9 1) he).trans ((ex_hi _ (5#3) rfl).trans ((ex_hi _ (s) rfl).trans ((ex_hi _ (k) rfl).trans ((ex_lo _ (0#1) rfl).trans (ex_all _)))))
  have f6_3 : fld v0 6 3 = k :=
    (congrArg (fld · 6 3) he).trans ((ex_hi _ (5#3) rfl).trans ((ex_hi _ (s) rfl).trans ((ex_lo _ (k) rfl).trans (ex_all _))))
  have f3_3 : fld v0 3 3 = s :=
    (congrArg (fld · 3 3) he).trans ((ex_hi _ (5#3) rfl).trans ((ex_lo _ (s) rfl).trans (ex_all _)))
  have f0_3 : fld v0 0 3 = 5#3 :=
    (congrArg (fld · 0 3) he).trans ((ex_lo _ (5#3) rfl).trans (ex_all _))
  rw [family_Vred f26_6, decodeVred]
  simp only [f21_5, f16_5, f11_5, f10_1, f9_1, f6_3, f3_3, f0_3]
  exact rfl

theorem Encode.vfredmax (d : BitVec 5) (a : BitVec 5) (x : BitVec 1) (k : BitVec 3) (s : BitVec 3) : Encode.Statement (.vfredmax d a x k s) := by
  intro _
  apply decode_of
  have he : encode (.vfredmax d a x k s) = 0x1F#6 ++ d ++ a ++ 0#5 ++ x ++ 0#1 ++ k ++ s ++ 6#3 := rfl
  generalize encode (.vfredmax d a x k s) = v0 at he
  have f26_6 : fld v0 26 6 = 31#6 :=
    (congrArg (fld · 26 6) he).trans ((ex_hi _ (6#3) rfl).trans ((ex_hi _ (s) rfl).trans ((ex_hi _ (k) rfl).trans ((ex_hi _ (0#1) rfl).trans ((ex_hi _ (x) rfl).trans ((ex_hi _ (0#5) rfl).trans ((ex_hi _ (a) rfl).trans ((ex_hi _ (d) rfl).trans (ex_all _)))))))))
  have f21_5 : fld v0 21 5 = d :=
    (congrArg (fld · 21 5) he).trans ((ex_hi _ (6#3) rfl).trans ((ex_hi _ (s) rfl).trans ((ex_hi _ (k) rfl).trans ((ex_hi _ (0#1) rfl).trans ((ex_hi _ (x) rfl).trans ((ex_hi _ (0#5) rfl).trans ((ex_hi _ (a) rfl).trans ((ex_lo _ (d) rfl).trans (ex_all _)))))))))
  have f16_5 : fld v0 16 5 = a :=
    (congrArg (fld · 16 5) he).trans ((ex_hi _ (6#3) rfl).trans ((ex_hi _ (s) rfl).trans ((ex_hi _ (k) rfl).trans ((ex_hi _ (0#1) rfl).trans ((ex_hi _ (x) rfl).trans ((ex_hi _ (0#5) rfl).trans ((ex_lo _ (a) rfl).trans (ex_all _))))))))
  have f11_5 : fld v0 11 5 = 0#5 :=
    (congrArg (fld · 11 5) he).trans ((ex_hi _ (6#3) rfl).trans ((ex_hi _ (s) rfl).trans ((ex_hi _ (k) rfl).trans ((ex_hi _ (0#1) rfl).trans ((ex_hi _ (x) rfl).trans ((ex_lo _ (0#5) rfl).trans (ex_all _)))))))
  have f10_1 : fld v0 10 1 = x :=
    (congrArg (fld · 10 1) he).trans ((ex_hi _ (6#3) rfl).trans ((ex_hi _ (s) rfl).trans ((ex_hi _ (k) rfl).trans ((ex_hi _ (0#1) rfl).trans ((ex_lo _ (x) rfl).trans (ex_all _))))))
  have f9_1 : fld v0 9 1 = 0#1 :=
    (congrArg (fld · 9 1) he).trans ((ex_hi _ (6#3) rfl).trans ((ex_hi _ (s) rfl).trans ((ex_hi _ (k) rfl).trans ((ex_lo _ (0#1) rfl).trans (ex_all _)))))
  have f6_3 : fld v0 6 3 = k :=
    (congrArg (fld · 6 3) he).trans ((ex_hi _ (6#3) rfl).trans ((ex_hi _ (s) rfl).trans ((ex_lo _ (k) rfl).trans (ex_all _))))
  have f3_3 : fld v0 3 3 = s :=
    (congrArg (fld · 3 3) he).trans ((ex_hi _ (6#3) rfl).trans ((ex_lo _ (s) rfl).trans (ex_all _)))
  have f0_3 : fld v0 0 3 = 6#3 :=
    (congrArg (fld · 0 3) he).trans ((ex_lo _ (6#3) rfl).trans (ex_all _))
  rw [family_Vred f26_6, decodeVred]
  simp only [f21_5, f16_5, f11_5, f10_1, f9_1, f6_3, f3_3, f0_3]
  exact rfl

theorem Encode.vfredmin (d : BitVec 5) (a : BitVec 5) (x : BitVec 1) (k : BitVec 3) (s : BitVec 3) : Encode.Statement (.vfredmin d a x k s) := by
  intro _
  apply decode_of
  have he : encode (.vfredmin d a x k s) = 0x1F#6 ++ d ++ a ++ 0#5 ++ x ++ 0#1 ++ k ++ s ++ 7#3 := rfl
  generalize encode (.vfredmin d a x k s) = v0 at he
  have f26_6 : fld v0 26 6 = 31#6 :=
    (congrArg (fld · 26 6) he).trans ((ex_hi _ (7#3) rfl).trans ((ex_hi _ (s) rfl).trans ((ex_hi _ (k) rfl).trans ((ex_hi _ (0#1) rfl).trans ((ex_hi _ (x) rfl).trans ((ex_hi _ (0#5) rfl).trans ((ex_hi _ (a) rfl).trans ((ex_hi _ (d) rfl).trans (ex_all _)))))))))
  have f21_5 : fld v0 21 5 = d :=
    (congrArg (fld · 21 5) he).trans ((ex_hi _ (7#3) rfl).trans ((ex_hi _ (s) rfl).trans ((ex_hi _ (k) rfl).trans ((ex_hi _ (0#1) rfl).trans ((ex_hi _ (x) rfl).trans ((ex_hi _ (0#5) rfl).trans ((ex_hi _ (a) rfl).trans ((ex_lo _ (d) rfl).trans (ex_all _)))))))))
  have f16_5 : fld v0 16 5 = a :=
    (congrArg (fld · 16 5) he).trans ((ex_hi _ (7#3) rfl).trans ((ex_hi _ (s) rfl).trans ((ex_hi _ (k) rfl).trans ((ex_hi _ (0#1) rfl).trans ((ex_hi _ (x) rfl).trans ((ex_hi _ (0#5) rfl).trans ((ex_lo _ (a) rfl).trans (ex_all _))))))))
  have f11_5 : fld v0 11 5 = 0#5 :=
    (congrArg (fld · 11 5) he).trans ((ex_hi _ (7#3) rfl).trans ((ex_hi _ (s) rfl).trans ((ex_hi _ (k) rfl).trans ((ex_hi _ (0#1) rfl).trans ((ex_hi _ (x) rfl).trans ((ex_lo _ (0#5) rfl).trans (ex_all _)))))))
  have f10_1 : fld v0 10 1 = x :=
    (congrArg (fld · 10 1) he).trans ((ex_hi _ (7#3) rfl).trans ((ex_hi _ (s) rfl).trans ((ex_hi _ (k) rfl).trans ((ex_hi _ (0#1) rfl).trans ((ex_lo _ (x) rfl).trans (ex_all _))))))
  have f9_1 : fld v0 9 1 = 0#1 :=
    (congrArg (fld · 9 1) he).trans ((ex_hi _ (7#3) rfl).trans ((ex_hi _ (s) rfl).trans ((ex_hi _ (k) rfl).trans ((ex_lo _ (0#1) rfl).trans (ex_all _)))))
  have f6_3 : fld v0 6 3 = k :=
    (congrArg (fld · 6 3) he).trans ((ex_hi _ (7#3) rfl).trans ((ex_hi _ (s) rfl).trans ((ex_lo _ (k) rfl).trans (ex_all _))))
  have f3_3 : fld v0 3 3 = s :=
    (congrArg (fld · 3 3) he).trans ((ex_hi _ (7#3) rfl).trans ((ex_lo _ (s) rfl).trans (ex_all _)))
  have f0_3 : fld v0 0 3 = 7#3 :=
    (congrArg (fld · 0 3) he).trans ((ex_lo _ (7#3) rfl).trans (ex_all _))
  rw [family_Vred f26_6, decodeVred]
  simp only [f21_5, f16_5, f11_5, f10_1, f9_1, f6_3, f3_3, f0_3]
  exact rfl

theorem Encode.vperm (d : BitVec 5) (a : BitVec 5) (b : BitVec 5) (x : BitVec 1) (y : BitVec 1) (k : BitVec 3) : Encode.Statement (.vperm d a b x y k) := by
  intro _
  apply decode_of
  have he : encode (.vperm d a b x y k) = 0x20#6 ++ d ++ a ++ b ++ x ++ y ++ k ++ 0#3 ++ 0#3 := rfl
  generalize encode (.vperm d a b x y k) = v0 at he
  have f26_6 : fld v0 26 6 = 32#6 :=
    (congrArg (fld · 26 6) he).trans ((ex_hi _ (0#3) rfl).trans ((ex_hi _ (0#3) rfl).trans ((ex_hi _ (k) rfl).trans ((ex_hi _ (y) rfl).trans ((ex_hi _ (x) rfl).trans ((ex_hi _ (b) rfl).trans ((ex_hi _ (a) rfl).trans ((ex_hi _ (d) rfl).trans (ex_all _)))))))))
  have f21_5 : fld v0 21 5 = d :=
    (congrArg (fld · 21 5) he).trans ((ex_hi _ (0#3) rfl).trans ((ex_hi _ (0#3) rfl).trans ((ex_hi _ (k) rfl).trans ((ex_hi _ (y) rfl).trans ((ex_hi _ (x) rfl).trans ((ex_hi _ (b) rfl).trans ((ex_hi _ (a) rfl).trans ((ex_lo _ (d) rfl).trans (ex_all _)))))))))
  have f16_5 : fld v0 16 5 = a :=
    (congrArg (fld · 16 5) he).trans ((ex_hi _ (0#3) rfl).trans ((ex_hi _ (0#3) rfl).trans ((ex_hi _ (k) rfl).trans ((ex_hi _ (y) rfl).trans ((ex_hi _ (x) rfl).trans ((ex_hi _ (b) rfl).trans ((ex_lo _ (a) rfl).trans (ex_all _))))))))
  have f11_5 : fld v0 11 5 = b :=
    (congrArg (fld · 11 5) he).trans ((ex_hi _ (0#3) rfl).trans ((ex_hi _ (0#3) rfl).trans ((ex_hi _ (k) rfl).trans ((ex_hi _ (y) rfl).trans ((ex_hi _ (x) rfl).trans ((ex_lo _ (b) rfl).trans (ex_all _)))))))
  have f10_1 : fld v0 10 1 = x :=
    (congrArg (fld · 10 1) he).trans ((ex_hi _ (0#3) rfl).trans ((ex_hi _ (0#3) rfl).trans ((ex_hi _ (k) rfl).trans ((ex_hi _ (y) rfl).trans ((ex_lo _ (x) rfl).trans (ex_all _))))))
  have f9_1 : fld v0 9 1 = y :=
    (congrArg (fld · 9 1) he).trans ((ex_hi _ (0#3) rfl).trans ((ex_hi _ (0#3) rfl).trans ((ex_hi _ (k) rfl).trans ((ex_lo _ (y) rfl).trans (ex_all _)))))
  have f6_3 : fld v0 6 3 = k :=
    (congrArg (fld · 6 3) he).trans ((ex_hi _ (0#3) rfl).trans ((ex_hi _ (0#3) rfl).trans ((ex_lo _ (k) rfl).trans (ex_all _))))
  have f3_3 : fld v0 3 3 = 0#3 :=
    (congrArg (fld · 3 3) he).trans ((ex_hi _ (0#3) rfl).trans ((ex_lo _ (0#3) rfl).trans (ex_all _)))
  have f0_3 : fld v0 0 3 = 0#3 :=
    (congrArg (fld · 0 3) he).trans ((ex_lo _ (0#3) rfl).trans (ex_all _))
  rw [family_Vprm f26_6, decodeVprm]
  simp only [f21_5, f16_5, f11_5, f10_1, f9_1, f6_3, f3_3, f0_3]
  exact rfl

theorem Encode.vslideup (d : BitVec 5) (a : BitVec 5) (b : BitVec 5) (x : BitVec 1) (k : BitVec 3) : Encode.Statement (.vslideup d a b x k) := by
  intro _
  apply decode_of
  have he : encode (.vslideup d a b x k) = 0x20#6 ++ d ++ a ++ b ++ x ++ 0#1 ++ k ++ 0#3 ++ 1#3 := rfl
  generalize encode (.vslideup d a b x k) = v0 at he
  have f26_6 : fld v0 26 6 = 32#6 :=
    (congrArg (fld · 26 6) he).trans ((ex_hi _ (1#3) rfl).trans ((ex_hi _ (0#3) rfl).trans ((ex_hi _ (k) rfl).trans ((ex_hi _ (0#1) rfl).trans ((ex_hi _ (x) rfl).trans ((ex_hi _ (b) rfl).trans ((ex_hi _ (a) rfl).trans ((ex_hi _ (d) rfl).trans (ex_all _)))))))))
  have f21_5 : fld v0 21 5 = d :=
    (congrArg (fld · 21 5) he).trans ((ex_hi _ (1#3) rfl).trans ((ex_hi _ (0#3) rfl).trans ((ex_hi _ (k) rfl).trans ((ex_hi _ (0#1) rfl).trans ((ex_hi _ (x) rfl).trans ((ex_hi _ (b) rfl).trans ((ex_hi _ (a) rfl).trans ((ex_lo _ (d) rfl).trans (ex_all _)))))))))
  have f16_5 : fld v0 16 5 = a :=
    (congrArg (fld · 16 5) he).trans ((ex_hi _ (1#3) rfl).trans ((ex_hi _ (0#3) rfl).trans ((ex_hi _ (k) rfl).trans ((ex_hi _ (0#1) rfl).trans ((ex_hi _ (x) rfl).trans ((ex_hi _ (b) rfl).trans ((ex_lo _ (a) rfl).trans (ex_all _))))))))
  have f11_5 : fld v0 11 5 = b :=
    (congrArg (fld · 11 5) he).trans ((ex_hi _ (1#3) rfl).trans ((ex_hi _ (0#3) rfl).trans ((ex_hi _ (k) rfl).trans ((ex_hi _ (0#1) rfl).trans ((ex_hi _ (x) rfl).trans ((ex_lo _ (b) rfl).trans (ex_all _)))))))
  have f10_1 : fld v0 10 1 = x :=
    (congrArg (fld · 10 1) he).trans ((ex_hi _ (1#3) rfl).trans ((ex_hi _ (0#3) rfl).trans ((ex_hi _ (k) rfl).trans ((ex_hi _ (0#1) rfl).trans ((ex_lo _ (x) rfl).trans (ex_all _))))))
  have f9_1 : fld v0 9 1 = 0#1 :=
    (congrArg (fld · 9 1) he).trans ((ex_hi _ (1#3) rfl).trans ((ex_hi _ (0#3) rfl).trans ((ex_hi _ (k) rfl).trans ((ex_lo _ (0#1) rfl).trans (ex_all _)))))
  have f6_3 : fld v0 6 3 = k :=
    (congrArg (fld · 6 3) he).trans ((ex_hi _ (1#3) rfl).trans ((ex_hi _ (0#3) rfl).trans ((ex_lo _ (k) rfl).trans (ex_all _))))
  have f3_3 : fld v0 3 3 = 0#3 :=
    (congrArg (fld · 3 3) he).trans ((ex_hi _ (1#3) rfl).trans ((ex_lo _ (0#3) rfl).trans (ex_all _)))
  have f0_3 : fld v0 0 3 = 1#3 :=
    (congrArg (fld · 0 3) he).trans ((ex_lo _ (1#3) rfl).trans (ex_all _))
  rw [family_Vprm f26_6, decodeVprm]
  simp only [f21_5, f16_5, f11_5, f10_1, f9_1, f6_3, f3_3, f0_3]
  exact rfl

theorem Encode.vslidedn (d : BitVec 5) (a : BitVec 5) (b : BitVec 5) (x : BitVec 1) (k : BitVec 3) : Encode.Statement (.vslidedn d a b x k) := by
  intro _
  apply decode_of
  have he : encode (.vslidedn d a b x k) = 0x20#6 ++ d ++ a ++ b ++ x ++ 0#1 ++ k ++ 0#3 ++ 2#3 := rfl
  generalize encode (.vslidedn d a b x k) = v0 at he
  have f26_6 : fld v0 26 6 = 32#6 :=
    (congrArg (fld · 26 6) he).trans ((ex_hi _ (2#3) rfl).trans ((ex_hi _ (0#3) rfl).trans ((ex_hi _ (k) rfl).trans ((ex_hi _ (0#1) rfl).trans ((ex_hi _ (x) rfl).trans ((ex_hi _ (b) rfl).trans ((ex_hi _ (a) rfl).trans ((ex_hi _ (d) rfl).trans (ex_all _)))))))))
  have f21_5 : fld v0 21 5 = d :=
    (congrArg (fld · 21 5) he).trans ((ex_hi _ (2#3) rfl).trans ((ex_hi _ (0#3) rfl).trans ((ex_hi _ (k) rfl).trans ((ex_hi _ (0#1) rfl).trans ((ex_hi _ (x) rfl).trans ((ex_hi _ (b) rfl).trans ((ex_hi _ (a) rfl).trans ((ex_lo _ (d) rfl).trans (ex_all _)))))))))
  have f16_5 : fld v0 16 5 = a :=
    (congrArg (fld · 16 5) he).trans ((ex_hi _ (2#3) rfl).trans ((ex_hi _ (0#3) rfl).trans ((ex_hi _ (k) rfl).trans ((ex_hi _ (0#1) rfl).trans ((ex_hi _ (x) rfl).trans ((ex_hi _ (b) rfl).trans ((ex_lo _ (a) rfl).trans (ex_all _))))))))
  have f11_5 : fld v0 11 5 = b :=
    (congrArg (fld · 11 5) he).trans ((ex_hi _ (2#3) rfl).trans ((ex_hi _ (0#3) rfl).trans ((ex_hi _ (k) rfl).trans ((ex_hi _ (0#1) rfl).trans ((ex_hi _ (x) rfl).trans ((ex_lo _ (b) rfl).trans (ex_all _)))))))
  have f10_1 : fld v0 10 1 = x :=
    (congrArg (fld · 10 1) he).trans ((ex_hi _ (2#3) rfl).trans ((ex_hi _ (0#3) rfl).trans ((ex_hi _ (k) rfl).trans ((ex_hi _ (0#1) rfl).trans ((ex_lo _ (x) rfl).trans (ex_all _))))))
  have f9_1 : fld v0 9 1 = 0#1 :=
    (congrArg (fld · 9 1) he).trans ((ex_hi _ (2#3) rfl).trans ((ex_hi _ (0#3) rfl).trans ((ex_hi _ (k) rfl).trans ((ex_lo _ (0#1) rfl).trans (ex_all _)))))
  have f6_3 : fld v0 6 3 = k :=
    (congrArg (fld · 6 3) he).trans ((ex_hi _ (2#3) rfl).trans ((ex_hi _ (0#3) rfl).trans ((ex_lo _ (k) rfl).trans (ex_all _))))
  have f3_3 : fld v0 3 3 = 0#3 :=
    (congrArg (fld · 3 3) he).trans ((ex_hi _ (2#3) rfl).trans ((ex_lo _ (0#3) rfl).trans (ex_all _)))
  have f0_3 : fld v0 0 3 = 2#3 :=
    (congrArg (fld · 0 3) he).trans ((ex_lo _ (2#3) rfl).trans (ex_all _))
  rw [family_Vprm f26_6, decodeVprm]
  simp only [f21_5, f16_5, f11_5, f10_1, f9_1, f6_3, f3_3, f0_3]
  exact rfl

theorem Encode.vcompress (d : BitVec 5) (a : BitVec 5) (x : BitVec 1) (k : BitVec 3) : Encode.Statement (.vcompress d a x k) := by
  intro _
  apply decode_of
  have he : encode (.vcompress d a x k) = 0x20#6 ++ d ++ a ++ 0#5 ++ x ++ 0#1 ++ k ++ 0#3 ++ 3#3 := rfl
  generalize encode (.vcompress d a x k) = v0 at he
  have f26_6 : fld v0 26 6 = 32#6 :=
    (congrArg (fld · 26 6) he).trans ((ex_hi _ (3#3) rfl).trans ((ex_hi _ (0#3) rfl).trans ((ex_hi _ (k) rfl).trans ((ex_hi _ (0#1) rfl).trans ((ex_hi _ (x) rfl).trans ((ex_hi _ (0#5) rfl).trans ((ex_hi _ (a) rfl).trans ((ex_hi _ (d) rfl).trans (ex_all _)))))))))
  have f21_5 : fld v0 21 5 = d :=
    (congrArg (fld · 21 5) he).trans ((ex_hi _ (3#3) rfl).trans ((ex_hi _ (0#3) rfl).trans ((ex_hi _ (k) rfl).trans ((ex_hi _ (0#1) rfl).trans ((ex_hi _ (x) rfl).trans ((ex_hi _ (0#5) rfl).trans ((ex_hi _ (a) rfl).trans ((ex_lo _ (d) rfl).trans (ex_all _)))))))))
  have f16_5 : fld v0 16 5 = a :=
    (congrArg (fld · 16 5) he).trans ((ex_hi _ (3#3) rfl).trans ((ex_hi _ (0#3) rfl).trans ((ex_hi _ (k) rfl).trans ((ex_hi _ (0#1) rfl).trans ((ex_hi _ (x) rfl).trans ((ex_hi _ (0#5) rfl).trans ((ex_lo _ (a) rfl).trans (ex_all _))))))))
  have f11_5 : fld v0 11 5 = 0#5 :=
    (congrArg (fld · 11 5) he).trans ((ex_hi _ (3#3) rfl).trans ((ex_hi _ (0#3) rfl).trans ((ex_hi _ (k) rfl).trans ((ex_hi _ (0#1) rfl).trans ((ex_hi _ (x) rfl).trans ((ex_lo _ (0#5) rfl).trans (ex_all _)))))))
  have f10_1 : fld v0 10 1 = x :=
    (congrArg (fld · 10 1) he).trans ((ex_hi _ (3#3) rfl).trans ((ex_hi _ (0#3) rfl).trans ((ex_hi _ (k) rfl).trans ((ex_hi _ (0#1) rfl).trans ((ex_lo _ (x) rfl).trans (ex_all _))))))
  have f9_1 : fld v0 9 1 = 0#1 :=
    (congrArg (fld · 9 1) he).trans ((ex_hi _ (3#3) rfl).trans ((ex_hi _ (0#3) rfl).trans ((ex_hi _ (k) rfl).trans ((ex_lo _ (0#1) rfl).trans (ex_all _)))))
  have f6_3 : fld v0 6 3 = k :=
    (congrArg (fld · 6 3) he).trans ((ex_hi _ (3#3) rfl).trans ((ex_hi _ (0#3) rfl).trans ((ex_lo _ (k) rfl).trans (ex_all _))))
  have f3_3 : fld v0 3 3 = 0#3 :=
    (congrArg (fld · 3 3) he).trans ((ex_hi _ (3#3) rfl).trans ((ex_lo _ (0#3) rfl).trans (ex_all _)))
  have f0_3 : fld v0 0 3 = 3#3 :=
    (congrArg (fld · 0 3) he).trans ((ex_lo _ (3#3) rfl).trans (ex_all _))
  rw [family_Vprm f26_6, decodeVprm]
  simp only [f21_5, f16_5, f11_5, f10_1, f9_1, f6_3, f3_3, f0_3]
  exact rfl

theorem Encode.vexpand (d : BitVec 5) (a : BitVec 5) (x : BitVec 1) (k : BitVec 3) : Encode.Statement (.vexpand d a x k) := by
  intro _
  apply decode_of
  have he : encode (.vexpand d a x k) = 0x20#6 ++ d ++ a ++ 0#5 ++ x ++ 0#1 ++ k ++ 0#3 ++ 4#3 := rfl
  generalize encode (.vexpand d a x k) = v0 at he
  have f26_6 : fld v0 26 6 = 32#6 :=
    (congrArg (fld · 26 6) he).trans ((ex_hi _ (4#3) rfl).trans ((ex_hi _ (0#3) rfl).trans ((ex_hi _ (k) rfl).trans ((ex_hi _ (0#1) rfl).trans ((ex_hi _ (x) rfl).trans ((ex_hi _ (0#5) rfl).trans ((ex_hi _ (a) rfl).trans ((ex_hi _ (d) rfl).trans (ex_all _)))))))))
  have f21_5 : fld v0 21 5 = d :=
    (congrArg (fld · 21 5) he).trans ((ex_hi _ (4#3) rfl).trans ((ex_hi _ (0#3) rfl).trans ((ex_hi _ (k) rfl).trans ((ex_hi _ (0#1) rfl).trans ((ex_hi _ (x) rfl).trans ((ex_hi _ (0#5) rfl).trans ((ex_hi _ (a) rfl).trans ((ex_lo _ (d) rfl).trans (ex_all _)))))))))
  have f16_5 : fld v0 16 5 = a :=
    (congrArg (fld · 16 5) he).trans ((ex_hi _ (4#3) rfl).trans ((ex_hi _ (0#3) rfl).trans ((ex_hi _ (k) rfl).trans ((ex_hi _ (0#1) rfl).trans ((ex_hi _ (x) rfl).trans ((ex_hi _ (0#5) rfl).trans ((ex_lo _ (a) rfl).trans (ex_all _))))))))
  have f11_5 : fld v0 11 5 = 0#5 :=
    (congrArg (fld · 11 5) he).trans ((ex_hi _ (4#3) rfl).trans ((ex_hi _ (0#3) rfl).trans ((ex_hi _ (k) rfl).trans ((ex_hi _ (0#1) rfl).trans ((ex_hi _ (x) rfl).trans ((ex_lo _ (0#5) rfl).trans (ex_all _)))))))
  have f10_1 : fld v0 10 1 = x :=
    (congrArg (fld · 10 1) he).trans ((ex_hi _ (4#3) rfl).trans ((ex_hi _ (0#3) rfl).trans ((ex_hi _ (k) rfl).trans ((ex_hi _ (0#1) rfl).trans ((ex_lo _ (x) rfl).trans (ex_all _))))))
  have f9_1 : fld v0 9 1 = 0#1 :=
    (congrArg (fld · 9 1) he).trans ((ex_hi _ (4#3) rfl).trans ((ex_hi _ (0#3) rfl).trans ((ex_hi _ (k) rfl).trans ((ex_lo _ (0#1) rfl).trans (ex_all _)))))
  have f6_3 : fld v0 6 3 = k :=
    (congrArg (fld · 6 3) he).trans ((ex_hi _ (4#3) rfl).trans ((ex_hi _ (0#3) rfl).trans ((ex_lo _ (k) rfl).trans (ex_all _))))
  have f3_3 : fld v0 3 3 = 0#3 :=
    (congrArg (fld · 3 3) he).trans ((ex_hi _ (4#3) rfl).trans ((ex_lo _ (0#3) rfl).trans (ex_all _)))
  have f0_3 : fld v0 0 3 = 4#3 :=
    (congrArg (fld · 0 3) he).trans ((ex_lo _ (4#3) rfl).trans (ex_all _))
  rw [family_Vprm f26_6, decodeVprm]
  simp only [f21_5, f16_5, f11_5, f10_1, f9_1, f6_3, f3_3, f0_3]
  exact rfl

theorem Encode.viota (d : BitVec 5) (k : BitVec 3) : Encode.Statement (.viota d k) := by
  intro _
  apply decode_of
  have he : encode (.viota d k) = 0x20#6 ++ d ++ 0#5 ++ 0#5 ++ 0#1 ++ 0#1 ++ k ++ 0#3 ++ 5#3 := rfl
  generalize encode (.viota d k) = v0 at he
  have f26_6 : fld v0 26 6 = 32#6 :=
    (congrArg (fld · 26 6) he).trans ((ex_hi _ (5#3) rfl).trans ((ex_hi _ (0#3) rfl).trans ((ex_hi _ (k) rfl).trans ((ex_hi _ (0#1) rfl).trans ((ex_hi _ (0#1) rfl).trans ((ex_hi _ (0#5) rfl).trans ((ex_hi _ (0#5) rfl).trans ((ex_hi _ (d) rfl).trans (ex_all _)))))))))
  have f21_5 : fld v0 21 5 = d :=
    (congrArg (fld · 21 5) he).trans ((ex_hi _ (5#3) rfl).trans ((ex_hi _ (0#3) rfl).trans ((ex_hi _ (k) rfl).trans ((ex_hi _ (0#1) rfl).trans ((ex_hi _ (0#1) rfl).trans ((ex_hi _ (0#5) rfl).trans ((ex_hi _ (0#5) rfl).trans ((ex_lo _ (d) rfl).trans (ex_all _)))))))))
  have f16_5 : fld v0 16 5 = 0#5 :=
    (congrArg (fld · 16 5) he).trans ((ex_hi _ (5#3) rfl).trans ((ex_hi _ (0#3) rfl).trans ((ex_hi _ (k) rfl).trans ((ex_hi _ (0#1) rfl).trans ((ex_hi _ (0#1) rfl).trans ((ex_hi _ (0#5) rfl).trans ((ex_lo _ (0#5) rfl).trans (ex_all _))))))))
  have f11_5 : fld v0 11 5 = 0#5 :=
    (congrArg (fld · 11 5) he).trans ((ex_hi _ (5#3) rfl).trans ((ex_hi _ (0#3) rfl).trans ((ex_hi _ (k) rfl).trans ((ex_hi _ (0#1) rfl).trans ((ex_hi _ (0#1) rfl).trans ((ex_lo _ (0#5) rfl).trans (ex_all _)))))))
  have f10_1 : fld v0 10 1 = 0#1 :=
    (congrArg (fld · 10 1) he).trans ((ex_hi _ (5#3) rfl).trans ((ex_hi _ (0#3) rfl).trans ((ex_hi _ (k) rfl).trans ((ex_hi _ (0#1) rfl).trans ((ex_lo _ (0#1) rfl).trans (ex_all _))))))
  have f9_1 : fld v0 9 1 = 0#1 :=
    (congrArg (fld · 9 1) he).trans ((ex_hi _ (5#3) rfl).trans ((ex_hi _ (0#3) rfl).trans ((ex_hi _ (k) rfl).trans ((ex_lo _ (0#1) rfl).trans (ex_all _)))))
  have f6_3 : fld v0 6 3 = k :=
    (congrArg (fld · 6 3) he).trans ((ex_hi _ (5#3) rfl).trans ((ex_hi _ (0#3) rfl).trans ((ex_lo _ (k) rfl).trans (ex_all _))))
  have f3_3 : fld v0 3 3 = 0#3 :=
    (congrArg (fld · 3 3) he).trans ((ex_hi _ (5#3) rfl).trans ((ex_lo _ (0#3) rfl).trans (ex_all _)))
  have f0_3 : fld v0 0 3 = 5#3 :=
    (congrArg (fld · 0 3) he).trans ((ex_lo _ (5#3) rfl).trans (ex_all _))
  rw [family_Vprm f26_6, decodeVprm]
  simp only [f21_5, f16_5, f11_5, f10_1, f9_1, f6_3, f3_3, f0_3]
  exact rfl

theorem Encode.vrix (d : BitVec 5) (b : BitVec 5) (y : BitVec 1) (k : BitVec 3) : Encode.Statement (.vrix d b y k) := by
  intro _
  apply decode_of
  have he : encode (.vrix d b y k) = 0x20#6 ++ d ++ 0#5 ++ b ++ 0#1 ++ y ++ k ++ 0#3 ++ 6#3 := rfl
  generalize encode (.vrix d b y k) = v0 at he
  have f26_6 : fld v0 26 6 = 32#6 :=
    (congrArg (fld · 26 6) he).trans ((ex_hi _ (6#3) rfl).trans ((ex_hi _ (0#3) rfl).trans ((ex_hi _ (k) rfl).trans ((ex_hi _ (y) rfl).trans ((ex_hi _ (0#1) rfl).trans ((ex_hi _ (b) rfl).trans ((ex_hi _ (0#5) rfl).trans ((ex_hi _ (d) rfl).trans (ex_all _)))))))))
  have f21_5 : fld v0 21 5 = d :=
    (congrArg (fld · 21 5) he).trans ((ex_hi _ (6#3) rfl).trans ((ex_hi _ (0#3) rfl).trans ((ex_hi _ (k) rfl).trans ((ex_hi _ (y) rfl).trans ((ex_hi _ (0#1) rfl).trans ((ex_hi _ (b) rfl).trans ((ex_hi _ (0#5) rfl).trans ((ex_lo _ (d) rfl).trans (ex_all _)))))))))
  have f16_5 : fld v0 16 5 = 0#5 :=
    (congrArg (fld · 16 5) he).trans ((ex_hi _ (6#3) rfl).trans ((ex_hi _ (0#3) rfl).trans ((ex_hi _ (k) rfl).trans ((ex_hi _ (y) rfl).trans ((ex_hi _ (0#1) rfl).trans ((ex_hi _ (b) rfl).trans ((ex_lo _ (0#5) rfl).trans (ex_all _))))))))
  have f11_5 : fld v0 11 5 = b :=
    (congrArg (fld · 11 5) he).trans ((ex_hi _ (6#3) rfl).trans ((ex_hi _ (0#3) rfl).trans ((ex_hi _ (k) rfl).trans ((ex_hi _ (y) rfl).trans ((ex_hi _ (0#1) rfl).trans ((ex_lo _ (b) rfl).trans (ex_all _)))))))
  have f10_1 : fld v0 10 1 = 0#1 :=
    (congrArg (fld · 10 1) he).trans ((ex_hi _ (6#3) rfl).trans ((ex_hi _ (0#3) rfl).trans ((ex_hi _ (k) rfl).trans ((ex_hi _ (y) rfl).trans ((ex_lo _ (0#1) rfl).trans (ex_all _))))))
  have f9_1 : fld v0 9 1 = y :=
    (congrArg (fld · 9 1) he).trans ((ex_hi _ (6#3) rfl).trans ((ex_hi _ (0#3) rfl).trans ((ex_hi _ (k) rfl).trans ((ex_lo _ (y) rfl).trans (ex_all _)))))
  have f6_3 : fld v0 6 3 = k :=
    (congrArg (fld · 6 3) he).trans ((ex_hi _ (6#3) rfl).trans ((ex_hi _ (0#3) rfl).trans ((ex_lo _ (k) rfl).trans (ex_all _))))
  have f3_3 : fld v0 3 3 = 0#3 :=
    (congrArg (fld · 3 3) he).trans ((ex_hi _ (6#3) rfl).trans ((ex_lo _ (0#3) rfl).trans (ex_all _)))
  have f0_3 : fld v0 0 3 = 6#3 :=
    (congrArg (fld · 0 3) he).trans ((ex_lo _ (6#3) rfl).trans (ex_all _))
  rw [family_Vprm f26_6, decodeVprm]
  simp only [f21_5, f16_5, f11_5, f10_1, f9_1, f6_3, f3_3, f0_3]
  exact rfl

theorem Encode.vrixw (a : BitVec 5) (b : BitVec 5) (x : BitVec 1) (y : BitVec 1) (k : BitVec 3) : Encode.Statement (.vrixw a b x y k) := by
  intro _
  apply decode_of
  have he : encode (.vrixw a b x y k) = 0x20#6 ++ 0#5 ++ a ++ b ++ x ++ y ++ k ++ 0#3 ++ 7#3 := rfl
  generalize encode (.vrixw a b x y k) = v0 at he
  have f26_6 : fld v0 26 6 = 32#6 :=
    (congrArg (fld · 26 6) he).trans ((ex_hi _ (7#3) rfl).trans ((ex_hi _ (0#3) rfl).trans ((ex_hi _ (k) rfl).trans ((ex_hi _ (y) rfl).trans ((ex_hi _ (x) rfl).trans ((ex_hi _ (b) rfl).trans ((ex_hi _ (a) rfl).trans ((ex_hi _ (0#5) rfl).trans (ex_all _)))))))))
  have f21_5 : fld v0 21 5 = 0#5 :=
    (congrArg (fld · 21 5) he).trans ((ex_hi _ (7#3) rfl).trans ((ex_hi _ (0#3) rfl).trans ((ex_hi _ (k) rfl).trans ((ex_hi _ (y) rfl).trans ((ex_hi _ (x) rfl).trans ((ex_hi _ (b) rfl).trans ((ex_hi _ (a) rfl).trans ((ex_lo _ (0#5) rfl).trans (ex_all _)))))))))
  have f16_5 : fld v0 16 5 = a :=
    (congrArg (fld · 16 5) he).trans ((ex_hi _ (7#3) rfl).trans ((ex_hi _ (0#3) rfl).trans ((ex_hi _ (k) rfl).trans ((ex_hi _ (y) rfl).trans ((ex_hi _ (x) rfl).trans ((ex_hi _ (b) rfl).trans ((ex_lo _ (a) rfl).trans (ex_all _))))))))
  have f11_5 : fld v0 11 5 = b :=
    (congrArg (fld · 11 5) he).trans ((ex_hi _ (7#3) rfl).trans ((ex_hi _ (0#3) rfl).trans ((ex_hi _ (k) rfl).trans ((ex_hi _ (y) rfl).trans ((ex_hi _ (x) rfl).trans ((ex_lo _ (b) rfl).trans (ex_all _)))))))
  have f10_1 : fld v0 10 1 = x :=
    (congrArg (fld · 10 1) he).trans ((ex_hi _ (7#3) rfl).trans ((ex_hi _ (0#3) rfl).trans ((ex_hi _ (k) rfl).trans ((ex_hi _ (y) rfl).trans ((ex_lo _ (x) rfl).trans (ex_all _))))))
  have f9_1 : fld v0 9 1 = y :=
    (congrArg (fld · 9 1) he).trans ((ex_hi _ (7#3) rfl).trans ((ex_hi _ (0#3) rfl).trans ((ex_hi _ (k) rfl).trans ((ex_lo _ (y) rfl).trans (ex_all _)))))
  have f6_3 : fld v0 6 3 = k :=
    (congrArg (fld · 6 3) he).trans ((ex_hi _ (7#3) rfl).trans ((ex_hi _ (0#3) rfl).trans ((ex_lo _ (k) rfl).trans (ex_all _))))
  have f3_3 : fld v0 3 3 = 0#3 :=
    (congrArg (fld · 3 3) he).trans ((ex_hi _ (7#3) rfl).trans ((ex_lo _ (0#3) rfl).trans (ex_all _)))
  have f0_3 : fld v0 0 3 = 7#3 :=
    (congrArg (fld · 0 3) he).trans ((ex_lo _ (7#3) rfl).trans (ex_all _))
  rw [family_Vprm f26_6, decodeVprm]
  simp only [f21_5, f16_5, f11_5, f10_1, f9_1, f6_3, f3_3, f0_3]
  exact rfl

theorem Encode.vmv (d : BitVec 5) (a : BitVec 5) (x : BitVec 1) (k : BitVec 3) : Encode.Statement (.vmv d a x k) := by
  intro _
  apply decode_of
  have he : encode (.vmv d a x k) = 0x21#6 ++ d ++ a ++ 0#5 ++ x ++ 0#1 ++ k ++ 0#3 ++ 0#3 := rfl
  generalize encode (.vmv d a x k) = v0 at he
  have f26_6 : fld v0 26 6 = 33#6 :=
    (congrArg (fld · 26 6) he).trans ((ex_hi _ (0#3) rfl).trans ((ex_hi _ (0#3) rfl).trans ((ex_hi _ (k) rfl).trans ((ex_hi _ (0#1) rfl).trans ((ex_hi _ (x) rfl).trans ((ex_hi _ (0#5) rfl).trans ((ex_hi _ (a) rfl).trans ((ex_hi _ (d) rfl).trans (ex_all _)))))))))
  have f21_5 : fld v0 21 5 = d :=
    (congrArg (fld · 21 5) he).trans ((ex_hi _ (0#3) rfl).trans ((ex_hi _ (0#3) rfl).trans ((ex_hi _ (k) rfl).trans ((ex_hi _ (0#1) rfl).trans ((ex_hi _ (x) rfl).trans ((ex_hi _ (0#5) rfl).trans ((ex_hi _ (a) rfl).trans ((ex_lo _ (d) rfl).trans (ex_all _)))))))))
  have f16_5 : fld v0 16 5 = a :=
    (congrArg (fld · 16 5) he).trans ((ex_hi _ (0#3) rfl).trans ((ex_hi _ (0#3) rfl).trans ((ex_hi _ (k) rfl).trans ((ex_hi _ (0#1) rfl).trans ((ex_hi _ (x) rfl).trans ((ex_hi _ (0#5) rfl).trans ((ex_lo _ (a) rfl).trans (ex_all _))))))))
  have f11_5 : fld v0 11 5 = 0#5 :=
    (congrArg (fld · 11 5) he).trans ((ex_hi _ (0#3) rfl).trans ((ex_hi _ (0#3) rfl).trans ((ex_hi _ (k) rfl).trans ((ex_hi _ (0#1) rfl).trans ((ex_hi _ (x) rfl).trans ((ex_lo _ (0#5) rfl).trans (ex_all _)))))))
  have f10_1 : fld v0 10 1 = x :=
    (congrArg (fld · 10 1) he).trans ((ex_hi _ (0#3) rfl).trans ((ex_hi _ (0#3) rfl).trans ((ex_hi _ (k) rfl).trans ((ex_hi _ (0#1) rfl).trans ((ex_lo _ (x) rfl).trans (ex_all _))))))
  have f9_1 : fld v0 9 1 = 0#1 :=
    (congrArg (fld · 9 1) he).trans ((ex_hi _ (0#3) rfl).trans ((ex_hi _ (0#3) rfl).trans ((ex_hi _ (k) rfl).trans ((ex_lo _ (0#1) rfl).trans (ex_all _)))))
  have f6_3 : fld v0 6 3 = k :=
    (congrArg (fld · 6 3) he).trans ((ex_hi _ (0#3) rfl).trans ((ex_hi _ (0#3) rfl).trans ((ex_lo _ (k) rfl).trans (ex_all _))))
  have f3_3 : fld v0 3 3 = 0#3 :=
    (congrArg (fld · 3 3) he).trans ((ex_hi _ (0#3) rfl).trans ((ex_lo _ (0#3) rfl).trans (ex_all _)))
  have f0_3 : fld v0 0 3 = 0#3 :=
    (congrArg (fld · 0 3) he).trans ((ex_lo _ (0#3) rfl).trans (ex_all _))
  rw [family_Vmov f26_6, decodeVmov]
  simp only [f21_5, f16_5, f11_5, f10_1, f9_1, f6_3, f3_3, f0_3]
  exact rfl

theorem Encode.vsplat (d : BitVec 5) (a : BitVec 5) (k : BitVec 3) : Encode.Statement (.vsplat d a k) := by
  intro _
  apply decode_of
  have he : encode (.vsplat d a k) = 0x21#6 ++ d ++ a ++ 0#5 ++ 0#1 ++ 0#1 ++ k ++ 0#3 ++ 1#3 := rfl
  generalize encode (.vsplat d a k) = v0 at he
  have f26_6 : fld v0 26 6 = 33#6 :=
    (congrArg (fld · 26 6) he).trans ((ex_hi _ (1#3) rfl).trans ((ex_hi _ (0#3) rfl).trans ((ex_hi _ (k) rfl).trans ((ex_hi _ (0#1) rfl).trans ((ex_hi _ (0#1) rfl).trans ((ex_hi _ (0#5) rfl).trans ((ex_hi _ (a) rfl).trans ((ex_hi _ (d) rfl).trans (ex_all _)))))))))
  have f21_5 : fld v0 21 5 = d :=
    (congrArg (fld · 21 5) he).trans ((ex_hi _ (1#3) rfl).trans ((ex_hi _ (0#3) rfl).trans ((ex_hi _ (k) rfl).trans ((ex_hi _ (0#1) rfl).trans ((ex_hi _ (0#1) rfl).trans ((ex_hi _ (0#5) rfl).trans ((ex_hi _ (a) rfl).trans ((ex_lo _ (d) rfl).trans (ex_all _)))))))))
  have f16_5 : fld v0 16 5 = a :=
    (congrArg (fld · 16 5) he).trans ((ex_hi _ (1#3) rfl).trans ((ex_hi _ (0#3) rfl).trans ((ex_hi _ (k) rfl).trans ((ex_hi _ (0#1) rfl).trans ((ex_hi _ (0#1) rfl).trans ((ex_hi _ (0#5) rfl).trans ((ex_lo _ (a) rfl).trans (ex_all _))))))))
  have f11_5 : fld v0 11 5 = 0#5 :=
    (congrArg (fld · 11 5) he).trans ((ex_hi _ (1#3) rfl).trans ((ex_hi _ (0#3) rfl).trans ((ex_hi _ (k) rfl).trans ((ex_hi _ (0#1) rfl).trans ((ex_hi _ (0#1) rfl).trans ((ex_lo _ (0#5) rfl).trans (ex_all _)))))))
  have f10_1 : fld v0 10 1 = 0#1 :=
    (congrArg (fld · 10 1) he).trans ((ex_hi _ (1#3) rfl).trans ((ex_hi _ (0#3) rfl).trans ((ex_hi _ (k) rfl).trans ((ex_hi _ (0#1) rfl).trans ((ex_lo _ (0#1) rfl).trans (ex_all _))))))
  have f9_1 : fld v0 9 1 = 0#1 :=
    (congrArg (fld · 9 1) he).trans ((ex_hi _ (1#3) rfl).trans ((ex_hi _ (0#3) rfl).trans ((ex_hi _ (k) rfl).trans ((ex_lo _ (0#1) rfl).trans (ex_all _)))))
  have f6_3 : fld v0 6 3 = k :=
    (congrArg (fld · 6 3) he).trans ((ex_hi _ (1#3) rfl).trans ((ex_hi _ (0#3) rfl).trans ((ex_lo _ (k) rfl).trans (ex_all _))))
  have f3_3 : fld v0 3 3 = 0#3 :=
    (congrArg (fld · 3 3) he).trans ((ex_hi _ (1#3) rfl).trans ((ex_lo _ (0#3) rfl).trans (ex_all _)))
  have f0_3 : fld v0 0 3 = 1#3 :=
    (congrArg (fld · 0 3) he).trans ((ex_lo _ (1#3) rfl).trans (ex_all _))
  rw [family_Vmov f26_6, decodeVmov]
  simp only [f21_5, f16_5, f11_5, f10_1, f9_1, f6_3, f3_3, f0_3]
  exact rfl

theorem Encode.vext (d : BitVec 5) (a : BitVec 5) (b : BitVec 5) (x : BitVec 1) : Encode.Statement (.vext d a b x) := by
  intro _
  apply decode_of
  have he : encode (.vext d a b x) = 0x21#6 ++ d ++ a ++ b ++ x ++ 0#1 ++ 0#3 ++ 0#3 ++ 2#3 := rfl
  generalize encode (.vext d a b x) = v0 at he
  have f26_6 : fld v0 26 6 = 33#6 :=
    (congrArg (fld · 26 6) he).trans ((ex_hi _ (2#3) rfl).trans ((ex_hi _ (0#3) rfl).trans ((ex_hi _ (0#3) rfl).trans ((ex_hi _ (0#1) rfl).trans ((ex_hi _ (x) rfl).trans ((ex_hi _ (b) rfl).trans ((ex_hi _ (a) rfl).trans ((ex_hi _ (d) rfl).trans (ex_all _)))))))))
  have f21_5 : fld v0 21 5 = d :=
    (congrArg (fld · 21 5) he).trans ((ex_hi _ (2#3) rfl).trans ((ex_hi _ (0#3) rfl).trans ((ex_hi _ (0#3) rfl).trans ((ex_hi _ (0#1) rfl).trans ((ex_hi _ (x) rfl).trans ((ex_hi _ (b) rfl).trans ((ex_hi _ (a) rfl).trans ((ex_lo _ (d) rfl).trans (ex_all _)))))))))
  have f16_5 : fld v0 16 5 = a :=
    (congrArg (fld · 16 5) he).trans ((ex_hi _ (2#3) rfl).trans ((ex_hi _ (0#3) rfl).trans ((ex_hi _ (0#3) rfl).trans ((ex_hi _ (0#1) rfl).trans ((ex_hi _ (x) rfl).trans ((ex_hi _ (b) rfl).trans ((ex_lo _ (a) rfl).trans (ex_all _))))))))
  have f11_5 : fld v0 11 5 = b :=
    (congrArg (fld · 11 5) he).trans ((ex_hi _ (2#3) rfl).trans ((ex_hi _ (0#3) rfl).trans ((ex_hi _ (0#3) rfl).trans ((ex_hi _ (0#1) rfl).trans ((ex_hi _ (x) rfl).trans ((ex_lo _ (b) rfl).trans (ex_all _)))))))
  have f10_1 : fld v0 10 1 = x :=
    (congrArg (fld · 10 1) he).trans ((ex_hi _ (2#3) rfl).trans ((ex_hi _ (0#3) rfl).trans ((ex_hi _ (0#3) rfl).trans ((ex_hi _ (0#1) rfl).trans ((ex_lo _ (x) rfl).trans (ex_all _))))))
  have f9_1 : fld v0 9 1 = 0#1 :=
    (congrArg (fld · 9 1) he).trans ((ex_hi _ (2#3) rfl).trans ((ex_hi _ (0#3) rfl).trans ((ex_hi _ (0#3) rfl).trans ((ex_lo _ (0#1) rfl).trans (ex_all _)))))
  have f6_3 : fld v0 6 3 = 0#3 :=
    (congrArg (fld · 6 3) he).trans ((ex_hi _ (2#3) rfl).trans ((ex_hi _ (0#3) rfl).trans ((ex_lo _ (0#3) rfl).trans (ex_all _))))
  have f3_3 : fld v0 3 3 = 0#3 :=
    (congrArg (fld · 3 3) he).trans ((ex_hi _ (2#3) rfl).trans ((ex_lo _ (0#3) rfl).trans (ex_all _)))
  have f0_3 : fld v0 0 3 = 2#3 :=
    (congrArg (fld · 0 3) he).trans ((ex_lo _ (2#3) rfl).trans (ex_all _))
  rw [family_Vmov f26_6, decodeVmov]
  simp only [f21_5, f16_5, f11_5, f10_1, f9_1, f6_3, f3_3, f0_3]
  exact rfl

theorem Encode.vins (d : BitVec 5) (a : BitVec 5) (b : BitVec 5) : Encode.Statement (.vins d a b) := by
  intro _
  apply decode_of
  have he : encode (.vins d a b) = 0x21#6 ++ d ++ a ++ b ++ 0#1 ++ 0#1 ++ 0#3 ++ 0#3 ++ 3#3 := rfl
  generalize encode (.vins d a b) = v0 at he
  have f26_6 : fld v0 26 6 = 33#6 :=
    (congrArg (fld · 26 6) he).trans ((ex_hi _ (3#3) rfl).trans ((ex_hi _ (0#3) rfl).trans ((ex_hi _ (0#3) rfl).trans ((ex_hi _ (0#1) rfl).trans ((ex_hi _ (0#1) rfl).trans ((ex_hi _ (b) rfl).trans ((ex_hi _ (a) rfl).trans ((ex_hi _ (d) rfl).trans (ex_all _)))))))))
  have f21_5 : fld v0 21 5 = d :=
    (congrArg (fld · 21 5) he).trans ((ex_hi _ (3#3) rfl).trans ((ex_hi _ (0#3) rfl).trans ((ex_hi _ (0#3) rfl).trans ((ex_hi _ (0#1) rfl).trans ((ex_hi _ (0#1) rfl).trans ((ex_hi _ (b) rfl).trans ((ex_hi _ (a) rfl).trans ((ex_lo _ (d) rfl).trans (ex_all _)))))))))
  have f16_5 : fld v0 16 5 = a :=
    (congrArg (fld · 16 5) he).trans ((ex_hi _ (3#3) rfl).trans ((ex_hi _ (0#3) rfl).trans ((ex_hi _ (0#3) rfl).trans ((ex_hi _ (0#1) rfl).trans ((ex_hi _ (0#1) rfl).trans ((ex_hi _ (b) rfl).trans ((ex_lo _ (a) rfl).trans (ex_all _))))))))
  have f11_5 : fld v0 11 5 = b :=
    (congrArg (fld · 11 5) he).trans ((ex_hi _ (3#3) rfl).trans ((ex_hi _ (0#3) rfl).trans ((ex_hi _ (0#3) rfl).trans ((ex_hi _ (0#1) rfl).trans ((ex_hi _ (0#1) rfl).trans ((ex_lo _ (b) rfl).trans (ex_all _)))))))
  have f10_1 : fld v0 10 1 = 0#1 :=
    (congrArg (fld · 10 1) he).trans ((ex_hi _ (3#3) rfl).trans ((ex_hi _ (0#3) rfl).trans ((ex_hi _ (0#3) rfl).trans ((ex_hi _ (0#1) rfl).trans ((ex_lo _ (0#1) rfl).trans (ex_all _))))))
  have f9_1 : fld v0 9 1 = 0#1 :=
    (congrArg (fld · 9 1) he).trans ((ex_hi _ (3#3) rfl).trans ((ex_hi _ (0#3) rfl).trans ((ex_hi _ (0#3) rfl).trans ((ex_lo _ (0#1) rfl).trans (ex_all _)))))
  have f6_3 : fld v0 6 3 = 0#3 :=
    (congrArg (fld · 6 3) he).trans ((ex_hi _ (3#3) rfl).trans ((ex_hi _ (0#3) rfl).trans ((ex_lo _ (0#3) rfl).trans (ex_all _))))
  have f3_3 : fld v0 3 3 = 0#3 :=
    (congrArg (fld · 3 3) he).trans ((ex_hi _ (3#3) rfl).trans ((ex_lo _ (0#3) rfl).trans (ex_all _)))
  have f0_3 : fld v0 0 3 = 3#3 :=
    (congrArg (fld · 0 3) he).trans ((ex_lo _ (3#3) rfl).trans (ex_all _))
  rw [family_Vmov f26_6, decodeVmov]
  simp only [f21_5, f16_5, f11_5, f10_1, f9_1, f6_3, f3_3, f0_3]
  exact rfl

theorem Encode.vsel (d : BitVec 5) (a : BitVec 5) (b : BitVec 5) (x : BitVec 1) (y : BitVec 1) (k : BitVec 3) : Encode.Statement (.vsel d a b x y k) := by
  intro _
  apply decode_of
  have he : encode (.vsel d a b x y k) = 0x21#6 ++ d ++ a ++ b ++ x ++ y ++ k ++ 0#3 ++ 4#3 := rfl
  generalize encode (.vsel d a b x y k) = v0 at he
  have f26_6 : fld v0 26 6 = 33#6 :=
    (congrArg (fld · 26 6) he).trans ((ex_hi _ (4#3) rfl).trans ((ex_hi _ (0#3) rfl).trans ((ex_hi _ (k) rfl).trans ((ex_hi _ (y) rfl).trans ((ex_hi _ (x) rfl).trans ((ex_hi _ (b) rfl).trans ((ex_hi _ (a) rfl).trans ((ex_hi _ (d) rfl).trans (ex_all _)))))))))
  have f21_5 : fld v0 21 5 = d :=
    (congrArg (fld · 21 5) he).trans ((ex_hi _ (4#3) rfl).trans ((ex_hi _ (0#3) rfl).trans ((ex_hi _ (k) rfl).trans ((ex_hi _ (y) rfl).trans ((ex_hi _ (x) rfl).trans ((ex_hi _ (b) rfl).trans ((ex_hi _ (a) rfl).trans ((ex_lo _ (d) rfl).trans (ex_all _)))))))))
  have f16_5 : fld v0 16 5 = a :=
    (congrArg (fld · 16 5) he).trans ((ex_hi _ (4#3) rfl).trans ((ex_hi _ (0#3) rfl).trans ((ex_hi _ (k) rfl).trans ((ex_hi _ (y) rfl).trans ((ex_hi _ (x) rfl).trans ((ex_hi _ (b) rfl).trans ((ex_lo _ (a) rfl).trans (ex_all _))))))))
  have f11_5 : fld v0 11 5 = b :=
    (congrArg (fld · 11 5) he).trans ((ex_hi _ (4#3) rfl).trans ((ex_hi _ (0#3) rfl).trans ((ex_hi _ (k) rfl).trans ((ex_hi _ (y) rfl).trans ((ex_hi _ (x) rfl).trans ((ex_lo _ (b) rfl).trans (ex_all _)))))))
  have f10_1 : fld v0 10 1 = x :=
    (congrArg (fld · 10 1) he).trans ((ex_hi _ (4#3) rfl).trans ((ex_hi _ (0#3) rfl).trans ((ex_hi _ (k) rfl).trans ((ex_hi _ (y) rfl).trans ((ex_lo _ (x) rfl).trans (ex_all _))))))
  have f9_1 : fld v0 9 1 = y :=
    (congrArg (fld · 9 1) he).trans ((ex_hi _ (4#3) rfl).trans ((ex_hi _ (0#3) rfl).trans ((ex_hi _ (k) rfl).trans ((ex_lo _ (y) rfl).trans (ex_all _)))))
  have f6_3 : fld v0 6 3 = k :=
    (congrArg (fld · 6 3) he).trans ((ex_hi _ (4#3) rfl).trans ((ex_hi _ (0#3) rfl).trans ((ex_lo _ (k) rfl).trans (ex_all _))))
  have f3_3 : fld v0 3 3 = 0#3 :=
    (congrArg (fld · 3 3) he).trans ((ex_hi _ (4#3) rfl).trans ((ex_lo _ (0#3) rfl).trans (ex_all _)))
  have f0_3 : fld v0 0 3 = 4#3 :=
    (congrArg (fld · 0 3) he).trans ((ex_lo _ (4#3) rfl).trans (ex_all _))
  rw [family_Vmov f26_6, decodeVmov]
  simp only [f21_5, f16_5, f11_5, f10_1, f9_1, f6_3, f3_3, f0_3]
  exact rfl

theorem Encode.vmvi (d : BitVec 5) (a : BitVec 5) : Encode.Statement (.vmvi d a) := by
  intro _
  apply decode_of
  have he : encode (.vmvi d a) = 0x21#6 ++ d ++ a ++ 0#5 ++ 0#1 ++ 0#1 ++ 0#3 ++ 0#3 ++ 5#3 := rfl
  generalize encode (.vmvi d a) = v0 at he
  have f26_6 : fld v0 26 6 = 33#6 :=
    (congrArg (fld · 26 6) he).trans ((ex_hi _ (5#3) rfl).trans ((ex_hi _ (0#3) rfl).trans ((ex_hi _ (0#3) rfl).trans ((ex_hi _ (0#1) rfl).trans ((ex_hi _ (0#1) rfl).trans ((ex_hi _ (0#5) rfl).trans ((ex_hi _ (a) rfl).trans ((ex_hi _ (d) rfl).trans (ex_all _)))))))))
  have f21_5 : fld v0 21 5 = d :=
    (congrArg (fld · 21 5) he).trans ((ex_hi _ (5#3) rfl).trans ((ex_hi _ (0#3) rfl).trans ((ex_hi _ (0#3) rfl).trans ((ex_hi _ (0#1) rfl).trans ((ex_hi _ (0#1) rfl).trans ((ex_hi _ (0#5) rfl).trans ((ex_hi _ (a) rfl).trans ((ex_lo _ (d) rfl).trans (ex_all _)))))))))
  have f16_5 : fld v0 16 5 = a :=
    (congrArg (fld · 16 5) he).trans ((ex_hi _ (5#3) rfl).trans ((ex_hi _ (0#3) rfl).trans ((ex_hi _ (0#3) rfl).trans ((ex_hi _ (0#1) rfl).trans ((ex_hi _ (0#1) rfl).trans ((ex_hi _ (0#5) rfl).trans ((ex_lo _ (a) rfl).trans (ex_all _))))))))
  have f11_5 : fld v0 11 5 = 0#5 :=
    (congrArg (fld · 11 5) he).trans ((ex_hi _ (5#3) rfl).trans ((ex_hi _ (0#3) rfl).trans ((ex_hi _ (0#3) rfl).trans ((ex_hi _ (0#1) rfl).trans ((ex_hi _ (0#1) rfl).trans ((ex_lo _ (0#5) rfl).trans (ex_all _)))))))
  have f10_1 : fld v0 10 1 = 0#1 :=
    (congrArg (fld · 10 1) he).trans ((ex_hi _ (5#3) rfl).trans ((ex_hi _ (0#3) rfl).trans ((ex_hi _ (0#3) rfl).trans ((ex_hi _ (0#1) rfl).trans ((ex_lo _ (0#1) rfl).trans (ex_all _))))))
  have f9_1 : fld v0 9 1 = 0#1 :=
    (congrArg (fld · 9 1) he).trans ((ex_hi _ (5#3) rfl).trans ((ex_hi _ (0#3) rfl).trans ((ex_hi _ (0#3) rfl).trans ((ex_lo _ (0#1) rfl).trans (ex_all _)))))
  have f6_3 : fld v0 6 3 = 0#3 :=
    (congrArg (fld · 6 3) he).trans ((ex_hi _ (5#3) rfl).trans ((ex_hi _ (0#3) rfl).trans ((ex_lo _ (0#3) rfl).trans (ex_all _))))
  have f3_3 : fld v0 3 3 = 0#3 :=
    (congrArg (fld · 3 3) he).trans ((ex_hi _ (5#3) rfl).trans ((ex_lo _ (0#3) rfl).trans (ex_all _)))
  have f0_3 : fld v0 0 3 = 5#3 :=
    (congrArg (fld · 0 3) he).trans ((ex_lo _ (5#3) rfl).trans (ex_all _))
  rw [family_Vmov f26_6, decodeVmov]
  simp only [f21_5, f16_5, f11_5, f10_1, f9_1, f6_3, f3_3, f0_3]
  exact rfl

theorem Encode.vmvo (d : BitVec 5) (a : BitVec 5) (x : BitVec 1) : Encode.Statement (.vmvo d a x) := by
  intro _
  apply decode_of
  have he : encode (.vmvo d a x) = 0x21#6 ++ d ++ a ++ 0#5 ++ x ++ 0#1 ++ 0#3 ++ 0#3 ++ 6#3 := rfl
  generalize encode (.vmvo d a x) = v0 at he
  have f26_6 : fld v0 26 6 = 33#6 :=
    (congrArg (fld · 26 6) he).trans ((ex_hi _ (6#3) rfl).trans ((ex_hi _ (0#3) rfl).trans ((ex_hi _ (0#3) rfl).trans ((ex_hi _ (0#1) rfl).trans ((ex_hi _ (x) rfl).trans ((ex_hi _ (0#5) rfl).trans ((ex_hi _ (a) rfl).trans ((ex_hi _ (d) rfl).trans (ex_all _)))))))))
  have f21_5 : fld v0 21 5 = d :=
    (congrArg (fld · 21 5) he).trans ((ex_hi _ (6#3) rfl).trans ((ex_hi _ (0#3) rfl).trans ((ex_hi _ (0#3) rfl).trans ((ex_hi _ (0#1) rfl).trans ((ex_hi _ (x) rfl).trans ((ex_hi _ (0#5) rfl).trans ((ex_hi _ (a) rfl).trans ((ex_lo _ (d) rfl).trans (ex_all _)))))))))
  have f16_5 : fld v0 16 5 = a :=
    (congrArg (fld · 16 5) he).trans ((ex_hi _ (6#3) rfl).trans ((ex_hi _ (0#3) rfl).trans ((ex_hi _ (0#3) rfl).trans ((ex_hi _ (0#1) rfl).trans ((ex_hi _ (x) rfl).trans ((ex_hi _ (0#5) rfl).trans ((ex_lo _ (a) rfl).trans (ex_all _))))))))
  have f11_5 : fld v0 11 5 = 0#5 :=
    (congrArg (fld · 11 5) he).trans ((ex_hi _ (6#3) rfl).trans ((ex_hi _ (0#3) rfl).trans ((ex_hi _ (0#3) rfl).trans ((ex_hi _ (0#1) rfl).trans ((ex_hi _ (x) rfl).trans ((ex_lo _ (0#5) rfl).trans (ex_all _)))))))
  have f10_1 : fld v0 10 1 = x :=
    (congrArg (fld · 10 1) he).trans ((ex_hi _ (6#3) rfl).trans ((ex_hi _ (0#3) rfl).trans ((ex_hi _ (0#3) rfl).trans ((ex_hi _ (0#1) rfl).trans ((ex_lo _ (x) rfl).trans (ex_all _))))))
  have f9_1 : fld v0 9 1 = 0#1 :=
    (congrArg (fld · 9 1) he).trans ((ex_hi _ (6#3) rfl).trans ((ex_hi _ (0#3) rfl).trans ((ex_hi _ (0#3) rfl).trans ((ex_lo _ (0#1) rfl).trans (ex_all _)))))
  have f6_3 : fld v0 6 3 = 0#3 :=
    (congrArg (fld · 6 3) he).trans ((ex_hi _ (6#3) rfl).trans ((ex_hi _ (0#3) rfl).trans ((ex_lo _ (0#3) rfl).trans (ex_all _))))
  have f3_3 : fld v0 3 3 = 0#3 :=
    (congrArg (fld · 3 3) he).trans ((ex_hi _ (6#3) rfl).trans ((ex_lo _ (0#3) rfl).trans (ex_all _)))
  have f0_3 : fld v0 0 3 = 6#3 :=
    (congrArg (fld · 0 3) he).trans ((ex_lo _ (6#3) rfl).trans (ex_all _))
  rw [family_Vmov f26_6, decodeVmov]
  simp only [f21_5, f16_5, f11_5, f10_1, f9_1, f6_3, f3_3, f0_3]
  exact rfl

theorem Encode.kand (d : BitVec 3) (a : BitVec 3) (b : BitVec 3) : Encode.Statement (.kand d a b) := by
  intro (hw : ((d != 0#3)) = true)
  apply decode_of
  have he : encode (.kand d a b) = 0x22#6 ++ 0#2 ++ d ++ 0#2 ++ a ++ 0#2 ++ b ++ 0#1 ++ 0#1 ++ 0#3 ++ 0#3 ++ 0#3 := rfl
  generalize encode (.kand d a b) = v0 at he
  have f26_6 : fld v0 26 6 = 34#6 :=
    (congrArg (fld · 26 6) he).trans ((ex_hi _ (0#3) rfl).trans ((ex_hi _ (0#3) rfl).trans ((ex_hi _ (0#3) rfl).trans ((ex_hi _ (0#1) rfl).trans ((ex_hi _ (0#1) rfl).trans ((ex_hi _ (b) rfl).trans ((ex_hi _ (0#2) rfl).trans ((ex_hi _ (a) rfl).trans ((ex_hi _ (0#2) rfl).trans ((ex_hi _ (d) rfl).trans ((ex_hi _ (0#2) rfl).trans (ex_all _))))))))))))
  have f24_2 : fld v0 24 2 = 0#2 :=
    (congrArg (fld · 24 2) he).trans ((ex_hi _ (0#3) rfl).trans ((ex_hi _ (0#3) rfl).trans ((ex_hi _ (0#3) rfl).trans ((ex_hi _ (0#1) rfl).trans ((ex_hi _ (0#1) rfl).trans ((ex_hi _ (b) rfl).trans ((ex_hi _ (0#2) rfl).trans ((ex_hi _ (a) rfl).trans ((ex_hi _ (0#2) rfl).trans ((ex_hi _ (d) rfl).trans ((ex_lo _ (0#2) rfl).trans (ex_all _))))))))))))
  have f21_3 : fld v0 21 3 = d :=
    (congrArg (fld · 21 3) he).trans ((ex_hi _ (0#3) rfl).trans ((ex_hi _ (0#3) rfl).trans ((ex_hi _ (0#3) rfl).trans ((ex_hi _ (0#1) rfl).trans ((ex_hi _ (0#1) rfl).trans ((ex_hi _ (b) rfl).trans ((ex_hi _ (0#2) rfl).trans ((ex_hi _ (a) rfl).trans ((ex_hi _ (0#2) rfl).trans ((ex_lo _ (d) rfl).trans (ex_all _)))))))))))
  have f19_2 : fld v0 19 2 = 0#2 :=
    (congrArg (fld · 19 2) he).trans ((ex_hi _ (0#3) rfl).trans ((ex_hi _ (0#3) rfl).trans ((ex_hi _ (0#3) rfl).trans ((ex_hi _ (0#1) rfl).trans ((ex_hi _ (0#1) rfl).trans ((ex_hi _ (b) rfl).trans ((ex_hi _ (0#2) rfl).trans ((ex_hi _ (a) rfl).trans ((ex_lo _ (0#2) rfl).trans (ex_all _))))))))))
  have f16_3 : fld v0 16 3 = a :=
    (congrArg (fld · 16 3) he).trans ((ex_hi _ (0#3) rfl).trans ((ex_hi _ (0#3) rfl).trans ((ex_hi _ (0#3) rfl).trans ((ex_hi _ (0#1) rfl).trans ((ex_hi _ (0#1) rfl).trans ((ex_hi _ (b) rfl).trans ((ex_hi _ (0#2) rfl).trans ((ex_lo _ (a) rfl).trans (ex_all _)))))))))
  have f14_2 : fld v0 14 2 = 0#2 :=
    (congrArg (fld · 14 2) he).trans ((ex_hi _ (0#3) rfl).trans ((ex_hi _ (0#3) rfl).trans ((ex_hi _ (0#3) rfl).trans ((ex_hi _ (0#1) rfl).trans ((ex_hi _ (0#1) rfl).trans ((ex_hi _ (b) rfl).trans ((ex_lo _ (0#2) rfl).trans (ex_all _))))))))
  have f11_3 : fld v0 11 3 = b :=
    (congrArg (fld · 11 3) he).trans ((ex_hi _ (0#3) rfl).trans ((ex_hi _ (0#3) rfl).trans ((ex_hi _ (0#3) rfl).trans ((ex_hi _ (0#1) rfl).trans ((ex_hi _ (0#1) rfl).trans ((ex_lo _ (b) rfl).trans (ex_all _)))))))
  have f10_1 : fld v0 10 1 = 0#1 :=
    (congrArg (fld · 10 1) he).trans ((ex_hi _ (0#3) rfl).trans ((ex_hi _ (0#3) rfl).trans ((ex_hi _ (0#3) rfl).trans ((ex_hi _ (0#1) rfl).trans ((ex_lo _ (0#1) rfl).trans (ex_all _))))))
  have f9_1 : fld v0 9 1 = 0#1 :=
    (congrArg (fld · 9 1) he).trans ((ex_hi _ (0#3) rfl).trans ((ex_hi _ (0#3) rfl).trans ((ex_hi _ (0#3) rfl).trans ((ex_lo _ (0#1) rfl).trans (ex_all _)))))
  have f6_3 : fld v0 6 3 = 0#3 :=
    (congrArg (fld · 6 3) he).trans ((ex_hi _ (0#3) rfl).trans ((ex_hi _ (0#3) rfl).trans ((ex_lo _ (0#3) rfl).trans (ex_all _))))
  have f3_3 : fld v0 3 3 = 0#3 :=
    (congrArg (fld · 3 3) he).trans ((ex_hi _ (0#3) rfl).trans ((ex_lo _ (0#3) rfl).trans (ex_all _)))
  have f0_3 : fld v0 0 3 = 0#3 :=
    (congrArg (fld · 0 3) he).trans ((ex_lo _ (0#3) rfl).trans (ex_all _))
  rw [family_Kops f26_6, decodeKops]
  simp only [f24_2, f21_3, f19_2, f16_3, f14_2, f11_3, f10_1, f9_1, f6_3, f3_3, f0_3]
  exact needs_of hw

theorem Encode.kor (d : BitVec 3) (a : BitVec 3) (b : BitVec 3) : Encode.Statement (.kor d a b) := by
  intro (hw : ((d != 0#3)) = true)
  apply decode_of
  have he : encode (.kor d a b) = 0x22#6 ++ 0#2 ++ d ++ 0#2 ++ a ++ 0#2 ++ b ++ 0#1 ++ 0#1 ++ 0#3 ++ 0#3 ++ 1#3 := rfl
  generalize encode (.kor d a b) = v0 at he
  have f26_6 : fld v0 26 6 = 34#6 :=
    (congrArg (fld · 26 6) he).trans ((ex_hi _ (1#3) rfl).trans ((ex_hi _ (0#3) rfl).trans ((ex_hi _ (0#3) rfl).trans ((ex_hi _ (0#1) rfl).trans ((ex_hi _ (0#1) rfl).trans ((ex_hi _ (b) rfl).trans ((ex_hi _ (0#2) rfl).trans ((ex_hi _ (a) rfl).trans ((ex_hi _ (0#2) rfl).trans ((ex_hi _ (d) rfl).trans ((ex_hi _ (0#2) rfl).trans (ex_all _))))))))))))
  have f24_2 : fld v0 24 2 = 0#2 :=
    (congrArg (fld · 24 2) he).trans ((ex_hi _ (1#3) rfl).trans ((ex_hi _ (0#3) rfl).trans ((ex_hi _ (0#3) rfl).trans ((ex_hi _ (0#1) rfl).trans ((ex_hi _ (0#1) rfl).trans ((ex_hi _ (b) rfl).trans ((ex_hi _ (0#2) rfl).trans ((ex_hi _ (a) rfl).trans ((ex_hi _ (0#2) rfl).trans ((ex_hi _ (d) rfl).trans ((ex_lo _ (0#2) rfl).trans (ex_all _))))))))))))
  have f21_3 : fld v0 21 3 = d :=
    (congrArg (fld · 21 3) he).trans ((ex_hi _ (1#3) rfl).trans ((ex_hi _ (0#3) rfl).trans ((ex_hi _ (0#3) rfl).trans ((ex_hi _ (0#1) rfl).trans ((ex_hi _ (0#1) rfl).trans ((ex_hi _ (b) rfl).trans ((ex_hi _ (0#2) rfl).trans ((ex_hi _ (a) rfl).trans ((ex_hi _ (0#2) rfl).trans ((ex_lo _ (d) rfl).trans (ex_all _)))))))))))
  have f19_2 : fld v0 19 2 = 0#2 :=
    (congrArg (fld · 19 2) he).trans ((ex_hi _ (1#3) rfl).trans ((ex_hi _ (0#3) rfl).trans ((ex_hi _ (0#3) rfl).trans ((ex_hi _ (0#1) rfl).trans ((ex_hi _ (0#1) rfl).trans ((ex_hi _ (b) rfl).trans ((ex_hi _ (0#2) rfl).trans ((ex_hi _ (a) rfl).trans ((ex_lo _ (0#2) rfl).trans (ex_all _))))))))))
  have f16_3 : fld v0 16 3 = a :=
    (congrArg (fld · 16 3) he).trans ((ex_hi _ (1#3) rfl).trans ((ex_hi _ (0#3) rfl).trans ((ex_hi _ (0#3) rfl).trans ((ex_hi _ (0#1) rfl).trans ((ex_hi _ (0#1) rfl).trans ((ex_hi _ (b) rfl).trans ((ex_hi _ (0#2) rfl).trans ((ex_lo _ (a) rfl).trans (ex_all _)))))))))
  have f14_2 : fld v0 14 2 = 0#2 :=
    (congrArg (fld · 14 2) he).trans ((ex_hi _ (1#3) rfl).trans ((ex_hi _ (0#3) rfl).trans ((ex_hi _ (0#3) rfl).trans ((ex_hi _ (0#1) rfl).trans ((ex_hi _ (0#1) rfl).trans ((ex_hi _ (b) rfl).trans ((ex_lo _ (0#2) rfl).trans (ex_all _))))))))
  have f11_3 : fld v0 11 3 = b :=
    (congrArg (fld · 11 3) he).trans ((ex_hi _ (1#3) rfl).trans ((ex_hi _ (0#3) rfl).trans ((ex_hi _ (0#3) rfl).trans ((ex_hi _ (0#1) rfl).trans ((ex_hi _ (0#1) rfl).trans ((ex_lo _ (b) rfl).trans (ex_all _)))))))
  have f10_1 : fld v0 10 1 = 0#1 :=
    (congrArg (fld · 10 1) he).trans ((ex_hi _ (1#3) rfl).trans ((ex_hi _ (0#3) rfl).trans ((ex_hi _ (0#3) rfl).trans ((ex_hi _ (0#1) rfl).trans ((ex_lo _ (0#1) rfl).trans (ex_all _))))))
  have f9_1 : fld v0 9 1 = 0#1 :=
    (congrArg (fld · 9 1) he).trans ((ex_hi _ (1#3) rfl).trans ((ex_hi _ (0#3) rfl).trans ((ex_hi _ (0#3) rfl).trans ((ex_lo _ (0#1) rfl).trans (ex_all _)))))
  have f6_3 : fld v0 6 3 = 0#3 :=
    (congrArg (fld · 6 3) he).trans ((ex_hi _ (1#3) rfl).trans ((ex_hi _ (0#3) rfl).trans ((ex_lo _ (0#3) rfl).trans (ex_all _))))
  have f3_3 : fld v0 3 3 = 0#3 :=
    (congrArg (fld · 3 3) he).trans ((ex_hi _ (1#3) rfl).trans ((ex_lo _ (0#3) rfl).trans (ex_all _)))
  have f0_3 : fld v0 0 3 = 1#3 :=
    (congrArg (fld · 0 3) he).trans ((ex_lo _ (1#3) rfl).trans (ex_all _))
  rw [family_Kops f26_6, decodeKops]
  simp only [f24_2, f21_3, f19_2, f16_3, f14_2, f11_3, f10_1, f9_1, f6_3, f3_3, f0_3]
  exact needs_of hw

theorem Encode.kxor (d : BitVec 3) (a : BitVec 3) (b : BitVec 3) : Encode.Statement (.kxor d a b) := by
  intro (hw : ((d != 0#3)) = true)
  apply decode_of
  have he : encode (.kxor d a b) = 0x22#6 ++ 0#2 ++ d ++ 0#2 ++ a ++ 0#2 ++ b ++ 0#1 ++ 0#1 ++ 0#3 ++ 0#3 ++ 2#3 := rfl
  generalize encode (.kxor d a b) = v0 at he
  have f26_6 : fld v0 26 6 = 34#6 :=
    (congrArg (fld · 26 6) he).trans ((ex_hi _ (2#3) rfl).trans ((ex_hi _ (0#3) rfl).trans ((ex_hi _ (0#3) rfl).trans ((ex_hi _ (0#1) rfl).trans ((ex_hi _ (0#1) rfl).trans ((ex_hi _ (b) rfl).trans ((ex_hi _ (0#2) rfl).trans ((ex_hi _ (a) rfl).trans ((ex_hi _ (0#2) rfl).trans ((ex_hi _ (d) rfl).trans ((ex_hi _ (0#2) rfl).trans (ex_all _))))))))))))
  have f24_2 : fld v0 24 2 = 0#2 :=
    (congrArg (fld · 24 2) he).trans ((ex_hi _ (2#3) rfl).trans ((ex_hi _ (0#3) rfl).trans ((ex_hi _ (0#3) rfl).trans ((ex_hi _ (0#1) rfl).trans ((ex_hi _ (0#1) rfl).trans ((ex_hi _ (b) rfl).trans ((ex_hi _ (0#2) rfl).trans ((ex_hi _ (a) rfl).trans ((ex_hi _ (0#2) rfl).trans ((ex_hi _ (d) rfl).trans ((ex_lo _ (0#2) rfl).trans (ex_all _))))))))))))
  have f21_3 : fld v0 21 3 = d :=
    (congrArg (fld · 21 3) he).trans ((ex_hi _ (2#3) rfl).trans ((ex_hi _ (0#3) rfl).trans ((ex_hi _ (0#3) rfl).trans ((ex_hi _ (0#1) rfl).trans ((ex_hi _ (0#1) rfl).trans ((ex_hi _ (b) rfl).trans ((ex_hi _ (0#2) rfl).trans ((ex_hi _ (a) rfl).trans ((ex_hi _ (0#2) rfl).trans ((ex_lo _ (d) rfl).trans (ex_all _)))))))))))
  have f19_2 : fld v0 19 2 = 0#2 :=
    (congrArg (fld · 19 2) he).trans ((ex_hi _ (2#3) rfl).trans ((ex_hi _ (0#3) rfl).trans ((ex_hi _ (0#3) rfl).trans ((ex_hi _ (0#1) rfl).trans ((ex_hi _ (0#1) rfl).trans ((ex_hi _ (b) rfl).trans ((ex_hi _ (0#2) rfl).trans ((ex_hi _ (a) rfl).trans ((ex_lo _ (0#2) rfl).trans (ex_all _))))))))))
  have f16_3 : fld v0 16 3 = a :=
    (congrArg (fld · 16 3) he).trans ((ex_hi _ (2#3) rfl).trans ((ex_hi _ (0#3) rfl).trans ((ex_hi _ (0#3) rfl).trans ((ex_hi _ (0#1) rfl).trans ((ex_hi _ (0#1) rfl).trans ((ex_hi _ (b) rfl).trans ((ex_hi _ (0#2) rfl).trans ((ex_lo _ (a) rfl).trans (ex_all _)))))))))
  have f14_2 : fld v0 14 2 = 0#2 :=
    (congrArg (fld · 14 2) he).trans ((ex_hi _ (2#3) rfl).trans ((ex_hi _ (0#3) rfl).trans ((ex_hi _ (0#3) rfl).trans ((ex_hi _ (0#1) rfl).trans ((ex_hi _ (0#1) rfl).trans ((ex_hi _ (b) rfl).trans ((ex_lo _ (0#2) rfl).trans (ex_all _))))))))
  have f11_3 : fld v0 11 3 = b :=
    (congrArg (fld · 11 3) he).trans ((ex_hi _ (2#3) rfl).trans ((ex_hi _ (0#3) rfl).trans ((ex_hi _ (0#3) rfl).trans ((ex_hi _ (0#1) rfl).trans ((ex_hi _ (0#1) rfl).trans ((ex_lo _ (b) rfl).trans (ex_all _)))))))
  have f10_1 : fld v0 10 1 = 0#1 :=
    (congrArg (fld · 10 1) he).trans ((ex_hi _ (2#3) rfl).trans ((ex_hi _ (0#3) rfl).trans ((ex_hi _ (0#3) rfl).trans ((ex_hi _ (0#1) rfl).trans ((ex_lo _ (0#1) rfl).trans (ex_all _))))))
  have f9_1 : fld v0 9 1 = 0#1 :=
    (congrArg (fld · 9 1) he).trans ((ex_hi _ (2#3) rfl).trans ((ex_hi _ (0#3) rfl).trans ((ex_hi _ (0#3) rfl).trans ((ex_lo _ (0#1) rfl).trans (ex_all _)))))
  have f6_3 : fld v0 6 3 = 0#3 :=
    (congrArg (fld · 6 3) he).trans ((ex_hi _ (2#3) rfl).trans ((ex_hi _ (0#3) rfl).trans ((ex_lo _ (0#3) rfl).trans (ex_all _))))
  have f3_3 : fld v0 3 3 = 0#3 :=
    (congrArg (fld · 3 3) he).trans ((ex_hi _ (2#3) rfl).trans ((ex_lo _ (0#3) rfl).trans (ex_all _)))
  have f0_3 : fld v0 0 3 = 2#3 :=
    (congrArg (fld · 0 3) he).trans ((ex_lo _ (2#3) rfl).trans (ex_all _))
  rw [family_Kops f26_6, decodeKops]
  simp only [f24_2, f21_3, f19_2, f16_3, f14_2, f11_3, f10_1, f9_1, f6_3, f3_3, f0_3]
  exact needs_of hw

theorem Encode.kandn (d : BitVec 3) (a : BitVec 3) (b : BitVec 3) : Encode.Statement (.kandn d a b) := by
  intro (hw : ((d != 0#3)) = true)
  apply decode_of
  have he : encode (.kandn d a b) = 0x22#6 ++ 0#2 ++ d ++ 0#2 ++ a ++ 0#2 ++ b ++ 0#1 ++ 0#1 ++ 0#3 ++ 0#3 ++ 3#3 := rfl
  generalize encode (.kandn d a b) = v0 at he
  have f26_6 : fld v0 26 6 = 34#6 :=
    (congrArg (fld · 26 6) he).trans ((ex_hi _ (3#3) rfl).trans ((ex_hi _ (0#3) rfl).trans ((ex_hi _ (0#3) rfl).trans ((ex_hi _ (0#1) rfl).trans ((ex_hi _ (0#1) rfl).trans ((ex_hi _ (b) rfl).trans ((ex_hi _ (0#2) rfl).trans ((ex_hi _ (a) rfl).trans ((ex_hi _ (0#2) rfl).trans ((ex_hi _ (d) rfl).trans ((ex_hi _ (0#2) rfl).trans (ex_all _))))))))))))
  have f24_2 : fld v0 24 2 = 0#2 :=
    (congrArg (fld · 24 2) he).trans ((ex_hi _ (3#3) rfl).trans ((ex_hi _ (0#3) rfl).trans ((ex_hi _ (0#3) rfl).trans ((ex_hi _ (0#1) rfl).trans ((ex_hi _ (0#1) rfl).trans ((ex_hi _ (b) rfl).trans ((ex_hi _ (0#2) rfl).trans ((ex_hi _ (a) rfl).trans ((ex_hi _ (0#2) rfl).trans ((ex_hi _ (d) rfl).trans ((ex_lo _ (0#2) rfl).trans (ex_all _))))))))))))
  have f21_3 : fld v0 21 3 = d :=
    (congrArg (fld · 21 3) he).trans ((ex_hi _ (3#3) rfl).trans ((ex_hi _ (0#3) rfl).trans ((ex_hi _ (0#3) rfl).trans ((ex_hi _ (0#1) rfl).trans ((ex_hi _ (0#1) rfl).trans ((ex_hi _ (b) rfl).trans ((ex_hi _ (0#2) rfl).trans ((ex_hi _ (a) rfl).trans ((ex_hi _ (0#2) rfl).trans ((ex_lo _ (d) rfl).trans (ex_all _)))))))))))
  have f19_2 : fld v0 19 2 = 0#2 :=
    (congrArg (fld · 19 2) he).trans ((ex_hi _ (3#3) rfl).trans ((ex_hi _ (0#3) rfl).trans ((ex_hi _ (0#3) rfl).trans ((ex_hi _ (0#1) rfl).trans ((ex_hi _ (0#1) rfl).trans ((ex_hi _ (b) rfl).trans ((ex_hi _ (0#2) rfl).trans ((ex_hi _ (a) rfl).trans ((ex_lo _ (0#2) rfl).trans (ex_all _))))))))))
  have f16_3 : fld v0 16 3 = a :=
    (congrArg (fld · 16 3) he).trans ((ex_hi _ (3#3) rfl).trans ((ex_hi _ (0#3) rfl).trans ((ex_hi _ (0#3) rfl).trans ((ex_hi _ (0#1) rfl).trans ((ex_hi _ (0#1) rfl).trans ((ex_hi _ (b) rfl).trans ((ex_hi _ (0#2) rfl).trans ((ex_lo _ (a) rfl).trans (ex_all _)))))))))
  have f14_2 : fld v0 14 2 = 0#2 :=
    (congrArg (fld · 14 2) he).trans ((ex_hi _ (3#3) rfl).trans ((ex_hi _ (0#3) rfl).trans ((ex_hi _ (0#3) rfl).trans ((ex_hi _ (0#1) rfl).trans ((ex_hi _ (0#1) rfl).trans ((ex_hi _ (b) rfl).trans ((ex_lo _ (0#2) rfl).trans (ex_all _))))))))
  have f11_3 : fld v0 11 3 = b :=
    (congrArg (fld · 11 3) he).trans ((ex_hi _ (3#3) rfl).trans ((ex_hi _ (0#3) rfl).trans ((ex_hi _ (0#3) rfl).trans ((ex_hi _ (0#1) rfl).trans ((ex_hi _ (0#1) rfl).trans ((ex_lo _ (b) rfl).trans (ex_all _)))))))
  have f10_1 : fld v0 10 1 = 0#1 :=
    (congrArg (fld · 10 1) he).trans ((ex_hi _ (3#3) rfl).trans ((ex_hi _ (0#3) rfl).trans ((ex_hi _ (0#3) rfl).trans ((ex_hi _ (0#1) rfl).trans ((ex_lo _ (0#1) rfl).trans (ex_all _))))))
  have f9_1 : fld v0 9 1 = 0#1 :=
    (congrArg (fld · 9 1) he).trans ((ex_hi _ (3#3) rfl).trans ((ex_hi _ (0#3) rfl).trans ((ex_hi _ (0#3) rfl).trans ((ex_lo _ (0#1) rfl).trans (ex_all _)))))
  have f6_3 : fld v0 6 3 = 0#3 :=
    (congrArg (fld · 6 3) he).trans ((ex_hi _ (3#3) rfl).trans ((ex_hi _ (0#3) rfl).trans ((ex_lo _ (0#3) rfl).trans (ex_all _))))
  have f3_3 : fld v0 3 3 = 0#3 :=
    (congrArg (fld · 3 3) he).trans ((ex_hi _ (3#3) rfl).trans ((ex_lo _ (0#3) rfl).trans (ex_all _)))
  have f0_3 : fld v0 0 3 = 3#3 :=
    (congrArg (fld · 0 3) he).trans ((ex_lo _ (3#3) rfl).trans (ex_all _))
  rw [family_Kops f26_6, decodeKops]
  simp only [f24_2, f21_3, f19_2, f16_3, f14_2, f11_3, f10_1, f9_1, f6_3, f3_3, f0_3]
  exact needs_of hw

theorem Encode.kpopc (d : BitVec 5) (a : BitVec 3) : Encode.Statement (.kpopc d a) := by
  intro _
  apply decode_of
  have he : encode (.kpopc d a) = 0x22#6 ++ d ++ 0#2 ++ a ++ 0#5 ++ 0#1 ++ 0#1 ++ 0#3 ++ 0#3 ++ 4#3 := rfl
  generalize encode (.kpopc d a) = v0 at he
  have f26_6 : fld v0 26 6 = 34#6 :=
    (congrArg (fld · 26 6) he).trans ((ex_hi _ (4#3) rfl).trans ((ex_hi _ (0#3) rfl).trans ((ex_hi _ (0#3) rfl).trans ((ex_hi _ (0#1) rfl).trans ((ex_hi _ (0#1) rfl).trans ((ex_hi _ (0#5) rfl).trans ((ex_hi _ (a) rfl).trans ((ex_hi _ (0#2) rfl).trans ((ex_hi _ (d) rfl).trans (ex_all _))))))))))
  have f21_5 : fld v0 21 5 = d :=
    (congrArg (fld · 21 5) he).trans ((ex_hi _ (4#3) rfl).trans ((ex_hi _ (0#3) rfl).trans ((ex_hi _ (0#3) rfl).trans ((ex_hi _ (0#1) rfl).trans ((ex_hi _ (0#1) rfl).trans ((ex_hi _ (0#5) rfl).trans ((ex_hi _ (a) rfl).trans ((ex_hi _ (0#2) rfl).trans ((ex_lo _ (d) rfl).trans (ex_all _))))))))))
  have f19_2 : fld v0 19 2 = 0#2 :=
    (congrArg (fld · 19 2) he).trans ((ex_hi _ (4#3) rfl).trans ((ex_hi _ (0#3) rfl).trans ((ex_hi _ (0#3) rfl).trans ((ex_hi _ (0#1) rfl).trans ((ex_hi _ (0#1) rfl).trans ((ex_hi _ (0#5) rfl).trans ((ex_hi _ (a) rfl).trans ((ex_lo _ (0#2) rfl).trans (ex_all _)))))))))
  have f16_3 : fld v0 16 3 = a :=
    (congrArg (fld · 16 3) he).trans ((ex_hi _ (4#3) rfl).trans ((ex_hi _ (0#3) rfl).trans ((ex_hi _ (0#3) rfl).trans ((ex_hi _ (0#1) rfl).trans ((ex_hi _ (0#1) rfl).trans ((ex_hi _ (0#5) rfl).trans ((ex_lo _ (a) rfl).trans (ex_all _))))))))
  have f11_5 : fld v0 11 5 = 0#5 :=
    (congrArg (fld · 11 5) he).trans ((ex_hi _ (4#3) rfl).trans ((ex_hi _ (0#3) rfl).trans ((ex_hi _ (0#3) rfl).trans ((ex_hi _ (0#1) rfl).trans ((ex_hi _ (0#1) rfl).trans ((ex_lo _ (0#5) rfl).trans (ex_all _)))))))
  have f10_1 : fld v0 10 1 = 0#1 :=
    (congrArg (fld · 10 1) he).trans ((ex_hi _ (4#3) rfl).trans ((ex_hi _ (0#3) rfl).trans ((ex_hi _ (0#3) rfl).trans ((ex_hi _ (0#1) rfl).trans ((ex_lo _ (0#1) rfl).trans (ex_all _))))))
  have f9_1 : fld v0 9 1 = 0#1 :=
    (congrArg (fld · 9 1) he).trans ((ex_hi _ (4#3) rfl).trans ((ex_hi _ (0#3) rfl).trans ((ex_hi _ (0#3) rfl).trans ((ex_lo _ (0#1) rfl).trans (ex_all _)))))
  have f6_3 : fld v0 6 3 = 0#3 :=
    (congrArg (fld · 6 3) he).trans ((ex_hi _ (4#3) rfl).trans ((ex_hi _ (0#3) rfl).trans ((ex_lo _ (0#3) rfl).trans (ex_all _))))
  have f3_3 : fld v0 3 3 = 0#3 :=
    (congrArg (fld · 3 3) he).trans ((ex_hi _ (4#3) rfl).trans ((ex_lo _ (0#3) rfl).trans (ex_all _)))
  have f0_3 : fld v0 0 3 = 4#3 :=
    (congrArg (fld · 0 3) he).trans ((ex_lo _ (4#3) rfl).trans (ex_all _))
  rw [family_Kops f26_6, decodeKops]
  simp only [f21_5, f19_2, f16_3, f11_5, f10_1, f9_1, f6_3, f3_3, f0_3]
  exact rfl

theorem Encode.kfirst (d : BitVec 5) (a : BitVec 3) : Encode.Statement (.kfirst d a) := by
  intro _
  apply decode_of
  have he : encode (.kfirst d a) = 0x22#6 ++ d ++ 0#2 ++ a ++ 0#5 ++ 0#1 ++ 0#1 ++ 0#3 ++ 0#3 ++ 5#3 := rfl
  generalize encode (.kfirst d a) = v0 at he
  have f26_6 : fld v0 26 6 = 34#6 :=
    (congrArg (fld · 26 6) he).trans ((ex_hi _ (5#3) rfl).trans ((ex_hi _ (0#3) rfl).trans ((ex_hi _ (0#3) rfl).trans ((ex_hi _ (0#1) rfl).trans ((ex_hi _ (0#1) rfl).trans ((ex_hi _ (0#5) rfl).trans ((ex_hi _ (a) rfl).trans ((ex_hi _ (0#2) rfl).trans ((ex_hi _ (d) rfl).trans (ex_all _))))))))))
  have f21_5 : fld v0 21 5 = d :=
    (congrArg (fld · 21 5) he).trans ((ex_hi _ (5#3) rfl).trans ((ex_hi _ (0#3) rfl).trans ((ex_hi _ (0#3) rfl).trans ((ex_hi _ (0#1) rfl).trans ((ex_hi _ (0#1) rfl).trans ((ex_hi _ (0#5) rfl).trans ((ex_hi _ (a) rfl).trans ((ex_hi _ (0#2) rfl).trans ((ex_lo _ (d) rfl).trans (ex_all _))))))))))
  have f19_2 : fld v0 19 2 = 0#2 :=
    (congrArg (fld · 19 2) he).trans ((ex_hi _ (5#3) rfl).trans ((ex_hi _ (0#3) rfl).trans ((ex_hi _ (0#3) rfl).trans ((ex_hi _ (0#1) rfl).trans ((ex_hi _ (0#1) rfl).trans ((ex_hi _ (0#5) rfl).trans ((ex_hi _ (a) rfl).trans ((ex_lo _ (0#2) rfl).trans (ex_all _)))))))))
  have f16_3 : fld v0 16 3 = a :=
    (congrArg (fld · 16 3) he).trans ((ex_hi _ (5#3) rfl).trans ((ex_hi _ (0#3) rfl).trans ((ex_hi _ (0#3) rfl).trans ((ex_hi _ (0#1) rfl).trans ((ex_hi _ (0#1) rfl).trans ((ex_hi _ (0#5) rfl).trans ((ex_lo _ (a) rfl).trans (ex_all _))))))))
  have f11_5 : fld v0 11 5 = 0#5 :=
    (congrArg (fld · 11 5) he).trans ((ex_hi _ (5#3) rfl).trans ((ex_hi _ (0#3) rfl).trans ((ex_hi _ (0#3) rfl).trans ((ex_hi _ (0#1) rfl).trans ((ex_hi _ (0#1) rfl).trans ((ex_lo _ (0#5) rfl).trans (ex_all _)))))))
  have f10_1 : fld v0 10 1 = 0#1 :=
    (congrArg (fld · 10 1) he).trans ((ex_hi _ (5#3) rfl).trans ((ex_hi _ (0#3) rfl).trans ((ex_hi _ (0#3) rfl).trans ((ex_hi _ (0#1) rfl).trans ((ex_lo _ (0#1) rfl).trans (ex_all _))))))
  have f9_1 : fld v0 9 1 = 0#1 :=
    (congrArg (fld · 9 1) he).trans ((ex_hi _ (5#3) rfl).trans ((ex_hi _ (0#3) rfl).trans ((ex_hi _ (0#3) rfl).trans ((ex_lo _ (0#1) rfl).trans (ex_all _)))))
  have f6_3 : fld v0 6 3 = 0#3 :=
    (congrArg (fld · 6 3) he).trans ((ex_hi _ (5#3) rfl).trans ((ex_hi _ (0#3) rfl).trans ((ex_lo _ (0#3) rfl).trans (ex_all _))))
  have f3_3 : fld v0 3 3 = 0#3 :=
    (congrArg (fld · 3 3) he).trans ((ex_hi _ (5#3) rfl).trans ((ex_lo _ (0#3) rfl).trans (ex_all _)))
  have f0_3 : fld v0 0 3 = 5#3 :=
    (congrArg (fld · 0 3) he).trans ((ex_lo _ (5#3) rfl).trans (ex_all _))
  rw [family_Kops f26_6, decodeKops]
  simp only [f21_5, f19_2, f16_3, f11_5, f10_1, f9_1, f6_3, f3_3, f0_3]
  exact rfl

theorem Encode.kbrka (d : BitVec 3) (a : BitVec 3) : Encode.Statement (.kbrka d a) := by
  intro (hw : ((d != 0#3)) = true)
  apply decode_of
  have he : encode (.kbrka d a) = 0x22#6 ++ 0#2 ++ d ++ 0#2 ++ a ++ 0#5 ++ 0#1 ++ 0#1 ++ 0#3 ++ 0#3 ++ 6#3 := rfl
  generalize encode (.kbrka d a) = v0 at he
  have f26_6 : fld v0 26 6 = 34#6 :=
    (congrArg (fld · 26 6) he).trans ((ex_hi _ (6#3) rfl).trans ((ex_hi _ (0#3) rfl).trans ((ex_hi _ (0#3) rfl).trans ((ex_hi _ (0#1) rfl).trans ((ex_hi _ (0#1) rfl).trans ((ex_hi _ (0#5) rfl).trans ((ex_hi _ (a) rfl).trans ((ex_hi _ (0#2) rfl).trans ((ex_hi _ (d) rfl).trans ((ex_hi _ (0#2) rfl).trans (ex_all _)))))))))))
  have f24_2 : fld v0 24 2 = 0#2 :=
    (congrArg (fld · 24 2) he).trans ((ex_hi _ (6#3) rfl).trans ((ex_hi _ (0#3) rfl).trans ((ex_hi _ (0#3) rfl).trans ((ex_hi _ (0#1) rfl).trans ((ex_hi _ (0#1) rfl).trans ((ex_hi _ (0#5) rfl).trans ((ex_hi _ (a) rfl).trans ((ex_hi _ (0#2) rfl).trans ((ex_hi _ (d) rfl).trans ((ex_lo _ (0#2) rfl).trans (ex_all _)))))))))))
  have f21_3 : fld v0 21 3 = d :=
    (congrArg (fld · 21 3) he).trans ((ex_hi _ (6#3) rfl).trans ((ex_hi _ (0#3) rfl).trans ((ex_hi _ (0#3) rfl).trans ((ex_hi _ (0#1) rfl).trans ((ex_hi _ (0#1) rfl).trans ((ex_hi _ (0#5) rfl).trans ((ex_hi _ (a) rfl).trans ((ex_hi _ (0#2) rfl).trans ((ex_lo _ (d) rfl).trans (ex_all _))))))))))
  have f19_2 : fld v0 19 2 = 0#2 :=
    (congrArg (fld · 19 2) he).trans ((ex_hi _ (6#3) rfl).trans ((ex_hi _ (0#3) rfl).trans ((ex_hi _ (0#3) rfl).trans ((ex_hi _ (0#1) rfl).trans ((ex_hi _ (0#1) rfl).trans ((ex_hi _ (0#5) rfl).trans ((ex_hi _ (a) rfl).trans ((ex_lo _ (0#2) rfl).trans (ex_all _)))))))))
  have f16_3 : fld v0 16 3 = a :=
    (congrArg (fld · 16 3) he).trans ((ex_hi _ (6#3) rfl).trans ((ex_hi _ (0#3) rfl).trans ((ex_hi _ (0#3) rfl).trans ((ex_hi _ (0#1) rfl).trans ((ex_hi _ (0#1) rfl).trans ((ex_hi _ (0#5) rfl).trans ((ex_lo _ (a) rfl).trans (ex_all _))))))))
  have f11_5 : fld v0 11 5 = 0#5 :=
    (congrArg (fld · 11 5) he).trans ((ex_hi _ (6#3) rfl).trans ((ex_hi _ (0#3) rfl).trans ((ex_hi _ (0#3) rfl).trans ((ex_hi _ (0#1) rfl).trans ((ex_hi _ (0#1) rfl).trans ((ex_lo _ (0#5) rfl).trans (ex_all _)))))))
  have f10_1 : fld v0 10 1 = 0#1 :=
    (congrArg (fld · 10 1) he).trans ((ex_hi _ (6#3) rfl).trans ((ex_hi _ (0#3) rfl).trans ((ex_hi _ (0#3) rfl).trans ((ex_hi _ (0#1) rfl).trans ((ex_lo _ (0#1) rfl).trans (ex_all _))))))
  have f9_1 : fld v0 9 1 = 0#1 :=
    (congrArg (fld · 9 1) he).trans ((ex_hi _ (6#3) rfl).trans ((ex_hi _ (0#3) rfl).trans ((ex_hi _ (0#3) rfl).trans ((ex_lo _ (0#1) rfl).trans (ex_all _)))))
  have f6_3 : fld v0 6 3 = 0#3 :=
    (congrArg (fld · 6 3) he).trans ((ex_hi _ (6#3) rfl).trans ((ex_hi _ (0#3) rfl).trans ((ex_lo _ (0#3) rfl).trans (ex_all _))))
  have f3_3 : fld v0 3 3 = 0#3 :=
    (congrArg (fld · 3 3) he).trans ((ex_hi _ (6#3) rfl).trans ((ex_lo _ (0#3) rfl).trans (ex_all _)))
  have f0_3 : fld v0 0 3 = 6#3 :=
    (congrArg (fld · 0 3) he).trans ((ex_lo _ (6#3) rfl).trans (ex_all _))
  rw [family_Kops f26_6, decodeKops]
  simp only [f24_2, f21_3, f19_2, f16_3, f11_5, f10_1, f9_1, f6_3, f3_3, f0_3]
  exact needs_of hw

theorem Encode.kbrki (d : BitVec 3) (a : BitVec 3) : Encode.Statement (.kbrki d a) := by
  intro (hw : ((d != 0#3)) = true)
  apply decode_of
  have he : encode (.kbrki d a) = 0x22#6 ++ 0#2 ++ d ++ 0#2 ++ a ++ 0#5 ++ 0#1 ++ 0#1 ++ 0#3 ++ 0#3 ++ 7#3 := rfl
  generalize encode (.kbrki d a) = v0 at he
  have f26_6 : fld v0 26 6 = 34#6 :=
    (congrArg (fld · 26 6) he).trans ((ex_hi _ (7#3) rfl).trans ((ex_hi _ (0#3) rfl).trans ((ex_hi _ (0#3) rfl).trans ((ex_hi _ (0#1) rfl).trans ((ex_hi _ (0#1) rfl).trans ((ex_hi _ (0#5) rfl).trans ((ex_hi _ (a) rfl).trans ((ex_hi _ (0#2) rfl).trans ((ex_hi _ (d) rfl).trans ((ex_hi _ (0#2) rfl).trans (ex_all _)))))))))))
  have f24_2 : fld v0 24 2 = 0#2 :=
    (congrArg (fld · 24 2) he).trans ((ex_hi _ (7#3) rfl).trans ((ex_hi _ (0#3) rfl).trans ((ex_hi _ (0#3) rfl).trans ((ex_hi _ (0#1) rfl).trans ((ex_hi _ (0#1) rfl).trans ((ex_hi _ (0#5) rfl).trans ((ex_hi _ (a) rfl).trans ((ex_hi _ (0#2) rfl).trans ((ex_hi _ (d) rfl).trans ((ex_lo _ (0#2) rfl).trans (ex_all _)))))))))))
  have f21_3 : fld v0 21 3 = d :=
    (congrArg (fld · 21 3) he).trans ((ex_hi _ (7#3) rfl).trans ((ex_hi _ (0#3) rfl).trans ((ex_hi _ (0#3) rfl).trans ((ex_hi _ (0#1) rfl).trans ((ex_hi _ (0#1) rfl).trans ((ex_hi _ (0#5) rfl).trans ((ex_hi _ (a) rfl).trans ((ex_hi _ (0#2) rfl).trans ((ex_lo _ (d) rfl).trans (ex_all _))))))))))
  have f19_2 : fld v0 19 2 = 0#2 :=
    (congrArg (fld · 19 2) he).trans ((ex_hi _ (7#3) rfl).trans ((ex_hi _ (0#3) rfl).trans ((ex_hi _ (0#3) rfl).trans ((ex_hi _ (0#1) rfl).trans ((ex_hi _ (0#1) rfl).trans ((ex_hi _ (0#5) rfl).trans ((ex_hi _ (a) rfl).trans ((ex_lo _ (0#2) rfl).trans (ex_all _)))))))))
  have f16_3 : fld v0 16 3 = a :=
    (congrArg (fld · 16 3) he).trans ((ex_hi _ (7#3) rfl).trans ((ex_hi _ (0#3) rfl).trans ((ex_hi _ (0#3) rfl).trans ((ex_hi _ (0#1) rfl).trans ((ex_hi _ (0#1) rfl).trans ((ex_hi _ (0#5) rfl).trans ((ex_lo _ (a) rfl).trans (ex_all _))))))))
  have f11_5 : fld v0 11 5 = 0#5 :=
    (congrArg (fld · 11 5) he).trans ((ex_hi _ (7#3) rfl).trans ((ex_hi _ (0#3) rfl).trans ((ex_hi _ (0#3) rfl).trans ((ex_hi _ (0#1) rfl).trans ((ex_hi _ (0#1) rfl).trans ((ex_lo _ (0#5) rfl).trans (ex_all _)))))))
  have f10_1 : fld v0 10 1 = 0#1 :=
    (congrArg (fld · 10 1) he).trans ((ex_hi _ (7#3) rfl).trans ((ex_hi _ (0#3) rfl).trans ((ex_hi _ (0#3) rfl).trans ((ex_hi _ (0#1) rfl).trans ((ex_lo _ (0#1) rfl).trans (ex_all _))))))
  have f9_1 : fld v0 9 1 = 0#1 :=
    (congrArg (fld · 9 1) he).trans ((ex_hi _ (7#3) rfl).trans ((ex_hi _ (0#3) rfl).trans ((ex_hi _ (0#3) rfl).trans ((ex_lo _ (0#1) rfl).trans (ex_all _)))))
  have f6_3 : fld v0 6 3 = 0#3 :=
    (congrArg (fld · 6 3) he).trans ((ex_hi _ (7#3) rfl).trans ((ex_hi _ (0#3) rfl).trans ((ex_lo _ (0#3) rfl).trans (ex_all _))))
  have f3_3 : fld v0 3 3 = 0#3 :=
    (congrArg (fld · 3 3) he).trans ((ex_hi _ (7#3) rfl).trans ((ex_lo _ (0#3) rfl).trans (ex_all _)))
  have f0_3 : fld v0 0 3 = 7#3 :=
    (congrArg (fld · 0 3) he).trans ((ex_lo _ (7#3) rfl).trans (ex_all _))
  rw [family_Kops f26_6, decodeKops]
  simp only [f24_2, f21_3, f19_2, f16_3, f11_5, f10_1, f9_1, f6_3, f3_3, f0_3]
  exact needs_of hw

theorem Encode.gbcast (a : BitVec 5) (x : BitVec 1) : Encode.Statement (.gbcast a x) := by
  intro _
  apply decode_of
  have he : encode (.gbcast a x) = 0x33#6 ++ 0#5 ++ a ++ 0#5 ++ x ++ 0#1 ++ 0#3 ++ 0#3 ++ 0#3 := rfl
  generalize encode (.gbcast a x) = v0 at he
  have f26_6 : fld v0 26 6 = 51#6 :=
    (congrArg (fld · 26 6) he).trans ((ex_hi _ (0#3) rfl).trans ((ex_hi _ (0#3) rfl).trans ((ex_hi _ (0#3) rfl).trans ((ex_hi _ (0#1) rfl).trans ((ex_hi _ (x) rfl).trans ((ex_hi _ (0#5) rfl).trans ((ex_hi _ (a) rfl).trans ((ex_hi _ (0#5) rfl).trans (ex_all _)))))))))
  have f21_5 : fld v0 21 5 = 0#5 :=
    (congrArg (fld · 21 5) he).trans ((ex_hi _ (0#3) rfl).trans ((ex_hi _ (0#3) rfl).trans ((ex_hi _ (0#3) rfl).trans ((ex_hi _ (0#1) rfl).trans ((ex_hi _ (x) rfl).trans ((ex_hi _ (0#5) rfl).trans ((ex_hi _ (a) rfl).trans ((ex_lo _ (0#5) rfl).trans (ex_all _)))))))))
  have f16_5 : fld v0 16 5 = a :=
    (congrArg (fld · 16 5) he).trans ((ex_hi _ (0#3) rfl).trans ((ex_hi _ (0#3) rfl).trans ((ex_hi _ (0#3) rfl).trans ((ex_hi _ (0#1) rfl).trans ((ex_hi _ (x) rfl).trans ((ex_hi _ (0#5) rfl).trans ((ex_lo _ (a) rfl).trans (ex_all _))))))))
  have f11_5 : fld v0 11 5 = 0#5 :=
    (congrArg (fld · 11 5) he).trans ((ex_hi _ (0#3) rfl).trans ((ex_hi _ (0#3) rfl).trans ((ex_hi _ (0#3) rfl).trans ((ex_hi _ (0#1) rfl).trans ((ex_hi _ (x) rfl).trans ((ex_lo _ (0#5) rfl).trans (ex_all _)))))))
  have f10_1 : fld v0 10 1 = x :=
    (congrArg (fld · 10 1) he).trans ((ex_hi _ (0#3) rfl).trans ((ex_hi _ (0#3) rfl).trans ((ex_hi _ (0#3) rfl).trans ((ex_hi _ (0#1) rfl).trans ((ex_lo _ (x) rfl).trans (ex_all _))))))
  have f9_1 : fld v0 9 1 = 0#1 :=
    (congrArg (fld · 9 1) he).trans ((ex_hi _ (0#3) rfl).trans ((ex_hi _ (0#3) rfl).trans ((ex_hi _ (0#3) rfl).trans ((ex_lo _ (0#1) rfl).trans (ex_all _)))))
  have f6_3 : fld v0 6 3 = 0#3 :=
    (congrArg (fld · 6 3) he).trans ((ex_hi _ (0#3) rfl).trans ((ex_hi _ (0#3) rfl).trans ((ex_lo _ (0#3) rfl).trans (ex_all _))))
  have f3_3 : fld v0 3 3 = 0#3 :=
    (congrArg (fld · 3 3) he).trans ((ex_hi _ (0#3) rfl).trans ((ex_lo _ (0#3) rfl).trans (ex_all _)))
  have f0_3 : fld v0 0 3 = 0#3 :=
    (congrArg (fld · 0 3) he).trans ((ex_lo _ (0#3) rfl).trans (ex_all _))
  rw [family_Gang f26_6, decodeGang]
  simp only [f21_5, f16_5, f11_5, f10_1, f9_1, f6_3, f3_3, f0_3]
  exact rfl

theorem Encode.grecv (d : BitVec 5) : Encode.Statement (.grecv d) := by
  intro _
  apply decode_of
  have he : encode (.grecv d) = 0x33#6 ++ d ++ 0#5 ++ 0#5 ++ 0#1 ++ 0#1 ++ 0#3 ++ 0#3 ++ 1#3 := rfl
  generalize encode (.grecv d) = v0 at he
  have f26_6 : fld v0 26 6 = 51#6 :=
    (congrArg (fld · 26 6) he).trans ((ex_hi _ (1#3) rfl).trans ((ex_hi _ (0#3) rfl).trans ((ex_hi _ (0#3) rfl).trans ((ex_hi _ (0#1) rfl).trans ((ex_hi _ (0#1) rfl).trans ((ex_hi _ (0#5) rfl).trans ((ex_hi _ (0#5) rfl).trans ((ex_hi _ (d) rfl).trans (ex_all _)))))))))
  have f21_5 : fld v0 21 5 = d :=
    (congrArg (fld · 21 5) he).trans ((ex_hi _ (1#3) rfl).trans ((ex_hi _ (0#3) rfl).trans ((ex_hi _ (0#3) rfl).trans ((ex_hi _ (0#1) rfl).trans ((ex_hi _ (0#1) rfl).trans ((ex_hi _ (0#5) rfl).trans ((ex_hi _ (0#5) rfl).trans ((ex_lo _ (d) rfl).trans (ex_all _)))))))))
  have f16_5 : fld v0 16 5 = 0#5 :=
    (congrArg (fld · 16 5) he).trans ((ex_hi _ (1#3) rfl).trans ((ex_hi _ (0#3) rfl).trans ((ex_hi _ (0#3) rfl).trans ((ex_hi _ (0#1) rfl).trans ((ex_hi _ (0#1) rfl).trans ((ex_hi _ (0#5) rfl).trans ((ex_lo _ (0#5) rfl).trans (ex_all _))))))))
  have f11_5 : fld v0 11 5 = 0#5 :=
    (congrArg (fld · 11 5) he).trans ((ex_hi _ (1#3) rfl).trans ((ex_hi _ (0#3) rfl).trans ((ex_hi _ (0#3) rfl).trans ((ex_hi _ (0#1) rfl).trans ((ex_hi _ (0#1) rfl).trans ((ex_lo _ (0#5) rfl).trans (ex_all _)))))))
  have f10_1 : fld v0 10 1 = 0#1 :=
    (congrArg (fld · 10 1) he).trans ((ex_hi _ (1#3) rfl).trans ((ex_hi _ (0#3) rfl).trans ((ex_hi _ (0#3) rfl).trans ((ex_hi _ (0#1) rfl).trans ((ex_lo _ (0#1) rfl).trans (ex_all _))))))
  have f9_1 : fld v0 9 1 = 0#1 :=
    (congrArg (fld · 9 1) he).trans ((ex_hi _ (1#3) rfl).trans ((ex_hi _ (0#3) rfl).trans ((ex_hi _ (0#3) rfl).trans ((ex_lo _ (0#1) rfl).trans (ex_all _)))))
  have f6_3 : fld v0 6 3 = 0#3 :=
    (congrArg (fld · 6 3) he).trans ((ex_hi _ (1#3) rfl).trans ((ex_hi _ (0#3) rfl).trans ((ex_lo _ (0#3) rfl).trans (ex_all _))))
  have f3_3 : fld v0 3 3 = 0#3 :=
    (congrArg (fld · 3 3) he).trans ((ex_hi _ (1#3) rfl).trans ((ex_lo _ (0#3) rfl).trans (ex_all _)))
  have f0_3 : fld v0 0 3 = 1#3 :=
    (congrArg (fld · 0 3) he).trans ((ex_lo _ (1#3) rfl).trans (ex_all _))
  rw [family_Gang f26_6, decodeGang]
  simp only [f21_5, f16_5, f11_5, f10_1, f9_1, f6_3, f3_3, f0_3]
  exact rfl

theorem Encode.vld (v : BitVec 5) (a : BitVec 5) (k : BitVec 3) (w : BitVec 3) (s : BitVec 3) : Encode.Statement (.vld v a k w s) := by
  intro _
  apply decode_of
  have he : encode (.vld v a k w s) = 0x23#6 ++ v ++ a ++ 0#5 ++ k ++ w ++ s ++ 0#1 ++ 0#1 := rfl
  generalize encode (.vld v a k w s) = v0 at he
  have f26_6 : fld v0 26 6 = 35#6 :=
    (congrArg (fld · 26 6) he).trans ((ex_hi _ (0#1) rfl).trans ((ex_hi _ (0#1) rfl).trans ((ex_hi _ (s) rfl).trans ((ex_hi _ (w) rfl).trans ((ex_hi _ (k) rfl).trans ((ex_hi _ (0#5) rfl).trans ((ex_hi _ (a) rfl).trans ((ex_hi _ (v) rfl).trans (ex_all _)))))))))
  have f21_5 : fld v0 21 5 = v :=
    (congrArg (fld · 21 5) he).trans ((ex_hi _ (0#1) rfl).trans ((ex_hi _ (0#1) rfl).trans ((ex_hi _ (s) rfl).trans ((ex_hi _ (w) rfl).trans ((ex_hi _ (k) rfl).trans ((ex_hi _ (0#5) rfl).trans ((ex_hi _ (a) rfl).trans ((ex_lo _ (v) rfl).trans (ex_all _)))))))))
  have f16_5 : fld v0 16 5 = a :=
    (congrArg (fld · 16 5) he).trans ((ex_hi _ (0#1) rfl).trans ((ex_hi _ (0#1) rfl).trans ((ex_hi _ (s) rfl).trans ((ex_hi _ (w) rfl).trans ((ex_hi _ (k) rfl).trans ((ex_hi _ (0#5) rfl).trans ((ex_lo _ (a) rfl).trans (ex_all _))))))))
  have f11_5 : fld v0 11 5 = 0#5 :=
    (congrArg (fld · 11 5) he).trans ((ex_hi _ (0#1) rfl).trans ((ex_hi _ (0#1) rfl).trans ((ex_hi _ (s) rfl).trans ((ex_hi _ (w) rfl).trans ((ex_hi _ (k) rfl).trans ((ex_lo _ (0#5) rfl).trans (ex_all _)))))))
  have f8_3 : fld v0 8 3 = k :=
    (congrArg (fld · 8 3) he).trans ((ex_hi _ (0#1) rfl).trans ((ex_hi _ (0#1) rfl).trans ((ex_hi _ (s) rfl).trans ((ex_hi _ (w) rfl).trans ((ex_lo _ (k) rfl).trans (ex_all _))))))
  have f5_3 : fld v0 5 3 = w :=
    (congrArg (fld · 5 3) he).trans ((ex_hi _ (0#1) rfl).trans ((ex_hi _ (0#1) rfl).trans ((ex_hi _ (s) rfl).trans ((ex_lo _ (w) rfl).trans (ex_all _)))))
  have f2_3 : fld v0 2 3 = s :=
    (congrArg (fld · 2 3) he).trans ((ex_hi _ (0#1) rfl).trans ((ex_hi _ (0#1) rfl).trans ((ex_lo _ (s) rfl).trans (ex_all _))))
  have f1_1 : fld v0 1 1 = 0#1 :=
    (congrArg (fld · 1 1) he).trans ((ex_hi _ (0#1) rfl).trans ((ex_lo _ (0#1) rfl).trans (ex_all _)))
  have f0_1 : fld v0 0 1 = 0#1 :=
    (congrArg (fld · 0 1) he).trans ((ex_lo _ (0#1) rfl).trans (ex_all _))
  rw [family_Vld f26_6, decodeVld]
  simp only [f21_5, f16_5, f11_5, f8_3, f5_3, f2_3, f1_1, f0_1]
  exact rfl

theorem Encode.vlds (v : BitVec 5) (a : BitVec 5) (b : BitVec 5) (k : BitVec 3) (w : BitVec 3) (s : BitVec 3) : Encode.Statement (.vlds v a b k w s) := by
  intro _
  apply decode_of
  have he : encode (.vlds v a b k w s) = 0x23#6 ++ v ++ a ++ b ++ k ++ w ++ s ++ 0#1 ++ 1#1 := rfl
  generalize encode (.vlds v a b k w s) = v0 at he
  have f26_6 : fld v0 26 6 = 35#6 :=
    (congrArg (fld · 26 6) he).trans ((ex_hi _ (1#1) rfl).trans ((ex_hi _ (0#1) rfl).trans ((ex_hi _ (s) rfl).trans ((ex_hi _ (w) rfl).trans ((ex_hi _ (k) rfl).trans ((ex_hi _ (b) rfl).trans ((ex_hi _ (a) rfl).trans ((ex_hi _ (v) rfl).trans (ex_all _)))))))))
  have f21_5 : fld v0 21 5 = v :=
    (congrArg (fld · 21 5) he).trans ((ex_hi _ (1#1) rfl).trans ((ex_hi _ (0#1) rfl).trans ((ex_hi _ (s) rfl).trans ((ex_hi _ (w) rfl).trans ((ex_hi _ (k) rfl).trans ((ex_hi _ (b) rfl).trans ((ex_hi _ (a) rfl).trans ((ex_lo _ (v) rfl).trans (ex_all _)))))))))
  have f16_5 : fld v0 16 5 = a :=
    (congrArg (fld · 16 5) he).trans ((ex_hi _ (1#1) rfl).trans ((ex_hi _ (0#1) rfl).trans ((ex_hi _ (s) rfl).trans ((ex_hi _ (w) rfl).trans ((ex_hi _ (k) rfl).trans ((ex_hi _ (b) rfl).trans ((ex_lo _ (a) rfl).trans (ex_all _))))))))
  have f11_5 : fld v0 11 5 = b :=
    (congrArg (fld · 11 5) he).trans ((ex_hi _ (1#1) rfl).trans ((ex_hi _ (0#1) rfl).trans ((ex_hi _ (s) rfl).trans ((ex_hi _ (w) rfl).trans ((ex_hi _ (k) rfl).trans ((ex_lo _ (b) rfl).trans (ex_all _)))))))
  have f8_3 : fld v0 8 3 = k :=
    (congrArg (fld · 8 3) he).trans ((ex_hi _ (1#1) rfl).trans ((ex_hi _ (0#1) rfl).trans ((ex_hi _ (s) rfl).trans ((ex_hi _ (w) rfl).trans ((ex_lo _ (k) rfl).trans (ex_all _))))))
  have f5_3 : fld v0 5 3 = w :=
    (congrArg (fld · 5 3) he).trans ((ex_hi _ (1#1) rfl).trans ((ex_hi _ (0#1) rfl).trans ((ex_hi _ (s) rfl).trans ((ex_lo _ (w) rfl).trans (ex_all _)))))
  have f2_3 : fld v0 2 3 = s :=
    (congrArg (fld · 2 3) he).trans ((ex_hi _ (1#1) rfl).trans ((ex_hi _ (0#1) rfl).trans ((ex_lo _ (s) rfl).trans (ex_all _))))
  have f1_1 : fld v0 1 1 = 0#1 :=
    (congrArg (fld · 1 1) he).trans ((ex_hi _ (1#1) rfl).trans ((ex_lo _ (0#1) rfl).trans (ex_all _)))
  have f0_1 : fld v0 0 1 = 1#1 :=
    (congrArg (fld · 0 1) he).trans ((ex_lo _ (1#1) rfl).trans (ex_all _))
  rw [family_Vld f26_6, decodeVld]
  simp only [f21_5, f16_5, f11_5, f8_3, f5_3, f2_3, f1_1, f0_1]
  exact rfl

theorem Encode.vldx (v : BitVec 5) (a : BitVec 5) (b : BitVec 5) (k : BitVec 3) (w : BitVec 3) (s : BitVec 3) (c : BitVec 1) : Encode.Statement (.vldx v a b k w s c) := by
  intro _
  apply decode_of
  have he : encode (.vldx v a b k w s c) = 0x24#6 ++ v ++ a ++ b ++ k ++ w ++ s ++ c ++ 0#1 := rfl
  generalize encode (.vldx v a b k w s c) = v0 at he
  have f26_6 : fld v0 26 6 = 36#6 :=
    (congrArg (fld · 26 6) he).trans ((ex_hi _ (0#1) rfl).trans ((ex_hi _ (c) rfl).trans ((ex_hi _ (s) rfl).trans ((ex_hi _ (w) rfl).trans ((ex_hi _ (k) rfl).trans ((ex_hi _ (b) rfl).trans ((ex_hi _ (a) rfl).trans ((ex_hi _ (v) rfl).trans (ex_all _)))))))))
  have f21_5 : fld v0 21 5 = v :=
    (congrArg (fld · 21 5) he).trans ((ex_hi _ (0#1) rfl).trans ((ex_hi _ (c) rfl).trans ((ex_hi _ (s) rfl).trans ((ex_hi _ (w) rfl).trans ((ex_hi _ (k) rfl).trans ((ex_hi _ (b) rfl).trans ((ex_hi _ (a) rfl).trans ((ex_lo _ (v) rfl).trans (ex_all _)))))))))
  have f16_5 : fld v0 16 5 = a :=
    (congrArg (fld · 16 5) he).trans ((ex_hi _ (0#1) rfl).trans ((ex_hi _ (c) rfl).trans ((ex_hi _ (s) rfl).trans ((ex_hi _ (w) rfl).trans ((ex_hi _ (k) rfl).trans ((ex_hi _ (b) rfl).trans ((ex_lo _ (a) rfl).trans (ex_all _))))))))
  have f11_5 : fld v0 11 5 = b :=
    (congrArg (fld · 11 5) he).trans ((ex_hi _ (0#1) rfl).trans ((ex_hi _ (c) rfl).trans ((ex_hi _ (s) rfl).trans ((ex_hi _ (w) rfl).trans ((ex_hi _ (k) rfl).trans ((ex_lo _ (b) rfl).trans (ex_all _)))))))
  have f8_3 : fld v0 8 3 = k :=
    (congrArg (fld · 8 3) he).trans ((ex_hi _ (0#1) rfl).trans ((ex_hi _ (c) rfl).trans ((ex_hi _ (s) rfl).trans ((ex_hi _ (w) rfl).trans ((ex_lo _ (k) rfl).trans (ex_all _))))))
  have f5_3 : fld v0 5 3 = w :=
    (congrArg (fld · 5 3) he).trans ((ex_hi _ (0#1) rfl).trans ((ex_hi _ (c) rfl).trans ((ex_hi _ (s) rfl).trans ((ex_lo _ (w) rfl).trans (ex_all _)))))
  have f2_3 : fld v0 2 3 = s :=
    (congrArg (fld · 2 3) he).trans ((ex_hi _ (0#1) rfl).trans ((ex_hi _ (c) rfl).trans ((ex_lo _ (s) rfl).trans (ex_all _))))
  have f1_1 : fld v0 1 1 = c :=
    (congrArg (fld · 1 1) he).trans ((ex_hi _ (0#1) rfl).trans ((ex_lo _ (c) rfl).trans (ex_all _)))
  have f0_1 : fld v0 0 1 = 0#1 :=
    (congrArg (fld · 0 1) he).trans ((ex_lo _ (0#1) rfl).trans (ex_all _))
  rw [family_Vldx f26_6, decodeVldx]
  simp only [f21_5, f16_5, f11_5, f8_3, f5_3, f2_3, f1_1, f0_1]
  exact rfl

theorem Encode.vgl (v : BitVec 5) (a : BitVec 5) (b : BitVec 5) (k : BitVec 3) (w : BitVec 3) (s : BitVec 3) (c : BitVec 1) : Encode.Statement (.vgl v a b k w s c) := by
  intro _
  apply decode_of
  have he : encode (.vgl v a b k w s c) = 0x24#6 ++ v ++ a ++ b ++ k ++ w ++ s ++ c ++ 1#1 := rfl
  generalize encode (.vgl v a b k w s c) = v0 at he
  have f26_6 : fld v0 26 6 = 36#6 :=
    (congrArg (fld · 26 6) he).trans ((ex_hi _ (1#1) rfl).trans ((ex_hi _ (c) rfl).trans ((ex_hi _ (s) rfl).trans ((ex_hi _ (w) rfl).trans ((ex_hi _ (k) rfl).trans ((ex_hi _ (b) rfl).trans ((ex_hi _ (a) rfl).trans ((ex_hi _ (v) rfl).trans (ex_all _)))))))))
  have f21_5 : fld v0 21 5 = v :=
    (congrArg (fld · 21 5) he).trans ((ex_hi _ (1#1) rfl).trans ((ex_hi _ (c) rfl).trans ((ex_hi _ (s) rfl).trans ((ex_hi _ (w) rfl).trans ((ex_hi _ (k) rfl).trans ((ex_hi _ (b) rfl).trans ((ex_hi _ (a) rfl).trans ((ex_lo _ (v) rfl).trans (ex_all _)))))))))
  have f16_5 : fld v0 16 5 = a :=
    (congrArg (fld · 16 5) he).trans ((ex_hi _ (1#1) rfl).trans ((ex_hi _ (c) rfl).trans ((ex_hi _ (s) rfl).trans ((ex_hi _ (w) rfl).trans ((ex_hi _ (k) rfl).trans ((ex_hi _ (b) rfl).trans ((ex_lo _ (a) rfl).trans (ex_all _))))))))
  have f11_5 : fld v0 11 5 = b :=
    (congrArg (fld · 11 5) he).trans ((ex_hi _ (1#1) rfl).trans ((ex_hi _ (c) rfl).trans ((ex_hi _ (s) rfl).trans ((ex_hi _ (w) rfl).trans ((ex_hi _ (k) rfl).trans ((ex_lo _ (b) rfl).trans (ex_all _)))))))
  have f8_3 : fld v0 8 3 = k :=
    (congrArg (fld · 8 3) he).trans ((ex_hi _ (1#1) rfl).trans ((ex_hi _ (c) rfl).trans ((ex_hi _ (s) rfl).trans ((ex_hi _ (w) rfl).trans ((ex_lo _ (k) rfl).trans (ex_all _))))))
  have f5_3 : fld v0 5 3 = w :=
    (congrArg (fld · 5 3) he).trans ((ex_hi _ (1#1) rfl).trans ((ex_hi _ (c) rfl).trans ((ex_hi _ (s) rfl).trans ((ex_lo _ (w) rfl).trans (ex_all _)))))
  have f2_3 : fld v0 2 3 = s :=
    (congrArg (fld · 2 3) he).trans ((ex_hi _ (1#1) rfl).trans ((ex_hi _ (c) rfl).trans ((ex_lo _ (s) rfl).trans (ex_all _))))
  have f1_1 : fld v0 1 1 = c :=
    (congrArg (fld · 1 1) he).trans ((ex_hi _ (1#1) rfl).trans ((ex_lo _ (c) rfl).trans (ex_all _)))
  have f0_1 : fld v0 0 1 = 1#1 :=
    (congrArg (fld · 0 1) he).trans ((ex_lo _ (1#1) rfl).trans (ex_all _))
  rw [family_Vldx f26_6, decodeVldx]
  simp only [f21_5, f16_5, f11_5, f8_3, f5_3, f2_3, f1_1, f0_1]
  exact rfl

theorem Encode.vst (v : BitVec 5) (a : BitVec 5) (k : BitVec 3) (w : BitVec 3) (s : BitVec 3) (c : BitVec 1) : Encode.Statement (.vst v a k w s c) := by
  intro _
  apply decode_of
  have he : encode (.vst v a k w s c) = 0x25#6 ++ v ++ a ++ 0#5 ++ k ++ w ++ s ++ c ++ 0#1 := rfl
  generalize encode (.vst v a k w s c) = v0 at he
  have f26_6 : fld v0 26 6 = 37#6 :=
    (congrArg (fld · 26 6) he).trans ((ex_hi _ (0#1) rfl).trans ((ex_hi _ (c) rfl).trans ((ex_hi _ (s) rfl).trans ((ex_hi _ (w) rfl).trans ((ex_hi _ (k) rfl).trans ((ex_hi _ (0#5) rfl).trans ((ex_hi _ (a) rfl).trans ((ex_hi _ (v) rfl).trans (ex_all _)))))))))
  have f21_5 : fld v0 21 5 = v :=
    (congrArg (fld · 21 5) he).trans ((ex_hi _ (0#1) rfl).trans ((ex_hi _ (c) rfl).trans ((ex_hi _ (s) rfl).trans ((ex_hi _ (w) rfl).trans ((ex_hi _ (k) rfl).trans ((ex_hi _ (0#5) rfl).trans ((ex_hi _ (a) rfl).trans ((ex_lo _ (v) rfl).trans (ex_all _)))))))))
  have f16_5 : fld v0 16 5 = a :=
    (congrArg (fld · 16 5) he).trans ((ex_hi _ (0#1) rfl).trans ((ex_hi _ (c) rfl).trans ((ex_hi _ (s) rfl).trans ((ex_hi _ (w) rfl).trans ((ex_hi _ (k) rfl).trans ((ex_hi _ (0#5) rfl).trans ((ex_lo _ (a) rfl).trans (ex_all _))))))))
  have f11_5 : fld v0 11 5 = 0#5 :=
    (congrArg (fld · 11 5) he).trans ((ex_hi _ (0#1) rfl).trans ((ex_hi _ (c) rfl).trans ((ex_hi _ (s) rfl).trans ((ex_hi _ (w) rfl).trans ((ex_hi _ (k) rfl).trans ((ex_lo _ (0#5) rfl).trans (ex_all _)))))))
  have f8_3 : fld v0 8 3 = k :=
    (congrArg (fld · 8 3) he).trans ((ex_hi _ (0#1) rfl).trans ((ex_hi _ (c) rfl).trans ((ex_hi _ (s) rfl).trans ((ex_hi _ (w) rfl).trans ((ex_lo _ (k) rfl).trans (ex_all _))))))
  have f5_3 : fld v0 5 3 = w :=
    (congrArg (fld · 5 3) he).trans ((ex_hi _ (0#1) rfl).trans ((ex_hi _ (c) rfl).trans ((ex_hi _ (s) rfl).trans ((ex_lo _ (w) rfl).trans (ex_all _)))))
  have f2_3 : fld v0 2 3 = s :=
    (congrArg (fld · 2 3) he).trans ((ex_hi _ (0#1) rfl).trans ((ex_hi _ (c) rfl).trans ((ex_lo _ (s) rfl).trans (ex_all _))))
  have f1_1 : fld v0 1 1 = c :=
    (congrArg (fld · 1 1) he).trans ((ex_hi _ (0#1) rfl).trans ((ex_lo _ (c) rfl).trans (ex_all _)))
  have f0_1 : fld v0 0 1 = 0#1 :=
    (congrArg (fld · 0 1) he).trans ((ex_lo _ (0#1) rfl).trans (ex_all _))
  rw [family_Vst f26_6, decodeVst]
  simp only [f21_5, f16_5, f11_5, f8_3, f5_3, f2_3, f1_1, f0_1]
  exact rfl

theorem Encode.vsts (v : BitVec 5) (a : BitVec 5) (b : BitVec 5) (k : BitVec 3) (w : BitVec 3) (s : BitVec 3) (c : BitVec 1) : Encode.Statement (.vsts v a b k w s c) := by
  intro _
  apply decode_of
  have he : encode (.vsts v a b k w s c) = 0x25#6 ++ v ++ a ++ b ++ k ++ w ++ s ++ c ++ 1#1 := rfl
  generalize encode (.vsts v a b k w s c) = v0 at he
  have f26_6 : fld v0 26 6 = 37#6 :=
    (congrArg (fld · 26 6) he).trans ((ex_hi _ (1#1) rfl).trans ((ex_hi _ (c) rfl).trans ((ex_hi _ (s) rfl).trans ((ex_hi _ (w) rfl).trans ((ex_hi _ (k) rfl).trans ((ex_hi _ (b) rfl).trans ((ex_hi _ (a) rfl).trans ((ex_hi _ (v) rfl).trans (ex_all _)))))))))
  have f21_5 : fld v0 21 5 = v :=
    (congrArg (fld · 21 5) he).trans ((ex_hi _ (1#1) rfl).trans ((ex_hi _ (c) rfl).trans ((ex_hi _ (s) rfl).trans ((ex_hi _ (w) rfl).trans ((ex_hi _ (k) rfl).trans ((ex_hi _ (b) rfl).trans ((ex_hi _ (a) rfl).trans ((ex_lo _ (v) rfl).trans (ex_all _)))))))))
  have f16_5 : fld v0 16 5 = a :=
    (congrArg (fld · 16 5) he).trans ((ex_hi _ (1#1) rfl).trans ((ex_hi _ (c) rfl).trans ((ex_hi _ (s) rfl).trans ((ex_hi _ (w) rfl).trans ((ex_hi _ (k) rfl).trans ((ex_hi _ (b) rfl).trans ((ex_lo _ (a) rfl).trans (ex_all _))))))))
  have f11_5 : fld v0 11 5 = b :=
    (congrArg (fld · 11 5) he).trans ((ex_hi _ (1#1) rfl).trans ((ex_hi _ (c) rfl).trans ((ex_hi _ (s) rfl).trans ((ex_hi _ (w) rfl).trans ((ex_hi _ (k) rfl).trans ((ex_lo _ (b) rfl).trans (ex_all _)))))))
  have f8_3 : fld v0 8 3 = k :=
    (congrArg (fld · 8 3) he).trans ((ex_hi _ (1#1) rfl).trans ((ex_hi _ (c) rfl).trans ((ex_hi _ (s) rfl).trans ((ex_hi _ (w) rfl).trans ((ex_lo _ (k) rfl).trans (ex_all _))))))
  have f5_3 : fld v0 5 3 = w :=
    (congrArg (fld · 5 3) he).trans ((ex_hi _ (1#1) rfl).trans ((ex_hi _ (c) rfl).trans ((ex_hi _ (s) rfl).trans ((ex_lo _ (w) rfl).trans (ex_all _)))))
  have f2_3 : fld v0 2 3 = s :=
    (congrArg (fld · 2 3) he).trans ((ex_hi _ (1#1) rfl).trans ((ex_hi _ (c) rfl).trans ((ex_lo _ (s) rfl).trans (ex_all _))))
  have f1_1 : fld v0 1 1 = c :=
    (congrArg (fld · 1 1) he).trans ((ex_hi _ (1#1) rfl).trans ((ex_lo _ (c) rfl).trans (ex_all _)))
  have f0_1 : fld v0 0 1 = 1#1 :=
    (congrArg (fld · 0 1) he).trans ((ex_lo _ (1#1) rfl).trans (ex_all _))
  rw [family_Vst f26_6, decodeVst]
  simp only [f21_5, f16_5, f11_5, f8_3, f5_3, f2_3, f1_1, f0_1]
  exact rfl

theorem Encode.vstx (v : BitVec 5) (a : BitVec 5) (b : BitVec 5) (k : BitVec 3) (w : BitVec 3) (s : BitVec 3) (c : BitVec 1) : Encode.Statement (.vstx v a b k w s c) := by
  intro _
  apply decode_of
  have he : encode (.vstx v a b k w s c) = 0x26#6 ++ v ++ a ++ b ++ k ++ w ++ s ++ c ++ 0#1 := rfl
  generalize encode (.vstx v a b k w s c) = v0 at he
  have f26_6 : fld v0 26 6 = 38#6 :=
    (congrArg (fld · 26 6) he).trans ((ex_hi _ (0#1) rfl).trans ((ex_hi _ (c) rfl).trans ((ex_hi _ (s) rfl).trans ((ex_hi _ (w) rfl).trans ((ex_hi _ (k) rfl).trans ((ex_hi _ (b) rfl).trans ((ex_hi _ (a) rfl).trans ((ex_hi _ (v) rfl).trans (ex_all _)))))))))
  have f21_5 : fld v0 21 5 = v :=
    (congrArg (fld · 21 5) he).trans ((ex_hi _ (0#1) rfl).trans ((ex_hi _ (c) rfl).trans ((ex_hi _ (s) rfl).trans ((ex_hi _ (w) rfl).trans ((ex_hi _ (k) rfl).trans ((ex_hi _ (b) rfl).trans ((ex_hi _ (a) rfl).trans ((ex_lo _ (v) rfl).trans (ex_all _)))))))))
  have f16_5 : fld v0 16 5 = a :=
    (congrArg (fld · 16 5) he).trans ((ex_hi _ (0#1) rfl).trans ((ex_hi _ (c) rfl).trans ((ex_hi _ (s) rfl).trans ((ex_hi _ (w) rfl).trans ((ex_hi _ (k) rfl).trans ((ex_hi _ (b) rfl).trans ((ex_lo _ (a) rfl).trans (ex_all _))))))))
  have f11_5 : fld v0 11 5 = b :=
    (congrArg (fld · 11 5) he).trans ((ex_hi _ (0#1) rfl).trans ((ex_hi _ (c) rfl).trans ((ex_hi _ (s) rfl).trans ((ex_hi _ (w) rfl).trans ((ex_hi _ (k) rfl).trans ((ex_lo _ (b) rfl).trans (ex_all _)))))))
  have f8_3 : fld v0 8 3 = k :=
    (congrArg (fld · 8 3) he).trans ((ex_hi _ (0#1) rfl).trans ((ex_hi _ (c) rfl).trans ((ex_hi _ (s) rfl).trans ((ex_hi _ (w) rfl).trans ((ex_lo _ (k) rfl).trans (ex_all _))))))
  have f5_3 : fld v0 5 3 = w :=
    (congrArg (fld · 5 3) he).trans ((ex_hi _ (0#1) rfl).trans ((ex_hi _ (c) rfl).trans ((ex_hi _ (s) rfl).trans ((ex_lo _ (w) rfl).trans (ex_all _)))))
  have f2_3 : fld v0 2 3 = s :=
    (congrArg (fld · 2 3) he).trans ((ex_hi _ (0#1) rfl).trans ((ex_hi _ (c) rfl).trans ((ex_lo _ (s) rfl).trans (ex_all _))))
  have f1_1 : fld v0 1 1 = c :=
    (congrArg (fld · 1 1) he).trans ((ex_hi _ (0#1) rfl).trans ((ex_lo _ (c) rfl).trans (ex_all _)))
  have f0_1 : fld v0 0 1 = 0#1 :=
    (congrArg (fld · 0 1) he).trans ((ex_lo _ (0#1) rfl).trans (ex_all _))
  rw [family_Vstx f26_6, decodeVstx]
  simp only [f21_5, f16_5, f11_5, f8_3, f5_3, f2_3, f1_1, f0_1]
  exact rfl

theorem Encode.vsc (v : BitVec 5) (a : BitVec 5) (b : BitVec 5) (k : BitVec 3) (w : BitVec 3) (s : BitVec 3) (c : BitVec 1) : Encode.Statement (.vsc v a b k w s c) := by
  intro (hw : ((k != 0#3)) = true)
  apply decode_of
  have he : encode (.vsc v a b k w s c) = 0x26#6 ++ v ++ a ++ b ++ k ++ w ++ s ++ c ++ 1#1 := rfl
  generalize encode (.vsc v a b k w s c) = v0 at he
  have f26_6 : fld v0 26 6 = 38#6 :=
    (congrArg (fld · 26 6) he).trans ((ex_hi _ (1#1) rfl).trans ((ex_hi _ (c) rfl).trans ((ex_hi _ (s) rfl).trans ((ex_hi _ (w) rfl).trans ((ex_hi _ (k) rfl).trans ((ex_hi _ (b) rfl).trans ((ex_hi _ (a) rfl).trans ((ex_hi _ (v) rfl).trans (ex_all _)))))))))
  have f21_5 : fld v0 21 5 = v :=
    (congrArg (fld · 21 5) he).trans ((ex_hi _ (1#1) rfl).trans ((ex_hi _ (c) rfl).trans ((ex_hi _ (s) rfl).trans ((ex_hi _ (w) rfl).trans ((ex_hi _ (k) rfl).trans ((ex_hi _ (b) rfl).trans ((ex_hi _ (a) rfl).trans ((ex_lo _ (v) rfl).trans (ex_all _)))))))))
  have f16_5 : fld v0 16 5 = a :=
    (congrArg (fld · 16 5) he).trans ((ex_hi _ (1#1) rfl).trans ((ex_hi _ (c) rfl).trans ((ex_hi _ (s) rfl).trans ((ex_hi _ (w) rfl).trans ((ex_hi _ (k) rfl).trans ((ex_hi _ (b) rfl).trans ((ex_lo _ (a) rfl).trans (ex_all _))))))))
  have f11_5 : fld v0 11 5 = b :=
    (congrArg (fld · 11 5) he).trans ((ex_hi _ (1#1) rfl).trans ((ex_hi _ (c) rfl).trans ((ex_hi _ (s) rfl).trans ((ex_hi _ (w) rfl).trans ((ex_hi _ (k) rfl).trans ((ex_lo _ (b) rfl).trans (ex_all _)))))))
  have f8_3 : fld v0 8 3 = k :=
    (congrArg (fld · 8 3) he).trans ((ex_hi _ (1#1) rfl).trans ((ex_hi _ (c) rfl).trans ((ex_hi _ (s) rfl).trans ((ex_hi _ (w) rfl).trans ((ex_lo _ (k) rfl).trans (ex_all _))))))
  have f5_3 : fld v0 5 3 = w :=
    (congrArg (fld · 5 3) he).trans ((ex_hi _ (1#1) rfl).trans ((ex_hi _ (c) rfl).trans ((ex_hi _ (s) rfl).trans ((ex_lo _ (w) rfl).trans (ex_all _)))))
  have f2_3 : fld v0 2 3 = s :=
    (congrArg (fld · 2 3) he).trans ((ex_hi _ (1#1) rfl).trans ((ex_hi _ (c) rfl).trans ((ex_lo _ (s) rfl).trans (ex_all _))))
  have f1_1 : fld v0 1 1 = c :=
    (congrArg (fld · 1 1) he).trans ((ex_hi _ (1#1) rfl).trans ((ex_lo _ (c) rfl).trans (ex_all _)))
  have f0_1 : fld v0 0 1 = 1#1 :=
    (congrArg (fld · 0 1) he).trans ((ex_lo _ (1#1) rfl).trans (ex_all _))
  rw [family_Vstx f26_6, decodeVstx]
  simp only [f21_5, f16_5, f11_5, f8_3, f5_3, f2_3, f1_1, f0_1]
  exact needs_of hw

theorem Encode.vldff (v : BitVec 5) (a : BitVec 5) (k : BitVec 3) (w : BitVec 3) (s : BitVec 3) : Encode.Statement (.vldff v a k w s) := by
  intro _
  apply decode_of
  have he : encode (.vldff v a k w s) = 0x27#6 ++ v ++ a ++ 0#5 ++ k ++ w ++ s ++ 0#1 ++ 0#1 := rfl
  generalize encode (.vldff v a k w s) = v0 at he
  have f26_6 : fld v0 26 6 = 39#6 :=
    (congrArg (fld · 26 6) he).trans ((ex_hi _ (0#1) rfl).trans ((ex_hi _ (0#1) rfl).trans ((ex_hi _ (s) rfl).trans ((ex_hi _ (w) rfl).trans ((ex_hi _ (k) rfl).trans ((ex_hi _ (0#5) rfl).trans ((ex_hi _ (a) rfl).trans ((ex_hi _ (v) rfl).trans (ex_all _)))))))))
  have f21_5 : fld v0 21 5 = v :=
    (congrArg (fld · 21 5) he).trans ((ex_hi _ (0#1) rfl).trans ((ex_hi _ (0#1) rfl).trans ((ex_hi _ (s) rfl).trans ((ex_hi _ (w) rfl).trans ((ex_hi _ (k) rfl).trans ((ex_hi _ (0#5) rfl).trans ((ex_hi _ (a) rfl).trans ((ex_lo _ (v) rfl).trans (ex_all _)))))))))
  have f16_5 : fld v0 16 5 = a :=
    (congrArg (fld · 16 5) he).trans ((ex_hi _ (0#1) rfl).trans ((ex_hi _ (0#1) rfl).trans ((ex_hi _ (s) rfl).trans ((ex_hi _ (w) rfl).trans ((ex_hi _ (k) rfl).trans ((ex_hi _ (0#5) rfl).trans ((ex_lo _ (a) rfl).trans (ex_all _))))))))
  have f11_5 : fld v0 11 5 = 0#5 :=
    (congrArg (fld · 11 5) he).trans ((ex_hi _ (0#1) rfl).trans ((ex_hi _ (0#1) rfl).trans ((ex_hi _ (s) rfl).trans ((ex_hi _ (w) rfl).trans ((ex_hi _ (k) rfl).trans ((ex_lo _ (0#5) rfl).trans (ex_all _)))))))
  have f8_3 : fld v0 8 3 = k :=
    (congrArg (fld · 8 3) he).trans ((ex_hi _ (0#1) rfl).trans ((ex_hi _ (0#1) rfl).trans ((ex_hi _ (s) rfl).trans ((ex_hi _ (w) rfl).trans ((ex_lo _ (k) rfl).trans (ex_all _))))))
  have f5_3 : fld v0 5 3 = w :=
    (congrArg (fld · 5 3) he).trans ((ex_hi _ (0#1) rfl).trans ((ex_hi _ (0#1) rfl).trans ((ex_hi _ (s) rfl).trans ((ex_lo _ (w) rfl).trans (ex_all _)))))
  have f2_3 : fld v0 2 3 = s :=
    (congrArg (fld · 2 3) he).trans ((ex_hi _ (0#1) rfl).trans ((ex_hi _ (0#1) rfl).trans ((ex_lo _ (s) rfl).trans (ex_all _))))
  have f1_1 : fld v0 1 1 = 0#1 :=
    (congrArg (fld · 1 1) he).trans ((ex_hi _ (0#1) rfl).trans ((ex_lo _ (0#1) rfl).trans (ex_all _)))
  have f0_1 : fld v0 0 1 = 0#1 :=
    (congrArg (fld · 0 1) he).trans ((ex_lo _ (0#1) rfl).trans (ex_all _))
  rw [family_Vspc f26_6, decodeVspc]
  simp only [f21_5, f16_5, f11_5, f8_3, f5_3, f2_3, f1_1, f0_1]
  exact rfl

theorem Encode.vappend (v : BitVec 5) (a : BitVec 5) (b : BitVec 5) (k : BitVec 3) (w : BitVec 3) (s : BitVec 3) (c : BitVec 1) : Encode.Statement (.vappend v a b k w s c) := by
  intro _
  apply decode_of
  have he : encode (.vappend v a b k w s c) = 0x27#6 ++ v ++ a ++ b ++ k ++ w ++ s ++ c ++ 1#1 := rfl
  generalize encode (.vappend v a b k w s c) = v0 at he
  have f26_6 : fld v0 26 6 = 39#6 :=
    (congrArg (fld · 26 6) he).trans ((ex_hi _ (1#1) rfl).trans ((ex_hi _ (c) rfl).trans ((ex_hi _ (s) rfl).trans ((ex_hi _ (w) rfl).trans ((ex_hi _ (k) rfl).trans ((ex_hi _ (b) rfl).trans ((ex_hi _ (a) rfl).trans ((ex_hi _ (v) rfl).trans (ex_all _)))))))))
  have f21_5 : fld v0 21 5 = v :=
    (congrArg (fld · 21 5) he).trans ((ex_hi _ (1#1) rfl).trans ((ex_hi _ (c) rfl).trans ((ex_hi _ (s) rfl).trans ((ex_hi _ (w) rfl).trans ((ex_hi _ (k) rfl).trans ((ex_hi _ (b) rfl).trans ((ex_hi _ (a) rfl).trans ((ex_lo _ (v) rfl).trans (ex_all _)))))))))
  have f16_5 : fld v0 16 5 = a :=
    (congrArg (fld · 16 5) he).trans ((ex_hi _ (1#1) rfl).trans ((ex_hi _ (c) rfl).trans ((ex_hi _ (s) rfl).trans ((ex_hi _ (w) rfl).trans ((ex_hi _ (k) rfl).trans ((ex_hi _ (b) rfl).trans ((ex_lo _ (a) rfl).trans (ex_all _))))))))
  have f11_5 : fld v0 11 5 = b :=
    (congrArg (fld · 11 5) he).trans ((ex_hi _ (1#1) rfl).trans ((ex_hi _ (c) rfl).trans ((ex_hi _ (s) rfl).trans ((ex_hi _ (w) rfl).trans ((ex_hi _ (k) rfl).trans ((ex_lo _ (b) rfl).trans (ex_all _)))))))
  have f8_3 : fld v0 8 3 = k :=
    (congrArg (fld · 8 3) he).trans ((ex_hi _ (1#1) rfl).trans ((ex_hi _ (c) rfl).trans ((ex_hi _ (s) rfl).trans ((ex_hi _ (w) rfl).trans ((ex_lo _ (k) rfl).trans (ex_all _))))))
  have f5_3 : fld v0 5 3 = w :=
    (congrArg (fld · 5 3) he).trans ((ex_hi _ (1#1) rfl).trans ((ex_hi _ (c) rfl).trans ((ex_hi _ (s) rfl).trans ((ex_lo _ (w) rfl).trans (ex_all _)))))
  have f2_3 : fld v0 2 3 = s :=
    (congrArg (fld · 2 3) he).trans ((ex_hi _ (1#1) rfl).trans ((ex_hi _ (c) rfl).trans ((ex_lo _ (s) rfl).trans (ex_all _))))
  have f1_1 : fld v0 1 1 = c :=
    (congrArg (fld · 1 1) he).trans ((ex_hi _ (1#1) rfl).trans ((ex_lo _ (c) rfl).trans (ex_all _)))
  have f0_1 : fld v0 0 1 = 1#1 :=
    (congrArg (fld · 0 1) he).trans ((ex_lo _ (1#1) rfl).trans (ex_all _))
  rw [family_Vspc f26_6, decodeVspc]
  simp only [f21_5, f16_5, f11_5, f8_3, f5_3, f2_3, f1_1, f0_1]
  exact rfl

theorem Encode.vrred (v : BitVec 5) (a : BitVec 5) (b : BitVec 5) (k : BitVec 3) (w : BitVec 3) (s : BitVec 3) (c : BitVec 1) : Encode.Statement (.vrred v a b k w s c) := by
  intro _
  apply decode_of
  have he : encode (.vrred v a b k w s c) = 0x28#6 ++ v ++ a ++ b ++ k ++ w ++ s ++ c ++ 0#1 := rfl
  generalize encode (.vrred v a b k w s c) = v0 at he
  have f26_6 : fld v0 26 6 = 40#6 :=
    (congrArg (fld · 26 6) he).trans ((ex_hi _ (0#1) rfl).trans ((ex_hi _ (c) rfl).trans ((ex_hi _ (s) rfl).trans ((ex_hi _ (w) rfl).trans ((ex_hi _ (k) rfl).trans ((ex_hi _ (b) rfl).trans ((ex_hi _ (a) rfl).trans ((ex_hi _ (v) rfl).trans (ex_all _)))))))))
  have f21_5 : fld v0 21 5 = v :=
    (congrArg (fld · 21 5) he).trans ((ex_hi _ (0#1) rfl).trans ((ex_hi _ (c) rfl).trans ((ex_hi _ (s) rfl).trans ((ex_hi _ (w) rfl).trans ((ex_hi _ (k) rfl).trans ((ex_hi _ (b) rfl).trans ((ex_hi _ (a) rfl).trans ((ex_lo _ (v) rfl).trans (ex_all _)))))))))
  have f16_5 : fld v0 16 5 = a :=
    (congrArg (fld · 16 5) he).trans ((ex_hi _ (0#1) rfl).trans ((ex_hi _ (c) rfl).trans ((ex_hi _ (s) rfl).trans ((ex_hi _ (w) rfl).trans ((ex_hi _ (k) rfl).trans ((ex_hi _ (b) rfl).trans ((ex_lo _ (a) rfl).trans (ex_all _))))))))
  have f11_5 : fld v0 11 5 = b :=
    (congrArg (fld · 11 5) he).trans ((ex_hi _ (0#1) rfl).trans ((ex_hi _ (c) rfl).trans ((ex_hi _ (s) rfl).trans ((ex_hi _ (w) rfl).trans ((ex_hi _ (k) rfl).trans ((ex_lo _ (b) rfl).trans (ex_all _)))))))
  have f8_3 : fld v0 8 3 = k :=
    (congrArg (fld · 8 3) he).trans ((ex_hi _ (0#1) rfl).trans ((ex_hi _ (c) rfl).trans ((ex_hi _ (s) rfl).trans ((ex_hi _ (w) rfl).trans ((ex_lo _ (k) rfl).trans (ex_all _))))))
  have f5_3 : fld v0 5 3 = w :=
    (congrArg (fld · 5 3) he).trans ((ex_hi _ (0#1) rfl).trans ((ex_hi _ (c) rfl).trans ((ex_hi _ (s) rfl).trans ((ex_lo _ (w) rfl).trans (ex_all _)))))
  have f2_3 : fld v0 2 3 = s :=
    (congrArg (fld · 2 3) he).trans ((ex_hi _ (0#1) rfl).trans ((ex_hi _ (c) rfl).trans ((ex_lo _ (s) rfl).trans (ex_all _))))
  have f1_1 : fld v0 1 1 = c :=
    (congrArg (fld · 1 1) he).trans ((ex_hi _ (0#1) rfl).trans ((ex_lo _ (c) rfl).trans (ex_all _)))
  have f0_1 : fld v0 0 1 = 0#1 :=
    (congrArg (fld · 0 1) he).trans ((ex_lo _ (0#1) rfl).trans (ex_all _))
  rw [family_Vrred f26_6, decodeVrred]
  simp only [f21_5, f16_5, f11_5, f8_3, f5_3, f2_3, f1_1, f0_1]
  exact rfl

theorem Encode.tshape (d : BitVec 5) (a : BitVec 5) (f : BitVec 3) : Encode.Statement (.tshape d a f) := by
  intro _
  apply decode_of
  have he : encode (.tshape d a f) = 0x29#6 ++ d ++ a ++ 0#5 ++ 0#1 ++ 0#1 ++ f ++ 0#2 ++ 0#2 ++ 0#2 := rfl
  generalize encode (.tshape d a f) = v0 at he
  have f26_6 : fld v0 26 6 = 41#6 :=
    (congrArg (fld · 26 6) he).trans ((ex_hi _ (0#2) rfl).trans ((ex_hi _ (0#2) rfl).trans ((ex_hi _ (0#2) rfl).trans ((ex_hi _ (f) rfl).trans ((ex_hi _ (0#1) rfl).trans ((ex_hi _ (0#1) rfl).trans ((ex_hi _ (0#5) rfl).trans ((ex_hi _ (a) rfl).trans ((ex_hi _ (d) rfl).trans (ex_all _))))))))))
  have f21_5 : fld v0 21 5 = d :=
    (congrArg (fld · 21 5) he).trans ((ex_hi _ (0#2) rfl).trans ((ex_hi _ (0#2) rfl).trans ((ex_hi _ (0#2) rfl).trans ((ex_hi _ (f) rfl).trans ((ex_hi _ (0#1) rfl).trans ((ex_hi _ (0#1) rfl).trans ((ex_hi _ (0#5) rfl).trans ((ex_hi _ (a) rfl).trans ((ex_lo _ (d) rfl).trans (ex_all _))))))))))
  have f16_5 : fld v0 16 5 = a :=
    (congrArg (fld · 16 5) he).trans ((ex_hi _ (0#2) rfl).trans ((ex_hi _ (0#2) rfl).trans ((ex_hi _ (0#2) rfl).trans ((ex_hi _ (f) rfl).trans ((ex_hi _ (0#1) rfl).trans ((ex_hi _ (0#1) rfl).trans ((ex_hi _ (0#5) rfl).trans ((ex_lo _ (a) rfl).trans (ex_all _)))))))))
  have f11_5 : fld v0 11 5 = 0#5 :=
    (congrArg (fld · 11 5) he).trans ((ex_hi _ (0#2) rfl).trans ((ex_hi _ (0#2) rfl).trans ((ex_hi _ (0#2) rfl).trans ((ex_hi _ (f) rfl).trans ((ex_hi _ (0#1) rfl).trans ((ex_hi _ (0#1) rfl).trans ((ex_lo _ (0#5) rfl).trans (ex_all _))))))))
  have f10_1 : fld v0 10 1 = 0#1 :=
    (congrArg (fld · 10 1) he).trans ((ex_hi _ (0#2) rfl).trans ((ex_hi _ (0#2) rfl).trans ((ex_hi _ (0#2) rfl).trans ((ex_hi _ (f) rfl).trans ((ex_hi _ (0#1) rfl).trans ((ex_lo _ (0#1) rfl).trans (ex_all _)))))))
  have f9_1 : fld v0 9 1 = 0#1 :=
    (congrArg (fld · 9 1) he).trans ((ex_hi _ (0#2) rfl).trans ((ex_hi _ (0#2) rfl).trans ((ex_hi _ (0#2) rfl).trans ((ex_hi _ (f) rfl).trans ((ex_lo _ (0#1) rfl).trans (ex_all _))))))
  have f6_3 : fld v0 6 3 = f :=
    (congrArg (fld · 6 3) he).trans ((ex_hi _ (0#2) rfl).trans ((ex_hi _ (0#2) rfl).trans ((ex_hi _ (0#2) rfl).trans ((ex_lo _ (f) rfl).trans (ex_all _)))))
  have f4_2 : fld v0 4 2 = 0#2 :=
    (congrArg (fld · 4 2) he).trans ((ex_hi _ (0#2) rfl).trans ((ex_hi _ (0#2) rfl).trans ((ex_lo _ (0#2) rfl).trans (ex_all _))))
  have f2_2 : fld v0 2 2 = 0#2 :=
    (congrArg (fld · 2 2) he).trans ((ex_hi _ (0#2) rfl).trans ((ex_lo _ (0#2) rfl).trans (ex_all _)))
  have f0_2 : fld v0 0 2 = 0#2 :=
    (congrArg (fld · 0 2) he).trans ((ex_lo _ (0#2) rfl).trans (ex_all _))
  rw [family_Tcfg f26_6, decodeTcfg]
  simp only [f21_5, f16_5, f11_5, f10_1, f9_1, f6_3, f4_2, f2_2, f0_2]
  exact rfl

theorem Encode.setmw (a : BitVec 5) : Encode.Statement (.setmw a) := by
  intro _
  apply decode_of
  have he : encode (.setmw a) = 0x29#6 ++ 0#5 ++ a ++ 0#5 ++ 0#1 ++ 0#1 ++ 0#3 ++ 0#2 ++ 0#2 ++ 1#2 := rfl
  generalize encode (.setmw a) = v0 at he
  have f26_6 : fld v0 26 6 = 41#6 :=
    (congrArg (fld · 26 6) he).trans ((ex_hi _ (1#2) rfl).trans ((ex_hi _ (0#2) rfl).trans ((ex_hi _ (0#2) rfl).trans ((ex_hi _ (0#3) rfl).trans ((ex_hi _ (0#1) rfl).trans ((ex_hi _ (0#1) rfl).trans ((ex_hi _ (0#5) rfl).trans ((ex_hi _ (a) rfl).trans ((ex_hi _ (0#5) rfl).trans (ex_all _))))))))))
  have f21_5 : fld v0 21 5 = 0#5 :=
    (congrArg (fld · 21 5) he).trans ((ex_hi _ (1#2) rfl).trans ((ex_hi _ (0#2) rfl).trans ((ex_hi _ (0#2) rfl).trans ((ex_hi _ (0#3) rfl).trans ((ex_hi _ (0#1) rfl).trans ((ex_hi _ (0#1) rfl).trans ((ex_hi _ (0#5) rfl).trans ((ex_hi _ (a) rfl).trans ((ex_lo _ (0#5) rfl).trans (ex_all _))))))))))
  have f16_5 : fld v0 16 5 = a :=
    (congrArg (fld · 16 5) he).trans ((ex_hi _ (1#2) rfl).trans ((ex_hi _ (0#2) rfl).trans ((ex_hi _ (0#2) rfl).trans ((ex_hi _ (0#3) rfl).trans ((ex_hi _ (0#1) rfl).trans ((ex_hi _ (0#1) rfl).trans ((ex_hi _ (0#5) rfl).trans ((ex_lo _ (a) rfl).trans (ex_all _)))))))))
  have f11_5 : fld v0 11 5 = 0#5 :=
    (congrArg (fld · 11 5) he).trans ((ex_hi _ (1#2) rfl).trans ((ex_hi _ (0#2) rfl).trans ((ex_hi _ (0#2) rfl).trans ((ex_hi _ (0#3) rfl).trans ((ex_hi _ (0#1) rfl).trans ((ex_hi _ (0#1) rfl).trans ((ex_lo _ (0#5) rfl).trans (ex_all _))))))))
  have f10_1 : fld v0 10 1 = 0#1 :=
    (congrArg (fld · 10 1) he).trans ((ex_hi _ (1#2) rfl).trans ((ex_hi _ (0#2) rfl).trans ((ex_hi _ (0#2) rfl).trans ((ex_hi _ (0#3) rfl).trans ((ex_hi _ (0#1) rfl).trans ((ex_lo _ (0#1) rfl).trans (ex_all _)))))))
  have f9_1 : fld v0 9 1 = 0#1 :=
    (congrArg (fld · 9 1) he).trans ((ex_hi _ (1#2) rfl).trans ((ex_hi _ (0#2) rfl).trans ((ex_hi _ (0#2) rfl).trans ((ex_hi _ (0#3) rfl).trans ((ex_lo _ (0#1) rfl).trans (ex_all _))))))
  have f6_3 : fld v0 6 3 = 0#3 :=
    (congrArg (fld · 6 3) he).trans ((ex_hi _ (1#2) rfl).trans ((ex_hi _ (0#2) rfl).trans ((ex_hi _ (0#2) rfl).trans ((ex_lo _ (0#3) rfl).trans (ex_all _)))))
  have f4_2 : fld v0 4 2 = 0#2 :=
    (congrArg (fld · 4 2) he).trans ((ex_hi _ (1#2) rfl).trans ((ex_hi _ (0#2) rfl).trans ((ex_lo _ (0#2) rfl).trans (ex_all _))))
  have f2_2 : fld v0 2 2 = 0#2 :=
    (congrArg (fld · 2 2) he).trans ((ex_hi _ (1#2) rfl).trans ((ex_lo _ (0#2) rfl).trans (ex_all _)))
  have f0_2 : fld v0 0 2 = 1#2 :=
    (congrArg (fld · 0 2) he).trans ((ex_lo _ (1#2) rfl).trans (ex_all _))
  rw [family_Tcfg f26_6, decodeTcfg]
  simp only [f21_5, f16_5, f11_5, f10_1, f9_1, f6_3, f4_2, f2_2, f0_2]
  exact rfl

theorem Encode.tpref (m : BitVec 5) (p : BitVec 2) (w : BitVec 2) : Encode.Statement (.tpref m p w) := by
  intro (hw : ((p != 3#2) && (w != 3#2)) = true)
  apply decode_of
  have he : encode (.tpref m p w) = 0x29#6 ++ m ++ 0#5 ++ 0#5 ++ 0#1 ++ 0#1 ++ 0#3 ++ p ++ w ++ 2#2 := rfl
  generalize encode (.tpref m p w) = v0 at he
  have f26_6 : fld v0 26 6 = 41#6 :=
    (congrArg (fld · 26 6) he).trans ((ex_hi _ (2#2) rfl).trans ((ex_hi _ (w) rfl).trans ((ex_hi _ (p) rfl).trans ((ex_hi _ (0#3) rfl).trans ((ex_hi _ (0#1) rfl).trans ((ex_hi _ (0#1) rfl).trans ((ex_hi _ (0#5) rfl).trans ((ex_hi _ (0#5) rfl).trans ((ex_hi _ (m) rfl).trans (ex_all _))))))))))
  have f21_5 : fld v0 21 5 = m :=
    (congrArg (fld · 21 5) he).trans ((ex_hi _ (2#2) rfl).trans ((ex_hi _ (w) rfl).trans ((ex_hi _ (p) rfl).trans ((ex_hi _ (0#3) rfl).trans ((ex_hi _ (0#1) rfl).trans ((ex_hi _ (0#1) rfl).trans ((ex_hi _ (0#5) rfl).trans ((ex_hi _ (0#5) rfl).trans ((ex_lo _ (m) rfl).trans (ex_all _))))))))))
  have f16_5 : fld v0 16 5 = 0#5 :=
    (congrArg (fld · 16 5) he).trans ((ex_hi _ (2#2) rfl).trans ((ex_hi _ (w) rfl).trans ((ex_hi _ (p) rfl).trans ((ex_hi _ (0#3) rfl).trans ((ex_hi _ (0#1) rfl).trans ((ex_hi _ (0#1) rfl).trans ((ex_hi _ (0#5) rfl).trans ((ex_lo _ (0#5) rfl).trans (ex_all _)))))))))
  have f11_5 : fld v0 11 5 = 0#5 :=
    (congrArg (fld · 11 5) he).trans ((ex_hi _ (2#2) rfl).trans ((ex_hi _ (w) rfl).trans ((ex_hi _ (p) rfl).trans ((ex_hi _ (0#3) rfl).trans ((ex_hi _ (0#1) rfl).trans ((ex_hi _ (0#1) rfl).trans ((ex_lo _ (0#5) rfl).trans (ex_all _))))))))
  have f10_1 : fld v0 10 1 = 0#1 :=
    (congrArg (fld · 10 1) he).trans ((ex_hi _ (2#2) rfl).trans ((ex_hi _ (w) rfl).trans ((ex_hi _ (p) rfl).trans ((ex_hi _ (0#3) rfl).trans ((ex_hi _ (0#1) rfl).trans ((ex_lo _ (0#1) rfl).trans (ex_all _)))))))
  have f9_1 : fld v0 9 1 = 0#1 :=
    (congrArg (fld · 9 1) he).trans ((ex_hi _ (2#2) rfl).trans ((ex_hi _ (w) rfl).trans ((ex_hi _ (p) rfl).trans ((ex_hi _ (0#3) rfl).trans ((ex_lo _ (0#1) rfl).trans (ex_all _))))))
  have f6_3 : fld v0 6 3 = 0#3 :=
    (congrArg (fld · 6 3) he).trans ((ex_hi _ (2#2) rfl).trans ((ex_hi _ (w) rfl).trans ((ex_hi _ (p) rfl).trans ((ex_lo _ (0#3) rfl).trans (ex_all _)))))
  have f4_2 : fld v0 4 2 = p :=
    (congrArg (fld · 4 2) he).trans ((ex_hi _ (2#2) rfl).trans ((ex_hi _ (w) rfl).trans ((ex_lo _ (p) rfl).trans (ex_all _))))
  have f2_2 : fld v0 2 2 = w :=
    (congrArg (fld · 2 2) he).trans ((ex_hi _ (2#2) rfl).trans ((ex_lo _ (w) rfl).trans (ex_all _)))
  have f0_2 : fld v0 0 2 = 2#2 :=
    (congrArg (fld · 0 2) he).trans ((ex_lo _ (2#2) rfl).trans (ex_all _))
  rw [family_Tcfg f26_6, decodeTcfg]
  simp only [f21_5, f16_5, f11_5, f10_1, f9_1, f6_3, f4_2, f2_2, f0_2]
  exact needs_of hw

theorem Encode.tdrop (m : BitVec 5) (p : BitVec 2) (w : BitVec 2) : Encode.Statement (.tdrop m p w) := by
  intro (hw : ((p != 3#2) && (w != 3#2)) = true)
  apply decode_of
  have he : encode (.tdrop m p w) = 0x29#6 ++ m ++ 0#5 ++ 0#5 ++ 0#1 ++ 0#1 ++ 0#3 ++ p ++ w ++ 3#2 := rfl
  generalize encode (.tdrop m p w) = v0 at he
  have f26_6 : fld v0 26 6 = 41#6 :=
    (congrArg (fld · 26 6) he).trans ((ex_hi _ (3#2) rfl).trans ((ex_hi _ (w) rfl).trans ((ex_hi _ (p) rfl).trans ((ex_hi _ (0#3) rfl).trans ((ex_hi _ (0#1) rfl).trans ((ex_hi _ (0#1) rfl).trans ((ex_hi _ (0#5) rfl).trans ((ex_hi _ (0#5) rfl).trans ((ex_hi _ (m) rfl).trans (ex_all _))))))))))
  have f21_5 : fld v0 21 5 = m :=
    (congrArg (fld · 21 5) he).trans ((ex_hi _ (3#2) rfl).trans ((ex_hi _ (w) rfl).trans ((ex_hi _ (p) rfl).trans ((ex_hi _ (0#3) rfl).trans ((ex_hi _ (0#1) rfl).trans ((ex_hi _ (0#1) rfl).trans ((ex_hi _ (0#5) rfl).trans ((ex_hi _ (0#5) rfl).trans ((ex_lo _ (m) rfl).trans (ex_all _))))))))))
  have f16_5 : fld v0 16 5 = 0#5 :=
    (congrArg (fld · 16 5) he).trans ((ex_hi _ (3#2) rfl).trans ((ex_hi _ (w) rfl).trans ((ex_hi _ (p) rfl).trans ((ex_hi _ (0#3) rfl).trans ((ex_hi _ (0#1) rfl).trans ((ex_hi _ (0#1) rfl).trans ((ex_hi _ (0#5) rfl).trans ((ex_lo _ (0#5) rfl).trans (ex_all _)))))))))
  have f11_5 : fld v0 11 5 = 0#5 :=
    (congrArg (fld · 11 5) he).trans ((ex_hi _ (3#2) rfl).trans ((ex_hi _ (w) rfl).trans ((ex_hi _ (p) rfl).trans ((ex_hi _ (0#3) rfl).trans ((ex_hi _ (0#1) rfl).trans ((ex_hi _ (0#1) rfl).trans ((ex_lo _ (0#5) rfl).trans (ex_all _))))))))
  have f10_1 : fld v0 10 1 = 0#1 :=
    (congrArg (fld · 10 1) he).trans ((ex_hi _ (3#2) rfl).trans ((ex_hi _ (w) rfl).trans ((ex_hi _ (p) rfl).trans ((ex_hi _ (0#3) rfl).trans ((ex_hi _ (0#1) rfl).trans ((ex_lo _ (0#1) rfl).trans (ex_all _)))))))
  have f9_1 : fld v0 9 1 = 0#1 :=
    (congrArg (fld · 9 1) he).trans ((ex_hi _ (3#2) rfl).trans ((ex_hi _ (w) rfl).trans ((ex_hi _ (p) rfl).trans ((ex_hi _ (0#3) rfl).trans ((ex_lo _ (0#1) rfl).trans (ex_all _))))))
  have f6_3 : fld v0 6 3 = 0#3 :=
    (congrArg (fld · 6 3) he).trans ((ex_hi _ (3#2) rfl).trans ((ex_hi _ (w) rfl).trans ((ex_hi _ (p) rfl).trans ((ex_lo _ (0#3) rfl).trans (ex_all _)))))
  have f4_2 : fld v0 4 2 = p :=
    (congrArg (fld · 4 2) he).trans ((ex_hi _ (3#2) rfl).trans ((ex_hi _ (w) rfl).trans ((ex_lo _ (p) rfl).trans (ex_all _))))
  have f2_2 : fld v0 2 2 = w :=
    (congrArg (fld · 2 2) he).trans ((ex_hi _ (3#2) rfl).trans ((ex_lo _ (w) rfl).trans (ex_all _)))
  have f0_2 : fld v0 0 2 = 3#2 :=
    (congrArg (fld · 0 2) he).trans ((ex_lo _ (3#2) rfl).trans (ex_all _))
  rw [family_Tcfg f26_6, decodeTcfg]
  simp only [f21_5, f16_5, f11_5, f10_1, f9_1, f6_3, f4_2, f2_2, f0_2]
  exact needs_of hw

theorem Encode.tzero (m : BitVec 5) (p : BitVec 2) (w : BitVec 2) : Encode.Statement (.tzero m p w) := by
  intro (hw : ((p != 3#2) && (w != 3#2)) = true)
  apply decode_of
  have he : encode (.tzero m p w) = 0x29#6 ++ m ++ 0#5 ++ 0#5 ++ 0#1 ++ 1#1 ++ 0#3 ++ p ++ w ++ 0#2 := rfl
  generalize encode (.tzero m p w) = v0 at he
  have f26_6 : fld v0 26 6 = 41#6 :=
    (congrArg (fld · 26 6) he).trans ((ex_hi _ (0#2) rfl).trans ((ex_hi _ (w) rfl).trans ((ex_hi _ (p) rfl).trans ((ex_hi _ (0#3) rfl).trans ((ex_hi _ (1#1) rfl).trans ((ex_hi _ (0#1) rfl).trans ((ex_hi _ (0#5) rfl).trans ((ex_hi _ (0#5) rfl).trans ((ex_hi _ (m) rfl).trans (ex_all _))))))))))
  have f21_5 : fld v0 21 5 = m :=
    (congrArg (fld · 21 5) he).trans ((ex_hi _ (0#2) rfl).trans ((ex_hi _ (w) rfl).trans ((ex_hi _ (p) rfl).trans ((ex_hi _ (0#3) rfl).trans ((ex_hi _ (1#1) rfl).trans ((ex_hi _ (0#1) rfl).trans ((ex_hi _ (0#5) rfl).trans ((ex_hi _ (0#5) rfl).trans ((ex_lo _ (m) rfl).trans (ex_all _))))))))))
  have f16_5 : fld v0 16 5 = 0#5 :=
    (congrArg (fld · 16 5) he).trans ((ex_hi _ (0#2) rfl).trans ((ex_hi _ (w) rfl).trans ((ex_hi _ (p) rfl).trans ((ex_hi _ (0#3) rfl).trans ((ex_hi _ (1#1) rfl).trans ((ex_hi _ (0#1) rfl).trans ((ex_hi _ (0#5) rfl).trans ((ex_lo _ (0#5) rfl).trans (ex_all _)))))))))
  have f11_5 : fld v0 11 5 = 0#5 :=
    (congrArg (fld · 11 5) he).trans ((ex_hi _ (0#2) rfl).trans ((ex_hi _ (w) rfl).trans ((ex_hi _ (p) rfl).trans ((ex_hi _ (0#3) rfl).trans ((ex_hi _ (1#1) rfl).trans ((ex_hi _ (0#1) rfl).trans ((ex_lo _ (0#5) rfl).trans (ex_all _))))))))
  have f10_1 : fld v0 10 1 = 0#1 :=
    (congrArg (fld · 10 1) he).trans ((ex_hi _ (0#2) rfl).trans ((ex_hi _ (w) rfl).trans ((ex_hi _ (p) rfl).trans ((ex_hi _ (0#3) rfl).trans ((ex_hi _ (1#1) rfl).trans ((ex_lo _ (0#1) rfl).trans (ex_all _)))))))
  have f9_1 : fld v0 9 1 = 1#1 :=
    (congrArg (fld · 9 1) he).trans ((ex_hi _ (0#2) rfl).trans ((ex_hi _ (w) rfl).trans ((ex_hi _ (p) rfl).trans ((ex_hi _ (0#3) rfl).trans ((ex_lo _ (1#1) rfl).trans (ex_all _))))))
  have f6_3 : fld v0 6 3 = 0#3 :=
    (congrArg (fld · 6 3) he).trans ((ex_hi _ (0#2) rfl).trans ((ex_hi _ (w) rfl).trans ((ex_hi _ (p) rfl).trans ((ex_lo _ (0#3) rfl).trans (ex_all _)))))
  have f4_2 : fld v0 4 2 = p :=
    (congrArg (fld · 4 2) he).trans ((ex_hi _ (0#2) rfl).trans ((ex_hi _ (w) rfl).trans ((ex_lo _ (p) rfl).trans (ex_all _))))
  have f2_2 : fld v0 2 2 = w :=
    (congrArg (fld · 2 2) he).trans ((ex_hi _ (0#2) rfl).trans ((ex_lo _ (w) rfl).trans (ex_all _)))
  have f0_2 : fld v0 0 2 = 0#2 :=
    (congrArg (fld · 0 2) he).trans ((ex_lo _ (0#2) rfl).trans (ex_all _))
  rw [family_Tcfg f26_6, decodeTcfg]
  simp only [f21_5, f16_5, f11_5, f10_1, f9_1, f6_3, f4_2, f2_2, f0_2]
  exact needs_of hw

theorem Encode.tloadA (m : BitVec 5) (a : BitVec 5) (b : BitVec 5) (y : BitVec 2) (p : BitVec 2) (w : BitVec 2) : Encode.Statement (.tloadA m a b y p w) := by
  intro (hw : ((y != 3#2) && (p != 3#2) && (w != 3#2)) = true)
  apply decode_of
  have he : encode (.tloadA m a b y p w) = 0x2A#6 ++ m ++ a ++ b ++ y ++ p ++ w ++ 0#3 ++ 0#2 := rfl
  generalize encode (.tloadA m a b y p w) = v0 at he
  have f26_6 : fld v0 26 6 = 42#6 :=
    (congrArg (fld · 26 6) he).trans ((ex_hi _ (0#2) rfl).trans ((ex_hi _ (0#3) rfl).trans ((ex_hi _ (w) rfl).trans ((ex_hi _ (p) rfl).trans ((ex_hi _ (y) rfl).trans ((ex_hi _ (b) rfl).trans ((ex_hi _ (a) rfl).trans ((ex_hi _ (m) rfl).trans (ex_all _)))))))))
  have f21_5 : fld v0 21 5 = m :=
    (congrArg (fld · 21 5) he).trans ((ex_hi _ (0#2) rfl).trans ((ex_hi _ (0#3) rfl).trans ((ex_hi _ (w) rfl).trans ((ex_hi _ (p) rfl).trans ((ex_hi _ (y) rfl).trans ((ex_hi _ (b) rfl).trans ((ex_hi _ (a) rfl).trans ((ex_lo _ (m) rfl).trans (ex_all _)))))))))
  have f16_5 : fld v0 16 5 = a :=
    (congrArg (fld · 16 5) he).trans ((ex_hi _ (0#2) rfl).trans ((ex_hi _ (0#3) rfl).trans ((ex_hi _ (w) rfl).trans ((ex_hi _ (p) rfl).trans ((ex_hi _ (y) rfl).trans ((ex_hi _ (b) rfl).trans ((ex_lo _ (a) rfl).trans (ex_all _))))))))
  have f11_5 : fld v0 11 5 = b :=
    (congrArg (fld · 11 5) he).trans ((ex_hi _ (0#2) rfl).trans ((ex_hi _ (0#3) rfl).trans ((ex_hi _ (w) rfl).trans ((ex_hi _ (p) rfl).trans ((ex_hi _ (y) rfl).trans ((ex_lo _ (b) rfl).trans (ex_all _)))))))
  have f9_2 : fld v0 9 2 = y :=
    (congrArg (fld · 9 2) he).trans ((ex_hi _ (0#2) rfl).trans ((ex_hi _ (0#3) rfl).trans ((ex_hi _ (w) rfl).trans ((ex_hi _ (p) rfl).trans ((ex_lo _ (y) rfl).trans (ex_all _))))))
  have f7_2 : fld v0 7 2 = p :=
    (congrArg (fld · 7 2) he).trans ((ex_hi _ (0#2) rfl).trans ((ex_hi _ (0#3) rfl).trans ((ex_hi _ (w) rfl).trans ((ex_lo _ (p) rfl).trans (ex_all _)))))
  have f5_2 : fld v0 5 2 = w :=
    (congrArg (fld · 5 2) he).trans ((ex_hi _ (0#2) rfl).trans ((ex_hi _ (0#3) rfl).trans ((ex_lo _ (w) rfl).trans (ex_all _))))
  have f2_3 : fld v0 2 3 = 0#3 :=
    (congrArg (fld · 2 3) he).trans ((ex_hi _ (0#2) rfl).trans ((ex_lo _ (0#3) rfl).trans (ex_all _)))
  have f0_2 : fld v0 0 2 = 0#2 :=
    (congrArg (fld · 0 2) he).trans ((ex_lo _ (0#2) rfl).trans (ex_all _))
  rw [family_Tmem f26_6, decodeTmem]
  simp only [f21_5, f16_5, f11_5, f9_2, f7_2, f5_2, f2_3, f0_2]
  exact needs_of hw

theorem Encode.tloadB (m : BitVec 5) (a : BitVec 5) (b : BitVec 5) (y : BitVec 2) (p : BitVec 2) (w : BitVec 2) : Encode.Statement (.tloadB m a b y p w) := by
  intro (hw : ((y != 3#2) && (p != 3#2) && (w != 3#2)) = true)
  apply decode_of
  have he : encode (.tloadB m a b y p w) = 0x2A#6 ++ m ++ a ++ b ++ y ++ p ++ w ++ 1#3 ++ 0#2 := rfl
  generalize encode (.tloadB m a b y p w) = v0 at he
  have f26_6 : fld v0 26 6 = 42#6 :=
    (congrArg (fld · 26 6) he).trans ((ex_hi _ (0#2) rfl).trans ((ex_hi _ (1#3) rfl).trans ((ex_hi _ (w) rfl).trans ((ex_hi _ (p) rfl).trans ((ex_hi _ (y) rfl).trans ((ex_hi _ (b) rfl).trans ((ex_hi _ (a) rfl).trans ((ex_hi _ (m) rfl).trans (ex_all _)))))))))
  have f21_5 : fld v0 21 5 = m :=
    (congrArg (fld · 21 5) he).trans ((ex_hi _ (0#2) rfl).trans ((ex_hi _ (1#3) rfl).trans ((ex_hi _ (w) rfl).trans ((ex_hi _ (p) rfl).trans ((ex_hi _ (y) rfl).trans ((ex_hi _ (b) rfl).trans ((ex_hi _ (a) rfl).trans ((ex_lo _ (m) rfl).trans (ex_all _)))))))))
  have f16_5 : fld v0 16 5 = a :=
    (congrArg (fld · 16 5) he).trans ((ex_hi _ (0#2) rfl).trans ((ex_hi _ (1#3) rfl).trans ((ex_hi _ (w) rfl).trans ((ex_hi _ (p) rfl).trans ((ex_hi _ (y) rfl).trans ((ex_hi _ (b) rfl).trans ((ex_lo _ (a) rfl).trans (ex_all _))))))))
  have f11_5 : fld v0 11 5 = b :=
    (congrArg (fld · 11 5) he).trans ((ex_hi _ (0#2) rfl).trans ((ex_hi _ (1#3) rfl).trans ((ex_hi _ (w) rfl).trans ((ex_hi _ (p) rfl).trans ((ex_hi _ (y) rfl).trans ((ex_lo _ (b) rfl).trans (ex_all _)))))))
  have f9_2 : fld v0 9 2 = y :=
    (congrArg (fld · 9 2) he).trans ((ex_hi _ (0#2) rfl).trans ((ex_hi _ (1#3) rfl).trans ((ex_hi _ (w) rfl).trans ((ex_hi _ (p) rfl).trans ((ex_lo _ (y) rfl).trans (ex_all _))))))
  have f7_2 : fld v0 7 2 = p :=
    (congrArg (fld · 7 2) he).trans ((ex_hi _ (0#2) rfl).trans ((ex_hi _ (1#3) rfl).trans ((ex_hi _ (w) rfl).trans ((ex_lo _ (p) rfl).trans (ex_all _)))))
  have f5_2 : fld v0 5 2 = w :=
    (congrArg (fld · 5 2) he).trans ((ex_hi _ (0#2) rfl).trans ((ex_hi _ (1#3) rfl).trans ((ex_lo _ (w) rfl).trans (ex_all _))))
  have f2_3 : fld v0 2 3 = 1#3 :=
    (congrArg (fld · 2 3) he).trans ((ex_hi _ (0#2) rfl).trans ((ex_lo _ (1#3) rfl).trans (ex_all _)))
  have f0_2 : fld v0 0 2 = 0#2 :=
    (congrArg (fld · 0 2) he).trans ((ex_lo _ (0#2) rfl).trans (ex_all _))
  rw [family_Tmem f26_6, decodeTmem]
  simp only [f21_5, f16_5, f11_5, f9_2, f7_2, f5_2, f2_3, f0_2]
  exact needs_of hw

theorem Encode.tloadC (m : BitVec 5) (a : BitVec 5) (b : BitVec 5) (p : BitVec 2) (w : BitVec 2) : Encode.Statement (.tloadC m a b p w) := by
  intro (hw : ((p != 3#2) && (w != 3#2)) = true)
  apply decode_of
  have he : encode (.tloadC m a b p w) = 0x2A#6 ++ m ++ a ++ b ++ 0#2 ++ p ++ w ++ 2#3 ++ 0#2 := rfl
  generalize encode (.tloadC m a b p w) = v0 at he
  have f26_6 : fld v0 26 6 = 42#6 :=
    (congrArg (fld · 26 6) he).trans ((ex_hi _ (0#2) rfl).trans ((ex_hi _ (2#3) rfl).trans ((ex_hi _ (w) rfl).trans ((ex_hi _ (p) rfl).trans ((ex_hi _ (0#2) rfl).trans ((ex_hi _ (b) rfl).trans ((ex_hi _ (a) rfl).trans ((ex_hi _ (m) rfl).trans (ex_all _)))))))))
  have f21_5 : fld v0 21 5 = m :=
    (congrArg (fld · 21 5) he).trans ((ex_hi _ (0#2) rfl).trans ((ex_hi _ (2#3) rfl).trans ((ex_hi _ (w) rfl).trans ((ex_hi _ (p) rfl).trans ((ex_hi _ (0#2) rfl).trans ((ex_hi _ (b) rfl).trans ((ex_hi _ (a) rfl).trans ((ex_lo _ (m) rfl).trans (ex_all _)))))))))
  have f16_5 : fld v0 16 5 = a :=
    (congrArg (fld · 16 5) he).trans ((ex_hi _ (0#2) rfl).trans ((ex_hi _ (2#3) rfl).trans ((ex_hi _ (w) rfl).trans ((ex_hi _ (p) rfl).trans ((ex_hi _ (0#2) rfl).trans ((ex_hi _ (b) rfl).trans ((ex_lo _ (a) rfl).trans (ex_all _))))))))
  have f11_5 : fld v0 11 5 = b :=
    (congrArg (fld · 11 5) he).trans ((ex_hi _ (0#2) rfl).trans ((ex_hi _ (2#3) rfl).trans ((ex_hi _ (w) rfl).trans ((ex_hi _ (p) rfl).trans ((ex_hi _ (0#2) rfl).trans ((ex_lo _ (b) rfl).trans (ex_all _)))))))
  have f9_2 : fld v0 9 2 = 0#2 :=
    (congrArg (fld · 9 2) he).trans ((ex_hi _ (0#2) rfl).trans ((ex_hi _ (2#3) rfl).trans ((ex_hi _ (w) rfl).trans ((ex_hi _ (p) rfl).trans ((ex_lo _ (0#2) rfl).trans (ex_all _))))))
  have f7_2 : fld v0 7 2 = p :=
    (congrArg (fld · 7 2) he).trans ((ex_hi _ (0#2) rfl).trans ((ex_hi _ (2#3) rfl).trans ((ex_hi _ (w) rfl).trans ((ex_lo _ (p) rfl).trans (ex_all _)))))
  have f5_2 : fld v0 5 2 = w :=
    (congrArg (fld · 5 2) he).trans ((ex_hi _ (0#2) rfl).trans ((ex_hi _ (2#3) rfl).trans ((ex_lo _ (w) rfl).trans (ex_all _))))
  have f2_3 : fld v0 2 3 = 2#3 :=
    (congrArg (fld · 2 3) he).trans ((ex_hi _ (0#2) rfl).trans ((ex_lo _ (2#3) rfl).trans (ex_all _)))
  have f0_2 : fld v0 0 2 = 0#2 :=
    (congrArg (fld · 0 2) he).trans ((ex_lo _ (0#2) rfl).trans (ex_all _))
  rw [family_Tmem f26_6, decodeTmem]
  simp only [f21_5, f16_5, f11_5, f9_2, f7_2, f5_2, f2_3, f0_2]
  exact needs_of hw

theorem Encode.tstoreA (m : BitVec 5) (a : BitVec 5) (b : BitVec 5) (p : BitVec 2) (w : BitVec 2) : Encode.Statement (.tstoreA m a b p w) := by
  intro (hw : ((p != 3#2) && (w != 3#2)) = true)
  apply decode_of
  have he : encode (.tstoreA m a b p w) = 0x2A#6 ++ m ++ a ++ b ++ 0#2 ++ p ++ w ++ 3#3 ++ 0#2 := rfl
  generalize encode (.tstoreA m a b p w) = v0 at he
  have f26_6 : fld v0 26 6 = 42#6 :=
    (congrArg (fld · 26 6) he).trans ((ex_hi _ (0#2) rfl).trans ((ex_hi _ (3#3) rfl).trans ((ex_hi _ (w) rfl).trans ((ex_hi _ (p) rfl).trans ((ex_hi _ (0#2) rfl).trans ((ex_hi _ (b) rfl).trans ((ex_hi _ (a) rfl).trans ((ex_hi _ (m) rfl).trans (ex_all _)))))))))
  have f21_5 : fld v0 21 5 = m :=
    (congrArg (fld · 21 5) he).trans ((ex_hi _ (0#2) rfl).trans ((ex_hi _ (3#3) rfl).trans ((ex_hi _ (w) rfl).trans ((ex_hi _ (p) rfl).trans ((ex_hi _ (0#2) rfl).trans ((ex_hi _ (b) rfl).trans ((ex_hi _ (a) rfl).trans ((ex_lo _ (m) rfl).trans (ex_all _)))))))))
  have f16_5 : fld v0 16 5 = a :=
    (congrArg (fld · 16 5) he).trans ((ex_hi _ (0#2) rfl).trans ((ex_hi _ (3#3) rfl).trans ((ex_hi _ (w) rfl).trans ((ex_hi _ (p) rfl).trans ((ex_hi _ (0#2) rfl).trans ((ex_hi _ (b) rfl).trans ((ex_lo _ (a) rfl).trans (ex_all _))))))))
  have f11_5 : fld v0 11 5 = b :=
    (congrArg (fld · 11 5) he).trans ((ex_hi _ (0#2) rfl).trans ((ex_hi _ (3#3) rfl).trans ((ex_hi _ (w) rfl).trans ((ex_hi _ (p) rfl).trans ((ex_hi _ (0#2) rfl).trans ((ex_lo _ (b) rfl).trans (ex_all _)))))))
  have f9_2 : fld v0 9 2 = 0#2 :=
    (congrArg (fld · 9 2) he).trans ((ex_hi _ (0#2) rfl).trans ((ex_hi _ (3#3) rfl).trans ((ex_hi _ (w) rfl).trans ((ex_hi _ (p) rfl).trans ((ex_lo _ (0#2) rfl).trans (ex_all _))))))
  have f7_2 : fld v0 7 2 = p :=
    (congrArg (fld · 7 2) he).trans ((ex_hi _ (0#2) rfl).trans ((ex_hi _ (3#3) rfl).trans ((ex_hi _ (w) rfl).trans ((ex_lo _ (p) rfl).trans (ex_all _)))))
  have f5_2 : fld v0 5 2 = w :=
    (congrArg (fld · 5 2) he).trans ((ex_hi _ (0#2) rfl).trans ((ex_hi _ (3#3) rfl).trans ((ex_lo _ (w) rfl).trans (ex_all _))))
  have f2_3 : fld v0 2 3 = 3#3 :=
    (congrArg (fld · 2 3) he).trans ((ex_hi _ (0#2) rfl).trans ((ex_lo _ (3#3) rfl).trans (ex_all _)))
  have f0_2 : fld v0 0 2 = 0#2 :=
    (congrArg (fld · 0 2) he).trans ((ex_lo _ (0#2) rfl).trans (ex_all _))
  rw [family_Tmem f26_6, decodeTmem]
  simp only [f21_5, f16_5, f11_5, f9_2, f7_2, f5_2, f2_3, f0_2]
  exact needs_of hw

theorem Encode.tstoreB (m : BitVec 5) (a : BitVec 5) (b : BitVec 5) (p : BitVec 2) (w : BitVec 2) : Encode.Statement (.tstoreB m a b p w) := by
  intro (hw : ((p != 3#2) && (w != 3#2)) = true)
  apply decode_of
  have he : encode (.tstoreB m a b p w) = 0x2A#6 ++ m ++ a ++ b ++ 0#2 ++ p ++ w ++ 4#3 ++ 0#2 := rfl
  generalize encode (.tstoreB m a b p w) = v0 at he
  have f26_6 : fld v0 26 6 = 42#6 :=
    (congrArg (fld · 26 6) he).trans ((ex_hi _ (0#2) rfl).trans ((ex_hi _ (4#3) rfl).trans ((ex_hi _ (w) rfl).trans ((ex_hi _ (p) rfl).trans ((ex_hi _ (0#2) rfl).trans ((ex_hi _ (b) rfl).trans ((ex_hi _ (a) rfl).trans ((ex_hi _ (m) rfl).trans (ex_all _)))))))))
  have f21_5 : fld v0 21 5 = m :=
    (congrArg (fld · 21 5) he).trans ((ex_hi _ (0#2) rfl).trans ((ex_hi _ (4#3) rfl).trans ((ex_hi _ (w) rfl).trans ((ex_hi _ (p) rfl).trans ((ex_hi _ (0#2) rfl).trans ((ex_hi _ (b) rfl).trans ((ex_hi _ (a) rfl).trans ((ex_lo _ (m) rfl).trans (ex_all _)))))))))
  have f16_5 : fld v0 16 5 = a :=
    (congrArg (fld · 16 5) he).trans ((ex_hi _ (0#2) rfl).trans ((ex_hi _ (4#3) rfl).trans ((ex_hi _ (w) rfl).trans ((ex_hi _ (p) rfl).trans ((ex_hi _ (0#2) rfl).trans ((ex_hi _ (b) rfl).trans ((ex_lo _ (a) rfl).trans (ex_all _))))))))
  have f11_5 : fld v0 11 5 = b :=
    (congrArg (fld · 11 5) he).trans ((ex_hi _ (0#2) rfl).trans ((ex_hi _ (4#3) rfl).trans ((ex_hi _ (w) rfl).trans ((ex_hi _ (p) rfl).trans ((ex_hi _ (0#2) rfl).trans ((ex_lo _ (b) rfl).trans (ex_all _)))))))
  have f9_2 : fld v0 9 2 = 0#2 :=
    (congrArg (fld · 9 2) he).trans ((ex_hi _ (0#2) rfl).trans ((ex_hi _ (4#3) rfl).trans ((ex_hi _ (w) rfl).trans ((ex_hi _ (p) rfl).trans ((ex_lo _ (0#2) rfl).trans (ex_all _))))))
  have f7_2 : fld v0 7 2 = p :=
    (congrArg (fld · 7 2) he).trans ((ex_hi _ (0#2) rfl).trans ((ex_hi _ (4#3) rfl).trans ((ex_hi _ (w) rfl).trans ((ex_lo _ (p) rfl).trans (ex_all _)))))
  have f5_2 : fld v0 5 2 = w :=
    (congrArg (fld · 5 2) he).trans ((ex_hi _ (0#2) rfl).trans ((ex_hi _ (4#3) rfl).trans ((ex_lo _ (w) rfl).trans (ex_all _))))
  have f2_3 : fld v0 2 3 = 4#3 :=
    (congrArg (fld · 2 3) he).trans ((ex_hi _ (0#2) rfl).trans ((ex_lo _ (4#3) rfl).trans (ex_all _)))
  have f0_2 : fld v0 0 2 = 0#2 :=
    (congrArg (fld · 0 2) he).trans ((ex_lo _ (0#2) rfl).trans (ex_all _))
  rw [family_Tmem f26_6, decodeTmem]
  simp only [f21_5, f16_5, f11_5, f9_2, f7_2, f5_2, f2_3, f0_2]
  exact needs_of hw

theorem Encode.tstoreC (m : BitVec 5) (a : BitVec 5) (b : BitVec 5) (p : BitVec 2) (w : BitVec 2) : Encode.Statement (.tstoreC m a b p w) := by
  intro (hw : ((p != 3#2) && (w != 3#2)) = true)
  apply decode_of
  have he : encode (.tstoreC m a b p w) = 0x2A#6 ++ m ++ a ++ b ++ 0#2 ++ p ++ w ++ 5#3 ++ 0#2 := rfl
  generalize encode (.tstoreC m a b p w) = v0 at he
  have f26_6 : fld v0 26 6 = 42#6 :=
    (congrArg (fld · 26 6) he).trans ((ex_hi _ (0#2) rfl).trans ((ex_hi _ (5#3) rfl).trans ((ex_hi _ (w) rfl).trans ((ex_hi _ (p) rfl).trans ((ex_hi _ (0#2) rfl).trans ((ex_hi _ (b) rfl).trans ((ex_hi _ (a) rfl).trans ((ex_hi _ (m) rfl).trans (ex_all _)))))))))
  have f21_5 : fld v0 21 5 = m :=
    (congrArg (fld · 21 5) he).trans ((ex_hi _ (0#2) rfl).trans ((ex_hi _ (5#3) rfl).trans ((ex_hi _ (w) rfl).trans ((ex_hi _ (p) rfl).trans ((ex_hi _ (0#2) rfl).trans ((ex_hi _ (b) rfl).trans ((ex_hi _ (a) rfl).trans ((ex_lo _ (m) rfl).trans (ex_all _)))))))))
  have f16_5 : fld v0 16 5 = a :=
    (congrArg (fld · 16 5) he).trans ((ex_hi _ (0#2) rfl).trans ((ex_hi _ (5#3) rfl).trans ((ex_hi _ (w) rfl).trans ((ex_hi _ (p) rfl).trans ((ex_hi _ (0#2) rfl).trans ((ex_hi _ (b) rfl).trans ((ex_lo _ (a) rfl).trans (ex_all _))))))))
  have f11_5 : fld v0 11 5 = b :=
    (congrArg (fld · 11 5) he).trans ((ex_hi _ (0#2) rfl).trans ((ex_hi _ (5#3) rfl).trans ((ex_hi _ (w) rfl).trans ((ex_hi _ (p) rfl).trans ((ex_hi _ (0#2) rfl).trans ((ex_lo _ (b) rfl).trans (ex_all _)))))))
  have f9_2 : fld v0 9 2 = 0#2 :=
    (congrArg (fld · 9 2) he).trans ((ex_hi _ (0#2) rfl).trans ((ex_hi _ (5#3) rfl).trans ((ex_hi _ (w) rfl).trans ((ex_hi _ (p) rfl).trans ((ex_lo _ (0#2) rfl).trans (ex_all _))))))
  have f7_2 : fld v0 7 2 = p :=
    (congrArg (fld · 7 2) he).trans ((ex_hi _ (0#2) rfl).trans ((ex_hi _ (5#3) rfl).trans ((ex_hi _ (w) rfl).trans ((ex_lo _ (p) rfl).trans (ex_all _)))))
  have f5_2 : fld v0 5 2 = w :=
    (congrArg (fld · 5 2) he).trans ((ex_hi _ (0#2) rfl).trans ((ex_hi _ (5#3) rfl).trans ((ex_lo _ (w) rfl).trans (ex_all _))))
  have f2_3 : fld v0 2 3 = 5#3 :=
    (congrArg (fld · 2 3) he).trans ((ex_hi _ (0#2) rfl).trans ((ex_lo _ (5#3) rfl).trans (ex_all _)))
  have f0_2 : fld v0 0 2 = 0#2 :=
    (congrArg (fld · 0 2) he).trans ((ex_lo _ (0#2) rfl).trans (ex_all _))
  rw [family_Tmem f26_6, decodeTmem]
  simp only [f21_5, f16_5, f11_5, f9_2, f7_2, f5_2, f2_3, f0_2]
  exact needs_of hw

theorem Encode.tmma (d : BitVec 5) (a : BitVec 5) (l : BitVec 1) (f : BitVec 3) (p : BitVec 2) (w : BitVec 2) : Encode.Statement (.tmma d a l f p w) := by
  intro (hw : ((p != 3#2) && (w != 3#2)) = true)
  apply decode_of
  have he : encode (.tmma d a l f p w) = 0x2B#6 ++ d ++ a ++ 0#5 ++ l ++ 0#1 ++ f ++ p ++ w ++ 0#2 := rfl
  generalize encode (.tmma d a l f p w) = v0 at he
  have f26_6 : fld v0 26 6 = 43#6 :=
    (congrArg (fld · 26 6) he).trans ((ex_hi _ (0#2) rfl).trans ((ex_hi _ (w) rfl).trans ((ex_hi _ (p) rfl).trans ((ex_hi _ (f) rfl).trans ((ex_hi _ (0#1) rfl).trans ((ex_hi _ (l) rfl).trans ((ex_hi _ (0#5) rfl).trans ((ex_hi _ (a) rfl).trans ((ex_hi _ (d) rfl).trans (ex_all _))))))))))
  have f21_5 : fld v0 21 5 = d :=
    (congrArg (fld · 21 5) he).trans ((ex_hi _ (0#2) rfl).trans ((ex_hi _ (w) rfl).trans ((ex_hi _ (p) rfl).trans ((ex_hi _ (f) rfl).trans ((ex_hi _ (0#1) rfl).trans ((ex_hi _ (l) rfl).trans ((ex_hi _ (0#5) rfl).trans ((ex_hi _ (a) rfl).trans ((ex_lo _ (d) rfl).trans (ex_all _))))))))))
  have f16_5 : fld v0 16 5 = a :=
    (congrArg (fld · 16 5) he).trans ((ex_hi _ (0#2) rfl).trans ((ex_hi _ (w) rfl).trans ((ex_hi _ (p) rfl).trans ((ex_hi _ (f) rfl).trans ((ex_hi _ (0#1) rfl).trans ((ex_hi _ (l) rfl).trans ((ex_hi _ (0#5) rfl).trans ((ex_lo _ (a) rfl).trans (ex_all _)))))))))
  have f11_5 : fld v0 11 5 = 0#5 :=
    (congrArg (fld · 11 5) he).trans ((ex_hi _ (0#2) rfl).trans ((ex_hi _ (w) rfl).trans ((ex_hi _ (p) rfl).trans ((ex_hi _ (f) rfl).trans ((ex_hi _ (0#1) rfl).trans ((ex_hi _ (l) rfl).trans ((ex_lo _ (0#5) rfl).trans (ex_all _))))))))
  have f10_1 : fld v0 10 1 = l :=
    (congrArg (fld · 10 1) he).trans ((ex_hi _ (0#2) rfl).trans ((ex_hi _ (w) rfl).trans ((ex_hi _ (p) rfl).trans ((ex_hi _ (f) rfl).trans ((ex_hi _ (0#1) rfl).trans ((ex_lo _ (l) rfl).trans (ex_all _)))))))
  have f9_1 : fld v0 9 1 = 0#1 :=
    (congrArg (fld · 9 1) he).trans ((ex_hi _ (0#2) rfl).trans ((ex_hi _ (w) rfl).trans ((ex_hi _ (p) rfl).trans ((ex_hi _ (f) rfl).trans ((ex_lo _ (0#1) rfl).trans (ex_all _))))))
  have f6_3 : fld v0 6 3 = f :=
    (congrArg (fld · 6 3) he).trans ((ex_hi _ (0#2) rfl).trans ((ex_hi _ (w) rfl).trans ((ex_hi _ (p) rfl).trans ((ex_lo _ (f) rfl).trans (ex_all _)))))
  have f4_2 : fld v0 4 2 = p :=
    (congrArg (fld · 4 2) he).trans ((ex_hi _ (0#2) rfl).trans ((ex_hi _ (w) rfl).trans ((ex_lo _ (p) rfl).trans (ex_all _))))
  have f2_2 : fld v0 2 2 = w :=
    (congrArg (fld · 2 2) he).trans ((ex_hi _ (0#2) rfl).trans ((ex_lo _ (w) rfl).trans (ex_all _)))
  have f0_2 : fld v0 0 2 = 0#2 :=
    (congrArg (fld · 0 2) he).trans ((ex_lo _ (0#2) rfl).trans (ex_all _))
  rw [family_Tmma f26_6, decodeTmma]
  simp only [f21_5, f16_5, f11_5, f10_1, f9_1, f6_3, f4_2, f2_2, f0_2]
  exact needs_of hw

theorem Encode.tmmaSet (d : BitVec 5) (a : BitVec 5) (l : BitVec 1) (f : BitVec 3) (p : BitVec 2) (w : BitVec 2) : Encode.Statement (.tmmaSet d a l f p w) := by
  intro (hw : ((p != 3#2) && (w != 3#2)) = true)
  apply decode_of
  have he : encode (.tmmaSet d a l f p w) = 0x2B#6 ++ d ++ a ++ 0#5 ++ l ++ 0#1 ++ f ++ p ++ w ++ 1#2 := rfl
  generalize encode (.tmmaSet d a l f p w) = v0 at he
  have f26_6 : fld v0 26 6 = 43#6 :=
    (congrArg (fld · 26 6) he).trans ((ex_hi _ (1#2) rfl).trans ((ex_hi _ (w) rfl).trans ((ex_hi _ (p) rfl).trans ((ex_hi _ (f) rfl).trans ((ex_hi _ (0#1) rfl).trans ((ex_hi _ (l) rfl).trans ((ex_hi _ (0#5) rfl).trans ((ex_hi _ (a) rfl).trans ((ex_hi _ (d) rfl).trans (ex_all _))))))))))
  have f21_5 : fld v0 21 5 = d :=
    (congrArg (fld · 21 5) he).trans ((ex_hi _ (1#2) rfl).trans ((ex_hi _ (w) rfl).trans ((ex_hi _ (p) rfl).trans ((ex_hi _ (f) rfl).trans ((ex_hi _ (0#1) rfl).trans ((ex_hi _ (l) rfl).trans ((ex_hi _ (0#5) rfl).trans ((ex_hi _ (a) rfl).trans ((ex_lo _ (d) rfl).trans (ex_all _))))))))))
  have f16_5 : fld v0 16 5 = a :=
    (congrArg (fld · 16 5) he).trans ((ex_hi _ (1#2) rfl).trans ((ex_hi _ (w) rfl).trans ((ex_hi _ (p) rfl).trans ((ex_hi _ (f) rfl).trans ((ex_hi _ (0#1) rfl).trans ((ex_hi _ (l) rfl).trans ((ex_hi _ (0#5) rfl).trans ((ex_lo _ (a) rfl).trans (ex_all _)))))))))
  have f11_5 : fld v0 11 5 = 0#5 :=
    (congrArg (fld · 11 5) he).trans ((ex_hi _ (1#2) rfl).trans ((ex_hi _ (w) rfl).trans ((ex_hi _ (p) rfl).trans ((ex_hi _ (f) rfl).trans ((ex_hi _ (0#1) rfl).trans ((ex_hi _ (l) rfl).trans ((ex_lo _ (0#5) rfl).trans (ex_all _))))))))
  have f10_1 : fld v0 10 1 = l :=
    (congrArg (fld · 10 1) he).trans ((ex_hi _ (1#2) rfl).trans ((ex_hi _ (w) rfl).trans ((ex_hi _ (p) rfl).trans ((ex_hi _ (f) rfl).trans ((ex_hi _ (0#1) rfl).trans ((ex_lo _ (l) rfl).trans (ex_all _)))))))
  have f9_1 : fld v0 9 1 = 0#1 :=
    (congrArg (fld · 9 1) he).trans ((ex_hi _ (1#2) rfl).trans ((ex_hi _ (w) rfl).trans ((ex_hi _ (p) rfl).trans ((ex_hi _ (f) rfl).trans ((ex_lo _ (0#1) rfl).trans (ex_all _))))))
  have f6_3 : fld v0 6 3 = f :=
    (congrArg (fld · 6 3) he).trans ((ex_hi _ (1#2) rfl).trans ((ex_hi _ (w) rfl).trans ((ex_hi _ (p) rfl).trans ((ex_lo _ (f) rfl).trans (ex_all _)))))
  have f4_2 : fld v0 4 2 = p :=
    (congrArg (fld · 4 2) he).trans ((ex_hi _ (1#2) rfl).trans ((ex_hi _ (w) rfl).trans ((ex_lo _ (p) rfl).trans (ex_all _))))
  have f2_2 : fld v0 2 2 = w :=
    (congrArg (fld · 2 2) he).trans ((ex_hi _ (1#2) rfl).trans ((ex_lo _ (w) rfl).trans (ex_all _)))
  have f0_2 : fld v0 0 2 = 1#2 :=
    (congrArg (fld · 0 2) he).trans ((ex_lo _ (1#2) rfl).trans (ex_all _))
  rw [family_Tmma f26_6, decodeTmma]
  simp only [f21_5, f16_5, f11_5, f10_1, f9_1, f6_3, f4_2, f2_2, f0_2]
  exact needs_of hw

theorem Encode.tmmaSw (d : BitVec 5) (a : BitVec 5) (l : BitVec 1) (f : BitVec 3) (p : BitVec 2) (w : BitVec 2) : Encode.Statement (.tmmaSw d a l f p w) := by
  intro (hw : ((p != 3#2) && (w != 3#2)) = true)
  apply decode_of
  have he : encode (.tmmaSw d a l f p w) = 0x2B#6 ++ d ++ a ++ 0#5 ++ l ++ 0#1 ++ f ++ p ++ w ++ 2#2 := rfl
  generalize encode (.tmmaSw d a l f p w) = v0 at he
  have f26_6 : fld v0 26 6 = 43#6 :=
    (congrArg (fld · 26 6) he).trans ((ex_hi _ (2#2) rfl).trans ((ex_hi _ (w) rfl).trans ((ex_hi _ (p) rfl).trans ((ex_hi _ (f) rfl).trans ((ex_hi _ (0#1) rfl).trans ((ex_hi _ (l) rfl).trans ((ex_hi _ (0#5) rfl).trans ((ex_hi _ (a) rfl).trans ((ex_hi _ (d) rfl).trans (ex_all _))))))))))
  have f21_5 : fld v0 21 5 = d :=
    (congrArg (fld · 21 5) he).trans ((ex_hi _ (2#2) rfl).trans ((ex_hi _ (w) rfl).trans ((ex_hi _ (p) rfl).trans ((ex_hi _ (f) rfl).trans ((ex_hi _ (0#1) rfl).trans ((ex_hi _ (l) rfl).trans ((ex_hi _ (0#5) rfl).trans ((ex_hi _ (a) rfl).trans ((ex_lo _ (d) rfl).trans (ex_all _))))))))))
  have f16_5 : fld v0 16 5 = a :=
    (congrArg (fld · 16 5) he).trans ((ex_hi _ (2#2) rfl).trans ((ex_hi _ (w) rfl).trans ((ex_hi _ (p) rfl).trans ((ex_hi _ (f) rfl).trans ((ex_hi _ (0#1) rfl).trans ((ex_hi _ (l) rfl).trans ((ex_hi _ (0#5) rfl).trans ((ex_lo _ (a) rfl).trans (ex_all _)))))))))
  have f11_5 : fld v0 11 5 = 0#5 :=
    (congrArg (fld · 11 5) he).trans ((ex_hi _ (2#2) rfl).trans ((ex_hi _ (w) rfl).trans ((ex_hi _ (p) rfl).trans ((ex_hi _ (f) rfl).trans ((ex_hi _ (0#1) rfl).trans ((ex_hi _ (l) rfl).trans ((ex_lo _ (0#5) rfl).trans (ex_all _))))))))
  have f10_1 : fld v0 10 1 = l :=
    (congrArg (fld · 10 1) he).trans ((ex_hi _ (2#2) rfl).trans ((ex_hi _ (w) rfl).trans ((ex_hi _ (p) rfl).trans ((ex_hi _ (f) rfl).trans ((ex_hi _ (0#1) rfl).trans ((ex_lo _ (l) rfl).trans (ex_all _)))))))
  have f9_1 : fld v0 9 1 = 0#1 :=
    (congrArg (fld · 9 1) he).trans ((ex_hi _ (2#2) rfl).trans ((ex_hi _ (w) rfl).trans ((ex_hi _ (p) rfl).trans ((ex_hi _ (f) rfl).trans ((ex_lo _ (0#1) rfl).trans (ex_all _))))))
  have f6_3 : fld v0 6 3 = f :=
    (congrArg (fld · 6 3) he).trans ((ex_hi _ (2#2) rfl).trans ((ex_hi _ (w) rfl).trans ((ex_hi _ (p) rfl).trans ((ex_lo _ (f) rfl).trans (ex_all _)))))
  have f4_2 : fld v0 4 2 = p :=
    (congrArg (fld · 4 2) he).trans ((ex_hi _ (2#2) rfl).trans ((ex_hi _ (w) rfl).trans ((ex_lo _ (p) rfl).trans (ex_all _))))
  have f2_2 : fld v0 2 2 = w :=
    (congrArg (fld · 2 2) he).trans ((ex_hi _ (2#2) rfl).trans ((ex_lo _ (w) rfl).trans (ex_all _)))
  have f0_2 : fld v0 0 2 = 2#2 :=
    (congrArg (fld · 0 2) he).trans ((ex_lo _ (2#2) rfl).trans (ex_all _))
  rw [family_Tmma f26_6, decodeTmma]
  simp only [f21_5, f16_5, f11_5, f10_1, f9_1, f6_3, f4_2, f2_2, f0_2]
  exact needs_of hw

theorem Encode.tmmaSetSw (d : BitVec 5) (a : BitVec 5) (l : BitVec 1) (f : BitVec 3) (p : BitVec 2) (w : BitVec 2) : Encode.Statement (.tmmaSetSw d a l f p w) := by
  intro (hw : ((p != 3#2) && (w != 3#2)) = true)
  apply decode_of
  have he : encode (.tmmaSetSw d a l f p w) = 0x2B#6 ++ d ++ a ++ 0#5 ++ l ++ 0#1 ++ f ++ p ++ w ++ 3#2 := rfl
  generalize encode (.tmmaSetSw d a l f p w) = v0 at he
  have f26_6 : fld v0 26 6 = 43#6 :=
    (congrArg (fld · 26 6) he).trans ((ex_hi _ (3#2) rfl).trans ((ex_hi _ (w) rfl).trans ((ex_hi _ (p) rfl).trans ((ex_hi _ (f) rfl).trans ((ex_hi _ (0#1) rfl).trans ((ex_hi _ (l) rfl).trans ((ex_hi _ (0#5) rfl).trans ((ex_hi _ (a) rfl).trans ((ex_hi _ (d) rfl).trans (ex_all _))))))))))
  have f21_5 : fld v0 21 5 = d :=
    (congrArg (fld · 21 5) he).trans ((ex_hi _ (3#2) rfl).trans ((ex_hi _ (w) rfl).trans ((ex_hi _ (p) rfl).trans ((ex_hi _ (f) rfl).trans ((ex_hi _ (0#1) rfl).trans ((ex_hi _ (l) rfl).trans ((ex_hi _ (0#5) rfl).trans ((ex_hi _ (a) rfl).trans ((ex_lo _ (d) rfl).trans (ex_all _))))))))))
  have f16_5 : fld v0 16 5 = a :=
    (congrArg (fld · 16 5) he).trans ((ex_hi _ (3#2) rfl).trans ((ex_hi _ (w) rfl).trans ((ex_hi _ (p) rfl).trans ((ex_hi _ (f) rfl).trans ((ex_hi _ (0#1) rfl).trans ((ex_hi _ (l) rfl).trans ((ex_hi _ (0#5) rfl).trans ((ex_lo _ (a) rfl).trans (ex_all _)))))))))
  have f11_5 : fld v0 11 5 = 0#5 :=
    (congrArg (fld · 11 5) he).trans ((ex_hi _ (3#2) rfl).trans ((ex_hi _ (w) rfl).trans ((ex_hi _ (p) rfl).trans ((ex_hi _ (f) rfl).trans ((ex_hi _ (0#1) rfl).trans ((ex_hi _ (l) rfl).trans ((ex_lo _ (0#5) rfl).trans (ex_all _))))))))
  have f10_1 : fld v0 10 1 = l :=
    (congrArg (fld · 10 1) he).trans ((ex_hi _ (3#2) rfl).trans ((ex_hi _ (w) rfl).trans ((ex_hi _ (p) rfl).trans ((ex_hi _ (f) rfl).trans ((ex_hi _ (0#1) rfl).trans ((ex_lo _ (l) rfl).trans (ex_all _)))))))
  have f9_1 : fld v0 9 1 = 0#1 :=
    (congrArg (fld · 9 1) he).trans ((ex_hi _ (3#2) rfl).trans ((ex_hi _ (w) rfl).trans ((ex_hi _ (p) rfl).trans ((ex_hi _ (f) rfl).trans ((ex_lo _ (0#1) rfl).trans (ex_all _))))))
  have f6_3 : fld v0 6 3 = f :=
    (congrArg (fld · 6 3) he).trans ((ex_hi _ (3#2) rfl).trans ((ex_hi _ (w) rfl).trans ((ex_hi _ (p) rfl).trans ((ex_lo _ (f) rfl).trans (ex_all _)))))
  have f4_2 : fld v0 4 2 = p :=
    (congrArg (fld · 4 2) he).trans ((ex_hi _ (3#2) rfl).trans ((ex_hi _ (w) rfl).trans ((ex_lo _ (p) rfl).trans (ex_all _))))
  have f2_2 : fld v0 2 2 = w :=
    (congrArg (fld · 2 2) he).trans ((ex_hi _ (3#2) rfl).trans ((ex_lo _ (w) rfl).trans (ex_all _)))
  have f0_2 : fld v0 0 2 = 3#2 :=
    (congrArg (fld · 0 2) he).trans ((ex_lo _ (3#2) rfl).trans (ex_all _))
  rw [family_Tmma f26_6, decodeTmma]
  simp only [f21_5, f16_5, f11_5, f10_1, f9_1, f6_3, f4_2, f2_2, f0_2]
  exact needs_of hw

theorem Encode.twload (a : BitVec 5) (l : BitVec 1) (f : BitVec 3) (p : BitVec 2) (w : BitVec 2) : Encode.Statement (.twload a l f p w) := by
  intro (hw : ((p != 3#2) && (w != 3#2)) = true)
  apply decode_of
  have he : encode (.twload a l f p w) = 0x2C#6 ++ 0#5 ++ a ++ 0#5 ++ l ++ 0#1 ++ f ++ p ++ w ++ 0#2 := rfl
  generalize encode (.twload a l f p w) = v0 at he
  have f26_6 : fld v0 26 6 = 44#6 :=
    (congrArg (fld · 26 6) he).trans ((ex_hi _ (0#2) rfl).trans ((ex_hi _ (w) rfl).trans ((ex_hi _ (p) rfl).trans ((ex_hi _ (f) rfl).trans ((ex_hi _ (0#1) rfl).trans ((ex_hi _ (l) rfl).trans ((ex_hi _ (0#5) rfl).trans ((ex_hi _ (a) rfl).trans ((ex_hi _ (0#5) rfl).trans (ex_all _))))))))))
  have f21_5 : fld v0 21 5 = 0#5 :=
    (congrArg (fld · 21 5) he).trans ((ex_hi _ (0#2) rfl).trans ((ex_hi _ (w) rfl).trans ((ex_hi _ (p) rfl).trans ((ex_hi _ (f) rfl).trans ((ex_hi _ (0#1) rfl).trans ((ex_hi _ (l) rfl).trans ((ex_hi _ (0#5) rfl).trans ((ex_hi _ (a) rfl).trans ((ex_lo _ (0#5) rfl).trans (ex_all _))))))))))
  have f16_5 : fld v0 16 5 = a :=
    (congrArg (fld · 16 5) he).trans ((ex_hi _ (0#2) rfl).trans ((ex_hi _ (w) rfl).trans ((ex_hi _ (p) rfl).trans ((ex_hi _ (f) rfl).trans ((ex_hi _ (0#1) rfl).trans ((ex_hi _ (l) rfl).trans ((ex_hi _ (0#5) rfl).trans ((ex_lo _ (a) rfl).trans (ex_all _)))))))))
  have f11_5 : fld v0 11 5 = 0#5 :=
    (congrArg (fld · 11 5) he).trans ((ex_hi _ (0#2) rfl).trans ((ex_hi _ (w) rfl).trans ((ex_hi _ (p) rfl).trans ((ex_hi _ (f) rfl).trans ((ex_hi _ (0#1) rfl).trans ((ex_hi _ (l) rfl).trans ((ex_lo _ (0#5) rfl).trans (ex_all _))))))))
  have f10_1 : fld v0 10 1 = l :=
    (congrArg (fld · 10 1) he).trans ((ex_hi _ (0#2) rfl).trans ((ex_hi _ (w) rfl).trans ((ex_hi _ (p) rfl).trans ((ex_hi _ (f) rfl).trans ((ex_hi _ (0#1) rfl).trans ((ex_lo _ (l) rfl).trans (ex_all _)))))))
  have f9_1 : fld v0 9 1 = 0#1 :=
    (congrArg (fld · 9 1) he).trans ((ex_hi _ (0#2) rfl).trans ((ex_hi _ (w) rfl).trans ((ex_hi _ (p) rfl).trans ((ex_hi _ (f) rfl).trans ((ex_lo _ (0#1) rfl).trans (ex_all _))))))
  have f6_3 : fld v0 6 3 = f :=
    (congrArg (fld · 6 3) he).trans ((ex_hi _ (0#2) rfl).trans ((ex_hi _ (w) rfl).trans ((ex_hi _ (p) rfl).trans ((ex_lo _ (f) rfl).trans (ex_all _)))))
  have f4_2 : fld v0 4 2 = p :=
    (congrArg (fld · 4 2) he).trans ((ex_hi _ (0#2) rfl).trans ((ex_hi _ (w) rfl).trans ((ex_lo _ (p) rfl).trans (ex_all _))))
  have f2_2 : fld v0 2 2 = w :=
    (congrArg (fld · 2 2) he).trans ((ex_hi _ (0#2) rfl).trans ((ex_lo _ (w) rfl).trans (ex_all _)))
  have f0_2 : fld v0 0 2 = 0#2 :=
    (congrArg (fld · 0 2) he).trans ((ex_lo _ (0#2) rfl).trans (ex_all _))
  rw [family_Twload f26_6, decodeTwload]
  simp only [f21_5, f16_5, f11_5, f10_1, f9_1, f6_3, f4_2, f2_2, f0_2]
  exact needs_of hw

theorem Encode.vtom (m : BitVec 5) (a : BitVec 5) (b : BitVec 5) (p : BitVec 2) (w : BitVec 2) : Encode.Statement (.vtom m a b p w) := by
  intro (hw : ((p != 3#2) && (w != 3#2)) = true)
  apply decode_of
  have he : encode (.vtom m a b p w) = 0x2D#6 ++ m ++ a ++ b ++ 0#1 ++ 0#1 ++ 0#3 ++ p ++ w ++ 0#2 := rfl
  generalize encode (.vtom m a b p w) = v0 at he
  have f26_6 : fld v0 26 6 = 45#6 :=
    (congrArg (fld · 26 6) he).trans ((ex_hi _ (0#2) rfl).trans ((ex_hi _ (w) rfl).trans ((ex_hi _ (p) rfl).trans ((ex_hi _ (0#3) rfl).trans ((ex_hi _ (0#1) rfl).trans ((ex_hi _ (0#1) rfl).trans ((ex_hi _ (b) rfl).trans ((ex_hi _ (a) rfl).trans ((ex_hi _ (m) rfl).trans (ex_all _))))))))))
  have f21_5 : fld v0 21 5 = m :=
    (congrArg (fld · 21 5) he).trans ((ex_hi _ (0#2) rfl).trans ((ex_hi _ (w) rfl).trans ((ex_hi _ (p) rfl).trans ((ex_hi _ (0#3) rfl).trans ((ex_hi _ (0#1) rfl).trans ((ex_hi _ (0#1) rfl).trans ((ex_hi _ (b) rfl).trans ((ex_hi _ (a) rfl).trans ((ex_lo _ (m) rfl).trans (ex_all _))))))))))
  have f16_5 : fld v0 16 5 = a :=
    (congrArg (fld · 16 5) he).trans ((ex_hi _ (0#2) rfl).trans ((ex_hi _ (w) rfl).trans ((ex_hi _ (p) rfl).trans ((ex_hi _ (0#3) rfl).trans ((ex_hi _ (0#1) rfl).trans ((ex_hi _ (0#1) rfl).trans ((ex_hi _ (b) rfl).trans ((ex_lo _ (a) rfl).trans (ex_all _)))))))))
  have f11_5 : fld v0 11 5 = b :=
    (congrArg (fld · 11 5) he).trans ((ex_hi _ (0#2) rfl).trans ((ex_hi _ (w) rfl).trans ((ex_hi _ (p) rfl).trans ((ex_hi _ (0#3) rfl).trans ((ex_hi _ (0#1) rfl).trans ((ex_hi _ (0#1) rfl).trans ((ex_lo _ (b) rfl).trans (ex_all _))))))))
  have f10_1 : fld v0 10 1 = 0#1 :=
    (congrArg (fld · 10 1) he).trans ((ex_hi _ (0#2) rfl).trans ((ex_hi _ (w) rfl).trans ((ex_hi _ (p) rfl).trans ((ex_hi _ (0#3) rfl).trans ((ex_hi _ (0#1) rfl).trans ((ex_lo _ (0#1) rfl).trans (ex_all _)))))))
  have f9_1 : fld v0 9 1 = 0#1 :=
    (congrArg (fld · 9 1) he).trans ((ex_hi _ (0#2) rfl).trans ((ex_hi _ (w) rfl).trans ((ex_hi _ (p) rfl).trans ((ex_hi _ (0#3) rfl).trans ((ex_lo _ (0#1) rfl).trans (ex_all _))))))
  have f6_3 : fld v0 6 3 = 0#3 :=
    (congrArg (fld · 6 3) he).trans ((ex_hi _ (0#2) rfl).trans ((ex_hi _ (w) rfl).trans ((ex_hi _ (p) rfl).trans ((ex_lo _ (0#3) rfl).trans (ex_all _)))))
  have f4_2 : fld v0 4 2 = p :=
    (congrArg (fld · 4 2) he).trans ((ex_hi _ (0#2) rfl).trans ((ex_hi _ (w) rfl).trans ((ex_lo _ (p) rfl).trans (ex_all _))))
  have f2_2 : fld v0 2 2 = w :=
    (congrArg (fld · 2 2) he).trans ((ex_hi _ (0#2) rfl).trans ((ex_lo _ (w) rfl).trans (ex_all _)))
  have f0_2 : fld v0 0 2 = 0#2 :=
    (congrArg (fld · 0 2) he).trans ((ex_lo _ (0#2) rfl).trans (ex_all _))
  rw [family_Tmov f26_6, decodeTmov]
  simp only [f21_5, f16_5, f11_5, f10_1, f9_1, f6_3, f4_2, f2_2, f0_2]
  exact needs_of hw

theorem Encode.mtov (d : BitVec 5) (a : BitVec 5) (b : BitVec 5) (l : BitVec 1) (p : BitVec 2) (w : BitVec 2) : Encode.Statement (.mtov d a b l p w) := by
  intro (hw : ((p != 3#2) && (w != 3#2)) = true)
  apply decode_of
  have he : encode (.mtov d a b l p w) = 0x2D#6 ++ d ++ a ++ b ++ l ++ 0#1 ++ 1#3 ++ p ++ w ++ 0#2 := rfl
  generalize encode (.mtov d a b l p w) = v0 at he
  have f26_6 : fld v0 26 6 = 45#6 :=
    (congrArg (fld · 26 6) he).trans ((ex_hi _ (0#2) rfl).trans ((ex_hi _ (w) rfl).trans ((ex_hi _ (p) rfl).trans ((ex_hi _ (1#3) rfl).trans ((ex_hi _ (0#1) rfl).trans ((ex_hi _ (l) rfl).trans ((ex_hi _ (b) rfl).trans ((ex_hi _ (a) rfl).trans ((ex_hi _ (d) rfl).trans (ex_all _))))))))))
  have f21_5 : fld v0 21 5 = d :=
    (congrArg (fld · 21 5) he).trans ((ex_hi _ (0#2) rfl).trans ((ex_hi _ (w) rfl).trans ((ex_hi _ (p) rfl).trans ((ex_hi _ (1#3) rfl).trans ((ex_hi _ (0#1) rfl).trans ((ex_hi _ (l) rfl).trans ((ex_hi _ (b) rfl).trans ((ex_hi _ (a) rfl).trans ((ex_lo _ (d) rfl).trans (ex_all _))))))))))
  have f16_5 : fld v0 16 5 = a :=
    (congrArg (fld · 16 5) he).trans ((ex_hi _ (0#2) rfl).trans ((ex_hi _ (w) rfl).trans ((ex_hi _ (p) rfl).trans ((ex_hi _ (1#3) rfl).trans ((ex_hi _ (0#1) rfl).trans ((ex_hi _ (l) rfl).trans ((ex_hi _ (b) rfl).trans ((ex_lo _ (a) rfl).trans (ex_all _)))))))))
  have f11_5 : fld v0 11 5 = b :=
    (congrArg (fld · 11 5) he).trans ((ex_hi _ (0#2) rfl).trans ((ex_hi _ (w) rfl).trans ((ex_hi _ (p) rfl).trans ((ex_hi _ (1#3) rfl).trans ((ex_hi _ (0#1) rfl).trans ((ex_hi _ (l) rfl).trans ((ex_lo _ (b) rfl).trans (ex_all _))))))))
  have f10_1 : fld v0 10 1 = l :=
    (congrArg (fld · 10 1) he).trans ((ex_hi _ (0#2) rfl).trans ((ex_hi _ (w) rfl).trans ((ex_hi _ (p) rfl).trans ((ex_hi _ (1#3) rfl).trans ((ex_hi _ (0#1) rfl).trans ((ex_lo _ (l) rfl).trans (ex_all _)))))))
  have f9_1 : fld v0 9 1 = 0#1 :=
    (congrArg (fld · 9 1) he).trans ((ex_hi _ (0#2) rfl).trans ((ex_hi _ (w) rfl).trans ((ex_hi _ (p) rfl).trans ((ex_hi _ (1#3) rfl).trans ((ex_lo _ (0#1) rfl).trans (ex_all _))))))
  have f6_3 : fld v0 6 3 = 1#3 :=
    (congrArg (fld · 6 3) he).trans ((ex_hi _ (0#2) rfl).trans ((ex_hi _ (w) rfl).trans ((ex_hi _ (p) rfl).trans ((ex_lo _ (1#3) rfl).trans (ex_all _)))))
  have f4_2 : fld v0 4 2 = p :=
    (congrArg (fld · 4 2) he).trans ((ex_hi _ (0#2) rfl).trans ((ex_hi _ (w) rfl).trans ((ex_lo _ (p) rfl).trans (ex_all _))))
  have f2_2 : fld v0 2 2 = w :=
    (congrArg (fld · 2 2) he).trans ((ex_hi _ (0#2) rfl).trans ((ex_lo _ (w) rfl).trans (ex_all _)))
  have f0_2 : fld v0 0 2 = 0#2 :=
    (congrArg (fld · 0 2) he).trans ((ex_lo _ (0#2) rfl).trans (ex_all _))
  rw [family_Tmov f26_6, decodeTmov]
  simp only [f21_5, f16_5, f11_5, f10_1, f9_1, f6_3, f4_2, f2_2, f0_2]
  exact needs_of hw

theorem Encode.ttrans (d : BitVec 5) (a : BitVec 5) (l : BitVec 1) (p : BitVec 2) (w : BitVec 2) : Encode.Statement (.ttrans d a l p w) := by
  intro (hw : ((p != 3#2) && (w != 3#2)) = true)
  apply decode_of
  have he : encode (.ttrans d a l p w) = 0x2D#6 ++ d ++ a ++ 0#5 ++ l ++ 0#1 ++ 2#3 ++ p ++ w ++ 0#2 := rfl
  generalize encode (.ttrans d a l p w) = v0 at he
  have f26_6 : fld v0 26 6 = 45#6 :=
    (congrArg (fld · 26 6) he).trans ((ex_hi _ (0#2) rfl).trans ((ex_hi _ (w) rfl).trans ((ex_hi _ (p) rfl).trans ((ex_hi _ (2#3) rfl).trans ((ex_hi _ (0#1) rfl).trans ((ex_hi _ (l) rfl).trans ((ex_hi _ (0#5) rfl).trans ((ex_hi _ (a) rfl).trans ((ex_hi _ (d) rfl).trans (ex_all _))))))))))
  have f21_5 : fld v0 21 5 = d :=
    (congrArg (fld · 21 5) he).trans ((ex_hi _ (0#2) rfl).trans ((ex_hi _ (w) rfl).trans ((ex_hi _ (p) rfl).trans ((ex_hi _ (2#3) rfl).trans ((ex_hi _ (0#1) rfl).trans ((ex_hi _ (l) rfl).trans ((ex_hi _ (0#5) rfl).trans ((ex_hi _ (a) rfl).trans ((ex_lo _ (d) rfl).trans (ex_all _))))))))))
  have f16_5 : fld v0 16 5 = a :=
    (congrArg (fld · 16 5) he).trans ((ex_hi _ (0#2) rfl).trans ((ex_hi _ (w) rfl).trans ((ex_hi _ (p) rfl).trans ((ex_hi _ (2#3) rfl).trans ((ex_hi _ (0#1) rfl).trans ((ex_hi _ (l) rfl).trans ((ex_hi _ (0#5) rfl).trans ((ex_lo _ (a) rfl).trans (ex_all _)))))))))
  have f11_5 : fld v0 11 5 = 0#5 :=
    (congrArg (fld · 11 5) he).trans ((ex_hi _ (0#2) rfl).trans ((ex_hi _ (w) rfl).trans ((ex_hi _ (p) rfl).trans ((ex_hi _ (2#3) rfl).trans ((ex_hi _ (0#1) rfl).trans ((ex_hi _ (l) rfl).trans ((ex_lo _ (0#5) rfl).trans (ex_all _))))))))
  have f10_1 : fld v0 10 1 = l :=
    (congrArg (fld · 10 1) he).trans ((ex_hi _ (0#2) rfl).trans ((ex_hi _ (w) rfl).trans ((ex_hi _ (p) rfl).trans ((ex_hi _ (2#3) rfl).trans ((ex_hi _ (0#1) rfl).trans ((ex_lo _ (l) rfl).trans (ex_all _)))))))
  have f9_1 : fld v0 9 1 = 0#1 :=
    (congrArg (fld · 9 1) he).trans ((ex_hi _ (0#2) rfl).trans ((ex_hi _ (w) rfl).trans ((ex_hi _ (p) rfl).trans ((ex_hi _ (2#3) rfl).trans ((ex_lo _ (0#1) rfl).trans (ex_all _))))))
  have f6_3 : fld v0 6 3 = 2#3 :=
    (congrArg (fld · 6 3) he).trans ((ex_hi _ (0#2) rfl).trans ((ex_hi _ (w) rfl).trans ((ex_hi _ (p) rfl).trans ((ex_lo _ (2#3) rfl).trans (ex_all _)))))
  have f4_2 : fld v0 4 2 = p :=
    (congrArg (fld · 4 2) he).trans ((ex_hi _ (0#2) rfl).trans ((ex_hi _ (w) rfl).trans ((ex_lo _ (p) rfl).trans (ex_all _))))
  have f2_2 : fld v0 2 2 = w :=
    (congrArg (fld · 2 2) he).trans ((ex_hi _ (0#2) rfl).trans ((ex_lo _ (w) rfl).trans (ex_all _)))
  have f0_2 : fld v0 0 2 = 0#2 :=
    (congrArg (fld · 0 2) he).trans ((ex_lo _ (0#2) rfl).trans (ex_all _))
  rw [family_Tmov f26_6, decodeTmov]
  simp only [f21_5, f16_5, f11_5, f10_1, f9_1, f6_3, f4_2, f2_2, f0_2]
  exact needs_of hw

theorem Encode.tcvt (d : BitVec 5) (a : BitVec 5) (l : BitVec 1) (f : BitVec 3) (p : BitVec 2) (w : BitVec 2) : Encode.Statement (.tcvt d a l f p w) := by
  intro (hw : ((p != 3#2) && (w != 3#2)) = true)
  apply decode_of
  have he : encode (.tcvt d a l f p w) = 0x2D#6 ++ d ++ a ++ 0#5 ++ l ++ 0#1 ++ f ++ p ++ w ++ 1#2 := rfl
  generalize encode (.tcvt d a l f p w) = v0 at he
  have f26_6 : fld v0 26 6 = 45#6 :=
    (congrArg (fld · 26 6) he).trans ((ex_hi _ (1#2) rfl).trans ((ex_hi _ (w) rfl).trans ((ex_hi _ (p) rfl).trans ((ex_hi _ (f) rfl).trans ((ex_hi _ (0#1) rfl).trans ((ex_hi _ (l) rfl).trans ((ex_hi _ (0#5) rfl).trans ((ex_hi _ (a) rfl).trans ((ex_hi _ (d) rfl).trans (ex_all _))))))))))
  have f21_5 : fld v0 21 5 = d :=
    (congrArg (fld · 21 5) he).trans ((ex_hi _ (1#2) rfl).trans ((ex_hi _ (w) rfl).trans ((ex_hi _ (p) rfl).trans ((ex_hi _ (f) rfl).trans ((ex_hi _ (0#1) rfl).trans ((ex_hi _ (l) rfl).trans ((ex_hi _ (0#5) rfl).trans ((ex_hi _ (a) rfl).trans ((ex_lo _ (d) rfl).trans (ex_all _))))))))))
  have f16_5 : fld v0 16 5 = a :=
    (congrArg (fld · 16 5) he).trans ((ex_hi _ (1#2) rfl).trans ((ex_hi _ (w) rfl).trans ((ex_hi _ (p) rfl).trans ((ex_hi _ (f) rfl).trans ((ex_hi _ (0#1) rfl).trans ((ex_hi _ (l) rfl).trans ((ex_hi _ (0#5) rfl).trans ((ex_lo _ (a) rfl).trans (ex_all _)))))))))
  have f11_5 : fld v0 11 5 = 0#5 :=
    (congrArg (fld · 11 5) he).trans ((ex_hi _ (1#2) rfl).trans ((ex_hi _ (w) rfl).trans ((ex_hi _ (p) rfl).trans ((ex_hi _ (f) rfl).trans ((ex_hi _ (0#1) rfl).trans ((ex_hi _ (l) rfl).trans ((ex_lo _ (0#5) rfl).trans (ex_all _))))))))
  have f10_1 : fld v0 10 1 = l :=
    (congrArg (fld · 10 1) he).trans ((ex_hi _ (1#2) rfl).trans ((ex_hi _ (w) rfl).trans ((ex_hi _ (p) rfl).trans ((ex_hi _ (f) rfl).trans ((ex_hi _ (0#1) rfl).trans ((ex_lo _ (l) rfl).trans (ex_all _)))))))
  have f9_1 : fld v0 9 1 = 0#1 :=
    (congrArg (fld · 9 1) he).trans ((ex_hi _ (1#2) rfl).trans ((ex_hi _ (w) rfl).trans ((ex_hi _ (p) rfl).trans ((ex_hi _ (f) rfl).trans ((ex_lo _ (0#1) rfl).trans (ex_all _))))))
  have f6_3 : fld v0 6 3 = f :=
    (congrArg (fld · 6 3) he).trans ((ex_hi _ (1#2) rfl).trans ((ex_hi _ (w) rfl).trans ((ex_hi _ (p) rfl).trans ((ex_lo _ (f) rfl).trans (ex_all _)))))
  have f4_2 : fld v0 4 2 = p :=
    (congrArg (fld · 4 2) he).trans ((ex_hi _ (1#2) rfl).trans ((ex_hi _ (w) rfl).trans ((ex_lo _ (p) rfl).trans (ex_all _))))
  have f2_2 : fld v0 2 2 = w :=
    (congrArg (fld · 2 2) he).trans ((ex_hi _ (1#2) rfl).trans ((ex_lo _ (w) rfl).trans (ex_all _)))
  have f0_2 : fld v0 0 2 = 1#2 :=
    (congrArg (fld · 0 2) he).trans ((ex_lo _ (1#2) rfl).trans (ex_all _))
  rw [family_Tmov f26_6, decodeTmov]
  simp only [f21_5, f16_5, f11_5, f10_1, f9_1, f6_3, f4_2, f2_2, f0_2]
  exact needs_of hw

theorem Encode.tadd (d : BitVec 5) (a : BitVec 5) (b : BitVec 5) (l : BitVec 1) (h : BitVec 1) (f : BitVec 3) (p : BitVec 2) (w : BitVec 2) : Encode.Statement (.tadd d a b l h f p w) := by
  intro (hw : ((p != 3#2) && (w != 3#2)) = true)
  apply decode_of
  have he : encode (.tadd d a b l h f p w) = 0x2D#6 ++ d ++ a ++ b ++ l ++ h ++ f ++ p ++ w ++ 2#2 := rfl
  generalize encode (.tadd d a b l h f p w) = v0 at he
  have f26_6 : fld v0 26 6 = 45#6 :=
    (congrArg (fld · 26 6) he).trans ((ex_hi _ (2#2) rfl).trans ((ex_hi _ (w) rfl).trans ((ex_hi _ (p) rfl).trans ((ex_hi _ (f) rfl).trans ((ex_hi _ (h) rfl).trans ((ex_hi _ (l) rfl).trans ((ex_hi _ (b) rfl).trans ((ex_hi _ (a) rfl).trans ((ex_hi _ (d) rfl).trans (ex_all _))))))))))
  have f21_5 : fld v0 21 5 = d :=
    (congrArg (fld · 21 5) he).trans ((ex_hi _ (2#2) rfl).trans ((ex_hi _ (w) rfl).trans ((ex_hi _ (p) rfl).trans ((ex_hi _ (f) rfl).trans ((ex_hi _ (h) rfl).trans ((ex_hi _ (l) rfl).trans ((ex_hi _ (b) rfl).trans ((ex_hi _ (a) rfl).trans ((ex_lo _ (d) rfl).trans (ex_all _))))))))))
  have f16_5 : fld v0 16 5 = a :=
    (congrArg (fld · 16 5) he).trans ((ex_hi _ (2#2) rfl).trans ((ex_hi _ (w) rfl).trans ((ex_hi _ (p) rfl).trans ((ex_hi _ (f) rfl).trans ((ex_hi _ (h) rfl).trans ((ex_hi _ (l) rfl).trans ((ex_hi _ (b) rfl).trans ((ex_lo _ (a) rfl).trans (ex_all _)))))))))
  have f11_5 : fld v0 11 5 = b :=
    (congrArg (fld · 11 5) he).trans ((ex_hi _ (2#2) rfl).trans ((ex_hi _ (w) rfl).trans ((ex_hi _ (p) rfl).trans ((ex_hi _ (f) rfl).trans ((ex_hi _ (h) rfl).trans ((ex_hi _ (l) rfl).trans ((ex_lo _ (b) rfl).trans (ex_all _))))))))
  have f10_1 : fld v0 10 1 = l :=
    (congrArg (fld · 10 1) he).trans ((ex_hi _ (2#2) rfl).trans ((ex_hi _ (w) rfl).trans ((ex_hi _ (p) rfl).trans ((ex_hi _ (f) rfl).trans ((ex_hi _ (h) rfl).trans ((ex_lo _ (l) rfl).trans (ex_all _)))))))
  have f9_1 : fld v0 9 1 = h :=
    (congrArg (fld · 9 1) he).trans ((ex_hi _ (2#2) rfl).trans ((ex_hi _ (w) rfl).trans ((ex_hi _ (p) rfl).trans ((ex_hi _ (f) rfl).trans ((ex_lo _ (h) rfl).trans (ex_all _))))))
  have f6_3 : fld v0 6 3 = f :=
    (congrArg (fld · 6 3) he).trans ((ex_hi _ (2#2) rfl).trans ((ex_hi _ (w) rfl).trans ((ex_hi _ (p) rfl).trans ((ex_lo _ (f) rfl).trans (ex_all _)))))
  have f4_2 : fld v0 4 2 = p :=
    (congrArg (fld · 4 2) he).trans ((ex_hi _ (2#2) rfl).trans ((ex_hi _ (w) rfl).trans ((ex_lo _ (p) rfl).trans (ex_all _))))
  have f2_2 : fld v0 2 2 = w :=
    (congrArg (fld · 2 2) he).trans ((ex_hi _ (2#2) rfl).trans ((ex_lo _ (w) rfl).trans (ex_all _)))
  have f0_2 : fld v0 0 2 = 2#2 :=
    (congrArg (fld · 0 2) he).trans ((ex_lo _ (2#2) rfl).trans (ex_all _))
  rw [family_Tmov f26_6, decodeTmov]
  simp only [f21_5, f16_5, f11_5, f10_1, f9_1, f6_3, f4_2, f2_2, f0_2]
  exact needs_of hw

theorem Encode.cpy (a : BitVec 5) (b : BitVec 5) (c : BitVec 5) (g : BitVec 4) (p : BitVec 2) (w : BitVec 2) : Encode.Statement (.cpy a b c g p w) := by
  intro (hw : ((p != 3#2) && (w != 3#2) && ((c).getLsbD 0 == false)) = true)
  apply decode_of
  have he : encode (.cpy a b c g p w) = 0x2E#6 ++ a ++ b ++ c ++ g ++ p ++ w ++ 0#3 := rfl
  generalize encode (.cpy a b c g p w) = v0 at he
  have f26_6 : fld v0 26 6 = 46#6 :=
    (congrArg (fld · 26 6) he).trans ((ex_hi _ (0#3) rfl).trans ((ex_hi _ (w) rfl).trans ((ex_hi _ (p) rfl).trans ((ex_hi _ (g) rfl).trans ((ex_hi _ (c) rfl).trans ((ex_hi _ (b) rfl).trans ((ex_hi _ (a) rfl).trans (ex_all _))))))))
  have f21_5 : fld v0 21 5 = a :=
    (congrArg (fld · 21 5) he).trans ((ex_hi _ (0#3) rfl).trans ((ex_hi _ (w) rfl).trans ((ex_hi _ (p) rfl).trans ((ex_hi _ (g) rfl).trans ((ex_hi _ (c) rfl).trans ((ex_hi _ (b) rfl).trans ((ex_lo _ (a) rfl).trans (ex_all _))))))))
  have f16_5 : fld v0 16 5 = b :=
    (congrArg (fld · 16 5) he).trans ((ex_hi _ (0#3) rfl).trans ((ex_hi _ (w) rfl).trans ((ex_hi _ (p) rfl).trans ((ex_hi _ (g) rfl).trans ((ex_hi _ (c) rfl).trans ((ex_lo _ (b) rfl).trans (ex_all _)))))))
  have f11_5 : fld v0 11 5 = c :=
    (congrArg (fld · 11 5) he).trans ((ex_hi _ (0#3) rfl).trans ((ex_hi _ (w) rfl).trans ((ex_hi _ (p) rfl).trans ((ex_hi _ (g) rfl).trans ((ex_lo _ (c) rfl).trans (ex_all _))))))
  have f7_4 : fld v0 7 4 = g :=
    (congrArg (fld · 7 4) he).trans ((ex_hi _ (0#3) rfl).trans ((ex_hi _ (w) rfl).trans ((ex_hi _ (p) rfl).trans ((ex_lo _ (g) rfl).trans (ex_all _)))))
  have f5_2 : fld v0 5 2 = p :=
    (congrArg (fld · 5 2) he).trans ((ex_hi _ (0#3) rfl).trans ((ex_hi _ (w) rfl).trans ((ex_lo _ (p) rfl).trans (ex_all _))))
  have f3_2 : fld v0 3 2 = w :=
    (congrArg (fld · 3 2) he).trans ((ex_hi _ (0#3) rfl).trans ((ex_lo _ (w) rfl).trans (ex_all _)))
  have f0_3 : fld v0 0 3 = 0#3 :=
    (congrArg (fld · 0 3) he).trans ((ex_lo _ (0#3) rfl).trans (ex_all _))
  rw [family_Cpy f26_6, decodeCpy]
  simp only [f21_5, f16_5, f11_5, f7_4, f5_2, f3_2, f0_3]
  exact needs_of hw

theorem Encode.cpyt (a : BitVec 5) (b : BitVec 5) (c : BitVec 5) (g : BitVec 4) (p : BitVec 2) (w : BitVec 2) : Encode.Statement (.cpyt a b c g p w) := by
  intro (hw : ((p != 3#2) && (w != 3#2) && ((c).getLsbD 0 == false)) = true)
  apply decode_of
  have he : encode (.cpyt a b c g p w) = 0x2E#6 ++ a ++ b ++ c ++ g ++ p ++ w ++ 1#3 := rfl
  generalize encode (.cpyt a b c g p w) = v0 at he
  have f26_6 : fld v0 26 6 = 46#6 :=
    (congrArg (fld · 26 6) he).trans ((ex_hi _ (1#3) rfl).trans ((ex_hi _ (w) rfl).trans ((ex_hi _ (p) rfl).trans ((ex_hi _ (g) rfl).trans ((ex_hi _ (c) rfl).trans ((ex_hi _ (b) rfl).trans ((ex_hi _ (a) rfl).trans (ex_all _))))))))
  have f21_5 : fld v0 21 5 = a :=
    (congrArg (fld · 21 5) he).trans ((ex_hi _ (1#3) rfl).trans ((ex_hi _ (w) rfl).trans ((ex_hi _ (p) rfl).trans ((ex_hi _ (g) rfl).trans ((ex_hi _ (c) rfl).trans ((ex_hi _ (b) rfl).trans ((ex_lo _ (a) rfl).trans (ex_all _))))))))
  have f16_5 : fld v0 16 5 = b :=
    (congrArg (fld · 16 5) he).trans ((ex_hi _ (1#3) rfl).trans ((ex_hi _ (w) rfl).trans ((ex_hi _ (p) rfl).trans ((ex_hi _ (g) rfl).trans ((ex_hi _ (c) rfl).trans ((ex_lo _ (b) rfl).trans (ex_all _)))))))
  have f11_5 : fld v0 11 5 = c :=
    (congrArg (fld · 11 5) he).trans ((ex_hi _ (1#3) rfl).trans ((ex_hi _ (w) rfl).trans ((ex_hi _ (p) rfl).trans ((ex_hi _ (g) rfl).trans ((ex_lo _ (c) rfl).trans (ex_all _))))))
  have f7_4 : fld v0 7 4 = g :=
    (congrArg (fld · 7 4) he).trans ((ex_hi _ (1#3) rfl).trans ((ex_hi _ (w) rfl).trans ((ex_hi _ (p) rfl).trans ((ex_lo _ (g) rfl).trans (ex_all _)))))
  have f5_2 : fld v0 5 2 = p :=
    (congrArg (fld · 5 2) he).trans ((ex_hi _ (1#3) rfl).trans ((ex_hi _ (w) rfl).trans ((ex_lo _ (p) rfl).trans (ex_all _))))
  have f3_2 : fld v0 3 2 = w :=
    (congrArg (fld · 3 2) he).trans ((ex_hi _ (1#3) rfl).trans ((ex_lo _ (w) rfl).trans (ex_all _)))
  have f0_3 : fld v0 0 3 = 1#3 :=
    (congrArg (fld · 0 3) he).trans ((ex_lo _ (1#3) rfl).trans (ex_all _))
  rw [family_Cpy f26_6, decodeCpy]
  simp only [f21_5, f16_5, f11_5, f7_4, f5_2, f3_2, f0_3]
  exact needs_of hw

theorem Encode.mdiscard (a : BitVec 5) (c : BitVec 5) (g : BitVec 4) (p : BitVec 2) (w : BitVec 2) : Encode.Statement (.mdiscard a c g p w) := by
  intro (hw : ((p != 3#2) && (w != 3#2) && ((c).getLsbD 0 == false)) = true)
  apply decode_of
  have he : encode (.mdiscard a c g p w) = 0x2E#6 ++ a ++ 0#5 ++ c ++ g ++ p ++ w ++ 2#3 := rfl
  generalize encode (.mdiscard a c g p w) = v0 at he
  have f26_6 : fld v0 26 6 = 46#6 :=
    (congrArg (fld · 26 6) he).trans ((ex_hi _ (2#3) rfl).trans ((ex_hi _ (w) rfl).trans ((ex_hi _ (p) rfl).trans ((ex_hi _ (g) rfl).trans ((ex_hi _ (c) rfl).trans ((ex_hi _ (0#5) rfl).trans ((ex_hi _ (a) rfl).trans (ex_all _))))))))
  have f21_5 : fld v0 21 5 = a :=
    (congrArg (fld · 21 5) he).trans ((ex_hi _ (2#3) rfl).trans ((ex_hi _ (w) rfl).trans ((ex_hi _ (p) rfl).trans ((ex_hi _ (g) rfl).trans ((ex_hi _ (c) rfl).trans ((ex_hi _ (0#5) rfl).trans ((ex_lo _ (a) rfl).trans (ex_all _))))))))
  have f16_5 : fld v0 16 5 = 0#5 :=
    (congrArg (fld · 16 5) he).trans ((ex_hi _ (2#3) rfl).trans ((ex_hi _ (w) rfl).trans ((ex_hi _ (p) rfl).trans ((ex_hi _ (g) rfl).trans ((ex_hi _ (c) rfl).trans ((ex_lo _ (0#5) rfl).trans (ex_all _)))))))
  have f11_5 : fld v0 11 5 = c :=
    (congrArg (fld · 11 5) he).trans ((ex_hi _ (2#3) rfl).trans ((ex_hi _ (w) rfl).trans ((ex_hi _ (p) rfl).trans ((ex_hi _ (g) rfl).trans ((ex_lo _ (c) rfl).trans (ex_all _))))))
  have f7_4 : fld v0 7 4 = g :=
    (congrArg (fld · 7 4) he).trans ((ex_hi _ (2#3) rfl).trans ((ex_hi _ (w) rfl).trans ((ex_hi _ (p) rfl).trans ((ex_lo _ (g) rfl).trans (ex_all _)))))
  have f5_2 : fld v0 5 2 = p :=
    (congrArg (fld · 5 2) he).trans ((ex_hi _ (2#3) rfl).trans ((ex_hi _ (w) rfl).trans ((ex_lo _ (p) rfl).trans (ex_all _))))
  have f3_2 : fld v0 3 2 = w :=
    (congrArg (fld · 3 2) he).trans ((ex_hi _ (2#3) rfl).trans ((ex_lo _ (w) rfl).trans (ex_all _)))
  have f0_3 : fld v0 0 3 = 2#3 :=
    (congrArg (fld · 0 3) he).trans ((ex_lo _ (2#3) rfl).trans (ex_all _))
  rw [family_Cpy f26_6, decodeCpy]
  simp only [f21_5, f16_5, f11_5, f7_4, f5_2, f3_2, f0_3]
  exact needs_of hw

theorem Encode.cpyz (a : BitVec 5) (b : BitVec 5) (c : BitVec 5) (g : BitVec 4) (p : BitVec 2) (w : BitVec 2) : Encode.Statement (.cpyz a b c g p w) := by
  intro (hw : ((p != 3#2) && (w != 3#2) && ((c).getLsbD 0 == false)) = true)
  apply decode_of
  have he : encode (.cpyz a b c g p w) = 0x2E#6 ++ a ++ b ++ c ++ g ++ p ++ w ++ 3#3 := rfl
  generalize encode (.cpyz a b c g p w) = v0 at he
  have f26_6 : fld v0 26 6 = 46#6 :=
    (congrArg (fld · 26 6) he).trans ((ex_hi _ (3#3) rfl).trans ((ex_hi _ (w) rfl).trans ((ex_hi _ (p) rfl).trans ((ex_hi _ (g) rfl).trans ((ex_hi _ (c) rfl).trans ((ex_hi _ (b) rfl).trans ((ex_hi _ (a) rfl).trans (ex_all _))))))))
  have f21_5 : fld v0 21 5 = a :=
    (congrArg (fld · 21 5) he).trans ((ex_hi _ (3#3) rfl).trans ((ex_hi _ (w) rfl).trans ((ex_hi _ (p) rfl).trans ((ex_hi _ (g) rfl).trans ((ex_hi _ (c) rfl).trans ((ex_hi _ (b) rfl).trans ((ex_lo _ (a) rfl).trans (ex_all _))))))))
  have f16_5 : fld v0 16 5 = b :=
    (congrArg (fld · 16 5) he).trans ((ex_hi _ (3#3) rfl).trans ((ex_hi _ (w) rfl).trans ((ex_hi _ (p) rfl).trans ((ex_hi _ (g) rfl).trans ((ex_hi _ (c) rfl).trans ((ex_lo _ (b) rfl).trans (ex_all _)))))))
  have f11_5 : fld v0 11 5 = c :=
    (congrArg (fld · 11 5) he).trans ((ex_hi _ (3#3) rfl).trans ((ex_hi _ (w) rfl).trans ((ex_hi _ (p) rfl).trans ((ex_hi _ (g) rfl).trans ((ex_lo _ (c) rfl).trans (ex_all _))))))
  have f7_4 : fld v0 7 4 = g :=
    (congrArg (fld · 7 4) he).trans ((ex_hi _ (3#3) rfl).trans ((ex_hi _ (w) rfl).trans ((ex_hi _ (p) rfl).trans ((ex_lo _ (g) rfl).trans (ex_all _)))))
  have f5_2 : fld v0 5 2 = p :=
    (congrArg (fld · 5 2) he).trans ((ex_hi _ (3#3) rfl).trans ((ex_hi _ (w) rfl).trans ((ex_lo _ (p) rfl).trans (ex_all _))))
  have f3_2 : fld v0 3 2 = w :=
    (congrArg (fld · 3 2) he).trans ((ex_hi _ (3#3) rfl).trans ((ex_lo _ (w) rfl).trans (ex_all _)))
  have f0_3 : fld v0 0 3 = 3#3 :=
    (congrArg (fld · 0 3) he).trans ((ex_lo _ (3#3) rfl).trans (ex_all _))
  rw [family_Cpy f26_6, decodeCpy]
  simp only [f21_5, f16_5, f11_5, f7_4, f5_2, f3_2, f0_3]
  exact needs_of hw

theorem Encode.binit (a : BitVec 5) (b : BitVec 5) (p : BitVec 2) (w : BitVec 2) : Encode.Statement (.binit a b p w) := by
  intro (hw : ((p != 3#2) && (w != 3#2)) = true)
  apply decode_of
  have he : encode (.binit a b p w) = 0x2F#6 ++ a ++ b ++ 0#5 ++ 0#4 ++ p ++ w ++ 0#3 := rfl
  generalize encode (.binit a b p w) = v0 at he
  have f26_6 : fld v0 26 6 = 47#6 :=
    (congrArg (fld · 26 6) he).trans ((ex_hi _ (0#3) rfl).trans ((ex_hi _ (w) rfl).trans ((ex_hi _ (p) rfl).trans ((ex_hi _ (0#4) rfl).trans ((ex_hi _ (0#5) rfl).trans ((ex_hi _ (b) rfl).trans ((ex_hi _ (a) rfl).trans (ex_all _))))))))
  have f21_5 : fld v0 21 5 = a :=
    (congrArg (fld · 21 5) he).trans ((ex_hi _ (0#3) rfl).trans ((ex_hi _ (w) rfl).trans ((ex_hi _ (p) rfl).trans ((ex_hi _ (0#4) rfl).trans ((ex_hi _ (0#5) rfl).trans ((ex_hi _ (b) rfl).trans ((ex_lo _ (a) rfl).trans (ex_all _))))))))
  have f16_5 : fld v0 16 5 = b :=
    (congrArg (fld · 16 5) he).trans ((ex_hi _ (0#3) rfl).trans ((ex_hi _ (w) rfl).trans ((ex_hi _ (p) rfl).trans ((ex_hi _ (0#4) rfl).trans ((ex_hi _ (0#5) rfl).trans ((ex_lo _ (b) rfl).trans (ex_all _)))))))
  have f11_5 : fld v0 11 5 = 0#5 :=
    (congrArg (fld · 11 5) he).trans ((ex_hi _ (0#3) rfl).trans ((ex_hi _ (w) rfl).trans ((ex_hi _ (p) rfl).trans ((ex_hi _ (0#4) rfl).trans ((ex_lo _ (0#5) rfl).trans (ex_all _))))))
  have f7_4 : fld v0 7 4 = 0#4 :=
    (congrArg (fld · 7 4) he).trans ((ex_hi _ (0#3) rfl).trans ((ex_hi _ (w) rfl).trans ((ex_hi _ (p) rfl).trans ((ex_lo _ (0#4) rfl).trans (ex_all _)))))
  have f5_2 : fld v0 5 2 = p :=
    (congrArg (fld · 5 2) he).trans ((ex_hi _ (0#3) rfl).trans ((ex_hi _ (w) rfl).trans ((ex_lo _ (p) rfl).trans (ex_all _))))
  have f3_2 : fld v0 3 2 = w :=
    (congrArg (fld · 3 2) he).trans ((ex_hi _ (0#3) rfl).trans ((ex_lo _ (w) rfl).trans (ex_all _)))
  have f0_3 : fld v0 0 3 = 0#3 :=
    (congrArg (fld · 0 3) he).trans ((ex_lo _ (0#3) rfl).trans (ex_all _))
  rw [family_Bar f26_6, decodeBar]
  simp only [f21_5, f16_5, f11_5, f7_4, f5_2, f3_2, f0_3]
  exact needs_of hw

theorem Encode.bexp (a : BitVec 5) (b : BitVec 5) (p : BitVec 2) (w : BitVec 2) : Encode.Statement (.bexp a b p w) := by
  intro (hw : ((p != 3#2) && (w != 3#2)) = true)
  apply decode_of
  have he : encode (.bexp a b p w) = 0x2F#6 ++ a ++ b ++ 0#5 ++ 0#4 ++ p ++ w ++ 1#3 := rfl
  generalize encode (.bexp a b p w) = v0 at he
  have f26_6 : fld v0 26 6 = 47#6 :=
    (congrArg (fld · 26 6) he).trans ((ex_hi _ (1#3) rfl).trans ((ex_hi _ (w) rfl).trans ((ex_hi _ (p) rfl).trans ((ex_hi _ (0#4) rfl).trans ((ex_hi _ (0#5) rfl).trans ((ex_hi _ (b) rfl).trans ((ex_hi _ (a) rfl).trans (ex_all _))))))))
  have f21_5 : fld v0 21 5 = a :=
    (congrArg (fld · 21 5) he).trans ((ex_hi _ (1#3) rfl).trans ((ex_hi _ (w) rfl).trans ((ex_hi _ (p) rfl).trans ((ex_hi _ (0#4) rfl).trans ((ex_hi _ (0#5) rfl).trans ((ex_hi _ (b) rfl).trans ((ex_lo _ (a) rfl).trans (ex_all _))))))))
  have f16_5 : fld v0 16 5 = b :=
    (congrArg (fld · 16 5) he).trans ((ex_hi _ (1#3) rfl).trans ((ex_hi _ (w) rfl).trans ((ex_hi _ (p) rfl).trans ((ex_hi _ (0#4) rfl).trans ((ex_hi _ (0#5) rfl).trans ((ex_lo _ (b) rfl).trans (ex_all _)))))))
  have f11_5 : fld v0 11 5 = 0#5 :=
    (congrArg (fld · 11 5) he).trans ((ex_hi _ (1#3) rfl).trans ((ex_hi _ (w) rfl).trans ((ex_hi _ (p) rfl).trans ((ex_hi _ (0#4) rfl).trans ((ex_lo _ (0#5) rfl).trans (ex_all _))))))
  have f7_4 : fld v0 7 4 = 0#4 :=
    (congrArg (fld · 7 4) he).trans ((ex_hi _ (1#3) rfl).trans ((ex_hi _ (w) rfl).trans ((ex_hi _ (p) rfl).trans ((ex_lo _ (0#4) rfl).trans (ex_all _)))))
  have f5_2 : fld v0 5 2 = p :=
    (congrArg (fld · 5 2) he).trans ((ex_hi _ (1#3) rfl).trans ((ex_hi _ (w) rfl).trans ((ex_lo _ (p) rfl).trans (ex_all _))))
  have f3_2 : fld v0 3 2 = w :=
    (congrArg (fld · 3 2) he).trans ((ex_hi _ (1#3) rfl).trans ((ex_lo _ (w) rfl).trans (ex_all _)))
  have f0_3 : fld v0 0 3 = 1#3 :=
    (congrArg (fld · 0 3) he).trans ((ex_lo _ (1#3) rfl).trans (ex_all _))
  rw [family_Bar f26_6, decodeBar]
  simp only [f21_5, f16_5, f11_5, f7_4, f5_2, f3_2, f0_3]
  exact needs_of hw

theorem Encode.barr (a : BitVec 5) (b : BitVec 5) (p : BitVec 2) (w : BitVec 2) : Encode.Statement (.barr a b p w) := by
  intro (hw : ((p != 3#2) && (w != 3#2)) = true)
  apply decode_of
  have he : encode (.barr a b p w) = 0x2F#6 ++ a ++ b ++ 0#5 ++ 0#4 ++ p ++ w ++ 2#3 := rfl
  generalize encode (.barr a b p w) = v0 at he
  have f26_6 : fld v0 26 6 = 47#6 :=
    (congrArg (fld · 26 6) he).trans ((ex_hi _ (2#3) rfl).trans ((ex_hi _ (w) rfl).trans ((ex_hi _ (p) rfl).trans ((ex_hi _ (0#4) rfl).trans ((ex_hi _ (0#5) rfl).trans ((ex_hi _ (b) rfl).trans ((ex_hi _ (a) rfl).trans (ex_all _))))))))
  have f21_5 : fld v0 21 5 = a :=
    (congrArg (fld · 21 5) he).trans ((ex_hi _ (2#3) rfl).trans ((ex_hi _ (w) rfl).trans ((ex_hi _ (p) rfl).trans ((ex_hi _ (0#4) rfl).trans ((ex_hi _ (0#5) rfl).trans ((ex_hi _ (b) rfl).trans ((ex_lo _ (a) rfl).trans (ex_all _))))))))
  have f16_5 : fld v0 16 5 = b :=
    (congrArg (fld · 16 5) he).trans ((ex_hi _ (2#3) rfl).trans ((ex_hi _ (w) rfl).trans ((ex_hi _ (p) rfl).trans ((ex_hi _ (0#4) rfl).trans ((ex_hi _ (0#5) rfl).trans ((ex_lo _ (b) rfl).trans (ex_all _)))))))
  have f11_5 : fld v0 11 5 = 0#5 :=
    (congrArg (fld · 11 5) he).trans ((ex_hi _ (2#3) rfl).trans ((ex_hi _ (w) rfl).trans ((ex_hi _ (p) rfl).trans ((ex_hi _ (0#4) rfl).trans ((ex_lo _ (0#5) rfl).trans (ex_all _))))))
  have f7_4 : fld v0 7 4 = 0#4 :=
    (congrArg (fld · 7 4) he).trans ((ex_hi _ (2#3) rfl).trans ((ex_hi _ (w) rfl).trans ((ex_hi _ (p) rfl).trans ((ex_lo _ (0#4) rfl).trans (ex_all _)))))
  have f5_2 : fld v0 5 2 = p :=
    (congrArg (fld · 5 2) he).trans ((ex_hi _ (2#3) rfl).trans ((ex_hi _ (w) rfl).trans ((ex_lo _ (p) rfl).trans (ex_all _))))
  have f3_2 : fld v0 3 2 = w :=
    (congrArg (fld · 3 2) he).trans ((ex_hi _ (2#3) rfl).trans ((ex_lo _ (w) rfl).trans (ex_all _)))
  have f0_3 : fld v0 0 3 = 2#3 :=
    (congrArg (fld · 0 3) he).trans ((ex_lo _ (2#3) rfl).trans (ex_all _))
  rw [family_Bar f26_6, decodeBar]
  simp only [f21_5, f16_5, f11_5, f7_4, f5_2, f3_2, f0_3]
  exact needs_of hw

theorem Encode.bwait (a : BitVec 5) (b : BitVec 5) (p : BitVec 2) (w : BitVec 2) : Encode.Statement (.bwait a b p w) := by
  intro (hw : ((p != 3#2) && (w != 3#2)) = true)
  apply decode_of
  have he : encode (.bwait a b p w) = 0x2F#6 ++ a ++ b ++ 0#5 ++ 0#4 ++ p ++ w ++ 3#3 := rfl
  generalize encode (.bwait a b p w) = v0 at he
  have f26_6 : fld v0 26 6 = 47#6 :=
    (congrArg (fld · 26 6) he).trans ((ex_hi _ (3#3) rfl).trans ((ex_hi _ (w) rfl).trans ((ex_hi _ (p) rfl).trans ((ex_hi _ (0#4) rfl).trans ((ex_hi _ (0#5) rfl).trans ((ex_hi _ (b) rfl).trans ((ex_hi _ (a) rfl).trans (ex_all _))))))))
  have f21_5 : fld v0 21 5 = a :=
    (congrArg (fld · 21 5) he).trans ((ex_hi _ (3#3) rfl).trans ((ex_hi _ (w) rfl).trans ((ex_hi _ (p) rfl).trans ((ex_hi _ (0#4) rfl).trans ((ex_hi _ (0#5) rfl).trans ((ex_hi _ (b) rfl).trans ((ex_lo _ (a) rfl).trans (ex_all _))))))))
  have f16_5 : fld v0 16 5 = b :=
    (congrArg (fld · 16 5) he).trans ((ex_hi _ (3#3) rfl).trans ((ex_hi _ (w) rfl).trans ((ex_hi _ (p) rfl).trans ((ex_hi _ (0#4) rfl).trans ((ex_hi _ (0#5) rfl).trans ((ex_lo _ (b) rfl).trans (ex_all _)))))))
  have f11_5 : fld v0 11 5 = 0#5 :=
    (congrArg (fld · 11 5) he).trans ((ex_hi _ (3#3) rfl).trans ((ex_hi _ (w) rfl).trans ((ex_hi _ (p) rfl).trans ((ex_hi _ (0#4) rfl).trans ((ex_lo _ (0#5) rfl).trans (ex_all _))))))
  have f7_4 : fld v0 7 4 = 0#4 :=
    (congrArg (fld · 7 4) he).trans ((ex_hi _ (3#3) rfl).trans ((ex_hi _ (w) rfl).trans ((ex_hi _ (p) rfl).trans ((ex_lo _ (0#4) rfl).trans (ex_all _)))))
  have f5_2 : fld v0 5 2 = p :=
    (congrArg (fld · 5 2) he).trans ((ex_hi _ (3#3) rfl).trans ((ex_hi _ (w) rfl).trans ((ex_lo _ (p) rfl).trans (ex_all _))))
  have f3_2 : fld v0 3 2 = w :=
    (congrArg (fld · 3 2) he).trans ((ex_hi _ (3#3) rfl).trans ((ex_lo _ (w) rfl).trans (ex_all _)))
  have f0_3 : fld v0 0 3 = 3#3 :=
    (congrArg (fld · 0 3) he).trans ((ex_lo _ (3#3) rfl).trans (ex_all _))
  rw [family_Bar f26_6, decodeBar]
  simp only [f21_5, f16_5, f11_5, f7_4, f5_2, f3_2, f0_3]
  exact needs_of hw

theorem Encode.btest (a : BitVec 5) (b : BitVec 5) (p : BitVec 2) (w : BitVec 2) : Encode.Statement (.btest a b p w) := by
  intro (hw : ((p != 3#2) && (w != 3#2)) = true)
  apply decode_of
  have he : encode (.btest a b p w) = 0x2F#6 ++ a ++ b ++ 0#5 ++ 0#4 ++ p ++ w ++ 4#3 := rfl
  generalize encode (.btest a b p w) = v0 at he
  have f26_6 : fld v0 26 6 = 47#6 :=
    (congrArg (fld · 26 6) he).trans ((ex_hi _ (4#3) rfl).trans ((ex_hi _ (w) rfl).trans ((ex_hi _ (p) rfl).trans ((ex_hi _ (0#4) rfl).trans ((ex_hi _ (0#5) rfl).trans ((ex_hi _ (b) rfl).trans ((ex_hi _ (a) rfl).trans (ex_all _))))))))
  have f21_5 : fld v0 21 5 = a :=
    (congrArg (fld · 21 5) he).trans ((ex_hi _ (4#3) rfl).trans ((ex_hi _ (w) rfl).trans ((ex_hi _ (p) rfl).trans ((ex_hi _ (0#4) rfl).trans ((ex_hi _ (0#5) rfl).trans ((ex_hi _ (b) rfl).trans ((ex_lo _ (a) rfl).trans (ex_all _))))))))
  have f16_5 : fld v0 16 5 = b :=
    (congrArg (fld · 16 5) he).trans ((ex_hi _ (4#3) rfl).trans ((ex_hi _ (w) rfl).trans ((ex_hi _ (p) rfl).trans ((ex_hi _ (0#4) rfl).trans ((ex_hi _ (0#5) rfl).trans ((ex_lo _ (b) rfl).trans (ex_all _)))))))
  have f11_5 : fld v0 11 5 = 0#5 :=
    (congrArg (fld · 11 5) he).trans ((ex_hi _ (4#3) rfl).trans ((ex_hi _ (w) rfl).trans ((ex_hi _ (p) rfl).trans ((ex_hi _ (0#4) rfl).trans ((ex_lo _ (0#5) rfl).trans (ex_all _))))))
  have f7_4 : fld v0 7 4 = 0#4 :=
    (congrArg (fld · 7 4) he).trans ((ex_hi _ (4#3) rfl).trans ((ex_hi _ (w) rfl).trans ((ex_hi _ (p) rfl).trans ((ex_lo _ (0#4) rfl).trans (ex_all _)))))
  have f5_2 : fld v0 5 2 = p :=
    (congrArg (fld · 5 2) he).trans ((ex_hi _ (4#3) rfl).trans ((ex_hi _ (w) rfl).trans ((ex_lo _ (p) rfl).trans (ex_all _))))
  have f3_2 : fld v0 3 2 = w :=
    (congrArg (fld · 3 2) he).trans ((ex_hi _ (4#3) rfl).trans ((ex_lo _ (w) rfl).trans (ex_all _)))
  have f0_3 : fld v0 0 3 = 4#3 :=
    (congrArg (fld · 0 3) he).trans ((ex_lo _ (4#3) rfl).trans (ex_all _))
  rw [family_Bar f26_6, decodeBar]
  simp only [f21_5, f16_5, f11_5, f7_4, f5_2, f3_2, f0_3]
  exact needs_of hw

theorem Encode.pend (a : BitVec 5) (b : BitVec 5) (p : BitVec 2) (w : BitVec 2) : Encode.Statement (.pend a b p w) := by
  intro (hw : ((p != 3#2) && (w != 3#2)) = true)
  apply decode_of
  have he : encode (.pend a b p w) = 0x2F#6 ++ a ++ b ++ 0#5 ++ 0#4 ++ p ++ w ++ 5#3 := rfl
  generalize encode (.pend a b p w) = v0 at he
  have f26_6 : fld v0 26 6 = 47#6 :=
    (congrArg (fld · 26 6) he).trans ((ex_hi _ (5#3) rfl).trans ((ex_hi _ (w) rfl).trans ((ex_hi _ (p) rfl).trans ((ex_hi _ (0#4) rfl).trans ((ex_hi _ (0#5) rfl).trans ((ex_hi _ (b) rfl).trans ((ex_hi _ (a) rfl).trans (ex_all _))))))))
  have f21_5 : fld v0 21 5 = a :=
    (congrArg (fld · 21 5) he).trans ((ex_hi _ (5#3) rfl).trans ((ex_hi _ (w) rfl).trans ((ex_hi _ (p) rfl).trans ((ex_hi _ (0#4) rfl).trans ((ex_hi _ (0#5) rfl).trans ((ex_hi _ (b) rfl).trans ((ex_lo _ (a) rfl).trans (ex_all _))))))))
  have f16_5 : fld v0 16 5 = b :=
    (congrArg (fld · 16 5) he).trans ((ex_hi _ (5#3) rfl).trans ((ex_hi _ (w) rfl).trans ((ex_hi _ (p) rfl).trans ((ex_hi _ (0#4) rfl).trans ((ex_hi _ (0#5) rfl).trans ((ex_lo _ (b) rfl).trans (ex_all _)))))))
  have f11_5 : fld v0 11 5 = 0#5 :=
    (congrArg (fld · 11 5) he).trans ((ex_hi _ (5#3) rfl).trans ((ex_hi _ (w) rfl).trans ((ex_hi _ (p) rfl).trans ((ex_hi _ (0#4) rfl).trans ((ex_lo _ (0#5) rfl).trans (ex_all _))))))
  have f7_4 : fld v0 7 4 = 0#4 :=
    (congrArg (fld · 7 4) he).trans ((ex_hi _ (5#3) rfl).trans ((ex_hi _ (w) rfl).trans ((ex_hi _ (p) rfl).trans ((ex_lo _ (0#4) rfl).trans (ex_all _)))))
  have f5_2 : fld v0 5 2 = p :=
    (congrArg (fld · 5 2) he).trans ((ex_hi _ (5#3) rfl).trans ((ex_hi _ (w) rfl).trans ((ex_lo _ (p) rfl).trans (ex_all _))))
  have f3_2 : fld v0 3 2 = w :=
    (congrArg (fld · 3 2) he).trans ((ex_hi _ (5#3) rfl).trans ((ex_lo _ (w) rfl).trans (ex_all _)))
  have f0_3 : fld v0 0 3 = 5#3 :=
    (congrArg (fld · 0 3) he).trans ((ex_lo _ (5#3) rfl).trans (ex_all _))
  rw [family_Bar f26_6, decodeBar]
  simp only [f21_5, f16_5, f11_5, f7_4, f5_2, f3_2, f0_3]
  exact needs_of hw

theorem Encode.bexparr (a : BitVec 5) (b : BitVec 5) (c : BitVec 5) (p : BitVec 2) (w : BitVec 2) : Encode.Statement (.bexparr a b c p w) := by
  intro (hw : ((p != 3#2) && (w != 3#2)) = true)
  apply decode_of
  have he : encode (.bexparr a b c p w) = 0x2F#6 ++ a ++ b ++ c ++ 0#4 ++ p ++ w ++ 6#3 := rfl
  generalize encode (.bexparr a b c p w) = v0 at he
  have f26_6 : fld v0 26 6 = 47#6 :=
    (congrArg (fld · 26 6) he).trans ((ex_hi _ (6#3) rfl).trans ((ex_hi _ (w) rfl).trans ((ex_hi _ (p) rfl).trans ((ex_hi _ (0#4) rfl).trans ((ex_hi _ (c) rfl).trans ((ex_hi _ (b) rfl).trans ((ex_hi _ (a) rfl).trans (ex_all _))))))))
  have f21_5 : fld v0 21 5 = a :=
    (congrArg (fld · 21 5) he).trans ((ex_hi _ (6#3) rfl).trans ((ex_hi _ (w) rfl).trans ((ex_hi _ (p) rfl).trans ((ex_hi _ (0#4) rfl).trans ((ex_hi _ (c) rfl).trans ((ex_hi _ (b) rfl).trans ((ex_lo _ (a) rfl).trans (ex_all _))))))))
  have f16_5 : fld v0 16 5 = b :=
    (congrArg (fld · 16 5) he).trans ((ex_hi _ (6#3) rfl).trans ((ex_hi _ (w) rfl).trans ((ex_hi _ (p) rfl).trans ((ex_hi _ (0#4) rfl).trans ((ex_hi _ (c) rfl).trans ((ex_lo _ (b) rfl).trans (ex_all _)))))))
  have f11_5 : fld v0 11 5 = c :=
    (congrArg (fld · 11 5) he).trans ((ex_hi _ (6#3) rfl).trans ((ex_hi _ (w) rfl).trans ((ex_hi _ (p) rfl).trans ((ex_hi _ (0#4) rfl).trans ((ex_lo _ (c) rfl).trans (ex_all _))))))
  have f7_4 : fld v0 7 4 = 0#4 :=
    (congrArg (fld · 7 4) he).trans ((ex_hi _ (6#3) rfl).trans ((ex_hi _ (w) rfl).trans ((ex_hi _ (p) rfl).trans ((ex_lo _ (0#4) rfl).trans (ex_all _)))))
  have f5_2 : fld v0 5 2 = p :=
    (congrArg (fld · 5 2) he).trans ((ex_hi _ (6#3) rfl).trans ((ex_hi _ (w) rfl).trans ((ex_lo _ (p) rfl).trans (ex_all _))))
  have f3_2 : fld v0 3 2 = w :=
    (congrArg (fld · 3 2) he).trans ((ex_hi _ (6#3) rfl).trans ((ex_lo _ (w) rfl).trans (ex_all _)))
  have f0_3 : fld v0 0 3 = 6#3 :=
    (congrArg (fld · 0 3) he).trans ((ex_lo _ (6#3) rfl).trans (ex_all _))
  rw [family_Bar f26_6, decodeBar]
  simp only [f21_5, f16_5, f11_5, f7_4, f5_2, f3_2, f0_3]
  exact needs_of hw

theorem Encode.tokp (p : BitVec 2) : Encode.Statement (.tokp p) := by
  intro (hw : ((p != 3#2) && (p != 0#2)) = true)
  apply decode_of
  have he : encode (.tokp p) = 0x30#6 ++ 0#5 ++ 0#5 ++ 0#5 ++ 0#4 ++ p ++ 0#2 ++ 0#3 := rfl
  generalize encode (.tokp p) = v0 at he
  have f26_6 : fld v0 26 6 = 48#6 :=
    (congrArg (fld · 26 6) he).trans ((ex_hi _ (0#3) rfl).trans ((ex_hi _ (0#2) rfl).trans ((ex_hi _ (p) rfl).trans ((ex_hi _ (0#4) rfl).trans ((ex_hi _ (0#5) rfl).trans ((ex_hi _ (0#5) rfl).trans ((ex_hi _ (0#5) rfl).trans (ex_all _))))))))
  have f21_5 : fld v0 21 5 = 0#5 :=
    (congrArg (fld · 21 5) he).trans ((ex_hi _ (0#3) rfl).trans ((ex_hi _ (0#2) rfl).trans ((ex_hi _ (p) rfl).trans ((ex_hi _ (0#4) rfl).trans ((ex_hi _ (0#5) rfl).trans ((ex_hi _ (0#5) rfl).trans ((ex_lo _ (0#5) rfl).trans (ex_all _))))))))
  have f16_5 : fld v0 16 5 = 0#5 :=
    (congrArg (fld · 16 5) he).trans ((ex_hi _ (0#3) rfl).trans ((ex_hi _ (0#2) rfl).trans ((ex_hi _ (p) rfl).trans ((ex_hi _ (0#4) rfl).trans ((ex_hi _ (0#5) rfl).trans ((ex_lo _ (0#5) rfl).trans (ex_all _)))))))
  have f11_5 : fld v0 11 5 = 0#5 :=
    (congrArg (fld · 11 5) he).trans ((ex_hi _ (0#3) rfl).trans ((ex_hi _ (0#2) rfl).trans ((ex_hi _ (p) rfl).trans ((ex_hi _ (0#4) rfl).trans ((ex_lo _ (0#5) rfl).trans (ex_all _))))))
  have f7_4 : fld v0 7 4 = 0#4 :=
    (congrArg (fld · 7 4) he).trans ((ex_hi _ (0#3) rfl).trans ((ex_hi _ (0#2) rfl).trans ((ex_hi _ (p) rfl).trans ((ex_lo _ (0#4) rfl).trans (ex_all _)))))
  have f5_2 : fld v0 5 2 = p :=
    (congrArg (fld · 5 2) he).trans ((ex_hi _ (0#3) rfl).trans ((ex_hi _ (0#2) rfl).trans ((ex_lo _ (p) rfl).trans (ex_all _))))
  have f3_2 : fld v0 3 2 = 0#2 :=
    (congrArg (fld · 3 2) he).trans ((ex_hi _ (0#3) rfl).trans ((ex_lo _ (0#2) rfl).trans (ex_all _)))
  have f0_3 : fld v0 0 3 = 0#3 :=
    (congrArg (fld · 0 3) he).trans ((ex_lo _ (0#3) rfl).trans (ex_all _))
  rw [family_Synq f26_6, decodeSynq]
  simp only [f21_5, f16_5, f11_5, f7_4, f5_2, f3_2, f0_3]
  exact needs_of hw

theorem Encode.tokw (w : BitVec 2) : Encode.Statement (.tokw w) := by
  intro (hw : ((w != 3#2) && (w != 0#2)) = true)
  apply decode_of
  have he : encode (.tokw w) = 0x30#6 ++ 0#5 ++ 0#5 ++ 0#5 ++ 0#4 ++ 0#2 ++ w ++ 1#3 := rfl
  generalize encode (.tokw w) = v0 at he
  have f26_6 : fld v0 26 6 = 48#6 :=
    (congrArg (fld · 26 6) he).trans ((ex_hi _ (1#3) rfl).trans ((ex_hi _ (w) rfl).trans ((ex_hi _ (0#2) rfl).trans ((ex_hi _ (0#4) rfl).trans ((ex_hi _ (0#5) rfl).trans ((ex_hi _ (0#5) rfl).trans ((ex_hi _ (0#5) rfl).trans (ex_all _))))))))
  have f21_5 : fld v0 21 5 = 0#5 :=
    (congrArg (fld · 21 5) he).trans ((ex_hi _ (1#3) rfl).trans ((ex_hi _ (w) rfl).trans ((ex_hi _ (0#2) rfl).trans ((ex_hi _ (0#4) rfl).trans ((ex_hi _ (0#5) rfl).trans ((ex_hi _ (0#5) rfl).trans ((ex_lo _ (0#5) rfl).trans (ex_all _))))))))
  have f16_5 : fld v0 16 5 = 0#5 :=
    (congrArg (fld · 16 5) he).trans ((ex_hi _ (1#3) rfl).trans ((ex_hi _ (w) rfl).trans ((ex_hi _ (0#2) rfl).trans ((ex_hi _ (0#4) rfl).trans ((ex_hi _ (0#5) rfl).trans ((ex_lo _ (0#5) rfl).trans (ex_all _)))))))
  have f11_5 : fld v0 11 5 = 0#5 :=
    (congrArg (fld · 11 5) he).trans ((ex_hi _ (1#3) rfl).trans ((ex_hi _ (w) rfl).trans ((ex_hi _ (0#2) rfl).trans ((ex_hi _ (0#4) rfl).trans ((ex_lo _ (0#5) rfl).trans (ex_all _))))))
  have f7_4 : fld v0 7 4 = 0#4 :=
    (congrArg (fld · 7 4) he).trans ((ex_hi _ (1#3) rfl).trans ((ex_hi _ (w) rfl).trans ((ex_hi _ (0#2) rfl).trans ((ex_lo _ (0#4) rfl).trans (ex_all _)))))
  have f5_2 : fld v0 5 2 = 0#2 :=
    (congrArg (fld · 5 2) he).trans ((ex_hi _ (1#3) rfl).trans ((ex_hi _ (w) rfl).trans ((ex_lo _ (0#2) rfl).trans (ex_all _))))
  have f3_2 : fld v0 3 2 = w :=
    (congrArg (fld · 3 2) he).trans ((ex_hi _ (1#3) rfl).trans ((ex_lo _ (w) rfl).trans (ex_all _)))
  have f0_3 : fld v0 0 3 = 1#3 :=
    (congrArg (fld · 0 3) he).trans ((ex_lo _ (1#3) rfl).trans (ex_all _))
  rw [family_Synq f26_6, decodeSynq]
  simp only [f21_5, f16_5, f11_5, f7_4, f5_2, f3_2, f0_3]
  exact needs_of hw

theorem Encode.gset (a : BitVec 5) (g : BitVec 4) : Encode.Statement (.gset a g) := by
  intro (hw : ((g != 0#4)) = true)
  apply decode_of
  have he : encode (.gset a g) = 0x30#6 ++ a ++ 0#5 ++ 0#5 ++ g ++ 0#2 ++ 0#2 ++ 2#3 := rfl
  generalize encode (.gset a g) = v0 at he
  have f26_6 : fld v0 26 6 = 48#6 :=
    (congrArg (fld · 26 6) he).trans ((ex_hi _ (2#3) rfl).trans ((ex_hi _ (0#2) rfl).trans ((ex_hi _ (0#2) rfl).trans ((ex_hi _ (g) rfl).trans ((ex_hi _ (0#5) rfl).trans ((ex_hi _ (0#5) rfl).trans ((ex_hi _ (a) rfl).trans (ex_all _))))))))
  have f21_5 : fld v0 21 5 = a :=
    (congrArg (fld · 21 5) he).trans ((ex_hi _ (2#3) rfl).trans ((ex_hi _ (0#2) rfl).trans ((ex_hi _ (0#2) rfl).trans ((ex_hi _ (g) rfl).trans ((ex_hi _ (0#5) rfl).trans ((ex_hi _ (0#5) rfl).trans ((ex_lo _ (a) rfl).trans (ex_all _))))))))
  have f16_5 : fld v0 16 5 = 0#5 :=
    (congrArg (fld · 16 5) he).trans ((ex_hi _ (2#3) rfl).trans ((ex_hi _ (0#2) rfl).trans ((ex_hi _ (0#2) rfl).trans ((ex_hi _ (g) rfl).trans ((ex_hi _ (0#5) rfl).trans ((ex_lo _ (0#5) rfl).trans (ex_all _)))))))
  have f11_5 : fld v0 11 5 = 0#5 :=
    (congrArg (fld · 11 5) he).trans ((ex_hi _ (2#3) rfl).trans ((ex_hi _ (0#2) rfl).trans ((ex_hi _ (0#2) rfl).trans ((ex_hi _ (g) rfl).trans ((ex_lo _ (0#5) rfl).trans (ex_all _))))))
  have f7_4 : fld v0 7 4 = g :=
    (congrArg (fld · 7 4) he).trans ((ex_hi _ (2#3) rfl).trans ((ex_hi _ (0#2) rfl).trans ((ex_hi _ (0#2) rfl).trans ((ex_lo _ (g) rfl).trans (ex_all _)))))
  have f5_2 : fld v0 5 2 = 0#2 :=
    (congrArg (fld · 5 2) he).trans ((ex_hi _ (2#3) rfl).trans ((ex_hi _ (0#2) rfl).trans ((ex_lo _ (0#2) rfl).trans (ex_all _))))
  have f3_2 : fld v0 3 2 = 0#2 :=
    (congrArg (fld · 3 2) he).trans ((ex_hi _ (2#3) rfl).trans ((ex_lo _ (0#2) rfl).trans (ex_all _)))
  have f0_3 : fld v0 0 3 = 2#3 :=
    (congrArg (fld · 0 3) he).trans ((ex_lo _ (2#3) rfl).trans (ex_all _))
  rw [family_Synq f26_6, decodeSynq]
  simp only [f21_5, f16_5, f11_5, f7_4, f5_2, f3_2, f0_3]
  exact needs_of hw

theorem Encode.grst (g : BitVec 4) : Encode.Statement (.grst g) := by
  intro (hw : ((g != 0#4)) = true)
  apply decode_of
  have he : encode (.grst g) = 0x30#6 ++ 0#5 ++ 0#5 ++ 0#5 ++ g ++ 0#2 ++ 0#2 ++ 3#3 := rfl
  generalize encode (.grst g) = v0 at he
  have f26_6 : fld v0 26 6 = 48#6 :=
    (congrArg (fld · 26 6) he).trans ((ex_hi _ (3#3) rfl).trans ((ex_hi _ (0#2) rfl).trans ((ex_hi _ (0#2) rfl).trans ((ex_hi _ (g) rfl).trans ((ex_hi _ (0#5) rfl).trans ((ex_hi _ (0#5) rfl).trans ((ex_hi _ (0#5) rfl).trans (ex_all _))))))))
  have f21_5 : fld v0 21 5 = 0#5 :=
    (congrArg (fld · 21 5) he).trans ((ex_hi _ (3#3) rfl).trans ((ex_hi _ (0#2) rfl).trans ((ex_hi _ (0#2) rfl).trans ((ex_hi _ (g) rfl).trans ((ex_hi _ (0#5) rfl).trans ((ex_hi _ (0#5) rfl).trans ((ex_lo _ (0#5) rfl).trans (ex_all _))))))))
  have f16_5 : fld v0 16 5 = 0#5 :=
    (congrArg (fld · 16 5) he).trans ((ex_hi _ (3#3) rfl).trans ((ex_hi _ (0#2) rfl).trans ((ex_hi _ (0#2) rfl).trans ((ex_hi _ (g) rfl).trans ((ex_hi _ (0#5) rfl).trans ((ex_lo _ (0#5) rfl).trans (ex_all _)))))))
  have f11_5 : fld v0 11 5 = 0#5 :=
    (congrArg (fld · 11 5) he).trans ((ex_hi _ (3#3) rfl).trans ((ex_hi _ (0#2) rfl).trans ((ex_hi _ (0#2) rfl).trans ((ex_hi _ (g) rfl).trans ((ex_lo _ (0#5) rfl).trans (ex_all _))))))
  have f7_4 : fld v0 7 4 = g :=
    (congrArg (fld · 7 4) he).trans ((ex_hi _ (3#3) rfl).trans ((ex_hi _ (0#2) rfl).trans ((ex_hi _ (0#2) rfl).trans ((ex_lo _ (g) rfl).trans (ex_all _)))))
  have f5_2 : fld v0 5 2 = 0#2 :=
    (congrArg (fld · 5 2) he).trans ((ex_hi _ (3#3) rfl).trans ((ex_hi _ (0#2) rfl).trans ((ex_lo _ (0#2) rfl).trans (ex_all _))))
  have f3_2 : fld v0 3 2 = 0#2 :=
    (congrArg (fld · 3 2) he).trans ((ex_hi _ (3#3) rfl).trans ((ex_lo _ (0#2) rfl).trans (ex_all _)))
  have f0_3 : fld v0 0 3 = 3#3 :=
    (congrArg (fld · 0 3) he).trans ((ex_lo _ (3#3) rfl).trans (ex_all _))
  rw [family_Synq f26_6, decodeSynq]
  simp only [f21_5, f16_5, f11_5, f7_4, f5_2, f3_2, f0_3]
  exact needs_of hw

theorem Encode.msend (a : BitVec 5) (g : BitVec 4) (p : BitVec 2) (w : BitVec 2) : Encode.Statement (.msend a g p w) := by
  intro (hw : ((p != 3#2) && (w != 3#2)) = true)
  apply decode_of
  have he : encode (.msend a g p w) = 0x31#6 ++ a ++ 0#5 ++ 0#5 ++ g ++ p ++ w ++ 0#3 := rfl
  generalize encode (.msend a g p w) = v0 at he
  have f26_6 : fld v0 26 6 = 49#6 :=
    (congrArg (fld · 26 6) he).trans ((ex_hi _ (0#3) rfl).trans ((ex_hi _ (w) rfl).trans ((ex_hi _ (p) rfl).trans ((ex_hi _ (g) rfl).trans ((ex_hi _ (0#5) rfl).trans ((ex_hi _ (0#5) rfl).trans ((ex_hi _ (a) rfl).trans (ex_all _))))))))
  have f21_5 : fld v0 21 5 = a :=
    (congrArg (fld · 21 5) he).trans ((ex_hi _ (0#3) rfl).trans ((ex_hi _ (w) rfl).trans ((ex_hi _ (p) rfl).trans ((ex_hi _ (g) rfl).trans ((ex_hi _ (0#5) rfl).trans ((ex_hi _ (0#5) rfl).trans ((ex_lo _ (a) rfl).trans (ex_all _))))))))
  have f16_5 : fld v0 16 5 = 0#5 :=
    (congrArg (fld · 16 5) he).trans ((ex_hi _ (0#3) rfl).trans ((ex_hi _ (w) rfl).trans ((ex_hi _ (p) rfl).trans ((ex_hi _ (g) rfl).trans ((ex_hi _ (0#5) rfl).trans ((ex_lo _ (0#5) rfl).trans (ex_all _)))))))
  have f11_5 : fld v0 11 5 = 0#5 :=
    (congrArg (fld · 11 5) he).trans ((ex_hi _ (0#3) rfl).trans ((ex_hi _ (w) rfl).trans ((ex_hi _ (p) rfl).trans ((ex_hi _ (g) rfl).trans ((ex_lo _ (0#5) rfl).trans (ex_all _))))))
  have f7_4 : fld v0 7 4 = g :=
    (congrArg (fld · 7 4) he).trans ((ex_hi _ (0#3) rfl).trans ((ex_hi _ (w) rfl).trans ((ex_hi _ (p) rfl).trans ((ex_lo _ (g) rfl).trans (ex_all _)))))
  have f5_2 : fld v0 5 2 = p :=
    (congrArg (fld · 5 2) he).trans ((ex_hi _ (0#3) rfl).trans ((ex_hi _ (w) rfl).trans ((ex_lo _ (p) rfl).trans (ex_all _))))
  have f3_2 : fld v0 3 2 = w :=
    (congrArg (fld · 3 2) he).trans ((ex_hi _ (0#3) rfl).trans ((ex_lo _ (w) rfl).trans (ex_all _)))
  have f0_3 : fld v0 0 3 = 0#3 :=
    (congrArg (fld · 0 3) he).trans ((ex_lo _ (0#3) rfl).trans (ex_all _))
  rw [family_Msg f26_6, decodeMsg]
  simp only [f21_5, f16_5, f11_5, f7_4, f5_2, f3_2, f0_3]
  exact needs_of hw

theorem Encode.tsend (a : BitVec 5) (b : BitVec 5) (g : BitVec 4) (p : BitVec 2) (w : BitVec 2) : Encode.Statement (.tsend a b g p w) := by
  intro (hw : ((p != 3#2) && (w != 3#2)) = true)
  apply decode_of
  have he : encode (.tsend a b g p w) = 0x31#6 ++ a ++ b ++ 0#5 ++ g ++ p ++ w ++ 1#3 := rfl
  generalize encode (.tsend a b g p w) = v0 at he
  have f26_6 : fld v0 26 6 = 49#6 :=
    (congrArg (fld · 26 6) he).trans ((ex_hi _ (1#3) rfl).trans ((ex_hi _ (w) rfl).trans ((ex_hi _ (p) rfl).trans ((ex_hi _ (g) rfl).trans ((ex_hi _ (0#5) rfl).trans ((ex_hi _ (b) rfl).trans ((ex_hi _ (a) rfl).trans (ex_all _))))))))
  have f21_5 : fld v0 21 5 = a :=
    (congrArg (fld · 21 5) he).trans ((ex_hi _ (1#3) rfl).trans ((ex_hi _ (w) rfl).trans ((ex_hi _ (p) rfl).trans ((ex_hi _ (g) rfl).trans ((ex_hi _ (0#5) rfl).trans ((ex_hi _ (b) rfl).trans ((ex_lo _ (a) rfl).trans (ex_all _))))))))
  have f16_5 : fld v0 16 5 = b :=
    (congrArg (fld · 16 5) he).trans ((ex_hi _ (1#3) rfl).trans ((ex_hi _ (w) rfl).trans ((ex_hi _ (p) rfl).trans ((ex_hi _ (g) rfl).trans ((ex_hi _ (0#5) rfl).trans ((ex_lo _ (b) rfl).trans (ex_all _)))))))
  have f11_5 : fld v0 11 5 = 0#5 :=
    (congrArg (fld · 11 5) he).trans ((ex_hi _ (1#3) rfl).trans ((ex_hi _ (w) rfl).trans ((ex_hi _ (p) rfl).trans ((ex_hi _ (g) rfl).trans ((ex_lo _ (0#5) rfl).trans (ex_all _))))))
  have f7_4 : fld v0 7 4 = g :=
    (congrArg (fld · 7 4) he).trans ((ex_hi _ (1#3) rfl).trans ((ex_hi _ (w) rfl).trans ((ex_hi _ (p) rfl).trans ((ex_lo _ (g) rfl).trans (ex_all _)))))
  have f5_2 : fld v0 5 2 = p :=
    (congrArg (fld · 5 2) he).trans ((ex_hi _ (1#3) rfl).trans ((ex_hi _ (w) rfl).trans ((ex_lo _ (p) rfl).trans (ex_all _))))
  have f3_2 : fld v0 3 2 = w :=
    (congrArg (fld · 3 2) he).trans ((ex_hi _ (1#3) rfl).trans ((ex_lo _ (w) rfl).trans (ex_all _)))
  have f0_3 : fld v0 0 3 = 1#3 :=
    (congrArg (fld · 0 3) he).trans ((ex_lo _ (1#3) rfl).trans (ex_all _))
  rw [family_Msg f26_6, decodeMsg]
  simp only [f21_5, f16_5, f11_5, f7_4, f5_2, f3_2, f0_3]
  exact needs_of hw

theorem Encode.tsendAdd (a : BitVec 5) (b : BitVec 5) (g : BitVec 4) (p : BitVec 2) (w : BitVec 2) : Encode.Statement (.tsendAdd a b g p w) := by
  intro (hw : ((p != 3#2) && (w != 3#2)) = true)
  apply decode_of
  have he : encode (.tsendAdd a b g p w) = 0x31#6 ++ a ++ b ++ 0#5 ++ g ++ p ++ w ++ 2#3 := rfl
  generalize encode (.tsendAdd a b g p w) = v0 at he
  have f26_6 : fld v0 26 6 = 49#6 :=
    (congrArg (fld · 26 6) he).trans ((ex_hi _ (2#3) rfl).trans ((ex_hi _ (w) rfl).trans ((ex_hi _ (p) rfl).trans ((ex_hi _ (g) rfl).trans ((ex_hi _ (0#5) rfl).trans ((ex_hi _ (b) rfl).trans ((ex_hi _ (a) rfl).trans (ex_all _))))))))
  have f21_5 : fld v0 21 5 = a :=
    (congrArg (fld · 21 5) he).trans ((ex_hi _ (2#3) rfl).trans ((ex_hi _ (w) rfl).trans ((ex_hi _ (p) rfl).trans ((ex_hi _ (g) rfl).trans ((ex_hi _ (0#5) rfl).trans ((ex_hi _ (b) rfl).trans ((ex_lo _ (a) rfl).trans (ex_all _))))))))
  have f16_5 : fld v0 16 5 = b :=
    (congrArg (fld · 16 5) he).trans ((ex_hi _ (2#3) rfl).trans ((ex_hi _ (w) rfl).trans ((ex_hi _ (p) rfl).trans ((ex_hi _ (g) rfl).trans ((ex_hi _ (0#5) rfl).trans ((ex_lo _ (b) rfl).trans (ex_all _)))))))
  have f11_5 : fld v0 11 5 = 0#5 :=
    (congrArg (fld · 11 5) he).trans ((ex_hi _ (2#3) rfl).trans ((ex_hi _ (w) rfl).trans ((ex_hi _ (p) rfl).trans ((ex_hi _ (g) rfl).trans ((ex_lo _ (0#5) rfl).trans (ex_all _))))))
  have f7_4 : fld v0 7 4 = g :=
    (congrArg (fld · 7 4) he).trans ((ex_hi _ (2#3) rfl).trans ((ex_hi _ (w) rfl).trans ((ex_hi _ (p) rfl).trans ((ex_lo _ (g) rfl).trans (ex_all _)))))
  have f5_2 : fld v0 5 2 = p :=
    (congrArg (fld · 5 2) he).trans ((ex_hi _ (2#3) rfl).trans ((ex_hi _ (w) rfl).trans ((ex_lo _ (p) rfl).trans (ex_all _))))
  have f3_2 : fld v0 3 2 = w :=
    (congrArg (fld · 3 2) he).trans ((ex_hi _ (2#3) rfl).trans ((ex_lo _ (w) rfl).trans (ex_all _)))
  have f0_3 : fld v0 0 3 = 2#3 :=
    (congrArg (fld · 0 3) he).trans ((ex_lo _ (2#3) rfl).trans (ex_all _))
  rw [family_Msg f26_6, decodeMsg]
  simp only [f21_5, f16_5, f11_5, f7_4, f5_2, f3_2, f0_3]
  exact needs_of hw

theorem Encode.rpost (a : BitVec 5) (b : BitVec 5) (p : BitVec 2) (w : BitVec 2) : Encode.Statement (.rpost a b p w) := by
  intro (hw : ((p != 3#2) && (w != 3#2)) = true)
  apply decode_of
  have he : encode (.rpost a b p w) = 0x31#6 ++ a ++ b ++ 0#5 ++ 0#4 ++ p ++ w ++ 3#3 := rfl
  generalize encode (.rpost a b p w) = v0 at he
  have f26_6 : fld v0 26 6 = 49#6 :=
    (congrArg (fld · 26 6) he).trans ((ex_hi _ (3#3) rfl).trans ((ex_hi _ (w) rfl).trans ((ex_hi _ (p) rfl).trans ((ex_hi _ (0#4) rfl).trans ((ex_hi _ (0#5) rfl).trans ((ex_hi _ (b) rfl).trans ((ex_hi _ (a) rfl).trans (ex_all _))))))))
  have f21_5 : fld v0 21 5 = a :=
    (congrArg (fld · 21 5) he).trans ((ex_hi _ (3#3) rfl).trans ((ex_hi _ (w) rfl).trans ((ex_hi _ (p) rfl).trans ((ex_hi _ (0#4) rfl).trans ((ex_hi _ (0#5) rfl).trans ((ex_hi _ (b) rfl).trans ((ex_lo _ (a) rfl).trans (ex_all _))))))))
  have f16_5 : fld v0 16 5 = b :=
    (congrArg (fld · 16 5) he).trans ((ex_hi _ (3#3) rfl).trans ((ex_hi _ (w) rfl).trans ((ex_hi _ (p) rfl).trans ((ex_hi _ (0#4) rfl).trans ((ex_hi _ (0#5) rfl).trans ((ex_lo _ (b) rfl).trans (ex_all _)))))))
  have f11_5 : fld v0 11 5 = 0#5 :=
    (congrArg (fld · 11 5) he).trans ((ex_hi _ (3#3) rfl).trans ((ex_hi _ (w) rfl).trans ((ex_hi _ (p) rfl).trans ((ex_hi _ (0#4) rfl).trans ((ex_lo _ (0#5) rfl).trans (ex_all _))))))
  have f7_4 : fld v0 7 4 = 0#4 :=
    (congrArg (fld · 7 4) he).trans ((ex_hi _ (3#3) rfl).trans ((ex_hi _ (w) rfl).trans ((ex_hi _ (p) rfl).trans ((ex_lo _ (0#4) rfl).trans (ex_all _)))))
  have f5_2 : fld v0 5 2 = p :=
    (congrArg (fld · 5 2) he).trans ((ex_hi _ (3#3) rfl).trans ((ex_hi _ (w) rfl).trans ((ex_lo _ (p) rfl).trans (ex_all _))))
  have f3_2 : fld v0 3 2 = w :=
    (congrArg (fld · 3 2) he).trans ((ex_hi _ (3#3) rfl).trans ((ex_lo _ (w) rfl).trans (ex_all _)))
  have f0_3 : fld v0 0 3 = 3#3 :=
    (congrArg (fld · 0 3) he).trans ((ex_lo _ (3#3) rfl).trans (ex_all _))
  rw [family_Msg f26_6, decodeMsg]
  simp only [f21_5, f16_5, f11_5, f7_4, f5_2, f3_2, f0_3]
  exact needs_of hw

theorem Encode.rpostm (a : BitVec 5) (b : BitVec 5) (c : BitVec 5) (p : BitVec 2) (w : BitVec 2) : Encode.Statement (.rpostm a b c p w) := by
  intro (hw : ((p != 3#2) && (w != 3#2)) = true)
  apply decode_of
  have he : encode (.rpostm a b c p w) = 0x31#6 ++ a ++ b ++ c ++ 0#4 ++ p ++ w ++ 4#3 := rfl
  generalize encode (.rpostm a b c p w) = v0 at he
  have f26_6 : fld v0 26 6 = 49#6 :=
    (congrArg (fld · 26 6) he).trans ((ex_hi _ (4#3) rfl).trans ((ex_hi _ (w) rfl).trans ((ex_hi _ (p) rfl).trans ((ex_hi _ (0#4) rfl).trans ((ex_hi _ (c) rfl).trans ((ex_hi _ (b) rfl).trans ((ex_hi _ (a) rfl).trans (ex_all _))))))))
  have f21_5 : fld v0 21 5 = a :=
    (congrArg (fld · 21 5) he).trans ((ex_hi _ (4#3) rfl).trans ((ex_hi _ (w) rfl).trans ((ex_hi _ (p) rfl).trans ((ex_hi _ (0#4) rfl).trans ((ex_hi _ (c) rfl).trans ((ex_hi _ (b) rfl).trans ((ex_lo _ (a) rfl).trans (ex_all _))))))))
  have f16_5 : fld v0 16 5 = b :=
    (congrArg (fld · 16 5) he).trans ((ex_hi _ (4#3) rfl).trans ((ex_hi _ (w) rfl).trans ((ex_hi _ (p) rfl).trans ((ex_hi _ (0#4) rfl).trans ((ex_hi _ (c) rfl).trans ((ex_lo _ (b) rfl).trans (ex_all _)))))))
  have f11_5 : fld v0 11 5 = c :=
    (congrArg (fld · 11 5) he).trans ((ex_hi _ (4#3) rfl).trans ((ex_hi _ (w) rfl).trans ((ex_hi _ (p) rfl).trans ((ex_hi _ (0#4) rfl).trans ((ex_lo _ (c) rfl).trans (ex_all _))))))
  have f7_4 : fld v0 7 4 = 0#4 :=
    (congrArg (fld · 7 4) he).trans ((ex_hi _ (4#3) rfl).trans ((ex_hi _ (w) rfl).trans ((ex_hi _ (p) rfl).trans ((ex_lo _ (0#4) rfl).trans (ex_all _)))))
  have f5_2 : fld v0 5 2 = p :=
    (congrArg (fld · 5 2) he).trans ((ex_hi _ (4#3) rfl).trans ((ex_hi _ (w) rfl).trans ((ex_lo _ (p) rfl).trans (ex_all _))))
  have f3_2 : fld v0 3 2 = w :=
    (congrArg (fld · 3 2) he).trans ((ex_hi _ (4#3) rfl).trans ((ex_lo _ (w) rfl).trans (ex_all _)))
  have f0_3 : fld v0 0 3 = 4#3 :=
    (congrArg (fld · 0 3) he).trans ((ex_lo _ (4#3) rfl).trans (ex_all _))
  rw [family_Msg f26_6, decodeMsg]
  simp only [f21_5, f16_5, f11_5, f7_4, f5_2, f3_2, f0_3]
  exact needs_of hw

theorem Encode.rcancel (a : BitVec 5) (b : BitVec 5) (p : BitVec 2) (w : BitVec 2) : Encode.Statement (.rcancel a b p w) := by
  intro (hw : ((p != 3#2) && (w != 3#2)) = true)
  apply decode_of
  have he : encode (.rcancel a b p w) = 0x31#6 ++ a ++ b ++ 0#5 ++ 0#4 ++ p ++ w ++ 5#3 := rfl
  generalize encode (.rcancel a b p w) = v0 at he
  have f26_6 : fld v0 26 6 = 49#6 :=
    (congrArg (fld · 26 6) he).trans ((ex_hi _ (5#3) rfl).trans ((ex_hi _ (w) rfl).trans ((ex_hi _ (p) rfl).trans ((ex_hi _ (0#4) rfl).trans ((ex_hi _ (0#5) rfl).trans ((ex_hi _ (b) rfl).trans ((ex_hi _ (a) rfl).trans (ex_all _))))))))
  have f21_5 : fld v0 21 5 = a :=
    (congrArg (fld · 21 5) he).trans ((ex_hi _ (5#3) rfl).trans ((ex_hi _ (w) rfl).trans ((ex_hi _ (p) rfl).trans ((ex_hi _ (0#4) rfl).trans ((ex_hi _ (0#5) rfl).trans ((ex_hi _ (b) rfl).trans ((ex_lo _ (a) rfl).trans (ex_all _))))))))
  have f16_5 : fld v0 16 5 = b :=
    (congrArg (fld · 16 5) he).trans ((ex_hi _ (5#3) rfl).trans ((ex_hi _ (w) rfl).trans ((ex_hi _ (p) rfl).trans ((ex_hi _ (0#4) rfl).trans ((ex_hi _ (0#5) rfl).trans ((ex_lo _ (b) rfl).trans (ex_all _)))))))
  have f11_5 : fld v0 11 5 = 0#5 :=
    (congrArg (fld · 11 5) he).trans ((ex_hi _ (5#3) rfl).trans ((ex_hi _ (w) rfl).trans ((ex_hi _ (p) rfl).trans ((ex_hi _ (0#4) rfl).trans ((ex_lo _ (0#5) rfl).trans (ex_all _))))))
  have f7_4 : fld v0 7 4 = 0#4 :=
    (congrArg (fld · 7 4) he).trans ((ex_hi _ (5#3) rfl).trans ((ex_hi _ (w) rfl).trans ((ex_hi _ (p) rfl).trans ((ex_lo _ (0#4) rfl).trans (ex_all _)))))
  have f5_2 : fld v0 5 2 = p :=
    (congrArg (fld · 5 2) he).trans ((ex_hi _ (5#3) rfl).trans ((ex_hi _ (w) rfl).trans ((ex_lo _ (p) rfl).trans (ex_all _))))
  have f3_2 : fld v0 3 2 = w :=
    (congrArg (fld · 3 2) he).trans ((ex_hi _ (5#3) rfl).trans ((ex_lo _ (w) rfl).trans (ex_all _)))
  have f0_3 : fld v0 0 3 = 5#3 :=
    (congrArg (fld · 0 3) he).trans ((ex_lo _ (5#3) rfl).trans (ex_all _))
  rw [family_Msg f26_6, decodeMsg]
  simp only [f21_5, f16_5, f11_5, f7_4, f5_2, f3_2, f0_3]
  exact needs_of hw

theorem Encode.rprobe (a : BitVec 5) (b : BitVec 5) (c : BitVec 5) (p : BitVec 2) (w : BitVec 2) : Encode.Statement (.rprobe a b c p w) := by
  intro (hw : ((p != 3#2) && (w != 3#2)) = true)
  apply decode_of
  have he : encode (.rprobe a b c p w) = 0x31#6 ++ a ++ b ++ c ++ 0#4 ++ p ++ w ++ 6#3 := rfl
  generalize encode (.rprobe a b c p w) = v0 at he
  have f26_6 : fld v0 26 6 = 49#6 :=
    (congrArg (fld · 26 6) he).trans ((ex_hi _ (6#3) rfl).trans ((ex_hi _ (w) rfl).trans ((ex_hi _ (p) rfl).trans ((ex_hi _ (0#4) rfl).trans ((ex_hi _ (c) rfl).trans ((ex_hi _ (b) rfl).trans ((ex_hi _ (a) rfl).trans (ex_all _))))))))
  have f21_5 : fld v0 21 5 = a :=
    (congrArg (fld · 21 5) he).trans ((ex_hi _ (6#3) rfl).trans ((ex_hi _ (w) rfl).trans ((ex_hi _ (p) rfl).trans ((ex_hi _ (0#4) rfl).trans ((ex_hi _ (c) rfl).trans ((ex_hi _ (b) rfl).trans ((ex_lo _ (a) rfl).trans (ex_all _))))))))
  have f16_5 : fld v0 16 5 = b :=
    (congrArg (fld · 16 5) he).trans ((ex_hi _ (6#3) rfl).trans ((ex_hi _ (w) rfl).trans ((ex_hi _ (p) rfl).trans ((ex_hi _ (0#4) rfl).trans ((ex_hi _ (c) rfl).trans ((ex_lo _ (b) rfl).trans (ex_all _)))))))
  have f11_5 : fld v0 11 5 = c :=
    (congrArg (fld · 11 5) he).trans ((ex_hi _ (6#3) rfl).trans ((ex_hi _ (w) rfl).trans ((ex_hi _ (p) rfl).trans ((ex_hi _ (0#4) rfl).trans ((ex_lo _ (c) rfl).trans (ex_all _))))))
  have f7_4 : fld v0 7 4 = 0#4 :=
    (congrArg (fld · 7 4) he).trans ((ex_hi _ (6#3) rfl).trans ((ex_hi _ (w) rfl).trans ((ex_hi _ (p) rfl).trans ((ex_lo _ (0#4) rfl).trans (ex_all _)))))
  have f5_2 : fld v0 5 2 = p :=
    (congrArg (fld · 5 2) he).trans ((ex_hi _ (6#3) rfl).trans ((ex_hi _ (w) rfl).trans ((ex_lo _ (p) rfl).trans (ex_all _))))
  have f3_2 : fld v0 3 2 = w :=
    (congrArg (fld · 3 2) he).trans ((ex_hi _ (6#3) rfl).trans ((ex_lo _ (w) rfl).trans (ex_all _)))
  have f0_3 : fld v0 0 3 = 6#3 :=
    (congrArg (fld · 0 3) he).trans ((ex_lo _ (6#3) rfl).trans (ex_all _))
  rw [family_Msg f26_6, decodeMsg]
  simp only [f21_5, f16_5, f11_5, f7_4, f5_2, f3_2, f0_3]
  exact needs_of hw

theorem Encode.swp (a : BitVec 5) (b : BitVec 5) (p : BitVec 2) (w : BitVec 2) : Encode.Statement (.swp a b p w) := by
  intro (hw : ((p != 3#2) && (w != 3#2)) = true)
  apply decode_of
  have he : encode (.swp a b p w) = 0x32#6 ++ a ++ b ++ 0#5 ++ 0#4 ++ p ++ w ++ 0#3 := rfl
  generalize encode (.swp a b p w) = v0 at he
  have f26_6 : fld v0 26 6 = 50#6 :=
    (congrArg (fld · 26 6) he).trans ((ex_hi _ (0#3) rfl).trans ((ex_hi _ (w) rfl).trans ((ex_hi _ (p) rfl).trans ((ex_hi _ (0#4) rfl).trans ((ex_hi _ (0#5) rfl).trans ((ex_hi _ (b) rfl).trans ((ex_hi _ (a) rfl).trans (ex_all _))))))))
  have f21_5 : fld v0 21 5 = a :=
    (congrArg (fld · 21 5) he).trans ((ex_hi _ (0#3) rfl).trans ((ex_hi _ (w) rfl).trans ((ex_hi _ (p) rfl).trans ((ex_hi _ (0#4) rfl).trans ((ex_hi _ (0#5) rfl).trans ((ex_hi _ (b) rfl).trans ((ex_lo _ (a) rfl).trans (ex_all _))))))))
  have f16_5 : fld v0 16 5 = b :=
    (congrArg (fld · 16 5) he).trans ((ex_hi _ (0#3) rfl).trans ((ex_hi _ (w) rfl).trans ((ex_hi _ (p) rfl).trans ((ex_hi _ (0#4) rfl).trans ((ex_hi _ (0#5) rfl).trans ((ex_lo _ (b) rfl).trans (ex_all _)))))))
  have f11_5 : fld v0 11 5 = 0#5 :=
    (congrArg (fld · 11 5) he).trans ((ex_hi _ (0#3) rfl).trans ((ex_hi _ (w) rfl).trans ((ex_hi _ (p) rfl).trans ((ex_hi _ (0#4) rfl).trans ((ex_lo _ (0#5) rfl).trans (ex_all _))))))
  have f7_4 : fld v0 7 4 = 0#4 :=
    (congrArg (fld · 7 4) he).trans ((ex_hi _ (0#3) rfl).trans ((ex_hi _ (w) rfl).trans ((ex_hi _ (p) rfl).trans ((ex_lo _ (0#4) rfl).trans (ex_all _)))))
  have f5_2 : fld v0 5 2 = p :=
    (congrArg (fld · 5 2) he).trans ((ex_hi _ (0#3) rfl).trans ((ex_hi _ (w) rfl).trans ((ex_lo _ (p) rfl).trans (ex_all _))))
  have f3_2 : fld v0 3 2 = w :=
    (congrArg (fld · 3 2) he).trans ((ex_hi _ (0#3) rfl).trans ((ex_lo _ (w) rfl).trans (ex_all _)))
  have f0_3 : fld v0 0 3 = 0#3 :=
    (congrArg (fld · 0 3) he).trans ((ex_lo _ (0#3) rfl).trans (ex_all _))
  rw [family_Swp f26_6, decodeSwp]
  simp only [f21_5, f16_5, f11_5, f7_4, f5_2, f3_2, f0_3]
  exact needs_of hw

theorem Encode.swnext (p : BitVec 2) (w : BitVec 2) : Encode.Statement (.swnext p w) := by
  intro (hw : ((p != 3#2) && (w != 3#2)) = true)
  apply decode_of
  have he : encode (.swnext p w) = 0x32#6 ++ 0#5 ++ 0#5 ++ 0#5 ++ 0#4 ++ p ++ w ++ 1#3 := rfl
  generalize encode (.swnext p w) = v0 at he
  have f26_6 : fld v0 26 6 = 50#6 :=
    (congrArg (fld · 26 6) he).trans ((ex_hi _ (1#3) rfl).trans ((ex_hi _ (w) rfl).trans ((ex_hi _ (p) rfl).trans ((ex_hi _ (0#4) rfl).trans ((ex_hi _ (0#5) rfl).trans ((ex_hi _ (0#5) rfl).trans ((ex_hi _ (0#5) rfl).trans (ex_all _))))))))
  have f21_5 : fld v0 21 5 = 0#5 :=
    (congrArg (fld · 21 5) he).trans ((ex_hi _ (1#3) rfl).trans ((ex_hi _ (w) rfl).trans ((ex_hi _ (p) rfl).trans ((ex_hi _ (0#4) rfl).trans ((ex_hi _ (0#5) rfl).trans ((ex_hi _ (0#5) rfl).trans ((ex_lo _ (0#5) rfl).trans (ex_all _))))))))
  have f16_5 : fld v0 16 5 = 0#5 :=
    (congrArg (fld · 16 5) he).trans ((ex_hi _ (1#3) rfl).trans ((ex_hi _ (w) rfl).trans ((ex_hi _ (p) rfl).trans ((ex_hi _ (0#4) rfl).trans ((ex_hi _ (0#5) rfl).trans ((ex_lo _ (0#5) rfl).trans (ex_all _)))))))
  have f11_5 : fld v0 11 5 = 0#5 :=
    (congrArg (fld · 11 5) he).trans ((ex_hi _ (1#3) rfl).trans ((ex_hi _ (w) rfl).trans ((ex_hi _ (p) rfl).trans ((ex_hi _ (0#4) rfl).trans ((ex_lo _ (0#5) rfl).trans (ex_all _))))))
  have f7_4 : fld v0 7 4 = 0#4 :=
    (congrArg (fld · 7 4) he).trans ((ex_hi _ (1#3) rfl).trans ((ex_hi _ (w) rfl).trans ((ex_hi _ (p) rfl).trans ((ex_lo _ (0#4) rfl).trans (ex_all _)))))
  have f5_2 : fld v0 5 2 = p :=
    (congrArg (fld · 5 2) he).trans ((ex_hi _ (1#3) rfl).trans ((ex_hi _ (w) rfl).trans ((ex_lo _ (p) rfl).trans (ex_all _))))
  have f3_2 : fld v0 3 2 = w :=
    (congrArg (fld · 3 2) he).trans ((ex_hi _ (1#3) rfl).trans ((ex_lo _ (w) rfl).trans (ex_all _)))
  have f0_3 : fld v0 0 3 = 1#3 :=
    (congrArg (fld · 0 3) he).trans ((ex_lo _ (1#3) rfl).trans (ex_all _))
  rw [family_Swp f26_6, decodeSwp]
  simp only [f21_5, f16_5, f11_5, f7_4, f5_2, f3_2, f0_3]
  exact needs_of hw

theorem Encode.swexit (p : BitVec 2) (w : BitVec 2) : Encode.Statement (.swexit p w) := by
  intro (hw : ((p != 3#2) && (w != 3#2)) = true)
  apply decode_of
  have he : encode (.swexit p w) = 0x32#6 ++ 0#5 ++ 0#5 ++ 0#5 ++ 0#4 ++ p ++ w ++ 2#3 := rfl
  generalize encode (.swexit p w) = v0 at he
  have f26_6 : fld v0 26 6 = 50#6 :=
    (congrArg (fld · 26 6) he).trans ((ex_hi _ (2#3) rfl).trans ((ex_hi _ (w) rfl).trans ((ex_hi _ (p) rfl).trans ((ex_hi _ (0#4) rfl).trans ((ex_hi _ (0#5) rfl).trans ((ex_hi _ (0#5) rfl).trans ((ex_hi _ (0#5) rfl).trans (ex_all _))))))))
  have f21_5 : fld v0 21 5 = 0#5 :=
    (congrArg (fld · 21 5) he).trans ((ex_hi _ (2#3) rfl).trans ((ex_hi _ (w) rfl).trans ((ex_hi _ (p) rfl).trans ((ex_hi _ (0#4) rfl).trans ((ex_hi _ (0#5) rfl).trans ((ex_hi _ (0#5) rfl).trans ((ex_lo _ (0#5) rfl).trans (ex_all _))))))))
  have f16_5 : fld v0 16 5 = 0#5 :=
    (congrArg (fld · 16 5) he).trans ((ex_hi _ (2#3) rfl).trans ((ex_hi _ (w) rfl).trans ((ex_hi _ (p) rfl).trans ((ex_hi _ (0#4) rfl).trans ((ex_hi _ (0#5) rfl).trans ((ex_lo _ (0#5) rfl).trans (ex_all _)))))))
  have f11_5 : fld v0 11 5 = 0#5 :=
    (congrArg (fld · 11 5) he).trans ((ex_hi _ (2#3) rfl).trans ((ex_hi _ (w) rfl).trans ((ex_hi _ (p) rfl).trans ((ex_hi _ (0#4) rfl).trans ((ex_lo _ (0#5) rfl).trans (ex_all _))))))
  have f7_4 : fld v0 7 4 = 0#4 :=
    (congrArg (fld · 7 4) he).trans ((ex_hi _ (2#3) rfl).trans ((ex_hi _ (w) rfl).trans ((ex_hi _ (p) rfl).trans ((ex_lo _ (0#4) rfl).trans (ex_all _)))))
  have f5_2 : fld v0 5 2 = p :=
    (congrArg (fld · 5 2) he).trans ((ex_hi _ (2#3) rfl).trans ((ex_hi _ (w) rfl).trans ((ex_lo _ (p) rfl).trans (ex_all _))))
  have f3_2 : fld v0 3 2 = w :=
    (congrArg (fld · 3 2) he).trans ((ex_hi _ (2#3) rfl).trans ((ex_lo _ (w) rfl).trans (ex_all _)))
  have f0_3 : fld v0 0 3 = 2#3 :=
    (congrArg (fld · 0 3) he).trans ((ex_lo _ (2#3) rfl).trans (ex_all _))
  rw [family_Swp f26_6, decodeSwp]
  simp only [f21_5, f16_5, f11_5, f7_4, f5_2, f3_2, f0_3]
  exact needs_of hw

theorem Encode.swake (a : BitVec 5) (b : BitVec 5) (p : BitVec 2) (w : BitVec 2) : Encode.Statement (.swake a b p w) := by
  intro (hw : ((p != 3#2) && (w != 3#2)) = true)
  apply decode_of
  have he : encode (.swake a b p w) = 0x32#6 ++ a ++ b ++ 0#5 ++ 0#4 ++ p ++ w ++ 3#3 := rfl
  generalize encode (.swake a b p w) = v0 at he
  have f26_6 : fld v0 26 6 = 50#6 :=
    (congrArg (fld · 26 6) he).trans ((ex_hi _ (3#3) rfl).trans ((ex_hi _ (w) rfl).trans ((ex_hi _ (p) rfl).trans ((ex_hi _ (0#4) rfl).trans ((ex_hi _ (0#5) rfl).trans ((ex_hi _ (b) rfl).trans ((ex_hi _ (a) rfl).trans (ex_all _))))))))
  have f21_5 : fld v0 21 5 = a :=
    (congrArg (fld · 21 5) he).trans ((ex_hi _ (3#3) rfl).trans ((ex_hi _ (w) rfl).trans ((ex_hi _ (p) rfl).trans ((ex_hi _ (0#4) rfl).trans ((ex_hi _ (0#5) rfl).trans ((ex_hi _ (b) rfl).trans ((ex_lo _ (a) rfl).trans (ex_all _))))))))
  have f16_5 : fld v0 16 5 = b :=
    (congrArg (fld · 16 5) he).trans ((ex_hi _ (3#3) rfl).trans ((ex_hi _ (w) rfl).trans ((ex_hi _ (p) rfl).trans ((ex_hi _ (0#4) rfl).trans ((ex_hi _ (0#5) rfl).trans ((ex_lo _ (b) rfl).trans (ex_all _)))))))
  have f11_5 : fld v0 11 5 = 0#5 :=
    (congrArg (fld · 11 5) he).trans ((ex_hi _ (3#3) rfl).trans ((ex_hi _ (w) rfl).trans ((ex_hi _ (p) rfl).trans ((ex_hi _ (0#4) rfl).trans ((ex_lo _ (0#5) rfl).trans (ex_all _))))))
  have f7_4 : fld v0 7 4 = 0#4 :=
    (congrArg (fld · 7 4) he).trans ((ex_hi _ (3#3) rfl).trans ((ex_hi _ (w) rfl).trans ((ex_hi _ (p) rfl).trans ((ex_lo _ (0#4) rfl).trans (ex_all _)))))
  have f5_2 : fld v0 5 2 = p :=
    (congrArg (fld · 5 2) he).trans ((ex_hi _ (3#3) rfl).trans ((ex_hi _ (w) rfl).trans ((ex_lo _ (p) rfl).trans (ex_all _))))
  have f3_2 : fld v0 3 2 = w :=
    (congrArg (fld · 3 2) he).trans ((ex_hi _ (3#3) rfl).trans ((ex_lo _ (w) rfl).trans (ex_all _)))
  have f0_3 : fld v0 0 3 = 3#3 :=
    (congrArg (fld · 0 3) he).trans ((ex_lo _ (3#3) rfl).trans (ex_all _))
  rw [family_Swp f26_6, decodeSwp]
  simp only [f21_5, f16_5, f11_5, f7_4, f5_2, f3_2, f0_3]
  exact needs_of hw

theorem Encode.swakev (a : BitVec 5) (b : BitVec 5) (c : BitVec 3) (p : BitVec 2) (w : BitVec 2) : Encode.Statement (.swakev a b c p w) := by
  intro (hw : ((p != 3#2) && (w != 3#2)) = true)
  apply decode_of
  have he : encode (.swakev a b c p w) = 0x32#6 ++ a ++ b ++ 0#2 ++ c ++ 0#4 ++ p ++ w ++ 4#3 := rfl
  generalize encode (.swakev a b c p w) = v0 at he
  have f26_6 : fld v0 26 6 = 50#6 :=
    (congrArg (fld · 26 6) he).trans ((ex_hi _ (4#3) rfl).trans ((ex_hi _ (w) rfl).trans ((ex_hi _ (p) rfl).trans ((ex_hi _ (0#4) rfl).trans ((ex_hi _ (c) rfl).trans ((ex_hi _ (0#2) rfl).trans ((ex_hi _ (b) rfl).trans ((ex_hi _ (a) rfl).trans (ex_all _)))))))))
  have f21_5 : fld v0 21 5 = a :=
    (congrArg (fld · 21 5) he).trans ((ex_hi _ (4#3) rfl).trans ((ex_hi _ (w) rfl).trans ((ex_hi _ (p) rfl).trans ((ex_hi _ (0#4) rfl).trans ((ex_hi _ (c) rfl).trans ((ex_hi _ (0#2) rfl).trans ((ex_hi _ (b) rfl).trans ((ex_lo _ (a) rfl).trans (ex_all _)))))))))
  have f16_5 : fld v0 16 5 = b :=
    (congrArg (fld · 16 5) he).trans ((ex_hi _ (4#3) rfl).trans ((ex_hi _ (w) rfl).trans ((ex_hi _ (p) rfl).trans ((ex_hi _ (0#4) rfl).trans ((ex_hi _ (c) rfl).trans ((ex_hi _ (0#2) rfl).trans ((ex_lo _ (b) rfl).trans (ex_all _))))))))
  have f14_2 : fld v0 14 2 = 0#2 :=
    (congrArg (fld · 14 2) he).trans ((ex_hi _ (4#3) rfl).trans ((ex_hi _ (w) rfl).trans ((ex_hi _ (p) rfl).trans ((ex_hi _ (0#4) rfl).trans ((ex_hi _ (c) rfl).trans ((ex_lo _ (0#2) rfl).trans (ex_all _)))))))
  have f11_3 : fld v0 11 3 = c :=
    (congrArg (fld · 11 3) he).trans ((ex_hi _ (4#3) rfl).trans ((ex_hi _ (w) rfl).trans ((ex_hi _ (p) rfl).trans ((ex_hi _ (0#4) rfl).trans ((ex_lo _ (c) rfl).trans (ex_all _))))))
  have f7_4 : fld v0 7 4 = 0#4 :=
    (congrArg (fld · 7 4) he).trans ((ex_hi _ (4#3) rfl).trans ((ex_hi _ (w) rfl).trans ((ex_hi _ (p) rfl).trans ((ex_lo _ (0#4) rfl).trans (ex_all _)))))
  have f5_2 : fld v0 5 2 = p :=
    (congrArg (fld · 5 2) he).trans ((ex_hi _ (4#3) rfl).trans ((ex_hi _ (w) rfl).trans ((ex_lo _ (p) rfl).trans (ex_all _))))
  have f3_2 : fld v0 3 2 = w :=
    (congrArg (fld · 3 2) he).trans ((ex_hi _ (4#3) rfl).trans ((ex_lo _ (w) rfl).trans (ex_all _)))
  have f0_3 : fld v0 0 3 = 4#3 :=
    (congrArg (fld · 0 3) he).trans ((ex_lo _ (4#3) rfl).trans (ex_all _))
  rw [family_Swp f26_6, decodeSwp]
  simp only [f21_5, f16_5, f14_2, f11_3, f7_4, f5_2, f3_2, f0_3]
  exact needs_of hw

theorem Encode.swakee (a : BitVec 5) (b : BitVec 5) (p : BitVec 2) (w : BitVec 2) : Encode.Statement (.swakee a b p w) := by
  intro (hw : ((p != 3#2) && (w != 3#2)) = true)
  apply decode_of
  have he : encode (.swakee a b p w) = 0x32#6 ++ a ++ b ++ 0#5 ++ 0#4 ++ p ++ w ++ 5#3 := rfl
  generalize encode (.swakee a b p w) = v0 at he
  have f26_6 : fld v0 26 6 = 50#6 :=
    (congrArg (fld · 26 6) he).trans ((ex_hi _ (5#3) rfl).trans ((ex_hi _ (w) rfl).trans ((ex_hi _ (p) rfl).trans ((ex_hi _ (0#4) rfl).trans ((ex_hi _ (0#5) rfl).trans ((ex_hi _ (b) rfl).trans ((ex_hi _ (a) rfl).trans (ex_all _))))))))
  have f21_5 : fld v0 21 5 = a :=
    (congrArg (fld · 21 5) he).trans ((ex_hi _ (5#3) rfl).trans ((ex_hi _ (w) rfl).trans ((ex_hi _ (p) rfl).trans ((ex_hi _ (0#4) rfl).trans ((ex_hi _ (0#5) rfl).trans ((ex_hi _ (b) rfl).trans ((ex_lo _ (a) rfl).trans (ex_all _))))))))
  have f16_5 : fld v0 16 5 = b :=
    (congrArg (fld · 16 5) he).trans ((ex_hi _ (5#3) rfl).trans ((ex_hi _ (w) rfl).trans ((ex_hi _ (p) rfl).trans ((ex_hi _ (0#4) rfl).trans ((ex_hi _ (0#5) rfl).trans ((ex_lo _ (b) rfl).trans (ex_all _)))))))
  have f11_5 : fld v0 11 5 = 0#5 :=
    (congrArg (fld · 11 5) he).trans ((ex_hi _ (5#3) rfl).trans ((ex_hi _ (w) rfl).trans ((ex_hi _ (p) rfl).trans ((ex_hi _ (0#4) rfl).trans ((ex_lo _ (0#5) rfl).trans (ex_all _))))))
  have f7_4 : fld v0 7 4 = 0#4 :=
    (congrArg (fld · 7 4) he).trans ((ex_hi _ (5#3) rfl).trans ((ex_hi _ (w) rfl).trans ((ex_hi _ (p) rfl).trans ((ex_lo _ (0#4) rfl).trans (ex_all _)))))
  have f5_2 : fld v0 5 2 = p :=
    (congrArg (fld · 5 2) he).trans ((ex_hi _ (5#3) rfl).trans ((ex_hi _ (w) rfl).trans ((ex_lo _ (p) rfl).trans (ex_all _))))
  have f3_2 : fld v0 3 2 = w :=
    (congrArg (fld · 3 2) he).trans ((ex_hi _ (5#3) rfl).trans ((ex_lo _ (w) rfl).trans (ex_all _)))
  have f0_3 : fld v0 0 3 = 5#3 :=
    (congrArg (fld · 0 3) he).trans ((ex_lo _ (5#3) rfl).trans (ex_all _))
  rw [family_Swp f26_6, decodeSwp]
  simp only [f21_5, f16_5, f11_5, f7_4, f5_2, f3_2, f0_3]
  exact needs_of hw

theorem Encode.stnFlagIncrement : Encode.Statement (.stnFlagIncrement) := fun h => nomatch h

theorem Encode.msmcfgWrite : Encode.Statement (.msmcfgWrite) := fun h => nomatch h

theorem Encode.srseedWrite : Encode.Statement (.srseedWrite) := fun h => nomatch h

theorem Encode.registerWrite : Encode.Statement (.registerWrite) := fun h => nomatch h

theorem Encode.wfeTimeout : Encode.Statement (.wfeTimeout) := fun h => nomatch h

theorem Encode.vectorLoadLateError : Encode.Statement (.vectorLoadLateError) := fun h => nomatch h

theorem Encode.scatterAck : Encode.Statement (.scatterAck) := fun h => nomatch h

theorem Encode.mCommandRetire : Encode.Statement (.mCommandRetire) := fun h => nomatch h

theorem Encode.fillComplete : Encode.Statement (.fillComplete) := fun h => nomatch h

theorem Encode.spillComplete : Encode.Statement (.spillComplete) := fun h => nomatch h

theorem Encode.copyStart : Encode.Statement (.copyStart) := fun h => nomatch h

theorem Encode.copyRetire : Encode.Statement (.copyRetire) := fun h => nomatch h

theorem Encode.guardedCommandDiscard : Encode.Statement (.guardedCommandDiscard) := fun h => nomatch h

theorem Encode.bwaitWake : Encode.Statement (.bwaitWake) := fun h => nomatch h

theorem Encode.sendStart : Encode.Statement (.sendStart) := fun h => nomatch h

theorem Encode.pullRequest : Encode.Statement (.pullRequest) := fun h => nomatch h

theorem Encode.sendComplete : Encode.Statement (.sendComplete) := fun h => nomatch h

theorem Encode.headerArrival : Encode.Statement (.headerArrival) := fun h => nomatch h

theorem Encode.sequenceGapClose : Encode.Statement (.sequenceGapClose) := fun h => nomatch h

theorem Encode.pullComplete : Encode.Statement (.pullComplete) := fun h => nomatch h

theorem Encode.pullFail : Encode.Statement (.pullFail) := fun h => nomatch h

theorem Encode.landing : Encode.Statement (.landing) := fun h => nomatch h

theorem Encode.destfaultRetry : Encode.Statement (.destfaultRetry) := fun h => nomatch h

theorem Encode.groupOpen : Encode.Statement (.groupOpen) := fun h => nomatch h

theorem Encode.sweepEngineFault : Encode.Statement (.sweepEngineFault) := fun h => nomatch h

theorem Encode.wakeApply : Encode.Statement (.wakeApply) := fun h => nomatch h

theorem Encode.swakeePass : Encode.Statement (.swakeePass) := fun h => nomatch h

theorem Encode.scoreboardSlotComplete : Encode.Statement (.scoreboardSlotComplete) := fun h => nomatch h

theorem Encode.remoteTimeout : Encode.Statement (.remoteTimeout) := fun h => nomatch h

theorem Encode.tagQuarantineEnd : Encode.Statement (.tagQuarantineEnd) := fun h => nomatch h

theorem Encode.latereply : Encode.Statement (.latereply) := fun h => nomatch h

theorem Encode.watchdog : Encode.Statement (.watchdog) := fun h => nomatch h

theorem Encode.faultRecordAppend : Encode.Statement (.faultRecordAppend) := fun h => nomatch h

theorem Encode.schedulerServe : Encode.Statement (.schedulerServe) := fun h => nomatch h

theorem Encode.preemptionHalt : Encode.Statement (.preemptionHalt) := fun h => nomatch h

theorem Encode.saveComplete : Encode.Statement (.saveComplete) := fun h => nomatch h

theorem Encode.priorityInheritanceMove : Encode.Statement (.priorityInheritanceMove) := fun h => nomatch h

theorem Encode.heldContinuationEnqueue : Encode.Statement (.heldContinuationEnqueue) := fun h => nomatch h

theorem Encode.throttleRaise : Encode.Statement (.throttleRaise) := fun h => nomatch h

theorem Encode.throttleLower : Encode.Statement (.throttleLower) := fun h => nomatch h

theorem Encode.powerPreemption : Encode.Statement (.powerPreemption) := fun h => nomatch h

theorem Encode.yalushResume : Encode.Statement (.yalushResume) := fun h => nomatch h

theorem Encode.launchEnd : Encode.Statement (.launchEnd) := fun h => nomatch h

theorem Encode.msmThermalLimit : Encode.Statement (.msmThermalLimit) := fun h => nomatch h

theorem Encode.msmThermalClear : Encode.Statement (.msmThermalClear) := fun h => nomatch h

theorem Encode.hbmThermalLevel : Encode.Statement (.hbmThermalLevel) := fun h => nomatch h

theorem Encode.eccCorrected : Encode.Statement (.eccCorrected) := fun h => nomatch h

theorem Encode.uncorrectedError : Encode.Statement (.uncorrectedError) := fun h => nomatch h

theorem Encode.selfTestComplete : Encode.Statement (.selfTestComplete) := fun h => nomatch h

theorem Encode.shootdownRequest : Encode.Statement (.shootdownRequest) := fun h => nomatch h

theorem Encode.shootdownArrival : Encode.Statement (.shootdownArrival) := fun h => nomatch h

theorem Encode.scanComplete : Encode.Statement (.scanComplete) := fun h => nomatch h

theorem Encode.featureMaskNarrow : Encode.Statement (.featureMaskNarrow) := fun h => nomatch h

theorem Encode.securityAlarm : Encode.Statement (.securityAlarm) := fun h => nomatch h

theorem Encode.partitionActivate : Encode.Statement (.partitionActivate) := fun h => nomatch h

theorem Encode.ylLaunch : Encode.Statement (.ylLaunch) := fun h => nomatch h

theorem Encode.ylWait : Encode.Statement (.ylWait) := fun h => nomatch h

theorem Encode.ylMap : Encode.Statement (.ylMap) := fun h => nomatch h

theorem Encode.ylUnmap : Encode.Statement (.ylUnmap) := fun h => nomatch h

theorem Encode.ylExmap : Encode.Statement (.ylExmap) := fun h => nomatch h

theorem Encode.ylMboxOpen : Encode.Statement (.ylMboxOpen) := fun h => nomatch h

theorem Encode.ylMboxClose : Encode.Statement (.ylMboxClose) := fun h => nomatch h

theorem Encode.ylJoinCreate : Encode.Statement (.ylJoinCreate) := fun h => nomatch h

theorem Encode.ylFaultPolicy : Encode.Statement (.ylFaultPolicy) := fun h => nomatch h

theorem Encode.ylQuota : Encode.Statement (.ylQuota) := fun h => nomatch h

theorem Encode.ylPeerQuery : Encode.Statement (.ylPeerQuery) := fun h => nomatch h

theorem Encode.ylAttest : Encode.Statement (.ylAttest) := fun h => nomatch h

theorem Encode.ylExit : Encode.Statement (.ylExit) := fun h => nomatch h

theorem Encode.ylClock : Encode.Statement (.ylClock) := fun h => nomatch h

theorem Encode.ylMemAlloc : Encode.Statement (.ylMemAlloc) := fun h => nomatch h

theorem Encode.ylMemFree : Encode.Statement (.ylMemFree) := fun h => nomatch h

theorem Encode.doorbell : Encode.Statement (.doorbell) := fun h => nomatch h

theorem Encode.functionLevelReset : Encode.Statement (.functionLevelReset) := fun h => nomatch h

theorem Encode.linkDown : Encode.Statement (.linkDown) := fun h => nomatch h

theorem Encode.powerGood : Encode.Statement (.powerGood) := fun h => nomatch h

theorem Encode.recoveryImageSubmit : Encode.Statement (.recoveryImageSubmit) := fun h => nomatch h

theorem Encode.powerCapSet : Encode.Statement (.powerCapSet) := fun h => nomatch h

theorem Encode.packageReset : Encode.Statement (.packageReset) := fun h => nomatch h

theorem Encode.idleEntry : Encode.Statement (.idleEntry) := fun h => nomatch h

theorem Encode.idleExit : Encode.Statement (.idleExit) := fun h => nomatch h

theorem Encode.accessPerformed : Encode.Statement (.accessPerformed) := fun h => nomatch h

theorem Encode.remoteAccessArrival : Encode.Statement (.remoteAccessArrival) := fun h => nomatch h

theorem Encode.linkUp : Encode.Statement (.linkUp) := fun h => nomatch h

theorem Encode.powerLoss : Encode.Statement (.powerLoss) := fun h => nomatch h

end Sys2Proof.Laws
end

