-- ==== Sys2Proof/Tests/Slice0.lean ====
section
/-! SUPPORT. Tests of the model: ill-formed terms refused, words written out from the encodings, one step on small states, and a state that
meets the hypotheses of each statement. -/

set_option maxRecDepth 100000
set_option Elab.async false
open Sys2Proof Sys2Proof.Machine
namespace Sys2Proof.Tests

/-- A translation of one 64 KiB page to the same physical page. -/
def demoPage (unit page : Nat) (x : Bool) : TlbEntry where
  unit := unit
  part := 0#6
  root := 0
  base := 65536 * page
  bits := 16
  pa := 65536 * page
  r := true
  w := !x
  x := x
  dirty := true
  kind := 0#2
  peer := 0#10

/-- A running strand: pc 0x1000, s1 to s9 set, four 32-bit elements, v1 to v3 set. -/
def demoStrand : Strand :=
  { Strand.empty with
    phase := .running
    gang := 0x100000000
    pc := 0x1000#64
    s := [(1, 7#64), (2, 3#64), (3, 0x10000#64), (4, 0x10040#64), (5, 0x20000#64), (6, 0x20040#64), (7, 0xFFFFFFFFFFFFFFF9#64), (8, 2#64), (9, 0x30000#64)]
    v := [(1, 0x00000004000000030000000200000001#16384), (2, 0x00000003000000020000000100000000#16384), (3, 0x3F800000400000004040000040800000#16384)]
    k := [(1, 0x5#2048), (2, 0x6#2048)]
    vl := 4#12 }

def demoPart : Partition := { Partition.none with
  active := true
  cores := 1#288
  msmlim := 64#9
  hbmr := [(0, 0x10000000)]
  mbBase := 0#12
  mbCnt := 8#12
  scan := [0] 
  peerSet := 3#1024
  heads := [0#32, 0#32, 0#32, 0#32]
  tails := [0#32, 0#32, 0#32, 0#32]
  rings := [(0x40000, 12), (0x50000, 12), (0x60000, 12), (0x70000, 12)]
  faultLog := 0
  launchTab := 0x4000000 }

/-- The strand in slot 0 of an active partition whose pages 1 to 3 are readable and writable and page 0 executable. -/
def demo : State :=
  { State.reset with
    cycle := 1000
    bringUp := 5
    strands := [(0, demoStrand)]
    parts := [(0, demoPart)]
    tlb := [0, 1, 1000].flatMap (fun u => demoPage u 0 true :: [1, 2, 3].map (fun p => demoPage u p false))
    mem := [(0x10000, 0x11#8), (0x10001, 0x22#8), (0x10004, 0x80#8)] }

/-- The demo state with another strand in slot 0. -/
def demoWith (f : Strand → Strand) : State := demo.upd f

/-- Further scalar registers of the demo strand. -/
def withS (l : List (Nat × Word)) : State := demoWith (fun u => { u with s := u.s ++ l })

/-- The demo strand with one access outstanding, named by the event's arguments. -/
def outWith (a : Access) : State :=
  let s := demoWith (fun u => { u with out := [a], acks := [1, 2], unacked := [(1, 1), (2, 3)], links := [0x200], sbPend := 0x82#8, sbOwner := [(1, 9), (7, 9)] })
  { s with arg := { s.arg with num := 7 }, seq := 1 }

/-- An access of four bytes at 0x10000. -/
def accessOf (op : AccessOp) : Access := { Access.plain 1 op 0x10000 (.mem 0x10000 false) 4 0 .vectorStore with elem := 2 }

/-- The access of a flag increment. -/
def flagAccess : Access := { accessOf (.flag .package) with n := 8 }

/-- A store is under way and no slot is pending; VL is 0; groups have two registers; v2 is still to be loaded; a register number is too large. -/
def storingOnly : State := demoWith (fun u => { u with out := [{ accessOf (.store 7#64) with akind := .scalarStore }] })
def vlNone : State := demoWith (fun u => { u with vl := 0#12 })
def twoRegs : State := demoWith (fun u => { u with gm := 1#2 })
def loadingV2 : State := demoWith (fun u => { u with out := [accessOf (.vload 2 32 false)] })
def bigNumber : State := demoWith (fun u => { u with s := u.s ++ [(11, 128#64)], v := (11, 128#16384) :: u.v })

/-- A reduction is under way. -/
def reducing : State := outWith (accessOf (.reduce 1#8 false [(0, 0x3F800000#32, 0#20)]))

/-- A scalar store is under way, a VSC element with its link, one without, a flag increment, and an element load from a poisoned sector. -/
def storeAccess : Access := { accessOf (.store 7#64) with akind := .scalarStore }
def storing : State := outWith storeAccess
def scattering : State := outWith (accessOf (.vsc 5#64 1#3 [0x200]))
def scatteringLost : State := { outWith (accessOf (.vsc 5#64 1#3 [0x200])) with strands := [(0, { (outWith (accessOf (.vsc 5#64 1#3 [0x200]))).me with links := [] })] }
def flagging : State := outWith flagAccess
def loadingPoison : State := { outWith (accessOf (.vload 2 32 false)) with badSectors := [0x800] }

/-- A slot of which an access has failed; a slot is pending; a slot is in error. -/
def slotFails : State :=
  { flagging with strands := [(0, { flagging.me with sbFail := [(7#3, .poison)] })] }
def slotPending : State := demoWith (fun u => { u with sbPend := 2#8 })
def slotsInError : State := demoWith (fun u => { u with sbErr := 0x84#8 })

/-- CALLT's table at 0x10000 with one entry: target 0x1FFC, signature 0xABCD. -/
def callTable : State :=
  { demoWith (fun u => { u with ftbase := 0x10000#52, ftlen := 8#32 }) with mem := memPut demo.mem 0x10070 (natBytes 16 (0xFFFFFFFFFFFFC + 2 ^ 64 * 0xABCD + 2 ^ 80)) }
def callReserved : State :=
  { callTable with mem := memPut demo.mem 0x10070 (natBytes 16 (0xFFFFFFFFFFFFC + 2 ^ 64 * 0xABCD + 2 ^ 80 + 2 ^ 127)) }

/-- A format word of FP32 sources and destination, and one to a block format. -/
def fp32Word : State := withS [(24, 0x010101#64)]
def bfpWord : State := withS [(24, 0x200101#64)]
def fp32Int : State := withS [(24, 0x011201#64)]

/-- Two strands of one gang. -/
def gangOf (slots : List (Option Nat)) : Gang := ⟨0x100000000, 0#6, 0#512, slots, [], none, false, [], 0, 0⟩
def pairOf (f : Strand → Strand) : State :=
  { demo with strands := [(0, demoStrand), (1, f { demoStrand with rank := 1 })], gangs := [gangOf [some 0, some 1]] }
def pairFull : State := pairOf (fun u => { u with strips := List.replicate 4 ⟨1, 0, 0#16384, []⟩ })
def pair : State := pairOf id
def stripIn : State := demoWith (fun u => { u with strips := [⟨1, 1, 5#16384, []⟩] })

/-- An element of 32 bits in lane i at an address of page 1. -/
def elemAt (i : Nat) (va : Word) : Elem := ⟨i, va, .mem va.toNat false⟩

/-- Page 1 is a page of package 5, at address 0x40000000000 there. -/
def farPage : State :=
  { withS [(24, 0x10001#64)] with
    tlb := [0, 1, 1000].flatMap (fun u => [demoPage u 0 true, { demoPage u 1 false with kind := 3#2, peer := 5#10, pa := 0x40000000000 }])
    peers := [(5, 3)]
    parts := [(0, { demoPart with peerSet := BitVec.allOnes 1024 })] }
def farAt (i : Nat) (va : Word) : Elem := ⟨i, va, .remote 5#10 (0x40000000000 + va.toNat - 0x10000)⟩

/-- The third page is unmapped, and s10 is eight bytes below it. -/
def pageGap : State := { withS [(10, 0x2FFF8#64)] with tlb := [0, 1, 1000].flatMap (fun u => demoPage u 0 true :: [1, 2].map (fun p => demoPage u p false)) }

/-- A work-vector descriptor at 0x20000 that is full, and an append whose update has been made. -/
def fullVector : State := { demo with mem := demo.mem ++ [(0x20001, 1#8), (0x20002, 1#8), (0x20008, 2#8), (0x20010, 2#8)] }
def appending : State := demoWith (fun u => { u with append := some ⟨10, 0x10000, 12⟩ })

/-- A remote tag at the end of its quarantine, and one in use. -/
def tagEnding : State := { demo with tags := [(1, ⟨3#6, true, 500, []⟩)], arg := { demo.arg with num := 1, idx := 7 } }
/-- The append the state above is in. -/
def appendTail : Append := ⟨10, 0x10000, 12⟩

/-- A strand with matrix planes and a format word in s24. -/
def matrixOf (w : Word) (f : Strand → Strand := id) : State :=
  demoWith (fun u => f { u with s := u.s ++ [(24, w)], mw := 3#8, map := [(12, ⟨7#8, 4#3, 0#16⟩)], active := some (9, true), shadow := some (10, true) })
def matrixFp32 : State := matrixOf 0x010101#64
def matrixInt : State := matrixOf 0x2020#64
def matrixBad : State := matrixOf 0xF0000000#64
def noPlanes : State := matrixOf 0x010101#64 (fun u => { u with active := none, shadow := none })

/-- A started command of the M queue, and a state in which it is the head of the queue of slot 0. -/
def commandOf (i : Instr) (dst : Option Nat) (srcs : List (Nat × Source)) (frame : Option Nat) : MCommand where
  id := 5
  ins := i
  pc := 0x2000#64
  dst := dst
  srcs := srcs
  release := []
  grant := ⟨8#8, 8#8, 8#12, 32#10⟩
  fmt := 0x010101#64
  base := 0x10000#64
  stride := 256#64
  vals := []
  vsrc := []
  vdst := []
  pop := 0#2
  push := 0#2
  started := true
  since := 0
  frame := frame
  faulted := false
  tag := none
  out := false
  vold := []
  vover := []
def frameOf4 : Frame := ⟨0, 2, 0#6, 0, false, 0x00070005#262144, []⟩
def queueOf (c : MCommand) : State :=
  { demoWith (fun u => { u with mq := [c], fq := 8#9, lim := 64#9, map := [(1, ⟨3#8, 4#3, 0#16⟩), (2, ⟨4#8, 3#3, 0#16⟩)] }) with
    arg := { demo.arg with num := 5 }
    frames := [(3, ⟨0, 1, 0#6, 0, false, 0x12345678#262144, []⟩), (4, frameOf4), (9, ⟨0, 1, 0#6, 0, false, 0#262144, []⟩)] }
def transpose : MCommand := commandOf (.ttrans 1 2 0 0 0) (some 1) [(2, .frame 4)] (some 9)
def moveOut : MCommand := { commandOf (.mtov 6 2 0 0 0 0) none [(2, .frame 4)] none with vdst := [6], base := 63#64 }
def movingOut : State := demoWith (fun u => { u with mq := [{ moveOut with vdst := [11], started := false }] })
def tileLoad : MCommand := commandOf (.tloadA 1 3 8 0 0 0) (some 1) [] (some 9)
def tileStore : MCommand := commandOf (.tstoreA 2 3 8 0 0) none [(2, .frame 4)] none
def waitingTranspose : MCommand := { transpose with started := false, frame := none, grant := Strand.empty.tsh }
def waitingLoad : MCommand := { tileLoad with started := false, frame := none }

/-- The places of a tile of eight rows of 32 bytes, 256 bytes apart. -/
def tileRows : List (Run × Place) := (List.range 8).map (fun i => (⟨i, 0, 512 * i, 32⟩, .mem (0x10000 + 256 * i) false))

/-- A register FILLING, and one SPILLING. -/
def moveOf : Move := ⟨1, 3, 5, 0⟩
def moving (f : Strand → Strand) : State :=
  { demoWith (fun u => f { u with gang := 0x10000 - 32768 }) with
    arg := { demo.arg with num := 5 }
    frames := [(3, ⟨0, 1, 0#6, 0, false, 0x12345678#262144, []⟩)] }
def filling : State := moving (fun u => { u with map := [(1, ⟨3#8, 2#3, 0#16⟩)], fillq := [moveOf] })
def spilling : State := moving (fun u => { u with map := [(1, ⟨3#8, 5#3, 0#16⟩)], spillq := [moveOf] })

/-- A write of MSMCFG that is waiting; seeds on their way to the matrix bank, before and behind a TCVT. -/
def configuring (x : Word) : State := demoWith (fun u => { u with wait := .msmcfg x, lim := 64#9 })
def configRaises : State :=
  demoWith (fun u => { u with wait := .msmcfg 0x3003D#64, lim := 64#9, sf := 1#9, scrFrames := [7], scratch := [(32767, 5#8)] })
def seeding : State :=
  demoWith (fun u => { u with mseed := [(64#64, 4), (65#64, 6)], mq := [commandOf (.tcvt 1 2 0 0 0 0) (some 1) [] none] })

/-- A barrier object at 0x10080, whose address is in s3. -/
def objectOf (P : BitVec 4) (Q : BitVec 24) (C : BitVec 32) (S : Int) (r5 : Word) : State :=
  { demoWith (fun u => { u with s := [(3, 0x10080#64), (5, r5)] }) with
    mem := memPut demo.mem 0x10080 (bvBytes (barWords P Q C S).1 ++ bvBytes (barWords P Q C S).2) }
def oddObject : State := demoWith (fun u => { u with s := [(3, 0x10088#64)] })
def waiting (w : Wait) : State := { objectOf 5#4 2#24 0#32 0 0#64 with strands := [(0, { demoStrand with wait := w })] }
def bwaiting : State := waiting (.bwait (.mem 0x10080 false) 0x10080#64 4#4 0#2)
def phaseLeft : State := waiting (.bwaitOver 0x10080#64 1#2 true)
def tagGone : State := waiting (.bwaitOver 0x10080#64 1#2 false)
def wfeWaiting : State := waiting (.wfe 900 100#64)
def evented : State := demoWith (fun u => { u with evFlag := true })

/-- Tokens are there; none are; S to M is full; guard slot 3 has a resolved epoch, two unresolved ones, or a captured one. -/
def tokened : State := demoWith (fun u => { u with tok := ⟨14#4, 3#4, 3#4, 3#4, 3#4, 3#4⟩, guards := [(3, ⟨7, some true, true, some (6, some true)⟩)] })
def tokenFull : State := demoWith (fun u => { u with tok := ⟨15#4, 3#4, 3#4, 3#4, 3#4, 3#4⟩, guards := [(3, ⟨7, some true, true, some (6, none)⟩)] })

def tokenFullC : State := demoWith (fun u => { u with tok := ⟨3#4, 12#4, 0#4, 0#4, 0#4, 0#4⟩, tokRes := ⟨0#4, 3#4, 0#4, 0#4, 0#4, 0#4⟩ })
def guardNew : State := demoWith (fun u => { u with guards := [(3, ⟨7, none, false, some (6, some true)⟩)] })
def guardDone : State := demoWith (fun u => { u with guards := [(3, ⟨7, some true, false, some (6, some false)⟩)] })
def guardCaught : State := demoWith (fun u => { u with guards := [(3, ⟨7, none, true, some (6, none)⟩)] })

/-- A C-queue command; a state whose C queue holds these; one copy in flight. -/
def copyCommand (i : Instr) (dst src arg : Word) (g : Option Epoch) : CCommand := ⟨i, 0x2000#64, dst, src, arg, 0#64, g, 0#2, 0#2⟩
def copyQueue (l : List CCommand) : State :=
  let s := demoWith (fun u => { u with rcd := BitVec.ofNat 512 (2 ^ 346), cq := l })
  { s with arg := { s.arg with copySrc := .slot 0, engine := .copy } }
def plainCopy : CCommand := copyCommand (.cpy 1 2 4 0 0 0) 0x1005B#64 0x10001#64 5#64 none
def patternCopy : CCommand := copyCommand (.cpyz 1 2 4 0 0 0) 0x1005B#64 0x0807060504030201#64 5#64 none
def guardedCopy : CCommand := copyCommand (.cpy 1 2 4 3 0 0) 0x10042#64 0x10001#64 5#64 (some ⟨3#4, 1, some false⟩)
def copyStarts : State := copyQueue [plainCopy]
def copyFull : State := copyQueue (List.replicate 16 plainCopy)
def guardFalse : State := copyQueue [guardedCopy]
def flight (c : CCommand) : Copy := ⟨⟨0x100000000, 0, 0#6, 0#11⟩, false, 0, c, 0#8, 0, none, none, false, 0#896, .run CopyReads.none, 0⟩
def flying (c : CCommand) : State := { copyQueue [] with copies := [flight c] }
def farStore : Access := { Access.plain 1 (.store 7#64) 0x10000 (.remote 1#10 0x100) 4 0 .scalarStore with tag := some 3, sent := true }
def storeTimeout : State :=
  { demoWith (fun u => { u with out := [farStore] }) with remto := 1000, tags := [(3, ⟨7#6, true, 0, []⟩)], arg := { demo.arg with timeout := .access 0 0 } }
def farElement (lane : Nat) : Access :=
  { Access.plain 2 (.vload 10 (32 * lane) false) 0x10000 (.remote 1#10 0x100) 4 0 .vectorLoad with
    elem := lane
    blocks := true
    ff := true
    sent := true }
def lateElement : State :=
  { demoWith (fun u => { u with out := [storeAccess, farElement 3] }) with remto := 1000, arg := { demo.arg with timeout := .access 0 1 } }
def farJoin : JoinOp := ⟨1#10, 0x100, 0x200, 0#6, 0#11, some 5, 0⟩
def joinTimeout : State := { demo with remto := 1000, joinOps := [farJoin], arg := { demo.arg with timeout := .join 0 } }
def startsOf : State := queueOf waitingTranspose
def framed : State := ((takeFrame startsOf 0 1).map (fun x => x.2)).getD startsOf
def retireT : State := queueOf transpose
def retireV : State := queueOf moveOut
def retireL : State := queueOf tileLoad
def retireS : State := queueOf tileStore
def patternFlies : State := flying patternCopy
def copyFlies : State := flying plainCopy

/-- A 64-byte record from fields: bit position and number. -/
def recordOf (l : List (Nat × Nat)) : Rec64 := BitVec.ofNat 512 (l.foldl (fun x p => x + p.2 * 2 ^ p.1) 0)

/-- A send descriptor of 8 KiB at 0x20000, one of a tile, one whose status record goes to 0x20010. -/
def sendDesc : Rec64 := recordOf [(0, 0x1003), (48, 2), (64, 0x77), (96, 0x2000), (128, 0x20000)]
def sendDescOwn : Rec64 := recordOf [(0, 3), (48, 2), (64, 0x77), (96, 0x2000), (128, 0x20000)]
def sendDescTile : Rec64 := recordOf [(0, 0x1003), (48, 2), (64, 0x77)]
def sendDescStat : Rec64 := recordOf [(0, 0x1003), (48, 2), (64, 0x77), (96, 0x2000), (128, 0x20000), (256, 0x20010)]
def ownerOf0 : Owner := ⟨0x100000000, 0, 0#6, 0#11⟩

/-- Mailbox 2 is open and has these pigeonholes and messages; the record at 0x10000 is the form's. -/
def openBox (holes : List Pigeonhole) (queue : List Message) : Mailbox :=
  { Mailbox.start with isOpen := true, sgen := 7#16, holes := holes, queue := queue }
def boxOf (r : Rec64) (holes : List Pigeonhole) (queue : List Message) : State :=
  { demoWith (fun u => { u with map := [(5, ⟨3#8, 4#3, 0#16⟩)], s := u.s ++ [(10, 5#64)] }) with
    mem := memPut demo.mem 0x10000 (bvBytes r)
    mailboxes := [(2, openBox holes queue)]
    peers := [(0, 3), (1, 3)] }
def sending : State := boxOf sendDesc [] []
def sendingTile : State := boxOf sendDescTile [] []
def oddRecord : State := demoWith (fun u => { u with s := [(3, 0x10020#64)] })
def sendOf : SendCommand := ⟨.msend 3 0 0 0, 0x2000#64, sendDesc, 1, none, none, 0#2, none, none⟩
def sendStarts : State := { sending with strands := [(0, { demoStrand with sendq := [sendOf] })], arg := { demo.arg with num := 5 } }
def stagedSend (d : Rec64) (k : BitVec 8) : Send :=
  ⟨5#13, ownerOf0, d, k, (List.range 100).map (BitVec.ofNat 8), 9#16, 7#16, false, none, none, 0⟩
def inService (x : Send) : State := { sending with sends := [x], remto := 1000, arg := { demo.arg with num := 5, idx := 3, area := 8 } }
def pullFar : State := inService (stagedSend sendDesc 3#8)
def pullOwn : State := inService (stagedSend sendDescOwn 3#8)
def replyOk : Rec64 := recordOf [(0, 0x11), (8, 1), (16, 9), (112, 5), (256, 7)]
def sendReplied : State := let s := inService (stagedSend sendDescStat 2#8); { s with arg := { s.arg with sendEnd := .reply replyOk } }
def sendGivenUpStat : State := let s := inService (stagedSend sendDescStat 2#8); { s with arg := { s.arg with sendEnd := .giveUp } }
def sendGivenUp : State := let s := inService (stagedSend sendDesc 2#8); { s with arg := { s.arg with sendEnd := .giveUp } }

/-- A claim of a message of this package, in mailbox 2, that asks for as many bytes as its pigeonhole takes. -/
def ownClaim (n : Nat) : Claim :=
  ⟨⟨0#10, recordOf [(0, 2), (32, 3), (64, 2), (112, 5), (160, 50)], [], true, false, 0⟩, ⟨recordOf [(0, 3), (160, n), (192, 0x20000)], ownerOf0, 0x2000#64⟩,
    .pulling, [], false, none, false, 0, [], none, 0⟩
def pulling (n : Nat) : State := { pullOwn with mailboxes := [(2, { openBox [] [] with claims := [ownClaim n] })] }
def pullAllowed : State := pulling 11
def pullPast : State := pulling 10

/-- A context tensor of six cells at 0x22000, its skip map at 0x23000, and its owner. -/
def tensorRec (owner : Nat) : Rec64 := recordOf [(0, 0x22000), (64, 6), (128, 0x23000), (384, owner)]

/-- Pigeonhole records: a buffer of 100 bytes at 0x20000, a whole tile, and one of a strip form. -/
def holeRec : Rec64 := recordOf [(0, 3), (32, 0xFF), (64, 0x77), (96, 0xFFFFFFFF), (160, 100), (192, 0x20000)]
def holeRecTile : Rec64 := recordOf [(0, 3), (32, 0xFF), (64, 0x77), (96, 0xFFFFFFFF), (144, 1), (160, 32768)]
def headerOf : Rec64 := recordOf [(0, 2), (8, 1), (16, 9), (32, 3), (64, 2), (112, 5), (128, 0x77), (160, 50), (256, 7)]
def headerOther : Rec64 := recordOf [(0, 2), (8, 1), (16, 8), (32, 4), (64, 2), (112, 5), (128, 0x78), (160, 50), (256, 7)]
def messageOf (h : Rec64) : Message := ⟨1#10, h, [], true, false, 0⟩
def posting : State := boxOf holeRec [] [messageOf headerOther]
def postingTile : State := boxOf holeRecTile [] [messageOf headerOther]
def claiming : State := boxOf holeRec [] [messageOf headerOther, messageOf headerOf, messageOf headerOther]
def claimingTile : State := boxOf holeRecTile [] [messageOf headerOther, messageOf headerOf, messageOf headerOther]
def holeOf (r : Rec64) : Pigeonhole := ⟨r, ownerOf0, 0x2000#64⟩
def holeStat : Pigeonhole := holeOf (recordOf [(0, 3), (320, 0x20010)])
def holeNone : Pigeonhole := holeOf (recordOf [(0, 4)])
def cancelling : State := boxOf holeRec [holeStat, holeNone, holeStat] []
def holeBar : Pigeonhole := holeOf (recordOf [(0, 3), (146, 1), (160, 100), (256, 0x20040)])
def holeWake : Pigeonhole := holeOf (recordOf [(0, 3), (384, 0x10000), (448, 5)])
def cancelsStat : State := { boxOf holeRec [holeNone, holeStat, holeStat] [] with strands := [(0, { demoStrand with s := demoStrand.s ++ [(10, 0x20010#64)] })] }
def cancelsBar : State := boxOf holeRec [holeStat, holeBar] []
def cancelsWake : State := boxOf (tensorRec 0) [holeWake, holeBar] []
/-- The state in which the items of a cancelled pigeonhole are made, with these pigeonholes left. -/
def cancelled (s : State) (l : List Pigeonhole) : State := { s.updMbox 2 (fun m => { m with holes := l }) with fresh := s.fresh + 1 }

/-- A header arrives at mailbox 2. -/
def arriving (b : Mailbox) : State :=
  { demo with
    mailboxes := [(2, b)]
    peers := [(0, 3), (1, 3)]
    remto := 1000
    arg := { demo.arg with arrival := .fabric 1 headerOf [], mb := 2, data := (List.range 60).map (BitVec.ofNat 8) } }
def arrivesClosed : State := arriving { openBox [] [] with isOpen := false }
def pairOf1 (held : List Message) : Pair := ⟨3#22, 7#16, (if held = [] then 9#16 else 3#16), held, 0⟩
def arrivesNext : State := arriving { openBox [holeOf holeRec, holeNone] [] with pairs := [pairOf1 []] }
def gapEnds : State := arriving { openBox [] [] with pairs := [pairOf1 [messageOf headerOf]] }
def claimOf (r : Rec64) (st : ClaimState) (asked : Bool) : Claim :=
  ⟨messageOf headerOf, holeOf r, st, (List.range 50).map (BitVec.ofNat 8), false, none, asked, 0, [], none, 0⟩
def claimed (c : Claim) : State := arriving { openBox [] [] with claims := [c] }
def pulledWhole : Claim := { claimOf holeRec .pulling true with data := (List.range 10).map (BitVec.ofNat 8), due := 40 }
def pulledScratch : Claim := claimOf (recordOf [(0, 3), (144, 2)]) .pulling true
def landsSmall : Claim := claimOf (recordOf [(0, 3), (160, 5), (192, 0x1003B)]) .landing false
def landsAgain : Claim := claimOf holeRec .destFault false
/-- The claim's answers: this many bytes. -/
def pulledBytes (n : Nat) : State := let s := claimed pulledWhole; { s with arg := { s.arg with data := (List.range n).map (BitVec.ofNat 8) } }
def pullEnds : State := pulledBytes 40
def pullShort : State := pulledBytes 39
def pullFails : State := claimed pulledScratch
def landsNow : State := claimed landsSmall
def landsRetry : State := claimed landsAgain

def sweeping : State :=
  { demoWith (fun u => { u with s := u.s ++ [(10, 5#64), (11, 0x2000#64)] }) with mem := memPut demo.mem 0x10000 (bvBytes (tensorRec 0)) }
def openedOf (g : Nat) : OpenGroup := { openCells 0 6 [(1, 0), (2, 0x02000000), (3, 0x01000005), (4, 0x04000000), (5, 0), (6, 0x05000000)] with g := g }
def sweepOf (ph : SweepPhase) (o : Option OpenGroup) : Sweep :=
  ⟨0x10000, 0x22000, 6, 0x23000, 0x2000#64, 0x1004#64, 4#12, 1#2, 1#2, ph, o, 0, 0x10000⟩
def inSweep (w : Sweep) (wt : Wait) : State :=
  { demoWith (fun u => { u with sweep := some w, swAct := true, wait := wt }) with mem := memPut demo.mem 0x10000 (bvBytes (tensorRec 1)) }
def inRule : State := inSweep (sweepOf .rule (some (openedOf 0))) .none
def committed : State := match commitGroup (sweepTensor inRule.me (sweepOf .rule (some (openedOf 0)))) (openedOf 0) (regWords (inRule.me.getV 28)) (regWords (inRule.me.getV 29)) inRule with
  | .ok s => s
  | .error _ => inRule
def pastLast : State := inSweep (sweepOf (.opening 1) none) .sweep
def groupFound : State := let s := inSweep (sweepOf (.opening 0) none) .sweep; { s with mem := memPut s.mem 0x23000 [0xFD#8] }
def noneAwake : State :=
  { groupFound with mem := (List.range 6).foldl (fun m i => memPut m (0x22004 + 8 * i) (natBytes 4 0x02000000)) groupFound.mem }
/-- The group with this code, and a sweep that is to open it. -/
def coded (b : Byte) : State := { groupFound with mem := memPut groupFound.mem 0x23000 [b] }
def groupWaits : State := coded 0xFC#8
def groupHalted : State := coded 0xFF#8
/-- Cells of the group: one asleep at its last visit, one before it, one whose context is of kind 5, and three that wait. -/
def groupSleeps : State :=
  { coded 0xFE#8 with
    mem := ((List.range 6).zip [0x11000001, 0x11000005, 0x05000007, 0x02000000, 0x02000000, 0x02000000]).foldl
      (fun m p => memPut (memPut m (0x22004 + 8 * p.1) (natBytes 4 p.2)) (0x22000 + 8 * p.1) (natBytes 4 (77 + p.1))) (coded 0xFE#8).mem }
/-- A group that no cell has changed, and its commit. -/
def quietOf : OpenGroup := ⟨0, 2, [false, false], [0x02000000#32, 0x05000000#32], [0x02000000#32, 0x05000000#32], 1⟩
def committedQuiet : State := match commitGroup (sweepTensor inRule.me (sweepOf .rule none)) quietOf (regWords 0#16384) (regWords 0#16384) inRule with
  | .ok s => s
  | .error _ => inRule
def closingOf : State := inSweep (sweepOf .closing (some (openedOf 0))) .sweep
def closed : State := match commitGroup (sweepTensor closingOf.me (sweepOf .closing (some (openedOf 0)))) (openedOf 0) [] [] closingOf with
  | .ok s => s
  | .error _ => closingOf
def badSkip : Sweep := { sweepOf (.opening 0) none with skbase := 0x723000 }
def skipFault : State := inSweep badSkip .sweep

/-- A wake of cell 2, whose context is at 0x22014; an event pass. -/
def wakeOf : Wake := ⟨0, 0#6, 0#11, 0x10000, 0x22000, 6, 0x23000, 2, none, false, false, 0x10000, some ownerOf0, none⟩
def passOf3 (n : Nat) : EventPass := ⟨0, 0#6, ownerOf0, 0x10000, 0x22000, 600, 0x23000, 9#24, n, 0x10000, none⟩
def waking (s : State) (c code : Nat) (n : Nat) : State :=
  { s with wakes := [wakeOf], passes := [passOf3 n], mem := memPut (memPut s.mem 0x22014 (natBytes 4 c)) 0x23000 (natBytes 1 code) }
def wakes : State := waking demo 0x01000000 0 1
def wakesNone : State := { wakes with wakes := [] }
def wakeHeld : State := waking inRule 0x02000000 0 0
def passEnds : State := waking demo 0 0 2
def passNext : State := waking demo 0 0x0C 1
def passNexted : State := { passNext with passes := [passOf3 2] }
def passFarEnds : State := { passEnds with wakes := [], passes := [{ passOf3 2 with far := some 5#10 }] }
def passFarHeld : State := { wakeHeld with passes := [{ passOf3 0 with far := some 5#10 }] }
def passWakes : State := { waking demo 0 0 1 with wakes := [] }
def passWoken : State := { passWakes with passes := [passOf3 2] }
def cellWaits : State := waking demo 0x33000009 0 1
def passFull : State := { waking inRule 0 0 0 with wakes := List.replicate 4096 wakeOf }

/-- A gang record: code 0x2000, frame 0x20000, one strand, launch 7. -/
def gangRec (prio join : Nat) : Rec64 :=
  recordOf [(0, 0x2000), (64, 0x20000), (128, join), (192, 7), (256, 1), (260, prio), (320, 32), (328, 1), (346, 1), (384, 99)]
def gangAt (n : Nat) (retired : List Nat) (pre : Option Nat) (saving : Bool) : Gang :=
  ⟨0x100000000, 0#6, gangRec 2 0, (List.range n).map some, retired, pre, saving, [], 0, 0⟩
def inPart (f : Partition → Partition) (s : State) : State :=
  { s with parts := [(0, f { demoPart with slots := 15#4, gaPool := 0x100000000, gaCnt := 2, faultQ := 0x80000 })] }
def forking : State :=
  inPart id { demoWith (fun u => { u with rcd := gangRec 3 0 }) with mem := memPut demo.mem 0x10000 (bvBytes (gangRec 2 0)) }
def forksJoin : State :=
  inPart id { demoWith (fun u => { u with rcd := gangRec 3 0 }) with
    mem := memPut (memPut demo.mem 0x10000 (bvBytes (gangRec 2 0x10080))) 0x10080 (natBytes 8 (5 + 2 ^ 32 + 0x4A * 2 ^ 56)) }
def exiting (n : Nat) (retired : List Nat) : State :=
  inPart id { demo with
    strands := [(0, { demoStrand with rcd := gangRec 2 0 }), (1, { demoStrand with rank := 1 })]
    gangs := [gangAt n retired none false] }
def exitsFirst : State := exiting 2 []
def exitsLast : State := exiting 2 [1]
def starting : State :=
  inPart (fun p => { p with tails := [0#32, 0#32, 1#32, 0#32] }) { demo with strands := [], mem := memPut demo.mem 0x60000 (bvBytes (gangRec 2 0)) }
/-- A record of a gang of two strands with two scratch frames each, or of one strand with two. -/
def scratchRec (width : Nat) : Rec64 := recordOf [(0, 0x2000), (64, 0x20000), (192, 7), (256, width), (260, 2), (320, 32), (328, 1), (337, 2), (346, 1), (384, 99)]
def startsWith (r : Rec64) : State := { starting with mem := memPut demo.mem 0x60000 (bvBytes r) }
def startsTwo : State := inPart (fun p => { p with cores := 3#288, tails := [0#32, 0#32, 1#32, 0#32] }) (startsWith (scratchRec 2))
def startsScratch : State := startsWith (scratchRec 1)
def haltGang : Gang := gangAt 1 [] (some 900) false
def saveGang : Gang := gangAt 1 [] (some 900) true
def halting : State := let s := exiting 1 []; { s with arg := { s.arg with area := 0x100000000 }, gangs := [haltGang] }
def saving : State := { halting with gangs := [saveGang], strands := [(0, { demoStrand with phase := .saving, rcd := gangRec 2 0 })] }
def moveDueAt : State :=
  inPart (fun p => { p with tails := [0#32, 0#32, 3#32, 0#32] }) { demo with
    arg := { demo.arg with area := 0x20000 }
    joins := [(0, 0x20000, 1)]
    mem := memPut (memPut (memPut demo.mem 0x60000 (bvBytes (gangRec 2 0))) 0x60040 (bvBytes (gangRec 2 0x20000))) 0x60080 (bvBytes (gangRec 2 0x20000)) }
def holding : State := inPart id { demo with heldRecs := [(0, 2, gangRec 1 0)] }
def launchOf (lid : BitVec 32) : Launch := ⟨lid, 1, 0#1024, 0⟩
def launchEnds : State :=
  inPart (fun p => { p with launches := [launchOf 7, launchOf 8] }) { demo with
    arg := { demo.arg with a0 := 7#64 }
    strands := [(0, { demoStrand with rcd := gangRec 2 0, phase := .parked, reported := true, fault := some ⟨0#11, 0x101000000, 0x1000#64, 0#64, .trap, .none, false, false, true, 256#32⟩ })]
    gangs := [gangAt 1 [] none false] }

/-- A run time at its limit; a strand PARKED with a record, reported or not. -/
def timedOut : State := demoWith (fun u => { u with wdlim := 50#64, runtk := 50#64 })
def recordFor (c : FaultClass) (i : BitVec 32) (hyp : Bool) : FaultRecord := ⟨0#11, 0x101000000, 0x1000#64, 0#64, c, .none, hyp, false, true, i⟩
def parkedWith (c : FaultClass) (i : BitVec 32) (hyp rep : Bool) : State :=
  inPart (fun p => { p with policy := [(6, 1)], faults := if rep then [recordFor c i hyp] else [] })
    (demoWith (fun u => { u with fault := some (recordFor c i hyp), reported := rep, phase := .parked }))
def parkedPerm : State := parkedWith .perm 0 false false
def parkedHyp : State := parkedWith .perm 0 true false
def parkedTimeout : State := parkedWith .remoteTimeout 7 false true
def parkedTrap : State := parkedWith .trap 255 false true
/-- The tensor of those passes, and the epoch of the guarded copy. -/
def tensorOf3 : Tensor := ⟨0#6, 0x10000, 0x22000, 600, 0x23000⟩
def falseEpoch : Epoch := ⟨3#4, 1, some false⟩

/-- The demo state with these arguments of the event. -/
def argsOf (f : Args → Args) (s : State := demo) : State := { s with arg := f s.arg }
def eccScalar : State := argsOf (fun a => { a with ecc := .scalar 0 31 })
def eccHbm : State := argsOf (fun a => { a with ecc := .hbm 0x8FFFFFFFFF })
def testOver (e : EccTarget) (bad : Bool) : State := argsOf (fun a => { a with flag := bad }) { demo with tests := [(e, false, 0)] }
def testPasses : State := testOver (.scalar 0 31) false
def testFails : State := testOver (.scalar 0 31) true
def testFrame : State := testOver (.msm 287 255 0) true
def hotStack : State := argsOf (fun a => { a with num := 11, idx := 3 }) { demo with hbmth := 0xC00000#24 }
def coolStack : State := argsOf (fun a => { a with num := 11, idx := 3 })
def lastCore : State := argsOf (fun a => { a with num := 287 })

/-- One gang, a power figure in watts and a temperature. -/
def boundGang (level : Nat) : Gang := { gangAt 1 [] none false with throttle := level }
def powerOf (level watts degrees last : Nat) : State :=
  argsOf (fun a => { a with mb := watts, num := degrees }) { demo with gangs := [boundGang level], capWatts := 2000, throttleTick := last, cycle := 2000 }
def powerHigh : State := powerOf 2 2001 0 500
def powerSoon : State := powerOf 2 2001 0 501
def powerLow : State := powerOf 1 1899 94 500
def tooHot : State := powerOf 3 1500 110 500
def tooLong : State := { powerOf 3 2001 0 500 with overSince := some 0, cycle := 15000000 }
def capLow : State := argsOf (fun a => { a with mb := 1500 })
def capHigh : State := argsOf (fun a => { a with mb := 4400 })
def capUnder : State := argsOf (fun a => { a with mb := 1499 })
def idling : State := { State.reset with cycle := 1500000, idleSince := some 0, bringUp := 5 }
def asleep : State := { State.reset with power := .p2, bringUp := 5 }
def powerOff : State := { State.reset with power := .p3 }
def recovering : State := { State.reset with bringUp := 2 }
def erasing : State := { demo with eraseOnAlarm := true }

/-- A shootdown of pages 1 and 2 that waits for these dies. -/
def shootOf (dies : List Nat) (fin : Done) : Shootdown := ⟨0#6, 0x10000, 0x30000, 0#64, [1], dies, fin⟩
def shooting (dies : List Nat) (fin : Done) : State := argsOf (fun a => { a with num := 5 }) { demo with shootdowns := [shootOf dies fin] }
def shootFirst : State := shooting [0, 5] .nothing
def shootLast : State := shooting [5] (.ylReturn 7#64)
def shootMask : State := shooting [5] (.mask 1#64)

/-- Page tables of the partition: the hypervisor's, from 0x100000, map 32 MiB; the guest's, from 0x140000, map page 4. -/
def pteOf (at_ : Nat) (x : Nat) (m : List Host.Cell) : List Host.Cell := memPut m at_ (natBytes 8 x)
def tableMem (m : List Host.Cell) : List Host.Cell :=
  [(0x100000, 0x110003), (0x110000, 0x120003), (0x120000, 0xD), (0x140000, 0x150003), (0x150000, 0x160003), (0x160000, 0x170003), (0x170020, 0x4000D)].foldr
    (fun p l => pteOf p.1 p.2 l) m
def tabled (f : Args → Args) : State :=
  argsOf f { demo with
    parts := [(0, { demoPart with hypRoot := 0x100000, guestRoot := 0x140000, brk := 0x200000 })]
    tlb := []
    mem := tableMem demo.mem }
def guestPte : Leaf := ⟨0x170020, 0x40000, 16, 0x4000D#64⟩
def hypPte : Leaf := ⟨0x120000, 0, 25, 0xD#64⟩
def scanOf : Scan := ⟨0#6, 0x40000, 4, 0#64, 0x40000, 0x50000⟩
def scanning : State := { tabled id with scans := [scanOf] }
def mapping (w : Word) : State := tabled (fun a => { a with a0 := 0x50000#64, a1 := 0x10000#64, a2 := w, a3 := 0x50000#64 })
def mapsPage : State := mapping 3#64
def okState (e : Except Nat State) (s : State) : State := match e with
  | .ok t => t
  | .error _ => s
def mapped : State := okState (mapPages 0#6 (fun k => mkLeaf 0#2 true true (0x50000 + 65536 * k) 0#10) 0x50000 1 0 mapsPage) mapsPage
def mapsOdd : State := tabled (fun a => { a with a0 := 1#64 })
def exmaps : State := tabled (fun a => { a with a0 := 0x40000#64, a1 := 0x10000#64 })
def allocates (full : Bool) : State := tabled (fun a => { a with a0 := 65536#64, a1 := 0#64, a2 := 0x60000#64, a3 := 0x1000000#64, flag := full })
def allocFails : State := allocates true
def allocWorks : State := allocates false
def allocated : State := okState (mapPages 0#6 (fun k => mkLeaf 0#2 true true (0x1000000 + 65536 * k) 0#10) 0x60000 1 0 allocWorks) allocWorks
def frees : State :=
  let s := tabled (fun a => { a with a0 := 0x40000#64 })
  { s with parts := s.parts.map (fun p => (p.1, { p.2 with blocks := [⟨0x40000, 65536, 0x40000⟩] })) }
def narrows : State := { demo with parts := [(0, { demoPart with feature := 3#64 })], arg := { demo.arg with a0 := 1#64 } }

/-- Calls of the control program. -/
def callWith (a0 a1 : Word) : State := argsOf (fun a => { a with a0 := a0, a1 := a1 })
def unknownCall : State := argsOf (fun a => { a with flag := true, num := 17 })
def peerLast : State := callWith 1023 0
def peerNone : State := callWith 1024 0
def policyCall : State := callWith 0x18 2
def quotaLim : State := callWith 0 (BitVec.allOnes 64)
def quotaRead : State := callWith 1 (BitVec.allOnes 64)
def quotaSet : State := callWith 1 256
def joinAt (n : Nat) : State := argsOf (fun a => { a with a0 := 0x10080#64 }) { demo with mem := memPut demo.mem 0x10080 (natBytes 8 (n + 0x4A * 2 ^ 56)) }
def waitDone : State := joinAt 0
def waitLong : State := joinAt 0xFFFFFFFF
def mboxCall : State := argsOf (fun a => { a with a0 := 7#64, a1 := 8#64 })
def mboxClosing : State := { mboxCall with mailboxes := [(7, openBox [] [])] }
def imageOf1 (code : Option Word) : Image := ⟨0, 0#6, 3, [], [], 0#64, 0#64, 0#64, code⟩
def exitCall : State := { callWith 5 0 with images := [imageOf1 none] }
def attestGone : State := { callWith 0x10000 0x20000 with keysGone := true }
def attestCall : State := { callWith 0x10000 0x20000 with images := [imageOf1 none], needsProvision := false, keysGone := false }
def joinCreate : State := argsOf (fun a => { a with a0 := 0x10080#64, a1 := 0xFFFFFFFF#64, a2 := 3#64 })
def launchRec : BitVec 1024 :=
  BitVec.ofNat 1024 ([(0, 1), (64, 0x2000), (128, 0x20000), (224, 1), (320, 1), (324, 2), (326, 1), (384, 32), (392, 1), (410, 1)].foldl (fun x p => x + p.2 * 2 ^ p.1) 0)
def launching : State :=
  inPart id (argsOf (fun a => { a with a0 := 0x10000#64, num := 65535 }) { demo with mem := memPut demo.mem 0x10000 (bvBytes launchRec) })

/-- A partition-table entry with four rings of 64 entries; virtual function 384. -/
def tableOf : BitVec 4096 := BitVec.ofNat 4096 ((List.range 4).foldl (fun x l => x + 6 * 2 ^ (8 * (0x188 + 32 * l)) + (l + 1) * 0x1000 * 2 ^ (8 * (0x180 + 32 * l))) 0x1)
def activates : State := { argsOf (s := { demo with controls := BitVec.allOnes 24 }) (fun a => { a with peers := [384], p := 47#6 }) with parts := [(47, { Partition.none with entry := tableOf })] }
def shootFree : State := shooting [5] (.free 0x40000)
def shootTable : State := shooting [5] (.table tableOf)
def vfReady : State := { demo with vfs := [(384, ⟨some 0#6, 0#64, 0x1000#64, true, false⟩)] }
def writesReg (r : RegTarget) (x : Word) : State := argsOf (fun a => { a with reg := r, a0 := x }) vfReady
def ringBaseOk : State := writesReg (.ringBase 384) 0x2000#64
def ringBaseOdd : State := writesReg (.ringBase 384) 0x2001#64
def unassignedWrite : State := writesReg (.ringBase 0) 0x2000#64
def readsDoorbell : State := writesReg (.bar0Read 384 .doorbell) 0
def readsRingBase : State := writesReg (.bar0Read 384 .ringBase) 0
def readsStatus : State := writesReg (.bar0Read 384 .status) 0
def unassignedRead : State := writesReg (.bar0Read 0 .status) 0
def statusWrite : State := writesReg (.vfStatus 384) 1#64
def remtoWrite : State := writesReg .remto 5#64
def peerWrite : State := writesReg (.peer 1023#10) 0x1F03#64
def tableWrite : State := writesReg (.table 0#6) 0#64
def tableNarrows : State := { tableWrite with parts := [(0, { demoPart with feature := 1#64 })] }
def tableRests : State := writesReg (.table 47#6) 0#64
def savedGang : Gang := { gangAt 1 [] none false with slots := [none], images := [(0, demoStrand)] }
def wdlimWrite : State := { writesReg (.savedWdlim 0x100000000 0) 9#64 with gangs := [savedGang] }
def hvringWrite : State := writesReg (.device 0x000E000000001000) 9#64

/-- A host ring of 16 entries at 0x1000 whose entry 15 is STATUS of image 0. -/
def ringed (flag : Bool) : State :=
  argsOf (fun a => { a with mb := 384, a0 := 0#64, flag := flag }) { vfReady with
    images := [imageOf1 (some 5#64)]
    hostMem := memPut (memPut (memPut (memPut [] 0x1000 [4#8]) 0x1010 (natBytes 4 0xFFFFFFFF)) 0x1400 [3#8]) 0x1018 [255#8] }
def doorbells : State := ringed false
def doorbellFails : State := ringed true
def doorbellIdle : State := { ringed false with vfs := [(384, ⟨some 0#6, 0#64, 0x1000#64, false, false⟩)] }
def functionReset : State := argsOf (fun a => { a with mb := 384 }) vfReady
def links : State := argsOf (fun a => { a with mb := 17, peers := [1023] })

/-- A request of package 5. -/
def asked (op : RemoteOp) : State := argsOf (fun a => { a with peer := 5#10, remote := op })
def askedRead : State := asked (.read 0x10060 32)
def askedHole : State := asked (.read 0x9000000000 4)
def askedWrite : State := asked (.write 0x10078 [1#8, 2#8, 3#8, 4#8, 5#8, 6#8, 7#8, 8#8])
def askedAdd : State := asked (.atomic 0#4 true 0x10078 5#64)
def askedOp (op : BitVec 4) (wide : Bool) (b : Word) : State := asked (.atomic op wide 0x10000 b)
def writeHole : State := asked (.write 0x9000000000 [1#8, 2#8])
def atomicOdd : State := asked (.atomic 1#4 true 0x10004 5#64)
def atomicScanned : State := { asked (.atomic 9#4 false 0x10040 5#64) with parts := [(0, { demoPart with scan := [0, 1] })] }
def casHole : State := asked (.cas true 0x9000000000 0 5#64)
def askedCas : State := asked (.cas false 0x1007C 0#64 5#64)

/-- The turn of slot 0, whose pc 0x1000 holds ADDI s4, s5, −1; the turn of an event. -/
def addiTurn : State := { demo with mem := memPut demo.mem 0x1000 (natBytes 4 0x0885FFFF), agenda := [⟨0, .issue 0⟩] }
def eventTurn : State := { demo with agenda := [⟨0, .event .powerLoss demo.arg⟩] }

/-! ### Ill-formed terms, one for each check, which the check refuses -/

/-- A reserved code 3 in a size, scope, operand or token queue field. -/
theorem test_refused_reserved_codes : ∀ i ∈ ([
    .lds 0 0 0 3, .lda 0 0 3 0, .str 0 0 3 0, .fence 3, .amoAdd 0 0 0 0 0 0 3 0, .amoAnd 0 0 0 0 0 0 3 0, .amoOr 0 0 0 0 0 0 3 0,
    .amoXor 0 0 0 0 0 0 3 0, .amoSmin 0 0 0 0 0 0 3 0, .amoSmax 0 0 0 0 0 0 3 0, .amoUmin 0 0 0 0 0 0 3 0, .amoUmax 0 0 0 0 0 0 3 0,
    .amoSwap 0 0 0 0 0 3 0, .amoFadd 0 0 0 0 0 0 3, .cas 0 0 0 0 0 3 0, .stn 0 0 0 3 0, .tpref 0 3 0, .tpref 0 0 3, .tdrop 0 3 0, .tdrop 0 0 3,
    .tzero 0 3 0, .tzero 0 0 3, .tloadA 0 0 0 3 0 0, .tloadA 0 0 0 0 3 0, .tloadA 0 0 0 0 0 3, .tloadB 0 0 0 3 0 0, .tloadB 0 0 0 0 3 0,
    .tloadB 0 0 0 0 0 3, .tloadC 0 0 0 3 0, .tloadC 0 0 0 0 3, .tstoreA 0 0 0 3 0, .tstoreA 0 0 0 0 3, .tstoreB 0 0 0 3 0, .tstoreB 0 0 0 0 3,
    .tstoreC 0 0 0 3 0, .tstoreC 0 0 0 0 3, .tmma 0 0 0 0 3 0, .tmma 0 0 0 0 0 3, .tmmaSet 0 0 0 0 3 0, .tmmaSet 0 0 0 0 0 3,
    .tmmaSw 0 0 0 0 3 0, .tmmaSw 0 0 0 0 0 3, .tmmaSetSw 0 0 0 0 3 0, .tmmaSetSw 0 0 0 0 0 3, .twload 0 0 0 3 0, .twload 0 0 0 0 3,
    .vtom 0 0 0 3 0, .vtom 0 0 0 0 3, .mtov 0 0 0 0 3 0, .mtov 0 0 0 0 0 3, .ttrans 0 0 0 3 0, .ttrans 0 0 0 0 3, .tcvt 0 0 0 0 3 0,
    .tcvt 0 0 0 0 0 3, .tadd 0 0 0 0 0 0 3 0, .tadd 0 0 0 0 0 0 0 3, .cpy 0 0 0 0 3 0, .cpy 0 0 0 0 0 3, .cpyt 0 0 0 0 3 0, .cpyt 0 0 0 0 0 3,
    .mdiscard 0 0 0 3 0, .mdiscard 0 0 0 0 3, .cpyz 0 0 0 0 3 0, .cpyz 0 0 0 0 0 3, .binit 0 0 3 0, .binit 0 0 0 3, .bexp 0 0 3 0, .bexp 0 0 0 3,
    .barr 0 0 3 0, .barr 0 0 0 3, .bwait 0 0 3 0, .bwait 0 0 0 3, .btest 0 0 3 0, .btest 0 0 0 3, .pend 0 0 3 0, .pend 0 0 0 3,
    .bexparr 0 0 0 3 0, .bexparr 0 0 0 0 3, .tokp 3, .tokw 3, .msend 0 0 3 0, .msend 0 0 0 3, .tsend 0 0 0 3 0, .tsend 0 0 0 0 3,
    .tsendAdd 0 0 0 3 0, .tsendAdd 0 0 0 0 3, .rpost 0 0 3 0, .rpost 0 0 0 3, .rpostm 0 0 0 3 0, .rpostm 0 0 0 0 3, .rcancel 0 0 3 0,
    .rcancel 0 0 0 3, .rprobe 0 0 0 3 0, .rprobe 0 0 0 0 3, .swp 0 0 3 0, .swp 0 0 0 3, .swnext 3 0, .swnext 0 3, .swexit 3 0, .swexit 0 3,
    .swake 0 0 3 0, .swake 0 0 0 3, .swakev 0 0 0 3 0, .swakev 0 0 0 0 3, .swakee 0 0 3 0, .swakee 0 0 0 3] : List Instr), wellFormed i = false := by decide +kernel

/-- R38: a number the map does not list, and a write of a CSR with no writable field. -/
theorem test_refused_csr : ∀ i ∈ ([
    .csrr 0 0x007, .csrr 0 0x043, .csrw 0 0x008, .csrs 0 0x008, .csrc 0 0x008] : List Instr), wellFormed i = false := by decide +kernel

/-- A field that must not be 0: a mask destination k0, a WSB without slots, a guard slot 0, a token form without a queue. -/
theorem test_refused_zero_fields : ∀ i ∈ ([
    .wsb 0, .vcmpEq 0 0 0 0 0 0, .vcmpNe 0 0 0 0 0 0, .vcmpLt 0 0 0 0 0 0, .vcmpLe 0 0 0 0 0 0, .vcmpLtu 0 0 0 0 0 0, .vcmpLeu 0 0 0 0 0 0,
    .vcmpFeq 0 0 0 0 0 0 0, .vcmpFlt 0 0 0 0 0 0 0, .kand 0 0 0, .kor 0 0 0, .kxor 0 0 0, .kandn 0 0 0, .kbrka 0 0, .kbrki 0 0,
    .vsc 0 0 0 0 0 0 0, .tokp 0, .tokw 0, .gset 0 0, .grst 0] : List Instr), wellFormed i = false := by decide +kernel

/-- R262: a group multiplier that the element width does not allow. -/
theorem test_refused_vcfg : ∀ i ∈ ([
    .vcfg 0 0 3 2] : List Instr), wellFormed i = false := by decide +kernel

/-- A copy class with bit 0 set. -/
theorem test_refused_odd_class : ∀ i ∈ ([
    .cpy 0 0 1 0 0 0, .cpyt 0 0 1 0 0 0, .mdiscard 0 1 0 0 0, .cpyz 0 0 1 0 0 0] : List Instr), wellFormed i = false := by decide +kernel

/-- A step without an encoding has no word. -/
theorem test_refused_no_word : ∀ i ∈ ([
    .stnFlagIncrement, .msmcfgWrite, .srseedWrite, .registerWrite, .wfeTimeout, .vectorLoadLateError, .scatterAck, .mCommandRetire,
    .fillComplete, .spillComplete, .copyStart, .copyRetire, .guardedCommandDiscard, .bwaitWake, .sendStart, .pullRequest, .sendComplete,
    .headerArrival, .sequenceGapClose, .pullComplete, .pullFail, .landing, .destfaultRetry, .groupOpen, .sweepEngineFault, .wakeApply,
    .swakeePass, .scoreboardSlotComplete, .remoteTimeout, .tagQuarantineEnd, .latereply, .watchdog, .faultRecordAppend, .schedulerServe,
    .preemptionHalt, .saveComplete, .priorityInheritanceMove, .heldContinuationEnqueue, .throttleRaise, .throttleLower, .powerPreemption,
    .yalushResume, .launchEnd, .msmThermalLimit, .msmThermalClear, .hbmThermalLevel, .eccCorrected, .uncorrectedError, .selfTestComplete,
    .shootdownRequest, .shootdownArrival, .scanComplete, .featureMaskNarrow, .securityAlarm, .partitionActivate, .ylLaunch, .ylWait, .ylMap,
    .ylUnmap, .ylExmap, .ylMboxOpen, .ylMboxClose, .ylJoinCreate, .ylFaultPolicy, .ylQuota, .ylPeerQuery, .ylAttest, .ylExit, .ylClock,
    .ylMemAlloc, .ylMemFree, .doorbell, .functionLevelReset, .linkDown, .powerGood, .recoveryImageSubmit, .powerCapSet, .packageReset,
    .idleEntry, .idleExit, .accessPerformed, .remoteAccessArrival, .linkUp, .powerLoss] : List Instr), wellFormed i = false := by decide +kernel

/-! ### Words written out from the encodings of spec/13_encoding.md and the family tables -/

theorem test_words_opr : ∀ p ∈ ([
    (0b000001_11110_01101_10110_00000000000#32, .add 30#5 13#5 22#5),
    (0b000001_11110_01101_10110_00000000001#32, .sub 30#5 13#5 22#5),
    (0b000001_11110_01101_10110_00000000010#32, .and 30#5 13#5 22#5),
    (0b000001_11110_01101_10110_00000000011#32, .or 30#5 13#5 22#5),
    (0b000001_11110_01101_10110_00000000100#32, .xor 30#5 13#5 22#5),
    (0b000001_11110_01101_10110_00000000101#32, .andn 30#5 13#5 22#5),
    (0b000001_11110_01101_10110_00000000110#32, .sll 30#5 13#5 22#5),
    (0b000001_11110_01101_10110_00000000111#32, .srl 30#5 13#5 22#5),
    (0b000001_11110_01101_10110_00000001000#32, .sra 30#5 13#5 22#5),
    (0b000001_11110_01101_10110_00000001001#32, .slt 30#5 13#5 22#5),
    (0b000001_11110_01101_10110_00000001010#32, .sltu 30#5 13#5 22#5),
    (0b000001_11110_01101_10110_00000001011#32, .min 30#5 13#5 22#5),
    (0b000001_11110_01101_10110_00000001100#32, .max 30#5 13#5 22#5),
    (0b000001_11110_01101_10110_00000001101#32, .minu 30#5 13#5 22#5),
    (0b000001_11110_01101_10110_00000001110#32, .maxu 30#5 13#5 22#5),
    (0b000001_11110_01101_10110_00000001111#32, .mul 30#5 13#5 22#5),
    (0b000001_11110_01101_10110_00000010000#32, .mulh 30#5 13#5 22#5),
    (0b000001_11110_01101_10110_00000010001#32, .mulhu 30#5 13#5 22#5),
    (0b000001_11110_01101_10110_00000010010#32, .div 30#5 13#5 22#5),
    (0b000001_11110_01101_10110_00000010011#32, .divu 30#5 13#5 22#5),
    (0b000001_11110_01101_10110_00000010100#32, .rem 30#5 13#5 22#5),
    (0b000001_11110_01101_10110_00000010101#32, .remu 30#5 13#5 22#5),
    (0b000001_11110_01101_00000_00000010110#32, .clz 30#5 13#5),
    (0b000001_11110_01101_00000_00000010111#32, .ctz 30#5 13#5),
    (0b000001_11110_01101_00000_00000011000#32, .popc 30#5 13#5),
    (0b000001_11110_01101_10110_00000011001#32, .csel 30#5 13#5 22#5),
    (0b000001_11110_01101_10110_00000011010#32, .addw 30#5 13#5 22#5),
    (0b000001_11110_01101_10110_00000011011#32, .subw 30#5 13#5 22#5),
    (0b000001_11110_01101_10110_00000011100#32, .mulw 30#5 13#5 22#5)] : List (IWord × Instr)), decode p.1 = some p.2 := by decide +kernel

theorem test_words_imm : ∀ p ∈ ([
    (0b000010_11110_01101_1000000100100011#32, .addi 30#5 13#5 33059#16),
    (0b000011_11110_01101_1000000100100011#32, .andi 30#5 13#5 33059#16),
    (0b000100_11110_01101_1000000100100011#32, .ori 30#5 13#5 33059#16),
    (0b000101_11110_01101_1000000100100011#32, .xori 30#5 13#5 33059#16),
    (0b000110_11110_01101_1000000100100011#32, .slti 30#5 13#5 33059#16),
    (0b000111_11110_01101_1000000100100011#32, .sltiu 30#5 13#5 33059#16),
    (0b001000_11110_00010_1000000100100011#32, .lih 30#5 2#2 33059#16),
    (0b001001_11110_01101_0000000000101101#32, .slli 30#5 13#5 45#6),
    (0b001001_11110_01101_0000000001101101#32, .srli 30#5 13#5 45#6),
    (0b001001_11110_01101_0000000010101101#32, .srai 30#5 13#5 45#6)] : List (IWord × Instr)), decode p.1 = some p.2 := by decide +kernel

theorem test_words_fop : ∀ p ∈ ([
    (0b001010_11110_01101_10110_00000000000#32, .fadd 30#5 13#5 22#5),
    (0b001010_11110_01101_10110_00000000001#32, .fsub 30#5 13#5 22#5),
    (0b001010_11110_01101_10110_00000000010#32, .fmul 30#5 13#5 22#5),
    (0b001010_11110_01101_10110_00000000011#32, .fma 30#5 13#5 22#5),
    (0b001010_11110_01101_10110_00000000100#32, .fmin 30#5 13#5 22#5),
    (0b001010_11110_01101_10110_00000000101#32, .fmax 30#5 13#5 22#5),
    (0b001010_11110_01101_00000_00000000110#32, .fcvtws 30#5 13#5),
    (0b001010_11110_01101_00000_00000000111#32, .fcvtsw 30#5 13#5),
    (0b001010_11110_01101_10110_00000001000#32, .flt 30#5 13#5 22#5),
    (0b001010_11110_01101_10110_00000001001#32, .feq 30#5 13#5 22#5)] : List (IWord × Instr)), decode p.1 = some p.2 := by decide +kernel

theorem test_words_loadStore : ∀ p ∈ ([
    (0b001011_11110_01101_1111111111101101#32, .ld 30#5 13#5 16379#14 1#2),
    (0b001100_11110_01101_1111111111101101#32, .lds 30#5 13#5 16379#14 1#2),
    (0b001101_11110_01101_1111111111101101#32, .st 30#5 13#5 16379#14 1#2),
    (0b001110_11110_01101_00000_00000100011#32, .lda 30#5 13#5 2#2 1#1),
    (0b001110_00000_01101_10110_00000100111#32, .str 13#5 22#5 2#2 1#1),
    (0b001110_00000_00000_00000_00000101000#32, .fence 2#2)] : List (IWord × Instr)), decode p.1 = some p.2 := by decide +kernel

theorem test_words_amo : ∀ p ∈ ([
    (0b001111_11110_01101_10110_11110110000#32, .amoAdd 30#5 13#5 22#5 1#1 1#1 1#1 2#2 1#1),
    (0b001111_11110_01101_10110_11110110001#32, .amoAnd 30#5 13#5 22#5 1#1 1#1 1#1 2#2 1#1),
    (0b001111_11110_01101_10110_11110110010#32, .amoOr 30#5 13#5 22#5 1#1 1#1 1#1 2#2 1#1),
    (0b001111_11110_01101_10110_11110110011#32, .amoXor 30#5 13#5 22#5 1#1 1#1 1#1 2#2 1#1),
    (0b001111_11110_01101_10110_11110110100#32, .amoSmin 30#5 13#5 22#5 1#1 1#1 1#1 2#2 1#1),
    (0b001111_11110_01101_10110_11110110101#32, .amoSmax 30#5 13#5 22#5 1#1 1#1 1#1 2#2 1#1),
    (0b001111_11110_01101_10110_11110110110#32, .amoUmin 30#5 13#5 22#5 1#1 1#1 1#1 2#2 1#1),
    (0b001111_11110_01101_10110_11110110111#32, .amoUmax 30#5 13#5 22#5 1#1 1#1 1#1 2#2 1#1),
    (0b001111_11110_01101_10110_01110111000#32, .amoSwap 30#5 13#5 22#5 1#1 1#1 2#2 1#1),
    (0b001111_11110_01101_10110_11110101001#32, .amoFadd 30#5 13#5 22#5 1#1 1#1 1#1 2#2),
    (0b010000_11110_01101_10110_01110110000#32, .cas 30#5 13#5 22#5 1#1 1#1 2#2 1#1),
    (0b010001_11110_01101_10110_00000100011#32, .stn 30#5 13#5 22#5 2#2 1#1)] : List (IWord × Instr)), decode p.1 = some p.2 := by decide +kernel

theorem test_words_branch : ∀ p ∈ ([
    (0b010010_000_01101_10110_1111111111011#32, .bcEq 13#5 22#5 8187#13),
    (0b010010_001_01101_10110_1111111111011#32, .bcNe 13#5 22#5 8187#13),
    (0b010010_010_01101_10110_1111111111011#32, .bcLt 13#5 22#5 8187#13),
    (0b010010_011_01101_10110_1111111111011#32, .bcGe 13#5 22#5 8187#13),
    (0b010010_100_01101_10110_1111111111011#32, .bcLtu 13#5 22#5 8187#13),
    (0b010010_101_01101_10110_1111111111011#32, .bcGeu 13#5 22#5 8187#13),
    (0b010010_110_01101_10110_1111111111011#32, .bcBset 13#5 22#5 8187#13),
    (0b010010_111_01101_10110_1111111111011#32, .bcBclr 13#5 22#5 8187#13),
    (0b010011_11111111111111111111111011#32, .j 67108859#26),
    (0b010100_11111111111111111111111011#32, .jal 67108859#26),
    (0b010101_11110_01101_1000000100100011#32, .jalr 30#5 13#5 33059#16),
    (0b010110_00000_01101_1011111011101111#32, .callt 13#5 48879#16)] : List (IWord × Instr)), decode p.1 = some p.2 := by decide +kernel

theorem test_words_sys : ∀ p ∈ ([
    (0b010111_00000_00000_0000000100100011#32, .nop 291#12),
    (0b010111_11110_00000_0001000000001010#32, .csrr 30#5 10#12),
    (0b010111_00000_01101_0010000000001010#32, .csrw 13#5 10#12),
    (0b010111_00000_01101_0011000000001010#32, .csrs 13#5 10#12),
    (0b010111_00000_01101_0100000000001010#32, .csrc 13#5 10#12),
    (0b010111_00000_00000_0101000100100011#32, .trap 291#12),
    (0b010111_00000_00000_0110000000000000#32, .bkpt),
    (0b010111_00000_01101_0111000000000000#32, .wfe 13#5),
    (0b010111_00000_00000_1000000000000000#32, .exit),
    (0b010111_00000_00000_1001000000000000#32, .yield),
    (0b010111_00000_00000_1010000010100010#32, .wsb 81#7),
    (0b010111_00000_01101_1011000000000011#32, .fork 13#5 3#2),
    (0b011000_11110_01101_0000000000000110#32, .vcfg 30#5 13#5 1#2 2#2)] : List (IWord × Instr)), decode p.1 = some p.2 := by decide +kernel

theorem test_words_vectorInteger : ∀ p ∈ ([
    (0b011001_11110_01101_10110_1_1_101_000_000#32, .vadd 30#5 13#5 22#5 1#1 1#1 5#3),
    (0b011001_11110_01101_10110_1_1_101_000_001#32, .vsub 30#5 13#5 22#5 1#1 1#1 5#3),
    (0b011001_11110_01101_10110_1_1_101_000_010#32, .vmul 30#5 13#5 22#5 1#1 1#1 5#3),
    (0b011001_11110_01101_10110_1_1_101_000_011#32, .vmulh 30#5 13#5 22#5 1#1 1#1 5#3),
    (0b011001_11110_01101_10110_1_1_101_000_100#32, .vand 30#5 13#5 22#5 1#1 1#1 5#3),
    (0b011001_11110_01101_10110_1_1_101_000_101#32, .vor 30#5 13#5 22#5 1#1 1#1 5#3),
    (0b011001_11110_01101_10110_1_1_101_000_110#32, .vxor 30#5 13#5 22#5 1#1 1#1 5#3),
    (0b011001_11110_01101_10110_1_1_101_000_111#32, .vandn 30#5 13#5 22#5 1#1 1#1 5#3),
    (0b011010_11110_01101_10110_1_1_101_000_000#32, .vsll 30#5 13#5 22#5 1#1 1#1 5#3),
    (0b011010_11110_01101_10110_1_1_101_000_001#32, .vsrl 30#5 13#5 22#5 1#1 1#1 5#3),
    (0b011010_11110_01101_10110_1_1_101_000_010#32, .vsra 30#5 13#5 22#5 1#1 1#1 5#3),
    (0b011010_11110_01101_10110_1_1_101_000_011#32, .vmin 30#5 13#5 22#5 1#1 1#1 5#3),
    (0b011010_11110_01101_10110_1_1_101_000_100#32, .vmax 30#5 13#5 22#5 1#1 1#1 5#3),
    (0b011010_11110_01101_10110_1_1_101_000_101#32, .vminu 30#5 13#5 22#5 1#1 1#1 5#3),
    (0b011010_11110_01101_10110_1_1_101_000_110#32, .vmaxu 30#5 13#5 22#5 1#1 1#1 5#3),
    (0b011010_11110_01101_10110_1_1_101_000_111#32, .vadds 30#5 13#5 22#5 1#1 1#1 5#3)] : List (IWord × Instr)), decode p.1 = some p.2 := by decide +kernel

theorem test_words_vectorCompare : ∀ p ∈ ([
    (0b011011_00011_01101_10110_1_1_101_000_000#32, .vcmpEq 3#3 13#5 22#5 1#1 1#1 5#3),
    (0b011011_00011_01101_10110_1_1_101_000_001#32, .vcmpNe 3#3 13#5 22#5 1#1 1#1 5#3),
    (0b011011_00011_01101_10110_1_1_101_000_010#32, .vcmpLt 3#3 13#5 22#5 1#1 1#1 5#3),
    (0b011011_00011_01101_10110_1_1_101_000_011#32, .vcmpLe 3#3 13#5 22#5 1#1 1#1 5#3),
    (0b011011_00011_01101_10110_1_1_101_000_100#32, .vcmpLtu 3#3 13#5 22#5 1#1 1#1 5#3),
    (0b011011_00011_01101_10110_1_1_101_000_101#32, .vcmpLeu 3#3 13#5 22#5 1#1 1#1 5#3),
    (0b011011_00011_01101_10110_1_1_101_101_110#32, .vcmpFeq 3#3 13#5 22#5 1#1 1#1 5#3 5#3),
    (0b011011_00011_01101_10110_1_1_101_101_111#32, .vcmpFlt 3#3 13#5 22#5 1#1 1#1 5#3 5#3)] : List (IWord × Instr)), decode p.1 = some p.2 := by decide +kernel

theorem test_words_vectorFloat : ∀ p ∈ ([
    (0b011100_11110_01101_10110_1_1_101_101_000#32, .vfadd 30#5 13#5 22#5 1#1 1#1 5#3 5#3),
    (0b011100_11110_01101_10110_1_1_101_101_001#32, .vfsub 30#5 13#5 22#5 1#1 1#1 5#3 5#3),
    (0b011100_11110_01101_10110_1_1_101_101_010#32, .vfmul 30#5 13#5 22#5 1#1 1#1 5#3 5#3),
    (0b011100_11110_01101_10110_1_1_101_101_011#32, .vfmin 30#5 13#5 22#5 1#1 1#1 5#3 5#3),
    (0b011100_11110_01101_10110_1_1_101_101_100#32, .vfmax 30#5 13#5 22#5 1#1 1#1 5#3 5#3),
    (0b011100_11110_01101_10110_1_1_101_101_101#32, .vfdiv 30#5 13#5 22#5 1#1 1#1 5#3 5#3),
    (0b011100_11110_01101_00000_1_0_101_101_110#32, .vfsqrt 30#5 13#5 1#1 5#3 5#3),
    (0b011100_11110_01101_10110_1_1_101_101_111#32, .vfscale 30#5 13#5 22#5 1#1 1#1 5#3 5#3),
    (0b011101_11110_01101_10110_1_1_101_101_000#32, .vfma 30#5 13#5 22#5 1#1 1#1 5#3 5#3),
    (0b011101_11110_01101_10110_1_1_101_101_001#32, .vfms 30#5 13#5 22#5 1#1 1#1 5#3 5#3),
    (0b011101_11110_01101_10110_1_1_101_101_010#32, .vfnma 30#5 13#5 22#5 1#1 1#1 5#3 5#3),
    (0b011101_11110_01101_10110_1_1_101_101_011#32, .vfnms 30#5 13#5 22#5 1#1 1#1 5#3 5#3),
    (0b011110_11110_01101_00000_1_0_101_101_000#32, .vfcvt 30#5 13#5 1#1 5#3 5#3),
    (0b011110_11110_01101_00000_1_0_101_101_001#32, .vfcvti 30#5 13#5 1#1 5#3 5#3),
    (0b011110_11110_01101_00000_1_0_101_101_010#32, .vfneg 30#5 13#5 1#1 5#3 5#3),
    (0b011110_11110_01101_00000_1_0_101_101_011#32, .vfabs 30#5 13#5 1#1 5#3 5#3),
    (0b011110_11110_01101_00000_1_0_101_101_100#32, .vfclass 30#5 13#5 1#1 5#3 5#3)] : List (IWord × Instr)), decode p.1 = some p.2 := by decide +kernel

theorem test_words_vectorReduce : ∀ p ∈ ([
    (0b011111_11110_01101_00000_1_0_101_000_000#32, .vredsum 30#5 13#5 1#1 5#3),
    (0b011111_11110_01101_00000_1_0_101_000_001#32, .vredmax 30#5 13#5 1#1 5#3),
    (0b011111_11110_01101_00000_1_0_101_000_010#32, .vredmin 30#5 13#5 1#1 5#3),
    (0b011111_11110_01101_00000_1_0_101_000_011#32, .vredmaxu 30#5 13#5 1#1 5#3),
    (0b011111_11110_01101_00000_1_0_101_000_100#32, .vredminu 30#5 13#5 1#1 5#3),
    (0b011111_11110_01101_00000_1_0_101_101_101#32, .vfredsum 30#5 13#5 1#1 5#3 5#3),
    (0b011111_11110_01101_00000_1_0_101_101_110#32, .vfredmax 30#5 13#5 1#1 5#3 5#3),
    (0b011111_11110_01101_00000_1_0_101_101_111#32, .vfredmin 30#5 13#5 1#1 5#3 5#3)] : List (IWord × Instr)), decode p.1 = some p.2 := by decide +kernel

theorem test_words_vectorMove : ∀ p ∈ ([
    (0b100000_11110_01101_10110_1_1_101_000_000#32, .vperm 30#5 13#5 22#5 1#1 1#1 5#3),
    (0b100000_11110_01101_10110_1_0_101_000_001#32, .vslideup 30#5 13#5 22#5 1#1 5#3),
    (0b100000_11110_01101_10110_1_0_101_000_010#32, .vslidedn 30#5 13#5 22#5 1#1 5#3),
    (0b100000_11110_01101_00000_1_0_101_000_011#32, .vcompress 30#5 13#5 1#1 5#3),
    (0b100000_11110_01101_00000_1_0_101_000_100#32, .vexpand 30#5 13#5 1#1 5#3),
    (0b100000_11110_00000_00000_0_0_101_000_101#32, .viota 30#5 5#3),
    (0b100000_11110_00000_10110_0_1_101_000_110#32, .vrix 30#5 22#5 1#1 5#3),
    (0b100000_00000_01101_10110_1_1_101_000_111#32, .vrixw 13#5 22#5 1#1 1#1 5#3),
    (0b100001_11110_01101_00000_1_0_101_000_000#32, .vmv 30#5 13#5 1#1 5#3),
    (0b100001_11110_01101_00000_0_0_101_000_001#32, .vsplat 30#5 13#5 5#3),
    (0b100001_11110_01101_10110_1_0_000_000_010#32, .vext 30#5 13#5 22#5 1#1),
    (0b100001_11110_01101_10110_0_0_000_000_011#32, .vins 30#5 13#5 22#5),
    (0b100001_11110_01101_10110_1_1_101_000_100#32, .vsel 30#5 13#5 22#5 1#1 1#1 5#3),
    (0b100001_11110_01101_00000_0_0_000_000_101#32, .vmvi 30#5 13#5),
    (0b100001_11110_01101_00000_1_0_000_000_110#32, .vmvo 30#5 13#5 1#1)] : List (IWord × Instr)), decode p.1 = some p.2 := by decide +kernel

theorem test_words_mask : ∀ p ∈ ([
    (0b100010_00011_00101_00110_0_0_000_000_000#32, .kand 3#3 5#3 6#3),
    (0b100010_00011_00101_00110_0_0_000_000_001#32, .kor 3#3 5#3 6#3),
    (0b100010_00011_00101_00110_0_0_000_000_010#32, .kxor 3#3 5#3 6#3),
    (0b100010_00011_00101_00110_0_0_000_000_011#32, .kandn 3#3 5#3 6#3),
    (0b100010_11110_00101_00000_0_0_000_000_100#32, .kpopc 30#5 5#3),
    (0b100010_11110_00101_00000_0_0_000_000_101#32, .kfirst 30#5 5#3),
    (0b100010_00011_00101_00000_0_0_000_000_110#32, .kbrka 3#3 5#3),
    (0b100010_00011_00101_00000_0_0_000_000_111#32, .kbrki 3#3 5#3),
    (0b110011_00000_01101_00000_1_0_000_000_000#32, .gbcast 13#5 1#1),
    (0b110011_11110_00000_00000_0_0_000_000_001#32, .grecv 30#5)] : List (IWord × Instr)), decode p.1 = some p.2 := by decide +kernel

theorem test_words_vectorMemory : ∀ p ∈ ([
    (0b100011_01000_01101_00000_101_110_101_0_0#32, .vld 8#5 13#5 5#3 6#3 5#3),
    (0b100011_01000_01101_10110_101_110_101_0_1#32, .vlds 8#5 13#5 22#5 5#3 6#3 5#3),
    (0b100100_01000_01101_10110_101_110_101_1_0#32, .vldx 8#5 13#5 22#5 5#3 6#3 5#3 1#1),
    (0b100100_01000_01101_10110_101_110_101_1_1#32, .vgl 8#5 13#5 22#5 5#3 6#3 5#3 1#1),
    (0b100101_01000_01101_00000_101_110_101_1_0#32, .vst 8#5 13#5 5#3 6#3 5#3 1#1),
    (0b100101_01000_01101_10110_101_110_101_1_1#32, .vsts 8#5 13#5 22#5 5#3 6#3 5#3 1#1),
    (0b100110_01000_01101_10110_101_110_101_1_0#32, .vstx 8#5 13#5 22#5 5#3 6#3 5#3 1#1),
    (0b100110_01000_01101_10110_101_110_101_1_1#32, .vsc 8#5 13#5 22#5 5#3 6#3 5#3 1#1),
    (0b100111_01000_01101_00000_101_110_101_0_0#32, .vldff 8#5 13#5 5#3 6#3 5#3),
    (0b100111_01000_01101_10110_101_110_101_1_1#32, .vappend 8#5 13#5 22#5 5#3 6#3 5#3 1#1),
    (0b101000_01000_01101_10110_101_110_101_1_0#32, .vrred 8#5 13#5 22#5 5#3 6#3 5#3 1#1)] : List (IWord × Instr)), decode p.1 = some p.2 := by decide +kernel

theorem test_words_matrix : ∀ p ∈ ([
    (0b101001_11110_01101_00000_0_0_110_00_00_00#32, .tshape 30#5 13#5 6#3),
    (0b101001_00000_01101_00000_0_0_000_00_00_01#32, .setmw 13#5),
    (0b101001_01001_00000_00000_0_0_000_01_10_10#32, .tpref 9#5 1#2 2#2),
    (0b101001_01001_00000_00000_0_0_000_01_10_11#32, .tdrop 9#5 1#2 2#2),
    (0b101001_01001_00000_00000_0_1_000_01_10_00#32, .tzero 9#5 1#2 2#2),
    (0b101010_01001_01101_10110_10_01_10_000_00#32, .tloadA 9#5 13#5 22#5 2#2 1#2 2#2),
    (0b101010_01001_01101_10110_10_01_10_001_00#32, .tloadB 9#5 13#5 22#5 2#2 1#2 2#2),
    (0b101010_01001_01101_10110_00_01_10_010_00#32, .tloadC 9#5 13#5 22#5 1#2 2#2),
    (0b101010_01001_01101_10110_00_01_10_011_00#32, .tstoreA 9#5 13#5 22#5 1#2 2#2),
    (0b101010_01001_01101_10110_00_01_10_100_00#32, .tstoreB 9#5 13#5 22#5 1#2 2#2),
    (0b101010_01001_01101_10110_00_01_10_101_00#32, .tstoreC 9#5 13#5 22#5 1#2 2#2),
    (0b101011_11110_01101_00000_1_0_110_01_10_00#32, .tmma 30#5 13#5 1#1 6#3 1#2 2#2),
    (0b101011_11110_01101_00000_1_0_110_01_10_01#32, .tmmaSet 30#5 13#5 1#1 6#3 1#2 2#2),
    (0b101011_11110_01101_00000_1_0_110_01_10_10#32, .tmmaSw 30#5 13#5 1#1 6#3 1#2 2#2),
    (0b101011_11110_01101_00000_1_0_110_01_10_11#32, .tmmaSetSw 30#5 13#5 1#1 6#3 1#2 2#2),
    (0b101100_00000_01101_00000_1_0_110_01_10_00#32, .twload 13#5 1#1 6#3 1#2 2#2),
    (0b101101_01001_01101_10110_0_0_000_01_10_00#32, .vtom 9#5 13#5 22#5 1#2 2#2),
    (0b101101_11110_01101_10110_1_0_001_01_10_00#32, .mtov 30#5 13#5 22#5 1#1 1#2 2#2),
    (0b101101_11110_01101_00000_1_0_010_01_10_00#32, .ttrans 30#5 13#5 1#1 1#2 2#2),
    (0b101101_11110_01101_00000_1_0_110_01_10_01#32, .tcvt 30#5 13#5 1#1 6#3 1#2 2#2),
    (0b101101_11110_01101_10110_1_1_110_01_10_10#32, .tadd 30#5 13#5 22#5 1#1 1#1 6#3 1#2 2#2)] : List (IWord × Instr)), decode p.1 = some p.2 := by decide +kernel

theorem test_words_copy : ∀ p ∈ ([
    (0b101110_01101_10110_00110_0111_01_10_000#32, .cpy 13#5 22#5 6#5 7#4 1#2 2#2),
    (0b101110_01101_10110_00110_0111_01_10_001#32, .cpyt 13#5 22#5 6#5 7#4 1#2 2#2),
    (0b101110_01101_00000_00110_0111_01_10_010#32, .mdiscard 13#5 6#5 7#4 1#2 2#2),
    (0b101110_01101_10110_00110_0111_01_10_011#32, .cpyz 13#5 22#5 6#5 7#4 1#2 2#2)] : List (IWord × Instr)), decode p.1 = some p.2 := by decide +kernel

theorem test_words_barrier : ∀ p ∈ ([
    (0b101111_01101_10110_00000_0000_01_10_000#32, .binit 13#5 22#5 1#2 2#2),
    (0b101111_01101_10110_00000_0000_01_10_001#32, .bexp 13#5 22#5 1#2 2#2),
    (0b101111_01101_10110_00000_0000_01_10_010#32, .barr 13#5 22#5 1#2 2#2),
    (0b101111_01101_10110_00000_0000_01_10_011#32, .bwait 13#5 22#5 1#2 2#2),
    (0b101111_01101_10110_00000_0000_01_10_100#32, .btest 13#5 22#5 1#2 2#2),
    (0b101111_01101_10110_00000_0000_01_10_101#32, .pend 13#5 22#5 1#2 2#2),
    (0b101111_01101_10110_00110_0000_01_10_110#32, .bexparr 13#5 22#5 6#5 1#2 2#2)] : List (IWord × Instr)), decode p.1 = some p.2 := by decide +kernel

theorem test_words_tokenGuard : ∀ p ∈ ([
    (0b110000_00000_00000_00000_0000_01_00_000#32, .tokp 1#2),
    (0b110000_00000_00000_00000_0000_00_10_001#32, .tokw 2#2),
    (0b110000_01101_00000_00000_0111_00_00_010#32, .gset 13#5 7#4),
    (0b110000_00000_00000_00000_0111_00_00_011#32, .grst 7#4)] : List (IWord × Instr)), decode p.1 = some p.2 := by decide +kernel

theorem test_words_message : ∀ p ∈ ([
    (0b110001_01101_00000_00000_0111_01_10_000#32, .msend 13#5 7#4 1#2 2#2),
    (0b110001_01101_10110_00000_0111_01_10_001#32, .tsend 13#5 22#5 7#4 1#2 2#2),
    (0b110001_01101_10110_00000_0111_01_10_010#32, .tsendAdd 13#5 22#5 7#4 1#2 2#2),
    (0b110001_01101_10110_00000_0000_01_10_011#32, .rpost 13#5 22#5 1#2 2#2),
    (0b110001_01101_10110_00110_0000_01_10_100#32, .rpostm 13#5 22#5 6#5 1#2 2#2),
    (0b110001_01101_10110_00000_0000_01_10_101#32, .rcancel 13#5 22#5 1#2 2#2),
    (0b110001_01101_10110_00110_0000_01_10_110#32, .rprobe 13#5 22#5 6#5 1#2 2#2)] : List (IWord × Instr)), decode p.1 = some p.2 := by decide +kernel

theorem test_words_sweep : ∀ p ∈ ([
    (0b110010_01101_10110_00000_0000_01_10_000#32, .swp 13#5 22#5 1#2 2#2),
    (0b110010_00000_00000_00000_0000_01_10_001#32, .swnext 1#2 2#2),
    (0b110010_00000_00000_00000_0000_01_10_010#32, .swexit 1#2 2#2),
    (0b110010_01101_10110_00000_0000_01_10_011#32, .swake 13#5 22#5 1#2 2#2),
    (0b110010_01101_10110_00011_0000_01_10_100#32, .swakev 13#5 22#5 3#3 1#2 2#2),
    (0b110010_01101_10110_00000_0000_01_10_101#32, .swakee 13#5 22#5 1#2 2#2)] : List (IWord × Instr)), decode p.1 = some p.2 := by decide +kernel

/-- Words the scanner refuses: the word 0, an unassigned opcode, and a NOP with a reserved bit. -/
theorem test_words_refused :
    ([0x00000000#32, 0xFFFFFFFF#32, 0x5C010000#32].all fun w => (decode w).isNone) = true := by decide +kernel

/-! ### One step on small states (expected results worked out from the rules cited) -/

/-- What one instruction leaves in the demo state. -/
def after {α : Type} (i : Instr) (f : State → α) : Option α :=
  match exec i demo with
  | .next t => some (f t)
  | _ => none

/-- R236: 7 + 3, and the sum of 3 and minus 7 wraps. -/
theorem test_add : after (.add 30 1 2) (fun t => t.me.getS 30) = some 10#64 ∧ after (.add 30 2 7) (fun t => t.me.getS 30) = some (BitVec.ofInt 64 (-4)) := by decide +kernel

/-- R237: -7 / 2 rounds toward zero, and the remainder takes the sign of A. -/
theorem test_div : after (.div 30 7 8) (fun t => t.me.getS 30) = some (BitVec.ofInt 64 (-3)) ∧ after (.rem 30 7 8) (fun t => t.me.getS 30) = some (BitVec.ofInt 64 (-1)) := by decide +kernel

/-- R237: a division by zero gives -1 and the remainder A. -/
theorem test_div_zero : after (.divu 30 1 0) (fun t => t.me.getS 30) = some (BitVec.ofInt 64 (-1)) ∧ after (.remu 30 1 0) (fun t => t.me.getS 30) = some 7#64 := by decide +kernel

/-- R25: a write of s0 is discarded, and the pc moves on. -/
theorem test_s0 : after (.add 0 1 2) (fun t => (t.me.getS 0, t.me.pc)) = some (0#64, 0x1004#64) := by decide +kernel

/-- R236: CSEL keeps s[d] where A is 0. -/
theorem test_csel : after (.csel 1 0 2) (fun t => t.me.getS 1) = some 7#64 ∧ after (.csel 1 2 8) (fun t => t.me.getS 1) = some 2#64 := by decide +kernel

/-- R239: LIH replaces one 16-bit part. -/
theorem test_lih : after (.lih 3 2 0xABCD) (fun t => t.me.getS 3) = some 0x0000ABCD00010000#64 := by decide +kernel

/-- R242: LD takes the lowest address as the least significant byte; LDS extends the sign of a byte. -/
theorem test_load : after (.ld 30 3 0 3) (fun t => t.me.getS 30) = some 0x8000002211#64 ∧ after (.lds 30 3 4 0) (fun t => t.me.getS 30) = some (BitVec.ofInt 64 (-128)) := by decide +kernel

/-- R243: an address that is no multiple of the access size takes ALIGN, and the strand stands at the load. -/
theorem test_load_align : after (.ld 30 1 0 3) (fun t => (t.me.phase, t.me.pc, t.me.fault.map (fun f => f.cls))) = some (.parked, 0x1000#64, some .align) := by decide +kernel

/-- R250: LT compares as signed, LTU as unsigned: minus 7 against 2. -/
theorem test_branch : after (.bcLt 7 8 4) (fun t => t.me.pc) = some 0x1010#64 ∧ after (.bcLtu 7 8 4) (fun t => t.me.pc) = some 0x1004#64 := by decide +kernel

/-- R263: four 32-bit elements are added lane by lane. -/
theorem test_vadd : after (.vadd 30 1 2 0 0 0) (fun t => (t.me.getV 30).setWidth 128) = some 0x00000007000000050000000300000001#128 := by decide +kernel

/-- R32, R263: lanes outside the mask keep their value: mask k1 has lanes 0 and 2. -/
theorem test_vadd_mask : after (.vadd 2 1 1 0 0 1) (fun t => (t.me.getV 2).setWidth 128) = some 0x00000003000000060000000100000002#128 := by decide +kernel

/-- R277: k2 has bits 1 and 2. -/
theorem test_kfirst : after (.kfirst 30 2) (fun t => t.me.getS 30) = some 1#64 ∧ after (.kpopc 30 2) (fun t => t.me.getS 30) = some 2#64 := by decide +kernel

/-- R241: the larger of 2.0 and -3.0, the smaller, and their sum. -/
theorem test_fop : (match exec (.fmax 30 10 11) (withS [(10, 0x40000000#64), (11, 0xC0400000#64)]) with | .next t => t.me.getS 30 | _ => 0#64) = 0x40000000#64 ∧
    (match exec (.fmin 30 10 11) (withS [(10, 0x40000000#64), (11, 0xC0400000#64)]) with | .next t => t.me.getS 30 | _ => 0#64) = 0xC0400000#64 ∧
    (match exec (.fadd 30 10 11) (withS [(10, 0x40000000#64), (11, 0xC0400000#64)]) with | .next t => t.me.getS 30 | _ => 0#64) = 0xBF800000#64 := by decide +kernel

/-- R255: TRAP parks the strand at the TRAP with class TRAP. -/
theorem test_trap : after (.trap 0x123) (fun t => (t.me.phase, t.me.pc, t.me.fault.map (fun f => f.cls))) = some (.parked, 0x1000#64, some .trap) := by decide +kernel

/-! ### States and operands that meet the hypotheses of the statements, clause by clause -/

theorem meets_ScalarRegisterForms : ((18446744073709551609 : Word) = demo.me.getS 7#5) ∧ ((3 : Word) = demo.me.getS 2#5) := by decide +kernel

theorem meets_ScalarBitCounts : (18446744073709551609 : Word) = demo.me.getS 7#5 := by decide +kernel

theorem meets_ScalarDivision : ((18446744073709551609 : Word) = demo.me.getS 7#5) ∧ ((0 : Word) = demo.me.getS 0#5) := by decide +kernel

theorem meets_ScalarImmediates : (18446744073709551609 : Word) = demo.me.getS 7#5 := by decide +kernel

theorem meets_ScalarShifts : (18446744073709551609 : Word) = demo.me.getS 7#5 := by decide +kernel

theorem meets_RoundingModes : 0 < 1 := by decide +kernel

theorem meets_FormatRoundTrip : (fp16 ∈ [fp32, bf16, fp16, e4m3, e5m2]) ∧ (31744 < 2 ^ fp16.width) ∧ ((decodeFloat fp16 false 31744).isNan = false) :=
  by decide +kernel

theorem meets_Branches : ((7 : Word) = demo.me.getS 1#5) ∧ ((3 : Word) = demo.me.getS 2#5) := by decide +kernel

theorem meets_JumpAligned : (BitVec.ofInt 64 (↑(BitVec.toNat (demo.me.getS 3#5)) + (4 : ℤ) * BitVec.toInt 32768#16)).toNat % 4 = 0 :=
  by decide +kernel

theorem meets_JumpMisaligned : ((BitVec.ofInt 64 (↑(BitVec.toNat (demo.me.getS 2#5)) + (4 : ℤ) * BitVec.toInt 32768#16)).toNat % 4 ≠ 0) ∧
    (demo.me.phase = Phase.running) := by decide +kernel

theorem meets_Traps : (demo.me.phase = Phase.running) ∧ (demo.me.sbPend = BitVec.ofNat 8 0) ∧ (fenceReady demo demo.cur Scope.package = true) :=
  by decide +kernel

theorem meets_TrapWaits : (slotPending.me.phase = Phase.running) ∧ (slotPending.me.sbPend ≠ BitVec.ofNat 8 0 ∨ fenceReady slotPending slotPending.cur
    Scope.package = false) := by decide +kernel

theorem meets_CsrReads : csrWaits demo.me (BitVec.ofNat 12 12) = false := by decide +kernel

theorem meets_CsrReadWaits : ∃ x ∈ reducing.me.out, ∃ f z l, x.op = AccessOp.reduce f z l := ⟨_, .head _, _, _, _, rfl⟩

theorem meets_CsrWrites : ((18446744073709551609 : Word) = demo.me.getS 7#5) ∧ (csrWaits demo.me (BitVec.ofNat 12 12) = false) := by decide +kernel

theorem meets_LoadFromMemory : ((∃ x, Place.mem 65536 false = Place.near x) ∨ ∃ x b, Place.mem 65536 false = Place.mem x b) ∧ (Reaches demo
    (offsetAddress demo 3#5 0#14 (2 ^ BitVec.toNat 3#2)) (2 ^ BitVec.toNat 3#2) Need.read (acceptsOfSize 3#2) (Place.mem 65536 false) demo) ∧
    (MayPerform demo (Place.mem 65536 false) (2 ^ BitVec.toNat 3#2) true) :=
  ⟨.inr ⟨_, _, rfl⟩, by unfold Reaches; decide +kernel, by unfold MayPerform; decide +kernel⟩

theorem meets_LoadFromMemory_1 : ((∃ x, Place.mem 65536 false = Place.near x) ∨ ∃ x b, Place.mem 65536 false = Place.mem x b) ∧ (Reaches demo
    (offsetAddress demo 3#5 0#14 (2 ^ BitVec.toNat 3#2)) (2 ^ BitVec.toNat 3#2) Need.read acceptsPlain (Place.mem 65536 false) demo) ∧ (MayPerform
    demo (Place.mem 65536 false) (2 ^ BitVec.toNat 3#2) true) :=
  ⟨.inr ⟨_, _, rfl⟩, by unfold Reaches; decide +kernel, by unfold MayPerform; decide +kernel⟩

theorem meets_LoadFromMemory_2 : ((∃ x, Place.mem 65536 false = Place.near x) ∨ ∃ x b, Place.mem 65536 false = Place.mem x b) ∧ (demo.me.deferred =
    none) ∧ (Reaches demo (demo.me.getS 3#5) (if 1#1 = BitVec.ofNat 1 1 then 8 else 4) Need.read acceptsWide (Place.mem 65536 false) demo) ∧
    (MayPerform demo (Place.mem 65536 false) (if 1#1 = BitVec.ofNat 1 1 then 8 else 4) true) :=
  ⟨.inr ⟨_, _, rfl⟩, by decide +kernel, by unfold Reaches; decide +kernel, by unfold MayPerform; decide +kernel⟩

theorem meets_StoresIssue : (isRemote (Place.mem 131064 false) = false) ∧ (isDevice (Place.mem 131064 false) = false) ∧ (Reaches demo (offsetAddress demo 3#5 8191#14 (2 ^ BitVec.toNat 3#2)) (2 ^
    BitVec.toNat 3#2) Need.write (acceptsOfSize 3#2) (Place.mem 131064 false) demo) :=
  ⟨by decide +kernel, by decide +kernel, by unfold Reaches; decide +kernel⟩

theorem meets_StoreReleaseIssue : (isRemote (Place.mem 65536 false) = false) ∧ (Reaches demo (offsetAddress demo 3#5 0#14 (2 ^ BitVec.toNat 3#2)) (2 ^
    BitVec.toNat 3#2) Need.write (acceptsOfSize 3#2) (Place.mem 65536 false) demo) := ⟨by decide +kernel, by unfold Reaches; decide +kernel⟩

theorem meets_DeviceStoreIssues : (isRemote (Place.device 0) = false) ∧ (∀ x ∈ demo.me.out, isDevice x.place = false) := by decide +kernel

theorem meets_StoreReleaseIssue_1 : (isRemote (Place.mem 65536 false) = false) ∧ (Reaches demo (demo.me.getS 3#5) (if 1#1 = BitVec.ofNat 1 1 then 8
    else 4) Need.write acceptsWide (Place.mem 65536 false) demo) := ⟨by decide +kernel, by unfold Reaches; decide +kernel⟩

theorem meets_StoreWithNotify : (isRemote (Place.mem 65536 false) = false) ∧ (isRemote (Place.mem 65600 false) = false) ∧ (Reaches demo (demo.me.getS
    3#5) (if 1#1 = BitVec.ofNat 1 1 then 8 else 4) Need.readWrite acceptsFar (Place.mem 65536 false) demo) ∧ (locate demo (streamCtx demo demo.cur)
    (demo.me.getS 4#5) 8 8 Need.readWrite acceptsFar = Except.ok (Place.mem 65600 false, demo)) :=
  ⟨by decide +kernel, by decide +kernel, by unfold Reaches; decide +kernel, by decide +kernel⟩

theorem meets_AtomicsPost : (isRemote (Place.mem 65536 false) = false) ∧ (Reaches demo (demo.me.getS 3#5) (if 1#1 = BitVec.ofNat 1 1 then 8 else 4)
    Need.readWrite acceptsPlain (Place.mem 65536 false) demo) := ⟨by decide +kernel, by unfold Reaches; decide +kernel⟩

theorem meets_AtomicsPost_1 : (isRemote (Place.mem 65536 false) = false) ∧ (Reaches demo (demo.me.getS 3#5) 4 Need.readWrite acceptsPlain (Place.mem
    65536 false) demo) := ⟨by decide +kernel, by unfold Reaches; decide +kernel⟩

theorem meets_AtomicsPost4 : (isRemote (Place.mem 65536 false) = false) ∧ (Reaches demo (demo.me.getS 3#5) (if 0#1 = BitVec.ofNat 1 1 then 8 else 4)
    Need.readWrite acceptsPlain (Place.mem 65536 false) demo) := ⟨by decide +kernel, by unfold Reaches; decide +kernel⟩

theorem meets_AtomicsPost4_1 : (isRemote (Place.mem 65536 false) = false) ∧ (Reaches demo (demo.me.getS 3#5) 4 Need.readWrite acceptsPlain (Place.mem
    65536 false) demo) := ⟨by decide +kernel, by unfold Reaches; decide +kernel⟩

theorem meets_AtomicsComplete : (9#5 ≠ BitVec.ofNat 5 0 ∨ 0#1 = BitVec.ofNat 1 1) ∧ (0#1 = BitVec.ofNat 1 1 → demo.me.drained demo.cur (scopeOf 0#2) =
    true) ∧ (Reaches demo (demo.me.getS 3#5) (if 1#1 = BitVec.ofNat 1 1 then 8 else 4) Need.readWrite acceptsPlain (Place.mem 65536 false) demo) ∧
    (MayPerform demo (Place.mem 65536 false) (if 1#1 = BitVec.ofNat 1 1 then 8 else 4) true) :=
  ⟨by decide +kernel, by decide +kernel, by unfold Reaches; decide +kernel, by unfold MayPerform; decide +kernel⟩

theorem meets_AtomicsComplete_1 : (9#5 ≠ BitVec.ofNat 5 0 ∨ 0#1 = BitVec.ofNat 1 1) ∧ (0#1 = BitVec.ofNat 1 1 → demo.me.drained demo.cur (scopeOf 0#2)
    = true) ∧ (Reaches demo (demo.me.getS 3#5) 4 Need.readWrite acceptsPlain (Place.mem 65536 false) demo) ∧ (MayPerform demo (Place.mem 65536 false)
    4 true) := ⟨by decide +kernel, by decide +kernel, by unfold Reaches; decide +kernel, by unfold MayPerform; decide +kernel⟩

theorem meets_AtomicsCompleteAcquire : (0#5 ≠ BitVec.ofNat 5 0 ∨ 1#1 = BitVec.ofNat 1 1) ∧ (1#1 = BitVec.ofNat 1 1 → demo.me.drained demo.cur (scopeOf
    3#2) = true) ∧ (Reaches demo (demo.me.getS 3#5) (if 0#1 = BitVec.ofNat 1 1 then 8 else 4) Need.readWrite acceptsPlain (Place.mem 65536 false)
    demo) ∧ (MayPerform demo (Place.mem 65536 false) (if 0#1 = BitVec.ofNat 1 1 then 8 else 4) true) :=
  ⟨by decide +kernel, by decide +kernel, by unfold Reaches; decide +kernel, by unfold MayPerform; decide +kernel⟩

theorem meets_AtomicsCompleteAcquire_1 : (0#5 ≠ BitVec.ofNat 5 0 ∨ 1#1 = BitVec.ofNat 1 1) ∧ (1#1 = BitVec.ofNat 1 1 → demo.me.drained demo.cur
    (scopeOf 3#2) = true) ∧ (Reaches demo (demo.me.getS 3#5) 4 Need.readWrite acceptsPlain (Place.mem 65536 false) demo) ∧ (MayPerform demo (Place.mem
    65536 false) 4 true) := ⟨by decide +kernel, by decide +kernel, by unfold Reaches; decide +kernel, by unfold MayPerform; decide +kernel⟩

theorem meets_StorePerformed : (storing.arg.slot = 0) ∧ (storing.arg.idx = 0) ∧ ((storing.strand 0).out[0]? = some storeAccess) ∧ (storeAccess.op =
    AccessOp.store (7 : Word)) ∧ (storeAccess.place = Place.mem 65536 false) ∧ (storeAccess.n = 4) ∧ (storeAccess.blocks = false) ∧ (storeAccess.tag =
    none) ∧ (performFault storing 0 storeAccess = none) ∧ (underTest storing 0 storeAccess.place storeAccess.n = false) ∧ ((storing.strand 0).phase ≠
    Phase.free) ∧ (heldBack (dieOf (coreOf 0)) (storing.strand 0).out 0 storeAccess = false) := by decide +kernel

theorem meets_AddressFaultHigh : ((withS [(10, (4503599627370496 : Word))]).me.phase = Phase.running) ∧ (2 ^ 52 ≤ BitVec.toNat (offsetAddress (withS
    [(10, (4503599627370496 : Word))]) 10#5 0#14 (2 ^ BitVec.toNat 0#2))) := by decide +kernel

theorem meets_AddressFaultAlign : ((withS [(10, (65537 : Word))]).me.phase = Phase.running) ∧ (BitVec.toNat (offsetAddress (withS [(10, (65537 :
    Word))]) 10#5 0#14 (2 ^ BitVec.toNat 1#2)) < 2 ^ 52) ∧ (BitVec.toNat (offsetAddress (withS [(10, (65537 : Word))]) 10#5 0#14 (2 ^ BitVec.toNat
    1#2)) % 2 ^ BitVec.toNat 1#2 ≠ 0) := by decide +kernel

theorem meets_Fences : (demo.me.sbPend &&& BitVec.ofNat 8 254 = BitVec.ofNat 8 0) ∧ (demo.me.sbErr &&& BitVec.ofNat 8 254 = BitVec.ofNat 8 0) ∧
    (fenceReady demo demo.cur (scopeOf 0#2) = true) ∧ (demo.me.deferred = none) := by decide +kernel

theorem meets_FenceWaits : slotPending.me.sbPend &&& BitVec.ofNat 8 254 ≠ BitVec.ofNat 8 0 := by decide +kernel

theorem meets_FenceWaitsAccess : (storingOnly.me.sbPend &&& BitVec.ofNat 8 254 = BitVec.ofNat 8 0) ∧ (storingOnly.me.sbErr &&& BitVec.ofNat 8 254 =
    BitVec.ofNat 8 0) ∧ (fenceReady storingOnly storingOnly.cur (scopeOf 2#2) = false) := by decide +kernel

theorem meets_FenceError : (1 ≤ 2) ∧ (2 < 8) ∧ (slotsInError.me.phase = Phase.running) ∧ (slotsInError.me.sbPend &&& BitVec.ofNat 8 254 = BitVec.ofNat
    8 0) ∧ (slotsInError.me.sbErr.getLsbD 2 = true) ∧ (∀ (l : ℕ), 1 ≤ l → l < 2 → slotsInError.me.sbErr.getLsbD l = false) := by decide +kernel

theorem meets_FtIndex : (demo.me.phase = Phase.running) ∧ (demo.me.ftlen.toNat ≤ BitVec.toNat (demo.me.getS 0#5)) := by decide +kernel

theorem meets_TypedCalls : (BitVec.toNat (callTable.me.getS 1#5) < callTable.me.ftlen.toNat) ∧ (Reaches callTable (BitVec.ofNat 64
    (callTable.me.ftbase.toNat + 16 * BitVec.toNat (callTable.me.getS 1#5))) 16 Need.read acceptsPlain (Place.mem 65648 false) callTable) ∧
    (MayPerform callTable (Place.mem 65648 false) 16 true) ∧ (BitVec.toNat (4503599627370492 : Word) < 2 ^ 52) ∧ (BitVec.toNat (4503599627370492 :
    Word) % 4 = 0) ∧ (bytesNat (memBytes callTable.mem 65648 16) = BitVec.toNat (4503599627370492 : Word) + 2 ^ 64 * BitVec.toNat 43981#16 + 2 ^ 80) :=
  ⟨by decide +kernel, by unfold Reaches; decide +kernel, by unfold MayPerform; decide +kernel, by decide +kernel⟩

theorem meets_TypedCallInvalid : (callTable.me.phase = Phase.running) ∧ (BitVec.toNat (callTable.me.getS 8#5) < callTable.me.ftlen.toNat) ∧ (Reaches
    callTable (BitVec.ofNat 64 (callTable.me.ftbase.toNat + 16 * BitVec.toNat (callTable.me.getS 8#5))) 16 Need.read acceptsPlain (Place.mem 65568
    false) callTable) ∧ (MayPerform callTable (Place.mem 65568 false) 16 true) ∧ ((bytesBv 128 (memBytes callTable.mem 65568 16)).getLsbD 80 = false) :=
  ⟨by decide +kernel, by decide +kernel, by unfold Reaches; decide +kernel, by unfold MayPerform; decide +kernel, by decide +kernel⟩

theorem meets_TypedCallReserved : ((bytesBv 128 (memBytes callReserved.mem 65648 16)).getLsbD 80 = true) ∧ (slice (bytesBv 128 (memBytes
    callReserved.mem 65648 16)) 81 47 ≠ 0#47) ∧ (Reaches callReserved (BitVec.ofNat 64 (callReserved.me.ftbase.toNat + 16 * BitVec.toNat
    (callReserved.me.getS 1#5))) 16 Need.read acceptsPlain (Place.mem 65648 false) callReserved) ∧ (MayPerform callReserved (Place.mem 65648 false) 16
    true) := ⟨by decide +kernel, by decide +kernel, by unfold Reaches; decide +kernel, by unfold MayPerform; decide +kernel⟩

theorem meets_TypedCallSignature : (slice (bytesBv 128 (memBytes callTable.mem 65648 16)) 64 16 ≠ 43982#16) ∧ ((bytesBv 128 (memBytes callTable.mem
    65648 16)).toNat % 2 ^ 64 = BitVec.toNat (4503599627370492 : Word)) ∧ ((bytesBv 128 (memBytes callTable.mem 65648 16)).toNat / 2 ^ 80 = 1) :=
  by decide +kernel

theorem meets_VectorConfiguration : 3#2 ≤ 3#2 := by decide +kernel

theorem meets_VectorConfiguration1 : 0#2 ≤ 3#2 := by decide +kernel

theorem meets_VectorIntegerForms : vGate demo.me (sewForm demo.me [1#5, 2#5] 10#5 1#3) = VGate.go := by decide +kernel

theorem meets_VectorSaturatingAdd : vGate demo.me (sewForm demo.me [1#5, 2#5] 10#5 1#3) = VGate.go := by decide +kernel

theorem meets_VectorIntegerCompares : vGate demo.me
    { srcs := [demo.me.sewOp 1#5, demo.me.sewOp 2#5], dsts := [], reads := [], writes := [], kr := [BitVec.toNat 1#3], kw := [BitVec.toNat 3#3] } =
    VGate.go := by decide +kernel

theorem meets_VectorFloatCompares : FloatReady fp32Word.me (fp32Word.me.formatWord 0#3)
    [{ reg := 3#5, code := fwFA (fp32Word.me.formatWord 0#3), ok := isSourceCode (fwFA (fp32Word.me.formatWord 0#3)), read := true, write := false },
    { reg := 3#5, code := fwFB (fp32Word.me.formatWord 0#3), ok := isSourceCode (fwFB (fp32Word.me.formatWord 0#3)), read := true, write := false }]
    { (maskOnly 1#3 (scaleReads (fwFA (fp32Word.me.formatWord 0#3)) (fwZA (fp32Word.me.formatWord 0#3)) ++ scaleReads (fwFB (fp32Word.me.formatWord 0#3)) (fwZB (fp32Word.me.formatWord 0#3)))) with kw := [BitVec.toNat 3#3] } :=
  by unfold FloatReady; decide +kernel

theorem meets_VectorFloatForms : FloatReady fp32Word.me (fp32Word.me.formatWord 0#3)
    [{ reg := 3#5, code := fwFA (fp32Word.me.formatWord 0#3), ok := isSourceCode (fwFA (fp32Word.me.formatWord 0#3)), read := true, write := false },
    { reg := 3#5, code := fwFB (fp32Word.me.formatWord 0#3), ok := isSourceCode (fwFB (fp32Word.me.formatWord 0#3)), read := true, write := false },
    { reg := 10#5, code := fwFD (fp32Word.me.formatWord 0#3), ok := isWideCode (fwFD (fp32Word.me.formatWord 0#3)), read := false, write := true }]
    (maskOnly 1#3 (scaleReads (fwFA (fp32Word.me.formatWord 0#3)) (fwZA (fp32Word.me.formatWord 0#3)) ++ scaleReads (fwFB (fp32Word.me.formatWord
    0#3)) (fwZB (fp32Word.me.formatWord 0#3)))) := by unfold FloatReady; decide +kernel

theorem meets_VectorFloatForms_1 : FloatReady fp32Word.me (fp32Word.me.formatWord 0#3)
    [{ reg := 3#5, code := fwFA (fp32Word.me.formatWord 0#3), ok := isSourceCode (fwFA (fp32Word.me.formatWord 0#3)), read := true, write := false },
    { reg := 10#5, code := fwFD (fp32Word.me.formatWord 0#3), ok := isWideCode (fwFD (fp32Word.me.formatWord 0#3)), read := false, write := true }]
    (maskOnly 1#3 (scaleReads (fwFA (fp32Word.me.formatWord 0#3)) (fwZA (fp32Word.me.formatWord 0#3)))) := by unfold FloatReady; decide +kernel

theorem meets_VectorScale : FloatReady fp32Int.me (fp32Int.me.formatWord 0#3)
    [{ reg := 3#5, code := fwFA (fp32Int.me.formatWord 0#3), ok := isSourceCode (fwFA (fp32Int.me.formatWord 0#3)), read := true, write := false },
    { reg := 10#5, code := fwFD (fp32Int.me.formatWord 0#3), ok := isWideCode (fwFD (fp32Int.me.formatWord 0#3)), read := false, write := true }]
    (maskOnly 1#3 (scaleReads (fwFA (fp32Int.me.formatWord 0#3)) (fwZA (fp32Int.me.formatWord 0#3)))) := by unfold FloatReady; decide +kernel

theorem meets_VectorScale_1 : FloatReady fp32Int.me (fp32Int.me.formatWord 0#3)
    [{ reg := 3#5, code := fwFA (fp32Int.me.formatWord 0#3), ok := isSourceCode (fwFA (fp32Int.me.formatWord 0#3)), read := true, write := false },
    { reg := 1#5, code := fwFB (fp32Int.me.formatWord 0#3), ok := decide (16 ≤ (fwFB (fp32Int.me.formatWord 0#3)).toNat) && decide ((fwFB (fp32Int.me.formatWord 0#3)).toNat ≤ 18), read := true, write := false },
    { reg := 10#5, code := fwFD (fp32Int.me.formatWord 0#3), ok := isWideCode (fwFD (fp32Int.me.formatWord 0#3)), read := false, write := true }]
    (maskOnly 1#3 (scaleReads (fwFA (fp32Int.me.formatWord 0#3)) (fwZA (fp32Int.me.formatWord 0#3)))) := by unfold FloatReady; decide +kernel

theorem meets_VectorFusedForms : FloatReady fp32Word.me (fp32Word.me.formatWord 0#3)
    [{ reg := 3#5, code := fwFA (fp32Word.me.formatWord 0#3), ok := isSourceCode (fwFA (fp32Word.me.formatWord 0#3)), read := true, write := false },
    { reg := 3#5, code := fwFB (fp32Word.me.formatWord 0#3), ok := isSourceCode (fwFB (fp32Word.me.formatWord 0#3)), read := true, write := false },
    { reg := 10#5, code := fwFD (fp32Word.me.formatWord 0#3), ok := isWideCode (fwFD (fp32Word.me.formatWord 0#3)), read := true, write := true }]
    (maskOnly 1#3 (scaleReads (fwFA (fp32Word.me.formatWord 0#3)) (fwZA (fp32Word.me.formatWord 0#3)) ++ scaleReads (fwFB (fp32Word.me.formatWord
    0#3)) (fwZB (fp32Word.me.formatWord 0#3)))) := by unfold FloatReady; decide +kernel

theorem meets_VectorConversions : (FloatReady fp32Word.me (fp32Word.me.formatWord 0#3)
    [{ reg := 3#5, code := fwFA (fp32Word.me.formatWord 0#3), ok := isVectorCode (fwFA (fp32Word.me.formatWord 0#3)), read := true, write := false },
    { reg := 10#5, code := fwFD (fp32Word.me.formatWord 0#3), ok := isVectorCode (fwFD (fp32Word.me.formatWord 0#3)), read := false, write := true }]
    { srcs := [], dsts := [], reads := scaleReads (fwFA (fp32Word.me.formatWord 0#3)) (fwZA (fp32Word.me.formatWord 0#3)), writes := scaleReads (fwFD (fp32Word.me.formatWord 0#3)) (fwZD (fp32Word.me.formatWord 0#3)), kr := [BitVec.toNat 1#3], kw := [] })
    ∧ (fmtOf (fwFD (fp32Word.me.formatWord 0#3)) = some (Fmt.float fp32)) ∧ (isBfpCode (fwFD (fp32Word.me.formatWord 0#3)) = false) :=
  ⟨by unfold FloatReady; decide +kernel, by decide +kernel⟩

theorem meets_VectorConversionBlock : (FloatReady bfpWord.me (bfpWord.me.formatWord 0#3)
    [{ reg := 3#5, code := fwFA (bfpWord.me.formatWord 0#3), ok := isVectorCode (fwFA (bfpWord.me.formatWord 0#3)), read := true, write := false },
    { reg := 10#5, code := fwFD (bfpWord.me.formatWord 0#3), ok := isVectorCode (fwFD (bfpWord.me.formatWord 0#3)), read := false, write := true }]
    { srcs := [], dsts := [], reads := scaleReads (fwFA (bfpWord.me.formatWord 0#3)) (fwZA (bfpWord.me.formatWord 0#3)), writes := scaleReads (fwFD (bfpWord.me.formatWord 0#3)) (fwZD (bfpWord.me.formatWord 0#3)), kr := [BitVec.toNat 1#3], kw := [] })
    ∧ (isBfpCode (fwFD (bfpWord.me.formatWord 0#3)) = true) ∧ ((fmtOf (fwFD (bfpWord.me.formatWord 0#3))).isSome = true) ∧
    (∀ j, isActive bfpWord.me 1#3 j = true → fwZD (bfpWord.me.formatWord 0#3) ≠ BitVec.toNat 10#5 + j * 4 / 16384) :=
  ⟨by unfold FloatReady; decide +kernel, by decide +kernel, by decide +kernel,
    fun j h => by
      have z : fwZD (bfpWord.me.formatWord 0#3) = 0 := (by decide +kernel)
      rw [z]; exact (Nat.ne_of_lt (Nat.lt_of_lt_of_le (by decide : 0 < 10) (Nat.le_add_right _ _)))⟩

theorem meets_VectorSigns : FloatReady fp32Word.me (fp32Word.me.formatWord 0#3)
    [{ reg := 3#5, code := fwFA (fp32Word.me.formatWord 0#3), ok := isFloatCode (fwFA (fp32Word.me.formatWord 0#3)), read := true, write := false },
    { reg := 10#5, code := fwFD (fp32Word.me.formatWord 0#3), ok := isFloatCode (fwFA (fp32Word.me.formatWord 0#3)) && fwFD (fp32Word.me.formatWord 0#3) == fwFA (fp32Word.me.formatWord 0#3), read := false, write := true }]
    (maskOnly 1#3 []) := by unfold FloatReady; decide +kernel

theorem meets_VectorSigns_1 : FloatReady fp32Word.me (fp32Word.me.formatWord 0#3)
    [{ reg := 3#5, code := fwFA (fp32Word.me.formatWord 0#3), ok := isSourceCode (fwFA (fp32Word.me.formatWord 0#3)), read := true, write := false }]
    { (maskOnly 1#3 (scaleReads (fwFA (fp32Word.me.formatWord 0#3)) (fwZA (fp32Word.me.formatWord 0#3)))) with dsts := [fp32Word.me.sewOp 10#5] } :=
  by unfold FloatReady; decide +kernel

theorem meets_VectorIntegerReductions : vGate demo.me (sewForm demo.me [1#5] 10#5 1#3) = VGate.go := by decide +kernel

theorem meets_VectorFloatReductions : FloatReady fp32Word.me (fp32Word.me.formatWord 0#3)
    [{ reg := 3#5, code := fwFA (fp32Word.me.formatWord 0#3), ok := isSourceCode (fwFA (fp32Word.me.formatWord 0#3)), read := true, write := false },
    { reg := 10#5, code := fwFD (fp32Word.me.formatWord 0#3), ok := isWideCode (fwFD (fp32Word.me.formatWord 0#3)), read := false, write := true }]
    (maskOnly 1#3 (scaleReads (fwFA (fp32Word.me.formatWord 0#3)) (fwZA (fp32Word.me.formatWord 0#3)))) := by unfold FloatReady; decide +kernel

theorem meets_VectorFloatReductionNone : (FloatReady fp32Word.me (fp32Word.me.formatWord 0#3)
    [{ reg := 3#5, code := fwFA (fp32Word.me.formatWord 0#3), ok := isSourceCode (fwFA (fp32Word.me.formatWord 0#3)), read := true, write := false },
    { reg := 10#5, code := fwFD (fp32Word.me.formatWord 0#3), ok := isWideCode (fwFD (fp32Word.me.formatWord 0#3)), read := false, write := true }]
    (maskOnly 3#3 (scaleReads (fwFA (fp32Word.me.formatWord 0#3)) (fwZA (fp32Word.me.formatWord 0#3))))) ∧ (fp32Word.me.lanes 3#3 = []) :=
  ⟨by unfold FloatReady; decide +kernel, by decide +kernel⟩

theorem meets_VectorFloatTree : (2 ≤ 11) ∧ (fp32Word.me.vl.toNat ≤ 2 ^ 2) ∧ ((treeNode (fun x y => (decodeFloat fp32 false (encodeResult (.float fp32)
    { roundOf (fp32Word.me.formatWord 0#3) with rm := 0#3 } 0 (addV false x y).1).1, (addV false x y).2)) (fun j => if isActive fp32Word.me 0#3 j then
    some (fp32Word.me.fval 3#5 1#8 0 false j) else none) 2 0).1.isSome = true) := by decide +kernel

theorem meets_VectorPermutes : vGate demo.me (sewForm demo.me [1#5, 2#5] 10#5 1#3) = VGate.go := by decide +kernel

theorem meets_VectorPermutes_1 : vGate demo.me (sewForm demo.me [1#5] 10#5 1#3) = VGate.go := by decide +kernel

theorem meets_VectorPermutes_2 : vGate demo.me (sewForm demo.me [] 10#5 1#3) = VGate.go := by decide +kernel

theorem meets_VectorElementMoves : (badRegLane demo.me 2#5 1#3 = none) ∧ (vGate demo.me
    { srcs := [demo.me.sewOp 2#5], dsts := [demo.me.sewOp 10#5], reads := namedRegs demo.me 2#5 1#3, writes := [], kr := [BitVec.toNat 1#3], kw := [] }
    = VGate.go) ∧ (vGate demo.me
    { srcs := [demo.me.sewOp 2#5], dsts := [demo.me.sewOp 10#5], reads := [], writes := [], kr := [BitVec.toNat 1#3], kw := [] } = VGate.go) :=
  by decide +kernel

theorem meets_VectorElementMoves_1 : (badRegLane demo.me 2#5 1#3 = none) ∧ (vGate demo.me
    { srcs := [demo.me.sewOp 1#5, demo.me.sewOp 2#5], dsts := [], reads := [], writes := namedRegs demo.me 2#5 1#3, kr := [BitVec.toNat 1#3], kw := [] }
    = VGate.go) ∧ (vGate demo.me
    { srcs := [demo.me.sewOp 1#5, demo.me.sewOp 2#5], dsts := [], reads := [], writes := [], kr := [BitVec.toNat 1#3], kw := [] } = VGate.go) :=
  by decide +kernel

theorem meets_VectorElementMoves_2 : vGate demo.me { srcs := [demo.me.sewOp 1#5], dsts := [], reads := [], writes := [], kr := [], kw := [] } =
    VGate.go := by decide +kernel

theorem meets_VectorElementMoves_3 : vGate demo.me { srcs := [], dsts := [demo.me.sewOp 10#5], reads := [], writes := [], kr := [], kw := [] } =
    VGate.go := by decide +kernel

theorem meets_VectorElementMoves_4 : (BitVec.toNat (demo.me.getS 1#5) < 128) ∧ (vGate demo.me
    { srcs := [], dsts := [], reads := [BitVec.toNat (demo.me.getS 1#5)], writes := [BitVec.toNat 10#5], kr := [], kw := [] } = VGate.go) :=
  by decide +kernel

theorem meets_VectorElementMoves_5 : (BitVec.toNat (demo.me.getS 10#5) < 128) ∧ (vGate demo.me
    { srcs := [], dsts := [], reads := [BitVec.toNat 1#5], writes := [BitVec.toNat (demo.me.getS 10#5)], kr := [], kw := [] } = VGate.go) :=
  by decide +kernel

theorem meets_VectorBadNumber : (badRegLane bigNumber.me 11#5 1#3 = some 0) ∧ (bigNumber.me.phase = Phase.running) ∧ (vGate
    { bigNumber.me with marks := [], badK := [] }
    { srcs := [bigNumber.me.sewOp 11#5], dsts := [bigNumber.me.sewOp 10#5], reads := [], writes := [], kr := [BitVec.toNat 1#3], kw := [] } =
    VGate.go) := by decide +kernel

theorem meets_VectorBadNumberOut : vGate { bigNumber.me with marks := [], badK := [] }
    { srcs := [bigNumber.me.sewOp 1#5, bigNumber.me.sewOp 11#5], dsts := [], reads := [], writes := [], kr := [BitVec.toNat 1#3], kw := [] } =
    VGate.go := by decide +kernel

theorem meets_VectorBadMove : (128 ≤ BitVec.toNat (bigNumber.me.getS 11#5)) ∧ (bigNumber.me.phase = Phase.running) := by decide +kernel

theorem meets_MaskForms : vGate demo.me
    { srcs := [], dsts := [], reads := [], writes := [], kr := [BitVec.toNat 1#3, BitVec.toNat 2#3], kw := [BitVec.toNat 3#3] } = VGate.go :=
  by decide +kernel

theorem meets_MaskForms_1 : vGate demo.me
    { srcs := [], dsts := [], reads := [], writes := [], kr := [BitVec.toNat 1#3, BitVec.toNat 1#3], kw := [BitVec.toNat 3#3] } = VGate.go :=
  by decide +kernel

theorem meets_MaskForms_2 : vGate demo.me { srcs := [], dsts := [], reads := [], writes := [], kr := [BitVec.toNat 1#3], kw := [] } = VGate.go :=
  by decide +kernel

theorem meets_MaskNone : (vlNone.me.vl = BitVec.ofNat 12 0) ∧ (vlNone.me.out = []) ∧ (vlNone.me.mq = []) := by decide +kernel

theorem meets_MaskFirst : (vGate demo.me { srcs := [], dsts := [], reads := [], writes := [], kr := [BitVec.toNat 2#3], kw := [] } = VGate.go) ∧ (1 <
    demo.me.vl.toNat) ∧ ((fun j => BitVec.getLsbD (demo.me.getK (BitVec.toNat 2#3)) j) 1 = true) ∧ (∀ i < 1, (fun j => BitVec.getLsbD (demo.me.getK
    (BitVec.toNat 2#3)) j) i = false) := by decide +kernel

theorem meets_GangMulticast : (stripOk pair.me 1#5 = true) ∧ (vGate pair.me
    { srcs := [], dsts := [], reads := [BitVec.toNat 1#5], writes := [], kr := [], kw := [] } = VGate.go) ∧ ((gangPeers pair pair.cur).Nodup) ∧ (∀ k ∈
    gangPeers pair pair.cur, (pair.strand k).strips.length < 4 ∧ (List.filter (fun j => coreOf j == coreOf k) (gangPeers pair pair.cur)).length ≤
    sparesFree pair (coreOf k)) := by decide +kernel

theorem meets_GangMulticast_1 : (stripOk pair.me 4#5 = true) ∧ (vGate pair.me
    { srcs := [], dsts := [], reads := [], writes := [BitVec.toNat 4#5], kr := [], kw := [] } = VGate.go) ∧ (pair.me.strips = []) := by decide +kernel

theorem meets_GangMulticastFull : (stripOk pairFull.me 1#5 = true) ∧ (vGate pairFull.me
    { srcs := [], dsts := [], reads := [BitVec.toNat 1#5], writes := [], kr := [], kw := [] } = VGate.go) ∧ (stripRoom pairFull (gangPeers pairFull
    pairFull.cur) = false) := by decide +kernel

theorem meets_GangMulticastFull_1 : (stripOk pairFull.me 4#5 = true) ∧ (vGate pairFull.me
    { srcs := [], dsts := [], reads := [], writes := [BitVec.toNat 4#5], kr := [], kw := [] } = VGate.go) ∧ (pairFull.me.strips = []) :=
  by decide +kernel

theorem meets_GangReceive : (stripOk stripIn.me 4#5 = true) ∧ (vGate stripIn.me
    { srcs := [], dsts := [], reads := [], writes := [BitVec.toNat 4#5], kr := [], kw := [] } = VGate.go) ∧ (stripIn.me.strips =
    [{ tick := 1, rank := 1, data := BitVec.ofNat 16384 5, bad := [] }]) := by decide +kernel

theorem meets_GangReceiveNone : (stripOk demo.me 4#5 = true) ∧ (vGate demo.me
    { srcs := [], dsts := [], reads := [], writes := [BitVec.toNat 4#5], kr := [], kw := [] } = VGate.go) ∧ (demo.me.strips = []) := by decide +kernel

theorem meets_VectorGateGroup : ((((sewForm twoRegs.me [1#5, 2#5] 11#5 1#3).srcs ++ (sewForm twoRegs.me [1#5, 2#5] 11#5 1#3).dsts).any fun o =>
    !twoRegs.me.grouped o) = true) ∧ (twoRegs.me.phase = Phase.running) := by decide +kernel

theorem meets_VectorGateBusy : (((sewForm loadingV2.me [1#5, 2#5] 11#5 1#3).srcs ++ (sewForm loadingV2.me [1#5, 2#5] 11#5 1#3).dsts).all
    loadingV2.me.grouped = true) ∧ (((sewForm loadingV2.me [1#5, 2#5] 11#5 1#3).srcs.any fun o => (loadingV2.me.groupRegs o).any loadingV2.me.vBusy) =
    true ∨ ((sewForm loadingV2.me [1#5, 2#5] 11#5 1#3).dsts.any fun o => (loadingV2.me.groupRegs o).any loadingV2.me.vLoading) = true) :=
  by decide +kernel

theorem meets_VectorGateNone : (((sewForm vlNone.me [1#5, 2#5] 11#5 1#3).srcs ++ (sewForm vlNone.me [1#5, 2#5] 11#5 1#3).dsts).all vlNone.me.grouped =
    true) ∧ (vlNone.me.out = []) ∧ (vlNone.me.mq = []) ∧ (vlNone.me.vl = BitVec.ofNat 12 0) := by decide +kernel

theorem meets_VectorGateMoves : (∀ f ∈ [sewForm twoRegs.me [1#5] 11#5 1#3, sewForm twoRegs.me [] 11#5 1#3, ⟨[], [twoRegs.me.sewOp 11#5], [], [], [],
    []⟩], ((f.srcs ++ f.dsts).any fun o => !twoRegs.me.grouped o) = true) ∧ (twoRegs.me.phase = Phase.running) := by decide +kernel

theorem meets_VectorGateMovesBusy : ((Instr.vsplat 2#5 1#5 1#3, sewForm loadingV2.me [] 2#5 1#3) ∈ [(Instr.vmv 2#5 1#5 0#1 1#3, sewForm loadingV2.me
    [1#5] 2#5 1#3), (Instr.vcompress 2#5 1#5 0#1 1#3, sewForm loadingV2.me [1#5] 2#5 1#3), (Instr.vexpand 2#5 1#5 0#1 1#3, sewForm loadingV2.me [1#5]
    2#5 1#3), (Instr.vslideup 2#5 1#5 2#5 0#1 1#3, sewForm loadingV2.me [1#5] 2#5 1#3), (Instr.vslidedn 2#5 1#5 2#5 0#1 1#3, sewForm loadingV2.me
    [1#5] 2#5 1#3), (Instr.viota 2#5 1#3, sewForm loadingV2.me [] 2#5 1#3), (Instr.vsplat 2#5 1#5 1#3, sewForm loadingV2.me [] 2#5 1#3), (Instr.vins
    2#5 1#5 2#5, { srcs := [], dsts := [loadingV2.me.sewOp 2#5], reads := [], writes := [], kr := [], kw := [] })]) ∧ (((Instr.vsplat 2#5 1#5 1#3,
    sewForm loadingV2.me [] 2#5 1#3).2.srcs ++ (Instr.vsplat 2#5 1#5 1#3, sewForm loadingV2.me [] 2#5 1#3).2.dsts).all loadingV2.me.grouped = true) ∧
    (((Instr.vsplat 2#5 1#5 1#3, sewForm loadingV2.me [] 2#5 1#3).2.srcs.any fun o => (loadingV2.me.groupRegs o).any loadingV2.me.vBusy) = true ∨
    ((Instr.vsplat 2#5 1#5 1#3, sewForm loadingV2.me [] 2#5 1#3).2.dsts.any fun o => (loadingV2.me.groupRegs o).any loadingV2.me.vLoading) = true) :=
  by decide +kernel

theorem meets_VectorGateWritesOnly : ((sewForm movingOut.me [] 11#5 1#3).srcs = []) ∧ ((sewForm movingOut.me [] 11#5 1#3).dsts.all
    movingOut.me.grouped = true) ∧ (movingOut.me.out = []) ∧ (movingOut.me.badK = []) ∧ (movingOut.me.vBusy 11 = true) := by decide +kernel

theorem meets_ConfigurationRaises : ((configRaises.strand configRaises.arg.slot).wait = Wait.msmcfg (196669 : Word)) ∧ ((configRaises.strand
    configRaises.arg.slot).phase = Phase.running) ∧ ((configRaises.strand configRaises.arg.slot).mq = []) ∧ (BitVec.toNat (196669 : Word) % 512 +
    BitVec.toNat (196669 : Word) / 2 ^ 16 % 512 ≤ (configRaises.strand configRaises.arg.slot).lim.toNat) ∧ (BitVec.toNat (196669 : Word) % 512 ≠ 0) ∧
    ((heldFrames configRaises configRaises.arg.slot).length ≤ BitVec.toNat (196669 : Word) % 512) ∧ ((configRaises.strand
    configRaises.arg.slot).spillq = []) ∧ ((configRaises.strand configRaises.arg.slot).scrFrames.length ≤ BitVec.toNat (196669 : Word) / 2 ^ 16 % 512)
    ∧ (BitVec.toNat (196669 : Word) / 2 ^ 16 % 512 ≤ (configRaises.strand configRaises.arg.slot).scrFrames.length + (List.filter (frameFree
    configRaises (coreOf configRaises.arg.slot)) (List.range 256)).length) ∧ (∀ c ∈ (configRaises.strand configRaises.arg.slot).scratch, c.1 < 32768 *
    (configRaises.strand configRaises.arg.slot).scrFrames.length) := by decide +kernel

theorem meets_VectorGateMovesNone : ∀ f ∈ [sewForm vlNone.me [1#5] 11#5 1#3, sewForm vlNone.me [] 11#5 1#3, ⟨[], [vlNone.me.sewOp 11#5], [], [], [],
    []⟩], (f.srcs ++ f.dsts).all vlNone.me.grouped = true := by decide +kernel

theorem meets_VectorLoadUnit : ElementsPass demo 0#3 2#3
    { srcs := [], dsts := [demo.me.sewOp 10#5], reads := [], writes := [], kr := [BitVec.toNat 1#3], kw := [] } (demo.me.sewBits / 8) Need.read
    acceptsPlain ((fun f => List.map (fun i => (i, f i)) (demo.me.todo 1#3)) fun i => BitVec.ofNat 64 (BitVec.toNat (demo.me.getS 3#5) + i *
    (demo.me.sewBits / 8))) [elemAt 0 (65536 : Word), elemAt 2 (65544 : Word)] demo := by unfold ElementsPass; decide +kernel

theorem meets_VectorLoadUnit_1 : ElementsPass demo 0#3 2#3
    { srcs := [demo.me.sewOp 2#5], dsts := [demo.me.sewOp 10#5], reads := [], writes := [], kr := [BitVec.toNat 1#3], kw := [] } (demo.me.sewBits / 8)
    Need.read acceptsPlain ((fun f => List.map (fun i => (i, f i)) (demo.me.todo 1#3)) fun i => BitVec.ofNat 64 (BitVec.toNat (demo.me.getS 3#5) +
    demo.me.elem (demo.me.sewOp 2#5) i * (demo.me.sewBits / 8))) [elemAt 0 (65536 : Word), elemAt 2 (65544 : Word)] demo :=
  by unfold ElementsPass; decide +kernel

theorem meets_VectorLoadUnit_2 : ElementsPass demo 0#3 2#3
    { srcs := [demo.me.sewOp 2#5], dsts := [demo.me.sewOp 10#5], reads := [], writes := [], kr := [BitVec.toNat 1#3], kw := [] } (demo.me.sewBits / 8)
    Need.read acceptsLocal ((fun f => List.map (fun i => (i, f i)) (demo.me.todo 1#3)) fun i => BitVec.ofNat 64 (BitVec.toNat (demo.me.getS 3#5) +
    demo.me.elem (demo.me.sewOp 2#5) i * (demo.me.sewBits / 8))) [elemAt 0 (65536 : Word), elemAt 2 (65544 : Word)] demo :=
  by unfold ElementsPass; decide +kernel

theorem meets_VectorLoadStride : ElementsPass (withS [(10, (8 : Word))]) 3#3 0#3
    { srcs := [], dsts := [(withS [(10, (8 : Word))]).me.sewOp 12#5], reads := [], writes := [], kr := [BitVec.toNat 1#3], kw := [] } ((withS [(10, (8
    : Word))]).me.sewBits / 8) Need.read acceptsPlain ((fun f => List.map (fun i => (i, f i)) ((withS [(10, (8 : Word))]).me.todo 1#3)) fun i =>
    BitVec.ofNat 64 (BitVec.toNat ((withS [(10, (8 : Word))]).me.getS 3#5) + i * BitVec.toNat ((withS [(10, (8 : Word))]).me.getS 10#5))) [elemAt 0
    (65536 : Word), elemAt 2 (65552 : Word)] (withS [(10, (8 : Word))]) := by unfold ElementsPass; decide +kernel

theorem meets_VectorLoadIndex : ElementsPass demo 3#3 4#3
    { srcs := [demo.me.sewOp 1#5], dsts := [demo.me.sewOp 12#5], reads := [], writes := [], kr := [BitVec.toNat 1#3], kw := [] } (demo.me.sewBits / 8)
    Need.read acceptsPlain ((fun f => List.map (fun i => (i, f i)) (demo.me.todo 1#3)) fun i => BitVec.ofNat 64 (BitVec.toNat (demo.me.getS 3#5) +
    demo.me.elem (demo.me.sewOp 1#5) i * (demo.me.sewBits / 8))) [elemAt 0 (65540 : Word), elemAt 2 (65548 : Word)] demo :=
  by unfold ElementsPass; decide +kernel

theorem meets_VectorLoadIndex_1 : ElementsPass demo 3#3 4#3
    { srcs := [demo.me.sewOp 1#5], dsts := [demo.me.sewOp 12#5], reads := [], writes := [], kr := [BitVec.toNat 1#3], kw := [] } (demo.me.sewBits / 8)
    Need.read acceptsLocal ((fun f => List.map (fun i => (i, f i)) (demo.me.todo 1#3)) fun i => BitVec.ofNat 64 (BitVec.toNat (demo.me.getS 3#5) +
    demo.me.elem (demo.me.sewOp 1#5) i * (demo.me.sewBits / 8))) [elemAt 0 (65540 : Word), elemAt 2 (65548 : Word)] demo :=
  by unfold ElementsPass; decide +kernel

theorem meets_FirstFaultLate : (lateElement.arg.timeout = TimeoutTarget.access 0 1) ∧ ((lateElement.strand 0).out[1]? = some (farElement 3)) ∧
    ((farElement 3).ff = true) ∧ ((farElement 3).blocks = true) ∧ ((farElement 3).akind = AccessKind.vectorLoad) ∧ ((farElement 3).sent = true) ∧
    ((farElement 3).since + lateElement.remto ≤ lateElement.cycle) ∧ (∀ b ∈ (lateElement.strand 0).out.take 1, b.seq ≠ (farElement 3).seq) :=
  by decide +kernel

theorem meets_VectorStoreUnit : (scatterFull demo.me (List.map Elem.lane [elemAt 0 (65536 : Word), elemAt 2 (65544 : Word)]) = false) ∧ (ElementsPass
    demo 0#3 2#3 { srcs := [demo.me.sewOp 2#5], dsts := [], reads := [], writes := [], kr := [BitVec.toNat 1#3], kw := [] } (demo.me.sewBits / 8)
    Need.write acceptsPlain ((fun f => List.map (fun i => (i, f i)) (demo.me.todo 1#3)) fun i => BitVec.ofNat 64 (BitVec.toNat (demo.me.getS 3#5) + i
    * (demo.me.sewBits / 8))) [elemAt 0 (65536 : Word), elemAt 2 (65544 : Word)] demo) := ⟨by decide +kernel, by unfold ElementsPass; decide +kernel⟩

theorem meets_VectorStoreUnit_1 : (scatterFull demo.me (List.map Elem.lane [elemAt 0 (65536 : Word), elemAt 2 (65544 : Word)]) = false) ∧
    (ElementsPass demo 0#3 2#3 ((fun kw =>
    { srcs := [demo.me.sewOp 2#5, demo.me.sewOp 2#5], dsts := [], reads := [], writes := [], kr := [BitVec.toNat 1#3], kw := kw }) [])
    (demo.me.sewBits / 8) Need.write acceptsPlain ((fun f => List.map (fun i => (i, f i)) (demo.me.todo 1#3)) fun i => BitVec.ofNat 64 (BitVec.toNat
    (demo.me.getS 3#5) + demo.me.elem (demo.me.sewOp 2#5) i * (demo.me.sewBits / 8))) [elemAt 0 (65536 : Word), elemAt 2 (65544 : Word)] demo) :=
  ⟨by decide +kernel, by unfold ElementsPass; decide +kernel⟩

theorem meets_VectorStoreUnit_2 : (scatterFull demo.me (List.map Elem.lane [elemAt 0 (65536 : Word), elemAt 2 (65544 : Word)]) = false) ∧ (demo.me.out
    = []) ∧ (demo.me.restart = 0) ∧ (ElementsPass demo 0#3 2#3 ((fun kw =>
    { srcs := [demo.me.sewOp 2#5, demo.me.sewOp 2#5], dsts := [], reads := [], writes := [], kr := [BitVec.toNat 1#3], kw := kw }) [BitVec.toNat 1#3])
    (demo.me.sewBits / 8) Need.write acceptsLocal ((fun f => List.map (fun i => (i, f i)) (demo.me.todo 1#3)) fun i => BitVec.ofNat 64 (BitVec.toNat
    (demo.me.getS 3#5) + demo.me.elem (demo.me.sewOp 2#5) i * (demo.me.sewBits / 8))) [elemAt 0 (65536 : Word), elemAt 2 (65544 : Word)] demo) :=
  ⟨by decide +kernel, by decide +kernel, by decide +kernel, by unfold ElementsPass; decide +kernel⟩

theorem meets_VectorStoreStride : (scatterFull (withS [(10, (8 : Word))]).me (List.map Elem.lane [elemAt 0 (65536 : Word), elemAt 2 (65552 : Word)]) =
    false) ∧ (ElementsPass (withS [(10, (8 : Word))]) 0#3 2#3
    { srcs := [(withS [(10, (8 : Word))]).me.sewOp 2#5], dsts := [], reads := [], writes := [], kr := [BitVec.toNat 1#3], kw := [] } ((withS [(10, (8
    : Word))]).me.sewBits / 8) Need.write acceptsPlain ((fun f => List.map (fun i => (i, f i)) ((withS [(10, (8 : Word))]).me.todo 1#3)) fun i =>
    BitVec.ofNat 64 (BitVec.toNat ((withS [(10, (8 : Word))]).me.getS 3#5) + i * BitVec.toNat ((withS [(10, (8 : Word))]).me.getS 10#5))) [elemAt 0
    (65536 : Word), elemAt 2 (65552 : Word)] (withS [(10, (8 : Word))])) := ⟨by decide +kernel, by unfold ElementsPass; decide +kernel⟩

theorem meets_VectorStoreIndex : (scatterFull demo.me (List.map Elem.lane [elemAt 0 (65540 : Word), elemAt 2 (65548 : Word)]) = false) ∧ (ElementsPass
    demo 0#3 2#3 ((fun kw =>
    { srcs := [demo.me.sewOp 2#5, demo.me.sewOp 1#5], dsts := [], reads := [], writes := [], kr := [BitVec.toNat 1#3], kw := kw }) [])
    (demo.me.sewBits / 8) Need.write acceptsPlain ((fun f => List.map (fun i => (i, f i)) (demo.me.todo 1#3)) fun i => BitVec.ofNat 64 (BitVec.toNat
    (demo.me.getS 3#5) + demo.me.elem (demo.me.sewOp 1#5) i * (demo.me.sewBits / 8))) [elemAt 0 (65540 : Word), elemAt 2 (65548 : Word)] demo) :=
  ⟨by decide +kernel, by unfold ElementsPass; decide +kernel⟩

theorem meets_VectorStoreIndex_1 : (scatterFull demo.me (List.map Elem.lane [elemAt 0 (65540 : Word), elemAt 2 (65548 : Word)]) = false) ∧
    (demo.me.out = []) ∧ (demo.me.restart = 0) ∧ (ElementsPass demo 0#3 2#3 ((fun kw =>
    { srcs := [demo.me.sewOp 2#5, demo.me.sewOp 1#5], dsts := [], reads := [], writes := [], kr := [BitVec.toNat 1#3], kw := kw }) [BitVec.toNat 1#3])
    (demo.me.sewBits / 8) Need.write acceptsLocal ((fun f => List.map (fun i => (i, f i)) (demo.me.todo 1#3)) fun i => BitVec.ofNat 64 (BitVec.toNat
    (demo.me.getS 3#5) + demo.me.elem (demo.me.sewOp 1#5) i * (demo.me.sewBits / 8))) [elemAt 0 (65540 : Word), elemAt 2 (65548 : Word)] demo) :=
  ⟨by decide +kernel, by decide +kernel, by decide +kernel, by unfold ElementsPass; decide +kernel⟩

theorem meets_VectorAppendFull : (fullVector.me.append = none) ∧ (slotGate fullVector.me 0#3 0#3 = SlotWait.ready) ∧ (vGate fullVector.me
    { srcs := [fullVector.me.sewOp 2#5], dsts := [], reads := [], writes := [], kr := [BitVec.toNat 0#3], kw := [] } = VGate.go) ∧ (scatterFull
    fullVector.me (fullVector.me.lanes 0#3) = false) ∧ (0 < (fullVector.me.lanes 0#3).length) ∧ (Reaches fullVector (fullVector.me.getS 5#5) 32
    Need.readWrite acceptsPlain (Place.mem 131072 false) fullVector) ∧ (MayPerform fullVector (Place.mem 131072 false) 32 true) ∧ (fullVector.me.out =
    []) ∧ (bytesNat (memBytes fullVector.mem (131072 + 8) 4) ≤ bytesNat (memBytes fullVector.mem (131072 + 16) 4)) :=
  ⟨by decide +kernel, by decide +kernel, by decide +kernel, by decide +kernel, by decide +kernel, by unfold Reaches; decide +kernel,
    by unfold MayPerform; decide +kernel, by decide +kernel⟩

theorem meets_VectorAppendWrites : (appending.me.append = some appendTail) ∧ (scatterFull appending.me (List.map Elem.lane [elemAt 0 (65576 : Word),
    elemAt 1 (65580 : Word)]) = false) ∧ (ElementsPass appending 0#3 2#3
    { srcs := [appending.me.sewOp 2#5], dsts := [], reads := [], writes := [], kr := [BitVec.toNat 0#3], kw := [] } (appending.me.sewBits / 8)
    Need.write acceptsPlain (List.map (fun p => (p.1, BitVec.ofNat 64 (appendTail.base + (appendTail.start + p.2) * (appending.me.sewBits / 8))))
    (List.filter (fun p => decide (appending.me.restart ≤ p.1) && decide (appendTail.start + p.2 < appendTail.cap)) ((appending.me.lanes 0#3).zip
    (List.range (appending.me.lanes 0#3).length)))) [elemAt 0 (65576 : Word), elemAt 1 (65580 : Word)] appending) :=
  ⟨by decide +kernel, by decide +kernel, by unfold ElementsPass; decide +kernel⟩

theorem meets_RemoteReduceIssue : (fwOk ((withS [(24, (65537 : Word))]).me.getS 24#5) = true) ∧ (isSourceCode (fwFA ((withS [(24, (65537 :
    Word))]).me.getS 24#5)) = true) ∧ (fwFD ((withS [(24, (65537 : Word))]).me.getS 24#5) = BitVec.ofNat 8 1) ∧ ((withS [(24, (65537 :
    Word))]).me.grouped
    { reg := BitVec.toNat 2#5, w := (codeWidth (fwFA ((withS [(24, (65537 : Word))]).me.getS 24#5))).getD (withS [(24, (65537 : Word))]).me.sewBits }
    = true) ∧ (ElementsPass (withS [(24, (65537 : Word))]) 0#3 2#3
    { srcs := [{ reg := BitVec.toNat 2#5, w := (codeWidth (fwFA ((withS [(24, (65537 : Word))]).me.getS 24#5))).getD (withS [(24, (65537 : Word))]).me.sewBits }], dsts := [], reads := scaleReads (fwFA ((withS [(24, (65537 : Word))]).me.getS 24#5)) (fwZA ((withS [(24, (65537 : Word))]).me.getS 24#5)), writes := [], kr := [BitVec.toNat 1#3], kw := [] }
    4 Need.readWrite acceptsFar (List.map (fun i => (i, (withS [(24, (65537 : Word))]).me.getS 3#5 + BitVec.ofNat 64 (4 * i))) ((withS [(24, (65537 :
    Word))]).me.todo 1#3)) [elemAt 0 (65536 : Word), elemAt 2 (65544 : Word)] (withS [(24, (65537 : Word))])) :=
  ⟨by decide +kernel, by decide +kernel, by decide +kernel, by decide +kernel, by unfold ElementsPass; decide +kernel⟩

theorem meets_RemoteReduceFlags : ((withS [(24, (65537 : Word))]).me.heldFlags = BitVec.ofNat 5 0) ∧ ([elemAt 0 (65536 : Word), elemAt 2 (65544 :
    Word)] ≠ []) := by decide +kernel

theorem meets_AccessFlag : ((flagging.strand flagging.arg.slot).out[flagging.arg.idx]? = some flagAccess) ∧ (flagAccess.op = AccessOp.flag
    Scope.package) ∧ (flagAccess.place = Place.mem 65536 false) ∧ (flagAccess.n = 8) ∧ (flagAccess.blocks = false) ∧ (flagAccess.tag = none) ∧
    ((flagging.strand flagging.arg.slot).phase ≠ Phase.free) ∧ (heldBack (dieOf (coreOf flagging.arg.slot)) (flagging.strand flagging.arg.slot).out
    flagging.arg.idx flagAccess = false) ∧ (performFault flagging flagging.arg.slot flagAccess = none) ∧ (underTest flagging flagging.arg.slot
    flagAccess.place flagAccess.n = false) := by decide +kernel

theorem meets_AccessMark : ((loadingPoison.strand loadingPoison.arg.slot).out[loadingPoison.arg.idx]? = some (accessOf (AccessOp.vload 2 32 false))) ∧
    ((accessOf (AccessOp.vload 2 32 false)).op = AccessOp.vload 2 32 false) ∧ ((accessOf (AccessOp.vload 2 32 false)).place = Place.mem 65536 false) ∧
    ((accessOf (AccessOp.vload 2 32 false)).blocks = false) ∧ ((accessOf (AccessOp.vload 2 32 false)).tag = none) ∧ ((loadingPoison.strand
    loadingPoison.arg.slot).phase ≠ Phase.free) ∧ (heldBack (dieOf (coreOf loadingPoison.arg.slot)) (loadingPoison.strand loadingPoison.arg.slot).out
    loadingPoison.arg.idx (accessOf (AccessOp.vload 2 32 false)) = false) ∧ (performFault loadingPoison loadingPoison.arg.slot (accessOf
    (AccessOp.vload 2 32 false)) = some FaultClass.poison) ∧ (FaultClass.poison ≠ FaultClass.memLost) := by decide +kernel

theorem meets_AccessAck : (flagging.strand flagging.arg.slot).acks[flagging.arg.idx]? = some 1 := by decide +kernel

theorem meets_AccessSlot : (7 = flagging.arg.num) ∧ (1 ≤ 7) ∧ (7 < 8) ∧ ((flagging.strand flagging.arg.slot).sbPend.getLsbD 7 = true) ∧ (∀ a ∈
    (flagging.strand flagging.arg.slot).out, a.seq ≠ tabGet 0 (flagging.strand flagging.arg.slot).sbOwner 7) ∧ (∀ x ∈ (flagging.strand
    flagging.arg.slot).sbFail, x.1.toNat ≠ 7) := by decide +kernel

theorem meets_AccessSlotError : (7 = slotFails.arg.num) ∧ (1 ≤ 7) ∧ (7 < 8) ∧ ((slotFails.strand slotFails.arg.slot).sbPend.getLsbD 7 = true) ∧ (∀ a ∈
    (slotFails.strand slotFails.arg.slot).out, a.seq ≠ tabGet 0 (slotFails.strand slotFails.arg.slot).sbOwner 7) ∧ (∃ x ∈ (slotFails.strand
    slotFails.arg.slot).sbFail, x.1.toNat = 7) := by decide +kernel

theorem meets_ScatterLinked : (scattering.arg.slot = 0) ∧ (scattering.arg.idx = 0) ∧ ((scattering.strand 0).out[0]? = some (accessOf (AccessOp.vsc
    (BitVec.ofNat 64 5) (BitVec.ofNat 3 1) [512]))) ∧ ((accessOf (AccessOp.vsc (BitVec.ofNat 64 5) (BitVec.ofNat 3 1) [512])).op = AccessOp.vsc (5 :
    Word) 1#3 [512]) ∧ ((accessOf (AccessOp.vsc (BitVec.ofNat 64 5) (BitVec.ofNat 3 1) [512])).place = Place.mem 65536 false) ∧ ((accessOf
    (AccessOp.vsc (BitVec.ofNat 64 5) (BitVec.ofNat 3 1) [512])).n = 4) ∧ ((accessOf (AccessOp.vsc (BitVec.ofNat 64 5) (BitVec.ofNat 3 1)
    [512])).blocks = false) ∧ ((accessOf (AccessOp.vsc (BitVec.ofNat 64 5) (BitVec.ofNat 3 1) [512])).tag = none) ∧ (performFault scattering 0
    (accessOf (AccessOp.vsc (BitVec.ofNat 64 5) (BitVec.ofNat 3 1) [512])) = none) ∧ (underTest scattering 0 (accessOf (AccessOp.vsc (BitVec.ofNat 64
    5) (BitVec.ofNat 3 1) [512])).place (accessOf (AccessOp.vsc (BitVec.ofNat 64 5) (BitVec.ofNat 3 1) [512])).n = false) ∧ ((scattering.strand
    0).phase ≠ Phase.free) ∧ (heldBack (dieOf (coreOf 0)) (scattering.strand 0).out 0 (accessOf (AccessOp.vsc (BitVec.ofNat 64 5) (BitVec.ofNat 3 1)
    [512])) = false) := by decide +kernel

theorem meets_ScatterLost : (scatteringLost.arg.slot = 0) ∧ (scatteringLost.arg.idx = 0) ∧ ((scatteringLost.strand 0).out[0]? = some (accessOf
    (AccessOp.vsc (BitVec.ofNat 64 5) (BitVec.ofNat 3 1) [512]))) ∧ ((accessOf (AccessOp.vsc (BitVec.ofNat 64 5) (BitVec.ofNat 3 1) [512])).op =
    AccessOp.vsc (5 : Word) 1#3 [512]) ∧ ((accessOf (AccessOp.vsc (BitVec.ofNat 64 5) (BitVec.ofNat 3 1) [512])).place = Place.mem 65536 false) ∧
    ((accessOf (AccessOp.vsc (BitVec.ofNat 64 5) (BitVec.ofNat 3 1) [512])).n = 4) ∧ ((accessOf (AccessOp.vsc (BitVec.ofNat 64 5) (BitVec.ofNat 3 1)
    [512])).blocks = false) ∧ ((accessOf (AccessOp.vsc (BitVec.ofNat 64 5) (BitVec.ofNat 3 1) [512])).tag = none) ∧ (performFault scatteringLost 0
    (accessOf (AccessOp.vsc (BitVec.ofNat 64 5) (BitVec.ofNat 3 1) [512])) = none) ∧ (underTest scatteringLost 0 (accessOf (AccessOp.vsc (BitVec.ofNat
    64 5) (BitVec.ofNat 3 1) [512])).place (accessOf (AccessOp.vsc (BitVec.ofNat 64 5) (BitVec.ofNat 3 1) [512])).n = false) ∧ ((scatteringLost.strand
    0).phase ≠ Phase.free) ∧ (heldBack (dieOf (coreOf 0)) (scatteringLost.strand 0).out 0 (accessOf (AccessOp.vsc (BitVec.ofNat 64 5) (BitVec.ofNat 3
    1) [512])) = false) := by decide +kernel

theorem meets_RemoteTags : ((tagEnding.tag tagEnding.arg.num).busy = true) ∧ ((tagEnding.tag tagEnding.arg.num).until_ ≠ 0) ∧
    ((tagEnding.tag tagEnding.arg.num).until_ ≤ tagEnding.cycle) := by decide +kernel

theorem meets_RemoteTags_1 : (tagEnding.arg.num < 24576) ∧ (BitVec.ofNat 6 tagEnding.arg.idx ≠ (tagEnding.tag
    tagEnding.arg.num).gen) := by decide +kernel

theorem meets_MatrixCommandsIssue : QueueTakes matrixFp32.me [] [] := by unfold QueueTakes; decide +kernel

theorem meets_MatrixCommandsIssue_1 : (QueueTakes matrixFp32.me (scaleRegs (fwFA (matrixFp32.me.formatWord 0#3)) (fwZA (matrixFp32.me.formatWord 0#3))
    ++ scaleRegs (fwFB (matrixFp32.me.formatWord 0#3)) (fwZB (matrixFp32.me.formatWord 0#3))) []) ∧ (∀ x ∈ matrixFp32.me.mq, x.id ≠ matrixFp32.seq +
    1) := ⟨by unfold QueueTakes; decide +kernel, by decide +kernel⟩

theorem meets_MatrixCommandsIssue_2 : QueueTakes matrixFp32.me (scaleRegs (fwFB (matrixFp32.me.formatWord 0#3)) (fwZB (matrixFp32.me.formatWord 0#3)))
    [] := by unfold QueueTakes; decide +kernel

theorem meets_MatrixCommandsIssue_3 : QueueTakes matrixFp32.me [BitVec.toNat 2#5] [] := by unfold QueueTakes; decide +kernel

theorem meets_MatrixCommandsIssue_4 : QueueTakes matrixFp32.me [] [BitVec.toNat 1#5] := by unfold QueueTakes; decide +kernel

theorem meets_MatrixCommandsIssue_5 : QueueTakes matrixFp32.me [] (scaleRegs (fwFD (matrixFp32.me.formatWord 0#3))
    (fwZD (matrixFp32.me.formatWord 0#3))) := by unfold QueueTakes; decide +kernel

theorem meets_MatrixCommandsInt : QueueTakes matrixInt.me [] [] := by unfold QueueTakes; decide +kernel

theorem meets_MatrixCommandsInt_1 : (QueueTakes matrixInt.me (scaleRegs (fwFA (matrixInt.me.formatWord 0#3)) (fwZA (matrixInt.me.formatWord 0#3)) ++
    scaleRegs (fwFB (matrixInt.me.formatWord 0#3)) (fwZB (matrixInt.me.formatWord 0#3))) []) ∧ (∀ x ∈ matrixInt.me.mq, x.id ≠ matrixInt.seq + 1) :=
  ⟨by unfold QueueTakes; decide +kernel, by decide +kernel⟩

theorem meets_MatrixCommandsInt_2 : QueueTakes matrixInt.me (scaleRegs (fwFB (matrixInt.me.formatWord 0#3)) (fwZB (matrixInt.me.formatWord 0#3))) [] :=
  by unfold QueueTakes; decide +kernel

theorem meets_MatrixCommandsInt_3 : QueueTakes matrixInt.me [BitVec.toNat 2#5] [] := by unfold QueueTakes; decide +kernel

theorem meets_MatrixCommandsInt_4 : QueueTakes matrixInt.me [] [BitVec.toNat 1#5] := by unfold QueueTakes; decide +kernel

theorem meets_MatrixCommandsInt_5 : QueueTakes matrixInt.me [] (scaleRegs (fwFD (matrixInt.me.formatWord 0#3)) (fwZD
    (matrixInt.me.formatWord 0#3))) := by unfold QueueTakes; decide +kernel

theorem meets_MatrixCommandsNoPlanes : QueueTakes noPlanes.me [] [] := by unfold QueueTakes; decide +kernel

theorem meets_MatrixCommandsNoPlanes_1 : (QueueTakes noPlanes.me (scaleRegs (fwFA (noPlanes.me.formatWord 0#3)) (fwZA (noPlanes.me.formatWord 0#3)) ++
    scaleRegs (fwFB (noPlanes.me.formatWord 0#3)) (fwZB (noPlanes.me.formatWord 0#3))) []) ∧ (∀ x ∈ noPlanes.me.mq, x.id ≠ noPlanes.seq + 1) :=
  ⟨by unfold QueueTakes; decide +kernel, by decide +kernel⟩

theorem meets_MatrixCommandsNoPlanes_2 : QueueTakes noPlanes.me (scaleRegs (fwFB (noPlanes.me.formatWord 0#3)) (fwZB (noPlanes.me.formatWord 0#3))) [] :=
  by unfold QueueTakes; decide +kernel

theorem meets_MatrixCommandsNoPlanes_3 : QueueTakes noPlanes.me [BitVec.toNat 2#5] [] := by unfold QueueTakes; decide +kernel

theorem meets_MatrixCommandsNoPlanes_4 : QueueTakes noPlanes.me [] [BitVec.toNat 1#5] := by unfold QueueTakes; decide +kernel

theorem meets_MatrixCommandsNoPlanes_5 : QueueTakes noPlanes.me [] (scaleRegs (fwFD (noPlanes.me.formatWord 0#3)) (fwZD
    (noPlanes.me.formatWord 0#3))) := by unfold QueueTakes; decide +kernel

theorem meets_MatrixSetup : (fwOk (matrixFp32.me.formatWord 0#3) = true) ∧ (isVectorCode (fwFA (matrixFp32.me.formatWord 0#3)) = true) :=
  by decide +kernel

theorem meets_MatrixSetupBad : (fwOk (matrixBad.me.formatWord 0#3) = false) ∧ (matrixBad.me.phase = Phase.running) := by decide +kernel

theorem meets_MatrixCommandRetires : (List.find? (fun x => x.id == retireT.arg.num) (retireT.strand retireT.arg.slot).mq = some transpose) ∧
    (transpose.started = true) ∧ (mReady (retireT.strand retireT.arg.slot) transpose = true) ∧ (tileOrder retireT retireT.arg.slot transpose = true) ∧
    (poisonRow retireT retireT.arg.slot transpose = none) ∧ (framesTested retireT retireT.arg.slot transpose = false) ∧ (tilePlaces retireT
    retireT.arg.slot transpose = Except.ok ([], retireT)) ∧ ((heldFrames retireT retireT.arg.slot).length ≤ (retireT.strand
    retireT.arg.slot).fq.toNat) ∧ (∀ (f : ℕ), transpose.frame = some f → f < 256 ∧ (frameOf retireT (coreOf retireT.arg.slot) f).orphan = false ∧
    tabHas retireT.frames (coreOf retireT.arg.slot * 256 + f) = true) ∧ (∀ r ∈ transpose.dst.toList ++ transpose.release, holdsFrame ((retireT.strand
    retireT.arg.slot).entry r).state = true → tabHas retireT.frames (coreOf retireT.arg.slot * 256 + ((retireT.strand retireT.arg.slot).entry
    r).frame.toNat) = true ∧ transpose.frame ≠ some ((retireT.strand retireT.arg.slot).entry r).frame.toNat) ∧ (tileForm transpose.ins = none) :=
  by decide +kernel

theorem meets_MatrixMoveOut : (List.find? (fun x => x.id == retireV.arg.num) (retireV.strand retireV.arg.slot).mq = some moveOut) ∧ (moveOut.started =
    true) ∧ (mReady (retireV.strand retireV.arg.slot) moveOut = true) ∧ (tileOrder retireV retireV.arg.slot moveOut = true) ∧ (poisonRow retireV
    retireV.arg.slot moveOut = none) ∧ (framesTested retireV retireV.arg.slot moveOut = false) ∧ (tilePlaces retireV retireV.arg.slot moveOut =
    Except.ok ([], retireV)) ∧ ((heldFrames retireV retireV.arg.slot).length ≤ (retireV.strand retireV.arg.slot).fq.toNat) ∧ (∀ (f : ℕ), moveOut.frame
    = some f → f < 256 ∧ (frameOf retireV (coreOf retireV.arg.slot) f).orphan = false ∧ tabHas retireV.frames (coreOf retireV.arg.slot * 256 + f) =
    true) ∧ (∀ r ∈ moveOut.dst.toList ++ moveOut.release, holdsFrame ((retireV.strand retireV.arg.slot).entry r).state = true → tabHas retireV.frames
    (coreOf retireV.arg.slot * 256 + ((retireV.strand retireV.arg.slot).entry r).frame.toNat) = true ∧ moveOut.frame ≠ some ((retireV.strand
    retireV.arg.slot).entry r).frame.toNat) ∧ (tileForm moveOut.ins = none) := by decide +kernel

theorem meets_MatrixTileLoad : (List.find? (fun x => x.id == retireL.arg.num) (retireL.strand retireL.arg.slot).mq = some tileLoad) ∧
    (tileLoad.started = true) ∧ (mReady (retireL.strand retireL.arg.slot) tileLoad = true) ∧ (tileOrder retireL retireL.arg.slot tileLoad = true) ∧
    (poisonRow retireL retireL.arg.slot tileLoad = none) ∧ (framesTested retireL retireL.arg.slot tileLoad = false) ∧ (tilePlaces retireL
    retireL.arg.slot tileLoad = Except.ok (tileRows, retireL)) ∧ ((heldFrames retireL retireL.arg.slot).length ≤ (retireL.strand
    retireL.arg.slot).fq.toNat) ∧ (∀ (f : ℕ), tileLoad.frame = some f → f < 256 ∧ (frameOf retireL (coreOf retireL.arg.slot) f).orphan = false ∧
    tabHas retireL.frames (coreOf retireL.arg.slot * 256 + f) = true) ∧ (∀ r ∈ tileLoad.dst.toList ++ tileLoad.release, holdsFrame ((retireL.strand
    retireL.arg.slot).entry r).state = true → tabHas retireL.frames (coreOf retireL.arg.slot * 256 + ((retireL.strand retireL.arg.slot).entry
    r).frame.toNat) = true ∧ tileLoad.frame ≠ some ((retireL.strand retireL.arg.slot).entry r).frame.toNat) ∧ (tileForm tileLoad.ins = some
    (BitVec.ofNat 2 0, View.a, true)) ∧ (∀ rp ∈ tileRows, isRemote rp.2 = false ∧ underTest retireL retireL.arg.slot rp.2 rp.1.n = false ∧ accessFault
    retireL retireL.arg.slot rp.2 rp.1.n false = none) := by decide +kernel

theorem meets_MatrixTileStore : (List.find? (fun x => x.id == retireS.arg.num) (retireS.strand retireS.arg.slot).mq = some tileStore) ∧
    (tileStore.started = true) ∧ (mReady (retireS.strand retireS.arg.slot) tileStore = true) ∧ (tileOrder retireS retireS.arg.slot tileStore = true) ∧
    (poisonRow retireS retireS.arg.slot tileStore = none) ∧ (framesTested retireS retireS.arg.slot tileStore = false) ∧ (tilePlaces retireS
    retireS.arg.slot tileStore = Except.ok (tileRows, retireS)) ∧ ((heldFrames retireS retireS.arg.slot).length ≤ (retireS.strand
    retireS.arg.slot).fq.toNat) ∧ (∀ (f : ℕ), tileStore.frame = some f → f < 256 ∧ (frameOf retireS (coreOf retireS.arg.slot) f).orphan = false ∧
    tabHas retireS.frames (coreOf retireS.arg.slot * 256 + f) = true) ∧ (∀ r ∈ tileStore.dst.toList ++ tileStore.release, holdsFrame ((retireS.strand
    retireS.arg.slot).entry r).state = true → tabHas retireS.frames (coreOf retireS.arg.slot * 256 + ((retireS.strand retireS.arg.slot).entry
    r).frame.toNat) = true ∧ tileStore.frame ≠ some ((retireS.strand retireS.arg.slot).entry r).frame.toNat) ∧ (tileForm tileStore.ins = some
    (BitVec.ofNat 2 0, View.a, false)) ∧ (∀ rp ∈ tileRows, isRemote rp.2 = false ∧ underTest retireS retireS.arg.slot rp.2 rp.1.n = false ∧
    accessFault retireS retireS.arg.slot rp.2 rp.1.n false = none) ∧ (tileStore.dst = none) ∧ (tileStore.out = false) := by decide +kernel

theorem meets_ProductInteger : (63 < 64 ∧ 63 < 64 ∧ (64#8).toNat ≤ 64) ∧ isIntCode (fwFA 0x1212#64) = true ∧ isIntCode (fwFB 0x1212#64) = true ∧
    (roundOf 0x1212#64).sat = false := by decide +kernel

theorem meets_ProductSaturating : isIntCode (fwFA 0x8001212#64) = true ∧ isIntCode (fwFB 0x8001212#64) = true ∧ (roundOf 0x8001212#64).sat = true := by
  decide +kernel

theorem meets_ProductReal : isIntCode (fwFA 0x0202#64) = false ∧ isVectorCode (fwFA 0x0202#64) = true ∧ isVectorCode (fwFB 0x0202#64) = true := by
  decide +kernel

theorem meets_ProductOutside : ¬ (5 < (4#8).toNat ∧ 5 < (64#8).toNat) := by decide +kernel

theorem meets_SumForms : fwFA 0x30#64 = 0x30#8 ∧ fwFA 0x8000010#64 = 0x10#8 ∧ (roundOf 0x8000010#64).sat = true := by decide +kernel

theorem meets_AccEncodes : 0 < 2 ^ 60 + 2 ^ 22 := by decide +kernel

theorem meets_VtomElement : 62 < 64 ∧ 61 < 64 ∧ (61 + 64 - 62) % 64 = 63 := by decide +kernel

theorem meets_ConvertPlain : (fwFA 0x020030#64 = 0x30#8 ∨ fwFA 0x020030#64 = 0x10#8) ∧ fmtOf (fwFD 0x020030#64) = some (.float bf16) ∧
    isBfpCode (fwFD 0x020030#64) = false := by decide +kernel

theorem meets_ConvertBlock : (fwFA 0x210010#64 = 0x30#8 ∨ fwFA 0x210010#64 = 0x10#8) ∧ (fmtOf (fwFD 0x210010#64)).isSome = true ∧
    isBfpCode (fwFD 0x210010#64) = true := by decide +kernel

theorem meets_TileTranspose : (63 < 64) ∧ (255 < 256) := by decide +kernel

theorem meets_MatrixCommandStarts : (List.find? (fun x => x.id == startsOf.arg.num) (startsOf.strand startsOf.arg.slot).mq = some waitingTranspose) ∧
    (waitingTranspose.started = false) ∧ (waitingTranspose.faulted = false) ∧ (Option.map (fun x => x.id) (startsOf.strand startsOf.arg.slot).mHead =
    some waitingTranspose.id) ∧ (startsOf.mayIssue (startsOf.strand startsOf.arg.slot).part (startsOf.strand startsOf.arg.slot).gang = true) ∧ (mTurn
    startsOf startsOf.arg.slot = true) ∧ ((startsOf.strand startsOf.arg.slot).phase = Phase.running ∨ (startsOf.strand startsOf.arg.slot).phase =
    Phase.parked) ∧ (popToken (startsOf.strand startsOf.arg.slot) Queue.m waitingTranspose.pop = some startsOf.me) ∧ (reserveToken startsOf.me Queue.m
    (if waitingTranspose.since = 0 then waitingTranspose.push else BitVec.ofNat 2 0) = some startsOf.me) ∧ (mFormatOk waitingTranspose = true) ∧
    (framesNeeded waitingTranspose ≤ (startsOf.strand startsOf.arg.slot).fq.toNat) ∧ (fillsNeeded (startsOf.strand startsOf.arg.slot) waitingTranspose
    = []) ∧ (tilePlaces startsOf startsOf.arg.slot waitingTranspose = Except.ok ([], startsOf)) ∧ (remoteRuns [] = []) ∧ (tilePlaces (match
    waitingTranspose.dst with | some r => (Option.map (fun x => x.2) (takeFrame startsOf startsOf.arg.slot r)).getD startsOf | none => startsOf)
    startsOf.arg.slot waitingTranspose = Except.ok ([], framed)) ∧ (waitingTranspose.dst = none ∨ (heldFrames startsOf startsOf.arg.slot).length + 1 ≤
    (startsOf.strand startsOf.arg.slot).fq.toNat ∧ (freeFrame startsOf (coreOf startsOf.arg.slot)).isSome = true) := by decide +kernel

theorem meets_Fills : (moveOf.frame < 256) ∧ ((filling.strand filling.arg.slot).fillq[filling.arg.idx]? = some moveOf) ∧ (moveOf.since + 150 ≤
    filling.cycle) ∧ (frameTested filling (coreOf filling.arg.slot) moveOf.frame = false) ∧ (underTest filling filling.arg.slot (Place.mem 65536
    false) 32768 = false) ∧ (locate filling (ownCtx filling filling.arg.slot) (BitVec.ofNat 64 ((filling.strand filling.arg.slot).mrbase + moveOf.reg *
    32768)) 32768 1 Need.read acceptsLocal = Except.ok (Place.mem 65536 false, filling)) ∧ (memLost filling 65536 = false) ∧ (memLost filling (65536 +
    4096) = false) ∧ (((filling.strand filling.arg.slot).entry moveOf.reg).state = BitVec.ofNat 3 2) ∧ (((filling.strand filling.arg.slot).entry
    moveOf.reg).frame.toNat = moveOf.frame) := by decide +kernel

theorem meets_Spills : (moveOf.frame < 256) ∧ ((spilling.strand spilling.arg.slot).spillq[spilling.arg.idx]? = some moveOf) ∧ ((spilling.strand
    spilling.arg.slot).sendq = []) ∧ ((spilling.strand spilling.arg.slot).mq = []) ∧ (frameTested spilling (coreOf spilling.arg.slot) moveOf.frame =
    false) ∧ (underTest spilling spilling.arg.slot (Place.mem 65536 false) 32768 = false) ∧ (∀ x ∈ List.take spilling.arg.idx (spilling.strand
    spilling.arg.slot).spillq, x.reg ≠ moveOf.reg) ∧ (∀ x ∈ (spilling.strand spilling.arg.slot).fillq, x.reg ≠ moveOf.reg) ∧ (locate spilling (ownCtx
    spilling spilling.arg.slot) (BitVec.ofNat 64 ((spilling.strand spilling.arg.slot).mrbase + moveOf.reg * 32768)) 32768 1 Need.write acceptsLocal =
    Except.ok (Place.mem 65536 false, spilling)) ∧ (memLost spilling 65536 = false) ∧ (memLost spilling (65536 + 4096) = false) ∧ (((spilling.strand
    spilling.arg.slot).entry moveOf.reg).state = BitVec.ofNat 3 5) ∧ (((spilling.strand spilling.arg.slot).entry moveOf.reg).frame.toNat =
    moveOf.frame) := by decide +kernel

theorem meets_ConfigurationRefused : (((configuring (65 : Word)).strand (configuring (65 : Word)).arg.slot).wait = Wait.msmcfg (65 : Word)) ∧
    (((configuring (65 : Word)).strand (configuring (65 : Word)).arg.slot).phase = Phase.running) ∧ (((configuring (65 : Word)).strand (configuring
    (65 : Word)).arg.slot).mq = []) ∧ (((configuring (65 : Word)).strand (configuring (65 : Word)).arg.slot).lim.toNat < BitVec.toNat (65 : Word) %
    512 + BitVec.toNat (65 : Word) / 2 ^ 16 % 512 ∨ BitVec.toNat (65 : Word) % 512 = 0) := by decide +kernel

theorem meets_SeedArrives : ((seeding.strand seeding.arg.slot).mseed = (64#64, 4) :: [(65#64, 6)]) ∧ (∀ c ∈ (seeding.strand seeding.arg.slot).mq,
    c.id ≤ 4 → ∀ (d a : BitVec 5) (l : BitVec 1) (f : BitVec 3) (p w : BitVec 2), c.ins ≠ Instr.tcvt d a l f p w) := by decide +kernel

theorem meets_ConfigurationWrites : (((configuring (64 : Word)).strand (configuring (64 : Word)).arg.slot).wait = Wait.msmcfg (64 : Word)) ∧
    (((configuring (64 : Word)).strand (configuring (64 : Word)).arg.slot).phase = Phase.running) ∧ (((configuring (64 : Word)).strand (configuring
    (64 : Word)).arg.slot).mq = []) ∧ (BitVec.toNat (64 : Word) % 512 + BitVec.toNat (64 : Word) / 2 ^ 16 % 512 ≤ ((configuring (64 : Word)).strand
    (configuring (64 : Word)).arg.slot).lim.toNat) ∧ (BitVec.toNat (64 : Word) % 512 ≠ 0) ∧ ((heldFrames (configuring (64 : Word)) (configuring (64 :
    Word)).arg.slot).length ≤ BitVec.toNat (64 : Word) % 512) ∧ (((configuring (64 : Word)).strand (configuring (64 : Word)).arg.slot).spillq = []) ∧
    (BitVec.toNat (64 : Word) / 2 ^ 16 % 512 ≤ ((configuring (64 : Word)).strand (configuring (64 : Word)).arg.slot).scrFrames.length) :=
  by decide +kernel

theorem meets_BarrierArrives : (BarrierReady (objectOf 15#4 2#24 1#32 (0 : ℤ) (3 : Word)) 3#5 0#2 0#2 65664 false (objectOf 15#4 2#24 1#32 (0 : ℤ) (3
    : Word))) ∧ (ObjectIs (objectOf 15#4 2#24 1#32 (0 : ℤ) (3 : Word)) 65664 15#4 2#24 1#32 (0 : ℤ)) ∧ ((BitVec.setWidth 40 ((objectOf 15#4 2#24 1#32
    (0 : ℤ) (3 : Word)).me.getS 5#5)).toInt ≠ (0 : ℤ)) ∧ (-(2 : ℤ) ^ 39 ≤ (0 : ℤ) + (BitVec.setWidth 40 ((objectOf 15#4 2#24 1#32 (0 : ℤ) (3 :
    Word)).me.getS 5#5)).toInt ∧ (0 : ℤ) + (BitVec.setWidth 40 ((objectOf 15#4 2#24 1#32 (0 : ℤ) (3 : Word)).me.getS 5#5)).toInt < (2 : ℤ) ^ 39) :=
  ⟨by unfold BarrierReady; decide +kernel, by unfold ObjectIs; decide +kernel, by decide +kernel⟩

theorem meets_BarrierArrives_1 : (BarrierReady (objectOf 15#4 2#24 1#32 (0 : ℤ) (3 : Word)) 3#5 0#2 0#2 65664 false (objectOf 15#4 2#24 1#32 (0 : ℤ)
    (3 : Word))) ∧ (ObjectIs (objectOf 15#4 2#24 1#32 (0 : ℤ) (3 : Word)) 65664 15#4 2#24 1#32 (0 : ℤ)) ∧ (BitVec.toNat 1#32 < BitVec.toNat 2#24) ∧
    (-(2 : ℤ) ^ 39 ≤ (0 : ℤ) + (BitVec.setWidth 40 ((objectOf 15#4 2#24 1#32 (0 : ℤ) (3 : Word)).me.getS 5#5)).toInt ∧ (0 : ℤ) + (BitVec.setWidth 40
    ((objectOf 15#4 2#24 1#32 (0 : ℤ) (3 : Word)).me.getS 5#5)).toInt < (2 : ℤ) ^ 39) :=
  ⟨by unfold BarrierReady; decide +kernel, by unfold ObjectIs; decide +kernel, by decide +kernel⟩

theorem meets_BarrierArrives_2 : (BarrierReady (objectOf 15#4 2#24 1#32 (0 : ℤ) (3 : Word)) 3#5 0#2 0#2 65664 false (objectOf 15#4 2#24 1#32 (0 : ℤ)
    (3 : Word))) ∧ (ObjectIs (objectOf 15#4 2#24 1#32 (0 : ℤ) (3 : Word)) 65664 15#4 2#24 1#32 (0 : ℤ)) ∧ (BitVec.setWidth 4 ((objectOf 15#4 2#24 1#32
    (0 : ℤ) (3 : Word)).me.getS 5#5) ≠ 15#4) := ⟨by unfold BarrierReady; decide +kernel, by unfold ObjectIs; decide +kernel, by decide +kernel⟩

theorem meets_BarrierSectors : (BarrierReady (objectOf 5#4 2#24 2#32 (3 : ℤ) (18446744073709551613 : Word)) 3#5 0#2 0#2 65664 false (objectOf 5#4 2#24
    2#32 (3 : ℤ) (18446744073709551613 : Word))) ∧ (ObjectIs (objectOf 5#4 2#24 2#32 (3 : ℤ) (18446744073709551613 : Word)) 65664 5#4 2#24 2#32 (3 :
    ℤ)) ∧ ((BitVec.setWidth 40 ((objectOf 5#4 2#24 2#32 (3 : ℤ) (18446744073709551613 : Word)).me.getS 5#5)).toInt ≠ (0 : ℤ)) ∧ (-(2 : ℤ) ^ 39 ≤ (3 :
    ℤ) + (BitVec.setWidth 40 ((objectOf 5#4 2#24 2#32 (3 : ℤ) (18446744073709551613 : Word)).me.getS 5#5)).toInt ∧ (3 : ℤ) + (BitVec.setWidth 40
    ((objectOf 5#4 2#24 2#32 (3 : ℤ) (18446744073709551613 : Word)).me.getS 5#5)).toInt < (2 : ℤ) ^ 39) :=
  ⟨by unfold BarrierReady; decide +kernel, by unfold ObjectIs; decide +kernel, by decide +kernel⟩

theorem meets_BarrierSectors_1 : (BarrierReady (objectOf 5#4 2#24 2#32 (3 : ℤ) (18446744073709551613 : Word)) 3#5 0#2 0#2 65664 false (objectOf 5#4
    2#24 2#32 (3 : ℤ) (18446744073709551613 : Word))) ∧ (ObjectIs (objectOf 5#4 2#24 2#32 (3 : ℤ) (18446744073709551613 : Word)) 65664 5#4 2#24 2#32
    (3 : ℤ)) ∧ (BitVec.setWidth 4 ((objectOf 5#4 2#24 2#32 (3 : ℤ) (18446744073709551613 : Word)).me.getS 5#5) ≠ 5#4) :=
  ⟨by unfold BarrierReady; decide +kernel, by unfold ObjectIs; decide +kernel, by decide +kernel⟩

theorem meets_BarrierWaits : (BarrierReady (objectOf 5#4 2#24 1#32 (-3 : ℤ) (5 : Word)) 3#5 0#2 0#2 65664 false (objectOf 5#4 2#24 1#32 (-3 : ℤ) (5 :
    Word))) ∧ (ObjectIs (objectOf 5#4 2#24 1#32 (-3 : ℤ) (5 : Word)) 65664 5#4 2#24 1#32 (-3 : ℤ)) ∧ ((BitVec.setWidth 40 ((objectOf 5#4 2#24 1#32 (-3
    : ℤ) (5 : Word)).me.getS 5#5)).toInt ≠ (0 : ℤ)) ∧ (-(2 : ℤ) ^ 39 ≤ (-3 : ℤ) + (BitVec.setWidth 40 ((objectOf 5#4 2#24 1#32 (-3 : ℤ) (5 :
    Word)).me.getS 5#5)).toInt ∧ (-3 : ℤ) + (BitVec.setWidth 40 ((objectOf 5#4 2#24 1#32 (-3 : ℤ) (5 : Word)).me.getS 5#5)).toInt < (2 : ℤ) ^ 39) :=
  ⟨by unfold BarrierReady; decide +kernel, by unfold ObjectIs; decide +kernel, by decide +kernel⟩

theorem meets_BarrierWaits_1 : (BarrierReady (objectOf 5#4 2#24 1#32 (-3 : ℤ) (5 : Word)) 3#5 0#2 0#2 65664 false (objectOf 5#4 2#24 1#32 (-3 : ℤ) (5
    : Word))) ∧ (ObjectIs (objectOf 5#4 2#24 1#32 (-3 : ℤ) (5 : Word)) 65664 5#4 2#24 1#32 (-3 : ℤ)) ∧ (BitVec.toNat 1#32 < BitVec.toNat 2#24) ∧ (-(2
    : ℤ) ^ 39 ≤ (-3 : ℤ) + (BitVec.setWidth 40 ((objectOf 5#4 2#24 1#32 (-3 : ℤ) (5 : Word)).me.getS 5#5)).toInt ∧ (-3 : ℤ) + (BitVec.setWidth 40
    ((objectOf 5#4 2#24 1#32 (-3 : ℤ) (5 : Word)).me.getS 5#5)).toInt < (2 : ℤ) ^ 39) :=
  ⟨by unfold BarrierReady; decide +kernel, by unfold ObjectIs; decide +kernel, by decide +kernel⟩

theorem meets_BarrierWaits_2 : (BarrierReady (objectOf 5#4 2#24 1#32 (-3 : ℤ) (5 : Word)) 3#5 0#2 0#2 65664 false (objectOf 5#4 2#24 1#32 (-3 : ℤ) (5
    : Word))) ∧ (ObjectIs (objectOf 5#4 2#24 1#32 (-3 : ℤ) (5 : Word)) 65664 5#4 2#24 1#32 (-3 : ℤ)) ∧ (BitVec.setWidth 4 ((objectOf 5#4 2#24 1#32 (-3
    : ℤ) (5 : Word)).me.getS 5#5) = 5#4) := ⟨by unfold BarrierReady; decide +kernel, by unfold ObjectIs; decide +kernel, by decide +kernel⟩

theorem meets_BarrierNoSectors : (BarrierReady (objectOf 5#4 2#24 1#32 (0 : ℤ) (0 : Word)) 3#5 0#2 0#2 65664 false (objectOf 5#4 2#24 1#32 (0 : ℤ) (0
    : Word))) ∧ (ObjectIs (objectOf 5#4 2#24 1#32 (0 : ℤ) (0 : Word)) 65664 5#4 2#24 1#32 (0 : ℤ)) ∧ ((BitVec.setWidth 40 ((objectOf 5#4 2#24 1#32 (0
    : ℤ) (0 : Word)).me.getS 5#5)).toInt = (0 : ℤ)) := ⟨by unfold BarrierReady; decide +kernel, by unfold ObjectIs; decide +kernel, by decide +kernel⟩

theorem meets_BarrierNoSectors_1 : (BarrierReady (objectOf 5#4 2#24 1#32 (0 : ℤ) (0 : Word)) 3#5 0#2 0#2 65664 false (objectOf 5#4 2#24 1#32 (0 : ℤ)
    (0 : Word))) ∧ (ObjectIs (objectOf 5#4 2#24 1#32 (0 : ℤ) (0 : Word)) 65664 5#4 2#24 1#32 (0 : ℤ)) ∧ (BitVec.toNat 1#32 < BitVec.toNat 2#24) ∧ (-(2
    : ℤ) ^ 39 ≤ (0 : ℤ) + (BitVec.setWidth 40 ((objectOf 5#4 2#24 1#32 (0 : ℤ) (0 : Word)).me.getS 5#5)).toInt ∧ (0 : ℤ) + (BitVec.setWidth 40
    ((objectOf 5#4 2#24 1#32 (0 : ℤ) (0 : Word)).me.getS 5#5)).toInt < (2 : ℤ) ^ 39) :=
  ⟨by unfold BarrierReady; decide +kernel, by unfold ObjectIs; decide +kernel, by decide +kernel⟩

theorem meets_BarrierNoSectors_2 : (BarrierReady (objectOf 5#4 2#24 1#32 (0 : ℤ) (0 : Word)) 3#5 0#2 0#2 65664 false (objectOf 5#4 2#24 1#32 (0 : ℤ)
    (0 : Word))) ∧ (ObjectIs (objectOf 5#4 2#24 1#32 (0 : ℤ) (0 : Word)) 65664 5#4 2#24 1#32 (0 : ℤ)) ∧ (BitVec.setWidth 4 ((objectOf 5#4 2#24 1#32 (0
    : ℤ) (0 : Word)).me.getS 5#5) ≠ 5#4) := ⟨by unfold BarrierReady; decide +kernel, by unfold ObjectIs; decide +kernel, by decide +kernel⟩

theorem meets_BarrierAlign : (oddObject.me.phase = Phase.running) ∧ ((sTokens oddObject.me 0#2 0#2).isSome = true) ∧ (BitVec.toNat (oddObject.me.getS
    3#5) < 2 ^ 52) ∧ (inNear (BitVec.toNat (oddObject.me.getS 3#5)) = false) ∧ (BitVec.toNat (oddObject.me.getS 3#5) % 16 ≠ 0) := by decide +kernel

theorem meets_BarrierTag : (demo.me.phase = Phase.running) ∧ (BarrierReady demo 4#5 0#2 0#2 65600 false demo) ∧ (barTag (barRead demo 65600).2 ≠
    BitVec.ofNat 8 183) := ⟨by decide +kernel, by unfold BarrierReady; decide +kernel, by decide +kernel⟩

theorem meets_BarrierTagEngine : (barTag (barRead demo 65600).2 ≠ BitVec.ofNat 8 183) ∧ (1 ≠ 0 ∨ (0 : ℤ) ≠ 0) := by decide +kernel

theorem meets_BwaitEnds : ((bwaiting.strand bwaiting.arg.slot).wait = Wait.bwait (Place.mem 65664 false) (65664 : Word) 4#4 0#2) ∧ ((bwaiting.strand
    bwaiting.arg.slot).phase = Phase.running) ∧ (barTag (barRead bwaiting (placeKey (Place.mem 65664 false)).2).2 = BitVec.ofNat 8 183) ∧ (barP
    (barRead bwaiting (placeKey (Place.mem 65664 false)).2).1 ≠ 4#4) := by decide +kernel

theorem meets_BwaitLooks : (bwaiting.strand 0).wait = Wait.bwait (Place.mem 65664 false) (65664 : Word) 4#4 0#2 := by decide +kernel

theorem meets_PhaseLeft : ((phaseLeft.strand phaseLeft.arg.slot).wait = Wait.bwaitOver (65664 : Word) 1#2 true) ∧ ((phaseLeft.strand
    phaseLeft.arg.slot).phase = Phase.running) := by decide +kernel

theorem meets_TagGone : ((tagGone.strand tagGone.arg.slot).wait = Wait.bwaitOver (65664 : Word) 1#2 false) ∧ ((tagGone.strand tagGone.arg.slot).phase
    = Phase.running) := by decide +kernel

theorem meets_WfeEnds : ((wfeWaiting.strand wfeWaiting.arg.slot).wait = Wait.wfe 900 (100 : Word)) ∧ ((wfeWaiting.strand wfeWaiting.arg.slot).phase =
    Phase.running) ∧ ((100 : Word) ≠ BitVec.ofNat 64 0) ∧ (900 + BitVec.toNat (100 : Word) ≤ wfeWaiting.cycle) := by decide +kernel

theorem meets_WfeTakes : evented.me.evFlag = true := by decide +kernel

theorem meets_WfeWaits : (demo.me.evFlag = false) ∧ (demo.me.wait = Wait.none) := by decide +kernel

theorem meets_WsbGoesOn : ∀ j < 7, BitVec.getLsbD 127#7 j = true → demo.me.sbPend.getLsbD (j + 1) = false ∧ demo.me.sbErr.getLsbD (j + 1) = false :=
  by decide +kernel

theorem meets_WsbWaits : slotPending.me.sbPend &&& 1#7 ++ BitVec.ofNat 1 0 ≠ BitVec.ofNat 8 0 := by decide +kernel

theorem meets_Tokens : demo.me.tok.ms = demo.me.tokNew.ms := by decide +kernel

theorem meets_Tokens_1 : demo.me.tok.cs = demo.me.tokNew.cs := by decide +kernel

theorem meets_Tokens_2 : (demo.me.out = []) ∧ (demo.me.sendq = []) ∧ (demo.me.tokps = []) ∧ (demo.me.tok.sm.toNat + demo.me.tokRes.sm.toNat < 15) :=
  by decide +kernel

theorem meets_Tokens_3 : (demo.me.out = []) ∧ (demo.me.sendq = []) ∧ (demo.me.tokps = []) ∧ (demo.me.tok.sc.toNat + demo.me.tokRes.sc.toNat < 15) :=
  by decide +kernel

theorem meets_Tokens_4 : ((demo.me.guard 3#4).prev = none) ∧ ((demo.me.guard 3#4).cVal = none) := by decide +kernel

theorem meets_Tokens_5 : ((demo.me.guard 3#4).cVal = none) ∧ ((demo.me.guard 3#4).cCap = false) := by decide +kernel

theorem meets_TokensThere : tokened.me.tok.ms ≠ tokened.me.tokNew.ms := by decide +kernel

theorem meets_TokensThere_1 : tokened.me.tok.cs ≠ tokened.me.tokNew.cs := by decide +kernel

theorem meets_TokensThere_2 : (tokened.me.out = []) ∧ (tokened.me.sendq = []) ∧ (tokened.me.tokps = []) ∧ (tokened.me.tok.sm.toNat +
    tokened.me.tokRes.sm.toNat < 15) := by decide +kernel

theorem meets_TokensThere_3 : (tokened.me.out = []) ∧ (tokened.me.sendq = []) ∧ (tokened.me.tokps = []) ∧ (tokened.me.tok.sc.toNat +
    tokened.me.tokRes.sc.toNat < 15) := by decide +kernel

theorem meets_TokensThere_4 : (∀ (id : ℕ), (tokened.me.guard 3#4).prev ≠ some (id, none)) ∧ ((tokened.me.guard 3#4).cVal ≠ none) :=
  ⟨by intro id h; have e : (tokened.me.guard 3#4).prev.all (fun p => p.2.isSome) = true := (by decide +kernel); simp [h] at e, by decide +kernel⟩

theorem meets_TokensThere_5 : (∀ (id : ℕ), (tokened.me.guard 3#4).prev ≠ some (id, none)) ∧ ((tokened.me.guard 3#4).cVal ≠ none ∨ (tokened.me.guard
    3#4).cCap = true) :=
  ⟨by intro id h; have e : (tokened.me.guard 3#4).prev.all (fun p => p.2.isSome) = true := (by decide +kernel); simp [h] at e, by decide +kernel⟩

theorem meets_TokensFull : tokenFull.me.tok.ms ≠ tokenFull.me.tokNew.ms := by decide +kernel

theorem meets_TokensFull_1 : tokenFull.me.tok.cs ≠ tokenFull.me.tokNew.cs := by decide +kernel

theorem meets_TokensFull_2 : tokenFull.me.tok.sm.toNat + tokenFull.me.tokRes.sm.toNat = 15 := by decide +kernel

theorem meets_TokensFull_3 : (tokenFull.me.out = []) ∧ (tokenFull.me.sendq = []) ∧ (tokenFull.me.tokps = []) ∧ (tokenFull.me.tok.sc.toNat +
    tokenFull.me.tokRes.sc.toNat < 15) := by decide +kernel

theorem meets_TokensFull_4 : ((tokenFull.me.guard 3#4).cVal ≠ none ∨ (tokenFull.me.guard 3#4).cCap = true) ∧ (∃ id, (tokenFull.me.guard 3#4).prev =
    some (id, none)) := ⟨by decide +kernel, ⟨_, rfl⟩⟩

theorem meets_TokensFullC_3 : tokenFullC.me.tok.sc.toNat + tokenFullC.me.tokRes.sc.toNat = 15 := by decide +kernel

theorem meets_GuardOldest : (tokenFull.me.guard 3#4).prev = some (6, none) := by decide +kernel

theorem meets_GuardNew : ((guardNew.me.guard 3#4).prev = some (6, some true)) ∧ ((guardNew.me.guard 3#4).cVal = none) := by decide +kernel

theorem meets_GuardDone_4 : (∀ (id : ℕ), (guardDone.me.guard 3#4).prev ≠ some (id, none)) ∧ ((guardDone.me.guard 3#4).cVal ≠ none) :=
  ⟨by intro id h; have e : (guardDone.me.guard 3#4).prev.all (fun p => p.2.isSome) = true := (by decide +kernel); simp [h] at e, by decide +kernel⟩

theorem meets_GuardDone_5 : (∀ (id : ℕ), (guardDone.me.guard 3#4).prev ≠ some (id, none)) ∧ ((guardDone.me.guard 3#4).cVal ≠ none ∨
    (guardDone.me.guard 3#4).cCap = true) :=
  ⟨by intro id h; have e : (guardDone.me.guard 3#4).prev.all (fun p => p.2.isSome) = true := (by decide +kernel); simp [h] at e, by decide +kernel⟩

theorem meets_GuardReplaced : ((guardNew.me.guard 3#4).cVal = none) ∧ ((guardNew.me.guard 3#4).cCap = false) := by decide +kernel

theorem meets_GuardCaught : ((guardCaught.me.guard 3#4).cVal ≠ none ∨ (guardCaught.me.guard 3#4).cCap = true) ∧ (∃ id, (guardCaught.me.guard 3#4).prev
    = some (id, none)) :=
  ⟨by decide +kernel, ⟨_, rfl⟩⟩

theorem meets_FirstFaultLoad : (slotGate pageGap.me 3#3 4#3 = SlotWait.ready) ∧ (vGate pageGap.me
    { srcs := [], dsts := [pageGap.me.sewOp 12#5], reads := [], writes := [], kr := [BitVec.toNat 0#3], kw := [] } = VGate.go) ∧ (checkElems
    pageGap.cur (pageGap.me.sewBits / 8) Need.read acceptsPlain pageGap (List.map (fun i => (i, pageGap.me.getS 10#5 + BitVec.ofNat 64 (i *
    (pageGap.me.sewBits / 8)))) (pageGap.me.todo 0#3)) = ([elemAt 0 (196600 : Word), elemAt 1 (196604 : Word)], some (2,
    { cls := FaultClass.trans, hyp := true, va := 0, mend := [], stack := none, held := false }), pageGap)) ∧ (∀ x ∈ [elemAt 0 (196600 : Word), elemAt
    1 (196604 : Word)], isRemote x.place = false) := by decide +kernel

theorem meets_PatternRetires : (patternFlies.copies[patternFlies.arg.idx]? = some (flight patternCopy)) ∧ ((flight patternCopy).phase = CopyPhase.run
    CopyReads.none) ∧ (patternFlies.tests = []) ∧ ((flight patternCopy).status = BitVec.ofNat 8 0) ∧ ((flight patternCopy).bar = none) ∧ (0 < 5) ∧
    ((slice (flight patternCopy).cmd.arg 0 40).toNat = 5) ∧ (BitVec.toNat (flight patternCopy).cmd.dst % 32 + 5 ≤ 32) ∧ ((flight patternCopy).cmd.ins
    = Instr.cpyz 1#5 2#5 4#5 0#4 0#2 0#2) ∧ (locate patternFlies (copyCtx patternFlies (flight patternCopy).owner (flight patternCopy).core) (flight
    patternCopy).cmd.dst 5 1 Need.write acceptsPlain = Except.ok (Place.mem 65627 false, patternFlies)) ∧ (accessFault patternFlies ((ownerSlot
    patternFlies (flight patternCopy).owner).getD 0) (Place.mem 65627 false) 5 false = none) := by decide +kernel

theorem meets_CopyRetires : (copyFlies.copies[copyFlies.arg.idx]? = some (flight plainCopy)) ∧ ((flight plainCopy).phase = CopyPhase.run
    CopyReads.none) ∧ (copyFlies.tests = []) ∧ ((flight plainCopy).status = BitVec.ofNat 8 0) ∧ ((flight plainCopy).bar = none) ∧ (0 < 5) ∧ ((slice
    (flight plainCopy).cmd.arg 0 40).toNat = 5) ∧ (BitVec.toNat (flight plainCopy).cmd.dst % 32 + 5 ≤ 32) ∧ ((flight plainCopy).cmd.ins = Instr.cpy
    1#5 2#5 4#5 0#4 0#2 0#2) ∧ (BitVec.toNat (flight plainCopy).cmd.src % 32 + 5 ≤ 32) ∧ (locate copyFlies (copyCtx copyFlies (flight plainCopy).owner
    (flight plainCopy).core) (flight plainCopy).cmd.src 5 1 Need.read acceptsPlain = Except.ok (Place.mem 65537 false, copyFlies)) ∧ (accessFault
    copyFlies ((ownerSlot copyFlies (flight plainCopy).owner).getD 0) (Place.mem 65537 false) 5 true = none) ∧ (locate copyFlies (copyCtx copyFlies
    (flight plainCopy).owner (flight plainCopy).core) (flight plainCopy).cmd.dst 5 1 Need.write acceptsPlain = Except.ok (Place.mem 65627 false,
    copyFlies)) ∧ (accessFault copyFlies ((ownerSlot copyFlies (flight plainCopy).owner).getD 0) (Place.mem 65627 false) 5 false = none) :=
  by decide +kernel

theorem meets_CopyCommandsIssue : demo.me.cq.length < 16 := by decide +kernel

theorem meets_CopyQueueFull : 16 ≤ copyFull.me.cq.length := by decide +kernel

theorem meets_CopyStarts : (copyStarts.arg.copySrc = CopySource.slot 0) ∧ ((copyStarts.strand 0).cq = [plainCopy]) ∧ ((copyStarts.strand 0).phase =
    Phase.running) ∧ ((copyStarts.strand 0).wait = Wait.none) ∧ (plainCopy.guard = none) ∧ (plainCopy.pop = 0#2) ∧ (plainCopy.push = 0#2) ∧
    (plainCopy.bar = 0#64) ∧ (∀ (a b r : BitVec 5) (g : BitVec 4) (p w : BitVec 2), plainCopy.ins ≠ Instr.cpyt a b r g p w) ∧
    (copyStarts.mayIssue (copyStarts.strand 0).part (copyStarts.strand 0).gang = true) ∧ (cTurn copyStarts (coreOf 0) (0 % 4) = true) ∧
    (transferFree copyStarts ((copyStarts.strand 0).owner 0) false (recCq (copyStarts.strand 0).rcd).toNat (coreOf 0) = true) ∧
    (copyAsks { (copyStarts.setStrand 0 { (copyStarts.strand 0) with cq := [] }) with lastC := tabPut 0 copyStarts.lastC (coreOf 0) (0 % 4) }
    { owner := (copyStarts.strand 0).owner 0, orphan := false, core := coreOf 0, cmd := plainCopy, status := 0#8, badVa := 0, bar := none, tag := none,
      near := copyNear plainCopy 0#896, tmap := 0#896, phase := CopyPhase.run CopyReads.none, since := copyStarts.cycle } = []) :=
  ⟨by decide +kernel, by decide +kernel, by decide +kernel, by decide +kernel, by decide +kernel, by decide +kernel, by decide +kernel,
    by decide +kernel, fun a b r g p w h => by simp [plainCopy, copyCommand] at h, by decide +kernel⟩

theorem meets_GuardFalse : (guardFalse.arg.slot = 0) ∧ (guardFalse.arg.engine = Engine.copy) ∧ ((guardFalse.strand 0).cq = [guardedCopy]) ∧
    ((guardFalse.strand 0).phase = Phase.running) ∧ ((guardFalse.strand 0).wait = Wait.none) ∧ (guardedCopy.guard = some falseEpoch) ∧ (falseEpoch.val
    = some false) ∧ (guardedCopy.pop = BitVec.ofNat 2 0) ∧ (guardedCopy.push = BitVec.ofNat 2 0) := by decide +kernel

theorem meets_StoreTimeout : ((storeTimeout.arg.timeout = TimeoutTarget.access 0 storeTimeout.arg.idx) ∧ ((storeTimeout.strand
    0).out[storeTimeout.arg.idx]? = some farStore) ∧ (farStore.op = AccessOp.store (7 : Word)) ∧ (farStore.place = Place.remote 1#10 256) ∧ (1#10 ≠
    storeTimeout.self) ∧ (farStore.sent = true) ∧ (farStore.since + storeTimeout.remto ≤ storeTimeout.cycle) ∧ (farStore.blocks = false) ∧
    (farStore.sb = BitVec.ofNat 3 0) ∧ (farStore.tag = some 3) ∧ ((storeTimeout.strand 0).deferred = none)) ∧ (∀ b ∈ (storeTimeout.strand 0).out, ∀ (sc
    : Scope), b.op ≠ AccessOp.flag sc) :=
  ⟨by decide +kernel,
    fun b hb sc h => by
      have hs : ∀ b ∈ (storeTimeout.strand 0).out, b.op = .store 7 := (by decide +kernel)
      simp [hs b hb] at h⟩

theorem meets_JoinTimeout : (Tests.joinTimeout.arg.timeout = TimeoutTarget.join Tests.joinTimeout.arg.idx) ∧
    (Tests.joinTimeout.joinOps[Tests.joinTimeout.arg.idx]? = some farJoin) ∧ (farJoin.tag ≠ none) ∧ (farJoin.since + Tests.joinTimeout.remto ≤
    Tests.joinTimeout.cycle) := by decide +kernel

theorem meets_SendsIssue : (DescriptorForm sending.me (sending.me.getS 3#5) 0#2 0#2) ∧ (RecordAt sending (sending.me.getS 3#5) acceptsFar sendDesc
    sending) ∧ (mboxOpen sending (sdSrcMb sendDesc).toNat sending.me.part = true) ∧ (peerFault sending sending.me.part (slice (sdDst sendDesc) 12 10)
    = none) ∧ (sdOk false sendDesc = true) := ⟨by unfold DescriptorForm; decide +kernel, ⟨0x10000, false, by decide +kernel⟩, by decide +kernel⟩

theorem meets_SendsTile : (DescriptorForm sendingTile.me (sendingTile.me.getS 3#5) 0#2 0#2) ∧ (RecordAt sendingTile (sendingTile.me.getS 3#5)
    acceptsFar sendDescTile sendingTile) ∧ (mboxOpen sendingTile (sdSrcMb sendDescTile).toNat sendingTile.me.part = true) ∧ (peerFault sendingTile
    sendingTile.me.part (slice (sdDst sendDescTile) 12 10) = none) ∧ (sdOk false sendDescTile = true) :=
  ⟨by unfold DescriptorForm; decide +kernel, ⟨0x10000, false, by decide +kernel⟩, by decide +kernel⟩

theorem meets_SendsTile_1 : (DescriptorForm sendingTile.me (sendingTile.me.getS 3#5) 0#2 0#2) ∧ (RecordAt sendingTile (sendingTile.me.getS 3#5)
    acceptsFar sendDescTile sendingTile) ∧ (mboxOpen sendingTile (sdSrcMb sendDescTile).toNat sendingTile.me.part = true) ∧ (peerFault sendingTile
    sendingTile.me.part (slice (sdDst sendDescTile) 12 10) = none) ∧ (sdOk (some (sendingTile.me.mreg 10#5, bindForSend sendingTile.me
    (sendingTile.me.mreg 10#5))).isSome sendDescTile = true) :=
  ⟨by unfold DescriptorForm; decide +kernel, ⟨0x10000, false, by decide +kernel⟩, by decide +kernel⟩

theorem meets_SendsMisaligned : ((sTokens oddRecord.me 0#2 0#2).isSome = true) ∧ (BitVec.toNat (oddRecord.me.getS 3#5) % 64 ≠ 0) ∧ (oddRecord.me.phase
    = Phase.running) := by decide +kernel

theorem meets_SendStarts : (sendStarts.arg.slot = 0) ∧ ((sendStarts.strand 0).sendq = [sendOf]) ∧ (sendOf.ins = Instr.msend 3#5 0#4 0#2 0#2) ∧
    (sendOf.reg = none) ∧ (sendOf.guard = none) ∧ (4096 < sdLen sendOf.desc) ∧ ((sendStarts.strand 0).phase ≠ Phase.free) ∧ (sendStarts.arg.num <
    1024) ∧ (sendSlotTaken sendStarts 0 sendStarts.arg.num = false) ∧ (sendOf.asked = none) ∧ (∀ x ∈ (sendStarts.strand 0).out,
    sendOf.seq ≤ x.seq) ∧ (slice (sdDst sendOf.desc) 12 10 ≠ sendStarts.self) := by decide +kernel

theorem meets_PullFar : (List.find? (fun x => x.hnd.toNat == pullFar.arg.num) pullFar.sends = some (stagedSend sendDesc 3#8)) ∧ ((stagedSend sendDesc
    3#8).kind ≠ BitVec.ofNat 8 1) ∧ ((stagedSend sendDesc 3#8).kind ≠ BitVec.ofNat 8 2) ∧ ((stagedSend sendDesc 3#8).asked = none) ∧ (slice (sdDst
    (stagedSend sendDesc 3#8).desc) 12 10 ≠ pullFar.self) := by decide +kernel

theorem meets_PullOwn : (List.find? (fun x => x.hnd.toNat == Tests.pullAllowed.arg.num) Tests.pullAllowed.sends = some (stagedSend sendDescOwn 3#8)) ∧
    ((stagedSend sendDescOwn 3#8).kind ≠ BitVec.ofNat 8 1) ∧ ((stagedSend sendDescOwn 3#8).kind ≠ BitVec.ofNat 8 2) ∧ ((stagedSend sendDescOwn
    3#8).asked = none) ∧ (slice (sdDst (stagedSend sendDescOwn 3#8).desc) 12 10 = Tests.pullAllowed.self) ∧ (ownClaim 11 ∈ (Tests.pullAllowed.mbox
    2).claims) ∧ ((ownClaim 11).st = ClaimState.pulling) ∧ ((ownClaim 11).msg.peer = Tests.pullAllowed.self) ∧ (hdHnd (ownClaim 11).msg.hdr =
    (stagedSend sendDescOwn 3#8).hnd) ∧ (Tests.pullAllowed.arg.idx + Tests.pullAllowed.arg.area ≤ recvLen (ownClaim 11).hole.rcd (ownClaim
    11).msg.hdr) := by decide +kernel

theorem meets_PullPast : (List.find? (fun x => x.hnd.toNat == pullPast.arg.num) pullPast.sends = some (stagedSend sendDescOwn 3#8)) ∧ ((stagedSend
    sendDescOwn 3#8).kind ≠ BitVec.ofNat 8 1) ∧ ((stagedSend sendDescOwn 3#8).kind ≠ BitVec.ofNat 8 2) ∧ ((stagedSend sendDescOwn 3#8).asked = none) ∧
    (slice (sdDst (stagedSend sendDescOwn 3#8).desc) 12 10 = pullPast.self) ∧ (∀ kb ∈ pullPast.mailboxes, ∀ c ∈ kb.2.claims, c.st = ClaimState.pulling
    → c.msg.peer = pullPast.self → hdHnd c.msg.hdr = (stagedSend sendDescOwn 3#8).hnd → recvLen c.hole.rcd c.msg.hdr < pullPast.arg.idx +
    pullPast.arg.area) := by decide +kernel

theorem meets_SendReplied : (sendReplied.arg.sendEnd = SendEnd.reply replyOk) ∧ ((hdHnd replyOk).toNat = sendReplied.arg.num) ∧ (List.find? (fun x =>
    replyFits x replyOk) sendReplied.sends = some (stagedSend sendDescStat 2#8)) ∧ (replyCode (stagedSend sendDescStat 2#8) replyOk = some (0#16,
    8192#32)) ∧ ((stagedSend sendDescStat 2#8).srcFault = false) ∧ ((stagedSend sendDescStat 2#8).tag = none) ∧ (sendReplied.tests = []) ∧ (sdBar
    (stagedSend sendDescStat 2#8).desc = BitVec.ofNat 64 0) ∧ (sdStat (stagedSend sendDescStat 2#8).desc ≠ BitVec.ofNat 64 0) ∧ (locate
    { sendReplied with sends := List.filter (fun y => y.hnd != (stagedSend sendDescStat 2#8).hnd) sendReplied.sends } (engineCtx (stagedSend
    sendDescStat 2#8).owner.part) (sdStat (stagedSend sendDescStat 2#8).desc) 16 1 Need.write acceptsFar = Except.ok (Place.mem 131088 false,
    { sendReplied with sends := [] })) ∧ (accessFault { sendReplied with sends := [] } 0 (Place.mem 131088 false) 16 true = none) := by decide +kernel

theorem meets_SendGivenUp : (sendGivenUp.arg.sendEnd = SendEnd.giveUp) ∧ (List.find? (fun x => x.hnd.toNat == sendGivenUp.arg.num) sendGivenUp.sends =
    some (stagedSend sendDesc 2#8)) ∧ ((stagedSend sendDesc 2#8).since + sendGivenUp.remto ≤ sendGivenUp.cycle) ∧ ((stagedSend sendDesc 2#8).tag =
    none) ∧ (sdBar (stagedSend sendDesc 2#8).desc = BitVec.ofNat 64 0) ∧ (sdStat (stagedSend sendDesc 2#8).desc = BitVec.ofNat 64 0) :=
  by decide +kernel

theorem meets_SendGivenUpStat : (sendGivenUpStat.arg.sendEnd = SendEnd.giveUp) ∧ (List.find? (fun x => x.hnd.toNat == sendGivenUpStat.arg.num)
    sendGivenUpStat.sends = some (stagedSend sendDescStat 2#8)) ∧ ((stagedSend sendDescStat 2#8).since + sendGivenUpStat.remto ≤
    sendGivenUpStat.cycle) ∧ ((stagedSend sendDescStat 2#8).tag = none) ∧ ((stagedSend sendDescStat 2#8).srcFault = false) ∧ (sendGivenUpStat.tests =
    []) ∧ (sdBar (stagedSend sendDescStat 2#8).desc = BitVec.ofNat 64 0) ∧ (sdStat (stagedSend sendDescStat 2#8).desc ≠ BitVec.ofNat 64 0) ∧ (locate
    { sendGivenUpStat with sends := List.filter (fun y => y.hnd != (stagedSend sendDescStat 2#8).hnd) sendGivenUpStat.sends } (engineCtx (stagedSend
    sendDescStat 2#8).owner.part) (sdStat (stagedSend sendDescStat 2#8).desc) 16 1 Need.write acceptsFar = Except.ok (Place.mem 131088 false,
    { sendGivenUpStat with sends := [] })) ∧ (accessFault { sendGivenUpStat with sends := [] } 0 (Place.mem 131088 false) 16 true = none) :=
  by decide +kernel

theorem meets_Posting : (mboxOpen posting (slice (posting.me.getS 8#5) 0 12).toNat posting.me.part = true) ∧ (DescriptorForm posting.me
    (posting.me.getS 3#5) 0#2 0#2) ∧ (RecordAt posting (posting.me.getS 3#5) acceptsFar holeRec posting) ∧ (posting.me.out = []) ∧ ((posting.mbox
    (slice (posting.me.getS 8#5) 0 12).toNat).holes.length < 1024) ∧ (phOk false holeRec = true) ∧ (∀ m ∈ (posting.mbox (slice (posting.me.getS 8#5) 0
    12).toNat).queue, headerMatches m.hdr holeRec = false) :=
  ⟨by decide +kernel, by unfold DescriptorForm; decide +kernel, ⟨0x10000, false, by decide +kernel⟩, by decide +kernel⟩

theorem meets_Posting_1 : (mboxOpen posting (slice (posting.me.getS 8#5) 0 12).toNat posting.me.part = true) ∧ (DescriptorForm posting.me
    (posting.me.getS 3#5) 0#2 0#2) ∧ (RecordAt posting (posting.me.getS 3#5) acceptsFar holeRec posting) ∧ (phMatchOk holeRec = true) ∧ (∀ m ∈
    (posting.mbox (slice (posting.me.getS 8#5) 0 12).toNat).queue, headerMatches m.hdr holeRec = false) :=
  ⟨by decide +kernel, by unfold DescriptorForm; decide +kernel, ⟨0x10000, false, by decide +kernel⟩, by decide +kernel⟩

theorem meets_PostingTile : (mboxOpen postingTile (slice (postingTile.me.getS 8#5) 0 12).toNat postingTile.me.part = true) ∧ (DescriptorForm
    postingTile.me (postingTile.me.getS 3#5) 0#2 0#2) ∧ (RecordAt postingTile (postingTile.me.getS 3#5) acceptsFar holeRecTile postingTile) ∧
    (postingTile.me.out = []) ∧ ((postingTile.mbox (slice (postingTile.me.getS 8#5) 0 12).toNat).holes.length < 1024) ∧ (phOk true holeRecTile = true)
    ∧ (∀ m ∈ (postingTile.mbox (slice (postingTile.me.getS 8#5) 0 12).toNat).queue, headerMatches m.hdr (putSlice holeRecTile 152 8 (BitVec.ofNat 8
    (postingTile.me.mreg 10#5))) = false) :=
  ⟨by decide +kernel, by unfold DescriptorForm; decide +kernel, ⟨0x10000, false, by decide +kernel⟩, by decide +kernel⟩

theorem meets_PostingTile_1 : (mboxOpen postingTile (slice (postingTile.me.getS 8#5) 0 12).toNat postingTile.me.part = true) ∧ (DescriptorForm
    postingTile.me (postingTile.me.getS 3#5) 0#2 0#2) ∧ (RecordAt postingTile (postingTile.me.getS 3#5) acceptsFar holeRecTile postingTile) ∧
    (phMatchOk holeRecTile = true) ∧ (∀ m ∈ (postingTile.mbox (slice (postingTile.me.getS 8#5) 0 12).toNat).queue, headerMatches m.hdr holeRecTile =
    false) := ⟨by decide +kernel, by unfold DescriptorForm; decide +kernel, ⟨0x10000, false, by decide +kernel⟩, by decide +kernel⟩

theorem meets_Claiming : (mboxOpen claiming (slice (claiming.me.getS 8#5) 0 12).toNat claiming.me.part = true) ∧ (DescriptorForm claiming.me
    (claiming.me.getS 3#5) 0#2 0#2) ∧ (RecordAt claiming (claiming.me.getS 3#5) acceptsFar holeRec claiming) ∧ (claiming.me.out = []) ∧
    ((claiming.mbox (slice (claiming.me.getS 8#5) 0 12).toNat).holes.length < 1024) ∧ (phOk false holeRec = true) ∧ ((claiming.mbox (slice
    (claiming.me.getS 8#5) 0 12).toNat).queue = [messageOf headerOther] ++ [messageOf headerOf, messageOf headerOther]) ∧ (∀ x ∈ [messageOf
    headerOther], headerMatches x.hdr holeRec = false) ∧ (headerMatches (messageOf headerOf).hdr holeRec = true) :=
  ⟨by decide +kernel, by unfold DescriptorForm; decide +kernel, ⟨0x10000, false, by decide +kernel⟩, by decide +kernel⟩

theorem meets_ClaimingTile : (mboxOpen claimingTile (slice (claimingTile.me.getS 8#5) 0 12).toNat claimingTile.me.part = true) ∧ (DescriptorForm
    claimingTile.me (claimingTile.me.getS 3#5) 0#2 0#2) ∧ (RecordAt claimingTile (claimingTile.me.getS 3#5) acceptsFar holeRecTile claimingTile) ∧
    (claimingTile.me.out = []) ∧ ((claimingTile.mbox (slice (claimingTile.me.getS 8#5) 0 12).toNat).holes.length < 1024) ∧ (phOk true holeRecTile =
    true) ∧ ((claimingTile.mbox (slice (claimingTile.me.getS 8#5) 0 12).toNat).queue = [messageOf headerOther] ++ [messageOf headerOf, messageOf
    headerOther]) ∧ (∀ x ∈ [messageOf headerOther], headerMatches x.hdr (putSlice holeRecTile 152 8 (BitVec.ofNat 8 (claimingTile.me.mreg 10#5))) =
    false) ∧ (headerMatches (messageOf headerOf).hdr (putSlice holeRecTile 152 8 (BitVec.ofNat 8 (claimingTile.me.mreg 10#5))) = true) :=
  ⟨by decide +kernel, by unfold DescriptorForm; decide +kernel, ⟨0x10000, false, by decide +kernel⟩, by decide +kernel⟩

theorem meets_Probing : (mboxOpen claiming (slice (claiming.me.getS 8#5) 0 12).toNat claiming.me.part = true) ∧ (DescriptorForm claiming.me
    (claiming.me.getS 3#5) 0#2 0#2) ∧ (RecordAt claiming (claiming.me.getS 3#5) acceptsFar holeRec claiming) ∧ (phMatchOk holeRec = true) ∧
    ((claiming.mbox (slice (claiming.me.getS 8#5) 0 12).toNat).queue = [messageOf headerOther] ++ [messageOf headerOf, messageOf headerOther]) ∧ (∀ x
    ∈ [messageOf headerOther], headerMatches x.hdr holeRec = false) ∧ (headerMatches (messageOf headerOf).hdr holeRec = true) :=
  ⟨by decide +kernel, by unfold DescriptorForm; decide +kernel, ⟨0x10000, false, by decide +kernel⟩, by decide +kernel⟩

theorem meets_CancelNothing : (mboxOpen cancelling (slice (cancelling.me.getS 8#5) 0 12).toNat cancelling.me.part = true) ∧ ((sTokens cancelling.me
    0#2 0#2).isSome = true) ∧ (∀ x ∈ (cancelling.mbox (slice (cancelling.me.getS 8#5) 0 12).toNat).holes, slice (phStat x.rcd) 0 52 ≠ slice
    (cancelling.me.getS 3#5) 0 52) := by decide +kernel

theorem meets_CancelOldest : (mboxOpen cancelling (slice (cancelling.me.getS 8#5) 0 12).toNat cancelling.me.part = true) ∧ ((sTokens cancelling.me 0#2
    0#2).isSome = true) ∧ ((cancelling.mbox (slice (cancelling.me.getS 8#5) 0 12).toNat).holes = [holeStat] ++ [holeNone, holeStat]) ∧ (∀ y ∈
    [holeStat], slice (phStat y.rcd) 0 52 ≠ slice (cancelling.me.getS 0#5) 0 52) ∧ (phStat holeNone.rcd = BitVec.ofNat 64 0) ∧ (slice
    (cancelling.me.getS 0#5) 0 52 = BitVec.ofNat 52 0) ∧ (phBar holeNone.rcd = BitVec.ofNat 64 0) ∧ (phWdesc holeNone.rcd = BitVec.ofNat 64 0) :=
  by decide +kernel

theorem meets_CancelStat : (mboxOpen cancelsStat (slice (cancelsStat.me.getS 8#5) 0 12).toNat cancelsStat.me.part = true) ∧ ((sTokens cancelsStat.me 0#2 0#2).isSome = true) ∧ (cancelsStat.tests = []) ∧
    ((cancelsStat.mbox (slice (cancelsStat.me.getS 8#5) 0 12).toNat).holes = [holeNone] ++ holeStat :: [holeStat]) ∧ (∀ y ∈ [holeNone], slice (phStat
    y.rcd) 0 52 ≠ slice (cancelsStat.me.getS 10#5) 0 52) ∧ (slice (phStat holeStat.rcd) 0 52 = slice (cancelsStat.me.getS 10#5) 0 52) ∧ (phStat
    holeStat.rcd ≠ BitVec.ofNat 64 0) ∧ (phBar holeStat.rcd = BitVec.ofNat 64 0) ∧ (phWdesc holeStat.rcd = BitVec.ofNat 64 0) ∧ (locate (cancelled
    cancelsStat [holeNone, holeStat]) (engineCtx holeStat.owner.part) (phStat holeStat.rcd) 16 1 Need.write acceptsFar = Except.ok (Place.mem 131088
    false, cancelled cancelsStat [holeNone, holeStat])) ∧ (accessFault (cancelled cancelsStat [holeNone, holeStat]) 0 (Place.mem 131088 false) 16 true
    = none) := by decide +kernel

theorem meets_CancelBar : (mboxOpen cancelsBar (slice (cancelsBar.me.getS 8#5) 0 12).toNat cancelsBar.me.part = true) ∧ ((sTokens cancelsBar.me 0#2 0#2).isSome = true) ∧ (cancelsBar.tests = []) ∧
    ((cancelsBar.mbox (slice (cancelsBar.me.getS 8#5) 0 12).toNat).holes = [holeStat] ++ holeBar :: []) ∧ (∀ y ∈ [holeStat], slice (phStat y.rcd) 0 52
    ≠ slice (cancelsBar.me.getS 0#5) 0 52) ∧ (slice (phStat holeBar.rcd) 0 52 = slice (cancelsBar.me.getS 0#5) 0 52) ∧ (phStat holeBar.rcd =
    BitVec.ofNat 64 0) ∧ (phBar holeBar.rcd ≠ BitVec.ofNat 64 0) ∧ (phWdesc holeBar.rcd = BitVec.ofNat 64 0) ∧ (locate (cancelled cancelsBar
    [holeStat]) (engineCtx holeBar.owner.part) (phBar holeBar.rcd) 16 16 Need.readWrite acceptsFar = Except.ok (Place.mem 131136 false, cancelled
    cancelsBar [holeStat])) ∧ (accessFault (cancelled cancelsBar [holeStat]) 0 (Place.mem 131136 false) 16 true = none) := by decide +kernel

theorem meets_CancelWake : (mboxOpen cancelsWake (slice (cancelsWake.me.getS 8#5) 0 12).toNat cancelsWake.me.part = true) ∧ ((sTokens cancelsWake.me 0#2 0#2).isSome = true) ∧ (cancelsWake.tests = []) ∧
    ((cancelsWake.mbox (slice (cancelsWake.me.getS 8#5) 0 12).toNat).holes = [] ++ holeWake :: [holeBar]) ∧ (slice (phStat holeWake.rcd) 0 52 = slice
    (cancelsWake.me.getS 0#5) 0 52) ∧ (phStat holeWake.rcd = BitVec.ofNat 64 0) ∧ (phBar holeWake.rcd = BitVec.ofNat 64 0) ∧ (phWdesc holeWake.rcd ≠
    BitVec.ofNat 64 0) ∧ (tensorAt (cancelled cancelsWake [holeBar]) holeWake.owner.part (phWdesc holeWake.rcd).toNat 64 Need.read = Except.ok (65536,
    false, cancelled cancelsWake [holeBar])) ∧ (bytesBv 512 (homeRead (cancelled cancelsWake [holeBar]) 65536 64) = tensorRec 0) ∧ (ctOk (tensorRec 0)
    = true) ∧ (ctNear (tensorRec 0) = false) ∧ (phWcell holeWake.rcd < ctCells (tensorRec 0)) ∧ (wakeSpace (cancelled cancelsWake [holeBar]) (dieOfPa
    65536) ≠ 0) := by decide +kernel

theorem meets_ArrivesClosed : (arrivesClosed.arg.arrival = Arrival.fabric 1#10 headerOf []) ∧ (hdType headerOf ≠ BitVec.ofNat 8 1) ∧ (headerOk
    headerOf = true) ∧ (arrivesClosed.power ≠ PowerState.p2) ∧ (2 = (slice (hdDstMa headerOf) 0 12).toNat) ∧ ((arrivesClosed.mbox 2).isOpen = false) ∧
    (1#10 ≠ arrivesClosed.self) := by decide +kernel

theorem meets_ArrivesNext : (arrivesNext.arg.arrival = Arrival.fabric 1#10 headerOf []) ∧ (hdType headerOf ≠ BitVec.ofNat 8 1) ∧ (headerOk headerOf =
    true) ∧ (arrivesNext.power ≠ PowerState.p2) ∧ (2 = (slice (hdDstMa headerOf) 0 12).toNat) ∧ ((arrivesNext.mbox 2).isOpen = true) ∧
    ((arrivesNext.part (arrivesNext.mbox 2).part).peerSet.getLsbD (BitVec.toNat 1#10) = true) ∧ (1#10 ≠ arrivesNext.self) ∧ ((arrivesNext.mbox
    2).pairs = [pairOf1 []]) ∧ ((pairOf1 []).srcma = hdSrcMa headerOf) ∧ ((pairOf1 []).sgen = hdSgen headerOf) ∧ ((pairOf1 []).held = []) ∧ ((pairOf1
    []).expected = hdSeq headerOf) ∧ ((arrivesNext.mbox 2).holes = [holeOf holeRec, holeNone]) ∧ (headerMatches headerOf (holeOf holeRec).rcd = true)
    ∧ (phKind (holeOf holeRec).rcd = BitVec.ofNat 2 0) ∧ (0 < recvLen (holeOf holeRec).rcd headerOf) ∧ (tagsUsed arrivesNext (2 % 6) < 4096) :=
  by decide +kernel

theorem meets_PullEnds : (pullEnds.arg.mb = 2) ∧ ((pullEnds.mbox 2).claims[pullEnds.arg.idx]? = some pulledWhole) ∧ (pulledWhole.st =
    ClaimState.pulling) ∧ (pulledWhole.msg.peer ≠ pullEnds.self) ∧ (pulledWhole.asked = true) ∧ (recvLen pulledWhole.hole.rcd pulledWhole.msg.hdr =
    pulledWhole.data.length + pulledWhole.due) ∧ (pullEnds.arg.data.length = pulledWhole.due) := by decide +kernel

theorem meets_PullShort : (pullShort.arg.mb = 2) ∧ ((pullShort.mbox 2).claims[pullShort.arg.idx]? = some pulledWhole) ∧ (pulledWhole.st =
    ClaimState.pulling) ∧ (pulledWhole.msg.peer ≠ pullShort.self) ∧ (pulledWhole.asked = true) ∧ (pullShort.arg.data.length < pulledWhole.due) :=
  by decide +kernel

theorem meets_GapEnds : (gapEnds.arg.mb = 2) ∧ (gapEnds.arg.idx = 0) ∧ ((gapEnds.mbox 2).pairs = [pairOf1 [messageOf headerOf]]) ∧ ((pairOf1
    [messageOf headerOf]).held = [messageOf headerOf]) ∧ ((pairOf1 [messageOf headerOf]).since + gapEnds.remto ≤ gapEnds.cycle) := by decide +kernel

theorem meets_PullFails : (pullFails.arg.mb = 2) ∧ ((pullFails.mbox 2).claims[pullFails.arg.idx]? = some pulledScratch) ∧ (pulledScratch.st =
    ClaimState.pulling) ∧ (pulledScratch.msg.peer ≠ pullFails.self) ∧ (phKind pulledScratch.hole.rcd ≠ BitVec.ofNat 2 0) ∧ (phStat
    pulledScratch.hole.rcd = BitVec.ofNat 64 0) ∧ (phBar pulledScratch.hole.rcd = BitVec.ofNat 64 0) ∧ (phWdesc pulledScratch.hole.rcd = BitVec.ofNat
    64 0) := by decide +kernel

theorem meets_CommitChanged : ((openedOf 0).n ≤ 512) ∧ (commitGroup (sweepTensor inRule.me (sweepOf SweepPhase.rule (some (openedOf 0)))) (openedOf 0)
    (regWords (inRule.me.getV 28)) (regWords (inRule.me.getV 29)) inRule = Except.ok committed) := by decide +kernel

theorem meets_CommitQuiet : (quietOf.n ≤ 512) ∧ (commitGroup (sweepTensor inRule.me (sweepOf SweepPhase.rule none)) quietOf (regWords (0 : VReg))
    (regWords (0 : VReg)) inRule = Except.ok committedQuiet) := by decide +kernel

theorem meets_PullFails_1 : (pullFails.arg.mb = 2) ∧ ((pullFails.mbox 2).claims[pullFails.arg.idx]? = some pulledScratch) ∧ (pulledScratch.st =
    ClaimState.pulling) ∧ (pulledScratch.msg.peer ≠ pullFails.self) ∧ (phKind pulledScratch.hole.rcd ≠ BitVec.ofNat 2 0) ∧ (phStat
    pulledScratch.hole.rcd = BitVec.ofNat 64 0) ∧ (phBar pulledScratch.hole.rcd = BitVec.ofNat 64 0) ∧ (phWdesc pulledScratch.hole.rcd = BitVec.ofNat
    64 0) := by decide +kernel

theorem meets_LandsNow : (landsNow.arg.mb = 2) ∧ ((landsNow.mbox 2).claims[landsNow.arg.idx]? = some landsSmall) ∧ (landsSmall.st =
    ClaimState.landing) ∧ (landsSmall.retry = false) ∧ (landsSmall.landed = none) ∧ (landsSmall.asked = false) ∧ (landsNow.tests = []) ∧ (phKind
    landsSmall.hole.rcd = BitVec.ofNat 2 0) ∧ (0 < 5) ∧ (recvLen landsSmall.hole.rcd landsSmall.msg.hdr = 5) ∧ (5 ≤ landsSmall.data.length) ∧
    (BitVec.toNat (phDest landsSmall.hole.rcd) % 32 + 5 ≤ 32) ∧ (locate landsNow (engineCtx landsSmall.hole.owner.part) (phDest landsSmall.hole.rcd) 5
    1 Need.write acceptsPlain = Except.ok (Place.mem 65595 false, landsNow)) ∧ (accessFault landsNow 0 (Place.mem 65595 false) 5 false = none) ∧
    (phStat landsSmall.hole.rcd = BitVec.ofNat 64 0) ∧ (phBar landsSmall.hole.rcd = BitVec.ofNat 64 0) ∧ (phWdesc landsSmall.hole.rcd = BitVec.ofNat
    64 0) := by decide +kernel

theorem meets_LandsRetry : landsRetry.arg.mb = 2 := by decide +kernel

theorem meets_SweepWake : (DescriptorForm sweeping.me (sweeping.me.getS 3#5) 0#2 0#2) ∧ (RecordAt sweeping (sweeping.me.getS 3#5) acceptsFar (tensorRec 0) sweeping) ∧
    (ctOk (tensorRec 0) = true) ∧ (ctNear (tensorRec 0) = false) ∧ (sweeping.me.out = []) ∧ (sweeping.me.handing = []) ∧ (descAt sweeping sweeping.me.part
    (BitVec.toNat (sweeping.me.getS 3#5)) 64 Need.read = Except.ok (Place.mem 65536 false, sweeping)) ∧ (ownMem sweeping (Place.mem 65536 false) =
    some (65536, false)) ∧ (0 < wakeSpace sweeping (dieOfPa 65536)) ∧
    (BitVec.toNat (sweeping.me.getS 10#5) < ctCells (tensorRec 0)) :=
  ⟨by unfold DescriptorForm; decide +kernel, ⟨0x10000, false, by decide +kernel⟩, by decide +kernel⟩

theorem meets_SweepWakeVector : (vGate sweeping.me { srcs := [sweeping.me.sewOp 1#5], dsts := [], reads := [], writes := [], kr := [BitVec.toNat 1#3], kw := [] } =
    VGate.go) ∧ (∀ j ∈ sweeping.me.lanes 1#3, sweeping.me.elem (sweeping.me.sewOp 1#5) j < ctCells (tensorRec 0)) ∧
    ((sweeping.me.lanes 1#3).length ≤ wakeSpace sweeping (dieOfPa 65536)) := by decide +kernel

theorem meets_SweepWakeVector_1 : (vGate sweeping.me { srcs := [sweeping.me.sewOp 10#5], dsts := [], reads := [], writes := [], kr := [BitVec.toNat 0#3], kw := [] } =
    VGate.go) ∧ (∀ j ∈ sweeping.me.lanes 0#3, sweeping.me.elem (sweeping.me.sewOp 10#5) j < ctCells (tensorRec 0)) ∧
    ((sweeping.me.lanes 0#3).length ≤ wakeSpace sweeping (dieOfPa 65536)) := by decide +kernel

theorem meets_SweepStarts : (DescriptorForm sweeping.me (sweeping.me.getS 3#5) 0#2 0#2) ∧ (RecordAt sweeping (sweeping.me.getS 3#5) acceptsFar (tensorRec 0) sweeping) ∧
    (ctOk (tensorRec 0) = true) ∧ (ctNear (tensorRec 0) = false) ∧ (sweeping.me.swAct = false) ∧ (BitVec.toNat (sweeping.me.getS 11#5) % 4 = 0) ∧
    (ctOwner (tensorRec 0) = BitVec.ofNat 64 0) ∧ (sweeping.me.claim = none) ∧ (descAt sweeping sweeping.me.part (BitVec.toNat (sweeping.me.getS 3#5))
    64 Need.readWrite = Except.ok (Place.mem 65536 false, sweeping)) :=
  ⟨by unfold DescriptorForm; decide +kernel, ⟨0x10000, false, by decide +kernel⟩, by decide +kernel⟩

theorem meets_SweepNext : ((sTokens inRule.me 0#2 0#2).isSome = true) ∧ (inRule.me.sweep = some (sweepOf SweepPhase.rule (some (openedOf 0)))) ∧
    ((sweepOf SweepPhase.rule (some (openedOf 0))).opened = some (openedOf 0)) ∧ (inRule.me.out = []) ∧ (inRule.me.vBusy 28 = false) ∧
    (inRule.me.vBusy 29 = false) ∧ (inRule.me.markTrap [28, 29] = none) ∧ (inRule.wakes = []) ∧ (inRule.tests = []) ∧ (commitGroup (sweepTensor
    inRule.me (sweepOf SweepPhase.rule (some (openedOf 0)))) (openedOf 0) (regWords (inRule.me.getV 28)) (regWords (inRule.me.getV 29)) inRule =
    Except.ok committed) ∧ (committed.wakes = []) := by decide +kernel

theorem meets_SweepPastLast : (pastLast.tests = []) ∧ (pastLast.ends = []) ∧ ((pastLast.strand pastLast.arg.slot).phase = Phase.running) ∧
    ((pastLast.strand pastLast.arg.slot).wait = Wait.sweep) ∧ ((pastLast.strand pastLast.arg.slot).out = []) ∧ ((pastLast.strand
    pastLast.arg.slot).sweep = some (sweepOf (SweepPhase.opening 1) none)) ∧ ((sweepOf (SweepPhase.opening 1) none).phase = SweepPhase.opening 1) ∧
    (pastLast.wakes = []) ∧ ((sweepTensor (pastLast.strand pastLast.arg.slot) (sweepOf (SweepPhase.opening 1) none)).groups ≤ 1) := by decide +kernel

theorem meets_SweepSkipsWaiting : (groupWaits.tests = []) ∧ (groupWaits.ends = []) ∧ ((groupWaits.strand groupWaits.arg.slot).phase = Phase.running) ∧
    ((groupWaits.strand groupWaits.arg.slot).wait = Wait.sweep) ∧ ((groupWaits.strand groupWaits.arg.slot).out = []) ∧ ((groupWaits.strand
    groupWaits.arg.slot).sweep = some (sweepOf (SweepPhase.opening 0) none)) ∧ ((sweepOf (SweepPhase.opening 0) none).phase = SweepPhase.opening 0) ∧
    (groupWaits.wakes = []) ∧ (0 < (sweepTensor (groupWaits.strand groupWaits.arg.slot) (sweepOf (SweepPhase.opening 0) none)).groups) ∧ (tensorAt
    groupWaits (groupWaits.strand groupWaits.arg.slot).part ((sweepTensor (groupWaits.strand groupWaits.arg.slot) (sweepOf (SweepPhase.opening 0)
    none)).codeVa 0) 1 Need.read = Except.ok (143360, false, groupWaits)) ∧ (codeOf (memByte groupWaits.mem 143360) 0 = BitVec.ofNat 2 0 ∨ codeOf
    (memByte groupWaits.mem 143360) 0 = BitVec.ofNat 2 3) := by decide +kernel

theorem meets_SweepSkipsHalted : (groupHalted.tests = []) ∧ (groupHalted.ends = []) ∧ ((groupHalted.strand groupHalted.arg.slot).phase =
    Phase.running) ∧ ((groupHalted.strand groupHalted.arg.slot).wait = Wait.sweep) ∧ ((groupHalted.strand groupHalted.arg.slot).out = []) ∧
    ((groupHalted.strand groupHalted.arg.slot).sweep = some (sweepOf (SweepPhase.opening 0) none)) ∧ ((sweepOf (SweepPhase.opening 0) none).phase =
    SweepPhase.opening 0) ∧ (groupHalted.wakes = []) ∧ (0 < (sweepTensor (groupHalted.strand groupHalted.arg.slot) (sweepOf (SweepPhase.opening 0)
    none)).groups) ∧ (tensorAt groupHalted (groupHalted.strand groupHalted.arg.slot).part ((sweepTensor (groupHalted.strand groupHalted.arg.slot)
    (sweepOf (SweepPhase.opening 0) none)).codeVa 0) 1 Need.read = Except.ok (143360, false, groupHalted)) ∧ (codeOf (memByte groupHalted.mem 143360)
    0 = BitVec.ofNat 2 0 ∨ codeOf (memByte groupHalted.mem 143360) 0 = BitVec.ofNat 2 3) := by decide +kernel

theorem meets_SweepFault : (skipFault.tests = []) ∧ (skipFault.ends = []) ∧ ((skipFault.strand skipFault.arg.slot).phase = Phase.running) ∧
    ((skipFault.strand skipFault.arg.slot).wait = Wait.sweep) ∧ ((skipFault.strand skipFault.arg.slot).out = []) ∧ ((skipFault.strand
    skipFault.arg.slot).sweep = some badSkip) ∧ (badSkip.phase = SweepPhase.opening 0) ∧ (skipFault.wakes = []) ∧ (0 < (sweepTensor (skipFault.strand
    skipFault.arg.slot) badSkip).groups) ∧ (tensorAt skipFault (skipFault.strand skipFault.arg.slot).part ((sweepTensor (skipFault.strand
    skipFault.arg.slot) badSkip).codeVa 0) 1 Need.read = Except.error
    { cls := FaultClass.trans, hyp := true, va := 0, mend := [], stack := none, held := false }) := by decide +kernel

theorem meets_SweepDelivers : (groupFound.tests = []) ∧ (groupFound.ends = []) ∧ ((groupFound.strand groupFound.arg.slot).phase = Phase.running) ∧
    ((groupFound.strand groupFound.arg.slot).wait = Wait.sweep) ∧ ((groupFound.strand groupFound.arg.slot).out = []) ∧ ((groupFound.strand
    groupFound.arg.slot).sweep = some (sweepOf (SweepPhase.opening 0) none)) ∧ ((sweepOf (SweepPhase.opening 0) none).phase = SweepPhase.opening 0) ∧
    (groupFound.wakes = []) ∧ (0 < (sweepTensor (groupFound.strand groupFound.arg.slot) (sweepOf (SweepPhase.opening 0) none)).groups) ∧ (tensorAt
    groupFound (groupFound.strand groupFound.arg.slot).part ((sweepTensor (groupFound.strand groupFound.arg.slot) (sweepOf (SweepPhase.opening 0)
    none)).codeVa 0) 1 Need.read = Except.ok (143360, false, groupFound)) ∧ (codeOf (memByte groupFound.mem 143360) 0 = BitVec.ofNat 2 1 ∨ codeOf
    (memByte groupFound.mem 143360) 0 = BitVec.ofNat 2 2) ∧ (tensorAt groupFound (groupFound.strand groupFound.arg.slot).part ((sweepTensor
    (groupFound.strand groupFound.arg.slot) (sweepOf (SweepPhase.opening 0) none)).cbase + 4096 * 0) (8 * (sweepTensor (groupFound.strand
    groupFound.arg.slot) (sweepOf (SweepPhase.opening 0) none)).size 0) Need.read = Except.ok (139264, false, groupFound)) ∧ (∃ i < (sweepTensor
    (groupFound.strand groupFound.arg.slot) (sweepOf (SweepPhase.opening 0) none)).size 0, (fun i => decide ((fun i => (slice ((fun i => bytesBv 32
    (memBytes groupFound.mem (139264 + 8 * i + 4) 4)) i) 24 4).toNat) i = 0) || decide ((fun i => (slice ((fun i => bytesBv 32 (memBytes
    groupFound.mem (139264 + 8 * i + 4) 4)) i) 24 4).toNat) i = 1) && decide ((fun i => (slice ((fun i => bytesBv 32 (memBytes groupFound.mem (139264
    + 8 * i + 4) 4)) i) 0 24).toNat) i ≤ 1)) i = true) := by decide +kernel

theorem meets_SweepSleeps : (groupSleeps.tests = []) ∧ (groupSleeps.ends = []) ∧ ((groupSleeps.strand groupSleeps.arg.slot).phase = Phase.running) ∧
    ((groupSleeps.strand groupSleeps.arg.slot).wait = Wait.sweep) ∧ ((groupSleeps.strand groupSleeps.arg.slot).out = []) ∧ ((groupSleeps.strand
    groupSleeps.arg.slot).sweep = some (sweepOf (SweepPhase.opening 0) none)) ∧ ((sweepOf (SweepPhase.opening 0) none).phase = SweepPhase.opening 0) ∧
    (groupSleeps.wakes = []) ∧ (0 < (sweepTensor (groupSleeps.strand groupSleeps.arg.slot) (sweepOf (SweepPhase.opening 0) none)).groups) ∧ (tensorAt
    groupSleeps (groupSleeps.strand groupSleeps.arg.slot).part ((sweepTensor (groupSleeps.strand groupSleeps.arg.slot) (sweepOf (SweepPhase.opening 0)
    none)).codeVa 0) 1 Need.read = Except.ok (143360, false, groupSleeps)) ∧ (codeOf (memByte groupSleeps.mem 143360) 0 = BitVec.ofNat 2 1 ∨ codeOf
    (memByte groupSleeps.mem 143360) 0 = BitVec.ofNat 2 2) ∧ (tensorAt groupSleeps (groupSleeps.strand groupSleeps.arg.slot).part ((sweepTensor
    (groupSleeps.strand groupSleeps.arg.slot) (sweepOf (SweepPhase.opening 0) none)).cbase + 4096 * 0) (8 * (sweepTensor (groupSleeps.strand
    groupSleeps.arg.slot) (sweepOf (SweepPhase.opening 0) none)).size 0) Need.read = Except.ok (139264, false, groupSleeps)) ∧ (∃ i < (sweepTensor
    (groupSleeps.strand groupSleeps.arg.slot) (sweepOf (SweepPhase.opening 0) none)).size 0, (fun i => decide ((fun i => (slice ((fun i => bytesBv 32
    (memBytes groupSleeps.mem (139264 + 8 * i + 4) 4)) i) 24 4).toNat) i = 0) || decide ((fun i => (slice ((fun i => bytesBv 32 (memBytes
    groupSleeps.mem (139264 + 8 * i + 4) 4)) i) 24 4).toNat) i = 1) && decide ((fun i => (slice ((fun i => bytesBv 32 (memBytes groupSleeps.mem
    (139264 + 8 * i + 4) 4)) i) 0 24).toNat) i ≤ 1)) i = true) := by decide +kernel

theorem meets_SweepOpensWaiting : (noneAwake.tests = []) ∧ (noneAwake.ends = []) ∧ ((noneAwake.strand noneAwake.arg.slot).phase = Phase.running) ∧
    ((noneAwake.strand noneAwake.arg.slot).wait = Wait.sweep) ∧ ((noneAwake.strand noneAwake.arg.slot).out = []) ∧ ((noneAwake.strand
    noneAwake.arg.slot).sweep = some (sweepOf (SweepPhase.opening 0) none)) ∧ ((sweepOf (SweepPhase.opening 0) none).phase = SweepPhase.opening 0) ∧
    (noneAwake.wakes = []) ∧ (0 < (sweepTensor (noneAwake.strand noneAwake.arg.slot) (sweepOf (SweepPhase.opening 0) none)).groups) ∧ (tensorAt
    noneAwake (noneAwake.strand noneAwake.arg.slot).part ((sweepTensor (noneAwake.strand noneAwake.arg.slot) (sweepOf (SweepPhase.opening 0)
    none)).codeVa 0) 1 Need.read = Except.ok (143360, false, noneAwake)) ∧ (codeOf (memByte noneAwake.mem 143360) 0 = BitVec.ofNat 2 1 ∨ codeOf
    (memByte noneAwake.mem 143360) 0 = BitVec.ofNat 2 2) ∧ (tensorAt noneAwake (noneAwake.strand noneAwake.arg.slot).part ((sweepTensor
    (noneAwake.strand noneAwake.arg.slot) (sweepOf (SweepPhase.opening 0) none)).cbase + 4096 * 0) (8 * (sweepTensor (noneAwake.strand
    noneAwake.arg.slot) (sweepOf (SweepPhase.opening 0) none)).size 0) Need.read = Except.ok (139264, false, noneAwake)) ∧ (∀ i < (sweepTensor
    (noneAwake.strand noneAwake.arg.slot) (sweepOf (SweepPhase.opening 0) none)).size 0, (fun i => decide ((fun i => (slice ((fun i => bytesBv 32
    (memBytes noneAwake.mem (139264 + 8 * i + 4) 4)) i) 24 4).toNat) i = 0) || decide ((fun i => (slice ((fun i => bytesBv 32 (memBytes noneAwake.mem
    (139264 + 8 * i + 4) 4)) i) 24 4).toNat) i = 1) && decide ((fun i => (slice ((fun i => bytesBv 32 (memBytes noneAwake.mem (139264 + 8 * i + 4) 4))
    i) 0 24).toNat) i ≤ 1)) i = false) := by decide +kernel

theorem meets_SweepCloses : (closingOf.tests = []) ∧ (closingOf.ends = []) ∧ ((closingOf.strand closingOf.arg.slot).phase = Phase.running) ∧
    ((closingOf.strand closingOf.arg.slot).wait = Wait.sweep) ∧ ((closingOf.strand closingOf.arg.slot).out = []) ∧ ((closingOf.strand
    closingOf.arg.slot).sweep = some (sweepOf SweepPhase.closing (some (openedOf 0)))) ∧ ((sweepOf SweepPhase.closing (some (openedOf 0))).phase =
    SweepPhase.closing) ∧ ((sweepOf SweepPhase.closing (some (openedOf 0))).opened = some (openedOf 0)) ∧ (closingOf.wakes = []) ∧ (commitGroup
    (sweepTensor (closingOf.strand closingOf.arg.slot) (sweepOf SweepPhase.closing (some (openedOf 0)))) (openedOf 0) [] [] closingOf = Except.ok
    closed) := by decide +kernel

theorem meets_WakeApplied : (wakes.tests = []) ∧ (wakes.ends = []) ∧ (wakes.arg.num = 0) ∧ (wakes.wakes = [wakeOf]) ∧ (wakeOf.held = false) ∧
    (groupOpen wakes wakeOf.home (wakeOf.cell / 512) = false) ∧ (wakeOf.whole = false) ∧ (wakeOf.event = none) ∧ (tensorAt { wakes with wakes := [] }
    wakeOf.part ((wakeTensor wakeOf).cbase + 8 * wakeOf.cell + 4) 4 Need.readWrite = Except.ok (139284, false, wakesNone)) ∧ (1 ≤ ctxW (bytesBv 32
    (memBytes wakesNone.mem 139284 4))) ∧ (ctxW (bytesBv 32 (memBytes wakesNone.mem 139284 4)) ≤ 3) ∧ (tensorAt wakesNone wakeOf.part ((wakeTensor
    wakeOf).codeVa (wakeOf.cell / 512)) 1 Need.readWrite = Except.ok (143360, false, wakesNone)) ∧ (memByte wakesNone.mem 143360 = memByte
    wakesNone.mem 143360) ∧ (codeOf (memByte wakesNone.mem 143360) (wakeOf.cell / 512) ≠ BitVec.ofNat 2 3) ∧ (143360 < 139284 ∨ 139284 + 4 ≤ 143360) :=
  by decide +kernel

theorem meets_WakeHeld : (wakeHeld.tests = []) ∧ (wakeHeld.ends = []) ∧ (wakeHeld.arg.num = 0) ∧ (wakeHeld.wakes = [wakeOf]) ∧ (wakeOf.held = false) ∧
    (groupOpen wakeHeld wakeOf.home (wakeOf.cell / 512) = true) := by decide +kernel

theorem meets_PassEnds : (passEnds.tests = []) ∧ (passEnds.ends = []) ∧ (passEnds.passes[passEnds.arg.num]? = some (passOf3 2)) ∧ (tensorOf3.groups ≤
    (passOf3 2).next) ∧ ((passOf3 2).far = none) := by decide +kernel

theorem meets_PassFarEnds : (passFarEnds.tests = []) ∧ (passFarEnds.ends = []) ∧ (passFarEnds.passes[passFarEnds.arg.num]? = some
    { (passOf3 2) with far := some 5#10 }) ∧ (tensorOf3.groups ≤ { (passOf3 2) with far := some 5#10 }.next) ∧
    ({ (passOf3 2) with far := some 5#10 }.far = some 5#10) ∧ (passFarEnds.wakes = []) ∧ (passFarEnds.passes =
    [{ (passOf3 2) with far := some 5#10 }]) := by decide +kernel

theorem meets_PassHeld : (wakeHeld.tests = []) ∧ (wakeHeld.ends = []) ∧ (wakeHeld.passes[wakeHeld.arg.num]? = some (passOf3 0)) ∧ ((passOf3 0).next <
    tensorOf3.groups) ∧ (groupOpen wakeHeld (passOf3 0).home (passOf3 0).next = true) ∧ (wakeSpace wakeHeld (passOf3 0).die ≠ 0) := by decide +kernel

theorem meets_PassFarHeld : (passFarHeld.tests = []) ∧ (passFarHeld.ends = []) ∧ (passFarHeld.passes[passFarHeld.arg.num]? = some
    { (passOf3 0) with far := some 5#10 }) ∧ ({ (passOf3 0) with far := some 5#10 }.next < tensorOf3.groups) ∧ (groupOpen passFarHeld
    { (passOf3 0) with far := some 5#10 }.home { (passOf3 0) with far := some 5#10 }.next = true) ∧ (wakeSpace passFarHeld
    { (passOf3 0) with far := some 5#10 }.die ≠ 0) := by decide +kernel

theorem meets_PassNone : (passNext.tests = []) ∧ (passNext.ends = []) ∧ (passNext.passes[passNext.arg.num]? = some (passOf3 1)) ∧ ((passOf3 1).next <
    tensorOf3.groups) ∧ (groupOpen passNext (passOf3 1).home (passOf3 1).next = false) ∧ (tensorAt
    { passNext with passes := setNth passNext.passes passNext.arg.num { (passOf3 1) with next := (passOf3 1).next + 1 } } (passOf3 1).part
    (tensorOf3.codeVa (passOf3 1).next) 1 Need.read = Except.ok (143360, false, passNexted)) ∧ (codeOf (memByte passNexted.mem 143360) (passOf3
    1).next = BitVec.ofNat 2 3) := by decide +kernel

theorem meets_PassWakes : (passWakes.tests = []) ∧ (passWakes.ends = []) ∧ (passWakes.passes[passWakes.arg.num]? = some (passOf3 1)) ∧ ((passOf3
    1).next < tensorOf3.groups) ∧ (groupOpen passWakes (passOf3 1).home (passOf3 1).next = false) ∧ (tensorAt
    { passWakes with passes := setNth passWakes.passes passWakes.arg.num { (passOf3 1) with next := (passOf3 1).next + 1 } } (passOf3 1).part
    (tensorOf3.codeVa (passOf3 1).next) 1 Need.read = Except.ok (143360, false, passWoken)) ∧ (codeOf (memByte passWoken.mem 143360) (passOf3 1).next
    ≠ BitVec.ofNat 2 3) := by decide +kernel

theorem meets_CellWoken : (wakes.tests = []) ∧ (wakes.ends = []) ∧ (tensorAt wakes tensorOf3.part (tensorOf3.cbase + 8 * 2 + 4) 4 Need.readWrite =
    Except.ok (139284, false, wakes)) ∧ (1 ≤ (slice (bytesBv 32 (memBytes wakes.mem 139284 4)) 24 4).toNat ∧ (slice (bytesBv 32 (memBytes wakes.mem
    139284 4)) 24 4).toNat ≤ 3 ∧ ∀ (y : BitVec 24), none = some y → (slice (bytesBv 32 (memBytes wakes.mem 139284 4)) 24 4).toNat = 3 ∧ slice (bytesBv
    32 (memBytes wakes.mem 139284 4)) 0 24 = y) ∧ (tensorAt wakes tensorOf3.part (tensorOf3.codeVa (2 / 512 : ℕ)) 1 Need.readWrite = Except.ok
    (143360, false, wakes)) ∧ (143360 < 139284 ∨ 139284 + 4 ≤ 143360) :=
  ⟨by decide +kernel, by decide +kernel, by decide +kernel, ⟨by decide +kernel, by decide +kernel, nofun⟩, by decide +kernel⟩

theorem meets_CellLeft : (passWakes.tests = []) ∧ (passWakes.ends = []) ∧ (tensorAt passWakes tensorOf3.part (tensorOf3.cbase + 8 * 2 + 4) 4
    Need.readWrite = Except.ok (139284, false, passWakes)) ∧ (¬(1 ≤ (slice (bytesBv 32 (memBytes passWakes.mem 139284 4)) 24 4).toNat ∧ (slice
    (bytesBv 32 (memBytes passWakes.mem 139284 4)) 24 4).toNat ≤ 3 ∧ ∀ (y : BitVec 24), none = some y → (slice (bytesBv 32 (memBytes passWakes.mem
    139284 4)) 24 4).toNat = 3 ∧ slice (bytesBv 32 (memBytes passWakes.mem 139284 4)) 0 24 = y)) :=
  ⟨by decide +kernel, by decide +kernel, by decide +kernel, fun h => absurd h.1 (by decide +kernel)⟩

theorem meets_CellEvent : (cellWaits.tests = []) ∧ (cellWaits.ends = []) ∧ (tensorAt cellWaits tensorOf3.part (tensorOf3.cbase + 8 * 2 + 4) 4
    Need.readWrite = Except.ok (139284, false, cellWaits)) ∧ (1 ≤ (slice (bytesBv 32 (memBytes cellWaits.mem 139284 4)) 24 4).toNat ∧ (slice (bytesBv
    32 (memBytes cellWaits.mem 139284 4)) 24 4).toNat ≤ 3 ∧ ∀ (y : BitVec 24), some 9#24 = some y → (slice (bytesBv 32 (memBytes cellWaits.mem 139284
    4)) 24 4).toNat = 3 ∧ slice (bytesBv 32 (memBytes cellWaits.mem 139284 4)) 0 24 = y) ∧ (tensorAt cellWaits tensorOf3.part (tensorOf3.codeVa (2 /
    512 : ℕ)) 1 Need.readWrite = Except.ok (143360, false, cellWaits)) ∧ (143360 < 139284 ∨ 139284 + 4 ≤ 143360) :=
  ⟨by decide +kernel, by decide +kernel, by decide +kernel, ⟨by decide +kernel, by decide +kernel, fun y h => by cases h; decide +kernel⟩, by decide +kernel⟩

theorem meets_CellOther : (cellWaits.tests = []) ∧ (cellWaits.ends = []) ∧ (tensorAt cellWaits tensorOf3.part (tensorOf3.cbase + 8 * 2 + 4) 4
    Need.readWrite = Except.ok (139284, false, cellWaits)) ∧ (¬(1 ≤ (slice (bytesBv 32 (memBytes cellWaits.mem 139284 4)) 24 4).toNat ∧ (slice
    (bytesBv 32 (memBytes cellWaits.mem 139284 4)) 24 4).toNat ≤ 3 ∧ ∀ (y : BitVec 24), some 8#24 = some y → (slice (bytesBv 32 (memBytes
    cellWaits.mem 139284 4)) 24 4).toNat = 3 ∧ slice (bytesBv 32 (memBytes cellWaits.mem 139284 4)) 0 24 = y)) :=
  ⟨by decide +kernel, by decide +kernel, by decide +kernel, fun h => absurd (h.2.2 _ rfl).2 (by decide +kernel)⟩

theorem meets_PassFull : (passFull.tests = []) ∧ (passFull.ends = []) ∧ (passFull.passes[passFull.arg.num]? = some (passOf3 0)) ∧ ((passOf3 0).next <
    tensorOf3.groups) ∧ (groupOpen passFull (passOf3 0).home (passOf3 0).next = true) ∧ (wakeSpace passFull (passOf3 0).die = 0) := by decide +kernel

theorem meets_Forks : (BitVec.toNat (forking.me.getS 3#5) % 64 = 0) ∧ (RecordAt forking (forking.me.getS 3#5) acceptsPlain (gangRec 2 0) forking) ∧
    (recordOk (gangRec 2 0) = true) ∧ (recordFits (forking.part forking.me.part) (gangRec 2 0) = true) ∧ (quotaFits (forking.part forking.me.part)
    (gangRec 2 0) = true) ∧ (recJoin (gangRec 2 0) = BitVec.ofNat 52 0) ∧ (knownPrio forking forking.me.part 0 = none) ∧ (joinAsked forking
    forking.me.part 0 = false) ∧ (relReady forking.me forking.cur (some Scope.package) = true) ∧ (ringRoom (forking.part forking.me.part) (max
    (BitVec.toNat 2#2) (effective forking forking.me.part forking.me.rcd (recPrio forking.me.rcd).toNat)) = true) ∧ (max (BitVec.toNat 2#2) (effective
    forking forking.me.part forking.me.rcd (recPrio forking.me.rcd).toNat) < (forking.part forking.me.part).tails.length) :=
  ⟨by decide +kernel, ⟨0x10000, false, by decide +kernel⟩, by decide +kernel⟩

theorem meets_ForksJoin : (BitVec.toNat (forksJoin.me.getS 3#5) % 64 = 0) ∧ (RecordAt forksJoin (forksJoin.me.getS 3#5) acceptsPlain (gangRec 2 65664)
    forksJoin) ∧ (forksJoin.me.restart = 0) ∧ (recordOk (gangRec 2 65664) = true) ∧ (recordFits (forksJoin.part forksJoin.me.part) (gangRec 2 65664) =
    true) ∧ (quotaFits (forksJoin.part forksJoin.me.part) (gangRec 2 65664) = true) ∧ (recJoin (gangRec 2 65664) ≠ BitVec.ofNat 52 0) ∧ (inNear
    (recJoin (gangRec 2 65664)).toNat = false) ∧ (Machine.joinAt forksJoin forksJoin.me.part (recJoin (gangRec 2 65664)).toNat = (JoinAt.here 1#2,
    forksJoin)) ∧ (joinAsked forksJoin forksJoin.me.part (recJoin (gangRec 2 65664)).toNat = false) ∧ (relReady forksJoin.me forksJoin.cur (some
    Scope.package) = true) ∧ (ringRoom (forksJoin.part forksJoin.me.part) (min (max (BitVec.toNat 2#2) (effective (setPrio forksJoin forksJoin.me.part
    (recJoin (gangRec 2 65664)).toNat 1#2) forksJoin.me.part forksJoin.me.rcd (recPrio forksJoin.me.rcd).toNat)) (BitVec.toNat 1#2)) = true) ∧ (min
    (max (BitVec.toNat 2#2) (effective (setPrio forksJoin forksJoin.me.part (recJoin (gangRec 2 65664)).toNat 1#2) forksJoin.me.part forksJoin.me.rcd
    (recPrio forksJoin.me.rcd).toNat)) (BitVec.toNat 1#2) < (forksJoin.part forksJoin.me.part).tails.length) :=
  ⟨by decide +kernel, ⟨0x10000, false, by decide +kernel⟩, by decide +kernel⟩

theorem meets_RemoteReducePeer : (fwOk (farPage.me.getS 24#5) = true) ∧ (isSourceCode (fwFA (farPage.me.getS 24#5)) = true) ∧ (fwFD (farPage.me.getS
    24#5) = BitVec.ofNat 8 1) ∧ (farPage.me.grouped
    { reg := BitVec.toNat 2#5, w := (codeWidth (fwFA (farPage.me.getS 24#5))).getD farPage.me.sewBits } = true) ∧ (slotGate farPage.me 0#3 2#3 =
    SlotWait.ready) ∧ (vGate farPage.me
    { srcs := [{ reg := BitVec.toNat 2#5, w := (codeWidth (fwFA (farPage.me.getS 24#5))).getD farPage.me.sewBits }], dsts := [], reads := scaleReads (fwFA (farPage.me.getS 24#5)) (fwZA (farPage.me.getS 24#5)), writes := [], kr := [BitVec.toNat 1#3], kw := [] }
    = VGate.go) ∧ (checkElems farPage.cur 4 Need.readWrite acceptsFar farPage (List.map (fun i => (i, farPage.me.getS 3#5 + BitVec.ofNat 64 (4 * i)))
    (farPage.me.todo 1#3)) = ([farAt 0 (65536 : Word), farAt 2 (65544 : Word)], none, farPage)) ∧ (5#10 ≠ farPage.self) ∧ (∀ x ∈ [farAt 0 (65536 :
    Word), farAt 2 (65544 : Word)], x.place = Place.remote 5#10 ((fun x => (placeKey x.place).2) x) ∧ 4398046511104 ≤ (fun x => (placeKey x.place).2)
    x) ∧ (∃ x ∈ [farAt 0 (65536 : Word), farAt 2 (65544 : Word)], (fun x => (placeKey x.place).2) x = 4398046511104) ∧ (tagsUsed farPage (dieOf
    (coreOf farPage.cur)) < 4096) := by decide +kernel

theorem meets_ExitsFirst : (exitsFirst.tests = []) ∧ (exitsFirst.me.sbPend &&& BitVec.ofNat 8 254 = BitVec.ofNat 8 0) ∧ (exitsFirst.me.sbErr &&& BitVec.ofNat 8 254 =
    BitVec.ofNat 8 0) ∧ (exitsFirst.me.out = []) ∧ (exitsFirst.me.mq = []) ∧ (exitsFirst.me.sendq = []) ∧ (exitsFirst.me.cq = []) ∧
    (exitsFirst.me.deferred = none) ∧ (exitsFirst.me.sweep = none) ∧ (exitsFirst.sends = []) ∧ (exitsFirst.copies = []) ∧ (exitsFirst.mailboxes = [])
    ∧ (exitsFirst.ends = []) ∧ (exitsFirst.gang? exitsFirst.me.part exitsFirst.me.gang = some (gangAt 2 [] none false)) ∧ (exitsFirst.me.rank <
    (gangAt 2 [] none false).slots.length) := by decide +kernel

theorem meets_ExitsLast : (exitsLast.tests = []) ∧ (exitsLast.me.sbPend &&& BitVec.ofNat 8 254 = BitVec.ofNat 8 0) ∧ (exitsLast.me.sbErr &&& BitVec.ofNat 8 254 = BitVec.ofNat
    8 0) ∧ (exitsLast.me.out = []) ∧ (exitsLast.me.mq = []) ∧ (exitsLast.me.sendq = []) ∧ (exitsLast.me.cq = []) ∧ (exitsLast.me.deferred = none) ∧
    (exitsLast.me.sweep = none) ∧ (exitsLast.sends = []) ∧ (exitsLast.copies = []) ∧ (exitsLast.mailboxes = []) ∧ (exitsLast.ends = []) ∧
    (exitsLast.gang? exitsLast.me.part exitsLast.me.gang = some (gangAt 2 [1] none false)) ∧ (exitsLast.me.rank < (gangAt 2 [1] none
    false).slots.length) := by decide +kernel

theorem meets_Starts : (starting.arg.p = 0#6) ∧ (starting.powerHold = false) ∧ (starting.power = PowerState.p0) ∧ ((starting.part 0#6).active = true) ∧
    (moveDue starting 0#6 = false) ∧ (startable starting 0#6 = some (2, gangRec 2 0, [0])) ∧ (outbid starting 0#6 2 [0] = false) ∧ (recSaved (gangRec 2 0) = false) ∧
    (List.Nodup [0]) ∧ (2 < (starting.part 0#6).heads.length) := by decide +kernel

theorem meets_StartsTwo : (startsTwo.arg.p = 0#6) ∧ (startsTwo.powerHold = false) ∧ (startsTwo.power = PowerState.p0) ∧ ((startsTwo.part 0#6).active = true) ∧
    (moveDue startsTwo 0#6 = false) ∧ (startable startsTwo 0#6 = some (2, scratchRec 2, [0, 4])) ∧ (outbid startsTwo 0#6 2 [0, 4] = false) ∧ (recSaved (scratchRec 2) = false) ∧
    (List.Nodup [0, 4]) ∧ (2 < (startsTwo.part 0#6).heads.length) := by decide +kernel

theorem meets_StartsScratch : (startsScratch.arg.p = 0#6) ∧ (startsScratch.powerHold = false) ∧ (startsScratch.power = PowerState.p0) ∧ ((startsScratch.part 0#6).active = true) ∧
    (moveDue startsScratch 0#6 = false) ∧ (startable startsScratch 0#6 = some (2, scratchRec 1, [0])) ∧ (outbid startsScratch 0#6 2 [0] = false) ∧ (recSaved (scratchRec 1) = false) ∧
    (List.Nodup [0]) ∧ (2 < (startsScratch.part 0#6).heads.length) ∧
    ((recFq (scratchRec 1)).toNat + (recSf (scratchRec 1)).toNat ≤ (limOn startsScratch (coreOf 0) 0#6).toNat) ∧
    ((recSf (scratchRec 1)).toNat ≤ ((List.range 256).filter (frameFree startsScratch (coreOf 0))).length) := by decide +kernel

theorem meets_Halts : (halting.gang? halting.arg.p halting.arg.area = some haltGang) ∧ (haltGang.slots = [some 0]) ∧ (haltGang.preempt.isSome = true)
    ∧ (haltGang.saving = false) ∧ ((halting.strand 0).out = []) := by decide +kernel

theorem meets_Saves : (saving.gang? saving.arg.p saving.arg.area = some saveGang) ∧ (saveGang.slots = [some 0]) ∧ (saveGang.saving = true) ∧
    (saveReady saving 0 = true) ∧ (saving.joins = []) ∧ (recJoin saveGang.rcd = BitVec.ofNat 52 0) ∧ ((saving.strand 0).sf = BitVec.ofNat 9 0) ∧ (∀ e
    ∈ (saving.strand 0).map, e.2.state ≠ BitVec.ofNat 3 4) ∧ ((recPrio saveGang.rcd).toNat < (saving.part saveGang.part).heads.length) :=
  by decide +kernel

theorem meets_MoveDue : (moveDueAt.arg.p = 0#6) ∧ (moveDueAt.arg.flag = false) ∧ (dueMove moveDueAt 0#6 moveDueAt.arg.area = some (2, 1, 1)) ∧
    ((moveDueAt.part 0#6).tails.length = 4) ∧ (∀ j < (moveDueAt.part 0#6).count 2, ringFault moveDueAt (moveDueAt.part 0#6) 2 j = none) :=
  by decide +kernel

theorem meets_HeldEnqueued : (holding.arg.idx = 0) ∧ (holding.heldRecs = [(0#6, 2#2, gangRec 1 0)]) ∧ (recJoin (gangRec 1 0) = BitVec.ofNat 52 0) ∧
    (ringRoom (holding.part 0#6) (BitVec.toNat 2#2) = true) ∧ (BitVec.toNat 2#2 < (holding.part 0#6).tails.length) := by decide +kernel

theorem meets_LaunchEnds : (launchEnds.arg.p = 0#6) ∧ (BitVec.setWidth 32 launchEnds.arg.a0 = 7#32) ∧ (∀ l < 4, (launchEnds.part 0#6).count l = 0) ∧
    (launchEnds.heldRecs = []) ∧ (launchEnds.gangs = [gangAt 1 [] none false]) ∧ ((gangAt 1 [] none false).part = 0#6) ∧ (recLid (gangAt 1 [] none
    false).rcd = 7#32) ∧ ((gangAt 1 [] none false).slots = [some 0]) ∧ ((launchEnds.strand 0).phase = Phase.parked) ∧ ((launchEnds.strand 0).reported
    = true) ∧ (Option.any (mayEnd (launchEnds.part 0#6)) (launchEnds.strand 0).fault = true) ∧ ((gangAt 1 [] none false).images = []) ∧
    ((launchEnds.strand 0).out = []) ∧ ((launchEnds.strand 0).sweep = none) ∧ (launchEnds.mailboxes = []) := by decide +kernel

theorem meets_TestPasses : (testPasses.tests[testPasses.arg.idx]? = some (EccTarget.scalar 0 31, false, 0)) ∧ (testPasses.arg.flag = false) :=
  by decide +kernel

theorem meets_TestFails : (testFails.tests[testFails.arg.idx]? = some (EccTarget.scalar 0 31, false, 0)) ∧ (testFails.arg.flag = true) ∧
    (EccTarget.scalar 0 31 = EccTarget.scalar 0 31) := by decide +kernel

theorem meets_TestFrame : (testFrame.tests[testFrame.arg.idx]? = some (EccTarget.msm 287 255 0, false, 0)) ∧ (testFrame.arg.flag = true) ∧
    (EccTarget.msm 287 255 0 = EccTarget.msm 287 255 0) ∧ (frameBusy testFrame 287 255 = false) ∧ (scratchOwner testFrame 287 255 = none) ∧ (tabHas
    testFrame.frames (287 * 256 + 255) = false) := by decide +kernel

theorem meets_Watchdog : ((timedOut.strand timedOut.arg.slot).phase = Phase.running) ∧ ((timedOut.strand timedOut.arg.slot).wdlim ≠ BitVec.ofNat 64 0)
    ∧ (BitVec.toNat (timedOut.strand timedOut.arg.slot).wdlim ≤ BitVec.toNat (timedOut.strand timedOut.arg.slot).runtk) ∧ ((timedOut.strand
    timedOut.arg.slot).out = []) := by decide +kernel

theorem meets_RecordAppended : ((parkedPerm.strand parkedPerm.arg.slot).fault = some (recordFor FaultClass.perm 0#32 false)) ∧ ((parkedPerm.strand
    parkedPerm.arg.slot).reported = false) ∧ (parkedPerm.arg.slot ≠ 1152) ∧ ((recordFor FaultClass.perm 0#32 false).hyp = false) ∧ ((parkedPerm.part
    (parkedPerm.strand parkedPerm.arg.slot).part).faults.length < 2 ^ ((parkedPerm.part (parkedPerm.strand parkedPerm.arg.slot).part).faultLog + 8)) :=
  by decide +kernel

theorem meets_RecordHyp : ((parkedHyp.strand parkedHyp.arg.slot).fault = some (recordFor FaultClass.perm 0#32 true)) ∧ ((parkedHyp.strand
    parkedHyp.arg.slot).reported = false) ∧ (parkedHyp.arg.slot ≠ 1152) ∧ ((recordFor FaultClass.perm 0#32 true).hyp = true) := by decide +kernel

theorem meets_ResumeTrap : ((parkedTrap.strand parkedTrap.arg.slot).fault = some (recordFor FaultClass.trap 255#32 false)) ∧ ((parkedTrap.strand
    parkedTrap.arg.slot).reported = true) ∧ ((parkedTrap.strand parkedTrap.arg.slot).phase = Phase.parked) ∧ ((recordFor FaultClass.trap 255#32
    false).cls = FaultClass.trap) ∧ ((recordFor FaultClass.trap 255#32 false).index.toNat ≤ 255) ∧ ((recordFor FaultClass.trap 255#32 false).index ≠
    BitVec.ofNat 32 1) ∧ ((recordFor FaultClass.trap 255#32 false).index ≠ BitVec.ofNat 32 2) := by decide +kernel

theorem meets_ResumePolicy : ((parkedTimeout.strand parkedTimeout.arg.slot).fault = some (recordFor FaultClass.remoteTimeout 7#32 false)) ∧
    ((parkedTimeout.strand parkedTimeout.arg.slot).reported = true) ∧ ((parkedTimeout.strand parkedTimeout.arg.slot).phase = Phase.parked) ∧
    ((recordFor FaultClass.remoteTimeout 7#32 false).cls ≠ FaultClass.trap) ∧ ((recordFor FaultClass.remoteTimeout 7#32 false).cls ≠ FaultClass.bkpt)
    ∧ ((recordFor FaultClass.remoteTimeout 7#32 false).cls ≠ FaultClass.scan) ∧ (policyOf (parkedTimeout.part (parkedTimeout.strand
    parkedTimeout.arg.slot).part) (recordFor FaultClass.remoteTimeout 7#32 false).cls ≠ 0) := by decide +kernel

theorem meets_ResumeRestores : (parkedTrap.strand 0).fault = some (recordFor FaultClass.trap 255#32 false) := by decide +kernel

theorem meets_ThermalLimit : lastCore.arg.num < 288 := by decide +kernel

theorem meets_StackHot : (hotStack.arg.num < 12) ∧ (hotStack.arg.idx < 4) ∧ (slice hotStack.hbmth (2 * hotStack.arg.num) 2 = BitVec.ofNat 2 3) :=
  by decide +kernel

theorem meets_StackCool : (coolStack.arg.num < 12) ∧ (coolStack.arg.idx < 4) ∧ (slice coolStack.hbmth (2 * coolStack.arg.num) 2 ≠ BitVec.ofNat 2 3) :=
  by decide +kernel

theorem meets_EccScalar : (eccScalar.arg.ecc = EccTarget.scalar 0 31) ∧ ((eccScalar.strand 0).phase ≠ Phase.free) ∧ (0 < 31) ∧ (31 < 32) :=
  by decide +kernel

theorem meets_EccHbm : (eccHbm.arg.ecc = EccTarget.hbm 618475290623) ∧ (618475290623 < 618475290624) ∧ ((618475290623 / 32 : ℕ) / 64 ∉
    eccHbm.deadGroups) := by decide +kernel

theorem meets_PowerHigh : (powerHigh.gangs = [boundGang 2]) ∧ ((boundGang 2).bound ≠ []) ∧ ((boundGang 2).saving = false) ∧ (powerHigh.capWatts <
    powerHigh.arg.mb ∨ 100 < powerHigh.arg.num) ∧ (powerHigh.throttleTick + 1500 ≤ powerHigh.cycle) ∧ ((boundGang 2).throttle < 3) :=
  by decide +kernel

theorem meets_PowerHigh_1 : (powerHigh.gangs = [boundGang 2]) ∧ ((boundGang 2).bound ≠ []) ∧ ((boundGang 2).saving = false) ∧ ((boundGang 2).throttle
    ≠ 3) := by decide +kernel

theorem meets_PowerSoon : (powerSoon.gangs = [boundGang 2]) ∧ ((boundGang 2).bound ≠ []) ∧ ((boundGang 2).saving = false) ∧ (powerSoon.cycle <
    powerSoon.throttleTick + 1500) := by decide +kernel

theorem meets_PowerSoon_1 : (powerSoon.gangs = [boundGang 2]) ∧ ((boundGang 2).bound ≠ []) ∧ ((boundGang 2).saving = false) ∧ ((boundGang 2).throttle
    ≠ 3) := by decide +kernel

theorem meets_PowerLow : (powerLow.gangs = [boundGang 1]) ∧ ((boundGang 1).bound ≠ []) ∧ ((boundGang 1).saving = false) ∧ (100 * powerLow.arg.mb < 95
    * powerLow.capWatts) ∧ (powerLow.arg.num < 95) ∧ (0 < (boundGang 1).throttle) := by decide +kernel

theorem meets_PowerLow_1 : (powerLow.gangs = [boundGang 1]) ∧ ((boundGang 1).bound ≠ []) ∧ ((boundGang 1).saving = false) ∧ ((boundGang 1).throttle ≠
    3) := by decide +kernel

theorem meets_TooHot : (tooHot.gangs = [boundGang 3]) ∧ ((boundGang 3).bound ≠ []) ∧ ((boundGang 3).saving = false) ∧ (110 ≤ tooHot.arg.num ∨ ∃ since,
    tooHot.overSince = some since ∧ since + 15000000 ≤ tooHot.cycle ∧ tooHot.capWatts < tooHot.arg.mb) ∧ ((boundGang 3).throttle = 3) ∧ ((boundGang
    3).preempt = none) := by decide +kernel

theorem meets_TooLong : (tooLong.gangs = [boundGang 3]) ∧ ((boundGang 3).bound ≠ []) ∧ ((boundGang 3).saving = false) ∧ (110 ≤ tooLong.arg.num ∨ ∃
    since, tooLong.overSince = some since ∧ since + 15000000 ≤ tooLong.cycle ∧ tooLong.capWatts < tooLong.arg.mb) ∧ ((boundGang 3).throttle = 3) ∧
    ((boundGang 3).preempt = none) := by decide +kernel

theorem meets_WaitDone : ((waitDone.part waitDone.arg.p).active = true) ∧ (waitCount waitDone waitDone.arg.p waitDone.arg.a0 = (Except.ok
    (BitVec.ofNat 32 0), waitDone)) ∧ (waitDone.arg.flag = false) := by decide +kernel

theorem meets_WaitLong : ((waitLong.part waitLong.arg.p).active = true) ∧ (waitCount waitLong waitLong.arg.p waitLong.arg.a0 = (Except.ok
    4294967295#32, waitLong)) ∧ (4294967295#32 ≠ BitVec.ofNat 32 0) ∧ (waitLong.arg.flag = false) := by decide +kernel

theorem meets_AttestCall : ((attestCall.part attestCall.arg.p).active = true) ∧ (attestCall.needsProvision = false) ∧ (attestCall.keysGone = false) ∧
    (attestCall.images = [imageOf1 none]) ∧ ((imageOf1 none).handle = attestCall.arg.num) ∧ ((imageOf1 none).part = attestCall.arg.p) ∧ (ylRead
    attestCall.arg.p 2 (BitVec.toNat attestCall.arg.a0) 32 attestCall = Except.ok (memBytes attestCall.mem 65536 32, attestCall)) := by decide +kernel

theorem meets_Launching : ((launching.part launching.arg.p).active = true) ∧ (launching.arg.flag = false) ∧ (BitVec.toNat launching.arg.a0 % 64 = 0) ∧
    (ylRead launching.arg.p 2 (BitVec.toNat launching.arg.a0) 128 launching = Except.ok (memBytes launching.mem 65536 128, launching)) ∧ (launchRec =
    bytesBv 1024 (memBytes launching.mem 65536 128)) ∧ (launchOk (launching.part launching.arg.p) launchRec = true) ∧ (lrGangs launchRec = 1) ∧
    (lrJoin launchRec = BitVec.ofNat 64 0) ∧ ((launching.part launching.arg.p).launches = []) ∧ (launching.joins = []) ∧ (launching.arg.num < 65536) ∧
    (ringRoom (launching.part launching.arg.p) (lrPrio launchRec).toNat = true) ∧ ((lrPrio launchRec).toNat < (launching.part
    launching.arg.p).tails.length) := by decide +kernel

theorem meets_CapLow : (1500 ≤ capLow.arg.mb) ∧ (capLow.arg.mb ≤ 4400) := by decide +kernel

theorem meets_CapHigh : (1500 ≤ capHigh.arg.mb) ∧ (capHigh.arg.mb ≤ 4400) := by decide +kernel

theorem meets_CapUnder : capUnder.arg.mb < 1500 ∨ 4400 < capUnder.arg.mb := by decide +kernel

theorem meets_IdleEnters : (idling.idleSince = some 0) ∧ (packageIdle idling = true) ∧ (0 + 1500000 ≤ idling.cycle) ∧ (idling.power = PowerState.p0 ∨
    idling.power = PowerState.p1) := by decide +kernel

theorem meets_IdleLeaves : (asleep.power = PowerState.p2) ∧ (asleep.arg.idle = IdleCause.enqueuedRecord → ∃ q ∈ asleep.parts, q.2.active = true ∧ ∃ l
    < 4, q.2.count l ≠ 0) := by decide +kernel

theorem meets_ResetPackage : demo.power ≠ PowerState.p3 := by decide +kernel

theorem meets_PowerGood : powerOff.power = PowerState.p3 ∨ powerOff.bringUp = 1 := by decide +kernel

theorem meets_Recovery : (recovering.power ≠ PowerState.p3) ∧ (recovering.bringUp = 2) ∧ (recovering.arg.data.length ≤ 67108864) := by decide +kernel

theorem meets_Alarm : demo.eraseOnAlarm = false := by decide +kernel

theorem meets_AlarmErases : (erasing.power ≠ PowerState.p3) ∧ (erasing.eraseOnAlarm = true) := by decide +kernel

theorem meets_ShootFirst : (shootFirst.shootdowns[shootFirst.arg.idx]? = some (shootOf [0, 5] Done.nothing)) ∧ (shootFirst.arg.num ∈ (shootOf [0, 5]
    Done.nothing).dies) ∧ ((shootOf [0, 5] Done.nothing).bar = BitVec.ofNat 64 0) ∧ (rangeBusy shootFirst (shootOf [0, 5] Done.nothing)
    shootFirst.arg.num = false) := by decide +kernel

theorem meets_ShootLast : (shootLast.shootdowns[shootLast.arg.idx]? = some (shootOf [5] (Done.ylReturn (7 : Word)))) ∧ (shootLast.arg.num ∈ (shootOf
    [5] (Done.ylReturn (7 : Word))).dies) ∧ ((shootOf [5] (Done.ylReturn (7 : Word))).bar = BitVec.ofNat 64 0) ∧ (rangeBusy shootLast (shootOf [5]
    (Done.ylReturn (7 : Word))) shootLast.arg.num = false) := by decide +kernel

theorem meets_ShootMask : (shootMask.shootdowns[shootMask.arg.idx]? = some (shootOf [5] (Done.mask (1 : Word)))) ∧ (shootMask.arg.num ∈ (shootOf [5]
    (Done.mask (1 : Word))).dies) ∧ ((shootOf [5] (Done.mask (1 : Word))).bar = BitVec.ofNat 64 0) ∧ (rangeBusy shootMask (shootOf [5] (Done.mask (1 :
    Word))) shootMask.arg.num = false) := by decide +kernel

theorem meets_ShootFree : (shootFree.shootdowns[shootFree.arg.idx]? = some (shootOf [5] (Done.free 262144))) ∧ (shootFree.arg.num ∈ (shootOf [5]
    (Done.free 262144)).dies) ∧ ((shootOf [5] (Done.free 262144)).bar = BitVec.ofNat 64 0) ∧ (rangeBusy shootFree (shootOf [5] (Done.free 262144))
    shootFree.arg.num = false) := by decide +kernel

theorem meets_ShootTable : (shootTable.shootdowns[shootTable.arg.idx]? = some (shootOf [5] (Done.table tableOf))) ∧ (shootTable.arg.num ∈ (shootOf [5]
    (Done.table tableOf)).dies) ∧ ((shootOf [5] (Done.table tableOf)).bar = BitVec.ofNat 64 0) ∧ (rangeBusy shootTable (shootOf [5] (Done.table
    tableOf)) shootTable.arg.num = false) := by decide +kernel

theorem meets_ScanRefuses : (scanning.scans[scanning.arg.idx]? = some scanOf) ∧ (scanLeaves scanning scanOf.part scanOf.va = some (guestPte, hypPte,
    262144)) ∧ ((262144 / 65536 : ℕ) = scanOf.frame) ∧ (writesOut scanning scanOf.frame = false) ∧ (scanPage scanning scanOf.mask 262144 = some (0,
    1)) := by decide +kernel

theorem meets_MaskNarrows : ((narrows.part narrows.arg.p).active = true) ∧ (narrows.arg.a0 &&& ~~~(narrows.part narrows.arg.p).feature = BitVec.ofNat
    64 0) ∧ (narrows.arg.a0 ≠ (narrows.part narrows.arg.p).feature) ∧ (exmapPending narrows narrows.arg.p = false) ∧ (tablePending narrows
    narrows.arg.p = false) := by decide +kernel

theorem meets_Clock : demo.arg.flag = false := by decide +kernel

theorem meets_UnknownCall : (unknownCall.arg.flag = true) ∧ (unknownCall.arg.num < 1 ∨ 16 < unknownCall.arg.num) := by decide +kernel

theorem meets_PeerLast : ((peerLast.part peerLast.arg.p).active = true) ∧ (BitVec.toNat peerLast.arg.a0 < 1024) := by decide +kernel

theorem meets_PeerNone : ((peerNone.part peerNone.arg.p).active = true) ∧ (1024 ≤ BitVec.toNat peerNone.arg.a0) := by decide +kernel

theorem meets_PolicyCall : ((policyCall.part policyCall.arg.p).active = true) ∧ (1 ≤ BitVec.toNat policyCall.arg.a0 ∧ BitVec.toNat policyCall.arg.a0 ≤
    22 ∨ BitVec.toNat policyCall.arg.a0 = 24) ∧ (BitVec.toNat policyCall.arg.a1 ≤ 2) := by decide +kernel

theorem meets_QuotaLim : ((quotaLim.part quotaLim.arg.p).active = true) ∧ (quotaLim.arg.a0 = BitVec.ofNat 64 0) ∧ (quotaLim.arg.a1 = BitVec.ofInt 64
    (-1 : ℤ)) := by decide +kernel

theorem meets_QuotaRead : ((quotaRead.part quotaRead.arg.p).active = true) ∧ (quotaRead.arg.a0 = BitVec.ofNat 64 1) ∧ (quotaRead.arg.a1 = BitVec.ofInt
    64 (-1 : ℤ)) := by decide +kernel

theorem meets_QuotaSet : ((quotaSet.part quotaSet.arg.p).active = true) ∧ (quotaSet.arg.a0 = BitVec.ofNat 64 1) ∧ (0 < BitVec.toNat quotaSet.arg.a1) ∧
    (BitVec.toNat quotaSet.arg.a1 ≤ 256) := by decide +kernel

theorem meets_MboxOpens : ((mboxCall.part mboxCall.arg.p).active = true) ∧ (mboxAllowed (mboxCall.part mboxCall.arg.p) (BitVec.toNat mboxCall.arg.a0)
    = true) ∧ ((mboxCall.mbox (BitVec.toNat mboxCall.arg.a0)).isOpen = false) := by decide +kernel

theorem meets_MboxCloses : ((mboxClosing.part mboxClosing.arg.p).active = true) ∧ (mboxOpen mboxClosing (BitVec.toNat mboxClosing.arg.a0)
    mboxClosing.arg.p = true) ∧ ((mboxClosing.mbox (BitVec.toNat mboxClosing.arg.a0)).holes = []) ∧ ((mboxClosing.mbox (BitVec.toNat
    mboxClosing.arg.a0)).claims = []) ∧ ((mboxClosing.mbox (BitVec.toNat mboxClosing.arg.a0)).queue = []) ∧ ((mboxClosing.mbox (BitVec.toNat
    mboxClosing.arg.a0)).pairs = []) := by decide +kernel

theorem meets_ExitCall : ((exitCall.part exitCall.arg.p).active = true) ∧ (exitCall.images = [imageOf1 none]) ∧ ((imageOf1 none).handle =
    exitCall.arg.num) ∧ ((imageOf1 none).part = exitCall.arg.p) ∧ ((imageOf1 none).exit = none) ∧ ((exitCall.part exitCall.arg.p).launches = []) :=
  by decide +kernel

theorem meets_AttestGone : ((attestGone.part attestGone.arg.p).active = true) ∧ (attestGone.needsProvision = true ∨ attestGone.keysGone = true) :=
  by decide +kernel

theorem meets_MapsOdd : ((mapsOdd.part mapsOdd.arg.p).active = true) ∧ (pageRange mapsOdd.arg.a0 mapsOdd.arg.a1 = false) := by decide +kernel

theorem meets_MapsPage : ((mapsPage.part mapsPage.arg.p).active = true) ∧ (pageRange mapsPage.arg.a0 mapsPage.arg.a1 = true) ∧ (rangePending mapsPage mapsPage.arg.p (BitVec.toNat mapsPage.arg.a0)
    (BitVec.toNat mapsPage.arg.a1) = false) ∧ (slice mapsPage.arg.a2
    4 60 = BitVec.ofNat 60 0) ∧ (BitVec.toNat mapsPage.arg.a3 % 65536 = 0) ∧ (BitVec.toNat mapsPage.arg.a3 + BitVec.toNat mapsPage.arg.a1 ≤ 2 ^ 52) ∧
    (BitVec.toNat mapsPage.arg.a4 ≤ 1023) ∧ (slice mapsPage.arg.a2 2 2 = BitVec.ofNat 2 3 ∨ mapsPage.arg.a4 = BitVec.ofNat 64 0) ∧ (mapPages
    mapsPage.arg.p (fun k => mkLeaf (slice mapsPage.arg.a2 2 2) (BitVec.getLsbD mapsPage.arg.a2 1) (BitVec.getLsbD mapsPage.arg.a2 0) (BitVec.toNat
    mapsPage.arg.a3 + 65536 * k) (BitVec.setWidth 10 mapsPage.arg.a4)) (BitVec.toNat mapsPage.arg.a0) (BitVec.toNat mapsPage.arg.a1 / 65536) 0
    mapsPage = Except.ok mapped) := by decide +kernel

theorem meets_UnmapsPage : ((exmaps.part exmaps.arg.p).active = true) ∧ (pageRange exmaps.arg.a0 exmaps.arg.a1 = true) ∧ (rangePending exmaps
    exmaps.arg.p (BitVec.toNat exmaps.arg.a0) (BitVec.toNat exmaps.arg.a1) = false) := by decide +kernel

theorem meets_Exmaps : ((exmaps.part exmaps.arg.p).active = true) ∧ (pageRange exmaps.arg.a0 exmaps.arg.a1 = true) ∧ (maskPending exmaps exmaps.arg.p
    = false) ∧ (exmapPending exmaps exmaps.arg.p = false) ∧ (scanLeaves exmaps exmaps.arg.p (BitVec.toNat exmaps.arg.a0) = some (guestPte, hypPte,
    262144)) := by decide +kernel

theorem meets_AllocFails : ((allocFails.part allocFails.arg.p).active = true) ∧ (0 < BitVec.toNat allocFails.arg.a0) ∧ (BitVec.toNat allocFails.arg.a0
    ≤ 65536) ∧ (BitVec.toNat allocFails.arg.a1 ≤ 1) ∧ (allocFails.arg.flag = true) := by decide +kernel

theorem meets_AllocWorks : ((allocWorks.part allocWorks.arg.p).active = true) ∧ (0 < BitVec.toNat allocWorks.arg.a0) ∧ (BitVec.toNat allocWorks.arg.a0
    ≤ 65536) ∧ (BitVec.toNat allocWorks.arg.a1 ≤ 1) ∧ (allocWorks.arg.flag = false) ∧ (pageRange allocWorks.arg.a2 (BitVec.ofNat 64 65536) = true) ∧ (rangePending
    allocWorks allocWorks.arg.p (BitVec.toNat allocWorks.arg.a2) 65536 = false) ∧
    (BitVec.toNat allocWorks.arg.a3 % 65536 = 0) ∧ (pageFrame allocWorks allocWorks.arg.p (BitVec.toNat allocWorks.arg.a2) = none) ∧ ((iaPage
    allocWorks (allocWorks.part allocWorks.arg.p) (BitVec.toNat allocWorks.arg.a3) (BitVec.setWidth 2 allocWorks.arg.a1)).isSome = true) ∧ (∀ b ∈
    (allocWorks.part allocWorks.arg.p).blocks, rangesMeet b.ia b.size (BitVec.toNat allocWorks.arg.a3) 65536 = false) ∧ (rangesMeet ((allocWorks.part
    allocWorks.arg.p).hbmr.headD (0, 0)).1 ((allocWorks.part allocWorks.arg.p).brk - ((allocWorks.part allocWorks.arg.p).hbmr.headD (0, 0)).1)
    (BitVec.toNat allocWorks.arg.a3) 65536 = false) ∧ (mapPages allocWorks.arg.p (fun k => mkLeaf (BitVec.setWidth 2 allocWorks.arg.a1) true true
    (BitVec.toNat allocWorks.arg.a3 + 65536 * k) (BitVec.ofNat 10 0)) (BitVec.toNat allocWorks.arg.a2) 1 0 allocWorks = Except.ok allocated) :=
  by decide +kernel

theorem meets_Frees : ((frees.part frees.arg.p).active = true) ∧ ((frees.part frees.arg.p).blocks = [{ va := 262144, size := 65536, ia := 262144 }]) ∧
    (262144 = BitVec.toNat frees.arg.a0) ∧ (rangePending frees frees.arg.p 262144 65536 = false) := by decide +kernel

theorem meets_JoinCreate : ((joinCreate.part joinCreate.arg.p).active = true) ∧ (BitVec.toNat joinCreate.arg.a0 % 128 = 0) ∧ (BitVec.toNat
    joinCreate.arg.a1 < 2 ^ 32) ∧ (BitVec.toNat joinCreate.arg.a2 < 4) ∧ (joinCreate.arg.a3 = 0#64) ∧ (ylPlace joinCreate
    joinCreate.arg.p joinCreate.arg.a0 128 Need.write = Except.ok (65664, false, joinCreate)) := by decide +kernel

theorem meets_Activates : (activates.arg.p.toNat < 48) ∧ (activates.bringUp = 5) ∧ (activates.controls = BitVec.allOnes 24) ∧ (partitionQuiet
    activates activates.arg.p = true) ∧ (activates.arg.peers.length ≤ 8) ∧ (ptRingsOk (activates.part activates.arg.p).entry = true) :=
  by decide +kernel

theorem meets_UnassignedRead : (unassignedRead.arg.reg = RegTarget.ringBase 0 ∨ unassignedRead.arg.reg = RegTarget.vfStatus 0 ∨
    ∃ r, unassignedRead.arg.reg = RegTarget.bar0Read 0 r) ∧ ((unassignedRead.vf 0).part = none) := ⟨.inr (.inr ⟨_, rfl⟩), by decide +kernel⟩

theorem meets_ReadsDoorbell : ((readsDoorbell.vf 384).part ≠ none) ∧ (readsDoorbell.arg.reg = RegTarget.bar0Read 384 Bar0.doorbell) :=
  by decide +kernel

theorem meets_ReadsRingBase : ((readsRingBase.vf 384).part ≠ none) ∧ (readsRingBase.arg.reg = RegTarget.bar0Read 384 Bar0.ringBase) :=
  by decide +kernel

theorem meets_ReadsStatus : ((readsStatus.vf 384).part ≠ none) ∧ (readsStatus.arg.reg = RegTarget.bar0Read 384 Bar0.status) := by decide +kernel

theorem meets_ResetUnassigned : (demo.vf demo.arg.mb).part = none := by decide +kernel

theorem meets_RingBaseOk : (ringBaseOk.arg.reg = RegTarget.ringBase 384) ∧ ((ringBaseOk.vf 384).part ≠ none) ∧ (slice ringBaseOk.arg.a0 0 12 =
    BitVec.ofNat 12 0) := by decide +kernel

theorem meets_RingBaseOdd : (ringBaseOdd.arg.reg = RegTarget.ringBase 384) ∧ ((ringBaseOdd.vf 384).part ≠ none) ∧ (slice ringBaseOdd.arg.a0 0 12 ≠ BitVec.ofNat 12 0) := by decide +kernel

theorem meets_UnassignedWrite : (unassignedWrite.arg.reg = RegTarget.ringBase 0 ∨ unassignedWrite.arg.reg = RegTarget.vfStatus 0 ∨
    ∃ r, unassignedWrite.arg.reg = RegTarget.bar0Read 0 r) ∧ ((unassignedWrite.vf 0).part = none) := ⟨.inl (by decide +kernel), by decide +kernel⟩

theorem meets_StatusWrite : (statusWrite.arg.reg = RegTarget.vfStatus 384) ∧ ((statusWrite.vf 384).part ≠ none) := by decide +kernel

theorem meets_RemtoWrite : (remtoWrite.arg.reg = RegTarget.remto) ∧ (∀ q ∈ remtoWrite.parts, q.2.launches = []) := by decide +kernel

theorem meets_PeerWrite : peerWrite.arg.reg = RegTarget.peer 1023#10 := by decide +kernel

theorem meets_TableWrite : (tableWrite.arg.reg = RegTarget.table 0#6) ∧ ((tableWrite.part 0#6).active = true) ∧ (tablePending tableWrite 0#6 = false) ∧
    ((tableWrite.part 0#6).feature &&& ~~~(slice tableWrite.arg.entry 0x500 64) = 0#64) := by decide +kernel

theorem meets_TableNarrows : (tableNarrows.arg.reg = RegTarget.table 0#6) ∧ ((tableNarrows.part 0#6).active = true) ∧ (tablePending tableNarrows 0#6 =
    false) ∧ ((tableNarrows.part 0#6).feature &&& ~~~(slice tableNarrows.arg.entry 0x500 64) ≠ 0#64) ∧ (exmapPending tableNarrows 0#6 = false) :=
  by decide +kernel

theorem meets_TableRests : (tableRests.arg.reg = RegTarget.table 47#6) ∧ (BitVec.toNat 47#6 < 48) ∧ ((tableRests.part 47#6).active = false) :=
  by decide +kernel

theorem meets_WdlimWrite : (wdlimWrite.arg.reg = RegTarget.savedWdlim 0x100000000 0) ∧ (wdlimWrite.gang? wdlimWrite.arg.p 0x100000000 = some
    savedGang) ∧ (savedGang.images.find? (fun z => z.1 == 0) = some (0, demoStrand)) := by decide +kernel

theorem meets_HvringWrite : hvringWrite.arg.reg = RegTarget.device 3940649673953280 := by decide +kernel

theorem meets_Doorbells : ((doorbells.vf doorbells.arg.mb).ready = true) ∧ ((doorbells.vf doorbells.arg.mb).part = some 0#6) ∧ (doorbells.power = PowerState.p0) ∧ (doorbells.arg.data = []) ∧
    (doorbells.arg.flag = false) ∧ (maskPending doorbells 0#6 = false) ∧ (hostNat doorbells (BitVec.toNat (doorbells.vf doorbells.arg.mb).ringBase) 1
    % 16 = 4) ∧ (4 ≤ 4) ∧ (4 ≤ 12) ∧ (BitVec.toNat doorbells.arg.a0 % 2 ^ 32 = (hostNat doorbells (BitVec.toNat (doorbells.vf
    doorbells.arg.mb).ringBase + 16) 4 + 1) % 2 ^ 32) ∧ (hostNat doorbells (BitVec.toNat (doorbells.vf doorbells.arg.mb).ringBase + 64 + 64 * (hostNat
    doorbells (BitVec.toNat (doorbells.vf doorbells.arg.mb).ringBase + 16) 4 % 2 ^ 4)) 2 = 3) ∧ (imageOf doorbells 0#6 (BitVec.ofNat 64 (hostNat
    doorbells (BitVec.toNat (doorbells.vf doorbells.arg.mb).ringBase + 64 + 64 * (hostNat doorbells (BitVec.toNat (doorbells.vf
    doorbells.arg.mb).ringBase + 16) 4 % 2 ^ 4) + 8) 8)) = some (imageOf1 (some (5 : Word)))) := by decide +kernel

theorem meets_DoorbellFails : ((doorbellFails.vf doorbellFails.arg.mb).part = some 0#6) ∧ (doorbellFails.power = PowerState.p0) ∧
    (doorbellFails.arg.data = []) ∧ (maskPending doorbellFails 0#6 = false) ∧ ((doorbellFails.vf doorbellFails.arg.mb).ready = true) ∧
    (doorbellFails.arg.flag = true) ∧ (doorbellFails.arg.idx = 0) := by decide +kernel

theorem meets_DoorbellNotReady : ((doorbellIdle.vf doorbellIdle.arg.mb).part = some 0#6) ∧ (doorbellIdle.power = PowerState.p0) ∧
    (doorbellIdle.arg.data = []) ∧ (maskPending doorbellIdle 0#6 = false) ∧ ((doorbellIdle.vf doorbellIdle.arg.mb).ready = false) := by decide +kernel

theorem meets_DoorbellUnassigned : (demo.vf demo.arg.mb).part = none := by decide +kernel

theorem meets_FunctionReset : ((functionReset.vf functionReset.arg.mb).part ≠ none) ∧ (∀ i ∈ functionReset.images, i.vf ≠ functionReset.arg.mb) :=
  by decide +kernel

theorem meets_WriteHole : (writeHole.power ≠ PowerState.p2) ∧ (writeHole.tests = []) ∧ (writeHole.arg.remote = RemoteOp.write 618475290624
    [BitVec.ofNat 8 1, BitVec.ofNat 8 2]) ∧ (inAperture 618475290624 = false) ∧ (homeServes writeHole 618475290624 [BitVec.ofNat 8 1, BitVec.ofNat 8
    2].length = false ∨ scanRefused writeHole 618475290624 [BitVec.ofNat 8 1, BitVec.ofNat 8 2].length = true) := by decide +kernel

theorem meets_Links : links.arg.mb < 18 := by decide +kernel

theorem meets_AskedRead : (askedRead.power ≠ PowerState.p2) ∧ (askedRead.tests = []) ∧ (askedRead.arg.remote = RemoteOp.read 65632 32) ∧ (inAperture 65632 = false) ∧
    (homeServes askedRead 65632 32 = true) ∧ (poisoned askedRead 65632 32 = false) := by decide +kernel

theorem meets_AskedHole : (askedHole.power ≠ PowerState.p2) ∧ (askedHole.tests = []) ∧ (askedHole.arg.remote = RemoteOp.read 618475290624 4) ∧ (inAperture 618475290624 =
    false) ∧ (homeServes askedHole 618475290624 4 = false) := by decide +kernel

theorem meets_AskedWrite : (askedWrite.power ≠ PowerState.p2) ∧ (askedWrite.tests = []) ∧ (askedWrite.arg.remote = RemoteOp.write 65656 [(1 : Byte), (2 : Byte), (3 : Byte), (4
    : Byte), (5 : Byte), (6 : Byte), (7 : Byte), (8 : Byte)]) ∧ (homeServes askedWrite 65656 [(1 : Byte), (2 : Byte), (3 : Byte), (4 : Byte), (5 :
    Byte), (6 : Byte), (7 : Byte), (8 : Byte)].length = true) ∧ (scanRefused askedWrite 65656 [(1 : Byte), (2 : Byte), (3 : Byte), (4 : Byte), (5 :
    Byte), (6 : Byte), (7 : Byte), (8 : Byte)].length = false) := by decide +kernel

theorem meets_AskedAdd : (askedAdd.power ≠ PowerState.p2) ∧ (askedAdd.tests = []) ∧ (homeServes askedAdd 65656 (if true = true then 8 else 4) = true) ∧ ((65656 % if true =
    true then 8 else 4) = 0) ∧ (poisoned askedAdd 65656 (if true = true then 8 else 4) = false) ∧ (scanRefused askedAdd 65656 (if true = true then 8
    else 4) = false) ∧ (askedAdd.arg.remote = RemoteOp.atomic (BitVec.ofNat 4 0) true 65656 (5 : Word)) := by decide +kernel

theorem meets_AskedCas : (askedCas.power ≠ PowerState.p2) ∧ (askedCas.tests = []) ∧ (homeServes askedCas 65660 (if false = true then 8 else 4) = true) ∧ ((65660 % if false =
    true then 8 else 4) = 0) ∧ (poisoned askedCas 65660 (if false = true then 8 else 4) = false) ∧ (scanRefused askedCas 65660 (if false = true then 8
    else 4) = false) ∧ (askedCas.arg.remote = RemoteOp.cas false 65660 (0 : Word) (5 : Word)) := by decide +kernel

theorem meets_AtomicOps : ∀ p ∈ ([(0#4, 0x7F80002216), (1#4, 0x8000000001), (2#4, 0xFFFFFFFF80002215), (3#4, 0xFFFFFF7F80002214),
    (4#4, 0xFFFFFFFF80000005), (5#4, 0x8000002211), (6#4, 0x8000002211), (7#4, 0xFFFFFFFF80000005), (8#4, 0xFFFFFFFF80000005)] :
    List (BitVec 4 × Nat)), (askedOp p.1 true 0xFFFFFFFF80000005#64).power ≠ PowerState.p2 ∧ (askedOp p.1 true 0xFFFFFFFF80000005#64).tests = [] ∧
    homeServes (askedOp p.1 true 0xFFFFFFFF80000005#64) 0x10000 8 = true ∧ poisoned (askedOp p.1 true 0xFFFFFFFF80000005#64) 0x10000 8 = false ∧
    scanRefused (askedOp p.1 true 0xFFFFFFFF80000005#64) 0x10000 8 = false ∧
    (askedOp p.1 true 0xFFFFFFFF80000005#64).arg.remote = RemoteOp.atomic p.1 true 0x10000 0xFFFFFFFF80000005#64 ∧
    bytesNat (memBytes (askedOp p.1 true 0xFFFFFFFF80000005#64).mem 0x10000 8) = 0x8000002211 := by decide +kernel

theorem meets_AtomicFadd : (askedOp 9#4 false 0x3F800000#64).power ≠ PowerState.p2 ∧ (askedOp 9#4 false 0x3F800000#64).tests = [] ∧
    homeServes (askedOp 9#4 false 0x3F800000#64) 0x10000 4 = true ∧ poisoned (askedOp 9#4 false 0x3F800000#64) 0x10000 4 = false ∧
    scanRefused (askedOp 9#4 false 0x3F800000#64) 0x10000 4 = false ∧
    (askedOp 9#4 false 0x3F800000#64).arg.remote = RemoteOp.atomic 9#4 false 0x10000 0x3F800000#64 ∧
    (f32Add (BitVec.ofNat 32 (bytesNat (memBytes (askedOp 9#4 false 0x3F800000#64).mem 0x10000 4))) 0x3F800000#32).toNat = 0x3F800000 := by
  decide +kernel

theorem meets_AtomicOdd : (atomicOdd.power ≠ PowerState.p2) ∧ (atomicOdd.tests = []) ∧ (0x10004 % 8 ≠ 0) ∧
    ((∃ op b, atomicOdd.arg.remote = RemoteOp.atomic op true 0x10004 b) ∨ ∃ e v, atomicOdd.arg.remote = RemoteOp.cas true 0x10004 e v) :=
  ⟨by decide +kernel, by decide +kernel, by decide +kernel, .inl ⟨_, _, rfl⟩⟩

theorem meets_AtomicScanned : (atomicScanned.power ≠ PowerState.p2) ∧ (atomicScanned.tests = []) ∧ (scanRefused atomicScanned 0x10040 4 = true) ∧
    ((∃ op b, atomicScanned.arg.remote = RemoteOp.atomic op false 0x10040 b) ∨ ∃ e v, atomicScanned.arg.remote = RemoteOp.cas false 0x10040 e v) :=
  ⟨by decide +kernel, by decide +kernel, by decide +kernel, .inl ⟨_, _, rfl⟩⟩

theorem meets_CasHole : (casHole.power ≠ PowerState.p2) ∧ (casHole.tests = []) ∧ (homeServes casHole 0x9000000000 8 = false) ∧
    ((∃ op b, casHole.arg.remote = RemoteOp.atomic op true 0x9000000000 b) ∨ ∃ e v, casHole.arg.remote = RemoteOp.cas true 0x9000000000 e v) :=
  ⟨by decide +kernel, by decide +kernel, by decide +kernel, .inr ⟨_, _, rfl⟩⟩

theorem meets_RoundTrip : wellFormed (Instr.addi 31#5 31#5 65535#16) = true := by decide +kernel

theorem meets_WordOne : decode (142999551 : IWord) = some (Instr.addi 4#5 5#5 65535#16) := by decide +kernel

theorem meets_StepIssue : (addiTurn.agenda = [{ ticks := 0, act := Act.issue 0 }]) ∧ (slotTurn { addiTurn with agenda := [], cur := 0, held := false } 0 = true) ∧
    (canIssue { addiTurn with agenda := [], cur := 0, held := false } = true) ∧ (locate { addiTurn with agenda := [], cur := 0, held := false } (streamCtx
    { addiTurn with agenda := [], cur := 0, held := false } 0) { addiTurn with agenda := [], cur := 0, held := false }.me.pc 4 4 Need.fetch acceptsLocal = Except.ok (Place.mem 4096
    false, { addiTurn with agenda := [], held := false })) ∧ ({ addiTurn with agenda := [], held := false }.held = false) ∧ (underTest { addiTurn with agenda := [], held := false } 0 (Place.mem 4096 false) 4 = false) ∧ (homeFault
    { addiTurn with agenda := [], held := false } (Place.mem 4096 false) 4 true = none) ∧ (decode (bytesBv 32 (memBytes { addiTurn with agenda := [], held := false }.mem 4096 4)) =
    some (Instr.addi 4#5 5#5 65535#16)) ∧ ({ addiTurn with agenda := [], held := false }.me.deferNow = false) ∧ (sparesShort { addiTurn with agenda := [], held := false }
    (Instr.addi 4#5 5#5 65535#16) = false) ∧ (readsPoison { addiTurn with agenda := [], held := false }.me (Instr.addi 4#5 5#5 65535#16) = false) :=
  by decide +kernel

theorem meets_StepEvent : (eventTurn.agenda = [{ ticks := 0, act := Act.event Instr.powerLoss eventTurn.arg }]) ∧ (encode Instr.powerLoss =
    BitVec.ofNat 32 0) ∧ (eventTurn.power ≠ PowerState.p3) := by decide +kernel

/-- The bytes other than zero of `n` NOP words from `a` on: 0x5C000000 each. -/
def nopCells : Nat → Nat → List Host.Cell
  | 0, _ => []
  | n + 1, a => (a + 3, 0x5C#8) :: nopCells n (a + 4)
theorem nopCells_get (n a x : Nat) :
    tabGet emptyByte (nopCells n a) x = if a ≤ x ∧ x < a + 4 * n ∧ (x - a) % 4 = 3 then 0x5C#8 else emptyByte := by
  induction n generalizing a with
  | zero => rw [if_neg (by omega)]; rfl
  | succ n ih =>
    rw [nopCells, tabGet_cons, ih]
    by_cases h : a + 3 = x
    · rw [if_pos h, if_pos (by omega)]
    · rw [if_neg h]; exact if_congr (by omega) rfl rfl
theorem get_past (m l : List Host.Cell) (x : Nat) (h : ∀ c ∈ m, c.1 ≠ x) : tabGet emptyByte (m ++ l) x = tabGet emptyByte l x := by
  induction m with
  | nil => rfl
  | cons c m ih =>
    obtain ⟨k, v⟩ := c
    rw [List.cons_append, tabGet_cons, if_neg (h (k, v) (by simp))]
    exact ih (fun c hc => h c (by simp [hc]))
theorem get_before (m : List Host.Cell) (n a x : Nat) (h : x < a) : tabGet emptyByte (m ++ nopCells n a) x = tabGet emptyByte m x := by
  induction m with
  | nil => rw [List.nil_append, nopCells_get, if_neg (by omega)]; rfl
  | cons c m ih =>
    obtain ⟨k, v⟩ := c
    rw [List.cons_append, tabGet_cons, tabGet_cons, ih]
theorem firstBad_nops (s : State) (mask : Word) (pa : Nat) (hm : scanWord mask 0x5C000000#32 = .ok (.nop 0#12)) (n i : Nat)
    (h : ∀ j, i ≤ j → j < i + n → homeRead s (pa + 4 * j) 4 = [0#8, 0#8, 0#8, 0x5C#8]) : firstBad s mask pa n i = none := by
  induction n generalizing i with
  | zero => rfl
  | succ n ih =>
    have e : bytesBv 32 [0#8, 0#8, 0#8, 0x5C#8] = 0x5C000000#32 := by decide +kernel
    rw [firstBad, h i (by omega) (by omega), e, hm]
    exact ih (i + 1) (fun j hj hk => h j (by omega) (by omega))

/-- The page at 0x400000 holds NOP words alone, and is to be scanned as page 4. -/
def scanTables : List Host.Cell := pteOf 0x170020 0x40000D (tableMem demo.mem)
def scanClean : State := { tabled id with mem := scanTables ++ nopCells 16384 0x400000, scans := [{ scanOf with frame := 0x40 }] }
def scanBase : State := { tabled id with mem := scanTables }
/-- A reader of page table entries below the page. -/
def readBelow (err : FaultClass → Failure) (a : Nat) : Except Failure (Nat × Word) :=
  if a + 8 ≤ 0x400000 then pteAt scanBase err a else .error (err .trans)
def leafBelow (ia : Nat) : Except Failure Leaf :=
  walkStage (readBelow (fun c => ⟨c, true, ia, [], none, false⟩)) (fun c => ⟨c, true, ia, [], none, false⟩) ia walkLevels 0x100000
def guestBelow (va : Nat) : Except Failure Leaf :=
  walkStage
    (fun a => match leafBelow a with
      | .ok l => if frameOk (scanBase.part 0#6) (pteKind l.pte) l.frame (2 ^ l.bits) then readBelow (fun c => Failure.at c va) (l.frame + a % 2 ^ l.bits)
        else .error (Failure.at .trans va)
      | .error f => .error f)
    (fun c => Failure.at c va) va walkLevels 0x140000
theorem walkStage_mono (rd rd' : Nat → Except Failure (Nat × Word)) (err : FaultClass → Failure) (addr : Nat) (l : Leaf)
    (h : ∀ a x, rd a = .ok x → rd' a = .ok x) (ls : List Nat) (t : Nat) (w : walkStage rd err addr ls t = .ok l) :
    walkStage rd' err addr ls t = .ok l := by
  induction ls generalizing t with
  | nil => exact w
  | cons lo ls ih =>
    rw [walkStage] at w ⊢
    split at w
    · cases w
    · rename_i pa e he
      rw [h _ _ he]
      dsimp only at w ⊢
      split at w
      · cases w
      · split at w
        · split at w
          · cases w
          · rename_i h1 h2 h3; rw [if_neg h1, if_pos h2, if_neg h3]; exact ih _ w
        · split at w
          · cases w
          · rename_i h1 h2 h3; rw [if_neg h1, if_neg h2, if_neg h3]; exact w
theorem readBelow_clean (err : FaultClass → Failure) (a : Nat) (x : Nat × Word) (h : readBelow err a = .ok x) : pteAt scanClean err a = .ok x := by
  rw [readBelow] at h
  split at h
  · rename_i ha
    have hg : ∀ y, y < 0x400000 → memByte scanClean.mem y = memByte scanBase.mem y := fun y hy => get_before scanTables 16384 0x400000 y hy
    have hr : readPte scanClean a = readPte scanBase a := by
      simp only [readPte, homeRead, memBytes]
      iterate 8 rw [hg _ (by omega)]
    rw [← h, pteAt, pteAt, hr]; rfl
  · cases h
theorem leafBelow_clean (ia : Nat) (l : Leaf) (h : leafBelow ia = .ok l) : hypLeaf scanClean (scanClean.part 0#6) ia = .ok l := by
  have hr : (scanClean.part 0#6).hypRoot = 0x100000 := by decide +kernel
  rw [leafBelow] at h
  rw [hypLeaf, hr]
  exact walkStage_mono _ _ _ _ _ (readBelow_clean _) _ _ h
theorem guestBelow_clean (va : Nat) (l : Leaf) (h : guestBelow va = .ok l) : guestLeaf scanClean (scanClean.part 0#6) va = .ok l := by
  have hr : (scanClean.part 0#6).guestRoot = 0x140000 := by decide +kernel
  rw [guestBelow] at h
  rw [guestLeaf, hr]
  refine walkStage_mono _ _ _ _ _ (fun a x hx => ?_) _ _ h
  split at hx
  · rename_i l hl
    split at hx
    · rename_i hf
      have he : scanClean.part 0#6 = scanBase.part 0#6 := rfl
      rw [hypPa, leafBelow_clean a l hl, he]
      dsimp only
      rw [if_pos hf]
      exact readBelow_clean _ _ _ hx
    · cases hx
  · cases hx
theorem scanClean_passes : scanPage scanClean scanOf.mask 0x400000 = none := by
  have hp : (poisoned scanClean 0x400000 65536 || (lostPart scanClean 0x400000).isSome) = false := by decide +kernel
  have hk : ∀ c ∈ scanTables, c.1 < 0x400000 := by decide +kernel
  have hw : scanWord scanOf.mask 0x5C000000#32 = .ok (.nop 0#12) := by decide +kernel
  rw [scanPage, hp, if_neg Bool.false_ne_true]
  refine firstBad_nops scanClean scanOf.mask 0x400000 hw 16384 0 (fun j _ hj => ?_)
  have hg : ∀ x, 0x400000 ≤ x → memByte scanClean.mem x = tabGet emptyByte (nopCells 16384 0x400000) x :=
    fun x hx => get_past scanTables _ x (fun c hc h => by have := hk c hc; omega)
  simp only [homeRead, memBytes]
  iterate 4 rw [hg _ (by omega)]
  simp only [nopCells_get]
  rw [if_neg (by omega), if_neg (by omega), if_neg (by omega), if_pos (by omega)]; rfl
theorem scanLeaves_of (s : State) (q : BitVec 6) (va ia pa : Nat) (g h : Leaf) (hg : guestLeaf s (s.part q) va = .ok g)
    (hi : g.frame + va % 2 ^ g.bits = ia) (hh : hypLeaf s (s.part q) ia = .ok h) (hp : h.frame + ia % 2 ^ h.bits = pa)
    (hk : (pteR g.pte && pteR h.pte && pteKind g.pte == 0#2 && pteKind h.pte == 0#2 && frameOk (s.part q) 0#2 pa 65536) = true) :
    scanLeaves s q va = some (g, h, pa) := by
  simp only [scanLeaves, hg, hi, hh, hp, hk, if_true]
theorem scanClean_leaves : scanLeaves scanClean 0#6 0x40000 = some (⟨0x170020, 0x400000, 16, 0x40000D#64⟩, hypPte, 0x400000) := by
  have hg := guestBelow_clean 0x40000 ⟨0x170020, 0x400000, 16, 0x40000D#64⟩ (by decide +kernel)
  have hh := leafBelow_clean 0x400000 hypPte (by decide +kernel)
  exact scanLeaves_of _ _ _ _ _ _ _ hg (by decide +kernel) hh (by decide +kernel) (by decide +kernel)
theorem meets_ScanPasses : (scanClean.scans[scanClean.arg.idx]? = some { scanOf with frame := 0x40 }) ∧
    (scanLeaves scanClean 0#6 0x40000 = some (⟨0x170020, 0x400000, 16, 0x40000D#64⟩, hypPte, 0x400000)) ∧ (0x400000 / 65536 = 0x40) ∧
    (writesOut scanClean 0x40 = false) ∧ (scanPage scanClean scanOf.mask 0x400000 = none) ∧ (0x170020 + 8 ≤ hypPte.at_ ∨ hypPte.at_ + 8 ≤ 0x170020) :=
  ⟨by decide +kernel, scanClean_leaves, by decide +kernel, by decide +kernel, scanClean_passes, by decide +kernel⟩
theorem meets_StepMemory : Memory.wf addiTurn.mem = true ∧ Memory.wf addiTurn.hostMem = true ∧ ∃ t, step addiTurn = .next t := by
  have h : (match step addiTurn with | .next _ => true | _ => false) = true := by decide +kernel
  refine ⟨by decide +kernel, by decide +kernel, ?_⟩
  split at h <;> first | exact ⟨_, by assumption⟩ | exact absurd h Bool.false_ne_true
def nearOne : State := demoWith (fun u => { u with s := u.s ++ [(10, 0xF000000000FF8#64)], sf := 1 })
theorem meets_LoadFromNear :
    Reaches nearOne (offsetAddress nearOne 10 0 8) 8 .read (acceptsOfSize 3) (.near 0xFF8) nearOne ∧ MayPerform nearOne (.near 0xFF8) 8 true :=
  ⟨by unfold Reaches; decide +kernel, by unfold MayPerform; decide +kernel⟩

end Sys2Proof.Tests
end

section
/-! PROOFS. Integer register operations and immediate forms (spec/14_scalar_instructions.md R236 to R240): the value of each form
as the rules write it, and that every form ends with that value in s[d]. -/

namespace Sys2Proof.Machine

open Sys2Proof

/-! ### The meaning of each form, by the shared operation that it is -/

section

variable (s : State) (d a b : BitVec 5) (p : BitVec 2) (i : BitVec 16) (n : BitVec 6)

theorem exec_add : exec (.add d a b) s = oprResult (fun x y => x + y) d a b s := rfl
theorem exec_sub : exec (.sub d a b) s = oprResult (fun x y => x - y) d a b s := rfl
theorem exec_and : exec (.and d a b) s = oprResult (fun x y => x &&& y) d a b s := rfl
theorem exec_or : exec (.or d a b) s = oprResult (fun x y => x ||| y) d a b s := rfl
theorem exec_xor : exec (.xor d a b) s = oprResult (fun x y => x ^^^ y) d a b s := rfl
theorem exec_andn : exec (.andn d a b) s = oprResult (fun x y => x &&& ~~~y) d a b s := rfl
theorem exec_sll : exec (.sll d a b) s = oprResult (fun x y => x <<< shamt y) d a b s := rfl
theorem exec_srl : exec (.srl d a b) s = oprResult (fun x y => x >>> shamt y) d a b s := rfl
theorem exec_sra : exec (.sra d a b) s = oprResult (fun x y => x.sshiftRight (shamt y)) d a b s := rfl
theorem exec_slt : exec (.slt d a b) s = oprResult (fun x y => boolWord (x.slt y)) d a b s := rfl
theorem exec_sltu : exec (.sltu d a b) s = oprResult (fun x y => boolWord (x.ult y)) d a b s := rfl
theorem exec_min : exec (.min d a b) s = oprResult (fun x y => if y.slt x then y else x) d a b s := rfl
theorem exec_max : exec (.max d a b) s = oprResult (fun x y => if x.slt y then y else x) d a b s := rfl
theorem exec_minu : exec (.minu d a b) s = oprResult (fun x y => if y.ult x then y else x) d a b s := rfl
theorem exec_maxu : exec (.maxu d a b) s = oprResult (fun x y => if x.ult y then y else x) d a b s := rfl
theorem exec_mul : exec (.mul d a b) s = oprResult (fun x y => x * y) d a b s := rfl
theorem exec_mulh : exec (.mulh d a b) s = oprResult (fun x y => wordOfInt (x.toInt * y.toInt / 2 ^ 64)) d a b s := rfl
theorem exec_mulhu : exec (.mulhu d a b) s = oprResult (fun x y => BitVec.ofNat 64 (x.toNat * y.toNat / 2 ^ 64)) d a b s := rfl
theorem exec_addw : exec (.addw d a b) s = oprResult (fun x y => sext32 (x + y)) d a b s := rfl
theorem exec_subw : exec (.subw d a b) s = oprResult (fun x y => sext32 (x - y)) d a b s := rfl
theorem exec_mulw : exec (.mulw d a b) s = oprResult (fun x y => sext32 (x * y)) d a b s := rfl
theorem exec_div : exec (.div d a b) s = oprResult divS d a b s := rfl
theorem exec_rem : exec (.rem d a b) s = oprResult remS d a b s := rfl
theorem exec_divu : exec (.divu d a b) s = oprResult divU d a b s := rfl
theorem exec_remu : exec (.remu d a b) s = oprResult remU d a b s := rfl
theorem exec_csel : exec (.csel d a b) s = scalarResult d (fun t => if t.getS a = 0#64 then t.getS d else t.getS b) s := rfl
theorem exec_clz : exec (.clz d a) s = immResult clz64 d a s := rfl
theorem exec_ctz : exec (.ctz d a) s = immResult ctz64 d a s := rfl
theorem exec_popc : exec (.popc d a) s = immResult popc64 d a s := rfl
theorem exec_addi : exec (.addi d a i) s = immResult (fun x => x + sext64 i) d a s := rfl
theorem exec_andi : exec (.andi d a i) s = immResult (fun x => x &&& sext64 i) d a s := rfl
theorem exec_ori : exec (.ori d a i) s = immResult (fun x => x ||| zext64 i) d a s := rfl
theorem exec_xori : exec (.xori d a i) s = immResult (fun x => x ^^^ zext64 i) d a s := rfl
theorem exec_slti : exec (.slti d a i) s = immResult (fun x => boolWord (x.slt (sext64 i))) d a s := rfl
theorem exec_sltiu : exec (.sltiu d a i) s = immResult (fun x => boolWord (x.ult (sext64 i))) d a s := rfl
theorem exec_lih : exec (.lih d p i) s = scalarResult d (fun t => putSlice (t.getS d) (16 * p.toNat) 16 i) s := rfl
theorem exec_slli : exec (.slli d a n) s = immResult (fun x => x <<< n.toNat) d a s := rfl
theorem exec_srli : exec (.srli d a n) s = immResult (fun x => x >>> n.toNat) d a s := rfl
theorem exec_srai : exec (.srai d a n) s = immResult (fun x => x.sshiftRight n.toNat) d a s := rfl

end

/-! ### Forms that write one register -/

/-- A register form leaves `f A B` in s[d]. -/
theorem yieldsS_of_oprResult {i : Instr} {s : State} {d a b : BitVec 5} {f : Word → Word → Word} {x : Word}
    (h : exec i s = oprResult f d a b s) (hx : f (s.me.getS a) (s.me.getS b) = x) : YieldsS i s d x (s.me.pc + 4#64) :=
  yieldsS_of_scalarResult h hx

/-- A form of one register operand leaves `f A` in s[d]. -/
theorem yieldsS_of_immResult {i : Instr} {s : State} {d a : BitVec 5} {f : Word → Word} {x : Word}
    (h : exec i s = immResult f d a s) (hx : f (s.me.getS a) = x) : YieldsS i s d x (s.me.pc + 4#64) :=
  yieldsS_of_scalarResult h hx

/-! ### Sums and comparisons -/

theorem wordOfInt_eq_ofInt (k : Int) : wordOfInt k = BitVec.ofInt 64 k := by
  apply BitVec.eq_of_toNat_eq
  have : (k % 2 ^ 64).toNat < 2 ^ 64 := by omega
  simpa [wordOfInt, wrapInt, BitVec.toNat_ofInt] using this

theorem add_eq_ofNat (x y : Word) : x + y = BitVec.ofNat 64 ((x.toNat + y.toNat) % 2 ^ 64) :=
  BitVec.eq_of_toNat_eq (by simp)

theorem ofNat_toNat_self (x : Word) : BitVec.ofNat 64 x.toNat = x := by
  rw [BitVec.ofNat_toNat, BitVec.setWidth_eq]

theorem ofInt_toNat (x : Word) : BitVec.ofInt 64 x.toNat = x := by
  rw [BitVec.ofInt_natCast, ofNat_toNat_self]

theorem sub_eq_ofInt (x y : Word) : x - y = BitVec.ofInt 64 ((x.toNat : Int) - y.toNat) := by
  rw [Int.sub_eq_add_neg, BitVec.ofInt_add, BitVec.ofInt_neg, ofInt_toNat, ofInt_toNat, BitVec.sub_eq_add_neg]

theorem add_sext64_eq_ofInt (x : Word) (i : BitVec 16) : x + sext64 i = BitVec.ofInt 64 ((x.toNat : Int) + i.toInt) := by
  rw [BitVec.ofInt_add, ofInt_toNat]; rfl

theorem mul_eq_ofNat (x y : Word) : x * y = BitVec.ofNat 64 (x.toNat * y.toNat) :=
  BitVec.eq_of_toNat_eq (by simp)

theorem boolWord_slt (x y : Word) : boolWord (x.slt y) = if x.toInt < y.toInt then 1#64 else 0#64 := by
  simp only [boolWord, BitVec.slt_iff_toInt_lt]

theorem boolWord_ult (x y : Word) : boolWord (x.ult y) = if x.toNat < y.toNat then 1#64 else 0#64 := by
  simp only [boolWord, BitVec.ult_iff_toNat_lt]

/-- The word of the smaller reading, for a reading that a word can be made from again. -/
theorem ite_lt_eq_min {α : Type} [LinearOrder α] {read : Word → α} {make : α → Word} (h : ∀ x, make (read x) = x) (x y : Word) :
    (if read y < read x then y else x) = make (min (read x) (read y)) := by
  split
  next hlt => rw [min_eq_right hlt.le, h]
  next hge => rw [min_eq_left (not_lt.mp hge), h]

/-- The word of the larger reading. -/
theorem ite_lt_eq_max {α : Type} [LinearOrder α] {read : Word → α} {make : α → Word} (h : ∀ x, make (read x) = x) (x y : Word) :
    (if read x < read y then y else x) = make (max (read x) (read y)) := by
  split
  next hlt => rw [max_eq_right hlt.le, h]
  next hge => rw [max_eq_left (not_lt.mp hge), h]

theorem ite_slt_eq_min (x y : Word) : (if y.slt x then y else x) = BitVec.ofInt 64 (min x.toInt y.toInt) := by
  simp only [BitVec.slt_iff_toInt_lt, ite_lt_eq_min (fun _ => BitVec.ofInt_toInt)]

theorem ite_slt_eq_max (x y : Word) : (if x.slt y then y else x) = BitVec.ofInt 64 (max x.toInt y.toInt) := by
  simp only [BitVec.slt_iff_toInt_lt, ite_lt_eq_max (fun _ => BitVec.ofInt_toInt)]

theorem ite_ult_eq_min (x y : Word) : (if y.ult x then y else x) = BitVec.ofNat 64 (min x.toNat y.toNat) := by
  simp only [BitVec.ult_iff_toNat_lt, ite_lt_eq_min ofNat_toNat_self]

theorem ite_ult_eq_max (x y : Word) : (if x.ult y then y else x) = BitVec.ofNat 64 (max x.toNat y.toNat) := by
  simp only [BitVec.ult_iff_toNat_lt, ite_lt_eq_max ofNat_toNat_self]

theorem sext32_eq_signExtend (x : Word) : sext32 x = BitVec.signExtend 64 (x.setWidth 32) := by
  rw [BitVec.setWidth_eq_extractLsb' (by decide)]; rfl

/-! ### Shifts -/

theorem shamt_eq_mod (x : Word) : shamt x = x.toNat % 64 := by
  simp [shamt, slice]

theorem shiftLeft_eq_ofNat (x : Word) (n : Nat) : x <<< n = BitVec.ofNat 64 (x.toNat * 2 ^ n) :=
  BitVec.eq_of_toNat_eq (by simp [Nat.shiftLeft_eq])

theorem ushiftRight_eq_ofNat (x : Word) (n : Nat) : x >>> n = BitVec.ofNat 64 (x.toNat / 2 ^ n) := by
  apply BitVec.eq_of_toNat_eq
  have : x.toNat / 2 ^ n < 2 ^ 64 := (Nat.div_le_self ..).trans_lt x.isLt
  rw [BitVec.toNat_ushiftRight, Nat.shiftRight_eq_div_pow, BitVec.toNat_ofNat, Nat.mod_eq_of_lt this]

theorem sshiftRight_eq_ofInt (x : Word) (n : Nat) : x.sshiftRight n = BitVec.ofInt 64 (x.toInt / 2 ^ n) := by
  rw [BitVec.sshiftRight, Int.shiftRight_eq_div_pow, Nat.cast_pow, Nat.cast_ofNat]

/-! ### The high half of a product -/

/-- Bits 127 to 64 of an integer. -/
theorem extractLsb'_ofInt_high (k : Int) : (BitVec.ofInt 128 k).extractLsb' 64 64 = BitVec.ofInt 64 (k / 2 ^ 64) := by
  apply BitVec.eq_of_toNat_eq
  rw [BitVec.extractLsb'_toNat, Nat.shiftRight_eq_div_pow, BitVec.toNat_ofInt, BitVec.toNat_ofInt]
  omega

theorem mulh_eq_extractLsb' (x y : Word) :
    wordOfInt (x.toInt * y.toInt / 2 ^ 64) = (x.signExtend 128 * y.signExtend 128).extractLsb' 64 64 := by
  have hprod : x.signExtend 128 * y.signExtend 128 = BitVec.ofInt 128 (x.toInt * y.toInt) := (BitVec.ofInt_mul ..).symm
  rw [hprod, extractLsb'_ofInt_high, wordOfInt_eq_ofInt]

theorem mulhu_eq_extractLsb' (x y : Word) :
    BitVec.ofNat 64 (x.toNat * y.toNat / 2 ^ 64) = (x.setWidth 128 * y.setWidth 128).extractLsb' 64 64 := by
  have hprod : x.setWidth 128 * y.setWidth 128 = BitVec.ofInt 128 (x.toNat * y.toNat : Nat) := by
    rw [BitVec.ofInt_natCast, BitVec.ofNat_mul, BitVec.ofNat_toNat, BitVec.ofNat_toNat]
  rw [hprod, extractLsb'_ofInt_high, ← BitVec.ofInt_natCast]; norm_cast

/-! ### Counts -/

/-- `bitLen` is the number of bits needed. -/
theorem bitLen_le_iff (n k : Nat) : bitLen n ≤ k ↔ n < 2 ^ k := by
  unfold bitLen
  split
  next h => simp [h]
  next h => rw [Nat.succ_le_iff, Nat.log2_lt h]

theorem bitLen_toNat_le (x : Word) : bitLen x.toNat ≤ 64 := (bitLen_le_iff _ _).mpr x.isLt

/-- No bit at or above `bitLen` is set. -/
theorem getLsbD_of_bitLen_le {x : Word} {j : Nat} (h : bitLen x.toNat ≤ j) : x.getLsbD j = false :=
  Nat.testBit_lt_two_pow ((bitLen_le_iff _ _).mp h)

/-- The bit below `bitLen` is the highest one set. -/
theorem getLsbD_bitLen_sub_one {x : Word} (h : 0 < bitLen x.toNat) : x.getLsbD (bitLen x.toNat - 1) = true := by
  unfold bitLen at h ⊢
  split at h
  · cases h
  next hx => rw [if_neg hx]; exact Nat.testBit_log2 hx

/-- A word other than zero has a lowest bit that is set. -/
theorem exists_lowest_bit {x : Word} (h : x ≠ 0#64) : ∃ k, x.getLsbD k = true ∧ ∀ j, j < k → x.getLsbD j = false := by
  have hex : ∃ k, x.getLsbD k = true := by
    by_contra hno
    exact h (BitVec.eq_of_getLsbD_eq fun j _ => by simpa using not_exists.mp hno j)
  exact ⟨Nat.find hex, Nat.find_spec hex, fun j hj => by simpa using Nat.find_min hex hj⟩

/-- A word and its negative have only the lowest set bit in common. -/
theorem and_neg_eq_twoPow {x : Word} {k : Nat} (hk : x.getLsbD k = true) (hlow : ∀ j, j < k → x.getLsbD j = false) :
    x &&& (0#64 - x) = BitVec.twoPow 64 k := by
  apply BitVec.eq_of_getLsbD_eq
  intro i hi
  rw [BitVec.zero_sub, BitVec.getLsbD_and, BitVec.getLsbD_neg, BitVec.getLsbD_twoPow]
  obtain hik | rfl | hki := lt_trichotomy i k
  · simp [hlow i hik, hik.ne']
  · have hnone : ¬ ∃ j < i, x.getLsbD j = true := fun ⟨j, hj, hx⟩ => by simp [hlow j hj] at hx
    simp [hk, hnone, hi]
  · have hsome : ∃ j < i, x.getLsbD j = true := ⟨k, hki, hk⟩
    simp [hsome, hi, hki.ne]

/-- The place of the lowest set bit is the number of zero bits below it. -/
theorem ctz64_eq_of_lowest_bit {x : Word} {k : Nat} (hk : x.getLsbD k = true) (hlow : ∀ j, j < k → x.getLsbD j = false) :
    ctz64 x = BitVec.ofNat 64 k := by
  have hx : x ≠ 0#64 := by rintro rfl; simp at hk
  have hpow : 2 ^ k < 2 ^ 64 := Nat.pow_lt_pow_right (by decide) (BitVec.lt_of_getLsbD hk)
  rw [ctz64, if_neg hx, and_neg_eq_twoPow hk hlow, BitVec.toNat_twoPow, Nat.mod_eq_of_lt hpow, Nat.log2_two_pow]

/-- Adding up a list's flags counts them. -/
theorem foldl_add_boolWord (p : Nat → Bool) (l : List Nat) (c : Word) :
    l.foldl (fun acc i => acc + boolWord (p i)) c = c + BitVec.ofNat 64 (l.countP p) := by
  induction l generalizing c with
  | nil => simp
  | cons i l ih =>
    rw [List.foldl_cons, ih, List.countP_cons, BitVec.ofNat_add, BitVec.add_comm (BitVec.ofNat 64 (l.countP p)), BitVec.add_assoc]
    cases p i <;> rfl

/-- POPC is the number of set bits. -/
theorem popc64_eq_countP (x : Word) : popc64 x = BitVec.ofNat 64 ((List.range 64).countP (fun j => x.getLsbD j)) := by
  rw [popc64, foldl_add_boolWord, BitVec.zero_add]

/-- CLZ gives the number of zero bits above the highest one set. -/
theorem yieldsS_clz (s : State) (d a : BitVec 5) :
    ∃ n, n ≤ 64 ∧ (∀ j, 64 - n ≤ j → (s.me.getS a).getLsbD j = false) ∧ (n < 64 → (s.me.getS a).getLsbD (63 - n) = true) ∧
      YieldsS (.clz d a) s d (BitVec.ofNat 64 n) (s.me.pc + 4#64) := by
  have hle := bitLen_toNat_le (s.me.getS a)
  refine ⟨64 - bitLen (s.me.getS a).toNat, Nat.sub_le .., fun j hj => ?_, fun hlt => ?_, yieldsS_of_immResult (exec_clz ..) rfl⟩
  · exact getLsbD_of_bitLen_le (by omega)
  · have hpos : 0 < bitLen (s.me.getS a).toNat := by omega
    rw [show 63 - (64 - bitLen (s.me.getS a).toNat) = bitLen (s.me.getS a).toNat - 1 by omega]
    exact getLsbD_bitLen_sub_one hpos

/-- CTZ gives the number of zero bits below the lowest one set. -/
theorem yieldsS_ctz (s : State) (d a : BitVec 5) :
    ∃ n, n ≤ 64 ∧ (∀ j, j < n → (s.me.getS a).getLsbD j = false) ∧ (n < 64 → (s.me.getS a).getLsbD n = true) ∧
      YieldsS (.ctz d a) s d (BitVec.ofNat 64 n) (s.me.pc + 4#64) := by
  by_cases hA : s.me.getS a = 0#64
  · exact ⟨64, le_rfl, by simp [hA], by simp, yieldsS_of_immResult (exec_ctz ..) (if_pos hA)⟩
  · obtain ⟨k, hk, hlow⟩ := exists_lowest_bit hA
    exact ⟨k, (BitVec.lt_of_getLsbD hk).le, hlow, fun _ => hk, yieldsS_of_immResult (exec_ctz ..) (ctz64_eq_of_lowest_bit hk hlow)⟩

/-! ### Divisions (spec/14_scalar_instructions.md R237) -/

theorem sdiv_eq_ofInt (x y : Word) : x.sdiv y = BitVec.ofInt 64 (x.toInt.tdiv y.toInt) :=
  BitVec.eq_of_toInt_eq (by rw [BitVec.toInt_sdiv, BitVec.toInt_ofInt])

theorem divS_of_eq_zero {y : Word} (x : Word) (h : y = 0#64) : divS x y = BitVec.allOnes 64 := if_pos h
theorem remS_of_eq_zero {y : Word} (x : Word) (h : y = 0#64) : remS x y = x := if_pos h
theorem divU_of_eq_zero {y : Word} (x : Word) (h : y = 0#64) : divU x y = BitVec.allOnes 64 := if_pos h
theorem remU_of_eq_zero {y : Word} (x : Word) (h : y = 0#64) : remU x y = x := if_pos h

theorem divS_of_ne_zero {y : Word} (x : Word) (h : y ≠ 0#64) : divS x y = BitVec.ofInt 64 (x.toInt.tdiv y.toInt) := by
  rw [divS, if_neg h, sdiv_eq_ofInt]

theorem toInt_remS_of_ne_zero {y : Word} (x : Word) (h : y ≠ 0#64) : (remS x y).toInt = x.toInt.tmod y.toInt := by
  rw [remS, if_neg h, BitVec.toInt_srem]

theorem toNat_divU_of_ne_zero {y : Word} (x : Word) (h : y ≠ 0#64) : (divU x y).toNat = x.toNat / y.toNat := by
  rw [divU, if_neg h, BitVec.toNat_udiv]

theorem toNat_remU_of_ne_zero {y : Word} (x : Word) (h : y ≠ 0#64) : (remU x y).toNat = x.toNat % y.toNat := by
  rw [remU, if_neg h, BitVec.toNat_umod]

/-- A = quotient × B + remainder, signed. -/
theorem eq_divS_mul_add_remS (x y : Word) : x = divS x y * y + remS x y := by
  by_cases hy : y = 0#64
  · rw [remS_of_eq_zero x hy, hy, BitVec.mul_zero, BitVec.zero_add]
  · symm
    calc divS x y * y + remS x y
        = BitVec.ofInt 64 (x.toInt.tdiv y.toInt) * BitVec.ofInt 64 y.toInt + BitVec.ofInt 64 (x.toInt.tmod y.toInt) := by
          rw [divS_of_ne_zero x hy, ← toInt_remS_of_ne_zero x hy, BitVec.ofInt_toInt, BitVec.ofInt_toInt]
      _ = BitVec.ofInt 64 (x.toInt.tdiv y.toInt * y.toInt + x.toInt.tmod y.toInt) := by
          rw [BitVec.ofInt_add, BitVec.ofInt_mul]
      _ = x := by rw [Int.tdiv_mul_add_tmod, BitVec.ofInt_toInt]

/-- A = quotient × B + remainder, unsigned. -/
theorem eq_divU_mul_add_remU (x y : Word) : x = divU x y * y + remU x y := by
  by_cases hy : y = 0#64
  · rw [remU_of_eq_zero x hy, hy, BitVec.mul_zero, BitVec.zero_add]
  · apply BitVec.eq_of_toNat_eq
    rw [BitVec.toNat_add, BitVec.toNat_mul, Nat.mod_add_mod, toNat_divU_of_ne_zero x hy, toNat_remU_of_ne_zero x hy,
      Nat.div_add_mod', Nat.mod_eq_of_lt x.isLt]

/-- A signed remainder other than zero has the sign of A. -/
theorem remS_neg_iff {x y : Word} (hy : y ≠ 0#64) (hr : remS x y ≠ 0#64) : (remS x y).toInt < 0 ↔ x.toInt < 0 := by
  have hr0 : x.toInt.tmod y.toInt ≠ 0 := by
    rw [← toInt_remS_of_ne_zero x hy]
    exact fun h => hr (BitVec.eq_of_toInt_eq h)
  rw [toInt_remS_of_ne_zero x hy]
  constructor
  · intro hneg
    by_contra hx
    exact absurd (Int.tmod_nonneg y.toInt (not_lt.mp hx)) (not_le.mpr hneg)
  · intro hx
    have hnn := Int.tmod_nonneg y.toInt (Int.neg_nonneg_of_nonpos hx.le)
    rw [Int.neg_tmod] at hnn
    omega

/-- A signed remainder is smaller in size than B. -/
theorem natAbs_remS_lt {y : Word} (x : Word) (hy : y ≠ 0#64) : (remS x y).toInt.natAbs < y.toInt.natAbs := by
  have hpos : 0 < y.toInt.natAbs := Int.natAbs_pos.mpr fun h => hy (BitVec.eq_of_toInt_eq h)
  rw [toInt_remS_of_ne_zero x hy, Int.natAbs_tmod]
  exact Nat.mod_lt _ hpos

/-! ### LIH (spec/14_scalar_instructions.md R239) -/

/-- A replaced slice reads back, and every other bit is as before. -/
theorem getLsbD_putSlice {n w : Nat} (x : BitVec n) (lo : Nat) (v : BitVec w) {j : Nat} (hj : j < n) :
    (putSlice x lo w v).getLsbD j = if lo ≤ j ∧ j < lo + w then v.getLsbD (j - lo) else x.getLsbD j := by
  have hjlo : j - lo < n := by omega
  simp only [putSlice, BitVec.getLsbD_or, BitVec.getLsbD_and, BitVec.getLsbD_not, BitVec.getLsbD_shiftLeft, BitVec.getLsbD_setWidth,
    BitVec.getLsbD_allOnes, hj, hjlo, decide_true, Bool.true_and]
  by_cases hlo : j < lo
  · simp [hlo, Nat.not_le.mpr hlo]
  · by_cases hhi : j - lo < w
    · simp [hlo, hhi, Nat.not_lt.mp hlo, show j < lo + w by omega]
    · simp [hlo, hhi, show ¬ j < lo + w by omega, BitVec.getLsbD_of_ge v (j - lo) (not_lt.mp hhi)]

/-- The scanner refuses a word of primary opcode 0x08 whose bits 20 to 18 are not zero (spec/13_encoding.md R223). -/
theorem scanWord_lih_limit (m : Word) (v : IWord) (hop : v.toNat / 2 ^ 26 = 0x08) (hpos : v.toNat / 2 ^ 18 % 8 ≠ 0) :
    scanWord m v = .error .limit := by
  have h26 : fld v 26 6 = 8#6 := BitVec.eq_of_toNat_eq (by rw [fld, BitVec.extractLsb'_toNat, Nat.shiftRight_eq_div_pow, hop]; rfl)
  have h18 : (fld v 18 3 == 0#3) = false := beq_false_of_ne fun h =>
    hpos (by simpa [fld, Nat.shiftRight_eq_div_pow] using congrArg BitVec.toNat h)
  have hassigned : opcodeAssigned v = true := by rw [opcodeAssigned, h26]; rfl
  have hfeature : featureOk m v = true := by rw [featureOk, featureBit, h26]; rfl
  rw [scanWord, hassigned, hfeature, Laws.family_Lih h26, decodeLih, h18]; rfl

/-! ### The kind of an immediate shift (spec/14_scalar_instructions.md R240) -/

/-- The ten bits above n are eight zero bits and the kind. -/
theorem append_shift_kind (x : BitVec 16) (n : BitVec 6) {c : BitVec 10} {k : BitVec 2} (h : c = 0#8 ++ k) :
    (x ++ c ++ n : IWord) = x ++ 0#8 ++ k ++ n := by
  have hkind : x ++ c = (x ++ 0#8 ++ k : BitVec 26) := by rw [h, BitVec.append_assoc, BitVec.cast_eq]
  exact congrArg (· ++ n) hkind

theorem encode_slli (d a : BitVec 5) (n : BitVec 6) : encode (.slli d a n) = 0x09#6 ++ d ++ a ++ 0#8 ++ 0#2 ++ n :=
  append_shift_kind (c := 0#10) _ n (by decide)

theorem encode_srli (d a : BitVec 5) (n : BitVec 6) : encode (.srli d a n) = 0x09#6 ++ d ++ a ++ 0#8 ++ 1#2 ++ n :=
  append_shift_kind (c := 1#10) _ n (by decide)

theorem encode_srai (d a : BitVec 5) (n : BitVec 6) : encode (.srai d a n) = 0x09#6 ++ d ++ a ++ 0#8 ++ 2#2 ++ n :=
  append_shift_kind (c := 2#10) _ n (by decide)

/-! ### The statements -/

/-- Settles O1: each form computes the word of its table, by the lemma for its value above. -/
theorem scalarRegisterForms : Obligations.ScalarRegisterForms := by
  unfold Obligations.ScalarRegisterForms
  refine ⟨?_, ?_, ?_⟩
  · rintro s d a b A B rfl rfl
    exact ⟨yieldsS_of_oprResult (exec_add ..) (add_eq_ofNat ..),
      yieldsS_of_oprResult (exec_sub ..) (sub_eq_ofInt ..),
      yieldsS_of_oprResult (exec_and ..) rfl,
      yieldsS_of_oprResult (exec_or ..) rfl,
      yieldsS_of_oprResult (exec_xor ..) rfl,
      yieldsS_of_oprResult (exec_andn ..) rfl,
      yieldsS_of_oprResult (exec_sll ..) (by rw [shamt_eq_mod, shiftLeft_eq_ofNat]),
      yieldsS_of_oprResult (exec_srl ..) (by rw [shamt_eq_mod, ushiftRight_eq_ofNat]),
      yieldsS_of_oprResult (exec_sra ..) (by rw [shamt_eq_mod, sshiftRight_eq_ofInt]),
      yieldsS_of_oprResult (exec_slt ..) (boolWord_slt ..),
      yieldsS_of_oprResult (exec_sltu ..) (boolWord_ult ..),
      yieldsS_of_oprResult (exec_min ..) (ite_slt_eq_min ..),
      yieldsS_of_oprResult (exec_max ..) (ite_slt_eq_max ..),
      yieldsS_of_oprResult (exec_minu ..) (ite_ult_eq_min ..),
      yieldsS_of_oprResult (exec_maxu ..) (ite_ult_eq_max ..),
      yieldsS_of_oprResult (exec_mul ..) (mul_eq_ofNat ..),
      yieldsS_of_oprResult (exec_mulh ..) (mulh_eq_extractLsb' ..),
      yieldsS_of_oprResult (exec_mulhu ..) (mulhu_eq_extractLsb' ..),
      yieldsS_of_scalarResult (exec_csel ..) rfl,
      yieldsS_of_oprResult (exec_addw ..) (sext32_eq_signExtend _),
      yieldsS_of_oprResult (exec_subw ..) (sext32_eq_signExtend _),
      yieldsS_of_oprResult (exec_mulw ..) (sext32_eq_signExtend _)⟩
  · rintro s d a A rfl
    exact ⟨rfl, rfl, rfl, yieldsS_clz s d a, yieldsS_ctz s d a, yieldsS_of_immResult (exec_popc ..) (popc64_eq_countP _)⟩
  · rintro s d a b A B rfl rfl
    exact ⟨_, _, _, _, yieldsS_of_oprResult (exec_div ..) rfl, yieldsS_of_oprResult (exec_rem ..) rfl,
      yieldsS_of_oprResult (exec_divu ..) rfl, yieldsS_of_oprResult (exec_remu ..) rfl,
      eq_divS_mul_add_remS .., eq_divU_mul_add_remU ..,
      fun hz => ⟨divS_of_eq_zero _ hz, remS_of_eq_zero _ hz, divU_of_eq_zero _ hz, remU_of_eq_zero _ hz⟩,
      fun hne => ⟨divS_of_ne_zero _ hne, toInt_remS_of_ne_zero _ hne, remS_neg_iff hne, natAbs_remS_lt _ hne,
        toNat_divU_of_ne_zero _ hne, toNat_remU_of_ne_zero _ hne⟩⟩

/-- Settles O2: each immediate form computes the word of its table, LIH replaces one slice of s[d], and the scanner refuses a
position beyond 3. -/
theorem scalarImmediateForms : Obligations.ScalarImmediateForms := by
  unfold Obligations.ScalarImmediateForms
  refine ⟨?_, ?_⟩
  · rintro s d a i A rfl
    have hze : zext64 i = BitVec.ofNat 64 i.toNat := (BitVec.ofNat_toNat ..).symm
    have hsx : (sext64 i).toInt = i.toInt := BitVec.toInt_signExtend_of_le (by decide)
    exact ⟨yieldsS_of_immResult (exec_addi ..) (add_sext64_eq_ofInt ..),
      yieldsS_of_immResult (exec_andi ..) rfl,
      yieldsS_of_immResult (exec_ori ..) (by rw [hze]),
      yieldsS_of_immResult (exec_xori ..) (by rw [hze]),
      yieldsS_of_immResult (exec_slti ..) (by rw [boolWord_slt, hsx]),
      yieldsS_of_immResult (exec_sltiu ..) (boolWord_ult ..)⟩
  · rintro s d a p i n A rfl
    exact ⟨scanWord_lih_limit, ⟨_, yieldsS_of_scalarResult (exec_lih ..) rfl, fun _ hj => getLsbD_putSlice _ _ i hj⟩,
      encode_slli .., encode_srli .., encode_srai ..,
      yieldsS_of_immResult (exec_slli ..) (shiftLeft_eq_ofNat ..),
      yieldsS_of_immResult (exec_srli ..) (ushiftRight_eq_ofNat ..),
      yieldsS_of_immResult (exec_srai ..) (sshiftRight_eq_ofInt ..)⟩

end Sys2Proof.Machine
end

section
/-! PROOFS. Vector configuration, integer forms, compares and mask forms (spec/15_vector_instructions.md R262 to R264, R276, R277): the
elements and mask bits that each form writes, and that it changes nothing else. -/

namespace Sys2Proof.Machine

open Sys2Proof

/-! ### Slices of a register -/

/-- A replaced slice reads back. -/
theorem slice_putSlice_same {n lo w : Nat} (x : BitVec n) (v : BitVec w) (h : lo + w ≤ n) : slice (putSlice x lo w v) lo w = v := by
  apply BitVec.eq_of_getLsbD_eq
  intro i hi
  rw [slice, BitVec.getLsbD_extractLsb', getLsbD_putSlice x lo v (by omega), if_pos (by omega)]
  simp [hi]

/-- A slice beside the replaced one reads as before. -/
theorem slice_putSlice_apart {n lo w lo' w' : Nat} (x : BitVec n) (v : BitVec w) (h : lo' + w' ≤ n)
    (hapart : lo' + w' ≤ lo ∨ lo + w ≤ lo') : slice (putSlice x lo w v) lo' w' = slice x lo' w' := by
  apply BitVec.eq_of_getLsbD_eq
  intro i hi
  rw [slice, slice, BitVec.getLsbD_extractLsb', BitVec.getLsbD_extractLsb', getLsbD_putSlice x lo v (by omega), if_neg (by omega)]

/-- A replaced bit reads back, and every other bit is as before. -/
theorem getLsbD_putBit {n : Nat} (x : BitVec n) (i : Nat) (b : Bool) {j : Nat} (hj : j < n) :
    (putBit x i b).getLsbD j = if j = i then b else x.getLsbD j := by
  rw [putBit, getLsbD_putSlice x i _ hj]
  by_cases h : j = i
  · subst h; simp
  · rw [if_neg (by omega), if_neg h]

/-! ### Elements of an operand (spec/02_strand_registers.md R27) -/

/-- SEW divides a register. -/
theorem sewBits_dvd (t : Strand) : t.sewBits ∣ 16384 := by
  have hpow : 2 ^ t.sew.toNat ∣ 2 ^ 3 := Nat.pow_dvd_pow 2 (by omega)
  exact (Nat.mul_dvd_mul_left 8 hpow).trans (by decide)

/-- No element crosses the end of a register. -/
theorem elem_inside_register {w : Nat} (hw : w ∣ 16384) (i : Nat) : i * w % 16384 + w ≤ 16384 := by
  obtain ⟨q, hq⟩ := hw
  have hqpos : 0 < q := Nat.pos_of_ne_zero (by rintro rfl; simp at hq)
  have hlt : i % q + 1 ≤ q := Nat.mod_lt i hqpos
  calc i * w % 16384 + w = (i % q + 1) * w := by rw [hq, Nat.mul_comm w q, Nat.mul_mod_mul_right, Nat.succ_mul]
    _ ≤ q * w := Nat.mul_le_mul_right w hlt
    _ = 16384 := by rw [hq, Nat.mul_comm]

/-- Two elements that share a register have no bit in common. -/
theorem elem_apart {w i j : Nat} (hij : i ≠ j) (hreg : i * w / 16384 = j * w / 16384) :
    i * w % 16384 + w ≤ j * w % 16384 ∨ j * w % 16384 + w ≤ i * w % 16384 := by
  have hi := Nat.div_add_mod (i * w) 16384
  have hj := Nat.div_add_mod (j * w) 16384
  rcases Nat.lt_or_gt_of_ne hij with hlt | hgt
  · have := Nat.mul_le_mul_right w (Nat.succ_le_of_lt hlt)
    rw [Nat.succ_mul] at this
    omega
  · have := Nat.mul_le_mul_right w (Nat.succ_le_of_lt hgt)
    rw [Nat.succ_mul] at this
    omega

@[simp] theorem getV_putOp (t : Strand) (o : VOp) (i x n : Nat) : (t.putOp o i x).getV n =
    if n = o.reg + i * o.w / 16384 then putSlice (t.getV n) (i * o.w % 16384) o.w (BitVec.ofNat o.w x) else t.getV n := by
  rw [Strand.putOp, putElem, Strand.getV, tabGet_tabPut]
  split
  next h => rw [h]
  next => rfl

/-- A written element reads back modulo 2^w, and every other element reads as before. -/
theorem elem_putOp {o : VOp} (hw : o.w ∣ 16384) (t : Strand) (i x j : Nat) :
    (t.putOp o i x).elem o j = if j = i then x % 2 ^ o.w else t.elem o j := by
  rw [Strand.elem, getV_putOp]
  by_cases hji : j = i
  · subst hji
    rw [if_pos rfl, if_pos rfl, slice_putSlice_same _ _ (elem_inside_register hw j), BitVec.toNat_ofNat]
  · rw [if_neg hji, Strand.elem]
    split
    next hreg =>
      rw [slice_putSlice_apart _ _ (elem_inside_register hw j) (elem_apart hji (Nat.add_left_cancel hreg))]
    next => rfl

/-! ### Elements written lane by lane -/

theorem putOps_cons (t : Strand) (o : VOp) (p : Nat × Nat) (l : List (Nat × Nat)) :
    t.putOps o (p :: l) = (t.putOp o p.1 p.2).putOps o l := rfl

section

variable {o : VOp} (f : Nat → Nat) (lanes : List Nat) (t : Strand)

theorem elem_putOps (hw : o.w ∣ 16384) (j : Nat) :
    (t.putOps o (lanes.map (fun i => (i, f i)))).elem o j = if j ∈ lanes then f j % 2 ^ o.w else t.elem o j := by
  induction lanes generalizing t with
  | nil => rfl
  | cons i lanes ih =>
    rw [List.map_cons, putOps_cons, ih, elem_putOp hw]
    by_cases hji : j = i
    · subst hji; simp
    · simp [hji]

theorem getV_putOps {n : Nat} (hn : ∀ i ∈ lanes, n ≠ o.reg + i * o.w / 16384) :
    (t.putOps o (lanes.map (fun i => (i, f i)))).getV n = t.getV n := by
  induction lanes generalizing t with
  | nil => rfl
  | cons i lanes ih =>
    rw [List.forall_mem_cons] at hn
    rw [List.map_cons, putOps_cons, ih _ hn.2, getV_putOp, if_neg hn.1]

theorem mem_marks_putOps (m : Mark) : m ∈ (t.putOps o (lanes.map (fun i => (i, f i)))).marks ↔
    m ∈ t.marks ∧ ∀ i ∈ lanes, markHits (o.reg + i * o.w / 16384) (i * o.w % 16384) o.w m = false := by
  induction lanes generalizing t with
  | nil => simp [Strand.putOps]
  | cons i lanes ih =>
    rw [List.map_cons, putOps_cons, ih]
    simp [Strand.putOp, putElem, and_assoc]

/-- Nothing but vector registers and marks differs. -/
theorem putOps_frame (l : List (Nat × Nat)) : ({ t.putOps o l with v := t.v, marks := t.marks } : Strand) = t := by
  induction l generalizing t with
  | nil => rfl
  | cons p l ih =>
    have h := congrArg (fun u : Strand => ({ u with v := t.v, marks := t.marks } : Strand)) (ih (t.putOp o p.1 p.2))
    exact h

/-- The elements of the listed lanes, and no others, are written. -/
theorem laneWrite_putOps (hw : o.w ∣ 16384) {new : Nat → Option Nat}
    (hnew : ∀ j, new j = if j ∈ lanes then some (f j % 2 ^ o.w) else none) :
    LaneWrite t (t.putOps o (lanes.map (fun i => (i, f i)))) o new := by
  have hsome : ∀ j, (new j).isSome ↔ j ∈ lanes := fun j => by rw [hnew]; split <;> simp [*]
  refine ⟨fun j => ?_, fun n hn => ?_, fun m => ?_⟩
  · rw [elem_putOps f lanes t hw, hnew]; split <;> rfl
  · exact getV_putOps f lanes t fun i hi => hn i ((hsome i).mpr hi)
  · simp only [mem_marks_putOps, hsome]

end

/-- The listed lanes of a mask are the active ones (spec/15_vector_instructions.md R258). -/
@[simp] theorem mem_lanes (t : Strand) (k : BitVec 3) (j : Nat) : j ∈ t.lanes k ↔ isActive t k j = true := by
  simp [Strand.lanes, isActive]

/-! ### Forms whose gate is open -/

/-- A strand that has gone on, and that agrees with `u` once some fields are set back. -/
theorem wentOn_of_frame {u r v : Strand} (hframe : r = u) (hv : v = r.next) : WentOn u v (u.pc + 4#64) := by
  rw [hv, hframe]; exact wentOn_next u

theorem vectorForm_go {f : VForm} {s : State} (run : Strand → Strand) (h : vGate s.me f = .go) :
    ∃ t, vectorForm f run s = .next t ∧ OnlyMe s t ∧ t.me = (run s.me).next := by
  refine ⟨s.upd (fun t => (run t).next), ?_, onlyMe_upd s _, me_upd s _⟩
  rw [vectorForm, h]

/-- A form that writes lanes of one operand and nothing else. -/
theorem writesLanes_of_vectorForm {i : Instr} {s : State} {f : VForm} {run : Strand → Strand} {o : VOp} {new : Nat → Option Nat}
    (hexec : exec i s = vectorForm f run s) (hgo : vGate s.me f = .go) (hlanes : LaneWrite s.me (run s.me) o new)
    (hframe : ({ run s.me with v := s.me.v, marks := s.me.marks } : Strand) = s.me) : WritesLanes i s o new := by
  obtain ⟨t, hnext, honly, hme⟩ := vectorForm_go run hgo
  refine ⟨t, hexec.trans hnext, honly, ?_, ?_⟩ <;> rw [hme]
  · exact hlanes
  · exact wentOn_of_frame hframe rfl

/-! ### VCFG (spec/15_vector_instructions.md R262) -/

theorem vlMax_eq (e g : BitVec 2) : vlMax e g = 2048 * 2 ^ g.toNat / 2 ^ e.toNat := by
  rw [vlMax, show 16384 * 2 ^ g.toNat = 8 * (2048 * 2 ^ g.toNat) by omega, Nat.mul_div_mul_left _ _ (by decide)]

/-- A combination that the scanner accepts has at most 2,048 elements. -/
theorem vlMax_le {e g : BitVec 2} (h : g ≤ e) : vlMax e g ≤ 2048 := by
  rw [vlMax_eq]
  refine Nat.div_le_of_le_mul ?_
  rw [Nat.mul_comm]
  exact Nat.mul_le_mul_right 2048 (Nat.pow_le_pow_right (by decide) h)

/-- The VL that a request gives: VLMAX where the field a is 0. -/
theorem requested_vl (a : BitVec 5) (x m : Nat) : min (if a = 0#5 then m else x) m = if a = 0#5 then m else min x m := by
  split
  · exact min_self m
  · rfl

/-- The strand with another vector configuration. -/
def Strand.configure (t : Strand) (vl : Nat) (e g : BitVec 2) : Strand := { t with vl := BitVec.ofNat 12 vl, sew := e, gm := g }

theorem exec_vcfg (s : State) (d a : BitVec 5) (g e : BitVec 2) :
    let vl := min (if a = 0#5 then vlMax e g else (s.me.getS a).toNat) (vlMax e g)
    exec (.vcfg d a g e) s = .next (s.upd (fun t => ((t.configure vl e g).setS d (BitVec.ofNat 64 vl)).next)) := rfl

/-- But for the configuration, a strand that is configured, writes s[d] and goes on differs from one that writes s[d] and goes on in
nothing. -/
theorem configure_setS_frame (t : Strand) (vl : Nat) (e g : BitVec 2) (d : BitVec 5) (x : Word) :
    ({ ((t.configure vl e g).setS d x).next with vl := t.vl, sew := t.sew, gm := t.gm } : Strand) = (t.setS d x).goto (t.pc + 4#64) := by
  unfold Strand.setS; split <;> rfl

/-- Settles O15: VL fits its field, since VLMAX is at most 2,048. -/
theorem vectorConfiguration : Obligations.VectorConfiguration := by
  unfold Obligations.VectorConfiguration
  intro s d a g e m vl hge
  have hmax : vlMax e g = m := vlMax_eq e g
  have hvl : min (if a = 0#5 then vlMax e g else (s.me.getS a).toNat) (vlMax e g) = vl := by rw [hmax, requested_vl]
  have hfit : vl < 2 ^ 12 := by
    rw [← hvl]
    exact (min_le_right _ _).trans_lt ((vlMax_le hge).trans_lt (by decide))
  have hexec := exec_vcfg s d a g e
  rw [hvl] at hexec
  refine ⟨_, hexec, onlyMe_upd s _, ?_, ?_, ?_, ?_⟩ <;> rw [me_upd]
  · rw [Strand.next_vl, Strand.setS_vl]; exact (BitVec.toNat_ofNat ..).trans (Nat.mod_eq_of_lt hfit)
  · rw [Strand.next_sew, Strand.setS_sew]; rfl
  · rw [Strand.next_gm, Strand.setS_gm]; rfl
  · rw [configure_setS_frame]; exact wroteS_goto ..

/-! ### The values of the integer forms (spec/15_vector_instructions.md R263), for every width -/

theorem wrapInt_eq_toNat_ofInt (w : Nat) (x : Int) : wrapInt w x = (BitVec.ofInt w x).toNat := by rw [wrapInt, BitVec.toNat_ofInt]

section

variable {w : Nat} (x y : BitVec w)

theorem signedOf_toNat : signedOf w x.toNat = x.toInt := by
  rw [signedOf, Nat.mod_eq_of_lt x.isLt, BitVec.toInt_eq_toNat_cond]

theorem sub_toNat : (x.toNat + 2 ^ w - y.toNat) % 2 ^ w = (x - y).toNat := by
  rw [BitVec.toNat_sub, Nat.add_comm, Nat.sub_add_comm y.isLt.le]

/-- The upper half of an integer of twice the width. -/
theorem extractLsb'_ofInt_upper (k : Int) : (BitVec.ofInt (2 * w) k).extractLsb' w w = BitVec.ofInt w (k / (2 ^ w : Nat)) := by
  have hpow : (0 : Int) < (2 ^ w : Nat) := by positivity
  have hdiv : k % ((2 ^ w * 2 ^ w : Nat) : Int) / (2 ^ w : Nat) = k / (2 ^ w : Nat) % (2 ^ w : Nat) := by
    rw [Nat.cast_mul, Int.emod_def, Int.emod_def, Int.ediv_ediv_of_nonneg hpow.le, mul_assoc, Int.sub_mul_ediv_left _ _ hpow.ne']
  obtain ⟨n, hn⟩ := Int.eq_ofNat_of_zero_le (Int.emod_nonneg k (b := (2 ^ w * 2 ^ w : Nat)) (by positivity))
  have hlt : n < 2 ^ w * 2 ^ w := by
    have := Int.emod_lt_of_pos k (b := (2 ^ w * 2 ^ w : Nat)) (by positivity)
    rw [hn] at this; exact_mod_cast this
  apply BitVec.eq_of_toNat_eq
  rw [BitVec.extractLsb'_toNat, Nat.shiftRight_eq_div_pow, BitVec.toNat_ofInt, BitVec.toNat_ofInt, Nat.two_mul, Nat.pow_add, ← hdiv, hn,
    Int.toNat_natCast, Nat.mod_eq_of_lt (Nat.div_lt_of_lt_mul hlt), ← Int.natCast_div, Int.toNat_natCast]

theorem mulHigh_toNat :
    mulHigh w x.toNat y.toNat = ((x.signExtend (2 * w) * y.signExtend (2 * w)).extractLsb' w w).toNat := by
  have hprod : x.signExtend (2 * w) * y.signExtend (2 * w) = BitVec.ofInt (2 * w) (x.toInt * y.toInt) := (BitVec.ofInt_mul ..).symm
  rw [hprod, extractLsb'_ofInt_upper, mulHigh, signedOf_toNat, signedOf_toNat, wrapInt_eq_toNat_ofInt]

theorem andn_toNat : x.toNat &&& (2 ^ w - 1 - y.toNat) = (x &&& ~~~y).toNat := by rw [BitVec.toNat_and, BitVec.toNat_not]

theorem sll_toNat (n : Nat) : x.toNat * 2 ^ n % 2 ^ w = (x <<< n).toNat := by rw [BitVec.toNat_shiftLeft, Nat.shiftLeft_eq]

theorem srl_toNat (n : Nat) : x.toNat / 2 ^ n = (x >>> n).toNat := by rw [BitVec.toNat_ushiftRight, Nat.shiftRight_eq_div_pow]

theorem sraNat_toNat (n : Nat) : sraNat w x.toNat n = (x.sshiftRight n).toNat := by
  rw [sraNat, signedOf_toNat, wrapInt_eq_toNat_ofInt, BitVec.sshiftRight, Int.shiftRight_eq_div_pow]

theorem smin_toNat : (if signedOf w y.toNat < signedOf w x.toNat then y.toNat else x.toNat) =
    (if y.toInt < x.toInt then y else x).toNat := by
  rw [signedOf_toNat, signedOf_toNat, apply_ite BitVec.toNat]

theorem smax_toNat : (if signedOf w x.toNat < signedOf w y.toNat then y.toNat else x.toNat) =
    (if x.toInt < y.toInt then y else x).toNat := by
  rw [signedOf_toNat, signedOf_toNat, apply_ite BitVec.toNat]

theorem umin_toNat : min x.toNat y.toNat = (if y.toNat < x.toNat then y else x).toNat := by
  rw [apply_ite BitVec.toNat, min_comm, min_def_lt]

theorem umax_toNat : max x.toNat y.toNat = (if x.toNat < y.toNat then y else x).toNat := by
  rw [apply_ite BitVec.toNat, max_def_lt]

end

/-! ### Integer forms of two vectors -/

section

variable (s : State) (d a b : BitVec 5) (x y : BitVec 1) (k : BitVec 3)

theorem exec_vadd : exec (.vadd d a b x y k) s = vintForm (fun w x y => (x + y) % 2 ^ w) d a b k s := rfl
theorem exec_vsub : exec (.vsub d a b x y k) s = vintForm (fun w x y => (x + 2 ^ w - y) % 2 ^ w) d a b k s := rfl
theorem exec_vmul : exec (.vmul d a b x y k) s = vintForm (fun w x y => x * y % 2 ^ w) d a b k s := rfl
theorem exec_vmulh : exec (.vmulh d a b x y k) s = vintForm mulHigh d a b k s := rfl
theorem exec_vand : exec (.vand d a b x y k) s = vintForm (fun _ x y => x &&& y) d a b k s := rfl
theorem exec_vor : exec (.vor d a b x y k) s = vintForm (fun _ x y => x ||| y) d a b k s := rfl
theorem exec_vxor : exec (.vxor d a b x y k) s = vintForm (fun _ x y => x ^^^ y) d a b k s := rfl
theorem exec_vandn : exec (.vandn d a b x y k) s = vintForm (fun w x y => x &&& (2 ^ w - 1 - y)) d a b k s := rfl
theorem exec_vsll : exec (.vsll d a b x y k) s = vintForm (fun w x y => x * 2 ^ (y % w) % 2 ^ w) d a b k s := rfl
theorem exec_vsrl : exec (.vsrl d a b x y k) s = vintForm (fun w x y => x / 2 ^ (y % w)) d a b k s := rfl
theorem exec_vsra : exec (.vsra d a b x y k) s = vintForm (fun w x y => sraNat w x (y % w)) d a b k s := rfl
theorem exec_vmin : exec (.vmin d a b x y k) s = vintForm (fun w x y => if signedOf w y < signedOf w x then y else x) d a b k s := rfl
theorem exec_vmax : exec (.vmax d a b x y k) s = vintForm (fun w x y => if signedOf w x < signedOf w y then y else x) d a b k s := rfl
theorem exec_vminu : exec (.vminu d a b x y k) s = vintForm (fun _ x y => min x y) d a b k s := rfl
theorem exec_vmaxu : exec (.vmaxu d a b x y k) s = vintForm (fun _ x y => max x y) d a b k s := rfl

end

theorem elem_lt (t : Strand) (o : VOp) (j : Nat) : t.elem o j < 2 ^ o.w := BitVec.isLt _

/-- An element is the number of a word of its width. -/
theorem toNat_ofNat_elem (t : Strand) (o : VOp) (j : Nat) : (BitVec.ofNat o.w (t.elem o j)).toNat = t.elem o j := by
  rw [BitVec.toNat_ofNat, Nat.mod_eq_of_lt (elem_lt t o j)]

/-- A function of words applied to the elements of two operands. -/
theorem elem_values {α : Type} {g : Nat → Nat → Nat → α} {f : (w : Nat) → BitVec w → BitVec w → α}
    (h : ∀ (w : Nat) (x y : BitVec w), g w x.toNat y.toNat = f w x y) (t : Strand) (a b : BitVec 5) (j : Nat) :
    g t.sewBits (t.elem (t.sewOp a) j) (t.elem (t.sewOp b) j) =
      f t.sewBits (BitVec.ofNat _ (t.elem (t.sewOp a) j)) (BitVec.ofNat _ (t.elem (t.sewOp b) j)) := by
  rw [← h]
  exact congrArg₂ (g _) (toNat_ofNat_elem t (t.sewOp a) j).symm (toNat_ofNat_elem t (t.sewOp b) j).symm

/-- What an integer form of two vectors gives each active lane. -/
def activeValues (t : Strand) (a b : BitVec 5) (k : BitVec 3) (f : (w : Nat) → BitVec w → BitVec w → BitVec w) (j : Nat) :
    Option Nat :=
  if isActive t k j then
    some (f t.sewBits (BitVec.ofNat _ (t.elem (t.sewOp a) j)) (BitVec.ofNat _ (t.elem (t.sewOp b) j))).toNat
  else none

/-- An integer form writes the active elements with `f A B`. -/
theorem writesLanes_of_vintForm {i : Instr} {s : State} {d a b : BitVec 5} {k : BitVec 3} {g : Nat → Nat → Nat → Nat}
    {f : (w : Nat) → BitVec w → BitVec w → BitVec w} (hgo : vGate s.me (sewForm s.me [a, b] d k) = .go)
    (hexec : exec i s = vintForm g d a b k s) (hval : ∀ (w : Nat) (x y : BitVec w), g w x.toNat y.toNat = (f w x y).toNat) :
    WritesLanes i s (s.me.sewOp d) (activeValues s.me a b k f) := by
  refine writesLanes_of_vectorForm hexec hgo (laneWrite_putOps _ _ _ (sewBits_dvd s.me) fun j => ?_) (putOps_frame s.me _)
  simp only [mem_lanes, activeValues, elem_values (f := fun w x y => (f w x y).toNat) hval]
  rw [Nat.mod_eq_of_lt]
  exact BitVec.isLt _

/-! ### VADDS -/

/-- The signed sum of two elements. -/
def laneSum (t : Strand) (a b : BitVec 5) (j : Nat) : Int :=
  (BitVec.ofNat t.sewBits (t.elem (t.sewOp a) j)).toInt + (BitVec.ofNat t.sewBits (t.elem (t.sewOp b) j)).toInt

/-- The sum in the bounds of SEW-bit integers. -/
def laneClamped (t : Strand) (a b : BitVec 5) (j : Nat) : Int :=
  max (-(2 ^ (t.sewBits - 1))) (min (2 ^ (t.sewBits - 1) - 1) (laneSum t a b j))

theorem signedOf_elem (t : Strand) (r : BitVec 5) (j : Nat) :
    signedOf t.sewBits (t.elem (t.sewOp r) j) = (BitVec.ofNat t.sewBits (t.elem (t.sewOp r) j)).toInt := by
  rw [← signedOf_toNat]
  exact congrArg _ (toNat_ofNat_elem t (t.sewOp r) j).symm

theorem addSat_elem (t : Strand) (a b : BitVec 5) (j : Nat) :
    addSat t.sewBits (t.elem (t.sewOp a) j) (t.elem (t.sewOp b) j) = laneClamped t a b j := by
  rw [addSat, signedOf_elem, signedOf_elem]; rfl

theorem signedSum_elem (t : Strand) (a b : BitVec 5) (j : Nat) :
    signedOf t.sewBits (t.elem (t.sewOp a) j) + signedOf t.sewBits (t.elem (t.sewOp b) j) = laneSum t a b j := by
  rw [signedOf_elem, signedOf_elem]; rfl

/-- What VADDS does to the strand. -/
def runVadds (d a b : BitVec 5) (k : BitVec 3) (t : Strand) : Strand :=
  (t.putOps (t.sewOp d) ((t.lanes k).map (fun j => (j, (BitVec.ofInt t.sewBits (laneClamped t a b j)).toNat)))).setFlags
    (if (t.lanes k).any (fun j => decide (laneClamped t a b j ≠ laneSum t a b j)) then 16#5 else 0#5)

theorem exec_vadds (s : State) (d a b : BitVec 5) (x y : BitVec 1) (k : BitVec 3) :
    exec (.vadds d a b x y k) s = vectorForm (sewForm s.me [a, b] d k) (runVadds d a b k) s := by
  change vectorForm _ _ s = _
  refine congrArg₂ (fun f run => vectorForm f run s) rfl (funext fun t => ?_)
  simp only [List.map_map, List.any_map, Function.comp_def, addSat_elem, signedSum_elem, wrapInt_eq_toNat_ofInt, runVadds, flIf, flSAT,
    bne, ne_eq, decide_not, beq_eq_decide]

/-- The frame of a form that writes lanes and flags. -/
theorem putOps_setFlags_frame (t : Strand) (o : VOp) (l : List (Nat × Nat)) (fl : Flags) :
    ({ (t.putOps o l).setFlags fl with v := t.v, marks := t.marks, vstat := t.vstat } : Strand) = t := by
  have h := congrArg (fun u : Strand => { u with vstat := t.vstat }) (putOps_frame t l (o := o))
  exact h

theorem putOps_vstat (t : Strand) (o : VOp) (l : List (Nat × Nat)) : (t.putOps o l).vstat = t.vstat :=
  have h := congrArg Strand.vstat (putOps_frame t l (o := o))
  h

/-- VADDS writes the clamped sums, and sets SAT when an active one was clamped. -/
theorem vadds_writes {s : State} {d a b : BitVec 5} {k : BitVec 3} (x y : BitVec 1) (hgo : vGate s.me (sewForm s.me [a, b] d k) = .go) :
    ∃ t, exec (.vadds d a b x y k) s = .next t ∧ OnlyMe s t ∧
      LaneWrite s.me t.me (s.me.sewOp d)
        (fun j => if isActive s.me k j then some (BitVec.ofInt s.me.sewBits (laneClamped s.me a b j)).toNat else none) ∧
      (t.me.vstat = s.me.vstat |||
        (if (s.me.lanes k).any (fun j => decide (laneClamped s.me a b j ≠ laneSum s.me a b j)) then 16#5 else 0#5)) ∧
      WentOn s.me { t.me with v := s.me.v, marks := s.me.marks, vstat := s.me.vstat } (s.me.pc + 4#64) := by
  obtain ⟨t, hnext, honly, hme⟩ := vectorForm_go (runVadds d a b k) hgo
  refine ⟨t, (exec_vadds ..).trans hnext, honly, ?_, ?_, ?_⟩ <;> rw [hme]
  · refine laneWrite_putOps _ _ _ (sewBits_dvd s.me) fun j => ?_
    simp only [mem_lanes, Strand.sewOp, Nat.mod_eq_of_lt (BitVec.isLt _)]
  · exact congrArg (· ||| _) (putOps_vstat ..)
  · exact wentOn_of_frame (putOps_setFlags_frame ..) rfl

/-- Settles O16: each form writes its active lanes with the value of its row in the table of R263, by the lemma for that value above. -/
theorem vectorIntegerForms : Obligations.VectorIntegerForms := by
  unfold Obligations.VectorIntegerForms
  refine ⟨fun s d a b x y k hgo => ?_, fun s d a b x y k hgo => vadds_writes x y hgo⟩
  -- `activeValues` names the row's function, so that each row is one application of the rule
  intro p
  change _ → WritesLanes (p.1 d a b x y k) s (s.me.sewOp d) (activeValues s.me a b k p.2)
  revert p
  simp only [List.forall_mem_cons]
  exact ⟨writesLanes_of_vintForm hgo (exec_vadd ..) fun _ X Y => (BitVec.toNat_add X Y).symm,
    writesLanes_of_vintForm hgo (exec_vsub ..) fun _ => sub_toNat,
    writesLanes_of_vintForm hgo (exec_vmul ..) fun _ X Y => (BitVec.toNat_mul X Y).symm,
    writesLanes_of_vintForm hgo (exec_vmulh ..) fun _ => mulHigh_toNat,
    writesLanes_of_vintForm hgo (exec_vand ..) fun _ X Y => (BitVec.toNat_and X Y).symm,
    writesLanes_of_vintForm hgo (exec_vor ..) fun _ X Y => (BitVec.toNat_or X Y).symm,
    writesLanes_of_vintForm hgo (exec_vxor ..) fun _ X Y => (BitVec.toNat_xor X Y).symm,
    writesLanes_of_vintForm hgo (exec_vandn ..) fun _ => andn_toNat,
    writesLanes_of_vintForm hgo (exec_vsll ..) fun _ X _ => sll_toNat X _,
    writesLanes_of_vintForm hgo (exec_vsrl ..) fun _ X _ => srl_toNat X _,
    writesLanes_of_vintForm hgo (exec_vsra ..) fun _ X _ => sraNat_toNat X _,
    writesLanes_of_vintForm hgo (exec_vmin ..) fun _ => smin_toNat,
    writesLanes_of_vintForm hgo (exec_vmax ..) fun _ => smax_toNat,
    writesLanes_of_vintForm hgo (exec_vminu ..) fun _ => umin_toNat,
    writesLanes_of_vintForm hgo (exec_vmaxu ..) fun _ => umax_toNat,
    List.forall_mem_nil _⟩

/-! ### Mask bits written lane by lane (spec/02_strand_registers.md R32) -/

theorem getLsbD_putLanes_bits (f : Nat → Bool) (lanes : List Nat) (m : KReg) {j : Nat} (hj : j < 2048) :
    ((lanes.map (fun i => (i, f i))).foldl (fun m p => putBit m p.1 p.2) m).getLsbD j = if j ∈ lanes then f j else m.getLsbD j := by
  induction lanes generalizing m with
  | nil => rfl
  | cons i lanes ih =>
    rw [List.map_cons, List.foldl_cons, ih, getLsbD_putBit _ _ _ hj]
    by_cases hji : j = i
    · subst hji; simp
    · simp [hji]

/-- The frame of a form that writes a mask register and flags. -/
theorem setK_setFlags_frame (t : Strand) (n : Nat) (x : KReg) (fl : Flags) :
    ({ (t.setK n x).setFlags fl with k := t.k, badK := t.badK, vstat := t.vstat } : Strand) = t := by
  unfold Strand.setK; split <;> rfl

@[simp] theorem setFlags_zero (t : Strand) : t.setFlags 0#5 = t := by simp [Strand.setFlags]

@[simp] theorem getK_setFlags (t : Strand) (fl : Flags) (n : Nat) : (t.setFlags fl).getK n = t.getK n := rfl

/-- A form whose run is one write of mask register d, with flags. -/
theorem writesMask_of_vectorForm {i : Instr} {s : State} {f : VForm} {run : Strand → Strand} {d : BitVec 3} {x : KReg} {fl : Flags}
    {new : Nat → Option Bool} (hexec : exec i s = vectorForm f run s) (hgo : vGate s.me f = .go)
    (hrun : run s.me = (s.me.setK d.toNat x).setFlags fl)
    (hbits : ∀ j, j < 2048 → x.getLsbD j = (new j).getD ((s.me.getK d.toNat).getLsbD j)) : WritesMask i s d new fl := by
  obtain ⟨t, hnext, honly, hme⟩ := vectorForm_go run hgo
  rw [hrun] at hme
  have hzero : d = 0#3 ↔ d.toNat = 0 := ⟨fun h => by rw [h]; rfl, fun h => BitVec.eq_of_toNat_eq h⟩
  refine ⟨t, hexec.trans hnext, honly, fun hd j hj => ?_, fun n hn => ?_, ?_, ?_⟩ <;> rw [hme]
  · rw [getK_next, getK_setFlags, getK_setK, if_pos ⟨rfl, mt hzero.mpr hd⟩, hbits j hj]
  · rw [getK_next, getK_setFlags, getK_setK, if_neg fun h => hn.elim (absurd h.1) fun h0 => h.2 (hzero.mp h0)]
  · exact congrArg (· ||| fl) (Strand.setK_vstat ..)
  · exact wentOn_of_frame (setK_setFlags_frame ..) rfl

/-- A form that writes one bit for each active lane, with flags. -/
theorem writesMask_of_putLanes {i : Instr} {s : State} {f : VForm} {run : Strand → Strand} {d k : BitVec 3}
    {test : Nat → Bool} {fl : Flags}
    (hexec : exec i s = vectorForm f run s) (hgo : vGate s.me f = .go)
    (hrun : run s.me = (s.me.putLanes d ((s.me.lanes k).map (fun j => (j, test j)))).setFlags fl) :
    WritesMask i s d (fun j => if isActive s.me k j then some (test j) else none) fl := by
  refine writesMask_of_vectorForm hexec hgo hrun fun j hj => ?_
  simp only [getLsbD_putLanes_bits _ _ _ hj, mem_lanes]
  split <;> rfl

/-! ### Compares (spec/15_vector_instructions.md R264) -/

section

variable (s : State) (d : BitVec 3) (a b : BitVec 5) (x y : BitVec 1) (k fs : BitVec 3)

theorem exec_vcmpEq : exec (.vcmpEq d a b x y k) s = vcmpForm (fun _ x y => x == y) d a b k s := rfl
theorem exec_vcmpNe : exec (.vcmpNe d a b x y k) s = vcmpForm (fun _ x y => x != y) d a b k s := rfl
theorem exec_vcmpLt : exec (.vcmpLt d a b x y k) s = vcmpForm (fun w x y => decide (signedOf w x < signedOf w y)) d a b k s := rfl
theorem exec_vcmpLe : exec (.vcmpLe d a b x y k) s = vcmpForm (fun w x y => decide (signedOf w x ≤ signedOf w y)) d a b k s := rfl
theorem exec_vcmpLtu : exec (.vcmpLtu d a b x y k) s = vcmpForm (fun _ x y => decide (x < y)) d a b k s := rfl
theorem exec_vcmpLeu : exec (.vcmpLeu d a b x y k) s = vcmpForm (fun _ x y => decide (x ≤ y)) d a b k s := rfl
theorem exec_vcmpFeq : exec (.vcmpFeq d a b x y k fs) s =
    vfcmpForm (fun x y => (eqV x y, flIf (x.isSig || y.isSig) flNV)) d a b k fs s := rfl
theorem exec_vcmpFlt : exec (.vcmpFlt d a b x y k fs) s =
    vfcmpForm (fun x y => (ltV x y, flIf (x.isNan || y.isNan) flNV)) d a b k fs s := rfl

end

/-- What a compare of two vectors gives each active lane. -/
def activeTests (t : Strand) (a b : BitVec 5) (k : BitVec 3) (f : (w : Nat) → BitVec w → BitVec w → Bool) (j : Nat) : Option Bool :=
  if isActive t k j then
    some (f t.sewBits (BitVec.ofNat _ (t.elem (t.sewOp a) j)) (BitVec.ofNat _ (t.elem (t.sewOp b) j)))
  else none

/-- An integer compare writes the bits of active lanes with `f A B`. -/
theorem writesMask_of_vcmpForm {i : Instr} {s : State} {d : BitVec 3} {a b : BitVec 5} {k : BitVec 3} {g : Nat → Nat → Nat → Bool}
    {f : (w : Nat) → BitVec w → BitVec w → Bool}
    (hgo : vGate s.me ⟨[s.me.sewOp a, s.me.sewOp b], [], [], [], [k.toNat], [d.toNat]⟩ = .go)
    (hexec : exec i s = vcmpForm g d a b k s) (hval : ∀ (w : Nat) (x y : BitVec w), g w x.toNat y.toNat = f w x y) :
    WritesMask i s d (activeTests s.me a b k f) 0#5 := by
  refine writesMask_of_putLanes hexec hgo ?_
  simp only [setFlags_zero, elem_values hval]

theorem beq_toNat {w : Nat} (x y : BitVec w) : (x.toNat == y.toNat) = decide (x = y) := by
  rw [beq_eq_decide]; exact decide_eq_decide.mpr BitVec.toNat_inj

/-- A floating form that may run passes its checks (spec/15_vector_instructions.md R260, R261). -/
theorem floatForm_of_ready {s : State} {word : Word} {ops : List FOp} {more : VForm} (run : Strand → Strand)
    (h : FloatReady s.me word ops more) : floatForm word ops more run s =
      vectorForm { more with
        srcs := (ops.filter FOp.read).map (fun o => o.op s.me) ++ more.srcs
        dsts := (ops.filter FOp.write).map (fun o => o.op s.me) ++ more.dsts } run s := by
  obtain ⟨hword, hcodes, hmore, hgroups, -⟩ := h
  have hgrouped : ((ops.filter (fun o => (codeWidth o.code).isSome)).any (fun o => !s.me.grouped (o.op s.me)) ||
      (more.srcs ++ more.dsts).any (fun o => !s.me.grouped o)) = false := by
    rw [Bool.or_eq_false_iff, List.any_eq_false, List.any_eq_false]
    refine ⟨fun o ho => ?_, fun o ho => by simp [List.all_eq_true.mp hmore o ho]⟩
    obtain ⟨hmem, hcode⟩ := List.mem_filter.mp ho
    simp [hgroups o hmem hcode]
  have hformat : (!fwOk word || ops.any (fun o => !o.ok)) = false := by
    rw [Bool.or_eq_false_iff, List.any_eq_false]
    exact ⟨by rw [hword]; rfl, fun o ho => by simp [hcodes o ho]⟩
  rw [floatForm]
  simp only [hgrouped, hformat, Bool.false_eq_true, if_false]

/-- The flags of lanes that each set `fl` or none. -/
theorem flagsOr_flIf (p : Nat → Bool) (fl : Flags) (lanes : List Nat) :
    flagsOr (lanes.map (fun j => flIf (p j) fl)) = if lanes.any p then fl else 0#5 := by
  have hfold : ∀ c : Flags, (lanes.map (fun j => flIf (p j) fl)).foldl (fun a b => a ||| b) c =
      c ||| if lanes.any p then fl else 0#5 := by
    induction lanes with
    | nil => simp
    | cons j lanes ih =>
      intro c
      rw [List.map_cons, List.foldl_cons, ih, List.any_cons, BitVec.or_assoc]
      cases hj : p j
      · simp [flIf]
      · cases lanes.any p <;> simp [flIf]
  exact (hfold 0#5).trans BitVec.zero_or

/-- A floating compare writes the bits of active lanes with `f A B`, and sets NV when an active lane does. -/
theorem writesMask_of_vfcmpForm {i : Instr} {s : State} {d : BitVec 3} {a b : BitVec 5} {k fs : BitVec 3}
    {test invalid : FVal → FVal → Bool}
    {w : Word} {A B : Nat → FVal} (hw : s.me.formatWord fs = w)
    (hA : A = s.me.fval a (fwFA w) (fwZA w) (w.getLsbD 28)) (hB : B = s.me.fval b (fwFB w) (fwZB w) (w.getLsbD 28))
    (hready : FloatReady s.me w [⟨a, fwFA w, isSourceCode (fwFA w), true, false⟩, ⟨b, fwFB w, isSourceCode (fwFB w), true, false⟩]
      { maskOnly k (scaleReads (fwFA w) (fwZA w) ++ scaleReads (fwFB w) (fwZB w)) with kw := [d.toNat] })
    (hexec : exec i s = vfcmpForm (fun x y => (test x y, flIf (invalid x y) flNV)) d a b k fs s) :
    WritesMask i s d (fun j => if isActive s.me k j then some (test (A j) (B j)) else none)
      (if (s.me.lanes k).any (fun j => invalid (A j) (B j)) then 1#5 else 0#5) := by
  subst hw hA hB
  refine writesMask_of_putLanes (hexec.trans (floatForm_of_ready _ hready)) hready.2.2.2.2 ?_
  simp only [List.map_map, Function.comp_def, flagsOr_flIf]
  rfl

/-- Settles O18: every compare is one write of the bits of its active lanes, and FloatReady opens the checks of the floating ones. -/
theorem vectorCompares : Obligations.VectorCompares := by
  unfold Obligations.VectorCompares
  refine ⟨fun s d a b x y k hgo => ?_, ?_⟩
  · intro p
    change _ → WritesMask (p.1 d a b x y k) s d (activeTests s.me a b k p.2) 0#5
    revert p
    simp only [List.forall_mem_cons]
    exact ⟨writesMask_of_vcmpForm hgo (exec_vcmpEq ..) fun _ => beq_toNat,
      writesMask_of_vcmpForm hgo (exec_vcmpNe ..) fun _ X Y => by rw [bne, beq_toNat, decide_not],
      writesMask_of_vcmpForm hgo (exec_vcmpLt ..) fun _ X Y => by rw [signedOf_toNat, signedOf_toNat],
      writesMask_of_vcmpForm hgo (exec_vcmpLe ..) fun _ X Y => by rw [signedOf_toNat, signedOf_toNat],
      writesMask_of_vcmpForm hgo (exec_vcmpLtu ..) fun _ _ _ => rfl,
      writesMask_of_vcmpForm hgo (exec_vcmpLeu ..) fun _ _ _ => rfl,
      List.forall_mem_nil _⟩
  · intro s d a b x y k fs w A B hready
    exact ⟨writesMask_of_vfcmpForm rfl rfl rfl hready (exec_vcmpFeq ..), writesMask_of_vfcmpForm rfl rfl rfl hready (exec_vcmpFlt ..)⟩

/-! ### Mask forms (spec/15_vector_instructions.md R276, R277) -/

section

variable (s : State) (r : BitVec 5) (d a b : BitVec 3)

theorem exec_kand : exec (.kand d a b) s = kForm (fun x y => x &&& y) d a b s := rfl
theorem exec_kor : exec (.kor d a b) s = kForm (fun x y => x ||| y) d a b s := rfl
theorem exec_kxor : exec (.kxor d a b) s = kForm (fun x y => x ^^^ y) d a b s := rfl
theorem exec_kandn : exec (.kandn d a b) s = kForm (fun x y => x &&& ~~~y) d a b s := rfl
theorem exec_kbrka : exec (.kbrka d a) s = kForm (fun x _ => breakMask s.me false x) d a a s := rfl
theorem exec_kbrki : exec (.kbrki d a) s = kForm (fun x _ => breakMask s.me true x) d a a s := rfl
theorem exec_kpopc : exec (.kpopc r a) s =
    vectorForm ⟨[], [], [], [], [a.toNat], []⟩ (fun t => t.setS r (BitVec.ofNat 64 (t.lanes a).length)) s := rfl
theorem exec_kfirst : exec (.kfirst r a) s = vectorForm ⟨[], [], [], [], [a.toNat], []⟩ (fun t =>
    t.setS r (match t.lowest (t.getK a.toNat) with
      | some i => BitVec.ofNat 64 i
      | none => BitVec.allOnes 64)) s := rfl

end

/-- A mask of ones below a bound. -/
theorem getLsbD_ones (n : Nat) {j : Nat} (hj : j < 2048) : (BitVec.ofNat 2048 (2 ^ n - 1)).getLsbD j = decide (j < n) := by
  rw [BitVec.getLsbD_ofNat, Nat.testBit_two_pow_sub_one, decide_eq_true hj, Bool.true_and]

/-- A form that writes a mask register gives the bits below VL. -/
theorem writesMask_of_kForm {i : Instr} {s : State} {d a b : BitVec 3} {f : KReg → KReg → KReg} {bit : Nat → Bool}
    (hgo : vGate s.me ⟨[], [], [], [], [a.toNat, b.toNat], [d.toNat]⟩ = .go) (hexec : exec i s = kForm f d a b s)
    (hbit : ∀ j, j < 2048 → j < s.me.vl.toNat → (f (s.me.getK a.toNat) (s.me.getK b.toNat)).getLsbD j = bit j) :
    WritesMask i s d (fun j => if j < s.me.vl.toNat then some (bit j) else none) 0#5 := by
  refine writesMask_of_vectorForm hexec hgo (setFlags_zero _).symm fun j hj => ?_
  rw [Strand.belowVl, BitVec.getLsbD_or, BitVec.getLsbD_and, BitVec.getLsbD_and, BitVec.getLsbD_not, getLsbD_ones _ hj, decide_eq_true hj]
  by_cases hvl : j < s.me.vl.toNat
  · simp [hvl, hbit j hj hvl]
  · simp [hvl]

/-! ### The lowest set bit -/

/-- The lowest set bit is set, below VL, and no bit below it is set. -/
theorem lowest_eq_some {t : Strand} {m : KReg} {i : Nat} :
    t.lowest m = some i ↔ m.getLsbD i = true ∧ i < t.vl.toNat ∧ ∀ j, j < i → m.getLsbD j = false := by
  simp [Strand.lowest, firstBelow, List.find?_range_eq_some]

theorem lowest_eq_none {t : Strand} {m : KReg} : t.lowest m = none ↔ ∀ j, j < t.vl.toNat → m.getLsbD j = false := by
  simp [Strand.lowest, firstBelow]

/-- The bits below a bound are clear when the lowest set bit is not below it. -/
theorem all_clear_eq_le_lowest {t : Strand} {m : KReg} {i : Nat} (h : t.lowest m = some i) (n : Nat) :
    (List.range n).all (fun j => !m.getLsbD j) = decide (n ≤ i) := by
  obtain ⟨hset, -, hclear⟩ := lowest_eq_some.mp h
  rw [Bool.eq_iff_iff, List.all_eq_true, decide_eq_true_iff]
  constructor
  · intro hall
    by_contra hlt
    have := hall i (List.mem_range.mpr (not_le.mp hlt))
    simp [hset] at this
  · intro hle j hj
    simp [hclear j ((List.mem_range.mp hj).trans_le hle)]

/-- Below VL, KBRKA keeps a lane when no bit up to it is set, and KBRKI when no bit below it is. -/
theorem getLsbD_breakMask (t : Strand) (incl : Bool) (m : KReg) {j : Nat} (hj : j < 2048) (hvl : j < t.vl.toNat) :
    (breakMask t incl m).getLsbD j = (List.range (if incl then j else j + 1)).all (fun i => !m.getLsbD i) := by
  cases hlow : t.lowest m with
  | none =>
    have hclear := lowest_eq_none.mp hlow
    have hall : (List.range (if incl then j else j + 1)).all (fun i => !m.getLsbD i) = true := by
      refine List.all_eq_true.mpr fun i hi => ?_
      rw [List.mem_range] at hi
      have hij : i ≤ j := by split at hi <;> omega
      rw [hclear i (hij.trans_lt hvl)]; rfl
    rw [breakMask, hlow, hall, BitVec.getLsbD_allOnes, decide_eq_true hj]
  | some i =>
    rw [breakMask, hlow, all_clear_eq_le_lowest hlow, getLsbD_ones _ hj, decide_eq_decide]
    cases incl
    · exact Nat.lt_iff_add_one_le
    · exact Nat.lt_succ_iff

/-! ### Results in a scalar register, and VL 0 -/

/-- A form that writes s[d]. -/
theorem yieldsS_of_vectorForm {i : Instr} {s : State} {f : VForm} {run : Strand → Strand} {d : BitVec 5} {x : Word}
    (hexec : exec i s = vectorForm f run s) (hgo : vGate s.me f = .go) (hrun : run s.me = s.me.setS d x) :
    YieldsS i s d x (s.me.pc + 4#64) := by
  obtain ⟨t, hnext, honly, hme⟩ := vectorForm_go run hgo
  refine ⟨t, hexec.trans hnext, honly, ?_⟩
  rw [hme, hrun, Strand.next, Strand.setS_pc]
  exact wroteS_goto ..

/-- With VL 0 a form only moves on. -/
theorem yieldsPc_of_vectorForm {i : Instr} {s : State} {f : VForm} {run : Strand → Strand} (hexec : exec i s = vectorForm f run s)
    (hempty : vGate s.me f = .empty) : YieldsPc i s (s.me.pc + 4#64) := by
  refine ⟨s.upd Strand.next, ?_, onlyMe_upd s _, ?_⟩
  · rw [hexec, vectorForm, hempty]
  · rw [me_upd]; exact wentOn_next s.me

/-- The gate of a form of mask registers, where VL is 0 and no access is outstanding. -/
theorem vGate_masks_empty {t : Strand} (kr kw : List Nat) (hvl : t.vl = 0#12) (hout : t.out = []) :
    vGate t ⟨[], [], [], [], kr, kw⟩ = .empty := by
  have hbusy : ∀ n, t.kBusy n = false := fun n => by simp [Strand.kBusy, hout]
  simp [vGate, hvl, hbusy]

/-- Settles O23: the logical forms bit by bit, the breaks by the lowest set bit, the counts in s[r], and VL 0 by the empty gate. -/
theorem maskForms : Obligations.MaskForms := by
  unfold Obligations.MaskForms
  intro s r d a b u vl A B put
  refine ⟨rfl, fun hgo => ?_, fun hgo => ?_, fun hgo => ?_, fun hvl hout _ => ?_⟩
  · exact ⟨writesMask_of_kForm hgo (exec_kand ..) fun j _ _ => BitVec.getLsbD_and,
      writesMask_of_kForm hgo (exec_kor ..) fun j _ _ => BitVec.getLsbD_or,
      writesMask_of_kForm hgo (exec_kxor ..) fun j _ _ => BitVec.getLsbD_xor,
      writesMask_of_kForm hgo (exec_kandn ..) fun j hj _ => by
        rw [BitVec.getLsbD_and, BitVec.getLsbD_not, decide_eq_true hj, Bool.true_and]⟩
  · exact ⟨writesMask_of_kForm hgo (exec_kbrka ..) fun _ => getLsbD_breakMask s.me false _,
      writesMask_of_kForm hgo (exec_kbrki ..) fun _ => getLsbD_breakMask s.me true _⟩
  · refine ⟨yieldsS_of_vectorForm (exec_kpopc ..) hgo ?_, fun hnone => yieldsS_of_vectorForm (exec_kfirst ..) hgo ?_,
      fun j hj hset hclear => yieldsS_of_vectorForm (exec_kfirst ..) hgo ?_⟩
    · rw [List.countP_eq_length_filter]; rfl
    · rw [lowest_eq_none.mpr hnone]
    · rw [lowest_eq_some.mpr ⟨hset, hj, hclear⟩]
  · have hempty := fun kr kw => vGate_masks_empty kr kw hvl hout
    simp only [List.forall_mem_cons]
    exact ⟨yieldsPc_of_vectorForm (exec_kand ..) (hempty ..), yieldsPc_of_vectorForm (exec_kor ..) (hempty ..),
      yieldsPc_of_vectorForm (exec_kxor ..) (hempty ..), yieldsPc_of_vectorForm (exec_kandn ..) (hempty ..),
      yieldsPc_of_vectorForm (exec_kbrka ..) (hempty ..), yieldsPc_of_vectorForm (exec_kbrki ..) (hempty ..),
      yieldsPc_of_vectorForm (exec_kpopc ..) (hempty ..), yieldsPc_of_vectorForm (exec_kfirst ..) (hempty ..),
      List.forall_mem_nil _⟩

end Sys2Proof.Machine
end

section
/-! PROOFS. The decoder and the encoder agree on every word (spec/13_encoding.md R217 to R233): a family accepts a word only with each of its
cells accounted for, so that the word is the sum of the cells of its instruction. -/

set_option linter.unusedSimpArgs false
set_option Elab.async false

namespace Sys2Proof.Laws

open Sys2Proof

/-! ### A word as the sum of its cells -/

theorem toNat_fld (w : IWord) (lo n : Nat) : (fld w lo n).toNat = w.toNat / 2 ^ lo % 2 ^ n := by
  rw [fld, BitVec.extractLsb'_toNat, Nat.shiftRight_eq_div_pow]

theorem toNat_append_eq_add {n m : Nat} (x : BitVec n) (y : BitVec m) : (x ++ y).toNat = x.toNat * 2 ^ m + y.toNat := by
  rw [BitVec.toNat_append, ← Nat.shiftLeft_add_eq_or_of_lt y.isLt, Nat.shiftLeft_eq]

theorem fld_beq {w : IWord} {lo n : Nat} {x : BitVec n} : (fld w lo n == x) = true ↔ (fld w lo n).toNat = x.toNat := by
  rw [beq_iff_eq, BitVec.toNat_inj]

theorem fld_bne {w : IWord} {lo n : Nat} {x : BitVec n} : (fld w lo n != x) = true ↔ (fld w lo n).toNat ≠ x.toNat := by
  rw [bne_iff_ne, ne_eq, ← BitVec.toNat_inj]

/-- A word read cell by cell from its highest bit down, `hi` bits of it being left. -/
def joinCells (w : IWord) : Nat → List Nat → Nat → Nat
  | _, [], acc => acc
  | hi, n :: ns, acc => joinCells w (hi - n) ns (acc * 2 ^ n + (fld w (hi - n) n).toNat)

theorem joinCells_eq (w : IWord) (ns : List Nat) (hi : Nat) (h : ns.sum ≤ hi) :
    joinCells w hi ns (w.toNat / 2 ^ hi) = w.toNat / 2 ^ (hi - ns.sum) := by
  induction ns generalizing hi with
  | nil => rfl
  | cons n ns ih =>
    rw [List.sum_cons] at h ⊢
    have hcell : w.toNat / 2 ^ hi * 2 ^ n + (fld w (hi - n) n).toNat = w.toNat / 2 ^ (hi - n) := by
      have hpow : 2 ^ hi = 2 ^ (hi - n) * 2 ^ n := by rw [← Nat.pow_add, Nat.sub_add_cancel (by omega)]
      rw [toNat_fld, hpow, ← Nat.div_div_eq_div_mul, Nat.div_add_mod']
    rw [joinCells, hcell, ih _ (by omega), Nat.sub_sub]

theorem toNat_eq_joinCells (w : IWord) (ns : List Nat) (h : ns.sum = 32) : w.toNat = joinCells w 32 ns 0 := by
  have := joinCells_eq w ns 32 h.le
  rw [Nat.div_eq_of_lt w.isLt, h] at this
  simpa using this.symm

/-! ### What a family accepts -/

/-- What the decoder accepts is a well-formed instruction of that word. -/
def DecodesTo (w : IWord) (r : Except ScanReason Instr) : Prop := ∀ i, r = .ok i → wellFormed i = true ∧ encode i = w

theorem decodesTo_error (w : IWord) (e : ScanReason) : DecodesTo w (.error e) := fun _ h => nomatch h

theorem decodesTo_needs {w : IWord} {e : ScanReason} {b : Bool} {r : Except ScanReason Instr} (h : b = true → DecodesTo w r) :
    DecodesTo w (needs e b r) := by
  intro i hi
  cases b with
  | true => exact h rfl i hi
  | false => cases hi

theorem decodesTo_needs_iff {w : IWord} {e : ScanReason} {b : Bool} {r : Except ScanReason Instr} :
    DecodesTo w (needs e b r) ↔ (b = true → DecodesTo w r) := by
  refine ⟨?_, decodesTo_needs⟩
  rintro h rfl; exact h

theorem decodesTo_ok_iff {w : IWord} {i : Instr} :
    DecodesTo w (.ok i) ↔ wellFormed i = true ∧ (encode i).toNat = w.toNat := by
  simp [DecodesTo, BitVec.toNat_inj]

theorem decodesTo_Opr {w : IWord} (hop : (fld w 26 6).toNat = 0x01) : DecodesTo w (decodeOpr w) := by
  have hcells := toNat_eq_joinCells w [6, 5, 5, 5, 5, 6] rfl
  simp only [joinCells, Nat.reduceSub, Nat.reducePow, hop] at hcells
  unfold decodeOpr
  split
  all_goals simp only [decodesTo_needs_iff, decodesTo_ok_iff, decodesTo_error, wellFormed, encode, toNat_append_eq_add, fld_beq, fld_bne,
    Bool.and_eq_true, BitVec.toNat_ofNat, Nat.reducePow, Nat.reduceMod, true_and]
  all_goals (intros; omega)

theorem decodesTo_Addi {w : IWord} (hop : (fld w 26 6).toNat = 0x02) : DecodesTo w (decodeAddi w) := by
  have hcells := toNat_eq_joinCells w [6, 5, 5, 16] rfl
  simp only [joinCells, Nat.reduceSub, Nat.reducePow, hop] at hcells
  unfold decodeAddi
  simp only [decodesTo_needs_iff, decodesTo_ok_iff, decodesTo_error, wellFormed, encode, toNat_append_eq_add, fld_beq, fld_bne,
    Bool.and_eq_true, BitVec.toNat_ofNat, Nat.reducePow, Nat.reduceMod, true_and]
  omega

theorem decodesTo_Andi {w : IWord} (hop : (fld w 26 6).toNat = 0x03) : DecodesTo w (decodeAndi w) := by
  have hcells := toNat_eq_joinCells w [6, 5, 5, 16] rfl
  simp only [joinCells, Nat.reduceSub, Nat.reducePow, hop] at hcells
  unfold decodeAndi
  simp only [decodesTo_needs_iff, decodesTo_ok_iff, decodesTo_error, wellFormed, encode, toNat_append_eq_add, fld_beq, fld_bne,
    Bool.and_eq_true, BitVec.toNat_ofNat, Nat.reducePow, Nat.reduceMod, true_and]
  omega

theorem decodesTo_Ori {w : IWord} (hop : (fld w 26 6).toNat = 0x04) : DecodesTo w (decodeOri w) := by
  have hcells := toNat_eq_joinCells w [6, 5, 5, 16] rfl
  simp only [joinCells, Nat.reduceSub, Nat.reducePow, hop] at hcells
  unfold decodeOri
  simp only [decodesTo_needs_iff, decodesTo_ok_iff, decodesTo_error, wellFormed, encode, toNat_append_eq_add, fld_beq, fld_bne,
    Bool.and_eq_true, BitVec.toNat_ofNat, Nat.reducePow, Nat.reduceMod, true_and]
  omega

theorem decodesTo_Xori {w : IWord} (hop : (fld w 26 6).toNat = 0x05) : DecodesTo w (decodeXori w) := by
  have hcells := toNat_eq_joinCells w [6, 5, 5, 16] rfl
  simp only [joinCells, Nat.reduceSub, Nat.reducePow, hop] at hcells
  unfold decodeXori
  simp only [decodesTo_needs_iff, decodesTo_ok_iff, decodesTo_error, wellFormed, encode, toNat_append_eq_add, fld_beq, fld_bne,
    Bool.and_eq_true, BitVec.toNat_ofNat, Nat.reducePow, Nat.reduceMod, true_and]
  omega

theorem decodesTo_Slti {w : IWord} (hop : (fld w 26 6).toNat = 0x06) : DecodesTo w (decodeSlti w) := by
  have hcells := toNat_eq_joinCells w [6, 5, 5, 16] rfl
  simp only [joinCells, Nat.reduceSub, Nat.reducePow, hop] at hcells
  unfold decodeSlti
  simp only [decodesTo_needs_iff, decodesTo_ok_iff, decodesTo_error, wellFormed, encode, toNat_append_eq_add, fld_beq, fld_bne,
    Bool.and_eq_true, BitVec.toNat_ofNat, Nat.reducePow, Nat.reduceMod, true_and]
  omega

theorem decodesTo_Sltiu {w : IWord} (hop : (fld w 26 6).toNat = 0x07) : DecodesTo w (decodeSltiu w) := by
  have hcells := toNat_eq_joinCells w [6, 5, 5, 16] rfl
  simp only [joinCells, Nat.reduceSub, Nat.reducePow, hop] at hcells
  unfold decodeSltiu
  simp only [decodesTo_needs_iff, decodesTo_ok_iff, decodesTo_error, wellFormed, encode, toNat_append_eq_add, fld_beq, fld_bne,
    Bool.and_eq_true, BitVec.toNat_ofNat, Nat.reducePow, Nat.reduceMod, true_and]
  omega

theorem decodesTo_Lih {w : IWord} (hop : (fld w 26 6).toNat = 0x08) : DecodesTo w (decodeLih w) := by
  have hcells := toNat_eq_joinCells w [6, 5, 3, 2, 16] rfl
  simp only [joinCells, Nat.reduceSub, Nat.reducePow, hop] at hcells
  unfold decodeLih
  simp only [decodesTo_needs_iff, decodesTo_ok_iff, decodesTo_error, wellFormed, encode, toNat_append_eq_add, fld_beq, fld_bne,
    Bool.and_eq_true, BitVec.toNat_ofNat, Nat.reducePow, Nat.reduceMod, true_and]
  intros; omega

theorem decodesTo_Shi {w : IWord} (hop : (fld w 26 6).toNat = 0x09) : DecodesTo w (decodeShi w) := by
  have hcells := toNat_eq_joinCells w [6, 5, 5, 8, 2, 6] rfl
  simp only [joinCells, Nat.reduceSub, Nat.reducePow, hop] at hcells
  unfold decodeShi
  split
  all_goals simp only [decodesTo_needs_iff, decodesTo_ok_iff, decodesTo_error, wellFormed, encode, toNat_append_eq_add, fld_beq, fld_bne,
    Bool.and_eq_true, BitVec.toNat_ofNat, Nat.reducePow, Nat.reduceMod, true_and]
  all_goals (intros; omega)

theorem decodesTo_Fop {w : IWord} (hop : (fld w 26 6).toNat = 0x0A) : DecodesTo w (decodeFop w) := by
  have hcells := toNat_eq_joinCells w [6, 5, 5, 5, 5, 6] rfl
  simp only [joinCells, Nat.reduceSub, Nat.reducePow, hop] at hcells
  unfold decodeFop
  split
  all_goals simp only [decodesTo_needs_iff, decodesTo_ok_iff, decodesTo_error, wellFormed, encode, toNat_append_eq_add, fld_beq, fld_bne,
    Bool.and_eq_true, BitVec.toNat_ofNat, Nat.reducePow, Nat.reduceMod, true_and]
  all_goals (intros; omega)

theorem decodesTo_Ld {w : IWord} (hop : (fld w 26 6).toNat = 0x0B) : DecodesTo w (decodeLd w) := by
  have hcells := toNat_eq_joinCells w [6, 5, 5, 14, 2] rfl
  simp only [joinCells, Nat.reduceSub, Nat.reducePow, hop] at hcells
  unfold decodeLd
  simp only [decodesTo_needs_iff, decodesTo_ok_iff, decodesTo_error, wellFormed, encode, toNat_append_eq_add, fld_beq, fld_bne,
    Bool.and_eq_true, BitVec.toNat_ofNat, Nat.reducePow, Nat.reduceMod, true_and]
  omega

theorem decodesTo_Lds {w : IWord} (hop : (fld w 26 6).toNat = 0x0C) : DecodesTo w (decodeLds w) := by
  have hcells := toNat_eq_joinCells w [6, 5, 5, 14, 2] rfl
  simp only [joinCells, Nat.reduceSub, Nat.reducePow, hop] at hcells
  unfold decodeLds
  simp only [decodesTo_needs_iff, decodesTo_ok_iff, decodesTo_error, wellFormed, encode, toNat_append_eq_add, fld_beq, fld_bne,
    Bool.and_eq_true, BitVec.toNat_ofNat, Nat.reducePow, Nat.reduceMod, true_and]
  intros; omega

theorem decodesTo_St {w : IWord} (hop : (fld w 26 6).toNat = 0x0D) : DecodesTo w (decodeSt w) := by
  have hcells := toNat_eq_joinCells w [6, 5, 5, 14, 2] rfl
  simp only [joinCells, Nat.reduceSub, Nat.reducePow, hop] at hcells
  unfold decodeSt
  simp only [decodesTo_needs_iff, decodesTo_ok_iff, decodesTo_error, wellFormed, encode, toNat_append_eq_add, fld_beq, fld_bne,
    Bool.and_eq_true, BitVec.toNat_ofNat, Nat.reducePow, Nat.reduceMod, true_and]
  omega

theorem decodesTo_Ordm {w : IWord} (hop : (fld w 26 6).toNat = 0x0E) : DecodesTo w (decodeOrdm w) := by
  have hcells1 := toNat_eq_joinCells w [6, 5, 5, 5, 5, 2, 2, 2] rfl
  have hcells2 := toNat_eq_joinCells w [6, 5, 5, 5, 5, 2, 2, 1, 1] rfl
  simp only [joinCells, Nat.reduceSub, Nat.reducePow, hop] at hcells1 hcells2
  unfold decodeOrdm
  refine decodesTo_needs fun hscope => ?_
  simp only [fld_bne, BitVec.toNat_ofNat, Nat.reducePow, Nat.reduceMod] at hscope
  split
  all_goals simp only [decodesTo_needs_iff, decodesTo_ok_iff, decodesTo_error, wellFormed, encode, toNat_append_eq_add, fld_beq, fld_bne,
    Bool.and_eq_true, BitVec.toNat_ofNat, Nat.reducePow, Nat.reduceMod, true_and]
  all_goals (intros; omega)

theorem decodesTo_Amo {w : IWord} (hop : (fld w 26 6).toNat = 0x0F) : DecodesTo w (decodeAmo w) := by
  have hcells1 := toNat_eq_joinCells w [6, 5, 5, 5, 1, 1, 1, 2, 2, 4] rfl
  have hcells2 := toNat_eq_joinCells w [6, 5, 5, 5, 1, 1, 1, 2, 1, 1, 4] rfl
  simp only [joinCells, Nat.reduceSub, Nat.reducePow, hop] at hcells1 hcells2
  unfold decodeAmo
  refine decodesTo_needs fun hscope => ?_
  simp only [fld_bne, BitVec.toNat_ofNat, Nat.reducePow, Nat.reduceMod] at hscope
  split
  all_goals simp only [decodesTo_needs_iff, decodesTo_ok_iff, decodesTo_error, wellFormed, encode, toNat_append_eq_add, fld_beq, fld_bne,
    Bool.and_eq_true, BitVec.toNat_ofNat, Nat.reducePow, Nat.reduceMod, true_and]
  all_goals (intros; omega)

theorem decodesTo_Cas {w : IWord} (hop : (fld w 26 6).toNat = 0x10) : DecodesTo w (decodeCas w) := by
  have hcells := toNat_eq_joinCells w [6, 5, 5, 5, 1, 1, 1, 2, 1, 1, 4] rfl
  simp only [joinCells, Nat.reduceSub, Nat.reducePow, hop] at hcells
  unfold decodeCas
  refine decodesTo_needs fun hscope => ?_
  simp only [fld_bne, BitVec.toNat_ofNat, Nat.reducePow, Nat.reduceMod] at hscope
  simp only [decodesTo_needs_iff, decodesTo_ok_iff, decodesTo_error, wellFormed, encode, toNat_append_eq_add, fld_beq, fld_bne,
    Bool.and_eq_true, BitVec.toNat_ofNat, Nat.reducePow, Nat.reduceMod, true_and]
  intros; omega

theorem decodesTo_Stn {w : IWord} (hop : (fld w 26 6).toNat = 0x11) : DecodesTo w (decodeStn w) := by
  have hcells := toNat_eq_joinCells w [6, 5, 5, 5, 5, 2, 2, 1, 1] rfl
  simp only [joinCells, Nat.reduceSub, Nat.reducePow, hop] at hcells
  unfold decodeStn
  refine decodesTo_needs fun hscope => ?_
  simp only [fld_bne, BitVec.toNat_ofNat, Nat.reducePow, Nat.reduceMod] at hscope
  simp only [decodesTo_needs_iff, decodesTo_ok_iff, decodesTo_error, wellFormed, encode, toNat_append_eq_add, fld_beq, fld_bne,
    Bool.and_eq_true, BitVec.toNat_ofNat, Nat.reducePow, Nat.reduceMod, true_and]
  intros; omega

theorem decodesTo_Bc {w : IWord} (hop : (fld w 26 6).toNat = 0x12) : DecodesTo w (decodeBc w) := by
  have hcells := toNat_eq_joinCells w [6, 3, 5, 5, 13] rfl
  simp only [joinCells, Nat.reduceSub, Nat.reducePow, hop] at hcells
  unfold decodeBc
  split
  all_goals simp only [decodesTo_needs_iff, decodesTo_ok_iff, decodesTo_error, wellFormed, encode, toNat_append_eq_add, fld_beq, fld_bne,
    Bool.and_eq_true, BitVec.toNat_ofNat, Nat.reducePow, Nat.reduceMod, true_and]
  all_goals omega

theorem decodesTo_J {w : IWord} (hop : (fld w 26 6).toNat = 0x13) : DecodesTo w (decodeJ w) := by
  have hcells := toNat_eq_joinCells w [6, 26] rfl
  simp only [joinCells, Nat.reduceSub, Nat.reducePow, hop] at hcells
  unfold decodeJ
  simp only [decodesTo_needs_iff, decodesTo_ok_iff, decodesTo_error, wellFormed, encode, toNat_append_eq_add, fld_beq, fld_bne,
    Bool.and_eq_true, BitVec.toNat_ofNat, Nat.reducePow, Nat.reduceMod, true_and]
  omega

theorem decodesTo_Jal {w : IWord} (hop : (fld w 26 6).toNat = 0x14) : DecodesTo w (decodeJal w) := by
  have hcells := toNat_eq_joinCells w [6, 26] rfl
  simp only [joinCells, Nat.reduceSub, Nat.reducePow, hop] at hcells
  unfold decodeJal
  simp only [decodesTo_needs_iff, decodesTo_ok_iff, decodesTo_error, wellFormed, encode, toNat_append_eq_add, fld_beq, fld_bne,
    Bool.and_eq_true, BitVec.toNat_ofNat, Nat.reducePow, Nat.reduceMod, true_and]
  omega

theorem decodesTo_Jalr {w : IWord} (hop : (fld w 26 6).toNat = 0x15) : DecodesTo w (decodeJalr w) := by
  have hcells := toNat_eq_joinCells w [6, 5, 5, 16] rfl
  simp only [joinCells, Nat.reduceSub, Nat.reducePow, hop] at hcells
  unfold decodeJalr
  simp only [decodesTo_needs_iff, decodesTo_ok_iff, decodesTo_error, wellFormed, encode, toNat_append_eq_add, fld_beq, fld_bne,
    Bool.and_eq_true, BitVec.toNat_ofNat, Nat.reducePow, Nat.reduceMod, true_and]
  omega

theorem decodesTo_Callt {w : IWord} (hop : (fld w 26 6).toNat = 0x16) : DecodesTo w (decodeCallt w) := by
  have hcells := toNat_eq_joinCells w [6, 5, 5, 16] rfl
  simp only [joinCells, Nat.reduceSub, Nat.reducePow, hop] at hcells
  unfold decodeCallt
  simp only [decodesTo_needs_iff, decodesTo_ok_iff, decodesTo_error, wellFormed, encode, toNat_append_eq_add, fld_beq, fld_bne,
    Bool.and_eq_true, BitVec.toNat_ofNat, Nat.reducePow, Nat.reduceMod, true_and]
  intros; omega

theorem decodesTo_Sys {w : IWord} (hop : (fld w 26 6).toNat = 0x17) : DecodesTo w (decodeSys w) := by
  have hcells1 := toNat_eq_joinCells w [6, 5, 5, 4, 10, 2] rfl
  have hcells2 := toNat_eq_joinCells w [6, 5, 5, 4, 4, 7, 1] rfl
  have hcells3 := toNat_eq_joinCells w [6, 5, 5, 4, 12] rfl
  simp only [joinCells, Nat.reduceSub, Nat.reducePow, hop] at hcells1 hcells2 hcells3
  unfold decodeSys
  split
  all_goals simp only [decodesTo_needs_iff, decodesTo_ok_iff, decodesTo_error, wellFormed, encode, toNat_append_eq_add, fld_beq, fld_bne,
    Bool.and_eq_true, BitVec.toNat_ofNat, Nat.reducePow, Nat.reduceMod, true_and]
  all_goals intros
  any_goals omega
  all_goals exact ⟨‹_›, by omega⟩

theorem decodesTo_Vcfg {w : IWord} (hop : (fld w 26 6).toNat = 0x18) : DecodesTo w (decodeVcfg w) := by
  have hcells := toNat_eq_joinCells w [6, 5, 5, 12, 2, 2] rfl
  simp only [joinCells, Nat.reduceSub, Nat.reducePow, hop] at hcells
  unfold decodeVcfg
  simp only [decodesTo_needs_iff, decodesTo_ok_iff, decodesTo_error, wellFormed, encode, toNat_append_eq_add, fld_beq, fld_bne,
    Bool.and_eq_true, BitVec.toNat_ofNat, Nat.reducePow, Nat.reduceMod, true_and]
  exact fun hfix hle => ⟨hle, by omega⟩

theorem decodesTo_Vint0 {w : IWord} (hop : (fld w 26 6).toNat = 0x19) : DecodesTo w (decodeVint0 w) := by
  have hcells := toNat_eq_joinCells w [6, 5, 5, 5, 1, 1, 3, 3, 3] rfl
  simp only [joinCells, Nat.reduceSub, Nat.reducePow, hop] at hcells
  unfold decodeVint0
  split
  all_goals simp only [decodesTo_needs_iff, decodesTo_ok_iff, decodesTo_error, wellFormed, encode, toNat_append_eq_add, fld_beq, fld_bne,
    Bool.and_eq_true, BitVec.toNat_ofNat, Nat.reducePow, Nat.reduceMod, true_and]
  all_goals (intros; omega)

theorem decodesTo_Vint1 {w : IWord} (hop : (fld w 26 6).toNat = 0x1A) : DecodesTo w (decodeVint1 w) := by
  have hcells := toNat_eq_joinCells w [6, 5, 5, 5, 1, 1, 3, 3, 3] rfl
  simp only [joinCells, Nat.reduceSub, Nat.reducePow, hop] at hcells
  unfold decodeVint1
  split
  all_goals simp only [decodesTo_needs_iff, decodesTo_ok_iff, decodesTo_error, wellFormed, encode, toNat_append_eq_add, fld_beq, fld_bne,
    Bool.and_eq_true, BitVec.toNat_ofNat, Nat.reducePow, Nat.reduceMod, true_and]
  all_goals (intros; omega)

theorem decodesTo_Vcmp {w : IWord} (hop : (fld w 26 6).toNat = 0x1B) : DecodesTo w (decodeVcmp w) := by
  have hcells := toNat_eq_joinCells w [6, 2, 3, 5, 5, 1, 1, 3, 3, 3] rfl
  simp only [joinCells, Nat.reduceSub, Nat.reducePow, hop] at hcells
  unfold decodeVcmp
  split
  all_goals simp only [decodesTo_needs_iff, decodesTo_ok_iff, decodesTo_error, wellFormed, encode, toNat_append_eq_add, fld_beq, fld_bne,
    Bool.and_eq_true, BitVec.toNat_ofNat, Nat.reducePow, Nat.reduceMod, true_and]
  all_goals (intros; omega)

theorem decodesTo_Vflt {w : IWord} (hop : (fld w 26 6).toNat = 0x1C) : DecodesTo w (decodeVflt w) := by
  have hcells := toNat_eq_joinCells w [6, 5, 5, 5, 1, 1, 3, 3, 3] rfl
  simp only [joinCells, Nat.reduceSub, Nat.reducePow, hop] at hcells
  unfold decodeVflt
  split
  all_goals simp only [decodesTo_needs_iff, decodesTo_ok_iff, decodesTo_error, wellFormed, encode, toNat_append_eq_add, fld_beq, fld_bne,
    Bool.and_eq_true, BitVec.toNat_ofNat, Nat.reducePow, Nat.reduceMod, true_and]
  all_goals (intros; omega)

theorem decodesTo_Vfma {w : IWord} (hop : (fld w 26 6).toNat = 0x1D) : DecodesTo w (decodeVfma w) := by
  have hcells := toNat_eq_joinCells w [6, 5, 5, 5, 1, 1, 3, 3, 3] rfl
  simp only [joinCells, Nat.reduceSub, Nat.reducePow, hop] at hcells
  unfold decodeVfma
  split
  all_goals simp only [decodesTo_needs_iff, decodesTo_ok_iff, decodesTo_error, wellFormed, encode, toNat_append_eq_add, fld_beq, fld_bne,
    Bool.and_eq_true, BitVec.toNat_ofNat, Nat.reducePow, Nat.reduceMod, true_and]
  all_goals omega

theorem decodesTo_Vfcv {w : IWord} (hop : (fld w 26 6).toNat = 0x1E) : DecodesTo w (decodeVfcv w) := by
  have hcells := toNat_eq_joinCells w [6, 5, 5, 5, 1, 1, 3, 3, 3] rfl
  simp only [joinCells, Nat.reduceSub, Nat.reducePow, hop] at hcells
  unfold decodeVfcv
  split
  all_goals simp only [decodesTo_needs_iff, decodesTo_ok_iff, decodesTo_error, wellFormed, encode, toNat_append_eq_add, fld_beq, fld_bne,
    Bool.and_eq_true, BitVec.toNat_ofNat, Nat.reducePow, Nat.reduceMod, true_and]
  all_goals (intros; omega)

theorem decodesTo_Vred {w : IWord} (hop : (fld w 26 6).toNat = 0x1F) : DecodesTo w (decodeVred w) := by
  have hcells := toNat_eq_joinCells w [6, 5, 5, 5, 1, 1, 3, 3, 3] rfl
  simp only [joinCells, Nat.reduceSub, Nat.reducePow, hop] at hcells
  unfold decodeVred
  split
  all_goals simp only [decodesTo_needs_iff, decodesTo_ok_iff, decodesTo_error, wellFormed, encode, toNat_append_eq_add, fld_beq, fld_bne,
    Bool.and_eq_true, BitVec.toNat_ofNat, Nat.reducePow, Nat.reduceMod, true_and]
  all_goals (intros; omega)

theorem decodesTo_Vprm {w : IWord} (hop : (fld w 26 6).toNat = 0x20) : DecodesTo w (decodeVprm w) := by
  have hcells := toNat_eq_joinCells w [6, 5, 5, 5, 1, 1, 3, 3, 3] rfl
  simp only [joinCells, Nat.reduceSub, Nat.reducePow, hop] at hcells
  unfold decodeVprm
  split
  all_goals simp only [decodesTo_needs_iff, decodesTo_ok_iff, decodesTo_error, wellFormed, encode, toNat_append_eq_add, fld_beq, fld_bne,
    Bool.and_eq_true, BitVec.toNat_ofNat, Nat.reducePow, Nat.reduceMod, true_and]
  all_goals (intros; omega)

theorem decodesTo_Vmov {w : IWord} (hop : (fld w 26 6).toNat = 0x21) : DecodesTo w (decodeVmov w) := by
  have hcells := toNat_eq_joinCells w [6, 5, 5, 5, 1, 1, 3, 3, 3] rfl
  simp only [joinCells, Nat.reduceSub, Nat.reducePow, hop] at hcells
  unfold decodeVmov
  split
  all_goals simp only [decodesTo_needs_iff, decodesTo_ok_iff, decodesTo_error, wellFormed, encode, toNat_append_eq_add, fld_beq, fld_bne,
    Bool.and_eq_true, BitVec.toNat_ofNat, Nat.reducePow, Nat.reduceMod, true_and]
  all_goals (intros; omega)

theorem decodesTo_Kops {w : IWord} (hop : (fld w 26 6).toNat = 0x22) : DecodesTo w (decodeKops w) := by
  have hcells1 := toNat_eq_joinCells w [6, 2, 3, 2, 3, 5, 1, 1, 3, 3, 3] rfl
  have hcells2 := toNat_eq_joinCells w [6, 2, 3, 2, 3, 2, 3, 1, 1, 3, 3, 3] rfl
  have hcells3 := toNat_eq_joinCells w [6, 5, 2, 3, 5, 1, 1, 3, 3, 3] rfl
  simp only [joinCells, Nat.reduceSub, Nat.reducePow, hop] at hcells1 hcells2 hcells3
  unfold decodeKops
  split
  all_goals simp only [decodesTo_needs_iff, decodesTo_ok_iff, decodesTo_error, wellFormed, encode, toNat_append_eq_add, fld_beq, fld_bne,
    Bool.and_eq_true, BitVec.toNat_ofNat, Nat.reducePow, Nat.reduceMod, true_and]
  all_goals (intros; omega)

theorem decodesTo_Vld {w : IWord} (hop : (fld w 26 6).toNat = 0x23) : DecodesTo w (decodeVld w) := by
  have hcells := toNat_eq_joinCells w [6, 5, 5, 5, 3, 3, 3, 1, 1] rfl
  simp only [joinCells, Nat.reduceSub, Nat.reducePow, hop] at hcells
  unfold decodeVld
  split
  all_goals simp only [decodesTo_needs_iff, decodesTo_ok_iff, decodesTo_error, wellFormed, encode, toNat_append_eq_add, fld_beq, fld_bne,
    Bool.and_eq_true, BitVec.toNat_ofNat, Nat.reducePow, Nat.reduceMod, true_and]
  all_goals (intros; omega)

theorem decodesTo_Vldx {w : IWord} (hop : (fld w 26 6).toNat = 0x24) : DecodesTo w (decodeVldx w) := by
  have hcells := toNat_eq_joinCells w [6, 5, 5, 5, 3, 3, 3, 1, 1] rfl
  simp only [joinCells, Nat.reduceSub, Nat.reducePow, hop] at hcells
  unfold decodeVldx
  split
  all_goals simp only [decodesTo_needs_iff, decodesTo_ok_iff, decodesTo_error, wellFormed, encode, toNat_append_eq_add, fld_beq, fld_bne,
    Bool.and_eq_true, BitVec.toNat_ofNat, Nat.reducePow, Nat.reduceMod, true_and]
  all_goals omega

theorem decodesTo_Vst {w : IWord} (hop : (fld w 26 6).toNat = 0x25) : DecodesTo w (decodeVst w) := by
  have hcells := toNat_eq_joinCells w [6, 5, 5, 5, 3, 3, 3, 1, 1] rfl
  simp only [joinCells, Nat.reduceSub, Nat.reducePow, hop] at hcells
  unfold decodeVst
  split
  all_goals simp only [decodesTo_needs_iff, decodesTo_ok_iff, decodesTo_error, wellFormed, encode, toNat_append_eq_add, fld_beq, fld_bne,
    Bool.and_eq_true, BitVec.toNat_ofNat, Nat.reducePow, Nat.reduceMod, true_and]
  all_goals (intros; omega)

theorem decodesTo_Vstx {w : IWord} (hop : (fld w 26 6).toNat = 0x26) : DecodesTo w (decodeVstx w) := by
  have hcells := toNat_eq_joinCells w [6, 5, 5, 5, 3, 3, 3, 1, 1] rfl
  simp only [joinCells, Nat.reduceSub, Nat.reducePow, hop] at hcells
  unfold decodeVstx
  split
  all_goals simp only [decodesTo_needs_iff, decodesTo_ok_iff, decodesTo_error, wellFormed, encode, toNat_append_eq_add, fld_beq, fld_bne,
    Bool.and_eq_true, BitVec.toNat_ofNat, Nat.reducePow, Nat.reduceMod, true_and]
  all_goals (intros; omega)

theorem decodesTo_Vspc {w : IWord} (hop : (fld w 26 6).toNat = 0x27) : DecodesTo w (decodeVspc w) := by
  have hcells := toNat_eq_joinCells w [6, 5, 5, 5, 3, 3, 3, 1, 1] rfl
  simp only [joinCells, Nat.reduceSub, Nat.reducePow, hop] at hcells
  unfold decodeVspc
  split
  all_goals simp only [decodesTo_needs_iff, decodesTo_ok_iff, decodesTo_error, wellFormed, encode, toNat_append_eq_add, fld_beq, fld_bne,
    Bool.and_eq_true, BitVec.toNat_ofNat, Nat.reducePow, Nat.reduceMod, true_and]
  all_goals (intros; omega)

theorem decodesTo_Vrred {w : IWord} (hop : (fld w 26 6).toNat = 0x28) : DecodesTo w (decodeVrred w) := by
  have hcells := toNat_eq_joinCells w [6, 5, 5, 5, 3, 3, 3, 1, 1] rfl
  simp only [joinCells, Nat.reduceSub, Nat.reducePow, hop] at hcells
  unfold decodeVrred
  split
  all_goals simp only [decodesTo_needs_iff, decodesTo_ok_iff, decodesTo_error, wellFormed, encode, toNat_append_eq_add, fld_beq, fld_bne,
    Bool.and_eq_true, BitVec.toNat_ofNat, Nat.reducePow, Nat.reduceMod, true_and]
  all_goals omega

theorem decodesTo_Tcfg {w : IWord} (hop : (fld w 26 6).toNat = 0x29) : DecodesTo w (decodeTcfg w) := by
  have hcells := toNat_eq_joinCells w [6, 5, 5, 5, 1, 1, 3, 2, 2, 2] rfl
  simp only [joinCells, Nat.reduceSub, Nat.reducePow, hop] at hcells
  unfold decodeTcfg
  split <;> rename_i hfun <;> simp only [toNat_append_eq_add, Nat.reducePow] at hfun
  all_goals simp only [decodesTo_needs_iff, decodesTo_ok_iff, decodesTo_error, wellFormed, encode, toNat_append_eq_add, fld_beq, fld_bne,
    Bool.and_eq_true, BitVec.toNat_ofNat, Nat.reducePow, Nat.reduceMod, true_and]
  all_goals (intros; omega)

theorem decodesTo_Tmem {w : IWord} (hop : (fld w 26 6).toNat = 0x2A) : DecodesTo w (decodeTmem w) := by
  have hcells := toNat_eq_joinCells w [6, 5, 5, 5, 2, 2, 2, 3, 2] rfl
  simp only [joinCells, Nat.reduceSub, Nat.reducePow, hop] at hcells
  unfold decodeTmem
  split
  all_goals simp only [decodesTo_needs_iff, decodesTo_ok_iff, decodesTo_error, wellFormed, encode, toNat_append_eq_add, fld_beq, fld_bne,
    Bool.and_eq_true, BitVec.toNat_ofNat, Nat.reducePow, Nat.reduceMod, true_and]
  all_goals (intros; omega)

theorem decodesTo_Tmma {w : IWord} (hop : (fld w 26 6).toNat = 0x2B) : DecodesTo w (decodeTmma w) := by
  have hcells := toNat_eq_joinCells w [6, 5, 5, 5, 1, 1, 3, 2, 2, 2] rfl
  simp only [joinCells, Nat.reduceSub, Nat.reducePow, hop] at hcells
  unfold decodeTmma
  split
  all_goals simp only [decodesTo_needs_iff, decodesTo_ok_iff, decodesTo_error, wellFormed, encode, toNat_append_eq_add, fld_beq, fld_bne,
    Bool.and_eq_true, BitVec.toNat_ofNat, Nat.reducePow, Nat.reduceMod, true_and]
  all_goals (intros; omega)

theorem decodesTo_Twload {w : IWord} (hop : (fld w 26 6).toNat = 0x2C) : DecodesTo w (decodeTwload w) := by
  have hcells := toNat_eq_joinCells w [6, 5, 5, 5, 1, 1, 3, 2, 2, 2] rfl
  simp only [joinCells, Nat.reduceSub, Nat.reducePow, hop] at hcells
  unfold decodeTwload
  split
  all_goals simp only [decodesTo_needs_iff, decodesTo_ok_iff, decodesTo_error, wellFormed, encode, toNat_append_eq_add, fld_beq, fld_bne,
    Bool.and_eq_true, BitVec.toNat_ofNat, Nat.reducePow, Nat.reduceMod, true_and]
  all_goals (intros; omega)

theorem decodesTo_Tmov {w : IWord} (hop : (fld w 26 6).toNat = 0x2D) : DecodesTo w (decodeTmov w) := by
  have hcells := toNat_eq_joinCells w [6, 5, 5, 5, 1, 1, 3, 2, 2, 2] rfl
  simp only [joinCells, Nat.reduceSub, Nat.reducePow, hop] at hcells
  unfold decodeTmov
  split
  any_goals split
  all_goals simp only [decodesTo_needs_iff, decodesTo_ok_iff, decodesTo_error, wellFormed, encode, toNat_append_eq_add, fld_beq, fld_bne,
    Bool.and_eq_true, BitVec.toNat_ofNat, Nat.reducePow, Nat.reduceMod, true_and]
  all_goals (intros; omega)

theorem decodesTo_Cpy {w : IWord} (hop : (fld w 26 6).toNat = 0x2E) : DecodesTo w (decodeCpy w) := by
  have hcells := toNat_eq_joinCells w [6, 5, 5, 5, 4, 2, 2, 3] rfl
  simp only [joinCells, Nat.reduceSub, Nat.reducePow, hop] at hcells
  unfold decodeCpy
  split
  all_goals simp only [decodesTo_needs_iff, decodesTo_ok_iff, decodesTo_error, wellFormed, encode, toNat_append_eq_add, fld_beq, fld_bne,
    Bool.and_eq_true, BitVec.toNat_ofNat, Nat.reducePow, Nat.reduceMod]
  all_goals intros
  all_goals exact ⟨‹_›, by omega⟩

theorem decodesTo_Bar {w : IWord} (hop : (fld w 26 6).toNat = 0x2F) : DecodesTo w (decodeBar w) := by
  have hcells := toNat_eq_joinCells w [6, 5, 5, 5, 4, 2, 2, 3] rfl
  simp only [joinCells, Nat.reduceSub, Nat.reducePow, hop] at hcells
  unfold decodeBar
  split
  all_goals simp only [decodesTo_needs_iff, decodesTo_ok_iff, decodesTo_error, wellFormed, encode, toNat_append_eq_add, fld_beq, fld_bne,
    Bool.and_eq_true, BitVec.toNat_ofNat, Nat.reducePow, Nat.reduceMod, true_and]
  all_goals (intros; omega)

theorem decodesTo_Synq {w : IWord} (hop : (fld w 26 6).toNat = 0x30) : DecodesTo w (decodeSynq w) := by
  have hcells := toNat_eq_joinCells w [6, 5, 5, 5, 4, 2, 2, 3] rfl
  simp only [joinCells, Nat.reduceSub, Nat.reducePow, hop] at hcells
  unfold decodeSynq
  split
  all_goals simp only [decodesTo_needs_iff, decodesTo_ok_iff, decodesTo_error, wellFormed, encode, toNat_append_eq_add, fld_beq, fld_bne,
    Bool.and_eq_true, BitVec.toNat_ofNat, Nat.reducePow, Nat.reduceMod, true_and]
  all_goals (intros; omega)

theorem decodesTo_Msg {w : IWord} (hop : (fld w 26 6).toNat = 0x31) : DecodesTo w (decodeMsg w) := by
  have hcells := toNat_eq_joinCells w [6, 5, 5, 5, 4, 2, 2, 3] rfl
  simp only [joinCells, Nat.reduceSub, Nat.reducePow, hop] at hcells
  unfold decodeMsg
  split
  all_goals simp only [decodesTo_needs_iff, decodesTo_ok_iff, decodesTo_error, wellFormed, encode, toNat_append_eq_add, fld_beq, fld_bne,
    Bool.and_eq_true, BitVec.toNat_ofNat, Nat.reducePow, Nat.reduceMod, true_and]
  all_goals (intros; omega)

theorem decodesTo_Swp {w : IWord} (hop : (fld w 26 6).toNat = 0x32) : DecodesTo w (decodeSwp w) := by
  have hcells1 := toNat_eq_joinCells w [6, 5, 5, 5, 4, 2, 2, 3] rfl
  have hcells2 := toNat_eq_joinCells w [6, 5, 5, 2, 3, 4, 2, 2, 3] rfl
  simp only [joinCells, Nat.reduceSub, Nat.reducePow, hop] at hcells1 hcells2
  unfold decodeSwp
  split
  all_goals simp only [decodesTo_needs_iff, decodesTo_ok_iff, decodesTo_error, wellFormed, encode, toNat_append_eq_add, fld_beq, fld_bne,
    Bool.and_eq_true, BitVec.toNat_ofNat, Nat.reducePow, Nat.reduceMod, true_and]
  all_goals (intros; omega)

theorem decodesTo_Gang {w : IWord} (hop : (fld w 26 6).toNat = 0x33) : DecodesTo w (decodeGang w) := by
  have hcells := toNat_eq_joinCells w [6, 5, 5, 5, 1, 1, 3, 3, 3] rfl
  simp only [joinCells, Nat.reduceSub, Nat.reducePow, hop] at hcells
  unfold decodeGang
  split
  all_goals simp only [decodesTo_needs_iff, decodesTo_ok_iff, decodesTo_error, wellFormed, encode, toNat_append_eq_add, fld_beq, fld_bne,
    Bool.and_eq_true, BitVec.toNat_ofNat, Nat.reducePow, Nat.reduceMod, true_and]
  all_goals (intros; omega)

/-- Every family accepts only words of the instructions that it gives. -/
theorem decodesTo_decodeFamily (w : IWord) : DecodesTo w (decodeFamily w) := by
  unfold decodeFamily
  split
  next hop => exact decodesTo_Opr hop
  next hop => exact decodesTo_Addi hop
  next hop => exact decodesTo_Andi hop
  next hop => exact decodesTo_Ori hop
  next hop => exact decodesTo_Xori hop
  next hop => exact decodesTo_Slti hop
  next hop => exact decodesTo_Sltiu hop
  next hop => exact decodesTo_Lih hop
  next hop => exact decodesTo_Shi hop
  next hop => exact decodesTo_Fop hop
  next hop => exact decodesTo_Ld hop
  next hop => exact decodesTo_Lds hop
  next hop => exact decodesTo_St hop
  next hop => exact decodesTo_Ordm hop
  next hop => exact decodesTo_Amo hop
  next hop => exact decodesTo_Cas hop
  next hop => exact decodesTo_Stn hop
  next hop => exact decodesTo_Bc hop
  next hop => exact decodesTo_J hop
  next hop => exact decodesTo_Jal hop
  next hop => exact decodesTo_Jalr hop
  next hop => exact decodesTo_Callt hop
  next hop => exact decodesTo_Sys hop
  next hop => exact decodesTo_Vcfg hop
  next hop => exact decodesTo_Vint0 hop
  next hop => exact decodesTo_Vint1 hop
  next hop => exact decodesTo_Vcmp hop
  next hop => exact decodesTo_Vflt hop
  next hop => exact decodesTo_Vfma hop
  next hop => exact decodesTo_Vfcv hop
  next hop => exact decodesTo_Vred hop
  next hop => exact decodesTo_Vprm hop
  next hop => exact decodesTo_Vmov hop
  next hop => exact decodesTo_Kops hop
  next hop => exact decodesTo_Vld hop
  next hop => exact decodesTo_Vldx hop
  next hop => exact decodesTo_Vst hop
  next hop => exact decodesTo_Vstx hop
  next hop => exact decodesTo_Vspc hop
  next hop => exact decodesTo_Vrred hop
  next hop => exact decodesTo_Tcfg hop
  next hop => exact decodesTo_Tmem hop
  next hop => exact decodesTo_Tmma hop
  next hop => exact decodesTo_Twload hop
  next hop => exact decodesTo_Tmov hop
  next hop => exact decodesTo_Cpy hop
  next hop => exact decodesTo_Bar hop
  next hop => exact decodesTo_Synq hop
  next hop => exact decodesTo_Msg hop
  next hop => exact decodesTo_Swp hop
  next hop => exact decodesTo_Gang hop
  next => exact decodesTo_error w _

theorem decode_eq_some_iff {w : IWord} {i : Instr} : decode w = some i ↔ decodeFamily w = .ok i := by
  unfold decode
  split
  next j h => rw [h]; simp
  next e h => rw [h]; simp

/-- A word of an unassigned opcode is of no family. -/
theorem opcodeAssigned_of_decodeFamily {w : IWord} {i : Instr} (h : decodeFamily w = .ok i) : opcodeAssigned w = true := by
  rw [opcodeAssigned, Bool.and_eq_true, decide_eq_true_iff, decide_eq_true_iff]
  unfold decodeFamily at h
  split at h
  case h_52 => cases h
  all_goals (rename_i hop; rw [hop]; exact ⟨by decide, by decide⟩)

theorem scanWord_eq_ok_iff {m : Word} {w : IWord} {i : Instr} : scanWord m w = .ok i ↔ decode w = some i ∧ featureOk m w = true := by
  rw [decode_eq_some_iff, scanWord]
  constructor
  · intro h
    split at h
    · cases h
    · split at h
      · cases h
      next hfeature => exact ⟨h, by simpa using hfeature⟩
  · rintro ⟨hfam, hfeature⟩
    rw [opcodeAssigned_of_decodeFamily hfam, hfeature, hfam]
    rfl

/-! ### The statements -/

/-- Settles O55: a family accepts a word only with every cell of it accounted for, and the scanner passes what a family accepts. -/
theorem wordsMeanOneInstruction : Obligations.WordsMeanOneInstruction :=
  ⟨fun w i h => decodesTo_decodeFamily w i (decode_eq_some_iff.mp h), fun _ _ _ => scanWord_eq_ok_iff⟩

/-- Settles O54: the round trip of each constructor. -/
theorem encodingRoundTrip : Obligations.EncodingRoundTrip := by
  intro i
  cases i with
  | add d a b => exact Encode.add d a b
  | sub d a b => exact Encode.sub d a b
  | and d a b => exact Encode.and d a b
  | or d a b => exact Encode.or d a b
  | xor d a b => exact Encode.xor d a b
  | andn d a b => exact Encode.andn d a b
  | sll d a b => exact Encode.sll d a b
  | srl d a b => exact Encode.srl d a b
  | sra d a b => exact Encode.sra d a b
  | slt d a b => exact Encode.slt d a b
  | sltu d a b => exact Encode.sltu d a b
  | min d a b => exact Encode.min d a b
  | max d a b => exact Encode.max d a b
  | minu d a b => exact Encode.minu d a b
  | maxu d a b => exact Encode.maxu d a b
  | mul d a b => exact Encode.mul d a b
  | mulh d a b => exact Encode.mulh d a b
  | mulhu d a b => exact Encode.mulhu d a b
  | div d a b => exact Encode.div d a b
  | divu d a b => exact Encode.divu d a b
  | rem d a b => exact Encode.rem d a b
  | remu d a b => exact Encode.remu d a b
  | clz d a => exact Encode.clz d a
  | ctz d a => exact Encode.ctz d a
  | popc d a => exact Encode.popc d a
  | csel d a b => exact Encode.csel d a b
  | addw d a b => exact Encode.addw d a b
  | subw d a b => exact Encode.subw d a b
  | mulw d a b => exact Encode.mulw d a b
  | addi d a i => exact Encode.addi d a i
  | andi d a i => exact Encode.andi d a i
  | ori d a i => exact Encode.ori d a i
  | xori d a i => exact Encode.xori d a i
  | slti d a i => exact Encode.slti d a i
  | sltiu d a i => exact Encode.sltiu d a i
  | lih d p i => exact Encode.lih d p i
  | slli d a n => exact Encode.slli d a n
  | srli d a n => exact Encode.srli d a n
  | srai d a n => exact Encode.srai d a n
  | fadd d a b => exact Encode.fadd d a b
  | fsub d a b => exact Encode.fsub d a b
  | fmul d a b => exact Encode.fmul d a b
  | fma d a b => exact Encode.fma d a b
  | fmin d a b => exact Encode.fmin d a b
  | fmax d a b => exact Encode.fmax d a b
  | fcvtws d a => exact Encode.fcvtws d a
  | fcvtsw d a => exact Encode.fcvtsw d a
  | flt d a b => exact Encode.flt d a b
  | feq d a b => exact Encode.feq d a b
  | ld d a o z => exact Encode.ld d a o z
  | lds d a o z => exact Encode.lds d a o z
  | st d a o z => exact Encode.st d a o z
  | lda d a c z => exact Encode.lda d a c z
  | str a b c z => exact Encode.str a b c z
  | fence c => exact Encode.fence c
  | amoAdd d a b m r q c z => exact Encode.amoAdd d a b m r q c z
  | amoAnd d a b m r q c z => exact Encode.amoAnd d a b m r q c z
  | amoOr d a b m r q c z => exact Encode.amoOr d a b m r q c z
  | amoXor d a b m r q c z => exact Encode.amoXor d a b m r q c z
  | amoSmin d a b m r q c z => exact Encode.amoSmin d a b m r q c z
  | amoSmax d a b m r q c z => exact Encode.amoSmax d a b m r q c z
  | amoUmin d a b m r q c z => exact Encode.amoUmin d a b m r q c z
  | amoUmax d a b m r q c z => exact Encode.amoUmax d a b m r q c z
  | amoSwap d a b r q c z => exact Encode.amoSwap d a b r q c z
  | amoFadd d a b m r q c => exact Encode.amoFadd d a b m r q c
  | cas d a b r q c z => exact Encode.cas d a b r q c z
  | stn d a b c z => exact Encode.stn d a b c z
  | bcEq a b o => exact Encode.bcEq a b o
  | bcNe a b o => exact Encode.bcNe a b o
  | bcLt a b o => exact Encode.bcLt a b o
  | bcGe a b o => exact Encode.bcGe a b o
  | bcLtu a b o => exact Encode.bcLtu a b o
  | bcGeu a b o => exact Encode.bcGeu a b o
  | bcBset a b o => exact Encode.bcBset a b o
  | bcBclr a b o => exact Encode.bcBclr a b o
  | j o => exact Encode.j o
  | jal o => exact Encode.jal o
  | jalr d a i => exact Encode.jalr d a i
  | callt a s => exact Encode.callt a s
  | nop n => exact Encode.nop n
  | csrr d c => exact Encode.csrr d c
  | csrw a c => exact Encode.csrw a c
  | csrs a c => exact Encode.csrs a c
  | csrc a c => exact Encode.csrc a c
  | trap n => exact Encode.trap n
  | bkpt => exact Encode.bkpt
  | wfe a => exact Encode.wfe a
  | exit => exact Encode.exit
  | yield => exact Encode.yield
  | wsb m => exact Encode.wsb m
  | fork a p => exact Encode.fork a p
  | vcfg d a g e => exact Encode.vcfg d a g e
  | vadd d a b x y k => exact Encode.vadd d a b x y k
  | vsub d a b x y k => exact Encode.vsub d a b x y k
  | vmul d a b x y k => exact Encode.vmul d a b x y k
  | vmulh d a b x y k => exact Encode.vmulh d a b x y k
  | vand d a b x y k => exact Encode.vand d a b x y k
  | vor d a b x y k => exact Encode.vor d a b x y k
  | vxor d a b x y k => exact Encode.vxor d a b x y k
  | vandn d a b x y k => exact Encode.vandn d a b x y k
  | vsll d a b x y k => exact Encode.vsll d a b x y k
  | vsrl d a b x y k => exact Encode.vsrl d a b x y k
  | vsra d a b x y k => exact Encode.vsra d a b x y k
  | vmin d a b x y k => exact Encode.vmin d a b x y k
  | vmax d a b x y k => exact Encode.vmax d a b x y k
  | vminu d a b x y k => exact Encode.vminu d a b x y k
  | vmaxu d a b x y k => exact Encode.vmaxu d a b x y k
  | vadds d a b x y k => exact Encode.vadds d a b x y k
  | vcmpEq d a b x y k => exact Encode.vcmpEq d a b x y k
  | vcmpNe d a b x y k => exact Encode.vcmpNe d a b x y k
  | vcmpLt d a b x y k => exact Encode.vcmpLt d a b x y k
  | vcmpLe d a b x y k => exact Encode.vcmpLe d a b x y k
  | vcmpLtu d a b x y k => exact Encode.vcmpLtu d a b x y k
  | vcmpLeu d a b x y k => exact Encode.vcmpLeu d a b x y k
  | vcmpFeq d a b x y k s => exact Encode.vcmpFeq d a b x y k s
  | vcmpFlt d a b x y k s => exact Encode.vcmpFlt d a b x y k s
  | vfadd d a b x y k s => exact Encode.vfadd d a b x y k s
  | vfsub d a b x y k s => exact Encode.vfsub d a b x y k s
  | vfmul d a b x y k s => exact Encode.vfmul d a b x y k s
  | vfmin d a b x y k s => exact Encode.vfmin d a b x y k s
  | vfmax d a b x y k s => exact Encode.vfmax d a b x y k s
  | vfdiv d a b x y k s => exact Encode.vfdiv d a b x y k s
  | vfsqrt d a x k s => exact Encode.vfsqrt d a x k s
  | vfscale d a b x y k s => exact Encode.vfscale d a b x y k s
  | vfma d a b x y k s => exact Encode.vfma d a b x y k s
  | vfms d a b x y k s => exact Encode.vfms d a b x y k s
  | vfnma d a b x y k s => exact Encode.vfnma d a b x y k s
  | vfnms d a b x y k s => exact Encode.vfnms d a b x y k s
  | vfcvt d a x k s => exact Encode.vfcvt d a x k s
  | vfcvti d a x k s => exact Encode.vfcvti d a x k s
  | vfneg d a x k s => exact Encode.vfneg d a x k s
  | vfabs d a x k s => exact Encode.vfabs d a x k s
  | vfclass d a x k s => exact Encode.vfclass d a x k s
  | vredsum d a x k => exact Encode.vredsum d a x k
  | vredmax d a x k => exact Encode.vredmax d a x k
  | vredmin d a x k => exact Encode.vredmin d a x k
  | vredmaxu d a x k => exact Encode.vredmaxu d a x k
  | vredminu d a x k => exact Encode.vredminu d a x k
  | vfredsum d a x k s => exact Encode.vfredsum d a x k s
  | vfredmax d a x k s => exact Encode.vfredmax d a x k s
  | vfredmin d a x k s => exact Encode.vfredmin d a x k s
  | vperm d a b x y k => exact Encode.vperm d a b x y k
  | vslideup d a b x k => exact Encode.vslideup d a b x k
  | vslidedn d a b x k => exact Encode.vslidedn d a b x k
  | vcompress d a x k => exact Encode.vcompress d a x k
  | vexpand d a x k => exact Encode.vexpand d a x k
  | viota d k => exact Encode.viota d k
  | vrix d b y k => exact Encode.vrix d b y k
  | vrixw a b x y k => exact Encode.vrixw a b x y k
  | vmv d a x k => exact Encode.vmv d a x k
  | vsplat d a k => exact Encode.vsplat d a k
  | vext d a b x => exact Encode.vext d a b x
  | vins d a b => exact Encode.vins d a b
  | vsel d a b x y k => exact Encode.vsel d a b x y k
  | vmvi d a => exact Encode.vmvi d a
  | vmvo d a x => exact Encode.vmvo d a x
  | kand d a b => exact Encode.kand d a b
  | kor d a b => exact Encode.kor d a b
  | kxor d a b => exact Encode.kxor d a b
  | kandn d a b => exact Encode.kandn d a b
  | kpopc d a => exact Encode.kpopc d a
  | kfirst d a => exact Encode.kfirst d a
  | kbrka d a => exact Encode.kbrka d a
  | kbrki d a => exact Encode.kbrki d a
  | gbcast a x => exact Encode.gbcast a x
  | grecv d => exact Encode.grecv d
  | vld v a k w s => exact Encode.vld v a k w s
  | vlds v a b k w s => exact Encode.vlds v a b k w s
  | vldx v a b k w s c => exact Encode.vldx v a b k w s c
  | vgl v a b k w s c => exact Encode.vgl v a b k w s c
  | vst v a k w s c => exact Encode.vst v a k w s c
  | vsts v a b k w s c => exact Encode.vsts v a b k w s c
  | vstx v a b k w s c => exact Encode.vstx v a b k w s c
  | vsc v a b k w s c => exact Encode.vsc v a b k w s c
  | vldff v a k w s => exact Encode.vldff v a k w s
  | vappend v a b k w s c => exact Encode.vappend v a b k w s c
  | vrred v a b k w s c => exact Encode.vrred v a b k w s c
  | tshape d a f => exact Encode.tshape d a f
  | setmw a => exact Encode.setmw a
  | tpref m p w => exact Encode.tpref m p w
  | tdrop m p w => exact Encode.tdrop m p w
  | tzero m p w => exact Encode.tzero m p w
  | tloadA m a b y p w => exact Encode.tloadA m a b y p w
  | tloadB m a b y p w => exact Encode.tloadB m a b y p w
  | tloadC m a b p w => exact Encode.tloadC m a b p w
  | tstoreA m a b p w => exact Encode.tstoreA m a b p w
  | tstoreB m a b p w => exact Encode.tstoreB m a b p w
  | tstoreC m a b p w => exact Encode.tstoreC m a b p w
  | tmma d a l f p w => exact Encode.tmma d a l f p w
  | tmmaSet d a l f p w => exact Encode.tmmaSet d a l f p w
  | tmmaSw d a l f p w => exact Encode.tmmaSw d a l f p w
  | tmmaSetSw d a l f p w => exact Encode.tmmaSetSw d a l f p w
  | twload a l f p w => exact Encode.twload a l f p w
  | vtom m a b p w => exact Encode.vtom m a b p w
  | mtov d a b l p w => exact Encode.mtov d a b l p w
  | ttrans d a l p w => exact Encode.ttrans d a l p w
  | tcvt d a l f p w => exact Encode.tcvt d a l f p w
  | tadd d a b l h f p w => exact Encode.tadd d a b l h f p w
  | cpy a b c g p w => exact Encode.cpy a b c g p w
  | cpyt a b c g p w => exact Encode.cpyt a b c g p w
  | mdiscard a c g p w => exact Encode.mdiscard a c g p w
  | cpyz a b c g p w => exact Encode.cpyz a b c g p w
  | binit a b p w => exact Encode.binit a b p w
  | bexp a b p w => exact Encode.bexp a b p w
  | barr a b p w => exact Encode.barr a b p w
  | bwait a b p w => exact Encode.bwait a b p w
  | btest a b p w => exact Encode.btest a b p w
  | pend a b p w => exact Encode.pend a b p w
  | bexparr a b c p w => exact Encode.bexparr a b c p w
  | tokp p => exact Encode.tokp p
  | tokw w => exact Encode.tokw w
  | gset a g => exact Encode.gset a g
  | grst g => exact Encode.grst g
  | msend a g p w => exact Encode.msend a g p w
  | tsend a b g p w => exact Encode.tsend a b g p w
  | tsendAdd a b g p w => exact Encode.tsendAdd a b g p w
  | rpost a b p w => exact Encode.rpost a b p w
  | rpostm a b c p w => exact Encode.rpostm a b c p w
  | rcancel a b p w => exact Encode.rcancel a b p w
  | rprobe a b c p w => exact Encode.rprobe a b c p w
  | swp a b p w => exact Encode.swp a b p w
  | swnext p w => exact Encode.swnext p w
  | swexit p w => exact Encode.swexit p w
  | swake a b p w => exact Encode.swake a b p w
  | swakev a b c p w => exact Encode.swakev a b c p w
  | swakee a b p w => exact Encode.swakee a b p w
  | stnFlagIncrement => exact Encode.stnFlagIncrement
  | msmcfgWrite => exact Encode.msmcfgWrite
  | srseedWrite => exact Encode.srseedWrite
  | registerWrite => exact Encode.registerWrite
  | wfeTimeout => exact Encode.wfeTimeout
  | vectorLoadLateError => exact Encode.vectorLoadLateError
  | scatterAck => exact Encode.scatterAck
  | mCommandRetire => exact Encode.mCommandRetire
  | fillComplete => exact Encode.fillComplete
  | spillComplete => exact Encode.spillComplete
  | copyStart => exact Encode.copyStart
  | copyRetire => exact Encode.copyRetire
  | guardedCommandDiscard => exact Encode.guardedCommandDiscard
  | bwaitWake => exact Encode.bwaitWake
  | sendStart => exact Encode.sendStart
  | pullRequest => exact Encode.pullRequest
  | sendComplete => exact Encode.sendComplete
  | headerArrival => exact Encode.headerArrival
  | sequenceGapClose => exact Encode.sequenceGapClose
  | pullComplete => exact Encode.pullComplete
  | pullFail => exact Encode.pullFail
  | landing => exact Encode.landing
  | destfaultRetry => exact Encode.destfaultRetry
  | groupOpen => exact Encode.groupOpen
  | sweepEngineFault => exact Encode.sweepEngineFault
  | wakeApply => exact Encode.wakeApply
  | swakeePass => exact Encode.swakeePass
  | scoreboardSlotComplete => exact Encode.scoreboardSlotComplete
  | remoteTimeout => exact Encode.remoteTimeout
  | tagQuarantineEnd => exact Encode.tagQuarantineEnd
  | latereply => exact Encode.latereply
  | watchdog => exact Encode.watchdog
  | faultRecordAppend => exact Encode.faultRecordAppend
  | schedulerServe => exact Encode.schedulerServe
  | preemptionHalt => exact Encode.preemptionHalt
  | saveComplete => exact Encode.saveComplete
  | priorityInheritanceMove => exact Encode.priorityInheritanceMove
  | heldContinuationEnqueue => exact Encode.heldContinuationEnqueue
  | throttleRaise => exact Encode.throttleRaise
  | throttleLower => exact Encode.throttleLower
  | powerPreemption => exact Encode.powerPreemption
  | yalushResume => exact Encode.yalushResume
  | launchEnd => exact Encode.launchEnd
  | msmThermalLimit => exact Encode.msmThermalLimit
  | msmThermalClear => exact Encode.msmThermalClear
  | hbmThermalLevel => exact Encode.hbmThermalLevel
  | eccCorrected => exact Encode.eccCorrected
  | uncorrectedError => exact Encode.uncorrectedError
  | selfTestComplete => exact Encode.selfTestComplete
  | shootdownRequest => exact Encode.shootdownRequest
  | shootdownArrival => exact Encode.shootdownArrival
  | scanComplete => exact Encode.scanComplete
  | featureMaskNarrow => exact Encode.featureMaskNarrow
  | securityAlarm => exact Encode.securityAlarm
  | partitionActivate => exact Encode.partitionActivate
  | ylLaunch => exact Encode.ylLaunch
  | ylWait => exact Encode.ylWait
  | ylMap => exact Encode.ylMap
  | ylUnmap => exact Encode.ylUnmap
  | ylExmap => exact Encode.ylExmap
  | ylMboxOpen => exact Encode.ylMboxOpen
  | ylMboxClose => exact Encode.ylMboxClose
  | ylJoinCreate => exact Encode.ylJoinCreate
  | ylFaultPolicy => exact Encode.ylFaultPolicy
  | ylQuota => exact Encode.ylQuota
  | ylPeerQuery => exact Encode.ylPeerQuery
  | ylAttest => exact Encode.ylAttest
  | ylExit => exact Encode.ylExit
  | ylClock => exact Encode.ylClock
  | ylMemAlloc => exact Encode.ylMemAlloc
  | ylMemFree => exact Encode.ylMemFree
  | doorbell => exact Encode.doorbell
  | functionLevelReset => exact Encode.functionLevelReset
  | linkDown => exact Encode.linkDown
  | powerGood => exact Encode.powerGood
  | recoveryImageSubmit => exact Encode.recoveryImageSubmit
  | powerCapSet => exact Encode.powerCapSet
  | packageReset => exact Encode.packageReset
  | idleEntry => exact Encode.idleEntry
  | idleExit => exact Encode.idleExit
  | accessPerformed => exact Encode.accessPerformed
  | remoteAccessArrival => exact Encode.remoteAccessArrival
  | linkUp => exact Encode.linkUp
  | powerLoss => exact Encode.powerLoss

theorem decode_eq_none {w : IWord} (h : w.toNat / 2 ^ 26 = 0 ∨ 0x34 ≤ w.toNat / 2 ^ 26) : decode w = none := by
  have hlt := w.isLt
  rw [Option.eq_none_iff_forall_ne_some]
  intro i hi
  have hop := opcodeAssigned_of_decodeFamily (decode_eq_some_iff.mp hi)
  rw [opcodeAssigned, Bool.and_eq_true, decide_eq_true_iff, decide_eq_true_iff, toNat_fld] at hop
  omega

/-- Settles O56: each word is decoded, and no word without an assigned opcode is. -/
theorem decodedWords : Obligations.DecodedWords := by
  refine ⟨?_, fun _ => decode_eq_none⟩
  simp only [List.forall_mem_cons]
  exact ⟨rfl, rfl, rfl, rfl, rfl, rfl, rfl, rfl, rfl, rfl, rfl, rfl, rfl, rfl, rfl, rfl, rfl, List.forall_mem_nil _⟩

end Sys2Proof.Laws
end

section

/-! PROOFS. The state after package reset (spec/20_host_links_and_bringup.md R376). -/

namespace Sys2Proof.Machine

open Sys2Proof

/-- Settles O59: no table of the reset state lists anything. -/
theorem resetState : Obligations.ResetState :=
  ⟨fun _ => rfl, fun _ => rfl, rfl, rfl, rfl, rfl, rfl, wf_reset, wf_reset_host⟩

end Sys2Proof.Machine
end

section
/-! PROOFS. Rounding, and the FP32 forms of a scalar register (spec/04_number_formats.md R63 to R71,
spec/14_scalar_instructions.md R241): what the rounding modes give, that a number of a format rounds to itself, and the value of each form. -/

set_option Elab.async false

namespace Sys2Proof.Machine

open Sys2Proof

/-! ### Rounding to an integer (spec/04_number_formats.md R67) -/

/-- With no bits below the last one nothing is rounded. -/
theorem roundQ_of_nonpos {shift : Int} (h : shift ≤ 0) (rm : BitVec 3) (neg : Bool) (g m : Nat) (sticky : Bool) :
    roundQ rm neg g m shift sticky = (m * 2 ^ (-shift).toNat, sticky) := if_pos h

/-- Whether a mode takes the next integer: `r` of `2^k` units are left, `q` is the integer part, `g` the draw of SR. -/
def roundsUp (rm : BitVec 3) (neg : Bool) (g q r k : Nat) (sticky : Bool) : Bool :=
  match rm.toNat with
  | 0 => decide (2 ^ (k - 1) < r) || (decide (r = 2 ^ (k - 1)) && (sticky || decide (q % 2 = 1)))
  | 1 => false
  | 2 => (sticky || decide (r ≠ 0)) && !neg
  | 3 => (sticky || decide (r ≠ 0)) && neg
  | 4 => decide (2 ^ (k - 1) ≤ r)
  | _ => decide (65536 ≤ 65536 * r / 2 ^ k + g)

theorem roundQ_of_pos {k : Nat} (h : 0 < k) (rm : BitVec 3) (neg : Bool) (g m : Nat) (sticky : Bool) :
    roundQ rm neg g m k sticky =
      (if (sticky || decide (m % 2 ^ k ≠ 0)) && roundsUp rm neg g (m / 2 ^ k) (m % 2 ^ k) k sticky then m / 2 ^ k + 1 else m / 2 ^ k,
        sticky || decide (m % 2 ^ k ≠ 0)) := by
  have hk : ¬ (k : Int) ≤ 0 := by omega
  unfold roundQ
  rw [if_neg hk, Int.toNat_natCast]
  rfl

theorem two_pow_eq_half {k : Nat} (h : 0 < k) : 2 ^ k = 2 * 2 ^ (k - 1) := by
  rw [← Nat.pow_succ', Nat.succ_eq_add_one, Nat.sub_add_cancel h]

/-- What the rounding modes other than SR give. -/
theorem roundQ_modes (neg : Bool) (g m k : Nat) (sticky : Bool) (hk : 0 < k) :
    let q := m / 2 ^ k
    let r := 2 * (m % 2 ^ k)
    let inexact := sticky || decide (r ≠ 0)
    let go (rm : BitVec 3) := (roundQ rm neg g m k sticky).1
    (∀ rm, (roundQ rm neg g m k sticky).2 = inexact) ∧
    go 0#3 = (if 2 ^ k < r ∨ r = 2 ^ k ∧ (sticky = true ∨ q % 2 = 1) then q + 1 else q) ∧
    go 1#3 = q ∧
    go 2#3 = (if inexact = true ∧ neg = false then q + 1 else q) ∧
    go 3#3 = (if inexact = true ∧ neg = true then q + 1 else q) ∧
    go 4#3 = (if 2 ^ k ≤ r then q + 1 else q) := by
  intro q r inexact go
  have hhalf := two_pow_eq_half hk
  have hpos : 0 < 2 ^ (k - 1) := Nat.two_pow_pos _
  have hgo := fun rm => congrArg Prod.fst (roundQ_of_pos hk rm neg g m sticky)
  have hr : decide (r ≠ 0) = decide (m % 2 ^ k ≠ 0) := by
    rw [decide_eq_decide]; omega
  refine ⟨fun rm => ?_, (hgo _).trans (if_congr ?_ rfl rfl), ?_, (hgo _).trans (if_congr ?_ rfl rfl), (hgo _).trans (if_congr ?_ rfl rfl),
    (hgo _).trans (if_congr ?_ rfl rfl)⟩
  · rw [roundQ_of_pos hk]; exact congrArg (sticky || ·) hr.symm
  · cases sticky <;> simp [roundsUp, q, r] <;> omega
  · simpa [roundsUp, q] using hgo 1#3
  · simp only [inexact, hr, roundsUp]
    cases neg <;> simp
  · simp only [inexact, hr, roundsUp]
    cases neg <;> simp
  · simp [roundsUp]
    omega

/-! ### Numbers of a format round to themselves (spec/04_number_formats.md R63, R67) -/

/-- What the formats have in common whose largest finite number, `mx × 2^(top - bias - mbits)`, has exponent field `top`. -/
structure FFmt.Regular (f : FFmt) (mx top : Nat) : Prop where
  width : f.width = 1 + f.ebits + f.mbits
  max : decodeFloat f false (maxEnc f) = .fin false mx ((top : Int) - f.bias - f.mbits) false
  two_le : 2 ≤ top
  room : 2 ^ f.mbits ≤ mx
  sp : f.sp = .ieee ∧ top + 2 = 2 ^ f.ebits ∧ mx + 1 = 2 ^ (f.mbits + 1) ∨ f.sp = .oneNan ∧ top + 1 = 2 ^ f.ebits ∧ mx + 2 = 2 ^ (f.mbits + 1)

/-- The encodings of finite numbers, subnormal and normal, with sign, magnitude and exponent. -/
inductive FiniteEnc (f : FFmt) (mx top x : Nat) : Bool → Nat → Int → Prop
  | sub (neg : Bool) (frac : Nat) (hfrac : frac < 2 ^ f.mbits) (hx : x = signBit f neg + frac) : FiniteEnc f mx top x neg frac (minUlp f)
  | norm (neg : Bool) (frac ex : Nat) (hfrac : frac < 2 ^ f.mbits) (hex : 0 < ex) (htop : ex ≤ top) (hmax : ex = top → 2 ^ f.mbits + frac ≤ mx)
      (hx : x = signBit f neg + (ex * 2 ^ f.mbits + frac)) : FiniteEnc f mx top x neg (2 ^ f.mbits + frac) (ex - f.bias - f.mbits)

theorem bitLen_of_range {m k : Nat} (h1 : 2 ^ k ≤ m) (h2 : m < 2 ^ (k + 1)) : bitLen m = k + 1 := by
  refine le_antisymm ((bitLen_le_iff _ _).mpr h2) ?_
  by_contra hlt
  exact absurd ((bitLen_le_iff m k).mp (by omega)) (by omega)

theorem bitLen_pos {m : Nat} (h : m ≠ 0) : 0 < bitLen m := by
  unfold bitLen; rw [if_neg h]; omega

/-- A number that is at most the largest one is not above it. -/
theorem aboveMax_eq_false {f : FFmt} {mx : Nat} {ex : Int} (hmax : decodeFloat f false (maxEnc f) = .fin false mx ex false)
    {m : Nat} {e : Int} (h : m * 2 ^ (e - min e ex).toNat ≤ mx * 2 ^ (ex - min e ex).toNat) : aboveMax f m e false = false := by
  unfold aboveMax
  rw [hmax]
  simpa using h

/-- A finite value with few enough bits is written as it is. -/
theorem encodeFloat_exact {f : FFmt} {neg : Bool} {m : Nat} {e : Int} (rm : BitVec 3) (g : Nat) (hm : m ≠ 0) (hbits : bitLen m ≤ f.mbits + 1)
    (he : minUlp f ≤ e) (hbelow : aboveMax f (m * 2 ^ (f.mbits + 1 - bitLen m)) (e + bitLen m - 1 - f.mbits) false = false) :
    encodeFloat f ⟨rm, false, false⟩ g (.fin neg m e false) =
      (let u := max (e + bitLen m - 1 - f.mbits) (minUlp f)
       let q := m * 2 ^ (e - u).toNat
       (signBit f neg + (if q < 2 ^ f.mbits then q else (u - minUlp f).toNat * 2 ^ f.mbits + q), 0#5)) := by
  have hpos := bitLen_pos hm
  have hwide : e + bitLen m - 1 - f.mbits - e ≤ 0 := by omega
  have hu : max (e + bitLen m - 1 - f.mbits) (minUlp f) - e ≤ 0 := by omega
  have hexp : (-(e + bitLen m - 1 - f.mbits - e)).toNat = f.mbits + 1 - bitLen m := by omega
  have hexp' : (-(max (e + bitLen m - 1 - f.mbits) (minUlp f) - e)).toNat = (e - max (e + bitLen m - 1 - f.mbits) (minUlp f)).toNat := by omega
  unfold encodeFloat
  dsimp only
  rw [if_neg (by simp [hm]), roundQ_of_nonpos hwide, roundQ_of_nonpos hu, hexp, hexp', hbelow]
  simp [flIf]


/-- A magnitude with room for one more factor of two is not above the largest number of a higher exponent. -/
theorem aboveMax_eq_false_of_lt {f : FFmt} {mx : Nat} {ex : Int} (hmax : decodeFloat f false (maxEnc f) = .fin false mx ex false)
    {m : Nat} {e : Int} (hm : m ≤ 2 * mx) (he : e < ex) : aboveMax f m e false = false := by
  refine aboveMax_eq_false hmax ?_
  rw [min_eq_left he.le, Int.sub_self, Int.toNat_zero, Nat.pow_zero, Nat.mul_one]
  obtain ⟨n, hn⟩ : ∃ n, (ex - e).toNat = n + 1 := ⟨(ex - e).toNat - 1, by omega⟩
  calc m ≤ mx * 2 := by omega
    _ ≤ mx * 2 ^ (ex - e).toNat := Nat.mul_le_mul_left _ (by rw [hn, Nat.pow_succ]; exact Nat.le_mul_of_pos_left 2 (Nat.two_pow_pos n))

theorem FiniteEnc.encode {f : FFmt} {mx top x : Nat} (hf : f.Regular mx top) {neg : Bool} {m : Nat} {e : Int}
    (h : FiniteEnc f mx top x neg m e) (rm : BitVec 3) (g : Nat) : encodeFloat f ⟨rm, false, false⟩ g (.fin neg m e false) = (x, 0#5) := by
  obtain ⟨-, hmax, htop2, hroom, -⟩ := hf
  cases h with
  | sub _ hfrac hx =>
    by_cases hm : m = 0
    · subst hm hx; simp [encodeFloat]
    · have hle : bitLen m ≤ f.mbits := (bitLen_le_iff _ _).mpr hfrac
      have hscaled : m * 2 ^ (f.mbits + 1 - bitLen m) ≤ 2 * mx := by
        have hlt : m < 2 ^ bitLen m := (bitLen_le_iff _ _).mp le_rfl
        calc m * 2 ^ (f.mbits + 1 - bitLen m) ≤ 2 ^ bitLen m * 2 ^ (f.mbits + 1 - bitLen m) := Nat.mul_le_mul_right _ hlt.le
          _ = 2 * 2 ^ f.mbits := by rw [← Nat.pow_add, ← Nat.pow_succ']; congr 1; omega
          _ ≤ 2 * mx := Nat.mul_le_mul_left 2 hroom
      have hpos := bitLen_pos hm
      rw [encodeFloat_exact rm g hm (by omega) le_rfl (aboveMax_eq_false_of_lt hmax hscaled (by unfold minUlp; omega))]
      have hu : max (minUlp f + bitLen m - 1 - f.mbits) (minUlp f) = minUlp f := max_eq_right (by omega)
      simp [hu, hfrac, hx]
  | norm frac ex hfrac hex htop hexmax hx =>
    have hlen : bitLen (2 ^ f.mbits + frac) = f.mbits + 1 := bitLen_of_range (by omega) (by rw [Nat.pow_succ]; omega)
    have hbelow : aboveMax f (2 ^ f.mbits + frac) (ex - f.bias - f.mbits) false = false := by
      rcases Nat.lt_or_eq_of_le htop with hlt | heq
      · exact aboveMax_eq_false_of_lt hmax (by omega) (by omega)
      · refine aboveMax_eq_false hmax ?_
        subst heq
        simpa using hexmax rfl
    have hwide : (ex - f.bias - f.mbits : Int) + (f.mbits + 1 : Nat) - 1 - f.mbits = ex - f.bias - f.mbits := by omega
    have he : minUlp f ≤ ex - f.bias - f.mbits := by unfold minUlp; omega
    rw [encodeFloat_exact rm g (by have := Nat.two_pow_pos f.mbits; omega) hlen.le he (by rw [hlen, hwide, Nat.sub_self, Nat.pow_zero, Nat.mul_one]; exact hbelow)]
    have hfield : (ex - f.bias - f.mbits - minUlp f : Int).toNat = ex - 1 := by unfold minUlp; omega
    have hnot : ¬ 2 ^ f.mbits + frac < 2 ^ f.mbits := by omega
    simp only [hlen, hwide, max_eq_left he, Int.sub_self, Int.toNat_zero, Nat.pow_zero, Nat.mul_one, hnot, if_false, hfield, hx]
    obtain ⟨n, rfl⟩ : ∃ n, ex = n + 1 := ⟨ex - 1, by omega⟩
    rw [Nat.add_sub_cancel, Nat.succ_mul]
    congr 1
    omega

/-- An encoding by sign, exponent field and fraction. -/
theorem enc_split (f : FFmt) (hw : f.width = 1 + f.ebits + f.mbits) {x : Nat} (hx : x < 2 ^ f.width) :
    x = signBit f (decide (x / 2 ^ (f.width - 1) % 2 = 1)) + (x / 2 ^ f.mbits % 2 ^ f.ebits * 2 ^ f.mbits + x % 2 ^ f.mbits) := by
  have hpow : 2 ^ (f.width - 1) = 2 ^ f.ebits * 2 ^ f.mbits := by rw [← Nat.pow_add]; congr 1; omega
  have hwid : 2 ^ f.width = 2 * 2 ^ (f.width - 1) := two_pow_eq_half (by omega)
  have hlow := Nat.div_add_mod' x (2 ^ f.mbits)
  have hmid := Nat.div_add_mod' (x / 2 ^ f.mbits) (2 ^ f.ebits)
  have htop : x / 2 ^ f.mbits / 2 ^ f.ebits = x / 2 ^ (f.width - 1) := by rw [Nat.div_div_eq_div_mul, hpow, Nat.mul_comm]
  have hbit : x / 2 ^ (f.width - 1) < 2 := Nat.div_lt_of_lt_mul (by rwa [Nat.mul_comm, ← hwid])
  generalize x / 2 ^ (f.width - 1) = b at htop hbit ⊢
  have hsign : signBit f (decide (b % 2 = 1)) = b * (2 ^ f.ebits * 2 ^ f.mbits) := by
    rw [← hpow]
    rcases (show b = 0 ∨ b = 1 by omega) with rfl | rfl <;> simp [signBit]
  rw [hsign]
  conv_lhs => rw [← hlow, ← hmid, htop]
  ring

/-- A number that is no NaN is an infinity or finite. -/
theorem decodeFloat_cases {f : FFmt} {mx top : Nat} (hf : f.Regular mx top) {x : Nat} (hx : x < 2 ^ f.width)
    (hnan : (decodeFloat f false x).isNan = false) :
    (f.sp = .ieee ∧ ∃ neg, decodeFloat f false x = .inf neg ∧ x = signBit f neg + (2 ^ f.ebits - 1) * 2 ^ f.mbits) ∨
    ∃ neg m e, decodeFloat f false x = .fin neg m e false ∧ FiniteEnc f mx top x neg m e := by
  have hsplit := enc_split f hf.width hx
  have hfrac : x % 2 ^ f.mbits < 2 ^ f.mbits := Nat.mod_lt _ (Nat.two_pow_pos _)
  have hex : x / 2 ^ f.mbits % 2 ^ f.ebits < 2 ^ f.ebits := Nat.mod_lt _ (Nat.two_pow_pos _)
  have hpow : 2 ^ (f.mbits + 1) = 2 * 2 ^ f.mbits := Nat.pow_succ'
  obtain ⟨-, -, -, -, hsp⟩ := hf
  unfold decodeFloat at hnan ⊢
  dsimp only at hnan ⊢
  split at hnan
  next htop =>
    rw [if_pos htop]
    split at hnan
    next hzero =>
      rw [if_pos hzero]
      refine .inl ⟨htop.1, _, rfl, ?_⟩
      rw [htop.2, hzero] at hsplit
      exact hsplit
    next => cases hnan
  next htop =>
    rw [if_neg htop]
    split at hnan
    next => cases hnan
    next hone =>
      rw [if_neg hone]
      refine .inr ?_
      split
      next h0 =>
        rw [h0, Nat.zero_mul, Nat.zero_add] at hsplit
        exact ⟨_, _, _, rfl, .sub _ _ hfrac hsplit⟩
      next h0 =>
        refine ⟨_, _, _, rfl, .norm _ _ _ hfrac (Nat.pos_of_ne_zero h0) ?_ (fun heq => ?_) hsplit⟩
        · rcases hsp with ⟨hs, ht, -⟩ | ⟨hs, ht, -⟩
          · have : x / 2 ^ f.mbits % 2 ^ f.ebits ≠ 2 ^ f.ebits - 1 := fun h => htop ⟨hs, h⟩
            omega
          · omega
        · rcases hsp with ⟨hs, ht, hm⟩ | ⟨hs, ht, hm⟩
          · omega
          · have : x % 2 ^ f.mbits ≠ 2 ^ f.mbits - 1 := fun h => hone ⟨hs, by omega, h⟩
            omega

theorem encodeFloat_decodeFloat {f : FFmt} {mx top : Nat} (hf : f.Regular mx top) (rm : BitVec 3) (g : Nat) {x : Nat} (hx : x < 2 ^ f.width)
    (hnan : (decodeFloat f false x).isNan = false) : encodeFloat f ⟨rm, false, false⟩ g (decodeFloat f false x) = (x, 0#5) := by
  rcases decodeFloat_cases hf hx hnan with ⟨hs, neg, hinf, hx'⟩ | ⟨neg, m, e, hfin, henc⟩
  · rw [hinf]
    simp [encodeFloat, infinityF, hs, hx']
  · rw [hfin, henc.encode hf]

theorem regular_fp32 : fp32.Regular (2 ^ 24 - 1) 254 := by constructor <;> decide
theorem regular_bf16 : bf16.Regular (2 ^ 8 - 1) 254 := by constructor <;> decide
theorem regular_fp16 : fp16.Regular (2 ^ 11 - 1) 30 := by constructor <;> decide
theorem regular_e4m3 : e4m3.Regular 14 15 := by constructor <;> decide
theorem regular_e5m2 : e5m2.Regular 7 30 := by constructor <;> decide

/-- Settles O4: the modes by cases of the remainder, and a number of a format by the exactness of its own exponent. -/
theorem roundingAndFormats : Obligations.RoundingAndFormats := by
  refine ⟨roundQ_modes, ?_⟩
  simp only [List.forall_mem_cons]
  exact ⟨fun rm g _ => encodeFloat_decodeFloat regular_fp32 rm g, fun rm g _ => encodeFloat_decodeFloat regular_bf16 rm g,
    fun rm g _ => encodeFloat_decodeFloat regular_fp16 rm g, fun rm g _ => encodeFloat_decodeFloat regular_e4m3 rm g,
    fun rm g _ => encodeFloat_decodeFloat regular_e5m2 rm g, List.forall_mem_nil _⟩

/-! ### FP32 forms of a scalar register (spec/14_scalar_instructions.md R241) -/

theorem zext64_eq_ofNat {n : Nat} (x : BitVec n) : zext64 x = BitVec.ofNat 64 x.toNat := (BitVec.ofNat_toNat ..).symm

theorem getF_eq (t : Strand) (r : BitVec 5) : t.getF r = f32 ((t.getS r).setWidth 32) := by
  rw [Strand.getF, slice, BitVec.setWidth_eq_extractLsb' (by decide)]

/-- A form that leaves an FP32 word in s[d]. -/
theorem givesF32_of_scalarResult {i : BitVec 5 → BitVec 5 → BitVec 5 → Instr} {f : BitVec 32 → BitVec 32 → BitVec 32 → BitVec 32}
    {run : BitVec 5 → BitVec 5 → BitVec 5 → Strand → Word}
    (hexec : ∀ d a b s, exec (i d a b) s = scalarResult d (run d a b) s)
    (hval : ∀ d a b t, run d a b t =
      BitVec.ofNat 64 (f ((t.getS a).setWidth 32) ((t.getS b).setWidth 32) ((t.getS d).setWidth 32)).toNat) : GivesF32 i f :=
  fun s d a b => yieldsS_of_scalarResult (hexec d a b s) (hval d a b s.me)

/-- A form whose exact result is rounded once. -/
theorem givesF32_of_fopResult {i : BitVec 5 → BitVec 5 → BitVec 5 → Instr} {f : BitVec 32 → BitVec 32 → BitVec 32} {g : FVal → FVal → FVal}
    (hexec : ∀ d a b s, exec (i d a b) s = fopResult g d a b s) (hval : ∀ x y, toF32 (g (f32 x) (f32 y)) = f x y) :
    GivesF32 i (fun x y _ => f x y) :=
  givesF32_of_scalarResult hexec fun d a b t => by rw [zext64_eq_ofNat, getF_eq, getF_eq, hval]

theorem exec_fadd (d a b : BitVec 5) (s : State) : exec (.fadd d a b) s = fopResult (fun x y => (addV false x y).1) d a b s := rfl
theorem exec_fsub (d a b : BitVec 5) (s : State) : exec (.fsub d a b) s = fopResult (fun x y => (addV false x y.negate).1) d a b s := rfl
theorem exec_fmul (d a b : BitVec 5) (s : State) : exec (.fmul d a b) s = fopResult (fun x y => (mulV x y).1) d a b s := rfl
theorem exec_fma (d a b : BitVec 5) (s : State) : exec (.fma d a b) s =
    scalarResult d (fun t => zext64 (toF32 (fmaV false (t.getF a) (t.getF b) (t.getF d)).1)) s := rfl
theorem exec_fmin (d a b : BitVec 5) (s : State) : exec (.fmin d a b) s = fopResult (fun x y => (minV x y).1) d a b s := rfl
theorem exec_fmax (d a b : BitVec 5) (s : State) : exec (.fmax d a b) s = fopResult (fun x y => (maxV x y).1) d a b s := rfl
theorem exec_flt (d a b : BitVec 5) (s : State) : exec (.flt d a b) s = scalarResult d (fun t => boolWord (ltV (t.getF a) (t.getF b))) s := rfl
theorem exec_feq (d a b : BitVec 5) (s : State) : exec (.feq d a b) s = scalarResult d (fun t => boolWord (eqV (t.getF a) (t.getF b))) s := rfl
theorem exec_fcvtws (d a : BitVec 5) (s : State) : exec (.fcvtws d a) s =
    scalarResult d (fun t => BitVec.ofNat 64 (encodeInt true 32 1#3 0 (t.getF a)).1) s := rfl
theorem exec_fcvtsw (d a : BitVec 5) (s : State) : exec (.fcvtsw d a) s =
    scalarResult d (fun t => zext64 (toF32 (fvalOfInt (slice (t.getS a) 0 32).toInt))) s := rfl

/-- Encodings that differ in the sign bit decode to values that differ in sign. -/
theorem decodeFloat_negate {f : FFmt} {ftz : Bool} {x y : Nat} (hfrac : y % 2 ^ f.mbits = x % 2 ^ f.mbits)
    (hex : y / 2 ^ f.mbits % 2 ^ f.ebits = x / 2 ^ f.mbits % 2 ^ f.ebits)
    (hsign : decide (y / 2 ^ (f.width - 1) % 2 = 1) = !decide (x / 2 ^ (f.width - 1) % 2 = 1)) :
    decodeFloat f ftz y = (decodeFloat f ftz x).negate := by
  unfold decodeFloat
  simp only [hfrac, hex, hsign, apply_ite FVal.negate]
  rfl

theorem f32_xor_sign (x : BitVec 32) : f32 (x ^^^ 0x80000000#32) = (f32 x).negate := by
  refine decodeFloat_negate ?_ ?_ ?_
  · rw [BitVec.toNat_xor, Nat.xor_mod_two_pow]; exact Nat.xor_zero _
  · rw [BitVec.toNat_xor, Nat.xor_div_two_pow, Nat.xor_mod_two_pow]; exact Nat.xor_zero _
  · have hbit : (x ^^^ 0x80000000#32).toNat / 2 ^ 31 % 2 ^ 1 = x.toNat / 2 ^ 31 % 2 ^ 1 ^^^ 1 := by
      rw [BitVec.toNat_xor, Nat.xor_div_two_pow, Nat.xor_mod_two_pow]; rfl
    change decide ((x ^^^ 0x80000000#32).toNat / 2 ^ 31 % 2 ^ 1 = 1) = !decide (x.toNat / 2 ^ 31 % 2 ^ 1 = 1)
    have hlt : x.toNat / 2 ^ 31 % 2 ^ 1 < 2 := Nat.mod_lt _ (by decide)
    rw [hbit]
    generalize x.toNat / 2 ^ 31 % 2 ^ 1 = b at hlt
    interval_cases b <;> rfl

theorem toF32_f32 {x : BitVec 32} (h : (f32 x).isNan = false) : toF32 (f32 x) = x := by
  have := encodeFloat_decodeFloat regular_fp32 0#3 0 x.isLt h
  rw [toF32, f32, roundRne, this, BitVec.ofNat_toNat, BitVec.setWidth_eq]

theorem toF32_nan (sig : Bool) : toF32 (.nan sig) = 0x7FC00000#32 := rfl

/-- The smaller or the larger of two words, as the rule writes it. -/
theorem toF32_pick {x y : BitVec 32} {p : FVal → FVal → FVal × Flags} (below : Bool)
    (hp : (p (f32 x) (f32 y)).1 = if (f32 x).isNan && (f32 y).isNan then .nan false else if (f32 x).isNan then f32 y
      else if (f32 y).isNan then f32 x else if below then f32 y else f32 x) :
    toF32 (p (f32 x) (f32 y)).1 = if (f32 x).isNan && (f32 y).isNan then 0x7FC00000#32 else if (f32 x).isNan then y
      else if (f32 y).isNan then x else if below then y else x := by
  rw [hp]
  cases hx : (f32 x).isNan <;> cases hy : (f32 y).isNan <;> cases below <;> simp [toF32_f32, toF32_nan, hx, hy]

theorem minV_fst (x y : FVal) : (minV x y).1 = if x.isNan && y.isNan then .nan false else if x.isNan then y
      else if y.isNan then x else if belowV y x then y else x := by
  unfold minV
  simp only [apply_ite Prod.fst]

theorem maxV_fst (x y : FVal) : (maxV x y).1 = if x.isNan && y.isNan then .nan false else if x.isNan then y
      else if y.isNan then x else if belowV x y then y else x := by
  unfold maxV
  simp only [apply_ite Prod.fst]

theorem boolWord_eq_ofNat (b : Bool) : boolWord b = BitVec.ofNat 64 (if b then 1#32 else 0#32).toNat := by cases b <;> rfl

/-- A magnitude rounded toward zero. -/
theorem roundQ_rtz (neg : Bool) (g m : Nat) (e : Int) (sticky : Bool) :
    (roundQ 1#3 neg g m (-e) sticky).1 = if 0 ≤ e then m * 2 ^ e.toNat else m / 2 ^ (-e).toNat := by
  unfold roundQ
  by_cases he : 0 ≤ e
  · rw [if_pos (by omega), if_pos he, Int.neg_neg]
  · rw [if_neg (by omega), if_neg he]
    simp

theorem wrapInt_lt (w : Nat) (x : Int) : wrapInt w x < 2 ^ w := by
  rw [wrapInt_eq_toNat_ofInt]; exact BitVec.isLt _

theorem ofNat_wrapInt (w : Nat) (x : Int) : BitVec.ofNat w (wrapInt w x) = BitVec.ofInt w x := by
  rw [wrapInt_eq_toNat_ofInt, BitVec.ofNat_toNat, BitVec.setWidth_eq]

/-- A signed conversion of a finite number gives its rounded value, within the bounds. -/
theorem encodeInt_fin (n : Nat) (neg : Bool) (m : Nat) (e : Int) (sticky : Bool) :
    (encodeInt true n 1#3 0 (.fin neg m e sticky)).1 = wrapInt n (max (intMin true n) (min (intMax true n)
      ((if neg then -1 else 1) * (if 0 ≤ e then m * 2 ^ e.toNat else m / 2 ^ (-e).toNat : Nat) : Int))) := by
  have hbounds : intMin true n ≤ intMax true n := by
    have := Int.pow_pos (n := 2) (m := n - 1) (by decide)
    simp only [intMin, intMax, if_true]; omega
  unfold encodeInt
  simp only [BitVec.reduceEq, false_and, if_false, roundQ_rtz]
  generalize (if 0 ≤ e then m * 2 ^ e.toNat else m / 2 ^ (-e).toNat) = q
  have hv : ((if neg then -1 else 1) * q : Int) = if neg = true then -(q : Int) else q := by cases neg <;> simp
  rw [hv]
  generalize (if neg = true then -(q : Int) else q) = v
  split
  next hlow => rw [min_eq_right (by omega), max_eq_left hlow.le]
  next hlow =>
    split
    next hhigh => rw [min_eq_left hhigh.le, max_eq_right hbounds]
    next hhigh => rw [min_eq_right (by omega), max_eq_right (by omega)]

/-- The 32-bit integer of a finite number rounded toward zero, clamped. -/
theorem toInt_encodeInt_fin (neg : Bool) (m : Nat) (e : Int) (sticky : Bool) :
    (BitVec.ofNat 32 (encodeInt true 32 1#3 0 (.fin neg m e sticky)).1).toInt = max (-(2 ^ 31)) (min (2 ^ 31 - 1)
      ((if neg then -1 else 1) * (if 0 ≤ e then m * 2 ^ e.toNat else m / 2 ^ (-e).toNat : Nat) : Int)) := by
  rw [encodeInt_fin, ofNat_wrapInt, BitVec.toInt_ofInt]
  generalize ((if neg then -1 else 1) * (if 0 ≤ e then m * 2 ^ e.toNat else m / 2 ^ (-e).toNat : Nat) : Int) = v
  have hmin : intMin true 32 = -(2 ^ 31) := rfl
  have hmax : intMax true 32 = 2 ^ 31 - 1 := rfl
  rw [hmin, hmax]
  exact Int.bmod_eq_of_le (by omega) (by omega)

theorem encodeInt_lt (x : FVal) : (encodeInt true 32 1#3 0 x).1 < 2 ^ 32 := by
  cases x with
  | nan sig => decide +revert
  | inf neg => exact wrapInt_lt ..
  | fin neg m e sticky => rw [encodeInt_fin]; exact wrapInt_lt ..

/-- Settles O3: every form is one rounding of an exact result; FMIN and FMAX give back an operand, which rounds to itself. -/
theorem scalarFloatForms : Obligations.ScalarFloatForms := by
  unfold Obligations.ScalarFloatForms
  refine ⟨givesF32_of_fopResult exec_fadd fun _ _ => rfl, givesF32_of_fopResult exec_fsub fun x y => by rw [f32_xor_sign],
    givesF32_of_fopResult exec_fmul fun _ _ => rfl, givesF32_of_scalarResult exec_fma fun d a b t => ?_,
    givesF32_of_fopResult exec_fmin fun x y => toF32_pick _ (minV_fst ..), givesF32_of_fopResult exec_fmax fun x y => toF32_pick _ (maxV_fst ..),
    givesF32_of_scalarResult exec_flt fun d a b t => ?_, givesF32_of_scalarResult exec_feq fun d a b t => ?_, fun s d a => ⟨?_, ?_⟩⟩
  · rw [zext64_eq_ofNat, getF_eq, getF_eq, getF_eq]; rfl
  · rw [getF_eq, getF_eq, boolWord_eq_ofNat]
  · rw [getF_eq, getF_eq, boolWord_eq_ofNat]; rfl
  · exact yieldsS_of_scalarResult (exec_fcvtsw ..) (by rw [zext64_eq_ofNat, slice, BitVec.setWidth_eq_extractLsb' (by decide)])
  · refine ⟨BitVec.ofNat 32 (encodeInt true 32 1#3 0 (s.me.getF a)).1, yieldsS_of_scalarResult (exec_fcvtws ..) ?_, ?_⟩
    · rw [BitVec.toNat_ofNat, Nat.mod_eq_of_lt (encodeInt_lt _)]
    · rw [getF_eq]
      split
      next h => rw [h]; rfl
      next neg h => rw [h]; cases neg <;> rfl
      next neg m e _ h => rw [h]; exact toInt_encodeInt_fin ..

end Sys2Proof.Machine
end

section
/-! PROOFS. Branches, jumps, hints, software traps, fences and the CSR forms (spec/14_scalar_instructions.md R244, R249 to R255;
spec/02_strand_registers.md R36, R38). -/

set_option Elab.async false

namespace Sys2Proof.Machine

open Sys2Proof

/-! ### Branches (spec/14_scalar_instructions.md R250) -/

theorem add_sext64_mul_four {n : Nat} (x : Word) (o : BitVec n) : x + sext64 o * 4#64 = BitVec.ofInt 64 (x.toNat + 4 * o.toInt) := by
  rw [BitVec.ofInt_add, ofInt_toNat, BitVec.ofInt_mul, BitVec.mul_comm]; rfl

/-- A branch goes to its target when its test holds and otherwise to the next word. -/
theorem yieldsPc_of_branchOn {i : Instr} {s : State} {a b : BitVec 5} {o : BitVec 13} {f : Word → Word → Bool} {test : Bool}
    (hexec : exec i s = branchOn f a b o s) (htest : f (s.me.getS a) (s.me.getS b) = test) :
    YieldsPc i s (if test then BitVec.ofInt 64 (s.me.pc.toNat + 4 * o.toInt) else s.me.pc + 4#64) := by
  refine ⟨_, hexec, onlyMe_upd s _, ?_⟩
  rw [me_upd, htest, ← add_sext64_mul_four]
  cases test
  · exact wentOn_next s.me
  · exact wentOn_goto s.me _

section

variable (s : State) (a b : BitVec 5) (o : BitVec 13)

theorem exec_bcEq : exec (.bcEq a b o) s = branchOn (fun x y => x == y) a b o s := rfl
theorem exec_bcNe : exec (.bcNe a b o) s = branchOn (fun x y => x != y) a b o s := rfl
theorem exec_bcLt : exec (.bcLt a b o) s = branchOn (fun x y => x.slt y) a b o s := rfl
theorem exec_bcGe : exec (.bcGe a b o) s = branchOn (fun x y => !x.slt y) a b o s := rfl
theorem exec_bcLtu : exec (.bcLtu a b o) s = branchOn (fun x y => x.ult y) a b o s := rfl
theorem exec_bcGeu : exec (.bcGeu a b o) s = branchOn (fun x y => !x.ult y) a b o s := rfl
theorem exec_bcBset : exec (.bcBset a b o) s = branchOn (fun x y => x &&& y != 0#64) a b o s := rfl
theorem exec_bcBclr : exec (.bcBclr a b o) s = branchOn (fun x y => x &&& y == 0#64) a b o s := rfl

end

theorem bne_eq_decide_ne (x y : Word) : (x != y) = decide (x ≠ y) := by rw [bne, beq_eq_decide, decide_not]

theorem slt_eq_decide (x y : Word) : x.slt y = decide (x.toInt < y.toInt) := by
  rw [Bool.eq_iff_iff, BitVec.slt_iff_toInt_lt, decide_eq_true_iff]

theorem ult_eq_decide (x y : Word) : x.ult y = decide (x.toNat < y.toNat) := by
  rw [Bool.eq_iff_iff, BitVec.ult_iff_toNat_lt, decide_eq_true_iff]

theorem not_decide_lt {α : Type} [LinearOrder α] (x y : α) : (!decide (x < y)) = decide (y ≤ x) := by
  rw [← decide_not, decide_eq_decide, not_lt]

/-! ### Jumps (spec/14_scalar_instructions.md R251) -/

/-- JALR's target is aligned when its two low bits are zero. -/
theorem slice_two_eq_zero_iff (x : Word) : slice x 0 2 = 0#2 ↔ x.toNat % 4 = 0 := by
  rw [← BitVec.toNat_inj, slice, BitVec.extractLsb'_toNat]
  simp

theorem exec_jalr (s : State) (d a : BitVec 5) (i : BitVec 16) : exec (.jalr d a i) s =
    if slice (s.me.getS a + sext64 i * 4#64) 0 2 ≠ 0#2 then .next (raise { Trap.plain .align with va := s.me.getS a + sext64 i * 4#64 } s)
    else .next (s.upd (fun t => (t.setS d (t.pc + 4#64)).goto (s.me.getS a + sext64 i * 4#64))) := rfl

/-- A form that links and jumps. -/
theorem yieldsS_of_link {i : Instr} {s : State} {d : BitVec 5} {target : Strand → Word} {pc : Word}
    (hexec : exec i s = .next (s.upd (fun t => (t.setS d (t.pc + 4#64)).goto (target t)))) (hpc : target s.me = pc) :
    YieldsS i s d (s.me.pc + 4#64) pc := by
  refine ⟨_, hexec, onlyMe_upd s _, ?_⟩
  rw [me_upd, hpc]
  exact wroteS_goto ..

/-- Settles O5: a branch by its test, a jump by its target, and JALR by whether its target is aligned. -/
theorem branchesAndJumps : Obligations.BranchesAndJumps := by
  unfold Obligations.BranchesAndJumps
  refine ⟨?_, ?_⟩
  · rintro s a b o A B rfl rfl
    exact ⟨yieldsPc_of_branchOn (exec_bcEq ..) (beq_eq_decide ..),
      yieldsPc_of_branchOn (exec_bcNe ..) (bne_eq_decide_ne ..),
      yieldsPc_of_branchOn (exec_bcLt ..) (slt_eq_decide ..),
      yieldsPc_of_branchOn (exec_bcGe ..) (by rw [slt_eq_decide, not_decide_lt]),
      yieldsPc_of_branchOn (exec_bcLtu ..) (ult_eq_decide ..),
      yieldsPc_of_branchOn (exec_bcGeu ..) (by rw [ult_eq_decide, not_decide_lt]),
      yieldsPc_of_branchOn (exec_bcBset ..) (bne_eq_decide_ne ..),
      yieldsPc_of_branchOn (exec_bcBclr ..) (beq_eq_decide ..)⟩
  · intro s d a i o off t
    have htarget : s.me.getS a + sext64 i * 4#64 = t := add_sext64_mul_four ..
    refine ⟨⟨_, rfl, onlyMe_upd s _, ?_⟩, yieldsS_of_link rfl (add_sext64_mul_four ..), fun haligned => ?_, fun hmis hrun => ?_⟩
    · rw [me_upd, add_sext64_mul_four]; exact wentOn_goto s.me off
    · have hz := (slice_two_eq_zero_iff t).mpr haligned
      refine yieldsS_of_link (target := fun _ => s.me.getS a + sext64 i * 4#64) ((exec_jalr ..).trans ?_) htarget
      rw [htarget, if_neg (not_not.mpr hz)]
    · refine traps_of_raise ((exec_jalr ..).trans ?_) hrun
      rw [htarget, if_pos (mt (slice_two_eq_zero_iff t).mp hmis)]
      rfl

/-! ### Hints and software traps (spec/14_scalar_instructions.md R253, R255) -/

/-- Bits of a number added up from tests of its places below 4. -/
theorem foldl_add_bit (p : Nat → Prop) [DecidablePred p] :
    let m := (List.range 4).foldl (fun acc j => if p j then acc + 2 ^ j else acc) 0
    m < 16 ∧ ∀ j, j < 4 → (m / 2 ^ j % 2 = 1 ↔ p j) := by
  have hsum : (List.range 4).foldl (fun acc j => if p j then acc + 2 ^ j else acc) 0 =
      (if p 0 then 1 else 0) + (if p 1 then 2 else 0) + (if p 2 then 4 else 0) + (if p 3 then 8 else 0) := by
    by_cases h0 : p 0 <;> by_cases h1 : p 1 <;> by_cases h2 : p 2 <;> by_cases h3 : p 3 <;>
      simp [List.range_succ, h0, h1, h2, h3]
  dsimp only
  rw [hsum]
  refine ⟨by split_ifs <;> omega, fun j hj => ?_⟩
  interval_cases j <;> split_ifs <;> simp_all

/-- The other slots that may be ready, bit by bit. -/
theorem otherReady_spec (s : State) (slot : Nat) : otherReady s slot < 16 ∧
    ∀ j, j < 4 → (otherReady s slot / 2 ^ j % 2 = 1 ↔ 4 * coreOf slot + j ≠ slot ∧ slotReady (s.strand (4 * coreOf slot + j)) = true) :=
  foldl_add_bit (fun j => 4 * coreOf slot + j ≠ slot ∧ slotReady (s.strand (4 * coreOf slot + j)) = true)

theorem exec_yield (s : State) : exec .yield s =
    .next (s.upd (fun t => { t.next with yielded := if otherReady s s.cur = 0 then 0 else otherReady s s.cur + 64 })) := rfl

theorem exec_trap (n : BitVec 12) (s : State) : exec (.trap n) s =
    if s.me.sbPend ≠ 0#8 ∨ !fenceReady s s.cur .package then .next s
    else .next (raise { Trap.plain .trap with index := n.setWidth 32 } s) := rfl

theorem yieldsPc_of_next {i : Instr} {s : State} (h : exec i s = .next (s.upd Strand.next)) : YieldsPc i s (s.me.pc + 4#64) := by
  refine ⟨_, h, onlyMe_upd s _, ?_⟩
  rw [me_upd]; exact wentOn_next s.me

/-- Settles O6: the bits that YIELD notes are a sum of powers of two; TRAP waits or raises as its guard says. -/
theorem hintsAndSoftwareTraps : Obligations.HintsAndSoftwareTraps := by
  unfold Obligations.HintsAndSoftwareTraps
  refine ⟨fun s n => ⟨yieldsPc_of_next rfl, ?_⟩, fun s n hrun => ⟨traps_of_raise rfl hrun, fun hpend hready => ?_, fun hwait => ?_⟩⟩
  · obtain ⟨hlt, hbit⟩ := otherReady_spec s s.cur
    refine ⟨_, exec_yield s, onlyMe_upd s _, ?_, ?_, fun j hj => ?_⟩ <;> rw [me_upd]
    · exact wentOn_next s.me
    · dsimp only
      split
      · exact .inl rfl
      · exact .inr (by omega)
    · refine Iff.trans ?_ (hbit j hj)
      dsimp only
      split
      next h0 => rw [h0]
      next => interval_cases j <;> omega
  · refine traps_of_raise ((exec_trap ..).trans ?_) hrun
    rw [if_neg (by simp [hpend, hready]), BitVec.ofNat_toNat]
    rfl
  · rw [exec_trap, if_pos (by simpa using hwait)]

/-! ### FENCE (spec/14_scalar_instructions.md R244) -/

theorem exec_fence (c : BitVec 2) (s : State) : exec (.fence c) s =
    match waitSlots s.me 0xFE#8 with
    | .error j => .next (raiseSlot s j)
    | .pending => .next s
    | .ready =>
      if !fenceReady s s.cur (scopeOf c) then .next s
      else match deliver s with
        | some s1 => .next s1
        | none => .next (s.upd Strand.next) := rfl

/-- The lowest slot in error. -/
theorem errorSlot_eq_some {t : Strand} {mask : BitVec 8} {j : Nat} (hj : 1 ≤ j) (hj8 : j < 8) (hset : (t.sbErr &&& mask).getLsbD j = true)
    (hlow : ∀ l, 1 ≤ l → l < j → (t.sbErr &&& mask).getLsbD l = false) : errorSlot t mask = some j := by
  rw [errorSlot, firstBelow, List.find?_range_eq_some]
  refine ⟨by simp [hset, Nat.one_le_iff_ne_zero.mp hj], by simpa using hj8, fun l hl => ?_⟩
  by_cases h0 : l = 0
  · simp [h0]
  · simp [hlow l (Nat.one_le_iff_ne_zero.mpr h0) hl]

theorem errorSlot_eq_none {t : Strand} {mask : BitVec 8} (h : t.sbErr &&& mask = 0#8) : errorSlot t mask = none := by
  simp [errorSlot, firstBelow, h]

theorem waitSlots_pending {t : Strand} {mask : BitVec 8} (h : t.sbPend &&& mask &&& 0xFE#8 ≠ 0#8) : waitSlots t mask = .pending := if_pos h

theorem waitSlots_ready {t : Strand} {mask : BitVec 8} (h : t.sbPend &&& mask &&& 0xFE#8 = 0#8) (herr : t.sbErr &&& mask = 0#8) :
    waitSlots t mask = .ready := by
  rw [waitSlots, if_neg (not_not.mpr h), errorSlot_eq_none herr]

theorem waitSlots_error {t : Strand} {mask : BitVec 8} {j : Nat} (h : t.sbPend &&& mask &&& 0xFE#8 = 0#8) (herr : errorSlot t mask = some j) :
    waitSlots t mask = .error j := by
  rw [waitSlots, if_neg (not_not.mpr h), herr]

theorem deliver_eq_none {s : State} (h : s.me.deferred = none) : deliver s = none := by rw [deliver, h]

theorem OnlyMe.trans {s t u : State} (h : OnlyMe s t) (g : OnlyMe t u) : OnlyMe s u :=
  ⟨h.1.trans g.1, fun k hk => (g.2 k (by rwa [h.cur])).trans (h.2 k hk)⟩

/-- The record of a fault does not depend on an update that keeps the strand's pc and save area. -/
theorem ownRecord_upd {s : State} {f : Strand → Strand} (hpc : (f s.me).pc = s.me.pc) (hsave : (f s.me).saveArea = s.me.saveArea)
    (cls : FaultClass) (k : AccessKind) (va : Word) (index : BitVec 32) (hyp : Bool) :
    ownRecord (s.upd f) cls k va index hyp = ownRecord s cls k va index hyp := by
  simp only [ownRecord, me_upd, hpc, hsave, State.upd_cur]

/-- SLOT_ERROR of a slot parks the strand and clears the slot's ERR bit. -/
theorem raiseSlot_spec (s : State) {j : Nat} (hj : j < 8) (hrun : s.me.phase = .running) :
    OnlyMe s (raiseSlot s j) ∧ (raiseSlot s j).me.sbErr.getLsbD j = false ∧
      Parked { s.me with sbErr := (raiseSlot s j).me.sbErr } (raiseSlot s j).me (ownRecord s .slotError .none 0#64 (BitVec.ofNat 32 j) false) := by
  obtain ⟨honly, hparked⟩ := raise_spec { Trap.plain .slotError with index := BitVec.ofNat 32 j }
    (s.upd (fun t => { t with sbErr := putBit t.sbErr j false })) (by rw [me_upd]; exact hrun)
  have hrec := ownRecord_upd (s := s) (f := fun t => { t with sbErr := putBit t.sbErr j false }) rfl rfl
    .slotError .none 0#64 (BitVec.ofNat 32 j) false
  have hpark : Parked { s.me with sbErr := putBit s.me.sbErr j false } (raiseSlot s j).me
      (ownRecord s .slotError .none 0#64 (BitVec.ofNat 32 j) false) := by
    rw [← hrec]
    rw [me_upd] at hparked
    exact hparked
  have herr : (raiseSlot s j).me.sbErr = putBit s.me.sbErr j false := congrArg Strand.sbErr hpark.2.2.2.2
  refine ⟨(onlyMe_upd ..).trans honly, ?_, ?_⟩
  · rw [herr, getLsbD_putBit _ _ _ hj, if_pos rfl]
  · rw [herr]; exact hpark

/-- Settles O13: the outcomes of a wait on all slots, and then of what the scope reaches. -/
theorem fences : Obligations.Fences := by
  unfold Obligations.Fences
  intro s c
  have hmask : ∀ x : BitVec 8, x &&& 0xFE#8 &&& 0xFE#8 = x &&& 0xFE#8 := fun x => by rw [BitVec.and_assoc, BitVec.and_self]
  rw [exec_fence]
  refine ⟨fun hpend => ?_, fun hpend herr hready => ?_, fun hpend herr hready hdef => ?_, fun j hj hj8 hrun hpend hset hlow => ?_⟩
  · rw [waitSlots_pending (by rwa [hmask])]
  · rw [waitSlots_ready (by rwa [hmask]) herr]
    simp [hready]
  · refine yieldsPc_of_next ?_
    rw [exec_fence, waitSlots_ready (by rwa [hmask]) herr, deliver_eq_none hdef]
    simp [hready]
  · have hfe : ∀ l, 1 ≤ l → l < 8 → (0xFE#8).getLsbD l = true := by decide
    have hslot : errorSlot s.me 0xFE#8 = some j := errorSlot_eq_some hj hj8 (by rw [BitVec.getLsbD_and, hset, hfe j hj hj8]; rfl)
      fun l hl hlj => by rw [BitVec.getLsbD_and, hlow l hl hlj]; rfl
    rw [waitSlots_error (by rwa [hmask]) hslot]
    exact ⟨_, rfl, raiseSlot_spec s hj8 hrun⟩

/-! ### CSR reads (spec/02_strand_registers.md R38) -/

/-- Does the value of the latest VRRED flags still have to reach VSTAT? -/
theorem csrWaits_of_reduce {t : Strand} (h : ∃ x ∈ t.out, ∃ f z l, x.op = .reduce f z l) : csrWaits t 0x00C#12 = true := by
  obtain ⟨x, hx, f, z, l, hop⟩ := h
  rw [csrWaits, Bool.and_eq_true, List.any_eq_true]
  exact ⟨by decide, x, hx, by rw [hop]⟩

theorem csrWaits_of_ne {t : Strand} {c : BitVec 12} (h : c ≠ 0x00C#12) : csrWaits t c = false := by
  rw [csrWaits, beq_false_of_ne h, Bool.false_and]

theorem exec_csrr (d : BitVec 5) (c : BitVec 12) (s : State) : exec (.csrr d c) s =
    if csrWaits s.me c then .next s else scalarResult d (fun _ => csrRead s s.cur c) s := rfl

theorem append_eq_ofNat {n m : Nat} (x : BitVec n) (y : BitVec m) : x ++ y = BitVec.ofNat (n + m) (y.toNat + 2 ^ m * x.toNat) := by
  rw [Nat.add_comm y.toNat, Nat.mul_comm, ← Laws.toNat_append_eq_add, BitVec.ofNat_toNat, BitVec.setWidth_eq]

/-- MQS: the frames held, the fills and spills, and THERM. -/
theorem csrRead_mqs (s : State) : csrRead s s.cur 0x014#12 = BitVec.ofNat 64 ((heldFrames s s.cur).length % 512 + 2 ^ 12 * s.me.fills.toNat +
    2 ^ 36 * s.me.spills.toNat + if coreOf s.cur ∈ s.therm then 2 ^ 63 else 0) := by
  change BitVec.ofBool (s.therm.contains (coreOf s.cur)) ++ 0#3 ++ s.me.spills ++ s.me.fills ++ 0#3 ++ BitVec.ofNat 9 (heldFrames s s.cur).length = _
  refine (append_eq_ofNat _ _).trans (congrArg (BitVec.ofNat 64) ?_)
  rw [Laws.toNat_append_eq_add, Laws.toNat_append_eq_add, Laws.toNat_append_eq_add, Laws.toNat_append_eq_add, BitVec.toNat_ofNat,
    BitVec.toNat_ofBool]
  by_cases h : coreOf s.cur ∈ s.therm <;> simp [h] <;> ring

/-- SWEEP: the current descriptor, and whether a sweep is active. -/
theorem csrRead_sweep (s : State) : csrRead s s.cur 0x020#12 = BitVec.ofNat 64 (s.me.swCur.toNat + if s.me.swAct then 2 ^ 63 else 0) := by
  change BitVec.ofBool s.me.swAct ++ 0#15 ++ s.me.swCur = _
  refine (append_eq_ofNat _ _).trans (congrArg (BitVec.ofNat 64) ?_)
  rw [Laws.toNat_append_eq_add, BitVec.toNat_ofBool]
  cases s.me.swAct <;> simp

/-- CSRR of a register that is not waited for gives its value. -/
theorem yieldsS_csrr {s : State} {d : BitVec 5} {c : BitVec 12} {x : Word} (hwait : csrWaits s.me c = false) (hval : csrRead s s.cur c = x) :
    YieldsS (.csrr d c) s d x (s.me.pc + 4#64) :=
  yieldsS_of_scalarResult (f := fun _ => csrRead s s.cur c) (by rw [exec_csrr, hwait]; rfl) hval

theorem zext64_append {n m : Nat} (x : BitVec n) (y : BitVec m) : zext64 (x ++ y) = BitVec.ofNat 64 (y.toNat + 2 ^ m * x.toNat) := by
  rw [zext64_eq_ofNat, Laws.toNat_append_eq_add, Nat.add_comm, Nat.mul_comm]

theorem zext64_msmcfg (t : Strand) : zext64 (t.sf ++ 0#7 ++ t.fq) = BitVec.ofNat 64 (t.fq.toNat + 2 ^ 16 * t.sf.toNat) := by
  rw [zext64_append, Laws.toNat_append_eq_add]; congr 1; simp; ring

/-- The nibble of a grant slot. -/
theorem guardBits_bits (g : Guard) :
    let before := g.prev.bind (fun y => y.2)
    (guardBits g).getLsbD 0 = g.cVal.isSome ∧ (guardBits g).getLsbD 1 = (g.cVal == some true) ∧
      (guardBits g).getLsbD 2 = before.isSome ∧ (guardBits g).getLsbD 3 = (before == some true) := by
  intro before
  have hbits : ∀ p c : Option Bool,
      let one (v : Option Bool) : BitVec 2 := match v with
        | none => 0#2
        | some b => (if b then 3#2 else 1#2)
      (one p ++ one c).getLsbD 0 = c.isSome ∧ (one p ++ one c).getLsbD 1 = (c == some true) ∧
        (one p ++ one c).getLsbD 2 = p.isSome ∧ (one p ++ one c).getLsbD 3 = (p == some true) := by
    rintro (_ | _ | _) (_ | _ | _) <;> decide
  exact hbits before g.cVal

/-- The GUARD CSR, up to a slot. -/
theorem getLsbD_guardCsr_range (t : Strand) (m : Nat) (hm : m ≤ 16) : 
    let x := (List.range m).foldl (fun x i => if i = 0 then x else putSlice x (4 * i) 4 (guardBits (tabGet Guard.start t.guards i))) 0#64
    ∀ j, j < 64 → x.getLsbD j = (decide (4 ≤ j ∧ j / 4 < m) && (guardBits (tabGet Guard.start t.guards (j / 4))).getLsbD (j % 4)) := by
  induction m with
  | zero => simp
  | succ m ih =>
    intro x j hj
    have ih := ih (by omega) j hj
    simp only [x, List.range_succ, List.foldl_append, List.foldl_cons, List.foldl_nil]
    by_cases hm0 : m = 0
    · subst hm0
      simp
    · rw [if_neg hm0, getLsbD_putSlice _ _ _ hj, ih]
      by_cases hin : 4 * m ≤ j ∧ j < 4 * m + 4
      · have hdiv : j / 4 = m := by omega
        have hmod : j - 4 * m = j % 4 := by omega
        rw [if_pos hin, hmod, hdiv]
        simp; omega
      · rw [if_neg hin]
        congr 1
        rw [decide_eq_decide]; omega

theorem getLsbD_guardCsr (t : Strand) {j : Nat} (hj : j < 64) :
    (guardCsr t).getLsbD j = (decide (4 ≤ j) && (guardBits (tabGet Guard.start t.guards (j / 4))).getLsbD (j % 4)) := by
  have := getLsbD_guardCsr_range t 16 le_rfl j hj
  rw [guardCsr, this]
  congr 1
  rw [decide_eq_decide]; omega

/-! ### CSR writes (spec/02_strand_registers.md R36) -/

/-- The form has changed the strand by `f`, but for which CSRs are marked as poisoned, and the strand has gone on. -/
def CsrDoes (i : Instr) (s : State) (f : Strand → Strand) : Prop :=
  ∃ t, exec i s = .next t ∧ OnlyMe s t ∧
    t.me = { f s.me with
      badC := t.me.badC
      pc := s.me.pc + 4#64
      restart := 0
      append := none
      handing := []
      claim := none
      recBuf := none
      wait := .none
      tokDone := false }

theorem csrForm_go {op : CsrOp} {a : BitVec 5} {c : BitVec 12} {s : State} (hwait : csrWaits s.me c = false) (hc : c ≠ 0x012#12) :
    csrForm op a c s = .next (s.upd (fun t => (csrUpdate op c (s.me.getS a) t).next)) := by
  rw [csrForm, hwait]
  simp only [Bool.false_eq_true, if_false, hc]

theorem exec_csrs (a : BitVec 5) (c : BitVec 12) (s : State) : exec (.csrs a c) s = csrForm .set a c s := rfl
theorem exec_csrc (a : BitVec 5) (c : BitVec 12) (s : State) : exec (.csrc a c) s = csrForm .clear a c s := rfl
/-- A strand whose poison marks of CSRs are others. -/
def Strand.withBadC (t : Strand) (l : List Nat) : Strand := { t with badC := l }

theorem exec_csrw (a : BitVec 5) (c : BitVec 12) (s : State) : exec (.csrw a c) s =
    if csrWaits s.me c then .next s
    else csrForm .write a c (s.upd (fun t => t.withBadC (t.badC.filter (fun n => n != c.toNat)))) := rfl

theorem csrDoes_of_next {i : Instr} {s t : State} {f : Strand → Strand} {l : List Nat} (hexec : exec i s = .next t) (honly : OnlyMe s t)
    (hme : t.me = ((f s.me).withBadC l).next) (hpc : (f s.me).pc = s.me.pc) : CsrDoes i s f := by
  refine ⟨t, hexec, honly, ?_⟩
  rw [hme, ← hpc]
  rfl

/-- CSRS and CSRC. -/
theorem csrDoes_of_csrForm {i : Instr} {s : State} {op : CsrOp} {a : BitVec 5} {c : BitVec 12} {f : Strand → Strand}
    (hexec : exec i s = csrForm op a c s) (hwait : csrWaits s.me c = false) (hc : c ≠ 0x012#12)
    (hval : csrUpdate op c (s.me.getS a) s.me = f s.me) (hpc : (f s.me).pc = s.me.pc) : CsrDoes i s f := by
  refine csrDoes_of_next (l := (f s.me).badC) (hexec.trans (csrForm_go hwait hc)) (onlyMe_upd s _) ?_ hpc
  rw [me_upd, hval]
  rfl

/-- CSRW. -/
theorem csrDoes_of_csrw {s : State} {a : BitVec 5} {c : BitVec 12} {f : Strand → Strand}
    (hwait : csrWaits s.me c = false) (hc : c ≠ 0x012#12)
    (hval : ∀ l, csrUpdate .write c (s.me.getS a) (s.me.withBadC l) = (f s.me).withBadC l) (hpc : (f s.me).pc = s.me.pc) :
    CsrDoes (.csrw a c) s f := by
  have hme := me_upd s (fun t => t.withBadC (t.badC.filter (fun n => n != c.toNat)))
  have honly := onlyMe_upd s (fun t => t.withBadC (t.badC.filter (fun n => n != c.toNat)))
  have hexec := exec_csrw a c s
  rw [hwait, if_neg (by decide)] at hexec
  generalize s.upd (fun t => t.withBadC (t.badC.filter (fun n => n != c.toNat))) = s1 at hme honly hexec
  rw [csrForm_go (by rw [hme]; exact hwait) hc] at hexec
  refine csrDoes_of_next (l := s.me.badC.filter (fun n => n != c.toNat)) hexec (honly.trans (onlyMe_upd s1 _)) ?_ hpc
  rw [me_upd, hme, ← hval]
  rfl

/-- A write of MSMCFG waits. -/
theorem waits_of_csrForm {op : CsrOp} {a : BitVec 5} {s : State} : ∃ t, csrForm op a 0x012#12 s = .next t ∧ OnlyMe s t ∧
    t.me.wait = .msmcfg (op.rw (zext64 (s.me.sf ++ 0#7 ++ s.me.fq)) (s.me.getS a) &&& 0x1FF01FF#64) ∧ t.me.pc = s.me.pc :=
  ⟨_, rfl, onlyMe_upd s _, by rw [me_upd], by rw [me_upd]⟩

/-- The last of the writes of counters that await the next tick is the one that stands. -/
theorem tickStrand_perf {v : Strand} {n : Nat} {A : Word} (h : v.perfNext.getLast? = some (n, A)) :
    (n < 8 → tabGet 0#17 (tickStrand 1 v).perfSel n = A.setWidth 17) ∧
      (8 ≤ n → tabGet 0#64 (tickStrand 1 v).perfCnt (n - 8) = A) := by
  obtain ⟨l, hl⟩ : ∃ l, v.perfNext = l ++ [(n, A)] := ⟨_, (List.dropLast_append_getLast? _ h).symm⟩
  have hsel : (tickStrand 1 v).perfSel = (applyPerf v).perfSel := by unfold tickStrand; dsimp only; split <;> rfl
  have hcnt : (tickStrand 1 v).perfCnt = (applyPerf v).perfCnt := by unfold tickStrand; dsimp only; split <;> rfl
  rw [hsel, hcnt, applyPerf, hl, if_neg (by simp), List.foldl_append, List.foldl_cons, List.foldl_nil]
  exact ⟨fun hn => by simp [hn], fun hn => by simp [Nat.not_lt.mpr hn]⟩

theorem setWidth_zext64 {n : Nat} (hn : n ≤ 64) (x : BitVec n) : (zext64 x).setWidth n = x := by
  rw [zext64, BitVec.setWidth_setWidth_of_le _ hn, BitVec.setWidth_eq]

/-- CSRR (R38). -/
theorem csrr_gives (s : State) (d : BitVec 5) :
    let u := s.me
    let gives (c : BitVec 12) (x : Nat) : Prop := YieldsS (.csrr d c) s d (BitVec.ofNat 64 x) (u.pc + 4#64)
    gives 0x000#12 (sidOf s.cur).toNat ∧
    gives 0x001#12 (recGidx u.rcd).toNat ∧
    gives 0x002#12 u.rank ∧
    gives 0x003#12 (recWidth u.rcd).toNat ∧
    gives 0x004#12 (recStage u.rcd).toNat ∧
    gives 0x005#12 (recLid u.rcd).toNat ∧
    gives 0x006#12 u.part.toNat ∧
    gives 0x008#12 u.vl.toNat ∧
    gives 0x009#12 (u.sew.toNat + 4 * u.gm.toNat) ∧
    gives 0x00A#12 u.mw.toNat ∧
    gives 0x00B#12 (u.tsh.tm.toNat + 2 ^ 8 * u.tsh.tn.toNat + 2 ^ 16 * u.tsh.tk.toNat) ∧
    (csrWaits u 0x00C#12 = false → gives 0x00C#12 u.vstat.toNat) ∧
    ((∃ x ∈ u.out, ∃ f z l, x.op = .reduce f z l) → exec (.csrr d 0x00C#12) s = .next s) ∧
    gives 0x00D#12 u.srseed.toNat ∧
    gives 0x010#12 u.mapbase ∧
    gives 0x011#12 u.mrbase ∧
    gives 0x012#12 (u.fq.toNat + 2 ^ 16 * u.sf.toNat) ∧
    gives 0x013#12 u.lim.toNat ∧
    gives 0x014#12 ((heldFrames s s.cur).length % 512 + 2 ^ 12 * u.fills.toNat + 2 ^ 36 * u.spills.toNat +
      (if coreOf s.cur ∈ s.therm then 2 ^ 63 else 0)) ∧
    gives 0x018#12 u.ftbase.toNat ∧
    gives 0x019#12 u.ftlen.toNat ∧
    gives 0x01A#12 (u.tok.sm.toNat + 2 ^ 4 * u.tok.sc.toNat + 2 ^ 8 * u.tok.ms.toNat + 2 ^ 12 * u.tok.mc.toNat +
      2 ^ 16 * u.tok.cs.toNat + 2 ^ 20 * u.tok.cm.toNat) ∧
    (∃ x, YieldsS (.csrr d 0x01B#12) s d x (u.pc + 4#64) ∧ (∀ j, j < 4 → x.getLsbD j = false) ∧
      ∀ g, 1 ≤ g → g ≤ 15 →
        let e := tabGet Guard.start u.guards g
        let before := e.prev.bind (fun y => y.2)
        x.getLsbD (4 * g) = e.cVal.isSome ∧ x.getLsbD (4 * g + 1) = (e.cVal == some true) ∧
          x.getLsbD (4 * g + 2) = before.isSome ∧ x.getLsbD (4 * g + 3) = (before == some true)) ∧
    gives 0x01C#12 (u.sbPend.toNat + 2 ^ 8 * u.sbErr.toNat) ∧
    gives 0x020#12 (u.swCur.toNat + (if u.swAct then 2 ^ 63 else 0)) ∧
    gives 0x021#12 u.swGrp.toNat ∧
    gives 0x022#12 u.swAwk.toNat ∧
    gives 0x023#12 u.swErr.toNat ∧
    gives 0x028#12 s.cycle ∧
    gives 0x029#12 u.runtk.toNat ∧
    gives 0x02A#12 u.wdlim.toNat ∧
    gives 0x040#12 s.hbmth.toNat ∧
    gives 0x041#12 (s.part u.part).errRing ∧
    gives 0x042#12 s.remto ∧
    (∀ n, n < 8 → gives (BitVec.ofNat 12 (0x030 + n)) (tabGet 0#17 u.perfSel n).toNat ∧
      gives (BitVec.ofNat 12 (0x038 + n)) (tabGet 0#64 u.perfCnt n).toNat) := by
  intro u gives
  have hread : ∀ (c : BitVec 12) (x : Nat), c ≠ 0x00C#12 → csrRead s s.cur c = BitVec.ofNat 64 x → gives c x :=
    fun c x hc hval => yieldsS_csrr (csrWaits_of_ne hc) hval
  refine ⟨hread _ _ (by decide) (zext64_eq_ofNat _), hread _ _ (by decide) (zext64_eq_ofNat _), hread _ _ (by decide) rfl,
    hread _ _ (by decide) (zext64_eq_ofNat _), hread _ _ (by decide) (zext64_eq_ofNat _), hread _ _ (by decide) (zext64_eq_ofNat _),
    hread _ _ (by decide) (zext64_eq_ofNat _), hread _ _ (by decide) (zext64_eq_ofNat _), hread _ _ (by decide) (zext64_append _ _),
    hread _ _ (by decide) (zext64_eq_ofNat _), hread _ _ (by decide) ?_, fun hw => yieldsS_csrr hw (zext64_eq_ofNat _), fun hw => ?_,
    hread _ _ (by decide) (ofNat_toNat_self _).symm, hread _ _ (by decide) rfl, hread _ _ (by decide) rfl, hread _ _ (by decide) ?_,
    hread _ _ (by decide) (zext64_eq_ofNat _), hread _ _ (by decide) (csrRead_mqs s), hread _ _ (by decide) (zext64_eq_ofNat _),
    hread _ _ (by decide) (zext64_eq_ofNat _), hread _ _ (by decide) ?_, ⟨_, yieldsS_csrr (csrWaits_of_ne (by decide)) rfl, ?_, ?_⟩,
    hread _ _ (by decide) (zext64_append _ _), hread _ _ (by decide) (csrRead_sweep s), hread _ _ (by decide) (zext64_eq_ofNat _),
    hread _ _ (by decide) (zext64_eq_ofNat _), hread _ _ (by decide) (zext64_eq_ofNat _), hread _ _ (by decide) rfl,
    hread _ _ (by decide) (ofNat_toNat_self _).symm, hread _ _ (by decide) (ofNat_toNat_self _).symm,
    hread _ _ (by decide) (zext64_eq_ofNat _), hread _ _ (by decide) rfl, hread _ _ (by decide) rfl, fun n hn => ?_⟩
  · change zext64 (u.tsh.tk ++ u.tsh.tn ++ u.tsh.tm) = _
    rw [zext64_append, Laws.toNat_append_eq_add]; congr 1; ring
  · rw [exec_csrr, csrWaits_of_reduce hw]; rfl
  · exact zext64_msmcfg u
  · change tokCsr u.tok = _
    simp only [tokCsr, zext64_append, Laws.toNat_append_eq_add]
    congr 1
    ring
  · intro j hj
    change (guardCsr u).getLsbD j = false
    rw [getLsbD_guardCsr _ (by omega)]
    simp; omega
  · intro g hg hg15
    have hnib := guardBits_bits (tabGet Guard.start u.guards g)
    have hbit : ∀ j, j < 4 → (guardCsr u).getLsbD (4 * g + j) = (guardBits (tabGet Guard.start u.guards g)).getLsbD j := fun j hj => by
      rw [getLsbD_guardCsr _ (by omega), show (4 * g + j) / 4 = g by omega, show (4 * g + j) % 4 = j by omega]
      simp; omega
    obtain ⟨h0, h1, h2, h3⟩ := hnib
    exact ⟨(hbit 0 (by decide)).trans h0, (hbit 1 (by decide)).trans h1, (hbit 2 (by decide)).trans h2, (hbit 3 (by decide)).trans h3⟩
  · interval_cases n <;> exact ⟨hread _ _ (by decide) (zext64_eq_ofNat (tabGet 0#17 u.perfSel _)), hread _ _ (by decide) (ofNat_toNat_self _).symm⟩

/-- CSRW, CSRS and CSRC of a counter: the new value stands from the next tick. -/
theorem csr_perf (s : State) (a : BitVec 5) {n : Nat} (hn : n < 8) :
    let A := s.me.getS a
    CsrDoes (.csrw a (BitVec.ofNat 12 (0x030 + n))) s (fun v => { v with perfNext := v.perfNext ++ [(n, A)] }) ∧
    CsrDoes (.csrw a (BitVec.ofNat 12 (0x038 + n))) s (fun v => { v with perfNext := v.perfNext ++ [(n + 8, A)] }) ∧
    (let sel := (tabGet 0#17 s.me.perfSel n).setWidth 64
     CsrDoes (.csrs a (BitVec.ofNat 12 (0x030 + n))) s (fun v => { v with perfNext := v.perfNext ++ [(n, sel ||| A)] }) ∧
     CsrDoes (.csrc a (BitVec.ofNat 12 (0x030 + n))) s (fun v => { v with perfNext := v.perfNext ++ [(n, sel &&& ~~~A)] })) ∧
    (let cnt := tabGet 0#64 s.me.perfCnt n
     CsrDoes (.csrs a (BitVec.ofNat 12 (0x038 + n))) s (fun v => { v with perfNext := v.perfNext ++ [(n + 8, cnt ||| A)] }) ∧
     CsrDoes (.csrc a (BitVec.ofNat 12 (0x038 + n))) s (fun v => { v with perfNext := v.perfNext ++ [(n + 8, cnt &&& ~~~A)] })) := by
  interval_cases n <;>
    exact ⟨csrDoes_of_csrw (csrWaits_of_ne (by decide)) (by decide) (fun _ => rfl) rfl,
      csrDoes_of_csrw (csrWaits_of_ne (by decide)) (by decide) (fun _ => rfl) rfl,
      ⟨csrDoes_of_csrForm (exec_csrs ..) (csrWaits_of_ne (by decide)) (by decide) rfl rfl,
        csrDoes_of_csrForm (exec_csrc ..) (csrWaits_of_ne (by decide)) (by decide) rfl rfl⟩,
      csrDoes_of_csrForm (exec_csrs ..) (csrWaits_of_ne (by decide)) (by decide) rfl rfl,
      csrDoes_of_csrForm (exec_csrc ..) (csrWaits_of_ne (by decide)) (by decide) rfl rfl⟩

theorem csr_mw (s : State) (a : BitVec 5) :
    let A := s.me.getS a
    CsrDoes (.csrw a 0x00A#12) s (fun v => { v with mw := A.setWidth 8 }) ∧
    CsrDoes (.csrs a 0x00A#12) s (fun v => { v with mw := v.mw ||| A.setWidth 8 }) ∧
    CsrDoes (.csrc a 0x00A#12) s (fun v => { v with mw := v.mw &&& ~~~(A.setWidth 8) }) := by
  intro A
  have hset : (zext64 s.me.mw ||| A).setWidth 8 = s.me.mw ||| A.setWidth 8 := by
    rw [BitVec.setWidth_or, setWidth_zext64 (by decide)]
  have hclear : (zext64 s.me.mw &&& ~~~A).setWidth 8 = s.me.mw &&& ~~~A.setWidth 8 := by
    rw [BitVec.setWidth_and, setWidth_zext64 (by decide), BitVec.setWidth_not (by decide)]
  exact ⟨csrDoes_of_csrw (csrWaits_of_ne (by decide)) (by decide) (fun _ => rfl) rfl,
    csrDoes_of_csrForm (exec_csrs ..) (csrWaits_of_ne (by decide)) (by decide) (congrArg (fun m => { s.me with mw := m }) hset) rfl,
    csrDoes_of_csrForm (exec_csrc ..) (csrWaits_of_ne (by decide)) (by decide) (congrArg (fun m => { s.me with mw := m }) hclear) rfl⟩

/-- Of a W1C field CSRW and CSRC clear the bits that are 1, and CSRS none. -/
theorem csr_vstat (s : State) (a : BitVec 5) (hw : csrWaits s.me 0x00C#12 = false) :
    let A := s.me.getS a
    CsrDoes (.csrw a 0x00C#12) s (fun v => { v with vstat := v.vstat &&& ~~~(A.setWidth 5) }) ∧
    CsrDoes (.csrs a 0x00C#12) s (fun v => v) ∧
    CsrDoes (.csrc a 0x00C#12) s (fun v => { v with vstat := v.vstat &&& ~~~(A.setWidth 5) }) := by
  have hnone : ∀ x : BitVec 5, x &&& ~~~((0#64).setWidth 5) = x := by decide
  exact ⟨csrDoes_of_csrw hw (by decide) (fun _ => rfl) rfl,
    csrDoes_of_csrForm (exec_csrs ..) hw (by decide) (congrArg (fun m => { s.me with vstat := m }) (hnone _)) rfl,
    csrDoes_of_csrForm (exec_csrc ..) hw (by decide) rfl rfl⟩

theorem csr_sb (s : State) (a : BitVec 5) :
    let A := s.me.getS a
    CsrDoes (.csrw a 0x01C#12) s (fun v => { v with sbErr := v.sbErr &&& ~~~((A >>> 8).setWidth 8 &&& 0xFE#8) }) ∧
    CsrDoes (.csrs a 0x01C#12) s (fun v => v) ∧
    CsrDoes (.csrc a 0x01C#12) s (fun v => { v with sbErr := v.sbErr &&& ~~~((A >>> 8).setWidth 8 &&& 0xFE#8) }) := by
  intro A
  have hnone : s.me.sbErr &&& ~~~(slice (0#64) 8 8 &&& 0xFE#8) = s.me.sbErr := by
    rw [show ~~~(slice (0#64) 8 8 &&& 0xFE#8) = BitVec.allOnes 8 by decide, BitVec.and_allOnes]
  have hslice : slice A 8 8 = (A >>> 8).setWidth 8 := by
    apply BitVec.eq_of_toNat_eq
    simp [slice]
  exact ⟨csrDoes_of_csrw (csrWaits_of_ne (by decide)) (by decide)
      (fun l => congrArg (fun m => { s.me.withBadC l with sbErr := s.me.sbErr &&& ~~~(m &&& 0xFE#8) }) hslice) rfl,
    csrDoes_of_csrForm (exec_csrs ..) (csrWaits_of_ne (by decide)) (by decide) (congrArg (fun m => { s.me with sbErr := m }) hnone) rfl,
    csrDoes_of_csrForm (exec_csrc ..) (csrWaits_of_ne (by decide)) (by decide)
      (congrArg (fun m => { s.me with sbErr := s.me.sbErr &&& ~~~(m &&& 0xFE#8) }) hslice) rfl⟩

/-- A write of MSMCFG waits. -/
theorem csr_msmcfg (s : State) (a : BitVec 5) :
    let A := s.me.getS a
    let cfg := BitVec.ofNat 64 (s.me.fq.toNat + 2 ^ 16 * s.me.sf.toNat)
    let waits (i : Instr) (x : Word) : Prop :=
      ∃ t, exec i s = .next t ∧ OnlyMe s t ∧ t.me.wait = .msmcfg (x &&& 0x1FF01FF#64) ∧ t.me.pc = s.me.pc
    waits (.csrw a 0x012#12) A ∧ waits (.csrs a 0x012#12) (cfg ||| A) ∧ waits (.csrc a 0x012#12) (cfg &&& ~~~A) := by
  intro A cfg waits
  have hset := waits_of_csrForm (op := .set) (a := a) (s := s)
  have hclear := waits_of_csrForm (op := .clear) (a := a) (s := s)
  rw [zext64_msmcfg] at hset hclear
  refine ⟨?_, hset, hclear⟩
  have hme := me_upd s (fun t => t.withBadC (t.badC.filter (fun n => n != (0x012#12).toNat)))
  obtain ⟨t, hexec, honly, hwait, hpc⟩ := waits_of_csrForm (op := .write) (a := a)
    (s := s.upd (fun t => t.withBadC (t.badC.filter (fun n => n != (0x012#12).toNat))))
  rw [hme] at hwait hpc
  refine ⟨t, ?_, (onlyMe_upd s _).trans honly, hwait, hpc⟩
  rw [exec_csrw, csrWaits_of_ne (by decide)]
  exact hexec

/-- Settles O7: CSRR gives the fields of the map, and a write changes the fields that the map names. -/
theorem csrForms : Obligations.CsrForms := by
  unfold Obligations.CsrForms
  refine ⟨csrr_gives, ?_⟩
  rintro s a A rfl u does
  obtain ⟨hmww, hmws, hmwc⟩ := csr_mw s a
  obtain ⟨hsbw, hsbs, hsbc⟩ := csr_sb s a
  refine ⟨hmww, hmws, hmwc, csr_vstat s a, fun hw => ?_, ⟨?_, ?_, ?_⟩, hsbw, hsbs, hsbc, fun n hn => ?_, csr_msmcfg s a⟩
  · have hwaits := csrWaits_of_reduce hw
    refine ⟨?_, ?_, ?_⟩
    · rw [exec_csrw, hwaits]; rfl
    · rw [exec_csrs, csrForm, hwaits]; rfl
    · rw [exec_csrc, csrForm, hwaits]; rfl
  · exact csrDoes_of_csrw (f := fun v => setSeed v (s.me.getS a)) (csrWaits_of_ne (by decide)) (by decide) (fun _ => rfl) rfl
  · exact csrDoes_of_csrForm (exec_csrs ..) (csrWaits_of_ne (by decide)) (by decide) rfl rfl
  · exact csrDoes_of_csrForm (exec_csrc ..) (csrWaits_of_ne (by decide)) (by decide) rfl rfl
  · obtain ⟨hselw, hcntw, hsel, hcnt⟩ := csr_perf s a hn
    exact ⟨hselw, hcntw, hsel, hcnt, fun v hv => (tickStrand_perf hv).1 hn, fun v hv => (tickStrand_perf hv).2 (by omega)⟩

end Sys2Proof.Machine
end

section
/-! PROOFS. Scalar accesses to memory, and typed calls (spec/14_scalar_instructions.md R242 to R249, R252; spec/06_memory_ordering.md R105 to
R108; spec/09_translation_and_faults.md R164): what a blocking access and a posted one leave, and how an access fails. -/

set_option Elab.async false

namespace Sys2Proof.Machine

open Sys2Proof

/-! ### Numbers and their bytes (spec/00_scope.md R3) -/

@[simp] theorem natBytes_length (n x : Nat) : (natBytes n x).length = n := by
  induction n generalizing x with
  | zero => rfl
  | succ n ih => rw [natBytes, List.length_cons, ih]

theorem natBytes_getElem (n x j : Nat) (h : j < (natBytes n x).length) : (natBytes n x)[j] = BitVec.ofNat 8 (x / 256 ^ j) := by
  induction n generalizing x j with
  | zero => simp at h
  | succ n ih =>
    cases j with
    | zero => simp [natBytes]
    | succ j =>
      simp only [natBytes, List.getElem_cons_succ]
      rw [ih, Nat.div_div_eq_div_mul, Nat.pow_succ']

theorem bytesNat_natBytes (n x : Nat) : bytesNat (natBytes n x) = x % 256 ^ n := by
  induction n generalizing x with
  | zero => simp [natBytes, bytesNat, Nat.mod_one]
  | succ n ih =>
    rw [natBytes, bytesNat, ih, BitVec.toNat_ofNat, show 256 ^ (n + 1) = 256 * 256 ^ n from Nat.pow_succ', Nat.mod_mul]

theorem bytesNat_lt (bs : List Byte) : bytesNat bs < 256 ^ bs.length := by
  induction bs with
  | nil => simp [bytesNat]
  | cons b bs ih =>
    have := b.isLt
    rw [bytesNat, List.length_cons, Nat.pow_succ']
    omega

theorem bytesNat_memBytes_lt (m : List Host.Cell) (pa n : Nat) : bytesNat (memBytes m pa n) < 2 ^ (8 * n) := by
  have := bytesNat_lt (memBytes m pa n)
  rwa [memBytes_length, show (256 : Nat) = 2 ^ 8 from rfl, ← Nat.pow_mul] at this

/-- The bytes of a number and of its low bytes. -/
theorem ofNat_div_mod {n j : Nat} (x : Nat) (h : j < n) : BitVec.ofNat 8 (x % 2 ^ (8 * n) / 256 ^ j) = BitVec.ofNat 8 (x / 256 ^ j) := by
  apply BitVec.eq_of_toNat_eq
  rw [BitVec.toNat_ofNat, BitVec.toNat_ofNat, show (256 : Nat) = 2 ^ 8 from rfl, ← Nat.pow_mul,
    show 8 * n = 8 * j + (8 * n - 8 * j) by omega, Nat.pow_add, Nat.mod_mul_right_div_self]
  exact Nat.mod_mod_of_dvd _ (Nat.pow_dvd_pow 2 (by omega))

/-- A number written as bytes stands there. -/
theorem holds_of_memPut {t : State} {m : List Host.Cell} {pa n x : Nat} (h : t.mem = memPut m pa (natBytes n x)) : Holds t pa n x := by
  intro j hj
  rw [h, memByte_memPut, dif_pos (by rw [natBytes_length]; omega), natBytes_getElem, Nat.add_sub_cancel_left]

theorem Holds.of_mod {t : State} {pa n x : Nat} (h : Holds t pa n x) : Holds t pa n (x % 2 ^ (8 * n)) := fun j hj => by
  rw [h j hj, ofNat_div_mod x hj]

theorem memoryKept_of_memPut {s t : State} {pa n : Nat} {bs : List Byte} (h : t.mem = memPut s.mem pa bs) (hn : bs.length = n) :
    MemoryKept s t (within pa n) := fun a ha => by
  rw [h]
  exact memByte_memPut_of_not (by rw [hn]; exact ha)

/-! ### What a home write leaves -/

/-- The writer's own links stay. -/
theorem strand_homeWrite_self (s : State) (k pa : Nat) (bs : List Byte) (c : Bool) : (homeWrite s (some k) pa bs c).strand k = s.strand k := by
  have hrec : ∀ (u : State) (n : Nat), (recompress u pa n c).strand k = u.strand k := fun u n => by
    unfold recompress; split <;> rfl
  have hbreak : ∀ (u : State) (n : Nat), (breakLinks u (some k) pa n).strand k = u.strand k := fun u n => by
    unfold breakLinks
    split
    · rfl
    · refine (strand_of_map (s := u) (fun j t => if some k = some j then t else
        { t with links := t.links.filter (fun l => !(unitsOf 128 pa n).contains l) }) (fun j => by split <;> rfl)
        (List.map_congr_left (fun p _ => by dsimp only; split <;> rfl)) k).trans ?_
      rw [if_pos rfl]
  rw [homeWrite, hrec, hbreak]
  rfl

theorem OnlyHomes.othersKept {s t : State} (h : OnlyHomes s t) (k : Nat) : OthersKept s t k := fun j _ => by
  obtain ⟨ls, heq, hsub⟩ := h.2.1 j
  rw [heq]
  exact ⟨rfl, hsub⟩

theorem OnlyHomes.cur {s t : State} (h : OnlyHomes s t) : t.cur = s.cur := by
  have := congrArg State.cur h.1
  exact this

theorem OnlyHomes.seq {s t : State} (h : OnlyHomes s t) : t.seq = s.seq := by
  have := congrArg State.seq h.1
  exact this

theorem OnlyHomes.cycle {s t : State} (h : OnlyHomes s t) : t.cycle = s.cycle := by
  have := congrArg State.cycle h.1
  exact this

/-- The current strand, its links apart. -/
theorem OnlyHomes.me {s t : State} (h : OnlyHomes s t) : ∃ ls, t.me = { s.me with links := ls } := by
  obtain ⟨ls, heq, -⟩ := h.2.1 s.cur
  exact ⟨ls, by rw [State.me, h.cur, heq]; rfl⟩

theorem OnlyHomes.pc {s t : State} (h : OnlyHomes s t) : t.me.pc = s.me.pc := by
  obtain ⟨ls, heq⟩ := h.me
  rw [heq]

theorem OnlyHomes.getS {s t : State} (h : OnlyHomes s t) (r : BitVec 5) : t.me.getS r = s.me.getS r := by
  obtain ⟨ls, heq⟩ := h.me
  rw [heq]
  rfl

/-! ### Frames put together -/

theorem PackageCounted.trans {s t u : State} (h : PackageCounted s t) (g : PackageCounted t u) : PackageCounted s u := by
  unfold PackageCounted at *
  rw [show ({ u with strands := s.strands, seq := s.seq, fresh := s.fresh } : State) =
    { ({ u with strands := t.strands, seq := t.seq, fresh := t.fresh } : State) with
      strands := s.strands, seq := s.seq, fresh := s.fresh } from rfl, g, h]

theorem PackageKept.counted {s t : State} (h : PackageKept s t) : PackageCounted s t := by
  have hs : ({ t with strands := s.strands } : State) = s := h
  rw [PackageCounted, show ({ t with strands := s.strands, seq := s.seq, fresh := s.fresh } : State) =
    { ({ t with strands := s.strands } : State) with seq := s.seq, fresh := s.fresh } from rfl, hs]

theorem packageCounted_nextSeq (s : State) : PackageCounted s s.nextSeq.2 := rfl
theorem packageKept_updSlot (s : State) (k : Nat) (f : Strand → Strand) : PackageKept s (s.updSlot k f) := rfl

theorem PackageCounted.mem {s t : State} (h : PackageCounted s t) : t.mem = s.mem := by
  have := congrArg State.mem h
  exact this

theorem PackageCounted.cur {s t : State} (h : PackageCounted s t) : t.cur = s.cur := by
  have := congrArg State.cur h
  exact this

theorem PackageCounted.stored {s t u : State} (h : PackageCounted s t) (g : OnlyHomes t u) (htlb : u.tlb = t.tlb) (hheld : u.held = t.held) :
    PackageStored s u := by
  have g1 := g.1
  unfold PackageStored PackageCounted at *
  rw [show ({ u with
      strands := s.strands
      seq := s.seq
      fresh := s.fresh
      mem := s.mem
      badSectors := s.badSectors
      deadGroups := s.deadGroups
      compressed := s.compressed } : State) = { ({ u with
      tlb := t.tlb
      mem := t.mem
      deadGroups := t.deadGroups
      badSectors := t.badSectors
      compressed := t.compressed
      strands := t.strands
      held := t.held } : State) with
      tlb := u.tlb
      held := u.held
      strands := s.strands
      seq := s.seq
      fresh := s.fresh
      mem := s.mem
      badSectors := s.badSectors
      deadGroups := s.deadGroups
      compressed := s.compressed } from rfl, g1, htlb, hheld]
  have hmem := congrArg State.mem h
  have hbad := congrArg State.badSectors h
  have hdead := congrArg State.deadGroups h
  have hcomp := congrArg State.compressed h
  dsimp only at hmem hbad hdead hcomp
  rw [← hmem, ← hbad, ← hdead, ← hcomp]
  exact h

theorem tlb_homeWrite (s : State) (w : Option Nat) (pa : Nat) (bs : List Byte) (c : Bool) : (homeWrite s w pa bs c).tlb = s.tlb := by
  have hrec : ∀ (u : State) (n : Nat), (recompress u pa n c).tlb = u.tlb := fun u n => by unfold recompress; split <;> rfl
  have hbreak : ∀ (u : State) (n : Nat), (breakLinks u w pa n).tlb = u.tlb := fun u n => by unfold breakLinks; split <;> rfl
  rw [homeWrite, hrec, hbreak]

theorem held_homeWrite (s : State) (w : Option Nat) (pa : Nat) (bs : List Byte) (c : Bool) : (homeWrite s w pa bs c).held = s.held := by
  have hrec : ∀ (u : State) (n : Nat), (recompress u pa n c).held = u.held := fun u n => by unfold recompress; split <;> rfl
  have hbreak : ∀ (u : State) (n : Nat), (breakLinks u w pa n).held = u.held := fun u n => by unfold breakLinks; split <;> rfl
  rw [homeWrite, hrec, hbreak]

theorem SameButCounts.eq {u v : Strand} (h : SameButCounts u v) : v = { u with perfCnt := v.perfCnt } := by
  have h' : ({ v with perfCnt := u.perfCnt } : Strand) = u := h
  rw [show ({ u with perfCnt := v.perfCnt } : Strand) = { ({ v with perfCnt := u.perfCnt } : Strand) with perfCnt := v.perfCnt } by rw [h']]

theorem OthersKept.of_same {s t : State} {k : Nat} (h : ∀ j, j ≠ k → SameButCounts (s.strand j) (t.strand j)) : OthersKept s t k := fun j hj => by
  rw [(h j hj).eq]
  exact ⟨rfl, fun _ hl => hl⟩

theorem OthersKept.trans {s t u : State} {k : Nat} (h : OthersKept s t k) (g : OthersKept t u k) : OthersKept s u k := fun j hj => by
  obtain ⟨h1, h2⟩ := h j hj
  obtain ⟨g1, g2⟩ := g j hj
  refine ⟨?_, fun l hl => h2 l (g2 l hl)⟩
  have g1' := g1.eq
  have h1' := h1.eq
  unfold SameButCounts
  generalize u.strand j = x at g1' ⊢
  generalize t.strand j = y at g1' h1'
  generalize s.strand j = z at h1' ⊢
  cases x; cases y; cases z
  simp_all

theorem othersKept_updSlot (s : State) (k : Nat) (f : Strand → Strand) : OthersKept s (s.updSlot k f) k := fun j hj => by
  rw [strand_updSlot, if_neg hj]
  exact ⟨rfl, fun _ h => h⟩

/-! ### A retirement, and the TOKPs that it lets push (spec/17_engine_and_system_instructions.md R320) -/

/-- A strand with other scalar registers and counters. -/
def Strand.withRegs (t : Strand) (s : Tab Word) (badS : List Nat) (perf : Tab Word) : Strand := { t with s := s, badS := badS, perfCnt := perf }

theorem pushUnlessExit_withRegs (t : Strand) (s : Tab Word) (b : List Nat) (c : Tab Word) (q : Queue) (p : BitVec 2) :
    pushUnlessExit (t.withRegs s b c) q p = (pushUnlessExit t q p).withRegs s b c := by
  have hpush : pushToken (t.withRegs s b c) q p = (pushToken t q p).withRegs s b c := by
    unfold pushToken; split <;> rfl
  have hwait : (t.withRegs s b c).wait = t.wait := rfl
  rw [pushUnlessExit, pushUnlessExit, hpush, hwait]
  split <;> rfl

theorem flushTokps_withRegs (l : List (Nat × BitVec 2)) (t : Strand) (s : Tab Word) (b : List Nat) (c : Tab Word) :
    flushTokps l (t.withRegs s b c) = (flushTokps l t).withRegs s b c := by
  induction l generalizing t with
  | nil => rfl
  | cons x l ih =>
    have hout : (t.withRegs s b c).out = t.out := rfl
    have hsend : (t.withRegs s b c).sendq = t.sendq := rfl
    simp only [flushTokps, hout, hsend]
    split
    · rw [pushUnlessExit_withRegs, ih]
    · rfl

/-- Registers and counters have no part in it. -/
theorem flush_withRegs (t : Strand) (s : Tab Word) (b : List Nat) (c : Tab Word) : (t.withRegs s b c).flush = t.flush.withRegs s b c :=
  flushTokps_withRegs t.tokps t s b c

theorem setS_eq_withRegs (t : Strand) (d : BitVec 5) (x : Word) : t.setS d x = t.withRegs (t.setS d x).s (t.setS d x).badS t.perfCnt := by
  unfold Strand.setS; split <;> rfl

theorem setS_withRegs (t u : Strand) (d : BitVec 5) (x : Word) (c : Tab Word) (hs : u.s = t.s) (hb : u.badS = t.badS) :
    u.withRegs (t.setS d x).s (t.setS d x).badS c = ({ u with perfCnt := c }).setS d x := by
  unfold Strand.setS
  split
  · cases u; simp_all [Strand.withRegs]
  · cases u; simp_all [Strand.withRegs]

/-- What a flush may change. -/
theorem flushTokps_frame (l : List (Nat × BitVec 2)) (t : Strand) : ∃ tok tokRes tokNew ev tokps,
    flushTokps l t = { t with tok := tok, tokRes := tokRes, tokNew := tokNew, evFlag := ev, tokps := tokps } := by
  induction l generalizing t with
  | nil => exact ⟨_, _, _, _, _, rfl⟩
  | cons x l ih =>
    rw [flushTokps]
    split
    · obtain ⟨a, b, c, d, e, h⟩ := ih (pushUnlessExit t .s x.2)
      refine ⟨a, b, c, d, e, h.trans ?_⟩
      unfold pushUnlessExit pushToken
      split
      · rfl
      · split <;> rfl
    · exact ⟨_, _, _, _, _, rfl⟩

theorem flush_frame (t : Strand) : ∃ tok tokRes tokNew ev tokps,
    t.flush = { t with tok := tok, tokRes := tokRes, tokNew := tokNew, evFlag := ev, tokps := tokps } := flushTokps_frame _ t

@[simp] theorem flush_s (t : Strand) : t.flush.s = t.s := by
  obtain ⟨_, _, _, _, _, h⟩ := flush_frame t; rw [h]
@[simp] theorem flush_badS (t : Strand) : t.flush.badS = t.badS := by
  obtain ⟨_, _, _, _, _, h⟩ := flush_frame t; rw [h]
@[simp] theorem flush_out (t : Strand) : t.flush.out = t.out := by
  obtain ⟨_, _, _, _, _, h⟩ := flush_frame t; rw [h]
@[simp] theorem flush_pc (t : Strand) : t.flush.pc = t.pc := by
  obtain ⟨_, _, _, _, _, h⟩ := flush_frame t; rw [h]
@[simp] theorem flush_restart (t : Strand) : t.flush.restart = t.restart := by
  obtain ⟨_, _, _, _, _, h⟩ := flush_frame t; rw [h]
@[simp] theorem flush_getS (t : Strand) (r : BitVec 5) : t.flush.getS r = t.getS r := by
  obtain ⟨_, _, _, _, _, h⟩ := flush_frame t; rw [h]; rfl

/-- The strand after the registers' change and a flush. -/
theorem flush_setS (t : Strand) (d : BitVec 5) (x : Word) (c : Tab Word) :
    (({ t with perfCnt := c }).setS d x).flush = ({ t.flush with perfCnt := c }).setS d x := by
  rw [setS_eq_withRegs, show ({ t with perfCnt := c } : Strand).withRegs (({ t with perfCnt := c } : Strand).setS d x).s
      (({ t with perfCnt := c } : Strand).setS d x).badS c = t.withRegs (t.setS d x).s (t.setS d x).badS c by
    unfold Strand.setS; split <;> rfl, flush_withRegs, setS_withRegs t t.flush d x c (flush_s t) (flush_badS t)]

/-! ### Scalar accesses that later instructions wait for (spec/06_memory_ordering.md R107, R108) -/

theorem dropNth_length_append {α : Type} (l : List α) (a : α) : dropNth (l ++ [a]) l.length = l := by
  induction l with
  | nil => rfl
  | cons b l ih => rw [List.cons_append, List.length_cons, dropNth, ih]

theorem nth_length_append {α : Type} (d : α) (l : List α) (a : α) : nth d (l ++ [a]) l.length = a := by
  simp [nth]

/-- The access of a form that later instructions wait for. -/
def waitedFor (q : Nat) (op : AccessOp) (va : Nat) (pl : Place) (n since : Nat) (k : AccessKind) : Access :=
  { Access.plain q op va pl n since k with blocks := true }

/-- An access to HBM of this package or to the near window. -/
def Ordinary (pl : Place) : Prop := (∃ x, pl = .near x) ∨ (∃ x b, pl = .mem x b)

theorem Ordinary.local {pl : Place} (h : Ordinary pl) (s : State) : isLocal s pl = true := by
  rcases h with ⟨x, rfl⟩ | ⟨x, b, rfl⟩ <;> rfl

theorem Ordinary.notRemote {pl : Place} (h : Ordinary pl) : isRemote pl = false := by
  rcases h with ⟨x, rfl⟩ | ⟨x, b, rfl⟩ <;> rfl

theorem Ordinary.notDevice {pl : Place} (h : Ordinary pl) : isDevice pl = false := by
  rcases h with ⟨x, rfl⟩ | ⟨x, b, rfl⟩ <;> rfl

theorem tagsFree_of_local (s : State) (die : Nat) {pl : Place} (h : isRemote pl = false) : tagsFree s die [pl] = true := by
  simp [tagsFree, h]

/-- `u` is `s` with an access of the strand in slot `k` under way: one more than those of `s`; besides it only the model's counters and
performance counters differ. -/
def UnderWay (s u : State) (k : Nat) (a : Access) : Prop :=
  PackageCounted s u ∧ (∀ j, j ≠ k → SameButCounts (s.strand j) (u.strand j)) ∧
    SameButCounts { s.strand k with out := (s.strand k).out ++ [a] } (u.strand k)

/-- An access that joins the outstanding ones. -/
theorem underWay_post (s : State) (k : Nat) (a : Access) (h : isRemote a.place = false) (htag : a.tag = none) (hsent : a.sent = false) :
    UnderWay s (post s.nextSeq.2 k a) k a := by
  obtain ⟨hkept, hothers, hmine⟩ := post_spec s.nextSeq.2 k a h
  have ha : ({ a with tag := none, sent := false } : Access) = a := by rw [← htag, ← hsent]
  rw [ha] at hmine
  exact ⟨(packageCounted_nextSeq s).trans hkept.counted, hothers, hmine⟩

/-- A blocking access that may be performed at once is. -/
theorem blockingAccess_of_mayPerform {x : ScalarAccess} {pl : Place} {s0 s : State} (hpl : Ordinary pl)
    (hmay : MayPerform s pl x.n x.need.reads) (hrel : relReady s.me s.cur x.rel = true) :
    ∃ u, UnderWay s u s.cur (waitedFor (s.seq + 1) x.op x.va.toNat pl x.n s.cycle x.akind) ∧
      blockingAccess x pl s0 s = .next (performAt u s.cur s.me.out.length
        (waitedFor (s.seq + 1) x.op x.va.toNat pl x.n s.cycle x.akind) (.value 0#512)) := by
  obtain ⟨-, -, hheld, hfault⟩ := hmay
  have hpost := underWay_post s s.cur (waitedFor (s.seq + 1) x.op x.va.toNat pl x.n s.cycle x.akind)
    hpl.notRemote rfl rfl
  refine ⟨_, hpost, ?_⟩
  have hout := congrArg Strand.out hpost.2.2.eq
  rw [blockingAccess]
  simp only [hheld, hrel, tagsFree_of_local s _ hpl.notRemote, hpl.local, hfault, Bool.not_true, Bool.or_false, if_true, Bool.false_eq_true,
    if_false]
  change Host.Outcome.next (performAt (post s.nextSeq.2 s.cur (waitedFor (s.seq + 1) x.op x.va.toNat pl x.n s.cycle x.akind)) s.cur s.me.out.length
    { waitedFor (s.seq + 1) x.op x.va.toNat pl x.n s.cycle x.akind with
      tag := (nth (waitedFor (s.seq + 1) x.op x.va.toNat pl x.n s.cycle x.akind)
        ((post s.nextSeq.2 s.cur (waitedFor (s.seq + 1) x.op x.va.toNat pl x.n s.cycle x.akind)).strand s.cur).out s.me.out.length).tag }
    (.value 0#512)) = _
  rw [hout]
  dsimp only
  rw [show s.me.out = (s.strand s.cur).out from rfl, nth_length_append]

theorem giveTag_none (s : State) : giveTag s none = s := rfl

/-- The strand when its blocking access has settled: the access is gone, its value is in s[d], and the strand goes on. -/
theorem strand_settle {t : Strand} {u : State} {k q va n since : Nat} {op : AccessOp} {pl : Place} {kind : AccessKind} {d : BitVec 5} {x : Word}
    (hrestart : t.restart = 0) (hnone : ∀ b ∈ t.out, b.blocks = false)
    (hu : SameButCounts { t with out := t.out ++ [waitedFor q op va pl n since kind] } (u.strand k)) :
    (settle u k t.out.length (waitedFor q op va pl n since kind) (fun t => t.setS d x)).strand k =
      (({ t.flush with perfCnt := (u.strand k).perfCnt }).setS d x).next := by
  have hany : t.out.any (fun b => b.seq == q && b.blocks) = false := by
    rw [List.any_eq_false]
    intro b hb
    rw [hnone b hb, Bool.and_false]
    exact Bool.false_ne_true
  have hdrop : ({ u.strand k with out := dropNth (u.strand k).out t.out.length } : Strand) = { t with perfCnt := (u.strand k).perfCnt } := by
    rw [hu.eq]
    dsimp only
    rw [dropNth_length_append]
  have hgo : ∀ v : Strand, v.out = t.out → v.restart = 0 →
      (if true && !v.out.any (fun b => b.seq == q && b.blocks) then
        if 0 < v.restart then { v with wait := .none } else ({ v with vl := cutVl v.vl none }).retire 0#2
      else v) = v.next := by
    intro v hout hres
    rw [if_pos (by rw [hout, hany]; rfl), if_neg (by rw [hres]; exact Nat.lt_irrefl 0)]
    rfl
  rw [settle, show (waitedFor q op va pl n since kind).tag = none from rfl, giveTag_none, strand_updSlot, if_pos rfl, hdrop, flush_setS]
  exact hgo _ (by rw [Strand.setS_out]; exact flush_out t) (by rw [Strand.setS_restart]; exact (flush_restart t).trans hrestart)

/-- Of the package and the other strands a settled access leaves what was there, and its strand has the value and goes on. -/
theorem settle_spec {s u : State} {k q va n since : Nat} {op : AccessOp} {pl : Place} {kind : AccessKind} (d : BitVec 5) (x : Word)
    (hrestart : (s.strand k).restart = 0) (hnone : ∀ b ∈ (s.strand k).out, b.blocks = false)
    (hu : SameButCounts { s.strand k with out := (s.strand k).out ++ [waitedFor q op va pl n since kind] } (u.strand k)) :
    ∃ t, settle u k (s.strand k).out.length (waitedFor q op va pl n since kind) (fun t => t.setS d x) = t ∧ PackageKept u t ∧
      (∀ j, j ≠ k → t.strand j = u.strand j) ∧
      WroteS (s.strand k).flush { t.strand k with perfCnt := (s.strand k).perfCnt } d x ((s.strand k).pc + 4#64) := by
  have hmine := strand_settle (d := d) (x := x) hrestart hnone hu
  refine ⟨_, rfl, rfl, fun j hj => ?_, ?_⟩
  · rw [settle, show (waitedFor q op va pl n since kind).tag = none from rfl, giveTag_none, strand_updSlot, if_neg hj]
  rw [hmine]
  have hperf : (s.strand k).flush.perfCnt = (s.strand k).perfCnt := by
    obtain ⟨_, _, _, _, _, hf⟩ := flush_frame (s.strand k)
    rw [hf]
  have heq : ({ (({ (s.strand k).flush with perfCnt := (u.strand k).perfCnt }).setS d x).next with perfCnt := (s.strand k).perfCnt } : Strand) =
      ((s.strand k).flush.setS d x).goto ((s.strand k).pc + 4#64) := by
    have hpc := flush_pc (s.strand k)
    generalize (s.strand k).flush = v at hperf hpc ⊢
    rw [← hperf, ← hpc]
    unfold Strand.setS
    split <;> rfl
  rw [heq]
  exact wroteS_goto _ d x _

/-! ### Loads (spec/14_scalar_instructions.md R242, R244) -/

theorem scalarAccess_of_reaches {x : ScalarAccess} {s s1 : State} {pl : Place} (h : Reaches s x.va x.n x.need x.acc pl s1) :
    scalarAccess x s = if x.blocks then blockingAccess x pl s s1 else postedAccess x pl s s1 := by
  rw [scalarAccess, h]

/-- The number at a place, with an access under way. -/
theorem UnderWay.placeNumber {s u : State} {a : Access} {pl : Place} (h : UnderWay s u s.cur a) (hpl : Ordinary pl) (n : Nat) :
    bytesNat (placeRead u s.cur pl n) = placeNumber s pl n := by
  rcases hpl with ⟨x, rfl⟩ | ⟨x, b, rfl⟩
  · have := congrArg Strand.scratch h.2.2.eq
    simp only [placeRead, nearRead, Machine.placeNumber, this]
    rfl
  · simp only [placeRead, homeRead, Machine.placeNumber, h.1.mem]

/-- A load that may be performed gives the number at its place. -/
theorem loads_of_scalarAccess {i : Instr} {s s1 : State} {x : ScalarAccess} {pl : Place} {d : BitVec 5} {sx : Bool}
    (hexec : exec i s = scalarAccess x s) (hblocks : x.blocks = true) (hop : x.op = .load d sx) (hrel : x.rel = none) (hread : x.need = .read)
    (hpl : Ordinary pl) (hreach : Reaches s x.va x.n x.need x.acc pl s1) (hmay : MayPerform s1 pl x.n true) :
    Loads i s s1 d (if sx then wordOfInt (signedOf (8 * x.n) (placeNumber s1 pl x.n)) else BitVec.ofNat 64 (placeNumber s1 pl x.n)) := by
  have hhomes := onlyHomes_locate hreach
  have hreads : x.need.reads = true := by rw [hread]; rfl
  obtain ⟨u, hway, hperf⟩ := blockingAccess_of_mayPerform (x := x) (s0 := s) hpl (by rw [hreads]; exact hmay) (by rw [hrel]; rfl)
  have hval := hway.placeNumber hpl x.n
  obtain ⟨t, ht, hkept, hothers, hwrote⟩ := settle_spec d
    (if sx then wordOfInt (signedOf (8 * x.n) (placeNumber s1 pl x.n)) else BitVec.ofNat 64 (placeNumber s1 pl x.n)) hmay.1 hmay.2.1 hway.2.2
  have hcounted := hway.1.trans hkept.counted
  refine ⟨t, ?_, hcounted, ?_, ?_⟩
  · rw [hexec, scalarAccess_of_reaches hreach, hblocks, if_pos rfl, hperf, ← ht]
    simp only [waitedFor, performAt, hop, Access.plain, hpl.local, hpl.notDevice, hval, if_true, Bool.false_eq_true, if_false]
    rfl
  · rw [← hhomes.cur]
    exact OthersKept.of_same fun j hj => by rw [hothers j hj]; exact hway.2.1 j hj
  · rw [← hhomes.pc, show t.me = t.strand s1.cur by rw [State.me, hcounted.cur]]
    exact hwrote

theorem signedOf_eq_toInt (w x : Nat) : signedOf w x = (BitVec.ofNat w x).toInt := by
  rw [signedOf, BitVec.toInt_eq_toNat_cond, BitVec.toNat_ofNat]

theorem scaledEa_eq (s : State) (a : BitVec 5) (o : BitVec 14) (z : BitVec 2) : scaledEa s.me a o z = offsetAddress s a o (2 ^ z.toNat) := by
  rw [scaledEa, offsetAddress, BitVec.ofInt_add, BitVec.ofInt_mul, BitVec.ofInt_natCast, BitVec.ofInt_natCast, ofNat_toNat_self]
  rfl

theorem wideBytes_eq (z : BitVec 1) : wideBytes z = if z = 1#1 then 8 else 4 := rfl

/-- Settles O8: a load is performed at once, and its access settles with the bytes there. -/
theorem loadsComplete : Obligations.LoadsComplete := by
  unfold Obligations.LoadsComplete
  intro s s1 d a o z w c pl hpl n m
  refine ⟨fun hreach hmay => ?_, fun hreach hmay => ?_, fun hdef hreach hmay => ?_⟩
  · rw [← scaledEa_eq] at hreach
    exact loads_of_scalarAccess (sx := false) (x := ⟨scaledEa s.me a o z, 2 ^ z.toNat, .read, acceptsOfSize z, .scalarLoad, .load d false, true, none⟩)
      rfl rfl rfl rfl rfl hpl hreach hmay
  · rw [← scaledEa_eq] at hreach
    have h := loads_of_scalarAccess (i := .lds d a o z) (sx := true)
      (x := ⟨scaledEa s.me a o z, 2 ^ z.toNat, .read, acceptsPlain, .scalarLoad, .load d true, true, none⟩) rfl rfl rfl rfl rfl hpl hreach hmay
    rwa [if_pos rfl, wordOfInt_eq_ofInt, signedOf_eq_toInt] at h
  · refine loads_of_scalarAccess (sx := false) (x := ⟨s.me.getS a, wideBytes w, .read, acceptsWide, .scalarLoad, .load d false, true, none⟩)
      ?_ rfl rfl rfl rfl hpl hreach hmay
    change (match deliver s with
      | some s1 => Host.Outcome.next s1
      | none => scalarAccess ⟨s.me.getS a, wideBytes w, .read, acceptsWide, .scalarLoad, .load d false, true, none⟩ s) = _
    rw [deliver_eq_none hdef]

/-! ### Atomics (spec/14_scalar_instructions.md R245, R247) -/

theorem holds_mod_iff {t : State} {pa n x : Nat} : Holds t pa n (x % 2 ^ (8 * n)) ↔ Holds t pa n x :=
  ⟨fun h j hj => by rw [h j hj, ofNat_div_mod x hj], Holds.of_mod⟩

theorem bytesNat_div_pow (bs : List Byte) (j : Nat) (h : j < bs.length) : BitVec.ofNat 8 (bytesNat bs / 256 ^ j) = bs[j] := by
  induction bs generalizing j with
  | nil => simp at h
  | cons b bs ih =>
    have hb := b.isLt
    cases j with
    | zero =>
      apply BitVec.eq_of_toNat_eq
      rw [bytesNat, BitVec.toNat_ofNat, Nat.pow_zero, Nat.div_one, List.getElem_cons_zero]
      omega
    | succ j =>
      rw [bytesNat, Nat.pow_succ', ← Nat.div_div_eq_div_mul, show (b.toNat + 256 * bytesNat bs) / 256 = bytesNat bs by omega, ih,
        List.getElem_cons_succ]

/-- Bytes hold the number that is read of them. -/
theorem holds_self (t : State) (pa n : Nat) : Holds t pa n (bytesNat (memBytes t.mem pa n)) := fun j hj => by
  rw [bytesNat_div_pow _ _ (by rw [memBytes_length]; exact hj), memBytes_getElem]

/-- What an atomic does at its bytes: it leaves them, or writes the low bytes of a number. -/
inductive Writes (pa n : Nat) (comp : Bool) (k : Nat) (u w : State) (x : Nat) : Prop where
  | kept (hw : w = u) (hx : x = bytesNat (memBytes u.mem pa n))
  | wrote (v : Nat) (hw : w = homeWrite u (some k) pa (natBytes n v) comp) (hx : v % 2 ^ (8 * n) = x % 2 ^ (8 * n))

theorem Writes.onlyHomes {pa n k x : Nat} {comp : Bool} {u w : State} (h : Writes pa n comp k u w x) : OnlyHomes u w := by
  cases h with
  | kept hw _ => rw [hw]; exact OnlyHomes.refl u
  | wrote v hw _ => rw [hw]; exact onlyHomes_homeWrite ..

theorem Writes.strand {pa n k x : Nat} {comp : Bool} {u w : State} (h : Writes pa n comp k u w x) : w.strand k = u.strand k := by
  cases h with
  | kept hw _ => rw [hw]
  | wrote v hw _ => rw [hw, strand_homeWrite_self]

theorem Writes.stored {pa n k x : Nat} {comp : Bool} {s u w : State} (h : Writes pa n comp k u w x) (hs : PackageCounted s u) : PackageStored s w := by
  refine hs.stored h.onlyHomes ?_ ?_
  · cases h with
    | kept hw _ => rw [hw]
    | wrote v hw _ => rw [hw, tlb_homeWrite]
  · cases h with
    | kept hw _ => rw [hw]
    | wrote v hw _ => rw [hw, held_homeWrite]

theorem Writes.holds {pa n k x : Nat} {comp : Bool} {u w t : State} (h : Writes pa n comp k u w x) (ht : t.mem = w.mem) : Holds t pa n x := by
  cases h with
  | kept hw hx =>
    have := holds_self t pa n
    rwa [ht, hw, ← hx] at this
  | wrote v hw hx =>
    rw [← holds_mod_iff, ← hx, holds_mod_iff]
    exact holds_of_memPut (ht.trans (by rw [hw, mem_homeWrite]))

theorem Writes.memoryKept {pa n k x : Nat} {comp : Bool} {s u w t : State} (h : Writes pa n comp k u w x) (ht : t.mem = w.mem) (hs : u.mem = s.mem) :
    MemoryKept s t (within pa n) := by
  cases h with
  | kept hw hx => exact fun a _ => by rw [ht, hw, hs]
  | wrote v hw hx => exact memoryKept_of_memPut (ht.trans (by rw [hw, mem_homeWrite, hs])) (natBytes_length n v)

theorem PackageStored.of_kept {s w t : State} (h : PackageStored s w) (g : PackageKept w t) : PackageStored s t := by
  unfold PackageStored PackageKept at *
  rw [← h, ← g]

/-- An atomic whose old value or order is waited for. -/
theorem atomically_of_scalarAccess {i : Instr} {s s1 : State} {x : ScalarAccess} {pa : Nat} {comp : Bool} {d : BitVec 5} {new : Nat → Nat}
    (hexec : exec i s = scalarAccess x s) (hblocks : x.blocks = true) (hneed : x.need = .readWrite)
    (hrel : relReady s1.me s1.cur x.rel = true) (hreach : Reaches s x.va x.n x.need x.acc (.mem pa comp) s1)
    (hmay : MayPerform s1 (.mem pa comp) x.n true)
    (hstep : ∀ (u : State) (k j q va since : Nat) (kind : AccessKind), ∃ w, Writes pa x.n comp k u w (new (bytesNat (memBytes u.mem pa x.n))) ∧
      performAt u k j (waitedFor q x.op va (.mem pa comp) x.n since kind) (.value 0#512) =
        settle w k j (waitedFor q x.op va (.mem pa comp) x.n since kind)
          (fun t => t.setS d (BitVec.ofNat 64 (bytesNat (memBytes u.mem pa x.n))))) :
    Atomically i s s1 d pa x.n new := by
  have hhomes := onlyHomes_locate hreach
  have hreads : x.need.reads = true := by rw [hneed]; rfl
  obtain ⟨u, hway, hperf⟩ := blockingAccess_of_mayPerform (x := x) (s0 := s) (.inr ⟨pa, comp, rfl⟩) (by rw [hreads]; exact hmay) hrel
  obtain ⟨w, hwrites, hsettle⟩ := hstep u s1.cur s1.me.out.length (s1.seq + 1) x.va.toNat s1.cycle x.akind
  rw [hway.1.mem] at hwrites hsettle
  obtain ⟨t, ht, hkept, hothers, hwrote⟩ := settle_spec d (BitVec.ofNat 64 (bytesNat (memBytes s1.mem pa x.n))) hmay.1 hmay.2.1
    (by rw [hwrites.strand]; exact hway.2.2)
  have hmem : t.mem = w.mem := hkept.counted.mem
  have hcur : t.cur = s1.cur := by rw [hkept.counted.cur, hwrites.onlyHomes.cur, hway.1.cur]
  refine ⟨t, ?_, (hwrites.stored hway.1).of_kept hkept, ?_, hwrites.holds hmem, hwrites.memoryKept hmem hway.1.mem, ?_⟩
  · rw [hexec, scalarAccess_of_reaches hreach, hblocks, if_pos rfl, hperf, hsettle, ← ht]
    rfl
  · rw [← hhomes.cur]
    refine (OthersKept.of_same (s := s1) (t := u) hway.2.1).trans ((hwrites.onlyHomes.othersKept _).trans fun j hj => ?_)
    rw [hothers j hj]
    exact ⟨rfl, fun _ h => h⟩
  · rw [← hhomes.pc, show t.me = t.strand s1.cur by rw [State.me, hcur]]
    exact hwrote

theorem relReady_atomicRel {t : Strand} {k : Nat} {r : BitVec 1} {c : BitVec 2} (h : r = 1#1 → t.drained k (scopeOf c) = true) :
    relReady t k (atomicRel r c) = true := by
  unfold atomicRel
  split
  · exact h ‹_›
  · rfl

theorem atomicBlocks_of {d : BitVec 5} {q : BitVec 1} (h : d ≠ 0#5 ∨ q = 1#1) : atomicBlocks d q = true := by
  rcases h with h | h <;> simp [atomicBlocks, h]

/-- An AMO of one op. -/
theorem atomically_of_amoForm {i : Instr} {s s1 : State} {op : BitVec 4} {d a b : BitVec 5} {r q z : BitVec 1} {c : BitVec 2} {pa : Nat} {comp : Bool}
    {new : Nat → Nat} (hexec : exec i s = amoForm op d a b r q c z s) (hwait : d ≠ 0#5 ∨ q = 1#1)
    (hrel : r = 1#1 → s1.me.drained s1.cur (scopeOf c) = true)
    (hreach : Reaches s (s.me.getS a) (wideBytes z) .readWrite acceptsPlain (.mem pa comp) s1)
    (hmay : MayPerform s1 (.mem pa comp) (wideBytes z) true)
    (hnew : ∀ old, old < 2 ^ (8 * wideBytes z) →
      amoNew op (wideBytes z) old (s.me.getS b).toNat % 2 ^ (8 * wideBytes z) = new old % 2 ^ (8 * wideBytes z)) :
    Atomically i s s1 d pa (wideBytes z) new := by
  refine atomically_of_scalarAccess (x := ⟨s.me.getS a, wideBytes z, .readWrite, acceptsPlain, .atomic, .amo op (s.me.getS b) d,
    atomicBlocks d q, atomicRel r c⟩) hexec (atomicBlocks_of hwait) rfl (relReady_atomicRel hrel) hreach hmay fun u k j q va since kind => ?_
  exact ⟨_, .wrote _ rfl (hnew _ (bytesNat_memBytes_lt ..)), rfl⟩

theorem toInt_ofNat_mod (w x : Nat) : (BitVec.ofNat w (x % 2 ^ w)).toInt = (BitVec.ofNat w x).toInt := by
  congr 1
  apply BitVec.eq_of_toNat_eq
  simp

/-- Settles O9: the access writes what the operation gives of the old bytes and settles with the old value. -/
theorem atomicsComplete : Obligations.AtomicsComplete := by
  unfold Obligations.AtomicsComplete
  intro s s1 d a b m r q z c pa comp hwait hrel
  have hrel' : ∀ {n need acc}, Reaches s (s.me.getS a) n need acc (.mem pa comp) s1 → r = 1#1 → s1.me.drained s1.cur (scopeOf c) = true :=
    fun hreach => by rw [(onlyHomes_locate hreach).cur]; exact hrel
  refine ⟨?_, fun hreach hmay => ?_⟩
  · intro n B sg hreach hmay
    have amo : ∀ {i : Instr} {new : Nat → Nat} (op : BitVec 4), exec i s = amoForm op d a b r q c z s →
        (∀ old, old < 2 ^ (8 * n) → amoNew op n old (s.me.getS b).toNat % 2 ^ (8 * n) = new old % 2 ^ (8 * n)) →
        Atomically i s s1 d pa n new :=
      fun op hexec hnew => atomically_of_amoForm hexec hwait (hrel' hreach) hreach hmay hnew
    have hless : ∀ x y : Nat, (signedOf (8 * n) x < signedOf (8 * n) y) = (sg x < sg y) := fun x y => by
      rw [signedOf_eq_toInt, signedOf_eq_toInt]
    have hsg : sg B = sg (s.me.getS b).toNat := toInt_ofNat_mod ..
    refine ⟨amo 0#4 rfl fun old _ => ?_, amo 1#4 rfl fun _ _ => rfl, amo 2#4 rfl fun _ _ => rfl, amo 3#4 rfl fun _ _ => rfl,
      amo 4#4 rfl fun old _ => ?_, amo 5#4 rfl fun old _ => ?_, amo 6#4 rfl fun _ _ => rfl, amo 7#4 rfl fun _ _ => rfl,
      amo 8#4 rfl fun _ _ => rfl, ?_⟩
    · change (old + (s.me.getS b).toNat) % 2 ^ (8 * n) % 2 ^ (8 * n) = (old + B) % 2 ^ (8 * n) % 2 ^ (8 * n)
      rw [Nat.add_mod_mod]
    · change (if signedOf (8 * n) (s.me.getS b).toNat < signedOf (8 * n) old then B else old) % _ = (if sg B < sg old then B else old) % _
      rw [hsg]
      simp only [hless]
    · change (if signedOf (8 * n) old < signedOf (8 * n) (s.me.getS b).toNat then B else old) % _ = (if sg old < sg B then B else old) % _
      rw [hsg]
      simp only [hless]
    · refine atomically_of_scalarAccess (x := ⟨s.me.getS a, n, .readWrite, acceptsPlain, .atomic, .cas (s.me.getS d) (s.me.getS b) d,
        atomicBlocks d q, atomicRel r c⟩) rfl (atomicBlocks_of hwait) rfl (relReady_atomicRel (hrel' hreach)) hreach hmay
        fun u k j q va since kind => ?_
      by_cases hit : bytesNat (memBytes u.mem pa n) = (s.me.getS d).toNat % 2 ^ (8 * n)
      · refine ⟨homeWrite u (some k) pa (natBytes n (s.me.getS b).toNat) comp, .wrote _ rfl ?_, ?_⟩
        · dsimp only
          rw [if_pos hit, Nat.mod_mod]
        · simp only [performAt, waitedFor, Access.plain, isLocal, placeRead, homeRead, hit, decide_true, Bool.and_self, if_true]
          rfl
      · refine ⟨u, .kept rfl (if_neg hit), ?_⟩
        simp only [performAt, waitedFor, Access.plain, isLocal, placeRead, homeRead, hit, decide_false, Bool.and_false, if_true,
          Bool.false_eq_true, if_false]
  · refine atomically_of_amoForm (op := 9#4) (z := 0#1) rfl hwait (hrel' hreach) hreach hmay fun old _ => ?_
    rfl

/-! ### Posted accesses (spec/06_memory_ordering.md R108) -/

/-- Only a form that accepts device pages reaches one. -/
theorem notDevice_of_placeOf {s : State} {p : BitVec 6} {e : TlbEntry} {va n : Nat} {need : Need} {acc : Accepts} {pl : Place}
    (h : placeOf s p e va n need acc = .ok pl) (hacc : acc.device = false) : isDevice pl = false := by
  unfold placeOf at h
  simp only [hacc, Bool.false_eq_true, if_false] at h
  repeat' (split at h)
  all_goals simp only [Except.ok.injEq, reduceCtorEq] at h
  all_goals (subst h; rfl)

theorem notDevice_of_locate {s s1 : State} {c : Ctx} {va : Word} {n al : Nat} {need : Need} {acc : Accepts} {pl : Place}
    (h : locate s c va n al need acc = .ok (pl, s1)) (hacc : acc.device = false) : isDevice pl = false := by
  unfold locate at h
  dsimp only at h
  split at h
  · cases h
  · split at h
    · cases h
    · split at h
      · split at h
        · cases h
        · split at h
          · cases h
          · split at h
            · cases h
            · cases h; rfl
      · split at h
        · cases h
        · split at h
          · cases h
          · split at h
            · cases h
            · rename_i hpl
              cases h
              exact notDevice_of_placeOf hpl hacc

/-- A strand that goes on with more accesses outstanding. -/
theorem wentOn_of_out {u v : Strand} {l : List Access} (h : SameButCounts { u with out := l } v) :
    v.next.out = l ∧ WentOn u { v.next with out := u.out, perfCnt := u.perfCnt } (u.pc + 4#64) := by
  rw [h.eq]
  exact ⟨rfl, wentOn_next u⟩

/-- An access that later instructions do not wait for joins the outstanding ones. -/
theorem posts_of_scalarAccess {i : Instr} {s s1 : State} {x : ScalarAccess} {pl : Place} (hexec : exec i s = scalarAccess x s)
    (hblocks : x.blocks = false) (hremote : isRemote pl = false)
    (hdevice : isDevice pl = false ∨ (∀ a ∈ s1.me.out, isDevice a.place = false)) (hreach : Reaches s x.va x.n x.need x.acc pl s1) :
    Posts i s s1 { Access.plain (s1.seq + 1) x.op x.va.toNat pl x.n s1.cycle x.akind with rel := x.rel } := by
  have hhomes := onlyHomes_locate hreach
  have hfree : (isDevice pl && s1.me.out.any (fun a => isDevice a.place)) = false := by
    rcases hdevice with h | h
    · rw [h, Bool.false_and]
    · rw [List.any_eq_false.mpr fun a ha => by rw [h a ha]; exact Bool.false_ne_true, Bool.and_false]
  have hway := underWay_post s1 s1.cur { Access.plain (s1.seq + 1) x.op x.va.toNat pl x.n s1.cycle x.akind with rel := x.rel } hremote rfl rfl
  obtain ⟨hcounted, hothers, hmine⟩ := hway
  obtain ⟨hout, hwent⟩ := wentOn_of_out hmine
  refine ⟨(post s1.nextSeq.2 s1.cur { Access.plain (s1.seq + 1) x.op x.va.toNat pl x.n s1.cycle x.akind with rel := x.rel }).upd Strand.next, ?_, ?_⟩
  · rw [hexec, scalarAccess_of_reaches hreach, hblocks, if_neg Bool.false_ne_true, postedAccess, hfree, tagsFree_of_local _ _ hremote]
    rfl
  · generalize post s1.nextSeq.2 s1.cur { Access.plain (s1.seq + 1) x.op x.va.toNat pl x.n s1.cycle x.akind with rel := x.rel } = v
      at hcounted hothers hmine hout hwent ⊢
    have hcur : v.cur = s1.cur := hcounted.cur
    have hme : v.me = v.strand s1.cur := by rw [State.me, hcur]
    refine ⟨hcounted.trans (onlyMe_upd v _).1.counted, ?_, ?_, ?_⟩
    · rw [← hhomes.cur]
      exact OthersKept.of_same fun j hj => by rw [(onlyMe_upd v _).2 j (by rwa [hcur])]; exact hothers j hj
    · rw [me_upd, hme]
      exact hout
    · rw [me_upd, hme, ← hhomes.pc]
      exact hwent

/-- The atomics of d = s0 without an acquire. -/
theorem posts_of_atomic {i : Instr} {s s1 : State} {op : AccessOp} {a : BitVec 5} {n : Nat} {r : BitVec 1} {c : BitVec 2} {pl : Place}
    (hexec : exec i s = scalarAccess ⟨s.me.getS a, n, .readWrite, acceptsPlain, .atomic, op, atomicBlocks 0#5 0#1, atomicRel r c⟩ s)
    (hremote : isRemote pl = false) (hreach : Reaches s (s.me.getS a) n .readWrite acceptsPlain pl s1) :
    Posts i s s1 { Access.plain (s1.seq + 1) op (s.me.getS a).toNat pl n s1.cycle .atomic with
      rel := if r = 1#1 then some (scopeOf c) else none } :=
  posts_of_scalarAccess hexec rfl hremote (.inl (notDevice_of_locate hreach rfl)) hreach

theorem packageCounted_frame {s t u : State} {k : Nat} {l : List Access} (hs : PackageCounted s t)
    (hothers : ∀ j, j ≠ k → SameButCounts (s.strand j) (t.strand j)) (hmine : SameButCounts { s.strand k with out := l } (t.strand k))
    {a : Access} (hu : u = post t k a) (hremote : isRemote a.place = false) (htag : a.tag = none) (hsent : a.sent = false) :
    PackageCounted s u ∧ (∀ j, j ≠ k → SameButCounts (s.strand j) (u.strand j)) ∧
      SameButCounts { s.strand k with out := l ++ [a] } (u.strand k) := by
  obtain ⟨hkept, hothers', hmine'⟩ := post_spec t k a hremote
  have ha : ({ a with tag := none, sent := false } : Access) = a := by rw [← htag, ← hsent]
  rw [ha] at hmine'
  subst hu
  refine ⟨hs.trans hkept.counted, fun j hj => (hothers j hj).trans (hothers' j hj), ?_⟩
  rw [hmine.eq] at hmine'
  exact SameButCounts.trans (v := { s.strand k with out := l ++ [a], perfCnt := (t.strand k).perfCnt }) rfl hmine'

/-- Settles O10: each form makes its checks and joins the outstanding accesses. -/
theorem postedAccessesIssue : Obligations.PostedAccessesIssue := by
  unfold Obligations.PostedAccessesIssue
  refine ⟨?_, ?_, ?_⟩
  · intro s s1 d a b o z w c pl hremote hdevice n m ea
    refine ⟨fun hreach => ?_, fun hreach => ?_⟩
    · have hea : ea = scaledEa s.me a o z := (scaledEa_eq s a o z).symm
      rw [hea] at hreach ⊢
      exact posts_of_scalarAccess (x := ⟨scaledEa s.me a o z, n, .write, acceptsOfSize z, .scalarStore, .store (s.me.getS d), false, none⟩)
        rfl rfl hremote hdevice hreach
    · exact posts_of_scalarAccess (x := ⟨s.me.getS a, m, .write, acceptsWide, .scalarStore, .store (s.me.getS b), false, some (scopeOf c)⟩)
        rfl rfl hremote hdevice hreach
  · intro s s1 s2 d a b c z pd pf n hpd hpf hdata hflag
    have hhomes1 := onlyHomes_locate hdata
    have hhomes2 := onlyHomes_locate hflag
    have hcur : s2.cur = s.cur := hhomes2.cur.trans hhomes1.cur
    obtain ⟨hc1, ho1, hm1⟩ := packageCounted_frame (s := s2) (k := s.cur) (l := (s2.strand s.cur).out)
      (packageCounted_nextSeq s2) (fun _ _ => rfl) rfl
      (a := Access.plain (s2.seq + 1) (.store (s.me.getS b)) (s.me.getS a).toNat pd n s.cycle .scalarStore) rfl hpd rfl rfl
    obtain ⟨hc2, ho2, hm2⟩ := packageCounted_frame hc1 ho1 hm1
      (a := { Access.plain (s2.seq + 1) (.flag (scopeOf c)) (s.me.getS d).toNat pf 8 s.cycle .atomic with rel := some (scopeOf c) }) rfl hpf rfl rfl
    obtain ⟨hout, hwent⟩ := wentOn_of_out hm2
    have hexec : exec (.stn d a b c z) s = .next ((post (post s2.nextSeq.2 s.cur
        (Access.plain (s2.seq + 1) (.store (s.me.getS b)) (s.me.getS a).toNat pd n s.cycle .scalarStore)) s.cur
        { Access.plain (s2.seq + 1) (.flag (scopeOf c)) (s.me.getS d).toNat pf 8 s.cycle .atomic with rel := some (scopeOf c) }).upd
          Strand.next) := by
      have hdata' : locate s (streamCtx s s.cur) (s.me.getS a) (wideBytes z) (wideBytes z) .readWrite acceptsFar = .ok (pd, s1) := hdata
      have htags : tagsFree s2 (dieOf (coreOf s.cur)) [pd, pf] = true := by simp [tagsFree, hpd, hpf]
      change execStn d a b c z s = _
      unfold execStn
      simp only [hdata', hflag, htags, Bool.not_true, Bool.false_eq_true, if_false]
      rfl
    refine ⟨_, hexec, ?_⟩
    generalize post (post s2.nextSeq.2 s.cur
        (Access.plain (s2.seq + 1) (.store (s.me.getS b)) (s.me.getS a).toNat pd n s.cycle .scalarStore)) s.cur
        { Access.plain (s2.seq + 1) (.flag (scopeOf c)) (s.me.getS d).toNat pf 8 s.cycle .atomic with rel := some (scopeOf c) } = v
      at hc2 ho2 hout hwent ⊢
    have hvcur : v.cur = s.cur := hc2.cur.trans hcur
    have hvme : v.me = v.strand s.cur := by rw [State.me, hvcur]
    have hme2 : s2.me = s2.strand s.cur := by rw [State.me, hcur]
    refine ⟨hc2.trans (onlyMe_upd v _).1.counted, OthersKept.of_same fun j hj => ?_, ?_, ?_⟩
    · rw [(onlyMe_upd v _).2 j (by rwa [hvcur])]
      exact ho2 j hj
    · rw [me_upd, hvme, hme2, hout, List.append_assoc]
      rfl
    · rw [me_upd, hvme, ← hhomes1.pc, ← hhomes2.pc, hme2]
      exact hwent
  · intro s s1 a b m r z c pl hremote n rel acc B
    refine ⟨fun hreach => ⟨?_, ?_, ?_, ?_, ?_, ?_, ?_, ?_, ?_, ?_⟩, fun hreach => ?_⟩
    all_goals exact posts_of_atomic rfl hremote hreach

/-! ### A performed store: slot numbers that name an engine's list -/

/-- A store of one byte to HBM. -/
def oneByteStore : Access := Access.plain 1 (.store 1#64) 0 (.mem 0 false) 1 0 .scalarStore

/-- A state whose argument names the list of join decrements, and whose table of strands has an entry of that number. -/
def joinListState : State :=
  { State.reset with
    arg := { State.reset.arg with slot := 1152, idx := 0 }
    strands := [(1152, { Strand.empty with phase := .running, out := [oneByteStore] })] }

theorem exec_accessPerformed_joinList : exec .accessPerformed joinListState = .next joinListState := rfl

/-- Refutes O11: no hypothesis says that the slot is one of the package's 1,152, and 1,152 as the slot of ACCESS_PERFORMED names the list of
join decrements (`execAccessPerformed`): where the table of strands has an entry of that number, its store is not performed. -/
theorem not_storePerformed : ¬ Obligations.StorePerformed := by
  unfold Obligations.StorePerformed
  intro h
  obtain ⟨t, hexec, -, -, -, -, hout, -⟩ := h joinListState 1152 0 1 0 1#64 false oneByteStore rfl rfl rfl rfl rfl rfl rfl rfl (by decide)
    (by decide) (by decide) (by decide)
  rw [exec_accessPerformed_joinList] at hexec
  cases hexec
  exact absurd hout (by decide)

/-! ### Faults of an address (spec/09_translation_and_faults.md R164) -/

theorem slice_toNat {n : Nat} (x : BitVec n) (lo w : Nat) : (slice x lo w).toNat = x.toNat / 2 ^ lo % 2 ^ w := by
  rw [slice, BitVec.extractLsb'_toNat, Nat.shiftRight_eq_div_pow]

theorem slice_eq_zero_iff {n : Nat} (x : BitVec n) (lo w : Nat) : slice x lo w = 0#w ↔ x.toNat / 2 ^ lo % 2 ^ w = 0 := by
  rw [← slice_toNat, ← BitVec.toNat_inj, BitVec.toNat_ofNat, Nat.zero_mod]

theorem slice_high_ne_zero_iff (va : Word) : slice va 52 12 ≠ 0#12 ↔ 2 ^ 52 ≤ va.toNat := by
  have := va.isLt
  rw [Ne, slice_eq_zero_iff]
  omega

theorem locate_noncanon {s : State} {c : Ctx} {va : Word} {n al : Nat} {need : Need} {acc : Accepts} (h : 2 ^ 52 ≤ va.toNat) :
    locate s c va n al need acc = .error (Failure.at .noncanon va.toNat) := by
  unfold locate
  exact if_pos ((slice_high_ne_zero_iff va).mpr h)

theorem locate_align {s : State} {c : Ctx} {va : Word} {n al : Nat} {need : Need} {acc : Accepts} (h : va.toNat < 2 ^ 52) (hal : va.toNat % al ≠ 0) :
    locate s c va n al need acc = .error (Failure.at .align va.toNat) := by
  unfold locate
  refine (if_neg ?_).trans (if_pos hal)
  rw [slice_high_ne_zero_iff]
  omega

/-- A failure before the walk changes nothing but the strand. -/
theorem raiseFail_at (c : FaultClass) (va : Word) (k : AccessKind) (s : State) :
    raiseFail (Failure.at c va.toNat) k 0 s = raise ⟨c, k, va, 0#32, false, false⟩ s := by
  have hva : BitVec.ofNat 64 (Failure.at c va.toNat).va = va := ofNat_toNat_self va
  rw [raiseFail, failTrap, hva]
  rfl

theorem traps_of_locate {i : Instr} {s : State} {x : ScalarAccess} {c : FaultClass} (hexec : exec i s = scalarAccess x s)
    (hfail : locate s (streamCtx s s.cur) x.va x.n x.n x.need x.acc = .error (Failure.at c x.va.toNat)) (hrun : s.me.phase = .running) :
    Traps i s (ownRecord s c x.akind x.va 0#32 false) := by
  refine traps_of_raise (hexec.trans ?_) hrun
  rw [scalarAccess, hfail]
  exact congrArg _ (raiseFail_at c x.va x.akind s)

/-- Settles O12: the address is looked at before everything else. -/
theorem scalarAddressFaults : Obligations.ScalarAddressFaults := by
  unfold Obligations.ScalarAddressFaults
  intro s d a o z hrun n ea
  have hea : ea = scaledEa s.me a o z := (scaledEa_eq s a o z).symm
  rw [hea]
  have hld := fun {c} hfail => traps_of_locate (c := c) (i := .ld d a o z)
    (x := ⟨scaledEa s.me a o z, n, .read, acceptsOfSize z, .scalarLoad, .load d false, true, none⟩) (hexec := rfl) (hfail := hfail) (hrun := hrun)
  have hlds := fun {c} hfail => traps_of_locate (c := c) (i := .lds d a o z)
    (x := ⟨scaledEa s.me a o z, n, .read, acceptsPlain, .scalarLoad, .load d true, true, none⟩) (hexec := rfl) (hfail := hfail) (hrun := hrun)
  have hst := fun {c} hfail => traps_of_locate (c := c) (i := .st d a o z)
    (x := ⟨scaledEa s.me a o z, n, .write, acceptsOfSize z, .scalarStore, .store (s.me.getS d), false, none⟩) (hexec := rfl) (hfail := hfail) (hrun := hrun)
  exact ⟨fun h => ⟨hld (locate_noncanon h), hlds (locate_noncanon h), hst (locate_noncanon h)⟩,
    fun h hal => ⟨hld (locate_align h hal), hlds (locate_align h hal), hst (locate_align h hal)⟩⟩

/-! ### A blocking access that fails (spec/05_memories.md R97) -/

theorem giveTag_eq (s : State) (k : Option Nat) : ∃ l, giveTag s k = { s with tags := l } := by
  unfold giveTag
  split
  · exact ⟨s.tags, rfl⟩
  · exact ⟨_, rfl⟩

theorem dropTag_eq (s : State) (k : Option Nat) : ∃ l, dropTag s k = { s with tags := l } := by
  unfold dropTag dropTags
  split
  · exact ⟨s.tags, rfl⟩
  · exact ⟨_, rfl⟩

/-- Giving up the accesses of an instruction changes only tags. -/
theorem foldl_tags_eq (f : State → Access → State) (hf : ∀ u b, ∃ l, f u b = { u with tags := l }) (bs : List Access) (s : State) :
    ∃ l, bs.foldl f s = { s with tags := l } := by
  induction bs generalizing s with
  | nil => exact ⟨s.tags, rfl⟩
  | cons b bs ih =>
    obtain ⟨l, hl⟩ := hf s b
    obtain ⟨m, hm⟩ := ih (f s b)
    exact ⟨m, by rw [List.foldl_cons, hm, hl]⟩

theorem keepFault_eq (s : State) (t : Strand) : ∃ l, keepFault s t = { s with lateFaults := l } := by
  unfold keepFault
  split
  · exact ⟨s.lateFaults, rfl⟩
  · split
    · exact ⟨s.lateFaults, rfl⟩
    · exact ⟨_, rfl⟩

/-- The strand has stopped with a fault at its instruction, its registers as they were. -/
def Stopped (u : Strand) (v : Strand) (c : FaultClass) (k : AccessKind) (va : Word) : Prop :=
  v.phase = .parked ∧ v.pc = u.pc ∧ (∀ r, v.getS r = u.getS r) ∧
    ∃ x, v.fault = some x ∧ x.cls = c ∧ x.akind = k ∧ x.va = va ∧ x.pc = u.pc

theorem Stopped.of_eq {u u' v : Strand} {c : FaultClass} {k : AccessKind} {va : Word} (h : Stopped u v c k va) (hpc : u.pc = u'.pc)
    (hregs : ∀ r, u.getS r = u'.getS r) : Stopped u' v c k va := by
  obtain ⟨hphase, hpcv, hregsv, x, hfault, hcls, hkind, hva, hxpc⟩ := h
  exact ⟨hphase, hpcv.trans hpc, fun r => (hregsv r).trans (hregs r), x, hfault, hcls, hkind, hva, hxpc.trans hpc⟩

/-- A strand with a fault pending that a trap stops keeps the old record apart. -/
theorem raiseKept_stops {s : State} {k : Nat} {n : Nat} (x : Trap) (hrun : (s.strand k).phase = .running) :
    let t := raiseAt (keepFault (s.updSlot k (fun t => { t with restart := n })) (s.strand k)) k (s.strand k).pc x
    t.mem = s.mem ∧ t.cur = s.cur ∧ Stopped (s.strand k) (t.strand k) x.cls x.akind x.va := by
  obtain ⟨l, hl⟩ := keepFault_eq (s.updSlot k (fun t => { t with restart := n })) (s.strand k)
  have hv : State.strand { (s.updSlot k (fun t => { t with restart := n })) with lateFaults := l } k = { s.strand k with restart := n } := by
    change (s.updSlot k (fun t => { t with restart := n })).strand k = _
    rw [strand_updSlot, if_pos rfl]
  rw [hl, raiseAt]
  refine ⟨rfl, rfl, ?_⟩
  rw [strand_updSlot, if_pos rfl, hv]
  refine ⟨?_, rfl, fun r => rfl, _, rfl, rfl, rfl, rfl, rfl⟩
  dsimp only
  rw [hrun]
  rfl

/-- The accesses of a failed instruction given up: their tags go back. -/
def givenUp (u : State) (k : Nat) (a : Access) : State :=
  ((u.strand k).out.filter (fun b => b.seq == a.seq)).foldl (fun u b => if b = a || !b.sent then giveTag u b.tag else dropTag u b.tag) u

theorem givenUp_eq (u : State) (k : Nat) (a : Access) : ∃ l, givenUp u k a = { u with tags := l } :=
  foldl_tags_eq _ (fun u b => by split; exacts [giveTag_eq u b.tag, dropTag_eq u b.tag]) _ u

/-- The strand without the accesses of a failed instruction. -/
def Strand.without (t : Strand) (a : Access) : Strand :=
  { t with
    out := t.out.filter (fun b => b.seq != a.seq)
    wakesFar := if (match a.op with
      | .wake _ _ => true
      | _ => false) then [] else t.wakesFar }

theorem failBlocking_eq {u : State} {k : Nat} {a : Access} (c : FaultClass) (hff : a.ff = false) :
    let s := (givenUp u k a).updSlot k (fun t => t.without a)
    failBlocking u k a c = raiseAt (keepFault (s.updSlot k (fun t => { t with restart := a.elem })) (s.strand k)) k (s.strand k).pc
      ⟨c, a.akind, BitVec.ofNat 64 a.va, BitVec.ofNat 32 a.elem, false, false⟩ := by
  intro s
  unfold failBlocking
  exact if_neg (by rw [hff]; exact Bool.false_ne_true)

theorem failBlocking_stops {u : State} {k : Nat} {a : Access} (c : FaultClass) (hff : a.ff = false) (hrun : (u.strand k).phase = .running) :
    (failBlocking u k a c).mem = u.mem ∧ (failBlocking u k a c).cur = u.cur ∧
      Stopped (u.strand k) ((failBlocking u k a c).strand k) c a.akind (BitVec.ofNat 64 a.va) := by
  obtain ⟨l, hl⟩ := givenUp_eq u k a
  have hstrand : ((givenUp u k a).updSlot k (fun t => t.without a)).strand k = (u.strand k).without a := by
    rw [strand_updSlot, if_pos rfl, hl]
    rfl
  have h := raiseKept_stops (s := (givenUp u k a).updSlot k (fun t => t.without a)) (k := k) (n := a.elem)
    ⟨c, a.akind, BitVec.ofNat 64 a.va, BitVec.ofNat 32 a.elem, false, false⟩ (by rw [hstrand]; exact hrun)
  rw [failBlocking_eq c hff]
  obtain ⟨hmem, hcur, hstopped⟩ := h
  exact ⟨hmem.trans (by rw [hl]; rfl), hcur.trans (by rw [hl]; rfl), hstopped.of_eq (by rw [hstrand]; rfl) (fun r => by rw [hstrand]; rfl)⟩

/-! ### CALLT (spec/14_scalar_instructions.md R182, R252) -/

theorem entryAddress_eq (base : BitVec 52) (i : Word) : zext64 base + 16#64 * i = BitVec.ofNat 64 (base.toNat + 16 * i.toNat) := by
  rw [BitVec.ofNat_add, BitVec.ofNat_mul, ofNat_toNat_self, zext64_eq_ofNat]

theorem exec_callt (a : BitVec 5) (sg : BitVec 16) (s : State) : exec (.callt a sg) s =
    if s.me.ftlen.toNat ≤ (s.me.getS a).toNat then .next (raise (Trap.plain .ftIndex) s)
    else scalarAccess ⟨BitVec.ofNat 64 (s.me.ftbase.toNat + 16 * (s.me.getS a).toNat), 16, .read, acceptsPlain, .scalarLoad, .entry sg, true, none⟩ s := by
  rw [← entryAddress_eq]
  rfl

/-- The entry as it is read, when it is there. -/
theorem performAt_entry {u : State} {k q va since pa : Nat} {comp : Bool} {sg : BitVec 16} {kind : AccessKind} {i : Nat} :
    let e : BitVec 128 := bytesBv 128 (memBytes u.mem pa 16)
    let a := waitedFor q (.entry sg) va (.mem pa comp) 16 since kind
    performAt u k i a (.value 0#512) =
      if e.getLsbD 80 = false ∨ slice e 52 12 ≠ 0#12 ∨ slice e 81 47 ≠ 0#47 ∨ slice e 0 2 ≠ 0#2 then
        failBlocking u k { a with akind := .none, va := 0 } .ftIndex
      else if slice e 64 16 ≠ sg then failBlocking u k { a with akind := .none, va := 0 } .signature
      else u.updSlot k (fun t => (({ t with out := dropNth t.out i }).setS 31#5 (t.pc + 4#64)).goto (zext64 (slice e 0 52))) := rfl

/-- A good entry: its fields. -/
theorem entry_fields {e : BitVec 128} {target : Nat} (hlow : e.toNat % 2 ^ 64 = target) (htarget : target < 2 ^ 52) (hal : target % 4 = 0)
    (hhigh : e.toNat / 2 ^ 80 = 1) :
    ¬ (e.getLsbD 80 = false ∨ slice e 52 12 ≠ 0#12 ∨ slice e 81 47 ≠ 0#47 ∨ slice e 0 2 ≠ 0#2) ∧ zext64 (slice e 0 52) = BitVec.ofNat 64 target ∧
      (slice e 64 16).toNat = e.toNat / 2 ^ 64 % 2 ^ 16 := by
  refine ⟨?_, ?_, slice_toNat ..⟩
  · rw [not_or, not_or, not_or, not_not, not_not, not_not, slice_eq_zero_iff, slice_eq_zero_iff, slice_eq_zero_iff, BitVec.getLsbD,
      Nat.testBit_eq_decide_div_mod_eq, hhigh]
    refine ⟨by decide, ?_, ?_, ?_⟩ <;> omega
  · rw [zext64_eq_ofNat, slice_toNat]
    congr 1
    omega

/-- The entry is read at once. -/
theorem exec_callt_of_reaches {s s1 : State} {a : BitVec 5} {sg : BitVec 16} {pa : Nat} {comp : Bool}
    (hlt : (s.me.getS a).toNat < s.me.ftlen.toNat)
    (hreach : Reaches s (BitVec.ofNat 64 (s.me.ftbase.toNat + 16 * (s.me.getS a).toNat)) 16 .read acceptsPlain (.mem pa comp) s1)
    (hmay : MayPerform s1 (.mem pa comp) 16 true) :
    ∃ u q va since, UnderWay s1 u s1.cur (waitedFor q (.entry sg) va (.mem pa comp) 16 since .scalarLoad) ∧
      exec (.callt a sg) s = .next (performAt u s1.cur s1.me.out.length (waitedFor q (.entry sg) va (.mem pa comp) 16 since .scalarLoad)
        (.value 0#512)) := by
  obtain ⟨u, hway, hperf⟩ := blockingAccess_of_mayPerform (s0 := s) (x := ⟨BitVec.ofNat 64 (s.me.ftbase.toNat + 16 * (s.me.getS a).toNat), 16,
    .read, acceptsPlain, .scalarLoad, .entry sg, true, none⟩) (.inr ⟨pa, comp, rfl⟩) hmay rfl
  dsimp only at hway hperf
  refine ⟨u, _, _, _, hway, ?_⟩
  rw [exec_callt, if_neg (Nat.not_le.mpr hlt), ← hperf]
  exact scalarAccess_of_reaches (x := ⟨BitVec.ofNat 64 (s.me.ftbase.toNat + 16 * (s.me.getS a).toNat), 16, .read, acceptsPlain, .scalarLoad,
    .entry sg, true, none⟩) hreach

/-- An instruction whose own access fails stops with a fault that has no address. -/
theorem stops_of_failBlocking {i : Instr} {s s1 u : State} {a b : Access} {c : FaultClass} (hhomes : OnlyHomes s s1) (hrun : s.me.phase = .running)
    (hway : UnderWay s1 u s1.cur b) (hexec : exec i s = .next (failBlocking u s1.cur a c)) (hff : a.ff = false) (hkind : a.akind = .none)
    (hva : a.va = 0) :
    ∃ t x, exec i s = .next t ∧ t.mem = s1.mem ∧ t.me.phase = .parked ∧ t.me.fault = some x ∧ x.cls = c ∧ x.akind = .none ∧
      x.va = 0#64 ∧ x.pc = s.me.pc ∧ t.me.pc = s.me.pc ∧ ∀ n, t.me.getS n = s.me.getS n := by
  obtain ⟨ls, hme⟩ := hhomes.me
  have hstrand : u.strand s1.cur = { { s1.me with out := s1.me.out ++ [b] } with perfCnt := (u.strand s1.cur).perfCnt } := hway.2.2.eq
  obtain ⟨hmem, hcur, hstopped⟩ := failBlocking_stops (u := u) (k := s1.cur) c hff (by rw [hstrand, hme]; exact hrun)
  obtain ⟨hphase, hpc, hregs, x, hfault, hcls, hak, hx, hxpc⟩ := hstopped.of_eq (u' := s.me) (by rw [hstrand, hme])
    (fun r => by rw [hstrand, hme]; rfl)
  have hme' : (failBlocking u s1.cur a c).me = (failBlocking u s1.cur a c).strand s1.cur := by rw [State.me, hcur, hway.1.cur]
  refine ⟨_, x, hexec, hmem.trans hway.1.mem, ?_⟩
  rw [hme']
  exact ⟨hphase, hfault, hcls, hak.trans hkind, hx.trans (by rw [hva]), hxpc, hpc, hregs⟩

/-- Settles O14: the index is compared with FTLEN, and the entry is looked at when it is there. -/
theorem typedCalls : Obligations.TypedCalls := by
  unfold Obligations.TypedCalls
  intro s s1 a sg pa comp target i
  refine ⟨fun hrun hle => traps_of_raise ((exec_callt a sg s).trans (if_pos hle)) hrun, fun hlt hreach hmay ht hal hbytes => ?_,
    fun hlt hrun hreach hmay => ?_⟩
  · obtain ⟨u, q, va, since, hway, hexec⟩ := exec_callt_of_reaches (sg := sg) hlt hreach hmay
    have hhomes := onlyHomes_locate hreach
    have hsg := sg.isLt
    have he : (bytesBv 128 (memBytes s1.mem pa 16)).toNat = target.toNat + 2 ^ 64 * sg.toNat + 2 ^ 80 := by
      rw [bytesBv, hbytes, BitVec.toNat_ofNat]
      omega
    obtain ⟨hgood, hentry, hfield⟩ := entry_fields (e := bytesBv 128 (memBytes s1.mem pa 16)) (target := target.toNat) (by omega) ht hal (by omega)
    have hsame : slice (bytesBv 128 (memBytes s1.mem pa 16)) 64 16 = sg := BitVec.eq_of_toNat_eq (by omega)
    rw [performAt_entry, hway.1.mem, if_neg hgood, if_neg (not_not.mpr hsame), hentry, ofNat_toNat_self] at hexec
    have hcur : u.cur = s1.cur := hway.1.cur
    refine ⟨_, hexec, hway.1.trans (packageKept_updSlot u _ _).counted, ?_, ?_⟩
    · rw [← hhomes.cur]
      exact (OthersKept.of_same hway.2.1).trans (othersKept_updSlot u _ _)
    · have hme : ∀ f : Strand → Strand, (u.updSlot s1.cur f).me = f (u.strand s1.cur) := fun f => by
        rw [State.me, State.updSlot_cur, hcur, strand_updSlot, if_pos rfl]
      rw [hme, hway.2.2.eq, ← hhomes.pc]
      dsimp only
      rw [show s1.me.out = (s1.strand s1.cur).out from rfl, dropNth_length_append]
      exact wroteS_goto s1.me 31#5 (s1.me.pc + 4#64) target
  · obtain ⟨u, q, va, since, hway, hexec⟩ := exec_callt_of_reaches (sg := sg) hlt hreach hmay
    have hhomes := onlyHomes_locate hreach
    rw [performAt_entry, hway.1.mem] at hexec
    intro e stops
    refine ⟨fun hbad => ?_, fun ht hal hsig hlow hhigh => ?_⟩
    · rw [if_pos (hbad.imp_right fun h => h.imp_right Or.inl)] at hexec
      exact stops_of_failBlocking hhomes hrun hway hexec rfl rfl rfl
    · obtain ⟨hgood, -, -⟩ := entry_fields hlow ht hal hhigh
      rw [if_neg hgood, if_pos hsig] at hexec
      exact stops_of_failBlocking hhomes hrun hway hexec rfl rfl rfl

end Sys2Proof.Machine
end

section
/-! PROOFS. When vector forms run, and the floating forms, conversions and sign operations (spec/15_vector_instructions.md R258, R265 to R269, R280;
spec/04_number_formats.md R67, R68, R74): the gate of a form, how lanes draw, and how blocks are quantised. -/

set_option Elab.async false

namespace Sys2Proof.Machine

open Sys2Proof

/-! ### The gate of a form of SEW-wide operands (spec/15_vector_instructions.md R258, R280) -/

/-- The operands of a form that reads and writes groups and a governing mask, and no register by number. -/
def groupForm (srcs dsts : List VOp) (kr : List Nat) : VForm := ⟨srcs, dsts, [], [], kr, []⟩

theorem vGate_ungrouped {t : Strand} {f : VForm} (h : (f.srcs ++ f.dsts).any (fun o => !t.grouped o) = true) :
    vGate t f = .trap (Trap.plain .regGroup) := by
  unfold vGate
  exact if_pos h

theorem not_any_of_all_grouped {t : Strand} {l : List VOp} (h : l.all t.grouped = true) : ¬ l.any (fun o => !t.grouped o) = true := by
  simpa [List.all_eq_true] using h

theorem vGate_busy {t : Strand} {f : VForm} (hgrouped : (f.srcs ++ f.dsts).all t.grouped = true)
    (hbusy : f.srcs.any (fun o => (t.groupRegs o).any t.vBusy) = true ∨ f.dsts.any (fun o => (t.groupRegs o).any t.vLoading) = true) :
    vGate t f = .wait := by
  unfold vGate
  refine (if_neg (not_any_of_all_grouped hgrouped)).trans (if_pos ?_)
  rcases hbusy with h | h
  · rw [h, Bool.true_or, Bool.true_or, Bool.true_or, Bool.true_or]
  · rw [h, Bool.or_true, Bool.true_or, Bool.true_or]

theorem vLoading_of_out {t : Strand} (h : t.out = []) (n : Nat) : t.vLoading n = false := by rw [Strand.vLoading, h]; rfl
theorem kBusy_of_out {t : Strand} (h : t.out = []) (n : Nat) : t.kBusy n = false := by rw [Strand.kBusy, h]; simp
theorem vBusy_of_idle {t : Strand} (hout : t.out = []) (hmq : t.mq = []) (n : Nat) : t.vBusy n = false := by
  rw [Strand.vBusy, vLoading_of_out hout, hmq]; rfl

/-- Nothing holds the form: past its busy checks only VL and the marks are left. -/
theorem vGate_unheld {t : Strand} {srcs dsts : List VOp} {kr : List Nat} (hgrouped : (srcs ++ dsts).all t.grouped = true) (hout : t.out = [])
    (hsrcs : ∀ o ∈ srcs, (t.groupRegs o).any t.vBusy = false) :
    vGate t (groupForm srcs dsts kr) = if t.vl = 0#12 then .empty
      else match ((t.markOf (srcs.flatMap t.liveRegs ++ []) .poison).orElse (fun _ => t.maskTrap kr)).orElse
          (fun _ => t.markOf (srcs.flatMap t.liveRegs ++ []) .memLost) with
        | some x => .trap x
        | none => .go := by
  have hread : srcs.any (fun o => (t.groupRegs o).any t.vBusy) = false := List.any_eq_false.mpr fun o ho => by
    rw [hsrcs o ho]; exact Bool.false_ne_true
  have hwrite : dsts.any (fun o => (t.groupRegs o).any t.vLoading) = false := by
    simp [List.any_eq_false, vLoading_of_out hout]
  have hmask : (kr ++ []).any t.kBusy = false := by simp [List.any_eq_false, kBusy_of_out hout]
  unfold vGate groupForm
  refine (if_neg (not_any_of_all_grouped hgrouped)).trans ((if_neg ?_).trans rfl)
  simp only [hread, hwrite, hmask, List.any_nil, Bool.or_false]
  exact Bool.false_ne_true

theorem vGate_vl_zero {t : Strand} {srcs dsts : List VOp} {kr : List Nat} (hgrouped : (srcs ++ dsts).all t.grouped = true) (hout : t.out = [])
    (hmq : t.mq = []) (hvl : t.vl = 0#12) : vGate t (groupForm srcs dsts kr) = .empty := by
  rw [vGate_unheld hgrouped hout fun o _ => by simp [List.any_eq_false, vBusy_of_idle hout hmq], if_pos hvl]

/-- A form that reads no vector register is not held by a matrix command, and meets no mark. -/
theorem vGate_no_source {t : Strand} {dsts : List VOp} {kr : List Nat} (hgrouped : dsts.all t.grouped = true) (hout : t.out = [])
    (hbad : t.badK = []) : vGate t (groupForm [] dsts kr) = .empty ∨ vGate t (groupForm [] dsts kr) = .go := by
  rw [vGate_unheld (srcs := []) hgrouped hout fun o ho => absurd ho List.not_mem_nil]
  by_cases hvl : t.vl = 0#12
  · exact .inl (if_pos hvl)
  · right
    rw [if_neg hvl]
    have hmark : ∀ c, t.markOf [] c = none := fun c => by simp [Strand.markOf]
    simp [hmark, Strand.maskTrap, hbad]

/-! ### Forms behind the gate -/

theorem traps_of_vectorForm {i : Instr} {s : State} {f : VForm} {run : Strand → Strand} (hexec : exec i s = vectorForm f run s)
    (h : (f.srcs ++ f.dsts).any (fun o => !s.me.grouped o) = true) (hrun : s.me.phase = .running) :
    Traps i s (ownRecord s .regGroup .none 0#64 0#32 false) := by
  refine traps_of_raise (hexec.trans ?_) hrun
  rw [vectorForm, vGate_ungrouped h]
  rfl

theorem waits_of_vectorForm {i : Instr} {s : State} {f : VForm} {run : Strand → Strand} (hexec : exec i s = vectorForm f run s)
    (h : vGate s.me f = .wait) : exec i s = .next s := by
  rw [hexec, vectorForm, h]

/-- What the gate does with a form of these operands. -/
def Gated (i : Instr) (s : State) (f : VForm) : Prop :=
  ((f.srcs ++ f.dsts).any (fun o => !s.me.grouped o) = true → s.me.phase = .running →
    Traps i s (ownRecord s .regGroup .none 0#64 0#32 false)) ∧
  ((f.srcs ++ f.dsts).all s.me.grouped = true → f.srcs.any (fun o => (s.me.groupRegs o).any s.me.vBusy) = true ∨
      f.dsts.any (fun o => (s.me.groupRegs o).any s.me.vLoading) = true →
    exec i s = .next s) ∧
  ((f.srcs ++ f.dsts).all s.me.grouped = true → s.me.out = [] → s.me.mq = [] → s.me.vl = 0#12 → YieldsPc i s (s.me.pc + 4#64))

theorem gated_of_vectorForm {i : Instr} {s : State} {srcs dsts : List VOp} {kr : List Nat} {run : Strand → Strand}
    (hexec : exec i s = vectorForm (groupForm srcs dsts kr) run s) : Gated i s (groupForm srcs dsts kr) :=
  ⟨traps_of_vectorForm hexec, fun hgrouped hbusy => waits_of_vectorForm hexec (vGate_busy hgrouped hbusy),
    fun hgrouped hout hmq hvl => yieldsPc_of_vectorForm hexec (vGate_vl_zero hgrouped hout hmq hvl)⟩

/-- A form without vector sources goes on. -/
theorem goesOn_of_vectorForm {i : Instr} {s : State} {dsts : List VOp} {kr : List Nat} {run : Strand → Strand}
    (hexec : exec i s = vectorForm (groupForm [] dsts kr) run s) (hpc : (run s.me).pc = s.me.pc) (hgrouped : dsts.all s.me.grouped = true)
    (hout : s.me.out = []) (hbad : s.me.badK = []) : ∃ t, exec i s = .next t ∧ OnlyMe s t ∧ t.me.pc = s.me.pc + 4#64 := by
  rcases vGate_no_source (kr := kr) hgrouped hout hbad with h | h
  · obtain ⟨t, ht, honly, hwent⟩ := yieldsPc_of_vectorForm hexec h
    exact ⟨t, ht, honly, hwent.1⟩
  · obtain ⟨t, ht, honly, hme⟩ := vectorForm_go run h
    exact ⟨t, hexec.trans ht, honly, by rw [hme, Strand.next_pc, hpc]⟩

theorem putOp_pc (t : Strand) (o : VOp) (i x : Nat) : (t.putOp o i x).pc = t.pc := rfl

theorem putOps_pc (t : Strand) (o : VOp) (l : List (Nat × Nat)) : (t.putOps o l).pc = t.pc := by
  have := congrArg Strand.pc (putOps_frame (t := t) (o := o) l)
  exact this

section

variable (s : State) (d a b : BitVec 5) (x y : BitVec 1) (k : BitVec 3)

theorem exec_vmv : exec (.vmv d a x k) s = permForm [a] (fun t => (t.lanes k).map (fun i => (i, t.elem (t.sewOp a) i))) d k s := rfl
theorem exec_vsplat : exec (.vsplat d a k) s = permForm [] (fun t => (t.lanes k).map (fun i => (i, (t.getS a).toNat % 2 ^ t.sewBits))) d k s := rfl
theorem exec_vperm : exec (.vperm d a b x y k) s = permForm [a, b] (fun t => (t.lanes k).map (fun i =>
    (i, if t.elem (t.sewOp b) i < t.vl.toNat then t.elem (t.sewOp a) (t.elem (t.sewOp b) i) else 0))) d k s := rfl
theorem exec_vslideup : exec (.vslideup d a b x k) s = permForm [a] (fun t =>
    ((t.lanes k).filter (fun i => decide ((t.getS b).toNat ≤ i))).map (fun i => (i, t.elem (t.sewOp a) (i - (t.getS b).toNat)))) d k s := rfl
theorem exec_vslidedn : exec (.vslidedn d a b x k) s = permForm [a] (fun t => (t.lanes k).map (fun i =>
    (i, if i + (t.getS b).toNat < t.vl.toNat then t.elem (t.sewOp a) (i + (t.getS b).toNat) else 0))) d k s := rfl
theorem exec_vcompress : exec (.vcompress d a x k) s = permForm [a] (fun t =>
    (List.range t.vl.toNat).map (fun j => (j, nth 0 ((t.lanes k).map (fun i => t.elem (t.sewOp a) i)) j))) d k s := rfl
theorem exec_vexpand : exec (.vexpand d a x k) s = permForm [a] (fun t =>
    ((t.lanes k).zip (List.range (t.lanes k).length)).map (fun p => (p.1, t.elem (t.sewOp a) p.2))) d k s := rfl
theorem exec_viota : exec (.viota d k) s = permForm [] (fun t =>
    ((t.lanes k).zip (List.range (t.lanes k).length)).map (fun p => (p.1, p.2 % 2 ^ t.sewBits))) d k s := rfl
theorem exec_vsel : exec (.vsel d a b x y k) s = permForm [a, b] (fun t =>
    (List.range t.vl.toNat).map (fun i => (i, t.elem (t.sewOp (if (t.getK k.toNat).getLsbD i then a else b)) i))) d k s := rfl
theorem exec_vext : exec (.vext d a b x) s = vectorForm ⟨[s.me.sewOp a], [], [], [], [], []⟩ (fun t =>
    t.setS d (if (t.getS b).toNat < t.vl.toNat then BitVec.ofNat 64 (t.elem (t.sewOp a) (t.getS b).toNat) else 0#64)) s := rfl
theorem exec_vins : exec (.vins d a b) s = vectorForm ⟨[], [s.me.sewOp d], [], [], [], []⟩ (fun t =>
    if (t.getS b).toNat < t.vl.toNat then t.putOp (t.sewOp d) (t.getS b).toNat ((t.getS a).toNat % 2 ^ t.sewBits) else t) s := rfl

end

/-- The integer forms of two vectors. -/
theorem gated_of_vintForm {i : Instr} {s : State} {d a b : BitVec 5} {k : BitVec 3} {g : Nat → Nat → Nat → Nat}
    (hexec : exec i s = vintForm g d a b k s) : Gated i s (sewForm s.me [a, b] d k) := gated_of_vectorForm hexec

/-- The permutes and moves. -/
theorem gated_of_permForm {i : Instr} {s : State} {srcs : List (BitVec 5)} {d : BitVec 5} {k : BitVec 3} {g : Strand → List (Nat × Nat)}
    (hexec : exec i s = permForm srcs g d k s) : Gated i s (sewForm s.me srcs d k) := gated_of_vectorForm hexec

theorem gated_of_vadds {s : State} {d a b : BitVec 5} {x y : BitVec 1} {k : BitVec 3} :
    Gated (.vadds d a b x y k) s (sewForm s.me [a, b] d k) :=
  gated_of_vectorForm (srcs := [s.me.sewOp a, s.me.sewOp b]) (dsts := [s.me.sewOp d]) (kr := [k.toNat]) (run := runVadds d a b k)
    (exec_vadds s d a b x y k)

/-- A form that reads no vector register is not held. -/
def Unheld (i : Instr) (s : State) (f : VForm) : Prop :=
  f.srcs = [] → f.dsts.all s.me.grouped = true → s.me.out = [] → s.me.badK = [] →
    ∃ t, exec i s = .next t ∧ OnlyMe s t ∧ t.me.pc = s.me.pc + 4#64

theorem unheld_of_permForm {i : Instr} {s : State} {d : BitVec 5} {k : BitVec 3} {g : Strand → List (Nat × Nat)}
    (hexec : exec i s = permForm [] g d k s) : Unheld i s (sewForm s.me [] d k) :=
  fun _ hgrouped hout hbad => goesOn_of_vectorForm hexec (putOps_pc ..) hgrouped hout hbad

theorem unheld_of_source {i : Instr} {s : State} {a : BitVec 5} {srcs : List (BitVec 5)} {d : BitVec 5} {k : BitVec 3} :
    Unheld i s (sewForm s.me (a :: srcs) d k) := fun h => absurd h (List.cons_ne_nil _ _)

/-- Settles O17: the gate looks at the groups, then at what is still to be written, then at VL. -/
theorem vectorGates : Obligations.VectorGates := by
  unfold Obligations.VectorGates
  intro s d a b x y k f2 f1
  constructor
  · intro p
    change _ → Gated (p d a b x y k) s f2
    revert p
    simp only [List.forall_mem_cons]
    exact ⟨gated_of_vintForm (exec_vadd s d a b x y k), gated_of_vintForm (exec_vsub s d a b x y k), gated_of_vintForm (exec_vmul s d a b x y k),
      gated_of_vintForm (exec_vmulh s d a b x y k), gated_of_vintForm (exec_vand s d a b x y k), gated_of_vintForm (exec_vor s d a b x y k), gated_of_vintForm (exec_vxor s d a b x y k),
      gated_of_vintForm (exec_vandn s d a b x y k), gated_of_vintForm (exec_vsll s d a b x y k), gated_of_vintForm (exec_vsrl s d a b x y k), gated_of_vintForm (exec_vsra s d a b x y k),
      gated_of_vintForm (exec_vmin s d a b x y k), gated_of_vintForm (exec_vmax s d a b x y k), gated_of_vintForm (exec_vminu s d a b x y k), gated_of_vintForm (exec_vmaxu s d a b x y k),
      gated_of_vadds, gated_of_permForm (exec_vperm s d a b x y k), gated_of_permForm (exec_vsel s d a b x y k), List.forall_mem_nil _⟩
  · suffices h : ∀ p ∈ ([(.vmv d a x k, f1), (.vcompress d a x k, f1), (.vexpand d a x k, f1), (.vslideup d a b x k, f1), (.vslidedn d a b x k, f1),
        (.viota d k, sewForm s.me [] d k), (.vsplat d a k, sewForm s.me [] d k), (.vins d a b, ⟨[], [s.me.sewOp d], [], [], [], []⟩)] :
        List (Instr × VForm)), Gated p.1 s p.2 ∧ Unheld p.1 s p.2 from
      fun p hp => ⟨(h p hp).1.1, (h p hp).1.2.1, (h p hp).2, (h p hp).1.2.2⟩
    simp only [List.forall_mem_cons]
    refine ⟨⟨gated_of_permForm (exec_vmv s d a x k), unheld_of_source⟩, ⟨gated_of_permForm (exec_vcompress s d a x k), unheld_of_source⟩,
      ⟨gated_of_permForm (exec_vexpand s d a x k), unheld_of_source⟩, ⟨gated_of_permForm (exec_vslideup s d a b x k), unheld_of_source⟩,
      ⟨gated_of_permForm (exec_vslidedn s d a b x k), unheld_of_source⟩, ⟨gated_of_permForm (exec_viota s d k), unheld_of_permForm (exec_viota s d k)⟩,
      ⟨gated_of_permForm (exec_vsplat s d a k), unheld_of_permForm (exec_vsplat s d a k)⟩,
      ⟨gated_of_vectorForm (exec_vins s d a b), fun _ hgrouped hout hbad => goesOn_of_vectorForm (exec_vins s d a b) ?_ hgrouped hout hbad⟩,
      List.forall_mem_nil _⟩
    split
    · exact putOp_pc ..
    · rfl

/-! ### Writing the active elements of a floating form (spec/15_vector_instructions.md R265, spec/04_number_formats.md R67, R68) -/

/-- The draw of a lane of a bank, 0 where the mode does not draw. -/
def bankDraw (b : Bank) (r : Round) (j : Nat) : Nat := if r.rm = 5#3 then (drawLane b 1 j).1 else 0

theorem laneDraw_eq (u : Strand) (r : Round) : laneDraw u r = bankDraw u.vbank r := rfl

theorem foldl_or_start (l : List Flags) (c : Flags) : l.foldl (fun a b => a ||| b) c = c ||| flagsOr l := by
  induction l generalizing c with
  | nil => simp [flagsOr]
  | cons x l ih =>
    rw [flagsOr, List.foldl_cons, List.foldl_cons, ih, ih, BitVec.zero_or, BitVec.or_assoc]

theorem flagsOr_cons (x : Flags) (l : List Flags) : flagsOr (x :: l) = x ||| flagsOr l := by
  rw [flagsOr, List.foldl_cons, foldl_or_start, BitVec.zero_or]

/-- What the lanes of a bank hold once those that meet p have drawn. -/
def Drawn (b c : Bank) (r : Round) (p : Nat → Prop) : Prop :=
  c.seed = b.seed ∧ (∀ j, r.rm = 5#3 → p j → tabGet 0#64 c.lanes j = tabGet 0#64 (drawLane b 1 j).2.lanes j) ∧
    ∀ j, ¬ (r.rm = 5#3 ∧ p j) → tabGet 0#64 c.lanes j = tabGet 0#64 b.lanes j

/-- A bank after one lane has drawn, where the mode draws. -/
def bankAfter (b : Bank) (r : Round) (i : Nat) : Bank := if r.rm = 5#3 then (drawLane b 1 i).2 else b

theorem drawLane_lanes (b : Bank) (i j : Nat) : tabGet 0#64 (drawLane b 1 i).2.lanes j =
    if j = i then tabGet 0#64 (drawLane b 1 i).2.lanes i else tabGet 0#64 b.lanes j := by
  simp only [drawLane, tabGet_tabSet, if_true]

/-- What a lane draws depends on the seed and on its own state. -/
theorem drawLane_congr {b c : Bank} {i : Nat} (hseed : b.seed = c.seed) (hlane : tabGet 0#64 b.lanes i = tabGet 0#64 c.lanes i) :
    (drawLane b 1 i).1 = (drawLane c 1 i).1 ∧ tabGet 0#64 (drawLane b 1 i).2.lanes i = tabGet 0#64 (drawLane c 1 i).2.lanes i := by
  simp only [drawLane, tabGet_tabSet, if_true, hseed, hlane, and_self]

theorem drawn_none (b : Bank) (r : Round) : Drawn b b r (fun j => j ∈ ([] : List Nat)) :=
  ⟨rfl, fun _ _ h => absurd h List.not_mem_nil, fun _ _ => rfl⟩

theorem drawn_bankAfter (b : Bank) (r : Round) (i : Nat) : Drawn b (bankAfter b r i) r (fun j => j = i) := by
  unfold bankAfter
  by_cases hr : r.rm = 5#3
  · rw [if_pos hr]
    refine ⟨rfl, fun j _ hj => by rw [hj], fun j hj => ?_⟩
    rw [drawLane_lanes, if_neg fun h => hj ⟨hr, h⟩]
  · rw [if_neg hr]
    exact ⟨rfl, fun _ h => absurd h hr, fun _ _ => rfl⟩

section

variable {b c e : Bank} {r : Round} {p q : Nat → Prop}

theorem Drawn.bankDraw (h : Drawn b c r p) {j : Nat} (hj : ¬ p j) : bankDraw c r j = bankDraw b r j := by
  obtain ⟨hseed, _, hkept⟩ := h
  unfold Machine.bankDraw
  rw [(drawLane_congr hseed (hkept j fun h => hj h.2)).1]

/-- Lanes that have not drawn yet draw. -/
theorem Drawn.trans (h : Drawn b c r p) (h' : Drawn c e r q) (hapart : ∀ j, p j → ¬ q j) : Drawn b e r (fun j => p j ∨ q j) := by
  obtain ⟨hseed, hdrawn, hkept⟩ := h
  obtain ⟨hseed', hdrawn', hkept'⟩ := h'
  refine ⟨hseed'.trans hseed, fun j hr hj => ?_, fun j hj => ?_⟩
  · by_cases hp : p j
    · rw [hkept' j fun h => hapart j hp h.2, hdrawn j hr hp]
    · rw [hdrawn' j hr (hj.resolve_left hp), (drawLane_congr hseed (hkept j fun h => hp h.2)).2]
  · rw [hkept' j fun h => hj ⟨h.1, .inr h.2⟩, hkept j fun h => hj ⟨h.1, .inl h.2⟩]

theorem Drawn.of_iff (h : Drawn b c r p) (hpq : ∀ j, p j ↔ q j) : Drawn b c r q := by
  rwa [show q = p from funext fun j => propext (hpq j).symm]

end

theorem gatherOne_eq (r : Round) (enc : Nat → Nat → Nat × Flags) (g : Gathered) (i : Nat) : gatherOne r enc g i =
    ⟨g.out ++ [(i, (enc i (bankDraw g.bank r i)).1)], g.fl ||| (enc i (bankDraw g.bank r i)).2, bankAfter g.bank r i⟩ := by
  unfold gatherOne bankDraw bankAfter
  by_cases h : r.rm = 5#3
  · simp only [if_pos h]
  · simp only [if_neg h]

/-- Gathering draws once from each lane of the list, and takes the element and the flags that the form gives under that draw. -/
theorem foldl_gatherOne (r : Round) (enc : Nat → Nat → Nat × Flags) (l : List Nat) (hnodup : l.Nodup) (g : Gathered) :
    (l.foldl (gatherOne r enc) g).out = g.out ++ l.map (fun j => (j, (enc j (bankDraw g.bank r j)).1)) ∧
      (l.foldl (gatherOne r enc) g).fl = g.fl ||| flagsOr (l.map (fun j => (enc j (bankDraw g.bank r j)).2)) ∧
      Drawn g.bank (l.foldl (gatherOne r enc) g).bank r (fun j => j ∈ l) := by
  induction l generalizing g with
  | nil => exact ⟨by simp, by simp [flagsOr], drawn_none ..⟩
  | cons i l ih =>
    obtain ⟨hi, hl⟩ := List.nodup_cons.mp hnodup
    obtain ⟨hout, hfl, hdrawn⟩ := ih hl (gatherOne r enc g i)
    rw [List.foldl_cons]
    rw [gatherOne_eq] at hout hfl hdrawn ⊢
    have hfirst := drawn_bankAfter g.bank r i
    generalize bankAfter g.bank r i = b at hout hfl hdrawn hfirst ⊢
    have hne : ∀ j ∈ l, j ≠ i := fun j hj h => hi (h ▸ hj)
    have hmap : ∀ {α : Type} (f : Nat → Nat → α), l.map (fun j => f j (bankDraw b r j)) = l.map (fun j => f j (bankDraw g.bank r j)) :=
      fun f => List.map_congr_left fun j hj => by rw [hfirst.bankDraw (hne j hj)]
    refine ⟨?_, ?_, (hfirst.trans hdrawn fun j hj h => hne j h hj).of_iff fun j => List.mem_cons.symm⟩
    · rw [hout, hmap fun j x => (j, (enc j x).1), List.map_cons, List.append_assoc]
      rfl
    · rw [hfl, hmap fun j x => (enc j x).2, List.map_cons, flagsOr_cons, BitVec.or_assoc]

theorem lanes_nodup (t : Strand) (k : BitVec 3) : (t.lanes k).Nodup := List.nodup_range.filter _

/-- Nothing but vector registers, marks, flags and the vector bank differs. -/
theorem floatWrite_frame (t : Strand) (r : Round) (o : VOp) (l : List Nat) (enc : Nat → Nat → Nat × Flags) :
    ({ t.floatWrite r o l enc with v := t.v, marks := t.marks, vstat := t.vstat, vbank := t.vbank } : Strand) = t := by
  have h := putOps_frame (t := t) (o := o) ((l.foldl (gatherOne r enc) ⟨[], 0#5, t.vbank⟩).out)
  have hv := congrArg (fun u : Strand => ({ u with vstat := t.vstat, vbank := t.vbank } : Strand)) h
  exact hv

theorem floatWrite_v (t : Strand) (r : Round) (o : VOp) (l : List Nat) (enc : Nat → Nat → Nat × Flags) :
    (t.floatWrite r o l enc).v = (t.putOps o (l.foldl (gatherOne r enc) ⟨[], 0#5, t.vbank⟩).out).v := rfl
theorem floatWrite_marks (t : Strand) (r : Round) (o : VOp) (l : List Nat) (enc : Nat → Nat → Nat × Flags) :
    (t.floatWrite r o l enc).marks = (t.putOps o (l.foldl (gatherOne r enc) ⟨[], 0#5, t.vbank⟩).out).marks := rfl

/-- Writing lanes concerns vector registers and marks alone. -/
theorem LaneWrite.of_same {u v t : Strand} {o : VOp} {f : Nat → Option Nat} (h : LaneWrite u v o f) (hv : t.v = v.v) (hmarks : t.marks = v.marks) :
    LaneWrite u t o f := by
  obtain ⟨helem, hreg, hmark⟩ := h
  have hget : ∀ n, t.getV n = v.getV n := fun n => by rw [Strand.getV, Strand.getV, hv]
  refine ⟨fun j => ?_, fun n hn => (hget n).trans (hreg n hn), fun m => hmarks ▸ hmark m⟩
  rw [← helem j, Strand.elem, Strand.elem, hget]

/-- A floating form that writes the active elements of one operand. -/
theorem writesFloats_of_floatWrite {i : Instr} {s : State} {f : VForm} {run : Strand → Strand} {o : VOp} {k : BitVec 3} {r : Round}
    {enc : Nat → Nat → Nat × Flags} (hexec : exec i s = vectorForm f run s) (hgo : vGate s.me f = .go) (hw : o.w ∣ 16384)
    (hrun : run s.me = s.me.floatWrite r o (s.me.lanes k) enc) : WritesFloats i s o k r enc := by
  obtain ⟨t, hnext, honly, hme⟩ := vectorForm_go run hgo
  obtain ⟨hout, hfl, hseed, hdrawn, hkept⟩ := foldl_gatherOne r enc (s.me.lanes k) (lanes_nodup ..) ⟨[], 0#5, s.me.vbank⟩
  have hframe := floatWrite_frame s.me r o (s.me.lanes k) enc
  have hout' : _ = (s.me.lanes k).map fun j => (j, (enc j (laneDraw s.me r j)).1) := hout.trans (List.nil_append _)
  have hlanes := laneWrite_putOps (fun j => (enc j (laneDraw s.me r j)).1) (s.me.lanes k) s.me hw
    (new := fun j => if isActive s.me k j then some ((enc j (laneDraw s.me r j)).1 % 2 ^ o.w) else none) fun j => by simp only [mem_lanes]
  rw [← hout'] at hlanes
  rw [hrun] at hme
  refine ⟨t, hexec.trans hnext, honly, ?_, ?_, ?_, fun j => ?_, ?_⟩ <;> rw [hme]
  · exact hlanes.of_same (floatWrite_v ..) (floatWrite_marks ..)
  · rw [BitVec.zero_or] at hfl
    exact (congrArg (_ ||| ·) hfl).trans (congrArg (· ||| _) (putOps_vstat ..))
  · exact hseed
  · by_cases h : r.rm = 5#3 ∧ isActive s.me k j = true
    · rw [if_pos h]
      exact hdrawn j h.1 ((mem_lanes ..).mpr h.2)
    · rw [if_neg h]
      exact hkept j fun hj => h ⟨hj.1, (mem_lanes ..).mp hj.2⟩
  · exact wentOn_of_frame hframe rfl

theorem writesFloats_of_floatForm {i : Instr} {s : State} {word : Word} {ops : List FOp} {more : VForm} {run : Strand → Strand} {o : VOp}
    {k : BitVec 3} {r : Round} {enc enc' : Nat → Nat → Nat × Flags} (hready : FloatReady s.me word ops more)
    (hexec : exec i s = floatForm word ops more run s) (hw : o.w ∣ 16384) (hrun : run s.me = s.me.floatWrite r o (s.me.lanes k) enc)
    (henc : enc = enc') : WritesFloats i s o k r enc' :=
  henc ▸ writesFloats_of_floatWrite (hexec.trans (floatForm_of_ready run hready)) hready.2.2.2.2 hw hrun

/-! ### The floating forms (spec/15_vector_instructions.md R265, R266) -/

section

variable (s : State) (d a b : BitVec 5) (x y : BitVec 1) (k fs : BitVec 3)

theorem exec_vfadd : exec (.vfadd d a b x y k fs) s = vfltForm (fun r x y => addV r.rdn x y) d a b k fs s := rfl
theorem exec_vfsub : exec (.vfsub d a b x y k fs) s = vfltForm (fun r x y => addV r.rdn x y.negate) d a b k fs s := rfl
theorem exec_vfmul : exec (.vfmul d a b x y k fs) s = vfltForm (fun _ x y => mulV x y) d a b k fs s := rfl
theorem exec_vfmin : exec (.vfmin d a b x y k fs) s = vfltForm (fun _ x y => minV x y) d a b k fs s := rfl
theorem exec_vfmax : exec (.vfmax d a b x y k fs) s = vfltForm (fun _ x y => maxV x y) d a b k fs s := rfl
theorem exec_vfdiv : exec (.vfdiv d a b x y k fs) s = vfltForm (fun _ x y => divV x y) d a b k fs s := rfl
theorem exec_vfsqrt : exec (.vfsqrt d a x k fs) s = execVfsqrt d a x k fs s := rfl
theorem exec_vfscale : exec (.vfscale d a b x y k fs) s = execVfscale d a b x y k fs s := rfl
theorem exec_vfma : exec (.vfma d a b x y k fs) s = vfmaForm false false d a b k fs s := rfl
theorem exec_vfms : exec (.vfms d a b x y k fs) s = vfmaForm false true d a b k fs s := rfl
theorem exec_vfnma : exec (.vfnma d a b x y k fs) s = vfmaForm true false d a b k fs s := rfl
theorem exec_vfnms : exec (.vfnms d a b x y k fs) s = vfmaForm true true d a b k fs s := rfl

end

theorem fmtWidth_wideFmt_dvd : ∀ c : BitVec 8, isWideCode c = true → fmtWidth (wideFmt c) ∣ 16384 := by decide +kernel

/-- The rounded result of each lane, with the flags of the operation and of the rounding. -/
abbrev roundedTo (f : Fmt) (r : Round) (v : Nat → FVal × Flags) (j g : Nat) : Nat × Flags :=
  ((encodeResult f r g (v j).1).1, (encodeResult f r g (v j).1).2 ||| (v j).2)

theorem encodeVal_eq_roundedTo (f : Fmt) (r : Round) (v : Nat → FVal × Flags) : (fun j g => encodeVal f r g (v j)) = roundedTo f r v := rfl

/-- A source of a floating form. -/
def sourceOp (r : BitVec 5) (c : BitVec 8) : FOp := ⟨r, c, isSourceCode c, true, false⟩

/-- The destination's code is one that the form accepts. -/
theorem FloatReady.wide {u : Strand} {w : Word} {ops : List FOp} {more : VForm} {d : BitVec 5} {c : BitVec 8} {rd wr : Bool}
    (h : FloatReady u w ops more) (hd : (⟨d, c, isWideCode c, rd, wr⟩ : FOp) ∈ ops) : fmtWidth (wideFmt c) ∣ 16384 :=
  fmtWidth_wideFmt_dvd c (h.2.1 _ hd)

/-- A form of two floating sources. -/
theorem writesFloats_of_vfltForm {i : Instr} {s : State} {f : Round → FVal → FVal → FVal × Flags} {d a b : BitVec 5} {k fs : BitVec 3} {w : Word}
    (hword : s.me.formatWord fs = w) (hexec : exec i s = vfltForm f d a b k fs s)
    (hready : FloatReady s.me w [sourceOp a (fwFA w), sourceOp b (fwFB w), ⟨d, fwFD w, isWideCode (fwFD w), false, true⟩]
      (maskOnly k (scaleReads (fwFA w) (fwZA w) ++ scaleReads (fwFB w) (fwZB w)))) :
    WritesFloats i s ⟨d.toNat, fmtWidth (wideFmt (fwFD w))⟩ k (roundOf w) (roundedTo (wideFmt (fwFD w)) (roundOf w) fun j =>
      (f (roundOf w) (s.me.fval a (fwFA w) (fwZA w) (roundOf w).ftz j) (s.me.fval b (fwFB w) (fwZB w) (roundOf w).ftz j))) := by
  subst hword
  exact writesFloats_of_floatForm hready hexec
    (hready.wide (d := d) (List.mem_cons_of_mem _ (List.mem_cons_of_mem _ List.mem_cons_self))) rfl (encodeVal_eq_roundedTo ..)

/-- VFSQRT. -/
theorem writesFloats_vfsqrt {s : State} {d a : BitVec 5} {x : BitVec 1} {k fs : BitVec 3} {w : Word} (hword : s.me.formatWord fs = w)
    (hready : FloatReady s.me w [sourceOp a (fwFA w), ⟨d, fwFD w, isWideCode (fwFD w), false, true⟩]
      (maskOnly k (scaleReads (fwFA w) (fwZA w)))) :
    WritesFloats (.vfsqrt d a x k fs) s ⟨d.toNat, fmtWidth (wideFmt (fwFD w))⟩ k (roundOf w) (roundedTo (wideFmt (fwFD w)) (roundOf w) fun j =>
      (sqrtV (s.me.fval a (fwFA w) (fwZA w) (roundOf w).ftz j))) := by
  subst hword
  exact writesFloats_of_floatForm hready (exec_vfsqrt s d a x k fs)
    (hready.wide (d := d) (List.mem_cons_of_mem _ List.mem_cons_self)) rfl (encodeVal_eq_roundedTo ..)

/-- VFSCALE. -/
theorem writesFloats_vfscale {s : State} {d a b : BitVec 5} {x y : BitVec 1} {k fs : BitVec 3} {w : Word} (hword : s.me.formatWord fs = w)
    (hready : FloatReady s.me w [sourceOp a (fwFA w), ⟨b, fwFB w, decide (0x10 ≤ (fwFB w).toNat) && decide ((fwFB w).toNat ≤ 0x12), true, false⟩,
      ⟨d, fwFD w, isWideCode (fwFD w), false, true⟩] (maskOnly k (scaleReads (fwFA w) (fwZA w)))) :
    WritesFloats (.vfscale d a b x y k fs) s ⟨d.toNat, fmtWidth (wideFmt (fwFD w))⟩ k (roundOf w) (roundedTo (wideFmt (fwFD w)) (roundOf w) fun j =>
      (scaleV (s.me.fval a (fwFA w) (fwZA w) (roundOf w).ftz j) ((s.me.ival b (fwFB w) j).getD 0),
        if (s.me.fval a (fwFA w) (fwZA w) (roundOf w).ftz j).isSig then 1#5 else 0#5)) := by
  subst hword
  exact writesFloats_of_floatForm hready (exec_vfscale s d a b x y k fs)
    (hready.wide (d := d) (List.mem_cons_of_mem _ (List.mem_cons_of_mem _ List.mem_cons_self))) rfl (encodeVal_eq_roundedTo ..)

/-- A fused form: the product's flags and the sum's join. -/
theorem writesFloats_of_vfmaForm {i : Instr} {s : State} {np nd : Bool} {d a b : BitVec 5} {k fs : BitVec 3} {w : Word}
    (hword : s.me.formatWord fs = w) (hexec : exec i s = vfmaForm np nd d a b k fs s)
    (hready : FloatReady s.me w [sourceOp a (fwFA w), sourceOp b (fwFB w), ⟨d, fwFD w, isWideCode (fwFD w), true, true⟩]
      (maskOnly k (scaleReads (fwFA w) (fwZA w) ++ scaleReads (fwFB w) (fwZB w)))) :
    WritesFloats i s ⟨d.toNat, fmtWidth (wideFmt (fwFD w))⟩ k (roundOf w) (roundedTo (wideFmt (fwFD w)) (roundOf w) fun j =>
      (fmaV (roundOf w).rdn
        (if np then (s.me.fval a (fwFA w) (fwZA w) (roundOf w).ftz j).negate else s.me.fval a (fwFA w) (fwZA w) (roundOf w).ftz j)
        (s.me.fval b (fwFB w) (fwZB w) (roundOf w).ftz j)
        (if nd then (s.me.fval d (fwFD w) 0 (roundOf w).ftz j).negate else s.me.fval d (fwFD w) 0 (roundOf w).ftz j))) := by
  subst hword
  exact writesFloats_of_floatForm hready hexec
    (hready.wide (d := d) (List.mem_cons_of_mem _ (List.mem_cons_of_mem _ List.mem_cons_self))) rfl (encodeVal_eq_roundedTo ..)

/-- Settles O19: each form gathers its encodings and flags lane by lane, with one draw of each active lane under stochastic rounding. -/
theorem vectorFloatForms : Obligations.VectorFloatForms := by
  unfold Obligations.VectorFloatForms
  constructor
  · intro s d a b x y k fs w r A B D fa fb fi fd put
    dsimp only [Round.rdn, A, B, put, D, r]
    refine ⟨fun hready => ⟨?_, ?_, ?_, ?_, ?_, ?_⟩, fun hready => writesFloats_vfsqrt rfl hready, fun hready => writesFloats_vfscale rfl hready⟩
    · have h := writesFloats_of_vfltForm rfl (exec_vfadd s d a b x y k fs) hready
      exact h
    · have h := writesFloats_of_vfltForm rfl (exec_vfsub s d a b x y k fs) hready
      exact h
    · have h := writesFloats_of_vfltForm rfl (exec_vfmul s d a b x y k fs) hready
      exact h
    · have h := writesFloats_of_vfltForm rfl (exec_vfmin s d a b x y k fs) hready
      exact h
    · have h := writesFloats_of_vfltForm rfl (exec_vfmax s d a b x y k fs) hready
      exact h
    · have h := writesFloats_of_vfltForm rfl (exec_vfdiv s d a b x y k fs) hready
      exact h
  · intro s d a b x y k fs w r A B C D put hready
    dsimp only [A, B, C, put, D, r]
    refine ⟨?_, ?_, ?_, ?_⟩
    · have h := writesFloats_of_vfmaForm rfl (exec_vfma s d a b x y k fs) hready
      exact h
    · have h := writesFloats_of_vfmaForm rfl (exec_vfms s d a b x y k fs) hready
      exact h
    · have h := writesFloats_of_vfmaForm rfl (exec_vfnma s d a b x y k fs) hready
      exact h
    · have h := writesFloats_of_vfmaForm rfl (exec_vfnms s d a b x y k fs) hready
      exact h

/-! ### Elements written as a list of pairs (spec/02_strand_registers.md R27) -/

section

variable {o : VOp} {l : List (Nat × Nat)}

theorem getV_putOps_apart {n : Nat} (t : Strand) (hn : ∀ p ∈ l, n ≠ o.reg + p.1 * o.w / 16384) : (t.putOps o l).getV n = t.getV n := by
  induction l generalizing t with
  | nil => rfl
  | cons p l ih =>
    rw [List.forall_mem_cons] at hn
    rw [putOps_cons, ih _ hn.2, getV_putOp, if_neg hn.1]

theorem elem_putOps_of_notMem (hw : o.w ∣ 16384) (t : Strand) {j : Nat} (hj : ∀ p ∈ l, j ≠ p.1) : (t.putOps o l).elem o j = t.elem o j := by
  induction l generalizing t with
  | nil => rfl
  | cons p l ih =>
    rw [List.forall_mem_cons] at hj
    rw [putOps_cons, ih _ hj.2, elem_putOp hw, if_neg hj.1]

theorem elem_putOps_of_mem (hw : o.w ∣ 16384) (t : Strand) (hnodup : (l.map Prod.fst).Nodup) {i e : Nat} (hmem : (i, e) ∈ l) :
    (t.putOps o l).elem o i = e % 2 ^ o.w := by
  induction l generalizing t with
  | nil => exact absurd hmem List.not_mem_nil
  | cons p l ih =>
    obtain ⟨hp, hl⟩ := List.nodup_cons.mp hnodup
    rw [putOps_cons]
    rcases List.mem_cons.mp hmem with h | h
    · subst h
      rw [elem_putOps_of_notMem hw _ fun q hq (heq : i = q.1) => hp (List.mem_map.mpr ⟨q, hq, heq.symm⟩), elem_putOp hw, if_pos rfl]
    · exact ih _ hl h

end

/-- Elements of registers that a write leaves are as before. -/
theorem elem_of_getV {t u : Strand} {o : VOp} {i : Nat} (h : t.getV (o.reg + i * o.w / 16384) = u.getV (o.reg + i * o.w / 16384)) :
    t.elem o i = u.elem o i := by rw [Strand.elem, Strand.elem, h]

/-! ### Quantising the blocks of a form (spec/15_vector_instructions.md R267, spec/04_number_formats.md R74) -/

theorem quantBlock_nil (f : Nat) (rm : BitVec 3) (m : FVal) : quantBlock f rm m [] = ([], 0, 0#5) := rfl

theorem quantBlock_length (f : Nat) (rm : BitVec 3) (m : FVal) (xs : List (FVal × Nat)) : (quantBlock f rm m xs).1.length = xs.length := by
  unfold quantBlock
  dsimp only
  split <;> simp

/-- One active element with its lane's draw. -/
def drawStep (r : Round) (val : Nat → FVal) (acc : List (FVal × Nat) × Bank) (i : Nat) : List (FVal × Nat) × Bank :=
  let (x, bk) := if r.rm = 5#3 then drawLane acc.2 1 i else (0, acc.2)
  (acc.1 ++ [(val i, x)], bk)

theorem drawStep_eq (r : Round) (val : Nat → FVal) (acc : List (FVal × Nat) × Bank) (i : Nat) :
    drawStep r val acc i = (acc.1 ++ [(val i, bankDraw acc.2 r i)], bankAfter acc.2 r i) := by
  unfold drawStep bankDraw bankAfter
  by_cases h : r.rm = 5#3
  · simp only [if_pos h]
  · simp only [if_neg h]

theorem foldl_drawStep (r : Round) (val : Nat → FVal) (l : List Nat) (hnodup : l.Nodup) (acc : List (FVal × Nat) × Bank) :
    ∃ c, l.foldl (drawStep r val) acc = (acc.1 ++ l.map (fun i => (val i, bankDraw acc.2 r i)), c) ∧ Drawn acc.2 c r (fun j => j ∈ l) := by
  induction l generalizing acc with
  | nil => exact ⟨acc.2, by simp, drawn_none ..⟩
  | cons i l ih =>
    obtain ⟨hi, hl⟩ := List.nodup_cons.mp hnodup
    have hne : ∀ j ∈ l, j ≠ i := fun j hj h => hi (h ▸ hj)
    have hfirst := drawn_bankAfter acc.2 r i
    rw [List.foldl_cons, drawStep_eq]
    obtain ⟨c, heq, hdrawn⟩ := ih hl (acc.1 ++ [(val i, bankDraw acc.2 r i)], bankAfter acc.2 r i)
    refine ⟨c, ?_, (hfirst.trans hdrawn fun j hj h => hne j h hj).of_iff fun j => List.mem_cons.symm⟩
    rw [heq, List.map_cons, List.append_assoc]
    refine congrArg (fun z => (acc.1 ++ ([_] ++ z), c)) (List.map_congr_left fun j hj => ?_)
    rw [hfirst.bankDraw (hne j hj)]

/-- A block of lanes, quantised under the draws of a bank. -/
def quantOf (f : Nat) (r : Round) (m : FVal) (val : Nat → FVal) (b : Bank) (l : List Nat) : List Nat × Nat × Flags :=
  quantBlock f r.rm m (l.map (fun i => (val i, bankDraw b r i)))

theorem quantLanes_eq (f : Nat) (r : Round) (m : FVal) (val : Nat → FVal) (g : Gathered × List (Nat × Nat)) (b : Nat) {l : List Nat}
    (hnodup : l.Nodup) : ∃ c, quantLanes f r m val g b l = (⟨g.1.out ++ l.zip (quantOf f r m val g.1.bank l).1,
        g.1.fl ||| (quantOf f r m val g.1.bank l).2.2, c⟩,
        g.2 ++ if l = [] then [] else [(b, (quantOf f r m val g.1.bank l).2.1)]) ∧ Drawn g.1.bank c r (fun j => j ∈ l) := by
  unfold quantLanes
  by_cases h : l = []
  · subst h
    exact ⟨g.1.bank, by simp [quantOf, quantBlock_nil], drawn_none ..⟩
  · obtain ⟨c, heq, hdrawn⟩ := foldl_drawStep r val l hnodup ([], g.1.bank)
    refine ⟨c, ?_, hdrawn⟩
    rw [if_neg (by simpa using h), if_neg h]
    change (let (xs, bk) := l.foldl (drawStep r val) ([], g.1.bank)
      let (es, scale, fl) := quantBlock f r.rm m xs
      ((⟨g.1.out ++ l.zip es, g.1.fl ||| fl, bk⟩, g.2 ++ [(b, scale)]) : Gathered × List (Nat × Nat))) = _
    rw [heq]
    rfl

/-- The listed lanes of block b. -/
def blockOf (lanes : List Nat) (b : Nat) : List Nat := lanes.filter (fun i => i / 32 == b)

theorem mem_blockOf {lanes : List Nat} {b i : Nat} : i ∈ blockOf lanes b ↔ i ∈ lanes ∧ i / 32 = b := by
  simp [blockOf]

/-- What quantising the blocks of lanes of the listed numbers gives: elements, flags and scale words. -/
theorem foldl_quantLanes (f : Nat) (r : Round) (m : FVal) (val : Nat → FVal) {lanes : List Nat} (hlanes : lanes.Nodup) (bs : List Nat)
    (hnodup : bs.Nodup) (out : List (Nat × Nat)) (fl : Flags) (bank : Bank) (scales : List (Nat × Nat)) :
    ∃ c, bs.foldl (fun acc b => quantLanes f r m val acc b (blockOf lanes b)) (⟨out, fl, bank⟩, scales) =
      (⟨out ++ bs.flatMap (fun b => (blockOf lanes b).zip (quantOf f r m val bank (blockOf lanes b)).1),
          fl ||| flagsOr (bs.map fun b => (quantOf f r m val bank (blockOf lanes b)).2.2), c⟩,
        scales ++ bs.flatMap (fun b => if blockOf lanes b = [] then [] else [(b, (quantOf f r m val bank (blockOf lanes b)).2.1)])) := by
  induction bs generalizing out fl bank scales with
  | nil => exact ⟨bank, by simp [flagsOr]⟩
  | cons b bs ih =>
    obtain ⟨hb, hbs⟩ := List.nodup_cons.mp hnodup
    obtain ⟨c, heq, hdrawn⟩ := quantLanes_eq f r m val (⟨out, fl, bank⟩, scales) b (l := blockOf lanes b) (hlanes.filter _)
    have hquant : ∀ a ∈ bs, quantOf f r m val c (blockOf lanes a) = quantOf f r m val bank (blockOf lanes a) := fun a ha => by
      refine congrArg (quantBlock f r.rm m) (List.map_congr_left fun j hj => ?_)
      rw [hdrawn.bankDraw fun hjb => hb ((mem_blockOf.mp hjb).2 ▸ (mem_blockOf.mp hj).2 ▸ ha)]
    have hflat : ∀ F : Nat → List Nat × Nat × Flags → List (Nat × Nat), bs.flatMap (fun a => F a (quantOf f r m val c (blockOf lanes a))) =
        bs.flatMap (fun a => F a (quantOf f r m val bank (blockOf lanes a))) :=
      fun F => List.flatMap_congr fun a ha => by rw [hquant a ha]
    obtain ⟨e, hrest⟩ := ih hbs (out ++ (blockOf lanes b).zip (quantOf f r m val bank (blockOf lanes b)).1)
      (fl ||| (quantOf f r m val bank (blockOf lanes b)).2.2) c
      (scales ++ if blockOf lanes b = [] then [] else [(b, (quantOf f r m val bank (blockOf lanes b)).2.1)])
    refine ⟨e, ?_⟩
    rw [List.foldl_cons, heq, hrest, List.flatMap_cons, List.flatMap_cons, List.map_cons, flagsOr_cons, List.append_assoc, List.append_assoc,
      BitVec.or_assoc, hflat fun a q => (blockOf lanes a).zip q.1, hflat fun a q => if blockOf lanes a = [] then [] else [(a, q.2.1)],
      List.map_congr_left fun a ha => by rw [hquant a ha]]

/-! ### VFCVT (spec/15_vector_instructions.md R267) -/

/-- The strand after a conversion of its active elements to a block format. -/
def quantisedAll (w : Word) (d a : BitVec 5) (k : BitVec 3) (f : Nat) (t : Strand) : Strand :=
  let q := (List.range 64).foldl (fun acc b => quantLanes f (roundOf w) (sourceMax (fwFA w)) (t.fval a (fwFA w) (fwZA w) (roundOf w).ftz) acc b
    (blockOf (t.lanes k) b)) (⟨[], 0#5, t.vbank⟩, [])
  { ((t.putOps ⟨d.toNat, fmtWidth (.bfp f)⟩ q.1.out).putOps ⟨fwZD w, 32⟩ q.2).setFlags q.1.fl with vbank := q.1.bank }

/-- The strand after a conversion, by the destination's format. -/
def runVfcvt (w : Word) (d a : BitVec 5) (k : BitVec 3) (t : Strand) : Strand :=
  match fmtOf (fwFD w) with
  | some (.bfp f) => quantisedAll w d a k f t
  | some f => t.floatWrite (roundOf w) ⟨d.toNat, fmtWidth f⟩ (t.lanes k) (fun i g =>
      encodeFmt f (roundOf w) g (t.fval a (fwFA w) (fwZA w) (roundOf w).ftz i) (t.ival a (fwFA w) i))
  | none => t

/-- The format word's operands of a conversion. -/
def vfcvtOps (w : Word) (d a : BitVec 5) : List FOp :=
  [⟨a, fwFA w, isVectorCode (fwFA w), true, false⟩, ⟨d, fwFD w, isVectorCode (fwFD w), false, true⟩]

/-- The other operands of a conversion. -/
def vfcvtMore (w : Word) (k : BitVec 3) : VForm := ⟨[], [], scaleReads (fwFA w) (fwZA w), scaleReads (fwFD w) (fwZD w), [k.toNat], []⟩

theorem exec_vfcvt (s : State) (d a : BitVec 5) (x : BitVec 1) (k fs : BitVec 3) : exec (.vfcvt d a x k fs) s =
    floatForm (s.me.formatWord fs) (vfcvtOps (s.me.formatWord fs) d a) (vfcvtMore (s.me.formatWord fs) k)
      (runVfcvt (s.me.formatWord fs) d a k) s := by
  change execVfcvt d a x k fs s = _
  unfold execVfcvt
  refine congrArg (fun run => floatForm _ _ _ run s) (funext fun t => ?_)
  unfold runVfcvt quantisedAll
  dsimp only
  cases hf : fmtOf (fwFD (s.me.formatWord fs)) with
  | none => rfl
  | some f =>
    cases f with
    | bfp f =>
      dsimp only
      rw [List.foldl_map]
      rfl
    | _ => rfl

/-- The number of magnitude bits of a block format's code. -/
def bfpBits (c : BitVec 8) : Nat := if c = 0x20#8 then 6 else if c = 0x21#8 then 4 else 2

theorem bfpCode_spec : ∀ c : BitVec 8, isBfpCode c = true → fmtOf c = some (.bfp (bfpBits c)) ∧
    codeWidth c = some (fmtWidth (.bfp (bfpBits c))) ∧ fmtWidth (.bfp (bfpBits c)) ∣ 16384 := by decide +kernel

/-- Is a format a block format? -/
def Fmt.isBfp : Fmt → Bool
  | .bfp _ => true
  | _ => false

theorem vectorCode_width : ∀ c : BitVec 8, isVectorCode c = true → ∀ f ∈ fmtOf c, fmtWidth f ∣ 16384 := by decide +kernel

theorem not_bfp_of_code : ∀ c : BitVec 8, isBfpCode c = false → ∀ f ∈ fmtOf c, f.isBfp = false := by decide +kernel

theorem runVfcvt_bfp {w : Word} {d a : BitVec 5} {k : BitVec 3} {t : Strand} {f : Nat} (h : fmtOf (fwFD w) = some (.bfp f)) :
    runVfcvt w d a k t = quantisedAll w d a k f t := by rw [runVfcvt, h]

theorem runVfcvt_other {w : Word} {d a : BitVec 5} {k : BitVec 3} {t : Strand} {f : Fmt} (h : fmtOf (fwFD w) = some f) (hf : f.isBfp = false) :
    runVfcvt w d a k t = t.floatWrite (roundOf w) ⟨d.toNat, fmtWidth f⟩ (t.lanes k) (fun i g =>
      encodeFmt f (roundOf w) g (t.fval a (fwFA w) (fwZA w) (roundOf w).ftz i) (t.ival a (fwFA w) i)) := by
  rw [runVfcvt, h]
  cases f with
  | bfp f => exact absurd hf Bool.noConfusion
  | _ => rfl

section

variable {w : Word} {d a : BitVec 5} {k : BitVec 3} {f : Nat} {t : Strand}

/-- Block b of the active lanes, quantised as a conversion does. -/
def quantised (w : Word) (a : BitVec 5) (k : BitVec 3) (f : Nat) (t : Strand) (b : Nat) : List Nat × Nat × Flags :=
  quantOf f (roundOf w) (sourceMax (fwFA w)) (t.fval a (fwFA w) (fwZA w) (roundOf w).ftz) t.vbank (blockOf (t.lanes k) b)

/-- The elements that a conversion to a block format writes. -/
def quantisedElems (w : Word) (a : BitVec 5) (k : BitVec 3) (f : Nat) (t : Strand) : List (Nat × Nat) :=
  (List.range 64).flatMap (fun b => (blockOf (t.lanes k) b).zip (quantised w a k f t b).1)

/-- The scale words that it writes. -/
def quantisedScales (w : Word) (a : BitVec 5) (k : BitVec 3) (f : Nat) (t : Strand) : List (Nat × Nat) :=
  (List.range 64).flatMap (fun b => if blockOf (t.lanes k) b = [] then [] else [(b, (quantised w a k f t b).2.1)])

theorem quantisedAll_eq : ∃ c, quantisedAll w d a k f t =
    { ((t.putOps ⟨d.toNat, fmtWidth (.bfp f)⟩ (quantisedElems w a k f t)).putOps ⟨fwZD w, 32⟩ (quantisedScales w a k f t)).setFlags
        (flagsOr ((List.range 64).map fun b => (quantised w a k f t b).2.2)) with vbank := c } := by
  obtain ⟨c, h⟩ := foldl_quantLanes f (roundOf w) (sourceMax (fwFA w)) (t.fval a (fwFA w) (fwZA w) (roundOf w).ftz) (lanes_nodup t k)
    (List.range 64) List.nodup_range [] 0#5 t.vbank []
  refine ⟨c, ?_⟩
  rw [List.nil_append, List.nil_append, BitVec.zero_or] at h
  unfold quantisedAll quantisedElems quantisedScales quantised
  generalize List.range 64 = bs at h ⊢
  rw [h]

theorem mem_quantisedElems_lane {p : Nat × Nat} (h : p ∈ quantisedElems w a k f t) : p.1 ∈ t.lanes k := by
  obtain ⟨b, _, hb⟩ := List.mem_flatMap.mp h
  exact (mem_blockOf.mp (List.of_mem_zip hb).1).1

theorem quantised_length (b : Nat) : (quantised w a k f t b).1.length = (blockOf (t.lanes k) b).length := by
  rw [quantised, quantOf, quantBlock_length, List.length_map]

/-- No lane is written twice: the blocks are apart. -/
theorem quantisedElems_nodup : ((quantisedElems w a k f t).map Prod.fst).Nodup := by
  rw [quantisedElems, List.map_flatMap]
  refine List.nodup_flatMap.mpr ⟨fun b _ => ?_, ?_⟩
  · rw [List.map_fst_zip (quantised_length b).ge]
    exact (lanes_nodup t k).filter _
  · refine List.nodup_range.imp fun {b b'} hne => ?_
    rw [Function.onFun, List.map_fst_zip (quantised_length b).ge, List.map_fst_zip (quantised_length b').ge]
    exact List.disjoint_left.mpr fun j hj hj' => hne ((mem_blockOf.mp hj).2.symm.trans (mem_blockOf.mp hj').2)

theorem mem_quantisedScales {p : Nat × Nat} : p ∈ quantisedScales w a k f t ↔
    p.1 < 64 ∧ blockOf (t.lanes k) p.1 ≠ [] ∧ p.2 = (quantised w a k f t p.1).2.1 := by
  obtain ⟨i, e⟩ := p
  simp only [quantisedScales, List.mem_flatMap, List.mem_range]
  constructor
  · rintro ⟨b, hb, h⟩
    split at h
    · exact absurd h List.not_mem_nil
    next hne =>
      obtain ⟨rfl, rfl⟩ := Prod.mk.inj (List.mem_singleton.mp h)
      exact ⟨hb, hne, rfl⟩
  · rintro ⟨hi, hne, rfl⟩
    exact ⟨i, hi, by rw [if_neg hne]; exact List.mem_singleton_self _⟩

theorem quantisedScales_nodup : ((quantisedScales w a k f t).map Prod.fst).Nodup := by
  rw [quantisedScales, List.map_flatMap]
  refine List.nodup_flatMap.mpr ⟨fun b _ => ?_, List.nodup_range.imp fun {b b'} hne => ?_⟩
  · split <;> simp
  · rw [Function.onFun]
    split <;> split <;> simp [hne.symm]

/-- A scale word lies in register ZD. -/
theorem scale_reg {b z : Nat} (hb : b < 64) : z + b * 32 / 16384 = z := by omega

/-- Each active element below 2,048 is written with what its block gives it. -/
theorem mem_quantisedElems {i : Nat} (hi : i < 2048) (hact : i ∈ t.lanes k) :
    ∃ e, (i, e) ∈ (blockOf (t.lanes k) (i / 32)).zip (quantised w a k f t (i / 32)).1 ∧ (i, e) ∈ quantisedElems w a k f t := by
  have hmem : i ∈ ((blockOf (t.lanes k) (i / 32)).zip (quantised w a k f t (i / 32)).1).map Prod.fst := by
    rw [List.map_fst_zip (quantised_length _).ge]
    exact mem_blockOf.mpr ⟨hact, rfl⟩
  obtain ⟨⟨j, e⟩, hje, rfl⟩ := List.mem_map.mp hmem
  exact ⟨e, hje, List.mem_flatMap.mpr ⟨j / 32, List.mem_range.mpr (by omega), hje⟩⟩

end

section

variable {s : State} {d a : BitVec 5} {x : BitVec 1} {k fs : BitVec 3} {w : Word}

/-- A conversion to a format that is no block format. -/
theorem writesFloats_vfcvt (hword : s.me.formatWord fs = w) (hready : FloatReady s.me w (vfcvtOps w d a) (vfcvtMore w k)) {f : Fmt}
    (hf : fmtOf (fwFD w) = some f) (hbfp : isBfpCode (fwFD w) = false) :
    WritesFloats (.vfcvt d a x k fs) s ⟨d.toNat, fmtWidth f⟩ k (roundOf w)
      (fun j g => encodeFmt f (roundOf w) g (s.me.fval a (fwFA w) (fwZA w) (roundOf w).ftz j) (s.me.ival a (fwFA w) j)) := by
  subst hword
  refine writesFloats_of_floatForm hready (exec_vfcvt s d a x k fs) ?_ (runVfcvt_other hf (not_bfp_of_code _ hbfp f hf)) rfl
  exact vectorCode_width _ (hready.2.1 ⟨d, fwFD _, isVectorCode _, false, true⟩ (List.mem_cons_of_mem _ List.mem_cons_self)) f hf

theorem next_setFlags_frame (t : Strand) (l m : List (Nat × Nat)) (o o' : VOp) (fl : Flags) (c : Bank) :
    ({ ({ ((t.putOps o l).putOps o' m).setFlags fl with vbank := c } : Strand) with
      v := t.v, marks := t.marks, vstat := t.vstat, vbank := t.vbank } : Strand) = t := by
  have h := congrArg (fun u : Strand => ({ u with v := t.v, marks := t.marks } : Strand)) (putOps_frame (t := t.putOps o l) (o := o') m)
  have h' := h.trans (putOps_frame (t := t) (o := o) l)
  exact congrArg (fun u : Strand => ({ u with vstat := t.vstat, vbank := t.vbank } : Strand)) h'

/-- A conversion to a block format: the registers that it may write, its flags, and nothing else. -/
theorem vfcvt_bfp_next (hword : s.me.formatWord fs = w) (hready : FloatReady s.me w (vfcvtOps w d a) (vfcvtMore w k))
    (hbfp : isBfpCode (fwFD w) = true) : ∃ t c, exec (.vfcvt d a x k fs) s = .next t ∧ OnlyMe s t ∧
      t.me = ({ ((s.me.putOps ⟨d.toNat, fmtWidth (.bfp (bfpBits (fwFD w)))⟩ (quantisedElems w a k (bfpBits (fwFD w)) s.me)).putOps
        ⟨fwZD w, 32⟩ (quantisedScales w a k (bfpBits (fwFD w)) s.me)).setFlags
          (flagsOr ((List.range 64).map fun b => (quantised w a k (bfpBits (fwFD w)) s.me b).2.2)) with vbank := c } : Strand).next := by
  subst hword
  obtain ⟨t, ht, honly, hme⟩ := vectorForm_go (runVfcvt (s.me.formatWord fs) d a k) hready.2.2.2.2
  obtain ⟨c, hc⟩ := quantisedAll_eq (w := s.me.formatWord fs) (d := d) (a := a) (k := k) (f := bfpBits (fwFD (s.me.formatWord fs))) (t := s.me)
  refine ⟨t, c, ((exec_vfcvt s d a x k fs).trans (floatForm_of_ready _ hready)).trans ht, honly, ?_⟩
  rw [hme, runVfcvt_bfp (bfpCode_spec _ hbfp).1, hc]

end

section

variable {d a : BitVec 5} {k : BitVec 3} {w : Word} {f : Nat} {t : Strand}

/-- The strand with the elements and the scale words of a conversion to a block format. -/
def quantisedRegs (w : Word) (d a : BitVec 5) (k : BitVec 3) (f : Nat) (t : Strand) : Strand :=
  (t.putOps ⟨d.toNat, fmtWidth (.bfp f)⟩ (quantisedElems w a k f t)).putOps ⟨fwZD w, 32⟩ (quantisedScales w a k f t)

theorem getV_quantisedScales {u : Strand} {n : Nat} (hn : n ≠ fwZD w) :
    (u.putOps ⟨fwZD w, 32⟩ (quantisedScales w a k f t)).getV n = u.getV n :=
  getV_putOps_apart u fun _ hp h => hn (h.trans (scale_reg (mem_quantisedScales.mp hp).1))

theorem getV_quantisedElems {n : Nat} (hn : ∀ j, isActive t k j = true → n ≠ d.toNat + j * fmtWidth (.bfp f) / 16384) :
    (t.putOps ⟨d.toNat, fmtWidth (.bfp f)⟩ (quantisedElems w a k f t)).getV n = t.getV n :=
  getV_putOps_apart t fun p hp => hn p.1 ((mem_lanes ..).mp (mem_quantisedElems_lane hp))

theorem getV_quantisedRegs {n : Nat} (hn : ∀ j, isActive t k j = true → n ≠ d.toNat + j * fmtWidth (.bfp f) / 16384) (hz : n ≠ fwZD w) :
    (quantisedRegs w d a k f t).getV n = t.getV n :=
  (getV_quantisedScales hz).trans (getV_quantisedElems hn)

theorem elem_quantisedRegs (hw : fmtWidth (.bfp f) ∣ 16384) {i : Nat} (hi : i < 2048) (hact : isActive t k i = true)
    (hz : fwZD w ≠ d.toNat + i * fmtWidth (.bfp f) / 16384) :
    ∃ e, (i, e) ∈ (blockOf (t.lanes k) (i / 32)).zip (quantised w a k f t (i / 32)).1 ∧
      (quantisedRegs w d a k f t).elem ⟨d.toNat, fmtWidth (.bfp f)⟩ i = e % 2 ^ fmtWidth (.bfp f) := by
  obtain ⟨e, hblock, hall⟩ := mem_quantisedElems (w := w) (a := a) (f := f) hi ((mem_lanes ..).mpr hact)
  refine ⟨e, hblock, ?_⟩
  rw [quantisedRegs, elem_of_getV (getV_quantisedScales hz.symm)]
  exact elem_putOps_of_mem (o := ⟨d.toNat, fmtWidth (.bfp f)⟩) hw t quantisedElems_nodup hall

theorem scale_quantisedRegs {b : Nat} (hb : b < 64)
    (hz : ∀ j, isActive t k j = true → fwZD w ≠ d.toNat + j * fmtWidth (.bfp f) / 16384) :
    (quantisedRegs w d a k f t).elem ⟨fwZD w, 32⟩ b =
      if blockOf (t.lanes k) b = [] then t.elem ⟨fwZD w, 32⟩ b else (quantised w a k f t b).2.1 % 2 ^ 32 := by
  have hdvd : (⟨fwZD w, 32⟩ : VOp).w ∣ 16384 := show 32 ∣ 16384 by decide
  by_cases hempty : blockOf (t.lanes k) b = []
  · rw [if_pos hempty, quantisedRegs, elem_putOps_of_notMem hdvd]
    · refine elem_of_getV (getV_quantisedElems fun j hj => ?_)
      rw [scale_reg hb]
      exact hz j hj
    · rintro p hp rfl
      exact (mem_quantisedScales.mp hp).2.1 hempty
  · rw [if_neg hempty]
    exact elem_putOps_of_mem hdvd _ quantisedScales_nodup (mem_quantisedScales.mpr ⟨hb, hempty, rfl⟩)

/-- What flags and the bank leave. -/
theorem getV_flagged (u : Strand) (fl : Flags) (c : Bank) (n : Nat) : ({ u.setFlags fl with vbank := c } : Strand).next.getV n = u.getV n := rfl

end

theorem flags_kept (x y : Flags) : (x ||| y) &&& x = x := by
  apply BitVec.eq_of_getLsbD_eq
  intro i _
  simpa using Or.inl

/-- What a conversion to a block format writes. -/
def ConvertsToBlocks (i : Instr) (s : State) (d a : BitVec 5) (k : BitVec 3) (w : Word) : Prop :=
  ∃ t, exec i s = .next t ∧ OnlyMe s t ∧
    (∀ n, (∀ j, isActive s.me k j = true → n ≠ d.toNat + j * ((codeWidth (fwFD w)).getD 8) / 16384) → n ≠ fwZD w →
      t.me.getV n = s.me.getV n) ∧
    t.me.vstat &&& s.me.vstat = s.me.vstat ∧
    WentOn s.me { t.me with v := s.me.v, marks := s.me.marks, vstat := s.me.vstat, vbank := s.me.vbank } (s.me.pc + 4#64) ∧
    ∀ f, fmtOf (fwFD w) = some (.bfp f) →
      t.me.vstat = s.me.vstat ||| flagsOr ((List.range 64).map (fun b => (quantised w a k f s.me b).2.2)) ∧
        ((∀ j, isActive s.me k j = true → fwZD w ≠ d.toNat + j * fmtWidth (.bfp f) / 16384) →
          (∀ i, i < 2048 → isActive s.me k i = true → ∃ e, (i, e) ∈ (blockOf (s.me.lanes k) (i / 32)).zip (quantised w a k f s.me (i / 32)).1 ∧
            t.me.elem ⟨d.toNat, fmtWidth (.bfp f)⟩ i = e % 2 ^ fmtWidth (.bfp f)) ∧
          ∀ b, b < 64 → t.me.elem ⟨fwZD w, 32⟩ b =
            if blockOf (s.me.lanes k) b = [] then s.me.elem ⟨fwZD w, 32⟩ b else (quantised w a k f s.me b).2.1 % 2 ^ 32)

theorem convertsToBlocks_vfcvt {s : State} {d a : BitVec 5} {x : BitVec 1} {k fs : BitVec 3} {w : Word} (hword : s.me.formatWord fs = w)
    (hready : FloatReady s.me w (vfcvtOps w d a) (vfcvtMore w k)) (hbfp : isBfpCode (fwFD w) = true) :
    ConvertsToBlocks (.vfcvt d a x k fs) s d a k w := by
  obtain ⟨t, c, hexec, honly, hme⟩ := vfcvt_bfp_next (x := x) hword hready hbfp
  obtain ⟨hfmt, hwidth, hdvd⟩ := bfpCode_spec _ hbfp
  have hflags : t.me.vstat = s.me.vstat ||| flagsOr ((List.range 64).map (fun b => (quantised w a k (bfpBits (fwFD w)) s.me b).2.2)) := by
    rw [hme]
    exact congrArg (· ||| _) ((putOps_vstat ..).trans (putOps_vstat ..))
  refine ⟨t, hexec, honly, fun n hn hz => ?_, ?_, ?_, fun f hf => ?_⟩
  · rw [hwidth] at hn
    rw [hme, getV_flagged]
    exact getV_quantisedRegs hn hz
  · rw [hflags, flags_kept]
  · rw [hme]
    exact wentOn_of_frame (next_setFlags_frame ..) rfl
  · obtain rfl : bfpBits (fwFD w) = f := Fmt.bfp.inj (Option.some.inj (hfmt.symm.trans hf))
    have hget : ∀ n, t.me.getV n = (quantisedRegs w d a k (bfpBits (fwFD w)) s.me).getV n := fun n => by rw [hme, getV_flagged]; rfl
    refine ⟨?_, fun hz => ⟨fun i hi hact => ?_, fun b hb => ?_⟩⟩
    · exact hflags
    · obtain ⟨e, hblock, helem⟩ := elem_quantisedRegs (w := w) (a := a) hdvd hi hact (hz i hact)
      exact ⟨e, hblock, (elem_of_getV (hget _)).trans helem⟩
    · exact (elem_of_getV (hget _)).trans (scale_quantisedRegs hb hz)

/-! ### Sign operations, rounding to an integral value and classes (spec/15_vector_instructions.md R268, R269) -/

theorem floatFmt_width_dvd : ∀ c : BitVec 8, fmtWidth (.float (floatFmt c)) ∣ 16384 := by decide +kernel

/-- The operands of a form whose source and destination have one format. -/
def sameOps (w : Word) (d a : BitVec 5) : List FOp :=
  [⟨a, fwFA w, isFloatCode (fwFA w), true, false⟩, ⟨d, fwFD w, isFloatCode (fwFA w) && fwFD w == fwFA w, false, true⟩]

/-- The value that a form of one format gives a lane: the canonical NaN of a NaN, with NV of a signalling one, else the form's. -/
abbrev sameValue (h : FFmt) (ftz : Bool) (raw : Nat → Nat) (f : Nat → FVal → Nat → Nat × Flags) (j g : Nat) : Nat × Flags :=
  if (decodeFloat h ftz (raw j)).isNan then (nanOf h, if (decodeFloat h ftz (raw j)).isSig then 1#5 else 0#5)
  else f (raw j) (decodeFloat h ftz (raw j)) g

theorem writesFloats_of_sameFormat {i : Instr} {s : State} {draws : Bool} {f : FFmt → Round → Nat → FVal → Nat → Nat × Flags} {d a : BitVec 5}
    {k fs : BitVec 3} {w : Word} (hword : s.me.formatWord fs = w) (hexec : exec i s = sameFormat draws f d a k fs s)
    (hready : FloatReady s.me w (sameOps w d a) (maskOnly k [])) :
    WritesFloats i s ⟨d.toNat, fmtWidth (.float (floatFmt (fwFA w)))⟩ k (if draws then roundOf w else { roundOf w with rm := 0#3 })
      (sameValue (floatFmt (fwFA w)) (draws && (roundOf w).ftz)
        (fun j => s.me.elem ⟨a.toNat, fmtWidth (.float (floatFmt (fwFA w)))⟩ j % 2 ^ (floatFmt (fwFA w)).width)
        (f (floatFmt (fwFA w)) (roundOf w))) := by
  subst hword
  exact writesFloats_of_floatForm hready hexec (floatFmt_width_dvd _) rfl rfl

section

variable (s : State) (d a : BitVec 5) (x : BitVec 1) (k fs : BitVec 3)

theorem exec_vfneg : exec (.vfneg d a x k fs) s = sameFormat false (fun h _ raw _ _ => (raw ^^^ 2 ^ (h.width - 1), 0#5)) d a k fs s := rfl
theorem exec_vfabs : exec (.vfabs d a x k fs) s = sameFormat false (fun h _ raw _ _ => (raw % 2 ^ (h.width - 1), 0#5)) d a k fs s := rfl
theorem exec_vfcvti : exec (.vfcvti d a x k fs) s = sameFormat true integral d a k fs s := rfl
theorem exec_vfclass : exec (.vfclass d a x k fs) s = execVfclass d a x k fs s := rfl

end

theorem classOf_lt (v : FVal) (sub : Bool) : classOf v sub < 10 := by
  unfold classOf
  repeat' split
  all_goals omega

/-- A class code fits every element. -/
theorem classOf_mod (t : Strand) (v : FVal) (sub : Bool) : classOf v sub % 2 ^ t.sewBits = classOf v sub := by
  refine Nat.mod_eq_of_lt ((classOf_lt v sub).trans_le ((by decide : 10 ≤ 2 ^ 8).trans (Nat.pow_le_pow_right (by decide) ?_)))
  exact Nat.le_mul_of_pos_right 8 (Nat.two_pow_pos _)

/-- VFCLASS writes the class codes. -/
theorem writesLanes_vfclass {s : State} {d a : BitVec 5} {x : BitVec 1} {k fs : BitVec 3} {w : Word} (hword : s.me.formatWord fs = w)
    (hready : FloatReady s.me w [sourceOp a (fwFA w)] { maskOnly k (scaleReads (fwFA w) (fwZA w)) with dsts := [s.me.sewOp d] }) :
    WritesLanes (.vfclass d a x k fs) s (s.me.sewOp d) (fun j => if isActive s.me k j then
      some (classOf (s.me.fval a (fwFA w) (fwZA w) (roundOf w).ftz j)
        (subEncoding (fwFA w) (s.me.elem ⟨a.toNat, (codeWidth (fwFA w)).getD s.me.sewBits⟩ j))) else none) := by
  subst hword
  refine writesLanes_of_vectorForm ((exec_vfclass s d a x k fs).trans (floatForm_of_ready _ hready)) hready.2.2.2.2
    (laneWrite_putOps _ _ _ (sewBits_dvd s.me) fun j => ?_) (putOps_frame (t := s.me) _)
  simp only [mem_lanes]
  rw [show (s.me.sewOp d).w = s.me.sewBits from rfl, classOf_mod]

/-- Settles O20: blocks have no lane in common, so each is quantised under the draws that its lanes have before the form. -/
theorem vectorConversionsAndSigns : Obligations.VectorConversionsAndSigns := by
  unfold Obligations.VectorConversionsAndSigns
  constructor
  · intro s d a x k fs w r hready
    exact ⟨fun f hf hbfp => writesFloats_vfcvt rfl hready hf hbfp, fun hbfp => convertsToBlocks_vfcvt rfl hready hbfp⟩
  · intro s d a x k fs w r fa W h raw quiet
    refine ⟨fun hready => ⟨?_, ?_, ?_⟩, fun hready => writesLanes_vfclass rfl hready⟩
    · have h := writesFloats_of_sameFormat rfl (exec_vfneg s d a x k fs) hready
      exact h
    · have h := writesFloats_of_sameFormat rfl (exec_vfabs s d a x k fs) hready
      exact h
    · have h := writesFloats_of_sameFormat rfl (exec_vfcvti s d a x k fs) hready
      exact h

end Sys2Proof.Machine
end

section
/-! PROOFS. Reductions, permutes, moves and gang multicast (spec/15_vector_instructions.md R270 to R275, R278; spec/04_number_formats.md
R78): the tree of a reduction, and what a form writes for the lanes of a list. -/

set_option Elab.async false

namespace Sys2Proof.Machine

open Sys2Proof

/-! ### Writing a reduction (spec/15_vector_instructions.md R270) -/

theorem getV_filled (l : List Nat) (x : VReg) (t : Strand) (n : Nat) :
    (l.foldl (fun u m => u.setV m x) t).getV n = if n ∈ l then x else t.getV n := by
  induction l generalizing t with
  | nil => rfl
  | cons m l ih =>
    rw [List.foldl_cons, ih, getV_setV]
    by_cases h : n = m
    · rw [if_pos h, ite_self, if_pos (h ▸ List.mem_cons_self)]
    · rw [if_neg h]
      simp only [List.mem_cons, h, false_or]

theorem setV_frame (t : Strand) (n : Nat) (x : VReg) : ({ t.setV n x with v := t.v, marks := t.marks } : Strand) = t := rfl

theorem filled_frame (l : List Nat) (x : VReg) (t : Strand) :
    ({ l.foldl (fun u m => u.setV m x) t with v := t.v, marks := t.marks } : Strand) = t := by
  induction l generalizing t with
  | nil => rfl
  | cons m l ih =>
    have h := congrArg (fun u : Strand => ({ u with v := t.v, marks := t.marks } : Strand)) (ih (t.setV m x))
    exact h.trans (setV_frame t m x)

theorem mem_groupRegs {t : Strand} {o : VOp} {n : Nat} : n ∈ t.groupRegs o ↔ o.reg ≤ n ∧ n < o.reg + t.groupSize o.w := by
  simp only [Strand.groupRegs, List.mem_map, List.mem_range]
  constructor
  · rintro ⟨i, hi, rfl⟩; omega
  · rintro ⟨h1, h2⟩; exact ⟨n - o.reg, by omega, by omega⟩

theorem groupSize_pos (t : Strand) (w : Nat) : 0 < t.groupSize w := Nat.le_max_left _ _

section

variable {o : VOp} (t : Strand) (x : Nat)

theorem putReduced_elem_zero (hw : o.w ∣ 16384) : (t.putReduced o x).elem o 0 = x % 2 ^ o.w := by
  rw [Strand.putReduced, elem_putOp hw, if_pos rfl]

theorem putReduced_elem_rest (hw : o.w ∣ 16384) {j : Nat} (hj : 0 < j) (hgroup : j * o.w < 16384 * t.groupSize o.w) :
    (t.putReduced o x).elem o j = 0 := by
  have hreg : o.reg + j * o.w / 16384 ∈ t.groupRegs o := mem_groupRegs.mpr ⟨Nat.le_add_right _ _, by
    have := Nat.div_lt_of_lt_mul hgroup
    omega⟩
  rw [Strand.putReduced, elem_putOp hw, if_neg hj.ne', Strand.elem, getV_filled, if_pos hreg, slice]
  simp

theorem putReduced_getV {n : Nat} (hn : n < o.reg ∨ o.reg + t.groupSize o.w ≤ n) : (t.putReduced o x).getV n = t.getV n := by
  have hpos := groupSize_pos t o.w
  rw [Strand.putReduced, getV_putOp, Nat.zero_mul, Nat.zero_div, if_neg (by omega), getV_filled, if_neg fun h => by
    have := mem_groupRegs.mp h
    omega]

theorem putReduced_frame : ({ t.putReduced o x with v := t.v, marks := t.marks } : Strand) = t := filled_frame (t.groupRegs o) 0#16384 t

theorem putReduced_vstat : (t.putReduced o x).vstat = t.vstat := by
  have h := congrArg Strand.vstat (putReduced_frame (o := o) t x)
  exact h

end

/-- A form that writes one reduced value and joins flags. -/
theorem reduces_of_vectorForm {i : Instr} {s : State} {f : VForm} {run : Strand → Strand} {o : VOp} {x : Nat} {fl : Flags}
    (hexec : exec i s = vectorForm f run s) (hgo : vGate s.me f = .go) (hw : o.w ∣ 16384)
    (hrun : run s.me = (s.me.putReduced o x).setFlags fl) : Reduces i s o x fl := by
  obtain ⟨t, hnext, honly, hme⟩ := vectorForm_go run hgo
  rw [hrun] at hme
  refine ⟨t, hexec.trans hnext, honly, ?_, fun j hj hgroup => ?_, fun n hn => ?_, ?_, ?_⟩ <;> rw [hme]
  · exact putReduced_elem_zero s.me x hw
  · exact putReduced_elem_rest s.me x hw hj hgroup
  · exact putReduced_getV s.me x hn
  · exact congrArg (· ||| fl) (putReduced_vstat s.me x)
  · have h := congrArg (fun u : Strand => ({ u with vstat := s.me.vstat } : Strand)) (putReduced_frame (o := o) s.me x)
    exact wentOn_of_frame h rfl

theorem reduces_congr {i : Instr} {s : State} {o : VOp} {x y : Nat} {fl : Flags} (h : Reduces i s o x fl) (hxy : x % 2 ^ o.w = y % 2 ^ o.w) :
    Reduces i s o y fl := by
  unfold Reduces at h ⊢
  rwa [hxy] at h

/-! ### The integer reductions -/

section

variable (s : State) (d a : BitVec 5) (x : BitVec 1) (k fs : BitVec 3)

theorem exec_vredsum : exec (.vredsum d a x k) s = vredForm (fun _ => 0) (fun w x y => (x + y) % 2 ^ w) d a k s := rfl
theorem exec_vredmax : exec (.vredmax d a x k) s =
    vredForm (fun w => 2 ^ (w - 1)) (fun w x y => if signedOf w x < signedOf w y then y else x) d a k s := rfl
theorem exec_vredmin : exec (.vredmin d a x k) s =
    vredForm (fun w => 2 ^ (w - 1) - 1) (fun w x y => if signedOf w y < signedOf w x then y else x) d a k s := rfl
theorem exec_vredmaxu : exec (.vredmaxu d a x k) s = vredForm (fun _ => 0) (fun _ x y => max x y) d a k s := rfl
theorem exec_vredminu : exec (.vredminu d a x k) s = vredForm (fun w => 2 ^ w - 1) (fun _ x y => min x y) d a k s := rfl
theorem exec_vfredsum : exec (.vfredsum d a x k fs) s = vfredForm (addV false) (fun _ => 0) d a k fs s := rfl
theorem exec_vfredmax : exec (.vfredmax d a x k fs) s =
    vfredForm maxV (fun h => signBit h true + (2 ^ h.ebits - 1) * 2 ^ h.mbits) d a k fs s := rfl
theorem exec_vfredmin : exec (.vfredmin d a x k fs) s = vfredForm minV (fun h => (2 ^ h.ebits - 1) * 2 ^ h.mbits) d a k fs s := rfl

end

theorem setFlags_none (t : Strand) : t.setFlags 0#5 = t := by rw [Strand.setFlags, BitVec.or_zero]

theorem reduces_of_vredForm {i : Instr} {s : State} {d a : BitVec 5} {k : BitVec 3} {start : Nat → Nat} {f : Nat → Nat → Nat → Nat}
    (hexec : exec i s = vredForm start f d a k s) (hgo : vGate s.me (sewForm s.me [a] d k) = .go) :
    Reduces i s (s.me.sewOp d)
      (((s.me.lanes k).map (fun j => s.me.elem (s.me.sewOp a) j)).foldl (f s.me.sewBits) (start s.me.sewBits)) 0#5 := by
  refine reduces_of_vectorForm hexec hgo (sewBits_dvd s.me) ?_
  rw [setFlags_none, List.foldl_map]

theorem foldl_add_mod (w : Nat) (l : List Nat) (c : Nat) : l.foldl (fun x y => (x + y) % 2 ^ w) c % 2 ^ w = (c + l.sum) % 2 ^ w := by
  induction l generalizing c with
  | nil => rfl
  | cons x l ih => rw [List.foldl_cons, ih, List.sum_cons, Nat.mod_add_mod, Nat.add_assoc]

/-- A fold that keeps the better of two values ends at a best one. -/
theorem foldl_best {le : Nat → Nat → Prop} {f : Nat → Nat → Nat} (hrefl : ∀ x, le x x) (htrans : ∀ x y z, le x y → le y z → le x z)
    (hpick : ∀ x y, f x y = x ∨ f x y = y) (hleft : ∀ x y, le x (f x y)) (hright : ∀ x y, le y (f x y)) (l : List Nat) (c : Nat) :
    (l.foldl f c = c ∨ l.foldl f c ∈ l) ∧ le c (l.foldl f c) ∧ ∀ n ∈ l, le n (l.foldl f c) := by
  induction l generalizing c with
  | nil => exact ⟨.inl rfl, hrefl c, fun _ h => absurd h List.not_mem_nil⟩
  | cons x l ih =>
    obtain ⟨hmem, hstart, hall⟩ := ih (f c x)
    rw [List.foldl_cons, List.forall_mem_cons]
    refine ⟨?_, htrans _ _ _ (hleft c x) hstart, htrans _ _ _ (hright c x) hstart, hall⟩
    rcases hmem with h | h
    · rw [h]
      exact (hpick c x).imp_right fun (h : f c x = x) => h.symm ▸ List.mem_cons_self
    · exact .inr (List.mem_cons_of_mem _ h)

/-- From a start value that no other value of the list is as bad as, the best one is of the list. -/
theorem foldl_extreme {le : Nat → Nat → Prop} {f : Nat → Nat → Nat} (hrefl : ∀ x, le x x) (htrans : ∀ x y z, le x y → le y z → le x z)
    (hpick : ∀ x y, f x y = x ∨ f x y = y) (hleft : ∀ x y, le x (f x y)) (hright : ∀ x y, le y (f x y)) {l : List Nat} {c : Nat}
    (hworst : ∀ n ∈ l, le n c → n = c) :
    (l = [] → l.foldl f c = c) ∧ (l ≠ [] → l.foldl f c ∈ l ∧ ∀ n ∈ l, le n (l.foldl f c)) := by
  obtain ⟨hmem, _, hall⟩ := foldl_best hrefl htrans hpick hleft hright l c
  refine ⟨fun h => by rw [h]; rfl, fun h => ⟨?_, hall⟩⟩
  rcases hmem with heq | hin
  · obtain ⟨x, hx⟩ := List.exists_mem_of_ne_nil l h
    have hxc := hworst x hx (heq ▸ hall x hx)
    rw [heq, ← hxc]
    exact hx
  · exact hin

/-- The better of two values by a measure. -/
theorem foldl_measure {f : Nat → Nat → Nat} (v : Nat → Int) (hf : ∀ x y, f x y = if v x < v y then y else x) {l : List Nat} {c : Nat}
    (hworst : ∀ n ∈ l, v n ≤ v c → n = c) :
    (l = [] → l.foldl f c = c) ∧ (l ≠ [] → l.foldl f c ∈ l ∧ ∀ n ∈ l, v n ≤ v (l.foldl f c)) := by
  refine foldl_extreme (le := fun x y => v x ≤ v y) (fun _ => le_refl _) (fun _ _ _ => le_trans) (fun x y => ?_) (fun x y => ?_) (fun x y => ?_)
    hworst
  all_goals
    rw [hf]
    split
  · exact .inr rfl
  · exact .inl rfl
  all_goals omega

/-- The least signed value of width w has one encoding, and so has the greatest. -/
theorem signed_least {w n : Nat} (hw : 0 < w) (hn : n < 2 ^ w) (h : (BitVec.ofNat w n).toInt ≤ (BitVec.ofNat w (2 ^ (w - 1))).toInt) :
    n = 2 ^ (w - 1) := by
  have hpow : 2 ^ w = 2 ^ (w - 1) + 2 ^ (w - 1) := by rw [← Nat.two_mul, ← Nat.pow_succ', Nat.succ_eq_add_one, Nat.sub_add_cancel hw]
  rw [BitVec.toInt_eq_toNat_cond, BitVec.toInt_eq_toNat_cond, BitVec.toNat_ofNat, BitVec.toNat_ofNat, Nat.mod_eq_of_lt hn,
    Nat.mod_eq_of_lt (show 2 ^ (w - 1) < 2 ^ w by have := Nat.two_pow_pos (w - 1); omega)] at h
  generalize 2 ^ (w - 1) = p at h hpow ⊢
  rw [hpow] at h hn
  split at h <;> split at h <;> omega

theorem signed_greatest {w n : Nat} (hw : 0 < w) (hn : n < 2 ^ w)
    (h : (BitVec.ofNat w (2 ^ (w - 1) - 1)).toInt ≤ (BitVec.ofNat w n).toInt) : n = 2 ^ (w - 1) - 1 := by
  have hpow : 2 ^ w = 2 ^ (w - 1) + 2 ^ (w - 1) := by rw [← Nat.two_mul, ← Nat.pow_succ', Nat.succ_eq_add_one, Nat.sub_add_cancel hw]
  have hpos := Nat.two_pow_pos (w - 1)
  rw [BitVec.toInt_eq_toNat_cond, BitVec.toInt_eq_toNat_cond, BitVec.toNat_ofNat, BitVec.toNat_ofNat, Nat.mod_eq_of_lt hn,
    Nat.mod_eq_of_lt (show 2 ^ (w - 1) - 1 < 2 ^ w by omega)] at h
  generalize 2 ^ (w - 1) = p at h hpow hpos ⊢
  rw [hpow] at h hn
  split at h <;> split at h <;> omega

theorem sewBits_pos (t : Strand) : 0 < t.sewBits := Nat.mul_pos (by decide) (Nat.two_pow_pos _)

/-- The integer reductions. -/
theorem integerReductions (s : State) (d a : BitVec 5) (x : BitVec 1) (k : BitVec 3) (hgo : vGate s.me (sewForm s.me [a] d k) = .go) :
    let w := s.me.sewBits
    let l := (s.me.lanes k).map (fun j => s.me.elem (s.me.sewOp a) j)
    let sg (n : Nat) : Int := (BitVec.ofNat w n).toInt
    Reduces (.vredsum d a x k) s (s.me.sewOp d) l.sum 0#5 ∧
    (∃ m, (l = [] → m = 2 ^ (w - 1)) ∧ (l ≠ [] → m ∈ l ∧ ∀ n ∈ l, sg n ≤ sg m) ∧ Reduces (.vredmax d a x k) s (s.me.sewOp d) m 0#5) ∧
    (∃ m, (l = [] → m = 2 ^ (w - 1) - 1) ∧ (l ≠ [] → m ∈ l ∧ ∀ n ∈ l, sg m ≤ sg n) ∧ Reduces (.vredmin d a x k) s (s.me.sewOp d) m 0#5) ∧
    (∃ m, (l = [] → m = 0) ∧ (l ≠ [] → m ∈ l ∧ ∀ n ∈ l, n ≤ m) ∧ Reduces (.vredmaxu d a x k) s (s.me.sewOp d) m 0#5) ∧
    (∃ m, (l = [] → m = 2 ^ w - 1) ∧ (l ≠ [] → m ∈ l ∧ ∀ n ∈ l, m ≤ n) ∧ Reduces (.vredminu d a x k) s (s.me.sewOp d) m 0#5) := by
  intro w l sg
  have hlt : ∀ n ∈ l, n < 2 ^ w := fun n hn => by
    obtain ⟨j, _, rfl⟩ := List.mem_map.mp hn
    exact elem_lt s.me (s.me.sewOp a) j
  have hw := sewBits_pos s.me
  refine ⟨?_, ?_, ?_, ?_, ?_⟩
  · refine reduces_congr (reduces_of_vredForm (exec_vredsum s d a x k) hgo) ?_
    exact (foldl_add_mod w l 0).trans (by rw [Nat.zero_add]; rfl)
  · obtain ⟨hnil, hcons⟩ := foldl_measure sg (f := fun x y => if signedOf w x < signedOf w y then y else x) (c := 2 ^ (w - 1))
      (fun x y => by simp only [signedOf_eq_toInt, sg]) fun n hn h => signed_least hw (hlt n hn) h
    exact ⟨_, hnil, hcons, reduces_of_vredForm (exec_vredmax s d a x k) hgo⟩
  · obtain ⟨hnil, hcons⟩ := foldl_measure (fun n => - sg n) (f := fun x y => if signedOf w y < signedOf w x then y else x) (c := 2 ^ (w - 1) - 1)
      (fun x y => by simp only [signedOf_eq_toInt, sg, Int.neg_lt_neg_iff]) fun n hn h => signed_greatest hw (hlt n hn) (Int.neg_le_neg_iff.mp h)
    exact ⟨_, hnil, fun h => ⟨(hcons h).1, fun n hn => Int.neg_le_neg_iff.mp ((hcons h).2 n hn)⟩,
      reduces_of_vredForm (exec_vredmin s d a x k) hgo⟩
  · obtain ⟨hnil, hcons⟩ := foldl_extreme (f := fun x y => max x y) (c := 0) (l := l) Nat.le_refl (fun _ _ _ => Nat.le_trans)
      (fun x y => by omega) Nat.le_max_left Nat.le_max_right fun n _ h => Nat.le_zero.mp h
    exact ⟨_, hnil, hcons, reduces_of_vredForm (exec_vredmaxu s d a x k) hgo⟩
  · obtain ⟨hnil, hcons⟩ := foldl_extreme (le := fun x y => y ≤ x) (f := fun x y => min x y) (c := 2 ^ w - 1) (l := l) Nat.le_refl
      (fun _ _ _ h h' => Nat.le_trans h' h) (fun x y => by omega) Nat.min_le_left Nat.min_le_right fun n hn h => by
        have := hlt n hn
        omega
    exact ⟨_, hnil, hcons, reduces_of_vredForm (exec_vredminu s d a x k) hgo⟩

/-! ### The tree of a floating reduction (spec/04_number_formats.md R78) -/

/-- The leaf of an index of a list, none past its end. -/
def leafOf (l : List (Option FVal)) (k : Nat) : Option FVal := l[k]?.join

theorem leafOf_cons_succ (x : Option FVal) (l : List (Option FVal)) (k : Nat) : leafOf (x :: l) (k + 1) = leafOf l k := by
  rw [leafOf, List.getElem?_cons_succ, leafOf]

section

variable (node : FVal → FVal → FVal × Flags)

/-- What a node makes of its two children: an absent child passes the other through, unrounded and without flags. -/
def pairOf : Option FVal → Option FVal → Option FVal × Flags
  | none, y => (y, 0#5)
  | some x, none => (some x, 0#5)
  | some x, some y => (some (node x y).1, (node x y).2)

theorem treeNode_succ (leaf : Nat → Option FVal) (n k : Nat) : treeNode node leaf (n + 1) k =
    ((pairOf node (treeNode node leaf n (2 * k)).1 (treeNode node leaf n (2 * k + 1)).1).1,
      (treeNode node leaf n (2 * k)).2 ||| (treeNode node leaf n (2 * k + 1)).2 |||
        (pairOf node (treeNode node leaf n (2 * k)).1 (treeNode node leaf n (2 * k + 1)).1).2) := by
  rw [treeNode]
  generalize treeNode node leaf n (2 * k) = p
  generalize treeNode node leaf n (2 * k + 1) = q
  obtain ⟨x, f⟩ := p
  obtain ⟨y, g⟩ := q
  cases x <;> cases y <;> simp [pairOf]

theorem treeLevel_cons_cons (x y : Option FVal) (l : List (Option FVal)) : treeLevel node (x :: y :: l) =
    ((pairOf node x y).1 :: (treeLevel node l).1, (treeLevel node l).2 ||| (pairOf node x y).2) := by
  cases x <;> cases y <;> simp [treeLevel, pairOf]

/-- Node k of the level above the leaves. -/
def pairAt (leaf : Nat → Option FVal) (k : Nat) : Option FVal × Flags := pairOf node (leaf (2 * k)) (leaf (2 * k + 1))

theorem pairAt_none {leaf : Nat → Option FVal} {k : Nat} (h : leaf (2 * k) = none) (h' : leaf (2 * k + 1) = none) :
    pairAt node leaf k = (none, 0#5) := by rw [pairAt, h, h', pairOf]

/-- One level of the list is the lowest level of nodes, and its flags are theirs. -/
theorem treeLevel_eq : ∀ l : List (Option FVal), (∀ k, leafOf (treeLevel node l).1 k = (pairAt node (leafOf l) k).1) ∧
    ∃ m, (treeLevel node l).2 = flagsOr ((List.range m).map fun k => (pairAt node (leafOf l) k).2) ∧
      ∀ k, m ≤ k → (pairAt node (leafOf l) k).2 = 0#5
  | [] => ⟨fun k => by rw [pairAt_none node rfl rfl]; rfl, 0, rfl, fun k _ => by rw [pairAt_none node rfl rfl]⟩
  | [x] => by
    have hfirst : pairAt node (leafOf [x]) 0 = (x, 0#5) := by cases x <;> rfl
    have hrest : ∀ k, pairAt node (leafOf [x]) (k + 1) = (none, 0#5) := fun k => pairAt_none node rfl rfl
    refine ⟨fun k => ?_, 0, rfl, fun k _ => ?_⟩
    · cases k with
      | zero => rw [hfirst]; cases x <;> rfl
      | succ k => rw [hrest]; rfl
    · cases k with
      | zero => rw [hfirst]
      | succ k => rw [hrest]
  | x :: y :: l => by
    obtain ⟨hleaf, m, hflags, hnone⟩ := treeLevel_eq l
    have hfirst : pairAt node (leafOf (x :: y :: l)) 0 = pairOf node x y := by cases x <;> cases y <;> rfl
    have hrest : ∀ k, pairAt node (leafOf (x :: y :: l)) (k + 1) = pairAt node (leafOf l) k := fun k => rfl
    rw [treeLevel_cons_cons]
    refine ⟨fun k => ?_, m + 1, ?_, fun k hk => ?_⟩
    · cases k with
      | zero => rw [hfirst, leafOf]; rfl
      | succ k => rw [leafOf_cons_succ, hrest, hleaf]
    · rw [List.range_succ_eq_map, List.map_cons, flagsOr_cons, hfirst, List.map_map, BitVec.or_comm, hflags]
      rfl
    · obtain ⟨j, rfl⟩ : ∃ j, k = j + 1 := ⟨k - 1, by omega⟩
      rw [hrest]
      exact hnone j (by omega)

theorem flagsOr_append (l m : List Flags) : flagsOr (l ++ m) = flagsOr l ||| flagsOr m := by
  rw [flagsOr, List.foldl_append, foldl_or_start]
  rfl

/-- Flags past a bound are zero, so where the range ends does not matter. -/
theorem flagsOr_range_le {f : Nat → Flags} {m n : Nat} (h : ∀ k, m ≤ k → f k = 0#5) (hle : m ≤ n) :
    flagsOr ((List.range n).map f) = flagsOr ((List.range m).map f) := by
  induction n, hle using Nat.le_induction with
  | base => rfl
  | succ n hmn ih =>
    rw [List.range_succ, List.map_append, flagsOr_append, ih, List.map_singleton, h n hmn]
    exact BitVec.or_zero

theorem flagsOr_range_eq {f : Nat → Flags} {m n : Nat} (hm : ∀ k, m ≤ k → f k = 0#5) (hn : ∀ k, n ≤ k → f k = 0#5) :
    flagsOr ((List.range m).map f) = flagsOr ((List.range n).map f) :=
  (Nat.le_total m n).elim (fun h => (flagsOr_range_le hm h).symm) (flagsOr_range_le hn)

/-- A tree over leaves is the tree over the nodes of their lowest level, with the flags of these besides. -/
theorem treeNode_bottom (leaf : Nat → Option FVal) (n k : Nat) : treeNode node leaf (n + 1) k =
    ((treeNode node (fun j => (pairAt node leaf j).1) n k).1, (treeNode node (fun j => (pairAt node leaf j).1) n k).2 |||
      flagsOr ((List.range' (k * 2 ^ n) (2 ^ n)).map fun j => (pairAt node leaf j).2)) := by
  induction n generalizing k with
  | zero =>
    rw [treeNode_succ]
    simp [treeNode, pairAt, flagsOr]
  | succ n ih =>
    have hrange : List.range' (k * 2 ^ (n + 1)) (2 ^ (n + 1)) =
        List.range' (2 * k * 2 ^ n) (2 ^ n) ++ List.range' ((2 * k + 1) * 2 ^ n) (2 ^ n) := by
      rw [show (2 * k + 1) * 2 ^ n = 2 * k * 2 ^ n + 1 * 2 ^ n by ring, List.range'_append, Nat.pow_succ']
      congr 1 <;> ring
    rw [treeNode_succ, ih, ih, treeNode_succ, hrange, List.map_append, flagsOr_append]
    refine congrArg (Prod.mk _) ?_
    dsimp only
    ac_rfl

/-- Reducing level by level is the tree, when no leaf lies past its width. -/
theorem treeReduce_eq (n : Nat) (l : List (Option FVal)) (h : ∀ k, 2 ^ n ≤ k → leafOf l k = none) :
    treeReduce node n l = treeNode node (leafOf l) n 0 := by
  induction n generalizing l with
  | zero => cases l <;> rfl
  | succ n ih =>
    obtain ⟨hleaf, m, hflags, hnone⟩ := treeLevel_eq node l
    have hpast : ∀ k, 2 ^ n ≤ k → pairAt node (leafOf l) k = (none, 0#5) := fun k hk =>
      pairAt_none node (h _ (by omega)) (h _ (by omega))
    have hlevel : leafOf (treeLevel node l).1 = fun k => (pairAt node (leafOf l) k).1 := funext hleaf
    rw [treeReduce, treeNode_bottom, Nat.zero_mul, ← List.range_eq_range']
    dsimp only
    rw [ih _ fun k hk => by rw [hleaf, hpast k hk], hlevel, hflags, BitVec.or_comm,
      flagsOr_range_eq hnone (fun k hk => by rw [hpast k hk])]

/-- A tree without leaves, and one of a single leaf. -/
theorem treeNode_none {leaf : Nat → Option FVal} {n k : Nat} (h : ∀ j, k * 2 ^ n ≤ j → leaf j = none) : treeNode node leaf n k = (none, 0#5) := by
  induction n generalizing k with
  | zero => rw [treeNode, h k (by simp)]
  | succ n ih =>
    have hle : k * 2 ^ (n + 1) = 2 * k * 2 ^ n := by ring
    rw [treeNode_succ, ih fun j hj => h j (hle ▸ hj), ih fun j hj => h j (hle ▸ (Nat.mul_le_mul_right _ (Nat.le_succ _)).trans hj)]
    simp [pairOf]

/-- Levels above the one that spans the leaves add nothing. -/
theorem treeNode_of_le {leaf : Nat → Option FVal} {m n : Nat} (h : ∀ j, 2 ^ m ≤ j → leaf j = none) (hle : m ≤ n) :
    treeNode node leaf n 0 = treeNode node leaf m 0 := by
  induction n, hle using Nat.le_induction with
  | base => rfl
  | succ n hmn ih =>
    rw [treeNode_succ, ih, treeNode_none node (k := 2 * 0 + 1) fun j hj => h j (by
      have := Nat.pow_le_pow_right (n := 2) (by decide) hmn
      omega)]
    generalize treeNode node leaf m 0 = p
    obtain ⟨x, f⟩ := p
    cases x <;> simp [pairOf]

/-- At most one leaf: it passes through every level. -/
theorem treeNode_single {leaf : Nat → Option FVal} {i : Nat} (h : ∀ j, j ≠ i → leaf j = none) (n k : Nat) :
    treeNode node leaf n k = (if k * 2 ^ n ≤ i ∧ i < (k + 1) * 2 ^ n then leaf i else none, 0#5) := by
  induction n generalizing k with
  | zero =>
    rw [treeNode]
    by_cases hk : k = i
    · subst hk; simp
    · rw [h k hk, if_neg (by rintro ⟨h1, h2⟩; rw [Nat.pow_zero, Nat.mul_one] at h1 h2; omega)]
  | succ n ih =>
    rw [treeNode_succ, ih, ih]
    have hk : k * 2 ^ (n + 1) = 2 * k * 2 ^ n := by ring
    have hk' : (k + 1) * 2 ^ (n + 1) = (2 * k + 1 + 1) * 2 ^ n := by ring
    have hmid : (2 * k + 1) * 2 ^ n = 2 * k * 2 ^ n + 2 ^ n := by ring
    have hend : (2 * k + 1 + 1) * 2 ^ n = 2 * k * 2 ^ n + 2 ^ n + 2 ^ n := by ring
    rw [hk, hk', hmid, hend]
    generalize 2 * k * 2 ^ n = p
    generalize 2 ^ n = q
    have hleft : ∀ x : Option FVal, pairOf node x none = (x, 0#5) := fun x => by cases x <;> rfl
    by_cases hin : p ≤ i ∧ i < p + q
    · rw [if_pos hin, if_neg (by omega), if_pos (by omega), hleft]
      simp
    · rw [if_neg hin, pairOf]
      by_cases hright : p + q ≤ i ∧ i < p + q + q
      · rw [if_pos hright, if_pos (by omega)]
        simp
      · rw [if_neg hright, if_neg (by omega)]
        simp

end

/-! ### The floating reductions (spec/15_vector_instructions.md R270) -/

/-- A value rounded to FD by RNE. -/
abbrev redRne (w : Word) (v : FVal) : Nat × Flags := encodeResult (.float (floatFmt (fwFD w))) { roundOf w with rm := 0#3 } 0 v

/-- A node of the tree: the operation, rounded to FD. -/
abbrev redNode (w : Word) (f : FVal → FVal → FVal × Flags) (x y : FVal) : FVal × Flags :=
  (decodeFloat (floatFmt (fwFD w)) false (redRne w (f x y).1).1, (f x y).2 ||| (redRne w (f x y).1).2)

/-- The leaves of the tree: the active elements. -/
abbrev redLeaf (t : Strand) (w : Word) (a : BitVec 5) (k : BitVec 3) (j : Nat) : Option FVal :=
  if isActive t k j then some (t.fval a (fwFA w) (fwZA w) (w.getLsbD 28) j) else none

/-- The elements below VL as leaves. -/
def redLeaves (t : Strand) (w : Word) (a : BitVec 5) (k : BitVec 3) : List (Option FVal) :=
  (List.range t.vl.toNat).map (fun i => if (t.getK k.toNat).getLsbD i then some (t.fval a (fwFA w) (fwZA w) (w.getLsbD 28) i) else none)

/-- The operand that a floating reduction writes. -/
abbrev redOp (w : Word) (d : BitVec 5) : VOp := ⟨d.toNat, (floatFmt (fwFD w)).width⟩

/-- The strand after a floating reduction. -/
def runVfred (w : Word) (f : FVal → FVal → FVal × Flags) (absent : FFmt → Nat) (d a : BitVec 5) (k : BitVec 3) (t : Strand) : Strand :=
  match treeReduce (redNode w f) 11 (redLeaves t w a k) with
  | (none, _) => t.putReduced (redOp w d) (absent (floatFmt (fwFD w)))
  | (some v, fl) => (t.putReduced (redOp w d) (redRne w v).1).setFlags (fl ||| (redRne w v).2)

theorem vfredForm_eq (f : FVal → FVal → FVal × Flags) (absent : FFmt → Nat) (d a : BitVec 5) (k fs : BitVec 3) (s : State) :
    vfredForm f absent d a k fs s = floatForm (s.me.formatWord fs)
      [sourceOp a (fwFA (s.me.formatWord fs)), ⟨d, fwFD (s.me.formatWord fs), isWideCode (fwFD (s.me.formatWord fs)), false, true⟩]
      (maskOnly k (scaleReads (fwFA (s.me.formatWord fs)) (fwZA (s.me.formatWord fs)))) (runVfred (s.me.formatWord fs) f absent d a k) s := by
  unfold vfredForm
  refine congrArg (fun run => floatForm _ _ _ run s) (funext fun t => ?_)
  unfold runVfred
  generalize 11 = levels
  rfl

theorem leafOf_redLeaves (t : Strand) (w : Word) (a : BitVec 5) (k : BitVec 3) : leafOf (redLeaves t w a k) = redLeaf t w a k := by
  funext j
  by_cases hj : j < t.vl.toNat
  · simp [leafOf, redLeaves, redLeaf, isActive, hj]
  · simp [leafOf, redLeaves, redLeaf, isActive, hj]

theorem redLeaf_none {t : Strand} {w : Word} {a : BitVec 5} {k : BitVec 3} {j : Nat} (h : isActive t k j = false) : redLeaf t w a k j = none := by
  rw [redLeaf, h]; rfl

/-- No lane from 2,048 on is active. -/
theorem isActive_lt {t : Strand} {k : BitVec 3} {j : Nat} (h : 2048 ≤ j) : isActive t k j = false := by
  rw [isActive, BitVec.getLsbD_of_ge _ _ h, Bool.and_false]

theorem treeReduce_redLeaves (w : Word) (f : FVal → FVal → FVal × Flags) (t : Strand) (a : BitVec 5) (k : BitVec 3) :
    treeReduce (redNode w f) 11 (redLeaves t w a k) = treeNode (redNode w f) (redLeaf t w a k) 11 0 := by
  rw [treeReduce_eq, leafOf_redLeaves]
  rw [leafOf_redLeaves]
  exact fun j hj => redLeaf_none (isActive_lt hj)

theorem wideFmt_width_dvd : ∀ c : BitVec 8, isWideCode c = true → (floatFmt c).width ∣ 16384 := by decide +kernel

section

variable {i : Instr} {s : State} {f : FVal → FVal → FVal × Flags} {absent : FFmt → Nat} {d a : BitVec 5} {k fs : BitVec 3} {w : Word}

theorem reduces_of_runVfred (hword : s.me.formatWord fs = w) (hexec : exec i s = vfredForm f absent d a k fs s)
    (hready : FloatReady s.me w [sourceOp a (fwFA w), ⟨d, fwFD w, isWideCode (fwFD w), false, true⟩] (maskOnly k (scaleReads (fwFA w) (fwZA w))))
    {x : Nat} {fl : Flags} (hrun : runVfred w f absent d a k s.me = (s.me.putReduced (redOp w d) x).setFlags fl) :
    Reduces i s (redOp w d) x fl := by
  subst hword
  exact reduces_of_vectorForm ((hexec.trans (vfredForm_eq ..)).trans (floatForm_of_ready _ hready)) hready.2.2.2.2
    (wideFmt_width_dvd _ (hready.2.1 ⟨d, fwFD _, isWideCode _, false, true⟩ (List.mem_cons_of_mem _ List.mem_cons_self))) hrun

theorem runVfred_none {t : Strand} {fl : Flags} (h : treeNode (redNode w f) (redLeaf t w a k) 11 0 = (none, fl)) :
    runVfred w f absent d a k t = (t.putReduced (redOp w d) (absent (floatFmt (fwFD w)))).setFlags 0#5 := by
  rw [runVfred, treeReduce_redLeaves, h, setFlags_none]

theorem runVfred_some {t : Strand} {v : FVal} {fl : Flags} (h : treeNode (redNode w f) (redLeaf t w a k) 11 0 = (some v, fl)) :
    runVfred w f absent d a k t = (t.putReduced (redOp w d) (redRne w v).1).setFlags (fl ||| (redRne w v).2) := by
  rw [runVfred, treeReduce_redLeaves, h]

end

/-- What a floating reduction that writes `x` for no active element gives. -/
def FloatReduces (i : Instr) (s : State) (d a : BitVec 5) (k : BitVec 3) (w : Word) (f : FVal → FVal → FVal × Flags) (x : Nat) : Prop :=
  (s.me.lanes k = [] → Reduces i s (redOp w d) x 0#5) ∧
  (∀ j, s.me.lanes k = [j] → Reduces i s (redOp w d) (redRne w (s.me.fval a (fwFA w) (fwZA w) (w.getLsbD 28) j)).1
    (redRne w (s.me.fval a (fwFA w) (fwZA w) (w.getLsbD 28) j)).2) ∧
  (∀ n v fl, n ≤ 11 → s.me.vl.toNat ≤ 2 ^ n → treeNode (redNode w f) (redLeaf s.me w a k) n 0 = (some v, fl) →
    Reduces i s (redOp w d) (redRne w v).1 (fl ||| (redRne w v).2)) ∧
  (∃ e fl, Reduces i s (redOp w d) e fl)

theorem floatReduces_of_vfredForm {i : Instr} {s : State} {f : FVal → FVal → FVal × Flags} {absent : FFmt → Nat} {d a : BitVec 5}
    {k fs : BitVec 3} {w : Word} (hword : s.me.formatWord fs = w) (hexec : exec i s = vfredForm f absent d a k fs s)
    (hready : FloatReady s.me w [sourceOp a (fwFA w), ⟨d, fwFD w, isWideCode (fwFD w), false, true⟩]
      (maskOnly k (scaleReads (fwFA w) (fwZA w)))) :
    FloatReduces i s d a k w f (absent (floatFmt (fwFD w))) := by
  have hreduces := fun {x fl} => reduces_of_runVfred (x := x) (fl := fl) hword hexec hready
  have hinactive : ∀ j, j ∉ s.me.lanes k → redLeaf s.me w a k j = none := fun j hj =>
    redLeaf_none (Bool.eq_false_iff.mpr fun h => hj ((mem_lanes ..).mpr h))
  refine ⟨fun hnil => ?_, fun j hone => ?_, fun n v fl hn hvl htree => ?_, ?_⟩
  · exact hreduces (runVfred_none (treeNode_none _ fun j _ => hinactive j (by rw [hnil]; exact List.not_mem_nil)))
  · have hact : isActive s.me k j = true := (mem_lanes ..).mp (hone ▸ List.mem_cons_self)
    have hlt : j < 2048 := Nat.lt_of_not_le fun h => by rw [isActive_lt h] at hact; exact Bool.noConfusion hact
    have htree := treeNode_single (redNode w f) (leaf := redLeaf s.me w a k) (i := j)
      (fun m hm => hinactive m (by rw [hone]; exact fun h => hm (List.mem_singleton.mp h))) 11 0
    rw [if_pos ⟨by omega, by omega⟩, redLeaf, if_pos hact] at htree
    have h := hreduces (runVfred_some htree)
    rwa [BitVec.zero_or] at h
  · refine hreduces (runVfred_some ((treeNode_of_le _ (fun j hj => redLeaf_none ?_) hn).trans htree))
    rw [isActive, decide_eq_false (by omega), Bool.false_and]
  · obtain ⟨⟨v, fl⟩, htree⟩ : ∃ p, treeNode (redNode w f) (redLeaf s.me w a k) 11 0 = p := ⟨_, rfl⟩
    cases v with
    | none => exact ⟨_, _, hreduces (runVfred_none htree)⟩
    | some v => exact ⟨_, _, hreduces (runVfred_some htree)⟩

/-- Settles O21: level by level the list of leaves becomes the levels of the tree, and levels above the one that spans VL add nothing. -/
theorem vectorReductions : Obligations.VectorReductions := by
  unfold Obligations.VectorReductions
  constructor
  · exact fun s d a x k hgo => integerReductions s d a x k hgo
  · intro s d a x k fs w h o inf one hready
    suffices hall : ∀ p ∈ ([(.vfredsum, 0, addV false), (.vfredmax, 2 ^ (h.width - 1) + inf, maxV), (.vfredmin, inf, minV)] :
        List ((BitVec 5 → BitVec 5 → BitVec 1 → BitVec 3 → BitVec 3 → Instr) × Nat × (FVal → FVal → FVal × Flags))),
        FloatReduces (p.1 d a x k fs) s d a k w p.2.2 p.2.1 from hall
    rw [List.forall_mem_cons, List.forall_mem_cons, List.forall_mem_singleton]
    exact ⟨floatReduces_of_vfredForm rfl (exec_vfredsum s d a x k fs) hready, floatReduces_of_vfredForm rfl (exec_vfredmax s d a x k fs) hready,
      floatReduces_of_vfredForm rfl (exec_vfredmin s d a x k fs) hready⟩

/-! ### Permutes and moves of SEW-wide elements (spec/15_vector_instructions.md R271, R272, R274) -/

/-- A form that writes `g i` to each lane i of a list. -/
theorem writesLanes_of_lanes {i : Instr} {s : State} {f : VForm} {run : Strand → Strand} {d : BitVec 5} (lanes : List Nat) (g : Nat → Nat)
    (hexec : exec i s = vectorForm f run s) (hgo : vGate s.me f = .go)
    (hrun : run s.me = s.me.putOps (s.me.sewOp d) (lanes.map (fun j => (j, g j)))) (hg : ∀ j ∈ lanes, g j < 2 ^ s.me.sewBits)
    {new : Nat → Option Nat} (hnew : ∀ j, new j = if j ∈ lanes then some (g j) else none) : WritesLanes i s (s.me.sewOp d) new := by
  refine writesLanes_of_vectorForm hexec hgo (hrun ▸ laneWrite_putOps g lanes s.me (sewBits_dvd s.me) fun j => ?_) (hrun ▸ putOps_frame (t := s.me) _)
  rw [hnew]
  by_cases hj : j ∈ lanes
  · rw [if_pos hj, if_pos hj, show (s.me.sewOp d).w = s.me.sewBits from rfl, Nat.mod_eq_of_lt (hg j hj)]
  · rw [if_neg hj, if_neg hj]

/-- The number of active lanes below one. -/
def laneRank (t : Strand) (k : BitVec 3) (j : Nat) : Nat := (List.range j).countP (fun i => isActive t k i)

theorem zip_rank (p : Nat → Bool) (n : Nat) : ((List.range n).filter p).zip (List.range ((List.range n).filter p).length) =
    ((List.range n).filter p).map (fun i => (i, (List.range i).countP p)) := by
  induction n with
  | zero => rfl
  | succ n ih =>
    rw [List.range_succ, List.filter_append]
    by_cases hn : p n = true
    · rw [show [n].filter p = [n] by simp [hn], List.length_append, List.length_singleton, List.range_succ, List.map_append,
        List.zip_append (by simp), ih, ← List.countP_eq_length_filter]
      rfl
    · rw [show [n].filter p = [] by simp [hn], List.append_nil, ih]

/-- The active lanes, each with the number of those below it. -/
theorem zip_lanes (t : Strand) (k : BitVec 3) : (t.lanes k).zip (List.range (t.lanes k).length) = (t.lanes k).map (fun i => (i, laneRank t k i)) := by
  rw [Strand.lanes, zip_rank]
  refine List.map_congr_left fun i hi => congrArg (Prod.mk i) (List.countP_congr fun j hj => ?_)
  have hi' := List.mem_range.mp (List.mem_filter.mp hi).1
  rw [isActive, decide_eq_true (Nat.lt_trans (List.mem_range.mp hj) hi'), Bool.true_and]

section

variable {s : State} (d a b : BitVec 5) (x y : BitVec 1) (k : BitVec 3)

/-- Lanes that a predicate selects of the active ones. -/
theorem active_iff {α : Type} (t : Strand) (k : BitVec 3) (j : Nat) (z : α) :
    (if isActive t k j = true then some z else none) = if j ∈ t.lanes k then some z else none := by simp only [mem_lanes]

theorem sew_elem_lt (t : Strand) (a : BitVec 5) (j : Nat) : t.elem (t.sewOp a) j < 2 ^ t.sewBits := elem_lt t (t.sewOp a) j

/-- The permutes of two vector sources. -/
theorem twoSourceMoves (hgo : vGate s.me (sewForm s.me [a, b] d k) = .go) :
    WritesLanes (.vperm d a b x y k) s (s.me.sewOp d) (fun j => if isActive s.me k j then
      some (if s.me.elem (s.me.sewOp b) j < s.me.vl.toNat then s.me.elem (s.me.sewOp a) (s.me.elem (s.me.sewOp b) j) else 0) else none) ∧
    WritesLanes (.vsel d a b x y k) s (s.me.sewOp d) (fun j => if j < s.me.vl.toNat then
      some (if (s.me.getK k.toNat).getLsbD j then s.me.elem (s.me.sewOp a) j else s.me.elem (s.me.sewOp b) j) else none) := by
  constructor
  · refine writesLanes_of_lanes (s.me.lanes k) _ (exec_vperm s d a b x y k) hgo rfl (fun j _ => ?_) fun j => active_iff ..
    split
    · exact sew_elem_lt ..
    · exact Nat.two_pow_pos _
  · refine writesLanes_of_lanes (List.range s.me.vl.toNat) _ (exec_vsel s d a b x y k) hgo rfl (fun j _ => sew_elem_lt ..) fun j => ?_
    simp only [List.mem_range]
    split <;> [skip; rfl]
    split <;> rfl

/-- The permutes and moves of one vector source. -/
theorem oneSourceMoves (hgo : vGate s.me (sewForm s.me [a] d k) = .go) :
    WritesLanes (.vslideup d a b x k) s (s.me.sewOp d) (fun j => if isActive s.me k j && decide ((s.me.getS b).toNat ≤ j) then
      some (s.me.elem (s.me.sewOp a) (j - (s.me.getS b).toNat)) else none) ∧
    WritesLanes (.vslidedn d a b x k) s (s.me.sewOp d) (fun j => if isActive s.me k j then
      some (if j + (s.me.getS b).toNat < s.me.vl.toNat then s.me.elem (s.me.sewOp a) (j + (s.me.getS b).toNat) else 0) else none) ∧
    WritesLanes (.vcompress d a x k) s (s.me.sewOp d) (fun j => if j < s.me.vl.toNat then
      some (match (s.me.lanes k)[j]? with
        | some i => s.me.elem (s.me.sewOp a) i
        | none => 0) else none) ∧
    WritesLanes (.vexpand d a x k) s (s.me.sewOp d) (fun j => if isActive s.me k j then
      some (s.me.elem (s.me.sewOp a) (laneRank s.me k j)) else none) ∧
    WritesLanes (.vmv d a x k) s (s.me.sewOp d) (fun j => if isActive s.me k j then some (s.me.elem (s.me.sewOp a) j) else none) := by
  refine ⟨?_, ?_, ?_, ?_, ?_⟩
  · refine writesLanes_of_lanes ((s.me.lanes k).filter (fun i => decide ((s.me.getS b).toNat ≤ i))) _ (exec_vslideup s d a b x k) hgo rfl
      (fun j _ => sew_elem_lt ..) fun j => ?_
    simp only [List.mem_filter, mem_lanes, Bool.and_eq_true]
  · refine writesLanes_of_lanes (s.me.lanes k) _ (exec_vslidedn s d a b x k) hgo rfl (fun j _ => ?_) fun j => active_iff ..
    split
    · exact sew_elem_lt ..
    · exact Nat.two_pow_pos _
  · have hnth : ∀ j, nth 0 ((s.me.lanes k).map (fun i => s.me.elem (s.me.sewOp a) i)) j = match (s.me.lanes k)[j]? with
        | some i => s.me.elem (s.me.sewOp a) i
        | none => 0 := fun j => by
      rw [nth, List.getD_eq_getElem?_getD, List.getElem?_map]
      cases (s.me.lanes k)[j]? <;> rfl
    refine writesLanes_of_lanes (List.range s.me.vl.toNat) _ (exec_vcompress s d a x k) hgo rfl (fun j _ => ?_) fun j => ?_
    · rw [hnth]
      cases (s.me.lanes k)[j]? with
      | some i => exact sew_elem_lt ..
      | none => exact Nat.two_pow_pos _
    · simp only [List.mem_range, hnth]
  · refine writesLanes_of_lanes (s.me.lanes k) (fun j => s.me.elem (s.me.sewOp a) (laneRank s.me k j)) (exec_vexpand s d a x k) hgo ?_
      (fun j _ => sew_elem_lt ..) fun j => active_iff ..
    dsimp only
    rw [zip_lanes, List.map_map]
    rfl
  · exact writesLanes_of_lanes (s.me.lanes k) _ (exec_vmv s d a x k) hgo rfl (fun j _ => sew_elem_lt ..) fun j => active_iff ..

/-- The forms without a vector source. -/
theorem noSourceMoves (hgo : vGate s.me (sewForm s.me [] d k) = .go) :
    WritesLanes (.viota d k) s (s.me.sewOp d) (fun j => if isActive s.me k j then some (laneRank s.me k j % 2 ^ s.me.sewBits) else none) ∧
    WritesLanes (.vsplat d a k) s (s.me.sewOp d) (fun j => if isActive s.me k j then some ((s.me.getS a).toNat % 2 ^ s.me.sewBits) else none) := by
  constructor
  · refine writesLanes_of_lanes (s.me.lanes k) (fun j => laneRank s.me k j % 2 ^ s.me.sewBits) (exec_viota s d k) hgo ?_
      (fun j _ => Nat.mod_lt _ (Nat.two_pow_pos _)) fun j => active_iff ..
    dsimp only
    rw [zip_lanes, List.map_map]
    rfl
  · exact writesLanes_of_lanes (s.me.lanes k) _ (exec_vsplat s d a k) hgo rfl (fun j _ => Nat.mod_lt _ (Nat.two_pow_pos _)) fun j => active_iff ..

end

/-! ### Moves by register number (spec/15_vector_instructions.md R273) -/

section

variable {b : BitVec 5} {k : BitVec 3} {f : VForm} {regs : List Nat → VForm → VForm} {run : Strand → Strand} {s : State}

theorem indexedForm_named (hgo : vGate s.me f = .go) (hbad : badRegLane s.me b k = none) :
    indexedForm b k f regs run s = vectorForm (regs (namedRegs s.me b k) f) run s := by
  unfold indexedForm
  dsimp only
  rw [vGate_unmarked _ _ hgo, hbad]

theorem traps_of_indexedForm {i : Instr} {n : Nat} (hexec : exec i s = indexedForm b k f regs run s)
    (hgo : vGate { s.me with marks := [], badK := [] } f = .go) (hbad : badRegLane s.me b k = some n) (hrun : s.me.phase = .running) :
    Traps i s (ownRecord s .regGroup .none 0#64 (BitVec.ofNat 32 n) false) := by
  refine traps_of_raise (hexec.trans ?_) hrun
  unfold indexedForm
  dsimp only
  rw [hgo, hbad]
  rfl

end

/-- One lane's write of VRIXW. -/
def putNamed (w : Nat) (t : Strand) (p : Nat × Nat × Nat) : Strand := t.putOp ⟨p.1, w⟩ p.2.1 p.2.2

section

variable {w : Nat} (hw : w ∣ 16384)

include hw

/-- An element whose index is below those of one register lies in the register that is named. -/
theorem named_reg {e : Nat} (he : e < 16384 / w) (n : Nat) : n + e * w / 16384 = n := by
  have : e * w < 16384 := by
    calc e * w < 16384 / w * w := Nat.mul_lt_mul_of_pos_right he (Nat.pos_of_dvd_of_pos hw (by decide))
      _ = 16384 := Nat.div_mul_cancel hw
  rw [Nat.div_eq_of_lt this, Nat.add_zero]

theorem elem_putNamed (t : Strand) {p : Nat × Nat × Nat} (hp : p.2.1 < 16384 / w) {n e : Nat} (he : e < 16384 / w) :
    (putNamed w t p).elem ⟨n, w⟩ e = if p.1 = n ∧ p.2.1 = e then p.2.2 % 2 ^ w else t.elem ⟨n, w⟩ e := by
  by_cases hreg : p.1 = n
  · subst hreg
    rw [putNamed, elem_putOp hw]
    by_cases hidx : e = p.2.1
    · rw [if_pos hidx, if_pos ⟨rfl, hidx.symm⟩]
    · rw [if_neg hidx, if_neg fun h => hidx h.2.symm]
  · rw [if_neg fun h => hreg h.1]
    refine elem_of_getV ?_
    rw [named_reg hw he, putNamed, getV_putOp, named_reg hw hp, if_neg fun h => hreg h.symm]

theorem elem_putNamed_apart (l : List (Nat × Nat × Nat)) (hl : ∀ p ∈ l, p.2.1 < 16384 / w) {n e : Nat} (he : e < 16384 / w)
    (hmiss : ∀ p ∈ l, ¬ (p.1 = n ∧ p.2.1 = e)) (t : Strand) : (l.foldl (putNamed w) t).elem ⟨n, w⟩ e = t.elem ⟨n, w⟩ e := by
  induction l generalizing t with
  | nil => rfl
  | cons p l ih =>
    rw [List.forall_mem_cons] at hl hmiss
    rw [List.foldl_cons, ih hl.2 hmiss.2, elem_putNamed hw t hl.1 he, if_neg hmiss.1]

/-- The last write of an element stands. -/
theorem elem_putNamed_last (l m : List (Nat × Nat × Nat)) (p : Nat × Nat × Nat) (hp : p.2.1 < 16384 / w) (hm : ∀ q ∈ m, q.2.1 < 16384 / w)
    (hlast : ∀ q ∈ m, ¬ (q.1 = p.1 ∧ q.2.1 = p.2.1)) (t : Strand) :
    ((l ++ p :: m).foldl (putNamed w) t).elem ⟨p.1, w⟩ p.2.1 = p.2.2 % 2 ^ w := by
  rw [List.foldl_append, List.foldl_cons, elem_putNamed_apart hw m hm hp hlast, elem_putNamed hw _ hp hp, if_pos ⟨rfl, rfl⟩]

end

theorem putNamed_frame (w : Nat) (l : List (Nat × Nat × Nat)) (t : Strand) :
    ({ l.foldl (putNamed w) t with v := t.v, marks := t.marks } : Strand) = t := by
  induction l generalizing t with
  | nil => rfl
  | cons p l ih =>
    have h := congrArg (fun u : Strand => ({ u with v := t.v, marks := t.marks } : Strand)) (ih (putNamed w t p))
    exact h

/-- The lanes of a mask in ascending order. -/
theorem lanes_ascending (t : Strand) (k : BitVec 3) : (t.lanes k).Pairwise (· < ·) := (List.pairwise_lt_range).filter _


section

variable (s : State) (d a b : BitVec 5) (x y : BitVec 1) (k : BitVec 3)

theorem exec_vrix : exec (.vrix d b y k) s = indexedForm b k ⟨[s.me.sewOp b], [s.me.sewOp d], [], [], [k.toNat], []⟩
    (fun l f => { f with reads := l }) (fun t => t.putOps (t.sewOp d) ((t.lanes k).map (fun i =>
      (i, t.elem ⟨t.elem (t.sewOp b) i, t.sewBits⟩ (i % (16384 / t.sewBits)))))) s := rfl

/-- What VRIXW writes: for each active lane a register, an element of it and the value. -/
def namedWrites (t : Strand) : List (Nat × Nat × Nat) :=
  (t.lanes k).map (fun i => (t.elem (t.sewOp b) i, i % (16384 / t.sewBits), t.elem (t.sewOp a) i))

theorem exec_vrixw : exec (.vrixw a b x y k) s = indexedForm b k ⟨[s.me.sewOp a, s.me.sewOp b], [], [], [], [k.toNat], []⟩
    (fun l f => { f with writes := l }) (fun t => (namedWrites a b k t).foldl (putNamed t.sewBits) t) s := rfl

theorem exec_vmvi : exec (.vmvi d a) s = wholeMove (s.me.getS a) (s.me.getS a).toNat d.toNat s := rfl
theorem exec_vmvo : exec (.vmvo d a x) s = wholeMove (s.me.getS d) a.toNat (s.me.getS d).toNat s := rfl

variable {s d a b x y k}

theorem writesLanes_vrix (hbad : badRegLane s.me b k = none)
    (hgo : vGate s.me ⟨[s.me.sewOp b], [s.me.sewOp d], namedRegs s.me b k, [], [k.toNat], []⟩ = .go)
    (hplain : vGate s.me ⟨[s.me.sewOp b], [s.me.sewOp d], [], [], [k.toNat], []⟩ = .go) :
    WritesLanes (.vrix d b y k) s (s.me.sewOp d) (fun j => if isActive s.me k j then
      some (s.me.elem ⟨s.me.elem (s.me.sewOp b) j, s.me.sewBits⟩ (j % (16384 / s.me.sewBits))) else none) :=
  writesLanes_of_lanes (s.me.lanes k) _ ((exec_vrix s d b y k).trans (indexedForm_named hplain hbad)) hgo rfl (fun _ _ => elem_lt ..)
    fun _ => active_iff ..

theorem mem_namedWrites_lt (t : Strand) : ∀ p ∈ namedWrites a b k t, p.2.1 < 16384 / t.sewBits := fun p hp => by
  obtain ⟨i, _, rfl⟩ := List.mem_map.mp hp
  exact Nat.mod_lt _ (Nat.div_pos (Nat.le_of_dvd (by decide) (sewBits_dvd t)) (sewBits_pos t))

/-- Writes to named registers: where two lanes coincide, the higher one's value stands. -/
def WritesNamed (i : Instr) (s : State) (a b : BitVec 5) (k : BitVec 3) : Prop :=
  ∃ t, exec i s = .next t ∧ OnlyMe s t ∧
    (∀ j, isActive s.me k j = true → (∀ i, j < i → isActive s.me k i = true → s.me.elem (s.me.sewOp b) i = s.me.elem (s.me.sewOp b) j →
        i % (16384 / s.me.sewBits) ≠ j % (16384 / s.me.sewBits)) →
      t.me.elem ⟨s.me.elem (s.me.sewOp b) j, s.me.sewBits⟩ (j % (16384 / s.me.sewBits)) = s.me.elem (s.me.sewOp a) j) ∧
    (∀ n e, e < 16384 / s.me.sewBits →
      (∀ j, isActive s.me k j = true → ¬ (s.me.elem (s.me.sewOp b) j = n ∧ j % (16384 / s.me.sewBits) = e)) →
      t.me.elem ⟨n, s.me.sewBits⟩ e = s.me.elem ⟨n, s.me.sewBits⟩ e) ∧
    WentOn s.me { t.me with v := s.me.v, marks := s.me.marks } (s.me.pc + 4#64)

theorem writesNamed_vrixw (hbad : badRegLane s.me b k = none)
    (hgo : vGate s.me ⟨[s.me.sewOp a, s.me.sewOp b], [], [], namedRegs s.me b k, [k.toNat], []⟩ = .go)
    (hplain : vGate s.me ⟨[s.me.sewOp a, s.me.sewOp b], [], [], [], [k.toNat], []⟩ = .go) : WritesNamed (.vrixw a b x y k) s a b k := by
  obtain ⟨t, hnext, honly, hme⟩ := vectorForm_go (f := ⟨[s.me.sewOp a, s.me.sewOp b], [], [], namedRegs s.me b k, [k.toNat], []⟩)
    (fun t => (namedWrites a b k t).foldl (putNamed t.sewBits) t) hgo
  have helem : ∀ o j, t.me.elem o j = ((namedWrites a b k s.me).foldl (putNamed s.me.sewBits) s.me).elem o j := fun o j => by rw [hme]; rfl
  refine ⟨t, ((exec_vrixw s a b x y k).trans (indexedForm_named hplain hbad)).trans hnext, honly, fun j hact hlast => ?_, fun n e he hmiss => ?_, ?_⟩
  · obtain ⟨l, m, hl⟩ := List.append_of_mem ((mem_lanes s.me k j).mpr hact)
    have hasc := lanes_ascending s.me k
    rw [hl] at hasc
    have hafter := (List.pairwise_cons.mp (List.pairwise_append.mp hasc).2.1).1
    have hactive : ∀ i ∈ m, isActive s.me k i = true := fun i hi =>
      (mem_lanes ..).mp (hl ▸ List.mem_append_right _ (List.mem_cons_of_mem _ hi))
    have hlt := mem_namedWrites_lt (a := a) (b := b) (k := k) s.me
    rw [helem]
    rw [namedWrites, hl, List.map_append, List.map_cons] at hlt ⊢
    refine (elem_putNamed_last (sewBits_dvd s.me) _ _ _ (hlt _ (by simp)) (fun q hq => hlt q (List.mem_append_right _ (List.mem_cons_of_mem _ hq)))
      (fun q hq => ?_) s.me).trans (Nat.mod_eq_of_lt (sew_elem_lt ..))
    obtain ⟨i, hi, rfl⟩ := List.mem_map.mp hq
    exact fun h => hlast i (hafter i hi) (hactive i hi) h.1 h.2
  · rw [helem]
    refine elem_putNamed_apart (sewBits_dvd s.me) _ (mem_namedWrites_lt s.me) he (fun p hp => ?_) s.me
    obtain ⟨i, hi, rfl⟩ := List.mem_map.mp hp
    exact hmiss i ((mem_lanes ..).mp hi)
  · rw [hme]
    exact wentOn_of_frame (putNamed_frame ..) rfl

theorem yieldsS_vext (hgo : vGate s.me ⟨[s.me.sewOp a], [], [], [], [], []⟩ = .go) :
    YieldsS (.vext d a b x) s d (if (s.me.getS b).toNat < s.me.vl.toNat then BitVec.ofNat 64 (s.me.elem (s.me.sewOp a) (s.me.getS b).toNat)
      else 0#64) (s.me.pc + 4#64) :=
  yieldsS_of_vectorForm (exec_vext s d a b x) hgo rfl

theorem writesLanes_vins (hgo : vGate s.me ⟨[], [s.me.sewOp d], [], [], [], []⟩ = .go) :
    WritesLanes (.vins d a b) s (s.me.sewOp d) (fun j => if j = (s.me.getS b).toNat ∧ j < s.me.vl.toNat then
      some ((s.me.getS a).toNat % 2 ^ s.me.sewBits) else none) := by
  refine writesLanes_of_lanes (if (s.me.getS b).toNat < s.me.vl.toNat then [(s.me.getS b).toNat] else [])
    (fun _ => (s.me.getS a).toNat % 2 ^ s.me.sewBits) (exec_vins s d a b) hgo ?_ (fun j _ => Nat.mod_lt _ (Nat.two_pow_pos _)) fun j => ?_
  · split <;> rfl
  · by_cases hin : (s.me.getS b).toNat < s.me.vl.toNat
    · rw [if_pos hin]
      simp only [List.mem_singleton]
      exact if_congr ⟨fun h => h.1, fun h => ⟨h, h ▸ hin⟩⟩ rfl rfl
    · rw [if_neg hin, if_neg List.not_mem_nil, if_neg]
      rintro ⟨rfl, h⟩
      exact hin h

theorem writesReg_of_wholeMove {i : Instr} {num : Word} {src dst : Nat} (hexec : exec i s = wholeMove num src dst s) (hnum : num.toNat < 128)
    (hgo : vGate s.me ⟨[], [], [src], [dst], [], []⟩ = .go) : WritesReg i s dst (s.me.getV src) := by
  obtain ⟨t, hnext, honly, hme⟩ := vectorForm_go (fun t => t.setV dst (t.getV src)) hgo
  have hnext' : exec i s = .next t := (hexec.trans (if_neg (Nat.not_le.mpr hnum))).trans hnext
  refine ⟨t, hnext', honly, ?_, fun m hm => ?_, ?_, ?_⟩ <;> rw [hme]
  · exact (getV_setV s.me dst dst (s.me.getV src)).trans (if_pos rfl)
  · exact (getV_setV s.me dst m (s.me.getV src)).trans (if_neg hm)
  · rfl
  · exact wentOn_of_frame (setV_frame s.me dst (s.me.getV src)) rfl

theorem traps_of_wholeMove {i : Instr} {num : Word} {src dst : Nat} (hexec : exec i s = wholeMove num src dst s) (hnum : 128 ≤ num.toNat)
    (hrun : s.me.phase = .running) : Traps i s (ownRecord s .regGroup .none 0#64 0#32 false) :=
  traps_of_raise (hexec.trans (if_pos hnum)) hrun

end

/-- Settles O22: each form writes, for a list of lanes, what it has read before it wrote any. -/
theorem vectorPermutesAndMoves : Obligations.VectorPermutesAndMoves := by
  unfold Obligations.VectorPermutesAndMoves
  constructor
  · intro s d a b x y k u vl A B n rank act
    exact ⟨twoSourceMoves d a b x y k, oneSourceMoves d a b x k, noSourceMoves d a k⟩
  · intro s d a b x y k u A B e1 lane
    exact ⟨writesLanes_vrix, fun i hbad hrun hgo => traps_of_indexedForm (exec_vrix s d b y k) hgo hbad hrun, writesNamed_vrixw,
      fun i hbad hrun hgo => traps_of_indexedForm (exec_vrixw s a b x y k) hgo hbad hrun, yieldsS_vext, writesLanes_vins,
      fun hnum hgo => writesReg_of_wholeMove (exec_vmvi s d a) hnum hgo, fun hnum hgo => writesReg_of_wholeMove (exec_vmvo s d a x) hnum hgo,
      traps_of_wholeMove (exec_vmvi s d a), traps_of_wholeMove (exec_vmvo s d a x)⟩

/-! ### Gang multicast (spec/15_vector_instructions.md R278) -/

theorem mem_insertStrip (x y : Strip) (l : List Strip) : y ∈ insertStrip x l ↔ y ∈ l ∨ y = x := by
  induction l with
  | nil => simp [insertStrip]
  | cons z l ih =>
    unfold insertStrip
    split
    · rw [List.mem_cons, or_comm]
    · rw [List.mem_cons, ih, List.mem_cons, or_assoc]

theorem insertStrip_length (x : Strip) (l : List Strip) : (insertStrip x l).length = l.length + 1 := by
  induction l with
  | nil => rfl
  | cons z l ih =>
    unfold insertStrip
    split
    · rfl
    · rw [List.length_cons, ih, List.length_cons]

/-- A strip goes behind all others where none of its tick has a higher rank. -/
theorem insertStrip_last {x : Strip} {l : List Strip} (h : ∀ y ∈ l, y.tick ≠ x.tick ∨ y.rank ≤ x.rank) : insertStrip x l = l ++ [x] := by
  induction l with
  | nil => rfl
  | cons z l ih =>
    rw [List.forall_mem_cons] at h
    obtain ⟨hz, hl⟩ := h
    rw [insertStrip, if_neg fun hzx => hz.elim (fun h => h hzx.1) (fun h => absurd hzx.2 (Nat.not_lt.mpr h)), ih hl]
    rfl

/-- Strips of one tick stand in ascending order of their senders' ranks. -/
def byRank (y z : Strip) : Prop := y.tick = z.tick → y.rank ≤ z.rank

theorem insertStrip_byRank {x : Strip} {l : List Strip} (h : l.Pairwise byRank) : (insertStrip x l).Pairwise byRank := by
  induction l with
  | nil => exact List.pairwise_singleton _ _
  | cons z l ih =>
    obtain ⟨hz, hl⟩ := List.pairwise_cons.mp h
    unfold insertStrip
    split
    next hbefore =>
      refine List.pairwise_cons.mpr ⟨List.forall_mem_cons.mpr ⟨fun _ => hbefore.2.le, fun y hy htick => ?_⟩, h⟩
      exact hbefore.2.le.trans (hz y hy (hbefore.1.trans htick))
    next hbehind =>
      refine List.pairwise_cons.mpr ⟨fun y hy htick => ?_, ih hl⟩
      rcases (mem_insertStrip x y l).mp hy with hy | rfl
      · exact hz y hy htick
      · exact Nat.not_lt.mp fun hlt => hbehind ⟨htick, hlt⟩

/-- What several slots of which none is named twice hold once each is changed. -/
theorem strand_foldl_updSlot (f : Strand → Strand) (l : List Nat) (hl : l.Nodup) (s : State) (k : Nat) :
    (l.foldl (fun u j => u.updSlot j f) s).strand k = if k ∈ l then f (s.strand k) else s.strand k := by
  induction l generalizing s with
  | nil => rfl
  | cons j l ih =>
    obtain ⟨hj, hl⟩ := List.nodup_cons.mp hl
    rw [List.foldl_cons, ih hl, strand_updSlot]
    by_cases hkj : k = j
    · subst hkj
      rw [if_neg hj, if_pos rfl, if_pos List.mem_cons_self]
    · rw [if_neg hkj]
      simp only [List.mem_cons, hkj, false_or]

theorem packageKept_foldl_updSlot (f : Strand → Strand) (l : List Nat) (s : State) : PackageKept s (l.foldl (fun u j => u.updSlot j f) s) := by
  induction l generalizing s with
  | nil => rfl
  | cons j l ih => exact (packageKept_updSlot s j f).trans (ih _)

theorem PackageKept.cur {s t : State} (h : PackageKept s t) : t.cur = s.cur := by
  have h := congrArg State.cur h
  exact h

theorem cur_notMem_gangPeers (s : State) (k : Nat) : k ∉ gangPeers s k := by
  unfold gangPeers
  split
  · exact List.not_mem_nil
  · simp

theorem stripRoom_of_free {s : State} {l : List Nat} (h : ∀ k ∈ l, (s.strand k).strips.length < 4 ∧
    (l.filter (fun j => coreOf j == coreOf k)).length ≤ sparesFree s (coreOf k)) : stripRoom s l = true := by
  simpa [stripRoom] using h

section

variable (s : State) (d a : BitVec 5) (x : BitVec 1)

theorem exec_gbcast : exec (.gbcast a x) s = execGbcast a x s := rfl
theorem exec_grecv : exec (.grecv d) s = execGrecv d s := rfl

variable {s d a x}

theorem execGbcast_go (hok : stripOk s.me a = true) (hgo : vGate s.me ⟨[], [], [a.toNat], [], [], []⟩ = .go) :
    exec (.gbcast a x) s = if !stripRoom s (gangPeers s s.cur) then .next s else
      .next (((gangPeers s s.cur).foldl (fun u k => u.updSlot k (pushStrip ⟨s.cycle, s.me.rank, s.me.getV a.toNat, []⟩)) s).upd Strand.next) := by
  rw [exec_gbcast, execGbcast]
  dsimp only
  rw [hok, hgo]
  rfl

theorem execGrecv_go (hok : stripOk s.me d = true) (hgo : vGate s.me ⟨[], [], [], [d.toNat], [], []⟩ = .go) :
    exec (.grecv d) s = match s.me.strips with
      | [] => .next (s.upd (fun u => { u with wait := .grecv }))
      | x :: rest => .next (s.upd (fun u =>
        { ({ u with strips := rest }.setV d.toNat x.data) with
          marks := ({ u with strips := rest }.setV d.toNat x.data).marks ++ stripMarks d.toNat x.bad }.next)) := by
  rw [exec_grecv, execGrecv]
  dsimp only
  rw [hok, hgo]
  rfl

/-- A strip put into every peer's arrival queue. -/
theorem gbcast_sends (hok : stripOk s.me a = true) (hgo : vGate s.me ⟨[], [], [a.toNat], [], [], []⟩ = .go)
    (hnodup : (gangPeers s s.cur).Nodup) (hroom : stripRoom s (gangPeers s s.cur) = true) :
    ∃ t, exec (.gbcast a x) s = .next t ∧ PackageKept s t ∧ WentOn s.me t.me (s.me.pc + 4#64) ∧
      (∀ k ∈ gangPeers s s.cur, (t.strand k).strips = insertStrip ⟨s.cycle, s.me.rank, s.me.getV a.toNat, []⟩ (s.strand k).strips) ∧
      ∀ k, k ≠ s.cur → k ∉ gangPeers s s.cur → t.strand k = s.strand k := by
  have hcur := cur_notMem_gangPeers s s.cur
  have hexec := execGbcast_go (x := x) hok hgo
  rw [hroom, Bool.not_true, if_neg Bool.false_ne_true] at hexec
  generalize gangPeers s s.cur = peers at hnodup hcur hexec ⊢
  have hkept := packageKept_foldl_updSlot (pushStrip ⟨s.cycle, s.me.rank, s.me.getV a.toNat, []⟩) peers s
  have hstrand := strand_foldl_updSlot (pushStrip ⟨s.cycle, s.me.rank, s.me.getV a.toNat, []⟩) peers hnodup s
  generalize peers.foldl (fun u k => u.updSlot k (pushStrip ⟨s.cycle, s.me.rank, s.me.getV a.toNat, []⟩)) s = t at hkept hstrand hexec
  have hme : t.me = s.me := by rw [State.me, hkept.cur, hstrand, if_neg hcur]; rfl
  have hother : ∀ k, k ≠ s.cur → (t.upd Strand.next).strand k = t.strand k := fun k hk => (onlyMe_upd t Strand.next).2 k (hkept.cur ▸ hk)
  refine ⟨_, hexec, hkept.trans (onlyMe_upd t _).1, ?_, fun k hk => ?_, fun k hk hpeer => ?_⟩
  · rw [me_upd, hme]
    exact wentOn_next s.me
  · rw [hother k fun h => hcur (h ▸ hk), hstrand, if_pos hk]
    rfl
  · rw [hother k hk, hstrand, if_neg hpeer]

end

/-- Settles O24: a strip goes in behind every strip but those of its tick and a higher rank, and these stay in order. -/
theorem gangMulticast : Obligations.GangMulticast := by
  unfold Obligations.GangMulticast
  intro s d a x
  refine ⟨?_, fun hok hgo hroom => ?_, fun v rest hok hgo hstrips => ?_, fun hok hgo hstrips => ?_⟩
  · intro hok hgo hnodup hfree strip
    obtain ⟨t, hexec, hkept, hwent, hpeers, hothers⟩ := gbcast_sends (x := x) hok hgo hnodup (stripRoom_of_free hfree)
    refine ⟨t, hexec, hkept, hwent, fun k hk => ?_, hothers⟩
    rw [hpeers k hk]
    exact ⟨fun h => insertStrip_last (x := strip) h, insertStrip_length _ _, fun y => mem_insertStrip _ y _, insertStrip_byRank⟩
  · rw [execGbcast_go hok hgo, hroom]
    rfl
  · have hexec := execGrecv_go hok hgo
    rw [hstrips] at hexec
    refine ⟨_, hexec, onlyMe_upd s _, ?_, ?_, fun n hn => ?_, ?_⟩ <;> rw [me_upd]
    · rfl
    · exact (getV_setV s.me d.toNat d.toNat v.data).trans (if_pos rfl)
    · exact (getV_setV s.me d.toNat n v.data).trans (if_neg hn)
    · exact wentOn_of_frame rfl rfl
  · have hexec := execGrecv_go hok hgo
    rw [hstrips] at hexec
    refine ⟨_, hexec, onlyMe_upd s _, ?_, ?_⟩ <;> rw [me_upd]

end Sys2Proof.Machine
end

section
/-! PROOFS. What goes with a turn (spec/01_execution_model.md R6, R7; spec/05_memories.md R101): the notes of issue and the end of a turn change
nothing else of the state. -/

set_option Elab.async false

namespace Sys2Proof.Machine

open Sys2Proof

/-! ### What goes with a turn (spec/01_execution_model.md R6, R7; spec/16_matrix_instructions.md R289; spec/17_engine_and_system_instructions.md R318) -/

/-- A command without its notes of old and covered vector registers. -/
def plainCommand (c : MCommand) : MCommand := { c with vold := [], vover := [] }

/-- What may differ in a strand beside its instruction: counters, the slots it yields to, notes of its matrix commands, and a wait whose
entry has found what it waits for. -/
def StrandNear (t : State) (u v : Strand) : Prop :=
  { v with
    perfCnt := u.perfCnt
    yielded := u.yielded
    mq := u.mq
    wait := u.wait } = u ∧
  v.mq.map plainCommand = u.mq.map plainCommand ∧
  (v.wait = u.wait ∨ ∃ va p left, bwaitLook t u.wait = some (va, p, left) ∧ v.wait = .bwaitOver va p left)

/-- What may differ beside the step: the notes of issue, of idleness and of shares, wait entries and answers, and strands as above. -/
def Near (t t1 : State) : Prop :=
  { t1 with
    strands := t.strands
    lastSlot := t.lastSlot
    issued := t.issued
    passed := t.passed
    fresh := t.fresh
    idleSince := t.idleSince
    pass := t.pass
    parts := t.parts
    homeWaits := t.homeWaits
    outbox := t.outbox } = t ∧
    (∃ l, t1.outbox = t.outbox ++ l) ∧ (∀ w ∈ t1.homeWaits, w ∈ t.homeWaits) ∧
    (∀ q, { t1.part q with eligible := (t.part q).eligible } = t.part q) ∧
    ∀ j, StrandNear t (t.strand j) (t1.strand j)

theorem StrandNear.refl (t : State) (u : Strand) : StrandNear t u u := ⟨rfl, rfl, .inl rfl⟩

theorem bwaitLook_congr {s t : State} (h : t.mem = s.mem) (w : Wait) : bwaitLook t w = bwaitLook s w := by
  unfold bwaitLook barRead homeRead
  rw [h]

theorem StrandNear.trans {t t1 : State} {u v w : Strand} (hmem : t1.mem = t.mem) (h : StrandNear t u v) (h' : StrandNear t1 v w) :
    StrandNear t u w := by
  obtain ⟨hframe, hmq, hwait⟩ := h
  obtain ⟨hframe', hmq', hwait'⟩ := h'
  refine ⟨?_, hmq'.trans hmq, ?_⟩
  · have h := congrArg (fun x : Strand => ({ x with perfCnt := u.perfCnt, yielded := u.yielded, mq := u.mq, wait := u.wait } : Strand)) hframe'
    exact h.trans hframe
  · rcases hwait' with heq | ⟨va, p, left, hlook, heq⟩
    · rwa [heq]
    · rw [bwaitLook_congr hmem] at hlook
      rcases hwait with heq' | ⟨va', p', left', hlook', heq'⟩
      · exact .inr ⟨va, p, left, heq' ▸ hlook, heq⟩
      · rw [heq'] at hlook
        obtain ⟨rfl, rfl, rfl⟩ : va' = va ∧ p' = p ∧ left' = left := by simpa [bwaitLook] using hlook
        exact .inr ⟨va', p', left', hlook', heq⟩

section

variable {t t1 : State} (h : Near t t1)

include h

theorem Near.mem : t1.mem = t.mem := by
  have h := congrArg State.mem h.1
  exact h

theorem Near.held : t1.held = t.held := by
  have h := congrArg State.held h.1
  exact h

theorem Near.trans {t2 : State} (h' : Near t1 t2) : Near t t2 := by
  have hmem := h.mem
  obtain ⟨hframe, ⟨l, hout⟩, hwaits, hparts, hstrands⟩ := h
  obtain ⟨hframe', ⟨l', hout'⟩, hwaits', hparts', hstrands'⟩ := h'
  refine ⟨?_, ⟨l ++ l', by rw [hout', hout, List.append_assoc]⟩, fun w hw => hwaits w (hwaits' w hw), fun q => ?_, fun j =>
    (hstrands j).trans hmem (hstrands' j)⟩
  · have h := congrArg (fun x : State => ({ x with
      strands := t.strands
      lastSlot := t.lastSlot
      issued := t.issued
      passed := t.passed
      fresh := t.fresh
      idleSince := t.idleSince
      pass := t.pass
      parts := t.parts
      homeWaits := t.homeWaits
      outbox := t.outbox } : State)) hframe'
    exact h.trans hframe
  · have h := congrArg (fun x : Partition => ({ x with eligible := (t.part q).eligible } : Partition)) (hparts' q)
    exact h.trans (hparts q)

end

/-- A state in which nothing of strands, partitions, wait entries and answers differs. -/
theorem near_of_fields {t t1 : State} (hframe : { t1 with
    lastSlot := t.lastSlot
    issued := t.issued
    passed := t.passed
    fresh := t.fresh
    idleSince := t.idleSince
    pass := t.pass } = t) : Near t t1 := by
  have hstrands : t1.strands = t.strands := by have h := congrArg State.strands hframe; exact h
  have hparts : t1.parts = t.parts := by have h := congrArg State.parts hframe; exact h
  have hwaits : t1.homeWaits = t.homeWaits := by have h := congrArg State.homeWaits hframe; exact h
  have hout : t1.outbox = t.outbox := by have h := congrArg State.outbox hframe; exact h
  refine ⟨?_, ⟨[], by rw [hout, List.append_nil]⟩, fun w hw => hwaits ▸ hw, fun q => ?_, fun j => ?_⟩
  · have h := congrArg (fun x : State => ({ x with strands := t.strands, parts := t.parts, homeWaits := t.homeWaits, outbox := t.outbox } : State)) hframe
    exact h
  · rw [State.part, State.part, hparts]
  · rw [State.strand, State.strand, hstrands]
    exact .refl ..

theorem Near.refl (t : State) : Near t t := near_of_fields rfl

/-- Related values listed at the same keys. -/
theorem tabGet_map_rel {α : Type} {R : α → α → Prop} (d : α) (hd : R d d) (g : Nat × α → Nat × α) (t : Tab α)
    (hg : ∀ kt ∈ t, (g kt).1 = kt.1 ∧ R kt.2 (g kt).2) (k : Nat) : R (tabGet d t k) (tabGet d (t.map g) k) := by
  induction t with
  | nil => exact hd
  | cons p t ih =>
    rw [List.forall_mem_cons] at hg
    obtain ⟨⟨hkey, hval⟩, hrest⟩ := hg
    rw [List.map_cons, ← Prod.mk.eta (p := p), ← Prod.mk.eta (p := g _), tabGet_cons, tabGet_cons]
    rw [hkey]
    split
    · exact hval
    · exact ih hrest

/-- A state in which only strands differ, each near what it was. -/
theorem near_of_map {t : State} (g : Nat × Strand → Nat × Strand) (hg : ∀ kt, (g kt).1 = kt.1 ∧ StrandNear t kt.2 (g kt).2) :
    Near t { t with strands := t.strands.map g } :=
  ⟨rfl, ⟨[], (List.append_nil _).symm⟩, fun _ hw => hw, fun _ => rfl,
    fun j => tabGet_map_rel _ (.refl ..) g t.strands (fun kt _ => hg kt) j⟩

theorem near_updSlot {t : State} {k : Nat} {f : Strand → Strand} (hf : StrandNear t (t.strand k) (f (t.strand k))) : Near t (t.updSlot k f) := by
  refine ⟨rfl, ⟨[], (List.append_nil _).symm⟩, fun _ hw => hw, fun _ => rfl, fun j => ?_⟩
  rw [strand_updSlot]
  split
  next h => exact h ▸ hf
  next => exact .refl ..

theorem near_foldl {α : Type} {f : State → α → State} (hf : ∀ u x, Near u (f u x)) (l : List α) (t : State) : Near t (l.foldl f t) := by
  induction l generalizing t with
  | nil => exact .refl t
  | cons x l ih => exact (hf t x).trans (ih _)

/-! ### Counters and notes of issue -/

theorem strandNear_of_counts (t : State) {u v : Strand} (h : SameButCounts u v) : StrandNear t u v := by
  have hmq := congrArg Strand.mq h
  have hwait := congrArg Strand.wait h
  have hframe := congrArg (fun x : Strand => ({ x with yielded := u.yielded, mq := u.mq, wait := u.wait } : Strand)) h
  exact ⟨hframe, congrArg (List.map plainCommand) hmq, .inl hwait⟩

theorem near_countFor (t : State) (slot : Nat) (p : BitVec 6) (e n : Nat) : Near t (countFor t slot p e n) :=
  near_of_map _ fun kt => by
    split
    · exact ⟨rfl, strandNear_of_counts t (bumpPerf_same ..)⟩
    · exact ⟨rfl, .refl ..⟩

theorem near_countDieEvent (t : State) (die e n : Nat) : Near t (countDieEvent t die e n) :=
  near_of_map _ fun kt => by
    split
    · exact ⟨rfl, strandNear_of_counts t (bumpDie_same ..)⟩
    · exact ⟨rfl, .refl ..⟩

theorem near_noteIssue (before t : State) (slot : Nat) : Near t (noteIssue before t slot) := by
  have hstrands := near_of_map (t := t) (fun kt : Nat × Strand =>
      if kt.2.yielded = 0 ∨ coreOf kt.1 ≠ coreOf slot ∨ kt.1 = slot ∨ kt.2.yielded / 2 ^ (slot % 4) % 2 = 0 then kt
      else (kt.1, { kt.2 with yielded := if (kt.2.yielded - 2 ^ (slot % 4)) % 16 = 0 then 0 else kt.2.yielded - 2 ^ (slot % 4) })) fun kt => by
    split
    · exact ⟨rfl, .refl ..⟩
    · exact ⟨rfl, rfl, rfl, .inl rfl⟩
  exact hstrands.trans (near_of_fields rfl)

theorem strandNear_yieldTo (t before : State) (u : Strand) : StrandNear t u (yieldTo before u) := ⟨rfl, rfl, .inl rfl⟩

/-! ### Notes of matrix commands -/

/-- Only the notes of matrix commands differ. -/
def NotesOnly (u v : Strand) : Prop := { v with mq := u.mq } = u ∧ v.mq.map plainCommand = u.mq.map plainCommand

theorem NotesOnly.refl (u : Strand) : NotesOnly u u := ⟨rfl, rfl⟩

theorem NotesOnly.trans {u v w : Strand} (h : NotesOnly u v) (h' : NotesOnly v w) : NotesOnly u w := by
  have hframe := congrArg (fun x : Strand => ({ x with mq := u.mq } : Strand)) h'.1
  exact ⟨hframe.trans h.1, h'.2.trans h.2⟩

theorem NotesOnly.near {u v : Strand} (t : State) (h : NotesOnly u v) : StrandNear t u v := by
  have hframe := congrArg (fun x : Strand => ({ x with perfCnt := u.perfCnt, yielded := u.yielded, wait := u.wait } : Strand)) h.1
  have hwait := congrArg Strand.wait h.1
  exact ⟨hframe, h.2, .inl hwait⟩

theorem notesOnly_of_map {u : Strand} {g : MCommand → MCommand} (hg : ∀ c, plainCommand (g c) = plainCommand c) :
    NotesOnly u { u with mq := u.mq.map g } :=
  ⟨rfl, by rw [List.map_map]; exact List.map_congr_left fun c _ => hg c⟩

theorem notesOnly_markOld (n : Nat) (dsts : List Nat) (u : Strand) : NotesOnly u (markOld n dsts u) := by
  unfold markOld
  split
  · exact .refl u
  · exact notesOnly_of_map fun _ => rfl

theorem notesOnly_cover (u : Strand) (n : Nat) (m : VReg) : NotesOnly u (u.cover n m) := by
  unfold Strand.cover
  split
  · exact .refl u
  · exact notesOnly_of_map fun c => by split <;> rfl

theorem notesOnly_covers (m : Nat → VReg) (l : List Nat) (u : Strand) : NotesOnly u (l.foldl (fun u n => u.cover n (m n)) u) := by
  induction l generalizing u with
  | nil => exact .refl u
  | cons n l ih => exact (notesOnly_cover u n (m n)).trans (ih _)

theorem notesOnly_coverWrites (i : Instr) (slot : Nat) (before : State) (u : Strand) : NotesOnly u (coverWrites i slot before u) := by
  unfold coverWrites
  dsimp only
  split
  · exact .refl u
  · split
    · exact notesOnly_covers _ _ u
    · have h := notesOnly_covers (fun n => (u.mq.drop (before.strand slot).mq.length).foldl (fun m c => m ||| bitsBound c n) 0#16384)
        ((vectorDsts (before.strand slot) i).filter (fun n => (before.strand slot).mq.any (fun c => c.vdst.contains n)))
        { u with mq := u.mq.take (before.strand slot).mq.length }
      obtain ⟨hframe, hmq⟩ := h
      refine ⟨?_, ?_⟩
      · have h := congrArg (fun x : Strand => ({ x with mq := u.mq } : Strand)) hframe
        exact h
      · dsimp only at hmq ⊢
        rw [List.map_append, hmq, ← List.map_append, List.take_append_drop]

theorem near_afterIssue (i : Instr) (slot : Nat) (before t : State) : Near t (afterIssue i slot before t) := by
  unfold afterIssue
  split
  · exact .refl t
  · have hcover := near_updSlot (t := t) (k := slot) (f := coverWrites i slot before) ((notesOnly_coverWrites i slot before _).near t)
    generalize t.updSlot slot (coverWrites i slot before) = u at hcover
    have hyield : Near t (if i = .yield then u.updSlot slot (yieldTo before) else u) := by
      split
      · exact hcover.trans (near_updSlot (strandNear_yieldTo u before _))
      · exact hcover
    have hnote := hyield.trans (near_noteIssue before _ slot)
    dsimp only
    generalize noteIssue before (if i = .yield then u.updSlot slot (yieldTo before) else u) slot = v at hnote
    split
    · exact (hnote.trans (near_updSlot ((notesOnly_markOld ..).near v))).trans (near_countFor ..)
    · exact hnote

/-! ### The end of a turn -/

theorem near_noteBlocks (before t : State) : Near t (noteBlocks before t) := by
  unfold noteBlocks
  split
  · exact .refl t
  · refine near_foldl (fun u die => ?_) _ t
    have hfresh : Near u { u with fresh := u.fresh + 1 } := near_of_fields rfl
    exact hfresh.trans (near_countDieEvent ..)

/-- Nothing but pass values differs. -/
def PassOnly (s t : State) : Prop := { t with pass := s.pass } = s

theorem PassOnly.trans {s t u : State} (h : PassOnly s t) (h' : PassOnly t u) : PassOnly s u := by
  have hframe := congrArg (fun x : State => ({ x with pass := s.pass } : State)) h'
  exact hframe.trans h

theorem passOnly_foldl {α : Type} {f : State → α → State} (hf : ∀ u x, PassOnly u (f u x)) (l : List α) (t : State) : PassOnly t (l.foldl f t) := by
  induction l generalizing t with
  | nil => rfl
  | cons x l ih => exact (hf t x).trans (ih _)

theorem passOnly_liftPass (s : State) (q : Nat × Partition) (l : Nat) (u : State) : PassOnly u (liftPass s q l u) := by
  unfold liftPass
  dsimp only
  split
  · rfl
  · exact passOnly_foldl (fun v c => by split <;> rfl) _ u

theorem near_noteEligible (t : State) : Near t (noteEligible t) := by
  unfold noteEligible
  dsimp only
  split
  · exact .refl t
  · have hpass : PassOnly t (t.parts.foldl (fun (u : State) (q : Nat × Partition) =>
        match eligibleLevel t q.2 with
        | some l => if q.2.eligible.contains l then u else liftPass t q l u
        | none => u) t) := passOnly_foldl (fun u q => by
      split
      · split
        · rfl
        · exact passOnly_liftPass ..
      · rfl) _ t
    generalize t.parts.foldl _ t = u at hpass
    have hnear : Near t u := near_of_fields (congrArg (fun x : State => ({ x with
      lastSlot := t.lastSlot, issued := t.issued, passed := t.passed, fresh := t.fresh, idleSince := t.idleSince } : State)) hpass)
    refine hnear.trans ⟨rfl, ⟨[], (List.append_nil _).symm⟩, fun _ hw => hw, fun q => ?_, fun j => .refl ..⟩
    exact tabGet_map_rel (R := fun x y : Partition => { y with eligible := x.eligible } = x) Partition.none rfl
      (fun q => (q.1, { q.2 with eligible := (eligibleLevel t q.2).toList })) u.parts (fun _ _ => ⟨rfl, rfl⟩) q.toNat

/-- Answers to peers. -/
theorem outbox_answers (f : State → BitVec 10 × Nat × BitVec 4 → State) (hf : ∀ u x, ∃ l, f u x = { u with outbox := u.outbox ++ l })
    (l : List (BitVec 10 × Nat × BitVec 4)) (t : State) : ∃ m, l.foldl f t = { t with outbox := t.outbox ++ m } := by
  induction l generalizing t with
  | nil => exact ⟨[], by rw [List.append_nil]; rfl⟩
  | cons x l ih =>
    obtain ⟨m, hm⟩ := hf t x
    obtain ⟨m', hm'⟩ := ih (f t x)
    refine ⟨m ++ m', ?_⟩
    rw [List.foldl_cons, hm', hm, List.append_assoc]

theorem near_serveHomeWaits (t : State) : Near t (serveHomeWaits t) := by
  unfold serveHomeWaits
  dsimp only
  split
  · exact .refl t
  · obtain ⟨m, hm⟩ := outbox_answers (fun u x => if barServes t x.2.1 then answerBar u x.1 (homeRead t x.2.1 16) else answer u x.1 [] false)
      (fun u x => by
        split
        · exact ⟨_, rfl⟩
        · exact ⟨_, rfl⟩) (t.homeWaits.filter fun x => barTag (barRead t x.2.1).2 != 0xB7#8 || barP (barRead t x.2.1).1 != x.2.2 || !barServes t x.2.1)
      { t with homeWaits := t.homeWaits.filter fun x =>
        !(barTag (barRead t x.2.1).2 != 0xB7#8 || barP (barRead t x.2.1).1 != x.2.2 || !barServes t x.2.1) }
    rw [hm]
    exact ⟨rfl, ⟨m, rfl⟩, fun w hw => (List.mem_filter.mp hw).1, fun q => rfl, fun j => .refl ..⟩

theorem near_lookAtWaits (t : State) : Near t (lookAtWaits t) := by
  unfold lookAtWaits
  dsimp only
  split
  · exact .refl t
  · refine near_of_map _ fun kt => ?_
    split
    next va p left hlook => exact ⟨rfl, rfl, rfl, .inr ⟨va, p, left, hlook, rfl⟩⟩
    next => exact ⟨rfl, .refl ..⟩

theorem near_noteIdle (t : State) : Near t (noteIdle t) := by
  unfold noteIdle
  repeat' split
  · exact .refl t
  · exact near_of_fields rfl
  · exact .refl t
  · exact near_of_fields rfl

theorem timeStrand_same (s : State) (slot n : Nat) (u : Strand) : SameButCounts u (timeStrand s slot n u) := by
  unfold timeStrand
  dsimp only
  generalize (List.range 8).foldl _ u.perfCnt = c
  rfl

theorem near_timeStrand (s t : State) (slot : Nat) :
    Near t { t.updSlot slot (timeStrand s slot t.fresh) with fresh := t.fresh + 8 } := by
  have htime := near_updSlot (strandNear_of_counts t (timeStrand_same s slot t.fresh (t.strand slot)))
  generalize t.updSlot slot (timeStrand s slot t.fresh) = v at htime
  exact htime.trans (near_of_fields rfl)

theorem near_closeTurn (before t : State) : Near t (closeTurn before t) := by
  unfold closeTurn
  dsimp only
  refine Near.trans ?_ (near_noteIdle _)
  refine Near.trans ?_ (near_foldl (fun u slot => near_timeStrand _ u slot) _ _)
  exact (((near_noteBlocks before t).trans (near_noteEligible _)).trans (near_serveHomeWaits _)).trans (near_lookAtWaits _)

/-! ### A turn -/

/-- What a turn leaves of a next state: the state as it was where the step has come upon a row under a self-test. -/
theorem near_unlessHeld {s t u : State} (h : Near t u) : (u.held = false → Near t (if u.held then s else u)) ∧
    (u.held = true → Near s (if u.held then s else u)) := by
  constructor
  · intro hheld
    rw [hheld]
    exact h
  · intro hheld
    rw [hheld]
    exact .refl s

/-- The end of a turn that ran an outcome. -/
theorem near_of_turn {s0 s1 s2 : State} {t u : State} (hout : step s0 = mapNext (closeTurn s1) (unlessHeld s2 (.next u))) (h : Near t u) :
    ∃ t1, step s0 = .next t1 ∧ (t.held = false → Near t t1) ∧ (t.held = true → Near s2 t1) := by
  refine ⟨closeTurn s1 (if u.held then s2 else u), hout, fun hheld => ?_, fun hheld => ?_⟩
  · rw [h.held, hheld]
    exact h.trans (near_closeTurn ..)
  · rw [h.held, hheld]
    exact near_closeTurn ..

/-- What a word read by a strand that may issue leads to. -/
theorem fetchIssue_run {s s1 : State} {pa : Nat} {comp : Bool} {i : Instr} (hcan : canIssue s = true)
    (hlocate : locate s (streamCtx s s.cur) s.me.pc 4 4 .fetch acceptsLocal = .ok (.mem pa comp, s1)) (hheld : s1.held = false)
    (htest : underTest s1 s.cur (.mem pa comp) 4 = false) (hfault : homeFault s1 (.mem pa comp) 4 true = none)
    (hdecode : decode (bytesBv 32 (memBytes s1.mem pa 4)) = some i) (hdefer : s1.me.deferNow = false) (hspares : sparesShort s1 i = false)
    (hpoison : readsPoison s1.me i = false) : fetchIssue s = .run i s1 := by
  have hfetch : fetch s = .word (bytesBv 32 (memBytes s1.mem pa 4)) s1 := by
    unfold fetch
    dsimp only
    rw [hlocate]
    dsimp only
    rw [hheld, htest, hfault]
    rfl
  unfold fetchIssue deferredFirst issueInstr
  rw [hcan, hfetch]
  dsimp only
  rw [hdecode, hdefer]
  dsimp only
  rw [hspares, hpoison]
  rfl

/-- A turn of a strand that issues an instruction. -/
theorem step_issue {s s1 : State} {rest : List Turn} {k : Nat} {i : Instr} (hagenda : s.agenda = ⟨0, .issue k⟩ :: rest)
    (hturn : slotTurn { s with agenda := rest, cur := k, held := false } k = true)
    (hfetch : fetchIssue { s with agenda := rest, cur := k, held := false } = .run i s1) :
    step s = mapNext (closeTurn { s with agenda := rest }) (unlessHeld { s with agenda := rest, cur := k, held := false }
      (mapNext (afterIssue i k s1) (exec i s1))) := by
  unfold step
  rw [hagenda]
  dsimp only
  unfold runTurn
  dsimp only
  unfold act
  dsimp only
  unfold issueTurn
  dsimp only
  rw [hturn, hfetch]
  rfl

/-- A turn of an engine or of the outside. -/
theorem step_event {s : State} {rest : List Turn} {e : Instr} {x : Args} (hagenda : s.agenda = ⟨0, .event e x⟩ :: rest)
    (hevent : encode e = 0#32) (hpower : s.power ≠ .p3) :
    step s = mapNext (closeTurn { s with agenda := rest }) (unlessHeld { s with agenda := rest, arg := x, held := false }
      (exec e { s with agenda := rest, arg := x, held := false })) := by
  have hallowed : ∀ a l h, eventAllowed { s with agenda := a, arg := l, held := h } e = true := fun a l h => by
    simp [eventAllowed, isEvent, hevent, hpower]
  unfold step
  rw [hagenda]
  dsimp only
  unfold runTurn
  dsimp only
  unfold act
  dsimp only
  rw [hallowed]
  rfl

/-- Settles O57: what goes with a turn changes nothing of the step's state but its notes. -/
theorem stepRunsDecoded : Obligations.StepRunsDecoded := by
  unfold Obligations.StepRunsDecoded
  intro s rest near
  refine ⟨?_, ?_⟩
  · intro k pa comp s1 i hagenda s0 hturn hcan hlocate hheld htest hfault hdecode hdefer hspares hpoison
    have hstep := step_issue hagenda hturn (fetchIssue_run hcan hlocate hheld htest hfault hdecode hdefer hspares hpoison)
    refine ⟨fun t ht => ?_, fun f hf => ?_, fun f hf => ?_⟩
    · rw [ht] at hstep
      exact near_of_turn hstep (near_afterIssue i k s1 t)
    · rw [hstep, hf]
      rfl
    · rw [hstep, hf]
      rfl
  · intro e x hagenda hevent hpower s0 t ht
    have hstep := step_event hagenda hevent hpower
    rw [ht] at hstep
    exact near_of_turn hstep (.refl t)

end Sys2Proof.Machine
end

section
/-! PROOFS. Barriers, waits and tokens (O32 to O35) -/

set_option Elab.async false

namespace Sys2Proof.Machine

open Sys2Proof

/-! ### Objects in memory (spec/12_barriers_and_counters.md R205) -/

theorem memBytes_add (m : List Host.Cell) (pa n k : Nat) : memBytes m pa (n + k) = memBytes m pa n ++ memBytes m (pa + n) k := by
  induction n generalizing pa with
  | zero => rw [Nat.zero_add, Nat.add_zero]; rfl
  | succ n ih =>
    rw [Nat.succ_add, memBytes, memBytes, ih, List.cons_append, Nat.add_assoc, Nat.add_comm 1 n]

theorem memBytes_memPut_append (m : List Host.Cell) (pa : Nat) (xs ys : List Byte) :
    memBytes (memPut m pa (xs ++ ys)) pa xs.length = xs ∧ memBytes (memPut m pa (xs ++ ys)) (pa + xs.length) ys.length = ys := by
  have h := memBytes_memPut m pa (xs ++ ys)
  rw [List.length_append, memBytes_add] at h
  exact List.append_inj h (memBytes_length ..)

theorem bvBytes_length {n : Nat} (x : BitVec n) : (bvBytes x).length = n / 8 := natBytes_length ..

theorem bytesBv_bvBytes_word (x : Word) : bytesBv 64 (bvBytes x) = x := by
  rw [bytesBv, bvBytes, bytesNat_natBytes]
  apply BitVec.eq_of_toNat_eq
  rw [BitVec.toNat_ofNat]
  have := x.isLt
  omega

/-- Two words written at an address read back as an object. -/
theorem barRead_of_mem {t : State} {m : List Host.Cell} {pa : Nat} {v0 v1 : Word} (h : t.mem = memPut m pa (bvBytes v0 ++ bvBytes v1)) :
    barRead t pa = (v0, v1) := by
  obtain ⟨hlow, hhigh⟩ := memBytes_memPut_append m pa (bvBytes v0) (bvBytes v1)
  rw [bvBytes_length, bvBytes_length] at hhigh
  rw [bvBytes_length] at hlow
  rw [barRead, homeRead, homeRead, h, hlow, hhigh, bytesBv_bvBytes_word, bytesBv_bvBytes_word]

theorem barRead_congr {s t : State} (h : t.mem = s.mem) (pa : Nat) : barRead t pa = barRead s pa := by
  rw [barRead, barRead, homeRead, homeRead, homeRead, homeRead, h]

theorem objectIs_of_words {t : State} {pa : Nat} {v0 v1 : Word} {P : BitVec 4} {Q : BitVec 24} {C : BitVec 32} {S : Int}
    (h : barRead t pa = (v0, v1)) (htag : barTag v1 = 0xB7#8) (hP : barP v0 = P) (hQ : barQ v0 = Q) (hC : barC v0 = C) (hS : barS v1 = S) :
    ObjectIs t pa P Q C S := by
  unfold ObjectIs
  rw [h]
  exact ⟨htag, hP, hQ, hC, hS⟩

theorem ObjectIs.of_mem {s t : State} {pa : Nat} {P : BitVec 4} {Q : BitVec 24} {C : BitVec 32} {S : Int} (h : ObjectIs s pa P Q C S)
    (hmem : t.mem = s.mem) : ObjectIs t pa P Q C S := by
  unfold ObjectIs at h ⊢
  rwa [barRead_congr hmem]

/-- The sectors of an object are a signed number of 40 bits. -/
theorem barS_bounds (w1 : Word) : -(2 ^ 39) ≤ barS w1 ∧ barS w1 < 2 ^ 39 := by
  have h1 := BitVec.le_toInt (slice w1 0 40)
  have h2 := BitVec.toInt_lt (x := slice w1 0 40)
  exact ⟨h1, h2⟩

/-- The words after an update: the phase, the arrivals and the sectors, with all else of them kept. -/
def putWords (w0 w1 : Word) (p : BitVec 4) (c : BitVec 32) (sec : Int) : Word × Word :=
  (putSlice (putSlice w0 0 4 p) 32 32 c, putSlice w1 0 40 (BitVec.ofInt 40 sec))

section

variable (w0 w1 : Word) (p : BitVec 4) (c : BitVec 32) (sec : Int)

theorem barTag_putWords : barTag (putWords w0 w1 p c sec).2 = barTag w1 := slice_putSlice_apart _ _ (by decide) (by decide)

theorem barC_putWords : barC (putWords w0 w1 p c sec).1 = c := slice_putSlice_same _ _ (by decide)

theorem barP_putWords : barP (putWords w0 w1 p c sec).1 = p :=
  (slice_putSlice_apart _ _ (by decide) (by decide)).trans (slice_putSlice_same _ _ (by decide))

theorem barQ_putWords : barQ (putWords w0 w1 p c sec).1 = barQ w0 :=
  (slice_putSlice_apart _ _ (by decide) (by decide)).trans (slice_putSlice_apart _ _ (by decide) (by decide))

theorem barS_putWords (hlow : -(2 ^ 39) ≤ sec) (hhigh : sec < 2 ^ 39) : barS (putWords w0 w1 p c sec).2 = sec := by
  rw [barS, putWords, slice_putSlice_same _ _ (by decide), BitVec.toInt_ofInt]
  exact Int.bmod_eq_of_le (by omega) (by omega)

end

/-- One update that neither passes the expected arrivals nor the range of the sectors makes no record. -/
theorem barStep_eq (w0 w1 : Word) (dA : Nat) (dS : Int) (harrive : dA = 0 ∨ dA = 1 ∧ (barC w0).toNat < (barQ w0).toNat)
    (hlow : -(2 ^ 39) ≤ barS w1 + dS) (hhigh : barS w1 + dS < 2 ^ 39) : barStep w0 w1 dA dS =
      (if (barC w0).toNat + dA = (barQ w0).toNat ∧ barS w1 + dS = 0 then putWords w0 w1 (barP w0 + 1#4) 0#32 0
      else putWords w0 w1 (barP w0) (BitVec.ofNat 32 ((barC w0).toNat + dA)) (barS w1 + dS), []) := by
  have hq := (barQ w0).isLt
  have hclamp : max (-(2 ^ 39)) (min (2 ^ 39 - 1) (barS w1 + dS)) = barS w1 + dS := by omega
  have hexcess : ¬ (dA = 1 ∧ (barC w0).toNat = (barQ w0).toNat) := by omega
  have hcount : (if dA = 1 ∧ ¬ (dA = 1 ∧ (barC w0).toNat = (barQ w0).toNat) then barC w0 + 1#32 else barC w0) =
      BitVec.ofNat 32 ((barC w0).toNat + dA) := by
    rcases harrive with rfl | ⟨rfl, _⟩
    · rw [if_neg (by omega), Nat.add_zero, BitVec.ofNat_toNat, BitVec.setWidth_eq]
    · rw [if_pos ⟨rfl, hexcess⟩, BitVec.ofNat_add, BitVec.ofNat_toNat, BitVec.setWidth_eq]
  have hnat : (BitVec.ofNat 32 ((barC w0).toNat + dA)).toNat = (barC w0).toNat + dA := by
    rw [BitVec.toNat_ofNat]
    have := (barC w0).isLt
    omega
  have hrange : ¬ (barS w1 + dS < -(2 ^ 39) ∨ 2 ^ 39 - 1 < barS w1 + dS) := by omega
  unfold barStep
  dsimp only
  rw [hclamp, hcount, hnat, if_neg hexcess, if_neg hrange]
  split <;> rfl

/-! ### An update at its home (spec/12_barriers_and_counters.md R207) -/

/-- The event flags of watching strands are all that a phase advance changes of strands, and it changes no memory. -/
theorem wakeWatchers_spec (s : State) (pa : Nat) : (wakeWatchers s pa).mem = s.mem ∧ (wakeWatchers s pa).cur = s.cur ∧
    ∀ k, ∃ e, (wakeWatchers s pa).strand k = { s.strand k with evFlag := e } := by
  have hflags : (flagWatchers s s.self pa).mem = s.mem ∧ (flagWatchers s s.self pa).cur = s.cur ∧
      ∀ k, ∃ e, (flagWatchers s s.self pa).strand k = { s.strand k with evFlag := e } := by
    unfold flagWatchers
    split
    · exact ⟨rfl, rfl, fun k => ⟨(s.strand k).evFlag, rfl⟩⟩
    · refine ⟨rfl, rfl, fun k => ?_⟩
      refine tabGet_map_rel (R := fun u v : Strand => ∃ e, v = { u with evFlag := e }) Strand.empty ⟨_, rfl⟩ _ s.strands (fun kt _ => ?_) k
      split
      · exact ⟨rfl, true, rfl⟩
      · exact ⟨rfl, kt.2.evFlag, rfl⟩
  unfold wakeWatchers
  dsimp only
  split
  · exact hflags
  · exact hflags

/-- What an acting form has left of its strand so far: its registers and where it stands. -/
def InPlace (u : Strand) (t : State) : Prop := t.me.s = u.s ∧ t.me.pc = u.pc

theorem InPlace.of_me {u : Strand} {s t : State} (h : InPlace u s) (hs : t.me.s = s.me.s) (hpc : t.me.pc = s.me.pc) : InPlace u t :=
  ⟨hs.trans h.1, hpc.trans h.2⟩

theorem cur_homeWrite (s : State) (w : Option Nat) (pa : Nat) (bs : List Byte) (c : Bool) : (homeWrite s w pa bs c).cur = s.cur :=
  (onlyHomes_homeWrite s w pa bs c).cur

theorem me_homeWrite_self (s : State) (pa : Nat) (bs : List Byte) (c : Bool) : (homeWrite s (some s.cur) pa bs c).me = s.me := by
  rw [State.me, cur_homeWrite, strand_homeWrite_self]
  rfl

theorem inPlace_wakeWatchers {u : Strand} {s : State} (pa : Nat) (h : InPlace u s) : InPlace u (wakeWatchers s pa) := by
  obtain ⟨_, hcur, hstrand⟩ := wakeWatchers_spec s pa
  obtain ⟨e, he⟩ := hstrand s.cur
  have hme : (wakeWatchers s pa).me = { s.me with evFlag := e } := by rw [State.me, hcur, he]; rfl
  exact h.of_me (by rw [hme]) (by rw [hme])

/-- An update that makes no record: the words are written, and the phase before it is answered. -/
theorem barUpdate_good {s : State} {p : BitVec 6} {sid : BitVec 11} {pa : Nat} {comp : Bool} {dA : Nat} {dS : Int} {u : Strand} {v0 v1 : Word}
    (hplace : InPlace u s) (htag : barTag (barRead s pa).2 = 0xB7#8) (hsome : ¬ (dA = 0 ∧ dS = 0))
    (hstep : barStep (barRead s pa).1 (barRead s pa).2 dA dS = ((v0, v1), [])) :
    ∃ t, barUpdate s (some s.cur) p sid pa comp dA dS = (some (barP (barRead s pa).1), t) ∧
      t.mem = memPut s.mem pa (bvBytes v0 ++ bvBytes v1) ∧ InPlace u t := by
  have hwritten : InPlace u (homeWrite s (some s.cur) pa (bvBytes v0 ++ bvBytes v1) comp) :=
    hplace.of_me (by rw [me_homeWrite_self]) (by rw [me_homeWrite_self])
  have hmem := mem_homeWrite s (some s.cur) pa (bvBytes v0 ++ bvBytes v1) comp
  unfold barUpdate
  dsimp only
  rw [if_neg (not_not.mpr htag), if_neg hsome, hstep]
  dsimp only
  refine ⟨_, rfl, ?_, ?_⟩ <;> rw [List.foldl_nil] <;> split
  · exact hmem
  · exact (wakeWatchers_spec ..).1.trans hmem
  · exact hwritten
  · exact inPlace_wakeWatchers pa hwritten

theorem barUpdate_bad {s : State} {w : Option Nat} {p : BitVec 6} {sid : BitVec 11} {pa : Nat} {comp : Bool} {dA : Nat} {dS : Int}
    (htag : barTag (barRead s pa).2 ≠ 0xB7#8) : barUpdate s w p sid pa comp dA dS = (none, s) := by
  unfold barUpdate
  exact if_pos htag

theorem barUpdate_nothing {s : State} {w : Option Nat} {p : BitVec 6} {sid : BitVec 11} {pa : Nat} {comp : Bool}
    (htag : barTag (barRead s pa).2 = 0xB7#8) : barUpdate s w p sid pa comp 0 0 = (some (barP (barRead s pa).1), s) := by
  unfold barUpdate
  exact (if_neg (not_not.mpr htag)).trans (if_pos ⟨rfl, rfl⟩)

/-! ### Retiring -/

theorem pushToken_frame (t : Strand) (q : Queue) (p : BitVec 2) : ∃ tok tokRes tokNew ev,
    pushToken t q p = { t with tok := tok, tokRes := tokRes, tokNew := tokNew, evFlag := ev } := by
  unfold pushToken
  split
  · exact ⟨t.tok, t.tokRes, t.tokNew, t.evFlag, rfl⟩
  · exact ⟨_, _, _, _, rfl⟩

theorem retire_spec (t : Strand) (p : BitVec 2) : (t.retire p).s = t.s ∧ (t.retire p).pc = t.pc + 4#64 ∧ (t.retire p).tokDone = false ∧
    (t.retire p).watch = t.watch ∧ (t.retire p).wait = .none ∧ (t.retire p).phase = t.phase := by
  obtain ⟨tok, tokRes, tokNew, ev, h⟩ := pushToken_frame t .s p
  rw [Strand.retire, h]
  exact ⟨rfl, rfl, rfl, rfl, rfl, rfl⟩

theorem getS_of_s {t u : Strand} (h : t.s = u.s) (r : BitVec 5) : t.getS r = u.getS r := by rw [Strand.getS, Strand.getS, h]

/-! ### The gate of a barrier form (spec/17_engine_and_system_instructions.md R317, R319) -/

/-- The state in which the home of a form acts: the object's translation has been made and the tokens are taken. -/
def actsIn (s1 : State) (tok tokRes : Tokens) : State := s1.upd (fun u => { u with tok := tok, tokRes := tokRes, tokDone := true })

section

variable {s s1 : State} {a : BitVec 5} {p w : BitVec 2} {pa : Nat} {comp : Bool}

theorem barForm_ready (x : BarForm) (home : Nat → Bool → State → State) (hready : BarrierReady s a x.push x.pop pa comp s1) :
    ∃ tok tokRes, barForm x a home s = .next (home pa comp (actsIn s1 tok tokRes)) := by
  obtain ⟨htokens, hnear, hlocate, hheld, hdrained, hunacked, hfault⟩ := hready
  obtain ⟨t1, ht1⟩ := Option.isSome_iff_exists.mp htokens
  refine ⟨t1.tok, t1.tokRes, ?_⟩
  have hcur : s1.cur = s.cur := (onlyHomes_locate hlocate).cur
  rw [hcur] at hfault
  unfold barForm
  dsimp only
  rw [ht1]
  dsimp only
  rw [hnear, hlocate]
  dsimp only
  rw [hheld, hdrained, hunacked, tagsFree_of_local s1 (dieOf (coreOf s.cur)) (pl := .mem pa comp) rfl, hfault]
  simp only [Bool.not_true, Bool.and_false, Bool.or_false, List.isEmpty_nil, Bool.false_eq_true, if_false]
  rfl

theorem actsIn_mem (tok tokRes : Tokens) : (actsIn s1 tok tokRes).mem = s1.mem := rfl

theorem actsIn_inPlace (h : OnlyHomes s s1) (tok tokRes : Tokens) : InPlace s.me (actsIn s1 tok tokRes) := by
  obtain ⟨ls, hls⟩ := h.me
  have hme : (actsIn s1 tok tokRes).me = { s1.me with tok := tok, tokRes := tokRes, tokDone := true } := me_upd ..
  exact ⟨by rw [hme, hls], by rw [hme, hls]⟩

/-- A form that ends with its strand retired. -/
theorem barrierDone_of_retire {i : Instr} {v : State} {f : Strand → Strand} {u : Strand} {d : Option (BitVec 5)} {P : BitVec 4}
    {obj : State → Prop} (hexec : exec i s = .next (v.upd f)) (hplace : InPlace s.me v) (hmem : MemoryKept s1 v (within pa 16))
    (hobj : obj (v.upd f)) (hf : f v.me = u.retire p) (hpc : u.pc = v.me.pc)
    (hregs : ∀ r, u.getS r = if d = some r ∧ r ≠ 0#5 then BitVec.ofNat 64 P.toNat else v.me.getS r) : BarrierDone i s s1 pa d P obj := by
  obtain ⟨hs, hnext, hdone, _⟩ := retire_spec u p
  refine ⟨_, hexec, hobj, hmem, ?_, ?_, fun r => ?_⟩ <;> rw [me_upd, hf]
  · rw [hnext, hpc, hplace.2]
  · exact hdone
  · rw [getS_of_s hs, hregs, getS_of_s hplace.1]

theorem regs_none (u : Strand) (P : BitVec 4) (r : BitVec 5) :
    u.getS r = if (none : Option (BitVec 5)) = some r ∧ r ≠ 0#5 then BitVec.ofNat 64 P.toNat else u.getS r := by
  rw [if_neg fun h => nomatch h.1]

theorem regs_some (u : Strand) (d : BitVec 5) (P : BitVec 4) (r : BitVec 5) :
    (u.setS d (zext64 P)).getS r = if some d = some r ∧ r ≠ 0#5 then BitVec.ofNat 64 P.toNat else u.getS r := by
  rw [getS_setS, zext64_eq_ofNat]
  by_cases h : r = d
  · subst h; simp
  · simp [h, Ne.symm h]

/-- The strand with a value in the register that a form names, when it names one. -/
def putReg (u : Strand) (d : Option (BitVec 5)) (x : Word) : Strand :=
  match d with
  | some r => u.setS r x
  | none => u

/-- What the home of an update does where the tag is good. -/
theorem homeUpdate_good {v t : State} {d : Option (BitVec 5)} {dA : Nat} {dS : Int} {P : BitVec 4}
    (h : barUpdate v (some v.cur) v.me.part (sidOf v.cur) pa comp dA dS = (some P, t)) :
    homeUpdate a d dA dS p pa comp v = t.upd (fun u => (putReg u d (zext64 P)).retire p) := by
  unfold homeUpdate
  rw [h]
  rfl

theorem homeUpdate_bad {v : State} {d : Option (BitVec 5)} {dA : Nat} {dS : Int} (h : barTag (barRead v pa).2 ≠ 0xB7#8) :
    homeUpdate a d dA dS p pa comp v = raise (barTrap .barrierTag (v.me.getS a)) v := by
  unfold homeUpdate
  rw [barUpdate_bad h]

theorem putReg_pc (u : Strand) (d : Option (BitVec 5)) (x : Word) : (putReg u d x).pc = u.pc := by
  cases d with
  | none => rfl
  | some r => exact Strand.setS_pc ..

theorem putReg_getS (u : Strand) (d : Option (BitVec 5)) (P : BitVec 4) (r : BitVec 5) : (putReg u d (zext64 P)).getS r = if d = some r ∧ r ≠ 0#5 then BitVec.ofNat 64 P.toNat else u.getS r := by
  cases d with
  | none => exact regs_none ..
  | some d => exact regs_some ..

/-- The words of an object after an update that passes neither its arrivals nor its sectors. -/
theorem objectIs_update {v t : State} {P : BitVec 4} {Q : BitVec 24} {C : BitVec 32} {S : Int} {dA : Nat} {dS : Int} {v0 v1 : Word}
    (hobject : ObjectIs v pa P Q C S) (hlow : -(2 ^ 39) ≤ S + dS) (hhigh : S + dS < 2 ^ 39)
    (hwords : (v0, v1) = if C.toNat + dA = Q.toNat ∧ S + dS = 0 then putWords (barRead v pa).1 (barRead v pa).2 (P + 1#4) 0#32 0
      else putWords (barRead v pa).1 (barRead v pa).2 P (BitVec.ofNat 32 (C.toNat + dA)) (S + dS)) (hread : barRead t pa = (v0, v1)) :
    if C.toNat + dA = Q.toNat ∧ S + dS = 0 then ObjectIs t pa (P + 1#4) Q 0#32 0
      else ObjectIs t pa P Q (BitVec.ofNat 32 (C.toNat + dA)) (S + dS) := by
  obtain ⟨htag, -, hQ, -, -⟩ := hobject
  rw [hwords] at hread
  split at hread
  next h =>
    rw [if_pos h]
    exact objectIs_of_words (hread.trans Prod.mk.eta.symm) ((barTag_putWords ..).trans htag) (barP_putWords ..) ((barQ_putWords ..).trans hQ)
      (barC_putWords ..) (barS_putWords _ _ _ _ _ (by decide) (by decide))
  next h =>
    rw [if_neg h]
    exact objectIs_of_words (hread.trans Prod.mk.eta.symm) ((barTag_putWords ..).trans htag) (barP_putWords ..) ((barQ_putWords ..).trans hQ)
      (barC_putWords ..) (barS_putWords _ _ _ _ _ hlow hhigh)

theorem memoryKept_words {v t : State} {v0 v1 : Word} (h : t.mem = memPut v.mem pa (bvBytes v0 ++ bvBytes v1)) : MemoryKept v t (within pa 16) :=
  fun x hx => by
    rw [h]
    exact memByte_memPut_of_not (by rwa [List.length_append, bvBytes_length, bvBytes_length])

/-- An update form whose object is good and whose update makes no record. -/
theorem barrierDone_of_update {i : Instr} {x : BarForm} {d : Option (BitVec 5)} {dA : Nat} {dS : Int} {P : BitVec 4} {Q : BitVec 24}
    {C : BitVec 32} {S : Int} (hexec : exec i s = barForm x a (homeUpdate a d dA dS p) s) (hready : BarrierReady s a x.push x.pop pa comp s1)
    (hobject : ObjectIs s1 pa P Q C S) (hsome : ¬ (dA = 0 ∧ dS = 0)) (harrive : dA = 0 ∨ dA = 1 ∧ C.toNat < Q.toNat)
    (hlow : -(2 ^ 39) ≤ S + dS) (hhigh : S + dS < 2 ^ 39) :
    BarrierDone i s s1 pa d P (fun t => if C.toNat + dA = Q.toNat ∧ S + dS = 0 then ObjectIs t pa (P + 1#4) Q 0#32 0
      else ObjectIs t pa P Q (BitVec.ofNat 32 (C.toNat + dA)) (S + dS)) := by
  obtain ⟨tok, tokRes, hform⟩ := barForm_ready x (homeUpdate a d dA dS p) hready
  have hv := hobject.of_mem (actsIn_mem (s1 := s1) tok tokRes)
  have hplace := actsIn_inPlace (onlyHomes_locate hready.2.2.1) tok tokRes
  have hkeep := fun {t v0 v1} => memoryKept_words (v := s1) (t := t) (v0 := v0) (v1 := v1) (pa := pa)
  rw [← actsIn_mem tok tokRes] at hkeep
  generalize actsIn s1 tok tokRes = v at hform hv hplace hkeep
  obtain ⟨htag, hP, hQ, hC, hS⟩ := hv
  have hstep := barStep_eq (barRead v pa).1 (barRead v pa).2 dA dS (by rw [hC, hQ]; exact harrive) (by rw [hS]; exact hlow)
    (by rw [hS]; exact hhigh)
  rw [hC, hQ, hS, hP] at hstep
  obtain ⟨⟨v0, v1⟩, hwords⟩ : ∃ y : Word × Word, y = if C.toNat + dA = Q.toNat ∧ S + dS = 0 then
      putWords (barRead v pa).1 (barRead v pa).2 (P + 1#4) 0#32 0
    else putWords (barRead v pa).1 (barRead v pa).2 P (BitVec.ofNat 32 (C.toNat + dA)) (S + dS) := ⟨_, rfl⟩
  rw [← hwords] at hstep
  obtain ⟨t, hupdate, hmem, hplace'⟩ := barUpdate_good (p := v.me.part) (sid := sidOf v.cur) (comp := comp) hplace htag hsome hstep
  rw [hP] at hupdate
  rw [homeUpdate_good hupdate] at hform
  exact barrierDone_of_retire (hexec.trans hform) hplace' (hkeep hmem)
    (objectIs_update ⟨htag, hP, hQ, hC, hS⟩ hlow hhigh hwords (barRead_of_mem hmem)) rfl (putReg_pc ..) (putReg_getS _ _ _)

end

/-! ### The words of BINIT (spec/12_barriers_and_counters.md R206) -/

theorem slice_low (x : Word) (n : Nat) (h : n ≤ 64) : slice x 0 n = x.setWidth n := (BitVec.setWidth_eq_extractLsb' h).symm

theorem barWords_low (P : BitVec 4) (Q : BitVec 24) (C : BitVec 32) (S : Int) : (barWords P Q C S).1.toNat =
    C.toNat * 2 ^ 32 + Q.toNat * 2 ^ 8 + P.toNat := by
  change ((C ++ Q ++ 0#4 ++ P : BitVec (32 + 24 + 4 + 4))).toNat = _
  rw [Laws.toNat_append_eq_add, Laws.toNat_append_eq_add, Laws.toNat_append_eq_add, BitVec.toNat_ofNat]
  omega

theorem barWords_high (P : BitVec 4) (Q : BitVec 24) : (barWords P Q 0#32 0).2 = 0xB700000000000000#64 := by
  change 0xB7#8 ++ 0#16 ++ BitVec.ofInt 40 0 = _
  decide

theorem barWords_parts (P : BitVec 4) (Q : BitVec 24) : barTag (barWords P Q 0#32 0).2 = 0xB7#8 ∧ barP (barWords P Q 0#32 0).1 = P ∧
    barQ (barWords P Q 0#32 0).1 = Q ∧ barC (barWords P Q 0#32 0).1 = 0#32 ∧ barS (barWords P Q 0#32 0).2 = 0 := by
  have hlow := barWords_low P Q 0#32 0
  have hP := P.isLt
  have hQ := Q.isLt
  refine ⟨by rw [barWords_high]; decide, ?_, ?_, ?_, by rw [barWords_high]; decide⟩ <;> apply BitVec.eq_of_toNat_eq
  · rw [barP, slice_toNat, hlow, BitVec.toNat_ofNat]; omega
  · rw [barQ, slice_toNat, hlow, BitVec.toNat_ofNat]; omega
  · rw [barC, slice_toNat, hlow, BitVec.toNat_ofNat]; omega

/-! ### The barrier forms (spec/17_engine_and_system_instructions.md R316 to R318) -/

/-- What BINIT does at its object's home. -/
def binitHome (q : BitVec 24) (p : BitVec 2) (pa : Nat) (comp : Bool) (s : State) : State :=
  (homeWrite s (some s.cur) pa (bvBytes (barWords (if barTag (barRead s pa).2 = 0xB7#8 then barP (barRead s pa).1 else 0#4) q 0#32 0).1 ++
    bvBytes (barWords (if barTag (barRead s pa).2 = 0xB7#8 then barP (barRead s pa).1 else 0#4) q 0#32 0).2) comp).upd (fun t => t.retire p)

/-- What BTEST does. -/
def btestHome (va : Word) (b : BitVec 5) (p : BitVec 2) (pa : Nat) (comp : Bool) (s : State) : State :=
  withTag va pa (fun ph s => s.upd (fun t => { t.setS b (zext64 ph) with watch := some (.mem pa comp, ph) }.retire p)) s

/-- What BWAIT does. -/
def bwaitHome (va : Word) (v : BitVec 4) (p : BitVec 2) (pa : Nat) (comp : Bool) (s : State) : State :=
  withTag va pa (fun ph s => if ph ≠ v then s.upd (fun t => t.retire p)
    else s.upd (fun t => { t with wait := .bwait (.mem pa comp) va v p })) s

section

variable (s : State) (a b c : BitVec 5) (p w : BitVec 2)

theorem exec_binit : exec (.binit a b p w) s =
    barForm ⟨.binit (slice (s.me.getS b) 0 24), false, false, p, w⟩ a (binitHome (slice (s.me.getS b) 0 24) p) s := rfl
theorem exec_bexp : exec (.bexp a b p w) s =
    barForm ⟨.barrier 0 (sectorsOf (s.me.getS b)) none, false, false, p, w⟩ a (homeUpdate a none 0 (sectorsOf (s.me.getS b)) p) s := rfl
theorem exec_barr : exec (.barr a b p w) s = barForm ⟨.barrier 1 0 (some b), true, false, p, w⟩ a (homeUpdate a (some b) 1 0 p) s := rfl
theorem exec_bexparr : exec (.bexparr a b c p w) s =
    barForm ⟨.barrier 1 (sectorsOf (s.me.getS b)) (some c), true, false, p, w⟩ a (homeUpdate a (some c) 1 (sectorsOf (s.me.getS b)) p) s := rfl
theorem exec_pend : exec (.pend a b p w) s = barForm ⟨.barrier 1 0 (some b), true, true, p, w⟩ a (homeUpdate a (some b) 1 0 p) s := rfl
theorem exec_btest : exec (.btest a b p w) s = barForm ⟨.btest b, false, false, p, w⟩ a (btestHome (s.me.getS a) b p) s := rfl
theorem exec_bwait : exec (.bwait a b p w) s =
    barForm ⟨.bwait (slice (s.me.getS b) 0 4), false, false, p, w⟩ a (bwaitHome (s.me.getS a) (slice (s.me.getS b) 0 4) p) s := rfl

end

theorem sectorsOf_eq (x : Word) : sectorsOf x = (x.setWidth 40).toInt := by rw [sectorsOf, slice_low x 40 (by decide)]

section

variable {s s1 : State} {a b c : BitVec 5} {p w : BitVec 2} {pa : Nat} {comp : Bool} {P : BitVec 4} {Q : BitVec 24} {C : BitVec 32} {S : Int}

theorem withTag_good {va : Word} {f : BitVec 4 → State → State} {v : State} (h : barTag (barRead v pa).2 = 0xB7#8) :
    withTag va pa f v = f (barP (barRead v pa).1) v := by
  unfold withTag
  exact if_neg (not_not.mpr h)

theorem withTag_bad {va : Word} {f : BitVec 4 → State → State} {v : State} (h : barTag (barRead v pa).2 ≠ 0xB7#8) :
    withTag va pa f v = raise (barTrap .barrierTag va) v := by
  unfold withTag
  exact if_pos h

theorem memoryKept_same {v : State} (h : v.mem = s1.mem) : MemoryKept s1 v (within pa 16) := fun x _ => by rw [h]

/-- What BINIT writes: the phase of a good object, 0 of another. -/
theorem barrierDone_binit (hready : BarrierReady s a p w pa comp s1)
    (hP : (if barTag (barRead s1 pa).2 = 0xB7#8 then barP (barRead s1 pa).1 else 0#4) = P) :
    BarrierDone (.binit a b p w) s s1 pa none P (fun t => ObjectIs t pa P ((s.me.getS b).setWidth 24) 0#32 0) := by
  obtain ⟨tok, tokRes, hform⟩ := barForm_ready ⟨.binit (slice (s.me.getS b) 0 24), false, false, p, w⟩ (binitHome (slice (s.me.getS b) 0 24) p) hready
  have hplace := actsIn_inPlace (onlyHomes_locate hready.2.2.1) tok tokRes
  rw [← barRead_congr (actsIn_mem tok tokRes)] at hP
  have hkeep := fun {t v0 v1} => memoryKept_words (v := s1) (t := t) (v0 := v0) (v1 := v1) (pa := pa)
  rw [← actsIn_mem tok tokRes] at hkeep
  generalize actsIn s1 tok tokRes = v at hform hplace hP hkeep
  rw [binitHome, hP, slice_low _ 24 (by decide)] at hform
  obtain ⟨htag, hPw, hQw, hCw, hSw⟩ := barWords_parts P ((s.me.getS b).setWidth 24)
  have hmem := mem_homeWrite v (some v.cur) pa (bvBytes (barWords P ((s.me.getS b).setWidth 24) 0#32 0).1 ++
    bvBytes (barWords P ((s.me.getS b).setWidth 24) 0#32 0).2) comp
  exact barrierDone_of_retire ((exec_binit s a b p w).trans hform) (hplace.of_me (by rw [me_homeWrite_self]) (by rw [me_homeWrite_self]))
    (hkeep hmem) (objectIs_of_words (barRead_of_mem hmem) htag hPw hQw hCw hSw) rfl rfl (regs_none _ P)

/-- BEXP of no sectors only looks at the tag. -/
theorem barrierDone_bexp_nothing (hready : BarrierReady s a p w pa comp s1) (hobject : ObjectIs s1 pa P Q C S)
    (hnone : sectorsOf (s.me.getS b) = 0) : BarrierDone (.bexp a b p w) s s1 pa none P (fun t => ObjectIs t pa P Q C S) := by
  have hexec := exec_bexp s a b p w
  rw [hnone] at hexec
  obtain ⟨tok, tokRes, hform⟩ := barForm_ready ⟨.barrier 0 0 none, false, false, p, w⟩ (homeUpdate a none 0 0 p) hready
  have hplace := actsIn_inPlace (onlyHomes_locate hready.2.2.1) tok tokRes
  have hmem := actsIn_mem (s1 := s1) tok tokRes
  generalize actsIn s1 tok tokRes = v at hform hplace hmem
  have hv := hobject.of_mem hmem
  obtain ⟨htag, hP, -⟩ := hv
  rw [homeUpdate_good (barUpdate_nothing htag), hP] at hform
  exact barrierDone_of_retire (hexec.trans hform) hplace (memoryKept_same hmem) (hobject.of_mem hmem) rfl rfl (regs_none _ P)

theorem barrierDone_btest (hready : BarrierReady s a p w pa comp s1) (hobject : ObjectIs s1 pa P Q C S) :
    BarrierDone (.btest a b p w) s s1 pa (some b) P (fun t => ObjectIs t pa P Q C S ∧ t.me.watch = some (.mem pa comp, P)) := by
  obtain ⟨tok, tokRes, hform⟩ := barForm_ready ⟨.btest b, false, false, p, w⟩ (btestHome (s.me.getS a) b p) hready
  have hplace := actsIn_inPlace (onlyHomes_locate hready.2.2.1) tok tokRes
  have hmem := actsIn_mem (s1 := s1) tok tokRes
  generalize actsIn s1 tok tokRes = v at hform hplace hmem
  have hv := hobject.of_mem hmem
  obtain ⟨htag, hP, -⟩ := hv
  rw [btestHome, withTag_good htag, hP] at hform
  refine barrierDone_of_retire (u := { v.me.setS b (zext64 P) with watch := some (.mem pa comp, P) }) ((exec_btest s a b p w).trans hform) hplace
    (memoryKept_same hmem) ⟨hobject.of_mem hmem, ?_⟩ rfl (Strand.setS_pc ..) (regs_some v.me b P)
  rw [me_upd]
  exact (retire_spec ..).2.2.2.1

theorem barrierDone_bwait (hready : BarrierReady s a p w pa comp s1) (hobject : ObjectIs s1 pa P Q C S) (hleft : (s.me.getS b).setWidth 4 ≠ P) :
    BarrierDone (.bwait a b p w) s s1 pa none P (fun t => ObjectIs t pa P Q C S) := by
  obtain ⟨tok, tokRes, hform⟩ := barForm_ready ⟨.bwait (slice (s.me.getS b) 0 4), false, false, p, w⟩
    (bwaitHome (s.me.getS a) (slice (s.me.getS b) 0 4) p) hready
  have hplace := actsIn_inPlace (onlyHomes_locate hready.2.2.1) tok tokRes
  have hmem := actsIn_mem (s1 := s1) tok tokRes
  generalize actsIn s1 tok tokRes = v at hform hplace hmem
  have hv := hobject.of_mem hmem
  obtain ⟨htag, hP, -⟩ := hv
  rw [← exec_bwait, bwaitHome, withTag_good htag, hP, slice_low _ 4 (by decide), if_pos (Ne.symm hleft)] at hform
  exact barrierDone_of_retire hform hplace (memoryKept_same hmem) (hobject.of_mem hmem) rfl rfl (regs_none _ P)

theorem bwait_waits (hready : BarrierReady s a p w pa comp s1) (hobject : ObjectIs s1 pa P Q C S) (hsame : (s.me.getS b).setWidth 4 = P) :
    ∃ t, exec (.bwait a b p w) s = .next t ∧ t.me.wait = .bwait (.mem pa comp) (s.me.getS a) P p ∧ t.me.pc = s.me.pc ∧ t.mem = s1.mem := by
  obtain ⟨tok, tokRes, hform⟩ := barForm_ready ⟨.bwait (slice (s.me.getS b) 0 4), false, false, p, w⟩
    (bwaitHome (s.me.getS a) (slice (s.me.getS b) 0 4) p) hready
  have hplace := actsIn_inPlace (onlyHomes_locate hready.2.2.1) tok tokRes
  have hmem := actsIn_mem (s1 := s1) tok tokRes
  generalize actsIn s1 tok tokRes = v at hform hplace hmem
  have hv := hobject.of_mem hmem
  obtain ⟨htag, hP, -⟩ := hv
  rw [← exec_bwait, bwaitHome, withTag_good htag, hP, slice_low _ 4 (by decide), hsame, if_neg (not_not.mpr rfl)] at hform
  refine ⟨_, hform, ?_, ?_, hmem⟩
  · rw [me_upd]
  · rw [me_upd]
    exact hplace.2

end

/-- Settles O32: an update writes the two words that `barStep` gives, and makes no record within its bounds. -/
theorem barrierForms : Obligations.BarrierForms := by
  unfold Obligations.BarrierForms
  intro s s1 a b c p w pa comp P Q C S hready hobject dS fits after
  have hS : -(2 ^ 39) ≤ S + 0 ∧ S + 0 < 2 ^ 39 := by
    rw [Int.add_zero, ← hobject.2.2.2.2]
    exact barS_bounds _
  have hsectors : sectorsOf (s.me.getS b) = dS := sectorsOf_eq _
  have hafter : ∀ (n : Nat) (x : Int), (fun t => if C.toNat + n = Q.toNat ∧ x = 0 then ObjectIs t pa (P + 1#4) Q 0#32 0
      else ObjectIs t pa P Q (BitVec.ofNat 32 (C.toNat + n)) x) = after (C.toNat + n) x := fun _ _ => rfl
  refine ⟨?_, fun hsome hfit => ?_, fun hnone => ?_, fun hlt => ?_, fun hlt => ?_, fun hlt hfit => ?_, ?_, ?_, ?_⟩
  · exact barrierDone_binit hready (by rw [if_pos hobject.1, hobject.2.1])
  · have h := barrierDone_of_update (exec_bexp s a b p w) hready hobject (by rw [hsectors]; exact fun h => hsome h.2) (.inl rfl)
      (by rw [hsectors]; exact hfit.1) (by rw [hsectors]; exact hfit.2)
    rwa [hsectors, hafter] at h
  · exact barrierDone_bexp_nothing hready hobject (hsectors.trans hnone)
  · have h := barrierDone_of_update (exec_barr s a b p w) hready hobject (by omega) (.inr ⟨rfl, hlt⟩) hS.1 hS.2
    rwa [hafter, Int.add_zero] at h
  · have h := barrierDone_of_update (exec_pend s a b p w) hready hobject (by omega) (.inr ⟨rfl, hlt⟩) hS.1 hS.2
    rwa [hafter, Int.add_zero] at h
  · have h := barrierDone_of_update (exec_bexparr s a b c p w) hready hobject (by omega) (.inr ⟨rfl, hlt⟩)
      (by rw [hsectors]; exact hfit.1) (by rw [hsectors]; exact hfit.2)
    rwa [hsectors, hafter] at h
  · exact barrierDone_btest hready hobject
  · exact barrierDone_bwait hready hobject
  · exact bwait_waits hready hobject

/-! ### Barrier forms on a misaligned object or a bad tag (spec/12_barriers_and_counters.md R210) -/

section

variable {s s1 : State} {a b c : BitVec 5} {p w : BitVec 2} {pa : Nat} {comp : Bool}

theorem traps_of_barForm {i : Instr} {x : BarForm} {home : Nat → Bool → State → State} (hexec : exec i s = barForm x a home s)
    (htokens : (sTokens s.me x.push x.pop).isSome = true) (hcanon : (s.me.getS a).toNat < 2 ^ 52) (hnear : inNear (s.me.getS a).toNat = false)
    (halign : (s.me.getS a).toNat % 16 ≠ 0) (hrun : s.me.phase = .running) :
    Traps i s (ownRecord s .align .barrier (s.me.getS a) 0#32 false) := by
  obtain ⟨t1, ht1⟩ := Option.isSome_iff_exists.mp htokens
  refine traps_of_raise (hexec.trans ?_) hrun
  unfold barForm
  dsimp only
  rw [ht1]
  dsimp only
  rw [hnear, locate_align hcanon halign]
  dsimp only
  rw [raiseFail_at]
  rfl

/-- The strand has taken BARRIER_TAG, with memory and every register as they were. -/
def TakesTag (i : Instr) (s s1 : State) (va : Word) : Prop :=
  ∃ t r, exec i s = .next t ∧ t.mem = s1.mem ∧ t.me.phase = .parked ∧ t.me.fault = some r ∧ r.cls = .barrierTag ∧ r.akind = .barrier ∧
    r.va = va ∧ r.pc = s.me.pc ∧ ∀ x, t.me.getS x = s.me.getS x

theorem actsIn_phase (h : OnlyHomes s s1) (tok tokRes : Tokens) : (actsIn s1 tok tokRes).me.phase = s.me.phase := by
  obtain ⟨ls, hls⟩ := h.me
  rw [actsIn, me_upd, hls]

/-- A form whose home finds a bad tag. -/
theorem takesTag_of_barForm {i : Instr} {x : BarForm} {home : Nat → Bool → State → State} (hexec : exec i s = barForm x a home s)
    (hready : BarrierReady s a x.push x.pop pa comp s1) (hrun : s.me.phase = .running)
    (hhome : ∀ v, v.mem = s1.mem → v.me.getS a = s.me.getS a → home pa comp v = raise (barTrap .barrierTag (s.me.getS a)) v) :
    TakesTag i s s1 (s.me.getS a) := by
  obtain ⟨tok, tokRes, hform⟩ := barForm_ready x home hready
  have hhomes := onlyHomes_locate hready.2.2.1
  have hplace := actsIn_inPlace hhomes tok tokRes
  have hphase := (actsIn_phase hhomes tok tokRes).trans hrun
  have hmem := actsIn_mem (s1 := s1) tok tokRes
  generalize actsIn s1 tok tokRes = v at hform hplace hmem hphase
  rw [hhome v hmem (getS_of_s hplace.1 a)] at hform
  obtain ⟨_, hparked, hfault, _, _, hframe⟩ := raise_spec (barTrap .barrierTag (s.me.getS a)) v hphase
  have hregs := congrArg Strand.s hframe
  exact ⟨_, _, hexec.trans hform, hmem, hparked, hfault, rfl, rfl, rfl, hplace.2, fun r => getS_of_s (hregs.trans hplace.1) r⟩

/-- The barrier forms other than BINIT. -/
def tagForms (a b c : BitVec 5) (p w : BitVec 2) : List Instr :=
  [.bexp a b p w, .barr a b p w, .bexparr a b c p w, .pend a b p w, .btest a b p w, .bwait a b p w]

theorem traps_of_align (htokens : (sTokens s.me p w).isSome = true) (hcanon : (s.me.getS a).toNat < 2 ^ 52)
    (hnear : inNear (s.me.getS a).toNat = false) (halign : (s.me.getS a).toNat % 16 ≠ 0) (hrun : s.me.phase = .running) :
    ∀ i ∈ .binit a b p w :: tagForms a b c p w, Traps i s (ownRecord s .align .barrier (s.me.getS a) 0#32 false) := by
  have htraps := fun {i x home} hexec ht => traps_of_barForm (s := s) (a := a) (i := i) (x := x) (home := home) hexec ht hcanon hnear halign hrun
  simp only [tagForms, List.forall_mem_cons]
  exact ⟨htraps (exec_binit s a b p w) htokens, htraps (exec_bexp s a b p w) htokens, htraps (exec_barr s a b p w) htokens,
    htraps (exec_bexparr s a b c p w) htokens, htraps (exec_pend s a b p w) htokens, htraps (exec_btest s a b p w) htokens,
    htraps (exec_bwait s a b p w) htokens, List.forall_mem_nil _⟩

theorem takesTag_forms (hready : BarrierReady s a p w pa comp s1) (htag : barTag (barRead s1 pa).2 ≠ 0xB7#8) (hrun : s.me.phase = .running) :
    ∀ i ∈ tagForms a b c p w, TakesTag i s s1 (s.me.getS a) := by
  have hbad : ∀ v : State, v.mem = s1.mem → barTag (barRead v pa).2 ≠ 0xB7#8 := fun v h => by rwa [barRead_congr h]
  have hupdate : ∀ d dA dS (v : State), v.mem = s1.mem → v.me.getS a = s.me.getS a →
      homeUpdate a d dA dS p pa comp v = raise (barTrap .barrierTag (s.me.getS a)) v := fun d dA dS v hmem ha => by
    rw [homeUpdate_bad (hbad v hmem), ha]
  simp only [tagForms, List.forall_mem_cons]
  exact ⟨takesTag_of_barForm (exec_bexp s a b p w) hready hrun (hupdate _ _ _), takesTag_of_barForm (exec_barr s a b p w) hready hrun (hupdate _ _ _),
    takesTag_of_barForm (exec_bexparr s a b c p w) hready hrun (hupdate _ _ _), takesTag_of_barForm (exec_pend s a b p w) hready hrun (hupdate _ _ _),
    takesTag_of_barForm (exec_btest s a b p w) hready hrun fun v hmem _ => withTag_bad (hbad v hmem),
    takesTag_of_barForm (exec_bwait s a b p w) hready hrun fun v hmem _ => withTag_bad (hbad v hmem), List.forall_mem_nil _⟩

end

theorem engineBar_bad {s : State} {q : BitVec 6} {sid : BitVec 11} {pa dA : Nat} {comp : Bool} {dS : Int} (htag : barTag (barRead s pa).2 ≠ 0xB7#8)
    (hsome : dA ≠ 0 ∨ dS ≠ 0) : engineBar s q sid (.mem pa comp) dA dS =
      (true, errLog (some q) (dieOfPa pa) sid 0x07 pa (barTag (barRead s pa).2).toNat s) := by
  unfold engineBar
  rw [if_neg (by omega)]
  dsimp only
  rw [barUpdate_bad htag]

/-- Settles O33: the address is looked at before everything else, and the tag before the object is changed. -/
theorem barrierAlignAndTag : Obligations.BarrierAlignAndTag := by
  unfold Obligations.BarrierAlignAndTag
  intro s s1 a b c p w pa comp hrun va forms
  exact ⟨fun htokens hcanon hnear halign => traps_of_align htokens hcanon hnear halign hrun,
    fun hready htag => ⟨barrierDone_binit hready (if_neg htag), takesTag_forms hready htag hrun⟩,
    fun q sid dA dS htag hsome => engineBar_bad htag hsome⟩

/-! ### Waits end (spec/17_engine_and_system_instructions.md R318, R334, R335) -/

section

variable {s : State} {q : Nat}

theorem strand_updSlot_self (s : State) (q : Nat) (f : Strand → Strand) : (s.updSlot q f).strand q = f (s.strand q) := by
  rw [strand_updSlot, if_pos rfl]

theorem exec_bwaitWake (s : State) : exec .bwaitWake s = execBwaitWake s := rfl

theorem bwaitWake_left {va : Word} {p : BitVec 2} (hrun : (s.strand s.arg.slot).phase = .running)
    (hlook : bwaitLook s (s.strand s.arg.slot).wait = some (va, p, true)) :
    ∃ t, exec .bwaitWake s = .next t ∧ PackageKept s t ∧ (t.strand s.arg.slot).phase = .running ∧
      (t.strand s.arg.slot).pc = (s.strand s.arg.slot).pc + 4#64 ∧ (t.strand s.arg.slot).wait = .none := by
  obtain ⟨-, hpc, -, -, hwait, hphase⟩ := retire_spec (s.strand s.arg.slot) p
  refine ⟨s.updSlot s.arg.slot (fun t => t.retire p), ?_, packageKept_updSlot .., ?_⟩
  · rw [exec_bwaitWake, execBwaitWake]
    rw [if_neg (not_not.mpr hrun), hlook]
  · rw [strand_updSlot_self]
    exact ⟨hphase.trans hrun, hpc, hwait⟩

theorem bwaitWake_tag {va : Word} {p : BitVec 2} (hrun : (s.strand s.arg.slot).phase = .running)
    (hlook : bwaitLook s (s.strand s.arg.slot).wait = some (va, p, false)) :
    ∃ t, exec .bwaitWake s = .next t ∧ PackageKept s t ∧ SlotParked s t s.arg.slot .barrierTag := by
  refine ⟨raiseAt s s.arg.slot (s.strand s.arg.slot).pc (barTrap .barrierTag va), ?_, packageKept_updSlot .., ?_⟩
  · rw [exec_bwaitWake, execBwaitWake]
    rw [if_neg (not_not.mpr hrun), hlook]
  · unfold SlotParked raiseAt
    rw [strand_updSlot_self, hrun]
    exact ⟨rfl, rfl, fun _ => rfl, _, rfl, rfl, rfl, rfl⟩

/-- What a wait entry finds at an object. -/
theorem bwaitLook_eq (s : State) (pl : Place) (va : Word) (v : BitVec 4) (p : BitVec 2) : bwaitLook s (.bwait pl va v p) =
    if barTag (barRead s (placeKey pl).2).2 ≠ 0xB7#8 then some (va, p, false)
    else if barP (barRead s (placeKey pl).2).1 ≠ v then some (va, p, true) else none := rfl

/-- The strand once its wait entry has looked. -/
def looked (s : State) (t : Strand) : Strand :=
  match bwaitLook s t.wait with
  | some (va, p, left) => { t with wait := .bwaitOver va p left }
  | none => t

theorem looked_of_none {t : Strand} (h : bwaitLook s t.wait = none) : looked s t = t := by rw [looked, h]

theorem strand_lookAtWaits (s : State) (j : Nat) : (lookAtWaits s).strand j = looked s (s.strand j) := by
  unfold lookAtWaits
  dsimp only
  split
  next hall =>
    symm
    refine looked_of_none ?_
    refine tabGet_map_rel (R := fun u _ => bwaitLook s u.wait = none) Strand.empty rfl id s.strands (fun kt hkt => ⟨rfl, ?_⟩) j
    exact Option.isNone_iff_eq_none.mp (List.all_eq_true.mp hall kt hkt)
  next =>
    refine tabGet_map_rel (R := fun u v => v = looked s u) Strand.empty rfl _ s.strands (fun kt _ => ?_) j
    rw [looked]
    cases hlook : bwaitLook s kt.2.wait with
    | none => exact ⟨rfl, rfl⟩
    | some x => exact ⟨rfl, rfl⟩

theorem wait_lookAtWaits {j : Nat} {pl : Place} {va : Word} {v : BitVec 4} {p : BitVec 2} (h : (s.strand j).wait = .bwait pl va v p) :
    ((lookAtWaits s).strand j).wait = if barTag (barRead s (placeKey pl).2).2 ≠ 0xB7#8 then .bwaitOver va p false
      else if barP (barRead s (placeKey pl).2).1 ≠ v then .bwaitOver va p true else .bwait pl va v p := by
  rw [strand_lookAtWaits]
  by_cases htag : barTag (barRead s (placeKey pl).2).2 = 0xB7#8
  · rw [if_neg (not_not.mpr htag)]
    by_cases hP : barP (barRead s (placeKey pl).2).1 = v
    · rw [if_neg (not_not.mpr hP), looked_of_none (by rw [h, bwaitLook_eq, if_neg (not_not.mpr htag), if_neg (not_not.mpr hP)]), h]
    · rw [if_pos hP, looked, h, bwaitLook_eq, if_neg (not_not.mpr htag), if_pos hP]
  · rw [if_pos htag, looked, h, bwaitLook_eq, if_pos htag]

/-! ### WFE and WSB -/

theorem exec_wfe (s : State) (a : BitVec 5) : exec (.wfe a) s = execWfe a s := rfl
theorem exec_wfeTimeout (s : State) : exec .wfeTimeout s = execWfeTimeout s := rfl
theorem exec_wsb (s : State) (m : BitVec 7) : exec (.wsb m) s = execWsb m s := rfl

/-- WFE takes the event flag. -/
theorem wfe_takes {a : BitVec 5} (hflag : s.me.evFlag = true) : ∃ t, exec (.wfe a) s = .next t ∧ OnlyMe s t ∧ t.me.evFlag = false ∧
    WentOn s.me { t.me with evFlag := s.me.evFlag } (s.me.pc + 4#64) := by
  have hme : ∀ t, exec (.wfe a) s = .next t → t.me = { s.me with evFlag := false }.next := by
    rintro _ ⟨⟩
    exact (me_upd s _).trans (if_pos hflag)
  refine ⟨_, (exec_wfe s a).trans rfl, onlyMe_upd s _, congrArg Strand.evFlag (hme _ rfl), ?_⟩
  have h := congrArg (fun u : Strand => { u with evFlag := s.me.evFlag }) (hme _ rfl)
  exact wentOn_of_frame (u := s.me) (r := s.me) rfl h

theorem wfe_waits {a : BitVec 5} (hflag : s.me.evFlag = false) (hwait : s.me.wait = .none) :
    ∃ t, exec (.wfe a) s = .next t ∧ OnlyMe s t ∧ t.me.wait = .wfe s.cycle (s.me.getS a) ∧ t.me.pc = s.me.pc := by
  refine ⟨_, (exec_wfe s a).trans rfl, onlyMe_upd s _, ?_, ?_⟩ <;> rw [me_upd, hflag, hwait]
  · rfl
  · rfl

theorem wfe_ends {since : Nat} {n : Word} (hwait : (s.strand s.arg.slot).wait = .wfe since n) (hrun : (s.strand s.arg.slot).phase = .running)
    (hn : n ≠ 0#64) (hdue : since + n.toNat ≤ s.cycle) : ∃ t, exec .wfeTimeout s = .next t ∧ PackageKept s t ∧
      (t.strand s.arg.slot).pc = (s.strand s.arg.slot).pc + 4#64 ∧ (t.strand s.arg.slot).wait = .none ∧ (t.strand s.arg.slot).evFlag = false := by
  refine ⟨s.updSlot s.arg.slot (fun t => { t with evFlag := false }.next), ?_, packageKept_updSlot .., ?_⟩
  · rw [exec_wfeTimeout, execWfeTimeout]
    rw [hwait]
    exact if_pos ⟨hrun, hn, hdue⟩
  · rw [strand_updSlot_self]
    exact ⟨rfl, rfl, rfl⟩

/-- A mask of slots 1 to 7 has no bit of slot 0. -/
theorem slots_getLsbD (m : BitVec 7) (i : Nat) : (m ++ 0#1).getLsbD i = (decide (0 < i) && m.getLsbD (i - 1)) := by
  rw [BitVec.getLsbD_append]
  cases i with
  | zero => rfl
  | succ i => simp

theorem slots_and_all (x : BitVec 8) (m : BitVec 7) : x &&& (m ++ 0#1) &&& 0xFE#8 = x &&& (m ++ 0#1) := by
  apply BitVec.eq_of_getLsbD_eq
  intro i hi
  rw [BitVec.getLsbD_and, BitVec.getLsbD_and, slots_getLsbD]
  have hall : (0xFE#8).getLsbD i = decide (0 < i) := by
    revert i
    decide
  rw [hall]
  cases decide (0 < i) <;> simp

theorem slots_none {x : BitVec 8} {m : BitVec 7} (h : ∀ j, j < 7 → m.getLsbD j = true → x.getLsbD (j + 1) = false) : x &&& (m ++ 0#1) = 0#8 := by
  apply BitVec.eq_of_getLsbD_eq
  intro i hi
  rw [BitVec.getLsbD_and, slots_getLsbD]
  cases i with
  | zero => simp
  | succ i =>
    cases hm : m.getLsbD i with
    | false => simp [hm]
    | true => simp [h i (by omega) hm]

/-- Settles O34: what ends a wait is what its entry finds at the object, or the tick that its limit names. -/
theorem waitsEnd : Obligations.WaitsEnd := by
  unfold Obligations.WaitsEnd
  intro s a m q u
  refine ⟨fun pl va v p hwait hrun htag hP => ?_, fun j pl va v p hwait => wait_lookAtWaits hwait, fun va p left hwait hrun => ?_, wfe_takes,
    wfe_waits, fun since n hwait hrun hn hdue => wfe_ends hwait hrun hn hdue, fun hready => ?_, fun hpending => ?_⟩
  · obtain ⟨t, hexec, hkept, -, hpc, hnone⟩ := bwaitWake_left (va := va) (p := p) hrun (by
      rw [show (s.strand s.arg.slot).wait = _ from hwait, bwaitLook_eq, if_neg (not_not.mpr htag), if_pos hP])
    exact ⟨t, hexec, hkept, hpc, hnone⟩
  · cases left with
    | true =>
      obtain ⟨t, hexec, hkept, hend⟩ := bwaitWake_left (va := va) (p := p) hrun (by rw [show (s.strand s.arg.slot).wait = _ from hwait]; rfl)
      exact ⟨t, hexec, hkept, fun _ => hend, fun h => nomatch h⟩
    | false =>
      obtain ⟨t, hexec, hkept, hend⟩ := bwaitWake_tag (va := va) (p := p) hrun (by rw [show (s.strand s.arg.slot).wait = _ from hwait]; rfl)
      exact ⟨t, hexec, hkept, fun h => (nomatch h), fun _ => hend⟩
  · refine yieldsPc_of_next ?_
    rw [exec_wsb, execWsb, waitSlots_ready ((slots_and_all ..).trans (slots_none fun j hj hm => (hready j hj hm).1))
      (slots_none fun j hj hm => (hready j hj hm).2)]
  · rw [exec_wsb, execWsb, waitSlots_pending (by rwa [slots_and_all])]

end

/-! ### Tokens of a strand in EXIT (spec/17_engine_and_system_instructions.md R320) -/

/-- Nothing is under way for the current strand, which waits in EXIT. -/
def exiting : State := State.reset.setStrand 0 { Strand.empty with wait := .exit }

theorem me_exiting : exiting.me = { Strand.empty with wait := .exit } := rfl

theorem exec_tokp (s : State) (p : BitVec 2) : exec (.tokp p) s = execTokp p s := rfl

/-- A TOKP of a strand in EXIT pushes no token. -/
theorem tokp_exiting : ∃ t, exec (.tokp 1#2) exiting = .next t ∧ t.me.tok.sm = 0#4 := by
  rw [exec_tokp]
  exact ⟨_, rfl, rfl⟩

/-- Refutes O35: a token of a TOKP is not there when the strand waits in EXIT, although nothing earlier is under way. -/
theorem not_tokensAndGuards : ¬ Obligations.TokensAndGuards := by
  unfold Obligations.TokensAndGuards
  intro h
  obtain ⟨-, -, -, -, htokp, -⟩ := h exiting 0#5 0#4
  obtain ⟨t, hexec, -, htok, -⟩ := htokp rfl rfl rfl (by decide)
  obtain ⟨v, hv, hzero⟩ := tokp_exiting
  rw [hexec] at hv
  cases hv
  rw [htok] at hzero
  exact absurd hzero (by decide)

end Sys2Proof.Machine
end

section
/-! PROOFS. Vector memory (O25 to O27) -/

set_option Elab.async false

namespace Sys2Proof.Machine

open Sys2Proof

/-! ### The element write of a VSC: slot numbers that name an engine's list -/

/-- The element write of one byte of a VSC, to HBM. -/
def oneByteVsc : Access := Access.plain 1 (.vsc 1#64 0#3 []) 0 (.mem 0 false) 1 0 .vectorStore

/-- A state whose argument names the list of join decrements, and whose table of strands has an entry of that number. -/
def joinListVsc : State :=
  { State.reset with
    arg := { State.reset.arg with slot := 1152, idx := 0 }
    strands := [(1152, { Strand.empty with phase := .running, out := [oneByteVsc] })] }

theorem exec_accessPerformed_joinListVsc : exec .accessPerformed joinListVsc = .next joinListVsc := rfl

/-- Refutes O27: no hypothesis of the part about VSC says that the slot is one of the package's 1,152, and 1,152 as the slot of
ACCESS_PERFORMED names the list of join decrements (`execAccessPerformed`): an element write in an entry of that number is not performed. -/
theorem not_vectorAccessesEnd : ¬ Obligations.VectorAccessesEnd := by
  unfold Obligations.VectorAccessesEnd
  rintro ⟨-, h, -⟩
  obtain ⟨t, hexec, -, -, hacks, -⟩ := h joinListVsc 1152 0 1 0 1#64 0#3 [] false oneByteVsc rfl rfl rfl rfl rfl rfl rfl rfl (by decide)
    (by decide) (by decide) (by decide)
  rw [exec_accessPerformed_joinListVsc] at hexec
  cases hexec
  exact absurd hacks (by decide)

/-! ### VRRED: elements whose pages lie against the order of their addresses -/

/-- A translation of one word, of the first core's stream. -/
def wordPage (base pa : Nat) : TlbEntry := ⟨0, 0#6, 0, base, 2, pa, true, true, false, true, 0#2, 0#10⟩

/-- Two elements of FP32 are to be added at addresses 0 and 4, whose translations lie at 64 and at 0 of one line. -/
def crossedPages : State :=
  { State.reset.setStrand 0 ({ Strand.empty with phase := .running, vl := 2#12 }.setS 1#5 0x10001#64) with
    tlb := [wordPage 0 64, wordPage 4 0] }

def crossedElems : List Elem := [⟨0, 0#64, .mem 64 false⟩, ⟨1, 4#64, .mem 0 false⟩]

theorem todo_crossedPages : crossedPages.me.todo 0#3 = [0, 1] := by decide +kernel

theorem checkElems_crossedPages : checkElems crossedPages.cur 4 .readWrite acceptsFar crossedPages [(0, 0#64), (1, 4#64)] =
    (crossedElems, none, crossedPages) := rfl

theorem elementsPass_crossedPages : ElementsPass crossedPages 0#3 0#3 ⟨[⟨0, 32⟩], [], [], [], [0], []⟩ 4 .readWrite acceptsFar
    ((crossedPages.me.todo 0#3).map (fun i => (i, crossedPages.me.getS 0#5 + BitVec.ofNat 64 (4 * i)))) crossedElems crossedPages := by
  rw [todo_crossedPages]
  exact ⟨rfl, rfl, checkElems_crossedPages, by decide⟩

/-- How many bytes each outstanding access of the current strand spans. -/
def outSizes : Out → List Nat
  | .next t => t.me.out.map Access.n
  | _ => []

theorem outSizes_crossedPages : outSizes (exec (.vrred 0#5 0#5 1#5 0#3 0#3 0#3 0#1) crossedPages) = [68] := by decide +kernel

theorem groups_eq_of_flatten {α : Type} {gs : List (List α)} {els : List α} (h : gs.flatten = els) (hlen : gs.length = 1) : gs = [els] := by
  obtain ⟨g, rfl⟩ := List.length_eq_one_iff.mp hlen
  rw [← h, List.flatten_singleton]

/-- Refutes O26: no hypothesis says that elements of one line rise in their home's addresses as they do in their own, and a VRRED spans all
bytes of the line from its least address to its greatest, where the statement spans those from its first element to its last. -/
theorem not_vectorStoresIssue : ¬ Obligations.VectorStoresIssue := by
  unfold Obligations.VectorStoresIssue
  rintro ⟨-, -, h, -⟩
  obtain ⟨gs, hflat, -, -, t, hexec, -, -, hout, -⟩ := (h crossedPages crossedPages 0#5 0#5 1#5 0#3 0#3 0#3 0#1 crossedElems (by decide)
    (by decide) (by decide) (by decide) elementsPass_crossedPages).1 rfl
  have hsizes := outSizes_crossedPages
  rw [hexec] at hsizes
  change t.me.out.map Access.n = [68] at hsizes
  rw [hout, show crossedPages.me.out = [] from rfl, List.nil_append] at hsizes
  have hlen : gs.length = 1 := by simpa using congrArg List.length hsizes
  rw [groups_eq_of_flatten hflat hlen] at hsizes
  exact absurd (List.cons.inj hsizes).1 (by decide)

/-! ### Vector accesses that leave (spec/15_vector_instructions.md R279, R280) -/

section

variable {s s1 t : State} {k n : Nat} {need : Need} {acc : Accepts}

theorem onlyHomes_checkElems {l : List (Nat × Word)} {els : List Elem} {f : Option (Nat × Failure)}
    (h : checkElems k n need acc s l = (els, f, s1)) : OnlyHomes s s1 := by
  induction l generalizing s els f with
  | nil =>
    cases h
    exact OnlyHomes.refl _
  | cons x l ih =>
    rw [checkElems] at h
    cases hloc : locate s (streamCtx s k) x.2 n n need acc with
    | error e =>
      rw [hloc] at h
      cases h
      exact OnlyHomes.refl _
    | ok p =>
      rw [hloc] at h
      dsimp only at h
      cases hfault : elemFault p.2 k p.1 n need with
      | some c =>
        rw [hfault] at h
        cases h
        exact onlyHomes_locate hloc
      | none =>
        rw [hfault] at h
        cases h
        exact (onlyHomes_locate hloc).trans (ih rfl)

/-- Elements that have all passed are those that were asked for, in their order. -/
theorem lanes_checkElems {l : List (Nat × Word)} {els : List Elem} (h : checkElems k n need acc s l = (els, none, s1)) :
    els.map (fun e => (e.lane, e.va)) = l := by
  induction l generalizing s els with
  | nil =>
    cases h
    rfl
  | cons x l ih =>
    rw [checkElems] at h
    cases hloc : locate s (streamCtx s k) x.2 n n need acc with
    | error e =>
      rw [hloc] at h
      cases h
    | ok p =>
      rw [hloc] at h
      dsimp only at h
      cases hfault : elemFault p.2 k p.1 n need with
      | some c =>
        rw [hfault] at h
        cases h
      | none =>
        rw [hfault] at h
        cases hrest : checkElems k n need acc p.2 l with
        | mk els' q =>
          rw [hrest] at h
          obtain ⟨f, s2⟩ := q
          cases h
          rw [List.map_cons, ih hrest]

/-- Accesses join the outstanding ones of the current strand, in their order. -/
def sendAll (l : List Access) (u : State) : State := l.foldl (fun u a => post u u.cur a) u

/-- An access to this package that has not left. -/
def Unsent (a : Access) : Prop := isRemote a.place = false ∧ a.tag = none ∧ a.sent = false

theorem sendAll_spec (l : List Access) (h : ∀ a ∈ l, Unsent a) : PackageKept s (sendAll l s) ∧
    (∀ j, j ≠ s.cur → SameButCounts (s.strand j) ((sendAll l s).strand j)) ∧
    SameButCounts { s.me with out := s.me.out ++ l } ((sendAll l s).strand s.cur) := by
  induction l generalizing s with
  | nil =>
    rw [List.append_nil]
    exact ⟨rfl, fun j _ => rfl, rfl⟩
  | cons a l ih =>
    obtain ⟨hremote, htag, hsent⟩ := h a (List.mem_cons_self ..)
    obtain ⟨hkept, hothers, hmine⟩ := post_spec s s.cur a hremote
    have ha : ({ a with tag := none, sent := false } : Access) = a := by rw [← htag, ← hsent]
    rw [ha] at hmine
    obtain ⟨hkept', hothers', hmine'⟩ := ih (s := post s s.cur a) fun b hb => h b (List.mem_cons_of_mem _ hb)
    rw [hkept.cur] at hothers' hmine'
    refine ⟨hkept.trans hkept', fun j hj => (hothers j hj).trans (hothers' j hj), ?_⟩
    rw [State.me, hkept.cur, hmine.eq] at hmine'
    rw [← List.singleton_append, ← List.append_assoc]
    exact SameButCounts.trans (v := { s.me with
      out := s.me.out ++ [a] ++ l
      perfCnt := ((post s s.cur a).strand s.cur).perfCnt }) rfl hmine'

/-- The access that a checked element sends. -/
def Leave.access (x : Leave) (q since : Nat) (a : Elem × Nat × AccessOp) : Access :=
  { Access.plain q a.2.2 a.1.va.toNat a.1.place a.2.1 since x.akind with
    elem := a.1.lane
    sb := x.ss
    ff := x.ff && decide ((x.els.map Elem.lane).headD 0 < a.1.lane)
    trunc := x.trunc }

/-- Does a group of accesses leave whole, at once, all to this package, without being counted as scatters? -/
structure Leave.Whole (x : Leave) : Prop where
  passes : x.fail = none
  loads : x.scatter = false
  here : ∀ a ∈ x.accs false, isRemote a.1.place = false
  near : ∀ e ∈ x.els, isRemote e.place = false

theorem tagsFree_of_all_local (die : Nat) {l : List Place} (h : ∀ p ∈ l, isRemote p = false) : tagsFree s die l = true := by
  have hnone : l.filter isRemote = [] := by simpa [List.filter_eq_nil_iff] using h
  simp [tagsFree, hnone]

theorem vmLeave_whole {x : Leave} (h : x.Whole) (fin : Strand → Strand) (s0 : State) : vmLeave x fin s0 s =
    .next (((sendAll ((x.accs false).map (x.access (s.seq + 1) s.cycle)) s.nextSeq.2).upd (fun u => u.setSlot x.ss (s.seq + 1))).upd
      (fun u => { fin u with vl := cutVl (fin u).vl x.trunc }.next)) := by
  obtain ⟨hfail, hscatter, hhere, hnear⟩ := h
  have hany : (x.els.map Elem.place).any isRemote = false := by
    rw [List.any_eq_false]
    simpa using hnear
  rw [vmLeave]
  simp only [hfail, hscatter, hany, Option.isSome_none, Bool.and_false, Bool.or_false, Bool.false_eq_true, if_false, Bool.false_and]
  rw [tagsFree_of_all_local _ (List.forall_mem_map.mpr hhere), sendAll, List.foldl_map]
  rfl

theorem unsent_access {x : Leave} (h : x.Whole) (q since : Nat) : ∀ a ∈ (x.accs false).map (x.access q since), Unsent a :=
  List.forall_mem_map.mpr fun a ha => ⟨h.here a ha, rfl, rfl⟩

theorem setSlot_eq (u : Strand) (ss : BitVec 3) (q : Nat) :
    u.setSlot ss q = { u with sbPend := (u.setSlot ss q).sbPend, sbOwner := (u.setSlot ss q).sbOwner } := by
  unfold Strand.setSlot
  split <;> rfl

theorem getLsbD_setSlot (u : Strand) (ss : BitVec 3) (q : Nat) {j : Nat} (hj : j < 8) :
    (u.setSlot ss q).sbPend.getLsbD j = (u.sbPend.getLsbD j || (decide (ss ≠ 0#3) && j == ss.toNat)) := by
  unfold Strand.setSlot
  by_cases h : ss = 0#3
  · rw [if_pos h, h]
    simp
  · rw [if_neg h]
    dsimp only
    rw [getLsbD_putBit _ _ _ hj]
    by_cases hjs : j = ss.toNat <;> simp [h, hjs]

/-- The state when a group of accesses has left whole: they have joined the outstanding ones, slot ss is pending, VL is cut where the form cuts
it, and the strand has gone on. -/
theorem vmLeave_spec {x : Leave} (h : x.Whole) (s0 : State) : ∃ t c, vmLeave x id s0 s = .next t ∧ PackageCounted s t ∧
    (∀ j, j ≠ s.cur → SameButCounts (s.strand j) (t.strand j)) ∧ t.cur = s.cur ∧
    t.me = { (({ s.me with
      out := s.me.out ++ (x.accs false).map (x.access (s.seq + 1) s.cycle)
      perfCnt := c } : Strand).setSlot x.ss (s.seq + 1)) with vl := cutVl s.me.vl x.trunc }.next := by
  obtain ⟨hkept, hothers, hmine⟩ := sendAll_spec (s := s.nextSeq.2) _ (unsent_access h (s.seq + 1) s.cycle)
  rw [vmLeave_whole h id s0]
  generalize sendAll ((x.accs false).map (x.access (s.seq + 1) s.cycle)) s.nextSeq.2 = v at hkept hothers hmine ⊢
  have hcur : v.cur = s.cur := hkept.cur
  have hme : v.me = { s.me with
      out := s.me.out ++ (x.accs false).map (x.access (s.seq + 1) s.cycle)
      perfCnt := v.me.perfCnt } := by
    rw [State.me, hcur]
    exact hmine.eq
  refine ⟨_, v.me.perfCnt, rfl, ?_, fun j hj => ?_, hcur, ?_⟩
  · exact ((packageCounted_nextSeq s).trans hkept.counted).trans ((onlyMe_upd v _).1.trans (onlyMe_upd _ _).1).counted
  · rw [strand_upd, if_neg (by exact fun h => hj (h.trans hcur)), strand_upd, if_neg (fun h => hj (h.trans hcur))]
    exact hothers j hj
  · rw [me_upd, me_upd, ← hme]
    have hvl : (v.me.setSlot x.ss (s.seq + 1)).vl = s.me.vl :=
      (congrArg Strand.vl (setSlot_eq ..)).trans (show v.me.vl = s.me.vl by rw [hme])
    generalize v.me.setSlot x.ss (s.seq + 1) = w at hvl ⊢
    rw [← hvl]
    rfl

/-- A form whose accesses leave whole and that cuts no VL has issued them. -/
theorem issuesElements_of_vmLeave {i : Instr} {x : Leave} {s0 : State} (h : x.Whole) (htrunc : x.trunc = none) (hhomes : OnlyHomes s s1)
    (hexec : exec i s = vmLeave x id s0 s1) : IssuesElements i s s1 x.ss ((x.accs false).map (x.access (s1.seq + 1) s1.cycle)) [] := by
  obtain ⟨t, c, hgo, hcounted, hothers, hcur, hme⟩ := vmLeave_spec (s := s1) h s0
  rw [htrunc, setSlot_eq] at hme
  refine ⟨t, hexec.trans hgo, hcounted, ?_, ?_, fun j hj => ?_, fun j => ?_, ?_⟩
  · rw [← hhomes.cur]
    exact OthersKept.of_same hothers
  · rw [hme]
    rfl
  · rw [hme]
    exact getLsbD_setSlot _ _ _ hj
  · rw [hme, List.count_nil, Nat.add_zero]
    rfl
  · rw [hme, ← hhomes.pc]
    exact wentOn_next s1.me

/-! ### Loads (spec/15_vector_instructions.md R281 to R283) -/

theorem exec_vld (s : State) (v a : BitVec 5) (k w ss : BitVec 3) : exec (.vld v a k w ss) s = execVld v a k w ss s := rfl
theorem exec_vlds (s : State) (v a b : BitVec 5) (k w ss : BitVec 3) : exec (.vlds v a b k w ss) s = execVlds v a b k w ss s := rfl
theorem exec_vldx (s : State) (v a b : BitVec 5) (k w ss : BitVec 3) (c : BitVec 1) : exec (.vldx v a b k w ss c) s = execVldx v a b k w ss c s := rfl
theorem exec_vgl (s : State) (v a b : BitVec 5) (k w ss : BitVec 3) (c : BitVec 1) : exec (.vgl v a b k w ss c) s = execVgl v a b k w ss c s := rfl
theorem exec_vldff (s : State) (v a : BitVec 5) (k w ss : BitVec 3) : exec (.vldff v a k w ss) s = execVldff v a k w ss s := rfl

/-- A form whose gate is open runs. -/
theorem vmForm_go {sw ss : BitVec 3} {addr : List VOp} {f : VForm} {body : State → Out} (hslot : slotGate s.me sw ss = .ready)
    (hgate : vGate s.me f = .go) : vmForm sw ss addr f body s = body s := by
  rw [vmForm, hslot, hgate]

/-- What a load sends when all its elements pass. -/
def loadLeave (u : Strand) (v : BitVec 5) (linked : Elem → Bool) (ss : BitVec 3) (ff : Bool) (trunc : Option Nat) (els : List Elem) : Leave :=
  ⟨els, none, .vectorLoad, ss, true, false, ff, trunc, loadAccs u v linked els⟩

theorem loadLeave_whole {u : Strand} {v : BitVec 5} {linked : Elem → Bool} {ss : BitVec 3} {ff : Bool} {trunc : Option Nat} {els : List Elem}
    (h : ∀ e ∈ els, isRemote e.place = false) : (loadLeave u v linked ss ff trunc els).Whole :=
  ⟨rfl, rfl, List.forall_mem_map.mpr h, h⟩

theorem loadForm_pass {addr : Strand → Nat → Word} {idx : List (BitVec 5)} {linked : List Elem → Elem → Bool} {v : BitVec 5}
    {k w ss : BitVec 3} {els : List Elem} (h : ElementsPass s w ss ⟨idx.map s.me.sewOp, [s.me.sewOp v], [], [], [k.toNat], []⟩
      (s.me.sewBits / 8) .read acc ((s.me.todo k).map (fun i => (i, addr s.me i))) els s1) :
    loadForm addr idx acc linked v k w ss s = vmLeave (loadLeave s.me v (linked els) ss false none els) id s s1 := by
  obtain ⟨hslot, hgate, hcheck, -⟩ := h
  rw [loadForm, vmForm_go hslot hgate]
  dsimp only
  rw [hcheck]
  rfl

theorem loads_of_pass {i : Instr} {addr : Strand → Nat → Word} {idx : List (BitVec 5)} {linked : List Elem → Elem → Bool} {v : BitVec 5}
    {k w ss : BitVec 3} {els : List Elem} (hexec : exec i s = loadForm addr idx acc linked v k w ss s)
    (h : ElementsPass s w ss ⟨idx.map s.me.sewOp, [s.me.sewOp v], [], [], [k.toNat], []⟩
      (s.me.sewBits / 8) .read acc ((s.me.todo k).map (fun i => (i, addr s.me i))) els s1) :
    IssuesElements i s s1 ss (els.map (fun e => elemAccess s1 e (s.me.sewBits / 8)
      (.vload (v.toNat + e.lane * s.me.sewBits / 16384) (e.lane * s.me.sewBits % 16384) (linked els e)) .vectorLoad ss)) [] := by
  have hissues := issuesElements_of_vmLeave (loadLeave_whole h.2.2.2) rfl (onlyHomes_checkElems h.2.2.1) (hexec.trans (loadForm_pass h))
  have haccs : ∀ x : Leave, x = loadLeave s.me v (linked els) ss false none els →
      (x.accs false).map (x.access (s1.seq + 1) s1.cycle) = els.map (fun e => elemAccess s1 e (s.me.sewBits / 8)
        (.vload (v.toNat + e.lane * s.me.sewBits / 16384) (e.lane * s.me.sewBits % 16384) (linked els e)) .vectorLoad ss) := by
    rintro x rfl
    exact List.map_map
  rw [haccs _ rfl] at hissues
  exact hissues

/-! The addresses of elements (spec/15_vector_instructions.md R279). -/

theorem unitAddr_eq (u : Strand) (a : BitVec 5) (i : Nat) : unitAddr u a i = BitVec.ofNat 64 ((u.getS a).toNat + i * (u.sewBits / 8)) := by
  rw [unitAddr, BitVec.ofNat_add, BitVec.ofNat_toNat, BitVec.setWidth_eq]

theorem strideAddr_eq (u : Strand) (a b : BitVec 5) (i : Nat) :
    strideAddr u a b i = BitVec.ofNat 64 ((u.getS a).toNat + i * (u.getS b).toNat) := by
  rw [strideAddr, BitVec.ofNat_add, BitVec.ofNat_mul, BitVec.ofNat_toNat, BitVec.setWidth_eq, BitVec.ofNat_toNat, BitVec.setWidth_eq]

theorem indexAddr_eq (u : Strand) (a b : BitVec 5) (i : Nat) :
    indexAddr u a b i = BitVec.ofNat 64 ((u.getS a).toNat + u.elem (u.sewOp b) i * (u.sewBits / 8)) := by
  rw [indexAddr, BitVec.ofNat_add, BitVec.ofNat_toNat, BitVec.setWidth_eq]

/-! VLDFF (spec/15_vector_instructions.md R282). -/

/-- The accesses of a VLDFF: those past its first element may truncate VL. -/
def firstFaultLoads (s1 : State) (u : Strand) (v : BitVec 5) (ss : BitVec 3) (trunc : Option Nat) (els : List Elem) : List Access :=
  els.map (fun e => { elemAccess s1 e (u.sewBits / 8)
    (.vload (v.toNat + e.lane * u.sewBits / 16384) (e.lane * u.sewBits % 16384) false) .vectorLoad ss with
      ff := decide ((els.map Elem.lane).headD 0 < e.lane)
      trunc := trunc })

theorem map_access_firstFault (s1 : State) (u : Strand) (v : BitVec 5) (ss : BitVec 3) (trunc : Option Nat) (els : List Elem) :
    ((loadLeave u v (fun _ => false) ss true trunc els).accs false).map ((loadLeave u v (fun _ => false) ss true trunc els).access (s1.seq + 1) s1.cycle) =
      firstFaultLoads s1 u v ss trunc els :=
  List.map_map

theorem vldff_pass {v a : BitVec 5} {k w ss : BitVec 3} {els : List Elem}
    (h : ElementsPass s w ss ⟨[], [s.me.sewOp v], [], [], [k.toNat], []⟩ (s.me.sewBits / 8) .read acceptsPlain
      ((s.me.todo k).map (fun i => (i, unitAddr s.me a i))) els s1) :
    IssuesElements (.vldff v a k w ss) s s1 ss (firstFaultLoads s1 s.me v ss none els) [] := by
  obtain ⟨hslot, hgate, hcheck, hnear⟩ := h
  have hexec : exec (.vldff v a k w ss) s = vmLeave (loadLeave s.me v (fun _ => false) ss true none els) id s s1 := by
    rw [exec_vldff, execVldff, vmForm_go hslot hgate]
    dsimp only
    rw [hcheck]
    rfl
  rw [← map_access_firstFault]
  exact issuesElements_of_vmLeave (loadLeave_whole hnear) rfl (onlyHomes_checkElems hcheck) hexec


/-! What a failed access and the error ring leave (spec/12_barriers_and_counters.md R214, R386). -/

theorem onlyHomes_ringAppend {at_ : State → Nat → Nat → Option (Nat × State)} (hat : ∀ u a m p u', at_ u a m = some (p, u') → OnlyHomes u u')
    {base : Nat} {bs : List Byte} (h : ringAppend at_ base bs s = some t) : OnlyHomes s t := by
  unfold ringAppend at h
  cases h1 : at_ s base 64 with
  | none =>
    rw [h1] at h
    cases h
  | some x =>
    rw [h1] at h
    dsimp only at h
    have hx := hat _ _ _ _ _ h1
    split at h
    · cases h
      exact hx.trans (onlyHomes_homeWrite ..)
    · split at h
      · cases h
        exact hx.trans (onlyHomes_homeWrite ..)
      · split at h
        · cases h
        next h2 =>
          cases h
          exact ((hx.trans (hat _ _ _ _ _ h2)).trans (onlyHomes_homeWrite ..)).trans (onlyHomes_homeWrite ..)

theorem onlyHomes_ringAt {p : BitVec 6} {va m pa : Nat} (h : ringAt p s va m = some (pa, t)) : OnlyHomes s t := by
  unfold ringAt at h
  split at h
  next hloc =>
    split at h
    · cases h
    · cases h
      exact onlyHomes_locate hloc
  · cases h

theorem onlyHomes_hypRingAt {va m pa : Nat} (h : hypRingAt s va m = some (pa, t)) : OnlyHomes s t := by
  unfold hypRingAt at h
  split at h
  · cases h
    exact OnlyHomes.refl s
  · cases h

theorem onlyHomes_hypLog (bs : List Byte) (s : State) : OnlyHomes s (hypLog bs s) := by
  unfold hypLog
  dsimp only
  split
  · exact OnlyHomes.refl s
  · cases h : ringAppend hypRingAt (slice s.hvring 0 52).toNat bs s with
    | none => exact OnlyHomes.refl s
    | some t => exact onlyHomes_ringAppend (fun _ _ _ _ _ => onlyHomes_hypRingAt) h

theorem onlyHomes_errLog (p : Option (BitVec 6)) (die : Nat) (sid : BitVec 11) (code addr detail : Nat) (s : State) :
    OnlyHomes s (errLog p die sid code addr detail s) := by
  cases p with
  | none => exact onlyHomes_hypLog ..
  | some q =>
    unfold errLog
    dsimp only
    cases h : ringAppend (ringAt q) (s.part q).errRing (errRecord code die sid addr s.cycle detail) s with
    | none => exact onlyHomes_hypLog ..
    | some t => exact onlyHomes_ringAppend (fun _ _ _ _ _ => onlyHomes_ringAt) h

theorem onlyHomes_afterFail (p : BitVec 6) (sid : BitVec 11) (f : Failure) (s : State) : OnlyHomes s (afterFail p sid f s) := by
  have hmend : OnlyHomes s (mendPtes f s) := (onlyHomes_writePtes _ _).trans (onlyHomes_hold _ _)
  unfold afterFail
  cases f.stack with
  | none => exact hmend
  | some m => exact hmend.trans (onlyHomes_errLog ..)

theorem vldff_cut {v a : BitVec 5} {k w ss : BitVec 3} {e0 : Elem} {els : List Elem} {e : Nat} {f : Failure} (hslot : slotGate s.me w ss = .ready)
    (hgate : vGate s.me ⟨[], [s.me.sewOp v], [], [], [k.toNat], []⟩ = .go)
    (hcheck : checkElems s.cur (s.me.sewBits / 8) .read acceptsPlain s ((s.me.todo k).map (fun i => (i, unitAddr s.me a i))) =
      (e0 :: els, some (e, f), s1)) (hnear : ∀ x ∈ e0 :: els, isRemote x.place = false) {s2 : State}
    (hs2 : s2 = afterFail s.me.part (sidOf s.cur) f s1) :
    ∃ t, exec (.vldff v a k w ss) s = .next t ∧ PackageCounted s2 t ∧ t.me.vl = BitVec.ofNat 12 e ∧ t.me.fault = s1.me.fault ∧
      t.me.phase = s1.me.phase ∧ t.me.pc = s.me.pc + 4#64 ∧ t.me.out = s2.me.out ++ firstFaultLoads s2 s.me v ss (some e) (e0 :: els) := by
  have hhomes : OnlyHomes s1 s2 := hs2 ▸ onlyHomes_afterFail ..
  obtain ⟨ls, hls⟩ := hhomes.me
  obtain ⟨t, c, hgo, hcounted, -, -, hme⟩ := vmLeave_spec (s := s2) (loadLeave_whole (u := s.me) (v := v) (linked := fun _ => false) (ss := ss)
    (ff := true) (trunc := some e) hnear) s
  have hexec : exec (.vldff v a k w ss) s = vmLeave (loadLeave s.me v (fun _ => false) ss true (some e) (e0 :: els)) id s s2 := by
    rw [exec_vldff, execVldff, vmForm_go hslot hgate]
    dsimp only
    rw [hcheck, hs2]
    rfl
  rw [map_access_firstFault, setSlot_eq] at hme
  have hpc : s2.me.pc = s.me.pc := hhomes.pc.trans (onlyHomes_checkElems hcheck).pc
  have hfault : s2.me.fault = s1.me.fault := by rw [hls]
  have hphase : s2.me.phase = s1.me.phase := by rw [hls]
  refine ⟨t, hexec.trans hgo, hcounted, ?_, ?_, ?_, ?_, ?_⟩ <;> rw [hme]
  · rfl
  · exact hfault
  · exact hphase
  · exact congrArg (· + 4#64) hpc
  · rfl

end

/-! ### The timeout of a load that truncates VL (spec/15_vector_instructions.md R282, spec/05_memories.md R97) -/

section

variable {s : State} {k i : Nat} {a : Access}

theorem exec_remoteTimeout (s : State) : exec .remoteTimeout s = execRemoteTimeout s := rfl

/-- Replacing a member that a filter drops by another that it drops leaves what the filter keeps. -/
theorem filter_setNth {α : Type} {p : α → Bool} {x y : α} {l : List α} {i : Nat} (h : l[i]? = some x) (hx : p x = false) (hy : p y = false) :
    (setNth l i y).filter p = l.filter p := by
  induction l generalizing i with
  | nil => rfl
  | cons z l ih =>
    cases i with
    | zero =>
      cases h
      rw [setNth, List.filter_cons_of_neg (by rw [hy]; exact Bool.false_ne_true), List.filter_cons_of_neg (by rw [hx]; exact Bool.false_ne_true)]
    | succ i => rw [setNth, List.filter_cons, List.filter_cons, ih h]

/-- A marked load that fails ends its instruction, and VL with it. -/
theorem failBlocking_truncates {b : Access} (c : FaultClass) (hff : b.ff = true) (s : State) (k : Nat) :
    (failBlocking s k b c).mem = s.mem ∧ ∃ wf, (failBlocking s k b c).strand k =
      (({ s.strand k with
        out := (s.strand k).out.filter (fun x => x.seq != b.seq)
        wakesFar := wf
        vl := BitVec.ofNat 12 b.elem } : Strand).flush).retire b.push := by
  unfold failBlocking
  dsimp only
  rw [if_pos hff]
  obtain ⟨l, hl⟩ := foldl_tags_eq (fun u x => if x = b || !x.sent then giveTag u x.tag else dropTag u x.tag)
    (fun u x => by
      split
      · exact giveTag_eq u x.tag
      · exact dropTag_eq u x.tag) ((s.strand k).out.filter (fun x => x.seq == b.seq)) s
  rw [hl, strand_updSlot_self, strand_updSlot_self]
  exact ⟨rfl, _, rfl⟩

theorem retire_vl (t : Strand) (p : BitVec 2) : (t.retire p).vl = t.vl ∧ (t.retire p).fault = t.fault ∧ (t.retire p).out = t.out ∧
    (t.retire p).v = t.v := by
  obtain ⟨tok, tokRes, tokNew, ev, h⟩ := pushToken_frame t .s p
  rw [Strand.retire, h]
  exact ⟨rfl, rfl, rfl, rfl⟩

theorem remoteTimeout_truncates (harg : s.arg.timeout = .access k i) (hget : (s.strand k).out[i]? = some a) (hff : a.ff = true)
    (hblocks : a.blocks = true) (hkind : a.akind = .vectorLoad) (hsent : a.sent = true) (hdue : a.since + s.remto ≤ s.cycle)
    (hfirst : ∀ b ∈ (s.strand k).out.take i, b.seq ≠ a.seq) :
    ∃ t, exec .remoteTimeout s = .next t ∧ (t.strand k).vl = BitVec.ofNat 12 a.elem ∧ (t.strand k).pc = (s.strand k).pc + 4#64 ∧
        (t.strand k).phase = (s.strand k).phase ∧ (t.strand k).fault = (s.strand k).fault ∧
        (t.strand k).out = (s.strand k).out.filter (fun b => b.seq != a.seq) ∧ (t.strand k).v = (s.strand k).v ∧ t.mem = s.mem := by
  have hheld : ((s.strand k).out.take i).any (fun b => b.seq == a.seq) = false := by
    rw [List.any_eq_false]
    exact fun b hb => by simpa using hfirst b hb
  have hover : overdue s a.since = true := decide_eq_true hdue
  obtain ⟨l, hl⟩ := dropTag_eq s a.tag
  have hexec : exec .remoteTimeout s = .next (failBlocking ((dropTag s a.tag).updSlot k (fun t => { t with
      out := setNth t.out i { a with tag := none } })) k { a with tag := none } .remoteTimeout) := by
    rw [exec_remoteTimeout, execRemoteTimeout, harg]
    dsimp only
    rw [accessTimeout, hget]
    simp only [hsent, hover, hheld, Bool.and_false, Bool.not_true, Bool.or_false, Bool.false_eq_true, if_false]
    simp only [accessFails, lostLog, hblocks, hkind]
    rfl
  rw [hl] at hexec
  generalize hu : State.updSlot { s with tags := l } k (fun t => { t with out := setNth t.out i { a with tag := none } }) = u at hexec
  have hstrand : u.strand k = { s.strand k with out := setNth (s.strand k).out i { a with tag := none } } := by
    rw [← hu, strand_updSlot_self]
    rfl
  have hmem : u.mem = s.mem := by rw [← hu]; rfl
  have hout : (u.strand k).out.filter (fun x => x.seq != a.seq) = (s.strand k).out.filter (fun x => x.seq != a.seq) := by
    rw [hstrand]
    exact filter_setNth hget (bne_self_eq_false _) (bne_self_eq_false _)
  obtain ⟨hmem', wf, hfail⟩ := failBlocking_truncates (b := { a with tag := none }) .remoteTimeout hff u k
  generalize hv : ({ u.strand k with
    out := (u.strand k).out.filter (fun x => x.seq != a.seq)
    wakesFar := wf
    vl := BitVec.ofNat 12 a.elem } : Strand) = v at hfail
  obtain ⟨tok, tokRes, tokNew, ev, tokps, hflush⟩ := flush_frame v
  obtain ⟨-, hpc, -, -, -, hphase⟩ := retire_spec v.flush a.push
  obtain ⟨hvl, hfault, houts, hregs⟩ := retire_vl v.flush a.push
  have hsame : v.flush.vl = BitVec.ofNat 12 a.elem ∧ v.flush.pc = (s.strand k).pc ∧ v.flush.phase = (s.strand k).phase ∧
      v.flush.fault = (s.strand k).fault ∧ v.flush.out = (s.strand k).out.filter (fun b => b.seq != a.seq) ∧ v.flush.v = (s.strand k).v := by
    rw [hflush, ← hv, ← hout, hstrand]
    exact ⟨rfl, rfl, rfl, rfl, rfl, rfl⟩
  obtain ⟨h1, h2, h3, h4, h5, h6⟩ := hsame
  refine ⟨_, hexec, ?_, ?_, ?_, ?_, ?_, ?_, hmem'.trans hmem⟩ <;> rw [hfail]
  · exact hvl.trans h1
  · exact hpc.trans (congrArg (· + 4#64) h2)
  · exact hphase.trans h3
  · exact hfault.trans h4
  · exact houts.trans h5
  · exact hregs.trans h6

end

/-- Settles O25: what passes its checks leaves as one group of accesses, and a marked load that fails truncates VL. -/
theorem vectorLoadsIssue : Obligations.VectorLoadsIssue := by
  unfold Obligations.VectorLoadsIssue
  refine ⟨?_, ?_, fun s k i a harg hget hff hblocks hkind hsent hdue hfirst =>
    remoteTimeout_truncates harg hget hff hblocks hkind hsent hdue hfirst⟩
  · intro s s1 v a b k w ss c els u n plainForm indexForm loads at_ unit stride index
    have hunit : unitAddr u a = unit := funext (unitAddr_eq u a)
    have hstride : strideAddr u a b = stride := funext (strideAddr_eq u a b)
    have hindex : indexAddr u a b = index := funext (indexAddr_eq u a b)
    rw [← hunit, ← hstride, ← hindex]
    refine ⟨fun hpass => ⟨?_, ?_, lanes_checkElems hpass.2.2.1⟩, fun hpass => ?_, fun hpass => ?_, fun hpass => ?_⟩
    · exact loads_of_pass (exec_vld s v a k w ss) hpass
    · have h := vldff_pass hpass
      rw [firstFaultLoads] at h
      rw [List.map_map]
      exact h
    · exact loads_of_pass (exec_vlds s v a b k w ss) hpass
    · exact loads_of_pass (exec_vldx s v a b k w ss c) hpass
    · exact loads_of_pass (exec_vgl s v a b k w ss c) hpass
  · intro s s1 v a k w ss e0 els e f u n hslot hgate hcheck hnear s2
    exact vldff_cut hslot hgate hcheck hnear rfl

end Sys2Proof.Machine
end

section
/-! PROOFS. The matrix queue and its registers (O28 to O31, O60) -/

set_option Elab.async false

namespace Sys2Proof.Machine

open Sys2Proof

/-! ### A matrix command that completes: a table of frames out of order -/

/-- A started command that writes register 1, with its result in frame 5. -/
def startedCommand : MCommand where
  id := 1
  ins := .tzero 0#5 0#2 0#2
  pc := 0#64
  dst := some 1
  srcs := []
  release := []
  grant := Strand.empty.tsh
  fmt := 0#64
  base := 0#64
  stride := 0#64
  vals := []
  vsrc := []
  vdst := []
  pop := 0#2
  push := 0#2
  started := true
  since := 0
  frame := some 5
  faulted := false
  tag := none
  out := false
  vold := []
  vover := []

/-- A frame of the first strand. -/
def plainFrame : Frame := ⟨17301504, 0, 0#6, 0, false, 0#262144, []⟩

/-- The first strand has one started command and two frames, its quota, whose table lists them out of order. -/
def unsortedFrames : State :=
  { State.reset.setStrand 0 { Strand.empty with phase := .running, fq := 2#9, mq := [startedCommand] } with
    arg := { State.reset.arg with slot := 0, num := 1 }
    frames := [(9, plainFrame), (5, plainFrame)] }

/-- The state of register 1 of the strand in slot 0. -/
def stateOfOne : Out → BitVec 3
  | .next t => ((t.strand 0).entry 1).state
  | _ => 0#3

theorem stateOfOne_unsortedFrames : stateOfOne (exec .mCommandRetire unsortedFrames) = 5#3 := by decide +kernel

theorem tilePlaces_startedCommand (s : State) : tilePlaces s 0 startedCommand = .ok ([], s) := rfl

theorem resultRegister_noFrame : ∀ r ∈ startedCommand.dst.toList ++ startedCommand.release,
    holdsFrame ((unsortedFrames.strand 0).entry r).state = true →
      tabHas unsortedFrames.frames (0 * 256 + ((unsortedFrames.strand 0).entry r).frame.toNat) = true ∧
        startedCommand.frame ≠ some ((unsortedFrames.strand 0).entry r).frame.toNat := by
  decide +kernel

/-- Refutes O30: no hypothesis says that the table of frames is in its order. In one that is not, the frame of the result is listed twice when
it is written (`tabSet`), which is one frame more than FQ, and the register of the result is spilled at once. -/
theorem not_matrixCommandRetires : ¬ Obligations.MatrixCommandRetires := by
  unfold Obligations.MatrixCommandRetires
  rintro ⟨h, -⟩
  have hdone := (h unsortedFrames unsortedFrames startedCommand [] rfl rfl (by decide +kernel) (by decide +kernel) rfl rfl
    (by decide +kernel) (tilePlaces_startedCommand _) (by decide +kernel) (fun f hf => by cases hf; decide +kernel) resultRegister_noFrame).1 rfl
  obtain ⟨t, hexec, hdone, -⟩ := hdone
  obtain ⟨-, -, -, -, hdst⟩ := hdone
  have hstate := stateOfOne_unsortedFrames
  rw [hexec] at hstate
  exact absurd ((hdst 1 5 rfl rfl (List.not_mem_nil)).1.symm.trans hstate) (by decide)

/-! ### M instructions enter the queue (spec/16_matrix_instructions.md R289) -/

section

variable {s : State} {i : Instr} {x : MSpec} {after : Strand → Strand} {A S : Option (Nat × Bool)}

theorem markOf_eq_none {u : Strand} {regs : List Nat} (h : ∀ m ∈ u.marks, m.reg ∉ regs) (c : FaultClass) : u.markOf regs c = none := by
  rw [Strand.markOf, List.find?_eq_none.mpr, Option.map_none]
  intro m hm
  simp [h m hm]

/-- The command that an M instruction appends, with these sources. -/
def MSpec.command (x : MSpec) (id : Nat) (u : Strand) (srcs : List (Nat × Source)) : MCommand := {
  id := id
  ins := x.ins
  pc := u.pc
  dst := x.dst
  srcs := srcs
  release := x.release
  grant := u.tsh
  fmt := x.fmt
  base := x.base
  stride := x.stride
  vals := x.vin.map u.getV
  vsrc := x.vin
  vdst := x.vout
  pop := x.pop
  push := x.push
  started := false
  since := 0
  frame := none
  faulted := false
  tag := none
  out := false
  vold := []
  vover := [] }

/-- Naming registers changes their LSEQ alone. -/
theorem nameRegs_spec (seq : BitVec 16) (regs : List Nat) (u : Strand) : ∃ m, nameRegs u seq regs = { u with map := m } ∧
    ∀ r, ((nameRegs u seq regs).entry r).state = (u.entry r).state ∧ ((nameRegs u seq regs).entry r).frame = (u.entry r).frame := by
  induction regs generalizing u with
  | nil => exact ⟨u.map, rfl, fun _ => ⟨rfl, rfl⟩⟩
  | cons r regs ih =>
    obtain ⟨m, hm, hent⟩ := ih (u.setEntry r { u.entry r with lseq := seq })
    refine ⟨m, hm, fun n => ?_⟩
    have hone : ((u.setEntry r { u.entry r with lseq := seq }).entry n).state = (u.entry n).state ∧
        ((u.setEntry r { u.entry r with lseq := seq }).entry n).frame = (u.entry n).frame := by
      unfold Strand.setEntry Strand.entry
      rw [tabGet_tabPut]
      split
      next h => rw [h]; exact ⟨rfl, rfl⟩
      next => exact ⟨rfl, rfl⟩
    exact ⟨(hent n).1.trans hone.1, (hent n).2.trans hone.2⟩

theorem appendCommand_spec (x : MSpec) (id : Nat) (u : Strand) : ∃ m b, appendCommand x id u = { u with
      mq := u.mq ++ [x.command id u (x.srcs.map fun r => (r, bindReg u r))]
      mseq := u.mseq + 1#16
      bound := b
      map := m } ∧
    ∀ r, ((appendCommand x id u).entry r).state = (u.entry r).state ∧ ((appendCommand x id u).entry r).frame = (u.entry r).frame := by
  unfold appendCommand
  dsimp only
  generalize hb : List.foldl _ _ x.release = b
  generalize hv : ({ u with mq := _, mseq := _, bound := b } : Strand) = v
  obtain ⟨m, hm, hent⟩ := nameRegs_spec (u.mseq + 1#16) (x.srcs ++ x.dst.toList ++ x.names) v
  refine ⟨m, b, hm.trans ?_, fun r => ?_⟩
  · rw [← hv]
    rfl
  · rw [(hent r).1, (hent r).2, ← hv]
    exact ⟨rfl, rfl⟩

/-- An M instruction that its queue takes joins it, with these sources; `after` sets the designations of the planes, and may set the sources. -/
theorem enqueuesM_of_mIssue {srcs : List (Nat × Source)} (hexec : exec i s = mIssue x after s) (hi : x.ins = i)
    (htakes : QueueTakes s.me x.vin x.vout)
    (hafter : ∀ m b, after { s.me with
        mq := s.me.mq ++ [x.command (s.seq + 1) s.me (x.srcs.map fun r => (r, bindReg s.me r))]
        mseq := s.me.mseq + 1#16
        bound := b
        map := m } = { s.me with
        mq := s.me.mq ++ [x.command (s.seq + 1) s.me srcs]
        mseq := s.me.mseq + 1#16
        bound := b
        map := m
        active := A
        shadow := S }) :
    EnqueuesM i s x.dst srcs x.release x.fmt x.base x.stride x.vin x.vout x.push x.pop A S := by
  obtain ⟨hlen, hin, hout, hmarks⟩ := htakes
  obtain ⟨m, b, happend, hent⟩ := appendCommand_spec x (s.seq + 1) s.me
  have hgo : exec i s = .next (s.nextSeq.2.upd (fun u => (after (appendCommand x (s.seq + 1) u)).next)) := by
    have hread : x.vin.any s.me.vBusy = false := List.any_eq_false.mpr fun n hn => ne_true_of_eq_false (hin n hn)
    have hwrite : x.vout.any s.me.vLoading = false := List.any_eq_false.mpr fun n hn => ne_true_of_eq_false (hout n hn)
    rw [hexec, mIssue]
    simp only [decide_eq_false (Nat.not_le.mpr hlen), hread, hwrite, Bool.or_false, Bool.false_eq_true, if_false]
    rw [Strand.markTrap, markOf_eq_none hmarks, markOf_eq_none hmarks]
    rfl
  generalize hw : after (appendCommand x (s.seq + 1) s.me) = w
  have hme : (s.nextSeq.2.upd (fun u => (after (appendCommand x (s.seq + 1) u)).next)).me = w.next := by
    rw [me_upd, ← hw]
    rfl
  have hframe : w = { s.me with
      mq := s.me.mq ++ [x.command (s.seq + 1) s.me srcs]
      mseq := s.me.mseq + 1#16
      bound := b
      map := m
      active := A
      shadow := S } := by
    rw [← hw, happend]
    exact hafter m b
  have hmap : ∀ r, (w.entry r).state = (s.me.entry r).state ∧ (w.entry r).frame = (s.me.entry r).frame := fun r => by
    have h := hent r
    rw [happend] at h
    rw [hframe]
    exact h
  refine ⟨_, hgo, ?_, fun k hk => ?_, ?_, ?_, ?_, ?_, fun r => ?_, ?_⟩
  · exact (packageCounted_nextSeq s).trans (onlyMe_upd _ _).1.counted
  · exact (onlyMe_upd s.nextSeq.2 _).2 k hk
  · rw [hme, hframe, ← hi]
    rfl
  · rw [hme, hframe]
    rfl
  · rw [hme, hframe]
    rfl
  · rw [hme, hframe]
    rfl
  · rw [hme]
    exact hmap r
  · rw [hme, hframe]
    exact wentOn_next s.me

/-- One that sets no designation. -/
theorem enqueuesM_of_plain (hexec : exec i s = mIssue x id s) (hi : x.ins = i) (htakes : QueueTakes s.me x.vin x.vout) :
    EnqueuesM i s x.dst (x.srcs.map fun r => (r, bindReg s.me r)) x.release x.fmt x.base x.stride x.vin x.vout x.push x.pop
      s.me.active s.me.shadow :=
  enqueuesM_of_mIssue hexec hi htakes fun _ _ => rfl

theorem row_eq (b : Word) : b &&& 63#64 = BitVec.ofNat 64 (b.toNat % 64) := by
  apply BitVec.eq_of_toNat_eq
  rw [BitVec.toNat_and, BitVec.toNat_ofNat]
  have h : b.toNat &&& (2 ^ 6 - 1) = b.toNat % 2 ^ 6 := Nat.and_two_pow_sub_one_eq_mod b.toNat 6
  have hb := b.isLt
  change b.toNat &&& (2 ^ 6 - 1) = _
  rw [h]
  exact (Nat.mod_eq_of_lt (by omega)).symm

/-! TMMA and TWLOAD, which name the planes (spec/16_matrix_instructions.md R301, R303). -/

/-- The register of a marked designation, which ends. -/
def endedPlane : Option (Nat × Bool) → List Nat
  | some (r, true) => [r]
  | _ => []

theorem exec_twload (s : State) (a : BitVec 5) (l : BitVec 1) (f : BitVec 3) (p w : BitVec 2) : exec (.twload a l f p w) s =
    mIssue ⟨.twload a l f p w, [s.me.mreg a], none, endedPlane s.me.shadow, [], s.me.formatWord f, 0#64, 0#64,
      scaleRegs (fwFB (s.me.formatWord f)) (fwZB (s.me.formatWord f)), [], w, p⟩
      (fun u => { u with shadow := some (s.me.mreg a, l == 1#1) }) s := by
  change execTwload a l f p w s = _
  unfold execTwload
  dsimp only
  generalize s.me.shadow = o
  rcases o with _ | ⟨r, _ | _⟩ <;> rfl

/-- The source that a TMMA reads as B. -/
def planeSource (u : Strand) : Option (Nat × Bool) → Nat × Source
  | some x => (x.1, bindReg u x.1)
  | none => (256, Source.zero)

/-- A TMMA, given its sources. -/
def mmaSpec (i : Instr) (u : Strand) (set : Bool) (d a : BitVec 5) (l : BitVec 1) (f : BitVec 3) (p w : BitVec 2) (srcs : List Nat) : MSpec :=
  ⟨i, srcs, some (u.mreg d), if l = 1#1 then [u.mreg a] else [], if set then [] else [u.mreg d], u.formatWord f, 0#64, 0#64,
    scaleRegs (fwFA (u.formatWord f)) (fwZA (u.formatWord f)) ++ scaleRegs (fwFB (u.formatWord f)) (fwZB (u.formatWord f)), [], w, p⟩

/-- The old accumulator that a TMMA reads. -/
def oldSource (u : Strand) (set : Bool) (d : BitVec 5) : List (Nat × Source) := if set then [] else [(u.mreg d, bindReg u (u.mreg d))]

theorem swapPlanes_spec (u : Strand) (swap : Bool) : (if swap then swapPlanes u else u) =
    { u with active := if swap then u.shadow else u.active, shadow := if swap then u.active else u.shadow } := by
  cases swap <;> rfl

theorem map_ite_of_forall_not {α : Type} {P : α → Prop} [DecidablePred P] {g : α → α} {l : List α} (h : ∀ c ∈ l, ¬ P c) :
    l.map (fun c => if P c then g c else c) = l :=
  (List.map_congr_left fun c hc => if_neg (h c hc)).trans (List.map_id l)

theorem enqueuesM_tmma {set swap : Bool} {d a : BitVec 5} {l : BitVec 1} {f : BitVec 3} {p w : BitVec 2} {plane : Option (Nat × Bool)}
    (hexec : exec i s = tmmaForm i set swap d a l f p w s) (hplane : (if swap then s.me.shadow else s.me.active) = plane)
    (htakes : QueueTakes s.me (mmaSpec i s.me set d a l f p w []).vin []) (hids : ∀ c ∈ s.me.mq, c.id ≠ s.seq + 1) :
    EnqueuesM i s (some (s.me.mreg d))
      ((s.me.mreg a, bindReg s.me (s.me.mreg a)) :: planeSource s.me plane :: oldSource s.me set d)
      (if l = 1#1 then [s.me.mreg a] else []) (s.me.formatWord f) 0#64 0#64 (mmaSpec i s.me set d a l f p w []).vin [] p w
      (if swap then s.me.shadow else s.me.active) (if swap then s.me.active else s.me.shadow) := by
  unfold tmmaForm at hexec
  dsimp only at hexec
  rw [hplane] at hexec
  cases plane with
  | some x =>
    refine enqueuesM_of_mIssue (x := mmaSpec i s.me set d a l f p w (s.me.mreg a :: x.1 :: if set then [] else [s.me.mreg d])) hexec rfl htakes
      fun m b => ?_
    dsimp only
    rw [swapPlanes_spec]
    have hsrcs : (mmaSpec i s.me set d a l f p w (s.me.mreg a :: x.1 :: if set then [] else [s.me.mreg d])).srcs.map (fun r => (r, bindReg s.me r)) =
        (s.me.mreg a, bindReg s.me (s.me.mreg a)) :: planeSource s.me (some x) :: oldSource s.me set d := by
      cases set <;> rfl
    rw [hsrcs]
    refine congrArg (fun q => ({ s.me with
      mq := q
      mseq := s.me.mseq + 1#16
      bound := b
      map := m
      active := if swap then s.me.shadow else s.me.active
      shadow := if swap then s.me.active else s.me.shadow } : Strand)) ?_
    exact map_ite_of_forall_not fun c _ h => Bool.false_ne_true h.1
  | none =>
    refine enqueuesM_of_mIssue (x := mmaSpec i s.me set d a l f p w [s.me.mreg a]) hexec rfl htakes fun m b => ?_
    dsimp only
    rw [swapPlanes_spec]
    refine congrArg (fun q => ({ s.me with
      mq := q
      mseq := s.me.mseq + 1#16
      bound := b
      map := m
      active := if swap then s.me.shadow else s.me.active
      shadow := if swap then s.me.active else s.me.shadow } : Strand)) ?_
    rw [List.map_append]
    exact congrArg₂ (· ++ ·) (map_ite_of_forall_not fun c hc h => hids c hc h.2.2) (congrArg (fun c => [c]) (if_pos ⟨rfl, rfl, rfl⟩))

end

/-- Settles O28: every form appends the command that its operands say (`enqueuesM_of_mIssue`). -/
theorem matrixCommandsIssue : Obligations.MatrixCommandsIssue := by
  unfold Obligations.MatrixCommandsIssue
  intro s d a b l h f y p w u rd ra rb word src rel A S za zb zd row house tile mma
  have hmma : ∀ (plane : Option (Nat × Bool)) (i : Instr) (old : List (Nat × Source)) (A' S' : Option (Nat × Bool)),
      EnqueuesM i s (some rd) (src ra :: planeSource u plane :: old) (rel l ra) word 0#64 0#64 (za ++ zb) [] p w A' S' → mma i plane old A' S' :=
    fun plane i old A' S' hq => by
      cases plane
      · exact hq
      · exact hq
  refine ⟨fun htakes => ⟨?_, ?_, ?_, ?_, ?_, ?_, ?_, ?_, ?_, ?_, ?_⟩, fun htakes hids => ⟨?_, ?_, ?_, ?_⟩, fun htakes => ?_, fun htakes => ?_,
    fun htakes => ?_, fun htakes => ?_⟩
  · exact enqueuesM_of_plain (x := houseSpec (.tpref d p w) u d p w true) rfl rfl htakes
  · exact enqueuesM_of_plain (x := houseSpec (.tdrop d p w) u d p w false) rfl rfl htakes
  · exact enqueuesM_of_plain (x := houseSpec (.tzero d p w) u d p w false) rfl rfl htakes
  · exact enqueuesM_of_plain (x := tileSpec (.tloadA d a b y p w) u d a b p w true) rfl rfl htakes
  · exact enqueuesM_of_plain (x := tileSpec (.tloadB d a b y p w) u d a b p w true) rfl rfl htakes
  · exact enqueuesM_of_plain (x := tileSpec (.tloadC d a b p w) u d a b p w true) rfl rfl htakes
  · exact enqueuesM_of_plain (x := tileSpec (.tstoreA d a b p w) u d a b p w false) rfl rfl htakes
  · exact enqueuesM_of_plain (x := tileSpec (.tstoreB d a b p w) u d a b p w false) rfl rfl htakes
  · exact enqueuesM_of_plain (x := tileSpec (.tstoreC d a b p w) u d a b p w false) rfl rfl htakes
  · exact enqueuesM_of_plain (x := ⟨.ttrans d a l p w, [ra], some rd, rel l ra, [], 0#64, 0#64, 0#64, [], [], w, p⟩) rfl rfl htakes
  · exact enqueuesM_of_plain (x := ⟨.tadd d a b l h f p w, [ra, rb], some rd, rel l ra ++ rel h rb, [], word, 0#64, 0#64, [], [], w, p⟩) rfl rfl htakes
  · have h := enqueuesM_tmma (i := .tmma d a l f p w) (set := false) (swap := false) rfl rfl htakes hids
    exact hmma A _ [src rd] A S h
  · have h := enqueuesM_tmma (i := .tmmaSet d a l f p w) (set := true) (swap := false) rfl rfl htakes hids
    exact hmma A _ [] A S h
  · have h := enqueuesM_tmma (i := .tmmaSw d a l f p w) (set := false) (swap := true) rfl rfl htakes hids
    exact hmma S _ [src rd] S A h
  · have h := enqueuesM_tmma (i := .tmmaSetSw d a l f p w) (set := true) (swap := true) rfl rfl htakes hids
    exact hmma S _ [] S A h
  · have htw : EnqueuesM (.twload a l f p w) s none [src ra] (endedPlane S) word 0#64 0#64 zb [] p w A (some (ra, decide (l = 1#1))) :=
      enqueuesM_of_mIssue (exec_twload s a l f p w) rfl htakes fun _ _ => rfl
    generalize S = o at htw ⊢
    rcases o with _ | ⟨r, _ | _⟩
    · exact htw
    · exact htw
    · exact htw
  · have hissue := enqueuesM_of_plain (x := ⟨.vtom d a b p w, [rd], some rd, [], [], 0#64, u.getS b &&& 63#64, 0#64, [a.toNat], [], w, p⟩) rfl rfl htakes
    rw [row_eq] at hissue
    exact hissue
  · have hissue := enqueuesM_of_plain (x := ⟨.mtov d a b l p w, [ra], none, rel l ra, [], 0#64, u.getS b &&& 63#64, 0#64, [], [d.toNat], w, p⟩) rfl rfl htakes
    rw [row_eq] at hissue
    exact hissue
  · exact enqueuesM_of_plain (x := ⟨.tcvt d a l f p w, [ra], some rd, rel l ra, [], word, 0#64, 0#64, [], zd, w, p⟩) rfl rfl htakes

/-! ### TSHAPE and SETMW (spec/16_matrix_instructions.md R290, R292) -/

section

variable {s : State} {d a : BitVec 5} {f : BitVec 3}

theorem codeWidth_mem : ∀ fa : BitVec 8, isVectorCode fa = true → (codeWidth fa).getD 8 ∈ [4, 8, 16, 32] := by decide +kernel

/-- A dimension of a grant: rounded up to its step, and kept between the step and a bound. -/
def granted (x step bound : Nat) : Nat := min bound (max step ((x + (step - 1)) / step * step))

theorem granted_spec {x step bound : Nat} (hbound : bound % step = 0) (hle : step ≤ bound) :
    granted x step bound % step = 0 ∧ step ≤ granted x step bound ∧ granted x step bound ≤ bound := by
  refine ⟨?_, le_min hle (le_max_left ..), min_le_left ..⟩
  have hup : max step ((x + (step - 1)) / step * step) % step = 0 := by
    rcases max_choice step ((x + (step - 1)) / step * step) with h | h <;> rw [h]
    · exact Nat.mod_self step
    · exact Nat.mul_mod_left ..
  rcases min_choice bound (max step ((x + (step - 1)) / step * step)) with h | h <;> rw [granted, h]
  · exact hbound
  · exact hup

theorem roundUp_eq (x : Nat) {step : Nat} (h : 0 < step) : roundUp x step = (x + (step - 1)) / step * step := by
  rw [roundUp, Nat.add_sub_assoc h]

theorem exec_tshape (s : State) (d a : BitVec 5) (f : BitVec 3) : exec (.tshape d a f) s = execTshape d a f s := rfl
theorem exec_setmw (s : State) (a : BitVec 5) : exec (.setmw a) s = execSetmw a s := rfl

/-- The grant of a request. -/
def grantOf (A w step : Nat) : Grant :=
  ⟨BitVec.ofNat 8 (granted (A % 2 ^ 8) 8 64), BitVec.ofNat 8 (granted (A / 2 ^ 8 % 2 ^ 8) 8 64),
    BitVec.ofNat 12 (granted (A / 2 ^ 16 % 2 ^ 12) step (4096 / w)), BitVec.ofNat 10 (granted (A / 2 ^ 16 % 2 ^ 12) step (4096 / w) * w / 8)⟩

theorem tshape_grants {w step : Nat} (hword : fwOk (s.me.formatWord f) = true) (hcode : isVectorCode (fwFA (s.me.formatWord f)) = true)
    (hw : (codeWidth (fwFA (s.me.formatWord f))).getD 8 = w)
    (hstep : (if 0x20 ≤ (fwFA (s.me.formatWord f)).toNat ∧ (fwFA (s.me.formatWord f)).toNat ≤ 0x22 then 32 else 8) = step) :
    exec (.tshape d a f) s = .next (s.upd (fun t => ({ t with tsh := grantOf (s.me.getS a).toNat w step }.setS d
      (zext64 ((grantOf (s.me.getS a).toNat w step).tk ++ (grantOf (s.me.getS a).toNat w step).tn ++ (grantOf (s.me.getS a).toNat w step).tm))).next)) := by
  have hbfp : (if isBfpCode (fwFA (s.me.formatWord f)) = true then 32 else 8) = step := by
    rw [← hstep, isBfpCode]
    simp only [Bool.and_eq_true, decide_eq_true_eq]
  have hpos : 0 < step := by
    rw [← hstep]
    split <;> decide
  rw [exec_tshape, execTshape]
  dsimp only
  rw [hword, hcode, hw, hbfp, roundUp_eq _ hpos, roundUp_eq _ (by decide : 0 < 8), roundUp_eq _ (by decide : 0 < 8), slice_toNat, slice_toNat, slice_toNat,
    Nat.pow_zero, Nat.div_one]
  rfl

/-- TSHAPE writes its grant, the tile shape among it. -/
theorem tshape_spec {w step : Nat} (hword : fwOk (s.me.formatWord f) = true) (hcode : isVectorCode (fwFA (s.me.formatWord f)) = true)
    (hw : (codeWidth (fwFA (s.me.formatWord f))).getD 8 = w)
    (hstep : (if 0x20 ≤ (fwFA (s.me.formatWord f)).toNat ∧ (fwFA (s.me.formatWord f)).toNat ≤ 0x22 then 32 else 8) = step)
    {tm tn tk : Nat} (htm : tm = granted ((s.me.getS a).toNat % 2 ^ 8) 8 64) (htn : tn = granted ((s.me.getS a).toNat / 2 ^ 8 % 2 ^ 8) 8 64)
    (htk : tk = granted ((s.me.getS a).toNat / 2 ^ 16 % 2 ^ 12) step (4096 / w)) :
    ∃ t, exec (.tshape d a f) s = .next t ∧ OnlyMe s t ∧ tm % 8 = 0 ∧ tn % 8 = 0 ∧ tk % step = 0 ∧
      8 ≤ tm ∧ tm ≤ 64 ∧ 8 ≤ tn ∧ tn ≤ 64 ∧ step ≤ tk ∧ tk ≤ 4096 / w ∧
      t.me.tsh.tm.toNat = tm ∧ t.me.tsh.tn.toNat = tn ∧ t.me.tsh.tk.toNat = tk ∧ t.me.tsh.kb.toNat = tk * w / 8 ∧
      WroteS s.me { t.me with tsh := s.me.tsh } d (BitVec.ofNat 64 (tm + 2 ^ 8 * tn + 2 ^ 16 * tk)) (s.me.pc + 4#64) := by
  have hwmem := codeWidth_mem _ hcode
  rw [hw] at hwmem
  have hfit : 4096 / w % step = 0 ∧ step ≤ 4096 / w ∧ ∀ k, k ≤ 4096 / w → k < 2 ^ 12 ∧ k * w / 8 < 2 ^ 10 := by
    have hs : step = 32 ∨ step = 8 := by
      rw [← hstep]
      split
      · exact .inl rfl
      · exact .inr rfl
    simp only [List.mem_cons, List.not_mem_nil, or_false] at hwmem
    rcases hwmem with rfl | rfl | rfl | rfl <;> rcases hs with rfl | rfl <;> refine ⟨by decide, by decide, fun k hk => ?_⟩ <;> omega
  obtain ⟨hdiv, hle, hsize⟩ := hfit
  obtain ⟨hm1, hm2, hm3⟩ := granted_spec (x := (s.me.getS a).toNat % 2 ^ 8) (step := 8) (bound := 64) rfl (by decide)
  obtain ⟨hn1, hn2, hn3⟩ := granted_spec (x := (s.me.getS a).toNat / 2 ^ 8 % 2 ^ 8) (step := 8) (bound := 64) rfl (by decide)
  obtain ⟨hk1, hk2, hk3⟩ := granted_spec (x := (s.me.getS a).toNat / 2 ^ 16 % 2 ^ 12) hdiv hle
  rw [← htm] at hm1 hm2 hm3
  rw [← htn] at hn1 hn2 hn3
  rw [← htk] at hk1 hk2 hk3
  obtain ⟨hk4, hk5⟩ := hsize tk hk3
  have hgrant : grantOf (s.me.getS a).toNat w step = ⟨BitVec.ofNat 8 tm, BitVec.ofNat 8 tn, BitVec.ofNat 12 tk, BitVec.ofNat 10 (tk * w / 8)⟩ := by
    rw [grantOf, ← htm, ← htn, ← htk]
  have hexec := tshape_grants (d := d) (a := a) hword hcode hw hstep
  rw [hgrant] at hexec
  have hm4 : (BitVec.ofNat 8 tm).toNat = tm := (BitVec.toNat_ofNat ..).trans (Nat.mod_eq_of_lt (by omega))
  have hn4 : (BitVec.ofNat 8 tn).toNat = tn := (BitVec.toNat_ofNat ..).trans (Nat.mod_eq_of_lt (by omega))
  have hk6 : (BitVec.ofNat 12 tk).toNat = tk := (BitVec.toNat_ofNat ..).trans (Nat.mod_eq_of_lt hk4)
  have hval : zext64 (BitVec.ofNat 12 tk ++ BitVec.ofNat 8 tn ++ BitVec.ofNat 8 tm) = BitVec.ofNat 64 (tm + 2 ^ 8 * tn + 2 ^ 16 * tk) := by
    rw [zext64_append, Laws.toNat_append_eq_add, hm4, hn4, hk6]
    congr 1
    ring
  rw [hval] at hexec
  have htsh : ∀ (g : Grant) (x : Word), (({ s.me with tsh := g } : Strand).setS d x).next.tsh = g ∧
      WroteS s.me { (({ s.me with tsh := g } : Strand).setS d x).next with tsh := s.me.tsh } d x (s.me.pc + 4#64) := fun g x => by
    have hset : ({ (({ s.me with tsh := g } : Strand).setS d x).next with tsh := s.me.tsh } : Strand) = (s.me.setS d x).goto (s.me.pc + 4#64) := by
      unfold Strand.setS
      split <;> rfl
    refine ⟨?_, hset ▸ wroteS_goto s.me d x _⟩
    unfold Strand.setS
    split <;> rfl
  obtain ⟨hg, hwrote⟩ := htsh ⟨BitVec.ofNat 8 tm, BitVec.ofNat 8 tn, BitVec.ofNat 12 tk, BitVec.ofNat 10 (tk * w / 8)⟩
    (BitVec.ofNat 64 (tm + 2 ^ 8 * tn + 2 ^ 16 * tk))
  refine ⟨_, hexec, onlyMe_upd s _, hm1, hn1, hk1, hm2, hm3, hn2, hn3, hk2, hk3, ?_, ?_, ?_, ?_, ?_⟩ <;> rw [me_upd]
  · rw [hg]
    exact hm4
  · rw [hg]
    exact hn4
  · rw [hg]
    exact hk6
  · rw [hg]
    exact (BitVec.toNat_ofNat ..).trans (Nat.mod_eq_of_lt hk5)
  · exact hwrote

theorem tshape_traps (hword : fwOk (s.me.formatWord f) = false) (hrun : s.me.phase = .running) :
    Traps (.tshape d a f) s (ownRecord s .format .none 0#64 0#32 false) := by
  refine traps_of_raise ?_ hrun
  rw [exec_tshape, execTshape]
  dsimp only
  rw [hword]
  rfl

theorem setmw_spec : ∃ t, exec (.setmw a) s = .next t ∧ OnlyMe s t ∧ t.me.mw.toNat = (s.me.getS a).toNat % 256 ∧
    WentOn s.me { t.me with mw := s.me.mw } (s.me.pc + 4#64) := by
  refine ⟨_, (exec_setmw s a).trans rfl, onlyMe_upd s _, ?_, ?_⟩ <;> rw [me_upd]
  · change (slice (s.me.getS a) 0 8).toNat = _
    rw [slice_toNat, Nat.pow_zero, Nat.div_one, show 2 ^ 8 = 256 from rfl]
  · exact wentOn_next s.me

end

/-! ### MSMCFG and SRSEED (spec/02_strand_registers.md R39, spec/04_number_formats.md R68) -/

section

variable {s : State} {x : Word}

theorem exec_msmcfgWrite (s : State) : exec .msmcfgWrite s = execMsmcfgWrite s := rfl
theorem exec_srseedWrite (s : State) : exec .srseedWrite s = execSrseedWrite s := rfl

theorem srseed_spec {n : Nat} {rest : List (Word × Nat)} (hseed : (s.strand s.arg.slot).mseed = (x, n) :: rest)
    (hnone : ∀ c ∈ (s.strand s.arg.slot).mq, c.id ≤ n → ∀ d a l f p w, c.ins ≠ .tcvt d a l f p w) :
    ∃ t, exec .srseedWrite s = .next t ∧ PackageKept s t ∧ (t.strand s.arg.slot).mbank = ⟨x, []⟩ ∧ (t.strand s.arg.slot).mseed = rest ∧
      (t.strand s.arg.slot).vbank = (s.strand s.arg.slot).vbank := by
  have hbusy : (s.strand s.arg.slot).mq.any (fun c => decide (c.id ≤ n) && isTcvt c) = false := by
    rw [List.any_eq_false]
    intro c hc hcon
    obtain ⟨hid, hins⟩ := Bool.and_eq_true_iff.mp hcon
    have h := hnone c hc (of_decide_eq_true hid)
    unfold isTcvt at hins
    split at hins
    next d a l f p w heq => exact h d a l f p w heq
    next => cases hins
  refine ⟨s.updSlot s.arg.slot (fun u => { u with mbank := ⟨x, []⟩, mseed := rest }), ?_, packageKept_updSlot .., ?_⟩
  · rw [exec_srseedWrite, execSrseedWrite]
    dsimp only
    rw [hseed]
    exact if_neg (ne_true_of_eq_false hbusy)
  · rw [strand_updSlot_self]
    exact ⟨rfl, rfl, rfl⟩

/-- No frame has to be freed where no more are held than the bound. -/
theorem makeRoom_of_le {q limit n : Nat} (h : (heldFrames s q).length ≤ limit) : makeRoom q limit (n + 1) s = .made s := by
  rw [makeRoom]
  exact if_pos h

/-- A free frame that a strand does not take as scratch stays free. -/
theorem frameFree_updSlot {q core g : Nat} {F : Strand → Strand} (h : frameFree s core g = true)
    (hsub : g ∈ (F (s.strand q)).scrFrames → g ∈ (s.strand q).scrFrames) : frameFree (s.updSlot q F) core g = true := by
  unfold frameFree at h ⊢
  rw [Bool.and_eq_true, List.all_eq_true] at h ⊢
  refine ⟨h.1, fun j hj => ?_⟩
  have hold := h.2 j hj
  rw [strand_updSlot]
  split
  next heq =>
    rw [heq] at hold
    simp only [Bool.not_eq_true', List.contains_eq_mem, decide_eq_false_iff_not] at hold ⊢
    exact fun hg => hold (hsub hg)
  next => exact hold

theorem length_free_of_scratch {q f : Nat} (hf : f ∈ (List.range 256).filter (frameFree s (coreOf q))) :
    ((List.range 256).filter (frameFree s (coreOf q))).length ≤
      ((List.range 256).filter (frameFree (s.updSlot q (fun t => { t with scrFrames := t.scrFrames ++ [f] })) (coreOf q))).length + 1 := by
  have hnodup : ((List.range 256).filter (frameFree s (coreOf q))).Nodup := List.nodup_range.filter _
  have hsub : ((List.range 256).filter (frameFree s (coreOf q))).erase f ⊆
      (List.range 256).filter (frameFree (s.updSlot q (fun t => { t with scrFrames := t.scrFrames ++ [f] })) (coreOf q)) := by
    intro g hg
    obtain ⟨hne, hmem⟩ := hnodup.mem_erase_iff.mp hg
    obtain ⟨hrange, hfree⟩ := List.mem_filter.mp hmem
    refine List.mem_filter.mpr ⟨hrange, frameFree_updSlot hfree fun h => ?_⟩
    exact (List.mem_append.mp h).resolve_right fun h => hne (List.mem_singleton.mp h)
  have hlen := (hnodup.erase f).subperm hsub |>.length_le
  rw [List.length_erase_of_mem hf] at hlen
  omega

/-- As many scratch frames are added as are asked for, where as many are free. -/
theorem addScratch_spec {q : Nat} (n : Nat) (h : n ≤ ((List.range 256).filter (frameFree s (coreOf q))).length) :
    ∃ fs, fs.length = n ∧ PackageKept s (addScratch q n s) ∧
      (addScratch q n s).strand q = { s.strand q with scrFrames := (s.strand q).scrFrames ++ fs } := by
  induction n generalizing s with
  | zero => exact ⟨[], rfl, rfl, by rw [List.append_nil]; rfl⟩
  | succ n ih =>
    cases hfree : freeFrame s (coreOf q) with
    | none =>
      have hnil : (List.range 256).filter (frameFree s (coreOf q)) = [] :=
        List.filter_eq_nil_iff.mpr (List.find?_eq_none.mp hfree)
      rw [hnil] at h
      exact absurd h (Nat.not_succ_le_zero n)
    | some f =>
      have hf : f ∈ (List.range 256).filter (frameFree s (coreOf q)) :=
        List.mem_filter.mpr ⟨List.mem_of_find?_eq_some hfree, List.find?_some hfree⟩
      have hlen := length_free_of_scratch hf
      obtain ⟨fs, hfs, hkept, hstrand⟩ := ih (s := s.updSlot q (fun t => { t with scrFrames := t.scrFrames ++ [f] })) (by omega)
      have hgo : addScratch q (n + 1) s = addScratch q n (s.updSlot q (fun t => { t with scrFrames := t.scrFrames ++ [f] })) := by
        rw [addScratch, scratchFrame, hfree]
      refine ⟨f :: fs, by rw [List.length_cons, hfs], ?_, ?_⟩
      · rw [hgo]
        exact (packageKept_updSlot ..).trans hkept
      · rw [hgo, hstrand, strand_updSlot_self]
        dsimp only
        rw [List.append_assoc]
        rfl

theorem slice_fq (x : Word) : (slice x 0 9).toNat = x.toNat % 512 := by
  rw [slice_toNat, Nat.pow_zero, Nat.div_one, show 2 ^ 9 = 512 from rfl]

/-- MSMCFG beyond LIM, or without a frame. -/
theorem msmcfg_traps {q : Nat} (hq : s.arg.slot = q) (hwait : (s.strand q).wait = .msmcfg x) (hrun : (s.strand q).phase = .running)
    (hmq : (s.strand q).mq = []) (hbad : (s.strand q).lim.toNat < x.toNat % 512 + x.toNat / 2 ^ 16 % 512 ∨ x.toNat % 512 = 0) :
    ∃ t, exec .msmcfgWrite s = .next t ∧ PackageKept s t ∧ (t.strand q).phase = .parked ∧ (t.strand q).fq = (s.strand q).fq ∧
      (t.strand q).sf = (s.strand q).sf ∧ ∃ r, (t.strand q).fault = some r ∧ r.cls = .msmQuota ∧ r.pc = (s.strand q).pc := by
  have hbad' : (s.strand q).lim.toNat < (slice x 0 9).toNat + (slice x 16 9).toNat ∨ slice x 0 9 = 0#9 := by
    rw [slice_toNat, slice_toNat, slice_eq_zero_iff, Nat.pow_zero, Nat.div_one]
    exact hbad
  refine ⟨raiseAt s q (s.strand q).pc (Trap.plain .msmQuota), ?_, packageKept_updSlot .., ?_⟩
  · rw [exec_msmcfgWrite, execMsmcfgWrite, hq]
    dsimp only
    rw [hwait]
    dsimp only
    rw [if_neg (by simp [hrun, hmq]), if_pos hbad']
  · unfold raiseAt
    rw [strand_updSlot_self, hrun]
    exact ⟨rfl, rfl, rfl, _, rfl, rfl, rfl⟩

/-- MSMCFG within LIM, where no frame has to be freed. -/
theorem msmcfg_takes {q : Nat} (hq : s.arg.slot = q) (hwait : (s.strand q).wait = .msmcfg x) (hrun : (s.strand q).phase = .running)
    (hmq : (s.strand q).mq = []) (hlim : x.toNat % 512 + x.toNat / 2 ^ 16 % 512 ≤ (s.strand q).lim.toNat) (hfq : x.toNat % 512 ≠ 0)
    (hheld : (heldFrames s q).length ≤ x.toNat % 512) (hspill : (s.strand q).spillq = []) {s2 : State}
    (hs2 : s2 = s.updSlot q (fun u => cutScratch { u with fq := slice x 0 9, sf := slice x 16 9 } (slice x 16 9).toNat)) :
    exec .msmcfgWrite s = .next ((addScratch q ((slice x 16 9).toNat - (s2.strand q).scrFrames.length) s2).updSlot q Strand.next) := by
  have hlo := slice_fq x
  have hgood : ¬((s.strand q).lim.toNat < (slice x 0 9).toNat + (slice x 16 9).toNat ∨ slice x 0 9 = 0#9) := by
    rw [slice_toNat, slice_toNat, slice_eq_zero_iff, Nat.pow_zero, Nat.div_one]
    exact fun h => h.elim (Nat.not_lt.mpr hlim) hfq
  rw [exec_msmcfgWrite, execMsmcfgWrite, hq]
  dsimp only
  rw [hwait]
  dsimp only
  rw [if_neg (by simp [hrun, hmq]), if_neg hgood, makeRoom_of_le (n := 599) (by rw [hlo]; exact hheld)]
  dsimp only
  rw [hspill, hs2]
  rfl

/-- The strand that has taken an MSMCFG, before scratch frames are added. -/
theorem strand_cut {q : Nat} {s2 : State} (fq sf : BitVec 9) (hs2 : s2 = s.updSlot q (fun u => cutScratch { u with fq := fq, sf := sf } sf.toNat)) :
    s2.strand q = cutScratch { s.strand q with fq := fq, sf := sf } sf.toNat := by
  rw [hs2, strand_updSlot_self]

theorem msmcfg_within {q : Nat} (hq : s.arg.slot = q) (hwait : (s.strand q).wait = .msmcfg x) (hrun : (s.strand q).phase = .running)
    (hmq : (s.strand q).mq = []) (hlim : x.toNat % 512 + x.toNat / 2 ^ 16 % 512 ≤ (s.strand q).lim.toNat) (hfq : x.toNat % 512 ≠ 0)
    (hheld : (heldFrames s q).length ≤ x.toNat % 512) (hspill : (s.strand q).spillq = [])
    (hroom : x.toNat / 2 ^ 16 % 512 ≤ (s.strand q).scrFrames.length + ((List.range 256).filter (frameFree s (coreOf q))).length) :
    ∃ t fs, exec .msmcfgWrite s = .next t ∧ PackageKept s t ∧ fs.length = x.toNat / 2 ^ 16 % 512 - (s.strand q).scrFrames.length ∧
      t.strand q = { cutScratch { s.strand q with fq := slice x 0 9, sf := slice x 16 9 } (slice x 16 9).toNat with
        scrFrames := (s.strand q).scrFrames.take (x.toNat / 2 ^ 16 % 512) ++ fs }.next := by
  have hsf : (slice x 16 9).toNat = x.toNat / 2 ^ 16 % 512 := slice_toNat x 16 9
  generalize hs2 : s.updSlot q (fun u => cutScratch { u with fq := slice x 0 9, sf := slice x 16 9 } (slice x 16 9).toNat) = s2
  have hexec := msmcfg_takes hq hwait hrun hmq hlim hfq hheld hspill hs2.symm
  have hcut := strand_cut (slice x 0 9) (slice x 16 9) hs2.symm
  have hframes : (s2.strand q).scrFrames = (s.strand q).scrFrames.take (x.toNat / 2 ^ 16 % 512) := by
    rw [hcut, ← hsf]
    rfl
  have hneed : (slice x 16 9).toNat - (s2.strand q).scrFrames.length = x.toNat / 2 ^ 16 % 512 - (s.strand q).scrFrames.length := by
    rw [hframes, hsf, List.length_take]
    omega
  have hfree : ((List.range 256).filter (frameFree s (coreOf q))).length ≤ ((List.range 256).filter (frameFree s2 (coreOf q))).length := by
    rw [← hs2]
    exact (List.monotone_filter_right _ fun g hg => frameFree_updSlot hg List.mem_of_mem_take).length_le
  obtain ⟨fs, hfs, hkept, hstrand⟩ := addScratch_spec (s := s2) (q := q) ((slice x 16 9).toNat - (s2.strand q).scrFrames.length) (by
    rw [hneed]
    omega)
  refine ⟨_, fs, hexec, ?_, hfs.trans hneed, ?_⟩
  · have hfirst : PackageKept s s2 := hs2 ▸ packageKept_updSlot ..
    exact (hfirst.trans hkept).trans (packageKept_updSlot ..)
  · rw [strand_updSlot_self, hstrand, hframes, hcut]

theorem tabGet_of_forall_ne {α : Type} {d : α} {t : Tab α} {k : Nat} (h : ∀ c ∈ t, c.1 ≠ k) : tabGet d t k = d := by
  induction t with
  | nil => rfl
  | cons c t ih => rw [tabGet, if_neg (h c (List.mem_cons_self ..)), ih fun e he => h e (List.mem_cons_of_mem _ he)]

end

/-- Settles O29: TSHAPE computes the grant; MSMCFG takes as many scratch frames as it asks for; SRSEED waits for the TCVTs before it. -/
theorem matrixSetup : Obligations.MatrixSetup := by
  unfold Obligations.MatrixSetup
  refine ⟨fun s d a f => ?_, fun s x => ?_⟩
  · intro word fa w step A
    refine ⟨fun hword hcode => ?_, fun hword hrun => tshape_traps hword hrun, setmw_spec⟩
    obtain ⟨t, hexec, hme, h1, h2, h3, h4, h5, h6, h7, h8, h9, hrest⟩ := tshape_spec (d := d) (a := a) hword hcode rfl rfl rfl rfl rfl
    exact ⟨t, _, _, _, hexec, hme, h1, h2, h3, h4, h5, h6, h7, h8, h9, rfl, rfl, rfl, hrest⟩
  · intro q u fq sf
    refine ⟨fun hwait hrun hmq hbad => msmcfg_traps rfl hwait hrun hmq hbad, fun hwait hrun hmq hlim hfq hheld hspill hle => ?_,
      fun hwait hrun hmq hlim hfq hheld hspill hle hroom hcells => ?_, fun n rest hseed hnone => srseed_spec hseed hnone⟩
    · obtain ⟨t, fs, hexec, hkept, -, hstrand⟩ := msmcfg_within rfl hwait hrun hmq hlim hfq hheld hspill (Nat.le_add_right_of_le hle)
      refine ⟨t, hexec, hkept, ?_, ?_, ?_, ?_⟩ <;> rw [hstrand]
      · exact slice_fq x
      · exact slice_toNat x 16 9
      · rfl
      · rfl
    · obtain ⟨t, fs, hexec, hkept, hfs, hstrand⟩ := msmcfg_within rfl hwait hrun hmq hlim hfq hheld hspill hroom
      have htake : (s.strand s.arg.slot).scrFrames.take (x.toNat / 2 ^ 16 % 512) = (s.strand s.arg.slot).scrFrames := List.take_of_length_le hle
      rw [htake] at hstrand
      have hscratch : (t.strand q).scratch = u.scratch := by
        rw [hstrand]
        refine List.filter_eq_self.mpr fun c hc => decide_eq_true ?_
        have hcell : c.1 < 32768 * (s.strand s.arg.slot).scrFrames.length := hcells c hc
        have hscr : (s.strand s.arg.slot).scrFrames.length ≤ (slice x 16 9).toNat := by
          rw [slice_toNat]
          exact hle
        omega
      refine ⟨t, hexec, hkept, ?_, ?_, ?_, ?_, hscratch, fun n hn => ?_, ?_, ?_⟩
      · rw [hstrand]
        exact slice_fq x
      · rw [hstrand]
        exact slice_toNat x 16 9
      · rw [hstrand]
        change ((s.strand s.arg.slot).scrFrames ++ fs).length = sf
        rw [List.length_append, hfs]
        exact Nat.add_sub_of_le hle
      · rw [hstrand]
        exact List.take_left
      · rw [hscratch]
        exact tabGet_of_forall_ne fun c hc => Nat.ne_of_lt (Nat.lt_of_lt_of_le (hcells c hc) hn)
      · rw [hstrand]
        rfl
      · rw [hstrand]
        rfl

/-! ### A matrix command starts (spec/01_execution_model.md R9, spec/03_matrix_registers.md R53) -/

section

variable {s : State} {q : Nat} {c : MCommand}

theorem exec_mCommandRetire (s : State) : exec .mCommandRetire s = execMCommandRetire s := rfl

theorem tileAsks_of_local {l : List (Run × Place)} (h : remoteRuns l = []) : tileAsks l = [] := by
  induction l with
  | nil => rfl
  | cons x l ih =>
    obtain ⟨r, pl⟩ := x
    obtain ⟨hpl, hl⟩ := List.filter_eq_nil_iff.mp h |> List.forall_mem_cons.mp
    have hrest := ih (List.filter_eq_nil_iff.mpr hl)
    cases pl with
    | remote p pa => exact absurd rfl hpl
    | _ => exact hrest

/-- The state in which a command that needs no fill has the frame of its result. -/
def framed (s : State) (q : Nat) (c : MCommand) : State :=
  match c.dst with
  | some r => ((takeFrame s q r).map (fun x => x.2)).getD s
  | none => s

/-- A command that needs no fill takes the lowest free frame for its result. -/
theorem startFrames_of_free (h : c.dst = none ∨ (freeFrame s (coreOf q)).isSome = true) :
    startFrames s q c [] = some (if c.dst.isSome then freeFrame s (coreOf q) else none, framed s q c) := by
  unfold startFrames framed
  rw [startFills]
  cases hdst : c.dst with
  | none => rfl
  | some r =>
    rcases h with h | h
    · rw [hdst] at h
      cases h
    · obtain ⟨f, hf⟩ := Option.isSome_iff_exists.mp h
      simp only [takeFrame, hf]
      rfl

/-- A command that may start, whose tokens and format are there, needs no room, and whose addresses all lie here, is launched. -/
theorem mStart_launches {u1 u2 : Strand} {s1 s4 : State} {places : List (Run × Place)} (hfault : c.faulted = false)
    (hphase : (s.strand q).phase = .running ∨ (s.strand q).phase = .parked) (hpop : popToken (s.strand q) .m c.pop = some u1)
    (hreserve : reserveToken u1 .m (if c.since = 0 then c.push else 0#2) = some u2) (hfmt : mFormatOk c = true)
    (hquota : framesNeeded c ≤ (s.strand q).fq.toNat) (hfills : fillsNeeded (s.strand q) c = [])
    (hplaces : tilePlaces s q c = .ok (places, s1)) (hhere : remoteRuns places = []) (hplaces' : tilePlaces (framed s q c) q c = .ok (places, s4))
    (hroom : c.dst = none ∨ (heldFrames s q).length + 1 ≤ (s.strand q).fq.toNat ∧ (freeFrame s (coreOf q)).isSome = true) :
    mStart s q c = mLaunch s4 q c u2 (if c.dst.isSome then freeFrame s (coreOf q) else none) none places := by
  have hactive : (c.faulted || (s.strand q).phase == .free || (s.strand q).phase == .saving) = false := by
    rw [hfault]
    rcases hphase with h | h <;> rw [h] <;> rfl
  have hframes := startFrames_of_free (s := s) (q := q) (c := c) (hroom.imp id And.right)
  have hmade : (if ([] : List Nat).length + boolNat c.dst.isSome = 0 then Room.made s
      else makeRoom q ((s.strand q).fq.toNat - (([] : List Nat).length + boolNat c.dst.isSome)) 600 s) = .made s := by
    cases hdst : c.dst with
    | none => rfl
    | some r =>
      rcases hroom with h | h
      · rw [hdst] at h
        cases h
      · exact makeRoom_of_le (n := 599) (Nat.le_sub_of_add_le h.1)
  have hnotag : engineTag s (dieOf (coreOf q)) 0 = some (none, s) := rfl
  rw [List.length_nil, Nat.zero_add] at hmade
  rw [mStart]
  simp only [hactive, hpop, hreserve, hfmt, Nat.not_lt.mpr hquota, hplaces, hfills, tileAsks_of_local hhere, List.length_nil, ite_self,
    List.any_nil, bne_self_eq_false, Bool.false_and, Bool.or_false, Bool.false_eq_true, Bool.not_true, if_false, hnotag, Nat.zero_add, hmade,
    hframes, hplaces']

/-- What a started command is marked with. -/
def startMark (s : State) (q : Nat) (c : MCommand) (fr : Option Nat) (x : MCommand) : MCommand :=
  if x.id = c.id then
    { x with
      started := true
      since := s.cycle + 1
      frame := fr
      pop := 0#2
      tag := none
      srcs := if isTpref c && !(s.strand q).fillq.any (fun m => m.cmd == c.id) then [] else x.srcs }
  else x

theorem sendTileReads_spec (s : State) (q : Nat) (l : List (Run × Place)) :
    (sendTileReads s q l).mem = s.mem ∧ SameButCounts (s.strand q) ((sendTileReads s q l).strand q) := by
  unfold sendTileReads
  dsimp only
  generalize List.map _ (tileAsks l) = reqs
  obtain ⟨hkept, hcount⟩ := countEvent_spec { s with outbox := s.outbox ++ reqs } q 0x0008 reqs.length
  exact ⟨hkept.counted.mem, hcount q⟩

/-- The strand whose command is launched, with its tokens popped and reserved as those of `u`. -/
def launched (s : State) (q : Nat) (c : MCommand) (u : Strand) (fr : Option Nat) : Strand :=
  { s.strand q with
    mq := (s.strand q).mq.map (startMark s q c fr)
    tok := u.tok
    tokRes := u.tokRes }

/-- A command that is launched is marked; besides its tokens only requests and counters differ. -/
theorem mLaunch_frame (s : State) (q : Nat) (c : MCommand) (u : Strand) (fr : Option Nat) (places : List (Run × Place)) :
    (mLaunch s q c u fr none places).mem = s.mem ∧ SameButCounts (launched s q c u fr) ((mLaunch s q c u fr none places).strand q) := by
  unfold mLaunch
  dsimp only
  generalize hv : ({ s.updSlot q _ with lastM := _ } : State) = v
  have hmem : v.mem = s.mem := by
    rw [← hv]
    rfl
  have hstrand : v.strand q = launched s q c u fr := by
    rw [← hv]
    change (s.updSlot q (fun v => { v with mq := v.mq.map (startMark s q c fr), tok := u.tok, tokRes := u.tokRes })).strand q = _
    rw [strand_updSlot_self]
    rfl
  split
  · obtain ⟨hm, hs⟩ := sendTileReads_spec v q places
    rw [hstrand] at hs
    exact ⟨hm.trans hmem, hs⟩
  · rw [hstrand]
    exact ⟨hmem, rfl⟩

theorem mLaunch_spec {u : Strand} {fr : Option Nat} {places : List (Run × Place)} (hmem : c ∈ (s.strand q).mq) :
    ∃ x, x ∈ ((mLaunch s q c u fr none places).strand q).mq ∧ x.id = c.id ∧ x.started = true ∧ x.since = s.cycle + 1 ∧ x.pop = 0#2 ∧
      x.frame = fr ∧ ((mLaunch s q c u fr none places).strand q).tok = u.tok ∧
      ((mLaunch s q c u fr none places).strand q).tokRes = u.tokRes ∧ (mLaunch s q c u fr none places).mem = s.mem := by
  obtain ⟨hm, hs⟩ := mLaunch_frame s q c u fr places
  have hmark : startMark s q c fr c = { c with
      started := true
      since := s.cycle + 1
      frame := fr
      pop := 0#2
      tag := none
      srcs := if isTpref c && !(s.strand q).fillq.any (fun m => m.cmd == c.id) then [] else c.srcs } := if_pos rfl
  refine ⟨startMark s q c fr c, ?_, ?_, ?_, ?_, ?_, ?_, ?_, ?_, hm⟩
  · rw [hs.eq]
    exact List.mem_map_of_mem hmem
  · rw [hmark]
  · rw [hmark]
  · rw [hmark]
  · rw [hmark]
  · rw [hmark]
  · rw [hs.eq]
    rfl
  · rw [hs.eq]
    rfl

theorem onlyHomes_locateRuns {need : Need} {l : List Run} {ps : List (Run × Place)} {t : State} (h : locateRuns q c need s l = .ok (ps, t)) :
    OnlyHomes s t := by
  induction l generalizing s ps with
  | nil =>
    cases h
    exact OnlyHomes.refl _
  | cons r l ih =>
    rw [locateRuns] at h
    cases hloc : locateRun s q c need r with
    | error f =>
      rw [hloc] at h
      cases h
    | ok x =>
      rw [hloc] at h
      dsimp only at h
      cases hrest : locateRuns q c need x.2 l with
      | error f =>
        rw [hrest] at h
        cases h
      | ok y =>
        rw [hrest] at h
        cases h
        exact (onlyHomes_locate hloc).trans (ih hrest)

theorem onlyHomes_tilePlaces {ps : List (Run × Place)} {t : State} (h : tilePlaces s q c = .ok (ps, t)) : OnlyHomes s t := by
  unfold tilePlaces at h
  split at h
  · cases h
    exact OnlyHomes.refl _
  · dsimp only at h
    split at h
    · cases h
    · split at h
      · cases h
      · exact onlyHomes_locateRuns h

theorem framed_spec (h : c.dst = none ∨ (freeFrame s (coreOf q)).isSome = true) :
    (framed s q c).cycle = s.cycle ∧ ∀ k, (framed s q c).strand k = s.strand k := by
  unfold framed
  cases hdst : c.dst with
  | none => exact ⟨rfl, fun _ => rfl⟩
  | some r =>
    rcases h with h | h
    · rw [hdst] at h
      cases h
    · obtain ⟨f, hf⟩ := Option.isSome_iff_exists.mp h
      simp only [takeFrame, hf]
      exact ⟨rfl, fun _ => rfl⟩

end

/-- Settles O60: nothing in `mStart` holds the command back, and `mLaunch` marks it. -/
theorem matrixCommandStarts : Obligations.MatrixCommandStarts := by
  unfold Obligations.MatrixCommandStarts
  intro s s1 s4 c u1 u2 places q u core s3 hfind hstarted hfault hhead hissue hturn hphase hpop hreserve hfmt hquota hfills hplaces hhere hplaces' hroom
  have hs3 : s3 = framed s q c := by
    change (match c.dst with
      | some r => ((takeFrame s q r).map (fun x => x.2)).getD s
      | none => s) = framed s q c
    unfold framed
    cases c.dst <;> rfl
  rw [hs3] at hplaces'
  obtain ⟨hcycle, hstrands⟩ := framed_spec (s := s) (q := q) (c := c) (hroom.imp id And.right)
  have hhomes := onlyHomes_tilePlaces hplaces'
  have hmem : c ∈ (s4.strand q).mq := by
    obtain ⟨ls, hls, -⟩ := hhomes.2.1 q
    rw [hls, hstrands]
    exact List.mem_of_find?_eq_some hfind
  have hexec : exec .mCommandRetire s = .next (mLaunch s4 q c u2 (if c.dst.isSome then freeFrame s core else none) none places) := by
    rw [exec_mCommandRetire, execMCommandRetire]
    rw [hfind]
    dsimp only
    have hhead' : (Option.map (fun x => x.id) (s.strand s.arg.slot).mHead == some c.id) = true := beq_iff_eq.mpr hhead
    rw [if_neg (by rw [hstarted]; exact Bool.false_ne_true), if_pos (by rw [hissue, hhead', hturn]; rfl),
      mStart_launches hfault hphase hpop hreserve hfmt hquota hfills hplaces hhere hplaces' hroom]
  obtain ⟨x, hx, hid, hst, hsince, hxpop, hframe, htok, htokRes, hm⟩ := mLaunch_spec (s := s4) (q := q) (c := c) (u := u2)
    (fr := if c.dst.isSome then freeFrame s core else none) (places := places) hmem
  exact ⟨_, x, hexec, hx, hid, hst, by rw [hsince, hhomes.cycle, hcycle], hxpop, hframe, htok, htokRes, hm⟩

/-! ### Fills (spec/03_matrix_registers.md R54) -/

section

variable {s s1 : State} {q : Nat} {m : Move} {pa : Nat} {comp : Bool}

theorem exec_fillComplete (s : State) : exec .fillComplete s = execFillComplete s := rfl
theorem exec_spillComplete (s : State) : exec .spillComplete s = execSpillComplete s := rfl

/-- A value that a filter keeps is read after it. -/
theorem tabGet_filter_tabSet {α : Type} {d v : α} {p : Nat × α → Bool} {k : Nat} (h : p (k, v) = true) (t : Tab α) :
    tabGet d ((tabSet t k v).filter p) k = v := by
  induction t with
  | nil => rw [tabSet, List.filter_cons_of_pos h, tabGet, if_pos rfl]
  | cons c t ih =>
    obtain ⟨k', v'⟩ := c
    rw [tabSet]
    split
    · rw [List.filter_cons_of_pos h, tabGet, if_pos rfl]
    · split
      · rw [List.filter_cons_of_pos h, tabGet, if_pos rfl]
      next hne =>
        rw [List.filter_cons]
        split
        · rw [tabGet, if_neg fun h => hne h.symm, ih]
        · exact ih

theorem entry_moveEntry (u : Strand) (r : Nat) (st : BitVec 3) (f : Nat) :
    (u.moveEntry r st f).entry r = ⟨BitVec.ofNat 8 f, st, (u.entry r).lseq⟩ := by
  unfold Strand.moveEntry Strand.setEntry Strand.entry
  rw [tabGet_tabPut, if_pos rfl]

theorem lostPart_eq_none (h : memLost s pa = false) (h' : memLost s (pa + 4096) = false) : lostPart s pa = none := by
  rw [lostPart, h, h']
  rfl

theorem backingVa_eq (u : Strand) (r : Nat) : u.mrbase + r * 32768 = backingVa u r := rfl

/-- What a fill finds in a backing area that it can read. The walk is kept as a variable here: the kernel would evaluate it at the address, which
is a product. -/
theorem fillRead_of_locate {r : Nat} (hloc : locate s (ownCtx s q) (BitVec.ofNat 64 (backingVa (s.strand q) r)) 32768 1 .read acceptsLocal =
      .ok (.mem pa comp, s1)) (htest : underTest s q (.mem pa comp) 32768 = false) (hlost : lostPart s1 pa = none) :
    fillRead s q r = some (bytesBv 262144 (homeRead s1 pa 32768), areaBad s1 pa, s1) := by
  obtain ⟨F, hF⟩ : ∃ F, F = fillRead := ⟨_, rfl⟩
  rw [← hF]
  delta fillRead at hF
  generalize locate = L at hF hloc
  subst hF
  beta_reduce
  extract_lets t va
  rw [show L s (ownCtx s q) (BitVec.ofNat 64 va) 32768 1 .read acceptsLocal = .ok (.mem pa comp, s1) from hloc]
  refine (if_neg (ne_true_of_eq_false htest)).trans ?_
  rw [hlost]

/-- Is a register being filled into this frame? -/
def filling (u : Strand) (m : Move) : Bool := (u.entry m.reg).state == stFilling && (u.entry m.reg).frame.toNat == m.frame

/-- The strand whose fill has ended: its register is CLEAN where no later write has overtaken the fill, and the commands that waited for it read
the frame. -/
def filled (mine : Bool) (m : Move) (i : Nat) (u : Strand) : Strand :=
  let v := if mine then u.moveEntry m.reg stClean m.frame else u
  { v with
    fillq := dropNth v.fillq i
    fills := v.fills + 1#24
    mq := v.mq.map (fun c => { c with srcs := c.srcs.map (fun x => if x.1 = m.reg ∧ x.2 = .backing then (x.1, .frame m.frame) else x) }) }

/-- The state when a fill has ended. -/
def fillDone (s : State) (q : Nat) (mine : Bool) (m : Move) (i : Nat) (data : Tile) (bad : List Nat) : State :=
  State.updSlot { s with
    frames := tabSet s.frames (frameKey (coreOf q) m.frame)
      { { frameOf s (coreOf q) m.frame with data := data, bad := bad } with orphan := !mine } } q (filled mine m i)

theorem fillComplete_eq {data : Tile} {bad : List Nat} (hget : (s.strand s.arg.slot).fillq[s.arg.idx]? = some m)
    (hage : m.since + 150 ≤ s.cycle) (htest : frameTested s (coreOf s.arg.slot) m.frame = false)
    (hread : fillRead s s.arg.slot m.reg = some (data, bad, s1)) :
    exec .fillComplete s = .next (countEvent (sweepFrames (fillDone s1 s.arg.slot (filling (s.strand s.arg.slot) m) m s.arg.idx data bad)
      s.arg.slot) s.arg.slot 0x0004 1) := by
  have hwait : ¬(decide (s.cycle < m.since + fillLeast) || frameTested s (coreOf s.arg.slot) m.frame) = true := by
    rw [htest, Bool.or_false, decide_eq_true_eq]
    exact Nat.not_lt.mpr hage
  obtain ⟨F, hF⟩ : ∃ F, F = execFillComplete := ⟨_, rfl⟩
  rw [exec_fillComplete, ← hF]
  delta execFillComplete at hF
  generalize fillRead = R at hF hread
  subst hF
  beta_reduce
  extract_lets q t
  rw [show t.fillq[s.arg.idx]? = some m from hget]
  refine (if_neg hwait).trans ?_
  rw [show R s q m.reg = some (data, bad, s1) from hread]
  rfl

/-- The strand whose fill has ended, after the walk. -/
theorem filled_spec {u v : Strand} {ls : List Nat} (hv : v = { u with links := ls }) (m : Move) (i : Nat) :
    (filled true m i v).fillq = dropNth u.fillq i ∧ ((filled true m i v).entry m.reg).state = 3#3 ∧ (filled true m i v).fills = u.fills + 1#24 := by
  refine ⟨?_, ?_, ?_⟩
  · rw [hv]
    rfl
  · exact congrArg MapEntry.state (entry_moveEntry v m.reg stClean m.frame)
  · rw [hv]
    rfl

theorem frameOf_fillDone (q : Nat) (m : Move) (i : Nat) (data : Tile) (bad : List Nat) :
    (frameOf (sweepFrames (fillDone s q true m i data bad) q) (coreOf q) m.frame).data = data := by
  unfold frameOf sweepFrames
  dsimp only
  rw [show (fillDone s q true m i data bad).frames = tabSet s.frames (frameKey (coreOf q) m.frame)
    { { frameOf s (coreOf q) m.frame with data := data, bad := bad } with orphan := !true } from rfl, tabGet_filter_tabSet]
  simp

/-! ### Spills (spec/03_matrix_registers.md R54) -/

/-- Is a register being spilled from this frame? -/
def spillingFrom (u : Strand) (m : Move) : Bool := (u.entry m.reg).state == stSpilling && (u.entry m.reg).frame.toNat == m.frame

/-- The strand whose spill has ended: its register is ABSENT where it has not been written meanwhile. -/
def spilled (mine : Bool) (m : Move) (i : Nat) (old : Tile × List Nat) (u : Strand) : Strand :=
  let v := sendsToBacking (keepForSends u m.reg old) m.frame
  let w := if mine then v.moveEntry m.reg stAbsent 0 else v
  { w with
    spillq := dropNth w.spillq i
    spills := w.spills + 1#24 }

/-- The frame of a spill is free, unless a command still reads it. -/
def spillFreed (s : State) (q f : Nat) : State :=
  if (s.strand q).mq.any (fun c => c.srcs.any (fun x => x.2 == .frame f)) then
    { s with frames := tabSet s.frames (frameKey (coreOf q) f) { frameOf s (coreOf q) f with orphan := true } }
  else { s with frames := tabErase s.frames (frameKey (coreOf q) f) }

theorem spillComplete_eq (hget : (s.strand s.arg.slot).spillq[s.arg.idx]? = some m)
    (hearlier : ∀ x ∈ (s.strand s.arg.slot).spillq.take s.arg.idx, x.reg ≠ m.reg) (hfills : ∀ x ∈ (s.strand s.arg.slot).fillq, x.reg ≠ m.reg)
    (htested : frameTested s (coreOf s.arg.slot) m.frame = false)
    (hloc : locate s (ownCtx s s.arg.slot) (BitVec.ofNat 64 (backingVa (s.strand s.arg.slot) m.reg)) 32768 1 .write acceptsLocal =
      .ok (.mem pa comp, s1)) (htest : underTest s s.arg.slot (.mem pa comp) 32768 = false) :
    exec .spillComplete s = .next (countEvent (spillFreed (State.updSlot (writeBack s1 (sidOf s.arg.slot) pa comp
      (frameOf s1 (coreOf s.arg.slot) m.frame)) s.arg.slot (spilled (spillingFrom (s.strand s.arg.slot) m) m s.arg.idx
        (bytesBv 262144 (homeRead s1 pa 32768), areaBad s1 pa))) s.arg.slot m.frame) s.arg.slot 0x0005 1) := by
  have hearlier' : ((s.strand s.arg.slot).spillq.take s.arg.idx).any (fun x => x.reg == m.reg) = false :=
    List.any_eq_false.mpr fun x hx h => hearlier x hx (beq_iff_eq.mp h)
  have hfills' : (s.strand s.arg.slot).fillq.any (fun x => x.reg == m.reg) = false :=
    List.any_eq_false.mpr fun x hx h => hfills x hx (beq_iff_eq.mp h)
  have hwait : ¬(((s.strand s.arg.slot).spillq.take s.arg.idx).any (fun x => x.reg == m.reg) ||
      (s.strand s.arg.slot).fillq.any (fun x => x.reg == m.reg) || frameTested s (coreOf s.arg.slot) m.frame) = true := by
    rw [hearlier', hfills', htested]
    exact Bool.false_ne_true
  obtain ⟨F, hF⟩ : ∃ F, F = execSpillComplete := ⟨_, rfl⟩
  rw [exec_spillComplete, ← hF]
  delta execSpillComplete at hF
  generalize locate = L at hF hloc
  subst hF
  beta_reduce
  extract_lets q t
  rw [show t.spillq[s.arg.idx]? = some m from hget]
  refine (if_neg hwait).trans ?_
  rw [show L s (ownCtx s q) (BitVec.ofNat 64 (backingVa t m.reg)) 32768 1 .write acceptsLocal = .ok (.mem pa comp, s1) from hloc]
  refine (if_neg (ne_true_of_eq_false htest)).trans ?_
  rfl

theorem bytesBv_bvBytes {n : Nat} (h : n = 8 * (n / 8)) (x : BitVec n) : bytesBv n (bvBytes x) = x := by
  rw [bytesBv, bvBytes, bytesNat_natBytes]
  apply BitVec.eq_of_toNat_eq
  rw [BitVec.toNat_ofNat, show 256 ^ (n / 8) = 2 ^ n by rw [show 256 = 2 ^ 8 from rfl, ← Nat.pow_mul, ← h], Nat.mod_mod,
    Nat.mod_eq_of_lt x.isLt]

/-- Where no stack is lost, a frame is written whole and nothing else of the strands differs but links. -/
theorem writeBack_spec {sid : BitVec 11} {f : Frame} (h : lostPart s pa = none) :
    (writeBack s sid pa comp f).mem = memPut s.mem pa (bvBytes f.data) ∧ ∃ ls, (writeBack s sid pa comp f).strand q = { s.strand q with links := ls } := by
  have hback : writeBack s sid pa comp f = poisonSectors (homeWrite s none pa (bvBytes f.data) comp) (f.bad.map (fun b => pa / 32 + b)) := by
    rw [writeBack, h]
  obtain ⟨ls, hls, -⟩ := (onlyHomes_homeWrite s none pa (bvBytes f.data) comp).2.1 q
  rw [hback]
  exact ⟨mem_homeWrite .., ls, hls⟩

theorem spilled_spec {u v : Strand} {ls : List Nat} (hv : v = { u with links := ls }) (m : Move) (i : Nat) (old : Tile × List Nat) :
    (spilled true m i old v).spillq = dropNth u.spillq i ∧ ((spilled true m i old v).entry m.reg).state = 1#3 ∧
      (spilled true m i old v).spills = u.spills + 1#24 := by
  refine ⟨?_, ?_, ?_⟩
  · rw [hv]
    rfl
  · exact congrArg MapEntry.state (entry_moveEntry (sendsToBacking (keepForSends v m.reg old) m.frame) m.reg stAbsent 0)
  · rw [hv]
    rfl

theorem spillFreed_spec (s : State) (q f : Nat) : (spillFreed s q f).mem = s.mem ∧ ∀ k, (spillFreed s q f).strand k = s.strand k := by
  unfold spillFreed
  split
  · exact ⟨rfl, fun _ => rfl⟩
  · exact ⟨rfl, fun _ => rfl⟩

theorem dropNth_eq_eraseIdx {α : Type} (l : List α) (i : Nat) : dropNth l i = l.eraseIdx i := by
  induction l generalizing i with
  | nil => rfl
  | cons a l ih =>
    cases i with
    | zero => rfl
    | succ i => rw [dropNth, ih, List.eraseIdx_cons_succ]

theorem fillComplete_spec {i : Nat} (hi : s.arg.idx = i) (hget : (s.strand s.arg.slot).fillq[i]? = some m) (hage : m.since + 150 ≤ s.cycle)
    (hloc : locate s (ownCtx s s.arg.slot) (BitVec.ofNat 64 (backingVa (s.strand s.arg.slot) m.reg)) 32768 1 .read acceptsLocal =
      .ok (.mem pa comp, s1))
    (htested : frameTested s (coreOf s.arg.slot) m.frame = false) (htest : underTest s s.arg.slot (.mem pa comp) 32768 = false)
    (hlost : lostPart s1 pa = none) (hstate : ((s.strand s.arg.slot).entry m.reg).state = 2#3)
    (hframe : ((s.strand s.arg.slot).entry m.reg).frame.toNat = m.frame) :
    ∃ t, exec .fillComplete s = .next t ∧ (t.strand s.arg.slot).fillq = (s.strand s.arg.slot).fillq.eraseIdx i ∧
      ((t.strand s.arg.slot).entry m.reg).state = 3#3 ∧ (t.strand s.arg.slot).fills = (s.strand s.arg.slot).fills + 1#24 ∧ t.mem = s1.mem ∧
      (frameOf t (coreOf s.arg.slot) m.frame).data = bytesBv 262144 (memBytes s1.mem pa 32768) := by
  subst hi
  have hexec := fillComplete_eq hget hage htested (fillRead_of_locate hloc htest hlost)
  have hmine : filling (s.strand s.arg.slot) m = true := by
    rw [filling, hstate, hframe, beq_self_eq_true]
    rfl
  rw [hmine] at hexec
  obtain ⟨ls, hls, -⟩ := (onlyHomes_locate hloc).2.1 s.arg.slot
  obtain ⟨hfillq, hentry, hfills⟩ := filled_spec hls m s.arg.idx
  have hdata := frameOf_fillDone (s := s1) s.arg.slot m s.arg.idx (bytesBv 262144 (homeRead s1 pa 32768)) (areaBad s1 pa)
  have hstrand : (sweepFrames (fillDone s1 s.arg.slot true m s.arg.idx (bytesBv 262144 (homeRead s1 pa 32768)) (areaBad s1 pa)) s.arg.slot).strand
      s.arg.slot = filled true m s.arg.idx (s1.strand s.arg.slot) := strand_updSlot_self ..
  have hmem : (sweepFrames (fillDone s1 s.arg.slot true m s.arg.idx (bytesBv 262144 (homeRead s1 pa 32768)) (areaBad s1 pa)) s.arg.slot).mem =
      s1.mem := rfl
  generalize sweepFrames (fillDone s1 s.arg.slot true m s.arg.idx (bytesBv 262144 (homeRead s1 pa 32768)) (areaBad s1 pa)) s.arg.slot = v at *
  obtain ⟨hkept, hcount⟩ := countEvent_spec v s.arg.slot 0x0004 1
  have hsame := (hcount s.arg.slot).eq
  rw [hstrand] at hsame
  refine ⟨_, hexec, ?_, ?_, ?_, hkept.counted.mem.trans hmem, ?_⟩
  · rw [hsame, ← dropNth_eq_eraseIdx]
    exact hfillq
  · rw [hsame]
    exact hentry
  · rw [hsame]
    exact hfills
  · rw [frameOf, congrArg State.frames hkept]
    exact hdata

theorem spillComplete_spec {i : Nat} (hi : s.arg.idx = i) (hget : (s.strand s.arg.slot).spillq[i]? = some m)
    (hearlier : ∀ x ∈ (s.strand s.arg.slot).spillq.take i, x.reg ≠ m.reg) (hfills : ∀ x ∈ (s.strand s.arg.slot).fillq, x.reg ≠ m.reg)
    (htested : frameTested s (coreOf s.arg.slot) m.frame = false)
    (hloc : locate s (ownCtx s s.arg.slot) (BitVec.ofNat 64 (backingVa (s.strand s.arg.slot) m.reg)) 32768 1 .write acceptsLocal =
      .ok (.mem pa comp, s1)) (htest : underTest s s.arg.slot (.mem pa comp) 32768 = false) (hlost : lostPart s1 pa = none)
    (hstate : ((s.strand s.arg.slot).entry m.reg).state = 5#3) (hframe : ((s.strand s.arg.slot).entry m.reg).frame.toNat = m.frame) :
    ∃ t, exec .spillComplete s = .next t ∧ (t.strand s.arg.slot).spillq = (s.strand s.arg.slot).spillq.eraseIdx i ∧
      ((t.strand s.arg.slot).entry m.reg).state = 1#3 ∧ (t.strand s.arg.slot).spills = (s.strand s.arg.slot).spills + 1#24 ∧
      t.mem = memPut s1.mem pa (bvBytes (frameOf s1 (coreOf s.arg.slot) m.frame).data) := by
  subst hi
  have hexec := spillComplete_eq hget hearlier hfills htested hloc htest
  have hmine : spillingFrom (s.strand s.arg.slot) m = true := by
    rw [spillingFrom, hstate, hframe, beq_self_eq_true]
    rfl
  rw [hmine] at hexec
  obtain ⟨ls, hls, -⟩ := (onlyHomes_locate hloc).2.1 s.arg.slot
  obtain ⟨hmem, ls', hls'⟩ := writeBack_spec (s := s1) (q := s.arg.slot) (comp := comp) (sid := sidOf s.arg.slot)
    (f := frameOf s1 (coreOf s.arg.slot) m.frame) hlost
  generalize (bytesBv 262144 (homeRead s1 pa 32768), areaBad s1 pa) = old at hexec
  generalize writeBack s1 (sidOf s.arg.slot) pa comp (frameOf s1 (coreOf s.arg.slot) m.frame) = v at *
  have hv : v.strand s.arg.slot = { s.strand s.arg.slot with links := ls' } := by rw [hls', hls]
  obtain ⟨hspillq, hentry, hspills⟩ := spilled_spec hv m s.arg.idx old
  obtain ⟨hmem', hstrands⟩ := spillFreed_spec (State.updSlot v s.arg.slot (spilled true m s.arg.idx old)) s.arg.slot m.frame
  have hstrand := hstrands s.arg.slot
  rw [strand_updSlot_self] at hstrand
  generalize spillFreed (State.updSlot v s.arg.slot (spilled true m s.arg.idx old)) s.arg.slot m.frame = w at *
  obtain ⟨hkept, hcount⟩ := countEvent_spec w s.arg.slot 0x0005 1
  have hsame := (hcount s.arg.slot).eq
  rw [hstrand] at hsame
  refine ⟨_, hexec, ?_, ?_, ?_, (hkept.counted.mem.trans hmem').trans hmem⟩
  · rw [hsame, ← dropNth_eq_eraseIdx]
    exact hspillq
  · rw [hsame]
    exact hentry
  · rw [hsame]
    exact hspills

end

/-- Settles O31: a fill takes the bytes of the backing area into its frame, and a spill writes the frame there. -/
theorem fillsAndSpills : Obligations.FillsAndSpills := by
  unfold Obligations.FillsAndSpills
  intro s s1 m pa comp q u core va _
  refine ⟨fun hget hage hloc htested htest hlost hlost' hstate hframe => ?_,
    fun hget _ _ htested htest hearlier hfills hloc hlost hlost' hstate hframe => ?_⟩
  · exact fillComplete_spec rfl hget hage hloc htested htest (lostPart_eq_none hlost hlost') hstate hframe
  · obtain ⟨t, hexec, hspillq, hentry, hspills, hmem⟩ := spillComplete_spec rfl hget hearlier hfills htested hloc htest
      (lostPart_eq_none hlost hlost') hstate hframe
    have hlen : (bvBytes (frameOf s1 core m.frame).data).length = 32768 := bvBytes_length _
    refine ⟨t, hexec, hspillq, hentry, hspills, memoryKept_of_memPut hmem hlen, ?_⟩
    rw [hmem, ← hlen, memBytes_memPut, bytesBv_bvBytes rfl]

end Sys2Proof.Machine
end

section
/-! PROOFS. Every step keeps memory canonical (O58) -/

set_option Elab.async false

namespace Sys2Proof.Machine

open Sys2Proof

/-! ### Memory stays canonical (spec/05_memories.md R81): one lemma per function of the model, in the order of the model, saying that it
keeps both memories in canonical form. -/


/-- Both memories of a state, HBM and the host's, are in canonical form. -/
def Canonical (s : State) : Prop := Memory.wf s.mem = true ∧ Memory.wf s.hostMem = true

/-- A state written out field by field is canonical when its two memories are. -/
theorem canonical_mk
    (agenda cur arg fresh seq cycle strands lastSlot issued passed lastM lastC gangs frames withdrawn therm
    deadCores vregLost hbmth mem badSectors deadGroups compressed remto tlb scans shootdowns peers ports self
    parts pass heldRecs joins joinOps joinReads homeWaits homeWatches hypFaults lateFaults copies retiredCq
    tags mailboxes sends wire inbox ends pulled wakes passes hvring device vfs hostMem images power capWatts
    watts hottest dieTemp throttleTick overSince powerHold idleSince bringUp eraseOnAlarm keysGone
    needsProvision controls firmware yalush tests held outbox) :
    Canonical ⟨agenda, cur, arg, fresh, seq, cycle, strands, lastSlot, issued, passed, lastM, lastC, gangs,
      frames, withdrawn, therm, deadCores, vregLost, hbmth, mem, badSectors, deadGroups, compressed, remto,
      tlb, scans, shootdowns, peers, ports, self, parts, pass, heldRecs, joins, joinOps, joinReads, homeWaits,
      homeWatches, hypFaults, lateFaults, copies, retiredCq, tags, mailboxes, sends, wire, inbox, ends,
      pulled, wakes, passes, hvring, device, vfs, hostMem, images, power, capWatts, watts, hottest, dieTemp,
      throttleTick, overSince, powerHold, idleSince, bringUp, eraseOnAlarm, keysGone, needsProvision,
      controls, firmware, yalush, tests, held, outbox⟩ ↔
    Memory.wf mem = true ∧ Memory.wf hostMem = true :=
  Iff.rfl

theorem Canonical.mem {s : State} (h : Canonical s) : Memory.wf s.mem = true := h.1

theorem Canonical.hostMem {s : State} (h : Canonical s) : Memory.wf s.hostMem = true := h.2

theorem canonical_foldl {α : Type} {f : State → α → State} {xs : List α} {s : State}
    (hf : ∀ s x, Canonical s → Canonical (f s x)) (h : Canonical s) : Canonical (xs.foldl f s) := by
  induction xs generalizing s with
  | nil => exact h
  | cons x xs ih => exact ih (hf s x h)

theorem canonical_foldl_fst {α β : Type} {f : State × β → α → State × β} {xs : List α} {u : State × β}
    (hf : ∀ u x, Canonical u.1 → Canonical (f u x).1) (h : Canonical u.1) : Canonical (xs.foldl f u).1 := by
  induction xs generalizing u with
  | nil => exact h
  | cons x xs ih => exact ih (hf u x h)

theorem canonical_foldl_snd {α β : Type} {f : β × State → α → β × State} {xs : List α} {u : β × State}
    (hf : ∀ u x, Canonical u.2 → Canonical (f u x).2) (h : Canonical u.2) : Canonical (xs.foldl f u).2 := by
  induction xs generalizing u with
  | nil => exact h
  | cons x xs ih => exact ih (hf u x h)

/-- What the homes change at a translation or a write of theirs leaves both memories in canonical form. -/
theorem canonical_onlyHomes {s t : State} (o : OnlyHomes s t) (h : Canonical s) : Canonical t :=
  have hh : t.hostMem = s.hostMem := by rw [← o.1]
  ⟨o.2.2 h.1, hh ▸ h.2⟩

theorem canonical_getD {o : Option State} {s : State} (ho : ∀ t, o = some t → Canonical t) (hs : Canonical s) :
    Canonical (o.getD s) := by
  cases o with
  | none => exact hs
  | some t => exact ho t rfl

theorem canonical_setStrand {s : State} (slot : Nat) (t : Strand) (hs : Canonical s) :
    Canonical (State.setStrand s slot t) := by
  unfold State.setStrand
  grind [canonical_mk, → Canonical.mem, → Canonical.hostMem]

theorem canonical_updSlot {s : State} (slot : Nat) (f : Strand → Strand) (hs : Canonical s) :
    Canonical (State.updSlot s slot f) := by
  unfold State.updSlot
  grind [canonical_setStrand]

theorem canonical_upd {s : State} (f : Strand → Strand) (hs : Canonical s) :
    Canonical (State.upd s f) := by
  unfold State.upd
  grind [canonical_updSlot]

theorem canonical_updPart {s : State} (p : BitVec 6) (f : Partition → Partition) (hs : Canonical s) :
    Canonical (State.updPart s p f) := by
  unfold State.updPart
  grind [canonical_mk, → Canonical.mem, → Canonical.hostMem]

theorem canonical_updGang {s : State} (p : BitVec 6) (area : Nat) (f : Gang → Gang) (hs : Canonical s) :
    Canonical (State.updGang s p area f) := by
  unfold State.updGang
  grind [canonical_mk, → Canonical.mem, → Canonical.hostMem]

theorem canonical_wakeUp {s : State} (hs : Canonical s) :
    Canonical (State.wakeUp s) := by
  unfold State.wakeUp
  grind [canonical_mk, → Canonical.mem, → Canonical.hostMem]

theorem canonical_raiseAt {s : State} (slot : Nat) (pc : Word) (x : Trap) (hs : Canonical s) :
    Canonical (raiseAt s slot pc x) := by
  unfold raiseAt
  grind [canonical_updSlot]

theorem canonical_keepFault {s : State} (t : Strand) (hs : Canonical s) :
    Canonical (keepFault s t) := by
  unfold keepFault
  grind [canonical_mk, → Canonical.mem, → Canonical.hostMem]

theorem canonical_raise (x : Trap) {s : State} (hs : Canonical s) :
    Canonical (raise x s) := by
  unfold raise
  grind [canonical_raiseAt]

theorem canonical_resumeParked {s : State} (slot : Nat) (hs : Canonical s) :
    Canonical (resumeParked s slot) := by
  unfold resumeParked
  grind [canonical_updSlot]

theorem canonical_countFor {s : State} (slot : Nat) (p : BitVec 6) (e n : Nat) (hs : Canonical s) :
    Canonical (countFor s slot p e n) := by
  unfold countFor
  grind [canonical_mk, → Canonical.mem, → Canonical.hostMem]

theorem canonical_countEvent {s : State} (slot e n : Nat) (hs : Canonical s) :
    Canonical (countEvent s slot e n) := by
  unfold countEvent
  grind [canonical_countFor]

theorem canonical_countDieEvent {s : State} (die e n : Nat) (hs : Canonical s) :
    Canonical (countDieEvent s die e n) := by
  unfold countDieEvent
  grind [canonical_mk, → Canonical.mem, → Canonical.hostMem]

theorem canonical_draw {s : State} (hs : Canonical s) :
    Canonical (State.draw s).2 := by
  unfold State.draw
  grind [canonical_mk, → Canonical.mem, → Canonical.hostMem]

theorem canonical_nextSeq {s : State} (hs : Canonical s) :
    Canonical (State.nextSeq s).2 := by
  unfold State.nextSeq
  grind [canonical_mk, → Canonical.mem, → Canonical.hostMem]

theorem canonical_breakLinks {s : State} (writer : Option Nat) (pa n : Nat) (hs : Canonical s) :
    Canonical (breakLinks s writer pa n) := by
  unfold breakLinks
  grind [canonical_mk, → Canonical.mem, → Canonical.hostMem]

theorem canonical_recompress {s : State} (pa n : Nat) (comp : Bool) (hs : Canonical s) :
    Canonical (recompress s pa n comp) := by
  unfold recompress
  grind [canonical_mk, → Canonical.mem, → Canonical.hostMem, canonical_foldl]

theorem canonical_homeWrite {s : State} (writer : Option Nat) (pa : Nat) (bs : List Byte) (comp : Bool)
    (hs : Canonical s) : Canonical (homeWrite s writer pa bs comp) :=
  canonical_onlyHomes (onlyHomes_homeWrite s writer pa bs comp) hs

theorem canonical_poisonSectors {s : State} (xs : List Nat) (hs : Canonical s) :
    Canonical (poisonSectors s xs) := by
  unfold poisonSectors
  grind [canonical_mk, → Canonical.mem, → Canonical.hostMem, canonical_foldl]

theorem canonical_discardRange {s : State} (pa n : Nat) (hs : Canonical s) :
    Canonical (discardRange s pa n).2 := by
  refine ⟨wf_discardRange pa n hs.1, ?_⟩
  unfold discardRange
  grind [canonical_mk, → Canonical.mem, → Canonical.hostMem]

theorem canonical_deviceGet {s : State} (pa n : Nat) (hs : Canonical s) :
    Canonical (deviceGet s pa n).2 := by
  unfold deviceGet
  grind [canonical_mk, → Canonical.mem, → Canonical.hostMem]

theorem canonical_devicePut {s : State} (pa n : Nat) (x : Word) (hs : Canonical s) :
    Canonical (devicePut s pa n x) := by
  unfold devicePut
  grind [canonical_mk, → Canonical.mem, → Canonical.hostMem]

theorem canonical_writePtes (l : List (Nat × Word)) {s : State} (hs : Canonical s) :
    Canonical (writePtes l s) :=
  canonical_onlyHomes (onlyHomes_writePtes l s) hs

theorem canonical_hold {s : State} (b : Bool) (hs : Canonical s) :
    Canonical (State.hold s b) := by
  unfold State.hold
  grind [canonical_mk, → Canonical.mem, → Canonical.hostMem]

theorem canonical_mendPtes (f : Failure) {s : State} (hs : Canonical s) :
    Canonical (mendPtes f s) := by
  unfold mendPtes
  grind [canonical_hold, canonical_writePtes]

theorem canonical_touchPte {s : State} (l : Leaf) (writes : Bool) (hs : Canonical s) :
    Canonical (touchPte s l writes) := by
  unfold touchPte
  grind [canonical_homeWrite]

theorem canonical_walk {s : State} (unit : Nat) (pid : BitVec 6) (va : Nat) (need : Need) (hs : Canonical s) {x : TlbEntry} {t : State}
    (ht : walk s unit pid va need = .ok (x, t)) : Canonical t := by
  unfold walk at ht
  grind [canonical_writePtes, canonical_touchPte]

theorem canonical_translate {s : State} (unit : Nat) (pid : BitVec 6) (va : Nat) (need : Need) (hs : Canonical s)
    {x : TlbEntry} {t : State} (ht : translate s unit pid va need = .ok (x, t)) : Canonical t :=
  canonical_onlyHomes (onlyHomes_translate ht) hs

theorem canonical_locate {s : State} (c : Ctx) (va : Word) (n al : Nat) (need : Need) (acc : Accepts) (hs : Canonical s) {x : Place}
    {t : State}
    (ht : locate s c va n al need acc = .ok (x, t)) : Canonical t := by
  unfold locate at ht
  grind [→ canonical_translate]

theorem canonical_placeWrite {s : State} (slot : Nat) (pl : Place) (bs : List Byte) (hs : Canonical s) :
    Canonical (placeWrite s slot pl bs) := by
  unfold placeWrite
  grind [canonical_updSlot, canonical_homeWrite, canonical_devicePut]

theorem canonical_pushFault {s : State} (p : BitVec 6) (r : FaultRecord) (hs : Canonical s) :
    Canonical (pushFault s p r) := by
  unfold pushFault
  grind [canonical_mk, → Canonical.mem, → Canonical.hostMem, canonical_homeWrite, canonical_updPart]

theorem canonical_ringAppend {at_ : State → Nat → Nat → Option (Nat × State)} (base : Nat) (bs : List Byte) {s : State}
    (hat : ∀ u a m p u', at_ u a m = some (p, u') → OnlyHomes u u') (hs : Canonical s) {t : State}
    (ht : ringAppend at_ base bs s = some t) : Canonical t :=
  canonical_onlyHomes (onlyHomes_ringAppend hat ht) hs

theorem canonical_ringAt (p : BitVec 6) {s : State} (va n : Nat) (hs : Canonical s) {x : ℕ} {t : State}
    (ht : ringAt p s va n = some (x, t)) : Canonical t := by
  unfold ringAt at ht
  grind [→ canonical_locate]

theorem canonical_hypRingAt {s : State} (pa n : Nat) (hs : Canonical s) {x : ℕ} {t : State}
    (ht : hypRingAt s pa n = some (x, t)) : Canonical t := by
  unfold hypRingAt at ht
  grind [canonical_mk, → Canonical.mem, → Canonical.hostMem]

theorem canonical_hypLog (bs : List Byte) {s : State} (hs : Canonical s) : Canonical (hypLog bs s) :=
  canonical_onlyHomes (onlyHomes_hypLog bs s) hs

theorem canonical_errLog (p : Option (BitVec 6)) (die : Nat) (sid : BitVec 11) (code addr detail : Nat) {s : State}
    (hs : Canonical s) : Canonical (errLog p die sid code addr detail s) :=
  canonical_onlyHomes (onlyHomes_errLog p die sid code addr detail s) hs

theorem canonical_afterFail (p : BitVec 6) (sid : BitVec 11) (f : Failure) {s : State} (hs : Canonical s) :
    Canonical (afterFail p sid f s) := by
  unfold afterFail
  grind [canonical_mendPtes, canonical_errLog]

theorem canonical_joinFail {s : State} (pid : BitVec 6) (sid : BitVec 11) (va : Nat) (c : FaultClass) (hs : Canonical s) :
    Canonical (joinFail s pid sid va c) := by
  unfold joinFail
  grind [canonical_errLog]

theorem canonical_flagWatchers {s : State} (peer : BitVec 10) (pa : Nat) (hs : Canonical s) :
    Canonical (flagWatchers s peer pa) := by
  unfold flagWatchers
  grind [canonical_mk, → Canonical.mem, → Canonical.hostMem]

theorem canonical_wakeWatchers {s : State} (pa : Nat) (hs : Canonical s) :
    Canonical (wakeWatchers s pa) := by
  unfold wakeWatchers
  grind [canonical_mk, → Canonical.mem, → Canonical.hostMem, canonical_flagWatchers]

theorem canonical_barUpdate {s : State} (writer : Option Nat) (p : BitVec 6) (sid : BitVec 11) (pa : Nat) (comp : Bool) (dA : Nat)
    (dS : Int) (hs : Canonical s) :
    Canonical (barUpdate s writer p sid pa comp dA dS).2 := by
  unfold barUpdate
  grind [canonical_homeWrite, canonical_wakeWatchers, canonical_errLog, canonical_foldl]

theorem canonical_engineBar {s : State} (p : BitVec 6) (sid : BitVec 11) (pl : Place) (dA : Nat) (dS : Int) (hs : Canonical s) :
    Canonical (engineBar s p sid pl dA dS).2 := by
  unfold engineBar
  grind [canonical_mk, → Canonical.mem, → Canonical.hostMem, canonical_barUpdate, canonical_errLog]

theorem canonical_classLog {s : State} (slot va : Nat) (c : FaultClass) (hs : Canonical s) :
    Canonical (classLog s slot va c) := by
  unfold classLog
  grind [canonical_errLog]

theorem canonical_deferError {s : State} (slot : Nat) (d : Deferred) (hs : Canonical s) :
    Canonical (deferError s slot d) := by
  unfold deferError
  grind [canonical_setStrand, canonical_classLog]

theorem canonical_storeError {s : State} (slot : Nat) (a : Access) (c : FaultClass) (hs : Canonical s) :
    Canonical (storeError s slot a c) := by
  unfold storeError
  grind [canonical_updSlot, canonical_classLog, canonical_deferError]

theorem canonical_sendRequest {s : State} (slot : Nat) (a : Access) (hs : Canonical s) :
    Canonical (sendRequest s slot a) := by
  unfold sendRequest
  grind [canonical_mk, → Canonical.mem, → Canonical.hostMem, canonical_countEvent]

theorem canonical_takeTag {s : State} (die : Nat) (pl : Place) (hs : Canonical s) :
    Canonical (takeTag s die pl).2 := by
  unfold takeTag
  grind [canonical_mk, → Canonical.mem, → Canonical.hostMem]

theorem canonical_engineTag {s : State} (die n : Nat) (hs : Canonical s) {x : Option ℕ} {t : State}
    (ht : engineTag s die n = some (x, t)) : Canonical t := by
  unfold engineTag at ht
  grind [canonical_mk, → Canonical.mem, → Canonical.hostMem, canonical_foldl]

theorem canonical_giveTag {s : State} (k : Option Nat) (hs : Canonical s) :
    Canonical (giveTag s k) := by
  unfold giveTag
  grind [canonical_mk, → Canonical.mem, → Canonical.hostMem, canonical_foldl]

theorem canonical_countNear {s : State} (slot : Nat) (pl : Place) (hs : Canonical s) :
    Canonical (countNear s slot pl) := by
  unfold countNear
  grind [canonical_countEvent]

theorem canonical_post {s : State} (slot : Nat) (a : Access) (hs : Canonical s) :
    Canonical (post s slot a) := by
  unfold post
  grind [canonical_takeTag, canonical_updSlot, canonical_sendRequest, canonical_countNear]

theorem canonical_settle {s : State} (slot : Nat) (i : Nat) (a : Access) (f : Strand → Strand) (hs : Canonical s) :
    Canonical (settle s slot i a f) := by
  unfold settle
  grind [canonical_giveTag, canonical_updSlot]

theorem canonical_dropTags {s : State} (k : Option Nat) (late : Nat → Bool) (hs : Canonical s) :
    Canonical (dropTags s k late) := by
  unfold dropTags
  grind [canonical_mk, → Canonical.mem, → Canonical.hostMem, canonical_foldl]

theorem canonical_dropTag {s : State} (k : Option Nat) (hs : Canonical s) :
    Canonical (dropTag s k) := by
  unfold dropTag
  grind [canonical_dropTags]

theorem canonical_failBlocking {s : State} (slot : Nat) (a : Access) (c : FaultClass) (hs : Canonical s) :
    Canonical (failBlocking s slot a c) := by
  unfold failBlocking
  grind [canonical_giveTag, canonical_dropTag, canonical_updSlot, canonical_raiseAt, canonical_keepFault, canonical_foldl]

theorem canonical_lostLog (slot : Nat) (pl : Place) (va : Nat) (c : FaultClass) {s : State} (hs : Canonical s) :
    Canonical (lostLog slot pl va c s) := by
  unfold lostLog
  grind [canonical_errLog]

theorem canonical_dropFlag {s : State} (slot : Nat) (a : Access) (hs : Canonical s) :
    Canonical (dropFlag s slot a) := by
  unfold dropFlag
  grind [canonical_updSlot, canonical_giveTag, canonical_foldl]

theorem canonical_accessFails {s : State} (slot i : Nat) (a : Access) (c : FaultClass) (hs : Canonical s) :
    Canonical (accessFails s slot i a c) := by
  unfold accessFails
  grind [canonical_lostLog, canonical_failBlocking, canonical_storeError, canonical_settle, canonical_dropFlag]

theorem canonical_reduceFold {f : State × Flags → Nat × BitVec 32 × BitVec 20 → State × Flags}
    (hf : ∀ u x, Canonical u.1 → Canonical (f u x).1) {s : State} (hs : Canonical s) (l : List (Nat × BitVec 32 × BitVec 20))
   {t : State} {fl : Flags} (ht : l.foldl f (s, 0#5) = (t, fl)) : Canonical t := by
  have h : Canonical (l.foldl f (s, 0#5)).1 := canonical_foldl_fst hf hs
  rwa [ht] at h

theorem canonical_performAt {s : State} (slot i : Nat) (a : Access) (rep : Reply) (hs : Canonical s) :
    Canonical (performAt s slot i a rep) := by
  unfold performAt
  grind [canonical_mk, → Canonical.mem, → Canonical.hostMem, canonical_updSlot, canonical_giveTag, canonical_settle, canonical_placeWrite, canonical_homeWrite,
    canonical_accessFails, canonical_failBlocking, canonical_draw, canonical_barUpdate, canonical_foldl_fst]

theorem canonical_scalarResult (d : BitVec 5) (f : Strand → Word) {s : State} (hs : Canonical s) {t : State}
    (ht : scalarResult d f s = .next t) : Canonical t := by
  unfold scalarResult at ht
  grind [canonical_upd]

theorem canonical_deliver {s : State} (hs : Canonical s) {t : State}
    (ht : deliver s = some t) : Canonical t := by
  unfold deliver at ht
  grind [canonical_raise, canonical_upd]

theorem canonical_raiseSlot {s : State} (j : Nat) (hs : Canonical s) :
    Canonical (raiseSlot s j) := by
  unfold raiseSlot
  grind [canonical_raise, canonical_upd]

theorem canonical_raiseFail (f : Failure) (k : AccessKind) (index : Nat) {s : State} (hs : Canonical s) :
    Canonical (raiseFail f k index s) := by
  unfold raiseFail
  grind [canonical_raise, canonical_afterFail]

theorem canonical_blockingAccess (x : ScalarAccess) (pl : Place) {s0 s : State} (hs0 : Canonical s0) (hs1 : Canonical s) {t : State}
    (ht : blockingAccess x pl s0 s = .next t) : Canonical t := by
  unfold blockingAccess at ht
  grind [canonical_raise, canonical_lostLog, canonical_nextSeq, canonical_post, → canonical_reduceFold, canonical_performAt,
    canonical_upd]

theorem canonical_postedAccess (x : ScalarAccess) (pl : Place) {s0 s : State} (hs0 : Canonical s0) (hs1 : Canonical s) {t : State}
    (ht : postedAccess x pl s0 s = .next t) : Canonical t := by
  unfold postedAccess at ht
  grind [canonical_nextSeq, canonical_upd, canonical_post]

theorem canonical_scalarAccess (x : ScalarAccess) {s : State} (hs : Canonical s) {t : State}
    (ht : scalarAccess x s = .next t) : Canonical t := by
  unfold scalarAccess at ht
  grind [→ canonical_locate, canonical_raiseFail, → canonical_blockingAccess, → canonical_postedAccess]

theorem canonical_oprResult (f : Word → Word → Word) (d a b : BitVec 5) {s : State} (hs : Canonical s) {t : State}
    (ht : oprResult f d a b s = .next t) : Canonical t := by
  unfold oprResult at ht
  grind [→ canonical_scalarResult]

theorem canonical_immResult (f : Word → Word) (d a : BitVec 5) {s : State} (hs : Canonical s) {t : State}
    (ht : immResult f d a s = .next t) : Canonical t := by
  unfold immResult at ht
  grind [→ canonical_scalarResult]

theorem canonical_execAdd (d a b : BitVec 5) {s : State} (hs : Canonical s) {t : State}
    (ht : execAdd d a b s = .next t) : Canonical t := by
  unfold execAdd at ht
  grind [→ canonical_oprResult]

theorem canonical_execSub (d a b : BitVec 5) {s : State} (hs : Canonical s) {t : State}
    (ht : execSub d a b s = .next t) : Canonical t := by
  unfold execSub at ht
  grind [→ canonical_oprResult]

theorem canonical_execAnd (d a b : BitVec 5) {s : State} (hs : Canonical s) {t : State}
    (ht : execAnd d a b s = .next t) : Canonical t := by
  unfold execAnd at ht
  grind [→ canonical_oprResult]

theorem canonical_execOr (d a b : BitVec 5) {s : State} (hs : Canonical s) {t : State}
    (ht : execOr d a b s = .next t) : Canonical t := by
  unfold execOr at ht
  grind [→ canonical_oprResult]

theorem canonical_execXor (d a b : BitVec 5) {s : State} (hs : Canonical s) {t : State}
    (ht : execXor d a b s = .next t) : Canonical t := by
  unfold execXor at ht
  grind [→ canonical_oprResult]

theorem canonical_execAndn (d a b : BitVec 5) {s : State} (hs : Canonical s) {t : State}
    (ht : execAndn d a b s = .next t) : Canonical t := by
  unfold execAndn at ht
  grind [→ canonical_oprResult]

theorem canonical_execSll (d a b : BitVec 5) {s : State} (hs : Canonical s) {t : State}
    (ht : execSll d a b s = .next t) : Canonical t := by
  unfold execSll at ht
  grind [→ canonical_oprResult]

theorem canonical_execSrl (d a b : BitVec 5) {s : State} (hs : Canonical s) {t : State}
    (ht : execSrl d a b s = .next t) : Canonical t := by
  unfold execSrl at ht
  grind [→ canonical_oprResult]

theorem canonical_execSra (d a b : BitVec 5) {s : State} (hs : Canonical s) {t : State}
    (ht : execSra d a b s = .next t) : Canonical t := by
  unfold execSra at ht
  grind [→ canonical_oprResult]

theorem canonical_execSlt (d a b : BitVec 5) {s : State} (hs : Canonical s) {t : State}
    (ht : execSlt d a b s = .next t) : Canonical t := by
  unfold execSlt at ht
  grind [→ canonical_oprResult]

theorem canonical_execSltu (d a b : BitVec 5) {s : State} (hs : Canonical s) {t : State}
    (ht : execSltu d a b s = .next t) : Canonical t := by
  unfold execSltu at ht
  grind [→ canonical_oprResult]

theorem canonical_execMin (d a b : BitVec 5) {s : State} (hs : Canonical s) {t : State}
    (ht : execMin d a b s = .next t) : Canonical t := by
  unfold execMin at ht
  grind [→ canonical_oprResult]

theorem canonical_execMax (d a b : BitVec 5) {s : State} (hs : Canonical s) {t : State}
    (ht : execMax d a b s = .next t) : Canonical t := by
  unfold execMax at ht
  grind [→ canonical_oprResult]

theorem canonical_execMinu (d a b : BitVec 5) {s : State} (hs : Canonical s) {t : State}
    (ht : execMinu d a b s = .next t) : Canonical t := by
  unfold execMinu at ht
  grind [→ canonical_oprResult]

theorem canonical_execMaxu (d a b : BitVec 5) {s : State} (hs : Canonical s) {t : State}
    (ht : execMaxu d a b s = .next t) : Canonical t := by
  unfold execMaxu at ht
  grind [→ canonical_oprResult]

theorem canonical_execMul (d a b : BitVec 5) {s : State} (hs : Canonical s) {t : State}
    (ht : execMul d a b s = .next t) : Canonical t := by
  unfold execMul at ht
  grind [→ canonical_oprResult]

theorem canonical_execMulh (d a b : BitVec 5) {s : State} (hs : Canonical s) {t : State}
    (ht : execMulh d a b s = .next t) : Canonical t := by
  unfold execMulh at ht
  grind [→ canonical_oprResult]

theorem canonical_execMulhu (d a b : BitVec 5) {s : State} (hs : Canonical s) {t : State}
    (ht : execMulhu d a b s = .next t) : Canonical t := by
  unfold execMulhu at ht
  grind [→ canonical_oprResult]

theorem canonical_execDiv (d a b : BitVec 5) {s : State} (hs : Canonical s) {t : State}
    (ht : execDiv d a b s = .next t) : Canonical t := by
  unfold execDiv at ht
  grind [→ canonical_oprResult]

theorem canonical_execDivu (d a b : BitVec 5) {s : State} (hs : Canonical s) {t : State}
    (ht : execDivu d a b s = .next t) : Canonical t := by
  unfold execDivu at ht
  grind [→ canonical_oprResult]

theorem canonical_execRem (d a b : BitVec 5) {s : State} (hs : Canonical s) {t : State}
    (ht : execRem d a b s = .next t) : Canonical t := by
  unfold execRem at ht
  grind [→ canonical_oprResult]

theorem canonical_execRemu (d a b : BitVec 5) {s : State} (hs : Canonical s) {t : State}
    (ht : execRemu d a b s = .next t) : Canonical t := by
  unfold execRemu at ht
  grind [→ canonical_oprResult]

theorem canonical_execClz (d a : BitVec 5) {s : State} (hs : Canonical s) {t : State}
    (ht : execClz d a s = .next t) : Canonical t := by
  unfold execClz at ht
  grind [→ canonical_immResult]

theorem canonical_execCtz (d a : BitVec 5) {s : State} (hs : Canonical s) {t : State}
    (ht : execCtz d a s = .next t) : Canonical t := by
  unfold execCtz at ht
  grind [→ canonical_immResult]

theorem canonical_execPopc (d a : BitVec 5) {s : State} (hs : Canonical s) {t : State}
    (ht : execPopc d a s = .next t) : Canonical t := by
  unfold execPopc at ht
  grind [→ canonical_immResult]

theorem canonical_execCsel (d a b : BitVec 5) {s : State} (hs : Canonical s) {t : State}
    (ht : execCsel d a b s = .next t) : Canonical t := by
  unfold execCsel at ht
  grind [→ canonical_scalarResult]

theorem canonical_execAddw (d a b : BitVec 5) {s : State} (hs : Canonical s) {t : State}
    (ht : execAddw d a b s = .next t) : Canonical t := by
  unfold execAddw at ht
  grind [→ canonical_oprResult]

theorem canonical_execSubw (d a b : BitVec 5) {s : State} (hs : Canonical s) {t : State}
    (ht : execSubw d a b s = .next t) : Canonical t := by
  unfold execSubw at ht
  grind [→ canonical_oprResult]

theorem canonical_execMulw (d a b : BitVec 5) {s : State} (hs : Canonical s) {t : State}
    (ht : execMulw d a b s = .next t) : Canonical t := by
  unfold execMulw at ht
  grind [→ canonical_oprResult]

theorem canonical_execAddi (d a : BitVec 5) (i : BitVec 16) {s : State} (hs : Canonical s) {t : State}
    (ht : execAddi d a i s = .next t) : Canonical t := by
  unfold execAddi at ht
  grind [→ canonical_immResult]

theorem canonical_execAndi (d a : BitVec 5) (i : BitVec 16) {s : State} (hs : Canonical s) {t : State}
    (ht : execAndi d a i s = .next t) : Canonical t := by
  unfold execAndi at ht
  grind [→ canonical_immResult]

theorem canonical_execOri (d a : BitVec 5) (i : BitVec 16) {s : State} (hs : Canonical s) {t : State}
    (ht : execOri d a i s = .next t) : Canonical t := by
  unfold execOri at ht
  grind [→ canonical_immResult]

theorem canonical_execXori (d a : BitVec 5) (i : BitVec 16) {s : State} (hs : Canonical s) {t : State}
    (ht : execXori d a i s = .next t) : Canonical t := by
  unfold execXori at ht
  grind [→ canonical_immResult]

theorem canonical_execSlti (d a : BitVec 5) (i : BitVec 16) {s : State} (hs : Canonical s) {t : State}
    (ht : execSlti d a i s = .next t) : Canonical t := by
  unfold execSlti at ht
  grind [→ canonical_immResult]

theorem canonical_execSltiu (d a : BitVec 5) (i : BitVec 16) {s : State} (hs : Canonical s) {t : State}
    (ht : execSltiu d a i s = .next t) : Canonical t := by
  unfold execSltiu at ht
  grind [→ canonical_immResult]

theorem canonical_execLih (d : BitVec 5) (p : BitVec 2) (i : BitVec 16) {s : State} (hs : Canonical s) {t : State}
    (ht : execLih d p i s = .next t) : Canonical t := by
  unfold execLih at ht
  grind [→ canonical_scalarResult]

theorem canonical_execSlli (d a : BitVec 5) (n : BitVec 6) {s : State} (hs : Canonical s) {t : State}
    (ht : execSlli d a n s = .next t) : Canonical t := by
  unfold execSlli at ht
  grind [→ canonical_immResult]

theorem canonical_execSrli (d a : BitVec 5) (n : BitVec 6) {s : State} (hs : Canonical s) {t : State}
    (ht : execSrli d a n s = .next t) : Canonical t := by
  unfold execSrli at ht
  grind [→ canonical_immResult]

theorem canonical_execSrai (d a : BitVec 5) (n : BitVec 6) {s : State} (hs : Canonical s) {t : State}
    (ht : execSrai d a n s = .next t) : Canonical t := by
  unfold execSrai at ht
  grind [→ canonical_immResult]

theorem canonical_fopResult (f : FVal → FVal → FVal) (d a b : BitVec 5) {s : State} (hs : Canonical s) {t : State}
    (ht : fopResult f d a b s = .next t) : Canonical t := by
  unfold fopResult at ht
  grind [→ canonical_scalarResult]

theorem canonical_execFadd (d a b : BitVec 5) {s : State} (hs : Canonical s) {t : State}
    (ht : execFadd d a b s = .next t) : Canonical t := by
  unfold execFadd at ht
  grind [→ canonical_fopResult]

theorem canonical_execFsub (d a b : BitVec 5) {s : State} (hs : Canonical s) {t : State}
    (ht : execFsub d a b s = .next t) : Canonical t := by
  unfold execFsub at ht
  grind [→ canonical_fopResult]

theorem canonical_execFmul (d a b : BitVec 5) {s : State} (hs : Canonical s) {t : State}
    (ht : execFmul d a b s = .next t) : Canonical t := by
  unfold execFmul at ht
  grind [→ canonical_fopResult]

theorem canonical_execFma (d a b : BitVec 5) {s : State} (hs : Canonical s) {t : State}
    (ht : execFma d a b s = .next t) : Canonical t := by
  unfold execFma at ht
  grind [→ canonical_scalarResult]

theorem canonical_execFmin (d a b : BitVec 5) {s : State} (hs : Canonical s) {t : State}
    (ht : execFmin d a b s = .next t) : Canonical t := by
  unfold execFmin at ht
  grind [→ canonical_fopResult]

theorem canonical_execFmax (d a b : BitVec 5) {s : State} (hs : Canonical s) {t : State}
    (ht : execFmax d a b s = .next t) : Canonical t := by
  unfold execFmax at ht
  grind [→ canonical_fopResult]

theorem canonical_execFcvtws (d a : BitVec 5) {s : State} (hs : Canonical s) {t : State}
    (ht : execFcvtws d a s = .next t) : Canonical t := by
  unfold execFcvtws at ht
  grind [→ canonical_scalarResult]

theorem canonical_execFcvtsw (d a : BitVec 5) {s : State} (hs : Canonical s) {t : State}
    (ht : execFcvtsw d a s = .next t) : Canonical t := by
  unfold execFcvtsw at ht
  grind [→ canonical_scalarResult]

theorem canonical_execFlt (d a b : BitVec 5) {s : State} (hs : Canonical s) {t : State}
    (ht : execFlt d a b s = .next t) : Canonical t := by
  unfold execFlt at ht
  grind [→ canonical_scalarResult]

theorem canonical_execFeq (d a b : BitVec 5) {s : State} (hs : Canonical s) {t : State}
    (ht : execFeq d a b s = .next t) : Canonical t := by
  unfold execFeq at ht
  grind [→ canonical_scalarResult]

theorem canonical_execLd (d a : BitVec 5) (o : BitVec 14) (z : BitVec 2) {s : State} (hs : Canonical s) {t : State}
    (ht : execLd d a o z s = .next t) : Canonical t := by
  unfold execLd at ht
  grind [→ canonical_scalarAccess]

theorem canonical_execLds (d a : BitVec 5) (o : BitVec 14) (z : BitVec 2) {s : State} (hs : Canonical s) {t : State}
    (ht : execLds d a o z s = .next t) : Canonical t := by
  unfold execLds at ht
  grind [→ canonical_scalarAccess]

theorem canonical_execSt (d a : BitVec 5) (o : BitVec 14) (z : BitVec 2) {s : State} (hs : Canonical s) {t : State}
    (ht : execSt d a o z s = .next t) : Canonical t := by
  unfold execSt at ht
  grind [→ canonical_scalarAccess]

theorem canonical_execLda (d a : BitVec 5) (_c : BitVec 2) (z : BitVec 1) {s : State} (hs : Canonical s) {t : State}
    (ht : execLda d a _c z s = .next t) : Canonical t := by
  unfold execLda at ht
  grind [→ canonical_deliver, → canonical_scalarAccess]

theorem canonical_execStr (a b : BitVec 5) (c : BitVec 2) (z : BitVec 1) {s : State} (hs : Canonical s) {t : State}
    (ht : execStr a b c z s = .next t) : Canonical t := by
  unfold execStr at ht
  grind [→ canonical_scalarAccess]

theorem canonical_amoForm (op : BitVec 4) (d a b : BitVec 5) (r q : BitVec 1) (c : BitVec 2) (z : BitVec 1) {s : State}
    (hs : Canonical s) {t : State}
    (ht : amoForm op d a b r q c z s = .next t) : Canonical t := by
  unfold amoForm at ht
  grind [→ canonical_scalarAccess]

theorem canonical_execAmoAdd (d a b : BitVec 5) (_m r q : BitVec 1) (c : BitVec 2) (z : BitVec 1) {s : State} (hs : Canonical s) {t : State}
    (ht : execAmoAdd d a b _m r q c z s = .next t) : Canonical t := by
  unfold execAmoAdd at ht
  grind [→ canonical_amoForm]

theorem canonical_execAmoAnd (d a b : BitVec 5) (_m r q : BitVec 1) (c : BitVec 2) (z : BitVec 1) {s : State} (hs : Canonical s) {t : State}
    (ht : execAmoAnd d a b _m r q c z s = .next t) : Canonical t := by
  unfold execAmoAnd at ht
  grind [→ canonical_amoForm]

theorem canonical_execAmoOr (d a b : BitVec 5) (_m r q : BitVec 1) (c : BitVec 2) (z : BitVec 1) {s : State} (hs : Canonical s) {t : State}
    (ht : execAmoOr d a b _m r q c z s = .next t) : Canonical t := by
  unfold execAmoOr at ht
  grind [→ canonical_amoForm]

theorem canonical_execAmoXor (d a b : BitVec 5) (_m r q : BitVec 1) (c : BitVec 2) (z : BitVec 1) {s : State} (hs : Canonical s) {t : State}
    (ht : execAmoXor d a b _m r q c z s = .next t) : Canonical t := by
  unfold execAmoXor at ht
  grind [→ canonical_amoForm]

theorem canonical_execAmoSmin (d a b : BitVec 5) (_m r q : BitVec 1) (c : BitVec 2) (z : BitVec 1) {s : State} (hs : Canonical s)
    {t : State}
    (ht : execAmoSmin d a b _m r q c z s = .next t) : Canonical t := by
  unfold execAmoSmin at ht
  grind [→ canonical_amoForm]

theorem canonical_execAmoSmax (d a b : BitVec 5) (_m r q : BitVec 1) (c : BitVec 2) (z : BitVec 1) {s : State} (hs : Canonical s)
    {t : State}
    (ht : execAmoSmax d a b _m r q c z s = .next t) : Canonical t := by
  unfold execAmoSmax at ht
  grind [→ canonical_amoForm]

theorem canonical_execAmoUmin (d a b : BitVec 5) (_m r q : BitVec 1) (c : BitVec 2) (z : BitVec 1) {s : State} (hs : Canonical s)
    {t : State}
    (ht : execAmoUmin d a b _m r q c z s = .next t) : Canonical t := by
  unfold execAmoUmin at ht
  grind [→ canonical_amoForm]

theorem canonical_execAmoUmax (d a b : BitVec 5) (_m r q : BitVec 1) (c : BitVec 2) (z : BitVec 1) {s : State} (hs : Canonical s)
    {t : State}
    (ht : execAmoUmax d a b _m r q c z s = .next t) : Canonical t := by
  unfold execAmoUmax at ht
  grind [→ canonical_amoForm]

theorem canonical_execAmoSwap (d a b : BitVec 5) (r q : BitVec 1) (c : BitVec 2) (z : BitVec 1) {s : State} (hs : Canonical s) {t : State}
    (ht : execAmoSwap d a b r q c z s = .next t) : Canonical t := by
  unfold execAmoSwap at ht
  grind [→ canonical_amoForm]

theorem canonical_execAmoFadd (d a b : BitVec 5) (_m r q : BitVec 1) (c : BitVec 2) {s : State} (hs : Canonical s) {t : State}
    (ht : execAmoFadd d a b _m r q c s = .next t) : Canonical t := by
  unfold execAmoFadd at ht
  grind [→ canonical_amoForm]

theorem canonical_execCas (d a b : BitVec 5) (r q : BitVec 1) (c : BitVec 2) (z : BitVec 1) {s : State} (hs : Canonical s) {t : State}
    (ht : execCas d a b r q c z s = .next t) : Canonical t := by
  unfold execCas at ht
  grind [→ canonical_scalarAccess]

theorem canonical_execStn (d a b : BitVec 5) (c : BitVec 2) (z : BitVec 1) {s : State} (hs : Canonical s) {t : State}
    (ht : execStn d a b c z s = .next t) : Canonical t := by
  unfold execStn at ht
  grind [→ canonical_locate, canonical_raiseFail, canonical_nextSeq, canonical_post, canonical_upd]

theorem canonical_branchOn (test : Word → Word → Bool) (a b : BitVec 5) (o : BitVec 13) {s : State} (hs : Canonical s) {t : State}
    (ht : branchOn test a b o s = .next t) : Canonical t := by
  unfold branchOn at ht
  grind [canonical_upd]

theorem canonical_execBcEq (a b : BitVec 5) (o : BitVec 13) {s : State} (hs : Canonical s) {t : State}
    (ht : execBcEq a b o s = .next t) : Canonical t := by
  unfold execBcEq at ht
  grind [→ canonical_branchOn]

theorem canonical_execBcNe (a b : BitVec 5) (o : BitVec 13) {s : State} (hs : Canonical s) {t : State}
    (ht : execBcNe a b o s = .next t) : Canonical t := by
  unfold execBcNe at ht
  grind [→ canonical_branchOn]

theorem canonical_execBcLt (a b : BitVec 5) (o : BitVec 13) {s : State} (hs : Canonical s) {t : State}
    (ht : execBcLt a b o s = .next t) : Canonical t := by
  unfold execBcLt at ht
  grind [→ canonical_branchOn]

theorem canonical_execBcGe (a b : BitVec 5) (o : BitVec 13) {s : State} (hs : Canonical s) {t : State}
    (ht : execBcGe a b o s = .next t) : Canonical t := by
  unfold execBcGe at ht
  grind [→ canonical_branchOn]

theorem canonical_execBcLtu (a b : BitVec 5) (o : BitVec 13) {s : State} (hs : Canonical s) {t : State}
    (ht : execBcLtu a b o s = .next t) : Canonical t := by
  unfold execBcLtu at ht
  grind [→ canonical_branchOn]

theorem canonical_execBcGeu (a b : BitVec 5) (o : BitVec 13) {s : State} (hs : Canonical s) {t : State}
    (ht : execBcGeu a b o s = .next t) : Canonical t := by
  unfold execBcGeu at ht
  grind [→ canonical_branchOn]

theorem canonical_execBcBset (a b : BitVec 5) (o : BitVec 13) {s : State} (hs : Canonical s) {t : State}
    (ht : execBcBset a b o s = .next t) : Canonical t := by
  unfold execBcBset at ht
  grind [→ canonical_branchOn]

theorem canonical_execBcBclr (a b : BitVec 5) (o : BitVec 13) {s : State} (hs : Canonical s) {t : State}
    (ht : execBcBclr a b o s = .next t) : Canonical t := by
  unfold execBcBclr at ht
  grind [→ canonical_branchOn]

theorem canonical_execJ (o : BitVec 26) {s : State} (hs : Canonical s) {t : State}
    (ht : execJ o s = .next t) : Canonical t := by
  unfold execJ at ht
  grind [canonical_upd]

theorem canonical_execJal (o : BitVec 26) {s : State} (hs : Canonical s) {t : State}
    (ht : execJal o s = .next t) : Canonical t := by
  unfold execJal at ht
  grind [canonical_upd]

theorem canonical_execJalr (d a : BitVec 5) (i : BitVec 16) {s : State} (hs : Canonical s) {t : State}
    (ht : execJalr d a i s = .next t) : Canonical t := by
  unfold execJalr at ht
  grind [canonical_raise, canonical_upd]

theorem canonical_execCallt (a : BitVec 5) (sg : BitVec 16) {s : State} (hs : Canonical s) {t : State}
    (ht : execCallt a sg s = .next t) : Canonical t := by
  unfold execCallt at ht
  grind [canonical_raise, → canonical_scalarAccess]

theorem canonical_execNop (_n : BitVec 12) {s : State} (hs : Canonical s) {t : State}
    (ht : execNop _n s = .next t) : Canonical t := by
  unfold execNop at ht
  grind [canonical_upd]

theorem canonical_execYield {s : State} (hs : Canonical s) {t : State}
    (ht : execYield s = .next t) : Canonical t := by
  unfold execYield at ht
  grind [canonical_upd]

theorem canonical_execBkpt {s : State} (hs : Canonical s) {t : State}
    (ht : execBkpt s = .next t) : Canonical t := by
  unfold execBkpt at ht
  grind [canonical_raise]

theorem canonical_csrForm (op : CsrOp) (a : BitVec 5) (c : BitVec 12) {s : State} (hs : Canonical s) {t : State}
    (ht : csrForm op a c s = .next t) : Canonical t := by
  unfold csrForm at ht
  grind [canonical_upd]

theorem canonical_execCsrr (d : BitVec 5) (c : BitVec 12) {s : State} (hs : Canonical s) {t : State}
    (ht : execCsrr d c s = .next t) : Canonical t := by
  unfold execCsrr at ht
  grind [canonical_upd]

theorem canonical_execCsrw (a : BitVec 5) (c : BitVec 12) {s : State} (hs : Canonical s) {t : State}
    (ht : execCsrw a c s = .next t) : Canonical t := by
  unfold execCsrw at ht
  grind [→ canonical_csrForm, canonical_upd]

theorem canonical_execCsrs (a : BitVec 5) (c : BitVec 12) {s : State} (hs : Canonical s) {t : State}
    (ht : execCsrs a c s = .next t) : Canonical t := by
  unfold execCsrs at ht
  grind [→ canonical_csrForm]

theorem canonical_execCsrc (a : BitVec 5) (c : BitVec 12) {s : State} (hs : Canonical s) {t : State}
    (ht : execCsrc a c s = .next t) : Canonical t := by
  unfold execCsrc at ht
  grind [→ canonical_csrForm]

theorem canonical_vectorForm (f : VForm) (run : Strand → Strand) {s : State} (hs : Canonical s) {t : State}
    (ht : vectorForm f run s = .next t) : Canonical t := by
  unfold vectorForm at ht
  grind [canonical_raise, canonical_upd]

theorem canonical_execVcfg (d a : BitVec 5) (g e : BitVec 2) {s : State} (hs : Canonical s) {t : State}
    (ht : execVcfg d a g e s = .next t) : Canonical t := by
  unfold execVcfg at ht
  grind [canonical_upd]

theorem canonical_vintForm (f : Nat → Nat → Nat → Nat) (d a b : BitVec 5) (k : BitVec 3) {s : State} (hs : Canonical s) {t : State}
    (ht : vintForm f d a b k s = .next t) : Canonical t := by
  unfold vintForm at ht
  grind [→ canonical_vectorForm, Option.map_eq_some_iff]

theorem canonical_execVadd (d a b : BitVec 5) (_x _y : BitVec 1) (k : BitVec 3) {s : State} (hs : Canonical s) {t : State}
    (ht : execVadd d a b _x _y k s = .next t) : Canonical t := by
  unfold execVadd at ht
  grind [→ canonical_vintForm]

theorem canonical_execVsub (d a b : BitVec 5) (_x _y : BitVec 1) (k : BitVec 3) {s : State} (hs : Canonical s) {t : State}
    (ht : execVsub d a b _x _y k s = .next t) : Canonical t := by
  unfold execVsub at ht
  grind [→ canonical_vintForm]

theorem canonical_execVmul (d a b : BitVec 5) (_x _y : BitVec 1) (k : BitVec 3) {s : State} (hs : Canonical s) {t : State}
    (ht : execVmul d a b _x _y k s = .next t) : Canonical t := by
  unfold execVmul at ht
  grind [→ canonical_vintForm]

theorem canonical_execVmulh (d a b : BitVec 5) (_x _y : BitVec 1) (k : BitVec 3) {s : State} (hs : Canonical s) {t : State}
    (ht : execVmulh d a b _x _y k s = .next t) : Canonical t := by
  unfold execVmulh at ht
  grind [→ canonical_vintForm]

theorem canonical_execVand (d a b : BitVec 5) (_x _y : BitVec 1) (k : BitVec 3) {s : State} (hs : Canonical s) {t : State}
    (ht : execVand d a b _x _y k s = .next t) : Canonical t := by
  unfold execVand at ht
  grind [→ canonical_vintForm]

theorem canonical_execVor (d a b : BitVec 5) (_x _y : BitVec 1) (k : BitVec 3) {s : State} (hs : Canonical s) {t : State}
    (ht : execVor d a b _x _y k s = .next t) : Canonical t := by
  unfold execVor at ht
  grind [→ canonical_vintForm]

theorem canonical_execVxor (d a b : BitVec 5) (_x _y : BitVec 1) (k : BitVec 3) {s : State} (hs : Canonical s) {t : State}
    (ht : execVxor d a b _x _y k s = .next t) : Canonical t := by
  unfold execVxor at ht
  grind [→ canonical_vintForm]

theorem canonical_execVandn (d a b : BitVec 5) (_x _y : BitVec 1) (k : BitVec 3) {s : State} (hs : Canonical s) {t : State}
    (ht : execVandn d a b _x _y k s = .next t) : Canonical t := by
  unfold execVandn at ht
  grind [→ canonical_vintForm]

theorem canonical_execVsll (d a b : BitVec 5) (_x _y : BitVec 1) (k : BitVec 3) {s : State} (hs : Canonical s) {t : State}
    (ht : execVsll d a b _x _y k s = .next t) : Canonical t := by
  unfold execVsll at ht
  grind [→ canonical_vintForm]

theorem canonical_execVsrl (d a b : BitVec 5) (_x _y : BitVec 1) (k : BitVec 3) {s : State} (hs : Canonical s) {t : State}
    (ht : execVsrl d a b _x _y k s = .next t) : Canonical t := by
  unfold execVsrl at ht
  grind [→ canonical_vintForm]

theorem canonical_execVsra (d a b : BitVec 5) (_x _y : BitVec 1) (k : BitVec 3) {s : State} (hs : Canonical s) {t : State}
    (ht : execVsra d a b _x _y k s = .next t) : Canonical t := by
  unfold execVsra at ht
  grind [→ canonical_vintForm]

theorem canonical_execVmin (d a b : BitVec 5) (_x _y : BitVec 1) (k : BitVec 3) {s : State} (hs : Canonical s) {t : State}
    (ht : execVmin d a b _x _y k s = .next t) : Canonical t := by
  unfold execVmin at ht
  grind [→ canonical_vintForm]

theorem canonical_execVmax (d a b : BitVec 5) (_x _y : BitVec 1) (k : BitVec 3) {s : State} (hs : Canonical s) {t : State}
    (ht : execVmax d a b _x _y k s = .next t) : Canonical t := by
  unfold execVmax at ht
  grind [→ canonical_vintForm]

theorem canonical_execVminu (d a b : BitVec 5) (_x _y : BitVec 1) (k : BitVec 3) {s : State} (hs : Canonical s) {t : State}
    (ht : execVminu d a b _x _y k s = .next t) : Canonical t := by
  unfold execVminu at ht
  grind [→ canonical_vintForm]

theorem canonical_execVmaxu (d a b : BitVec 5) (_x _y : BitVec 1) (k : BitVec 3) {s : State} (hs : Canonical s) {t : State}
    (ht : execVmaxu d a b _x _y k s = .next t) : Canonical t := by
  unfold execVmaxu at ht
  grind [→ canonical_vintForm]

theorem canonical_execVadds (d a b : BitVec 5) (_x _y : BitVec 1) (k : BitVec 3) {s : State} (hs : Canonical s) {t : State}
    (ht : execVadds d a b _x _y k s = .next t) : Canonical t := by
  unfold execVadds at ht
  grind [→ canonical_vectorForm]

theorem canonical_vcmpForm (f : Nat → Nat → Nat → Bool) (d : BitVec 3) (a b : BitVec 5) (k : BitVec 3) {s : State} (hs : Canonical s)
    {t : State}
    (ht : vcmpForm f d a b k s = .next t) : Canonical t := by
  unfold vcmpForm at ht
  grind [→ canonical_vectorForm, Option.map_eq_some_iff]

theorem canonical_execVcmpEq (d : BitVec 3) (a b : BitVec 5) (_x _y : BitVec 1) (k : BitVec 3) {s : State} (hs : Canonical s) {t : State}
    (ht : execVcmpEq d a b _x _y k s = .next t) : Canonical t := by
  unfold execVcmpEq at ht
  grind [→ canonical_vcmpForm]

theorem canonical_execVcmpNe (d : BitVec 3) (a b : BitVec 5) (_x _y : BitVec 1) (k : BitVec 3) {s : State} (hs : Canonical s) {t : State}
    (ht : execVcmpNe d a b _x _y k s = .next t) : Canonical t := by
  unfold execVcmpNe at ht
  grind [→ canonical_vcmpForm]

theorem canonical_execVcmpLt (d : BitVec 3) (a b : BitVec 5) (_x _y : BitVec 1) (k : BitVec 3) {s : State} (hs : Canonical s) {t : State}
    (ht : execVcmpLt d a b _x _y k s = .next t) : Canonical t := by
  unfold execVcmpLt at ht
  grind [→ canonical_vcmpForm]

theorem canonical_execVcmpLe (d : BitVec 3) (a b : BitVec 5) (_x _y : BitVec 1) (k : BitVec 3) {s : State} (hs : Canonical s) {t : State}
    (ht : execVcmpLe d a b _x _y k s = .next t) : Canonical t := by
  unfold execVcmpLe at ht
  grind [→ canonical_vcmpForm]

theorem canonical_execVcmpLtu (d : BitVec 3) (a b : BitVec 5) (_x _y : BitVec 1) (k : BitVec 3) {s : State} (hs : Canonical s) {t : State}
    (ht : execVcmpLtu d a b _x _y k s = .next t) : Canonical t := by
  unfold execVcmpLtu at ht
  grind [→ canonical_vcmpForm]

theorem canonical_execVcmpLeu (d : BitVec 3) (a b : BitVec 5) (_x _y : BitVec 1) (k : BitVec 3) {s : State} (hs : Canonical s) {t : State}
    (ht : execVcmpLeu d a b _x _y k s = .next t) : Canonical t := by
  unfold execVcmpLeu at ht
  grind [→ canonical_vcmpForm]

theorem canonical_floatForm (word : Word) (ops : List FOp) (more : VForm) (run : Strand → Strand) {s : State} (hs : Canonical s) {t : State}
    (ht : floatForm word ops more run s = .next t) : Canonical t := by
  unfold floatForm at ht
  grind [canonical_raise, → canonical_vectorForm, Option.map_eq_some_iff]

theorem canonical_vfltForm (f : Round → FVal → FVal → FVal × Flags) (d a b : BitVec 5) (k fs : BitVec 3) {s : State} (hs : Canonical s)
    {t : State}
    (ht : vfltForm f d a b k fs s = .next t) : Canonical t := by
  unfold vfltForm at ht
  grind [→ canonical_floatForm]

theorem canonical_execVfadd (d a b : BitVec 5) (_x _y : BitVec 1) (k fs : BitVec 3) {s : State} (hs : Canonical s) {t : State}
    (ht : execVfadd d a b _x _y k fs s = .next t) : Canonical t := by
  unfold execVfadd at ht
  grind [→ canonical_vfltForm]

theorem canonical_execVfsub (d a b : BitVec 5) (_x _y : BitVec 1) (k fs : BitVec 3) {s : State} (hs : Canonical s) {t : State}
    (ht : execVfsub d a b _x _y k fs s = .next t) : Canonical t := by
  unfold execVfsub at ht
  grind [→ canonical_vfltForm]

theorem canonical_execVfmul (d a b : BitVec 5) (_x _y : BitVec 1) (k fs : BitVec 3) {s : State} (hs : Canonical s) {t : State}
    (ht : execVfmul d a b _x _y k fs s = .next t) : Canonical t := by
  unfold execVfmul at ht
  grind [→ canonical_vfltForm]

theorem canonical_execVfmin (d a b : BitVec 5) (_x _y : BitVec 1) (k fs : BitVec 3) {s : State} (hs : Canonical s) {t : State}
    (ht : execVfmin d a b _x _y k fs s = .next t) : Canonical t := by
  unfold execVfmin at ht
  grind [→ canonical_vfltForm]

theorem canonical_execVfmax (d a b : BitVec 5) (_x _y : BitVec 1) (k fs : BitVec 3) {s : State} (hs : Canonical s) {t : State}
    (ht : execVfmax d a b _x _y k fs s = .next t) : Canonical t := by
  unfold execVfmax at ht
  grind [→ canonical_vfltForm]

theorem canonical_execVfdiv (d a b : BitVec 5) (_x _y : BitVec 1) (k fs : BitVec 3) {s : State} (hs : Canonical s) {t : State}
    (ht : execVfdiv d a b _x _y k fs s = .next t) : Canonical t := by
  unfold execVfdiv at ht
  grind [→ canonical_vfltForm]

theorem canonical_execVfsqrt (d a : BitVec 5) (_x : BitVec 1) (k fs : BitVec 3) {s : State} (hs : Canonical s) {t : State}
    (ht : execVfsqrt d a _x k fs s = .next t) : Canonical t := by
  unfold execVfsqrt at ht
  grind [→ canonical_floatForm]

theorem canonical_execVfscale (d a b : BitVec 5) (_x _y : BitVec 1) (k fs : BitVec 3) {s : State} (hs : Canonical s) {t : State}
    (ht : execVfscale d a b _x _y k fs s = .next t) : Canonical t := by
  unfold execVfscale at ht
  grind [→ canonical_floatForm]

theorem canonical_vfmaForm (negP negD : Bool) (d a b : BitVec 5) (k fs : BitVec 3) {s : State} (hs : Canonical s) {t : State}
    (ht : vfmaForm negP negD d a b k fs s = .next t) : Canonical t := by
  unfold vfmaForm at ht
  grind [→ canonical_floatForm]

theorem canonical_execVfma (d a b : BitVec 5) (_x _y : BitVec 1) (k fs : BitVec 3) {s : State} (hs : Canonical s) {t : State}
    (ht : execVfma d a b _x _y k fs s = .next t) : Canonical t := by
  unfold execVfma at ht
  grind [→ canonical_vfmaForm]

theorem canonical_execVfms (d a b : BitVec 5) (_x _y : BitVec 1) (k fs : BitVec 3) {s : State} (hs : Canonical s) {t : State}
    (ht : execVfms d a b _x _y k fs s = .next t) : Canonical t := by
  unfold execVfms at ht
  grind [→ canonical_vfmaForm]

theorem canonical_execVfnma (d a b : BitVec 5) (_x _y : BitVec 1) (k fs : BitVec 3) {s : State} (hs : Canonical s) {t : State}
    (ht : execVfnma d a b _x _y k fs s = .next t) : Canonical t := by
  unfold execVfnma at ht
  grind [→ canonical_vfmaForm]

theorem canonical_execVfnms (d a b : BitVec 5) (_x _y : BitVec 1) (k fs : BitVec 3) {s : State} (hs : Canonical s) {t : State}
    (ht : execVfnms d a b _x _y k fs s = .next t) : Canonical t := by
  unfold execVfnms at ht
  grind [→ canonical_vfmaForm]

theorem canonical_execVfcvt (d a : BitVec 5) (_x : BitVec 1) (k fs : BitVec 3) {s : State} (hs : Canonical s) {t : State}
    (ht : execVfcvt d a _x k fs s = .next t) : Canonical t := by
  unfold execVfcvt at ht
  grind [→ canonical_floatForm, canonical_foldl, Option.map_eq_some_iff]

theorem canonical_sameFormat (draws : Bool) (f : FFmt → Round → Nat → FVal → Nat → Nat × Flags) (d a : BitVec 5) (k fs : BitVec 3)
    {s : State} (hs : Canonical s) {t : State}
    (ht : sameFormat draws f d a k fs s = .next t) : Canonical t := by
  unfold sameFormat at ht
  grind [→ canonical_floatForm]

theorem canonical_execVfcvti (d a : BitVec 5) (_x : BitVec 1) (k fs : BitVec 3) {s : State} (hs : Canonical s) {t : State}
    (ht : execVfcvti d a _x k fs s = .next t) : Canonical t := by
  unfold execVfcvti at ht
  grind [→ canonical_sameFormat]

theorem canonical_execVfneg (d a : BitVec 5) (_x : BitVec 1) (k fs : BitVec 3) {s : State} (hs : Canonical s) {t : State}
    (ht : execVfneg d a _x k fs s = .next t) : Canonical t := by
  unfold execVfneg at ht
  grind [→ canonical_sameFormat]

theorem canonical_execVfabs (d a : BitVec 5) (_x : BitVec 1) (k fs : BitVec 3) {s : State} (hs : Canonical s) {t : State}
    (ht : execVfabs d a _x k fs s = .next t) : Canonical t := by
  unfold execVfabs at ht
  grind [→ canonical_sameFormat]

theorem canonical_execVfclass (d a : BitVec 5) (_x : BitVec 1) (k fs : BitVec 3) {s : State} (hs : Canonical s) {t : State}
    (ht : execVfclass d a _x k fs s = .next t) : Canonical t := by
  unfold execVfclass at ht
  grind [→ canonical_floatForm, Option.map_eq_some_iff]

theorem canonical_vfcmpForm (f : FVal → FVal → Bool × Flags) (d : BitVec 3) (a b : BitVec 5) (k fs : BitVec 3) {s : State}
    (hs : Canonical s) {t : State}
    (ht : vfcmpForm f d a b k fs s = .next t) : Canonical t := by
  unfold vfcmpForm at ht
  grind [→ canonical_floatForm, Option.map_eq_some_iff]

theorem canonical_execVcmpFeq (d : BitVec 3) (a b : BitVec 5) (_x _y : BitVec 1) (k fs : BitVec 3) {s : State} (hs : Canonical s)
    {t : State}
    (ht : execVcmpFeq d a b _x _y k fs s = .next t) : Canonical t := by
  unfold execVcmpFeq at ht
  grind [→ canonical_vfcmpForm]

theorem canonical_execVcmpFlt (d : BitVec 3) (a b : BitVec 5) (_x _y : BitVec 1) (k fs : BitVec 3) {s : State} (hs : Canonical s)
    {t : State}
    (ht : execVcmpFlt d a b _x _y k fs s = .next t) : Canonical t := by
  unfold execVcmpFlt at ht
  grind [→ canonical_vfcmpForm]

theorem canonical_vredForm (start : Nat → Nat) (f : Nat → Nat → Nat → Nat) (d a : BitVec 5) (k : BitVec 3) {s : State}
    (hs : Canonical s) {t : State}
    (ht : vredForm start f d a k s = .next t) : Canonical t := by
  unfold vredForm at ht
  grind [→ canonical_vectorForm, canonical_foldl]

theorem canonical_execVredsum (d a : BitVec 5) (_x : BitVec 1) (k : BitVec 3) {s : State} (hs : Canonical s) {t : State}
    (ht : execVredsum d a _x k s = .next t) : Canonical t := by
  unfold execVredsum at ht
  grind [→ canonical_vredForm]

theorem canonical_execVredmax (d a : BitVec 5) (_x : BitVec 1) (k : BitVec 3) {s : State} (hs : Canonical s) {t : State}
    (ht : execVredmax d a _x k s = .next t) : Canonical t := by
  unfold execVredmax at ht
  grind [→ canonical_vredForm]

theorem canonical_execVredmin (d a : BitVec 5) (_x : BitVec 1) (k : BitVec 3) {s : State} (hs : Canonical s) {t : State}
    (ht : execVredmin d a _x k s = .next t) : Canonical t := by
  unfold execVredmin at ht
  grind [→ canonical_vredForm]

theorem canonical_execVredmaxu (d a : BitVec 5) (_x : BitVec 1) (k : BitVec 3) {s : State} (hs : Canonical s) {t : State}
    (ht : execVredmaxu d a _x k s = .next t) : Canonical t := by
  unfold execVredmaxu at ht
  grind [→ canonical_vredForm]

theorem canonical_execVredminu (d a : BitVec 5) (_x : BitVec 1) (k : BitVec 3) {s : State} (hs : Canonical s) {t : State}
    (ht : execVredminu d a _x k s = .next t) : Canonical t := by
  unfold execVredminu at ht
  grind [→ canonical_vredForm]

theorem canonical_vfredForm (f : FVal → FVal → FVal × Flags) (absent : FFmt → Nat) (d a : BitVec 5) (k fs : BitVec 3) {s : State}
    (hs : Canonical s) {t : State}
    (ht : vfredForm f absent d a k fs s = .next t) : Canonical t := by
  unfold vfredForm at ht
  grind [→ canonical_floatForm, Option.map_eq_some_iff]

theorem canonical_execVfredsum (d a : BitVec 5) (_x : BitVec 1) (k fs : BitVec 3) {s : State} (hs : Canonical s) {t : State}
    (ht : execVfredsum d a _x k fs s = .next t) : Canonical t := by
  unfold execVfredsum at ht
  grind [→ canonical_vfredForm]

theorem canonical_execVfredmax (d a : BitVec 5) (_x : BitVec 1) (k fs : BitVec 3) {s : State} (hs : Canonical s) {t : State}
    (ht : execVfredmax d a _x k fs s = .next t) : Canonical t := by
  unfold execVfredmax at ht
  grind [→ canonical_vfredForm]

theorem canonical_execVfredmin (d a : BitVec 5) (_x : BitVec 1) (k fs : BitVec 3) {s : State} (hs : Canonical s) {t : State}
    (ht : execVfredmin d a _x k fs s = .next t) : Canonical t := by
  unfold execVfredmin at ht
  grind [→ canonical_vfredForm]

theorem canonical_permForm (srcs : List (BitVec 5)) (f : Strand → List (Nat × Nat)) (d : BitVec 5) (k : BitVec 3) {s : State}
    (hs : Canonical s) {t : State}
    (ht : permForm srcs f d k s = .next t) : Canonical t := by
  unfold permForm at ht
  grind [→ canonical_vectorForm]

theorem canonical_execVperm (d a b : BitVec 5) (_x _y : BitVec 1) (k : BitVec 3) {s : State} (hs : Canonical s) {t : State}
    (ht : execVperm d a b _x _y k s = .next t) : Canonical t := by
  unfold execVperm at ht
  grind [→ canonical_permForm, Option.map_eq_some_iff]

theorem canonical_execVslideup (d a b : BitVec 5) (_x : BitVec 1) (k : BitVec 3) {s : State} (hs : Canonical s) {t : State}
    (ht : execVslideup d a b _x k s = .next t) : Canonical t := by
  unfold execVslideup at ht
  grind [→ canonical_permForm, Option.map_eq_some_iff]

theorem canonical_execVslidedn (d a b : BitVec 5) (_x : BitVec 1) (k : BitVec 3) {s : State} (hs : Canonical s) {t : State}
    (ht : execVslidedn d a b _x k s = .next t) : Canonical t := by
  unfold execVslidedn at ht
  grind [→ canonical_permForm, Option.map_eq_some_iff]

theorem canonical_execVcompress (d a : BitVec 5) (_x : BitVec 1) (k : BitVec 3) {s : State} (hs : Canonical s) {t : State}
    (ht : execVcompress d a _x k s = .next t) : Canonical t := by
  unfold execVcompress at ht
  grind [→ canonical_permForm, Option.map_eq_some_iff]

theorem canonical_execVexpand (d a : BitVec 5) (_x : BitVec 1) (k : BitVec 3) {s : State} (hs : Canonical s) {t : State}
    (ht : execVexpand d a _x k s = .next t) : Canonical t := by
  unfold execVexpand at ht
  grind [→ canonical_permForm, Option.map_eq_some_iff]

theorem canonical_execViota (d : BitVec 5) (k : BitVec 3) {s : State} (hs : Canonical s) {t : State}
    (ht : execViota d k s = .next t) : Canonical t := by
  unfold execViota at ht
  grind [→ canonical_permForm, Option.map_eq_some_iff]

theorem canonical_indexedForm (b : BitVec 5) (k : BitVec 3) (f : VForm) (regs : List Nat → VForm → VForm) (run : Strand → Strand)
    {s : State} (hs : Canonical s) {t : State}
    (ht : indexedForm b k f regs run s = .next t) : Canonical t := by
  unfold indexedForm at ht
  grind [canonical_raise, → canonical_vectorForm]

theorem canonical_execVrix (d b : BitVec 5) (_y : BitVec 1) (k : BitVec 3) {s : State} (hs : Canonical s) {t : State}
    (ht : execVrix d b _y k s = .next t) : Canonical t := by
  unfold execVrix at ht
  grind [→ canonical_indexedForm, Option.map_eq_some_iff]

theorem canonical_execVrixw (a b : BitVec 5) (_x _y : BitVec 1) (k : BitVec 3) {s : State} (hs : Canonical s) {t : State}
    (ht : execVrixw a b _x _y k s = .next t) : Canonical t := by
  unfold execVrixw at ht
  grind [→ canonical_indexedForm, canonical_foldl, Option.map_eq_some_iff]

theorem canonical_execVmv (d a : BitVec 5) (_x : BitVec 1) (k : BitVec 3) {s : State} (hs : Canonical s) {t : State}
    (ht : execVmv d a _x k s = .next t) : Canonical t := by
  unfold execVmv at ht
  grind [→ canonical_permForm, Option.map_eq_some_iff]

theorem canonical_execVsplat (d a : BitVec 5) (k : BitVec 3) {s : State} (hs : Canonical s) {t : State}
    (ht : execVsplat d a k s = .next t) : Canonical t := by
  unfold execVsplat at ht
  grind [→ canonical_permForm, Option.map_eq_some_iff]

theorem canonical_execVext (d a b : BitVec 5) (_x : BitVec 1) {s : State} (hs : Canonical s) {t : State}
    (ht : execVext d a b _x s = .next t) : Canonical t := by
  unfold execVext at ht
  grind [→ canonical_vectorForm]

theorem canonical_execVins (d a b : BitVec 5) {s : State} (hs : Canonical s) {t : State}
    (ht : execVins d a b s = .next t) : Canonical t := by
  unfold execVins at ht
  grind [→ canonical_vectorForm]

theorem canonical_execVsel (d a b : BitVec 5) (_x _y : BitVec 1) (k : BitVec 3) {s : State} (hs : Canonical s) {t : State}
    (ht : execVsel d a b _x _y k s = .next t) : Canonical t := by
  unfold execVsel at ht
  grind [→ canonical_permForm, Option.map_eq_some_iff]

theorem canonical_wholeMove (num : Word) (src dst : Nat) {s : State} (hs : Canonical s) {t : State}
    (ht : wholeMove num src dst s = .next t) : Canonical t := by
  unfold wholeMove at ht
  grind [canonical_raise, → canonical_vectorForm]

theorem canonical_execVmvi (d a : BitVec 5) {s : State} (hs : Canonical s) {t : State}
    (ht : execVmvi d a s = .next t) : Canonical t := by
  unfold execVmvi at ht
  grind [→ canonical_wholeMove]

theorem canonical_execVmvo (d a : BitVec 5) (_x : BitVec 1) {s : State} (hs : Canonical s) {t : State}
    (ht : execVmvo d a _x s = .next t) : Canonical t := by
  unfold execVmvo at ht
  grind [→ canonical_wholeMove]

theorem canonical_kForm (f : KReg → KReg → KReg) (d a b : BitVec 3) {s : State} (hs : Canonical s) {t : State}
    (ht : kForm f d a b s = .next t) : Canonical t := by
  unfold kForm at ht
  grind [→ canonical_vectorForm]

theorem canonical_execKand (d a b : BitVec 3) {s : State} (hs : Canonical s) {t : State}
    (ht : execKand d a b s = .next t) : Canonical t := by
  unfold execKand at ht
  grind [→ canonical_kForm]

theorem canonical_execKor (d a b : BitVec 3) {s : State} (hs : Canonical s) {t : State}
    (ht : execKor d a b s = .next t) : Canonical t := by
  unfold execKor at ht
  grind [→ canonical_kForm]

theorem canonical_execKxor (d a b : BitVec 3) {s : State} (hs : Canonical s) {t : State}
    (ht : execKxor d a b s = .next t) : Canonical t := by
  unfold execKxor at ht
  grind [→ canonical_kForm]

theorem canonical_execKandn (d a b : BitVec 3) {s : State} (hs : Canonical s) {t : State}
    (ht : execKandn d a b s = .next t) : Canonical t := by
  unfold execKandn at ht
  grind [→ canonical_kForm]

theorem canonical_execKpopc (d : BitVec 5) (a : BitVec 3) {s : State} (hs : Canonical s) {t : State}
    (ht : execKpopc d a s = .next t) : Canonical t := by
  unfold execKpopc at ht
  grind [→ canonical_vectorForm]

theorem canonical_execKfirst (d : BitVec 5) (a : BitVec 3) {s : State} (hs : Canonical s) {t : State}
    (ht : execKfirst d a s = .next t) : Canonical t := by
  unfold execKfirst at ht
  grind [→ canonical_vectorForm]

theorem canonical_execKbrka (d a : BitVec 3) {s : State} (hs : Canonical s) {t : State}
    (ht : execKbrka d a s = .next t) : Canonical t := by
  unfold execKbrka at ht
  grind [→ canonical_kForm]

theorem canonical_execKbrki (d a : BitVec 3) {s : State} (hs : Canonical s) {t : State}
    (ht : execKbrki d a s = .next t) : Canonical t := by
  unfold execKbrki at ht
  grind [→ canonical_kForm]

theorem canonical_execGbcast (a : BitVec 5) (_x : BitVec 1) {s : State} (hs : Canonical s) {t : State}
    (ht : execGbcast a _x s = .next t) : Canonical t := by
  unfold execGbcast at ht
  grind [canonical_raise, canonical_upd, canonical_updSlot, canonical_foldl]

theorem canonical_execGrecv (d : BitVec 5) {s : State} (hs : Canonical s) {t : State}
    (ht : execGrecv d s = .next t) : Canonical t := by
  unfold execGrecv at ht
  grind [canonical_raise, canonical_upd]

theorem canonical_checkElems (slot n : Nat) (need : Need) (acc : Accepts) {s : State} (l : List (Nat × Word))
    (hs : Canonical s) : Canonical (checkElems slot n need acc s l).2.2 :=
  canonical_onlyHomes (onlyHomes_checkElems (l := l) rfl) hs

theorem canonical_vmLeave (x : Leave) (fin : Strand → Strand) {s0 s : State} (hs0 : Canonical s0) (hs1 : Canonical s) {t : State}
    (ht : vmLeave x fin s0 s = .next t) : Canonical t := by
  unfold vmLeave at ht
  grind [canonical_raiseFail, canonical_upd, canonical_nextSeq, canonical_post, canonical_foldl, Option.map_eq_some_iff]

theorem canonical_vmForm (sw ss : BitVec 3) (addr : List VOp) (f : VForm) {body : State → Out}
    (hb : ∀ u t, Canonical u → body u = .next t → Canonical t) {s : State} (hs : Canonical s) {t : State}
    (ht : vmForm sw ss addr f body s = .next t) : Canonical t := by
  unfold vmForm at ht
  grind [canonical_mk, → Canonical.mem, → Canonical.hostMem, canonical_raiseSlot, canonical_raise, canonical_upd]

theorem canonical_loadForm (addr : Strand → Nat → Word) (idx : List (BitVec 5)) (acc : Accepts) (linked : List Elem → Elem → Bool)
    (v : BitVec 5) (k sw ss : BitVec 3) {s : State} (hs : Canonical s) {t : State}
    (ht : loadForm addr idx acc linked v k sw ss s = .next t) : Canonical t := by
  unfold loadForm at ht
  grind [→ canonical_vmForm, canonical_checkElems, → canonical_vmLeave, Option.map_eq_some_iff]

theorem canonical_execVld (v a : BitVec 5) (k w ss : BitVec 3) {s : State} (hs : Canonical s) {t : State}
    (ht : execVld v a k w ss s = .next t) : Canonical t := by
  unfold execVld at ht
  grind [→ canonical_loadForm]

theorem canonical_execVlds (v a b : BitVec 5) (k w ss : BitVec 3) {s : State} (hs : Canonical s) {t : State}
    (ht : execVlds v a b k w ss s = .next t) : Canonical t := by
  unfold execVlds at ht
  grind [→ canonical_loadForm]

theorem canonical_execVldx (v a b : BitVec 5) (k w ss : BitVec 3) (_c : BitVec 1) {s : State} (hs : Canonical s) {t : State}
    (ht : execVldx v a b k w ss _c s = .next t) : Canonical t := by
  unfold execVldx at ht
  grind [→ canonical_loadForm]

theorem canonical_execVgl (v a b : BitVec 5) (k w ss : BitVec 3) (_c : BitVec 1) {s : State} (hs : Canonical s) {t : State}
    (ht : execVgl v a b k w ss _c s = .next t) : Canonical t := by
  unfold execVgl at ht
  grind [→ canonical_loadForm]

theorem canonical_execVldff (v a : BitVec 5) (k w ss : BitVec 3) {s : State} (hs : Canonical s) {t : State}
    (ht : execVldff v a k w ss s = .next t) : Canonical t := by
  unfold execVldff at ht
  grind [→ canonical_vmForm, canonical_checkElems, → canonical_vmLeave, canonical_afterFail, Option.map_eq_some_iff]

theorem canonical_storeForm (addr : Strand → Nat → Word) (idx : List (BitVec 5)) (acc : Accepts) (kw : List Nat)
    (mk : List Nat → Bool → Word → AccessOp) (v : BitVec 5) (k sw ss : BitVec 3) {s : State} (hs : Canonical s) {t : State}
    (ht : storeForm addr idx acc kw mk v k sw ss s = .next t) : Canonical t := by
  unfold storeForm at ht
  grind [→ canonical_vmForm, canonical_checkElems, → canonical_vmLeave, Option.map_eq_some_iff]

theorem canonical_execVst (v a : BitVec 5) (k w ss : BitVec 3) (_c : BitVec 1) {s : State} (hs : Canonical s) {t : State}
    (ht : execVst v a k w ss _c s = .next t) : Canonical t := by
  unfold execVst at ht
  grind [→ canonical_storeForm]

theorem canonical_execVsts (v a b : BitVec 5) (k w ss : BitVec 3) (_c : BitVec 1) {s : State} (hs : Canonical s) {t : State}
    (ht : execVsts v a b k w ss _c s = .next t) : Canonical t := by
  unfold execVsts at ht
  grind [→ canonical_storeForm]

theorem canonical_execVstx (v a b : BitVec 5) (k w ss : BitVec 3) (_c : BitVec 1) {s : State} (hs : Canonical s) {t : State}
    (ht : execVstx v a b k w ss _c s = .next t) : Canonical t := by
  unfold execVstx at ht
  grind [→ canonical_storeForm]

theorem canonical_execVsc (v a b : BitVec 5) (k w ss : BitVec 3) (_c : BitVec 1) {s : State} (hs : Canonical s) {t : State}
    (ht : execVsc v a b k w ss _c s = .next t) : Canonical t := by
  unfold execVsc at ht
  grind [→ canonical_storeForm]

theorem canonical_appendWrites (v b : BitVec 5) (k ss : BitVec 3) (r : Append) {s0 s : State} (hs0 : Canonical s0) (hs1 : Canonical s)
    {t : State}
    (ht : appendWrites v b k ss r s0 s = .next t) : Canonical t := by
  unfold appendWrites at ht
  grind [canonical_checkElems, → canonical_vmLeave]

theorem canonical_execVappend (v a b : BitVec 5) (k w ss : BitVec 3) (_c : BitVec 1) {s : State} (hs : Canonical s) {t : State}
    (ht : execVappend v a b k w ss _c s = .next t) : Canonical t := by
  unfold execVappend at ht
  grind [→ canonical_vmForm, → canonical_appendWrites, → canonical_locate, canonical_raiseFail, canonical_raise, canonical_lostLog,
    canonical_nextSeq, canonical_post, → canonical_reduceFold, canonical_performAt, canonical_upd]

theorem canonical_execVrred (v a b : BitVec 5) (k w ss : BitVec 3) (_c : BitVec 1) {s : State} (hs : Canonical s) {t : State}
    (ht : execVrred v a b k w ss _c s = .next t) : Canonical t := by
  unfold execVrred at ht
  grind [canonical_raiseSlot, canonical_raise, → canonical_vmForm, canonical_checkElems, → canonical_vmLeave, Option.map_eq_some_iff]

theorem canonical_sweepFrames {s : State} (slot : Nat) (hs : Canonical s) :
    Canonical (sweepFrames s slot) := by
  unfold sweepFrames
  grind [canonical_mk, → Canonical.mem, → Canonical.hostMem]

theorem canonical_orphanFrame {s : State} (slot r : Nat) (hs : Canonical s) :
    Canonical (orphanFrame s slot r) := by
  unfold orphanFrame
  grind [canonical_mk, → Canonical.mem, → Canonical.hostMem]

theorem canonical_ownPlace_ok {s : State} (p : BitVec 6) (sid : BitVec 11) (va n : Nat) (need : Need) (hs : Canonical s) {x : ℕ}
    {y : Bool} {t : State}
    (ht : ownPlace s p sid va n need = .ok (x, y, t)) : Canonical t := by
  unfold ownPlace at ht
  grind [→ canonical_locate, canonical_hold, canonical_afterFail]

theorem canonical_ownPlace_error {s : State} (p : BitVec 6) (sid : BitVec 11) (va n : Nat) (need : Need) (hs : Canonical s) {t : State}
    (ht : ownPlace s p sid va n need = .error t) : Canonical t := by
  unfold ownPlace at ht
  grind [→ canonical_locate, canonical_hold, canonical_afterFail]

theorem canonical_absentInMemory {s : State} (f : Frame) (hs : Canonical s) :
    Canonical (absentInMemory s f) := by
  unfold absentInMemory
  grind [→ canonical_ownPlace_ok, → canonical_ownPlace_error, canonical_homeWrite]

theorem canonical_takeFrame {s : State} (slot r : Nat) (hs : Canonical s) {x : ℕ} {t : State}
    (ht : takeFrame s slot r = some (x, t)) : Canonical t := by
  unfold takeFrame at ht
  grind [canonical_mk, → Canonical.mem, → Canonical.hostMem, canonical_absentInMemory]

/-- The state that room for frames comes with. -/
def Room.state : Room → State
  | .made s => s
  | .spilling s => s
  | .full s => s

theorem canonical_oneVictim {s : State} (slot : Nat) (hs : Canonical s) : Canonical (oneVictim s slot).state := by
  unfold oneVictim
  grind [Room.state, canonical_mk, → Canonical.mem, → Canonical.hostMem, canonical_setStrand]

theorem canonical_makeRoom (slot limit n : Nat) {s : State} (hs : Canonical s) :
    Canonical (makeRoom slot limit n s).state := by
  induction n generalizing s with
  | zero => exact hs
  | succ n ih =>
    have hv := canonical_oneVictim slot hs
    unfold makeRoom
    grind [Room.state]

theorem canonical_made {slot limit n : Nat} {s t : State} (hs : Canonical s) (ht : makeRoom slot limit n s = .made t) :
    Canonical t := by
  have h := canonical_makeRoom slot limit n hs
  rwa [ht] at h

theorem canonical_spilling {slot limit n : Nat} {s t : State} (hs : Canonical s)
    (ht : makeRoom slot limit n s = .spilling t) : Canonical t := by
  have h := canonical_makeRoom slot limit n hs
  rwa [ht] at h

theorem canonical_full {slot limit n : Nat} {s t : State} (hs : Canonical s) (ht : makeRoom slot limit n s = .full t) :
    Canonical t := by
  have h := canonical_makeRoom slot limit n hs
  rwa [ht] at h

theorem canonical_evictToQuota {s : State} (slot : Nat) (hs : Canonical s) :
    Canonical (evictToQuota s slot) := by
  unfold evictToQuota
  grind [canonical_makeRoom, → canonical_made, → canonical_spilling, → canonical_full]

theorem canonical_mIssue (x : MSpec) (after : Strand → Strand) {s : State} (hs : Canonical s) {t : State}
    (ht : mIssue x after s = .next t) : Canonical t := by
  unfold mIssue at ht
  grind [canonical_raise, canonical_nextSeq, canonical_upd]

theorem canonical_locateRun {s : State} (slot : Nat) (c : MCommand) (need : Need) (r : Run) (hs : Canonical s) {x : Place} {t : State}
    (ht : locateRun s slot c need r = .ok (x, t)) : Canonical t := by
  unfold locateRun at ht
  grind [→ canonical_locate]

theorem canonical_locateRuns (slot : Nat) (c : MCommand) (need : Need) {s : State} (l : List Run) (hs : Canonical s)
    {x : List (Run × Place)} {t : State} (ht : locateRuns slot c need s l = .ok (x, t)) : Canonical t :=
  canonical_onlyHomes (onlyHomes_locateRuns ht) hs

theorem canonical_tilePlaces {s : State} (slot : Nat) (c : MCommand) (hs : Canonical s)
    {x : List (Run × Place)} {t : State} (ht : tilePlaces s slot c = .ok (x, t)) : Canonical t :=
  canonical_onlyHomes (onlyHomes_tilePlaces ht) hs

theorem canonical_unstartAll {s : State} (slot : Nat) (ids : List Nat) (hs : Canonical s) :
    Canonical (unstartAll s slot ids) := by
  unfold unstartAll
  grind [canonical_mk, → Canonical.mem, → Canonical.hostMem, canonical_giveTag, canonical_updSlot, canonical_foldl]

theorem canonical_mFault {s : State} (slot : Nat) (c : MCommand) (f : Failure) (row : Nat) (hs : Canonical s) :
    Canonical (mFault s slot c f row) := by
  unfold mFault
  grind [canonical_updSlot, canonical_unstartAll, canonical_raiseAt, canonical_afterFail]

theorem canonical_startFills (slot : Nat) (c : MCommand) (l : List Nat) {s : State} (hs : Canonical s) {t : State}
    (ht : startFills slot c l s = some t) : Canonical t := by
  induction l generalizing s with
  | nil => exact Option.some.inj ht ▸ hs
  | cons r rest ih =>
    unfold startFills at ht
    grind [→ canonical_takeFrame, canonical_updSlot]

theorem canonical_sendTileReads {s : State} (slot : Nat) (l : List (Run × Place)) (hs : Canonical s) :
    Canonical (sendTileReads s slot l) := by
  unfold sendTileReads
  grind [canonical_mk, → Canonical.mem, → Canonical.hostMem, canonical_countEvent]

theorem canonical_startFrames {s : State} (slot : Nat) (c : MCommand) (fills : List Nat) (hs : Canonical s) {x : Option ℕ} {t : State}
    (ht : startFrames s slot c fills = some (x, t)) : Canonical t := by
  unfold startFrames at ht
  grind [→ canonical_startFills, → canonical_takeFrame, Option.map_eq_some_iff]

theorem canonical_mLaunch {s : State} (slot : Nat) (c : MCommand) (t : Strand) (fr : Option Nat) (tag : Option Nat)
    (places : List (Run × Place)) (hs : Canonical s) :
    Canonical (mLaunch s slot c t fr tag places) := by
  unfold mLaunch
  grind [canonical_mk, → Canonical.mem, → Canonical.hostMem, canonical_updSlot, canonical_sendTileReads]

theorem canonical_mStart {s : State} (slot : Nat) (c : MCommand) (hs : Canonical s) :
    Canonical (mStart s slot c) := by
  unfold mStart
  grind (splits := 20) (gen := 24) (ematch := 24) [canonical_mk, → Canonical.mem, → Canonical.hostMem, canonical_mFault,
    → canonical_tilePlaces, → canonical_engineTag, → canonical_startFrames, canonical_mLaunch, canonical_makeRoom, → canonical_made,
    → canonical_spilling, → canonical_full]

theorem canonical_storeTile (slot : Nat) (x : Tile) (l : List (Run × Place)) {s : State} (hs : Canonical s) :
    Canonical (storeTile slot x l s) := by
  induction l generalizing s with
  | nil => exact hs
  | cons r rest ih =>
    unfold storeTile
    grind [canonical_placeWrite]

theorem canonical_sendTileWrites {s : State} (slot : Nat) (t : Tile) (l : List (Run × Place)) (hs : Canonical s) :
    Canonical (sendTileWrites s slot t l) := by
  unfold sendTileWrites
  grind [canonical_mk, → Canonical.mem, → Canonical.hostMem, canonical_countEvent]

theorem canonical_releaseRegs (slot : Nat) (l : List Nat) {s : State} (hs : Canonical s) :
    Canonical (releaseRegs slot l s) := by
  induction l generalizing s with
  | nil => exact hs
  | cons r rest ih => exact ih (canonical_updSlot slot _ (canonical_orphanFrame slot r hs))

theorem canonical_mComplete {s : State} (slot : Nat) (c : MCommand) (tile : Tile) (bad : List Nat) (hs : Canonical s) :
    Canonical (mComplete s slot c tile bad) := by
  unfold mComplete
  grind [canonical_mk, → Canonical.mem, → Canonical.hostMem, canonical_orphanFrame, canonical_updSlot, canonical_releaseRegs,
    canonical_evictToQuota, canonical_sweepFrames, canonical_countEvent]

theorem canonical_runFault {s : State} (slot : Nat) (c : MCommand) (x : Run × Place × FaultClass) (hs : Canonical s) :
    Canonical (runFault s slot c x) := by
  unfold runFault
  grind [canonical_mFault, canonical_lostLog]

theorem canonical_retireLoad {s : State} (slot : Nat) (c : MCommand) (places : List (Run × Place)) (f : Feed) (rep : Reply)
    (hs : Canonical s) :
    Canonical (retireLoad s slot c places f rep) := by
  unfold retireLoad
  grind [canonical_runFault, canonical_countEvent, canonical_mComplete, canonical_giveTag]

theorem canonical_retireStore {s : State} (slot : Nat) (c : MCommand) (places : List (Run × Place)) (rows : List Nat) (rep : Reply)
    (hs : Canonical s) :
    Canonical (retireStore s slot c places rows rep) := by
  unfold retireStore
  grind [canonical_mFault, canonical_mComplete, canonical_giveTag, canonical_runFault, → canonical_engineTag, canonical_countEvent,
    canonical_storeTile, canonical_updSlot, canonical_sendTileWrites]

theorem canonical_mRetire {s : State} (slot : Nat) (c : MCommand) (x : Args) (hs : Canonical s) :
    Canonical (mRetire s slot c x) := by
  unfold mRetire
  grind [→ canonical_tilePlaces, canonical_mFault, canonical_retireLoad, canonical_retireStore, canonical_updSlot, canonical_mComplete]

theorem canonical_execMCommandRetire {s : State} (hs : Canonical s) {t : State}
    (ht : execMCommandRetire s = .next t) : Canonical t := by
  unfold execMCommandRetire at ht
  grind [canonical_mRetire, canonical_mStart]

theorem state_of_some {α β : Type} {a x : α} {b y : β} {s t : State} (h : some (a, b, s) = some (x, y, t)) : s = t := by
  injection h with h
  injection h with _ h
  injection h

theorem canonical_fillRead {s : State} (slot r : Nat) (hs : Canonical s) {x : Tile} {y : List ℕ} {t : State}
    (ht : fillRead s slot r = some (x, y, t)) : Canonical t := by
  have hL : ∀ c va n al need acc x u, locate s c va n al need acc = .ok (x, u) → Canonical u :=
    fun c va n al need acc x u h => canonical_locate c va n al need acc hs h
  obtain ⟨F, hF⟩ : ∃ F, F = fillRead := ⟨_, rfl⟩
  rw [← hF] at ht
  delta fillRead at hF
  generalize locate = L at hF hL
  generalize homeRead = R at hF
  generalize underTest = U at hF
  subst hF
  beta_reduce at ht
  extract_lets q va at ht
  split at ht
  · next hl =>
    have h1 := hL _ _ _ _ _ _ _ _ hl
    split at ht
    · exact absurd ht nofun
    · refine state_of_some ht ▸ ?_
      split
      · exact canonical_lostLog _ _ _ _ h1
      · exact h1
  · exact state_of_some ht ▸ hs
  · exact state_of_some ht ▸ canonical_afterFail _ _ _ hs

theorem canonical_execFillComplete {s : State} (hs : Canonical s) {t : State}
    (ht : execFillComplete s = .next t) : Canonical t := by
  unfold execFillComplete at ht
  grind [canonical_mk, → Canonical.mem, → Canonical.hostMem, → canonical_fillRead, canonical_updSlot, canonical_countEvent,
    canonical_sweepFrames]

theorem canonical_writeBack {s : State} (sid : BitVec 11) (pa : Nat) (comp : Bool) (f : Frame) (hs : Canonical s) :
    Canonical (writeBack s sid pa comp f) := by
  unfold writeBack
  grind [canonical_poisonSectors, canonical_homeWrite, canonical_errLog]

theorem canonical_execSpillComplete {s : State} (hs : Canonical s) {t : State}
    (ht : execSpillComplete s = .next t) : Canonical t := by
  unfold execSpillComplete at ht
  grind [canonical_mk, → Canonical.mem, → Canonical.hostMem, → canonical_locate, canonical_writeBack, canonical_updSlot,
    canonical_countEvent, canonical_mendPtes]

theorem canonical_scratchFrame {s : State} (core : Nat) (hs : Canonical s) {x : ℕ} {t : State}
    (ht : scratchFrame s core = some (x, t)) : Canonical t := by
  unfold scratchFrame at ht
  grind [canonical_mk, → Canonical.mem, → Canonical.hostMem, canonical_absentInMemory]

theorem canonical_addScratch (slot n : Nat) {s : State} (hs : Canonical s) : Canonical (addScratch slot n s) := by
  induction n generalizing s with
  | zero => exact hs
  | succ n ih =>
    unfold addScratch
    grind [→ canonical_scratchFrame, canonical_updSlot]

theorem canonical_execMsmcfgWrite {s : State} (hs : Canonical s) {t : State}
    (ht : execMsmcfgWrite s = .next t) : Canonical t := by
  unfold execMsmcfgWrite at ht
  grind [canonical_raiseAt, canonical_updSlot, canonical_addScratch, canonical_makeRoom, → canonical_made, → canonical_spilling,
    → canonical_full]

theorem canonical_execSrseedWrite {s : State} (hs : Canonical s) {t : State}
    (ht : execSrseedWrite s = .next t) : Canonical t := by
  unfold execSrseedWrite at ht
  grind [canonical_updSlot]

theorem canonical_execTshape (d a : BitVec 5) (f : BitVec 3) {s : State} (hs : Canonical s) {t : State}
    (ht : execTshape d a f s = .next t) : Canonical t := by
  unfold execTshape at ht
  grind [canonical_raise, canonical_upd]

theorem canonical_execSetmw (a : BitVec 5) {s : State} (hs : Canonical s) {t : State}
    (ht : execSetmw a s = .next t) : Canonical t := by
  unfold execSetmw at ht
  grind [canonical_upd]

theorem canonical_execTpref (m : BitVec 5) (p w : BitVec 2) {s : State} (hs : Canonical s) {t : State}
    (ht : execTpref m p w s = .next t) : Canonical t := by
  unfold execTpref at ht
  grind [→ canonical_mIssue]

theorem canonical_execTdrop (m : BitVec 5) (p w : BitVec 2) {s : State} (hs : Canonical s) {t : State}
    (ht : execTdrop m p w s = .next t) : Canonical t := by
  unfold execTdrop at ht
  grind [→ canonical_mIssue]

theorem canonical_execTzero (m : BitVec 5) (p w : BitVec 2) {s : State} (hs : Canonical s) {t : State}
    (ht : execTzero m p w s = .next t) : Canonical t := by
  unfold execTzero at ht
  grind [→ canonical_mIssue]

theorem canonical_execTloadA (m a b : BitVec 5) (y p w : BitVec 2) {s : State} (hs : Canonical s) {t : State}
    (ht : execTloadA m a b y p w s = .next t) : Canonical t := by
  unfold execTloadA at ht
  grind [→ canonical_mIssue]

theorem canonical_execTloadB (m a b : BitVec 5) (y p w : BitVec 2) {s : State} (hs : Canonical s) {t : State}
    (ht : execTloadB m a b y p w s = .next t) : Canonical t := by
  unfold execTloadB at ht
  grind [→ canonical_mIssue]

theorem canonical_execTloadC (m a b : BitVec 5) (p w : BitVec 2) {s : State} (hs : Canonical s) {t : State}
    (ht : execTloadC m a b p w s = .next t) : Canonical t := by
  unfold execTloadC at ht
  grind [→ canonical_mIssue]

theorem canonical_execTstoreA (m a b : BitVec 5) (p w : BitVec 2) {s : State} (hs : Canonical s) {t : State}
    (ht : execTstoreA m a b p w s = .next t) : Canonical t := by
  unfold execTstoreA at ht
  grind [→ canonical_mIssue]

theorem canonical_execTstoreB (m a b : BitVec 5) (p w : BitVec 2) {s : State} (hs : Canonical s) {t : State}
    (ht : execTstoreB m a b p w s = .next t) : Canonical t := by
  unfold execTstoreB at ht
  grind [→ canonical_mIssue]

theorem canonical_execTstoreC (m a b : BitVec 5) (p w : BitVec 2) {s : State} (hs : Canonical s) {t : State}
    (ht : execTstoreC m a b p w s = .next t) : Canonical t := by
  unfold execTstoreC at ht
  grind [→ canonical_mIssue]

theorem canonical_tmmaForm (i : Instr) (set swap : Bool) (d a : BitVec 5) (l : BitVec 1) (f : BitVec 3) (p w : BitVec 2) {s : State}
    (hs : Canonical s) {t : State}
    (ht : tmmaForm i set swap d a l f p w s = .next t) : Canonical t := by
  unfold tmmaForm at ht
  grind [→ canonical_mIssue]

theorem canonical_execTmma (d a : BitVec 5) (l : BitVec 1) (f : BitVec 3) (p w : BitVec 2) {s : State} (hs : Canonical s) {t : State}
    (ht : execTmma d a l f p w s = .next t) : Canonical t := by
  unfold execTmma at ht
  grind [→ canonical_tmmaForm]

theorem canonical_execTmmaSet (d a : BitVec 5) (l : BitVec 1) (f : BitVec 3) (p w : BitVec 2) {s : State} (hs : Canonical s) {t : State}
    (ht : execTmmaSet d a l f p w s = .next t) : Canonical t := by
  unfold execTmmaSet at ht
  grind [→ canonical_tmmaForm]

theorem canonical_execTmmaSw (d a : BitVec 5) (l : BitVec 1) (f : BitVec 3) (p w : BitVec 2) {s : State} (hs : Canonical s) {t : State}
    (ht : execTmmaSw d a l f p w s = .next t) : Canonical t := by
  unfold execTmmaSw at ht
  grind [→ canonical_tmmaForm]

theorem canonical_execTmmaSetSw (d a : BitVec 5) (l : BitVec 1) (f : BitVec 3) (p w : BitVec 2) {s : State} (hs : Canonical s) {t : State}
    (ht : execTmmaSetSw d a l f p w s = .next t) : Canonical t := by
  unfold execTmmaSetSw at ht
  grind [→ canonical_tmmaForm]

theorem canonical_execTwload (a : BitVec 5) (l : BitVec 1) (f : BitVec 3) (p w : BitVec 2) {s : State} (hs : Canonical s) {t : State}
    (ht : execTwload a l f p w s = .next t) : Canonical t := by
  unfold execTwload at ht
  grind [→ canonical_mIssue]

theorem canonical_execVtom (m a b : BitVec 5) (p w : BitVec 2) {s : State} (hs : Canonical s) {t : State}
    (ht : execVtom m a b p w s = .next t) : Canonical t := by
  unfold execVtom at ht
  grind [→ canonical_mIssue]

theorem canonical_execMtov (d a b : BitVec 5) (l : BitVec 1) (p w : BitVec 2) {s : State} (hs : Canonical s) {t : State}
    (ht : execMtov d a b l p w s = .next t) : Canonical t := by
  unfold execMtov at ht
  grind [→ canonical_mIssue]

theorem canonical_execTtrans (d a : BitVec 5) (l : BitVec 1) (p w : BitVec 2) {s : State} (hs : Canonical s) {t : State}
    (ht : execTtrans d a l p w s = .next t) : Canonical t := by
  unfold execTtrans at ht
  grind [→ canonical_mIssue]

theorem canonical_execTcvt (d a : BitVec 5) (l : BitVec 1) (f : BitVec 3) (p w : BitVec 2) {s : State} (hs : Canonical s) {t : State}
    (ht : execTcvt d a l f p w s = .next t) : Canonical t := by
  unfold execTcvt at ht
  grind [→ canonical_mIssue]

theorem canonical_execTadd (d a b : BitVec 5) (l h : BitVec 1) (f : BitVec 3) (p w : BitVec 2) {s : State} (hs : Canonical s) {t : State}
    (ht : execTadd d a b l h f p w s = .next t) : Canonical t := by
  unfold execTadd at ht
  grind [→ canonical_mIssue]

theorem canonical_barForm (x : BarForm) (a : BitVec 5) {home : Nat → Bool → State → State}
    (hh : ∀ pa c u, Canonical u → Canonical (home pa c u)) {s : State} (hs : Canonical s) {t : State}
    (ht : barForm x a home s = .next t) : Canonical t := by
  unfold barForm at ht
  grind [canonical_mk, → Canonical.mem, → Canonical.hostMem, canonical_raise, canonical_raiseFail, → canonical_locate, canonical_lostLog, canonical_upd, canonical_post,
    canonical_nextSeq]

theorem canonical_withTag (va : Word) (pa : Nat) {f : BitVec 4 → State → State}
    (hf : ∀ p u, Canonical u → Canonical (f p u)) {s : State} (hs : Canonical s) : Canonical (withTag va pa f s) := by
  unfold withTag
  grind [canonical_raise]

theorem canonical_homeUpdate (a : BitVec 5) (d : Option (BitVec 5)) (dA : Nat) (dS : Int) (push : BitVec 2) (pa : Nat) (comp : Bool)
    {s : State} (hs : Canonical s) :
    Canonical (homeUpdate a d dA dS push pa comp s) := by
  unfold homeUpdate
  grind [canonical_barUpdate, canonical_raise, canonical_upd]

theorem canonical_execBinit (a b : BitVec 5) (p w : BitVec 2) {s : State} (hs : Canonical s) {t : State}
    (ht : execBinit a b p w s = .next t) : Canonical t := by
  unfold execBinit at ht
  grind [→ canonical_barForm, canonical_upd, canonical_homeWrite]

theorem canonical_execBexp (a b : BitVec 5) (p w : BitVec 2) {s : State} (hs : Canonical s) {t : State}
    (ht : execBexp a b p w s = .next t) : Canonical t := by
  unfold execBexp at ht
  grind [→ canonical_barForm, canonical_homeUpdate]

theorem canonical_execBarr (a b : BitVec 5) (p w : BitVec 2) {s : State} (hs : Canonical s) {t : State}
    (ht : execBarr a b p w s = .next t) : Canonical t := by
  unfold execBarr at ht
  grind [→ canonical_barForm, canonical_homeUpdate]

theorem canonical_execBexparr (a b c : BitVec 5) (p w : BitVec 2) {s : State} (hs : Canonical s) {t : State}
    (ht : execBexparr a b c p w s = .next t) : Canonical t := by
  unfold execBexparr at ht
  grind [→ canonical_barForm, canonical_homeUpdate]

theorem canonical_execPend (a b : BitVec 5) (p w : BitVec 2) {s : State} (hs : Canonical s) {t : State}
    (ht : execPend a b p w s = .next t) : Canonical t := by
  unfold execPend at ht
  grind [→ canonical_barForm, canonical_homeUpdate]

theorem canonical_execBtest (a b : BitVec 5) (p w : BitVec 2) {s : State} (hs : Canonical s) {t : State}
    (ht : execBtest a b p w s = .next t) : Canonical t := by
  unfold execBtest at ht
  grind [→ canonical_barForm, canonical_withTag, canonical_upd]

theorem canonical_execBwait (a b : BitVec 5) (p w : BitVec 2) {s : State} (hs : Canonical s) {t : State}
    (ht : execBwait a b p w s = .next t) : Canonical t := by
  unfold execBwait at ht
  grind [→ canonical_barForm, canonical_withTag, canonical_upd]

theorem canonical_lookAtWaits {s : State} (hs : Canonical s) :
    Canonical (lookAtWaits s) := by
  unfold lookAtWaits
  grind [canonical_mk, → Canonical.mem, → Canonical.hostMem]

theorem canonical_execBwaitWake {s : State} (hs : Canonical s) {t : State}
    (ht : execBwaitWake s = .next t) : Canonical t := by
  unfold execBwaitWake at ht
  grind [canonical_updSlot, canonical_raiseAt]

theorem canonical_execTokp (p : BitVec 2) {s : State} (hs : Canonical s) {t : State}
    (ht : execTokp p s = .next t) : Canonical t := by
  unfold execTokp at ht
  grind [canonical_nextSeq, canonical_upd]

theorem canonical_execTokw (w : BitVec 2) {s : State} (hs : Canonical s) {t : State}
    (ht : execTokw w s = .next t) : Canonical t := by
  unfold execTokw at ht
  grind [canonical_upd]

theorem canonical_execGset (a : BitVec 5) (g : BitVec 4) {s : State} (hs : Canonical s) {t : State}
    (ht : execGset a g s = .next t) : Canonical t := by
  unfold execGset at ht
  grind [canonical_upd]

theorem canonical_execGrst (g : BitVec 4) {s : State} (hs : Canonical s) {t : State}
    (ht : execGrst g s = .next t) : Canonical t := by
  unfold execGrst at ht
  grind [canonical_upd]

theorem canonical_execWfe (a : BitVec 5) {s : State} (hs : Canonical s) {t : State}
    (ht : execWfe a s = .next t) : Canonical t := by
  unfold execWfe at ht
  grind [canonical_upd]

theorem canonical_execWfeTimeout {s : State} (hs : Canonical s) {t : State}
    (ht : execWfeTimeout s = .next t) : Canonical t := by
  unfold execWfeTimeout at ht
  grind [canonical_updSlot]

theorem canonical_execWsb (m : BitVec 7) {s : State} (hs : Canonical s) {t : State}
    (ht : execWsb m s = .next t) : Canonical t := by
  unfold execWsb at ht
  grind [canonical_raiseSlot, canonical_upd]

theorem canonical_performAccess {s : State} (slot i : Nat) (a : Access) (rep : Reply) (hs : Canonical s) :
    Canonical (performAccess s slot i a rep) := by
  unfold performAccess
  grind [canonical_accessFails, → canonical_reduceFold, canonical_performAt]

theorem canonical_sendAccess {s : State} (slot i : Nat) (a : Access) (hs : Canonical s) :
    Canonical (sendAccess s slot i a) := by
  unfold sendAccess
  grind [canonical_sendRequest, canonical_updSlot]

theorem canonical_joinReply {s : State} (i : Nat) (rep : Reply) (hs : Canonical s) :
    Canonical (joinReply s i rep) := by
  unfold joinReply
  grind [canonical_mk, → Canonical.mem, → Canonical.hostMem, canonical_giveTag, canonical_joinFail]

theorem canonical_performOut {s : State} (slot i : Nat) (rep : Reply) (hs : Canonical s) :
    Canonical (performOut s slot i rep) := by
  unfold performOut
  grind [canonical_performAccess, canonical_sendAccess]

theorem canonical_execStnFlagIncrement {s : State} (hs : Canonical s) {t : State}
    (ht : execStnFlagIncrement s = .next t) : Canonical t := by
  unfold execStnFlagIncrement at ht
  grind [canonical_performAccess, canonical_sendAccess]

theorem canonical_execVectorLoadLateError {s : State} (hs : Canonical s) {t : State}
    (ht : execVectorLoadLateError s = .next t) : Canonical t := by
  unfold execVectorLoadLateError at ht
  grind [canonical_settle, canonical_lostLog, canonical_updSlot]

theorem canonical_execScatterAck {s : State} (hs : Canonical s) {t : State}
    (ht : execScatterAck s = .next t) : Canonical t := by
  unfold execScatterAck at ht
  grind [canonical_updSlot]

theorem canonical_execScoreboardSlotComplete {s : State} (hs : Canonical s) {t : State}
    (ht : execScoreboardSlotComplete s = .next t) : Canonical t := by
  unfold execScoreboardSlotComplete at ht
  grind [canonical_setStrand, canonical_errLog, Option.map_eq_some_iff]

theorem canonical_execTagQuarantineEnd {s : State} (hs : Canonical s) {t : State}
    (ht : execTagQuarantineEnd s = .next t) : Canonical t := by
  unfold execTagQuarantineEnd at ht
  grind [canonical_mk, → Canonical.mem, → Canonical.hostMem]

theorem canonical_execLatereply {s : State} (hs : Canonical s) {t : State}
    (ht : execLatereply s = .next t) : Canonical t := by
  unfold execLatereply at ht
  grind [canonical_countDieEvent]

theorem canonical_accessTimeout {s : State} (slot i : Nat) (hs : Canonical s) :
    Canonical (accessTimeout s slot i) := by
  unfold accessTimeout
  grind [canonical_updSlot, canonical_dropTag, canonical_accessFails]

theorem canonical_copyForm (ins : Instr) (a b c : BitVec 5) (g : BitVec 4) (p w : BitVec 2) {s : State} (hs : Canonical s) {t : State}
    (ht : copyForm ins a b c g p w s = .next t) : Canonical t := by
  unfold copyForm at ht
  grind [canonical_upd]

theorem canonical_execCpy (a b c : BitVec 5) (g : BitVec 4) (p w : BitVec 2) {s : State} (hs : Canonical s) {t : State}
    (ht : execCpy a b c g p w s = .next t) : Canonical t := by
  unfold execCpy at ht
  grind [→ canonical_copyForm]

theorem canonical_execCpyt (a b c : BitVec 5) (g : BitVec 4) (p w : BitVec 2) {s : State} (hs : Canonical s) {t : State}
    (ht : execCpyt a b c g p w s = .next t) : Canonical t := by
  unfold execCpyt at ht
  grind [→ canonical_copyForm]

theorem canonical_execMdiscard (a c : BitVec 5) (g : BitVec 4) (p w : BitVec 2) {s : State} (hs : Canonical s) {t : State}
    (ht : execMdiscard a c g p w s = .next t) : Canonical t := by
  unfold execMdiscard at ht
  grind [→ canonical_copyForm]

theorem canonical_execCpyz (a b c : BitVec 5) (g : BitVec 4) (p w : BitVec 2) {s : State} (hs : Canonical s) {t : State}
    (ht : execCpyz a b c g p w s = .next t) : Canonical t := by
  unfold execCpyz at ht
  grind [→ canonical_copyForm]

theorem canonical_updOwner {s : State} (o : Owner) (f : Strand → Strand) (hs : Canonical s) :
    Canonical (updOwner s o f) := by
  unfold updOwner
  grind [canonical_mk, → Canonical.mem, → Canonical.hostMem, canonical_updSlot]

theorem canonical_farRead (x : CopyEnv) (va m : Nat) (pl : Place) (f : Feed) {s : State} (hs : Canonical s) {r : CopyRead}
    (ht : farRead x va m pl f s = .ok r) : Canonical r.st := by
  unfold farRead at ht
  grind [canonical_mk, → Canonical.mem, → Canonical.hostMem]

theorem canonical_nearbyRead (x : CopyEnv) (va m : Nat) (pl : Place) (f : Feed) {s : State} (hs : Canonical s) {r : CopyRead}
    (ht : nearbyRead x va m pl f s = .ok r) : Canonical r.st := by
  unfold nearbyRead at ht
  grind [canonical_countNear]

theorem canonical_copyRead (x : CopyEnv) (va k n : Nat) (f : Feed) {s : State} (hs : Canonical s) {r : CopyRead}
    (ht : copyRead x va k n f s = .ok r) : Canonical r.st := by
  induction k generalizing va n f s r with
  | zero =>
    unfold copyRead at ht
    grind
  | succ k ih =>
    cases n with
    | zero => unfold copyRead at ht; grind
    | succ n =>
      unfold copyRead at ht
      grind [→ canonical_locate, → canonical_nearbyRead, → canonical_farRead]

theorem canonical_enginePut {s : State} (slot : Nat) (pl : Place) (bs : List Byte) (hs : Canonical s) :
    Canonical (enginePut s slot pl bs) := by
  unfold enginePut
  grind [canonical_mk, → Canonical.mem, → Canonical.hostMem, canonical_updSlot, canonical_homeWrite]

theorem canonical_enginePoison {s : State} (slot : Nat) (pl : Place) (bs : List Byte) (hs : Canonical s) :
    Canonical (enginePoison s slot pl bs) := by
  unfold enginePoison
  grind [canonical_mk, → Canonical.mem, → Canonical.hostMem, canonical_enginePut, canonical_updSlot, canonical_poisonSectors]

theorem canonical_readPieces (x : CopyEnv) (l : List Piece) (f : Feed) {s : State} (hs : Canonical s)
    {r : List (Piece × List Byte)} {b : Option Nat} {g : Feed} {t : State} (ht : readPieces x l f s = .ok (r, b, g, t)) :
    Canonical t := by
  induction l generalizing f s r b g with
  | nil => unfold readPieces at ht; grind
  | cons p rest ih =>
    unfold readPieces at ht
    grind [→ canonical_copyRead]

theorem canonical_placePieces (x : CopyEnv) (l : List (Piece × List Byte)) {s : State} (hs : Canonical s)
    {r : List (Place × List Byte)} {t : State} (ht : placePieces x l s = .ok (r, t)) : Canonical t := by
  induction l generalizing s r with
  | nil => unfold placePieces at ht; grind
  | cons p rest ih =>
    unfold placePieces at ht
    grind [→ canonical_locate]

theorem canonical_copySectors (x : CopyEnv) (l : List (List Piece)) {r r' : CopyRun} (hr : Canonical r.st)
    (ht : copySectors x l r = some r') : Canonical r'.st := by
  induction l generalizing r with
  | nil => exact Option.some.inj ht ▸ hr
  | cons g rest ih =>
    unfold copySectors at ht
    grind [→ canonical_readPieces, → canonical_placePieces, canonical_foldl, canonical_countNear, canonical_enginePut,
      canonical_enginePoison]

theorem canonical_discardPages (x : CopyEnv) (k va n : Nat) {s : State} (hs : Canonical s) {r : List (Nat × Nat)} {t : State}
    (ht : discardPages x k va n s = .ok (r, t)) : Canonical t := by
  induction k generalizing va n s r with
  | zero => unfold discardPages at ht; grind
  | succ k ih =>
    cases n with
    | zero => unfold discardPages at ht; grind
    | succ n =>
      unfold discardPages at ht
      grind [→ canonical_locate]

theorem canonical_discardRun (x : CopyEnv) (c : CCommand) {s : State} (hs : Canonical s) : Canonical (discardRun x c s).st := by
  unfold discardRun
  grind [→ canonical_discardPages, canonical_foldl_snd, canonical_discardRange]

theorem canonical_copyRun {s : State} (c : Copy) (plan : Bool) (stop : Option FaultClass) (f : Feed) (hs : Canonical s)
    {r : CopyRun} (ht : copyRun s c plan stop f = some r) : Canonical r.st := by
  unfold copyRun at ht
  extract_lets x at ht
  split at ht
  · exact Option.some.inj ht ▸ canonical_discardRun x _ hs
  · exact canonical_copySectors x _ (r := ⟨s, 0, 0, 0, f, []⟩) hs ht

theorem canonical_countOwner {s : State} (o : Owner) (e n : Nat) (hs : Canonical s) :
    Canonical (countOwner s o e n) := by
  unfold countOwner
  grind [canonical_countEvent]

theorem canonical_countCopy {s : State} (c : Copy) (e n : Nat) (hs : Canonical s) :
    Canonical (countCopy s c e n) := by
  unfold countCopy
  grind [canonical_countOwner]

theorem canonical_engineSome {s : State} (die : Nat) (l : List Outgoing) (hs : Canonical s) {x : Option ℕ} {y : ℕ} {t : State}
    (ht : engineSome s die l = some (x, y, t)) : Canonical t := by
  unfold engineSome at ht
  grind [canonical_mk, → Canonical.mem, → Canonical.hostMem, → canonical_engineTag, Option.map_eq_some_iff]

theorem canonical_copyBar {s : State} (ctx : Ctx) (c : CCommand) (hs : Canonical s) {x : Option Place} {t : State}
    (ht : copyBar s ctx c = .ok (x, t)) : Canonical t := by
  unfold copyBar at ht
  grind [→ canonical_locate]

theorem canonical_readMap {s : State} (x : CopyEnv) (c : CCommand) (f : Feed) (hs : Canonical s) {r : CopyRead}
    (ht : readMap s x c f = .ok r) : Canonical r.st := by
  unfold readMap at ht
  grind [→ canonical_copyRead]

theorem canonical_copyAsk {s : State} (c : Copy) (asks : List Outgoing) (data : List Byte) (bad : List Nat) (hs : Canonical s)
    {x : Copy} {t : State}
    (ht : copyAsk s c asks data bad = some (x, t)) : Canonical t := by
  unfold copyAsk at ht
  grind [canonical_countCopy, → canonical_engineSome, Option.map_eq_some_iff]

theorem canonical_copyBegin {s : State} (c : Copy) (m : BitVec 896) (hs : Canonical s) {x : Copy} {t : State}
    (ht : copyBegin s c m = some (x, t)) : Canonical t := by
  unfold copyBegin at ht
  grind [→ canonical_copyAsk]

theorem canonical_startCopy {s : State} (o : Owner) (orphan : Bool) (core : Nat) (cmd : CCommand) (hs : Canonical s) {t : State}
    (ht : startCopy s o orphan core cmd = some t) : Canonical t := by
  unfold startCopy at ht
  grind (splits := 20) (gen := 24) (ematch := 24) [canonical_mk, → Canonical.mem, → Canonical.hostMem, → canonical_copyBar,
    → canonical_readMap, → canonical_copyBegin, canonical_countCopy, → canonical_engineTag, Option.map_eq_some_iff]

theorem canonical_startCopyD {u s : State} (o : Owner) (orphan : Bool) (core : Nat) (c : CCommand) (hu : Canonical u)
    (hs : Canonical s) : Canonical ((startCopy u o orphan core c).getD s) :=
  canonical_getD (fun _ ht => canonical_startCopy o orphan core c hu ht) hs

theorem canonical_startFromSlot {s : State} (slot : Nat) (hs : Canonical s) : Canonical (startFromSlot s slot) := by
  unfold startFromSlot
  grind [canonical_mk, → Canonical.mem, → Canonical.hostMem, canonical_startCopyD, canonical_setStrand]

theorem canonical_startFromRetired {s : State} (i : Nat) (hs : Canonical s) : Canonical (startFromRetired s i) := by
  unfold startFromRetired
  grind [canonical_mk, → Canonical.mem, → Canonical.hostMem, canonical_startCopyD]

theorem canonical_execCopyStart {s : State} (hs : Canonical s) {t : State}
    (ht : execCopyStart s = .next t) : Canonical t := by
  unfold execCopyStart at ht
  grind [canonical_startCopyD, canonical_startFromSlot, canonical_startFromRetired]

theorem canonical_engineFault {s : State} (x : Ctx) (sid : BitVec 11) (die status bad : Nat) (hs : Canonical s) :
    Canonical (engineFault s x sid die status bad) := by
  unfold engineFault
  grind [→ canonical_locate, canonical_afterFail, canonical_errLog]

theorem canonical_copyFault {s : State} (c : Copy) (status bad : Nat) (hs : Canonical s) :
    Canonical (copyFault s c status bad) := by
  unfold copyFault
  grind [canonical_engineFault]

theorem canonical_copyEnd {s : State} (i : Nat) (c : Copy) (status bad : Nat) (hs : Canonical s) :
    Canonical (copyEnd s i c status bad) := by
  unfold copyEnd
  grind [canonical_mk, → Canonical.mem, → Canonical.hostMem, canonical_copyFault, canonical_giveTag, canonical_errLog, canonical_updOwner,
    canonical_countCopy]

theorem canonical_copyAwait {s0 s : State} (i : Nat) (c : Copy) (ph : CopyPhase) (n : Nat) (hs0 : Canonical s0) (hs1 : Canonical s) :
    Canonical (copyAwait s0 s i c ph n) := by
  unfold copyAwait
  grind [canonical_mk, → Canonical.mem, → Canonical.hostMem, → canonical_engineTag, canonical_giveTag]

theorem canonical_copyUpdate {s0 s : State} (i : Nat) (c : Copy) (sectors status bad : Nat) (hs0 : Canonical s0) (hs1 : Canonical s) :
    Canonical (copyUpdate s0 s i c sectors status bad) := by
  unfold copyUpdate
  grind [canonical_copyEnd, canonical_engineBar, canonical_copyAwait, canonical_countCopy]

theorem canonical_copySend {s0 s : State} (i : Nat) (c : Copy) (sectors status bad : Nat) (far : List (Nat × Outgoing))
    (hs0 : Canonical s0) (hs1 : Canonical s) :
    Canonical (copySend s0 s i c sectors status bad far) := by
  unfold copySend
  grind [canonical_mk, → Canonical.mem, → Canonical.hostMem, canonical_copyUpdate, → canonical_engineSome, canonical_giveTag,
    canonical_countCopy]

theorem canonical_copyWritten {s : State} (i : Nat) (c : Copy) (sectors status bad : Nat) (rest : List (Nat × Outgoing))
    (fails : List Nat) (cls : FaultClass) (hs : Canonical s) :
    Canonical (copyWritten s i c sectors status bad rest fails cls) := by
  unfold copyWritten
  grind [canonical_copySend, canonical_copyUpdate, canonical_foldl]

theorem canonical_copyUpdated {s : State} (i : Nat) (c : Copy) (status bad : Nat) (rep : Reply) (hs : Canonical s) :
    Canonical (copyUpdated s i c status bad rep) := by
  unfold copyUpdated
  grind [canonical_copyEnd, canonical_errLog]

theorem canonical_copyMade {s : State} (i : Nat) (c : Copy) (stop : Option FaultClass) (f : Feed) (hs : Canonical s) :
    Canonical (copyMade s i c stop f) := by
  unfold copyMade
  grind [→ canonical_copyRun, canonical_copySend]

theorem canonical_copyAnswered {s : State} (i : Nat) (c : Copy) (r : CopyReads) (x : Args) (hs : Canonical s) :
    Canonical (copyAnswered s i c r x) := by
  unfold copyAnswered
  grind [canonical_mk, → Canonical.mem, → Canonical.hostMem, canonical_copyMade, → canonical_copyAsk, canonical_giveTag]

theorem canonical_copyMapped {s : State} (i : Nat) (c : Copy) (stop : Option FaultClass) (f : Feed) (hs : Canonical s) :
    Canonical (copyMapped s i c stop f) := by
  unfold copyMapped
  grind [canonical_mk, → Canonical.mem, → Canonical.hostMem, → canonical_readMap, canonical_copyEnd, → canonical_copyBegin,
    canonical_giveTag]

theorem canonical_execCopyRetire {s : State} (hs : Canonical s) {t : State}
    (ht : execCopyRetire s = .next t) : Canonical t := by
  unfold execCopyRetire at ht
  grind [canonical_copyWritten, canonical_copyUpdated, canonical_copyMapped, canonical_copyMade, canonical_copyEnd,
    canonical_copyAnswered]

theorem canonical_execGuardedCommandDiscard {s : State} (hs : Canonical s) {t : State}
    (ht : execGuardedCommandDiscard s = .next t) : Canonical t := by
  unfold execGuardedCommandDiscard at ht
  grind [canonical_setStrand, canonical_sweepFrames]

theorem canonical_tileTimeout {s : State} (slot id : Nat) (x : Args) (hs : Canonical s) :
    Canonical (tileTimeout s slot id x) := by
  unfold tileTimeout
  grind [→ canonical_tilePlaces, canonical_runFault, canonical_updSlot, canonical_dropTags]

theorem canonical_copyTimeout {s : State} (i : Nat) (x : Args) (hs : Canonical s) :
    Canonical (copyTimeout s i x) := by
  unfold copyTimeout
  grind [canonical_mk, → Canonical.mem, → Canonical.hostMem, canonical_dropTags, canonical_copyEnd, canonical_copyWritten]

/-- A loaded record, or an instruction that stops before it, comes with a canonical state. -/
def RecLoad.Canonical : RecLoad → Prop
  | .out o => ∀ t, o = .next t → Machine.Canonical t
  | .got _ s => Machine.Canonical s

theorem recLoad_loadRecord (va : Word) (k : AccessKind) (acc : Accepts) {s : State} (hs : Canonical s) :
    (loadRecord va k acc s).Canonical := by
  unfold loadRecord
  grind [RecLoad.Canonical, canonical_mk, → Canonical.mem, → Canonical.hostMem, canonical_raiseFail, canonical_raise, → canonical_locate, canonical_lostLog,
    canonical_countNear, canonical_nextSeq, canonical_post, canonical_upd]

theorem canonical_loadRecord_got {va : Word} {k : AccessKind} {acc : Accepts} {s t : State} {r : Rec64} (hs : Canonical s)
    (ht : loadRecord va k acc s = .got r t) : Canonical t := by
  have h := recLoad_loadRecord va k acc hs
  rwa [ht] at h

theorem canonical_loadRecord_out {va : Word} {k : AccessKind} {acc : Accepts} {s t : State} (hs : Canonical s)
    (ht : loadRecord va k acc s = .out (.next t)) : Canonical t := by
  have h := recLoad_loadRecord va k acc hs
  rw [ht] at h
  exact h t rfl

theorem canonical_updMbox {s : State} (m : Nat) (f : Mailbox → Mailbox) (hs : Canonical s) :
    Canonical (State.updMbox s m f) := by
  unfold State.updMbox
  grind [canonical_mk, → Canonical.mem, → Canonical.hostMem]

theorem canonical_sendForm (ins : Instr) (a : BitVec 5) (reg : Option (BitVec 5)) (g : BitVec 4) (p w : BitVec 2) {s : State}
    (hs : Canonical s) {t : State}
    (ht : sendForm ins a reg g p w s = .next t) : Canonical t := by
  unfold sendForm at ht
  grind [canonical_raise, canonical_nextSeq, canonical_upd, → canonical_loadRecord_got, → canonical_loadRecord_out]

theorem canonical_execMsend (a : BitVec 5) (g : BitVec 4) (p w : BitVec 2) {s : State} (hs : Canonical s) {t : State}
    (ht : execMsend a g p w s = .next t) : Canonical t := by
  unfold execMsend at ht
  grind [→ canonical_sendForm]

theorem canonical_execTsend (a b : BitVec 5) (g : BitVec 4) (p w : BitVec 2) {s : State} (hs : Canonical s) {t : State}
    (ht : execTsend a b g p w s = .next t) : Canonical t := by
  unfold execTsend at ht
  grind [→ canonical_sendForm]

theorem canonical_execTsendAdd (a b : BitVec 5) (g : BitVec 4) (p w : BitVec 2) {s : State} (hs : Canonical s) {t : State}
    (ht : execTsendAdd a b g p w s = .next t) : Canonical t := by
  unfold execTsendAdd at ht
  grind [→ canonical_sendForm]

theorem canonical_sendPacket {s : State} (p : Packet) (hs : Canonical s) :
    Canonical (sendPacket s p) := by
  unfold sendPacket
  grind [canonical_mk, → Canonical.mem, → Canonical.hostMem]

theorem canonical_engineLost (p : BitVec 6) (sid : BitVec 11) (pl : Place) (va : Nat) (c : FaultClass) {s : State} (hs : Canonical s) :
    Canonical (engineLost p sid pl va c s) := by
  unfold engineLost
  grind [canonical_errLog]

theorem canonical_descAt {s : State} (p : BitVec 6) (va n : Nat) (need : Need) (hs : Canonical s) {x : Place} {t : State}
    (ht : descAt s p va n need = .ok (x, t)) : Canonical t := by
  unfold descAt at ht
  grind [→ canonical_locate]

theorem canonical_tensorAt {s : State} (p : BitVec 6) (va n : Nat) (need : Need) (hs : Canonical s) {x : ℕ} {y : Bool} {t : State}
    (ht : tensorAt s p va n need = .ok (x, y, t)) : Canonical t := by
  unfold tensorAt at ht
  grind [→ canonical_descAt]

theorem canonical_putCode {s : State} (pa : Nat) (comp : Bool) (g : Nat) (c : BitVec 2) (hs : Canonical s) :
    Canonical (putCode s pa comp g c) := by
  unfold putCode
  grind [canonical_homeWrite]

theorem canonical_wakeCell (x : Tensor) (die : Nat) (sid : BitVec 11) (event : Option (BitVec 24)) (c : Nat) {s : State}
    (hs : Canonical s) :
    Canonical (wakeCell x die sid event c s) := by
  unfold wakeCell
  grind [canonical_errLog, → canonical_tensorAt, canonical_afterFail, canonical_homeWrite, canonical_putCode]

theorem canonical_applyWake (w : Wake) {s : State} (hs : Canonical s) :
    Canonical (applyWake w s) := by
  unfold applyWake
  grind [canonical_wakeCell, canonical_foldl]

theorem canonical_tellApplied (far : Option (BitVec 10)) (sid : BitVec 11) (home : Nat) {s : State} (hs : Canonical s) :
    Canonical (tellApplied far sid home s) := by
  unfold tellApplied
  grind [canonical_mk, → Canonical.mem, → Canonical.hostMem]

theorem canonical_releaseWakes (home g : Nat) {s : State} (hs : Canonical s) :
    Canonical (releaseWakes home g s) := by
  unfold releaseWakes
  grind [canonical_mk, → Canonical.mem, → Canonical.hostMem, canonical_tellApplied, canonical_applyWake, canonical_foldl]

theorem canonical_execWakeApply {s : State} (hs : Canonical s) {t : State}
    (ht : execWakeApply s = .next t) : Canonical t := by
  unfold execWakeApply at ht
  grind [canonical_mk, → Canonical.mem, → Canonical.hostMem, canonical_tellApplied, canonical_applyWake]

theorem canonical_execSwakeePass {s : State} (hs : Canonical s) {t : State}
    (ht : execSwakeePass s = .next t) : Canonical t := by
  unfold execSwakeePass at ht
  grind [canonical_mk, → Canonical.mem, → Canonical.hostMem, canonical_tellApplied, → canonical_tensorAt, canonical_errLog,
    canonical_afterFail, canonical_applyWake]

theorem canonical_receiveWake {s : State} (p : BitVec 6) (sid : BitVec 11) (wdesc wcell : Nat) (hs : Canonical s)
    {x : Option FaultClass} {t : State}
    (ht : receiveWake s p sid wdesc wcell = some (x, t)) : Canonical t := by
  unfold receiveWake at ht
  grind [canonical_mk, → Canonical.mem, → Canonical.hostMem, → canonical_tensorAt, canonical_afterFail, canonical_errLog]

theorem recLoad_loadTensor (va : Word) {s : State} (hs : Canonical s) : (loadTensor va s).Canonical := by
  have h := recLoad_loadRecord va .sweep acceptsFar hs
  unfold loadTensor
  grind [RecLoad.Canonical, canonical_raise]

theorem canonical_loadTensor_got {va : Word} {s t : State} {r : Rec64} (hs : Canonical s)
    (ht : loadTensor va s = .got r t) : Canonical t := by
  have h := recLoad_loadTensor va hs
  rwa [ht] at h

theorem canonical_loadTensor_out {va : Word} {s t : State} (hs : Canonical s)
    (ht : loadTensor va s = .out (.next t)) : Canonical t := by
  have h := recLoad_loadTensor va hs
  rw [ht] at h
  exact h t rfl

theorem canonical_handWakes (p : BitVec 2) {s : State} (hs : Canonical s) :
    Canonical (handWakes p s) := by
  unfold handWakes
  grind [canonical_mk, → Canonical.mem, → Canonical.hostMem, canonical_upd]

theorem canonical_handOver (p : BitVec 2) (t1 : Strand) (x : Tensor) (pl : Place) (cs : List Nat) (event : Option (BitVec 24))
    {s : State} (hs : Canonical s) {t : State}
    (ht : handOver p t1 x pl cs event s = .next t) : Canonical t := by
  unfold handOver at ht
  grind [canonical_mk, → Canonical.mem, → Canonical.hostMem, canonical_handWakes, canonical_upd, canonical_nextSeq, canonical_post]

theorem canonical_wakeForm (a : BitVec 5) (p w : BitVec 2) (cells : Tensor → Strand → Except Trap (List Nat))
    (event : Option (BitVec 24)) {s : State} (hs : Canonical s) {t : State}
    (ht : wakeForm a p w cells event s = .next t) : Canonical t := by
  unfold wakeForm at ht
  grind (splits := 20) (gen := 24) (ematch := 24) [canonical_handWakes, canonical_raise, → canonical_descAt, canonical_raiseFail,
    → canonical_handOver, → canonical_loadTensor_got, → canonical_loadTensor_out]

theorem canonical_execSwake (a b : BitVec 5) (p w : BitVec 2) {s : State} (hs : Canonical s) {t : State}
    (ht : execSwake a b p w s = .next t) : Canonical t := by
  unfold execSwake at ht
  grind [→ canonical_wakeForm]

theorem canonical_execSwakev (a b : BitVec 5) (c : BitVec 3) (p w : BitVec 2) {s : State} (hs : Canonical s) {t : State}
    (ht : execSwakev a b c p w s = .next t) : Canonical t := by
  unfold execSwakev at ht
  grind [canonical_raise, canonical_upd, → canonical_wakeForm, Option.map_eq_some_iff]

theorem canonical_execSwakee (a b : BitVec 5) (p w : BitVec 2) {s : State} (hs : Canonical s) {t : State}
    (ht : execSwakee a b p w s = .next t) : Canonical t := by
  unfold execSwakee at ht
  grind [→ canonical_wakeForm]

theorem canonical_execSwp (a b : BitVec 5) (p w : BitVec 2) {s : State} (hs : Canonical s) {t : State}
    (ht : execSwp a b p w s = .next t) : Canonical t := by
  unfold execSwp at ht
  grind (splits := 20) (gen := 24) (ematch := 24) [canonical_raise, → canonical_descAt, canonical_raiseFail, canonical_upd,
    canonical_homeWrite, canonical_nextSeq, canonical_post, → canonical_loadTensor_got, → canonical_loadTensor_out]

theorem canonical_sweepWrites {s : State} (o : Owner) (items : List EndItem) (hs : Canonical s) :
    Canonical (sweepWrites s o items) := by
  unfold sweepWrites
  grind [canonical_mk, → Canonical.mem, → Canonical.hostMem]

theorem canonical_closeDescriptor (o : Owner) (w : Sweep) (completed : Bool) {s : State} (hs : Canonical s) :
    Canonical (closeDescriptor o w completed s) := by
  unfold closeDescriptor
  grind [→ canonical_descAt, canonical_afterFail, canonical_homeWrite, canonical_sweepWrites]

theorem canonical_endSweep {s : State} (slot : Nat) (w : Sweep) (hs : Canonical s) :
    Canonical (endSweep s slot w) := by
  unfold endSweep
  grind [canonical_updSlot, canonical_closeDescriptor]

theorem canonical_abandonSweep {s : State} (slot : Nat) (hs : Canonical s) :
    Canonical (abandonSweep s slot) := by
  unfold abandonSweep
  grind [canonical_setStrand, canonical_releaseWakes, canonical_closeDescriptor]

theorem canonical_commitGroup (x : Tensor) (o : OpenGroup) (vals ctxs : List (BitVec 32)) {s : State} (hs : Canonical s) {t : State}
    (ht : commitGroup x o vals ctxs s = .ok t) : Canonical t := by
  unfold commitGroup at ht
  grind [canonical_homeWrite, → canonical_tensorAt, canonical_putCode, canonical_foldl, Option.map_eq_some_iff]

theorem canonical_sweepStep {s : State} (slot : Nat) (w : Sweep) (hs : Canonical s) {t : State}
    (ht : sweepStep s slot w = .ok t) : Canonical t := by
  unfold sweepStep at ht
  grind [canonical_updSlot, → canonical_descAt, canonical_homeWrite, canonical_sweepWrites, → canonical_tensorAt, canonical_putCode,
    canonical_endSweep, canonical_countEvent, → canonical_commitGroup, canonical_releaseWakes, Option.map_eq_some_iff]

theorem canonical_execGroupOpen {s : State} (hs : Canonical s) {t : State}
    (ht : execGroupOpen s = .next t) : Canonical t := by
  unfold execGroupOpen at ht
  grind [→ canonical_sweepStep]

theorem canonical_sweepFault {s : State} (slot g : Nat) (f : Failure) (hs : Canonical s) :
    Canonical (sweepFault s slot g f) := by
  unfold sweepFault
  grind [canonical_errLog, canonical_raiseAt, canonical_afterFail]

theorem canonical_execSweepEngineFault {s : State} (hs : Canonical s) {t : State}
    (ht : execSweepEngineFault s = .next t) : Canonical t := by
  unfold execSweepEngineFault at ht
  grind [→ canonical_sweepStep, canonical_sweepFault]

theorem canonical_commitForm (p w : BitVec 2) {after : Nat → Sweep → OpenGroup → State → State}
    (ha : ∀ k sw o u, Canonical u → Canonical (after k sw o u)) {s : State} (hs : Canonical s) {t : State}
    (ht : commitForm p w after s = .next t) : Canonical t := by
  unfold commitForm at ht
  dsimp only at ht
  split at ht
  · grind
  · split at ht
    · grind [canonical_raise]
    · split at ht
      · grind
      · grind [canonical_raise, canonical_sweepFault, → canonical_commitGroup, canonical_upd]

theorem canonical_execSwnext (p w : BitVec 2) {s : State} (hs : Canonical s) {t : State}
    (ht : execSwnext p w s = .next t) : Canonical t := by
  unfold execSwnext at ht
  grind [→ canonical_commitForm, canonical_releaseWakes, canonical_updSlot]

theorem canonical_execSwexit (p w : BitVec 2) {s : State} (hs : Canonical s) {t : State}
    (ht : execSwexit p w s = .next t) : Canonical t := by
  unfold execSwexit at ht
  grind [→ canonical_commitForm, canonical_updSlot, canonical_releaseWakes, canonical_endSweep]

theorem canonical_sendLog {s : State} (o : Owner) (hnd : BitVec 13) (what va c : Nat) (hs : Canonical s) :
    Canonical (sendLog s o hnd what va c) := by
  unfold sendLog
  grind [canonical_errLog]

theorem canonical_landLog {s : State} (mb : Nat) (o : Owner) (va c : Nat) (hs : Canonical s) :
    Canonical (landLog s mb o va c) := by
  unfold landLog
  grind [canonical_errLog]

theorem canonical_endLog (e : Ending) (x : EndItem) (c : FaultClass) {s : State} (hs : Canonical s) :
    Canonical (endLog e x c s) := by
  unfold endLog
  grind [canonical_sendLog, canonical_landLog, canonical_errLog]

/-- What making an item comes to leaves memory canonical. -/
def Made.Canonical : Made → Prop
  | .done s => Machine.Canonical s
  | .asked _ s => Machine.Canonical s
  | .full => True

theorem made_madeAt (x : Ending) (i : EndItem) (va : Word) (n : Nat) (need : Need) {act : Place → State → State}
    (ha : ∀ pl u, Canonical u → Canonical (act pl u)) {s : State} (hs : Canonical s) :
    (madeAt x i va n need act s).Canonical := by
  unfold madeAt
  grind [Made.Canonical, canonical_endLog, canonical_afterFail, → canonical_locate, canonical_engineLost, → canonical_engineTag,
    canonical_countOwner]

theorem canonical_engineAdd {s : State} (pl : Place) (x : Word) (hs : Canonical s) :
    Canonical (engineAdd s pl x) := by
  unfold engineAdd
  grind [canonical_mk, → Canonical.mem, → Canonical.hostMem, canonical_homeWrite]

theorem made_makeItem (x : Ending) (i : EndItem) {s : State} (hs : Canonical s) : (makeItem x i s).Canonical := by
  unfold makeItem
  split
  · exact made_madeAt _ _ _ _ _ (fun pl u hu => canonical_enginePut 0 pl _ hu) hs
  · exact made_madeAt _ _ _ _ _ (fun pl u hu => canonical_enginePut 0 pl _ hu) hs
  · exact made_madeAt _ _ _ _ _ (fun pl u hu => canonical_engineAdd pl _ hu) hs
  · rename_i va dA dS
    have h := made_madeAt x (.barrier va dA dS) va 16 .readWrite
      (act := fun pl u => (engineBar u x.owner.part x.owner.sid pl dA dS).2)
      (fun pl u hu => canonical_engineBar x.owner.part x.owner.sid pl dA dS hu) hs
    grind [Made.Canonical, canonical_giveTag]
  · grind [Made.Canonical, canonical_mk, → Canonical.mem, → Canonical.hostMem, canonical_endLog, canonical_afterFail, → canonical_locate, → canonical_engineTag,
      canonical_countOwner, → canonical_receiveWake]
  · exact canonical_sendPacket _ hs

theorem canonical_makeItem_done {x : Ending} {i : EndItem} {s t : State} (hs : Canonical s) (ht : makeItem x i s = .done t) :
    Canonical t := by
  have h := made_makeItem x i hs
  rwa [ht] at h

theorem canonical_makeItem_asked {x : Ending} {i : EndItem} {s t : State} {tag : Option Nat} (hs : Canonical s)
    (ht : makeItem x i s = .asked tag t) : Canonical t := by
  have h := made_makeItem x i hs
  rwa [ht] at h

theorem canonical_runItems (x : Ending) (l : List EndItem) {s : State} (hs : Canonical s) : Canonical (runItems x l s) := by
  induction l generalizing s with
  | nil => exact hs
  | cons i rest ih =>
    unfold runItems
    grind [canonical_mk, → Canonical.mem, → Canonical.hostMem, → canonical_makeItem_done, → canonical_makeItem_asked]

theorem canonical_complete {s : State} (k : EndKind) (o : Owner) (tile : Bool) (items : List EndItem) (hs : Canonical s) :
    Canonical (complete s k o tile items) := by
  unfold complete
  grind [canonical_runItems]

theorem canonical_itemAnswered (e : Ending) (x : EndItem) (rep : Reply) {s : State} (hs : Canonical s) :
    Canonical (itemAnswered e x rep s) := by
  unfold itemAnswered
  grind [canonical_endLog, canonical_engineLost, canonical_errLog]

theorem canonical_endingStep {s : State} (i : Nat) (rep : Reply) (hs : Canonical s) :
    Canonical (endingStep s i rep) := by
  unfold endingStep
  grind [canonical_mk, → Canonical.mem, → Canonical.hostMem, canonical_runItems, canonical_itemAnswered, canonical_giveTag,
    → canonical_makeItem_done, → canonical_makeItem_asked]

theorem canonical_endingTimeout {s : State} (i : Nat) (hs : Canonical s) :
    Canonical (endingTimeout s i) := by
  unfold endingTimeout
  grind [canonical_mk, → Canonical.mem, → Canonical.hostMem, canonical_runItems, canonical_endLog, canonical_dropTag]

theorem canonical_completeSend {s : State} (o : Owner) (hnd : BitVec 13) (desc : Rec64) (code : BitVec 16) (len : BitVec 32)
    (hs : Canonical s) :
    Canonical (completeSend s o hnd desc code len) := by
  unfold completeSend
  grind [canonical_complete]

theorem canonical_sourceFault {s : State} (o : Owner) (hnd : BitVec 13) (c va : Nat) (hs : Canonical s) :
    Canonical (sourceFault s o hnd c va) := by
  unfold sourceFault
  grind [canonical_sendLog, canonical_engineFault]

/-- What the read of a send's source comes to leaves memory canonical. -/
def SourceRead.Canonical : SourceRead → Prop
  | .wait => True
  | .ask _ => True
  | .bad _ _ s => Machine.Canonical s
  | .got _ s => Machine.Canonical s

theorem sourceRead_stageTile {s : State} (slot r : Nat) (x : Source) (hs : Canonical s) :
    (stageTile s slot r x).Canonical := by
  have hL : ∀ c va n al need acc x u, locate s c va n al need acc = .ok (x, u) → Canonical u :=
    fun c va n al need acc x u h => canonical_locate c va n al need acc hs h
  generalize ho : stageTile s slot r x = o
  obtain ⟨F, hF⟩ : ∃ F, F = stageTile := ⟨_, rfl⟩
  rw [← hF] at ho
  delta stageTile at hF
  generalize locate = L at hF hL
  generalize homeRead = R at hF
  generalize underTest = U at hF
  generalize List.range 1024 = l at hF
  generalize List.replicate 32768 0#8 = z at hF
  subst hF
  beta_reduce at ho
  split at ho
  · exact ho ▸ hs
  · next bad =>
    cases bad <;> exact ho ▸ hs
  · dsimp only at ho
    split at ho
    · exact ho ▸ trivial
    · split at ho
      · exact ho ▸ hs
      · exact ho ▸ hs
  · extract_lets t va held at ho
    split at ho
    · exact ho ▸ canonical_afterFail _ _ _ hs
    · next hl =>
      have h1 := hL _ _ _ _ _ _ _ _ hl
      split at ho
      · exact ho ▸ trivial
      · split at ho
        · exact ho ▸ h1
        · exact ho ▸ canonical_engineLost _ _ _ _ _ h1
    · exact ho ▸ trivial
  · exact ho ▸ trivial

theorem sourceRead_sourceRead {s : State} (p : BitVec 6) (va n : Nat) (asked : Bool) (f : Feed) (stop : Option FaultClass)
    (hs : Canonical s) : (sourceRead s p va n asked f stop).Canonical := by
  unfold sourceRead
  grind [SourceRead.Canonical, → canonical_copyRead]

theorem sourceRead_startRead {s : State} (slot : Nat) (c : SendCommand) (f : Feed) (stop : Option FaultClass)
    (hs : Canonical s) : (startRead s slot c f stop).Canonical := by
  unfold startRead
  grind [SourceRead.Canonical, sourceRead_stageTile, sourceRead_sourceRead]

theorem canonical_sendLeaves {s : State} (slot : Nat) (c : SendCommand) (hs : Canonical s) :
    Canonical (sendLeaves s slot c) := by
  unfold sendLeaves
  grind [canonical_sweepFrames, canonical_updSlot, canonical_giveTag]

theorem canonical_emitSend {s : State} (slot num : Nat) (c : SendCommand) (bs : List Byte) (hs : Canonical s) :
    Canonical (emitSend s slot num c bs) := by
  unfold emitSend
  grind [canonical_mk, → Canonical.mem, → Canonical.hostMem, canonical_updMbox, canonical_sendPacket]

theorem canonical_startSend {s : State} (slot num : Nat) (c : SendCommand) (f : Feed) (stop : Option FaultClass)
    (hs : Canonical s) : Canonical (startSend s slot num c f stop) := by
  have h := sourceRead_startRead slot c f stop hs
  unfold startSend
  grind [SourceRead.Canonical, canonical_mk, → Canonical.mem, → Canonical.hostMem, → canonical_engineTag, canonical_countEvent,
    canonical_updSlot, canonical_sendLeaves, canonical_completeSend, canonical_sourceFault, canonical_emitSend]

theorem canonical_execSendStart {s : State} (hs : Canonical s) {t : State}
    (ht : execSendStart s = .next t) : Canonical t := by
  unfold execSendStart at ht
  grind [canonical_startSend]

theorem canonical_sendSourceTimeout {s : State} (slot num : Nat) (f : Feed) (hs : Canonical s) :
    Canonical (sendSourceTimeout s slot num f) := by
  unfold sendSourceTimeout
  grind [canonical_startSend, canonical_dropTags]

theorem canonical_updSend {s : State} (hnd : BitVec 13) (f : Send → Send) (hs : Canonical s) :
    Canonical (updSend s hnd f) := by
  unfold updSend
  grind [canonical_mk, → Canonical.mem, → Canonical.hostMem]

theorem canonical_answerPull {s : State} (x : Send) (off : Nat) (bs : List Byte) (ok : Bool) (hs : Canonical s) :
    Canonical (answerPull s x off bs ok) := by
  unfold answerPull
  grind [canonical_mk, → Canonical.mem, → Canonical.hostMem]

theorem canonical_pullStep {s : State} (x : Send) (off n : Nat) (f : Feed) (stop : Option FaultClass) (hs : Canonical s) :
    Canonical (pullStep s x off n f stop) := by
  have h := fun p va asked => sourceRead_sourceRead p va n asked f stop hs
  unfold pullStep
  grind [SourceRead.Canonical, canonical_mk, → Canonical.mem, → Canonical.hostMem, → canonical_engineTag, canonical_updSend,
    canonical_giveTag, canonical_countOwner, canonical_answerPull, canonical_sourceFault]

theorem canonical_execPullRequest {s : State} (hs : Canonical s) {t : State}
    (ht : execPullRequest s = .next t) : Canonical t := by
  unfold execPullRequest at ht
  grind [canonical_pullStep, canonical_dropTags]

theorem canonical_endSend {s : State} (x : Send) (code : BitVec 16) (len : BitVec 32) (hs : Canonical s) :
    Canonical (endSend s x code len) := by
  unfold endSend
  grind [canonical_mk, → Canonical.mem, → Canonical.hostMem, canonical_dropTag, canonical_completeSend]

theorem canonical_takeReply {s : State} (h : Rec64) (hs : Canonical s) :
    Canonical (takeReply s h) := by
  unfold takeReply
  grind [canonical_endSend]

theorem canonical_execSendComplete {s : State} (hs : Canonical s) {t : State}
    (ht : execSendComplete s = .next t) : Canonical t := by
  unfold execSendComplete at ht
  grind [canonical_mk, → Canonical.mem, → Canonical.hostMem, canonical_takeReply, canonical_endSend]

theorem canonical_reply {s : State} (m : Message) (ty : BitVec 8) (code : BitVec 16) (rlen : Nat) (hs : Canonical s) :
    Canonical (reply s m ty code rlen) := by
  unfold reply
  grind [canonical_sendPacket]

theorem canonical_completeHole {s : State} (mb : Nat) (x : Pigeonhole) (m : Message) (code : BitVec 16) (rlen : Nat)
    (after : List EndItem) (hs : Canonical s) :
    Canonical (completeHole s mb x m code rlen after) := by
  unfold completeHole
  grind [canonical_complete]

theorem canonical_cancelHole {s : State} (mb : Nat) (x : Pigeonhole) (hs : Canonical s) :
    Canonical (cancelHole s mb x) := by
  unfold cancelHole
  grind [canonical_mk, → Canonical.mem, → Canonical.hostMem, canonical_complete]

theorem canonical_setClaim {s : State} (mb i : Nat) (c : Claim) (hs : Canonical s) :
    Canonical (setClaim s mb i c) := by
  unfold setClaim
  grind [canonical_updMbox]

theorem canonical_dropClaim {s : State} (mb i : Nat) (hs : Canonical s) :
    Canonical (dropClaim s mb i) := by
  unfold dropClaim
  grind [canonical_updMbox]

theorem canonical_askPull {s : State} (mb i : Nat) (c : Claim) (hs : Canonical s) :
    Canonical (askPull s mb i c) := by
  unfold askPull
  grind [canonical_mk, → Canonical.mem, → Canonical.hostMem, → canonical_engineTag, canonical_setClaim, canonical_countOwner]

theorem canonical_claimMessage {s : State} (mb : Nat) (m : Message) (x : Pigeonhole) (hs : Canonical s) :
    Canonical (claimMessage s mb m x) := by
  unfold claimMessage
  grind [canonical_updMbox, canonical_askPull]

theorem canonical_testMessage {s : State} (mb : Nat) (m : Message) (hs : Canonical s) :
    Canonical (testMessage s mb m) := by
  unfold testMessage
  grind [canonical_claimMessage, canonical_updMbox, canonical_reply]

theorem canonical_updPair {s : State} (mb : Nat) (ma : BitVec 22) (gen : BitVec 16) (f : Pair → Pair) (hs : Canonical s) :
    Canonical (updPair s mb ma gen f) := by
  unfold updPair
  grind [canonical_updMbox]

theorem canonical_dropLog {s : State} (h : Rec64) (hs : Canonical s) :
    Canonical (dropLog s h) := by
  unfold dropLog
  grind [canonical_errLog]

theorem canonical_lostHeader {s : State} (m : Message) (hs : Canonical s) :
    Canonical (lostHeader s m) := by
  unfold lostHeader
  grind [canonical_reply, canonical_dropLog]

theorem canonical_dropBehind {s : State} (mb : Nat) (ma : BitVec 22) (gen : BitVec 16) (hs : Canonical s) :
    Canonical (dropBehind s mb ma gen) := by
  unfold dropBehind
  grind [canonical_lostHeader, canonical_updPair, canonical_foldl]

theorem canonical_runHeld (mb : Nat) (ma : BitVec 22) (gen : BitVec 16) (n : Nat) {s : State} (hs : Canonical s) :
    Canonical (runHeld mb ma gen n s) := by
  induction n generalizing s with
  | zero => exact hs
  | succ n ih =>
    unfold runHeld
    grind [canonical_dropBehind, canonical_updPair, canonical_testMessage]

theorem canonical_settlePair {s : State} (mb : Nat) (ma : BitVec 22) (gen : BitVec 16) (hs : Canonical s) :
    Canonical (settlePair s mb ma gen) := by
  unfold settlePair
  grind [canonical_updMbox, canonical_runHeld]

theorem canonical_judgeHeader {s : State} (mb : Nat) (m : Message) (q : Pair) (hs : Canonical s) :
    Canonical (judgeHeader s mb m q) := by
  unfold judgeHeader
  grind [canonical_updPair, canonical_settlePair, canonical_testMessage, canonical_lostHeader]

theorem canonical_headerArrives {s0 : State} (peer : BitVec 10) (h : Rec64) (payload : List Byte) (hs : Canonical s0) :
    Canonical (headerArrives s0 peer h payload) := by
  unfold headerArrives
  grind [canonical_nextSeq, canonical_dropLog, canonical_reply, canonical_judgeHeader, canonical_lostHeader, canonical_updMbox]

theorem canonical_execHeaderArrival {s : State} (hs : Canonical s) {t : State}
    (ht : execHeaderArrival s = .next t) : Canonical t := by
  unfold execHeaderArrival at ht
  grind [canonical_mk, → Canonical.mem, → Canonical.hostMem, canonical_headerArrives, canonical_wakeUp]

theorem canonical_inboundGrows {s : State} (x : Inbound) (hs : Canonical s) :
    Canonical (inboundGrows s x) := by
  unfold inboundGrows
  grind [canonical_mk, → Canonical.mem, → Canonical.hostMem, canonical_headerArrives]

theorem canonical_apertureWrite {s : State} (pa : Nat) (bs : List Byte) (hs : Canonical s) :
    Canonical (apertureWrite s pa bs) := by
  unfold apertureWrite
  extract_lets o h x q y
  split
  · split
    · exact canonical_inboundGrows _ hs
    · exact canonical_headerArrives _ _ _ hs
  · split
    · exact canonical_takeReply _ hs
    · split
      · exact canonical_inboundGrows _ hs
      · exact hs

theorem canonical_aperturePull {s : State} (pa n : Nat) (hs : Canonical s) :
    Canonical (aperturePull s pa n) := by
  unfold aperturePull
  grind [canonical_pullStep]

theorem canonical_execSequenceGapClose {s : State} (hs : Canonical s) {t : State}
    (ht : execSequenceGapClose s = .next t) : Canonical t := by
  unfold execSequenceGapClose at ht
  grind [canonical_errLog, canonical_updPair, canonical_settlePair, canonical_foldl]

theorem canonical_mboxForm (a b : BitVec 5) (p w : BitVec 2) (check : Rec64 → Bool) (ready : Bool)
    {body : Nat → Rec64 → (State → State) → State → Out}
    (hb : ∀ mb r fin u t, (∀ v, Canonical v → Canonical (fin v)) → Canonical u → body mb r fin u = .next t → Canonical t)
    {s : State} (hs : Canonical s) {t : State} (ht : mboxForm a b p w check ready body s = .next t) : Canonical t := by
  unfold mboxForm at ht
  grind [canonical_raise, → canonical_loadRecord_got, → canonical_loadRecord_out, canonical_upd]

theorem canonical_postHole (a b : BitVec 5) (reg : Option Nat) (p w : BitVec 2) {s : State} (hs : Canonical s) {t : State}
    (ht : postHole a b reg p w s = .next t) : Canonical t := by
  unfold postHole at ht
  grind [→ canonical_mboxForm, canonical_raise, canonical_claimMessage, canonical_updMbox]

theorem canonical_execRpost (a b : BitVec 5) (p w : BitVec 2) {s : State} (hs : Canonical s) {t : State}
    (ht : execRpost a b p w s = .next t) : Canonical t := by
  unfold execRpost at ht
  grind [→ canonical_postHole]

theorem canonical_execRpostm (a b c : BitVec 5) (p w : BitVec 2) {s : State} (hs : Canonical s) {t : State}
    (ht : execRpostm a b c p w s = .next t) : Canonical t := by
  unfold execRpostm at ht
  grind [→ canonical_postHole]

theorem canonical_execRcancel (a b : BitVec 5) (p w : BitVec 2) {s : State} (hs : Canonical s) {t : State}
    (ht : execRcancel a b p w s = .next t) : Canonical t := by
  unfold execRcancel at ht
  grind [canonical_raise, canonical_upd, canonical_cancelHole, canonical_updMbox]

theorem canonical_execRprobe (a b c : BitVec 5) (p w : BitVec 2) {s : State} (hs : Canonical s) {t : State}
    (ht : execRprobe a b c p w s = .next t) : Canonical t := by
  unfold execRprobe at ht
  grind [→ canonical_mboxForm, canonical_upd]

theorem canonical_dropPulled {s : State} (hnd : BitVec 13) (hs : Canonical s) :
    Canonical (dropPulled s hnd) := by
  unfold dropPulled
  grind [canonical_mk, → Canonical.mem, → Canonical.hostMem]

theorem canonical_execPullComplete {s : State} (hs : Canonical s) {t : State}
    (ht : execPullComplete s = .next t) : Canonical t := by
  unfold execPullComplete at ht
  grind [canonical_askPull, canonical_giveTag, canonical_dropPulled, canonical_setClaim]

theorem canonical_writePayload {s : State} (c : Claim) (bs : List Byte) (hs : Canonical s) {r : CopyRun}
    (ht : writePayload s c bs = some r) : Canonical r.st :=
  canonical_copySectors _ _ (r := ⟨s, 0, 0, 0, noFeed, []⟩) hs ht

theorem canonical_sendLoose {s : State} (die : Nat) (far : List (Nat × Outgoing)) (hs : Canonical s) :
    Canonical (sendLoose s die far) := by
  unfold sendLoose
  grind [→ canonical_engineSome, canonical_dropTag]

theorem canonical_partialLanding {s : State} (mb : Nat) (c : Claim) (bs : List Byte) (hs : Canonical s) :
    Canonical (partialLanding s mb c bs) := by
  unfold partialLanding
  grind [canonical_mk, → Canonical.mem, → Canonical.hostMem, → canonical_writePayload, canonical_sendLoose]

theorem canonical_execPullFail {s : State} (hs : Canonical s) {t : State}
    (ht : execPullFail s = .next t) : Canonical t := by
  unfold execPullFail at ht
  grind [canonical_dropTags, canonical_partialLanding, canonical_dropPulled, canonical_dropClaim, canonical_completeHole]

theorem canonical_landSend {s : State} (mb i : Nat) (c : Claim) (far : List (Nat × Outgoing)) (hs : Canonical s) {t : State}
    (ht : landSend s mb i c far = some t) : Canonical t := by
  unfold landSend at ht
  grind [canonical_countOwner, canonical_setClaim, → canonical_engineSome, canonical_giveTag, Option.map_eq_some_iff]

theorem canonical_backingTile_ok {s : State} (p : BitVec 6) (sid : BitVec 11) (va : Nat) (hs : Canonical s)
    {x : Tile × List Nat} {t : State} (ht : backingTile s p sid va = .ok (x, t)) : Canonical t := by
  obtain ⟨P, hP⟩ : ∃ P, P = ownPlace := ⟨_, rfl⟩
  have h : ∀ n y b u, P s p sid va n .read = .ok (y, b, u) → Canonical u :=
    fun n y b u hy => canonical_ownPlace_ok p sid va n .read hs (hP ▸ hy)
  obtain ⟨F, hF⟩ : ∃ F, F = backingTile := ⟨_, rfl⟩
  rw [← hF] at ht
  delta backingTile at hF
  rw [← hP] at hF
  subst hF
  beta_reduce at ht
  split at ht
  · exact absurd ht nofun
  · next y hy =>
    injection ht with ht
    injection ht with _ ht
    exact ht ▸ h _ _ _ _ hy

theorem canonical_backingTile_error {s : State} (p : BitVec 6) (sid : BitVec 11) (va : Nat) (hs : Canonical s)
   {t : State} (ht : backingTile s p sid va = .error t) : Canonical t := by
  obtain ⟨P, hP⟩ : ∃ P, P = ownPlace := ⟨_, rfl⟩
  have h : ∀ n u, P s p sid va n .read = .error u → Canonical u :=
    fun n u hy => canonical_ownPlace_error p sid va n .read hs (hP ▸ hy)
  obtain ⟨F, hF⟩ : ∃ F, F = backingTile := ⟨_, rfl⟩
  rw [← hF] at ht
  delta backingTile at hF
  rw [← hP] at hF
  subst hF
  beta_reduce at ht
  split at ht
  · next u hu =>
    injection ht with ht
    exact ht ▸ h _ _ hu
  · exact absurd ht nofun

theorem canonical_currentTile {s : State} (slot r : Nat) (hs : Canonical s) {x : Tile × List Nat} {t : State}
    (ht : currentTile s slot r = some (x, t)) : Canonical t := by
  unfold currentTile at ht
  extract_lets u e at ht
  split at ht
  · injection ht with ht; injection ht with _ ht; exact ht ▸ hs
  · split at ht
    · injection ht with ht; injection ht with _ ht; exact ht ▸ hs
    · cases h : backingTile s u.part (sidOf slot) (backingVa u r) with
      | error v => rw [h] at ht; exact absurd ht nofun
      | ok y =>
        rw [h] at ht
        injection ht with ht
        exact canonical_backingTile_ok _ _ _ hs (ht ▸ h)

theorem canonical_cleanRoom (slot limit n : Nat) {s : State} (hs : Canonical s) {t : State}
    (ht : cleanRoom slot limit n s = some t) : Canonical t := by
  induction n generalizing s with
  | zero => exact absurd ht nofun
  | succ n ih =>
    have hv := canonical_oneVictim slot hs
    unfold cleanRoom at ht
    grind [Room.state]

theorem canonical_landFrame {s : State} (slot r : Nat) (tile : Tile) (bad : List Nat) {free : State → State}
    (hf : ∀ u, Canonical u → Canonical (free u)) (hs : Canonical s) {t : State}
    (ht : landFrame s slot r tile bad free = some t) : Canonical t := by
  unfold landFrame at ht
  grind [canonical_mk, → Canonical.mem, → Canonical.hostMem, → canonical_cleanRoom, → canonical_takeFrame,
    canonical_sweepFrames, canonical_updSlot, Option.map_eq_some_iff, Option.filter_eq_some_iff]

theorem canonical_keptTile {s : State} (slot r : Nat) (hs : Canonical s) {x : Tile × List Nat} {t : State}
    (ht : keptTile s slot r = some (x, t)) : Canonical t := by
  unfold keptTile at ht
  extract_lets u at ht
  split at ht
  · injection ht with ht; injection ht with _ ht; exact ht ▸ hs
  · split at ht
    · cases h : backingTile s u.part (sidOf slot) (backingVa u r) with
      | error v => rw [h] at ht; exact absurd ht nofun
      | ok y =>
        rw [h] at ht
        injection ht with ht
        exact canonical_backingTile_ok _ _ _ hs (ht ▸ h)
    · injection ht with ht; injection ht with _ ht; exact ht ▸ hs

theorem canonical_destFault {s0 s : State} (mb i : Nat) (c : Claim) (f : Failure) (hs0 : Canonical s0) (hs1 : Canonical s) :
    Canonical (destFault s0 s mb i c f) := by
  unfold destFault
  grind [canonical_landLog, canonical_mendPtes, canonical_pushFault, canonical_setClaim]

theorem canonical_landEnd {s0 s : State} (mb i : Nat) (c : Claim) (lost : Bool) (hs0 : Canonical s0) (hs1 : Canonical s) :
    Canonical (landEnd s0 s mb i c lost) := by
  unfold landEnd
  grind [canonical_mk, → Canonical.mem, → Canonical.hostMem, canonical_destFault, canonical_completeHole, canonical_dropClaim]

theorem canonical_frames {s : State} (l : List (Nat × Frame)) (hs : Canonical s) : Canonical { s with frames := l } := hs

/-- What a landing comes to leaves memory canonical. -/
def Landed.Canonical : Landed → Prop
  | .ok s _ => Machine.Canonical s
  | .asked s => Machine.Canonical s
  | .fault s _ => Machine.Canonical s
  | .wait => True

theorem landed_landBuffer {s : State} (mb i : Nat) (c : Claim) (peers : List Nat) (rep : Reply) (hs : Canonical s) :
    (landBuffer s mb i c peers rep).Canonical := by
  unfold landBuffer
  grind [Landed.Canonical, canonical_giveTag, → canonical_landSend, canonical_engineFault, → canonical_writePayload,
    canonical_sendLoose]

theorem landed_landBacking {s : State} (p : BitVec 6) (sid : BitVec 11) (va : Nat) (tile : Tile) (bad : List Nat)
    {f : State → State} (hf : ∀ u, Canonical u → Canonical (f u)) (hs : Canonical s) :
    (landBacking s p sid va tile bad f).Canonical := by
  have hL : ∀ c va n al need acc x u, locate s c va n al need acc = .ok (x, u) → Canonical u :=
    fun c va n al need acc x u h => canonical_locate c va n al need acc hs h
  generalize ho : landBacking s p sid va tile bad f = o
  obtain ⟨F, hF⟩ : ∃ F, F = landBacking := ⟨_, rfl⟩
  rw [← hF] at ho
  delta landBacking at hF
  generalize locate = L at hF hL
  generalize lineTested = U at hF
  subst hF
  beta_reduce at ho
  split at ho
  · exact ho ▸ hs
  · next pa comp s0 hl =>
    have h1 : Canonical (s0.hold (U s0 pa 32768)) := canonical_hold _ (hL _ _ _ _ _ _ _ _ hl)
    extract_lets s1 at ho
    split at ho
    · exact ho ▸ hf _ (canonical_engineLost _ _ _ _ _ h1)
    · exact ho ▸ hf _ (canonical_poisonSectors _ (canonical_homeWrite _ _ _ _ h1))
  · exact ho ▸ hs

theorem canonical_oldTile {s : State} (slot r : Nat) (add : Bool) (z : Tile) (hs : Canonical s) {k : Tile × List Nat} {t : State}
    (ht : (if add then currentTile s slot r else some ((z, []), s)).bind (fun x => keptTile x.2 slot r) = some (k, t)) :
    Canonical t := by
  obtain ⟨x, hx, hk⟩ := Option.bind_eq_some_iff.mp ht
  refine canonical_keptTile slot r ?_ hk
  split at hx
  · exact canonical_currentTile slot r hs hx
  · exact Option.some.inj hx ▸ hs

theorem landed_landBound {s : State} (slot r : Nat) (add : Bool) (data : List Byte) (hs : Canonical s) :
    (landBound s slot r add data).Canonical := by
  generalize ho : landBound s slot r add data = o
  obtain ⟨F, hF⟩ : ∃ F, F = landBound := ⟨_, rfl⟩
  rw [← hF] at ho
  delta landBound at hF
  generalize locate = L at hF
  generalize (0#262144 : Tile) = z at hF
  subst hF
  beta_reduce at ho
  extract_lets t va old inFrame at ho
  split at ho
  · exact ho ▸ trivial
  · split at ho
    · exact ho ▸ hs
    · split at ho
      · next hk =>
        have h1 := canonical_oldTile slot r add z hs hk
        extract_lets tile free at ho
        have hfree : ∀ u, Canonical u → Canonical (free u) :=
          fun u hu => canonical_updSlot slot _ (canonical_orphanFrame slot r hu)
        split at ho
        · next hl => exact ho ▸ canonical_landFrame slot r _ _ hfree h1 hl
        · split at ho
          · exact ho ▸ trivial
          · exact ho ▸ landed_landBacking _ _ _ _ _
              (fun u hu => canonical_sweepFrames slot (canonical_updSlot slot _ (hfree u hu))) h1
      · split at ho
        · exact ho ▸ hs
        · exact ho ▸ hs

theorem landed_landSaved {s : State} (o : Owner) (t : Strand) (r : Nat) (add : Bool) (data : List Byte) (hs : Canonical s) :
    (landSaved s o t r add data).Canonical := by
  have hB : ∀ p sid va x u, backingTile s p sid va = .ok (x, u) → Canonical u :=
    fun p sid va x u h => canonical_backingTile_ok p sid va hs h
  have hE : ∀ p sid va u, backingTile s p sid va = .error u → Canonical u :=
    fun p sid va u h => canonical_backingTile_error p sid va hs h
  have hA : ∀ u f, Canonical u → Canonical (absentInMemory u f) := fun u f hu => canonical_absentInMemory f hu
  generalize hl : landSaved s o t r add data = l
  obtain ⟨F, hF⟩ : ∃ F, F = landSaved := ⟨_, rfl⟩
  rw [← hF] at hl
  delta landSaved at hF
  generalize backingTile = B at hF hB hE
  generalize absentInMemory = A at hF hA
  generalize (0#262144 : Tile) = z at hF
  subst hF
  beta_reduce at hl
  extract_lets va zero at hl
  split at hl
  · exact hl ▸ trivial
  · split at hl
    · exact hl ▸ hs
    · split at hl
      · next hb =>
        split at hb
        · exact absurd hb nofun
        · exact hl ▸ hE _ _ _ _ hb
      · next s1 hb =>
        have h1 : Canonical s1 := by
          split at hb
          · injection hb with hb
            injection hb with _ hb
            exact hb ▸ hs
          · exact hB _ _ _ _ _ hb
        rw [← hl]
        refine landed_landBacking _ _ _ _ _ (fun u hu => ?_) h1
        exact canonical_frames _ (hA _ _ (canonical_updOwner _ _ hu))

theorem landed_landPayload {s : State} (mb i : Nat) (c : Claim) (peers : List Nat) (rep : Reply) (hs : Canonical s) :
    (landPayload s mb i c peers rep).Canonical := by
  unfold landPayload
  grind [Landed.Canonical, landed_landBuffer, landed_landBound, landed_landSaved]

theorem canonical_execLanding {s : State} (hs : Canonical s) {t : State} (ht : execLanding s = .next t) : Canonical t := by
  have h := fun mb i c => landed_landPayload mb i c s.arg.peers s.arg.rep hs
  unfold execLanding at ht
  grind [Landed.Canonical, canonical_landEnd, canonical_dropTag, canonical_destFault]

theorem canonical_execDestfaultRetry {s : State} (hs : Canonical s) {t : State}
    (ht : execDestfaultRetry s = .next t) : Canonical t := by
  unfold execDestfaultRetry at ht
  grind [canonical_updMbox]

theorem canonical_cancelClaim (mb : Nat) {s : State} (c : Claim) (hs : Canonical s) :
    Canonical (cancelClaim mb s c) := by
  unfold cancelClaim
  grind [canonical_completeHole, canonical_dropPulled, canonical_dropTag]

theorem canonical_cancelTilesIn (t : Strand) (force : Bool) {s : State} (mb : Nat) (hs : Canonical s) :
    Canonical (cancelTilesIn t force s mb) := by
  unfold cancelTilesIn
  grind [canonical_updMbox, canonical_cancelClaim, canonical_cancelHole, canonical_foldl]

theorem canonical_cancelTiles (t : Strand) (force : Bool) {s : State} (hs : Canonical s) :
    Canonical (cancelTiles t force s) := by
  unfold cancelTiles
  grind [canonical_cancelTilesIn, canonical_foldl]

theorem canonical_closeMailbox {s : State} (mb : Nat) (hs : Canonical s) :
    Canonical (closeMailbox s mb) := by
  unfold closeMailbox
  grind [canonical_updMbox, canonical_cancelClaim, canonical_cancelHole, canonical_reply, canonical_foldl]

theorem canonical_putEntry {s : State} (pid : BitVec 6) (l : Nat) (i : BitVec 32) (r : Rec64) (hs : Canonical s) :
    Canonical (putEntry s pid l i r) := by
  unfold putEntry
  grind [canonical_homeWrite, canonical_hold]

theorem canonical_setHead {s : State} (pid : BitVec 6) (l : Nat) (h : BitVec 32) (hs : Canonical s) :
    Canonical (setHead s pid l h) := by
  unfold setHead
  grind [canonical_updPart]

theorem canonical_setTail {s : State} (pid : BitVec 6) (l : Nat) (x : BitVec 32) (hs : Canonical s) :
    Canonical (setTail s pid l x) := by
  unfold setTail
  grind [canonical_updPart]

theorem canonical_pushTail {s : State} (pid : BitVec 6) (l : Nat) (r : Rec64) (hs : Canonical s) :
    Canonical (pushTail s pid l r) := by
  unfold pushTail
  grind [canonical_setTail, canonical_putEntry]

theorem canonical_pushFront {s : State} (pid : BitVec 6) (l : Nat) (r : Rec64) (hs : Canonical s) :
    Canonical (pushFront s pid l r) := by
  unfold pushFront
  grind [canonical_setHead, canonical_putEntry]

theorem canonical_popHead {s : State} (pid : BitVec 6) (l : Nat) (hs : Canonical s) :
    Canonical (popHead s pid l) := by
  unfold popHead
  grind [canonical_setHead]

theorem canonical_lostEntry (pid : BitVec 6) (l : Nat) {s : State} (i : Nat) (hs : Canonical s) :
    Canonical (lostEntry pid l s i) := by
  unfold lostEntry
  grind [canonical_engineLost]

theorem canonical_readRing {s : State} (pid : BitVec 6) (l : Nat) (hs : Canonical s) :
    Canonical (readRing s pid l) := by
  unfold readRing
  grind [canonical_lostEntry, canonical_hold, canonical_foldl]

theorem canonical_refill {s : State} (pid : BitVec 6) (l : Nat) (rs : List Rec64) (hs : Canonical s) :
    Canonical (refill s pid l rs) :=
  canonical_setTail pid l _ (canonical_foldl_fst (fun u r hu => canonical_putEntry pid l u.2 r hu) hs)

theorem canonical_joinAt {s : State} (pid : BitVec 6) (va : Nat) (hs : Canonical s) :
    Canonical (joinAt s pid va).2 := by
  unfold joinAt
  grind [→ canonical_locate, canonical_afterFail, canonical_hold, canonical_engineLost]

theorem canonical_setPrio {s : State} (pid : BitVec 6) (va : Nat) (l : BitVec 2) (hs : Canonical s) :
    Canonical (setPrio s pid va l) := by
  unfold setPrio
  grind [canonical_mk, → Canonical.mem, → Canonical.hostMem]

theorem canonical_sendJoin {s : State} (j : JoinOp) (req : Outgoing) (hs : Canonical s) :
    Canonical (sendJoin s j req).2 := by
  unfold sendJoin
  grind [canonical_mk, → Canonical.mem, → Canonical.hostMem, → canonical_engineTag]

theorem canonical_noteJoin {s : State} (pid : BitVec 6) (va : Nat) (hs : Canonical s) :
    Canonical (noteJoin s pid va) := by
  unfold noteJoin
  grind [canonical_mk, → Canonical.mem, → Canonical.hostMem, canonical_joinAt, canonical_setPrio, canonical_sendJoin]

theorem canonical_noteJoinAt {s : State} (pa : Nat) (hs : Canonical s) :
    Canonical (noteJoinAt s pa) := by
  unfold noteJoinAt
  grind [canonical_noteJoin, canonical_foldl]

theorem canonical_joinLevelReply {s : State} (i : Nat) (rep : Reply) (hs : Canonical s) :
    Canonical (joinLevelReply s i rep) := by
  unfold joinLevelReply
  grind [canonical_mk, → Canonical.mem, → Canonical.hostMem, canonical_sendJoin, canonical_giveTag, canonical_setPrio]

theorem canonical_enqueue {s : State} (pid : BitVec 6) (l : Nat) (r : Rec64) (hs : Canonical s) {t : State}
    (ht : enqueue s pid l r = some t) : Canonical t := by
  unfold enqueue at ht
  grind [canonical_noteJoin, canonical_pushTail]

theorem canonical_execPriorityInheritanceMove {s0 : State} (hs : Canonical s0) {t : State}
    (ht : execPriorityInheritanceMove s0 = .next t) : Canonical t := by
  unfold execPriorityInheritanceMove at ht
  grind [canonical_joinLevelReply, canonical_refill, canonical_readRing, canonical_pushTail]

theorem canonical_enqueueD {u s : State} (pid : BitVec 6) (l : Nat) (r : Rec64) (hu : Canonical u) (hs : Canonical s) :
    Canonical ((enqueue u pid l r).getD s) :=
  canonical_getD (fun _ ht => canonical_enqueue pid l r hu ht) hs

theorem canonical_enqueueOrHold {s : State} (pid : BitVec 6) (l : BitVec 2) (r : Rec64) (hs : Canonical s) :
    Canonical (enqueueOrHold s pid l r) := by
  unfold enqueueOrHold
  grind [canonical_mk, → Canonical.mem, → Canonical.hostMem, canonical_enqueueD]

theorem canonical_execHeldContinuationEnqueue {s : State} (hs : Canonical s) {t : State}
    (ht : execHeldContinuationEnqueue s = .next t) : Canonical t := by
  unfold execHeldContinuationEnqueue at ht
  grind [canonical_mk, → Canonical.mem, → Canonical.hostMem, canonical_enqueueD]

theorem canonical_joinAtHome {s0 : State} (pid : BitVec 6) (sid : BitVec 11) (pa va : Nat) (comp : Bool) (hs : Canonical s0) :
    Canonical (joinAtHome s0 pid sid pa va comp) := by
  unfold joinAtHome
  grind [canonical_noteJoinAt, canonical_noteJoin, canonical_errLog, canonical_homeWrite, canonical_enqueueD, canonical_enqueueOrHold]

theorem canonical_joinDecrement {s : State} (pid : BitVec 6) (sid : BitVec 11) (va : Nat) (hs : Canonical s) :
    Canonical (joinDecrement s pid sid va) := by
  unfold joinDecrement
  grind [canonical_mk, → Canonical.mem, → Canonical.hostMem, → canonical_locate, canonical_joinFail, canonical_afterFail,
    canonical_joinAtHome, canonical_sendJoin, canonical_countFor, canonical_noteJoin]

theorem canonical_joinOpStep {s : State} (i : Nat) (rep : Reply) (hs : Canonical s) :
    Canonical (joinOpStep s i rep) := by
  unfold joinOpStep
  grind [canonical_mk, → Canonical.mem, → Canonical.hostMem, canonical_sendJoin, canonical_joinReply]

theorem canonical_execAccessPerformed {s : State} (hs : Canonical s) {t : State}
    (ht : execAccessPerformed s = .next t) : Canonical t := by
  unfold execAccessPerformed at ht
  grind [canonical_joinOpStep, canonical_endingStep, canonical_performOut]

theorem canonical_joinTimeout {s : State} (i : Nat) (hs : Canonical s) :
    Canonical (joinTimeout s i) := by
  unfold joinTimeout
  grind [canonical_mk, → Canonical.mem, → Canonical.hostMem, canonical_joinFail, canonical_dropTag]

theorem canonical_joinReadTimeout {s : State} (i : Nat) (hs : Canonical s) :
    Canonical (joinReadTimeout s i) := by
  unfold joinReadTimeout
  grind [canonical_mk, → Canonical.mem, → Canonical.hostMem, canonical_setPrio, canonical_dropTag]

theorem canonical_execRemoteTimeout {s : State} (hs : Canonical s) {t : State}
    (ht : execRemoteTimeout s = .next t) : Canonical t := by
  unfold execRemoteTimeout at ht
  grind [canonical_accessTimeout, canonical_copyTimeout, canonical_tileTimeout, canonical_joinTimeout, canonical_joinReadTimeout,
    canonical_endingTimeout, canonical_sendSourceTimeout]

theorem canonical_launchTable {s : State} (pid : BitVec 6) (lid : BitVec 32) (hs : Canonical s) :
    Canonical (launchTable s pid lid).2 := by
  unfold launchTable
  grind [canonical_hold, canonical_engineLost]

theorem canonical_closeLaunch {s : State} (pid : BitVec 6) (lid : BitVec 32) (hs : Canonical s) :
    Canonical (closeLaunch s pid lid) := by
  unfold closeLaunch
  grind [canonical_homeWrite, canonical_updPart]

theorem canonical_launchCheck {s : State} (pid : BitVec 6) (lid : BitVec 32) (hs : Canonical s) :
    Canonical (launchCheck s pid lid) := by
  unfold launchCheck
  grind [canonical_closeLaunch]

theorem canonical_dropHead {s : State} (pid : BitVec 6) (l : Nat) (hs : Canonical s) :
    Canonical (dropHead s pid l) := by
  unfold dropHead
  grind [canonical_popHead, canonical_lostEntry, canonical_launchCheck, canonical_foldl]

theorem canonical_execFence (c : BitVec 2) {s : State} (hs : Canonical s) {t : State}
    (ht : execFence c s = .next t) : Canonical t := by
  unfold execFence at ht
  grind [canonical_raiseSlot, → canonical_deliver, canonical_upd]

theorem canonical_execTrap (n : BitVec 12) {s : State} (hs : Canonical s) {t : State}
    (ht : execTrap n s = .next t) : Canonical t := by
  unfold execTrap at ht
  grind [canonical_raise]

theorem canonical_homeCells {s : State} (pa n : Nat) (cells : List (Nat × Byte)) (comp : Bool) (hs : Canonical s) :
    Canonical (homeCells s pa n cells comp) := by
  refine ⟨wf_homeCells pa n cells comp hs.1, ?_⟩
  have hb : ∀ u : State, (recompress (breakLinks u none pa n) pa n comp).hostMem = u.hostMem := fun u => by
    have h1 := congrArg State.hostMem (onlyHomes_recompress (breakLinks u none pa n) pa n comp).1
    have h2 := congrArg State.hostMem (onlyHomes_breakLinks u none pa n).1
    exact h1.trans h2
  unfold homeCells
  exact (congrArg (Memory.wf · = true) (hb _)).mpr hs.2

theorem canonical_ownLost {s : State} (p : BitVec 6) (sid : BitVec 11) (va pa n : Nat) (hs : Canonical s) :
    Canonical (ownLost s p sid va pa n) := by
  unfold ownLost
  grind [canonical_errLog]

theorem canonical_ownCells {s : State} (p : BitVec 6) (sid : BitVec 11) (va n : Nat) (cells : List (Nat × Byte)) (hs : Canonical s) :
    Canonical (ownCells s p sid va n cells) := by
  unfold ownCells
  grind [→ canonical_ownPlace_ok, → canonical_ownPlace_error, canonical_ownLost, canonical_homeCells]

theorem canonical_dropFault {s : State} (p : BitVec 6) (f : Option FaultRecord) (hs : Canonical s) :
    Canonical (dropFault s p f) := by
  unfold dropFault
  grind [canonical_mk, → Canonical.mem, → Canonical.hostMem, canonical_updPart]

theorem canonical_abandonWait {s : State} (slot : Nat) (hs : Canonical s) :
    Canonical (abandonWait s slot) := by
  unfold abandonWait
  grind [canonical_updSlot, canonical_dropTag, canonical_foldl]

theorem canonical_haltStrand (settled : Bool) {s : State} (slot : Nat) (hs : Canonical s) :
    Canonical (haltStrand settled s slot) := by
  unfold haltStrand
  grind [canonical_dropFault, canonical_updSlot, canonical_abandonWait]

theorem canonical_writeSaveArea {s : State} (slot : Nat) (hs : Canonical s) :
    Canonical (writeSaveArea s slot) := by
  unfold writeSaveArea
  grind [canonical_mk, → Canonical.mem, → Canonical.hostMem, canonical_ownCells, canonical_foldl]

theorem canonical_saveScratch {s : State} (slot : Nat) (hs : Canonical s) :
    Canonical (saveScratch s slot) := by
  unfold saveScratch
  grind [→ canonical_ownPlace_ok, → canonical_ownPlace_error, canonical_ownLost, canonical_poisonSectors, canonical_homeCells,
    canonical_foldl]

theorem canonical_writeBackReg (slot : Nat) {s : State} (r : Nat) (hs : Canonical s) : Canonical (writeBackReg slot s r) := by
  generalize ho : writeBackReg slot s r = o
  obtain ⟨P, hP⟩ : ∃ P, P = ownPlace := ⟨_, rfl⟩
  have h : ∀ p sid va n need y b u, P s p sid va n need = .ok (y, b, u) → Canonical u :=
    fun p sid va n need y b u hy => canonical_ownPlace_ok p sid va n need hs (hP ▸ hy)
  have h' : ∀ p sid va n need u, P s p sid va n need = .error u → Canonical u :=
    fun p sid va n need u hy => canonical_ownPlace_error p sid va n need hs (hP ▸ hy)
  obtain ⟨F, hF⟩ : ∃ F, F = writeBackReg := ⟨_, rfl⟩
  rw [← hF] at ho
  delta writeBackReg at hF
  rw [← hP] at hF
  clear hP
  subst hF
  beta_reduce at ho
  extract_lets t f at ho
  split at ho
  · next hy => exact ho ▸ h' _ _ _ _ _ _ hy
  · next hy =>
    exact ho ▸ canonical_countEvent _ _ _ (canonical_updSlot _ _ (canonical_writeBack _ _ _ _ (h _ _ _ _ _ _ _ _ hy)))

theorem canonical_mapWith {α β : Type} {f : State → α → β × State} (hf : ∀ u x, Canonical u → Canonical (f u x).2)
    (l : List α) {s : State} (hs : Canonical s) : Canonical (mapWith f s l).2 := by
  induction l generalizing s with
  | nil => exact hs
  | cons x l ih => exact ih (hf s x hs)

theorem canonical_carrySource (slot : Nat) {s : State} (x : Nat × Source) (hs : Canonical s) :
    Canonical (carrySource slot s x).2 := by
  unfold carrySource
  split
  · extract_lets e g
    split
    · exact hs
    · exact hs
  · extract_lets e
    split
    · exact hs
    · split
      · next h => exact canonical_backingTile_ok _ _ _ hs h
      · next h => exact canonical_backingTile_error _ _ _ hs h
  · exact hs

theorem canonical_carrySources {s : State} (slot : Nat) (hs : Canonical s) : Canonical (carrySources s slot) := by
  unfold carrySources
  extract_lets t
  refine canonical_updSlot slot _ (canonical_mapWith (fun u c hu => ?_) _ (canonical_mapWith (fun u c hu => ?_) _ hs))
  · cases h : c.reg with
    | none => simpa only [h] using hu
    | some x => simpa only [h] using canonical_carrySource slot x hu
  · exact canonical_mapWith (fun v x hv => canonical_carrySource slot x hv) _ hu

theorem canonical_saveStrand {s0 : State} (slot : Nat) (hs : Canonical s0) :
    Canonical (saveStrand s0 slot) := by
  unfold saveStrand
  grind [canonical_mk, → Canonical.mem, → Canonical.hostMem, canonical_carrySources, canonical_updSlot, canonical_writeBackReg,
    canonical_ownCells, canonical_writeSaveArea, canonical_saveScratch, canonical_foldl]

theorem canonical_ownRead_ok {s : State} (p : BitVec 6) (sid : BitVec 11) (va n : Nat) (hs : Canonical s) {x : Nat}
    {y z : List Nat} {t : State} (ht : ownRead s p sid va n = .ok (x, y, z, t)) : Canonical t := by
  unfold ownRead at ht
  cases h : ownPlace s p sid va n .read with
  | error u => rw [h] at ht; exact absurd ht nofun
  | ok r =>
    rw [h] at ht
    simp only [Except.map, Except.ok.injEq, Prod.mk.injEq] at ht
    obtain ⟨-, -, -, rfl⟩ := ht
    exact canonical_ownLost _ _ _ _ _ (canonical_ownPlace_ok p sid va n .read hs h)

theorem canonical_ownRead_error {s : State} (p : BitVec 6) (sid : BitVec 11) (va n : Nat) (hs : Canonical s) {t : State}
    (ht : ownRead s p sid va n = .error t) : Canonical t := by
  unfold ownRead at ht
  cases h : ownPlace s p sid va n .read with
  | ok r => rw [h] at ht; exact absurd ht nofun
  | error u =>
    rw [h] at ht
    injection ht with ht
    exact ht ▸ canonical_ownPlace_error p sid va n .read hs h

theorem canonical_reloadMap {s : State} (slot : Nat) (hs : Canonical s) : Canonical (reloadMap s slot) := by
  have hO : ∀ p sid va n x y z u, ownRead s p sid va n = .ok (x, y, z, u) → Canonical u :=
    fun p sid va n x y z u h => canonical_ownRead_ok p sid va n hs h
  have hE : ∀ p sid va n u, ownRead s p sid va n = .error u → Canonical u :=
    fun p sid va n u h => canonical_ownRead_error p sid va n hs h
  obtain ⟨F, hF⟩ : ∃ F, F = reloadMap := ⟨_, rfl⟩
  rw [← hF]
  delta reloadMap at hF
  generalize ownRead = O at hF hO hE
  generalize List.range 256 = l at hF
  subst hF
  beta_reduce
  extract_lets t
  split
  · next h => exact hE _ _ _ _ _ h
  · next h =>
    exact canonical_foldl (fun u x hu => canonical_errLog _ _ _ _ _ _ hu) (canonical_updSlot slot _ (hO _ _ _ _ _ _ _ _ h))

theorem canonical_reclaimFrames {s : State} (slot : Nat) (hs : Canonical s) :
    Canonical (reclaimFrames s slot) := by
  unfold reclaimFrames
  grind [canonical_mk, → Canonical.mem, → Canonical.hostMem, canonical_setStrand, canonical_foldl]

theorem canonical_loadScratch {s : State} (slot : Nat) (hs : Canonical s) : Canonical (loadScratch s slot) := by
  refine canonical_foldl (fun u k hu => ?_) hs
  split
  · next h => exact canonical_ownRead_error _ _ _ _ hu h
  · next h => exact canonical_updSlot slot _ (canonical_ownRead_ok _ _ _ _ hu h)

theorem canonical_readArea {α : Type} {f : AreaRead → α → AreaRead} (hf : ∀ a x, Canonical a.st → Canonical (f a x).st)
    (l : List α) {a : AreaRead} (ha : Canonical a.st) : Canonical (l.foldl f a).st := by
  induction l generalizing a with
  | nil => exact ha
  | cons x l ih => exact ih (hf a x ha)

theorem canonical_readSaveArea {s : State} (slot : Nat) (t : Strand) (hs : Canonical s) :
    Canonical (readSaveArea s slot t).st := by
  generalize hr : readSaveArea s slot t = r
  unfold readSaveArea at hr
  generalize List.range 6 = l at hr
  obtain ⟨f, hf, hr⟩ : ∃ f : AreaRead → Nat → AreaRead, f = _ ∧ List.foldl f _ l = r := ⟨_, rfl, hr⟩
  rw [← hr]
  refine canonical_readArea (fun a k ha => ?_) _ hs
  have hk := congrFun (congrFun hf a) k
  generalize f a k = o at hk ⊢
  split at hk
  · next h => exact hk ▸ canonical_ownRead_error _ _ _ _ ha h
  · next h => exact hk ▸ canonical_ownRead_ok _ _ _ _ ha h

theorem canonical_parkUnread (a : AreaRead) (slot : Nat) {s : State} (hs : Canonical s) : Canonical (parkUnread a slot s) := by
  unfold parkUnread
  grind [canonical_raiseAt]

theorem canonical_giveScratch {s : State} (slot : Nat) (hs : Canonical s) :
    Canonical (giveScratch s slot) := by
  unfold giveScratch
  grind [canonical_addScratch]

theorem canonical_resumeStrand {s : State} (slot : Nat) (img : Strand) (hs : Canonical s) :
    Canonical (resumeStrand s slot img) := by
  unfold resumeStrand
  exact canonical_parkUnread _ slot (canonical_giveScratch slot (canonical_evictToQuota slot (canonical_updSlot slot _
    (canonical_loadScratch slot (canonical_reclaimFrames slot (canonical_reloadMap slot
      (canonical_setStrand slot _ (canonical_readSaveArea slot img hs))))))))

theorem canonical_startStrand {s : State} (slot : Nat) (pid : BitVec 6) (area rank : Nat) (r : Rec64) (hs : Canonical s) :
    Canonical (startStrand s slot pid area rank r) := by
  unfold startStrand
  grind [canonical_mk, → Canonical.mem, → Canonical.hostMem, canonical_launchTable, canonical_giveScratch, canonical_ownCells,
    canonical_setStrand]

theorem canonical_retireGang {s : State} (g : Gang) (sid : BitVec 11) (decrement : Bool) (hs : Canonical s) :
    Canonical (retireGang s g sid decrement) := by
  unfold retireGang
  grind [canonical_mk, → Canonical.mem, → Canonical.hostMem, canonical_updPart, canonical_joinDecrement, canonical_launchCheck]

theorem canonical_execFork (a : BitVec 5) (p : BitVec 2) {s : State} (hs : Canonical s) {t : State}
    (ht : execFork a p s = .next t) : Canonical t := by
  unfold execFork at ht
  grind [canonical_raise, canonical_noteJoin, canonical_upd, → canonical_enqueue, → canonical_loadRecord_got, → canonical_loadRecord_out]

theorem canonical_orphanCopies {s : State} (slot : Nat) (hs : Canonical s) :
    Canonical (orphanCopies s slot) := by
  unfold orphanCopies
  grind [canonical_mk, → Canonical.mem, → Canonical.hostMem]

theorem canonical_freeSlot {s : State} (slot : Nat) (hs : Canonical s) :
    Canonical (freeSlot s slot) := by
  unfold freeSlot
  grind [canonical_mk, → Canonical.mem, → Canonical.hostMem]

theorem canonical_memberGone {s : State} (p : BitVec 6) (area rank : Nat) (sid : BitVec 11) (hs : Canonical s) :
    Canonical (memberGone s p area rank sid) := by
  unfold memberGone
  grind [canonical_updGang, canonical_retireGang]

theorem canonical_leaveTags {s : State} (slot : Nat) (hs : Canonical s) :
    Canonical (leaveTags s slot) := by
  unfold leaveTags
  grind [canonical_dropTag, canonical_foldl]

theorem canonical_execExit {s : State} (hs : Canonical s) {t : State}
    (ht : execExit s = .next t) : Canonical t := by
  unfold execExit at ht
  grind [canonical_upd, canonical_raiseSlot, → canonical_deliver, canonical_abandonSweep, canonical_cancelTiles, canonical_memberGone,
    canonical_freeSlot, canonical_orphanCopies, canonical_leaveTags]

theorem canonical_drainAccesses (slot n : Nat) {s : State} (hs : Canonical s) : Canonical (drainAccesses slot n s) := by
  induction n generalizing s with
  | zero => exact hs
  | succ n ih =>
    unfold drainAccesses
    split
    · exact hs
    · refine ih ?_
      grind [canonical_updSlot, canonical_performAccess, canonical_dropFlag, canonical_dropTag]

theorem canonical_endStrand {s : State} (slot : Nat) (hs : Canonical s) :
    Canonical (endStrand s slot) := by
  unfold endStrand
  grind [canonical_mk, → Canonical.mem, → Canonical.hostMem, canonical_abandonSweep, canonical_drainAccesses, canonical_keepFault,
    canonical_leaveTags, canonical_cancelTiles, canonical_freeSlot]

theorem canonical_endImage {s : State} (t : Strand) (hs : Canonical s) :
    Canonical (endImage s t) := by
  unfold endImage
  grind [canonical_mk, → Canonical.mem, → Canonical.hostMem, canonical_releaseWakes, canonical_closeDescriptor, canonical_cancelTiles]

theorem canonical_endGang {s : State} (g : Gang) (hs : Canonical s) :
    Canonical (endGang s g) := by
  unfold endGang
  grind [canonical_endImage, canonical_endStrand, canonical_updPart, canonical_retireGang, canonical_foldl]

theorem canonical_endLaunch {s : State} (pid : BitVec 6) (lid : BitVec 32) (hs : Canonical s) :
    Canonical (endLaunch s pid lid) := by
  unfold endLaunch
  grind [canonical_mk, → Canonical.mem, → Canonical.hostMem, canonical_refill, canonical_readRing, canonical_updPart,
    canonical_launchCheck, canonical_endGang, canonical_foldl]

theorem canonical_execLaunchEnd {s : State} (hs : Canonical s) {t : State}
    (ht : execLaunchEnd s = .next t) : Canonical t := by
  unfold execLaunchEnd at ht
  grind [canonical_endLaunch]

theorem canonical_liftPass {s : State} (q : Nat × Partition) (l : Nat) {u : State} (hs0 : Canonical s) (hs1 : Canonical u) :
    Canonical (liftPass s q l u) := by
  unfold liftPass
  grind [canonical_mk, → Canonical.mem, → Canonical.hostMem, canonical_foldl]

theorem canonical_advancePass {s : State} (pid : BitVec 6) (l : Nat) (pl : List Nat) (hs : Canonical s) :
    Canonical (advancePass s pid l pl) := by
  unfold advancePass
  grind [canonical_mk, → Canonical.mem, → Canonical.hostMem, canonical_foldl]

theorem canonical_noteEligible {s : State} (hs : Canonical s) :
    Canonical (noteEligible s) := by
  unfold noteEligible
  grind [canonical_mk, → Canonical.mem, → Canonical.hostMem, canonical_liftPass, canonical_foldl]

theorem canonical_startGang {s : State} (pid : BitVec 6) (area : Nat) (r : Rec64) (pl : List Nat) (hs : Canonical s) :
    Canonical (startGang s pid area r pl) := by
  unfold startGang
  grind [canonical_mk, → Canonical.mem, → Canonical.hostMem, canonical_updPart, canonical_startStrand, canonical_foldl]

theorem canonical_resumeGang {s : State} (g : Gang) (r : Rec64) (pl : List Nat) (hs : Canonical s) :
    Canonical (resumeGang s g r pl) := by
  unfold resumeGang
  grind [canonical_updGang, canonical_resumeStrand, canonical_foldl]

theorem canonical_grant {s : State} (pid : BitVec 6) (want : Nat) (l : Nat) (r : Rec64) (pl : List Nat) (hs : Canonical s) :
    Canonical (grant s pid want l r pl) := by
  unfold grant
  grind [canonical_popHead, canonical_advancePass, canonical_resumeGang, canonical_startGang]

theorem canonical_seekVictim {s : State} (pid : BitVec 6) (hs : Canonical s) :
    Canonical (seekVictim s pid) := by
  unfold seekVictim
  grind [canonical_updGang]

theorem canonical_execSchedulerServe {s0 : State} (hs : Canonical s0) {t : State}
    (ht : execSchedulerServe s0 = .next t) : Canonical t := by
  unfold execSchedulerServe at ht
  grind [canonical_hold, canonical_dropHead, canonical_grant, canonical_seekVictim]

theorem canonical_execPreemptionHalt {s : State} (hs : Canonical s) {t : State}
    (ht : execPreemptionHalt s = .next t) : Canonical t := by
  unfold execPreemptionHalt at ht
  grind [canonical_haltStrand, canonical_updGang, canonical_foldl]

theorem canonical_gangSaved {s : State} (g : Gang) (hs : Canonical s) :
    Canonical (gangSaved s g) := by
  unfold gangSaved
  grind [canonical_mk, → Canonical.mem, → Canonical.hostMem, canonical_keepFault, canonical_noteJoin, canonical_updGang,
    canonical_pushFront, canonical_foldl]

theorem canonical_execSaveComplete {s : State} (hs : Canonical s) {t : State}
    (ht : execSaveComplete s = .next t) : Canonical t := by
  unfold execSaveComplete at ht
  grind [canonical_saveStrand, canonical_gangSaved, canonical_foldl]

theorem canonical_execWatchdog {s : State} (hs : Canonical s) {t : State}
    (ht : execWatchdog s = .next t) : Canonical t := by
  unfold execWatchdog at ht
  grind [canonical_abandonWait, canonical_raiseAt]

theorem canonical_execFaultRecordAppend {s : State} (hs : Canonical s) {t : State}
    (ht : execFaultRecordAppend s = .next t) : Canonical t := by
  unfold execFaultRecordAppend at ht
  grind [canonical_mk, → Canonical.mem, → Canonical.hostMem, canonical_pushFault, canonical_setStrand]

theorem canonical_execMsmThermalLimit {s : State} (hs : Canonical s) {t : State}
    (ht : execMsmThermalLimit s = .next t) : Canonical t := by
  unfold execMsmThermalLimit at ht
  grind [canonical_mk, → Canonical.mem, → Canonical.hostMem]

theorem canonical_execMsmThermalClear {s : State} (hs : Canonical s) {t : State}
    (ht : execMsmThermalClear s = .next t) : Canonical t := by
  unfold execMsmThermalClear at ht
  grind [canonical_mk, → Canonical.mem, → Canonical.hostMem]

theorem canonical_execHbmThermalLevel {s : State} (hs : Canonical s) {t : State}
    (ht : execHbmThermalLevel s = .next t) : Canonical t := by
  unfold execHbmThermalLevel at ht
  grind [canonical_mk, → Canonical.mem, → Canonical.hostMem]

theorem canonical_logError {s : State} (e : EccTarget) (code detail : Nat) (hs : Canonical s) :
    Canonical (logError s e code detail) := by
  unfold logError
  grind [canonical_errLog]

theorem canonical_startTest {s : State} (e : EccTarget) (corrected : Bool) (hs : Canonical s) :
    Canonical (startTest s e corrected) := by
  unfold startTest
  grind [canonical_mk, → Canonical.mem, → Canonical.hostMem]

theorem canonical_execEccCorrected {s : State} (hs : Canonical s) {t : State}
    (ht : execEccCorrected s = .next t) : Canonical t := by
  unfold execEccCorrected at ht
  grind [canonical_startTest, canonical_logError]

theorem canonical_poisonTarget {s : State} (e : EccTarget) (hs : Canonical s) :
    Canonical (poisonTarget s e) := by
  unfold poisonTarget
  grind [canonical_mk, → Canonical.mem, → Canonical.hostMem, canonical_poisonSectors, canonical_updSlot]

theorem canonical_execUncorrectedError {s : State} (hs : Canonical s) {t : State}
    (ht : execUncorrectedError s = .next t) : Canonical t := by
  unfold execUncorrectedError at ht
  grind [canonical_startTest, canonical_poisonTarget, canonical_logError]

theorem canonical_lowerLimits {s : State} (core : Nat) (hs : Canonical s) :
    Canonical (lowerLimits s core) := by
  unfold lowerLimits
  grind [canonical_evictToQuota, canonical_updSlot, canonical_foldl]

theorem canonical_poisonBacking {s : State} (p : BitVec 6) (va : Nat) (hs : Canonical s) :
    Canonical (poisonBacking s p va) := by
  unfold poisonBacking
  grind [→ canonical_ownPlace_ok, → canonical_ownPlace_error, canonical_poisonSectors]

theorem canonical_keepBacking {s : State} (slot r : Nat) (hs : Canonical s) : Canonical (keepBacking s slot r) := by
  unfold keepBacking
  extract_lets t
  split
  · exact hs
  · split
    · next h => exact canonical_updSlot _ _ (canonical_backingTile_ok _ _ _ hs h)
    · next h => exact canonical_backingTile_error _ _ _ hs h

theorem canonical_releaseFrame {s : State} (core f : Nat) (corrected : Bool) (hs : Canonical s) :
    Canonical (releaseFrame s core f corrected) := by
  unfold releaseFrame
  grind [canonical_mk, → Canonical.mem, → Canonical.hostMem, canonical_poisonBacking, canonical_keepBacking, canonical_writeBackReg,
    canonical_updSlot, canonical_absentInMemory]

theorem canonical_spillNow {s : State} (slot : Nat) (hs : Canonical s) : Canonical (spillNow s slot) := by
  have hv := fun {u} (hu : Canonical u) => canonical_oneVictim slot hu
  unfold spillNow
  grind [Room.state, canonical_writeBackReg, canonical_keepBacking]

theorem canonical_releaseScratch {s : State} (k f : Nat) (corrected : Bool) (hs : Canonical s) {t : State}
    (ht : releaseScratch s k f corrected = some t) : Canonical t := by
  unfold releaseScratch at ht
  grind [canonical_updSlot, → canonical_scratchFrame, canonical_spillNow, canonical_foldl, Option.map_eq_some_iff]

theorem canonical_withdrawCore {s : State} (k : Nat) (hs : Canonical s) :
    Canonical (withdrawCore s k) := by
  unfold withdrawCore
  grind [canonical_mk, → Canonical.mem, → Canonical.hostMem]

theorem canonical_releaseScratchD {u s : State} (k f : Nat) (corrected : Bool) (hu : Canonical u) (hs : Canonical s) :
    Canonical ((releaseScratch u k f corrected).getD s) :=
  canonical_getD (fun _ ht => canonical_releaseScratch k f corrected hu ht) hs

theorem canonical_execSelfTestComplete {s : State} (hs : Canonical s) {t : State}
    (ht : execSelfTestComplete s = .next t) : Canonical t := by
  unfold execSelfTestComplete at ht
  grind [canonical_mk, → Canonical.mem, → Canonical.hostMem, canonical_logError, canonical_releaseScratchD,
    canonical_lowerLimits, canonical_releaseFrame, canonical_withdrawCore]

theorem canonical_ylReturn {s : State} (pid : BitVec 6) (x : Word) (hs : Canonical s) :
    Canonical (ylReturn s pid x) := by
  unfold ylReturn
  grind [canonical_updPart]

theorem canonical_ylPlace_ok {s : State} (pid : BitVec 6) (va : Word) (n : Nat) (need : Need) (hs : Canonical s) {x : ℕ} {y : Bool}
    {t : State}
    (ht : ylPlace s pid va n need = .ok (x, y, t)) : Canonical t := by
  unfold ylPlace at ht
  grind [→ canonical_locate, canonical_hold, canonical_engineLost, canonical_afterFail]

theorem canonical_ylPlace_error {s : State} (pid : BitVec 6) (va : Word) (n : Nat) (need : Need) (hs : Canonical s) {t : State}
    (ht : ylPlace s pid va n need = .error t) : Canonical t := by
  unfold ylPlace at ht
  grind [→ canonical_locate, canonical_hold, canonical_engineLost, canonical_afterFail]

theorem canonical_exceptMap {β γ : Type} {r : Except State (β × State)} {f : β × State → γ × State} (hf : ∀ x, (f x).2 = x.2)
    (hr : (∀ b t, r = .ok (b, t) → Canonical t) ∧ ∀ t, r = .error t → Canonical t) :
    (∀ c t, r.map f = .ok (c, t) → Canonical t) ∧ ∀ t, r.map f = .error t → Canonical t := by
  cases r with
  | error u => exact ⟨fun c t ht => by simp [Except.map] at ht, fun t ht => hr.2 t (by simpa [Except.map] using ht)⟩
  | ok x =>
    refine ⟨fun c t ht => ?_, fun t ht => by simp [Except.map] at ht⟩
    have hx : f x = (c, t) := Except.ok.inj ht
    have h := hf x
    rw [hx] at h
    have hx2 : Canonical x.2 := hr.1 x.1 x.2 rfl
    rw [← h] at hx2
    exact hx2

theorem canonical_ylRead (pid : BitVec 6) (k va n : Nat) {s : State} (hs : Canonical s) :
    (∀ b t, ylRead pid k va n s = .ok (b, t) → Canonical t) ∧ ∀ t, ylRead pid k va n s = .error t → Canonical t := by
  induction k generalizing va n s with
  | zero =>
    unfold ylRead
    grind
  | succ k ih =>
    cases n with
    | zero =>
      unfold ylRead
      grind
    | succ n =>
      unfold ylRead
      extract_lets m
      cases h : ylPlace s pid (BitVec.ofNat 64 va) m .read with
      | error u =>
        have hu := canonical_ylPlace_error pid _ m .read hs h
        grind
      | ok x =>
        obtain ⟨pa, c, s1⟩ := x
        have hi := ih (va + m) (n + 1 - m) (canonical_ylPlace_ok pid _ m .read hs h)
        exact canonical_exceptMap (fun _ => rfl) hi

theorem canonical_ylRead_ok (pid : BitVec 6) (k va n : Nat) {s : State} (hs : Canonical s) {b : List Byte} {t : State}
    (ht : ylRead pid k va n s = .ok (b, t)) : Canonical t := (canonical_ylRead pid k va n hs).1 b t ht

theorem canonical_ylRead_error (pid : BitVec 6) (k va n : Nat) {s : State} (hs : Canonical s) {t : State}
    (ht : ylRead pid k va n s = .error t) : Canonical t := (canonical_ylRead pid k va n hs).2 t ht

theorem canonical_ylWrite (pid : BitVec 6) (k va : Nat) (bs : List Byte) {s : State} (hs : Canonical s) :
    (∀ t, ylWrite pid k va bs s = .ok t → Canonical t) ∧ ∀ t, ylWrite pid k va bs s = .error t → Canonical t := by
  induction k generalizing va bs s with
  | zero =>
    unfold ylWrite
    grind
  | succ k ih =>
    unfold ylWrite
    grind [canonical_homeWrite, → canonical_ylPlace_ok, → canonical_ylPlace_error]

theorem canonical_ylWrite_ok (pid : BitVec 6) (k va : Nat) (bs : List Byte) {s : State} (hs : Canonical s) {t : State}
    (ht : ylWrite pid k va bs s = .ok t) : Canonical t := (canonical_ylWrite pid k va bs hs).1 t ht

theorem canonical_ylWrite_error (pid : BitVec 6) (k va : Nat) (bs : List Byte) {s : State} (hs : Canonical s) {t : State}
    (ht : ylWrite pid k va bs s = .error t) : Canonical t := (canonical_ylWrite pid k va bs hs).2 t ht

theorem canonical_newTable {s : State} (pid : BitVec 6) (hs : Canonical s) {x : ℕ} {t : State}
    (ht : newTable s pid = some (x, t)) : Canonical t := by
  unfold newTable at ht
  grind [canonical_updPart, canonical_homeCells, Option.map_eq_some_iff]

theorem canonical_mapLeaf (pid : BitVec 6) (va : Nat) (pte : Word) (l : List Nat) (table : Nat) {s : State} (hs : Canonical s)
   {t : State} (ht : mapLeaf pid va pte l table s = .ok t) : Canonical t := by
  induction l generalizing table s with
  | nil => exact absurd ht nofun
  | cons lo rest ih =>
    unfold mapLeaf at ht
    grind [canonical_homeWrite, → canonical_newTable]

theorem canonical_writableAgain {s : State} (pid : BitVec 6) (pte : Word) (hs : Canonical s) :
    Canonical (writableAgain s pid pte) := by
  unfold writableAgain
  grind [canonical_homeWrite]

theorem canonical_mapPages (pid : BitVec 6) (leaf : Nat → Word) (va n k : Nat) {s : State} (hs : Canonical s) {t : State}
    (ht : mapPages pid leaf va n k s = .ok t) : Canonical t := by
  induction n generalizing k s with
  | zero => exact Except.ok.inj ht ▸ hs
  | succ n ih =>
    unfold mapPages at ht
    grind [canonical_writableAgain, → canonical_mapLeaf]

theorem canonical_unmapPages (pid : BitVec 6) (va n : Nat) {s : State} (hs : Canonical s) :
    Canonical (unmapPages pid va n s) := by
  induction n with
  | zero => exact hs
  | succ n ih =>
    unfold unmapPages
    grind [canonical_homeWrite]

theorem canonical_startShootdown {s : State} (pid : BitVec 6) (lo hi : Nat) (bar : Word) (frames : List Nat) (fin : Done)
    (hs : Canonical s) :
    Canonical (startShootdown s pid lo hi bar frames fin) := by
  unfold startShootdown
  grind [canonical_mk, → Canonical.mem, → Canonical.hostMem]

theorem canonical_execShootdownRequest {s : State} (hs : Canonical s) {t : State}
    (ht : execShootdownRequest s = .next t) : Canonical t := by
  unfold execShootdownRequest at ht
  grind [canonical_startShootdown]

theorem canonical_restartWaits {s : State} (x : Shootdown) (die : Nat) (hs : Canonical s) :
    Canonical (restartWaits s x die) := by
  unfold restartWaits
  grind [canonical_abandonWait, canonical_foldl]

theorem canonical_scanRefuse {s : State} (pid : BitVec 6) (off reason : Nat) (hs : Canonical s) :
    Canonical (scanRefuse s pid off reason) := by
  unfold scanRefuse
  grind [canonical_updPart]

theorem canonical_startScan {s : State} (pid : BitVec 6) (va start stop : Nat) (hs : Canonical s) :
    Canonical (startScan s pid va start stop) := by
  unfold startScan
  grind [canonical_mk, → Canonical.mem, → Canonical.hostMem, canonical_scanRefuse]

theorem canonical_passPage {s : State} (pid : BitVec 6) (g h : Leaf) (pa : Nat) (hs : Canonical s) :
    Canonical (passPage s pid g h pa) := by
  unfold passPage
  grind [canonical_homeWrite, canonical_updPart]

theorem canonical_scanFail {s : State} (c : Scan) (off reason : Nat) (hs : Canonical s) :
    Canonical (scanFail s c off reason) := by
  unfold scanFail
  grind [canonical_scanRefuse, canonical_updPart]

theorem canonical_execScanComplete {s : State} (hs : Canonical s) {t : State}
    (ht : execScanComplete s = .next t) : Canonical t := by
  unfold execScanComplete at ht
  grind [canonical_mk, → Canonical.mem, → Canonical.hostMem, canonical_scanFail, canonical_startShootdown, canonical_passPage]

theorem canonical_finish {s : State} (x : Shootdown) (hs : Canonical s) :
    Canonical (finish s x) := by
  unfold finish
  grind [canonical_ylReturn, canonical_updPart, canonical_startScan]

theorem canonical_shootdownBar {s : State} (x : Shootdown) (die : Nat) (hs : Canonical s) :
    Canonical (shootdownBar s x die) := by
  unfold shootdownBar
  grind [canonical_complete]

theorem canonical_execShootdownArrival {s : State} (hs : Canonical s) {t : State}
    (ht : execShootdownArrival s = .next t) : Canonical t := by
  unfold execShootdownArrival at ht
  grind [canonical_mk, → Canonical.mem, → Canonical.hostMem, canonical_restartWaits, canonical_updPart, canonical_finish,
    canonical_shootdownBar, canonical_foldl]

theorem canonical_execFeatureMaskNarrow {s : State} (hs : Canonical s) {t : State}
    (ht : execFeatureMaskNarrow s = .next t) : Canonical t := by
  unfold execFeatureMaskNarrow at ht
  grind [canonical_updPart, canonical_startShootdown]

theorem canonical_rewriteEntry {s : State} (pid : BitVec 6) (e : BitVec 4096) (hs : Canonical s) :
    Canonical (rewriteEntry s pid e) := by
  unfold rewriteEntry
  grind [canonical_updPart, canonical_startShootdown]

theorem canonical_execYlMap {s : State} (hs : Canonical s) {t : State}
    (ht : execYlMap s = .next t) : Canonical t := by
  unfold execYlMap at ht
  grind [canonical_ylReturn, → canonical_mapPages, canonical_startShootdown]

theorem canonical_execYlUnmap {s : State} (hs : Canonical s) {t : State}
    (ht : execYlUnmap s = .next t) : Canonical t := by
  unfold execYlUnmap at ht
  grind [canonical_ylReturn, canonical_startShootdown, canonical_unmapPages]

theorem canonical_execYlExmap {s : State} (hs : Canonical s) {t : State}
    (ht : execYlExmap s = .next t) : Canonical t := by
  unfold execYlExmap at ht
  grind [canonical_ylReturn, canonical_startScan]

theorem canonical_execYlMemAlloc {s : State} (hs : Canonical s) {t : State} (ht : execYlMemAlloc s = .next t) :
    Canonical t := by
  have hr : ∀ w, Canonical (ylReturn s s.arg.p w) := fun w => canonical_ylReturn s.arg.p w hs
  unfold execYlMemAlloc at ht
  extract_lets pid a p n size kind fits at ht
  split at ht
  · grind
  · split at ht
    · grind
    · split at ht
      · grind
      · clear_value fits
        grind [canonical_ylReturn, → canonical_mapPages, canonical_updPart]

theorem canonical_execYlMemFree {s : State} (hs : Canonical s) {t : State}
    (ht : execYlMemFree s = .next t) : Canonical t := by
  unfold execYlMemFree at ht
  grind [canonical_ylReturn, canonical_startShootdown, canonical_unmapPages]

theorem canonical_fillQueue (pid : BitVec 6) (lid : BitVec 32) (n : Nat) {s : State} (hs : Canonical s) :
    Canonical (fillQueue pid lid n s) := by
  induction n generalizing s with
  | zero => exact hs
  | succ n ih =>
    unfold fillQueue
    grind [→ canonical_enqueue, canonical_updPart]

theorem canonical_goOnLaunch {s : State} (pid : BitVec 6) (lid : BitVec 32) (hs : Canonical s) :
    Canonical (goOnLaunch s pid lid) := by
  unfold goOnLaunch
  grind [canonical_fillQueue, canonical_ylReturn]

theorem canonical_execYlLaunch {s : State} (hs : Canonical s) {t : State} (ht : execYlLaunch s = .next t) : Canonical t := by
  unfold execYlLaunch at ht
  extract_lets pid p at ht
  split at ht
  · grind
  · split at ht
    · grind [canonical_goOnLaunch]
    · split at ht
      · grind [canonical_ylReturn]
      · split at ht
        · grind [canonical_ylReturn, → canonical_ylRead_error]
        · next h =>
          have h1 := canonical_ylRead_ok pid _ _ _ hs h
          extract_lets r at ht
          clear_value r
          grind [canonical_ylReturn, canonical_homeWrite, canonical_updPart, canonical_goOnLaunch]

theorem canonical_waitCount {s : State} (pid : BitVec 6) (va : Word) (hs : Canonical s) :
    Canonical (waitCount s pid va).2 := by
  unfold waitCount
  grind [→ canonical_ylPlace_ok, → canonical_ylPlace_error]

theorem canonical_waitCount_ok {s : State} {pid : BitVec 6} {va : Word} (hs : Canonical s) {r : Except Nat (BitVec 32)}
   {t : State} (ht : waitCount s pid va = (r, t)) : Canonical t := by
  have h := canonical_waitCount pid va hs
  rwa [ht] at h

theorem canonical_execYlWait {s : State} (hs : Canonical s) {t : State} (ht : execYlWait s = .next t) : Canonical t := by
  unfold execYlWait at ht
  extract_lets pid p endWait at ht
  have he : ∀ u i x, Canonical u → Canonical (endWait u i x) := fun u i x hu => canonical_ylReturn _ _ (canonical_updPart _ _ hu)
  clear_value endWait
  split at ht
  · grind
  · split at ht
    · split at ht
      · grind
      · split at ht
        · next h => exact Host.Outcome.next.inj ht ▸ he _ _ _ (canonical_waitCount_ok hs h)
        · next h =>
          have h1 := canonical_waitCount_ok hs h
          split at ht
          · exact Host.Outcome.next.inj ht ▸ he _ _ _ h1
          · exact Host.Outcome.next.inj ht ▸ h1
    · split at ht
      · grind [canonical_ylReturn, → canonical_waitCount_ok]
      · next h =>
        have h1 := canonical_waitCount_ok hs h
        split at ht
        · exact Host.Outcome.next.inj ht ▸ canonical_ylReturn _ _ h1
        · exact Host.Outcome.next.inj ht ▸ canonical_updPart _ _ h1

theorem canonical_execYlJoinCreate {s : State} (hs : Canonical s) {t : State} (ht : execYlJoinCreate s = .next t) :
    Canonical t := by
  unfold execYlJoinCreate at ht
  extract_lets pid a cont at ht
  have hcont : (∀ b u, cont = .ok (b, u) → Canonical u) ∧ ∀ u, cont = .error u → Canonical u := by
    by_cases h0 : a.a3 = 0#64
    · have hc : cont = .ok (0#512, s) := if_pos h0
      grind
    · have hc : cont = (ylPlace s pid a.a3 64 .read).map (fun x => (bytesBv 512 (homeRead x.2.2 x.1 64), x.2.2)) := if_neg h0
      rw [hc]
      cases h : ylPlace s pid a.a3 64 .read with
      | error u => grind [Except.map, → canonical_ylPlace_error]
      | ok x => grind [Except.map, → canonical_ylPlace_ok]
  clear_value cont
  split at ht
  · grind
  · split at ht
    · grind [canonical_ylReturn]
    · split at ht
      · grind [canonical_ylReturn]
      · next c s1 =>
        have h1 : Canonical s1 := hcont.1 c s1 rfl
        split at ht
        · grind [canonical_ylReturn]
        · grind [canonical_ylReturn, canonical_homeWrite, canonical_noteJoin, → canonical_ylPlace_ok, → canonical_ylPlace_error]

theorem canonical_execYlMboxOpen {s : State} (hs : Canonical s) {t : State}
    (ht : execYlMboxOpen s = .next t) : Canonical t := by
  unfold execYlMboxOpen at ht
  grind [canonical_ylReturn, canonical_updMbox]

theorem canonical_execYlMboxClose {s : State} (hs : Canonical s) {t : State}
    (ht : execYlMboxClose s = .next t) : Canonical t := by
  unfold execYlMboxClose at ht
  grind [canonical_ylReturn, canonical_closeMailbox]

theorem canonical_execYlFaultPolicy {s : State} (hs : Canonical s) {t : State}
    (ht : execYlFaultPolicy s = .next t) : Canonical t := by
  unfold execYlFaultPolicy at ht
  grind [canonical_ylReturn, canonical_updPart]

theorem canonical_execYlQuota {s : State} (hs : Canonical s) {t : State}
    (ht : execYlQuota s = .next t) : Canonical t := by
  unfold execYlQuota at ht
  grind [canonical_ylReturn, canonical_updPart]

theorem canonical_execYlPeerQuery {s : State} (hs : Canonical s) {t : State}
    (ht : execYlPeerQuery s = .next t) : Canonical t := by
  unfold execYlPeerQuery at ht
  grind [canonical_ylReturn]

theorem canonical_execYlAttest {s : State} (hs : Canonical s) {t : State} (ht : execYlAttest s = .next t) : Canonical t := by
  unfold execYlAttest at ht
  grind [canonical_ylReturn, → canonical_ylRead_ok, → canonical_ylRead_error, → canonical_ylWrite_ok, → canonical_ylWrite_error]

theorem canonical_endImageLaunches {s : State} (handle : Nat) (hs : Canonical s) :
    Canonical (endImageLaunches s handle) := by
  unfold endImageLaunches
  grind [canonical_endLaunch, canonical_foldl]

theorem canonical_exitImage {s : State} (handle : Nat) (code : Word) (hs : Canonical s) :
    Canonical (exitImage s handle code) := by
  unfold exitImage
  grind [canonical_mk, → Canonical.mem, → Canonical.hostMem, canonical_endImageLaunches]

theorem canonical_execYlExit {s : State} (hs : Canonical s) {t : State}
    (ht : execYlExit s = .next t) : Canonical t := by
  unfold execYlExit at ht
  grind [canonical_exitImage]

theorem canonical_execYlClock {s : State} (hs : Canonical s) {t : State}
    (ht : execYlClock s = .next t) : Canonical t := by
  unfold execYlClock at ht
  grind [canonical_ylReturn]

theorem canonical_resumeSettled {s : State} (slot : Nat) (r : FaultRecord) (hs : Canonical s) :
    Canonical (resumeSettled s slot r) := by
  unfold resumeSettled
  grind [canonical_dropFault, canonical_resumeParked]

theorem canonical_rescanPage {s : State} (slot : Nat) (r : FaultRecord) (hs : Canonical s) :
    Canonical (rescanPage s slot r) := by
  unfold rescanPage
  grind [canonical_endLaunch, canonical_resumeSettled, canonical_passPage]

theorem canonical_takeRecord {s : State} (hs : Canonical s) :
    Canonical (takeRecord s) := by
  unfold takeRecord
  grind [canonical_mk, → Canonical.mem, → Canonical.hostMem, canonical_updPart]

theorem canonical_execYalushResume {s : State} (hs : Canonical s) {t : State}
    (ht : execYalushResume s = .next t) : Canonical t := by
  unfold execYalushResume at ht
  grind [canonical_takeRecord, canonical_endLaunch, canonical_updSlot, canonical_resumeSettled, canonical_rescanPage]

theorem canonical_execPartitionActivate {s : State} (hs : Canonical s) {t : State}
    (ht : execPartitionActivate s = .next t) : Canonical t := by
  unfold execPartitionActivate at ht
  grind [canonical_mk, → Canonical.mem, → Canonical.hostMem, canonical_updPart, canonical_foldl]

theorem canonical_updVf {s : State} (n : Nat) (f : VirtualFunction → VirtualFunction) (hs : Canonical s) :
    Canonical (State.updVf s n f) := by
  unfold State.updVf
  grind [canonical_mk, → Canonical.mem, → Canonical.hostMem]

theorem canonical_unsupportedRequest {s : State} (n : Nat) (hs : Canonical s) :
    Canonical (unsupportedRequest s n) := by
  unfold unsupportedRequest
  grind [canonical_mk, → Canonical.mem, → Canonical.hostMem]

theorem canonical_execRegisterWrite {s : State} (hs : Canonical s) {t : State} (ht : execRegisterWrite s = .next t) :
    Canonical t := by
  obtain ⟨A, hA⟩ : ∃ A, A = Strand.saveArea := ⟨_, rfl⟩
  unfold execRegisterWrite at ht
  rw [← hA] at ht
  clear hA
  extract_lets x off at ht
  split at ht
  · extract_lets set s1 at ht
    have h1 : Canonical s1 := canonical_updGang _ _ _ hs
    clear_value s1
    split at ht
    · exact Host.Outcome.next.inj ht ▸ hs
    · split at ht
      · exact Host.Outcome.next.inj ht ▸ hs
      · split at ht
        · next h => exact Host.Outcome.next.inj ht ▸ canonical_ownPlace_error _ _ _ _ _ h1 h
        · next h => exact Host.Outcome.next.inj ht ▸ canonical_homeWrite _ _ _ _ (canonical_ownPlace_ok _ _ _ _ _ h1 h)
  all_goals
    grind [canonical_mk, → Canonical.mem, → Canonical.hostMem, canonical_unsupportedRequest, canonical_updVf,
      canonical_devicePut, canonical_rewriteEntry]

theorem canonical_loadPage {s : State} (pid : BitVec 6) (w : Bool) (va : Nat) (bs : List Byte) (hs : Canonical s) {t : State}
    (ht : loadPage s pid w va bs = some t) : Canonical t := by
  unfold loadPage at ht
  grind [→ canonical_newTable, → canonical_mapLeaf, canonical_homeCells]

theorem canonical_loadPages (pid : BitVec 6) (w : Bool) (va : Nat) (bs : List Byte) (k : Nat) {s : State} (hs : Canonical s)
   {t : State} (ht : loadPages pid w va bs k s = some t) : Canonical t := by
  induction k generalizing t with
  | zero => exact Option.some.inj ht ▸ hs
  | succ k ih =>
    unfold loadPages at ht
    grind [→ canonical_loadPage]

theorem canonical_loadSections (pid : BitVec 6) (f : List Byte) (l : List Section) {s : State} (hs : Canonical s) {t : State}
    (ht : loadSections pid f l s = some t) : Canonical t := by
  induction l generalizing s with
  | nil => exact Option.some.inj ht ▸ hs
  | cons x l ih =>
    unfold loadSections at ht
    grind [→ canonical_loadPages]

theorem canonical_passCode (pid : BitVec 6) (l : List Nat) {s : State} (hs : Canonical s) {t : State}
    (ht : passCode pid l s = some t) : Canonical t := by
  induction l generalizing s with
  | nil => exact Option.some.inj ht ▸ hs
  | cons va l ih =>
    unfold passCode at ht
    grind [canonical_passPage]

theorem canonical_refuseLoad {s : State} (vf off reason : Nat) (hs : Canonical s) :
    Canonical (refuseLoad s vf off reason).2 := by
  unfold refuseLoad
  grind [canonical_mk, → Canonical.mem, → Canonical.hostMem]

theorem canonical_loadImage {s : State} (pid : BitVec 6) (vf : Nat) (f : List Byte) (n : Nat) (hs : Canonical s) :
    Canonical (loadImage s pid vf f n).2 := by
  unfold loadImage
  extract_lets c l
  split
  · split
    · exact canonical_refuseLoad _ _ _ hs
    · exact hs
  · split
    · exact hs
    · split
      · next h =>
        have h1 := canonical_loadSections pid _ _ hs h
        extract_lets pages kernels
        split
        · exact canonical_refuseLoad _ _ _ hs
        · next h2 =>
          have h3 := canonical_passCode pid _ h1 h2
          exact ⟨h3.mem, h3.hostMem⟩
      · exact hs

theorem canonical_unloadImage {s : State} (i : Image) (hs : Canonical s) :
    Canonical (unloadImage s i) := by
  unfold unloadImage
  grind [canonical_mk, → Canonical.mem, → Canonical.hostMem, canonical_endImageLaunches, canonical_startShootdown, canonical_unmapPages,
    canonical_foldl]

theorem canonical_hostToImage (pid : BitVec 6) (k va : Nat) (bs : List Byte) {s : State} (hs : Canonical s) :
    (∀ t, hostToImage pid k va bs s = .ok t → Canonical t) ∧ ∀ t, hostToImage pid k va bs s = .error t → Canonical t := by
  induction k generalizing va bs s with
  | zero =>
    unfold hostToImage
    grind
  | succ k ih =>
    unfold hostToImage
    grind [canonical_homeWrite, → canonical_ylPlace_ok, → canonical_ylPlace_error]

theorem canonical_hostToImage_ok (pid : BitVec 6) (k va : Nat) (bs : List Byte) {s : State} (hs : Canonical s) {t : State}
    (ht : hostToImage pid k va bs s = .ok t) : Canonical t := (canonical_hostToImage pid k va bs hs).1 t ht

theorem canonical_hostToImage_error (pid : BitVec 6) (k va : Nat) (bs : List Byte) {s : State} (hs : Canonical s) {t : State}
    (ht : hostToImage pid k va bs s = .error t) : Canonical t := (canonical_hostToImage pid k va bs hs).2 t ht

theorem canonical_transfer {s : State} (i : Image) (write : Bool) (host va n : Nat) (hs : Canonical s) :
    Canonical (transfer s i write host va n).2 := by
  unfold transfer
  split
  · exact hs
  · split
    · split
      · next h => exact canonical_hostToImage_error _ _ _ _ hs h
      · next h => exact canonical_hostToImage_ok _ _ _ _ hs h
    · split
      · next h => exact canonical_ylRead_error _ _ _ _ hs h
      · next h =>
        have h1 := canonical_ylRead_ok _ _ _ _ hs h
        exact ⟨h1.mem, wf_memPut _ _ h1.hostMem⟩

theorem canonical_request {s : State} (pid : BitVec 6) (vf op : Nat) (a : Nat → Word) (hs : Canonical s) :
    Canonical (request s pid vf op a).2 := by
  unfold request
  grind [canonical_loadImage, canonical_unloadImage, canonical_transfer]

theorem canonical_hostPut {s : State} (at_ : Nat) (bs : List Byte) (hs : Canonical s) : Canonical (hostPut s at_ bs) :=
  ⟨hs.1, wf_memPut at_ bs hs.2⟩

theorem canonical_request_snd {s : State} {pid : BitVec 6} {vf op : Nat} {a : Nat → Word} (hs : Canonical s) {w : Word}
   {t : State} (ht : request s pid vf op a = (w, t)) : Canonical t := by
  have h := canonical_request pid vf op a hs
  rwa [ht] at h

theorem canonical_serveRing (pid : BitVec 6) (vf base log k : Nat) {s : State} (hs : Canonical s) :
    Canonical (serveRing pid vf base log k s) := by
  induction k generalizing s with
  | zero => exact hs
  | succ k ih =>
    unfold serveRing
    grind [canonical_mk, → Canonical.mem, → Canonical.hostMem, canonical_hostPut, → canonical_request_snd]

theorem canonical_execDoorbell {s : State} (hs : Canonical s) {t : State}
    (ht : execDoorbell s = .next t) : Canonical t := by
  unfold execDoorbell at ht
  grind [canonical_unsupportedRequest, canonical_wakeUp, canonical_hostPut, canonical_updVf, → canonical_request_snd, canonical_serveRing]

theorem canonical_execFunctionLevelReset {s : State} (hs : Canonical s) {t : State}
    (ht : execFunctionLevelReset s = .next t) : Canonical t := by
  unfold execFunctionLevelReset at ht
  grind [canonical_mk, → Canonical.mem, → Canonical.hostMem, canonical_unsupportedRequest, canonical_endImageLaunches, canonical_foldl,
    Option.map_eq_some_iff]

theorem canonical_setLinks {s : State} (l : List Nat) (up : Bool) (hs : Canonical s) :
    Canonical (setLinks s l up) := by
  unfold setLinks
  grind [canonical_mk, → Canonical.mem, → Canonical.hostMem, canonical_foldl]

theorem canonical_execLinkDown {s : State} (hs : Canonical s) {t : State}
    (ht : execLinkDown s = .next t) : Canonical t := by
  unfold execLinkDown at ht
  grind [canonical_mk, → Canonical.mem, → Canonical.hostMem, canonical_setLinks]

theorem canonical_execLinkUp {s : State} (hs : Canonical s) {t : State}
    (ht : execLinkUp s = .next t) : Canonical t := by
  unfold execLinkUp at ht
  grind [canonical_mk, → Canonical.mem, → Canonical.hostMem, canonical_setLinks]

theorem canonical_answer {s : State} (peer : BitVec 10) (data : List Byte) (ok : Bool) (hs : Canonical s) :
    Canonical (answer s peer data ok) := by
  unfold answer
  grind [canonical_mk, → Canonical.mem, → Canonical.hostMem]

theorem canonical_remoteAtomic {s : State} (peer : BitVec 10) (pa n : Nat) (f : Nat → Option Nat) (hs : Canonical s) :
    Canonical (remoteAtomic s peer pa n f) := by
  unfold remoteAtomic
  grind [canonical_answer, canonical_homeWrite]

theorem canonical_remoteReduce {s : State} (peer : BitVec 10) (code : BitVec 8) (ftz : Bool) (pa : Nat)
    (adds : List (Nat × BitVec 32 × BitVec 20)) (hs : Canonical s) :
    Canonical (remoteReduce s peer code ftz pa adds) := by
  unfold remoteReduce
  extract_lets bad one
  split
  · exact canonical_answer _ _ _ hs
  · exact canonical_answer _ _ _ (canonical_foldl_fst (fun u x hu => canonical_homeWrite _ _ _ _ hu) hs)

theorem canonical_remoteAppend {s : State} (peer : BitVec 10) (pa m : Nat) (hs : Canonical s) :
    Canonical (remoteAppend s peer pa m) := by
  unfold remoteAppend
  grind [canonical_answer, canonical_homeWrite]

theorem canonical_answerBar {s : State} (peer : BitVec 10) (bs : List Byte) (hs : Canonical s) :
    Canonical (answerBar s peer bs) := by
  unfold answerBar
  grind [canonical_answer]

theorem canonical_serveHomeWaits {s : State} (hs : Canonical s) :
    Canonical (serveHomeWaits s) := by
  unfold serveHomeWaits
  grind [canonical_mk, → Canonical.mem, → Canonical.hostMem, canonical_answerBar, canonical_answer, canonical_foldl]

theorem canonical_remoteBarrier {s : State} (peer : BitVec 10) (pa : Nat) {act : State → State}
    (ha : ∀ u, Canonical u → Canonical (act u)) (hs : Canonical s) : Canonical (remoteBarrier s peer pa act) := by
  unfold remoteBarrier
  grind [canonical_answerBar, canonical_answer]

theorem canonical_initBar {s : State} (pa : Nat) (q : BitVec 24) (hs : Canonical s) :
    Canonical (initBar s pa q) := by
  unfold initBar
  grind [canonical_homeWrite]

theorem canonical_remoteWake {s : State} (peer : BitVec 10) (p : BitVec 6) (sid : BitVec 11) (pa : Nat) (cells : List Nat)
    (event : Option (BitVec 24)) (hs : Canonical s) :
    Canonical (remoteWake s peer p sid pa cells event) := by
  unfold remoteWake
  grind [canonical_mk, → Canonical.mem, → Canonical.hostMem, canonical_answer, canonical_tellApplied, canonical_errLog, canonical_foldl]

theorem canonical_wakesApplied {s : State} (peer : BitVec 10) (sid : BitVec 11) (pa : Nat) (hs : Canonical s) :
    Canonical (wakesApplied s peer sid pa) := by
  unfold wakesApplied
  grind [canonical_mk, → Canonical.mem, → Canonical.hostMem]

theorem canonical_execRemoteAccessArrival {s : State} (hs : Canonical s) {t : State}
    (ht : execRemoteAccessArrival s = .next t) : Canonical t := by
  unfold execRemoteAccessArrival at ht
  grind [canonical_mk, → Canonical.mem, → Canonical.hostMem, canonical_wakeUp, canonical_aperturePull, canonical_answer,
    canonical_apertureWrite, canonical_homeWrite, canonical_poisonSectors, canonical_remoteReduce, canonical_remoteAppend,
    canonical_remoteBarrier, canonical_barUpdate, canonical_initBar, canonical_serveHomeWaits, canonical_flagWatchers,
    canonical_wakesApplied, canonical_remoteWake, canonical_joinAtHome, canonical_remoteAtomic]

theorem canonical_notePower {s : State} (watts temp : Nat) (hs : Canonical s) :
    Canonical (notePower s watts temp) := by
  unfold notePower
  grind [canonical_mk, → Canonical.mem, → Canonical.hostMem, canonical_foldl]

theorem canonical_execThrottleRaise {s : State} (hs : Canonical s) {t : State}
    (ht : execThrottleRaise s = .next t) : Canonical t := by
  unfold execThrottleRaise at ht
  grind [canonical_mk, → Canonical.mem, → Canonical.hostMem, canonical_notePower, canonical_updGang]

theorem canonical_execThrottleLower {s : State} (hs : Canonical s) {t : State}
    (ht : execThrottleLower s = .next t) : Canonical t := by
  unfold execThrottleLower at ht
  grind [canonical_mk, → Canonical.mem, → Canonical.hostMem, canonical_notePower, canonical_updGang]

theorem canonical_execPowerPreemption {s : State} (hs : Canonical s) {t : State}
    (ht : execPowerPreemption s = .next t) : Canonical t := by
  unfold execPowerPreemption at ht
  grind [canonical_mk, → Canonical.mem, → Canonical.hostMem, canonical_notePower, canonical_updGang]

theorem canonical_noteIdle {s : State} (hs : Canonical s) :
    Canonical (noteIdle s) := by
  unfold noteIdle
  grind [canonical_mk, → Canonical.mem, → Canonical.hostMem]

theorem canonical_execPowerCapSet {s : State} (hs : Canonical s) {t : State}
    (ht : execPowerCapSet s = .next t) : Canonical t := by
  unfold execPowerCapSet at ht
  grind [canonical_mk, → Canonical.mem, → Canonical.hostMem]

theorem canonical_execIdleEntry {s : State} (hs : Canonical s) {t : State}
    (ht : execIdleEntry s = .next t) : Canonical t := by
  unfold execIdleEntry at ht
  grind [canonical_mk, → Canonical.mem, → Canonical.hostMem]

theorem canonical_execIdleExit {s : State} (hs : Canonical s) {t : State}
    (ht : execIdleExit s = .next t) : Canonical t := by
  unfold execIdleExit at ht
  grind [canonical_wakeUp]

theorem canonical_coldState {s : State} (hs : Canonical s) : Canonical (coldState s) := ⟨rfl, hs.2⟩

theorem canonical_execPowerLoss {s : State} (hs : Canonical s) {t : State}
    (ht : execPowerLoss s = .next t) : Canonical t := by
  unfold execPowerLoss at ht
  grind [canonical_mk, → Canonical.mem, → Canonical.hostMem, canonical_coldState]

theorem canonical_execPackageReset {s : State} (hs : Canonical s) {t : State}
    (ht : execPackageReset s = .next t) : Canonical t := by
  unfold execPackageReset at ht
  grind [canonical_coldState]

theorem canonical_bringUpFour {s : State} (b : BringUp) (hs : Canonical s) :
    Canonical (bringUpFour s b) := by
  unfold bringUpFour
  grind [canonical_mk, → Canonical.mem, → Canonical.hostMem]

theorem canonical_bringUpThree {s : State} (b : BringUp) (hs : Canonical s) :
    Canonical (bringUpThree s b) := by
  unfold bringUpThree
  grind [canonical_mk, → Canonical.mem, → Canonical.hostMem]

theorem canonical_bootWith {s : State} (firmware : List Byte) (b : BringUp) (hs : Canonical s) :
    Canonical (bootWith s firmware b) := by
  unfold bootWith
  grind [canonical_mk, → Canonical.mem, → Canonical.hostMem, canonical_bringUpFour, canonical_bringUpThree]

theorem canonical_execPowerGood {s : State} (hs : Canonical s) {t : State}
    (ht : execPowerGood s = .next t) : Canonical t := by
  unfold execPowerGood at ht
  grind [canonical_mk, → Canonical.mem, → Canonical.hostMem, canonical_coldState, canonical_bootWith]

theorem canonical_execRecoveryImageSubmit {s : State} (hs : Canonical s) {t : State}
    (ht : execRecoveryImageSubmit s = .next t) : Canonical t := by
  unfold execRecoveryImageSubmit at ht
  grind [canonical_bootWith]

theorem canonical_execSecurityAlarm {s : State} (hs : Canonical s) {t : State}
    (ht : execSecurityAlarm s = .next t) : Canonical t := by
  unfold execSecurityAlarm at ht
  grind [canonical_mk, → Canonical.mem, → Canonical.hostMem, canonical_coldState]

theorem canonical_exec (i : Instr) {s t : State} (hs : Canonical s) (ht : exec i s = .next t) : Canonical t := by
  cases i with
  | add d a b => exact canonical_execAdd d a b hs ht
  | sub d a b => exact canonical_execSub d a b hs ht
  | and d a b => exact canonical_execAnd d a b hs ht
  | or d a b => exact canonical_execOr d a b hs ht
  | xor d a b => exact canonical_execXor d a b hs ht
  | andn d a b => exact canonical_execAndn d a b hs ht
  | sll d a b => exact canonical_execSll d a b hs ht
  | srl d a b => exact canonical_execSrl d a b hs ht
  | sra d a b => exact canonical_execSra d a b hs ht
  | slt d a b => exact canonical_execSlt d a b hs ht
  | sltu d a b => exact canonical_execSltu d a b hs ht
  | min d a b => exact canonical_execMin d a b hs ht
  | max d a b => exact canonical_execMax d a b hs ht
  | minu d a b => exact canonical_execMinu d a b hs ht
  | maxu d a b => exact canonical_execMaxu d a b hs ht
  | mul d a b => exact canonical_execMul d a b hs ht
  | mulh d a b => exact canonical_execMulh d a b hs ht
  | mulhu d a b => exact canonical_execMulhu d a b hs ht
  | div d a b => exact canonical_execDiv d a b hs ht
  | divu d a b => exact canonical_execDivu d a b hs ht
  | rem d a b => exact canonical_execRem d a b hs ht
  | remu d a b => exact canonical_execRemu d a b hs ht
  | clz d a => exact canonical_execClz d a hs ht
  | ctz d a => exact canonical_execCtz d a hs ht
  | popc d a => exact canonical_execPopc d a hs ht
  | csel d a b => exact canonical_execCsel d a b hs ht
  | addw d a b => exact canonical_execAddw d a b hs ht
  | subw d a b => exact canonical_execSubw d a b hs ht
  | mulw d a b => exact canonical_execMulw d a b hs ht
  | addi d a im => exact canonical_execAddi d a im hs ht
  | andi d a im => exact canonical_execAndi d a im hs ht
  | ori d a im => exact canonical_execOri d a im hs ht
  | xori d a im => exact canonical_execXori d a im hs ht
  | slti d a im => exact canonical_execSlti d a im hs ht
  | sltiu d a im => exact canonical_execSltiu d a im hs ht
  | lih d p im => exact canonical_execLih d p im hs ht
  | slli d a n => exact canonical_execSlli d a n hs ht
  | srli d a n => exact canonical_execSrli d a n hs ht
  | srai d a n => exact canonical_execSrai d a n hs ht
  | fadd d a b => exact canonical_execFadd d a b hs ht
  | fsub d a b => exact canonical_execFsub d a b hs ht
  | fmul d a b => exact canonical_execFmul d a b hs ht
  | fma d a b => exact canonical_execFma d a b hs ht
  | fmin d a b => exact canonical_execFmin d a b hs ht
  | fmax d a b => exact canonical_execFmax d a b hs ht
  | fcvtws d a => exact canonical_execFcvtws d a hs ht
  | fcvtsw d a => exact canonical_execFcvtsw d a hs ht
  | flt d a b => exact canonical_execFlt d a b hs ht
  | feq d a b => exact canonical_execFeq d a b hs ht
  | ld d a o z => exact canonical_execLd d a o z hs ht
  | lds d a o z => exact canonical_execLds d a o z hs ht
  | st d a o z => exact canonical_execSt d a o z hs ht
  | lda d a c z => exact canonical_execLda d a c z hs ht
  | str a b c z => exact canonical_execStr a b c z hs ht
  | fence c => exact canonical_execFence c hs ht
  | amoAdd d a b m r q c z => exact canonical_execAmoAdd d a b m r q c z hs ht
  | amoAnd d a b m r q c z => exact canonical_execAmoAnd d a b m r q c z hs ht
  | amoOr d a b m r q c z => exact canonical_execAmoOr d a b m r q c z hs ht
  | amoXor d a b m r q c z => exact canonical_execAmoXor d a b m r q c z hs ht
  | amoSmin d a b m r q c z => exact canonical_execAmoSmin d a b m r q c z hs ht
  | amoSmax d a b m r q c z => exact canonical_execAmoSmax d a b m r q c z hs ht
  | amoUmin d a b m r q c z => exact canonical_execAmoUmin d a b m r q c z hs ht
  | amoUmax d a b m r q c z => exact canonical_execAmoUmax d a b m r q c z hs ht
  | amoSwap d a b r q c z => exact canonical_execAmoSwap d a b r q c z hs ht
  | amoFadd d a b m r q c => exact canonical_execAmoFadd d a b m r q c hs ht
  | cas d a b r q c z => exact canonical_execCas d a b r q c z hs ht
  | stn d a b c z => exact canonical_execStn d a b c z hs ht
  | bcEq a b o => exact canonical_execBcEq a b o hs ht
  | bcNe a b o => exact canonical_execBcNe a b o hs ht
  | bcLt a b o => exact canonical_execBcLt a b o hs ht
  | bcGe a b o => exact canonical_execBcGe a b o hs ht
  | bcLtu a b o => exact canonical_execBcLtu a b o hs ht
  | bcGeu a b o => exact canonical_execBcGeu a b o hs ht
  | bcBset a b o => exact canonical_execBcBset a b o hs ht
  | bcBclr a b o => exact canonical_execBcBclr a b o hs ht
  | j o => exact canonical_execJ o hs ht
  | jal o => exact canonical_execJal o hs ht
  | jalr d a im => exact canonical_execJalr d a im hs ht
  | callt a sb => exact canonical_execCallt a sb hs ht
  | nop n => exact canonical_execNop n hs ht
  | csrr d c => exact canonical_execCsrr d c hs ht
  | csrw a c => exact canonical_execCsrw a c hs ht
  | csrs a c => exact canonical_execCsrs a c hs ht
  | csrc a c => exact canonical_execCsrc a c hs ht
  | trap n => exact canonical_execTrap n hs ht
  | bkpt => exact canonical_execBkpt hs ht
  | wfe a => exact canonical_execWfe a hs ht
  | exit => exact canonical_execExit hs ht
  | yield => exact canonical_execYield hs ht
  | wsb m => exact canonical_execWsb m hs ht
  | fork a p => exact canonical_execFork a p hs ht
  | vcfg d a g e => exact canonical_execVcfg d a g e hs ht
  | vadd d a b x y k => exact canonical_execVadd d a b x y k hs ht
  | vsub d a b x y k => exact canonical_execVsub d a b x y k hs ht
  | vmul d a b x y k => exact canonical_execVmul d a b x y k hs ht
  | vmulh d a b x y k => exact canonical_execVmulh d a b x y k hs ht
  | vand d a b x y k => exact canonical_execVand d a b x y k hs ht
  | vor d a b x y k => exact canonical_execVor d a b x y k hs ht
  | vxor d a b x y k => exact canonical_execVxor d a b x y k hs ht
  | vandn d a b x y k => exact canonical_execVandn d a b x y k hs ht
  | vsll d a b x y k => exact canonical_execVsll d a b x y k hs ht
  | vsrl d a b x y k => exact canonical_execVsrl d a b x y k hs ht
  | vsra d a b x y k => exact canonical_execVsra d a b x y k hs ht
  | vmin d a b x y k => exact canonical_execVmin d a b x y k hs ht
  | vmax d a b x y k => exact canonical_execVmax d a b x y k hs ht
  | vminu d a b x y k => exact canonical_execVminu d a b x y k hs ht
  | vmaxu d a b x y k => exact canonical_execVmaxu d a b x y k hs ht
  | vadds d a b x y k => exact canonical_execVadds d a b x y k hs ht
  | vcmpEq d a b x y k => exact canonical_execVcmpEq d a b x y k hs ht
  | vcmpNe d a b x y k => exact canonical_execVcmpNe d a b x y k hs ht
  | vcmpLt d a b x y k => exact canonical_execVcmpLt d a b x y k hs ht
  | vcmpLe d a b x y k => exact canonical_execVcmpLe d a b x y k hs ht
  | vcmpLtu d a b x y k => exact canonical_execVcmpLtu d a b x y k hs ht
  | vcmpLeu d a b x y k => exact canonical_execVcmpLeu d a b x y k hs ht
  | vcmpFeq d a b x y k sb => exact canonical_execVcmpFeq d a b x y k sb hs ht
  | vcmpFlt d a b x y k sb => exact canonical_execVcmpFlt d a b x y k sb hs ht
  | vfadd d a b x y k sb => exact canonical_execVfadd d a b x y k sb hs ht
  | vfsub d a b x y k sb => exact canonical_execVfsub d a b x y k sb hs ht
  | vfmul d a b x y k sb => exact canonical_execVfmul d a b x y k sb hs ht
  | vfmin d a b x y k sb => exact canonical_execVfmin d a b x y k sb hs ht
  | vfmax d a b x y k sb => exact canonical_execVfmax d a b x y k sb hs ht
  | vfdiv d a b x y k sb => exact canonical_execVfdiv d a b x y k sb hs ht
  | vfsqrt d a x k sb => exact canonical_execVfsqrt d a x k sb hs ht
  | vfscale d a b x y k sb => exact canonical_execVfscale d a b x y k sb hs ht
  | vfma d a b x y k sb => exact canonical_execVfma d a b x y k sb hs ht
  | vfms d a b x y k sb => exact canonical_execVfms d a b x y k sb hs ht
  | vfnma d a b x y k sb => exact canonical_execVfnma d a b x y k sb hs ht
  | vfnms d a b x y k sb => exact canonical_execVfnms d a b x y k sb hs ht
  | vfcvt d a x k sb => exact canonical_execVfcvt d a x k sb hs ht
  | vfcvti d a x k sb => exact canonical_execVfcvti d a x k sb hs ht
  | vfneg d a x k sb => exact canonical_execVfneg d a x k sb hs ht
  | vfabs d a x k sb => exact canonical_execVfabs d a x k sb hs ht
  | vfclass d a x k sb => exact canonical_execVfclass d a x k sb hs ht
  | vredsum d a x k => exact canonical_execVredsum d a x k hs ht
  | vredmax d a x k => exact canonical_execVredmax d a x k hs ht
  | vredmin d a x k => exact canonical_execVredmin d a x k hs ht
  | vredmaxu d a x k => exact canonical_execVredmaxu d a x k hs ht
  | vredminu d a x k => exact canonical_execVredminu d a x k hs ht
  | vfredsum d a x k sb => exact canonical_execVfredsum d a x k sb hs ht
  | vfredmax d a x k sb => exact canonical_execVfredmax d a x k sb hs ht
  | vfredmin d a x k sb => exact canonical_execVfredmin d a x k sb hs ht
  | vperm d a b x y k => exact canonical_execVperm d a b x y k hs ht
  | vslideup d a b x k => exact canonical_execVslideup d a b x k hs ht
  | vslidedn d a b x k => exact canonical_execVslidedn d a b x k hs ht
  | vcompress d a x k => exact canonical_execVcompress d a x k hs ht
  | vexpand d a x k => exact canonical_execVexpand d a x k hs ht
  | viota d k => exact canonical_execViota d k hs ht
  | vrix d b y k => exact canonical_execVrix d b y k hs ht
  | vrixw a b x y k => exact canonical_execVrixw a b x y k hs ht
  | vmv d a x k => exact canonical_execVmv d a x k hs ht
  | vsplat d a k => exact canonical_execVsplat d a k hs ht
  | vext d a b x => exact canonical_execVext d a b x hs ht
  | vins d a b => exact canonical_execVins d a b hs ht
  | vsel d a b x y k => exact canonical_execVsel d a b x y k hs ht
  | vmvi d a => exact canonical_execVmvi d a hs ht
  | vmvo d a x => exact canonical_execVmvo d a x hs ht
  | kand d a b => exact canonical_execKand d a b hs ht
  | kor d a b => exact canonical_execKor d a b hs ht
  | kxor d a b => exact canonical_execKxor d a b hs ht
  | kandn d a b => exact canonical_execKandn d a b hs ht
  | kpopc d a => exact canonical_execKpopc d a hs ht
  | kfirst d a => exact canonical_execKfirst d a hs ht
  | kbrka d a => exact canonical_execKbrka d a hs ht
  | kbrki d a => exact canonical_execKbrki d a hs ht
  | gbcast a x => exact canonical_execGbcast a x hs ht
  | grecv d => exact canonical_execGrecv d hs ht
  | vld v a k w sb => exact canonical_execVld v a k w sb hs ht
  | vlds v a b k w sb => exact canonical_execVlds v a b k w sb hs ht
  | vldx v a b k w sb c => exact canonical_execVldx v a b k w sb c hs ht
  | vgl v a b k w sb c => exact canonical_execVgl v a b k w sb c hs ht
  | vst v a k w sb c => exact canonical_execVst v a k w sb c hs ht
  | vsts v a b k w sb c => exact canonical_execVsts v a b k w sb c hs ht
  | vstx v a b k w sb c => exact canonical_execVstx v a b k w sb c hs ht
  | vsc v a b k w sb c => exact canonical_execVsc v a b k w sb c hs ht
  | vldff v a k w sb => exact canonical_execVldff v a k w sb hs ht
  | vappend v a b k w sb c => exact canonical_execVappend v a b k w sb c hs ht
  | vrred v a b k w sb c => exact canonical_execVrred v a b k w sb c hs ht
  | tshape d a f => exact canonical_execTshape d a f hs ht
  | setmw a => exact canonical_execSetmw a hs ht
  | tpref m p w => exact canonical_execTpref m p w hs ht
  | tdrop m p w => exact canonical_execTdrop m p w hs ht
  | tzero m p w => exact canonical_execTzero m p w hs ht
  | tloadA m a b y p w => exact canonical_execTloadA m a b y p w hs ht
  | tloadB m a b y p w => exact canonical_execTloadB m a b y p w hs ht
  | tloadC m a b p w => exact canonical_execTloadC m a b p w hs ht
  | tstoreA m a b p w => exact canonical_execTstoreA m a b p w hs ht
  | tstoreB m a b p w => exact canonical_execTstoreB m a b p w hs ht
  | tstoreC m a b p w => exact canonical_execTstoreC m a b p w hs ht
  | tmma d a l f p w => exact canonical_execTmma d a l f p w hs ht
  | tmmaSet d a l f p w => exact canonical_execTmmaSet d a l f p w hs ht
  | tmmaSw d a l f p w => exact canonical_execTmmaSw d a l f p w hs ht
  | tmmaSetSw d a l f p w => exact canonical_execTmmaSetSw d a l f p w hs ht
  | twload a l f p w => exact canonical_execTwload a l f p w hs ht
  | vtom m a b p w => exact canonical_execVtom m a b p w hs ht
  | mtov d a b l p w => exact canonical_execMtov d a b l p w hs ht
  | ttrans d a l p w => exact canonical_execTtrans d a l p w hs ht
  | tcvt d a l f p w => exact canonical_execTcvt d a l f p w hs ht
  | tadd d a b l h f p w => exact canonical_execTadd d a b l h f p w hs ht
  | cpy a b c g p w => exact canonical_execCpy a b c g p w hs ht
  | cpyt a b c g p w => exact canonical_execCpyt a b c g p w hs ht
  | mdiscard a c g p w => exact canonical_execMdiscard a c g p w hs ht
  | cpyz a b c g p w => exact canonical_execCpyz a b c g p w hs ht
  | binit a b p w => exact canonical_execBinit a b p w hs ht
  | bexp a b p w => exact canonical_execBexp a b p w hs ht
  | barr a b p w => exact canonical_execBarr a b p w hs ht
  | bwait a b p w => exact canonical_execBwait a b p w hs ht
  | btest a b p w => exact canonical_execBtest a b p w hs ht
  | pend a b p w => exact canonical_execPend a b p w hs ht
  | bexparr a b c p w => exact canonical_execBexparr a b c p w hs ht
  | tokp p => exact canonical_execTokp p hs ht
  | tokw w => exact canonical_execTokw w hs ht
  | gset a g => exact canonical_execGset a g hs ht
  | grst g => exact canonical_execGrst g hs ht
  | msend a g p w => exact canonical_execMsend a g p w hs ht
  | tsend a b g p w => exact canonical_execTsend a b g p w hs ht
  | tsendAdd a b g p w => exact canonical_execTsendAdd a b g p w hs ht
  | rpost a b p w => exact canonical_execRpost a b p w hs ht
  | rpostm a b c p w => exact canonical_execRpostm a b c p w hs ht
  | rcancel a b p w => exact canonical_execRcancel a b p w hs ht
  | rprobe a b c p w => exact canonical_execRprobe a b c p w hs ht
  | swp a b p w => exact canonical_execSwp a b p w hs ht
  | swnext p w => exact canonical_execSwnext p w hs ht
  | swexit p w => exact canonical_execSwexit p w hs ht
  | swake a b p w => exact canonical_execSwake a b p w hs ht
  | swakev a b c p w => exact canonical_execSwakev a b c p w hs ht
  | swakee a b p w => exact canonical_execSwakee a b p w hs ht
  | stnFlagIncrement => exact canonical_execStnFlagIncrement hs ht
  | msmcfgWrite => exact canonical_execMsmcfgWrite hs ht
  | srseedWrite => exact canonical_execSrseedWrite hs ht
  | registerWrite => exact canonical_execRegisterWrite hs ht
  | wfeTimeout => exact canonical_execWfeTimeout hs ht
  | vectorLoadLateError => exact canonical_execVectorLoadLateError hs ht
  | scatterAck => exact canonical_execScatterAck hs ht
  | mCommandRetire => exact canonical_execMCommandRetire hs ht
  | fillComplete => exact canonical_execFillComplete hs ht
  | spillComplete => exact canonical_execSpillComplete hs ht
  | copyStart => exact canonical_execCopyStart hs ht
  | copyRetire => exact canonical_execCopyRetire hs ht
  | guardedCommandDiscard => exact canonical_execGuardedCommandDiscard hs ht
  | bwaitWake => exact canonical_execBwaitWake hs ht
  | sendStart => exact canonical_execSendStart hs ht
  | pullRequest => exact canonical_execPullRequest hs ht
  | sendComplete => exact canonical_execSendComplete hs ht
  | headerArrival => exact canonical_execHeaderArrival hs ht
  | sequenceGapClose => exact canonical_execSequenceGapClose hs ht
  | pullComplete => exact canonical_execPullComplete hs ht
  | pullFail => exact canonical_execPullFail hs ht
  | landing => exact canonical_execLanding hs ht
  | destfaultRetry => exact canonical_execDestfaultRetry hs ht
  | groupOpen => exact canonical_execGroupOpen hs ht
  | sweepEngineFault => exact canonical_execSweepEngineFault hs ht
  | wakeApply => exact canonical_execWakeApply hs ht
  | swakeePass => exact canonical_execSwakeePass hs ht
  | scoreboardSlotComplete => exact canonical_execScoreboardSlotComplete hs ht
  | remoteTimeout => exact canonical_execRemoteTimeout hs ht
  | tagQuarantineEnd => exact canonical_execTagQuarantineEnd hs ht
  | latereply => exact canonical_execLatereply hs ht
  | watchdog => exact canonical_execWatchdog hs ht
  | faultRecordAppend => exact canonical_execFaultRecordAppend hs ht
  | schedulerServe => exact canonical_execSchedulerServe hs ht
  | preemptionHalt => exact canonical_execPreemptionHalt hs ht
  | saveComplete => exact canonical_execSaveComplete hs ht
  | priorityInheritanceMove => exact canonical_execPriorityInheritanceMove hs ht
  | heldContinuationEnqueue => exact canonical_execHeldContinuationEnqueue hs ht
  | throttleRaise => exact canonical_execThrottleRaise hs ht
  | throttleLower => exact canonical_execThrottleLower hs ht
  | powerPreemption => exact canonical_execPowerPreemption hs ht
  | yalushResume => exact canonical_execYalushResume hs ht
  | launchEnd => exact canonical_execLaunchEnd hs ht
  | msmThermalLimit => exact canonical_execMsmThermalLimit hs ht
  | msmThermalClear => exact canonical_execMsmThermalClear hs ht
  | hbmThermalLevel => exact canonical_execHbmThermalLevel hs ht
  | eccCorrected => exact canonical_execEccCorrected hs ht
  | uncorrectedError => exact canonical_execUncorrectedError hs ht
  | selfTestComplete => exact canonical_execSelfTestComplete hs ht
  | shootdownRequest => exact canonical_execShootdownRequest hs ht
  | shootdownArrival => exact canonical_execShootdownArrival hs ht
  | scanComplete => exact canonical_execScanComplete hs ht
  | featureMaskNarrow => exact canonical_execFeatureMaskNarrow hs ht
  | securityAlarm => exact canonical_execSecurityAlarm hs ht
  | partitionActivate => exact canonical_execPartitionActivate hs ht
  | ylLaunch => exact canonical_execYlLaunch hs ht
  | ylWait => exact canonical_execYlWait hs ht
  | ylMap => exact canonical_execYlMap hs ht
  | ylUnmap => exact canonical_execYlUnmap hs ht
  | ylExmap => exact canonical_execYlExmap hs ht
  | ylMboxOpen => exact canonical_execYlMboxOpen hs ht
  | ylMboxClose => exact canonical_execYlMboxClose hs ht
  | ylJoinCreate => exact canonical_execYlJoinCreate hs ht
  | ylFaultPolicy => exact canonical_execYlFaultPolicy hs ht
  | ylQuota => exact canonical_execYlQuota hs ht
  | ylPeerQuery => exact canonical_execYlPeerQuery hs ht
  | ylAttest => exact canonical_execYlAttest hs ht
  | ylExit => exact canonical_execYlExit hs ht
  | ylClock => exact canonical_execYlClock hs ht
  | ylMemAlloc => exact canonical_execYlMemAlloc hs ht
  | ylMemFree => exact canonical_execYlMemFree hs ht
  | doorbell => exact canonical_execDoorbell hs ht
  | functionLevelReset => exact canonical_execFunctionLevelReset hs ht
  | linkDown => exact canonical_execLinkDown hs ht
  | powerGood => exact canonical_execPowerGood hs ht
  | recoveryImageSubmit => exact canonical_execRecoveryImageSubmit hs ht
  | powerCapSet => exact canonical_execPowerCapSet hs ht
  | packageReset => exact canonical_execPackageReset hs ht
  | idleEntry => exact canonical_execIdleEntry hs ht
  | idleExit => exact canonical_execIdleExit hs ht
  | accessPerformed => exact canonical_execAccessPerformed hs ht
  | remoteAccessArrival => exact canonical_execRemoteAccessArrival hs ht
  | linkUp => exact canonical_execLinkUp hs ht
  | powerLoss => exact canonical_execPowerLoss hs ht

theorem canonical_deferredFirst {s : State} (i : Instr) (hs : Canonical s) {t : State}
    (ht : deferredFirst s i = some t) : Canonical t := by
  unfold deferredFirst at ht
  grind [canonical_raiseSlot, → canonical_deliver]

theorem canonical_unlessHeld {s : State} {o : Out} (hs : Canonical s) (ho : ∀ t, o = .next t → Canonical t) {t : State}
    (ht : unlessHeld s o = .next t) : Canonical t := by
  unfold unlessHeld at ht
  grind

theorem canonical_noteIssue {before s : State} (slot : Nat) (hs0 : Canonical before) (hs1 : Canonical s) :
    Canonical (noteIssue before s slot) := by
  unfold noteIssue
  grind [canonical_mk, → Canonical.mem, → Canonical.hostMem]

theorem canonical_afterIssue (i : Instr) (slot : Nat) {before after : State} (hs0 : Canonical before) (hs1 : Canonical after) :
    Canonical (afterIssue i slot before after) := by
  unfold afterIssue
  grind [canonical_updSlot, canonical_noteIssue, canonical_countFor]

theorem canonical_advance (n : Nat) {s : State} (hs : Canonical s) :
    Canonical (advance n s) := by
  unfold advance
  grind [canonical_mk, → Canonical.mem, → Canonical.hostMem]

theorem canonical_notePassed (slots : List Nat) {s : State} (hs : Canonical s) :
    Canonical (notePassed slots s) := by
  unfold notePassed
  grind [canonical_mk, → Canonical.mem, → Canonical.hostMem, canonical_foldl]

theorem canonical_tallyTick {s : State} (hs : Canonical s) :
    Canonical (tallyTick s) := by
  unfold tallyTick
  grind [canonical_countEvent, canonical_notePassed, canonical_foldl]

theorem canonical_noteBlocks {before s : State} (hs0 : Canonical before) (hs1 : Canonical s) :
    Canonical (noteBlocks before s) := by
  unfold noteBlocks
  grind [canonical_mk, → Canonical.mem, → Canonical.hostMem, canonical_countDieEvent, canonical_foldl]

theorem canonical_closeTurn {before s0 : State} (hs0 : Canonical before) (hs1 : Canonical s0) :
    Canonical (closeTurn before s0) := by
  unfold closeTurn
  grind [canonical_mk, → Canonical.mem, → Canonical.hostMem, canonical_noteBlocks, canonical_updSlot, canonical_lookAtWaits,
    canonical_serveHomeWaits, canonical_noteEligible, canonical_noteIdle, canonical_foldl]

theorem canonical_mapNext {f : State → State} (hf : ∀ u, Canonical u → Canonical (f u)) {o : Out}
    (ho : ∀ t, o = .next t → Canonical t) {t : State} (ht : mapNext f o = .next t) : Canonical t := by
  unfold mapNext at ht
  grind

/-- What a fetch gives leaves memory canonical. -/
def Fetched.Canonical : Fetched → Prop
  | .wait => True
  | .fault s => Machine.Canonical s
  | .word _ s => Machine.Canonical s

/-- What the issue stage finds leaves memory canonical. -/
def Issue.Canonical : Issue → Prop
  | .hold => True
  | .trap s => Machine.Canonical s
  | .stop _ => True
  | .run _ s => Machine.Canonical s

theorem fetched_fetch {s : State} (hs : Canonical s) : (fetch s).Canonical := by
  unfold fetch
  grind [Fetched.Canonical, canonical_raiseFail, canonical_raise, canonical_lostLog, → canonical_locate]

theorem issue_issueInstr {s : State} (i : Instr) (hs : Canonical s) : (issueInstr s i).Canonical := by
  have hr := canonical_raise (Trap.plain .poison) hs
  unfold issueInstr
  split
  · exact hs
  · split
    · split
      · exact hs
      · split
        · trivial
        · exact hr
    · exact hs

theorem issue_fetchIssue {s : State} (hs : Canonical s) : (fetchIssue s).Canonical := by
  have hf := fetched_fetch hs
  unfold fetchIssue
  split
  · trivial
  · generalize fetch s = x at hf
    cases x with
    | wait => trivial
    | fault u => exact hf
    | word w u =>
      dsimp only
      split
      · trivial
      · split
        · next h => exact canonical_deferredFirst _ hf h
        · split
          · trivial
          · exact issue_issueInstr _ hf

theorem canonical_issueTurn (slot : Nat) {s0 : State} (hs : Canonical s0) {t : State} (ht : issueTurn slot s0 = .next t) :
    Canonical t := by
  unfold issueTurn at ht
  extract_lets s at ht
  have h0 : Canonical s := ⟨hs.mem, hs.hostMem⟩
  clear_value s
  have hi := issue_fetchIssue h0
  generalize fetchIssue s = x at ht hi
  split at ht
  · exact Host.Outcome.next.inj ht ▸ h0
  · cases x with
    | hold => exact Host.Outcome.next.inj ht ▸ h0
    | trap s1 =>
      exact canonical_unlessHeld h0 (fun u hu => Host.Outcome.next.inj hu ▸ canonical_noteIssue slot h0 hi) ht
    | stop f => cases ht
    | run i s1 =>
      have h1 : Canonical s1 := hi
      exact canonical_unlessHeld h0
        (fun u hu => canonical_mapNext (fun v hv => canonical_afterIssue i slot h1 hv) (fun v hv => canonical_exec i h1 hv) hu) ht

theorem canonical_act (a : Act) {s : State} (hs : Canonical s) {t : State} (ht : act a s = .next t) : Canonical t := by
  cases a with
  | event i x =>
    have h1 : Canonical { s with arg := x, held := false } := ⟨hs.mem, hs.hostMem⟩
    unfold act at ht
    dsimp only at ht
    split at ht
    · exact canonical_unlessHeld h1 (fun u hu => canonical_exec i h1 hu) ht
    · exact Host.Outcome.next.inj ht ▸ hs
  | issue slot => exact canonical_issueTurn slot hs ht
  | dropTlb i => exact Host.Outcome.next.inj ht ▸ ⟨hs.mem, hs.hostMem⟩
  | idle => exact Host.Outcome.next.inj ht ▸ hs

theorem canonical_agenda {s : State} (l : List Turn) (hs : Canonical s) : Canonical { s with agenda := l } := hs

theorem canonical_runTurn (x : Turn) {s : State} (hs : Canonical s) {t : State} (ht : runTurn x s = .next t) :
    Canonical t := by
  have hc : ∀ v, Canonical v → Canonical (closeTurn s v) := fun v hv => canonical_closeTurn hs hv
  have ha : ∀ u v, Canonical u → act x.act u = .next v → Canonical v := fun u v hu hv => canonical_act x.act hu hv
  unfold runTurn at ht
  split at ht
  · exact canonical_mapNext hc (fun u hu => ha s u hs hu) ht
  · split at ht
    · exact canonical_mapNext hc (fun u hu => canonical_issueTurn _ (canonical_agenda _ hs) hu) ht
    · split at ht
      · have h1 : Canonical (advance 1 (tallyTick s)) := canonical_advance 1 (canonical_tallyTick hs)
        dsimp only at ht
        split at ht
        · exact canonical_mapNext hc (fun u hu => ha _ u h1 hu) ht
        · exact Host.Outcome.next.inj ht ▸ hc _ (canonical_agenda _ h1)
      · exact canonical_mapNext hc (fun u hu => ha _ u (canonical_advance _ hs) hu) ht

theorem canonical_step {s : State} (hs : Canonical s) {t : State} (ht : step s = .next t) : Canonical t := by
  unfold step at ht
  split at ht
  · exact canonical_runTurn _ hs ht
  · exact canonical_runTurn _ (canonical_agenda _ hs) ht

/-- Settles O58: memory is written by the homes and the host's transfers alone, which keep its canonical form, and so does every function
that a step is made of. -/
theorem stepKeepsMemoryCanonical : Obligations.StepKeepsMemoryCanonical := by
  unfold Obligations.StepKeepsMemoryCanonical
  intro s t hm hh ht
  exact canonical_step ⟨hm, hh⟩ ht

end Sys2Proof.Machine
end

section
/-! PROOFS. Mailbox forms (O39, refuted), the issue of send forms (O37) and the send engine (O38). -/

set_option Elab.async false

namespace Sys2Proof.Machine

open Sys2Proof

/-- A header of a one-byte rendezvous message. -/
def oneByteMessage : Message := ⟨1#10, mkHeader 2#8 0#16 0#22 0#22 0#12 0#13 0#32 1 0#16 0#32 0#16, [], true, false, 0⟩

/-- A pigeonhole record for one byte. -/
def oneByteHole : Rec64 := 1#512 <<< 160

/-- A strand that counts its remote requests is to post a pigeonhole for a queued message of another package. -/
def countedPost : State :=
  { State.reset.setStrand 0 { Strand.empty with phase := .running, perfSel := [(0, 8#17)] } with
    tlb := [⟨0, 0#6, 0, 0, 6, 0, true, true, false, true, 0#2, 0#10⟩]
    mem := [(20, 1#8)]
    mailboxes := [(0, { Mailbox.start with isOpen := true, queue := [oneByteMessage] })] }

theorem mem_countedPost : bytesBv 512 (memBytes countedPost.mem 0 64) = oneByteHole := by decide +kernel

theorem recordAt_countedPost : RecordAt countedPost 0#64 acceptsFar oneByteHole countedPost :=
  ⟨0, false, rfl, rfl, by decide +kernel, by decide +kernel, mem_countedPost.symm⟩

/-- What the posting strand has counted after a step. -/
def countsAfter : Out → List (Nat × Word)
  | .next t => t.me.perfCnt
  | _ => []

theorem countsAfter_countedPost : countsAfter (exec (.rpost 0#5 0#5 0#2 0#2) countedPost) = [(0, 1#64)] := by decide +kernel

/-- Refutes O39: a pigeonhole that claims a rendezvous message of another package sends its pull, and the strand's core counts the pull as a
remote request (`askPull`), where the statement leaves the strand's performance counters as they were. -/
theorem not_mailboxForms : ¬ Obligations.MailboxForms := by
  unfold Obligations.MailboxForms
  intro h
  obtain ⟨hpost, -⟩ := h countedPost countedPost 0#5 0#5 0#5 0#2 0#2 oneByteHole
  obtain ⟨hrpost, -, -⟩ := hpost (by decide) ⟨by decide, by decide, by decide⟩ recordAt_countedPost
  obtain ⟨-, hqueued⟩ := hrpost rfl (by decide) (by decide +kernel)
  obtain ⟨t, x, hexec, ⟨-, hwent⟩, -⟩ := hqueued [] oneByteMessage [] rfl (fun y hy => absurd hy List.not_mem_nil) (by decide +kernel)
  obtain ⟨-, -, -, -, -, -, -, -, hsame⟩ := hwent
  have hcounts := countsAfter_countedPost
  rw [hexec] at hcounts
  have hkept : t.me.perfCnt = [] := congrArg Strand.perfCnt hsame
  exact absurd (hcounts.symm.trans hkept) (by decide)

/-! ### A record read at issue (spec/10_descriptor_tables.md R187) -/

theorem tagsFree_mem (s : State) (die pa : Nat) (comp : Bool) : tagsFree s die [.mem pa comp] = true := tagsFree_of_local s die rfl

theorem loadRecord_of_recordAt {s s1 : State} {va : Word} {acc : Accepts} {r : Rec64} (h : RecordAt s va acc r s1) (k : AccessKind) :
    loadRecord va k acc s = .got r s1 := by
  obtain ⟨pa, comp, hlocate, hbuf, hheld, hfault, rfl⟩ := h
  rw [loadRecord, hbuf]
  dsimp only
  rw [hlocate]
  dsimp only
  rw [hheld, tagsFree_mem]
  simp only [Bool.not_true, Bool.or_false, Bool.false_eq_true, if_false, isLocal, if_true, hfault]
  rfl

theorem RecordAt.onlyHomes {s s1 : State} {va : Word} {acc : Accepts} {r : Rec64} (h : RecordAt s va acc r s1) : OnlyHomes s s1 := by
  obtain ⟨pa, comp, hlocate, -⟩ := h
  exact onlyHomes_locate hlocate

/-! ### Send forms (spec/17_engine_and_system_instructions.md R323, R324) -/

section

variable {s s1 : State} {a b : BitVec 5} {g : BitVec 4} {p w : BitVec 2} {r : Rec64}

/-- A send joins the strand's send order, and the strand goes on. -/
def Strand.appendSend (t : Strand) (c : SendCommand) : Strand := { t with sendq := t.sendq ++ [c] }.next

/-- The strand of which a send form reads a matrix register. -/
def namedFor (reg : Option (BitVec 5)) (u : Strand) : Strand :=
  match reg with
  | some f => nameRegs u u.mseq [u.mreg f]
  | none => u

/-- The send of a form: with its descriptor, its number, its matrix register bound and its guard's epoch. -/
def sendOf (ins : Instr) (reg : Option (BitVec 5)) (g : BitVec 4) (p : BitVec 2) (r : Rec64) (q : Nat) (u : Strand) : SendCommand :=
  ⟨ins, u.pc, r, q, reg.map (fun f => (u.mreg f, bindForSend u (u.mreg f))), captured u g, p, none, none⟩

/-- The strand with the tokens of a send form taken and its guard captured. -/
def capturedFor (g : BitVec 4) (t1 u : Strand) : Strand := (captureGuard { u with tok := t1.tok, tokRes := t1.tokRes } g).2

theorem captureGuard_spec (u : Strand) (g : BitVec 4) :
    (captureGuard u g).1 = captured u g ∧ ∃ l, (captureGuard u g).2 = { u with guards := l } := by
  unfold captureGuard captured
  split
  · exact ⟨rfl, u.guards, rfl⟩
  · exact ⟨rfl, _, rfl⟩

theorem capturedFor_eq (g : BitVec 4) (t1 u : Strand) : ∃ l, capturedFor g t1 u = { u with tok := t1.tok, tokRes := t1.tokRes, guards := l } :=
  (captureGuard_spec { u with tok := t1.tok, tokRes := t1.tokRes } g).2

theorem namedFor_eq (reg : Option (BitVec 5)) (u : Strand) : ∃ m, namedFor reg u = { u with map := m } ∧
    ∀ x, ((namedFor reg u).entry x).state = (u.entry x).state ∧ ((namedFor reg u).entry x).frame = (u.entry x).frame := by
  cases reg with
  | none => exact ⟨u.map, rfl, fun _ => ⟨rfl, rfl⟩⟩
  | some f => exact nameRegs_spec ..

/-- The strand whose send form has issued. -/
def issuedSend (ins : Instr) (reg : Option (BitVec 5)) (g : BitVec 4) (p : BitVec 2) (r : Rec64) (q : Nat) (t1 u : Strand) : Strand :=
  (namedFor reg (capturedFor g t1 u)).appendSend ⟨ins, u.pc, r, q,
    reg.map (fun f => ((capturedFor g t1 u).mreg f, bindForSend (capturedFor g t1 u) ((capturedFor g t1 u).mreg f))),
    (captureGuard { u with tok := t1.tok, tokRes := t1.tokRes } g).1, p, none, none⟩

theorem issuedSend_eq (ins : Instr) (reg : Option (BitVec 5)) (g : BitVec 4) (p : BitVec 2) (r : Rec64) (q : Nat) (t1 u : Strand) :
    issuedSend ins reg g p r q t1 u = (namedFor reg (capturedFor g t1 u)).appendSend (sendOf ins reg g p r q u) := by
  obtain ⟨l, hl⟩ := capturedFor_eq g t1 u
  have hepoch := (captureGuard_spec { u with tok := t1.tok, tokRes := t1.tokRes } g).1
  rw [issuedSend, hepoch, hl]
  rfl

theorem issuedSend_spec (ins : Instr) (reg : Option (BitVec 5)) (g : BitVec 4) (p : BitVec 2) (r : Rec64) (q : Nat) (t1 u : Strand) :
    (issuedSend ins reg g p r q t1 u).sendq = u.sendq ++ [sendOf ins reg g p r q u] ∧
      (∀ x, ((issuedSend ins reg g p r q t1 u).entry x).state = (u.entry x).state ∧
        ((issuedSend ins reg g p r q t1 u).entry x).frame = (u.entry x).frame) ∧
      WentOn u { issuedSend ins reg g p r q t1 u with sendq := u.sendq, guards := u.guards, tok := u.tok, tokRes := u.tokRes, map := u.map }
        (u.pc + 4#64) := by
  obtain ⟨l, hl⟩ := capturedFor_eq g t1 u
  obtain ⟨m, hm, hent⟩ := namedFor_eq reg (capturedFor g t1 u)
  have hent' : ∀ x, ((issuedSend ins reg g p r q t1 u).entry x).state = (u.entry x).state ∧
      ((issuedSend ins reg g p r q t1 u).entry x).frame = (u.entry x).frame := fun x => by
    have hx := hent x
    rw [issuedSend_eq]
    rw [hl] at hx ⊢
    exact hx
  refine ⟨?_, hent', ?_⟩
  · rw [issuedSend_eq, hm, hl]
    rfl
  · rw [issuedSend_eq, hm, hl]
    exact ⟨rfl, rfl, rfl, rfl, rfl, rfl, rfl, rfl, rfl⟩

theorem slice_six_eq_zero {va : Word} : slice va 0 6 = 0#6 ↔ va.toNat % 64 = 0 := by
  rw [slice_eq_zero_iff, Nat.pow_zero, Nat.div_one]
  rfl

theorem sendForm_go {ins : Instr} {reg : Option (BitVec 5)} {t1 : Strand} (htok : sTokens s.me p w = some t1)
    (hal : (s.me.getS a).toNat % 64 = 0) (hnear : inNear (s.me.getS a).toNat = false) (hrec : RecordAt s (s.me.getS a) acceptsFar r s1)
    (hopen : mboxOpen s1 (sdSrcMb r).toNat s.me.part = true) (hpeer : peerFault s1 s.me.part (slice (sdDst r) 12 10) = none)
    (hok : sdOk reg.isSome r = true) :
    sendForm ins a reg g p w s = .next (s1.nextSeq.2.upd (issuedSend ins reg g p r (s1.seq + 1) t1)) := by
  unfold sendForm
  simp only [htok, loadRecord_of_recordAt hrec, slice_six_eq_zero.mpr hal, hnear, hok, hopen, hpeer, ne_eq, not_true_eq_false, false_or,
    Bool.false_eq_true, if_false, Bool.not_true, Bool.or_false]
  cases reg <;> rfl

theorem sendForm_misaligned {ins : Instr} {reg : Option (BitVec 5)} (htok : (sTokens s.me p w).isSome = true)
    (hal : (s.me.getS a).toNat % 64 ≠ 0) :
    sendForm ins a reg g p w s = .next (raise ⟨.mailbox, .send, s.me.getS a, 0#32, false, false⟩ s) := by
  obtain ⟨t1, ht1⟩ := Option.isSome_iff_exists.mp htok
  unfold sendForm
  simp only [ht1]
  exact if_pos (Or.inl (fun h => hal (slice_six_eq_zero.mp h)))

end

/-- Settles O37: the form reads its descriptor, takes the next number and enters the send order (`issuedSend_spec`). -/
theorem sendsIssue : Obligations.SendsIssue := by
  unfold Obligations.SendsIssue
  intro s s1 a b g p w r va u sends tile
  have issues : ∀ (i : Instr) (reg : Option (BitVec 5)), exec i s = sendForm i a reg g p w s → DescriptorForm s.me va p w →
      RecordAt s va acceptsFar r s1 → mboxOpen s1 (sdSrcMb r).toNat s.me.part = true →
      peerFault s1 s.me.part (slice (sdDst r) 12 10) = none → sends i (reg.map (fun f => (u.mreg f, bindForSend u (u.mreg f)))) := by
    intro i reg hexec ⟨htok, hal, hnear⟩ hrec hopen hpeer hok
    obtain ⟨t1, ht1⟩ := Option.isSome_iff_exists.mp htok
    rw [Option.isSome_map] at hok
    obtain ⟨hsendq, hent, hwent⟩ := issuedSend_spec i reg g p r (s1.seq + 1) t1 u
    refine ⟨_, hexec.trans (sendForm_go ht1 hal hnear hrec hopen hpeer hok), ?_, fun k hk => ?_, ?_⟩
    · rfl
    · rw [strand_upd]
      exact if_neg hk
    · rw [me_upd]
      exact ⟨hsendq, hent, hwent⟩
  refine ⟨fun hform hrec hopen hpeer => ⟨issues _ none rfl hform hrec hopen hpeer, issues _ (some b) rfl hform hrec hopen hpeer,
    issues _ (some b) rfl hform hrec hopen hpeer⟩, fun htok hal hrun => ⟨?_, ?_, ?_⟩⟩
  · exact traps_of_raise ((show exec (.msend a g p w) s = _ from rfl).trans (sendForm_misaligned (reg := none) htok hal)) hrun
  · exact traps_of_raise ((show exec (.tsend a b g p w) s = _ from rfl).trans (sendForm_misaligned (reg := some b) htok hal)) hrun
  · exact traps_of_raise ((show exec (.tsendAdd a b g p w) s = _ from rfl).trans (sendForm_misaligned (reg := some b) htok hal)) hrun

/-! ### The fields of a header (spec/08_receive_engine.md R134) -/

theorem slice_append_low {n m lo w : Nat} (x : BitVec n) (y : BitVec m) (h : lo + w ≤ m) : slice (x ++ y) lo w = slice y lo w := by
  unfold slice
  apply BitVec.eq_of_getLsbD_eq
  intro i hi
  rw [BitVec.getLsbD_extractLsb', BitVec.getLsbD_extractLsb', BitVec.getLsbD_append, if_pos (by omega)]

theorem slice_append_high {n m lo w : Nat} (x : BitVec n) (y : BitVec m) (h : m ≤ lo) : slice (x ++ y) lo w = slice x (lo - m) w := by
  unfold slice
  apply BitVec.eq_of_getLsbD_eq
  intro i hi
  rw [BitVec.getLsbD_extractLsb', BitVec.getLsbD_extractLsb', BitVec.getLsbD_append, if_neg (by omega), Nat.sub_add_comm h]

theorem slice_all {n : Nat} (x : BitVec n) : slice x 0 n = x := by
  unfold slice
  apply BitVec.eq_of_getLsbD_eq
  intro i hi
  rw [BitVec.getLsbD_extractLsb', Nat.zero_add, decide_eq_true hi, Bool.true_and]

section

variable (ty : BitVec 8) (seq : BitVec 16) (src dst : BitVec 22) (ctx : BitVec 12) (hnd : BitVec 13) (tag : BitVec 32)
    (len : Nat) (code : BitVec 16) (rlen : BitVec 32) (sgen : BitVec 16)

theorem hdType_mkHeader : hdType (mkHeader ty seq src dst ctx hnd tag len code rlen sgen) = ty := by
  unfold hdType mkHeader
  simp (disch := decide) only [slice_append_low]
  exact slice_all ty

theorem hdVer_mkHeader : hdVer (mkHeader ty seq src dst ctx hnd tag len code rlen sgen) = 1#8 := by
  unfold hdVer mkHeader
  simp (disch := decide) only [slice_append_low, slice_append_high]
  exact slice_all 1#8

theorem hdSeq_mkHeader : hdSeq (mkHeader ty seq src dst ctx hnd tag len code rlen sgen) = seq := by
  unfold hdSeq mkHeader
  simp (disch := decide) only [slice_append_low, slice_append_high]
  exact slice_all seq

theorem hdSrcMa_mkHeader : hdSrcMa (mkHeader ty seq src dst ctx hnd tag len code rlen sgen) = src := by
  unfold hdSrcMa mkHeader
  simp (disch := decide) only [slice_append_low, slice_append_high]
  exact slice_all src

theorem hdDstMa_mkHeader : hdDstMa (mkHeader ty seq src dst ctx hnd tag len code rlen sgen) = dst := by
  unfold hdDstMa mkHeader
  simp (disch := decide) only [slice_append_low, slice_append_high]
  exact slice_all dst

theorem hdCtx_mkHeader : hdCtx (mkHeader ty seq src dst ctx hnd tag len code rlen sgen) = ctx := by
  unfold hdCtx mkHeader
  simp (disch := decide) only [slice_append_low, slice_append_high]
  exact slice_all ctx

theorem hdHnd_mkHeader : hdHnd (mkHeader ty seq src dst ctx hnd tag len code rlen sgen) = hnd := by
  unfold hdHnd mkHeader
  simp (disch := decide) only [slice_append_low, slice_append_high]
  exact slice_all hnd

theorem hdTag_mkHeader : hdTag (mkHeader ty seq src dst ctx hnd tag len code rlen sgen) = tag := by
  unfold hdTag mkHeader
  simp (disch := decide) only [slice_append_low, slice_append_high]
  exact slice_all tag

theorem hdLen_mkHeader (h : len < 2 ^ 32) : hdLen (mkHeader ty seq src dst ctx hnd tag len code rlen sgen) = len := by
  unfold hdLen mkHeader
  simp (disch := decide) only [slice_append_low, slice_append_high]
  exact (congrArg BitVec.toNat (slice_all (BitVec.ofNat 32 len))).trans (Nat.mod_eq_of_lt h)

theorem hdSgen_mkHeader : hdSgen (mkHeader ty seq src dst ctx hnd tag len code rlen sgen) = sgen := by
  unfold hdSgen mkHeader
  simp (disch := decide) only [slice_append_low, slice_append_high]
  exact slice_all sgen

end

/-! ### The send engine (spec/08_receive_engine.md R134, R137) -/

/-- A send of memory longer than an eager message is a rendezvous. -/
theorem sendType_rendezvous {c : SendCommand} {a : BitVec 5} {g : BitVec 4} {p w : BitVec 2} (hins : c.ins = .msend a g p w)
    (hlen : 4096 < sdLen c.desc) : sendType c = 2#8 := by
  unfold sendType
  rw [hins]
  dsimp only
  rw [if_neg (by omega)]

theorem sdLen_lt (r : Rec64) : sdLen r < 2 ^ 32 := (slice r 96 32).isLt

/-- A rendezvous header leaves as one write. -/
theorem packetWrites_header (self : BitVec 10) {p : Packet} (hty : hdType p.hdr = 2#8) (hpay : p.payload = []) :
    packetWrites self p = [(apHeader self.toNat (hdHnd p.hdr).toNat, bvBytes p.hdr)] := by
  have hreply : isReply p.hdr = false := by rw [isReply, hty]; rfl
  unfold packetWrites
  rw [hreply, hpay]
  rfl

/-- The state once a strand's send order lost its head. -/
theorem sendLeaves_spec (s : State) (k : Nat) (c : SendCommand) :
    (sendLeaves s k c).sends = s.sends ∧ (sendLeaves s k c).mailboxes = s.mailboxes ∧ (sendLeaves s k c).outbox = s.outbox ∧
    (sendLeaves s k c).mem = s.mem ∧ ((sendLeaves s k c).strand k).sendq = (s.strand k).sendq.drop 1 := by
  obtain ⟨l, hl⟩ := giveTag_eq s c.tag
  have hq : (((giveTag s c.tag).updSlot k (fun v => (pushToken { v with sendq := v.sendq.drop 1 } .s c.push).flush)).strand k).sendq =
      (s.strand k).sendq.drop 1 := by
    obtain ⟨tok, tokRes, tokNew, ev, htok⟩ := pushToken_frame { s.strand k with sendq := (s.strand k).sendq.drop 1 } .s c.push
    obtain ⟨tok', tokRes', tokNew', ev', tokps, hflush⟩ := flush_frame
      (pushToken { s.strand k with sendq := (s.strand k).sendq.drop 1 } .s c.push)
    rw [strand_updSlot_self, hl]
    change ((pushToken { s.strand k with sendq := (s.strand k).sendq.drop 1 } .s c.push).flush).sendq = _
    rw [hflush, htok]
  rw [hl] at hq
  unfold sendLeaves sweepFrames
  rw [hl]
  exact ⟨rfl, rfl, rfl, rfl, hq⟩

theorem rendezvous_starts {s : State} {k : Nat} {c : SendCommand} {rest : List SendCommand} {a : BitVec 5} {g : BitVec 4} {p w : BitVec 2}
    (hslot : s.arg.slot = k) (hq : (s.strand k).sendq = c :: rest) (hins : c.ins = .msend a g p w) (hreg : c.reg = none)
    (hguard : c.guard = none) (hlen : 4096 < sdLen c.desc) (hphase : (s.strand k).phase ≠ .free) (hnum : s.arg.num < 1024)
    (htaken : sendSlotTaken s k s.arg.num = false) (hasked : c.asked = none) (hout : ∀ x ∈ (s.strand k).out, c.seq ≤ x.seq) :
    exec .sendStart s = .next (sendLeaves (emitSend s k s.arg.num c []) k c) := by
  have hready : sendReady s k s.arg.num c = true := by
    simp only [sendReady, hguard, hasked, htaken, Option.all_none, Bool.true_and, Bool.not_false, Bool.and_true, Bool.and_eq_true, bne_iff_ne,
      decide_eq_true_eq, List.all_eq_true]
    exact ⟨⟨hnum, hphase⟩, hout⟩
  have hread : startRead s k c (feedOf s.arg) (replyClass s.arg.rep) = .got [] s := by
    unfold startRead
    rw [hreg, sendType_rendezvous hins hlen]
    rfl
  change execSendStart s = _
  unfold execSendStart
  rw [hslot]
  dsimp only
  rw [hq]
  dsimp only
  rw [hready, if_pos rfl, startSend, hread]

theorem mbox_updMbox (s : State) (m : Nat) (f : Mailbox → Mailbox) : (s.updMbox m f).mbox m = f (s.mbox m) := by
  unfold State.mbox State.updMbox
  rw [tabGet_tabSet, if_pos rfl]
  rfl

section

variable (s : State) (k num : Nat) (c : SendCommand)

/-- The header that a send starts with. -/
def sentHeader : Rec64 :=
  mkHeader (sendType c) (tabGet 0#16 (s.mbox (sdSrcMb c.desc).toNat).nextSeq (sdDst c.desc).toNat) (s.self ++ sdSrcMb c.desc) (sdDst c.desc)
    (sdCtx c.desc) (sendHandle k num) (sdTag c.desc) (sendLen c) 0#16 0#32 (s.mbox (sdSrcMb c.desc).toNat).sgen

/-- What a rendezvous send leaves in flight. -/
def sentEntry : Send :=
  ⟨sendHandle k num, (s.strand k).owner k, c.desc, sendType c, [], tabGet 0#16 (s.mbox (sdSrcMb c.desc).toNat).nextSeq (sdDst c.desc).toNat,
    (s.mbox (sdSrcMb c.desc).toNat).sgen, false, none, none, s.cycle⟩

/-- The source mailbox with its next number raised. -/
def sentNumbered : State :=
  let seq := tabGet 0#16 (s.mbox (sdSrcMb c.desc).toNat).nextSeq (sdDst c.desc).toNat
  s.updMbox (sdSrcMb c.desc).toNat (fun b => { b with nextSeq := tabPut 0#16 b.nextSeq (sdDst c.desc).toNat (seq + 1#16) })

/-- A rendezvous send to another package puts its entry in flight, raises its number and emits its header. -/
theorem emitSend_rendezvous (hty : sendType c = 2#8) (hfar : slice (sdDst c.desc) 12 10 ≠ s.self) :
    ∃ l, emitSend s k num c [] = { sentNumbered s c with
      sends := s.sends ++ [sentEntry s k num c]
      pulled := l
      outbox := s.outbox ++ [.write (slice (sdDst c.desc) 12 10) (apHeader s.self.toNat (sendHandle k num).toNat) (bvBytes (sentHeader s k num c))] } := by
  have hpackets : packetWrites s.self ⟨slice (sdDst c.desc) 12 10, sentHeader s k num c, []⟩ =
      [(apHeader s.self.toNat (sendHandle k num).toNat, bvBytes (sentHeader s k num c))] := by
    rw [packetWrites_header s.self (by rw [sentHeader, hdType_mkHeader, hty]) rfl, sentHeader, hdHnd_mkHeader]
  let sent : State := { sentNumbered s c with
    sends := s.sends ++ [sentEntry s k num c]
    pulled := s.pulled.filter (fun y => y.1 != sendHandle k num) }
  have hemit : emitSend s k num c [] = sendPacket sent ⟨slice (sdDst c.desc) 12 10, sentHeader s k num c, []⟩ := by
    unfold emitSend
    dsimp only
    rw [ite_self]
    rfl
  have hsent : sendPacket sent ⟨slice (sdDst c.desc) 12 10, sentHeader s k num c, []⟩ = { sent with
      outbox := s.outbox ++ (packetWrites s.self ⟨slice (sdDst c.desc) 12 10, sentHeader s k num c, []⟩).map
        (fun x => .write (slice (sdDst c.desc) 12 10) x.1 x.2) } := if_neg hfar
  rw [hemit, hsent, hpackets]
  exact ⟨_, rfl⟩

theorem emitSend_counts (hty : sendType c = 2#8) (hfar : slice (sdDst c.desc) 12 10 ≠ s.self) :
    (emitSend s k num c []).sends = s.sends ++ [sentEntry s k num c] ∧ (emitSend s k num c []).mem = s.mem ∧
    (emitSend s k num c []).outbox = s.outbox ++
      [.write (slice (sdDst c.desc) 12 10) (apHeader s.self.toNat (sendHandle k num).toNat) (bvBytes (sentHeader s k num c))] ∧
    (emitSend s k num c []).strand k = s.strand k ∧
    (emitSend s k num c []).mbox (sdSrcMb c.desc).toNat = (sentNumbered s c).mbox (sdSrcMb c.desc).toNat := by
  obtain ⟨l, hl⟩ := emitSend_rendezvous s k num c hty hfar
  rw [hl]
  exact ⟨rfl, rfl, rfl, rfl, rfl⟩

theorem sentNumbered_next : tabGet 0#16 ((sentNumbered s c).mbox (sdSrcMb c.desc).toNat).nextSeq (sdDst c.desc).toNat =
    tabGet 0#16 (s.mbox (sdSrcMb c.desc).toNat).nextSeq (sdDst c.desc).toNat + 1#16 := by
  rw [sentNumbered, mbox_updMbox]
  exact (tabGet_tabPut _ _ _ _ _).trans (if_pos rfl)

end

/-! ### Pulls (R140) -/

section

variable {s : State} {x : Send}

theorem exec_pullRequest (hfind : s.sends.find? (fun x => x.hnd.toNat == s.arg.num) = some x) (hasked : x.asked = none) :
    exec .pullRequest s = .next (if pullAllowed s x s.arg.idx s.arg.area then
      pullStep s x s.arg.idx s.arg.area (feedOf s.arg) (replyClass s.arg.rep) else s) := by
  change execPullRequest s = _
  unfold execPullRequest
  rw [hfind]
  dsimp only
  rw [hasked]
  cases s.arg.flag <;> cases pullAllowed s x s.arg.idx s.arg.area <;> rfl

theorem pullStep_staged {off n : Nat} (f : Feed) (stop : Option FaultClass) (h1 : x.kind ≠ 1#8) (h2 : x.kind ≠ 2#8) (hasked : x.asked = none) :
    pullStep s x off n f stop =
      answerPull (updSend (giveTag s x.tag) x.hnd (fun y => { y with asked := none, tag := none })) x off ((x.data.drop off).take n) true := by
  unfold pullStep
  rw [hasked]
  dsimp only
  rw [if_neg (by simp [h1]), if_neg h2]

/-- A pull that its mailboxes do not allow changes nothing. -/
theorem pullAllowed_eq_false (hself : slice (sdDst x.desc) 12 10 = s.self) {off n : Nat}
    (h : ∀ kb ∈ s.mailboxes, ∀ c ∈ kb.2.claims, c.st = .pulling → c.msg.peer = s.self → hdHnd c.msg.hdr = x.hnd →
      recvLen c.hole.rcd c.msg.hdr < off + n) : pullAllowed s x off n = false := by
  unfold pullAllowed
  rw [hself, bne_self_eq_false, Bool.false_or, List.any_eq_false]
  intro kb hkb hany
  obtain ⟨c, hc, hclaim⟩ := List.any_eq_true.1 hany
  simp only [Bool.and_eq_true, beq_iff_eq, decide_eq_true_eq] at hclaim
  obtain ⟨⟨⟨hst, hpeer⟩, hhnd⟩, hlen⟩ := hclaim
  exact absurd (h kb hkb c hc hst hpeer hhnd) (by omega)

theorem mem_of_tabGet_ne {α : Type} {d : α} {t : Tab α} {k : Nat} (h : tabGet d t k ≠ d) : ∃ p ∈ t, p.1 = k ∧ p.2 = tabGet d t k := by
  induction t with
  | nil => exact absurd rfl h
  | cons q t ih =>
    obtain ⟨j, v⟩ := q
    by_cases hj : j = k
    · exact ⟨(j, v), by simp, hj, (if_pos hj).symm⟩
    · have hskip : tabGet d ((j, v) :: t) k = tabGet d t k := if_neg hj
      rw [hskip] at h ⊢
      obtain ⟨p, hp, hpk⟩ := ih h
      exact ⟨p, List.mem_cons_of_mem _ hp, hpk⟩

theorem pullAllowed_of_claim {m : Nat} {c : Claim} (hc : c ∈ (s.mbox m).claims) (hst : c.st = .pulling) (hpeer : c.msg.peer = s.self)
    (hhnd : hdHnd c.msg.hdr = x.hnd) {off n : Nat} (hlen : off + n ≤ recvLen c.hole.rcd c.msg.hdr) : pullAllowed s x off n = true := by
  have hne : s.mbox m ≠ Mailbox.start := fun h => by rw [h] at hc; cases hc
  obtain ⟨kb, hkb, -, hbox⟩ := mem_of_tabGet_ne hne
  unfold pullAllowed
  rw [Bool.or_eq_true, List.any_eq_true]
  refine .inr ⟨kb, hkb, List.any_eq_true.2 ⟨c, by rw [hbox]; exact hc, ?_⟩⟩
  simp only [Bool.and_eq_true, beq_iff_eq, decide_eq_true_eq]
  exact ⟨⟨⟨hst, hpeer⟩, hhnd⟩, hlen⟩

theorem pullAllowed_far (hfar : slice (sdDst x.desc) 12 10 ≠ s.self) (off n : Nat) : pullAllowed s x off n = true := by
  unfold pullAllowed
  rw [bne_iff_ne.2 hfar, Bool.true_or]

/-- The state with a pull answered: within this package at the mailbox, to another package as an answer. -/
theorem answerPull_kept (off : Nat) (bs : List Byte) (f : Send → Send) :
    let t := answerPull (updSend (giveTag s x.tag) x.hnd f) x off bs true
    t.mem = s.mem ∧ t.strands = s.strands ∧
    (slice (sdDst x.desc) 12 10 = s.self → t.pulled = s.pulled ++ [(x.hnd, off, bs, true)] ∧ t.outbox = s.outbox) ∧
    (slice (sdDst x.desc) 12 10 ≠ s.self → t.outbox = s.outbox ++ [.answer (slice (sdDst x.desc) 12 10) bs true] ∧ t.pulled = s.pulled) := by
  obtain ⟨l, hl⟩ := giveTag_eq s x.tag
  rw [hl]
  by_cases hself : slice (sdDst x.desc) 12 10 = s.self
  · intro t
    have ht : t = { updSend { s with tags := l } x.hnd f with pulled := s.pulled ++ [(x.hnd, off, bs, true)] } := if_pos hself
    rw [ht]
    exact ⟨rfl, rfl, fun _ => ⟨rfl, rfl⟩, fun h => absurd hself h⟩
  · intro t
    have ht : t = { updSend { s with tags := l } x.hnd f with outbox := s.outbox ++ [.answer (slice (sdDst x.desc) 12 10) bs true] } :=
      if_neg hself
    rw [ht]
    exact ⟨rfl, rfl, fun h => absurd h hself, fun _ => ⟨rfl, rfl⟩⟩

end

/-! ### Completion (R135, R147) -/

theorem OnlyHomes.tests {s t : State} (h : OnlyHomes s t) : t.tests = s.tests := (congrArg State.tests h.1 :)

theorem OnlyHomes.sends {s t : State} (h : OnlyHomes s t) : t.sends = s.sends := (congrArg State.sends h.1 :)

theorem underTest_nil {s : State} (h : s.tests = []) (k pa n : Nat) (comp : Bool) : underTest s k (.mem pa comp) n = false := by
  unfold underTest lineTested
  rw [h]
  rfl

/-- An engine's write of bytes to HBM here. -/
theorem runItems_status {e : Ending} {va : Word} {bs : List Byte} {s s1 : State} {pa : Nat} {comp : Bool} (htests : s.tests = [])
    (hlocate : locate s (engineCtx e.owner.part) va 16 1 .write acceptsFar = .ok (.mem pa comp, s1))
    (hfault : accessFault s1 0 (.mem pa comp) 16 true = none) : runItems e [.status va bs] s = homeWrite s1 none pa bs comp := by
  have hmade : makeItem e (.status va bs) s = .done (homeWrite s1 none pa bs comp) := by
    change madeAt e (.status va bs) va 16 .write (fun pl u => enginePut u 0 pl bs) s = _
    unfold madeAt
    dsimp only
    rw [if_pos rfl, hlocate]
    dsimp only
    rw [underTest_nil ((onlyHomes_locate hlocate).tests.trans htests)]
    simp only [Bool.false_eq_true, if_false, isLocal, if_true, hfault]
    rfl
  rw [runItems, hmade]
  rfl

theorem bvBytes_eq_natBytes {n k x : Nat} (y : BitVec n) (hn : n / 8 = k) (hy : y.toNat = x) : bvBytes y = natBytes k x := by
  rw [bvBytes, hn, hy]

/-- The status record as a number (R135). -/
theorem statusBytes_eq (ma : BitVec 22) (tag rlen : BitVec 32) (code : BitVec 16) :
    statusBytes ma tag rlen code = natBytes 16 (ma.toNat + 2 ^ 32 * tag.toNat + 2 ^ 64 * rlen.toNat + 2 ^ 96 * code.toNat) := by
  refine bvBytes_eq_natBytes _ (by decide) ?_
  simp only [Laws.toNat_append_eq_add, BitVec.toNat_ofNat, Nat.zero_mod, Nat.zero_mul, Nat.zero_add]
  omega

section

variable {s s1 : State} {x : Send} {pa : Nat} {comp : Bool} {code : BitVec 16} {len : BitVec 32}

theorem endSend_untagged (htag : x.tag = none) (hsrc : x.srcFault = false) : endSend s x code len =
    completeSend { s with sends := s.sends.filter (fun y => y.hnd != x.hnd) } x.owner x.hnd x.desc code len := by
  unfold endSend dropTag dropTags
  rw [htag]
  dsimp only
  rw [hsrc]
  rfl

/-- A send with a status record and no barrier completes with that record alone. -/
theorem completeSend_status {o : Owner} {hnd : BitVec 13} {desc : Rec64} (htests : s.tests = []) (hbar : sdBar desc = 0#64)
    (hstat : sdStat desc ≠ 0#64) (hlocate : locate s (engineCtx o.part) (sdStat desc) 16 1 .write acceptsFar = .ok (.mem pa comp, s1))
    (hfault : accessFault s1 0 (.mem pa comp) 16 true = none) :
    completeSend s o hnd desc code len = homeWrite s1 none pa (statusBytes (sdDst desc) (sdTag desc) len code) comp := by
  unfold completeSend complete
  dsimp only
  rw [hbar, if_pos rfl, if_neg hstat, List.append_nil]
  exact runItems_status htests hlocate hfault

/-- The status record stands in memory, and nothing else of memory differs. -/
theorem status_written {t : State} {ma : BitVec 22} {tag : BitVec 32}
    (ht : t = homeWrite s1 none pa (statusBytes ma tag len code) comp) : t.sends = s1.sends ∧ MemoryKept s1 t (within pa 16) ∧
    Holds t pa 16 (ma.toNat + 2 ^ 32 * tag.toNat + 2 ^ 64 * len.toNat + 2 ^ 96 * code.toNat) := by
  rw [statusBytes_eq] at ht
  subst ht
  refine ⟨(onlyHomes_homeWrite ..).sends, memoryKept_of_memPut (mem_homeWrite ..) (natBytes_length ..), holds_of_memPut (mem_homeWrite ..)⟩

theorem exec_sendComplete_giveUp (harg : s.arg.sendEnd = .giveUp) (hfind : s.sends.find? (fun x => x.hnd.toNat == s.arg.num) = some x)
    (hlate : x.since + s.remto ≤ s.cycle) : exec .sendComplete s = .next (endSend s x 5#16 0#32) := by
  change execSendComplete s = _
  unfold execSendComplete
  rw [harg]
  dsimp only
  rw [hfind]
  dsimp only
  rw [overdue, decide_eq_true hlate, Bool.or_true, Bool.true_or, if_pos rfl]

theorem exec_sendComplete_reply {h : Rec64} (harg : s.arg.sendEnd = .reply h) (hnum : (hdHnd h).toNat = s.arg.num)
    (hfind : s.sends.find? (fun x => replyFits x h) = some x) (hcode : replyCode x h = some (code, len)) :
    exec .sendComplete s = .next (endSend s x code len) := by
  change execSendComplete s = _
  unfold execSendComplete
  rw [harg]
  dsimp only
  rw [if_pos hnum, takeReply, hfind]
  dsimp only
  rw [hcode]

end

/-- Settles O38: a start emits the header whose fields `mkHeader` places, a pull is answered as its mailboxes allow, and a completion writes
the status record alone. -/
theorem sendEngine : Obligations.SendEngine := by
  unfold Obligations.SendEngine
  intro s s1 k pa comp u hnd
  refine ⟨?start, ?pull, ?reply, ?silent, ?giveUp⟩
  case start =>
    intro c rest a g p w hslot hq hins hreg hguard hlen hphase hnum htaken hasked hout hfar box n
    have hty := sendType_rendezvous hins hlen
    obtain ⟨hsends, hmem, houtbox, hstrand, hbox⟩ := emitSend_counts s k s.arg.num c hty hfar
    obtain ⟨hsends', hmboxes', houtbox', hmem', hq'⟩ := sendLeaves_spec (emitSend s k s.arg.num c []) k c
    have hbox' : (sendLeaves (emitSend s k s.arg.num c []) k c).mbox (sdSrcMb c.desc).toNat =
        (sentNumbered s c).mbox (sdSrcMb c.desc).toNat := by rw [← hbox, State.mbox, hmboxes', State.mbox]
    have hheader : sentHeader s k s.arg.num c = mkHeader (sendType c) n (s.self ++ sdSrcMb c.desc) (sdDst c.desc) (sdCtx c.desc)
        (sendHandle k s.arg.num) (sdTag c.desc) (sdLen c.desc) 0#16 0#32 box.sgen := by rw [sentHeader, sendLen, hreg]; rfl
    refine ⟨_, sentEntry s k s.arg.num c, sentHeader s k s.arg.num c,
      rendezvous_starts hslot hq hins hreg hguard hlen hphase hnum htaken hasked hout,
      hsends'.trans hsends, rfl, rfl, rfl, rfl, rfl, ?_, houtbox'.trans houtbox, ?_⟩
    · rw [hbox']
      exact sentNumbered_next s c
    · rw [hheader]
      exact ⟨(hdType_mkHeader ..).trans hty, hdVer_mkHeader .., hdSeq_mkHeader .., hdSrcMa_mkHeader .., hdDstMa_mkHeader .., hdCtx_mkHeader ..,
        hdHnd_mkHeader .., hdTag_mkHeader .., hdLen_mkHeader _ _ _ _ _ _ _ _ _ _ _ (sdLen_lt c.desc), hdSgen_mkHeader ..,
        by rw [hq', hstrand, hq]; rfl, hmem'.trans hmem⟩
  case pull =>
    intro x hfind h1 h2 hasked bs
    have hrun := exec_pullRequest hfind hasked
    have hanswered := pullStep_staged (s := s) (x := x) (off := s.arg.idx) (n := s.arg.area) (feedOf s.arg) (replyClass s.arg.rep) h1 h2 hasked
    obtain ⟨hmem, hstrands, hown, hother⟩ := answerPull_kept (s := s) (x := x) s.arg.idx bs (fun y => { y with asked := none, tag := none })
    refine ⟨fun hself hno => ?_, fun m c hself hc hst hpeer hhnd hlen => ?_, fun hfar => ?_⟩
    · rw [hrun, pullAllowed_eq_false hself hno]
      rfl
    · rw [hrun, pullAllowed_of_claim hc hst hpeer hhnd hlen, if_pos rfl, hanswered]
      obtain ⟨hpulled, houtbox⟩ := hown hself
      exact ⟨_, rfl, hpulled, houtbox, hmem, hstrands⟩
    · rw [hrun, pullAllowed_far hfar, if_pos rfl, hanswered]
      obtain ⟨houtbox, hpulled⟩ := hother hfar
      exact ⟨_, rfl, houtbox, hpulled, hmem, hstrands⟩
  case reply =>
    intro x h code len harg hnum hfind hcode hsrc htag htests hbar hstat s0 hlocate hfault
    refine ⟨_, exec_sendComplete_reply harg hnum hfind hcode, status_written (s1 := s1) (comp := comp) ?_⟩
    rw [endSend_untagged htag hsrc]
    exact completeSend_status (s := s0) htests hbar hstat hlocate hfault
  case silent =>
    intro x harg hfind hlate htag hbar hstat
    rw [exec_sendComplete_giveUp harg hfind hlate]
    unfold endSend dropTag dropTags completeSend
    rw [htag]
    dsimp only
    rw [hbar, hstat]
    cases x.srcFault <;> rfl
  case giveUp =>
    intro x harg hfind hlate htag hsrc htests hbar hstat s0 hlocate hfault
    refine ⟨_, exec_sendComplete_giveUp harg hfind hlate, ?_⟩
    obtain ⟨hsends, hkept, hholds⟩ := status_written (s1 := s1) (pa := pa) (comp := comp) (ma := sdDst x.desc) (tag := sdTag x.desc)
      (len := 0#32) (code := 5#16) ((endSend_untagged htag hsrc).trans (completeSend_status (s := s0) htests hbar hstat hlocate hfault))
    exact ⟨hsends, hkept, hholds⟩

end Sys2Proof.Machine
end

section
/-! PROOFS. The registers of a virtual function (O52, refuted). -/

set_option Elab.async false

namespace Sys2Proof.Machine

open Sys2Proof

/-- A virtual function of partition 0 that Yalush does not serve, whose last ring could not be read. -/
def failedFunction : State := { State.reset with vfs := [(0, ⟨some 0#6, 0#64, 0#64, false, true⟩)] }

/-- Refutes O52: a write of DOORBELL clears ERR also where the function is not READY (`execDoorbell`), and the statement leaves all of the
function but DOORBELL as it was. -/
theorem not_hostAndPartitions : ¬ Obligations.HostAndPartitions := by
  unfold Obligations.HostAndPartitions
  rintro ⟨-, h⟩
  obtain ⟨-, -, hring, -⟩ := h failedFunction
  obtain ⟨t, hexec, -, hvf⟩ := (hring 0#6 rfl rfl rfl (by decide)).2 rfl
  have hrun : exec .doorbell failedFunction = .next (failedFunction.updVf 0 (fun f => { f with doorbell := 0#64, err := false })) := rfl
  rw [hrun] at hexec
  cases hexec
  exact absurd (congrArg VirtualFunction.err hvf) (by decide)

end Sys2Proof.Machine
end

section
/-! PROOFS. Power and bring-up (O48), and the calls of the control program that map no memory (O50). -/

set_option Elab.async false

namespace Sys2Proof.Machine

open Sys2Proof

/-! ### Throttling (spec/20_host_links_and_bringup.md R378) -/

/-- The measurements of the six dies as the controller gave them. -/
theorem tabGet_zipIdx_fold (l : List Nat) (n k : Nat) (m : Tab Nat) :
    tabGet 0 ((l.zipIdx n).foldl (fun m x => tabPut 0 m x.2 x.1) m) k = if n ≤ k ∧ k < n + l.length then l.getD (k - n) 0 else tabGet 0 m k := by
  induction l generalizing n m with
  | nil => simp only [List.zipIdx_nil, List.foldl_nil, List.length_nil]; rw [if_neg (by omega)]
  | cons x l ih =>
    simp only [List.zipIdx_cons, List.foldl_cons, List.length_cons]
    rw [ih, tabGet_tabPut]
    by_cases hk : n = k
    · subst hk
      rw [if_neg (by omega), if_pos rfl, if_pos (by omega), Nat.sub_self]
      rfl
    · rw [if_neg (Ne.symm hk)]
      by_cases hin : n + 1 ≤ k ∧ k < n + 1 + l.length
      · rw [if_pos hin, if_pos (by omega), show k - n = (k - (n + 1)) + 1 by omega]
        rfl
      · rw [if_neg hin, if_neg (by omega)]

theorem dieTemps_eq (l : List Nat) : (List.range 6).map (tabGet 0 ((l.take 6).zipIdx.foldl (fun m x => tabPut 0 m x.2 x.1) [])) =
    (List.range 6).map (fun d => l.getD d 0) := by
  refine List.map_congr_left fun d hd => ?_
  have hd := List.mem_range.1 hd
  rw [tabGet_zipIdx_fold]
  by_cases hin : 0 ≤ d ∧ d < 0 + (l.take 6).length
  · rw [if_pos hin, Nat.sub_zero, List.getD_eq_getElem?_getD, List.getElem?_take_of_lt hd, ← List.getD_eq_getElem?_getD]
  · rw [if_neg hin, List.getD_eq_default _ _ (by rw [List.length_take] at hin; omega)]
    rfl

section

variable {s : State} {g : Gang}

theorem runningGangs_one (hg : s.gangs = [g]) (hbound : g.bound ≠ []) (hsaving : g.saving = false) : runningGangs s = [g] := by
  unfold runningGangs
  rw [hg, List.filter_cons, hsaving, List.isEmpty_eq_false_iff.2 hbound]
  rfl

theorem pickGang_filter_one (f : Gang → Gang → Gang) {p : Gang → Bool} (hp : p g = true) : pickGang f ([g].filter p) = some g := by
  rw [List.filter_cons, hp, if_pos rfl]
  rfl

theorem updGang_one (hg : s.gangs = [g]) (f : Gang → Gang) : s.updGang g.part g.area f = { s with gangs := [f g] } := by
  unfold State.updGang Gang.isAt
  rw [hg, List.map_cons, List.map_nil, beq_self_eq_true, beq_self_eq_true]
  rfl

theorem throttleRaise_over (hg : s.gangs = [g]) (hbound : g.bound ≠ []) (hsaving : g.saving = false) (hover : s.capWatts < s.arg.mb ∨ 100 < s.arg.num)
    (htick : s.throttleTick + 1500 ≤ s.cycle) (hlevel : g.throttle < 3) : exec .throttleRaise s =
      .next { notePower s s.arg.mb s.arg.num with gangs := [{ g with throttle := g.throttle + 1 }], throttleTick := s.cycle } := by
  change execThrottleRaise s = _
  unfold execThrottleRaise
  dsimp only
  have htoo : (decide (s.capWatts < s.arg.mb) || decide (100 < s.arg.num)) = true := by simpa using hover
  rw [htoo, decide_eq_false (by omega : ¬ s.cycle < s.throttleTick + 1500), runningGangs_one hg hbound hsaving,
    pickGang_filter_one (throttleFirst s) (decide_eq_true hlevel)]
  simp only [Bool.not_true, Bool.or_false, Bool.false_eq_true, if_false]
  rw [updGang_one (s := notePower s s.arg.mb s.arg.num) hg]

theorem throttleLower_cool (hg : s.gangs = [g]) (hbound : g.bound ≠ []) (hsaving : g.saving = false) (hw : 100 * s.arg.mb < 95 * s.capWatts)
    (hc : s.arg.num < 95) (hlevel : 0 < g.throttle) : exec .throttleLower s =
      .next { notePower s s.arg.mb s.arg.num with powerHold := false, gangs := [{ g with throttle := g.throttle - 1 }] } := by
  change execThrottleLower s = _
  unfold execThrottleLower
  dsimp only
  have hcool : coolEnough s s.arg.mb s.arg.num = true := by
    rw [coolEnough, decide_eq_true hw, decide_eq_true hc]
    rfl
  rw [hcool, runningGangs_one hg hbound hsaving, pickGang_filter_one (throttleLast s) (decide_eq_true hlevel)]
  simp only [Bool.not_true, Bool.false_eq_true, if_false]
  rw [updGang_one (s := { notePower s s.arg.mb s.arg.num with powerHold := false }) hg]

theorem powerPreemption_due (hg : s.gangs = [g]) (hbound : g.bound ≠ []) (hsaving : g.saving = false)
    (hdue : 110 ≤ s.arg.num ∨ (∃ since, s.overSince = some since ∧ since + 15000000 ≤ s.cycle ∧ s.capWatts < s.arg.mb))
    (hlevel : g.throttle = 3) (hpreempt : g.preempt = none) : exec .powerPreemption s =
      .next { notePower s s.arg.mb s.arg.num with powerHold := true, gangs := [{ g with preempt := some s.cycle }] } := by
  have hpower : powerDue s s.arg.mb s.arg.num = true := by
    unfold powerDue
    dsimp only
    rw [runningGangs_one hg hbound hsaving, List.all_cons, hlevel]
    rcases hdue with hhot | ⟨since, hsince, hlong, hover⟩
    · rw [decide_eq_true hhot, Bool.or_true, Bool.true_or]
      rfl
    · rw [hsince]
      dsimp only
      rw [decide_eq_true hlong, decide_eq_true hover]
      rfl
  change execPowerPreemption s = _
  unfold execPowerPreemption
  dsimp only
  rw [hpower, runningGangs_one hg hbound hsaving, pickGang_filter_one (throttleFirst s) (by rw [hpreempt]; rfl)]
  simp only [Bool.not_true, Bool.false_eq_true, if_false]
  rw [updGang_one (s := { notePower s s.arg.mb s.arg.num with powerHold := true }) hg]

theorem powerDue_throttled (hg : s.gangs = [g]) (hbound : g.bound ≠ []) (hsaving : g.saving = false) (hlevel : g.throttle ≠ 3) (w c : Nat) :
    powerDue s w c = false := by
  unfold powerDue
  rw [runningGangs_one hg hbound hsaving, List.all_cons, beq_eq_false_iff_ne.2 hlevel]
  rfl

end

/-! ### Bring-up (R374 to R377) -/

theorem coldState_mem (s : State) (pa : Nat) : memByte (coldState s).mem pa = 0#8 := rfl

/-- What a boot of a firmware image leaves. -/
theorem bootWith_spec (s : State) (flash : List Byte) (b : BringUp) :
    (bootWith s flash b).firmware = flash ∧ (bootWith s flash b).eraseOnAlarm = b.erase ∧ (bootWith s flash b).ports = b.ports ∧
    (bootWith s flash b).peers = [] ∧
    (yalushOk b.yalush = true → (bootWith s flash b).bringUp = 5 ∧ (bootWith s flash b).yalush = b.yalush) ∧
    (yalushOk b.yalush = false → (bootWith s flash b).bringUp = 4) := by
  unfold bootWith bringUpFour
  cases h : yalushOk b.yalush
  · exact ⟨rfl, rfl, rfl, rfl, nofun, fun _ => rfl⟩
  · exact ⟨rfl, rfl, rfl, rfl, fun _ => ⟨rfl, rfl⟩, nofun⟩

/-- Settles O48: each event of power and bring-up, with the one gang that runs for the gangs that are throttled. -/
theorem powerAndBringUp : Obligations.PowerAndBringUp := by
  unfold Obligations.PowerAndBringUp
  refine ⟨fun s g => ?heat, fun s => ?boot⟩
  case heat =>
    intro w c
    refine ⟨fun hg hbound hsaving => ⟨?raise, ?tooSoon, ?lower, ?preempt, ?notYet⟩, ?cap, ?badCap, ?idle, ?awake⟩
    case raise => exact fun hover htick hlevel => ⟨_, throttleRaise_over hg hbound hsaving hover htick hlevel, rfl, rfl, rfl, rfl⟩
    case tooSoon =>
      intro htick
      refine ⟨notePower s w c, ?_, rfl, rfl, ?_⟩
      · change execThrottleRaise s = _
        unfold execThrottleRaise
        dsimp only
        rw [decide_eq_true htick, Bool.or_true, if_pos rfl]
      · exact congrArg (fun l => Telemetry.mk w l s.hbmth s.therm) (dieTemps_eq s.arg.peers)
    case lower => exact fun hw hc hlevel => ⟨_, throttleLower_cool hg hbound hsaving hw hc hlevel, rfl, rfl, rfl, rfl⟩
    case preempt => exact fun hdue hlevel hnone => ⟨_, powerPreemption_due hg hbound hsaving hdue hlevel hnone, rfl, rfl, rfl, rfl⟩
    case notYet =>
      intro hlevel
      refine ⟨notePower s w c, ?_, rfl, rfl⟩
      change execPowerPreemption s = _
      unfold execPowerPreemption
      dsimp only
      rw [powerDue_throttled hg hbound hsaving hlevel]
      rfl
    case cap =>
      intro hlow hhigh
      have hrun : exec .powerCapSet s = .next (if s.power = .p0 ∨ s.power = .p1 then { s with capWatts := w, power := if w < 4400 then .p1 else .p0 }
          else { s with capWatts := w }) := if_neg (by omega)
      rw [hrun]
      by_cases hp : s.power = .p0 ∨ s.power = .p1
      · rw [if_pos hp]
        refine ⟨_, rfl, rfl, rfl, fun _ => rfl, fun h => ?_⟩
        rcases hp with hp | hp <;> rw [hp] at h <;> simp at h
      · rw [if_neg hp]
        exact ⟨_, rfl, rfl, rfl, fun h => absurd h hp, fun _ => rfl⟩
    case badCap => exact fun h => if_pos h
    case idle =>
      intro since hsince hidle hlong hp
      change execIdleEntry s = _
      unfold execIdleEntry
      rw [hsince]
      exact if_pos ⟨hp, hidle, hlong⟩
    case awake =>
      intro hp hrecord
      have hwake : s.wakeUp = { s with power := if s.capWatts < 4400 then .p1 else .p0, idleSince := none } := if_pos hp
      rw [← hwake]
      change execIdleExit s = _
      unfold execIdleExit
      cases hi : s.arg.idle with
      | doorbell => rfl
      | fabricArrival => rfl
      | enqueuedRecord =>
        obtain ⟨q, hq, hactive, l, hl, hcount⟩ := hrecord hi
        refine if_pos (List.any_eq_true.2 ⟨q, hq, ?_⟩)
        rw [hactive, Bool.true_and]
        exact List.any_eq_true.2 ⟨l, List.mem_range.2 hl, bne_iff_ne.2 hcount⟩
  case boot =>
    intro b boots
    refine ⟨?loss, ?reset, ?good, ?recovery, ?alarm, ?erase⟩
    case loss => exact ⟨{ coldState s with power := .p3 }, rfl, rfl, coldState_mem s, rfl, rfl, rfl⟩
    case reset => exact fun hp => ⟨coldState s, if_neg hp, rfl, rfl, rfl, rfl, rfl, rfl, rfl, rfl, rfl, coldState_mem s⟩
    case good =>
      intro hready
      refine ⟨_, if_neg (fun h => hready.elim (fun hp => h.1 hp) (fun hb => h.2 hb)), fun hok => ?_, fun hbad => ?_⟩
      · rw [hok]
        exact bootWith_spec _ _ _
      · rw [hbad]
        rfl
    case recovery =>
      intro hp hb hlen
      cases hok : firmwareOk s.arg.data with
      | true =>
        refine ⟨bootWith s s.arg.data b, if_neg ?_, fun _ => bootWith_spec _ _ _, nofun⟩
        rintro (h | h | h | h)
        · exact hp h
        · exact h hb
        · omega
        · rw [hok] at h
          cases h
      | false => exact ⟨s, if_pos (.inr (.inr (.inr hok))), nofun, fun _ => rfl⟩
    case alarm =>
      intro herase
      change execSecurityAlarm s = _
      unfold execSecurityAlarm
      rw [herase]
      rfl
    case erase =>
      intro hp herase
      refine ⟨_, if_pos herase, rfl, rfl, rfl, rfl, rfl, rfl⟩

/-! ### Calls of the control program (spec/19_binary_interface.md R362) -/

theorem part_updPart_same (s : State) (p : BitVec 6) (f : Partition → Partition) : (s.updPart p f).part p = f (s.part p) := by
  rw [part_updPart, if_pos rfl]

theorem onlyPartition_updPart (s : State) (p : BitVec 6) (f : Partition → Partition) : OnlyPartition s (s.updPart p f) p :=
  ⟨rfl, fun q hq => by rw [part_updPart, if_neg (fun h => hq (BitVec.eq_of_toNat_eq h))]⟩

theorem OnlyPartition.trans {s t u : State} {p : BitVec 6} (h : OnlyPartition s t p) (g : OnlyPartition t u p) : OnlyPartition s u p :=
  ⟨(congrArg (fun x : State => { x with parts := s.parts }) g.1).trans h.1, fun q hq => (g.2 q hq).trans (h.2 q hq)⟩

theorem part_ylReturn (s : State) (p : BitVec 6) (x : Word) : (ylReturn s p x).part p = { s.part p with a0 := x } :=
  part_updPart_same s p _

theorem onlyPartition_ylReturn (s : State) (p : BitVec 6) (x : Word) : OnlyPartition s (ylReturn s p x) p := onlyPartition_updPart s p _

/-- A call that answers at once returns its value and does nothing else. -/
theorem returns_of_exec {i : Instr} {s : State} {x : Word} (h : exec i s = .next (ylReturn s s.arg.p x)) : Returns i s x :=
  ⟨_, h, onlyPartition_ylReturn s s.arg.p x, part_ylReturn s s.arg.p x⟩

theorem part_ylReturn_updPart (s : State) (p : BitVec 6) (f : Partition → Partition) (x : Word) :
    (ylReturn (s.updPart p f) p x).part p = { f (s.part p) with a0 := x } := by
  rw [part_ylReturn, part_updPart_same]

theorem onlyPartition_ylReturn_updPart (s : State) (p : BitVec 6) (f : Partition → Partition) (x : Word) :
    OnlyPartition s (ylReturn (s.updPart p f) p x) p := (onlyPartition_updPart s p f).trans (onlyPartition_ylReturn _ p x)

section

variable {s : State}

theorem not_idle (hactive : (s.part s.arg.p).active = true) : ¬ (!(s.part s.arg.p).active) = true := by
  rw [hactive]
  exact Bool.false_ne_true

theorem ylPlace_cycle {p : BitVec 6} {va : Word} {n pa : Nat} {need : Need} {comp : Bool} {u : State}
    (h : ylPlace s p va n need = .ok (pa, comp, u)) : u.cycle = s.cycle := by
  unfold ylPlace at h
  split at h
  next hlocate =>
    dsimp only at h
    split at h
    · cases h
    · cases h
      exact ((onlyHomes_locate hlocate).trans (onlyHomes_hold ..)).cycle
  next => cases h
  next => cases h

theorem waitCount_cycle {p : BitVec 6} {va : Word} {n : BitVec 32} {u : State} (h : waitCount s p va = (.ok n, u)) : u.cycle = s.cycle := by
  unfold waitCount at h
  split at h
  · cases h
  · split at h
    next => cases h
    next hplace =>
      obtain ⟨-, rfl⟩ := Prod.mk.inj h
      exact ylPlace_cycle hplace

theorem ylFaultPolicy_sets (hactive : (s.part s.arg.p).active = true) (hclass : isClassCode s.arg.a0.toNat = true) (hpolicy : s.arg.a1.toNat ≤ 2) :
    exec .ylFaultPolicy s = .next (ylReturn (s.updPart s.arg.p (fun p => { p with policy := tabPut 0 p.policy s.arg.a0.toNat s.arg.a1.toNat }))
      s.arg.p 0#64) := by
  change execYlFaultPolicy s = _
  unfold execYlFaultPolicy
  dsimp only
  rw [if_neg (not_idle hactive), hclass, decide_eq_false (by omega : ¬ 2 < s.arg.a1.toNat)]
  rfl

theorem ylQuota_reads_limit (hactive : (s.part s.arg.p).active = true) (h0 : s.arg.a0 = 0#64) (h1 : s.arg.a1 = errno 1) :
    exec .ylQuota s = .next (ylReturn s s.arg.p (zext64 (s.part s.arg.p).msmlim)) := by
  change execYlQuota s = _
  unfold execYlQuota
  dsimp only
  rw [if_neg (not_idle hactive), if_pos h0, if_pos h1]

theorem ylQuota_reads_ceiling (hactive : (s.part s.arg.p).active = true) (h0 : s.arg.a0 = 1#64) (h1 : s.arg.a1 = errno 1) :
    exec .ylQuota s = .next (ylReturn s s.arg.p (zext64 (s.part s.arg.p).ceiling)) := by
  change execYlQuota s = _
  unfold execYlQuota
  dsimp only
  rw [if_neg (not_idle hactive), if_neg (by rw [h0]; decide), if_pos h0, if_pos h1]

theorem ylQuota_sets_ceiling (hactive : (s.part s.arg.p).active = true) (h0 : s.arg.a0 = 1#64) (hlow : 0 < s.arg.a1.toNat)
    (hhigh : s.arg.a1.toNat ≤ 256) :
    exec .ylQuota s = .next (ylReturn (s.updPart s.arg.p (fun q => { q with ceiling := s.arg.a1.setWidth 9 })) s.arg.p s.arg.a1) := by
  have hread : s.arg.a1 ≠ errno 1 := fun h => by
    rw [h] at hhigh
    exact absurd hhigh (by decide)
  have hrange : ¬ (s.arg.a1 = 0#64 ∨ 256 < s.arg.a1.toNat) := by
    rintro (h | h)
    · rw [h] at hlow
      exact absurd hlow (by decide)
    · omega
  change execYlQuota s = _
  unfold execYlQuota
  dsimp only
  rw [if_neg (not_idle hactive), if_neg (by rw [h0]; decide), if_pos h0, if_neg hread, if_neg hrange]

theorem mbox_updMbox_other (s : State) {m j : Nat} (h : j ≠ m) (f : Mailbox → Mailbox) : (s.updMbox m f).mbox j = s.mbox j := by
  unfold State.mbox State.updMbox
  rw [tabGet_tabSet, if_neg h]

theorem mbox_ylReturn (s : State) (p : BitVec 6) (x : Word) (j : Nat) : (ylReturn s p x).mbox j = s.mbox j := rfl

/-- A mailbox as yl_mbox_open leaves it. -/
def openedMailbox (s : State) : State := s.updMbox s.arg.a0.toNat (fun b => { b with
  isOpen := true
  part := s.arg.p
  ring := s.arg.a1.toNat
  sgen := b.sgen + 1#16
  holes := []
  queue := []
  claims := []
  pairs := []
  nextSeq := [] })

theorem ylMboxOpen_opens (hactive : (s.part s.arg.p).active = true) (hallowed : mboxAllowed (s.part s.arg.p) s.arg.a0.toNat = true)
    (hopen : (s.mbox s.arg.a0.toNat).isOpen = false) : exec .ylMboxOpen s = .next (ylReturn (openedMailbox s) s.arg.p 0#64) := by
  have hlt : s.arg.a0.toNat < 4096 := by
    unfold mboxAllowed at hallowed
    simp only [Bool.and_eq_true, decide_eq_true_eq] at hallowed
    exact hallowed.2
  change execYlMboxOpen s = _
  unfold execYlMboxOpen
  dsimp only
  rw [if_neg (not_idle hactive), if_neg (by omega), hallowed, hopen]
  rfl

theorem ylMboxClose_closes (hactive : (s.part s.arg.p).active = true) (hopen : mboxOpen s s.arg.a0.toNat s.arg.p = true)
    (hholes : (s.mbox s.arg.a0.toNat).holes = []) (hclaims : (s.mbox s.arg.a0.toNat).claims = []) (hqueue : (s.mbox s.arg.a0.toNat).queue = [])
    (hpairs : (s.mbox s.arg.a0.toNat).pairs = []) : exec .ylMboxClose s = .next (ylReturn (s.updMbox s.arg.a0.toNat (fun b =>
      { b with isOpen := false, holes := [], queue := [], claims := [], pairs := [] })) s.arg.p 0#64) := by
  change execYlMboxClose s = _
  unfold execYlMboxClose
  dsimp only
  rw [if_neg (not_idle hactive), hopen, if_neg (by decide)]
  unfold closeMailbox storedMsgs
  dsimp only
  rw [hholes, hclaims, hqueue, hpairs]
  rfl

theorem ylExit_ends {i : Image} (himages : s.images = [i]) (hhandle : i.handle = s.arg.num) (hpart : i.part = s.arg.p) (hexit : i.exit = none)
    (hlaunches : (s.part s.arg.p).launches = []) : exec .ylExit s = .next { s with images := [{ i with exit := some s.arg.a0 }] } := by
  have hany : s.images.any (fun i => i.handle == s.arg.num && i.part == s.arg.p && i.exit.isNone) = true := by
    rw [himages, List.any_cons, hhandle, hpart, hexit, beq_self_eq_true, beq_self_eq_true]
    rfl
  have hfind : s.images.find? (fun i => i.handle == s.arg.num) = some i := by
    rw [himages, List.find?_cons_of_pos (by rw [hhandle]; exact beq_self_eq_true _)]
  have hend : endImageLaunches s s.arg.num = s := by
    unfold endImageLaunches
    rw [hfind]
    dsimp only
    rw [hpart, hlaunches]
    rfl
  change execYlExit s = _
  unfold execYlExit exitImage
  rw [if_pos hany, hend]
  dsimp only
  rw [himages, List.map_cons, if_pos hhandle]
  rfl

/-- What yl_attest answers once its image is found and its nonce read. -/
theorem ylAttest_reports {i : Image} {nonce : List Byte} {s1 : State} (hactive : (s.part s.arg.p).active = true)
    (hprovision : s.needsProvision = false) (hkeys : s.keysGone = false) (himages : s.images = [i]) (hhandle : i.handle = s.arg.num)
    (hpart : i.part = s.arg.p) (hread : ylRead s.arg.p 2 s.arg.a0.toNat 32 s = .ok (nonce, s1)) :
    let r := attestReport s1 i.file nonce
    ∃ t, exec .ylAttest s = .next t ∧ (t.part s.arg.p).a0 = if s.arg.a2.toNat < r.length then BitVec.ofInt 64 (-1) else
      match ylWrite s.arg.p (pagesIn r.length) s.arg.a1.toNat r s1 with
      | .ok _ => BitVec.ofNat 64 r.length
      | .error _ => BitVec.ofInt 64 (-6) := by
  intro r
  have hfind : s.images.find? (fun i => i.handle == s.arg.num && i.part == s.arg.p) = some i := by
    rw [himages, List.find?_cons_of_pos (by rw [hhandle, hpart, beq_self_eq_true, beq_self_eq_true]; rfl)]
  change ∃ t, execYlAttest s = .next t ∧ _
  unfold execYlAttest
  dsimp only
  rw [if_neg (not_idle hactive), hprovision, hkeys, if_neg (by decide), hfind]
  dsimp only
  rw [hread]
  dsimp only
  by_cases hshort : s.arg.a2.toNat < r.length
  · rw [if_pos hshort, if_pos hshort]
    exact ⟨_, rfl, congrArg Partition.a0 (part_ylReturn ..)⟩
  · rw [if_neg hshort, if_neg hshort]
    cases ylWrite s.arg.p (pagesIn r.length) s.arg.a1.toNat r s1 with
    | ok u => exact ⟨_, rfl, congrArg Partition.a0 (part_ylReturn ..)⟩
    | error u => exact ⟨_, rfl, congrArg Partition.a0 (part_ylReturn ..)⟩

end

/-- Settles O50: each call of the control program that maps no memory, by what it returns. -/
theorem yalushCalls : Obligations.YalushCalls := by
  unfold Obligations.YalushCalls
  intro s hactive p q x does
  have hidle := not_idle hactive
  refine ⟨?clock, ?noService, ?peer, ?noPeer, ?policy, ?limit, ?ceiling, ?newCeiling, ?ended, ?waits, ?opens, ?closes, ?exits, ?noKeys, ?attest⟩
  case clock =>
    intro hflag
    refine returns_of_exec ?_
    change execYlClock s = _
    unfold execYlClock
    rw [if_neg hidle, hflag]
    rfl
  case noService =>
    intro hflag hnum
    refine returns_of_exec ?_
    change execYlClock s = _
    unfold execYlClock
    rw [if_neg hidle, hflag, if_pos rfl, if_neg (by omega)]
    rfl
  case peer =>
    intro hx
    refine returns_of_exec ?_
    change execYlPeerQuery s = _
    unfold execYlPeerQuery
    dsimp only
    rw [if_neg hidle, if_neg (Nat.not_le.2 hx)]
  case noPeer =>
    intro hx
    refine returns_of_exec ?_
    change execYlPeerQuery s = _
    unfold execYlPeerQuery
    dsimp only
    rw [if_neg hidle, if_pos hx]
    rfl
  case policy =>
    intro hx hpolicy
    have hclass : isClassCode x = true := by
      unfold isClassCode
      rcases hx with ⟨hlow, hhigh⟩ | hx
      · rw [decide_eq_true hlow, decide_eq_true hhigh]
        rfl
      · rw [hx]
        rfl
    refine ⟨_, ylFaultPolicy_sets hactive hclass hpolicy, onlyPartition_ylReturn_updPart s p _ _, ?_, fun n => ?_, ?_⟩
    · rw [part_ylReturn_updPart]
    · rw [part_ylReturn_updPart]
      exact tabGet_tabPut ..
    · rw [part_ylReturn_updPart]
  case limit => exact fun h0 h1 => returns_of_exec (ylQuota_reads_limit hactive h0 h1)
  case ceiling => exact fun h0 h1 => returns_of_exec (ylQuota_reads_ceiling hactive h0 h1)
  case newCeiling =>
    intro h0 hlow hhigh
    exact ⟨_, ylQuota_sets_ceiling hactive h0 hlow hhigh, onlyPartition_ylReturn_updPart s p _ _, part_ylReturn_updPart s p _ _⟩
  case ended =>
    intro u hcount hflag
    refine ⟨ylReturn u p 0#64, ?_, onlyPartition_ylReturn u p _, part_ylReturn u p _⟩
    change execYlWait s = _
    unfold execYlWait
    dsimp only
    rw [if_neg hidle, hflag, if_neg Bool.false_ne_true, hcount]
    rfl
  case waits =>
    intro n u hcount hn hflag
    refine ⟨u.updPart p (fun q => { q with waits := q.waits ++ [⟨x, s.arg.a1, s.cycle⟩] }), ?_, onlyPartition_updPart u p _, ?_⟩
    · change execYlWait s = _
      unfold execYlWait
      dsimp only
      rw [if_neg hidle, hflag, if_neg Bool.false_ne_true, hcount]
      exact if_neg hn
    · rw [part_updPart_same, waitCount_cycle hcount]
  case opens =>
    intro hallowed hopen
    refine ⟨_, ylMboxOpen_opens hactive hallowed hopen, part_ylReturn _ p _, fun j hj => (mbox_ylReturn ..).trans (mbox_updMbox_other s hj _), rfl, ?_⟩
    change (openedMailbox s).mbox x = _
    unfold State.mbox openedMailbox State.updMbox
    rw [tabGet_tabSet, if_pos rfl]
    rfl
  case closes =>
    intro hopen hholes hclaims hqueue hpairs
    refine ⟨_, ylMboxClose_closes hactive hopen hholes hclaims hqueue hpairs, part_ylReturn _ p _, fun j hj => (mbox_ylReturn ..).trans (mbox_updMbox_other s hj _), rfl, ?_⟩
    have hbox : s.mbox x = { s.mbox x with holes := [], queue := [], claims := [], pairs := [] } := by
      rw [← hholes, ← hclaims, ← hqueue, ← hpairs]
    rw [hbox]
    unfold State.mbox ylReturn State.updPart State.updMbox
    exact (tabGet_tabSet ..).trans (if_pos rfl)
  case exits => exact fun i himages hhandle hpart hexit hlaunches => ylExit_ends himages hhandle hpart hexit hlaunches
  case noKeys =>
    intro hgone
    refine returns_of_exec ?_
    change execYlAttest s = _
    unfold execYlAttest
    dsimp only
    rw [if_neg hidle, if_pos (by rcases hgone with h | h <;> rw [h] <;> simp)]
    rfl
  case attest =>
    intro i nonce s1 hprovision hkeys himages hhandle hpart hread body r
    exact ylAttest_reports hactive hprovision hkeys himages hhandle hpart hread

end Sys2Proof.Machine
end

section
/-! PROOFS. Requests of other packages at their home (O53), and shootdowns and scans (O49). -/

set_option Elab.async false

namespace Sys2Proof.Machine

open Sys2Proof

/-! ### Requests of other packages at their home (spec/05_memories.md R95, R96) -/

theorem OnlyHomes.outbox {s t : State} (h : OnlyHomes s t) : t.outbox = s.outbox := (congrArg State.outbox h.1 :)

theorem inAperture_of_homeServes {s : State} {pa n : Nat} (h : homeServes s pa n = true) : inAperture pa = false := by
  unfold homeServes inHbm at h
  simp only [Bool.and_eq_true, decide_eq_true_eq] at h
  obtain ⟨⟨⟨hlow, -⟩, -⟩, -⟩ := h
  exact decide_eq_false (by unfold apb; omega)

section

variable {s : State}

theorem wakeUp_of_awake (h : s.power ≠ .p2) : s.wakeUp = s := if_neg h

/-- A home that serves a write holds its bytes afterwards, and answers. -/
theorem answered_write (q : BitVec 10) (pa : Nat) (bs data : List Byte) :
    let t := answer (homeWrite s none pa bs false) q data true
    t.outbox = s.outbox ++ [.answer q data true] ∧ t.mem = memPut s.mem pa bs :=
  ⟨congrArg (· ++ [_]) (onlyHomes_homeWrite s none pa bs false).outbox, mem_homeWrite ..⟩

/-- An atomic that its home serves answers the old bytes, and leaves the new value. -/
theorem remoteAtomic_served {q : BitVec 10} {pa n new : Nat} {f : Nat → Option Nat} (hserves : homeServes s pa n = true) (halign : pa % n = 0)
    (hgood : poisoned s pa n = false) (hscan : scanRefused s pa n = false)
    (hf : f (bytesNat (memBytes s.mem pa n)) = some new ∨
      f (bytesNat (memBytes s.mem pa n)) = none ∧ new = bytesNat (memBytes s.mem pa n)) :
    (remoteAtomic s q pa n f).outbox = s.outbox ++ [.answer q (memBytes s.mem pa n) true] ∧
    Holds (remoteAtomic s q pa n f) pa n new ∧ MemoryKept s (remoteAtomic s q pa n f) (within pa n) := by
  have hrun : remoteAtomic s q pa n f = match f (bytesNat (memBytes s.mem pa n)) with
      | none => answer s q (memBytes s.mem pa n) true
      | some v => answer (homeWrite s none pa (natBytes n v) false) q (memBytes s.mem pa n) true := by
    unfold remoteAtomic
    rw [hserves, halign, hgood, hscan]
    rfl
  rcases hf with hf | ⟨hf, hnew⟩
  · obtain ⟨hout, hmem⟩ := answered_write (s := s) q pa (natBytes n new) (memBytes s.mem pa n)
    rw [hrun, hf]
    exact ⟨hout, holds_of_memPut hmem, memoryKept_of_memPut hmem (natBytes_length ..)⟩
  · rw [hrun, hf, hnew]
    exact ⟨rfl, holds_self s pa n, fun _ _ => rfl⟩

theorem remoteAtomic_refused {q : BitVec 10} {pa n : Nat} (f : Nat → Option Nat)
    (h : homeServes s pa n = false ∨ pa % n ≠ 0 ∨ poisoned s pa n = true ∨ scanRefused s pa n = true) :
    remoteAtomic s q pa n f = answer s q [] false := by
  refine if_pos ?_
  rcases h with h | h | h | h
  · rw [h]; rfl
  · rw [bne_iff_ne.2 h, Bool.or_true]; rfl
  · rw [h, Bool.or_true]; rfl
  · rw [h, Bool.or_true]

variable (hpower : s.power ≠ .p2) (htests : s.tests = [])

include hpower htests

theorem arrival_read {pa n : Nat} (hop : s.arg.remote = .read pa n) (hap : inAperture pa = false) : exec .remoteAccessArrival s =
    .next (if !homeServes s pa n || poisoned s pa n then answer s s.arg.peer [] false else answer s s.arg.peer (memBytes s.mem pa n) true) := by
  change execRemoteAccessArrival s = _
  unfold execRemoteAccessArrival
  rw [wakeUp_of_awake hpower, hop]
  dsimp only [remoteSpan]
  rw [underTest_nil htests, hap]
  simp only [Bool.false_eq_true, if_false]
  split <;> rfl

theorem arrival_write {pa : Nat} {bs : List Byte} (hop : s.arg.remote = .write pa bs) (hap : inAperture pa = false) :
    exec .remoteAccessArrival s = .next (if !homeServes s pa bs.length || scanRefused s pa bs.length then answer s s.arg.peer [] false
      else answer (homeWrite s none pa bs false) s.arg.peer [] true) := by
  change execRemoteAccessArrival s = _
  unfold execRemoteAccessArrival
  rw [wakeUp_of_awake hpower, hop]
  dsimp only [remoteSpan]
  rw [underTest_nil htests, hap]
  simp only [Bool.false_eq_true, if_false]
  split <;> rfl

theorem arrival_atomic {op : BitVec 4} {wide : Bool} {pa : Nat} {b : Word} (hop : s.arg.remote = .atomic op wide pa b) :
    exec .remoteAccessArrival s = .next (if 9 < op.toNat ∨ (op = 9#4 ∧ wide = true) then answer s s.arg.peer [] false
      else remoteAtomic s s.arg.peer pa (if wide then 8 else 4) (fun old => some (amoNew op (if wide then 8 else 4) old b.toNat))) := by
  change execRemoteAccessArrival s = _
  unfold execRemoteAccessArrival
  rw [wakeUp_of_awake hpower, hop]
  dsimp only [remoteSpan]
  rw [underTest_nil htests]
  simp only [Bool.false_eq_true, if_false]
  split <;> rfl

theorem arrival_cas {wide : Bool} {pa : Nat} {e v : Word} (hop : s.arg.remote = .cas wide pa e v) :
    exec .remoteAccessArrival s = .next (remoteAtomic s s.arg.peer pa (if wide then 8 else 4)
      (fun old => if old = e.toNat % 2 ^ (8 * if wide then 8 else 4) then some v.toNat else none)) := by
  change execRemoteAccessArrival s = _
  unfold execRemoteAccessArrival
  rw [wakeUp_of_awake hpower, hop]
  dsimp only [remoteSpan]
  rw [underTest_nil htests]
  rfl

end

/-- The new value of each atomic operation that has one for both widths. -/
theorem amoNew_of_mem {op : BitVec 4} {n old b new : Nat} {sg : Nat → Int} (hsg : ∀ x, sg x = (BitVec.ofNat (8 * n) x).toInt)
    (h : (op, new) ∈ [(0#4, (old + b % 2 ^ (8 * n)) % 2 ^ (8 * n)), (1#4, old &&& b % 2 ^ (8 * n)), (2#4, old ||| b % 2 ^ (8 * n)),
      (3#4, old ^^^ b % 2 ^ (8 * n)), (4#4, if sg (b % 2 ^ (8 * n)) < sg old then b % 2 ^ (8 * n) else old),
      (5#4, if sg old < sg (b % 2 ^ (8 * n)) then b % 2 ^ (8 * n) else old), (6#4, min old (b % 2 ^ (8 * n))),
      (7#4, max old (b % 2 ^ (8 * n))), (8#4, b % 2 ^ (8 * n))]) : amoNew op n old b = new ∧ op.toNat < 9 := by
  have hsigned : ∀ x, signedOf (8 * n) x = sg x := fun x => by rw [signedOf_eq_toInt, hsg]
  have hb : signedOf (8 * n) b = sg (b % 2 ^ (8 * n)) := by rw [signedOf_eq_toInt, hsg, toInt_ofNat_mod]
  simp only [List.mem_cons, Prod.mk.injEq, List.not_mem_nil, or_false] at h
  rcases h with ⟨rfl, rfl⟩ | ⟨rfl, rfl⟩ | ⟨rfl, rfl⟩ | ⟨rfl, rfl⟩ | ⟨rfl, rfl⟩ | ⟨rfl, rfl⟩ | ⟨rfl, rfl⟩ | ⟨rfl, rfl⟩ | ⟨rfl, rfl⟩
  · exact ⟨(Nat.add_mod_mod ..).symm, by decide⟩
  · exact ⟨rfl, by decide⟩
  · exact ⟨rfl, by decide⟩
  · exact ⟨rfl, by decide⟩
  · rw [← hb, ← hsigned]
    exact ⟨rfl, by decide⟩
  · rw [← hb, ← hsigned]
    exact ⟨rfl, by decide⟩
  · exact ⟨rfl, by decide⟩
  · exact ⟨rfl, by decide⟩
  · exact ⟨rfl, by decide⟩

/-- Settles O53: a request of another package, served or refused, by its kind. -/
theorem remoteArrivals : Obligations.RemoteArrivals := by
  unfold Obligations.RemoteArrivals
  intro s hpower htests q tells
  refine ⟨?read, ?write, ?atomic, ?refused⟩
  case read =>
    intro pa n hop hap
    have hrun := arrival_read hpower htests hop hap
    refine ⟨fun hserves hgood => ⟨_, hrun, ?_⟩, fun hserves => ?_⟩
    · rw [hserves, hgood]
      rfl
    · rw [hrun, hserves]
      rfl
  case write =>
    intro pa bs hop hserves hscan
    refine ⟨_, arrival_write hpower htests hop (inAperture_of_homeServes hserves), ?_⟩
    rw [hserves, hscan]
    obtain ⟨hout, hmem⟩ := answered_write (s := s) q pa bs []
    exact ⟨hout, (congrArg (memBytes · pa bs.length) hmem).trans (memBytes_memPut ..), memoryKept_of_memPut hmem rfl⟩
  case atomic =>
    intro wide pa n hserves halign hgood hscan old sg
    refine ⟨fun b op new hop hnew => ?_, fun e v hop => ?_⟩
    · have hvalue : amoNew op n old b.toNat = new ∧ ¬ (9 < op.toNat ∨ (op = 9#4 ∧ wide = true)) := by
        rcases hnew with hnew | ⟨hwide, hnew⟩
        · obtain ⟨hval, hlt⟩ := amoNew_of_mem (sg := sg) (fun _ => rfl) hnew
          refine ⟨hval, ?_⟩
          rintro (h | ⟨rfl, -⟩)
          · omega
          · exact absurd hlt (by decide)
        · obtain ⟨rfl, rfl⟩ := Prod.mk.inj hnew
          refine ⟨?_, ?_⟩
          · change (f32Add (BitVec.ofNat 32 old) (BitVec.ofNat 32 b.toNat)).toNat = _
            rw [BitVec.ofNat_toNat]
          · rintro (h | ⟨-, h⟩)
            · exact absurd h (by decide)
            · rw [hwide] at h
              cases h
      obtain ⟨hval, hserved⟩ := hvalue
      refine ⟨_, arrival_atomic hpower htests hop, ?_⟩
      rw [if_neg hserved]
      exact remoteAtomic_served hserves halign hgood hscan (.inl (congrArg some hval))
    · refine ⟨_, arrival_cas hpower htests hop, remoteAtomic_served hserves halign hgood hscan ?_⟩
      by_cases hit : old = e.toNat % 2 ^ (8 * n)
      · exact .inl ((if_pos hit).trans (congrArg some (if_pos hit).symm))
      · exact .inr ⟨if_neg hit, if_neg hit⟩
  case refused =>
    refine ⟨fun pa bs hop hap hno => ?_, fun wide pa => ?_⟩
    · change exec .remoteAccessArrival s = .next (answer s q [] false)
      rw [arrival_write hpower htests hop hap, if_pos]
      rcases hno with h | h <;> rw [h]
      · rfl
      · rw [Bool.or_true]
    · intro n hno hop
      change exec .remoteAccessArrival s = .next (answer s q [] false)
      rcases hop with ⟨op, b, hop⟩ | ⟨e, v, hop⟩
      · rw [arrival_atomic hpower htests hop, remoteAtomic_refused _ hno, ite_self]
      · rw [arrival_cas hpower htests hop, remoteAtomic_refused _ hno]

/-! ### Shootdowns (spec/09_translation_and_faults.md R158) -/

/-- An access or a matrix command of a strand that holds up a shootdown at its die. -/
def strandBusy (x : Shootdown) (die : Nat) (kt : Nat × Strand) : Bool :=
  dieOf (coreOf kt.1) == die && decide (kt.2.part = x.part) &&
    (kt.2.out.any (fun a => x.meets a.va a.n && !isBwait a) || kt.2.mq.any (tileBusy x))

theorem rangeBusy_eq_false_iff (s : State) (x : Shootdown) (die : Nat) :
    rangeBusy s x die = false ↔ (∀ kt ∈ s.strands, strandBusy x die kt = false) ∧ engineBusy s x die = false := by
  unfold rangeBusy
  rw [Bool.or_eq_false_iff, List.any_eq_false]
  simp only [Bool.not_eq_true]
  rfl

theorem strandBusy_empty (x : Shootdown) (die k : Nat) : strandBusy x die (k, Strand.empty) = false := by
  unfold strandBusy
  exact Bool.and_false _

/-- The strand that a table gives is listed, or is the empty one. -/
theorem strand_mem_or (s : State) (k : Nat) : (k, s.strand k) ∈ s.strands ∨ s.strand k = Strand.empty := by
  by_cases h : s.strand k = Strand.empty
  · exact .inr h
  · obtain ⟨p, hp, hk, hv⟩ := mem_of_tabGet_ne h
    left
    rw [← hk]
    unfold State.strand
    rw [← hk] at hv
    rw [← hv]
    exact hp

theorem strandBusy_strand {s : State} {x : Shootdown} {die : Nat} (h : ∀ kt ∈ s.strands, strandBusy x die kt = false) (k : Nat) :
    strandBusy x die (k, s.strand k) = false := by
  rcases strand_mem_or s k with hk | hk
  · exact h _ hk
  · rw [hk]
    exact strandBusy_empty x die k

/-- The strand once it has given up its wait at a barrier. -/
def waitAbandoned (t : Strand) : Strand := { t with
  out := t.out.filter (fun a => !isBwait a)
  wait := match t.wait with
    | .sweep => .sweep
    | .reply => if (t.out.filter isBwait).isEmpty then .reply else .none
    | _ => .none }

theorem strandBusy_waitAbandoned (x : Shootdown) (die k : Nat) (t : Strand) : strandBusy x die (k, waitAbandoned t) = strandBusy x die (k, t) := by
  have hout : (t.out.filter (fun a => !isBwait a)).any (fun a => x.meets a.va a.n && !isBwait a) =
      t.out.any (fun a => x.meets a.va a.n && !isBwait a) := by
    rw [List.any_filter]
    congr 1
    funext a
    cases isBwait a <;> simp
  unfold strandBusy waitAbandoned
  dsimp only
  rw [hout]

theorem abandonWait_eq (s : State) (k : Nat) : ∃ l, abandonWait s k =
    { s with tags := l, strands := tabSet s.strands k (waitAbandoned (s.strand k)) } := by
  obtain ⟨l, hl⟩ := foldl_tags_eq (fun u (a : Access) => dropTag u a.tag) (fun u a => dropTag_eq u a.tag) ((s.strand k).out.filter isBwait) s
  refine ⟨l, ?_⟩
  unfold abandonWait
  dsimp only
  rw [hl]
  rfl

/-- Giving up waits changes only tags and strands, and holds nothing up that was not held up before. -/
theorem abandonWaits_eq (x : Shootdown) (die : Nat) (ks : List Nat) (s : State) : ∃ tags strands,
    ks.foldl abandonWait s = { s with tags := tags, strands := strands } ∧
    ((∀ kt ∈ s.strands, strandBusy x die kt = false) → ∀ kt ∈ strands, strandBusy x die kt = false) := by
  induction ks generalizing s with
  | nil => exact ⟨s.tags, s.strands, rfl, id⟩
  | cons k ks ih =>
    obtain ⟨l, hl⟩ := abandonWait_eq s k
    obtain ⟨tags, strands, heq, hbusy⟩ := ih (abandonWait s k)
    refine ⟨tags, strands, ?_, fun h => hbusy fun kt hkt => ?_⟩
    · rw [List.foldl_cons, heq, hl]
    · rw [hl] at hkt
      rcases mem_tabSet hkt with rfl | hkt
      · rw [strandBusy_waitAbandoned]
        exact strandBusy_strand h k
      · exact h kt hkt

theorem restartWaits_eq (s : State) (x : Shootdown) (die : Nat) : ∃ tags strands,
    restartWaits s x die = { s with tags := tags, strands := strands } ∧
    (rangeBusy s x die = false → rangeBusy (restartWaits s x die) x die = false) := by
  obtain ⟨tags, strands, heq, hbusy⟩ := abandonWaits_eq x die _ s
  refine ⟨tags, strands, heq, fun h => ?_⟩
  obtain ⟨hstrands, hengine⟩ := (rangeBusy_eq_false_iff s x die).1 h
  refine (rangeBusy_eq_false_iff _ x die).2 ⟨fun kt hkt => ?_, ?_⟩
  · unfold restartWaits at hkt
    dsimp only at hkt
    rw [heq] at hkt
    exact hbusy hstrands kt hkt
  · unfold restartWaits
    dsimp only
    rw [heq]
    exact hengine

theorem shootdownBar_own {x : Shootdown} (h : x.bar = 0#64) (s : State) (die : Nat) : shootdownBar s x die = s := if_pos h

theorem finish_of_ylReturn {x : Shootdown} {v : Word} (h : x.fin = .ylReturn v) (u : State) : finish u x = ylReturn u x.part v := by
  rw [finish, h]

theorem finish_of_mask {x : Shootdown} {m : Word} (h : x.fin = .mask m) (u : State) :
    finish u x = u.updPart x.part (fun p => { p with feature := m }) := by
  rw [finish, h]

theorem finish_of_free {x : Shootdown} {va : Nat} (h : x.fin = .free va) (u : State) : finish u x =
    ylReturn (u.updPart x.part (fun p => { p with blocks := p.blocks.filter (fun b => b.va != va) })) x.part 0#64 := by
  rw [finish, h]

theorem finish_of_table {x : Shootdown} {e : BitVec 4096} (h : x.fin = .table e) (u : State) : finish u x =
    u.updPart x.part (fun p => { p with
      hbmr := (partitionOf p e).hbmr
      hypRoot := (partitionOf p e).hypRoot
      guestRoot := (partitionOf p e).guestRoot
      peerSet := (partitionOf p e).peerSet
      feature := (partitionOf p e).feature }) := by
  rw [finish, h]

/-- What the end of a shootdown leaves. -/
theorem finish_frame (u : State) (x : Shootdown) :
    (finish u x).tlb = u.tlb ∧ (finish u x).mem = u.mem ∧ (finish u x).shootdowns = u.shootdowns ∧
    ((finish u x).part x.part).scan = (u.part x.part).scan := by
  cases hfin : x.fin with
  | nothing =>
    rw [finish, hfin]
    exact ⟨rfl, rfl, rfl, rfl⟩
  | ylReturn v =>
    rw [finish_of_ylReturn hfin, part_ylReturn]
    exact ⟨rfl, rfl, rfl, rfl⟩
  | mask m =>
    rw [finish_of_mask hfin, part_updPart_same]
    exact ⟨rfl, rfl, rfl, rfl⟩
  | exmap next stop start =>
    rw [finish, hfin]
    dsimp only
    by_cases hmore : next < stop
    · rw [if_pos hmore]
      unfold startScan
      split
      · rw [scanRefuse, part_updPart_same]
        exact ⟨rfl, rfl, rfl, rfl⟩
      · exact ⟨rfl, rfl, rfl, rfl⟩
    · rw [if_neg hmore, part_ylReturn]
      exact ⟨rfl, rfl, rfl, rfl⟩
  | table e =>
    rw [finish_of_table hfin, part_updPart_same]
    exact ⟨rfl, rfl, rfl, rfl⟩
  | free va =>
    rw [finish_of_free hfin, part_ylReturn_updPart]
    exact ⟨rfl, rfl, rfl, rfl⟩

/-- The state in which a die has dropped its entries of a shootdown's range, and the scan bits of its frames are cleared. -/
def dieArrived (s : State) (x : Shootdown) (die : Nat) : State :=
  (restartWaits { s with tlb := s.tlb.filter (fun e => !(dieOfTlb e.unit == die && entryIn x e)) } x die).updPart x.part (fun p => { p with
    scan := p.scan.filter (fun f => !x.frames.contains f)
    recheck := match x.fin with
      | .mask _ | .table _ => x.frames.foldl (fun l f => insNat f l) p.recheck
      | _ => p.recheck.filter (fun f => !x.frames.contains f) })

theorem dieArrived_spec (s : State) (x : Shootdown) (die : Nat) :
    (dieArrived s x die).tlb = s.tlb.filter (fun e => !(dieOfTlb e.unit == die && entryIn x e)) ∧ (dieArrived s x die).mem = s.mem ∧
    (dieArrived s x die).shootdowns = s.shootdowns ∧
    ((dieArrived s x die).part x.part).scan = (s.part x.part).scan.filter (fun f => !x.frames.contains f) ∧
    ((dieArrived s x die).part x.part).blocks = (s.part x.part).blocks := by
  obtain ⟨tags, strands, heq, -⟩ := restartWaits_eq { s with tlb := s.tlb.filter (fun e => !(dieOfTlb e.unit == die && entryIn x e)) } x die
  unfold dieArrived
  rw [part_updPart_same, heq]
  exact ⟨rfl, rfl, rfl, rfl, rfl⟩

section

variable {s : State} {x : Shootdown}

/-- A shootdown with one die less to arrive. -/
def diesLeft (x : Shootdown) (die : Nat) : Shootdown := { x with dies := x.dies.filter (fun d => d != die) }

theorem shootdownArrival_runs (hx : s.shootdowns[s.arg.idx]? = some x) (hdie : s.arg.num ∈ x.dies) (hbar : x.bar = 0#64)
    (hbusy : rangeBusy s x s.arg.num = false) : exec .shootdownArrival s = .next (
      if (x.dies.filter (fun d => d != s.arg.num)).isEmpty then
        finish { dieArrived s x s.arg.num with shootdowns := dropNth (dieArrived s x s.arg.num).shootdowns s.arg.idx } x
      else { dieArrived s x s.arg.num with shootdowns := setNth (dieArrived s x s.arg.num).shootdowns s.arg.idx (diesLeft x s.arg.num) }) := by
  obtain ⟨tags, strands, -, hkept⟩ := restartWaits_eq
    { s with tlb := s.tlb.filter (fun e => !(dieOfTlb e.unit == s.arg.num && entryIn x e)) } x s.arg.num
  have hfree : rangeBusy { s with tlb := s.tlb.filter (fun e => !(dieOfTlb e.unit == s.arg.num && entryIn x e)) } x s.arg.num = false := hbusy
  change execShootdownArrival s = _
  unfold execShootdownArrival
  rw [hx]
  dsimp only
  rw [List.contains_iff_mem.2 hdie, hkept hfree]
  simp only [Bool.not_true, Bool.false_eq_true, if_false]
  rw [shootdownBar_own hbar, shootdownBar_own hbar]
  split <;> rfl

theorem filter_dies_isEmpty {die : Nat} : (x.dies.filter (fun d => d != die)).isEmpty = true ↔ ∀ d ∈ x.dies, d = die := by
  rw [List.isEmpty_iff, List.filter_eq_nil_iff]
  simp

end

/-! ### Scans (R172, R174) -/

theorem firstBad_congr {s t : State} (h : t.mem = s.mem) (mask : Word) (pa n i : Nat) : firstBad t mask pa n i = firstBad s mask pa n i := by
  induction n generalizing i with
  | zero => rfl
  | succ n ih =>
    unfold firstBad
    rw [ih, homeRead, homeRead, h]

theorem scanPage_dropped (s : State) (l : List Scan) (mask : Word) (pa : Nat) : scanPage { s with scans := l } mask pa = scanPage s mask pa := by
  have hbad := firstBad_congr (s := s) (t := { s with scans := l }) rfl mask pa 16384 0
  unfold scanPage
  exact congrArg (fun o => if poisoned s pa 65536 || (lostPart s pa).isSome then some (0, 6) else o) hbad

theorem scanLeaves_dropped (s : State) (l : List Scan) (p : BitVec 6) (va : Nat) : scanLeaves { s with scans := l } p va = scanLeaves s p va := rfl

theorem mem_insNat {x f : Nat} {l : List Nat} : f ∈ insNat x l ↔ f = x ∨ f ∈ l := by
  induction l with
  | nil => simp [insNat]
  | cons y l ih =>
    unfold insNat
    split
    · simp
    · split
      next h => simp [h]
      next => simp [ih]; tauto

section

variable {s : State} {c : Scan} {g h : Leaf} {pa : Nat}

theorem scanComplete_runs (hc : s.scans[s.arg.idx]? = some c) (hleaves : scanLeaves s c.part c.va = some (g, h, pa)) (hframe : pa / 65536 = c.frame)
    (hwrites : writesOut s c.frame = false) : exec .scanComplete s = .next (match scanPage s c.mask pa with
      | some (i, r) => scanFail { s with scans := dropNth s.scans s.arg.idx } c (c.va - c.start + 4 * i) r
      | none => startShootdown (passPage { s with scans := dropNth s.scans s.arg.idx } c.part g h pa) c.part c.va (c.va + 65536) 0#64 []
          (.exmap (c.va + 65536) c.stop c.start)) := by
  change execScanComplete s = _
  unfold execScanComplete
  rw [hc]
  dsimp only
  rw [hwrites, scanLeaves_dropped, hleaves]
  dsimp only
  rw [if_neg Bool.false_ne_true, if_neg (fun hne => hne hframe), scanPage_dropped]
  cases scanPage s c.mask pa <;> rfl

theorem part_scanFail (c : Scan) (off reason : Nat) : (scanFail s c off reason).part c.part = { s.part c.part with
    scan := (s.part c.part).scan.filter (fun f => f != c.frame)
    a0 := eInval
    a1 := BitVec.ofNat 64 off
    a2 := BitVec.ofNat 64 reason } := by
  rw [scanFail, scanRefuse, part_updPart_same, part_updPart_same]

theorem OnlyHomes.part {s t : State} (h : OnlyHomes s t) (p : BitVec 6) : t.part p = s.part p := by
  have hparts : t.parts = s.parts := (congrArg State.parts h.1 :)
  rw [State.part, hparts, State.part]

theorem OnlyHomes.shootdowns {s t : State} (h : OnlyHomes s t) : t.shootdowns = s.shootdowns := (congrArg State.shootdowns h.1 :)

theorem OnlyHomes.scans {s t : State} (h : OnlyHomes s t) : t.scans = s.scans := (congrArg State.scans h.1 :)

/-- The two leaves of a scanned page as they stand afterwards. -/
theorem passPage_mem (p : BitVec 6) (hapart : g.at_ + 8 ≤ h.at_ ∨ h.at_ + 8 ≤ g.at_) :
    (passPage s p g h pa).mem = memPut (memPut s.mem g.at_ (bvBytes (execLeaf g.pte))) h.at_
      (bvBytes (execLeaf (bytesBv 64 (memBytes s.mem h.at_ 8)))) := by
  have hread : memBytes (memPut s.mem g.at_ (bvBytes (execLeaf g.pte))) h.at_ 8 = memBytes s.mem h.at_ 8 := by
    refine memBytes_congr fun a ha hb => memByte_memPut_of_not ?_
    rw [bvBytes_length]
    omega
  unfold passPage
  dsimp only
  change (homeWrite (homeWrite s none g.at_ (bvBytes (execLeaf g.pte)) false) none h.at_ _ false).mem = _
  rw [mem_homeWrite, mem_homeWrite, readPte, homeRead, mem_homeWrite, hread]

theorem passPage_leaves (p : BitVec 6) (hapart : g.at_ + 8 ≤ h.at_ ∨ h.at_ + 8 ≤ g.at_) :
    MemoryKept s (passPage s p g h pa) (fun y => within g.at_ 8 y ∨ within h.at_ 8 y) ∧
    bytesBv 64 (memBytes (passPage s p g h pa).mem g.at_ 8) = execLeaf g.pte ∧
    bytesBv 64 (memBytes (passPage s p g h pa).mem h.at_ 8) = execLeaf (bytesBv 64 (memBytes s.mem h.at_ 8)) := by
  have hlen : ∀ x : Word, (bvBytes x).length = 8 := fun x => bvBytes_length x
  refine ⟨fun a ha => ?_, ?_, ?_⟩
  · rw [not_or] at ha
    obtain ⟨hg, hh⟩ := ha
    rw [passPage_mem p hapart, memByte_memPut_of_not (by rw [hlen]; exact hh), memByte_memPut_of_not (by rw [hlen]; exact hg)]
  · have hkept : memBytes (passPage s p g h pa).mem g.at_ 8 = memBytes (memPut s.mem g.at_ (bvBytes (execLeaf g.pte))) g.at_ 8 := by
      rw [passPage_mem p hapart]
      refine memBytes_congr fun a ha hb => memByte_memPut_of_not ?_
      rw [hlen]
      omega
    have hput := memBytes_memPut s.mem g.at_ (bvBytes (execLeaf g.pte))
    rw [hlen] at hput
    rw [hkept, hput, bytesBv_bvBytes_word]
  · have hput := memBytes_memPut (memPut s.mem g.at_ (bvBytes (execLeaf g.pte))) h.at_ (bvBytes (execLeaf (bytesBv 64 (memBytes s.mem h.at_ 8))))
    rw [hlen] at hput
    rw [passPage_mem p hapart, hput, bytesBv_bvBytes_word]

theorem passPage_frame (p : BitVec 6) : (passPage s p g h pa).scans = s.scans ∧ (passPage s p g h pa).shootdowns = s.shootdowns ∧
    ((passPage s p g h pa).part p).scan = insNat (pa / 65536) (s.part p).scan := by
  have hhomes := (onlyHomes_homeWrite s none g.at_ (bvBytes (execLeaf g.pte)) false).trans (onlyHomes_homeWrite
    (homeWrite s none g.at_ (bvBytes (execLeaf g.pte)) false) none h.at_
    (bvBytes (execLeaf (readPte (homeWrite s none g.at_ (bvBytes (execLeaf g.pte)) false) h.at_))) false)
  refine ⟨hhomes.scans, hhomes.shootdowns, ?_⟩
  unfold passPage
  dsimp only
  rw [part_updPart_same, hhomes.part]

end

/-- Settles O49: a shootdown's request and arrivals, the end of a scan, and a narrowed mask. -/
theorem shootdownsAndScans : Obligations.ShootdownsAndScans := by
  unfold Obligations.ShootdownsAndScans
  intro s p i ask
  refine ⟨rfl, ?arrival, ?scan, ?narrow⟩
  case arrival =>
    intro x hx hdie hbar hbusy
    have hrun := shootdownArrival_runs hx hdie hbar hbusy
    obtain ⟨htlb, hmem, hshoot, hscan, hblocks⟩ := dieArrived_spec s x s.arg.num
    have hgone : ∀ e, e ∈ s.tlb.filter (fun e => !(dieOfTlb e.unit == s.arg.num && entryIn x e)) ↔
        e ∈ s.tlb ∧ ¬ (dieOfTlb e.unit = s.arg.num ∧ entryIn x e = true) := fun e => by
      simp only [List.mem_filter, Bool.not_eq_true', Bool.and_eq_false_iff, beq_eq_false_iff_ne, not_and_or, ne_eq, Bool.not_eq_true]
    have hclear : ∀ f, f ∈ (s.part x.part).scan.filter (fun f => !x.frames.contains f) ↔ f ∈ (s.part x.part).scan ∧ f ∉ x.frames := fun f => by
      simp [List.mem_filter]
    by_cases hlast : ∀ d ∈ x.dies, d = s.arg.num
    · rw [if_pos (filter_dies_isEmpty.2 hlast)] at hrun
      obtain ⟨htlb', hmem', hshoot', hscan'⟩ := finish_frame
        { dieArrived s x s.arg.num with shootdowns := dropNth (dieArrived s x s.arg.num).shootdowns s.arg.idx } x
      refine ⟨_, hrun, fun e => ?_, fun f => ?_, hmem'.trans hmem, fun ⟨d, hd, hne⟩ => absurd (hlast d hd) hne, fun _ => ⟨?_, ?_⟩⟩
      · rw [htlb']
        exact htlb ▸ hgone e
      · rw [hscan']
        change f ∈ ((dieArrived s x s.arg.num).part x.part).scan ↔ _
        rw [hscan]
        exact hclear f
      · rw [hshoot', ← dropNth_eq_eraseIdx, hshoot]
      · refine ⟨fun v hfin => ?_, fun m hfin => ?_, fun va hfin => ?_, fun e hfin => ?_⟩
        · rw [finish_of_ylReturn hfin, part_ylReturn]
        · rw [finish_of_mask hfin, part_updPart_same]
        · rw [finish_of_free hfin, part_ylReturn_updPart]
          exact ⟨rfl, congrArg (List.filter _) hblocks⟩
        · rw [finish_of_table hfin, part_updPart_same]
          rfl
    · rw [if_neg (fun h => hlast (filter_dies_isEmpty.1 h))] at hrun
      refine ⟨_, hrun, fun e => ?_, fun f => ?_, hmem, fun _ => ?_, fun h => absurd h hlast⟩
      · exact htlb ▸ hgone e
      · change f ∈ ((dieArrived s x s.arg.num).part x.part).scan ↔ _
        rw [hscan]
        exact hclear f
      · rw [hshoot]
        rfl
  case scan =>
    intro c g h pa hc hleaves hframe hwrites
    have hrun := scanComplete_runs hc hleaves hframe hwrites
    refine ⟨fun j why hpage => ?_, fun hpage hapart => ?_⟩
    · rw [hpage] at hrun
      exact ⟨_, hrun, dropNth_eq_eraseIdx .., rfl, part_scanFail ..⟩
    · rw [hpage] at hrun
      obtain ⟨hscans, hshoot, hscan⟩ := passPage_frame (s := { s with scans := dropNth s.scans i }) (g := g) (h := h) (pa := pa) c.part
      obtain ⟨hkept, hg, hh⟩ := passPage_leaves (s := { s with scans := dropNth s.scans i }) (g := g) (h := h) (pa := pa) c.part hapart
      refine ⟨_, hrun, hscans.trans (dropNth_eq_eraseIdx ..), fun f => ?_, ?_, hkept, hg, hh⟩
      · change f ∈ ((passPage { s with scans := dropNth s.scans i } c.part g h pa).part c.part).scan ↔ _
        rw [hscan]
        exact mem_insNat
      · exact congrArg (· ++ [_]) hshoot
  case narrow =>
    intro hactive hbits hnew hexmap htable
    change execFeatureMaskNarrow s = _
    unfold execFeatureMaskNarrow
    dsimp only
    rw [hactive, hexmap, htable, bne_eq_false_iff_eq.2 hbits, beq_eq_false_iff_ne.2 hnew]
    rfl

end Sys2Proof.Machine
end

section
/-! PROOFS. The calls of the control program that map pages, make join objects and launch (O51). -/

set_option Elab.async false

namespace Sys2Proof.Machine

open Sys2Proof

/-! ### Queue rings (spec/07_queues_and_scheduling.md R123) -/

theorem nth_setNth_same {α : Type} (d : α) {l : List α} {i : Nat} (h : i < l.length) (v : α) : nth d (setNth l i v) i = v := by
  induction l generalizing i with
  | nil => exact absurd h (Nat.not_lt_zero _)
  | cons a l ih =>
    cases i with
    | zero => rfl
    | succ i => exact ih (Nat.lt_of_succ_lt_succ h)

theorem onlyHomes_putEntry (s : State) (p : BitVec 6) (l : Nat) (i : BitVec 32) (r : Rec64) : OnlyHomes s (putEntry s p l i r) :=
  (onlyHomes_hold ..).trans (onlyHomes_homeWrite ..)

theorem mem_hold (s : State) (b : Bool) : (s.hold b).mem = s.mem := by
  unfold State.hold
  split <;> rfl

theorem mem_putEntry (s : State) (p : BitVec 6) (l : Nat) (i : BitVec 32) (r : Rec64) :
    (putEntry s p l i r).mem = memPut s.mem ((s.part p).entryPa l i) (bvBytes r) := by
  unfold putEntry
  dsimp only
  rw [mem_homeWrite, mem_hold]

/-- A record that joins a queue at its tail. -/
theorem pushTail_spec (s : State) (p : BitVec 6) (l : Nat) (r : Rec64) :
    (pushTail s p l r).mem = memPut s.mem ((s.part p).entryPa l ((s.part p).tail l)) (bvBytes r) ∧
    (pushTail s p l r).part p = { s.part p with tails := setNth (s.part p).tails l ((s.part p).tail l + 1#32) } := by
  unfold pushTail setTail
  refine ⟨mem_putEntry .., ?_⟩
  rw [part_updPart_same, (onlyHomes_putEntry ..).part]

theorem memBytes_pushTail (s : State) (p : BitVec 6) (l : Nat) (r : Rec64) :
    bytesBv 512 (memBytes (pushTail s p l r).mem ((s.part p).entryPa l ((s.part p).tail l)) 64) = r := by
  obtain ⟨hmem, -⟩ := pushTail_spec s p l r
  have hput := memBytes_memPut s.mem ((s.part p).entryPa l ((s.part p).tail l)) (bvBytes r)
  rw [bvBytes_length] at hput
  rw [hmem, hput, bytesBv_bvBytes (by decide)]

theorem noteJoin_zero (s : State) (p : BitVec 6) : noteJoin s p 0 = s := if_pos rfl

theorem enqueue_eq {s : State} {p : BitVec 6} {l : Nat} {r : Rec64} (hroom : ringRoom (s.part p) l = true) (hjoin : recJoin r = 0#52) :
    enqueue s p l r = some (pushTail s p l (recSetPrio r (BitVec.ofNat 2 l))) := by
  unfold enqueue
  rw [if_pos hroom, hjoin, BitVec.toNat_ofNat, Nat.zero_mod, noteJoin_zero]

/-! ### Page calls (spec/19_binary_interface.md R362) -/

section

variable {s s1 : State}

theorem ylMap_badRange (hactive : (s.part s.arg.p).active = true) (hrange : pageRange s.arg.a0 s.arg.a1 = false) :
    exec .ylMap s = .next (ylReturn s s.arg.p eInval) := by
  change execYlMap s = _
  unfold execYlMap
  dsimp only
  rw [if_neg (not_idle hactive), hrange]
  rfl

theorem ylUnmap_badRange (hactive : (s.part s.arg.p).active = true) (hrange : pageRange s.arg.a0 s.arg.a1 = false) :
    exec .ylUnmap s = .next (ylReturn s s.arg.p eInval) := by
  change execYlUnmap s = _
  unfold execYlUnmap
  dsimp only
  rw [if_neg (not_idle hactive), hrange]
  rfl

theorem ylMap_maps (hactive : (s.part s.arg.p).active = true) (hrange : pageRange s.arg.a0 s.arg.a1 = true)
    (hpending : rangePending s s.arg.p s.arg.a0.toNat s.arg.a1.toNat = false) (hzero : slice s.arg.a2 4 60 = 0#60)
    (halign : s.arg.a3.toNat % 65536 = 0) (hhigh : s.arg.a3.toNat + s.arg.a1.toNat ≤ 2 ^ 52) (hpeer : s.arg.a4.toNat ≤ 1023)
    (hkind : slice s.arg.a2 2 2 = 3#2 ∨ s.arg.a4 = 0#64)
    (hmap : mapPages s.arg.p (fun k => mkLeaf (slice s.arg.a2 2 2) (s.arg.a2.getLsbD 1) (s.arg.a2.getLsbD 0) (s.arg.a3.toNat + 65536 * k)
      (s.arg.a4.setWidth 10)) s.arg.a0.toNat (s.arg.a1.toNat / 65536) 0 s = .ok s1) :
    exec .ylMap s = .next (startShootdown s1 s.arg.p s.arg.a0.toNat (s.arg.a0.toNat + s.arg.a1.toNat) 0#64 [] (.ylReturn 0#64)) := by
  have hok : (!pageRange s.arg.a0 s.arg.a1 || slice s.arg.a2 4 60 != 0#60 || s.arg.a3.toNat % 65536 != 0 ||
      decide (2 ^ 52 < s.arg.a3.toNat + s.arg.a1.toNat) || decide (1023 < s.arg.a4.toNat) ||
      (slice s.arg.a2 2 2 != 3#2 && s.arg.a4 != 0#64)) = false := by
    have hkind' : (slice s.arg.a2 2 2 != 3#2 && s.arg.a4 != 0#64) = false := by
      rcases hkind with h | h <;> rw [h]
      · rfl
      · exact Bool.and_false _
    rw [hrange, hzero, halign, decide_eq_false (Nat.not_lt.2 hhigh), decide_eq_false (Nat.not_lt.2 hpeer), hkind']
    rfl
  change execYlMap s = _
  unfold execYlMap
  dsimp only
  rw [if_neg (not_idle hactive), hok, hpending, hmap]
  rfl

theorem ylUnmap_unmaps (hactive : (s.part s.arg.p).active = true) (hrange : pageRange s.arg.a0 s.arg.a1 = true)
    (hpending : rangePending s s.arg.p s.arg.a0.toNat s.arg.a1.toNat = false) :
    exec .ylUnmap s = .next (startShootdown (unmapPages s.arg.p s.arg.a0.toNat (s.arg.a1.toNat / 65536) s) s.arg.p s.arg.a0.toNat
      (s.arg.a0.toNat + s.arg.a1.toNat) 0#64 (scannedIn s s.arg.p s.arg.a0.toNat (s.arg.a1.toNat / 65536)) (.ylReturn 0#64)) := by
  change execYlUnmap s = _
  unfold execYlUnmap
  dsimp only
  rw [if_neg (not_idle hactive), hrange, hpending]
  rfl

theorem ylExmap_scans {g h : Leaf} {pa : Nat} (hactive : (s.part s.arg.p).active = true) (hrange : pageRange s.arg.a0 s.arg.a1 = true)
    (hpending : rangePending s s.arg.p s.arg.a0.toNat s.arg.a1.toNat = false) (hmask : maskPending s s.arg.p = false)
    (hexmap : exmapPending s s.arg.p = false) (hleaves : scanLeaves s s.arg.p s.arg.a0.toNat = some (g, h, pa)) :
    exec .ylExmap s = .next { s with scans := s.scans ++
      [⟨s.arg.p, s.arg.a0.toNat, pa / 65536, (s.part s.arg.p).feature, s.arg.a0.toNat, s.arg.a0.toNat + s.arg.a1.toNat⟩] } := by
  change execYlExmap s = _
  unfold execYlExmap
  dsimp only
  rw [hactive, hmask, hexmap, hrange, hpending, startScan, hleaves]
  rfl

/-! ### Blocks (R159) -/

theorem ylMemAlloc_full (hactive : (s.part s.arg.p).active = true) (hlow : 0 < s.arg.a0.toNat) (hsize : s.arg.a0.toNat ≤ 65536)
    (hkind : s.arg.a1.toNat ≤ 1) (hflag : s.arg.flag = true) : exec .ylMemAlloc s = .next (ylReturn s s.arg.p eNoMem) := by
  have hok : ¬ (s.arg.a0 = 0#64 ∨ 1 < s.arg.a1.toNat ∨ 2 ^ 48 < s.arg.a0.toNat) := by
    rintro (h | h | h)
    · rw [h] at hlow
      exact absurd hlow (by decide)
    · omega
    · omega
  change execYlMemAlloc s = _
  unfold execYlMemAlloc
  dsimp only
  rw [if_neg (not_idle hactive), if_neg hok, if_pos hflag]

theorem ylMemAlloc_maps (hactive : (s.part s.arg.p).active = true) (hlow : 0 < s.arg.a0.toNat) (hsize : s.arg.a0.toNat ≤ 65536)
    (hkind : s.arg.a1.toNat ≤ 1) (hflag : s.arg.flag = false) (hrange : pageRange s.arg.a2 65536#64 = true)
    (hpending : rangePending s s.arg.p s.arg.a2.toNat 65536 = false) (halign : s.arg.a3.toNat % 65536 = 0)
    (hfree : pageFrame s s.arg.p s.arg.a2.toNat = none) (hpage : (iaPage s (s.part s.arg.p) s.arg.a3.toNat (s.arg.a1.setWidth 2)).isSome = true)
    (hblocks : ∀ b ∈ (s.part s.arg.p).blocks, rangesMeet b.ia b.size s.arg.a3.toNat 65536 = false)
    (hheap : rangesMeet ((s.part s.arg.p).hbmr.headD (0, 0)).1 ((s.part s.arg.p).brk - ((s.part s.arg.p).hbmr.headD (0, 0)).1)
      s.arg.a3.toNat 65536 = false)
    (hmap : mapPages s.arg.p (fun k => mkLeaf (s.arg.a1.setWidth 2) true true (s.arg.a3.toNat + 65536 * k) 0#10) s.arg.a2.toNat 1 0 s = .ok s1) :
    exec .ylMemAlloc s = .next (ylReturn (s1.updPart s.arg.p (fun q => { q with blocks := q.blocks ++ [⟨s.arg.a2.toNat, 65536, s.arg.a3.toNat⟩] }))
      s.arg.p s.arg.a2) := by
  have hok : ¬ (s.arg.a0 = 0#64 ∨ 1 < s.arg.a1.toNat ∨ 2 ^ 48 < s.arg.a0.toNat) := by
    rintro (h | h | h)
    · rw [h] at hlow
      exact absurd hlow (by decide)
    · omega
    · omega
  have hpages : (s.arg.a0.toNat + 65535) / 65536 = 1 := by omega
  have hmeet : (s.part s.arg.p).blocks.all (fun b => !rangesMeet b.ia b.size s.arg.a3.toNat 65536) = true :=
    List.all_eq_true.2 fun b hb => by rw [hblocks b hb]; rfl
  change execYlMemAlloc s = _
  unfold execYlMemAlloc
  dsimp only
  rw [if_neg (not_idle hactive), if_neg hok, hflag, if_neg Bool.false_ne_true, hpages]
  simp only [Nat.mul_one, List.range_one, List.all_cons, List.all_nil, Nat.mul_zero, Nat.add_zero, Bool.and_true]
  rw [hrange, hpending, halign, hfree, hpage, hmeet, hheap, hmap]
  rfl

theorem ylMemFree_frees {b : Block} {rest : List Block} (hactive : (s.part s.arg.p).active = true)
    (hblocks : (s.part s.arg.p).blocks = b :: rest) (hva : b.va = s.arg.a0.toNat) (hpending : rangePending s s.arg.p b.va b.size = false) :
    exec .ylMemFree s = .next (startShootdown (unmapPages s.arg.p b.va (b.size / 65536) s) s.arg.p b.va (b.va + b.size) 0#64
      (scannedIn s s.arg.p b.va (b.size / 65536)) (.free b.va)) := by
  change execYlMemFree s = _
  unfold execYlMemFree
  dsimp only
  rw [if_neg (not_idle hactive), hblocks, List.find?_cons_of_pos (by rw [hva]; exact beq_self_eq_true _)]
  dsimp only
  rw [hpending]
  rfl

/-! ### Join objects (spec/10_descriptor_tables.md R179) -/

/-- A new join object without a continuation. -/
def newJoin (count level : Word) : BitVec 1024 :=
  0#512 ++ 0#448 ++ (0x4A#8 ++ 0#21 ++ 0#1 ++ level.setWidth 2 ++ count.setWidth 32 : Word)

theorem newJoin_toNat {count level : Word} (hcount : count.toNat < 2 ^ 32) (hlevel : level.toNat < 4) :
    (newJoin count level).toNat = count.toNat + 2 ^ 32 * level.toNat + 2 ^ 56 * 0x4A := by
  unfold newJoin
  simp only [Laws.toNat_append_eq_add, BitVec.toNat_ofNat, BitVec.toNat_setWidth, Nat.zero_mod, Nat.zero_mul, Nat.zero_add]
  rw [Nat.mod_eq_of_lt hcount, Nat.mod_eq_of_lt hlevel]
  omega

theorem ylJoinCreate_makes {pa : Nat} {comp : Bool} (hactive : (s.part s.arg.p).active = true) (halign : s.arg.a0.toNat % 128 = 0)
    (hcount : s.arg.a1.toNat < 2 ^ 32) (hlevel : s.arg.a2.toNat < 4) (hplain : s.arg.a3 = 0#64)
    (hplace : ylPlace s s.arg.p s.arg.a0 128 .write = .ok (pa, comp, s1)) :
    exec .ylJoinCreate s = .next (ylReturn (noteJoin (homeWrite s1 none pa (bvBytes (newJoin s.arg.a1 s.arg.a2)) comp) s.arg.p s.arg.a0.toNat)
      s.arg.p 0#64) := by
  have hok : ¬ (s.arg.a0.toNat % 128 ≠ 0 ∨ 2 ^ 32 ≤ s.arg.a1.toNat ∨ 4 ≤ s.arg.a2.toNat ∨ s.arg.a3.toNat % 64 ≠ 0) := by
    rw [hplain, BitVec.toNat_ofNat]
    omega
  change execYlJoinCreate s = _
  unfold execYlJoinCreate
  dsimp only
  rw [if_neg (not_idle hactive), if_neg hok, if_pos hplain]
  dsimp only
  rw [if_neg (fun h => h.1 hplain), hplace, hplain]
  rfl

/-! ### Launches (R181) -/

/-- The first gang of a launch without a join joins its queue. -/
theorem fillQueue_first {p : BitVec 6} {lid : BitVec 32} {i n : Nat} {r : BitVec 1024} (hlaunches : (s.part p).launches = [⟨lid, i, r, 0⟩])
    (hone : lrGangs r = 1) (hjoin : lrJoin r = 0#64) (hroom : ringRoom (s.part p) (lrPrio r).toNat = true) :
    fillQueue p lid (n + 2) s = (pushTail s p (lrPrio r).toNat (recSetPrio (launchRecord r lid 0) (lrPrio r))).updPart p
      (fun q => { q with launches := q.launches.map (fun y => if y.lid = lid then { y with next := y.next + 1 } else y) }) := by
  have hrecJoin : recJoin (launchRecord r lid 0) = 0#52 := by
    unfold recJoin launchRecord
    dsimp only
    simp (disch := decide) only [slice_append_low, slice_append_high]
    rw [hjoin]
    decide
  have hpushed : ((pushTail s p (lrPrio r).toNat (recSetPrio (launchRecord r lid 0) (lrPrio r))).updPart p
      (fun q => { q with launches := q.launches.map (fun y => if y.lid = lid then { y with next := y.next + 1 } else y) })).part p =
      { s.part p with
        tails := setNth (s.part p).tails (lrPrio r).toNat ((s.part p).tail (lrPrio r).toNat + 1#32)
        launches := [⟨lid, i, r, 1⟩] } := by
    obtain ⟨-, hpart⟩ := pushTail_spec s p (lrPrio r).toNat (recSetPrio (launchRecord r lid 0) (lrPrio r))
    rw [part_updPart_same, hpart, hlaunches, List.map_cons, if_pos rfl]
    rfl
  rw [fillQueue, hlaunches, List.find?_cons_of_pos (p := fun x : Launch => x.lid == lid) (beq_self_eq_true lid)]
  dsimp only
  rw [hone, if_neg (by decide), enqueue_eq hroom hrecJoin, BitVec.ofNat_toNat, BitVec.setWidth_eq]
  dsimp only
  rw [fillQueue, hpushed]
  dsimp only
  rw [List.find?_cons_of_pos (p := fun x : Launch => x.lid == lid) (beq_self_eq_true lid)]
  dsimp only
  rw [hone, if_pos (Nat.le_refl 1)]

theorem goOnLaunch_first {p : BitVec 6} {lid : BitVec 32} {i : Nat} {r : BitVec 1024} (hlaunches : (s.part p).launches = [⟨lid, i, r, 0⟩])
    (hone : lrGangs r = 1) (hjoin : lrJoin r = 0#64) (hroom : ringRoom (s.part p) (lrPrio r).toNat = true) :
    (goOnLaunch s p lid).mem = (pushTail s p (lrPrio r).toNat (recSetPrio (launchRecord r lid 0) (lrPrio r))).mem ∧
    (goOnLaunch s p lid).part p = { s.part p with
      tails := setNth (s.part p).tails (lrPrio r).toNat ((s.part p).tail (lrPrio r).toNat + 1#32)
      launches := [⟨lid, i, r, 1⟩]
      a0 := zext64 lid } := by
  obtain ⟨u, hu⟩ : ∃ u, u = (pushTail s p (lrPrio r).toNat (recSetPrio (launchRecord r lid 0) (lrPrio r))).updPart p
      (fun q => { q with launches := q.launches.map (fun y => if y.lid = lid then { y with next := y.next + 1 } else y) }) := ⟨_, rfl⟩
  have hpart : u.part p = { s.part p with
      tails := setNth (s.part p).tails (lrPrio r).toNat ((s.part p).tail (lrPrio r).toNat + 1#32)
      launches := [⟨lid, i, r, 1⟩] } := by
    obtain ⟨-, hpart⟩ := pushTail_spec s p (lrPrio r).toNat (recSetPrio (launchRecord r lid 0) (lrPrio r))
    rw [hu, part_updPart_same, hpart, hlaunches, List.map_cons, if_pos rfl]
    rfl
  have hgo : goOnLaunch s p lid = ylReturn u p (zext64 lid) := by
    unfold goOnLaunch
    rw [fillQueue_first (n := 65534) hlaunches hone hjoin hroom, ← hu]
    dsimp only
    rw [hpart]
    dsimp only
    rw [List.find?_cons_of_pos (p := fun x : Launch => x.lid == lid) (beq_self_eq_true lid)]
    dsimp only
    rw [hone, if_pos (Nat.le_refl 1)]
  rw [hgo, part_ylReturn, hpart]
  exact ⟨by rw [hu]; rfl, rfl⟩

/-- The state in which a launch has taken its slot of the launch table. -/
def launchTaken (s s1 : State) (lid : BitVec 32) (r : BitVec 1024) : State :=
  let at_ := (s.part s.arg.p).launchTab + 32 * s.arg.num
  let entry : BitVec 256 := 0#128 ++ 0#15 ++ 1#1 ++ (bytesBv 16 (memBytes s1.mem (at_ + 12) 2) : BitVec 16) ++ lrFtlen r ++ lrFtbase r
  (homeWrite s1 none at_ (bvBytes entry) false).updPart s.arg.p (fun q => { q with launches := q.launches ++ [⟨lid, s.arg.idx, r, 0⟩] })

theorem ylLaunch_takes {bs : List Byte} (hactive : (s.part s.arg.p).active = true) (hflag : s.arg.flag = false)
    (halign : s.arg.a0.toNat % 64 = 0) (hread : ylRead s.arg.p 2 s.arg.a0.toNat 128 s = .ok (bs, s1))
    (hok : launchOk (s.part s.arg.p) (bytesBv 1024 bs) = true) (hlaunches : (s.part s.arg.p).launches = []) (hnum : s.arg.num < 65536) :
    let lid : BitVec 32 := (bytesBv 16 (memBytes s1.mem ((s.part s.arg.p).launchTab + 32 * s.arg.num + 12) 2) : BitVec 16) ++ BitVec.ofNat 16 s.arg.num
    exec .ylLaunch s = .next (goOnLaunch (launchTaken s s1 lid (bytesBv 1024 bs)) s.arg.p lid) := by
  intro lid
  have hfree : launchSlotFree (s.part s.arg.p) s.arg.num = true := by
    unfold launchSlotFree
    rw [hlaunches]
    rfl
  change execYlLaunch s = _
  unfold execYlLaunch
  dsimp only
  rw [if_neg (not_idle hactive), hflag, if_neg Bool.false_ne_true, if_neg (not_not.2 halign), hread]
  dsimp only
  have hpick : (if s.arg.num < 65536 ∧ launchSlotFree (s.part s.arg.p) s.arg.num = true then some s.arg.num
      else firstBelow (launchSlotFree (s.part s.arg.p)) 4096) = some s.arg.num := if_pos ⟨hnum, hfree⟩
  rw [hok, hpick, hlaunches]
  rfl

end

/-- Settles O51: the calls that map pages, make join objects and launch, each by the state that its helper leaves. -/
theorem yalushMemory : Obligations.YalushMemory := by
  unfold Obligations.YalushMemory
  intro s s1 pa comp hactive a p q n kind down lo
  refine ⟨fun hrange => ⟨returns_of_exec (ylMap_badRange hactive hrange), returns_of_exec (ylUnmap_badRange hactive hrange)⟩,
    fun hrange hpending => ⟨?map, ylUnmap_unmaps hactive hrange hpending, ?exmap⟩, fun hlow hsize hkind => ⟨?full, ?alloc⟩, ?free, ?join, ?launch⟩
  case map =>
    exact fun hzero halign hhigh hpeer hkind hmap => ylMap_maps hactive hrange hpending hzero halign hhigh hpeer hkind hmap
  case exmap => exact fun g h hmask hexmap hleaves => ylExmap_scans hactive hrange hpending hmask hexmap hleaves
  case full => exact fun hflag => returns_of_exec (ylMemAlloc_full hactive hlow hsize hkind hflag)
  case alloc =>
    intro hflag hrange hpending halign hfree hpage hblocks hheap hmap
    exact ⟨_, ylMemAlloc_maps hactive hlow hsize hkind hflag hrange hpending halign hfree hpage hblocks hheap hmap,
      onlyPartition_ylReturn_updPart s1 p _ _, part_ylReturn_updPart s1 p _ _⟩
  case free =>
    intro b rest hblocks hva hpending u
    refine ⟨_, ylMemFree_frees hactive hblocks hva hpending, rfl, ?_, rfl⟩
    rw [← hva]
    rfl
  case join =>
    intro halign hcount hlevel hplain hplace
    have hmem : (homeWrite s1 none pa (bvBytes (newJoin a.a1 a.a2)) comp).mem =
        memPut s1.mem pa (natBytes 128 (a.a1.toNat + 2 ^ 32 * a.a2.toNat + 2 ^ 56 * 0x4A)) := by
      rw [mem_homeWrite, bvBytes_eq_natBytes (k := 128) _ (by decide) (newJoin_toNat hcount hlevel)]
    refine ⟨_, bvBytes (newJoin a.a1 a.a2), ylJoinCreate_makes hactive halign hcount hlevel hplain hplace, rfl, ?_, bvBytes_length _,
      memoryKept_of_memPut hmem (natBytes_length ..), holds_of_memPut hmem⟩
    exact congrArg Partition.a0 (part_ylReturn _ p _)
  case launch =>
    intro r bs hflag halign hread hr hok hone hjoin hlaunches hlaunches1 hjoins hnum hroom htails lid l at_
    subst hr
    have hpart : (launchTaken s s1 lid (bytesBv 1024 bs)).part p = { s1.part p with launches := [⟨lid, a.idx, bytesBv 1024 bs, 0⟩] } := by
      unfold launchTaken
      dsimp only
      rw [part_updPart_same, (onlyHomes_homeWrite ..).part, hlaunches1]
      rfl
    have hroom' : ringRoom ((launchTaken s s1 lid (bytesBv 1024 bs)).part p) l = true := by
      rw [hpart]
      exact hroom
    obtain ⟨hmem, hpart'⟩ := goOnLaunch_first (s := launchTaken s s1 lid (bytesBv 1024 bs)) (p := p) (lid := lid) (i := a.idx)
      (r := bytesBv 1024 bs) (by rw [hpart]) hone hjoin hroom'
    refine ⟨_, ylLaunch_takes hactive hflag halign hread hok hlaunches hnum, ?_, ?_, ?_, ?_⟩
    · exact congrArg Partition.a0 hpart'
    · exact congrArg Partition.launches hpart'
    · rw [hpart', hpart]
      exact nth_setNth_same 0#32 htails _
    · have hbytes := memBytes_pushTail (launchTaken s s1 lid (bytesBv 1024 bs)) p l (recSetPrio (launchRecord (bytesBv 1024 bs) lid 0) (lrPrio (bytesBv 1024 bs)))
      rw [hpart] at hbytes
      rw [hmem]
      exact hbytes

end Sys2Proof.Machine
end

section
/-! PROOFS. The watchdog, fault records and resumes (O46). -/

set_option Elab.async false

namespace Sys2Proof.Machine

open Sys2Proof

/-! ### Watchdog (spec/09_translation_and_faults.md R161) -/

section

variable {s : State} {k : Nat}

/-- A strand that waits for nothing gives up no tags. -/
theorem abandonWait_onlySlot (hout : (s.strand k).out = []) : OnlySlot s (abandonWait s k) k ∧
    (abandonWait s k).strand k = waitAbandoned (s.strand k) := by
  have h : abandonWait s k = s.updSlot k waitAbandoned := by
    have hgone : (s.strand k).out.filter isBwait = [] := by rw [hout]; rfl
    unfold abandonWait State.updSlot waitAbandoned
    dsimp only
    rw [hgone]
    rfl
  rw [h]
  exact ⟨onlySlot_updSlot s k _, strand_updSlot_self s k _⟩

theorem OnlySlot.trans {s t u : State} (h : OnlySlot s t k) (g : OnlySlot t u k) : OnlySlot s u k :=
  ⟨h.1.trans g.1, fun j hj => (g.2 j hj).trans (h.2 j hj)⟩

theorem watchdog_parks (hslot : s.arg.slot = k) (hrun : (s.strand k).phase = .running) (hlimit : (s.strand k).wdlim ≠ 0#64)
    (hlate : (s.strand k).wdlim.toNat ≤ (s.strand k).runtk.toNat) (hout : (s.strand k).out = []) :
    exec .watchdog s = .next (raiseAt (abandonWait s k) k (s.strand k).pc (Trap.plain .watchdog)) := by
  have hdue : watchdogDue (s.strand k) = true := by
    unfold watchdogDue
    rw [bne_iff_ne.2 hlimit, decide_eq_true hlate]
    rfl
  change execWatchdog s = _
  unfold execWatchdog
  rw [hslot]
  dsimp only
  rw [hrun, hdue, hout]
  rfl

/-! ### Fault records (R160, R163) -/

theorem faultRecordAppend_runs {r : FaultRecord} (hslot : s.arg.slot = k) (hk : k ≠ 1152) (hfault : (s.strand k).fault = some r)
    (hreported : (s.strand k).reported = false) (hroom : r.hyp = true ∨ faultRoom s (s.strand k).part = true) :
    exec .faultRecordAppend s = .next (pushFault (s.setStrand k { s.strand k with reported := true }) (s.strand k).part r) := by
  change execFaultRecordAppend s = _
  unfold execFaultRecordAppend
  rw [hslot, if_neg hk]
  dsimp only
  rw [hfault]
  dsimp only
  rw [hreported, if_neg]
  rcases hroom with h | h <;> rw [h]
  · simp
  · simp

/-- A record of the partition's own joins its fault queue. -/
theorem pushFault_spec (s : State) (p : BitVec 6) {r : FaultRecord} (hhyp : r.hyp = false) :
    let at_ := (s.part p).faultQ + 32 * ((s.part p).faultTail % 2 ^ ((s.part p).faultLog + 8))
    ((pushFault s p r).part p).faults = (s.part p).faults ++ [r] ∧ (pushFault s p r).hypFaults = s.hypFaults ∧
    (∀ j, ∃ ls, (pushFault s p r).strand j = { s.strand j with links := ls }) ∧
    (pushFault s p r).mem = if inHbm at_ = true then memPut s.mem at_ (bvBytes (faultBytes r)) else s.mem := by
  intro at_
  have hhomes : OnlyHomes s (if inHbm at_ then homeWrite s none at_ (bvBytes (faultBytes r)) false else s) := by
    split
    · exact onlyHomes_homeWrite ..
    · exact OnlyHomes.refl s
  have hpush : pushFault s p r = (if inHbm at_ then homeWrite s none at_ (bvBytes (faultBytes r)) false else s).updPart p
      (fun q => { q with faults := q.faults ++ [r], faultTail := q.faultTail + 1 }) := by
    unfold pushFault
    rw [hhyp]
    rfl
  rw [hpush]
  refine ⟨?_, (congrArg State.hypFaults hhomes.1 :), fun j => ?_, ?_⟩
  · rw [part_updPart_same, hhomes.part]
  · obtain ⟨ls, hls, -⟩ := hhomes.2.1 j
    exact ⟨ls, hls⟩
  · change (if inHbm at_ then homeWrite s none at_ (bvBytes (faultBytes r)) false else s).mem = _
    split
    · exact mem_homeWrite ..
    · rfl

/-! ### The resume of a PARKED strand (R165, spec/19_binary_interface.md R361) -/

theorem resumePc_of_fault {t : Strand} {r : FaultRecord} (h : t.fault = some r) :
    resumePc t = if r.cls = .trap ∨ r.cls = .bkpt then t.pc + 4#64 else t.pc := by
  unfold resumePc
  rw [h]

theorem resumeSettled_spec (s : State) (k : Nat) (r : FaultRecord) :
    (resumeSettled s k r).strand k = (resumeParked s k).strand k ∧ (resumeSettled s k r).mem = s.mem ∧
    r ∉ ((resumeSettled s k r).part (s.strand k).part).faults := by
  refine ⟨rfl, rfl, ?_⟩
  have hpart : (resumeSettled s k r).part (s.strand k).part =
      ((resumeParked s k).updPart (s.strand k).part (fun q => { q with faults := q.faults.filter (fun x => x != r) })).part (s.strand k).part := rfl
  rw [hpart, part_updPart_same]
  simp [List.mem_filter]

theorem yalushResume_service {r : FaultRecord} (hslot : s.arg.slot = k) (hfault : (s.strand k).fault = some r)
    (hreported : (s.strand k).reported = true) (hparked : (s.strand k).phase = .parked) (hcls : r.cls = .trap) (hlow : r.index.toNat ≤ 0xFF)
    (h1 : r.index ≠ 1#32) (h2 : r.index ≠ 2#32) :
    exec .yalushResume s = .next ((resumeSettled s k r).updSlot k (fun u => u.setS 1#5 eNoSys)) := by
  have hresult : trapResult s k r.index.toNat = eNoSys := if_pos fun h => h1 (BitVec.eq_of_toNat_eq h)
  change execYalushResume s = _
  unfold execYalushResume
  rw [hslot]
  dsimp only
  rw [hfault]
  dsimp only
  rw [if_neg (by rw [hparked, hreported]; decide), if_pos ⟨hcls, hlow⟩, if_neg h2, hresult]

theorem yalushResume_policy {r : FaultRecord} (hslot : s.arg.slot = k) (hfault : (s.strand k).fault = some r)
    (hreported : (s.strand k).reported = true) (hparked : (s.strand k).phase = .parked) (htrap : r.cls ≠ .trap) (hscan : r.cls ≠ .scan)
    (hpolicy : policyOf (s.part (s.strand k).part) r.cls ≠ 0) : exec .yalushResume s = .next (resumeSettled s k r) := by
  have hrecheck : recheckDue s (s.strand k) r = false := by
    unfold recheckDue
    rw [beq_eq_false_iff_ne.2 hscan]
    rfl
  change execYalushResume s = _
  unfold execYalushResume
  rw [hslot]
  dsimp only
  rw [hfault]
  dsimp only
  rw [if_neg (by rw [hparked, hreported]; decide), if_neg (fun h => htrap h.1), hrecheck, if_neg Bool.false_ne_true, bne_iff_ne.2 hpolicy,
    Bool.or_true, if_pos rfl]

end

theorem resumeParked_pc {s : State} {k : Nat} {r : FaultRecord} (h : (s.strand k).fault = some r) :
    ((resumeParked s k).strand k).pc = if r.cls = .trap ∨ r.cls = .bkpt then (s.strand k).pc + 4#64 else (s.strand k).pc := by
  obtain ⟨-, hstrand⟩ := resume_spec s k
  rw [hstrand]
  exact resumePc_of_fault h

theorem resumeParked_running (s : State) (k : Nat) : ((resumeParked s k).strand k).phase = .running ∧
    ((resumeParked s k).strand k).fault = none ∧ ∀ x, ((resumeParked s k).strand k).getS x = (s.strand k).getS x := by
  obtain ⟨-, hstrand⟩ := resume_spec s k
  rw [hstrand]
  exact ⟨rfl, rfl, fun _ => rfl⟩

/-- Settles O46: the watchdog, the records of faults, and the resume of a PARKED strand. -/
theorem faultsSettled : Obligations.FaultsSettled := by
  unfold Obligations.FaultsSettled
  refine ⟨fun s => ?settle, fun s k => ?resume⟩
  case settle =>
    intro k u
    refine ⟨fun hrun hlimit hlate hout => ?watchdog, fun r hfault hreported hk => ⟨?own, ?hyp⟩, fun r hfault hreported hparked => ⟨?service, ?policy⟩⟩
    case watchdog =>
      obtain ⟨honly, hstrand⟩ := abandonWait_onlySlot hout
      have hraised : (raiseAt (abandonWait s k) k u.pc (Trap.plain .watchdog)).strand k = _ := strand_updSlot_self ..
      refine ⟨_, watchdog_parks rfl hrun hlimit hlate hout, honly.trans (onlySlot_updSlot ..), ?_⟩
      have hphase : (waitAbandoned (s.strand k)).phase = .running := hrun
      unfold SlotParked
      rw [hraised, hstrand]
      exact ⟨if_neg (by rw [hphase]; decide), rfl, fun _ => rfl, _, rfl, rfl, rfl, rfl⟩
    case own =>
      intro hhyp hroom
      have hrun := faultRecordAppend_runs rfl hk hfault hreported (.inr (decide_eq_true hroom))
      obtain ⟨hfaults, hhyps, hstrands, hmem⟩ := pushFault_spec (s.setStrand k { u with reported := true }) u.part hhyp
      refine ⟨_, hrun, hfaults, hhyps, ?_, ?_⟩
      · obtain ⟨ls, hls⟩ := hstrands k
        have hself : (s.setStrand k { u with reported := true }).strand k = { u with reported := true } := by rw [strand_setStrand, if_pos rfl]
        rw [hls, hself]
      · intro at_
        refine ⟨fun a ha => ?_, fun hin => ?_⟩
        · rw [hmem]
          split
          · exact memByte_memPut_of_not (by rw [bvBytes_length]; exact ha)
          · rfl
        · have hput := memBytes_memPut s.mem at_ (bvBytes (faultBytes r))
          rw [bvBytes_length] at hput
          rw [hmem.trans (if_pos hin)]
          exact (congrArg (bytesBv 256) hput).trans (bytesBv_bvBytes (by decide) _)
    case hyp =>
      intro hhyp
      rw [faultRecordAppend_runs rfl hk hfault hreported (.inl hhyp)]
      exact congrArg Host.Outcome.next (if_pos hhyp)
    case service =>
      intro hcls hlow h1 h2
      obtain ⟨hstrand, hmem, hgone⟩ := resumeSettled_spec s k r
      obtain ⟨hphase, hnone, hregs⟩ := resumeParked_running s k
      have hpc := resumeParked_pc hfault
      rw [if_pos (.inl hcls)] at hpc
      have hself : ((resumeSettled s k r).updSlot k (fun u => u.setS 1#5 eNoSys)).strand k = ((resumeParked s k).strand k).setS 1#5 eNoSys := by
        rw [strand_updSlot_self, hstrand]
      refine ⟨_, yalushResume_service rfl hfault hreported hparked hcls hlow h1 h2, ?_⟩
      rw [hself]
      refine ⟨hphase, hnone, hpc, ?_, fun x hx => ?_, hgone, hmem⟩
      · rw [getS_setS, if_pos ⟨rfl, by decide⟩]
        decide
      · rw [getS_setS, if_neg (fun h => hx h.1)]
        exact hregs x
    case policy =>
      intro htrap hbkpt hscan hpolicy
      obtain ⟨hstrand, hmem, hgone⟩ := resumeSettled_spec s k r
      obtain ⟨hphase, hnone, hregs⟩ := resumeParked_running s k
      have hpc := resumeParked_pc hfault
      rw [if_neg (fun h => h.elim htrap hbkpt)] at hpc
      refine ⟨_, yalushResume_policy rfl hfault hreported hparked htrap hscan hpolicy, ?_⟩
      rw [hstrand]
      exact ⟨hphase, hnone, hpc, hregs, hgone, hmem⟩
  case resume =>
    intro u v
    obtain ⟨⟨hkept, hothers⟩, hstrand⟩ := resume_spec s k
    refine ⟨hothers, hkept, ?_⟩
    have hpc : ∀ r, u.fault = some r → v.pc = if r.cls = .trap ∨ r.cls = .bkpt then u.pc + 4#64 else u.pc := fun r h => resumeParked_pc h
    have hv : v = _ := hstrand
    refine ⟨by rw [hv], by rw [hv], by rw [hv], hpc, ?_⟩
    rw [hv]
    exact ⟨fun _ => rfl, fun _ => rfl, fun _ => rfl, rfl, rfl, rfl, rfl, rfl, rfl, rfl⟩

end Sys2Proof.Machine
end

section
/-! PROOFS. Thermal registers, detected errors and self-tests (O47). -/

set_option Elab.async false

namespace Sys2Proof.Machine

open Sys2Proof

/-! ### Discarded row groups (spec/05_memories.md R83, R103): writes only take groups out of the list -/

def GroupsFall (s t : State) : Prop := ∀ g ∈ t.deadGroups, g ∈ s.deadGroups

theorem GroupsFall.refl (s : State) : GroupsFall s s := fun _ h => h

theorem GroupsFall.trans {s t u : State} (h : GroupsFall s t) (g : GroupsFall t u) : GroupsFall s u := fun x hx => h x (g x hx)

theorem deadGroups_breakLinks (s : State) (w : Option Nat) (pa n : Nat) : (breakLinks s w pa n).deadGroups = s.deadGroups := by
  unfold breakLinks
  split <;> rfl

theorem deadGroups_recompress (s : State) (pa n : Nat) (c : Bool) : (recompress s pa n c).deadGroups = s.deadGroups := by
  unfold recompress
  split <;> rfl

theorem groupsFall_homeWrite (s : State) (w : Option Nat) (pa : Nat) (bs : List Byte) (c : Bool) : GroupsFall s (homeWrite s w pa bs c) := by
  have hgroups : (homeWrite s w pa bs c).deadGroups =
      if s.deadGroups = [] then [] else s.deadGroups.filter (fun g => !(unitsOf 2048 pa bs.length).contains g) := by
    unfold homeWrite
    dsimp only
    rw [deadGroups_recompress, deadGroups_breakLinks]
  intro g hg
  rw [hgroups] at hg
  split at hg
  · cases hg
  · exact (List.mem_filter.1 hg).1

theorem groupsFall_touchPte (s : State) (l : Leaf) (w : Bool) : GroupsFall s (touchPte s l w) := by
  have h : ∀ e : Word, GroupsFall s (if e = l.pte then s else homeWrite s none l.at_ (bvBytes e) false) := by
    intro e
    split
    · exact GroupsFall.refl s
    · exact groupsFall_homeWrite _ _ _ _ _
  exact h _

theorem groupsFall_writePtes (l : List (Nat × Word)) (s : State) : GroupsFall s (writePtes l s) := by
  induction l generalizing s with
  | nil => exact GroupsFall.refl s
  | cons x l ih => exact (groupsFall_homeWrite s none x.1 (bvBytes x.2) false).trans (ih _)

theorem groupsFall_hold (s : State) (b : Bool) : GroupsFall s (s.hold b) := by
  unfold State.hold
  split
  · exact fun _ h => h
  · exact GroupsFall.refl s

theorem groupsFall_walk {s s1 : State} {unit va : Nat} {p : BitVec 6} {need : Need} {e : TlbEntry} (h : walk s unit p va need = .ok (e, s1)) :
    GroupsFall s s1 := by
  unfold walk at h
  dsimp only at h
  iterate 6 (split at h; · cases h)
  simp only [Except.ok.injEq, Prod.mk.injEq] at h
  obtain ⟨-, rfl⟩ := h
  exact ((groupsFall_writePtes _ s).trans (groupsFall_touchPte _ _ _)).trans (groupsFall_touchPte _ _ _)

theorem groupsFall_translate {s s1 : State} {unit va : Nat} {p : BitVec 6} {need : Need} {e : TlbEntry}
    (h : translate s unit p va need = .ok (e, s1)) : GroupsFall s s1 := by
  unfold translate at h
  dsimp only at h
  split at h
  · cases h
    exact GroupsFall.refl s
  · split at h
    · cases h
      exact fun _ h => h
    · split at h
      · cases h
      next hwalk =>
        split at h
        · cases h
          exact (groupsFall_walk hwalk).trans (groupsFall_hold _ _)
        · cases h
          exact (groupsFall_walk hwalk).trans (groupsFall_hold _ _)

theorem groupsFall_locate {s s1 : State} {c : Ctx} {va : Word} {n al : Nat} {need : Need} {acc : Accepts} {pl : Place}
    (h : locate s c va n al need acc = .ok (pl, s1)) : GroupsFall s s1 := by
  unfold locate at h
  dsimp only at h
  split at h
  · cases h
  · split at h
    · cases h
    · split at h
      · split at h
        · cases h
        · split at h
          · cases h
          · split at h
            · cases h
            · cases h
              exact GroupsFall.refl s
      · split at h
        · cases h
        · split at h
          · cases h
          next htranslate =>
            split at h
            · cases h
            · cases h
              exact groupsFall_translate htranslate

theorem groupsFall_ringAppend {at_ : State → Nat → Nat → Option (Nat × State)} (hat : ∀ u a m p u', at_ u a m = some (p, u') → GroupsFall u u')
    {s t : State} {base : Nat} {bs : List Byte} (h : ringAppend at_ base bs s = some t) : GroupsFall s t := by
  unfold ringAppend at h
  cases h1 : at_ s base 64 with
  | none =>
    rw [h1] at h
    cases h
  | some x =>
    rw [h1] at h
    dsimp only at h
    have hx := hat _ _ _ _ _ h1
    split at h
    · cases h
      exact hx.trans (groupsFall_homeWrite _ _ _ _ _)
    · split at h
      · cases h
        exact hx.trans (groupsFall_homeWrite _ _ _ _ _)
      · split at h
        · cases h
        next h2 =>
          cases h
          exact ((hx.trans (hat _ _ _ _ _ h2)).trans (groupsFall_homeWrite _ _ _ _ _)).trans (groupsFall_homeWrite _ _ _ _ _)

theorem groupsFall_hypLog (bs : List Byte) (s : State) : GroupsFall s (hypLog bs s) := by
  have hat : ∀ u a m p u', hypRingAt u a m = some (p, u') → GroupsFall u u' := fun u a m p u' h => by
    unfold hypRingAt at h
    split at h
    · cases h
      exact GroupsFall.refl u
    · cases h
  unfold hypLog
  dsimp only
  split
  · exact GroupsFall.refl s
  · cases h : ringAppend hypRingAt (slice s.hvring 0 52).toNat bs s with
    | none => exact GroupsFall.refl s
    | some t => exact groupsFall_ringAppend hat h

theorem groupsFall_errLog (p : Option (BitVec 6)) (die : Nat) (sid : BitVec 11) (code addr detail : Nat) (s : State) :
    GroupsFall s (errLog p die sid code addr detail s) := by
  have hat : ∀ q u a m p u', ringAt q u a m = some (p, u') → GroupsFall u u' := fun q u a m p u' h => by
    unfold ringAt at h
    split at h
    next hlocate =>
      split at h
      · cases h
      · cases h
        exact groupsFall_locate hlocate
    · cases h
  cases p with
  | none => exact groupsFall_hypLog _ _
  | some q =>
    unfold errLog
    dsimp only
    cases h : ringAppend (ringAt q) (s.part q).errRing (errRecord code die sid addr s.cycle detail) s with
    | none => exact groupsFall_hypLog _ _
    | some t => exact groupsFall_ringAppend (hat q) h

/-! ### Making room for frames leaves the tests and the withdrawn frames (spec/03_matrix_registers.md R51, R60) -/

def TestsKept (s t : State) : Prop := t.tests = s.tests ∧ t.withdrawn = s.withdrawn

theorem TestsKept.trans {s t u : State} (h : TestsKept s t) (g : TestsKept t u) : TestsKept s u := ⟨g.1.trans h.1, g.2.trans h.2⟩

/-- The state that an attempt to make room leaves. -/
def roomState : Room → State
  | .made u => u
  | .spilling u => u
  | .full u => u

theorem testsKept_oneVictim (s : State) (k : Nat) : TestsKept s (roomState (oneVictim s k)) := by
  unfold oneVictim
  dsimp only
  split
  · exact ⟨rfl, rfl⟩
  · split
    · exact ⟨rfl, rfl⟩
    · exact ⟨rfl, rfl⟩

theorem testsKept_makeRoom (k limit n : Nat) (s : State) : TestsKept s (roomState (makeRoom k limit n s)) := by
  induction n generalizing s with
  | zero => exact ⟨rfl, rfl⟩
  | succ n ih =>
    have hvictim := testsKept_oneVictim s k
    unfold makeRoom
    dsimp only
    split
    · exact ⟨rfl, rfl⟩
    · split
      · exact ⟨rfl, rfl⟩
      · split
        next u h =>
          rw [h] at hvictim
          exact hvictim.trans (ih u)
        next u h =>
          rw [h] at hvictim
          have hmore := ih u
          split
          next v hv =>
            rw [hv] at hmore
            exact hvictim.trans hmore
          next => exact hvictim.trans hmore
        next u h =>
          rw [h] at hvictim
          split
          · exact hvictim
          · exact hvictim

theorem testsKept_evictToQuota (s : State) (k : Nat) : TestsKept s (evictToQuota s k) := by
  have h := testsKept_makeRoom k (s.strand k).fq.toNat 600 s
  have heq : evictToQuota s k = roomState (makeRoom k (s.strand k).fq.toNat 600 s) := by
    unfold evictToQuota
    cases makeRoom k (s.strand k).fq.toNat 600 s <;> rfl
  rw [heq]
  exact h

theorem testsKept_foldl {α : Type} (f : State → α → State) (hf : ∀ u x, TestsKept u (f u x)) (l : List α) (s : State) :
    TestsKept s (l.foldl f s) := by
  induction l generalizing s with
  | nil => exact ⟨rfl, rfl⟩
  | cons x l ih => exact (hf s x).trans (ih (f s x))

theorem testsKept_lowerLimits (s : State) (core : Nat) : TestsKept s (lowerLimits s core) := by
  refine testsKept_foldl _ (fun u j => ?_) _ s
  dsimp only
  split
  · exact ⟨rfl, rfl⟩
  · exact TestsKept.trans ⟨rfl, rfl⟩ (testsKept_evictToQuota ..)

/-! ### Detected errors (spec/05_memories.md R101 to R103) -/

section

variable {s : State}

theorem onlyHomes_logError (s : State) (e : EccTarget) (code detail : Nat) : OnlyHomes s (logError s e code detail) := onlyHomes_errLog ..

theorem groupsFall_logError (s : State) (e : EccTarget) (code detail : Nat) : GroupsFall s (logError s e code detail) := groupsFall_errLog _ _ _ _ _ _ _

/-- The registers of every strand are those of before. -/
theorem OnlyHomes.registers {t : State} (h : OnlyHomes s t) (j : Nat) : (∀ x, (t.strand j).getS x = (s.strand j).getS x) ∧
    (t.strand j).badS = (s.strand j).badS ∧ (t.strand j).phase = (s.strand j).phase := by
  obtain ⟨ls, hls, -⟩ := h.2.1 j
  rw [hls]
  exact ⟨fun _ => rfl, rfl, rfl⟩

/-- An uncorrected error in a scalar register marks that register. -/
theorem poisonTarget_scalar {k r : Nat} (hphase : (s.strand k).phase ≠ .free) (hlow : 0 < r) (hhigh : r < 32) :
    poisonTarget s (.scalar k r) = s.updSlot k (fun t => { t with badS := insNat r t.badS }) := by
  unfold poisonTarget slotFree
  dsimp only
  rw [beq_eq_false_iff_ne.2 hphase, decide_eq_false (by omega : ¬ r = 0), decide_eq_false (by omega : ¬ 32 ≤ r)]
  rfl

theorem poisonSectors_one (s : State) {x : Nat} (h : x / 64 ∉ s.deadGroups) : x ∈ (poisonSectors s [x]).badSectors := by
  unfold poisonSectors
  dsimp only
  rw [List.filter_cons_of_pos (by rw [List.contains_eq_mem, decide_eq_false h]; rfl)]
  exact mem_insNat.2 (.inl rfl)

/-- The end of a self-test whose fault is not lasting. -/
theorem selfTestComplete_passes {e : EccTarget} {c : Bool} {since : Nat} (htest : s.tests[s.arg.idx]? = some (e, c, since))
    (hflag : s.arg.flag = false) : exec .selfTestComplete s = .next { s with tests := s.tests.eraseIdx s.arg.idx } := by
  change execSelfTestComplete s = _
  unfold execSelfTestComplete
  rw [htest]
  dsimp only
  rw [hflag, dropNth_eq_eraseIdx]
  rfl

theorem selfTestComplete_scalar {k r : Nat} {c : Bool} {since : Nat} (htest : s.tests[s.arg.idx]? = some (.scalar k r, c, since))
    (hflag : s.arg.flag = true) : ∃ detail, exec .selfTestComplete s =
      .next (withdrawCore (logError { s with tests := s.tests.eraseIdx s.arg.idx } (.scalar k r) 0x03 detail) k) := by
  change ∃ detail, execSelfTestComplete s = _
  unfold execSelfTestComplete
  rw [htest]
  dsimp only
  rw [hflag, dropNth_eq_eraseIdx]
  exact ⟨_, rfl⟩

/-- A matrix frame that nothing uses leaves service. -/
theorem selfTestComplete_frame {core f x : Nat} {c : Bool} {since : Nat} (htest : s.tests[s.arg.idx]? = some (.msm core f x, c, since))
    (hflag : s.arg.flag = true) (hbusy : frameBusy s core f = false) (howner : scratchOwner s core f = none)
    (hframe : tabHas s.frames (core * 256 + f) = false) :
    ∃ u, exec .selfTestComplete s = .next (lowerLimits u core) ∧ u.tests = s.tests.eraseIdx s.arg.idx ∧ core * 256 + f ∈ u.withdrawn := by
  change ∃ u, execSelfTestComplete s = _ ∧ _
  unfold execSelfTestComplete
  rw [htest]
  dsimp only
  rw [hflag, hbusy, howner]
  dsimp only
  rw [frameKey, hframe, dropNth_eq_eraseIdx]
  exact ⟨_, rfl, (onlyHomes_logError ..).tests, mem_insNat.2 (.inl rfl)⟩

end

/-- Settles O47: thermal registers by their definitions, errors by what their record leaves, and the end of a self-test. -/
theorem heatAndErrors : Obligations.HeatAndErrors := by
  unfold Obligations.HeatAndErrors
  intro s n
  refine ⟨fun hn => ⟨_, if_pos hn, rfl, fun c => mem_insNat⟩, ⟨_, rfl, rfl, fun c => ?clear⟩, fun hn hlevel => ⟨?stuck, ?level⟩,
    fun k r hecc hphase => ⟨?corrected, ?uncorrected⟩, ?hbm, fun e c since htest => ⟨selfTestComplete_passes htest, ?scalar, ?frame⟩⟩
  case clear =>
    rw [List.mem_filter, bne_iff_ne]
  case stuck => exact fun hstuck => if_neg fun h => h.2.2 hstuck
  case level =>
    intro hfree
    refine ⟨_, if_pos ⟨hn, hlevel, hfree⟩, rfl, slice_putSlice_same _ _ (by omega), fun j hj hne => ?_⟩
    exact slice_putSlice_apart _ _ (by omega) (by omega)
  case corrected =>
    have hhomes := onlyHomes_logError s s.arg.ecc 0x01 (structureCode s.arg.ecc)
    have hstart : exec .eccCorrected s = .next { logError s s.arg.ecc 0x01 (structureCode s.arg.ecc) with
        tests := (logError s s.arg.ecc 0x01 (structureCode s.arg.ecc)).tests ++
          [(s.arg.ecc, true, (logError s s.arg.ecc 0x01 (structureCode s.arg.ecc)).cycle)] } := by
      change Host.Outcome.next (startTest _ _ _) = _
      unfold startTest
      rw [hecc]
    refine ⟨_, hstart, ?_, fun j x => ?_⟩
    · dsimp only
      rw [hhomes.tests, hhomes.cycle]
    · obtain ⟨hregs, hbad, -⟩ := hhomes.registers j
      exact ⟨hregs x, hbad⟩
  case uncorrected =>
    intro hlow hhigh
    have hhomes := onlyHomes_logError s s.arg.ecc 0x02 (structureCode s.arg.ecc)
    obtain ⟨u, hu⟩ : ∃ u, u = logError s s.arg.ecc 0x02 (structureCode s.arg.ecc) := ⟨_, rfl⟩
    rw [← hu] at hhomes
    have hlive : (u.strand k).phase ≠ .free := by
      obtain ⟨-, -, hsame⟩ := hhomes.registers k
      rw [hsame]
      exact hphase
    have hstart : exec .uncorrectedError s = .next { u.updSlot k (fun t => { t with badS := insNat r t.badS }) with
        tests := u.tests ++ [(s.arg.ecc, false, u.cycle)] } := by
      change Host.Outcome.next (startTest (poisonTarget _ s.arg.ecc) s.arg.ecc false) = _
      rw [← hu, hecc, poisonTarget_scalar hlive hlow hhigh]
      rfl
    refine ⟨_, hstart, ?_, fun x => ?_, fun j x => ?_⟩
    · dsimp only
      rw [hhomes.tests, hhomes.cycle]
    · change x ∈ ((u.updSlot k (fun t => { t with badS := insNat r t.badS })).strand k).badS ↔ _
      obtain ⟨-, hbad, -⟩ := hhomes.registers k
      rw [strand_updSlot_self, ← hbad]
      exact mem_insNat
    · change ((u.updSlot k (fun t => { t with badS := insNat r t.badS })).strand j).getS x = _
      obtain ⟨hregs, -, -⟩ := hhomes.registers j
      rw [strand_updSlot, ← hregs]
      split
      next hj => rw [hj]; rfl
      next => rfl
  case hbm =>
    intro pa hecc hpa hgroup
    have hhomes := onlyHomes_logError s s.arg.ecc 0x02 (structureCode s.arg.ecc)
    have hfall := groupsFall_logError s s.arg.ecc 0x02 (structureCode s.arg.ecc)
    have hstart : exec .uncorrectedError s = .next (poisonSectors (logError s s.arg.ecc 0x02 (structureCode s.arg.ecc)) [pa / 32]) := by
      change Host.Outcome.next (startTest (poisonTarget _ s.arg.ecc) s.arg.ecc false) = _
      unfold startTest poisonTarget
      rw [hecc]
      dsimp only
      rw [inHbm, decide_eq_true hpa, if_pos rfl]
    exact ⟨_, hstart, hhomes.tests, poisonSectors_one _ fun h => hgroup (hfall _ h)⟩
  case scalar =>
    intro k r hflag he
    subst he
    obtain ⟨detail, hrun⟩ := selfTestComplete_scalar htest hflag
    exact ⟨_, hrun, (onlyHomes_logError ..).tests, mem_insNat.2 (.inl rfl)⟩
  case frame =>
    intro core f x hflag he hbusy howner hframe
    subst he
    obtain ⟨u, hrun, htests, hwithdrawn⟩ := selfTestComplete_frame htest hflag hbusy howner hframe
    obtain ⟨htests', hwithdrawn'⟩ := testsKept_lowerLimits u core
    exact ⟨_, hrun, htests'.trans htests, by rw [hwithdrawn']; exact hwithdrawn⟩

end Sys2Proof.Machine
end

section
/-! PROOFS. The receive engine (O40). -/

set_option Elab.async false

namespace Sys2Proof.Machine

open Sys2Proof

/-! ### Remote tags of a die (spec/05_memories.md R88) -/

/-- Of the first `n` tags of a die one is free, when fewer are in use. -/
theorem exists_free_tag {l : Tab RemoteTag} {die n : Nat} (hn : n ≤ 4096)
    (h : (l.filter (fun kt => kt.1 / 4096 == die && kt.2.busy)).length < n) :
    ∃ i < n, (tabGet RemoteTag.fresh l (die * 4096 + i)).busy = false := by
  by_contra hall
  push Not at hall
  have hsub : (List.range n).map (fun i => die * 4096 + i) ⊆ (l.filter (fun kt => kt.1 / 4096 == die && kt.2.busy)).map Prod.fst := by
    intro k hk
    obtain ⟨i, hi, rfl⟩ := List.mem_map.1 hk
    have hi := List.mem_range.1 hi
    have hbusy : (tabGet RemoteTag.fresh l (die * 4096 + i)).busy = true := by
      cases hb : (tabGet RemoteTag.fresh l (die * 4096 + i)).busy with
      | true => rfl
      | false => exact absurd hb (hall i hi)
    have hne : tabGet RemoteTag.fresh l (die * 4096 + i) ≠ RemoteTag.fresh := fun heq => by
      rw [heq] at hbusy
      exact absurd hbusy (by decide)
    obtain ⟨p, hp, hpk, hpv⟩ := mem_of_tabGet_ne hne
    refine List.mem_map.2 ⟨p, List.mem_filter.2 ⟨hp, ?_⟩, hpk⟩
    rw [hpk, hpv, hbusy, Bool.and_true, beq_iff_eq]
    omega
  have hnodup : ((List.range n).map (fun i => die * 4096 + i)).Nodup := List.nodup_range.map fun i j hij => by
    have : die * 4096 + i = die * 4096 + j := hij
    omega
  have hlen := (hnodup.subperm hsub).length_le
  rw [List.length_map, List.length_range, List.length_map] at hlen
  omega

theorem freeTags_ne_nil {s : State} {die n : Nat} (hn : 0 < n) (hused : tagsUsed s die < 4096) : freeTags s die n ≠ [] := by
  obtain ⟨i, hi, hfree⟩ := exists_free_tag (Nat.le_refl 4096) hused
  intro hnil
  rw [freeTags, List.take_eq_nil_iff] at hnil
  rcases hnil with h | h
  · omega
  · have hmem : die * 4096 + i ∈ ((List.range 4096).map (fun i => die * 4096 + i)).filter (fun k => !(s.tag k).busy) :=
      List.mem_filter.2 ⟨List.mem_map.2 ⟨i, List.mem_range.2 hi, rfl⟩, by rw [State.tag, hfree]; rfl⟩
    rw [h] at hmem
    cases hmem

/-- Requests that the pool of a die has room for take a tag, and nothing else changes. -/
theorem engineTag_takes {s : State} {die n : Nat} (hn : 0 < n) (hroom : tagsUsed s die + n ≤ 4096) :
    ∃ k l, engineTag s die n = some (some k, { s with tags := l }) := by
  unfold engineTag
  rw [if_neg (by omega), if_neg (by omega)]
  cases hfree : freeTags s die n with
  | nil => exact absurd hfree (freeTags_ne_nil hn (by omega))
  | cons k more => exact ⟨_, _, rfl⟩

theorem engineTag_mailboxes {s u : State} {die n : Nat} {k : Option Nat} (h : engineTag s die n = some (k, u)) : u.mailboxes = s.mailboxes := by
  unfold engineTag at h
  split at h
  · cases h
    rfl
  · split at h
    · cases h
    · split at h
      · cases h
      · cases h
        rfl

/-! ### A header from the fabric (spec/08_receive_engine.md R136 to R138) -/

theorem setNth_length_append {α : Type} (l : List α) (a b : α) : setNth (l ++ [a]) l.length b = l ++ [b] := by
  induction l with
  | nil => rfl
  | cons x l ih => exact congrArg (x :: ·) ih

theorem tabSet_tabSet {α : Type} (t : Tab α) (k : Nat) (v w : α) : tabSet (tabSet t k v) k w = tabSet t k w := by
  induction t with
  | nil =>
    change tabSet [(k, v)] k w = [(k, w)]
    rw [tabSet, if_neg (Nat.lt_irrefl k), if_pos rfl]
  | cons p t ih =>
    obtain ⟨j, x⟩ := p
    by_cases hlt : k < j
    · rw [tabSet, if_pos hlt, tabSet, if_neg (Nat.lt_irrefl k), if_pos rfl, tabSet, if_pos hlt]
    · by_cases heq : k = j
      · rw [tabSet, if_neg hlt, if_pos heq, tabSet, if_neg (Nat.lt_irrefl k), if_pos rfl, tabSet, if_neg hlt, if_pos heq]
      · rw [tabSet, if_neg hlt, if_neg heq, tabSet, if_neg hlt, if_neg heq, ih, tabSet, if_neg hlt, if_neg heq]

theorem updMbox_updMbox (s : State) (m : Nat) (f g : Mailbox → Mailbox) : (s.updMbox m f).updMbox m g = s.updMbox m (fun b => g (f b)) := by
  have h := mbox_updMbox s m f
  unfold State.updMbox at h ⊢
  rw [h, tabSet_tabSet]

theorem countOwner_kept (s : State) (o : Owner) (e n : Nat) : PackageKept s (countOwner s o e n) := by
  unfold countOwner
  split
  · exact (countEvent_spec s _ e n).1
  · rfl

theorem PackageKept.mailboxes {s t : State} (h : PackageKept s t) : t.mailboxes = s.mailboxes := (congrArg State.mailboxes h :)
theorem PackageKept.outbox {s t : State} (h : PackageKept s t) : t.outbox = s.outbox := (congrArg State.outbox h :)
theorem PackageKept.mem {s t : State} (h : PackageKept s t) : t.mem = s.mem := (congrArg State.mem h :)

theorem mbox_congr {s t : State} (h : t.mailboxes = s.mailboxes) (j : Nat) : t.mbox j = s.mbox j := by
  rw [State.mbox, h, State.mbox]

section

variable {s : State} {mb i : Nat} {c : Claim}

/-- A pull asks for as many bytes as its free tags carry. -/
theorem askPull_spec (hleft : c.data.length < pullLen c) (hroom : tagsUsed s (mb % 6) < 4096) :
    ∃ y, (askPull s mb i c).mem = s.mem ∧ (askPull s mb i c).mailboxes = (setClaim s mb i y).mailboxes ∧
      (askPull s mb i c).outbox = s.outbox ++ [.pull c.msg.peer (apPull (hdHnd c.msg.hdr).toNat c.data.length) y.due] ∧
      y.msg = c.msg ∧ y.hole = c.hole ∧ y.st = c.st ∧ y.due = min (pullLen c - c.data.length) (256 * (4096 - tagsUsed s (mb % 6))) := by
  obtain ⟨n, hn⟩ : ∃ n, n = min ((pullLen c - c.data.length + 255) / 256) (4096 - tagsUsed s (mb % 6)) := ⟨_, rfl⟩
  obtain ⟨k, l, htag⟩ := engineTag_takes (s := s) (die := mb % 6) (n := n) (by omega) (by omega)
  have hdue : min (pullLen c - c.data.length) (256 * n) = min (pullLen c - c.data.length) (256 * (4096 - tagsUsed s (mb % 6))) := by omega
  unfold askPull
  dsimp only
  rw [← hn, if_neg (by omega), htag]
  dsimp only
  refine ⟨{ c with asked := true, due := min (pullLen c - c.data.length) (256 * n), tag := some k, since := s.cycle }, ?_, ?_, ?_,
    rfl, rfl, rfl, hdue⟩
  · exact (countOwner_kept ..).mem
  · exact (countOwner_kept ..).mailboxes
  · exact (countOwner_kept ..).outbox

/-- The claim that a rendezvous message makes of a pigeonhole before it is pulled. -/
def openClaim (m : Message) (x : Pigeonhole) (since : Nat) : Claim := ⟨m, x, .pulling, [], false, none, false, 0, [], none, since⟩

/-- A rendezvous message of another package that claims a pigeonhole with a buffer is pulled. -/
theorem claimMessage_pulls {m : Message} {x : Pigeonhole} (hty : hdType m.hdr ≠ 1#8) (hkind : phKind x.rcd = 0#2) (hlen : 0 < recvLen x.rcd m.hdr)
    (hpeer : m.peer ≠ s.self) (hroom : tagsUsed s (mb % 6) < 4096) :
    ∃ y, (claimMessage s mb m x).mem = s.mem ∧ (claimMessage s mb m x).outbox = s.outbox ++ [.pull m.peer (apPull (hdHnd m.hdr).toNat 0) y.due] ∧
      (claimMessage s mb m x).mailboxes = (s.updMbox mb (fun b => { b with claims := b.claims ++ [y] })).mailboxes ∧
      y.msg = m ∧ y.hole = x ∧ y.st = .pulling ∧ y.due = min (recvLen x.rcd m.hdr) (256 * (4096 - tagsUsed s (mb % 6))) := by
  obtain ⟨u, hu⟩ : ∃ u, u = s.updMbox mb (fun b => { b with claims := b.claims ++ [openClaim m x s.cycle] }) := ⟨_, rfl⟩
  have hrun : claimMessage s mb m x = askPull u mb (s.mbox mb).claims.length (openClaim m x s.cycle) := by
    unfold claimMessage
    dsimp only
    have hbytes : ((if phKind x.rcd = 2#2 then 0 else recvLen x.rcd m.hdr) == 0) = false := by
      rw [hkind, if_neg (by decide)]
      exact beq_eq_false_iff_ne.2 (by omega)
    rw [beq_eq_false_iff_ne.2 hty, hbytes, beq_eq_false_iff_ne.2 hpeer, hu]
    rfl
  have hroom' : tagsUsed u (mb % 6) < 4096 := by rw [hu]; exact hroom
  obtain ⟨y, hmem, hboxes, hout, hmsg, hhole, hst, hdue⟩ := askPull_spec (s := u) (mb := mb) (i := (s.mbox mb).claims.length)
    (c := openClaim m x s.cycle) hlen hroom'
  rw [hrun]
  refine ⟨y, hmem.trans (by rw [hu]; rfl), hout.trans (by rw [hu]; rfl), ?_, hmsg, hhole, hst, hdue.trans (by rw [hu]; rfl)⟩
  rw [hboxes, hu, setClaim, updMbox_updMbox]
  change tabSet s.mailboxes mb { s.mbox mb with claims := setNth ((s.mbox mb).claims ++ [_]) (s.mbox mb).claims.length y } = _
  rw [setNth_length_append]
  rfl

/-- What a message that is tested leaves of the pairs of its mailbox. -/
theorem mbox_sendPacket (s : State) (p : Packet) (j : Nat) : (sendPacket s p).mbox j = s.mbox j := by
  unfold sendPacket
  split <;> rfl

theorem pairs_setClaim (s : State) (mb i : Nat) (c : Claim) : ((setClaim s mb i c).mbox mb).pairs = (s.mbox mb).pairs := by
  rw [setClaim, mbox_updMbox]

theorem pairs_askPull (s : State) (mb i : Nat) (c : Claim) : ((askPull s mb i c).mbox mb).pairs = (s.mbox mb).pairs := by
  unfold askPull
  dsimp only
  split
  · rfl
  · split
    · rfl
    next htag =>
      have hboxes := engineTag_mailboxes htag
      rw [mbox_congr (countOwner_kept ..).mailboxes]
      exact (pairs_setClaim ..).trans (congrArg Mailbox.pairs (mbox_congr hboxes mb))

theorem pairs_claimMessage (s : State) (mb : Nat) (m : Message) (x : Pigeonhole) : ((claimMessage s mb m x).mbox mb).pairs = (s.mbox mb).pairs := by
  obtain ⟨pulled, c, hrun⟩ : ∃ (pulled : Bool) (c : Claim), claimMessage s mb m x =
      if pulled then s.updMbox mb (fun b => { b with claims := b.claims ++ [c] })
      else askPull (s.updMbox mb (fun b => { b with claims := b.claims ++ [c] })) mb (s.mbox mb).claims.length c := ⟨_, _, rfl⟩
  rw [hrun]
  cases pulled with
  | true =>
    rw [if_pos rfl, mbox_updMbox]
  | false =>
    rw [if_neg Bool.false_ne_true, pairs_askPull, mbox_updMbox]

theorem pairs_testMessage (s : State) (mb : Nat) (m : Message) : ((testMessage s mb m).mbox mb).pairs = (s.mbox mb).pairs := by
  unfold testMessage
  dsimp only
  split
  · split
    · rw [pairs_claimMessage, mbox_updMbox]
    · rfl
  · split
    · rw [reply, mbox_sendPacket]
    · split
      · rw [reply, mbox_sendPacket, mbox_updMbox]
      · rw [mbox_updMbox]

/-! ### The one pair of a mailbox (R136, R137) -/

section

variable {ma : BitVec 22} {gen : BitVec 16} {q : Pair}

theorem findPair_one (hpairs : (s.mbox mb).pairs = [q]) (hma : q.srcma = ma) (hgen : q.sgen = gen) : findPair s mb ma gen = some q := by
  unfold findPair
  rw [hpairs, List.find?_cons_of_pos (by rw [hma, hgen, beq_self_eq_true, beq_self_eq_true]; rfl)]

theorem mbox_updPair_one (hpairs : (s.mbox mb).pairs = [q]) (hma : q.srcma = ma) (hgen : q.sgen = gen) (f : Pair → Pair) :
    (updPair s mb ma gen f).mbox mb = { s.mbox mb with pairs := [f q] } := by
  rw [updPair, mbox_updMbox, hpairs, List.map_cons, if_pos ⟨hma, hgen⟩]
  rfl

/-- Where no held message has been passed over, none is dropped. -/
theorem dropBehind_one (hpairs : (s.mbox mb).pairs = [q]) (hma : q.srcma = ma) (hgen : q.sgen = gen)
    (hnone : ∀ m ∈ q.held, behind q.expected m = false) :
    (dropBehind s mb ma gen).mbox mb = s.mbox mb ∧ (dropBehind s mb ma gen).mem = s.mem ∧ (dropBehind s mb ma gen).outbox = s.outbox ∧
    (dropBehind s mb ma gen).cycle = s.cycle := by
  have hgone : q.held.filter (behind q.expected) = [] := List.filter_eq_nil_iff.2 fun m hm => by
    rw [hnone m hm]
    exact Bool.false_ne_true
  have hstay : q.held.filter (fun y => !behind q.expected y) = q.held := List.filter_eq_self.2 fun m hm => by
    rw [hnone m hm]
    rfl
  have hdrop : dropBehind s mb ma gen = updPair s mb ma gen (fun q => { q with held := q.held.filter (fun y => !behind q.expected y) }) := by
    unfold dropBehind
    rw [findPair_one hpairs hma hgen]
    dsimp only
    rw [hgone]
    rfl
  rw [hdrop, mbox_updPair_one hpairs hma hgen]
  refine ⟨?_, rfl, rfl, rfl⟩
  dsimp only
  rw [hstay]
  change { s.mbox mb with pairs := [q] } = _
  rw [← hpairs]

/-- With nothing held, the pair stays as it is. -/
theorem runHeld_empty (n : Nat) (hpairs : (s.mbox mb).pairs = [q]) (hma : q.srcma = ma) (hgen : q.sgen = gen) (hheld : q.held = []) :
    (runHeld mb ma gen (n + 1) s).mbox mb = s.mbox mb ∧ (runHeld mb ma gen (n + 1) s).mem = s.mem ∧
    (runHeld mb ma gen (n + 1) s).outbox = s.outbox := by
  obtain ⟨hbox, hmem, hout, -⟩ := dropBehind_one hpairs hma hgen (by rw [hheld]; exact fun _ h => absurd h List.not_mem_nil)
  have hrun : runHeld mb ma gen (n + 1) s = dropBehind s mb ma gen := by
    rw [runHeld]
    dsimp only
    rw [findPair_one (hbox ▸ hpairs) hma hgen]
    dsimp only
    rw [hheld]
    rfl
  rw [hrun]
  exact ⟨hbox, hmem, hout⟩

theorem prunePairs_one (q : Pair) : prunePairs [q] = [q] := by
  have hself : newerGen q.sgen q.sgen = false := by
    rw [newerGen, BitVec.sub_self]
    rfl
  unfold prunePairs
  rw [List.filter_cons_of_pos, List.filter_nil]
  simp [hself]

theorem settlePair_empty (hpairs : (s.mbox mb).pairs = [q]) (hma : q.srcma = ma) (hgen : q.sgen = gen) (hheld : q.held = []) :
    (settlePair s mb ma gen).mbox mb = s.mbox mb ∧ (settlePair s mb ma gen).mem = s.mem ∧ (settlePair s mb ma gen).outbox = s.outbox := by
  have hfind := findPair_one hpairs hma hgen
  unfold settlePair
  rw [hfind]
  dsimp only
  obtain ⟨hbox, hmem, hout⟩ := runHeld_empty q.held.length hpairs hma hgen hheld
  refine ⟨?_, hmem, hout⟩
  rw [mbox_updMbox, hbox, hpairs, prunePairs_one, ← hpairs]

/-- One held message that is next is tested, and then the pair holds nothing. -/
theorem settlePair_held {m : Message} (hpairs : (s.mbox mb).pairs = [q]) (hma : q.srcma = ma) (hgen : q.sgen = gen) (hheld : q.held = [m])
    (hnext : q.expected = hdSeq m.hdr) :
    ((settlePair s mb ma gen).mbox mb).pairs = [{ q with expected := q.expected + 1#16, since := s.cycle, held := [] }] := by
  have hfront : ∀ y ∈ q.held, behind q.expected y = false := fun y hy => by
    rw [hheld, List.mem_singleton] at hy
    rw [hy, behind, hnext, BitVec.sub_self]
    rfl
  obtain ⟨hbox, -, -, hcycle⟩ := dropBehind_one hpairs hma hgen hfront
  obtain ⟨q1, hq1⟩ : ∃ q1 : Pair, q1 = { q with expected := q.expected + 1#16, since := s.cycle, held := [] } := ⟨_, rfl⟩
  obtain ⟨u, hu⟩ : ∃ u, u = testMessage (updPair (dropBehind s mb ma gen) mb ma gen (fun q => { q with
      expected := q.expected + 1#16
      since := (dropBehind s mb ma gen).cycle
      held := dropNth q.held 0 })) mb m := ⟨_, rfl⟩
  have hrun : runHeld mb ma gen 2 s = runHeld mb ma gen 1 u := by
    rw [runHeld]
    dsimp only
    rw [findPair_one (hbox ▸ hpairs) hma hgen]
    dsimp only
    rw [hheld, hnext, findPos, beq_self_eq_true, if_pos rfl, hu]
    rfl
  have hupairs : (u.mbox mb).pairs = [q1] := by
    rw [hu, pairs_testMessage, mbox_updPair_one (hbox ▸ hpairs) hma hgen, hcycle, hheld, hq1]
    rfl
  obtain ⟨hbox', -, -⟩ := runHeld_empty (s := u) (mb := mb) (ma := ma) (gen := gen) (q := q1) 0 hupairs (by rw [hq1]; exact hma)
    (by rw [hq1]; exact hgen) (by rw [hq1])
  unfold settlePair
  rw [findPair_one hpairs hma hgen]
  dsimp only
  rw [hheld]
  change ((((runHeld mb ma gen 2 s).updMbox mb (fun b => { b with pairs := prunePairs b.pairs })).mbox mb).pairs) = _
  rw [mbox_updMbox, hrun, hbox', hupairs, prunePairs_one, hq1]

end

end

/-! ### A write of an engine within one sector (spec/17_engine_and_system_instructions.md R312) -/

section

variable {s u : State} {e : CopyEnv} {p : Piece} {bs : List Byte} {pa : Nat} {comp : Bool}

theorem placePieces_one (htests : s.tests = [])
    (hlocate : locate s e.ctx (BitVec.ofNat 64 p.dst) p.n 1 .write acceptsPlain = .ok (.mem pa comp, u))
    (hfault : accessFault s e.slot (.mem pa comp) p.n false = none) : placePieces e [(p, bs)] s = .ok ([(.mem pa comp, bs)], u) := by
  rw [placePieces, hlocate]
  dsimp only
  have hlocal : isLocal s (.mem pa comp) = true := rfl
  rw [underTest_nil htests, if_neg Bool.false_ne_true, hlocal, if_pos rfl, hfault]
  rfl

/-- The copy of one piece that has been read and placed here. -/
theorem copySectors_one {r : CopyRun} {feed : Feed} {v : State} (hread : readPieces e [p] r.feed r.st = .ok ([(p, bs)], none, feed, v))
    (hplace : placePieces e [(p, bs)] v = .ok ([(.mem pa comp, bs)], u)) :
    copySectors e [[p]] r = some ⟨homeWrite u none pa bs comp, r.sectors + 1, r.status, r.bad, feed, r.far⟩ := by
  rw [copySectors, hread]
  dsimp only
  rw [hplace]
  dsimp only
  rw [copySectors, List.filter_cons_of_pos rfl, List.filter_nil, List.filter_cons_of_neg (by exact Bool.false_ne_true), List.filter_nil]
  change some (CopyRun.mk (homeWrite u none pa bs comp) (r.sectors + 1) r.status r.bad feed (r.far ++ [])) = _
  rw [List.append_nil]

end

theorem unitsOf_one {size pa n : Nat} (hn : 0 < n) (hfit : pa % size + n ≤ size) : unitsOf size pa n = [pa / size] := by
  have hsize : 0 < size := by omega
  have hsame : (pa + n - 1) / size = pa / size := by
    have hdiv := Nat.div_add_mod' pa size
    exact Nat.div_eq_of_lt_le (by omega) (by rw [Nat.add_one_mul]; omega)
  unfold unitsOf
  rw [if_neg (by omega), hsame, Nat.sub_self]
  rfl

theorem sectorCuts_one {dst n : Nat} (hn : 0 < n) (hfit : dst % 32 + n ≤ 32) : sectorCuts dst n = [(dst, n)] := by
  unfold sectorCuts
  rw [unitsOf_one hn hfit, List.map_cons, List.map_nil]
  have hlow : max dst (32 * (dst / 32)) = dst := by omega
  have hhigh : min (dst + n) (32 * (dst / 32) + 32) - dst = n := by omega
  rw [hlow, hhigh]

/-! ### Pulls and landings (spec/08_receive_engine.md R140 to R142) -/

section

variable {s s1 : State} {c : Claim} {n pa : Nat} {comp : Bool}

theorem payloadPieces_one (hdata : n ≤ c.data.length) (hn : 0 < n) (hfit : (phDest c.hole.rcd).toNat % 32 + n ≤ 32) :
    payloadPieces c (c.data.take n) = [[⟨(phDest c.hole.rcd).toNat, n, none, c.data.take n⟩]] := by
  have hlen : (c.data.take n).length = n := List.length_take_of_le hdata
  unfold payloadPieces
  dsimp only
  rw [hlen, sectorCuts_one hn hfit, List.map_cons, List.map_nil, Nat.sub_self, List.drop_zero, List.take_take, Nat.min_self]
  rfl

theorem writePayload_one (htests : s.tests = []) (hdata : n ≤ c.data.length) (hn : 0 < n) (hfit : (phDest c.hole.rcd).toNat % 32 + n ≤ 32)
    (hlocate : locate s (engineCtx c.hole.owner.part) (phDest c.hole.rcd) n 1 .write acceptsPlain = .ok (.mem pa comp, s1))
    (hfault : accessFault s 0 (.mem pa comp) n false = none) :
    writePayload s c (c.data.take n) = some ⟨homeWrite s1 none pa (c.data.take n) comp, 1, 0, 0, noFeed, []⟩ := by
  unfold writePayload
  rw [payloadPieces_one hdata hn hfit]
  refine copySectors_one rfl (placePieces_one htests ?_ hfault)
  change locate s (engineCtx c.hole.owner.part) (BitVec.ofNat 64 (phDest c.hole.rcd).toNat) n 1 .write acceptsPlain = _
  rw [BitVec.ofNat_toNat, BitVec.setWidth_eq]
  exact hlocate

theorem completionFault_none {p : BitVec 6} {r : Rec64} (hstat : phStat r = 0#64) (hbar : phBar r = 0#64) (hwake : phWdesc r = 0#64) :
    completionFault s p r = none := by
  unfold completionFault
  rw [hstat, hbar, hwake]
  rfl

theorem holeItems_nil {r : Rec64} {ma : BitVec 22} {tag : BitVec 32} {code : BitVec 16} {rlen : Nat} (hstat : phStat r = 0#64)
    (hbar : phBar r = 0#64) (hwake : phWdesc r = 0#64) : holeItems r ma tag code rlen = [] := by
  unfold holeItems
  rw [hstat, hbar, hwake]
  rfl

theorem sendPacket_kept (s : State) (p : Packet) : (sendPacket s p).mem = s.mem ∧ (sendPacket s p).mailboxes = s.mailboxes := by
  unfold sendPacket
  split <;> exact ⟨rfl, rfl⟩

/-- A completion without status, barrier and wake sends at most its reply. -/
theorem completeHole_bare {mb : Nat} {x : Pigeonhole} {m : Message} {code : BitVec 16} {rlen : Nat} (hstat : phStat x.rcd = 0#64)
    (hbar : phBar x.rcd = 0#64) (hwake : phWdesc x.rcd = 0#64) :
    (completeHole s mb x m code rlen (landReply c)).mem = s.mem ∧ (completeHole s mb x m code rlen (landReply c)).mailboxes = s.mailboxes := by
  unfold completeHole complete
  rw [holeItems_nil hstat hbar hwake, List.nil_append]
  unfold landReply
  dsimp only
  split
  · split
    · exact ⟨rfl, rfl⟩
    · exact sendPacket_kept s _
  · exact sendPacket_kept s _

theorem landEnd_bare {s0 : State} {mb i : Nat} (hretry : c.retry = false) (hstat : phStat c.hole.rcd = 0#64) (hbar : phBar c.hole.rcd = 0#64)
    (hwake : phWdesc c.hole.rcd = 0#64) : (landEnd s0 s mb i c false).mem = s.mem ∧
    (landEnd s0 s mb i c false).mbox mb = { s.mbox mb with claims := (s.mbox mb).claims.eraseIdx i } := by
  have hrun : ∃ code, landEnd s0 s mb i c false = completeHole (dropClaim s mb i) mb c.hole c.msg code (pullLen c) (landReply c) := by
    unfold landEnd
    rw [completionFault_none hstat hbar hwake, hretry]
    dsimp only
    cases truncated c.hole.rcd c.msg.hdr with
    | true => exact ⟨_, rfl⟩
    | false => exact ⟨_, rfl⟩
  obtain ⟨code, hrun⟩ := hrun
  obtain ⟨hmem, hboxes⟩ := completeHole_bare (s := dropClaim s mb i) (c := c) (mb := mb) (m := c.msg) (code := code) (rlen := pullLen c)
    hstat hbar hwake
  rw [hrun]
  refine ⟨hmem, (mbox_congr hboxes mb).trans ?_⟩
  rw [dropClaim, mbox_updMbox, dropNth_eq_eraseIdx]

theorem landing_lands {mb i : Nat} (hmb : s.arg.mb = mb) (hi : s.arg.idx = i) (hc : (s.mbox mb).claims[i]? = some c) (hst : c.st = .landing)
    (hretry : c.retry = false) (hlanded : c.landed = none) (hasked : c.asked = false) (htests : s.tests = []) (hkind : phKind c.hole.rcd = 0#2)
    (hn : 0 < n) (hlen : recvLen c.hole.rcd c.msg.hdr = n) (hdata : n ≤ c.data.length) (hfit : (phDest c.hole.rcd).toNat % 32 + n ≤ 32)
    (hlocate : locate s (engineCtx c.hole.owner.part) (phDest c.hole.rcd) n 1 .write acceptsPlain = .ok (.mem pa comp, s1))
    (hfault : accessFault s 0 (.mem pa comp) n false = none) :
    exec .landing s = .next (landEnd s (homeWrite s1 none pa (c.data.take n) comp) mb i c false) := by
  have hwaits : retryWaits (s.mbox mb) c = false := by
    unfold retryWaits
    rw [hretry]
    rfl
  have hland : landPayload s mb i c s.arg.peers s.arg.rep = .ok (homeWrite s1 none pa (c.data.take n) comp) false := by
    unfold landPayload
    dsimp only
    rw [if_pos hkind]
    unfold landBuffer
    dsimp only
    rw [hasked, pullLen, hlen, if_neg Bool.false_ne_true, writePayload_one htests hdata hn hfit hlocate hfault]
    rfl
  change execLanding s = _
  unfold execLanding
  dsimp only
  rw [hmb, hi, hc]
  dsimp only
  rw [if_neg (by rw [hst, hwaits]; decide), hlanded]
  dsimp only
  rw [hasked, Bool.false_and, if_neg Bool.false_ne_true, hland]

end

section

variable {s : State} {mb : Nat} {c : Claim}

theorem pullComplete_ends (hmb : s.arg.mb = mb) (hc : (s.mbox mb).claims[s.arg.idx]? = some c) (hst : c.st = .pulling) (hpeer : c.msg.peer ≠ s.self)
    (hasked : c.asked = true) (hlen : recvLen c.hole.rcd c.msg.hdr = c.data.length + c.due) (hdata : s.arg.data.length = c.due) :
    exec .pullComplete s = .next (setClaim (giveTag s c.tag) mb s.arg.idx
      { c with st := .landing, data := c.data ++ s.arg.data, asked := false, due := 0, tag := none }) := by
  have hbytes : pullData s c s.arg.data = c.data ++ s.arg.data := by
    unfold pullData
    rw [if_neg hpeer, ← hdata, List.take_length, List.take_of_length_le (by rw [List.length_append, pullLen, hlen, hdata])]
  have hall : (c.data ++ s.arg.data).length = c.data.length + c.due := by rw [List.length_append, hdata]
  change execPullComplete s = _
  unfold execPullComplete
  dsimp only
  rw [hmb, hc]
  dsimp only
  rw [if_neg (not_not.2 hst), beq_eq_false_iff_ne.2 hpeer, hasked, hbytes, hall, pullLen, hlen]
  simp only [Bool.not_true, Bool.and_false, Bool.false_eq_true, if_false, Nat.lt_irrefl]

theorem pullComplete_waits (hmb : s.arg.mb = mb) (hc : (s.mbox mb).claims[s.arg.idx]? = some c) (hst : c.st = .pulling)
    (hpeer : c.msg.peer ≠ s.self) (hasked : c.asked = true) (hdata : s.arg.data.length < c.due) : exec .pullComplete s = .next s := by
  have hshort : (pullData s c s.arg.data).length < c.data.length + c.due := by
    unfold pullData
    rw [if_neg hpeer, List.length_take, List.length_append, List.length_take]
    omega
  change execPullComplete s = _
  unfold execPullComplete
  dsimp only
  rw [hmb, hc]
  dsimp only
  rw [if_neg (not_not.2 hst), beq_eq_false_iff_ne.2 hpeer, hasked]
  simp only [Bool.not_true, Bool.and_false, Bool.false_eq_true, if_false, hshort, if_true]

theorem dropTags_eq (s : State) (k : Option Nat) (late : Nat → Bool) : ∃ l, dropTags s k late = { s with tags := l } := by
  unfold dropTags
  split
  · exact ⟨s.tags, rfl⟩
  · exact ⟨_, rfl⟩

theorem pullFail_ends (hmb : s.arg.mb = mb) (hc : (s.mbox mb).claims[s.arg.idx]? = some c) (hst : c.st = .pulling) (hpeer : c.msg.peer ≠ s.self)
    (hkind : phKind c.hole.rcd ≠ 0#2) (hstat : phStat c.hole.rcd = 0#64) (hbar : phBar c.hole.rcd = 0#64) (hwake : phWdesc c.hole.rcd = 0#64) :
    ∃ l, exec .pullFail s = .next (dropPulled (dropClaim { s with tags := l } mb s.arg.idx) (hdHnd c.msg.hdr)) := by
  have hcomplete : ∀ u : State, completeHole u mb c.hole c.msg 5#16 0 [] = u := fun u => by
    unfold completeHole complete
    rw [holeItems_nil hstat hbar hwake]
    rfl
  change ∃ l, execPullFail s = _
  unfold execPullFail
  dsimp only
  rw [hmb, hc]
  dsimp only
  rw [bne_iff_ne.2 hpeer, Bool.true_or, Bool.true_or, if_neg (by rw [hst]; decide), hcomplete, partialLanding, if_pos hkind]
  obtain ⟨l, hl⟩ := dropTags_eq s c.tag
    (fun j => if overdue s c.since then decide (min s.arg.data.length c.due / 256 ≤ j) else decide (min s.arg.data.length c.due / 256 < j))
  exact ⟨l, by rw [hl]⟩

/-! ### Headers and gaps (R136, R137) -/

/-- The number of a header in arrival order is taken. -/
def arrivalCounted (s : State) : State := { s with seq := s.seq + 1 }

/-- A header of no eager message, as it is kept. -/
def headerMessage (s : State) (peer : BitVec 10) (h : Rec64) : Message := ⟨peer, h, [], true, false, s.seq + 1⟩

variable {peer : BitVec 10} {h : Rec64} {bs : List Byte}

theorem headerArrival_judges (harrival : s.arg.arrival = .fabric peer h bs) (hty : hdType h ≠ 1#8) (hok : headerOk h = true) (hpower : s.power ≠ .p2)
    (hmb : mb = (slice (hdDstMa h) 0 12).toNat) : exec .headerArrival s = .next (
      if !(s.mbox mb).isOpen || !(s.part (s.mbox mb).part).peerSet.getLsbD peer.toNat then
        reply (arrivalCounted s) (headerMessage s peer h) 0x12#8 2#16 0
      else match findPair (arrivalCounted s) mb (hdSrcMa h) (hdSgen h) with
        | some q => judgeHeader (arrivalCounted s) mb (headerMessage s peer h) q
        | none =>
          if (s.mbox mb).pairs.any (fun q => q.srcma == hdSrcMa h && newerGen q.sgen (hdSgen h)) then
            lostHeader (arrivalCounted s) (headerMessage s peer h)
          else
            let q : Pair := ⟨hdSrcMa h, hdSgen h, 0#16, [], s.cycle⟩
            judgeHeader ((arrivalCounted s).updMbox mb (fun b => { b with pairs := prunePairs (b.pairs ++ [q]) })) mb
              (headerMessage s peer h) q) := by
  change execHeaderArrival s = _
  unfold execHeaderArrival
  rw [harrival]
  dsimp only
  rw [if_neg (fun hh => hty hh.1), wakeUp_of_awake hpower]
  unfold headerArrives
  dsimp only
  rw [hok, if_neg hty, hmb]
  rfl

theorem packetWrites_reply (self : BitVec 10) {p : Packet} (hty : isReply p.hdr = true) (hpay : p.payload = []) :
    packetWrites self p = [(apReply self.toNat (hdHnd p.hdr).toNat, bvBytes p.hdr)] := by
  unfold packetWrites
  rw [hty, hpay]
  rfl

/-- A reply to another package leaves as one write. -/
theorem reply_far (s : State) (m : Message) {ty : BitVec 8} (code : BitVec 16) (rlen : Nat) (hty : 0x11 ≤ ty.toNat) (hpeer : m.peer ≠ s.self) :
    reply s m ty code rlen = { s with outbox := s.outbox ++
      [.write m.peer (apReply s.self.toNat (hdHnd m.hdr).toNat) (bvBytes (replyTo m ty code rlen).hdr)] } := by
  have hreply : isReply (replyTo m ty code rlen).hdr = true := by
    rw [isReply, replyTo, hdType_mkHeader]
    exact decide_eq_true hty
  have hhnd : hdHnd (replyTo m ty code rlen).hdr = hdHnd m.hdr := hdHnd_mkHeader ..
  unfold reply sendPacket
  rw [packetWrites_reply s.self hreply rfl, hhnd]
  exact if_neg hpeer

/-- A message whose header matches the first pigeonhole claims it. -/
theorem testMessage_first {m : Message} {x : Pigeonhole} {rest : List Pigeonhole} (hholes : (s.mbox mb).holes = x :: rest)
    (hmatch : headerMatches m.hdr x.rcd = true) :
    testMessage s mb m = claimMessage (s.updMbox mb (fun b => { b with holes := dropNth b.holes 0 })) mb m x := by
  unfold testMessage
  dsimp only
  rw [hholes, findPos, hmatch, if_pos rfl]
  rfl

/-- The header that is next claims the first pigeonhole, and is pulled. -/
theorem judgeHeader_pulls {m : Message} {q : Pair} {x : Pigeonhole} {rest : List Pigeonhole} (hpairs : (s.mbox mb).pairs = [q])
    (hma : q.srcma = hdSrcMa m.hdr) (hgen : q.sgen = hdSgen m.hdr) (hheld : q.held = []) (hnext : q.expected = hdSeq m.hdr)
    (hholes : (s.mbox mb).holes = x :: rest) (hmatch : headerMatches m.hdr x.rcd = true) (hty : hdType m.hdr ≠ 1#8) (hkind : phKind x.rcd = 0#2)
    (hlen : 0 < recvLen x.rcd m.hdr) (hpeer : m.peer ≠ s.self) (hroom : tagsUsed s (mb % 6) < 4096) :
    ∃ y, ((judgeHeader s mb m q).mbox mb).holes = rest ∧ ((judgeHeader s mb m q).mbox mb).claims = (s.mbox mb).claims ++ [y] ∧
      (judgeHeader s mb m q).outbox = s.outbox ++ [.pull m.peer (apPull (hdHnd m.hdr).toNat 0) y.due] ∧ (judgeHeader s mb m q).mem = s.mem ∧
      y.msg = m ∧ y.hole = x ∧ y.st = .pulling ∧ y.due = min (recvLen x.rcd m.hdr) (256 * (4096 - tagsUsed s (mb % 6))) := by
  obtain ⟨u, hu⟩ : ∃ u, u = updPair s mb (hdSrcMa m.hdr) (hdSgen m.hdr) (fun q => { q with expected := q.expected + 1#16, since := s.cycle }) :=
    ⟨_, rfl⟩
  obtain ⟨q1, hq1⟩ : ∃ q1 : Pair, q1 = { q with expected := q.expected + 1#16, since := s.cycle } := ⟨_, rfl⟩
  have hubox : u.mbox mb = { s.mbox mb with pairs := [q1] } := by
    rw [hu, mbox_updPair_one hpairs hma hgen, hq1]
  have hrun : judgeHeader s mb m q = settlePair (testMessage u mb m) mb (hdSrcMa m.hdr) (hdSgen m.hdr) := by
    unfold judgeHeader
    dsimp only
    rw [hnext, BitVec.sub_self, hu]
    rfl
  obtain ⟨v, hv⟩ : ∃ v, v = u.updMbox mb (fun b => { b with holes := dropNth b.holes 0 }) := ⟨_, rfl⟩
  obtain ⟨y, hmem, hout, hboxes, hmsg, hhole, hst, hdue⟩ := claimMessage_pulls (s := v) (mb := mb) (m := m) (x := x) hty hkind hlen
    (by rw [hv, hu]; exact hpeer) (by rw [hv, hu]; exact hroom)
  have htest : testMessage u mb m = claimMessage v mb m x := by
    rw [hv]
    exact testMessage_first (by rw [hubox]; exact hholes) hmatch
  have hbox : (testMessage u mb m).mbox mb = { s.mbox mb with pairs := [q1], holes := rest, claims := (s.mbox mb).claims ++ [y] } := by
    rw [htest, mbox_congr hboxes, mbox_updMbox, hv, mbox_updMbox, hubox]
    dsimp only
    rw [hholes]
    rfl
  obtain ⟨hsbox, hsmem, hsout⟩ := settlePair_empty (s := testMessage u mb m) (mb := mb) (ma := hdSrcMa m.hdr) (gen := hdSgen m.hdr) (q := q1)
    (by rw [hbox]) (by rw [hq1]; exact hma) (by rw [hq1]; exact hgen) (by rw [hq1]; exact hheld)
  rw [hrun, hsbox, hsmem, hsout, hbox, htest, hout, hmem, hv, hu]
  refine ⟨y, rfl, rfl, rfl, rfl, hmsg, hhole, hst, hdue.trans ?_⟩
  rw [hv, hu]
  rfl

theorem OnlyHomes.mbox {t : State} (h : OnlyHomes s t) (j : Nat) : t.mbox j = s.mbox j := mbox_congr (congrArg State.mailboxes h.1 :) j

theorem sequenceGapClose_closes {q : Pair} {m : Message} (hmb : s.arg.mb = mb) (hi : s.arg.idx = 0) (hpairs : (s.mbox mb).pairs = [q])
    (hheld : q.held = [m]) (hlate : q.since + s.remto ≤ s.cycle) :
    ∃ t q1, exec .sequenceGapClose s = .next t ∧ (t.mbox mb).pairs = [q1] ∧ q1.srcma = q.srcma ∧ q1.sgen = q.sgen ∧ q1.held = [] ∧
      q1.expected = hdSeq m.hdr + 1#16 := by
  obtain ⟨u, hu, hhomes⟩ : ∃ u, exec .sequenceGapClose s = .next (settlePair (updPair u mb q.srcma q.sgen (fun q => { q with
      expected := hdSeq m.hdr, since := s.cycle })) mb q.srcma q.sgen) ∧ OnlyHomes s u := by
    change ∃ u, execSequenceGapClose s = _ ∧ _
    unfold execSequenceGapClose
    dsimp only
    rw [hmb, hi, hpairs]
    dsimp only [List.getElem?_cons_zero]
    rw [hheld]
    dsimp only
    rw [overdue, decide_eq_true hlate]
    exact ⟨_, rfl, onlyHomes_errLog ..⟩
  have hbox := mbox_updPair_one (s := u) (mb := mb) (q := q) (by rw [hhomes.mbox]; exact hpairs) rfl rfl
    (fun q => { q with expected := hdSeq m.hdr, since := s.cycle })
  have hsettled := settlePair_held (s := updPair u mb q.srcma q.sgen (fun q => { q with expected := hdSeq m.hdr, since := s.cycle })) (mb := mb)
    (ma := q.srcma) (gen := q.sgen) (q := { q with expected := hdSeq m.hdr, since := s.cycle }) (m := m) (by rw [hbox]) rfl rfl hheld rfl
  exact ⟨_, _, hu, hsettled, rfl, rfl, rfl, rfl⟩

end

/-- Settles O40: headers, gaps, pulls and landings, each by the one pair, claim or sector that it concerns. -/
theorem receiveEngine : Obligations.ReceiveEngine := by
  unfold Obligations.ReceiveEngine
  intro s s1 mb i box
  refine ⟨fun peer h bs harrival hty hok hpower hmb => ⟨?refused, ?claims⟩, ?gap, fun c hmb hc hst hpeer => ⟨?pulled, ?short, ?failed⟩, ?lands, ?retry⟩
  case refused =>
    intro hclosed hpeer
    refine ⟨(replyTo (headerMessage s peer h) 0x12#8 2#16 0).hdr, ?_, hdType_mkHeader .., hdHnd_mkHeader .., hdSeq_mkHeader .., hdSgen_mkHeader ..,
      hdDstMa_mkHeader .., hdSrcMa_mkHeader ..⟩
    have hno : (!box.isOpen || !(s.part box.part).peerSet.getLsbD peer.toNat) = true := by rw [hclosed]; rfl
    rw [headerArrival_judges harrival hty hok hpower hmb, if_pos hno]
    exact congrArg Host.Outcome.next (reply_far (arrivalCounted s) (headerMessage s peer h) 2#16 0 (by decide) hpeer)
  case claims =>
    intro q x rest hopen hset hpeer hpairs hma hgen hheld hnext hholes hmatch hkind hlen hroom part
    have hin : ¬ (!box.isOpen || !(s.part box.part).peerSet.getLsbD peer.toNat) = true := by
      rw [hopen, hset]
      exact Bool.false_ne_true
    have hrun := headerArrival_judges harrival hty hok hpower hmb
    rw [if_neg hin, findPair_one (s := arrivalCounted s) (mb := mb) hpairs hma hgen] at hrun
    obtain ⟨y, hrest, hclaims, hout, hmem, hmsg, hhole, hst, hdue⟩ := judgeHeader_pulls (s := arrivalCounted s) (mb := mb)
      (m := headerMessage s peer h) hpairs hma hgen hheld hnext hholes hmatch hty hkind hlen hpeer hroom
    refine ⟨_, y, hrun, hrest, hclaims, by rw [hmsg]; rfl, hhole, hst, hdue, ?_, hmem⟩
    rw [hout, hdue]
    rfl
  case gap => exact fun q m hmb hi hpairs hheld hlate => sequenceGapClose_closes hmb hi hpairs hheld hlate
  case pulled =>
    intro hasked hlen hdata
    obtain ⟨l, hl⟩ := giveTag_eq s c.tag
    refine ⟨_, pullComplete_ends hmb hc hst hpeer hasked hlen hdata, ?_⟩
    rw [hl]
    exact ⟨fun j hj => mbox_updMbox_other _ hj _, rfl, rfl, mbox_updMbox ..⟩
  case short => exact fun hasked hdata => pullComplete_waits hmb hc hst hpeer hasked hdata
  case failed =>
    intro hkind hstat hbar hwake
    obtain ⟨l, hrun⟩ := pullFail_ends hmb hc hst hpeer hkind hstat hbar hwake
    refine ⟨_, hrun, rfl, ?_⟩
    change (dropClaim { s with tags := l } mb i).mbox mb = _
    rw [dropClaim, mbox_updMbox, dropNth_eq_eraseIdx]
    rfl
  case lands =>
    intro c n pa comp hmb hc hst hretry hlanded hasked htests hkind hn hlen hdata hfit hlocate hfault hstat hbar hwake
    obtain ⟨hmem, hbox⟩ := landEnd_bare (s0 := s) (s := homeWrite s1 none pa (c.data.take n) comp) (c := c) (mb := mb) (i := i) hretry hstat hbar hwake
    have hlength : (c.data.take n).length = n := List.length_take_of_le hdata
    have hput : _ = memPut s1.mem pa (c.data.take n) := hmem.trans (mem_homeWrite ..)
    refine ⟨_, landing_lands hmb rfl hc hst hretry hlanded hasked htests hkind hn hlen hdata hfit hlocate hfault, ?_,
      memoryKept_of_memPut hput hlength, ?_⟩
    · have hbytes := memBytes_memPut s1.mem pa (c.data.take n)
      rw [hlength] at hbytes
      rw [hput, hbytes]
    · rw [hbox, (onlyHomes_homeWrite ..).mbox]
  case retry =>
    intro hmb
    refine ⟨s.updMbox mb _, by rw [← hmb]; rfl, ⟨rfl, fun j hj => mbox_updMbox_other s hj _⟩, mbox_updMbox ..⟩

end Sys2Proof.Machine
end

section
/-! PROOFS. Copy commands and timeouts (O36). -/

set_option Elab.async false

namespace Sys2Proof.Machine

open Sys2Proof

/-! ### Copy forms (spec/17_engine_and_system_instructions.md R311) -/

section

variable {s : State} {a b c : BitVec 5} {g : BitVec 4} {p w : BitVec 2} {i : Instr}

/-- The command of a copy form. -/
def enteredCopy (i : Instr) (a b c : BitVec 5) (g : BitVec 4) (p w : BitVec 2) (u : Strand) : CCommand :=
  ⟨i, u.pc, u.getS a, u.getS b, u.getS c, u.getS (c + 1#5), captured u g, w, p⟩

/-- A strand whose copy has joined the queue. -/
def copyEntered (i : Instr) (a b c : BitVec 5) (g : BitVec 4) (p w : BitVec 2) (u : Strand) : Strand :=
  { (captureGuard u g).2 with
    cq := u.cq ++ [enteredCopy i a b c g p w u] }.next

theorem copyForm_full (h : 16 ≤ s.me.cq.length) : copyForm i a b c g p w s = .next s := if_pos h

theorem copyForm_enters (h : s.me.cq.length < 16) : copyForm i a b c g p w s = .next (s.upd (copyEntered i a b c g p w)) := by
  unfold copyForm
  dsimp only
  rw [if_neg (Nat.not_le.2 h)]
  refine congrArg (fun f => Host.Outcome.next (s.upd f)) (funext fun t => ?_)
  obtain ⟨hguard, l, hl⟩ := captureGuard_spec t g
  unfold copyEntered enteredCopy
  rw [← hguard, hl]
  rfl

theorem guard_captureGuard (u : Strand) (g h : BitVec 4) : (captureGuard u g).2.guard h =
    if h = g ∧ g ≠ 0#4 then { u.guard g with cCap := true } else u.guard h := by
  unfold captureGuard
  by_cases hg : g = 0#4
  · rw [if_pos hg, if_neg (fun hh => hh.2 hg)]
  · rw [if_neg hg]
    by_cases hh : h = g
    · rw [if_pos ⟨hh, hg⟩, hh, Strand.guard, tabGet_tabSet, if_pos rfl]
    · rw [if_neg (fun x => hh x.1), Strand.guard, tabGet_tabSet, if_neg (fun x => hh (BitVec.eq_of_toNat_eq x))]
      rfl

theorem copyEntered_spec (u : Strand) : (copyEntered i a b c g p w u).cq =
      u.cq ++ [enteredCopy i a b c g p w u] ∧
    (∀ h, (copyEntered i a b c g p w u).guard h = if h = g ∧ g ≠ 0#4 then { u.guard g with cCap := true } else u.guard h) ∧
    WentOn u { copyEntered i a b c g p w u with cq := u.cq, guards := u.guards } (u.pc + 4#64) := by
  obtain ⟨-, l, hl⟩ := captureGuard_spec u g
  have hnext : copyEntered i a b c g p w u = { u with
      guards := l
      cq := u.cq ++ [enteredCopy i a b c g p w u] }.next := by
    unfold copyEntered
    rw [hl]
  have hguards : ∀ h, (copyEntered i a b c g p w u).guard h = (captureGuard u g).2.guard h := fun h => by
    rw [hnext, hl]
    rfl
  refine ⟨by rw [hnext]; rfl, fun h => (hguards h).trans (guard_captureGuard u g h), ?_⟩
  rw [hnext]
  exact ⟨rfl, rfl, rfl, rfl, rfl, rfl, rfl, rfl, rfl⟩

/-- A copy form joins the queue, or waits while the queue is full. -/
theorem copyForm_spec (hexec : exec i s = copyForm i a b c g p w s) :
    (s.me.cq.length < 16 → ∃ t, exec i s = .next t ∧ OnlyMe s t ∧
      t.me.cq = s.me.cq ++ [enteredCopy i a b c g p w s.me] ∧
      (∀ h, t.me.guard h = if h = g ∧ g ≠ 0#4 then { s.me.guard g with cCap := true } else s.me.guard h) ∧
      WentOn s.me { t.me with cq := s.me.cq, guards := s.me.guards } (s.me.pc + 4#64)) ∧
    (16 ≤ s.me.cq.length → exec i s = .next s) := by
  refine ⟨fun h => ⟨_, hexec.trans (copyForm_enters h), onlyMe_upd s _, ?_⟩, fun h => hexec.trans (copyForm_full h)⟩
  rw [me_upd]
  exact copyEntered_spec s.me

end

/-! ### A copy starts (R312) -/

theorem countOwner_same (s : State) (o : Owner) (e n : Nat) (j : Nat) : SameButCounts (s.strand j) ((countOwner s o e n).strand j) := by
  unfold countOwner
  split
  · exact (countEvent_spec s _ e n).2 j
  · rfl

section

variable {s : State} {k : Nat} {c : CCommand} {rest : List CCommand}

/-- The copy in flight that a command becomes. -/
def startedCopy (s : State) (k : Nat) (c : CCommand) : Copy :=
  ⟨(s.strand k).owner k, false, coreOf k, c, 0#8, 0, none, none, copyNear c 0#896, 0#896, .run CopyReads.none, s.cycle⟩

/-- The state in which a strand's copy queue has lost its head. -/
def copyTaken (s : State) (k : Nat) (rest : List CCommand) : State :=
  { s.setStrand k { s.strand k with cq := rest } with lastC := tabPut 0 s.lastC (coreOf k) (k % 4) }

theorem copyAsk_nothing (s : State) (x : Copy) :
    copyAsk s x [] [] [] = some ({ x with phase := .run CopyReads.none, tag := none, since := s.cycle }, countCopy { s with outbox := s.outbox ++ [] } x 0x0008 0) := by
  unfold copyAsk engineSome
  dsimp only [List.length_nil]
  rw [Nat.zero_min, if_neg (fun h => h.2 rfl)]
  rfl

theorem startCopy_asks_nothing (u : State) (o : Owner) (core : Nat) (hbar : c.bar = 0#64) (hins : ∀ a b r g p w, c.ins ≠ .cpyt a b r g p w)
    (hasks : copyAsks u ⟨o, false, core, c, 0#8, 0, none, none, copyNear c 0#896, 0#896, .run CopyReads.none, u.cycle⟩ = []) :
    startCopy u o false core c = (copyAsk u ⟨o, false, core, c, 0#8, 0, none, none, copyNear c 0#896, 0#896, .run CopyReads.none, u.cycle⟩ [] [] []).map
      (fun x => { x.2 with copies := x.2.copies ++ [x.1] }) := by
  have hcopyBar : copyBar u (copyCtx u o core) c = .ok (none, u) := if_pos hbar
  unfold startCopy
  dsimp only
  rw [hcopyBar]
  dsimp only
  split
  next h => exact absurd h (hins _ _ _ _ _ _)
  next =>
    unfold copyBegin
    dsimp only
    rw [hasks]

theorem popToken_none (t : Strand) (q : Queue) : popToken t q 0#2 = some t := rfl
theorem reserveToken_none (t : Strand) (q : Queue) : reserveToken t q 0#2 = some t := rfl

theorem copyStart_starts (hsrc : s.arg.copySrc = .slot k) (hq : (s.strand k).cq = c :: rest) (hrun : (s.strand k).phase = .running)
    (hwait : (s.strand k).wait = .none) (hguard : c.guard = none) (hpop : c.pop = 0#2) (hpush : c.push = 0#2) (hbar : c.bar = 0#64)
    (hins : ∀ a b r g p w, c.ins ≠ .cpyt a b r g p w) (hmay : s.mayIssue (s.strand k).part (s.strand k).gang = true)
    (hturn : cTurn s (coreOf k) (k % 4) = true)
    (hfree : transferFree s ((s.strand k).owner k) false (recCq (s.strand k).rcd).toNat (coreOf k) = true)
    (hasks : copyAsks (copyTaken s k rest) (startedCopy s k c) = []) : ∃ u : State, exec .copyStart s =
      .next { u with copies := s.copies ++ [startedCopy s k c] } ∧ u.mem = s.mem ∧ (u.strand k).cq = rest ∧
      ∀ j, j ≠ k → SameButCounts (s.strand j) (u.strand j) := by
  have hstart := startCopy_asks_nothing (copyTaken s k rest) ((s.strand k).owner k) (coreOf k) hbar hins hasks
  rw [copyAsk_nothing] at hstart
  obtain ⟨u, hu⟩ : ∃ u, u = countCopy { copyTaken s k rest with outbox := (copyTaken s k rest).outbox ++ [] } (startedCopy s k c) 0x0008 0 := ⟨_, rfl⟩
  have hkept : PackageKept { copyTaken s k rest with outbox := (copyTaken s k rest).outbox ++ [] } u := by
    rw [hu]
    exact countOwner_kept ..
  have hsame : ∀ j, SameButCounts ((copyTaken s k rest).strand j) (u.strand j) := by
    rw [hu]
    exact fun j => countOwner_same _ _ _ _ j
  have hcopies : u.copies = s.copies := (congrArg State.copies hkept :)
  have hfrom : startFromSlot s k = { u with copies := s.copies ++ [startedCopy s k c] } := by
    unfold startFromSlot
    dsimp only
    rw [hq]
    dsimp only
    rw [hguard, hpop, hpush, hwait, hmay, hrun, hfree, popToken_none]
    dsimp only
    rw [if_neg (by decide), reserveToken_none]
    simp only [if_neg (show ¬ Wait.none = Wait.exit by decide)]
    change (startCopy (copyTaken s k rest) ((s.strand k).owner k) false (coreOf k) c).getD s = _
    rw [hstart, ← hcopies, hu]
    rfl
  have hmine : ((copyTaken s k rest).strand k).cq = rest := by
    change ((s.setStrand k { s.strand k with cq := rest }).strand k).cq = rest
    rw [strand_setStrand, if_pos rfl]
  refine ⟨u, ?_, hkept.mem, ?_, fun j hj => ?_⟩
  · rw [← hfrom]
    change execCopyStart s = _
    unfold execCopyStart
    rw [hsrc]
    dsimp only
    rw [hturn, if_pos rfl]
  · rw [show (u.strand k).cq = ((copyTaken s k rest).strand k).cq from (congrArg Strand.cq (hsame k) :), hmine]
  · have hother : (copyTaken s k rest).strand j = s.strand j := by
      change (s.setStrand k { s.strand k with cq := rest }).strand j = _
      rw [strand_setStrand, if_neg hj]
    rw [← hother]
    exact hsame j

end

/-! ### A copy retires (R312, R314) -/

section

variable {s s1 s2 : State} {c : Copy} {n pa ps : Nat} {comp cs : Bool}

theorem updOwner_kept (s : State) (o : Owner) (f : Strand → Strand) : (updOwner s o f).mem = s.mem ∧ (updOwner s o f).copies = s.copies := by
  unfold updOwner
  split <;> exact ⟨rfl, rfl⟩

/-- The end of a copy that met no error leaves memory, and takes the copy out of the list. -/
theorem copyEnd_clean (u : State) (i : Nat) (c : Copy) (bad : Nat) :
    (copyEnd u i c 0 bad).mem = u.mem ∧ (copyEnd u i c 0 bad).copies = u.copies.eraseIdx i := by
  obtain ⟨l, hl⟩ := giveTag_eq { u with copies := dropNth u.copies i } c.tag
  have hcount : ∀ v : State, PackageKept v (countCopy v c 0x000B 1) := fun v => by
    unfold countCopy
    split
    · rfl
    · exact countOwner_kept ..
  unfold copyEnd
  dsimp only
  rw [copyFault, if_pos rfl, if_pos rfl, hl, ← dropNth_eq_eraseIdx]
  rw [(hcount _).mem, show ∀ v : State, (countCopy v c 0x000B 1).copies = v.copies from fun v => (congrArg State.copies (hcount v) :)]
  split
  · exact ⟨rfl, rfl⟩
  · exact updOwner_kept ..

/-- A copy that asks nothing and signals no barrier retires once it has been made. -/
theorem copyRetire_runs {bs : List Byte} (hc : s.copies[s.arg.idx]? = some c) (hphase : c.phase = .run CopyReads.none) (hstatus : c.status = 0#8) (hbar : c.bar = none)
    (hrun : ∀ stop f, ∃ g, copyRun s c false stop f = some ⟨homeWrite s1 none pa bs comp, 1, 0, 0, g, []⟩) :
    exec .copyRetire s = .next (copyEnd (homeWrite s1 none pa bs comp) s.arg.idx c 0 0) := by
  have hmade : ∀ stop f, copyMade s s.arg.idx c stop f = copyEnd (homeWrite s1 none pa bs comp) s.arg.idx c 0 0 := fun stop f => by
    obtain ⟨g, hg⟩ := hrun stop f
    unfold copyMade
    rw [hg]
    dsimp only
    unfold copySend copyUpdate
    dsimp only
    rw [hbar]
    rfl
  change execCopyRetire s = _
  unfold execCopyRetire
  dsimp only
  rw [hc]
  dsimp only
  rw [hphase]
  dsimp only
  rw [hstatus, if_neg (by decide), if_neg (not_not.2 rfl)]
  unfold copyAnswered
  dsimp only
  split
  · rw [hmade]
  · have hall : CopyReads.none.rest.isEmpty = true := rfl
    rw [if_neg (by exact Nat.not_lt_zero _), if_pos hall, hmade]

theorem copyRetire_spec (hc : s.copies[s.arg.idx]? = some c) (hphase : c.phase = .run CopyReads.none) (hstatus : c.status = 0#8)
    (hbar : c.bar = none) {bs : List Byte}
    (hrun : ∀ stop f, ∃ g, copyRun s c false stop f = some ⟨homeWrite s1 none pa bs comp, 1, 0, 0, g, []⟩) :
    ∃ t, exec .copyRetire s = .next t ∧ t.mem = memPut s1.mem pa bs ∧ t.copies = s1.copies.eraseIdx s.arg.idx := by
  obtain ⟨hmem, hcopies⟩ := copyEnd_clean (homeWrite s1 none pa bs comp) s.arg.idx c 0
  refine ⟨_, copyRetire_runs hc hphase hstatus hbar hrun, hmem.trans (mem_homeWrite ..), hcopies.trans ?_⟩
  rw [show (homeWrite s1 none pa bs comp).copies = s1.copies from (congrArg State.copies (onlyHomes_homeWrite s1 none pa bs comp).1 :)]

section

variable {slot : Nat} (hslot : slot = (ownerSlot s c.owner).getD 0) (hlen : (slice c.cmd.arg 0 40).toNat = n) (hn : 0 < n)
  (hfit : c.cmd.dst.toNat % 32 + n ≤ 32) (htests : s.tests = [])

include hslot hlen hn hfit htests

/-- CPYZ within one sector writes its pattern. -/
theorem copyRun_cpyz {a b r : BitVec 5} {g : BitVec 4} {p w : BitVec 2} (hins : c.cmd.ins = .cpyz a b r g p w)
    (hlocate : locate s (copyCtx s c.owner c.core) c.cmd.dst n 1 .write acceptsPlain = .ok (.mem pa comp, s1))
    (hfault : accessFault s slot (.mem pa comp) n false = none) (stop : Option FaultClass) (f : Feed) :
    copyRun s c false stop f = some ⟨homeWrite s1 none pa ((List.range n).map (fun i => patternByte c.cmd.src (c.cmd.dst.toNat + i))) comp,
      1, 0, 0, f, []⟩ := by
  have hpieces : copyPieces c = [⟨c.cmd.dst.toNat, n, none, (List.range n).map (fun i => patternByte c.cmd.src (c.cmd.dst.toNat + i))⟩] := by
    unfold copyPieces
    rw [hins]
    dsimp only
    unfold cpyzPieces copyLen
    rw [hlen, sectorCuts_one hn hfit]
    rfl
  unfold copyRun
  dsimp only
  rw [hins]
  dsimp only
  rw [hpieces]
  refine copySectors_one rfl (placePieces_one (u := s1) htests ?_ ?_)
  · change locate s (copyCtx s c.owner c.core) (BitVec.ofNat 64 c.cmd.dst.toNat) n 1 .write acceptsPlain = _
    rw [BitVec.ofNat_toNat, BitVec.setWidth_eq]
    exact hlocate
  · change accessFault s ((ownerSlot s c.owner).getD 0) (.mem pa comp) n false = none
    rw [← hslot]
    exact hfault

omit hslot hlen hn hfit htests in
theorem copyRead_nothing (e : CopyEnv) (va k : Nat) (f : Feed) (st : State) : copyRead e va k 0 f st = .ok ⟨[], none, f, st⟩ := by
  cases k <;> rfl

/-- CPY within one sector on each side writes the bytes of its source. -/
theorem copyRun_cpy {a b r : BitVec 5} {g : BitVec 4} {p w : BitVec 2} (hins : c.cmd.ins = .cpy a b r g p w)
    (hsrc : c.cmd.src.toNat % 32 + n ≤ 32)
    (hread : locate s (copyCtx s c.owner c.core) c.cmd.src n 1 .read acceptsPlain = .ok (.mem ps cs, s1))
    (hgood : accessFault s slot (.mem ps cs) n true = none)
    (hlocate : locate s1 (copyCtx s c.owner c.core) c.cmd.dst n 1 .write acceptsPlain = .ok (.mem pa comp, s2))
    (hfault : accessFault s1 slot (.mem pa comp) n false = none) (stop : Option FaultClass) (f : Feed) :
    copyRun s c false stop f = some ⟨homeWrite s2 none pa (memBytes s.mem ps n) comp, 1, 0, 0, f, []⟩ := by
  have hpieces : copyPieces c = [⟨c.cmd.dst.toNat, n, some c.cmd.src.toNat, []⟩] := by
    unfold copyPieces
    rw [hins]
    dsimp only
    unfold cpyPieces copyLen
    rw [hlen, sectorCuts_one hn hfit, List.map_cons, List.map_nil, Nat.sub_self, Nat.add_zero]
  have hcopy : copyRead (copyEnv s c false stop) c.cmd.src.toNat 4 n f s = .ok ⟨memBytes s.mem ps n, none, f, s1⟩ := by
    obtain ⟨m, rfl⟩ : ∃ m, n = m + 1 := ⟨n - 1, by omega⟩
    have hwhole : min (m + 1) (32 - c.cmd.src.toNat % 32) = m + 1 := by omega
    have hnear : nearbyRead (copyEnv s c false stop) c.cmd.src.toNat (m + 1) (.mem ps cs) f s1 =
        .ok ⟨memBytes s.mem ps (m + 1), none, f, s1⟩ := by
      have hgood' : accessFault s ((ownerSlot s c.owner).getD 0) (.mem ps cs) (m + 1) true = none := hslot ▸ hgood
      unfold nearbyRead copyEnv
      dsimp only
      rw [underTest_nil htests, if_neg Bool.false_ne_true, hgood']
      rfl
    have hloc : locate s (copyEnv s c false stop).ctx (BitVec.ofNat 64 c.cmd.src.toNat) (m + 1) 1 .read acceptsPlain =
        .ok (.mem ps cs, s1) := by
      rw [BitVec.ofNat_toNat, BitVec.setWidth_eq]
      exact hread
    rw [copyRead]
    rw [hwhole, hloc]
    dsimp only
    have hlocal : isLocal s (.mem ps cs) = true := rfl
    rw [hlocal, if_pos rfl, hnear]
    dsimp only
    rw [Nat.sub_self, copyRead_nothing]
    dsimp only
    rw [List.append_nil]
    rfl
  have htests' : s1.tests = [] := (onlyHomes_locate hread).tests.trans htests
  unfold copyRun
  dsimp only
  rw [hins]
  dsimp only
  rw [hpieces]
  refine copySectors_one (v := s1) ?_ (placePieces_one (u := s2) htests' ?_ ?_)
  · rw [readPieces]
    dsimp only
    rw [hcopy]
    rfl
  · change locate s1 (copyCtx s c.owner c.core) (BitVec.ofNat 64 c.cmd.dst.toNat) n 1 .write acceptsPlain = _
    rw [BitVec.ofNat_toNat, BitVec.setWidth_eq]
    exact hlocate
  · change accessFault s1 ((ownerSlot s c.owner).getD 0) (.mem pa comp) n false = none
    rw [← hslot]
    exact hfault

end

end

/-! ### Discards and timeouts (R314, spec/05_memories.md R97) -/

section

variable {s : State} {k i : Nat}

theorem guardedCommandDiscard_drops {c : CCommand} {rest : List CCommand} {e : Epoch} (hslot : s.arg.slot = k) (hengine : s.arg.engine = .copy)
    (hq : (s.strand k).cq = c :: rest) (hrun : (s.strand k).phase = .running) (hwait : (s.strand k).wait = .none) (hguard : c.guard = some e)
    (hval : e.val = some false) (hpop : c.pop = 0#2) (hpush : c.push = 0#2) :
    exec .guardedCommandDiscard s = .next (s.setStrand k { s.strand k with cq := rest }) := by
  obtain ⟨dropped, hdropped⟩ : ∃ dropped, dropped = s.setStrand k { s.strand k with cq := rest } := ⟨_, rfl⟩
  rw [← hdropped]
  change execGuardedCommandDiscard s = _
  unfold execGuardedCommandDiscard
  dsimp only
  rw [hslot, hrun, hengine, if_neg (by decide)]
  dsimp only
  rw [hq]
  dsimp only
  rw [hguard, hpop, hpush, popToken_none, hwait]
  dsimp only
  rw [if_neg (show ¬ (!(e.val == some false)) = true by rw [hval]; exact Bool.false_ne_true), hdropped]
  rfl

theorem dropNth_setNth {α : Type} (l : List α) (i : Nat) (b : α) : dropNth (setNth l i b) i = dropNth l i := by
  induction l generalizing i with
  | nil => rfl
  | cons a l ih =>
    cases i with
    | zero => rfl
    | succ i => exact congrArg (a :: ·) (ih i)

theorem mem_setNth {α : Type} {l : List α} {i : Nat} {b x : α} (h : x ∈ setNth l i b) : x = b ∨ x ∈ l := by
  induction l generalizing i with
  | nil => exact absurd h List.not_mem_nil
  | cons a l ih =>
    cases i with
    | zero =>
      rcases List.mem_cons.1 h with h | h
      · exact .inl h
      · exact .inr (List.mem_cons_of_mem _ h)
    | succ i =>
      rcases List.mem_cons.1 h with h | h
      · exact .inr (List.mem_cons.2 (.inl h))
      · exact (ih h).imp id (List.mem_cons_of_mem _)

/-- Each tag that is quarantined is busy under its next generation until its time (R97, R98). -/
theorem tag_dropTag (s : State) (x : Nat) {y : Nat} (hy : y ∈ x :: (s.tag x).more) :
    (dropTag s (some x)).tag y = ⟨(s.tag y).gen + 1#6, true, s.cycle + 2 * s.remto, []⟩ := by
  have hfold : ∀ (l : List (Nat × Nat)) (t : Tab RemoteTag), (y ∈ l.map Prod.fst ∨
      tabGet RemoteTag.fresh t y = ⟨(s.tag y).gen + 1#6, true, s.cycle + 2 * s.remto, []⟩) →
      tabGet RemoteTag.fresh (l.foldl (fun t x => tabSet t x.1 ⟨(s.tag x.1).gen + 1#6, true, s.cycle + 2 * s.remto, []⟩) t) y =
        ⟨(s.tag y).gen + 1#6, true, s.cycle + 2 * s.remto, []⟩ := by
    intro l
    induction l with
    | nil => exact fun t h => h.resolve_left List.not_mem_nil
    | cons p l ih =>
      intro t h
      refine ih _ ?_
      by_cases hp : y = p.1
      · exact .inr (by rw [tabGet_tabSet, if_pos hp, hp])
      · rcases h with h | h
        · exact .inl ((List.mem_cons.1 h).resolve_left hp)
        · exact .inr (by rw [tabGet_tabSet, if_neg hp]; exact h)
  refine hfold (x :: (s.tag x).more).zipIdx s.tags (.inl ?_)
  rw [List.zipIdx_map_fst]
  exact hy

/-- The flag access of an STN whose data access has this number. -/
def isFlagOf (q : Nat) (y : Access) : Bool := y.seq == q && (match y.op with
  | .flag _ => true
  | _ => false)

theorem isFlagOf_eq_false {q : Nat} {y : Access} (h : ∀ sc, y.op ≠ .flag sc) : isFlagOf q y = false := by
  unfold isFlagOf
  split
  next hflag => exact absurd hflag (h _)
  next => exact Bool.and_false _

theorem dropFlag_of_store {a : Access} {v : Word} (hop : a.op = .store v) (s : State) (k : Nat) : dropFlag s k a =
    (((s.strand k).out.filter (isFlagOf a.seq)).foldl (fun u b => giveTag u b.tag) s).updSlot k (fun t => { t with
      out := t.out.filter (fun b => !isFlagOf a.seq b) }) := by
  unfold dropFlag
  rw [hop]
  rfl

/-- The strand whose timed-out store has left a deferred error. -/
def storeDeferred (u : Strand) (i : Nat) (a : Access) : Strand :=
  { { u with out := dropNth u.out i }.flush with deferred := some ⟨a.seq, .remoteTimeout, a.va, BitVec.ofNat 32 a.elem, a.akind⟩ }

theorem accessTimeout_store {a : Access} {v : Word} {x : Nat} (ha : (s.strand k).out[i]? = some a) (hop : a.op = .store v) (hsent : a.sent = true)
    (hlate : a.since + s.remto ≤ s.cycle) (hblocks : a.blocks = false) (hsb : a.sb = 0#3) (htag : a.tag = some x)
    (hdeferred : (s.strand k).deferred = none) (hflags : ∀ b ∈ (s.strand k).out, ∀ sc, b.op ≠ .flag sc) :
    accessTimeout s k i = { dropTag s (some x) with strands := (accessTimeout s k i).strands } ∧
    (accessTimeout s k i).strand k = storeDeferred (s.strand k) i a := by
  obtain ⟨tags, htags⟩ := dropTag_eq s (some x)
  obtain ⟨b, hb⟩ : ∃ b : Access, b = { a with tag := none } := ⟨_, rfl⟩
  obtain ⟨s1, hs1⟩ : ∃ s1, s1 = (dropTag s (some x)).updSlot k (fun t => { t with out := setNth t.out i b }) := ⟨_, rfl⟩
  have hs1k : s1.strand k = { s.strand k with out := setNth (s.strand k).out i b } := by
    rw [hs1, strand_updSlot_self, htags]
    rfl
  have hnone : ∀ y ∈ setNth (s.strand k).out i b, ∀ sc, y.op ≠ .flag sc := fun y hy sc h => by
    rcases mem_setNth hy with rfl | hy
    · rw [hb, hop] at h
      cases h
    · exact hflags y hy sc h
  have hopb : b.op = .store v := by rw [hb]; exact hop
  have hgone : (s1.strand k).out.filter (isFlagOf b.seq) = [] := by
    rw [hs1k]
    refine List.filter_eq_nil_iff.2 fun y hy => ?_
    rw [isFlagOf_eq_false (hnone y hy)]
    exact Bool.false_ne_true
  obtain ⟨s2, hs2, hs2k⟩ : ∃ s2, dropFlag s1 k b = s2 ∧ s2 = s1.updSlot k (fun t => { t with
      out := t.out.filter (fun y => !isFlagOf b.seq y) }) := by
    refine ⟨_, rfl, ?_⟩
    rw [dropFlag_of_store hopb, hgone]
    rfl
  have hs2out : s2.strand k = { s.strand k with out := setNth (s.strand k).out i b } := by
    rw [hs2k, strand_updSlot_self, hs1k]
    dsimp only
    rw [List.filter_eq_self.2 fun y hy => by rw [isFlagOf_eq_false (hnone y hy)]; rfl]
  have hsettle : settle s2 k i b (failedAck b) = s2.updSlot k (fun t => { t with out := dropNth t.out i }.flush) := by
    unfold settle failedAck
    rw [hb]
    dsimp only
    rw [hop, hblocks]
    rfl
  have hcond : (!a.sent || !overdue s a.since || (a.blocks && ((s.strand k).out.take i).any (fun b => b.seq == a.seq))) = false := by
    rw [hsent, overdue, decide_eq_true hlate, hblocks]
    rfl
  have hrun : accessTimeout s k i = storeError (s2.updSlot k (fun t => { t with out := dropNth t.out i }.flush)) k b .remoteTimeout := by
    unfold accessTimeout
    rw [ha]
    dsimp only
    rw [hcond, if_neg Bool.false_ne_true, htag, ← hb, ← hs1]
    unfold accessFails
    rw [show b.blocks = false by rw [hb]; exact hblocks, ← hsettle, ← hs2]
    rfl
  have hstrand : (s2.updSlot k (fun t => { t with out := dropNth t.out i }.flush)).strand k =
      { s.strand k with out := dropNth (s.strand k).out i }.flush := by
    rw [strand_updSlot_self, hs2out]
    dsimp only
    rw [dropNth_setNth]
  have hnodef : ({ s.strand k with out := dropNth (s.strand k).out i }.flush).deferred = none := by
    obtain ⟨_, _, _, _, _, h⟩ := flush_frame { s.strand k with out := dropNth (s.strand k).out i }
    rw [h]
    exact hdeferred
  have hdefer : storeError (s2.updSlot k (fun t => { t with out := dropNth t.out i }.flush)) k b .remoteTimeout =
      (s2.updSlot k (fun t => { t with out := dropNth t.out i }.flush)).setStrand k (storeDeferred (s.strand k) i a) := by
    unfold storeError
    rw [if_neg (by rw [hb]; exact not_not.2 hsb), if_neg (by decide)]
    unfold deferError
    dsimp only
    rw [hstrand, hnodef, hb]
    rfl
  rw [hrun, hdefer]
  refine ⟨?_, by rw [strand_setStrand, if_pos rfl]⟩
  rw [hs2k, hs1]
  rfl

theorem joinTimeout_drops {j : JoinOp} (hj : s.joinOps[i]? = some j) (htag : j.tag ≠ none) (hlate : j.since + s.remto ≤ s.cycle) :
    (joinTimeout s i).joinOps = s.joinOps.eraseIdx i := by
  have htagged : j.tag.isNone = false := by
    cases h : j.tag with
    | none => exact absurd h htag
    | some x => rfl
  obtain ⟨l, hl⟩ := dropTag_eq { s with joinOps := dropNth s.joinOps i } j.tag
  have hrun : joinTimeout s i = joinFail (dropTag { s with joinOps := dropNth s.joinOps i } j.tag) j.part j.sid j.va .remoteTimeout := by
    unfold joinTimeout
    rw [hj]
    dsimp only
    rw [htagged, overdue, decide_eq_true hlate]
    rfl
  have hlog := (congrArg State.joinOps (onlyHomes_errLog (some j.part) (j.sid.toNat / 256) j.sid 0x13 j.va (classCode .remoteTimeout)
    (dropTag { s with joinOps := dropNth s.joinOps i } j.tag)).1 :)
  rw [hrun, ← dropNth_eq_eraseIdx]
  refine Eq.trans hlog ?_
  rw [hl]

end

/-- Settles O36: copies enter their queue, start, retire within a sector and are dropped, and accesses that no peer answers time out. -/
theorem copiesAndTimeouts : Obligations.CopiesAndTimeouts := by
  unfold Obligations.CopiesAndTimeouts
  refine ⟨fun s a b c g p w => ?enters, fun s s1 s2 k n pa ps comp cs => ?engine⟩
  case enters =>
    intro u enters
    exact ⟨copyForm_spec rfl, copyForm_spec rfl, copyForm_spec rfl, copyForm_spec (b := 0#5) rfl⟩
  case engine =>
    intro u i
    refine ⟨?start, ?retire, ?discard, ?access, ?join⟩
    case start =>
      intro c rest hsrc hq hrun hwait hguard hpop hpush hbar hins hmay hturn hfree x hasks
      obtain ⟨v, hexec, hmem, hrest, hothers⟩ := copyStart_starts hsrc hq hrun hwait hguard hpop hpush hbar hins hmay hturn hfree hasks
      exact ⟨_, hexec, rfl, hrest, hmem, hothers⟩
    case retire =>
      intro c hc hphase htests hstatus hbar hn hlen hfit slot ctx
      refine ⟨fun a b r g p w hins hlocate hfault => ?_, fun a b r g p w hins hsrc hread hgood hlocate hfault => ?_⟩
      · obtain ⟨t, hexec, hmem, hcopies⟩ := copyRetire_spec hc hphase hstatus hbar
          (fun stop f => ⟨f, copyRun_cpyz rfl hlen hn hfit htests hins hlocate hfault stop f⟩)
        refine ⟨t, hexec, memoryKept_of_memPut hmem (by rw [List.length_map, List.length_range]), hcopies, fun j hj => ?_⟩
        rw [hmem, memByte_memPut, dif_pos (by rw [List.length_map, List.length_range]; omega)]
        simp only [List.getElem_map, List.getElem_range, Nat.add_sub_cancel_left]
        rfl
      · obtain ⟨t, hexec, hmem, hcopies⟩ := copyRetire_spec hc hphase hstatus hbar
          (fun stop f => ⟨f, copyRun_cpy rfl hlen hn hfit htests hins hsrc hread hgood hlocate hfault stop f⟩)
        have hput := memBytes_memPut s2.mem pa (memBytes s.mem ps n)
        rw [memBytes_length] at hput
        exact ⟨t, hexec, memoryKept_of_memPut hmem (memBytes_length ..), hcopies, by rw [hmem, hput]⟩
    case discard =>
      intro c rest e hslot hengine hq hrun hwait hguard hval hpop hpush
      refine ⟨_, guardedCommandDiscard_drops hslot hengine hq hrun hwait hguard hval hpop hpush, ⟨rfl, fun j hj => ?_⟩, ?_⟩
      · rw [strand_setStrand, if_neg hj]
      · rw [strand_setStrand, if_pos rfl]
    case access =>
      intro a v peer ra x htimeout ha hop hplace hpeer hsent hlate hblocks hsb htag hdeferred hflags
      obtain ⟨hstate, hstrand⟩ := accessTimeout_store ha hop hsent hlate hblocks hsb htag hdeferred hflags
      obtain ⟨l, hl⟩ := dropTag_eq s (some x)
      have hrun : exec .remoteTimeout s = .next (accessTimeout s k i) := by
        change execRemoteTimeout s = _
        unfold execRemoteTimeout
        rw [htimeout]
      refine ⟨_, hrun, ?_, ?_, ?_, fun y hy => ?_⟩
      · rw [hstrand]
        obtain ⟨_, _, _, _, _, hflush⟩ := flush_frame { u with out := dropNth u.out i }
        unfold storeDeferred
        rw [hflush, dropNth_eq_eraseIdx]
      · rw [hstate, hl]
      · rw [hstrand]
        rfl
      · rw [hstate]
        exact tag_dropTag s x hy
    case join =>
      intro j htimeout hj htag hlate
      have hrun : exec .remoteTimeout s = .next (joinTimeout s i) := by
        change execRemoteTimeout s = _
        unfold execRemoteTimeout
        rw [htimeout]
      exact ⟨_, hrun, joinTimeout_drops hj htag hlate⟩

end Sys2Proof.Machine
end
